-- ==== Sys2Proof/Word.lean ====
section
/-! DEFINITION. The word types of the JM8 and the plainest arithmetic on them: 32-bit register words, bytes, and the
conversion of a list of bytes to a number and back in little-endian order (R48) and in big-endian order (keys, R542). -/

namespace Sys2Proof

/-- A 32-bit register word (R630). -/
abbrev Word := BitVec 32

/-- A byte of memory. -/
abbrev Byte := BitVec 8

/-- 2^32, the modulus of the counters that wrap at 0xFFFF_FFFF. -/
abbrev two32 : Nat := 4294967296

/-- 2^64. -/
abbrev two64 : Nat := 18446744073709551616

/-- Little-endian value of a list of bytes (R48). -/
def leVal : List Byte → Nat
  | [] => 0
  | b :: bs => b.toNat + 256 * leVal bs

/-- The `n` low bytes of a value, least significant first (R48). -/
def leBytes : Nat → Nat → List Byte
  | 0, _ => []
  | n + 1, v => BitVec.ofNat 8 v :: leBytes n (v / 256)

/-- Big-endian value of a list of bytes. -/
def beVal (bs : List Byte) : Nat := leVal bs.reverse

/-- The `n` low bytes of a value, most significant first. -/
def beBytes (n v : Nat) : List Byte := (leBytes n v).reverse

/-- Bits `lo` up to `lo + w - 1` of a value. -/
def bits (v lo w : Nat) : Nat := v / 2 ^ lo % 2 ^ w

/-- One bit of a value. -/
def bit (v i : Nat) : Bool := v.testBit i

/-- 1 for true, 0 for false. -/
def b2n (b : Bool) : Nat := if b then 1 else 0

/-- A list of `n` equal elements of a value; the zeros that pad a record. -/
def zeros (n : Nat) : List Byte := List.replicate n 0

end Sys2Proof
end

