-- ==== Sys2Proof/Machine/Base.lean ====
section
/-! DEFINITION. The shared data of commands and of the state: who sends a register access, memory requests, ECC outcomes and
Hegen frames. -/

namespace Sys2Proof.Machine

/-- Who makes a register access (R632). -/
inductive Requester where
  /-- host software through the PF's BAR0 -/
  | pf
  /-- host software through the window of VF `c`, 1 to 15 (R510) -/
  | vf (c : Nat)
  /-- hub pair `k`, 0 to 3 -/
  | hubPair (k : Nat)
  /-- control pair `k` of die `d` (R31) -/
  | diePair (d k : Nat)
deriving DecidableEq, Repr

/-- What the DRAM and its check symbols gave for one 64-byte access (R311 to R313); physics, so an operand of the
commands that read. -/
inductive Ecc where
  | clean
  /-- one wrong symbol; `again` says that the second read needed correction too (R312) -/
  | corrected (again : Bool)
  | uncorrectable
deriving DecidableEq, Repr

/-- How a request to memory ended. -/
inductive MemStatus where
  | ok | addrFault | memUncorr
  /-- issued and not complete -/
  | waiting
deriving DecidableEq, Repr

/-- One 64-byte request on its way to a channel (R304, R305), after the span lookup of R299. -/
structure MemReq where
  /-- context, 0 to 15 -/
  ctx : Nat
  /-- class of R305, 0 to 7, or 8 for maintenance -/
  cls : Nat
  write : Bool
  /-- home die × 128 + channel -/
  chan : Nat
  page : Nat
  /-- byte within the page, a multiple of 64 -/
  off : Nat
  data : List Byte := []
  /-- a repair copy, whose budget is 256 (R305) -/
  copy : Bool := false
  /-- number by which the requester knows the answer -/
  tag : Nat := 0
  /-- the die whose span entries were looked up, from which the request takes its route (R33) -/
  die : Nat := 0
  /-- a scrub read (R315) -/
  scrub : Bool := false
deriving DecidableEq, Repr

/-- A request of an engine in its issue order, with its answer once that has come (R325). -/
structure MemResp where
  /-- the engine: requesting die × 256 + context × 16 + class -/
  eng : Nat := 0
  tag : Nat
  status : MemStatus
  data : List Byte := []
deriving DecidableEq, Repr

/-- Where a sync operation comes from. -/
inductive SyncSrc where
  /-- the descriptor in hand of list `lid` of cluster `cl`; with `hold` the operation leaves the node but waits in its
  crossing (R44, R366) -/
  | list (cl lid : Nat) (hold : Bool)
  /-- the first operation of this kind in front of its crossing (R43) -/
  | crossing
  /-- the sync descriptor at the head of context `ctx`'s collective list (R353, R673) -/
  | hub (ctx : Nat)
deriving DecidableEq, Repr

/-- A partial that the DMA engine of die `die` encodes for transport before a SEND reads it: `n` FP32 tiles at `src`, written at `dst` in
the layout of R134 (R132). -/
structure PartEnc where
  die : Nat
  src : Nat
  dst : Nat
  n : Nat
deriving DecidableEq, Repr

/-- An operand that a cluster's DMA engine copies into the staging window: `n` bytes from offset `src` of the scratch to offset `dst` of the
window (R223). -/
structure Stage where
  src : Nat
  dst : Nat
  n : Nat
deriving DecidableEq, Repr

/-- The work of a PRECONDITION: the block, the SRAM address of the GROUP descriptor of its operation 5, and the units that form its
products (R65, R161). -/
structure PreWork where
  gbi : Nat
  hdr : Nat
  us : List Nat
deriving DecidableEq, Repr

/-- The work of a FACTOR_UPDATE: the block and the units that form its products (R205). -/
structure FacWork where
  gbi : Nat
  us : List Nat
deriving DecidableEq, Repr

/-- The time at the end of a tile: hclk for which the feed stalled, and passes of the next tile beside the check (R98, R119). -/
structure TileTime where
  stall : Nat
  ahead : Nat
deriving DecidableEq, Repr

/-- A piece of a product of a root job: its wide descriptor, the operands that are staged for it, and whether an uncorrectable error was
met in the staging window (R233, R244). -/
structure Piece where
  desc : List Byte
  st : List Stage
  unc : Bool
deriving DecidableEq, Repr

/-- The end of a field repair: a spare of the stack was left, and the accesses of the page that were uncorrectable (R314, R317). -/
structure RepairEnd where
  spareLeft : Bool
  bad : List Nat
deriving DecidableEq, Repr

/-- The work of a SEND: its context, the turns that find room, the stretch, and the partials to encode (R132, R412, R428). -/
structure SendWork where
  ctx : Nat
  room : Nat
  k : Nat
  enc : List PartEnc
deriving DecidableEq, Repr

/-- The work of a RECV: its context, the flag that its gathered tiles signal, and the stretch (R58, R428). -/
structure RecvWork where
  ctx : Nat
  flag : Nat
  k : Nat
deriving DecidableEq, Repr

/-- Faults of a working tile: the cells that changed, with the mask of changed bits; or the counts of a tally frame that arrived otherwise. -/
abbrev Flips : Type := List (Nat × Nat)

/-- A Hegen frame: the header fields of R376, without the CRC, which encoding adds, and the payload. -/
structure Frame where
  type : Nat
  vc : Nat := 0
  rr : Bool := false
  budget : Nat := 0
  lseq : Nat := 0
  ack : Nat := 0
  src : Nat := 0
  dst : Nat := 0
  sseq : Nat := 0
  cvc : Nat := 0
  cred : Nat := 0
  ctx : Nat := 0
  engine : Nat := 0
  oport : Nat := 0
  engHdr : Nat := 0
  payload : List Byte := []
  /-- the port on which a delivered frame arrived; not on the wire (R402) -/
  via : Nat := 0
deriving DecidableEq, Repr

end Sys2Proof.Machine
end

