-- ==== Sys2Proof/Syntax.lean ====
section
/-! DEFINITION. The commands of the JM8: one constructor per row of the opcode table. The rows carry no operand bits of their own,
so the operands are those that the row's rule names; what physics or another party supplies (an ECC outcome, the bytes of
a received frame, the entry that a fetch returned) is an operand too. -/

namespace Sys2Proof

open Machine

/-- The commands that the JM8 takes. -/
inductive Instr where
  | regWrite (r : Requester) (a v size : Nat)
  | evtPendClear (r : Requester) (a v raised : Nat)
  | evtForce (r : Requester) (a v : Nat)
  | errInfoClear (r : Requester) (a v : Nat)
  | rcRead (r : Requester) (a inc : Nat)
  | loReadLatch (r : Requester) (a : Nat)
  | stepOpen (h : Nat)
  | stepOpenDeferred (h : Nat)
  | stepClose (c n : Nat)
  | gatherBlockSend (c n cid g : Nat)
  | partialAdd (c n g own : Nat)
  | ownerSumClose (c n g : Nat)
  | precondition (c n : Nat) (g : PreWork)
  | commit (c n g : Nat)
  | mirrorSend (c n g : Nat)
  | factorUpdate (c n : Nat) (g : FacWork)
  | listDescRead (cl lid : Nat)
  | matmulDescriptor (cl lid n : Nat)
  | descTake (u : Nat)
  | chunkPassEnd (u : Nat)
  | tileEnd (u corr : Nat) (unc : Bool) (fl : Flips) (stall : TileTime)
  | adoptCopyDone (cl : Nat) (ok : Bool)
  | adoptionBufferEnter (cl : Nat)
  | descComplete (u : Nat)
  | forceFence (r : Requester) (a v : Nat)
  | resume (r : Requester) (a v : Nat)
  | reductionFold (cl dst part n k : Nat) (last : Bool)
  | conversionDescriptor (cl lid : Nat)
  | group (cl lid : Nat)
  | stashEncode (cl lid : Nat)
  | stashDecode (cl lid : Nat)
  | rootJobScan (rg : Nat)
  | rootJobStart (rg : Nat)
  | wideDescIssue (rg u : Nat) (d : Piece)
  | newtonIterationDone (rg : Nat)
  | choleskyPanelDone (rg : Nat)
  | residualCheck (rg : Nat)
  | rootConvert (rg : Nat)
  | rootPublish (rg : Nat)
  | dueNotice (rg : Nat)
  | restartReply (rg : Nat)
  | lendSet (rg : Nat)
  | seqLockstep (rg : Nat)
  | exportCmd (h : Nat)
  | memRequest (d ctx cls a : Nat) (write copy : Bool) (data : List Byte) (tag : Nat)
  | weirAdmit (m p dt : Nat)
  | sluiceEnter (n r op acc dt : Nat)
  | sluiceGrant (n dt : Nat)
  | sluiceDeadlineMiss (n dt : Nat)
  | sluicePin (n dt : Nat)
  | memRead (chan : Nat) (ecc : Ecc)
  | memWrite (chan : Nat)
  | scrubRead (m chan page off : Nat) (ecc : Ecc) (written passEnd : Bool)
  | remapCopyDone (m : Nat) (bad : List Nat)
  | retireCopyDone (m : Nat) (bad : List Nat)
  | retrainDue (m ch : Nat)
  | retrainDone (m : Nat)
  | retrainTimeout (m : Nat)
  | maint (h : Nat)
  | maintWindowStart
  | fieldRepairDone (m : Nat) (e : RepairEnd)
  | maintWindowEnd (ms : Nat)
  | parkStall (m : Nat)
  | stackTempSample (m t : Nat)
  | stackThrottleStep (m : Nat)
  | memrecImport (h : Nat) (recd : List Byte)
  | memrecExport (h : Nat)
  | signal (src : SyncSrc)
  | wait (src : SyncSrc)
  | waiterTableAdmit (home flag cyc : Nat)
  | arrive (src : SyncSrc)
  | releaseReceive
  | flagOwnWrite (r : Requester) (a v : Nat)
  | barCfgWrite (r : Requester) (a v : Nat)
  | dbgSet (r : Requester) (a v : Nat)
  | portEnable (r : Requester) (a v : Nat)
  | autoRetrain (p : Nat)
  | trainDone (p : Nat)
  | trainFail (p : Nat)
  | identSend (p : Nat)
  | ident (p : Nat) (raw : List Byte) (fec : Nat)
  | confirm (r : Requester) (a v : Nat)
  | recheck (r : Requester) (a v : Nat)
  | linkRestore (r : Requester) (a v : Nat)
  | forceDown (r : Requester) (a v : Nat)
  | laneLoss (p : Nat)
  | portRst (r : Requester) (a v : Nat)
  | data (p : Nat) (raw : List Byte) (fec : Nat)
  | mark (p : Nat) (raw : List Byte) (fec : Nat)
  | markAck (p : Nat) (raw : List Byte) (fec : Nat)
  | link (p : Nat) (raw : List Byte) (fec : Nat)
  | retry (p : Nat) (raw : List Byte) (fec : Nat)
  | state (p : Nat) (raw : List Byte) (fec : Nat)
  | ackTimeout (p : Nat)
  | linkAckDue (p : Nat)
  | holdExpire (p : Nat)
  | send (c : SendWork)
  | recv (c : RecvWork)
  | collTurnFrame
  | doneFrame
  | releaseFrame
  | earlyAreaAdmit (hclk : Nat)
  | stragglerDeadline (c n cid : Nat)
  | ctxPause (r : Requester) (a v : Nat)
  | degrade (h : Nat)
  | topoLoad (h : Nat)
  | openFrame
  | tabWf
  | tabR
  | wgt
  | fac0
  | fac1
  | root0
  | root1
  | closeW
  | closeF
  | closeR
  | ack
  | nack
  | auditRes
  | fetch
  | resolve (r : Requester) (a v : Nat)
  | auditGbi (r : Requester) (a v : Nat)
  | dataB (r : Requester) (a v : Nat)
  | dataH (r : Requester) (a v : Nat)
  | dataW (r : Requester) (a v : Nat)
  | init (r : Requester) (a v : Nat)
  | final (r : Requester) (a v : Nat)
  | ckpt (h : Nat)
  | ckptBlockRead (c g : Nat)
  | ckptComplete (c : Nat)
  | peerWrite
  | readReq
  | readData
  | peerDone
  | restore (h dir : Nat)
  | restoreRecordApply (c : Nat) (hd : List Byte)
  | restoreComplete (c : Nat)
  | journalAppend (c src hclk : Nat)
  | journalDrain (c : Nat)
  | replayRead (h : Nat)
  | sqTail (r : Requester) (a v : Nat)
  | sqEntryFetch (c q : Nat) (ok : Bool) (entry : List Byte)
  | sqEnable (r : Requester) (a v : Nat)
  | commandStart (c q : Nat)
  | completionReport (n : Nat)
  | cqHead (r : Requester) (a v waited : Nat)
  | coalesceTimer (c q : Nat)
  | bar2Read (off n : Nat)
  | bar2Write (off : Nat) (data : List Byte)
  | nop (h : Nat)
  | abort (h : Nat)
  | attest (h : Nat)
  | setSeed (h : Nat)
  | listRun (h : Nat)
  | copy (h : Nat) (hd : List Byte)
  | ctxReset (h : Nat)
  | ctxPreempt (h : Nat)
  | ctxResume (h : Nat)
  | mailboxWrite (off : Nat) (data : List Byte)
  | go (r : Requester) (a v : Nat)
  | imageVerifyDone
  | progGo (r : Requester) (a v : Nat)
  | otpProgDone (ok : Bool)
  | idReady
  | pairLockstep (p : Nat)
  | domReq (r : Requester) (a v : Nat)
  | domainSwitchDone (n : Nat)
  | droopStretch (d : Nat)
  | railDip (r mv : Nat)
  | railRecover (r mv us : Nat)
  | supplyEvt
  | holdoffEnd (ms : Nat)
  | railResetTrip (r mv : Nat)
  | regionTempSample (rg t : Nat)
  | powerSample (w : Nat)
  | deepIdle (r : Requester) (a v : Nat)
  | deepIdleExit (r : Requester) (a v : Nat)
  | standby (r : Requester) (a v : Nat)
  | islandRst (r : Requester) (a v : Nat)
  | coldReset
  | platformReset
  | linkReset
  | functionLevelReset (fn : Nat)
  | residueMismatch (cl : Nat) (again : Bool)
  | tempTrip (k t : Nat)
  | watchdogExpire (p : Nat)
  | kick (r : Requester) (a v : Nat)
  | comparatorSelftest (ok : Bool)
  | comparatorDisagree (ms : Nat)
  | faultResetRelease
  | logClr (r : Requester) (a v : Nat)
  | forceFault (r : Requester) (a v : Nat)
  | wdogCfgWrite (r : Requester) (a v : Nat)
  | gaugeSample (ch mv ma n : Nat)
  | gaugePowerSecond
  | tallySend (cl : Nat)
  | tallyFrame (bad : Bool) (alt : Flips)
  | intervalEnd
  | gaugeRecordSigned
  | gaugePowerUp
  | gaugeSupplyLoss
  | status
  | intervalW (v : Nat)
  | intervalR
  | recSelect (n : Nat)
  | recRead
  | resumeLoad (bs : List Byte)
  | resumeGo (key : Nat)
  | closeNow (key : Nat)
  | identRead
  | statusResume
  | challenge (r : Requester) (a v : Nat)
  | unlockGo (r : Requester) (a v : Nat)
  | unlockCheckDone
  | relock (r : Requester) (a v : Nat)
  | perstRelease
  | coldResetRelease (ms pos gaddr : Nat)
  | vfEnable (en : Bool) (n : Nat)
  | aerError
deriving DecidableEq, Repr

end Sys2Proof
end

