-- ==== Sys2Proof/Decode.lean ====
section
/-! DEFINITION. The decoder of table words. The JM8 is a block: its opcode table gives no row any bits, so no word spells a
command. -/

namespace Sys2Proof

/-- The command that a word spells by the table's bits: none, since the table gives no row bits. -/
def decodeTableWord (_nbits _w : Nat) : Option Instr := none

end Sys2Proof
end

