-- ==== Sys2Proof/Machine/Crc.lean ====
section
/-! DEFINITION. Cyclic redundancy checks in reflected form: CRC-32C of frames, records and tables, and the algorithms of the
check-value units (R461). -/

namespace Sys2Proof.Machine

/-- One bit of a reflected CRC. -/
def crcBit (poly c : Nat) : Nat := if c % 2 = 1 then (c / 2) ^^^ poly else c / 2

/-- `n` bits of a reflected CRC. -/
def crcBits (poly : Nat) : Nat → Nat → Nat
  | 0, c => c
  | n + 1, c => crcBits poly n (crcBit poly c)

/-- Feed one byte. -/
def crcByte (poly c : Nat) (b : Byte) : Nat := crcBits poly 8 (c ^^^ b.toNat)

/-- Feed bytes in order. -/
def crcFeed (poly : Nat) : Nat → List Byte → Nat
  | c, [] => c
  | c, b :: bs => crcFeed poly (crcByte poly c b) bs

/-- The reflected polynomial of CRC-32C. -/
def crcPoly32c : Nat := 0x82F63B78

/-- CRC-32C of a list of bytes: initial value and final XOR are all ones. -/
def crc32c (bs : List Byte) : Nat := crcFeed crcPoly32c 0xFFFFFFFF bs ^^^ 0xFFFFFFFF

/-- One bit of CRC-16/CCITT-FALSE, most significant bit first. -/
def crc16Bit (c : Nat) : Nat := if c / 32768 % 2 = 1 then (c * 2 % 65536) ^^^ 0x1021 else c * 2 % 65536

/-- `n` bits of CRC-16/CCITT-FALSE. -/
def crc16Bits : Nat → Nat → Nat
  | 0, c => c
  | n + 1, c => crc16Bits n (crc16Bit c)

/-- Feed bytes to CRC-16/CCITT-FALSE. -/
def crc16Feed : Nat → List Byte → Nat
  | c, [] => c
  | c, b :: bs => crc16Feed (crc16Bits 8 (c ^^^ (b.toNat * 256))) bs

/-- CRC-16/CCITT-FALSE of a list of bytes: initial value 0xFFFF, no final XOR. -/
def crc16 (bs : List Byte) : Nat := crc16Feed 0xFFFF bs

end Sys2Proof.Machine
end

