-- ==== Sys2Proof/Config.lean ====
section
/-! DEFINITION. What an implementation fixes and the spec leaves open: the free values. None of them has a body, so nothing in
Lean can see what they are. Each is applied to the operands it depends on or to the plain counter `State.freeCtr`
(log entry 5). -/

namespace Sys2Proof.Config

/-- A fresh unspecified 32-bit value. -/
opaque freeWord : Nat → BitVec 32

/-- A fresh unspecified byte; the argument is the counter and the place. -/
opaque freeByte : Nat → Nat → BitVec 8

/-- The operations that a sender's issue buffer holds behind the one in flight of a crossing (R44). -/
opaque issueDepth : Nat

/-- A fresh unspecified choice. -/
opaque freeBool : Nat → Bool

/-- The square root of a positive BX64 integer as the element pipe forms it (R221, R240). -/
opaque bxSqrt : Int → Int

/-- The reciprocal of a BX64 integer as the element pipe forms it (R221, R240). -/
opaque bxRecip : Int → Int

/-- The product of two BX64 integers as the element pipe forms it in a Cholesky panel (R240). -/
opaque bxPipeMul : Int → Int → Int

/-- The inverse at exponent e of a diagonal tile of L, 64 rows of 64, as the element pipe forms it (R240, R242). -/
opaque bxTileInverse : Int → List (List Int) → List (List Int)

/-- The Zstandard frame that the module forms of a payload, and what a frame of the form of R477 holds. -/
opaque zstdEncode : List (BitVec 8) → List (BitVec 8)

/-- The bytes that a frame holds; none for a frame that is not of the form of R477. -/
opaque zstdDecode : List (BitVec 8) → Option (List (BitVec 8))

/-- The word that the crypto block reports for an RSASSA-PSS signature with the parameters of R542: the arguments are modulus and
exponent, the message and the signature (R544). -/
opaque rsaVerify : List (BitVec 8) → List (BitVec 8) → List (BitVec 8) → BitVec 32

/-- The word that the crypto block reports for an SLH-DSA-SHA2-192f signature: key, message and signature. -/
opaque slhVerify : List (BitVec 8) → List (BitVec 8) → List (BitVec 8) → BitVec 32

/-- Byte `i` of the RSA modulus that the fixed derivation gives for a secret (R558, R617). -/
opaque rsaModulus : List (BitVec 8) → Nat → BitVec 8

/-- Byte `i` of the SLH-DSA public key that the fixed derivation gives for a secret. -/
opaque slhPublic : List (BitVec 8) → Nat → BitVec 8

/-- Byte `i` of an RSASSA-PSS signature under the keys of a secret: the arguments are the secret, the message and the salt's place
among the free values. -/
opaque rsaSign : List (BitVec 8) → List (BitVec 8) → Nat → Nat → BitVec 8

/-- Byte `i` of an SLH-DSA signature under the keys of a secret, with the place of its randomness among the free values. -/
opaque slhSign : List (BitVec 8) → List (BitVec 8) → Nat → Nat → BitVec 8

end Sys2Proof.Config
end

