-- ==== Sys2Proof/Machine/RegTypes.lean ====
section
/-! DEFINITION. What a register field is (R629 to R645): its page type, its place, its width, its access and the reset classes
that restore it, and what an event bit is. -/

namespace Sys2Proof.Machine

/-- The reset classes of R586. -/
inductive Cls where
  | c | p | l | f | x | i | k
deriving DecidableEq, Repr

/-- The access kinds of the field tables. -/
inductive Acc where
  | ro | rw | w1c | w1s | wo | rc
deriving DecidableEq, Repr

/-- One register field. Element `k` of an indexed register stands at `off + stride * k`. -/
structure Fld where
  /-- page type index t of R629 -/
  page : Nat
  off : Nat
  lo : Nat
  w : Nat
  /-- reset value -/
  rst : Nat
  /-- reset value on the optical ports 22 and 23, where it differs (R403) -/
  rstGlobal : Option Nat := none
  stride : Nat := 0
  cnt : Nat := 1
  acc : Acc
  cls : List Cls
  /-- the writes of this field have a row of their own in the opcode table -/
  own : Bool := false
  rmin : Nat := 0
  rmax : Nat := 4294967295
deriving DecidableEq, Repr

/-- One bit of a page type's EVT_PEND. -/
structure Evt where
  page : Nat
  bit : Nat
deriving DecidableEq, Repr

end Sys2Proof.Machine
end

