-- ==== Sys2Proof/Machine/Regs.lean ====
section
/-! DEFINITION. The register fields of the twenty page types, one definition per field: the page type of R629, the place in
the page, the reset value, the reset classes that restore it and the range that a write must keep. Every figure is the
spec's own register table; the rule stands at each field. -/

namespace Sys2Proof.Machine

/-- TUNIT.CTRL.Q_EN at 0x010, R111. -/
def TUNIT_CTRL_Q_EN : Fld := { page := 0, off := 0x10, lo := 0, w := 1, rst := 0x1, acc := .rw, cls := [.c, .p, .i] }

/-- TUNIT.CTRL.WIDE_ALLOW at 0x010, R111. -/
def TUNIT_CTRL_WIDE_ALLOW : Fld := { page := 0, off := 0x10, lo := 1, w := 1, rst := 0x1, acc := .rw, cls := [.c, .p] }

/-- TUNIT.CTRL.FORCE_FENCE at 0x010, R111. -/
def TUNIT_CTRL_FORCE_FENCE : Fld := { page := 0, off := 0x10, lo := 2, w := 1, rst := 0x0, acc := .w1s, cls := [.c, .p, .i], own := true }

/-- TUNIT.CTRL.RESUME at 0x010, R111. -/
def TUNIT_CTRL_RESUME : Fld := { page := 0, off := 0x10, lo := 3, w := 1, rst := 0x0, acc := .wo, cls := [.c, .p, .i] }

/-- TUNIT.STAT.BUSY at 0x014, R112. -/
def TUNIT_STAT_BUSY : Fld := { page := 0, off := 0x14, lo := 0, w := 1, rst := 0x0, acc := .ro, cls := [.c, .p, .i] }

/-- TUNIT.STAT.MODE at 0x014, R112. -/
def TUNIT_STAT_MODE : Fld := { page := 0, off := 0x14, lo := 1, w := 1, rst := 0x0, acc := .ro, cls := [.c, .p, .i] }

/-- TUNIT.STAT.FENCED at 0x014, R112. -/
def TUNIT_STAT_FENCED : Fld := { page := 0, off := 0x14, lo := 2, w := 1, rst := 0x0, acc := .ro, cls := [.c, .p, .i] }

/-- TUNIT.STAT.HALTED at 0x014, R112. -/
def TUNIT_STAT_HALTED : Fld := { page := 0, off := 0x14, lo := 3, w := 1, rst := 0x0, acc := .ro, cls := [.c, .p, .i, .x] }

/-- TUNIT.STAT.LEND at 0x014, R112. -/
def TUNIT_STAT_LEND : Fld := { page := 0, off := 0x14, lo := 4, w := 1, rst := 0x0, acc := .ro, cls := [.c, .p, .i] }

/-- TUNIT.STAT.ADOPTING at 0x014, R112. -/
def TUNIT_STAT_ADOPTING : Fld := { page := 0, off := 0x14, lo := 5, w := 1, rst := 0x0, acc := .ro, cls := [.c, .p, .i] }

/-- TUNIT.STAT.ADOPTED_FROM at 0x014, R112. -/
def TUNIT_STAT_ADOPTED_FROM : Fld := { page := 0, off := 0x14, lo := 6, w := 2, rst := 0x0, acc := .ro, cls := [.c, .p, .i] }

/-- TUNIT.STAT.CQ_LEVEL at 0x014, R112. -/
def TUNIT_STAT_CQ_LEVEL : Fld := { page := 0, off := 0x14, lo := 8, w := 5, rst := 0x0, acc := .ro, cls := [.c, .p, .i] }

/-- TUNIT.STAT.WQ_LEVEL at 0x014, R112. -/
def TUNIT_STAT_WQ_LEVEL : Fld := { page := 0, off := 0x14, lo := 13, w := 3, rst := 0x0, acc := .ro, cls := [.c, .p, .i] }

/-- TUNIT.ERR_INFO.CODE at 0x024, R114. -/
def TUNIT_ERR_INFO_CODE : Fld := { page := 0, off := 0x24, lo := 0, w := 4, rst := 0x0, acc := .ro, cls := [.c, .p] }

/-- TUNIT.ERR_INFO.TILE at 0x024, R114. -/
def TUNIT_ERR_INFO_TILE : Fld := { page := 0, off := 0x24, lo := 4, w := 3, rst := 0x0, acc := .ro, cls := [.c, .p] }

/-- TUNIT.ERR_INFO.DESC_SEQ at 0x024, R114. -/
def TUNIT_ERR_INFO_DESC_SEQ : Fld := { page := 0, off := 0x24, lo := 8, w := 24, rst := 0x0, acc := .ro, cls := [.c, .p] }

/-- TUNIT.DESC_DONE.COUNT at 0x040, R115. -/
def TUNIT_DESC_DONE : Fld := { page := 0, off := 0x40, lo := 0, w := 32, rst := 0x0, acc := .ro, cls := [.c, .p] }

/-- TUNIT.CHK_MISS.COUNT at 0x044, R115. -/
def TUNIT_CHK_MISS : Fld := { page := 0, off := 0x44, lo := 0, w := 32, rst := 0x0, acc := .ro, cls := [.c, .p] }

/-- TUNIT.CHK_REPEAT_OK.COUNT at 0x048, R115. -/
def TUNIT_CHK_REPEAT_OK : Fld := { page := 0, off := 0x48, lo := 0, w := 32, rst := 0x0, acc := .ro, cls := [.c, .p] }

/-- TUNIT.BX_SAT_CNT.COUNT at 0x04C, R115. -/
def TUNIT_BX_SAT_CNT : Fld := { page := 0, off := 0x4C, lo := 0, w := 32, rst := 0x0, acc := .ro, cls := [.c, .p] }

/-- TUNIT.WIDE_DESC.COUNT at 0x050, R115. -/
def TUNIT_WIDE_DESC : Fld := { page := 0, off := 0x50, lo := 0, w := 32, rst := 0x0, acc := .ro, cls := [.c, .p] }

/-- TUNIT.FEED_STALL.COUNT at 0x054, R115. -/
def TUNIT_FEED_STALL : Fld := { page := 0, off := 0x54, lo := 0, w := 32, rst := 0x0, acc := .ro, cls := [.c, .p] }

/-- TUNIT.ECC_CORR_CNT.COUNT at 0x058, R115. -/
def TUNIT_ECC_CORR_CNT : Fld := { page := 0, off := 0x58, lo := 0, w := 32, rst := 0x0, acc := .ro, cls := [.c, .p] }

/-- TUNIT.ADOPT_CNT.COUNT at 0x05C, R115. -/
def TUNIT_ADOPT_CNT : Fld := { page := 0, off := 0x5C, lo := 0, w := 32, rst := 0x0, acc := .ro, cls := [.c, .p] }

/-- TUNIT.CHK_CFG.CHK_TOL at 0x100, R116. -/
def TUNIT_CHK_CFG_CHK_TOL : Fld := { page := 0, off := 0x100, lo := 0, w := 5, rst := 0x8, acc := .rw, cls := [.c, .p], rmin := 4, rmax := 16 }

/-- TUNIT.LAST_STAT.STATUS at 0x104, R116. -/
def TUNIT_LAST_STAT : Fld := { page := 0, off := 0x104, lo := 0, w := 5, rst := 0x0, acc := .ro, cls := [.c, .p, .i] }

/-- TUNIT.MISS_INFO.ROW at 0x108, R116. -/
def TUNIT_MISS_INFO_ROW : Fld := { page := 0, off := 0x108, lo := 0, w := 6, rst := 0x0, acc := .ro, cls := [.c, .p] }

/-- TUNIT.MISS_INFO.TILE at 0x108, R116. -/
def TUNIT_MISS_INFO_TILE : Fld := { page := 0, off := 0x108, lo := 6, w := 3, rst := 0x0, acc := .ro, cls := [.c, .p] }

/-- TUNIT.MISS_INFO.REPEAT at 0x108, R116. -/
def TUNIT_MISS_INFO_REPEAT : Fld := { page := 0, off := 0x108, lo := 9, w := 1, rst := 0x0, acc := .ro, cls := [.c, .p] }

/-- TUNIT.A20_OVF.COUNT at 0x060, R139. -/
def TUNIT_A20_OVF : Fld := { page := 0, off := 0x60, lo := 0, w := 32, rst := 0x0, acc := .ro, cls := [.c, .p] }

/-- TUNIT.ACC_REPEAT.COUNT at 0x064, R139. -/
def TUNIT_ACC_REPEAT : Fld := { page := 0, off := 0x64, lo := 0, w := 32, rst := 0x0, acc := .ro, cls := [.c, .p] }

/-- TUNIT.CHUNK4_TILES.COUNT at 0x068, R139. -/
def TUNIT_CHUNK4_TILES : Fld := { page := 0, off := 0x68, lo := 0, w := 32, rst := 0x0, acc := .ro, cls := [.c, .p] }

/-- TUNIT.ACC_DIVERGE.COUNT at 0x06C, R139. -/
def TUNIT_ACC_DIVERGE : Fld := { page := 0, off := 0x6C, lo := 0, w := 32, rst := 0x0, acc := .ro, cls := [.c, .p] }

/-- CLUSTER.CVT_TILES.COUNT at 0x080, R186. -/
def CLUSTER_CVT_TILES : Fld := { page := 1, off := 0x80, lo := 0, w := 32, rst := 0x0, acc := .ro, cls := [.c, .p] }

/-- CLUSTER.SCALE_RECOMP.COUNT at 0x084, R186. -/
def CLUSTER_SCALE_RECOMP : Fld := { page := 1, off := 0x84, lo := 0, w := 32, rst := 0x0, acc := .ro, cls := [.c, .p] }

/-- CLUSTER.SPILL_GROUPS.COUNT at 0x088, R186. -/
def CLUSTER_SPILL_GROUPS : Fld := { page := 1, off := 0x88, lo := 0, w := 32, rst := 0x0, acc := .ro, cls := [.c, .p] }

/-- CLUSTER.SPILL_EXH.COUNT at 0x08C, R186. -/
def CLUSTER_SPILL_EXH : Fld := { page := 1, off := 0x8C, lo := 0, w := 32, rst := 0x0, acc := .ro, cls := [.c, .p] }

/-- CLUSTER.NONFINITE_BLK.COUNT at 0x090, R186. -/
def CLUSTER_NONFINITE_BLK : Fld := { page := 1, off := 0x90, lo := 0, w := 32, rst := 0x0, acc := .ro, cls := [.c, .p] }

/-- CLUSTER.W24_SAT.COUNT at 0x094, R186. -/
def CLUSTER_W24_SAT : Fld := { page := 1, off := 0x94, lo := 0, w := 32, rst := 0x0, acc := .ro, cls := [.c, .p] }

/-- CLUSTER.DROUGHT_EVT.COUNT at 0x098, R186. -/
def CLUSTER_DROUGHT_EVT : Fld := { page := 1, off := 0x98, lo := 0, w := 32, rst := 0x0, acc := .ro, cls := [.c, .p] }

/-- CLUSTER.UE_MOVES.COUNT at 0x09C, R186. -/
def CLUSTER_UE_MOVES : Fld := { page := 1, off := 0x9C, lo := 0, w := 32, rst := 0x0, acc := .ro, cls := [.c, .p] }

/-- CLUSTER.SCALE_DIVERGE.COUNT at 0x0A0, R186. -/
def CLUSTER_SCALE_DIVERGE : Fld := { page := 1, off := 0xA0, lo := 0, w := 32, rst := 0x0, acc := .ro, cls := [.c, .p] }

/-- CLUSTER.GATHER_REJ.COUNT at 0x040, R187. -/
def CLUSTER_GATHER_REJ : Fld := { page := 1, off := 0x40, lo := 0, w := 32, rst := 0x0, acc := .ro, cls := [.c, .p] }

/-- CLUSTER.ADOPT_FAIL_CNT.COUNT at 0x044, R187. -/
def CLUSTER_ADOPT_FAIL_CNT : Fld := { page := 1, off := 0x44, lo := 0, w := 32, rst := 0x0, acc := .ro, cls := [.c, .p] }

/-- CLUSTER.REPLAY_DIV_CNT.COUNT at 0x048, R187. -/
def CLUSTER_REPLAY_DIV_CNT : Fld := { page := 1, off := 0x48, lo := 0, w := 32, rst := 0x0, acc := .ro, cls := [.c, .p] }

/-- CLUSTER.NUM_CFG.DROUGHT_LIMIT at 0x180, R188. -/
def CLUSTER_NUM_CFG_DROUGHT_LIMIT : Fld := { page := 1, off := 0x180, lo := 0, w := 16, rst := 0x40, acc := .rw, cls := [.c, .p] }

/-- CLUSTER.NUM_CFG.UE_HLO at 0x180, R188. -/
def CLUSTER_NUM_CFG_UE_HLO : Fld := { page := 1, off := 0x180, lo := 16, w := 8, rst := 0xEC, acc := .rw, cls := [.c, .p] }

/-- CLUSTER.NUM_CFG.UE_HHI at 0x180, R188. -/
def CLUSTER_NUM_CFG_UE_HHI : Fld := { page := 1, off := 0x180, lo := 24, w := 8, rst := 0xFA, acc := .rw, cls := [.c, .p] }

/-- CLUSTER.DROUGHT_LAST.BLOCK at 0x184, R188. -/
def CLUSTER_DROUGHT_LAST : Fld := { page := 1, off := 0x184, lo := 0, w := 32, rst := 0x0, acc := .ro, cls := [.c, .p] }

/-- CLUSTER.SPILL_LAST.GROUP at 0x188, R188. -/
def CLUSTER_SPILL_LAST_GROUP : Fld := { page := 1, off := 0x188, lo := 0, w := 24, rst := 0x0, acc := .ro, cls := [.c, .p] }

/-- CLUSTER.SPILL_LAST.RUNG at 0x188, R188. -/
def CLUSTER_SPILL_LAST_RUNG : Fld := { page := 1, off := 0x188, lo := 24, w := 2, rst := 0x0, acc := .ro, cls := [.c, .p] }

/-- CLUSTER.SPILL_LAST.EXH at 0x188, R188. -/
def CLUSTER_SPILL_LAST_EXH : Fld := { page := 1, off := 0x188, lo := 26, w := 1, rst := 0x0, acc := .ro, cls := [.c, .p] }

/-- CLUSTER.CVT_ERR.CODE at 0x18C, R188. -/
def CLUSTER_CVT_ERR_CODE : Fld := { page := 1, off := 0x18C, lo := 0, w := 4, rst := 0x0, acc := .ro, cls := [.c, .p] }

/-- CLUSTER.FACTOR_UPD.COUNT at 0x0A4, R218. -/
def CLUSTER_FACTOR_UPD : Fld := { page := 1, off := 0xA4, lo := 0, w := 32, rst := 0x0, acc := .ro, cls := [.c, .p] }

/-- CLUSTER.SNAP_TAKEN.COUNT at 0x0A8, R218. -/
def CLUSTER_SNAP_TAKEN : Fld := { page := 1, off := 0xA8, lo := 0, w := 32, rst := 0x0, acc := .ro, cls := [.c, .p] }

/-- CLUSTER.SNAP_SKIP.COUNT at 0x0AC, R218. -/
def CLUSTER_SNAP_SKIP : Fld := { page := 1, off := 0xAC, lo := 0, w := 32, rst := 0x0, acc := .ro, cls := [.c, .p] }

/-- CLUSTER.FROZEN_DISC.COUNT at 0x0B0, R218. -/
def CLUSTER_FROZEN_DISC : Fld := { page := 1, off := 0xB0, lo := 0, w := 32, rst := 0x0, acc := .ro, cls := [.c, .p] }

/-- CLUSTER.BT_ERR.CODE at 0x190, R219. -/
def CLUSTER_BT_ERR_CODE : Fld := { page := 1, off := 0x190, lo := 0, w := 4, rst := 0x0, acc := .ro, cls := [.c, .p] }

/-- CLUSTER.BT_ERR.RECORD at 0x190, R219. -/
def CLUSTER_BT_ERR_RECORD : Fld := { page := 1, off := 0x190, lo := 4, w := 20, rst := 0x0, acc := .ro, cls := [.c, .p] }

/-- ROOTSEQ.CTRL.EN at 0x010, R257. -/
def ROOTSEQ_CTRL_EN : Fld := { page := 2, off := 0x10, lo := 0, w := 1, rst := 0x1, acc := .rw, cls := [.c, .p] }

/-- ROOTSEQ.STAT.BUSY at 0x014, R257. -/
def ROOTSEQ_STAT_BUSY : Fld := { page := 2, off := 0x14, lo := 0, w := 1, rst := 0x0, acc := .ro, cls := [.c, .p, .i] }

/-- ROOTSEQ.STAT.LENDING at 0x014, R257. -/
def ROOTSEQ_STAT_LENDING : Fld := { page := 2, off := 0x14, lo := 1, w := 1, rst := 0x0, acc := .ro, cls := [.c, .p, .i] }

/-- ROOTSEQ.STAT.URGENT at 0x014, R257. -/
def ROOTSEQ_STAT_URGENT : Fld := { page := 2, off := 0x14, lo := 2, w := 1, rst := 0x0, acc := .ro, cls := [.c, .p, .i] }

/-- ROOTSEQ.STAT.PHASE at 0x014, R257. -/
def ROOTSEQ_STAT_PHASE : Fld := { page := 2, off := 0x14, lo := 3, w := 3, rst := 0x0, acc := .ro, cls := [.c, .p, .i] }

/-- ROOTSEQ.STAT.SIDE at 0x014, R257. -/
def ROOTSEQ_STAT_SIDE : Fld := { page := 2, off := 0x14, lo := 6, w := 1, rst := 0x0, acc := .ro, cls := [.c, .p, .i] }

/-- ROOTSEQ.ERR_INFO.REASON at 0x024, R259. -/
def ROOTSEQ_ERR_INFO_REASON : Fld := { page := 2, off := 0x24, lo := 0, w := 4, rst := 0x0, acc := .ro, cls := [.c, .p] }

/-- ROOTSEQ.ERR_INFO.SIDE at 0x024, R259. -/
def ROOTSEQ_ERR_INFO_SIDE : Fld := { page := 2, off := 0x24, lo := 4, w := 1, rst := 0x0, acc := .ro, cls := [.c, .p] }

/-- ROOTSEQ.ERR_INFO.RES_LOG at 0x024, R259. -/
def ROOTSEQ_ERR_INFO_RES_LOG : Fld := { page := 2, off := 0x24, lo := 5, w := 8, rst := 0x0, acc := .ro, cls := [.c, .p] }

/-- ROOTSEQ.JOB_START.COUNT at 0x040, R260. -/
def ROOTSEQ_JOB_START : Fld := { page := 2, off := 0x40, lo := 0, w := 32, rst := 0x0, acc := .ro, cls := [.c, .p] }

/-- ROOTSEQ.ROOT_PUB.COUNT at 0x044, R260. -/
def ROOTSEQ_ROOT_PUB : Fld := { page := 2, off := 0x44, lo := 0, w := 32, rst := 0x0, acc := .ro, cls := [.c, .p] }

/-- ROOTSEQ.ROOT_REJ.COUNT at 0x048, R260. -/
def ROOTSEQ_ROOT_REJ : Fld := { page := 2, off := 0x48, lo := 0, w := 32, rst := 0x0, acc := .ro, cls := [.c, .p] }

/-- ROOTSEQ.ROOT_LATE.COUNT at 0x04C, R260. -/
def ROOTSEQ_ROOT_LATE : Fld := { page := 2, off := 0x4C, lo := 0, w := 32, rst := 0x0, acc := .ro, cls := [.c, .p] }

/-- ROOTSEQ.ROOT_RESTART.COUNT at 0x050, R260. -/
def ROOTSEQ_ROOT_RESTART : Fld := { page := 2, off := 0x50, lo := 0, w := 32, rst := 0x0, acc := .ro, cls := [.c, .p] }

/-- ROOTSEQ.PIV_FLOORED.COUNT at 0x054, R260. -/
def ROOTSEQ_PIV_FLOORED : Fld := { page := 2, off := 0x54, lo := 0, w := 32, rst := 0x0, acc := .ro, cls := [.c, .p] }

/-- ROOTSEQ.DAMPED_PUB.COUNT at 0x058, R260. -/
def ROOTSEQ_DAMPED_PUB : Fld := { page := 2, off := 0x58, lo := 0, w := 32, rst := 0x0, acc := .ro, cls := [.c, .p] }

/-- ROOTSEQ.ITER_DONE.COUNT at 0x05C, R260. -/
def ROOTSEQ_ITER_DONE : Fld := { page := 2, off := 0x5C, lo := 0, w := 32, rst := 0x0, acc := .ro, cls := [.c, .p] }

/-- ROOTSEQ.WIDE_ISSUED.COUNT at 0x060, R260. -/
def ROOTSEQ_WIDE_ISSUED : Fld := { page := 2, off := 0x60, lo := 0, w := 32, rst := 0x0, acc := .ro, cls := [.c, .p] }

/-- ROOTSEQ.REPLAY_DIV.COUNT at 0x064, R260. -/
def ROOTSEQ_REPLAY_DIV : Fld := { page := 2, off := 0x64, lo := 0, w := 32, rst := 0x0, acc := .ro, cls := [.c, .p] }

/-- ROOTSEQ.CFG.ITER_P2 at 0x100, R261. -/
def ROOTSEQ_CFG_ITER_P2 : Fld := { page := 2, off := 0x100, lo := 0, w := 6, rst := 0xC, acc := .rw, cls := [.c, .p], rmin := 4, rmax := 32 }

/-- ROOTSEQ.CFG.ITER_P4 at 0x100, R261. -/
def ROOTSEQ_CFG_ITER_P4 : Fld := { page := 2, off := 0x100, lo := 8, w := 6, rst := 0xE, acc := .rw, cls := [.c, .p], rmin := 4, rmax := 32 }

/-- ROOTSEQ.CFG.ITER_P8 at 0x100, R261. -/
def ROOTSEQ_CFG_ITER_P8 : Fld := { page := 2, off := 0x100, lo := 16, w := 6, rst := 0x10, acc := .rw, cls := [.c, .p], rmin := 4, rmax := 32 }

/-- ROOTSEQ.CFG.RES_EXP at 0x100, R261. -/
def ROOTSEQ_CFG_RES_EXP : Fld := { page := 2, off := 0x100, lo := 24, w := 6, rst := 0x10, acc := .rw, cls := [.c, .p], rmin := 8, rmax := 40 }

/-- ROOTSEQ.DAMP.DAMP at 0x104, R261. -/
def ROOTSEQ_DAMP : Fld := { page := 2, off := 0x104, lo := 0, w := 32, rst := 0x358637BD, acc := .rw, cls := [.c, .p], rmin := 1, rmax := 2139095039 }

/-- ROOTSEQ.PIV_FLOOR.PIV_FLOOR at 0x108, R261. -/
def ROOTSEQ_PIV_FLOOR : Fld := { page := 2, off := 0x108, lo := 0, w := 32, rst := 0x33800000, acc := .rw, cls := [.c, .p], rmin := 1, rmax := 2139095039 }

/-- ROOTSEQ.SCR_BASE.ADDR at 0x10C, R261. -/
def ROOTSEQ_SCR_BASE : Fld := { page := 2, off := 0x10C, lo := 0, w := 28, rst := 0x0, acc := .rw, cls := [.c, .p] }

/-- ROOTSEQ.SCR_SIZE.MIB at 0x110, R261. -/
def ROOTSEQ_SCR_SIZE : Fld := { page := 2, off := 0x110, lo := 0, w := 16, rst := 0x0, acc := .rw, cls := [.c, .p] }

/-- ROOTSEQ.SRAM_WIN.BASE at 0x114, R261. -/
def ROOTSEQ_SRAM_WIN_BASE : Fld := { page := 2, off := 0x114, lo := 0, w := 11, rst := 0x500, acc := .rw, cls := [.c, .p] }

/-- ROOTSEQ.SRAM_WIN.SIZE at 0x114, R261. -/
def ROOTSEQ_SRAM_WIN_SIZE : Fld := { page := 2, off := 0x114, lo := 16, w := 11, rst := 0x100, acc := .rw, cls := [.c, .p], rmin := 32, rmax := 2047 }

/-- ROOTSEQ.URGENT.STEPS at 0x118, R261. -/
def ROOTSEQ_URGENT : Fld := { page := 2, off := 0x118, lo := 0, w := 16, rst := 0x0, acc := .rw, cls := [.c, .p] }

/-- ROOTSEQ.CUR_GBI.GBI at 0x11C, R261. -/
def ROOTSEQ_CUR_GBI : Fld := { page := 2, off := 0x11C, lo := 0, w := 32, rst := 0x0, acc := .ro, cls := [.c, .p, .i] }

/-- ROOTSEQ.LAST_REJ.GBI at 0x120, R261. -/
def ROOTSEQ_LAST_REJ : Fld := { page := 2, off := 0x120, lo := 0, w := 32, rst := 0x0, acc := .ro, cls := [.c, .p] }

/-- ROOTSEQ.REFRESH_K.K at 0x140 + 0x4k, R261. -/
def ROOTSEQ_REFRESH_K : Fld := { page := 2, off := 0x140, lo := 0, w := 17, rst := 0x80, stride := 4, cnt := 16, acc := .rw, cls := [.c, .p, .f], rmin := 8, rmax := 65536 }

/-- CLUSTER.STASH_CHAN.COUNT at 0x0B4, R293. -/
def CLUSTER_STASH_CHAN : Fld := { page := 1, off := 0xB4, lo := 0, w := 32, rst := 0x0, acc := .ro, cls := [.c, .p] }

/-- CLUSTER.STASH_CONST.COUNT at 0x0B8, R293. -/
def CLUSTER_STASH_CONST : Fld := { page := 1, off := 0xB8, lo := 0, w := 32, rst := 0x0, acc := .ro, cls := [.c, .p] }

/-- CLUSTER.STASH_RAW.COUNT at 0x0BC, R293. -/
def CLUSTER_STASH_RAW : Fld := { page := 1, off := 0xBC, lo := 0, w := 32, rst := 0x0, acc := .ro, cls := [.c, .p] }

/-- CLUSTER.STASH_ESC.COUNT at 0x0C0, R293. -/
def CLUSTER_STASH_ESC : Fld := { page := 1, off := 0xC0, lo := 0, w := 32, rst := 0x0, acc := .ro, cls := [.c, .p] }

/-- CLUSTER.STASH_LOST.COUNT at 0x0C4, R293. -/
def CLUSTER_STASH_LOST : Fld := { page := 1, off := 0xC4, lo := 0, w := 32, rst := 0x0, acc := .ro, cls := [.c, .p] }

/-- CLUSTER.STASH_CORRUPT.COUNT at 0x0C8, R293. -/
def CLUSTER_STASH_CORRUPT : Fld := { page := 1, off := 0xC8, lo := 0, w := 32, rst := 0x0, acc := .ro, cls := [.c, .p] }

/-- CLUSTER.STASH_ERR.CODE at 0x194, R294. -/
def CLUSTER_STASH_ERR_CODE : Fld := { page := 1, off := 0x194, lo := 0, w := 4, rst := 0x0, acc := .ro, cls := [.c, .p] }

/-- CLUSTER.STASH_ERR.CHT at 0x194, R294. -/
def CLUSTER_STASH_ERR_CHT : Fld := { page := 1, off := 0x194, lo := 4, w := 16, rst := 0x0, acc := .ro, cls := [.c, .p] }

/-- MEMCTL.CTRL.EN at 0x010, R336. -/
def MEMCTL_CTRL_EN : Fld := { page := 3, off := 0x10, lo := 0, w := 1, rst := 0x0, acc := .rw, cls := [.c, .p] }

/-- MEMCTL.CTRL.MODE at 0x010, R336. -/
def MEMCTL_CTRL_MODE : Fld := { page := 3, off := 0x10, lo := 1, w := 1, rst := 0x0, acc := .rw, cls := [.c, .p] }

/-- MEMCTL.CTRL.SCRUB_EN at 0x010, R336. -/
def MEMCTL_CTRL_SCRUB_EN : Fld := { page := 3, off := 0x10, lo := 2, w := 1, rst := 0x1, acc := .rw, cls := [.c, .p] }

/-- MEMCTL.CTRL.RETRAIN_EN at 0x010, R336. -/
def MEMCTL_CTRL_RETRAIN_EN : Fld := { page := 3, off := 0x10, lo := 3, w := 1, rst := 0x1, acc := .rw, cls := [.c, .p] }

/-- MEMCTL.STAT.READY at 0x014, R336. -/
def MEMCTL_STAT_READY : Fld := { page := 3, off := 0x14, lo := 0, w := 1, rst := 0x0, acc := .ro, cls := [.c, .p] }

/-- MEMCTL.STAT.RT_CH at 0x014, R336. -/
def MEMCTL_STAT_RT_CH : Fld := { page := 3, off := 0x14, lo := 1, w := 5, rst := 0x0, acc := .ro, cls := [.c, .p] }

/-- MEMCTL.STAT.RETRAINING at 0x014, R336. -/
def MEMCTL_STAT_RETRAINING : Fld := { page := 3, off := 0x14, lo := 6, w := 1, rst := 0x0, acc := .ro, cls := [.c, .p] }

/-- MEMCTL.STAT.PK_CH at 0x014, R336. -/
def MEMCTL_STAT_PK_CH : Fld := { page := 3, off := 0x14, lo := 7, w := 5, rst := 0x0, acc := .ro, cls := [.c, .p] }

/-- MEMCTL.STAT.PARKED at 0x014, R336. -/
def MEMCTL_STAT_PARKED : Fld := { page := 3, off := 0x14, lo := 12, w := 1, rst := 0x0, acc := .ro, cls := [.c, .p] }

/-- MEMCTL.STAT.REF_X2 at 0x014, R336. -/
def MEMCTL_STAT_REF_X2 : Fld := { page := 3, off := 0x14, lo := 13, w := 1, rst := 0x0, acc := .ro, cls := [.c, .p] }

/-- MEMCTL.STAT.THROTTLE at 0x014, R336. -/
def MEMCTL_STAT_THROTTLE : Fld := { page := 3, off := 0x14, lo := 14, w := 1, rst := 0x0, acc := .ro, cls := [.c, .p] }

/-- MEMCTL.STAT.TEMP at 0x014, R336. -/
def MEMCTL_STAT_TEMP : Fld := { page := 3, off := 0x14, lo := 15, w := 8, rst := 0x0, acc := .ro, cls := [.c, .p] }

/-- MEMCTL.ERR_INFO.CHAN at 0x024, R338. -/
def MEMCTL_ERR_INFO_CHAN : Fld := { page := 3, off := 0x24, lo := 0, w := 5, rst := 0x0, acc := .ro, cls := [.c, .p] }

/-- MEMCTL.ERR_INFO.ROW at 0x024, R338. -/
def MEMCTL_ERR_INFO_ROW : Fld := { page := 3, off := 0x24, lo := 5, w := 21, rst := 0x0, acc := .ro, cls := [.c, .p] }

/-- MEMCTL.ERR_INFO.CLASS at 0x024, R338. -/
def MEMCTL_ERR_INFO_CLASS : Fld := { page := 3, off := 0x24, lo := 26, w := 3, rst := 0x0, acc := .ro, cls := [.c, .p] }

/-- MEMCTL.CE_CNT.COUNT at 0x040, R339. -/
def MEMCTL_CE_CNT : Fld := { page := 3, off := 0x40, lo := 0, w := 32, rst := 0x0, acc := .ro, cls := [.c, .p] }

/-- MEMCTL.UE_CNT.COUNT at 0x044, R339. -/
def MEMCTL_UE_CNT : Fld := { page := 3, off := 0x44, lo := 0, w := 32, rst := 0x0, acc := .ro, cls := [.c, .p] }

/-- MEMCTL.ROW_FAIL_CNT.COUNT at 0x048, R339. -/
def MEMCTL_ROW_FAIL_CNT : Fld := { page := 3, off := 0x48, lo := 0, w := 32, rst := 0x0, acc := .ro, cls := [.c, .p] }

/-- MEMCTL.FIELD_REP_CNT.COUNT at 0x04C, R339. -/
def MEMCTL_FIELD_REP_CNT : Fld := { page := 3, off := 0x4C, lo := 0, w := 32, rst := 0x0, acc := .ro, cls := [.c, .p] }

/-- MEMCTL.REMAP_CNT.COUNT at 0x050, R339. -/
def MEMCTL_REMAP_CNT : Fld := { page := 3, off := 0x50, lo := 0, w := 32, rst := 0x0, acc := .ro, cls := [.c, .p] }

/-- MEMCTL.RETIRE_CNT.COUNT at 0x054, R339. -/
def MEMCTL_RETIRE_CNT : Fld := { page := 3, off := 0x54, lo := 0, w := 32, rst := 0x0, acc := .ro, cls := [.c, .p] }

/-- MEMCTL.PAGE_LOST_CNT.COUNT at 0x058, R339. -/
def MEMCTL_PAGE_LOST_CNT : Fld := { page := 3, off := 0x58, lo := 0, w := 32, rst := 0x0, acc := .ro, cls := [.c, .p] }

/-- MEMCTL.RETRAIN_CNT.COUNT at 0x05C, R339. -/
def MEMCTL_RETRAIN_CNT : Fld := { page := 3, off := 0x5C, lo := 0, w := 32, rst := 0x0, acc := .ro, cls := [.c, .p] }

/-- MEMCTL.PARK_STALL_CNT.COUNT at 0x060, R339. -/
def MEMCTL_PARK_STALL_CNT : Fld := { page := 3, off := 0x60, lo := 0, w := 32, rst := 0x0, acc := .ro, cls := [.c, .p] }

/-- MEMCTL.ADDR_FAULT_CNT.COUNT at 0x064, R339. -/
def MEMCTL_ADDR_FAULT_CNT : Fld := { page := 3, off := 0x64, lo := 0, w := 32, rst := 0x0, acc := .ro, cls := [.c, .p] }

/-- MEMCTL.SCRUB_PASS.COUNT at 0x068, R339. -/
def MEMCTL_SCRUB_PASS : Fld := { page := 3, off := 0x68, lo := 0, w := 32, rst := 0x0, acc := .ro, cls := [.c, .p] }

/-- MEMCTL.MAINT.RETRAIN_MS at 0x100, R340. -/
def MEMCTL_MAINT_RETRAIN_MS : Fld := { page := 3, off := 0x100, lo := 0, w := 10, rst := 0x64, acc := .rw, cls := [.c, .p], rmin := 10, rmax := 1000 }

/-- MEMCTL.MAINT.SCRUB_H at 0x100, R340. -/
def MEMCTL_MAINT_SCRUB_H : Fld := { page := 3, off := 0x100, lo := 10, w := 8, rst := 0x18, acc := .rw, cls := [.c, .p], rmin := 1, rmax := 168 }

/-- MEMCTL.THERM.THROTTLE_C at 0x104, R340. -/
def MEMCTL_THERM_THROTTLE_C : Fld := { page := 3, off := 0x104, lo := 0, w := 7, rst := 0x5F, acc := .rw, cls := [.c, .p], rmin := 75, rmax := 100 }

/-- MEMCTL.THERM.HYST_C at 0x104, R340. -/
def MEMCTL_THERM_HYST_C : Fld := { page := 3, off := 0x104, lo := 8, w := 4, rst := 0x5, acc := .rw, cls := [.c, .p], rmin := 2, rmax := 15 }

/-- MEMCTL.PARK_STALL.US at 0x108, R340. -/
def MEMCTL_PARK_STALL : Fld := { page := 3, off := 0x108, lo := 0, w := 20, rst := 0x2710, acc := .rw, cls := [.c, .p], rmin := 1, rmax := 1000000 }

/-- MEMCTL.PRIO_MASK.CLASSES at 0x10C, R340. -/
def MEMCTL_PRIO_MASK_CLASSES : Fld := { page := 3, off := 0x10C, lo := 0, w := 8, rst := 0x3, acc := .rw, cls := [.c, .p] }

/-- MEMCTL.PENDING.ROWS at 0x110, R340. -/
def MEMCTL_PENDING_ROWS : Fld := { page := 3, off := 0x110, lo := 0, w := 16, rst := 0x0, acc := .ro, cls := [.c] }

/-- MEMCTL.PENDING.REMAP_USED at 0x110, R340. -/
def MEMCTL_PENDING_REMAP_USED : Fld := { page := 3, off := 0x110, lo := 16, w := 9, rst := 0x0, acc := .ro, cls := [.c] }

/-- MEMCTL.SPAN_LO.ENTRY at 0x400 + 0x8k, R340. -/
def MEMCTL_SPAN_LO : Fld := { page := 3, off := 0x400, lo := 0, w := 32, rst := 0x0, stride := 8, cnt := 64, acc := .rw, cls := [.c, .p] }

/-- MEMCTL.SPAN_HI.ENTRY at 0x404 + 0x8k, R340. -/
def MEMCTL_SPAN_HI : Fld := { page := 3, off := 0x404, lo := 0, w := 32, rst := 0x0, stride := 8, cnt := 64, acc := .rw, cls := [.c, .p] }

/-- WEIR.CTRL.SPARE at 0x010, R341. -/
def WEIR_CTRL_SPARE : Fld := { page := 4, off := 0x10, lo := 0, w := 1, rst := 0x1, acc := .rw, cls := [.c, .p] }

/-- WEIR.WAIT_CYC.COUNT at 0x040 + 0x4k, R341. -/
def WEIR_WAIT_CYC : Fld := { page := 4, off := 0x40, lo := 0, w := 32, rst := 0x0, stride := 4, cnt := 16, acc := .ro, cls := [.c, .p] }

/-- WEIR.CFG.RATE at 0x100 + 0x8k, R341. -/
def WEIR_CFG_RATE : Fld := { page := 4, off := 0x100, lo := 0, w := 16, rst := 0xFFFF, stride := 8, cnt := 16, acc := .rw, cls := [.c, .p] }

/-- WEIR.CFG.BURST at 0x100 + 0x8k, R341. -/
def WEIR_CFG_BURST : Fld := { page := 4, off := 0x100, lo := 16, w := 16, rst := 0xFFFF, stride := 8, cnt := 16, acc := .rw, cls := [.c, .p], rmin := 1, rmax := 65535 }

/-- WEIR.LVL.LEVEL at 0x104 + 0x8k, R341. -/
def WEIR_LVL : Fld := { page := 4, off := 0x104, lo := 0, w := 16, rst := 0xFFFF, stride := 8, cnt := 16, acc := .ro, cls := [.c, .p] }

/-- WEIR.PARTMAP.PART at 0x200 + 0x4k, R341. -/
def WEIR_PARTMAP : Fld := { page := 4, off := 0x200, lo := 0, w := 32, rst := 0x0, stride := 4, cnt := 16, acc := .rw, cls := [.c, .p] }

/-- SLUICE.DECISIONS.COUNT at 0x040, R369. -/
def SLUICE_DECISIONS : Fld := { page := 5, off := 0x40, lo := 0, w := 32, rst := 0x0, acc := .ro, cls := [.c, .p] }

/-- SLUICE.PINNED_CNT.COUNT at 0x044, R369. -/
def SLUICE_PINNED_CNT : Fld := { page := 5, off := 0x44, lo := 0, w := 32, rst := 0x0, acc := .ro, cls := [.c, .p] }

/-- SLUICE.NOW.NOW at 0x100, R369. -/
def SLUICE_NOW : Fld := { page := 5, off := 0x100, lo := 0, w := 16, rst := 0x0, acc := .ro, cls := [.c, .p] }

/-- SLUICE.REQ_CFG.BURST_M1 at 0x200 + 0x4k, R369. -/
def SLUICE_REQ_CFG_BURST_M1 : Fld := { page := 5, off := 0x200, lo := 0, w := 8, rst := 0xF, stride := 4, cnt := 32, acc := .rw, cls := [.c, .p] }

/-- SLUICE.REQ_CFG.BUDGET at 0x200 + 0x4k, R369. -/
def SLUICE_REQ_CFG_BUDGET : Fld := { page := 5, off := 0x200, lo := 8, w := 15, rst := 0x400, stride := 4, cnt := 32, acc := .rw, cls := [.c, .p], rmin := 0, rmax := 16384 }

/-- SLUICE.GRANT_CNT.COUNT at 0x400 + 0x10k, R369. -/
def SLUICE_GRANT_CNT : Fld := { page := 5, off := 0x400, lo := 0, w := 32, rst := 0x0, stride := 16, cnt := 32, acc := .ro, cls := [.c, .p] }

/-- SLUICE.WAIT_CYC.COUNT at 0x404 + 0x10k, R369. -/
def SLUICE_WAIT_CYC : Fld := { page := 5, off := 0x404, lo := 0, w := 32, rst := 0x0, stride := 16, cnt := 32, acc := .ro, cls := [.c, .p] }

/-- SLUICE.MAX_WAIT.CYCLES at 0x408 + 0x10k, R369. -/
def SLUICE_MAX_WAIT : Fld := { page := 5, off := 0x408, lo := 0, w := 32, rst := 0x0, stride := 16, cnt := 32, acc := .rc, cls := [.c, .p] }

/-- SLUICE.MISS_CNT.COUNT at 0x40C + 0x10k, R369. -/
def SLUICE_MISS_CNT : Fld := { page := 5, off := 0x40C, lo := 0, w := 32, rst := 0x0, stride := 16, cnt := 32, acc := .ro, cls := [.c, .p] }

/-- SYNC.ERR_INFO.CODE at 0x024, R371. -/
def SYNC_ERR_INFO_CODE : Fld := { page := 6, off := 0x24, lo := 0, w := 4, rst := 0x0, acc := .ro, cls := [.c, .p] }

/-- SYNC.ERR_INFO.CLUSTER at 0x024, R371. -/
def SYNC_ERR_INFO_CLUSTER : Fld := { page := 6, off := 0x24, lo := 4, w := 6, rst := 0x0, acc := .ro, cls := [.c, .p] }

/-- SYNC.SIGNALS.COUNT at 0x040, R371. -/
def SYNC_SIGNALS : Fld := { page := 6, off := 0x40, lo := 0, w := 32, rst := 0x0, acc := .ro, cls := [.c, .p] }

/-- SYNC.WAITS_DONE.COUNT at 0x044, R371. -/
def SYNC_WAITS_DONE : Fld := { page := 6, off := 0x44, lo := 0, w := 32, rst := 0x0, acc := .ro, cls := [.c, .p] }

/-- SYNC.BAR_RELEASE.COUNT at 0x048, R371. -/
def SYNC_BAR_RELEASE : Fld := { page := 6, off := 0x48, lo := 0, w := 32, rst := 0x0, acc := .ro, cls := [.c, .p] }

/-- SYNC.ABANDONED_CNT.COUNT at 0x04C, R371. -/
def SYNC_ABANDONED_CNT : Fld := { page := 6, off := 0x4C, lo := 0, w := 32, rst := 0x0, acc := .ro, cls := [.c, .p] }

/-- SYNC.STALE_SIG_CNT.COUNT at 0x050, R371. -/
def SYNC_STALE_SIG_CNT : Fld := { page := 6, off := 0x50, lo := 0, w := 32, rst := 0x0, acc := .ro, cls := [.c, .p] }

/-- SYNC.SAT_CNT.COUNT at 0x054, R371. -/
def SYNC_SAT_CNT : Fld := { page := 6, off := 0x54, lo := 0, w := 32, rst := 0x0, acc := .ro, cls := [.c, .p] }

/-- SYNC.WAIT_FULL_CYC.COUNT at 0x058, R371. -/
def SYNC_WAIT_FULL_CYC : Fld := { page := 6, off := 0x58, lo := 0, w := 32, rst := 0x0, acc := .ro, cls := [.c, .p] }

/-- SYNC.DBG_SET_CNT.COUNT at 0x05C, R371. -/
def SYNC_DBG_SET_CNT : Fld := { page := 6, off := 0x5C, lo := 0, w := 32, rst := 0x0, acc := .ro, cls := [.c, .p] }

/-- SYNC.FLAG_OWN.OWNER at 0x100 + 0x4k, R371. -/
def SYNC_FLAG_OWN_OWNER : Fld := { page := 6, off := 0x100, lo := 0, w := 4, rst := 0x0, stride := 4, cnt := 64, acc := .rw, cls := [.c, .p], own := true }

/-- SYNC.FLAG_OWN.VALID at 0x100 + 0x4k, R371. -/
def SYNC_FLAG_OWN_VALID : Fld := { page := 6, off := 0x100, lo := 4, w := 1, rst := 0x0, stride := 4, cnt := 64, acc := .rw, cls := [.c, .p], own := true }

/-- SYNC.BAR_CFG.N at 0x200 + 0x4k, R371. -/
def SYNC_BAR_CFG_N : Fld := { page := 6, off := 0x200, lo := 0, w := 16, rst := 0x1, stride := 4, cnt := 256, acc := .rw, cls := [.c, .p], own := true, rmin := 1, rmax := 65535 }

/-- SYNC.BAR_CFG.OWNER at 0x200 + 0x4k, R371. -/
def SYNC_BAR_CFG_OWNER : Fld := { page := 6, off := 0x200, lo := 16, w := 4, rst := 0x0, stride := 4, cnt := 256, acc := .rw, cls := [.c, .p], own := true }

/-- SYNC.BAR_CFG.VALID at 0x200 + 0x4k, R371. -/
def SYNC_BAR_CFG_VALID : Fld := { page := 6, off := 0x200, lo := 20, w := 1, rst := 0x0, stride := 4, cnt := 256, acc := .rw, cls := [.c, .p], own := true }

/-- SYNC.EPOCH.EPOCH at 0x600 + 0x4k, R371. -/
def SYNC_EPOCH : Fld := { page := 6, off := 0x600, lo := 0, w := 32, rst := 0x0, stride := 4, cnt := 2, acc := .ro, cls := [.c, .p] }

/-- SYNC.PEEK_SEL.OBJ at 0x610, R371. -/
def SYNC_PEEK_SEL_OBJ : Fld := { page := 6, off := 0x610, lo := 0, w := 12, rst := 0x0, acc := .rw, cls := [.c, .p] }

/-- SYNC.PEEK_SEL.KIND at 0x610, R371. -/
def SYNC_PEEK_SEL_KIND : Fld := { page := 6, off := 0x610, lo := 16, w := 1, rst := 0x0, acc := .rw, cls := [.c, .p] }

/-- SYNC.PEEK_DATA.COUNT at 0x614, R371. -/
def SYNC_PEEK_DATA : Fld := { page := 6, off := 0x614, lo := 0, w := 16, rst := 0x0, acc := .ro, cls := [.c, .p] }

/-- SYNC.PEEK_DATA.OVF at 0x614, R371. -/
def SYNC_PEEK_DATA_OVF : Fld := { page := 6, off := 0x614, lo := 16, w := 1, rst := 0x0, acc := .ro, cls := [.c, .p] }

/-- SYNC.PEEK_DATA.GEN at 0x614, R371. -/
def SYNC_PEEK_DATA_GEN : Fld := { page := 6, off := 0x614, lo := 17, w := 8, rst := 0x0, acc := .ro, cls := [.c, .p] }

/-- SYNC.PEEK_DATA.WAITERS at 0x614, R371. -/
def SYNC_PEEK_DATA_WAITERS : Fld := { page := 6, off := 0x614, lo := 25, w := 7, rst := 0x0, acc := .ro, cls := [.c, .p] }

/-- SYNC.DBG_SET.COUNT at 0x618, R371. -/
def SYNC_DBG_SET : Fld := { page := 6, off := 0x618, lo := 0, w := 16, rst := 0x0, acc := .wo, cls := [.c, .p] }

/-- SYNC.DBG_SET.KIND at 0x618, R371. -/
def SYNC_DBG_SET_KIND : Fld := { page := 6, off := 0x618, lo := 16, w := 1, rst := 0x0, acc := .wo, cls := [.c, .p] }

/-- SYNC.DBG_SET.OBJ at 0x618, R371. -/
def SYNC_DBG_SET_OBJ : Fld := { page := 6, off := 0x618, lo := 17, w := 12, rst := 0x0, acc := .wo, cls := [.c, .p] }

/-- LINK.CTRL.EN at 0x010, R400. -/
def LINK_CTRL_EN : Fld := { page := 7, off := 0x10, lo := 0, w := 1, rst := 0x1, acc := .rw, cls := [.c, .p], own := true }

/-- LINK.CTRL.AUTO_RETRAIN at 0x010, R400. -/
def LINK_CTRL_AUTO_RETRAIN : Fld := { page := 7, off := 0x10, lo := 1, w := 1, rst := 0x1, acc := .rw, cls := [.c, .p] }

/-- LINK.CTRL.AUTO_FAILBACK at 0x010, R400. -/
def LINK_CTRL_AUTO_FAILBACK : Fld := { page := 7, off := 0x10, lo := 2, w := 1, rst := 0x1, acc := .rw, cls := [.c, .p] }

/-- LINK.CTRL.CONFIRM at 0x010, R400. -/
def LINK_CTRL_CONFIRM : Fld := { page := 7, off := 0x10, lo := 3, w := 1, rst := 0x0, acc := .wo, cls := [.c, .p, .k] }

/-- LINK.CTRL.RECHECK at 0x010, R400. -/
def LINK_CTRL_RECHECK : Fld := { page := 7, off := 0x10, lo := 4, w := 1, rst := 0x0, acc := .wo, cls := [.c, .p, .k] }

/-- LINK.CTRL.RESTORE at 0x010, R400. -/
def LINK_CTRL_RESTORE : Fld := { page := 7, off := 0x10, lo := 5, w := 1, rst := 0x0, acc := .wo, cls := [.c, .p, .k] }

/-- LINK.CTRL.FORCE_DOWN at 0x010, R400. -/
def LINK_CTRL_FORCE_DOWN : Fld := { page := 7, off := 0x10, lo := 6, w := 1, rst := 0x0, acc := .wo, cls := [.c, .p, .k] }

/-- LINK.STAT.STATE at 0x014, R400. -/
def LINK_STAT_STATE : Fld := { page := 7, off := 0x14, lo := 0, w := 3, rst := 0x0, acc := .ro, cls := [.c, .p, .k] }

/-- LINK.STAT.REASON at 0x014, R400. -/
def LINK_STAT_REASON : Fld := { page := 7, off := 0x14, lo := 3, w := 4, rst := 0x0, acc := .ro, cls := [.c, .p, .k] }

/-- LINK.STAT.DETOUR at 0x014, R400. -/
def LINK_STAT_DETOUR : Fld := { page := 7, off := 0x14, lo := 7, w := 1, rst := 0x0, acc := .ro, cls := [.c, .p, .k] }

/-- LINK.STAT.MIS at 0x014, R400. -/
def LINK_STAT_MIS : Fld := { page := 7, off := 0x14, lo := 8, w := 5, rst := 0x0, acc := .ro, cls := [.c, .p, .k] }

/-- LINK.STAT.REV at 0x014, R400. -/
def LINK_STAT_REV : Fld := { page := 7, off := 0x14, lo := 13, w := 16, rst := 0x0, acc := .ro, cls := [.c, .p, .k] }

/-- LINK.TX_FRAMES.COUNT at 0x040, R402. -/
def LINK_TX_FRAMES : Fld := { page := 7, off := 0x40, lo := 0, w := 32, rst := 0x0, acc := .ro, cls := [.c, .p] }

/-- LINK.RX_FRAMES.COUNT at 0x044, R402. -/
def LINK_RX_FRAMES : Fld := { page := 7, off := 0x44, lo := 0, w := 32, rst := 0x0, acc := .ro, cls := [.c, .p] }

/-- LINK.RX_DISCARD.COUNT at 0x048, R402. -/
def LINK_RX_DISCARD : Fld := { page := 7, off := 0x48, lo := 0, w := 32, rst := 0x0, acc := .ro, cls := [.c, .p] }

/-- LINK.REPLAYS.COUNT at 0x04C, R402. -/
def LINK_REPLAYS : Fld := { page := 7, off := 0x4C, lo := 0, w := 32, rst := 0x0, acc := .ro, cls := [.c, .p] }

/-- LINK.REPLAY_FRAMES.COUNT at 0x050, R402. -/
def LINK_REPLAY_FRAMES : Fld := { page := 7, off := 0x50, lo := 0, w := 32, rst := 0x0, acc := .ro, cls := [.c, .p] }

/-- LINK.FEC_CORR.COUNT at 0x054, R402. -/
def LINK_FEC_CORR : Fld := { page := 7, off := 0x54, lo := 0, w := 32, rst := 0x0, acc := .ro, cls := [.c, .p] }

/-- LINK.FEC_UNCORR.COUNT at 0x058, R402. -/
def LINK_FEC_UNCORR : Fld := { page := 7, off := 0x58, lo := 0, w := 32, rst := 0x0, acc := .ro, cls := [.c, .p] }

/-- LINK.DEATHS.COUNT at 0x05C, R402. -/
def LINK_DEATHS : Fld := { page := 7, off := 0x5C, lo := 0, w := 32, rst := 0x0, acc := .ro, cls := [.c, .p] }

/-- LINK.DUP_DROP.COUNT at 0x060, R402. -/
def LINK_DUP_DROP : Fld := { page := 7, off := 0x60, lo := 0, w := 32, rst := 0x0, acc := .ro, cls := [.c, .p] }

/-- LINK.HOLD_CNT.COUNT at 0x064, R402. -/
def LINK_HOLD_CNT : Fld := { page := 7, off := 0x64, lo := 0, w := 32, rst := 0x0, acc := .ro, cls := [.c, .p] }

/-- LINK.STREAM_BREAK.COUNT at 0x068, R402. -/
def LINK_STREAM_BREAK : Fld := { page := 7, off := 0x68, lo := 0, w := 32, rst := 0x0, acc := .ro, cls := [.c, .p] }

/-- LINK.TRANSIT.COUNT at 0x06C, R402. -/
def LINK_TRANSIT : Fld := { page := 7, off := 0x6C, lo := 0, w := 32, rst := 0x0, acc := .ro, cls := [.c, .p] }

/-- LINK.DETOUR_FRAMES.COUNT at 0x070, R402. -/
def LINK_DETOUR_FRAMES : Fld := { page := 7, off := 0x70, lo := 0, w := 32, rst := 0x0, acc := .ro, cls := [.c, .p] }

/-- LINK.CTX_DROP.COUNT at 0x074, R402. -/
def LINK_CTX_DROP : Fld := { page := 7, off := 0x74, lo := 0, w := 32, rst := 0x0, acc := .ro, cls := [.c, .p] }

/-- LINK.TOPO_SER_LO.SERIAL at 0x100, R403. -/
def LINK_TOPO_SER_LO : Fld := { page := 7, off := 0x100, lo := 0, w := 32, rst := 0x0, acc := .rw, cls := [.c, .p] }

/-- LINK.TOPO_SER_HI.SERIAL at 0x104, R403. -/
def LINK_TOPO_SER_HI : Fld := { page := 7, off := 0x104, lo := 0, w := 32, rst := 0x0, acc := .rw, cls := [.c, .p] }

/-- LINK.TOPO_PEER.BOARD at 0x108, R403. -/
def LINK_TOPO_PEER_BOARD : Fld := { page := 7, off := 0x108, lo := 0, w := 9, rst := 0x0, acc := .rw, cls := [.c, .p] }

/-- LINK.TOPO_PEER.POS at 0x108, R403. -/
def LINK_TOPO_PEER_POS : Fld := { page := 7, off := 0x108, lo := 9, w := 3, rst := 0x0, acc := .rw, cls := [.c, .p] }

/-- LINK.TOPO_PEER.PORT at 0x108, R403. -/
def LINK_TOPO_PEER_PORT : Fld := { page := 7, off := 0x108, lo := 12, w := 5, rst := 0x0, acc := .rw, cls := [.c, .p] }

/-- LINK.TOPO_PEER.ROLE at 0x108, R403. -/
def LINK_TOPO_PEER_ROLE : Fld := { page := 7, off := 0x108, lo := 17, w := 3, rst := 0x0, acc := .rw, cls := [.c, .p] }

/-- LINK.RETRY_CFG.ACK_TMO at 0x10C, R403. -/
def LINK_RETRY_CFG_ACK_TMO : Fld := { page := 7, off := 0x10C, lo := 0, w := 16, rst := 0x800, acc := .rw, cls := [.c, .p], rmin := 256, rmax := 65535, rstGlobal := some 0x4000 }

/-- LINK.RETRY_CFG.RETRY_LIMIT at 0x10C, R403. -/
def LINK_RETRY_CFG_RETRY_LIMIT : Fld := { page := 7, off := 0x10C, lo := 16, w := 4, rst := 0x4, acc := .rw, cls := [.c, .p], rmin := 1, rmax := 15 }

/-- LINK.HOLD.HOLD_US at 0x110, R403. -/
def LINK_HOLD_HOLD_US : Fld := { page := 7, off := 0x110, lo := 0, w := 16, rst := 0x3E8, acc := .rw, cls := [.c, .p], rmin := 1, rmax := 65535 }

/-- LINK.RETRAIN.RETRAIN_MS at 0x114, R403. -/
def LINK_RETRAIN_RETRAIN_MS : Fld := { page := 7, off := 0x114, lo := 0, w := 16, rst := 0x64, acc := .rw, cls := [.c, .p], rmin := 10, rmax := 10000 }

/-- LINK.REV_CFG.REV_MIN at 0x118, R403. -/
def LINK_REV_CFG_REV_MIN : Fld := { page := 7, off := 0x118, lo := 0, w := 16, rst := 0x100, acc := .rw, cls := [.c, .p], rmin := 256, rmax := 259 }

/-- LINK.REV_CFG.REV_MAX at 0x118, R403. -/
def LINK_REV_CFG_REV_MAX : Fld := { page := 7, off := 0x118, lo := 16, w := 16, rst := 0x103, acc := .rw, cls := [.c, .p], rmin := 256, rmax := 259 }

/-- LINK.VC_CRED.VC0 at 0x11C, R403. -/
def LINK_VC_CRED_VC0 : Fld := { page := 7, off := 0x11C, lo := 0, w := 12, rst := 0x180, acc := .rw, cls := [.c, .p], rstGlobal := some 0x700 }

/-- LINK.VC_CRED.VC1 at 0x11C, R403. -/
def LINK_VC_CRED_VC1 : Fld := { page := 7, off := 0x11C, lo := 12, w := 10, rst := 0x40, acc := .rw, cls := [.c, .p], rmin := 16, rmax := 1023, rstGlobal := some 0x080 }

/-- LINK.VC_CRED.VC2 at 0x11C, R403. -/
def LINK_VC_CRED_VC2 : Fld := { page := 7, off := 0x11C, lo := 22, w := 10, rst := 0x40, acc := .rw, cls := [.c, .p], rmin := 16, rmax := 1023, rstGlobal := some 0x080 }

/-- LINK.PEER_SER_LO.SERIAL at 0x120, R403. -/
def LINK_PEER_SER_LO : Fld := { page := 7, off := 0x120, lo := 0, w := 32, rst := 0x0, acc := .ro, cls := [.c, .p, .k] }

/-- LINK.PEER_SER_HI.SERIAL at 0x124, R403. -/
def LINK_PEER_SER_HI : Fld := { page := 7, off := 0x124, lo := 0, w := 32, rst := 0x0, acc := .ro, cls := [.c, .p, .k] }

/-- LINK.PEER_ID.ID at 0x128, R403. -/
def LINK_PEER_ID : Fld := { page := 7, off := 0x128, lo := 0, w := 20, rst := 0x0, acc := .ro, cls := [.c, .p, .k] }

/-- LINK.PEER_FW.FW at 0x12C, R403. -/
def LINK_PEER_FW : Fld := { page := 7, off := 0x12C, lo := 0, w := 32, rst := 0x0, acc := .ro, cls := [.c, .p, .k] }

/-- LINK.PEER_REV.REV_MIN at 0x130, R403. -/
def LINK_PEER_REV_REV_MIN : Fld := { page := 7, off := 0x130, lo := 0, w := 16, rst := 0x0, acc := .ro, cls := [.c, .p, .k] }

/-- LINK.PEER_REV.REV_MAX at 0x130, R403. -/
def LINK_PEER_REV_REV_MAX : Fld := { page := 7, off := 0x130, lo := 16, w := 16, rst := 0x0, acc := .ro, cls := [.c, .p, .k] }

/-- LINK.SELF.BOARD at 0x200, R403. -/
def LINK_SELF_BOARD : Fld := { page := 7, off := 0x200, lo := 0, w := 9, rst := 0x0, acc := .rw, cls := [.c, .p] }

/-- COLL.CTRL.EN at 0x010, R435. -/
def COLL_CTRL_EN : Fld := { page := 8, off := 0x10, lo := 0, w := 1, rst := 0x1, acc := .rw, cls := [.c, .p] }

/-- COLL.ERR_INFO.CODE at 0x024, R435. -/
def COLL_ERR_INFO_CODE : Fld := { page := 8, off := 0x24, lo := 0, w := 4, rst := 0x0, acc := .ro, cls := [.c, .p] }

/-- COLL.ERR_INFO.CONTEXT at 0x024, R435. -/
def COLL_ERR_INFO_CONTEXT : Fld := { page := 8, off := 0x24, lo := 4, w := 4, rst := 0x0, acc := .ro, cls := [.c, .p] }

/-- COLL.XFER_DONE.COUNT at 0x040, R436. -/
def COLL_XFER_DONE : Fld := { page := 8, off := 0x40, lo := 0, w := 32, rst := 0x0, acc := .ro, cls := [.c, .p] }

/-- COLL.STALE_REJ.COUNT at 0x044, R436. -/
def COLL_STALE_REJ : Fld := { page := 8, off := 0x44, lo := 0, w := 32, rst := 0x0, acc := .ro, cls := [.c, .p] }

/-- COLL.ABSENT_SRC.COUNT at 0x048, R436. -/
def COLL_ABSENT_SRC : Fld := { page := 8, off := 0x48, lo := 0, w := 32, rst := 0x0, acc := .ro, cls := [.c, .p] }

/-- COLL.CARRY_ADD.COUNT at 0x04C, R436. -/
def COLL_CARRY_ADD : Fld := { page := 8, off := 0x4C, lo := 0, w := 32, rst := 0x0, acc := .ro, cls := [.c, .p] }

/-- COLL.CARRY_DROP.COUNT at 0x050, R436. -/
def COLL_CARRY_DROP : Fld := { page := 8, off := 0x50, lo := 0, w := 32, rst := 0x0, acc := .ro, cls := [.c, .p] }

/-- COLL.RETRY_XFER.COUNT at 0x054, R436. -/
def COLL_RETRY_XFER : Fld := { page := 8, off := 0x54, lo := 0, w := 32, rst := 0x0, acc := .ro, cls := [.c, .p] }

/-- COLL.DUP_TURN.COUNT at 0x058, R436. -/
def COLL_DUP_TURN : Fld := { page := 8, off := 0x58, lo := 0, w := 32, rst := 0x0, acc := .ro, cls := [.c, .p] }

/-- COLL.EARLY_HCLK.COUNT at 0x05C, R436. -/
def COLL_EARLY_HCLK : Fld := { page := 8, off := 0x5C, lo := 0, w := 32, rst := 0x0, acc := .ro, cls := [.c, .p] }

/-- COLL.STRAG.US at 0x100 + 0x4k, R437. -/
def COLL_STRAG : Fld := { page := 8, off := 0x100, lo := 0, w := 32, rst := 0xC350, stride := 4, cnt := 16, acc := .rw, cls := [.c, .p, .f] }

/-- COLL.POLICY.ADD_NEXT at 0x140 + 0x4k, R437. -/
def COLL_POLICY : Fld := { page := 8, off := 0x140, lo := 0, w := 1, rst := 0x0, stride := 4, cnt := 16, acc := .rw, cls := [.c, .p, .f] }

/-- COLL.ORIG.COUNT at 0x180 + 0x8k, R437. -/
def COLL_ORIG : Fld := { page := 8, off := 0x180, lo := 0, w := 32, rst := 0x0, stride := 8, cnt := 16, acc := .ro, cls := [.c, .p] }

/-- COLL.FIN.COUNT at 0x184 + 0x8k, R437. -/
def COLL_FIN : Fld := { page := 8, off := 0x184, lo := 0, w := 32, rst := 0x0, stride := 8, cnt := 16, acc := .ro, cls := [.c, .p] }

/-- COLL.CARRY_BASE.ADDR at 0x200 + 0x8k, R437. -/
def COLL_CARRY_BASE : Fld := { page := 8, off := 0x200, lo := 0, w := 32, rst := 0x0, stride := 8, cnt := 16, acc := .rw, cls := [.c, .p, .f] }

/-- COLL.CARRY_SIZE.TURNS at 0x204 + 0x8k, R437. -/
def COLL_CARRY_SIZE : Fld := { page := 8, off := 0x204, lo := 0, w := 16, rst := 0x0, stride := 8, cnt := 16, acc := .rw, cls := [.c, .p, .f] }

/-- COLL.CTX_PAUSE.PAUSE at 0x280, R437. -/
def COLL_CTX_PAUSE : Fld := { page := 8, off := 0x280, lo := 0, w := 16, rst := 0x0, acc := .rw, cls := [.c, .p], own := true }

/-- COLL.DEGRADE.ACTIVE at 0x284, R437. -/
def COLL_DEGRADE_ACTIVE : Fld := { page := 8, off := 0x284, lo := 0, w := 1, rst := 0x0, acc := .ro, cls := [.c, .p] }

/-- COLL.DEGRADE.LOST_POS at 0x284, R437. -/
def COLL_DEGRADE_LOST_POS : Fld := { page := 8, off := 0x284, lo := 1, w := 3, rst := 0x0, acc := .ro, cls := [.c, .p] }

/-- COLL.DEGRADE.PREV_ACTIVE at 0x284, R437. -/
def COLL_DEGRADE_PREV_ACTIVE : Fld := { page := 8, off := 0x284, lo := 4, w := 1, rst := 0x0, acc := .ro, cls := [.c, .p] }

/-- COLL.DEGRADE.PREV_POS at 0x284, R437. -/
def COLL_DEGRADE_PREV_POS : Fld := { page := 8, off := 0x284, lo := 5, w := 3, rst := 0x0, acc := .ro, cls := [.c, .p] }

/-- COLL.DEGRADE.NEXT_ACTIVE at 0x284, R437. -/
def COLL_DEGRADE_NEXT_ACTIVE : Fld := { page := 8, off := 0x284, lo := 8, w := 1, rst := 0x0, acc := .ro, cls := [.c, .p] }

/-- COLL.DEGRADE.NEXT_POS at 0x284, R437. -/
def COLL_DEGRADE_NEXT_POS : Fld := { page := 8, off := 0x284, lo := 9, w := 3, rst := 0x0, acc := .ro, cls := [.c, .p] }

/-- COLL.DEGRADE.STANDIN at 0x284, R437. -/
def COLL_DEGRADE_STANDIN : Fld := { page := 8, off := 0x284, lo := 12, w := 1, rst := 0x0, acc := .ro, cls := [.c, .p] }

/-- COLL.DEGRADE.SERVING at 0x284, R437. -/
def COLL_DEGRADE_SERVING : Fld := { page := 8, off := 0x284, lo := 13, w := 1, rst := 0x0, acc := .ro, cls := [.c, .p] }

/-- COLL.LAST_ABSENT.COLL_ID at 0x288, R437. -/
def COLL_LAST_ABSENT_COLL_ID : Fld := { page := 8, off := 0x288, lo := 0, w := 16, rst := 0x0, acc := .ro, cls := [.c, .p] }

/-- COLL.LAST_ABSENT.ABSENT at 0x288, R437. -/
def COLL_LAST_ABSENT_ABSENT : Fld := { page := 8, off := 0x288, lo := 16, w := 8, rst := 0x0, acc := .ro, cls := [.c, .p] }

/-- COLL.FRAME_BUDGET.CULVERT at 0x28C, R437. -/
def COLL_FRAME_BUDGET_CULVERT : Fld := { page := 8, off := 0x28C, lo := 0, w := 15, rst := 0x400, acc := .rw, cls := [.c, .p], rmin := 0, rmax := 16384 }

/-- COLL.FRAME_BUDGET.PEER at 0x28C, R437. -/
def COLL_FRAME_BUDGET_PEER : Fld := { page := 8, off := 0x28C, lo := 16, w := 15, rst := 0x400, acc := .rw, cls := [.c, .p], rmin := 0, rmax := 16384 }

/-- CULVERT.ACKS.COUNT at 0x040, R459. -/
def CULVERT_ACKS : Fld := { page := 9, off := 0x40, lo := 0, w := 32, rst := 0x0, acc := .ro, cls := [.c, .p] }

/-- CULVERT.NACKS.COUNT at 0x044, R459. -/
def CULVERT_NACKS : Fld := { page := 9, off := 0x44, lo := 0, w := 32, rst := 0x0, acc := .ro, cls := [.c, .p] }

/-- CULVERT.RESENDS.COUNT at 0x048, R459. -/
def CULVERT_RESENDS : Fld := { page := 9, off := 0x48, lo := 0, w := 32, rst := 0x0, acc := .ro, cls := [.c, .p] }

/-- CULVERT.AUDIT_BLK.COUNT at 0x04C, R459. -/
def CULVERT_AUDIT_BLK : Fld := { page := 9, off := 0x4C, lo := 0, w := 32, rst := 0x0, acc := .ro, cls := [.c, .p] }

/-- CULVERT.AUDIT_SKIP.COUNT at 0x050, R459. -/
def CULVERT_AUDIT_SKIP : Fld := { page := 9, off := 0x50, lo := 0, w := 32, rst := 0x0, acc := .ro, cls := [.c, .p] }

/-- CULVERT.AUDIT_ABORT.COUNT at 0x054, R459. -/
def CULVERT_AUDIT_ABORT : Fld := { page := 9, off := 0x54, lo := 0, w := 32, rst := 0x0, acc := .ro, cls := [.c, .p] }

/-- CULVERT.REPAIR_OWNER.COUNT at 0x058, R459. -/
def CULVERT_REPAIR_OWNER : Fld := { page := 9, off := 0x58, lo := 0, w := 32, rst := 0x0, acc := .ro, cls := [.c, .p] }

/-- CULVERT.REPAIR_TWIN.COUNT at 0x05C, R459. -/
def CULVERT_REPAIR_TWIN : Fld := { page := 9, off := 0x5C, lo := 0, w := 32, rst := 0x0, acc := .ro, cls := [.c, .p] }

/-- CULVERT.TABLE_FIX.COUNT at 0x060, R459. -/
def CULVERT_TABLE_FIX : Fld := { page := 9, off := 0x60, lo := 0, w := 32, rst := 0x0, acc := .ro, cls := [.c, .p] }

/-- CULVERT.SUSPECT_CNT.COUNT at 0x064, R459. -/
def CULVERT_SUSPECT_CNT : Fld := { page := 9, off := 0x64, lo := 0, w := 32, rst := 0x0, acc := .ro, cls := [.c, .p] }

/-- CULVERT.CFG.AUDIT_STEPS at 0x100, R460. -/
def CULVERT_CFG_AUDIT_STEPS : Fld := { page := 9, off := 0x100, lo := 0, w := 16, rst := 0x400, acc := .rw, cls := [.c, .p] }

/-- CULVERT.CFG.RESEND_LIMIT at 0x100, R460. -/
def CULVERT_CFG_RESEND_LIMIT : Fld := { page := 9, off := 0x100, lo := 16, w := 4, rst := 0x3, acc := .rw, cls := [.c, .p], rmin := 1, rmax := 15 }

/-- CULVERT.CFG.CTX at 0x100, R460. -/
def CULVERT_CFG_CTX : Fld := { page := 9, off := 0x100, lo := 20, w := 4, rst := 0x0, acc := .rw, cls := [.c, .p] }

/-- CULVERT.TWIN_BASE.ADDR at 0x104, R460. -/
def CULVERT_TWIN_BASE : Fld := { page := 9, off := 0x104, lo := 0, w := 32, rst := 0x0, acc := .rw, cls := [.c, .p] }

/-- CULVERT.TWIN_COUNT.COUNT at 0x108, R460. -/
def CULVERT_TWIN_COUNT : Fld := { page := 9, off := 0x108, lo := 0, w := 20, rst := 0x0, acc := .rw, cls := [.c, .p] }

/-- CULVERT.TCHK_BASE.ADDR at 0x10C, R460. -/
def CULVERT_TCHK_BASE : Fld := { page := 9, off := 0x10C, lo := 0, w := 32, rst := 0x0, acc := .rw, cls := [.c, .p] }

/-- CULVERT.AUDIT_GBI.GBI at 0x110, R460. -/
def CULVERT_AUDIT_GBI : Fld := { page := 9, off := 0x110, lo := 0, w := 32, rst := 0x0, acc := .wo, cls := [.c, .p] }

/-- CULVERT.SUSPECT.GBI at 0x114, R460. -/
def CULVERT_SUSPECT : Fld := { page := 9, off := 0x114, lo := 0, w := 32, rst := 0x0, acc := .ro, cls := [.c, .p] }

/-- CULVERT.SUSPECT_INFO.BUF at 0x118, R460. -/
def CULVERT_SUSPECT_INFO_BUF : Fld := { page := 9, off := 0x118, lo := 0, w := 4, rst := 0x0, acc := .ro, cls := [.c, .p] }

/-- CULVERT.SUSPECT_INFO.OUTCOME at 0x118, R460. -/
def CULVERT_SUSPECT_INFO_OUTCOME : Fld := { page := 9, off := 0x118, lo := 4, w := 3, rst := 0x0, acc := .ro, cls := [.c, .p] }

/-- CULVERT.SUSPECT_INFO.TILE at 0x118, R460. -/
def CULVERT_SUSPECT_INFO_TILE : Fld := { page := 9, off := 0x118, lo := 8, w := 24, rst := 0x0, acc := .ro, cls := [.c, .p] }

/-- CULVERT.RESOLVE.GBI at 0x11C, R460. -/
def CULVERT_RESOLVE : Fld := { page := 9, off := 0x11C, lo := 0, w := 32, rst := 0x0, acc := .wo, cls := [.c, .p] }

/-- CULVERT.RESOLVE_ACT.ACTION at 0x120, R460. -/
def CULVERT_RESOLVE_ACT : Fld := { page := 9, off := 0x120, lo := 0, w := 2, rst := 0x0, acc := .rw, cls := [.c, .p], rmin := 0, rmax := 2 }

/-- CHECK.CTRL.ALG at 0x010, R467. -/
def CHECK_CTRL_ALG : Fld := { page := 10, off := 0x10, lo := 0, w := 2, rst := 0x0, acc := .rw, cls := [.c, .p] }

/-- CHECK.CTRL.INIT at 0x010, R467. -/
def CHECK_CTRL_INIT : Fld := { page := 10, off := 0x10, lo := 2, w := 1, rst := 0x0, acc := .wo, cls := [.c, .p] }

/-- CHECK.CTRL.FINAL at 0x010, R467. -/
def CHECK_CTRL_FINAL : Fld := { page := 10, off := 0x10, lo := 3, w := 1, rst := 0x0, acc := .wo, cls := [.c, .p] }

/-- CHECK.CTRL.CMP_EN at 0x010, R467. -/
def CHECK_CTRL_CMP_EN : Fld := { page := 10, off := 0x10, lo := 4, w := 1, rst := 0x0, acc := .rw, cls := [.c, .p] }

/-- CHECK.STAT.BUSY at 0x014, R467. -/
def CHECK_STAT_BUSY : Fld := { page := 10, off := 0x14, lo := 0, w := 1, rst := 0x0, acc := .ro, cls := [.c, .p] }

/-- CHECK.STAT.LEVEL at 0x014, R467. -/
def CHECK_STAT_LEVEL : Fld := { page := 10, off := 0x14, lo := 1, w := 4, rst := 0x0, acc := .ro, cls := [.c, .p] }

/-- CHECK.STAT.MATCH at 0x014, R467. -/
def CHECK_STAT_MATCH : Fld := { page := 10, off := 0x14, lo := 5, w := 1, rst := 0x0, acc := .ro, cls := [.c, .p] }

/-- CHECK.BYTES.COUNT at 0x040, R467. -/
def CHECK_BYTES : Fld := { page := 10, off := 0x40, lo := 0, w := 32, rst := 0x0, acc := .ro, cls := [.c, .p] }

/-- CHECK.FINALS.COUNT at 0x044, R467. -/
def CHECK_FINALS : Fld := { page := 10, off := 0x44, lo := 0, w := 32, rst := 0x0, acc := .ro, cls := [.c, .p] }

/-- CHECK.MISMATCH_CNT.COUNT at 0x048, R467. -/
def CHECK_MISMATCH_CNT : Fld := { page := 10, off := 0x48, lo := 0, w := 32, rst := 0x0, acc := .ro, cls := [.c, .p] }

/-- CHECK.DATA_B.DATA at 0x100, R467. -/
def CHECK_DATA_B : Fld := { page := 10, off := 0x100, lo := 0, w := 8, rst := 0x0, acc := .wo, cls := [.c, .p] }

/-- CHECK.DATA_H.DATA at 0x104, R467. -/
def CHECK_DATA_H : Fld := { page := 10, off := 0x104, lo := 0, w := 16, rst := 0x0, acc := .wo, cls := [.c, .p] }

/-- CHECK.DATA_W.DATA at 0x108, R467. -/
def CHECK_DATA_W : Fld := { page := 10, off := 0x108, lo := 0, w := 32, rst := 0x0, acc := .wo, cls := [.c, .p] }

/-- CHECK.RUN_LO.RUN at 0x110, R467. -/
def CHECK_RUN_LO : Fld := { page := 10, off := 0x110, lo := 0, w := 32, rst := 0x0, acc := .rw, cls := [.c, .p] }

/-- CHECK.RUN_HI.RUN at 0x114, R467. -/
def CHECK_RUN_HI : Fld := { page := 10, off := 0x114, lo := 0, w := 32, rst := 0x0, acc := .rw, cls := [.c, .p] }

/-- CHECK.EXP_LO.EXP at 0x118, R467. -/
def CHECK_EXP_LO : Fld := { page := 10, off := 0x118, lo := 0, w := 32, rst := 0x0, acc := .rw, cls := [.c, .p] }

/-- CHECK.EXP_HI.EXP at 0x11C, R467. -/
def CHECK_EXP_HI : Fld := { page := 10, off := 0x11C, lo := 0, w := 32, rst := 0x0, acc := .rw, cls := [.c, .p] }

/-- CHECK.RES_LO.RES at 0x120, R467. -/
def CHECK_RES_LO : Fld := { page := 10, off := 0x120, lo := 0, w := 32, rst := 0x0, acc := .ro, cls := [.c, .p] }

/-- CHECK.RES_HI.RES at 0x124, R467. -/
def CHECK_RES_HI : Fld := { page := 10, off := 0x124, lo := 0, w := 32, rst := 0x0, acc := .ro, cls := [.c, .p] }

/-- HOSTIF.JRN_BASE.ADDR at 0x800 + 0x40k, R507. -/
def HOSTIF_JRN_BASE : Fld := { page := 11, off := 0x800, lo := 0, w := 28, rst := 0x0, stride := 64, cnt := 16, acc := .rw, cls := [.c, .p, .f] }

/-- HOSTIF.JRN_CFG.LOG2_SIZE at 0x804 + 0x40k, R507. -/
def HOSTIF_JRN_CFG_LOG2_SIZE : Fld := { page := 11, off := 0x804, lo := 0, w := 6, rst := 0x10, stride := 64, cnt := 16, acc := .rw, cls := [.c, .p, .f], rmin := 16, rmax := 32 }

/-- HOSTIF.JRN_CFG.EN at 0x804 + 0x40k, R507. -/
def HOSTIF_JRN_CFG_EN : Fld := { page := 11, off := 0x804, lo := 8, w := 1, rst := 0x0, stride := 64, cnt := 16, acc := .rw, cls := [.c, .p, .f] }

/-- HOSTIF.JRN_CFG.DRAIN at 0x804 + 0x40k, R507. -/
def HOSTIF_JRN_CFG_DRAIN : Fld := { page := 11, off := 0x804, lo := 9, w := 1, rst := 0x0, stride := 64, cnt := 16, acc := .rw, cls := [.c, .p, .f] }

/-- HOSTIF.JRN_WR.BYTES at 0x808 + 0x40k, R507. -/
def HOSTIF_JRN_WR : Fld := { page := 11, off := 0x808, lo := 0, w := 32, rst := 0x0, stride := 64, cnt := 16, acc := .ro, cls := [.c, .p, .f] }

/-- HOSTIF.JRN_DR.BYTES at 0x80C + 0x40k, R507. -/
def HOSTIF_JRN_DR : Fld := { page := 11, off := 0x80C, lo := 0, w := 32, rst := 0x0, stride := 64, cnt := 16, acc := .ro, cls := [.c, .p, .f] }

/-- HOSTIF.JRN_HOST_LO.ADDR at 0x810 + 0x40k, R507. -/
def HOSTIF_JRN_HOST_LO : Fld := { page := 11, off := 0x810, lo := 0, w := 32, rst := 0x0, stride := 64, cnt := 16, acc := .rw, cls := [.c, .p, .f] }

/-- HOSTIF.JRN_HOST_HI.ADDR at 0x814 + 0x40k, R507. -/
def HOSTIF_JRN_HOST_HI : Fld := { page := 11, off := 0x814, lo := 0, w := 32, rst := 0x0, stride := 64, cnt := 16, acc := .rw, cls := [.c, .p, .f] }

/-- HOSTIF.JRN_HOST_CFG.LOG2_SIZE at 0x818 + 0x40k, R507. -/
def HOSTIF_JRN_HOST_CFG_LOG2_SIZE : Fld := { page := 11, off := 0x818, lo := 0, w := 6, rst := 0x10, stride := 64, cnt := 16, acc := .rw, cls := [.c, .p, .f], rmin := 16, rmax := 40 }

/-- HOSTIF.JRN_HOST_TAIL.BYTES at 0x81C + 0x40k, R507. -/
def HOSTIF_JRN_HOST_TAIL : Fld := { page := 11, off := 0x81C, lo := 0, w := 32, rst := 0x0, stride := 64, cnt := 16, acc := .rw, cls := [.c, .p, .f] }

/-- HOSTIF.JRN_SEQ.SEQ at 0x820 + 0x40k, R507. -/
def HOSTIF_JRN_SEQ : Fld := { page := 11, off := 0x820, lo := 0, w := 32, rst := 0x0, stride := 64, cnt := 16, acc := .ro, cls := [.c, .p, .f] }

/-- HOSTIF.RPL_BASE.ADDR at 0x824 + 0x40k, R507. -/
def HOSTIF_RPL_BASE : Fld := { page := 11, off := 0x824, lo := 0, w := 28, rst := 0x0, stride := 64, cnt := 16, acc := .rw, cls := [.c, .p, .f] }

/-- HOSTIF.RPL_CFG.LOG2_SIZE at 0x828 + 0x40k, R507. -/
def HOSTIF_RPL_CFG_LOG2_SIZE : Fld := { page := 11, off := 0x828, lo := 0, w := 6, rst := 0x10, stride := 64, cnt := 16, acc := .rw, cls := [.c, .p, .f], rmin := 16, rmax := 32 }

/-- HOSTIF.RPL_CFG.EN at 0x828 + 0x40k, R507. -/
def HOSTIF_RPL_CFG_EN : Fld := { page := 11, off := 0x828, lo := 8, w := 1, rst := 0x0, stride := 64, cnt := 16, acc := .rw, cls := [.c, .p, .f] }

/-- HOSTIF.RPL_WR.BYTES at 0x82C + 0x40k, R507. -/
def HOSTIF_RPL_WR : Fld := { page := 11, off := 0x82C, lo := 0, w := 32, rst := 0x0, stride := 64, cnt := 16, acc := .rw, cls := [.c, .p, .f] }

/-- HOSTIF.RPL_RD.BYTES at 0x830 + 0x40k, R507. -/
def HOSTIF_RPL_RD : Fld := { page := 11, off := 0x830, lo := 0, w := 32, rst := 0x0, stride := 64, cnt := 16, acc := .ro, cls := [.c, .p, .f] }

/-- HOSTIF.RPL_STEP.STEP at 0x834 + 0x40k, R507. -/
def HOSTIF_RPL_STEP : Fld := { page := 11, off := 0x834, lo := 0, w := 32, rst := 0x0, stride := 64, cnt := 16, acc := .ro, cls := [.c, .p, .f] }

/-- HOSTIF.PEER_WIN_BASE.ADDR at 0x838 + 0x40k, R507. -/
def HOSTIF_PEER_WIN_BASE : Fld := { page := 11, off := 0x838, lo := 0, w := 28, rst := 0x0, stride := 64, cnt := 16, acc := .rw, cls := [.c, .p, .f] }

/-- HOSTIF.PEER_WIN_MIB.MIB at 0x83C + 0x40k, R507. -/
def HOSTIF_PEER_WIN_MIB : Fld := { page := 11, off := 0x83C, lo := 0, w := 20, rst := 0x0, stride := 64, cnt := 16, acc := .rw, cls := [.c, .p, .f] }

/-- CLUSTER.LIST_ERR.CODE at 0x198, R667. -/
def CLUSTER_LIST_ERR_CODE : Fld := { page := 1, off := 0x198, lo := 0, w := 4, rst := 0x0, acc := .ro, cls := [.c, .p] }

/-- CLUSTER.LIST_ERR.ADDR at 0x198, R667. -/
def CLUSTER_LIST_ERR_ADDR : Fld := { page := 1, off := 0x198, lo := 4, w := 23, rst := 0x0, acc := .ro, cls := [.c, .p] }

/-- CQ.ACCEPTED.COUNT at 0x040, R534. -/
def CQ_ACCEPTED : Fld := { page := 12, off := 0x40, lo := 0, w := 32, rst := 0x0, acc := .ro, cls := [.c, .p] }

/-- CQ.COMPLETED.COUNT at 0x044, R534. -/
def CQ_COMPLETED : Fld := { page := 12, off := 0x44, lo := 0, w := 32, rst := 0x0, acc := .ro, cls := [.c, .p] }

/-- CQ.STALE_CNT.COUNT at 0x048, R534. -/
def CQ_STALE_CNT : Fld := { page := 12, off := 0x48, lo := 0, w := 32, rst := 0x0, acc := .ro, cls := [.c, .p] }

/-- CQ.CQ_FULL_HCLK.COUNT at 0x04C, R534. -/
def CQ_CQ_FULL_HCLK : Fld := { page := 12, off := 0x4C, lo := 0, w := 32, rst := 0x0, acc := .ro, cls := [.c, .p] }

/-- CQ.SLOTS_USED.COUNT at 0x050, R534. -/
def CQ_SLOTS_USED : Fld := { page := 12, off := 0x50, lo := 0, w := 17, rst := 0x0, acc := .ro, cls := [.c, .p, .l, .f] }

/-- CQ.SQ_BASE_LO.ADDR at 0x100 + 0x40k, R534. -/
def CQ_SQ_BASE_LO : Fld := { page := 12, off := 0x100, lo := 12, w := 20, rst := 0x0, stride := 64, cnt := 4, acc := .rw, cls := [.c, .p, .l, .f] }

/-- CQ.SQ_BASE_HI.ADDR at 0x104 + 0x40k, R534. -/
def CQ_SQ_BASE_HI : Fld := { page := 12, off := 0x104, lo := 0, w := 32, rst := 0x0, stride := 64, cnt := 4, acc := .rw, cls := [.c, .p, .l, .f] }

/-- CQ.SQ_CFG.LOG2_ENTRIES at 0x108 + 0x40k, R534. -/
def CQ_SQ_CFG_LOG2_ENTRIES : Fld := { page := 12, off := 0x108, lo := 0, w := 5, rst := 0x4, stride := 64, cnt := 4, acc := .rw, cls := [.c, .p, .l, .f], rmin := 4, rmax := 16 }

/-- CQ.SQ_CFG.EN at 0x108 + 0x40k, R534. -/
def CQ_SQ_CFG_EN : Fld := { page := 12, off := 0x108, lo := 8, w := 1, rst := 0x0, stride := 64, cnt := 4, acc := .rw, cls := [.c, .p, .l, .f], own := true }

/-- CQ.SQ_TAIL.TAIL at 0x10C + 0x40k, R534. -/
def CQ_SQ_TAIL : Fld := { page := 12, off := 0x10C, lo := 0, w := 16, rst := 0x0, stride := 64, cnt := 4, acc := .rw, cls := [.c, .p, .l, .f], own := true }

/-- CQ.SQ_HEAD.HEAD at 0x110 + 0x40k, R534. -/
def CQ_SQ_HEAD : Fld := { page := 12, off := 0x110, lo := 0, w := 16, rst := 0x0, stride := 64, cnt := 4, acc := .ro, cls := [.c, .p, .l, .f] }

/-- CQ.CQ_BASE_LO.ADDR at 0x114 + 0x40k, R534. -/
def CQ_CQ_BASE_LO : Fld := { page := 12, off := 0x114, lo := 12, w := 20, rst := 0x0, stride := 64, cnt := 4, acc := .rw, cls := [.c, .p, .l, .f] }

/-- CQ.CQ_BASE_HI.ADDR at 0x118 + 0x40k, R534. -/
def CQ_CQ_BASE_HI : Fld := { page := 12, off := 0x118, lo := 0, w := 32, rst := 0x0, stride := 64, cnt := 4, acc := .rw, cls := [.c, .p, .l, .f] }

/-- CQ.CQ_CFG.LOG2_ENTRIES at 0x11C + 0x40k, R534. -/
def CQ_CQ_CFG_LOG2_ENTRIES : Fld := { page := 12, off := 0x11C, lo := 0, w := 5, rst := 0x4, stride := 64, cnt := 4, acc := .rw, cls := [.c, .p, .l, .f], rmin := 4, rmax := 20 }

/-- CQ.CQ_CFG.EN at 0x11C + 0x40k, R534. -/
def CQ_CQ_CFG_EN : Fld := { page := 12, off := 0x11C, lo := 8, w := 1, rst := 0x0, stride := 64, cnt := 4, acc := .rw, cls := [.c, .p, .l, .f] }

/-- CQ.CQ_CFG.COAL_CNT at 0x11C + 0x40k, R534. -/
def CQ_CQ_CFG_COAL_CNT : Fld := { page := 12, off := 0x11C, lo := 9, w := 8, rst := 0x0, stride := 64, cnt := 4, acc := .rw, cls := [.c, .p, .l, .f] }

/-- CQ.CQ_CFG.COAL_US at 0x11C + 0x40k, R534. -/
def CQ_CQ_CFG_COAL_US : Fld := { page := 12, off := 0x11C, lo := 17, w := 9, rst := 0x0, stride := 64, cnt := 4, acc := .rw, cls := [.c, .p, .l, .f] }

/-- CQ.CQ_HEAD.HEAD at 0x120 + 0x40k, R534. -/
def CQ_CQ_HEAD : Fld := { page := 12, off := 0x120, lo := 0, w := 20, rst := 0x0, stride := 64, cnt := 4, acc := .rw, cls := [.c, .p, .l, .f], own := true }

/-- CQ.CQ_TAIL.TAIL at 0x124 + 0x40k, R534. -/
def CQ_CQ_TAIL : Fld := { page := 12, off := 0x124, lo := 0, w := 20, rst := 0x0, stride := 64, cnt := 4, acc := .ro, cls := [.c, .p, .l, .f] }

/-- HOSTIF.BAR2_FAULT_CNT.COUNT at 0x040, R536. -/
def HOSTIF_BAR2_FAULT_CNT : Fld := { page := 11, off := 0x40, lo := 0, w := 32, rst := 0x0, acc := .ro, cls := [.c, .p] }

/-- HOSTIF.DENIED_CNT.COUNT at 0x044, R536. -/
def HOSTIF_DENIED_CNT : Fld := { page := 11, off := 0x44, lo := 0, w := 32, rst := 0x0, acc := .ro, cls := [.c, .p] }

/-- HOSTIF.BAR2_BASE.ADDR at 0x100, R536. -/
def HOSTIF_BAR2_BASE : Fld := { page := 11, off := 0x100, lo := 0, w := 28, rst := 0x0, acc := .rw, cls := [.c, .p, .l] }

/-- HOSTIF.BAR2_CTRL.EN at 0x104, R536. -/
def HOSTIF_BAR2_CTRL_EN : Fld := { page := 11, off := 0x104, lo := 0, w := 1, rst := 0x0, acc := .rw, cls := [.c, .p, .l] }

/-- HOSTIF.CTX_PRIO.PRIO at 0x140 + 0x4k, R536. -/
def HOSTIF_CTX_PRIO_PRIO : Fld := { page := 11, off := 0x140, lo := 0, w := 2, rst := 0x1, stride := 4, cnt := 16, acc := .rw, cls := [.c, .p] }

/-- HOSTIF.CTX_PRIO.PREEMPTED at 0x140 + 0x4k, R536. -/
def HOSTIF_CTX_PRIO_PREEMPTED : Fld := { page := 11, off := 0x140, lo := 2, w := 1, rst := 0x0, stride := 4, cnt := 16, acc := .ro, cls := [.c, .p, .f] }

/-- HOSTIF.LINK_STAT.SPEED at 0x180, R536. -/
def HOSTIF_LINK_STAT_SPEED : Fld := { page := 11, off := 0x180, lo := 0, w := 3, rst := 0x0, acc := .ro, cls := [.c, .p, .l] }

/-- HOSTIF.LINK_STAT.WIDTH at 0x180, R536. -/
def HOSTIF_LINK_STAT_WIDTH : Fld := { page := 11, off := 0x180, lo := 3, w := 5, rst := 0x0, acc := .ro, cls := [.c, .p, .l] }

/-- HOSTIF.LINK_STAT.FLIT at 0x180, R536. -/
def HOSTIF_LINK_STAT_FLIT : Fld := { page := 11, off := 0x180, lo := 8, w := 1, rst := 0x0, acc := .ro, cls := [.c, .p, .l] }

/-- BOOT.CTRL.GO at 0x010, R562. -/
def BOOT_CTRL_GO : Fld := { page := 18, off := 0x10, lo := 0, w := 1, rst := 0x0, acc := .wo, cls := [.c] }

/-- BOOT.STAT.STATE at 0x014, R562. -/
def BOOT_STAT_STATE : Fld := { page := 18, off := 0x14, lo := 0, w := 4, rst := 0x0, acc := .ro, cls := [.c] }

/-- BOOT.STAT.REASON at 0x014, R562. -/
def BOOT_STAT_REASON : Fld := { page := 18, off := 0x14, lo := 4, w := 4, rst := 0x0, acc := .ro, cls := [.c] }

/-- BOOT.STAT.OTP_FROZEN at 0x014, R562. -/
def BOOT_STAT_OTP_FROZEN : Fld := { page := 18, off := 0x14, lo := 8, w := 1, rst := 0x0, acc := .ro, cls := [.c] }

/-- BOOT.STAT.ID_READY at 0x014, R562. -/
def BOOT_STAT_ID_READY : Fld := { page := 18, off := 0x14, lo := 9, w := 1, rst := 0x0, acc := .ro, cls := [.c] }

/-- BOOT.STAT.ATTEMPTS at 0x014, R562. -/
def BOOT_STAT_ATTEMPTS : Fld := { page := 18, off := 0x14, lo := 10, w := 4, rst := 0x0, acc := .ro, cls := [.c] }

/-- BOOT.MBX_IGNORED.COUNT at 0x040, R562. -/
def BOOT_MBX_IGNORED : Fld := { page := 18, off := 0x40, lo := 0, w := 32, rst := 0x0, acc := .ro, cls := [.c] }

/-- BOOT.IMG_LEN.BYTES at 0x100, R562. -/
def BOOT_IMG_LEN : Fld := { page := 18, off := 0x100, lo := 0, w := 20, rst := 0x0, acc := .rw, cls := [.c] }

/-- BOOT.FW_VERSION.VERSION at 0x104, R562. -/
def BOOT_FW_VERSION : Fld := { page := 18, off := 0x104, lo := 0, w := 32, rst := 0x0, acc := .ro, cls := [.c] }

/-- BOOT.FW_SVN.SVN at 0x108, R562. -/
def BOOT_FW_SVN_SVN : Fld := { page := 18, off := 0x108, lo := 0, w := 16, rst := 0x0, acc := .ro, cls := [.c] }

/-- BOOT.IMG_DIGEST.DIGEST at 0x110 + 0x4k, R562. -/
def BOOT_IMG_DIGEST : Fld := { page := 18, off := 0x110, lo := 0, w := 32, rst := 0x0, stride := 4, cnt := 12, acc := .ro, cls := [.c] }

/-- OTP.CTRL.PROG_GO at 0x010, R563. -/
def OTP_CTRL_PROG_GO : Fld := { page := 17, off := 0x10, lo := 0, w := 1, rst := 0x0, acc := .wo, cls := [.c] }

/-- OTP.STAT.BUSY at 0x014, R563. -/
def OTP_STAT_BUSY : Fld := { page := 17, off := 0x14, lo := 0, w := 1, rst := 0x0, acc := .ro, cls := [.c] }

/-- OTP.PROG_CNT.COUNT at 0x040, R563. -/
def OTP_PROG_CNT : Fld := { page := 17, off := 0x40, lo := 0, w := 32, rst := 0x0, acc := .ro, cls := [.c] }

/-- OTP.PROG_FAIL_CNT.COUNT at 0x044, R563. -/
def OTP_PROG_FAIL_CNT : Fld := { page := 17, off := 0x44, lo := 0, w := 32, rst := 0x0, acc := .ro, cls := [.c] }

/-- OTP.PROG_FIELD.INDEX at 0x100, R563. -/
def OTP_PROG_FIELD : Fld := { page := 17, off := 0x100, lo := 0, w := 4, rst := 0x0, acc := .rw, cls := [.c] }

/-- OTP.PROG_DATA.DATA at 0x200 + 0x4k, R563. -/
def OTP_PROG_DATA : Fld := { page := 17, off := 0x200, lo := 0, w := 32, rst := 0x0, stride := 4, cnt := 24, acc := .rw, cls := [.c] }

/-- PWR.CTRL.STATE_REQ at 0x010, R594. -/
def PWR_CTRL_STATE_REQ : Fld := { page := 13, off := 0x10, lo := 0, w := 2, rst := 0x0, acc := .rw, cls := [.c, .p], own := true }

/-- PWR.STAT.STATE at 0x014, R594. -/
def PWR_STAT_STATE : Fld := { page := 13, off := 0x14, lo := 0, w := 2, rst := 0x0, acc := .ro, cls := [.c, .p] }

/-- PWR.STAT.DIP at 0x014, R594. -/
def PWR_STAT_DIP : Fld := { page := 13, off := 0x14, lo := 2, w := 1, rst := 0x0, acc := .ro, cls := [.c, .p] }

/-- PWR.STAT.HOLDOFF at 0x014, R594. -/
def PWR_STAT_HOLDOFF : Fld := { page := 13, off := 0x14, lo := 3, w := 1, rst := 0x0, acc := .ro, cls := [.c, .p] }

/-- PWR.STAT.RAIL at 0x014, R594. -/
def PWR_STAT_RAIL : Fld := { page := 13, off := 0x14, lo := 4, w := 4, rst := 0x0, acc := .ro, cls := [.c, .p] }

/-- PWR.DIP_CNT.COUNT at 0x040, R594. -/
def PWR_DIP_CNT : Fld := { page := 13, off := 0x40, lo := 0, w := 32, rst := 0x0, acc := .ro, cls := [.c, .p] }

/-- PWR.REVERIFY_TILES.COUNT at 0x044, R594. -/
def PWR_REVERIFY_TILES : Fld := { page := 13, off := 0x44, lo := 0, w := 32, rst := 0x0, acc := .ro, cls := [.c, .p] }

/-- PWR.REVERIFY_FAIL.COUNT at 0x048, R594. -/
def PWR_REVERIFY_FAIL : Fld := { page := 13, off := 0x48, lo := 0, w := 32, rst := 0x0, acc := .ro, cls := [.c, .p] }

/-- PWR.STRETCH_CNT.COUNT at 0x050 + 0x4k, R594. -/
def PWR_STRETCH_CNT : Fld := { page := 13, off := 0x50, lo := 0, w := 32, rst := 0x0, stride := 4, cnt := 4, acc := .ro, cls := [.c, .p] }

/-- PWR.DOM_REQ.ON at 0x100 + 0x4k, R594. -/
def PWR_DOM_REQ : Fld := { page := 13, off := 0x100, lo := 0, w := 32, rst := 0xFFFFFFFF, stride := 4, cnt := 4, acc := .rw, cls := [.c, .p], own := true }

/-- PWR.DOM_STAT.ON at 0x110 + 0x4k, R594. -/
def PWR_DOM_STAT : Fld := { page := 13, off := 0x110, lo := 0, w := 32, rst := 0xFFFFFFFF, stride := 4, cnt := 4, acc := .ro, cls := [.c, .p] }

/-- PWR.ISLAND_RST.KIND at 0x120, R594. -/
def PWR_ISLAND_RST_KIND : Fld := { page := 13, off := 0x120, lo := 0, w := 1, rst := 0x0, acc := .wo, cls := [.c, .p] }

/-- PWR.ISLAND_RST.ISLAND at 0x120, R594. -/
def PWR_ISLAND_RST_ISLAND : Fld := { page := 13, off := 0x120, lo := 1, w := 10, rst := 0x0, acc := .wo, cls := [.c, .p] }

/-- PWR.PORT_RST.PORT at 0x124, R594. -/
def PWR_PORT_RST : Fld := { page := 13, off := 0x124, lo := 0, w := 5, rst := 0x0, acc := .wo, cls := [.c, .p] }

/-- PWR.CAP.WATTS at 0x128, R594. -/
def PWR_CAP : Fld := { page := 13, off := 0x128, lo := 0, w := 12, rst := 0x960, acc := .rw, cls := [.c, .p], rmin := 1000, rmax := 2400 }

/-- PWR.POWER.WATTS at 0x12C, R594. -/
def PWR_POWER : Fld := { page := 13, off := 0x12C, lo := 0, w := 12, rst := 0x0, acc := .ro, cls := [.c, .p] }

/-- PWR.RAIL_MIN.MV at 0x140 + 0x4k, R594. -/
def PWR_RAIL_MIN : Fld := { page := 13, off := 0x140, lo := 0, w := 16, rst := 0x0, stride := 4, cnt := 11, acc := .ro, cls := [.c, .p] }

/-- THERM.STEP_DOWN.COUNT at 0x040, R595. -/
def THERM_STEP_DOWN : Fld := { page := 14, off := 0x40, lo := 0, w := 32, rst := 0x0, acc := .ro, cls := [.c, .p] }

/-- THERM.STEP_UP.COUNT at 0x044, R595. -/
def THERM_STEP_UP : Fld := { page := 14, off := 0x44, lo := 0, w := 32, rst := 0x0, acc := .ro, cls := [.c, .p] }

/-- THERM.REGION.TEMP at 0x100 + 0x4k, R595. -/
def THERM_REGION_TEMP : Fld := { page := 14, off := 0x100, lo := 0, w := 8, rst := 0x0, stride := 4, cnt := 32, acc := .ro, cls := [.c, .p] }

/-- THERM.REGION.TSTEP at 0x100 + 0x4k, R595. -/
def THERM_REGION_TSTEP : Fld := { page := 14, off := 0x100, lo := 8, w := 3, rst := 0x0, stride := 4, cnt := 32, acc := .ro, cls := [.c, .p] }

/-- THERM.REGION.CAUSE at 0x100 + 0x4k, R595. -/
def THERM_REGION_CAUSE : Fld := { page := 14, off := 0x100, lo := 11, w := 2, rst := 0x0, stride := 4, cnt := 32, acc := .ro, cls := [.c, .p] }

/-- THERM.CFG.THR_C at 0x180, R595. -/
def THERM_CFG_THR_C : Fld := { page := 14, off := 0x180, lo := 0, w := 7, rst := 0x64, acc := .rw, cls := [.c, .p], rmin := 80, rmax := 110 }

/-- THERM.CFG.HYST_C at 0x180, R595. -/
def THERM_CFG_HYST_C : Fld := { page := 14, off := 0x180, lo := 8, w := 4, rst := 0x5, acc := .rw, cls := [.c, .p], rmin := 2, rmax := 15 }

/-- BRKW.CTRL.LOG_CLR at 0x010, R608. -/
def BRKW_CTRL_LOG_CLR : Fld := { page := 15, off := 0x10, lo := 0, w := 1, rst := 0x0, acc := .wo, cls := [.c] }

/-- BRKW.CTRL.FORCE_FAULT at 0x010, R608. -/
def BRKW_CTRL_FORCE_FAULT : Fld := { page := 15, off := 0x10, lo := 1, w := 1, rst := 0x0, acc := .wo, cls := [.c] }

/-- BRKW.STAT.FAULT at 0x014, R608. -/
def BRKW_STAT_FAULT : Fld := { page := 15, off := 0x14, lo := 0, w := 1, rst := 0x0, acc := .ro, cls := [.c, .p] }

/-- BRKW.STAT.CAUSE at 0x014, R608. -/
def BRKW_STAT_CAUSE : Fld := { page := 15, off := 0x14, lo := 1, w := 3, rst := 0x0, acc := .ro, cls := [.c, .p] }

/-- BRKW.STAT.LATENT at 0x014, R608. -/
def BRKW_STAT_LATENT : Fld := { page := 15, off := 0x14, lo := 4, w := 1, rst := 0x0, acc := .ro, cls := [.c] }

/-- BRKW.STAT.ARMED at 0x014, R608. -/
def BRKW_STAT_ARMED : Fld := { page := 15, off := 0x14, lo := 5, w := 12, rst := 0x0, acc := .ro, cls := [.c, .p] }

/-- BRKW.FAULTS.COUNT at 0x040, R608. -/
def BRKW_FAULTS : Fld := { page := 15, off := 0x40, lo := 0, w := 32, rst := 0x0, acc := .ro, cls := [] }

/-- BRKW.SEQ_LOCKSTEP_CNT.COUNT at 0x044, R608. -/
def BRKW_SEQ_LOCKSTEP_CNT : Fld := { page := 15, off := 0x44, lo := 0, w := 32, rst := 0x0, acc := .ro, cls := [.c, .p] }

/-- BRKW.RESIDUE_REPEAT.COUNT at 0x048, R608. -/
def BRKW_RESIDUE_REPEAT : Fld := { page := 15, off := 0x48, lo := 0, w := 32, rst := 0x0, acc := .ro, cls := [.c, .p] }

/-- BRKW.KICKS_BAD.COUNT at 0x04C, R608. -/
def BRKW_KICKS_BAD : Fld := { page := 15, off := 0x4C, lo := 0, w := 32, rst := 0x0, acc := .ro, cls := [.c, .p] }

/-- BRKW.KICK.KEY at 0x100 + 0x4k, R608. -/
def BRKW_KICK : Fld := { page := 15, off := 0x100, lo := 0, w := 16, rst := 0x0, stride := 4, cnt := 12, acc := .wo, cls := [.c, .p] }

/-- BRKW.WDOG_CFG.PERIOD_MS at 0x140, R608. -/
def BRKW_WDOG_CFG_PERIOD_MS : Fld := { page := 15, off := 0x140, lo := 0, w := 10, rst := 0x64, acc := .rw, cls := [.c], own := true, rmin := 10, rmax := 1000 }

/-- BRKW.LOG_CNT.COUNT at 0x1F0, R608. -/
def BRKW_LOG_CNT : Fld := { page := 15, off := 0x1F0, lo := 0, w := 4, rst := 0x0, acc := .ro, cls := [] }

/-- BRKW.LOG_A.CAUSE at 0x200 + 0x8k, R608. -/
def BRKW_LOG_A_CAUSE : Fld := { page := 15, off := 0x200, lo := 0, w := 3, rst := 0x0, stride := 8, cnt := 8, acc := .ro, cls := [] }

/-- BRKW.LOG_A.SOURCE at 0x200 + 0x8k, R608. -/
def BRKW_LOG_A_SOURCE : Fld := { page := 15, off := 0x200, lo := 4, w := 12, rst := 0x0, stride := 8, cnt := 8, acc := .ro, cls := [] }

/-- BRKW.LOG_A.VALUE at 0x200 + 0x8k, R608. -/
def BRKW_LOG_A_VALUE : Fld := { page := 15, off := 0x200, lo := 16, w := 16, rst := 0x0, stride := 8, cnt := 8, acc := .ro, cls := [] }

/-- BRKW.LOG_B.STEP at 0x204 + 0x8k, R608. -/
def BRKW_LOG_B : Fld := { page := 15, off := 0x204, lo := 0, w := 32, rst := 0x0, stride := 8, cnt := 8, acc := .ro, cls := [] }

/-- DEBUG.CTRL.CHALLENGE at 0x010, R643. -/
def DEBUG_CTRL_CHALLENGE : Fld := { page := 19, off := 0x10, lo := 0, w := 1, rst := 0x0, acc := .wo, cls := [.c, .p] }

/-- DEBUG.CTRL.UNLOCK_GO at 0x010, R643. -/
def DEBUG_CTRL_UNLOCK_GO : Fld := { page := 19, off := 0x10, lo := 1, w := 1, rst := 0x0, acc := .wo, cls := [.c, .p] }

/-- DEBUG.CTRL.RELOCK at 0x010, R643. -/
def DEBUG_CTRL_RELOCK : Fld := { page := 19, off := 0x10, lo := 2, w := 1, rst := 0x0, acc := .wo, cls := [.c, .p] }

/-- DEBUG.STAT.UNLOCKED at 0x014, R643. -/
def DEBUG_STAT_UNLOCKED : Fld := { page := 19, off := 0x14, lo := 0, w := 1, rst := 0x0, acc := .ro, cls := [.c, .p] }

/-- DEBUG.STAT.EVER at 0x014, R643. -/
def DEBUG_STAT_EVER : Fld := { page := 19, off := 0x14, lo := 1, w := 1, rst := 0x0, acc := .ro, cls := [.c] }

/-- DEBUG.STAT.BUSY at 0x014, R643. -/
def DEBUG_STAT_BUSY : Fld := { page := 19, off := 0x14, lo := 2, w := 1, rst := 0x0, acc := .ro, cls := [.c, .p] }

/-- DEBUG.STAT.RESULT at 0x014, R643. -/
def DEBUG_STAT_RESULT : Fld := { page := 19, off := 0x14, lo := 3, w := 4, rst := 0x0, acc := .ro, cls := [.c, .p] }

/-- DEBUG.UNLOCK_CNT.COUNT at 0x040, R643. -/
def DEBUG_UNLOCK_CNT : Fld := { page := 19, off := 0x40, lo := 0, w := 32, rst := 0x0, acc := .ro, cls := [.c] }

/-- DEBUG.FAIL_CNT.COUNT at 0x044, R643. -/
def DEBUG_FAIL_CNT : Fld := { page := 19, off := 0x44, lo := 0, w := 32, rst := 0x0, acc := .ro, cls := [.c] }

/-- DEBUG.CHAL.DATA at 0x100 + 0x4k, R643. -/
def DEBUG_CHAL : Fld := { page := 19, off := 0x100, lo := 0, w := 32, rst := 0x0, stride := 4, cnt := 8, acc := .ro, cls := [.c, .p] }

/-- DEBUG.TOKEN.ADDR at 0x120, R643. -/
def DEBUG_TOKEN : Fld := { page := 19, off := 0x120, lo := 0, w := 32, rst := 0x0, acc := .rw, cls := [.c, .p] }

/-- LINK.ERR_INFO.REASON at 0x024, R401. -/
def LINK_ERR_INFO_REASON : Fld := { page := 7, off := 0x24, lo := 0, w := 4, rst := 0x0, acc := .ro, cls := [.c, .p] }

/-- LINK.ERR_INFO.LSEQ at 0x024, R401. -/
def LINK_ERR_INFO_LSEQ : Fld := { page := 7, off := 0x24, lo := 4, w := 16, rst := 0x0, acc := .ro, cls := [.c, .p] }

/-- LINK.ERR_INFO.CONFIRM at 0x024, R401. -/
def LINK_ERR_INFO_CONFIRM : Fld := { page := 7, off := 0x24, lo := 20, w := 4, rst := 0x0, acc := .ro, cls := [.c, .p] }

/-- CULVERT.ERR_INFO.CODE at 0x024, R458. -/
def CULVERT_ERR_INFO_CODE : Fld := { page := 9, off := 0x24, lo := 0, w := 4, rst := 0x0, acc := .ro, cls := [.c, .p] }

/-- CULVERT.ERR_INFO.RECORD at 0x024, R458. -/
def CULVERT_ERR_INFO_RECORD : Fld := { page := 9, off := 0x24, lo := 4, w := 20, rst := 0x0, acc := .ro, cls := [.c, .p] }

/-- CQ.ERR_INFO.QUEUE at 0x024, R533. -/
def CQ_ERR_INFO_QUEUE : Fld := { page := 12, off := 0x24, lo := 0, w := 2, rst := 0x0, acc := .ro, cls := [.c, .p] }

/-- CQ.ERR_INFO.INDEX at 0x024, R533. -/
def CQ_ERR_INFO_INDEX : Fld := { page := 12, off := 0x24, lo := 2, w := 16, rst := 0x0, acc := .ro, cls := [.c, .p] }

/-- HOSTIF.ERR_INFO.FUNCTION at 0x024, R535. -/
def HOSTIF_ERR_INFO_FUNCTION : Fld := { page := 11, off := 0x24, lo := 0, w := 4, rst := 0x0, acc := .ro, cls := [.c, .p] }

/-- HOSTIF.ERR_INFO.EVENT at 0x024, R535. -/
def HOSTIF_ERR_INFO_EVENT : Fld := { page := 11, off := 0x24, lo := 4, w := 4, rst := 0x0, acc := .ro, cls := [.c, .p] }

/-- PWR.ERR_INFO.DOMAIN at 0x024, R594. -/
def PWR_ERR_INFO_DOMAIN : Fld := { page := 13, off := 0x24, lo := 0, w := 7, rst := 0x0, acc := .ro, cls := [.c, .p] }

/-- HOSTIF.CTX_EVT.EVT at 0xC00 + 0x4k, R506. -/
def HOSTIF_CTX_EVT_EVT : Fld := { page := 11, off := 0xC00, lo := 0, w := 4, rst := 0x0, stride := 4, cnt := 16, acc := .w1c, cls := [.c, .p, .f] }

/-- TUNIT.EVT_PEND.CHK_MISS, bit [0], R113. -/
def TUNIT_EV_CHK_MISS : Evt := { page := 0, bit := 0 }

/-- TUNIT.EVT_PEND.FENCE, bit [1], R113. -/
def TUNIT_EV_FENCE : Evt := { page := 0, bit := 1 }

/-- TUNIT.EVT_PEND.DESC_INVALID, bit [2], R113. -/
def TUNIT_EV_DESC_INVALID : Evt := { page := 0, bit := 2 }

/-- TUNIT.EVT_PEND.OUT_OVF, bit [3], R113. -/
def TUNIT_EV_OUT_OVF : Evt := { page := 0, bit := 3 }

/-- TUNIT.EVT_PEND.BX_SAT, bit [4], R113. -/
def TUNIT_EV_BX_SAT : Evt := { page := 0, bit := 4 }

/-- TUNIT.EVT_PEND.ADOPT_FAIL, bit [5], R113. -/
def TUNIT_EV_ADOPT_FAIL : Evt := { page := 0, bit := 5 }

/-- TUNIT.EVT_PEND.ECC_CORR, bit [6], R113. -/
def TUNIT_EV_ECC_CORR : Evt := { page := 0, bit := 6 }

/-- TUNIT.EVT_PEND.ECC_UNCORR, bit [7], R113. -/
def TUNIT_EV_ECC_UNCORR : Evt := { page := 0, bit := 7 }

/-- CLUSTER.EVT_PEND.SCALE_RECOMP, bit [8], R184. -/
def CLUSTER_EV_SCALE_RECOMP : Evt := { page := 1, bit := 8 }

/-- CLUSTER.EVT_PEND.SPILL, bit [9], R184. -/
def CLUSTER_EV_SPILL : Evt := { page := 1, bit := 9 }

/-- CLUSTER.EVT_PEND.SPILL_EXH, bit [10], R184. -/
def CLUSTER_EV_SPILL_EXH : Evt := { page := 1, bit := 10 }

/-- CLUSTER.EVT_PEND.NONFINITE, bit [11], R184. -/
def CLUSTER_EV_NONFINITE : Evt := { page := 1, bit := 11 }

/-- CLUSTER.EVT_PEND.DROUGHT, bit [12], R184. -/
def CLUSTER_EV_DROUGHT : Evt := { page := 1, bit := 12 }

/-- CLUSTER.EVT_PEND.W24_SAT, bit [13], R184. -/
def CLUSTER_EV_W24_SAT : Evt := { page := 1, bit := 13 }

/-- CLUSTER.EVT_PEND.CVT_INVALID, bit [14], R184. -/
def CLUSTER_EV_CVT_INVALID : Evt := { page := 1, bit := 14 }

/-- CLUSTER.EVT_PEND.REPLAY_DIV, bit [0], R185. -/
def CLUSTER_EV_REPLAY_DIV : Evt := { page := 1, bit := 0 }

/-- CLUSTER.EVT_PEND.ADOPT_FAIL, bit [1], R185. -/
def CLUSTER_EV_ADOPT_FAIL : Evt := { page := 1, bit := 1 }

/-- CLUSTER.EVT_PEND.GATHER_REJ, bit [2], R185. -/
def CLUSTER_EV_GATHER_REJ : Evt := { page := 1, bit := 2 }

/-- CLUSTER.EVT_PEND.LIST_INVALID, bit [3], R185. -/
def CLUSTER_EV_LIST_INVALID : Evt := { page := 1, bit := 3 }

/-- CLUSTER.EVT_PEND.STASH_RAW, bit [16], R292. -/
def CLUSTER_EV_STASH_RAW : Evt := { page := 1, bit := 16 }

/-- CLUSTER.EVT_PEND.STASH_LOST, bit [17], R292. -/
def CLUSTER_EV_STASH_LOST : Evt := { page := 1, bit := 17 }

/-- CLUSTER.EVT_PEND.STASH_CORRUPT, bit [18], R292. -/
def CLUSTER_EV_STASH_CORRUPT : Evt := { page := 1, bit := 18 }

/-- CLUSTER.EVT_PEND.STASH_INVALID, bit [19], R292. -/
def CLUSTER_EV_STASH_INVALID : Evt := { page := 1, bit := 19 }

/-- CLUSTER.EVT_PEND.BT_INVALID, bit [15], R217. -/
def CLUSTER_EV_BT_INVALID : Evt := { page := 1, bit := 15 }

/-- ROOTSEQ.EVT_PEND.ROOT_REJECT, bit [0], R258. -/
def ROOTSEQ_EV_ROOT_REJECT : Evt := { page := 2, bit := 0 }

/-- ROOTSEQ.EVT_PEND.ROOT_LATE, bit [1], R258. -/
def ROOTSEQ_EV_ROOT_LATE : Evt := { page := 2, bit := 1 }

/-- ROOTSEQ.EVT_PEND.DAMPED, bit [2], R258. -/
def ROOTSEQ_EV_DAMPED : Evt := { page := 2, bit := 2 }

/-- ROOTSEQ.EVT_PEND.LOCKSTEP, bit [3], R258. -/
def ROOTSEQ_EV_LOCKSTEP : Evt := { page := 2, bit := 3 }

/-- ROOTSEQ.EVT_PEND.REPLAY_DIV, bit [4], R258. -/
def ROOTSEQ_EV_REPLAY_DIV : Evt := { page := 2, bit := 4 }

/-- MEMCTL.EVT_PEND.CE, bit [0], R337. -/
def MEMCTL_EV_CE : Evt := { page := 3, bit := 0 }

/-- MEMCTL.EVT_PEND.UE, bit [1], R337. -/
def MEMCTL_EV_UE : Evt := { page := 3, bit := 1 }

/-- MEMCTL.EVT_PEND.ROW_FAIL, bit [2], R337. -/
def MEMCTL_EV_ROW_FAIL : Evt := { page := 3, bit := 2 }

/-- MEMCTL.EVT_PEND.REMAP, bit [3], R337. -/
def MEMCTL_EV_REMAP : Evt := { page := 3, bit := 3 }

/-- MEMCTL.EVT_PEND.RETIRE, bit [4], R337. -/
def MEMCTL_EV_RETIRE : Evt := { page := 3, bit := 4 }

/-- MEMCTL.EVT_PEND.PAGE_LOST, bit [5], R337. -/
def MEMCTL_EV_PAGE_LOST : Evt := { page := 3, bit := 5 }

/-- MEMCTL.EVT_PEND.PARK_STALL, bit [6], R337. -/
def MEMCTL_EV_PARK_STALL : Evt := { page := 3, bit := 6 }

/-- MEMCTL.EVT_PEND.ADDR_FAULT, bit [7], R337. -/
def MEMCTL_EV_ADDR_FAULT : Evt := { page := 3, bit := 7 }

/-- MEMCTL.EVT_PEND.THROTTLE, bit [8], R337. -/
def MEMCTL_EV_THROTTLE : Evt := { page := 3, bit := 8 }

/-- MEMCTL.EVT_PEND.TRAIN_FAIL, bit [9], R337. -/
def MEMCTL_EV_TRAIN_FAIL : Evt := { page := 3, bit := 9 }

/-- SLUICE.EVT_PEND.MISS, bit [0], R368. -/
def SLUICE_EV_MISS : Evt := { page := 5, bit := 0 }

/-- SLUICE.EVT_PEND.PIN, bit [1], R368. -/
def SLUICE_EV_PIN : Evt := { page := 5, bit := 1 }

/-- SYNC.EVT_PEND.SAT, bit [0], R370. -/
def SYNC_EV_SAT : Evt := { page := 6, bit := 0 }

/-- SYNC.EVT_PEND.ABANDON, bit [1], R370. -/
def SYNC_EV_ABANDON : Evt := { page := 6, bit := 1 }

/-- SYNC.EVT_PEND.STALE_SIG, bit [2], R370. -/
def SYNC_EV_STALE_SIG : Evt := { page := 6, bit := 2 }

/-- SYNC.EVT_PEND.DESC_INVALID, bit [3], R370. -/
def SYNC_EV_DESC_INVALID : Evt := { page := 6, bit := 3 }

/-- SYNC.EVT_PEND.DBG_SET, bit [4], R370. -/
def SYNC_EV_DBG_SET : Evt := { page := 6, bit := 4 }

/-- LINK.EVT_PEND.UP, bit [0], R401. -/
def LINK_EV_UP : Evt := { page := 7, bit := 0 }

/-- LINK.EVT_PEND.DOWN, bit [1], R401. -/
def LINK_EV_DOWN : Evt := { page := 7, bit := 1 }

/-- LINK.EVT_PEND.MISPLACED, bit [2], R401. -/
def LINK_EV_MISPLACED : Evt := { page := 7, bit := 2 }

/-- LINK.EVT_PEND.HELD, bit [3], R401. -/
def LINK_EV_HELD : Evt := { page := 7, bit := 3 }

/-- LINK.EVT_PEND.REPLAY, bit [4], R401. -/
def LINK_EV_REPLAY : Evt := { page := 7, bit := 4 }

/-- LINK.EVT_PEND.DETOUR, bit [5], R401. -/
def LINK_EV_DETOUR : Evt := { page := 7, bit := 5 }

/-- LINK.EVT_PEND.FAILBACK, bit [6], R401. -/
def LINK_EV_FAILBACK : Evt := { page := 7, bit := 6 }

/-- LINK.EVT_PEND.HOLD, bit [7], R401. -/
def LINK_EV_HOLD : Evt := { page := 7, bit := 7 }

/-- LINK.EVT_PEND.STREAM_BREAK, bit [8], R401. -/
def LINK_EV_STREAM_BREAK : Evt := { page := 7, bit := 8 }

/-- LINK.EVT_PEND.CTX_DROP, bit [9], R401. -/
def LINK_EV_CTX_DROP : Evt := { page := 7, bit := 9 }

/-- COLL.EVT_PEND.STALE_REJ, bit [0], R435. -/
def COLL_EV_STALE_REJ : Evt := { page := 8, bit := 0 }

/-- COLL.EVT_PEND.ABSENT, bit [1], R435. -/
def COLL_EV_ABSENT : Evt := { page := 8, bit := 1 }

/-- COLL.EVT_PEND.CARRY_DROP, bit [2], R435. -/
def COLL_EV_CARRY_DROP : Evt := { page := 8, bit := 2 }

/-- COLL.EVT_PEND.DESC_INVALID, bit [3], R435. -/
def COLL_EV_DESC_INVALID : Evt := { page := 8, bit := 3 }

/-- COLL.EVT_PEND.RETRY, bit [4], R435. -/
def COLL_EV_RETRY : Evt := { page := 8, bit := 4 }

/-- COLL.EVT_PEND.DEGRADED, bit [5], R435. -/
def COLL_EV_DEGRADED : Evt := { page := 8, bit := 5 }

/-- CULVERT.EVT_PEND.NACK, bit [0], R458. -/
def CULVERT_EV_NACK : Evt := { page := 9, bit := 0 }

/-- CULVERT.EVT_PEND.MIRROR_FAIL, bit [1], R458. -/
def CULVERT_EV_MIRROR_FAIL : Evt := { page := 9, bit := 1 }

/-- CULVERT.EVT_PEND.REPAIR, bit [2], R458. -/
def CULVERT_EV_REPAIR : Evt := { page := 9, bit := 2 }

/-- CULVERT.EVT_PEND.DIVERGED, bit [3], R458. -/
def CULVERT_EV_DIVERGED : Evt := { page := 9, bit := 3 }

/-- CULVERT.EVT_PEND.LOST, bit [4], R458. -/
def CULVERT_EV_LOST : Evt := { page := 9, bit := 4 }

/-- CULVERT.EVT_PEND.TWIN_INVALID, bit [5], R458. -/
def CULVERT_EV_TWIN_INVALID : Evt := { page := 9, bit := 5 }

/-- CHECK.EVT_PEND.MISMATCH, bit [0], R467. -/
def CHECK_EV_MISMATCH : Evt := { page := 10, bit := 0 }

/-- HOSTIF.EVT_PEND.JRN_FULL, bit [16], R506. -/
def HOSTIF_EV_JRN_FULL : Evt := { page := 11, bit := 16 }

/-- HOSTIF.EVT_PEND.RESTORE_BAD, bit [17], R506. -/
def HOSTIF_EV_RESTORE_BAD : Evt := { page := 11, bit := 17 }

/-- HOSTIF.EVT_PEND.REPLAY_WAIT, bit [18], R506. -/
def HOSTIF_EV_REPLAY_WAIT : Evt := { page := 11, bit := 18 }

/-- HOSTIF.EVT_PEND.CKPT_ABORT, bit [19], R506. -/
def HOSTIF_EV_CKPT_ABORT : Evt := { page := 11, bit := 19 }

/-- HOSTIF.EVT_PEND.BAR2_FAULT, bit [0], R535. -/
def HOSTIF_EV_BAR2_FAULT : Evt := { page := 11, bit := 0 }

/-- HOSTIF.EVT_PEND.FLR, bit [1], R535. -/
def HOSTIF_EV_FLR : Evt := { page := 11, bit := 1 }

/-- HOSTIF.EVT_PEND.AER, bit [2], R535. -/
def HOSTIF_EV_AER : Evt := { page := 11, bit := 2 }

/-- HOSTIF.EVT_PEND.DENIED, bit [3], R535. -/
def HOSTIF_EV_DENIED : Evt := { page := 11, bit := 3 }

/-- CQ.EVT_PEND.SQ_FAULT, bit [0], R533. -/
def CQ_EV_SQ_FAULT : Evt := { page := 12, bit := 0 }

/-- CQ.EVT_PEND.CQ_FULL, bit [1], R533. -/
def CQ_EV_CQ_FULL : Evt := { page := 12, bit := 1 }

/-- CQ.EVT_PEND.STALE, bit [2], R533. -/
def CQ_EV_STALE : Evt := { page := 12, bit := 2 }

/-- CQ.EVT_PEND.HANDLES_OUT, bit [3], R533. -/
def CQ_EV_HANDLES_OUT : Evt := { page := 12, bit := 3 }

/-- PWR.EVT_PEND.DIP, bit [0], R594. -/
def PWR_EV_DIP : Evt := { page := 13, bit := 0 }

/-- PWR.EVT_PEND.REVERIFY_FAIL, bit [1], R594. -/
def PWR_EV_REVERIFY_FAIL : Evt := { page := 13, bit := 1 }

/-- PWR.EVT_PEND.DOM_REFUSED, bit [2], R594. -/
def PWR_EV_DOM_REFUSED : Evt := { page := 13, bit := 2 }

/-- PWR.EVT_PEND.STATE_DONE, bit [3], R594. -/
def PWR_EV_STATE_DONE : Evt := { page := 13, bit := 3 }

/-- PWR.EVT_PEND.STATE_REFUSED, bit [4], R594. -/
def PWR_EV_STATE_REFUSED : Evt := { page := 13, bit := 4 }

/-- THERM.EVT_PEND.THROTTLE, bit [0], R595. -/
def THERM_EV_THROTTLE : Evt := { page := 14, bit := 0 }

/-- THERM.EVT_PEND.LOWEST, bit [1], R595. -/
def THERM_EV_LOWEST : Evt := { page := 14, bit := 1 }

/-- BRKW.EVT_PEND.FAULT, bit [0], R608. -/
def BRKW_EV_FAULT : Evt := { page := 15, bit := 0 }

/-- BRKW.EVT_PEND.SEQ_LOCKSTEP, bit [1], R608. -/
def BRKW_EV_SEQ_LOCKSTEP : Evt := { page := 15, bit := 1 }

/-- BRKW.EVT_PEND.SELFTEST_FAIL, bit [2], R608. -/
def BRKW_EV_SELFTEST_FAIL : Evt := { page := 15, bit := 2 }

/-- BRKW.EVT_PEND.KICK_BAD, bit [3], R608. -/
def BRKW_EV_KICK_BAD : Evt := { page := 15, bit := 3 }

/-- OTP.EVT_PEND.PROG_DONE, bit [0], R563. -/
def OTP_EV_PROG_DONE : Evt := { page := 17, bit := 0 }

/-- OTP.EVT_PEND.PROG_FAIL, bit [1], R563. -/
def OTP_EV_PROG_FAIL : Evt := { page := 17, bit := 1 }

/-- OTP.EVT_PEND.FROZEN, bit [2], R563. -/
def OTP_EV_FROZEN : Evt := { page := 17, bit := 2 }

/-- OTP.EVT_PEND.DENIED, bit [3], R563. -/
def OTP_EV_DENIED : Evt := { page := 17, bit := 3 }

/-- BOOT.EVT_PEND.REJECTED, bit [0], R562. -/
def BOOT_EV_REJECTED : Evt := { page := 18, bit := 0 }

/-- BOOT.EVT_PEND.RUNNING, bit [1], R562. -/
def BOOT_EV_RUNNING : Evt := { page := 18, bit := 1 }

/-- BOOT.EVT_PEND.OTP_FROZEN, bit [2], R562. -/
def BOOT_EV_OTP_FROZEN : Evt := { page := 18, bit := 2 }

/-- DEBUG.EVT_PEND.UNLOCK, bit [0], R643. -/
def DEBUG_EV_UNLOCK : Evt := { page := 19, bit := 0 }

/-- DEBUG.EVT_PEND.UNLOCK_FAIL, bit [1], R643. -/
def DEBUG_EV_UNLOCK_FAIL : Evt := { page := 19, bit := 1 }

/-- The fields of a TUNIT page that this model stores as cells. -/
def fldsTUNIT : List Fld := [TUNIT_CTRL_Q_EN, TUNIT_CTRL_WIDE_ALLOW, TUNIT_CTRL_FORCE_FENCE, TUNIT_CTRL_RESUME, TUNIT_STAT_BUSY, TUNIT_STAT_MODE, TUNIT_STAT_FENCED, TUNIT_STAT_HALTED, TUNIT_STAT_LEND, TUNIT_STAT_ADOPTING, TUNIT_STAT_ADOPTED_FROM, TUNIT_STAT_CQ_LEVEL, TUNIT_STAT_WQ_LEVEL, TUNIT_ERR_INFO_CODE, TUNIT_ERR_INFO_TILE, TUNIT_ERR_INFO_DESC_SEQ, TUNIT_DESC_DONE, TUNIT_CHK_MISS, TUNIT_CHK_REPEAT_OK, TUNIT_BX_SAT_CNT, TUNIT_WIDE_DESC, TUNIT_FEED_STALL, TUNIT_ECC_CORR_CNT, TUNIT_ADOPT_CNT, TUNIT_CHK_CFG_CHK_TOL, TUNIT_LAST_STAT, TUNIT_MISS_INFO_ROW, TUNIT_MISS_INFO_TILE, TUNIT_MISS_INFO_REPEAT, TUNIT_A20_OVF, TUNIT_ACC_REPEAT, TUNIT_CHUNK4_TILES, TUNIT_ACC_DIVERGE]

/-- The fields of a CLUSTER page that this model stores as cells. -/
def fldsCLUSTER : List Fld := [CLUSTER_CVT_TILES, CLUSTER_SCALE_RECOMP, CLUSTER_SPILL_GROUPS, CLUSTER_SPILL_EXH, CLUSTER_NONFINITE_BLK, CLUSTER_W24_SAT, CLUSTER_DROUGHT_EVT, CLUSTER_UE_MOVES, CLUSTER_SCALE_DIVERGE, CLUSTER_GATHER_REJ, CLUSTER_ADOPT_FAIL_CNT, CLUSTER_REPLAY_DIV_CNT, CLUSTER_NUM_CFG_DROUGHT_LIMIT, CLUSTER_NUM_CFG_UE_HLO, CLUSTER_NUM_CFG_UE_HHI, CLUSTER_DROUGHT_LAST, CLUSTER_SPILL_LAST_GROUP, CLUSTER_SPILL_LAST_RUNG, CLUSTER_SPILL_LAST_EXH, CLUSTER_CVT_ERR_CODE, CLUSTER_FACTOR_UPD, CLUSTER_SNAP_TAKEN, CLUSTER_SNAP_SKIP, CLUSTER_FROZEN_DISC, CLUSTER_BT_ERR_CODE, CLUSTER_BT_ERR_RECORD, CLUSTER_STASH_CHAN, CLUSTER_STASH_CONST, CLUSTER_STASH_RAW, CLUSTER_STASH_ESC, CLUSTER_STASH_LOST, CLUSTER_STASH_CORRUPT, CLUSTER_STASH_ERR_CODE, CLUSTER_STASH_ERR_CHT, CLUSTER_LIST_ERR_CODE, CLUSTER_LIST_ERR_ADDR]

/-- The fields of a ROOTSEQ page that this model stores as cells. -/
def fldsROOTSEQ : List Fld := [ROOTSEQ_CTRL_EN, ROOTSEQ_STAT_BUSY, ROOTSEQ_STAT_LENDING, ROOTSEQ_STAT_URGENT, ROOTSEQ_STAT_PHASE, ROOTSEQ_STAT_SIDE, ROOTSEQ_ERR_INFO_REASON, ROOTSEQ_ERR_INFO_SIDE, ROOTSEQ_ERR_INFO_RES_LOG, ROOTSEQ_JOB_START, ROOTSEQ_ROOT_PUB, ROOTSEQ_ROOT_REJ, ROOTSEQ_ROOT_LATE, ROOTSEQ_ROOT_RESTART, ROOTSEQ_PIV_FLOORED, ROOTSEQ_DAMPED_PUB, ROOTSEQ_ITER_DONE, ROOTSEQ_WIDE_ISSUED, ROOTSEQ_REPLAY_DIV, ROOTSEQ_CFG_ITER_P2, ROOTSEQ_CFG_ITER_P4, ROOTSEQ_CFG_ITER_P8, ROOTSEQ_CFG_RES_EXP, ROOTSEQ_DAMP, ROOTSEQ_PIV_FLOOR, ROOTSEQ_SCR_BASE, ROOTSEQ_SCR_SIZE, ROOTSEQ_SRAM_WIN_BASE, ROOTSEQ_SRAM_WIN_SIZE, ROOTSEQ_URGENT, ROOTSEQ_CUR_GBI, ROOTSEQ_LAST_REJ, ROOTSEQ_REFRESH_K]

/-- The fields of a MEMCTL page that this model stores as cells. -/
def fldsMEMCTL : List Fld := [MEMCTL_CTRL_EN, MEMCTL_CTRL_MODE, MEMCTL_CTRL_SCRUB_EN, MEMCTL_CTRL_RETRAIN_EN, MEMCTL_STAT_READY, MEMCTL_STAT_RT_CH, MEMCTL_STAT_RETRAINING, MEMCTL_STAT_PK_CH, MEMCTL_STAT_PARKED, MEMCTL_STAT_REF_X2, MEMCTL_STAT_THROTTLE, MEMCTL_STAT_TEMP, MEMCTL_ERR_INFO_CHAN, MEMCTL_ERR_INFO_ROW, MEMCTL_ERR_INFO_CLASS, MEMCTL_CE_CNT, MEMCTL_UE_CNT, MEMCTL_ROW_FAIL_CNT, MEMCTL_FIELD_REP_CNT, MEMCTL_REMAP_CNT, MEMCTL_RETIRE_CNT, MEMCTL_PAGE_LOST_CNT, MEMCTL_RETRAIN_CNT, MEMCTL_PARK_STALL_CNT, MEMCTL_ADDR_FAULT_CNT, MEMCTL_SCRUB_PASS, MEMCTL_MAINT_RETRAIN_MS, MEMCTL_MAINT_SCRUB_H, MEMCTL_THERM_THROTTLE_C, MEMCTL_THERM_HYST_C, MEMCTL_PARK_STALL, MEMCTL_PRIO_MASK_CLASSES, MEMCTL_PENDING_ROWS, MEMCTL_PENDING_REMAP_USED, MEMCTL_SPAN_LO, MEMCTL_SPAN_HI]

/-- The fields of a WEIR page that this model stores as cells. -/
def fldsWEIR : List Fld := [WEIR_CTRL_SPARE, WEIR_WAIT_CYC, WEIR_CFG_RATE, WEIR_CFG_BURST, WEIR_LVL, WEIR_PARTMAP]

/-- The fields of a SLUICE page that this model stores as cells. -/
def fldsSLUICE : List Fld := [SLUICE_DECISIONS, SLUICE_PINNED_CNT, SLUICE_NOW, SLUICE_REQ_CFG_BURST_M1, SLUICE_REQ_CFG_BUDGET, SLUICE_GRANT_CNT, SLUICE_WAIT_CYC, SLUICE_MAX_WAIT, SLUICE_MISS_CNT]

/-- The fields of a SYNC page that this model stores as cells. -/
def fldsSYNC : List Fld := [SYNC_ERR_INFO_CODE, SYNC_ERR_INFO_CLUSTER, SYNC_SIGNALS, SYNC_WAITS_DONE, SYNC_BAR_RELEASE, SYNC_ABANDONED_CNT, SYNC_STALE_SIG_CNT, SYNC_SAT_CNT, SYNC_WAIT_FULL_CYC, SYNC_DBG_SET_CNT, SYNC_FLAG_OWN_OWNER, SYNC_FLAG_OWN_VALID, SYNC_BAR_CFG_N, SYNC_BAR_CFG_OWNER, SYNC_BAR_CFG_VALID, SYNC_EPOCH, SYNC_PEEK_SEL_OBJ, SYNC_PEEK_SEL_KIND, SYNC_PEEK_DATA, SYNC_PEEK_DATA_OVF, SYNC_PEEK_DATA_GEN, SYNC_PEEK_DATA_WAITERS, SYNC_DBG_SET, SYNC_DBG_SET_KIND, SYNC_DBG_SET_OBJ]

/-- The fields of a LINK page that this model stores as cells. -/
def fldsLINK : List Fld := [LINK_CTRL_EN, LINK_CTRL_AUTO_RETRAIN, LINK_CTRL_AUTO_FAILBACK, LINK_CTRL_CONFIRM, LINK_CTRL_RECHECK, LINK_CTRL_RESTORE, LINK_CTRL_FORCE_DOWN, LINK_STAT_STATE, LINK_STAT_REASON, LINK_STAT_DETOUR, LINK_STAT_MIS, LINK_STAT_REV, LINK_TX_FRAMES, LINK_RX_FRAMES, LINK_RX_DISCARD, LINK_REPLAYS, LINK_REPLAY_FRAMES, LINK_FEC_CORR, LINK_FEC_UNCORR, LINK_DEATHS, LINK_DUP_DROP, LINK_HOLD_CNT, LINK_STREAM_BREAK, LINK_TRANSIT, LINK_DETOUR_FRAMES, LINK_CTX_DROP, LINK_TOPO_SER_LO, LINK_TOPO_SER_HI, LINK_TOPO_PEER_BOARD, LINK_TOPO_PEER_POS, LINK_TOPO_PEER_PORT, LINK_TOPO_PEER_ROLE, LINK_RETRY_CFG_ACK_TMO, LINK_RETRY_CFG_RETRY_LIMIT, LINK_HOLD_HOLD_US, LINK_RETRAIN_RETRAIN_MS, LINK_REV_CFG_REV_MIN, LINK_REV_CFG_REV_MAX, LINK_VC_CRED_VC0, LINK_VC_CRED_VC1, LINK_VC_CRED_VC2, LINK_PEER_SER_LO, LINK_PEER_SER_HI, LINK_PEER_ID, LINK_PEER_FW, LINK_PEER_REV_REV_MIN, LINK_PEER_REV_REV_MAX, LINK_SELF_BOARD, LINK_ERR_INFO_REASON, LINK_ERR_INFO_LSEQ, LINK_ERR_INFO_CONFIRM]

/-- The fields of a COLL page that this model stores as cells. -/
def fldsCOLL : List Fld := [COLL_CTRL_EN, COLL_ERR_INFO_CODE, COLL_ERR_INFO_CONTEXT, COLL_XFER_DONE, COLL_STALE_REJ, COLL_ABSENT_SRC, COLL_CARRY_ADD, COLL_CARRY_DROP, COLL_RETRY_XFER, COLL_DUP_TURN, COLL_EARLY_HCLK, COLL_STRAG, COLL_POLICY, COLL_ORIG, COLL_FIN, COLL_CARRY_BASE, COLL_CARRY_SIZE, COLL_CTX_PAUSE, COLL_DEGRADE_ACTIVE, COLL_DEGRADE_LOST_POS, COLL_DEGRADE_PREV_ACTIVE, COLL_DEGRADE_PREV_POS, COLL_DEGRADE_NEXT_ACTIVE, COLL_DEGRADE_NEXT_POS, COLL_DEGRADE_STANDIN, COLL_DEGRADE_SERVING, COLL_LAST_ABSENT_COLL_ID, COLL_LAST_ABSENT_ABSENT, COLL_FRAME_BUDGET_CULVERT, COLL_FRAME_BUDGET_PEER]

/-- The fields of a CULVERT page that this model stores as cells. -/
def fldsCULVERT : List Fld := [CULVERT_ACKS, CULVERT_NACKS, CULVERT_RESENDS, CULVERT_AUDIT_BLK, CULVERT_AUDIT_SKIP, CULVERT_AUDIT_ABORT, CULVERT_REPAIR_OWNER, CULVERT_REPAIR_TWIN, CULVERT_TABLE_FIX, CULVERT_SUSPECT_CNT, CULVERT_CFG_AUDIT_STEPS, CULVERT_CFG_RESEND_LIMIT, CULVERT_CFG_CTX, CULVERT_TWIN_BASE, CULVERT_TWIN_COUNT, CULVERT_TCHK_BASE, CULVERT_AUDIT_GBI, CULVERT_SUSPECT, CULVERT_SUSPECT_INFO_BUF, CULVERT_SUSPECT_INFO_OUTCOME, CULVERT_SUSPECT_INFO_TILE, CULVERT_RESOLVE, CULVERT_RESOLVE_ACT, CULVERT_ERR_INFO_CODE, CULVERT_ERR_INFO_RECORD]

/-- The fields of a CHECK page that this model stores as cells. -/
def fldsCHECK : List Fld := [CHECK_CTRL_ALG, CHECK_CTRL_INIT, CHECK_CTRL_FINAL, CHECK_CTRL_CMP_EN, CHECK_STAT_BUSY, CHECK_STAT_LEVEL, CHECK_STAT_MATCH, CHECK_BYTES, CHECK_FINALS, CHECK_MISMATCH_CNT, CHECK_DATA_B, CHECK_DATA_H, CHECK_DATA_W, CHECK_RUN_LO, CHECK_RUN_HI, CHECK_EXP_LO, CHECK_EXP_HI, CHECK_RES_LO, CHECK_RES_HI]

/-- The fields of a HOSTIF page that this model stores as cells. -/
def fldsHOSTIF : List Fld := [HOSTIF_JRN_BASE, HOSTIF_JRN_CFG_LOG2_SIZE, HOSTIF_JRN_CFG_EN, HOSTIF_JRN_CFG_DRAIN, HOSTIF_JRN_WR, HOSTIF_JRN_DR, HOSTIF_JRN_HOST_LO, HOSTIF_JRN_HOST_HI, HOSTIF_JRN_HOST_CFG_LOG2_SIZE, HOSTIF_JRN_HOST_TAIL, HOSTIF_JRN_SEQ, HOSTIF_RPL_BASE, HOSTIF_RPL_CFG_LOG2_SIZE, HOSTIF_RPL_CFG_EN, HOSTIF_RPL_WR, HOSTIF_RPL_RD, HOSTIF_RPL_STEP, HOSTIF_PEER_WIN_BASE, HOSTIF_PEER_WIN_MIB, HOSTIF_BAR2_FAULT_CNT, HOSTIF_DENIED_CNT, HOSTIF_BAR2_BASE, HOSTIF_BAR2_CTRL_EN, HOSTIF_CTX_PRIO_PRIO, HOSTIF_CTX_PRIO_PREEMPTED, HOSTIF_LINK_STAT_SPEED, HOSTIF_LINK_STAT_WIDTH, HOSTIF_LINK_STAT_FLIT, HOSTIF_ERR_INFO_FUNCTION, HOSTIF_ERR_INFO_EVENT, HOSTIF_CTX_EVT_EVT]

/-- The fields of a CQ page that this model stores as cells. -/
def fldsCQ : List Fld := [CQ_ACCEPTED, CQ_COMPLETED, CQ_STALE_CNT, CQ_CQ_FULL_HCLK, CQ_SLOTS_USED, CQ_SQ_BASE_LO, CQ_SQ_BASE_HI, CQ_SQ_CFG_LOG2_ENTRIES, CQ_SQ_CFG_EN, CQ_SQ_TAIL, CQ_SQ_HEAD, CQ_CQ_BASE_LO, CQ_CQ_BASE_HI, CQ_CQ_CFG_LOG2_ENTRIES, CQ_CQ_CFG_EN, CQ_CQ_CFG_COAL_CNT, CQ_CQ_CFG_COAL_US, CQ_CQ_HEAD, CQ_CQ_TAIL, CQ_ERR_INFO_QUEUE, CQ_ERR_INFO_INDEX]

/-- The fields of a PWR page that this model stores as cells. -/
def fldsPWR : List Fld := [PWR_CTRL_STATE_REQ, PWR_STAT_STATE, PWR_STAT_DIP, PWR_STAT_HOLDOFF, PWR_STAT_RAIL, PWR_DIP_CNT, PWR_REVERIFY_TILES, PWR_REVERIFY_FAIL, PWR_STRETCH_CNT, PWR_DOM_REQ, PWR_DOM_STAT, PWR_ISLAND_RST_KIND, PWR_ISLAND_RST_ISLAND, PWR_PORT_RST, PWR_CAP, PWR_POWER, PWR_RAIL_MIN, PWR_ERR_INFO_DOMAIN]

/-- The fields of a THERM page that this model stores as cells. -/
def fldsTHERM : List Fld := [THERM_STEP_DOWN, THERM_STEP_UP, THERM_REGION_TEMP, THERM_REGION_TSTEP, THERM_REGION_CAUSE, THERM_CFG_THR_C, THERM_CFG_HYST_C]

/-- The fields of a BRKW page that this model stores as cells. -/
def fldsBRKW : List Fld := [BRKW_CTRL_LOG_CLR, BRKW_CTRL_FORCE_FAULT, BRKW_STAT_FAULT, BRKW_STAT_CAUSE, BRKW_STAT_LATENT, BRKW_STAT_ARMED, BRKW_FAULTS, BRKW_SEQ_LOCKSTEP_CNT, BRKW_RESIDUE_REPEAT, BRKW_KICKS_BAD, BRKW_KICK, BRKW_WDOG_CFG_PERIOD_MS, BRKW_LOG_CNT, BRKW_LOG_A_CAUSE, BRKW_LOG_A_SOURCE, BRKW_LOG_A_VALUE, BRKW_LOG_B]

/-- The fields of a GAUGE page that this model stores as cells. -/
def fldsGAUGE : List Fld := []

/-- The fields of a OTP page that this model stores as cells. -/
def fldsOTP : List Fld := [OTP_CTRL_PROG_GO, OTP_STAT_BUSY, OTP_PROG_CNT, OTP_PROG_FAIL_CNT, OTP_PROG_FIELD, OTP_PROG_DATA]

/-- The fields of a BOOT page that this model stores as cells. -/
def fldsBOOT : List Fld := [BOOT_CTRL_GO, BOOT_STAT_STATE, BOOT_STAT_REASON, BOOT_STAT_OTP_FROZEN, BOOT_STAT_ID_READY, BOOT_STAT_ATTEMPTS, BOOT_MBX_IGNORED, BOOT_IMG_LEN, BOOT_FW_VERSION, BOOT_FW_SVN_SVN, BOOT_IMG_DIGEST]

/-- The fields of a DEBUG page that this model stores as cells. -/
def fldsDEBUG : List Fld := [DEBUG_CTRL_CHALLENGE, DEBUG_CTRL_UNLOCK_GO, DEBUG_CTRL_RELOCK, DEBUG_STAT_UNLOCKED, DEBUG_STAT_EVER, DEBUG_STAT_BUSY, DEBUG_STAT_RESULT, DEBUG_UNLOCK_CNT, DEBUG_FAIL_CNT, DEBUG_CHAL, DEBUG_TOKEN]

/-- The bits of EVT_PEND that page type `t` gives a meaning (the layout of EVT_EN and EVT_FORCE too). -/
def evtMask : Nat → Nat
  | 0 => 0xFF
  | 1 => 0xFFF0F
  | 2 => 0x1F
  | 3 => 0x3FF
  | 4 => 0x0
  | 5 => 0x3
  | 6 => 0x1F
  | 7 => 0x3FF
  | 8 => 0x3F
  | 9 => 0x3F
  | 10 => 0x1
  | 11 => 0xF000F
  | 12 => 0xF
  | 13 => 0x1F
  | 14 => 0x3
  | 15 => 0xF
  | 16 => 0x0
  | 17 => 0xF
  | 18 => 0x7
  | 19 => 0x3
  | _ => 0

/-- The stored fields of page type `t`. -/
def fldsOf : Nat → List Fld
  | 0 => fldsTUNIT
  | 1 => fldsCLUSTER
  | 2 => fldsROOTSEQ
  | 3 => fldsMEMCTL
  | 4 => fldsWEIR
  | 5 => fldsSLUICE
  | 6 => fldsSYNC
  | 7 => fldsLINK
  | 8 => fldsCOLL
  | 9 => fldsCULVERT
  | 10 => fldsCHECK
  | 11 => fldsHOSTIF
  | 12 => fldsCQ
  | 13 => fldsPWR
  | 14 => fldsTHERM
  | 15 => fldsBRKW
  | 16 => fldsGAUGE
  | 17 => fldsOTP
  | 18 => fldsBOOT
  | 19 => fldsDEBUG
  | _ => []

end Sys2Proof.Machine
end

