-- ==== Sys2Proof/Machine/State.lean ====
section
/-! DEFINITION. The state of one module as plain data, the reasons a step can stop, and the state after reset. -/

namespace Sys2Proof.Machine

/-- Sparse data: key and value pairs, keys strictly rising, no entry equal to the default of the use. -/
abbrev Store (α : Type) : Type := List (Nat × α)

/-- Why the machine stops. -/
inductive Fault where
  /-- Raised by STEP_OPEN and STEP_OPEN_DEFERRED when the step number would pass 0xFFFF_FFFF: "Behaviour at the wrap is
  not defined" (R9). Safe: the model stops where the hardware would go on in some way. -/
  | stepNumberWrap
deriving DecidableEq, Repr

/-- Why a command has no meaning. -/
inductive Refusal where
  /-- Raised by the dispatch for a command whose meaning this model does not hold. Safe: nothing is claimed of it. -/
  | notModelled (mnemonic : String)
deriving DecidableEq, Repr

/-! ## Memory controllers (R295 to R341) -/

/-- The rung of a DRAM row on the repair ladder (R316, R321). -/
inductive RowState where
  | fresh | pending | repaired
  | remapped (spare : Nat)
  | retired (page : Nat)
deriving DecidableEq, Repr

/-- A channel page: in place, redirected to a retire-reserve page, or lost (R319, R320). -/
inductive PageState where
  | live
  | retired (reserve : Nat)
  | lost
deriving DecidableEq, Repr

/-- A copy that the repair ladder has in progress. -/
structure LadderCopy where
  chan : Nat
  row : Nat
  /-- spare row 0 to 511, or reserve page 0 to 127 -/
  target : Nat
  retire : Bool
  /-- 0 to enter the channel's Sluice, 1 in it, 2 granted -/
  stage : Nat := 0
deriving DecidableEq, Repr

/-- One stack's controller. Rows and pages are keyed by channel within the stack. -/
structure Mc where
  /-- rows that are not FRESH, by chan * 2^21 + row -/
  rows : Store RowState := []
  /-- pages that are not in place, by chan * 2^19 + page -/
  pages : Store PageState := []
  copies : List LadderCopy := []
  /-- the row under field repair and the reserve page that holds its channel page meanwhile (R317) -/
  repair : Option (Nat × Nat × Nat) := none
  /-- the copy of that page: 0 to enter the channel's Sluice, 1 in it, 2 done, and the channel is PARKED -/
  repStage : Nat := 0
  /-- PARK_STALL was raised in this repair (R328) -/
  stalled : Bool := false
  /-- requests looked up and waiting for a Weir or for room in a Sluice (R304, R308) -/
  issued : List MemReq := []
  /-- granted requests that wait for the DRAM, oldest first -/
  serving : List MemReq := []
  /-- temperature at which each channel was last trained, plus 1 (R323) -/
  trained : Store Nat := []
  /-- channels that are due for retraining and wait, oldest first (R323, R328) -/
  due : List Nat := []
  /-- accesses, by DRAM address ÷ 64, that needed correction again on the second read (R312) -/
  weak : List Nat := []
  /-- ERR_INFO has recorded a read since its last clearing (R338) -/
  errUsed : Bool := false
  /-- fractional tokens of each partition in 1/256, by partition (R308) -/
  frac : Store Nat := []
deriving DecidableEq, Repr

/-- The maintenance window of the MAINT command (R327). -/
structure Window where
  handle : Nat
  budgetMs : Nat
  started : Bool := false
  repairs : Nat := 0
  /-- the time budget has run out -/
  expired : Bool := false
deriving DecidableEq, Repr

/-! ## Sluices (R342 to R349) -/

/-- What waits in a Sluice. -/
inductive SlPay where
  | mem (m : MemReq)
  | frame (f : Frame)
  /-- an operation of a hub engine, by its number -/
  | op (n : Nat)
  /-- the copy of a row or its page: 0 remap, 1 retire, 2 field repair (R305) -/
  | copy (kind row : Nat)
deriving DecidableEq, Repr

/-- One queued request. -/
structure SlReq where
  /-- requester number of R342 -/
  r : Nat
  /-- the latest-service time D of R343 -/
  d : Nat
  /-- the Sluice's clock at entry, wraps of NOW included (R348) -/
  entered : Nat
  /-- entered in priority mode as a read of an urgent class, or overdue when that mode ended (R306, R307) -/
  urgent : Bool := false
  missed : Bool := false
  pinned : Bool := false
  beats : Nat := 1
  pay : SlPay
deriving DecidableEq, Repr

/-- A Sluice; its NOW is the page's register. -/
structure Sluice where
  queue : List SlReq := []
  /-- the owner of the grant and the beats it has issued (R347) -/
  owner : Option (Nat × Nat) := none
  /-- requester granted most recently (R346) -/
  last : Nat := 31
  /-- wraps of NOW; of the 32 Sluices of a stack, only the first keeps them (R343) -/
  laps : Nat := 0
  /-- operations of a hub engine that have been granted and not yet started: requester and operation (R366) -/
  granted : List (Nat × Nat) := []
deriving DecidableEq, Repr

/-! ## Synchronisation objects (R350 to R367) -/

/-- Who waits or arrives: a list of a cluster, or a hub engine's operation. -/
structure Party where
  /-- die × 64 + region × 8 + cluster, or 256 for the hub -/
  cluster : Nat
  /-- the list's number, or the operation's number in the hub -/
  lst : Nat
deriving DecidableEq, Repr

/-- A WAIT registered at a flag's home (R355). -/
structure Waiter where
  party : Party
  ctx : Nat
  need : Nat
  consume : Bool
deriving DecidableEq, Repr

/-- Arrivals that a barrier's home has counted and not consumed, in counting order (R357). -/
structure Arrival where
  party : Party
  ctx : Nat
  left : Nat
  mark : Bool
  /-- the arriver waits for the release (NOWAIT = 0) -/
  waits : Bool
deriving DecidableEq, Repr

/-- A flag or barrier. -/
structure SyncObj where
  count : Nat := 0
  ovf : Bool := false
  gen : Nat := 0
  waiters : List Waiter := []
  arrivals : List Arrival := []
deriving DecidableEq, Repr

/-- How a waiting list is released. -/
inductive RelStatus where
  | ok | marked | stale | abandoned
deriving DecidableEq, Repr

/-- A release on its way to a sync node or hub engine (R358). -/
structure Release where
  party : Party
  status : RelStatus
deriving DecidableEq, Repr

/-- A sync operation that has left its node and waits in a crossing (R44, R366). -/
structure SyncOp where
  /-- 0x51 SIGNAL, 0x52 WAIT, 0x53 ARRIVE -/
  op : Nat
  /-- home: die 0 to 3, or 4 for the hub -/
  home : Nat
  obj : Nat
  count : Nat
  flags : Nat
  party : Party
  ctx : Nat
  epoch : Nat
deriving DecidableEq, Repr

/-! ## The journal (R493 to R503) -/

/-- A journal record that its writer holds (R498). -/
structure JrnRec where
  type : Nat
  /-- bytes 8 and 9 of the frame header -/
  src : Nat
  payload : List Byte
deriving DecidableEq, Repr

/-! ## Tensor units (R79 to R116) -/

/-- A descriptor that a unit holds. -/
structure QDesc where
  desc : List Byte
  ctx : Nat
  /-- the list of the unit's cluster that passed it on, or the number of the job of a wide descriptor -/
  lid : Nat := 0
  /-- STEP of that list's header (R128) -/
  step : Nat := 0
  wide : Bool := false
  /-- moved from a fenced sibling (R101) -/
  adopted : Bool := false
  /-- belongs to the current rung of its list's Spillway group (R163) -/
  part : Bool := false
  /-- first tile not yet entered into a slot -/
  tile : Nat := 0
  /-- status bits of R93 so far -/
  status : Nat := 0
  /-- accepted tiles that entered chunk-4 mode, with the chunk (R128) -/
  c4 : List (Nat × Nat) := []
  /-- the fenced unit that formed the first tiles, and the first tile left to the sibling (R101, R128) -/
  moved : Option (Nat × Nat) := none
deriving DecidableEq, Repr

/-- The tile that a unit is forming (R117 to R125). -/
structure TileRun where
  /-- first k not yet promoted -/
  k : Nat := 0
  /-- pass of the present chunk, 1 to 3 -/
  pass : Nat := 1
  /-- shifts of the columns in this chunk (R124) -/
  shifts : List Nat := []
  /-- prediction registers P_n (R120) -/
  pred : List Int := []
  /-- chunk that reached chunk-4 mode -/
  four : Option Nat := none
  /-- FP32 working tile, 64 rows of 64; empty when all +0 -/
  work : List Nat := []
  /-- the tile is formed again after a mismatch (R98) -/
  again : Bool := false
  /-- passes with an overflow, and passes 2 and 3, of this pass over the tile (R100) -/
  ovf : Nat := 0
  reps : Nat := 0
deriving DecidableEq, Repr

/-- An accumulator slot: the context whose work it holds and its 64 × 64 FP32 words; empty when all +0. -/
structure AccSlot where
  ctx : Nat := 0
  vals : List Nat := []
  /-- the 65th column: a word for each row; empty when all +0 -/
  chk : List Nat := []
deriving DecidableEq, Repr

/-- One tensor unit. -/
structure TUnit where
  /-- cluster queue and wide queue, oldest first (R86) -/
  cq : List QDesc := []
  wq : List QDesc := []
  run : Option QDesc := none
  tile : TileRun := {}
  /-- the invalid descriptor that halts the cluster queue, and the wide queue (R89) -/
  bad : Option QDesc := none
  badWide : Option QDesc := none
  /-- float slots by bank × 8 + slot; bank 0 own, 1 adopted (R81) -/
  acc : Store AccSlot := []
  /-- wide slots of 64 accumulators (R81) -/
  wide : Store (List Int) := []
deriving DecidableEq, Repr

/-! ## Descriptor lists of a cluster (R161 to R170, R524, R667, R668) -/

/-- What a list is doing. -/
inductive ListSt where
  | run
  /-- stopped at a WAIT or an ARRIVE until its release (R358) -/
  | waiting
  /-- halted until a context reset X or pre-emption -/
  | halted
deriving DecidableEq, Repr

/-- Where a list stands: header address, whether the header is still to be read, its fields and the next descriptor. -/
structure ListPos where
  addr : Nat
  hdr : Bool := true
  step : Nat := 0
  count : Nat := 0
  idx : Nat := 0
  next : Nat := 0
deriving DecidableEq, Repr

/-- The chunk-4 outcome of a completed descriptor: the unit that formed its tiles, DESC_SEQ, and the tiles that entered chunk-4 mode
with their chunks (R128, R129). -/
structure ChunkOut where
  unit : Nat
  seq : Nat
  step : Nat
  /-- the tiles from `lo` on and below `hi` are this unit's (R128) -/
  lo : Nat := 0
  hi : Nat := 8
  c4 : List (Nat × Nat)
deriving DecidableEq, Repr

/-- A Spillway group that a list has open (R161 to R170). -/
structure Grp where
  group : Nat
  step : Nat
  scope : Bool
  barrier : Nat
  rung1 : Nat
  rung2 : Nat
  rung : Nat := 0
  /-- descriptors of the present rung's part that have not completed -/
  out : Nat := 0
  /-- a descriptor of the part completed with SPILL -/
  spilled : Bool := false
  /-- the marked ARRIVE has been made -/
  arrived : Bool := false
  /-- chunk-4 outcomes of the present rung's descriptors, held until the group completes (R169) -/
  outs : List ChunkOut := []
  /-- where the list goes on after the group -/
  back : Option ListPos := none
deriving DecidableEq, Repr

/-- A list that a cluster's DMA engine runs. -/
structure ListRun where
  id : Nat
  ctx : Nat
  /-- the command that waits on the list -/
  handle : Nat
  pos : ListPos
  st : ListSt := .run
  /-- descriptor read and not yet taken by its datapath -/
  desc : Option (List Byte) := none
  /-- descriptors passed on to units and not completed -/
  out : Nat := 0
  /-- units of UNIT_MASK while the list waits; those whose cluster queue is empty are gated (R358) -/
  gated : List Nat := []
  grp : Option Grp := none
deriving DecidableEq, Repr

/-- What a cluster keeps beyond its page and SRAM. -/
structure Cluster where
  lists : List ListRun := []
  nextId : Nat := 0
  /-- context served last, for round robin (R529) -/
  lastCtx : Nat := 15
  /-- fenced units whose work is still to be placed, in order (R101) -/
  fences : List Nat := []
  /-- the bank copy under way: fenced unit and sibling, 0 to 3 (R101) -/
  copying : Option (Nat × Nat) := none
  /-- completion status of the stash descriptor that completed last: bit 0 LOST, bit 1 CORRUPT (R278, R280) -/
  stash : Nat := 0
  /-- the adoption buffer and the sibling that it feeds (R101) -/
  buf : List QDesc := []
  bufTo : Nat := 0
  /-- GROUP descriptors whose groups are not complete in every cluster: context, step, group, and complete in this
  cluster (R168) -/
  grps : List (Nat × Nat × Nat × Bool) := []
  /-- parts already added of each reduction in progress, by the address of its sum (R130, R131) -/
  folds : Store Nat := []
  /-- pending tallies in units of 64 multiply–accumulates, by context × 4 + class (R612) -/
  tally : Store Nat := []
deriving DecidableEq, Repr

/-! ## Owner work and collectives (R48 to R78, R404 to R437) -/

/-- What a step keeps of one block of its block tables. -/
structure Blk where
  gbi : Nat
  /-- the cluster that does the owner work -/
  cl : Nat
  /-- address of the block record -/
  addr : Nat
  /-- bytes 0 to 23 of the record, latched as the step opened (R197) -/
  lat : List Byte
  /-- the accumulator is set for this step (R61) -/
  armed : Bool := false
  /-- the next partial of R61's order -/
  mb : Nat := 0
  pos : Nat := 0
  /-- carried transfers already added: COLL_ID and source (R418) -/
  carr : List (Nat × Nat) := []
  /-- 0 summing; 1 sum closed; 2 operation 5 done; 3 committed; 4 weights sent to the twin; 5 factors updated; 6 discarded -/
  ph : Nat := 0
  /-- operation 5 has been reached: 1 the due notice is out, 2 it is answered or not due (R227) -/
  notice : Nat := 0
  /-- the owner waits for a publication that the replayed journal calls for (R253) -/
  wantsRoot : Bool := false
  /-- the accumulator held a non-finite element (R178) -/
  nfAcc : Bool := false
  /-- the block was counted in NONFINITE_BLK for the step (R179) -/
  nfSeen : Bool := false
  /-- operations 5 and 6 were skipped or stopped (R178) -/
  stopped : Bool := false
  /-- P in FP32 words, row by row, between operation 5 and operation 6 -/
  p : List Nat := []
  /-- operation 9 wrote factor tiles, and half 1 -/
  wrote : Bool := false
  half1 : Bool := false
  /-- the twin has acknowledged CLOSE_F of the step (R51) -/
  acked : Bool := false
deriving DecidableEq, Repr

/-- A step that is open in a context (R48, R50). -/
structure Step where
  step : Nat
  /-- handle of its STEP_OPEN command -/
  handle : Nat
  /-- the 16 bytes of the step record -/
  raw : List Byte := []
  /-- REFRESH_K of the context in each region, latched as the step opened (R225) -/
  ks : List Nat := []
  /-- the position declared lost on the own board as the step opened (R428) -/
  lost : Option Nat := none
  /-- the positions declared lost on the boards of the previous and the next stage as the step opened -/
  lostPrev : Option Nat := none
  lostNext : Option Nat := none
  blks : List Blk := []
deriving DecidableEq, Repr

/-- One source of a RECV (R411, R412, R416, R417). -/
structure Xfer where
  /-- module that sends -/
  src : Nat
  /-- board position that its data stands for -/
  pos : Nat
  /-- index among the peers of the mask -/
  idx : Nat
  /-- bytes received of each turn -/
  turns : Store (List Byte) := []
  closed : Bool := false
  absent : Bool := false
  /-- kept in the carry area -/
  carry : Bool := false
  /-- places of the carry area that its turns hold (R417) -/
  slots : Store Nat := []
  /-- counted in CARRY_ADD -/
  added : Bool := false
  /-- DONE: 0 not due, 1 due, 2 sent -/
  done : Nat := 0
deriving DecidableEq, Repr

/-- A posted RECV. -/
structure Recv where
  step : Nat
  cid : Nat
  desc : List Byte
  /-- block map of a PARTIAL (R671) -/
  mb : Nat := 0
  gbis : List Nat := []
  /-- LOSS_EXP of its step, two's complement -/
  lexp : Nat := 0
  /-- the counting flag that the receiving DMA engine signals for each gathered tile (R58) -/
  flag : Nat := 0
  xfers : List Xfer
  /-- the RECV has completed -/
  fin : Bool := false
  /-- its CONTRIB record is written or not needed (R419) -/
  booked : Bool := false
  /-- its missing carried data has been reported in replay (R420) -/
  div : Bool := false
deriving DecidableEq, Repr

/-- A started SEND. -/
structure Send where
  step : Nat
  cid : Nat
  desc : List Byte
  /-- the peers: module, index, and whether its DONE has arrived -/
  peers : List (Nat × Nat × Bool)
  /-- turns not yet sent -/
  left : List Nat := []
  fin : Bool := false
deriving DecidableEq, Repr

/-- The collective engine's work for one context. -/
structure Coll where
  /-- SEND and sync descriptors still to run, with the STEP of their list -/
  list : List (Nat × List Byte) := []
  /-- RECVs still to be posted -/
  posts : List (Nat × List Byte) := []
  /-- halted until a context reset X (R410) -/
  halted : Bool := false
  /-- stopped at an ARRIVE until its release -/
  waiting : Bool := false
  recvs : List Recv := []
  sends : List Send := []
  /-- frames in the early area, in order of arrival (R414) -/
  early : List Frame := []
  /-- RECVs of RELEASE that have completed: STEP and COLL_ID (R672) -/
  rels : List (Nat × Nat) := []
deriving DecidableEq, Repr

/-! ## Culvert mirroring (R438 to R457) -/

/-- A transfer that this module receives for one block; `grp` is 8 weights, 9 factors or 10 roots. -/
structure CulXfer where
  gbi : Nat
  grp : Nat
  aud : Bool
  /-- step or version of the OPEN -/
  stamp : Nat
  /-- check values that have arrived, by entry; kept in the check area for a commit -/
  tab : Store Nat := []
  /-- bytes of tiles that are not complete, by KIND × 2^34 + OFFSET -/
  parts : Store (List Byte) := []
  /-- complete tiles that wait for their entry, by KIND × 2^32 + tile -/
  wait : Store (List Byte) := []
  /-- tiles that have passed, KIND × 2^32 + tile -/
  passed : List Nat := []
  /-- failures in a row, by KIND × 2^32 + tile -/
  fails : Store Nat := []
  close : Option (List Byte) := none
  failed : Bool := false
  /-- the highest outcome code of an audit so far, and the tiles compared, by KIND -/
  outcome : Store Nat := []
  compared : Store Nat := []
deriving DecidableEq, Repr

/-- A block that is suspect (R454). -/
structure Suspect where
  gbi : Nat
  buf : Nat
  outcome : Nat
  tile : Nat
deriving DecidableEq, Repr

/-- A tile that arrives at the owner (R453, R454). -/
structure Fetch where
  gbi : Nat
  kind : Nat
  tile : Nat
  /-- the owner has sent FETCH for it -/
  asked : Bool := false
  /-- the owner takes the twin's table entry with it (R454, action 1) -/
  take : Bool := false
  /-- the adopted entry sent ahead of it -/
  entry : Option Nat := none
  /-- bytes so far, by offset within the tile -/
  parts : Store (List Byte) := []
deriving DecidableEq, Repr

/-- What the Culvert logic of the hub keeps beyond its page. -/
structure Cul where
  /-- transfer that the last OPEN named on each stream, by OPORT: GBI, group, AUD -/
  opens : Store (Nat × Nat × Bool) := []
  xfers : List CulXfer := []
  /-- check values of factor and root tiles that the twin has not acknowledged, by GBI × 16 + KIND (R441) -/
  keep : Store (List Nat) := []
  suspects : List Suspect := []
  fetches : List Fetch := []
  /-- audits in progress, with the buffers whose results are still to come, and audits asked for by AUDIT_GBI -/
  audits : List (Nat × List Nat) := []
  wanted : List Nat := []
  /-- the owned blocks of the last step opened in the mirrored context -/
  owned : List Blk := []
deriving DecidableEq, Repr

/-! ## Root sequencers (R219 to R263) -/

/-- The running or held job of a sequencer (R221, R250); its matrices stand in scratch. -/
structure Job where
  ctx : Nat
  gbi : Nat
  cl : Nat
  addr : Nat
  /-- bytes 0 to 23 of the record at the snapshot step (R221) -/
  lat : List Byte
  snap : Nat
  ver : Nat
  /-- 0 chosen, its side still to be pre-scaled; 2 Newton; 3 Cholesky; 4 residual; 5 conversion; 6 ready -/
  ph : Nat := 0
  side : Nat := 0
  iter : Nat := 0
  s : Int := 0
  /-- exponent of the saved X -/
  sx : Int := 0
  /-- λ, tr and φ as FP32 words -/
  lam : Nat := 0
  tr : Nat := 0
  phi : Nat := 0
  /-- pivots floored so far -/
  piv : Nat := 0
  /-- CFG, DAMP and PIV_FLOOR as latched at the start (R225) -/
  cfg : Nat := 0
  damp : Nat := 0
  pivFloor : Nat := 0
  /-- roots that passed, as BF16 words of the upper-triangle tiles -/
  roots : List (List Nat) := []
  /-- the job has been counted in JOB_START, and CFG, DAMP and PIV_FLOOR are latched (R225, R260) -/
  started : Bool := false
  /-- the roots stand in the spare half (R245) -/
  written : Bool := false
deriving DecidableEq, Repr

/-- A due notice (R227). -/
structure Notice where
  ctx : Nat
  step : Nat
  gbi : Nat
deriving DecidableEq, Repr

/-- What the root sequencer of a region keeps beyond its page and scratch. -/
structure Seq where
  job : Option Job := none
  /-- finished jobs that are held ready, or wait under R246 -/
  held : List Job := []
  /-- latched bytes of the blocks whose SNAP_BUSY was set: context, GBI and bytes (R221) -/
  snaps : List (Nat × Nat × List Byte) := []
  /-- steps open at the last publication of a block: context, GBI, steps (R246) -/
  pubs : List (Nat × Nat × List Nat) := []
  notices : List Notice := []
  /-- the notice whose RESTART waits for running wide descriptors (R228, R229) -/
  restart : Option Notice := none
  /-- wide descriptors withdrawn from fenced units, to be issued again (R234) -/
  back : List QDesc := []
  /-- a wide descriptor of the running job saturated (R106) -/
  sat : Bool := false
  /-- the number of the running job; its wide descriptors carry it (R229, R239) -/
  epoch : Nat := 0
  /-- rejections that replay has taken from the journal: context, GBI and version (R253) -/
  rejs : List (Nat × Nat × Nat) := []
deriving DecidableEq, Repr

/-! ## Link ports (R372 to R403) -/

/-- What a link port keeps beyond its page. -/
structure Port where
  nextLseq : Nat := 1
  /-- LSEQ of the last frame accepted -/
  rxLast : Nat := 0
  /-- last ACK received -/
  acked : Nat := 0
  /-- last ACK sent -/
  ackSent : Nat := 0
  retryOut : Bool := false
  replays : Nat := 0
  retryBuf : List Frame := []
  /-- credit in hand for VC 0, 1, 2 -/
  credit : List Nat := [0, 0, 0]
  /-- last CRED count received for each VC -/
  credSeen : List Nat := [0, 0, 0]
  /-- slots freed since the link came up, for each VC -/
  freed : List Nat := [0, 0, 0]
  /-- VC whose freed count the next frame reports -/
  cvc : Nat := 0
  /-- accepted VC 0 frames that wait for their stream's order, oldest first -/
  rxq : List Frame := []
  /-- the head of `rxq` was counted in HOLD_CNT -/
  headHeld : Bool := false
  /-- accepted VC 1 and VC 2 frames that wait to be forwarded -/
  fwd : List Frame := []
  /-- the peer's IDENT record has been received -/
  identGot : Option (List Byte) := none
  identSent : Bool := false
  /-- UP ports of the peer, from its STATE frames (R377) -/
  peerUp : Nat := 0xFFFFFF
  /-- DOWN was entered and the retrain interval runs -/
  retrainArmed : Bool := false
deriving DecidableEq, Repr

/-- The sending end of a stream (R390, R397). -/
structure TxStream where
  next : Nat := 0
  /-- a MARK is out and its MARK_ACK has not returned; the SSEQ that it carries -/
  marking : Bool := false
  markAt : Nat := 0
  /-- the stream has left its member for a fallback route -/
  detour : Bool := false
deriving DecidableEq, Repr

/-- The receiving end of a stream (R395, R396). -/
structure RxStream where
  expected : Nat := 0
  broken : Bool := false
deriving DecidableEq, Repr

/-! ## Host commands (R513 to R530) -/

/-- A handle slot (R519, R520). -/
structure Slot where
  gen : Nat := 1
  inUse : Bool := false
  started : Bool := false
  /-- the started command has been taken up by its own row -/
  running : Bool := false
  /-- the command waits for its turn and counts as not started (R528) -/
  waitTurn : Bool := false
  /-- the COMPLETE of the command is posted and not yet written -/
  ended : Bool := false
  /-- the 64 bytes of the submission entry (R522) -/
  entry : List Byte := []
  sq : Nat := 0
  sqIdx : Nat := 0
deriving DecidableEq, Repr

/-- One submission queue with its completion queue (R513 to R517). -/
structure Queue where
  /-- a fetch failed; halted until EN is written from 0 to 1 (R514) -/
  halted : Bool := false
  /-- slots accepted and not started, oldest first -/
  waiting : List Nat := []
  /-- slots started and not completed -/
  active : List Nat := []
  /-- completion entries held while the ring is full, oldest first: TYPE 1 is COMPLETE -/
  held : List (List Byte) := []
  /-- the completion ring is on an odd pass, so PHASE is written as 0 (R516) -/
  odd : Bool := false
  /-- entries written and not yet freed by CQ_HEAD (R517) -/
  used : Nat := 0
  /-- COMPLETE entries past the last signal (R531) -/
  coal : Nat := 0
deriving DecidableEq, Repr

/-- The end of a command on its way from an engine to the hub (R521). -/
structure Report where
  handle : Nat
  status : Nat
  r0 : Nat := 0
  r1 : Nat := 0
deriving DecidableEq, Repr

/-! ## Checkpoints (R468 to R481) -/

/-- A checkpoint in progress. -/
structure Ckpt where
  handle : Nat
  cut : Nat
  /-- peer checkpoint, as against a durable one -/
  peer : Bool
  /-- durable buffer: host address and length -/
  dest : Nat := 0
  room : Nat := 0
  /-- holders: module, capacity in bytes and start offset in its window -/
  holders : List (Nat × Nat × Nat) := []
  /-- extents: identifier, length and address -/
  exts : List (Nat × Nat × Nat) := []
  /-- blocks still to be read; none until the cut step has opened -/
  left : Option (List Nat) := none
  /-- the extents and the complete carried transfers have been read at the close of the cut step -/
  cutRead : Bool := false
  /-- carried transfers that were still arriving then: COLL_ID and index (R473) -/
  arriving : List (Nat × Nat) := []
  /-- CARRY payloads that R418 has dropped and the stream does not hold yet, with their COLL_ID -/
  dropped : List (Nat × List Byte) := []
  /-- bytes of the stream so far -/
  off : Nat := 0
  /-- the holder that takes the next record, and the bytes that it holds (R525) -/
  cur : Nat := 0
  curOff : Nat := 0
  /-- manifest entries so far (R478) -/
  entries : List (List Byte) := []
  /-- END and the manifest are written -/
  ended : Bool := false
  /-- holders that have answered DONE -/
  dones : List Nat := []
deriving DecidableEq, Repr

/-- A restore in progress (R482 to R486). -/
structure Restore where
  handle : Nat
  /-- 1 mirror, 2 peer, 3 durable -/
  src : Nat
  /-- address of the extent list -/
  exts : Nat
  /-- entries of the restore list that are still to be applied, 96 bytes each -/
  left : List (List Byte)
  /-- READ_DATA payloads of the record being fetched, by offset in the record ÷ 64 -/
  parts : Store (List Byte) := []
  applied : Nat := 0
  /-- records that failed a check or were refused -/
  fails : Nat := 0
  /-- status and GBI of the first of them -/
  bad : Option (Nat × Nat) := none
  /-- CUT of the first record read -/
  cut : Option Nat := none
deriving DecidableEq, Repr

/-! ## The always-on hub domain -/

/-- A programming request that the OTP holds; the first is in progress (R555, R561). -/
structure OtpReq where
  field : Nat
  value : List Byte
  /-- asked for by the boot ROM -/
  rom : Bool := false
deriving DecidableEq, Repr

/-- A dip window that is open (R571, R572). -/
structure Dip where
  rail : Nat
  /-- blocks committed in the window -/
  commits : List Blk := []
  /-- clusters whose log of 64 blocks has overflowed -/
  full : List Nat := []
  /-- tiles that the twin has written: twin record, block, KIND, tile and the check value it was checked against -/
  tiles : List (Nat × Blk × Nat × Nat × Nat) := []
deriving DecidableEq, Repr

/-- A window that is re-verified and whose SUPPLY_EVT record is still to be written (R574). -/
structure Supply where
  rail : Nat
  minMv : Nat
  durUs : Nat
  tiles : Nat
  fails : Nat
deriving DecidableEq, Repr

/-- A throttle step and the milliseconds for which it could be raised (R331, R577, R578). -/
structure Throttle where
  step : Nat := 0
  cold : Nat := 0
deriving DecidableEq, Repr

/-- Power control beyond the PWR, THERM and MEMCTL pages. -/
structure Power where
  dips : List Dip := []
  supply : List Supply := []
  /-- own step of each region -/
  own : Store Throttle := []
  /-- step that each stack asks for -/
  stack : Store Throttle := []
  cap : Throttle := {}
deriving DecidableEq, Repr

/-- The Breakwater beyond its page (R600 to R605). -/
structure Breakwater where
  /-- inputs that are tripped: cause and source -/
  tripped : List (Nat × Nat) := []
  /-- a reset P or C that waits for every input to be clear (R605) -/
  held : Option Cls := none
  /-- pairs that have written 0x5AA5 last -/
  half : List Nat := []
  /-- WDOG_CFG has been written since the last cold reset C -/
  wdogSet : Bool := false
  /-- pairs that have stopped (R538, R539) -/
  stopped : List Nat := []
deriving DecidableEq, Repr

/-- The debug unlock beyond its page (R638 to R640). -/
structure Debug where
  /-- the challenge in CHAL is outstanding -/
  chal : Bool := false
  /-- the challenge that the check under way has consumed; none when there was none outstanding -/
  check : Option (List Byte) := none
deriving DecidableEq, Repr

/-! ## The Gauge (R609 to R628) -/

/-- A tally frame on its way to the Gauge: counts by context × 4 + class, in both copies (R612). -/
structure TallyFrame where
  cluster : Nat
  a : List (Nat × Nat)
  b : List (Nat × Nat)
deriving DecidableEq, Repr

/-- The one-time-programmable fields of the Gauge (R616). -/
structure GaugeOtp where
  serial : Nat := 0
  moduleSerial : Nat := 0
  cal : List Byte := []
  calVer : Nat := 0
  keySecret : List Byte := []
  powerUp : Nat := 0
  mfgLock : Nat := 0
deriving DecidableEq, Repr

/-- The present interval of the Gauge. -/
structure Interval where
  /-- T_START in ms -/
  start : Nat := 0
  /-- sums of voltage × current of channels A and B, in µW of one sample -/
  a : Nat := 0
  b : Nat := 0
  /-- highest one-second power, in 0.1 W -/
  pMax : Nat := 0
  /-- seconds, seconds below 240 W, and a second above 2,640 W -/
  secs : Nat := 0
  under : Nat := 0
  high : Bool := false
  /-- WORK by context × 4 + class, and W_DISPUTED -/
  work : Store Nat := []
  disputed : Nat := 0
  wDisagree : Bool := false
deriving DecidableEq, Repr

/-- What the Gauge holds on its own supply. -/
structure GaugeRun where
  /-- samples of channel A since power-up -/
  samples : Nat := 0
  /-- lifetime at power-up, in ms -/
  base : Nat := 0
  /-- INTERVAL_S in force and for the next interval -/
  interval : Nat := 900
  next : Nat := 900
  now : Interval := {}
  /-- sums of the present second -/
  secA : Nat := 0
  secB : Nat := 0
  pNow : Nat := 0
  /-- STATE is WAIT_RESUME -/
  wait : Bool := true
  /-- the next record is the first after the power-up -/
  first : Bool := true
  /-- a resume has been accepted and no record has closed since -/
  resumed : Bool := false
  /-- SEQ of the next record, PREV_DIGEST, E_TOTAL and BREAKS along the chain -/
  seq : Nat := 0
  prev : List Byte := []
  eTotal : Nat := 0
  breaks : Nat := 0
  /-- bodies that are being signed, oldest first -/
  signing : List (List Byte) := []
  /-- signed records, newest first, at most four -/
  records : List (List Byte) := []
  /-- REC_SELECT slot and read offset, and the offset of IDENT_READ -/
  slot : Nat := 0
  off : Nat := 0
  identOff : Nat := 0
  /-- the record that RESUME_LOAD has loaded so far -/
  load : List Byte := []
  /-- STATUS_RESUME -/
  result : Nat := 0
deriving DecidableEq, Repr

/-- The Gauge die; `run` is none while its supply is off. -/
structure Gauge where
  otp : GaugeOtp := {}
  run : Option GaugeRun := none
  /-- tally frames on the receive-only lines -/
  lines : List TallyFrame := []
deriving DecidableEq, Repr

/-! ## Contexts -/

/-- What the module keeps for one context. -/
structure Ctx where
  /-- job seed (R526) -/
  seed : Option Nat := none
  /-- JOB_SEED is still to be written at the next opening (R500) -/
  seedNew : Bool := false
  /-- the topology table is loaded (R390, R432) -/
  topo : Bool := false
  /-- open steps, older first -/
  steps : List Step := []
  /-- closed steps whose collective descriptors are still to run, older first -/
  past : List Step := []
  /-- first and last step opened since the context was created or restored (R49, R672) -/
  first : Option Nat := none
  last : Option Nat := none
  coll : Coll := {}
  slots : Store Slot := []
  /-- slots from here on have never been used -/
  fresh : Nat := 0
  /-- freed slots, in the order in which they were freed (R520) -/
  freed : List Nat := []
  queues : Store Queue := []
  /-- journal records whose writers wait for the ring (R498) -/
  jwait : List JrnRec := []
  /-- hclk of waiting for the ring (R498) -/
  jwaitHclk : Nat := 0
  /-- records of the replayed journal for the steps being replayed (R502) -/
  rpl : List JrnRec := []
  /-- blocks of the step opened last -/
  tabs : List Blk := []
  /-- the highest step at which an owned block has begun operation 7 (R469) -/
  lastCommit : Option Nat := none
  ckpt : Option Ckpt := none
  restore : Option Restore := none
deriving DecidableEq, Repr

/-! ## Outputs -/

/-- What the module has sent to the outside; this model's own log of it. -/
inductive Out where
  /-- an MSI-X message: function (0 the PF) and vector (R531) -/
  | msix (fn vec : Nat)
  /-- an event signalled to Tsulum: page type and instance (R637) -/
  | tsulum (page inst : Nat)
  /-- a frame on a port -/
  | frame (port : Nat) (f : Frame)
  /-- the value that a register read returned -/
  | regRead (v : Nat)
  /-- the bytes that a BAR2 read returned -/
  | bar2 (bs : List Byte)
  /-- the bytes that the Gauge's two-wire port returned -/
  | gauge (bs : List Byte)
deriving DecidableEq, Repr

/-! ## The module -/

/-- The state of one module. -/
structure State where
  /-- waiting commands, first in, first out -/
  pending : List Instr := []
  /-- register fields that differ from their reset values, by `fldKey` -/
  regs : Store Word := []
  /-- latched _HI words, by requester and register (R630) -/
  hiLatch : Store Nat := []
  /-- module memory by physical DRAM address; an unlisted byte reads 0 -/
  mem : List Host.Cell := []
  /-- 64-byte accesses that hold the poison pattern, by DRAM address ÷ 64 (R314) -/
  poison : Store Bool := []
  /-- cluster SRAM, by cluster × 2^23 + address -/
  sram : Store Byte := []
  /-- host memory as the module has written it -/
  hmem : Store Byte := []
  /-- the OTP array, 2,048 bytes (R552, R553) -/
  otp : Store Byte := []
  /-- answers to memory requests that no engine has taken yet -/
  responses : List MemResp := []
  mcs : Store Mc := []
  window : Option Window := none
  sluices : Store Sluice := []
  objs : Store SyncObj := []
  releases : List Release := []
  crossing : List SyncOp := []
  clusters : Store Cluster := []
  units : Store TUnit := []
  seqs : Store Seq := []
  cul : Cul := {}
  /-- due at the next step open: 0 STANDIN, 1 SERVING (R428, R429) -/
  degSet : List Nat := []
  /-- entries of COLL.DEGRADE to clear at the next step open, 0 own board, 1 previous stage, 2 next stage, with the handles of
  the commands that asked for it (R431) -/
  degClear : List (Nat × Nat) := []
  ctxs : Store Ctx := []
  /-- engine reports on their way to the hub (R521) -/
  reports : List Report := []
  /-- the step closed last, in any context (R333) -/
  lastClosed : Nat := 0
  /-- module-wide journal records that wait for every ring that receives them (R496) -/
  jwide : List (JrnRec × List Nat) := []
  ports : Store Port := []
  txStreams : Store TxStream := []
  rxStreams : Store RxStream := []
  /-- frames that engines have handed over for sending and no Sluice holds yet -/
  sendq : List Frame := []
  /-- frames delivered to an engine, by engine number of R376 -/
  inbox : List Frame := []
  /-- the boot mailbox (R540) -/
  mbx : Store Byte := []
  /-- programming requests of the OTP, the first in progress -/
  otpq : List OtpReq := []
  /-- the gate has opened and the ROM programs the OTP before it starts the image (R545) -/
  romProg : Bool := false
  /-- KEY_DIG that a rotation of this cold boot has replaced; it serves until the next cold boot (R561) -/
  bootKeys : Option (List Byte) := none
  pow : Power := {}
  brk : Breakwater := {}
  /-- the pin FAULT_N is pulled low (R603) -/
  faultN : Bool := false
  /-- the reset C or P that the module is held in -/
  inReset : Option Cls := none
  dbg : Debug := {}
  gauge : Gauge := {}
  /-- board position and Gauge address on the straps (R651) -/
  strapPos : Nat := 0
  strapGaddr : Nat := 0
  /-- SR-IOV VF Enable and NumVFs (R508, R509) -/
  vfEnable : Bool := false
  numVfs : Nat := 0
  out : List Out := []
  freeCtr : Nat := 0
deriving DecidableEq, Repr

/-- The module right after a cold reset C: every register field at its reset value, nothing in the queue. -/
def State.reset : State := {}

end Sys2Proof.Machine
end

