-- ==== Sys2Proof/Machine/Ops.lean ====
section
/-! DEFINITION. The shared operations: sparse stores, register fields, counters, events and interrupts, free values, and module
memory through the span map and the repair redirects. -/

namespace Sys2Proof.Machine

/-! ## Sparse stores -/

/-- The entry of a key. -/
def Store.find {α : Type} (k : Nat) : Store α → Option α
  | [] => none
  | (j, v) :: r => if j = k then some v else Store.find k r

/-- The value of a key; `d` where nothing is listed. -/
def Store.get {α : Type} (d : α) (st : Store α) (k : Nat) : α := (st.find k).getD d

/-- Insert or replace, keeping keys rising. -/
def Store.ins {α : Type} (k : Nat) (v : α) : Store α → Store α
  | [] => [(k, v)]
  | (j, w) :: r =>
    if k < j then (k, v) :: (j, w) :: r
    else if k = j then (k, v) :: r
    else (j, w) :: Store.ins k v r

/-- Remove a key. -/
def Store.del {α : Type} (k : Nat) (st : Store α) : Store α := st.filter fun e => e.1 ≠ k

/-- Write a value; writing the default removes the entry. -/
def Store.put {α : Type} [DecidableEq α] (d : α) (k : Nat) (v : α) (st : Store α) : Store α :=
  if v = d then st.del k else st.ins k v

/-- Change the value of a key. -/
def Store.upd {α : Type} [DecidableEq α] (d : α) (k : Nat) (f : α → α) (st : Store α) : Store α :=
  st.put d k (f (st.get d k))

/-- Write consecutive values from key `k` on. -/
def Store.putAll {α : Type} [DecidableEq α] (d : α) : Nat → List α → Store α → Store α
  | _, [], st => st
  | k, v :: vs, st => Store.putAll d (k + 1) vs (st.put d k v)

/-- `n` consecutive values from key `k` on. -/
def Store.getAll {α : Type} (d : α) (st : Store α) : Nat → Nat → List α
  | _, 0 => []
  | k, n + 1 => st.get d k :: Store.getAll d st (k + 1) n

/-- Keys strictly rising and no entry equal to the default: the canonical form. -/
def Store.canon {α : Type} [DecidableEq α] (d : α) : Store α → Bool
  | [] => true
  | [e] => decide (e.2 ≠ d)
  | e :: f :: r => decide (e.2 ≠ d) && decide (e.1 < f.1) && Store.canon d (f :: r)

/-! ## Register fields -/

/-- The cell of element `k` of a field on the page of instance `i`; elements are counted modulo the field's count. -/
def fldKey (f : Fld) (i k : Nat) : Nat :=
  ((f.page * 1024 + i % 1024) * 4096 + (f.off + f.stride * (k % f.cnt)) % 4096) * 32 + f.lo % 32

/-- The reset value of a field on a given instance. -/
def fldReset (f : Fld) (i : Nat) : Nat :=
  match f.rstGlobal with
  | some v => if i ≥ 22 then v else f.rst
  | none => f.rst

/-- Read element `k` of a field. -/
def getFk (s : State) (f : Fld) (i k : Nat) : Nat :=
  (Store.get (BitVec.ofNat 32 (fldReset f i)) s.regs (fldKey f i k)).toNat

/-- Read a field. -/
def getF (s : State) (f : Fld) (i : Nat) : Nat := getFk s f i 0

/-- Write element `k` of a field; the value is cut to the field's width. -/
def setFk (f : Fld) (i k v : Nat) (s : State) : State :=
  { s with regs := Store.put (BitVec.ofNat 32 (fldReset f i)) (fldKey f i k) (BitVec.ofNat 32 (v % 2 ^ f.w)) s.regs }

/-- Write a field. -/
def setF (f : Fld) (i v : Nat) (s : State) : State := setFk f i 0 v s

/-- A flag field as a truth value. -/
def isF (s : State) (f : Fld) (i : Nat) : Bool := getF s f i != 0

/-- Add `n` to a 32-bit counter, which wraps at 0xFFFF_FFFF. -/
def addFk (f : Fld) (i k n : Nat) (s : State) : State := setFk f i k ((getFk s f i k + n) % two32) s

/-- Add `n` to a counter. -/
def addF (f : Fld) (i n : Nat) (s : State) : State := addFk f i 0 n s

/-- Increment a counter. -/
def incr (f : Fld) (i : Nat) (s : State) : State := addF f i 1 s

/-! ## Outputs and events -/

/-- Append to the log of outputs. -/
def emit (o : Out) (s : State) : State := { s with out := s.out ++ [o] }

/-- EVT_PEND of a page type as one cell. -/
def pendFld (t : Nat) : Fld := { page := t, off := 0x18, lo := 0, w := 32, rst := 0, acc := .w1c, cls := [.c, .p] }

/-- EVT_EN of a page type as one cell; every bit with a meaning is 1 at reset. -/
def enFld (t : Nat) : Fld := { page := t, off := 0x1C, lo := 0, w := 32, rst := evtMask t, acc := .rw, cls := [.c, .p] }

/-- The page asserts its event (R637): a bit is 1 in both EVT_PEND and EVT_EN. On the HOSTIF page the per-context bits
[19:16] are held in CTX_EVT and judged there. -/
def asserted (s : State) (t i : Nat) : Bool := (getF s (pendFld t) i &&& getF s (enFld t) i) != 0

/-- VF c is enabled (R509): VF Enable is set and c is at most NumVFs. -/
def vfEnabled (s : State) (c : Nat) : Bool := s.vfEnable && decide (1 ≤ c ∧ c ≤ s.numVfs)

/-- The function that owns a context (R509). -/
def ownerFn (s : State) (c : Nat) : Nat := if vfEnabled s c then c else 0

/-- Signal a page's event (R531, R637). -/
def signalPage (t i : Nat) (s : State) : State :=
  match t with
  | 10 => if i < 4 then emit (.tsulum t i) s else emit (.msix 0 (i + 4)) s
  | 12 => emit (.msix (ownerFn s i) 4) s
  | 16 => s
  | _ => emit (.msix 0 (32 + t)) s

/-- Set bits of EVT_PEND; when the page's assertion begins, its event is signalled (R637). -/
def pend (t i m : Nat) (s : State) : State :=
  let s' := setF (pendFld t) i (getF s (pendFld t) i ||| (m &&& evtMask t)) s
  if !asserted s t i && asserted s' t i then signalPage t i s' else s'

/-- Set one event bit of a page. -/
def setEvt (e : Evt) (i : Nat) (s : State) : State := pend e.page i (2 ^ e.bit) s

/-- Set CTX_EVT bit `b` of context `c`; it signals vector 4 of the owning function while EVT_EN bit [16 + b] is 1 and the
context's bits did not assert before (R506, R637). -/
def setCtxEvt (c b : Nat) (s : State) : State :=
  let old := getFk s HOSTIF_CTX_EVT_EVT 0 c
  let en := getF s (enFld 11) 0 / 65536
  let s' := setFk HOSTIF_CTX_EVT_EVT 0 c (old ||| 2 ^ b) s
  if (old &&& en) == 0 && ((old ||| 2 ^ b) &&& en) != 0 then emit (.msix (ownerFn s c) 4) s' else s'

/-- JRN_FULL, RESTORE_BAD, REPLAY_WAIT and CKPT_ABORT as bits of CTX_EVT (R506). -/
def ceJrnFull : Nat := 0
/-- RESTORE_BAD of R506. -/
def ceRestoreBad : Nat := 1
/-- REPLAY_WAIT of R506. -/
def ceReplayWait : Nat := 2
/-- CKPT_ABORT of R506. -/
def ceCkptAbort : Nat := 3

/-- A fresh free word (log entry 5). -/
def freshWord (s : State) : Nat × State := ((Config.freeWord s.freeCtr).toNat, { s with freeCtr := s.freeCtr + 1 })

/-! ## Domains (R564, R567) -/

/-- The switched domain of a page; 255 is the always-on domain. -/
def pageDomain (t i : Nat) : Nat :=
  match t with
  | 0 => i / 32
  | 1 => 32 + i / 8
  | 2 => 32 + i
  | 3 | 4 => 64 + i
  | 5 => if i < 16 then 64 + i else if i < 40 then 92 + (i - 16) else if i = 40 then 122 else 123
  | 6 => if i < 4 then 88 + i else 122
  | 7 => 92 + i
  | 8 | 9 => 122
  | 10 => 124
  | 11 | 12 => 116
  | 19 => 126
  | _ => 255

/-- Domain `n` is on. -/
def domOn (s : State) (n : Nat) : Bool := n ≥ 128 || (getFk s PWR_DOM_STAT 0 (n / 32)).testBit (n % 32)

/-! ## When the module stands still (R582 to R590, R603) -/

/-- The engines stand still: the fault state is held, a reset C or P is under way, or the module is in standby. -/
def stopped (s : State) : Bool := isF s BRKW_STAT_FAULT 0 || s.inReset.isSome || getF s PWR_STAT_STATE 0 == 2

/-- `t` follows `s` unless the engines stand still. -/
def running (s t : State) : State := if stopped s then s else t

/-- The module is in RUN and its engines do not stand still. -/
def isAwake (s : State) : Bool := !stopped s && getF s PWR_STAT_STATE 0 == 0

/-- `t` follows `s` in RUN; in deep idle what needs module memory or a cluster waits (R583). -/
def awake (s t : State) : State := if isAwake s then t else s

/-- `t` follows `s` while domain `n` is on and the engines do not stand still. -/
def runningIn (n : Nat) (s t : State) : State := if stopped s || !domOn s n then s else t

/-- `t` follows `s` while the control pairs have power and are not in reset; the fault state does not stop them. -/
def pairsUp (s t : State) : State := if s.inReset.isSome || getF s PWR_STAT_STATE 0 == 2 then s else t

/-- `t` follows `s` outside the resets C and P. -/
def outOfReset (s t : State) : State := if s.inReset.isSome then s else t

/-- Pair `p` of R601 has not stopped; a stopped pair does none of its duties (R31, R538). -/
def pairRuns (p : Nat) (s t : State) : State := if s.brk.stopped.contains p then s else t

/-! ## Die-to-die links (R32 to R34) -/

/-- Die-to-die link `n` is up: 0 to 3 the ring link between dies n and (n + 1) mod 4, 4 to 7 the hub link of die n - 4. A link is down
just when its domain is off (log entry 102). -/
def linkOn (s : State) (n : Nat) : Bool := domOn s (80 + n)

/-- The links between die `d` and the hub: its hub link, or a ring link to a neighbour and the neighbour's hub link (R34). -/
def hubWay (s : State) (d : Nat) : Option (List Nat) :=
  if linkOn s (4 + d) then some [4 + d]
  else if linkOn s d && linkOn s (4 + (d + 1) % 4) then some [d, 4 + (d + 1) % 4]
  else if linkOn s ((d + 3) % 4) && linkOn s (4 + (d + 3) % 4) then some [(d + 3) % 4, 4 + (d + 3) % 4]
  else none

/-- The links that an access from die `d` to memory of die `h` crosses: none for near memory; the ring link between adjacent dies;
otherwise the ways of both dies to the hub (R33, R34). -/
def farRoute (s : State) (d h : Nat) : Option (List Nat) :=
  if d = h then some []
  else if h = (d + 1) % 4 ∧ linkOn s d then some [d]
  else if d = (h + 1) % 4 ∧ linkOn s h then some [h]
  else match hubWay s d, hubWay s h with
    | some a, some b => some (a ++ b.reverse)
    | _, _ => none

/-! ## Module memory -/

/-- The DRAM address of a byte: home die × 128 + channel, channel page, byte. -/
def dramKey (chan page off : Nat) : Nat := (chan * 524288 + page) * 4096 + off

/-- A span entry of die `d` (R298, R340). -/
def spanEntry (s : State) (d i : Nat) : Nat :=
  getFk s MEMCTL_SPAN_LO (d * 4 + i / 64) (i % 64) + two32 * getFk s MEMCTL_SPAN_HI (d * 4 + i / 64) (i % 64)

/-- R298, R300, R302: VALID is set and the entry breaks no rule. -/
def spanValid (e : Nat) : Bool :=
  bit e 0 && !bit e 3 && !bit e 7 && !bit e 15 && bits e 29 3 == 0 && bits e 51 13 == 0 &&
  decide (1 ≤ bits e 16 13 ∧ bits e 16 13 ≤ 4096) &&
  bits e 8 7 % 2 ^ bits e 4 3 == 0 &&
  decide (bits e 32 19 * 2 ^ bits e 4 3 + bits e 16 13 * 256 ≤ 0x7FF00 * 2 ^ bits e 4 3)

/-- How the lookup of an address ends (R302). -/
inductive Lookup where
  /-- home channel (die × 128 + channel), channel page and byte -/
  | hit (chan page off : Nat)
  /-- the span misses; MEMCTL page that holds the entry -/
  | miss (mcPage : Nat)
  /-- CTRL.EN of the home stack is 0, or the stack is switched off; MEMCTL page of the stack -/
  | off (mcPage : Nat)
deriving DecidableEq, Repr

/-- The span lookup of die `d` (R299, R302). -/
def lookup (s : State) (d a : Nat) : Lookup :=
  let i := a / two32
  let e := spanEntry s d i
  let o := a % two32
  let n := 2 ^ bits e 4 3
  let k := o / 4096
  let chan := bits e 1 2 * 128 + bits e 8 7 + k % n
  if a ≥ 1099511627776 then .miss (d * 4)
  else if !spanValid e || bits e 16 13 * 1048576 ≤ o then .miss (d * 4 + i / 64)
  else if !isF s MEMCTL_CTRL_EN (chan / 32) || !domOn s (64 + chan / 32) then .off (chan / 32)
  else .hit chan (bits e 32 19 + k / n) (o % 4096)

/-- Record an address fault on a MEMCTL page (R302). -/
def addrFault (p : Nat) (s : State) : State := setEvt MEMCTL_EV_ADDR_FAULT p (incr MEMCTL_ADDR_FAULT_CNT p s)

/-- The controller of a stack. -/
def mcOf (s : State) (m : Nat) : Mc := s.mcs.get {} m

/-- Change the controller of a stack. -/
def modMc (m : Nat) (f : Mc → Mc) (s : State) : State := { s with mcs := s.mcs.upd {} m f }

/-- The channels of a stack are trained, at its present temperature (R323, R336). -/
def trainStack (m : Nat) (s : State) : State :=
  setF MEMCTL_STAT_READY m 1 (modMc m (fun x =>
    { x with trained := (List.range 32).map fun ch => (ch, getF s MEMCTL_STAT_TEMP m + 1), due := [] }) s)

/-- The channels of stacks 0 to `n - 1` that have power are trained. -/
def trainStacks : Nat → State → State
  | 0, s => s
  | n + 1, s => if domOn s (64 + n) then trainStack n (trainStacks n s) else trainStacks n s

/-- Key of a row within its stack's controller. -/
def rowKey (chan row : Nat) : Nat := chan % 32 * 2097152 + row

/-- Key of a channel page within its stack's controller. -/
def pageKey (chan page : Nat) : Nat := chan % 32 * 524288 + page

/-- Where an access of a channel page goes after the retire and remap redirects (R318 to R320): none for a lost page. A row of a
retired page that is remapped was remapped after its page had moved, and goes to its spare row. -/
def redirect (s : State) (chan page off : Nat) : Option Nat :=
  let mc := mcOf s (chan / 32)
  match mc.pages.get .live (pageKey chan page), mc.rows.get .fresh (rowKey chan (4 * page + off / 1024)) with
  | .lost, _ => none
  | _, .remapped sp => some (dramKey chan (0x7FF00 + sp / 4) (sp % 4 * 1024 + off % 1024))
  | .retired r, _ => some (dramKey chan (0x7FF80 + r) off)
  | .live, _ => some (dramKey chan page off)

/-- What reading a range gave. -/
inductive MemRes where
  | data (bs : List Byte)
  /-- the first byte that missed, as R302 judges it -/
  | fault (l : Lookup)
  | uncorr
deriving DecidableEq, Repr

/-- Read `n` bytes from address `a` as die `d` sees memory. The first byte that misses decides a fault; a poisoned
access or a lost page makes the whole read uncorrectable (R313, R314, R320). -/
def memRead (s : State) (d : Nat) : Nat → Nat → MemRes
  | _, 0 => .data []
  | a, n + 1 =>
    match lookup s d a with
    | .hit chan page off =>
      match redirect s chan page off with
      | none => .uncorr
      | some k =>
        if s.poison.get false (k / 64) then .uncorr
        else match memRead s d (a + 1) n with
          | .data bs => .data (Store.get (0 : Byte) s.mem k :: bs)
          | r => r
    | l => .fault l

/-- Record the address fault of a read or write that missed. -/
def noteMiss (l : Lookup) (s : State) : State :=
  match l with
  | .miss p | .off p => addrFault p s
  | .hit _ _ _ => s

/-- The first byte of a range that misses the map. -/
def firstMiss (s : State) (d : Nat) : Nat → Nat → Option Lookup
  | _, 0 => none
  | a, n + 1 =>
    match lookup s d a with
    | .hit _ _ _ => firstMiss s d (a + 1) n
    | l => some l

/-- Write one byte where the map and the redirects lead; a lost page discards it (R320). -/
def memPut (d a : Nat) (b : Byte) (s : State) : State :=
  match lookup s d a with
  | .hit chan page off =>
    match redirect s chan page off with
    | some k => { s with mem := Store.put (0 : Byte) k b s.mem }
    | none => s
  | _ => s

/-- Write bytes one by one. -/
def memPuts (d : Nat) : Nat → List Byte → State → State
  | _, [], s => s
  | a, b :: bs, s => memPuts d (a + 1) bs (memPut d a b s)

/-- The 64-byte accesses that a write of `n` bytes at `a` replaces in full lose their poison (R314). -/
def unpoison (d a : Nat) : Nat → State → State
  | 0, s => s
  | n + 1, s =>
    let s' := unpoison d a n s
    match lookup s d (a + 64 * n) with
    | .hit chan page off =>
      match redirect s chan page off with
      | some k => { s' with poison := Store.put false (k / 64) false s'.poison }
      | none => s'
    | _ => s'

/-- Write bytes at address `a` as die `d` sees memory. A range with a byte that misses writes nothing and records the
fault; the outcome says whether it was written. -/
def memWrite (d a : Nat) (bs : List Byte) (s : State) : Bool × State :=
  match firstMiss s d a bs.length with
  | some l => (false, noteMiss l s)
  | none =>
    let a64 := (a + 63) / 64 * 64
    (true, unpoison d a64 ((a + bs.length - a64) / 64) (memPuts d a bs s))

/-- Write bytes and go on whatever came of it. -/
def memStore (d a : Nat) (bs : List Byte) (s : State) : State := (memWrite d a bs s).2

/-! ## Cluster SRAM and host memory -/

/-- Key of a byte of a cluster's SRAM. -/
def sramKey (cl a : Nat) : Nat := cl * 8388608 + a

/-- `n` bytes of a cluster's SRAM. -/
def sramRead (s : State) (cl a n : Nat) : List Byte := Store.getAll 0 s.sram (sramKey cl a) n

/-- Write bytes into a cluster's SRAM. -/
def sramWrite (cl a : Nat) (bs : List Byte) (s : State) : State :=
  { s with sram := Store.putAll 0 (sramKey cl a) bs s.sram }

/-- Write bytes into host memory. -/
def hostWrite (a : Nat) (bs : List Byte) (s : State) : State := { s with hmem := Store.putAll 0 a bs s.hmem }

/-! ## Parts of the state by number -/

/-- Sluice `n` of R342: 0 to 511 the memory channels, 512 + p port p, 536 the collective engine, 537 the host DMA. -/
def sluiceOf (s : State) (n : Nat) : Sluice := s.sluices.get {} n

/-- The domain of a Sluice (R567). -/
def sluiceDomain (n : Nat) : Nat := if n < 512 then 64 + n / 32 else if n < 536 then 92 + (n - 512) else if n = 536 then 122 else 123

/-- Change a Sluice. -/
def modSluice (n : Nat) (f : Sluice → Sluice) (s : State) : State := { s with sluices := s.sluices.upd {} n f }

/-- The SLUICE page of a Sluice. -/
def sluicePage (n : Nat) : Nat := if n < 512 then n / 32 else if n < 536 then n - 496 else n - 496

/-- Port `p`. -/
def portOf (s : State) (p : Nat) : Port := s.ports.get {} p

/-- Change a port. -/
def modPort (p : Nat) (f : Port → Port) (s : State) : State := { s with ports := s.ports.upd {} p f }

/-- Context `c`. -/
def ctxOf (s : State) (c : Nat) : Ctx := s.ctxs.get {} c

/-- Change a context. -/
def modCtx (c : Nat) (f : Ctx → Ctx) (s : State) : State := { s with ctxs := s.ctxs.upd {} c f }

/-- Cluster `cl`: die × 64 + region × 8 + cluster. -/
def clusterOf (s : State) (cl : Nat) : Cluster := s.clusters.get {} cl

/-- Change a cluster. -/
def modCluster (cl : Nat) (f : Cluster → Cluster) (s : State) : State := { s with clusters := s.clusters.upd {} cl f }

/-- List `lid` of a cluster. -/
def listOf (s : State) (cl lid : Nat) : Option ListRun := (clusterOf s cl).lists.find? fun l => l.id == lid

/-- Change a list. -/
def modList (cl lid : Nat) (f : ListRun → ListRun) (s : State) : State :=
  modCluster cl (fun c => { c with lists := c.lists.map fun l => if l.id = lid then f l else l }) s

/-- A step of context `c` is open. -/
def stepIsOpen (s : State) (c : Nat) : Bool := !(ctxOf s c).steps.isEmpty

/-- Remove the first element that meets a test and answer it with the rest. -/
def takeFirst {α : Type} (p : α → Bool) : List α → Option (α × List α)
  | [] => none
  | a :: r => if p a then some (a, r) else (takeFirst p r).map fun e => (e.1, a :: e.2)

end Sys2Proof.Machine
end

