-- ==== Sys2Proof/Machine/Otp.lean ====
section
/-! DEFINITION. The one-time-programmable array: fields, generation slots and the resolved values (R552 to R556). -/

namespace Sys2Proof.Machine

/-- Class of an OTP field (R553, R554). -/
inductive OtpCls where
  /-- at manufacture only -/
  | m
  /-- at manufacture, then the boot ROM -/
  | mr
  /-- at manufacture, then host software -/
  | mh
  | h
deriving DecidableEq, Repr

/-- Offset, value bytes, slot bytes and class of OTP field `f` (R553). -/
def otpField (f : Nat) : Option (Nat × Nat × Nat × OtpCls) :=
  match f with
  | 0 => some (0x000, 8, 16, .m)
  | 1 => some (0x040, 4, 8, .m)
  | 2 => some (0x060, 4, 8, .mr)
  | 3 => some (0x080, 4, 8, .mh)
  | 4 => some (0x0A0, 96, 104, .mr)
  | 5 => some (0x240, 48, 56, .mr)
  | 6 => some (0x320, 64, 72, .m)
  | 7 => some (0x440, 16, 24, .m)
  | 8 | 9 | 10 | 11 => some (0x4A0 + 0xA0 * (f - 8), 32, 40, .h)
  | _ => none

/-- `n` bytes of the OTP array. -/
def otpBytes (s : State) (a n : Nat) : List Byte := Store.getAll 0 s.otp a n

/-- Bytes of slot `g` of a field. -/
def otpSlot (s : State) (off slot g : Nat) : List Byte := otpBytes s (off + slot * g) slot

/-- A slot is used when any bit of it is 1 (R552). -/
def otpUsed (bs : List Byte) : Bool := bs.any fun b => b != 0

/-- A slot is valid when its marker byte is 0xA5 and its CRC-16 matches (R552). -/
def otpValid (len : Nat) (bs : List Byte) : Bool :=
  leVal ((bs.drop (len + 2)).take 1) == 0xA5 && leVal ((bs.drop len).take 2) == crc16 (bs.take len)

/-- The highest slot below `g` that a test accepts. -/
def otpHighest (s : State) (off slot : Nat) (p : List Byte → Bool) : Nat → Option Nat
  | 0 => none
  | g + 1 => if p (otpSlot s off slot g) then some g else otpHighest s off slot p g

/-- The resolved value of a field: that of its highest valid slot, zeros when it has none (R552). -/
def otpValue (s : State) (f : Nat) : List Byte :=
  match otpField f with
  | none => []
  | some (off, len, slot, _) =>
    match otpHighest s off slot (otpValid len) 4 with
    | some g => (otpSlot s off slot g).take len
    | none => zeros len

/-- A field has a valid slot. -/
def otpHasValid (s : State) (f : Nat) : Bool :=
  match otpField f with
  | none => false
  | some (off, len, slot, _) => (otpHighest s off slot (otpValid len) 4).isSome

/-- The slot that a new value goes into, after the highest used one; none for a frozen field (R552). -/
def otpNext (s : State) (f : Nat) : Option Nat :=
  match otpField f with
  | none => none
  | some (off, _, slot, _) =>
    match otpHighest s off slot otpUsed 4 with
    | none => some 0
    | some g => if g < 3 then some (g + 1) else none

/-- The OTP is manufacture-locked when any bit of MFG_LOCK is 1 (R553). -/
def mfgLocked (s : State) : Bool := otpUsed (otpBytes s 0x7F8 8)

/-- FIELD_STAT of field `f` (R563). -/
def otpFieldStat (s : State) (f : Nat) : Nat :=
  match otpField f with
  | none => 0
  | some (off, len, slot, _) =>
    let v := otpHighest s off slot (otpValid len) 4
    let u := fun g => otpUsed (otpSlot s off slot g)
    v.getD 0 + 4 * b2n v.isSome + 8 * b2n (u 3) + 16 * b2n (u 0) + 32 * b2n (u 1) + 64 * b2n (u 2) + 128 * b2n (u 3)

/-- SHADOW word of the OTP page: field `f`, word `w`; 0 for DEV_SECRET (R556, R563). -/
def otpShadow (s : State) (f w : Nat) : Nat :=
  if f = 6 then 0 else leVal (((otpValue s f).drop (4 * w)).take 4)

/-- The module serial (R553). -/
def serial (s : State) : Nat := leVal (otpValue s 0)

/-- DBG_POLICY (R553). -/
def dbgPolicy (s : State) : Nat := leVal (otpValue s 3)

/-- MIN_SVN (R553). -/
def minSvn (s : State) : Nat := leVal ((otpValue s 2).take 2)

end Sys2Proof.Machine
end

