-- ==== Sys2Proof/Machine/Window.lean ====
section
/-! DEFINITION. Read-only register words that other parts of the state supply: the window onto the Gauge (R628), the OTP values
(R562, R563, R643) and the board position strap (R651). -/

namespace Sys2Proof.Machine

/-! ## The Gauge window -/

/-- Energy in µJ of a sum of products of mV and mA, at 50,000 samples a second (R609). -/
def microJoule (sum : Nat) : Nat := sum / 50000

/-- ENERGY of an interval: the lower channel (R609). -/
def energyLow (i : Interval) : Nat := min (microJoule i.a) (microJoule i.b)

/-- ENERGY_OTHER of an interval: the higher channel. -/
def energyHigh (i : Interval) : Nat := max (microJoule i.a) (microJoule i.b)

/-- The channel energies differ by more than 0.4 % of the lower one (R611). -/
def energyDisagree (i : Interval) : Bool := decide (4 * energyLow i < 1000 * (energyHigh i - energyLow i))

/-- The Gauge's lifetime in ms; channel A takes 50 samples in each. -/
def gaugeLife (g : GaugeRun) : Nat := g.base + g.samples / 50

/-- All 4,096 POWER_UP bits are used (R617). -/
def powerUpSat (s : State) : Bool := decide (4096 ≤ s.gauge.otp.powerUp)

/-- STATE of the Gauge (R628). -/
def gaugeState (g : GaugeRun) : Nat := if g.wait then 1 else if g.signing.isEmpty then 2 else 3

/-- The newest completed record. -/
def newestRecord (g : GaugeRun) : List Byte := g.records.headD []

/-- A word of the GAUGE page; every word is 0 while the Gauge is unpowered (R623, R628). -/
def gaugeWord (s : State) (o : Nat) : Nat :=
  match s.gauge.run with
  | none => 0
  | some g =>
    let half := fun v k => v / two32 ^ k % two32
    let e := g.eTotal + energyLow g.now
    if o = 0x14 then gaugeState g + 4 * b2n (energyDisagree g.now) + 8 * b2n g.now.wDisagree + 16 * b2n g.now.high
      + 32 * b2n (powerUpSat s)
    else if o = 0x40 then leVal (((newestRecord g).drop 24).take 4)
    else if o = 0x44 then leVal (((newestRecord g).drop 28).take 4)
    else if o = 0x48 then s.gauge.otp.powerUp
    else if o = 0x4C then g.interval
    else if o = 0x50 then half (gaugeLife g) 0
    else if o = 0x54 then half (gaugeLife g) 1
    else if o = 0x58 then half e 0
    else if o = 0x5C then half e 1
    else if o = 0x60 then g.pNow
    else if o = 0x64 then g.breaks
    else if 0x200 ≤ o ∧ o < 0x400 then half (g.now.work.get 0 ((o - 0x200) / 8)) ((o - 0x200) / 4 % 2)
    else if 0x400 ≤ o ∧ o < 0x700 then leVal (((newestRecord g).drop (o - 0x400)).take 4)
    else 0

/-! ## OTP values and straps -/

/-- The KEY_DIG slot in use (R562). -/
def keyGen (s : State) : Nat := otpFieldStat s 4 % 4

/-- The bits of a register word that the OTP, the straps or the Gauge supply. -/
def otherWord (s : State) (t i o : Nat) : Nat :=
  if t = 17 then
    if o = 0x14 then 2 * b2n (mfgLocked s)
    else if 0x140 ≤ o ∧ o < 0x170 then otpFieldStat s ((o - 0x140) / 4)
    else if 0x400 ≤ o ∧ o < 0xA00 then otpShadow s ((o - 0x400) / 0x80) ((o - 0x400) % 0x80 / 4)
    else 0
  else if t = 18 then (if o = 0x108 then 65536 * minSvn s else if o = 0x10C then keyGen s else 0)
  else if t = 19 then (if o = 0x14 then 128 * (dbgPolicy s % 2) else 0)
  else if t = 7 then (if o = 0x200 ∧ i = 0 then 512 * (s.strapPos % 8) else 0)
  else if t = 16 then gaugeWord s o
  else 0

end Sys2Proof.Machine
end

