-- ==== Sys2Proof/Machine/Access.lean ====
section
/-! DEFINITION. Register access: the BAR0 map, who reaches which page, what a read returns, what a write leaves,
and the commands EVT_PEND_CLEAR, EVT_FORCE, ERR_INFO_CLEAR, RC_READ and LO_READ_LATCH (R12 to R15, R510, R629 to R637). -/

namespace Sys2Proof.Machine

/-! ## The BAR0 map -/

/-- Type index, count and base of R629. -/
def pageTable : List (Nat × Nat × Nat) :=
  [(0, 1024, 0x0000000), (1, 256, 0x0400000), (2, 32, 0x0500000), (3, 16, 0x0520000), (4, 16, 0x0530000),
   (5, 42, 0x0540000), (6, 5, 0x0580000), (7, 24, 0x05D0000), (8, 1, 0x0598000), (9, 1, 0x0599000),
   (10, 16, 0x05A0000), (11, 1, 0x05B0000), (12, 16, 0x05B1000), (13, 1, 0x05C1000), (14, 1, 0x05C2000),
   (15, 1, 0x05C3000), (16, 1, 0x05C4000), (17, 1, 0x05C5000), (18, 1, 0x05C6000), (19, 1, 0x05C7000)]

/-- The page, instance and offset of a PF BAR0 address; none outside the listed pages (R629). -/
def pageAt (a : Nat) : Option (Nat × Nat × Nat) :=
  (pageTable.find? fun e => decide (e.2.2 ≤ a) && decide (a < e.2.2 + 4096 * e.2.1)).map fun e =>
    (e.1, (a - e.2.2) / 4096, (a - e.2.2) % 4096)

/-- The BAR0 address of a page of instance `n` (R629); 0 for a type that does not exist. -/
def pageBase (t n : Nat) : Nat :=
  match pageTable.find? fun e => e.1 == t with
  | some e => e.2.2 + 4096 * n
  | none => 0

/-- Offset of the HOSTIF view that responds to VF `c` (R506, R510). -/
def vfHostifOk (c o : Nat) : Bool :=
  decide (0x800 + 64 * c ≤ o ∧ o < 0x840 + 64 * c) || o == 0xC00 + 4 * c || o == 0x18 || o == 0x20

/-- The pages that a die pair reaches (R632). -/
def dieReach (d t i : Nat) : Bool :=
  match t with
  | 0 => i / 256 == d
  | 1 => i / 64 == d
  | 2 => i / 8 == d
  | 3 | 4 => i / 4 == d
  | 5 => decide (i < 16) && i / 4 == d
  | 6 => i == d
  | 13 | 14 => true
  | _ => false

/-- The register that an access of a requester reaches (R510, R632). A VF that is not enabled reaches nothing (R509), and in a reset C or
P nobody reaches anything (R586, R591). -/
def target (s : State) (r : Requester) (a : Nat) : Option (Nat × Nat × Nat) :=
  if s.inReset.isSome then none
  else match r with
  | .pf => pageAt a
  | .hubPair _ => pageAt a
  | .vf c =>
    if !vfEnabled s c then none
    else if a < 0x1000 then some (12, c, a)
    else if a < 0x2000 && vfHostifOk c (a - 0x1000) then some (11, 0, a - 0x1000)
    else none
  | .diePair d _ =>
    match pageAt a with
    | some (t, i, o) => if dieReach d t i then some (t, i, o) else none
    | none => none

/-- Host software, as against a control pair. -/
def isHost : Requester → Bool
  | .pf | .vf _ => true
  | .hubPair _ | .diePair _ _ => false

/-- A number for each requester. -/
def reqKey : Requester → Nat
  | .pf => 0
  | .vf c => c
  | .hubPair k => 16 + k
  | .diePair d k => 20 + 2 * d + k

/-! ## The common header and locks (R634 to R636) -/

/-- The pages whose HOST_RO is held at 1 (R636). -/
def fixedPage (t i : Nat) : Bool := t == 6 || (t == 10 && decide (i < 4))

/-- HOST_RO of a page type. -/
def hostRoFld (t : Nat) : Fld := { page := t, off := 0xC, lo := 0, w := 1, rst := 0, acc := .rw, cls := [.c, .p] }

/-- DENIED_WR of a page type. -/
def deniedFld (t : Nat) : Fld := { page := t, off := 0xC, lo := 16, w := 16, rst := 0, acc := .ro, cls := [.c, .p] }

/-- HOST_RO as the page reads it. -/
def hostRo (s : State) (t i : Nat) : Bool := fixedPage t i || isF s (hostRoFld t) i

/-- The module is debug-unlocked (R641). -/
def unlocked (s : State) : Bool := isF s DEBUG_STAT_UNLOCKED 0

/-- PAGE_ID, PAGE_REV, CAP and LOCK (R634, R636). -/
def readHeader (s : State) (t i o : Nat) : Nat :=
  match o with
  | 0 => t + i * 256
  | 4 => 0x0100
  | 8 => b2n (t != 16) + 2 * b2n (t == 11 || t == 12) + 4 * b2n (domOn s (pageDomain t i)) + 256 * pageDomain t i
  | 0xC => if t = 16 then 0 else b2n (hostRo s t i) + 2 * b2n (fixedPage t i) + 65536 * getF s (deniedFld t) i
  | _ => 0

/-! ## Reads -/

/-- The fields of a page type that stand in the word at offset `o`, with their element number. -/
def fldsAt (t o : Nat) : List (Fld × Nat) :=
  (fldsOf t).filterMap fun f =>
    if f.off ≤ o then
      if f.cnt = 1 then (if f.off = o then some (f, 0) else none)
      else if f.stride ≠ 0 ∧ (o - f.off) % f.stride = 0 ∧ (o - f.off) / f.stride < f.cnt then
        some (f, (o - f.off) / f.stride)
      else none
    else none

/-- The readable fields of a word, put together. -/
def readFlds (s : State) (i : Nat) : List (Fld × Nat) → Nat
  | [] => 0
  | (f, k) :: r =>
    (match f.acc with | .wo => 0 | _ => getFk s f i k % 2 ^ f.w * 2 ^ f.lo) + readFlds s i r

/-- The OR of CTX_EVT over contexts 0 to `n - 1` (R506). -/
def ctxEvtOr (s : State) : Nat → Nat
  | 0 => 0
  | n + 1 => ctxEvtOr s n ||| getFk s HOSTIF_CTX_EVT_EVT 0 n

/-- The object that PEEK_SEL chooses, as PEEK_DATA shows it (R371). Objects are keyed by home, kind and number. -/
def objKey (home kind n : Nat) : Nat := (home * 2 + kind) * 4096 + n

/-- An object. -/
def objOf (s : State) (k : Nat) : SyncObj := Store.get {} s.objs k

/-- PEEK_DATA of a SYNC page. -/
def peekData (s : State) (i : Nat) : Nat :=
  let o := objOf s (objKey i (getF s SYNC_PEEK_SEL_KIND i) (getF s SYNC_PEEK_SEL_OBJ i))
  let flag := getF s SYNC_PEEK_SEL_KIND i == 0
  o.count + 65536 * b2n o.ovf + 131072 * (if flag then 0 else o.gen) + 33554432 * (if flag then o.waiters.length else 0)

/-- The bits of a CHECK page's word that lie within the width of its algorithm: RUN reads 0 above it (R463). -/
def checkMask (s : State) (i o : Nat) : Nat :=
  let alg := getF s CHECK_CTRL_ALG i
  if o = 0x110 ∧ alg = 3 then 0xFFFF else if o = 0x114 ∧ alg ≠ 2 then 0 else 0xFFFFFFFF

/-- A register word below the common header, as the requester sees it, without side effects (R12, R506, R629, R633). -/
def readReg (s : State) (r : Requester) (t i o : Nat) : Nat :=
  if o < 0x10 then readHeader s t i o
  else if !domOn s (pageDomain t i) then 0
  else if o = 0x18 then
    getF s (pendFld t) i ||| (if t = 11 then 65536 * (match r with
      | .vf c => getFk s HOSTIF_CTX_EVT_EVT 0 c
      | _ => ctxEvtOr s 16) else 0)
  else if o = 0x1C then getF s (enFld t) i
  else if o = 0x20 then 0
  else if t = 6 && o = 0x614 then peekData s i
  else if t = 7 && o = 0x200 && i ≠ 0 then 0
  else if t = 16 then gaugeWord s o
  else if t = 10 then readFlds s i (fldsAt t o) &&& checkMask s i o
  else readFlds s i (fldsAt t o) ||| otherWord s t i o

/-- The word registers whose name ends in _LO (R630), by page type, offset, stride and count; the _HI partner follows. -/
def loRegs : List (Nat × Nat × Nat × Nat) :=
  [(3, 0x400, 8, 64), (7, 0x100, 0, 1), (7, 0x120, 0, 1), (10, 0x110, 0, 1), (10, 0x118, 0, 1), (10, 0x120, 0, 1),
   (11, 0x810, 64, 16), (12, 0x100, 64, 4), (12, 0x114, 64, 4), (16, 0x40, 0, 1), (16, 0x50, 0, 1), (16, 0x58, 0, 1),
   (16, 0x200, 8, 64)]

/-- The register at an offset has a name that ends in _LO. -/
def isLo (t o : Nat) : Bool :=
  loRegs.any fun e => e.1 == t && decide (e.2.1 ≤ o) &&
    (if e.2.2.1 = 0 then o == e.2.1 else (o - e.2.1) % e.2.2.1 == 0 && decide ((o - e.2.1) / e.2.2.1 < e.2.2.2))

/-- Key of a latched _HI word: requester, page and offset. -/
def latchKey (r : Requester) (t i o : Nat) : Nat := ((reqKey r * 32 + t) * 1024 + i) * 4096 + o

/-- Clear the RC fields of a word; a count that rises in the same hclk leaves them at 1 (R12, R15). -/
def rcClear (i inc : Nat) : List (Fld × Nat) → State → State
  | [], s => s
  | (f, k) :: r, s => rcClear i inc r (if f.acc = .rc then setFk f i k (if inc = 0 then 0 else 1) s else s)

/-- A 32-bit BAR0 read: the value and what the read leaves behind (R12, R15, R630). -/
def busRead (r : Requester) (a inc : Nat) (s : State) : Nat × State :=
  match target s r a with
  | none => (0, s)
  | some (t, i, o) =>
    if isLo t o then (readReg s r t i o, { s with hiLatch := s.hiLatch.put 0 (latchKey r t i (o + 4)) (readReg s r t i (o + 4) + 1) })
    else
      let l := s.hiLatch.get 0 (latchKey r t i o)
      if l ≠ 0 then (l - 1, { s with hiLatch := s.hiLatch.put 0 (latchKey r t i o) 0 })
      else if domOn s (pageDomain t i) then (readReg s r t i o, rcClear i inc (fldsAt t o) s)
      else (readReg s r t i o, s)

/-! ## Writes -/

/-- How a write is judged before it reaches the register (R510, R628, R633, R635, R636, R641). -/
inductive Gate where
  | pass
  | ignore
  /-- ignored under HOST_RO and counted -/
  | denied
deriving DecidableEq, Repr

/-- The judgement of a write to offset `o` of a page. -/
def gate (s : State) (r : Requester) (t i o : Nat) : Gate :=
  if t = 16 then .ignore
  else if isHost r && hostRo s t i && !unlocked s then .denied
  else if isHost r && o == 0xC then .ignore
  else if t == 12 && decide (r = .pf) && vfEnabled s i then .ignore
  else if !domOn s (pageDomain t i) && o ≠ 0xC then .ignore
  else .pass

/-- Count a write ignored under HOST_RO, saturating at 0xFFFF (R634). -/
def countDenied (t i : Nat) (s : State) : State := setF (deniedFld t) i (min 0xFFFF (getF s (deniedFld t) i + 1)) s

/-- Judge a write of the word at address `a`, and give it to `f` when it passes. -/
def guarded (r : Requester) (a : Nat) (f : Nat → Nat → Nat → State → State) (s : State) : State :=
  match target s r a with
  | none => s
  | some (t, i, o) =>
    match gate s r t i o with
    | .pass => f t i o s
    | .ignore => s
    | .denied => countDenied t i s

/-- The value that a write of word `v` gives a field. -/
def fldPart (f : Fld) (v : Nat) : Nat := bits v f.lo f.w

/-- Two's complement value of a byte. -/
def sext8 (v : Nat) : Int := if v % 256 ≥ 128 then (v % 256 : Int) - 256 else (v % 256 : Int)

/-- The role of a port (R372, R385). -/
def portRole (p : Nat) : Nat := if p < 14 then 1 else if p < 16 then 2 else if p < 19 then 3 else if p < 22 then 4 else 5

/-- Receive slots of a port (R382). -/
def portSlots (p : Nat) : Nat := if p < 22 then 512 else 2048

/-- The ranges that R188, R262, R403 and R507 lay over more than one field, and the state in which a register may be
written. -/
def crossOk (s : State) (t i o v : Nat) : Bool :=
  match t, o with
  | 1, 0x180 => decide (sext8 (bits v 16 8) ≤ sext8 (bits v 24 8))
  | 2, 0x114 => decide (bits v 0 11 + bits v 16 11 ≤ 0x600)
  | 7, 0x108 => bits v 17 3 == 0 || bits v 17 3 == portRole i
  | 7, 0x118 => decide (bits v 0 16 ≤ bits v 16 16)
  | 7, 0x11C => decide (getF s LINK_STAT_STATE i ≤ 1) && decide (bits v 0 12 + bits v 12 10 + bits v 22 10 ≤ portSlots i)
  | 7, 0x200 => i == 0
  | 13, 0x10 => false
  | 11, o =>
    if 0x800 ≤ o ∧ o < 0xC00 then
      let c := (o - 0x800) / 64
      let k := (o - 0x800) % 64
      (!(k == 0 || k == 4 || k == 0x24 || k == 0x28) || !stepIsOpen s c) && (k != 0x10 || v % 4096 == 0)
    else true
  | _, _ => true

/-- Every RW field of the word would stay in its range. -/
def rangesOk (v : Nat) (fs : List (Fld × Nat)) : Bool :=
  fs.all fun e => e.1.acc != .rw || (decide (e.1.rmin ≤ fldPart e.1 v) && decide (fldPart e.1 v ≤ e.1.rmax))

/-- Write the RW fields of a word that have no row of their own. -/
def writeFlds (i v : Nat) : List (Fld × Nat) → State → State
  | [], s => s
  | (f, k) :: r, s =>
    writeFlds i v r (if f.acc = .rw ∧ f.own = false then setFk f i k (fldPart f v) s else s)

/-- Write EVT_EN; an assertion that begins with it is signalled (R637). -/
def writeEn (t i v : Nat) (s : State) : State :=
  let s' := setF (enFld t) i (v &&& evtMask t) s
  if !asserted s t i && asserted s' t i then signalPage t i s' else s'

/-- The contexts below `n` whose CTX_EVT bits begin to assert when EVT_EN bits [19:16] change from `en` (R506). -/
def signalCtxEn (en : Nat) : Nat → State → State
  | 0, s => s
  | n + 1, s =>
    let s' := signalCtxEn en n s
    let e := getFk s' HOSTIF_CTX_EVT_EVT 0 n
    if (e &&& en) == 0 && (e &&& (getF s' (enFld 11) 0 / 65536)) != 0 then emit (.msix (ownerFn s' n) 4) s' else s'

/-- A port in HELD goes to DOWN when REV_CFG, EN or RECHECK is written, and starts training at once when AUTO_RETRAIN is
1 (R384). -/
def heldToDown (p : Nat) (s : State) : State :=
  if getF s LINK_STAT_STATE p = 6 then
    if isF s LINK_CTRL_AUTO_RETRAIN p then setF LINK_STAT_STATE p 2 s
    else setF LINK_STAT_STATE p 1 s
  else s

/-- A port in OFF goes to DOWN when EN is 1 and its role is used, and starts training at once when AUTO_RETRAIN is 1
(R384). -/
def leaveOff (p : Nat) (s : State) : State :=
  if getF s LINK_STAT_STATE p = 0 ∧ isF s LINK_CTRL_EN p ∧ getF s LINK_TOPO_PEER_ROLE p ≠ 0 then
    setF LINK_STAT_STATE p (if isF s LINK_CTRL_AUTO_RETRAIN p then 2 else 1) s
  else s

/-- What a register write moves beyond its fields: a Weir's level stays within a new BURST (R308), a HELD port leaves
HELD and a used port leaves OFF (R384). -/
def afterWrite (t i o : Nat) (s : State) : State :=
  match t with
  | 4 =>
    if 0x100 ≤ o ∧ o < 0x180 then
      let p := (o - 0x100) / 8
      setFk WEIR_LVL i p (min (getFk s WEIR_LVL i p) (getFk s WEIR_CFG_BURST i p)) s
    else s
  | 7 => if o = 0x118 then heldToDown i s else if o = 0x108 then leaveOff i s else s
  | _ => s

/-- A 32-bit write that has passed the gate. -/
def writeWord (v t i o : Nat) (s : State) : State :=
  if o = 0xC then (if fixedPage t i then s else setF (hostRoFld t) i (v % 2) s)
  else if o = 0x1C then
    (if t = 11 then signalCtxEn (getF s (enFld 11) 0 / 65536) 16 (writeEn t i v s) else writeEn t i v s)
  else if o < 0x28 ∧ o ≠ 0x10 then s
  else if rangesOk v (fldsAt t o) && crossOk s t i o v then afterWrite t i o (writeFlds i v (fldsAt t o) s)
  else s

/-- Clear event bits, except those that an event raises in the same hclk (R12, R14). -/
def clearPend (t i v raised : Nat) (s : State) : State :=
  let old := getF s (pendFld t) i
  let new := (old ^^^ (old &&& v)) ||| (raised &&& evtMask t)
  let s' := setF (pendFld t) i new s
  if !asserted s t i && asserted s' t i then signalPage t i s' else s'

/-- Clear CTX_EVT bits of one context. -/
def clearCtxEvt (c v raised : Nat) (s : State) : State :=
  let old := getFk s HOSTIF_CTX_EVT_EVT 0 c
  setFk HOSTIF_CTX_EVT_EVT 0 c ((old ^^^ (old &&& v)) ||| raised % 16) s

/-- Clear CTX_EVT bits of contexts 0 to `n - 1`; bits `4 c` to `4 c + 3` of `raised` are the events of context `c` in the same hclk
(R14, R506). -/
def clearCtxEvts (v raised : Nat) : Nat → State → State
  | 0, s => s
  | n + 1, s => clearCtxEvt n v (bits raised (4 * n) 4) (clearCtxEvts v raised n s)

/-- Event bits that are raised again in every hclk: CQ_FULL while an entry of the context waits for room (R517). -/
def stillRaised (s : State) (t i : Nat) : Nat :=
  if t = 12 ∧ (ctxOf s i).queues.any (fun e => !e.2.held.isEmpty) then 2 else 0

/-- A write to EVT_PEND or to CTX_EVT that has passed the gate (R506). Where the write reaches bits [19:16] of every context, bits
16 + 4 `c` to 19 + 4 `c` of `raised` are the events of context `c` (log entry 116). -/
def pendWrite (r : Requester) (v raised t i o : Nat) (s : State) : State :=
  if o = 0x18 then
    if t = 11 then
      match r with
      | .vf c => clearCtxEvt c (v / 65536) (raised / 65536) s
      | _ => clearCtxEvts (v / 65536) (raised / 65536) 16 (clearPend t i (v % 65536) (raised % 65536) s)
    else clearPend t i v (raised ||| stillRaised s t i) s
  else if t = 11 ∧ 0xC00 ≤ o ∧ o < 0xC40 then clearCtxEvt ((o - 0xC00) / 4) v raised s
  else s

/-- EVT_PEND_CLEAR: a write of `v` to a W1C event register while the events `raised` occur in the same hclk (R12, R14). -/
def evtPendClear (r : Requester) (a v raised : Nat) (s : State) : State :=
  if a % 4 = 0 then guarded r a (pendWrite r v raised) s else s

/-- EVT_PEND_CLEAR. -/
def execEvtPendClear (r : Requester) (a v raised : Nat) (s : State) : Host.Outcome State Fault Refusal :=
  .next (evtPendClear r a v raised s)

/-- Set the CTX_EVT bits of `v` in a context. -/
def forceCtxEvt (c v : Nat) (s : State) : State :=
  let f := fun b s => if v.testBit b then setCtxEvt c b s else s
  f 3 (f 2 (f 1 (f 0 s)))

/-- A write to EVT_FORCE that has passed the gate (R113, R506). -/
def forceWrite (r : Requester) (v t i o : Nat) (s : State) : State :=
  if o = 0x20 then
    if t = 11 then
      match r with
      | .vf c => forceCtxEvt c (v / 65536) s
      | _ => forceCtxEvt 0 (v / 65536) (pend t i (v % 65536) s)
    else pend t i v s
  else s

/-- EVT_FORCE: writing 1 to a bit sets that bit in EVT_PEND. -/
def evtForce (r : Requester) (a v : Nat) (s : State) : State :=
  if a % 4 = 0 then guarded r a (forceWrite r v) s else s

/-- EVT_FORCE. -/
def execEvtForce (r : Requester) (a v : Nat) (s : State) : Host.Outcome State Fault Refusal :=
  .next (evtForce r a v s)

/-- Return every field of a word to its reset value. -/
def clearFlds (i : Nat) : List (Fld × Nat) → State → State
  | [], s => s
  | (f, k) :: r, s => clearFlds i r (setFk f i k (fldReset f i) s)

/-- The fault registers that a write of any value clears: ERR_INFO (R12), and BT_ERR, STASH_ERR and LIST_ERR of a CLUSTER
page (R219, R294, R667). -/
def isErrReg (t o : Nat) : Bool := o == 0x24 || (t == 1 && (o == 0x190 || o == 0x194 || o == 0x198))

/-- A write to a fault register that has passed the gate; ERR_INFO of a MEMCTL page records the next uncorrectable read (R338). -/
def errWrite (t i o : Nat) (s : State) : State :=
  if isErrReg t o then
    clearFlds i (fldsAt t o) (if t = 3 then modMc i (fun x => { x with errUsed := false }) s else s)
  else s

/-- ERR_INFO_CLEAR: a write of any value clears the RO fields of the register (R12). -/
def errInfoClear (r : Requester) (a : Nat) (_v : Nat) (s : State) : State :=
  if a % 4 = 0 then guarded r a errWrite s else s

/-- ERR_INFO_CLEAR. -/
def execErrInfoClear (r : Requester) (a v : Nat) (s : State) : Host.Outcome State Fault Refusal :=
  .next (errInfoClear r a v s)

/-- RC_READ: the read returns the value and then clears it; a count that rises in the same hclk ends at 1 (R12, R15). -/
def rcRead (r : Requester) (a inc : Nat) (s : State) : State :=
  emit (.regRead (busRead r a inc s).1) (busRead r a inc s).2

/-- RC_READ. -/
def execRcRead (r : Requester) (a inc : Nat) (s : State) : Host.Outcome State Fault Refusal :=
  .next (rcRead r a inc s)

/-- LO_READ_LATCH: a read of a _LO register latches its _HI partner for the requester (R630). -/
def loReadLatch (r : Requester) (a : Nat) (s : State) : State :=
  emit (.regRead (busRead r a 0 s).1) (busRead r a 0 s).2

/-- LO_READ_LATCH. -/
def execLoReadLatch (r : Requester) (a : Nat) (s : State) : Host.Outcome State Fault Refusal :=
  .next (loReadLatch r a s)

end Sys2Proof.Machine
end

