-- ==== Sys2Proof/Machine/Commands.lean ====
section
/-! DEFINITION. The command path of the host interface: handles and their slots, the form of command descriptors, starting a
command, engine reports and completion entries (R513 to R531). -/

namespace Sys2Proof.Machine

/-! ## Handles -/

/-- The handle of a slot of context `c` (R519). -/
def handleOf (c slot gen : Nat) : Nat := gen * 1048576 + c * 65536 + slot

/-- The context in a handle. -/
def hCtx (h : Nat) : Nat := bits h 16 4

/-- The slot within the context in a handle. -/
def hSlot (h : Nat) : Nat := bits h 0 16

/-- The generation in a handle. -/
def hGen (h : Nat) : Nat := bits h 20 12

/-- A slot of a context. -/
def slotOf (s : State) (c n : Nat) : Slot := (ctxOf s c).slots.get {} n

/-- Change a slot. -/
def modSlot (c n : Nat) (f : Slot → Slot) (s : State) : State :=
  modCtx c (fun x => { x with slots := x.slots.upd {} n f }) s

/-- A queue of a context. -/
def queueOf (s : State) (c q : Nat) : Queue := (ctxOf s c).queues.get {} q

/-- Change a queue. -/
def modQueue (c q : Nat) (f : Queue → Queue) (s : State) : State :=
  modCtx c (fun x => { x with queues := x.queues.upd {} q f }) s

/-- A handle names a slot in use with its current generation (R521) whose COMPLETE has not been posted. -/
def handleLive (s : State) (h : Nat) : Bool :=
  let sl := slotOf s (hCtx h) (hSlot h)
  sl.inUse && sl.gen == hGen h && decide (h < two32) && !sl.ended

/-- The generation after `g`: 0x001 to 0xFFF, then 0x001 again (R519). -/
def nextGen (g : Nat) : Nat := if g ≥ 0xFFF then 1 else g + 1

/-- The next free slot of a context: slots never used in ascending order, then slots in the order in which they were freed
(R520, log entry 8). -/
def nextSlot (x : Ctx) : Option (Nat × Ctx) :=
  if x.fresh < 65536 then some (x.fresh, { x with fresh := x.fresh + 1 })
  else match x.freed with
    | n :: r => some (n, { x with freed := r })
    | [] => none

/-! ## Command descriptors (R522, R523, R525) -/

/-- Argument A`n` of a submission entry. -/
def argOf (e : List Byte) (n : Nat) : Nat := leVal ((e.drop (8 + 8 * n)).take 8)

/-- OPCODE of a submission entry. -/
def opOf (e : List Byte) : Nat := leVal (e.take 1)

/-- USER of a submission entry. -/
def userOf (e : List Byte) : Nat := leVal ((e.drop 4).take 4)

/-- FENCE of a submission entry. -/
def fenceOf (e : List Byte) : Bool := bit (leVal ((e.drop 1).take 1)) 0

/-- The bits that each argument of a command may set (R525); none for an opcode that is not in the table. -/
def argMasks : Nat → Option (List Nat)
  | 0x01 => some []
  | 0x02 => some [0xFFFFFFFF]
  | 0x03 => some [0xFFFFFFFFFFFFFFC0, 0xFFFFFFFFFFFFFFFF, 0xFFFFFFFFFFFFFFFF, 0xFFFFFFFFFFFFFFFF]
  | 0x10 => some [0xFFFFFFFFFFFFFFFF]
  | 0x11 => some [0xFFFFFFFFF0, 0xFFFFFFF000, 0xFFFFFFF000, 0xFFFFFFFFC0, 0xFFFFFFFFFF]
  | 0x12 => some [0xFFFFFFFFFF]
  | 0x20 => some [0xFFFFFFFFFFFFFFFF, 0xFFFFFFFFFFFFFFFF, 0x7FFFFFFFF, 0xFFFFFFFF]
  | 0x21 => some [0xFFFFFFFFFFFFFFFF, 0xFFFFFFFFFFFFFFFF, 0x7]
  | 0x30 => some [0x3FFFFFFFF, 0xFFFFFFFFFFFFFFFF, 0xFFFFFFFFFFFFFFFF, 0xFFFFFFFFFF, 0x7F]
  | 0x31 => some [0xFFFFFFFFFFFFFFFF, 0x3FFFFFFFF, 0xFFFFFFFFFF]
  | 0x40 => some [0xF, 0xFFFFFFFFFF]
  | 0x41 => some [0x1FFF]
  | 0x50 => some [0xFFFFFFFFFF, 0xFFFFFFFFFFFFFFFF]
  | 0x51 => some [0xFFFFFFFFFFFFFFFF, 0xFFFFFFFFFFFFFFFF]
  | 0x52 => some [0xFFFFFFFF]
  | 0x60 | 0x61 | 0x62 => some [0xF]
  | _ => none

/-- Arguments from `n` on set no bit outside their masks; unused arguments are 0. -/
def masksOk (e : List Byte) : Nat → Nat → List Nat → Bool
  | 0, _, _ => true
  | k + 1, n, ms => (argOf e n &&& (2 ^ 64 - 1 - ms.headD 0)) == 0 && masksOk e k (n + 1) ms.tail

/-- Lengths and counts in range, and arguments that only some forms of a command use (R523, R525). -/
def rangeOk (e : List Byte) : Bool :=
  match opOf e with
  | 0x03 => decide (36800 ≤ argOf e 1)
  | 0x20 =>
    let len := bits (argOf e 2) 0 32
    let dir := bits (argOf e 2) 32 2
    decide (len ≠ 0) && len % 64 == 0 && (bit (argOf e 2) 34 || argOf e 3 == 0) &&
    (if dir = 0 then decide (argOf e 1 < 1099511627776)
     else if dir = 1 then decide (argOf e 0 < 1099511627776)
     else dir == 2 && decide (argOf e 0 < 1099511627776) && decide (argOf e 1 < 1099511627776))
  | 0x21 | 0x51 => decide (argOf e 1 ≠ 0)
  | 0x30 =>
    let kind := bits (argOf e 0) 32 2
    (kind == 1 || kind == 2) && decide (argOf e 2 ≠ 0) && decide (argOf e 4 ≤ 64) &&
      (kind == 2 || decide (argOf e 1 < 1099511627776))
  | 0x31 =>
    let src := bits (argOf e 1) 32 2
    decide (bits (argOf e 1) 0 32 ≠ 0) && decide (src ≠ 0) && decide (argOf e 0 < 1099511627776)
  | 0x50 => decide (argOf e 1 ≠ 0)
  | _ => true

/-- R523: the descriptor is one of the table with every must-be-0 bit and unused argument 0. -/
def cmdValid (e : List Byte) : Bool :=
  match argMasks (opOf e) with
  | none => false
  | some ms =>
    leVal ((e.drop 1).take 1) < 2 && leVal ((e.drop 2).take 2) == 0 && masksOk e 7 0 ms && rangeOk e

/-- The commands that R525 reserves to the PF on a queue of context 0. -/
def pfOnly (op : Nat) : Bool :=
  op == 0x40 || op == 0x41 || op == 0x50 || op == 0x51 || op == 0x52 || op == 0x61 || op == 0x62

/-- A command that its issuer may not give (R523, R525): one reserved to the PF elsewhere than on context 0, or CTX_RESET
of a context of another function elsewhere than on context 0. -/
def cmdDenied (s : State) (c : Nat) (e : List Byte) : Bool :=
  (pfOnly (opOf e) && c != 0) || (opOf e == 0x60 && c != 0 && ownerFn s (argOf e 0) != ownerFn s c)

/-! ## Reports and completion entries -/

/-- An engine reports the end of a command to the hub (R521). -/
def report (h st r0 r1 : Nat) (s : State) : State :=
  { s with reports := s.reports ++ [{ handle := h, status := st, r0 := r0, r1 := r1 }] }

/-- The row of a started command takes the command up: its entry is given to `f`. A handle that names no started command
of this opcode changes nothing. -/
def runCmd (h op : Nat) (f : List Byte → State → State) (s : State) : State :=
  let sl := slotOf s (hCtx h) (hSlot h)
  if handleLive s h && sl.started && !sl.running && opOf sl.entry == op then
    f sl.entry (modSlot (hCtx h) (hSlot h) (fun x => { x with running := true }) s)
  else s

/-- Put a taken-up command back, to be tried again. -/
def unrunCmd (h : Nat) (s : State) : State := modSlot (hCtx h) (hSlot h) (fun x => { x with running := false }) s

/-- The command waits for its turn, or has got it (R528). -/
def setTurn (h : Nat) (b : Bool) (s : State) : State := modSlot (hCtx h) (hSlot h) (fun x => { x with waitTurn := b }) s

/-- The entry of a live handle. -/
def entryOf (s : State) (h : Nat) : List Byte := (slotOf s (hCtx h) (hSlot h)).entry

/-- A completion entry with PHASE 0 (R516). -/
def cqEntry (h w2 type q op user r0 r1 : Nat) : List Byte :=
  leBytes 4 h ++ leBytes 2 w2 ++ leBytes 1 (2 * type + 4 * q) ++ leBytes 1 op ++ leBytes 4 user ++ leBytes 4 0
    ++ leBytes 8 r0 ++ leBytes 8 r1

/-- TYPE of a completion entry is COMPLETE. -/
def isComplete (e : List Byte) : Bool := bit (leVal ((e.drop 6).take 1)) 1

/-- Entries that the completion ring holds. -/
def cqSize (s : State) (c q : Nat) : Nat := 2 ^ getFk s CQ_CQ_CFG_LOG2_ENTRIES c q

/-- The completion ring takes an entry: it is enabled and has room (R517). -/
def cqRoom (s : State) (c q : Nat) : Bool := getFk s CQ_CQ_CFG_EN c q != 0 && decide ((queueOf s c q).used < cqSize s c q)

/-- Free a slot: its generation advances (R520). -/
def freeSlot (c n : Nat) (s : State) : State :=
  let sl := slotOf s c n
  let s := modSlot c n (fun x => { gen := nextGen x.gen }) s
  setF CQ_SLOTS_USED c (getF s CQ_SLOTS_USED c - 1)
    (modQueue c sl.sq (fun x => { x with active := x.active.filter (· ≠ n), waiting := x.waiting.filter (· ≠ n) })
      (modCtx c (fun x => { x with freed := x.freed ++ [n] }) s))

/-- Signal a completion queue's vector (R531). -/
def cqSignal (c q : Nat) (s : State) : State :=
  modQueue c q (fun x => { x with coal := 0 }) (emit (.msix (ownerFn s c) q) s)

/-- Write one entry into the completion ring, with its PHASE; a COMPLETE frees its slot and may signal the queue's vector
(R516, R520, R531). -/
def cqWrite (c q : Nat) (e : List Byte) (s : State) : State :=
  let Q := queueOf s c q
  let size := cqSize s c q
  let t := getFk s CQ_CQ_TAIL c q
  let base := getFk s CQ_CQ_BASE_LO c q * 4096 + two32 * getFk s CQ_CQ_BASE_HI c q
  let ph := if Q.odd then 0 else 1
  let b6 := leVal ((e.drop 6).take 1) + ph
  let s := hostWrite (base + 32 * t) (e.take 6 ++ leBytes 1 b6 ++ e.drop 7) s
  let s := setFk CQ_CQ_TAIL c q ((t + 1) % size)
    (modQueue c q (fun x => { x with used := x.used + 1, odd := if t + 1 ≥ size then !x.odd else x.odd }) s)
  if isComplete e then
    let s := freeSlot c (hSlot (leVal (e.take 4))) (incr CQ_COMPLETED c s)
    let s := modQueue c q (fun x => { x with coal := x.coal + 1 }) s
    if (queueOf s c q).coal ≥ getFk s CQ_CQ_CFG_COAL_CNT c q + 1 then cqSignal c q s else s
  else incr CQ_ACCEPTED c s

/-- Post an entry: it is written while the ring has room and nothing waits before it, and is held otherwise (R517). -/
def cqPost (c q : Nat) (e : List Byte) (s : State) : State :=
  if (queueOf s c q).held.isEmpty && cqRoom s c q then cqWrite c q e s
  else setEvt CQ_EV_CQ_FULL c (modQueue c q (fun x => { x with held := x.held ++ [e] }) s)

/-- Write held entries while the ring has room, at most `n` of them. -/
def cqDrain (c q : Nat) : Nat → State → State
  | 0, s => s
  | n + 1, s =>
    match (queueOf s c q).held with
    | e :: r => if cqRoom s c q then cqDrain c q n (cqWrite c q e (modQueue c q (fun x => { x with held := r }) s)) else s
    | [] => s

/-- The hub holds 64 entries for the queue, so further ends wait in their crossings and nothing is fetched (R517). -/
def cqStuck (s : State) (c q : Nat) : Bool := decide (64 ≤ (queueOf s c q).held.length)

/-- The COMPLETE of a live handle is posted; from now on the handle names no command to be ended (R516, R521). -/
def endCmd (h st r0 r1 : Nat) (s : State) : State :=
  let sl := slotOf s (hCtx h) (hSlot h)
  cqPost (hCtx h) sl.sq (cqEntry h st 1 sl.sq (opOf sl.entry) (userOf sl.entry) r0 r1)
    (modQueue (hCtx h) sl.sq (fun x => { x with waiting := x.waiting.filter (· ≠ hSlot h) })
      (modSlot (hCtx h) (hSlot h) (fun x => { x with ended := true }) s))

end Sys2Proof.Machine
end

