-- ==== Sys2Proof/Machine/Journal.lean ====
section
/-! DEFINITION. Raising journal records (R493 to R498): a record waits with its writer until the hub appends it. -/

namespace Sys2Proof.Machine

/-- The STEP_OPEN record of step `n` still waits for the ring, so no product of the step may begin (R52, R498). -/
def openHeld (s : State) (c n : Nat) : Bool :=
  (ctxOf s c).jwait.any fun r => r.type == 1 && leVal (r.payload.take 4) == n

/-- JRN_CFG.EN of context `c`. -/
def jrnOn (s : State) (c : Nat) : Bool := getFk s HOSTIF_JRN_CFG_EN 0 c != 0

/-- Raise a record of context `c`'s own work (R496); nothing is recorded while the context's journal is off. -/
def jrnCtx (c type src : Nat) (payload : List Byte) (s : State) : State :=
  if jrnOn s c then modCtx c (fun x => { x with jwait := x.jwait ++ [⟨type, src, payload⟩] }) s else s

/-- The contexts below `n` whose journals are on. -/
def jrnOnList (s : State) : Nat → List Nat
  | 0 => []
  | n + 1 => jrnOnList s n ++ (if jrnOn s n then [n] else [])

/-- Raise a module-wide record: every context whose journal is on receives it (R496). -/
def jrnWide (type src : Nat) (payload : List Byte) (s : State) : State :=
  if jrnOnList s 16 = [] then s else { s with jwide := s.jwide ++ [(⟨type, src, payload⟩, jrnOnList s 16)] }

/-- Source of a cluster or unit: KIND 0 (R493). -/
def srcUnit (u : Nat) : Nat := u % 1024

/-- Source of cluster `cl` (die × 64 + region × 8 + cluster). -/
def srcCluster (cl : Nat) : Nat := cl % 256 * 4

/-- Source of the root sequencer of region `rg` (die × 8 + region): KIND 1. -/
def srcSeq (rg : Nat) : Nat := rg % 32 * 32 + 1024

/-- Source of memory controller `m` (die × 4 + stack): KIND 2 with the first region under the stack. -/
def srcMc (m : Nat) : Nat := m / 4 * 256 + m % 4 * 2 * 32 + 2048

/-- Source of the hub or a control pair: KIND 3. -/
def srcHub : Nat := 3072

/-- The highest step open among contexts below `n`. -/
def highestOpen (s : State) : Nat → Option Nat
  | 0 => none
  | n + 1 =>
    (ctxOf s n).steps.foldl (fun a x => match a with
      | none => some x.step
      | some b => some (max b x.step)) (highestOpen s n)

/-- STEP of a module-wide record: the highest step open in any context, or the last step closed (R333). -/
def wideStep (s : State) : Nat := (highestOpen s 16).getD s.lastClosed

/-- MEM_EVT (R333): `chan` is the channel within the die, `row` the row or the temperature. -/
def memEvt (m kind chan row : Nat) (s : State) : State :=
  jrnWide 0x40 (srcMc m)
    (leBytes 4 (wideStep s) ++ leBytes 1 kind ++ leBytes 1 (m / 4 + 4 * (m % 4)) ++ leBytes 1 chan ++ leBytes 1 0
      ++ leBytes 4 row ++ leBytes 4 0) s

/-! ## The replayed journal (R501 to R503) -/

/-- Context `c` is in replay mode (R501). -/
def replayOn (s : State) (c : Nat) : Bool := getFk s HOSTIF_RPL_CFG_EN 0 c != 0

/-- `n` bytes at offset `o` of a payload. -/
def pay (p : List Byte) (o n : Nat) : Nat := leVal ((p.drop o).take n)

/-- The payloads of a type in the replayed journal that meet a test. -/
def rplAll (s : State) (c type : Nat) (f : List Byte → Bool) : List (List Byte) :=
  ((ctxOf s c).rpl.filter fun r => r.type == type && f r.payload).map (·.payload)

/-- The first such payload. -/
def rplFind (s : State) (c type : Nat) (f : List Byte → Bool) : Option (List Byte) := (rplAll s c type f).head?

/-- A replay decision of a cluster differed from the journal (R185, R187). DESIGN CHOICE (log entry 107): each of these settings counts, also
while the bit is pending, and a setting by EVT_FORCE does not. -/
def replayDiv (cl : Nat) (s : State) : State := setEvt CLUSTER_EV_REPLAY_DIV cl (incr CLUSTER_REPLAY_DIV_CNT cl s)

end Sys2Proof.Machine
end

