-- ==== Sys2Proof/Machine/Sluice.lean ====
section
/-! DEFINITION. The Sluice arbiter: stamping, slack, pinning and the choice of the next grant (R342 to R348). -/

namespace Sys2Proof.Machine

/-- NOW of a Sluice's page. -/
def slNow (s : State) (n : Nat) : Nat := getF s SLUICE_NOW (sluicePage n)

/-- The Sluice that keeps the wraps of its page's NOW. -/
def slHome (n : Nat) : Nat := if n < 512 then n / 32 * 32 else n

/-- Cycles of the Sluice's clock since reset: NOW with its wraps. -/
def slClock (s : State) (n : Nat) : Nat := (sluiceOf s (slHome n)).laps * 65536 + slNow s n

/-- `dt` cycles of the Sluice's clock pass (R343). -/
def slTick (n dt : Nat) (s : State) : State :=
  setF SLUICE_NOW (sluicePage n) ((slNow s n + dt) % 65536)
    (modSluice (slHome n) (fun x => { x with laps := x.laps + (slNow s n + dt) / 65536 }) s)

/-- Two's complement value of a 16-bit word. -/
def sext16 (v : Nat) : Int := if v % 65536 ≥ 32768 then (v % 65536 : Int) - 65536 else (v % 65536 : Int)

/-- The slack of a request (R344); a pinned request stays at −16,383 (R345). -/
def slack (now : Nat) (q : SlReq) : Int := if q.pinned then -16383 else sext16 (q.d + 65536 - now % 65536)

/-- Queue depth of a Sluice (R342). -/
def slDepth (n : Nat) : Nat := if n < 512 then 64 else if n < 536 then 32 else if n = 536 then 64 else 128

/-- The Sluice has room for another request. -/
def slRoom (s : State) (n : Nat) : Bool := decide ((sluiceOf s n).queue.length < slDepth n)

/-- In priority mode, a read of a class in PRIO_MASK is urgent as it enters (R306). -/
def slPrefers (s : State) (n : Nat) (pay : SlPay) : Bool :=
  match pay with
  | .mem m => !isF s MEMCTL_CTRL_MODE (n / 32) && !m.write && decide (m.cls < 8)
      && (getF s MEMCTL_PRIO_MASK_CLASSES (n / 32)).testBit m.cls
  | _ => false

/-- Enter a request: its latest-service time is NOW plus the budget, at most 16,384 (R343). -/
def slEnter (n r budget beats : Nat) (pay : SlPay) (s : State) : State :=
  modSluice n (fun q => { q with queue := q.queue ++
    [{ r := r, d := (slNow s n + min budget 16384) % 65536, entered := slClock s n, urgent := slPrefers s n pay,
       beats := beats, pay := pay }] }) s

/-- Urgency (R306, R307): a request that was urgent as it entered stays so, and in priority mode a request whose deadline has
passed becomes urgent. -/
def slUrgent (prio : Bool) (now : Nat) (q : SlReq) : Bool := q.urgent || (prio && decide (slack now q < 0))

/-- Priority mode ends on stack `m`: the requests that are overdue keep the urgency that they have gained (R307, log entry 113). The
Sluices of channels 32 `m` to 32 `m` + `k` - 1. -/
def keepUrgent (m : Nat) : Nat → State → State
  | 0, s => s
  | k + 1, s =>
    let n := 32 * m + k
    modSluice n (fun x => { x with queue := x.queue.map fun q => { q with urgent := slUrgent true (slNow s n) q } })
      (keepUrgent m k s)

/-- The order of a decision: urgent requests first, then the smaller slack, then round robin from the requester granted
last (R306, R346). -/
def slBefore (prio : Bool) (now last : Nat) (a b : SlReq) : Bool :=
  let ua := slUrgent prio now a
  let ub := slUrgent prio now b
  let ra := (a.r + 63 - last) % 32
  let rb := (b.r + 63 - last) % 32
  if ua != ub then ua
  else if slack now a != slack now b then decide (slack now a < slack now b)
  else decide (ra < rb)

/-- The winner among the requests of a queue. -/
def slBest (prio : Bool) (now last : Nat) : List SlReq → Option SlReq
  | [] => none
  | q :: r =>
    match slBest prio now last r with
    | none => some q
    | some b => if slBefore prio now last b q then some b else some q

/-- The head request of each requester, which alone competes (R347, log entry 115); `seen` are the requesters met so far. -/
def slHeads : List Nat → List SlReq → List SlReq
  | _, [] => []
  | seen, q :: r => if seen.contains q.r then slHeads seen r else q :: slHeads (q.r :: seen) r

/-- The requester to serve next: the owner of the grant, whose head is served next, otherwise the winner of a decision among the
heads (R346, R347); the second part says that a decision was made. Only requests of `ok` take part. -/
def slNext (s : State) (n : Nat) (prio : Bool) (ok : SlReq → Bool) : Option (Nat × Bool) :=
  let q := sluiceOf s n
  let cand := (slHeads [] q.queue).filter ok
  let fresh := (slBest prio (slNow s n) q.last cand).map fun w => (w.r, true)
  match q.owner with
  | some (r, _) => if cand.any (fun x => x.r == r) then some (r, false) else fresh
  | none => fresh

/-- Record the wait of a served request: its first beat starts in the cycle after the deciding one (R348). -/
def slCount (n : Nat) (q : SlReq) (s : State) : State :=
  let p := sluicePage n
  let w := slClock s n + 1 - q.entered
  setFk SLUICE_MAX_WAIT p q.r (max w (getFk s SLUICE_MAX_WAIT p q.r)) (addFk SLUICE_WAIT_CYC p q.r w s)

/-- The grant after a beat of requester `r`, which has issued `used` beats under it: it ends when no request of the owner is left
in the queue or its burst is used up (R347). -/
def slOwner (s : State) (n r used : Nat) (rest : List SlReq) : Option (Nat × Nat) :=
  if rest.any (fun x => x.r == r) && decide (used ≤ getFk s SLUICE_REQ_CFG_BURST_M1 (sluicePage n) r) then some (r, used)
  else none

/-- Serve the head request of requester `r` among those of `ok`: it leaves the queue, the grant's counts move, and the
request is answered. -/
def slServe (n r : Nat) (fresh : Bool) (ok : SlReq → Bool) (s : State) : Option (SlReq × State) :=
  match takeFirst (fun x => x.r == r && ok x) (sluiceOf s n).queue with
  | none => none
  | some (q, rest) =>
    let p := sluicePage n
    let s := if fresh then addFk SLUICE_GRANT_CNT p r 1 (incr SLUICE_DECISIONS p s) else s
    let used := (if fresh then 0 else match (sluiceOf s n).owner with | some (_, u) => u | none => 0) + q.beats
    some (q, slCount n q (modSluice n (fun x =>
      { x with queue := rest, last := if fresh then r else x.last, owner := slOwner s n r used rest }) s))

/-- Operation `op` of requester `r` of a hub engine's Sluice is granted, so that it may start (R366). -/
def hubGranted (s : State) (n r op : Nat) : Bool := (sluiceOf s n).granted.contains (r, op)

/-- A granted operation starts. -/
def hubTake (n r op : Nat) (s : State) : State :=
  modSluice n (fun x => { x with granted := x.granted.filter (· ≠ (r, op)) }) s

/-- A context's operations leave a hub engine's Sluice. -/
def hubDrop (n c : Nat) (s : State) : State :=
  modSluice n (fun x => { x with
    queue := x.queue.filter fun q => q.r != c, granted := x.granted.filter fun e => e.1 != c }) s

/-- Count the waiting requests whose slack has become negative, once each (R348). -/
def slMisses (n : Nat) : List SlReq → State → List SlReq × State
  | [], s => ([], s)
  | q :: r, s =>
    if !q.missed && decide (slack (slNow s n) q < 0) then
      let e := slMisses n r (setEvt SLUICE_EV_MISS (sluicePage n) (addFk SLUICE_MISS_CNT (sluicePage n) q.r 1 s))
      ({ q with missed := true } :: e.1, e.2)
    else
      let e := slMisses n r s
      (q :: e.1, e.2)

/-- SLUICE_DEADLINE_MISS: after `dt` cycles, requests whose slack first is negative are counted (R348). -/
def sluiceDeadlineMiss (n dt : Nat) (s : State) : State :=
  let s := slTick n dt s
  let e := slMisses n (sluiceOf s n).queue s
  modSluice n (fun x => { x with queue := e.1 }) e.2

/-- SLUICE_DEADLINE_MISS. -/
def execSluiceDeadlineMiss (n dt : Nat) (s : State) : Host.Outcome State Fault Refusal :=
  .next (runningIn (sluiceDomain n) s (sluiceDeadlineMiss n dt s))

/-- Pin the waiting requests whose slack has reached −16,383 (R345). -/
def slPins (n : Nat) : List SlReq → State → List SlReq × State
  | [], s => ([], s)
  | q :: r, s =>
    if !q.pinned && decide (slack (slNow s n) q ≤ -16383) then
      let e := slPins n r (setEvt SLUICE_EV_PIN (sluicePage n) (incr SLUICE_PINNED_CNT (sluicePage n) s))
      ({ q with pinned := true } :: e.1, e.2)
    else
      let e := slPins n r s
      (q :: e.1, e.2)

/-- SLUICE_PIN: after `dt` cycles, requests whose slack has reached −16,383 are pinned (R345). -/
def sluicePin (n dt : Nat) (s : State) : State :=
  let s := slTick n dt s
  let e := slPins n (sluiceOf s n).queue s
  modSluice n (fun x => { x with queue := e.1 }) e.2

/-- SLUICE_PIN. -/
def execSluicePin (n dt : Nat) (s : State) : Host.Outcome State Fault Refusal := .next (runningIn (sluiceDomain n) s (sluicePin n dt s))

end Sys2Proof.Machine
end

