-- ==== Sys2Proof/Machine/Memory.lean ====
section
/-! DEFINITION. Memory requests, Weirs, error correction, the repair ladder, retraining and maintenance windows (R295 to
R341). -/

namespace Sys2Proof.Machine

/-! ## Requests and Weirs -/

/-- Hand an answer to the requester. -/
def respond (eng tag : Nat) (st : MemStatus) (data : List Byte) (s : State) : State :=
  { s with responses := s.responses ++ [{ eng := eng, tag := tag, status := st, data := data }] }

/-- The engine that issues a request: the die, the context and the class (R305, R325). -/
def engineOf (d ctx cls : Nat) : Nat := d * 256 + ctx * 16 + cls

/-- The engine of a queued request. -/
def MemReq.eng (q : MemReq) : Nat := engineOf q.die q.ctx q.cls

/-- Put an answer in the place of a read that waits for it; an answer that no place waits for comes last. -/
def fillResp (eng tag : Nat) (st : MemStatus) (data : List Byte) : List MemResp → List MemResp
  | [] => [{ eng := eng, tag := tag, status := st, data := data }]
  | x :: r =>
    if x.eng = eng ∧ x.tag = tag ∧ x.status = .waiting then { x with status := st, data := data } :: r
    else x :: fillResp eng tag st data r

/-- A read completes: its answer takes the place that it has held in the issue order of its engine (R325). -/
def answer (q : MemReq) (st : MemStatus) (data : List Byte) (s : State) : State :=
  { s with responses := fillResp q.eng q.tag st data s.responses }

/-- What an engine has returned to its consumer: the answers before its oldest read that is not complete (R325). -/
def returned (s : State) (eng : Nat) : List MemResp :=
  (s.responses.filter fun x => x.eng == eng).takeWhile fun x => x.status != .waiting

/-- The return buffer of an engine is full: 256 answers wait behind a read that is not complete (R325). -/
def returnFull (s : State) (eng : Nat) : Bool :=
  decide (256 ≤ (((s.responses.filter fun x => x.eng == eng).dropWhile fun x => x.status != .waiting).filter
    fun x => x.status != .waiting).length)

/-- MEM_REQUEST: the die `d` of the requester looks the address up; a request that misses performs no access and completes
with ADDR_FAULT (R299, R302, R305). An engine whose return buffer is full issues nothing (R325). -/
def memRequest (d ctx cls a : Nat) (write copy : Bool) (data : List Byte) (tag : Nat) (s : State) : State :=
  if returnFull s (engineOf d ctx cls) then s
  else match lookup s d (a / 64 * 64) with
  | .hit chan page off =>
    modMc (chan / 32) (fun m => { m with issued := m.issued ++
      [{ ctx := ctx, cls := cls, write := write, chan := chan, page := page, off := off, data := data,
         copy := copy, tag := tag, die := d }] })
      (if write then s else respond (engineOf d ctx cls) tag .waiting [] s)
  | l => respond (engineOf d ctx cls) tag .addrFault [] (noteMiss l s)

/-- MEM_REQUEST. -/
def execMemRequest (d ctx cls a : Nat) (write copy : Bool) (data : List Byte) (tag : Nat) (s : State) :
    Host.Outcome State Fault Refusal :=
  .next (awake s (memRequest d ctx cls a write copy data tag s))

/-- The partition of a request on stack `m`: the entry of PARTMAP for its context and class (R308). -/
def partOf (s : State) (m : Nat) (q : MemReq) : Nat := bits (getFk s WEIR_PARTMAP m q.ctx) (4 * q.cls) 4

/-- A request reaches its home stack: the die-to-die links that it crosses are up. Until then it waits in its crossing (R33, R34,
R44). -/
def memArrived (s : State) (q : MemReq) : Bool := (farRoute s q.die (q.chan / 128)).isSome

/-- The Weir queue of a partition: the first 32 requests of it in arrival order; the others wait in their requesters'
issue buffers (R304, R308). -/
def weirQueue (s : State) (m p : Nat) : List MemReq :=
  ((mcOf s m).issued.filter fun q => decide (q.cls < 8) && partOf s m q == p && memArrived s q).take 32

/-- Level of a Weir in 1/256 token. -/
def weirLevel (s : State) (m p : Nat) : Nat := getFk s WEIR_LVL m p * 256 + (mcOf s m).frac.get 0 p

/-- Set the level of a Weir, in 1/256 token. -/
def setWeirLevel (m p l : Nat) (s : State) : State :=
  modMc m (fun c => { c with frac := c.frac.put 0 p (l % 256) }) (setFk WEIR_LVL m p (l / 256) s)

/-- cclk out of `dt` that the head of a Weir with level `l` waits for a token (R310). -/
def weirWait (l rate dt : Nat) : Nat :=
  if l ≥ 256 then 0 else if rate = 0 then dt else min dt ((256 - l + rate - 1) / rate)

/-- `dt` cclk pass at the Weirs below partition `n`: levels rise by RATE ÷ 256 a cclk to at most BURST, and in Weir mode waiting
heads are counted (R308, R310). -/
def weirTick (m dt : Nat) : Nat → State → State
  | 0, s => s
  | n + 1, s =>
    let s := weirTick m dt n s
    let rate := getFk s WEIR_CFG_RATE m n
    let l := weirLevel s m n
    let s := if (weirQueue s m n).isEmpty || !isF s MEMCTL_CTRL_MODE m then s else addFk WEIR_WAIT_CYC m n (weirWait l rate dt) s
    setWeirLevel m n (min (getFk s WEIR_CFG_BURST m n * 256) (l + rate * dt)) s

/-- Some Weir of the stack below partition `n` can admit its head. -/
def weirAble (s : State) (m : Nat) : Nat → Bool
  | 0 => false
  | n + 1 => weirAble s m n || (!(weirQueue s m n).isEmpty && decide (weirLevel s m n ≥ 256))

/-- Budget of a memory request (R305, R342). -/
def memBudget (s : State) (q : MemReq) : Nat :=
  if q.cls < 8 then getFk s SLUICE_REQ_CFG_BUDGET (q.chan / 32) q.cls else if q.copy then 256 else 16384

/-- Move a request from the issue buffers into its channel's Sluice. -/
def memEnter (q : MemReq) (rest : List MemReq) (s : State) : State :=
  slEnter q.chan q.cls (memBudget s q) 1 (.mem q) (modMc (q.chan / 32) (fun m => { m with issued := rest }) s)

/-- WEIR_ADMIT: `dt` cclk pass; then in Weir mode partition `p` of stack `m` admits its head request for one token, or
without one under SPARE when no request waits at the Sluice and no Weir is able to admit (R306, R308, R309). -/
def weirAdmit (m p dt : Nat) (s : State) : State :=
  let s := weirTick m dt 16 s
  if isF s MEMCTL_CTRL_MODE m then
    match takeFirst (fun q => decide (q.cls < 8) && partOf s m q == p && memArrived s q) (mcOf s m).issued with
    | none => s
    | some (q, rest) =>
      if !slRoom s q.chan then s
      else if weirLevel s m p ≥ 256 then setWeirLevel m p (weirLevel s m p - 256) (memEnter q rest s)
      else if isF s WEIR_CTRL_SPARE m && (sluiceOf s q.chan).queue.isEmpty && !weirAble s m 16 then memEnter q rest s
      else s
  else s

/-- WEIR_ADMIT. -/
def execWeirAdmit (m p dt : Nat) (s : State) : Host.Outcome State Fault Refusal := .next (runningIn (64 + m) s (weirAdmit m p dt s))

/-! ## The repair ladder -/

/-- Spare rows of a channel that redirects or copies use. -/
def sparesUsed (m : Mc) (chan : Nat) : List Nat :=
  (m.rows.filterMap fun e => if e.1 / 2097152 = chan % 32 then
      (match e.2 with | .remapped sp => some sp | _ => none) else none)
  ++ (m.copies.filterMap fun c => if c.chan = chan ∧ !c.retire then some c.target else none)

/-- Retire-reserve pages of a channel that redirects, copies or a field repair use. -/
def pagesUsed (m : Mc) (chan : Nat) : List Nat :=
  (m.pages.filterMap fun e => if e.1 / 524288 = chan % 32 then
      (match e.2 with | .retired r => some r | _ => none) else none)
  ++ (m.copies.filterMap fun c => if c.chan = chan ∧ c.retire then some c.target else none)
  ++ (match m.repair with | some (c, _, t) => if c = chan then [t] else [] | none => [])

/-- The lowest number below `n` that a list does not hold. -/
def lowestFree (used : List Nat) (n : Nat) : Option Nat := (List.range n).find? fun k => !used.contains k

/-- Remap table entries in use (R318). -/
def remapUsed (m : Mc) : Nat := (m.rows.filter fun e => match e.2 with | .remapped _ => true | _ => false).length

/-- Remap table entries in use or kept for a copy under way (R318). -/
def remapTaken (m : Mc) : Nat := remapUsed m + (m.copies.filter fun c => !c.retire).length

/-- A copy of the ladder moves the row, or its page. -/
def copying (m : Mc) (chan row : Nat) : Bool :=
  m.copies.any fun c => c.chan == chan && (c.row == row || (c.retire && c.row / 4 == row / 4))

/-- A row, by its key in stack `i`, waits for a field repair: it is PENDING, no copy moves it, and its page is not lost (R316,
R317). -/
def rowPending (i : Nat) (m : Mc) (e : Nat × RowState) : Bool :=
  e.2 == .pending && !copying m (32 * i + e.1 / 2097152) (e.1 % 2097152)
    && m.pages.get .live (e.1 / 2097152 * 524288 + e.1 % 2097152 / 4) != .lost

/-- The PENDING register of stack `i` shows its PENDING rows and the entries of its remap table (R340, log entry 114). -/
def showPending (i : Nat) (s : State) : State :=
  setF MEMCTL_PENDING_ROWS i ((mcOf s i).rows.filter (rowPending i (mcOf s i))).length
    (setF MEMCTL_PENDING_REMAP_USED i (remapUsed (mcOf s i)) s)

/-- Set the state of a row. -/
def setRow (chan row : Nat) (st : RowState) (s : State) : State :=
  modMc (chan / 32) (fun m => { m with rows := m.rows.put .fresh (rowKey chan row) st }) s

/-- Retire the channel page of a row: a copy into a free retire-reserve page begins, or the page is lost (R319, R320). -/
def startRetire (chan row : Nat) (s : State) : State :=
  let m := mcOf s (chan / 32)
  match lowestFree (pagesUsed m chan) 128 with
  | some t => modMc (chan / 32) (fun c => { c with copies := c.copies ++ [{ chan := chan, row := row, target := t, retire := true }] }) s
  | none =>
    memEvt (chan / 32) 5 (chan % 128) row (setEvt MEMCTL_EV_PAGE_LOST (chan / 32) (incr MEMCTL_PAGE_LOST_CNT (chan / 32)
      (modMc (chan / 32) (fun c => { c with pages := c.pages.put .live (pageKey chan (row / 4)) .lost }) s)))

/-- Remap a row: a copy into a free spare row begins; with a full table or no free spare row the page is retired
instead (R318). -/
def startRemap (chan row : Nat) (s : State) : State :=
  let m := mcOf s (chan / 32)
  match lowestFree (sparesUsed m chan) 512 with
  | some t =>
    if remapTaken m < 256 then
      modMc (chan / 32) (fun c => { c with copies := c.copies ++ [{ chan := chan, row := row, target := t, retire := false }] }) s
    else startRetire chan row s
  | none => startRetire chan row s

/-- A field repair of a row that is queued or under way is cancelled; its channel leaves PARKED (R316). -/
def cancelRepair (chan row : Nat) (s : State) : State :=
  let m := chan / 32
  match (mcOf s m).repair with
  | some (c, r, _) =>
    if c = chan ∧ r = row then
      setF MEMCTL_STAT_PARKED m 0 (modMc m (fun x => { x with repair := none, repStage := 0 }) s)
    else s
  | none => s

/-- A row fails and climbs one rung (R316). A row whose copy is under way waits for it; a PENDING row stays so in the repair record
until its copy is done. -/
def rowFail (chan row : Nat) (s : State) : State :=
  let m := chan / 32
  let s := setEvt MEMCTL_EV_ROW_FAIL m (incr MEMCTL_ROW_FAIL_CNT m s)
  if copying (mcOf s m) chan row then s
  else showPending m (match (mcOf s m).rows.get .fresh (rowKey chan row) with
    | .fresh => setRow chan row .pending s
    | .pending => startRemap chan row (cancelRepair chan row s)
    | .repaired => startRemap chan row s
    | .remapped _ => startRetire chan row s
    | .retired _ => s)

/-- Move the contents and the poison of `n` bytes from one DRAM address to another (R314, R318, R319). -/
def dramCopy (src dst n : Nat) (s : State) : State :=
  let moved := s.mem.filter fun e => decide (src ≤ e.1 ∧ e.1 < src + n)
  let kept := s.mem.filter fun e => !decide (dst ≤ e.1 ∧ e.1 < dst + n)
  let pm := s.poison.filter fun e => decide (src / 64 ≤ e.1 ∧ e.1 < (src + n) / 64)
  let pk := s.poison.filter fun e => !decide (dst / 64 ≤ e.1 ∧ e.1 < (dst + n) / 64)
  { s with mem := moved.foldl (fun st e => Store.put (0 : Byte) (e.1 - src + dst) e.2 st) kept,
           poison := pm.foldl (fun st e => Store.put false (e.1 - src / 64 + dst / 64) e.2 st) pk }

/-- Write the poison pattern at accesses `bad` of a target (R314). -/
def poisonAll (dst : Nat) (bad : List Nat) (s : State) : State :=
  { s with poison := bad.foldl (fun st k => Store.put false (dst / 64 + k) true st) s.poison }

/-- REMAP_COPY_DONE: the oldest remap copy of stack `m` that its Sluice has granted completes; accesses `bad` of the row were
uncorrectable and hold poison at the target; every later access goes to the spare row (R314, R318). -/
def remapCopyDone (m : Nat) (bad : List Nat) (s : State) : State :=
  match takeFirst (fun c => !c.retire && c.stage == 2) (mcOf s m).copies with
  | none => s
  | some (c, rest) =>
    let dst := dramKey c.chan (0x7FF00 + c.target / 4) (c.target % 4 * 1024)
    match redirect s c.chan (c.row / 4) (c.row % 4 * 1024) with
    | none => modMc m (fun x => { x with copies := rest }) s
    | some src =>
      let s := poisonAll dst (bad.filter (· < 16)) (dramCopy src dst 1024 s)
      let s := setRow c.chan c.row (.remapped c.target) (modMc m (fun x => { x with copies := rest }) s)
      memEvt m 3 (c.chan % 128) c.row (setEvt MEMCTL_EV_REMAP m (incr MEMCTL_REMAP_CNT m (showPending m s)))

/-- REMAP_COPY_DONE. -/
def execRemapCopyDone (m : Nat) (bad : List Nat) (s : State) : Host.Outcome State Fault Refusal :=
  .next (runningIn (64 + m) s (remapCopyDone m bad s))

/-- Copy rows 0 to `n - 1` of a channel page, each from where its accesses now go, to a reserve page. -/
def copyRows (chan page dst : Nat) : Nat → State → State
  | 0, s => s
  | n + 1, s =>
    let s := copyRows chan page dst n s
    match redirect s chan page (n * 1024) with
    | some src => dramCopy src (dst + n * 1024) 1024 s
    | none => s

/-- The rows of a controller once channel page `page` has moved to reserve page `r`: the spare rows of its remapped rows are
free again, since the page's contents have moved on (R318, R319). -/
def rowsRetired (chan page r : Nat) (rows : Store RowState) : Store RowState :=
  rows.map fun e => match e.2 with
    | .remapped _ => if e.1 / 2097152 = chan % 32 ∧ e.1 % 2097152 / 4 = page then (e.1, .retired r) else e
    | _ => e

/-- RETIRE_COPY_DONE: the oldest retire copy of stack `m` that its Sluice has granted completes and the page is redirected (R314,
R319). -/
def retireCopyDone (m : Nat) (bad : List Nat) (s : State) : State :=
  match takeFirst (fun c => c.retire && c.stage == 2) (mcOf s m).copies with
  | none => s
  | some (c, rest) =>
    let dst := dramKey c.chan (0x7FF80 + c.target) 0
    let s := poisonAll dst (bad.filter (· < 64)) (copyRows c.chan (c.row / 4) dst 4 s)
    let s := setRow c.chan c.row (.retired c.target) (modMc m (fun x =>
      { x with copies := rest, rows := rowsRetired c.chan (c.row / 4) c.target x.rows,
               pages := x.pages.put .live (pageKey c.chan (c.row / 4)) (.retired c.target) }) s)
    memEvt m 4 (c.chan % 128) c.row (setEvt MEMCTL_EV_RETIRE m (incr MEMCTL_RETIRE_CNT m (showPending m s)))

/-- RETIRE_COPY_DONE. -/
def execRetireCopyDone (m : Nat) (bad : List Nat) (s : State) : Host.Outcome State Fault Refusal :=
  .next (runningIn (64 + m) s (retireCopyDone m bad s))

/-! ## The channel Sluices (R304 to R306, R318, R324, R328) -/

/-- The copy of channel `n` that is next to enter its Sluice: 0 remap, 1 retire, 2 field repair, and its row. -/
def nextCopy (m : Mc) (n : Nat) : Option (Nat × Nat) :=
  match m.copies.find? fun c => c.chan == n && c.stage == 0 with
  | some c => some (b2n c.retire, c.row)
  | none =>
    match m.repair with
    | some (chan, row, _) => if chan = n ∧ m.repStage = 0 then some (2, row) else none
    | none => none

/-- A copy goes on to a stage. -/
def setStage (kind row n st : Nat) (m : Mc) : Mc :=
  if kind = 2 then { m with repStage := st }
  else { m with copies := m.copies.map fun c =>
    if c.chan = n ∧ c.row = row ∧ c.retire = decide (kind = 1) then { c with stage := st } else c }

/-- The next maintenance request of channel `n` enters its Sluice as requester 8: a copy with a deadline of 256 cclk, or, where
requester 8 enters and no copy waits, the scrub read of access `acc` with one of 16,384. A stack with CTRL.EN = 0 issues none (R302,
R305, R315; DESIGN CHOICE, log entry 118: the access is an operand). -/
def maintEnter (n r acc : Nat) (s : State) : State :=
  let m := n / 32
  if !isF s MEMCTL_CTRL_EN m || !slRoom s n then s
  else match nextCopy (mcOf s m) n with
  | some (k, row) =>
    slEnter n 8 256 (if k = 0 then 16 else 64) (.copy k row) (modMc m (setStage k row n 1) s)
  | none =>
    if r = 8 ∧ isF s MEMCTL_CTRL_SCRUB_EN m then
      slEnter n 8 16384 1 (.mem { ctx := 0, cls := 8, write := false, chan := n, page := acc / 64 % 524288, off := acc % 64 * 64,
                                  scrub := true }) s
    else s

/-- The next request of a channel that enters its Sluice without a Weir: any request in priority mode, maintenance in Weir
mode (R305, R306). -/
def memSluiceEnter (n r acc : Nat) (s : State) : State :=
  let m := n / 32
  match takeFirst (fun q => q.chan == n && memArrived s q && (!isF s MEMCTL_CTRL_MODE m || decide (8 ≤ q.cls))) (mcOf s m).issued with
  | none => maintEnter n r acc s
  | some (q, rest) => if slRoom s n then memEnter q rest s else s

/-- A channel grants nothing during its retrain hold or while it is PARKED (R324, R328). -/
def chanHeld (s : State) (chan : Nat) : Bool :=
  let m := chan / 32
  (isF s MEMCTL_STAT_RETRAINING m && getF s MEMCTL_STAT_RT_CH m == chan % 32) ||
  (isF s MEMCTL_STAT_PARKED m && getF s MEMCTL_STAT_PK_CH m == chan % 32)

/-- A request may be granted: its row is not being copied to a spare row (R318), and the copy with which a field repair begins waits
while a channel of the stack is in retraining or PARKED (R328). -/
def memReady (s : State) (n : Nat) (q : SlReq) : Bool :=
  match q.pay with
  | .mem x => decide (8 ≤ x.cls) || !(mcOf s (n / 32)).copies.any fun c =>
      c.chan == n && !c.retire && c.row == 4 * x.page + x.off / 1024
  | .copy k _ => decide (k < 2) || (!isF s MEMCTL_STAT_RETRAINING (n / 32) && !isF s MEMCTL_STAT_PARKED (n / 32))
  | _ => true

/-- The page of the row under field repair is copied into its reserve page, and channel `n` is PARKED (R317, R328). -/
def parkRepair (n : Nat) (s : State) : State :=
  let m := n / 32
  match (mcOf s m).repair with
  | some (chan, row, t) =>
    if chan = n then
      setF MEMCTL_STAT_PARKED m 1 (setF MEMCTL_STAT_PK_CH m (n % 32)
        (modMc m (fun x => { x with repStage := 2, stalled := false }) (copyRows n (row / 4) (dramKey n (0x7FF80 + t) 0) 4 s)))
    else s
  | none => s

/-- What a granted request of channel `n` does: an access goes to the DRAM, a copy of the ladder begins, and that of a field repair is
made. -/
def memGranted (n : Nat) (pay : SlPay) (s : State) : State :=
  match pay with
  | .mem x => modMc (n / 32) (fun m => { m with serving := m.serving ++ [x] }) s
  | .copy k row => if k = 2 then parkRepair n s else modMc (n / 32) (setStage k row n 2) s
  | _ => s

/-- A memory Sluice grants its next beat (R306, R346, R347). -/
def memSluiceGrant (n : Nat) (s : State) : State :=
  if chanHeld s n then s
  else match slNext s n (!isF s MEMCTL_CTRL_MODE (n / 32)) (memReady s n) with
  | none => s
  | some (r, fresh) =>
    match slServe n r fresh (memReady s n) s with
    | some (q, s) => memGranted n q.pay s
    | none => s

/-! ## Error correction -/

/-- A read of a row was corrected: it is counted, and the row fails when the second read needs correction again
(R312). -/
def eccCorrect (chan row : Nat) (again : Bool) (s : State) : State :=
  let s := setEvt MEMCTL_EV_CE (chan / 32) (incr MEMCTL_CE_CNT (chan / 32) s)
  if again then rowFail chan row s else s

/-- A read was uncorrectable: it is counted, ERR_INFO takes the first, MEM_EVT KIND 1 is written and the row enters the
ladder (R313, R338). -/
def eccUncorr (chan row cls : Nat) (s : State) : State :=
  let m := chan / 32
  let s := setEvt MEMCTL_EV_UE m (incr MEMCTL_UE_CNT m s)
  let s := if (mcOf s m).errUsed then s
    else setF MEMCTL_ERR_INFO_CHAN m (chan % 32) (setF MEMCTL_ERR_INFO_ROW m row (setF MEMCTL_ERR_INFO_CLASS m (min cls 7)
      (modMc m (fun x => { x with errUsed := true }) s)))
  rowFail chan row (memEvt m 1 (chan % 128) row s)

/-- Mark the access `k`, by DRAM address ÷ 64, as poison or as good (R314). -/
def setPoison (k : Nat) (b : Bool) (s : State) : State := { s with poison := s.poison.put false k b }

/-- Write an access at a DRAM address; a full 64-byte write replaces poison (R314). -/
def dramWrite (k : Nat) (data : List Byte) (s : State) : State :=
  let s := { s with mem := Store.putAll (0 : Byte) k (data.take 64) s.mem }
  if data.length ≥ 64 then setPoison (k / 64) false s else s

/-- The 64 bytes at a DRAM address. -/
def dramRead64 (s : State) (k : Nat) : List Byte := Store.getAll (0 : Byte) s.mem k 64

/-- The oldest granted request of a test, unless an older one of the same place stands before it: two requests of the same address do
not change order (R325). -/
def takeServed (p : MemReq → Bool) (l : List MemReq) : Option (MemReq × List MemReq) :=
  match takeFirst p l with
  | some (q, rest) =>
    if (l.takeWhile fun x => !p x).any fun x => x.chan == q.chan && x.page == q.page && x.off == q.off then none else some (q, rest)
  | none => none

/-- An access needed correction again on its second read, and will need it again (R312, log entry 103). -/
def markWeak (m k : Nat) (s : State) : State := modMc m (fun x => { x with weak := if x.weak.contains k then x.weak else x.weak ++ [k] }) s

/-- A read of the access at DRAM address `k` was corrected (R312). -/
def readCorrected (chan row k : Nat) (again : Bool) (s : State) : State :=
  eccCorrect chan row again (if again then markWeak (chan / 32) (k / 64) s else s)

/-- A read of the access at DRAM address `k` was uncorrectable, and stays so until it is written in full (R313, R314, log entry
103). -/
def readUncorr (chan row cls k : Nat) (s : State) : State :=
  eccUncorr chan row cls (setPoison (k / 64) true s)

/-- MEM_READ: the oldest granted read of a channel completes with what the check symbols gave; a poisoned access always
decodes as uncorrectable, and a lost page completes with MEM_UNCORR (R296, R311 to R314, R320). -/
def memReadDone (chan : Nat) (ecc : Ecc) (s : State) : State :=
  let m := chan / 32
  match takeServed (fun q => q.chan == chan && !q.write && !q.scrub) (mcOf s m).serving with
  | none => s
  | some (q, rest) =>
    let s := modMc m (fun x => { x with serving := rest }) s
    let row := 4 * q.page + q.off / 1024
    match redirect s chan q.page q.off with
    | none => answer q .memUncorr [] s
    | some k =>
      if s.poison.get false (k / 64) then answer q .memUncorr [] (eccUncorr chan row q.cls s)
      else match ecc with
        | .clean => answer q .ok (dramRead64 s k) s
        | .corrected again => answer q .ok (dramRead64 s k) (readCorrected chan row k again s)
        | .uncorrectable => answer q .memUncorr [] (readUncorr chan row q.cls k s)

/-- MEM_READ. -/
def execMemRead (chan : Nat) (ecc : Ecc) (s : State) : Host.Outcome State Fault Refusal :=
  .next (runningIn (64 + chan / 32) s (memReadDone chan ecc s))

/-- MEM_WRITE: the oldest granted write of a channel completes; a full 64-byte write replaces poison, and a lost page
discards it and completes with MEM_UNCORR (R296, R314, R320). -/
def memWriteDone (chan : Nat) (s : State) : State :=
  let m := chan / 32
  match takeServed (fun q => q.chan == chan && q.write) (mcOf s m).serving with
  | none => s
  | some (q, rest) =>
    let s := modMc m (fun x => { x with serving := rest }) s
    match redirect s chan q.page q.off with
    | none => respond q.eng q.tag .memUncorr [] s
    | some k => respond q.eng q.tag .ok [] (dramWrite k q.data s)

/-- MEM_WRITE. -/
def execMemWrite (chan : Nat) (s : State) : Host.Outcome State Fault Refusal := .next (runningIn (64 + chan / 32) s (memWriteDone chan s))

/-- What a scrub read of an access finds: poison or an uncorrectable access, or a correction, whose write-back a requester's write
since the read cancels (R312 to R315). -/
def scrubbed (chan page off : Nat) (ecc : Ecc) (written : Bool) (s : State) : State :=
  let row := 4 * page + off / 1024
  match redirect s chan page off with
  | none => s
  | some k =>
    if s.poison.get false (k / 64) then eccUncorr chan row 8 s
    else match ecc with
      | .clean => s
      | .corrected again => readCorrected chan row k (again && !written) s
      | .uncorrectable => readUncorr chan row 8 k s

/-- SCRUB_READ: a scrub read of stack `m` that its Sluice has granted completes; the last access of a pass counts the pass (R305, R312 to
R315). -/
def scrubRead (m chan page off : Nat) (ecc : Ecc) (written passEnd : Bool) (s : State) : State :=
  if isF s MEMCTL_CTRL_SCRUB_EN m && isF s MEMCTL_CTRL_EN m && chan / 32 == m then
    match takeFirst (fun q => q.scrub && q.chan == chan && q.page == page && q.off == off) (mcOf s m).serving with
    | none => s
    | some (_, rest) =>
      let s := scrubbed chan page off ecc written (modMc m (fun x => { x with serving := rest }) s)
      if passEnd then incr MEMCTL_SCRUB_PASS m s else s
  else s

/-- SCRUB_READ. -/
def execScrubRead (m chan page off : Nat) (ecc : Ecc) (written passEnd : Bool) (s : State) :
    Host.Outcome State Fault Refusal :=
  .next (runningIn (64 + m) s (scrubRead m chan page off ecc written passEnd s))

/-! ## Accesses of engines -/

/-- The first uncorrectable access of a range that holds poison: die-wide channel and row (R313, R314); none where a lost
page comes first. -/
def firstPoison (s : State) (d : Nat) : Nat → Nat → Option (Nat × Nat)
  | _, 0 => none
  | a, n + 1 =>
    match lookup s d a with
    | .hit chan page off =>
      match redirect s chan page off with
      | none => none
      | some k => if s.poison.get false (k / 64) then some (chan, 4 * page + off / 1024) else firstPoison s d (a + 1) n
    | _ => none

/-- The accesses of a range that need correction on every read, as channel and row (R312, log entry 103). -/
def weakRows (s : State) (d a n : Nat) : List (Nat × Nat) :=
  if s.mcs.all fun e => e.2.weak.isEmpty then []
  else (List.range ((a % 64 + n + 63) / 64)).filterMap fun i =>
    match lookup s d (a / 64 * 64 + 64 * i) with
    | .hit chan page off =>
      match redirect s chan page off with
      | some k => if (mcOf s (chan / 32)).weak.contains (k / 64) then some (chan, 4 * page + off / 1024) else none
      | none => none
    | _ => none

/-- Count the corrected reads of an engine; their rows fail again (R312). -/
def correctAll : List (Nat × Nat) → State → State
  | [], s => s
  | (chan, row) :: r, s => correctAll r (eccCorrect chan row true s)

/-- A read by an engine of class `cls`: a miss is recorded (R302), a poisoned access counts as uncorrectable (R313), and one that needs
correction is corrected and counted (R312). -/
def engRead (d cls a n : Nat) (s : State) : MemRes × State :=
  match memRead s d a n with
  | .data bs => (.data bs, correctAll (weakRows s d a n) s)
  | .fault l => (.fault l, noteMiss l s)
  | .uncorr =>
    (.uncorr, match firstPoison s d a n with
      | some (chan, row) => eccUncorr chan row cls s
      | none => s)

/-- A read whose failure ends a command: MEM_UNCORR is 0x12 and ADDR_FAULT 0x13 (R527). -/
def cmdRead (h cls a n : Nat) (f : List Byte → State → State) (s : State) : State :=
  match engRead 0 cls a n s with
  | (.data bs, s) => f bs s
  | (.fault _, s) => report h 0x13 0 0 s
  | (.uncorr, s) => report h 0x12 0 0 s

/-! ## Retraining -/

/-- The hold of the channel that has waited longest begins: one channel of a stack at a time and never while one is PARKED (R323,
R324, R328). -/
def startDue (m : Nat) (s : State) : State :=
  if isF s MEMCTL_CTRL_RETRAIN_EN m && isF s MEMCTL_CTRL_EN m && !isF s MEMCTL_STAT_RETRAINING m
      && !isF s MEMCTL_STAT_PARKED m then
    match (mcOf s m).due with
    | [] => s
    | ch :: r => setF MEMCTL_STAT_RETRAINING m 1 (setF MEMCTL_STAT_RT_CH m ch (modMc m (fun x => { x with due := r }) s))
  else s

/-- A channel falls due; one that already waits does so once. -/
def fallDue (m ch : Nat) (s : State) : State :=
  modMc m (fun x => { x with due := if x.due.contains ch then x.due else x.due ++ [ch] }) s

/-- RETRAIN_DUE: the retrain interval of a channel has passed; its hold begins, or it waits for its turn (R323, R324, R328; log entry
119). -/
def retrainDue (m ch : Nat) (s : State) : State :=
  if isF s MEMCTL_CTRL_RETRAIN_EN m && isF s MEMCTL_CTRL_EN m then startDue m (fallDue m (ch % 32) s) else s

/-- RETRAIN_DUE. -/
def execRetrainDue (m ch : Nat) (s : State) : Host.Outcome State Fault Refusal := .next (runningIn (64 + m) s (retrainDue m ch s))

/-- RETRAIN_DONE: the channel is released, trained at the present temperature, and the next one that is due follows (R323, R326). -/
def retrainDone (m : Nat) (s : State) : State :=
  if isF s MEMCTL_STAT_RETRAINING m then
    let ch := getF s MEMCTL_STAT_RT_CH m
    startDue m (modMc m (fun x => { x with
        trained := x.trained.put 0 ch (getF s MEMCTL_STAT_TEMP m + 1), due := x.due.filter (· ≠ ch) })
      (incr MEMCTL_RETRAIN_CNT m (setF MEMCTL_STAT_RETRAINING m 0 s)))
  else s

/-- RETRAIN_DONE. -/
def execRetrainDone (m : Nat) (s : State) : Host.Outcome State Fault Refusal := .next (runningIn (64 + m) s (retrainDone m s))

/-- RETRAIN_TIMEOUT: a retrain not done within 3 µs is abandoned and the channel keeps its settings until the next interval; another
channel that is due follows (R324). -/
def retrainTimeout (m : Nat) (s : State) : State :=
  if isF s MEMCTL_STAT_RETRAINING m then startDue m (setEvt MEMCTL_EV_TRAIN_FAIL m (setF MEMCTL_STAT_RETRAINING m 0 s)) else s

/-- RETRAIN_TIMEOUT. -/
def execRetrainTimeout (m : Nat) (s : State) : Host.Outcome State Fault Refusal := .next (runningIn (64 + m) s (retrainTimeout m s))

/-! ## Maintenance windows -/

/-- The first row of stack `i` that waits for a field repair. -/
def firstPending (i : Nat) (m : Mc) : Option Nat := (m.rows.find? (rowPending i m)).map fun e => e.1

/-- Begin the next field repair of stack `m`: its page is to be copied into a free retire-reserve page; with no such page free the row
is remapped instead, and the next one follows, at most `k` rows. A stack with CTRL.EN = 0 begins none (R302, R317, R328, log entry
9). -/
def startRepair (m : Nat) : Nat → State → State
  | 0, s => s
  | k + 1, s =>
    match (mcOf s m).repair, firstPending m (mcOf s m) with
    | none, some key =>
      let chan := m * 32 + key / 2097152
      let row := key % 2097152
      if !isF s MEMCTL_CTRL_EN m then s
      else match lowestFree (pagesUsed (mcOf s m) chan) 128 with
      | some t => modMc m (fun x => { x with repair := some (chan, row, t), repStage := 0, stalled := false }) s
      | none => startRepair m k (showPending m (startRemap chan row s))
    | _, _ => s

/-- Begin field repairs on stacks 0 to `n - 1`. -/
def startRepairs : Nat → State → State
  | 0, s => s
  | n + 1, s => let s := startRepairs n s; startRepair n (mcOf s n).rows.length s

/-- A step is open in some context below `n`. -/
def anyOpen (s : State) : Nat → Bool
  | 0 => false
  | n + 1 => anyOpen s n || stepIsOpen s n

/-- PENDING rows of stacks 0 to `n - 1`. -/
def pendingRows (s : State) : Nat → Nat
  | 0 => 0
  | n + 1 => pendingRows s n + getF s MEMCTL_PENDING_ROWS n

/-- A field repair is under way on a stack below `n`. -/
def repairing (s : State) : Nat → Bool
  | 0 => false
  | n + 1 => repairing s n || (mcOf s n).repair.isSome

/-- MAINT: the command requests a maintenance window, which waits for the step boundary (R327). -/
def maint (h : Nat) (s : State) : State :=
  runCmd h 0x52 (fun e s =>
    match s.window with
    | none => setTurn h true { s with window := some { handle := h, budgetMs := argOf e 0 % two32 } }
    | some _ => unrunCmd h s) s

/-- MAINT. -/
def execMaint (h : Nat) (s : State) : Host.Outcome State Fault Refusal := .next (running s (maint h s))

/-- MAINT_WINDOW_START: the window starts when no step is open in any context, and field repairs begin (R317, R327). -/
def maintWindowStart (s : State) : State :=
  match s.window with
  | some w =>
    if !w.started && !anyOpen s 16 then 
      startRepairs 16 (setTurn w.handle false { s with window := some { w with started := true } }) else s
  | none => s

/-- MAINT_WINDOW_START. -/
def execMaintWindowStart (s : State) : Host.Outcome State Fault Refusal := .next (awake s (maintWindowStart s))

/-- Write rows 0 to `n - 1` of a channel page back from a reserve page (R317). -/
def rowsBack (chan page src : Nat) : Nat → State → State
  | 0, s => s
  | n + 1, s =>
    let s := rowsBack chan page src n s
    match redirect s chan page (n * 1024) with
    | some dst => dramCopy (src + n * 1024) dst 1024 s
    | none => s

/-- One repair more of the maintenance window. -/
def oneRepair (s : State) : State := { s with window := s.window.map fun w => { w with repairs := w.repairs + 1 } }

/-- The row that has been repaired: it is REPAIRED, counted and reported, and its accesses need no correction any more (R317). -/
def rowRepaired (m chan row : Nat) (s : State) : State :=
  let s := modMc m (fun x => { x with weak := x.weak.filter fun k => k / 16 != (chan * 524288 + row / 4) * 4 + row % 4 }) s
  memEvt m 2 (chan % 128) row (incr MEMCTL_FIELD_REP_CNT m (setRow chan row .repaired (oneRepair s)))

/-- FIELD_REPAIR_DONE: the repair of stack `m` ends. The page is written back, with poison at the accesses `bad` that were
uncorrectable; the row is REPAIRED, or, when the bank had no spare row left, it is remapped instead; the channel leaves PARKED, a
retrain that has fallen due runs, and the next repair begins while the budget lasts (R314, R317, R327, R328). -/
def fieldRepairDone (m : Nat) (spareLeft : Bool) (bad : List Nat) (s : State) : State :=
  match (mcOf s m).repair with
  | none => s
  | some (chan, row, t) =>
    if (mcOf s m).repStage ≠ 2 then s
    else
      let src := dramKey chan (0x7FF80 + t) 0
      let s := rowsBack chan (row / 4) src 4 (poisonAll src (bad.filter (· < 64)) s)
      let s := setF MEMCTL_STAT_PARKED m 0 (modMc m (fun x => { x with repair := none, repStage := 0 }) s)
      let s := showPending m (if spareLeft then rowRepaired m chan row s else startRemap chan row s)
      let s := startDue m s
      match s.window with
      | some w => if w.started && !w.expired then startRepair m (mcOf s m).rows.length s else s
      | none => s

/-- FIELD_REPAIR_DONE. -/
def execFieldRepairDone (m : Nat) (e : RepairEnd) (s : State) : Host.Outcome State Fault Refusal :=
  .next (runningIn (64 + m) s (fieldRepairDone m e.spareLeft e.bad s))

/-- MAINT_WINDOW_END, `ms` milliseconds after the start: the window ends when no row is PENDING or its budget has run out; a repair under way completes
first, and the completion reports repairs done and remaining (R327). -/
def maintWindowEnd (ms : Nat) (s : State) : State :=
  match s.window with
  | none => s
  | some w =>
    if w.started then
      let s := { s with window := some { w with expired := w.expired || decide (w.budgetMs ≤ ms) } }
      if repairing s 16 then s
      else if decide (w.budgetMs ≤ ms) || w.expired || pendingRows s 16 == 0 then
        report w.handle 0 w.repairs (pendingRows s 16) { s with window := none }
      else s
    else s

/-- MAINT_WINDOW_END. -/
def execMaintWindowEnd (ms : Nat) (s : State) : Host.Outcome State Fault Refusal := .next (awake s (maintWindowEnd ms s))

/-- A request waits for a channel. -/
def waitsOn (s : State) (chan : Nat) : Bool :=
  !(sluiceOf s chan).queue.isEmpty || (mcOf s (chan / 32)).issued.any fun q => q.chan == chan

/-- PARK_STALL: a request has waited PARK_STALL µs on the PARKED channel; raised once per repair (R328). -/
def parkStall (m : Nat) (s : State) : State :=
  if isF s MEMCTL_STAT_PARKED m && !(mcOf s m).stalled && waitsOn s (m * 32 + getF s MEMCTL_STAT_PK_CH m) then
    setEvt MEMCTL_EV_PARK_STALL m (incr MEMCTL_PARK_STALL_CNT m (modMc m (fun x => { x with stalled := true }) s))
  else s

/-- PARK_STALL. -/
def execParkStall (m : Nat) (s : State) : Host.Outcome State Fault Refusal := .next (runningIn (64 + m) s (parkStall m s))

/-! ## The repair record -/

/-- Bits 31 to 0 and upward of one entry of the repair record (R321); die-wide channel. -/
def recordEntry (m : Nat) (e : Nat × RowState) : Nat :=
  let chan := m % 4 * 32 + e.1 / 2097152
  let base := m / 4 + 4 * chan + 1024 * (e.1 % 2097152)
  match e.2 with
  | .fresh | .pending => base
  | .repaired => base + 2 ^ 32
  | .remapped t => base + 2 * 2 ^ 32 + t * 2 ^ 36
  | .retired t => base + 3 * 2 ^ 32 + t * 2 ^ 36

/-- The entries of stacks 0 to `n - 1`. -/
def recordEntries (s : State) : Nat → List Nat
  | 0 => []
  | n + 1 => recordEntries s n ++ (mcOf s n).rows.map (recordEntry n)

/-- The repair record (R321). -/
def repairRecord (s : State) : List Byte :=
  let es := recordEntries s 16
  let body := es.flatMap (leBytes 8)
  leBytes 4 es.length ++ zeros 4 ++ leBytes 4 (crc32c body) ++ zeros 4 ++ body

/-- Load one entry: the state of a row, and the redirect of a retired page (R321, R322). -/
def loadEntry (v : Nat) (s : State) : State :=
  let chan := bits v 0 2 * 128 + bits v 2 7
  let m := chan / 32
  let row := bits v 10 21
  showPending m (match bits v 32 2 with
  | 0 => setRow chan row .pending s
  | 1 => setRow chan row .repaired s
  | 2 => setRow chan row (.remapped (bits v 36 10 % 512)) s
  | _ => modMc m (fun x => { x with pages := x.pages.put .live (pageKey chan (row / 4)) (.retired (bits v 36 10 % 128)) })
      (setRow chan row (.retired (bits v 36 10 % 128)) s))

/-- Load the entries of a record. -/
def loadEntries : Nat → List Byte → State → State
  | 0, _, s => s
  | n + 1, bs, s => loadEntries n (bs.drop 8) (loadEntry (leVal (bs.take 8)) s)

/-- A valid span entry exists on die `d` below span `n`. -/
def anySpan (s : State) (d : Nat) : Nat → Bool
  | 0 => false
  | n + 1 => anySpan s d n || bit (spanEntry s d n) 0

/-- MEMREC_IMPORT: refused with MAP_ACTIVE while a span entry is valid and with RECORD_BAD on a wrong CRC-32C; otherwise
the redirects are loaded. `recd` is what stands at A0 of module memory; A1 bytes of it are the record (R322, R525, R526, log entry
10). -/
def memrecImport (h : Nat) (recd : List Byte) (s : State) : State :=
  runCmd h 0x50 (fun e s =>
    let recd := recd.take (argOf e 1)
    if anySpan s 0 256 || anySpan s 1 256 || anySpan s 2 256 || anySpan s 3 256 then report h 0x10 0 0 s
    else if recd.length < 16 + 8 * leVal (recd.take 4) ∨
        crc32c ((recd.drop 16).take (8 * leVal (recd.take 4))) ≠ leVal ((recd.drop 8).take 4) then report h 0x0C 0 0 s
    else report h 0 (leVal (recd.take 4)) 0 (loadEntries (leVal (recd.take 4)) (recd.drop 16) s)) s

/-- MEMREC_IMPORT. -/
def execMemrecImport (h : Nat) (recd : List Byte) (s : State) : Host.Outcome State Fault Refusal := .next (awake s (memrecImport h recd s))

/-- MEMREC_EXPORT: the repair record is written to the host; one longer than the capacity of A1 is INVALID
(R322, R523, R525). -/
def memrecExport (h : Nat) (s : State) : State :=
  runCmd h 0x51 (fun e s =>
    let recd := repairRecord s
    if argOf e 1 < recd.length then report h 0x01 0 0 s
    else report h 0 recd.length 0 (hostWrite (argOf e 0) recd s)) s

/-- MEMREC_EXPORT. -/
def execMemrecExport (h : Nat) (s : State) : Host.Outcome State Fault Refusal := .next (awake s (memrecExport h s))

end Sys2Proof.Machine
end

