-- ==== Sys2Proof/Machine/Float.lean ====
section
/-! DEFINITION. The floating-point formats and exact arithmetic on their values (R140 to R148): decoding, encoding with round to
nearest even, and FP32 operations. -/

namespace Sys2Proof.Machine

/-- The value of a floating-point word: a finite value is ± `m` × 2^`e`. -/
inductive FV where
  | nan
  | inf (neg : Bool)
  | fin (neg : Bool) (m : Nat) (e : Int)
deriving DecidableEq, Repr

/-- A floating-point format (R140). -/
structure Fmt where
  ebits : Nat
  fbits : Nat
  bias : Nat
  /-- no infinity: every exponent code is finite but the single NaN magnitude (R141) -/
  noInf : Bool := false
deriving DecidableEq, Repr

/-- FP8 E4M3. -/
def fmtE4M3 : Fmt := { ebits := 4, fbits := 3, bias := 7, noInf := true }
/-- FP8 E5M2. -/
def fmtE5M2 : Fmt := { ebits := 5, fbits := 2, bias := 15 }
/-- BF16. -/
def fmtBF16 : Fmt := { ebits := 8, fbits := 7, bias := 127 }
/-- FP16. -/
def fmtFP16 : Fmt := { ebits := 5, fbits := 10, bias := 15 }
/-- FP32. -/
def fmtFP32 : Fmt := { ebits := 8, fbits := 23, bias := 127 }
/-- W24, the upper 24 bits of a binary32 word. -/
def fmtW24 : Fmt := { ebits := 8, fbits := 15, bias := 127 }

/-- The format of a code of R87 and R140. -/
def fmtOf : Nat → Fmt
  | 0 => fmtE4M3
  | 1 => fmtE5M2
  | 2 => fmtBF16
  | 3 => fmtFP16
  | 5 => fmtW24
  | _ => fmtFP32

/-- Bytes of an element by format code. -/
def fmtBytes : Nat → Nat
  | 0 | 1 => 1
  | 2 | 3 => 2
  | 5 => 3
  | 8 => 8
  | _ => 4

/-- +0. -/
def fv0 : FV := .fin false 0 0

/-- Exponent of the smallest normal value. -/
def Fmt.emin (f : Fmt) : Int := 1 - (f.bias : Int)

/-- The magnitude pattern of infinity, or of the NaN of a format without infinity. -/
def Fmt.infPat (f : Fmt) : Nat :=
  if f.noInf then 2 ^ (f.ebits + f.fbits) - 1 else (2 ^ f.ebits - 1) * 2 ^ f.fbits

/-- The sign bit. -/
def Fmt.signBit (f : Fmt) : Nat := 2 ^ (f.ebits + f.fbits)

/-- The canonical NaN (R140). -/
def Fmt.nanPat (f : Fmt) : Nat :=
  if f.noInf then f.infPat else if f.fbits = 2 then 0x7E else f.infPat + 2 ^ (f.fbits - 1)

/-- Read a word. -/
def Fmt.dec (f : Fmt) (w : Nat) : FV :=
  let neg := w / f.signBit % 2 == 1
  let mag := w % f.signBit
  if f.noInf && mag == f.infPat then .nan
  else if !f.noInf && decide (f.infPat < mag) then .nan
  else if !f.noInf && mag == f.infPat then .inf neg
  else
    let x := mag / 2 ^ f.fbits
    let m := mag % 2 ^ f.fbits
    if x = 0 then .fin neg m (f.emin - f.fbits) else .fin neg (m + 2 ^ f.fbits) (f.emin - f.fbits + (x - 1 : Nat))

/-- ⌊m ÷ 2^n⌋ rounded to nearest, ties to even. -/
def rneShift (m n : Nat) : Nat :=
  let q := m / 2 ^ n
  let r := m % 2 ^ n
  if n = 0 then m
  else if r > 2 ^ (n - 1) ∨ (r = 2 ^ (n - 1) ∧ q % 2 = 1) then q + 1 else q

/-- ⌊log₂⌋ of the magnitude of a non-zero finite value (R118). -/
def topExp (m : Nat) (e : Int) : Int := (Nat.log2 m : Int) + e

/-- The exponent of the last place of a magnitude in a format. -/
def Fmt.quantum (f : Fmt) (m : Nat) (e : Int) : Int := max (topExp m e) f.emin - f.fbits

/-- The magnitude pattern of `k` units of the last place 2^`q`. -/
def Fmt.magPat (f : Fmt) (k : Nat) (q : Int) : Nat := (q - (f.emin - f.fbits)).toNat * 2 ^ f.fbits + k

/-- The magnitude pattern of a finite magnitude, rounded to nearest even; infPat or beyond when it passes the largest
finite value (R145). -/
def Fmt.round (f : Fmt) (m : Nat) (e : Int) : Nat :=
  if m = 0 then 0
  else
    let q := f.quantum m e
    if q ≤ e then f.magPat (m * 2 ^ (e - q).toNat) q else f.magPat (rneShift m (q - e).toNat) q

/-- Write a value (R145, R146). -/
def Fmt.enc (f : Fmt) (v : FV) : Nat :=
  match v with
  | .nan => f.nanPat
  | .inf neg => if f.noInf then f.nanPat else f.infPat + (if neg then f.signBit else 0)
  | .fin neg m e =>
    let p := f.round m e
    if f.infPat ≤ p then (if f.noInf then f.nanPat else f.infPat + (if neg then f.signBit else 0))
    else p + (if neg then f.signBit else 0)

/-- Round to FP32, keeping the value. -/
def rnd32 (v : FV) : FV := fmtFP32.dec (fmtFP32.enc v)

/-- A value is finite. -/
def FV.isFin : FV → Bool
  | .fin _ _ _ => true
  | _ => false

/-- A value is ±0. -/
def FV.isZero : FV → Bool
  | .fin _ 0 _ => true
  | _ => false

/-- Sign changed. -/
def FV.neg : FV → FV
  | .nan => .nan
  | .inf n => .inf (!n)
  | .fin n m e => .fin (!n) m e

/-- Magnitude. -/
def FV.abs : FV → FV
  | .nan => .nan
  | .inf _ => .inf false
  | .fin _ m e => .fin false m e

/-- v × 2^n exactly (R148). -/
def FV.scale (v : FV) (n : Int) : FV :=
  match v with
  | .fin s m e => .fin s m (e + n)
  | x => x

/-- The exact product. -/
def FV.mul (a b : FV) : FV :=
  match a, b with
  | .nan, _ => .nan
  | _, .nan => .nan
  | .inf s, .inf t => .inf (s != t)
  | .inf s, .fin t m _ => if m = 0 then .nan else .inf (s != t)
  | .fin t m _, .inf s => if m = 0 then .nan else .inf (s != t)
  | .fin s m e, .fin t n f => .fin (s != t) (m * n) (e + f)

/-- The signed integer of a finite value in units of 2^`q`, for `q` at most its exponent. -/
def unitsOf (neg : Bool) (m : Nat) (e q : Int) : Int :=
  let k : Int := (m * 2 ^ (e - q).toNat : Nat)
  if neg then -k else k

/-- The exact sum; an exact zero is +0 unless both terms are −0. -/
def FV.add (a b : FV) : FV :=
  match a, b with
  | .nan, _ => .nan
  | _, .nan => .nan
  | .inf s, .inf t => if s = t then .inf s else .nan
  | .inf s, _ => .inf s
  | _, .inf t => .inf t
  | .fin s m e, .fin t n f =>
    if m = 0 ∧ n = 0 then .fin (s && t) 0 0
    else if m = 0 then .fin t n f
    else if n = 0 then .fin s m e
    else
      let q := min e f
      let k := unitsOf s m e q + unitsOf t n f q
      .fin (decide (k < 0)) k.natAbs q

/-- FP32 sum. -/
def add32 (a b : FV) : FV := rnd32 (a.add b)

/-- FP32 product. -/
def mul32 (a b : FV) : FV := rnd32 (a.mul b)

/-- FP32 fused multiply and add. -/
def fma32 (a b c : FV) : FV := rnd32 ((a.mul b).add c)

/-- a < b for values that are not NaN. -/
def FV.lt (a b : FV) : Bool :=
  match a, b with
  | .nan, _ => false
  | _, .nan => false
  | .inf s, .inf t => s && !t
  | .inf s, _ => s
  | _, .inf t => !t
  | .fin s m e, .fin t n f => decide (unitsOf s m e (min e f) < unitsOf t n f (min e f))

/-- The quotient of two finite values with non-zero divisor, with enough bits and a sticky bit below that one rounding to
any format of R140 is exact. -/
def divExact (s : Bool) (m : Nat) (e : Int) (t : Bool) (n : Nat) (f : Int) : FV :=
  if m = 0 then .fin (s != t) 0 0
  else
    let k := 64 + Nat.log2 n
    let x := m * 2 ^ k
    .fin (s != t) (2 * (x / n) + (if x % n = 0 then 0 else 1)) (e - f - k - 1)

/-- The quotient before rounding. -/
def FV.div (a b : FV) : FV :=
  match a, b with
  | .nan, _ => .nan
  | _, .nan => .nan
  | .inf _, .inf _ => .nan
  | .inf s, .fin t _ _ => .inf (s != t)
  | .fin s _ _, .inf t => .fin (s != t) 0 0
  | .fin s m e, .fin t n f =>
    if n = 0 then (if m = 0 then .nan else .inf (s != t)) else divExact s m e t n f

/-- FP32 quotient. -/
def div32 (a b : FV) : FV := rnd32 (a.div b)

/-- ⌊log₂|v|⌋ of a non-zero finite value. -/
def FV.top : FV → Option Int
  | .fin _ m e => if m = 0 then none else some (topExp m e)
  | _ => none

/-- The largest of the ⌊log₂⌋ of the finite non-zero values of a list. -/
def maxTop (l : List FV) : Option Int :=
  l.foldl (fun a v => match v.top, a with
    | some x, some y => some (max x y)
    | some x, none => some x
    | none, y => y) none

/-- The nearest integer of a finite value, ties to even. -/
def FV.toIntRne : FV → Int
  | .fin s m e =>
    let k : Int := (if 0 ≤ e then m * 2 ^ e.toNat else rneShift m (-e).toNat : Nat)
    if s then -k else k
  | _ => 0

/-- An integer as a value. -/
def fvInt (i : Int) : FV := .fin (decide (i < 0)) i.natAbs 0

/-- FP32 left fold of a sum. -/
def sum32 : List FV → FV
  | [] => fv0
  | v :: r => r.foldl add32 (rnd32 v)

/-- Signed value of a byte. -/
def sbyte (v : Nat) : Int := if v % 256 ≥ 128 then (v % 256 : Int) - 256 else (v % 256 : Int)

/-- Two's complement of a signed value in `w` bits. -/
def twos (w : Nat) (i : Int) : Nat := (i % (2 ^ w : Nat)).toNat

/-- Signed value of `w` bits. -/
def signedOf (w v : Nat) : Int := if v % 2 ^ w ≥ 2 ^ (w - 1) then (v % 2 ^ w : Int) - (2 ^ w : Nat) else (v % 2 ^ w : Int)

/-- A value clamped to a range. -/
def clampI (lo hi v : Int) : Int := max lo (min hi v)

end Sys2Proof.Machine
end

