-- ==== Sys2Proof/Machine/Quant.lean ====
section
/-! DEFINITION. Q8A: encoding and decoding one channel chunk (R264 to R275). -/

namespace Sys2Proof.Machine

/-- The value of a BF16 word. -/
def bf (w : Nat) : FV := fmtBF16.dec w

/-- An encoded channel chunk: KIND 0 Q8, 1 CONST, 2 RAW; ZP holds the reason of a RAW one. -/
structure Chan where
  kind : Nat
  zp : Nat := 0
  val : Nat := 0
  bnd : Nat := 0
  /-- token and BF16 word of each side entry -/
  side : List (Nat × Nat) := []
  codes : List Nat := []
deriving DecidableEq, Repr

/-- The extreme value of a list under an order; `fv0` for an empty list. -/
def extreme (lt : FV → FV → Bool) : List FV → FV
  | [] => fv0
  | v :: r => r.foldl (fun a x => if lt a x then x else a) v

/-- Remove one element that no other passes. -/
def dropTop (lt : FV → FV → Bool) (l : List FV) : List FV :=
  match l.findIdx? fun v => !l.any (lt v) with
  | some i => l.eraseIdx i
  | none => l

/-- Remove `n` of them in turn. -/
def dropTops (lt : FV → FV → Bool) : Nat → List FV → List FV
  | 0, l => l
  | n + 1, l => dropTops lt n (dropTop lt l)

/-- The core: the finite values less the 8 largest and the 8 smallest, or all of at most 16 (R267). -/
def coreOf (fin : List FV) : List FV :=
  if 16 < fin.length then dropTops (fun a b => FV.lt b a) 8 (dropTops FV.lt 8 fin) else fin

/-- A finite value lies beyond the bounds of R268. -/
def outlier (outExp : Nat) (core : List FV) (v : FV) : Bool :=
  let hi := extreme FV.lt core
  let lo := extreme (fun a b => FV.lt b a) core
  let w := rnd32 ((add32 hi lo.neg).scale (outExp : Int))
  (add32 hi w).lt v || v.lt (add32 lo w.neg)

/-- A positive value rounded towards +∞ into FP16; none beyond 65,504 (R269). -/
def fp16Up (v : FV) : Option FV :=
  match v with
  | .fin _ m e =>
    if m = 0 then some (.fin false 1 (-24))
    else
      let q := fmtFP16.quantum m e
      let r : FV := if q ≤ e then .fin false m e
        else .fin false ((m + (2 ^ (q - e).toNat - 1)) / 2 ^ (q - e).toNat) q
      if FV.lt (.fin false 65504 0) r then none else some r
  | _ => none

/-- BND: the largest finite magnitude, as BF16 (R272). -/
def bndOf (xs : List Nat) : Nat :=
  fmtBF16.enc (extreme FV.lt (((xs.map bf).filter (·.isFin)).map FV.abs))

/-- The code of a remaining value (R270). -/
def codeOf (s : FV) (zp : Int) (v : FV) : Nat := (clampI 0 254 ((div32 v s).toIntRne + zp)).toNat

/-- The Q8 form of a chunk whose side list is `side`, or RAW when its scale is beyond range (R269, R270). -/
def q8Of (xs : List Nat) (side : List (Nat × Nat)) (inSide : Nat → Bool) (bnd : Nat) : Chan :=
  let rest := (xs.filter fun x => !inSide x).map bf
  let hi := extreme FV.lt (fv0 :: rest)
  let lo := extreme (fun a b => FV.lt b a) (fv0 :: rest)
  match fp16Up (div32 (add32 hi lo.neg) (fvInt 254)) with
  | none => { kind := 2, zp := 2, bnd := bnd }
  | some s =>
    let zp := clampI 0 254 (div32 lo.neg s).toIntRne
    { kind := 0, zp := zp.toNat, val := fmtFP16.enc s, bnd := bnd, side := side,
      codes := xs.map fun x => if inSide x then 0xFF else codeOf s zp (bf x) }

/-- Encode the BF16 values of a channel chunk (R265 to R272). -/
def encChan (outExp : Nat) (xs : List Nat) : Chan :=
  let bnd := bndOf xs
  let x0 := xs.headD 0
  let fin := (xs.map bf).filter (·.isFin)
  if (bf x0).isFin && xs.all (· == x0) then { kind := 1, val := x0, bnd := bnd }
  else if 16 < xs.length - fin.length then { kind := 2, zp := 1, bnd := bnd }
  else
    let core := coreOf fin
    let inSide := fun x => !(bf x).isFin || outlier outExp core (bf x)
    let side := (xs.zipIdx.filter fun e => inSide e.1).map fun e => (e.2, e.1)
    if 16 < side.length then { kind := 2, zp := 1, bnd := bnd } else q8Of xs side inSide bnd

/-- The 8 bytes of a header (R274). -/
def hdrBytes (c : Chan) (rawIdx : Nat) : List Byte :=
  leBytes 1 (c.kind + 4 * c.side.length) ++ leBytes 1 c.zp ++ leBytes 2 c.val ++ leBytes 2 c.bnd ++ leBytes 2 rawIdx

/-- The 64 bytes of a side list (R275). -/
def sideBytes (c : Chan) : List Byte :=
  (c.side.flatMap fun e => leBytes 4 (e.1 + 65536 * e.2)) ++ List.replicate (64 - 4 * c.side.length) 0

/-- The code of token `t`; 0 for CONST and RAW and beyond the chunk (R275). -/
def chanCode (c : Chan) (t : Nat) : Byte := BitVec.ofNat 8 (c.codes.getD t 0)

/-- KIND of a header. -/
def hKind (h : List Byte) : Nat := bits (leVal (h.take 1)) 0 2
/-- NSIDE of a header. -/
def hSide (h : List Byte) : Nat := bits (leVal (h.take 1)) 2 5
/-- ZP of a header. -/
def hZp (h : List Byte) : Nat := leVal ((h.drop 1).take 1)
/-- VAL of a header. -/
def hVal (h : List Byte) : Nat := leVal ((h.drop 2).take 2)
/-- BND of a header. -/
def hBnd (h : List Byte) : Nat := leVal ((h.drop 4).take 2)
/-- RAW_IDX of a header. -/
def hRaw (h : List Byte) : Nat := leVal ((h.drop 6).take 2)

/-- Side entry `j` of a side list. -/
def sideAt (sd : List Byte) (j : Nat) : Nat := leVal ((sd.drop (4 * j)).take 4)

/-- Tokens whose code is 0xFF, in ascending order. -/
def escTokens (codes : List Nat) : List Nat := (codes.zipIdx.filter fun e => e.1 == 0xFF).map (·.2)

/-- The checks of R280 on one channel of a decode with `slots` raw slots. -/
def chanOk (slots : Nat) (h sd : List Byte) (codes : List Nat) : Bool :=
  let esc := escTokens codes
  hKind h != 3 && decide (hSide h ≤ 16) &&
    (if hKind h = 0 then esc.length == hSide h && esc.zipIdx.all (fun e => bits (sideAt sd e.2) 0 10 == e.1) else true) &&
    (if hKind h = 2 then decide (hRaw h < slots) || hRaw h == 0xFFFF else hRaw h == 0xFFFF)

/-- The value of a Q8 code (R271). -/
def q8Val (h : List Byte) (code : Nat) : FV := mul32 (fvInt ((code : Int) - (hZp h : Int))) (fmtFP16.dec (hVal h))

/-- A decoded element: its value, and its BF16 word where the chunk keeps it bit for bit (R271). -/
structure DecVal where
  v : FV := fv0
  word : Option Nat := none
deriving DecidableEq, Repr

/-- An element that is kept as a BF16 word. -/
def decKept (w : Nat) : DecVal := { v := bf w, word := some w }

/-- Decode a channel that passed its checks: its values by token (R271). -/
def decChan (h sd raw : List Byte) (codes : List Nat) : List DecVal :=
  if hKind h = 1 then codes.map fun _ => decKept (hVal h)
  else if hKind h = 2 then (List.range codes.length).map fun t => decKept (leVal ((raw.drop (2 * t)).take 2))
  else (codes.foldl (fun (a : List DecVal × Nat) c =>
    if c = 0xFF then (a.1 ++ [decKept (bits (sideAt sd a.2) 16 16)], a.2 + 1) else (a.1 ++ [{ v := q8Val h c }], a.2)) ([], 0)).1

end Sys2Proof.Machine
end

