-- ==== Sys2Proof/Machine/Host.lean ====
section
/-! DEFINITION. The host's command path: doorbells, fetching, starting and completing commands, the BAR2 window, and the
commands NOP, ABORT, SET_SEED and COPY (R508 to R532). -/

namespace Sys2Proof.Machine

/-! ## Submission queues -/

/-- Entries that a submission ring holds. -/
def sqSize (s : State) (c q : Nat) : Nat := 2 ^ getFk s CQ_SQ_CFG_LOG2_ENTRIES c q

/-- A tail write or a fetch of queue `q` failed at index `i` (R514, R533). -/
def sqFault (c q i : Nat) (s : State) : State :=
  setEvt CQ_EV_SQ_FAULT c (setF CQ_ERR_INFO_QUEUE c q (setF CQ_ERR_INFO_INDEX c i s))

/-- A doorbell that has passed the gate: the new tail is recorded, or ignored at or beyond the ring's size (R514). -/
def sqTailSet (v c o : Nat) (s : State) : State :=
  if 0x100 ≤ o ∧ o < 0x200 ∧ (o - 0x100) % 64 = 0xC then
    let q := (o - 0x100) / 64
    if v % 65536 < sqSize s c q then setFk CQ_SQ_TAIL c q (v % 65536) s else sqFault c q (v % 65536) s
  else s

/-- SQ_TAIL: a doorbell (R514). Every BAR2 write before it has reached memory, since a BAR2 write is one step (R512). -/
def sqTail (r : Requester) (a v : Nat) (s : State) : State :=
  if a % 4 = 0 then guarded r a (fun t i o s => if t = 12 then sqTailSet v i o s else s) s else s

/-- SQ_TAIL. -/
def execSqTail (r : Requester) (a v : Nat) (s : State) : Host.Outcome State Fault Refusal := .next (sqTail r a v s)

/-- A write of SQ_CFG.EN that has passed the gate; a change from 0 to 1 ends a halt (R514). -/
def sqEnableSet (v c o : Nat) (s : State) : State :=
  if 0x100 ≤ o ∧ o < 0x200 ∧ (o - 0x100) % 64 = 8 ∧ rangesOk v (fldsAt 12 o) then
    let q := (o - 0x100) / 64
    let rise := getFk s CQ_SQ_CFG_EN c q == 0 && bit v 8
    setFk CQ_SQ_CFG_EN c q (bits v 8 1) (modQueue c q (fun x => { x with halted := x.halted && !rise }) s)
  else s

/-- SQ_ENABLE (R514). -/
def sqEnable (r : Requester) (a v : Nat) (s : State) : State :=
  if a % 4 = 0 then guarded r a (fun t i o s => if t = 12 then sqEnableSet v i o s else s) s else s

/-- SQ_ENABLE. -/
def execSqEnable (r : Requester) (a v : Nat) (s : State) : Host.Outcome State Fault Refusal := .next (sqEnable r a v s)

/-- The queue fetches: it is enabled, not halted, has a new entry, and its completion ring holds fewer than 64 entries
back (R514, R517). -/
def sqFetches (s : State) (c q : Nat) : Bool :=
  getFk s CQ_SQ_CFG_EN c q != 0 && !(queueOf s c q).halted && getFk s CQ_SQ_HEAD c q != getFk s CQ_SQ_TAIL c q
    && !cqStuck s c q

/-- A fetched entry gets slot `n`: the handle is allocated and its ACCEPT posted (R515, R516, R520). -/
def acceptEntry (c q n : Nat) (x : Ctx) (entry : List Byte) (s : State) : State :=
  let head := getFk s CQ_SQ_HEAD c q
  let e := (entry ++ zeros 64).take 64
  let s := modCtx c (fun _ => x) s
  let gen := (slotOf s c n).gen
  let s := modSlot c n (fun _ => { gen := gen, inUse := true, entry := e, sq := q, sqIdx := head }) s
  let s := setFk CQ_SQ_HEAD c q ((head + 1) % sqSize s c q) (setF CQ_SLOTS_USED c (getF s CQ_SLOTS_USED c + 1) s)
  cqPost c q (cqEntry (handleOf c n gen) head 0 q (opOf e) 0 0 0)
    (modQueue c q (fun y => { y with waiting := y.waiting ++ [n] }) s)

/-- SQ_ENTRY_FETCH: the entry at the head of queue `q` of context `c` is fetched; the host answers with an error when `ok`
is false (R514, R515, R520). -/
def sqEntryFetch (c q : Nat) (ok : Bool) (entry : List Byte) (s : State) : State :=
  if c < 16 ∧ q < 4 ∧ sqFetches s c q then
    match nextSlot (ctxOf s c) with
    | none => setEvt CQ_EV_HANDLES_OUT c s
    | some (n, x) =>
      if ok then acceptEntry c q n x entry s
      else sqFault c q (getFk s CQ_SQ_HEAD c q) (modQueue c q (fun y => { y with halted := true }) s)
  else s

/-- SQ_ENTRY_FETCH. -/
def execSqEntryFetch (c q : Nat) (ok : Bool) (entry : List Byte) (s : State) : Host.Outcome State Fault Refusal :=
  .next (running s (sqEntryFetch c q ok entry s))

/-- A command was refused with DENIED (R523, R535). -/
def denyCmd (h : Nat) (s : State) : State :=
  report h 2 0 0 (setEvt HOSTIF_EV_DENIED 0 (incr HOSTIF_DENIED_CNT 0
    (setF HOSTIF_ERR_INFO_FUNCTION 0 (ownerFn s (hCtx h)) (setF HOSTIF_ERR_INFO_EVENT 0 2 s))))

/-- The oldest accepted command of the queue may start: no command before it waits for its turn, and with FENCE every
earlier one has completed (R515, R528). -/
def mayStart (s : State) (c q : Nat) (e : List Byte) : Bool :=
  let act := (queueOf s c q).active
  act.all fun n => !(slotOf s c n).waitTurn && (!fenceOf e || (slotOf s c n).ended)

/-- COMMAND_START: the oldest accepted command of queue `q` starts; one that R523 forbids ends at once with INVALID or
DENIED (R515, R523). -/
def commandStart (c q : Nat) (s : State) : State :=
  match (queueOf s c q).waiting with
  | [] => s
  | n :: r =>
    let sl := slotOf s c n
    if mayStart s c q sl.entry then
      let h := handleOf c n sl.gen
      let s := modQueue c q (fun x => { x with waiting := r, active := x.active ++ [n] }) s
      if !cmdValid sl.entry then
        report h 1 0 0 (modSlot c n (fun x => { x with started := true, running := true }) s)
      else if cmdDenied s c sl.entry then
        denyCmd h (modSlot c n (fun x => { x with started := true, running := true }) s)
      else modSlot c n (fun x => { x with started := true }) s
    else s

/-- COMMAND_START. -/
def execCommandStart (c q : Nat) (s : State) : Host.Outcome State Fault Refusal := .next (running s (commandStart c q s))

/-! ## Completion queues -/

/-- Remove element `n` of a list. -/
def takeAt {α : Type} : Nat → List α → Option (α × List α)
  | _, [] => none
  | 0, a :: r => some (a, r)
  | n + 1, a :: r => (takeAt n r).map fun e => (e.1, a :: e.2)

/-- A report of the host DMA: of COPY, EXPORT or MEMREC_EXPORT. -/
def dmaReport (s : State) (r : Report) : Bool :=
  let op := opOf (entryOf s r.handle)
  op == 0x20 || op == 0x21 || op == 0x51

/-- An earlier report of the same sender is on its way: those of the host DMA pass one crossing in order (R43). -/
def reportBehind (s : State) (n : Nat) (r : Report) : Bool := dmaReport s r && (s.reports.take n).any (dmaReport s)

/-- COMPLETION_REPORT: report `n` of those on their way reaches the hub. It is posted as the COMPLETE of its handle, waits
in its crossing while the hub holds 64 entries for the queue, or is discarded as stale (R517, R521). -/
def completionReport (n : Nat) (s : State) : State :=
  match takeAt n s.reports with
  | none => s
  | some (r, rest) =>
    let c := hCtx r.handle
    if reportBehind s n r then s
    else if handleLive s r.handle then
      if cqStuck s c (slotOf s c (hSlot r.handle)).sq then s
      else endCmd r.handle r.status r.r0 r.r1 { s with reports := rest }
    else setEvt CQ_EV_STALE c (incr CQ_STALE_CNT c { s with reports := rest })

/-- COMPLETION_REPORT. -/
def execCompletionReport (n : Nat) (s : State) : Host.Outcome State Fault Refusal := .next (running s (completionReport n s))

/-- A CQ_HEAD write that has passed the gate: the entries before the new head are free, and held entries are written while
there is room. `waited` hclk have passed in which an entry waited (R516, R517). -/
def cqHeadSet (v waited c o : Nat) (s : State) : State :=
  if 0x100 ≤ o ∧ o < 0x200 ∧ (o - 0x100) % 64 = 0x20 then
    let q := (o - 0x100) / 64
    let size := cqSize s c q
    let s := if (queueOf s c q).held.isEmpty then s else addF CQ_CQ_FULL_HCLK c waited s
    let s := setFk CQ_CQ_HEAD c q (v % 1048576) s
    let s := modQueue c q (fun x => { x with used := (getFk s CQ_CQ_TAIL c q + size - v % 1048576 % size) % size }) s
    cqDrain c q (queueOf s c q).held.length s
  else s

/-- CQ_HEAD (R516, R517). -/
def cqHead (r : Requester) (a v waited : Nat) (s : State) : State :=
  if a % 4 = 0 then guarded r a (fun t i o s => if t = 12 then cqHeadSet v waited i o s else s) s else s

/-- CQ_HEAD. -/
def execCqHead (r : Requester) (a v waited : Nat) (s : State) : Host.Outcome State Fault Refusal :=
  .next (cqHead r a v waited s)

/-- COALESCE_TIMER: COAL_US microseconds have passed since the first COMPLETE past the last signal; a COAL_US of 0 sets no
limit (R531). -/
def coalesceTimer (c q : Nat) (s : State) : State :=
  if (queueOf s c q).coal ≠ 0 ∧ getFk s CQ_CQ_CFG_COAL_US c q ≠ 0 then cqSignal c q s else s

/-- COALESCE_TIMER. -/
def execCoalesceTimer (c q : Nat) (s : State) : Host.Outcome State Fault Refusal := .next (running s (coalesceTimer c q s))

/-! ## The BAR2 window (R511) -/

/-- A BAR2 access missed (R511, R535). -/
def bar2Fault (s : State) : State :=
  setEvt HOSTIF_EV_BAR2_FAULT 0 (incr HOSTIF_BAR2_FAULT_CNT 0
    (setF HOSTIF_ERR_INFO_FUNCTION 0 0 (setF HOSTIF_ERR_INFO_EVENT 0 1 s)))

/-- Module address of a BAR2 offset. -/
def bar2Addr (s : State) (off : Nat) : Nat := getF s HOSTIF_BAR2_BASE 0 * 4096 + off

/-- `n` free bytes for a value that the spec leaves open (log entry 5). -/
def freeBytes (s : State) : Nat → List Byte
  | 0 => []
  | n + 1 => freeBytes s n ++ [Config.freeByte s.freeCtr n]

/-- The counter of the free values moves on. -/
def nextFree (s : State) : State := { s with freeCtr := s.freeCtr + 1 }

/-- BAR2_READ of `n` bytes: a miss returns all ones; what an uncorrectable access returns is left open (R511, R313). -/
def bar2Read (off n : Nat) (s : State) : State :=
  if isF s HOSTIF_BAR2_CTRL_EN 0 then
    match engRead 0 5 (bar2Addr s off) n s with
    | (.data bs, s) => emit (.bar2 bs) s
    | (.fault _, s) => emit (.bar2 (List.replicate n 0xFF)) (bar2Fault s)
    | (.uncorr, s) => nextFree (emit (.bar2 (freeBytes s n)) s)
  else emit (.bar2 (List.replicate n 0xFF)) (bar2Fault s)

/-- BAR2_READ. -/
def execBar2Read (off n : Nat) (s : State) : Host.Outcome State Fault Refusal := .next (awake s (bar2Read off n s))

/-- BAR2_WRITE: a miss writes nothing (R511). -/
def bar2Write (off : Nat) (data : List Byte) (s : State) : State :=
  if isF s HOSTIF_BAR2_CTRL_EN 0 then
    let e := memWrite 0 (bar2Addr s off) data s
    if e.1 then e.2 else bar2Fault e.2
  else bar2Fault s

/-- BAR2_WRITE. -/
def execBar2Write (off : Nat) (data : List Byte) (s : State) : Host.Outcome State Fault Refusal := .next (awake s (bar2Write off data s))

/-! ## Commands (R525) -/

/-- NOP completes at once. -/
def nop (h : Nat) (s : State) : State := runCmd h 0x01 (fun _ s => report h 0 0 0 s) s

/-- NOP. -/
def execNop (h : Nat) (s : State) : Host.Outcome State Fault Refusal := .next (running s (nop h s))

/-- A window that waits for the command `t` is given up (R327, R528). -/
def dropWindow (t : Nat) (s : State) : State :=
  match s.window with
  | some w => if w.handle = t ∧ !w.started then { s with window := none } else s
  | none => s

/-- ABORT: the target is completed with ABORTED when it has not started, a wait for its turn included; then ABORT itself
completes (R525, R527, R528). -/
def abort (h : Nat) (s : State) : State :=
  runCmd h 0x02 (fun e s =>
    let t := argOf e 0
    let sl := slotOf s (hCtx t) (hSlot t)
    if hCtx t ≠ hCtx h then report h 1 0 0 s
    else if !handleLive s t then report h 4 0 0 s
    else if sl.started && !sl.waitTurn then report h 5 0 0 s
    else report h 0 0 0 (endCmd t 3 0 0 (setTurn t false (dropWindow t s)))) s

/-- ABORT. -/
def execAbort (h : Nat) (s : State) : Host.Outcome State Fault Refusal := .next (running s (abort h s))

/-- SET_SEED sets the job seed, or is refused while a step of the context is open (R525, R526). -/
def setSeed (h : Nat) (s : State) : State :=
  runCmd h 0x10 (fun e s =>
    if stepIsOpen s (hCtx h) then report h 8 0 0 s
    else report h 0 0 0 (modCtx (hCtx h) (fun x => { x with seed := some (argOf e 0), seedNew := true }) s)) s

/-- SET_SEED. -/
def execSetSeed (h : Nat) (s : State) : Host.Outcome State Fault Refusal := .next (running s (setSeed h s))

/-- The end of a COPY: its CRC-32C is compared when CHECK is 1 (R284, R525). -/
def copyEnd (h : Nat) (e data : List Byte) (s : State) : State :=
  report h (if bit (argOf e 2) 34 && crc32c data != argOf e 3 then 9 else 0) (crc32c data) 0 s

/-- COPY's data reaches its destination. -/
def copyPut (h : Nat) (e data : List Byte) (s : State) : State :=
  if bits (argOf e 2) 32 2 = 1 then copyEnd h e data (hostWrite (argOf e 1) data s)
  else
    let w := memWrite 0 (argOf e 1) data s
    if w.1 then copyEnd h e data w.2 else report h 0x13 0 0 w.2

/-- The row of a command of the host DMA takes it up once the DMA's Sluice has granted it (R366). -/
def runDma (h op : Nat) (f : List Byte → State → State) (s : State) : State :=
  if hubGranted s 537 (hCtx h) h then runCmd h op (fun e s => f e (hubTake 537 (hCtx h) h s)) s else s

/-- COPY: `hd` is what the host memory at A0 holds, for a copy from the host (R284, R525). -/
def copy (h : Nat) (hd : List Byte) (s : State) : State :=
  runDma h 0x20 (fun e s =>
    let n := argOf e 2 % two32
    if bits (argOf e 2) 32 2 = 0 then copyPut h e ((hd ++ zeros n).take n) s
    else cmdRead h 5 (argOf e 0) n (copyPut h e) s) s

/-- COPY. -/
def execCopy (h : Nat) (hd : List Byte) (s : State) : Host.Outcome State Fault Refusal := .next (awake s (copy h hd s))

end Sys2Proof.Machine
end

