-- ==== Sys2Proof/Machine/Sync.lean ====
section
/-! DEFINITION. Counting flags, barriers, waiting and waking, epochs and ownership (R350 to R367). -/

namespace Sys2Proof.Machine

/-! ## Ownership and epochs -/

/-- Kind 0 is a flag, 1 a barrier: VALID and OWNER of an object at a home (0 to 3 a die, 4 the hub; R351). -/
def objValid (s : State) (home kind n : Nat) : Bool :=
  if kind = 0 then getFk s SYNC_FLAG_OWN_VALID home (n / 64) != 0 else getFk s SYNC_BAR_CFG_VALID home n != 0

/-- OWNER of an object. -/
def objOwner (s : State) (home kind n : Nat) : Nat :=
  if kind = 0 then getFk s SYNC_FLAG_OWN_OWNER home (n / 64) else getFk s SYNC_BAR_CFG_OWNER home n

/-- The epoch of a context at a home (R362, R371). -/
def epochOf (s : State) (home c : Nat) : Nat := bits (getFk s SYNC_EPOCH home (c / 8)) (4 * (c % 8)) 4

/-- Advance a context's epoch at one home by one modulo 16. -/
def bumpEpochAt (c home : Nat) (s : State) : State :=
  let w := getFk s SYNC_EPOCH home (c / 8)
  let e := epochOf s home c
  setFk SYNC_EPOCH home (c / 8) (w - e * 16 ^ (c % 8) + (e + 1) % 16 * 16 ^ (c % 8)) s

/-- Advance a context's epoch on every die and in the hub (R363). -/
def bumpEpoch (c : Nat) (s : State) : State :=
  bumpEpochAt c 4 (bumpEpochAt c 3 (bumpEpochAt c 2 (bumpEpochAt c 1 (bumpEpochAt c 0 s))))

/-- Change an object. -/
def modObj (k : Nat) (f : SyncObj → SyncObj) (s : State) : State := { s with objs := s.objs.upd {} k f }

/-- Send a release to the sync node or hub engine of a waiting party (R358). -/
def sendRelease (p : Party) (st : RelStatus) (s : State) : State := { s with releases := s.releases ++ [⟨p, st⟩] }

/-- Send the same release to several parties. -/
def sendReleases (st : RelStatus) : List Party → State → State
  | [], s => s
  | p :: ps, s => sendReleases st ps (sendRelease p st s)

/-! ## Counting and releasing -/

/-- Add to an object's count, which saturates at 65,535 (R361). -/
def addCount (home k n : Nat) (s : State) : State :=
  if (objOf s k).count + n > 65535 then
    setEvt SYNC_EV_SAT home (incr SYNC_SAT_CNT home (modObj k (fun o => { o with count := 65535, ovf := true }) s))
  else modObj k (fun o => { o with count := o.count + n }) s

/-- Release flag waiters strictly in the order in which they registered, while the count suffices (R355); at most `n`. -/
def flagRelease (home k : Nat) : Nat → State → State
  | 0, s => s
  | n + 1, s =>
    let o := objOf s k
    match o.waiters with
    | w :: r =>
      if w.need ≤ o.count then
        flagRelease home k n (sendRelease w.party .ok (incr SYNC_WAITS_DONE home
          (modObj k (fun o => { o with waiters := r, count := if w.consume then o.count - w.need else o.count }) s)))
      else s
    | [] => s

/-- Examine a flag's waiters. -/
def flagExamine (home k : Nat) (s : State) : State := flagRelease home k (objOf s k).waiters.length s

/-- Consume `n` arrivals in counting order: what is left, the arrivals whose last unit was consumed, and whether any
consumed arrival was marked (R357). -/
def consumeArr : Nat → List Arrival → List Arrival × List Arrival × Bool
  | _, [] => ([], [], false)
  | n, a :: r =>
    if n = 0 then (a :: r, [], false)
    else if n < a.left then ({ a with left := a.left - n } :: r, [], a.mark)
    else
      let e := consumeArr (n - a.left) r
      (e.1, a :: e.2.1, a.mark || e.2.2)

/-- Release a barrier while its count is at least N (R356, R357); at most `n` times. -/
def barRelease (home b : Nat) : Nat → State → State
  | 0, s => s
  | n + 1, s =>
    let k := objKey home 1 b
    let o := objOf s k
    let N := getFk s SYNC_BAR_CFG_N home b
    if N ≠ 0 ∧ N ≤ o.count then
      let e := consumeArr N o.arrivals
      let st := if e.2.2 then RelStatus.marked else RelStatus.ok
      barRelease home b n (sendReleases st ((e.2.1.filter (·.waits)).map (·.party)) (incr SYNC_BAR_RELEASE home
        (modObj k (fun o => { o with count := o.count - N, gen := (o.gen + 1) % 256, arrivals := e.1 }) s)))
    else s

/-- Examine a barrier's waiters. -/
def barExamine (home b : Nat) (s : State) : State := barRelease home b (objOf s (objKey home 1 b)).count s

/-- A home discards an operation whose context does not own the object, whose object has VALID = 0 or whose epoch is not
current (R362). -/
def stale (s : State) (o : SyncOp) : Bool :=
  let kind := if o.op = 0x53 then 1 else 0
  !objValid s o.home kind o.obj || objOwner s o.home kind o.obj != o.ctx || epochOf s o.home o.ctx != o.epoch

/-- Count a discarded operation (R362). -/
def countStale (home : Nat) (s : State) : State := setEvt SYNC_EV_STALE_SIG home (incr SYNC_STALE_SIG_CNT home s)

/-- CONSUME of an operation's flag bits. -/
def opConsume (o : SyncOp) : Bool := bit o.flags 9
/-- NOWAIT of an operation. -/
def opNowait (o : SyncOp) : Bool := bit o.flags 10
/-- MARK of an operation. -/
def opMark (o : SyncOp) : Bool := bit o.flags 11

/-- A SIGNAL is counted at its home (R354, R362). -/
def homeSignal (o : SyncOp) (s : State) : State :=
  if stale s o then countStale o.home s
  else flagExamine o.home (objKey o.home 0 o.obj)
    (addCount o.home (objKey o.home 0 o.obj) o.count (incr SYNC_SIGNALS o.home s))

/-- Waiter places of a flag at its home (R366). -/
def waiterPlaces : Nat := 64

/-- An operation is held in its crossing behind the others (R44, R366). -/
def holdOp (o : SyncOp) (s : State) : State := { s with crossing := s.crossing ++ [o] }

/-- A WAIT registers at its flag's home behind every earlier waiter, is held in its crossing while the waiter table is
full, or is discarded and completes STALE (R355, R362, R366). -/
def homeWait (o : SyncOp) (s : State) : State :=
  let k := objKey o.home 0 o.obj
  if stale s o then sendRelease o.party .stale (countStale o.home s)
  else if waiterPlaces ≤ (objOf s k).waiters.length then holdOp o s
  else flagExamine o.home k (modObj k (fun x => { x with waiters := x.waiters ++
    [{ party := o.party, ctx := o.ctx, need := o.count, consume := opConsume o }] }) s)

/-- An ARRIVE is counted at its barrier's home, or is discarded; a waiting arriver then gets a STALE release
(R356, R362). -/
def homeArrive (o : SyncOp) (s : State) : State :=
  let k := objKey o.home 1 o.obj
  if stale s o then
    let s := countStale o.home s
    if opNowait o then s else sendRelease o.party .stale s
  else
    let n := min o.count (65535 - (objOf s k).count)
    barExamine o.home o.obj (addCount o.home k o.count (modObj k (fun x => { x with arrivals := x.arrivals ++
      [{ party := o.party, ctx := o.ctx, left := n, mark := opMark o, waits := !opNowait o }] }) s))

/-! ## Crossings (R43 to R45) -/

/-- The receiver of a crossing runs: the control island of the home's die, or the collective engine for the hub. Otherwise the
crossing holds its operations (R44). -/
def homeOn (s : State) (home : Nat) : Bool := domOn s (if home = 4 then 122 else 88 + home)

/-- Two operations leave one sync node for one home, and so pass one crossing. -/
def sameCrossing (a b : SyncOp) : Bool := a.party.cluster == b.party.cluster && a.home == b.home

/-- A WAIT that a full waiter table keeps in its crossing; nothing waits behind it (R366). -/
def tableHeld (s : State) (o : SyncOp) : Bool :=
  o.op == 0x52 && !stale s o && decide (waiterPlaces ≤ (objOf s (objKey o.home 0 o.obj)).waiters.length)

/-- The operations of `o`'s crossing that stand before it. -/
def crossBefore (s : State) (o : SyncOp) : Nat :=
  (s.crossing.filter fun x => sameCrossing o x && !tableHeld s x).length

/-- The first operation of kind `op` in front of its crossing, and the others; `seen` are those passed over (R43). -/
def crossNext (s : State) (op : Nat) : List SyncOp → List SyncOp → Option (SyncOp × List SyncOp)
  | _, [] => none
  | seen, o :: r =>
    if o.op == op && homeOn s o.home && !tableHeld s o && !seen.any (sameCrossing o) then some (o, r)
    else (crossNext s op (if tableHeld s o then seen else o :: seen) r).map fun e => (e.1, o :: e.2)

/-- An operation reaches its home. -/
def homeTake (o : SyncOp) (s : State) : State :=
  if o.op = 0x51 then homeSignal o s else if o.op = 0x52 then homeWait o s else homeArrive o s

/-! ## Sync descriptors (R352, R353) -/

/-- Code of the first check of R353 that a descriptor breaks; 0 for a valid one. `hub` admits only ARRIVE at package
scope. -/
def syncCode (hub : Bool) (d : List Byte) : Nat :=
  let w0 := leVal (d.take 4)
  let w1 := leVal ((d.drop 4).take 4)
  let op := bits w0 0 8
  let scope := bit w0 8
  let obj := bits w1 0 12
  if op ≠ 0x51 ∧ op ≠ 0x52 ∧ op ≠ 0x53 ∨ hub ∧ (op ≠ 0x53 ∨ !scope) then 1
  else if bits w1 16 16 = 0 then 2
  else if op = 0x53 ∧ (if scope then 64 ≤ obj else 256 ≤ obj) then 3
  else if (scope ∧ op ≠ 0x53) ∨ (bit w0 9 ∧ op ≠ 0x52) ∨ (bit w0 10 ∧ op ≠ 0x53) ∨ (bit w0 11 ∧ op ≠ 0x53)
      ∨ (bits w0 12 4 ≠ 0 ∧ op = 0x51) then 4
  else if bits w0 16 16 ≠ 0 ∨ bits w1 12 4 ≠ 0 ∨ leVal ((d.drop 8).take 24) ≠ 0 then 5
  else 0

/-- SYNC.ERR_INFO takes the first fault after its last clearing (R371). -/
def syncErr (home code cluster : Nat) (s : State) : State :=
  if getF s SYNC_ERR_INFO_CODE home = 0 then
    setF SYNC_ERR_INFO_CODE home code (setF SYNC_ERR_INFO_CLUSTER home cluster s)
  else s

/-! ## The end of a list (R525, R668) -/

/-- Some list of a command is still there. -/
def listsLeft (s : State) (h : Nat) : Bool := s.clusters.any fun e => e.2.lists.any fun l => l.handle == h

/-- A LIST_RUN whose lists have all ended completes (R525, R668). -/
def listsDone (h : Nat) (s : State) : State :=
  if !listsLeft s h && handleLive s h && opOf (entryOf s h) == 0x12 then report h 0 0 0 s else s

/-- A list has taken its last descriptor, everything it passed on has completed, and no further list follows (R668). -/
def listEnded (l : ListRun) : Bool :=
  !l.pos.hdr && l.st == .run && l.desc.isNone && decide (l.pos.count ≤ l.pos.idx) && l.pos.next == 0 && l.out == 0

/-- Remove a list that has ended, and complete its command when it was the last. -/
def endList (cl lid : Nat) (s : State) : State :=
  match listOf s cl lid with
  | none => s
  | some l =>
    if listEnded l then
      listsDone l.handle (modCluster cl (fun c => { c with lists := c.lists.filter fun x => x.id != lid }) s)
    else s

/-! ## Executing -/

/-- A list halts; its gated units are ungated. -/
def haltList (cl lid : Nat) (s : State) : State :=
  modList cl lid (fun l => { l with st := .halted, desc := none, gated := [] }) s

/-- An invalid sync descriptor, or a STALE completion, halts its list and records why (R353, R362). -/
def syncHalt (cl lid code : Nat) (s : State) : State :=
  haltList cl lid (setEvt SYNC_EV_DESC_INVALID (cl / 64) (syncErr (cl / 64) code (cl % 64) s))

/-- The operation that a valid descriptor of a cluster list makes (R352, R362). -/
def syncOpOf (s : State) (cl : Nat) (l : ListRun) (d : List Byte) : SyncOp :=
  let w0 := leVal (d.take 4)
  let w1 := leVal ((d.drop 4).take 4)
  let home := if bits w0 0 8 = 0x53 ∧ bit w0 8 then 4 else cl / 64
  { op := bits w0 0 8, home := home, obj := bits w1 0 12, count := bits w1 16 16, flags := w0,
    party := ⟨cl, l.id⟩, ctx := l.ctx, epoch := epochOf s home l.ctx }

/-- The units of UNIT_MASK, which the list names while it waits (R358). -/
def maskUnits (mask : Nat) : List Nat := (List.range 4).filter mask.testBit

/-- Unit `u` of a cluster is clock gated: a list that waits names it, and its cluster queue is empty, whenever that came
about (R358, log entry 105). -/
def unitGated (s : State) (cl u : Nat) : Bool :=
  (clusterOf s cl).lists.any (fun l => l.st == .waiting && l.gated.contains u) && getF s TUNIT_STAT_CQ_LEVEL (cl * 4 + u) == 0

/-- The ARRIVE that closes a list's Spillway group (R162). -/
def closesGroup (g : Grp) (d : List Byte) : Bool :=
  let w0 := leVal (d.take 4)
  bits w0 0 8 == 0x53 && !g.arrived && g.barrier == bits (leVal ((d.drop 4).take 4)) 0 12 && g.scope == bit w0 8

/-- The group of a list that the descriptor closes. -/
def closedGroup (l : ListRun) (d : List Byte) : Option Grp := l.grp.filter fun g => closesGroup g d

/-- A marked ARRIVE is held until every descriptor of its group's part has completed (R163). -/
def arriveHeld (l : ListRun) (d : List Byte) : Bool :=
  match closedGroup l d with
  | some g => bit (leVal (d.take 4)) 11 && g.out != 0
  | none => false

/-- The operation with the spill mark of R163 in place of its MARK bit. -/
def markOp (l : ListRun) (d : List Byte) (o : SyncOp) : SyncOp :=
  let m := match closedGroup l d with
    | some g => g.spilled
    | none => false
  if opMark o && !m then { o with flags := o.flags - 2048 } else o

/-- What the list keeps of its group once it has arrived; a list that does not wait for the release leaves the group. -/
def grpArrived (l : ListRun) (d : List Byte) (waits : Bool) : Option Grp :=
  match closedGroup l d with
  | some g => if waits then some { g with arrived := true } else none
  | none => l.grp

/-- An operation leaves its sync node: into its crossing when it is held there or others of that crossing stand before it, else to
its home (R43, R44, log entry 105). -/
def sendOp (hold : Bool) (o : SyncOp) (s : State) : State :=
  if hold || !homeOn s o.home || crossBefore s o != 0 then holdOp o s else homeTake o s

/-- A list's operation leaves; a WAIT, or an ARRIVE with NOWAIT = 0, stops the list until its release (R358). -/
def issueOp (cl lid : Nat) (l : ListRun) (d : List Byte) (hold : Bool) (o : SyncOp) (s : State) : State :=
  let stop := o.op == 0x52 || (o.op == 0x53 && !opNowait o)
  endList cl lid (sendOp hold o (modList cl lid (fun x =>
    { x with desc := none, grp := grpArrived l d stop, st := if stop then .waiting else .run,
             gated := if stop then maskUnits (bits o.flags 12 4) else [] }) s))

/-- A list executes the sync descriptor in its hand, which must have opcode `op`: an invalid one halts the list; a WAIT, or an
ARRIVE with NOWAIT = 0, stops it until its release (R163, R353, R358). With its issue buffer full the sync node stalls, and the
descriptor stays in hand (R44). -/
def listSync (op cl lid : Nat) (hold : Bool) (s : State) : State :=
  match listOf s cl lid with
  | none => s
  | some l =>
    match l.desc with
    | none => s
    | some d =>
      let code := syncCode false d
      let w := bits (leVal (d.take 4)) 0 8
      if l.st ≠ .run then s
      else if code ≠ 0 then
        (if w / 16 = 5 ∧ (w = op ∨ code = 1) then syncHalt cl lid code s else s)
      else if w ≠ op ∨ arriveHeld l d then s
      else
        let o := markOp l d (syncOpOf s cl l d)
        if Config.issueDepth < crossBefore s o then s else issueOp cl lid l d hold o s

/-- The first operation of a kind in front of its crossing reaches its home (R43). -/
def crossingTake (op : Nat) (s : State) : State :=
  match crossNext s op [] s.crossing with
  | some (o, r) => homeTake o { s with crossing := r }
  | none => s

/-- The collective engine runs lists: it is enabled, and the context's list is neither halted nor waiting, and every RECV
has been posted (R410, R414, R435, R673). -/
def collRuns (s : State) (c : Nat) : Bool :=
  let x := (ctxOf s c).coll
  isF s COLL_CTRL_EN 0 && !x.halted && !x.waiting && x.posts.isEmpty

/-- Change a context's collective work. -/
def modColl (c : Nat) (f : Coll → Coll) (s : State) : State := modCtx c (fun x => { x with coll := f x.coll }) s

/-- The collective engine executes the sync descriptor at the head of a context's list: an ARRIVE at package scope only; an
invalid one halts the list (R353, R673). Only a cluster whose part had a SPILL marks a release, so MARK of the engine's ARRIVE marks
none (R357). -/
def collSync (op c : Nat) (s : State) : State :=
  match (ctxOf s c).coll.list with
  | (_, d) :: r =>
    let w0 := leVal (d.take 4)
    let w1 := leVal ((d.drop 4).take 4)
    let code := syncCode true d
    if !collRuns s c ∨ bits w0 4 4 ≠ 5 then s
    else if code ≠ 0 then modColl c (fun x => { x with halted := true }) (setEvt SYNC_EV_DESC_INVALID 4 (syncErr 4 code 0 s))
    else if op ≠ 0x53 then s
    else
      homeArrive { op := 0x53, home := 4, obj := bits w1 0 12, count := bits w1 16 16, flags := w0 - 2048 * bits w0 11 1,
                   party := ⟨256, c⟩, ctx := c, epoch := epochOf s 4 c }
        (modColl c (fun x => { x with list := r, waiting := !bit w0 10 }) s)
  | [] => s

/-- A release reaches the collective engine: the context's list goes on, or halts on STALE or ABANDONED (R358, R362,
R364). -/
def collRelease (c : Nat) (st : RelStatus) (s : State) : State :=
  if (ctxOf s c).coll.waiting then
    match st with
    | .ok | .marked => modColl c (fun x => { x with waiting := false }) s
    | .stale =>
      modColl c (fun x => { x with waiting := false, halted := true }) (setEvt SYNC_EV_DESC_INVALID 4 (syncErr 4 6 0 s))
    | .abandoned => modColl c (fun x => { x with waiting := false, halted := true }) s
  else s

/-- A sync command of kind `op` from its source. -/
def syncCmd (op : Nat) (src : SyncSrc) (s : State) : State :=
  match src with
  | .list cl lid hold => listSync op cl lid hold s
  | .crossing => crossingTake op s
  | .hub c => collSync op c s

/-- SIGNAL: COUNT is added to a flag at its home (R354). -/
def execSignal (src : SyncSrc) (s : State) : Host.Outcome State Fault Refusal := .next (running s (syncCmd 0x51 src s))

/-- WAIT: the list registers at the flag's home and stops (R355, R358). -/
def execWait (src : SyncSrc) (s : State) : Host.Outcome State Fault Refusal := .next (running s (syncCmd 0x52 src s))

/-- ARRIVE: arrivals are added to a barrier at its home (R356). -/
def execArrive (src : SyncSrc) (s : State) : Host.Outcome State Fault Refusal := .next (running s (syncCmd 0x53 src s))

/-- A descriptor with FLAG_EN = 1 signals one to its flag on the die of its cluster when it completes (R352 and the text
before it). -/
def signalFlag (cl c flag : Nat) (s : State) : State :=
  homeSignal { op := 0x51, home := cl / 64, obj := flag, count := 1, flags := 0, party := ⟨cl, 0⟩, ctx := c,
               epoch := epochOf s (cl / 64) c } s

/-- WAITER_TABLE_ADMIT: a WAIT held by a full waiter table, for `cyc` cclk since the last count, registers once a place
is free (R366, R371). -/
def waiterTableAdmit (home flag cyc : Nat) (s : State) : State :=
  match takeFirst (fun o => o.op == 0x52 && o.home == home && o.obj == flag) s.crossing with
  | none => s
  | some (o, r) =>
    let s := addF SYNC_WAIT_FULL_CYC home cyc s
    if (objOf s (objKey home 0 flag)).waiters.length < waiterPlaces then homeWait o { s with crossing := r } else s

/-- WAITER_TABLE_ADMIT. -/
def execWaiterTableAdmit (home flag cyc : Nat) (s : State) : Host.Outcome State Fault Refusal :=
  .next (running s (waiterTableAdmit home flag cyc s))

/-! ## Abandoning (R351, R363) -/

/-- The parties that wait at an object. -/
def objWaiters (o : SyncObj) : List Party :=
  o.waiters.map (·.party) ++ (o.arrivals.filter (·.waits)).map (·.party)

/-- Release every waiter of an object with ABANDONED and clear the object (R351, R363). -/
def abandonObj (home k : Nat) (s : State) : State :=
  let ws := objWaiters (objOf s k)
  let s := sendReleases .abandoned ws (addF SYNC_ABANDONED_CNT home ws.length s)
  let s := { s with objs := s.objs.del k }
  if ws.isEmpty then s else setEvt SYNC_EV_ABANDON home s

/-- Abandon objects by their keys. -/
def abandonKeys : List Nat → State → State
  | [], s => s
  | k :: ks, s => abandonKeys ks (abandonObj (k / 8192) k s)

/-- Abandon every object of a context and advance its epoch everywhere (R363). -/
def abandonCtx (c : Nat) (s : State) : State :=
  let keys := (s.objs.map (·.1)).filter fun k =>
    objValid s (k / 8192) (k / 4096 % 2) (k % 4096) && objOwner s (k / 8192) (k / 4096 % 2) (k % 4096) == c
  bumpEpoch c (abandonKeys keys s)

/-- The flags of group `g` at a home that hold anything. -/
def groupKeys (s : State) (home g : Nat) : List Nat :=
  (s.objs.map (·.1)).filter fun k => k / 4096 == home * 2 && k % 4096 / 64 == g

/-- A passed write of FLAG_OWN: a change of OWNER or VALID abandons the group's flags and advances the previous owner's
epoch (R351, R363). -/
def flagOwnSet (v home o : Nat) (s : State) : State :=
  if home < 4 ∧ 0x100 ≤ o ∧ o < 0x200 then
    let g := (o - 0x100) / 4
    let oldO := getFk s SYNC_FLAG_OWN_OWNER home g
    let oldV := getFk s SYNC_FLAG_OWN_VALID home g
    let s' := setFk SYNC_FLAG_OWN_OWNER home g (bits v 0 4) (setFk SYNC_FLAG_OWN_VALID home g (bits v 4 1) s)
    if oldO = bits v 0 4 ∧ oldV = bits v 4 1 then s'
    else
      let s' := abandonKeys (groupKeys s home g) s'
      if oldV = 0 then s' else bumpEpoch oldO s'
  else s

/-- FLAG_OWN_WRITE (R351). -/
def flagOwnWrite (r : Requester) (a v : Nat) (s : State) : State :=
  if a % 4 = 0 then guarded r a (fun t i o s => if t = 6 then flagOwnSet v i o s else s) s else s

/-- FLAG_OWN_WRITE. -/
def execFlagOwnWrite (r : Requester) (a v : Nat) (s : State) : Host.Outcome State Fault Refusal :=
  .next (flagOwnWrite r a v s)

/-- A passed write of BAR_CFG: N = 0 is ignored; a change of OWNER or VALID abandons the barrier; then its waiters are
examined against the new N (R351, R363, R367, R371). -/
def barCfgSet (v home o : Nat) (s : State) : State :=
  if 0x200 ≤ o ∧ o < 0x600 ∧ bits v 0 16 ≠ 0 then
    let b := (o - 0x200) / 4
    if home = 4 ∧ 64 ≤ b then s
    else
      let oldO := getFk s SYNC_BAR_CFG_OWNER home b
      let oldV := getFk s SYNC_BAR_CFG_VALID home b
      let s := setFk SYNC_BAR_CFG_N home b (bits v 0 16) (setFk SYNC_BAR_CFG_OWNER home b (bits v 16 4)
        (setFk SYNC_BAR_CFG_VALID home b (bits v 20 1) s))
      if oldO = bits v 16 4 ∧ oldV = bits v 20 1 then barExamine home b s
      else
        let s := abandonObj home (objKey home 1 b) s
        if oldV = 0 then s else bumpEpoch oldO s
  else s

/-- BAR_CFG_WRITE (R351). -/
def barCfgWrite (r : Requester) (a v : Nat) (s : State) : State :=
  if a % 4 = 0 then guarded r a (fun t i o s => if t = 6 then barCfgSet v i o s else s) s else s

/-- BAR_CFG_WRITE. -/
def execBarCfgWrite (r : Requester) (a v : Nat) (s : State) : Host.Outcome State Fault Refusal :=
  .next (barCfgWrite r a v s)

/-- A passed write of DBG_SET while the module is debug-unlocked: the object's count is set, its OVF cleared and its
waiters examined at once (R365). -/
def dbgSetObj (v home : Nat) (s : State) : State :=
  let n := bits v 17 12
  let kind := bits v 16 1
  let bad := if kind = 0 then home = 4 else 256 ≤ n ∨ (home = 4 ∧ 64 ≤ n)
  if bad then s
  else
    let k := objKey home kind n
    let s := setEvt SYNC_EV_DBG_SET home (incr SYNC_DBG_SET_CNT home
      (modObj k (fun o => { o with count := bits v 0 16, ovf := false }) s))
    if kind = 0 then flagExamine home k s else barExamine home n s

/-- DBG_SET: ignored while the module is locked (R365, R641). -/
def dbgSet (r : Requester) (a v : Nat) (s : State) : State :=
  if a % 4 = 0 then
    guarded r a (fun t i o s => if t = 6 ∧ o = 0x618 ∧ unlocked s then dbgSetObj v i s else s) s
  else s

/-- DBG_SET. -/
def execDbgSet (r : Requester) (a v : Nat) (s : State) : Host.Outcome State Fault Refusal := .next (dbgSet r a v s)

end Sys2Proof.Machine
end

