-- ==== Sys2Proof/Machine/Lists.lean ====
section
/-! DEFINITION. The descriptor lists that a cluster's DMA engine runs: directories, headers, reading and ending (R524, R529,
R667, R668), and LIST_RUN. -/

namespace Sys2Proof.Machine

/-- The first SRAM address that descriptors may not reach (R88, R667). -/
def sramTop : Nat := 0x600000

/-- Word `i` of a descriptor. -/
def dw (d : List Byte) (i : Nat) : Nat := leVal ((d.drop (4 * i)).take 4)

/-- OPCODE of a descriptor. -/
def dop (d : List Byte) : Nat := bits (dw d 0) 0 8

/-- `n` bytes of a cluster's SRAM as a number. -/
def sramVal (s : State) (cl a n : Nat) : Nat := leVal (sramRead s cl a n)

/-! ## Starting lists -/

/-- A new list of a cluster, from the address that a directory entry names. -/
def startList (c h : Nat) (e : Nat × Nat) (s : State) : State :=
  modCluster e.1 (fun x => { x with nextId := x.nextId + 1, lists := x.lists ++
    [{ id := x.nextId, ctx := c, handle := h, pos := { addr := e.2 } }] }) s

/-- Start several lists, given as pairs of a cluster and an address. -/
def startLists (c h : Nat) : List (Nat × Nat) → State → State
  | [], s => s
  | e :: es, s => startLists c h es (startList c h e s)

/-- The non-zero entries of a list directory, with their clusters from `k` on (R524). -/
def dirEntries : Nat → Nat → List Byte → List (Nat × Nat)
  | 0, _, _ => []
  | n + 1, k, bs =>
    let a := leVal (bs.take 8)
    (if a = 0 then [] else [(k, a)]) ++ dirEntries n (k + 1) (bs.drop 8)

/-- LIST_RUN: the lists of the directory start; a directory that names none completes at once (R525). -/
def listRun (h : Nat) (s : State) : State :=
  runCmd h 0x12 (fun e s =>
    cmdRead h 5 (argOf e 0) 2048 (fun bs s => listsDone h (startLists (hCtx h) h (dirEntries 256 0 bs) s)) s) s

/-- LIST_RUN. -/
def execListRun (h : Nat) (s : State) : Host.Outcome State Fault Refusal := .next (awake s (listRun h s))

/-! ## Faults -/

/-- A list fault (R667): LIST_ERR records the first after its last clearing, and the list halts. -/
def listFault (cl lid code a : Nat) (s : State) : State :=
  let s := if getF s CLUSTER_LIST_ERR_CODE cl = 0 then
      setF CLUSTER_LIST_ERR_CODE cl code (setF CLUSTER_LIST_ERR_ADDR cl (a % 8388608) s) else s
  haltList cl lid (setEvt CLUSTER_EV_LIST_INVALID cl s)

/-! ## Reading -/

/-- The list belongs to a step whose STEP_OPEN record is not yet written (R52). -/
def listHeld (s : State) (l : ListRun) : Bool :=
  (ctxOf s l.ctx).steps.any fun st => st.handle == l.handle && openHeld s l.ctx st.step

/-- A list has a header or descriptor to read (R424, R529). -/
def listReady (s : State) (l : ListRun) : Bool :=
  l.st == .run && !listHeld s l && l.desc.isNone && getFk s HOSTIF_CTX_PRIO_PREEMPTED 0 l.ctx == 0 &&
    (l.pos.hdr || decide (l.pos.idx < l.pos.count) || l.pos.next != 0)

/-- List work of context `b` is taken before that of context `a`: higher PRIO, then round robin by context number
(R529). -/
def ctxBefore (s : State) (last a b : Nat) : Bool :=
  let pa := getFk s HOSTIF_CTX_PRIO_PRIO 0 a
  let pb := getFk s HOSTIF_CTX_PRIO_PRIO 0 b
  decide (pa < pb) || (pa == pb && decide ((b + 15 - last) % 16 < (a + 15 - last) % 16))

/-- A list has a descriptor in hand that its datapath may take. -/
def descReady (s : State) (l : ListRun) : Bool :=
  l.st == .run && !listHeld s l && getFk s HOSTIF_CTX_PRIO_PREEMPTED 0 l.ctx == 0 &&
    match l.desc with
    | some d => !arriveHeld l d
    | none => false

/-- A context of higher PRIO than `a` has a descriptor ready at the cluster, so that the lists of `a` feed nothing (R424, R529). -/
def outranked (s : State) (cl a : Nat) : Bool :=
  (clusterOf s cl).lists.any fun x =>
    descReady s x && decide (getFk s HOSTIF_CTX_PRIO_PRIO 0 a < getFk s HOSTIF_CTX_PRIO_PRIO 0 x.ctx)

/-- The context whose list work a cluster takes next is that of list `l`: no list that has something to read goes before it, and no
context of higher PRIO has a descriptor ready (R424, R529). -/
def listTurn (s : State) (cl : Nat) (l : ListRun) : Bool :=
  let c := clusterOf s cl
  listReady s l && !outranked s cl l.ctx && !(c.lists.any fun x => listReady s x && ctxBefore s c.lastCtx l.ctx x.ctx)

/-- Read a list header (R524, R667). -/
def readHdr (cl lid : Nat) (p : ListPos) (s : State) : State :=
  let a := p.addr
  let count := sramVal s cl (a + 4) 4
  if a % 64 ≠ 0 ∨ 8388608 ≤ a ∨ sramTop < a + 64 ∨ sramTop < a + 64 + 32 * count then listFault cl lid 2 a s
  else if leVal (sramRead s cl (a + 16) 48) ≠ 0 then listFault cl lid 3 a s
  else modList cl lid (fun l => { l with pos :=
    { addr := a, hdr := false, step := sramVal s cl a 4, count := count, idx := 0, next := sramVal s cl (a + 8) 8 } }) s

/-- The datapaths that R667 names by the high four bits of an OPCODE. -/
def groupOk (op : Nat) : Bool := op / 16 == 2 || op / 16 == 3 || op / 16 == 4 || op / 16 == 5 || op / 16 == 7

/-- Read the next header or descriptor of a list. -/
def readNext (cl lid : Nat) (l : ListRun) (s : State) : State :=
  if l.pos.hdr then readHdr cl lid l.pos s
  else if l.pos.idx < l.pos.count then
    let a := l.pos.addr + 64 + 32 * l.pos.idx
    let d := sramRead s cl a 32
    if groupOk (dop d) then
      modList cl lid (fun x => { x with desc := some d, pos := { x.pos with idx := x.pos.idx + 1 } }) s
    else listFault cl lid 1 a s
  else modList cl lid (fun x => { x with pos := { addr := x.pos.next } }) s

/-- LIST_DESC_READ: the DMA engine of cluster `cl` reads the next header or descriptor of list `lid`, when it is the turn of
the list's context (R529, R667, R668). -/
def listDescRead (cl lid : Nat) (s : State) : State :=
  match listOf s cl lid with
  | none => s
  | some l =>
    if listTurn s cl l then
      endList cl lid (readNext cl lid l (modCluster cl (fun c => { c with lastCtx := l.ctx }) s))
    else s

/-- LIST_DESC_READ. -/
def execListDescRead (cl lid : Nat) (s : State) : Host.Outcome State Fault Refusal :=
  .next (runningIn (32 + cl / 8) s (listDescRead cl lid s))

/-! ## Descriptors in hand -/

/-- The descriptor in the hand of a running list, when its OPCODE has high four bits `g`. -/
def descInHand (s : State) (cl lid g : Nat) : Option (ListRun × List Byte) :=
  match listOf s cl lid with
  | none => none
  | some l => if l.st = .run then (l.desc.filter fun d => dop d / 16 == g).map fun d => (l, d) else none

/-- The descriptor in hand has been taken and is complete: `spill` when it completed with SPILL. -/
def descTaken (cl lid : Nat) (s : State) : State := endList cl lid (modList cl lid (fun l => { l with desc := none }) s)

/-- A descriptor of a list belongs to the present rung's part of its group (R163). -/
def inPart (l : ListRun) : Bool :=
  match l.grp with
  | some g => !g.arrived
  | none => false

/-- A descriptor has been passed on to a unit and will complete later. -/
def passOn (cl lid : Nat) (s : State) : State :=
  modList cl lid (fun l => { l with
    desc := none, out := l.out + 1, grp := if inPart l then l.grp.map fun g => { g with out := g.out + 1 } else l.grp }) s

/-- A descriptor that a list passed on has completed: its outcome is kept with the group when it belongs to the part. -/
def passDone (cl lid : Nat) (part spill : Bool) (os : List ChunkOut) (s : State) : State :=
  endList cl lid (modList cl lid (fun l => { l with
    out := l.out - 1,
    grp := if part then l.grp.map fun g => { g with
        out := g.out - 1, spilled := g.spilled || spill, outs := g.outs ++ os } else l.grp }) s)

end Sys2Proof.Machine
end

