-- ==== Sys2Proof/Machine/Wide.lean ====
section
/-! DEFINITION. BX64 arithmetic: the truncated limb product, exact sums, saturation at write-out and shifts (R104 to R106, R144,
R237). A BX64 integer i stands for i × 2^−62. -/

namespace Sys2Proof.Machine

/-- Limb `i` of a magnitude (R105). -/
def limb (m i : Nat) : Nat := m / 256 ^ i % 256

/-- What the limb product of cells (i, j) adds: nothing for i + j ≤ 5, and for i + j = 6 only its bits of weight 2^56 and
above (R105). -/
def limbTerm (a b i j : Nat) : Nat :=
  let p := limb a i * limb b j
  if i + j ≤ 5 then 0 else if i + j = 6 then p / 256 * 256 ^ 7 else p * 256 ^ (i + j)

/-- The magnitude of a wide product on the Q2.62 grid (R105). -/
def wideMag (a b : Nat) : Nat :=
  (List.range 8).foldl (fun x i => (List.range 8).foldl (fun y j => y + limbTerm a b i j) x) 0 / 2 ^ 62

/-- The wide product of two BX64 integers, on the 2^−62 grid (R105). -/
def wideMul (a b : Int) : Int :=
  let m : Int := (wideMag a.natAbs b.natAbs : Nat)
  if (a < 0) != (b < 0) then -m else m

/-- A value saturated to Q2.62, and whether it was (R106). -/
def wideSat (x : Int) : Int × Bool :=
  if x > 9223372036854775807 then (9223372036854775807, true)
  else if x < -9223372036854775808 then (-9223372036854775808, true)
  else (x, false)

/-- A BX64 word as an integer. -/
def bxInt (w : Nat) : Int := signedOf 64 w

/-- A sum in the 84-bit two's complement of a wide accumulator (R106). -/
def wrap84 (i : Int) : Int := signedOf 84 (twos 84 i)

/-- The word of a BX64 integer. -/
def bxWord (i : Int) : Nat := twos 64 i

/-- v × 2^`n` rounded to nearest even onto the 2^−62 grid, saturated (R145, R235). -/
def bxOf (v : FV) (n : Int) : Int :=
  match v with
  | .fin _ _ _ => (wideSat (v.scale (n + 62)).toIntRne).1
  | .inf s => if s then -9223372036854775808 else 9223372036854775807
  | .nan => 0

/-- The exact value of a BX64 integer at scale exponent `n` (R144). -/
def bxVal (i n : Int) : FV := (fvInt i).scale (n - 62)

/-- Arithmetic shift right, towards −∞ (R237). -/
def bxShift (i : Int) (n : Nat) : Int := i.fdiv (2 ^ n : Nat)

/-- A row of a matrix times a column. -/
def wideDot (r c : List Int) : Int := (r.zip c).foldl (fun a e => a + wideMul e.1 e.2) 0

end Sys2Proof.Machine
end

