-- ==== Sys2Proof/Machine/Tile.lean ====
section
/-! DEFINITION. The arithmetic of one float tile: chunks, block exponents, the 20-bit accumulators and their overflow ladder,
promotion, FP32 operands and the checksum column (R79, R80, R95, R96, R117 to R125, R666). -/

namespace Sys2Proof.Machine

/-- The operands of a tile in logical orientation: element (m, k) of L and (k, n) of R, and the smallest Q that the operand
pair can form (R120). -/
structure TileOps where
  l : Nat → Nat → FV
  r : Nat → Nat → FV
  len : Nat
  qmin : Int

/-- Rows of L over `n` k-steps from `k`. -/
def rowsOf (o : TileOps) (k n : Nat) : List (List FV) :=
  (List.range 64).map fun m => (List.range n).map fun i => o.l m (k + i)

/-- Columns of R over `n` k-steps from `k`. -/
def colsOf (o : TileOps) (k n : Nat) : List (List FV) :=
  (List.range 64).map fun c => (List.range n).map fun i => o.r (k + i) c

/-- Q of a product whose operands are both non-zero and finite (R118). -/
def prodQ (a b : FV) : Option Int :=
  match a.top, b.top with
  | some x, some y => some (x + y)
  | _, _ => none

/-- The larger of two optional values. -/
def optMax (a b : Option Int) : Option Int :=
  match a, b with
  | some x, some y => some (max x y)
  | some x, none => some x
  | none, y => y

/-- M_n of a column: the largest Q among its non-zero finite products, over all rows (R118). -/
def colM (rows : List (List FV)) (col : List FV) : Option Int :=
  rows.foldl (fun a r => (r.zip col).foldl (fun b p => optMax b (prodQ p.1 p.2)) a) none

/-- A product aligned to 2^`x`: its magnitude truncated towards zero, then its sign; a product with a non-finite operand takes
no part (R121, R666). -/
def alignProd (x : Int) (a b : FV) : Int :=
  match a, b with
  | .fin s m e, .fin t n f =>
    let g := e + f - x
    let k : Int := (if 0 ≤ g then m * n * 2 ^ g.toNat else m * n / 2 ^ (-g).toNat : Nat)
    if s != t then -k else k
  | _, _ => 0

/-- A sum leaves the range of a 20-bit accumulator (R121). -/
def a20Out (v : Int) : Bool := decide (v < -524288 ∨ 524287 < v)

/-- The running sum of a cell in ascending k, and whether it left the range at any point (R121). -/
def a20Sum (x : Int) (row col : List FV) : Int × Bool :=
  (row.zip col).foldl (fun a p => let v := a.1 + alignProd x p.1 p.2; (v, a.2 || a20Out v)) (0, false)

/-- The IEEE 754 sum of a cell's products with a non-finite operand, if there are any (R666). -/
def nonFinSum (row col : List FV) : Option FV :=
  (row.zip col).foldl (fun a p =>
    if p.1.isFin && p.2.isFin then a
    else match a with
      | none => some (p.1.mul p.2)
      | some v => some (v.add (p.1.mul p.2))) none

/-- The promotion of a cell into its working element (R123, R666). -/
def promote (w : FV) (a x : Int) (nf : Option FV) : FV :=
  let v := add32 w (rnd32 ((fvInt a).scale x))
  match nf with
  | none => v
  | some u => add32 v u

/-- The FP32 words of a working tile or slot, row by row; the empty list is all +0. -/
def tileWords (w : List Nat) : List Nat := if w.isEmpty then List.replicate 4096 0 else w

/-- The empty list for a tile that is all +0. -/
def packWords (w : List Nat) : List Nat := if w.all (· == 0) then [] else w

/-- An FP32 word as a value. -/
def val32 (w : Nat) : FV := fmtFP32.dec w

/-- A value as an FP32 word. -/
def word32 (v : FV) : Nat := fmtFP32.enc v

/-- Promote every cell of an accepted chunk. -/
def promoteAll (work : List Nat) (rows : List (List FV)) (cols : List (List FV × Int)) : List Nat :=
  let cells := rows.flatMap fun r => cols.map fun c => (r, c)
  packWords (((tileWords work).zip cells).map fun e =>
    word32 (promote (val32 e.1) (a20Sum e.2.2.2 e.2.1 e.2.2.1).1 e.2.2.2 (nonFinSum e.2.1 e.2.2.1)))

/-- Prediction registers at the start of a tile: M_n of chunk 0, for a column without products the largest M_n of the others,
and the smallest Q where the array has no product (R120). -/
def startPred (qmin : Int) (ms : List (Option Int)) : List Int :=
  let top := (ms.foldl optMax none).getD qmin
  ms.map fun m => m.getD top

/-- Prediction registers after an accepted chunk (R120). -/
def nextPred (pred : List Int) (ms : List (Option Int)) : List Int := (pred.zip ms).map fun e => e.2.getD e.1

/-- k-steps of the chunk that starts where `t` stands: 16, or 4 in chunk-4 mode, or what is left (R117, R125). -/
def chunkLen (o : TileOps) (t : TileRun) : Nat := min (if t.four.isSome then 4 else 16) (o.len - t.k)

/-- Shifts of the 64 columns. -/
def shiftsOf (t : TileRun) : List Nat := t.shifts ++ List.replicate 64 0

/-- Shifts after a pass in which the columns of `ovs` overflowed (R124). -/
def nextShifts (t : TileRun) (ovs : List Bool) : List Nat :=
  ((shiftsOf t).zip ovs).map fun e => if e.2 then min 8 (e.1 + 4) else e.1

/-- Block exponents X_n of the pass (R119). -/
def blockExps (t : TileRun) (ms : List (Option Int)) : List Int :=
  if t.four.isSome then ms.map fun m => m.getD 0 - 15
  else if t.k = 0 then ms.map fun m => m.getD 0 - 13
  else (t.pred.zip (shiftsOf t)).map fun e => e.1 - 13 + (e.2 : Int)

/-- One pass of the present chunk: an overflow moves it one rung down the ladder, otherwise it is promoted (R119 to R125). -/
def chunkPass (o : TileOps) (t : TileRun) : TileRun :=
  let n := chunkLen o t
  let rows := rowsOf o t.k n
  let cs := colsOf o t.k n
  let ms := cs.map (colM rows)
  let cols := cs.zip (blockExps t ms)
  let ovs := cols.map fun c => rows.any fun r => (a20Sum c.2 r c.1).2
  if ovs.any id then
    if t.pass < 3 then { t with pass := t.pass + 1, shifts := nextShifts t ovs, ovf := t.ovf + 1, reps := t.reps + 1 }
    else { t with pass := 1, shifts := [], ovf := t.ovf + 1, four := some (t.k / 16) }
  else
    let pred := if t.four.isSome then t.pred else if t.k = 0 then startPred o.qmin ms else nextPred t.pred ms
    { t with k := t.k + n, pass := 1, shifts := [], pred := pred, work := promoteAll t.work rows cols }

/-- Passes until the tile is formed; `n` bounds their number. -/
def formLoop (o : TileOps) : Nat → TileRun → TileRun
  | 0, t => t
  | n + 1, t => if o.len ≤ t.k then t else formLoop o n (chunkPass o t)

/-- The whole tile of narrow operands. Each 16 k take at most seven passes. -/
def formTile (o : TileOps) : TileRun := formLoop o (7 * (o.len / 16 + 1)) {}

/-- The k-steps that the first `n` passes over a tile issue (R613). -/
def stepsIn (o : TileOps) : Nat → TileRun → Nat
  | 0, _ => 0
  | n + 1, t => if o.len ≤ t.k then 0 else chunkLen o t + stepsIn o n (chunkPass o t)

/-- A tile of FP32 operands: one fused multiply and add for each k, in ascending k (R122). -/
def formTile32 (o : TileOps) : List Nat :=
  packWords ((rowsOf o 0 o.len).flatMap fun r => (colsOf o 0 o.len).map fun c =>
    word32 ((r.zip c).foldl (fun a p => fma32 p.1 p.2 a) fv0))

/-! ## The checksum column -/

/-- r_k for each k (R95). -/
def rowSums (o : TileOps) : List FV := (List.range o.len).map fun k => sum32 ((List.range 64).map fun n => o.r k n)

/-- c_m of a row of L (R95). -/
def checkVal (o : TileOps) (sums : List FV) (m : Nat) : FV :=
  (((List.range o.len).map fun k => o.l m k).zip sums).foldl (fun a p => fma32 p.1 p.2 a) fv0

/-- Row m mismatches (R96). -/
def rowMiss (tol : Nat) (c : FV) (row : List FV) : Bool :=
  let s := sum32 row
  let a := sum32 (row.map FV.abs)
  if c.isFin && s.isFin then
    let d := (add32 c s.neg).abs
    let lim := rnd32 ((add32 a c.abs).scale (-(tol : Int)))
    lim.lt d
  else c.isFin != s.isFin

/-- Row `m` of a tile. -/
def tileRow (w : List Nat) (m : Nat) : List FV := (((tileWords w).drop (64 * m)).take 64).map val32

/-- The 65th column of a working tile: c_m for each row (R81, R95). -/
def checkCol (o : TileOps) : List Nat :=
  let sums := rowSums o
  (List.range 64).map fun m => word32 (checkVal o sums m)

/-- The last row of a working tile that mismatches its 65th column, if any does (R96). -/
def missRow (tol : Nat) (col w : List Nat) : Option Nat :=
  (List.range 64).reverse.find? fun m => rowMiss tol (val32 (col.getD m 0)) (tileRow w m)

/-! ## Slots and write-out -/

/-- What enters a slot: the working tile, or with ACC the slot plus the working tile (R91). -/
def enterSlot (acc : Bool) (slot work : List Nat) : List Nat :=
  if acc then
    packWords (((tileWords slot).zip (tileWords work)).map fun e => word32 (add32 (val32 e.1) (val32 e.2)))
  else work

/-- The words of a 65th column; the empty list is all +0. -/
def colWords (c : List Nat) : List Nat := if c.isEmpty then List.replicate 64 0 else c

/-- What enters a slot's 65th column, which no instruction reads (R81). DEDUCED (log entry 43): it enters as the tile does. -/
def enterCol (acc : Bool) (slot col : List Nat) : List Nat :=
  if acc then packWords ((colWords slot).zipWith (fun a b => word32 (add32 (val32 a) (val32 b))) col) else packWords col

/-- A row of a slot in an output format. -/
def outRow (fmt : Nat) (w : List Nat) (m : Nat) : List Byte :=
  (tileRow w m).flatMap fun v => leBytes (fmtBytes fmt) ((fmtOf fmt).enc v)

/-- An element of a slot, or its conversion when it is written, is not finite (R92). -/
def spills (write : Bool) (fmt : Nat) (w : List Nat) : Bool :=
  (tileWords w).any fun x =>
    !(val32 x).isFin || (write && !((fmtOf fmt).dec ((fmtOf fmt).enc (val32 x))).isFin)

end Sys2Proof.Machine
end

