-- ==== Sys2Proof/Machine/Units.lean ====
section
/-! DEFINITION. Tensor units: queues, tiles, checks, fencing, adoption and completion (R79 to R139), and the vector engine's folds
(R23, R130, R131). Unit u is die × 256 + region × 32 + cluster × 4 + number. -/

namespace Sys2Proof.Machine

/-! ## The unit's state -/

/-- Unit `u`. -/
def unitOf (s : State) (u : Nat) : TUnit := s.units.get {} u

/-- Put a unit's state back, and show it in STAT (R112). -/
def putUnit (u : Nat) (x : TUnit) (s : State) : State :=
  setF TUNIT_STAT_BUSY u (if x.run.isSome && !isF s TUNIT_STAT_FENCED u then 1 else 0)
    (setF TUNIT_STAT_HALTED u (if x.bad.isSome || x.badWide.isSome then 1 else 0)
      (setF TUNIT_STAT_CQ_LEVEL u x.cq.length
        (setF TUNIT_STAT_WQ_LEVEL u x.wq.length { s with units := s.units.put {} u x })))

/-- Change a unit. -/
def modUnit (u : Nat) (f : TUnit → TUnit) (s : State) : State := putUnit u (f (unitOf s u)) s

/-- The unit is fenced. -/
def fenced (s : State) (u : Nat) : Bool := isF s TUNIT_STAT_FENCED u

/-- Change a sequencer. -/
def modSeq (rg : Nat) (f : Seq → Seq) (s : State) : State := { s with seqs := s.seqs.upd {} rg f }

/-! ## Matmul descriptors (R87, R88) -/

/-- FMT_L. -/
def mFmtL (d : List Byte) : Nat := bits (dw d 0) 8 4
/-- FMT_R. -/
def mFmtR (d : List Byte) : Nat := bits (dw d 0) 12 4
/-- FMT_OUT. -/
def mFmtOut (d : List Byte) : Nat := bits (dw d 0) 16 4
/-- ACC. -/
def mAcc (d : List Byte) : Bool := bit (dw d 0) 20
/-- TR_L. -/
def mTrL (d : List Byte) : Bool := bit (dw d 0) 21
/-- TR_R. -/
def mTrR (d : List Byte) : Bool := bit (dw d 0) 22
/-- WIDE. -/
def mWide (d : List Byte) : Bool := bit (dw d 0) 23
/-- SCALE_EN. -/
def mScaleEn (d : List Byte) : Bool := bit (dw d 0) 24
/-- WRITE. -/
def mWrite (d : List Byte) : Bool := bit (dw d 0) 25
/-- FLAG_EN. -/
def mFlagEn (d : List Byte) : Bool := bit (dw d 0) 26
/-- Output tile rows. -/
def mRows (d : List Byte) : Nat := bits (dw d 1) 0 4 + 1
/-- Output tile columns. -/
def mCols (d : List Byte) : Nat := bits (dw d 1) 4 4 + 1
/-- Length of the K range. -/
def mK (d : List Byte) : Nat := bits (dw d 1) 16 16 + 1
/-- L_ADDR. -/
def mLAddr (d : List Byte) : Nat := bits (dw d 2) 0 23
/-- R_ADDR. -/
def mRAddr (d : List Byte) : Nat := bits (dw d 3) 0 23
/-- OUT_ADDR. -/
def mOutAddr (d : List Byte) : Nat := bits (dw d 4) 0 23
/-- L_STRIDE in bytes. -/
def mLStride (d : List Byte) : Nat := bits (dw d 5) 0 16 * 64
/-- R_STRIDE in bytes. -/
def mRStride (d : List Byte) : Nat := bits (dw d 5) 16 16 * 64
/-- OUT_STRIDE in bytes. -/
def mOutStride (d : List Byte) : Nat := bits (dw d 6) 0 16 * 64
/-- FLAG. -/
def mFlag (d : List Byte) : Nat := bits (dw d 6) 16 12
/-- SCALE_ADDR. -/
def mScaleAddr (d : List Byte) : Nat := bits (dw d 7) 0 23

/-- Side of an output tile. -/
def mSide (d : List Byte) : Nat := if mWide d then 8 else 64

/-- Output tiles of a descriptor. -/
def mTiles (d : List Byte) : Nat := mRows d * mCols d

/-- A size rounded up to a multiple of 64. -/
def pad64 (n : Nat) : Nat := (n + 63) / 64 * 64

/-- Tiles along K. -/
def mKT (d : List Byte) : Nat := (mK d + 63) / 64

/-- A format code of R87. -/
def mFmtOk (f : Nat) : Bool := decide (f ≤ 4) || f == 8

/-- The operand pairs of R85 and the modes of R87. -/
def mPairOk (d : List Byte) : Bool :=
  let l := mFmtL d
  let r := mFmtR d
  if mWide d then l == 8 && r == 8 else l != 8 && r != 8 && ((decide (l < 2) && decide (r < 2)) || l == r)

/-- The areas that a descriptor uses: address, stride, stored rows and bytes of a row (R82, R88). -/
def mAreas (d : List Byte) : List (Nat × Nat × Nat × Nat) :=
  let M := mRows d * mSide d
  let N := mCols d * mSide d
  let K := mK d
  let bl := fmtBytes (mFmtL d)
  let br := fmtBytes (mFmtR d)
  [if mTrL d then (mLAddr d, mLStride d, K, M * bl) else (mLAddr d, mLStride d, M, K * bl),
   if mTrR d then (mRAddr d, mRStride d, N, K * br) else (mRAddr d, mRStride d, K, N * br)] ++
  (if mWrite d then [(mOutAddr d, mOutStride d, M, N * fmtBytes (mFmtOut d))] else [])

/-- An area is 64-byte aligned and below 0x60_0000. -/
def areaOk (e : Nat × Nat × Nat × Nat) : Bool :=
  e.1 % 64 == 0 && decide (e.1 + (e.2.2.1 - 1) * e.2.1 + e.2.2.2 ≤ sramTop)

/-- A stride is not 0 and not shorter than the row. -/
def strideOk (e : Nat × Nat × Nat × Nat) : Bool := e.2.1 != 0 && decide (e.2.2.2 ≤ e.2.1)

/-- The exponent table that a descriptor uses lies where it may. -/
def mScaleOk (d : List Byte) : Bool :=
  !mScaleEn d ||
    (mScaleAddr d % 64 == 0 && decide (mScaleAddr d + pad64 (mRows d * mKT d) + mKT d * mCols d ≤ sramTop))

/-- Every must-be-0 bit of R87 is 0. -/
def mZeroOk (d : List Byte) : Bool :=
  bits (dw d 0) 27 5 == 0 && bits (dw d 1) 8 8 == 0 && bits (dw d 2) 23 9 == 0 && bits (dw d 3) 23 9 == 0 &&
    bits (dw d 4) 23 9 == 0 && bits (dw d 6) 28 4 == 0 && bits (dw d 7) 23 9 == 0

/-- ERR_INFO.CODE of the first check of R88 that a descriptor in the cluster or wide queue breaks; 0 for none. DESIGN CHOICE (log entry 106):
FMT_OUT is judged whatever WRITE is. -/
def descCode (wideQ : Bool) (d : List Byte) : Nat :=
  if dop d ≠ 0x21 then 1
  else if !mFmtOk (mFmtL d) || !mFmtOk (mFmtR d) || !mPairOk d then 2
  else if (if mWide d then mFmtOut d != 8 else mFmtOut d != 2 && mFmtOut d != 3 && mFmtOut d != 4) then 2
  else if (mTrL d && mTrR d) || (mWide d && (mTrL d || mTrR d || mScaleEn d)) then 0xA
  else if 8 < mTiles d then 3
  else if !(mAreas d).all areaOk || !mScaleOk d then 4
  else if !(mAreas d).all strideOk then 5
  else if !mZeroOk d then 6
  else if mWide d != wideQ then 7
  else 0

/-! ## Operands (R82, R104, R148) -/

/-- Element (row, column) of a stored array. -/
def elemAt (s : State) (cl base stride n r c : Nat) : Nat := sramVal s cl (base + r * stride + c * n) n

/-- The exponent of L's tile (mt, kt). -/
def expL (s : State) (cl : Nat) (d : List Byte) (mt kt : Nat) : Int :=
  if mScaleEn d then sbyte (sramVal s cl (mScaleAddr d + mt * mKT d + kt) 1) else 0

/-- The exponent of R's tile (kt, nt). -/
def expR (s : State) (cl : Nat) (d : List Byte) (kt nt : Nat) : Int :=
  if mScaleEn d then sbyte (sramVal s cl (mScaleAddr d + pad64 (mRows d * mKT d) + kt * mCols d + nt) 1) else 0

/-- Element (m, k) of L in logical orientation, as stored. -/
def rawL (s : State) (cl : Nat) (d : List Byte) (m k : Nat) : Nat :=
  if mTrL d then elemAt s cl (mLAddr d) (mLStride d) (fmtBytes (mFmtL d)) k m
  else elemAt s cl (mLAddr d) (mLStride d) (fmtBytes (mFmtL d)) m k

/-- Element (k, n) of R in logical orientation, as stored. -/
def rawR (s : State) (cl : Nat) (d : List Byte) (k n : Nat) : Nat :=
  if mTrR d then elemAt s cl (mRAddr d) (mRStride d) (fmtBytes (mFmtR d)) n k
  else elemAt s cl (mRAddr d) (mRStride d) (fmtBytes (mFmtR d)) k n

/-- ⌊log₂⌋ of the smallest subnormal of a format. -/
def subExp (f : Fmt) : Int := f.emin - f.fbits

/-- The smallest Q that two formats form under the exponents of matching tiles (R120). -/
def smallestQ (fl fr : Fmt) (es : List (Int × Int)) : Int :=
  subExp fl + subExp fr + match es with
    | [] => 0
    | e :: r => r.foldl (fun a x => min a (x.1 + x.2)) (e.1 + e.2)

/-- The operands of output tile `t` of a float descriptor. -/
def tileOps (s : State) (cl : Nat) (d : List Byte) (t : Nat) : TileOps :=
  let mt := t / mCols d
  let nt := t % mCols d
  { l := fun m k => ((fmtOf (mFmtL d)).dec (rawL s cl d (mt * 64 + m) k)).scale (expL s cl d mt (k / 64)),
    r := fun k n => ((fmtOf (mFmtR d)).dec (rawR s cl d k (nt * 64 + n))).scale (expR s cl d (k / 64) nt),
    len := mK d,
    qmin := smallestQ (fmtOf (mFmtL d)) (fmtOf (mFmtR d))
      ((List.range (mKT d)).map fun kt => (expL s cl d mt kt, expR s cl d kt nt)) }

/-- The wide products of output tile `t`, 64 sums in Q22.62 (R104, R105). -/
def wideTile (s : State) (cl : Nat) (d : List Byte) (t : Nat) : List Int :=
  let mt := t / mCols d
  let nt := t % mCols d
  (List.range 64).map fun i =>
    wideDot ((List.range (mK d)).map fun k => bxInt (rawL s cl d (mt * 8 + i / 8) k))
      ((List.range (mK d)).map fun k => bxInt (rawR s cl d k (nt * 8 + i % 8)))

/-! ## Queueing (R86, R101) -/

/-- The cluster's DMA engine may write into the cluster queue of unit `n` of its four (R21, R86, R101). -/
def cqOpen (s : State) (cl n : Nat) : Bool :=
  let c := clusterOf s cl
  let u := cl * 4 + n
  !fenced s u && decide ((unitOf s u).cq.length < 16) &&
    !(c.copying.any fun e => e.2 == n) && !(!c.buf.isEmpty && c.bufTo == n)

/-- MATMUL_DESCRIPTOR: the DMA engine of cluster `cl` writes the matmul descriptor in the hand of list `lid` into the cluster
queue of unit `n`; a full queue makes it wait, and so does a descriptor that a context of higher PRIO has ready at the cluster
(R424). -/
def matmulDescriptor (cl lid n : Nat) (s : State) : State :=
  match descInHand s cl lid 2 with
  | none => s
  | some (l, d) =>
    if decide (n < 4) && cqOpen s cl n && !outranked s cl l.ctx then
      passOn cl lid (modUnit (cl * 4 + n) (fun x =>
        { x with cq := x.cq ++ [{ desc := d, ctx := l.ctx, lid := lid, step := l.pos.step, part := inPart l }] }) s)
    else s

/-- MATMUL_DESCRIPTOR. -/
def execMatmulDescriptor (cl lid n : Nat) (s : State) : Host.Outcome State Fault Refusal :=
  .next (runningIn (32 + cl / 8) s (matmulDescriptor cl lid n s))

/-- ERR_INFO of a unit takes the first error after its last clearing (R114). -/
def unitErr (u code tile : Nat) (s : State) : State :=
  if getF s TUNIT_ERR_INFO_CODE u = 0 then
    setF TUNIT_ERR_INFO_CODE u code (setF TUNIT_ERR_INFO_TILE u tile
      (setF TUNIT_ERR_INFO_DESC_SEQ u (getF s TUNIT_DESC_DONE u % 16777216) s))
  else s

/-- A descriptor taken from a queue: an invalid one halts its queue (R89), a valid one runs in its mode (R108). -/
def takeDesc (u : Nat) (wideQ : Bool) (q : QDesc) (s : State) : State :=
  let code := descCode wideQ q.desc
  if code ≠ 0 then
    setEvt TUNIT_EV_DESC_INVALID u (unitErr u code 0
      (modUnit u (fun x => if wideQ then { x with badWide := some q } else { x with bad := some q }) s))
  else
    setF TUNIT_STAT_MODE u (if wideQ then 1 else 0)
      (modUnit u (fun x => { x with run := some q, tile := {} }) s)

/-- Take from the cluster queue. -/
def takeCq (u : Nat) (s : State) : State :=
  let x := unitOf s u
  match x.cq with
  | q :: r => if x.bad.isSome then s else takeDesc u false q (putUnit u { x with cq := r } s)
  | [] => s

/-- Take from the wide queue. -/
def takeWq (u : Nat) (s : State) : State :=
  let x := unitOf s u
  match x.wq with
  | q :: r => takeDesc u true q (putUnit u { x with wq := r } s)
  | [] => s

/-- The wide queue has a descriptor that the unit may take (R108). -/
def wideReady (s : State) (u : Nat) : Bool :=
  isF s TUNIT_CTRL_WIDE_ALLOW u && !(unitOf s u).wq.isEmpty && (unitOf s u).badWide.isNone

/-- DESC_TAKE: between descriptors a unit takes its next one (R21, R89, R108, R111). -/
def descTake (u : Nat) (s : State) : State :=
  let x := unitOf s u
  if x.run.isSome || fenced s u || !isF s TUNIT_CTRL_Q_EN u || !domOn s (pageDomain 0 u) then s
  else if isF s TUNIT_STAT_LEND u then (if wideReady s u then takeWq u s else takeCq u s)
  else if x.cq.isEmpty then (if wideReady s u then takeWq u s else s)
  else takeCq u s

/-- DESC_TAKE. -/
def execDescTake (u : Nat) (s : State) : Host.Outcome State Fault Refusal := .next (runningIn (u / 32) s (descTake u s))

/-! ## Chunk-4 outcomes (R128, R129) -/

/-- ACC_CHUNK records of a completed descriptor (R128). DESIGN CHOICE (log entry 106): SRC names the unit, where R493 would also allow the
cluster's place with unit 0. -/
def chunkRecords (c : Nat) (o : ChunkOut) : List (Nat × Nat) → State → State
  | [], s => s
  | e :: es, s =>
    chunkRecords c o es (jrnCtx c 0x10 (srcUnit o.unit)
      (leBytes 4 o.step ++ leBytes 2 o.unit ++ leBytes 3 o.seq ++ leBytes 1 e.1 ++ leBytes 2 e.2) s)

/-- CHUNK of the journal's records of a tile. -/
def chunkBooked (s : State) (c : Nat) (o : ChunkOut) (t : Nat) : List Nat :=
  (rplAll s c 0x10 fun p => pay p 0 4 == o.step && pay p 4 2 % 1024 == o.unit && pay p 6 3 == o.seq &&
    pay p 9 1 % 8 == t).map fun p => pay p 10 2 % 4096

/-- The chunk that reached chunk-4 mode in a tile. -/
def chunkGot (o : ChunkOut) (t : Nat) : Option Nat := (o.c4.find? fun e => e.1 == t).map (·.2)

/-- Records of a tile that are missing, in excess, or of another CHUNK (R129). -/
def chunkOff (got : Option Nat) : List Nat → Nat
  | [] => if got.isSome then 1 else 0
  | r :: rs => (if got = some r then 0 else 1) + rs.length

/-- Divergences of the outcome's tiles below `n` from the journal (R129). -/
def chunkDiffs (s : State) (c : Nat) (o : ChunkOut) : Nat → Nat
  | 0 => 0
  | t + 1 => chunkDiffs s c o t + (if o.lo ≤ t then chunkOff (chunkGot o t) (chunkBooked s c o t) else 0)

/-- Count divergences of replay (R129, R185, R187). -/
def chunkDiverge (u : Nat) : Nat → State → State
  | 0, s => s
  | n + 1, s => replayDiv (u / 4) (incr TUNIT_ACC_DIVERGE u (chunkDiverge u n s))

/-- The records and the replay comparison of a completed descriptor. -/
def chunkSettle (c : Nat) (o : ChunkOut) (s : State) : State :=
  let s := chunkRecords c o o.c4 s
  if replayOn s c then chunkDiverge o.unit (chunkDiffs s c o o.hi) s else s

/-- Settle several outcomes, in order. -/
def settleOuts (c : Nat) : List ChunkOut → State → State
  | [], s => s
  | o :: os, s => settleOuts c os (chunkSettle c o s)

/-! ## Fencing and adoption (R99 to R102, R234) -/

/-- The chunk-4 outcomes of a descriptor that unit `u` has completed, by the unit that formed the tiles (R128). -/
def chunkOuts (u : Nat) (q : QDesc) (s : State) : List ChunkOut :=
  let seq := getF s TUNIT_DESC_DONE u % 16777216
  match q.moved with
  | none => [{ unit := u, seq := seq, step := q.step, c4 := q.c4 }]
  | some (f, k) =>
    [{ unit := f, seq := seq, step := q.step, hi := k, c4 := q.c4.filter fun e => decide (e.1 < k) },
     { unit := u, seq := seq, step := q.step, lo := k, c4 := q.c4.filter fun e => !decide (e.1 < k) }]

/-- A completed descriptor of unit `u` settles: outcomes of a group's part are held with the group, others are recorded and compared
now (R128, R129, R163, R169). -/
def settleDesc (u : Nat) (q : QDesc) (s : State) : State :=
  let os := chunkOuts u q s
  passDone (u / 4) q.lid q.part (bit q.status 0) os (if q.part then s else settleOuts q.ctx os s)

/-- Complete descriptors of unit `u` with ADOPT_FAIL, in order (R102). DESIGN CHOICE (log entry 106): the events are set once for each
descriptor, and so not for a unit without any. -/
def failDescs (u : Nat) : List QDesc → State → State
  | [], s => s
  | q :: qs, s =>
    failDescs u qs (settleDesc u q
      (setEvt CLUSTER_EV_ADOPT_FAIL (u / 4) (incr CLUSTER_ADOPT_FAIL_CNT (u / 4)
        (setEvt TUNIT_EV_ADOPT_FAIL u (incr TUNIT_DESC_DONE u (setF TUNIT_LAST_STAT u (q.status ||| 16) s))))))

/-- The float work of a unit that adoption moves or fails, running descriptor first. DESIGN CHOICE (log entry 106): an invalid descriptor that
halts the queue is no part of it and stays. -/
def floatWork (x : TUnit) : List QDesc := (x.run.filter fun q => !q.wide).toList ++ x.cq

/-- The fenced unit's work stays and completes with ADOPT_FAIL (R102). -/
def adoptFail (u : Nat) (s : State) : State :=
  let x := unitOf s u
  failDescs u (floatWork x) (putUnit u { x with run := x.run.filter (·.wide), tile := {}, cq := [] } s)

/-- The sibling that adopts: the lowest-numbered unfenced unit whose adopted bank is free (R101). -/
def adopter (s : State) (cl f : Nat) : Option Nat :=
  (List.range 4).find? fun n => n != f && !fenced s (cl * 4 + n) && !isF s TUNIT_STAT_ADOPTING (cl * 4 + n)

/-- Place the work of the fenced units in turn: start a bank copy, or meet R102. -/
def placeFences (cl : Nat) : Nat → State → State
  | 0, s => s
  | n + 1, s =>
    let c := clusterOf s cl
    match c.copying, c.fences with
    | none, f :: r =>
      match adopter s cl f with
      | some a => modCluster cl (fun c => { c with copying := some (f, a) }) s
      | none => placeFences cl n (modCluster cl (fun c => { c with fences := r }) (adoptFail (cl * 4 + f) s))
    | _, _ => s

/-- The slots of an accumulator bank set to +0. -/
def clearBank (b : Nat) (a : Store AccSlot) : Store AccSlot := a.filter fun e => e.1 / 8 != b

/-- Descriptors of adopted work that a unit holds. -/
def adoptedLeft (s : State) (u : Nat) : Bool :=
  let x := unitOf s u
  let c := clusterOf s (u / 4)
  x.run.any (·.adopted) || x.cq.any (·.adopted) || x.bad.any (·.adopted) || (!c.buf.isEmpty && c.bufTo == u % 4)

/-- The adopted bank becomes free when no moved descriptor is left (R102). -/
def freeBank (u : Nat) (s : State) : State :=
  if isF s TUNIT_STAT_ADOPTING u && !adoptedLeft s u then
    setF TUNIT_STAT_ADOPTING u 0 (setF TUNIT_STAT_ADOPTED_FROM u 0
      (modUnit u (fun x => { x with acc := clearBank 1 x.acc }) s))
  else s

/-- Adopted work at a unit that fences has no place to go and completes with ADOPT_FAIL (R102). -/
def failAdopted (u : Nat) (s : State) : State :=
  let x := unitOf s u
  let c := clusterOf s (u / 4)
  let buf := if c.bufTo = u % 4 then c.buf else []
  let work := (floatWork x).filter (·.adopted) ++ buf
  let s := putUnit u { x with run := x.run.filter fun q => !q.adopted, cq := x.cq.filter fun q => !q.adopted } s
  let s := if c.bufTo = u % 4 then modCluster (u / 4) (fun c => { c with buf := [] }) s else s
  freeBank u (failDescs u work s)

/-- The wide descriptors of the running job are to be issued again; those of an abandoned job are gone (R229, R234). -/
def takeBack (back : List QDesc) (q : Seq) : Seq :=
  if q.job.isSome then { q with back := q.back ++ back.filter fun d => d.lid == q.epoch } else q

/-- The sequencer withdraws the wide descriptors of a fenced unit (R234). -/
def withdrawWide (u : Nat) (s : State) : State :=
  let x := unitOf s u
  let back := (x.run.filter (·.wide)).toList ++ x.wq
  modSeq (u / 32) (takeBack back)
    (putUnit u { x with run := x.run.filter fun q => !q.wide, wq := [] } s)

/-- A unit fences (R21, R99, R101, R108, R110). The descriptor that was running no longer runs. -/
def fenceUnit (u : Nat) (s : State) : State :=
  if fenced s u then s
  else
    let s := setEvt TUNIT_EV_FENCE u (setF TUNIT_STAT_FENCED u 1 (setF TUNIT_STAT_LEND u 0 s))
    let s := failAdopted u (withdrawWide u s)
    let s := modCluster (u / 4) (fun c => { c with
      fences := c.fences ++ [u % 4], copying := c.copying.filter fun e => e.2 != u % 4 }) s
    let s := placeFences (u / 4) 4 s
    setF TUNIT_STAT_BUSY u 0 s

/-- The fenced unit's own bank as an adopted bank. -/
def copyBank (src dst : Store AccSlot) : Store AccSlot :=
  clearBank 1 dst ++ (src.filter fun e => e.1 / 8 == 0).map fun e => (e.1 + 8, e.2)

/-- A descriptor as it moves from fenced unit `u`; tiles that it has entered there stay that unit's (R101, R128). -/
def moveDesc (u : Nat) (q : QDesc) : QDesc := { q with adopted := true, moved := if q.tile = 0 then none else some (u, q.tile) }

/-- The copy from unit `f` to its sibling `a` is complete: the work moves (R101). DESIGN CHOICE (log entry 106): where a running descriptor
and 16 queued ones meet a full queue, the adoption buffer holds all 17. -/
def moveWork (cl f a : Nat) (s : State) : State :=
  let x := unitOf s (cl * 4 + f)
  let y := unitOf s (cl * 4 + a)
  let all := y.cq ++ (floatWork x).map (moveDesc (cl * 4 + f))
  let s := putUnit (cl * 4 + f) { x with run := none, tile := {}, cq := [] } s
  let s := putUnit (cl * 4 + a) { y with cq := all.take 16, acc := copyBank x.acc y.acc } s
  let s := setF TUNIT_STAT_ADOPTING (cl * 4 + a) 1 (setF TUNIT_STAT_ADOPTED_FROM (cl * 4 + a) f s)
  let s := if (all.drop 16).isEmpty then s else modCluster cl (fun c => { c with buf := all.drop 16, bufTo := a }) s
  freeBank (cl * 4 + a) s

/-- ADOPT_COPY_DONE: the bank copy of cluster `cl` is complete; `ok` says that it met no uncorrectable error (R101, R102).
While the adoption buffer holds another unit's surplus, work that needs the buffer waits. -/
def adoptCopyDone (cl : Nat) (ok : Bool) (s : State) : State :=
  let c := clusterOf s cl
  match c.copying with
  | none => s
  | some (f, a) =>
    let need := (unitOf s (cl * 4 + a)).cq.length + (floatWork (unitOf s (cl * 4 + f))).length
    if ok && !c.buf.isEmpty && decide (16 < need) then s
    else
      let s := modCluster cl (fun c => { c with copying := none, fences := c.fences.filter (· ≠ f) }) s
      placeFences cl 4 (if ok then moveWork cl f a s else adoptFail (cl * 4 + f) s)

/-- ADOPT_COPY_DONE. -/
def execAdoptCopyDone (cl : Nat) (ok : Bool) (s : State) : Host.Outcome State Fault Refusal :=
  .next (runningIn (32 + cl / 8) s (adoptCopyDone cl ok s))

/-- ADOPTION_BUFFER_ENTER: the first descriptor of the adoption buffer enters the sibling's queue as room appears (R101). -/
def adoptionBufferEnter (cl : Nat) (s : State) : State :=
  let c := clusterOf s cl
  let u := cl * 4 + c.bufTo
  match c.buf with
  | q :: r =>
    if (unitOf s u).cq.length < 16 then
      modUnit u (fun x => { x with cq := x.cq ++ [q] }) (modCluster cl (fun c => { c with buf := r }) s)
    else s
  | [] => s

/-- ADOPTION_BUFFER_ENTER. -/
def execAdoptionBufferEnter (cl : Nat) (s : State) : Host.Outcome State Fault Refusal :=
  .next (runningIn (32 + cl / 8) s (adoptionBufferEnter cl s))

/-- A passed write of TUNIT.CTRL with FORCE_FENCE set: the bit is set, and the unit is fenced (R12, R99, R111). -/
def forceFence (r : Requester) (a v : Nat) (s : State) : State :=
  if a % 4 = 0 ∧ bit v 2 then guarded r a (fun t i o s => if t = 0 ∧ o = 0x10 then fenceUnit i (setF TUNIT_CTRL_FORCE_FENCE i 1 s) else s) s else s

/-- FORCE_FENCE. -/
def execForceFence (r : Requester) (a v : Nat) (s : State) : Host.Outcome State Fault Refusal := .next (forceFence r a v s)

/-- RESUME discards the invalid descriptors that halt a unit's queues; one of a list counts as completed (R89). -/
def resumeUnit (u : Nat) (s : State) : State :=
  let x := unitOf s u
  let s := putUnit u { x with bad := none, badWide := none } s
  let s := match x.bad with
    | some q => passDone (u / 4) q.lid q.part false [] s
    | none => s
  freeBank u s

/-- A passed write of TUNIT.CTRL with RESUME set. -/
def resume (r : Requester) (a v : Nat) (s : State) : State :=
  if a % 4 = 0 ∧ bit v 3 then guarded r a (fun t i o s => if t = 0 ∧ o = 0x10 then resumeUnit i s else s) s else s

/-- RESUME. -/
def execResume (r : Requester) (a v : Nat) (s : State) : Host.Outcome State Fault Refusal := .next (resume r a v s)

/-! ## Forming tiles -/

/-- Class of float work (R612). -/
def workClass (f : Nat) : Nat := if f < 2 then 0 else if f = 4 then 2 else if f = 8 then 3 else 1

/-- Add to the pending tallies of a cluster, in units of 64 multiply–accumulates (R612). -/
def tallyAdd (cl c cls n : Nat) (s : State) : State :=
  modCluster cl (fun x => { x with tally := x.tally.upd 0 (c * 4 + cls) (· + n) }) s

/-- A unit is forming a float tile. -/
def floatRun (s : State) (u : Nat) : Option QDesc :=
  if fenced s u then none else (unitOf s u).run.filter fun q => !q.wide && decide (q.tile < mTiles q.desc)

/-- CHUNK_PASS_END: one pass of the present chunk of the tile that unit `u` forms (R119 to R125). -/
def chunkPassEnd (u : Nat) (s : State) : State :=
  match floatRun s u with
  | none => s
  | some q =>
    let t := (unitOf s u).tile
    if mFmtL q.desc = 4 ∨ mK q.desc ≤ t.k then s
    else
      let o := tileOps s (u / 4) q.desc q.tile
      tallyAdd (u / 4) q.ctx (workClass (mFmtL q.desc)) (64 * chunkLen o t)
        (modUnit u (fun x => { x with tile := chunkPass o t }) s)

/-- CHUNK_PASS_END. -/
def execChunkPassEnd (u : Nat) (s : State) : Host.Outcome State Fault Refusal := .next (runningIn (u / 32) s (chunkPassEnd u s))

/-- Faults of the array change words of a working tile: cell and mask. -/
def flipWords (fl : Flips) (w : List Nat) : List Nat :=
  fl.foldl (fun w e => packWords ((tileWords w).modify e.1 (fun v => (v ^^^ e.2) % two32))) w

/-- Faults of the checksum cells, numbered from 4,096 on, change words of the 65th column. -/
def flipCol (fl : Flips) (col : List Nat) : List Nat :=
  fl.foldl (fun w e => if e.1 < 4096 then w else w.modify (e.1 - 4096) (fun v => (v ^^^ e.2) % two32)) col

/-- Corrected ECC errors of a unit are counted (R81). -/
def unitEcc (u n : Nat) (s : State) : State :=
  if n = 0 then s else setEvt TUNIT_EV_ECC_CORR u (addF TUNIT_ECC_CORR_CNT u n s)

/-- Write-out of a tile, row by row (R91). -/
def writeTile (cl : Nat) (d : List Byte) (t : Nat) (w : List Nat) : Nat → State → State
  | 0, s => s
  | m + 1, s =>
    let a := mOutAddr d + (t / mCols d * 64 + m) * mOutStride d + t % mCols d * 64 * fmtBytes (mFmtOut d)
    sramWrite cl a (outRow (mFmtOut d) w m) (writeTile cl d t w m s)

/-- A row mismatched: MISS_INFO (R116). -/
def noteMissRow (u row tile rep : Nat) (s : State) : State :=
  setF TUNIT_MISS_INFO_ROW u row (setF TUNIT_MISS_INFO_TILE u tile (setF TUNIT_MISS_INFO_REPEAT u rep s))

/-- A first mismatch of a tile: it is formed again (R98). -/
def firstMissed (u row tile : Nat) (s : State) : State :=
  setEvt TUNIT_EV_CHK_MISS u (incr TUNIT_CHK_MISS u (noteMissRow u row tile 0
    (modUnit u (fun x => { x with tile := { again := true } }) s)))

/-- The repeat of a tile mismatched too: the unit fences (R99). -/
def secondMissed (u row tile : Nat) (s : State) : State := fenceUnit u (unitErr u 9 tile (noteMissRow u row tile 1 s))

/-- Counters of an accepted pass over a tile (R100, R139). -/
def acceptCounts (u : Nat) (t : TileRun) (s : State) : State :=
  let s := if t.again then incr TUNIT_CHK_REPEAT_OK u s else s
  addF TUNIT_A20_OVF u t.ovf (addF TUNIT_ACC_REPEAT u t.reps
    (if t.four.isSome then incr TUNIT_CHUNK4_TILES u s else s))

/-- The chunk-4 outcome of a tile. -/
def chunk4Of (q : QDesc) (t : TileRun) : List (Nat × Nat) :=
  match t.four with
  | some c => [(q.tile, c)]
  | none => []

/-- An accepted tile enters its slot and, with WRITE, cluster SRAM (R90 to R92). -/
def enterTile (u : Nat) (q : QDesc) (t : TileRun) (w col : List Nat) (s : State) : State :=
  let d := q.desc
  let key := (if q.adopted then 8 else 0) + q.tile
  let x := unitOf s u
  let old := x.acc.get {} key
  let slot := enterSlot (mAcc d) old.vals w
  let spill := spills (mWrite d) (mFmtOut d) slot
  let st := q.status ||| (if spill then 1 else 0) ||| (if t.again then 2 else 0)
  let s := putUnit u { x with
    acc := x.acc.put {} key { ctx := q.ctx, vals := slot, chk := enterCol (mAcc d) old.chk col },
    run := some { q with tile := q.tile + 1, status := st, c4 := q.c4 ++ chunk4Of q t }, tile := {} } s
  let s := if mWrite d then writeTile (u / 4) d q.tile slot 64 s else s
  if spill then setEvt TUNIT_EV_OUT_OVF u s else s

/-- The working tile at the end of a tile, and the tally of an FP32 tile. -/
def formed (s : State) (u : Nat) (q : QDesc) : Option (List Nat) :=
  let t := (unitOf s u).tile
  if mFmtL q.desc = 4 then some (formTile32 (tileOps s (u / 4) q.desc q.tile))
  else if mK q.desc ≤ t.k then some t.work else none

/-- The k-steps of `n` passes over the next tile, while tile `q.tile` is under check; an FP32 tile counts its k-steps singly. -/
def aheadSteps (o : TileOps) (d : List Byte) (n : Nat) : Nat := if mFmtL d = 4 then min n (mK d) else stepsIn o n {}

/-- The tile that was formed beside a mismatching one is stopped and discarded: only its issued k-steps count (R98, R100, R613). -/
def dropAhead (u : Nat) (q : QDesc) (n : Nat) (s : State) : State :=
  if q.tile + 1 < mTiles q.desc then
    tallyAdd (u / 4) q.ctx (workClass (mFmtL q.desc)) (64 * aheadSteps (tileOps s (u / 4) q.desc (q.tile + 1)) q.desc n) s
  else s

/-- The passes over the next tile that ran beside the check (R90). -/
def goAhead (u : Nat) : Nat → State → State
  | 0, s => s
  | n + 1, s => chunkPassEnd u (goAhead u n s)

/-- The check and entry of a formed tile with its 65th column. -/
def checkTile (u : Nat) (q : QDesc) (w col : List Nat) (ahead : Nat) (s : State) : State :=
  let t := (unitOf s u).tile
  let s := if mFmtL q.desc = 4 then tallyAdd (u / 4) q.ctx 2 (64 * mK q.desc) s else s
  match missRow (getF s TUNIT_CHK_CFG_CHK_TOL u) col w with
  | some row => if t.again then secondMissed u row q.tile (dropAhead u q ahead s) else firstMissed u row q.tile (dropAhead u q ahead s)
  | none => goAhead u ahead (enterTile u q t w col (acceptCounts u t s))

/-- TILE_END: at the end of a tile unit `u` checks it and enters it. `corr` ECC errors were corrected and `unc` says that an
uncorrectable one was met (R81, R99); `fl` are the cells that a fault changed; `stall` tclk were lost for operands (R83). Beside the
check the unit began the next tile in its second working tile: `ahead` passes, or k-steps of an FP32 tile, which count if the tile
passes and are discarded if it does not (R81, R90, R98). A running wide tile, and a unit at rest, meet only the ECC effects (R107). -/
def tileEnd (u corr : Nat) (unc : Bool) (fl : Flips) (stall ahead : Nat) (s : State) : State :=
  if fenced s u then s
  else match (unitOf s u).run with
  | none =>
    let s := unitEcc u corr s
    if unc then fenceUnit u (setEvt TUNIT_EV_ECC_UNCORR u (unitErr u 8 0 s)) else s
  | some q =>
    let s := unitEcc u corr (addF TUNIT_FEED_STALL u stall s)
    if unc then fenceUnit u (setEvt TUNIT_EV_ECC_UNCORR u (unitErr u 8 (q.tile % 8) s))
    else if q.wide || decide (mTiles q.desc ≤ q.tile) then s
    else match formed s u q with
      | some w => checkTile u q (flipWords fl w) (flipCol fl (checkCol (tileOps s (u / 4) q.desc q.tile))) ahead s
      | none => s

/-- TILE_END. -/
def execTileEnd (u corr : Nat) (unc : Bool) (fl : Flips) (stall : TileTime) (s : State) :
    Host.Outcome State Fault Refusal :=
  .next (runningIn (u / 32) s (tileEnd u corr unc fl stall.stall stall.ahead s))

/-! ## Wide work (R104 to R107) -/

/-- The 64 words of a wide slot. -/
def wideSlot (v : List Int) : List Int := if v.isEmpty then List.replicate 64 0 else v

/-- Write-out of a wide tile. -/
def writeWide (cl : Nat) (d : List Byte) (t : Nat) (v : List Int) : Nat → State → State
  | 0, s => s
  | m + 1, s =>
    let a := mOutAddr d + (t / mCols d * 8 + m) * mOutStride d + t % mCols d * 64
    sramWrite cl a (((v.drop (8 * m)).take 8).flatMap fun i => leBytes 8 (bxWord (wideSat i).1))
      (writeWide cl d t v m s)

/-- Saturated outputs of a wide tile. -/
def wideSats (v : List Int) : Nat := (v.filter fun i => (wideSat i).2).length

/-- Form the wide tiles of a descriptor from tile 0 on, `n` of them; answers how many outputs saturated. -/
def wideTiles (u : Nat) (d : List Byte) : Nat → State → Nat × State
  | 0, s => (0, s)
  | n + 1, s =>
    let r := wideTiles u d n s
    let s := r.2
    let x := unitOf s u
    let w := wideTile s (u / 4) d n
    let v := if mAcc d then ((wideSlot (x.wide.get [] n)).zip w).map fun e => wrap84 (e.1 + e.2) else w
    let s := putUnit u { x with wide := x.wide.put [] n (if v.all (· == 0) then [] else v) } s
    if mWrite d then (r.1 + wideSats v, writeWide (u / 4) d n v 8 s) else (r.1, s)

/-- A wide descriptor of the running job saturated; one of an abandoned job tells the sequencer nothing (R229, R239). -/
def noteSat (n : Nat) (q : Seq) : Seq := if q.job.isSome && n == q.epoch then { q with sat := true } else q

/-- A wide descriptor completes (R93, R106). -/
def wideComplete (u : Nat) (q : QDesc) (s : State) : State :=
  let d := q.desc
  let s := tallyAdd (u / 4) q.ctx 3 (mTiles d * mK d) s
  let r := wideTiles u d (mTiles d) s
  let s := if r.1 = 0 then r.2 else
    setEvt TUNIT_EV_BX_SAT u (addF TUNIT_BX_SAT_CNT u r.1 (modSeq (u / 32) (noteSat q.lid) r.2))
  let s := incr TUNIT_DESC_DONE u (incr TUNIT_WIDE_DESC u (setF TUNIT_LAST_STAT u (if r.1 = 0 then 0 else 8) s))
  let s := modUnit u (fun x => { x with run := none, tile := {} }) s
  if mFlagEn d then signalFlag (u / 4) q.ctx (mFlag d) s else s

/-! ## Completion (R93) -/

/-- A float descriptor completes. -/
def floatComplete (u : Nat) (q : QDesc) (s : State) : State :=
  let st := q.status ||| (if q.adopted then 4 else 0)
  let s := if q.adopted then incr TUNIT_ADOPT_CNT u s else s
  let s := incr TUNIT_DESC_DONE u (setF TUNIT_LAST_STAT u st (modUnit u (fun x => { x with run := none, tile := {} }) s))
  let s := if mFlagEn q.desc then signalFlag (u / 4) q.ctx (mFlag q.desc) s else s
  freeBank u (settleDesc u q s)

/-- DESC_COMPLETE: the running descriptor of unit `u` completes once its last tile is in its slot. -/
def descComplete (u : Nat) (s : State) : State :=
  match (if fenced s u then none else (unitOf s u).run) with
  | none => s
  | some q =>
    if q.wide then wideComplete u q s else if mTiles q.desc ≤ q.tile then floatComplete u q s else s

/-- DESC_COMPLETE. -/
def execDescComplete (u : Nat) (s : State) : Host.Outcome State Fault Refusal := .next (runningIn (u / 32) s (descComplete u s))

/-! ## Folds (R23, R130, R131) -/

/-- `n` FP32 words of a cluster's SRAM. -/
def fp32s (s : State) (cl a : Nat) : Nat → List FV
  | 0 => []
  | n + 1 => fp32s s cl a n ++ [val32 (sramVal s cl (a + 4 * n) 4)]

/-- FP32 values as bytes. -/
def fp32Bytes (vs : List FV) : List Byte := vs.flatMap fun v => leBytes 4 (word32 v)

/-- REDUCTION_FOLD: the vector engine of cluster `cl` adds part `i` of a reduction, `n` FP32 words at `part`, into the sum at
`dst`; part 0 starts the sum. A part whose predecessors are not all added waits. -/
def reductionFold (cl dst part n i : Nat) (last : Bool) (s : State) : State :=
  if (clusterOf s cl).folds.get 0 dst = i then
    let ps := fp32s s cl part n
    let sum := if i = 0 then sramRead s cl part (4 * n)
      else fp32Bytes (((fp32s s cl dst n).zip ps).map fun e => add32 e.1 e.2)
    modCluster cl (fun c => { c with folds := c.folds.put 0 dst (if last then 0 else i + 1) }) (sramWrite cl dst sum s)
  else s

/-- REDUCTION_FOLD. -/
def execReductionFold (cl dst part n k : Nat) (last : Bool) (s : State) : Host.Outcome State Fault Refusal :=
  .next (runningIn (32 + cl / 8) s (reductionFold cl dst part n k last s))

end Sys2Proof.Machine
end

