-- ==== Sys2Proof/Machine/Stash.lean ====
section
/-! DEFINITION. Stash descriptors: encoding activations into chunk areas and the load path (R276 to R281). -/

namespace Sys2Proof.Machine

/-! ## The stash descriptor (R276, R277) -/

/-- FMT. -/
def stFmt (d : List Byte) : Nat := bits (dw d 0) 8 4
/-- FLAG_EN. -/
def stFlagEn (d : List Byte) : Bool := bit (dw d 0) 12
/-- OUT_EXP. -/
def stOutExp (d : List Byte) : Nat := bits (dw d 0) 13 3
/-- Tokens n. -/
def stTok (d : List Byte) : Nat := bits (dw d 1) 0 10 + 1
/-- Channel tiles covered. -/
def stCht (d : List Byte) : Nat := bits (dw d 1) 10 10 + 1
/-- FLAG. -/
def stFlag (d : List Byte) : Nat := bits (dw d 1) 20 12
/-- SRAM_ADDR. -/
def stAddr (d : List Byte) : Nat := bits (dw d 2) 0 23
/-- SRAM_STRIDE in bytes. -/
def stStride (d : List Byte) : Nat := bits (dw d 3) 0 16 * 64
/-- RAW_SLOTS. -/
def stSlots (d : List Byte) : Nat := bits (dw d 3) 16 16
/-- CHUNK_BASE in bytes. -/
def stChunk (d : List Byte) : Nat := dw d 4 * 256
/-- RAW_BASE in bytes. -/
def stRaw (d : List Byte) : Nat := dw d 5 * 256
/-- CH0. -/
def stCh0 (d : List Byte) : Nat := bits (dw d 6) 0 16
/-- CHT_TOTAL. -/
def stTotal (d : List Byte) : Nat := bits (dw d 6) 16 16
/-- SCALE_ADDR. -/
def stScale (d : List Byte) : Nat := bits (dw d 7) 0 23

/-- Token rows of the destination: n rounded up to whole tiles (R280). -/
def stRows (d : List Byte) : Nat := (stTok d + 63) / 64 * 64

/-- A decode to FP16. -/
def stFp16 (d : List Byte) : Bool := dop d == 0x42 && stFmt d == 3

/-- The area in cluster SRAM, as `mAreas` lists areas. -/
def stArea (d : List Byte) : Nat × Nat × Nat × Nat :=
  (stAddr d, stStride d, if dop d = 0x42 then stRows d else stTok d, 64 * stCht d * fmtBytes (stFmt d))

/-- STASH_ERR.CODE of the first case of R277; 0 for a valid descriptor. -/
def stashCode (d : List Byte) : Nat :=
  if dop d ≠ 0x41 ∧ dop d ≠ 0x42 then 1
  else if !(stFmt d == 2 || stFmt d == (if dop d = 0x41 then 4 else 3)) then 2
  else if stTotal d = 0 ∨ stTotal d < stCh0 d + stCht d then 3
  else if !areaOk (stArea d) ||
      (stFp16 d && !(stScale d % 64 == 0 && decide (stScale d + pad64 (stRows d / 64 * stCht d) ≤ sramTop))) then 4
  else if stStride d < (stArea d).2.2.2 then 5
  else if bits (dw d 0) 16 16 ≠ 0 ∨ bits (dw d 2) 23 9 ≠ 0 ∨ bits (dw d 7) 23 9 ≠ 0 ∨ (!stFp16 d ∧ stScale d ≠ 0) then 6
  else 0

/-- STASH_ERR takes the first fault after its last clearing (R294). -/
def stashErr (cl code cht : Nat) (s : State) : State :=
  if getF s CLUSTER_STASH_ERR_CODE cl = 0 then
    setF CLUSTER_STASH_ERR_CODE cl code (setF CLUSTER_STASH_ERR_CHT cl cht s)
  else s

/-- An invalid stash descriptor halts its list (R277). -/
def stashHalt (cl lid code : Nat) (s : State) : State :=
  haltList cl lid (setEvt CLUSTER_EV_STASH_INVALID cl (stashErr cl code 0 s))

/-! ## Encoding (R278) -/

/-- The BF16 words of channel `c` of those covered. -/
def stashSrc (s : State) (cl : Nat) (d : List Byte) (c : Nat) : List Nat :=
  (List.range (stTok d)).map fun t =>
    let w := sramVal s cl (stAddr d + t * stStride d + c * fmtBytes (stFmt d)) (fmtBytes (stFmt d))
    if stFmt d = 4 then fmtBF16.enc (fmtFP32.dec w) else w

/-- Raw slots in ascending channel order: the index of each RAW channel, 0xFFFF without a slot (R278). -/
def rawIdxs (slots : Nat) : Nat → List Chan → List Nat
  | _, [] => []
  | k, c :: cs =>
    if c.kind = 2 then (if k < slots then k else 0xFFFF) :: rawIdxs slots (k + 1) cs else 0xFFFF :: rawIdxs slots k cs

/-- A raw slot: the values in ascending token, +0 beyond (R275). -/
def rawSlot (xs : List Nat) : List Byte := xs.flatMap (leBytes 2) ++ List.replicate (2048 - 2 * xs.length) 0

/-- Write the raw slots of channels that have one. -/
def writeRaws (die base : Nat) : List (Chan × Nat × List Nat) → State → State
  | [], s => s
  | (c, k, xs) :: r, s =>
    writeRaws die base r (if c.kind = 2 ∧ k ≠ 0xFFFF then memStore die (base + 2048 * k) (rawSlot xs) s else s)

/-- Code rows 0 to n − 1 of a chunk area, for the channels from `c0` on (R273, R275). -/
def writeCodes (die base cpad c0 : Nat) (cs : List Chan) : Nat → State → State
  | 0, s => s
  | t + 1, s =>
    memStore die (base + 72 * cpad + t * cpad + c0) (cs.map fun c => chanCode c t) (writeCodes die base cpad c0 cs t s)

/-- The headers, side lists and codes of a run of channels (R273). -/
def writeChunk (die base cpad c0 : Nat) (cs : List (Chan × Nat)) (s : State) : State :=
  let s := memStore die (base + 8 * c0) (cs.flatMap fun e => hdrBytes e.1 e.2) s
  let s := memStore die (base + 8 * cpad + 64 * c0) (cs.flatMap fun e => sideBytes e.1) s
  writeCodes die base cpad c0 (cs.map (·.1)) 1024 s

/-- Counters and events of encoded channel chunks (R278, R292, R293). -/
def countStash (cl : Nat) (cs : List (Chan × Nat)) (s : State) : State :=
  let raws := (cs.filter fun e => e.1.kind == 2).length
  let lost := (cs.filter fun e => e.1.kind == 2 && e.2 == 0xFFFF).length
  let s := addF CLUSTER_STASH_CHAN cl cs.length (addF CLUSTER_STASH_CONST cl (cs.filter fun e => e.1.kind == 1).length
    (addF CLUSTER_STASH_RAW cl raws (addF CLUSTER_STASH_LOST cl lost
      (addF CLUSTER_STASH_ESC cl (cs.foldl (fun a e => a + e.1.side.length) 0) s))))
  let s := if raws = 0 then s else setEvt CLUSTER_EV_STASH_RAW cl s
  if lost = 0 then s else setEvt CLUSTER_EV_STASH_LOST cl s

/-- The completion status of a stash descriptor: bit 0 LOST, bit 1 CORRUPT (R278, R280). DESIGN CHOICE (log entry 109): the cluster
keeps it for the descriptor that completed last. -/
def stashStatus (cl st : Nat) (s : State) : State := modCluster cl (fun c => { c with stash := st }) s

/-- Run a valid encode; it completes with LOST when a RAW channel found no slot. -/
def stashEncode (cl : Nat) (d : List Byte) (s : State) : State :=
  let xss := (List.range (64 * stCht d)).map (stashSrc s cl d)
  let cs := xss.map (encChan (stOutExp d))
  let ks := rawIdxs (stSlots d) 0 cs
  let s := writeChunk (cl / 64) (stChunk d) (64 * stTotal d) (64 * stCh0 d) (cs.zip ks) s
  stashStatus cl (if (cs.zip ks).any fun e => e.1.kind == 2 && e.2 == 0xFFFF then 1 else 0)
    (countStash cl (cs.zip ks) (writeRaws (cl / 64) (stRaw d) (cs.zip (ks.zip xss)) s))

/-! ## The load path (R280, R281) -/

/-- Several memory ranges read by a cluster's DMA engine as class 1; none when any of them fails (R302, R313). -/
def readAll (die : Nat) : List (Nat × Nat) → State → Option (List (List Byte)) × State
  | [], s => (some [], s)
  | (a, n) :: r, s =>
    match engRead die 1 a n s with
    | (.data bs, s) =>
      match readAll die r s with
      | (some l, s) => (some (bs :: l), s)
      | (none, s) => (none, s)
    | (_, s) => (none, s)

/-- The ranges that hold channel tile `ct`: headers, side lists and code rows. -/
def tileRanges (d : List Byte) (ct : Nat) : List (Nat × Nat) :=
  let cpad := 64 * stTotal d
  [(stChunk d + 512 * ct, 512), (stChunk d + 8 * cpad + 4096 * ct, 4096)] ++
    (List.range (stTok d)).map fun t => (stChunk d + 72 * cpad + t * cpad + 64 * ct, 64)

/-- A channel of a tile: its header, side list and codes. -/
def chanParts (bs : List (List Byte)) (c : Nat) : List Byte × List Byte × List Nat :=
  (((bs.headD []).drop (8 * c)).take 8, (((bs.drop 1).headD []).drop (64 * c)).take 64,
   (bs.drop 2).map fun row => (row.getD c 0).toNat)

/-- The raw slots of a tile's RAW channels; the others read nothing. -/
def rawRanges (d : List Byte) (cs : List (List Byte × List Byte × List Nat)) : List (Nat × Nat) :=
  cs.map fun e => if hKind e.1 = 2 then (stRaw d + 2048 * hRaw e.1, 2048) else (0, 0)

/-- The exponent of a tile decoded to FP16, from the BND of its channels (R281). -/
def decExp (cs : List (List Byte × List Byte × List Nat)) : Int :=
  match maxTop (cs.map fun e => bf (hBnd e.1)) with
  | none => -128
  | some x => max (-127) (x - 14)

/-- One element of a decoded tile. -/
def decWord (d : List Byte) (e : Int) (x : DecVal) : Nat :=
  if stFmt d = 3 then fmtFP16.enc (x.v.scale (-e)) else x.word.getD (fmtBF16.enc x.v)

/-- Write the rows of a decoded tile: rows beyond the tokens are +0 (R280, R281). -/
def writeDec (cl : Nat) (d : List Byte) (i : Nat) (e : Int) (chans : List (List DecVal)) : Nat → State → State
  | 0, s => s
  | t + 1, s =>
    sramWrite cl (stAddr d + t * stStride d + 128 * i)
      (chans.flatMap fun c => leBytes 2 (if t < stTok d then decWord d e (c.getD t {}) else 0))
      (writeDec cl d i e chans t s)

/-- The exponents of a tile, one for each 64 token rows. -/
def writeDecExp (cl : Nat) (d : List Byte) (i : Nat) (e : Int) : Nat → State → State
  | 0, s => s
  | r + 1, s => sramWrite cl (stScale d + r * stCht d + i) (leBytes 1 (twos 8 e)) (writeDecExp cl d i e r s)

/-- A tile failed its check (R280, R294). -/
def tileCorrupt (cl ct : Nat) (s : State) : State :=
  stashErr cl 7 ct (setEvt CLUSTER_EV_STASH_CORRUPT cl (incr CLUSTER_STASH_CORRUPT cl s))

/-- Decode the `i`th covered channel tile, and answer the status it gives the decode (log entry 109). A tile that fails its check, or
holds a RAW channel without a slot, is not written. -/
def decTile (cl : Nat) (d : List Byte) (i : Nat) (s : State) : Nat × State :=
  let ct := stCh0 d + i
  match readAll (cl / 64) (tileRanges d ct) s with
  | (none, s) => (0, s)
  | (some bs, s) =>
    let cs := (List.range 64).map (chanParts bs)
    if !cs.all (fun e => chanOk (stSlots d) e.1 e.2.1 e.2.2) then (2, tileCorrupt cl ct s)
    else if cs.any fun e => hKind e.1 == 2 && hRaw e.1 == 0xFFFF then (1, s)
    else match readAll (cl / 64) (rawRanges d cs) s with
      | (none, s) => (0, s)
      | (some raws, s) =>
        let e := decExp cs
        let chans := (cs.zip raws).map fun x => decChan x.1.1 x.1.2.1 x.2 x.1.2.2
        let s := if stFp16 d then writeDecExp cl d i e (stRows d / 64) s else s
        (0, writeDec cl d i e chans (stRows d) s)

/-- Decode the first `n` covered tiles in ascending order. -/
def decTiles (cl : Nat) (d : List Byte) : Nat → State → Nat × State
  | 0, s => (0, s)
  | n + 1, s =>
    let r := decTiles cl d n s
    let t := decTile cl d n r.2
    (r.1 ||| t.1, t.2)

/-- Run a valid decode; the exponent table is padded with zeros. -/
def stashDecode (cl : Nat) (d : List Byte) (s : State) : State :=
  let r := decTiles cl d (stCht d) s
  let n := stRows d / 64 * stCht d
  stashStatus cl r.1 (if stFp16 d then sramWrite cl (stScale d + n) (List.replicate (pad64 n - n) 0) r.2 else r.2)

/-- The DMA engine of cluster `cl` executes the stash descriptor in the hand of list `lid`, which must have opcode `op`; an
invalid one halts the list. -/
def stashRun (op cl lid : Nat) (f : Nat → List Byte → State → State) (s : State) : State :=
  match descInHand s cl lid 4 with
  | none => s
  | some (l, d) =>
    if stashCode d ≠ 0 then (if dop d = op ∨ stashCode d = 1 then stashHalt cl lid (stashCode d) s else s)
    else if dop d ≠ op then s
    else
      let s := f cl d s
      descTaken cl lid (if stFlagEn d then signalFlag cl l.ctx (stFlag d) s else s)

/-- STASH_ENCODE. -/
def execStashEncode (cl lid : Nat) (s : State) : Host.Outcome State Fault Refusal :=
  .next (runningIn (32 + cl / 8) s (stashRun 0x41 cl lid stashEncode s))

/-- STASH_DECODE. -/
def execStashDecode (cl lid : Nat) (s : State) : Host.Outcome State Fault Refusal :=
  .next (runningIn (32 + cl / 8) s (stashRun 0x42 cl lid stashDecode s))

end Sys2Proof.Machine
end

