-- ==== Sys2Proof/Machine/Blocks.lean ====
section
/-! DEFINITION. Curvature blocks: block records, buffers and matrices, block directories and tables and their checks, and due
steps (R189 to R203, R226). -/

namespace Sys2Proof.Machine

/-! ## Latched record fields (R196, R197) -/

/-- GBI of a record's first bytes. -/
def lGbi (l : List Byte) : Nat := pay l 0 4
/-- BROW. -/
def lBrow (l : List Byte) : Nat := pay l 8 2
/-- BCOL. -/
def lBcol (l : List Byte) : Nat := pay l 10 2
/-- ROWS_ACT. -/
def lRows (l : List Byte) : Nat := bits (pay l 12 2) 0 13
/-- RB. -/
def lRb (l : List Byte) : Nat := bits (pay l 12 2) 13 3
/-- COLS_ACT. -/
def lCols (l : List Byte) : Nat := bits (pay l 14 2) 0 13
/-- CB. -/
def lCb (l : List Byte) : Nat := bits (pay l 14 2) 13 3
/-- FROZEN. -/
def lFrozen (l : List Byte) : Bool := bit (pay l 16 1) 0
/-- UE_AUTO. -/
def lUeAuto (l : List Byte) : Bool := bit (pay l 16 1) 1
/-- SIDE_L. -/
def lSideL (l : List Byte) : Bool := bit (pay l 16 1) 2
/-- SIDE_R. -/
def lSideR (l : List Byte) : Bool := bit (pay l 16 1) 3
/-- RS_POLICY. -/
def lPolicy (l : List Byte) : Bool := bit (pay l 16 1) 4
/-- UPD_EXP. -/
def lUpdExp (l : List Byte) : Int := signedOf 8 (pay l 17 1)
/-- DECAY_L. -/
def lDecayL (l : List Byte) : Nat := bits (pay l 18 1) 0 5
/-- DECAY_R. -/
def lDecayR (l : List Byte) : Nat := bits (pay l 19 1) 0 5
/-- P_L. -/
def lPL (l : List Byte) : Nat := bits (pay l 20 1) 0 2
/-- P_R. -/
def lPR (l : List Byte) : Nat := bits (pay l 20 1) 2 2

/-- Padded row side in tiles of 64 (R191, R200). -/
def lTl (l : List Byte) : Nat := (lRows l + 63) / 64
/-- Padded column side in tiles. -/
def lTr (l : List Byte) : Nat := (lCols l + 63) / 64
/-- Tiles of the weights. -/
def lTiles (l : List Byte) : Nat := lTl l * lTr l
/-- Triangle tiles of a side of `n` tiles; none for a disabled side (R200, R201). -/
def triTiles (on : Bool) (n : Nat) : Nat := if on then n * (n + 1) / 2 else 0
/-- Tiles of one factor or root half. -/
def lF (l : List Byte) : Nat := triTiles (lSideL l) (lTl l) + triTiles (lSideR l) (lTr l)

/-! ## The record in memory -/

/-- `n` bytes of module memory as die `d` sees it, as a number; 0 where they cannot be read. -/
def mval (s : State) (d a n : Nat) : Nat :=
  match memRead s d a n with
  | .data bs => leVal bs
  | _ => 0

/-- A range can be read. -/
def readable (s : State) (d a n : Nat) : Bool :=
  match memRead s d a n with
  | .data _ => true
  | _ => false

/-- The die of a cluster. -/
def dieOf (cl : Nat) : Nat := cl / 64

/-- Field of `n` bytes at offset `o` of a block's record. -/
def recGet (s : State) (b : Blk) (o n : Nat) : Nat := mval s (dieOf b.cl) (b.addr + o) n

/-- Write a field of a block's record. -/
def recPut (b : Blk) (o n v : Nat) (s : State) : State := memStore (dieOf b.cl) (b.addr + o) (leBytes n v) s

/-- WGT_ADDR. -/
def wgtAddr (s : State) (b : Blk) : Nat := recGet s b 56 8 % 2 ^ 40
/-- ACC_ADDR. -/
def accAddr (s : State) (b : Blk) : Nat := recGet s b 64 8 % 2 ^ 40
/-- FAC_ADDR. -/
def facAddr (s : State) (b : Blk) : Nat := recGet s b 72 8 % 2 ^ 40
/-- ROOT_ADDR. -/
def rootAddr (s : State) (b : Blk) : Nat := recGet s b 80 8 % 2 ^ 40

/-- The address of a buffer by the KIND of R442: 1 weights, 2 and 3 factor halves, 4 and 5 root halves. -/
def bufAddr (s : State) (b : Blk) (kind : Nat) : Nat :=
  match kind with
  | 1 => wgtAddr s b
  | 2 => facAddr s b
  | 3 => facAddr s b + 16384 * lF b.lat
  | 4 => rootAddr s b
  | _ => rootAddr s b + 8192 * lF b.lat

/-- Bytes of a tile of a buffer. -/
def tileBytes (kind : Nat) : Nat := if kind = 1 then 12288 else if kind < 4 then 16384 else 8192

/-- Tiles of a buffer. -/
def bufTiles (b : Blk) (kind : Nat) : Nat := if kind = 1 then lTiles b.lat else lF b.lat

/-- A module address that a cluster or hub may not name: misaligned or beyond module memory (R203). -/
def badAddr (a align size : Nat) : Bool := a % align != 0 || decide (2 ^ 40 ≤ a) || decide (2 ^ 40 < a + size)

/-! ## Matrices -/

/-- Cut a list into runs of `n`; `k` runs at most. -/
def chunks {α : Type} (n : Nat) : Nat → List α → List (List α)
  | 0, _ => []
  | k + 1, l => if l.isEmpty then [] else l.take n :: chunks n k (l.drop n)

/-- The words of `n` bytes in a run of bytes. -/
def wordsOf (n : Nat) (bs : List Byte) : List Nat := (chunks n bs.length bs).map leVal

/-- A matrix, row by row. -/
abbrev Mat : Type := List (List FV)

/-- Element of a matrix; +0 outside it. -/
def Mat.at (M : Mat) (i j : Nat) : FV := (M.getD i []).getD j fv0

/-- Rows and columns exchanged; `c` columns. -/
def Mat.flip (M : Mat) (c : Nat) : Mat := (List.range c).map fun j => M.map fun r => r.getD j fv0

/-- A tile of a format as a matrix. -/
def tileMat (f : Fmt) (n : Nat) (bs : List Byte) : Mat := chunks 64 64 ((wordsOf n bs).map f.dec)

/-- Tiles side by side. -/
def bandRows (band : List Mat) : Mat := (List.range 64).map fun r => band.flatMap fun t => t.getD r []

/-- The matrix of `tr` tile columns that tiles in ascending index form (R142). -/
def matOfTiles (tl tr : Nat) (tiles : List Mat) : Mat := (chunks tr tl tiles).flatMap bandRows

/-- Tile (i, j) of a matrix. -/
def tileOf (M : Mat) (i j : Nat) : Mat := (List.range 64).map fun r => ((M.getD (64 * i + r) []).drop (64 * j)).take 64

/-- The tiles of a matrix in ascending index. -/
def tilesOfMat (tl tr : Nat) (M : Mat) : List Mat := (List.range (tl * tr)).map fun t => tileOf M (t / tr) (t % tr)

/-- Index of tile (p, q), p ≤ q, in a triangle of `n` tiles (R201). -/
def triIdx (n p q : Nat) : Nat := p * n - p * (p - 1) / 2 + (q - p)

/-- The symmetric matrix of a triangle of `n` tile rows (R201). -/
def matOfTri (n : Nat) (tiles : List Mat) : Mat :=
  (List.range n).flatMap fun p => bandRows ((List.range n).map fun q =>
    if p ≤ q then tiles.getD (triIdx n p q) [] else Mat.flip (tiles.getD (triIdx n q p) []) 64)

/-- The tiles (p, q), p ≤ q, in ascending order. -/
def triPairs (n : Nat) : List (Nat × Nat) :=
  (List.range n).flatMap fun p => (List.range (n - p)).map fun k => (p, p + k)

/-- The triangle of a symmetric matrix. -/
def triOfMat (n : Nat) (M : Mat) : List Mat := (triPairs n).map fun e => tileOf M e.1 e.2

/-- The bytes of a tile. -/
def tileBs (f : Fmt) (n : Nat) (t : Mat) : List Byte := t.flatMap fun r => r.flatMap fun v => leBytes n (f.enc v)

/-- Every element of a matrix is finite. -/
def Mat.finite (M : Mat) : Bool := M.all fun r => r.all (·.isFin)

/-- ⌊log₂⌋ of the largest finite magnitude of a matrix. -/
def Mat.top (M : Mat) : Option Int := maxTop (M.map fun r => (FV.fin false 1 <$> maxTop r).getD fv0)

/-- Read tiles `k` to `k + n - 1` of an array of tiles of `tb` bytes; on failure, the tile and whether it was
uncorrectable (R313) rather than outside the map. -/
def loadTiles (d cls base tb : Nat) : Nat → Nat → State → Except (Nat × Bool) (List (List Byte)) × State
  | _, 0, s => (.ok [], s)
  | k, n + 1, s =>
    match engRead d cls (base + tb * k) tb s with
    | (.data bs, s) =>
      match loadTiles d cls base tb (k + 1) n s with
      | (.ok r, s) => (.ok (bs :: r), s)
      | (.error e, s) => (.error e, s)
    | (.uncorr, s) => (.error (k, true), s)
    | (.fault _, s) => (.error (k, false), s)

/-- Write tiles one after another. -/
def storeTiles (d base tb : Nat) : Nat → List (List Byte) → State → State
  | _, [], s => s
  | k, t :: r, s => storeTiles d base tb (k + 1) r (memStore d (base + tb * k) t s)

/-- A matrix whose tiles have been converted to BF16 by a fresh scaled conversion: the values that the tiles stand for, and
the exponent of each tile (R65, R150). -/
structure Scaled where
  m : Mat
  tc : Nat
  exps : List Int

/-- Fresh exponent of a BF16 tile (R150). -/
def bfExp (t : Mat) : Int :=
  match Mat.top t with
  | none => -128
  | some x => max (-127) x

/-- Convert the tiles of a matrix. -/
def scaledOf (tl tr : Nat) (M : Mat) : Scaled :=
  let ts := (tilesOfMat tl tr M).map fun t => (t, bfExp t)
  { m := matOfTiles tl tr (ts.map fun e => e.1.map fun r => r.map fun v =>
      (fmtBF16.dec (fmtBF16.enc (v.scale (-e.2)))).scale e.2), tc := tr, exps := ts.map (·.2) }

/-- A matrix of unscaled operands. -/
def plainOf (tl tr : Nat) (M : Mat) : Scaled := { m := M, tc := tr, exps := List.replicate (tl * tr) 0 }

/-- Exponent of tile (i, j). -/
def Scaled.exp (x : Scaled) (i j : Nat) : Int := x.exps.getD (i * x.tc + j) 0

/-- Transposed. -/
def Scaled.flip (x : Scaled) (tl : Nat) : Scaled :=
  { m := Mat.flip x.m (64 * x.tc), tc := tl,
    exps := (List.range (x.tc * tl)).map fun t => x.exp (t % tl) (t / tl) }

/-- The operands of output tile (i, j) of A · B with K = 64 × `kt`. -/
def prodOps (a b : Scaled) (kt i j : Nat) : TileOps :=
  { l := fun m k => Mat.at a.m (64 * i + m) k, r := fun k n => Mat.at b.m k (64 * j + n), len := 64 * kt,
    qmin := smallestQ fmtBF16 fmtBF16 ((List.range kt).map fun k => (a.exp i k, b.exp k j)) }

/-- The operands of the output tiles of A · B, `tl` by `tr` tiles with K = 64 × `kt`, in ascending tile index. -/
def prodTiles (tl kt tr : Nat) (a b : Scaled) : List TileOps :=
  (List.range (tl * tr)).map fun t => prodOps a b kt (t / tr) (t % tr)

/-- The FP32 words of an output tile, from BF16 or FP32 operands (R84). -/
def prodWords (fp32 : Bool) (o : TileOps) : List Nat := if fp32 then formTile32 o else (formTile o).work

/-- The product A · B of `tl` by `kt` and `kt` by `tr` tiles in FP32, in BF16 or FP32 operands (R65, R84). -/
def prodMat (fp32 : Bool) (tl kt tr : Nat) (a b : Scaled) : Mat :=
  matOfTiles tl tr ((prodTiles tl kt tr a b).map fun o => chunks 64 64 ((tileWords (prodWords fp32 o)).map val32))

/-! ## Block directories and tables (R202, R203) -/

/-- A record of a table, with its cluster and address. -/
structure TabRec where
  cl : Nat
  addr : Nat
  bytes : List Byte

/-- A directory entry that R203 refuses. -/
def dirBad (e : List Byte) : Bool :=
  badAddr (pay e 0 8) 128 (128 * bits (pay e 8 4) 0 20) || bits (pay e 8 4) 20 12 != 0 || pay e 12 4 != 0

/-- The records of cluster `cl` in the bytes of its table. -/
def tableRecs (cl base : Nat) (bs : List Byte) : List TabRec :=
  (chunks 128 bs.length bs).zipIdx.map fun e => { cl := cl, addr := base + 128 * e.2, bytes := e.1 }

/-- A must-be-0 byte or bit of R196 is set. -/
def recZeroBad (r : List Byte) : Bool :=
  pay r 7 1 != 0 || bits (pay r 16 1) 5 3 != 0 || bits (pay r 18 1) 5 3 != 0 || bits (pay r 19 1) 5 3 != 0 ||
    bits (pay r 20 1) 4 4 != 0 || pay r 21 3 != 0 || bits (pay r 36 1) 3 5 != 0 || pay r 37 3 != 0 ||
    bits (pay r 48 1) 1 7 != 0 || pay r 49 7 != 0 || bits (pay r 88 1) 4 4 != 0 || bits (pay r 89 1) 6 2 != 0 ||
    pay r 112 16 != 0

/-- Sizes and sides that R203 refuses. -/
def recSizeBad (r : List Byte) : Bool :=
  decide (4 < lRb r) || decide (4 < lCb r) || lRows r == 0 || lCols r == 0 ||
    decide (256 * 2 ^ lRb r < lRows r) || decide (256 * 2 ^ lCb r < lCols r) ||
    (lSideL r && lBrow r == 0 && decide (lRows r < 64)) || (lSideR r && lBcol r == 0 && decide (lCols r < 64))

/-- Buffer addresses that R203 refuses. -/
def recAddrBad (r : List Byte) : Bool :=
  badAddr (pay r 56 8) 4096 (12292 * lTiles r) || badAddr (pay r 64 8) 4096 (16384 * lTiles r) ||
    badAddr (pay r 72 8) 4096 (32768 * lF r) || badAddr (pay r 80 8) 4096 (16384 * lF r)

/-- BT_ERR.CODE of the first check of R203 that a record breaks; 0 for none. `before` is the GBI of the record before it,
`others` the GBIs of other tables and `pos` the board position of the owner. -/
def recCode (pos : Nat) (before : Option Nat) (others : List Nat) (r : List Byte) : Nat :=
  if (match before with | some g => decide (lGbi r ≤ g) | none => false) || others.contains (lGbi r) then 1
  else if lGbi r % 8 ≠ pos then 2
  else if recSizeBad r then 3
  else if 16 < lDecayL r ∨ 16 < lDecayR r then 5
  else if recAddrBad r then 4
  else if recZeroBad r then 6
  else 0

/-- The first fault of a table: code and record index. -/
def tableFault (pos : Nat) (others : List Nat) : Option Nat → Nat → List TabRec → Option (Nat × Nat)
  | _, _, [] => none
  | before, i, r :: rs =>
    if recCode pos before others r.bytes ≠ 0 then some (recCode pos before others r.bytes, i)
    else tableFault pos others (some (lGbi r.bytes)) (i + 1) rs

/-- BT_ERR takes the first fault after its last clearing (R219). -/
def btErr (cl code i : Nat) (s : State) : State :=
  let s := setEvt CLUSTER_EV_BT_INVALID cl s
  if getF s CLUSTER_BT_ERR_CODE cl = 0 then setF CLUSTER_BT_ERR_CODE cl code (setF CLUSTER_BT_ERR_RECORD cl i s) else s

/-- What reading the directory gave: of each cluster that has a table, whether its directory entry is faulty, and its records. -/
abbrev Tables : Type := List (Nat × Bool × List TabRec)

/-- A directory entry names records that can be read: some, and within module memory. -/
def dirReads (e : List Byte) : Bool :=
  let n := 128 * bits (pay e 8 4) 0 20
  n != 0 && decide (pay e 0 8 + n ≤ 2 ^ 40)

/-- Read the tables of clusters `cl` onwards from the rest of the directory; none on a read failure (R202). -/
def readTables : Nat → List (List Byte) → State → Except Bool Tables × State
  | _, [], s => (.ok [], s)
  | cl, e :: es, s =>
    if !dirReads e then
      if dirBad e then
        match readTables (cl + 1) es s with
        | (.ok r, s) => (.ok ((cl, true, []) :: r), s)
        | x => x
      else readTables (cl + 1) es s
    else match engRead (dieOf cl) 0 (pay e 0 8) (128 * bits (pay e 8 4) 0 20) s with
      | (.data bs, s) =>
        match readTables (cl + 1) es s with
        | (.ok r, s) => (.ok ((cl, dirBad e, tableRecs cl (pay e 0 8) bs) :: r), s)
        | x => x
      | (.uncorr, s) => (.error true, s)
      | (.fault _, s) => (.error false, s)

/-- GBIs of the tables of other clusters. -/
def otherGbis (ts : Tables) (cl : Nat) : List Nat :=
  ts.flatMap fun e => if e.1 = cl then [] else e.2.2.map fun r => lGbi r.bytes

/-- The first fault of a cluster's table: its records first, then its directory entry (R203). -/
def clusterFault (pos : Nat) (others : List Nat) (bad : Bool) (t : List TabRec) : Option (Nat × Nat) :=
  match tableFault pos others none 0 t with
  | some e => some e
  | none => if bad then some (7, 0) else none

/-- Check every table; a faulty one is recorded in its cluster's page. -/
def checkTables (pos : Nat) (all : Tables) : Tables → State → Bool × State
  | [], s => (true, s)
  | (cl, bad, t) :: r, s =>
    match clusterFault pos (otherGbis all cl) bad t with
    | some e =>
      let x := checkTables pos all r (btErr cl e.1 e.2 s)
      (false, x.2)
    | none => checkTables pos all r s

/-- The blocks of valid tables, latched (R197). -/
def latchBlocks (ts : Tables) : List Blk :=
  ts.flatMap fun e => e.2.2.map fun r =>
    { gbi := lGbi r.bytes, cl := r.cl, addr := r.addr, lat := r.bytes.take 24 }

/-! ## Steps and their blocks -/

/-- LOSS_EXP of a step record. -/
def srLossExp (r : List Byte) : Int := signedOf 8 (pay r 4 1)
/-- MB_COUNT. -/
def srMbCount (r : List Byte) : Nat := bits (pay r 4 4) 8 12
/-- LR, an FP32 word. -/
def srLr (r : List Byte) : Nat := pay r 12 4

/-- An open step of a context. -/
def stepOf (s : State) (c n : Nat) : Option Step := (ctxOf s c).steps.find? fun x => x.step == n

/-- Step `n` of a context, open or with collective descriptors still to run. -/
def collStep (s : State) (c n : Nat) : Option Step :=
  match stepOf s c n with
  | some st => some st
  | none => (ctxOf s c).past.find? fun x => x.step == n

/-- Change an open step. -/
def modStep (c n : Nat) (f : Step → Step) (s : State) : State :=
  modCtx c (fun x => { x with steps := x.steps.map fun y => if y.step = n then f y else y }) s

/-- A block of an open step. -/
def blkOf (s : State) (c n g : Nat) : Option (Step × Blk) :=
  match stepOf s c n with
  | some st => (st.blks.find? fun b => b.gbi == g).map fun b => (st, b)
  | none => none

/-- Change a block of an open step. -/
def modBlk (c n g : Nat) (f : Blk → Blk) (s : State) : State :=
  modStep c n (fun x => { x with blks := x.blks.map fun b => if b.gbi = g then f b else b }) s

/-- K of a step for a block's region (R225, R226). -/
def stepK (st : Step) (cl : Nat) : Nat := max 1 (st.ks.getD (cl / 8) 128)

/-- The step is a due step of a block (R226). -/
def isDue (st : Step) (b : Blk) : Bool := (st.step + b.gbi) % stepK st b.cl == 0

/-- The block has finished its owner work in a step, or was discarded. -/
def blkDone (b : Blk) : Bool := decide (5 ≤ b.ph)

end Sys2Proof.Machine
end

