-- ==== Sys2Proof/Machine/Convert.lean ====
section
/-! DEFINITION. Scaled conversions and Spillway groups of a cluster's lists (R149 to R170). -/

namespace Sys2Proof.Machine

/-! ## The conversion descriptor (R158, R160) -/

/-- FMT_SRC. -/
def cSrcFmt (d : List Byte) : Nat := bits (dw d 0) 8 4
/-- FMT_DST. -/
def cDstFmt (d : List Byte) : Nat := bits (dw d 0) 12 4
/-- DELAYED. -/
def cDelayed (d : List Byte) : Bool := bit (dw d 0) 16
/-- FLAG_EN. -/
def cFlagEn (d : List Byte) : Bool := bit (dw d 0) 17
/-- Tile rows. -/
def cRows (d : List Byte) : Nat := bits (dw d 1) 0 10 + 1
/-- Tile columns. -/
def cCols (d : List Byte) : Nat := bits (dw d 1) 10 10 + 1
/-- FLAG. -/
def cFlag (d : List Byte) : Nat := bits (dw d 1) 20 12
/-- SRC_ADDR. -/
def cSrc (d : List Byte) : Nat := bits (dw d 2) 0 23
/-- DST_ADDR. -/
def cDst (d : List Byte) : Nat := bits (dw d 3) 0 23
/-- SRC_STRIDE in bytes. -/
def cSrcStride (d : List Byte) : Nat := bits (dw d 4) 0 16 * 64
/-- DST_STRIDE in bytes. -/
def cDstStride (d : List Byte) : Nat := bits (dw d 4) 16 16 * 64
/-- SCALE_ADDR. -/
def cScale (d : List Byte) : Nat := bits (dw d 5) 0 23
/-- HIST_ADDR. -/
def cHist (d : List Byte) : Nat := bits (dw d 6) 0 23
/-- TENSOR. -/
def cTensor (d : List Byte) : Nat := bits (dw d 7) 0 24

/-- Tiles of a conversion. -/
def cTiles (d : List Byte) : Nat := cRows d * cCols d

/-- Source and destination areas, as `mAreas` lists them. -/
def cAreas (d : List Byte) : List (Nat × Nat × Nat × Nat) :=
  [(cSrc d, cSrcStride d, cRows d * 64, cCols d * 64 * fmtBytes (cSrcFmt d)),
   (cDst d, cDstStride d, cRows d * 64, cCols d * 64 * fmtBytes (cDstFmt d))]

/-- A table of one byte per tile lies where it may. -/
def cTabOk (d : List Byte) (a : Nat) : Bool := a % 64 == 0 && decide (a + pad64 (cTiles d) ≤ sramTop)

/-- Every must-be-0 bit of R158 is 0. -/
def cZeroOk (d : List Byte) : Bool :=
  bits (dw d 0) 18 14 == 0 && bits (dw d 2) 23 9 == 0 && bits (dw d 3) 23 9 == 0 && bits (dw d 5) 23 9 == 0 &&
    bits (dw d 6) 23 9 == 0 && bits (dw d 7) 24 8 == 0

/-- CVT_ERR.CODE of the first case of R160; 0 for a valid descriptor. -/
def cvtCode (d : List Byte) : Nat :=
  if dop d ≠ 0x31 then 1
  else if !(cSrcFmt d == 3 || cSrcFmt d == 4 || cSrcFmt d == 5) || decide (4 < cDstFmt d) then 2
  else if !(cAreas d).all areaOk || !cTabOk d (cScale d) || (cDelayed d && !cTabOk d (cHist d)) then 4
  else if !(cAreas d).all strideOk then 5
  else if cDelayed d && cDstFmt d == 4 then 2
  else if !cZeroOk d then 6
  else 0

/-- An invalid conversion or GROUP descriptor halts its list (R160, R162). -/
def cvtHalt (cl lid code : Nat) (s : State) : State :=
  haltList cl lid (setEvt CLUSTER_EV_CVT_INVALID cl (setF CLUSTER_CVT_ERR_CODE cl code s))

/-! ## Tiles (R149 to R157) -/

/-- The position T of a target format (R149). -/
def posT : Nat → Int
  | 0 => 7
  | 2 => 0
  | _ => 14

/-- Rows of a tile of an array, as stored words. -/
def tileRaw (s : State) (cl base stride n tr tc : Nat) : List Nat :=
  (List.range 4096).map fun i => elemAt s cl base stride n (tr * 64 + i / 64) (tc * 64 + i % 64)

/-- Write a tile of words into an array, row by row. -/
def tilePut (cl base stride n tr tc : Nat) (ws : List Nat) : Nat → State → State
  | 0, s => s
  | m + 1, s =>
    sramWrite cl (base + (tr * 64 + m) * stride + tc * 64 * n) (((ws.drop (64 * m)).take 64).flatMap (leBytes n))
      (tilePut cl base stride n tr tc ws m s)

/-- The fresh exponent of a tile whose largest finite magnitude has ⌊log₂⌋ `top` (R150). -/
def freshExp (T : Int) (top : Option Int) : Int :=
  match top with
  | none => -128
  | some x => max (-127) (x - T)

/-- R153: a delayed tile lies outside its window. -/
def outsideWindow (T h : Int) (top : Option Int) : Bool :=
  match top with
  | none => false
  | some x => decide (x - h < T - 16 ∨ T < x - h)

/-- The history exponent after a tile (R154). -/
def nextHist (T : Int) (top : Option Int) : Option Int := top.map fun x => clampI (-127) 127 (x - T + 8)

/-- A scale decision of replay differed (R157). -/
def scaleDiverge (cl : Nat) (s : State) : State := replayDiv cl (incr CLUSTER_SCALE_DIVERGE cl s)

/-- The journal lists a recompute of the tile (R157). -/
def scaleBooked (s : State) (c step tensor t : Nat) : Bool :=
  (rplFind s c 0x11 fun p => pay p 0 4 == step && pay p 4 3 == tensor && pay p 8 3 % 1048576 == t).isSome

/-- The exponent of a scaled tile, with the record, counters and events of its decision (R150 to R157). DESIGN CHOICE (log entry 107): the
descriptor's DELAYED bit holds in a rung list too, though R165 calls its conversions fresh. -/
def tileExp (cl : Nat) (l : ListRun) (d : List Byte) (t : Nat) (top : Option Int) (s : State) : Int × State :=
  let T := posT (cDstFmt d)
  let ef := freshExp T top
  if !cDelayed d then (ef, s)
  else
    let h := sbyte (sramVal s cl (cHist d + t) 1)
    let rp := replayOn s l.ctx
    let booked := scaleBooked s l.ctx l.pos.step (cTensor d) t
    if h = -128 then (ef, if rp && booked then scaleDiverge cl s else s)
    else
      let out := outsideWindow T h top
      let s := if rp && booked != out then scaleDiverge cl s else s
      if (if rp then booked else out) then
        (ef, setEvt CLUSTER_EV_SCALE_RECOMP cl (incr CLUSTER_SCALE_RECOMP cl (jrnCtx l.ctx 0x11 (srcCluster cl)
          (leBytes 4 l.pos.step ++ leBytes 3 (cTensor d) ++ leBytes 1 0 ++ leBytes 3 t ++ leBytes 1 (twos 8 h)
            ++ leBytes 1 (twos 8 ef) ++ leBytes 3 0) s)))
      else (h, s)

/-- Convert tile `t`. DESIGN CHOICE (log entry 107): a NaN that is not canonical converts to the canonical NaN, from W24 to FP32 too; CVT_TILES
counts a tile once, however often it is written, and counts descriptors' tiles only. -/
def cvtTile (cl : Nat) (l : ListRun) (d : List Byte) (t : Nat) (s : State) : State :=
  let tr := t / cCols d
  let tc := t % cCols d
  let raw := tileRaw s cl (cSrc d) (cSrcStride d) (fmtBytes (cSrcFmt d)) tr tc
  let put := tilePut cl (cDst d) (cDstStride d) (fmtBytes (cDstFmt d)) tr tc
  let src := fmtOf (cSrcFmt d)
  let dst := fmtOf (cDstFmt d)
  if cDstFmt d = 4 then
    sramWrite cl (cScale d + t) [0] (put (if cSrcFmt d = 4 then raw else raw.map fun w => dst.enc (src.dec w)) 64 s)
  else
    let vals := raw.map src.dec
    let top := maxTop vals
    let e := tileExp cl l d t top s
    let s := put (vals.map fun v => dst.enc (v.scale (-e.1))) 64 e.2
    let s := sramWrite cl (cScale d + t) (leBytes 1 (twos 8 e.1)) (incr CLUSTER_CVT_TILES cl s)
    match (if cDelayed d then nextHist (posT (cDstFmt d)) top else none) with
    | some h => sramWrite cl (cHist d + t) (leBytes 1 (twos 8 h)) s
    | none => s

/-- Convert tiles 0 to n − 1 in ascending order. -/
def cvtTiles (cl : Nat) (l : ListRun) (d : List Byte) : Nat → State → State
  | 0, s => s
  | n + 1, s => cvtTile cl l d n (cvtTiles cl l d n s)

/-- A valid conversion runs: its tiles, the padding of its exponent table, and its flag. -/
def convert (cl : Nat) (l : ListRun) (d : List Byte) (s : State) : State :=
  let n := cTiles d
  let s := sramWrite cl (cScale d + n) (List.replicate (pad64 n - n) 0) (cvtTiles cl l d n s)
  if cFlagEn d then signalFlag cl l.ctx (cFlag d) s else s

/-- CONVERSION_DESCRIPTOR: the DMA engine of cluster `cl` executes the descriptor in the hand of list `lid`. -/
def conversionDescriptor (cl lid : Nat) (s : State) : State :=
  match descInHand s cl lid 3 with
  | none => s
  | some (l, d) =>
    if cvtCode d ≠ 0 then cvtHalt cl lid (cvtCode d) s else descTaken cl lid (convert cl l d s)

/-- CONVERSION_DESCRIPTOR. -/
def execConversionDescriptor (cl lid : Nat) (s : State) : Host.Outcome State Fault Refusal :=
  .next (runningIn (32 + cl / 8) s (conversionDescriptor cl lid s))

/-! ## Groups (R161 to R170) -/

/-- GROUP. -/
def gGroup (d : List Byte) : Nat := bits (dw d 0) 8 24
/-- STEP. -/
def gStep (d : List Byte) : Nat := dw d 1
/-- SCOPE. -/
def gScope (d : List Byte) : Bool := bit (dw d 2) 0
/-- BARRIER. -/
def gBarrier (d : List Byte) : Nat := bits (dw d 2) 8 8
/-- RUNG1_LIST. -/
def gRung1 (d : List Byte) : Nat := bits (dw d 3) 0 23
/-- RUNG2_LIST. -/
def gRung2 (d : List Byte) : Nat := bits (dw d 4) 0 23
/-- OUT_SCALE. -/
def gOutScale (d : List Byte) : Nat := bits (dw d 5) 0 23

/-- An address of a GROUP descriptor is where it may be. -/
def gAddrOk (a : Nat) : Bool := a % 64 == 0 && decide (a < sramTop)

/-- CVT_ERR.CODE of an invalid GROUP descriptor (R162). -/
def groupCode (d : List Byte) : Nat :=
  if dop d ≠ 0x71 then 1
  else if bits (dw d 2) 1 7 ≠ 0 ∨ bits (dw d 2) 16 16 ≠ 0 ∨ bits (dw d 3) 23 9 ≠ 0 ∨ bits (dw d 4) 23 9 ≠ 0
      ∨ bits (dw d 5) 23 9 ≠ 0 ∨ dw d 6 ≠ 0 ∨ dw d 7 ≠ 0 then 6
  else if !gAddrOk (gRung1 d) || !gAddrOk (gRung2 d) || !gAddrOk (gOutScale d) then 4
  else 0

/-- The list address of a rung after rung 0; 0 when the group does not have it. -/
def rungAddr (g : Grp) (r : Nat) : Nat := if r = 1 then g.rung1 else if r = 2 then g.rung2 else 0

/-- Start a rung's list. -/
def startRung (cl lid : Nat) (g : Grp) (r : Nat) (s : State) : State :=
  modList cl lid (fun l => { l with
    st := .run, gated := [], desc := none, pos := { addr := rungAddr g r },
    grp := some { g with rung := r, out := 0, spilled := false, arrived := false, outs := [] } }) s

/-- Where a list stands after the rung 0 ARRIVE that closes a group, looking from `p` on through at most `n` descriptors and
headers. -/
def afterClose (s : State) (cl : Nat) (g : Grp) : Nat → ListPos → ListPos
  | 0, p => p
  | n + 1, p =>
    if p.hdr then
      afterClose s cl g n { addr := p.addr, hdr := false, step := sramVal s cl p.addr 4, count := sramVal s cl (p.addr + 4) 4,
                            idx := 0, next := sramVal s cl (p.addr + 8) 8 }
    else if p.idx < p.count then
      let q := { p with idx := p.idx + 1 }
      if closesGroup g (sramRead s cl (p.addr + 64 + 32 * p.idx) 32) then q else afterClose s cl g n q
    else if p.next = 0 then p
    else afterClose s cl g n { addr := p.next }

/-- The SPILLWAY record of a group in the journal that is replayed. -/
def spillBooked (s : State) (c step group : Nat) : Option Nat :=
  (rplFind s c 0x12 fun p => pay p 0 4 == step && pay p 4 3 == group).map fun p => pay p 7 1 % 4

/-- The highest rung of a group that is at most `r`. -/
def rungAtMost (g : Grp) (r : Nat) : Nat :=
  if 2 ≤ r ∧ g.rung2 ≠ 0 then 2 else if 1 ≤ r ∧ g.rung1 ≠ 0 then 1 else 0

/-- The rung that replay starts a group at: the recorded one, or the highest that the group has (R170). -/
def replayRung (g : Grp) (r : Nat) : Nat := if rungAddr g r ≠ 0 then r else rungAtMost g 2

/-- Open a group in a list; in replay it starts at the recorded rung (R161, R170). -/
def openGroup (cl lid : Nat) (l : ListRun) (d : List Byte) (s : State) : State :=
  let booked := if replayOn s l.ctx then spillBooked s l.ctx (gStep d) (gGroup d) else none
  let g : Grp := { group := gGroup d, step := gStep d, scope := gScope d, barrier := gBarrier d, rung1 := gRung1 d,
                   rung2 := gRung2 d }
  let s := modCluster cl (fun c => { c with grps := c.grps ++ [(l.ctx, gStep d, gGroup d, false)] }) s
  let s := modList cl lid (fun l => { l with desc := none, grp := some g }) s
  match booked with
  | none => s
  | some r =>
    let r' := replayRung g r
    let s := if r' = r then s else replayDiv cl s
    if r' = 0 then s
    else startRung cl lid { g with back := some (afterClose s cl g 262144 l.pos) } r' s

/-- GROUP: the list opens a Spillway group (R161, R162). -/
def groupOpen (cl lid : Nat) (s : State) : State :=
  match descInHand s cl lid 7 with
  | none => s
  | some (l, d) => if groupCode d ≠ 0 then cvtHalt cl lid (groupCode d) s else openGroup cl lid l d s

/-- GROUP. -/
def execGroup (cl lid : Nat) (s : State) : Host.Outcome State Fault Refusal := .next (runningIn (32 + cl / 8) s (groupOpen cl lid s))

/-! ## Releases (R162 to R170, R358, R362, R364) -/

/-- A cluster's entry of a group. -/
def grpEntry (c step group : Nat) (e : Nat × Nat × Nat × Bool) : Bool :=
  e.1 == c && e.2.1 == step && e.2.2.1 == group

/-- The clusters that hold the header of a group. -/
def grpHolders (s : State) (c step group : Nat) : List Nat :=
  (s.clusters.filter fun e => e.2.grps.any (grpEntry c step group)).map (·.1)

/-- Every holder has completed the group. -/
def grpAllDone (s : State) (c step group : Nat) : Bool :=
  s.clusters.all fun e => e.2.grps.all fun x => !grpEntry c step group x || x.2.2.2

/-- Forget a group in clusters `n` − 1 to 0. -/
def grpForget (c step group : Nat) : List Nat → State → State
  | [], s => s
  | cl :: r, s =>
    grpForget c step group r (modCluster cl (fun x => { x with grps := x.grps.filter fun e => !grpEntry c step group e }) s)

/-- What a group that has left rung 0 leaves behind in a cluster, and its record from the lowest cluster (R168). -/
def leftRung0 (cl c : Nat) (g : Grp) (exh : Bool) (s : State) : State :=
  let x := if exh then 1 else 0
  let s := setF CLUSTER_SPILL_LAST_GROUP cl g.group (setF CLUSTER_SPILL_LAST_RUNG cl g.rung
    (setF CLUSTER_SPILL_LAST_EXH cl x (setEvt CLUSTER_EV_SPILL cl (incr CLUSTER_SPILL_GROUPS cl s))))
  if (grpHolders s c g.step g.group).head? = some cl then
    jrnCtx c 0x12 (srcCluster cl) (leBytes 4 g.step ++ leBytes 3 g.group ++ leBytes 1 (g.rung + 4 * x)) s
  else s

/-- A group is complete, or exhausted, at a cluster: the list goes on behind the rung 0 ARRIVE (R162, R167 to R169). -/
def closeGroup (cl : Nat) (l : ListRun) (g : Grp) (exh : Bool) (s : State) : State :=
  let s := if exh then setEvt CLUSTER_EV_SPILL_EXH cl (incr CLUSTER_SPILL_EXH cl s) else s
  let s := settleOuts l.ctx g.outs s
  let s := if g.rung = 0 then s else leftRung0 cl l.ctx g exh s
  let s := modCluster cl (fun x => { x with
    grps := x.grps.map fun e => if grpEntry l.ctx g.step g.group e then (e.1, e.2.1, e.2.2.1, true) else e }) s
  let s := if grpAllDone s l.ctx g.step g.group then
      grpForget l.ctx g.step g.group (grpHolders s l.ctx g.step g.group) s else s
  endList cl l.id (modList cl l.id (fun x => { x with
    st := .run, gated := [], grp := none, pos := g.back.getD x.pos }) s)

/-- A release of the barrier that closes a group: marked, the next rung runs or the group is exhausted; unmarked, the group is
complete (R162, R163, R167, R170). -/
def groupRelease (cl : Nat) (l : ListRun) (g : Grp) (marked : Bool) (s : State) : State :=
  let g := { g with back := if g.rung = 0 then some l.pos else g.back }
  if !marked then closeGroup cl l g false s
  else
    let s := if replayOn s l.ctx && rungAddr g (g.rung + 1) != 0 then replayDiv cl s else s
    if rungAddr g (g.rung + 1) = 0 then closeGroup cl l g true s else startRung cl l.id g (g.rung + 1) s

/-- A release reaches the sync node of a cluster: its list goes on, or halts on STALE or ABANDONED (R358, R362, R364). -/
def clusterRelease (cl lid : Nat) (st : RelStatus) (s : State) : State :=
  match listOf s cl lid with
  | none => s
  | some l =>
    if l.st ≠ .waiting then s
    else match st with
      | .stale => syncHalt cl lid 6 s
      | .abandoned => haltList cl lid s
      | _ =>
        match l.grp.filter (·.arrived) with
        | some g => groupRelease cl l g (st == .marked) s
        | none => endList cl lid (modList cl lid (fun x => { x with st := .run, gated := [] }) s)

end Sys2Proof.Machine
end

