-- ==== Sys2Proof/Machine/Links.lean ====
section
/-! DEFINITION. Hegen links: frames, credit, acknowledgement and retry, training and identity, streams, death and detours
(R372 to R403, R670, R674). -/

namespace Sys2Proof.Machine

/-! ## Frames (R375 to R378) -/

/-- Words 0 to 6 of a frame. -/
def frameHead (f : Frame) : List Byte :=
  leBytes 4 (f.type % 16 + f.vc % 4 * 16 + f.payload.length / 32 * 64 + b2n f.rr * 2048 + f.budget % 32768 * 65536)
  ++ leBytes 4 (f.lseq % 65536 + f.ack % 65536 * 65536)
  ++ leBytes 4 (f.src % 4096 + f.dst % 4096 * 65536)
  ++ leBytes 4 (f.sseq % 65536 + f.cvc % 4 * 65536 + f.cred % 4096 * 262144)
  ++ leBytes 4 (f.ctx % 16 + f.engine % 16 * 16 + f.oport % 32 * 256)
  ++ leBytes 8 f.engHdr

/-- The bytes of a frame on the wire: header, CRC-32C over words 0 to 6 and the payload, payload (R376). -/
def frameBytes (f : Frame) : List Byte :=
  frameHead f ++ leBytes 4 (crc32c (frameHead f ++ f.payload)) ++ f.payload

/-- Frame types of R377. -/
def frameTypeOk (t : Nat) : Bool := t == 1 || t == 2 || t == 3 || t == 8 || t == 9 || t == 0xA || t == 0xB

/-- Read a frame: none when its length is wrong, its CRC fails, its TYPE is unknown, a must-be-0 bit is set or OPORT is
above 23 (R378). -/
def parseFrame (bs : List Byte) : Option Frame :=
  let w := fun n => leVal ((bs.drop (4 * n)).take 4)
  let len := bits (w 0) 6 5
  let payload := bs.drop 32
  if bs.length ≠ 32 + 32 * len ∨ 16 < len ∨ bits (w 0) 12 4 ≠ 0 ∨ bits (w 0) 31 1 ≠ 0 ∨ bits (w 2) 12 4 ≠ 0
      ∨ bits (w 2) 28 4 ≠ 0 ∨ bits (w 3) 30 2 ≠ 0 ∨ bits (w 4) 13 19 ≠ 0 ∨ 23 < bits (w 4) 8 5
      ∨ !frameTypeOk (bits (w 0) 0 4) ∨ crc32c (bs.take 28 ++ payload) ≠ w 7 then none
  else some {
    type := bits (w 0) 0 4, vc := bits (w 0) 4 2, rr := bit (w 0) 11, budget := bits (w 0) 16 15,
    lseq := bits (w 1) 0 16, ack := bits (w 1) 16 16, src := bits (w 2) 0 12, dst := bits (w 2) 16 12,
    sseq := bits (w 3) 0 16, cvc := bits (w 3) 16 2, cred := bits (w 3) 18 12, ctx := bits (w 4) 0 4,
    engine := bits (w 4) 4 4, oport := bits (w 4) 8 5, engHdr := leVal ((bs.drop 20).take 8), payload := payload }

/-- A frame takes an LSEQ and a credit (R377). -/
def sequenced (f : Frame) : Bool := f.type == 1 || f.type == 2 || f.type == 3

/-- `b` is ahead of `a` by serial-number arithmetic in a 2^15 window (R381). -/
def serialAhead (a b : Nat) : Bool := decide (0 < (b + 65536 - a % 65536) % 65536 ∧ (b + 65536 - a % 65536) % 65536 < 32768)

/-! ## Ports and peers (R372, R373) -/

/-- The module's own number, board × 8 + position (R376, R403). -/
def selfId (s : State) : Nat := getF s LINK_SELF_BOARD 0 * 8 + s.strapPos % 8

/-- A port is UP (R384). -/
def portUp (s : State) (p : Nat) : Bool := getF s LINK_STAT_STATE p == 5

/-- The role of a port is used (R373). -/
def portUsed (s : State) (p : Nat) : Bool := getF s LINK_TOPO_PEER_ROLE p != 0

/-- The module that a port's topology entry names. -/
def peerOf (s : State) (p : Nat) : Nat := getF s LINK_TOPO_PEER_BOARD p * 8 + getF s LINK_TOPO_PEER_POS p

/-- The used ports of a role that reach a module, in ascending order: its members (R372). -/
def membersTo (s : State) (role dst : Nat) : List Nat :=
  (List.range 24).filter fun p => portRole p == role && portUsed s p && peerOf s p == dst

/-- The lowest UP board-mesh port to position `k` of the own board. -/
def meshTo (s : State) (k : Nat) : Option Nat :=
  (List.range 14).find? fun p => portUp s p && portUsed s p && peerOf s p == getF s LINK_SELF_BOARD 0 * 8 + k

/-- The board peer at position `q` shows, by its STATE frames, an UP mesh port to position `k` (R372, R394). -/
def helperMesh (s : State) (p q k : Nat) : Bool :=
  let i := (k + 8 - q - 1) % 8
  (portOf s p).peerUp.testBit (2 * i) || (portOf s p).peerUp.testBit (2 * i + 1)

/-- The first helper position below `n` whose mesh port is UP here and that meets a need, with that port (R394). -/
def helper (s : State) (avoid : Nat) (need : Nat → Nat → Bool) (n : Nat) : Option Nat :=
  (List.range n).findSome? fun q =>
    if q = s.strapPos % 8 ∨ q = avoid then none
    else match meshTo s q with
      | some p => if need p q then some p else none
      | none => none

/-- The first UP port of a list. -/
def firstUp (s : State) (ps : List Nat) : Option Nat := ps.find? fun p => portUp s p

/-- The twin: the same position on board xor 1 (R38). -/
def twinId (s : State) : Nat := (getF s LINK_SELF_BOARD 0 ^^^ 1) * 8 + s.strapPos % 8

/-- The fallback route of the frames to `dst` of member `p`: port and virtual channel (R394). A frame that goes on from the member's
peer to another module takes one hop more, and takes only a fallback that meets the same peer at once (R379, R429). -/
def fallback (s : State) (p dst : Nat) : Option (Nat × Nat) :=
  let peer := peerOf s p
  let more := b2n (peer != dst)
  let others := (membersTo s (portRole p) peer).filter (· ≠ p)
  let far := fun (o : Option Nat) => if more = 0 then o.map fun x => (x, 2) else none
  match firstUp s others with
  | some o => some (o, more)
  | none =>
    match portRole p with
    | 1 => if more = 0 then (helper s (peer % 8) (fun m q => helperMesh s m q (peer % 8)) 8).map fun o => (o, 1) else none
    | 2 =>
      match firstUp s (membersTo s 3 peer ++ membersTo s 4 peer) with
      | some o => some (o, more)
      | none => far (helper s 8 (fun m _ => (portOf s m).peerUp.testBit 14) 8)
    | 5 => none
    | r =>
      match (if peer = twinId s then firstUp s (membersTo s 2 peer) else none) with
      | some o => some (o, more)
      | none => far (helper s 8 (fun m _ => (portOf s m).peerUp.testBit (if r = 3 then 16 else 19)) 8)

/-- Key of a stream: the far module, the context and the member's port (R390). -/
def streamKey (m c oport : Nat) : Nat := (m * 16 + c) * 32 + oport

/-- The sending end of a stream. -/
def txOf (s : State) (k : Nat) : TxStream := s.txStreams.get {} k

/-- Change the sending end of a stream. -/
def modTx (k : Nat) (f : TxStream → TxStream) (s : State) : State := { s with txStreams := s.txStreams.upd {} k f }

/-- The receiving end of a stream. -/
def rxOf (s : State) (k : Nat) : RxStream := s.rxStreams.get {} k

/-- Change the receiving end of a stream. -/
def modRx (k : Nat) (f : RxStream → RxStream) (s : State) : State := { s with rxStreams := s.rxStreams.upd {} k f }

/-- The role of the port by which a helper sends a frame on to the far board: that of OPORT, which for a MARK_ACK is the port of the
stream's sender and so faces the other way (R397). -/
def onwardRole (f : Frame) : Nat :=
  match portRole f.oport with
  | 3 => if f.type = 3 then 4 else 3
  | 4 => if f.type = 3 then 3 else 4
  | r => r

/-- The next port of a frame that this module forwards on VC `f.vc`: a board peer's mesh port, or, as a helper, Culvert
member 0 or pipeline member 0 to the far board (R379, R394). -/
def forwardPort (s : State) (f : Frame) : Option Nat :=
  if f.dst / 8 = getF s LINK_SELF_BOARD 0 then meshTo s (f.dst % 8)
  else
    match onwardRole f with
    | 1 => firstUp s ((List.range 24).filter fun p => 16 ≤ p && p < 22 && portUsed s p && peerOf s p == f.dst)
    | r =>
      let p := if r = 2 then 14 else if r = 3 then 16 else if r = 4 then 19 else 22
      if portUp s p then some p else none

/-- The route of a MARK_ACK to module `dst`: an UP port that reaches it, or else a fallback of one of its members (R397). -/
def ackRoute (s : State) (dst : Nat) : Option (Nat × Nat) :=
  let ms := (List.range 24).filter fun p => portUsed s p && peerOf s p == dst
  match firstUp s ms with
  | some p => some (p, 0)
  | none => ms.findSome? fun p => fallback s p dst

/-- A frame of a stream follows its MARK: its SSEQ is the MARK's or a later one (R397). -/
def afterMark (t : TxStream) (f : Frame) : Bool := f.sseq == t.markAt || serialAhead t.markAt f.sseq

/-- Where a waiting frame goes now: port and VC; none when it must wait (R394, R397). Frames of a stream that follow its MARK wait
while the MARK is out. A stream with no fallback goes by its own member once that is UP. -/
def frameRoute (s : State) (f : Frame) : Option (Nat × Nat) :=
  if f.src = selfId s then
    if f.type = 3 then ackRoute s f.dst
    else
      let t := txOf s (streamKey f.dst f.ctx f.oport)
      let own := if portUp s f.oport then some (f.oport, b2n (peerOf s f.oport != f.dst)) else none
      if f.type = 1 ∧ t.marking ∧ afterMark t f then none
      else if portUp s f.oport ∧ !t.detour then own
      else match fallback s f.oport f.dst with
        | some r => some r
        | none => own
  else (forwardPort s f).map fun p => (p, f.vc)

/-! ## Sending -/

/-- The UP ports of the module as a mask. -/
def upMask (s : State) : Nat := (List.range 24).foldl (fun a p => if portUp s p then a + 2 ^ p else a) 0

/-- An unsequenced frame of a type leaves a port; it carries the ACK and no budget (R376, R377, R381). -/
def sendUnseq (p type : Nat) (payload : List Byte) (s : State) : State :=
  let o := portOf s p
  let f : Frame := { type := type, vc := 3, ack := o.rxLast, src := selfId s, dst := peerOf s p, cvc := o.cvc,
                     cred := o.freed.getD o.cvc 0, engine := 0xF, payload := payload }
  emit (.frame p f) (modPort p (fun x => { x with ackSent := x.rxLast, cvc := (x.cvc + 1) % 3 }) s)

/-- A STATE frame on every UP mesh port among ports 0 to `n - 1` (R377, R392). -/
def sendStates (mask : Nat) : Nat → State → State
  | 0, s => s
  | n + 1, s =>
    let s := sendStates mask n s
    if portUp s n && n < 14 then sendUnseq n 0xB (leBytes 4 mask ++ zeros 28) s else s

/-- A sequenced frame leaves the port with the next LSEQ and stays in the retry buffer (R380 to R382). -/
def sendSeq (p : Nat) (f : Frame) (s : State) : State :=
  let o := portOf s p
  let g := { f with lseq := o.nextLseq, ack := o.rxLast, cvc := o.cvc, cred := o.freed.getD o.cvc 0 }
  let s := emit (.frame p g) (modPort p (fun x => { x with
    nextLseq := (x.nextLseq + 1) % 65536, retryBuf := x.retryBuf ++ [g], ackSent := x.rxLast, cvc := (x.cvc + 1) % 3,
    credit := x.credit.modify f.vc (· - 1) }) s)
  let s := if f.rr then incr LINK_DETOUR_FRAMES p s else s
  incr LINK_TX_FRAMES p s

/-- A frame may be granted: its VC has a credit and the retry buffer has room (R380, R382). -/
def frameReady (s : State) (p : Nat) (q : SlReq) : Bool :=
  match q.pay with
  | .frame f => decide (0 < (portOf s p).credit.getD f.vc 0) && decide ((portOf s p).retryBuf.length < portSlots p)
  | _ => false

/-- lclk that a frame occupies (R375); the Sluice counts its payload in beats of 64 bytes. -/
def frameBeats (f : Frame) : Nat := max 1 ((f.payload.length + 63) / 64)

/-- A port's Sluice grants its next frame, which is sent (R346, R380, R391). -/
def portSluiceGrant (p : Nat) (s : State) : State :=
  if portUp s p then
    match slNext s (512 + p) false (frameReady s p) with
    | none => s
    | some (r, fresh) =>
      match slServe (512 + p) r fresh (frameReady s p) s with
      | some (q, s) =>
        match q.pay with
        | .frame f => sendSeq p f s
        | _ => s
      | none => s
  else s

/-- Report a slot of VC `v` of port `p` as freed (R380). -/
def freeRxSlot (p v : Nat) (s : State) : State := modPort p (fun x => { x with freed := x.freed.modify v (fun n => (n + 1) % 4096) }) s

/-- The first port below `n` that holds a frame to forward whose next port is `p` and whose outgoing VC is `v`. -/
def fwdFor (s : State) (p v n : Nat) : Option (Nat × Frame) :=
  (List.range n).findSome? fun q =>
    ((portOf s q).fwd.find? fun f => f.vc == v && forwardPort s f == some p).map fun f => (q, f)

/-- The next frame for port `p` enters its Sluice for requester `r`: a frame of context `r` that this module originates,
or one that it forwards on VC `r - 16` (R391). The frame takes the VC of its remaining hops and sets RR when it has left its
member (R376, R394). -/
def portSluiceEnter (p r : Nat) (s : State) : State :=
  if !slRoom s (512 + p) then s
  else if r < 16 then
    match takeFirst (fun f => f.src == selfId s && f.ctx == r && (frameRoute s f).map (·.1) == some p) s.sendq with
    | some (f, rest) =>
      let v := match frameRoute s f with | some (_, v) => v | none => 0
      let f := { f with vc := v, rr := f.rr || p != f.oport }
      slEnter (512 + p) r f.budget (frameBeats f) (.frame f) { s with sendq := rest }
    | none => s
  else if r < 18 then
    match takeFirst (fun f => f.src != selfId s && f.vc == r - 16 && forwardPort s f == some p) s.sendq with
    | some (f, rest) => slEnter (512 + p) r f.budget (frameBeats f) (.frame f) { s with sendq := rest }
    | none =>
      match fwdFor s p (r - 16) 24 with
      | some (q, f) =>
        match takeFirst (fun g => decide (g = f)) (portOf s q).fwd with
        | some (_, rest) =>
          slEnter (512 + p) r f.budget (frameBeats f) (.frame f)
            (freeRxSlot q (f.vc + 1) (modPort q (fun x => { x with fwd := rest }) s))
        | none => s
      | none => s
  else s

/-- Count a collective frame that this module originates or hands over (R421). -/
def countOrig (engine c : Nat) (s : State) : State := if engine = 1 then addFk COLL_ORIG 0 c 1 s else s

/-- Count a collective frame that is finished here (R421). -/
def countFin (f : Frame) (s : State) : State := if f.engine = 1 ∧ f.type = 1 then addFk COLL_FIN 0 f.ctx 1 s else s

/-- Count the copies among the frames that a dying port hands over. -/
def countCopies : List Frame → State → State
  | [], s => s
  | f :: r, s => countCopies r (if f.type = 1 then countOrig f.engine f.ctx s else s)

/-- A stream that is first used while its member `p` is not UP is on a fallback at once (R393, R400). -/
def detourStart (p k : Nat) (s : State) : State :=
  if portUp s p || (txOf s k).detour then s
  else setEvt LINK_EV_DETOUR p (setF LINK_STAT_DETOUR p 1 (modTx k (fun t => { t with detour := true }) s))

/-- Hand an engine's frame to the hub for sending on member `oport`; it takes the next SSEQ of its stream. While the member
is not UP the stream leaves it (R390, R393). -/
def queueFrame (oport : Nat) (f : Frame) (s : State) : State :=
  let k := streamKey f.dst f.ctx oport
  let s := detourStart oport k s
  let g := { f with src := selfId s, oport := oport, sseq := (txOf s k).next }
  countOrig f.engine f.ctx (modTx k (fun t => { t with next := (t.next + 1) % 65536 })
    { s with sendq := s.sendq ++ [g] })

/-- Spread a transfer over the members to its peer in turns of 16 frames, from frame number `i` on (R390). -/
def spreadFrames (ms : List Nat) : Nat → List Frame → State → State
  | _, [], s => s
  | i, f :: fs, s => spreadFrames ms (i + 1) fs (queueFrame (ms.getD (i / 16 % ms.length) 0) f s)

/-- A sending engine hands over a transfer to module `dst` on the ports of a role. -/
def sendTransfer (role dst : Nat) (fs : List Frame) (s : State) : State :=
  let ms := membersTo s role dst
  if ms.isEmpty then s else spreadFrames ms 0 fs s

/-- One DATA frame of an engine. -/
def dataFrame (dst ctx engine hdr budget : Nat) (payload : List Byte) : Frame :=
  { type := 1, dst := dst, ctx := ctx, engine := engine, engHdr := hdr, budget := budget, payload := payload }

/-! ## Death and detours (R392, R393) -/

/-- Streams of member `p` leave it: every stream with an entry is marked as detoured. -/
def detourStreams (p : Nat) (s : State) : State :=
  { s with txStreams := s.txStreams.map fun e => if e.1 % 32 = p then (e.1, { e.2 with detour := true, marking := false }) else e }

/-- Some stream of member `p` is on a fallback. -/
def hasDetour (s : State) (p : Nat) : Bool := s.txStreams.any fun e => e.1 % 32 == p && e.2.detour

/-- An UP port dies: it writes REASON and ERR_INFO, hands over every unacknowledged sequenced frame in LSEQ order and then
every queued frame, sends STATE frames on the UP mesh ports and enters DOWN (R392, R393, R401). Frames it has received
stay in their queues (R395). -/
def portDeath (p reason : Nat) (s : State) : State :=
  if portUp s p then
    let o := portOf s p
    let queued := (sluiceOf s (512 + p)).queue.filterMap fun q => match q.pay with | .frame f => some f | _ => none
    let handed := (o.retryBuf ++ queued).map fun f => { f with rr := true }
    let s := if getF s LINK_ERR_INFO_REASON p = 0 then
        setF LINK_ERR_INFO_REASON p reason (setF LINK_ERR_INFO_LSEQ p (match o.retryBuf with | f :: _ => f.lseq | [] => o.nextLseq) s)
      else s
    let s := setF LINK_STAT_REASON p reason (setF LINK_STAT_STATE p 1 s)
    let s := setEvt LINK_EV_DOWN p (incr LINK_DEATHS p s)
    let s := countCopies o.retryBuf (detourStreams p { s with sendq := handed ++ s.sendq })
    let s := if hasDetour s p then setEvt LINK_EV_DETOUR p (setF LINK_STAT_DETOUR p 1 s) else s
    let s := modSluice (512 + p) (fun x => { x with queue := [], owner := none }) s
    let s := modPort p (fun x => { rxq := x.rxq, fwd := x.fwd, headHeld := x.headHeld, retrainArmed := true }) s
    sendStates (upMask s) 24 s
  else s

/-! ## Receiving (R379 to R381, R395) -/

/-- Take the ACK and CRED of a received frame (R380 to R383). -/
def takeAck (p : Nat) (f : Frame) (s : State) : State :=
  let o := portOf s p
  let s := if serialAhead o.acked f.ack then
      modPort p (fun x => { x with
        acked := f.ack, replays := 0, retryBuf := x.retryBuf.filter fun g => serialAhead f.ack g.lseq }) s
    else s
  if f.cvc < 3 then
    let d := (f.cred + 4096 - o.credSeen.getD f.cvc 0 % 4096) % 4096
    modPort p (fun x => { x with credit := x.credit.modify f.cvc (· + d), credSeen := x.credSeen.modify f.cvc (fun _ => f.cred) }) s
  else s

/-- Send one RETRY, and no other until the expected frame arrives (R381). -/
def sendRetry (p : Nat) (s : State) : State :=
  if (portOf s p).retryOut then s
  else sendUnseq p 9 [] (modPort p (fun x => { x with retryOut := true }) s)

/-- A frame is discarded under R378 and counted. -/
def rxDiscard (p : Nat) (s : State) : State := incr LINK_RX_DISCARD p s

/-- What the head of a port's VC 0 queue does: leave the queue with some effect, or be held. -/
inductive HeadAct where
  | drop
  | deliver
  /-- in order, but the early area has no place for it (R414) -/
  | full
  | mark
  | markAck
  | hold
deriving DecidableEq, Repr

/-- COLL_ID, STEP and TURN of a collective frame (R411). -/
def fCid (f : Frame) : Nat := bits f.engHdr 0 16
/-- STEP. -/
def fStep (f : Frame) : Nat := bits f.engHdr 16 32
/-- TURN. -/
def fTurn (f : Frame) : Nat := bits f.engHdr 48 16

/-- A step lies above every step that is open in a context and above the last one opened (R414). -/
def stepAbove (s : State) (c n : Nat) : Bool :=
  match (ctxOf s c).last with
  | some l => decide (l < n)
  | none => true

/-- A frame is kept in the early area, and takes a place there. -/
def takesPlace (s : State) (f : Frame) : Bool :=
  f.engine == 1 && decide (fTurn f < 0xFFFE) && stepAbove s f.ctx (fStep f)

/-- The turns that hold places of a context's early area: source and ENG_HDR. -/
def earlyPlaces (s : State) (c : Nat) : List (Nat × Nat) :=
  (((ctxOf s c).coll.early.filter (fun f => decide (fTurn f < 0xFFFE)) ++ s.inbox.filter fun f => f.ctx == c && takesPlace s f).map fun f => (f.src, f.engHdr)).eraseDups

/-- The early area of 256 turns has no place for a frame (R414). -/
def earlyFull (s : State) (f : Frame) : Bool :=
  takesPlace s f && decide (256 ≤ (earlyPlaces s f.ctx).length) && !(earlyPlaces s f.ctx).contains (f.src, f.engHdr)

/-- How the head frame stands to its stream (R395 to R397, R399). -/
def headAct (s : State) (f : Frame) : HeadAct :=
  let k := streamKey f.src f.ctx f.oport
  let x := rxOf s k
  if f.type = 3 then .markAck
  else if !(ctxOf s f.ctx).topo then .drop
  else if x.broken then .drop
  else if f.sseq = x.expected then (if f.type = 2 then .mark else if earlyFull s f then .full else .deliver)
  else if serialAhead x.expected f.sseq then .hold
  else .drop

/-- Drop the counts of a stream's detour once no stream of the member is on a fallback. -/
def detourEnd (p : Nat) (s : State) : State := if hasDetour s p then s else setF LINK_STAT_DETOUR p 0 s

/-- The same for ports 0 to `n - 1`. -/
def detourEnds : Nat → State → State
  | 0, s => s
  | n + 1, s => detourEnd n (detourEnds n s)

/-- A MARK_ACK lets the sender go on with the stream on its restored member (R397). -/
def markAckTake (f : Frame) (s : State) : State :=
  let k := streamKey f.src f.ctx f.oport
  if (txOf s k).marking then
    detourEnd f.oport (setEvt LINK_EV_FAILBACK f.oport (modTx k (fun t => { t with marking := false, detour := false }) s))
  else s

/-- Act on the head of a port's VC 0 queue; a held head changes nothing but its count (R395). -/
def headStep (p : Nat) (s : State) : State :=
  match (portOf s p).rxq with
  | [] => s
  | f :: r =>
    let k := streamKey f.src f.ctx f.oport
    let pop := fun s => freeRxSlot p 0 (modPort p (fun x => { x with rxq := r, headHeld := false }) s)
    match headAct s f with
    | .hold =>
      if (portOf s p).headHeld then s
      else setEvt LINK_EV_HOLD p (incr LINK_HOLD_CNT p (modPort p (fun x => { x with headHeld := true }) s))
    | .full => s
    | .deliver =>
      modRx k (fun x => { x with expected := (x.expected + 1) % 65536 }) (countFin f { pop s with inbox := s.inbox ++ [{ f with via := p }] })
    | .mark =>
      let g : Frame := { type := 3, src := selfId s, dst := f.src, ctx := f.ctx, engine := 0xF, oport := f.oport, sseq := f.sseq }
      let s := pop s
      { s with sendq := s.sendq ++ [g] }
    | .markAck => markAckTake f (pop s)
    | .drop =>
      let s := countFin f (pop s)
      if !(ctxOf s f.ctx).topo then setEvt LINK_EV_CTX_DROP p (incr LINK_CTX_DROP p s)
      else if (rxOf s k).broken then s
      else incr LINK_DUP_DROP p s

/-- The head of a port's queue can leave it. -/
def headMoves (s : State) (p : Nat) : Bool :=
  match (portOf s p).rxq with
  | [] => false
  | f :: _ => headAct s f != .full && (headAct s f != .hold || !(portOf s p).headHeld)

/-- Let the heads of all ports act until none can; at most `n` times. -/
def drainHeads : Nat → State → State
  | 0, s => s
  | n + 1, s =>
    match (List.range 24).find? fun p => headMoves s p with
    | some p => drainHeads n (headStep p s)
    | none => s

/-- Frames that wait in all VC 0 queues. -/
def rxqTotal (s : State) : Nat := s.ports.foldl (fun a e => a + e.2.rxq.length) 0

/-- Let every port's queue move as far as it can. -/
def drainAll (s : State) : State := drainHeads (2 * rxqTotal s + 24) s

/-- An in-order sequenced frame is accepted: VC 0 goes to its stream's order, VC 1 and 2 are forwarded on the next lower VC
(R379, R381). -/
def rxAccept (p : Nat) (f : Frame) (s : State) : State :=
  let s := incr LINK_RX_FRAMES p (modPort p (fun x => { x with rxLast := f.lseq, retryOut := false }) s)
  if f.vc = 0 then drainAll (modPort p (fun x => { x with rxq := x.rxq ++ [f] }) s)
  else incr LINK_TRANSIT p (modPort p (fun x => { x with fwd := x.fwd ++ [{ f with vc := f.vc - 1 }] }) s)

/-- A sequenced frame meets the link order: the next LSEQ is accepted, one beyond it asks for a RETRY, one behind it is
discarded (R381). -/
def rxSequenced (p : Nat) (f : Frame) (s : State) : State :=
  let o := portOf s p
  if f.lseq = (o.rxLast + 1) % 65536 then rxAccept p f s
  else if serialAhead o.rxLast f.lseq then sendRetry p s
  else s

/-- Count a codeword that the FEC corrected (1) or could not correct (2). -/
def countFec (p fec : Nat) (s : State) : State :=
  if fec = 1 then incr LINK_FEC_CORR p s else if fec = 2 then incr LINK_FEC_UNCORR p s else s

/-- A frame reaches port `p`. Ports without frame lock deliver and count nothing; in IDENT and MISPLACED only VC 3 frames
act; a frame that fails R378 is discarded and asks for a RETRY. A good frame of the wanted type goes to `f`, one of another
type changes nothing (R378, R670). -/
def rxFrame (p : Nat) (raw : List Byte) (fec want : Nat) (f : Frame → State → State) (s : State) : State :=
  let st := getF s LINK_STAT_STATE p
  if st = 3 ∨ st = 4 then
    match (if fec = 2 then none else parseFrame raw) with
    | none => rxDiscard p (countFec p fec s)
    | some g =>
      if sequenced g then rxDiscard p (countFec p fec s)
      else if g.type = want then f g (countFec p fec s) else s
  else if st = 5 then
    match (if fec = 2 then none else parseFrame raw) with
    | none => sendRetry p (rxDiscard p (countFec p fec s))
    | some g => if g.type = want then f g (takeAck p g (countFec p fec s)) else s
  else s

/-- DATA: a sequenced DATA frame is checked and then delivered, forwarded, dropped or held (R395). -/
def rxData (p : Nat) (raw : List Byte) (fec : Nat) (s : State) : State := rxFrame p raw fec 1 (rxSequenced p) s

/-- DATA. -/
def execData (p : Nat) (raw : List Byte) (fec : Nat) (s : State) : Host.Outcome State Fault Refusal :=
  .next (runningIn (92 + p) s (rxData p raw fec s))

/-- MARK: placed by SSEQ and answered with MARK_ACK (R397). -/
def execMark (p : Nat) (raw : List Byte) (fec : Nat) (s : State) : Host.Outcome State Fault Refusal :=
  .next (runningIn (92 + p) s (rxFrame p raw fec 2 (rxSequenced p) s))

/-- MARK_ACK (R397). -/
def execMarkAck (p : Nat) (raw : List Byte) (fec : Nat) (s : State) : Host.Outcome State Fault Refusal :=
  .next (runningIn (92 + p) s (rxFrame p raw fec 3 (rxSequenced p) s))

/-- LINK: the frame only carries ACK and credit (R380, R381). -/
def execLink (p : Nat) (raw : List Byte) (fec : Nat) (s : State) : Host.Outcome State Fault Refusal :=
  .next (runningIn (92 + p) s (rxFrame p raw fec 8 (fun _ s => s) s))

/-- STATE: the UP ports of a board peer (R377, R394). -/
def execState (p : Nat) (raw : List Byte) (fec : Nat) (s : State) : Host.Outcome State Fault Refusal :=
  .next (runningIn (92 + p) s (rxFrame p raw fec 0xB (fun f s => modPort p (fun x => { x with peerUp := leVal (f.payload.take 3) }) s) s))

/-! ## Retry (R382, R383) -/

/-- Send again every unacknowledged frame, with the present ACK and the present count of one VC's freed slots (R376, R380). -/
def resendAll (p : Nat) : List Frame → State → State
  | [], s => s
  | f :: r, s =>
    let o := portOf s p
    resendAll p r (emit (.frame p { f with ack := o.rxLast, cvc := o.cvc, cred := o.freed.getD o.cvc 0 })
      (modPort p (fun x => { x with cvc := (x.cvc + 1) % 3 }) s))

/-- A replay trigger: every unacknowledged frame goes again in LSEQ order, or the port dies with reason REPLAY when
RETRY_LIMIT replays have run without ACK progress (R382, R383). -/
def replay (p : Nat) (s : State) : State :=
  let o := portOf s p
  if o.retryBuf.isEmpty then s
  else if getF s LINK_RETRY_CFG_RETRY_LIMIT p ≤ o.replays then portDeath p 2 s
  else
    let s := addF LINK_REPLAY_FRAMES p o.retryBuf.length (incr LINK_REPLAYS p
      (modPort p (fun x => { x with replays := x.replays + 1, ackSent := x.rxLast }) s))
    resendAll p o.retryBuf (setEvt LINK_EV_REPLAY p s)

/-- RETRY: the sender replays its unacknowledged frames (R382). -/
def execRetry (p : Nat) (raw : List Byte) (fec : Nat) (s : State) : Host.Outcome State Fault Refusal :=
  .next (runningIn (92 + p) s (rxFrame p raw fec 9 (fun _ s => if portUp s p then replay p s else s) s))

/-- ACK_TIMEOUT: ACK_TMO lclk have passed with frames unacknowledged and no progress (R382). -/
def ackTimeout (p : Nat) (s : State) : State := if portUp s p then replay p s else s

/-- ACK_TIMEOUT. -/
def execAckTimeout (p : Nat) (s : State) : Host.Outcome State Fault Refusal := .next (runningIn (92 + p) s (ackTimeout p s))

/-- LINK_ACK_DUE: 32 frames or 256 lclk have passed without a new ACK being sent; a LINK frame carries the ACK, and one VC's freed
slots (R380, R381). -/
def linkAckDue (p : Nat) (s : State) : State := if portUp s p then sendUnseq p 8 [] s else s

/-- LINK_ACK_DUE. -/
def execLinkAckDue (p : Nat) (s : State) : Host.Outcome State Fault Refusal := .next (runningIn (92 + p) s (linkAckDue p s))

/-- HOLD_EXPIRE: a frame held for HOLD_US breaks its stream, and the frame is discarded (R396). -/
def holdExpire (p : Nat) (s : State) : State :=
  match (portOf s p).rxq with
  | f :: r =>
    if (portOf s p).headHeld ∧ headAct s f = .hold then
      let s := modRx (streamKey f.src f.ctx f.oport) (fun x => { x with broken := true }) s
      let s := setEvt LINK_EV_STREAM_BREAK p (incr LINK_STREAM_BREAK p s)
      drainAll (countFin f (freeRxSlot p 0 (modPort p (fun x => { x with rxq := r, headHeld := false }) s)))
    else s
  | [] => s

/-- HOLD_EXPIRE. -/
def execHoldExpire (p : Nat) (s : State) : Host.Outcome State Fault Refusal := .next (runningIn (92 + p) s (holdExpire p s))

/-! ## Training and identity (R384 to R388) -/

/-- A port enters DOWN from OFF, HELD or MISPLACED and starts training at once when AUTO_RETRAIN is 1 (R384). -/
def toDown (p : Nat) (s : State) : State :=
  let s := modPort p (fun x => { x with retrainArmed := true }) s
  setF LINK_STAT_STATE p (if isF s LINK_CTRL_AUTO_RETRAIN p then 2 else 1) s

/-- PORT_ENABLE: a write of LINK.CTRL.EN. A used port in OFF leaves it with EN = 1; a HELD port goes to DOWN (R384). -/
def portEnable (r : Requester) (a v : Nat) (s : State) : State :=
  if a % 4 = 0 then guarded r a (fun t i o s =>
    if t = 7 ∧ o = 0x10 then
      let s := setF LINK_CTRL_EN i (v % 2) s
      leaveOff i (heldToDown i s)
    else s) s
  else s

/-- PORT_ENABLE. -/
def execPortEnable (r : Requester) (a v : Nat) (s : State) : Host.Outcome State Fault Refusal :=
  .next (portEnable r a v s)

/-- AUTO_RETRAIN: RETRAIN_MS after DOWN the port enters TRAIN (R384). -/
def autoRetrain (p : Nat) (s : State) : State :=
  if getF s LINK_STAT_STATE p = 1 ∧ isF s LINK_CTRL_AUTO_RETRAIN p then setF LINK_STAT_STATE p 2 s else s

/-- AUTO_RETRAIN. -/
def execAutoRetrain (p : Nat) (s : State) : Host.Outcome State Fault Refusal := .next (runningIn (92 + p) s (autoRetrain p s))

/-- TRAIN_DONE: training completes and the port enters IDENT with fresh link counters (R384). -/
def trainDone (p : Nat) (s : State) : State :=
  if getF s LINK_STAT_STATE p = 2 then
    modPort p (fun x => { rxq := x.rxq, fwd := x.fwd, headHeld := x.headHeld }) (setF LINK_STAT_STATE p 3 s)
  else s

/-- TRAIN_DONE. -/
def execTrainDone (p : Nat) (s : State) : Host.Outcome State Fault Refusal := .next (runningIn (92 + p) s (trainDone p s))

/-- TRAIN_FAIL: the port returns to DOWN with reason TRAIN (R384). -/
def trainFail (p : Nat) (s : State) : State :=
  if getF s LINK_STAT_STATE p = 2 then
    modPort p (fun x => { x with retrainArmed := true }) (setF LINK_STAT_REASON p 3 (setF LINK_STAT_STATE p 1 s))
  else s

/-- TRAIN_FAIL. -/
def execTrainFail (p : Nat) (s : State) : Host.Outcome State Fault Refusal := .next (runningIn (92 + p) s (trainFail p s))

/-- The identity record of a port (R385). -/
def identRecord (s : State) (p : Nat) : List Byte :=
  leBytes 8 (serial s) ++ leBytes 2 (getF s LINK_SELF_BOARD 0 + s.strapPos % 8 * 512)
  ++ leBytes 1 (p + getF s LINK_TOPO_PEER_ROLE p * 32) ++ zeros 1 ++ leBytes 4 (getF s BOOT_FW_VERSION 0)
  ++ leBytes 2 (getF s LINK_REV_CFG_REV_MIN p) ++ leBytes 2 (getF s LINK_REV_CFG_REV_MAX p)
  ++ leBytes 2 (getF s LINK_VC_CRED_VC0 p) ++ leBytes 2 (getF s LINK_VC_CRED_VC1 p) ++ leBytes 2 (getF s LINK_VC_CRED_VC2 p)
  ++ zeros 38

/-- IDENT_SEND: in IDENT the port sends an IDENT frame every 10 µs until it has the peer's (R385). -/
def identSend (p : Nat) (s : State) : State :=
  if getF s LINK_STAT_STATE p = 3 ∧ (portOf s p).identGot = none then
    modPort p (fun x => { x with identSent := true }) (sendUnseq p 0xA (identRecord s p) s)
  else s

/-- IDENT_SEND. -/
def execIdentSend (p : Nat) (s : State) : Host.Outcome State Fault Refusal := .next (runningIn (92 + p) s (identSend p s))

/-- The two roles of a link form a pair that R387 allows. -/
def rolePair (a b : Nat) : Bool :=
  (a == 1 && b == 1) || (a == 2 && b == 2) || (a == 3 && b == 4) || (a == 4 && b == 3) || (a == 5 && b == 5)

/-- The mismatch bits of R387 between the observed record and the topology registers. -/
def misBits (s : State) (p : Nat) (rcd : List Byte) : Nat :=
  let serA := leVal (rcd.take 8)
  let serB := getF s LINK_TOPO_SER_LO p + two32 * getF s LINK_TOPO_SER_HI p
  let w := leVal ((rcd.drop 8).take 2)
  let x := leVal ((rcd.drop 10).take 1)
  b2n (serB != 0 && serA != serB) + 2 * b2n (bits w 0 9 != getF s LINK_TOPO_PEER_BOARD p)
  + 4 * b2n (bits w 9 3 != getF s LINK_TOPO_PEER_POS p) + 8 * b2n (bits x 0 5 != getF s LINK_TOPO_PEER_PORT p)
  + 16 * b2n (!rolePair (portRole p) (bits x 5 3))

/-- Send the MARK of each detoured stream of member `p` down its present route (R397). -/
def sendMarks (p : Nat) : List (Nat × TxStream) → State → State
  | [], s => s
  | (k, t) :: r, s =>
    if k % 32 = p ∧ t.detour ∧ !t.marking then
      let f : Frame := { type := 2, src := selfId s, dst := k / 512, ctx := k / 32 % 16, engine := 0xF, oport := p, sseq := t.next }
      sendMarks p r (modTx k (fun t => { t with marking := true, markAt := t.next }) { s with sendq := s.sendq ++ [f] })
    else sendMarks p r s

/-- The streams of a member return to it (R397). -/
def failback (p : Nat) (s : State) : State := sendMarks p s.txStreams s

/-- The port enters UP (R384, R397). -/
def enterUp (p : Nat) (s : State) : State :=
  let s := setEvt LINK_EV_UP p (setF LINK_STAT_MIS p 0 (setF LINK_STAT_REASON p 0 (setF LINK_STAT_STATE p 5 s)))
  if isF s LINK_CTRL_AUTO_FAILBACK p then failback p s else s

/-- Compare the observed identity with the table: UP, or MISPLACED with its mismatch bits (R387). -/
def judgeIdent (p : Nat) (rcd : List Byte) (s : State) : State :=
  let m := misBits s p rcd
  if m = 0 then enterUp p s
  else setEvt LINK_EV_MISPLACED p (setF LINK_STAT_MIS p m (setF LINK_STAT_STATE p 4 s))

/-- Record the peer's identity record in the page and take its announced slots as credit (R380, R385, R403). -/
def recordIdent (p : Nat) (rcd : List Byte) (s : State) : State :=
  let f := fun o n => leVal ((rcd.drop o).take n)
  let s := setF LINK_PEER_SER_LO p (f 0 4) (setF LINK_PEER_SER_HI p (f 4 4) s)
  let s := setF LINK_PEER_ID p (bits (f 8 2) 0 12 + f 10 1 * 4096) (setF LINK_PEER_FW p (f 12 4) s)
  let s := setF LINK_PEER_REV_REV_MIN p (f 16 2) (setF LINK_PEER_REV_REV_MAX p (f 18 2) s)
  modPort p (fun x => { x with identGot := some rcd, credit := [f 20 2, f 22 2, f 24 2] }) s

/-- A received IDENT frame sets the revision in use, or the port becomes HELD; then the identity is judged
(R385 to R387). -/
def takeIdent (p : Nat) (rcd : List Byte) (s : State) : State :=
  if getF s LINK_STAT_STATE p = 3 then
    let s := recordIdent p rcd s
    let hi := min (getF s LINK_REV_CFG_REV_MAX p) (leVal ((rcd.drop 18).take 2))
    let lo := max (getF s LINK_REV_CFG_REV_MIN p) (leVal ((rcd.drop 16).take 2))
    if hi < lo then setEvt LINK_EV_HELD p (setF LINK_STAT_REASON p 4 (setF LINK_STAT_STATE p 6 s))
    else judgeIdent p rcd (setF LINK_STAT_REV p hi s)
  else s

/-- IDENT (R385 to R387). -/
def execIdent (p : Nat) (raw : List Byte) (fec : Nat) (s : State) : Host.Outcome State Fault Refusal :=
  .next (runningIn (92 + p) s (rxFrame p raw fec 0xA (fun f s => takeIdent p f.payload s) s))

/-- A write of LINK.CTRL with bit `b` set that has passed the gate gives its port to `f`. -/
def linkCtrl (r : Requester) (a v b : Nat) (f : Nat → State → State) (s : State) : State :=
  if a % 4 = 0 then guarded r a (fun t i o s => if t = 7 ∧ o = 0x10 ∧ v.testBit b then f i s else s) s else s

/-- CONFIRM copies the observed identity into TOPO and brings the port UP; it is ignored, and ERR_INFO records it, when
the role pair is not allowed (R388). -/
def confirmPort (p : Nat) (s : State) : State :=
  if getF s LINK_STAT_STATE p = 4 then
    match (portOf s p).identGot with
    | none => s
    | some rcd =>
      let w := leVal ((rcd.drop 8).take 2)
      let x := leVal ((rcd.drop 10).take 1)
      if rolePair (portRole p) (bits x 5 3) then
        let s := setF LINK_TOPO_SER_LO p (leVal (rcd.take 4)) (setF LINK_TOPO_SER_HI p (leVal ((rcd.drop 4).take 4)) s)
        let s := setF LINK_TOPO_PEER_BOARD p (bits w 0 9) (setF LINK_TOPO_PEER_POS p (bits w 9 3)
          (setF LINK_TOPO_PEER_PORT p (bits x 0 5) s))
        enterUp p s
      else setF LINK_ERR_INFO_CONFIRM p 1 s
  else s

/-- CONFIRM. -/
def execConfirm (r : Requester) (a v : Nat) (s : State) : Host.Outcome State Fault Refusal :=
  .next (linkCtrl r a v 3 confirmPort s)

/-- RECHECK compares again in MISPLACED, leaves HELD, or starts training from DOWN (R384, R388). -/
def recheckPort (p : Nat) (s : State) : State :=
  match getF s LINK_STAT_STATE p with
  | 1 => setF LINK_STAT_STATE p 2 s
  | 4 => match (portOf s p).identGot with
    | some rcd => judgeIdent p rcd s
    | none => s
  | 6 => toDown p s
  | _ => s

/-- RECHECK. -/
def execRecheck (r : Requester) (a v : Nat) (s : State) : Host.Outcome State Fault Refusal :=
  .next (linkCtrl r a v 4 recheckPort s)

/-- LINK_RESTORE: LINK.CTRL.RESTORE returns the streams of an UP member (R397). -/
def restorePort (p : Nat) (s : State) : State := if portUp s p then failback p s else s

/-- LINK_RESTORE. -/
def execLinkRestore (r : Requester) (a v : Nat) (s : State) : Host.Outcome State Fault Refusal :=
  .next (linkCtrl r a v 5 restorePort s)

/-- FORCE_DOWN: an UP port dies with reason FORCE_DOWN; a MISPLACED port goes DOWN (R384, R388, R392). -/
def forceDownPort (p : Nat) (s : State) : State :=
  if getF s LINK_STAT_STATE p = 4 then toDown p (setF LINK_STAT_REASON p 5 (setF LINK_STAT_MIS p 0 s))
  else portDeath p 5 s

/-- FORCE_DOWN. -/
def execForceDown (r : Requester) (a v : Nat) (s : State) : Host.Outcome State Fault Refusal :=
  .next (linkCtrl r a v 6 forceDownPort s)

/-- LANE_LOSS: a lane losing signal or lock kills an UP port (R392). -/
def laneLoss (p : Nat) (s : State) : State := portDeath p 1 s

/-- LANE_LOSS. -/
def execLaneLoss (p : Nat) (s : State) : Host.Outcome State Fault Refusal := .next (runningIn (92 + p) s (laneLoss p s))

/-- The fields of a LINK page that a reset K restores. -/
def clearK (p : Nat) : List Fld → State → State
  | [], s => s
  | f :: r, s => clearK p r (if f.cls.contains .k then setF f p (fldReset f p) s else s)

/-- A link-port reset K: an UP port dies with reason RESET, the hand-over precedes the clearing, and the port trains
again (R392, R399, R592). -/
def resetPort (p : Nat) (s : State) : State :=
  leaveOff p (modPort p (fun x => { rxq := x.rxq, fwd := x.fwd, headHeld := x.headHeld }) (clearK p fldsLINK (portDeath p 6 s)))

/-- PORT_RST: a write of PWR.PORT_RST resets one link port (R392, R586, R594). -/
def portRst (r : Requester) (a v : Nat) (s : State) : State :=
  if a % 4 = 0 then
    guarded r a (fun t _ o s => if t = 13 ∧ o = 0x124 ∧ v % 32 < 24 then resetPort (v % 32) s else s) s
  else s

/-- PORT_RST. -/
def execPortRst (r : Requester) (a v : Nat) (s : State) : Host.Outcome State Fault Refusal := .next (portRst r a v s)

end Sys2Proof.Machine
end

