-- ==== Sys2Proof/Machine/Coll.lean ====
section
/-! DEFINITION. The collective engine: collective lists and descriptors, posting and sending, turns and DONE, layer releases
and gathers, stragglers, retry and the topology command (R55 to R57, R409 to R423, R432, R671 to R675). -/

namespace Sys2Proof.Machine

/-! ## Descriptors (R409) -/

/-- KIND. -/
def kKind (d : List Byte) : Nat := bits (dw d 0) 8 3
/-- BAR_EN. -/
def kBarEn (d : List Byte) : Bool := bit (dw d 0) 11
/-- BAR. -/
def kBar (d : List Byte) : Nat := bits (dw d 0) 12 6
/-- COLL_ID. -/
def kCid (d : List Byte) : Nat := bits (dw d 1) 0 16
/-- STEP. -/
def kStep (d : List Byte) : Nat := dw d 2
/-- POS_MASK. -/
def kMask (d : List Byte) : Nat := bits (dw d 3) 0 8
/-- REL_ID. -/
def kRel (d : List Byte) : Nat := bits (dw d 3) 16 16
/-- Address of the data. -/
def kAddr (d : List Byte) : Nat := dw d 4 * 256
/-- Turns per peer. -/
def kTurns (d : List Byte) : Nat := bits (dw d 5) 0 16 + 1
/-- PEER_STRIDE. -/
def kStride (d : List Byte) : Nat := bits (dw d 5) 16 16
/-- The cluster that DEST_CL names. -/
def kDest (d : List Byte) : Nat := bits (dw d 6) 2 8
/-- LAST_BYTES. -/
def kLast (d : List Byte) : Nat := bits (dw d 7) 0 14
/-- Budget of its frames in lclk (R674). -/
def kBudget (d : List Byte) : Nat := min 16384 ((bits (dw d 1) 16 15 * 125 + 127) / 128)
/-- Pipeline kinds 4 and 5. -/
def kPipe (d : List Byte) : Bool := kKind d == 4 || kKind d == 5
/-- KIND 6, RELEASE. -/
def kRelease (d : List Byte) : Bool := kKind d == 6
/-- Bytes of turn `t`. -/
def turnLen (d : List Byte) (t : Nat) : Nat := if t + 1 = kTurns d then kLast d else 8192
/-- Address of turn `t` of the peer with index `i`. -/
def turnAddr (d : List Byte) (i t : Nat) : Nat := kAddr d + (i * kStride d + t) * 8192

/-- The positions in a mask, ascending. -/
def maskPos (m : Nat) : List Nat := (List.range 8).filter fun p => m.testBit p

/-- The own board position. -/
def ownPos (s : State) : Nat := s.strapPos % 8
/-- The own board. -/
def ownBoard (s : State) : Nat := getF s LINK_SELF_BOARD 0

/-- The first pipeline port of the stage that a pipeline transfer of a direction uses: 19 next, 16 previous (R372, R409). -/
def pipePort (send : Bool) (d : List Byte) : Nat := if (kKind d == 4) == send then 19 else 16

/-- Bytes of a partial of `n` tiles (R134). -/
def partialSize (n : Nat) : Nat := pad64 n + 8192 * n

/-! ## The twin table (R438) -/

/-- Records of the twin table. -/
def twinCount (s : State) : Nat := getF s CULVERT_TWIN_COUNT 0
/-- Address of a twin record. -/
def twinRecAddr (s : State) (i : Nat) : Nat := getF s CULVERT_TWIN_BASE 0 * 256 + 128 * i

/-- The index of a GBI in the twin table, from record `i` on. -/
def twinIndexFrom (s : State) (g : Nat) : Nat → Nat → Option Nat
  | 0, _ => none
  | n + 1, i => if mval s 0 (twinRecAddr s i) 4 = g then some i else twinIndexFrom s g n (i + 1)

/-- The index of a GBI in the twin table. -/
def twinIndex (s : State) (g : Nat) : Option Nat := twinIndexFrom s g (twinCount s) 0

/-! ## Peers -/

/-- Which lost position of a step a transfer meets: the module that stands at position `p` for it; none when there is nobody
to exchange with (R427 to R429). `served` marks a transfer of blocks that this module serves for its lost twin. -/
def posModule (s : State) (st : Step) (d : List Byte) (send served : Bool) (p : Nat) : Option Nat :=
  if served then some ((ownBoard s ^^^ 1) * 8 + p)
  else if st.lost = some p then
    if (kKind d = 0 ∧ send) ∨ (kKind d = 1 ∧ !send) then some ((ownBoard s ^^^ 1) * 8 + p)
    else if kKind d = 1 ∨ kRelease d then none
    else if (p + 1) % 8 = ownPos s then none
    else some (ownBoard s * 8 + (p + 1) % 8)
  else some (ownBoard s * 8 + p)

/-- Position `p` of the own board is declared lost and the step was open at the loss (R427). -/
def lostInStep (s : State) (st : Step) (p : Nat) : Bool :=
  isF s COLL_DEGRADE_ACTIVE 0 && getF s COLL_DEGRADE_LOST_POS 0 == p && st.lost != some p

/-- The stretch of a pipeline transfer: `k` at a stand-in for position `k`, otherwise the own one (R428). DESIGN CHOICE (log entry 70):
`k` is an operand. -/
def stretchOf (s : State) (st : Step) (k : Nat) : Nat :=
  if st.lost = some k ∧ (k + 1) % 8 = ownPos s then k else ownPos s

/-- The peer of a pipeline transfer of stretch `k`: that position of the neighbouring stage, or its stand-in (R59, R428). -/
def pipeModule (s : State) (st : Step) (send : Bool) (d : List Byte) (k : Nat) : Nat :=
  let port := pipePort send d
  let lost := if port = 19 then st.lostNext else st.lostPrev
  peerOf s port / 8 * 8 + (if lost = some k then (k + 1) % 8 else k)

/-- The peers of a descriptor: index, position and module. `k` names the stretch of a pipeline transfer. -/
def peersOf (s : State) (st : Step) (d : List Byte) (send served : Bool) (k : Nat) : List (Nat × Nat × Option Nat) :=
  if kPipe d then [(0, stretchOf s st k, some (pipeModule s st send d (stretchOf s st k)))]
  else (maskPos (kMask d)).zipIdx.map fun e => (e.2, e.1, posModule s st d send served e.1)

/-- Two ranges overlap. -/
def overlaps (a n b m : Nat) : Bool := decide (a < b + m ∧ b < a + n)

/-- The weight region of a block overlaps a range. -/
def wgtOverlap (s : State) (b : Blk) (a n : Nat) : Bool := overlaps a n (wgtAddr s b) (12292 * lTiles b.lat)

/-- The blocks that this module serves for its lost twin (R429). -/
def servedBlk (s : State) (b : Blk) : Bool := isF s COLL_DEGRADE_SERVING 0 && (twinIndex s b.gbi).isSome

/-- A SEND of GATHER carries blocks of the lost twin. -/
def gatherServed (s : State) (st : Step) (d : List Byte) : Bool :=
  kKind d == 1 && st.blks.any fun b => servedBlk s b && wgtOverlap s b (kAddr d) (kTurns d * 8192)

/-- The entry of COLL.DEGRADE for a board: 0 the own, 1 that of the previous and 2 that of the next stage (R426). -/
def degEntry (s : State) (board : Nat) : Option Nat :=
  if board = ownBoard s then some 0
  else if board + 1 = ownBoard s then some 1
  else if board = ownBoard s + 1 then some 2
  else none

/-- The fields of an entry. -/
def degFlds : Nat → Fld × Fld
  | 0 => (COLL_DEGRADE_ACTIVE, COLL_DEGRADE_LOST_POS)
  | 1 => (COLL_DEGRADE_PREV_ACTIVE, COLL_DEGRADE_PREV_POS)
  | _ => (COLL_DEGRADE_NEXT_ACTIVE, COLL_DEGRADE_NEXT_POS)

/-- Position `p` of a board is declared lost. -/
def declaredLost (s : State) (board p : Nat) : Bool :=
  match degEntry s board with
  | some k => isF s (degFlds k).1 0 && getF s (degFlds k).2 0 == p
  | none => false

/-- Members on which frames leave for a module: the mesh on the own board; else the pipeline ports to its board, from whose far end
the mesh goes on, or where the own counterpart there is declared lost, the mesh to the position whose counterpart the module is
(R428, R429). -/
def collMembers (s : State) (dst : Nat) : List Nat :=
  if dst / 8 = ownBoard s then membersTo s 1 dst
  else if dst % 8 ≠ ownPos s ∧ declaredLost s (dst / 8) (ownPos s) then membersTo s 1 (ownBoard s * 8 + dst % 8)
  else (List.range 24).filter fun p => 16 ≤ p && p < 22 && portUsed s p && getF s LINK_TOPO_PEER_BOARD p == dst / 8

/-! ## Checks (R410, R671) -/

/-- The data of a descriptor reaches beyond module memory; of a RECV of PARTIAL the head of its map. -/
def kAddrBad (send : Bool) (d : List Byte) : Bool :=
  let n := max 1 (maskPos (kMask d)).length
  let size := if !send ∧ kKind d = 0 then 16 else ((n - 1) * kStride d + kTurns d - 1) * 8192 + kLast d
  decide (2 ^ 40 < kAddr d + size)

/-- POS_MASK or the stage of a pipeline kind is not allowed. -/
def kMaskBad (s : State) (send : Bool) (d : List Byte) : Bool :=
  (kMask d).testBit (ownPos s) || (if kPipe d then !portUsed s (pipePort send d) else kMask d == 0)

/-- LAST_BYTES, TURNS_M1 and the fields of a RELEASE. -/
def kSizeBad (d : List Byte) : Bool :=
  if kRelease d then kTurns d != 1 || kLast d != 0 || kAddr d != 0 || bits (dw d 6) 0 10 != 0
  else kLast d == 0 || decide (8192 < kLast d) || kLast d % 32 != 0 || decide (65535 < kTurns d)

/-- A must-be-0 bit of R409 is set, POS_MASK of a pipeline kind among them. -/
def kZeroBad (d : List Byte) : Bool :=
  (kPipe d && kMask d != 0) || bits (dw d 0) 18 14 != 0 || bit (dw d 1) 31 || bits (dw d 3) 8 8 != 0 || bits (dw d 6) 0 2 != 0 ||
    bits (dw d 6) 10 22 != 0 || bits (dw d 7) 14 18 != 0

/-- The microbatch index and GBIs of a block map; none when it breaks its layout or cannot be read (R671). -/
def readMap (s : State) (d : List Byte) : Option (Nat × List Nat) :=
  let die := kDest d / 64
  match memRead s die (kAddr d) 16 with
  | .data h =>
    let n := pay h 4 4
    let size := (4 * n + 15) / 16 * 16
    if pay h 2 2 ≠ 0 ∨ pay h 8 8 ≠ 0 ∨ 2 ^ 40 < kAddr d + 16 + size then none
    else match memRead s die (kAddr d + 16) size with
      | .data bs =>
        if leVal (bs.drop (4 * n)) = 0 then some (pay h 0 2, wordsOf 4 (bs.take (4 * n))) else none
      | _ => none
  | _ => none

/-- GBIs rise strictly. -/
def rising : List Nat → Bool
  | a :: b :: r => decide (a < b) && rising (b :: r)
  | _ => true

/-- Tiles of the block of a GBI that the table of a cluster holds; none when it holds no such block. -/
def tableTiles (st : Step) (cl g : Nat) : Option Nat :=
  (st.blks.find? fun b => b.gbi == g && b.cl == cl).map fun b => lTiles b.lat

/-- The block map of a RECV of PARTIAL is not as R671 lays down. -/
def mapBad (s : State) (st : Step) (d : List Byte) : Bool :=
  match readMap s d with
  | none => true
  | some (_, gs) =>
    let ts := gs.map (tableTiles st (kDest d))
    !rising gs || ts.any (·.isNone) ||
      (ts.foldl (fun a t => a + partialSize (t.getD 0)) 0) != (kTurns d - 1) * 8192 + kLast d

/-- The RECV of a context with a COLL_ID and step. -/
def recvOf (s : State) (c n cid : Nat) : Option Recv := (ctxOf s c).coll.recvs.find? fun r => r.step == n && r.cid == cid

/-- The RECV of the step before step `n`. -/
def prevRecv (s : State) (c n cid : Nat) : Option Recv := if n = 0 then none else recvOf s c (n - 1) cid

/-- COLL.ERR_INFO.CODE of the first case of R410 that a descriptor of step `n`'s list meets; 0 for a valid one. -/
def collCode (s : State) (c : Nat) (st : Step) (d : List Byte) : Nat :=
  let send := dop d == 0x61
  if dop d ≠ 0x61 ∧ dop d ≠ 0x62 then 1
  else if 6 < kKind d then 2
  else if kMaskBad s send d then 3
  else if !kRelease d && kAddrBad send d then 4
  else if kSizeBad d then 5
  else if kZeroBad d then 6
  else if !send && (recvOf s c st.step (kCid d)).isSome then 7
  else if kRel d ≠ 0 ∧ !(send && kKind d == 1) then 6
  else if !send && kKind d == 0 && mapBad s st d then 8
  else if kStep d ≠ st.step then 9
  else 0

/-- The context's list halts until a context reset X, and ERR_INFO records the first fault (R410, R435). -/
def collHalt (c code : Nat) (s : State) : State :=
  let s := if getF s COLL_ERR_INFO_CODE 0 = 0 then setF COLL_ERR_INFO_CODE 0 code (setF COLL_ERR_INFO_CONTEXT 0 c s) else s
  modColl c (fun x => { x with halted := true }) (setEvt COLL_EV_DESC_INVALID 0 s)

/-! ## The chain of lists (R673) -/

/-- The descriptors of a chain of lists from address `a`; none when a header or address is faulty or cannot be read. A chain
that comes back to a list ends there. -/
def readChain (step : Nat) : Nat → List Nat → Nat → State → Option (List (List Byte)) × State
  | 0, _, _, s => (some [], s)
  | f + 1, seen, a, s =>
    if a = 0 ∨ seen.contains a then (some [], s)
    else if badAddr a 64 64 then (none, s)
    else match engRead 0 3 a 64 s with
      | (.data h, s) =>
        if pay h 0 4 ≠ step ∨ pay h 16 48 ≠ 0 ∨ 2 ^ 40 < a + 64 + 32 * pay h 4 4 then (none, s)
        else match engRead 0 3 (a + 64) (32 * pay h 4 4) s with
          | (.data bs, s) =>
            match readChain step f (a :: seen) (pay h 8 8) s with
            | (some r, s) => (some (chunks 32 (pay h 4 4) bs ++ r), s)
            | x => x
          | (_, s) => (none, s)
      | (_, s) => (none, s)

/-- The engine reads the chain as the step opens: its RECVs are to be posted before its other descriptors run. -/
def openChain (c step a : Nat) (s : State) : State :=
  if (ctxOf s c).coll.halted then s
  else match readChain step (2 ^ 34) [] a s with
    | (none, s) => collHalt c 9 s
    | (some ds, s) => modColl c (fun x => { x with
        posts := x.posts ++ (ds.filter fun d => dop d == 0x62).map fun d => (step, d)
        list := x.list ++ (ds.filter fun d => dop d != 0x62).map fun d => (step, d) }) s

/-! ## Frames of the engine -/

/-- ENG_HDR of R411. -/
def collHdr (cid step turn : Nat) : Nat := cid % 65536 + step % two32 * 65536 + turn * 2 ^ 48

/-- A frame without data leaves for a module on its first member. -/
def sendMark (c dst cid step turn budget : Nat) (s : State) : State :=
  match collMembers s dst with
  | p :: _ => queueFrame p (dataFrame dst c 1 (collHdr cid step turn) budget []) s
  | [] => s

/-- The frames of one turn leave on one member (R411). -/
def sendFrames (p : Nat) : List Frame → State → State
  | [], s => s
  | f :: r, s => sendFrames p r (queueFrame p f s)

/-- Send turn `t` of a descriptor's peer `i` to module `dst`; none when its data cannot be read. -/
def sendTurn (c dst i t : Nat) (d : List Byte) (s : State) : Option State :=
  match engRead 0 3 (turnAddr d i t) (turnLen d t) s with
  | (.data bs, s) =>
    let ms := collMembers s dst
    some (sendFrames (ms.getD (t % ms.length) 0) ((chunks 512 16 bs).map
      (dataFrame dst c 1 (collHdr (kCid d) (kStep d) t) (kBudget d))) s)
  | _ => none

/-- Send several turns, given as index × 65,536 + turn, to the peers that the list names. -/
def sendTurns (c : Nat) (d : List Byte) (peers : List (Nat × Nat × Bool)) : List Nat → State → Option State
  | [], s => some s
  | k :: ks, s =>
    match peers.find? fun e => e.2.1 == k / 65536 with
    | some (dst, _, false) =>
      match sendTurn c dst (k / 65536) (k % 65536) d s with
      | some s => sendTurns c d peers ks s
      | none => none
    | _ => sendTurns c d peers ks s

/-- A completed descriptor with BAR_EN = 1 arrives once at its barrier (R412). -/
def collBar (c : Nat) (d : List Byte) (s : State) : State :=
  if kBarEn d then
    homeArrive { op := 0x53, home := 4, obj := kBar d, count := 1, flags := 1024, party := ⟨256, c⟩, ctx := c,
                 epoch := epochOf s 4 c } s
  else s

/-- The context is paused (R422). -/
def collPaused (s : State) (c : Nat) : Bool := (getF s COLL_CTX_PAUSE 0).testBit c

/-! ## Receiving -/

/-- Change the RECV with a COLL_ID and step. -/
def modRecv (c n cid : Nat) (f : Recv → Recv) (s : State) : State :=
  modColl c (fun x => { x with recvs := x.recvs.map fun r => if r.step = n ∧ r.cid = cid then f r else r }) s

/-- Change the transfer of a RECV with an index. -/
def modXfer (c n cid i : Nat) (f : Xfer → Xfer) (s : State) : State :=
  modRecv c n cid (fun r => { r with xfers := r.xfers.map fun x => if x.idx = i then f x else x }) s

/-- DONE is sent to a source, or is due once the pause ends (R412, R422). -/
def sendDone (c : Nat) (r : Recv) (x : Xfer) (s : State) : State :=
  if collPaused s c then modXfer c r.step r.cid x.idx (fun y => { y with done := 1 }) s
  else sendMark c x.src r.cid r.step 0xFFFF (kBudget r.desc) (modXfer c r.step r.cid x.idx (fun y => { y with done := 2 }) s)

/-- A RECV completes once every transfer is closed or absent: it arrives at its barrier, and a release is remembered
(R412, R672). -/
def recvEnd (c n cid : Nat) (s : State) : State :=
  match recvOf s c n cid with
  | some r =>
    if !r.fin && r.xfers.all (fun x => x.closed || x.absent) then
      let s := modRecv c n cid (fun r => { r with fin := true }) s
      let s := if kRelease r.desc then modColl c (fun x => { x with rels := x.rels ++ [(n, cid)] }) s else s
      collBar c r.desc s
    else s
  | none => s

/-- A transfer closes at its receiver (R412). -/
def closeXfer (c : Nat) (r : Recv) (x : Xfer) (s : State) : State :=
  let s := modXfer c r.step r.cid x.idx (fun y => { y with closed := true }) (incr COLL_XFER_DONE 0 s)
  recvEnd c r.step r.cid (sendDone c r x s)

/-- The turn is complete. -/
def turnDone (d : List Byte) (x : Xfer) (t : Nat) : Bool := decide (turnLen d t ≤ (x.turns.get [] t).length)

/-- Every turn is complete. -/
def xferFull (d : List Byte) (x : Xfer) : Bool := (List.range (kTurns d)).all (turnDone d x)

/-- Turns that a context's carry area holds (R417). -/
def carryHeld (s : State) (c : Nat) : Nat :=
  (ctxOf s c).coll.recvs.foldl (fun a r => r.xfers.foldl (fun a x => if x.carry then a + x.turns.length else a) a) 0

/-- The payload of a CARRY record: the turns as received (R476). -/
def carryBytes (r : Recv) (x : Xfer) : List Byte :=
  leBytes 2 r.cid ++ leBytes 1 x.pos ++ [0] ++ leBytes 4 r.step ++ x.turns.flatMap (·.2)

/-- A transfer that a checkpoint waits for is kept for it as it stands (R473). -/
def ckptKeep (c : Nat) (r : Recv) (x : Xfer) (s : State) : State :=
  modCtx c (fun z => { z with ckpt := z.ckpt.map fun k =>
    if k.cut = r.step ∧ k.arriving.contains (r.cid, x.idx) then
      { k with arriving := k.arriving.filter (· != (r.cid, x.idx)), dropped := k.dropped ++ [(r.cid, carryBytes r x)] }
    else k }) s

/-- Late data was dropped: counted, but not in replay, where the carry area plays no part (R417, R418, R420). -/
def countDrop (c : Nat) (s : State) : State :=
  if replayOn s c then s else setEvt COLL_EV_CARRY_DROP 0 (incr COLL_CARRY_DROP 0 s)

/-- A carried transfer is dropped and its DONE sent (R417, R418). -/
def carryDrop (c : Nat) (r : Recv) (x : Xfer) (s : State) : State :=
  let s := ckptKeep c r x s
  let s := modXfer c r.step r.cid x.idx (fun y => { y with carry := false, turns := [], slots := [] }) s
  let s := countDrop c s
  if x.done = 0 then sendDone c r x s else s

/-- A frame is rejected (R414). -/
def staleRej (s : State) : State := setEvt COLL_EV_STALE_REJ 0 (incr COLL_STALE_REJ 0 s)

/-- The places of the carry area that a context's transfers hold. -/
def carryPlaces (s : State) (c : Nat) : List Nat :=
  (ctxOf s c).coll.recvs.flatMap fun r => r.xfers.flatMap fun x => x.slots.map (·.2)

/-- The lowest free place of the carry area. -/
def freePlace (l : List Nat) : Nat := ((List.range (l.length + 1)).find? fun k => !l.contains k).getD 0

/-- Bytes of turn `t` of a carried transfer, from byte `off` of the turn on, are written into its place of the carry area (R417);
in replay the area plays no part (R420). The place is the lowest free one (DESIGN CHOICE, log entry 69). -/
def carryStore (c : Nat) (r : Recv) (i t off : Nat) (bs : List Byte) (s : State) : State :=
  if replayOn s c then s
  else match (r.xfers.find? fun x => x.idx == i).bind (fun x => x.slots.find t) with
    | some k => memStore 0 (getFk s COLL_CARRY_BASE 0 c * 256 + k * 8192 + off) bs s
    | none =>
      let k := freePlace (carryPlaces s c)
      memStore 0 (getFk s COLL_CARRY_BASE 0 c * 256 + k * 8192 + off) bs
        (modXfer c r.step r.cid i (fun x => { x with slots := x.slots.ins t k }) s)

/-- The turns that a transfer holds as it becomes a carried one go to the carry area. -/
def carryStores (c n cid i : Nat) : List (Nat × List Byte) → State → State
  | [], s => s
  | e :: es, s =>
    carryStores c n cid i es (match recvOf s c n cid with
      | some r => carryStore c r i e.1 0 e.2 s
      | none => s)

/-- Gathered tiles that end in `len` bytes from byte `a` of a transfer on. DESIGN CHOICE (log entry 107): it is counted in tiles of
12,288 bytes from its start, check tables and gaps of a transfer of several blocks included. -/
def tilesEnd (a len : Nat) : Nat := (a + len) / 12288 - a / 12288

/-- The DMA engine of the receiving cluster signals the flag that the products of the layer wait on, once for each gathered tile
(R58). DESIGN CHOICE (log entry 117): the flag is an operand. -/
def tileSignal (c : Nat) (r : Recv) (n : Nat) (s : State) : State :=
  if n = 0 then s
  else homeSignal { op := 0x51, home := kDest r.desc / 64, obj := r.flag, count := n, flags := 0, party := ⟨kDest r.desc, 0⟩, ctx := c,
                    epoch := epochOf s (kDest r.desc / 64) c } s

/-- Where the data of a frame of a RECV other than PARTIAL goes: memory, with the gathered tiles signalled, or for a GATHER of a step
that is not open nowhere, with its tiles counted (R57, R58, R675; log entry 107). -/
def placeData (c : Nat) (r : Recv) (i t off : Nat) (bs : List Byte) (s : State) : State :=
  let d := r.desc
  let n := tilesEnd (t * 8192 + off) bs.length
  if kKind d = 0 then s
  else if kKind d = 1 then
    (if (stepOf s c r.step).isNone then
      (if n = 0 then s else setEvt CLUSTER_EV_GATHER_REJ (kDest d) (addF CLUSTER_GATHER_REJ (kDest d) n s))
    else tileSignal c r n (memStore (kDest d / 64) (turnAddr d i t + off) bs s))
  else memStore (kDest d / 64) (turnAddr d i t + off) bs s

/-- A frame of a turn is taken by a transfer; the transfer closes with its last one. A carried transfer needs room in the
carry area, but not in replay (R417, R420). -/
def takeTurn (c : Nat) (r : Recv) (x : Xfer) (t : Nat) (bs : List Byte) (s : State) : State :=
  let old := x.turns.get [] t
  if x.carry ∧ old.isEmpty ∧ !replayOn s c ∧ getFk s COLL_CARRY_SIZE 0 c ≤ carryHeld s c then carryDrop c r x s
  else
    let y := { x with turns := x.turns.put [] t (old ++ bs) }
    let s := modXfer c r.step r.cid x.idx (fun z => { z with turns := y.turns }) s
    let s := if x.carry then carryStore c r x.idx t old.length bs s else placeData c r x.idx t old.length bs s
    if xferFull r.desc y then
      if x.absent then (if x.done = 0 then sendDone c r y s else s) else closeXfer c r y s
    else s

/-- The frames of a step wait until its RECVs are posted. -/
def postsLeft (s : State) (c n : Nat) : Bool := !(ctxOf s c).coll.halted && (ctxOf s c).coll.posts.any fun e => e.1 == n

/-- A turn frame is kept early, delivered, carried, dropped or rejected by the first row of R414 that it matches. -/
def turnFrame (f : Frame) (s : State) : State :=
  let c := f.ctx
  let t := fTurn f
  if stepAbove s c (fStep f) then modColl c (fun x => { x with early := x.early ++ [f] }) s
  else match recvOf s c (fStep f) (fCid f) with
    | some r =>
      let xs := r.xfers.filter fun x => x.src == f.src
      if kRelease r.desc ∨ kTurns r.desc ≤ t then staleRej s
      else match xs.find? fun x => !x.closed && (!x.absent || x.carry) && !turnDone r.desc x t with
        | some x => takeTurn c r x t f.payload s
        | none => if xs.any fun x => turnDone r.desc x t then incr COLL_DUP_TURN 0 s else staleRej s
    | none => staleRej s

/-- A release frame counts towards its RECV of RELEASE (R672). -/
def releaseFrame (f : Frame) (s : State) : State :=
  let c := f.ctx
  if stepAbove s c (fStep f) then modColl c (fun x => { x with early := x.early ++ [f] }) s
  else match recvOf s c (fStep f) (fCid f) with
    | some r =>
      match r.xfers.find? fun x => x.src == f.src with
      | some x => if !kRelease r.desc then staleRej s else if x.closed then incr COLL_DUP_TURN 0 s else closeXfer c r x s
      | none => staleRej s
    | none => staleRej s

/-- A SEND that holds a DONE from every peer completes (R412). -/
def sendEnd (c n cid : Nat) (s : State) : State :=
  match (ctxOf s c).coll.sends.find? fun x => x.step == n && x.cid == cid && !x.fin && x.peers.all (·.2.2) with
  | some x =>
    collBar c x.desc (modColl c (fun y => { y with sends := y.sends.filter fun z => decide (z ≠ x) }) s)
  | none => s

/-- A DONE frame completes a SEND towards its peer; the turns not yet sent to it are dropped (R412). -/
def doneFrame (f : Frame) (s : State) : State :=
  let c := f.ctx
  let hit := fun x : Send => x.step == fStep f && x.cid == fCid f && x.peers.any fun e => e.1 == f.src && !e.2.2
  if stepAbove s c (fStep f) then modColl c (fun x => { x with early := x.early ++ [f] }) s
  else match takeFirst hit (ctxOf s c).coll.sends with
    | some (x, _) =>
      let i := ((x.peers.find? fun e => e.1 == f.src && !e.2.2).map (·.2.1)).getD 0
      let y := { x with
        peers := x.peers.map fun e => if e.2.1 = i then (e.1, e.2.1, true) else e
        left := x.left.filter fun k => k / 65536 != i }
      sendEnd c (fStep f) (fCid f) (modColl c (fun z => { z with sends := z.sends.map fun w => if w = x then y else w }) s)
    | none => staleRej s

/-- A frame of the engine is handled by its TURN. -/
def collFrame (f : Frame) (s : State) : State :=
  if fTurn f = 0xFFFF then doneFrame f s else if fTurn f = 0xFFFE then releaseFrame f s else turnFrame f s

/-- Handle frames in order. -/
def collFrames : List Frame → State → State
  | [], s => s
  | f :: r, s => collFrames r (collFrame f s)

/-- The early frames of steps that are no longer above every open step, and whose RECVs are posted, are matched
(R414). -/
def matchEarly (c : Nat) (s : State) : State :=
  let ready := fun f : Frame => !stepAbove s c (fStep f) && !postsLeft s c (fStep f)
  collFrames ((ctxOf s c).coll.early.filter ready)
    (modColl c (fun x => { x with early := x.early.filter fun f => !ready f }) s)

/-- The first frame of the inbox for the engine that has a TURN of a class and whose step has posted its RECVs. -/
def collInbox (s : State) (p : Nat → Bool) : Option (Frame × List Frame) :=
  takeFirst (fun f => f.engine == 1 && p (fTurn f) && !postsLeft s f.ctx (fStep f)) s.inbox

/-- COLL_TURN_FRAME: the engine takes the next turn frame (R414). -/
def collTurnFrame (s : State) : State :=
  match collInbox s fun t => decide (t < 0xFFFE) with
  | some (f, r) => turnFrame f { s with inbox := r }
  | none => s

/-- COLL_TURN_FRAME. -/
def execCollTurnFrame (s : State) : Host.Outcome State Fault Refusal := .next (awake s (collTurnFrame s))

/-- DONE_FRAME: the engine takes the next DONE frame (R412). -/
def doneFrameTake (s : State) : State :=
  match collInbox s fun t => t == 0xFFFF with
  | some (f, r) => doneFrame f { s with inbox := r }
  | none => s

/-- DONE_FRAME. -/
def execDoneFrame (s : State) : Host.Outcome State Fault Refusal := .next (awake s (doneFrameTake s))

/-- RELEASE_FRAME: the engine takes the next release frame (R672). -/
def releaseFrameTake (s : State) : State :=
  match collInbox s fun t => t == 0xFFFE with
  | some (f, r) => releaseFrame f { s with inbox := r }
  | none => s

/-- RELEASE_FRAME. -/
def execReleaseFrame (s : State) : Host.Outcome State Fault Refusal := .next (awake s (releaseFrameTake s))

/-- A frame waits at the head of a port's queue for a place in a full early area. -/
def earlyWaits (s : State) : Bool :=
  (List.range 24).any fun p => match (portOf s p).rxq with
    | f :: _ => headAct s f == .full
    | [] => false

/-- Some context's early area is full. -/
def earlyAnyFull (s : State) : Bool := (List.range 16).any fun c => decide (256 ≤ (earlyPlaces s c).length)

/-- EARLY_AREA_ADMIT: `hclk` have passed since the last count; they are counted when the area is full, and frames that wait for
a place go on once one is free (R414, R436). -/
def earlyAreaAdmit (hclk : Nat) (s : State) : State :=
  let s := if earlyAnyFull s then addF COLL_EARLY_HCLK 0 hclk s else s
  if earlyWaits s then s else drainAll s

/-- EARLY_AREA_ADMIT. -/
def execEarlyAreaAdmit (hclk : Nat) (s : State) : Host.Outcome State Fault Refusal := .next (awake s (earlyAreaAdmit hclk s))

/-! ## Posting (R414) -/

/-- The replayed CONTRIB record of a collective: its ABSENT and CARRIED masks; 0 where there is none (R419, R420). -/
def contribOf (s : State) (c step cid : Nat) : Nat × Nat :=
  match rplFind s c 0x30 fun p => pay p 0 4 == step && pay p 4 2 == cid with
  | some p => (pay p 6 1, pay p 7 1)
  | none => (0, 0)

/-- A transfer of a posted RECV: a RELEASE from a position that is not there counts as given, and a source is absent that the replayed
journal names. -/
def newXfer (s : State) (c : Nat) (r : Recv) (e : Nat × Nat × Option Nat) : Xfer :=
  let x : Xfer := { src := e.2.2.getD 65535, pos := e.2.1, idx := e.1 }
  if kKind r.desc = 0 ∧ replayOn s c ∧ (contribOf s c r.step r.cid).1.testBit e.2.1 then { x with absent := true, carry := true }
  else if e.2.2.isNone then { x with closed := true, done := 2 }
  else x

/-- The RECV of a descriptor. A stand-in has no transfer from the position it stands for: it adds that partial itself. -/
def newRecv (s : State) (c : Nat) (st : Step) (d : List Byte) (flag k : Nat) : Recv :=
  let m := if kKind d = 0 then (readMap s d).getD (0, []) else (0, [])
  let served := kKind d == 0 && !m.2.isEmpty && isF s COLL_DEGRADE_SERVING 0 && m.2.all fun g => (twinIndex s g).isSome
  let ps := (peersOf s st d false served k).filter fun e => !(kKind d == 0 && e.2.2.isNone)
  let r : Recv := { step := st.step, cid := kCid d, desc := d, mb := m.1, gbis := m.2,
                    lexp := pay st.raw 4 1, flag := flag, xfers := [] }
  { r with xfers := ps.map (newXfer s c r) }

/-! ## Sending -/

/-- Release frames go to every peer that has not answered (R672). -/
def sendReleasesTo (c : Nat) (d : List Byte) : List (Nat × Nat × Bool) → State → State
  | [], s => s
  | (dst, _, done) :: r, s =>
    sendReleasesTo c d r (if done then s else sendMark c dst (kCid d) (kStep d) 0xFFFE (kBudget d) s)

/-- Every turn of a SEND, as index × 65,536 + turn. -/
def allTurns (d : List Byte) (peers : List (Nat × Nat × Bool)) : List Nat :=
  peers.flatMap fun e => (List.range (kTurns d)).map fun t => e.2.1 * 65536 + t

/-- The blocks of a step whose weights a turn of a GATHER reads. -/
def turnBlks (s : State) (st : Step) (d : List Byte) (k : Nat) : List Blk :=
  st.blks.filter fun b => wgtOverlap s b (turnAddr d (k / 65536) (k % 65536)) (turnLen d (k % 65536))

/-- The layer release that a GATHER of step `n` waits for holds (R56, R672): no step n − 1 was opened in the context, or the
RECV of RELEASE of step n − 1 has completed. -/
def relHolds (s : State) (c : Nat) (d : List Byte) : Bool :=
  let x := ctxOf s c
  let n := kStep d
  let opened := match x.first, x.last with
    | some a, some b => decide (a + 1 ≤ n ∧ n ≤ b + 1)
    | _, _ => false
  !opened || x.coll.rels.contains (n - 1, kRel d)

/-- A block may be gathered for step `n`: its Tidemark is n − 1. -/
def gatherReady (s : State) (d : List Byte) (b : Blk) : Bool := recGet s b 24 4 + 1 == kStep d

/-- A SEND in the engine's Sluice, by the STEP of its list and its COLL_ID. -/
def sendKey (n : Nat) (d : List Byte) : Nat := n * 65536 + kCid d

/-! ### Transport encoding (R132 to R134) -/

/-- TE of a tile (R132). -/
def tileTE (t : Mat) : Int :=
  match Mat.top t with
  | none => -128
  | some x => max (-128) (x - 14)

/-- The FP16 elements of a tile under its exponent; an infinity keeps its sign and a NaN travels as 0x7E00 (R132, R133). -/
def tileFp16 (t : Mat) : List Nat := (t.flatMap id).map fun v => fmtFP16.enc (v.scale (-tileTE t))

/-- A partial in the layout of R134: the exponents, padded to 64 bytes, and then the FP16 tiles. -/
def partialBytes (ts : List Mat) : List Byte :=
  let te := ts.flatMap fun t => leBytes 1 (twos 8 (tileTE t))
  te ++ zeros (pad64 ts.length - ts.length) ++ ts.flatMap fun t => (tileFp16 t).flatMap (leBytes 2)

/-- The sending DMA engine of die `die` encodes the `n` FP32 tiles at `src` for transport and writes the partial at `dst`; tiles that
cannot be read leave it as it is. DESIGN CHOICE (log entry 117): the places are operands. -/
def encodePart (die src dst n : Nat) (s : State) : State :=
  match loadTiles die 3 src 16384 0 n s with
  | (.ok ts, s) => memStore die dst (partialBytes (ts.map (tileMat fmtFP32 4))) s
  | (.error _, s) => s

/-- The partials of a SEND that its sending DMA engines encode before the engine reads them (R132). -/
def encodeParts : List PartEnc → State → State
  | [], s => s
  | e :: es, s => encodeParts es (encodePart e.die e.src e.dst e.n s)

/-! ### Starting -/

/-- The peers of a starting SEND, with those to which it counts as done: there is nobody, or the position is lost (R427). -/
def sendPeers (s : State) (st : Step) (d : List Byte) (k : Nat) : List (Nat × Nat × Bool) :=
  (peersOf s st d true (gatherServed s st d) k).map fun e =>
    (e.2.2.getD 65535, e.1, e.2.2.isNone || (!kPipe d && lostInStep s st e.2.1))

/-- The turns of a GATHER that wait: those that hold blocks, and every turn while the layer release does not hold yet (DEDUCED for a turn
that holds no block). -/
def gatherHeld (s : State) (c : Nat) (st : Step) (d : List Byte) (all : List Nat) : List Nat :=
  if kKind d = 1 then all.filter fun k => !relHolds s c d || !(turnBlks s st d k).isEmpty else []

/-- The SEND starts: its release frames or its first `room` turns go out, and the others are still to be sent. -/
def sendFirst (c room : Nat) (st : Step) (d : List Byte) (peers : List (Nat × Nat × Bool)) (rest : List (Nat × List Byte)) (s : State) :
    State :=
  let all := if kRelease d then [] else allTurns d peers
  let held := gatherHeld s c st d all
  let free := all.filter fun k => !held.contains k
  let s' := if kRelease d then sendReleasesTo c d peers s else s
  match sendTurns c d peers (free.take room) s' with
  | none => s
  | some s =>
    sendEnd c st.step (kCid d) (modColl c (fun x => { x with
      list := rest
      sends := x.sends ++ [{ step := st.step, cid := kCid d, desc := d, peers := peers, left := held ++ free.drop room }] }) s)

/-- A SEND of a kind other than GATHER that has turns still to send. -/
def sendOpen (s : State) (c : Nat) : Option Send := (ctxOf s c).coll.sends.find? fun x => kKind x.desc != 1 && !x.left.isEmpty

/-- The next `room` turns of a SEND that has started go out. -/
def sendMore (c room : Nat) (x : Send) (s : State) : State :=
  match sendTurns c x.desc x.peers (x.left.take room) s with
  | none => s
  | some s => modColl c (fun z => { z with sends := z.sends.map fun w =>
      if w = x then { x with left := x.left.drop room } else w }) s

/-- SEND: the engine goes on with the SEND of the context that has turns to send, or starts the one at the head of the list, whose
partials the sending DMA engines encode as `enc` says. `room` turns go out now; GATHER's blocks wait for GATHER_BLOCK_SEND. An invalid
descriptor halts the list; a SEND that the engine's Sluice has not granted, or whose data cannot be read, stays at the head (R132, R366,
R410, R412, R414). `k` names the stretch of a pipeline transfer (R428). -/
def sendStart (c room k : Nat) (enc : List PartEnc) (s : State) : State :=
  if !collRuns s c || collPaused s c then s
  else match sendOpen s c with
    | some x => sendMore c room x s
    | none =>
      match (ctxOf s c).coll.list with
      | (n, d) :: rest =>
        if bits (dw d 0) 4 4 == 5 then s
        else match collStep s c n with
          | none => s
          | some st =>
            let code := collCode s c st d
            if code ≠ 0 then collHalt c code s
            else if !hubGranted s 536 c (sendKey n d) then s
            else sendFirst c room st d (sendPeers s st d k) rest
              (encodeParts (if kKind d = 0 then enc else []) (hubTake 536 c (sendKey n d) s))
      | [] => s

/-- SEND. -/
def execSend (c : SendWork) (s : State) : Host.Outcome State Fault Refusal :=
  .next (awake s (sendStart c.ctx c.room c.k c.enc s))

/-- GATHER_BLOCK_SEND: the turns of block `g` in the GATHER with COLL_ID `cid` of step `n` are sent once the layer release holds and
every block that they hold is ready (R56, R672); turns that hold no block go with them. -/
def gatherBlockSend (c n cid g : Nat) (s : State) : State :=
  match collStep s c n, (ctxOf s c).coll.sends.find? fun x => kKind x.desc == 1 && x.step == n && x.cid == cid && !x.left.isEmpty with
  | some st, some x =>
    let now := x.left.filter fun k =>
      let bs := turnBlks s st x.desc k
      relHolds s c x.desc && (bs.isEmpty || bs.any (fun b => b.gbi == g)) && bs.all (gatherReady s x.desc)
    if !isF s COLL_CTRL_EN 0 || collPaused s c || now.isEmpty then s
    else match sendTurns c x.desc x.peers now s with
      | none => s
      | some s => modColl c (fun z => { z with sends := z.sends.map fun w =>
          if w = x then { x with left := x.left.filter fun k => !now.contains k } else w }) s
  | _, _ => s

/-- GATHER_BLOCK_SEND. -/
def execGatherBlockSend (c n cid g : Nat) (s : State) : Host.Outcome State Fault Refusal := .next (awake s (gatherBlockSend c n cid g s))

/-! ## Stragglers (R416, R417) -/

/-- Sources of a RECV that are absent, by position. -/
def absentMask (r : Recv) : Nat := r.xfers.foldl (fun a x => if x.absent then a ||| 2 ^ x.pos else a) 0

/-- A source is absent from a collective: its data is carried under ADD_NEXT while the area has room for what has already
arrived, and is otherwise dropped with DONE (R416, R417). -/
def markAbsent (c n cid i : Nat) (s : State) : State :=
  match recvOf s c n cid with
  | none => s
  | some r =>
    match r.xfers.find? fun x => x.idx == i with
    | none => s
    | some x =>
      let add := getFk s COLL_POLICY 0 c == 1
      let y := { x with absent := true, carry := add, turns := if add then x.turns else [] }
      let s := setEvt COLL_EV_ABSENT 0 (incr COLL_ABSENT_SRC 0 (modXfer c n cid i (fun _ => y) s))
      if !add then sendDone c r y s
      else if getFk s COLL_CARRY_SIZE 0 c < carryHeld s c then carryDrop c r y s
      else carryStores c n cid i y.turns s

/-- Several sources of a RECV are absent; LAST_ABSENT names the collective's absent sources. -/
def markAbsents (c n cid : Nat) : List Nat → State → State
  | [], s =>
    match recvOf s c n cid with
    | some r => setF COLL_LAST_ABSENT_COLL_ID 0 cid (setF COLL_LAST_ABSENT_ABSENT 0 (absentMask r) s)
    | none => s
  | i :: is, s => markAbsents c n cid is (markAbsent c n cid i s)

/-- Indexes of the transfers of a RECV that have neither closed nor been declared absent. -/
def openXfers (r : Recv) : List Nat := (r.xfers.filter fun x => !x.closed && !x.absent).map (·.idx)

/-- STRAGGLER_DEADLINE: the deadline of a RECV of PARTIAL passes, COLL.STRAG.US after its first transfer closed (R416). It
plays no part in replay (R420). -/
def stragglerDeadline (c n cid : Nat) (s : State) : State :=
  match recvOf s c n cid with
  | none => s
  | some r =>
    if kKind r.desc ≠ 0 ∨ getFk s COLL_STRAG 0 c = 0 ∨ replayOn s c ∨ !(r.xfers.any (·.closed)) ∨ openXfers r = [] then s
    else recvEnd c n cid (markAbsents c n cid (openXfers r) s)

/-- STRAGGLER_DEADLINE. -/
def execStragglerDeadline (c n cid : Nat) (s : State) : Host.Outcome State Fault Refusal := .next (running s (stragglerDeadline c n cid s))

/-! ## Posting (R414, R427) -/

/-- Transfers of a RECV from the lost position `k` of the own board end: absent for a PARTIAL, given for a RELEASE (R427). -/
def lossRecv (c k : Nat) (r : Recv) (s : State) : State :=
  match r.xfers.find? fun x => x.pos == k && x.src == ownBoard s * 8 + k && !x.closed && !x.absent with
  | none => s
  | some x =>
    if kKind r.desc = 0 ∧ !replayOn s c then recvEnd c r.step r.cid (markAbsents c r.step r.cid [x.idx] s)
    else if kRelease r.desc then
      recvEnd c r.step r.cid (modXfer c r.step r.cid x.idx (fun y => { y with closed := true, done := 2 }) s)
    else s

/-- A RECV that is posted in a step which was open at a loss meets that loss at once (R427). -/
def lossNew (c : Nat) (st : Step) (r : Recv) (s : State) : State :=
  let k := getF s COLL_DEGRADE_LOST_POS 0
  if lostInStep s st k then lossRecv c k r s else s

/-- A RECV leaves the list of those to be posted. -/
def postRecv (c : Nat) (rest : List (Nat × List Byte)) (r : Recv) (s : State) : State :=
  modColl c (fun x => { x with posts := rest, recvs := x.recvs ++ [r] }) s

/-- RECV: the engine posts the next RECV of a context's list; an invalid one halts the list (R410, R414). `flag` is the counting flag
that the receiving DMA engine signals for gathered tiles, and `k` the stretch of a pipeline transfer. -/
def recvPost (c flag k : Nat) (s : State) : State :=
  match (ctxOf s c).coll.posts with
  | (n, d) :: rest =>
    if !isF s COLL_CTRL_EN 0 || (ctxOf s c).coll.halted || collPaused s c then s
    else match collStep s c n with
      | none => s
      | some st =>
        let code := collCode s c st d
        if code ≠ 0 then collHalt c code s
        else
          let r := newRecv s c st d flag k
          matchEarly c (recvEnd c n (kCid d) (lossNew c st r (postRecv c rest r s)))
  | [] => s

/-- RECV. -/
def execRecv (c : RecvWork) (s : State) : Host.Outcome State Fault Refusal := .next (awake s (recvPost c.ctx c.flag c.k s))

/-! ## Pause and retry (R422, R423) -/

/-- Send every DONE of a context that is due. -/
def sendDues (c : Nat) : List (Recv × Xfer) → State → State
  | [], s => s
  | (r, x) :: es, s => sendDues c es (sendDone c r x s)

/-- The DONEs of a context that are due. -/
def duesOf (s : State) (c : Nat) : List (Recv × Xfer) :=
  (ctxOf s c).coll.recvs.flatMap fun r => (r.xfers.filter fun x => x.done == 1).map fun x => (r, x)

/-- Send again the turns that can be read. -/
def resendTurns (c : Nat) (d : List Byte) (dst i : Nat) : List Nat → State → State
  | [], s => s
  | t :: ts, s => resendTurns c d dst i ts ((sendTurn c dst i t d s).getD s)

/-- Resend a SEND's turns to each peer without DONE, and count the transfers (R423). -/
def retryPeers (c : Nat) (x : Send) : List (Nat × Nat × Bool) → State → State
  | [], s => s
  | (_, _, true) :: r, s => retryPeers c x r s
  | (dst, i, false) :: r, s =>
    let s := if kRelease x.desc then sendMark c dst x.cid x.step 0xFFFE (kBudget x.desc) s
      else resendTurns c x.desc dst i ((List.range (kTurns x.desc)).filter fun t => !x.left.contains (i * 65536 + t)) s
    retryPeers c x r (setEvt COLL_EV_RETRY 0 (incr COLL_RETRY_XFER 0 s))

/-- Retry the SENDs of a context. -/
def retrySends (c : Nat) : List Send → State → State
  | [], s => s
  | x :: r, s => retrySends c r (retryPeers c x x.peers s)

/-- The pause of a context ends. -/
def unpause (c : Nat) (s : State) : State := retrySends c (ctxOf s c).coll.sends (sendDues c (duesOf s c) s)

/-- The pauses of the contexts below `n` that a write clears end. -/
def unpauses (old v : Nat) : Nat → State → State
  | 0, s => s
  | n + 1, s =>
    let s := unpauses old v n s
    if old.testBit n && !v.testBit n then unpause n s else s

/-- CTX_PAUSE: a write of COLL.CTX_PAUSE; contexts whose bit it clears retry their collectives (R422, R423). -/
def ctxPause (r : Requester) (a v : Nat) (s : State) : State :=
  if a % 4 = 0 then
    guarded r a (fun t _ o s =>
      if t = 8 ∧ o = 0x280 then
        unpauses (getF s COLL_CTX_PAUSE 0) (v % 65536) 16 (setF COLL_CTX_PAUSE 0 (v % 65536) s)
      else s) s
  else s

/-- CTX_PAUSE. -/
def execCtxPause (r : Requester) (a v : Nat) (s : State) : Host.Outcome State Fault Refusal := .next (ctxPause r a v s)

/-! ## The topology command (R389, R390, R432, R525) -/

/-- The ROLE of an entry's word. -/
def topoRole (e : List Byte) : Nat := bits (pay e 8 4) LINK_TOPO_PEER_ROLE.lo LINK_TOPO_PEER_ROLE.w

/-- A port takes the ROLE of an entry: it is 0 or the port's role (R403). -/
def roleTaken (p : Nat) (e : List Byte) : Bool := topoRole e == 0 || topoRole e == portRole p

/-- An entry is written to a port; a ROLE other than 0 or the port's role is ignored (R403). -/
def setTopo (p : Nat) (e : List Byte) (s : State) : State :=
  let w := pay e 8 4
  let s := setF LINK_TOPO_SER_LO p (pay e 0 4) (setF LINK_TOPO_SER_HI p (pay e 4 4) s)
  let f := fun (g : Fld) s => setF g p (bits w g.lo g.w) s
  let s := if roleTaken p e then setF LINK_TOPO_PEER_ROLE p (topoRole e) s else s
  leaveOff p (f LINK_TOPO_PEER_BOARD (f LINK_TOPO_PEER_POS (f LINK_TOPO_PEER_PORT s)))

/-- Write the entries of ports `p` on. -/
def setTopos : Nat → List (List Byte) → State → State
  | _, [], s => s
  | p, e :: r, s => setTopos (p + 1) r (setTopo p e s)

/-- The registers of a port hold an entry's serial number and peer. -/
def topoPeerSame (s : State) (p : Nat) (e : List Byte) : Bool :=
  let w := pay e 8 4
  let same := fun (g : Fld) => getF s g p == bits w g.lo g.w
  getF s LINK_TOPO_SER_LO p == pay e 0 4 && getF s LINK_TOPO_SER_HI p == pay e 4 4 && same LINK_TOPO_PEER_BOARD &&
    same LINK_TOPO_PEER_POS && same LINK_TOPO_PEER_PORT

/-- The registers of a port hold an entry. -/
def topoSame (s : State) (p : Nat) (e : List Byte) : Bool := topoPeerSame s p e && getF s LINK_TOPO_PEER_ROLE p == topoRole e

/-- The table differs from the one that another context has loaded. -/
def topoConflict (s : State) (c : Nat) (bs : List Byte) : Bool :=
  let es := chunks 16 24 (bs.drop 16)
  (List.range 16).any (fun k => k != c && (ctxOf s k).topo) &&
    (getF s LINK_SELF_BOARD 0 != bits (pay bs 0 2) 0 9 || (es.zipIdx.any fun e => !topoSame s e.2 e.1))

/-- A context's streams start again at both ends, and turns of which frames may be lost start again (R390, R423). -/
def freshStreams (c : Nat) (s : State) : State :=
  let s := detourEnds 24 { s with
    txStreams := s.txStreams.filter fun e => e.1 / 32 % 16 != c
    rxStreams := s.rxStreams.filter fun e => e.1 / 32 % 16 != c }
  modColl c (fun x => { x with recvs := x.recvs.map fun r => { r with xfers := r.xfers.map fun y =>
    { y with turns := y.turns.filter fun e => decide (turnLen r.desc e.1 ≤ e.2.length) } } }) s

/-- TOPO_LOAD: the table is loaded while no step of the context is open (R432) and no other context's table differs. -/
def topoLoad (h : Nat) (s : State) : State :=
  runCmd h 0x40 (fun e s =>
    let c := argOf e 0 % 16
    if stepIsOpen s c then report h 0x08 0 0 s
    else cmdRead h 5 (argOf e 1) 400 (fun bs s =>
      if topoConflict s c bs then report h 0x0F 0 0 s
      else
        let s := setF LINK_SELF_BOARD 0 (bits (pay bs 0 2) 0 9) s
        let s := setTopos 0 (chunks 16 24 (bs.drop 16)) s
        report h 0 0 0 (modCtx c (fun x => { x with topo := true }) (freshStreams c s))) s) s

/-- TOPO_LOAD. -/
def execTopoLoad (h : Nat) (s : State) : Host.Outcome State Fault Refusal := .next (awake s (topoLoad h s))

/-! ## Releases (R358) -/

/-- RELEASE_RECEIVE: the oldest release on its way reaches the sync node of its cluster, or the collective engine. -/
def releaseReceive (s : State) : State :=
  match s.releases with
  | [] => s
  | r :: rest =>
    let s := { s with releases := rest }
    if r.party.cluster = 256 then collRelease r.party.lst r.status s
    else clusterRelease r.party.cluster r.party.lst r.status s

/-- RELEASE_RECEIVE. -/
def execReleaseReceive (s : State) : Host.Outcome State Fault Refusal := .next (running s (releaseReceive s))

end Sys2Proof.Machine
end

