-- ==== Sys2Proof/Machine/Culvert.lean ====
section
/-! DEFINITION. Culvert mirroring: twin records and check areas, frames, transfers and their checks at the twin, closes and
acknowledgements, audits, fetches and suspect blocks (R438 to R457). -/

namespace Sys2Proof.Machine

/-! ## Twin and owned blocks (R438, R439) -/

/-- CULVERT.CFG.CTX, the mirrored context. -/
def culCtx (s : State) : Nat := getF s CULVERT_CFG_CTX 0

/-- A twin record as a block; the hub reads it. -/
def twinAt (s : State) (i : Nat) : Blk :=
  let lat := match memRead s 0 (twinRecAddr s i) 24 with
    | .data bs => bs
    | _ => []
  { gbi := lGbi lat, cl := 0, addr := twinRecAddr s i, lat := lat }

/-- The twin record of a GBI, with its index. -/
def twinBlk (s : State) (g : Nat) : Option (Nat × Blk) := (twinIndex s g).map fun i => (i, twinAt s i)

/-- The owned block of a GBI that is not in the twin table. -/
def ownedBlk (s : State) (g : Nat) : Option Blk :=
  if (twinIndex s g).isSome then none else s.cul.owned.find? fun b => b.gbi == g

/-- The twin is declared lost (R426, R457). -/
def twinLost (s : State) : Bool :=
  if ownBoard s % 2 = 0 then isF s COLL_DEGRADE_NEXT_ACTIVE 0 && getF s COLL_DEGRADE_NEXT_POS 0 == ownPos s
  else isF s COLL_DEGRADE_PREV_ACTIVE 0 && getF s COLL_DEGRADE_PREV_POS 0 == ownPos s

/-- The check area of twin record `i`. -/
def chkArea (s : State) (i : Nat) : Nat := mval s 0 (getF s CULVERT_TCHK_BASE 0 * 256 + 8 * i) 8 % 2 ^ 40

/-- The flags of a check area: VALID_W, VALID_F, VALID_R, then TRANSIT_W, TRANSIT_F, TRANSIT_R. -/
def chkFlags (s : State) (i : Nat) : Nat := mval s 0 (chkArea s i) 1

/-- Set and clear flags of a check area. -/
def setChkFlags (i set clr : Nat) (s : State) : State :=
  memStore 0 (chkArea s i) (leBytes 1 ((chkFlags s i ||| set) &&& (255 - clr))) s

/-- Place of the flag of a transfer group 8, 9 or 10: 0, 1 or 2. -/
def grpBit (grp : Nat) : Nat := grp - 8

/-- Address of entry `e` of an incoming table (R439). -/
def incAddr (s : State) (i : Nat) (b : Blk) (grp e : Nat) : Nat :=
  let n := lTiles b.lat
  chkArea s i + 64 + (if grp = 8 then 0 else if grp = 9 then 4 * n else 4 * n + 8 * lF b.lat) + 4 * e

/-- Address of the stored check value of tile `t` of a buffer: the weight table, or the adopted table (R439, R451). -/
def storedAddr (s : State) (i : Nat) (b : Blk) (kind t : Nat) : Nat :=
  let n := lTiles b.lat
  if kind = 1 then wgtAddr s b + 12288 * n + 4 * t
  else chkArea s i + 64 + 4 * n + 12 * lF b.lat + 4 * lF b.lat * (kind - 2) + 4 * t

/-- The transfer group of a buffer's KIND. -/
def kindGrp (kind : Nat) : Nat := if kind = 1 then 8 else if kind < 4 then 9 else 10

/-- Entries of an incoming table. -/
def grpEntries (b : Blk) (grp : Nat) : Nat := if grp = 8 then lTiles b.lat else if grp = 9 then 2 * lF b.lat else lF b.lat

/-- The entry of a tile in its incoming table. -/
def entryIdx (b : Blk) (kind t : Nat) : Nat := if kind = 3 then lF b.lat + t else t

/-- Length in whole 32-byte units (R376). -/
def pad32 (n : Nat) : Nat := (n + 31) / 32 * 32

/-- The tile of a buffer that an offset lies in; the stored table of the weights counts as one tile after the last. -/
def offTile (b : Blk) (kind off : Nat) : Nat :=
  if kind = 1 then min (lTiles b.lat) (off / 12288) else off / tileBytes kind

/-- Bytes of a tile in transit. -/
def tileLen (b : Blk) (kind t : Nat) : Nat :=
  if kind = 1 ∧ t = lTiles b.lat then pad32 (4 * t) else tileBytes kind

/-! ## Frames (R442, R443) -/

/-- GBI of a Culvert frame. -/
def uGbi (f : Frame) : Nat := bits f.engHdr 0 32
/-- KIND. -/
def uKind (f : Frame) : Nat := bits f.engHdr 32 4
/-- AUD. -/
def uAud (f : Frame) : Bool := bit f.engHdr 36
/-- OFFSET in bytes. -/
def uOff (f : Frame) : Nat := bits f.engHdr 37 27 * 32

/-- A Culvert frame to the twin. -/
def culFrame (s : State) (g kind : Nat) (aud : Bool) (off : Nat) (payload : List Byte) : Frame :=
  dataFrame (twinId s) (culCtx s) 2 (g % two32 + kind % 16 * two32 + b2n aud * 2 ^ 36 + off / 32 * 2 ^ 37)
    (getF s COLL_FRAME_BUDGET_CULVERT 0) payload

/-- Frames of up to 512 bytes that carry data from an offset on. -/
def culData (s : State) (g kind : Nat) (aud : Bool) (off : Nat) (bs : List Byte) : List Frame :=
  (chunks 512 bs.length bs).zipIdx.map fun e => culFrame s g kind aud (off + 512 * e.2) e.1

/-- A 32-byte payload of numbers of given lengths. -/
def pl32 (fs : List (Nat × Nat)) : List Byte :=
  let bs := fs.flatMap fun e => leBytes e.1 e.2
  bs ++ zeros (32 - bs.length)

/-- A table of check values, padded with zeros to whole units. -/
def tableBytes (t : List Nat) : List Byte :=
  let bs := t.flatMap (leBytes 4)
  bs ++ zeros (pad32 bs.length - bs.length)

/-- Send frames to the twin over the Culvert members, the OPEN of their transfer first on each member that carries any. -/
def culSend (opn : Option Frame) (fs : List Frame) (s : State) : State :=
  let ms := membersTo s 2 (twinId s)
  if ms.isEmpty then s
  else
    let s := match opn with
      | some f => sendEach (ms.take ((fs.length + 15) / 16)) f s
      | none => s
    spreadFrames ms 0 fs s
where
  /-- One frame on each member. -/
  sendEach : List Nat → Frame → State → State
    | [], _, s => s
    | p :: r, f, s => sendEach r f (queueFrame p f s)

/-- An OPEN frame. -/
def culOpen (s : State) (g grp stamp : Nat) (aud : Bool) : Frame := culFrame s g 0xF aud 0 (pl32 [(4, grp), (4, stamp)])

/-- MIRROR_EVT (R456). -/
def mirrorEvt (g kind buf tile : Nat) (s : State) : State :=
  jrnCtx (culCtx s) 0x41 srcHub
    (leBytes 4 (wideStep s) ++ leBytes 4 g ++ leBytes 1 (kind + 16 * buf) ++ zeros 3 ++ leBytes 4 tile) s

/-! ## Suspect blocks (R454) -/

/-- A block is suspect. -/
def isSuspect (s : State) (g : Nat) : Bool := s.cul.suspects.any fun x => x.gbi == g

/-- SUSPECT and SUSPECT_INFO show the first suspect block that is not resolved. -/
def showSuspect (s : State) : State :=
  let x := s.cul.suspects.headD { gbi := 0, buf := 0, outcome := 0, tile := 0 }
  setF CULVERT_SUSPECT 0 x.gbi (setF CULVERT_SUSPECT_INFO_BUF 0 x.buf
    (setF CULVERT_SUSPECT_INFO_OUTCOME 0 x.outcome (setF CULVERT_SUSPECT_INFO_TILE 0 x.tile s)))

/-- An outcome 3 DIVERGED or 4 LOST makes a block suspect. -/
def markSuspect (g buf outcome tile : Nat) (s : State) : State :=
  let s := setEvt (if outcome = 3 then CULVERT_EV_DIVERGED else CULVERT_EV_LOST) 0 s
  if isSuspect s g then s
  else showSuspect (incr CULVERT_SUSPECT_CNT 0 { s with cul := { s.cul with
    suspects := s.cul.suspects ++ [{ gbi := g, buf := buf, outcome := outcome, tile := tile }] } })

/-- A tile of an owned block is lost (R444, R453). -/
def tileLost (g kind tile : Nat) (s : State) : State := markSuspect g kind 4 tile (mirrorEvt g 4 kind tile s)

/-! ## Fetching (R453) -/

/-- The owner's stamp for a buffer. -/
def kindStamp (s : State) (b : Blk) (kind : Nat) : Nat := recGet s b (if kind = 1 then 24 else if kind < 4 then 28 else 32) 4

/-- The fetch of a tile. -/
def fetchOf (s : State) (g kind tile : Nat) : Option Fetch :=
  s.cul.fetches.find? fun x => x.gbi == g && x.kind == kind && x.tile == tile

/-- Remove the fetch of a tile. -/
def dropFetch (g kind tile : Nat) (s : State) : State :=
  { s with cul := { s.cul with fetches := s.cul.fetches.filter fun x => !(x.gbi == g && x.kind == kind && x.tile == tile) } }

/-- The owner sends FETCH for a tile, once while the answer is out; with the twin lost the tile is lost. -/
def fetchSend (b : Blk) (kind tile : Nat) (take : Bool) (s : State) : State :=
  if (fetchOf s b.gbi kind tile).isSome || (ownedBlk s b.gbi).isNone then s
  else if twinLost s then tileLost b.gbi kind tile s
  else culSend none [culFrame s b.gbi 0xE false 0 (pl32 [(4, kind), (4, tile), (4, kindStamp s b kind)])]
    { s with cul := { s.cul with fetches := s.cul.fetches ++
      [{ gbi := b.gbi, kind := kind, tile := tile, asked := true, take := take }] } }

/-- A read of tiles of an owned block: its failure sends FETCH when an access was uncorrectable, and the reader waits. -/
def ownedTiles (b : Blk) (kind k n : Nat) (s : State) : Option (List (List Byte)) × State :=
  match loadTiles (dieOf b.cl) 0 (bufAddr s b kind) (tileBytes kind) k n s with
  | (.ok ts, s) => (some ts, s)
  | (.error (t, true), s) => (none, fetchSend b kind t false s)
  | (.error (_, false), s) => (none, s)

/-! ## Transfers at the twin (R444, R445) -/

/-- A transfer at the twin. -/
def xferAt (s : State) (g grp : Nat) (aud : Bool) : Option CulXfer :=
  s.cul.xfers.find? fun x => x.gbi == g && x.grp == grp && x.aud == aud

/-- Replace a transfer, or start it. -/
def putXfer (x : CulXfer) (s : State) : State :=
  { s with cul := { s.cul with
    xfers := (s.cul.xfers.filter fun y => !(y.gbi == x.gbi && y.grp == x.grp && y.aud == x.aud)) ++ [x] } }

/-- Remove a transfer. -/
def delXfer (x : CulXfer) (s : State) : State :=
  { s with cul := { s.cul with
    xfers := s.cul.xfers.filter fun y => !(y.gbi == x.gbi && y.grp == x.grp && y.aud == x.aud) } }

/-- Key of a tile within a transfer. -/
def tileKey (kind t : Nat) : Nat := kind * two32 + t

/-- An ACK to the owner (R446). -/
def culAck (g stamp grp status : Nat) (s : State) : State :=
  incr CULVERT_ACKS 0 (culSend none [culFrame s g 0xB false 0 (pl32 [(4, stamp), (1, grp), (1, status)])] s)

/-- A transfer ends at RESEND_LIMIT: its VALID bit is cleared and it is acknowledged with FAIL (R444). -/
def xferFails (i : Nat) (x : CulXfer) (kind t : Nat) (s : State) : State :=
  let s := mirrorEvt x.gbi 6 kind t (setEvt CULVERT_EV_MIRROR_FAIL 0 (setChkFlags i 0 (2 ^ grpBit x.grp) s))
  culAck x.gbi x.stamp x.grp 1 (putXfer { x with failed := true, parts := [], wait := [] } s)

/-- A tile fails its check: NACK, or the end of the transfer after RESEND_LIMIT resends. -/
def tileFails (i : Nat) (x : CulXfer) (kind t : Nat) (s : State) : State :=
  let n := x.fails.get 0 (tileKey kind t) + 1
  if getF s CULVERT_CFG_RESEND_LIMIT 0 < n then xferFails i x kind t s
  else
    let s := putXfer { x with fails := x.fails.put 0 (tileKey kind t) n } s
    setEvt CULVERT_EV_NACK 0 (incr CULVERT_NACKS 0
      (culSend none [culFrame s x.gbi 0xC false 0 (pl32 [(4, kind), (4, t)])] s))

/-- The words of the stored weight table that a transfer brought equal its incoming table. -/
def tableMatches (b : Blk) (x : CulXfer) (bs : List Byte) : Bool :=
  (List.range (lTiles b.lat)).all fun t => x.tab.find t == some (pay bs (4 * t) 4)

/-- The twin notes a tile that it has written in every open dip window, with the entry it was checked against (R572). -/
def dipTile (i : Nat) (b : Blk) (kind t v : Nat) (s : State) : State :=
  { s with pow := { s.pow with dips := s.pow.dips.map fun d => { d with tiles := d.tiles ++ [(i, b, kind, t, v)] } } }

/-- A complete tile of a commit or publication is checked once its entry is there (R444). -/
def checkMirror (i : Nat) (b : Blk) (x : CulXfer) (kind t : Nat) (bs : List Byte) (s : State) : State :=
  let key := tileKey kind t
  let isTab := kind == 1 && t == lTiles b.lat
  let ready := if isTab then (List.range (lTiles b.lat)).all fun e => (x.tab.find e).isSome
    else (x.tab.find (entryIdx b kind t)).isSome
  if !ready then putXfer { x with wait := x.wait.put [] key bs } s
  else
    let ok := if isTab then tableMatches b x bs else x.tab.find (entryIdx b kind t) == some (crc32c bs)
    let y := { x with wait := x.wait.del key }
    if ok then
      putXfer { y with fails := y.fails.del key, passed := if y.passed.contains key then y.passed else y.passed ++ [key] }
        (if isTab then s else dipTile i b kind t (crc32c bs) s)
    else tileFails i y kind t s

/-! ## Audits at the twin (R449 to R453) -/

/-- Rewrite a stored table entry of the twin from the data (R452, code 0). -/
def fixEntry (a v : Nat) (s : State) : State := incr CULVERT_TABLE_FIX 0 (memStore 0 a (leBytes 4 v) s)

/-- The owner's entry of a weight tile that fails is sent back rewritten, with its neighbours in the 32-byte unit. -/
def fixOwner (b : Blk) (x : CulXfer) (t v : Nat) (s : State) : State :=
  let es := (List.range 8).map fun k => let e := t / 8 * 8 + k; if e = t then v else x.tab.get 0 e
  incr CULVERT_TABLE_FIX 0
    (culSend none [culFrame s b.gbi 1 false (12288 * lTiles b.lat + t / 8 * 32) (es.flatMap (leBytes 4))] s)

/-- The outcome code of an audited tile: the arriving tile, the twin's copy (none where it cannot be read), and the check
values of the owner and the twin (R452, R453). -/
def auditCode (bs : List Byte) (own : Option (List Byte)) (vo vt : Nat) : Nat :=
  match own with
  | none => 2
  | some o =>
    if o = bs then 0
    else match crc32c bs == vo, crc32c o == vt with
      | false, true => 1
      | true, false => 2
      | true, true => 3
      | false, false => 4

/-- A tile of an audit is compared and its outcome acted on. -/
def auditTile (i : Nat) (b : Blk) (x : CulXfer) (kind t : Nat) (bs : List Byte) (s : State) : State :=
  let a := bufAddr s b kind + tileBytes kind * t
  let (r, s) := engRead 0 4 a (tileBytes kind) s
  let own := match r with
    | .data o => some o
    | _ => none
  let sa := storedAddr s i b kind t
  let vt := mval s 0 sa 4
  let vo := if kind = 1 then x.tab.get 0 t else vt
  let code := auditCode bs own vo vt
  let old := x.outcome.get 0 kind
  let s := putXfer { x with
    passed := x.passed ++ [tileKey kind t], wait := x.wait.del (tileKey kind t),
    compared := x.compared.put 0 kind (x.compared.get 0 kind + 1),
    outcome := if old % 8 < code then x.outcome.put 0 kind (code + 8 * t) else x.outcome } s
  if code = 0 then
    let s := if vt = crc32c bs then s else fixEntry sa (crc32c bs) s
    if vo = crc32c bs ∨ kind ≠ 1 then s else fixOwner b x t (crc32c bs) s
  else
    let s := mirrorEvt b.gbi code kind t s
    if code = 1 then setEvt CULVERT_EV_REPAIR 0 (culSend none (culData s b.gbi kind false (tileBytes kind * t) (own.getD [])) s)
    else if code = 2 then setEvt CULVERT_EV_REPAIR 0 (incr CULVERT_REPAIR_TWIN 0 (memStore 0 a bs s))
    else s

/-- A complete tile of an audit is compared once the owner's weight table entry is there. -/
def checkAudit (i : Nat) (b : Blk) (x : CulXfer) (kind t : Nat) (bs : List Byte) (s : State) : State :=
  if x.failed then s
  else if kind = 1 ∧ t = lTiles b.lat then putXfer { x with passed := x.passed ++ [tileKey kind t] } s
  else if kind = 1 ∧ (x.tab.find t).isNone then putXfer { x with wait := x.wait.put [] (tileKey kind t) bs } s
  else auditTile i b x kind t bs s

/-- A complete tile of a transfer. -/
def checkTileAt (i : Nat) (b : Blk) (x : CulXfer) (kind t : Nat) (bs : List Byte) (s : State) : State :=
  if x.aud then checkAudit i b x kind t bs s else checkMirror i b x kind t bs s

/-! ## Closing (R445, R446) -/

/-- Tiles that a transfer brings, by its close frame. -/
def neededTiles (b : Blk) (x : CulXfer) (p : List Byte) : List Nat :=
  let half := fun kind => (List.range (lF b.lat)).map (tileKey kind)
  if x.grp = 8 then (List.range (lTiles b.lat)).map (tileKey 1)
  else if x.grp = 9 then
    (if bit (pay p 6 1) 1 then half 2 ++ (if bit (pay p 6 1) 0 then half 3 else []) else [])
  else half (4 + b2n (bit (pay p 4 1) 0))

/-- CLOSE_W of a step has been processed for a block, or its weight transfer has ended with FAIL. -/
def weightsClosed (s : State) (b : Blk) (n : Nat) : Bool :=
  recGet s b 24 4 == n || s.cul.xfers.any fun y => y.gbi == b.gbi && y.grp == 8 && !y.aud && y.failed && y.stamp == n

/-- A transfer's close frame is there and every tile has passed. The groups of an audit close in order. -/
def closable (s : State) (b : Blk) (x : CulXfer) : Bool :=
  match x.close with
  | none => false
  | some p =>
    !(x.failed && !x.aud) && (x.failed || (neededTiles b x p).all x.passed.contains) &&
      (x.grp != 9 || x.aud || weightsClosed s b (pay p 0 4)) &&
      !(x.aud && s.cul.xfers.any fun y => y.aud && y.gbi == x.gbi && decide (y.grp < x.grp))

/-- Copy `n` entries from entry `e` of a transfer's incoming table to an address. -/
def adoptTable (x : CulXfer) (a e n : Nat) (s : State) : State :=
  memStore 0 a (((List.range n).map fun k => x.tab.get 0 (e + k)).flatMap (leBytes 4)) s

/-- CLOSE_W adopts the weight table and writes TIDEMARK, UPD_EXP and DROUGHT_CNT. -/
def closeWeights (i : Nat) (b : Blk) (x : CulXfer) (p : List Byte) (s : State) : State :=
  let s := adoptTable x (storedAddr s i b 1 0) 0 (lTiles b.lat) s
  setChkFlags i 1 8 (recPut b 44 2 (pay p 5 2) (recPut b 17 1 (pay p 4 1) (recPut b 24 4 (pay p 0 4) s)))

/-- CLOSE_F adopts the factor tables, writes FCOUNT, SNAP_STEP, SNAP_BUSY and then FSTAMP, and is acknowledged. -/
def closeFactors (i : Nat) (b : Blk) (x : CulXfer) (p : List Byte) (s : State) : State :=
  let F := lF b.lat
  let half1 := bit (pay p 6 1) 0
  let s := if bit (pay p 6 1) 1 then
      let s := adoptTable x (storedAddr s i b 2 0) 0 F s
      if half1 then adoptTable x (storedAddr s i b 3 0) F F s else s
    else s
  let s := recPut b 40 4 (pay p 8 4) (recPut b 46 2 (pay p 4 2) s)
  let s := if half1 then recPut b 48 1 1 s else s
  culAck b.gbi (pay p 0 4) 9 0 (setChkFlags i 2 16 (recPut b 28 4 (pay p 0 4) s))

/-- CLOSE_R adopts the root table of the new half, writes the word of bytes 32 to 39 and clears SNAP_BUSY. -/
def closeRoots (i : Nat) (b : Blk) (x : CulXfer) (p : List Byte) (s : State) : State :=
  let kind := 4 + b2n (bit (pay p 4 1) 0)
  let s := adoptTable x (storedAddr s i b kind 0) 0 (lF b.lat) s
  let s := recPut b 48 1 0 (recPut b 32 8 (pay p 0 8) s)
  culAck b.gbi (pay p 0 4) 10 0 (setChkFlags i 4 32 s)

/-- The buffers of an audit's group; a CLOSE_F that shows factor tiles sent = 0 covers none. -/
def auditKinds (x : CulXfer) (p : List Byte) : List Nat :=
  if x.grp = 8 then [1] else if x.grp = 9 then (if bit (pay p 6 1) 1 then [2, 3] else []) else [4 + b2n (bit (pay p 4 1) 0)]

/-- One AUDIT_RES for each buffer of an audit's group, in the order of the buffers; OFFSET is that of the outcome's tile. -/
def auditResults (b : Blk) (x : CulXfer) : List Nat → State → State
  | [], s => s
  | k :: ks, s =>
    let o := x.outcome.get 0 k
    auditResults b x ks (culSend none
      [culFrame s b.gbi 0xD true (tileBytes k * (o / 8)) (pl32 [(4, x.compared.get 0 k), (1, o % 8)])] s)

/-- Process a close frame. -/
def closeXferAt (i : Nat) (b : Blk) (x : CulXfer) (s : State) : State :=
  let p := x.close.getD []
  let s := delXfer x s
  if x.aud then auditResults b x (auditKinds x p) s
  else if x.grp = 8 then closeWeights i b x p s
  else if x.grp = 9 then closeFactors i b x p s
  else closeRoots i b x p s

/-- Process the close frames of a block that can be processed; at most `n`. -/
def settleBlk (i : Nat) (b : Blk) : Nat → State → State
  | 0, s => s
  | n + 1, s =>
    match s.cul.xfers.find? fun x => x.gbi == b.gbi && closable s b x with
    | some x => settleBlk i b n (closeXferAt i b x s)
    | none => s

/-! ## Taking frames -/

/-- The first Culvert frame of a KIND in the inbox that no earlier Culvert frame of its stream precedes (R390). -/
def culHead (kind : Nat) : List (Nat × Nat) → List Frame → Option (Frame × List Frame)
  | _, [] => none
  | seen, f :: r =>
    if f.engine = 2 then
      if uKind f = kind ∧ !seen.contains (f.src, f.oport) then some (f, r)
      else (culHead kind ((f.src, f.oport) :: seen) r).map fun e => (e.1, f :: e.2)
    else (culHead kind seen r).map fun e => (e.1, f :: e.2)

/-- The hub takes the next Culvert frame of a KIND. -/
def culTake (kind : Nat) (g : Frame → State → State) (s : State) : State :=
  match culHead kind [] s.inbox with
  | some (f, r) => g f { s with inbox := r }
  | none => s

/-- An audit may run: VALID bits 1, TRANSIT bits 0 and the stamp of the group equal (R450). -/
def auditOk (s : State) (i : Nat) (b : Blk) (grp stamp : Nat) : Bool :=
  chkFlags s i % 64 == 7 && recGet s b (if grp = 8 then 24 else if grp = 9 then 28 else 32) 4 == stamp

/-- OPEN: the first OPEN of a transfer starts it and, unless it is an audit, sets TRANSIT and IN_STEP or IN_VER (R445). -/
def culOpenTake (f : Frame) (s : State) : State :=
  match twinBlk s (uGbi f) with
  | none => s
  | some (i, b) =>
    let grp := pay f.payload 0 1
    let stamp := pay f.payload 4 4
    if grp < 8 ∨ 10 < grp then s
    else
      let s := { s with cul := { s.cul with opens := s.cul.opens.put (0, 0, false) f.oport (b.gbi, grp, uAud f) } }
      match xferAt s b.gbi grp (uAud f) with
      | some x => if x.stamp = stamp ∧ (!x.failed ∨ x.aud) then s else start i b grp stamp f s
      | none => start i b grp stamp f s
where
  /-- Start the transfer. -/
  start (i : Nat) (b : Blk) (grp stamp : Nat) (f : Frame) (s : State) : State :=
    let s' := putXfer { gbi := b.gbi, grp := grp, aud := uAud f, stamp := stamp,
                        failed := uAud f && !auditOk s i b grp stamp } s
    if uAud f then s'
    else
      let s' := setChkFlags i (2 ^ (grpBit grp + 3)) 0 s'
      if grp = 8 then memStore 0 (chkArea s' i + 4) (leBytes 4 stamp) s'
      else if grp = 10 then memStore 0 (chkArea s' i + 8) (leBytes 4 stamp) s'
      else s'

/-- OPEN. -/
def execOpenFrame (s : State) : Host.Outcome State Fault Refusal := .next (awake s (culTake 0xF culOpenTake s))

/-- Check every tile that waited for an entry. -/
def recheck (i : Nat) (b : Blk) (grp : Nat) (aud : Bool) : List (Nat × List Byte) → State → State
  | [], s => s
  | (k, bs) :: r, s =>
    match xferAt s b.gbi grp aud with
    | some x => recheck i b grp aud r (if x.failed then s else checkTileAt i b x (k / two32) (k % two32) bs s)
    | none => s

/-- Entries of a table arrive at the twin. -/
def tabAtTwin (i : Nat) (b : Blk) (grp : Nat) (f : Frame) (s : State) : State :=
  match xferAt s b.gbi grp (uAud f) with
  | none => s
  | some x =>
    if x.failed then s
    else
      let e0 := uOff f / 4
      let ws := (wordsOf 4 f.payload).take (grpEntries b grp - e0)
      let s := putXfer { x with tab := ws.zipIdx.foldl (fun t e => t.ins (e0 + e.2) e.1) x.tab } s
      let s := if uAud f then s else memStore 0 (incAddr s i b grp e0) (ws.flatMap (leBytes 4)) s
      settleBlk i b 3 (recheck i b grp (uAud f) x.wait s)

/-- The adopted entry sent ahead of a fetched tile arrives at the owner (R453). -/
def tabAtOwner (b : Blk) (grp : Nat) (f : Frame) (s : State) : State :=
  let take := fun x : Fetch =>
    let e := entryIdx b x.kind x.tile
    if x.gbi = b.gbi ∧ x.asked ∧ kindGrp x.kind = grp ∧ uOff f ≤ 4 * e ∧ 4 * e < uOff f + f.payload.length then
      { x with entry := some (pay f.payload (4 * e - uOff f) 4) }
    else x
  { s with cul := { s.cul with fetches := s.cul.fetches.map take } }

/-- A table frame: at the twin for the transfer of its group, at the owner for a fetch. -/
def culTab (kind : Nat) (f : Frame) (s : State) : State :=
  match twinBlk s (uGbi f) with
  | some (i, b) =>
    let o := s.cul.opens.get (0, 0, false) f.oport
    if kind = 7 then tabAtTwin i b 10 f s
    else if o.1 = b.gbi ∧ o.2.1 ≠ 10 ∧ o.2.2 = uAud f then tabAtTwin i b o.2.1 f s
    else s
  | none =>
    match ownedBlk s (uGbi f) with
    | some b => tabAtOwner b (if kind = 7 then 10 else 9) f s
    | none => s

/-- TAB_WF (R442, R444). -/
def execTabWf (s : State) : Host.Outcome State Fault Refusal := .next (awake s (culTake 6 (culTab 6) s))

/-- TAB_R. -/
def execTabR (s : State) : Host.Outcome State Fault Refusal := .next (awake s (culTake 7 (culTab 7) s))

/-- The payloads held of a tile, joined, when they make it up. -/
def joinParts (st : Store (List Byte)) (lo n : Nat) : Option (List Byte) :=
  let ps := (st.filter fun e => lo ≤ e.1 && e.1 < lo + n).flatMap (·.2)
  if n ≤ ps.length then some ps else none

/-- Data arrives at the twin. A complete tile is written at once, except an audit's and the stored weight table, and is then
checked (R444, R445, R487). -/
def dataAtTwin (i : Nat) (b : Blk) (kind : Nat) (f : Frame) (s : State) : State :=
  match xferAt s b.gbi (kindGrp kind) (uAud f) with
  | none => s
  | some x =>
    let t := offTile b kind (uOff f)
    if x.failed ∨ bufTiles b kind + b2n (kind == 1) ≤ t then s
    else
      let base := kind * 2 ^ 34
      let lo := base + tileBytes kind * t
      let parts := x.parts.put [] (base + uOff f) f.payload
      match joinParts parts lo (tileLen b kind t) with
      | none => putXfer { x with parts := parts } s
      | some bs =>
        let y := { x with parts := parts.filter fun e => !(lo ≤ e.1 && e.1 < lo + tileLen b kind t) }
        let s := if uAud f ∨ bufTiles b kind ≤ t then s else memStore 0 (bufAddr s b kind + tileBytes kind * t) bs s
        settleBlk i b 3 (checkTileAt i b y kind t bs (putXfer y s))

/-- A complete tile at the owner: one that was fetched must pass its check (R453); then it is written. -/
def repairTile (b : Blk) (x : Fetch) (bs : List Byte) (s : State) : State :=
  let tab := wgtAddr s b + 12288 * lTiles b.lat + 4 * x.tile
  let ok := !x.asked || x.take ||
    (if x.kind = 1 then crc32c bs == mval s (dieOf b.cl) tab 4 else x.entry == some (crc32c bs))
  let s := dropFetch b.gbi x.kind x.tile s
  if !ok then tileLost b.gbi x.kind x.tile s
  else
    let s := memStore (dieOf b.cl) (bufAddr s b x.kind + tileBytes x.kind * x.tile) bs s
    let s := if x.take ∧ x.kind = 1 then memStore (dieOf b.cl) tab (leBytes 4 (crc32c bs)) s else s
    let s := setEvt CULVERT_EV_REPAIR 0 (incr CULVERT_REPAIR_OWNER 0 s)
    if x.asked then mirrorEvt b.gbi 5 x.kind x.tile s else s

/-- Data arrives for an owned block: a repair of the owner copy (R442). -/
def dataAtOwner (b : Blk) (kind : Nat) (f : Frame) (s : State) : State :=
  let t := offTile b kind (uOff f)
  if bufTiles b kind ≤ t then
    (if kind = 1 then memStore (dieOf b.cl) (wgtAddr s b + uOff f) (f.payload.take (12292 * lTiles b.lat - uOff f)) s else s)
  else
    let x := (fetchOf s b.gbi kind t).getD { gbi := b.gbi, kind := kind, tile := t }
    let parts := x.parts.put [] (uOff f - tileBytes kind * t) f.payload
    match joinParts parts 0 (tileBytes kind) with
    | some bs => repairTile b x bs s
    | none =>
      let s := dropFetch b.gbi kind t s
      { s with cul := { s.cul with fetches := s.cul.fetches ++ [{ x with parts := parts }] } }

/-- A data frame of a buffer. -/
def culDataTake (kind : Nat) (f : Frame) (s : State) : State :=
  match twinBlk s (uGbi f) with
  | some (i, b) => dataAtTwin i b kind f s
  | none =>
    match ownedBlk s (uGbi f) with
    | some b => dataAtOwner b kind f s
    | none => s

/-- WGT (R444). -/
def execWgt (s : State) : Host.Outcome State Fault Refusal := .next (awake s (culTake 1 (culDataTake 1) s))

/-- FAC0. -/
def execFac0 (s : State) : Host.Outcome State Fault Refusal := .next (awake s (culTake 2 (culDataTake 2) s))

/-- FAC1. -/
def execFac1 (s : State) : Host.Outcome State Fault Refusal := .next (awake s (culTake 3 (culDataTake 3) s))

/-- ROOT0. -/
def execRoot0 (s : State) : Host.Outcome State Fault Refusal := .next (awake s (culTake 4 (culDataTake 4) s))

/-- ROOT1. -/
def execRoot1 (s : State) : Host.Outcome State Fault Refusal := .next (awake s (culTake 5 (culDataTake 5) s))

/-- A close frame reaches the twin; it is processed once its tiles have passed (R445). -/
def culClose (grp : Nat) (f : Frame) (s : State) : State :=
  match twinBlk s (uGbi f) with
  | none => s
  | some (i, b) =>
    let x := (xferAt s b.gbi grp (uAud f)).getD
      { gbi := b.gbi, grp := grp, aud := uAud f, stamp := pay f.payload 0 4 }
    if x.failed ∧ !x.aud then s else settleBlk i b 3 (putXfer { x with close := some f.payload } s)

/-- CLOSE_W. -/
def execCloseW (s : State) : Host.Outcome State Fault Refusal := .next (awake s (culTake 8 (culClose 8) s))

/-- CLOSE_F. -/
def execCloseF (s : State) : Host.Outcome State Fault Refusal := .next (awake s (culTake 9 (culClose 9) s))

/-- CLOSE_R. -/
def execCloseR (s : State) : Host.Outcome State Fault Refusal := .next (awake s (culTake 10 (culClose 10) s))

/-! ## Frames at the owner -/

/-- ACK: that of CLOSE_F satisfies R51 for the block; check values that the twin has adopted are dropped (R441, R446). -/
def culAckTake (f : Frame) (s : State) : State :=
  let g := uGbi f
  let kind := pay f.payload 4 1
  let gone := if kind = 9 then [2, 3] else if kind = 10 then [4, 5] else []
  let s := { s with cul := { s.cul with keep := s.cul.keep.filter fun e => !(e.1 / 16 == g && gone.contains (e.1 % 16)) } }
  if kind = 9 then modBlk (culCtx s) (pay f.payload 0 4) g (fun b => { b with acked := true }) s else s

/-- ACK. -/
def execAck (s : State) : Host.Outcome State Fault Refusal := .next (awake s (culTake 0xB culAckTake s))

/-- The owner's stored check value of a tile: its weight table, or what it keeps until the twin acknowledges (R441). -/
def ownerValue (s : State) (b : Blk) (kind t : Nat) : Option Nat :=
  if kind = 1 then some (mval s (dieOf b.cl) (wgtAddr s b + 12288 * lTiles b.lat + 4 * t) 4)
  else ((s.cul.keep.find (b.gbi * 16 + kind)).bind fun l => l[t]?)

/-- The stored weight table of a block, padded. -/
def weightTable (s : State) (b : Blk) : List Byte :=
  let n := lTiles b.lat
  tableBytes ((List.range n).map fun t => mval s (dieOf b.cl) (wgtAddr s b + 12288 * n + 4 * t) 4)

/-- Read a tile again, check it against the owner's stored value and resend it; a failed check makes it LOST (R444). -/
def resendTile (b : Blk) (kind t : Nat) (s : State) : State :=
  let send := fun bs s => incr CULVERT_RESENDS 0 (culSend none (culData s b.gbi kind false (tileBytes kind * t) bs) s)
  if kind = 1 ∧ t = lTiles b.lat then send (weightTable s b) s
  else match ownedTiles b kind t 1 s with
    | (some ts, s) =>
      let bs := ts.headD []
      if ownerValue s b kind t = some (crc32c bs) then send bs s else tileLost b.gbi kind t s
    | (none, s) => s

/-- NACK: a failed tile is read and sent again; a refusal makes the fetched tile LOST (R444, R453). -/
def culNackTake (f : Frame) (s : State) : State :=
  let g := uGbi f
  let kind := pay f.payload 0 1
  let t := pay f.payload 4 4
  match ownedBlk s g with
  | none => s
  | some b =>
    if bit (pay f.payload 8 1) 0 then
      (if (fetchOf s g kind t).isSome then tileLost g kind t (dropFetch g kind t s) else s)
    else if kind = 0 ∨ 5 < kind then s
    else resendTile b kind t s

/-- NACK. -/
def execNack (s : State) : Host.Outcome State Fault Refusal := .next (awake s (culTake 0xC culNackTake s))

/-- AUDIT_RES: the audit's next buffer is done; DIVERGED or LOST makes the block suspect, and a result that compared no tile marks a
skipped audit (R450, R452, R454). -/
def auditResTake (f : Frame) (s : State) : State :=
  let g := uGbi f
  let code := pay f.payload 4 1
  match s.cul.audits.find? fun e => e.1 == g with
  | none => s
  | some (_, ks) =>
    let rest := s.cul.audits.filter fun e => e.1 != g
    let k := ks.headD 1
    let t := uOff f / tileBytes k
    let ks := ks.tail
    if pay f.payload 0 4 = 0 then incr CULVERT_AUDIT_SKIP 0 { s with cul := { s.cul with audits := rest } }
    else
      let s := if code = 3 ∨ code = 4 then markSuspect g k code t s else s
      if ks.isEmpty then incr CULVERT_AUDIT_BLK 0 { s with cul := { s.cul with audits := rest } }
      else { s with cul := { s.cul with audits := rest ++ [(g, ks)] } }

/-- AUDIT_RES. -/
def execAuditRes (s : State) : Host.Outcome State Fault Refusal := .next (awake s (culTake 0xD auditResTake s))

/-! ## The twin answers FETCH (R453) -/

/-- The tile that answers a FETCH, when the four conditions hold. -/
def fetchAnswer (i : Nat) (b : Blk) (kind t stamp : Nat) (s : State) : Option (List Byte) × State :=
  let fl := chkFlags s i
  let g := grpBit (kindGrp kind)
  if kind = 0 ∨ 5 < kind ∨ bufTiles b kind ≤ t ∨ !fl.testBit g ∨ fl.testBit (g + 3) ∨ kindStamp s b kind ≠ stamp then (none, s)
  else match engRead 0 4 (bufAddr s b kind + tileBytes kind * t) (tileBytes kind) s with
    | (.data bs, s) => (if crc32c bs = mval s 0 (storedAddr s i b kind t) 4 then some bs else none, s)
    | (_, s) => (none, s)

/-- FETCH: the tile is sent, with its adopted entry first for a factor or root, or the fetch is refused. -/
def fetchTake (f : Frame) (s : State) : State :=
  match twinBlk s (uGbi f) with
  | none => s
  | some (i, b) =>
    let kind := pay f.payload 0 1
    let t := pay f.payload 4 4
    match fetchAnswer i b kind t (pay f.payload 8 4) s with
    | (some bs, s) =>
      let e := entryIdx b kind t
      let words := (List.range 8).map fun k => if k = e % 8 then mval s 0 (storedAddr s i b kind t) 4 else 0
      let pre := if kind = 1 then [] else
        [culFrame s b.gbi (if kind < 4 then 6 else 7) false (e / 8 * 32) (words.flatMap (leBytes 4))]
      culSend none (pre ++ culData s b.gbi kind false (tileBytes kind * t) bs) s
    | (none, s) => culSend none [culFrame s (uGbi f) 0xC false 0 (pl32 [(4, kind), (4, t), (1, 1)])] s

/-- FETCH. -/
def execFetch (s : State) : Host.Outcome State Fault Refusal := .next (awake s (culTake 0xE fetchTake s))

/-! ## The owner sends (R443) -/

/-- The weight transfer of a block: OPEN, the check table, tiles and stored table, CLOSE_W. -/
def sendWeights (b : Blk) (aud : Bool) (n : Nat) (tiles : List (List Byte)) (s : State) : State :=
  let tab := weightTable s b
  let close := pl32 [(4, recGet s b 24 4), (1, recGet s b 17 1), (2, recGet s b 44 2)]
  culSend (some (culOpen s b.gbi 8 n aud))
    (culData s b.gbi 6 aud 0 tab ++ culData s b.gbi 1 aud 0 (tiles.flatMap id ++ tab) ++ [culFrame s b.gbi 8 aud 0 close]) s

/-- CLOSE_F of a block. -/
def closeFPay (s : State) (b : Blk) (half1 sent : Bool) : List Byte :=
  pl32 [(4, recGet s b 28 4), (2, recGet s b 46 2), (1, b2n half1 + 2 * b2n sent), (1, 0), (4, recGet s b 40 4)]

/-- The factor transfer of a block; without tiles CLOSE_F alone. An audit sends no table (R449). -/
def sendFactors (b : Blk) (aud : Bool) (n : Nat) (half0 half1 : List (List Byte)) (h1 sent : Bool) (s : State) : State :=
  let close := culFrame s b.gbi 9 aud 0 (closeFPay s b h1 sent)
  if sent then
    let tab := (half0 ++ half1).map crc32c
    culSend (some (culOpen s b.gbi 9 n aud))
      ((if aud then [] else culData s b.gbi 6 aud 0 (tableBytes tab)) ++ culData s b.gbi 2 aud 0 (half0.flatMap id)
        ++ culData s b.gbi 3 aud 0 (half1.flatMap id) ++ [close]) s
  else culSend none [close] s

/-- The root transfer of a block: the tiles of one half and the word of bytes 32 to 39. -/
def sendRoots (b : Blk) (aud : Bool) (kind : Nat) (tiles : List (List Byte)) (s : State) : State :=
  culSend (some (culOpen s b.gbi 10 (recGet s b 32 4) aud))
    ((if aud then [] else culData s b.gbi 7 aud 0 (tableBytes (tiles.map crc32c)))
      ++ culData s b.gbi kind aud 0 (tiles.flatMap id)
      ++ [culFrame s b.gbi 10 aud 0 (pl32 [(8, recGet s b 32 8)])]) s

/-- All tiles of a buffer of an owned block. -/
def wholeBuf (b : Blk) (kind : Nat) (s : State) : Option (List (List Byte)) × State := ownedTiles b kind 0 (bufTiles b kind) s

/-! ## Resolving (R454) -/

/-- Send FETCH for several tiles, to take the twin's copy. -/
def fetchAll (b : Blk) (kind : Nat) : Nat → State → State
  | 0, s => s
  | n + 1, s => fetchSend b kind n true (fetchAll b kind n s)

/-- Action 0: the owner sends the suspect buffer to the twin. -/
def keepOwner (b : Blk) (buf : Nat) (s : State) : State :=
  match wholeBuf b buf s with
  | (none, s) => s
  | (some ts, s) =>
    if buf = 1 then sendWeights b false (recGet s b 24 4) ts s
    else if buf = 2 then sendFactors b false (recGet s b 28 4) ts [] false true s
    else if buf = 3 then
      match wholeBuf b 2 s with
      | (some t0, s) => sendFactors b false (recGet s b 28 4) t0 ts true true s
      | (none, s) => s
    else sendRoots b false buf ts s

/-- RESOLVE: a write of CULVERT.RESOLVE applies RESOLVE_ACT to the suspect block (R454). -/
def resolveSet (g : Nat) (s : State) : State :=
  match s.cul.suspects.find? fun x => x.gbi == g with
  | none => s
  | some x =>
    let s := showSuspect { s with cul := { s.cul with suspects := s.cul.suspects.filter fun y => y.gbi != g } }
    match s.cul.owned.find? fun b => b.gbi == g with
    | none => s
    | some b =>
      let act := getF s CULVERT_RESOLVE_ACT 0
      if act = 0 then keepOwner b x.buf s else if act = 1 then fetchAll b x.buf (bufTiles b x.buf) s else s

/-- RESOLVE. -/
def execResolve (r : Requester) (a v : Nat) (s : State) : Host.Outcome State Fault Refusal :=
  .next (if a % 4 = 0 then guarded r a (fun t _ o s => if t = 9 ∧ o = 0x11C then resolveSet (v % two32) s else s) s else s)

/-- AUDIT_GBI: a write asks for an audit of an owned block after the next step close (R449). -/
def execAuditGbi (r : Requester) (a v : Nat) (s : State) : Host.Outcome State Fault Refusal :=
  .next (if a % 4 = 0 then guarded r a (fun t _ o s =>
    if t = 9 ∧ o = 0x110 then { s with cul := { s.cul with wanted := s.cul.wanted ++ [v % two32] } } else s) s else s)

/-! ## Audits at the owner (R449, R450) -/

/-- An audit of a block starts: weights, both factor halves and the current root half (R449). A read that fails leaves the
audit out. -/
def auditBlk (b : Blk) (s : State) : State :=
  let kr := 4 + recGet s b 36 1 % 2
  match wholeBuf b 1 s with
  | (none, s) => s
  | (some ws, s) =>
    if lF b.lat = 0 then
      let s := { s with cul := { s.cul with audits := s.cul.audits ++ [(b.gbi, [1])] } }
      sendFactors b true (recGet s b 28 4) [] [] false false (sendWeights b true (recGet s b 24 4) ws s)
    else match wholeBuf b 2 s with
      | (none, s) => s
      | (some f0, s) =>
        match wholeBuf b 3 s with
        | (none, s) => s
        | (some f1, s) =>
          match wholeBuf b kr s with
          | (none, s) => s
          | (some rs, s) =>
            let s := { s with cul := { s.cul with audits := s.cul.audits ++ [(b.gbi, [1, 2, 3, kr])] } }
            let s := sendWeights b true (recGet s b 24 4) ws s
            let s := sendFactors b true (recGet s b 28 4) f0 f1 true true s
            sendRoots b true kr rs s

/-- Audits of several blocks. -/
def auditBlks : List Blk → State → State
  | [], s => s
  | b :: r, s => auditBlks r (auditBlk b s)

/-- After step `n` of the mirrored context closes, due blocks and the blocks named in AUDIT_GBI are audited (R449). -/
def auditStart (c n : Nat) (blks : List Blk) (s : State) : State :=
  let N := getF s CULVERT_CFG_AUDIT_STEPS 0
  if c ≠ culCtx s ∨ twinLost s ∨ isF s COLL_DEGRADE_SERVING 0 then s
  else
    let due := blks.filter fun b => !lFrozen b.lat && (twinIndex s b.gbi).isNone &&
      (s.cul.wanted.contains b.gbi || (N != 0 && (n + b.gbi) % N == 0)) && !s.cul.audits.any fun e => e.1 == b.gbi
    auditBlks due { s with cul := { s.cul with wanted := [] } }

/-- Operation 7 or a root publication stops an audit of the block (R450). -/
def auditAbort (g : Nat) (s : State) : State :=
  if s.cul.audits.any fun e => e.1 == g then
    incr CULVERT_AUDIT_ABORT 0 { s with cul := { s.cul with audits := s.cul.audits.filter fun e => e.1 != g } }
  else s

/-! ## The twin table check (R440) -/

/-- The hub checks the twin table: whether it passes. A faulty table is recorded in CULVERT.ERR_INFO. -/
def checkTwin (s : State) : Except Bool Bool × State :=
  let n := twinCount s
  if n = 0 then (.ok true, s)
  else if 2 ^ 40 < twinRecAddr s n then (.ok false, twinErr 7 0 s)
  else match engRead 0 4 (twinRecAddr s 0) (128 * n) s with
    | (.data bs, s) =>
      match tableFault (ownPos s) [] none 0 (tableRecs 0 (twinRecAddr s 0) bs) with
      | some e => (.ok false, twinErr e.1 e.2 s)
      | none => (.ok true, s)
    | (.uncorr, s) => (.error true, s)
    | (.fault _, s) => (.error false, s)
where
  /-- TWIN_INVALID with the first fault since the last clearing. -/
  twinErr (code i : Nat) (s : State) : State :=
    let s := setEvt CULVERT_EV_TWIN_INVALID 0 s
    if getF s CULVERT_ERR_INFO_CODE 0 = 0 then setF CULVERT_ERR_INFO_CODE 0 code (setF CULVERT_ERR_INFO_RECORD 0 i s) else s

end Sys2Proof.Machine
end

