-- ==== Sys2Proof/Machine/Owner.lean ====
section
/-! DEFINITION. Owner work on curvature blocks, operations 4 to 9: the ordered sum, preconditioning, the commit with stochastic
rounding, mirroring, and the factor update with its snapshot (R60 to R76, R132 to R135, R161 to R182, R204 to R214). -/

namespace Sys2Proof.Machine

/-! ## When the owner works -/

/-- A record of the owner's cluster waits for the journal ring, so its engine stalls (R498). -/
def ownerStalled (s : State) (c cl : Nat) : Bool := (ctxOf s c).jwait.any fun r => r.src == srcCluster cl

/-- The owner may go on with a block; operations 5 to 9 wait while it is suspect (R454), and no product begins before the
step's STEP_OPEN record is written (R52). -/
def ownerReady (s : State) (c n : Nat) (b : Blk) : Bool :=
  !ownerStalled s c b.cl && !isSuspect s b.gbi && !openHeld s c n

/-- The accumulator of a block as tiles; none when it cannot be read. -/
def accTiles (b : Blk) (s : State) : Option (List Mat) × State :=
  match loadTiles (dieOf b.cl) 0 (accAddr s b) 16384 0 (lTiles b.lat) s with
  | (.ok ts, s) => (some (ts.map (tileMat fmtFP32 4)), s)
  | (.error _, s) => (none, s)

/-- The accumulator as a matrix. -/
def accMat (b : Blk) (s : State) : Option Mat × State :=
  match accTiles b s with
  | (some ts, s) => (some (matOfTiles (lTl b.lat) (lTr b.lat) ts), s)
  | (none, s) => (none, s)

/-- Write the accumulator. -/
def putAcc (b : Blk) (ts : List Mat) (s : State) : State :=
  storeTiles (dieOf b.cl) (accAddr s b) 16384 0 (ts.map (tileBs fmtFP32 4)) s

/-- Set the accumulator of a block to +0 for step `n` (R61). -/
def armBlk (c n : Nat) (b : Blk) (s : State) : State :=
  modBlk c n b.gbi (fun x => { x with armed := true })
    (storeTiles (dieOf b.cl) (accAddr s b) 16384 0 (List.replicate (lTiles b.lat) (zeros 16384)) s)

/-- After its last read for step `n` the accumulator is set for step n + 1, if that is open (R61). -/
def armNext (c n g : Nat) (s : State) : State :=
  match blkOf s c (n + 1) g with
  | some (_, b) => armBlk c (n + 1) b s
  | none => s

/-! ## Partials (R61, R132 to R135) -/

/-- The FP32 tiles of a partial of `n` tiles in the layout of R134; `rise` raises every tile exponent (R172). -/
def partialTiles (n : Nat) (rise : Int) (bs : List Byte) : List Mat :=
  (List.range n).map fun t =>
    (tileMat fmtFP16 2 ((bs.drop (pad64 n + 8192 * t)).take 8192)).map fun r => r.map fun v =>
      rnd32 (v.scale (sbyte (pay bs t 1) + rise))

/-- A tile as it comes out of transport (R132, R133, R135). -/
def throughTransport (t : Mat) : Mat :=
  t.map fun r => r.map fun v => rnd32 ((fmtFP16.dec (fmtFP16.enc (v.scale (-tileTE t)))).scale (tileTE t))

/-- Where the partial of block `g` starts in a transfer for the blocks `gs`. -/
def partialOff (st : Step) (cl g : Nat) : List Nat → Nat
  | [] => 0
  | x :: r => if x = g then 0 else partialSize ((tableTiles st cl x).getD 0) + partialOff st cl g r

/-- The tiles that a transfer of the blocks of RECV `r` brings for block `b`. -/
def xferTiles (st : Step) (r : Recv) (x : Xfer) (b : Blk) (rise : Int) : List Mat :=
  let o := partialOff st (kDest r.desc) b.gbi r.gbis
  partialTiles (lTiles b.lat) rise ((x.turns.flatMap (·.2)).drop o)

/-- RECVs of PARTIAL of step `n` that cover a block. -/
def recvsFor (s : State) (c n g : Nat) : List Recv :=
  (ctxOf s c).coll.recvs.filter fun r => r.step == n && kKind r.desc == 0 && r.gbis.contains g

/-- The transfer that brings the partial of a block for microbatch `m` and position `p`. -/
def sourceOf (s : State) (c n g m p : Nat) : Option (Recv × Xfer) :=
  ((recvsFor s c n g).filter fun r => r.mb == m).findSome? fun r =>
    (r.xfers.find? fun x => x.pos == p).map fun x => (r, x)

/-- The module forms the partial of position `p` for a block itself: its own position, or that of the lost module that it
stands in for (R415, R428). -/
def ownPartial (s : State) (st : Step) (p : Nat) : Bool :=
  p == ownPos s || (st.lost == some p && (p + 1) % 8 == ownPos s)

/-- The replayed journal marks position `p` absent for a block and microbatch `m` of step `n` (R420). -/
def replayAbsent (s : State) (c n g m p : Nat) : Bool :=
  replayOn s c && (recvsFor s c n g).any fun r => r.mb == m && (contribOf s c n r.cid).1.testBit p

/-- Missing data in replay is reported once for each RECV (R420). -/
def reportMissing (c cl : Nat) : List Recv → State → State
  | [], s => s
  | r :: rs, s =>
    reportMissing c cl rs (if r.div then s
      else replayDiv cl (incr COLL_STALE_REJ 0 (modRecv c r.step r.cid (fun q => { q with div := true }) s)))

/-- Add tiles into the accumulator. -/
def addInto (b : Blk) (ts : List Mat) (s : State) : Option State :=
  match accTiles b s with
  | (some acc, s) => some (putAcc b (acc.zipWith (fun A T => A.zipWith (fun u v => u.zipWith add32 v) T) ts) s)
  | (none, _) => none

/-- The place in R61's order after (m, p). -/
def nextPlace (b : Blk) : Blk := if b.pos = 7 then { b with pos := 0, mb := b.mb + 1 } else { b with pos := b.pos + 1 }

/-! ## Carried transfers (R172, R418, R420) -/

/-- Insert by source position and then microbatch. -/
def insCarry (e : Recv × Recv × Xfer) : List (Recv × Recv × Xfer) → List (Recv × Recv × Xfer)
  | [] => [e]
  | f :: r =>
    if e.2.2.pos < f.2.2.pos ∨ (e.2.2.pos = f.2.2.pos ∧ e.1.mb < f.1.mb) then e :: f :: r else f :: insCarry e r

/-- The carried transfers of step n − 1 that belong into a block's sum of step `n`, in order: the RECV of step `n`, the RECV
of step n − 1 and the transfer. In replay they are those that the journal names. -/
def carriedFor (s : State) (c n : Nat) (b : Blk) : List (Recv × Recv × Xfer) :=
  let all := (recvsFor s c n b.gbi).flatMap fun r =>
    match prevRecv s c n r.cid with
    | some q =>
      (q.xfers.filter fun x => x.carry && (!replayOn s c || (contribOf s c n r.cid).2.testBit x.pos) &&
        !b.carr.contains (r.cid, x.idx)).map fun x => (r, q, x)
    | none => []
  all.foldr insCarry []

/-- The replayed journal names a carried transfer of a RECV that is not there, or not in full. -/
def carryMissing (s : State) (c n : Nat) (r : Recv) : Bool :=
  (List.range 8).any fun p => (contribOf s c n r.cid).2.testBit p &&
    match prevRecv s c n r.cid with
    | some q => !q.xfers.any fun x => x.pos == p && x.carry && xferFull r.desc x
    | none => true

/-- Drop the transfers that are not complete as the last partial of a block of their collective has been added (R418). -/
def dropCarried (c : Nat) : List (Recv × Recv × Xfer) → State → State
  | [], s => s
  | (r, q, x) :: es, s => dropCarried c es (if xferFull r.desc x then s else carryDrop c q x s)

/-- Once the last partial of step `n` of a block has been added or passed over, the carried transfers of its collectives that are not
complete are dropped; in replay they are held (R418, R420). -/
def lastPartial (c n g : Nat) (s : State) : State :=
  match blkOf s c n g with
  | none => s
  | some (st, b) =>
    if b.mb < srMbCount st.raw || replayOn s c then s else dropCarried c (carriedFor s c n b) s

/-- The sum of a block goes on to the next place of R61's order. -/
def stepOn (c n g : Nat) (s : State) : State := lastPartial c n g (modBlk c n g nextPlace s)

/-- Add the next partial of R61's order, or pass over an absent source; none while it waits. `own` is the address of the FP32
tiles that the module's own reduction has left. The module's own partial of a block that it owns is added as it stands there, in FP32,
since it never passes through the engine (R415; log entry 49); that of a position or an owner for which the module stands in has the
values that R132 gives it in transport (R429). In replay, data of a declared lost position cannot be obtained (R420). -/
def addNext (c n : Nat) (st : Step) (b : Blk) (own : Nat) (s : State) : Option State :=
  let step := stepOn c n b.gbi
  if replayAbsent s c n b.gbi b.mb b.pos then some (step s)
  else if ownPartial s st b.pos then
    match loadTiles (dieOf b.cl) 0 own 16384 0 (lTiles b.lat) s with
    | (.ok ts, s) =>
      let ts := ts.map (tileMat fmtFP32 4)
      let ts := if b.pos = ownPos s ∧ !servedBlk s b then ts else ts.map throughTransport
      (addInto b ts s).map step
    | (.error _, _) => none
  else match sourceOf s c n b.gbi b.mb b.pos with
    | none => none
    | some (r, x) =>
      if x.absent then some (step s)
      else if x.closed then (addInto b (xferTiles st r x b 0) s).map step
      else if replayOn s c && lostInStep s st b.pos && !r.div then some (reportMissing c b.cl [r] s)
      else none

/-- Add the next carried transfer after the last partial of step `n`. -/
def addCarried (c n : Nat) (st : Step) (b : Blk) (s : State) : Option State :=
  let missing := if replayOn s c then (recvsFor s c n b.gbi).filter (carryMissing s c n) else []
  if !missing.isEmpty then some (reportMissing c b.cl missing s)
  else
    match carriedFor s c n b with
    | [] => some s
    | (r, q, x) :: _ =>
      let rise := srLossExp st.raw - signedOf 8 q.lexp
      (addInto b (xferTiles st r x b rise) s).map fun s =>
        let s := modBlk c n b.gbi (fun y => { y with carr := y.carr ++ [(r.cid, x.idx)] }) s
        if x.added then s
        else incr COLL_CARRY_ADD 0 (modXfer c q.step q.cid x.idx (fun y => { y with added := true }) s)

/-- PARTIAL_ADD: the owner adds the next partial of block `g` at step `n`, or after the last one the next carried transfer
(R61, R62, R418). -/
def partialAdd (c n g own : Nat) (s : State) : State :=
  match blkOf s c n g with
  | none => s
  | some (st, b) =>
    if !b.armed || b.ph != 0 || ownerStalled s c b.cl then s
    else if b.mb < srMbCount st.raw then (addNext c n st b own s).getD s
    else (addCarried c n st b s).getD s

/-- PARTIAL_ADD. -/
def execPartialAdd (c n g own : Nat) (s : State) : Host.Outcome State Fault Refusal := .next (awake s (partialAdd c n g own s))

/-! ## The end of operation 4 (R76, R178 to R181, R419) -/

/-- The accumulator holds all its contributions. -/
def sumComplete (s : State) (c n : Nat) (st : Step) (b : Blk) : Bool :=
  b.armed && b.ph == 0 && b.mb == srMbCount st.raw && (carriedFor s c n b).isEmpty &&
    !(replayOn s c && (recvsFor s c n b.gbi).any (carryMissing s c n))

/-- Positions of step n − 1 transfers that were added at step `n`. -/
def carriedMask (s : State) (c n : Nat) (r : Recv) : Nat :=
  match prevRecv s c n r.cid with
  | some q => q.xfers.foldl (fun a x => if x.added then a ||| 2 ^ x.pos else a) 0
  | none => 0

/-- The CONTRIB records of the RECVs that cover a block, each written once. -/
def bookContribs (c n cl : Nat) : List Recv → State → State
  | [], s => s
  | r :: rs, s =>
    let ab := absentMask r
    let ca := carriedMask s c n r
    let s := if r.booked ∨ (ab = 0 ∧ ca = 0) then s
      else jrnCtx c 0x30 (srcCluster cl) (leBytes 4 n ++ leBytes 2 r.cid ++ leBytes 1 ab ++ leBytes 1 ca) s
    bookContribs c n cl rs (modRecv c n r.cid (fun q => { q with booked := true }) s)

/-- A block meets a row of R178: counted once for each step (R179). -/
def nonFinite (c n : Nat) (b : Blk) (s : State) : State :=
  match blkOf s c n b.gbi with
  | some (_, x) =>
    if x.nfSeen then s
    else modBlk c n b.gbi (fun y => { y with nfSeen := true })
      (setEvt CLUSTER_EV_NONFINITE b.cl (incr CLUSTER_NONFINITE_BLK b.cl s))
  | none => s

/-- The Drought watch at the end of operation 4 (R180, R181). -/
def droughtWatch (b : Blk) (acc : List Mat) (s : State) : State :=
  let zero := acc.all fun t => t.all fun r => r.all (·.isZero)
  let old := recGet s b 44 2
  let new := if zero then min 65535 (old + 1) else 0
  let s := recPut b 44 2 new s
  let lim := getF s CLUSTER_NUM_CFG_DROUGHT_LIMIT b.cl
  if lim ≠ 0 ∧ new ≠ old ∧ new = lim then
    setEvt CLUSTER_EV_DROUGHT b.cl (setF CLUSTER_DROUGHT_LAST b.cl b.gbi (incr CLUSTER_DROUGHT_EVT b.cl s))
  else s

/-- OWNER_SUM_CLOSE: operation 4 of block `g` ends; a frozen block is discarded, any other is checked and watched. -/
def ownerSumClose (c n g : Nat) (s : State) : State :=
  match blkOf s c n g with
  | none => s
  | some (st, b) =>
    if !sumComplete s c n st b || ownerStalled s c b.cl then s
    else match accTiles b s with
      | (none, s) => s
      | (some acc, s) =>
        let s := bookContribs c n b.cl (recvsFor s c n g) s
        if lFrozen b.lat then
          armNext c n g (modBlk c n g (fun x => { x with ph := 6 }) (incr CLUSTER_FROZEN_DISC b.cl s))
        else
          let bad := !acc.all Mat.finite
          let s := modBlk c n g (fun x => { x with ph := 1, nfAcc := bad }) s
          droughtWatch b acc (if bad then nonFinite c n b s else s)

/-- OWNER_SUM_CLOSE. -/
def execOwnerSumClose (c n g : Nat) (s : State) : Host.Outcome State Fault Refusal := .next (awake s (ownerSumClose c n g s))

/-! ## Operation 5 (R63 to R65, R161 to R170, R204, R227) -/

/-- Replay found a disagreement over a root of a block (R254). -/
def rootDiv (cl : Nat) (s : State) : State :=
  setEvt CLUSTER_EV_REPLAY_DIV cl (incr CLUSTER_REPLAY_DIV_CNT cl
    (setEvt ROOTSEQ_EV_REPLAY_DIV (cl / 8) (incr ROOTSEQ_REPLAY_DIV (cl / 8) s)))

/-- The version that the replayed journal says served a block at a step. -/
def bookedRoot (s : State) (c n g : Nat) : Option Nat :=
  (rplFind s c 0x20 fun p => pay p 0 4 == n && pay p 4 4 == g).map fun p => pay p 8 4

/-- The root matrices of a block from the tiles of a root half: left and right. -/
def rootMats (l : List Byte) (tiles : List (List Byte)) : Mat × Mat :=
  let ts := tiles.map (tileMat fmtBF16 2)
  let k := triTiles (lSideL l) (lTl l)
  (matOfTri (lTl l) (ts.take k), matOfTri (lTr l) (ts.drop k))

/-- P of a block at a rung: 0 BF16 operands, 1 FP32 operands; with it whether every product was finite (R65, R164, R204). -/
def opFive (rung : Nat) (l : List Byte) (G Lr Rr : Mat) : Mat × Bool :=
  let fp32 := rung == 1
  let tl := lTl l
  let tr := lTr l
  let conv := fun M => if fp32 then plainOf tl tr M else scaledOf tl tr M
  let Q := if lSideR l then prodMat fp32 tl tr tr (conv G) (plainOf tr tr Rr) else G
  let P := if lSideL l then prodMat fp32 tl tl tr (plainOf tl tl Lr) (conv Q) else Q
  (P, Q.finite && P.finite)

/-- The output tiles of the products that operation 5 forms at a rung, product by product (R65, R204). -/
def opFiveProds (rung : Nat) (l : List Byte) (G Lr Rr : Mat) : List (List TileOps) :=
  let fp32 := rung == 1
  let tl := lTl l
  let tr := lTr l
  let conv := fun M => if fp32 then plainOf tl tr M else scaledOf tl tr M
  let Q := if lSideR l then prodMat fp32 tl tr tr (conv G) (plainOf tr tr Rr) else G
  (if lSideR l then [prodTiles tl tr tr (conv G) (plainOf tr tr Rr)] else []) ++
    (if lSideL l then [prodTiles tl tl tr (plainOf tl tl Lr) (conv Q)] else [])

/-- Counters of the tiles of an owner's descriptor (R100, R139). -/
def ownCounts (u : Nat) : List TileRun → State → State
  | [], s => s
  | t :: ts, s => ownCounts u ts (acceptCounts u t s)

/-- The k-steps that a whole tile issues, its repeated passes included (R613). -/
def tileSteps (fp32 : Bool) (o : TileOps) : Nat := if fp32 then o.len else stepsIn o (7 * (o.len / 16 + 1)) {}

/-- A descriptor of the owner's products, up to eight tiles, completes on unit `u`: tally, counters, status, and its chunk-4 outcome. -/
def ownDesc (fp32 : Bool) (c n u : Nat) (os : List TileOps) (s : State) : ChunkOut × State :=
  let ts := if fp32 then [] else os.map formTile
  let spill := (os.map (prodWords fp32)).any (spills false 3)
  let s := tallyAdd (u / 4) c (if fp32 then 2 else 1) (64 * (os.map (tileSteps fp32)).sum) s
  let s := ownCounts u ts s
  let s := if spill then setEvt TUNIT_EV_OUT_OVF u s else s
  let s := incr TUNIT_DESC_DONE u (setF TUNIT_LAST_STAT u (if spill then 1 else 0) s)
  ({ unit := u, seq := getF s TUNIT_DESC_DONE u % 16777216, step := n,
     c4 := ts.zipIdx.filterMap fun e => e.1.four.map fun k => (e.2, k) }, s)

/-- The descriptors of an owner's products: descriptor `i` runs on the unit of cluster `cl` that `us` names at place `i`, in turn.
DESIGN CHOICE (log entry 108): the spec leaves to Gimal how the owner's cluster splits a product among its units. -/
def ownDescs (fp32 : Bool) (c n cl : Nat) (us : List Nat) : Nat → List (List TileOps) → State → List ChunkOut × State
  | _, [], s => ([], s)
  | i, os :: r, s =>
    let d := ownDesc fp32 c n (cl * 4 + us.getD (i % us.length) 0) os s
    let e := ownDescs fp32 c n cl us (i + 1) r d.2
    (d.1 :: e.1, e.2)

/-- The owner's products in descriptors of up to eight tiles. -/
def ownProds (fp32 : Bool) (c n cl : Nat) (us : List Nat) (ps : List (List TileOps)) (s : State) : List ChunkOut × State :=
  ownDescs fp32 c n cl us 0 (ps.flatMap fun p => chunks 8 p.length p) s

/-- Form the products of operation 5 at a rung: the held chunk-4 outcomes. -/
def rungProds (rung c n : Nat) (b : Blk) (us : List Nat) (G Lr Rr : Mat) (s : State) : List ChunkOut × State :=
  ownProds (rung == 1) c n b.cl us (opFiveProds rung b.lat G Lr Rr) s

/-- The group of operation 5 is exhausted (R167). -/
def exhOp5 (cl : Nat) (s : State) : State := setEvt CLUSTER_EV_SPILL_EXH cl (incr CLUSTER_SPILL_EXH cl s)

/-- A block's operation 5 has left rung 0: `h` is its group header (R167, R168). -/
def spillOp5 (c : Nat) (b : Blk) (h : List Byte) (exh : Bool) (s : State) : State :=
  let x := if exh then 1 else 0
  let s := if exh then exhOp5 b.cl s else s
  let s := setF CLUSTER_SPILL_LAST_GROUP b.cl (gGroup h) (setF CLUSTER_SPILL_LAST_RUNG b.cl 1
    (setF CLUSTER_SPILL_LAST_EXH b.cl x (setEvt CLUSTER_EV_SPILL b.cl (incr CLUSTER_SPILL_GROUPS b.cl s))))
  jrnCtx c 0x12 (srcCluster b.cl) (leBytes 4 (gStep h) ++ leBytes 3 (gGroup h) ++ leBytes 1 (1 + 4 * x)) s

/-- The rung that operation 5 starts at, the rung that a replayed record names, and whether they differ (R170). -/
def op5Start (s : State) (c : Nat) (h : List Byte) : Nat × Bool :=
  match (if replayOn s c then spillBooked s c (gStep h) (gGroup h) else none) with
  | none => (0, false)
  | some r => let r' := min r (if gRung1 h = 0 then 0 else 1); (r', r' != r)

/-- Rung 1 of operation 5: FP32 operands. Only its outcomes are settled (R167 to R169). -/
def formRung1 (c n : Nat) (b : Blk) (h : List Byte) (us : List Nat) (G Lr Rr : Mat) (s : State) : Mat × State :=
  let r := opFive 1 b.lat G Lr Rr
  let w := rungProds 1 c n b us G Lr Rr s
  (r.1, spillOp5 c b h (!r.2) (settleOuts c w.1 w.2))

/-- Form P under the group header `h`: a spill at rung 0 climbs to rung 1 where the group has one; in replay a recorded group starts
at its rung (R65, R161 to R170). -/
def formP (c n : Nat) (b : Blk) (h : List Byte) (us : List Nat) (G Lr Rr : Mat) (s : State) : Mat × State :=
  if !lSideL b.lat && !lSideR b.lat then (G, s)
  else
    let st := op5Start s c h
    let s := if st.2 then replayDiv b.cl s else s
    if st.1 = 1 then formRung1 c n b h us G Lr Rr s
    else
      let r := opFive 0 b.lat G Lr Rr
      let w := rungProds 0 c n b us G Lr Rr s
      if r.2 then (r.1, settleOuts c w.1 w.2)
      else if gRung1 h = 0 then (r.1, exhOp5 b.cl (settleOuts c w.1 w.2))
      else formRung1 c n b h us G Lr Rr (if replayOn s c then replayDiv b.cl w.2 else w.2)

/-- The owner reads the root version and writes ROOT_USE (R63, R64). -/
def rootUse (c n : Nat) (b : Blk) (s : State) : State :=
  jrnCtx c 0x20 (srcCluster b.cl) (leBytes 4 n ++ leBytes 4 b.gbi ++ leBytes 4 (recGet s b 32 4) ++ zeros 4) s

/-- Operation 5 from the read of the version on. -/
def opFiveRun (c n : Nat) (b : Blk) (h : List Byte) (us : List Nat) (s : State) : State :=
  if b.nfAcc then modBlk c n b.gbi (fun x => { x with ph := 2, stopped := true }) (rootUse c n b s)
  else
    let half := recGet s b 36 1 % 2
    match ownedTiles b (4 + half) 0 (lF b.lat) s with
    | (none, s) => s
    | (some ts, s) =>
      match accMat b s with
      | (none, s) => s
      | (some G, s) =>
        let m := rootMats b.lat ts
        let (P, s) := formP c n b h us G m.1 m.2 (rootUse c n b s)
        let s := modBlk c n b.gbi (fun x => { x with
          ph := 2, stopped := !P.finite, p := P.flatMap fun r => r.map word32 }) s
        if P.finite then s else nonFinite c n b s

/-- CVT_ERR.CODE of the group header of a block's operation 5, which a block without roots does not need (R161, R162). -/
def op5Code (b : Blk) (h : List Byte) : Nat := if lSideL b.lat || lSideR b.lat then groupCode h else 0

/-- Operation 5 under its group header; an invalid header is refused as in a list (R160, R162). -/
def opFiveHdr (c n : Nat) (b : Blk) (h : List Byte) (us : List Nat) (s : State) : State :=
  if op5Code b h ≠ 0 then setEvt CLUSTER_EV_CVT_INVALID b.cl (setF CLUSTER_CVT_ERR_CODE b.cl (op5Code b h) s)
  else opFiveRun c n b h us s

/-- PRECONDITION: at a due step the owner first sends the due notice and waits for the reply. In replay it waits for a
publication that the journal calls for (R63, R65, R178, R227, R253, R254). `hdr` is the address of the GROUP descriptor of the block's
operation 5 in the SRAM of the owner's cluster (R161), and `us` the units that form its products (DESIGN CHOICE, log entry 108). -/
def precondition (c n g hdr : Nat) (us : List Nat) (s : State) : State :=
  match blkOf s c n g with
  | none => s
  | some (st, b) =>
    if b.ph != 1 || !ownerReady s c n b then s
    else if isDue st b && b.notice == 0 then
      modBlk c n g (fun x => { x with notice := 1 })
        (modSeq (b.cl / 8) (fun q => { q with notices := q.notices ++ [{ ctx := c, step := n, gbi := g }] }) s)
    else if isDue st b && b.notice == 1 then s
    else
      let v := recGet s b 32 4
      let h := sramRead s b.cl hdr 32
      match (if replayOn s c then bookedRoot s c n g else none) with
      | none => opFiveHdr c n b h us s
      | some w =>
        if w = (v + 1) % two32 ∧ recGet s b 48 1 % 2 = 1 then modBlk c n g (fun x => { x with wantsRoot := true }) s
        else
          let s := modBlk c n g (fun x => { x with wantsRoot := false }) s
          opFiveHdr c n b h us (if w = v ∨ w = (v + 1) % two32 then s else rootDiv b.cl s)

/-- PRECONDITION. -/
def execPrecondition (c n : Nat) (g : PreWork) (s : State) : Host.Outcome State Fault Refusal :=
  .next (awake s (precondition c n g.gbi g.hdr g.us s))

/-! ## Operations 6 and 7 (R66, R67, R173 to R178) -/

/-- One mixing round of R175. -/
def mix32 (x : Nat) : Nat :=
  let x := (x ^^^ (x >>> 16)) * 0x21F0AAAD % two32
  let x := (x ^^^ (x >>> 15)) * 0x735A2D97 % two32
  x ^^^ (x >>> 15)

/-- The 24-bit draw r of R175. -/
def draw (seed n b e : Nat) : Nat :=
  let x := mix32 (seed % two32 ^^^ (n * 0x9E3779B9 % two32))
  let x := mix32 (x ^^^ b)
  let x := mix32 (x ^^^ (seed / two32 % two32))
  mix32 (x ^^^ e) >>> 8

/-- Stochastic rounding of a finite exact sum into W24 with draw `r`: the word, and whether it saturated (R176, R177). DESIGN CHOICE
(log entry 107): a sum that is not finite, which only a stored weight that is no number can give, is committed as +0 and does not count as
saturated. -/
def roundW24 (v : FV) (r : Nat) : Nat × Bool :=
  match v with
  | .fin neg m e =>
    if m = 0 then (0, false)
    else
      let sign := if neg then 0x800000 else 0
      let q := fmtW24.quantum m e
      let sh := (q - e).toNat
      let k := if q ≤ e then m * 2 ^ (e - q).toNat else m / 2 ^ sh
      let rest := if q ≤ e then 0 else m % 2 ^ sh
      let mag := fmtW24.magPat k q
      if 0x7F8000 ≤ mag ∨ (mag = 0x7F7FFF ∧ rest ≠ 0) then (0x7F7FFF + sign, true)
      else if rest = 0 then (if mag = 0 then 0 else mag + sign, false)
      else
        let f24 := (if neg then 2 ^ sh - rest else rest) * 2 ^ 24 / 2 ^ sh
        let hi := decide (2 ^ 24 - f24 ≤ r)
        let up := hi != neg
        let w := if up then fmtW24.magPat (k + 1) q else mag
        (if w = 0 then 0 else w + sign, false)
  | _ => (0, false)

/-- The checkpoint still has to read a block before operation 7 of a step above its cut, or a publication (R470). -/
def ckptHolds (s : State) (c n g : Nat) : Bool :=
  (ctxOf s c).ckpt.any fun k => decide (k.cut < n) && k.left.any fun l => l.contains g

/-- Δ of every element (R66, R173). -/
def deltaOf (st : Step) (b : Blk) : List FV :=
  b.p.map fun w => rnd32 ((mul32 (val32 (srLr st.raw)) (val32 w)).neg.scale (lUpdExp b.lat - srLossExp st.raw))

/-- The committed words of a matrix of weights, row by row, with the number that saturated. -/
def commitWords (seed n g : Nat) (W D : List FV) : List (Nat × Bool) :=
  (W.zip D).zipIdx.map fun e => roundW24 (e.1.1.add e.1.2) (draw seed n g e.2)

/-- COMMIT_GAP of a block at a step in the replayed journal (R503). -/
def gapOf (s : State) (c n g : Nat) : Option (List Byte) :=
  if replayOn s c then rplFind s c 0x31 fun p => pay p 0 4 == n && pay p 4 4 == g else none

/-- Bit `k` of byte 8 of a COMMIT_GAP record. -/
def gapBit (gap : Option (List Byte)) (k : Nat) : Bool := gap.any fun p => bit (pay p 8 1) k

/-- Tile `t` is one that a COMMIT_GAP record with bit `k` leaves unchanged. -/
def gapTile (gap : Option (List Byte)) (k t : Nat) : Bool :=
  gapBit gap k && gap.any fun p => bit (pay p (16 + t / 8) 1) (t % 8)

/-- Write the tiles of a commit with their check values, except those that a torn commit leaves. -/
def storeWeights (b : Blk) (gap : Option (List Byte)) (a : Nat) : Nat → List (List Byte) → State → State
  | _, [], s => s
  | t, bs :: r, s =>
    let s := if gapTile gap 0 t then s
      else memStore (dieOf b.cl) (a + 12288 * lTiles b.lat + 4 * t) (leBytes 4 (crc32c bs))
        (memStore (dieOf b.cl) (a + 12288 * t) bs s)
    storeWeights b gap a (t + 1) r s

/-- UPD_EXP moves by one after a commit whose update lies outside the window (R174). -/
def moveUpdExp (b : Blk) (W D : List FV) (s : State) : State :=
  match maxTop D, maxTop W with
  | some g, some w =>
    let u := signedOf 8 (recGet s b 17 1)
    let lo := signedOf 8 (getF s CLUSTER_NUM_CFG_UE_HLO b.cl)
    let hi := signedOf 8 (getF s CLUSTER_NUM_CFG_UE_HHI b.cl)
    let v := if g - w < lo then min 127 (u + 1) else if g - w > hi then max (-128) (u - 1) else u
    if v = u then s else incr CLUSTER_UE_MOVES b.cl (recPut b 17 1 (twos 8 v) s)
  | _, _ => s

/-- A replayed gap whose root publication was lost: ROOT_VER falls by one and RHALF is inverted (R503). -/
def rootBehind (b : Blk) (s : State) : State :=
  let w := recGet s b 32 8
  recPut b 32 8 (((w % two32 + two32 - 1) % two32) + w / two32 * two32 ^^^ two32) s

/-- The owner cluster logs a committed block in an open dip window, up to 64 blocks (R572). -/
def Dip.log (b : Blk) (d : Dip) : Dip :=
  if (d.commits.filter fun x => x.cl == b.cl).length < 64 then { d with commits := d.commits ++ [b] }
  else if d.full.contains b.cl then d
  else { d with full := d.full ++ [b.cl] }

/-- A commit is logged in every open dip window. -/
def dipCommit (b : Blk) (s : State) : State := { s with pow := { s.pow with dips := s.pow.dips.map (Dip.log b) } }

/-- The commit of a block whose weights have been read. -/
def commitRun (c n : Nat) (st : Step) (b : Blk) (tiles : List (List Byte)) (s : State) : State :=
  let tl := lTl b.lat
  let tr := lTr b.lat
  let s := auditAbort b.gbi s
  let s := modCtx c (fun x => { x with lastCommit := some (max n (x.lastCommit.getD 0)) }) s
  let D := if b.stopped then [] else deltaOf st b
  let bad := !D.all (·.isFin)
  let s := if bad then nonFinite c n b s else s
  let gap := gapOf s c n b.gbi
  let W := (matOfTiles tl tr (tiles.map (tileMat fmtW24 3))).flatMap id
  let keep := b.stopped || bad
  let ws := commitWords ((ctxOf s c).seed.getD 0) n b.gbi W D
  let sat := (ws.filter (·.2)).length
  let new := if keep then tiles
    else (tilesOfMat tl tr (chunks (64 * tr) (64 * tl) (ws.map fun w => fmtW24.dec w.1))).map (tileBs fmtW24 3)
  let s := dipCommit b (storeWeights b gap (wgtAddr s b) 0 new s)
  let s := if keep ∨ sat = 0 then s else setEvt CLUSTER_EV_W24_SAT b.cl (addF CLUSTER_W24_SAT b.cl sat s)
  let s := recPut b 24 4 n s
  let s := if !keep && lUeAuto b.lat then moveUpdExp b W D s else s
  let s := if gapBit gap 3 then rootBehind b s else s
  modBlk c n b.gbi (fun x => { x with ph := 3, stopped := keep, p := [] }) s

/-- COMMIT: operations 6 and 7 of block `g` at step `n`. It waits while a checkpoint still has to read the block (R470). -/
def commit (c n g : Nat) (s : State) : State :=
  match blkOf s c n g with
  | none => s
  | some (st, b) =>
    if b.ph != 2 || !ownerReady s c n b || ckptHolds s c n g then s
    else match wholeBuf b 1 s with
      | (none, s) => s
      | (some tiles, s) => commitRun c n st b tiles s

/-- COMMIT. -/
def execCommit (c n g : Nat) (s : State) : Host.Outcome State Fault Refusal := .next (awake s (commit c n g s))

/-! ## Operation 8 (R69, R443) -/

/-- A block of a context is mirrored (R443, R457). -/
def mirrored (s : State) (c : Nat) (b : Blk) : Bool :=
  c == culCtx s && !twinLost s && !servedBlk s b

/-- MIRROR_SEND: the owner streams the weight transfer of block `g` to the twin. -/
def mirrorSend (c n g : Nat) (s : State) : State :=
  match blkOf s c n g with
  | none => s
  | some (_, b) =>
    if b.ph != 3 || !ownerReady s c n b || !mirrored s c b then s
    else match wholeBuf b 1 s with
      | (none, s) => s
      | (some tiles, s) => modBlk c n g (fun x => { x with ph := 4 }) (sendWeights b false n tiles s)

/-- MIRROR_SEND. -/
def execMirrorSend (c n g : Nat) (s : State) : Host.Outcome State Fault Refusal := .next (awake s (mirrorSend c n g s))

/-! ## Operation 9 (R205 to R213) -/

/-- New values of a factor from its Gram product: symmetrised, scaled and averaged, +0 outside the active side
(R201, R206 to R208). -/
def newFactor (act k fcount : Nat) (lexp : Int) (C F : Mat) : Mat :=
  let rows := (List.range C.length).map fun p => (List.range C.length).map fun q =>
    if act ≤ p ∨ act ≤ q then fv0
    else
      let sm := mul32 (add32 (C.at (min p q) (max p q)) (C.at (max p q) (min p q))) (.fin false 1 (-1))
      let S := rnd32 (sm.scale (-2 * lexp))
      if k = 0 ∨ fcount = 0 then S
      else
        let f := F.at p q
        add32 f (rnd32 ((add32 S f.neg).scale (-(k : Int))))
  rows

/-- The output tiles of the Gram products of a block, product by product (R205). -/
def gramProds (l : List Byte) (G : Mat) : List (List TileOps) :=
  let tl := lTl l
  let tr := lTr l
  let g := scaledOf tl tr G
  let gt := g.flip tl
  (if lSideL l then [prodTiles tl tr tl g gt] else []) ++ (if lSideR l then [prodTiles tr tl tr gt g] else [])

/-- The Gram products run in the units of the owner's cluster. -/
def formGrams (c n : Nat) (b : Blk) (us : List Nat) (G : Mat) (s : State) : State :=
  let w := ownProds false c n b.cl us (gramProds b.lat G) s
  settleOuts c w.1 w.2

/-- The new factor tiles of a block, left triangle first; none when a value is not finite (R205, R209). -/
def newFactors (st : Step) (b : Blk) (fcount : Nat) (G : Mat) (old : List (List Byte)) : Option (List Mat) :=
  let l := b.lat
  let tl := lTl l
  let tr := lTr l
  let ts := old.map (tileMat fmtFP32 4)
  let kL := triTiles (lSideL l) tl
  let g := scaledOf tl tr G
  let gt := g.flip tl
  let le := srLossExp st.raw
  let FL := if lSideL l then
      some (newFactor (lRows l) (lDecayL l) fcount le (prodMat false tl tr tl g gt) (matOfTri tl (ts.take kL))) else none
  let FR := if lSideR l then
      some (newFactor (lCols l) (lDecayR l) fcount le (prodMat false tr tl tr gt g) (matOfTri tr (ts.drop kL))) else none
  if FL.all Mat.finite && FR.all Mat.finite then
    some ((FL.map (triOfMat tl)).getD [] ++ (FR.map (triOfMat tr)).getD [])
  else none

/-- The snapshot decision at a due step (R211 to R213): 0 none, 1 skipped, 2 taken. -/
def snapDecision (s : State) (c n : Nat) (st : Step) (b : Blk) (fcount : Nat) : Nat :=
  let busy := recGet s b 48 1 % 2 == 1
  if !isDue st b || lF b.lat == 0 || fcount == 0 then 0
  else if replayOn s c then
    (if (rplFind s c 0x22 fun p => pay p 0 4 == n && pay p 4 4 == b.gbi).isSome then 1 else 2)
  else if busy then 1 else 2

/-- A snapshot that differs from what SNAP_BUSY allows in replay (R213). -/
def snapDiv (s : State) (c : Nat) (b : Blk) (dec : Nat) : Bool :=
  replayOn s c && dec != 0 && (dec == 1) != (recGet s b 48 1 % 2 == 1)

/-- A skipped snapshot is counted and journalled (R212). -/
def snapSkip (c n : Nat) (b : Blk) (s : State) : State :=
  jrnCtx c 0x22 (srcCluster b.cl) (leBytes 4 n ++ leBytes 4 b.gbi ++ leBytes 4 (recGet s b 40 4) ++ zeros 4)
    (incr CLUSTER_SNAP_SKIP b.cl s)

/-- SNAP_STEP and then SNAP_BUSY are written, and the sequencer keeps the latched fields of the block (R210, R221). -/
def snapTake (c n : Nat) (b : Blk) (s : State) : State :=
  let s := recPut b 48 1 1 (recPut b 40 4 n s)
  modSeq (b.cl / 8) (fun q => { q with
    snaps := (q.snaps.filter fun e => !(e.1 == c && e.2.1 == b.gbi)) ++ [(c, b.gbi, b.lat)] })
    (incr CLUSTER_SNAP_TAKEN b.cl s)

/-- Write factor tiles into a half, except those that a torn update leaves. -/
def storeFactors (b : Blk) (gap : Option (List Byte)) (a : Nat) : Nat → List (List Byte) → State → State
  | _, [], s => s
  | t, bs :: r, s =>
    storeFactors b gap a (t + 1) r (if gapTile gap 2 t then s else memStore (dieOf b.cl) (a + 16384 * t) bs s)

/-- Remember the check values of the tiles of a buffer until the twin acknowledges them (R441). -/
def keepCrcs (g kind : Nat) (tiles : List (List Byte)) (s : State) : State :=
  { s with cul := { s.cul with keep := s.cul.keep.put [] (g * 16 + kind) (tiles.map crc32c) } }

/-- The sequencer of a region. -/
def seqOf (s : State) (rg : Nat) : Seq := s.seqs.get {} rg

/-- STAT and CUR_GBI show the running job (R257, R261). -/
def showSeq (rg : Nat) (s : State) : State :=
  match (seqOf s rg).job with
  | some j =>
    setF ROOTSEQ_STAT_BUSY rg 1 (setF ROOTSEQ_STAT_PHASE rg (if j.ph = 0 then 1 else j.ph)
      (setF ROOTSEQ_STAT_SIDE rg j.side (setF ROOTSEQ_CUR_GBI rg j.gbi s)))
  | none =>
    setF ROOTSEQ_STAT_BUSY rg 0 (setF ROOTSEQ_STAT_PHASE rg 0 (setF ROOTSEQ_STAT_SIDE rg 0 (setF ROOTSEQ_CUR_GBI rg 0 s)))

/-- Put the running job back, or end it. -/
def putJob (rg : Nat) (j : Option Job) (s : State) : State := showSeq rg (modSeq rg (fun q => { q with job := j }) s)

/-- Withdraw the wide descriptors of a region that no unit has started (R229). -/
def dropWide (rg : Nat) : Nat → State → State
  | 0, s => s
  | n + 1, s => dropWide rg n (modUnit (rg * 32 + n) (fun x => { x with wq := [] }) s)

/-- A record's work in progress is cleared (R229). -/
def clearWip (b : Blk) (s : State) : State := memStore (dieOf b.cl) (b.addr + 88) (zeros 40) s

/-- Abandon the root job of a block, running or held, and clear bytes 88 to 127 (R229). -/
def abandonRoot (c : Nat) (b : Blk) (s : State) : State :=
  let rg := b.cl / 8
  let hit := fun j : Job => j.ctx == c && j.gbi == b.gbi
  let run := ((s.seqs.get {} rg).job).any hit
  let s := if run then putJob rg none (modSeq rg (fun q => { q with back := [], sat := false }) (dropWide rg 32 s)) else s
  clearWip b (modSeq rg (fun q => { q with held := q.held.filter fun j => !hit j }) s)

/-- Write the results of operation 9: tiles, FCOUNT, FSTAMP and the snapshot (R209 to R213). -/
def factorWrite (c n : Nat) (st : Step) (b : Blk) (gap : Option (List Byte)) (new : Option (List Mat))
    (old : List (List Byte)) (s : State) : State :=
  let fc := recGet s b 46 2
  let wrote := new.isSome && lF b.lat != 0
  let fc' := if wrote then min 65535 (fc + 1) else fc
  let dec := snapDecision s c n st b fc'
  let bytes := (new.getD []).map (tileBs fmtFP32 4)
  let half := if wrote then (old.zip bytes).zipIdx.map fun e => if gapTile gap 2 e.2 then e.1.1 else e.1.2 else old
  let s := if snapDiv s c b dec then replayDiv b.cl (incr CLUSTER_SCALE_DIVERGE b.cl s) else s
  let s := if wrote then storeFactors b gap (facAddr s b) 0 bytes s else s
  let s := if dec = 2 then storeTiles (dieOf b.cl) (bufAddr s b 3) 16384 0 half s else s
  let s := if fc' = fc then s else incr CLUSTER_FACTOR_UPD b.cl (recPut b 46 2 fc' s)
  let s := recPut b 28 4 n s
  let s := if dec = 2 then snapTake c n b s else if dec = 1 then snapSkip c n b s else s
  let s := if gapBit gap 4 then recPut b 48 1 0 (abandonRoot c b s) else s
  let h1 := wrote && dec == 2
  let s := modBlk c n b.gbi (fun x => { x with wrote := wrote, half1 := h1, ph := 5 }) s
  if mirrored s c b then
    let s := if wrote then keepCrcs b.gbi 2 half s else s
    let s := if h1 then keepCrcs b.gbi 3 half s else s
    sendFactors b false n half (if h1 then half else []) h1 wrote s
  else s

/-- Operation 9 may start: the weights are committed, and for a mirrored block sent; weights that were sent before the twin was lost
hold up nothing (R68, R429). -/
def mayFactor (s : State) (c : Nat) (b : Blk) : Bool := b.ph == 4 || (b.ph == 3 && !mirrored s c b)

/-- FACTOR_UPDATE: operation 9 of block `g` at step `n`; after it the accumulator is set for the next step. A mirrored block's
weights have been sent before. `us` are the units that form the products. -/
def factorUpdate (c n g : Nat) (us : List Nat) (s : State) : State :=
  match blkOf s c n g with
  | none => s
  | some (st, b) =>
    let gap := gapOf s c n g
    if !mayFactor s c b || !ownerReady s c n b then s
    else if gapBit gap 1 then armNext c n g (modBlk c n g (fun x => { x with ph := 5, acked := true }) s)
    else match wholeBuf b 2 s with
      | (none, s) => s
      | (some old, s) =>
        if b.nfAcc || lF b.lat == 0 then armNext c n g (factorWrite c n st b gap none old s)
        else match accMat b s with
          | (none, s) => s
          | (some G, s) =>
            let new := newFactors st b (recGet s b 46 2) G old
            let s := formGrams c n b us G s
            let s := if new.isNone then nonFinite c n b s else s
            armNext c n g (factorWrite c n st b gap new old s)

/-- FACTOR_UPDATE. -/
def execFactorUpdate (c n : Nat) (g : FacWork) (s : State) : Host.Outcome State Fault Refusal :=
  .next (awake s (factorUpdate c n g.gbi g.us s))

end Sys2Proof.Machine
end

