-- ==== Sys2Proof/Machine/Rootseq.lean ====
section
/-! DEFINITION. The root sequencer: jobs, pre-scaling, the Newton and Cholesky paths, the residual check, conversion and
publication, due notices and lending (R219 to R263). Region rg is die × 8 + region. -/

namespace Sys2Proof.Machine

/-! ## Jobs (R220, R221, R225) -/

/-- The job's block. -/
def jobBlk (j : Job) : Blk := { gbi := j.gbi, cl := j.cl, addr := j.addr, lat := j.lat }

/-- The job is that of a block. -/
def jobIs (c g : Nat) (j : Job) : Bool := j.ctx == c && j.gbi == g

/-- K of a context for a region: that of the last step opened, or the register (R225, R226). -/
def ctxK (s : State) (c rg : Nat) : Nat :=
  match (ctxOf s c).steps.getLast? with
  | some st => max 1 (st.ks.getD rg 128)
  | none => getFk s ROOTSEQ_REFRESH_K rg c

/-- The late-check step of a block's root (R221). -/
def lateStep (s : State) (c : Nat) (b : Blk) : Nat := recGet s b 40 4 + ctxK s c (b.cl / 8)

/-- The blocks of contexts below `n` whose root work a region may take up: SNAP_BUSY is 1 and no job holds them. -/
def candidates (s : State) (rg : Nat) : Nat → List (Nat × Blk)
  | 0 => []
  | n + 1 =>
    let q := seqOf s rg
    candidates s rg n ++ ((ctxOf s n).tabs.filter fun b =>
      b.cl / 8 == rg && recGet s b 48 1 % 2 == 1 && !(q.held.any (jobIs n b.gbi)) && !(q.job.any (jobIs n b.gbi))).map
      fun b => (n, b)

/-- The first of several blocks by late-check step and then GBI. -/
def earliest (s : State) : List (Nat × Blk) → Option (Nat × Blk)
  | [] => none
  | e :: r =>
    match earliest s r with
    | none => some e
    | some f =>
      let a := lateStep s e.1 e.2
      let b := lateStep s f.1 f.2
      if a < b ∨ (a = b ∧ e.2.gbi ≤ f.2.gbi) then some e else some f

/-- The fields of a block at its snapshot step, or those latched last where none were kept (R221, R252). -/
def snapLat (s : State) (rg c : Nat) (b : Blk) : List Byte :=
  match (seqOf s rg).snaps.find? fun e => e.1 == c && e.2.1 == b.gbi with
  | some e => e.2.2
  | none => b.lat

/-- ROOT_JOB_SCAN: an idle sequencer chooses its next job from the block tables of its clusters (R220, R221). -/
def rootJobScan (rg : Nat) (s : State) : State :=
  let q := seqOf s rg
  if q.job.isSome || q.restart.isSome || !isF s ROOTSEQ_CTRL_EN rg then s
  else match earliest s (candidates s rg 16) with
    | none => s
    | some (c, b) =>
      let lat := snapLat s rg c b
      putJob rg (some {
        ctx := c, gbi := b.gbi, cl := b.cl, addr := b.addr, lat := lat, snap := recGet s b 40 4,
        ver := (recGet s b 32 4 + 1) % two32, side := if lSideL lat then 0 else 1 })
        (modSeq rg (fun q => { q with sat := false, back := [], epoch := q.epoch + 1 }) s)

/-- ROOT_JOB_SCAN. -/
def execRootJobScan (rg : Nat) (s : State) : Host.Outcome State Fault Refusal := .next (runningIn (32 + rg) s (rootJobScan rg s))

/-! ## Progress and rejection (R244, R250, R254, R255) -/

/-- Side of a matrix of the job in elements. -/
def jobN (j : Job) : Nat := 64 * (if j.side = 0 then lTl j.lat else lTr j.lat)
/-- Active side. -/
def jobA (j : Job) : Nat := if j.side = 0 then lRows j.lat else lCols j.lat
/-- P code of the side. -/
def jobCode (j : Job) : Nat := if j.side = 0 then lPL j.lat else lPR j.lat
/-- p of the side. -/
def jobP (j : Job) : Nat := 2 ^ jobCode j
/-- Iterations of the side (R237). -/
def jobKmax (j : Job) : Nat := bits j.cfg (8 * (jobCode j - 1)) 8
/-- RES_EXP. -/
def jobRes (j : Job) : Nat := bits j.cfg 24 8

/-- Bytes 88 to 127 of the record (R250). -/
def wipBytes (j : Job) : List Byte :=
  leBytes 1 ((if j.ph = 0 then 1 else j.ph) + 8 * j.side) ++ leBytes 1 (j.iter % 64) ++ leBytes 2 (twos 16 j.s) ++
    leBytes 2 (twos 16 j.sx) ++ leBytes 2 (if jobCode j = 0 then j.iter / 64 else 0) ++ leBytes 4 j.lam ++ leBytes 4 j.tr ++
    leBytes 4 j.piv ++ leBytes 4 j.ver ++ zeros 16

/-- Save the job and its progress. -/
def saveJob (rg : Nat) (j : Job) (s : State) : State :=
  putJob rg (some j) (memStore (dieOf j.cl) (j.addr + 88) (wipBytes j) s)

/-- The highest step open in a context, or the step opened last (R255). -/
def ctxHighest (s : State) (c : Nat) : Nat :=
  ((ctxOf s c).steps.foldl (fun a x => max a (some x.step)) none).getD ((ctxOf s c).last.getD 0)

/-- A ROOT_EVT record (R255). -/
def rootEvt (rg : Nat) (j : Job) (step kind reason side resLog : Nat) (s : State) : State :=
  jrnCtx j.ctx 0x21 (srcSeq rg)
    (leBytes 4 step ++ leBytes 4 j.gbi ++ leBytes 4 j.ver ++ leBytes 1 kind ++ leBytes 1 (reason + 16 * side) ++
      leBytes 1 resLog ++ zeros 1) s

/-- The replayed journal's next rejection of the job's version: those that replay has taken already are behind it (R253). -/
def bookedReject (s : State) (j : Job) : Option (List Byte) :=
  if replayOn s j.ctx then
    ((rplAll s j.ctx 0x21 fun p => pay p 4 4 == j.gbi && pay p 8 4 == j.ver && pay p 12 1 % 4 == 3).drop
      ((seqOf s (j.cl / 8)).rejs.filter fun e => e == (j.ctx, j.gbi, j.ver)).length).head?
  else none

/-- A booked rejection is taken from the replayed journal. -/
def bookTaken (rg : Nat) (j : Job) (s : State) : State :=
  if (bookedReject s j).isSome then modSeq rg (fun q => { q with rejs := q.rejs ++ [(j.ctx, j.gbi, j.ver)] }) s else s

/-- A job ends in rejection (R244). -/
def rejectJob (rg : Nat) (j : Job) (reason side resLog : Nat) (s : State) : State :=
  let b := jobBlk j
  let s := bookTaken rg j s
  let s := dropWide rg 32 s
  let s := recPut b 36 1 (recGet s b 36 1 ||| 4) s
  let s := recPut b 48 1 0 (clearWip b s)
  let s := setEvt ROOTSEQ_EV_ROOT_REJECT rg (incr ROOTSEQ_ROOT_REJ rg s)
  let s := if getF s ROOTSEQ_ERR_INFO_REASON rg = 0 then
      setF ROOTSEQ_ERR_INFO_REASON rg reason (setF ROOTSEQ_ERR_INFO_SIDE rg side
        (setF ROOTSEQ_ERR_INFO_RES_LOG rg resLog (setF ROOTSEQ_LAST_REJ rg j.gbi s))) else s
  let s := rootEvt rg j (ctxHighest s j.ctx) 3 reason side resLog s
  let s := modSeq rg (fun q => { q with
    held := q.held.filter fun x => !jobIs j.ctx j.gbi x
    snaps := q.snaps.filter fun e => !(e.1 == j.ctx && e.2.1 == j.gbi) }) s
  if (seqOf s rg).job.any (jobIs j.ctx j.gbi) then putJob rg none (modSeq rg (fun q => { q with back := [], sat := false }) s)
  else s

/-- A job fails; in replay that is a disagreement when the journal lets it pass (R254). -/
def failJob (rg : Nat) (j : Job) (reason resLog : Nat) (s : State) : State :=
  let s := if replayOn s j.ctx && (bookedReject s j).isNone then rootDiv j.cl s else s
  rejectJob rg j reason j.side resLog s

/-- A record of the sequencer waits for the context's ring, so the sequencer stalls (R498). -/
def seqStalled (s : State) (c rg : Nat) : Bool := (ctxOf s c).jwait.any fun r => r.src == srcSeq rg

/-- The running job of a sequencer that may go on in one of the given phases. -/
def jobIn (s : State) (rg : Nat) (phs : List Nat) : Option Job :=
  if (seqOf s rg).restart.isSome then none
  else (seqOf s rg).job.filter fun j => phs.contains j.ph && !seqStalled s j.ctx rg

/-- The die of a region. -/
def regionDie (rg : Nat) : Nat := rg / 8

/-! ## Scratch (R223, R224) -/

/-- A BX64 matrix, row by row. -/
abbrev IMat : Type := List (List Int)

/-- Element of a BX64 matrix; 0 outside it. -/
def IMat.at (M : IMat) (i j : Nat) : Int := (M.getD i []).getD j 0

/-- Rows and columns of a square matrix exchanged. -/
def IMat.flip (M : IMat) (n : Nat) : IMat := (List.range n).map fun j => M.map fun r => r.getD j 0

/-- The place of matrix `k` of side `n` in the scratch of a region. -/
def scrAddr (s : State) (rg n k : Nat) : Nat := getF s ROOTSEQ_SCR_BASE rg * 4096 + 8 * n * n * k

/-- Write a matrix into scratch. -/
def putMat (rg n k : Nat) (M : IMat) (s : State) : State :=
  memStore (regionDie rg) (scrAddr s rg n k) (M.flatMap fun r => r.flatMap fun x => leBytes 8 (bxWord x)) s

/-- Read a matrix of scratch: none where it misses the map, and an error where it is uncorrectable (R244). -/
def getMat (rg n k : Nat) (s : State) : Except Unit (Option IMat) × State :=
  match engRead (regionDie rg) 2 (scrAddr s rg n k) (8 * n * n) s with
  | (.data bs, s) => (.ok (some (chunks n n ((wordsOf 8 bs).map bxInt))), s)
  | (.uncorr, s) => (.error (), s)
  | (.fault _, s) => (.ok none, s)

/-- Read several matrices and give them to `f`; an uncorrectable one ends the job with reason ECC. -/
def withMats (rg : Nat) (j : Job) (ks : List Nat) (f : List IMat → State → State) (s : State) : State :=
  go ks [] s
where
  /-- The matrices still to be read and those read. -/
  go : List Nat → List IMat → State → State
    | [], ms, s => f ms s
    | k :: r, ms, s =>
      match getMat rg (jobN j) k s with
      | (.ok (some M), s) => go r (ms ++ [M]) s
      | (.ok none, s) => s
      | (.error _, s) => failJob rg j 3 0 s

/-- The wide product of two matrices, and whether an output saturated (R104 to R106). -/
def wideMat (n : Nat) (A B : IMat) : IMat × Bool :=
  let cols := B.flip n
  let C := A.map fun r => cols.map fun c => wideSat (wideDot r c)
  (C.map fun r => r.map (·.1), C.any fun r => r.any (·.2))

/-! ## Pre-scaling (R235, R236) -/

/-- A side's factor in half 1, in FP32 (R201). -/
def sideFactor (j : Job) (tiles : List (List Byte)) : Mat := matOfTri (jobN j / 64) (tiles.map (tileMat fmtFP32 4))

/-- The first tile of the side in a half, and its tiles. -/
def sideTiles (j : Job) : Nat × Nat :=
  let n := jobN j / 64
  if j.side = 0 then (0, n * (n + 1) / 2) else (triTiles (lSideL j.lat) (lTl j.lat), n * (n + 1) / 2)

/-- ⌈log₂⌉ of a positive finite value. -/
def ceilLog (m : Nat) (e : Int) : Int := (if m = 2 ^ Nat.log2 m then Nat.log2 m else Nat.log2 m + 1 : Nat) + e

/-- s of R235 from F. -/
def scaleExp (p : Nat) (F : FV) : Int :=
  let k : FV := .fin false 257 (-8)
  match (if (mul32 F k).isFin then mul32 F k else F.mul k) with
  | .fin _ m e => -((-((ceilLog m e + 1) / 2)) / (p : Int)) * p
  | _ => 0

/-- The sum of squares of R235. -/
def squareSum (B : Mat) : FV := (B.map fun r => (r.map fun v => mul32 v v).foldl add32 fv0).foldl add32 fv0

/-- tr of a side's factor (R235). -/
def traceOf (j : Job) (A : Mat) : FV := ((List.range (jobN j)).map fun i => A.at i i).foldl add32 fv0

/-- λ of a side from its tr (R235). -/
def lamOf (j : Job) (tr : FV) : FV := div32 (mul32 (val32 j.damp) tr) (fvInt (jobA j))

/-- B of a side: λ added to the diagonal (R235). -/
def dampedOf (A : Mat) (lam : FV) : Mat := A.zipIdx.map fun r => r.1.zipIdx.map fun v => if v.2 = r.2 then add32 v.1 lam else v.1

/-- The job ends with RANGE over a side (R236). -/
def sideRange (j : Job) (A : Mat) : Bool :=
  let tr := traceOf j A
  !tr.isFin || !(fv0.lt tr) || !(squareSum (dampedOf A (lamOf j tr))).isFin

/-- A side is pre-scaled into scratch (R235). -/
def preScale (rg : Nat) (j : Job) (A : Mat) (s : State) : State :=
  let n := jobN j
  let tr := traceOf j A
  let lam := lamOf j tr
  let B := dampedOf A lam
  let j := { j with tr := word32 tr, lam := word32 lam }
  let sc := scaleExp (jobP j) (squareSum B)
  let Ah : IMat := B.map fun r => r.map fun v => bxOf v (-sc)
  let one : IMat := (List.range n).map fun i => (List.range n).map fun k => if i = k then 2 ^ 62 else 0
  let phi := rnd32 ((div32 (mul32 (val32 j.pivFloor) tr) (fvInt (jobA j))).scale (-sc))
  let s := putMat rg n 0 Ah s
  if jobCode j = 0 then
    saveJob rg { j with ph := 3, s := sc, sx := 0, iter := 0, phi := word32 phi } (putMat rg n 1 Ah s)
  else saveJob rg { j with ph := 2, s := sc, sx := 0, iter := 0 } (putMat rg n 3 Ah (putMat rg n 1 one s))

/-- The configuration words that a job latches as it starts (R225). -/
def latchCfg (s : State) (rg : Nat) (j : Job) : Job :=
  { j with
    cfg := getF s ROOTSEQ_CFG_ITER_P2 rg + 256 * getF s ROOTSEQ_CFG_ITER_P4 rg + 65536 * getF s ROOTSEQ_CFG_ITER_P8 rg
      + 16777216 * getF s ROOTSEQ_CFG_RES_EXP rg
    damp := getF s ROOTSEQ_DAMP rg, pivFloor := getF s ROOTSEQ_PIV_FLOOR rg }

/-- A job at phase 1 for the first time: it latches its configuration and is counted (R225, R260). -/
def firstStart (s : State) (rg : Nat) (j : Job) : Job := if j.started then j else { latchCfg s rg j with started := true }

/-- The factor of the job's side in half 1 is read and given to `f`; an uncorrectable error ends the job with ECC (R244). -/
def withFactor (rg : Nat) (j : Job) (f : Mat → State → State) (s : State) : State :=
  match loadTiles (regionDie rg) 2 (bufAddr s (jobBlk j) 3) 16384 (sideTiles j).1 (sideTiles j).2 s with
  | (.ok ts, s) => f (sideFactor j ts) s
  | (.error (_, true), s) => failJob rg j 3 0 s
  | (.error (_, false), s) => s

/-- RANGE of the job's right side is judged before its left side borrows a unit (R236). -/
def judgeRight (rg : Nat) (j : Job) (f : State → State) (s : State) : State :=
  if j.side = 0 ∧ lSideR j.lat then
    withFactor rg { j with side := 1 } (fun A s => if sideRange { j with side := 1 } A then failJob rg { j with side := 1 } 2 0 s else f s) s
  else f s

/-- ROOT_JOB_START: the sequencer pre-scales and damps the next side of its job into scratch (R224, R225, R235, R236). -/
def rootJobStart (rg : Nat) (s : State) : State :=
  match jobIn s rg [0] with
  | none => s
  | some k =>
    if !isF s ROOTSEQ_CTRL_EN rg then s
    else
      let j := firstStart s rg k
      let s := if k.started then s else putJob rg (some j) (incr ROOTSEQ_JOB_START rg s)
      if getF s ROOTSEQ_SCR_SIZE rg * 1048576 < (if jobCode j = 0 then 32 else 64) * jobN j * jobN j then failJob rg j 5 0 s
      else withFactor rg j (fun A s => if sideRange j A then failJob rg j 2 0 s else judgeRight rg j (preScale rg j A) s) s

/-- ROOT_JOB_START. -/
def execRootJobStart (rg : Nat) (s : State) : Host.Outcome State Fault Refusal := .next (runningIn (32 + rg) s (rootJobStart rg s))

/-! ## Wide descriptors (R231, R233, R234) -/

/-- A unit that the sequencer may borrow (R231). -/
def lendable (s : State) (u : Nat) : Bool :=
  isF s TUNIT_CTRL_WIDE_ALLOW u && !fenced s u && domOn s (pageDomain 0 u)

/-- No unit of a region holds or runs a wide descriptor. -/
def wideIdle (s : State) (rg : Nat) : Nat → Bool
  | 0 => true
  | n + 1 =>
    let x := unitOf s (rg * 32 + n)
    wideIdle s rg n && x.wq.isEmpty && !(x.run.any (·.wide))

/-- No unit of a region runs a wide descriptor. -/
def wideStopped (s : State) (rg : Nat) : Nat → Bool
  | 0 => true
  | n + 1 => wideStopped s rg n && !((unitOf s (rg * 32 + n)).run.any (·.wide))

/-- First byte of the staging window in a cluster's SRAM (R223, R261). -/
def stageBase (s : State) (rg : Nat) : Nat := getF s ROOTSEQ_SRAM_WIN_BASE rg * 4096

/-- Bytes of the staging window. -/
def stageSize (s : State) (rg : Nat) : Nat := getF s ROOTSEQ_SRAM_WIN_SIZE rg * 4096

/-- An area of a wide descriptor lies in the staging window. -/
def inWindow (s : State) (rg : Nat) (e : Nat × Nat × Nat × Nat) : Bool :=
  decide (stageBase s rg ≤ e.1 ∧ e.1 + (e.2.2.1 - 1) * e.2.1 + e.2.2.2 ≤ stageBase s rg + stageSize s rg)

/-- A piece of a product that the sequencer may issue: at most eight tiles, K at most 4,096, operands in the window (R233). -/
def pieceOk (s : State) (rg : Nat) (d : List Byte) : Bool :=
  mWide d && decide (mTiles d ≤ 8) && decide (mK d ≤ 4096) && (mAreas d).all (inWindow s rg)

/-- A staging copy lies within the scratch and the window. -/
def stageOk (s : State) (rg : Nat) (e : Stage) : Bool :=
  decide (e.src + e.n ≤ getF s ROOTSEQ_SCR_SIZE rg * 1048576 ∧ e.dst + e.n ≤ stageSize s rg)

/-- The DMA engine of cluster `cl` copies operands from scratch into the staging window, in order; whether it met an uncorrectable error
(R20, R223). -/
def stageIn (rg cl : Nat) : List Stage → State → Bool × State
  | [], s => (false, s)
  | e :: r, s =>
    match engRead (regionDie rg) 2 (getF s ROOTSEQ_SCR_BASE rg * 4096 + e.src) e.n s with
    | (.data bs, s) => stageIn rg cl r (sramWrite cl (stageBase s rg + e.dst) bs s)
    | (.uncorr, s) => (true, s)
    | (.fault _, s) => stageIn rg cl r s

/-- Put a wide descriptor of job `j` into the wide queue of unit `u`; one withdrawn from a fenced unit goes first. -/
def wideIssue (rg u : Nat) (j : Job) (d : List Byte) (s : State) : State :=
  let q := seqOf s rg
  let x := q.back.headD { desc := d, ctx := j.ctx, wide := true, lid := q.epoch }
  incr ROOTSEQ_WIDE_ISSUED rg (modUnit u (fun y => { y with wq := y.wq ++ [{ x with tile := 0, status := 0 }] })
    (modSeq rg (fun q => { q with back := q.back.tail }) s))

/-- WIDE_DESC_ISSUE: the sequencer stages the operands of a piece of a product of its running job in the window of the unit's cluster and
writes the wide descriptor into the wide queue of unit `u` (R86, R223, R231, R233, R234). `unc` says that an uncorrectable error was met
in the window (R244). DESIGN CHOICE (log entry 112): the piece and its copies are operands. -/
def wideDescIssue (rg u : Nat) (d : List Byte) (st : List Stage) (unc : Bool) (s : State) : State :=
  match jobIn s rg [2, 3, 4] with
  | none => s
  | some j =>
    if !isF s ROOTSEQ_CTRL_EN rg || u / 32 != rg || !lendable s u || decide (4 ≤ (unitOf s u).wq.length)
        || !(pieceOk s rg d && st.all (stageOk s rg)) then s
    else
      let r := stageIn rg (u / 4) st s
      if r.1 || unc then failJob rg j 3 0 r.2 else wideIssue rg u j d r.2

/-- WIDE_DESC_ISSUE. -/
def execWideDescIssue (rg u : Nat) (d : Piece) (s : State) : Host.Outcome State Fault Refusal :=
  .next (runningIn (32 + rg) s (wideDescIssue rg u d.desc d.st d.unc s))

/-- The running job of a sequencer in a phase whose wide descriptors have all completed. -/
def jobReady (s : State) (rg : Nat) (ph : Nat) : Option Job :=
  if isF s ROOTSEQ_CTRL_EN rg && wideIdle s rg 32 && (seqOf s rg).back.isEmpty then jobIn s rg [ph] else none

/-! ## Newton (R237 to R239) -/

/-- e_k of R238. -/
def newtonExp (p k : Nat) : Nat :=
  let c := ((p + 1) ^ k + p ^ k - 1) / p ^ k
  if c ≤ 1 then 0 else Nat.log2 (c - 1) + 1

/-- T of an iteration (R237). -/
def newtonT (p : Nat) (M : IMat) : IMat :=
  M.zipIdx.map fun r => r.1.zipIdx.map fun v =>
    (wideSat (bxShift ((if v.2 = r.2 then ((p : Int) + 1) * 2 ^ 62 else 0) - v.1) (Nat.log2 p))).1

/-- W_p of an iteration, and whether an output saturated. -/
def newtonW (n : Nat) (T : IMat) : Nat → IMat → IMat × Bool
  | 0, W => (W, false)
  | k + 1, W =>
    let x := wideMat n T W
    let y := newtonW n T k x.1
    (y.1, x.2 || y.2)

/-- NEWTON_ITERATION_DONE: an iteration of the running job completes and its progress is saved in the other pair of buffers; a
saturation ends the job with RANGE (R237, R239, R251). -/
def newtonIterationDone (rg : Nat) (s : State) : State :=
  match jobReady s rg 2 with
  | none => s
  | some j =>
    let n := jobN j
    let p := jobP j
    let k := j.iter + 1
    withMats rg j [1 + j.iter % 2, 3 + j.iter % 2] (fun ms s =>
      let X := ms.getD 0 []
      let M := ms.getD 1 []
      let T := newtonT p M
      let W := newtonW n T p M
      let ek : Int := newtonExp p k
      let Y := wideMat n X (T.map fun r => r.map fun v => bxShift v (ek - j.sx).toNat)
      if W.2 || Y.2 || (seqOf s rg).sat then failJob rg j 2 0 s
      else
        let s := putMat rg n (1 + k % 2) Y.1 (putMat rg n (3 + k % 2) W.1 s)
        saveJob rg { j with iter := k, sx := ek, ph := if k = jobKmax j then 4 else 2 } (incr ROOTSEQ_ITER_DONE rg s)) s

/-- NEWTON_ITERATION_DONE. -/
def execNewtonIterationDone (rg : Nat) (s : State) : Host.Outcome State Fault Refusal :=
  .next (runningIn (32 + rg) s (newtonIterationDone rg s))

/-! ## Cholesky (R240 to R242) -/

/-- One column of a panel: the pivot is floored at φ, and the columns of the panel after it are updated. The working matrix,
and the amount added to a floored pivot. -/
def cholCol (phi : FV) (c stop : Nat) (A : IMat) : IMat × Option Int :=
  let d0 := A.at c c
  let low := !(phi.lt (bxVal d0 0))
  let d := if low then bxOf phi 0 else d0
  let l := Config.bxSqrt d
  let r := Config.bxRecip l
  let col := (List.range A.length).map fun i =>
    if i = c then l else if c < i then Config.bxPipeMul (A.at i c) r else A.at i c
  let B := A.zipIdx.map fun row => row.1.zipIdx.map fun v =>
    if v.2 = c then col.getD row.2 0
    else if c < v.2 ∧ v.2 < stop ∧ v.2 ≤ row.2 then v.1 - Config.bxPipeMul (col.getD row.2 0) (col.getD v.2 0)
    else v.1
  (B, if low then some (d - d0) else none)

/-- The columns of a panel from `c` on: the working matrix, and the floored pivots with the amounts added (R241). -/
def cholCols (phi : FV) (stop : Nat) : Nat → Nat → IMat → IMat × List (Nat × Int)
  | 0, _, A => (A, [])
  | k + 1, c, A =>
    let x := cholCol phi c stop A
    let y := cholCols phi stop k (c + 1) x.1
    (y.1, (x.2.toList.map fun v => (c, v)) ++ y.2)

/-- The trailing update of a panel in wide mode, and whether an output saturated. -/
def cholTrail (c stop : Nat) (A : IMat) : IMat × Bool :=
  let pan := A.map fun r => (r.drop c).take (stop - c)
  let C := A.zipIdx.map fun row => row.1.zipIdx.map fun v =>
    if stop ≤ v.2 ∧ v.2 ≤ row.2 then
      let x := wideSat (wideDot (pan.getD row.2 []) (pan.getD v.2 []))
      let y := wideSat (v.1 - x.1)
      (y.1, x.2 || y.2)
    else (v.1, false)
  (C.map fun r => r.map (·.1), C.any fun r => r.any (·.2))

/-- The lower triangle of the working matrix. -/
def lowerTri (A : IMat) : IMat := A.zipIdx.map fun r => r.1.zipIdx.map fun v => if v.2 ≤ r.2 then v.1 else 0

/-- e_L of R242, from λ × 2^−s. -/
def cholExp (j : Job) : Int :=
  match (val32 j.lam).scale (-j.s) with
  | .fin _ m e => if m = 0 then 0 else -((topExp m e) / 2)
  | _ => 0

/-- Block (i, k) of 64 × 64 of a matrix. -/
def blockOf (A : IMat) (i k : Nat) : IMat := ((A.drop (64 * i)).take 64).map fun r => (r.drop (64 * k)).take 64

/-- An element at exponent 2e brought to exponent e and negated, saturated. -/
def invScale (e x : Int) : Int × Bool := wideSat (-(if 0 ≤ e then x * (2 ^ e.toNat : Nat) else bxShift x (-e).toNat))

/-- Blocks (k, k) to (k + m, k) of L⁻¹ at exponent `e`, and whether an output saturated: block (i, k) is −(L⁻¹)ᵢᵢ · Σ Lᵢₕ · (L⁻¹)ₕₖ,
with both products in wide mode (R240, R242). DESIGN CHOICE (log entry 111): the factor 2^e is applied to the second product. -/
def invCol (e : Int) (L : IMat) (k : Nat) : Nat → List IMat × Bool
  | 0 => ([Config.bxTileInverse e (blockOf L k k)], false)
  | m + 1 =>
    let p := invCol e L k m
    let i := k + m + 1
    let row := ((L.drop (64 * i)).take 64).map fun r => (r.drop (64 * k)).take (64 * (m + 1))
    let S := wideMat 64 row (p.1.flatMap id)
    let Y := wideMat 64 (Config.bxTileInverse e (blockOf L i i)) S.1
    let Z := Y.1.map fun r => r.map (invScale e)
    (p.1 ++ [Z.map fun r => r.map (·.1)], p.2 || S.2 || Y.2 || Z.any fun r => r.any (·.2))

/-- L⁻¹ of a lower triangle of side `n` at exponent `e`, panel by panel, and whether an output saturated (R240). -/
def triInverse (n : Nat) (e : Int) (L : IMat) : IMat × Bool :=
  let t := n / 64
  let cols := (List.range t).map fun k => invCol e L k (t - 1 - k)
  ((List.range n).map fun p => (List.range t).flatMap fun k =>
    if k ≤ p / 64 then (((cols.getD k ([], false)).1.getD (p / 64 - k) []).getD (p % 64) []) else List.replicate 64 0,
   cols.any (·.2))

/-- CHOLESKY_PANEL_DONE: a panel of the factorisation completes; after the last one L⁻¹ and X are formed (R240 to R242). -/
def choleskyPanelDone (rg : Nat) (s : State) : State :=
  match jobReady s rg 3 with
  | none => s
  | some j =>
    let n := jobN j
    let c := 64 * j.iter
    withMats rg j [0, 1 + j.iter % 2] (fun ms s =>
      let x := cholCols (val32 j.phi) (c + 64) 64 c (ms.getD 1 [])
      let y := cholTrail c (c + 64) x.1
      let A0 : IMat := (ms.getD 0 []).zipIdx.map fun r => r.1.zipIdx.map fun v =>
        if v.2 = r.2 then v.1 + ((x.2.find? fun e => e.1 == v.2).map (·.2)).getD 0 else v.1
      let m := x.2.length
      let s := if m = 0 then s else putMat rg n 0 A0 (addF ROOTSEQ_PIV_FLOORED rg m s)
      let j := { j with piv := j.piv + m }
      if y.2 || (seqOf s rg).sat then failJob rg j 2 0 s
      else
        let k := j.iter + 1
        let s := incr ROOTSEQ_ITER_DONE rg (putMat rg n (1 + k % 2) y.1 s)
        if 64 * k < n then saveJob rg { j with iter := k } s
        else
          let eL := cholExp j
          let L := lowerTri y.1
          let I := triInverse n eL L
          let X := wideMat n (IMat.flip I.1 n) I.1
          if I.2 || X.2 then failJob rg j 2 0 s
          else saveJob rg { j with iter := k, sx := 2 * eL, ph := 4 } (putMat rg n 3 X.1 (putMat rg n (1 + k % 2) L s))) s

/-- CHOLESKY_PANEL_DONE. -/
def execCholeskyPanelDone (rg : Nat) (s : State) : Host.Outcome State Fault Refusal :=
  .next (runningIn (32 + rg) s (choleskyPanelDone rg s))

/-! ## Residual (R243) -/

/-- The probe matrix, row by row. -/
def probe (seed : Nat) (j : Job) : IMat :=
  (List.range (jobN j)).map fun i => (List.range 8).map fun k =>
    if (draw seed j.snap j.gbi ((8 * i + k + j.side * 0x80000000) % two32)).testBit 23 then -1 else 1

/-- A matrix times a matrix of 8 columns, exactly. -/
def exactMul (A V : IMat) : IMat :=
  let cols := V.flip 8
  A.map fun r => cols.map fun c => (r.zip c).foldl (fun a e => a + e.1 * e.2) 0

/-- A applied `k` times. -/
def exactPow (A : IMat) : Nat → IMat → IMat
  | 0, V => V
  | k + 1, V => exactMul A (exactPow A k V)

/-- The largest magnitude of A × 2^`a` − B × 2^`b`. -/
def maxDiff (A B : IMat) (a b : Int) : FV :=
  let q := min a b
  let m := (A.zip B).foldl (fun m r => (r.1.zip r.2).foldl (fun m e =>
    max m (e.1 * 2 ^ (a - q).toNat - e.2 * 2 ^ (b - q).toNat).natAbs) m) 0
  .fin false m q

/-- r of a Newton side, in exact arithmetic over the saved matrices Â, X and M. -/
def newtonRes (p : Nat) (ex : Int) (Ah X M V : IMat) : FV :=
  maxDiff (exactMul M V) (exactPow X p (exactMul Ah V)) (-62) (p * ex - 62 * (p + 1))

/-- r of a Cholesky side, from Â + D, L and X. -/
def cholRes (n : Nat) (ex : Int) (A L X V : IMat) : FV :=
  let llt := fun W => exactMul L (exactMul (L.flip n) W)
  let a := maxDiff (llt V) (exactMul A V) (-124) (-62)
  let b := maxDiff (llt (exactMul X V)) V (ex - 186) 0
  if a.lt b then b else a

/-- RES_LOG of a residual (R255). -/
def resLog (r : FV) : Nat :=
  match r with
  | .fin _ m e => twos 8 (clampI (-128) 127 (ceilLog m e))
  | _ => 0

/-- The BF16 words of a root's upper-triangle tiles (R245). -/
def rootWords (j : Job) (X : IMat) : List Nat :=
  let n := jobN j
  let a := jobA j
  let R : Mat := (List.range n).map fun i => (List.range n).map fun k =>
    if a ≤ i ∨ a ≤ k then fv0 else bxVal (X.at (min i k) (max i k)) (j.sx - j.s / (jobP j : Int))
  (triOfMat (n / 64) R).flatMap fun t => t.flatMap fun r => r.map fmtBF16.enc

/-- A side has ended: its residual decides (R243). -/
def checkSide (rg : Nat) (j : Job) (r : FV) (X : IMat) (s : State) : State :=
  if FV.lt (.fin false 1 (-(jobRes j : Int))) r then failJob rg j 1 (resLog r) s
  else
    let j := { j with roots := j.roots ++ [rootWords j X] }
    if j.side = 0 ∧ lSideR j.lat then saveJob rg { j with side := 1, ph := 0, iter := 0 } s
    else saveJob rg { j with ph := 5 } s

/-- RESIDUAL_CHECK: at the end of a side the sequencer checks it with the probe matrix (R243). -/
def residualCheck (rg : Nat) (s : State) : State :=
  match jobReady s rg 4 with
  | none => s
  | some j =>
    if (seqOf s rg).sat then failJob rg j 2 0 s
    else
    let V := probe ((ctxOf s j.ctx).seed.getD 0) j
    if jobCode j = 0 then
      withMats rg j [0, 1 + j.iter % 2, 3] (fun ms s =>
        checkSide rg j (cholRes (jobN j) j.sx (ms.getD 0 []) (ms.getD 1 []) (ms.getD 2 []) V) (ms.getD 2 []) s) s
    else
      withMats rg j [0, 1 + j.iter % 2, 3 + j.iter % 2] (fun ms s =>
        checkSide rg j (newtonRes (jobP j) j.sx (ms.getD 0 []) (ms.getD 1 []) (ms.getD 2 []) V) (ms.getD 1 []) s) s

/-- RESIDUAL_CHECK. -/
def execResidualCheck (rg : Nat) (s : State) : Host.Outcome State Fault Refusal := .next (runningIn (32 + rg) s (residualCheck rg s))

/-! ## Conversion and publication (R245 to R249, R253) -/

/-- The spare half may be written: every step open at the block's previous publication has closed (R246). -/
def spareFree (s : State) (rg c g : Nat) : Bool :=
  match (seqOf s rg).pubs.find? fun e => e.1 == c && e.2.1 == g with
  | some e => e.2.2.all fun n => (stepOf s c n).isNone
  | none => true

/-- The block is frozen in the step opened last (R249). -/
def frozenNow (s : State) (c g : Nat) : Bool := (ctxOf s c).tabs.any fun b => b.gbi == g && lFrozen b.lat

/-- An owner waits for the block's publication in replay (R253). -/
def rootWanted (s : State) (c g : Nat) : Bool :=
  (ctxOf s c).steps.any fun st => st.blks.any fun b => b.gbi == g && b.wantsRoot

/-- A ready job is held back: in replay until an owner waits for it, and otherwise while its block is frozen (R249, R253). -/
def heldBack (s : State) (j : Job) : Bool :=
  if replayOn s j.ctx then !rootWanted s j.ctx j.gbi else frozenNow s j.ctx j.gbi

/-- A checkpoint still has to read the block before its roots change (R470). -/
def ckptReads (s : State) (j : Job) : Bool :=
  (ctxOf s j.ctx).ckpt.any fun k => k.left.any fun l => l.contains j.gbi && (decide (k.cut < ctxHighest s j.ctx) ||
    (ctxOf s j.ctx).steps.any fun st => st.step == k.cut && st.blks.any fun b => b.gbi == j.gbi && decide (5 ≤ b.ph))

/-- A ready job may be published. -/
def mayPublish (s : State) (rg : Nat) (j : Job) : Bool :=
  !seqStalled s j.ctx rg && !heldBack s j && !ckptReads s j && (j.written || spareFree s rg j.ctx j.gbi)

/-- The tiles of a job's roots are written into the spare half (R245). -/
def writeRoots (j : Job) (s : State) : State :=
  let b := jobBlk j
  let kind := 5 - recGet s b 36 1 % 2
  let tiles := chunks 8192 (j.roots.flatMap id).length ((j.roots.flatMap id).flatMap (leBytes 2))
  let s := storeTiles (dieOf b.cl) (bufAddr s b kind) 8192 0 tiles s
  if mirrored s j.ctx b then keepCrcs b.gbi kind tiles s else s

/-- The job is ready, and the sequencer is free for the next. -/
def holdJob (rg : Nat) (j : Job) (s : State) : State :=
  let s := memStore (dieOf j.cl) (j.addr + 88) (wipBytes j) s
  putJob rg none (modSeq rg (fun q => { q with held := q.held ++ [j] }) s)

/-- ROOT_CONVERT: the roots are converted into BF16 and written into the spare half, and the job is ready. A job that is held back keeps
them until its publication, so that nothing of a job that is abandoned meanwhile reaches a root half (R229). In replay a job that the
journal rejects is rejected (R245, R246, R249, R253, log entry 110). -/
def rootConvert (rg : Nat) (s : State) : State :=
  match jobIn s rg [5] with
  | none => s
  | some j =>
    match bookedReject s j with
    | some p => rejectJob rg j (pay p 13 1 % 16) (pay p 13 1 / 16 % 2) (pay p 14 1) (rootDiv j.cl s)
    | none =>
      if heldBack s j then holdJob rg { j with ph := 6 } s
      else if !spareFree s rg j.ctx j.gbi || ckptReads s j then s
      else holdJob rg { j with ph := 6, written := true } (writeRoots j s)

/-- ROOT_CONVERT. -/
def execRootConvert (rg : Nat) (s : State) : Host.Outcome State Fault Refusal := .next (runningIn (32 + rg) s (rootConvert rg s))

/-- Publish a ready job: the word of bytes 32 to 39 in one write, then SNAP_BUSY, and the transfer to the twin
(R247, R248). -/
def publishJob (rg : Nat) (j : Job) (s : State) : State :=
  let b := jobBlk j
  let half := 1 - recGet s b 36 1 % 2
  let damped := decide (j.piv ≠ 0)
  let old := recGet s b 32 8
  let s := auditAbort j.gbi (if j.written then s else writeRoots j s)
  let s := recPut b 32 8 ((old % two32 + 1) % two32 + two32 * (old / two32 / 8 * 8 + half + 2 * b2n damped)) s
  let s := recPut b 48 1 0 (clearWip b s)
  let s := incr ROOTSEQ_ROOT_PUB rg s
  let s := if damped then setEvt ROOTSEQ_EV_DAMPED rg (incr ROOTSEQ_DAMPED_PUB rg s) else s
  let s := modSeq rg (fun q => { q with
    held := q.held.filter fun x => !jobIs j.ctx j.gbi x
    snaps := q.snaps.filter fun e => !(e.1 == j.ctx && e.2.1 == j.gbi)
    pubs := (q.pubs.filter fun e => !(e.1 == j.ctx && e.2.1 == j.gbi)) ++
      [(j.ctx, j.gbi, (ctxOf s j.ctx).steps.map (·.step))] }) s
  if mirrored s j.ctx b then
    match wholeBuf b (4 + half) s with
    | (some ts, s) => sendRoots b false (4 + half) ts s
    | (none, s) => s
  else s

/-- ROOT_PUBLISH: the first ready job of a sequencer that may be published is published. -/
def rootPublish (rg : Nat) (s : State) : State :=
  match (seqOf s rg).held.find? (mayPublish s rg) with
  | some j => publishJob rg j s
  | none => s

/-- ROOT_PUBLISH. -/
def execRootPublish (rg : Nat) (s : State) : Host.Outcome State Fault Refusal := .next (runningIn (32 + rg) s (rootPublish rg s))

/-! ## Due notices (R227 to R230, R253) -/

/-- The reply to a due notice reaches the owner. -/
def replyNotice (t : Notice) (s : State) : State := modBlk t.ctx t.step t.gbi (fun b => { b with notice := 2 }) s

/-- The job of a block as far as a ROOT_EVT record names it. -/
def jobFor (s : State) (rg c : Nat) (b : Blk) : Job :=
  let q := seqOf s rg
  (q.job.toList ++ q.held).find? (jobIs c b.gbi) |>.getD
    { ctx := c, gbi := b.gbi, cl := b.cl, addr := b.addr, lat := b.lat, snap := recGet s b 40 4,
      ver := (recGet s b 32 4 + 1) % two32 }

/-- What the sequencer decides at a due notice: 0 not late, 1 CONTINUE, 2 RESTART (R228, R253). -/
def lateKind (s : State) (t : Notice) (b : Blk) : Nat :=
  if replayOn s t.ctx then
    ((rplFind s t.ctx 0x21 fun p => pay p 0 4 == t.step && pay p 4 4 == t.gbi && pay p 12 1 % 4 != 3).map
      fun p => pay p 12 1 % 4).getD 0
  else if recGet s b 48 1 % 2 = 1 then (if lPolicy b.lat then 2 else 1)
  else 0

/-- The job of a block is abandoned: what no unit has started is withdrawn (R229). -/
def stopJob (rg c g : Nat) (s : State) : State :=
  let s := if (seqOf s rg).job.any (jobIs c g) then
      putJob rg none (modSeq rg (fun q => { q with back := [], sat := false }) (dropWide rg 32 s)) else s
  modSeq rg (fun q => { q with held := q.held.filter fun j => !jobIs c g j }) s

/-- DUE_NOTICE: the sequencer handles the oldest due notice, between its own publications: one whose roots are being written completes
first (R227, R228). -/
def dueNotice (rg : Nat) (s : State) : State :=
  let q := seqOf s rg
  match q.notices with
  | [] => s
  | t :: rest =>
    if q.restart.isSome || seqStalled s t.ctx rg || q.held.any (fun j => j.written && !heldBack s j) then s
    else match blkOf s t.ctx t.step t.gbi with
      | none => modSeq rg (fun q => { q with notices := rest }) s
      | some (_, b) =>
        let s := modSeq rg (fun q => { q with notices := rest }) s
        let j := jobFor s rg t.ctx b
        let k := lateKind s t b
        if k = 0 then replyNotice t s
        else
          let s := setEvt ROOTSEQ_EV_ROOT_LATE rg (incr ROOTSEQ_ROOT_LATE rg s)
          let s := rootEvt rg j t.step k 0 0 0 s
          if k = 1 then replyNotice t s
          else modSeq rg (fun q => { q with restart := some t }) (stopJob rg t.ctx t.gbi (incr ROOTSEQ_ROOT_RESTART rg s))

/-- DUE_NOTICE. -/
def execDueNotice (rg : Nat) (s : State) : Host.Outcome State Fault Refusal := .next (runningIn (32 + rg) s (dueNotice rg s))

/-- RESTART_REPLY: once the running wide descriptors have completed, the record is cleared and the owner gets its reply
(R228 to R230). -/
def restartReply (rg : Nat) (s : State) : State :=
  match (seqOf s rg).restart with
  | none => s
  | some t =>
    if !wideStopped s rg 32 then s
    else
      let s := modSeq rg (fun q => { q with
        restart := none, snaps := q.snaps.filter fun e => !(e.1 == t.ctx && e.2.1 == t.gbi) }) s
      match blkOf s t.ctx t.step t.gbi with
      | none => s
      | some (_, b) => replyNotice t (recPut b 48 1 0 (clearWip b s))

/-- RESTART_REPLY. -/
def execRestartReply (rg : Nat) (s : State) : Host.Outcome State Fault Refusal := .next (runningIn (32 + rg) s (restartReply rg s))

/-! ## Lending (R232) and lockstep (R222) -/

/-- The earlier of two late checks, each with its context. -/
def sooner (a b : Option (Nat × Nat)) : Option (Nat × Nat) :=
  match a, b with
  | some x, some y => if y.2 < x.2 then some y else some x
  | some x, none => some x
  | none, y => y

/-- The earliest root work of a region, running or waiting: its context, and its late-check step. -/
def nextLate (s : State) (rg : Nat) : Option (Nat × Nat) :=
  sooner ((seqOf s rg).job.map fun j => (j.ctx, lateStep s j.ctx (jobBlk j)))
    ((earliest s (candidates s rg 16)).map fun e => (e.1, lateStep s e.1 e.2))

/-- The late check of the earliest job falls within URGENT steps after the highest step open. -/
def urgentNow (s : State) (rg : Nat) : Bool :=
  let u := getF s ROOTSEQ_URGENT rg
  u != 0 && (nextLate s rg).any fun e =>
    (ctxOf s e.1).steps.any fun st => decide (e.2 ≤ st.step + u)

/-- An owner of the region's clusters waits for a publication in replay. -/
def ownerWaits (s : State) (rg : Nat) : Nat → Bool
  | 0 => false
  | n + 1 => ownerWaits s rg n || (replayOn s n && (ctxOf s n).steps.any fun st =>
      st.blks.any fun b => b.wantsRoot && b.cl / 8 == rg)

/-- LEND of every unit of a region: eligible units are lent or taken back. -/
def lendAll (rg v : Nat) : Nat → State → State
  | 0, s => s
  | n + 1, s =>
    let s := lendAll rg v n s
    setF TUNIT_STAT_LEND (rg * 32 + n) (if lendable s (rg * 32 + n) then v else 0) s

/-- LEND_SET: the sequencer sets LEND on its eligible units while it is urgent or an owner waits on it in replay, and
otherwise clears it (R232). -/
def lendSet (rg : Nat) (s : State) : State :=
  let urgent := urgentNow s rg
  let lend := urgent || ownerWaits s rg 16
  setF ROOTSEQ_STAT_LENDING rg (b2n lend) (setF ROOTSEQ_STAT_URGENT rg (b2n urgent) (lendAll rg (b2n lend) 32 s))

/-- LEND_SET. -/
def execLendSet (rg : Nat) (s : State) : Host.Outcome State Fault Refusal := .next (runningIn (32 + rg) s (lendSet rg s))

/-- SEQ_LOCKSTEP: the two copies of a pipe disagree: a running job ends with LOCKSTEP, and the Breakwater counts the report
(R222, R244, R600). -/
def seqLockstep (rg : Nat) (s : State) : State :=
  let s := setEvt ROOTSEQ_EV_LOCKSTEP rg s
  let s := setEvt BRKW_EV_SEQ_LOCKSTEP 0 (incr BRKW_SEQ_LOCKSTEP_CNT 0 s)
  match (seqOf s rg).job with
  | none => s
  | some j => failJob rg j 4 0 s

/-- SEQ_LOCKSTEP. -/
def execSeqLockstep (rg : Nat) (s : State) : Host.Outcome State Fault Refusal := .next (runningIn (32 + rg) s (seqLockstep rg s))

end Sys2Proof.Machine
end

