-- ==== Sys2Proof/Machine/Sha.lean ====
section
/-! DEFINITION. The SHA-384 digest that manifests, images and debug challenges use (R478, R483); the algorithm is that of
FIPS 180-4, which the spec names. -/

namespace Sys2Proof.Machine

/-- A 64-bit word of the digest. -/
abbrev W64 : Type := BitVec 64

/-- Round constants 0 to 39. -/
def shaK0 : List W64 :=
  [0x428A2F98D728AE22, 0x7137449123EF65CD, 0xB5C0FBCFEC4D3B2F, 0xE9B5DBA58189DBBC,
   0x3956C25BF348B538, 0x59F111F1B605D019, 0x923F82A4AF194F9B, 0xAB1C5ED5DA6D8118,
   0xD807AA98A3030242, 0x12835B0145706FBE, 0x243185BE4EE4B28C, 0x550C7DC3D5FFB4E2,
   0x72BE5D74F27B896F, 0x80DEB1FE3B1696B1, 0x9BDC06A725C71235, 0xC19BF174CF692694,
   0xE49B69C19EF14AD2, 0xEFBE4786384F25E3, 0x0FC19DC68B8CD5B5, 0x240CA1CC77AC9C65,
   0x2DE92C6F592B0275, 0x4A7484AA6EA6E483, 0x5CB0A9DCBD41FBD4, 0x76F988DA831153B5,
   0x983E5152EE66DFAB, 0xA831C66D2DB43210, 0xB00327C898FB213F, 0xBF597FC7BEEF0EE4,
   0xC6E00BF33DA88FC2, 0xD5A79147930AA725, 0x06CA6351E003826F, 0x142929670A0E6E70,
   0x27B70A8546D22FFC, 0x2E1B21385C26C926, 0x4D2C6DFC5AC42AED, 0x53380D139D95B3DF,
   0x650A73548BAF63DE, 0x766A0ABB3C77B2A8, 0x81C2C92E47EDAEE6, 0x92722C851482353B]

/-- Round constants 40 to 79. -/
def shaK1 : List W64 :=
  [0xA2BFE8A14CF10364, 0xA81A664BBC423001, 0xC24B8B70D0F89791, 0xC76C51A30654BE30,
   0xD192E819D6EF5218, 0xD69906245565A910, 0xF40E35855771202A, 0x106AA07032BBD1B8,
   0x19A4C116B8D2D0C8, 0x1E376C085141AB53, 0x2748774CDF8EEB99, 0x34B0BCB5E19B48A8,
   0x391C0CB3C5C95A63, 0x4ED8AA4AE3418ACB, 0x5B9CCA4F7763E373, 0x682E6FF3D6B2B8A3,
   0x748F82EE5DEFB2FC, 0x78A5636F43172F60, 0x84C87814A1F0AB72, 0x8CC702081A6439EC,
   0x90BEFFFA23631E28, 0xA4506CEBDE82BDE9, 0xBEF9A3F7B2C67915, 0xC67178F2E372532B,
   0xCA273ECEEA26619C, 0xD186B8C721C0C207, 0xEADA7DD6CDE0EB1E, 0xF57D4F7FEE6ED178,
   0x06F067AA72176FBA, 0x0A637DC5A2C898A6, 0x113F9804BEF90DAE, 0x1B710B35131C471B,
   0x28DB77F523047D84, 0x32CAAB7B40C72493, 0x3C9EBE0A15C9BEBC, 0x431D67C49C100D4C,
   0x4CC5D4BECB3E42B6, 0x597F299CFC657E2A, 0x5FCB6FAB3AD6FAEC, 0x6C44198C4A475817]

/-- The initial hash value of SHA-384. -/
def shaInit : List W64 :=
  [0xCBBB9D5DC1059ED8, 0x629A292A367CD507, 0x9159015A3070DD17, 0x152FECD8F70E5939,
   0x67332667FFC00B31, 0x8EB44A8768581511, 0xDB0C2E0D64F98FA7, 0x47B5481DBEFA4FA4]

/-- Rotate right. -/
def rotr (x : W64) (n : Nat) : W64 := x.rotateRight n

/-- A big-endian word of eight bytes. -/
def beWord (bs : List Byte) : W64 := bs.foldl (fun a b => a <<< 8 ||| b.zeroExtend 64) 0

/-- The big-endian bytes of a word. -/
def beBytes64 (w : W64) : List Byte := (List.range 8).map fun i => (w >>> (56 - 8 * i)).truncate 8

/-- The first 16 words of a block. -/
def shaWords : Nat → List Byte → List W64
  | 0, _ => []
  | n + 1, bs => beWord (bs.take 8) :: shaWords n (bs.drop 8)

/-- The next `n` words of the schedule from the last 16, oldest first. -/
def shaExtend : Nat → List W64 → List W64
  | 0, _ => []
  | n + 1, w =>
    let a := w.getD 14 0
    let b := w.getD 1 0
    let s1 := rotr a 19 ^^^ rotr a 61 ^^^ (a >>> 6)
    let s0 := rotr b 1 ^^^ rotr b 8 ^^^ (b >>> 7)
    let x := s1 + w.getD 9 0 + s0 + w.getD 0 0
    x :: shaExtend n (w.drop 1 ++ [x])

/-- One round on the eight working variables. -/
def shaRound (v : List W64) (k w : W64) : List W64 :=
  match v with
  | [a, b, c, d, e, f, g, h] =>
    let t1 := h + (rotr e 14 ^^^ rotr e 18 ^^^ rotr e 41) + ((e &&& f) ^^^ (~~~e &&& g)) + k + w
    let t2 := (rotr a 28 ^^^ rotr a 34 ^^^ rotr a 39) + ((a &&& b) ^^^ (a &&& c) ^^^ (b &&& c))
    [t1 + t2, a, b, c, d + t1, e, f, g]
  | _ => v

/-- All rounds of a block. -/
def shaRounds : List W64 → List W64 → List W64 → List W64
  | k :: ks, w :: ws, v => shaRounds ks ws (shaRound v k w)
  | _, _, v => v

/-- One block of 128 bytes. -/
def shaBlock (h : List W64) (bs : List Byte) : List W64 :=
  let w := shaWords 16 bs
  h.zipWith (· + ·) (shaRounds (shaK0 ++ shaK1) (w ++ shaExtend 64 w) h)

/-- `n` blocks. -/
def shaBlocks : Nat → List Byte → List W64 → List W64
  | 0, _, h => h
  | n + 1, bs, h => shaBlocks n (bs.drop 128) (shaBlock h (bs.take 128))

/-- The padded message: a 1 bit, zeros and the length in bits as 16 big-endian bytes. -/
def shaPad (bs : List Byte) : List Byte :=
  let n := bs.length
  let z := (239 - n % 128) % 128
  bs ++ [0x80] ++ zeros z ++ (leBytes 16 (8 * n)).reverse

/-- The 48 bytes of SHA-384. -/
def sha384 (bs : List Byte) : List Byte :=
  let p := shaPad bs
  ((shaBlocks (p.length / 128) p shaInit).take 6).flatMap beBytes64

end Sys2Proof.Machine
end

