-- ==== Sys2Proof/Machine/Zarurn.lean ====
section
/-! DEFINITION. Zarurn records and manifests: their layout, the payload of a block, and writing the stream of a checkpoint to host
memory or to its holders (R471, R474 to R480). -/

namespace Sys2Proof.Machine

/-! ## Records (R474 to R478) -/

/-- The fields of a record header that a KIND sets. -/
structure ZHead where
  kind : Nat
  tensor : Nat := 0
  gbi : Nat
  brow : Nat := 0
  bcol : Nat := 0
  tidemark : Nat := 0
  fstamp : Nat := 0
  rootVer : Nat := 0
  /-- SEC_W, SEC_F0, SEC_F1 and SEC_R -/
  secs : Nat := 0
deriving DecidableEq, Repr

/-- Bytes 0 to 59 of a record header. -/
def zHead (h : ZHead) (cut : Nat) (stored raw : List Byte) (comp : Nat) : List Byte :=
  leBytes 2 0x5A52 ++ leBytes 1 1 ++ leBytes 1 h.kind ++ leBytes 3 h.tensor ++ zeros 1 ++ leBytes 4 h.gbi ++
    leBytes 2 h.brow ++ leBytes 2 h.bcol ++ leBytes 4 h.tidemark ++ leBytes 4 h.fstamp ++ leBytes 4 h.rootVer ++
    leBytes 4 cut ++ leBytes 8 stored.length ++ leBytes 8 raw.length ++ leBytes 1 comp ++ leBytes 1 h.secs ++ zeros 2 ++
    leBytes 4 (crc32c stored) ++ leBytes 4 (crc32c raw)

/-- A record: header with its HCRC, payload and padding. `durable` records are compressed where that shortens them (R477). -/
def zRecord (h : ZHead) (cut : Nat) (durable : Bool) (raw : List Byte) : List Byte :=
  let z := Config.zstdEncode raw
  let comp := durable && decide (z.length < raw.length)
  let stored := if comp then z else raw
  let hd := zHead h cut stored raw (b2n comp)
  hd ++ leBytes 4 (crc32c hd) ++ stored ++ zeros (pad64 stored.length - stored.length)

/-- The manifest entry of a record at a stream offset (R478). -/
def zEntry (h : ZHead) (off : Nat) (r : List Byte) : List Byte :=
  leBytes 4 h.gbi ++ leBytes 3 h.tensor ++ leBytes 1 h.kind ++ leBytes 8 off ++ leBytes 8 r.length ++ zeros 8 ++ sha384 r

/-- The module manifest (R478). -/
def zManifest (s : State) (c cut : Nat) (entries : List (List Byte)) : List Byte :=
  let es := entries.flatMap id
  leBytes 2 0x5A4D ++ leBytes 1 1 ++ zeros 1 ++ leBytes 8 (serial s) ++
    leBytes 2 (getF s LINK_SELF_BOARD 0 + s.strapPos % 8 * 512) ++ leBytes 1 c ++ zeros 1 ++ leBytes 4 cut ++
    leBytes 4 entries.length ++ leBytes 4 (crc32c es) ++ zeros 36 ++ es

/-! ## Peer frames (R480) -/

/-- The ports that carry peer checkpoint frames to a holder: its members of one role, the first in port order that reaches it (R40,
log entry 104). -/
def peerMembers (s : State) (dst : Nat) : List Nat :=
  let ps := (List.range 24).filter fun p => portUsed s p && peerOf s p == dst
  ps.filter fun p => portRole p == portRole (ps.headD 0)

/-- A peer checkpoint frame: `off` counts bytes within the window, `len` bytes of a READ_REQ. -/
def peerFrame (s : State) (dst c op off len : Nat) (payload : List Byte) : Frame :=
  dataFrame dst c 3 (off / 64 % 2 ^ 34 + op * 2 ^ 34 + len / 64 % 65536 * 2 ^ 37) (getF s COLL_FRAME_BUDGET_PEER 0) payload

/-- OP of a peer frame. -/
def pOp (f : Frame) : Nat := bits f.engHdr 34 3
/-- Offset of a peer frame in bytes. -/
def pOff (f : Frame) : Nat := bits f.engHdr 0 34 * 64
/-- Length of a READ_REQ in bytes. -/
def pLen (f : Frame) : Nat := bits f.engHdr 37 16 * 64

/-- Send peer frames over the members to a module. -/
def peerSend (dst : Nat) (fs : List Frame) (s : State) : State :=
  let ms := peerMembers s dst
  if ms.isEmpty then s else spreadFrames ms 0 fs s

/-- The frames of a run of bytes, padded with zeros to whole units. -/
def peerData (s : State) (dst c op off : Nat) (bs : List Byte) : List Frame :=
  (chunks 512 bs.length (bs ++ zeros (pad32 bs.length - bs.length))).zipIdx.map fun e => peerFrame s dst c op (off + 512 * e.2) 0 e.1

/-! ## The stream of a checkpoint -/

/-- Change the checkpoint of a context. -/
def modCkpt (c : Nat) (f : Ckpt → Ckpt) (s : State) : State := modCtx c (fun x => { x with ckpt := x.ckpt.map f }) s

/-- The first holder from number `i` on with room for `n` bytes, and the offset at which they go. -/
def holderFor (n : Nat) (at0 : Nat) : Nat → List (Nat × Nat × Nat) → Option (Nat × Nat)
  | _, [] => none
  | i, (_, cap, _) :: r => if at0 + n ≤ cap then some (i, at0) else holderFor n 0 (i + 1) r

/-- Bytes of the stream leave the module: into the durable buffer as far as it reaches, or whole to the holder whose turn it is.
What finds no room is not written. -/
def streamOut (c : Nat) (k : Ckpt) (bs : List Byte) (s : State) : State :=
  let n := bs.length
  let s := modCkpt c (fun x => { x with off := x.off + n }) s
  if k.peer then
    match holderFor n k.curOff k.cur (k.holders.drop k.cur) with
    | none => s
    | some (i, o) =>
      let h := k.holders.getD i (0, 0, 0)
      peerSend h.1 (peerData s h.1 c 1 (h.2.2 + o) bs) (modCkpt c (fun x => { x with cur := i, curOff := o + n }) s)
  else hostWrite (k.dest + k.off) (bs.take (k.room - k.off)) s

/-- Write one record into a context's stream, with its manifest entry. -/
def putRecord (c : Nat) (h : ZHead) (raw : List Byte) (s : State) : State :=
  match (ctxOf s c).ckpt with
  | none => s
  | some k =>
    let r := zRecord h k.cut (!k.peer) raw
    streamOut c k r (modCkpt c (fun x => { x with entries := x.entries ++ [zEntry h k.off r] }) s)

/-- A CARRY record (R473, R476). -/
def putCarry (c cid : Nat) (raw : List Byte) (s : State) : State :=
  putRecord c { kind := 2, tensor := cid, gbi := 0xFFFFFFFF } raw s

/-- Several CARRY records. -/
def putCarries (c : Nat) : List (Nat × List Byte) → State → State
  | [], s => s
  | (cid, raw) :: r, s => putCarries c r (putCarry c cid raw s)

/-! ## Blocks (R475) -/

/-- Read the tiles of a buffer for a checkpoint; an uncorrectable tile of an owned block is fetched and the read waits. -/
def ckptTiles (b : Blk) (kind : Nat) (s : State) : Option (List (List Byte)) × State :=
  match loadTiles (dieOf b.cl) 6 (bufAddr s b kind) (tileBytes kind) 0 (bufTiles b kind) s with
  | (.ok ts, s) => (some ts, s)
  | (.error (t, true), s) => (none, fetchSend b kind t false s)
  | (.error (_, false), s) => (none, s)

/-- Bytes read for a checkpoint. -/
def ckptBytes (b : Blk) (a n : Nat) (s : State) : Option (List Byte) × State :=
  match engRead (dieOf b.cl) 6 a n s with
  | (.data bs, s) => (some bs, s)
  | (_, s) => (none, s)

/-- Read several buffers one after another. -/
def ckptBufs (b : Blk) : List Nat → State → Option (List Byte) × State
  | [], s => (some [], s)
  | k :: ks, s =>
    match ckptTiles b k s with
    | (none, s) => (none, s)
    | (some ts, s) =>
      match ckptBufs b ks s with
      | (none, s) => (none, s)
      | (some r, s) => (some (ts.flatMap id ++ r), s)

/-- The header and payload of a block's record; none while a part of it cannot be read. -/
def blockRecord (b : Blk) (s : State) : Option (ZHead × List Byte) × State :=
  match ckptBytes b b.addr 56 s with
  | (none, s) => (none, s)
  | (some rb, s) =>
    let busy := pay rb 48 1 % 2 == 1
    let roots := lSideL b.lat || lSideR b.lat
    match ckptTiles b 1 s with
    | (none, s) => (none, s)
    | (some ws, s) =>
      match ckptBytes b (wgtAddr s b + 12288 * lTiles b.lat) (4 * lTiles b.lat) s with
      | (none, s) => (none, s)
      | (some tab, s) =>
        match ckptBufs b ([2] ++ (if busy then [3] else []) ++ (if roots then [4 + pay rb 36 1 % 2] else [])) s with
        | (none, s) => (none, s)
        | (some rest, s) =>
          (some ({ kind := 1, tensor := pay rb 4 3, gbi := pay rb 0 4, brow := pay rb 8 2, bcol := pay rb 10 2,
                   tidemark := pay rb 24 4, fstamp := pay rb 28 4, rootVer := pay rb 32 4,
                   secs := 3 + 4 * b2n busy + 8 * b2n roots },
                 rb ++ zeros 8 ++ ws.flatMap id ++ tab ++ rest), s)

end Sys2Proof.Machine
end

