-- ==== Sys2Proof/Machine/Export.lean ====
section
/-! DEFINITION. EXPORT: the owned blocks of a context as Q8A in host memory (R288 to R290). -/

namespace Sys2Proof.Machine

/-- The BF16 words of column `c` in active rows `r0` to `r0 + n − 1`. -/
def exportCol (W : Mat) (r0 n c : Nat) : List Nat := (List.range n).map fun r => fmtBF16.enc (W.at (r0 + r) c)

/-- Row counts of the chunks of `n` active rows. -/
def exportRows (n : Nat) : List (Nat × Nat) :=
  (List.range ((n + 1023) / 1024)).map fun k => (1024 * k, min 1024 (n - 1024 * k))

/-- A chunk area: headers, side lists and 1,024 code rows (R273). -/
def chunkArea (cs : List (Chan × Nat)) : List Byte :=
  (cs.flatMap fun e => hdrBytes e.1 e.2) ++ (cs.flatMap fun e => sideBytes e.1) ++
    (List.range 1024).flatMap fun t => cs.map fun e => chanCode e.1 t

/-- Chunk areas with their raw indexes, numbered on through the block. -/
def chunkAreas : Nat → List (List Chan) → List Byte
  | _, [] => []
  | k, cs :: r =>
    chunkArea (cs.zip (rawIdxs 65535 k cs)) ++ chunkAreas (k + (cs.filter fun c => c.kind == 2).length) r

/-- The export of one block: header, chunk areas in ascending chunk and raw slots (R289). -/
def exportBlk (s : State) (b : Blk) (outExp : Nat) (W : Mat) : List Byte :=
  let cols := List.range (64 * lTr b.lat)
  let xss := (exportRows (lRows b.lat)).map fun e => cols.map (exportCol W e.1 e.2)
  let css := xss.map fun xs => xs.map (encChan outExp)
  let raws := ((css.flatMap id).zip (xss.flatMap id)).filter fun e => e.1.kind == 2
  leBytes 4 b.gbi ++ leBytes 4 (recGet s b 24 4) ++ leBytes 2 (lRows b.lat) ++ leBytes 2 (lCols b.lat) ++ zeros 4 ++
    chunkAreas 0 css ++ raws.flatMap fun e => rawSlot e.2

/-- Insert a block by GBI. -/
def insGbi (b : Blk) : List Blk → List Blk
  | [] => [b]
  | x :: r => if b.gbi < x.gbi then b :: x :: r else x :: insGbi b r

/-- The exports of several blocks; on a failing read the status that names it. -/
def exportBlks (outExp : Nat) : List Blk → State → Except Nat (List Byte) × State
  | [], s => (.ok [], s)
  | b :: r, s =>
    match loadTiles (dieOf b.cl) 5 (wgtAddr s b) 12288 0 (lTiles b.lat) s with
    | (.error (t, u), s) => (.error (if u then 0x12 else 0x13), if u then fetchSend b 1 t false s else s)
    | (.ok ts, s) =>
      let bs := exportBlk s b outExp (matOfTiles (lTl b.lat) (lTr b.lat) (ts.map (tileMat fmtW24 3)))
      match exportBlks outExp r s with
      | (.ok rest, s) => (.ok (bs ++ rest), s)
      | x => x

/-- EXPORT: refused with STEP_OPEN while a step of the context is open. What finds no room in the buffer is not written. -/
def exportRun (h : Nat) (s : State) : State :=
  runDma h 0x21 (fun e s =>
    let c := hCtx h
    if stepIsOpen s c then report h 8 0 0 s
    else match exportBlks (argOf e 2 % 8) ((ctxOf s c).tabs.foldr insGbi []) s with
      | (.error st, s) => report h st 0 0 s
      | (.ok bs, s) => report h 0 (min bs.length (argOf e 1)) 0 (hostWrite (argOf e 0) (bs.take (argOf e 1)) s)) s

/-- EXPORT. -/
def execExportCmd (h : Nat) (s : State) : Host.Outcome State Fault Refusal := .next (awake s (exportRun h s))

end Sys2Proof.Machine
end

