-- ==== Sys2Proof/Machine/Reset.lean ====
section
/-! DEFINITION. What resets and switched-off domains take away: the register fields of each reset class, the contents of a domain,
a context reset X, and the resets F, L, P and C (R16, R363, R481, R488, R526, R530, R567, R586 to R592, R615). -/

namespace Sys2Proof.Machine

/-! ## Register fields by reset class (R16, R589) -/

/-- The page type of a register cell. -/
def cellPage (k : Nat) : Nat := k / 134217728
/-- The instance of a register cell. -/
def cellInst (k : Nat) : Nat := k / 131072 % 1024
/-- The offset of a register cell. -/
def cellOff (k : Nat) : Nat := k / 32 % 4096
/-- The lowest bit of a register cell. -/
def cellLo (k : Nat) : Nat := k % 32

/-- The field of a register cell, with its element number. -/
def cellFld (k : Nat) : Option (Fld × Nat) := (fldsAt (cellPage k) (cellOff k)).find? fun e => e.1.lo == cellLo k

/-- The bits of a page's EVT_PEND that a reset class restores (R112, R562, R563, R594, R608 and the tables of the other pages). -/
def pendBits (rc : Cls) (t : Nat) : Nat :=
  match rc with
  | .c => evtMask t
  | .p => if t = 17 ∨ t = 18 then 0 else if t = 15 then 0xB else evtMask t
  | .i => if t = 0 then 0x5D else 0
  | _ => 0

/-- EVT_EN of a page is restored by a reset class. -/
def enRestored (rc : Cls) (t : Nat) : Bool :=
  match rc with
  | .c => true
  | .p => t != 15 && t != 17 && t != 18
  | _ => false

/-- What a reset of class `rc` leaves of a register cell, on the pages, instances and elements that `sel` names. -/
def cellKept (rc : Cls) (sel : Nat → Nat → Nat → Bool) (e : Nat × Word) : Option (Nat × Word) :=
  let t := cellPage e.1
  let i := cellInst e.1
  let o := cellOff e.1
  if o = 0x18 then
    let m := if sel t i 0 then pendBits rc t else 0
    let v := e.2.toNat &&& (two32 - 1 - m)
    if v = 0 then none else some (e.1, BitVec.ofNat 32 v)
  else if o = 0x1C then (if sel t i 0 && enRestored rc t then none else some e)
  else if o = 0xC then (if sel t i 0 && (rc == .c || rc == .p) then none else some e)
  else match cellFld e.1 with
    | some (f, k) => if f.cls.contains rc && sel t i k then none else some e
    | none => some e

/-- A reset of class `rc` restores the fields that carry its letter. -/
def restoreFlds (rc : Cls) (sel : Nat → Nat → Nat → Bool) (s : State) : State :=
  { s with regs := s.regs.filterMap (cellKept rc sel) }

/-- Every page, instance and element. -/
def everywhere (_ _ _ : Nat) : Bool := true

/-- The fields of one context: its CQ page, and its elements of the pages with per-context fields (R589). -/
def ofCtx (c t i k : Nat) : Bool := if t = 12 then i == c else k == c

/-! ## Tallies (R612, R615) -/

/-- A cluster sends its pending tallies to the Gauge, as two copies of one frame. -/
def tallyFlush (cl : Nat) (s : State) : State :=
  let t := (clusterOf s cl).tally
  if t.isEmpty then s
  else
    modCluster cl (fun c => { c with tally := [] })
      { s with gauge := { s.gauge with lines := s.gauge.lines ++ [{ cluster := cl, a := t, b := t }] } }

/-- Several clusters send their pending tallies. -/
def tallyFlushes : List Nat → State → State
  | [], s => s
  | c :: cs, s => tallyFlushes cs (tallyFlush c s)

/-- Every cluster sends its pending tallies. -/
def tallyFlushAll (s : State) : State := tallyFlushes (s.clusters.map (·.1)) s

/-! ## Switched-off domains (R567, R592) -/

/-- A register cell is lost as its page's domain switches off: every field but the RW fields and TUNIT.STAT.FENCED. -/
def cellLost (k : Nat) : Bool :=
  let o := cellOff k
  if o = 0x18 then true
  else if o = 0x1C then false
  else if o = 0xC then cellLo k != 0
  else match cellFld k with
    | some (f, _) => f.acc != .rw && !(f.page == 0 && f.off == 0x14 && f.lo == 2)
    | none => false

/-- The fields of a domain's pages that are not saved return to their cold reset values. -/
def loseFlds (n : Nat) (s : State) : State :=
  { s with regs := s.regs.filter fun e => !(pageDomain (cellPage e.1) (cellInst e.1) == n && cellLost e.1) }

/-- Entries of a store whose keys a range takes in are lost. -/
def dropKeys {α : Type} (lo n : Nat) (st : Store α) : Store α := st.filter fun e => !(decide (lo ≤ e.1) && decide (e.1 < lo + n))

/-- What a controller keeps without its power or its channels' training: the repair record and its redirects, and the copies that the
ladder still owes, which begin again. The DRAM's weak accesses stay as they are. -/
def mcKept (m : Mc) : Mc :=
  { rows := m.rows, pages := m.pages, copies := m.copies.map fun c => { c with stage := 0 }, weak := m.weak }

/-- What a domain holds besides its registers is lost as it switches off (R592): unit buffers and accumulators; cluster SRAM and lists;
requests and training of a stack; a port; a hub engine's Sluice. A root job keeps its saved progress (R252). -/
def loseDomain (n : Nat) (s : State) : State :=
  if n < 32 then { s with units := dropKeys (32 * n) 32 s.units }
  else if n < 64 then
    let rg := n - 32
    { s with
      clusters := dropKeys (8 * rg) 8 s.clusters
      sram := dropKeys (8 * rg * 8388608) 67108864 s.sram
      seqs := s.seqs.upd {} rg fun q => { q with back := [], sat := false } }
  else if n < 80 then
    let m := n - 64
    modMc m mcKept { s with sluices := dropKeys (32 * m) 32 s.sluices }
  else if n < 92 then s
  else if n < 116 then { s with ports := s.ports.del (n - 92), sluices := s.sluices.del (512 + (n - 92)) }
  else if n = 122 then { s with sluices := s.sluices.del 536 }
  else if n = 123 then { s with sluices := s.sluices.del 537 }
  else s

/-- DOM_STAT of domain `n`. -/
def setDomStat (n : Nat) (on : Bool) (s : State) : State :=
  let w := getFk s PWR_DOM_STAT 0 (n / 32)
  let bitv := 2 ^ (n % 32)
  setFk PWR_DOM_STAT 0 (n / 32) (if on then w ||| bitv else w - (w &&& bitv)) s

/-- A domain switches off. Pending tallies of its clusters go out first (R615). -/
def domainOff (n : Nat) (s : State) : State :=
  if domOn s n then
    let s := if 32 ≤ n ∧ n < 64 then tallyFlushes ((List.range 8).map fun k => 8 * (n - 32) + k) s else s
    setDomStat n false (loseDomain n (loseFlds n s))
  else s

/-- Several domains switch off, in order. -/
def domainsOff : List Nat → State → State
  | [], s => s
  | n :: ns, s => domainsOff ns (domainOff n s)

/-! ## The context reset X (R109, R252, R363, R481, R498, R526, R530) -/

/-- The handles of a context's accepted commands that have not completed, but for one, by slot. -/
def liveHandles (s : State) (c except : Nat) : List Nat :=
  (ctxOf s c).slots.filterMap fun e =>
    let h := handleOf c e.1 e.2.gen
    if e.2.inUse && !e.2.ended && h != except then some h else none

/-- Commands complete with a status. -/
def endCmds (st : Nat) : List Nat → State → State
  | [], s => s
  | h :: hs, s => endCmds st hs (endCmd h st 0 0 s)

/-- SQ_HEAD takes SQ_TAIL in queues 0 to `n - 1` of a context. -/
def skipEntries (c : Nat) : Nat → State → State
  | 0, s => s
  | n + 1, s => skipEntries c n (setFk CQ_SQ_HEAD c n (getFk s CQ_SQ_TAIL c n) s)

/-- A unit loses the float work of a context: its queued and running descriptors, the invalid one that halts its queue, and the slots
that hold the context's work. -/
def unitDropCtx (c u : Nat) (s : State) : State :=
  let x := unitOf s u
  let mine := fun q : QDesc => q.ctx == c && !q.wide
  let stop := x.run.any mine
  freeBank u (putUnit u { x with
    cq := x.cq.filter fun q => !mine q
    run := x.run.filter fun q => !mine q
    tile := if stop then {} else x.tile
    bad := x.bad.filter fun q => !mine q
    badWide := x.badWide.filter fun q => q.ctx != c
    acc := x.acc.filter fun e => e.2.ctx != c } s)

/-- Units lose the float work of a context. -/
def unitsDropCtx (c : Nat) : List Nat → State → State
  | [], s => s
  | u :: us, s => unitsDropCtx c us (unitDropCtx c u s)

/-- A cluster loses the lists and groups of a context. -/
def clusterDropCtx (c : Nat) (x : Cluster) : Cluster :=
  { x with
    lists := x.lists.filter fun l => l.ctx != c
    buf := x.buf.filter fun q => q.ctx != c
    grps := x.grps.filter fun g => g.1 != c }

/-- Change every cluster that holds anything. -/
def modClusters (f : Cluster → Cluster) : List Nat → State → State
  | [], s => s
  | cl :: r, s => modClusters f r (modCluster cl f s)

/-- Set bytes 88 to 127 of the records of several jobs to 0 (R229). -/
def clearWips : List Job → State → State
  | [], s => s
  | j :: js, s => clearWips js (clearWip (jobBlk j) s)

/-- Every job of every sequencer, running or held. -/
def allJobs (s : State) : List Job := s.seqs.flatMap fun e => e.2.job.toList ++ e.2.held

/-- A sequencer abandons every job of a context (R229, R252). -/
def seqDropCtx (c rg : Nat) (s : State) : State :=
  let q := seqOf s rg
  let mine := fun j : Job => j.ctx == c
  let run := q.job.any mine
  let jobs := q.job.toList.filter mine ++ q.held.filter mine
  let s := if run then putJob rg none (dropWide rg 32 s) else s
  let s := modSeq rg (fun q => { q with
    held := q.held.filter fun j => !mine j
    snaps := q.snaps.filter fun e => e.1 != c
    pubs := q.pubs.filter fun e => e.1 != c
    notices := q.notices.filter fun t => t.ctx != c
    restart := q.restart.filter fun t => t.ctx != c
    rejs := q.rejs.filter fun e => e.1 != c
    back := if run then [] else q.back
    sat := if run then false else q.sat }) s
  clearWips jobs s

/-- Sequencers abandon every job of a context. -/
def seqsDropCtx (c : Nat) : List Nat → State → State
  | [], s => s
  | rg :: r, s => seqsDropCtx c r (seqDropCtx c rg s)

/-- The lists, descriptors, groups and root jobs of a context are gone. -/
def dropWork (c : Nat) (s : State) : State :=
  seqsDropCtx c (s.seqs.map (·.1)) (unitsDropCtx c (s.units.map (·.1))
    (modClusters (clusterDropCtx c) (s.clusters.map (·.1)) s))

/-- What the Culvert logic keeps of the mirrored context's transfers and audits is gone; the tables, the flags in memory and the suspect
blocks stay (R457). -/
def culDrop (u : Cul) : Cul := { keep := u.keep, suspects := u.suspects }

/-- The hub forgets a context's steps, collectives, checkpoint, restore, records that wait for its ring, and loaded table. Queues and
handles stay. -/
def ctxForget (x : Ctx) : Ctx := { slots := x.slots, fresh := x.fresh, freed := x.freed, queues := x.queues }

/-- Frames of a context that no port has accepted yet, and frames delivered to its engines, are discarded; frames that a dead port has
handed over or that another module has sent go on (R399, R437). -/
def dropFrames (c : Nat) (s : State) : State :=
  { s with
    sendq := s.sendq.filter fun f => f.ctx != c || f.rr || f.src != selfId s
    inbox := s.inbox.filter fun f => f.ctx != c }

/-- Module-wide records that waited for the context's ring no longer wait for it (R498). -/
def jwideDrop (c : Nat) (s : State) : State :=
  { s with jwide := (s.jwide.map fun e => (e.1, e.2.filter (· ≠ c))).filter fun e => !e.2.isEmpty }

/-- The operations of a context that have not reached their homes are withdrawn (R45). -/
def dropCross (c : Nat) (s : State) : State := { s with crossing := s.crossing.filter fun o => o.ctx != c }

/-- The operations of a context that have not reached their homes are withdrawn, and so are those in the Sluices of the hub's
engines (R45). -/
def dropOut (c : Nat) (s : State) : State :=
  hubDrop 536 c (hubDrop 537 c (dropCross c s))

/-- A context reset X. `except` is the handle of the CTX_RESET that causes it, or 0. -/
def ctxResetX (c except : Nat) (s : State) : State :=
  let s := if (ctxOf s c).ckpt.isSome then setCtxEvt c ceCkptAbort s else s
  let hs := liveHandles s c except
  let s := dropOut c (dropWindow c (dropFrames c (jwideDrop c (dropWork c (abandonCtx c s)))))
  let s := if culCtx s = c then { s with cul := culDrop s.cul } else s
  let s := { s with degClear := s.degClear.filter fun e => !hs.contains e.2 }
  skipEntries c 4 (endCmds 3 hs (modCtx c ctxForget s))

/-- CTX_RESET performs a context reset X and completes (R525, R530). -/
def ctxReset (h : Nat) (s : State) : State :=
  runCmd h 0x60 (fun e s => report h 0 0 0 (ctxResetX (argOf e 0) h s)) s

/-- CTX_RESET. -/
def execCtxReset (h : Nat) (s : State) : Host.Outcome State Fault Refusal := .next (running s (ctxReset h s))

/-! ## Pre-emption (R529) -/

/-- The LIST_RUN commands of a context that have started and not completed. -/
def runningLists (s : State) (c : Nat) : List Nat :=
  (liveHandles s c 0).filter fun h =>
    let sl := slotOf s c (hSlot h)
    sl.running && opOf sl.entry == 0x12

/-- Report several commands with one status. -/
def reports (st : Nat) : List Nat → State → State
  | [], s => s
  | h :: hs, s => reports st hs (report h st 0 0 s)

/-- Some unit still runs a float descriptor of a context. -/
def ctxRunning (s : State) (c : Nat) : Bool := s.units.any fun e => e.2.run.any fun q => q.ctx == c && !q.wide

/-- A unit gives up a context's queued descriptors; the running one finishes first (R108, R529). -/
def unitPreempt (c u : Nat) (s : State) : State :=
  let x := unitOf s u
  freeBank u (putUnit u { x with
    cq := x.cq.filter fun q => q.ctx != c || q.wide } s)

/-- Units give up a context's queued descriptors. -/
def unitsPreempt (c : Nat) : List Nat → State → State
  | [], s => s
  | u :: us, s => unitsPreempt c us (unitPreempt c u s)

/-- The context's lists stop at descriptor boundaries, its LIST_RUN commands complete with PREEMPTED, its objects are abandoned and its
descriptors are not taken any more. -/
def preemptBegin (c : Nat) (s : State) : State :=
  let hs := runningLists s c
  let s := unitsPreempt c (s.units.map (·.1)) (modClusters (clusterDropCtx c) (s.clusters.map (·.1)) s)
  reports 0x11 hs (abandonCtx c (setFk HOSTIF_CTX_PRIO_PREEMPTED 0 c 1 s))

/-- CTX_PREEMPT: refused while a step of the context is open; otherwise the context is pre-empted, and the command waits for the running
descriptors (R525, R529). -/
def ctxPreempt (h : Nat) (s : State) : State :=
  runCmd h 0x61 (fun e s =>
    let c := argOf e 0
    if stepIsOpen s c then report h 8 0 0 s
    else
      let s := if getFk s HOSTIF_CTX_PRIO_PREEMPTED 0 c = 1 then s else preemptBegin c s
      if ctxRunning s c then unrunCmd h s else report h 0 0 0 s) s

/-- CTX_PREEMPT. -/
def execCtxPreempt (h : Nat) (s : State) : Host.Outcome State Fault Refusal := .next (running s (ctxPreempt h s))

/-- CTX_RESUME: the context's descriptors are taken again (R525, R529). -/
def ctxResume (h : Nat) (s : State) : State :=
  runCmd h 0x62 (fun e s => report h 0 0 0 (setFk HOSTIF_CTX_PRIO_PREEMPTED 0 (argOf e 0) 0 s)) s

/-- CTX_RESUME. -/
def execCtxResume (h : Nat) (s : State) : Host.Outcome State Fault Refusal := .next (running s (ctxResume h s))

end Sys2Proof.Machine
end

