-- ==== Sys2Proof/Machine/Breakwater.lean ====
section
/-! DEFINITION. The Breakwater: the fault reaction, trips, watchdogs, comparator tests and its log, and the lockstep of the control pairs
(R538, R539, R598 to R608). The state `inReset` and STAT.FAULT stop the engines. -/

namespace Sys2Proof.Machine

/-! ## The fault reaction (R603, R607) -/

/-- Write log entry LOG_CNT; a ninth fault is counted in FAULTS only (R608). -/
def logFault (cause source value : Nat) (s : State) : State :=
  let n := getF s BRKW_LOG_CNT 0
  let s := if n < 8 then
      setF BRKW_LOG_CNT 0 (n + 1) (setFk BRKW_LOG_A_CAUSE 0 n cause (setFk BRKW_LOG_A_SOURCE 0 n source
        (setFk BRKW_LOG_A_VALUE 0 n value (setFk BRKW_LOG_B 0 n (wideStep s) s))))
    else s
  setEvt BRKW_EV_FAULT 0 (incr BRKW_FAULTS 0 s)

/-- Domains that the fault reaction switches off, in its order: region tensor, region cluster, die-to-die links, link ports. -/
def faultDomains : List Nat := List.range 64 ++ (List.range 8).map (· + 80) ++ (List.range 24).map (· + 92)

/-- The stacks go into self-refresh and serve nothing (R603). -/
def quiesceMcs : Nat → State → State
  | 0, s => s
  | m + 1, s => quiesceMcs m (modMc m (fun x => { x with issued := [], serving := [] }) s)

/-- The fault reaction: FAULT_N, the stop, self-refresh, the domains and the log entry. During a reaction a second cause only adds a
log entry (R607). -/
def faultReaction (cause source value : Nat) (s : State) : State :=
  if isF s BRKW_STAT_FAULT 0 then logFault cause source value s
  else
    let s := setF BRKW_STAT_FAULT 0 1 (setF BRKW_STAT_CAUSE 0 cause { s with faultN := true })
    logFault cause source value (domainsOff faultDomains (quiesceMcs 16 (tallyFlushAll s)))

/-! ## Trips (R600) -/

/-- An input that stands at a level stays tripped until it is clear (R605). -/
def tripInput (cause source value : Nat) (s : State) : State :=
  faultReaction cause source value { s with brk := { s.brk with
    tripped := if s.brk.tripped.contains (cause, source) then s.brk.tripped else s.brk.tripped ++ [(cause, source)] } }

/-- Trip level of a Breakwater temperature sensor (R659): regions 0 to 31, stacks 32 to 47, the hub 48. -/
def tripLevel (i : Nat) : Option Nat :=
  if i < 32 then some 115 else if i < 48 then some 105 else if i = 48 then some 110 else none

/-- TEMP_TRIP: sensor `i` reads `t` °C, at its trip level or above. -/
def tempTrip (i t : Nat) (s : State) : State :=
  match tripLevel i with
  | some l => if l ≤ t then tripInput 2 i t s else s
  | none => s

/-- TEMP_TRIP. -/
def execTempTrip (k t : Nat) (s : State) : Host.Outcome State Fault Refusal := .next (tempTrip k t s)

/-- RESIDUE_MISMATCH: the first mismatch of an instruction of cluster `cl` repeats it; a second one of the same instruction is a fault of
cause 5 (R598). -/
def residueMismatch (cl : Nat) (again : Bool) (s : State) : State :=
  if again then faultReaction 5 cl 0 s else incr BRKW_RESIDUE_REPEAT 0 s

/-- RESIDUE_MISMATCH. -/
def execResidueMismatch (cl : Nat) (again : Bool) (s : State) : Host.Outcome State Fault Refusal :=
  .next (runningIn (32 + cl / 8) s (residueMismatch cl again s))

/-- PAIR_LOCKSTEP: pair `p` (index of R601) stops, its cores disagreeing or its control RAM uncorrectable (R538, R539). -/
def pairLockstep (p : Nat) (s : State) : State :=
  if 12 ≤ p ∨ s.brk.stopped.contains p then s
  else faultReaction 4 p 0 { s with brk := { s.brk with stopped := s.brk.stopped ++ [p] } }

/-- PAIR_LOCKSTEP. -/
def execPairLockstep (p : Nat) (s : State) : Host.Outcome State Fault Refusal := .next (pairsUp s (pairLockstep p s))

/-! ## Watchdogs (R601) -/

/-- The watchdog of a pair is armed. -/
def wdogArmed (s : State) (p : Nat) : Bool := (getF s BRKW_STAT_ARMED 0).testBit p

/-- WATCHDOG_EXPIRE: the period of an armed watchdog ends without a kick. -/
def watchdogExpire (p : Nat) (s : State) : State := if p < 12 && wdogArmed s p then faultReaction 3 p 0 s else s

/-- WATCHDOG_EXPIRE. -/
def execWatchdogExpire (p : Nat) (s : State) : Host.Outcome State Fault Refusal := .next (pairsUp s (watchdogExpire p s))

/-- Index of the pair that a write comes from. -/
def pairIndex : Requester → Option Nat
  | .hubPair k => some k
  | .diePair d k => some (4 + 2 * d + k)
  | _ => none

/-- A kick is refused. -/
def kickBad (p : Nat) (s : State) : State :=
  setEvt BRKW_EV_KICK_BAD 0 (incr BRKW_KICKS_BAD 0 { s with brk := { s.brk with half := s.brk.half.filter (· ≠ p) } })

/-- A write of KICK of index `p`: 0x5AA5 and then 0xA55A, from the pair itself. -/
def kickWrite (r : Requester) (p v : Nat) (s : State) : State :=
  let half := s.brk.half.contains p
  if pairIndex r ≠ some p then kickBad p s
  else if v % 65536 = 0x5AA5 ∧ !half then { s with brk := { s.brk with half := s.brk.half ++ [p] } }
  else if v % 65536 = 0xA55A ∧ half then { s with brk := { s.brk with half := s.brk.half.filter (· ≠ p) } }
  else kickBad p s

/-- The index of a KICK register. -/
def kickIndex (t o : Nat) : Option Nat := if t = 15 ∧ 0x100 ≤ o ∧ o < 0x130 ∧ o % 4 = 0 then some ((o - 0x100) / 4) else none

/-- KICK: a die pair too reaches its own KICK register (R601, R632). -/
def kick (r : Requester) (a v : Nat) (s : State) : State :=
  let act := fun t _ o s => match kickIndex t o with
    | some p => kickWrite r p v s
    | none => s
  match r, pageAt a with
  | .diePair _ _, some (t, i, o) => outOfReset s (act t i o s)
  | _, _ => guarded r a act s

/-- KICK. -/
def execKick (r : Requester) (a v : Nat) (s : State) : Host.Outcome State Fault Refusal := .next (kick r a v s)

/-- WDOG_CFG: only the first write after a cold reset C takes effect, within its range (R608). -/
def wdogCfgWrite (r : Requester) (a v : Nat) (s : State) : State :=
  guarded r a (fun t _ o s =>
    if t = 15 ∧ o = 0x140 ∧ !s.brk.wdogSet ∧ 10 ≤ v % 1024 ∧ v % 1024 ≤ 1000 then
      setF BRKW_WDOG_CFG_PERIOD_MS 0 (v % 1024) { s with brk := { s.brk with wdogSet := true } }
    else s) s

/-- WDOG_CFG_WRITE. -/
def execWdogCfgWrite (r : Requester) (a v : Nat) (s : State) : Host.Outcome State Fault Refusal := .next (wdogCfgWrite r a v s)

/-! ## Comparators (R602) -/

/-- A comparator has failed its test, or two of one input have disagreed for 10 ms. -/
def latentFault (s : State) : State := setEvt BRKW_EV_SELFTEST_FAIL 0 (setF BRKW_STAT_LATENT 0 1 s)

/-- COMPARATOR_SELFTEST: every comparator trips at the test level, or one does not. -/
def comparatorSelftest (ok : Bool) (s : State) : State := if ok then s else latentFault s

/-- COMPARATOR_SELFTEST. -/
def execComparatorSelftest (ok : Bool) (s : State) : Host.Outcome State Fault Refusal := .next (comparatorSelftest ok s)

/-- COMPARATOR_DISAGREE: two comparators of one input have disagreed for `ms` ms. -/
def comparatorDisagree (ms : Nat) (s : State) : State := if 10 ≤ ms then latentFault s else s

/-- COMPARATOR_DISAGREE. -/
def execComparatorDisagree (ms : Nat) (s : State) : Host.Outcome State Fault Refusal := .next (comparatorDisagree ms s)

/-! ## The log and FORCE_FAULT (R608) -/

/-- Clear log entries 0 to `n - 1`. -/
def clearLog : Nat → State → State
  | 0, s => s
  | n + 1, s => clearLog n (setFk BRKW_LOG_A_CAUSE 0 n 0 (setFk BRKW_LOG_A_SOURCE 0 n 0 (setFk BRKW_LOG_A_VALUE 0 n 0 (setFk BRKW_LOG_B 0 n 0 s))))

/-- LOG_CLR, from the PF only: the log, LOG_CNT and the count of faults since the log was cleared. -/
def logClr (r : Requester) (a v : Nat) (s : State) : State :=
  guarded r a (fun t _ o s =>
    if t = 15 ∧ o = 0x10 ∧ bit v 0 ∧ r = .pf then setF BRKW_FAULTS 0 0 (setF BRKW_LOG_CNT 0 0 (clearLog 8 s)) else s) s

/-- LOG_CLR. -/
def execLogClr (r : Requester) (a v : Nat) (s : State) : Host.Outcome State Fault Refusal := .next (logClr r a v s)

/-- FORCE_FAULT: the fault reaction with cause 7, only while the module is debug-unlocked (R607, R641). -/
def forceFault (r : Requester) (a v : Nat) (s : State) : State :=
  guarded r a (fun t _ o s => if t = 15 ∧ o = 0x10 ∧ bit v 1 ∧ unlocked s then faultReaction 7 0 0 s else s) s

/-- FORCE_FAULT. -/
def execForceFault (r : Requester) (a v : Nat) (s : State) : Host.Outcome State Fault Refusal := .next (forceFault r a v s)

end Sys2Proof.Machine
end

