-- ==== Sys2Proof/Machine/Boot.lean ====
section
/-! DEFINITION. The boot mailbox, verification and start of the Tsulum image, OTP programming, identity and attestation
(R540 to R563). -/

namespace Sys2Proof.Machine

/-! ## The mailbox (R540, R546) -/

/-- BOOT.STAT.STATE. -/
def bootState (s : State) : Nat := getF s BOOT_STAT_STATE 0

/-- Bytes of the mailbox. -/
def mbxLen : Nat := 983040

/-- `n` bytes of the mailbox. -/
def mbxBytes (s : State) (a n : Nat) : List Byte := Store.getAll 0 s.mbx a n

/-- MAILBOX_WRITE: a host write to BAR4 is stored, or ignored and counted while STATE is VERIFY or RUNNING. -/
def mailboxWrite (off : Nat) (data : List Byte) (s : State) : State :=
  if mbxLen < off + data.length then s
  else if bootState s = 2 ∨ bootState s = 3 then incr BOOT_MBX_IGNORED 0 s
  else { s with mbx := Store.putAll 0 off data s.mbx }

/-- MAILBOX_WRITE. -/
def execMailboxWrite (off : Nat) (data : List Byte) (s : State) : Host.Outcome State Fault Refusal :=
  .next (outOfReset s (mailboxWrite off data s))

/-- GO: the ROM starts verification of an image pushed while it waits for one (R543, R546, R561). -/
def bootGo (s : State) : State :=
  let st := bootState s
  if st = 1 ∨ st = 4 ∨ st = 6 then
    setF BOOT_STAT_STATE 0 2 (setF BOOT_STAT_ATTEMPTS 0 (min 8 (getF s BOOT_STAT_ATTEMPTS 0 + 1)) s)
  else s

/-- A write of BOOT.CTRL.GO. -/
def go (r : Requester) (a v : Nat) (s : State) : State :=
  guarded r a (fun t _ o s => if t = 18 ∧ o = 0x10 ∧ bit v 0 then bootGo s else s) s

/-- GO. -/
def execGo (r : Requester) (a v : Nat) (s : State) : Host.Outcome State Fault Refusal := .next (go r a v s)

/-! ## Verification (R541 to R544, R547, R557) -/

/-- The header of the image in the mailbox. -/
def imgHeader (s : State) : List Byte := mbxBytes s 0 256

/-- BODY_LEN. -/
def bodyLen (s : State) : Nat := pay (imgHeader s) 16 4

/-- The signature block. -/
def imgSig (s : State) : List Byte := mbxBytes s (256 + bodyLen s) 36544

/-- Every byte of a range is 0. -/
def zeroRange (bs : List Byte) (o n : Nat) : Bool := ((bs.drop o).take n).all (· == 0)

/-- Step 1: MAGIC, FMT, the must-be-0 bytes and the length. -/
def formOk (s : State) : Bool :=
  let h := imgHeader s
  let len := 256 + bodyLen s + 36544
  pay h 0 4 == 0x4D4C5354 && pay h 4 2 == 1 && decide (pay h 6 2 < 8) && zeroRange h 14 2 && zeroRange h 20 4 && zeroRange h 228 28
    && getF s BOOT_IMG_LEN 0 == len && decide (len ≤ mbxLen)
    && zeroRange (imgSig s) 388 12 && zeroRange (imgSig s) 36496 48

/-- The KEY_DIG that this cold boot verifies under (R548, R561). -/
def bootKeyDig (s : State) : List Byte := s.bootKeys.getD (otpValue s 4)

/-- The word of a signature that passes (R544). -/
def sigPass : BitVec 32 := 0x5AA5A5A5

/-- The REASON of the first step that fails; 0 when every step passes. -/
def imageReason (s : State) : Nat :=
  let sig := imgSig s
  let rsaKey := sig.take 388
  let slhKey := (sig.drop 784).take 48
  if !otpHasValid s 4 then 4
  else if !formOk s then 1
  else if pay (imgHeader s) 12 2 < minSvn s then 3
  else if sha384 rsaKey ≠ (bootKeyDig s).take 48 then 4
  else if sha384 slhKey ≠ (bootKeyDig s).drop 48 then 5
  else if Config.rsaVerify rsaKey (imgHeader s) ((sig.drop 400).take 384) ≠ sigPass then 6
  else if Config.slhVerify slhKey (imgHeader s) ((sig.drop 832).take 35664) ≠ sigPass then 7
  else if sha384 (mbxBytes s 256 (bodyLen s)) ≠ ((imgHeader s).drop 24).take 48 then 8
  else 0

/-- The image is rejected: NO_KEYS without keys, HALTED after the eighth failure, REJECTED otherwise (R546, R557). -/
def rejectImage (reason : Nat) (s : State) : State :=
  let st := if getF s BOOT_STAT_ATTEMPTS 0 = 8 then 5 else if otpHasValid s 4 then 4 else 6
  setEvt BOOT_EV_REJECTED 0 (setF BOOT_STAT_REASON 0 reason (setF BOOT_STAT_STATE 0 st { s with romProg := false }))

/-- Write words 0 to `n - 1` of IMG_DIGEST. -/
def putDigest (d : List Byte) : Nat → State → State
  | 0, s => s
  | n + 1, s => putDigest d n (setFk BOOT_IMG_DIGEST 0 n (pay d (4 * n) 4) s)

/-- No pair is stopped or half through a kick, and the ROM programs nothing. -/
def pairsFresh (s : State) : State := { s with romProg := false, brk := { s.brk with half := [], stopped := [] } }

/-- All twelve pairs start at their entries, with their watchdogs armed, and die pair 0 of each die trains its stacks (R31, R336, R545,
R601). -/
def startImage (s : State) : State :=
  let h := imgHeader s
  let s := putDigest (sha384 h) 12 (setF BOOT_FW_VERSION 0 (pay h 8 4) (setF BOOT_FW_SVN_SVN 0 (pay h 12 2) s))
  let s := setF BOOT_STAT_REASON 0 0 (setF BOOT_STAT_STATE 0 3 (pairsFresh s))
  setEvt BOOT_EV_RUNNING 0 (setF BRKW_STAT_ARMED 0 0xFFF (trainStacks 16 s))

/-- A requested programming meets a frozen field and is skipped (R549). -/
def skipFrozen (s : State) : State := setEvt BOOT_EV_OTP_FROZEN 0 (setF BOOT_STAT_OTP_FROZEN 0 1 s)

/-- The OTP takes a request; it serves one at a time, in order of arrival (R561). -/
def otpRequest (q : OtpReq) (s : State) : State := setF OTP_STAT_BUSY 0 1 { s with otpq := s.otpq ++ [q] }

/-- One programming that an image asks for, unless its field is frozen. -/
def romRequest (want : Bool) (f : Nat) (v : List Byte) (s : State) : State :=
  if !want then s
  else if (otpNext s f).isNone then skipFrozen s
  else otpRequest { field := f, value := v, rom := true } { s with romProg := true }

/-- The gate has opened: MIN_SVN, then KEY_DIG, then DBG_KEY_DIG are programmed where the image asks for it (R545, R547, R548), and the
image starts. -/
def gateOpens (s : State) : State :=
  let h := imgHeader s
  let fl := pay h 6 2
  let svn := pay h 12 2
  let keys := (h.drop 72).take 96
  let dbg := (h.drop 168).take 48
  let s := romRequest (bit fl 0 && decide (minSvn s < svn)) 2 (leBytes 4 svn) s
  let s := romRequest (bit fl 1 && keys != otpValue s 4) 4 keys s
  let s := romRequest (bit fl 2 && dbg != otpValue s 5) 5 dbg s
  if s.romProg then s else startImage s

/-- IMAGE_VERIFY_DONE: verification ends. The gate stays shut while pair 0 is stopped (R544, R561). -/
def imageVerifyDone (s : State) : State :=
  if bootState s = 2 ∧ !s.romProg ∧ !s.brk.stopped.contains 0 then
    let r := imageReason s
    if r = 0 then gateOpens s else rejectImage r s
  else s

/-- IMAGE_VERIFY_DONE. -/
def execImageVerifyDone (s : State) : Host.Outcome State Fault Refusal := .next (pairsUp s (imageVerifyDone s))

/-! ## OTP programming (R552 to R556) -/

/-- A request of host software for a field is accepted (R554). -/
def progAllowed (s : State) (f : Nat) (v : List Byte) : Bool :=
  match otpField f with
  | none => false
  | some (_, _, _, cls) =>
    match cls with
    | .m | .mr => !mfgLocked s
    | .mh => (leVal v &&& dbgPolicy s) == dbgPolicy s
    | .h => true

/-- The value bytes in PROG_DATA for a field. -/
def progData (s : State) (f : Nat) : List Byte :=
  match otpField f with
  | none => []
  | some (_, len, _, _) => ((List.range 24).flatMap fun w => leBytes 4 (getFk s OTP_PROG_DATA 0 w)).take len

/-- PROG_GO: the OTP takes the request, or refuses it with DENIED or FROZEN. -/
def progRequest (s : State) : State :=
  let f := getF s OTP_PROG_FIELD 0
  let v := progData s f
  if !progAllowed s f v then setEvt OTP_EV_DENIED 0 s
  else if (otpNext s f).isNone then setEvt OTP_EV_FROZEN 0 s
  else otpRequest { field := f, value := v } s

/-- A write of OTP.CTRL.PROG_GO. -/
def progGo (r : Requester) (a v : Nat) (s : State) : State :=
  guarded r a (fun t _ o s => if t = 17 ∧ o = 0x10 ∧ bit v 0 then progRequest s else s) s

/-- PROG_GO. -/
def execProgGo (r : Requester) (a v : Nat) (s : State) : Host.Outcome State Fault Refusal := .next (progGo r a v s)

/-- The bytes of a slot: the value, its CRC-16 and the marker, which a slot that reads back invalid lacks. -/
def slotBytes (v : List Byte) (ok : Bool) : List Byte := v ++ leBytes 2 (crc16 v) ++ leBytes 2 (if ok then 0xA5 else 0)

/-- Write a generation into slot `g` of a field. -/
def otpWrite (f g : Nat) (bs : List Byte) (s : State) : State :=
  match otpField f with
  | some (off, _, slot, _) => { s with otp := Store.putAll 0 (off + slot * g) bs s.otp }
  | none => s

/-- The ROM goes on after a programming that it asked for. -/
def romNext (ok : Bool) (s : State) : State :=
  if !ok then rejectImage 9 { s with otpq := s.otpq.filter fun q => !q.rom }
  else if s.otpq.any (·.rom) then s
  else startImage s

/-- The OTP has served a request and takes the next. -/
def otpEnd (q : OtpReq) (ok : Bool) (s : State) : State :=
  let s := if q.rom then romNext ok s else s
  setF OTP_STAT_BUSY 0 (if s.otpq.isEmpty then 0 else 1) s

/-- A generation counts as programmed, or as failed (R555). -/
def otpCount (ok : Bool) (s : State) : State :=
  if ok then setEvt OTP_EV_PROG_DONE 0 (incr OTP_PROG_CNT 0 s) else setEvt OTP_EV_PROG_FAIL 0 (incr OTP_PROG_FAIL_CNT 0 s)

/-- OTP_PROG_DONE: the programming in progress completes; `ok` says whether the slot reads back valid (R555). -/
def otpProgDone (ok : Bool) (s : State) : State :=
  match s.otpq with
  | [] => s
  | q :: r =>
    let s := { s with otpq := r }
    match otpNext s q.field with
    | none => otpEnd q true (if q.rom then skipFrozen s else setEvt OTP_EV_FROZEN 0 s)
    | some g =>
      let s := if q.rom && ok && q.field == 4 && s.bootKeys.isNone then { s with bootKeys := some (otpValue s 4) } else s
      otpEnd q ok (otpCount ok (otpWrite q.field g (slotBytes q.value ok) s))

/-- OTP_PROG_DONE. -/
def execOtpProgDone (ok : Bool) (s : State) : Host.Outcome State Fault Refusal := .next (otpProgDone ok s)

/-! ## Identity and attestation (R558 to R560) -/

/-- ID_READY: the identity keys of the running module are ready. -/
def idReady (s : State) : State := if bootState s = 3 then setF BOOT_STAT_ID_READY 0 1 s else s

/-- ID_READY. -/
def execIdReady (s : State) : Host.Outcome State Fault Refusal := .next (pairsUp s (idReady s))

/-- DEV_SECRET, as the crypto block reads it. -/
def devSecret (s : State) : List Byte := otpValue s 6

/-- Public keys of a secret: the RSA modulus and exponent, big-endian, and the SLH-DSA key. -/
def rsaPub (sec : List Byte) : List Byte := (List.range 384).map (Config.rsaModulus sec) ++ [0, 1, 0, 1]

/-- The SLH-DSA public key of a secret. -/
def slhPub (sec : List Byte) : List Byte := (List.range 48).map (Config.slhPublic sec)

/-- Both signatures of a message, and 48 zero bytes. -/
def signBoth (sec msg : List Byte) (n : Nat) : List Byte :=
  (List.range 384).map (Config.rsaSign sec msg n) ++ (List.range 35664).map (Config.slhSign sec msg n) ++ zeros 48

/-- The OTP as the report digests it: DEV_SECRET reads as 0. -/
def otpReport (s : State) : List Byte := otpBytes s 0 0x320 ++ zeros 0x120 ++ otpBytes s 0x440 0x3C0

/-- Bytes 0 to 703 of the report. -/
def attestBody (s : State) (e : List Byte) : List Byte :=
  leBytes 4 0x52545441 ++ leBytes 2 1 ++ zeros 2 ++ leBytes 8 (serial s) ++ leBytes 8 (argOf e 2) ++ leBytes 8 (argOf e 3)
    ++ leBytes 4 (getF s BOOT_FW_VERSION 0) ++ leBytes 2 (getF s BOOT_FW_SVN_SVN 0) ++ leBytes 2 (minSvn s)
    ++ leBytes 1 (keyGen s) ++ leBytes 1 (getF s DEBUG_STAT_EVER 0 + 2 * (dbgPolicy s % 2)) ++ zeros 2
    ++ leBytes 4 (getF s BOOT_STAT_ATTEMPTS 0)
    ++ (List.range 12).flatMap (fun w => leBytes 4 (getFk s BOOT_IMG_DIGEST 0 w))
    ++ sha384 (otpReport s) ++ zeros 112 ++ rsaPub (devSecret s) ++ zeros 12 ++ slhPub (devSecret s)

/-- ATTEST waits until ID_READY is set; it is refused with DENIED while the module is debug-unlocked and DBG_POLICY bit [1] is 1;
otherwise it writes the signed report (R559, R560). -/
def attest (h : Nat) (s : State) : State :=
  if !isF s BOOT_STAT_ID_READY 0 then s
  else runCmd h 0x03 (fun e s =>
    if bit (dbgPolicy s) 1 && unlocked s then denyCmd h s
    else
      let body := attestBody s e
      report h 0 36800 0 (nextFree (hostWrite (argOf e 0) (body ++ signBoth (devSecret s) body s.freeCtr) s))) s

/-- ATTEST. -/
def execAttest (h : Nat) (s : State) : Host.Outcome State Fault Refusal := .next (running s (attest h s))

end Sys2Proof.Machine
end

