-- ==== Sys2Proof/Machine/Check.lean ====
section
/-! DEFINITION. The check-value units (R461 to R467). A unit feeds a write at once, so its queue is always empty. -/

namespace Sys2Proof.Machine

/-- Width in bits of an algorithm. -/
def algWidth (alg : Nat) : Nat := if alg = 2 then 64 else if alg = 3 then 16 else 32
/-- Initial value. -/
def algInit (alg : Nat) : Nat := if alg = 2 then 0 else if alg = 3 then 0xFFFF else 0xFFFFFFFF
/-- Final XOR. -/
def algXor (alg : Nat) : Nat := if alg < 2 then 0xFFFFFFFF else 0

/-- One bit of an algorithm that is not reflected, of width `w`. -/
def upBit (w poly c : Nat) : Nat := if c.testBit (w - 1) then (c * 2 % 2 ^ w) ^^^ poly else c * 2 % 2 ^ w

/-- `n` bits of it. -/
def upBits (w poly : Nat) : Nat → Nat → Nat
  | 0, c => c
  | n + 1, c => upBits w poly n (upBit w poly c)

/-- Feed one byte to the running register of an algorithm. -/
def algByte (alg c : Nat) (b : Byte) : Nat :=
  match alg with
  | 0 => crcByte crcPoly32c c b
  | 1 => crcByte 0xEDB88320 c b
  | 2 => upBits 64 0x42F0E1EBA9EA3693 8 (c ^^^ (b.toNat * 2 ^ 56))
  | _ => upBits 16 0x1021 8 (c ^^^ (b.toNat * 256))

/-- The running register of unit `i` within its algorithm's width. -/
def runReg (s : State) (i : Nat) : Nat :=
  (getF s CHECK_RUN_LO i + two32 * getF s CHECK_RUN_HI i) % 2 ^ algWidth (getF s CHECK_CTRL_ALG i)

/-- Write the running register. -/
def setRun (i v : Nat) (s : State) : State := setF CHECK_RUN_LO i (v % two32) (setF CHECK_RUN_HI i (v / two32) s)

/-- Feed bytes to a unit (R462). -/
def feed (i : Nat) (bs : List Byte) (s : State) : State :=
  addF CHECK_BYTES i bs.length (setRun i (bs.foldl (algByte (getF s CHECK_CTRL_ALG i)) (runReg s i)) s)

/-- A passed write of a CHECK page's word at offset `o` is given to `f` with its unit. -/
def checkWrite (r : Requester) (a off : Nat) (f : Nat → State → State) (s : State) : State :=
  if a % 4 = 0 then guarded r a (fun t i o s => if t = 10 ∧ o = off then f i s else s) s else s

/-- DATA_B. -/
def execDataB (r : Requester) (a v : Nat) (s : State) : Host.Outcome State Fault Refusal :=
  .next (checkWrite r a 0x100 (fun i => feed i (leBytes 1 v)) s)

/-- DATA_H. -/
def execDataH (r : Requester) (a v : Nat) (s : State) : Host.Outcome State Fault Refusal :=
  .next (checkWrite r a 0x104 (fun i => feed i (leBytes 2 v)) s)

/-- DATA_W. -/
def execDataW (r : Requester) (a v : Nat) (s : State) : Host.Outcome State Fault Refusal :=
  .next (checkWrite r a 0x108 (fun i => feed i (leBytes 4 v)) s)

/-- INIT: CTRL.INIT loads the initial value (R463). -/
def execInit (r : Requester) (a v : Nat) (s : State) : Host.Outcome State Fault Refusal :=
  .next (checkWrite r a 0x10 (fun i s => if v.testBit 2 then setRun i (algInit (getF s CHECK_CTRL_ALG i)) s else s) s)

/-- FINAL forms the result and, with CMP_EN, compares it (R463, R464). -/
def checkFinal (i : Nat) (s : State) : State :=
  let alg := getF s CHECK_CTRL_ALG i
  let v := runReg s i ^^^ algXor alg
  let s := incr CHECK_FINALS i (setF CHECK_RES_LO i (v % two32) (setF CHECK_RES_HI i (v / two32) s))
  if !isF s CHECK_CTRL_CMP_EN i then s
  else if v = (getF s CHECK_EXP_LO i + two32 * getF s CHECK_EXP_HI i) % 2 ^ algWidth alg then setF CHECK_STAT_MATCH i 1 s
  else setEvt CHECK_EV_MISMATCH i (incr CHECK_MISMATCH_CNT i (setF CHECK_STAT_MATCH i 0 s))

/-- FINAL. -/
def execFinal (r : Requester) (a v : Nat) (s : State) : Host.Outcome State Fault Refusal :=
  .next (checkWrite r a 0x10 (fun i s => if v.testBit 3 then checkFinal i s else s) s)

end Sys2Proof.Machine
end

