-- ==== Sys2Proof/Machine/Ckpt.lean ====
section
/-! DEFINITION. Checkpoints: the command, the block reads within their windows, the cut at a step close, completion, and the peer
frames at holder and source (R468 to R481). -/

namespace Sys2Proof.Machine

/-! ## The command (R469, R472, R525) -/

/-- An extent list entry: identifier, length and address. -/
def extentOf (e : List Byte) : Nat × Nat × Nat := (pay e 0 3, pay e 4 4, pay e 8 8)

/-- An extent that R472 does not allow. -/
def extentBad (e : List Byte) : Bool :=
  pay e 3 1 != 0 || pay e 4 4 == 0 || decide (16777216 < pay e 4 4) || badAddr (pay e 8 8) 256 (pay e 4 4)

/-- A holder table entry: module, capacity in bytes and start offset. -/
def holderOf (e : List Byte) : Nat × Nat × Nat := (pay e 0 2, pay e 4 4 * 1048576, pay e 8 8)

/-- A holder table entry that breaks its layout. -/
def holderBad (e : List Byte) : Bool := pay e 2 2 != 0 || pay e 8 8 % 64 != 0

/-- The step at a cut is behind the context: opened and closed. -/
def stepClosed (s : State) (c n : Nat) : Bool :=
  (stepOf s c n).isNone && (match (ctxOf s c).first, (ctxOf s c).last with
    | some a, some b => decide (a ≤ n ∧ n ≤ b)
    | _, _ => false)

/-- The blocks that a checkpoint at cut `n` still has to read when it starts: none before the step opens. -/
def ckptLeft (s : State) (c n : Nat) : Option (List Nat) :=
  match stepOf s c n with
  | some st => some (st.blks.map (·.gbi))
  | none => if stepClosed s c n then some ((ctxOf s c).tabs.map (·.gbi)) else none

/-- A checkpoint ends with a status. -/
def endCkpt (c st r0 : Nat) (s : State) : State :=
  match (ctxOf s c).ckpt with
  | some k => report k.handle st r0 0 (modCtx c (fun x => { x with ckpt := none }) s)
  | none => s

/-- Read extents one after another into EXTRA records; a failing read ends the command. -/
def readExtents (c : Nat) : List (Nat × Nat × Nat) → State → State
  | [], s => s
  | (i, n, a) :: r, s =>
    match engRead 0 6 a n s with
    | (.data bs, s) => readExtents c r (putRecord c { kind := 3, tensor := i, gbi := 0xFFFFFFFF } bs s)
    | (.fault _, s) => endCkpt c 0x13 0 s
    | (.uncorr, s) => endCkpt c 0x12 0 s

/-- The carried transfers of step `n`, with their RECVs. -/
def carriedOf (s : State) (c n : Nat) : List (Recv × Xfer) :=
  ((ctxOf s c).coll.recvs.filter fun r => r.step == n && kKind r.desc == 0).flatMap fun r =>
    (r.xfers.filter fun x => x.carry).map fun x => (r, x)

/-- As the cut step closes, the extents and the complete carried transfers are read, and those still arriving are noted
(R472, R473). -/
def ckptAtCut (c n : Nat) (s : State) : State :=
  match (ctxOf s c).ckpt with
  | none => s
  | some k =>
    if k.cut ≠ n ∨ k.cutRead then s
    else
      let cs := carriedOf s c n
      let full := cs.filter fun e => xferFull e.1.desc e.2
      let part := cs.filter fun e => !xferFull e.1.desc e.2
      let s := modCkpt c (fun x => { x with cutRead := true, arriving := part.map fun e => (e.1.cid, e.2.idx) }) s
      readExtents c k.exts (putCarries c (full.map fun e => (e.1.cid, carryBytes e.1 e.2)) s)

/-- As step `n` closes, what was still arriving at the cut n − 1 is written as it stands (R473). -/
def ckptAfterCut (c n : Nat) (s : State) : State :=
  match (ctxOf s c).ckpt with
  | none => s
  | some k =>
    if k.cut + 1 ≠ n then s
    else
      let cs := (carriedOf s c k.cut).filter fun e => k.arriving.contains (e.1.cid, e.2.idx)
      putCarries c (cs.map fun e => (e.1.cid, carryBytes e.1 e.2)) (modCkpt c (fun x => { x with arriving := [] }) s)

/-- Begin a checkpoint whose tables have been read. -/
def ckptBegin (h : Nat) (e : List Byte) (hs xs : List (List Byte)) (s : State) : State :=
  let c := hCtx h
  let n := argOf e 0 % two32
  let peer := bits (argOf e 0) 32 2 == 1
  if hs.any holderBad || xs.any extentBad then report h 1 0 0 s
  else
    let k : Ckpt := { handle := h, cut := n, peer := peer, dest := argOf e 1, room := argOf e 2,
                      holders := hs.map holderOf, exts := xs.map extentOf, left := ckptLeft s c n }
    let s := modCtx c (fun x => { x with ckpt := some k }) s
    if stepClosed s c n then ckptAtCut c n s else s

/-- CKPT: refused with CUT_PASSED when operation 7 of a later step has begun, with CKPT_BUSY while another checkpoint of the
context is in progress (R469). -/
def ckpt (h : Nat) (s : State) : State :=
  runCmd h 0x30 (fun e s =>
    let c := hCtx h
    let n := argOf e 0 % two32
    if (ctxOf s c).lastCommit.any fun l => decide (n < l) then report h 0x0A 0 0 s
    else if (ctxOf s c).ckpt.isSome then report h 0x0B 0 0 s
    else
      let nh := if bits (argOf e 0) 32 2 = 1 then argOf e 2 else 0
      cmdRead h 6 (argOf e 1 % 2 ^ 40) (16 * nh) (fun hb s =>
        cmdRead h 6 (argOf e 3) (16 * argOf e 4) (fun xb s =>
          ckptBegin h e (chunks 16 nh hb) (chunks 16 (argOf e 4) xb) s) s) s) s

/-- CKPT. -/
def execCkpt (h : Nat) (s : State) : Host.Outcome State Fault Refusal := .next (awake s (ckpt h s))

/-! ## Block reads (R470, R471, R505) -/

/-- The block as the cut step has it, when its window is open: after its FSTAMP write of the cut step, and for a frozen block or one
with both sides disabled at any time after that step has opened. -/
def ckptWindow (s : State) (c g : Nat) (k : Ckpt) : Option Blk :=
  match stepOf s c k.cut with
  | some st => st.blks.find? fun b => b.gbi == g && (lFrozen b.lat || lF b.lat == 0 || decide (5 ≤ b.ph))
  | none => (ctxOf s c).tabs.find? fun b => b.gbi == g

/-- CKPT_BLOCK_READ: block `g` is read for the checkpoint of context `c`; a suspect block waits (R505), and so does
a durable checkpoint whose transfer the host DMA's Sluice has not granted (R366). -/
def ckptBlockRead (c g : Nat) (s : State) : State :=
  match (ctxOf s c).ckpt with
  | none => s
  | some k =>
    if !(k.left.any fun l => l.contains g) || isSuspect s g || !k.peer && !hubGranted s 537 (c + 16) 1 then s
    else match ckptWindow s c g k with
      | none => s
      | some b =>
        match blockRecord b (hubTake 537 (c + 16) 1 s) with
        | (none, s) => s
        | (some (h, raw), s) =>
          putRecord c h raw (modCkpt c (fun x => { x with left := x.left.map fun l => l.filter (· ≠ g) }) s)

/-- CKPT_BLOCK_READ. -/
def execCkptBlockRead (c g : Nat) (s : State) : Host.Outcome State Fault Refusal := .next (awake s (ckptBlockRead c g s))

/-! ## Completion (R478, R481) -/

/-- The holders that the stream has reached. -/
def usedHolders (k : Ckpt) : List (Nat × Nat × Nat) := k.holders.take (k.cur + 1)

/-- The end mark that tells a holder that its part of the stream is complete: a DONE whose offset is not 0. -/
def endMarks (c : Nat) (k : Ckpt) : Nat → List (Nat × Nat × Nat) → State → State
  | _, [], s => s
  | i, (m, cap, o) :: r, s =>
    let n := max 64 (o + if i < k.cur then cap else k.curOff)
    endMarks c k (i + 1) r (peerSend m [peerFrame s m c 4 n 0 []] s)

/-- The END record and the manifest close the stream. -/
def ckptEnd (c : Nat) (s : State) : State :=
  match (ctxOf s c).ckpt with
  | none => s
  | some k =>
    let s := putRecord c { kind := 4, gbi := k.entries.length } [] s
    match (ctxOf s c).ckpt with
    | none => s
    | some k =>
      let s := streamOut c k (zManifest s c k.cut k.entries) s
      modCkpt c (fun x => { x with ended := true }) s

/-- Every holder that the stream has reached has answered DONE, or the durable stream is written: the command completes (R481). -/
def ckptDone (c : Nat) (s : State) : State :=
  match (ctxOf s c).ckpt with
  | some k =>
    if k.ended && (!k.peer || (usedHolders k).all fun h => k.dones.contains h.1) then endCkpt c 0 k.off s else s
  | none => s

/-- CKPT_COMPLETE: once every block, extent and carried transfer is in the stream, the END record and the manifest follow; a durable
checkpoint then completes, and the holders of a peer checkpoint are told. -/
def ckptComplete (c : Nat) (s : State) : State :=
  match (ctxOf s c).ckpt with
  | none => s
  | some k =>
    if k.ended then ckptDone c s
    else if k.left != some [] || !k.cutRead || k.arriving != [] then s
    else
      let s := putCarries c k.dropped (modCkpt c (fun x => { x with dropped := [] }) s)
      let s := ckptEnd c s
      match (ctxOf s c).ckpt with
      | none => s
      | some k => ckptDone c (if k.peer then endMarks c k 0 (usedHolders k) s else s)

/-- CKPT_COMPLETE. -/
def execCkptComplete (c : Nat) (s : State) : Host.Outcome State Fault Refusal := .next (awake s (ckptComplete c s))

/-! ## Peer frames (R480) -/

/-- The first frame for the checkpoint engine that waits, when it has operation `op`, and the inbox without it. -/
def peerInbox (s : State) (op : Nat) : Option (Frame × List Frame) :=
  match takeFirst (fun f : Frame => f.engine == 3) s.inbox with
  | some (f, r) => if pOp f = op then some (f, r) else none
  | none => none

/-- Bytes of a context's window. -/
def winSize (s : State) (c : Nat) : Nat := getFk s HOSTIF_PEER_WIN_MIB 0 c * 1048576

/-- Module address of an offset in a context's window. -/
def winAddr (s : State) (c o : Nat) : Nat := getFk s HOSTIF_PEER_WIN_BASE 0 c * 4096 + o

/-- A peer frame is discarded and its context counted in CTX_DROP of the port on which it arrived (R402, R480). -/
def peerDrop (f : Frame) (s : State) : State :=
  setEvt LINK_EV_CTX_DROP f.via (incr LINK_CTX_DROP f.via s)

/-- Take the next peer frame of an operation and act on it. -/
def peerTake (op : Nat) (f : Frame → State → State) (s : State) : State :=
  match peerInbox s op with
  | some (x, r) => f x { s with inbox := r }
  | none => s

/-- A WRITE at the holder. -/
def peerWrite (f : Frame) (s : State) : State :=
  if winSize s f.ctx < pOff f + f.payload.length then peerDrop f s
  else memStore 0 (winAddr s f.ctx (pOff f)) f.payload s

/-- PEER_WRITE. -/
def execPeerWrite (s : State) : Host.Outcome State Fault Refusal := .next (awake s (peerTake 1 peerWrite s))

/-- A READ_REQ at the holder is answered with READ_DATA frames. -/
def readReq (f : Frame) (s : State) : State :=
  if winSize s f.ctx < pOff f + pLen f then peerDrop f s
  else match engRead 0 6 (winAddr s f.ctx (pOff f)) (pLen f) s with
    | (.data bs, s) => peerSend f.src (peerData s f.src f.ctx 3 (pOff f) bs) s
    | (_, s) => s

/-- READ_REQ. -/
def execReadReq (s : State) : Host.Outcome State Fault Refusal := .next (awake s (peerTake 2 readReq s))

/-- DONE: an answer, with offset 0, counts towards the checkpoint; an end mark is answered. -/
def peerDone (f : Frame) (s : State) : State :=
  if pOff f = 0 then
    match (ctxOf s f.ctx).ckpt with
    | some k =>
      if k.peer && k.ended && k.holders.any fun h => h.1 == f.src then
        ckptDone f.ctx (modCkpt f.ctx (fun x => { x with dones := x.dones ++ [f.src] }) s)
      else s
    | none => s
  else if winSize s f.ctx < pOff f then peerDrop f s
  else peerSend f.src [peerFrame s f.src f.ctx 4 0 0 []] s

/-- PEER_DONE. -/
def execPeerDone (s : State) : Host.Outcome State Fault Refusal := .next (awake s (peerTake 4 peerDone s))

end Sys2Proof.Machine
end

