-- ==== Sys2Proof/Machine/Power.lean ====
section
/-! DEFINITION. Power domains, droop and supply events, throttle steps, low-power states and island resets (R26, R329 to R331, R564
to R587, R592, R594, R595). -/

namespace Sys2Proof.Machine

/-! ## Switching domains (R26, R566 to R568) -/

/-- No unit of a region holds a descriptor. -/
def regionUnitsIdle (s : State) (rg : Nat) : Bool :=
  s.units.all fun e => e.1 / 32 != rg || (e.2.cq.isEmpty && e.2.wq.isEmpty && e.2.run.isNone && e.2.bad.isNone && e.2.badWide.isNone)

/-- A context has a block table entry of a cluster of the region. -/
def regionBlocks (s : State) (rg : Nat) : Bool :=
  s.ctxs.any fun e => (e.2.tabs ++ e.2.steps.flatMap (·.blks)).any fun b => b.cl / 8 == rg

/-- A list runs in a cluster of the region. -/
def regionLists (s : State) (rg : Nat) : Bool := s.clusters.any fun e => e.1 / 8 == rg && !e.2.lists.isEmpty

/-- A VALID flag group of the die, or a VALID barrier among the first `n` that lives in the region (R350). -/
def regionObjs (s : State) (rg : Nat) : Nat → Bool
  | 0 => (List.range 64).any fun g => objValid s (rg / 8) 0 (64 * g)
  | n + 1 => (n % 64 / 8 == rg % 8 && objValid s (rg / 8) 1 n) || regionObjs s rg n

/-- A valid span of die `d` below span `n` uses a channel of a stack. -/
def spansUse (s : State) (d m : Nat) : Nat → Bool
  | 0 => false
  | n + 1 =>
    let e := spanEntry s d n
    (spanValid e && bits e 1 2 == m / 4 && decide (bits e 8 7 < 32 * (m % 4) + 32) && decide (32 * (m % 4) < bits e 8 7 + 2 ^ bits e 4 3))
      || spansUse s d m n

/-- The condition under which a domain may be off (R26, R566). -/
def mayBeOff (s : State) (n : Nat) : Bool :=
  if n < 32 then regionUnitsIdle s n && domOn s (32 + n)
  else if n < 64 then
    let rg := n - 32
    !domOn s rg && !regionBlocks s rg && !regionLists s rg && !regionObjs s rg 256
  else if n < 80 then !((List.range 4).any fun d => spansUse s d (n - 64) 256)
  else if n < 84 then
    let d := n - 80
    domOn s (80 + (d + 3) % 4) && domOn s (84 + d) && domOn s (80 + (d + 1) % 4) && domOn s (84 + (d + 1) % 4)
  else if n < 88 then domOn s (80 + (n - 84)) && domOn s (80 + (n - 84 + 3) % 4)
  else if n < 92 then false
  else if n < 116 then decide (getF s LINK_STAT_STATE (n - 92) ≤ 1) && !isF s LINK_CTRL_EN (n - 92)
  else decide (126 ≤ n)

/-- A request is refused (R566). -/
def refuseDomain (n : Nat) (s : State) : State := setEvt PWR_EV_DOM_REFUSED 0 (setF PWR_ERR_INFO_DOMAIN 0 n s)

/-- Switch domains off where a word of DOM_REQ asks for it, from domain `n` on. -/
def switchOff (v : Nat) : Nat → Nat → State → State
  | 0, _, s => s
  | k + 1, n, s =>
    let s := if v.testBit (n % 32) || !domOn s n then s else if mayBeOff s n then domainOff n s else refuseDomain n s
    switchOff v k (n + 1) s

/-- A write of word `w` of DOM_REQ. A domain that is to go on follows with DOMAIN_SWITCH_DONE. -/
def domReqSet (w v : Nat) (s : State) : State := switchOff v 32 (32 * w) (setFk PWR_DOM_REQ 0 w v s)

/-- DOM_REQ. -/
def domReq (r : Requester) (a v : Nat) (s : State) : State :=
  guarded r a (fun t _ o s =>
    if t = 13 ∧ 0x100 ≤ o ∧ o < 0x110 ∧ o % 4 = 0 then pairRuns 3 (setFk PWR_DOM_REQ 0 ((o - 0x100) / 4) v s) (domReqSet ((o - 0x100) / 4) v s)
    else s) s

/-- DOM_REQ. -/
def execDomReq (r : Requester) (a v : Nat) (s : State) : Host.Outcome State Fault Refusal := .next (domReq r a v s)

/-- DOM_REQ asks for domain `n`. -/
def domWanted (s : State) (n : Nat) : Bool := (getFk s PWR_DOM_REQ 0 (n / 32)).testBit (n % 32)

/-- A domain is on, its saved state restored; the channels of a stack are trained, and a sequencer's page shows the job that it kept
(R252, R257, R567, R568). -/
def domainOn (n : Nat) (s : State) : State :=
  let s := setDomStat n true s
  if 64 ≤ n ∧ n < 80 then trainStack (n - 64) s else if 32 ≤ n ∧ n < 64 then showSeq (n - 32) s else s

/-- DOMAIN_SWITCH_DONE: a requested domain finishes switching on; a tensor domain follows its cluster domain (R26). -/
def domainSwitchDone (n : Nat) (s : State) : State :=
  if n < 128 && domWanted s n && !domOn s n && getF s PWR_STAT_STATE 0 == 0 && !isF s BRKW_STAT_FAULT 0
      && (decide (32 ≤ n) || domOn s (32 + n)) then domainOn n s
  else s

/-- DOMAIN_SWITCH_DONE. -/
def execDomainSwitchDone (n : Nat) (s : State) : Host.Outcome State Fault Refusal := .next (pairsUp s (pairRuns 3 s (domainSwitchDone n s)))

/-! ## Droop and supply (R569 to R574) -/

/-- DROOP_STRETCH: a stretch episode of an island of die `d` is counted. -/
def droopStretch (d : Nat) (s : State) : State := if d < 4 then addFk PWR_STRETCH_CNT 0 d 1 s else s

/-- DROOP_STRETCH. -/
def execDroopStretch (d : Nat) (s : State) : Host.Outcome State Fault Refusal := .next (running s (droopStretch d s))

/-- Warning, recovery and reset level of a rail in mV (R570). -/
def railLevels (r : Nat) : Option (Nat × Nat × Nat) :=
  if r = 0 then some (45000, 46000, 42000)
  else if r ≤ 5 then some (705, 715, 675)
  else if r ≤ 9 then some (1045, 1055, 1000)
  else if r = 10 then some (3100, 3150, 2900)
  else none

/-- The rail is dipped. -/
def railDipped (s : State) (r : Nat) : Bool := s.pow.dips.any fun d => d.rail == r

/-- RAIL_DIP: rail `r` falls to `mv`, below its warning level; the window opens (R571, R572). -/
def railDip (r mv : Nat) (s : State) : State :=
  match railLevels r with
  | none => s
  | some l =>
    if mv < l.1 ∧ !railDipped s r then
      let s := { s with pow := { s.pow with dips := s.pow.dips ++ [{ rail := r }] } }
      setEvt PWR_EV_DIP 0 (incr PWR_DIP_CNT 0 (setFk PWR_RAIL_MIN 0 r mv (setF PWR_STAT_RAIL 0 r (setF PWR_STAT_DIP 0 1 s))))
    else s

/-- RAIL_DIP. -/
def execRailDip (r mv : Nat) (s : State) : Host.Outcome State Fault Refusal := .next (outOfReset s (railDip r mv s))

/-- A re-verified tile is counted; a failure sets the event. -/
def countVerify (ok : Bool) (s : State) : State :=
  let s := incr PWR_REVERIFY_TILES 0 s
  if ok then s else setEvt PWR_EV_REVERIFY_FAIL 0 (incr PWR_REVERIFY_FAIL 0 s)

/-- Re-read weight tile `t` of a block and compare it with its stored value; a failure is a failed stored check (R453, R572). -/
def verifyTile (b : Blk) (t : Nat) (s : State) : Nat × State :=
  match engRead (dieOf b.cl) 0 (wgtAddr s b + 12288 * t) 12288 s with
  | (.data bs, s) =>
    let ok := crc32c bs == mval s (dieOf b.cl) (wgtAddr s b + 12288 * lTiles b.lat + 4 * t) 4
    (b2n (!ok), if ok then countVerify true s else fetchSend b 1 t false (countVerify false s))
  | (_, s) => (1, fetchSend b 1 t false (countVerify false s))

/-- Weight tiles 0 to `n - 1` of a block: the failures. -/
def verifyBlk (b : Blk) : Nat → State → Nat × State
  | 0, s => (0, s)
  | n + 1, s =>
    let (f, s) := verifyBlk b n s
    let (g, s) := verifyTile b n s
    (f + g, s)

/-- Several blocks: tiles and failures. -/
def verifyBlks : List Blk → State → Nat × Nat × State
  | [], s => (0, 0, s)
  | b :: bs, s =>
    let (f, s) := verifyBlk b (lTiles b.lat) s
    let (t, g, s) := verifyBlks bs s
    (lTiles b.lat + t, f + g, s)

/-- Tiles of the twin's copies: tiles and failures. A failing one clears its KIND's VALID bit. -/
def verifyTwin : List (Nat × Blk × Nat × Nat × Nat) → State → Nat × Nat × State
  | [], s => (0, 0, s)
  | (i, b, kind, t, v) :: r, s =>
    let (res, s) := engRead 0 4 (bufAddr s b kind + tileBytes kind * t) (tileBytes kind) s
    let ok := match res with
      | .data bs => crc32c bs == v
      | _ => false
    let s := countVerify ok s
    let s := if ok then s else setChkFlags i 0 (2 ^ grpBit (kindGrp kind)) s
    let (n, f, s) := verifyTwin r s
    (n + 1, f + b2n (!ok), s)

/-- The blocks of a window: those logged and, where a cluster's log has overflowed, every block that it committed in the open steps. -/
def windowBlks (s : State) (d : Dip) : List Blk :=
  let more := (s.ctxs.flatMap fun e => e.2.steps.flatMap (·.blks)).filter fun b => 3 ≤ b.ph && b.ph ≤ 5 && d.full.contains b.cl
  d.commits ++ more.filter fun b => !d.commits.any fun x => x.gbi == b.gbi && x.cl == b.cl

/-- RAIL_RECOVER: rail `r` is above its recovery level again, after `us` µs with a lowest level of `mv`. The hold-off starts and the tiles
written in the window are re-verified (R571, R572), unless the engines stand still. -/
def railRecover (r mv us : Nat) (s : State) : State :=
  match s.pow.dips.find? fun d => d.rail == r with
  | none => s
  | some d =>
    let rest := s.pow.dips.filter fun x => x.rail != r
    let s := { s with pow := { s.pow with dips := rest } }
    let s := setF PWR_STAT_HOLDOFF 0 1 (setF PWR_STAT_DIP 0 (if rest.isEmpty then 0 else 1) (setFk PWR_RAIL_MIN 0 r mv s))
    if stopped s then s else
    let (t, f, s) := verifyBlks (windowBlks s d) s
    let (t2, f2, s) := verifyTwin d.tiles s
    { s with pow := { s.pow with supply := s.pow.supply ++
      [{ rail := r, minMv := mv, durUs := us, tiles := t + t2, fails := f + f2 }] } }

/-- RAIL_RECOVER. -/
def execRailRecover (r mv us : Nat) (s : State) : Host.Outcome State Fault Refusal := .next (outOfReset s (railRecover r mv us s))

/-- SUPPLY_EVT: the record of the oldest window whose re-verification is complete (R574). -/
def supplyEvt (s : State) : State :=
  match s.pow.supply with
  | [] => s
  | x :: r =>
    jrnWide 0x50 srcHub (leBytes 4 (wideStep s) ++ leBytes 1 (x.rail + 16) ++ leBytes 1 0 ++ leBytes 2 x.minMv ++ leBytes 4 x.durUs
      ++ leBytes 2 (min 65535 x.tiles) ++ leBytes 2 x.fails) { s with pow := { s.pow with supply := r } }

/-- SUPPLY_EVT. -/
def execSupplyEvt (s : State) : Host.Outcome State Fault Refusal := .next (running s (supplyEvt s))

/-- HOLDOFF_END: `ms` ms after the last recovery, with no rail dipped (R571). -/
def holdoffEnd (ms : Nat) (s : State) : State :=
  if 10 ≤ ms ∧ s.pow.dips.isEmpty then setF PWR_STAT_HOLDOFF 0 0 s else s

/-- HOLDOFF_END. -/
def execHoldoffEnd (ms : Nat) (s : State) : Host.Outcome State Fault Refusal := .next (outOfReset s (holdoffEnd ms s))

/-! ## Throttle steps (R329 to R331, R576 to R581) -/

/-- One reading, 1 ms after the last: hot goes one step down, ten readings in a row at the lower level go one step up, and a reading
between the levels holds the step. -/
def Throttle.next (t : Throttle) (hot cold : Bool) : Throttle :=
  if hot then { step := min 7 (t.step + 1) }
  else if cold then (if t.cold < 9 then { t with cold := t.cold + 1 } else { step := t.step - 1 })
  else { step := t.step }

/-- The stack above a region (R28). -/
def stackOf (rg : Nat) : Nat := rg / 8 * 4 + rg % 8 / 2

/-- The step in force and its cause: the highest-numbered of the region's own step, the stack's and the cap step (R579). -/
def stepInForce (s : State) (rg : Nat) : Nat × Nat :=
  let o := (s.pow.own.get {} rg).step
  let k := (s.pow.stack.get {} (stackOf rg)).step
  let c := s.pow.cap.step
  let m := max o (max k c)
  (m, if m = 0 then 0 else if m = o then 1 else if m = k then 2 else 3)

/-- THERM_EVT (R581). -/
def thermEvt (rg step cause kind : Nat) (s : State) : State :=
  jrnWide 0x51 srcHub (leBytes 4 (wideStep s) ++ leBytes 1 rg ++ leBytes 1 step ++ leBytes 1 cause ++ leBytes 1 kind
    ++ leBytes 1 (getFk s THERM_REGION_TEMP 0 rg) ++ zeros 7) s

/-- A region takes the step in force. -/
def takeStep (rg : Nat) (s : State) : State :=
  let old := getFk s THERM_REGION_TSTEP 0 rg
  let oldCause := getFk s THERM_REGION_CAUSE 0 rg
  let (new, cause) := stepInForce s rg
  let s := setFk THERM_REGION_TSTEP 0 rg new (setFk THERM_REGION_CAUSE 0 rg cause s)
  if old < new then
    let s := addF THERM_STEP_DOWN 0 (new - old) s
    let s := if old = 0 then thermEvt rg new cause 1 (setEvt THERM_EV_THROTTLE 0 s) else s
    if new = 7 then thermEvt rg new cause 2 (setEvt THERM_EV_LOWEST 0 s) else s
  else if new < old then
    let s := addF THERM_STEP_UP 0 (old - new) s
    if new = 0 then thermEvt rg new oldCause 3 s else s
  else s

/-- Regions take the step in force, in order. -/
def takeSteps : List Nat → State → State
  | [], s => s
  | rg :: r, s => takeSteps r (takeStep rg s)

/-- REGION_TEMP_SAMPLE: die pair 1 reads `t` °C in region `rg` (R577). -/
def regionTempSample (rg t : Nat) (s : State) : State :=
  if 32 ≤ rg then s
  else
    let thr := getF s THERM_CFG_THR_C 0
    let low := thr - getF s THERM_CFG_HYST_C 0
    let s := setFk THERM_REGION_TEMP 0 rg t s
    takeStep rg { s with pow := { s.pow with own := s.pow.own.upd {} rg fun x => x.next (decide (thr ≤ t)) (decide (t ≤ low)) } }

/-- REGION_TEMP_SAMPLE. -/
def execRegionTempSample (rg t : Nat) (s : State) : Host.Outcome State Fault Refusal :=
  .next (pairsUp s (pairRuns (5 + 2 * (rg / 8)) s (regionTempSample rg t s)))

/-- POWER_SAMPLE: hub pair 3 reads an input power of `w` W (R578). -/
def powerSample (w : Nat) (s : State) : State :=
  let cap := getF s PWR_CAP 0
  let s := setF PWR_POWER 0 w s
  takeSteps (List.range 32) { s with pow := { s.pow with cap := s.pow.cap.next (decide (cap < w)) (decide (100 * w ≤ 95 * cap)) } }

/-- POWER_SAMPLE. -/
def execPowerSample (w : Nat) (s : State) : Host.Outcome State Fault Refusal := .next (pairsUp s (pairRuns 3 s (powerSample w s)))

/-- The refresh interval follows the temperature (R330). -/
def refreshRate (m t : Nat) (s : State) : State :=
  let on := isF s MEMCTL_STAT_REF_X2 m
  if 85 ≤ t ∧ !on then memEvt m 8 0 t (setF MEMCTL_STAT_REF_X2 m 1 s)
  else if t ≤ 83 ∧ on then memEvt m 9 0 t (setF MEMCTL_STAT_REF_X2 m 0 s)
  else s

/-- Channel `ch` was last trained at a temperature 10 °C or more away from `t`, and is not in retraining (R323). -/
def movedFar (s : State) (m t ch : Nat) : Bool :=
  !(isF s MEMCTL_STAT_RETRAINING m && getF s MEMCTL_STAT_RT_CH m == ch) &&
    ((mcOf s m).trained.find ch).any fun u => decide (u + 9 ≤ t) || decide (t + 11 ≤ u)

/-- Channels whose stack temperature has moved fall due, below channel `n` (R323). -/
def fallDues (m t : Nat) : Nat → State → State
  | 0, s => s
  | n + 1, s => let s := fallDues m t n s; if movedFar s m t n then fallDue m n s else s

/-- Channels that were last trained at a temperature 10 °C or more away become due, and the first hold begins (R323). -/
def dueChannels (m t : Nat) (s : State) : State := startDue m (fallDues m t 32 s)

/-- STACK_TEMP_SAMPLE: the controller of stack `m` reads `t` °C (R329 to R331). -/
def stackTempSample (m t : Nat) (s : State) : State :=
  if 16 ≤ m then s
  else
    let s := dueChannels m t (refreshRate m t (setF MEMCTL_STAT_TEMP m t s))
    if getF s MEMCTL_THERM_THROTTLE_C m ≤ t ∧ !isF s MEMCTL_STAT_THROTTLE m then
      memEvt m 6 0 t (setEvt MEMCTL_EV_THROTTLE m (setF MEMCTL_STAT_THROTTLE m 1 s))
    else s

/-- STACK_TEMP_SAMPLE. -/
def execStackTempSample (m t : Nat) (s : State) : Host.Outcome State Fault Refusal := .next (runningIn (64 + m) s (stackTempSample m t s))

/-- The regions beneath a stack. -/
def regionsUnder (m : Nat) : List Nat := [m / 4 * 8 + m % 4 * 2, m / 4 * 8 + m % 4 * 2 + 1]

/-- STACK_THROTTLE_STEP: 1 ms after the last, the step that stack `m` asks for moves with its temperature; when no request remains the
stack stops asking (R331). -/
def stackThrottleStep (m : Nat) (s : State) : State :=
  if 16 ≤ m ∨ !isF s MEMCTL_STAT_THROTTLE m then s
  else
    let t := getF s MEMCTL_STAT_TEMP m
    let thr := getF s MEMCTL_THERM_THROTTLE_C m
    let low := thr - getF s MEMCTL_THERM_HYST_C m
    let x := (s.pow.stack.get {} m).next (decide (thr ≤ t)) (decide (t ≤ low))
    let s := { s with pow := { s.pow with stack := s.pow.stack.put {} m x } }
    let s := if x.step = 0 ∧ t ≤ low then memEvt m 7 0 t (setF MEMCTL_STAT_THROTTLE m 0 s) else s
    takeSteps (regionsUnder m) s

/-- STACK_THROTTLE_STEP. -/
def execStackThrottleStep (m : Nat) (s : State) : Host.Outcome State Fault Refusal := 
  .next (runningIn (64 + m) s (pairRuns (5 + 2 * (m / 4)) s (stackThrottleStep m s)))

/-! ## Low-power states (R582 to R584) -/

/-- A command of R583 is in progress. -/
def busyCommand (s : State) : Bool :=
  s.ctxs.any fun e => e.2.slots.any fun x =>
    x.2.inUse && x.2.started && !x.2.ended && [0x12, 0x20, 0x21, 0x30, 0x31, 0x52].contains (opOf x.2.entry)

/-- Deep idle and standby are refused (R583, R584). -/
def stateRefused (s : State) : Bool := anyOpen s 16 || busyCommand s

/-- A write of STATE_REQ that the PF or a control pair makes. -/
def stateReq (r : Requester) (a v want : Nat) (f : State → State) (s : State) : State :=
  guarded r a (fun t _ o s => if t = 13 ∧ o = 0x10 ∧ v % 4 = want then f (setF PWR_CTRL_STATE_REQ 0 want s) else s) s

/-- A state request is refused. -/
def refuseState (s : State) : State := setEvt PWR_EV_STATE_REFUSED 0 (setF PWR_STAT_STATE 0 0 s)

/-- The domains of deep idle in the order in which they switch off. -/
def idleDomains : List Nat := List.range 88

/-- Enter deep idle from RUN. -/
def enterIdle (s : State) : State :=
  if getF s PWR_STAT_STATE 0 ≠ 0 then s
  else if stateRefused s then refuseState s
  else setEvt PWR_EV_STATE_DONE 0 (setF PWR_STAT_STATE 0 1 (domainsOff idleDomains s))

/-- DEEP_IDLE. -/
def execDeepIdle (r : Requester) (a v : Nat) (s : State) : Host.Outcome State Fault Refusal := .next (stateReq r a v 1 enterIdle s)

/-- Domains that DOM_REQ asks for go on, in order; a tensor domain only with its cluster domain on (R26). -/
def domainsOn : List Nat → State → State
  | [], s => s
  | n :: ns, s => domainsOn ns (if domWanted s n && !domOn s n && (decide (32 ≤ n) || domOn s (32 + n)) then domainOn n s else s)

/-- Links 0 to `n - 1` that DOM_REQ does not ask for, but whose absence would break R566, stay on: the request is refused. -/
def linksNeeded : Nat → State → State
  | 0, s => s
  | n + 1, s =>
    let s := linksNeeded n s
    if domOn s (80 + n) || mayBeOff s (80 + n) then s else refuseDomain (80 + n) (domainOn (80 + n) s)

/-- Leave deep idle: the domains are restored in reverse order (R583). A die-to-die link that DOM_REQ gave up meanwhile is judged now
(R566, log entry 102). -/
def leaveIdle (s : State) : State :=
  if getF s PWR_STAT_STATE 0 = 1 then
    setEvt PWR_EV_STATE_DONE 0 (setF PWR_STAT_STATE 0 0 (domainsOn ((List.range 16).map (· + 64)
      ++ (List.range 32).map (· + 32) ++ List.range 32) (linksNeeded 8 (domainsOn ((List.range 8).map (· + 80)) s))))
  else s

/-- DEEP_IDLE_EXIT. -/
def execDeepIdleExit (r : Requester) (a v : Nat) (s : State) : Host.Outcome State Fault Refusal :=
  .next (stateReq r a v 0 leaveIdle s)

/-- Enter standby: every switched domain and every stack supply goes off, and module memory, training and redirects are lost (R584). -/
def enterStandby (s : State) : State :=
  if getF s PWR_STAT_STATE 0 = 2 then s
  else if stateRefused s then refuseState s
  else
    let s := domainsOff (List.range 128) s
    setEvt PWR_EV_STATE_DONE 0 (setF PWR_STAT_STATE 0 2 { s with mem := [], poison := [], mcs := [] })

/-- STANDBY. -/
def execStandby (r : Requester) (a v : Nat) (s : State) : Host.Outcome State Fault Refusal := .next (stateReq r a v 2 enterStandby s)

/-! ## Island resets I (R109, R252, R586) -/

/-- An island reset of unit `u`: its queued and running descriptors are discarded, its accumulators are +0, and it is no longer fenced,
halted or adopting. -/
def unitReset (u : Nat) (s : State) : State :=
  let s := restoreFlds .i (fun t i _ => t == 0 && i == u) { s with units := s.units.del u }
  let s := modCluster (u / 4) (fun c => { c with
    fences := c.fences.filter (· ≠ u % 4)
    copying := c.copying.filter fun e => e.1 != u % 4 && e.2 != u % 4
    buf := if c.bufTo = u % 4 then [] else c.buf }) s
  placeFences (u / 4) 4 s

/-- An island reset of a root sequencer: the job resumes from its saved progress (R252). -/
def seqReset (rg : Nat) (s : State) : State :=
  let s := modSeq rg (fun q => { q with back := [], sat := false }) (dropWide rg 32 s)
  showSeq rg (restoreFlds .i (fun t i _ => t == 2 && i == rg) s)

/-- A write of ISLAND_RST. -/
def islandRst (r : Requester) (a v : Nat) (s : State) : State :=
  guarded r a (fun t _ o s =>
    if t = 13 ∧ o = 0x120 then (if bit v 0 then seqReset (bits v 1 10 / 32) s else unitReset (bits v 1 10) s) else s) s

/-- ISLAND_RST. -/
def execIslandRst (r : Requester) (a v : Nat) (s : State) : Host.Outcome State Fault Refusal := .next (islandRst r a v s)

end Sys2Proof.Machine
end

