-- ==== Sys2Proof/Machine/Resets.lean ====
section
/-! DEFINITION. The resets C, P, L and F, and their releases (R16, R509, R530, R550, R573, R586 to R593, R605). -/

namespace Sys2Proof.Machine

/-! ## Cold reset C -/

/-- A programming that a reset C interrupts leaves its slot used and not valid (R552, R561). -/
def otpCut (s : State) : State :=
  match s.otpq with
  | [] => s
  | q :: _ =>
    match otpNext s q.field with
    | some g => otpWrite q.field g (slotBytes q.value false) s
    | none => s

/-- The module is in cold reset C: everything returns to its default but the OTP, the Gauge, the sticky log and what stands outside the
module (R586, R592). Pending tallies go out first (R615). -/
def coldNow (s : State) : State :=
  let s := otpCut (tallyFlushAll s)
  { pending := s.pending, regs := (restoreFlds .c everywhere s).regs, hmem := s.hmem, otp := s.otp, gauge := s.gauge,
    strapPos := s.strapPos, strapGaddr := s.strapGaddr, out := s.out, freeCtr := s.freeCtr, faultN := s.faultN,
    inReset := some .c }

/-! ## Platform reset P -/

/-- The module is in platform reset P: module memory with its poison and redirects, the held image, the OTP and what is outside stay
(R587, R592). Every root job is abandoned (R252). -/
def platformNow (s : State) : State :=
  let s := clearWips (allJobs s) (tallyFlushAll s)
  { pending := s.pending, regs := (restoreFlds .p everywhere s).regs, mem := s.mem, poison := s.poison,
    mcs := s.mcs.map fun e => (e.1, mcKept e.2), hmem := s.hmem, otp := s.otp, mbx := s.mbx, bootKeys := s.bootKeys,
    otpq := s.otpq.map fun q => { q with rom := false }, brk := { wdogSet := s.brk.wdogSet }, gauge := s.gauge,
    strapPos := s.strapPos, strapGaddr := s.strapGaddr, out := s.out, freeCtr := s.freeCtr, faultN := s.faultN,
    inReset := some .p }

/-! ## Arrival and release (R588, R605) -/

/-- A reset C or P arrives. It is held while a Breakwater input is tripped, and a wider one takes the place of a narrower one. -/
def holdReset (rc : Cls) (now : State → State) (s : State) : State :=
  if s.brk.tripped.isEmpty then now s
  else if s.brk.held = some .c then s
  else { s with brk := { s.brk with held := some rc } }

/-- COLD_RESET: absorbed by a reset C under way. -/
def coldReset (s : State) : State := if s.inReset = some .c then s else holdReset .c coldNow s

/-- COLD_RESET (R586). -/
def execColdReset (s : State) : Host.Outcome State Fault Refusal := .next (coldReset s)

/-- PLATFORM_RESET: PERST# is asserted; absorbed by a reset C or P under way. -/
def platformReset (s : State) : State := if s.inReset.isSome then s else holdReset .p platformNow s

/-- PLATFORM_RESET (R587). -/
def execPlatformReset (s : State) : Host.Outcome State Fault Refusal := .next (platformReset s)

/-- RAIL_RESET_TRIP: rail `r` stands at `mv`, below its reset level: the fault reaction runs and the module is held in cold reset C
(R573). -/
def railResetTrip (r mv : Nat) (s : State) : State :=
  match railLevels r with
  | none => s
  | some l => if mv < l.2.2 ∧ s.inReset ≠ some .c then coldReset (faultReaction 1 r mv s) else s

/-- RAIL_RESET_TRIP. -/
def execRailResetTrip (r mv : Nat) (s : State) : Host.Outcome State Fault Refusal := .next (railResetTrip r mv s)

/-- FAULT_RESET_RELEASE: every input is clear, and a held reset runs (R605). -/
def faultResetRelease (s : State) : State :=
  let held := s.brk.held
  let s := { s with brk := { s.brk with tripped := [], held := none } }
  match held with
  | some .c => coldNow s
  | some .p => platformNow s
  | _ => s

/-- FAULT_RESET_RELEASE. -/
def execFaultResetRelease (s : State) : Host.Outcome State Fault Refusal := .next (faultResetRelease s)

/-- PERST_RELEASE: the module leaves reset P, and the ROM verifies the held image (R550, R591). -/
def perstRelease (s : State) : State :=
  if s.inReset = some .p then
    let s := { s with inReset := none, faultN := false }
    if bootState s = 2 ∨ bootState s = 3 then setF BOOT_STAT_STATE 0 2 s else s
  else s

/-- PERST_RELEASE. -/
def execPerstRelease (s : State) : Host.Outcome State Fault Refusal := .next (perstRelease s)

/-- COLD_RESET_RELEASE: every rail has stood above its recovery level for `ms` ms. The straps are sampled as the reset C ends, and the ROM
waits for an image (R573, R651). -/
def coldResetRelease (ms pos gaddr : Nat) (s : State) : State :=
  if 10 ≤ ms ∧ bootState s = 0 ∧ s.inReset ≠ some .p then
    setF BOOT_STAT_STATE 0 1 { s with inReset := none, faultN := false, strapPos := pos % 8, strapGaddr := gaddr % 4 }
  else s

/-- COLD_RESET_RELEASE. -/
def execColdResetRelease (ms pos gaddr : Nat) (s : State) : Host.Outcome State Fault Refusal :=
  .next (coldResetRelease ms pos gaddr s)

/-! ## Resets L and F (R481, R526, R530, R589) -/

/-- A context loses its steps, lists, collectives, objects, checkpoint, queues and handles without a completion. -/
def ctxLost (c : Nat) (s : State) : State :=
  let s := if (ctxOf s c).ckpt.isSome then setCtxEvt c ceCkptAbort s else s
  let hs := liveHandles s c 0
  let s := dropOut c (dropWindow c (dropFrames c (jwideDrop c (dropWork c (abandonCtx c s)))))
  let s := if culCtx s = c then { s with cul := culDrop s.cul } else s
  { s with
    degClear := s.degClear.filter fun e => !hs.contains e.2
    reports := s.reports.filter fun e => hCtx e.handle != c
    ctxs := s.ctxs.del c }

/-- Contexts 0 to `n - 1` are lost. -/
def ctxsLost : Nat → State → State
  | 0, s => s
  | n + 1, s => ctxLost n (ctxsLost n s)

/-- LINK_RESET: a reset L, which covers every function, queue, handle and context. It does not act in standby (R593). -/
def linkReset (s : State) : State :=
  if s.inReset.isSome ∨ getF s PWR_STAT_STATE 0 = 2 then s
  else restoreFlds .l everywhere (ctxsLost 16 { s with vfEnable := false, numVfs := 0, hiLatch := [] })

/-- LINK_RESET. -/
def execLinkReset (s : State) : Host.Outcome State Fault Refusal := .next (linkReset s)

/-- A reset F covers context `c`: a context reset X, and its queues, handles and F fields return to their defaults. -/
def ctxFlr (c : Nat) (s : State) : State := restoreFlds .f (ofCtx c) (ctxLost c (ctxResetX c 0 s))

/-- A reset F covers contexts 0 to `n - 1`. -/
def ctxsFlr : Nat → State → State
  | 0, s => s
  | n + 1, s => ctxFlr n (ctxsFlr n s)

/-- FUNCTION_LEVEL_RESET of function `fn`, 0 for the PF or the number of an enabled VF (R530, R535). -/
def functionLevelReset (fn : Nat) (s : State) : State :=
  if s.inReset.isSome then s
  else if fn = 0 then setEvt HOSTIF_EV_FLR 0 { ctxsFlr 16 s with vfEnable := false, numVfs := 0 }
  else if vfEnabled s fn then setEvt HOSTIF_EV_FLR 0 (ctxFlr fn s)
  else s

/-- FUNCTION_LEVEL_RESET. -/
def execFunctionLevelReset (fn : Nat) (s : State) : Host.Outcome State Fault Refusal := .next (functionLevelReset fn s)

/-! ## PCI Express configuration (R509, R535) -/

/-- VF_ENABLE: SR-IOV writes VF Enable and NumVFs, 0 to 15. -/
def vfEnableSet (en : Bool) (n : Nat) (s : State) : State :=
  if n ≤ 15 then { s with vfEnable := en, numVfs := n } else s

/-- VF_ENABLE. -/
def execVfEnable (en : Bool) (n : Nat) (s : State) : Host.Outcome State Fault Refusal := .next (outOfReset s (vfEnableSet en n s))

/-- AER_ERROR: an error is logged under AER. -/
def aerError (s : State) : State := setEvt HOSTIF_EV_AER 0 s

/-- AER_ERROR. -/
def execAerError (s : State) : Host.Outcome State Fault Refusal := .next (outOfReset s (aerError s))

end Sys2Proof.Machine
end

