-- ==== Sys2Proof/Machine/Gauge.lean ====
section
/-! DEFINITION. The Gauge metering die: sampling, work tallies, records, supply and the two-wire port (R609 to R628). -/

namespace Sys2Proof.Machine

/-- Change the running Gauge; nothing happens without its supply. -/
def modGauge (f : GaugeRun → GaugeRun) (s : State) : State :=
  { s with gauge := { s.gauge with run := s.gauge.run.map f } }

/-! ## Metering (R609 to R611, R626) -/

/-- Add `e` µW samples to a channel's sums. -/
def GaugeRun.sample (ch e n : Nat) (g : GaugeRun) : GaugeRun :=
  if ch = 0 then { g with samples := g.samples + n, secA := g.secA + e, now := { g.now with a := g.now.a + e } }
  else { g with secB := g.secB + e, now := { g.now with b := g.now.b + e } }

/-- GAUGE_SAMPLE: channel `ch` (0 A, 1 B) measures `mv` mV and `ma` mA in each of `n` sample periods. -/
def gaugeSample (ch mv ma n : Nat) (s : State) : State :=
  if ch < 2 then modGauge (GaugeRun.sample ch (mv * ma * n) n) s else s

/-- GAUGE_SAMPLE. -/
def execGaugeSample (ch mv ma n : Nat) (s : State) : Host.Outcome State Fault Refusal := .next (gaugeSample ch mv ma n s)

/-- The input power of a second in 0.1 W, from the lower channel. -/
def secondPower (g : GaugeRun) : Nat := min (microJoule g.secA) (microJoule g.secB) / 100000

/-- A second of the interval ends with power `p`, shown as `shown` in P_NOW. -/
def GaugeRun.second (p shown : Nat) (g : GaugeRun) : GaugeRun :=
  { g with
    secA := 0
    secB := 0
    pNow := shown
    now := { g.now with
      pMax := max g.now.pMax p
      secs := g.now.secs + 1
      under := g.now.under + b2n (decide (p < 2400))
      high := g.now.high || decide (26400 < p) } }

/-- GAUGE_POWER_SECOND: a second ends. P_NOW takes its power; a power that the field cannot hold leaves a free value there. -/
def gaugePowerSecond (s : State) : State :=
  match s.gauge.run with
  | none => s
  | some g =>
    let p := secondPower g
    if p < 65536 then modGauge (GaugeRun.second p p) s
    else
      let (v, s) := freshWord s
      modGauge (GaugeRun.second p (v % 65536)) s

/-- GAUGE_POWER_SECOND. -/
def execGaugePowerSecond (s : State) : Host.Outcome State Fault Refusal := .next (gaugePowerSecond s)

/-! ## Work tallies (R612 to R615) -/

/-- TALLY_SEND: cluster `cl` sends its pending tallies. -/
def tallySend (cl : Nat) (s : State) : State := tallyFlush cl s

/-- TALLY_SEND. -/
def execTallySend (cl : Nat) (s : State) : Host.Outcome State Fault Refusal := .next (runningIn (32 + cl / 8) s (tallySend cl s))

/-- Add one count of a frame: the smaller of its copies, the difference to W_DISPUTED (R614). -/
def Interval.count (k x y : Nat) (i : Interval) : Interval :=
  { i with
    work := i.work.upd 0 k (· + min x y)
    disputed := i.disputed + (max x y - min x y)
    wDisagree := i.wDisagree || x != y }

/-- Add the counts of a frame, by the keys listed. -/
def Interval.counts (a b : Store Nat) : List Nat → Interval → Interval
  | [], i => i
  | k :: ks, i => Interval.counts a b ks (i.count k (a.get 0 k) (b.get 0 k))

/-- A frame's second copy with the counts that arrived otherwise. -/
def altered (b : Store Nat) : List (Nat × Nat) → Store Nat
  | [] => b
  | (k, v) :: r => (altered b r).put 0 k v

/-- Keys of either copy. -/
def tallyKeys (a b : Store Nat) : List Nat := a.map (·.1) ++ (b.map (·.1)).filter fun k => !(a.map (·.1)).contains k

/-- What the Gauge does with a tally frame. -/
def GaugeRun.tally (bad : Bool) (a b : Store Nat) (g : GaugeRun) : GaugeRun :=
  { g with now := if bad then { g.now with wDisagree := true } else g.now.counts a b (tallyKeys a b) }

/-- TALLY_FRAME: the oldest frame on the lines arrives. With `bad` both copies fail their own check; otherwise the counts listed in `alt`
arrived differently in the second copy. An unpowered Gauge measures nothing (R623). -/
def tallyFrame (bad : Bool) (alt : Flips) (s : State) : State :=
  match s.gauge.lines with
  | [] => s
  | f :: r => modGauge (GaugeRun.tally bad f.a (altered f.b alt)) { s with gauge := { s.gauge with lines := r } }

/-- TALLY_FRAME. -/
def execTallyFrame (bad : Bool) (alt : Flips) (s : State) : Host.Outcome State Fault Refusal :=
  .next (tallyFrame bad alt s)

/-! ## Records (R618 to R621, R625) -/

/-- FLAGS of the present interval (R619). -/
def gaugeFlags (s : State) (g : GaugeRun) (short : Bool) : Nat :=
  b2n g.first + 2 * b2n g.resumed + 4 * b2n (energyDisagree g.now) + 8 * b2n g.now.wDisagree + 16 * b2n g.now.high
    + 32 * b2n (decide (g.now.secs < 10 * g.now.under)) + 64 * b2n short + 128 * b2n (powerUpSat s)

/-- BREAKS in the record of the present interval. -/
def breaksNow (g : GaugeRun) : Nat := g.breaks + b2n g.first

/-- The body of the record of the present interval, 768 bytes (R619). -/
def recordBody (s : State) (g : GaugeRun) (short : Bool) : List Byte :=
  let o := s.gauge.otp
  leBytes 4 0x4A475243 ++ leBytes 2 1 ++ leBytes 2 (gaugeFlags s g short) ++ leBytes 8 o.serial ++ leBytes 8 o.moduleSerial
    ++ leBytes 8 g.seq ++ leBytes 4 o.powerUp ++ leBytes 4 g.interval ++ leBytes 8 g.now.start ++ leBytes 8 (gaugeLife g)
    ++ leBytes 8 (energyLow g.now) ++ leBytes 8 (energyHigh g.now) ++ leBytes 8 (g.eTotal + energyLow g.now)
    ++ leBytes 4 g.now.pMax ++ leBytes 4 (breaksNow g) ++ leBytes 4 o.calVer ++ zeros 4
    ++ (if g.prev.isEmpty then zeros 48 else g.prev)
    ++ (List.range 64).flatMap (fun k => leBytes 8 (g.now.work.get 0 k)) ++ leBytes 8 g.now.disputed ++ zeros 104

/-- An interval closes into `body` and the next starts at the same moment. The energy below 1 µJ stays with the next interval. -/
def GaugeRun.close (body : List Byte) (g : GaugeRun) : GaugeRun :=
  { g with
    signing := g.signing ++ [body]
    seq := g.seq + 1
    prev := sha384 body
    eTotal := g.eTotal + energyLow g.now
    breaks := breaksNow g
    interval := g.next
    now := { start := gaugeLife g, a := g.now.a % 50000, b := g.now.b % 50000 }
    wait := false
    first := false
    resumed := false }

/-- The present interval has lasted INTERVAL_S. -/
def intervalOver (g : GaugeRun) : Bool := decide (1000 * g.interval ≤ gaugeLife g - g.now.start)

/-- The present interval ends and its record begins signing. -/
def closeInterval (short : Bool) (g : GaugeRun) (s : State) : State := modGauge (GaugeRun.close (recordBody s g short)) s

/-- INTERVAL_END: the interval ends INTERVAL_S seconds after its start. -/
def intervalEnd (s : State) : State :=
  match s.gauge.run with
  | none => s
  | some g => if intervalOver g then closeInterval false g s else s

/-- INTERVAL_END. -/
def execIntervalEnd (s : State) : Host.Outcome State Fault Refusal := .next (intervalEnd s)

/-- A signed record enters the four slots. A record of which bytes have been read stays the selected one. -/
def GaugeRun.keep (rd : List Byte) (g : GaugeRun) : GaugeRun :=
  { g with
    signing := g.signing.tail
    records := (rd :: g.records).take 4
    slot := if g.off = 0 then g.slot else g.slot + 1 }

/-- GAUGE_RECORD_SIGNED: the oldest body that is being signed is complete (R620, R621). -/
def gaugeRecordSigned (s : State) : State :=
  match s.gauge.run with
  | none => s
  | some g =>
    match g.signing with
    | [] => s
    | body :: _ => nextFree (modGauge (GaugeRun.keep (body ++ signBoth s.gauge.otp.keySecret body s.freeCtr)) s)

/-- GAUGE_RECORD_SIGNED. -/
def execGaugeRecordSigned (s : State) : Host.Outcome State Fault Refusal := .next (gaugeRecordSigned s)

/-! ## Supply (R617, R623) -/

/-- GAUGE_POWER_UP: the Gauge programs the next POWER_UP bit and starts an interval. -/
def gaugePowerUp (s : State) : State :=
  match s.gauge.run with
  | some _ => s
  | none => { s with gauge := { s.gauge with
      otp := { s.gauge.otp with powerUp := min 4096 (s.gauge.otp.powerUp + 1) }, run := some {} } }

/-- GAUGE_POWER_UP. -/
def execGaugePowerUp (s : State) : Host.Outcome State Fault Refusal := .next (gaugePowerUp s)

/-- GAUGE_SUPPLY_LOSS: what the Gauge holds on its supply is lost. -/
def gaugeSupplyLoss (s : State) : State := { s with gauge := { s.gauge with run := none } }

/-- GAUGE_SUPPLY_LOSS. -/
def execGaugeSupplyLoss (s : State) : Host.Outcome State Fault Refusal := .next (gaugeSupplyLoss s)

/-! ## Two-wire port (R622, R624)

A command that is answered with a NACK changes nothing and returns nothing. -/

/-- A read command of the port. -/
def gaugeRead (f : GaugeRun → List Byte) (s : State) : State :=
  match s.gauge.run with
  | none => s
  | some g => emit (.gauge (f g)) s

/-- STATUS: STATE, FLAGS of the current interval, SEQ of the newest record and POWER_UP. -/
def status (s : State) : State :=
  gaugeRead (fun g => leBytes 2 (gaugeState g) ++ leBytes 2 (gaugeFlags s g false) ++ leBytes 8 (leVal (((newestRecord g).drop 24).take 8))
    ++ leBytes 4 s.gauge.otp.powerUp) s

/-- STATUS. -/
def execStatus (s : State) : Host.Outcome State Fault Refusal := .next (status s)

/-- INTERVAL_W: INTERVAL_S of the next interval, 10 to 3,600. -/
def intervalW (v : Nat) (s : State) : State :=
  if 10 ≤ v ∧ v ≤ 3600 then modGauge (fun g => { g with next := v }) s else s

/-- INTERVAL_W. -/
def execIntervalW (v : Nat) (s : State) : Host.Outcome State Fault Refusal := .next (intervalW v s)

/-- INTERVAL_R: INTERVAL_S in force. -/
def intervalR (s : State) : State := gaugeRead (fun g => leBytes 2 g.interval) s

/-- INTERVAL_R. -/
def execIntervalR (s : State) : Host.Outcome State Fault Refusal := .next (intervalR s)

/-- REC_SELECT: slot 0 to 3, 0 the newest. -/
def recSelect (n : Nat) (s : State) : State := if n < 4 then modGauge (fun g => { g with slot := n, off := 0 }) s else s

/-- REC_SELECT. -/
def execRecSelect (n : Nat) (s : State) : Host.Outcome State Fault Refusal := .next (recSelect n s)

/-- REC_READ: the next 192 bytes of the selected record; a NACK past its end or where there is none. -/
def recRead (s : State) : State :=
  match s.gauge.run with
  | none => s
  | some g =>
    match g.records[g.slot]? with
    | none => s
    | some rd =>
      if g.off < 36864 then
        emit (.gauge ((rd.drop g.off).take 192)) (modGauge (fun g => { g with off := g.off + 192 }) s)
      else s

/-- REC_READ. -/
def execRecRead (s : State) : Host.Outcome State Fault Refusal := .next (recRead s)

/-- RESUME_LOAD: the next 192 bytes of a record to resume from. -/
def resumeLoad (bs : List Byte) (s : State) : State :=
  if bs.length = 192 then
    modGauge (fun g => if g.load.length < 36864 then { g with load := g.load ++ bs } else g) s
  else s

/-- RESUME_LOAD. -/
def execResumeLoad (bs : List Byte) (s : State) : Host.Outcome State Fault Refusal := .next (resumeLoad bs s)

/-- STATUS_RESUME that a RESUME_GO leaves (R624, R627). -/
def resumeResult (s : State) (g : GaugeRun) : Nat :=
  let o := s.gauge.otp
  let rd := g.load
  let body := rd.take 768
  if !g.wait then 5
  else if rd.length < 36864 then 6
  else if Config.rsaVerify (rsaPub o.keySecret) body ((rd.drop 768).take 384) ≠ sigPass
      ∨ Config.slhVerify (slhPub o.keySecret) body ((rd.drop 1152).take 35664) ≠ sigPass then 2
  else if pay rd 8 8 ≠ o.serial ∨ pay rd 16 8 ≠ o.moduleSerial then 3
  else if o.powerUp ≤ pay rd 32 4 then 4
  else 1

/-- The chain goes on from the loaded record. -/
def GaugeRun.chain (rd : List Byte) (g : GaugeRun) : GaugeRun :=
  { g with
    seq := pay rd 24 8 + 1
    prev := sha384 (rd.take 768)
    eTotal := pay rd 72 8
    breaks := pay rd 84 4
    interval := pay rd 36 4
    next := pay rd 36 4
    base := pay rd 48 8
    now := { g.now with start := pay rd 48 8 }
    resumed := true }

/-- RESUME_GO with key byte `key`. -/
def resumeGo (key : Nat) (s : State) : State :=
  match s.gauge.run with
  | none => s
  | some g =>
    if key ≠ 0xA5 then s
    else
      let res := resumeResult s g
      modGauge (fun g => { (if res = 1 then g.chain g.load else g) with result := res, load := [] }) s

/-- RESUME_GO. -/
def execResumeGo (key : Nat) (s : State) : Host.Outcome State Fault Refusal := .next (resumeGo key s)

/-- CLOSE_NOW with key byte `key`; at the interval's own end SHORT is clear (R618, R627). -/
def closeNow (key : Nat) (s : State) : State :=
  match s.gauge.run with
  | none => s
  | some g => if key = 0xA5 then closeInterval (!intervalOver g) g s else s

/-- CLOSE_NOW. -/
def execCloseNow (key : Nat) (s : State) : Host.Outcome State Fault Refusal := .next (closeNow key s)

/-- The Gauge's identity, padded to 576 bytes. -/
def gaugeIdent (o : GaugeOtp) : List Byte :=
  leBytes 8 o.serial ++ leBytes 8 o.moduleSerial ++ rsaPub o.keySecret ++ slhPub o.keySecret ++ zeros 124

/-- IDENT_READ: the next 192 bytes of the identity; after its end it begins again. -/
def identRead (s : State) : State :=
  match s.gauge.run with
  | none => s
  | some g => emit (.gauge (((gaugeIdent s.gauge.otp).drop g.identOff).take 192))
      (modGauge (fun g => { g with identOff := (g.identOff + 192) % 576 }) s)

/-- IDENT_READ. -/
def execIdentRead (s : State) : Host.Outcome State Fault Refusal := .next (identRead s)

/-- STATUS_RESUME: the outcome of the last resume. -/
def statusResume (s : State) : State := gaugeRead (fun g => leBytes 1 g.result) s

/-- STATUS_RESUME. -/
def execStatusResume (s : State) : Host.Outcome State Fault Refusal := .next (statusResume s)

end Sys2Proof.Machine
end

