-- ==== Sys2Proof/Machine/Debug.lean ====
section
/-! DEFINITION. The debug unlock: challenge, token check and relock (R638 to R645). -/

namespace Sys2Proof.Machine

/-- Write words 0 to `n - 1` of CHAL with fresh random bits. -/
def freshChal : Nat → State → State
  | 0, s => s
  | n + 1, s =>
    let s := freshChal n s
    let (v, s) := freshWord s
    setFk DEBUG_CHAL 0 n v s

/-- A write of DEBUG.CTRL with CHALLENGE set: 32 fresh random bytes; an earlier challenge is void. -/
def challenge (r : Requester) (a v : Nat) (s : State) : State :=
  guarded r a (fun t _ o s =>
    if t = 19 ∧ o = 0x10 ∧ bit v 0 then freshChal 8 { s with dbg := { s.dbg with chal := true } } else s) s

/-- CHALLENGE. -/
def execChallenge (r : Requester) (a v : Nat) (s : State) : Host.Outcome State Fault Refusal := .next (challenge r a v s)

/-- The bytes of CHAL. -/
def chalBytes (s : State) : List Byte := (List.range 8).flatMap fun w => leBytes 4 (getFk s DEBUG_CHAL 0 w)

/-- A write of DEBUG.CTRL with UNLOCK_GO set: the challenge is consumed and the check starts; ignored while BUSY is set. -/
def unlockGo (r : Requester) (a v : Nat) (s : State) : State :=
  guarded r a (fun t _ o s =>
    if t = 19 ∧ o = 0x10 ∧ bit v 1 ∧ !isF s DEBUG_STAT_BUSY 0 then
      setF DEBUG_STAT_BUSY 0 1
        { s with dbg := { chal := false, check := if s.dbg.chal then some (chalBytes s) else none } }
    else s) s

/-- UNLOCK_GO. -/
def execUnlockGo (r : Requester) (a v : Nat) (s : State) : Host.Outcome State Fault Refusal := .next (unlockGo r a v s)

/-- Bytes 0 to 15 of a token for this module. -/
def tokenHead (s : State) : List Byte := leBytes 4 0x4B474244 ++ zeros 4 ++ leBytes 8 (serial s)

/-- The RESULT of the checks of a token that has been read, from 0x5 on (R639, R640). -/
def tokenResult (s : State) (chal tok : List Byte) : Nat :=
  let msg := tok.take 48
  if msg ≠ tokenHead s ++ chal then 5
  else if sha384 ((tok.drop 48).take 436) ≠ otpValue s 5 then 6
  else if Config.rsaVerify ((tok.drop 48).take 388) msg ((tok.drop 512).take 384) ≠ sigPass then 7
  else if Config.slhVerify ((tok.drop 436).take 48) msg ((tok.drop 896).take 35664) ≠ sigPass then 8
  else 1

/-- The check of the token (R640). -/
def tokenCheck (s : State) : Nat × State :=
  if bit (dbgPolicy s) 0 then (2, s)
  else if !otpHasValid s 5 then (3, s)
  else match s.dbg.check with
    | none => (4, s)
    | some chal =>
      match engRead 0 5 (256 * getF s DEBUG_TOKEN 0) 36560 s with
      | (.data tok, s) => (tokenResult s chal tok, s)
      | (_, s) => (9, s)

/-- The check ends with a result. -/
def unlockEnd (res : Nat) (s : State) : State :=
  let s := setF DEBUG_STAT_RESULT 0 res (setF DEBUG_STAT_BUSY 0 0 { s with dbg := { s.dbg with check := none } })
  if res = 1 then
    setEvt DEBUG_EV_UNLOCK 0 (incr DEBUG_UNLOCK_CNT 0 (setF DEBUG_STAT_EVER 0 1 (setF DEBUG_STAT_UNLOCKED 0 1 s)))
  else setEvt DEBUG_EV_UNLOCK_FAIL 0 (incr DEBUG_FAIL_CNT 0 s)

/-- UNLOCK_CHECK_DONE: the check under way ends; it does not end while pair 0 is stopped. -/
def unlockCheckDone (s : State) : State :=
  if isF s DEBUG_STAT_BUSY 0 && !s.brk.stopped.contains 0 then
    let (res, s) := tokenCheck s
    unlockEnd res s
  else s

/-- UNLOCK_CHECK_DONE. -/
def execUnlockCheckDone (s : State) : Host.Outcome State Fault Refusal := .next (pairsUp s (unlockCheckDone s))

/-- A write of DEBUG.CTRL with RELOCK set. -/
def relock (r : Requester) (a v : Nat) (s : State) : State :=
  guarded r a (fun t _ o s => if t = 19 ∧ o = 0x10 ∧ bit v 2 then setF DEBUG_STAT_UNLOCKED 0 0 s else s) s

/-- RELOCK. -/
def execRelock (r : Requester) (a v : Nat) (s : State) : Host.Outcome State Fault Refusal := .next (relock r a v s)

end Sys2Proof.Machine
end

