-- ==== Sys2Proof/Machine/Ring.lean ====
section
/-! DEFINITION. The journal ring: appending, PAD records, the wait for room, the drain into the host ring, and reading the replay
ring (R493 to R502, R507). -/

namespace Sys2Proof.Machine

/-! ## Frames of the journal (R493) -/

/-- Length in whole 16-byte units. -/
def pad16 (n : Nat) : Nat := (n + 15) / 16 * 16

/-- A journal record as it stands in a ring. -/
def jrnBytes (type src seq : Nat) (payload : List Byte) : List Byte :=
  let head := leBytes 2 type ++ leBytes 2 payload.length ++ leBytes 4 seq ++ leBytes 2 src ++ zeros 2
  let body := payload ++ zeros (pad16 payload.length - payload.length)
  head ++ leBytes 4 (crc32c (head ++ body)) ++ body

/-- Size of a context's journal ring. -/
def jrnSize (s : State) (c : Nat) : Nat := 2 ^ getFk s HOSTIF_JRN_CFG_LOG2_SIZE 0 c

/-- Base of a context's journal ring. -/
def jrnBase (s : State) (c : Nat) : Nat := getFk s HOSTIF_JRN_BASE 0 c * 4096

/-- Bytes before the end of the ring at the write position. -/
def jrnRest (s : State) (c : Nat) : Nat := jrnSize s c - getFk s HOSTIF_JRN_WR 0 c % jrnSize s c

/-- Bytes that a record of `n` payload bytes takes, a PAD record before it included. -/
def jrnNeed (s : State) (c n : Nat) : Nat :=
  if 16 + pad16 n ≤ jrnRest s c then 16 + pad16 n else jrnRest s c + 16 + pad16 n

/-- The ring has room: a ring of 2^32 bytes never holds 2^32 bytes at once (R507). -/
def jrnRoom (s : State) (c n : Nat) : Bool :=
  let used := (getFk s HOSTIF_JRN_WR 0 c + two32 - getFk s HOSTIF_JRN_DR 0 c) % two32
  decide (used + jrnNeed s c n ≤ (if jrnSize s c = two32 then two32 - 1 else jrnSize s c))

/-- The first byte that a record would be written to and that the span map misses (R498). -/
def jrnMiss (s : State) (c n : Nat) : Option Lookup :=
  let a := jrnBase s c + getFk s HOSTIF_JRN_WR 0 c % jrnSize s c
  let m := 16 + pad16 n
  if m ≤ jrnRest s c then firstMiss s 0 a m
  else match firstMiss s 0 a (jrnRest s c) with
    | some l => some l
    | none => firstMiss s 0 (jrnBase s c) m

/-- Write one record at the write position; SEQ is assigned here (R495). -/
def jrnPut (c type src : Nat) (payload : List Byte) (s : State) : State :=
  let wr := getFk s HOSTIF_JRN_WR 0 c
  let seq := getFk s HOSTIF_JRN_SEQ 0 c
  let bs := jrnBytes type src seq payload
  setFk HOSTIF_JRN_WR 0 c ((wr + bs.length) % two32)
    (setFk HOSTIF_JRN_SEQ 0 c ((seq + 1) % two32) (memStore 0 (jrnBase s c + wr % jrnSize s c) bs s))

/-- Append a record that has room; a PAD record first fills the end of the ring where the record would not fit (R493). -/
def jrnAppend (c : Nat) (r : JrnRec) (s : State) : State :=
  let s := if 16 + pad16 r.payload.length ≤ jrnRest s c then s else jrnPut c 0x7F srcHub (zeros (jrnRest s c - 16)) s
  jrnPut c r.type r.src r.payload s

/-- A record may be appended to a ring now. -/
def jrnReady (s : State) (c : Nat) (r : JrnRec) : Bool :=
  jrnRoom s c r.payload.length && (jrnMiss s c r.payload.length).isNone

/-- A writer waits for a ring: the hclk of waiting are counted, and a miss of the span map is recorded (R498). -/
def jrnWait (c hclk : Nat) (r : JrnRec) (s : State) : State :=
  let s := if jrnRoom s c r.payload.length then
      (match jrnMiss s c r.payload.length with
       | some l => noteMiss l s
       | none => s) else s
  setCtxEvt c ceJrnFull (modCtx c (fun x => { x with jwaitHclk := x.jwaitHclk + hclk }) s)

/-- Append to several rings. -/
def jrnAppends (r : JrnRec) : List Nat → State → State
  | [], s => s
  | c :: cs, s => jrnAppends r cs (jrnAppend c r s)

/-- Wait for those of several rings that are not ready. -/
def jrnWaits (hclk : Nat) (r : JrnRec) : List Nat → State → State
  | [], s => s
  | c :: cs, s => jrnWaits hclk r cs (if jrnReady s c r then s else jrnWait c hclk r s)

/-- The oldest module-wide record of a writer goes to every ring that receives it once all have room (R496). -/
def wideAppend (src hclk : Nat) (s : State) : State :=
  match takeFirst (fun e : JrnRec × List Nat => e.1.src == src) s.jwide with
  | none => s
  | some ((r, cs), rest) =>
    let cs := cs.filter (jrnOn s)
    if cs.all fun c => jrnReady s c r then jrnAppends r cs { s with jwide := rest } else jrnWaits hclk r cs s

/-- JOURNAL_APPEND: the hub appends the oldest record that writer `src` holds for the ring of context `c`, or for several rings
where `c` is 16; without room the writer goes on waiting, `hclk` longer (R493 to R498). -/
def journalAppend (c src hclk : Nat) (s : State) : State :=
  if c = 16 then wideAppend src hclk s
  else match takeFirst (fun r : JrnRec => r.src == src) (ctxOf s c).jwait with
    | none => s
    | some (r, rest) =>
      let gone := modCtx c (fun x => { x with jwait := rest }) s
      if !jrnOn s c then gone
      else if jrnReady s c r then jrnAppend c r gone
      else jrnWait c hclk r s

/-- JOURNAL_APPEND. -/
def execJournalAppend (c src hclk : Nat) (s : State) : Host.Outcome State Fault Refusal := .next (awake s (journalAppend c src hclk s))

/-! ## The drain (R499) -/

/-- Write bytes into the host ring of a context from drained count `d` on. -/
def hostRing (base size : Nat) (d : Nat) (bs : List Byte) (s : State) : State :=
  let k := size - d % size
  hostWrite base (bs.drop k) (hostWrite (base + d % size) (bs.take k) s)

/-- JOURNAL_DRAIN: the host DMA copies the next whole record of the ring into the host ring, while that has room beyond
JRN_HOST_TAIL, once its Sluice has granted the transfer (R342, R366). -/
def journalDrain (c : Nat) (s : State) : State :=
  let wr := getFk s HOSTIF_JRN_WR 0 c
  let dr := getFk s HOSTIF_JRN_DR 0 c
  let a := jrnBase s c + dr % jrnSize s c
  let size := 2 ^ getFk s HOSTIF_JRN_HOST_CFG_LOG2_SIZE 0 c
  let base := getFk s HOSTIF_JRN_HOST_LO 0 c + two32 * getFk s HOSTIF_JRN_HOST_HI 0 c
  if getFk s HOSTIF_JRN_CFG_DRAIN 0 c = 0 ∨ wr = dr ∨ !hubGranted s 537 (c + 16) 0 then s
  else match engRead 0 6 a 16 s with
    | (.data h, s) =>
      let n := 16 + pad16 (pay h 2 2)
      if size < (dr + two32 - getFk s HOSTIF_JRN_HOST_TAIL 0 c) % two32 + n then s
      else match engRead 0 6 a n s with
        | (.data bs, s) => setFk HOSTIF_JRN_DR 0 c ((dr + n) % two32) (hostRing base size dr bs (hubTake 537 (c + 16) 0 s))
        | (_, s) => s
    | (_, s) => s

/-- JOURNAL_DRAIN. -/
def execJournalDrain (c : Nat) (s : State) : Host.Outcome State Fault Refusal := .next (awake s (journalDrain c s))

/-! ## The replay ring (R501, R502) -/

/-- How the reading of the replay ring for a step ends. -/
inductive RplRes where
  | done
  /-- STEP_CLOSE of the step is not yet in the ring -/
  | missing
  /-- a record's CRC failed -/
  | bad
  /-- a read failed, with the status that names it -/
  | mem (st : Nat)
deriving DecidableEq, Repr

/-- The record types of R494 but PAD. -/
def rplType (t : Nat) : Bool :=
  decide (1 ≤ t ∧ t ≤ 5) || decide (0x10 ≤ t ∧ t ≤ 0x12) || decide (0x20 ≤ t ∧ t ≤ 0x22) || t == 0x30 || t == 0x31 ||
    t == 0x40 || t == 0x41 || t == 0x50 || t == 0x51

/-- STEP_CLOSE of step `n` has been read. -/
def rplHas (s : State) (c n : Nat) : Bool := (rplFind s c 2 fun p => pay p 0 4 == n).isSome

/-- A record of the replay ring has been read whole. -/
def rplTake (c : Nat) (bs : List Byte) (s : State) : State :=
  let t := pay bs 0 2
  let p := (bs.drop 16).take (pay bs 2 2)
  let s := setFk HOSTIF_RPL_RD 0 c ((getFk s HOSTIF_RPL_RD 0 c + bs.length) % two32) s
  let s := if rplType t then modCtx c (fun x => { x with rpl := x.rpl ++ [⟨t, pay bs 8 2, p⟩] }) s else s
  if t = 2 then setFk HOSTIF_RPL_STEP 0 c (pay p 0 4) s else s

/-- The CRC of a record fits (R493). -/
def rplCrcOk (bs : List Byte) : Bool := pay bs 12 4 == crc32c (bs.take 12 ++ bs.drop 16)

/-- Read records up to and including STEP_CLOSE `n`; at most `f` of them. -/
def rplRead (c n : Nat) : Nat → State → RplRes × State
  | 0, s => (.missing, s)
  | f + 1, s =>
    if rplHas s c n then (.done, s)
    else
      let rd := getFk s HOSTIF_RPL_RD 0 c
      let left := (getFk s HOSTIF_RPL_WR 0 c + two32 - rd) % two32
      let a := getFk s HOSTIF_RPL_BASE 0 c * 4096 + rd % 2 ^ getFk s HOSTIF_RPL_CFG_LOG2_SIZE 0 c
      if left < 16 then (.missing, s)
      else match engRead 0 6 a 16 s with
        | (.fault _, s) => (.mem 0x13, s)
        | (.uncorr, s) => (.mem 0x12, s)
        | (.data h, s) =>
          let m := 16 + pad16 (pay h 2 2)
          if left < m then (.missing, s)
          else match engRead 0 6 a m s with
            | (.fault _, s) => (.mem 0x13, s)
            | (.uncorr, s) => (.mem 0x12, s)
            | (.data bs, s) => if rplCrcOk bs then rplRead c n f (rplTake c bs s) else (.bad, s)

/-- Read the replay ring of a context for step `n`. -/
def replayFor (c n : Nat) (s : State) : RplRes × State :=
  rplRead c n ((getFk s HOSTIF_RPL_WR 0 c + two32 - getFk s HOSTIF_RPL_RD 0 c) % two32 / 16 + 1) s

end Sys2Proof.Machine
end

