-- ==== Sys2Proof/Machine/Steps.lean ====
section
/-! DEFINITION. Opening and closing steps: the checks of the step record and tables, replay, the records of the hub, latching, held
roots, lists and collectives, and what a close ends (R48 to R52, R197, R203, R249, R428 to R431, R497, R500 to R502). -/

namespace Sys2Proof.Machine

/-! ## The step record (R48, R49) -/

/-- An FP32 word that is not zero, or positive and finite. -/
def lrBad (w : Nat) : Bool := bits w 23 8 == 255 || (bit w 31 && bits w 0 31 != 0)

/-- A step record that breaks a check of R49 by itself. -/
def stepRecBad (r : List Byte) : Bool :=
  let w := pay r 4 4
  let d := pay r 8 4
  decide (srLossExp r < -32) || decide (32 < srLossExp r) || srMbCount r == 0 || bits w 21 1 != 0 || bits w 22 10 != 0 ||
    bits d 24 8 != 0 || lrBad (srLr r) || (bits w 20 2 == 0 && decide (srMbCount r < bits d 0 12 + bits d 12 12))

/-- STEP is not the last opened step number plus one (R49). -/
def stepNumBad (s : State) (c : Nat) (r : List Byte) : Bool := (ctxOf s c).last.any fun l => pay r 0 4 != l + 1

/-- A step may open: at most one step is open and it is the last opened (R50), and no restore is in progress (R486). -/
def mayOpen (s : State) (c : Nat) : Bool :=
  (ctxOf s c).restore.isNone &&
    match (ctxOf s c).steps with
    | [] => true
    | [st] => (ctxOf s c).last == some st.step
    | _ => false

/-! ## What opening applies -/

/-- Clear an entry of COLL.DEGRADE: 0 the own board, with STANDIN; 1 the previous and 2 the next stage (R431). -/
def degClearOne (k : Nat) (s : State) : State :=
  let s := match k with
    | 0 => setF COLL_DEGRADE_ACTIVE 0 0 (setF COLL_DEGRADE_LOST_POS 0 0 (setF COLL_DEGRADE_STANDIN 0 0 s))
    | 1 => setF COLL_DEGRADE_PREV_ACTIVE 0 0 (setF COLL_DEGRADE_PREV_POS 0 0 s)
    | _ => setF COLL_DEGRADE_NEXT_ACTIVE 0 0 (setF COLL_DEGRADE_NEXT_POS 0 0 s)
  if k ≠ 0 ∧ !twinLost s then setF COLL_DEGRADE_SERVING 0 0 s else s

/-- Clear several entries; the commands that asked for it complete (R525). -/
def degClears : List (Nat × Nat) → State → State
  | [], s => s
  | (k, h) :: r, s => degClears r (report h 0 0 0 (degClearOne k s))

/-- Set STANDIN and SERVING where they are due (R428, R429). -/
def degSets : List Nat → State → State
  | [], s => s
  | k :: r, s => degSets r (setF (if k = 0 then COLL_DEGRADE_STANDIN else COLL_DEGRADE_SERVING) 0 1 s)

/-- A step open applies what DEGRADE commands have left for it. -/
def degApply (s : State) : State :=
  degSets s.degSet (degClears s.degClear { s with degSet := [], degClear := [] })

/-- The position that an entry of COLL.DEGRADE holds. -/
def lostAt (s : State) (act pos : Fld) : Option Nat := if isF s act 0 then some (getF s pos 0) else none

/-- Set the accumulators of blocks that no older open step still uses to +0 (R61). -/
def armFirst (c n : Nat) (older : List Step) : List Blk → State → State
  | [], s => s
  | b :: r, s =>
    armFirst c n older r
      (if older.any fun st => st.blks.any fun x => x.gbi == b.gbi && !blkDone x then s else armBlk c n b s)

/-- The ready jobs of a context, with their regions, that meet a test. -/
def heldJobs (s : State) (p : Nat → Job → Bool) : List (Nat × Job) :=
  s.seqs.flatMap fun e => (e.2.held.filter (p e.1)).map fun j => (e.1, j)

/-- Publish the jobs that were held for frozen blocks and may now be published (R249). -/
def publishHeld : List (Nat × Job) → State → State
  | [], s => s
  | (rg, j) :: r, s => publishHeld r (if mayPublish s rg j then publishJob rg j s else s)

/-- Reject the ready jobs that the replayed journal rejects (R253, R254). -/
def rejectHeld : List (Nat × Job) → State → State
  | [], s => s
  | (rg, j) :: r, s =>
    rejectHeld r (match bookedReject s j with
      | some p => rejectJob rg j (pay p 13 1 % 16) (pay p 13 1 / 16 % 2) (pay p 14 1) (rootDiv j.cl s)
      | none => s)

/-- Raise several records of the hub. -/
def jrnHub (c type : Nat) : List (List Byte) → State → State
  | [], s => s
  | p :: r, s => jrnHub c type r (jrnCtx c type srcHub p s)

/-- What the module has read before it opens a step. -/
structure Opening where
  raw : List Byte
  tables : Tables
  /-- the list directory -/
  dir : List Byte
  /-- payloads of the SAMPLES records -/
  samples : List (List Byte)

/-- JOB_SEED is due at the first step opened after the seed is set (R500). -/
def jobSeedRec (c n : Nat) (s : State) : State :=
  let x := ctxOf s c
  if x.seedNew then
    jrnCtx c 3 srcHub (leBytes 8 (x.seed.getD 0) ++ leBytes 4 n ++ zeros 4) (modCtx c (fun x => { x with seedNew := false }) s)
  else s

/-- The step as it opens, with everything that R197, R225 and R428 latch. -/
def newStep (h : Nat) (s : State) (o : Opening) : Step :=
  { step := pay o.raw 0 4, handle := h, raw := o.raw,
    ks := (List.range 32).map fun rg => getFk s ROOTSEQ_REFRESH_K rg (hCtx h),
    lost := lostAt s COLL_DEGRADE_ACTIVE COLL_DEGRADE_LOST_POS,
    lostPrev := lostAt s COLL_DEGRADE_PREV_ACTIVE COLL_DEGRADE_PREV_POS,
    lostNext := lostAt s COLL_DEGRADE_NEXT_ACTIVE COLL_DEGRADE_NEXT_POS,
    blks := latchBlocks o.tables }

/-- The step stands in its context from now on. -/
def addStep (c : Nat) (st : Step) (s : State) : State :=
  let s := modCtx c (fun x => { x with
    steps := x.steps ++ [st], first := some (x.first.getD st.step), last := some st.step, tabs := st.blks
    ckpt := x.ckpt.map fun k => if k.cut = st.step then { k with left := some (st.blks.map (·.gbi)) } else k }) s
  if c = culCtx s then { s with cul := { s.cul with owned := st.blks } } else s

/-- A step opens. -/
def stepBegin (h : Nat) (e : List Byte) (o : Opening) (s : State) : State :=
  let c := hCtx h
  let n := pay o.raw 0 4
  let s := degApply s
  let older := (ctxOf s c).steps
  let held := heldJobs s fun _ j => j.ctx == c && frozenNow s c j.gbi
  let s := jrnHub c 4 o.samples (jrnCtx c 1 srcHub o.raw (jobSeedRec c n s))
  let st := newStep h s o
  let s := armFirst c n older st.blks (addStep c st s)
  let s := publishHeld held (rejectHeld (heldJobs s fun _ j => j.ctx == c) s)
  let s := matchEarly c (openChain c n (argOf e 3) s)
  startLists c h (dirEntries 256 0 o.dir) s

/-! ## The attempt (R49, R50, R203, R440, R502, R526) -/

/-- The sample list of a step: the payload of each microbatch's SAMPLES record. A record frames at most 8,189 identifiers. -/
def readSamples (n : Nat) : Nat → Nat → Nat → State → Except Nat (List (List Byte)) × State
  | 0, _, _, s => (.ok [], s)
  | k + 1, mb, a, s =>
    match engRead 0 5 a 8 s with
    | (.fault _, s) => (.error 0x13, s)
    | (.uncorr, s) => (.error 0x12, s)
    | (.data h, s) =>
      match engRead 0 5 (a + 8) (8 * pay h 0 4) s with
      | (.fault _, s) => (.error 0x13, s)
      | (.uncorr, s) => (.error 0x12, s)
      | (.data ids, s) =>
        let m := min 8189 (pay h 0 4)
        match readSamples n k (mb + 1) (a + 8 + 8 * pay h 0 4) s with
        | (.ok r, s) => (.ok ((leBytes 4 n ++ leBytes 2 mb ++ leBytes 2 m ++ zeros 8 ++ ids.take (8 * m)) :: r), s)
        | (.error st, s) => (.error st, s)

/-- The list directory and the sample list are read, and the step opens. -/
def stepFetch (h : Nat) (e raw : List Byte) (ts : Tables) (s : State) : State :=
  cmdRead h 5 (argOf e 2) 2048 (fun dir s =>
    match (if argOf e 4 = 0 then (.ok [], s) else readSamples (pay raw 0 4) (srMbCount raw) 0 (argOf e 4) s) with
    | (.error st, s) => report h st 0 0 s
    | (.ok sm, s) => stepBegin h e { raw := raw, tables := ts, dir := dir, samples := sm } s) s

/-- The command waits for its turn (R528). -/
def stepWaits (h : Nat) (s : State) : State := setTurn h true (unrunCmd h s)

/-- The replayed journal has the step's STEP_OPEN and no other JOB_SEED (R502). -/
def replayAgrees (s : State) (c : Nat) (raw : List Byte) : Bool :=
  let n := pay raw 0 4
  (rplFind s c 1 fun p => pay p 0 4 == n) == some raw &&
    (rplAll s c 3 fun p => pay p 8 4 == n).all fun p => some (pay p 0 8) == (ctxOf s c).seed

/-- In replay mode the ring is read up to STEP_CLOSE of the step first; until that is present the opening waits (R502). -/
def stepReplay (h : Nat) (e raw : List Byte) (ts : Tables) (s : State) : State :=
  let c := hCtx h
  if !replayOn s c then stepFetch h e raw ts s
  else match replayFor c (pay raw 0 4) s with
    | (.bad, s) => report h 0x0E 0 0 s
    | (.mem st, s) => report h st 0 0 s
    | (.missing, s) => stepWaits h (setCtxEvt c ceReplayWait s)
    | (.done, s) => if replayAgrees s c raw then stepFetch h e raw ts s else report h 0x0E 0 0 s

/-- The tables have been judged. -/
def stepJudge (h : Nat) (e raw : List Byte) (ts : Tables) (ok : Bool) (s : State) : State :=
  if stepRecBad raw || stepNumBad s (hCtx h) raw then report h 6 0 0 s
  else if !ok then report h 7 0 0 s
  else if (ctxOf s (hCtx h)).seed.isNone then report h 0x14 0 0 s
  else stepReplay h e raw ts s

/-- The block tables of the directory and, for the mirrored context, the twin table are read and checked. -/
def stepTables (h : Nat) (e raw dir : List Byte) (s : State) : State :=
  let c := hCtx h
  match readTables 0 (chunks 16 256 dir) s with
  | (.error u, s) => report h (if u then 0x12 else 0x13) 0 0 s
  | (.ok ts, s) =>
    let (ok, s) := checkTables (ownPos s) ts ts s
    match (if c = culCtx s then checkTwin s else (.ok true, s)) with
    | (.error u, s) => report h (if u then 0x12 else 0x13) 0 0 s
    | (.ok tok, s) => stepJudge h e raw ts (ok && tok) s

/-- The module reads a step record and opens the step or refuses it. -/
def stepAttempt (h : Nat) (e : List Byte) (s : State) : State :=
  cmdRead h 5 (argOf e 0) 16 (fun raw s => cmdRead h 5 (argOf e 1) 4096 (stepTables h e raw) s) s

/-- The command is a STEP_OPEN that has started and that no row has taken up. -/
def stepPending (s : State) (h : Nat) : Bool :=
  let sl := slotOf s (hCtx h) (hSlot h)
  handleLive s h && sl.started && !sl.running && opOf sl.entry == 0x11

/-- The command waits for its turn. -/
def stepWaiting (s : State) (h : Nat) : Bool := stepPending s h && (slotOf s (hCtx h) (hSlot h)).waitTurn

/-- The record may be read now, and its step number would pass 0xFFFF_FFFF (R9). -/
def stepWraps (s : State) (h : Nat) : Bool :=
  isAwake s && mayOpen s (hCtx h) && (ctxOf s (hCtx h)).last == some 0xFFFFFFFF &&
    match memRead s 0 (argOf (entryOf s h) 0) 16 with
    | .data raw => pay raw 0 4 == 0
    | _ => false

/-- STEP_OPEN: the step record is read and judged, or waits unread while two steps are open (R49, R50). -/
def stepOpen (h : Nat) (s : State) : State :=
  if stepWaiting s h then s
  else runCmd h 0x11 (fun e s => if mayOpen s (hCtx h) then stepAttempt h e s else stepWaits h s) s

/-- STEP_OPEN. -/
def execStepOpen (h : Nat) (s : State) : Host.Outcome State Fault Refusal :=
  if stepPending s h && !stepWaiting s h && stepWraps s h then .fault .stepNumberWrap else .next (awake s (stepOpen h s))

/-- A waiting opening is tried. -/
def stepRetry (h : Nat) (s : State) : State :=
  if stepWaiting s h && mayOpen s (hCtx h) then runCmd h 0x11 (stepAttempt h) (setTurn h false s) else s

/-- STEP_OPEN_DEFERRED: a waiting record is read and opened once a step has closed (R50). -/
def execStepOpenDeferred (h : Nat) (s : State) : Host.Outcome State Fault Refusal :=
  if stepWaiting s h && stepWraps s h then .fault .stepNumberWrap else .next (awake s (stepRetry h s))

/-- REPLAY_READ: a waiting opening in replay mode reads the replay ring again (R502). -/
def replayRead (h : Nat) (s : State) : State := if replayOn s (hCtx h) then stepRetry h s else s

/-- REPLAY_READ. -/
def execReplayRead (h : Nat) (s : State) : Host.Outcome State Fault Refusal :=
  if replayOn s (hCtx h) && stepWaiting s h && stepWraps s h then .fault .stepNumberWrap
  else .next (awake s (replayRead h s))

/-! ## Closing (R51, R418, R454, R470, R497) -/

/-- The types of forcing records (R494). -/
def forcing (t : Nat) : Bool :=
  t == 0x11 || t == 0x12 || t == 0x20 || t == 0x21 || t == 0x22 || t == 0x30 || t == 0x31

/-- A block lets its step close: frozen and discarded, or committed with its factor stamp written, not suspect, and with its
CLOSE_F acknowledged while it is mirrored. -/
def blkCloses (s : State) (c : Nat) (b : Blk) : Bool :=
  blkDone b && (lFrozen b.lat || (!isSuspect s b.gbi && (b.acked || !mirrored s c b)))

/-- A step may close: R51 holds, every forcing record of the step has been appended (R497), and no record of the hub, the writer of
STEP_CLOSE, waits for room (R498). -/
def stepCloses (s : State) (c : Nat) (st : Step) : Bool :=
  st.blks.all (blkCloses s c) && !openHeld s c st.step &&
    !((ctxOf s c).jwait.any fun r => r.src == srcHub || (forcing r.type && pay r.payload 0 4 == st.step)) &&
    !((ctxOf s c).ckpt.any fun k => decide (k.cut < st.step) && k.left.any fun l => !l.isEmpty)

/-- Carried transfers that were not added are dropped (R418). -/
def dropCarries (c : Nat) : List (Recv × Xfer) → State → State
  | [], s => s
  | (r, x) :: es, s => dropCarries c es (carryDrop c r x s)

/-- What a context forgets of collectives as step `n` closes. -/
def collClose (c n : Nat) (s : State) : State :=
  let s := if n = 0 then s else dropCarries c ((carriedOf s c (n - 1)).filter fun e => !e.2.added) s
  modColl c (fun x => { x with
    recvs := x.recvs.filter fun r => decide (n ≤ r.step) || !r.fin
    sends := x.sends.filter fun y => decide (n ≤ y.step) || !y.fin
    rels := x.rels.filter fun e => decide (n ≤ e.1 + 1) }) s

/-- The collective engine still has descriptors of step `n` to run, or turns of one to send. -/
def collLeft (x : Coll) (n : Nat) : Bool :=
  x.list.any (fun e => e.1 == n) || x.posts.any (fun e => e.1 == n) || x.sends.any fun y => y.step == n && !y.left.isEmpty

/-- A step closes. -/
def closeStep (c : Nat) (st : Step) (s : State) : State :=
  let n := st.step
  let s := jrnCtx c 2 srcHub (leBytes 4 n ++ zeros 12) s
  let s := collClose c n (ckptAfterCut c n (ckptAtCut c n s))
  let s := modCtx c (fun x => { x with
    steps := x.steps.filter fun y => y.step != n
    past := (x.past ++ [st]).filter fun y => collLeft x.coll y.step }) { s with lastClosed := n }
  auditStart c n st.blks (report st.handle 0 n 0 s)

/-- STEP_CLOSE: step `n` of context `c` closes once its conditions hold. -/
def stepClose (c n : Nat) (s : State) : State :=
  match stepOf s c n with
  | some st => if stepCloses s c st then closeStep c st s else s
  | none => s

/-- STEP_CLOSE. -/
def execStepClose (c n : Nat) (s : State) : Host.Outcome State Fault Refusal := .next (awake s (stepClose c n s))

end Sys2Proof.Machine
end

