-- ==== Sys2Proof/Machine/Degrade.lean ====
section
/-! DEFINITION. Declared module losses: recording and clearing, what a loss on the own board closes at once, and at the twin of the lost
module the resolution of its copies and the commit of what was left open (R426 to R431, R489 to R491). -/

namespace Sys2Proof.Machine

/-! ## A loss on the own board (R427) -/

/-- Every RECV of a context. -/
def lossRecvs (c k : Nat) : List Recv → State → State
  | [], s => s
  | r :: rs, s => lossRecvs c k rs (lossRecv c k r s)

/-- A SEND is closed towards a module as if DONE had arrived. -/
def lossSends (c m : Nat) : List Send → State → State
  | [], s => s
  | x :: xs, s =>
    let gone := (x.peers.filter fun e => e.1 == m && !e.2.2).map (·.2.1)
    let y := { x with
      peers := x.peers.map fun e => if e.1 = m then (e.1, e.2.1, true) else e
      left := x.left.filter fun k => !gone.contains (k / 65536) }
    lossSends c m xs (if gone.isEmpty then s
      else sendEnd c x.step x.cid (modColl c (fun z => { z with sends := z.sends.map fun w => if w = x then y else w }) s))

/-- The loss of position `k` of the own board acts on the open steps of contexts below `n`. -/
def lossActs (k : Nat) : Nat → State → State
  | 0, s => s
  | n + 1, s =>
    let s := lossActs k n s
    if stepIsOpen s n then
      lossSends n (ownBoard s * 8 + k) (ctxOf s n).coll.sends (lossRecvs n k (ctxOf s n).coll.recvs s)
    else s

/-! ## Resolution at the twin (R489, R491) -/

/-- The incoming check value of a tile, where it has arrived. -/
def incoming (s : State) (i : Nat) (b : Blk) (kind t : Nat) : Option Nat :=
  match xferAt s b.gbi (kindGrp kind) false with
  | some x => x.tab.find (entryIdx b kind t)
  | none => some (mval s 0 (incAddr s i b (kindGrp kind) (entryIdx b kind t)) 4)

/-- Whether tile `t` on of a buffer, `n` of them, are old; an error names a tile that is neither old nor new. -/
def tornTiles (i : Nat) (b : Blk) (kind : Nat) : Nat → Nat → State → Except Nat (List Bool) × State
  | 0, _, s => (.ok [], s)
  | n + 1, t, s =>
    match engRead 0 4 (bufAddr s b kind + tileBytes kind * t) (tileBytes kind) s with
    | (.data bs, s) =>
      let new := incoming s i b kind t == some (crc32c bs)
      let old := mval s 0 (storedAddr s i b kind t) 4 == crc32c bs
      if !new && !old then (.error t, s)
      else match tornTiles i b kind n (t + 1) s with
        | (.ok r, s) => (.ok ((!new) :: r), s)
        | x => x
    | (_, s) => (.error t, s)

/-- The stored or adopted entries of the new tiles take their incoming values. -/
def adoptNew (i : Nat) (b : Blk) (kind : Nat) : Nat → List Bool → State → State
  | _, [], s => s
  | t, old :: r, s =>
    adoptNew i b kind (t + 1) r
      (if old then s else memStore 0 (storedAddr s i b kind t) (leBytes 4 ((incoming s i b kind t).getD 0)) s)

/-- The bitmap of old tiles, padded to a multiple of 16 bytes. -/
def oldMap (old : List Bool) : List Byte :=
  let bs := (chunks 8 old.length old).map fun r => BitVec.ofNat 8 (r.zipIdx.foldl (fun a e => a + b2n e.1 * 2 ^ e.2) 0)
  bs ++ zeros ((bs.length + 15) / 16 * 16 - bs.length)

/-- What the resolution of a block has found so far: COMMIT_GAP bits and torn buffers. -/
structure Gap where
  bits : Nat := 0
  old : List (List Bool) := []

/-- The row TRANSIT_W. -/
def resolveW (i : Nat) (b : Blk) (inStep : Nat) (g : Gap) (s : State) : Gap × State :=
  match tornTiles i b 1 (lTiles b.lat) 0 s with
  | (.error t, s) => (g, markSuspect b.gbi 1 4 t s)
  | (.ok old, s) => ({ bits := g.bits ||| 3, old := g.old ++ [old] }, recPut b 24 4 inStep (adoptNew i b 1 0 old s))

/-- Half 1 of a factor transfer is in transit: one of its frames, or a CLOSE_F that names it, has arrived. -/
def half1InTransit (x : CulXfer) : Bool :=
  x.parts.any (fun e => e.1 / 2 ^ 34 == 3) || x.wait.any (fun e => e.1 / two32 == 3) || x.passed.any (fun k => k / two32 == 3) ||
    x.fails.any (fun e => e.1 / two32 == 3) || x.close.any (fun p => bit (pay p 6 1) 0)

/-- The rows TRANSIT_F. -/
def resolveF (i : Nat) (b : Blk) (g : Gap) (s : State) : Gap × State :=
  let half1 := (xferAt s b.gbi 9 false).any half1InTransit
  match tornTiles i b 2 (lF b.lat) 0 s with
  | (.error t, s) => (g, markSuspect b.gbi 2 4 t s)
  | (.ok old, s) =>
    let s := recPut b 28 4 (recGet s b 24 4) (adoptNew i b 2 0 old s)
    let s := if half1 then recPut b 48 1 0 s else s
    ({ bits := g.bits ||| 4 ||| (if half1 then 16 else 0), old := g.old ++ [old] }, s)

/-- A COMMIT_GAP record (R491). -/
def gapRecord (c step gbi : Nat) (g : Gap) (s : State) : State :=
  if g.bits = 0 then s
  else jrnCtx c 0x31 srcHub (leBytes 4 step ++ leBytes 4 gbi ++ leBytes 1 g.bits ++ zeros 1 ++
    leBytes 2 (g.old.flatMap fun o => o.filter id).length ++ zeros 4 ++ g.old.flatMap oldMap) s

/-- The twin resolves one block of the lost owner by its check area (R489). -/
def resolveBlk (i : Nat) (s : State) : State :=
  let b := twinAt s i
  let fl := chkFlags s i
  let inStep := mval s 0 (chkArea s i + 4) 4
  let (g, s) := if fl.testBit 3 then resolveW i b inStep {} s else ({}, s)
  let (g, s) := if fl.testBit 4 then resolveF i b g s else (g, s)
  let g := if fl.testBit 5 then { g with bits := g.bits ||| 8 } else g
  let gap := !fl.testBit 3 && !fl.testBit 4 && recGet s b 24 4 == (recGet s b 28 4 + 1) % two32
  let g := if gap then { g with bits := g.bits ||| 2 } else g
  let s := setChkFlags i 0 0x38 s
  let s := { s with cul := { s.cul with xfers := s.cul.xfers.filter fun x => x.gbi != b.gbi } }
  gapRecord (culCtx s) (if fl / 8 % 8 = 0 then recGet s b 24 4 else inStep) b.gbi g s

/-! ## What was not committed (R429) -/

/-- The twin commits a block for an open step with every contribution absent: the weights stay, the factors decay. -/
def absentCommit (c : Nat) (st : Step) (b : Blk) (s : State) : State :=
  let n := st.step
  let tl := lTl b.lat
  let tr := lTr b.lat
  let (w, s) := freshWord s
  let s := jrnCtx c 0x30 srcHub (leBytes 4 n ++ leBytes 2 w ++ leBytes 1 0xFF ++ zeros 1) s
  let s := rootUse c n b (droughtWatch b [] s)
  let s := recPut b 24 4 n s
  match wholeBuf b 2 s with
  | (none, s) => s
  | (some old, s) =>
    let G : Mat := List.replicate (64 * tl) (List.replicate (64 * tr) fv0)
    factorWrite c n st b none (if lF b.lat = 0 then none else newFactors st b (recGet s b 46 2) G old) old s

/-- The open steps in which a block was not committed. -/
def absentCommits (c : Nat) (b : Blk) : List Step → State → State
  | [], s => s
  | st :: r, s => absentCommits c b r (if recGet s b 24 4 < st.step then absentCommit c st b s else s)

/-- The twin takes up the first `n` blocks of its table. -/
def takeUp : Nat → State → State
  | 0, s => s
  | n + 1, s =>
    let s := resolveBlk n (takeUp n s)
    let b := twinAt s n
    if lFrozen b.lat || isSuspect s b.gbi then s
    else absentCommits (culCtx s) b (ctxOf s (culCtx s)).steps s

/-- Fetches from the lost twin end as lost tiles. -/
def fetchesLost : List Fetch → State → State
  | [], s => s
  | x :: r, s => fetchesLost r (if x.asked then tileLost x.gbi x.kind x.tile (dropFetch x.gbi x.kind x.tile s) else s)

/-- The module's twin is lost: no mirror any more, and its blocks are taken up (R429, R457). -/
def twinGone (s : State) : State :=
  let s := fetchesLost s.cul.fetches { s with cul := { s.cul with audits := [], wanted := [] } }
  { takeUp (twinCount s) s with degSet := s.degSet ++ [1] }

/-! ## The command (R426, R431) -/

/-- A loss is recorded; one that is recorded for the board already stands. -/
def degRecord (k board pos : Nat) (s : State) : State :=
  let f := degFlds k
  if isF s f.1 0 then s
  else
    let s := setEvt COLL_EV_DEGRADED 0 (setF f.2 0 pos (setF f.1 0 1 s))
    if k = 0 then
      let s := lossActs pos 16 s
      if (pos + 1) % 8 = ownPos s then { s with degSet := s.degSet ++ [0] } else s
    else if board = ownBoard s ^^^ 1 ∧ pos = ownPos s then twinGone s
    else s

/-- What is due at the next step open because of a board's loss is due no more. -/
def degUnset (k board : Nat) (s : State) : State :=
  { s with degSet := s.degSet.filter fun e => !((e == 0 && k == 0) || (e == 1 && k != 0 && board == ownBoard s ^^^ 1)) }

/-- DEGRADE: a loss on one of the three boards is recorded; with CLEAR the entry is cleared at the next step open, and the
command completes then. For any other board, and where nothing is recorded, it completes and changes nothing. -/
def degrade (h : Nat) (s : State) : State :=
  runCmd h 0x41 (fun e s =>
    let a := argOf e 0
    let board := bits a 0 9
    match degEntry s board with
    | none => report h 0 0 0 s
    | some k =>
      if bit a 12 then
        (if isF s (degFlds k).1 0 then degUnset k board { s with degClear := s.degClear ++ [(k, h)] } else report h 0 0 0 s)
      else report h 0 0 0 (degRecord k board (bits a 9 3) s)) s

/-- DEGRADE. -/
def execDegrade (h : Nat) (s : State) : Host.Outcome State Fault Refusal := .next (running s (degrade h s))

end Sys2Proof.Machine
end

