-- ==== Sys2Proof/Machine/RegWrite.lean ====
section
/-! DEFINITION. REG_WRITE: a bus write with the conditions and the consequences that other parts of the module give it (R12, R440, R463,
R502, R507, R517, R630, R635). -/

namespace Sys2Proof.Machine

/-- A register that keeps its value while a step is open: TWIN_BASE, TWIN_COUNT and TCHK_BASE while one of CULVERT.CFG.CTX is (R440). -/
def lockedWrite (s : State) (t o : Nat) : Bool := t == 9 && (o == 0x104 || o == 0x108 || o == 0x10C) && stepIsOpen s (culCtx s)

/-- What a write lets go on: held completion entries, where the ring has room (R517); the replayed records, which are forgotten with
RPL_CFG.EN = 0; and a unit that may no longer lend itself, whose LEND returns to 0 (R108). -/
def writeFollow (t i o : Nat) (s : State) : State :=
  if t = 12 ∧ 0x100 ≤ o ∧ o < 0x200 ∧ o % 64 = 0x1C then cqDrain i ((o - 0x100) / 64) 64 s
  else if t = 11 ∧ 0x800 ≤ o ∧ o < 0xC00 ∧ o % 64 = 0x28 then
    let c := (o - 0x800) / 64
    if getFk s HOSTIF_RPL_CFG_EN 0 c = 0 then modCtx c (fun x => { x with rpl := [] }) s else s
  else if t = 0 ∧ o = 0x10 ∧ !isF s TUNIT_CTRL_WIDE_ALLOW i then setF TUNIT_STAT_LEND i 0 s
  else s

/-- The word that is written: bits of a CHECK page's RUN above the width keep their value (R463). -/
def writtenWord (s : State) (t i o v : Nat) : Nat :=
  if t = 10 ∧ (o = 0x110 ∨ o = 0x114) then
    let old := readFlds s i (fldsAt t o)
    let m := checkMask s i o
    (v &&& m) ||| (old &&& (two32 - 1 - m))
  else v

/-- What a write settles before it: requests in the Sluices of a stack that leaves priority mode keep their urgency (R307). -/
def writeBefore (v t i o : Nat) (s : State) : State :=
  if t = 3 ∧ o = 0x10 ∧ v.testBit 1 ∧ !isF s MEMCTL_CTRL_MODE i then keepUrgent i 32 s else s

/-- A 32-bit write that has passed the gate, with what follows from it. -/
def regStore (v t i o : Nat) (s : State) : State :=
  if lockedWrite s t o then s
  else writeFollow t i o (writeWord (writtenWord s t i o v) t i o (writeBefore v t i o s))

/-- One aligned 32-bit write. -/
def write32 (r : Requester) (a v : Nat) (s : State) : State :=
  if a % 4 = 0 then guarded r a (regStore (v % two32)) s else s

/-- REG_WRITE: a write of `size` bytes. One shorter than 32 bits is ignored, a 64-bit write is two 32-bit writes, the
lower address first (R630). -/
def regWrite (r : Requester) (a v size : Nat) (s : State) : State :=
  if size = 4 then write32 r a v s
  else if size = 8 then
    if a % 8 = 0 then write32 r (a + 4) (v / two32) (write32 r a v s) else s
  else s

/-- REG_WRITE (R12, R630, R635). -/
def execRegWrite (r : Requester) (a v size : Nat) (s : State) : Host.Outcome State Fault Refusal :=
  .next (regWrite r a v size s)

end Sys2Proof.Machine
end

