-- ==== Sys2Proof/Machine/Restore.lean ====
section
/-! DEFINITION. Restoring from Zarurn records: the command, fetching, the checks of a record, applying blocks, extents and carried
transfers, and completion (R482 to R486, R490, R500). -/

namespace Sys2Proof.Machine

/-! ## Fetching -/

/-- Change the restore of a context. -/
def modRestore (c : Nat) (f : Restore → Restore) (s : State) : State := modCtx c (fun x => { x with restore := x.restore.map f }) s

/-- Record length of a restore list entry. -/
def rLen (e : List Byte) : Nat := pay e 16 8
/-- Location kind: 1 host, 2 holder. -/
def rKind (e : List Byte) : Nat := pay e 80 1
/-- Holder module. -/
def rHolder (e : List Byte) : Nat := pay e 82 2
/-- Host address, or window offset. -/
def rAddr (e : List Byte) : Nat := pay e 88 8

/-- READ_REQ frames for `n` bytes from window offset `o`; each asks for at most 65,535 units of 64 bytes. -/
def readReqs (s : State) (dst c : Nat) : Nat → Nat → Nat → List Frame
  | 0, _, _ => []
  | f + 1, o, n =>
    if n = 0 then []
    else
      let m := min n (65535 * 64)
      peerFrame s dst c 2 o m [] :: readReqs s dst c f (o + m) (n - m)

/-- Ask the holder of the next record for it. -/
def askNext (c : Nat) (s : State) : State :=
  match (ctxOf s c).restore with
  | some r =>
    match r.left with
    | e :: _ =>
      if rKind e = 2 then peerSend (rHolder e) (readReqs s (rHolder e) c (rLen e) (rAddr e) (pad64 (rLen e))) s else s
    | [] => s
  | none => s

/-- READ_DATA: the bytes of the record that is being fetched; any other frame is of no use and is dropped. -/
def readData (f : Frame) (s : State) : State :=
  match (ctxOf s f.ctx).restore with
  | some r =>
    match r.left with
    | e :: _ =>
      if rKind e = 2 ∧ rHolder e = f.src ∧ rAddr e ≤ pOff f ∧ pOff f < rAddr e + rLen e then
        modRestore f.ctx (fun x => { x with parts := x.parts.put [] ((pOff f - rAddr e) / 64) f.payload }) s
      else s
    | [] => s
  | none => s

/-- READ_DATA. -/
def execReadData (s : State) : Host.Outcome State Fault Refusal := .next (awake s (peerTake 3 readData s))

/-! ## The command (R482) -/

/-- RESTORE: refused while a step of the context is open. `dir` is the block directory of the new mapping, which Gimal has
created and which no argument names; 0 leaves the tables of the last step opened. -/
def restore (h dir : Nat) (s : State) : State :=
  runCmd h 0x31 (fun e s =>
    let c := hCtx h
    if stepIsOpen s c then report h 8 0 0 s
    else
      let n := argOf e 1 % two32
      cmdRead h 6 (argOf e 0) (96 * n) (fun bs s =>
        let r : Restore := { handle := h, src := bits (argOf e 1) 32 2, exts := argOf e 2, left := chunks 96 n bs }
        let go := fun s => askNext c (modCtx c (fun x => { x with restore := some r }) s)
        if dir = 0 then go s
        else cmdRead h 6 dir 4096 (fun db s =>
          match readTables 0 (chunks 16 256 db) s with
          | (.error u, s) => report h (if u then 0x12 else 0x13) 0 0 s
          | (.ok ts, s) => go (modCtx c (fun x => { x with tabs := latchBlocks ts }) s)) s) s) s

/-- RESTORE. -/
def execRestore (h dir : Nat) (s : State) : Host.Outcome State Fault Refusal := .next (awake s (restore h dir s))

/-! ## The checks of a record (R483) -/

/-- The payload of a record before compression when every check holds, in R483's order. -/
def openRecord (e bs : List Byte) : Option (List Byte) :=
  let stored := (bs.drop 64).take (pay bs 32 8)
  if pay bs 0 2 ≠ 0x5A52 ∨ pay bs 60 4 ≠ crc32c (bs.take 60) then none
  else if (e.drop 32).take 48 ≠ sha384 bs then none
  else if pay bs 52 4 ≠ crc32c stored then none
  else match (if bits (pay bs 48 1) 0 2 = 0 then some stored else Config.zstdDecode stored) with
    | none => none
    | some raw => if pay bs 56 4 = crc32c raw then some raw else none

/-- A record failed or was refused: the first names the command's status and GBI. -/
def restoreFails (c st gbi : Nat) (s : State) : State :=
  modRestore c (fun r => { r with fails := r.fails + 1, bad := some (r.bad.getD (st, gbi)) }) s

/-! ## Blocks (R484, R485, R490) -/

/-- Block row and column, nominal and active sides, and enabled sides of two records agree (R484). -/
def sidesAgree (a b : List Byte) : Bool :=
  pay a 8 8 == pay b 8 8 && bits (pay a 16 1) 2 2 == bits (pay b 16 1) 2 2

/-- A restored block has no root work in progress: a job of it, running or held, is gone, and one starts again at phase 1 (R252). -/
def restartRoot (c : Nat) (b : Blk) (s : State) : State :=
  let rg := b.cl / 8
  modSeq rg (fun q => { q with snaps := q.snaps.filter fun e => !(e.1 == c && e.2.1 == b.gbi) }) (stopJob rg c b.gbi s)

/-- Write the fields that R485 copies into a record; `fac` says whether the factor stamps come from the record restored. -/
def restoreFields (b : Blk) (rb : List Byte) (fac : Bool) (s : State) : State :=
  let s := recPut b 24 4 (pay rb 24 4) s
  let s := if fac then recPut b 46 2 (pay rb 46 2) (recPut b 28 4 (pay rb 28 4) s) else s
  let s := recPut b 36 1 (recGet s b 36 1 / 8 * 8 + pay rb 36 1 / 2 % 4 * 2) (recPut b 32 4 (pay rb 32 4) s)
  let s := recPut b 44 2 (pay rb 44 2) (recPut b 40 4 (pay rb 40 4) s)
  let s := recPut b 17 1 (pay rb 17 1) (recPut b 48 1 (recGet s b 48 1 / 2 * 2 + pay rb 48 1 % 2) s)
  clearWip b s

/-- The sections of a BLOCK payload: weights with their table, factor halves 0 and 1, and roots. -/
def blockSections (b : Blk) (raw : List Byte) (half1 : Bool) : List Byte × List Byte × List Byte × List Byte :=
  let w := 12292 * lTiles b.lat
  let f := 16384 * lF b.lat
  let body := raw.drop 64
  (body.take w, (body.drop w).take f, if half1 then (body.drop (w + f)).take f else [],
    (body.drop (w + f + if half1 then f else 0)).take (8192 * lF b.lat))

/-- The copy in memory has the record's TIDEMARK and no gap, so its factors stand where the record has missed an update
(R490). -/
def copyWhole (s : State) (b : Blk) (rb : List Byte) : Bool :=
  pay rb 28 4 != pay rb 24 4 && recGet s b 24 4 == pay rb 24 4 && recGet s b 28 4 == pay rb 24 4

/-- A restored block's buffers and fields. -/
def restoreBlk (b : Blk) (raw : List Byte) (secs : Nat) (keepF : Bool) (s : State) : State :=
  let d := dieOf b.cl
  let x := blockSections b raw (secs.testBit 2)
  let s := memStore d (wgtAddr s b) x.1 s
  let s := if keepF then s else memStore d (bufAddr s b 3) x.2.2.1 (memStore d (facAddr s b) x.2.1 s)
  let s := memStore d (rootAddr s b) x.2.2.2 s
  restoreFields b (raw.take 56) (!keepF) s

/-- COMMIT_GAP with F_MISSED for a block whose copy has missed one factor update (R490, R491). -/
def gapMissed (c : Nat) (b : Blk) (tidemark : Nat) (s : State) : State :=
  jrnCtx c 0x31 srcHub (leBytes 4 tidemark ++ leBytes 4 b.gbi ++ leBytes 1 2 ++ zeros 7) s

/-- An accepted gap is journalled (R490). -/
def gapNote (c : Nat) (b : Blk) (rb : List Byte) (keepF : Bool) (s : State) : State :=
  if !keepF && pay rb 24 4 == (pay rb 28 4 + 1) % two32 then gapMissed c b (pay rb 24 4) s else s

/-- The adopted entries of a buffer's tiles are formed from the restored tiles (R485). -/
def adoptTiles (i : Nat) (b : Blk) (kind : Nat) (n : Nat) : Nat → List Byte → State → State
  | 0, _, s => s
  | k + 1, bs, s =>
    let t := n - (k + 1)
    let s := memStore 0 (storedAddr s i b kind t) (leBytes 4 (crc32c (bs.take (tileBytes kind)))) s
    adoptTiles i b kind n k (bs.drop (tileBytes kind)) s

/-- A restored twin record: its check area is valid, with tables formed from the tiles. -/
def restoreTwin (i : Nat) (b : Blk) (raw : List Byte) (secs : Nat) (s : State) : State :=
  let x := blockSections b raw (secs.testBit 2)
  let n := lF b.lat
  let s := adoptTiles i b 2 n n x.2.1 (setChkFlags i 7 0x38 s)
  let s := if secs.testBit 2 then adoptTiles i b 3 n n x.2.2.1 s else s
  adoptTiles i b 4 n n x.2.2.2 s

/-- Apply a BLOCK record to the block tables and the twin table; its GBI may stand in neither, and then it is skipped. -/
def applyBlock (c gbi secs : Nat) (raw : List Byte) (s : State) : State :=
  let own := (ctxOf s c).tabs.find? fun b => b.gbi == gbi
  let twin := twinBlk s gbi
  let same := fun b : Blk => sidesAgree b.lat raw
  if own.any (fun b => !same b) || twin.any (fun e => !same e.2) then restoreFails c 0x0D gbi s
  else if own.isNone && twin.isNone then s
  else
    let s := match twin with
      | some (i, b) => restoreTwin i b raw secs (restoreBlk b raw secs false s)
      | none => s
    let s := match own with
      | some b =>
        let keepF := copyWhole s b raw
        gapNote c b raw keepF (restoreBlk b raw secs keepF (restartRoot c b s))
      | none => s
    modRestore c (fun r => { r with applied := r.applied + 1 }) s

/-! ## Extents and carried transfers (R485) -/

/-- The extent with an identifier in the list that the command names: at most 64 entries, ending at a length of 0. -/
def findExtent (s : State) (a i : Nat) : Nat → Option (Nat × Nat)
  | 0 => none
  | n + 1 =>
    match memRead s 0 a 16 with
    | .data e =>
      if pay e 4 4 = 0 then none
      else if pay e 0 3 = i then some (pay e 8 8, pay e 4 4)
      else findExtent s (a + 16) i n
    | _ => none

/-- An EXTRA record returns to its extent. -/
def applyExtra (c i : Nat) (raw : List Byte) (s : State) : State :=
  match (ctxOf s c).restore with
  | some r =>
    match findExtent s r.exts i 64 with
    | some (a, n) => modRestore c (fun r => { r with applied := r.applied + 1 }) (memStore 0 a (raw.take n) s)
    | none => s
  | none => s

/-- The turns of a CARRY record's payload. -/
def carryTurns (raw : List Byte) : Store (List Byte) :=
  (chunks 8192 (raw.drop 8).length (raw.drop 8)).zipIdx.map fun e => (e.2, e.1)

/-- The transfer of a CARRY record is there again; its turns go to the carry area. The loss exponent of its step stands in no record. -/
def carryBack (c : Nat) (raw : List Byte) (s : State) : State :=
  let cid := pay raw 0 2
  let pos := pay raw 2 1
  let n := pay raw 4 4
  let (w, s) := freshWord s
  let x : Xfer := { src := ownBoard s * 8 + pos % 8, pos := pos, idx := 0, turns := carryTurns raw, absent := true, carry := true }
  let i := ((recvOf s c n cid).map (·.xfers.length)).getD 0
  carryStores c n cid i (carryTurns raw) <| match recvOf s c n cid with
    | some r => modRecv c n cid (fun _ => { r with xfers := r.xfers ++ [{ x with idx := i }] }) s
    | none => modColl c (fun z => { z with recvs := z.recvs ++
        [{ step := n, cid := cid, desc := [], lexp := w % 256, xfers := [x], fin := true, booked := true }] }) s

/-- A CARRY record returns to the carry area of its COLL_ID. -/
def applyCarry (c : Nat) (raw : List Byte) (s : State) : State :=
  modRestore c (fun r => { r with applied := r.applied + 1 }) (carryBack c raw s)

/-! ## Applying and completing -/

/-- A record whose bytes are there is checked and applied (R483 to R485). -/
def applyRecord (c : Nat) (e bs : List Byte) (s : State) : State :=
  match openRecord e bs with
  | none => setCtxEvt c ceRestoreBad (restoreFails c 0x0C (pay e 0 4) s)
  | some raw =>
    let s := modRestore c (fun r => { r with cut := some (r.cut.getD (pay bs 28 4)) }) s
    match pay bs 3 1 with
    | 1 => applyBlock c (pay bs 8 4) (pay bs 49 1) raw s
    | 2 => applyCarry c raw s
    | 3 => applyExtra c (pay bs 4 3) raw s
    | _ => s

/-- The bytes of the record at the head of the restore list: from the host, or joined from the holder's frames. -/
def recordBytes (r : Restore) (e hd : List Byte) : Option (List Byte) :=
  if rKind e = 2 then
    let got := r.parts.flatMap fun p => p.2
    if rLen e ≤ got.length then some (got.take (rLen e)) else none
  else some ((hd ++ zeros (rLen e)).take (rLen e))

/-- RESTORE_RECORD_APPLY: the next record of the restore list is checked and applied. `hd` is what the host memory at its address
holds. -/
def restoreRecordApply (c : Nat) (hd : List Byte) (s : State) : State :=
  match (ctxOf s c).restore with
  | none => s
  | some r =>
    match r.left with
    | [] => s
    | e :: rest =>
      match recordBytes r e hd with
      | none => s
      | some bs => askNext c (modRestore c (fun x => { x with left := rest, parts := [] }) (applyRecord c e bs s))

/-- RESTORE_RECORD_APPLY. -/
def execRestoreRecordApply (c : Nat) (hd : List Byte) (s : State) : Host.Outcome State Fault Refusal :=
  .next (awake s (restoreRecordApply c hd s))

/-- RESTORE_COMPLETE: every record is applied or skipped. The RESTORE record is written, and the next step opened is the context's
first (R49, R486). -/
def restoreComplete (c : Nat) (s : State) : State :=
  match (ctxOf s c).restore with
  | none => s
  | some r =>
    if r.left != [] then s
    else
      let s := jrnCtx c 5 srcHub (leBytes 4 (r.cut.getD 0) ++ leBytes 4 r.applied ++ leBytes 1 r.src ++ zeros 7) s
      let s := modCtx c (fun x => { x with restore := none, first := none, last := none, lastCommit := none }) s
      match r.bad with
      | some (st, g) => report r.handle st r.applied g s
      | none => report r.handle 0 r.applied 0xFFFFFFFF s

/-- RESTORE_COMPLETE. -/
def execRestoreComplete (c : Nat) (s : State) : Host.Outcome State Fault Refusal := .next (awake s (restoreComplete c s))

end Sys2Proof.Machine
end

