-- ==== Sys2Proof/Machine/SluiceCmd.lean ====
section
/-! DEFINITION. The commands by which a request enters a Sluice and a Sluice grants, for all 538 Sluices (R342 to R348). -/

namespace Sys2Proof.Machine

/-- The operation of a hub engine has entered its Sluice, and has not started. -/
def hubHas (s : State) (n r op : Nat) : Bool :=
  hubGranted s n r op || (sluiceOf s n).queue.any fun q => q.r == r && q.pay == .op op

/-- What requester `r` of Sluice `n` has to start, and its budget: of the collective engine, the SEND at the head of the context's
list with its BUDGET; of the host DMA, the COPY or EXPORT of context `r` with handle `op`, or for `r` = context + 16 the next record of the
journal drain (`op` 0) or of a durable checkpoint (`op` 1), with the requester's REQ_CFG.BUDGET (R342, log entry 105). -/
def hubOp (s : State) (n r op : Nat) : Option (Nat × Nat) :=
  if n = 536 then
    if r < 16 then
      match (ctxOf s r).coll.list with
      | (st, d) :: _ => if bits (dw d 0) 4 4 = 5 then none else some (sendKey st d, bits (dw d 1) 16 15)
      | [] => none
    else none
  else
    let budget := getFk s SLUICE_REQ_CFG_BUDGET 41 r
    if r < 16 then
      let sl := slotOf s r (hSlot op)
      if hCtx op = r ∧ handleLive s op ∧ sl.started ∧ !sl.running ∧ (opOf sl.entry = 0x20 ∨ opOf sl.entry = 0x21) then some (op, budget)
      else none
    else if op = 0 then (if getFk s HOSTIF_JRN_CFG_DRAIN 0 (r - 16) = 0 then none else some (0, budget))
    else if op = 1 then
      match (ctxOf s (r - 16)).ckpt with
      | some k => if k.peer then none else some (1, budget)
      | none => none
    else none

/-- An operation of a hub engine enters its Sluice; one that finds no room stays accepted but not started (R342, R366). -/
def hubEnter (n r op : Nat) (s : State) : State :=
  match hubOp s n r op with
  | some (key, budget) => if slRoom s n && !hubHas s n r key then slEnter n r budget 1 (.op key) s else s
  | none => s

/-- The next request of requester `r` enters Sluice `n`: a memory request, a frame, or operation `op` of a hub engine (R342,
R343). `acc` is the access of a scrub read. -/
def enterSluice (n r op acc : Nat) (s : State) : State :=
  if n < 512 then memSluiceEnter n r acc s
  else if n < 536 then portSluiceEnter (n - 512) r s
  else if n < 538 then hubEnter n (r % 32) op s
  else s

/-- SLUICE_ENTER: `dt` cycles of the Sluice's clock pass, then a request enters. A full queue leaves it with its
requester (R304, R343, R366). -/
def sluiceEnter (n r op acc dt : Nat) (s : State) : State := enterSluice n r op acc (slTick n dt s)

/-- SLUICE_ENTER. -/
def execSluiceEnter (n r op acc dt : Nat) (s : State) : Host.Outcome State Fault Refusal :=
  .next (runningIn (sluiceDomain n) s (sluiceEnter n r op acc dt s))

/-- A served operation may start. -/
def hubMayStart (n : Nat) (q : SlReq) (s : State) : State :=
  match q.pay with
  | .op k => modSluice n (fun x => { x with granted := x.granted ++ [(q.r, k)] }) s
  | _ => s

/-- A hub engine's Sluice grants its next operation, which may then start (R346, R366). -/
def hubSluiceGrant (n : Nat) (s : State) : State :=
  match slNext s n false (fun _ => true) with
  | none => s
  | some (r, fresh) =>
    match slServe n r fresh (fun _ => true) s with
    | some (q, s) => hubMayStart n q s
    | none => s

/-- Sluice `n` grants. -/
def grantSluice (n : Nat) (s : State) : State :=
  if n < 512 then memSluiceGrant n s
  else if n < 536 then portSluiceGrant (n - 512) s
  else if n < 538 then hubSluiceGrant n s
  else s

/-- SLUICE_GRANT: `dt` cycles of the Sluice's clock pass, then the Sluice serves its next beat (R346, R347). -/
def sluiceGrant (n dt : Nat) (s : State) : State := grantSluice n (slTick n dt s)

/-- SLUICE_GRANT. -/
def execSluiceGrant (n dt : Nat) (s : State) : Host.Outcome State Fault Refusal := .next (runningIn (sluiceDomain n) s (sluiceGrant n dt s))

end Sys2Proof.Machine
end

