-- ==== Sys2Proof/Machine/Dispatch.lean ====
section
/-! DEFINITION. The dispatch: one arm for each command. -/

namespace Sys2Proof.Machine

/-- The effect of a command on everything but the queue. -/
def exec (i : Instr) (s : State) : Host.Outcome State Fault Refusal :=
  match i with
  | .regWrite r a v size => Sys2Proof.Machine.execRegWrite r a v size s
  | .evtPendClear r a v raised => Sys2Proof.Machine.execEvtPendClear r a v raised s
  | .evtForce r a v => Sys2Proof.Machine.execEvtForce r a v s
  | .errInfoClear r a v => Sys2Proof.Machine.execErrInfoClear r a v s
  | .rcRead r a inc => Sys2Proof.Machine.execRcRead r a inc s
  | .loReadLatch r a => Sys2Proof.Machine.execLoReadLatch r a s
  | .stepOpen h => Sys2Proof.Machine.execStepOpen h s
  | .stepOpenDeferred h => Sys2Proof.Machine.execStepOpenDeferred h s
  | .stepClose c n => Sys2Proof.Machine.execStepClose c n s
  | .gatherBlockSend c n cid g => Sys2Proof.Machine.execGatherBlockSend c n cid g s
  | .partialAdd c n g own => Sys2Proof.Machine.execPartialAdd c n g own s
  | .ownerSumClose c n g => Sys2Proof.Machine.execOwnerSumClose c n g s
  | .precondition c n g => Sys2Proof.Machine.execPrecondition c n g s
  | .commit c n g => Sys2Proof.Machine.execCommit c n g s
  | .mirrorSend c n g => Sys2Proof.Machine.execMirrorSend c n g s
  | .factorUpdate c n g => Sys2Proof.Machine.execFactorUpdate c n g s
  | .listDescRead cl lid => Sys2Proof.Machine.execListDescRead cl lid s
  | .matmulDescriptor cl lid n => Sys2Proof.Machine.execMatmulDescriptor cl lid n s
  | .descTake u => Sys2Proof.Machine.execDescTake u s
  | .chunkPassEnd u => Sys2Proof.Machine.execChunkPassEnd u s
  | .tileEnd u corr unc fl stall => Sys2Proof.Machine.execTileEnd u corr unc fl stall s
  | .adoptCopyDone cl ok => Sys2Proof.Machine.execAdoptCopyDone cl ok s
  | .adoptionBufferEnter cl => Sys2Proof.Machine.execAdoptionBufferEnter cl s
  | .descComplete u => Sys2Proof.Machine.execDescComplete u s
  | .forceFence r a v => Sys2Proof.Machine.execForceFence r a v s
  | .resume r a v => Sys2Proof.Machine.execResume r a v s
  | .reductionFold cl dst part n k last => Sys2Proof.Machine.execReductionFold cl dst part n k last s
  | .conversionDescriptor cl lid => Sys2Proof.Machine.execConversionDescriptor cl lid s
  | .group cl lid => Sys2Proof.Machine.execGroup cl lid s
  | .stashEncode cl lid => Sys2Proof.Machine.execStashEncode cl lid s
  | .stashDecode cl lid => Sys2Proof.Machine.execStashDecode cl lid s
  | .rootJobScan rg => Sys2Proof.Machine.execRootJobScan rg s
  | .rootJobStart rg => Sys2Proof.Machine.execRootJobStart rg s
  | .wideDescIssue rg u d => Sys2Proof.Machine.execWideDescIssue rg u d s
  | .newtonIterationDone rg => Sys2Proof.Machine.execNewtonIterationDone rg s
  | .choleskyPanelDone rg => Sys2Proof.Machine.execCholeskyPanelDone rg s
  | .residualCheck rg => Sys2Proof.Machine.execResidualCheck rg s
  | .rootConvert rg => Sys2Proof.Machine.execRootConvert rg s
  | .rootPublish rg => Sys2Proof.Machine.execRootPublish rg s
  | .dueNotice rg => Sys2Proof.Machine.execDueNotice rg s
  | .restartReply rg => Sys2Proof.Machine.execRestartReply rg s
  | .lendSet rg => Sys2Proof.Machine.execLendSet rg s
  | .seqLockstep rg => Sys2Proof.Machine.execSeqLockstep rg s
  | .exportCmd h => Sys2Proof.Machine.execExportCmd h s
  | .memRequest d ctx cls a write copy data tag => Sys2Proof.Machine.execMemRequest d ctx cls a write copy data tag s
  | .weirAdmit m p dt => Sys2Proof.Machine.execWeirAdmit m p dt s
  | .sluiceEnter n r op acc dt => Sys2Proof.Machine.execSluiceEnter n r op acc dt s
  | .sluiceGrant n dt => Sys2Proof.Machine.execSluiceGrant n dt s
  | .sluiceDeadlineMiss n dt => Sys2Proof.Machine.execSluiceDeadlineMiss n dt s
  | .sluicePin n dt => Sys2Proof.Machine.execSluicePin n dt s
  | .memRead chan ecc => Sys2Proof.Machine.execMemRead chan ecc s
  | .memWrite chan => Sys2Proof.Machine.execMemWrite chan s
  | .scrubRead m chan page off ecc written passEnd => Sys2Proof.Machine.execScrubRead m chan page off ecc written passEnd s
  | .remapCopyDone m bad => Sys2Proof.Machine.execRemapCopyDone m bad s
  | .retireCopyDone m bad => Sys2Proof.Machine.execRetireCopyDone m bad s
  | .retrainDue m ch => Sys2Proof.Machine.execRetrainDue m ch s
  | .retrainDone m => Sys2Proof.Machine.execRetrainDone m s
  | .retrainTimeout m => Sys2Proof.Machine.execRetrainTimeout m s
  | .maint h => Sys2Proof.Machine.execMaint h s
  | .maintWindowStart => Sys2Proof.Machine.execMaintWindowStart s
  | .fieldRepairDone m e => Sys2Proof.Machine.execFieldRepairDone m e s
  | .maintWindowEnd ms => Sys2Proof.Machine.execMaintWindowEnd ms s
  | .parkStall m => Sys2Proof.Machine.execParkStall m s
  | .stackTempSample m t => Sys2Proof.Machine.execStackTempSample m t s
  | .stackThrottleStep m => Sys2Proof.Machine.execStackThrottleStep m s
  | .memrecImport h recd => Sys2Proof.Machine.execMemrecImport h recd s
  | .memrecExport h => Sys2Proof.Machine.execMemrecExport h s
  | .signal src => Sys2Proof.Machine.execSignal src s
  | .wait src => Sys2Proof.Machine.execWait src s
  | .waiterTableAdmit home flag cyc => Sys2Proof.Machine.execWaiterTableAdmit home flag cyc s
  | .arrive src => Sys2Proof.Machine.execArrive src s
  | .releaseReceive => Sys2Proof.Machine.execReleaseReceive s
  | .flagOwnWrite r a v => Sys2Proof.Machine.execFlagOwnWrite r a v s
  | .barCfgWrite r a v => Sys2Proof.Machine.execBarCfgWrite r a v s
  | .dbgSet r a v => Sys2Proof.Machine.execDbgSet r a v s
  | .portEnable r a v => Sys2Proof.Machine.execPortEnable r a v s
  | .autoRetrain p => Sys2Proof.Machine.execAutoRetrain p s
  | .trainDone p => Sys2Proof.Machine.execTrainDone p s
  | .trainFail p => Sys2Proof.Machine.execTrainFail p s
  | .identSend p => Sys2Proof.Machine.execIdentSend p s
  | .ident p raw fec => Sys2Proof.Machine.execIdent p raw fec s
  | .confirm r a v => Sys2Proof.Machine.execConfirm r a v s
  | .recheck r a v => Sys2Proof.Machine.execRecheck r a v s
  | .linkRestore r a v => Sys2Proof.Machine.execLinkRestore r a v s
  | .forceDown r a v => Sys2Proof.Machine.execForceDown r a v s
  | .laneLoss p => Sys2Proof.Machine.execLaneLoss p s
  | .portRst r a v => Sys2Proof.Machine.execPortRst r a v s
  | .data p raw fec => Sys2Proof.Machine.execData p raw fec s
  | .mark p raw fec => Sys2Proof.Machine.execMark p raw fec s
  | .markAck p raw fec => Sys2Proof.Machine.execMarkAck p raw fec s
  | .link p raw fec => Sys2Proof.Machine.execLink p raw fec s
  | .retry p raw fec => Sys2Proof.Machine.execRetry p raw fec s
  | .state p raw fec => Sys2Proof.Machine.execState p raw fec s
  | .ackTimeout p => Sys2Proof.Machine.execAckTimeout p s
  | .linkAckDue p => Sys2Proof.Machine.execLinkAckDue p s
  | .holdExpire p => Sys2Proof.Machine.execHoldExpire p s
  | .send c => Sys2Proof.Machine.execSend c s
  | .recv c => Sys2Proof.Machine.execRecv c s
  | .collTurnFrame => Sys2Proof.Machine.execCollTurnFrame s
  | .doneFrame => Sys2Proof.Machine.execDoneFrame s
  | .releaseFrame => Sys2Proof.Machine.execReleaseFrame s
  | .earlyAreaAdmit hclk => Sys2Proof.Machine.execEarlyAreaAdmit hclk s
  | .stragglerDeadline c n cid => Sys2Proof.Machine.execStragglerDeadline c n cid s
  | .ctxPause r a v => Sys2Proof.Machine.execCtxPause r a v s
  | .degrade h => Sys2Proof.Machine.execDegrade h s
  | .topoLoad h => Sys2Proof.Machine.execTopoLoad h s
  | .openFrame => Sys2Proof.Machine.execOpenFrame s
  | .tabWf => Sys2Proof.Machine.execTabWf s
  | .tabR => Sys2Proof.Machine.execTabR s
  | .wgt => Sys2Proof.Machine.execWgt s
  | .fac0 => Sys2Proof.Machine.execFac0 s
  | .fac1 => Sys2Proof.Machine.execFac1 s
  | .root0 => Sys2Proof.Machine.execRoot0 s
  | .root1 => Sys2Proof.Machine.execRoot1 s
  | .closeW => Sys2Proof.Machine.execCloseW s
  | .closeF => Sys2Proof.Machine.execCloseF s
  | .closeR => Sys2Proof.Machine.execCloseR s
  | .ack => Sys2Proof.Machine.execAck s
  | .nack => Sys2Proof.Machine.execNack s
  | .auditRes => Sys2Proof.Machine.execAuditRes s
  | .fetch => Sys2Proof.Machine.execFetch s
  | .resolve r a v => Sys2Proof.Machine.execResolve r a v s
  | .auditGbi r a v => Sys2Proof.Machine.execAuditGbi r a v s
  | .dataB r a v => Sys2Proof.Machine.execDataB r a v s
  | .dataH r a v => Sys2Proof.Machine.execDataH r a v s
  | .dataW r a v => Sys2Proof.Machine.execDataW r a v s
  | .init r a v => Sys2Proof.Machine.execInit r a v s
  | .final r a v => Sys2Proof.Machine.execFinal r a v s
  | .ckpt h => Sys2Proof.Machine.execCkpt h s
  | .ckptBlockRead c g => Sys2Proof.Machine.execCkptBlockRead c g s
  | .ckptComplete c => Sys2Proof.Machine.execCkptComplete c s
  | .peerWrite => Sys2Proof.Machine.execPeerWrite s
  | .readReq => Sys2Proof.Machine.execReadReq s
  | .readData => Sys2Proof.Machine.execReadData s
  | .peerDone => Sys2Proof.Machine.execPeerDone s
  | .restore h dir => Sys2Proof.Machine.execRestore h dir s
  | .restoreRecordApply c hd => Sys2Proof.Machine.execRestoreRecordApply c hd s
  | .restoreComplete c => Sys2Proof.Machine.execRestoreComplete c s
  | .journalAppend c src hclk => Sys2Proof.Machine.execJournalAppend c src hclk s
  | .journalDrain c => Sys2Proof.Machine.execJournalDrain c s
  | .replayRead h => Sys2Proof.Machine.execReplayRead h s
  | .sqTail r a v => Sys2Proof.Machine.execSqTail r a v s
  | .sqEntryFetch c q ok entry => Sys2Proof.Machine.execSqEntryFetch c q ok entry s
  | .sqEnable r a v => Sys2Proof.Machine.execSqEnable r a v s
  | .commandStart c q => Sys2Proof.Machine.execCommandStart c q s
  | .completionReport n => Sys2Proof.Machine.execCompletionReport n s
  | .cqHead r a v waited => Sys2Proof.Machine.execCqHead r a v waited s
  | .coalesceTimer c q => Sys2Proof.Machine.execCoalesceTimer c q s
  | .bar2Read off n => Sys2Proof.Machine.execBar2Read off n s
  | .bar2Write off data => Sys2Proof.Machine.execBar2Write off data s
  | .nop h => Sys2Proof.Machine.execNop h s
  | .abort h => Sys2Proof.Machine.execAbort h s
  | .attest h => Sys2Proof.Machine.execAttest h s
  | .setSeed h => Sys2Proof.Machine.execSetSeed h s
  | .listRun h => Sys2Proof.Machine.execListRun h s
  | .copy h hd => Sys2Proof.Machine.execCopy h hd s
  | .ctxReset h => Sys2Proof.Machine.execCtxReset h s
  | .ctxPreempt h => Sys2Proof.Machine.execCtxPreempt h s
  | .ctxResume h => Sys2Proof.Machine.execCtxResume h s
  | .mailboxWrite off data => Sys2Proof.Machine.execMailboxWrite off data s
  | .go r a v => Sys2Proof.Machine.execGo r a v s
  | .imageVerifyDone => Sys2Proof.Machine.execImageVerifyDone s
  | .progGo r a v => Sys2Proof.Machine.execProgGo r a v s
  | .otpProgDone ok => Sys2Proof.Machine.execOtpProgDone ok s
  | .idReady => Sys2Proof.Machine.execIdReady s
  | .pairLockstep p => Sys2Proof.Machine.execPairLockstep p s
  | .domReq r a v => Sys2Proof.Machine.execDomReq r a v s
  | .domainSwitchDone n => Sys2Proof.Machine.execDomainSwitchDone n s
  | .droopStretch d => Sys2Proof.Machine.execDroopStretch d s
  | .railDip r mv => Sys2Proof.Machine.execRailDip r mv s
  | .railRecover r mv us => Sys2Proof.Machine.execRailRecover r mv us s
  | .supplyEvt => Sys2Proof.Machine.execSupplyEvt s
  | .holdoffEnd ms => Sys2Proof.Machine.execHoldoffEnd ms s
  | .railResetTrip r mv => Sys2Proof.Machine.execRailResetTrip r mv s
  | .regionTempSample rg t => Sys2Proof.Machine.execRegionTempSample rg t s
  | .powerSample w => Sys2Proof.Machine.execPowerSample w s
  | .deepIdle r a v => Sys2Proof.Machine.execDeepIdle r a v s
  | .deepIdleExit r a v => Sys2Proof.Machine.execDeepIdleExit r a v s
  | .standby r a v => Sys2Proof.Machine.execStandby r a v s
  | .islandRst r a v => Sys2Proof.Machine.execIslandRst r a v s
  | .coldReset => Sys2Proof.Machine.execColdReset s
  | .platformReset => Sys2Proof.Machine.execPlatformReset s
  | .linkReset => Sys2Proof.Machine.execLinkReset s
  | .functionLevelReset fn => Sys2Proof.Machine.execFunctionLevelReset fn s
  | .residueMismatch cl again => Sys2Proof.Machine.execResidueMismatch cl again s
  | .tempTrip k t => Sys2Proof.Machine.execTempTrip k t s
  | .watchdogExpire p => Sys2Proof.Machine.execWatchdogExpire p s
  | .kick r a v => Sys2Proof.Machine.execKick r a v s
  | .comparatorSelftest ok => Sys2Proof.Machine.execComparatorSelftest ok s
  | .comparatorDisagree ms => Sys2Proof.Machine.execComparatorDisagree ms s
  | .faultResetRelease => Sys2Proof.Machine.execFaultResetRelease s
  | .logClr r a v => Sys2Proof.Machine.execLogClr r a v s
  | .forceFault r a v => Sys2Proof.Machine.execForceFault r a v s
  | .wdogCfgWrite r a v => Sys2Proof.Machine.execWdogCfgWrite r a v s
  | .gaugeSample ch mv ma n => Sys2Proof.Machine.execGaugeSample ch mv ma n s
  | .gaugePowerSecond => Sys2Proof.Machine.execGaugePowerSecond s
  | .tallySend cl => Sys2Proof.Machine.execTallySend cl s
  | .tallyFrame bad alt => Sys2Proof.Machine.execTallyFrame bad alt s
  | .intervalEnd => Sys2Proof.Machine.execIntervalEnd s
  | .gaugeRecordSigned => Sys2Proof.Machine.execGaugeRecordSigned s
  | .gaugePowerUp => Sys2Proof.Machine.execGaugePowerUp s
  | .gaugeSupplyLoss => Sys2Proof.Machine.execGaugeSupplyLoss s
  | .status => Sys2Proof.Machine.execStatus s
  | .intervalW v => Sys2Proof.Machine.execIntervalW v s
  | .intervalR => Sys2Proof.Machine.execIntervalR s
  | .recSelect n => Sys2Proof.Machine.execRecSelect n s
  | .recRead => Sys2Proof.Machine.execRecRead s
  | .resumeLoad bs => Sys2Proof.Machine.execResumeLoad bs s
  | .resumeGo key => Sys2Proof.Machine.execResumeGo key s
  | .closeNow key => Sys2Proof.Machine.execCloseNow key s
  | .identRead => Sys2Proof.Machine.execIdentRead s
  | .statusResume => Sys2Proof.Machine.execStatusResume s
  | .challenge r a v => Sys2Proof.Machine.execChallenge r a v s
  | .unlockGo r a v => Sys2Proof.Machine.execUnlockGo r a v s
  | .unlockCheckDone => Sys2Proof.Machine.execUnlockCheckDone s
  | .relock r a v => Sys2Proof.Machine.execRelock r a v s
  | .perstRelease => Sys2Proof.Machine.execPerstRelease s
  | .coldResetRelease ms pos gaddr => Sys2Proof.Machine.execColdResetRelease ms pos gaddr s
  | .vfEnable en n => Sys2Proof.Machine.execVfEnable en n s
  | .aerError => Sys2Proof.Machine.execAerError s

end Sys2Proof.Machine
end

