-- ==== Sys2Proof/Safety.lean ====
section
/-! DEFINITION. What a safe run is: its sparse memories keep their one canonical form; and what it means that a command leaves
parts of the state alone. -/

namespace Sys2Proof.Machine

/-- Module memory lists addresses in rising order and no byte that reads as an unlisted one (the canonical form). -/
def Memory.wf (m : List Host.Cell) : Bool := Store.canon (0 : Byte) m

/-- The invariant of the module's memories: module memory, cluster SRAM and host memory as written are in canonical
form. -/
def State.memWf (s : State) : Prop :=
  Memory.wf s.mem = true ∧ Store.canon (0 : Byte) s.sram = true ∧ Store.canon (0 : Byte) s.hmem = true

/-! ## Frames -/

/-- A part of the state: the registers of one page type of R625, or a field of `State`. -/
inductive Part where
  /-- one register field, on every page of its type and in all its elements -/
  | reg (f : Fld)
  /-- the waiting commands -/
  | queue
  /-- the latched _HI words (R630) -/
  | hiLatch
  /-- module memory -/
  | mem
  /-- the poison marks (R314) -/
  | poison
  /-- cluster SRAM -/
  | sram
  /-- host memory as written -/
  | hmem
  /-- the OTP array -/
  | otp
  /-- answers to memory requests -/
  | responses
  /-- the stack controllers -/
  | mcs
  /-- the window of the BAR -/
  | window
  /-- the Sluices -/
  | sluices
  /-- the synchronization objects -/
  | objs
  /-- releases under way -/
  | releases
  /-- sync operations under way -/
  | crossing
  /-- the clusters -/
  | clusters
  /-- the tensor units -/
  | units
  /-- the Root Sequencers -/
  | seqs
  /-- the Culvert engine -/
  | cul
  /-- degraded-mode bits due to be set -/
  | degSet
  /-- degraded-mode entries due to be cleared -/
  | degClear
  /-- the contexts -/
  | ctxs
  /-- engine reports on their way -/
  | reports
  /-- the step closed last -/
  | lastClosed
  /-- module-wide journal records that wait -/
  | jwide
  /-- the ports -/
  | ports
  /-- the sending streams -/
  | txStreams
  /-- the receiving streams -/
  | rxStreams
  /-- frames handed over for sending -/
  | sendq
  /-- frames delivered to engines -/
  | inbox
  /-- the boot mailbox -/
  | mbx
  /-- programming requests of the OTP -/
  | otpq
  /-- the boot ROM is programming -/
  | romProg
  /-- the replaced key digest (R561) -/
  | bootKeys
  /-- the power controller -/
  | pow
  /-- the Breakwater -/
  | brk
  /-- the pin FAULT_N -/
  | faultN
  /-- the reset that is held -/
  | inReset
  /-- the debug unit -/
  | dbg
  /-- the Gauge -/
  | gauge
  /-- the strap POS -/
  | strapPos
  /-- the strap GADDR -/
  | strapGaddr
  /-- VF Enable -/
  | vfEnable
  /-- NumVFs -/
  | numVfs
  /-- the outputs -/
  | out
  /-- the counter of free values (log entry 5) -/
  | freeCtr
deriving DecidableEq, Repr

/-- The register cells of a page of type `t`: its fields, EVT_PEND, EVT_EN, and HOST_RO and DENIED_WR of its PAGE_CTL. -/
def regsOf (t : Nat) : List Fld := if t < 20 then fldsOf t ++ [pendFld t, enFld t, hostRoFld t, deniedFld t] else []

/-- The register cells of all twenty page types (R625). -/
def allRegs : List Fld := (List.range 20).flatMap regsOf

/-- `t` differs from `s` at most in the listed parts. -/
structure State.SameBut (w : List Part) (s t : State) : Prop where
  regs : ∀ f ∈ allRegs, ∀ (i k : Nat), Part.reg f ∉ w → getFk t f i k = getFk s f i k
  pending : Part.queue ∉ w → t.pending = s.pending
  hiLatch : Part.hiLatch ∉ w → t.hiLatch = s.hiLatch
  mem : Part.mem ∉ w → t.mem = s.mem
  poison : Part.poison ∉ w → t.poison = s.poison
  sram : Part.sram ∉ w → t.sram = s.sram
  hmem : Part.hmem ∉ w → t.hmem = s.hmem
  otp : Part.otp ∉ w → t.otp = s.otp
  responses : Part.responses ∉ w → t.responses = s.responses
  mcs : Part.mcs ∉ w → t.mcs = s.mcs
  window : Part.window ∉ w → t.window = s.window
  sluices : Part.sluices ∉ w → t.sluices = s.sluices
  objs : Part.objs ∉ w → t.objs = s.objs
  releases : Part.releases ∉ w → t.releases = s.releases
  crossing : Part.crossing ∉ w → t.crossing = s.crossing
  clusters : Part.clusters ∉ w → t.clusters = s.clusters
  units : Part.units ∉ w → t.units = s.units
  seqs : Part.seqs ∉ w → t.seqs = s.seqs
  cul : Part.cul ∉ w → t.cul = s.cul
  degSet : Part.degSet ∉ w → t.degSet = s.degSet
  degClear : Part.degClear ∉ w → t.degClear = s.degClear
  ctxs : Part.ctxs ∉ w → t.ctxs = s.ctxs
  reports : Part.reports ∉ w → t.reports = s.reports
  lastClosed : Part.lastClosed ∉ w → t.lastClosed = s.lastClosed
  jwide : Part.jwide ∉ w → t.jwide = s.jwide
  ports : Part.ports ∉ w → t.ports = s.ports
  txStreams : Part.txStreams ∉ w → t.txStreams = s.txStreams
  rxStreams : Part.rxStreams ∉ w → t.rxStreams = s.rxStreams
  sendq : Part.sendq ∉ w → t.sendq = s.sendq
  inbox : Part.inbox ∉ w → t.inbox = s.inbox
  mbx : Part.mbx ∉ w → t.mbx = s.mbx
  otpq : Part.otpq ∉ w → t.otpq = s.otpq
  romProg : Part.romProg ∉ w → t.romProg = s.romProg
  bootKeys : Part.bootKeys ∉ w → t.bootKeys = s.bootKeys
  pow : Part.pow ∉ w → t.pow = s.pow
  brk : Part.brk ∉ w → t.brk = s.brk
  faultN : Part.faultN ∉ w → t.faultN = s.faultN
  inReset : Part.inReset ∉ w → t.inReset = s.inReset
  dbg : Part.dbg ∉ w → t.dbg = s.dbg
  gauge : Part.gauge ∉ w → t.gauge = s.gauge
  strapPos : Part.strapPos ∉ w → t.strapPos = s.strapPos
  strapGaddr : Part.strapGaddr ∉ w → t.strapGaddr = s.strapGaddr
  vfEnable : Part.vfEnable ∉ w → t.vfEnable = s.vfEnable
  numVfs : Part.numVfs ∉ w → t.numVfs = s.numVfs
  out : Part.out ∉ w → t.out = s.out
  freeCtr : Part.freeCtr ∉ w → t.freeCtr = s.freeCtr

/-- Every register of the module. -/
def everyReg : List Part := allRegs.map Part.reg

/-- Every register of the pages of type `t`. -/
def pageRegs (t : Nat) : List Part := (regsOf t).map Part.reg

/-- EVT_PEND of the pages of type `t`. -/
def evtPend (t : Nat) : Part := .reg (pendFld t)

/-- DENIED_WR, where a write denied by HOST_RO is counted (R634). -/
def denied : List Part := (List.range 20).map fun t => .reg (deniedFld t)

/-- EVT_PEND of every page type. -/
def everyPend : List Part := (List.range 20).map evtPend

/-- Event `e` is pending on page `i`. -/
def evtSet (s : State) (e : Evt) (i : Nat) : Bool := (getF s (pendFld e.page) i).testBit e.bit

/-- The started command that handle `h` names has opcode `op`, and no row has taken it up yet. -/
def cmdReady (s : State) (h op : Nat) : Bool :=
  let sl := slotOf s (hCtx h) (hSlot h)
  handleLive s h && sl.started && !sl.running && opOf sl.entry == op

/-- The command answers a next state that differs from `s` at most in the parts `w` and meets `P`. -/
def Does (c : Instr) (s : State) (w : List Part) (P : State → Prop) : Prop :=
  ∃ t, exec c s = .next t ∧ s.SameBut w t ∧ P t

/-- The outputs of `v` are those of `o` and then a replay of `fs` on port `p`: the same frames in the same order, each with its LSEQ and
payload and with the ACK `ack`; no other frame leaves on the port. -/
def Resent (p : Nat) (fs : List Frame) (ack : Nat) (o v : List Out) : Prop :=
  ∃ (pre : List Out) (l : List Frame), v = o ++ pre ++ l.map (.frame p) ∧ (∀ g, Out.frame p g ∉ pre) ∧
    l.map (fun g => (g.lseq, g.payload)) = fs.map (fun g => (g.lseq, g.payload)) ∧ ∀ g ∈ l, g.ack = ack

end Sys2Proof.Machine
end

