-- ==== Sys2Proof/Machine/Views.lean ====
section
/-! DEFINITION. What the statements read of the state. -/

namespace Sys2Proof.Machine

/-- What a frame carries, whatever member and place in its stream it has: type, destination, context, engine, ENG_HDR and payload. -/
def Frame.what (f : Frame) : Nat × Nat × Nat × Nat × Nat × List Byte := (f.type, f.dst, f.ctx, f.engine, f.engHdr, f.payload)

/-- What the frames carry that engines have handed over for sending, oldest first. -/
def State.sent (s : State) : List (Nat × Nat × Nat × Nat × Nat × List Byte) := s.sendq.map Frame.what

/-- A block of an open step as its context keeps it. -/
def State.blk (s : State) (c n g : Nat) : Option Blk := (blkOf s c n g).map (·.2)

/-- No access of module memory needs correction on its reads (R312). -/
def noWeak (s : State) : Bool := s.mcs.all fun e => e.2.weak.isEmpty

/-- Among transfers at the twin, no close frame of a block waits. -/
def noClose (l : List CulXfer) (g : Nat) : Bool := l.all fun y => y.gbi != g || y.close.isNone

/-- What STEP_OPEN reads of the step's record `raw` and block tables `ts`, and whether the tables pass their checks; `w` is the state then
(R49, R202, R203, R440). -/
def Judges (h : Nat) (e raw : List Byte) (ts : Tables) (ok : Bool) (z w : State) : Prop :=
  engRead 0 5 (argOf e 0) 16 z = (.data raw, z) ∧
  ∃ dir y a b, engRead 0 5 (argOf e 1) 4096 z = (.data dir, z) ∧ readTables 0 (chunks 16 256 dir) z = (.ok ts, z) ∧
    checkTables (ownPos z) ts ts z = (a, y) ∧ (if hCtx h = culCtx y then checkTwin y else (.ok true, y)) = (.ok b, w) ∧ (a && b) = ok

/-- A step with the opening `o` passes every check of R49, has a job seed, agrees with the replayed journal, and its list directory and
samples are read; `v` is the state then (R49, R500, R502, R526). -/
def Opens (h : Nat) (e : List Byte) (o : Opening) (z v : State) : Prop :=
  ∃ w, Judges h e o.raw o.tables true z w ∧ stepRecBad o.raw = false ∧ stepNumBad w (hCtx h) o.raw = false ∧
    (ctxOf w (hCtx h)).seed.isSome = true ∧
    (if replayOn w (hCtx h) = true then replayFor (hCtx h) (pay o.raw 0 4) w = (.done, v) ∧ replayAgrees v (hCtx h) o.raw = true else v = w) ∧
    engRead 0 5 (argOf e 2) 2048 v = (.data o.dir, v) ∧
    (if argOf e 4 = 0 then o.samples = [] else readSamples (pay o.raw 0 4) (srMbCount o.raw) 0 (argOf e 4) v = (.ok o.samples, v))

/-- The numbers of a context's open steps with the commands that opened them. -/
def openSteps (x : Ctx) : List (Nat × Nat) := x.steps.map fun y => (y.step, y.handle)

end Sys2Proof.Machine
end

