-- ==== Sys2Proof/Certificates/Slice0/Obligations.lean ====
section
/-! DEFINITION. The statements for the provers. A clause `Does c s w P` says that command `c` answers a next state at `s`, that this state
differs from `s` at most in the parts `w` (so every register field, byte of memory and other part of State outside `w` is as before), and
that it meets `P`. -/

open Sys2Proof Sys2Proof.Machine

/-- Register accesses: RW stores, W1C clearing, forced events, ERR_INFO and LO/HI reads.  Basis:
R12, R16, R506, R635, R636, R637. The model's choices it rests on: log entry 116. -/
def Obligations.RegisterAccesses : Prop :=
  (∀ (r : Requester) (a v : Nat) (t i o : Nat) (s : State), a % 4 = 0 → target s r a = some (t, i, o) → gate s r t i o = .pass → lockedWrite s t o = false → (0x28 ≤ o ∨ o = 0x10) → (rangesOk (writtenWord s t i o (v % 2 ^ 32)) (fldsAt t o) && crossOk s t i o (writtenWord s t i o (v % 2 ^ 32))) = true → Does (.regWrite r a v 4) s (everyReg ++ ([.hmem, .sluices, .ctxs, .out] : List Part)) fun u =>
      ∀ e ∈ fldsAt t o, e.1.acc = .rw → e.1.own = false → getFk u e.1 i e.2 = bits (writtenWord s t i o (v % 2 ^ 32)) e.1.lo e.1.w) ∧
  (∀ (r : Requester) (a v raised : Nat) (t i : Nat) (s : State), a % 4 = 0 → target s r a = some (t, i, 0x18) → t ≠ 11 → gate s r t i 0x18 = .pass → Does (.evtPendClear r a v raised) s (denied ++ everyPend ++ ([.reg HOSTIF_CTX_EVT_EVT, .out] : List Part)) fun u =>
      ∀ b < 32, (getF u (pendFld t) i).testBit b = (((getF s (pendFld t) i).testBit b && !v.testBit b) || ((raised ||| stillRaised s t i) &&& evtMask t).testBit b)) ∧
  (∀ (r : Requester) (a v : Nat) (t i : Nat) (s : State), a % 4 = 0 → target s r a = some (t, i, 0x20) → t ≠ 11 → gate s r t i 0x20 = .pass → Does (.evtForce r a v) s (denied ++ everyPend ++ ([.reg HOSTIF_CTX_EVT_EVT, .out] : List Part)) fun u =>
      getF u (pendFld t) i = (getF s (pendFld t) i ||| (v &&& evtMask t)) % 2 ^ 32) ∧
  (∀ (r : Requester) (a v : Nat) (t i o : Nat) (s : State), a % 4 = 0 → target s r a = some (t, i, o) → gate s r t i o = .pass → isErrReg t o = true → Does (.errInfoClear r a v) s (everyReg ++ ([.mcs] : List Part)) fun u =>
      ∀ e ∈ fldsAt t o, getFk u e.1 i e.2 = fldReset e.1 i % 2 ^ e.1.w) ∧
  (∀ (r : Requester) (a : Nat) (t i o : Nat) (s : State), target s r a = some (t, i, o) → isLo t o = true → Does (.loReadLatch r a) s (everyReg ++ ([.hiLatch, .out] : List Part)) fun u =>
      u.out = s.out ++ [.regRead (readReg s r t i o)] ∧ u.hiLatch.get 0 (latchKey r t i (o + 4)) = readReg s r t i (o + 4) + 1)

/-- Memory requests: translation, Weir admission, clean reads, full writes and the end of a
scrub pass. The rows: memRequest, weirAdmit, memRead, memWrite, scrubRead. Basis: R298, R299,
R306, R308, R311, R312, R315. -/
def Obligations.MemoryRequestsAndWeirs : Prop :=
  (∀ (d ctx cls a : Nat) (write copy : Bool) (data : List Byte) (tag : Nat) (chan page off : Nat) (s : State), isAwake s = true → lookup s d (a / 64 * 64) = .hit chan page off → returnFull s (engineOf d ctx cls) = false → Does (.memRequest d ctx cls a write copy data tag) s ([.reg MEMCTL_ADDR_FAULT_CNT, evtPend 3, .responses, .mcs, .out]) fun u =>
      (mcOf u (chan / 32)).issued = (mcOf s (chan / 32)).issued ++ [{ ctx := ctx, cls := cls, write := write, chan := chan, page := page, off := off, data := data, copy := copy, tag := tag, die := d }] ∧ (write = false → u.responses = s.responses ++ [{ eng := engineOf d ctx cls, tag := tag, status := .waiting, data := [] }])) ∧
  (∀ (d ctx cls a : Nat) (write copy : Bool) (data : List Byte) (tag : Nat) (p : Nat) (s : State), isAwake s = true → lookup s d (a / 64 * 64) = .miss p → returnFull s (engineOf d ctx cls) = false → Does (.memRequest d ctx cls a write copy data tag) s ([.reg MEMCTL_ADDR_FAULT_CNT, evtPend 3, .responses, .mcs, .out]) fun u =>
      u.responses = s.responses ++ [{ eng := engineOf d ctx cls, tag := tag, status := .addrFault, data := [] }] ∧ getF u MEMCTL_ADDR_FAULT_CNT p = (getF s MEMCTL_ADDR_FAULT_CNT p + 1) % 2 ^ 32) ∧
  (∀ (m p dt : Nat) (q : MemReq) (rest : List MemReq) (s : State), stopped s = false → domOn s (64 + m) = true → isF (weirTick m dt 16 s) MEMCTL_CTRL_MODE m = true → takeFirst (fun q => decide (q.cls < 8) && partOf (weirTick m dt 16 s) m q == p && memArrived (weirTick m dt 16 s) q) (mcOf (weirTick m dt 16 s) m).issued = some (q, rest) → q.chan / 32 = m → slRoom (weirTick m dt 16 s) q.chan = true → 256 ≤ weirLevel (weirTick m dt 16 s) m p → weirLevel (weirTick m dt 16 s) m p < 16777216 → Does (.weirAdmit m p dt) s ([.reg WEIR_WAIT_CYC, .reg WEIR_LVL, .mcs, .sluices]) fun u =>
      (mcOf u m).issued = rest ∧ weirLevel u m p = weirLevel (weirTick m dt 16 s) m p - 256 ∧ (sluiceOf u q.chan).queue.length = (sluiceOf (weirTick m dt 16 s) q.chan).queue.length + 1) ∧
  (∀ (chan : Nat) (ecc : Ecc) (q : MemReq) (rest : List MemReq) (k : Nat) (s : State), stopped s = false → domOn s (64 + chan / 32) = true → takeServed (fun q => q.chan == chan && !q.write && !q.scrub) (mcOf s (chan / 32)).serving = some (q, rest) → redirect s chan q.page q.off = some k → s.poison.get false (k / 64) = false → ecc = .clean → Does (.memRead chan ecc) s ([.reg MEMCTL_STAT_PARKED, .reg MEMCTL_ERR_INFO_CHAN, .reg MEMCTL_ERR_INFO_ROW, .reg MEMCTL_ERR_INFO_CLASS, .reg MEMCTL_CE_CNT, .reg MEMCTL_UE_CNT, .reg MEMCTL_ROW_FAIL_CNT, .reg MEMCTL_PAGE_LOST_CNT, .reg MEMCTL_PENDING_ROWS, .reg MEMCTL_PENDING_REMAP_USED, evtPend 3, .poison, .responses, .mcs, .jwide, .out]) fun u =>
      u.responses = fillResp q.eng q.tag .ok (dramRead64 s k) s.responses ∧ (mcOf u (chan / 32)).serving = rest) ∧
  (∀ (chan : Nat) (q : MemReq) (rest : List MemReq) (k : Nat) (s : State), stopped s = false → domOn s (64 + chan / 32) = true → takeServed (fun q => q.chan == chan && q.write) (mcOf s (chan / 32)).serving = some (q, rest) → redirect s chan q.page q.off = some k → q.data.length = 64 → Does (.memWrite chan) s ([.mem, .poison, .responses, .mcs]) fun u =>
      dramRead64 u k = q.data ∧ (∀ j, j < k ∨ k + 64 ≤ j → Store.get (0 : Byte) u.mem j = Store.get (0 : Byte) s.mem j) ∧ u.poison.get false (k / 64) = false ∧ u.responses = s.responses ++ [{ eng := q.eng, tag := q.tag, status := .ok, data := [] }]) ∧
  (∀ (m chan page off : Nat) (ecc : Ecc) (written passEnd : Bool) (q : MemReq) (rest : List MemReq) (s : State), stopped s = false → domOn s (64 + m) = true → isF s MEMCTL_CTRL_SCRUB_EN m = true → isF s MEMCTL_CTRL_EN m = true → chan / 32 = m → passEnd = true → takeFirst (fun q => q.scrub && q.chan == chan && q.page == page && q.off == off) (mcOf s m).serving = some (q, rest) → Does (.scrubRead m chan page off ecc written passEnd) s ([.reg MEMCTL_STAT_PARKED, .reg MEMCTL_ERR_INFO_CHAN, .reg MEMCTL_ERR_INFO_ROW, .reg MEMCTL_ERR_INFO_CLASS, .reg MEMCTL_CE_CNT, .reg MEMCTL_UE_CNT, .reg MEMCTL_ROW_FAIL_CNT, .reg MEMCTL_PAGE_LOST_CNT, .reg MEMCTL_SCRUB_PASS, .reg MEMCTL_PENDING_ROWS, .reg MEMCTL_PENDING_REMAP_USED, evtPend 3, .poison, .mcs, .jwide, .out]) fun u =>
      getF u MEMCTL_SCRUB_PASS m = (getF s MEMCTL_SCRUB_PASS m + 1) % 2 ^ 32)

/-- Memory repair ladder, retraining, maintenance windows and record import and export.  Basis:
R316, R318, R319, R323, R324, R327, R328. The model's choices it rests on: log entry 10. -/
def Obligations.MemoryRepairAndMaintenance : Prop :=
  (∀ (m : Nat) (bad : List Nat) (c : LadderCopy) (rest : List LadderCopy) (src : Nat) (s : State), stopped s = false → domOn s (64 + m) = true → takeFirst (fun c => !c.retire && c.stage == 2) (mcOf s m).copies = some (c, rest) → c.chan / 32 = m → redirect s c.chan (c.row / 4) (c.row % 4 * 1024) = some src → Does (.remapCopyDone m bad) s ([.reg MEMCTL_REMAP_CNT, .reg MEMCTL_PENDING_ROWS, .reg MEMCTL_PENDING_REMAP_USED, evtPend 3, .mem, .poison, .mcs, .jwide, .out]) fun u =>
      (mcOf u m).rows.get .fresh (rowKey c.chan c.row) = .remapped c.target ∧ (mcOf u m).copies = rest ∧ getF u MEMCTL_REMAP_CNT m = (getF s MEMCTL_REMAP_CNT m + 1) % 2 ^ 32) ∧
  (∀ (m : Nat) (bad : List Nat) (c : LadderCopy) (rest : List LadderCopy) (s : State), stopped s = false → domOn s (64 + m) = true → takeFirst (fun c => c.retire && c.stage == 2) (mcOf s m).copies = some (c, rest) → c.chan / 32 = m → Does (.retireCopyDone m bad) s ([.reg MEMCTL_RETIRE_CNT, .reg MEMCTL_PENDING_ROWS, .reg MEMCTL_PENDING_REMAP_USED, evtPend 3, .mem, .poison, .mcs, .jwide, .out]) fun u =>
      (mcOf u m).pages.get .live (pageKey c.chan (c.row / 4)) = .retired c.target ∧ (mcOf u m).rows.get .fresh (rowKey c.chan c.row) = .retired c.target ∧ (mcOf u m).copies = rest) ∧
  (∀ (m ch : Nat) (s : State), stopped s = false → domOn s (64 + m) = true → isF s MEMCTL_CTRL_RETRAIN_EN m = true → isF s MEMCTL_CTRL_EN m = true → isF s MEMCTL_STAT_RETRAINING m = false → isF s MEMCTL_STAT_PARKED m = false → (mcOf s m).due = [] → Does (.retrainDue m ch) s ([.reg MEMCTL_STAT_RT_CH, .reg MEMCTL_STAT_RETRAINING, .mcs]) fun u =>
      getF u MEMCTL_STAT_RETRAINING m = 1 ∧ getF u MEMCTL_STAT_RT_CH m = ch % 32) ∧
  (∀ (m : Nat) (s : State), stopped s = false → domOn s (64 + m) = true → isF s MEMCTL_STAT_RETRAINING m = true → Does (.retrainDone m) s ([.reg MEMCTL_STAT_RT_CH, .reg MEMCTL_STAT_RETRAINING, .reg MEMCTL_RETRAIN_CNT, .mcs]) fun u =>
      (mcOf u m).trained.get 0 (getF s MEMCTL_STAT_RT_CH m) = getF s MEMCTL_STAT_TEMP m + 1 ∧ getF u MEMCTL_RETRAIN_CNT m = (getF s MEMCTL_RETRAIN_CNT m + 1) % 2 ^ 32 ∧ ((∀ ch ∈ (mcOf s m).due, ch = getF s MEMCTL_STAT_RT_CH m) → getF u MEMCTL_STAT_RETRAINING m = 0)) ∧
  (∀ (m : Nat) (s : State), stopped s = false → domOn s (64 + m) = true → isF s MEMCTL_STAT_RETRAINING m = true → Does (.retrainTimeout m) s ([.reg MEMCTL_STAT_RT_CH, .reg MEMCTL_STAT_RETRAINING, evtPend 3, .mcs, .out]) fun u =>
      (getF u (pendFld 3) m).testBit MEMCTL_EV_TRAIN_FAIL.bit = true ∧ ((mcOf s m).due = [] → getF u MEMCTL_STAT_RETRAINING m = 0)) ∧
  (∀ (h : Nat) (s : State), stopped s = false → cmdReady s h 0x52 = true → s.window = none → Does (.maint h) s ([.window, .ctxs]) fun u =>
      u.window = some { handle := h, budgetMs := argOf (entryOf s h) 0 % 2 ^ 32 }) ∧
  (∀ (w : Window) (s : State), isAwake s = true → s.window = some w → w.started = false → anyOpen s 16 = false → Does (.maintWindowStart) s ([.reg MEMCTL_PAGE_LOST_CNT, .reg MEMCTL_PENDING_ROWS, .reg MEMCTL_PENDING_REMAP_USED, evtPend 3, .mcs, .window, .ctxs, .jwide, .out]) fun u =>
      u.window = some { w with started := true }) ∧
  (∀ (m : Nat) (spareLeft : Bool) (bad : List Nat) (chan row page : Nat) (s : State), stopped s = false → domOn s (64 + m) = true → (mcOf s m).repair = some (chan, row, page) → spareLeft = true → (mcOf s m).repStage = 2 → Does (.fieldRepairDone m ⟨spareLeft, bad⟩) s ([.reg MEMCTL_STAT_RT_CH, .reg MEMCTL_STAT_RETRAINING, .reg MEMCTL_STAT_PARKED, .reg MEMCTL_FIELD_REP_CNT, .reg MEMCTL_PAGE_LOST_CNT, .reg MEMCTL_PENDING_ROWS, .reg MEMCTL_PENDING_REMAP_USED, evtPend 3, .mem, .poison, .mcs, .window, .jwide, .out]) fun u =>
      getF u MEMCTL_FIELD_REP_CNT m = (getF s MEMCTL_FIELD_REP_CNT m + 1) % 2 ^ 32 ∧ u.window = s.window.map fun w => { w with repairs := w.repairs + 1 }) ∧
  (∀ (ms : Nat) (w : Window) (s : State), isAwake s = true → s.window = some w → w.started = true → repairing s 16 = false → w.budgetMs ≤ ms → Does (.maintWindowEnd ms) s ([.window, .reports]) fun u =>
      u.window = none ∧ u.reports = s.reports ++ [{ handle := w.handle, status := 0, r0 := w.repairs, r1 := pendingRows s 16 }]) ∧
  (∀ (m : Nat) (s : State), stopped s = false → domOn s (64 + m) = true → isF s MEMCTL_STAT_PARKED m = true → (mcOf s m).stalled = false → waitsOn s (m * 32 + getF s MEMCTL_STAT_PK_CH m) = true → Does (.parkStall m) s ([.reg MEMCTL_PARK_STALL_CNT, evtPend 3, .mcs, .out]) fun u =>
      getF u MEMCTL_PARK_STALL_CNT m = (getF s MEMCTL_PARK_STALL_CNT m + 1) % 2 ^ 32 ∧ (mcOf u m).stalled = true) ∧
  (∀ (h : Nat) (recd : List Byte) (s : State), isAwake s = true → cmdReady s h 0x50 = true → (anySpan s 0 256 || anySpan s 1 256 || anySpan s 2 256 || anySpan s 3 256) = false → 16 + 8 * leVal (recd.take 4) ≤ recd.length → crc32c ((recd.drop 16).take (8 * leVal (recd.take 4))) = leVal ((recd.drop 8).take 4) → recd.length ≤ argOf (entryOf s h) 1 → Does (.memrecImport h recd) s ([.reg MEMCTL_PENDING_ROWS, .reg MEMCTL_PENDING_REMAP_USED, .mcs, .ctxs, .reports]) fun u =>
      u.reports = s.reports ++ [{ handle := h, status := 0, r0 := leVal (recd.take 4), r1 := 0 }]) ∧
  (∀ (h : Nat) (s : State), isAwake s = true → cmdReady s h 0x51 = true → (repairRecord s).length ≤ argOf (entryOf s h) 1 → Does (.memrecExport h) s ([.hmem, .ctxs, .reports]) fun u =>
      Store.getAll (0 : Byte) u.hmem (argOf (entryOf s h) 0) (repairRecord s).length = repairRecord s ∧ (∀ j, j < argOf (entryOf s h) 0 ∨ argOf (entryOf s h) 0 + (repairRecord s).length ≤ j → Store.get (0 : Byte) u.hmem j = Store.get (0 : Byte) s.hmem j) ∧ u.reports = s.reports ++ [{ handle := h, status := 0, r0 := (repairRecord s).length, r1 := 0 }])

/-- Sluices: entering, the granted request leaving, missed and pinned deadlines.  Basis: R339,
R343, R345, R346, R348. The model's choices it rests on: log entry 105. -/
def Obligations.SluiceRequestsAndGrants : Prop :=
  (∀ (n r op acc dt : Nat) (key budget : Nat) (s : State), stopped s = false → domOn s (sluiceDomain n) = true → 536 ≤ n → n < 538 → slRoom s n = true → hubOp (slTick n dt s) n (r % 32) op = some (key, budget) → hubHas s n (r % 32) key = false → Does (.sluiceEnter n r op acc dt) s ([.reg SLUICE_NOW, .mcs, .sluices, .ports, .sendq]) fun u =>
      (sluiceOf u n).queue = (sluiceOf s n).queue ++ [{ r := r % 32, d := ((slNow s n + dt) % 2 ^ 16 + min budget 16384) % 2 ^ 16, entered := slClock s n + dt, beats := 1, pay := .op key }] ∧ slNow u n = (slNow s n + dt) % 2 ^ 16) ∧
  (∀ (n r op acc dt : Nat) (q : MemReq) (rest : List MemReq) (s : State), stopped s = false → domOn s (sluiceDomain n) = true → n < 512 → takeFirst (fun q => q.chan == n && memArrived (slTick n dt s) q && (!isF s MEMCTL_CTRL_MODE (n / 32) || decide (8 ≤ q.cls))) (mcOf s (n / 32)).issued = some (q, rest) → q.chan = n → slRoom s n = true → Does (.sluiceEnter n r op acc dt) s ([.reg SLUICE_NOW, .mcs, .sluices, .ports, .sendq]) fun u =>
      (mcOf u (n / 32)).issued = rest ∧ ∃ e, (sluiceOf u n).queue = (sluiceOf s n).queue ++ [e] ∧ e.pay = .mem q ∧ e.entered = slClock s n + dt) ∧
  (∀ (n dt : Nat) (r : Nat) (fresh : Bool) (q : SlReq) (rest : List SlReq) (k : Nat) (s : State), stopped s = false → domOn s (sluiceDomain n) = true → 536 ≤ n → n < 538 → slNext (slTick n dt s) n false (fun _ => true) = some (r, fresh) → takeFirst (fun x => x.r == r && true) (sluiceOf s n).queue = some (q, rest) → q.pay = .op k → Does (.sluiceGrant n dt) s ([.reg MEMCTL_STAT_PK_CH, .reg MEMCTL_STAT_PARKED, .reg SLUICE_DECISIONS, .reg SLUICE_NOW, .reg SLUICE_GRANT_CNT, .reg SLUICE_WAIT_CYC, .reg SLUICE_MAX_WAIT, .reg LINK_TX_FRAMES, .reg LINK_DETOUR_FRAMES, .mem, .poison, .mcs, .sluices, .ports, .out]) fun u =>
      (sluiceOf u n).queue = rest ∧ (fresh = true → (sluiceOf u n).last = r) ∧ (sluiceOf u n).granted = (sluiceOf s n).granted ++ [(q.r, k)]) ∧
  (∀ (n dt : Nat) (r : Nat) (fresh : Bool) (q : SlReq) (rest : List SlReq) (x : MemReq) (s : State), stopped s = false → domOn s (sluiceDomain n) = true → n < 512 → chanHeld s n = false → slNext (slTick n dt s) n (!isF s MEMCTL_CTRL_MODE (n / 32)) (memReady (slTick n dt s) n) = some (r, fresh) → takeFirst (fun x => x.r == r && memReady (slTick n dt s) n x) (sluiceOf s n).queue = some (q, rest) → q.pay = .mem x → Does (.sluiceGrant n dt) s ([.reg MEMCTL_STAT_PK_CH, .reg MEMCTL_STAT_PARKED, .reg SLUICE_DECISIONS, .reg SLUICE_NOW, .reg SLUICE_GRANT_CNT, .reg SLUICE_WAIT_CYC, .reg SLUICE_MAX_WAIT, .reg LINK_TX_FRAMES, .reg LINK_DETOUR_FRAMES, .mem, .poison, .mcs, .sluices, .ports, .out]) fun u =>
      (sluiceOf u n).queue = rest ∧ (mcOf u (n / 32)).serving = (mcOf s (n / 32)).serving ++ [x]) ∧
  (∀ (n dt : Nat) (s : State), stopped s = false → domOn s (sluiceDomain n) = true → Does (.sluiceDeadlineMiss n dt) s ([.reg SLUICE_NOW, .reg SLUICE_MISS_CNT, evtPend 5, .sluices, .out]) fun u =>
      slNow u n = (slNow s n + dt) % 2 ^ 16 ∧ ∀ q ∈ (sluiceOf u n).queue, slack (slNow u n) q < 0 → q.missed = true) ∧
  (∀ (n dt : Nat) (s : State), stopped s = false → domOn s (sluiceDomain n) = true → Does (.sluicePin n dt) s ([.reg SLUICE_PINNED_CNT, .reg SLUICE_NOW, evtPend 5, .sluices, .out]) fun u =>
      slNow u n = (slNow s n + dt) % 2 ^ 16 ∧ ∀ q ∈ (sluiceOf u n).queue, slack (slNow u n) q ≤ -16383 → q.pinned = true ∧ slack (slNow u n) q = -16383)

/-- Flags and barriers: SIGNAL adds, WAIT registers or is released, ARRIVE counts and releases.
The rows: signal, wait, arrive, waiterTableAdmit. Basis: R352, R354, R355, R356, R357, R359,
R361. The model's choices it rests on: log entry 105. -/
def Obligations.SynchronisationObjects : Prop :=
  (∀ (o : SyncOp) (r : List SyncOp) (s : State), stopped s = false → crossNext s 0x51 [] s.crossing = some (o, r) → stale s o = false → Does (.signal .crossing) s ([.reg SYNC_ERR_INFO_CODE, .reg SYNC_ERR_INFO_CLUSTER, .reg SYNC_SIGNALS, .reg SYNC_WAITS_DONE, .reg SYNC_BAR_RELEASE, .reg SYNC_STALE_SIG_CNT, .reg SYNC_SAT_CNT, evtPend 6, .objs, .releases, .crossing, .clusters, .ctxs, .reports, .out]) fun u =>
      u.crossing = r ∧ getF u SYNC_SIGNALS o.home = (getF s SYNC_SIGNALS o.home + 1) % 2 ^ 32 ∧ ((objOf s (objKey o.home 0 o.obj)).waiters = [] → (objOf u (objKey o.home 0 o.obj)).count = min 65535 ((objOf s (objKey o.home 0 o.obj)).count + o.count))) ∧
  (∀ (cl lid : Nat) (l : ListRun) (d : List Byte) (s : State), stopped s = false → listOf s cl lid = some l → l.desc = some d → l.st = .run → syncCode false d = 0 → bits (leVal (d.take 4)) 0 8 = 0x51 → crossBefore s (markOp l d (syncOpOf s cl l d)) ≤ Config.issueDepth → Does (.signal (.list cl lid true)) s ([.reg SYNC_ERR_INFO_CODE, .reg SYNC_ERR_INFO_CLUSTER, .reg SYNC_SIGNALS, .reg SYNC_WAITS_DONE, .reg SYNC_BAR_RELEASE, .reg SYNC_STALE_SIG_CNT, .reg SYNC_SAT_CNT, evtPend 6, .objs, .releases, .crossing, .clusters, .ctxs, .reports, .out]) fun u =>
      u.crossing = s.crossing ++ [markOp l d (syncOpOf s cl l d)]) ∧
  (∀ (o : SyncOp) (r : List SyncOp) (s : State), stopped s = false → crossNext s 0x52 [] s.crossing = some (o, r) → stale s o = false → (objOf s (objKey o.home 0 o.obj)).waiters = [] → (objOf s (objKey o.home 0 o.obj)).count < o.count → Does (.wait .crossing) s ([.reg SYNC_ERR_INFO_CODE, .reg SYNC_ERR_INFO_CLUSTER, .reg SYNC_SIGNALS, .reg SYNC_WAITS_DONE, .reg SYNC_BAR_RELEASE, .reg SYNC_STALE_SIG_CNT, .reg SYNC_SAT_CNT, evtPend 6, .objs, .releases, .crossing, .clusters, .ctxs, .reports, .out]) fun u =>
      u.crossing = r ∧ (objOf u (objKey o.home 0 o.obj)).waiters = [{ party := o.party, ctx := o.ctx, need := o.count, consume := opConsume o }]) ∧
  (∀ (o : SyncOp) (r : List SyncOp) (s : State), stopped s = false → crossNext s 0x52 [] s.crossing = some (o, r) → stale s o = false → (objOf s (objKey o.home 0 o.obj)).waiters = [] → o.count ≤ (objOf s (objKey o.home 0 o.obj)).count → Does (.wait .crossing) s ([.reg SYNC_ERR_INFO_CODE, .reg SYNC_ERR_INFO_CLUSTER, .reg SYNC_SIGNALS, .reg SYNC_WAITS_DONE, .reg SYNC_BAR_RELEASE, .reg SYNC_STALE_SIG_CNT, .reg SYNC_SAT_CNT, evtPend 6, .objs, .releases, .crossing, .clusters, .ctxs, .reports, .out]) fun u =>
      u.releases = s.releases ++ [⟨o.party, .ok⟩] ∧ (objOf u (objKey o.home 0 o.obj)).count = (if opConsume o then (objOf s (objKey o.home 0 o.obj)).count - o.count else (objOf s (objKey o.home 0 o.obj)).count) ∧ (objOf u (objKey o.home 0 o.obj)).waiters = []) ∧
  (∀ (o : SyncOp) (r : List SyncOp) (s : State), stopped s = false → crossNext s 0x53 [] s.crossing = some (o, r) → stale s o = false → (objOf s (objKey o.home 1 o.obj)).count + o.count < getFk s SYNC_BAR_CFG_N o.home o.obj → getFk s SYNC_BAR_CFG_N o.home o.obj ≤ 65535 → Does (.arrive .crossing) s ([.reg SYNC_ERR_INFO_CODE, .reg SYNC_ERR_INFO_CLUSTER, .reg SYNC_SIGNALS, .reg SYNC_WAITS_DONE, .reg SYNC_BAR_RELEASE, .reg SYNC_STALE_SIG_CNT, .reg SYNC_SAT_CNT, evtPend 6, .objs, .releases, .crossing, .clusters, .ctxs, .reports, .out]) fun u =>
      u.crossing = r ∧ (objOf u (objKey o.home 1 o.obj)).count = (objOf s (objKey o.home 1 o.obj)).count + o.count ∧ (objOf u (objKey o.home 1 o.obj)).gen = (objOf s (objKey o.home 1 o.obj)).gen ∧ ∃ a, (objOf u (objKey o.home 1 o.obj)).arrivals = (objOf s (objKey o.home 1 o.obj)).arrivals ++ [a] ∧ a.left = o.count ∧ a.party = o.party) ∧
  (∀ (o : SyncOp) (r : List SyncOp) (s : State), stopped s = false → crossNext s 0x53 [] s.crossing = some (o, r) → stale s o = false → (objOf s (objKey o.home 1 o.obj)).count + o.count = getFk s SYNC_BAR_CFG_N o.home o.obj → 0 < getFk s SYNC_BAR_CFG_N o.home o.obj → getFk s SYNC_BAR_CFG_N o.home o.obj ≤ 65535 → Does (.arrive .crossing) s ([.reg SYNC_ERR_INFO_CODE, .reg SYNC_ERR_INFO_CLUSTER, .reg SYNC_SIGNALS, .reg SYNC_WAITS_DONE, .reg SYNC_BAR_RELEASE, .reg SYNC_STALE_SIG_CNT, .reg SYNC_SAT_CNT, evtPend 6, .objs, .releases, .crossing, .clusters, .ctxs, .reports, .out]) fun u =>
      u.crossing = r ∧ (objOf u (objKey o.home 1 o.obj)).count = 0 ∧ (objOf u (objKey o.home 1 o.obj)).gen = ((objOf s (objKey o.home 1 o.obj)).gen + 1) % 256 ∧ getF u SYNC_BAR_RELEASE o.home = (getF s SYNC_BAR_RELEASE o.home + 1) % 2 ^ 32) ∧
  (∀ (home flag cyc : Nat) (o : SyncOp) (r : List SyncOp) (s : State), stopped s = false → takeFirst (fun o => o.op == 0x52 && o.home == home && o.obj == flag) s.crossing = some (o, r) → Does (.waiterTableAdmit home flag cyc) s ([.reg SYNC_WAITS_DONE, .reg SYNC_STALE_SIG_CNT, .reg SYNC_WAIT_FULL_CYC, evtPend 6, .objs, .releases, .crossing, .out]) fun u =>
      getF u SYNC_WAIT_FULL_CYC home = (getF s SYNC_WAIT_FULL_CYC home + cyc) % 2 ^ 32 ∧ ((objOf s (objKey home 0 flag)).waiters.length < 64 → u.crossing = r))

/-- SYNC registers: FLAG_OWN and BAR_CFG store and abandon on a change of owner, DBG_SET sets an
object. The rows: flagOwnWrite, barCfgWrite, dbgSet. Basis: R351, R363, R365. -/
def Obligations.SynchronisationRegisters : Prop :=
  (∀ (r : Requester) (a v : Nat) (i o : Nat) (s : State), a % 4 = 0 → target s r a = some (6, i, o) → gate s r 6 i o = .pass → i < 4 → 0x100 ≤ o → o < 0x200 → Does (.flagOwnWrite r a v) s (denied ++ ([.reg SYNC_ABANDONED_CNT, .reg SYNC_FLAG_OWN_OWNER, .reg SYNC_FLAG_OWN_VALID, .reg SYNC_EPOCH, evtPend 6, .objs, .releases, .out] : List Part)) fun u =>
      getFk u SYNC_FLAG_OWN_OWNER i ((o - 0x100) / 4) = bits v 0 4 ∧ getFk u SYNC_FLAG_OWN_VALID i ((o - 0x100) / 4) = bits v 4 1) ∧
  (∀ (r : Requester) (a v : Nat) (i o : Nat) (s : State), a % 4 = 0 → target s r a = some (6, i, o) → gate s r 6 i o = .pass → i < 4 → 0x100 ≤ o → o < 0x200 → ¬ (getFk s SYNC_FLAG_OWN_OWNER i ((o - 0x100) / 4) = bits v 0 4 ∧ getFk s SYNC_FLAG_OWN_VALID i ((o - 0x100) / 4) = bits v 4 1) → Does (.flagOwnWrite r a v) s (denied ++ ([.reg SYNC_ABANDONED_CNT, .reg SYNC_FLAG_OWN_OWNER, .reg SYNC_FLAG_OWN_VALID, .reg SYNC_EPOCH, evtPend 6, .objs, .releases, .out] : List Part)) fun u =>
      (∀ n < 4096, objOf u (objKey i 0 n) = if n / 64 = (o - 0x100) / 4 then {} else objOf s (objKey i 0 n)) ∧ (∀ n < 4096, n / 64 = (o - 0x100) / 4 → ∀ p ∈ objWaiters (objOf s (objKey i 0 n)), ⟨p, .abandoned⟩ ∈ u.releases)) ∧
  (∀ (r : Requester) (a v : Nat) (i o : Nat) (s : State), a % 4 = 0 → target s r a = some (6, i, o) → gate s r 6 i o = .pass → 0x200 ≤ o → o < 0x600 → bits v 0 16 ≠ 0 → ¬(i = 4 ∧ 64 ≤ (o - 0x200) / 4) → Does (.barCfgWrite r a v) s (denied ++ ([.reg SYNC_BAR_RELEASE, .reg SYNC_ABANDONED_CNT, .reg SYNC_BAR_CFG_N, .reg SYNC_BAR_CFG_OWNER, .reg SYNC_BAR_CFG_VALID, .reg SYNC_EPOCH, evtPend 6, .objs, .releases, .out] : List Part)) fun u =>
      getFk u SYNC_BAR_CFG_N i ((o - 0x200) / 4) = bits v 0 16 ∧ getFk u SYNC_BAR_CFG_OWNER i ((o - 0x200) / 4) = bits v 16 4 ∧ getFk u SYNC_BAR_CFG_VALID i ((o - 0x200) / 4) = bits v 20 1) ∧
  (∀ (r : Requester) (a v : Nat) (i o : Nat) (s : State), a % 4 = 0 → target s r a = some (6, i, o) → gate s r 6 i o = .pass → 0x200 ≤ o → o < 0x600 → bits v 0 16 ≠ 0 → ¬(i = 4 ∧ 64 ≤ (o - 0x200) / 4) → ¬ (getFk s SYNC_BAR_CFG_OWNER i ((o - 0x200) / 4) = bits v 16 4 ∧ getFk s SYNC_BAR_CFG_VALID i ((o - 0x200) / 4) = bits v 20 1) → Does (.barCfgWrite r a v) s (denied ++ ([.reg SYNC_BAR_RELEASE, .reg SYNC_ABANDONED_CNT, .reg SYNC_BAR_CFG_N, .reg SYNC_BAR_CFG_OWNER, .reg SYNC_BAR_CFG_VALID, .reg SYNC_EPOCH, evtPend 6, .objs, .releases, .out] : List Part)) fun u =>
      objOf u (objKey i 1 ((o - 0x200) / 4)) = {} ∧ u.releases = s.releases ++ (objWaiters (objOf s (objKey i 1 ((o - 0x200) / 4)))).map (fun p => ⟨p, .abandoned⟩)) ∧
  (∀ (r : Requester) (a v : Nat) (i : Nat) (s : State), a % 4 = 0 → target s r a = some (6, i, 0x618) → gate s r 6 i 0x618 = .pass → unlocked s = true → bits v 16 1 = 0 → i ≠ 4 → (∀ w ∈ (objOf s (objKey i 0 (bits v 17 12))).waiters.head?, bits v 0 16 < w.need) → Does (.dbgSet r a v) s (denied ++ ([.reg SYNC_WAITS_DONE, .reg SYNC_BAR_RELEASE, .reg SYNC_DBG_SET_CNT, evtPend 6, .objs, .releases, .out] : List Part)) fun u =>
      (objOf u (objKey i 0 (bits v 17 12))) = { objOf s (objKey i 0 (bits v 17 12)) with count := bits v 0 16, ovf := false } ∧ u.releases = s.releases ∧ getF u SYNC_DBG_SET_CNT i = (getF s SYNC_DBG_SET_CNT i + 1) % 2 ^ 32 ∧ evtSet u SYNC_EV_DBG_SET i = true) ∧
  (∀ (r : Requester) (a v : Nat) (i : Nat) (w : Waiter) (s : State), a % 4 = 0 → target s r a = some (6, i, 0x618) → gate s r 6 i 0x618 = .pass → unlocked s = true → bits v 16 1 = 0 → i ≠ 4 → (objOf s (objKey i 0 (bits v 17 12))).waiters = [w] → w.need ≤ bits v 0 16 → Does (.dbgSet r a v) s (denied ++ ([.reg SYNC_WAITS_DONE, .reg SYNC_BAR_RELEASE, .reg SYNC_DBG_SET_CNT, evtPend 6, .objs, .releases, .out] : List Part)) fun u =>
      (objOf u (objKey i 0 (bits v 17 12))).waiters = [] ∧ (objOf u (objKey i 0 (bits v 17 12))).count = (if w.consume then bits v 0 16 - w.need else bits v 0 16) ∧ u.releases = s.releases ++ [⟨w.party, .ok⟩]) ∧
  (∀ (r : Requester) (a v : Nat) (i : Nat) (s : State), a % 4 = 0 → target s r a = some (6, i, 0x618) → gate s r 6 i 0x618 = .pass → unlocked s = true → bits v 16 1 = 1 → bits v 17 12 < 256 → ¬(i = 4 ∧ 64 ≤ bits v 17 12) → bits v 0 16 < getFk s SYNC_BAR_CFG_N i (bits v 17 12) → Does (.dbgSet r a v) s (denied ++ ([.reg SYNC_WAITS_DONE, .reg SYNC_BAR_RELEASE, .reg SYNC_DBG_SET_CNT, evtPend 6, .objs, .releases, .out] : List Part)) fun u =>
      (objOf u (objKey i 1 (bits v 17 12))).count = bits v 0 16 ∧ (objOf u (objKey i 1 (bits v 17 12))).ovf = false ∧ u.releases = s.releases ∧ getF u SYNC_DBG_SET_CNT i = (getF s SYNC_DBG_SET_CNT i + 1) % 2 ^ 32 ∧ evtSet u SYNC_EV_DBG_SET i = true) ∧
  (∀ (r : Requester) (a v : Nat) (i : Nat) (s : State), a % 4 = 0 → target s r a = some (6, i, 0x618) → gate s r 6 i 0x618 = .pass → unlocked s = true → bits v 16 1 = 1 → bits v 17 12 < 256 → ¬(i = 4 ∧ 64 ≤ bits v 17 12) → 0 < getFk s SYNC_BAR_CFG_N i (bits v 17 12) → getFk s SYNC_BAR_CFG_N i (bits v 17 12) ≤ bits v 0 16 → bits v 0 16 < 2 * getFk s SYNC_BAR_CFG_N i (bits v 17 12) → Does (.dbgSet r a v) s (denied ++ ([.reg SYNC_WAITS_DONE, .reg SYNC_BAR_RELEASE, .reg SYNC_DBG_SET_CNT, evtPend 6, .objs, .releases, .out] : List Part)) fun u =>
      (objOf u (objKey i 1 (bits v 17 12))).count = bits v 0 16 - getFk s SYNC_BAR_CFG_N i (bits v 17 12) ∧ (objOf u (objKey i 1 (bits v 17 12))).gen = ((objOf s (objKey i 1 (bits v 17 12))).gen + 1) % 256 ∧ getF u SYNC_BAR_RELEASE i = (getF s SYNC_BAR_RELEASE i + 1) % 2 ^ 32)

/-- Check units: bytes feed the running CRC, INIT restarts it, FINAL stores the result and
compares. The rows: dataB, dataH, dataW, init, final. Basis: R458, R460, R461, R462, R463. -/
def Obligations.CheckUnits : Prop :=
  (∀ (r : Requester) (a v : Nat) (i : Nat) (s : State), a % 4 = 0 → target s r a = some (10, i, 0x100) → gate s r 10 i 0x100 = .pass → Does (.dataB r a v) s (denied ++ ([.reg CHECK_BYTES, .reg CHECK_RUN_LO, .reg CHECK_RUN_HI] : List Part)) fun u =>
      runReg u i = (leBytes 1 v).foldl (algByte (getF s CHECK_CTRL_ALG i)) (runReg s i) % 2 ^ algWidth (getF s CHECK_CTRL_ALG i) ∧ getF u CHECK_BYTES i = (getF s CHECK_BYTES i + 1) % 2 ^ 32) ∧
  (∀ (r : Requester) (a v : Nat) (i : Nat) (s : State), a % 4 = 0 → target s r a = some (10, i, 0x104) → gate s r 10 i 0x104 = .pass → Does (.dataH r a v) s (denied ++ ([.reg CHECK_BYTES, .reg CHECK_RUN_LO, .reg CHECK_RUN_HI] : List Part)) fun u =>
      runReg u i = (leBytes 2 v).foldl (algByte (getF s CHECK_CTRL_ALG i)) (runReg s i) % 2 ^ algWidth (getF s CHECK_CTRL_ALG i) ∧ getF u CHECK_BYTES i = (getF s CHECK_BYTES i + 2) % 2 ^ 32) ∧
  (∀ (r : Requester) (a v : Nat) (i : Nat) (s : State), a % 4 = 0 → target s r a = some (10, i, 0x108) → gate s r 10 i 0x108 = .pass → Does (.dataW r a v) s (denied ++ ([.reg CHECK_BYTES, .reg CHECK_RUN_LO, .reg CHECK_RUN_HI] : List Part)) fun u =>
      runReg u i = (leBytes 4 v).foldl (algByte (getF s CHECK_CTRL_ALG i)) (runReg s i) % 2 ^ algWidth (getF s CHECK_CTRL_ALG i) ∧ getF u CHECK_BYTES i = (getF s CHECK_BYTES i + 4) % 2 ^ 32) ∧
  (∀ (r : Requester) (a v : Nat) (i : Nat) (s : State), a % 4 = 0 → target s r a = some (10, i, 0x10) → gate s r 10 i 0x10 = .pass → v.testBit 2 = true → Does (.init r a v) s (denied ++ ([.reg CHECK_RUN_LO, .reg CHECK_RUN_HI] : List Part)) fun u =>
      runReg u i = algInit (getF s CHECK_CTRL_ALG i)) ∧
  (∀ (r : Requester) (a v : Nat) (i : Nat) (s : State), a % 4 = 0 → target s r a = some (10, i, 0x10) → gate s r 10 i 0x10 = .pass → v.testBit 3 = true → Does (.final r a v) s (denied ++ ([.reg CHECK_STAT_MATCH, .reg CHECK_FINALS, .reg CHECK_MISMATCH_CNT, .reg CHECK_RES_LO, .reg CHECK_RES_HI, evtPend 10, .out] : List Part)) fun u =>
      getF u CHECK_RES_LO i + 2 ^ 32 * getF u CHECK_RES_HI i = (runReg s i ^^^ algXor (getF s CHECK_CTRL_ALG i)) % 2 ^ 64 ∧ getF u CHECK_FINALS i = (getF s CHECK_FINALS i + 1) % 2 ^ 32 ∧ (isF s CHECK_CTRL_CMP_EN i = true → getF u CHECK_STAT_MATCH i = if runReg s i ^^^ algXor (getF s CHECK_CTRL_ALG i) = (getF s CHECK_EXP_LO i + 2 ^ 32 * getF s CHECK_EXP_HI i) % 2 ^ algWidth (getF s CHECK_CTRL_ALG i) then 1 else 0) ∧ (isF s CHECK_CTRL_CMP_EN i = true → ¬ runReg s i ^^^ algXor (getF s CHECK_CTRL_ALG i) = (getF s CHECK_EXP_LO i + 2 ^ 32 * getF s CHECK_EXP_HI i) % 2 ^ algWidth (getF s CHECK_CTRL_ALG i) → getF u CHECK_MISMATCH_CNT i = (getF s CHECK_MISMATCH_CNT i + 1) % 2 ^ 32 ∧ evtSet u CHECK_EV_MISMATCH i = true) ∧ ((isF s CHECK_CTRL_CMP_EN i = false ∨ runReg s i ^^^ algXor (getF s CHECK_CTRL_ALG i) = (getF s CHECK_EXP_LO i + 2 ^ 32 * getF s CHECK_EXP_HI i) % 2 ^ algWidth (getF s CHECK_CTRL_ALG i)) → getF u CHECK_MISMATCH_CNT i = getF s CHECK_MISMATCH_CNT i))

/-- Breakwater: each input begins the fault reaction with its cause. The rows: tempTrip,
residueMismatch, pairLockstep, watchdogExpire, comparatorDisagree, forceFault. Basis: R598,
R600, R601, R602, R603, R606. -/
def Obligations.BreakwaterTrips : Prop :=
  (∀ (k t : Nat) (l : Nat) (s : State), tripLevel k = some l → l ≤ t → isF s BRKW_STAT_FAULT 0 = false → Does (.tempTrip k t) s (everyReg ++ ([.sram, .mcs, .sluices, .clusters, .units, .seqs, .ports, .brk, .faultN, .gauge, .out] : List Part)) fun u =>
      u.faultN = true ∧ getF u BRKW_STAT_FAULT 0 = 1 ∧ getF u BRKW_STAT_CAUSE 0 = 2 ∧ getF u BRKW_FAULTS 0 = (getF s BRKW_FAULTS 0 + 1) % 2 ^ 32 ∧ evtSet u BRKW_EV_FAULT 0 = true) ∧
  (∀ (cl : Nat) (s : State), stopped s = false → domOn s (32 + cl / 8) = true → Does (.residueMismatch cl false) s (everyReg ++ ([.sram, .mcs, .sluices, .clusters, .units, .seqs, .ports, .faultN, .gauge, .out] : List Part)) fun u =>
      getF u BRKW_RESIDUE_REPEAT 0 = (getF s BRKW_RESIDUE_REPEAT 0 + 1) % 2 ^ 32) ∧
  (∀ (cl : Nat) (s : State), stopped s = false → domOn s (32 + cl / 8) = true → Does (.residueMismatch cl true) s (everyReg ++ ([.sram, .mcs, .sluices, .clusters, .units, .seqs, .ports, .faultN, .gauge, .out] : List Part)) fun u =>
      u.faultN = true ∧ getF u BRKW_STAT_FAULT 0 = 1 ∧ getF u BRKW_STAT_CAUSE 0 = 5 ∧ getF u BRKW_FAULTS 0 = (getF s BRKW_FAULTS 0 + 1) % 2 ^ 32 ∧ evtSet u BRKW_EV_FAULT 0 = true) ∧
  (∀ (p : Nat) (s : State), s.inReset = none → getF s PWR_STAT_STATE 0 ≠ 2 → p < 12 → s.brk.stopped.contains p = false → isF s BRKW_STAT_FAULT 0 = false → Does (.pairLockstep p) s (everyReg ++ ([.sram, .mcs, .sluices, .clusters, .units, .seqs, .ports, .brk, .faultN, .gauge, .out] : List Part)) fun u =>
      u.faultN = true ∧ getF u BRKW_STAT_FAULT 0 = 1 ∧ getF u BRKW_STAT_CAUSE 0 = 4 ∧ getF u BRKW_FAULTS 0 = (getF s BRKW_FAULTS 0 + 1) % 2 ^ 32 ∧ evtSet u BRKW_EV_FAULT 0 = true ∧ u.brk.stopped = s.brk.stopped ++ [p]) ∧
  (∀ (p : Nat) (s : State), s.inReset = none → getF s PWR_STAT_STATE 0 ≠ 2 → p < 12 → wdogArmed s p = true → isF s BRKW_STAT_FAULT 0 = false → Does (.watchdogExpire p) s (everyReg ++ ([.sram, .mcs, .sluices, .clusters, .units, .seqs, .ports, .faultN, .gauge, .out] : List Part)) fun u =>
      u.faultN = true ∧ getF u BRKW_STAT_FAULT 0 = 1 ∧ getF u BRKW_STAT_CAUSE 0 = 3 ∧ getF u BRKW_FAULTS 0 = (getF s BRKW_FAULTS 0 + 1) % 2 ^ 32 ∧ evtSet u BRKW_EV_FAULT 0 = true) ∧
  (∀ (ms : Nat) (s : State), 10 ≤ ms → Does (.comparatorDisagree ms) s ([.reg BRKW_STAT_LATENT, evtPend 15, .out]) fun u =>
      getF u BRKW_STAT_LATENT 0 = 1 ∧ evtSet u BRKW_EV_SELFTEST_FAIL 0 = true) ∧
  (∀ (r : Requester) (a v : Nat) (s : State), target s r a = some (15, 0, 0x10) → gate s r 15 0 0x10 = .pass → bit v 1 = true → unlocked s = true → isF s BRKW_STAT_FAULT 0 = false → Does (.forceFault r a v) s (everyReg ++ ([.sram, .mcs, .sluices, .clusters, .units, .seqs, .ports, .faultN, .gauge, .out] : List Part)) fun u =>
      u.faultN = true ∧ getF u BRKW_STAT_FAULT 0 = 1 ∧ getF u BRKW_STAT_CAUSE 0 = 7 ∧ getF u BRKW_FAULTS 0 = (getF s BRKW_FAULTS 0 + 1) % 2 ^ 32 ∧ evtSet u BRKW_EV_FAULT 0 = true)

/-- Breakwater: watchdog kicks, comparator self-test, log clearing and watchdog period.  Basis:
R601, R602, R607, R608. -/
def Obligations.BreakwaterRegisters : Prop :=
  (∀ (a v : Nat) (p o : Nat) (s : State), target s (.hubPair p) a = some (15, 0, o) → gate s (.hubPair p) 15 0 o = .pass → kickIndex 15 o = some p → v % 65536 = 0x5AA5 → s.brk.half.contains p = false → Does (.kick (.hubPair p) a v) s (denied ++ ([.reg BRKW_KICKS_BAD, evtPend 15, .brk, .out] : List Part)) fun u =>
      u.brk.half = s.brk.half ++ [p] ∧ getF u BRKW_KICKS_BAD 0 = getF s BRKW_KICKS_BAD 0) ∧
  (∀ (a v : Nat) (p o : Nat) (s : State), target s (.hubPair p) a = some (15, 0, o) → gate s (.hubPair p) 15 0 o = .pass → kickIndex 15 o = some p → v % 65536 = 0xA55A → s.brk.half.contains p = true → Does (.kick (.hubPair p) a v) s (denied ++ ([.reg BRKW_KICKS_BAD, evtPend 15, .brk, .out] : List Part)) fun u =>
      u.brk.half = s.brk.half.filter (· ≠ p) ∧ getF u BRKW_KICKS_BAD 0 = getF s BRKW_KICKS_BAD 0) ∧
  (∀ (a v : Nat) (p o q : Nat) (s : State), target s (.hubPair p) a = some (15, 0, o) → gate s (.hubPair p) 15 0 o = .pass → kickIndex 15 o = some q → p ≠ q → Does (.kick (.hubPair p) a v) s (denied ++ ([.reg BRKW_KICKS_BAD, evtPend 15, .brk, .out] : List Part)) fun u =>
      u.brk.half = s.brk.half.filter (· ≠ q) ∧ getF u BRKW_KICKS_BAD 0 = (getF s BRKW_KICKS_BAD 0 + 1) % 2 ^ 32 ∧ evtSet u BRKW_EV_KICK_BAD 0 = true) ∧
  (∀  (s : State), Does (.comparatorSelftest false) s ([.reg BRKW_STAT_LATENT, evtPend 15, .out]) fun u =>
      getF u BRKW_STAT_LATENT 0 = 1 ∧ evtSet u BRKW_EV_SELFTEST_FAIL 0 = true) ∧
  (∀ (a v : Nat) (s : State), target s .pf a = some (15, 0, 0x10) → gate s .pf 15 0 0x10 = .pass → bit v 0 = true → Does (.logClr .pf a v) s (denied ++ ([.reg BRKW_FAULTS, .reg BRKW_LOG_CNT, .reg BRKW_LOG_A_CAUSE, .reg BRKW_LOG_A_SOURCE, .reg BRKW_LOG_A_VALUE, .reg BRKW_LOG_B] : List Part)) fun u =>
      getF u BRKW_LOG_CNT 0 = 0 ∧ getF u BRKW_FAULTS 0 = 0 ∧ ∀ n < 8, getFk u BRKW_LOG_A_CAUSE 0 n = 0 ∧ getFk u BRKW_LOG_A_SOURCE 0 n = 0 ∧ getFk u BRKW_LOG_A_VALUE 0 n = 0 ∧ getFk u BRKW_LOG_B 0 n = 0) ∧
  (∀ (r : Requester) (a v : Nat) (s : State), target s r a = some (15, 0, 0x140) → gate s r 15 0 0x140 = .pass → s.brk.wdogSet = false → 10 ≤ v % 1024 → v % 1024 ≤ 1000 → Does (.wdogCfgWrite r a v) s (denied ++ ([.reg BRKW_WDOG_CFG_PERIOD_MS, .brk] : List Part)) fun u =>
      getF u BRKW_WDOG_CFG_PERIOD_MS 0 = v % 1024 ∧ u.brk.wdogSet = true)

/-- Boot mailbox, GO, image verification and OTP programming. The rows: mailboxWrite, go,
imageVerifyDone, progGo, otpProgDone. Basis: R540, R543, R546, R552, R553, R554, R555, R562. -/
def Obligations.BootAndOtp : Prop :=
  (∀ (off : Nat) (data : List Byte) (s : State), s.inReset = none → off + data.length ≤ mbxLen → bootState s ≠ 2 → bootState s ≠ 3 → Does (.mailboxWrite off data) s ([.reg BOOT_MBX_IGNORED, .mbx]) fun u =>
      mbxBytes u off data.length = data ∧ ∀ j, j < off ∨ off + data.length ≤ j → Store.get (0 : Byte) u.mbx j = Store.get (0 : Byte) s.mbx j) ∧
  (∀ (off : Nat) (data : List Byte) (s : State), s.inReset = none → off + data.length ≤ mbxLen → (bootState s = 2 ∨ bootState s = 3) → Does (.mailboxWrite off data) s ([.reg BOOT_MBX_IGNORED, .mbx]) fun u =>
      u.mbx = s.mbx ∧ getF u BOOT_MBX_IGNORED 0 = (getF s BOOT_MBX_IGNORED 0 + 1) % 2 ^ 32) ∧
  (∀ (r : Requester) (a v : Nat) (s : State), target s r a = some (18, 0, 0x10) → gate s r 18 0 0x10 = .pass → bit v 0 = true → (bootState s = 1 ∨ bootState s = 4 ∨ bootState s = 6) → Does (.go r a v) s (denied ++ ([.reg BOOT_STAT_STATE, .reg BOOT_STAT_ATTEMPTS] : List Part)) fun u =>
      bootState u = 2 ∧ getF u BOOT_STAT_ATTEMPTS 0 = min 8 (getF s BOOT_STAT_ATTEMPTS 0 + 1)) ∧
  (∀  (s : State), s.inReset = none → getF s PWR_STAT_STATE 0 ≠ 2 → bootState s = 2 → s.romProg = false → s.brk.stopped.contains 0 = false → Does (.imageVerifyDone) s ([.reg MEMCTL_STAT_READY, .reg BRKW_STAT_ARMED, .reg OTP_STAT_BUSY, .reg BOOT_STAT_STATE, .reg BOOT_STAT_REASON, .reg BOOT_STAT_OTP_FROZEN, .reg BOOT_FW_VERSION, .reg BOOT_FW_SVN_SVN, .reg BOOT_IMG_DIGEST, evtPend 18, .mcs, .otpq, .romProg, .brk, .out]) fun u =>
      (imageReason s = 0 → u = gateOpens s) ∧ (imageReason s ≠ 0 → bootState u = (if getF s BOOT_STAT_ATTEMPTS 0 = 8 then 5 else if otpHasValid s 4 then 4 else 6) ∧ getF u BOOT_STAT_REASON 0 = imageReason s ∧ evtSet u BOOT_EV_REJECTED 0 = true)) ∧
  (∀ (r : Requester) (a v : Nat) (s : State), target s r a = some (17, 0, 0x10) → gate s r 17 0 0x10 = .pass → bit v 0 = true → progAllowed s (getF s OTP_PROG_FIELD 0) (progData s (getF s OTP_PROG_FIELD 0)) = true → (otpNext s (getF s OTP_PROG_FIELD 0)).isSome = true → Does (.progGo r a v) s (denied ++ ([.reg OTP_STAT_BUSY, evtPend 17, .otpq, .out] : List Part)) fun u =>
      u.otpq = s.otpq ++ [{ field := getF s OTP_PROG_FIELD 0, value := progData s (getF s OTP_PROG_FIELD 0) }] ∧ getF u OTP_STAT_BUSY 0 = 1) ∧
  (∀ (r : Requester) (a v : Nat) (s : State), target s r a = some (17, 0, 0x10) → gate s r 17 0 0x10 = .pass → bit v 0 = true → progAllowed s (getF s OTP_PROG_FIELD 0) (progData s (getF s OTP_PROG_FIELD 0)) = false → Does (.progGo r a v) s (denied ++ ([.reg OTP_STAT_BUSY, evtPend 17, .otpq, .out] : List Part)) fun u =>
      u.otpq = s.otpq ∧ evtSet u OTP_EV_DENIED 0 = true) ∧
  (∀ (q : OtpReq) (rest : List OtpReq) (g off len slot : Nat) (cls : OtpCls) (s : State), s.otpq = q :: rest → q.rom = false → otpNext s q.field = some g → otpField q.field = some (off, len, slot, cls) → Does (.otpProgDone true) s ([.reg MEMCTL_STAT_READY, .reg BRKW_STAT_ARMED, .reg OTP_STAT_BUSY, .reg OTP_PROG_CNT, .reg OTP_PROG_FAIL_CNT, evtPend 17, .reg BOOT_STAT_STATE, .reg BOOT_STAT_REASON, .reg BOOT_STAT_OTP_FROZEN, .reg BOOT_FW_VERSION, .reg BOOT_FW_SVN_SVN, .reg BOOT_IMG_DIGEST, evtPend 18, .otp, .mcs, .otpq, .romProg, .bootKeys, .brk, .out]) fun u =>
      otpBytes u (off + slot * g) (slotBytes q.value true).length = slotBytes q.value true ∧ u.otpq = rest ∧ getF u OTP_PROG_CNT 0 = (getF s OTP_PROG_CNT 0 + 1) % 2 ^ 32) ∧
  (∀ (q : OtpReq) (rest : List OtpReq) (g : Nat) (s : State), s.otpq = q :: rest → q.rom = false → otpNext s q.field = some g → Does (.otpProgDone false) s ([.reg MEMCTL_STAT_READY, .reg BRKW_STAT_ARMED, .reg OTP_STAT_BUSY, .reg OTP_PROG_CNT, .reg OTP_PROG_FAIL_CNT, evtPend 17, .reg BOOT_STAT_STATE, .reg BOOT_STAT_REASON, .reg BOOT_STAT_OTP_FROZEN, .reg BOOT_FW_VERSION, .reg BOOT_FW_SVN_SVN, .reg BOOT_IMG_DIGEST, evtPend 18, .otp, .mcs, .otpq, .romProg, .bootKeys, .brk, .out]) fun u =>
      u.otpq = rest ∧ getF u OTP_PROG_FAIL_CNT 0 = (getF s OTP_PROG_FAIL_CNT 0 + 1) % 2 ^ 32 ∧ evtSet u OTP_EV_PROG_FAIL 0 = true)

/-- Identity, attestation and debug unlock. The rows: idReady, attest, challenge, unlockGo,
unlockCheckDone, relock. Basis: R558, R559, R560, R638, R639, R640, R642. -/
def Obligations.AttestationAndUnlock : Prop :=
  (∀  (s : State), s.inReset = none → getF s PWR_STAT_STATE 0 ≠ 2 → bootState s = 3 → Does (.idReady) s ([.reg BOOT_STAT_ID_READY]) fun u =>
      getF u BOOT_STAT_ID_READY 0 = 1) ∧
  (∀ (h : Nat) (s : State), stopped s = false → isF s BOOT_STAT_ID_READY 0 = true → cmdReady s h 3 = true → (bit (dbgPolicy s) 1 && unlocked s) = false → Does (.attest h) s ([.reg HOSTIF_DENIED_CNT, .reg HOSTIF_ERR_INFO_FUNCTION, .reg HOSTIF_ERR_INFO_EVENT, evtPend 11, .hmem, .ctxs, .reports, .out, .freeCtr]) fun u =>
      u.hmem = Store.putAll 0 (argOf (entryOf s h) 0) (attestBody s (entryOf s h) ++ signBoth (devSecret s) (attestBody s (entryOf s h)) s.freeCtr) s.hmem ∧ u.reports = s.reports ++ [{ handle := h, status := 0, r0 := 36800, r1 := 0 }]) ∧
  (∀ (h : Nat) (s : State), stopped s = false → isF s BOOT_STAT_ID_READY 0 = true → cmdReady s h 3 = true → (bit (dbgPolicy s) 1 && unlocked s) = true → Does (.attest h) s ([.reg HOSTIF_DENIED_CNT, .reg HOSTIF_ERR_INFO_FUNCTION, .reg HOSTIF_ERR_INFO_EVENT, evtPend 11, .hmem, .ctxs, .reports, .out, .freeCtr]) fun u =>
      u.hmem = s.hmem ∧ u.reports = s.reports ++ [{ handle := h, status := 2, r0 := 0, r1 := 0 }]) ∧
  (∀ (r : Requester) (a v : Nat) (s : State), target s r a = some (19, 0, 0x10) → gate s r 19 0 0x10 = .pass → bit v 0 = true → Does (.challenge r a v) s (denied ++ ([.reg DEBUG_CHAL, .dbg, .freeCtr] : List Part)) fun u =>
      u.dbg.chal = true ∧ u.freeCtr = s.freeCtr + 8 ∧ ∀ n < 8, getFk u DEBUG_CHAL 0 n = (Config.freeWord (s.freeCtr + n)).toNat) ∧
  (∀ (r : Requester) (a v : Nat) (s : State), target s r a = some (19, 0, 0x10) → gate s r 19 0 0x10 = .pass → bit v 1 = true → isF s DEBUG_STAT_BUSY 0 = false → Does (.unlockGo r a v) s (denied ++ ([.reg DEBUG_STAT_BUSY, .dbg] : List Part)) fun u =>
      getF u DEBUG_STAT_BUSY 0 = 1 ∧ u.dbg = { chal := false, check := if s.dbg.chal then some (chalBytes s) else none }) ∧
  (∀  (s : State), s.inReset = none → getF s PWR_STAT_STATE 0 ≠ 2 → isF s DEBUG_STAT_BUSY 0 = true → s.brk.stopped.contains 0 = false → Does (.unlockCheckDone) s ([.reg MEMCTL_STAT_PARKED, .reg MEMCTL_ERR_INFO_CHAN, .reg MEMCTL_ERR_INFO_ROW, .reg MEMCTL_ERR_INFO_CLASS, .reg MEMCTL_CE_CNT, .reg MEMCTL_UE_CNT, .reg MEMCTL_ROW_FAIL_CNT, .reg MEMCTL_PAGE_LOST_CNT, .reg MEMCTL_ADDR_FAULT_CNT, .reg MEMCTL_PENDING_ROWS, .reg MEMCTL_PENDING_REMAP_USED, evtPend 3, .reg DEBUG_STAT_UNLOCKED, .reg DEBUG_STAT_EVER, .reg DEBUG_STAT_BUSY, .reg DEBUG_STAT_RESULT, .reg DEBUG_UNLOCK_CNT, .reg DEBUG_FAIL_CNT, evtPend 19, .mcs, .jwide, .dbg, .out]) fun u =>
      getF u DEBUG_STAT_BUSY 0 = 0 ∧ getF u DEBUG_STAT_RESULT 0 = (tokenCheck s).1 ∧ u.dbg.check = none ∧ ((tokenCheck s).1 = 1 → unlocked u = true ∧ getF u DEBUG_STAT_EVER 0 = 1 ∧ getF u DEBUG_UNLOCK_CNT 0 = (getF s DEBUG_UNLOCK_CNT 0 + 1) % 2 ^ 32) ∧ ((tokenCheck s).1 ≠ 1 → unlocked u = unlocked s ∧ getF u DEBUG_FAIL_CNT 0 = (getF s DEBUG_FAIL_CNT 0 + 1) % 2 ^ 32 ∧ evtSet u DEBUG_EV_UNLOCK_FAIL 0 = true) ∧ (bit (dbgPolicy s) 0 = true → (tokenCheck s).1 = 2)) ∧
  (∀ (r : Requester) (a v : Nat) (s : State), target s r a = some (19, 0, 0x10) → gate s r 19 0 0x10 = .pass → bit v 2 = true → Does (.relock r a v) s (denied ++ ([.reg DEBUG_STAT_UNLOCKED] : List Part)) fun u =>
      unlocked u = false)

/-- Command queues: doorbells, enable, fetch, start, INVALID, DENIED, completion and vectors.
The rows: sqTail, sqEnable, sqEntryFetch, commandStart, completionReport, cqHead, coalesceTimer.
Basis: R513, R514, R515, R516, R520, R521, R523, R531, R534. -/
def Obligations.CommandQueues : Prop :=
  (∀ (r : Requester) (a v : Nat) (c q : Nat) (s : State), a % 4 = 0 → target s r a = some (12, c, 0x10C + 64 * q) → gate s r 12 c (0x10C + 64 * q) = .pass → q < 4 → v % 65536 < sqSize s c q → Does (.sqTail r a v) s (denied ++ ([.reg CQ_SQ_TAIL, .reg CQ_ERR_INFO_QUEUE, .reg CQ_ERR_INFO_INDEX, evtPend 12, .out] : List Part)) fun u =>
      getFk u CQ_SQ_TAIL c q = v % 65536) ∧
  (∀ (r : Requester) (a v : Nat) (c q : Nat) (s : State), a % 4 = 0 → target s r a = some (12, c, 0x10C + 64 * q) → gate s r 12 c (0x10C + 64 * q) = .pass → q < 4 → sqSize s c q ≤ v % 65536 → Does (.sqTail r a v) s (denied ++ ([.reg CQ_SQ_TAIL, .reg CQ_ERR_INFO_QUEUE, .reg CQ_ERR_INFO_INDEX, evtPend 12, .out] : List Part)) fun u =>
      getFk u CQ_SQ_TAIL c q = getFk s CQ_SQ_TAIL c q ∧ evtSet u CQ_EV_SQ_FAULT c = true) ∧
  (∀ (r : Requester) (a v : Nat) (c q : Nat) (s : State), a % 4 = 0 → target s r a = some (12, c, 0x108 + 64 * q) → gate s r 12 c (0x108 + 64 * q) = .pass → q < 4 → rangesOk v (fldsAt 12 (0x108 + 64 * q)) = true → Does (.sqEnable r a v) s (denied ++ ([.reg CQ_SQ_CFG_EN, .ctxs] : List Part)) fun u =>
      getFk u CQ_SQ_CFG_EN c q = bits v 8 1 ∧ (queueOf u c q).halted = ((queueOf s c q).halted && !(getFk s CQ_SQ_CFG_EN c q == 0 && bit v 8))) ∧
  (∀ (c q : Nat) (entry : List Byte) (n : Nat) (x : Ctx) (s : State), stopped s = false → c < 16 → q < 4 → sqFetches s c q = true → nextSlot (ctxOf s c) = some (n, x) → Does (.sqEntryFetch c q true entry) s ([.reg CQ_ACCEPTED, .reg CQ_COMPLETED, .reg CQ_SLOTS_USED, .reg CQ_SQ_HEAD, .reg CQ_CQ_TAIL, .reg CQ_ERR_INFO_QUEUE, .reg CQ_ERR_INFO_INDEX, evtPend 12, .hmem, .ctxs, .out]) fun u =>
      (slotOf u c n).inUse = true ∧ (slotOf u c n).started = false ∧ (slotOf u c n).entry = (entry ++ zeros 64).take 64 ∧ getFk u CQ_SQ_HEAD c q = (getFk s CQ_SQ_HEAD c q + 1) % sqSize s c q % 65536 ∧ (queueOf u c q).waiting = (queueOf s c q).waiting ++ [n]) ∧
  (∀ (c q : Nat) (n : Nat) (rest : List Nat) (s : State), stopped s = false → (queueOf s c q).waiting = n :: rest → mayStart s c q (slotOf s c n).entry = true → cmdValid (slotOf s c n).entry = true → cmdDenied s c (slotOf s c n).entry = false → Does (.commandStart c q) s ([.reg HOSTIF_DENIED_CNT, .reg HOSTIF_ERR_INFO_FUNCTION, .reg HOSTIF_ERR_INFO_EVENT, evtPend 11, .ctxs, .reports, .out]) fun u =>
      (slotOf u c n).started = true ∧ (slotOf u c n).running = (slotOf s c n).running ∧ (queueOf u c q).waiting = rest ∧ (queueOf u c q).active = (queueOf s c q).active ++ [n] ∧ u.reports = s.reports) ∧
  (∀ (c q : Nat) (n : Nat) (rest : List Nat) (s : State), stopped s = false → (queueOf s c q).waiting = n :: rest → mayStart s c q (slotOf s c n).entry = true → cmdValid (slotOf s c n).entry = false → Does (.commandStart c q) s ([.reg HOSTIF_DENIED_CNT, .reg HOSTIF_ERR_INFO_FUNCTION, .reg HOSTIF_ERR_INFO_EVENT, evtPend 11, .ctxs, .reports, .out]) fun u =>
      u.reports = s.reports ++ [{ handle := handleOf c n (slotOf s c n).gen, status := 1, r0 := 0, r1 := 0 }] ∧ (queueOf u c q).waiting = rest) ∧
  (∀ (c q : Nat) (n : Nat) (rest : List Nat) (s : State), stopped s = false → (queueOf s c q).waiting = n :: rest → mayStart s c q (slotOf s c n).entry = true → cmdValid (slotOf s c n).entry = true → cmdDenied s c (slotOf s c n).entry = true → Does (.commandStart c q) s ([.reg HOSTIF_DENIED_CNT, .reg HOSTIF_ERR_INFO_FUNCTION, .reg HOSTIF_ERR_INFO_EVENT, evtPend 11, .ctxs, .reports, .out]) fun u =>
      u.reports = s.reports ++ [{ handle := handleOf c n (slotOf s c n).gen, status := 2, r0 := 0, r1 := 0 }] ∧ getF u HOSTIF_DENIED_CNT 0 = (getF s HOSTIF_DENIED_CNT 0 + 1) % 2 ^ 32) ∧
  (∀ (n : Nat) (r : Report) (rest : List Report) (s : State), stopped s = false → takeAt n s.reports = some (r, rest) → handleLive s r.handle = true → cqStuck s (hCtx r.handle) (slotOf s (hCtx r.handle) (hSlot r.handle)).sq = false → reportBehind s n r = false → Does (.completionReport n) s ([.reg CQ_ACCEPTED, .reg CQ_COMPLETED, .reg CQ_STALE_CNT, .reg CQ_SLOTS_USED, .reg CQ_CQ_TAIL, evtPend 12, .hmem, .ctxs, .reports, .out]) fun u =>
      u.reports = rest ∧ handleLive u r.handle = false) ∧
  (∀ (n : Nat) (r : Report) (rest : List Report) (s : State), stopped s = false → takeAt n s.reports = some (r, rest) → handleLive s r.handle = false → reportBehind s n r = false → Does (.completionReport n) s ([.reg CQ_ACCEPTED, .reg CQ_COMPLETED, .reg CQ_STALE_CNT, .reg CQ_SLOTS_USED, .reg CQ_CQ_TAIL, evtPend 12, .hmem, .ctxs, .reports, .out]) fun u =>
      u.reports = rest ∧ getF u CQ_STALE_CNT (hCtx r.handle) = (getF s CQ_STALE_CNT (hCtx r.handle) + 1) % 2 ^ 32 ∧ evtSet u CQ_EV_STALE (hCtx r.handle) = true) ∧
  (∀ (r : Requester) (a v waited : Nat) (c q : Nat) (s : State), a % 4 = 0 → target s r a = some (12, c, 0x120 + 64 * q) → gate s r 12 c (0x120 + 64 * q) = .pass → q < 4 → Does (.cqHead r a v waited) s (denied ++ ([.reg CQ_ACCEPTED, .reg CQ_COMPLETED, .reg CQ_CQ_FULL_HCLK, .reg CQ_SLOTS_USED, .reg CQ_CQ_HEAD, .reg CQ_CQ_TAIL, .hmem, .ctxs, .out] : List Part)) fun u =>
      getFk u CQ_CQ_HEAD c q = v % 2 ^ 20) ∧
  (∀ (c q : Nat) (s : State), stopped s = false → (queueOf s c q).coal ≠ 0 → getFk s CQ_CQ_CFG_COAL_US c q ≠ 0 → Does (.coalesceTimer c q) s ([.ctxs, .out]) fun u =>
      u.out = s.out ++ [.msix (ownerFn s c) q] ∧ (queueOf u c q).coal = 0)

/-- BAR2 accesses, NOP and SET_SEED. The rows: bar2Read, bar2Write, nop, setSeed. Basis: R510,
R511, R525, R526, R537. -/
def Obligations.Bar2AndSimpleCommands : Prop :=
  (∀ (off n : Nat) (bs : List Byte) (s : State), isAwake s = true → isF s HOSTIF_BAR2_CTRL_EN 0 = true → memRead s 0 (bar2Addr s off) n = .data bs → Does (.bar2Read off n) s ([.reg MEMCTL_STAT_PARKED, .reg MEMCTL_ERR_INFO_CHAN, .reg MEMCTL_ERR_INFO_ROW, .reg MEMCTL_ERR_INFO_CLASS, .reg MEMCTL_CE_CNT, .reg MEMCTL_UE_CNT, .reg MEMCTL_ROW_FAIL_CNT, .reg MEMCTL_PAGE_LOST_CNT, .reg MEMCTL_ADDR_FAULT_CNT, .reg MEMCTL_PENDING_ROWS, .reg MEMCTL_PENDING_REMAP_USED, evtPend 3, .reg HOSTIF_BAR2_FAULT_CNT, .reg HOSTIF_ERR_INFO_FUNCTION, .reg HOSTIF_ERR_INFO_EVENT, evtPend 11, .mcs, .jwide, .out, .freeCtr]) fun u =>
      u = emit (.bar2 bs) (correctAll (weakRows s 0 (bar2Addr s off) n) s)) ∧
  (∀ (off n : Nat) (s : State), isAwake s = true → isF s HOSTIF_BAR2_CTRL_EN 0 = false → Does (.bar2Read off n) s ([.reg MEMCTL_STAT_PARKED, .reg MEMCTL_ERR_INFO_CHAN, .reg MEMCTL_ERR_INFO_ROW, .reg MEMCTL_ERR_INFO_CLASS, .reg MEMCTL_CE_CNT, .reg MEMCTL_UE_CNT, .reg MEMCTL_ROW_FAIL_CNT, .reg MEMCTL_PAGE_LOST_CNT, .reg MEMCTL_ADDR_FAULT_CNT, .reg MEMCTL_PENDING_ROWS, .reg MEMCTL_PENDING_REMAP_USED, evtPend 3, .reg HOSTIF_BAR2_FAULT_CNT, .reg HOSTIF_ERR_INFO_FUNCTION, .reg HOSTIF_ERR_INFO_EVENT, evtPend 11, .mcs, .jwide, .out, .freeCtr]) fun u =>
      u.out.getLast? = some (.bar2 (List.replicate n 0xFF)) ∧ getF u HOSTIF_BAR2_FAULT_CNT 0 = (getF s HOSTIF_BAR2_FAULT_CNT 0 + 1) % 2 ^ 32) ∧
  (∀ (off : Nat) (data : List Byte) (j k chan page o : Nat) (b : Byte) (s : State), isAwake s = true → isF s HOSTIF_BAR2_CTRL_EN 0 = true → firstMiss s 0 (bar2Addr s off) data.length = none → data[j]? = some b → lookup s 0 (bar2Addr s off + j) = .hit chan page o → redirect s chan page o = some k → (∀ i, j < i → i < data.length → ∀ c p o, lookup s 0 (bar2Addr s off + i) = .hit c p o → redirect s c p o ≠ some k) → Does (.bar2Write off data) s ([.reg MEMCTL_ADDR_FAULT_CNT, evtPend 3, .reg HOSTIF_BAR2_FAULT_CNT, .reg HOSTIF_ERR_INFO_FUNCTION, .reg HOSTIF_ERR_INFO_EVENT, evtPend 11, .mem, .poison, .out]) fun u =>
      Store.get (0 : Byte) u.mem k = b ∧ u.out = s.out) ∧
  (∀ (off : Nat) (data : List Byte) (l : Lookup) (s : State), isAwake s = true → isF s HOSTIF_BAR2_CTRL_EN 0 = true → firstMiss s 0 (bar2Addr s off) data.length = some l → Does (.bar2Write off data) s ([.reg MEMCTL_ADDR_FAULT_CNT, evtPend 3, .reg HOSTIF_BAR2_FAULT_CNT, .reg HOSTIF_ERR_INFO_FUNCTION, .reg HOSTIF_ERR_INFO_EVENT, evtPend 11, .mem, .poison, .out]) fun u =>
      u.mem = s.mem ∧ getF u HOSTIF_BAR2_FAULT_CNT 0 = (getF s HOSTIF_BAR2_FAULT_CNT 0 + 1) % 2 ^ 32 ∧ evtSet u HOSTIF_EV_BAR2_FAULT 0 = true) ∧
  (∀ (h : Nat) (s : State), stopped s = false → cmdReady s h 1 = true → Does (.nop h) s ([.ctxs, .reports]) fun u =>
      u.reports = s.reports ++ [{ handle := h, status := 0, r0 := 0, r1 := 0 }] ∧ (slotOf u (hCtx h) (hSlot h)).running = true) ∧
  (∀ (h : Nat) (s : State), stopped s = false → cmdReady s h 0x10 = true → stepIsOpen s (hCtx h) = false → Does (.setSeed h) s ([.ctxs, .reports]) fun u =>
      u.reports = s.reports ++ [{ handle := h, status := 0, r0 := 0, r1 := 0 }] ∧ (ctxOf u (hCtx h)).seed = some (argOf (entryOf s h) 0)) ∧
  (∀ (h : Nat) (s : State), stopped s = false → cmdReady s h 0x10 = true → stepIsOpen s (hCtx h) = true → Does (.setSeed h) s ([.ctxs, .reports]) fun u =>
      u.reports = s.reports ++ [{ handle := h, status := 8, r0 := 0, r1 := 0 }] ∧ (ctxOf u (hCtx h)).seed = (ctxOf s (hCtx h)).seed)

/-- Throttle steps: the stack, region and power samples move them and each region takes the
highest. The rows: stackTempSample, stackThrottleStep, regionTempSample, powerSample. Basis:
R329, R330, R331, R577, R578, R579. -/
def Obligations.ThermalAndPowerSteps : Prop :=
  (∀ (m t : Nat) (s : State), stopped s = false → domOn s (64 + m) = true → m < 16 → Does (.stackTempSample m t) s ([.reg MEMCTL_STAT_RT_CH, .reg MEMCTL_STAT_RETRAINING, .reg MEMCTL_STAT_REF_X2, .reg MEMCTL_STAT_THROTTLE, .reg MEMCTL_STAT_TEMP, evtPend 3, .mcs, .jwide, .out]) fun u =>
      getF u MEMCTL_STAT_TEMP m = t % 256 ∧ isF u MEMCTL_STAT_REF_X2 m = (if 85 ≤ t then true else if t ≤ 83 then false else isF s MEMCTL_STAT_REF_X2 m) ∧ isF u MEMCTL_STAT_THROTTLE m = (isF s MEMCTL_STAT_THROTTLE m || decide (getF s MEMCTL_THERM_THROTTLE_C m ≤ t))) ∧
  (∀ (m : Nat) (s : State), stopped s = false → domOn s (64 + m) = true → m < 16 → isF s MEMCTL_STAT_THROTTLE m = true → s.brk.stopped.contains (5 + 2 * (m / 4)) = false → Does (.stackThrottleStep m) s ([.reg MEMCTL_STAT_THROTTLE, .reg THERM_STEP_DOWN, .reg THERM_STEP_UP, .reg THERM_REGION_TSTEP, .reg THERM_REGION_CAUSE, evtPend 14, .jwide, .pow, .out]) fun u =>
      u.pow.stack.get {} m = (s.pow.stack.get {} m).next (decide (getF s MEMCTL_THERM_THROTTLE_C m ≤ getF s MEMCTL_STAT_TEMP m)) (decide (getF s MEMCTL_STAT_TEMP m ≤ getF s MEMCTL_THERM_THROTTLE_C m - getF s MEMCTL_THERM_HYST_C m)) ∧ ∀ rg ∈ regionsUnder m, getFk u THERM_REGION_TSTEP 0 rg = (stepInForce u rg).1 % 8) ∧
  (∀ (rg t : Nat) (s : State), s.inReset = none → getF s PWR_STAT_STATE 0 ≠ 2 → rg < 32 → s.brk.stopped.contains (5 + 2 * (rg / 8)) = false → Does (.regionTempSample rg t) s ([.reg THERM_STEP_DOWN, .reg THERM_STEP_UP, .reg THERM_REGION_TEMP, .reg THERM_REGION_TSTEP, .reg THERM_REGION_CAUSE, evtPend 14, .jwide, .pow, .out]) fun u =>
      u.pow.own.get {} rg = (s.pow.own.get {} rg).next (decide (getF s THERM_CFG_THR_C 0 ≤ t)) (decide (t ≤ getF s THERM_CFG_THR_C 0 - getF s THERM_CFG_HYST_C 0)) ∧ getFk u THERM_REGION_TSTEP 0 rg = (stepInForce u rg).1 % 8 ∧ getFk u THERM_REGION_TEMP 0 rg = t % 256) ∧
  (∀ (w : Nat) (s : State), s.inReset = none → getF s PWR_STAT_STATE 0 ≠ 2 → s.brk.stopped.contains 3 = false → Does (.powerSample w) s ([.reg PWR_POWER, .reg THERM_STEP_DOWN, .reg THERM_STEP_UP, .reg THERM_REGION_TSTEP, .reg THERM_REGION_CAUSE, evtPend 14, .jwide, .pow, .out]) fun u =>
      getF u PWR_POWER 0 = w % 2 ^ 12 ∧ u.pow.cap = s.pow.cap.next (decide (getF s PWR_CAP 0 < w)) (decide (100 * w ≤ 95 * getF s PWR_CAP 0)) ∧ ∀ rg < 32, getFk u THERM_REGION_TSTEP 0 rg = (stepInForce u rg).1 % 8)

/-- Supply events: droop, dip, recovery, record and hold-off. The rows: droopStretch, railDip,
railRecover, supplyEvt, holdoffEnd. Basis: R569, R570, R571, R572, R574. -/
def Obligations.SupplyEvents : Prop :=
  (∀ (d : Nat) (s : State), stopped s = false → d < 4 → Does (.droopStretch d) s ([.reg PWR_STRETCH_CNT]) fun u =>
      getFk u PWR_STRETCH_CNT 0 d = (getFk s PWR_STRETCH_CNT 0 d + 1) % 2 ^ 32) ∧
  (∀ (r mv : Nat) (l : Nat × Nat × Nat) (s : State), s.inReset = none → railLevels r = some l → mv < l.1 → railDipped s r = false → Does (.railDip r mv) s ([.reg PWR_STAT_DIP, .reg PWR_STAT_RAIL, .reg PWR_DIP_CNT, .reg PWR_RAIL_MIN, evtPend 13, .pow, .out]) fun u =>
      u.pow.dips = s.pow.dips ++ [{ rail := r }] ∧ getF u PWR_STAT_DIP 0 = 1 ∧ getF u PWR_STAT_RAIL 0 = r ∧ getFk u PWR_RAIL_MIN 0 r = mv % 2 ^ 16 ∧ getF u PWR_DIP_CNT 0 = (getF s PWR_DIP_CNT 0 + 1) % 2 ^ 32 ∧ evtSet u PWR_EV_DIP 0 = true) ∧
  (∀ (r mv us : Nat) (d : Dip) (s : State), stopped s = false → (s.pow.dips.find? fun d => d.rail == r) = some d → Does (.railRecover r mv us) s ([.reg MEMCTL_STAT_PARKED, .reg MEMCTL_ERR_INFO_CHAN, .reg MEMCTL_ERR_INFO_ROW, .reg MEMCTL_ERR_INFO_CLASS, .reg MEMCTL_CE_CNT, .reg MEMCTL_UE_CNT, .reg MEMCTL_ROW_FAIL_CNT, .reg MEMCTL_PAGE_LOST_CNT, .reg MEMCTL_ADDR_FAULT_CNT, .reg MEMCTL_PENDING_ROWS, .reg MEMCTL_PENDING_REMAP_USED, evtPend 3, .reg LINK_STAT_DETOUR, evtPend 7, .reg COLL_ORIG, .reg CULVERT_SUSPECT_CNT, .reg CULVERT_SUSPECT, .reg CULVERT_SUSPECT_INFO_BUF, .reg CULVERT_SUSPECT_INFO_OUTCOME, .reg CULVERT_SUSPECT_INFO_TILE, evtPend 9, .reg PWR_STAT_DIP, .reg PWR_STAT_HOLDOFF, .reg PWR_REVERIFY_TILES, .reg PWR_REVERIFY_FAIL, .reg PWR_RAIL_MIN, evtPend 13, .mem, .poison, .mcs, .cul, .ctxs, .jwide, .txStreams, .sendq, .pow, .out]) fun u =>
      u.pow.dips = (s.pow.dips.filter fun x => x.rail != r) ∧ getF u PWR_STAT_HOLDOFF 0 = 1 ∧ getFk u PWR_RAIL_MIN 0 r = mv % 2 ^ 16 ∧ ∃ n f, u.pow.supply = s.pow.supply ++ [{ rail := r, minMv := mv, durUs := us, tiles := n, fails := f }]) ∧
  (∀ (x : Supply) (rest : List Supply) (s : State), stopped s = false → s.pow.supply = x :: rest → jrnOnList s 16 ≠ [] → Does (.supplyEvt) s ([.jwide, .pow]) fun u =>
      u.pow.supply = rest ∧ u.jwide = s.jwide ++ [(⟨0x50, srcHub, leBytes 4 (wideStep s) ++ leBytes 1 (x.rail + 16) ++ leBytes 1 0 ++ leBytes 2 x.minMv ++ leBytes 4 x.durUs ++ leBytes 2 (min 65535 x.tiles) ++ leBytes 2 x.fails⟩, jrnOnList s 16)]) ∧
  (∀ (ms : Nat) (s : State), s.inReset = none → 10 ≤ ms → s.pow.dips = [] → Does (.holdoffEnd ms) s ([.reg PWR_STAT_HOLDOFF]) fun u =>
      getF u PWR_STAT_HOLDOFF 0 = 0)

/-- Power domains, deep idle, standby and island resets. The rows: domainSwitchDone, domReq,
deepIdle, deepIdleExit, standby, islandRst. Basis: R26, R109, R252, R566, R567, R582, R583,
R584, R586. -/
def Obligations.PowerDomainsAndStates : Prop :=
  (∀ (n : Nat) (s : State), s.inReset = none → getF s PWR_STAT_STATE 0 = 0 → n < 128 → domWanted s n = true → domOn s n = false → isF s BRKW_STAT_FAULT 0 = false → (32 ≤ n ∨ domOn s (32 + n) = true) → s.brk.stopped.contains 3 = false → Does (.domainSwitchDone n) s ([.reg ROOTSEQ_STAT_BUSY, .reg ROOTSEQ_STAT_PHASE, .reg ROOTSEQ_STAT_SIDE, .reg ROOTSEQ_CUR_GBI, .reg MEMCTL_STAT_READY, .reg PWR_DOM_STAT, .mcs]) fun u =>
      ∀ m < 128, domOn u m = if m = n then true else domOn s m) ∧
  (∀ (r : Requester) (a v : Nat) (n : Nat) (s : State), target s r a = some (13, 0, 0x100 + 4 * (n / 32)) → gate s r 13 0 (0x100 + 4 * (n / 32)) = .pass → n < 128 → (∀ j < 32, v.testBit j = decide (j ≠ n % 32)) → domOn s n = true → mayBeOff (setFk PWR_DOM_REQ 0 (n / 32) v s) n = true → s.brk.stopped.contains 3 = false → Does (.domReq r a v) s (everyReg ++ ([.sram, .mcs, .sluices, .clusters, .units, .seqs, .ports, .gauge, .out] : List Part)) fun u =>
      getFk u PWR_DOM_REQ 0 (n / 32) = v % 2 ^ 32 ∧ ∀ m < 128, domOn u m = if m = n then false else domOn s m) ∧
  (∀ (r : Requester) (a v : Nat) (n : Nat) (s : State), target s r a = some (13, 0, 0x100 + 4 * (n / 32)) → gate s r 13 0 (0x100 + 4 * (n / 32)) = .pass → n < 128 → (∀ j < 32, v.testBit j = decide (j ≠ n % 32)) → domOn s n = true → mayBeOff (setFk PWR_DOM_REQ 0 (n / 32) v s) n = false → s.brk.stopped.contains 3 = false → Does (.domReq r a v) s (everyReg ++ ([.sram, .mcs, .sluices, .clusters, .units, .seqs, .ports, .gauge, .out] : List Part)) fun u =>
      getFk u PWR_DOM_REQ 0 (n / 32) = v % 2 ^ 32 ∧ (∀ m, domOn u m = domOn s m) ∧ getF u PWR_ERR_INFO_DOMAIN 0 = n % 2 ^ 7 ∧ evtSet u PWR_EV_DOM_REFUSED 0 = true) ∧
  (∀ (r : Requester) (a v : Nat) (s : State), target s r a = some (13, 0, 0x10) → gate s r 13 0 0x10 = .pass → v % 4 = 1 → getF s PWR_STAT_STATE 0 = 0 → stateRefused s = false → Does (.deepIdle r a v) s (everyReg ++ ([.sram, .mcs, .sluices, .clusters, .units, .seqs, .ports, .gauge, .out] : List Part)) fun u =>
      getF u PWR_STAT_STATE 0 = 1 ∧ evtSet u PWR_EV_STATE_DONE 0 = true ∧ (∀ m < 88, domOn u m = false) ∧ ∀ m < 128, 88 ≤ m → domOn u m = domOn s m) ∧
  (∀ (r : Requester) (a v : Nat) (s : State), target s r a = some (13, 0, 0x10) → gate s r 13 0 0x10 = .pass → v % 4 = 1 → getF s PWR_STAT_STATE 0 = 0 → stateRefused s = true → Does (.deepIdle r a v) s (everyReg ++ ([.sram, .mcs, .sluices, .clusters, .units, .seqs, .ports, .gauge, .out] : List Part)) fun u =>
      getF u PWR_STAT_STATE 0 = 0 ∧ evtSet u PWR_EV_STATE_REFUSED 0 = true ∧ ∀ m, domOn u m = domOn s m) ∧
  (∀ (r : Requester) (a v : Nat) (s : State), target s r a = some (13, 0, 0x10) → gate s r 13 0 0x10 = .pass → v % 4 = 0 → getF s PWR_STAT_STATE 0 = 1 → Does (.deepIdleExit r a v) s (denied ++ ([.reg ROOTSEQ_STAT_BUSY, .reg ROOTSEQ_STAT_PHASE, .reg ROOTSEQ_STAT_SIDE, .reg ROOTSEQ_CUR_GBI, .reg MEMCTL_STAT_READY, .reg PWR_CTRL_STATE_REQ, .reg PWR_STAT_STATE, .reg PWR_DOM_STAT, .reg PWR_ERR_INFO_DOMAIN, evtPend 13, .mcs, .out] : List Part)) fun u =>
      getF u PWR_STAT_STATE 0 = 0 ∧ evtSet u PWR_EV_STATE_DONE 0 = true ∧ ∀ m < 88, domWanted s m = true → 32 ≤ m ∨ domWanted s (32 + m) = true → domOn u m = true) ∧
  (∀ (r : Requester) (a v : Nat) (s : State), target s r a = some (13, 0, 0x10) → gate s r 13 0 0x10 = .pass → v % 4 = 2 → getF s PWR_STAT_STATE 0 ≠ 2 → stateRefused s = false → Does (.standby r a v) s (everyReg ++ ([.mem, .poison, .sram, .mcs, .sluices, .clusters, .units, .seqs, .ports, .gauge, .out] : List Part)) fun u =>
      getF u PWR_STAT_STATE 0 = 2 ∧ evtSet u PWR_EV_STATE_DONE 0 = true ∧ (∀ m < 128, domOn u m = false) ∧ u.mem = [] ∧ u.poison = [] ∧ u.mcs = [] ∧ u.otp = s.otp) ∧
  (∀ (r : Requester) (a v : Nat) (s : State), target s r a = some (13, 0, 0x120) → gate s r 13 0 0x120 = .pass → bit v 0 = false → (∀ f ∈ (clusterOf s (bits v 1 10 / 4)).fences, f = bits v 1 10 % 4) → Does (.islandRst r a v) s (everyReg ++ ([.clusters, .units, .seqs, .ctxs, .reports, .out] : List Part)) fun u =>
      unitOf u (bits v 1 10) = {}) ∧
  (∀ (r : Requester) (a v : Nat) (s : State), target s r a = some (13, 0, 0x120) → gate s r 13 0 0x120 = .pass → bit v 0 = true → Does (.islandRst r a v) s (everyReg ++ ([.clusters, .units, .seqs, .ctxs, .reports, .out] : List Part)) fun u =>
      (seqOf u (bits v 1 10 / 32)).back = [] ∧ (seqOf u (bits v 1 10 / 32)).job = (seqOf s (bits v 1 10 / 32)).job ∧ (seqOf u (bits v 1 10 / 32)).sat = false)

/-- Resets C and P: every field with the class letter returns to its reset value, and what
survives survives. The rows: coldReset, platformReset, railResetTrip, faultResetRelease,
perstRelease, coldResetRelease. Basis: R16, R573, R586, R587, R588, R592, R605. -/
def Obligations.ResetsOfTheModule : Prop :=
  (∀  (s : State), s.inReset ≠ some .c → s.brk.tripped = [] → Does (.coldReset) s (everyReg ++ ([.hiLatch, .mem, .poison, .sram, .otp, .responses, .mcs, .window, .sluices, .objs, .releases, .crossing, .clusters, .units, .seqs, .cul, .degSet, .degClear, .ctxs, .reports, .lastClosed, .jwide, .ports, .txStreams, .rxStreams, .sendq, .inbox, .mbx, .otpq, .romProg, .bootKeys, .pow, .brk, .inReset, .dbg, .gauge, .vfEnable, .numVfs] : List Part)) fun u =>
      u.inReset = some .c ∧ u.mem = [] ∧ u.sram = [] ∧ u.ctxs = [] ∧ (∀ t f, f ∈ fldsOf t → f.cls.contains .c = true → ∀ i k, getFk u f i k = fldReset f i % 2 ^ 32) ∧ (s.otpq = [] → u.otp = s.otp)) ∧
  (∀  (s : State), s.inReset = none → s.brk.tripped = [] → Does (.platformReset) s (everyReg ++ ([.hiLatch, .mem, .poison, .sram, .responses, .mcs, .window, .sluices, .objs, .releases, .crossing, .clusters, .units, .seqs, .cul, .degSet, .degClear, .ctxs, .reports, .lastClosed, .jwide, .ports, .txStreams, .rxStreams, .sendq, .inbox, .otpq, .romProg, .pow, .brk, .inReset, .dbg, .gauge, .vfEnable, .numVfs, .out] : List Part)) fun u =>
      u.inReset = some .p ∧ u.mem = (clearWips (allJobs s) (tallyFlushAll s)).mem ∧ u.poison = (clearWips (allJobs s) (tallyFlushAll s)).poison ∧ (allJobs s = [] → u.mem = s.mem ∧ u.poison = s.poison) ∧ u.mbx = s.mbx ∧ u.otp = s.otp ∧ u.sram = [] ∧ u.ctxs = [] ∧ (∀ t f, f ∈ fldsOf t → f.cls.contains .p = true → ∀ i k, getFk u f i k = fldReset f i % 2 ^ 32) ∧ (∀ t f, f ∈ fldsOf t → f.cls.contains .p = false → ∀ i k, getFk u f i k = getFk s f i k)) ∧
  (∀ (r mv : Nat) (l : Nat × Nat × Nat) (s : State), railLevels r = some l → mv < l.2.2 → s.inReset ≠ some .c → s.brk.tripped = [] → isF s BRKW_STAT_FAULT 0 = false → Does (.railResetTrip r mv) s (everyReg ++ ([.hiLatch, .mem, .poison, .sram, .otp, .responses, .mcs, .window, .sluices, .objs, .releases, .crossing, .clusters, .units, .seqs, .cul, .degSet, .degClear, .ctxs, .reports, .lastClosed, .jwide, .ports, .txStreams, .rxStreams, .sendq, .inbox, .mbx, .otpq, .romProg, .bootKeys, .pow, .brk, .faultN, .inReset, .dbg, .gauge, .vfEnable, .numVfs, .out] : List Part)) fun u =>
      u.inReset = some .c ∧ u.faultN = true ∧ u.mem = [] ∧ (∀ t f, f ∈ fldsOf t → f.cls.contains .c = true → ∀ i k, getFk u f i k = fldReset f i % 2 ^ 32)) ∧
  (∀  (s : State), s.brk.held = none → Does (.faultResetRelease) s (everyReg ++ ([.hiLatch, .mem, .poison, .sram, .otp, .responses, .mcs, .window, .sluices, .objs, .releases, .crossing, .clusters, .units, .seqs, .cul, .degSet, .degClear, .ctxs, .reports, .lastClosed, .jwide, .ports, .txStreams, .rxStreams, .sendq, .inbox, .mbx, .otpq, .romProg, .bootKeys, .pow, .brk, .inReset, .dbg, .gauge, .vfEnable, .numVfs, .out] : List Part)) fun u =>
      u = { s with brk := { s.brk with tripped := [] } }) ∧
  (∀  (s : State), s.brk.held = some .c → Does (.faultResetRelease) s (everyReg ++ ([.hiLatch, .mem, .poison, .sram, .otp, .responses, .mcs, .window, .sluices, .objs, .releases, .crossing, .clusters, .units, .seqs, .cul, .degSet, .degClear, .ctxs, .reports, .lastClosed, .jwide, .ports, .txStreams, .rxStreams, .sendq, .inbox, .mbx, .otpq, .romProg, .bootKeys, .pow, .brk, .inReset, .dbg, .gauge, .vfEnable, .numVfs, .out] : List Part)) fun u =>
      u.inReset = some .c ∧ u.brk.tripped = [] ∧ u.mem = [] ∧ (∀ t f, f ∈ fldsOf t → f.cls.contains .c = true → ∀ i k, getFk u f i k = fldReset f i % 2 ^ 32)) ∧
  (∀  (s : State), s.inReset = some .p → Does (.perstRelease) s ([.reg BOOT_STAT_STATE, .faultN, .inReset]) fun u =>
      u.inReset = none ∧ u.faultN = false ∧ bootState u = if bootState s = 2 ∨ bootState s = 3 then 2 else bootState s) ∧
  (∀ (ms pos gaddr : Nat) (s : State), 10 ≤ ms → bootState s = 0 → s.inReset ≠ some .p → Does (.coldResetRelease ms pos gaddr) s ([.reg BOOT_STAT_STATE, .faultN, .inReset, .strapPos, .strapGaddr]) fun u =>
      u.inReset = none ∧ u.faultN = false ∧ u.strapPos = pos % 8 ∧ u.strapGaddr = gaddr % 4 ∧ bootState u = 1)

/-- Resets L, F and X, SR-IOV enables, AER, pre-emption. The rows: linkReset,
functionLevelReset, vfEnable, aerError, ctxResume, ctxPreempt, ctxReset. Basis: R509, R525,
R526, R529, R530, R535, R586, R589. -/
def Obligations.ResetsOfFunctionsAndContexts : Prop :=
  (∀  (s : State), s.inReset = none → getF s PWR_STAT_STATE 0 ≠ 2 → Does (.linkReset) s (everyReg ++ ([.hiLatch, .mem, .poison, .window, .sluices, .objs, .releases, .crossing, .clusters, .units, .seqs, .cul, .degClear, .ctxs, .reports, .jwide, .sendq, .inbox, .vfEnable, .numVfs, .out] : List Part)) fun u =>
      u.vfEnable = false ∧ u.numVfs = 0 ∧ u.hiLatch = [] ∧ ctxOf u 15 = {} ∧ (∀ t f, f ∈ fldsOf t → f.cls.contains .l = true → ∀ i k, getFk u f i k = fldReset f i % 2 ^ 32)) ∧
  (∀ (fn : Nat) (s : State), s.inReset = none → vfEnabled s fn = true → fn ≠ 0 → Does (.functionLevelReset fn) s (everyReg ++ ([.mem, .poison, .hmem, .window, .sluices, .objs, .releases, .crossing, .clusters, .units, .seqs, .cul, .degClear, .ctxs, .reports, .jwide, .sendq, .inbox, .vfEnable, .numVfs, .out] : List Part)) fun u =>
      ctxOf u fn = {} ∧ evtSet u HOSTIF_EV_FLR 0 = true) ∧
  (∀  (s : State), s.inReset = none → Does (.functionLevelReset 0) s (everyReg ++ ([.mem, .poison, .hmem, .window, .sluices, .objs, .releases, .crossing, .clusters, .units, .seqs, .cul, .degClear, .ctxs, .reports, .jwide, .sendq, .inbox, .vfEnable, .numVfs, .out] : List Part)) fun u =>
      u.vfEnable = false ∧ u.numVfs = 0 ∧ ctxOf u 15 = {} ∧ evtSet u HOSTIF_EV_FLR 0 = true) ∧
  (∀ (en : Bool) (n : Nat) (s : State), s.inReset = none → n ≤ 15 → Does (.vfEnable en n) s ([.vfEnable, .numVfs]) fun u =>
      u.vfEnable = en ∧ u.numVfs = n) ∧
  (∀  (s : State), s.inReset = none → Does (.aerError) s ([evtPend 11, .out]) fun u =>
      evtSet u HOSTIF_EV_AER 0 = true) ∧
  (∀ (h : Nat) (s : State), stopped s = false → cmdReady s h 0x62 = true → Does (.ctxResume h) s ([.reg HOSTIF_CTX_PRIO_PREEMPTED, .ctxs, .reports]) fun u =>
      u.reports = s.reports ++ [{ handle := h, status := 0, r0 := 0, r1 := 0 }] ∧ getFk u HOSTIF_CTX_PRIO_PREEMPTED 0 (argOf (entryOf s h) 0) = 0) ∧
  (∀ (h : Nat) (s : State), stopped s = false → cmdReady s h 0x61 = true → stepIsOpen s (argOf (entryOf s h) 0) = false → Does (.ctxPreempt h) s ([.reg TUNIT_STAT_BUSY, .reg TUNIT_STAT_HALTED, .reg TUNIT_STAT_ADOPTING, .reg TUNIT_STAT_ADOPTED_FROM, .reg TUNIT_STAT_CQ_LEVEL, .reg TUNIT_STAT_WQ_LEVEL, .reg SYNC_ABANDONED_CNT, .reg SYNC_EPOCH, evtPend 6, .reg HOSTIF_CTX_PRIO_PREEMPTED, .objs, .releases, .clusters, .units, .ctxs, .reports, .out]) fun u =>
      getFk u HOSTIF_CTX_PRIO_PREEMPTED 0 (argOf (entryOf s h) 0) = 1 ∧ (ctxRunning u (argOf (entryOf s h) 0) = false → u.reports.getLast? = some { handle := h, status := 0, r0 := 0, r1 := 0 })) ∧
  (∀ (h : Nat) (s : State), stopped s = false → cmdReady s h 0x60 = true → Does (.ctxReset h) s ([.reg TUNIT_STAT_BUSY, .reg TUNIT_STAT_HALTED, .reg TUNIT_STAT_ADOPTING, .reg TUNIT_STAT_ADOPTED_FROM, .reg TUNIT_STAT_CQ_LEVEL, .reg TUNIT_STAT_WQ_LEVEL, .reg ROOTSEQ_STAT_BUSY, .reg ROOTSEQ_STAT_PHASE, .reg ROOTSEQ_STAT_SIDE, .reg ROOTSEQ_CUR_GBI, .reg MEMCTL_ADDR_FAULT_CNT, evtPend 3, .reg SYNC_ABANDONED_CNT, .reg SYNC_EPOCH, evtPend 6, .reg HOSTIF_CTX_EVT_EVT, .reg CQ_ACCEPTED, .reg CQ_COMPLETED, .reg CQ_SLOTS_USED, .reg CQ_SQ_HEAD, .reg CQ_CQ_TAIL, evtPend 12, .mem, .poison, .hmem, .window, .sluices, .objs, .releases, .crossing, .clusters, .units, .seqs, .cul, .degClear, .ctxs, .reports, .jwide, .sendq, .inbox, .out]) fun u =>
      u.reports.getLast? = some { handle := h, status := 0, r0 := 0, r1 := 0 } ∧ stepIsOpen u (argOf (entryOf s h) 0) = false ∧ ∀ q < 4, getFk u CQ_SQ_HEAD (argOf (entryOf s h) 0) q = getFk u CQ_SQ_TAIL (argOf (entryOf s h) 0) q % 2 ^ 16)

/-- Gauge: samples, seconds, tallies, intervals, records and supply. The rows: gaugeSample,
gaugePowerSecond, tallySend, tallyFrame, intervalEnd, closeNow, gaugeRecordSigned, gaugePowerUp,
gaugeSupplyLoss. Basis: R609, R610, R612, R614, R617, R618, R619, R620, R621. -/
def Obligations.GaugeMetering : Prop :=
  (∀ (mv ma n : Nat) (g : GaugeRun) (s : State), s.gauge.run = some g → Does (.gaugeSample 0 mv ma n) s ([.gauge]) fun u =>
      u.gauge.run = some { g with samples := g.samples + n, secA := g.secA + mv * ma * n, now := { g.now with a := g.now.a + mv * ma * n } } ∧ u.gauge.otp = s.gauge.otp ∧ u.gauge.lines = s.gauge.lines) ∧
  (∀ (mv ma n : Nat) (g : GaugeRun) (s : State), s.gauge.run = some g → Does (.gaugeSample 1 mv ma n) s ([.gauge]) fun u =>
      u.gauge.run = some { g with secB := g.secB + mv * ma * n, now := { g.now with b := g.now.b + mv * ma * n } } ∧ u.gauge.otp = s.gauge.otp ∧ u.gauge.lines = s.gauge.lines) ∧
  (∀ (g : GaugeRun) (s : State), s.gauge.run = some g → Does (.gaugePowerSecond) s ([.gauge, .freeCtr]) fun u =>
      ∃ p v, p = min (microJoule g.secA) (microJoule g.secB) / 100000 ∧ (p < 65536 → v = p) ∧ u.gauge.run = some { g with secA := 0, secB := 0, pNow := v, now := { g.now with pMax := max g.now.pMax p, secs := g.now.secs + 1, under := g.now.under + b2n (decide (p < 2400)), high := g.now.high || decide (26400 < p) } }) ∧
  (∀ (cl : Nat) (s : State), stopped s = false → domOn s (32 + cl / 8) = true → (clusterOf s cl).tally ≠ [] → Does (.tallySend cl) s ([.clusters, .gauge]) fun u =>
      (clusterOf u cl).tally = [] ∧ u.gauge.lines = s.gauge.lines ++ [{ cluster := cl, a := (clusterOf s cl).tally, b := (clusterOf s cl).tally }]) ∧
  (∀ (bad : Bool) (alt : Flips) (g : GaugeRun) (f : TallyFrame) (rest : List TallyFrame) (s : State), s.gauge.run = some g → s.gauge.lines = f :: rest → Does (.tallyFrame bad alt) s ([.gauge]) fun u =>
      u.gauge.lines = rest ∧ u.gauge.run = some { g with now := if bad then { g.now with wDisagree := true } else g.now.counts f.a (altered f.b alt) (tallyKeys f.a (altered f.b alt)) }) ∧
  (∀ (g : GaugeRun) (s : State), s.gauge.run = some g → 1000 * g.interval ≤ gaugeLife g - g.now.start → Does (.intervalEnd) s ([.gauge]) fun u =>
      u.gauge.run = some { g with signing := g.signing ++ [recordBody s g false], seq := g.seq + 1, prev := sha384 (recordBody s g false), eTotal := g.eTotal + energyLow g.now, breaks := breaksNow g, interval := g.next, now := { start := gaugeLife g, a := g.now.a % 50000, b := g.now.b % 50000 }, wait := false, first := false, resumed := false }) ∧
  (∀ (g : GaugeRun) (s : State), s.gauge.run = some g → Does (.closeNow 0xA5) s ([.gauge]) fun u =>
      u.gauge.run = some { g with signing := g.signing ++ [recordBody s g (!decide (1000 * g.interval ≤ gaugeLife g - g.now.start))], seq := g.seq + 1, prev := sha384 (recordBody s g (!decide (1000 * g.interval ≤ gaugeLife g - g.now.start))), eTotal := g.eTotal + energyLow g.now, breaks := breaksNow g, interval := g.next, now := { start := gaugeLife g, a := g.now.a % 50000, b := g.now.b % 50000 }, wait := false, first := false, resumed := false }) ∧
  (∀ (g : GaugeRun) (body : List Byte) (rest : List (List Byte)) (s : State), s.gauge.run = some g → g.signing = body :: rest → Does (.gaugeRecordSigned) s ([.gauge, .freeCtr]) fun u =>
      u.gauge.run = some { g with signing := rest, records := ((body ++ signBoth s.gauge.otp.keySecret body s.freeCtr) :: g.records).take 4, slot := if g.off = 0 then g.slot else g.slot + 1 }) ∧
  (∀  (s : State), s.gauge.run = none → Does (.gaugePowerUp) s ([.gauge]) fun u =>
      u.gauge.run = some {} ∧ u.gauge.otp = { s.gauge.otp with powerUp := min 4096 (s.gauge.otp.powerUp + 1) } ∧ u.gauge.lines = s.gauge.lines) ∧
  (∀  (s : State), Does (.gaugeSupplyLoss) s ([.gauge]) fun u =>
      u.gauge.run = none ∧ u.gauge.otp = s.gauge.otp ∧ u.gauge.lines = s.gauge.lines)

/-- Gauge two-wire port: reads, the interval, record reads and resume. The rows: status,
intervalR, statusResume, intervalW, recSelect, recRead, resumeLoad, resumeGo, identRead. Basis:
R622, R624, R627. -/
def Obligations.GaugePort : Prop :=
  (∀ (g : GaugeRun) (s : State), s.gauge.run = some g → Does (.status) s ([.out]) fun u =>
      u.out = s.out ++ [.gauge (leBytes 2 (gaugeState g) ++ leBytes 2 (gaugeFlags s g false) ++ leBytes 8 (leVal (((newestRecord g).drop 24).take 8)) ++ leBytes 4 s.gauge.otp.powerUp)] ∧ u.gauge = s.gauge) ∧
  (∀ (g : GaugeRun) (s : State), s.gauge.run = some g → Does (.intervalR) s ([.out]) fun u =>
      u.out = s.out ++ [.gauge (leBytes 2 g.interval)] ∧ u.gauge = s.gauge) ∧
  (∀ (g : GaugeRun) (s : State), s.gauge.run = some g → Does (.statusResume) s ([.out]) fun u =>
      u.out = s.out ++ [.gauge (leBytes 1 g.result)] ∧ u.gauge = s.gauge) ∧
  (∀ (v : Nat) (g : GaugeRun) (s : State), s.gauge.run = some g → 10 ≤ v → v ≤ 3600 → Does (.intervalW v) s ([.gauge]) fun u =>
      u.gauge.run = some { g with next := v }) ∧
  (∀ (n : Nat) (g : GaugeRun) (s : State), s.gauge.run = some g → n < 4 → Does (.recSelect n) s ([.gauge]) fun u =>
      u.gauge.run = some { g with slot := n, off := 0 }) ∧
  (∀ (g : GaugeRun) (rd : List Byte) (s : State), s.gauge.run = some g → g.records[g.slot]? = some rd → g.off < 36864 → Does (.recRead) s ([.gauge, .out]) fun u =>
      u.out = s.out ++ [.gauge ((rd.drop g.off).take 192)] ∧ u.gauge.run = some { g with off := g.off + 192 }) ∧
  (∀ (bs : List Byte) (g : GaugeRun) (s : State), s.gauge.run = some g → bs.length = 192 → g.load.length < 36864 → Does (.resumeLoad bs) s ([.gauge]) fun u =>
      u.gauge.run = some { g with load := g.load ++ bs }) ∧
  (∀ (g : GaugeRun) (s : State), s.gauge.run = some g → Does (.resumeGo 0xA5) s ([.gauge]) fun u =>
      (resumeResult s g ≠ 1 → u.gauge.run = some { g with result := resumeResult s g, load := [] }) ∧ (resumeResult s g = 1 → u.gauge.run = some { g with seq := pay g.load 24 8 + 1, prev := sha384 (g.load.take 768), eTotal := pay g.load 72 8, breaks := pay g.load 84 4, interval := pay g.load 36 4, next := pay g.load 36 4, base := pay g.load 48 8, now := { g.now with start := pay g.load 48 8 }, resumed := true, result := 1, load := [] })) ∧
  (∀ (g : GaugeRun) (s : State), s.gauge.run = some g → Does (.identRead) s ([.gauge, .out]) fun u =>
      u.out = s.out ++ [.gauge (((gaugeIdent s.gauge.otp).drop g.identOff).take 192)] ∧ u.gauge.run = some { g with identOff := (g.identOff + 192) % 576 })

/-- Link training and identity: the port's state and what it observes. The rows: portEnable,
autoRetrain, trainDone, trainFail, identSend, ident, recheck, confirm. Basis: R384, R385, R386,
R387, R388, R403. -/
def Obligations.LinkTraining : Prop :=
  (∀ (r : Requester) (a v : Nat) (i : Nat) (s : State), a % 4 = 0 → target s r a = some (7, i, 0x10) → gate s r 7 i 0x10 = .pass → Does (.portEnable r a v) s (denied ++ ([.reg LINK_CTRL_EN, .reg LINK_STAT_STATE] : List Part)) fun u =>
      getF u LINK_CTRL_EN i = v % 2 ∧ (getF s LINK_STAT_STATE i = 0 → v % 2 = 1 → getF s LINK_TOPO_PEER_ROLE i ≠ 0 → getF u LINK_STAT_STATE i = if isF s LINK_CTRL_AUTO_RETRAIN i then 2 else 1) ∧ (getF s LINK_STAT_STATE i = 6 → getF u LINK_STAT_STATE i = if isF s LINK_CTRL_AUTO_RETRAIN i then 2 else 1)) ∧
  (∀ (p : Nat) (s : State), stopped s = false → domOn s (92 + p) = true → getF s LINK_STAT_STATE p = 1 → isF s LINK_CTRL_AUTO_RETRAIN p = true → Does (.autoRetrain p) s ([.reg LINK_STAT_STATE]) fun u =>
      getF u LINK_STAT_STATE p = 2) ∧
  (∀ (p : Nat) (s : State), stopped s = false → domOn s (92 + p) = true → getF s LINK_STAT_STATE p = 2 → Does (.trainDone p) s ([.reg LINK_STAT_STATE, .ports]) fun u =>
      getF u LINK_STAT_STATE p = 3 ∧ portOf u p = { rxq := (portOf s p).rxq, fwd := (portOf s p).fwd, headHeld := (portOf s p).headHeld }) ∧
  (∀ (p : Nat) (s : State), stopped s = false → domOn s (92 + p) = true → getF s LINK_STAT_STATE p = 2 → Does (.trainFail p) s ([.reg LINK_STAT_STATE, .reg LINK_STAT_REASON, .ports]) fun u =>
      getF u LINK_STAT_STATE p = 1 ∧ getF u LINK_STAT_REASON p = 3) ∧
  (∀ (p : Nat) (s : State), stopped s = false → domOn s (92 + p) = true → getF s LINK_STAT_STATE p = 3 → (portOf s p).identGot = none → Does (.identSend p) s ([.ports, .out]) fun u =>
      (∃ f, u.out = s.out ++ [.frame p f] ∧ f.type = 0xA ∧ f.vc = 3 ∧ f.src = selfId s ∧ f.payload = identRecord s p) ∧ (portOf u p).identSent = true) ∧
  (∀ (p : Nat) (raw : List Byte) (f : Frame) (s : State), stopped s = false → domOn s (92 + p) = true → getF s LINK_STAT_STATE p = 3 → parseFrame raw = some f → f.type = 0xA → Does (.ident p raw 0) s ([.reg LINK_STAT_STATE, .reg LINK_STAT_REASON, .reg LINK_STAT_MIS, .reg LINK_STAT_REV, .reg LINK_RX_DISCARD, .reg LINK_FEC_CORR, .reg LINK_FEC_UNCORR, .reg LINK_PEER_SER_LO, .reg LINK_PEER_SER_HI, .reg LINK_PEER_ID, .reg LINK_PEER_FW, .reg LINK_PEER_REV_REV_MIN, .reg LINK_PEER_REV_REV_MAX, evtPend 7, .ports, .txStreams, .sendq, .out]) fun u =>
      (portOf u p).identGot = some f.payload ∧ getF u LINK_STAT_STATE p = (if min (getF s LINK_REV_CFG_REV_MAX p) (leVal ((f.payload.drop 18).take 2)) < max (getF s LINK_REV_CFG_REV_MIN p) (leVal ((f.payload.drop 16).take 2)) then 6 else if misBits s p f.payload = 0 then 5 else 4)) ∧
  (∀ (r : Requester) (a v : Nat) (i : Nat) (rcd : List Byte) (s : State), a % 4 = 0 → target s r a = some (7, i, 0x10) → gate s r 7 i 0x10 = .pass → v.testBit 4 = true → getF s LINK_STAT_STATE i = 4 → (portOf s i).identGot = some rcd → Does (.recheck r a v) s (denied ++ ([.reg LINK_STAT_STATE, .reg LINK_STAT_REASON, .reg LINK_STAT_MIS, evtPend 7, .ports, .txStreams, .sendq, .out] : List Part)) fun u =>
      getF u LINK_STAT_STATE i = (if misBits s i rcd = 0 then 5 else 4) ∧ getF u LINK_STAT_MIS i = misBits s i rcd % 32) ∧
  (∀ (r : Requester) (a v : Nat) (i : Nat) (s : State), a % 4 = 0 → target s r a = some (7, i, 0x10) → gate s r 7 i 0x10 = .pass → v.testBit 4 = true → getF s LINK_STAT_STATE i = 1 → Does (.recheck r a v) s (denied ++ ([.reg LINK_STAT_STATE, .reg LINK_STAT_REASON, .reg LINK_STAT_MIS, evtPend 7, .ports, .txStreams, .sendq, .out] : List Part)) fun u =>
      getF u LINK_STAT_STATE i = 2) ∧
  (∀ (r : Requester) (a v : Nat) (i : Nat) (rcd : List Byte) (s : State), a % 4 = 0 → target s r a = some (7, i, 0x10) → gate s r 7 i 0x10 = .pass → v.testBit 3 = true → getF s LINK_STAT_STATE i = 4 → (portOf s i).identGot = some rcd → rolePair (portRole i) (bits (leVal ((rcd.drop 10).take 1)) 5 3) = true → Does (.confirm r a v) s (denied ++ ([.reg LINK_STAT_STATE, .reg LINK_STAT_REASON, .reg LINK_STAT_MIS, .reg LINK_TOPO_SER_LO, .reg LINK_TOPO_SER_HI, .reg LINK_TOPO_PEER_BOARD, .reg LINK_TOPO_PEER_POS, .reg LINK_TOPO_PEER_PORT, .reg LINK_ERR_INFO_CONFIRM, evtPend 7, .txStreams, .sendq, .out] : List Part)) fun u =>
      getF u LINK_STAT_STATE i = 5 ∧ getF u LINK_STAT_MIS i = 0 ∧ evtSet u LINK_EV_UP i = true ∧ getF u LINK_TOPO_SER_LO i = leVal (rcd.take 4) % 2 ^ 32 ∧ getF u LINK_TOPO_PEER_BOARD i = bits (leVal ((rcd.drop 8).take 2)) 0 9 % 2 ^ 9 ∧ getF u LINK_TOPO_PEER_POS i = bits (leVal ((rcd.drop 8).take 2)) 9 3 % 2 ^ 3 ∧ getF u LINK_TOPO_PEER_PORT i = bits (leVal ((rcd.drop 10).take 1)) 0 5 % 2 ^ 5)

/-- Link death, forced down, port reset and restore. The rows: laneLoss, forceDown, portRst,
linkRestore. Basis: R392, R393, R397, R399, R594. -/
def Obligations.LinkDeathAndReset : Prop :=
  (∀ (p : Nat) (s : State), stopped s = false → domOn s (92 + p) = true → getF s LINK_STAT_STATE p = 5 → Does (.laneLoss p) s ([.reg LINK_STAT_STATE, .reg LINK_STAT_REASON, .reg LINK_STAT_DETOUR, .reg LINK_DEATHS, .reg LINK_ERR_INFO_REASON, .reg LINK_ERR_INFO_LSEQ, evtPend 7, .reg COLL_ORIG, .sluices, .ports, .txStreams, .sendq, .out]) fun u =>
      getF u LINK_STAT_STATE p = 1 ∧ getF u LINK_STAT_REASON p = 1 ∧ getF u LINK_DEATHS p = (getF s LINK_DEATHS p + 1) % 2 ^ 32 ∧ evtSet u LINK_EV_DOWN p = true ∧ (portOf u p).retryBuf = []) ∧
  (∀ (r : Requester) (a v : Nat) (i : Nat) (s : State), a % 4 = 0 → target s r a = some (7, i, 0x10) → gate s r 7 i 0x10 = .pass → v.testBit 6 = true → getF s LINK_STAT_STATE i = 5 → Does (.forceDown r a v) s (denied ++ ([.reg LINK_STAT_STATE, .reg LINK_STAT_REASON, .reg LINK_STAT_DETOUR, .reg LINK_STAT_MIS, .reg LINK_DEATHS, .reg LINK_ERR_INFO_REASON, .reg LINK_ERR_INFO_LSEQ, evtPend 7, .reg COLL_ORIG, .sluices, .ports, .txStreams, .sendq, .out] : List Part)) fun u =>
      getF u LINK_STAT_STATE i = 1 ∧ getF u LINK_STAT_REASON i = 5 ∧ getF u LINK_DEATHS i = (getF s LINK_DEATHS i + 1) % 2 ^ 32 ∧ evtSet u LINK_EV_DOWN i = true ∧ (portOf u i).retryBuf = []) ∧
  (∀ (r : Requester) (a v : Nat) (i : Nat) (s : State), a % 4 = 0 → target s r a = some (7, i, 0x10) → gate s r 7 i 0x10 = .pass → v.testBit 6 = true → getF s LINK_STAT_STATE i = 4 → Does (.forceDown r a v) s (denied ++ ([.reg LINK_STAT_STATE, .reg LINK_STAT_REASON, .reg LINK_STAT_DETOUR, .reg LINK_STAT_MIS, .reg LINK_DEATHS, .reg LINK_ERR_INFO_REASON, .reg LINK_ERR_INFO_LSEQ, evtPend 7, .reg COLL_ORIG, .sluices, .ports, .txStreams, .sendq, .out] : List Part)) fun u =>
      getF u LINK_STAT_STATE i = (if isF s LINK_CTRL_AUTO_RETRAIN i then 2 else 1) ∧ getF u LINK_STAT_REASON i = 5 ∧ getF u LINK_STAT_MIS i = 0) ∧
  (∀ (r : Requester) (a v : Nat) (s : State), a % 4 = 0 → target s r a = some (13, 0, 0x124) → gate s r 13 0 0x124 = .pass → v % 32 < 24 → Does (.portRst r a v) s (denied ++ ([.reg LINK_CTRL_EN, .reg LINK_CTRL_AUTO_RETRAIN, .reg LINK_CTRL_AUTO_FAILBACK, .reg LINK_CTRL_CONFIRM, .reg LINK_CTRL_RECHECK, .reg LINK_CTRL_RESTORE, .reg LINK_CTRL_FORCE_DOWN, .reg LINK_STAT_STATE, .reg LINK_STAT_REASON, .reg LINK_STAT_DETOUR, .reg LINK_STAT_MIS, .reg LINK_STAT_REV, .reg LINK_TX_FRAMES, .reg LINK_RX_FRAMES, .reg LINK_RX_DISCARD, .reg LINK_REPLAYS, .reg LINK_REPLAY_FRAMES, .reg LINK_FEC_CORR, .reg LINK_FEC_UNCORR, .reg LINK_DEATHS, .reg LINK_DUP_DROP, .reg LINK_HOLD_CNT, .reg LINK_STREAM_BREAK, .reg LINK_TRANSIT, .reg LINK_DETOUR_FRAMES, .reg LINK_CTX_DROP, .reg LINK_TOPO_SER_LO, .reg LINK_TOPO_SER_HI, .reg LINK_TOPO_PEER_BOARD, .reg LINK_TOPO_PEER_POS, .reg LINK_TOPO_PEER_PORT, .reg LINK_TOPO_PEER_ROLE, .reg LINK_RETRY_CFG_ACK_TMO, .reg LINK_RETRY_CFG_RETRY_LIMIT, .reg LINK_HOLD_HOLD_US, .reg LINK_RETRAIN_RETRAIN_MS, .reg LINK_REV_CFG_REV_MIN, .reg LINK_REV_CFG_REV_MAX, .reg LINK_VC_CRED_VC0, .reg LINK_VC_CRED_VC1, .reg LINK_VC_CRED_VC2, .reg LINK_PEER_SER_LO, .reg LINK_PEER_SER_HI, .reg LINK_PEER_ID, .reg LINK_PEER_FW, .reg LINK_PEER_REV_REV_MIN, .reg LINK_PEER_REV_REV_MAX, .reg LINK_SELF_BOARD, .reg LINK_ERR_INFO_REASON, .reg LINK_ERR_INFO_LSEQ, .reg LINK_ERR_INFO_CONFIRM, evtPend 7, .reg (enFld 7), .reg (hostRoFld 7), .reg COLL_ORIG, .sluices, .ports, .txStreams, .sendq, .out] : List Part)) fun u =>
      (∀ f ∈ fldsLINK, f.cls.contains .k = true → f ≠ LINK_STAT_STATE → getF u f (v % 32) = fldReset f (v % 32) % 2 ^ f.w) ∧ getF u LINK_STAT_STATE (v % 32) ≤ 2 ∧ (portOf u (v % 32)).retryBuf = [] ∧ (portOf u (v % 32)).credit = [0, 0, 0]) ∧
  (∀ (r : Requester) (a v : Nat) (i : Nat) (s : State), a % 4 = 0 → target s r a = some (7, i, 0x10) → gate s r 7 i 0x10 = .pass → v.testBit 5 = true → getF s LINK_STAT_STATE i = 5 → Does (.linkRestore r a v) s (denied ++ ([.txStreams, .sendq] : List Part)) fun u =>
      ∀ k t, (k, t) ∈ s.txStreams → k % 32 = i → t.detour = true → t.marking = false → (txOf u k).marking = true)

/-- Received frames: delivery in order, forwarding, RETRY, discards, MARK, MARK_ACK, LINK and
STATE. The rows: data, mark, markAck, link, state. Basis: R377, R378, R379, R380, R381, R394,
R395, R397. -/
def Obligations.LinkFrames : Prop :=
  (∀ (p : Nat) (raw : List Byte) (f : Frame) (s : State), stopped s = false → domOn s (92 + p) = true → getF s LINK_STAT_STATE p = 5 → parseFrame raw = some f → f.type = 1 → f.lseq = ((portOf s p).rxLast + 1) % 65536 → f.vc = 0 → (∀ q < 24, (portOf s q).rxq = []) → headAct s f = .deliver → p < 24 → Does (.data p raw 0) s ([.reg LINK_STAT_DETOUR, .reg LINK_RX_FRAMES, .reg LINK_RX_DISCARD, .reg LINK_FEC_CORR, .reg LINK_FEC_UNCORR, .reg LINK_DUP_DROP, .reg LINK_HOLD_CNT, .reg LINK_TRANSIT, .reg LINK_CTX_DROP, evtPend 7, .reg COLL_FIN, .ports, .txStreams, .rxStreams, .sendq, .inbox, .out]) fun u =>
      u.inbox = s.inbox ++ [{ f with via := p }] ∧ (portOf u p).rxLast = f.lseq ∧ (portOf u p).rxq = [] ∧ (rxOf u (streamKey f.src f.ctx f.oport)).expected = ((rxOf s (streamKey f.src f.ctx f.oport)).expected + 1) % 65536 ∧ getF u LINK_RX_FRAMES p = (getF s LINK_RX_FRAMES p + 1) % 2 ^ 32) ∧
  (∀ (p : Nat) (raw : List Byte) (f : Frame) (s : State), stopped s = false → domOn s (92 + p) = true → getF s LINK_STAT_STATE p = 5 → parseFrame raw = some f → f.type = 1 → f.lseq = ((portOf s p).rxLast + 1) % 65536 → f.vc ≠ 0 → Does (.data p raw 0) s ([.reg LINK_STAT_DETOUR, .reg LINK_RX_FRAMES, .reg LINK_RX_DISCARD, .reg LINK_FEC_CORR, .reg LINK_FEC_UNCORR, .reg LINK_DUP_DROP, .reg LINK_HOLD_CNT, .reg LINK_TRANSIT, .reg LINK_CTX_DROP, evtPend 7, .reg COLL_FIN, .ports, .txStreams, .rxStreams, .sendq, .inbox, .out]) fun u =>
      (portOf u p).fwd = (portOf s p).fwd ++ [{ f with vc := f.vc - 1 }] ∧ (portOf u p).rxLast = f.lseq ∧ getF u LINK_TRANSIT p = (getF s LINK_TRANSIT p + 1) % 2 ^ 32 ∧ u.inbox = s.inbox) ∧
  (∀ (p : Nat) (raw : List Byte) (f : Frame) (s : State), stopped s = false → domOn s (92 + p) = true → getF s LINK_STAT_STATE p = 5 → parseFrame raw = some f → f.type = 1 → f.lseq ≠ ((portOf s p).rxLast + 1) % 65536 → serialAhead (portOf s p).rxLast f.lseq = true → (portOf s p).retryOut = false → Does (.data p raw 0) s ([.reg LINK_STAT_DETOUR, .reg LINK_RX_FRAMES, .reg LINK_RX_DISCARD, .reg LINK_FEC_CORR, .reg LINK_FEC_UNCORR, .reg LINK_DUP_DROP, .reg LINK_HOLD_CNT, .reg LINK_TRANSIT, .reg LINK_CTX_DROP, evtPend 7, .reg COLL_FIN, .ports, .txStreams, .rxStreams, .sendq, .inbox, .out]) fun u =>
      (∃ g, u.out = s.out ++ [.frame p g] ∧ g.type = 9) ∧ (portOf u p).retryOut = true ∧ (portOf u p).rxLast = (portOf s p).rxLast ∧ u.inbox = s.inbox) ∧
  (∀ (p : Nat) (raw : List Byte) (s : State), stopped s = false → domOn s (92 + p) = true → getF s LINK_STAT_STATE p = 5 → parseFrame raw = none → (portOf s p).retryOut = false → Does (.data p raw 0) s ([.reg LINK_STAT_DETOUR, .reg LINK_RX_FRAMES, .reg LINK_RX_DISCARD, .reg LINK_FEC_CORR, .reg LINK_FEC_UNCORR, .reg LINK_DUP_DROP, .reg LINK_HOLD_CNT, .reg LINK_TRANSIT, .reg LINK_CTX_DROP, evtPend 7, .reg COLL_FIN, .ports, .txStreams, .rxStreams, .sendq, .inbox, .out]) fun u =>
      getF u LINK_RX_DISCARD p = (getF s LINK_RX_DISCARD p + 1) % 2 ^ 32 ∧ (portOf u p).retryOut = true ∧ (∃ g, u.out = s.out ++ [.frame p g] ∧ g.type = 9) ∧ u.inbox = s.inbox) ∧
  (∀ (p : Nat) (raw : List Byte) (f : Frame) (s : State), stopped s = false → domOn s (92 + p) = true → getF s LINK_STAT_STATE p = 5 → parseFrame raw = some f → f.type = 2 → f.lseq = ((portOf s p).rxLast + 1) % 65536 → f.vc = 0 → (∀ q < 24, (portOf s q).rxq = []) → headAct s f = .mark → p < 24 → Does (.mark p raw 0) s ([.reg LINK_STAT_DETOUR, .reg LINK_RX_FRAMES, .reg LINK_RX_DISCARD, .reg LINK_FEC_CORR, .reg LINK_FEC_UNCORR, .reg LINK_DUP_DROP, .reg LINK_HOLD_CNT, .reg LINK_TRANSIT, .reg LINK_CTX_DROP, evtPend 7, .reg COLL_FIN, .ports, .txStreams, .rxStreams, .sendq, .inbox, .out]) fun u =>
      u.sendq = s.sendq ++ [{ type := 3, src := selfId s, dst := f.src, ctx := f.ctx, engine := 0xF, oport := f.oport, sseq := f.sseq }] ∧ (portOf u p).rxLast = f.lseq ∧ (portOf u p).rxq = []) ∧
  (∀ (p : Nat) (raw : List Byte) (f : Frame) (s : State), stopped s = false → domOn s (92 + p) = true → getF s LINK_STAT_STATE p = 5 → parseFrame raw = some f → f.type = 3 → f.lseq = ((portOf s p).rxLast + 1) % 65536 → f.vc = 0 → (∀ q < 24, (portOf s q).rxq = []) → (txOf s (streamKey f.src f.ctx f.oport)).marking = true → p < 24 → Does (.markAck p raw 0) s ([.reg LINK_STAT_DETOUR, .reg LINK_RX_FRAMES, .reg LINK_RX_DISCARD, .reg LINK_FEC_CORR, .reg LINK_FEC_UNCORR, .reg LINK_DUP_DROP, .reg LINK_HOLD_CNT, .reg LINK_TRANSIT, .reg LINK_CTX_DROP, evtPend 7, .reg COLL_FIN, .ports, .txStreams, .rxStreams, .sendq, .inbox, .out]) fun u =>
      (txOf u (streamKey f.src f.ctx f.oport)).marking = false ∧ (txOf u (streamKey f.src f.ctx f.oport)).detour = false ∧ evtSet u LINK_EV_FAILBACK f.oport = true ∧ (portOf u p).rxLast = f.lseq) ∧
  (∀ (p : Nat) (raw : List Byte) (f : Frame) (s : State), stopped s = false → domOn s (92 + p) = true → getF s LINK_STAT_STATE p = 5 → parseFrame raw = some f → f.type = 8 → serialAhead (portOf s p).acked f.ack = true → Does (.link p raw 0) s ([.reg LINK_RX_DISCARD, .reg LINK_FEC_CORR, .reg LINK_FEC_UNCORR, .ports, .out]) fun u =>
      (portOf u p).acked = f.ack ∧ (portOf u p).replays = 0 ∧ (portOf u p).retryBuf = ((portOf s p).retryBuf.filter fun g => serialAhead f.ack g.lseq) ∧ u.inbox = s.inbox) ∧
  (∀ (p : Nat) (raw : List Byte) (f : Frame) (s : State), stopped s = false → domOn s (92 + p) = true → getF s LINK_STAT_STATE p = 5 → parseFrame raw = some f → f.type = 0xB → Does (.state p raw 0) s ([.reg LINK_RX_DISCARD, .reg LINK_FEC_CORR, .reg LINK_FEC_UNCORR, .ports, .out]) fun u =>
      (portOf u p).peerUp = leVal (f.payload.take 3) ∧ u.inbox = s.inbox)

/-- Replay, acknowledgement and hold expiry. The rows: retry, ackTimeout, linkAckDue,
holdExpire. Basis: R381, R382, R383, R392, R396. -/
def Obligations.LinkRetry : Prop :=
  (∀ (p : Nat) (raw : List Byte) (f : Frame) (s : State), stopped s = false → domOn s (92 + p) = true → getF s LINK_STAT_STATE p = 5 → parseFrame raw = some f → f.type = 9 → serialAhead (portOf s p).acked f.ack = false → (portOf s p).retryBuf ≠ [] → (portOf s p).replays < getF s LINK_RETRY_CFG_RETRY_LIMIT p → Does (.retry p raw 0) s ([.reg LINK_STAT_STATE, .reg LINK_STAT_REASON, .reg LINK_STAT_DETOUR, .reg LINK_RX_DISCARD, .reg LINK_REPLAYS, .reg LINK_REPLAY_FRAMES, .reg LINK_FEC_CORR, .reg LINK_FEC_UNCORR, .reg LINK_DEATHS, .reg LINK_ERR_INFO_REASON, .reg LINK_ERR_INFO_LSEQ, evtPend 7, .reg COLL_ORIG, .sluices, .ports, .txStreams, .sendq, .out]) fun u =>
      getF u LINK_REPLAYS p = (getF s LINK_REPLAYS p + 1) % 2 ^ 32 ∧ (portOf u p).replays = (portOf s p).replays + 1 ∧ evtSet u LINK_EV_REPLAY p = true ∧ (portOf u p).retryBuf = (portOf s p).retryBuf ∧ getF u LINK_REPLAY_FRAMES p = (getF s LINK_REPLAY_FRAMES p + (portOf s p).retryBuf.length) % 2 ^ 32 ∧ Resent p (portOf s p).retryBuf (portOf s p).rxLast s.out u.out) ∧
  (∀ (p : Nat) (raw : List Byte) (f : Frame) (s : State), stopped s = false → domOn s (92 + p) = true → getF s LINK_STAT_STATE p = 5 → parseFrame raw = some f → f.type = 9 → serialAhead (portOf s p).acked f.ack = false → (portOf s p).retryBuf ≠ [] → getF s LINK_RETRY_CFG_RETRY_LIMIT p ≤ (portOf s p).replays → Does (.retry p raw 0) s ([.reg LINK_STAT_STATE, .reg LINK_STAT_REASON, .reg LINK_STAT_DETOUR, .reg LINK_RX_DISCARD, .reg LINK_REPLAYS, .reg LINK_REPLAY_FRAMES, .reg LINK_FEC_CORR, .reg LINK_FEC_UNCORR, .reg LINK_DEATHS, .reg LINK_ERR_INFO_REASON, .reg LINK_ERR_INFO_LSEQ, evtPend 7, .reg COLL_ORIG, .sluices, .ports, .txStreams, .sendq, .out]) fun u =>
      getF u LINK_STAT_STATE p = 1 ∧ getF u LINK_STAT_REASON p = 2 ∧ getF u LINK_DEATHS p = (getF s LINK_DEATHS p + 1) % 2 ^ 32 ∧ evtSet u LINK_EV_DOWN p = true ∧ (portOf u p).retryBuf = []) ∧
  (∀ (p : Nat) (s : State), stopped s = false → domOn s (92 + p) = true → getF s LINK_STAT_STATE p = 5 → (portOf s p).retryBuf ≠ [] → (portOf s p).replays < getF s LINK_RETRY_CFG_RETRY_LIMIT p → Does (.ackTimeout p) s ([.reg LINK_STAT_STATE, .reg LINK_STAT_REASON, .reg LINK_STAT_DETOUR, .reg LINK_REPLAYS, .reg LINK_REPLAY_FRAMES, .reg LINK_DEATHS, .reg LINK_ERR_INFO_REASON, .reg LINK_ERR_INFO_LSEQ, evtPend 7, .reg COLL_ORIG, .sluices, .ports, .txStreams, .sendq, .out]) fun u =>
      getF u LINK_REPLAYS p = (getF s LINK_REPLAYS p + 1) % 2 ^ 32 ∧ (portOf u p).replays = (portOf s p).replays + 1 ∧ evtSet u LINK_EV_REPLAY p = true ∧ (portOf u p).retryBuf = (portOf s p).retryBuf ∧ getF u LINK_REPLAY_FRAMES p = (getF s LINK_REPLAY_FRAMES p + (portOf s p).retryBuf.length) % 2 ^ 32 ∧ Resent p (portOf s p).retryBuf (portOf s p).rxLast s.out u.out) ∧
  (∀ (p : Nat) (s : State), stopped s = false → domOn s (92 + p) = true → getF s LINK_STAT_STATE p = 5 → (portOf s p).retryBuf ≠ [] → getF s LINK_RETRY_CFG_RETRY_LIMIT p ≤ (portOf s p).replays → Does (.ackTimeout p) s ([.reg LINK_STAT_STATE, .reg LINK_STAT_REASON, .reg LINK_STAT_DETOUR, .reg LINK_REPLAYS, .reg LINK_REPLAY_FRAMES, .reg LINK_DEATHS, .reg LINK_ERR_INFO_REASON, .reg LINK_ERR_INFO_LSEQ, evtPend 7, .reg COLL_ORIG, .sluices, .ports, .txStreams, .sendq, .out]) fun u =>
      getF u LINK_STAT_STATE p = 1 ∧ getF u LINK_STAT_REASON p = 2 ∧ getF u LINK_DEATHS p = (getF s LINK_DEATHS p + 1) % 2 ^ 32 ∧ evtSet u LINK_EV_DOWN p = true ∧ (portOf u p).retryBuf = []) ∧
  (∀ (p : Nat) (s : State), stopped s = false → domOn s (92 + p) = true → getF s LINK_STAT_STATE p = 5 → Does (.linkAckDue p) s ([.ports, .out]) fun u =>
      (∃ f, u.out = s.out ++ [.frame p f] ∧ f.type = 8 ∧ f.vc = 3 ∧ f.ack = (portOf s p).rxLast ∧ f.cvc = (portOf s p).cvc ∧ f.cred = (portOf s p).freed.getD (portOf s p).cvc 0) ∧ (portOf u p).ackSent = (portOf s p).rxLast ∧ (portOf u p).cvc = ((portOf s p).cvc + 1) % 3) ∧
  (∀ (p : Nat) (f : Frame) (rest : List Frame) (s : State), stopped s = false → domOn s (92 + p) = true → (portOf s p).rxq = f :: rest → (portOf s p).headHeld = true → headAct s f = .hold → Does (.holdExpire p) s ([.reg LINK_STAT_DETOUR, .reg LINK_DUP_DROP, .reg LINK_HOLD_CNT, .reg LINK_STREAM_BREAK, .reg LINK_CTX_DROP, evtPend 7, .reg COLL_FIN, .ports, .txStreams, .rxStreams, .sendq, .inbox, .out]) fun u =>
      (rxOf u (streamKey f.src f.ctx f.oport)).broken = true ∧ getF u LINK_STREAM_BREAK p = (getF s LINK_STREAM_BREAK p + 1) % 2 ^ 32 ∧ evtSet u LINK_EV_STREAM_BREAK p = true) ∧
  (∀ (p : Nat) (f : Frame) (s : State), stopped s = false → domOn s (92 + p) = true → (portOf s p).rxq = [f] → (portOf s p).headHeld = true → headAct s f = .hold → (∀ q < 24, q ≠ p → (portOf s q).rxq = []) → Does (.holdExpire p) s ([.reg LINK_STAT_DETOUR, .reg LINK_DUP_DROP, .reg LINK_HOLD_CNT, .reg LINK_STREAM_BREAK, .reg LINK_CTX_DROP, evtPend 7, .reg COLL_FIN, .ports, .txStreams, .rxStreams, .sendq, .inbox, .out]) fun u =>
      (portOf u p).rxq = [] ∧ (portOf u p).headHeld = false ∧ u.inbox = s.inbox ∧ (rxOf u (streamKey f.src f.ctx f.oport)).expected = (rxOf s (streamKey f.src f.ctx f.oport)).expected)

/-- Owner work up to operation 5: the ordered sum of partials, its close, the due notice and
preconditioning. The rows: partialAdd, ownerSumClose, precondition. Basis: R61, R62, R63, R65,
R76, R178, R180, R227. The model's choices it rests on: log entries 49, 108. -/
def Obligations.OwnerSums : Prop :=
  (∀ (c n g own : Nat) (st : Step) (b : Blk) (r : Recv) (x : Xfer) (A : List Mat) (s : State), isAwake s = true → blkOf s c n g = some (st, b) → b.armed = true → b.ph = 0 → ownerStalled s c b.cl = false → b.mb < srMbCount st.raw → replayAbsent s c n b.gbi b.mb b.pos = false → ownPartial s st b.pos = false → sourceOf s c n b.gbi b.mb b.pos = some (r, x) → x.absent = false → x.closed = true → accTiles b s = (some A, s) → Does (.partialAdd c n g own) s ([.reg CLUSTER_REPLAY_DIV_CNT, evtPend 1, .reg MEMCTL_STAT_PARKED, .reg MEMCTL_ERR_INFO_CHAN, .reg MEMCTL_ERR_INFO_ROW, .reg MEMCTL_ERR_INFO_CLASS, .reg MEMCTL_CE_CNT, .reg MEMCTL_UE_CNT, .reg MEMCTL_ROW_FAIL_CNT, .reg MEMCTL_PAGE_LOST_CNT, .reg MEMCTL_ADDR_FAULT_CNT, .reg MEMCTL_PENDING_ROWS, .reg MEMCTL_PENDING_REMAP_USED, evtPend 3, .reg LINK_STAT_DETOUR, evtPend 7, .reg COLL_STALE_REJ, .reg COLL_CARRY_ADD, .reg COLL_CARRY_DROP, .reg COLL_ORIG, evtPend 8, .mem, .poison, .mcs, .ctxs, .jwide, .txStreams, .sendq, .out]) fun t =>
      t.mem = (putAcc b (A.zipWith (fun A T => A.zipWith (fun y z => y.zipWith add32 z) T) (xferTiles st r x b 0)) s).mem ∧ t.blk c n g = some (nextPlace b)) ∧
  (∀ (c n g own : Nat) (st : Step) (b : Blk) (r : Recv) (x : Xfer) (s : State), isAwake s = true → blkOf s c n g = some (st, b) → b.armed = true → b.ph = 0 → ownerStalled s c b.cl = false → b.mb < srMbCount st.raw → replayAbsent s c n b.gbi b.mb b.pos = false → ownPartial s st b.pos = false → sourceOf s c n b.gbi b.mb b.pos = some (r, x) → x.absent = true → Does (.partialAdd c n g own) s ([.reg CLUSTER_REPLAY_DIV_CNT, evtPend 1, .reg MEMCTL_STAT_PARKED, .reg MEMCTL_ERR_INFO_CHAN, .reg MEMCTL_ERR_INFO_ROW, .reg MEMCTL_ERR_INFO_CLASS, .reg MEMCTL_CE_CNT, .reg MEMCTL_UE_CNT, .reg MEMCTL_ROW_FAIL_CNT, .reg MEMCTL_PAGE_LOST_CNT, .reg MEMCTL_ADDR_FAULT_CNT, .reg MEMCTL_PENDING_ROWS, .reg MEMCTL_PENDING_REMAP_USED, evtPend 3, .reg LINK_STAT_DETOUR, evtPend 7, .reg COLL_STALE_REJ, .reg COLL_CARRY_ADD, .reg COLL_CARRY_DROP, .reg COLL_ORIG, evtPend 8, .mem, .poison, .mcs, .ctxs, .jwide, .txStreams, .sendq, .out]) fun t =>
      t.mem = s.mem ∧ t.blk c n g = some (nextPlace b)) ∧
  (∀ (c n g own : Nat) (st : Step) (b : Blk) (T : List (List Byte)) (A : List Mat) (s : State), isAwake s = true → blkOf s c n g = some (st, b) → b.armed = true → b.ph = 0 → ownerStalled s c b.cl = false → b.mb < srMbCount st.raw → replayAbsent s c n b.gbi b.mb b.pos = false → ownPartial s st b.pos = true → b.pos = ownPos s → servedBlk s b = false → loadTiles (dieOf b.cl) 0 own 16384 0 (lTiles b.lat) s = (.ok T, s) → accTiles b s = (some A, s) → Does (.partialAdd c n g own) s ([.reg CLUSTER_REPLAY_DIV_CNT, evtPend 1, .reg MEMCTL_STAT_PARKED, .reg MEMCTL_ERR_INFO_CHAN, .reg MEMCTL_ERR_INFO_ROW, .reg MEMCTL_ERR_INFO_CLASS, .reg MEMCTL_CE_CNT, .reg MEMCTL_UE_CNT, .reg MEMCTL_ROW_FAIL_CNT, .reg MEMCTL_PAGE_LOST_CNT, .reg MEMCTL_ADDR_FAULT_CNT, .reg MEMCTL_PENDING_ROWS, .reg MEMCTL_PENDING_REMAP_USED, evtPend 3, .reg LINK_STAT_DETOUR, evtPend 7, .reg COLL_STALE_REJ, .reg COLL_CARRY_ADD, .reg COLL_CARRY_DROP, .reg COLL_ORIG, evtPend 8, .mem, .poison, .mcs, .ctxs, .jwide, .txStreams, .sendq, .out]) fun t =>
      t.mem = (putAcc b (A.zipWith (fun A T => A.zipWith (fun y z => y.zipWith add32 z) T) (T.map (tileMat fmtFP32 4))) s).mem ∧ t.blk c n g = some (nextPlace b)) ∧
  (∀ (c n g : Nat) (st : Step) (b : Blk) (A : List Mat) (s : State), isAwake s = true → blkOf s c n g = some (st, b) → sumComplete s c n st b = true → ownerStalled s c b.cl = false → accTiles b s = (some A, s) → lFrozen b.lat = false → A.all Mat.finite = true → Does (.ownerSumClose c n g) s ([.reg CLUSTER_NONFINITE_BLK, .reg CLUSTER_DROUGHT_EVT, .reg CLUSTER_DROUGHT_LAST, .reg CLUSTER_FROZEN_DISC, evtPend 1, .reg MEMCTL_STAT_PARKED, .reg MEMCTL_ERR_INFO_CHAN, .reg MEMCTL_ERR_INFO_ROW, .reg MEMCTL_ERR_INFO_CLASS, .reg MEMCTL_CE_CNT, .reg MEMCTL_UE_CNT, .reg MEMCTL_ROW_FAIL_CNT, .reg MEMCTL_PAGE_LOST_CNT, .reg MEMCTL_ADDR_FAULT_CNT, .reg MEMCTL_PENDING_ROWS, .reg MEMCTL_PENDING_REMAP_USED, evtPend 3, .mem, .poison, .mcs, .ctxs, .jwide, .out]) fun t =>
      t.blk c n g = some { b with ph := 1, nfAcc := false } ∧ t.mem = (recPut b 44 2 (if A.all (fun t => t.all fun r => r.all (·.isZero)) then min 65535 (recGet s b 44 2 + 1) else 0) s).mem) ∧
  (∀ (c n g : Nat) (st : Step) (b : Blk) (A : List Mat) (s : State), isAwake s = true → blkOf s c n g = some (st, b) → sumComplete s c n st b = true → ownerStalled s c b.cl = false → accTiles b s = (some A, s) → lFrozen b.lat = true → blkOf s c (n + 1) g = none → Does (.ownerSumClose c n g) s ([.reg CLUSTER_NONFINITE_BLK, .reg CLUSTER_DROUGHT_EVT, .reg CLUSTER_DROUGHT_LAST, .reg CLUSTER_FROZEN_DISC, evtPend 1, .reg MEMCTL_STAT_PARKED, .reg MEMCTL_ERR_INFO_CHAN, .reg MEMCTL_ERR_INFO_ROW, .reg MEMCTL_ERR_INFO_CLASS, .reg MEMCTL_CE_CNT, .reg MEMCTL_UE_CNT, .reg MEMCTL_ROW_FAIL_CNT, .reg MEMCTL_PAGE_LOST_CNT, .reg MEMCTL_ADDR_FAULT_CNT, .reg MEMCTL_PENDING_ROWS, .reg MEMCTL_PENDING_REMAP_USED, evtPend 3, .mem, .poison, .mcs, .ctxs, .jwide, .out]) fun t =>
      t.blk c n g = some { b with ph := 6 } ∧ t.mem = s.mem ∧ getF t CLUSTER_FROZEN_DISC b.cl = (getF s CLUSTER_FROZEN_DISC b.cl + 1) % 2 ^ 32) ∧
  (∀ (c n g hdr : Nat) (us : List Nat) (st : Step) (b : Blk) (T : List (List Byte)) (G : Mat) (s : State), isAwake s = true → blkOf s c n g = some (st, b) → b.ph = 1 → ownerReady s c n b = true → (isDue st b && (b.notice == 0 || b.notice == 1)) = false → replayOn s c = false → b.nfAcc = false → ownedTiles b (4 + recGet s b 36 1 % 2) 0 (lF b.lat) s = (some T, s) → accMat b s = (some G, s) → (lSideL b.lat || lSideR b.lat) = true → (opFive 0 b.lat G (rootMats b.lat T).1 (rootMats b.lat T).2).2 = true → op5Code b (sramRead s b.cl hdr 32) = 0 → Does (.precondition c n ⟨g, hdr, us⟩) s ([.reg TUNIT_DESC_DONE, .reg TUNIT_CHK_REPEAT_OK, .reg TUNIT_LAST_STAT, .reg TUNIT_A20_OVF, .reg TUNIT_ACC_REPEAT, .reg TUNIT_CHUNK4_TILES, .reg TUNIT_ACC_DIVERGE, evtPend 0, .reg CLUSTER_SPILL_GROUPS, .reg CLUSTER_SPILL_EXH, .reg CLUSTER_NONFINITE_BLK, .reg CLUSTER_REPLAY_DIV_CNT, .reg CLUSTER_SPILL_LAST_GROUP, .reg CLUSTER_SPILL_LAST_RUNG, .reg CLUSTER_SPILL_LAST_EXH, .reg CLUSTER_CVT_ERR_CODE, evtPend 1, .reg ROOTSEQ_REPLAY_DIV, evtPend 2, .reg MEMCTL_STAT_PARKED, .reg MEMCTL_ERR_INFO_CHAN, .reg MEMCTL_ERR_INFO_ROW, .reg MEMCTL_ERR_INFO_CLASS, .reg MEMCTL_CE_CNT, .reg MEMCTL_UE_CNT, .reg MEMCTL_ROW_FAIL_CNT, .reg MEMCTL_PAGE_LOST_CNT, .reg MEMCTL_ADDR_FAULT_CNT, .reg MEMCTL_PENDING_ROWS, .reg MEMCTL_PENDING_REMAP_USED, evtPend 3, .reg LINK_STAT_DETOUR, evtPend 7, .reg COLL_ORIG, .reg CULVERT_SUSPECT_CNT, .reg CULVERT_SUSPECT, .reg CULVERT_SUSPECT_INFO_BUF, .reg CULVERT_SUSPECT_INFO_OUTCOME, .reg CULVERT_SUSPECT_INFO_TILE, evtPend 9, .mcs, .clusters, .seqs, .cul, .ctxs, .jwide, .txStreams, .sendq, .out]) fun t =>
      t.blk c n g = some { b with ph := 2, stopped := false, p := (opFive 0 b.lat G (rootMats b.lat T).1 (rootMats b.lat T).2).1.flatMap fun r => r.map word32 } ∧ t.mem = s.mem) ∧
  (∀ (c n g hdr : Nat) (us : List Nat) (st : Step) (b : Blk) (s : State), isAwake s = true → blkOf s c n g = some (st, b) → b.ph = 1 → ownerReady s c n b = true → isDue st b = true → b.notice = 0 → Does (.precondition c n ⟨g, hdr, us⟩) s ([.reg TUNIT_DESC_DONE, .reg TUNIT_CHK_REPEAT_OK, .reg TUNIT_LAST_STAT, .reg TUNIT_A20_OVF, .reg TUNIT_ACC_REPEAT, .reg TUNIT_CHUNK4_TILES, .reg TUNIT_ACC_DIVERGE, evtPend 0, .reg CLUSTER_SPILL_GROUPS, .reg CLUSTER_SPILL_EXH, .reg CLUSTER_NONFINITE_BLK, .reg CLUSTER_REPLAY_DIV_CNT, .reg CLUSTER_SPILL_LAST_GROUP, .reg CLUSTER_SPILL_LAST_RUNG, .reg CLUSTER_SPILL_LAST_EXH, .reg CLUSTER_CVT_ERR_CODE, evtPend 1, .reg ROOTSEQ_REPLAY_DIV, evtPend 2, .reg MEMCTL_STAT_PARKED, .reg MEMCTL_ERR_INFO_CHAN, .reg MEMCTL_ERR_INFO_ROW, .reg MEMCTL_ERR_INFO_CLASS, .reg MEMCTL_CE_CNT, .reg MEMCTL_UE_CNT, .reg MEMCTL_ROW_FAIL_CNT, .reg MEMCTL_PAGE_LOST_CNT, .reg MEMCTL_ADDR_FAULT_CNT, .reg MEMCTL_PENDING_ROWS, .reg MEMCTL_PENDING_REMAP_USED, evtPend 3, .reg LINK_STAT_DETOUR, evtPend 7, .reg COLL_ORIG, .reg CULVERT_SUSPECT_CNT, .reg CULVERT_SUSPECT, .reg CULVERT_SUSPECT_INFO_BUF, .reg CULVERT_SUSPECT_INFO_OUTCOME, .reg CULVERT_SUSPECT_INFO_TILE, evtPend 9, .mcs, .clusters, .seqs, .cul, .ctxs, .jwide, .txStreams, .sendq, .out]) fun t =>
      t.blk c n g = some { b with notice := 1 } ∧ (seqOf t (b.cl / 8)).notices = (seqOf s (b.cl / 8)).notices ++ [{ ctx := c, step := n, gbi := g }]) ∧
  (∀ (c n g hdr : Nat) (us : List Nat) (st : Step) (b : Blk) (s : State), isAwake s = true → blkOf s c n g = some (st, b) → b.ph = 1 → ownerReady s c n b = true → (isDue st b && (b.notice == 0 || b.notice == 1)) = false → replayOn s c = false → b.nfAcc = true → op5Code b (sramRead s b.cl hdr 32) = 0 → Does (.precondition c n ⟨g, hdr, us⟩) s ([.reg TUNIT_DESC_DONE, .reg TUNIT_CHK_REPEAT_OK, .reg TUNIT_LAST_STAT, .reg TUNIT_A20_OVF, .reg TUNIT_ACC_REPEAT, .reg TUNIT_CHUNK4_TILES, .reg TUNIT_ACC_DIVERGE, evtPend 0, .reg CLUSTER_SPILL_GROUPS, .reg CLUSTER_SPILL_EXH, .reg CLUSTER_NONFINITE_BLK, .reg CLUSTER_REPLAY_DIV_CNT, .reg CLUSTER_SPILL_LAST_GROUP, .reg CLUSTER_SPILL_LAST_RUNG, .reg CLUSTER_SPILL_LAST_EXH, .reg CLUSTER_CVT_ERR_CODE, evtPend 1, .reg ROOTSEQ_REPLAY_DIV, evtPend 2, .reg MEMCTL_STAT_PARKED, .reg MEMCTL_ERR_INFO_CHAN, .reg MEMCTL_ERR_INFO_ROW, .reg MEMCTL_ERR_INFO_CLASS, .reg MEMCTL_CE_CNT, .reg MEMCTL_UE_CNT, .reg MEMCTL_ROW_FAIL_CNT, .reg MEMCTL_PAGE_LOST_CNT, .reg MEMCTL_ADDR_FAULT_CNT, .reg MEMCTL_PENDING_ROWS, .reg MEMCTL_PENDING_REMAP_USED, evtPend 3, .reg LINK_STAT_DETOUR, evtPend 7, .reg COLL_ORIG, .reg CULVERT_SUSPECT_CNT, .reg CULVERT_SUSPECT, .reg CULVERT_SUSPECT_INFO_BUF, .reg CULVERT_SUSPECT_INFO_OUTCOME, .reg CULVERT_SUSPECT_INFO_TILE, evtPend 9, .mcs, .clusters, .seqs, .cul, .ctxs, .jwide, .txStreams, .sendq, .out]) fun t =>
      t.blk c n g = some { b with ph := 2, stopped := true } ∧ t.mem = s.mem)

/-- Owner work from operation 6 on: the commit with stochastic rounding, the weights sent to the
twin and the factor update.  Basis: R66, R69, R175, R176, R205, R206, R209, R443. -/
def Obligations.OwnerCommits : Prop :=
  (∀ (c n g : Nat) (st : Step) (b : Blk) (T : List (List Byte)) (s : State), isAwake s = true → blkOf s c n g = some (st, b) → b.ph = 2 → ownerReady s c n b = true → ckptHolds s c n g = false → wholeBuf b 1 s = (some T, s) → replayOn s c = false → b.stopped = false → (deltaOf st b).all (·.isFin) = true → lUeAuto b.lat = false → Does (.commit c n g) s ([.reg CLUSTER_NONFINITE_BLK, .reg CLUSTER_W24_SAT, .reg CLUSTER_UE_MOVES, evtPend 1, .reg MEMCTL_STAT_PARKED, .reg MEMCTL_ERR_INFO_CHAN, .reg MEMCTL_ERR_INFO_ROW, .reg MEMCTL_ERR_INFO_CLASS, .reg MEMCTL_CE_CNT, .reg MEMCTL_UE_CNT, .reg MEMCTL_ROW_FAIL_CNT, .reg MEMCTL_PAGE_LOST_CNT, .reg MEMCTL_ADDR_FAULT_CNT, .reg MEMCTL_PENDING_ROWS, .reg MEMCTL_PENDING_REMAP_USED, evtPend 3, .reg LINK_STAT_DETOUR, evtPend 7, .reg COLL_ORIG, .reg CULVERT_AUDIT_ABORT, .reg CULVERT_SUSPECT_CNT, .reg CULVERT_SUSPECT, .reg CULVERT_SUSPECT_INFO_BUF, .reg CULVERT_SUSPECT_INFO_OUTCOME, .reg CULVERT_SUSPECT_INFO_TILE, evtPend 9, .mem, .poison, .mcs, .cul, .ctxs, .jwide, .txStreams, .sendq, .pow, .out]) fun t =>
      t.mem = (recPut b 24 4 n (storeWeights b none (wgtAddr s b) 0 ((tilesOfMat (lTl b.lat) (lTr b.lat) (chunks (64 * lTr b.lat) (64 * lTl b.lat) ((commitWords ((ctxOf s c).seed.getD 0) n g ((matOfTiles (lTl b.lat) (lTr b.lat) (T.map (tileMat fmtW24 3))).flatMap id) (deltaOf st b)).map fun w => fmtW24.dec w.1))).map (tileBs fmtW24 3)) s)).mem ∧ t.blk c n g = some { b with ph := 3, stopped := false, p := [] } ∧ (ctxOf t c).lastCommit = some (max n ((ctxOf s c).lastCommit.getD 0))) ∧
  (∀ (c n g : Nat) (st : Step) (b : Blk) (T : List (List Byte)) (s : State), isAwake s = true → blkOf s c n g = some (st, b) → b.ph = 3 → ownerReady s c n b = true → mirrored s c b = true → wholeBuf b 1 s = (some T, s) → (membersTo s 2 (twinId s)).isEmpty = false → Does (.mirrorSend c n g) s ([.reg MEMCTL_STAT_PARKED, .reg MEMCTL_ERR_INFO_CHAN, .reg MEMCTL_ERR_INFO_ROW, .reg MEMCTL_ERR_INFO_CLASS, .reg MEMCTL_CE_CNT, .reg MEMCTL_UE_CNT, .reg MEMCTL_ROW_FAIL_CNT, .reg MEMCTL_PAGE_LOST_CNT, .reg MEMCTL_ADDR_FAULT_CNT, .reg MEMCTL_PENDING_ROWS, .reg MEMCTL_PENDING_REMAP_USED, evtPend 3, .reg LINK_STAT_DETOUR, evtPend 7, .reg COLL_ORIG, .reg CULVERT_SUSPECT_CNT, .reg CULVERT_SUSPECT, .reg CULVERT_SUSPECT_INFO_BUF, .reg CULVERT_SUSPECT_INFO_OUTCOME, .reg CULVERT_SUSPECT_INFO_TILE, evtPend 9, .mcs, .cul, .ctxs, .jwide, .txStreams, .sendq, .out]) fun t =>
      t.blk c n g = some { b with ph := 4 } ∧ t.mem = s.mem ∧ t.sent = s.sent ++ List.replicate ((membersTo s 2 (twinId s)).take (((culData s g 6 false 0 (weightTable s b) ++ culData s g 1 false 0 (T.flatMap id ++ weightTable s b) ++ [culFrame s g 8 false 0 (pl32 [(4, recGet s b 24 4), (1, recGet s b 17 1), (2, recGet s b 44 2)])]).length + 15) / 16)).length (culOpen s g 8 n false).what ++ (culData s g 6 false 0 (weightTable s b) ++ culData s g 1 false 0 (T.flatMap id ++ weightTable s b) ++ [culFrame s g 8 false 0 (pl32 [(4, recGet s b 24 4), (1, recGet s b 17 1), (2, recGet s b 44 2)])]).map Frame.what) ∧
  (∀ (c n g : Nat) (us : List Nat) (st : Step) (b : Blk) (T : List (List Byte)) (G : Mat) (new : Option (List Mat)) (s : State), isAwake s = true → blkOf s c n g = some (st, b) → b.ph = 3 → ownerReady s c n b = true → (c == culCtx s) = false → wholeBuf b 2 s = (some T, s) → replayOn s c = false → accMat b s = (some G, s) → (if b.nfAcc || lF b.lat == 0 then none else newFactors st b (recGet s b 46 2) G T) = new → (b.nfAcc || lF b.lat == 0 || new.isSome) = true → isDue st b = false → blkOf s c (n + 1) g = none → Does (.factorUpdate c n ⟨g, us⟩) s ([.reg TUNIT_STAT_BUSY, .reg TUNIT_STAT_HALTED, .reg TUNIT_STAT_CQ_LEVEL, .reg TUNIT_STAT_WQ_LEVEL, .reg TUNIT_DESC_DONE, .reg TUNIT_CHK_REPEAT_OK, .reg TUNIT_LAST_STAT, .reg TUNIT_A20_OVF, .reg TUNIT_ACC_REPEAT, .reg TUNIT_CHUNK4_TILES, .reg TUNIT_ACC_DIVERGE, evtPend 0, .reg CLUSTER_NONFINITE_BLK, .reg CLUSTER_SCALE_DIVERGE, .reg CLUSTER_REPLAY_DIV_CNT, .reg CLUSTER_FACTOR_UPD, .reg CLUSTER_SNAP_TAKEN, .reg CLUSTER_SNAP_SKIP, evtPend 1, .reg ROOTSEQ_STAT_BUSY, .reg ROOTSEQ_STAT_PHASE, .reg ROOTSEQ_STAT_SIDE, .reg ROOTSEQ_CUR_GBI, .reg MEMCTL_STAT_PARKED, .reg MEMCTL_ERR_INFO_CHAN, .reg MEMCTL_ERR_INFO_ROW, .reg MEMCTL_ERR_INFO_CLASS, .reg MEMCTL_CE_CNT, .reg MEMCTL_UE_CNT, .reg MEMCTL_ROW_FAIL_CNT, .reg MEMCTL_PAGE_LOST_CNT, .reg MEMCTL_ADDR_FAULT_CNT, .reg MEMCTL_PENDING_ROWS, .reg MEMCTL_PENDING_REMAP_USED, evtPend 3, .reg LINK_STAT_DETOUR, evtPend 7, .reg COLL_ORIG, .reg CULVERT_SUSPECT_CNT, .reg CULVERT_SUSPECT, .reg CULVERT_SUSPECT_INFO_BUF, .reg CULVERT_SUSPECT_INFO_OUTCOME, .reg CULVERT_SUSPECT_INFO_TILE, evtPend 9, .mem, .poison, .mcs, .clusters, .units, .seqs, .cul, .ctxs, .jwide, .txStreams, .sendq, .out]) fun t =>
      t.mem = (recPut b 28 4 n ((new.map fun N => if min 65535 (recGet s b 46 2 + 1) = recGet s b 46 2 then storeFactors b none (facAddr s b) 0 (N.map (tileBs fmtFP32 4)) s else recPut b 46 2 (min 65535 (recGet s b 46 2 + 1)) (storeFactors b none (facAddr s b) 0 (N.map (tileBs fmtFP32 4)) s)).getD s)).mem ∧ t.blk c n g = some { b with wrote := new.isSome, half1 := false, ph := 5 })

/-- Mirrored transfers as they arrive: OPEN starts one and sets TRANSIT, table entries and data
are kept, and an entry goes to the owner's fetch. The rows: openFrame, tabWf, tabR, wgt, fac0,
fac1, root0, root1. Basis: R442, R443, R444, R445, R453. -/
def Obligations.CulvertReceive : Prop :=
  (∀ (f : Frame) (r : List Frame) (i : Nat) (b : Blk) (s : State), isAwake s = true → culHead 0xF [] s.inbox = some (f, r) → twinBlk s (uGbi f) = some (i, b) → 8 ≤ pay f.payload 0 1 → pay f.payload 0 1 ≤ 10 → uAud f = false → xferAt s b.gbi (pay f.payload 0 1) false = none → Does (.openFrame) s ([.reg MEMCTL_ADDR_FAULT_CNT, evtPend 3, .mem, .poison, .cul, .inbox, .out]) fun t =>
      t.inbox = r ∧ xferAt t b.gbi (pay f.payload 0 1) false = some { gbi := b.gbi, grp := pay f.payload 0 1, aud := false, stamp := pay f.payload 4 4 } ∧ t.mem = (if pay f.payload 0 1 = 8 then memStore 0 (chkArea (setChkFlags i (2 ^ (grpBit (pay f.payload 0 1) + 3)) 0 s) i + 4) (leBytes 4 (pay f.payload 4 4)) (setChkFlags i (2 ^ (grpBit (pay f.payload 0 1) + 3)) 0 s) else if pay f.payload 0 1 = 10 then memStore 0 (chkArea (setChkFlags i (2 ^ (grpBit (pay f.payload 0 1) + 3)) 0 s) i + 8) (leBytes 4 (pay f.payload 4 4)) (setChkFlags i (2 ^ (grpBit (pay f.payload 0 1) + 3)) 0 s) else (setChkFlags i (2 ^ (grpBit (pay f.payload 0 1) + 3)) 0 s)).mem) ∧
  (∀ (f : Frame) (r : List Frame) (i : Nat) (b : Blk) (x : CulXfer) (g : Nat) (s : State), isAwake s = true → culHead 6 [] s.inbox = some (f, r) → twinBlk s (uGbi f) = some (i, b) → s.cul.opens.get (0, 0, false) f.oport = (b.gbi, g, uAud f) → g ≠ 10 → xferAt s b.gbi (g) (uAud f) = some x → x.failed = false → x.wait = [] → x.close = none → noClose s.cul.xfers b.gbi = true → Does (.tabWf) s ([.reg MEMCTL_STAT_PARKED, .reg MEMCTL_ERR_INFO_CHAN, .reg MEMCTL_ERR_INFO_ROW, .reg MEMCTL_ERR_INFO_CLASS, .reg MEMCTL_CE_CNT, .reg MEMCTL_UE_CNT, .reg MEMCTL_ROW_FAIL_CNT, .reg MEMCTL_PAGE_LOST_CNT, .reg MEMCTL_ADDR_FAULT_CNT, .reg MEMCTL_PENDING_ROWS, .reg MEMCTL_PENDING_REMAP_USED, evtPend 3, .reg LINK_STAT_DETOUR, evtPend 7, .reg COLL_ORIG, .reg CULVERT_ACKS, .reg CULVERT_NACKS, .reg CULVERT_REPAIR_TWIN, .reg CULVERT_TABLE_FIX, evtPend 9, .mem, .poison, .mcs, .cul, .ctxs, .jwide, .txStreams, .sendq, .inbox, .pow, .out]) fun t =>
      t.inbox = r ∧ xferAt t b.gbi (g) (uAud f) = some { x with tab := (((wordsOf 4 f.payload).take (grpEntries b (g) - uOff f / 4)).zipIdx.foldl (fun t e => t.ins (uOff f / 4 + e.2) e.1) x.tab) } ∧ t.mem = (if uAud f then s.mem else (memStore 0 (incAddr s i b (g) (uOff f / 4)) (((wordsOf 4 f.payload).take (grpEntries b (g) - uOff f / 4)).flatMap (leBytes 4)) s).mem)) ∧
  (∀ (f : Frame) (r : List Frame) (i : Nat) (b : Blk) (x : CulXfer) (s : State), isAwake s = true → culHead 7 [] s.inbox = some (f, r) → twinBlk s (uGbi f) = some (i, b) → xferAt s b.gbi (10) (uAud f) = some x → x.failed = false → x.wait = [] → x.close = none → noClose s.cul.xfers b.gbi = true → Does (.tabR) s ([.reg MEMCTL_STAT_PARKED, .reg MEMCTL_ERR_INFO_CHAN, .reg MEMCTL_ERR_INFO_ROW, .reg MEMCTL_ERR_INFO_CLASS, .reg MEMCTL_CE_CNT, .reg MEMCTL_UE_CNT, .reg MEMCTL_ROW_FAIL_CNT, .reg MEMCTL_PAGE_LOST_CNT, .reg MEMCTL_ADDR_FAULT_CNT, .reg MEMCTL_PENDING_ROWS, .reg MEMCTL_PENDING_REMAP_USED, evtPend 3, .reg LINK_STAT_DETOUR, evtPend 7, .reg COLL_ORIG, .reg CULVERT_ACKS, .reg CULVERT_NACKS, .reg CULVERT_REPAIR_TWIN, .reg CULVERT_TABLE_FIX, evtPend 9, .mem, .poison, .mcs, .cul, .ctxs, .jwide, .txStreams, .sendq, .inbox, .pow, .out]) fun t =>
      t.inbox = r ∧ xferAt t b.gbi (10) (uAud f) = some { x with tab := (((wordsOf 4 f.payload).take (grpEntries b (10) - uOff f / 4)).zipIdx.foldl (fun t e => t.ins (uOff f / 4 + e.2) e.1) x.tab) } ∧ t.mem = (if uAud f then s.mem else (memStore 0 (incAddr s i b (10) (uOff f / 4)) (((wordsOf 4 f.payload).take (grpEntries b (10) - uOff f / 4)).flatMap (leBytes 4)) s).mem)) ∧
  (∀ (f : Frame) (r : List Frame) (b : Blk) (s : State), isAwake s = true → culHead 7 [] s.inbox = some (f, r) → twinBlk s (uGbi f) = none → ownedBlk s (uGbi f) = some b → Does (.tabR) s ([.reg MEMCTL_STAT_PARKED, .reg MEMCTL_ERR_INFO_CHAN, .reg MEMCTL_ERR_INFO_ROW, .reg MEMCTL_ERR_INFO_CLASS, .reg MEMCTL_CE_CNT, .reg MEMCTL_UE_CNT, .reg MEMCTL_ROW_FAIL_CNT, .reg MEMCTL_PAGE_LOST_CNT, .reg MEMCTL_ADDR_FAULT_CNT, .reg MEMCTL_PENDING_ROWS, .reg MEMCTL_PENDING_REMAP_USED, evtPend 3, .reg LINK_STAT_DETOUR, evtPend 7, .reg COLL_ORIG, .reg CULVERT_ACKS, .reg CULVERT_NACKS, .reg CULVERT_REPAIR_TWIN, .reg CULVERT_TABLE_FIX, evtPend 9, .mem, .poison, .mcs, .cul, .ctxs, .jwide, .txStreams, .sendq, .inbox, .pow, .out]) fun t =>
      t.inbox = r ∧ t.mem = s.mem ∧ t.cul.fetches = s.cul.fetches.map fun x => if x.gbi = b.gbi ∧ x.asked ∧ kindGrp x.kind = 10 ∧ uOff f ≤ 4 * entryIdx b x.kind x.tile ∧ 4 * entryIdx b x.kind x.tile < uOff f + f.payload.length then { x with entry := some (pay f.payload (4 * entryIdx b x.kind x.tile - uOff f) 4) } else x) ∧
  (∀ (f : Frame) (r : List Frame) (i : Nat) (b : Blk) (x : CulXfer) (s : State), isAwake s = true → culHead 1 [] s.inbox = some (f, r) → twinBlk s (uGbi f) = some (i, b) → xferAt s b.gbi 8 (uAud f) = some x → x.failed = false → offTile b 1 (uOff f) < bufTiles b 1 + 1 → joinParts (x.parts.put [] (1 * 2 ^ 34 + uOff f) f.payload) (1 * 2 ^ 34 + tileBytes 1 * offTile b 1 (uOff f)) (tileLen b 1 (offTile b 1 (uOff f))) = none → Does (.wgt) s ([.reg MEMCTL_STAT_PARKED, .reg MEMCTL_ERR_INFO_CHAN, .reg MEMCTL_ERR_INFO_ROW, .reg MEMCTL_ERR_INFO_CLASS, .reg MEMCTL_CE_CNT, .reg MEMCTL_UE_CNT, .reg MEMCTL_ROW_FAIL_CNT, .reg MEMCTL_PAGE_LOST_CNT, .reg MEMCTL_ADDR_FAULT_CNT, .reg MEMCTL_PENDING_ROWS, .reg MEMCTL_PENDING_REMAP_USED, evtPend 3, .reg LINK_STAT_DETOUR, evtPend 7, .reg COLL_ORIG, .reg CULVERT_ACKS, .reg CULVERT_NACKS, .reg CULVERT_REPAIR_OWNER, .reg CULVERT_REPAIR_TWIN, .reg CULVERT_TABLE_FIX, .reg CULVERT_SUSPECT_CNT, .reg CULVERT_SUSPECT, .reg CULVERT_SUSPECT_INFO_BUF, .reg CULVERT_SUSPECT_INFO_OUTCOME, .reg CULVERT_SUSPECT_INFO_TILE, evtPend 9, .mem, .poison, .mcs, .cul, .ctxs, .jwide, .txStreams, .sendq, .inbox, .pow, .out]) fun t =>
      t.inbox = r ∧ t.mem = s.mem ∧ xferAt t b.gbi 8 (uAud f) = some { x with parts := x.parts.put [] (1 * 2 ^ 34 + uOff f) f.payload }) ∧
  (∀ (f : Frame) (r : List Frame) (i : Nat) (b : Blk) (x : CulXfer) (s : State), isAwake s = true → culHead 2 [] s.inbox = some (f, r) → twinBlk s (uGbi f) = some (i, b) → xferAt s b.gbi 9 (uAud f) = some x → x.failed = false → offTile b 2 (uOff f) < bufTiles b 2 + 0 → joinParts (x.parts.put [] (2 * 2 ^ 34 + uOff f) f.payload) (2 * 2 ^ 34 + tileBytes 2 * offTile b 2 (uOff f)) (tileLen b 2 (offTile b 2 (uOff f))) = none → Does (.fac0) s ([.reg MEMCTL_STAT_PARKED, .reg MEMCTL_ERR_INFO_CHAN, .reg MEMCTL_ERR_INFO_ROW, .reg MEMCTL_ERR_INFO_CLASS, .reg MEMCTL_CE_CNT, .reg MEMCTL_UE_CNT, .reg MEMCTL_ROW_FAIL_CNT, .reg MEMCTL_PAGE_LOST_CNT, .reg MEMCTL_ADDR_FAULT_CNT, .reg MEMCTL_PENDING_ROWS, .reg MEMCTL_PENDING_REMAP_USED, evtPend 3, .reg LINK_STAT_DETOUR, evtPend 7, .reg COLL_ORIG, .reg CULVERT_ACKS, .reg CULVERT_NACKS, .reg CULVERT_REPAIR_OWNER, .reg CULVERT_REPAIR_TWIN, .reg CULVERT_TABLE_FIX, .reg CULVERT_SUSPECT_CNT, .reg CULVERT_SUSPECT, .reg CULVERT_SUSPECT_INFO_BUF, .reg CULVERT_SUSPECT_INFO_OUTCOME, .reg CULVERT_SUSPECT_INFO_TILE, evtPend 9, .mem, .poison, .mcs, .cul, .ctxs, .jwide, .txStreams, .sendq, .inbox, .pow, .out]) fun t =>
      t.inbox = r ∧ t.mem = s.mem ∧ xferAt t b.gbi 9 (uAud f) = some { x with parts := x.parts.put [] (2 * 2 ^ 34 + uOff f) f.payload }) ∧
  (∀ (f : Frame) (r : List Frame) (i : Nat) (b : Blk) (x : CulXfer) (s : State), isAwake s = true → culHead 3 [] s.inbox = some (f, r) → twinBlk s (uGbi f) = some (i, b) → xferAt s b.gbi 9 (uAud f) = some x → x.failed = false → offTile b 3 (uOff f) < bufTiles b 3 + 0 → joinParts (x.parts.put [] (3 * 2 ^ 34 + uOff f) f.payload) (3 * 2 ^ 34 + tileBytes 3 * offTile b 3 (uOff f)) (tileLen b 3 (offTile b 3 (uOff f))) = none → Does (.fac1) s ([.reg MEMCTL_STAT_PARKED, .reg MEMCTL_ERR_INFO_CHAN, .reg MEMCTL_ERR_INFO_ROW, .reg MEMCTL_ERR_INFO_CLASS, .reg MEMCTL_CE_CNT, .reg MEMCTL_UE_CNT, .reg MEMCTL_ROW_FAIL_CNT, .reg MEMCTL_PAGE_LOST_CNT, .reg MEMCTL_ADDR_FAULT_CNT, .reg MEMCTL_PENDING_ROWS, .reg MEMCTL_PENDING_REMAP_USED, evtPend 3, .reg LINK_STAT_DETOUR, evtPend 7, .reg COLL_ORIG, .reg CULVERT_ACKS, .reg CULVERT_NACKS, .reg CULVERT_REPAIR_OWNER, .reg CULVERT_REPAIR_TWIN, .reg CULVERT_TABLE_FIX, .reg CULVERT_SUSPECT_CNT, .reg CULVERT_SUSPECT, .reg CULVERT_SUSPECT_INFO_BUF, .reg CULVERT_SUSPECT_INFO_OUTCOME, .reg CULVERT_SUSPECT_INFO_TILE, evtPend 9, .mem, .poison, .mcs, .cul, .ctxs, .jwide, .txStreams, .sendq, .inbox, .pow, .out]) fun t =>
      t.inbox = r ∧ t.mem = s.mem ∧ xferAt t b.gbi 9 (uAud f) = some { x with parts := x.parts.put [] (3 * 2 ^ 34 + uOff f) f.payload }) ∧
  (∀ (f : Frame) (r : List Frame) (i : Nat) (b : Blk) (x : CulXfer) (s : State), isAwake s = true → culHead 4 [] s.inbox = some (f, r) → twinBlk s (uGbi f) = some (i, b) → xferAt s b.gbi 10 (uAud f) = some x → x.failed = false → offTile b 4 (uOff f) < bufTiles b 4 + 0 → joinParts (x.parts.put [] (4 * 2 ^ 34 + uOff f) f.payload) (4 * 2 ^ 34 + tileBytes 4 * offTile b 4 (uOff f)) (tileLen b 4 (offTile b 4 (uOff f))) = none → Does (.root0) s ([.reg MEMCTL_STAT_PARKED, .reg MEMCTL_ERR_INFO_CHAN, .reg MEMCTL_ERR_INFO_ROW, .reg MEMCTL_ERR_INFO_CLASS, .reg MEMCTL_CE_CNT, .reg MEMCTL_UE_CNT, .reg MEMCTL_ROW_FAIL_CNT, .reg MEMCTL_PAGE_LOST_CNT, .reg MEMCTL_ADDR_FAULT_CNT, .reg MEMCTL_PENDING_ROWS, .reg MEMCTL_PENDING_REMAP_USED, evtPend 3, .reg LINK_STAT_DETOUR, evtPend 7, .reg COLL_ORIG, .reg CULVERT_ACKS, .reg CULVERT_NACKS, .reg CULVERT_REPAIR_OWNER, .reg CULVERT_REPAIR_TWIN, .reg CULVERT_TABLE_FIX, .reg CULVERT_SUSPECT_CNT, .reg CULVERT_SUSPECT, .reg CULVERT_SUSPECT_INFO_BUF, .reg CULVERT_SUSPECT_INFO_OUTCOME, .reg CULVERT_SUSPECT_INFO_TILE, evtPend 9, .mem, .poison, .mcs, .cul, .ctxs, .jwide, .txStreams, .sendq, .inbox, .pow, .out]) fun t =>
      t.inbox = r ∧ t.mem = s.mem ∧ xferAt t b.gbi 10 (uAud f) = some { x with parts := x.parts.put [] (4 * 2 ^ 34 + uOff f) f.payload }) ∧
  (∀ (f : Frame) (r : List Frame) (i : Nat) (b : Blk) (x : CulXfer) (s : State), isAwake s = true → culHead 5 [] s.inbox = some (f, r) → twinBlk s (uGbi f) = some (i, b) → xferAt s b.gbi 10 (uAud f) = some x → x.failed = false → offTile b 5 (uOff f) < bufTiles b 5 + 0 → joinParts (x.parts.put [] (5 * 2 ^ 34 + uOff f) f.payload) (5 * 2 ^ 34 + tileBytes 5 * offTile b 5 (uOff f)) (tileLen b 5 (offTile b 5 (uOff f))) = none → Does (.root1) s ([.reg MEMCTL_STAT_PARKED, .reg MEMCTL_ERR_INFO_CHAN, .reg MEMCTL_ERR_INFO_ROW, .reg MEMCTL_ERR_INFO_CLASS, .reg MEMCTL_CE_CNT, .reg MEMCTL_UE_CNT, .reg MEMCTL_ROW_FAIL_CNT, .reg MEMCTL_PAGE_LOST_CNT, .reg MEMCTL_ADDR_FAULT_CNT, .reg MEMCTL_PENDING_ROWS, .reg MEMCTL_PENDING_REMAP_USED, evtPend 3, .reg LINK_STAT_DETOUR, evtPend 7, .reg COLL_ORIG, .reg CULVERT_ACKS, .reg CULVERT_NACKS, .reg CULVERT_REPAIR_OWNER, .reg CULVERT_REPAIR_TWIN, .reg CULVERT_TABLE_FIX, .reg CULVERT_SUSPECT_CNT, .reg CULVERT_SUSPECT, .reg CULVERT_SUSPECT_INFO_BUF, .reg CULVERT_SUSPECT_INFO_OUTCOME, .reg CULVERT_SUSPECT_INFO_TILE, evtPend 9, .mem, .poison, .mcs, .cul, .ctxs, .jwide, .txStreams, .sendq, .inbox, .pow, .out]) fun t =>
      t.inbox = r ∧ t.mem = s.mem ∧ xferAt t b.gbi 10 (uAud f) = some { x with parts := x.parts.put [] (5 * 2 ^ 34 + uOff f) f.payload })

/-- Mirroring at the twin and the owner: close frames adopt a transfer, acknowledgements,
refusals and resends, audit results, fetches and the suspect registers. The rows: closeW,
closeF, closeR, ack, nack, auditRes, fetch, resolve, auditGbi. Basis: R444, R445, R446, R449,
R450, R453, R454. -/
def Obligations.CulvertClosesAndFetches : Prop :=
  (∀ (f : Frame) (r : List Frame) (i : Nat) (b : Blk) (x : CulXfer) (s : State), isAwake s = true → culHead 8 [] s.inbox = some (f, r) → twinBlk s (uGbi f) = some (i, b) → uAud f = false → x = { ((xferAt s b.gbi 8 false).getD { gbi := b.gbi, grp := 8, aud := false, stamp := pay f.payload 0 4 }) with close := some f.payload } → x.failed = false → (neededTiles b x f.payload).all x.passed.contains = true → noClose (s.cul.xfers.filter fun y => !(y.gbi == b.gbi && y.grp == 8 && y.aud == false)) b.gbi = true → Does (.closeW) s ([.reg MEMCTL_ADDR_FAULT_CNT, evtPend 3, .reg LINK_STAT_DETOUR, evtPend 7, .reg COLL_ORIG, .reg CULVERT_ACKS, .mem, .poison, .cul, .txStreams, .sendq, .inbox, .out]) fun t =>
      t.inbox = r ∧ xferAt t b.gbi 8 false = none ∧ t.mem = (closeWeights i b x f.payload s).mem) ∧
  (∀ (f : Frame) (r : List Frame) (i : Nat) (b : Blk) (x : CulXfer) (s : State), isAwake s = true → culHead 9 [] s.inbox = some (f, r) → twinBlk s (uGbi f) = some (i, b) → uAud f = false → x = { ((xferAt s b.gbi 9 false).getD { gbi := b.gbi, grp := 9, aud := false, stamp := pay f.payload 0 4 }) with close := some f.payload } → x.failed = false → (neededTiles b x f.payload).all x.passed.contains = true → noClose (s.cul.xfers.filter fun y => !(y.gbi == b.gbi && y.grp == 9 && y.aud == false)) b.gbi = true → recGet s b 24 4 = pay f.payload 0 4 → Does (.closeF) s ([.reg MEMCTL_ADDR_FAULT_CNT, evtPend 3, .reg LINK_STAT_DETOUR, evtPend 7, .reg COLL_ORIG, .reg CULVERT_ACKS, .mem, .poison, .cul, .txStreams, .sendq, .inbox, .out]) fun t =>
      t.inbox = r ∧ xferAt t b.gbi 9 false = none ∧ t.mem = (closeFactors i b x f.payload s).mem) ∧
  (∀ (f : Frame) (r : List Frame) (i : Nat) (b : Blk) (x : CulXfer) (s : State), isAwake s = true → culHead 10 [] s.inbox = some (f, r) → twinBlk s (uGbi f) = some (i, b) → uAud f = false → x = { ((xferAt s b.gbi 10 false).getD { gbi := b.gbi, grp := 10, aud := false, stamp := pay f.payload 0 4 }) with close := some f.payload } → x.failed = false → (neededTiles b x f.payload).all x.passed.contains = true → noClose (s.cul.xfers.filter fun y => !(y.gbi == b.gbi && y.grp == 10 && y.aud == false)) b.gbi = true → Does (.closeR) s ([.reg MEMCTL_ADDR_FAULT_CNT, evtPend 3, .reg LINK_STAT_DETOUR, evtPend 7, .reg COLL_ORIG, .reg CULVERT_ACKS, .mem, .poison, .cul, .txStreams, .sendq, .inbox, .out]) fun t =>
      t.inbox = r ∧ xferAt t b.gbi 10 false = none ∧ t.mem = (closeRoots i b x f.payload s).mem) ∧
  (∀ (f : Frame) (r : List Frame) (st : Step) (b : Blk) (s : State), isAwake s = true → culHead 0xB [] s.inbox = some (f, r) → pay f.payload 4 1 = 9 → blkOf s (culCtx s) (pay f.payload 0 4) (uGbi f) = some (st, b) → Does (.ack) s ([.cul, .ctxs, .inbox]) fun t =>
      t.inbox = r ∧ t.blk (culCtx s) (pay f.payload 0 4) (uGbi f) = some { b with acked := true } ∧ t.cul.keep = s.cul.keep.filter fun e => !(e.1 / 16 == uGbi f && [2, 3].contains (e.1 % 16))) ∧
  (∀ (f : Frame) (r : List Frame) (b : Blk) (s : State), isAwake s = true → culHead 0xC [] s.inbox = some (f, r) → ownedBlk s (uGbi f) = some b → bit (pay f.payload 8 1) 0 = true → (fetchOf s (uGbi f) (pay f.payload 0 1) (pay f.payload 4 4)).isSome = true → Does (.nack) s ([.reg MEMCTL_STAT_PARKED, .reg MEMCTL_ERR_INFO_CHAN, .reg MEMCTL_ERR_INFO_ROW, .reg MEMCTL_ERR_INFO_CLASS, .reg MEMCTL_CE_CNT, .reg MEMCTL_UE_CNT, .reg MEMCTL_ROW_FAIL_CNT, .reg MEMCTL_PAGE_LOST_CNT, .reg MEMCTL_ADDR_FAULT_CNT, .reg MEMCTL_PENDING_ROWS, .reg MEMCTL_PENDING_REMAP_USED, evtPend 3, .reg LINK_STAT_DETOUR, evtPend 7, .reg COLL_ORIG, .reg CULVERT_RESENDS, .reg CULVERT_SUSPECT_CNT, .reg CULVERT_SUSPECT, .reg CULVERT_SUSPECT_INFO_BUF, .reg CULVERT_SUSPECT_INFO_OUTCOME, .reg CULVERT_SUSPECT_INFO_TILE, evtPend 9, .mcs, .cul, .ctxs, .jwide, .txStreams, .sendq, .inbox, .out]) fun t =>
      t.inbox = r ∧ isSuspect t (uGbi f) = true ∧ fetchOf t (uGbi f) (pay f.payload 0 1) (pay f.payload 4 4) = none) ∧
  (∀ (f : Frame) (r : List Frame) (b : Blk) (s : State), isAwake s = true → culHead 0xC [] s.inbox = some (f, r) → ownedBlk s (uGbi f) = some b → bit (pay f.payload 8 1) 0 = false → pay f.payload 0 1 = 1 → pay f.payload 4 4 = lTiles b.lat → (membersTo s 2 (twinId s)).isEmpty = false → Does (.nack) s ([.reg MEMCTL_STAT_PARKED, .reg MEMCTL_ERR_INFO_CHAN, .reg MEMCTL_ERR_INFO_ROW, .reg MEMCTL_ERR_INFO_CLASS, .reg MEMCTL_CE_CNT, .reg MEMCTL_UE_CNT, .reg MEMCTL_ROW_FAIL_CNT, .reg MEMCTL_PAGE_LOST_CNT, .reg MEMCTL_ADDR_FAULT_CNT, .reg MEMCTL_PENDING_ROWS, .reg MEMCTL_PENDING_REMAP_USED, evtPend 3, .reg LINK_STAT_DETOUR, evtPend 7, .reg COLL_ORIG, .reg CULVERT_RESENDS, .reg CULVERT_SUSPECT_CNT, .reg CULVERT_SUSPECT, .reg CULVERT_SUSPECT_INFO_BUF, .reg CULVERT_SUSPECT_INFO_OUTCOME, .reg CULVERT_SUSPECT_INFO_TILE, evtPend 9, .mcs, .cul, .ctxs, .jwide, .txStreams, .sendq, .inbox, .out]) fun t =>
      t.inbox = r ∧ t.sent = s.sent ++ (culData s b.gbi 1 false (12288 * lTiles b.lat) (weightTable s b)).map Frame.what ∧ getF t CULVERT_RESENDS 0 = (getF s CULVERT_RESENDS 0 + 1) % 2 ^ 32) ∧
  (∀ (f : Frame) (r : List Frame) (g k : Nat) (s : State), isAwake s = true → culHead 0xD [] s.inbox = some (f, r) → s.cul.audits.find? (fun e => e.1 == uGbi f) = some (g, [k]) → pay f.payload 0 4 ≠ 0 → pay f.payload 4 1 < 3 → Does (.auditRes) s ([.reg CULVERT_AUDIT_BLK, .reg CULVERT_AUDIT_SKIP, .reg CULVERT_SUSPECT_CNT, .reg CULVERT_SUSPECT, .reg CULVERT_SUSPECT_INFO_BUF, .reg CULVERT_SUSPECT_INFO_OUTCOME, .reg CULVERT_SUSPECT_INFO_TILE, evtPend 9, .cul, .inbox, .out]) fun t =>
      t.inbox = r ∧ t.cul.audits = s.cul.audits.filter (fun e => e.1 != uGbi f) ∧ t.cul.suspects = s.cul.suspects ∧ getF t CULVERT_AUDIT_BLK 0 = (getF s CULVERT_AUDIT_BLK 0 + 1) % 2 ^ 32) ∧
  (∀ (f : Frame) (r : List Frame) (e : Nat × List Nat) (s : State), isAwake s = true → culHead 0xD [] s.inbox = some (f, r) → s.cul.audits.find? (fun e => e.1 == uGbi f) = some e → pay f.payload 0 4 = 0 → Does (.auditRes) s ([.reg CULVERT_AUDIT_BLK, .reg CULVERT_AUDIT_SKIP, .reg CULVERT_SUSPECT_CNT, .reg CULVERT_SUSPECT, .reg CULVERT_SUSPECT_INFO_BUF, .reg CULVERT_SUSPECT_INFO_OUTCOME, .reg CULVERT_SUSPECT_INFO_TILE, evtPend 9, .cul, .inbox, .out]) fun t =>
      t.inbox = r ∧ t.cul.audits = s.cul.audits.filter (fun e => e.1 != uGbi f) ∧ t.cul.suspects = s.cul.suspects ∧ getF t CULVERT_AUDIT_SKIP 0 = (getF s CULVERT_AUDIT_SKIP 0 + 1) % 2 ^ 32) ∧
  (∀ (f : Frame) (r : List Frame) (i : Nat) (b : Blk) (bs : List Byte) (s : State), isAwake s = true → culHead 0xE [] s.inbox = some (f, r) → twinBlk s (uGbi f) = some (i, b) → fetchAnswer i b (pay f.payload 0 1) (pay f.payload 4 4) (pay f.payload 8 4) s = (some bs, s) → (membersTo s 2 (twinId s)).isEmpty = false → noWeak s = true → Does (.fetch) s ([.reg MEMCTL_STAT_PARKED, .reg MEMCTL_ERR_INFO_CHAN, .reg MEMCTL_ERR_INFO_ROW, .reg MEMCTL_ERR_INFO_CLASS, .reg MEMCTL_CE_CNT, .reg MEMCTL_UE_CNT, .reg MEMCTL_ROW_FAIL_CNT, .reg MEMCTL_PAGE_LOST_CNT, .reg MEMCTL_ADDR_FAULT_CNT, .reg MEMCTL_PENDING_ROWS, .reg MEMCTL_PENDING_REMAP_USED, evtPend 3, .reg LINK_STAT_DETOUR, evtPend 7, .reg COLL_ORIG, .mcs, .jwide, .txStreams, .sendq, .inbox, .out]) fun t =>
      t.inbox = r ∧ t.mem = s.mem ∧ t.sent = s.sent ++ ((if pay f.payload 0 1 = 1 then [] else [culFrame s b.gbi (if pay f.payload 0 1 < 4 then 6 else 7) false (entryIdx b (pay f.payload 0 1) (pay f.payload 4 4) / 8 * 32) (((List.range 8).map fun k => if k = entryIdx b (pay f.payload 0 1) (pay f.payload 4 4) % 8 then mval s 0 (storedAddr s i b (pay f.payload 0 1) (pay f.payload 4 4)) 4 else 0).flatMap (leBytes 4))]) ++ culData s b.gbi (pay f.payload 0 1) false (tileBytes (pay f.payload 0 1) * pay f.payload 4 4) bs).map Frame.what) ∧
  (∀ (f : Frame) (r : List Frame) (i : Nat) (b : Blk) (s : State), isAwake s = true → culHead 0xE [] s.inbox = some (f, r) → twinBlk s (uGbi f) = some (i, b) → (pay f.payload 0 1 = 0 ∨ 5 < pay f.payload 0 1 ∨ bufTiles b (pay f.payload 0 1) ≤ pay f.payload 4 4 ∨ (chkFlags s i).testBit (grpBit (kindGrp (pay f.payload 0 1))) = false ∨ (chkFlags s i).testBit (grpBit (kindGrp (pay f.payload 0 1)) + 3) = true ∨ kindStamp s b (pay f.payload 0 1) ≠ pay f.payload 8 4) → (membersTo s 2 (twinId s)).isEmpty = false → Does (.fetch) s ([.reg MEMCTL_STAT_PARKED, .reg MEMCTL_ERR_INFO_CHAN, .reg MEMCTL_ERR_INFO_ROW, .reg MEMCTL_ERR_INFO_CLASS, .reg MEMCTL_CE_CNT, .reg MEMCTL_UE_CNT, .reg MEMCTL_ROW_FAIL_CNT, .reg MEMCTL_PAGE_LOST_CNT, .reg MEMCTL_ADDR_FAULT_CNT, .reg MEMCTL_PENDING_ROWS, .reg MEMCTL_PENDING_REMAP_USED, evtPend 3, .reg LINK_STAT_DETOUR, evtPend 7, .reg COLL_ORIG, .mcs, .jwide, .txStreams, .sendq, .inbox, .out]) fun t =>
      t.inbox = r ∧ t.mem = s.mem ∧ t.sent = s.sent ++ [(culFrame s (uGbi f) 0xC false 0 (pl32 [(4, pay f.payload 0 1), (4, pay f.payload 4 4), (1, 1)])).what]) ∧
  (∀ (r : Requester) (a v : Nat) (s : State), a % 4 = 0 → target s r a = some (9, 0, 0x11C) → gate s r 9 0 0x11C = .pass → isSuspect s (v % 2 ^ 32) = true → 2 ≤ getF s CULVERT_RESOLVE_ACT 0 → Does (.resolve r a v) s (denied ++ ([.reg MEMCTL_STAT_PARKED, .reg MEMCTL_ERR_INFO_CHAN, .reg MEMCTL_ERR_INFO_ROW, .reg MEMCTL_ERR_INFO_CLASS, .reg MEMCTL_CE_CNT, .reg MEMCTL_UE_CNT, .reg MEMCTL_ROW_FAIL_CNT, .reg MEMCTL_PAGE_LOST_CNT, .reg MEMCTL_ADDR_FAULT_CNT, .reg MEMCTL_PENDING_ROWS, .reg MEMCTL_PENDING_REMAP_USED, evtPend 3, .reg LINK_STAT_DETOUR, evtPend 7, .reg COLL_ORIG, .reg CULVERT_SUSPECT_CNT, .reg CULVERT_SUSPECT, .reg CULVERT_SUSPECT_INFO_BUF, .reg CULVERT_SUSPECT_INFO_OUTCOME, .reg CULVERT_SUSPECT_INFO_TILE, evtPend 9, .mcs, .cul, .ctxs, .jwide, .txStreams, .sendq, .out] : List Part)) fun t =>
      t.cul.suspects = s.cul.suspects.filter (fun y => y.gbi != v % 2 ^ 32) ∧ isSuspect t (v % 2 ^ 32) = false ∧ t.mem = s.mem ∧ getF t CULVERT_SUSPECT 0 = ((s.cul.suspects.filter (fun y => y.gbi != v % 2 ^ 32)).headD { gbi := 0, buf := 0, outcome := 0, tile := 0 }).gbi % 2 ^ 32) ∧
  (∀ (r : Requester) (a v : Nat) (s : State), a % 4 = 0 → target s r a = some (9, 0, 0x110) → gate s r 9 0 0x110 = .pass → Does (.auditGbi r a v) s (denied ++ ([.cul] : List Part)) fun t =>
      t.cul.wanted = s.cul.wanted ++ [v % 2 ^ 32])

/-- Descriptors on their way through a cluster: headers and descriptors of lists, cluster
queues, units taking and completing them. The rows: listDescRead, matmulDescriptor, descTake,
descComplete. Basis: R86, R88, R89, R93, R108, R524, R529, R667. -/
def Obligations.DescriptorListsAndQueues : Prop :=
  (∀ (cl lid : Nat) (l : ListRun) (s : State), stopped s = false → domOn s (32 + cl / 8) = true → listOf s cl lid = some l → listTurn s cl l = true → l.pos.hdr = false → l.pos.idx < l.pos.count → groupOk (dop (sramRead s cl (l.pos.addr + 64 + 32 * l.pos.idx) 32)) = true → Does (.listDescRead cl lid) s ([.reg CLUSTER_LIST_ERR_CODE, .reg CLUSTER_LIST_ERR_ADDR, evtPend 1, .clusters, .reports, .out]) fun t =>
      listOf t cl lid = some { l with desc := some (sramRead s cl (l.pos.addr + 64 + 32 * l.pos.idx) 32), pos := { l.pos with idx := l.pos.idx + 1 } } ∧ (clusterOf t cl).lastCtx = l.ctx) ∧
  (∀ (cl lid : Nat) (l : ListRun) (s : State), stopped s = false → domOn s (32 + cl / 8) = true → listOf s cl lid = some l → listTurn s cl l = true → l.pos.hdr = true → l.pos.addr % 64 = 0 → l.pos.addr + 64 + 32 * sramVal s cl (l.pos.addr + 4) 4 ≤ sramTop → 0 < sramVal s cl (l.pos.addr + 4) 4 → leVal (sramRead s cl (l.pos.addr + 16) 48) = 0 → Does (.listDescRead cl lid) s ([.reg CLUSTER_LIST_ERR_CODE, .reg CLUSTER_LIST_ERR_ADDR, evtPend 1, .clusters, .reports, .out]) fun t =>
      listOf t cl lid = some { l with pos := { addr := l.pos.addr, hdr := false, step := sramVal s cl l.pos.addr 4, count := sramVal s cl (l.pos.addr + 4) 4, idx := 0, next := sramVal s cl (l.pos.addr + 8) 8 } } ∧ (clusterOf t cl).lastCtx = l.ctx) ∧
  (∀ (cl lid : Nat) (l : ListRun) (s : State), stopped s = false → domOn s (32 + cl / 8) = true → listOf s cl lid = some l → listTurn s cl l = true → l.pos.hdr = false → l.pos.idx < l.pos.count → groupOk (dop (sramRead s cl (l.pos.addr + 64 + 32 * l.pos.idx) 32)) = false → getF s CLUSTER_LIST_ERR_CODE cl = 0 → Does (.listDescRead cl lid) s ([.reg CLUSTER_LIST_ERR_CODE, .reg CLUSTER_LIST_ERR_ADDR, evtPend 1, .clusters, .reports, .out]) fun t =>
      listOf t cl lid = some { l with st := .halted, desc := none, gated := [] } ∧ getF t CLUSTER_LIST_ERR_CODE cl = 1 ∧ evtSet t CLUSTER_EV_LIST_INVALID cl = true) ∧
  (∀ (cl lid n : Nat) (l : ListRun) (d : List Byte) (s : State), stopped s = false → domOn s (32 + cl / 8) = true → descInHand s cl lid 2 = some (l, d) → n < 4 → cqOpen s cl n = true → outranked s cl l.ctx = false → Does (.matmulDescriptor cl lid n) s ([.reg TUNIT_STAT_BUSY, .reg TUNIT_STAT_HALTED, .reg TUNIT_STAT_CQ_LEVEL, .reg TUNIT_STAT_WQ_LEVEL, .clusters, .units]) fun t =>
      (unitOf t (cl * 4 + n)).cq = (unitOf s (cl * 4 + n)).cq ++ [{ desc := d, ctx := l.ctx, lid := lid, step := l.pos.step, part := inPart l }] ∧ listOf t cl lid = some { l with desc := none, out := l.out + 1, grp := if inPart l then l.grp.map fun g => { g with out := g.out + 1 } else l.grp } ∧ getF t TUNIT_STAT_CQ_LEVEL (cl * 4 + n) = ((unitOf s (cl * 4 + n)).cq.length + 1) % 32) ∧
  (∀ (u : Nat) (q : QDesc) (r : List QDesc) (s : State), stopped s = false → domOn s (u / 32) = true → (unitOf s u).run = none → fenced s u = false → isF s TUNIT_CTRL_Q_EN u = true → isF s TUNIT_STAT_LEND u = false → (unitOf s u).cq = q :: r → (unitOf s u).bad = none → descCode false q.desc = 0 → Does (.descTake u) s ([.reg TUNIT_STAT_BUSY, .reg TUNIT_STAT_MODE, .reg TUNIT_STAT_HALTED, .reg TUNIT_STAT_CQ_LEVEL, .reg TUNIT_STAT_WQ_LEVEL, .reg TUNIT_ERR_INFO_CODE, .reg TUNIT_ERR_INFO_TILE, .reg TUNIT_ERR_INFO_DESC_SEQ, evtPend 0, .units, .out]) fun t =>
      unitOf t u = { unitOf s u with cq := r, run := some q, tile := {} } ∧ getF t TUNIT_STAT_MODE u = 0 ∧ getF t TUNIT_STAT_BUSY u = 1 ∧ getF t TUNIT_STAT_CQ_LEVEL u = r.length % 32) ∧
  (∀ (u : Nat) (q : QDesc) (r : List QDesc) (s : State), stopped s = false → domOn s (u / 32) = true → (unitOf s u).run = none → fenced s u = false → isF s TUNIT_CTRL_Q_EN u = true → wideReady s u = true → (isF s TUNIT_STAT_LEND u = true ∨ (unitOf s u).cq = []) → (unitOf s u).wq = q :: r → descCode true q.desc = 0 → Does (.descTake u) s ([.reg TUNIT_STAT_BUSY, .reg TUNIT_STAT_MODE, .reg TUNIT_STAT_HALTED, .reg TUNIT_STAT_CQ_LEVEL, .reg TUNIT_STAT_WQ_LEVEL, .reg TUNIT_ERR_INFO_CODE, .reg TUNIT_ERR_INFO_TILE, .reg TUNIT_ERR_INFO_DESC_SEQ, evtPend 0, .units, .out]) fun t =>
      unitOf t u = { unitOf s u with wq := r, run := some q, tile := {} } ∧ getF t TUNIT_STAT_MODE u = 1 ∧ getF t TUNIT_STAT_BUSY u = 1) ∧
  (∀ (u : Nat) (q : QDesc) (r : List QDesc) (s : State), stopped s = false → domOn s (u / 32) = true → (unitOf s u).run = none → fenced s u = false → isF s TUNIT_CTRL_Q_EN u = true → isF s TUNIT_STAT_LEND u = false → (unitOf s u).cq = q :: r → (unitOf s u).bad = none → descCode false q.desc ≠ 0 → getF s TUNIT_ERR_INFO_CODE u = 0 → Does (.descTake u) s ([.reg TUNIT_STAT_BUSY, .reg TUNIT_STAT_MODE, .reg TUNIT_STAT_HALTED, .reg TUNIT_STAT_CQ_LEVEL, .reg TUNIT_STAT_WQ_LEVEL, .reg TUNIT_ERR_INFO_CODE, .reg TUNIT_ERR_INFO_TILE, .reg TUNIT_ERR_INFO_DESC_SEQ, evtPend 0, .units, .out]) fun t =>
      unitOf t u = { unitOf s u with cq := r, bad := some q } ∧ getF t TUNIT_STAT_HALTED u = 1 ∧ getF t TUNIT_ERR_INFO_CODE u = descCode false q.desc % 16 ∧ evtSet t TUNIT_EV_DESC_INVALID u = true) ∧
  (∀ (u : Nat) (q : QDesc) (s : State), stopped s = false → domOn s (u / 32) = true → fenced s u = false → (unitOf s u).run = some q → q.wide = false → mTiles q.desc ≤ q.tile → Does (.descComplete u) s ([.reg TUNIT_STAT_BUSY, .reg TUNIT_STAT_HALTED, .reg TUNIT_STAT_ADOPTING, .reg TUNIT_STAT_ADOPTED_FROM, .reg TUNIT_STAT_CQ_LEVEL, .reg TUNIT_STAT_WQ_LEVEL, .reg TUNIT_DESC_DONE, .reg TUNIT_BX_SAT_CNT, .reg TUNIT_WIDE_DESC, .reg TUNIT_ADOPT_CNT, .reg TUNIT_LAST_STAT, .reg TUNIT_ACC_DIVERGE, evtPend 0, .reg CLUSTER_REPLAY_DIV_CNT, evtPend 1, .reg SYNC_SIGNALS, .reg SYNC_WAITS_DONE, .reg SYNC_STALE_SIG_CNT, .reg SYNC_SAT_CNT, evtPend 6, .sram, .objs, .releases, .clusters, .units, .seqs, .ctxs, .reports, .out]) fun t =>
      (unitOf t u).run = none ∧ (unitOf t u).cq = (unitOf s u).cq ∧ getF t TUNIT_LAST_STAT u = (q.status ||| (if q.adopted then 4 else 0)) % 32 ∧ getF t TUNIT_DESC_DONE u = (getF s TUNIT_DESC_DONE u + 1) % 2 ^ 32) ∧
  (∀ (u : Nat) (q : QDesc) (s : State), stopped s = false → domOn s (u / 32) = true → fenced s u = false → (unitOf s u).run = some q → q.wide = true → Does (.descComplete u) s ([.reg TUNIT_STAT_BUSY, .reg TUNIT_STAT_HALTED, .reg TUNIT_STAT_ADOPTING, .reg TUNIT_STAT_ADOPTED_FROM, .reg TUNIT_STAT_CQ_LEVEL, .reg TUNIT_STAT_WQ_LEVEL, .reg TUNIT_DESC_DONE, .reg TUNIT_BX_SAT_CNT, .reg TUNIT_WIDE_DESC, .reg TUNIT_ADOPT_CNT, .reg TUNIT_LAST_STAT, .reg TUNIT_ACC_DIVERGE, evtPend 0, .reg CLUSTER_REPLAY_DIV_CNT, evtPend 1, .reg SYNC_SIGNALS, .reg SYNC_WAITS_DONE, .reg SYNC_STALE_SIG_CNT, .reg SYNC_SAT_CNT, evtPend 6, .sram, .objs, .releases, .clusters, .units, .seqs, .ctxs, .reports, .out]) fun t =>
      (unitOf t u).run = none ∧ getF t TUNIT_DESC_DONE u = (getF s TUNIT_DESC_DONE u + 1) % 2 ^ 32 ∧ getF t TUNIT_WIDE_DESC u = (getF s TUNIT_WIDE_DESC u + 1) % 2 ^ 32)

/-- Tiles of a tensor unit and its fencing: passes over a chunk, the check and entry of a tile,
fencing, resuming and adoption.  Basis: R89, R90, R98, R99, R101, R119, R612. The model's
choices it rests on: log entry 43. -/
def Obligations.TilesAndFencing : Prop :=
  (∀ (u : Nat) (q : QDesc) (s : State), stopped s = false → domOn s (u / 32) = true → floatRun s u = some q → mFmtL q.desc ≠ 4 → (unitOf s u).tile.k < mK q.desc → Does (.chunkPassEnd u) s ([.reg TUNIT_STAT_BUSY, .reg TUNIT_STAT_HALTED, .reg TUNIT_STAT_CQ_LEVEL, .reg TUNIT_STAT_WQ_LEVEL, .clusters, .units]) fun t =>
      unitOf t u = { unitOf s u with tile := chunkPass (tileOps s (u / 4) q.desc q.tile) (unitOf s u).tile } ∧ (clusterOf t (u / 4)).tally.get 0 (q.ctx * 4 + workClass (mFmtL q.desc)) = (clusterOf s (u / 4)).tally.get 0 (q.ctx * 4 + workClass (mFmtL q.desc)) + 64 * chunkLen (tileOps s (u / 4) q.desc q.tile) (unitOf s u).tile) ∧
  (∀ (u corr stall ahead : Nat) (fl : Flips) (q : QDesc) (w : List Nat) (v : List Nat) (s : State), stopped s = false → domOn s (u / 32) = true → fenced s u = false → (unitOf s u).run = some q → q.wide = false → q.tile < mTiles q.desc → formed s u q = some w → missRow (getF s TUNIT_CHK_CFG_CHK_TOL u) (flipCol fl (checkCol (tileOps s (u / 4) q.desc q.tile))) (flipWords fl w) = none → enterSlot (mAcc q.desc) ((unitOf s u).acc.get {} ((if q.adopted then 8 else 0) + q.tile)).vals (flipWords fl w) = v → Does (.tileEnd u corr false fl ⟨stall, ahead⟩) s ([.reg TUNIT_STAT_BUSY, .reg TUNIT_STAT_FENCED, .reg TUNIT_STAT_HALTED, .reg TUNIT_STAT_LEND, .reg TUNIT_STAT_ADOPTING, .reg TUNIT_STAT_ADOPTED_FROM, .reg TUNIT_STAT_CQ_LEVEL, .reg TUNIT_STAT_WQ_LEVEL, .reg TUNIT_ERR_INFO_CODE, .reg TUNIT_ERR_INFO_TILE, .reg TUNIT_ERR_INFO_DESC_SEQ, .reg TUNIT_DESC_DONE, .reg TUNIT_CHK_MISS, .reg TUNIT_CHK_REPEAT_OK, .reg TUNIT_FEED_STALL, .reg TUNIT_ECC_CORR_CNT, .reg TUNIT_LAST_STAT, .reg TUNIT_MISS_INFO_ROW, .reg TUNIT_MISS_INFO_TILE, .reg TUNIT_MISS_INFO_REPEAT, .reg TUNIT_A20_OVF, .reg TUNIT_ACC_REPEAT, .reg TUNIT_CHUNK4_TILES, .reg TUNIT_ACC_DIVERGE, evtPend 0, .reg CLUSTER_ADOPT_FAIL_CNT, .reg CLUSTER_REPLAY_DIV_CNT, evtPend 1, .sram, .clusters, .units, .seqs, .ctxs, .reports, .out]) fun t =>
      (∃ y, unitOf t u = { unitOf s u with acc := (unitOf s u).acc.put {} ((if q.adopted then 8 else 0) + q.tile) { ctx := q.ctx, vals := v, chk := enterCol (mAcc q.desc) ((unitOf s u).acc.get {} ((if q.adopted then 8 else 0) + q.tile)).chk (flipCol fl (checkCol (tileOps s (u / 4) q.desc q.tile))) }, run := some { q with tile := q.tile + 1, status := q.status ||| (if spills (mWrite q.desc) (mFmtOut q.desc) v then 1 else 0) ||| (if (unitOf s u).tile.again then 2 else 0), c4 := q.c4 ++ chunk4Of q (unitOf s u).tile }, tile := y } ∧ (ahead = 0 → y = {})) ∧ t.sram = (if mWrite q.desc then writeTile (u / 4) q.desc q.tile v 64 s else s).sram ∧ getF t TUNIT_FEED_STALL u = (getF s TUNIT_FEED_STALL u + stall) % 2 ^ 32) ∧
  (∀ (u corr stall ahead : Nat) (fl : Flips) (q : QDesc) (w : List Nat) (row : Nat) (s : State), stopped s = false → domOn s (u / 32) = true → fenced s u = false → (unitOf s u).run = some q → q.wide = false → q.tile < mTiles q.desc → formed s u q = some w → missRow (getF s TUNIT_CHK_CFG_CHK_TOL u) (flipCol fl (checkCol (tileOps s (u / 4) q.desc q.tile))) (flipWords fl w) = some row → (unitOf s u).tile.again = false → Does (.tileEnd u corr false fl ⟨stall, ahead⟩) s ([.reg TUNIT_STAT_BUSY, .reg TUNIT_STAT_FENCED, .reg TUNIT_STAT_HALTED, .reg TUNIT_STAT_LEND, .reg TUNIT_STAT_ADOPTING, .reg TUNIT_STAT_ADOPTED_FROM, .reg TUNIT_STAT_CQ_LEVEL, .reg TUNIT_STAT_WQ_LEVEL, .reg TUNIT_ERR_INFO_CODE, .reg TUNIT_ERR_INFO_TILE, .reg TUNIT_ERR_INFO_DESC_SEQ, .reg TUNIT_DESC_DONE, .reg TUNIT_CHK_MISS, .reg TUNIT_CHK_REPEAT_OK, .reg TUNIT_FEED_STALL, .reg TUNIT_ECC_CORR_CNT, .reg TUNIT_LAST_STAT, .reg TUNIT_MISS_INFO_ROW, .reg TUNIT_MISS_INFO_TILE, .reg TUNIT_MISS_INFO_REPEAT, .reg TUNIT_A20_OVF, .reg TUNIT_ACC_REPEAT, .reg TUNIT_CHUNK4_TILES, .reg TUNIT_ACC_DIVERGE, evtPend 0, .reg CLUSTER_ADOPT_FAIL_CNT, .reg CLUSTER_REPLAY_DIV_CNT, evtPend 1, .sram, .clusters, .units, .seqs, .ctxs, .reports, .out]) fun t =>
      unitOf t u = { unitOf s u with tile := { again := true } } ∧ t.sram = s.sram ∧ evtSet t TUNIT_EV_CHK_MISS u = true ∧ getF t TUNIT_CHK_MISS u = (getF s TUNIT_CHK_MISS u + 1) % 2 ^ 32 ∧ getF t TUNIT_MISS_INFO_ROW u = row % 64 ∧ getF t TUNIT_MISS_INFO_REPEAT u = 0) ∧
  (∀ (u corr stall ahead : Nat) (fl : Flips) (q : QDesc) (w : List Nat) (row : Nat) (s : State), stopped s = false → domOn s (u / 32) = true → fenced s u = false → (unitOf s u).run = some q → q.wide = false → q.tile < mTiles q.desc → formed s u q = some w → missRow (getF s TUNIT_CHK_CFG_CHK_TOL u) (flipCol fl (checkCol (tileOps s (u / 4) q.desc q.tile))) (flipWords fl w) = some row → (unitOf s u).tile.again = true → Does (.tileEnd u corr false fl ⟨stall, ahead⟩) s ([.reg TUNIT_STAT_BUSY, .reg TUNIT_STAT_FENCED, .reg TUNIT_STAT_HALTED, .reg TUNIT_STAT_LEND, .reg TUNIT_STAT_ADOPTING, .reg TUNIT_STAT_ADOPTED_FROM, .reg TUNIT_STAT_CQ_LEVEL, .reg TUNIT_STAT_WQ_LEVEL, .reg TUNIT_ERR_INFO_CODE, .reg TUNIT_ERR_INFO_TILE, .reg TUNIT_ERR_INFO_DESC_SEQ, .reg TUNIT_DESC_DONE, .reg TUNIT_CHK_MISS, .reg TUNIT_CHK_REPEAT_OK, .reg TUNIT_FEED_STALL, .reg TUNIT_ECC_CORR_CNT, .reg TUNIT_LAST_STAT, .reg TUNIT_MISS_INFO_ROW, .reg TUNIT_MISS_INFO_TILE, .reg TUNIT_MISS_INFO_REPEAT, .reg TUNIT_A20_OVF, .reg TUNIT_ACC_REPEAT, .reg TUNIT_CHUNK4_TILES, .reg TUNIT_ACC_DIVERGE, evtPend 0, .reg CLUSTER_ADOPT_FAIL_CNT, .reg CLUSTER_REPLAY_DIV_CNT, evtPend 1, .sram, .clusters, .units, .seqs, .ctxs, .reports, .out]) fun t =>
      fenced t u = true ∧ getF t TUNIT_STAT_BUSY u = 0 ∧ evtSet t TUNIT_EV_FENCE u = true ∧ t.sram = s.sram) ∧
  (∀ (u corr stall ahead : Nat) (fl : Flips) (s : State), stopped s = false → domOn s (u / 32) = true → fenced s u = false → Does (.tileEnd u corr true fl ⟨stall, ahead⟩) s ([.reg TUNIT_STAT_BUSY, .reg TUNIT_STAT_FENCED, .reg TUNIT_STAT_HALTED, .reg TUNIT_STAT_LEND, .reg TUNIT_STAT_ADOPTING, .reg TUNIT_STAT_ADOPTED_FROM, .reg TUNIT_STAT_CQ_LEVEL, .reg TUNIT_STAT_WQ_LEVEL, .reg TUNIT_ERR_INFO_CODE, .reg TUNIT_ERR_INFO_TILE, .reg TUNIT_ERR_INFO_DESC_SEQ, .reg TUNIT_DESC_DONE, .reg TUNIT_CHK_MISS, .reg TUNIT_CHK_REPEAT_OK, .reg TUNIT_FEED_STALL, .reg TUNIT_ECC_CORR_CNT, .reg TUNIT_LAST_STAT, .reg TUNIT_MISS_INFO_ROW, .reg TUNIT_MISS_INFO_TILE, .reg TUNIT_MISS_INFO_REPEAT, .reg TUNIT_A20_OVF, .reg TUNIT_ACC_REPEAT, .reg TUNIT_CHUNK4_TILES, .reg TUNIT_ACC_DIVERGE, evtPend 0, .reg CLUSTER_ADOPT_FAIL_CNT, .reg CLUSTER_REPLAY_DIV_CNT, evtPend 1, .sram, .clusters, .units, .seqs, .ctxs, .reports, .out]) fun t =>
      fenced t u = true ∧ getF t TUNIT_STAT_BUSY u = 0 ∧ evtSet t TUNIT_EV_FENCE u = true ∧ evtSet t TUNIT_EV_ECC_UNCORR u = true ∧ t.sram = s.sram) ∧
  (∀ (r : Requester) (a v i : Nat) (s : State), a % 4 = 0 → target s r a = some (0, i, 0x10) → gate s r 0 i 0x10 = .pass → v.testBit 2 = true → fenced s i = false → Does (.forceFence r a v) s (denied ++ ([.reg TUNIT_CTRL_FORCE_FENCE, .reg TUNIT_STAT_BUSY, .reg TUNIT_STAT_FENCED, .reg TUNIT_STAT_HALTED, .reg TUNIT_STAT_LEND, .reg TUNIT_STAT_ADOPTING, .reg TUNIT_STAT_ADOPTED_FROM, .reg TUNIT_STAT_CQ_LEVEL, .reg TUNIT_STAT_WQ_LEVEL, .reg TUNIT_DESC_DONE, .reg TUNIT_LAST_STAT, .reg TUNIT_ACC_DIVERGE, evtPend 0, .reg CLUSTER_ADOPT_FAIL_CNT, .reg CLUSTER_REPLAY_DIV_CNT, evtPend 1, .clusters, .units, .seqs, .ctxs, .reports, .out] : List Part)) fun t =>
      fenced t i = true ∧ getF t TUNIT_STAT_BUSY i = 0 ∧ evtSet t TUNIT_EV_FENCE i = true ∧ getF t TUNIT_CTRL_FORCE_FENCE i = 1) ∧
  (∀ (r : Requester) (a v i : Nat) (s : State), a % 4 = 0 → target s r a = some (0, i, 0x10) → gate s r 0 i 0x10 = .pass → v.testBit 3 = true → Does (.resume r a v) s (denied ++ ([.reg TUNIT_STAT_BUSY, .reg TUNIT_STAT_HALTED, .reg TUNIT_STAT_ADOPTING, .reg TUNIT_STAT_ADOPTED_FROM, .reg TUNIT_STAT_CQ_LEVEL, .reg TUNIT_STAT_WQ_LEVEL, .clusters, .units, .reports] : List Part)) fun t =>
      (unitOf t i).bad = none ∧ (unitOf t i).badWide = none ∧ getF t TUNIT_STAT_HALTED i = 0 ∧ (unitOf t i).cq = (unitOf s i).cq ∧ (unitOf t i).run = (unitOf s i).run) ∧
  (∀ (cl f n : Nat) (s : State), stopped s = false → domOn s (32 + cl / 8) = true → (clusterOf s cl).copying = some (f, n) → (clusterOf s cl).fences = [f] → f ≠ n → f < 4 → n < 4 → floatWork (unitOf s (cl * 4 + f)) ≠ [] → (unitOf s (cl * 4 + n)).cq.length + (floatWork (unitOf s (cl * 4 + f))).length ≤ 16 → Does (.adoptCopyDone cl true) s ([.reg TUNIT_STAT_BUSY, .reg TUNIT_STAT_HALTED, .reg TUNIT_STAT_ADOPTING, .reg TUNIT_STAT_ADOPTED_FROM, .reg TUNIT_STAT_CQ_LEVEL, .reg TUNIT_STAT_WQ_LEVEL, .reg TUNIT_DESC_DONE, .reg TUNIT_LAST_STAT, .reg TUNIT_ACC_DIVERGE, evtPend 0, .reg CLUSTER_ADOPT_FAIL_CNT, .reg CLUSTER_REPLAY_DIV_CNT, evtPend 1, .clusters, .units, .ctxs, .reports, .out]) fun t =>
      (unitOf t (cl * 4 + n)).cq = (unitOf s (cl * 4 + n)).cq ++ (floatWork (unitOf s (cl * 4 + f))).map (moveDesc (cl * 4 + f)) ∧ (unitOf t (cl * 4 + n)).acc = copyBank (unitOf s (cl * 4 + f)).acc (unitOf s (cl * 4 + n)).acc ∧ (unitOf t (cl * 4 + f)).cq = [] ∧ (unitOf t (cl * 4 + f)).run = none ∧ getF t TUNIT_STAT_ADOPTING (cl * 4 + n) = 1 ∧ getF t TUNIT_STAT_ADOPTED_FROM (cl * 4 + n) = f ∧ (clusterOf t cl).copying = none ∧ (clusterOf t cl).fences = []) ∧
  (∀ (cl : Nat) (q : QDesc) (r : List QDesc) (s : State), stopped s = false → domOn s (32 + cl / 8) = true → (clusterOf s cl).buf = q :: r → (unitOf s (cl * 4 + (clusterOf s cl).bufTo)).cq.length < 16 → Does (.adoptionBufferEnter cl) s ([.reg TUNIT_STAT_BUSY, .reg TUNIT_STAT_HALTED, .reg TUNIT_STAT_CQ_LEVEL, .reg TUNIT_STAT_WQ_LEVEL, .clusters, .units]) fun t =>
      (unitOf t (cl * 4 + (clusterOf s cl).bufTo)).cq = (unitOf s (cl * 4 + (clusterOf s cl).bufTo)).cq ++ [q] ∧ (clusterOf t cl).buf = r)

/-- Work of a cluster's vector and conversion datapaths on its SRAM: folds of a reduction,
scaled conversions, Spillway groups, and stash encoding and decoding. The rows: reductionFold,
conversionDescriptor, group, stashEncode, stashDecode. Basis: R130, R131, R150, R158, R160,
R161, R162, R277, R278, R280. The model's choices it rests on: log entry 109. -/
def Obligations.ReductionsConversionsAndStash : Prop :=
  (∀ (cl dst part n k : Nat) (last : Bool) (s : State), stopped s = false → domOn s (32 + cl / 8) = true → (clusterOf s cl).folds.get 0 dst = k → Does (.reductionFold cl dst part n k last) s ([.sram, .clusters]) fun t =>
      sramRead t cl dst (4 * n) = (if k = 0 then sramRead s cl part (4 * n) else fp32Bytes (((fp32s s cl dst n).zip (fp32s s cl part n)).map fun e => add32 e.1 e.2)) ∧ (∀ j, j < sramKey cl dst ∨ sramKey cl dst + 4 * n ≤ j → Store.get (0 : Byte) t.sram j = Store.get (0 : Byte) s.sram j) ∧ (clusterOf t cl).folds.get 0 dst = if last then 0 else k + 1) ∧
  (∀ (cl lid : Nat) (l : ListRun) (d : List Byte) (s : State), stopped s = false → domOn s (32 + cl / 8) = true → descInHand s cl lid 3 = some (l, d) → cvtCode d = 0 → cDstFmt d ≠ 4 → Does (.conversionDescriptor cl lid) s ([.reg CLUSTER_CVT_TILES, .reg CLUSTER_SCALE_RECOMP, .reg CLUSTER_SCALE_DIVERGE, .reg CLUSTER_REPLAY_DIV_CNT, .reg CLUSTER_CVT_ERR_CODE, evtPend 1, .reg SYNC_SIGNALS, .reg SYNC_WAITS_DONE, .reg SYNC_STALE_SIG_CNT, .reg SYNC_SAT_CNT, evtPend 6, .sram, .objs, .releases, .clusters, .ctxs, .reports, .out]) fun t =>
      t.sram = (sramWrite cl (cScale d + cTiles d) (List.replicate (pad64 (cTiles d) - cTiles d) 0) (cvtTiles cl l d (cTiles d) s)).sram ∧ getF t CLUSTER_CVT_TILES cl = (getF s CLUSTER_CVT_TILES cl + cTiles d) % 2 ^ 32 ∧ (∀ y, listOf t cl lid = some y → y.desc = none)) ∧
  (∀ (cl lid : Nat) (l : ListRun) (d : List Byte) (s : State), stopped s = false → domOn s (32 + cl / 8) = true → descInHand s cl lid 3 = some (l, d) → cvtCode d ≠ 0 → Does (.conversionDescriptor cl lid) s ([.reg CLUSTER_CVT_TILES, .reg CLUSTER_SCALE_RECOMP, .reg CLUSTER_SCALE_DIVERGE, .reg CLUSTER_REPLAY_DIV_CNT, .reg CLUSTER_CVT_ERR_CODE, evtPend 1, .reg SYNC_SIGNALS, .reg SYNC_WAITS_DONE, .reg SYNC_STALE_SIG_CNT, .reg SYNC_SAT_CNT, evtPend 6, .sram, .objs, .releases, .clusters, .ctxs, .reports, .out]) fun t =>
      listOf t cl lid = some { l with st := .halted, desc := none, gated := [] } ∧ getF t CLUSTER_CVT_ERR_CODE cl = cvtCode d % 2 ^ CLUSTER_CVT_ERR_CODE.w ∧ evtSet t CLUSTER_EV_CVT_INVALID cl = true ∧ t.sram = s.sram) ∧
  (∀ (cl lid : Nat) (l : ListRun) (d : List Byte) (s : State), stopped s = false → domOn s (32 + cl / 8) = true → descInHand s cl lid 7 = some (l, d) → groupCode d = 0 → replayOn s l.ctx = false → Does (.group cl lid) s ([.reg CLUSTER_REPLAY_DIV_CNT, .reg CLUSTER_CVT_ERR_CODE, evtPend 1, .clusters, .out]) fun t =>
      listOf t cl lid = some { l with desc := none, grp := some { group := gGroup d, step := gStep d, scope := gScope d, barrier := gBarrier d, rung1 := gRung1 d, rung2 := gRung2 d } } ∧ (clusterOf t cl).grps = (clusterOf s cl).grps ++ [(l.ctx, gStep d, gGroup d, false)]) ∧
  (∀ (cl lid : Nat) (l : ListRun) (d : List Byte) (s : State), stopped s = false → domOn s (32 + cl / 8) = true → descInHand s cl lid 7 = some (l, d) → groupCode d ≠ 0 → Does (.group cl lid) s ([.reg CLUSTER_REPLAY_DIV_CNT, .reg CLUSTER_CVT_ERR_CODE, evtPend 1, .clusters, .out]) fun t =>
      listOf t cl lid = some { l with st := .halted, desc := none, gated := [] } ∧ getF t CLUSTER_CVT_ERR_CODE cl = groupCode d % 2 ^ CLUSTER_CVT_ERR_CODE.w ∧ evtSet t CLUSTER_EV_CVT_INVALID cl = true ∧ t.sram = s.sram) ∧
  (∀ (cl lid : Nat) (l : ListRun) (d : List Byte) (cs : List (Chan × Nat)) (xss : List (List Nat)) (s : State), stopped s = false → domOn s (32 + cl / 8) = true → descInHand s cl lid 4 = some (l, d) → stashCode d = 0 → dop d = 0x41 → xss = (List.range (64 * stCht d)).map (stashSrc s cl d) → cs = (xss.map (encChan (stOutExp d))).zip (rawIdxs (stSlots d) 0 (xss.map (encChan (stOutExp d)))) → Does (.stashEncode cl lid) s ([.reg CLUSTER_STASH_CHAN, .reg CLUSTER_STASH_CONST, .reg CLUSTER_STASH_RAW, .reg CLUSTER_STASH_ESC, .reg CLUSTER_STASH_LOST, .reg CLUSTER_STASH_ERR_CODE, .reg CLUSTER_STASH_ERR_CHT, evtPend 1, .reg MEMCTL_ADDR_FAULT_CNT, evtPend 3, .reg SYNC_SIGNALS, .reg SYNC_WAITS_DONE, .reg SYNC_STALE_SIG_CNT, .reg SYNC_SAT_CNT, evtPend 6, .mem, .poison, .objs, .releases, .clusters, .reports, .out]) fun t =>
      t.mem = (writeRaws (cl / 64) (stRaw d) ((xss.map (encChan (stOutExp d))).zip ((rawIdxs (stSlots d) 0 (xss.map (encChan (stOutExp d)))).zip xss)) (writeChunk (cl / 64) (stChunk d) (64 * stTotal d) (64 * stCh0 d) cs s)).mem ∧ t.sram = s.sram ∧ getF t CLUSTER_STASH_CHAN cl = (getF s CLUSTER_STASH_CHAN cl + cs.length) % 2 ^ 32 ∧ (∀ y, listOf t cl lid = some y → y.desc = none) ∧ (clusterOf t cl).stash = (if cs.any (fun e => e.1.kind == 2 && e.2 == 0xFFFF) then 1 else 0)) ∧
  (∀ (cl lid : Nat) (l : ListRun) (d : List Byte) (s : State), stopped s = false → domOn s (32 + cl / 8) = true → descInHand s cl lid 4 = some (l, d) → dop d = 0x41 → stashCode d ≠ 0 → getF s CLUSTER_STASH_ERR_CODE cl = 0 → Does (.stashEncode cl lid) s ([.reg CLUSTER_STASH_CHAN, .reg CLUSTER_STASH_CONST, .reg CLUSTER_STASH_RAW, .reg CLUSTER_STASH_ESC, .reg CLUSTER_STASH_LOST, .reg CLUSTER_STASH_ERR_CODE, .reg CLUSTER_STASH_ERR_CHT, evtPend 1, .reg MEMCTL_ADDR_FAULT_CNT, evtPend 3, .reg SYNC_SIGNALS, .reg SYNC_WAITS_DONE, .reg SYNC_STALE_SIG_CNT, .reg SYNC_SAT_CNT, evtPend 6, .mem, .poison, .objs, .releases, .clusters, .reports, .out]) fun t =>
      listOf t cl lid = some { l with st := .halted, desc := none, gated := [] } ∧ getF t CLUSTER_STASH_ERR_CODE cl = stashCode d % 2 ^ CLUSTER_STASH_ERR_CODE.w ∧ evtSet t CLUSTER_EV_STASH_INVALID cl = true ∧ t.mem = s.mem) ∧
  (∀ (cl lid : Nat) (l : ListRun) (d : List Byte) (bs raws : List (List Byte)) (cs : List (List Byte × List Byte × List Nat)) (s : State), stopped s = false → domOn s (32 + cl / 8) = true → descInHand s cl lid 4 = some (l, d) → stashCode d = 0 → dop d = 0x42 → stFmt d = 2 → stCht d = 1 → readAll (cl / 64) (tileRanges d (stCh0 d)) s = (some bs, s) → cs = (List.range 64).map (chanParts bs) → cs.all (fun e => chanOk (stSlots d) e.1 e.2.1 e.2.2) = true → cs.any (fun e => hKind e.1 == 2 && hRaw e.1 == 0xFFFF) = false → readAll (cl / 64) (rawRanges d cs) s = (some raws, s) → Does (.stashDecode cl lid) s ([.reg CLUSTER_STASH_CORRUPT, .reg CLUSTER_STASH_ERR_CODE, .reg CLUSTER_STASH_ERR_CHT, evtPend 1, .reg MEMCTL_STAT_PARKED, .reg MEMCTL_ERR_INFO_CHAN, .reg MEMCTL_ERR_INFO_ROW, .reg MEMCTL_ERR_INFO_CLASS, .reg MEMCTL_CE_CNT, .reg MEMCTL_UE_CNT, .reg MEMCTL_ROW_FAIL_CNT, .reg MEMCTL_PAGE_LOST_CNT, .reg MEMCTL_ADDR_FAULT_CNT, .reg MEMCTL_PENDING_ROWS, .reg MEMCTL_PENDING_REMAP_USED, evtPend 3, .reg SYNC_SIGNALS, .reg SYNC_WAITS_DONE, .reg SYNC_STALE_SIG_CNT, .reg SYNC_SAT_CNT, evtPend 6, .sram, .mcs, .objs, .releases, .clusters, .reports, .jwide, .out]) fun t =>
      t.sram = (writeDec cl d 0 (decExp cs) ((cs.zip raws).map fun x => decChan x.1.1 x.1.2.1 x.2 x.1.2.2) (stRows d) s).sram ∧ t.mem = s.mem ∧ (∀ y, listOf t cl lid = some y → y.desc = none) ∧ (clusterOf t cl).stash = 0) ∧
  (∀ (cl lid : Nat) (l : ListRun) (d : List Byte) (bs : List (List Byte)) (s : State), stopped s = false → domOn s (32 + cl / 8) = true → descInHand s cl lid 4 = some (l, d) → stashCode d = 0 → dop d = 0x42 → stFmt d = 2 → stCht d = 1 → readAll (cl / 64) (tileRanges d (stCh0 d)) s = (some bs, s) → ((List.range 64).map (chanParts bs)).all (fun e => chanOk (stSlots d) e.1 e.2.1 e.2.2) = false → Does (.stashDecode cl lid) s ([.reg CLUSTER_STASH_CORRUPT, .reg CLUSTER_STASH_ERR_CODE, .reg CLUSTER_STASH_ERR_CHT, evtPend 1, .reg MEMCTL_STAT_PARKED, .reg MEMCTL_ERR_INFO_CHAN, .reg MEMCTL_ERR_INFO_ROW, .reg MEMCTL_ERR_INFO_CLASS, .reg MEMCTL_CE_CNT, .reg MEMCTL_UE_CNT, .reg MEMCTL_ROW_FAIL_CNT, .reg MEMCTL_PAGE_LOST_CNT, .reg MEMCTL_ADDR_FAULT_CNT, .reg MEMCTL_PENDING_ROWS, .reg MEMCTL_PENDING_REMAP_USED, evtPend 3, .reg SYNC_SIGNALS, .reg SYNC_WAITS_DONE, .reg SYNC_STALE_SIG_CNT, .reg SYNC_SAT_CNT, evtPend 6, .sram, .mcs, .objs, .releases, .clusters, .reports, .jwide, .out]) fun t =>
      t.sram = s.sram ∧ getF t CLUSTER_STASH_CORRUPT cl = (getF s CLUSTER_STASH_CORRUPT cl + 1) % 2 ^ 32 ∧ (∀ y, listOf t cl lid = some y → y.desc = none) ∧ (clusterOf t cl).stash = 2) ∧
  (∀ (cl lid : Nat) (l : ListRun) (d : List Byte) (bs : List (List Byte)) (s : State), stopped s = false → domOn s (32 + cl / 8) = true → descInHand s cl lid 4 = some (l, d) → stashCode d = 0 → dop d = 0x42 → stFmt d = 2 → stCht d = 1 → readAll (cl / 64) (tileRanges d (stCh0 d)) s = (some bs, s) → ((List.range 64).map (chanParts bs)).all (fun e => chanOk (stSlots d) e.1 e.2.1 e.2.2) = true → ((List.range 64).map (chanParts bs)).any (fun e => hKind e.1 == 2 && hRaw e.1 == 0xFFFF) = true → Does (.stashDecode cl lid) s ([.reg CLUSTER_STASH_CORRUPT, .reg CLUSTER_STASH_ERR_CODE, .reg CLUSTER_STASH_ERR_CHT, evtPend 1, .reg MEMCTL_STAT_PARKED, .reg MEMCTL_ERR_INFO_CHAN, .reg MEMCTL_ERR_INFO_ROW, .reg MEMCTL_ERR_INFO_CLASS, .reg MEMCTL_CE_CNT, .reg MEMCTL_UE_CNT, .reg MEMCTL_ROW_FAIL_CNT, .reg MEMCTL_PAGE_LOST_CNT, .reg MEMCTL_ADDR_FAULT_CNT, .reg MEMCTL_PENDING_ROWS, .reg MEMCTL_PENDING_REMAP_USED, evtPend 3, .reg SYNC_SIGNALS, .reg SYNC_WAITS_DONE, .reg SYNC_STALE_SIG_CNT, .reg SYNC_SAT_CNT, evtPend 6, .sram, .mcs, .objs, .releases, .clusters, .reports, .jwide, .out]) fun t =>
      t.sram = s.sram ∧ t.mem = s.mem ∧ (∀ y, listOf t cl lid = some y → y.desc = none) ∧ (clusterOf t cl).stash = 1)

/-- The root sequencer's jobs: choosing, pre-scaling, wide descriptors, the Newton and Cholesky
paths, the residual check, and rejection.  Basis: R220, R221, R224, R225, R235, R236, R237,
R239, R241, R243, R244, R234. The model's choices it rests on: log entries 111, 112. -/
def Obligations.RootJobs : Prop :=
  (∀ (rg c : Nat) (b : Blk) (s : State), stopped s = false → domOn s (32 + rg) = true → (seqOf s rg).job = none → (seqOf s rg).restart = none → isF s ROOTSEQ_CTRL_EN rg = true → earliest s (candidates s rg 16) = some (c, b) → Does (.rootJobScan rg) s ([.reg ROOTSEQ_STAT_BUSY, .reg ROOTSEQ_STAT_PHASE, .reg ROOTSEQ_STAT_SIDE, .reg ROOTSEQ_CUR_GBI, .seqs]) fun t =>
      (seqOf t rg).job = some { ctx := c, gbi := b.gbi, cl := b.cl, addr := b.addr, lat := snapLat s rg c b, snap := recGet s b 40 4, ver := (recGet s b 32 4 + 1) % 2 ^ 32, side := if lSideL (snapLat s rg c b) then 0 else 1 } ∧ getF t ROOTSEQ_STAT_BUSY rg = 1 ∧ getF t ROOTSEQ_CUR_GBI rg = b.gbi % 2 ^ 32) ∧
  (∀ (rg : Nat) (j : Job) (ts rs : List (List Byte)) (A B : Mat) (tr lam : FV) (s : State), stopped s = false → domOn s (32 + rg) = true → jobIn s rg [0] = some j → isF s ROOTSEQ_CTRL_EN rg = true → (if jobCode j = 0 then 32 else 64) * jobN j * jobN j ≤ getF s ROOTSEQ_SCR_SIZE rg * 1048576 → loadTiles (regionDie rg) 2 (bufAddr s (jobBlk j) 3) 16384 (sideTiles j).1 (sideTiles j).2 s = (.ok ts, s) → A = sideFactor j ts → tr = ((List.range (jobN j)).map fun i => A.at i i).foldl add32 fv0 → lam = div32 (mul32 (val32 (if j.started then j.damp else getF s ROOTSEQ_DAMP rg)) tr) (fvInt (jobA j)) → B = A.zipIdx.map (fun r => r.1.zipIdx.map fun v => if v.2 = r.2 then add32 v.1 lam else v.1) → (j.side = 0 → lSideR j.lat = true → loadTiles (regionDie rg) 2 (bufAddr s (jobBlk j) 3) 16384 (sideTiles { j with side := 1 }).1 (sideTiles { j with side := 1 }).2 s = (.ok rs, s) ∧ sideRange { firstStart s rg j with side := 1 } (sideFactor { j with side := 1 } rs) = false) → noWeak s = true → Does (.rootJobStart rg) s ([.reg TUNIT_STAT_BUSY, .reg TUNIT_STAT_HALTED, .reg TUNIT_STAT_CQ_LEVEL, .reg TUNIT_STAT_WQ_LEVEL, .reg CLUSTER_REPLAY_DIV_CNT, evtPend 1, .reg ROOTSEQ_STAT_BUSY, .reg ROOTSEQ_STAT_PHASE, .reg ROOTSEQ_STAT_SIDE, .reg ROOTSEQ_ERR_INFO_REASON, .reg ROOTSEQ_ERR_INFO_SIDE, .reg ROOTSEQ_ERR_INFO_RES_LOG, .reg ROOTSEQ_JOB_START, .reg ROOTSEQ_ROOT_REJ, .reg ROOTSEQ_REPLAY_DIV, .reg ROOTSEQ_CUR_GBI, .reg ROOTSEQ_LAST_REJ, evtPend 2, .reg MEMCTL_STAT_PARKED, .reg MEMCTL_ERR_INFO_CHAN, .reg MEMCTL_ERR_INFO_ROW, .reg MEMCTL_ERR_INFO_CLASS, .reg MEMCTL_CE_CNT, .reg MEMCTL_UE_CNT, .reg MEMCTL_ROW_FAIL_CNT, .reg MEMCTL_PAGE_LOST_CNT, .reg MEMCTL_ADDR_FAULT_CNT, .reg MEMCTL_PENDING_ROWS, .reg MEMCTL_PENDING_REMAP_USED, evtPend 3, .mem, .poison, .mcs, .units, .seqs, .ctxs, .jwide, .out]) fun t =>
      (if !tr.isFin || !(fv0.lt tr) || !(squareSum B).isFin then (seqOf t rg).job = none ∧ getF t ROOTSEQ_ROOT_REJ rg = (getF s ROOTSEQ_ROOT_REJ rg + 1) % 2 ^ 32 ∧ evtSet t ROOTSEQ_EV_ROOT_REJECT rg = true else ∃ k, (seqOf t rg).job = some k ∧ k.gbi = j.gbi ∧ k.ctx = j.ctx ∧ k.side = j.side ∧ k.ph = (if jobCode j = 0 then 3 else 2) ∧ k.iter = 0 ∧ k.s = scaleExp (jobP j) (squareSum B) ∧ k.sx = 0 ∧ k.tr = word32 tr ∧ k.lam = word32 lam ∧ k.cfg = (if j.started then j.cfg else (latchCfg s rg j).cfg)) ∧ getF t ROOTSEQ_JOB_START rg = (if j.started then getF s ROOTSEQ_JOB_START rg else (getF s ROOTSEQ_JOB_START rg + 1) % 2 ^ 32)) ∧
  (∀ (rg : Nat) (j : Job) (s : State), stopped s = false → domOn s (32 + rg) = true → jobIn s rg [0] = some j → isF s ROOTSEQ_CTRL_EN rg = true → getF s ROOTSEQ_SCR_SIZE rg * 1048576 < (if jobCode j = 0 then 32 else 64) * jobN j * jobN j → Does (.rootJobStart rg) s ([.reg TUNIT_STAT_BUSY, .reg TUNIT_STAT_HALTED, .reg TUNIT_STAT_CQ_LEVEL, .reg TUNIT_STAT_WQ_LEVEL, .reg CLUSTER_REPLAY_DIV_CNT, evtPend 1, .reg ROOTSEQ_STAT_BUSY, .reg ROOTSEQ_STAT_PHASE, .reg ROOTSEQ_STAT_SIDE, .reg ROOTSEQ_ERR_INFO_REASON, .reg ROOTSEQ_ERR_INFO_SIDE, .reg ROOTSEQ_ERR_INFO_RES_LOG, .reg ROOTSEQ_JOB_START, .reg ROOTSEQ_ROOT_REJ, .reg ROOTSEQ_REPLAY_DIV, .reg ROOTSEQ_CUR_GBI, .reg ROOTSEQ_LAST_REJ, evtPend 2, .reg MEMCTL_STAT_PARKED, .reg MEMCTL_ERR_INFO_CHAN, .reg MEMCTL_ERR_INFO_ROW, .reg MEMCTL_ERR_INFO_CLASS, .reg MEMCTL_CE_CNT, .reg MEMCTL_UE_CNT, .reg MEMCTL_ROW_FAIL_CNT, .reg MEMCTL_PAGE_LOST_CNT, .reg MEMCTL_ADDR_FAULT_CNT, .reg MEMCTL_PENDING_ROWS, .reg MEMCTL_PENDING_REMAP_USED, evtPend 3, .mem, .poison, .mcs, .units, .seqs, .ctxs, .jwide, .out]) fun t =>
      (seqOf t rg).job = none ∧ getF t ROOTSEQ_ROOT_REJ rg = (getF s ROOTSEQ_ROOT_REJ rg + 1) % 2 ^ 32 ∧ evtSet t ROOTSEQ_EV_ROOT_REJECT rg = true ∧ getF t ROOTSEQ_STAT_BUSY rg = 0) ∧
  (∀ (rg u : Nat) (d : List Byte) (st : List Stage) (j : Job) (w : State) (s : State), stopped s = false → domOn s (32 + rg) = true → jobIn s rg [2, 3, 4] = some j → isF s ROOTSEQ_CTRL_EN rg = true → u / 32 = rg → lendable s u = true → (unitOf s u).wq.length < 4 → pieceOk s rg d = true → st.all (stageOk s rg) = true → stageIn rg (u / 4) st s = (false, w) → Does (.wideDescIssue rg u ⟨d, st, false⟩) s ([.reg TUNIT_STAT_BUSY, .reg TUNIT_STAT_HALTED, .reg TUNIT_STAT_CQ_LEVEL, .reg TUNIT_STAT_WQ_LEVEL, .reg CLUSTER_REPLAY_DIV_CNT, evtPend 1, .reg ROOTSEQ_STAT_BUSY, .reg ROOTSEQ_STAT_PHASE, .reg ROOTSEQ_STAT_SIDE, .reg ROOTSEQ_ERR_INFO_REASON, .reg ROOTSEQ_ERR_INFO_SIDE, .reg ROOTSEQ_ERR_INFO_RES_LOG, .reg ROOTSEQ_ROOT_REJ, .reg ROOTSEQ_WIDE_ISSUED, .reg ROOTSEQ_REPLAY_DIV, .reg ROOTSEQ_CUR_GBI, .reg ROOTSEQ_LAST_REJ, evtPend 2, .reg MEMCTL_STAT_PARKED, .reg MEMCTL_ERR_INFO_CHAN, .reg MEMCTL_ERR_INFO_ROW, .reg MEMCTL_ERR_INFO_CLASS, .reg MEMCTL_CE_CNT, .reg MEMCTL_UE_CNT, .reg MEMCTL_ROW_FAIL_CNT, .reg MEMCTL_PAGE_LOST_CNT, .reg MEMCTL_ADDR_FAULT_CNT, .reg MEMCTL_PENDING_ROWS, .reg MEMCTL_PENDING_REMAP_USED, evtPend 3, .mem, .poison, .sram, .mcs, .units, .seqs, .ctxs, .jwide, .out]) fun t =>
      (unitOf t u).wq = (unitOf s u).wq ++ [{ (seqOf s rg).back.headD { desc := d, ctx := j.ctx, wide := true, lid := (seqOf s rg).epoch } with tile := 0, status := 0 }] ∧ (seqOf t rg).back = (seqOf s rg).back.tail ∧ getF t ROOTSEQ_WIDE_ISSUED rg = (getF s ROOTSEQ_WIDE_ISSUED rg + 1) % 2 ^ 32 ∧ t.sram = w.sram) ∧
  (∀ (rg u : Nat) (d : List Byte) (st : List Stage) (j : Job) (s : State), stopped s = false → domOn s (32 + rg) = true → jobIn s rg [2, 3, 4] = some j → isF s ROOTSEQ_CTRL_EN rg = true → u / 32 = rg → lendable s u = true → (unitOf s u).wq.length < 4 → pieceOk s rg d = true → st.all (stageOk s rg) = true → Does (.wideDescIssue rg u ⟨d, st, true⟩) s ([.reg TUNIT_STAT_BUSY, .reg TUNIT_STAT_HALTED, .reg TUNIT_STAT_CQ_LEVEL, .reg TUNIT_STAT_WQ_LEVEL, .reg CLUSTER_REPLAY_DIV_CNT, evtPend 1, .reg ROOTSEQ_STAT_BUSY, .reg ROOTSEQ_STAT_PHASE, .reg ROOTSEQ_STAT_SIDE, .reg ROOTSEQ_ERR_INFO_REASON, .reg ROOTSEQ_ERR_INFO_SIDE, .reg ROOTSEQ_ERR_INFO_RES_LOG, .reg ROOTSEQ_ROOT_REJ, .reg ROOTSEQ_WIDE_ISSUED, .reg ROOTSEQ_REPLAY_DIV, .reg ROOTSEQ_CUR_GBI, .reg ROOTSEQ_LAST_REJ, evtPend 2, .reg MEMCTL_STAT_PARKED, .reg MEMCTL_ERR_INFO_CHAN, .reg MEMCTL_ERR_INFO_ROW, .reg MEMCTL_ERR_INFO_CLASS, .reg MEMCTL_CE_CNT, .reg MEMCTL_UE_CNT, .reg MEMCTL_ROW_FAIL_CNT, .reg MEMCTL_PAGE_LOST_CNT, .reg MEMCTL_ADDR_FAULT_CNT, .reg MEMCTL_PENDING_ROWS, .reg MEMCTL_PENDING_REMAP_USED, evtPend 3, .mem, .poison, .sram, .mcs, .units, .seqs, .ctxs, .jwide, .out]) fun t =>
      (seqOf t rg).job = none ∧ getF t ROOTSEQ_ROOT_REJ rg = (getF s ROOTSEQ_ROOT_REJ rg + 1) % 2 ^ 32 ∧ evtSet t ROOTSEQ_EV_ROOT_REJECT rg = true) ∧
  (∀ (rg : Nat) (j : Job) (X M T : IMat) (W Y : IMat × Bool) (s : State), stopped s = false → domOn s (32 + rg) = true → jobReady s rg 2 = some j → getMat rg (jobN j) (1 + j.iter % 2) s = (.ok (some X), s) → getMat rg (jobN j) (3 + j.iter % 2) s = (.ok (some M), s) → T = newtonT (jobP j) M → W = newtonW (jobN j) T (jobP j) M → Y = wideMat (jobN j) X (T.map fun r => r.map fun v => bxShift v ((newtonExp (jobP j) (j.iter + 1) : Int) - j.sx).toNat) → noWeak s = true → Does (.newtonIterationDone rg) s ([.reg TUNIT_STAT_BUSY, .reg TUNIT_STAT_HALTED, .reg TUNIT_STAT_CQ_LEVEL, .reg TUNIT_STAT_WQ_LEVEL, .reg CLUSTER_REPLAY_DIV_CNT, evtPend 1, .reg ROOTSEQ_STAT_BUSY, .reg ROOTSEQ_STAT_PHASE, .reg ROOTSEQ_STAT_SIDE, .reg ROOTSEQ_ERR_INFO_REASON, .reg ROOTSEQ_ERR_INFO_SIDE, .reg ROOTSEQ_ERR_INFO_RES_LOG, .reg ROOTSEQ_ROOT_REJ, .reg ROOTSEQ_ITER_DONE, .reg ROOTSEQ_REPLAY_DIV, .reg ROOTSEQ_CUR_GBI, .reg ROOTSEQ_LAST_REJ, evtPend 2, .reg MEMCTL_STAT_PARKED, .reg MEMCTL_ERR_INFO_CHAN, .reg MEMCTL_ERR_INFO_ROW, .reg MEMCTL_ERR_INFO_CLASS, .reg MEMCTL_CE_CNT, .reg MEMCTL_UE_CNT, .reg MEMCTL_ROW_FAIL_CNT, .reg MEMCTL_PAGE_LOST_CNT, .reg MEMCTL_ADDR_FAULT_CNT, .reg MEMCTL_PENDING_ROWS, .reg MEMCTL_PENDING_REMAP_USED, evtPend 3, .mem, .poison, .mcs, .units, .seqs, .ctxs, .jwide, .out]) fun t =>
      if W.2 || Y.2 || (seqOf s rg).sat then (seqOf t rg).job = none ∧ getF t ROOTSEQ_ROOT_REJ rg = (getF s ROOTSEQ_ROOT_REJ rg + 1) % 2 ^ 32 ∧ evtSet t ROOTSEQ_EV_ROOT_REJECT rg = true else
        (seqOf t rg).job = some { j with iter := j.iter + 1, sx := (newtonExp (jobP j) (j.iter + 1) : Int), ph := if j.iter + 1 = jobKmax j then 4 else 2 } ∧ getF t ROOTSEQ_ITER_DONE rg = (getF s ROOTSEQ_ITER_DONE rg + 1) % 2 ^ 32 ∧ t.mem = (memStore (dieOf j.cl) (j.addr + 88) (wipBytes { j with iter := j.iter + 1, sx := (newtonExp (jobP j) (j.iter + 1) : Int), ph := if j.iter + 1 = jobKmax j then 4 else 2 }) (putMat rg (jobN j) (1 + (j.iter + 1) % 2) Y.1 (putMat rg (jobN j) (3 + (j.iter + 1) % 2) W.1 s))).mem) ∧
  (∀ (rg : Nat) (j : Job) (A M M1 : IMat) (l : List (Nat × Int)) (Y : IMat × Bool) (s : State), stopped s = false → domOn s (32 + rg) = true → jobReady s rg 3 = some j → getMat rg (jobN j) 0 s = (.ok (some A), s) → getMat rg (jobN j) (1 + j.iter % 2) s = (.ok (some M), s) → cholCols (val32 j.phi) (64 * j.iter + 64) 64 (64 * j.iter) M = (M1, l) → Y = cholTrail (64 * j.iter) (64 * j.iter + 64) M1 → 64 * (j.iter + 1) < jobN j → noWeak s = true → Does (.choleskyPanelDone rg) s ([.reg TUNIT_STAT_BUSY, .reg TUNIT_STAT_HALTED, .reg TUNIT_STAT_CQ_LEVEL, .reg TUNIT_STAT_WQ_LEVEL, .reg CLUSTER_REPLAY_DIV_CNT, evtPend 1, .reg ROOTSEQ_STAT_BUSY, .reg ROOTSEQ_STAT_PHASE, .reg ROOTSEQ_STAT_SIDE, .reg ROOTSEQ_ERR_INFO_REASON, .reg ROOTSEQ_ERR_INFO_SIDE, .reg ROOTSEQ_ERR_INFO_RES_LOG, .reg ROOTSEQ_ROOT_REJ, .reg ROOTSEQ_PIV_FLOORED, .reg ROOTSEQ_ITER_DONE, .reg ROOTSEQ_REPLAY_DIV, .reg ROOTSEQ_CUR_GBI, .reg ROOTSEQ_LAST_REJ, evtPend 2, .reg MEMCTL_STAT_PARKED, .reg MEMCTL_ERR_INFO_CHAN, .reg MEMCTL_ERR_INFO_ROW, .reg MEMCTL_ERR_INFO_CLASS, .reg MEMCTL_CE_CNT, .reg MEMCTL_UE_CNT, .reg MEMCTL_ROW_FAIL_CNT, .reg MEMCTL_PAGE_LOST_CNT, .reg MEMCTL_ADDR_FAULT_CNT, .reg MEMCTL_PENDING_ROWS, .reg MEMCTL_PENDING_REMAP_USED, evtPend 3, .mem, .poison, .mcs, .units, .seqs, .ctxs, .jwide, .out]) fun t =>
      if Y.2 || (seqOf s rg).sat then (seqOf t rg).job = none ∧ getF t ROOTSEQ_ROOT_REJ rg = (getF s ROOTSEQ_ROOT_REJ rg + 1) % 2 ^ 32 ∧ evtSet t ROOTSEQ_EV_ROOT_REJECT rg = true else
        (seqOf t rg).job = some { j with piv := j.piv + l.length, iter := j.iter + 1 } ∧ getF t ROOTSEQ_ITER_DONE rg = (getF s ROOTSEQ_ITER_DONE rg + 1) % 2 ^ 32 ∧ getF t ROOTSEQ_PIV_FLOORED rg = (getF s ROOTSEQ_PIV_FLOORED rg + l.length) % 2 ^ 32) ∧
  (∀ (rg : Nat) (j : Job) (A M M1 : IMat) (l : List (Nat × Int)) (Y I X : IMat × Bool) (s : State), stopped s = false → domOn s (32 + rg) = true → jobReady s rg 3 = some j → getMat rg (jobN j) 0 s = (.ok (some A), s) → getMat rg (jobN j) (1 + j.iter % 2) s = (.ok (some M), s) → cholCols (val32 j.phi) (64 * j.iter + 64) 64 (64 * j.iter) M = (M1, l) → Y = cholTrail (64 * j.iter) (64 * j.iter + 64) M1 → jobN j ≤ 64 * (j.iter + 1) → I = triInverse (jobN j) (cholExp j) (lowerTri Y.1) → X = wideMat (jobN j) (IMat.flip I.1 (jobN j)) I.1 → noWeak s = true → Does (.choleskyPanelDone rg) s ([.reg TUNIT_STAT_BUSY, .reg TUNIT_STAT_HALTED, .reg TUNIT_STAT_CQ_LEVEL, .reg TUNIT_STAT_WQ_LEVEL, .reg CLUSTER_REPLAY_DIV_CNT, evtPend 1, .reg ROOTSEQ_STAT_BUSY, .reg ROOTSEQ_STAT_PHASE, .reg ROOTSEQ_STAT_SIDE, .reg ROOTSEQ_ERR_INFO_REASON, .reg ROOTSEQ_ERR_INFO_SIDE, .reg ROOTSEQ_ERR_INFO_RES_LOG, .reg ROOTSEQ_ROOT_REJ, .reg ROOTSEQ_PIV_FLOORED, .reg ROOTSEQ_ITER_DONE, .reg ROOTSEQ_REPLAY_DIV, .reg ROOTSEQ_CUR_GBI, .reg ROOTSEQ_LAST_REJ, evtPend 2, .reg MEMCTL_STAT_PARKED, .reg MEMCTL_ERR_INFO_CHAN, .reg MEMCTL_ERR_INFO_ROW, .reg MEMCTL_ERR_INFO_CLASS, .reg MEMCTL_CE_CNT, .reg MEMCTL_UE_CNT, .reg MEMCTL_ROW_FAIL_CNT, .reg MEMCTL_PAGE_LOST_CNT, .reg MEMCTL_ADDR_FAULT_CNT, .reg MEMCTL_PENDING_ROWS, .reg MEMCTL_PENDING_REMAP_USED, evtPend 3, .mem, .poison, .mcs, .units, .seqs, .ctxs, .jwide, .out]) fun t =>
      if Y.2 || (seqOf s rg).sat || I.2 || X.2 then (seqOf t rg).job = none ∧ getF t ROOTSEQ_ROOT_REJ rg = (getF s ROOTSEQ_ROOT_REJ rg + 1) % 2 ^ 32 ∧ evtSet t ROOTSEQ_EV_ROOT_REJECT rg = true else (seqOf t rg).job = some { j with piv := j.piv + l.length, iter := j.iter + 1, sx := 2 * cholExp j, ph := 4 } ∧ getF t ROOTSEQ_ITER_DONE rg = (getF s ROOTSEQ_ITER_DONE rg + 1) % 2 ^ 32 ∧ getF t ROOTSEQ_PIV_FLOORED rg = (getF s ROOTSEQ_PIV_FLOORED rg + l.length) % 2 ^ 32) ∧
  (∀ (rg : Nat) (j : Job) (A X M : IMat) (r : FV) (s : State), stopped s = false → domOn s (32 + rg) = true → jobReady s rg 4 = some j → jobCode j ≠ 0 → getMat rg (jobN j) 0 s = (.ok (some A), s) → getMat rg (jobN j) (1 + j.iter % 2) s = (.ok (some X), s) → getMat rg (jobN j) (3 + j.iter % 2) s = (.ok (some M), s) → r = newtonRes (jobP j) j.sx A X M (probe ((ctxOf s j.ctx).seed.getD 0) j) → noWeak s = true → Does (.residualCheck rg) s ([.reg TUNIT_STAT_BUSY, .reg TUNIT_STAT_HALTED, .reg TUNIT_STAT_CQ_LEVEL, .reg TUNIT_STAT_WQ_LEVEL, .reg CLUSTER_REPLAY_DIV_CNT, evtPend 1, .reg ROOTSEQ_STAT_BUSY, .reg ROOTSEQ_STAT_PHASE, .reg ROOTSEQ_STAT_SIDE, .reg ROOTSEQ_ERR_INFO_REASON, .reg ROOTSEQ_ERR_INFO_SIDE, .reg ROOTSEQ_ERR_INFO_RES_LOG, .reg ROOTSEQ_ROOT_REJ, .reg ROOTSEQ_REPLAY_DIV, .reg ROOTSEQ_CUR_GBI, .reg ROOTSEQ_LAST_REJ, evtPend 2, .reg MEMCTL_STAT_PARKED, .reg MEMCTL_ERR_INFO_CHAN, .reg MEMCTL_ERR_INFO_ROW, .reg MEMCTL_ERR_INFO_CLASS, .reg MEMCTL_CE_CNT, .reg MEMCTL_UE_CNT, .reg MEMCTL_ROW_FAIL_CNT, .reg MEMCTL_PAGE_LOST_CNT, .reg MEMCTL_ADDR_FAULT_CNT, .reg MEMCTL_PENDING_ROWS, .reg MEMCTL_PENDING_REMAP_USED, evtPend 3, .mem, .poison, .mcs, .units, .seqs, .ctxs, .jwide, .out]) fun t =>
      if (seqOf s rg).sat || FV.lt (.fin false 1 (-(jobRes j : Int))) r then (seqOf t rg).job = none ∧ getF t ROOTSEQ_ROOT_REJ rg = (getF s ROOTSEQ_ROOT_REJ rg + 1) % 2 ^ 32 ∧ evtSet t ROOTSEQ_EV_ROOT_REJECT rg = true else if j.side = 0 ∧ lSideR j.lat then (seqOf t rg).job = some { j with roots := j.roots ++ [rootWords j X], side := 1, ph := 0, iter := 0 } else (seqOf t rg).job = some { j with roots := j.roots ++ [rootWords j X], ph := 5 }) ∧
  (∀ (rg : Nat) (j : Job) (A L X : IMat) (r : FV) (s : State), stopped s = false → domOn s (32 + rg) = true → jobReady s rg 4 = some j → jobCode j = 0 → getMat rg (jobN j) 0 s = (.ok (some A), s) → getMat rg (jobN j) (1 + j.iter % 2) s = (.ok (some L), s) → getMat rg (jobN j) 3 s = (.ok (some X), s) → r = cholRes (jobN j) j.sx A L X (probe ((ctxOf s j.ctx).seed.getD 0) j) → noWeak s = true → Does (.residualCheck rg) s ([.reg TUNIT_STAT_BUSY, .reg TUNIT_STAT_HALTED, .reg TUNIT_STAT_CQ_LEVEL, .reg TUNIT_STAT_WQ_LEVEL, .reg CLUSTER_REPLAY_DIV_CNT, evtPend 1, .reg ROOTSEQ_STAT_BUSY, .reg ROOTSEQ_STAT_PHASE, .reg ROOTSEQ_STAT_SIDE, .reg ROOTSEQ_ERR_INFO_REASON, .reg ROOTSEQ_ERR_INFO_SIDE, .reg ROOTSEQ_ERR_INFO_RES_LOG, .reg ROOTSEQ_ROOT_REJ, .reg ROOTSEQ_REPLAY_DIV, .reg ROOTSEQ_CUR_GBI, .reg ROOTSEQ_LAST_REJ, evtPend 2, .reg MEMCTL_STAT_PARKED, .reg MEMCTL_ERR_INFO_CHAN, .reg MEMCTL_ERR_INFO_ROW, .reg MEMCTL_ERR_INFO_CLASS, .reg MEMCTL_CE_CNT, .reg MEMCTL_UE_CNT, .reg MEMCTL_ROW_FAIL_CNT, .reg MEMCTL_PAGE_LOST_CNT, .reg MEMCTL_ADDR_FAULT_CNT, .reg MEMCTL_PENDING_ROWS, .reg MEMCTL_PENDING_REMAP_USED, evtPend 3, .mem, .poison, .mcs, .units, .seqs, .ctxs, .jwide, .out]) fun t =>
      if (seqOf s rg).sat || FV.lt (.fin false 1 (-(jobRes j : Int))) r then (seqOf t rg).job = none ∧ getF t ROOTSEQ_ROOT_REJ rg = (getF s ROOTSEQ_ROOT_REJ rg + 1) % 2 ^ 32 ∧ evtSet t ROOTSEQ_EV_ROOT_REJECT rg = true else if j.side = 0 ∧ lSideR j.lat then (seqOf t rg).job = some { j with roots := j.roots ++ [rootWords j X], side := 1, ph := 0, iter := 0 } else (seqOf t rg).job = some { j with roots := j.roots ++ [rootWords j X], ph := 5 })

/-- Roots converted and published, due notices and their replies, lending and lockstep.  Basis:
R222, R227, R228, R229, R230, R232, R244, R245, R246, R247, R248. The model's choices it rests
on: log entry 110. -/
def Obligations.RootPublicationAndNotices : Prop :=
  (∀ (rg : Nat) (j : Job) (s : State), stopped s = false → domOn s (32 + rg) = true → jobIn s rg [5] = some j → bookedReject s j = none → spareFree s rg j.ctx j.gbi = true → heldBack s j = false → ckptReads s j = false → Does (.rootConvert rg) s ([.reg TUNIT_STAT_BUSY, .reg TUNIT_STAT_HALTED, .reg TUNIT_STAT_CQ_LEVEL, .reg TUNIT_STAT_WQ_LEVEL, .reg CLUSTER_REPLAY_DIV_CNT, evtPend 1, .reg ROOTSEQ_STAT_BUSY, .reg ROOTSEQ_STAT_PHASE, .reg ROOTSEQ_STAT_SIDE, .reg ROOTSEQ_ERR_INFO_REASON, .reg ROOTSEQ_ERR_INFO_SIDE, .reg ROOTSEQ_ERR_INFO_RES_LOG, .reg ROOTSEQ_ROOT_REJ, .reg ROOTSEQ_REPLAY_DIV, .reg ROOTSEQ_CUR_GBI, .reg ROOTSEQ_LAST_REJ, evtPend 2, .reg MEMCTL_ADDR_FAULT_CNT, evtPend 3, .mem, .poison, .units, .seqs, .cul, .ctxs, .out]) fun t =>
      (seqOf t rg).job = none ∧ (seqOf t rg).held = (seqOf s rg).held ++ [{ j with ph := 6, written := true }] ∧ getF t ROOTSEQ_STAT_BUSY rg = 0 ∧ t.mem = (memStore (dieOf j.cl) (j.addr + 88) (wipBytes { j with ph := 6, written := true }) (writeRoots j s)).mem) ∧
  (∀ (rg : Nat) (j : Job) (s : State), stopped s = false → domOn s (32 + rg) = true → jobIn s rg [5] = some j → bookedReject s j = none → heldBack s j = true → Does (.rootConvert rg) s ([.reg TUNIT_STAT_BUSY, .reg TUNIT_STAT_HALTED, .reg TUNIT_STAT_CQ_LEVEL, .reg TUNIT_STAT_WQ_LEVEL, .reg CLUSTER_REPLAY_DIV_CNT, evtPend 1, .reg ROOTSEQ_STAT_BUSY, .reg ROOTSEQ_STAT_PHASE, .reg ROOTSEQ_STAT_SIDE, .reg ROOTSEQ_ERR_INFO_REASON, .reg ROOTSEQ_ERR_INFO_SIDE, .reg ROOTSEQ_ERR_INFO_RES_LOG, .reg ROOTSEQ_ROOT_REJ, .reg ROOTSEQ_REPLAY_DIV, .reg ROOTSEQ_CUR_GBI, .reg ROOTSEQ_LAST_REJ, evtPend 2, .reg MEMCTL_ADDR_FAULT_CNT, evtPend 3, .mem, .poison, .units, .seqs, .cul, .ctxs, .out]) fun t =>
      (seqOf t rg).job = none ∧ (seqOf t rg).held = (seqOf s rg).held ++ [{ j with ph := 6 }] ∧ getF t ROOTSEQ_STAT_BUSY rg = 0 ∧ t.mem = (memStore (dieOf j.cl) (j.addr + 88) (wipBytes { j with ph := 6 }) s).mem) ∧
  (∀ (rg : Nat) (j : Job) (s : State), stopped s = false → domOn s (32 + rg) = true → (seqOf s rg).held.find? (mayPublish s rg) = some j → Does (.rootPublish rg) s ([.reg ROOTSEQ_ROOT_PUB, .reg ROOTSEQ_DAMPED_PUB, evtPend 2, .reg MEMCTL_STAT_PARKED, .reg MEMCTL_ERR_INFO_CHAN, .reg MEMCTL_ERR_INFO_ROW, .reg MEMCTL_ERR_INFO_CLASS, .reg MEMCTL_CE_CNT, .reg MEMCTL_UE_CNT, .reg MEMCTL_ROW_FAIL_CNT, .reg MEMCTL_PAGE_LOST_CNT, .reg MEMCTL_ADDR_FAULT_CNT, .reg MEMCTL_PENDING_ROWS, .reg MEMCTL_PENDING_REMAP_USED, evtPend 3, .reg LINK_STAT_DETOUR, evtPend 7, .reg COLL_ORIG, .reg CULVERT_AUDIT_ABORT, .reg CULVERT_SUSPECT_CNT, .reg CULVERT_SUSPECT, .reg CULVERT_SUSPECT_INFO_BUF, .reg CULVERT_SUSPECT_INFO_OUTCOME, .reg CULVERT_SUSPECT_INFO_TILE, evtPend 9, .mem, .poison, .mcs, .seqs, .cul, .ctxs, .jwide, .txStreams, .sendq, .out]) fun t =>
      (∀ x ∈ (seqOf t rg).held, jobIs j.ctx j.gbi x = false) ∧ (j.ctx, j.gbi, (ctxOf s j.ctx).steps.map (·.step)) ∈ (seqOf t rg).pubs ∧ getF t ROOTSEQ_ROOT_PUB rg = (getF s ROOTSEQ_ROOT_PUB rg + 1) % 2 ^ 32 ∧ (j.piv ≠ 0 → evtSet t ROOTSEQ_EV_DAMPED rg = true ∧ getF t ROOTSEQ_DAMPED_PUB rg = (getF s ROOTSEQ_DAMPED_PUB rg + 1) % 2 ^ 32)) ∧
  (∀ (rg : Nat) (t : Notice) (rest : List Notice) (x : Step) (b : Blk) (s : State), stopped s = false → domOn s (32 + rg) = true → (seqOf s rg).notices = t :: rest → (seqOf s rg).restart = none → seqStalled s t.ctx rg = false → blkOf s t.ctx t.step t.gbi = some (x, b) → lateKind s t b = 0 → (seqOf s rg).held.any (fun j => j.written && !heldBack s j) = false → Does (.dueNotice rg) s ([.reg TUNIT_STAT_BUSY, .reg TUNIT_STAT_HALTED, .reg TUNIT_STAT_CQ_LEVEL, .reg TUNIT_STAT_WQ_LEVEL, .reg ROOTSEQ_STAT_BUSY, .reg ROOTSEQ_STAT_PHASE, .reg ROOTSEQ_STAT_SIDE, .reg ROOTSEQ_ROOT_LATE, .reg ROOTSEQ_ROOT_RESTART, .reg ROOTSEQ_CUR_GBI, evtPend 2, .units, .seqs, .ctxs, .out]) fun u =>
      (seqOf u rg).notices = rest ∧ u.blk t.ctx t.step t.gbi = some { b with notice := 2 }) ∧
  (∀ (rg : Nat) (t : Notice) (rest : List Notice) (x : Step) (b : Blk) (s : State), stopped s = false → domOn s (32 + rg) = true → (seqOf s rg).notices = t :: rest → (seqOf s rg).restart = none → seqStalled s t.ctx rg = false → blkOf s t.ctx t.step t.gbi = some (x, b) → lateKind s t b = 1 → (seqOf s rg).held.any (fun j => j.written && !heldBack s j) = false → Does (.dueNotice rg) s ([.reg TUNIT_STAT_BUSY, .reg TUNIT_STAT_HALTED, .reg TUNIT_STAT_CQ_LEVEL, .reg TUNIT_STAT_WQ_LEVEL, .reg ROOTSEQ_STAT_BUSY, .reg ROOTSEQ_STAT_PHASE, .reg ROOTSEQ_STAT_SIDE, .reg ROOTSEQ_ROOT_LATE, .reg ROOTSEQ_ROOT_RESTART, .reg ROOTSEQ_CUR_GBI, evtPend 2, .units, .seqs, .ctxs, .out]) fun u =>
      (seqOf u rg).notices = rest ∧ u.blk t.ctx t.step t.gbi = some { b with notice := 2 } ∧ getF u ROOTSEQ_ROOT_LATE rg = (getF s ROOTSEQ_ROOT_LATE rg + 1) % 2 ^ 32 ∧ evtSet u ROOTSEQ_EV_ROOT_LATE rg = true ∧ (seqOf u rg).job = (seqOf s rg).job) ∧
  (∀ (rg : Nat) (t : Notice) (rest : List Notice) (x : Step) (b : Blk) (s : State), stopped s = false → domOn s (32 + rg) = true → (seqOf s rg).notices = t :: rest → (seqOf s rg).restart = none → seqStalled s t.ctx rg = false → blkOf s t.ctx t.step t.gbi = some (x, b) → lateKind s t b = 2 → (seqOf s rg).held.any (fun j => j.written && !heldBack s j) = false → Does (.dueNotice rg) s ([.reg TUNIT_STAT_BUSY, .reg TUNIT_STAT_HALTED, .reg TUNIT_STAT_CQ_LEVEL, .reg TUNIT_STAT_WQ_LEVEL, .reg ROOTSEQ_STAT_BUSY, .reg ROOTSEQ_STAT_PHASE, .reg ROOTSEQ_STAT_SIDE, .reg ROOTSEQ_ROOT_LATE, .reg ROOTSEQ_ROOT_RESTART, .reg ROOTSEQ_CUR_GBI, evtPend 2, .units, .seqs, .ctxs, .out]) fun u =>
      (seqOf u rg).notices = rest ∧ (seqOf u rg).restart = some t ∧ (seqOf u rg).job.any (jobIs t.ctx t.gbi) = false ∧ (∀ y ∈ (seqOf u rg).held, jobIs t.ctx t.gbi y = false) ∧ getF u ROOTSEQ_ROOT_LATE rg = (getF s ROOTSEQ_ROOT_LATE rg + 1) % 2 ^ 32 ∧ getF u ROOTSEQ_ROOT_RESTART rg = (getF s ROOTSEQ_ROOT_RESTART rg + 1) % 2 ^ 32 ∧ evtSet u ROOTSEQ_EV_ROOT_LATE rg = true) ∧
  (∀ (rg : Nat) (t : Notice) (x : Step) (b : Blk) (s : State), stopped s = false → domOn s (32 + rg) = true → (seqOf s rg).restart = some t → wideStopped s rg 32 = true → blkOf s t.ctx t.step t.gbi = some (x, b) → Does (.restartReply rg) s ([.reg MEMCTL_ADDR_FAULT_CNT, evtPend 3, .mem, .poison, .seqs, .ctxs, .out]) fun u =>
      (seqOf u rg).restart = none ∧ u.blk t.ctx t.step t.gbi = some { b with notice := 2 } ∧ u.mem = (recPut b 48 1 0 (clearWip b s)).mem) ∧
  (∀ (rg : Nat) (v : Bool) (s : State), stopped s = false → domOn s (32 + rg) = true → v = (urgentNow s rg || ownerWaits s rg 16) → Does (.lendSet rg) s ([.reg TUNIT_STAT_LEND, .reg ROOTSEQ_STAT_LENDING, .reg ROOTSEQ_STAT_URGENT]) fun t =>
      getF t ROOTSEQ_STAT_URGENT rg = b2n (urgentNow s rg) ∧ getF t ROOTSEQ_STAT_LENDING rg = b2n v ∧ ∀ n < 32, getF t TUNIT_STAT_LEND (rg * 32 + n) = if lendable s (rg * 32 + n) then b2n v else 0) ∧
  (∀ (rg : Nat) (j : Job) (s : State), stopped s = false → domOn s (32 + rg) = true → (seqOf s rg).job = some j → Does (.seqLockstep rg) s ([.reg TUNIT_STAT_BUSY, .reg TUNIT_STAT_HALTED, .reg TUNIT_STAT_CQ_LEVEL, .reg TUNIT_STAT_WQ_LEVEL, .reg CLUSTER_REPLAY_DIV_CNT, evtPend 1, .reg ROOTSEQ_STAT_BUSY, .reg ROOTSEQ_STAT_PHASE, .reg ROOTSEQ_STAT_SIDE, .reg ROOTSEQ_ERR_INFO_REASON, .reg ROOTSEQ_ERR_INFO_SIDE, .reg ROOTSEQ_ERR_INFO_RES_LOG, .reg ROOTSEQ_ROOT_REJ, .reg ROOTSEQ_REPLAY_DIV, .reg ROOTSEQ_CUR_GBI, .reg ROOTSEQ_LAST_REJ, evtPend 2, .reg MEMCTL_ADDR_FAULT_CNT, evtPend 3, .reg BRKW_SEQ_LOCKSTEP_CNT, evtPend 15, .mem, .poison, .units, .seqs, .ctxs, .out]) fun t =>
      (seqOf t rg).job = none ∧ getF t ROOTSEQ_ROOT_REJ rg = (getF s ROOTSEQ_ROOT_REJ rg + 1) % 2 ^ 32 ∧ evtSet t ROOTSEQ_EV_ROOT_REJECT rg = true ∧ evtSet t ROOTSEQ_EV_LOCKSTEP rg = true ∧ getF t BRKW_SEQ_LOCKSTEP_CNT 0 = (getF s BRKW_SEQ_LOCKSTEP_CNT 0 + 1) % 2 ^ 32 ∧ evtSet t BRKW_EV_SEQ_LOCKSTEP 0 = true) ∧
  (∀ (rg : Nat) (s : State), stopped s = false → domOn s (32 + rg) = true → (seqOf s rg).job = none → Does (.seqLockstep rg) s ([.reg TUNIT_STAT_BUSY, .reg TUNIT_STAT_HALTED, .reg TUNIT_STAT_CQ_LEVEL, .reg TUNIT_STAT_WQ_LEVEL, .reg CLUSTER_REPLAY_DIV_CNT, evtPend 1, .reg ROOTSEQ_STAT_BUSY, .reg ROOTSEQ_STAT_PHASE, .reg ROOTSEQ_STAT_SIDE, .reg ROOTSEQ_ERR_INFO_REASON, .reg ROOTSEQ_ERR_INFO_SIDE, .reg ROOTSEQ_ERR_INFO_RES_LOG, .reg ROOTSEQ_ROOT_REJ, .reg ROOTSEQ_REPLAY_DIV, .reg ROOTSEQ_CUR_GBI, .reg ROOTSEQ_LAST_REJ, evtPend 2, .reg MEMCTL_ADDR_FAULT_CNT, evtPend 3, .reg BRKW_SEQ_LOCKSTEP_CNT, evtPend 15, .mem, .poison, .units, .seqs, .ctxs, .out]) fun t =>
      (seqOf t rg).job = none ∧ evtSet t ROOTSEQ_EV_LOCKSTEP rg = true ∧ getF t BRKW_SEQ_LOCKSTEP_CNT 0 = (getF s BRKW_SEQ_LOCKSTEP_CNT 0 + 1) % 2 ^ 32 ∧ evtSet t BRKW_EV_SEQ_LOCKSTEP 0 = true ∧ getF t ROOTSEQ_ROOT_REJ rg = getF s ROOTSEQ_ROOT_REJ rg)

/-- The collective engine's transfers: RECVs, SENDs, gathers block by block, turn frames as R414
sorts them, DONE and RELEASE frames, and the early area. The rows: recv, send, gatherBlockSend,
collTurnFrame, doneFrame, releaseFrame, earlyAreaAdmit. Basis: R56, R410, R411, R412, R414,
R435, R436, R672, R673, R674, R675. The model's choices it rests on: log entries 105, 117. -/
def Obligations.CollectiveTransfers : Prop :=
  (∀ (c flag k n : Nat) (d : List Byte) (rest : List (Nat × List Byte)) (st : Step) (s : State), isAwake s = true → isF s COLL_CTRL_EN 0 = true → (ctxOf s c).coll.halted = false → collPaused s c = false → (ctxOf s c).coll.posts = (n, d) :: rest → collStep s c n = some st → dop d = 0x62 → collCode s c st d = 0 → (ctxOf s c).coll.early = [] → lostInStep s st (getF s COLL_DEGRADE_LOST_POS 0) = false → Does (.recv ⟨c, flag, k⟩) s ([.reg CLUSTER_GATHER_REJ, evtPend 1, .reg MEMCTL_ADDR_FAULT_CNT, evtPend 3, .reg SYNC_SIGNALS, .reg SYNC_WAITS_DONE, .reg SYNC_BAR_RELEASE, .reg SYNC_STALE_SIG_CNT, .reg SYNC_SAT_CNT, evtPend 6, .reg LINK_STAT_DETOUR, evtPend 7, .reg COLL_ERR_INFO_CODE, .reg COLL_ERR_INFO_CONTEXT, .reg COLL_XFER_DONE, .reg COLL_STALE_REJ, .reg COLL_ABSENT_SRC, .reg COLL_CARRY_DROP, .reg COLL_DUP_TURN, .reg COLL_ORIG, .reg COLL_LAST_ABSENT_COLL_ID, .reg COLL_LAST_ABSENT_ABSENT, evtPend 8, .mem, .poison, .objs, .releases, .ctxs, .txStreams, .sendq, .out]) fun t =>
      (ctxOf t c).coll.posts = rest ∧ (ctxOf t c).coll.recvs = (ctxOf s c).coll.recvs ++ [{ newRecv s c st d flag k with fin := (newRecv s c st d flag k).xfers.all fun x => x.closed || x.absent }]) ∧
  (∀ (c flag k n : Nat) (d : List Byte) (rest : List (Nat × List Byte)) (st : Step) (s : State), isAwake s = true → isF s COLL_CTRL_EN 0 = true → (ctxOf s c).coll.halted = false → collPaused s c = false → (ctxOf s c).coll.posts = (n, d) :: rest → collStep s c n = some st → collCode s c st d ≠ 0 → Does (.recv ⟨c, flag, k⟩) s ([.reg CLUSTER_GATHER_REJ, evtPend 1, .reg MEMCTL_ADDR_FAULT_CNT, evtPend 3, .reg SYNC_SIGNALS, .reg SYNC_WAITS_DONE, .reg SYNC_BAR_RELEASE, .reg SYNC_STALE_SIG_CNT, .reg SYNC_SAT_CNT, evtPend 6, .reg LINK_STAT_DETOUR, evtPend 7, .reg COLL_ERR_INFO_CODE, .reg COLL_ERR_INFO_CONTEXT, .reg COLL_XFER_DONE, .reg COLL_STALE_REJ, .reg COLL_ABSENT_SRC, .reg COLL_CARRY_DROP, .reg COLL_DUP_TURN, .reg COLL_ORIG, .reg COLL_LAST_ABSENT_COLL_ID, .reg COLL_LAST_ABSENT_ABSENT, evtPend 8, .mem, .poison, .objs, .releases, .ctxs, .txStreams, .sendq, .out]) fun t =>
      (ctxOf t c).coll = { (ctxOf s c).coll with halted := true } ∧ evtSet t COLL_EV_DESC_INVALID 0 = true ∧ getF t COLL_ERR_INFO_CODE 0 = if getF s COLL_ERR_INFO_CODE 0 = 0 then collCode s c st d % 2 ^ COLL_ERR_INFO_CODE.w else getF s COLL_ERR_INFO_CODE 0) ∧
  (∀ (c room k n : Nat) (enc : List PartEnc) (d : List Byte) (rest : List (Nat × List Byte)) (st : Step) (peers : List (Nat × Nat × Bool)) (all held free : List Nat) (w v : State) (s : State), isAwake s = true → collRuns s c = true → collPaused s c = false → bits (dw d 0) 4 4 ≠ 5 → (ctxOf s c).coll.list = (n, d) :: rest → collStep s c n = some st → collCode s c st d = 0 → sendOpen s c = none → hubGranted s 536 c (sendKey n d) = true → w = encodeParts (if kKind d = 0 then enc else []) (hubTake 536 c (sendKey n d) s) → peers = sendPeers s st d k → all = (if kRelease d then [] else allTurns d peers) → held = gatherHeld w c st d all → free = all.filter (fun k => !held.contains k) → sendTurns c d peers (free.take room) (if kRelease d then sendReleasesTo c d peers w else w) = some v → (∀ x ∈ (ctxOf s c).coll.sends, ¬ (x.step = n ∧ x.cid = kCid d)) → Does (.send ⟨c, room, k, enc⟩) s ([.reg MEMCTL_STAT_PARKED, .reg MEMCTL_ERR_INFO_CHAN, .reg MEMCTL_ERR_INFO_ROW, .reg MEMCTL_ERR_INFO_CLASS, .reg MEMCTL_CE_CNT, .reg MEMCTL_UE_CNT, .reg MEMCTL_ROW_FAIL_CNT, .reg MEMCTL_PAGE_LOST_CNT, .reg MEMCTL_ADDR_FAULT_CNT, .reg MEMCTL_PENDING_ROWS, .reg MEMCTL_PENDING_REMAP_USED, evtPend 3, .reg SYNC_BAR_RELEASE, .reg SYNC_STALE_SIG_CNT, .reg SYNC_SAT_CNT, evtPend 6, .reg LINK_STAT_DETOUR, evtPend 7, .reg COLL_ERR_INFO_CODE, .reg COLL_ERR_INFO_CONTEXT, .reg COLL_ORIG, evtPend 8, .mem, .poison, .mcs, .sluices, .objs, .releases, .ctxs, .jwide, .txStreams, .sendq, .out]) fun t =>
      (ctxOf t c).coll.list = rest ∧ t.sent = v.sent ∧ (ctxOf t c).coll.sends = (if peers.all (·.2.2) then (ctxOf s c).coll.sends else (ctxOf s c).coll.sends ++ [{ step := n, cid := kCid d, desc := d, peers := peers, left := held ++ free.drop room }])) ∧
  (∀ (c n cid g : Nat) (st : Step) (x : Send) (now : List Nat) (v : State) (s : State), isAwake s = true → isF s COLL_CTRL_EN 0 = true → collPaused s c = false → collStep s c n = some st → (ctxOf s c).coll.sends.find? (fun x => kKind x.desc == 1 && x.step == n && x.cid == cid && !x.left.isEmpty) = some x → now = x.left.filter (fun k => relHolds s c x.desc && ((turnBlks s st x.desc k).isEmpty || (turnBlks s st x.desc k).any (fun b => b.gbi == g)) && (turnBlks s st x.desc k).all (gatherReady s x.desc)) → now ≠ [] → sendTurns c x.desc x.peers now s = some v → Does (.gatherBlockSend c n cid g) s ([.reg MEMCTL_STAT_PARKED, .reg MEMCTL_ERR_INFO_CHAN, .reg MEMCTL_ERR_INFO_ROW, .reg MEMCTL_ERR_INFO_CLASS, .reg MEMCTL_CE_CNT, .reg MEMCTL_UE_CNT, .reg MEMCTL_ROW_FAIL_CNT, .reg MEMCTL_PAGE_LOST_CNT, .reg MEMCTL_ADDR_FAULT_CNT, .reg MEMCTL_PENDING_ROWS, .reg MEMCTL_PENDING_REMAP_USED, evtPend 3, .reg LINK_STAT_DETOUR, evtPend 7, .reg COLL_ORIG, .mcs, .ctxs, .jwide, .txStreams, .sendq, .out]) fun t =>
      t.sent = v.sent ∧ (ctxOf t c).coll.sends = (ctxOf s c).coll.sends.map (fun w => if w = x then { x with left := x.left.filter fun k => !now.contains k } else w)) ∧
  (∀ (f : Frame) (r : List Frame) (s : State), isAwake s = true → collInbox s (fun t => decide (t < 0xFFFE)) = some (f, r) → stepAbove s f.ctx (fStep f) = true → Does (.collTurnFrame) s ([.reg CLUSTER_GATHER_REJ, evtPend 1, .reg MEMCTL_ADDR_FAULT_CNT, evtPend 3, .reg SYNC_SIGNALS, .reg SYNC_WAITS_DONE, .reg SYNC_BAR_RELEASE, .reg SYNC_STALE_SIG_CNT, .reg SYNC_SAT_CNT, evtPend 6, .reg LINK_STAT_DETOUR, evtPend 7, .reg COLL_XFER_DONE, .reg COLL_STALE_REJ, .reg COLL_CARRY_DROP, .reg COLL_DUP_TURN, .reg COLL_ORIG, evtPend 8, .mem, .poison, .objs, .releases, .ctxs, .txStreams, .sendq, .inbox, .out]) fun t =>
      t.inbox = r ∧ (ctxOf t f.ctx).coll.early = (ctxOf s f.ctx).coll.early ++ [f]) ∧
  (∀ (f : Frame) (r : List Frame) (q : Recv) (x y : Xfer) (s : State), isAwake s = true → collInbox s (fun t => decide (t < 0xFFFE)) = some (f, r) → stepAbove s f.ctx (fStep f) = false → recvOf s f.ctx (fStep f) (fCid f) = some q → kRelease q.desc = false → fTurn f < kTurns q.desc → (q.xfers.filter fun x => x.src == f.src).find? (fun x => !x.closed && (!x.absent || x.carry) && !turnDone q.desc x (fTurn f)) = some x → x.carry = false → y = { x with turns := x.turns.put [] (fTurn f) (x.turns.get [] (fTurn f) ++ f.payload) } → xferFull q.desc y = false → Does (.collTurnFrame) s ([.reg CLUSTER_GATHER_REJ, evtPend 1, .reg MEMCTL_ADDR_FAULT_CNT, evtPend 3, .reg SYNC_SIGNALS, .reg SYNC_WAITS_DONE, .reg SYNC_BAR_RELEASE, .reg SYNC_STALE_SIG_CNT, .reg SYNC_SAT_CNT, evtPend 6, .reg LINK_STAT_DETOUR, evtPend 7, .reg COLL_XFER_DONE, .reg COLL_STALE_REJ, .reg COLL_CARRY_DROP, .reg COLL_DUP_TURN, .reg COLL_ORIG, evtPend 8, .mem, .poison, .objs, .releases, .ctxs, .txStreams, .sendq, .inbox, .out]) fun t =>
      t.inbox = r ∧ recvOf t f.ctx (fStep f) (fCid f) = some { q with xfers := q.xfers.map fun z => if z.idx = x.idx then { z with turns := y.turns } else z } ∧ t.mem = (placeData f.ctx q x.idx (fTurn f) (x.turns.get [] (fTurn f)).length f.payload s).mem) ∧
  (∀ (f : Frame) (r : List Frame) (q : Recv) (x y : Xfer) (s : State), isAwake s = true → collInbox s (fun t => decide (t < 0xFFFE)) = some (f, r) → stepAbove s f.ctx (fStep f) = false → recvOf s f.ctx (fStep f) (fCid f) = some q → kRelease q.desc = false → fTurn f < kTurns q.desc → (q.xfers.filter fun x => x.src == f.src).find? (fun x => !x.closed && (!x.absent || x.carry) && !turnDone q.desc x (fTurn f)) = some x → x.carry = false → y = { x with turns := x.turns.put [] (fTurn f) (x.turns.get [] (fTurn f) ++ f.payload) } → xferFull q.desc y = true → x.absent = false → Does (.collTurnFrame) s ([.reg CLUSTER_GATHER_REJ, evtPend 1, .reg MEMCTL_ADDR_FAULT_CNT, evtPend 3, .reg SYNC_SIGNALS, .reg SYNC_WAITS_DONE, .reg SYNC_BAR_RELEASE, .reg SYNC_STALE_SIG_CNT, .reg SYNC_SAT_CNT, evtPend 6, .reg LINK_STAT_DETOUR, evtPend 7, .reg COLL_XFER_DONE, .reg COLL_STALE_REJ, .reg COLL_CARRY_DROP, .reg COLL_DUP_TURN, .reg COLL_ORIG, evtPend 8, .mem, .poison, .objs, .releases, .ctxs, .txStreams, .sendq, .inbox, .out]) fun t =>
      t.inbox = r ∧ getF t COLL_XFER_DONE 0 = (getF s COLL_XFER_DONE 0 + 1) % 2 ^ 32 ∧ (∃ p, recvOf t f.ctx (fStep f) (fCid f) = some p ∧ ∀ z ∈ p.xfers, z.idx = x.idx → z.closed = true ∧ z.turns = y.turns ∧ z.done = if collPaused s f.ctx then 1 else 2) ∧ t.mem = (placeData f.ctx q x.idx (fTurn f) (x.turns.get [] (fTurn f)).length f.payload s).mem) ∧
  (∀ (f : Frame) (r : List Frame) (s : State), isAwake s = true → collInbox s (fun t => decide (t < 0xFFFE)) = some (f, r) → stepAbove s f.ctx (fStep f) = false → recvOf s f.ctx (fStep f) (fCid f) = none → Does (.collTurnFrame) s ([.reg CLUSTER_GATHER_REJ, evtPend 1, .reg MEMCTL_ADDR_FAULT_CNT, evtPend 3, .reg SYNC_SIGNALS, .reg SYNC_WAITS_DONE, .reg SYNC_BAR_RELEASE, .reg SYNC_STALE_SIG_CNT, .reg SYNC_SAT_CNT, evtPend 6, .reg LINK_STAT_DETOUR, evtPend 7, .reg COLL_XFER_DONE, .reg COLL_STALE_REJ, .reg COLL_CARRY_DROP, .reg COLL_DUP_TURN, .reg COLL_ORIG, evtPend 8, .mem, .poison, .objs, .releases, .ctxs, .txStreams, .sendq, .inbox, .out]) fun t =>
      t.inbox = r ∧ getF t COLL_STALE_REJ 0 = (getF s COLL_STALE_REJ 0 + 1) % 2 ^ 32 ∧ evtSet t COLL_EV_STALE_REJ 0 = true ∧ t.mem = s.mem) ∧
  (∀ (f : Frame) (r : List Frame) (x y : Send) (l : List Send) (i : Nat) (s : State), isAwake s = true → collInbox s (fun t => t == 0xFFFF) = some (f, r) → stepAbove s f.ctx (fStep f) = false → takeFirst (fun x : Send => x.step == fStep f && x.cid == fCid f && x.peers.any fun e => e.1 == f.src && !e.2.2) (ctxOf s f.ctx).coll.sends = some (x, l) → i = ((x.peers.find? fun e => e.1 == f.src && !e.2.2).map (·.2.1)).getD 0 → y = { x with peers := x.peers.map (fun e => if e.2.1 = i then (e.1, e.2.1, true) else e), left := x.left.filter fun k => k / 65536 != i } → (∀ z ∈ (ctxOf s f.ctx).coll.sends, z.step = fStep f → z.cid = fCid f → z = x) → Does (.doneFrame) s ([.reg SYNC_BAR_RELEASE, .reg SYNC_STALE_SIG_CNT, .reg SYNC_SAT_CNT, evtPend 6, .reg COLL_STALE_REJ, evtPend 8, .objs, .releases, .ctxs, .inbox, .out]) fun t =>
      t.inbox = r ∧ (ctxOf t f.ctx).coll.sends = (if !y.fin && y.peers.all (·.2.2) then ((ctxOf s f.ctx).coll.sends.map fun w => if w = x then y else w).filter fun z => decide (z ≠ y) else (ctxOf s f.ctx).coll.sends.map fun w => if w = x then y else w)) ∧
  (∀ (f : Frame) (r : List Frame) (q : Recv) (x : Xfer) (s : State), isAwake s = true → collInbox s (fun t => t == 0xFFFE) = some (f, r) → stepAbove s f.ctx (fStep f) = false → recvOf s f.ctx (fStep f) (fCid f) = some q → q.xfers.find? (fun x => x.src == f.src) = some x → kRelease q.desc = true → x.closed = false → Does (.releaseFrame) s ([.reg SYNC_BAR_RELEASE, .reg SYNC_STALE_SIG_CNT, .reg SYNC_SAT_CNT, evtPend 6, .reg LINK_STAT_DETOUR, evtPend 7, .reg COLL_XFER_DONE, .reg COLL_STALE_REJ, .reg COLL_DUP_TURN, .reg COLL_ORIG, evtPend 8, .objs, .releases, .ctxs, .txStreams, .sendq, .inbox, .out]) fun t =>
      t.inbox = r ∧ getF t COLL_XFER_DONE 0 = (getF s COLL_XFER_DONE 0 + 1) % 2 ^ 32 ∧ ∃ p, recvOf t f.ctx (fStep f) (fCid f) = some p ∧ ∀ z ∈ p.xfers, z.idx = x.idx → z.closed = true ∧ z.done = if collPaused s f.ctx then 1 else 2) ∧
  (∀ (hclk : Nat) (s : State), isAwake s = true → Does (.earlyAreaAdmit hclk) s ([.reg LINK_STAT_DETOUR, .reg LINK_DUP_DROP, .reg LINK_HOLD_CNT, .reg LINK_CTX_DROP, evtPend 7, .reg COLL_EARLY_HCLK, .reg COLL_FIN, .ports, .txStreams, .rxStreams, .sendq, .inbox, .out]) fun t =>
      getF t COLL_EARLY_HCLK 0 = (if earlyAnyFull s then (getF s COLL_EARLY_HCLK 0 + hclk) % 2 ^ 32 else getF s COLL_EARLY_HCLK 0) ∧ (earlyWaits s = true → t.ports = s.ports ∧ t.inbox = s.inbox) ∧ (earlyAnyFull s = false → earlyWaits s = false → t = drainAll s))

/-- Sources declared absent, paused contexts, losses recorded and cleared, the topology table,
and releases that arrive.  Basis: R416, R422, R423, R426, R427, R432, R389, R390, R358, R362,
R364. -/
def Obligations.StragglersPausesAndLosses : Prop :=
  (∀ (c n cid : Nat) (r : Recv) (s : State), stopped s = false → recvOf s c n cid = some r → kKind r.desc = 0 → getFk s COLL_STRAG 0 c ≠ 0 → replayOn s c = false → r.xfers.any (·.closed) = true → openXfers r ≠ [] → Does (.stragglerDeadline c n cid) s ([.reg MEMCTL_ADDR_FAULT_CNT, evtPend 3, .reg SYNC_BAR_RELEASE, .reg SYNC_STALE_SIG_CNT, .reg SYNC_SAT_CNT, evtPend 6, .reg LINK_STAT_DETOUR, evtPend 7, .reg COLL_ABSENT_SRC, .reg COLL_CARRY_DROP, .reg COLL_ORIG, .reg COLL_LAST_ABSENT_COLL_ID, .reg COLL_LAST_ABSENT_ABSENT, evtPend 8, .mem, .poison, .objs, .releases, .ctxs, .txStreams, .sendq, .out]) fun t =>
      getF t COLL_ABSENT_SRC 0 = (getF s COLL_ABSENT_SRC 0 + (openXfers r).length) % 2 ^ 32 ∧ evtSet t COLL_EV_ABSENT 0 = true ∧ getF t COLL_LAST_ABSENT_COLL_ID 0 = cid % 2 ^ 16 ∧ ∃ p, recvOf t c n cid = some p ∧ ∀ x ∈ p.xfers, x.closed = true ∨ x.absent = true) ∧
  (∀ (r : Requester) (a v i : Nat) (s : State), a % 4 = 0 → target s r a = some (8, i, 0x280) → gate s r 8 i 0x280 = .pass → Does (.ctxPause r a v) s (denied ++ ([.reg MEMCTL_STAT_PARKED, .reg MEMCTL_ERR_INFO_CHAN, .reg MEMCTL_ERR_INFO_ROW, .reg MEMCTL_ERR_INFO_CLASS, .reg MEMCTL_CE_CNT, .reg MEMCTL_UE_CNT, .reg MEMCTL_ROW_FAIL_CNT, .reg MEMCTL_PAGE_LOST_CNT, .reg MEMCTL_ADDR_FAULT_CNT, .reg MEMCTL_PENDING_ROWS, .reg MEMCTL_PENDING_REMAP_USED, evtPend 3, .reg LINK_STAT_DETOUR, evtPend 7, .reg COLL_RETRY_XFER, .reg COLL_ORIG, .reg COLL_CTX_PAUSE, evtPend 8, .mcs, .ctxs, .jwide, .txStreams, .sendq, .out] : List Part)) fun t =>
      getF t COLL_CTX_PAUSE 0 = v % 2 ^ 16 ∧ getF t COLL_RETRY_XFER 0 = (getF s COLL_RETRY_XFER 0 + (((List.range 16).filter fun c => (getF s COLL_CTX_PAUSE 0).testBit c && !(v % 65536).testBit c).flatMap fun c => (ctxOf s c).coll.sends.flatMap fun x => x.peers.filter fun e => !e.2.2).length) % 2 ^ 32) ∧
  (∀ (h : Nat) (s : State), stopped s = false → cmdReady s h 0x41 = true → degEntry s (bits (argOf (entryOf s h) 0) 0 9) = none → Does (.degrade h) s ([.reg TUNIT_STAT_BUSY, .reg TUNIT_STAT_HALTED, .reg TUNIT_STAT_CQ_LEVEL, .reg TUNIT_STAT_WQ_LEVEL, .reg CLUSTER_DROUGHT_EVT, .reg CLUSTER_SCALE_DIVERGE, .reg CLUSTER_REPLAY_DIV_CNT, .reg CLUSTER_DROUGHT_LAST, .reg CLUSTER_FACTOR_UPD, .reg CLUSTER_SNAP_TAKEN, .reg CLUSTER_SNAP_SKIP, evtPend 1, .reg ROOTSEQ_STAT_BUSY, .reg ROOTSEQ_STAT_PHASE, .reg ROOTSEQ_STAT_SIDE, .reg ROOTSEQ_CUR_GBI, .reg MEMCTL_STAT_PARKED, .reg MEMCTL_ERR_INFO_CHAN, .reg MEMCTL_ERR_INFO_ROW, .reg MEMCTL_ERR_INFO_CLASS, .reg MEMCTL_CE_CNT, .reg MEMCTL_UE_CNT, .reg MEMCTL_ROW_FAIL_CNT, .reg MEMCTL_PAGE_LOST_CNT, .reg MEMCTL_ADDR_FAULT_CNT, .reg MEMCTL_PENDING_ROWS, .reg MEMCTL_PENDING_REMAP_USED, evtPend 3, .reg SYNC_BAR_RELEASE, .reg SYNC_STALE_SIG_CNT, .reg SYNC_SAT_CNT, evtPend 6, .reg LINK_STAT_DETOUR, evtPend 7, .reg COLL_ABSENT_SRC, .reg COLL_CARRY_DROP, .reg COLL_ORIG, .reg COLL_DEGRADE_ACTIVE, .reg COLL_DEGRADE_LOST_POS, .reg COLL_DEGRADE_PREV_ACTIVE, .reg COLL_DEGRADE_PREV_POS, .reg COLL_DEGRADE_NEXT_ACTIVE, .reg COLL_DEGRADE_NEXT_POS, .reg COLL_LAST_ABSENT_COLL_ID, .reg COLL_LAST_ABSENT_ABSENT, evtPend 8, .reg CULVERT_SUSPECT_CNT, .reg CULVERT_SUSPECT, .reg CULVERT_SUSPECT_INFO_BUF, .reg CULVERT_SUSPECT_INFO_OUTCOME, .reg CULVERT_SUSPECT_INFO_TILE, evtPend 9, .mem, .poison, .mcs, .objs, .releases, .units, .seqs, .cul, .degSet, .degClear, .ctxs, .reports, .jwide, .txStreams, .sendq, .out, .freeCtr]) fun t =>
      t.reports = s.reports ++ [{ handle := h, status := 0 }]) ∧
  (∀ (h k : Nat) (s : State), stopped s = false → cmdReady s h 0x41 = true → degEntry s (bits (argOf (entryOf s h) 0) 0 9) = some k → bit (argOf (entryOf s h) 0) 12 = true → isF s (degFlds k).1 0 = true → Does (.degrade h) s ([.reg TUNIT_STAT_BUSY, .reg TUNIT_STAT_HALTED, .reg TUNIT_STAT_CQ_LEVEL, .reg TUNIT_STAT_WQ_LEVEL, .reg CLUSTER_DROUGHT_EVT, .reg CLUSTER_SCALE_DIVERGE, .reg CLUSTER_REPLAY_DIV_CNT, .reg CLUSTER_DROUGHT_LAST, .reg CLUSTER_FACTOR_UPD, .reg CLUSTER_SNAP_TAKEN, .reg CLUSTER_SNAP_SKIP, evtPend 1, .reg ROOTSEQ_STAT_BUSY, .reg ROOTSEQ_STAT_PHASE, .reg ROOTSEQ_STAT_SIDE, .reg ROOTSEQ_CUR_GBI, .reg MEMCTL_STAT_PARKED, .reg MEMCTL_ERR_INFO_CHAN, .reg MEMCTL_ERR_INFO_ROW, .reg MEMCTL_ERR_INFO_CLASS, .reg MEMCTL_CE_CNT, .reg MEMCTL_UE_CNT, .reg MEMCTL_ROW_FAIL_CNT, .reg MEMCTL_PAGE_LOST_CNT, .reg MEMCTL_ADDR_FAULT_CNT, .reg MEMCTL_PENDING_ROWS, .reg MEMCTL_PENDING_REMAP_USED, evtPend 3, .reg SYNC_BAR_RELEASE, .reg SYNC_STALE_SIG_CNT, .reg SYNC_SAT_CNT, evtPend 6, .reg LINK_STAT_DETOUR, evtPend 7, .reg COLL_ABSENT_SRC, .reg COLL_CARRY_DROP, .reg COLL_ORIG, .reg COLL_DEGRADE_ACTIVE, .reg COLL_DEGRADE_LOST_POS, .reg COLL_DEGRADE_PREV_ACTIVE, .reg COLL_DEGRADE_PREV_POS, .reg COLL_DEGRADE_NEXT_ACTIVE, .reg COLL_DEGRADE_NEXT_POS, .reg COLL_LAST_ABSENT_COLL_ID, .reg COLL_LAST_ABSENT_ABSENT, evtPend 8, .reg CULVERT_SUSPECT_CNT, .reg CULVERT_SUSPECT, .reg CULVERT_SUSPECT_INFO_BUF, .reg CULVERT_SUSPECT_INFO_OUTCOME, .reg CULVERT_SUSPECT_INFO_TILE, evtPend 9, .mem, .poison, .mcs, .objs, .releases, .units, .seqs, .cul, .degSet, .degClear, .ctxs, .reports, .jwide, .txStreams, .sendq, .out, .freeCtr]) fun t =>
      t.degClear = s.degClear ++ [(k, h)] ∧ t.degSet = s.degSet.filter (fun e => !((e == 0 && k == 0) || (e == 1 && k != 0 && (bits (argOf (entryOf s h) 0) 0 9) == ownBoard s ^^^ 1))) ∧ t.reports = s.reports) ∧
  (∀ (h k : Nat) (s : State), stopped s = false → cmdReady s h 0x41 = true → degEntry s (bits (argOf (entryOf s h) 0) 0 9) = some k → bit (argOf (entryOf s h) 0) 12 = false → isF s (degFlds k).1 0 = false → Does (.degrade h) s ([.reg TUNIT_STAT_BUSY, .reg TUNIT_STAT_HALTED, .reg TUNIT_STAT_CQ_LEVEL, .reg TUNIT_STAT_WQ_LEVEL, .reg CLUSTER_DROUGHT_EVT, .reg CLUSTER_SCALE_DIVERGE, .reg CLUSTER_REPLAY_DIV_CNT, .reg CLUSTER_DROUGHT_LAST, .reg CLUSTER_FACTOR_UPD, .reg CLUSTER_SNAP_TAKEN, .reg CLUSTER_SNAP_SKIP, evtPend 1, .reg ROOTSEQ_STAT_BUSY, .reg ROOTSEQ_STAT_PHASE, .reg ROOTSEQ_STAT_SIDE, .reg ROOTSEQ_CUR_GBI, .reg MEMCTL_STAT_PARKED, .reg MEMCTL_ERR_INFO_CHAN, .reg MEMCTL_ERR_INFO_ROW, .reg MEMCTL_ERR_INFO_CLASS, .reg MEMCTL_CE_CNT, .reg MEMCTL_UE_CNT, .reg MEMCTL_ROW_FAIL_CNT, .reg MEMCTL_PAGE_LOST_CNT, .reg MEMCTL_ADDR_FAULT_CNT, .reg MEMCTL_PENDING_ROWS, .reg MEMCTL_PENDING_REMAP_USED, evtPend 3, .reg SYNC_BAR_RELEASE, .reg SYNC_STALE_SIG_CNT, .reg SYNC_SAT_CNT, evtPend 6, .reg LINK_STAT_DETOUR, evtPend 7, .reg COLL_ABSENT_SRC, .reg COLL_CARRY_DROP, .reg COLL_ORIG, .reg COLL_DEGRADE_ACTIVE, .reg COLL_DEGRADE_LOST_POS, .reg COLL_DEGRADE_PREV_ACTIVE, .reg COLL_DEGRADE_PREV_POS, .reg COLL_DEGRADE_NEXT_ACTIVE, .reg COLL_DEGRADE_NEXT_POS, .reg COLL_LAST_ABSENT_COLL_ID, .reg COLL_LAST_ABSENT_ABSENT, evtPend 8, .reg CULVERT_SUSPECT_CNT, .reg CULVERT_SUSPECT, .reg CULVERT_SUSPECT_INFO_BUF, .reg CULVERT_SUSPECT_INFO_OUTCOME, .reg CULVERT_SUSPECT_INFO_TILE, evtPend 9, .mem, .poison, .mcs, .objs, .releases, .units, .seqs, .cul, .degSet, .degClear, .ctxs, .reports, .jwide, .txStreams, .sendq, .out, .freeCtr]) fun t =>
      getF t (degFlds k).1 0 = 1 ∧ getF t (degFlds k).2 0 = bits (argOf (entryOf s h) 0) 9 3 ∧ evtSet t COLL_EV_DEGRADED 0 = true ∧ t.reports = s.reports ++ [{ handle := h, status := 0 }]) ∧
  (∀ (h : Nat) (s : State), isAwake s = true → cmdReady s h 0x40 = true → stepIsOpen s (argOf (entryOf s h) 0 % 16) = true → Does (.topoLoad h) s ([.reg MEMCTL_STAT_PARKED, .reg MEMCTL_ERR_INFO_CHAN, .reg MEMCTL_ERR_INFO_ROW, .reg MEMCTL_ERR_INFO_CLASS, .reg MEMCTL_CE_CNT, .reg MEMCTL_UE_CNT, .reg MEMCTL_ROW_FAIL_CNT, .reg MEMCTL_PAGE_LOST_CNT, .reg MEMCTL_ADDR_FAULT_CNT, .reg MEMCTL_PENDING_ROWS, .reg MEMCTL_PENDING_REMAP_USED, evtPend 3, .reg LINK_STAT_STATE, .reg LINK_STAT_DETOUR, .reg LINK_TOPO_SER_LO, .reg LINK_TOPO_SER_HI, .reg LINK_TOPO_PEER_BOARD, .reg LINK_TOPO_PEER_POS, .reg LINK_TOPO_PEER_PORT, .reg LINK_TOPO_PEER_ROLE, .reg LINK_SELF_BOARD, .mcs, .ctxs, .reports, .jwide, .txStreams, .rxStreams, .out]) fun t =>
      t.reports = s.reports ++ [{ handle := h, status := 0x08 }]) ∧
  (∀ (h : Nat) (bs : List Byte) (s : State), isAwake s = true → cmdReady s h 0x40 = true → stepIsOpen s (argOf (entryOf s h) 0 % 16) = false → engRead 0 5 (argOf (entryOf s h) 1) 400 s = (.data bs, s) → noWeak s = true → Does (.topoLoad h) s ([.reg MEMCTL_STAT_PARKED, .reg MEMCTL_ERR_INFO_CHAN, .reg MEMCTL_ERR_INFO_ROW, .reg MEMCTL_ERR_INFO_CLASS, .reg MEMCTL_CE_CNT, .reg MEMCTL_UE_CNT, .reg MEMCTL_ROW_FAIL_CNT, .reg MEMCTL_PAGE_LOST_CNT, .reg MEMCTL_ADDR_FAULT_CNT, .reg MEMCTL_PENDING_ROWS, .reg MEMCTL_PENDING_REMAP_USED, evtPend 3, .reg LINK_STAT_STATE, .reg LINK_STAT_DETOUR, .reg LINK_TOPO_SER_LO, .reg LINK_TOPO_SER_HI, .reg LINK_TOPO_PEER_BOARD, .reg LINK_TOPO_PEER_POS, .reg LINK_TOPO_PEER_PORT, .reg LINK_TOPO_PEER_ROLE, .reg LINK_SELF_BOARD, .mcs, .ctxs, .reports, .jwide, .txStreams, .rxStreams, .out]) fun t =>
      if topoConflict s (argOf (entryOf s h) 0 % 16) bs then t.reports = s.reports ++ [{ handle := h, status := 0x0F }] else t.reports = s.reports ++ [{ handle := h, status := 0 }] ∧ (ctxOf t (argOf (entryOf s h) 0 % 16)).topo = true ∧ getF t LINK_SELF_BOARD 0 = bits (pay bs 0 2) 0 9 ∧ ∀ p e, (chunks 16 24 (bs.drop 16))[p]? = some e → topoPeerSame t p e = true ∧ getF t LINK_TOPO_PEER_ROLE p = if roleTaken p e then topoRole e else getF s LINK_TOPO_PEER_ROLE p) ∧
  (∀ (r : Release) (rest : List Release) (l y : ListRun) (s : State), stopped s = false → s.releases = r :: rest → r.party.cluster ≠ 256 → listOf s r.party.cluster r.party.lst = some l → l.st = .waiting → (r.status = .ok ∨ r.status = .marked) → l.grp.filter (·.arrived) = none → y = { l with st := .run, gated := [] } → Does (.releaseReceive) s ([.reg TUNIT_ACC_DIVERGE, .reg CLUSTER_SPILL_GROUPS, .reg CLUSTER_SPILL_EXH, .reg CLUSTER_REPLAY_DIV_CNT, .reg CLUSTER_SPILL_LAST_GROUP, .reg CLUSTER_SPILL_LAST_RUNG, .reg CLUSTER_SPILL_LAST_EXH, evtPend 1, .reg SYNC_ERR_INFO_CODE, .reg SYNC_ERR_INFO_CLUSTER, evtPend 6, .releases, .clusters, .ctxs, .reports, .out]) fun t =>
      t.releases = rest ∧ listOf t r.party.cluster r.party.lst = if listEnded y then none else some y) ∧
  (∀ (r : Release) (rest : List Release) (s : State), stopped s = false → s.releases = r :: rest → r.party.cluster = 256 → (ctxOf s r.party.lst).coll.waiting = true → Does (.releaseReceive) s ([.reg TUNIT_ACC_DIVERGE, .reg CLUSTER_SPILL_GROUPS, .reg CLUSTER_SPILL_EXH, .reg CLUSTER_REPLAY_DIV_CNT, .reg CLUSTER_SPILL_LAST_GROUP, .reg CLUSTER_SPILL_LAST_RUNG, .reg CLUSTER_SPILL_LAST_EXH, evtPend 1, .reg SYNC_ERR_INFO_CODE, .reg SYNC_ERR_INFO_CLUSTER, evtPend 6, .releases, .clusters, .ctxs, .reports, .out]) fun t =>
      t.releases = rest ∧ (ctxOf t r.party.lst).coll = { (ctxOf s r.party.lst).coll with waiting := false, halted := (ctxOf s r.party.lst).coll.halted || r.status == .stale || r.status == .abandoned })

/-- Checkpoints: the command, the block reads within their windows, the END record and the
manifest, completion, and the peer frames at holder and source. The rows: ckpt, ckptBlockRead,
ckptComplete, peerWrite, readReq, peerDone. Basis: R469, R470, R471, R472, R474, R477, R478,
R479, R480, R481, R505, R525. The model's choices it rests on: log entry 105. -/
def Obligations.Checkpoints : Prop :=
  (∀ (h : Nat) (s : State), isAwake s = true → cmdReady s h 0x30 = true → (ctxOf s (hCtx h)).lastCommit.any (fun l => decide ((argOf (entryOf s h) 0 % two32) < l)) = true → Does (.ckpt h) s ([.reg MEMCTL_STAT_PARKED, .reg MEMCTL_ERR_INFO_CHAN, .reg MEMCTL_ERR_INFO_ROW, .reg MEMCTL_ERR_INFO_CLASS, .reg MEMCTL_CE_CNT, .reg MEMCTL_UE_CNT, .reg MEMCTL_ROW_FAIL_CNT, .reg MEMCTL_PAGE_LOST_CNT, .reg MEMCTL_ADDR_FAULT_CNT, .reg MEMCTL_PENDING_ROWS, .reg MEMCTL_PENDING_REMAP_USED, evtPend 3, .reg LINK_STAT_DETOUR, evtPend 7, .reg COLL_ORIG, .hmem, .mcs, .ctxs, .reports, .jwide, .txStreams, .sendq, .out]) fun t =>
      t.reports = s.reports ++ [{ handle := h, status := 0x0A }]) ∧
  (∀ (h : Nat) (s : State), isAwake s = true → cmdReady s h 0x30 = true → (ctxOf s (hCtx h)).lastCommit.any (fun l => decide ((argOf (entryOf s h) 0 % two32) < l)) = false → (ctxOf s (hCtx h)).ckpt.isSome = true → Does (.ckpt h) s ([.reg MEMCTL_STAT_PARKED, .reg MEMCTL_ERR_INFO_CHAN, .reg MEMCTL_ERR_INFO_ROW, .reg MEMCTL_ERR_INFO_CLASS, .reg MEMCTL_CE_CNT, .reg MEMCTL_UE_CNT, .reg MEMCTL_ROW_FAIL_CNT, .reg MEMCTL_PAGE_LOST_CNT, .reg MEMCTL_ADDR_FAULT_CNT, .reg MEMCTL_PENDING_ROWS, .reg MEMCTL_PENDING_REMAP_USED, evtPend 3, .reg LINK_STAT_DETOUR, evtPend 7, .reg COLL_ORIG, .hmem, .mcs, .ctxs, .reports, .jwide, .txStreams, .sendq, .out]) fun t =>
      t.reports = s.reports ++ [{ handle := h, status := 0x0B }]) ∧
  (∀ (h n : Nat) (hb xb : List Byte) (hs xs : List (List Byte)) (s : State), isAwake s = true → cmdReady s h 0x30 = true → n = (argOf (entryOf s h) 0 % two32) → (ctxOf s (hCtx h)).lastCommit.any (fun l => decide (n < l)) = false → (ctxOf s (hCtx h)).ckpt = none → engRead 0 6 (argOf (entryOf s h) 1 % 2 ^ 40) (16 * (if bits (argOf (entryOf s h) 0) 32 2 = 1 then argOf (entryOf s h) 2 else 0)) s = (.data hb, s) → engRead 0 6 (argOf (entryOf s h) 3) (16 * argOf (entryOf s h) 4) s = (.data xb, s) → hs = chunks 16 (if bits (argOf (entryOf s h) 0) 32 2 = 1 then argOf (entryOf s h) 2 else 0) hb → xs = chunks 16 (argOf (entryOf s h) 4) xb → stepClosed s (hCtx h) n = false → noWeak s = true → Does (.ckpt h) s ([.reg MEMCTL_STAT_PARKED, .reg MEMCTL_ERR_INFO_CHAN, .reg MEMCTL_ERR_INFO_ROW, .reg MEMCTL_ERR_INFO_CLASS, .reg MEMCTL_CE_CNT, .reg MEMCTL_UE_CNT, .reg MEMCTL_ROW_FAIL_CNT, .reg MEMCTL_PAGE_LOST_CNT, .reg MEMCTL_ADDR_FAULT_CNT, .reg MEMCTL_PENDING_ROWS, .reg MEMCTL_PENDING_REMAP_USED, evtPend 3, .reg LINK_STAT_DETOUR, evtPend 7, .reg COLL_ORIG, .hmem, .mcs, .ctxs, .reports, .jwide, .txStreams, .sendq, .out]) fun t =>
      if hs.any holderBad || xs.any extentBad then t.reports = s.reports ++ [{ handle := h, status := 1 }] else t.reports = s.reports ∧ (ctxOf t (hCtx h)).ckpt = some { handle := h, cut := n, peer := bits (argOf (entryOf s h) 0) 32 2 == 1, dest := argOf (entryOf s h) 1, room := argOf (entryOf s h) 2, holders := hs.map holderOf, exts := xs.map extentOf, left := ckptLeft s (hCtx h) n }) ∧
  (∀ (c g : Nat) (k : Ckpt) (s : State), isAwake s = true → (ctxOf s c).ckpt = some k → ((k.left.any fun l => l.contains g) = false ∨ isSuspect s g = true ∨ (k.peer = false ∧ hubGranted s 537 (c + 16) 1 = false) ∨ ckptWindow s c g k = none) → Does (.ckptBlockRead c g) s ([.reg MEMCTL_STAT_PARKED, .reg MEMCTL_ERR_INFO_CHAN, .reg MEMCTL_ERR_INFO_ROW, .reg MEMCTL_ERR_INFO_CLASS, .reg MEMCTL_CE_CNT, .reg MEMCTL_UE_CNT, .reg MEMCTL_ROW_FAIL_CNT, .reg MEMCTL_PAGE_LOST_CNT, .reg MEMCTL_ADDR_FAULT_CNT, .reg MEMCTL_PENDING_ROWS, .reg MEMCTL_PENDING_REMAP_USED, evtPend 3, .reg LINK_STAT_DETOUR, evtPend 7, .reg COLL_ORIG, .reg CULVERT_SUSPECT_CNT, .reg CULVERT_SUSPECT, .reg CULVERT_SUSPECT_INFO_BUF, .reg CULVERT_SUSPECT_INFO_OUTCOME, .reg CULVERT_SUSPECT_INFO_TILE, evtPend 9, .hmem, .mcs, .sluices, .cul, .ctxs, .jwide, .txStreams, .sendq, .out]) fun t =>
      t = s) ∧
  (∀ (c g : Nat) (k : Ckpt) (b : Blk) (hd : ZHead) (raw r : List Byte) (v : State) (s : State), isAwake s = true → (ctxOf s c).ckpt = some k → (k.left.any fun l => l.contains g) = true → isSuspect s g = false → ckptWindow s c g k = some b → blockRecord b (hubTake 537 (c + 16) 1 s) = (some (hd, raw), v) → r = zRecord hd k.cut (!k.peer) raw → (k.peer = true ∨ hubGranted s 537 (c + 16) 1 = true) → noWeak s = true → Does (.ckptBlockRead c g) s ([.reg MEMCTL_STAT_PARKED, .reg MEMCTL_ERR_INFO_CHAN, .reg MEMCTL_ERR_INFO_ROW, .reg MEMCTL_ERR_INFO_CLASS, .reg MEMCTL_CE_CNT, .reg MEMCTL_UE_CNT, .reg MEMCTL_ROW_FAIL_CNT, .reg MEMCTL_PAGE_LOST_CNT, .reg MEMCTL_ADDR_FAULT_CNT, .reg MEMCTL_PENDING_ROWS, .reg MEMCTL_PENDING_REMAP_USED, evtPend 3, .reg LINK_STAT_DETOUR, evtPend 7, .reg COLL_ORIG, .reg CULVERT_SUSPECT_CNT, .reg CULVERT_SUSPECT, .reg CULVERT_SUSPECT_INFO_BUF, .reg CULVERT_SUSPECT_INFO_OUTCOME, .reg CULVERT_SUSPECT_INFO_TILE, evtPend 9, .hmem, .mcs, .sluices, .cul, .ctxs, .jwide, .txStreams, .sendq, .out]) fun t =>
      (∃ i o, (ctxOf t c).ckpt = some { k with left := k.left.map (fun l => l.filter (· ≠ g)), entries := k.entries ++ [zEntry hd k.off r], off := k.off + r.length, cur := i, curOff := o }) ∧ (k.peer = false → t.hmem = Store.putAll 0 (k.dest + k.off) (r.take (k.room - k.off)) s.hmem)) ∧
  (∀ (c : Nat) (k : Ckpt) (s : State), isAwake s = true → (ctxOf s c).ckpt = some k → k.ended = true → Does (.ckptComplete c) s ([.reg LINK_STAT_DETOUR, evtPend 7, .reg COLL_ORIG, .hmem, .ctxs, .reports, .txStreams, .sendq, .out]) fun t =>
      if k.peer && !(usedHolders k).all (fun h => k.dones.contains h.1) then t = s else (ctxOf t c).ckpt = none ∧ t.reports = s.reports ++ [{ handle := k.handle, status := 0, r0 := k.off }]) ∧
  (∀ (c : Nat) (k : Ckpt) (r m : List Byte) (s : State), isAwake s = true → (ctxOf s c).ckpt = some k → k.ended = false → k.left = some [] → k.cutRead = true → k.arriving = [] → k.dropped = [] → r = zRecord { kind := 4, gbi := k.entries.length } k.cut (!k.peer) [] → m = zManifest s c k.cut (k.entries ++ [zEntry { kind := 4, gbi := k.entries.length } k.off r]) → k.peer = false → Does (.ckptComplete c) s ([.reg LINK_STAT_DETOUR, evtPend 7, .reg COLL_ORIG, .hmem, .ctxs, .reports, .txStreams, .sendq, .out]) fun t =>
      (ctxOf t c).ckpt = none ∧ t.reports = s.reports ++ [{ handle := k.handle, status := 0, r0 := k.off + r.length + m.length }] ∧ t.hmem = Store.putAll 0 (k.dest + k.off + r.length) (m.take (k.room - (k.off + r.length))) (Store.putAll 0 (k.dest + k.off) (r.take (k.room - k.off)) s.hmem)) ∧
  (∀ (c : Nat) (k : Ckpt) (r m : List Byte) (s : State), isAwake s = true → (ctxOf s c).ckpt = some k → k.ended = false → k.left = some [] → k.cutRead = true → k.arriving = [] → k.dropped = [] → r = zRecord { kind := 4, gbi := k.entries.length } k.cut (!k.peer) [] → m = zManifest s c k.cut (k.entries ++ [zEntry { kind := 4, gbi := k.entries.length } k.off r]) → k.peer = true → k.dones = [] → k.holders ≠ [] → Does (.ckptComplete c) s ([.reg LINK_STAT_DETOUR, evtPend 7, .reg COLL_ORIG, .hmem, .ctxs, .reports, .txStreams, .sendq, .out]) fun t =>
      t.reports = s.reports ∧ ∃ q, (ctxOf t c).ckpt = some q ∧ q.ended = true ∧ q.off = k.off + r.length + m.length ∧ q.entries = k.entries ++ [zEntry { kind := 4, gbi := k.entries.length } k.off r]) ∧
  (∀ (f : Frame) (r : List Frame) (s : State), isAwake s = true → peerInbox s 1 = some (f, r) → ¬ winSize s f.ctx < pOff f + f.payload.length → Does (.peerWrite) s ([.reg MEMCTL_ADDR_FAULT_CNT, evtPend 3, .reg LINK_CTX_DROP, evtPend 7, .mem, .poison, .inbox, .out]) fun t =>
      t.inbox = r ∧ t.mem = (memStore 0 (winAddr s f.ctx (pOff f)) f.payload s).mem ∧ t.poison = (memStore 0 (winAddr s f.ctx (pOff f)) f.payload s).poison) ∧
  (∀ (f : Frame) (r : List Frame) (s : State), isAwake s = true → peerInbox s 1 = some (f, r) → winSize s f.ctx < pOff f + f.payload.length → Does (.peerWrite) s ([.reg MEMCTL_ADDR_FAULT_CNT, evtPend 3, .reg LINK_CTX_DROP, evtPend 7, .mem, .poison, .inbox, .out]) fun t =>
      t.inbox = r ∧ getF t LINK_CTX_DROP f.via = (getF s LINK_CTX_DROP f.via + 1) % 2 ^ LINK_CTX_DROP.w ∧ evtSet t LINK_EV_CTX_DROP f.via = true ∧ t.mem = s.mem ∧ t.sent = s.sent) ∧
  (∀ (f : Frame) (r : List Frame) (bs : List Byte) (s : State), isAwake s = true → peerInbox s 2 = some (f, r) → ¬ winSize s f.ctx < pOff f + pLen f → engRead 0 6 (winAddr s f.ctx (pOff f)) (pLen f) s = (.data bs, s) → noWeak s = true → Does (.readReq) s ([.reg MEMCTL_STAT_PARKED, .reg MEMCTL_ERR_INFO_CHAN, .reg MEMCTL_ERR_INFO_ROW, .reg MEMCTL_ERR_INFO_CLASS, .reg MEMCTL_CE_CNT, .reg MEMCTL_UE_CNT, .reg MEMCTL_ROW_FAIL_CNT, .reg MEMCTL_PAGE_LOST_CNT, .reg MEMCTL_ADDR_FAULT_CNT, .reg MEMCTL_PENDING_ROWS, .reg MEMCTL_PENDING_REMAP_USED, evtPend 3, .reg LINK_STAT_DETOUR, .reg LINK_CTX_DROP, evtPend 7, .reg COLL_ORIG, .mcs, .jwide, .txStreams, .sendq, .inbox, .out]) fun t =>
      t.inbox = r ∧ t.mem = s.mem ∧ t.sent = if (peerMembers s f.src).isEmpty then s.sent else s.sent ++ (peerData s f.src f.ctx 3 (pOff f) bs).map Frame.what) ∧
  (∀ (f : Frame) (r : List Frame) (s : State), isAwake s = true → peerInbox s 2 = some (f, r) → winSize s f.ctx < pOff f + pLen f → Does (.readReq) s ([.reg MEMCTL_STAT_PARKED, .reg MEMCTL_ERR_INFO_CHAN, .reg MEMCTL_ERR_INFO_ROW, .reg MEMCTL_ERR_INFO_CLASS, .reg MEMCTL_CE_CNT, .reg MEMCTL_UE_CNT, .reg MEMCTL_ROW_FAIL_CNT, .reg MEMCTL_PAGE_LOST_CNT, .reg MEMCTL_ADDR_FAULT_CNT, .reg MEMCTL_PENDING_ROWS, .reg MEMCTL_PENDING_REMAP_USED, evtPend 3, .reg LINK_STAT_DETOUR, .reg LINK_CTX_DROP, evtPend 7, .reg COLL_ORIG, .mcs, .jwide, .txStreams, .sendq, .inbox, .out]) fun t =>
      t.inbox = r ∧ getF t LINK_CTX_DROP f.via = (getF s LINK_CTX_DROP f.via + 1) % 2 ^ LINK_CTX_DROP.w ∧ evtSet t LINK_EV_CTX_DROP f.via = true ∧ t.mem = s.mem ∧ t.sent = s.sent) ∧
  (∀ (f : Frame) (r : List Frame) (k : Ckpt) (s : State), isAwake s = true → peerInbox s 4 = some (f, r) → pOff f = 0 → (ctxOf s f.ctx).ckpt = some k → k.peer = true → k.ended = true → k.holders.any (fun h => h.1 == f.src) = true → Does (.peerDone) s ([.reg LINK_STAT_DETOUR, .reg LINK_CTX_DROP, evtPend 7, .reg COLL_ORIG, .ctxs, .reports, .txStreams, .sendq, .inbox, .out]) fun t =>
      t.inbox = r ∧ if (usedHolders k).all (fun h => (k.dones ++ [f.src]).contains h.1) then (ctxOf t f.ctx).ckpt = none ∧ t.reports = s.reports ++ [{ handle := k.handle, status := 0, r0 := k.off }] else (ctxOf t f.ctx).ckpt = some { k with dones := k.dones ++ [f.src] } ∧ t.reports = s.reports) ∧
  (∀ (f : Frame) (r : List Frame) (s : State), isAwake s = true → peerInbox s 4 = some (f, r) → pOff f ≠ 0 → ¬ winSize s f.ctx < pOff f → Does (.peerDone) s ([.reg LINK_STAT_DETOUR, .reg LINK_CTX_DROP, evtPend 7, .reg COLL_ORIG, .ctxs, .reports, .txStreams, .sendq, .inbox, .out]) fun t =>
      t.inbox = r ∧ t.sent = if (peerMembers s f.src).isEmpty then s.sent else s.sent ++ [(peerFrame s f.src f.ctx 4 0 0 []).what]) ∧
  (∀ (f : Frame) (r : List Frame) (s : State), isAwake s = true → peerInbox s 4 = some (f, r) → pOff f ≠ 0 → winSize s f.ctx < pOff f → Does (.peerDone) s ([.reg LINK_STAT_DETOUR, .reg LINK_CTX_DROP, evtPend 7, .reg COLL_ORIG, .ctxs, .reports, .txStreams, .sendq, .inbox, .out]) fun t =>
      t.inbox = r ∧ getF t LINK_CTX_DROP f.via = (getF s LINK_CTX_DROP f.via + 1) % 2 ^ LINK_CTX_DROP.w ∧ evtSet t LINK_EV_CTX_DROP f.via = true ∧ t.mem = s.mem ∧ t.sent = s.sent)

/-- Restores: the command with and without new block tables, READ_DATA, the records applied,
skipped, refused or bad, and completion.  Basis: R482, R483, R484, R485, R486, R490, R480, R49,
R500, R506. -/
def Obligations.Restores : Prop :=
  (∀ (f : Frame) (r : List Frame) (R : Restore) (e : List Byte) (l : List (List Byte)) (s : State), isAwake s = true → peerInbox s 3 = some (f, r) → (ctxOf s f.ctx).restore = some R → R.left = e :: l → Does (.readData) s ([.ctxs, .inbox]) fun t =>
      t.inbox = r ∧ (ctxOf t f.ctx).restore = some (if rKind e = 2 ∧ rHolder e = f.src ∧ rAddr e ≤ pOff f ∧ pOff f < rAddr e + rLen e then { R with parts := R.parts.put [] ((pOff f - rAddr e) / 64) f.payload } else R)) ∧
  (∀ (h dir : Nat) (s : State), isAwake s = true → cmdReady s h 0x31 = true → stepIsOpen s (hCtx h) = true → Does (.restore h dir) s ([.reg MEMCTL_STAT_PARKED, .reg MEMCTL_ERR_INFO_CHAN, .reg MEMCTL_ERR_INFO_ROW, .reg MEMCTL_ERR_INFO_CLASS, .reg MEMCTL_CE_CNT, .reg MEMCTL_UE_CNT, .reg MEMCTL_ROW_FAIL_CNT, .reg MEMCTL_PAGE_LOST_CNT, .reg MEMCTL_ADDR_FAULT_CNT, .reg MEMCTL_PENDING_ROWS, .reg MEMCTL_PENDING_REMAP_USED, evtPend 3, .reg LINK_STAT_DETOUR, evtPend 7, .reg COLL_ORIG, .mcs, .ctxs, .reports, .jwide, .txStreams, .sendq, .out]) fun t =>
      t.reports = s.reports ++ [{ handle := h, status := 8 }]) ∧
  (∀ (h dir : Nat) (bs : List Byte) (R : Restore) (s : State), isAwake s = true → cmdReady s h 0x31 = true → stepIsOpen s (hCtx h) = false → engRead 0 6 (argOf (entryOf s h) 0) (96 * (argOf (entryOf s h) 1 % two32)) s = (.data bs, s) → R = { handle := h, src := bits (argOf (entryOf s h) 1) 32 2, exts := argOf (entryOf s h) 2, left := chunks 96 (argOf (entryOf s h) 1 % two32) bs } → dir = 0 → noWeak s = true → Does (.restore h dir) s ([.reg MEMCTL_STAT_PARKED, .reg MEMCTL_ERR_INFO_CHAN, .reg MEMCTL_ERR_INFO_ROW, .reg MEMCTL_ERR_INFO_CLASS, .reg MEMCTL_CE_CNT, .reg MEMCTL_UE_CNT, .reg MEMCTL_ROW_FAIL_CNT, .reg MEMCTL_PAGE_LOST_CNT, .reg MEMCTL_ADDR_FAULT_CNT, .reg MEMCTL_PENDING_ROWS, .reg MEMCTL_PENDING_REMAP_USED, evtPend 3, .reg LINK_STAT_DETOUR, evtPend 7, .reg COLL_ORIG, .mcs, .ctxs, .reports, .jwide, .txStreams, .sendq, .out]) fun t =>
      t.reports = s.reports ∧ (ctxOf t (hCtx h)).restore = some R ∧ (∀ e l, R.left = e :: l → rKind e = 2 → t.sent = if (peerMembers s (rHolder e)).isEmpty then s.sent else s.sent ++ (readReqs s (rHolder e) (hCtx h) (rLen e) (rAddr e) (pad64 (rLen e))).map Frame.what)) ∧
  (∀ (h dir : Nat) (bs db : List Byte) (R : Restore) (ts : Tables) (s : State), isAwake s = true → cmdReady s h 0x31 = true → stepIsOpen s (hCtx h) = false → engRead 0 6 (argOf (entryOf s h) 0) (96 * (argOf (entryOf s h) 1 % two32)) s = (.data bs, s) → R = { handle := h, src := bits (argOf (entryOf s h) 1) 32 2, exts := argOf (entryOf s h) 2, left := chunks 96 (argOf (entryOf s h) 1 % two32) bs } → dir ≠ 0 → engRead 0 6 dir 4096 s = (.data db, s) → readTables 0 (chunks 16 256 db) s = (.ok ts, s) → noWeak s = true → Does (.restore h dir) s ([.reg MEMCTL_STAT_PARKED, .reg MEMCTL_ERR_INFO_CHAN, .reg MEMCTL_ERR_INFO_ROW, .reg MEMCTL_ERR_INFO_CLASS, .reg MEMCTL_CE_CNT, .reg MEMCTL_UE_CNT, .reg MEMCTL_ROW_FAIL_CNT, .reg MEMCTL_PAGE_LOST_CNT, .reg MEMCTL_ADDR_FAULT_CNT, .reg MEMCTL_PENDING_ROWS, .reg MEMCTL_PENDING_REMAP_USED, evtPend 3, .reg LINK_STAT_DETOUR, evtPend 7, .reg COLL_ORIG, .mcs, .ctxs, .reports, .jwide, .txStreams, .sendq, .out]) fun t =>
      t.reports = s.reports ∧ (ctxOf t (hCtx h)).restore = some R ∧ (∀ e l, R.left = e :: l → rKind e = 2 → t.sent = if (peerMembers s (rHolder e)).isEmpty then s.sent else s.sent ++ (readReqs s (rHolder e) (hCtx h) (rLen e) (rAddr e) (pad64 (rLen e))).map Frame.what) ∧ (ctxOf t (hCtx h)).tabs = latchBlocks ts) ∧
  (∀ (c : Nat) (hd : List Byte) (R : Restore) (e : List Byte) (rest : List (List Byte)) (s : State), isAwake s = true → (ctxOf s c).restore = some R → R.left = e :: rest → recordBytes R e hd = none → Does (.restoreRecordApply c hd) s ([.reg TUNIT_STAT_BUSY, .reg TUNIT_STAT_HALTED, .reg TUNIT_STAT_CQ_LEVEL, .reg TUNIT_STAT_WQ_LEVEL, .reg ROOTSEQ_STAT_BUSY, .reg ROOTSEQ_STAT_PHASE, .reg ROOTSEQ_STAT_SIDE, .reg ROOTSEQ_CUR_GBI, .reg MEMCTL_ADDR_FAULT_CNT, evtPend 3, .reg LINK_STAT_DETOUR, evtPend 7, .reg COLL_ORIG, .reg HOSTIF_CTX_EVT_EVT, .mem, .poison, .units, .seqs, .ctxs, .txStreams, .sendq, .out, .freeCtr]) fun t =>
      t = s) ∧
  (∀ (c : Nat) (hd : List Byte) (R : Restore) (e : List Byte) (rest : List (List Byte)) (bs : List Byte) (s : State), isAwake s = true → (ctxOf s c).restore = some R → R.left = e :: rest → recordBytes R e hd = some bs → openRecord e bs = none → Does (.restoreRecordApply c hd) s ([.reg TUNIT_STAT_BUSY, .reg TUNIT_STAT_HALTED, .reg TUNIT_STAT_CQ_LEVEL, .reg TUNIT_STAT_WQ_LEVEL, .reg ROOTSEQ_STAT_BUSY, .reg ROOTSEQ_STAT_PHASE, .reg ROOTSEQ_STAT_SIDE, .reg ROOTSEQ_CUR_GBI, .reg MEMCTL_ADDR_FAULT_CNT, evtPend 3, .reg LINK_STAT_DETOUR, evtPend 7, .reg COLL_ORIG, .reg HOSTIF_CTX_EVT_EVT, .mem, .poison, .units, .seqs, .ctxs, .txStreams, .sendq, .out, .freeCtr]) fun t =>
      (ctxOf t c).restore = some { R with left := rest, parts := [], fails := R.fails + 1, bad := some (R.bad.getD (0x0C, pay e 0 4)) } ∧ (getFk t HOSTIF_CTX_EVT_EVT 0 c).testBit ceRestoreBad = true ∧ t.mem = s.mem) ∧
  (∀ (c : Nat) (hd : List Byte) (R : Restore) (e : List Byte) (rest : List (List Byte)) (bs : List Byte) (raw : List Byte) (s : State), isAwake s = true → (ctxOf s c).restore = some R → R.left = e :: rest → recordBytes R e hd = some bs → openRecord e bs = some raw → ((pay bs 3 1 = 1 ∧ (ctxOf s c).tabs.find? (fun b => b.gbi == pay bs 8 4) = none ∧ twinBlk s (pay bs 8 4) = none) ∨ (pay bs 3 1 = 3 ∧ findExtent s R.exts (pay bs 4 3) 64 = none) ∨ pay bs 3 1 = 0 ∨ 3 < pay bs 3 1) → Does (.restoreRecordApply c hd) s ([.reg TUNIT_STAT_BUSY, .reg TUNIT_STAT_HALTED, .reg TUNIT_STAT_CQ_LEVEL, .reg TUNIT_STAT_WQ_LEVEL, .reg ROOTSEQ_STAT_BUSY, .reg ROOTSEQ_STAT_PHASE, .reg ROOTSEQ_STAT_SIDE, .reg ROOTSEQ_CUR_GBI, .reg MEMCTL_ADDR_FAULT_CNT, evtPend 3, .reg LINK_STAT_DETOUR, evtPend 7, .reg COLL_ORIG, .reg HOSTIF_CTX_EVT_EVT, .mem, .poison, .units, .seqs, .ctxs, .txStreams, .sendq, .out, .freeCtr]) fun t =>
      (ctxOf t c).restore = some { R with left := rest, parts := [], cut := some (R.cut.getD (pay bs 28 4)) } ∧ t.mem = s.mem) ∧
  (∀ (c : Nat) (hd : List Byte) (R : Restore) (e : List Byte) (rest : List (List Byte)) (bs : List Byte) (raw : List Byte) (a n : Nat) (s : State), isAwake s = true → (ctxOf s c).restore = some R → R.left = e :: rest → recordBytes R e hd = some bs → openRecord e bs = some raw → pay bs 3 1 = 3 → findExtent s R.exts (pay bs 4 3) 64 = some (a, n) → Does (.restoreRecordApply c hd) s ([.reg TUNIT_STAT_BUSY, .reg TUNIT_STAT_HALTED, .reg TUNIT_STAT_CQ_LEVEL, .reg TUNIT_STAT_WQ_LEVEL, .reg ROOTSEQ_STAT_BUSY, .reg ROOTSEQ_STAT_PHASE, .reg ROOTSEQ_STAT_SIDE, .reg ROOTSEQ_CUR_GBI, .reg MEMCTL_ADDR_FAULT_CNT, evtPend 3, .reg LINK_STAT_DETOUR, evtPend 7, .reg COLL_ORIG, .reg HOSTIF_CTX_EVT_EVT, .mem, .poison, .units, .seqs, .ctxs, .txStreams, .sendq, .out, .freeCtr]) fun t =>
      (ctxOf t c).restore = some { R with left := rest, parts := [], cut := some (R.cut.getD (pay bs 28 4)), applied := R.applied + 1 } ∧ t.mem = (memStore 0 a (raw.take n) s).mem) ∧
  (∀ (c : Nat) (hd : List Byte) (R : Restore) (e : List Byte) (rest : List (List Byte)) (bs : List Byte) (raw : List Byte) (own : Option Blk) (twin : Option (Nat × Blk)) (s : State), isAwake s = true → (ctxOf s c).restore = some R → R.left = e :: rest → recordBytes R e hd = some bs → openRecord e bs = some raw → pay bs 3 1 = 1 → own = (ctxOf s c).tabs.find? (fun b => b.gbi == pay bs 8 4) → twin = twinBlk s (pay bs 8 4) → (own.any (fun b => !sidesAgree b.lat raw) || twin.any (fun e => !sidesAgree e.2.lat raw)) = true → Does (.restoreRecordApply c hd) s ([.reg TUNIT_STAT_BUSY, .reg TUNIT_STAT_HALTED, .reg TUNIT_STAT_CQ_LEVEL, .reg TUNIT_STAT_WQ_LEVEL, .reg ROOTSEQ_STAT_BUSY, .reg ROOTSEQ_STAT_PHASE, .reg ROOTSEQ_STAT_SIDE, .reg ROOTSEQ_CUR_GBI, .reg MEMCTL_ADDR_FAULT_CNT, evtPend 3, .reg LINK_STAT_DETOUR, evtPend 7, .reg COLL_ORIG, .reg HOSTIF_CTX_EVT_EVT, .mem, .poison, .units, .seqs, .ctxs, .txStreams, .sendq, .out, .freeCtr]) fun t =>
      (ctxOf t c).restore = some { R with left := rest, parts := [], cut := some (R.cut.getD (pay bs 28 4)), fails := R.fails + 1, bad := some (R.bad.getD (0x0D, pay bs 8 4)) } ∧ t.mem = s.mem) ∧
  (∀ (c : Nat) (hd : List Byte) (R : Restore) (e : List Byte) (rest : List (List Byte)) (bs : List Byte) (raw : List Byte) (own : Option Blk) (twin : Option (Nat × Blk)) (s : State), isAwake s = true → (ctxOf s c).restore = some R → R.left = e :: rest → recordBytes R e hd = some bs → openRecord e bs = some raw → pay bs 3 1 = 1 → own = (ctxOf s c).tabs.find? (fun b => b.gbi == pay bs 8 4) → twin = twinBlk s (pay bs 8 4) → (own.any (fun b => !sidesAgree b.lat raw) || twin.any (fun e => !sidesAgree e.2.lat raw)) = false → (own.isSome = true ∨ twin.isSome = true) → Does (.restoreRecordApply c hd) s ([.reg TUNIT_STAT_BUSY, .reg TUNIT_STAT_HALTED, .reg TUNIT_STAT_CQ_LEVEL, .reg TUNIT_STAT_WQ_LEVEL, .reg ROOTSEQ_STAT_BUSY, .reg ROOTSEQ_STAT_PHASE, .reg ROOTSEQ_STAT_SIDE, .reg ROOTSEQ_CUR_GBI, .reg MEMCTL_ADDR_FAULT_CNT, evtPend 3, .reg LINK_STAT_DETOUR, evtPend 7, .reg COLL_ORIG, .reg HOSTIF_CTX_EVT_EVT, .mem, .poison, .units, .seqs, .ctxs, .txStreams, .sendq, .out, .freeCtr]) fun t =>
      (ctxOf t c).restore = some { R with left := rest, parts := [], cut := some (R.cut.getD (pay bs 28 4)), applied := R.applied + 1 } ∧ (∀ b, own = some b → twin = none → t.mem = (restoreBlk b raw (pay bs 49 1) (copyWhole s b raw) s).mem)) ∧
  (∀ (c : Nat) (hd : List Byte) (R : Restore) (e : List Byte) (rest : List (List Byte)) (bs : List Byte) (raw : List Byte) (s : State), isAwake s = true → (ctxOf s c).restore = some R → R.left = e :: rest → recordBytes R e hd = some bs → openRecord e bs = some raw → pay bs 3 1 = 2 → Does (.restoreRecordApply c hd) s ([.reg TUNIT_STAT_BUSY, .reg TUNIT_STAT_HALTED, .reg TUNIT_STAT_CQ_LEVEL, .reg TUNIT_STAT_WQ_LEVEL, .reg ROOTSEQ_STAT_BUSY, .reg ROOTSEQ_STAT_PHASE, .reg ROOTSEQ_STAT_SIDE, .reg ROOTSEQ_CUR_GBI, .reg MEMCTL_ADDR_FAULT_CNT, evtPend 3, .reg LINK_STAT_DETOUR, evtPend 7, .reg COLL_ORIG, .reg HOSTIF_CTX_EVT_EVT, .mem, .poison, .units, .seqs, .ctxs, .txStreams, .sendq, .out, .freeCtr]) fun t =>
      (ctxOf t c).restore = some { R with left := rest, parts := [], cut := some (R.cut.getD (pay bs 28 4)), applied := R.applied + 1 } ∧ (∃ p x, recvOf t c (pay raw 4 4) (pay raw 0 2) = some p ∧ x ∈ p.xfers ∧ x.carry = true ∧ x.absent = true ∧ x.pos = pay raw 2 1 ∧ x.turns = carryTurns raw) ∧ t.mem = (carryBack c raw (modRestore c (fun r => { r with cut := some (r.cut.getD (pay bs 28 4)) }) s)).mem ∧ (replayOn s c = true → t.mem = s.mem)) ∧
  (∀ (c : Nat) (R : Restore) (s : State), isAwake s = true → (ctxOf s c).restore = some R → R.left ≠ [] → Does (.restoreComplete c) s ([.ctxs, .reports]) fun t =>
      t = s) ∧
  (∀ (c : Nat) (R : Restore) (s : State), isAwake s = true → (ctxOf s c).restore = some R → R.left = [] → Does (.restoreComplete c) s ([.ctxs, .reports]) fun t =>
      (ctxOf t c).restore = none ∧ (ctxOf t c).first = none ∧ (ctxOf t c).last = none ∧ (ctxOf t c).lastCommit = none ∧ (ctxOf t c).jwait = (ctxOf s c).jwait ++ (if jrnOn s c then [⟨5, srcHub, leBytes 4 (R.cut.getD 0) ++ leBytes 4 R.applied ++ leBytes 1 R.src ++ zeros 7⟩] else []) ∧ t.reports = s.reports ++ [{ handle := R.handle, status := (R.bad.getD (0, 0)).1, r0 := R.applied, r1 := (R.bad.getD (0, 0xFFFFFFFF)).2 }])

/-- The journal ring: records appended, after a PAD where needed, or waiting for room,
module-wide records, and the drain into the host ring.  Basis: R493, R494, R495, R496, R497,
R498, R499, R507. The model's choices it rests on: log entry 105. -/
def Obligations.TheJournal : Prop :=
  (∀ (c src hclk : Nat) (r : JrnRec) (rest : List JrnRec) (s : State), isAwake s = true → c ≠ 16 → takeFirst (fun r : JrnRec => r.src == src) (ctxOf s c).jwait = some (r, rest) → jrnOn s c = false → Does (.journalAppend c src hclk) s ([.reg MEMCTL_ADDR_FAULT_CNT, evtPend 3, .reg HOSTIF_JRN_WR, .reg HOSTIF_JRN_SEQ, .reg HOSTIF_CTX_EVT_EVT, .mem, .poison, .ctxs, .jwide, .out]) fun t =>
      (ctxOf t c).jwait = rest ∧ t.mem = s.mem) ∧
  (∀ (c src hclk : Nat) (r : JrnRec) (rest : List JrnRec) (s : State), isAwake s = true → c ≠ 16 → takeFirst (fun r : JrnRec => r.src == src) (ctxOf s c).jwait = some (r, rest) → jrnOn s c = true → jrnReady s c r = false → Does (.journalAppend c src hclk) s ([.reg MEMCTL_ADDR_FAULT_CNT, evtPend 3, .reg HOSTIF_JRN_WR, .reg HOSTIF_JRN_SEQ, .reg HOSTIF_CTX_EVT_EVT, .mem, .poison, .ctxs, .jwide, .out]) fun t =>
      (ctxOf t c).jwait = (ctxOf s c).jwait ∧ (ctxOf t c).jwaitHclk = (ctxOf s c).jwaitHclk + hclk ∧ (getFk t HOSTIF_CTX_EVT_EVT 0 c).testBit ceJrnFull = true ∧ t.mem = s.mem) ∧
  (∀ (c src hclk : Nat) (r : JrnRec) (rest : List JrnRec) (s : State), isAwake s = true → c ≠ 16 → takeFirst (fun r : JrnRec => r.src == src) (ctxOf s c).jwait = some (r, rest) → jrnOn s c = true → jrnReady s c r = true → 16 + pad16 r.payload.length ≤ jrnRest s c → Does (.journalAppend c src hclk) s ([.reg MEMCTL_ADDR_FAULT_CNT, evtPend 3, .reg HOSTIF_JRN_WR, .reg HOSTIF_JRN_SEQ, .reg HOSTIF_CTX_EVT_EVT, .mem, .poison, .ctxs, .jwide, .out]) fun t =>
      (ctxOf t c).jwait = rest ∧ getFk t HOSTIF_JRN_WR 0 c = (getFk s HOSTIF_JRN_WR 0 c + 16 + pad16 r.payload.length) % 2 ^ 32 ∧ getFk t HOSTIF_JRN_SEQ 0 c = (getFk s HOSTIF_JRN_SEQ 0 c + 1) % 2 ^ 32 ∧ t.mem = (memStore 0 (jrnBase s c + getFk s HOSTIF_JRN_WR 0 c % jrnSize s c) (jrnBytes r.type r.src (getFk s HOSTIF_JRN_SEQ 0 c) r.payload) s).mem) ∧
  (∀ (c src hclk : Nat) (r : JrnRec) (rest : List JrnRec) (s : State), isAwake s = true → c ≠ 16 → takeFirst (fun r : JrnRec => r.src == src) (ctxOf s c).jwait = some (r, rest) → jrnOn s c = true → jrnReady s c r = true → ¬ 16 + pad16 r.payload.length ≤ jrnRest s c → 16 ≤ jrnRest s c → jrnRest s c % 16 = 0 → Does (.journalAppend c src hclk) s ([.reg MEMCTL_ADDR_FAULT_CNT, evtPend 3, .reg HOSTIF_JRN_WR, .reg HOSTIF_JRN_SEQ, .reg HOSTIF_CTX_EVT_EVT, .mem, .poison, .ctxs, .jwide, .out]) fun t =>
      (ctxOf t c).jwait = rest ∧ getFk t HOSTIF_JRN_WR 0 c = (getFk s HOSTIF_JRN_WR 0 c + jrnNeed s c r.payload.length) % 2 ^ 32 ∧ getFk t HOSTIF_JRN_SEQ 0 c = (getFk s HOSTIF_JRN_SEQ 0 c + 2) % 2 ^ 32) ∧
  (∀ (src hclk : Nat) (r : JrnRec) (cs : List Nat) (rest : List (JrnRec × List Nat)) (s : State), isAwake s = true → takeFirst (fun e : JrnRec × List Nat => e.1.src == src) s.jwide = some ((r, cs), rest) → (cs.filter (jrnOn s)).all (fun c => jrnReady s c r) = true → Does (.journalAppend 16 src hclk) s ([.reg MEMCTL_ADDR_FAULT_CNT, evtPend 3, .reg HOSTIF_JRN_WR, .reg HOSTIF_JRN_SEQ, .reg HOSTIF_CTX_EVT_EVT, .mem, .poison, .ctxs, .jwide, .out]) fun t =>
      t.jwide = rest ∧ t = jrnAppends r (cs.filter (jrnOn s)) { s with jwide := rest }) ∧
  (∀ (src hclk : Nat) (r : JrnRec) (cs : List Nat) (rest : List (JrnRec × List Nat)) (s : State), isAwake s = true → takeFirst (fun e : JrnRec × List Nat => e.1.src == src) s.jwide = some ((r, cs), rest) → (cs.filter (jrnOn s)).all (fun c => jrnReady s c r) = false → Does (.journalAppend 16 src hclk) s ([.reg MEMCTL_ADDR_FAULT_CNT, evtPend 3, .reg HOSTIF_JRN_WR, .reg HOSTIF_JRN_SEQ, .reg HOSTIF_CTX_EVT_EVT, .mem, .poison, .ctxs, .jwide, .out]) fun t =>
      t.jwide = s.jwide ∧ t.mem = s.mem) ∧
  (∀ (c : Nat) (s : State), isAwake s = true → (getFk s HOSTIF_JRN_CFG_DRAIN 0 c = 0 ∨ getFk s HOSTIF_JRN_WR 0 c = getFk s HOSTIF_JRN_DR 0 c ∨ hubGranted s 537 (c + 16) 0 = false) → Does (.journalDrain c) s ([.reg MEMCTL_STAT_PARKED, .reg MEMCTL_ERR_INFO_CHAN, .reg MEMCTL_ERR_INFO_ROW, .reg MEMCTL_ERR_INFO_CLASS, .reg MEMCTL_CE_CNT, .reg MEMCTL_UE_CNT, .reg MEMCTL_ROW_FAIL_CNT, .reg MEMCTL_PAGE_LOST_CNT, .reg MEMCTL_ADDR_FAULT_CNT, .reg MEMCTL_PENDING_ROWS, .reg MEMCTL_PENDING_REMAP_USED, evtPend 3, .reg HOSTIF_JRN_DR, .hmem, .mcs, .sluices, .jwide, .out]) fun t =>
      t = s) ∧
  (∀ (c dr a n size base : Nat) (hd : List Byte) (s : State), isAwake s = true → dr = getFk s HOSTIF_JRN_DR 0 c → a = jrnBase s c + dr % jrnSize s c → size = 2 ^ getFk s HOSTIF_JRN_HOST_CFG_LOG2_SIZE 0 c → base = getFk s HOSTIF_JRN_HOST_LO 0 c + two32 * getFk s HOSTIF_JRN_HOST_HI 0 c → getFk s HOSTIF_JRN_CFG_DRAIN 0 c ≠ 0 → getFk s HOSTIF_JRN_WR 0 c ≠ dr → engRead 0 6 a 16 s = (.data hd, s) → n = 16 + pad16 (pay hd 2 2) → size < (dr + two32 - getFk s HOSTIF_JRN_HOST_TAIL 0 c) % two32 + n → hubGranted s 537 (c + 16) 0 = true → Does (.journalDrain c) s ([.reg MEMCTL_STAT_PARKED, .reg MEMCTL_ERR_INFO_CHAN, .reg MEMCTL_ERR_INFO_ROW, .reg MEMCTL_ERR_INFO_CLASS, .reg MEMCTL_CE_CNT, .reg MEMCTL_UE_CNT, .reg MEMCTL_ROW_FAIL_CNT, .reg MEMCTL_PAGE_LOST_CNT, .reg MEMCTL_ADDR_FAULT_CNT, .reg MEMCTL_PENDING_ROWS, .reg MEMCTL_PENDING_REMAP_USED, evtPend 3, .reg HOSTIF_JRN_DR, .hmem, .mcs, .sluices, .jwide, .out]) fun t =>
      t = s) ∧
  (∀ (c dr a n size base : Nat) (hd bs : List Byte) (s : State), isAwake s = true → dr = getFk s HOSTIF_JRN_DR 0 c → a = jrnBase s c + dr % jrnSize s c → size = 2 ^ getFk s HOSTIF_JRN_HOST_CFG_LOG2_SIZE 0 c → base = getFk s HOSTIF_JRN_HOST_LO 0 c + two32 * getFk s HOSTIF_JRN_HOST_HI 0 c → getFk s HOSTIF_JRN_CFG_DRAIN 0 c ≠ 0 → getFk s HOSTIF_JRN_WR 0 c ≠ dr → engRead 0 6 a 16 s = (.data hd, s) → n = 16 + pad16 (pay hd 2 2) → ¬ size < (dr + two32 - getFk s HOSTIF_JRN_HOST_TAIL 0 c) % two32 + n → engRead 0 6 a n s = (.data bs, s) → hubGranted s 537 (c + 16) 0 = true → Does (.journalDrain c) s ([.reg MEMCTL_STAT_PARKED, .reg MEMCTL_ERR_INFO_CHAN, .reg MEMCTL_ERR_INFO_ROW, .reg MEMCTL_ERR_INFO_CLASS, .reg MEMCTL_CE_CNT, .reg MEMCTL_UE_CNT, .reg MEMCTL_ROW_FAIL_CNT, .reg MEMCTL_PAGE_LOST_CNT, .reg MEMCTL_ADDR_FAULT_CNT, .reg MEMCTL_PENDING_ROWS, .reg MEMCTL_PENDING_REMAP_USED, evtPend 3, .reg HOSTIF_JRN_DR, .hmem, .mcs, .sluices, .jwide, .out]) fun t =>
      getFk t HOSTIF_JRN_DR 0 c = (dr + n) % 2 ^ 32 ∧ t.hmem = Store.putAll 0 base (bs.drop (size - dr % size)) (Store.putAll 0 (base + dr % size) (bs.take (size - dr % size)) s.hmem) ∧ t.mem = s.mem)

/-- ABORT, COPY, LIST_RUN and EXPORT: what each does and the status with which it completes.
Basis: R284, R288, R289, R290, R524, R525, R526, R527, R528, R667. The model's choices it rests
on: log entry 105. -/
def Obligations.HostCommandsDone : Prop :=
  (∀ (h k : Nat) (s : State), stopped s = false → cmdReady s h 0x02 = true → k = argOf (entryOf s h) 0 → hCtx k ≠ hCtx h → Does (.abort h) s ([.reg CQ_ACCEPTED, .reg CQ_COMPLETED, .reg CQ_SLOTS_USED, .reg CQ_CQ_TAIL, evtPend 12, .hmem, .window, .ctxs, .reports, .out]) fun t =>
      t.reports = s.reports ++ [{ handle := h, status := 1 }]) ∧
  (∀ (h k : Nat) (s : State), stopped s = false → cmdReady s h 0x02 = true → k = argOf (entryOf s h) 0 → hCtx k = hCtx h → handleLive s k = false → Does (.abort h) s ([.reg CQ_ACCEPTED, .reg CQ_COMPLETED, .reg CQ_SLOTS_USED, .reg CQ_CQ_TAIL, evtPend 12, .hmem, .window, .ctxs, .reports, .out]) fun t =>
      t.reports = s.reports ++ [{ handle := h, status := 4 }]) ∧
  (∀ (h k : Nat) (s : State), stopped s = false → cmdReady s h 0x02 = true → k = argOf (entryOf s h) 0 → hCtx k = hCtx h → handleLive s k = true → ((slotOf s (hCtx k) (hSlot k)).started && !(slotOf s (hCtx k) (hSlot k)).waitTurn) = true → Does (.abort h) s ([.reg CQ_ACCEPTED, .reg CQ_COMPLETED, .reg CQ_SLOTS_USED, .reg CQ_CQ_TAIL, evtPend 12, .hmem, .window, .ctxs, .reports, .out]) fun t =>
      t.reports = s.reports ++ [{ handle := h, status := 5 }]) ∧
  (∀ (h k : Nat) (s : State), stopped s = false → cmdReady s h 0x02 = true → k = argOf (entryOf s h) 0 → hCtx k = hCtx h → handleLive s k = true → ((slotOf s (hCtx k) (hSlot k)).started && !(slotOf s (hCtx k) (hSlot k)).waitTurn) = false → Does (.abort h) s ([.reg CQ_ACCEPTED, .reg CQ_COMPLETED, .reg CQ_SLOTS_USED, .reg CQ_CQ_TAIL, evtPend 12, .hmem, .window, .ctxs, .reports, .out]) fun t =>
      t.reports = s.reports ++ [{ handle := h, status := 0 }] ∧ handleLive t k = false ∧ t.window = s.window.filter (fun w => !(w.handle == k && !w.started))) ∧
  (∀ (h : Nat) (e hd data : List Byte) (s : State), isAwake s = true → cmdReady s h 0x20 = true → e = entryOf s h → bits (argOf e 2) 32 2 = 0 → data = (hd ++ zeros (argOf e 2 % two32)).take (argOf e 2 % two32) → firstMiss s 0 (argOf e 1) data.length = none → hubGranted s 537 (hCtx h) h = true → Does (.copy h hd) s ([.reg MEMCTL_STAT_PARKED, .reg MEMCTL_ERR_INFO_CHAN, .reg MEMCTL_ERR_INFO_ROW, .reg MEMCTL_ERR_INFO_CLASS, .reg MEMCTL_CE_CNT, .reg MEMCTL_UE_CNT, .reg MEMCTL_ROW_FAIL_CNT, .reg MEMCTL_PAGE_LOST_CNT, .reg MEMCTL_ADDR_FAULT_CNT, .reg MEMCTL_PENDING_ROWS, .reg MEMCTL_PENDING_REMAP_USED, evtPend 3, .mem, .poison, .hmem, .mcs, .sluices, .ctxs, .reports, .jwide, .out]) fun t =>
      t.mem = (memStore 0 (argOf e 1) data s).mem ∧ t.reports = s.reports ++ [{ handle := h, status := if bit (argOf e 2) 34 && crc32c data != argOf e 3 then 9 else 0, r0 := crc32c data }]) ∧
  (∀ (h : Nat) (e hd data : List Byte) (l : Lookup) (s : State), isAwake s = true → cmdReady s h 0x20 = true → e = entryOf s h → bits (argOf e 2) 32 2 = 0 → data = (hd ++ zeros (argOf e 2 % two32)).take (argOf e 2 % two32) → firstMiss s 0 (argOf e 1) data.length = some l → hubGranted s 537 (hCtx h) h = true → Does (.copy h hd) s ([.reg MEMCTL_STAT_PARKED, .reg MEMCTL_ERR_INFO_CHAN, .reg MEMCTL_ERR_INFO_ROW, .reg MEMCTL_ERR_INFO_CLASS, .reg MEMCTL_CE_CNT, .reg MEMCTL_UE_CNT, .reg MEMCTL_ROW_FAIL_CNT, .reg MEMCTL_PAGE_LOST_CNT, .reg MEMCTL_ADDR_FAULT_CNT, .reg MEMCTL_PENDING_ROWS, .reg MEMCTL_PENDING_REMAP_USED, evtPend 3, .mem, .poison, .hmem, .mcs, .sluices, .ctxs, .reports, .jwide, .out]) fun t =>
      t.mem = s.mem ∧ t.reports = s.reports ++ [{ handle := h, status := 0x13 }]) ∧
  (∀ (h : Nat) (e hd data : List Byte) (s : State), isAwake s = true → cmdReady s h 0x20 = true → e = entryOf s h → bits (argOf e 2) 32 2 = 1 → engRead 0 5 (argOf e 0) (argOf e 2 % two32) s = (.data data, s) → hubGranted s 537 (hCtx h) h = true → noWeak s = true → Does (.copy h hd) s ([.reg MEMCTL_STAT_PARKED, .reg MEMCTL_ERR_INFO_CHAN, .reg MEMCTL_ERR_INFO_ROW, .reg MEMCTL_ERR_INFO_CLASS, .reg MEMCTL_CE_CNT, .reg MEMCTL_UE_CNT, .reg MEMCTL_ROW_FAIL_CNT, .reg MEMCTL_PAGE_LOST_CNT, .reg MEMCTL_ADDR_FAULT_CNT, .reg MEMCTL_PENDING_ROWS, .reg MEMCTL_PENDING_REMAP_USED, evtPend 3, .mem, .poison, .hmem, .mcs, .sluices, .ctxs, .reports, .jwide, .out]) fun t =>
      t.hmem = Store.putAll 0 (argOf e 1) data s.hmem ∧ t.mem = s.mem ∧ t.reports = s.reports ++ [{ handle := h, status := if bit (argOf e 2) 34 && crc32c data != argOf e 3 then 9 else 0, r0 := crc32c data }]) ∧
  (∀ (h : Nat) (e hd data : List Byte) (s : State), isAwake s = true → cmdReady s h 0x20 = true → e = entryOf s h → bits (argOf e 2) 32 2 = 2 → engRead 0 5 (argOf e 0) (argOf e 2 % two32) s = (.data data, s) → firstMiss s 0 (argOf e 1) data.length = none → hubGranted s 537 (hCtx h) h = true → noWeak s = true → Does (.copy h hd) s ([.reg MEMCTL_STAT_PARKED, .reg MEMCTL_ERR_INFO_CHAN, .reg MEMCTL_ERR_INFO_ROW, .reg MEMCTL_ERR_INFO_CLASS, .reg MEMCTL_CE_CNT, .reg MEMCTL_UE_CNT, .reg MEMCTL_ROW_FAIL_CNT, .reg MEMCTL_PAGE_LOST_CNT, .reg MEMCTL_ADDR_FAULT_CNT, .reg MEMCTL_PENDING_ROWS, .reg MEMCTL_PENDING_REMAP_USED, evtPend 3, .mem, .poison, .hmem, .mcs, .sluices, .ctxs, .reports, .jwide, .out]) fun t =>
      t.mem = (memStore 0 (argOf e 1) data s).mem ∧ t.reports = s.reports ++ [{ handle := h, status := if bit (argOf e 2) 34 && crc32c data != argOf e 3 then 9 else 0, r0 := crc32c data }]) ∧
  (∀ (h : Nat) (e hd data : List Byte) (l : Lookup) (s : State), isAwake s = true → cmdReady s h 0x20 = true → e = entryOf s h → bits (argOf e 2) 32 2 = 2 → engRead 0 5 (argOf e 0) (argOf e 2 % two32) s = (.data data, s) → firstMiss s 0 (argOf e 1) data.length = some l → hubGranted s 537 (hCtx h) h = true → noWeak s = true → Does (.copy h hd) s ([.reg MEMCTL_STAT_PARKED, .reg MEMCTL_ERR_INFO_CHAN, .reg MEMCTL_ERR_INFO_ROW, .reg MEMCTL_ERR_INFO_CLASS, .reg MEMCTL_CE_CNT, .reg MEMCTL_UE_CNT, .reg MEMCTL_ROW_FAIL_CNT, .reg MEMCTL_PAGE_LOST_CNT, .reg MEMCTL_ADDR_FAULT_CNT, .reg MEMCTL_PENDING_ROWS, .reg MEMCTL_PENDING_REMAP_USED, evtPend 3, .mem, .poison, .hmem, .mcs, .sluices, .ctxs, .reports, .jwide, .out]) fun t =>
      t.mem = s.mem ∧ t.reports = s.reports ++ [{ handle := h, status := 0x13 }]) ∧
  (∀ (h : Nat) (bs : List Byte) (s : State), isAwake s = true → cmdReady s h 0x12 = true → engRead 0 5 (argOf (entryOf s h) 0) 2048 s = (.data bs, s) → noWeak s = true → Does (.listRun h) s ([.reg MEMCTL_STAT_PARKED, .reg MEMCTL_ERR_INFO_CHAN, .reg MEMCTL_ERR_INFO_ROW, .reg MEMCTL_ERR_INFO_CLASS, .reg MEMCTL_CE_CNT, .reg MEMCTL_UE_CNT, .reg MEMCTL_ROW_FAIL_CNT, .reg MEMCTL_PAGE_LOST_CNT, .reg MEMCTL_ADDR_FAULT_CNT, .reg MEMCTL_PENDING_ROWS, .reg MEMCTL_PENDING_REMAP_USED, evtPend 3, .mcs, .clusters, .ctxs, .reports, .jwide, .out]) fun t =>
      (∀ k < 256, (clusterOf t k).lists = (clusterOf s k).lists ++ (if leVal ((bs.drop (8 * k)).take 8) = 0 then [] else [{ id := (clusterOf s k).nextId, ctx := hCtx h, handle := h, pos := { addr := leVal ((bs.drop (8 * k)).take 8) } }])) ∧ t.reports = s.reports ++ (if listsLeft t h then [] else [{ handle := h, status := 0 }])) ∧
  (∀ (h : Nat) (s : State), isAwake s = true → cmdReady s h 0x21 = true → stepIsOpen s (hCtx h) = true → hubGranted s 537 (hCtx h) h = true → Does (.exportCmd h) s ([.reg MEMCTL_STAT_PARKED, .reg MEMCTL_ERR_INFO_CHAN, .reg MEMCTL_ERR_INFO_ROW, .reg MEMCTL_ERR_INFO_CLASS, .reg MEMCTL_CE_CNT, .reg MEMCTL_UE_CNT, .reg MEMCTL_ROW_FAIL_CNT, .reg MEMCTL_PAGE_LOST_CNT, .reg MEMCTL_ADDR_FAULT_CNT, .reg MEMCTL_PENDING_ROWS, .reg MEMCTL_PENDING_REMAP_USED, evtPend 3, .reg LINK_STAT_DETOUR, evtPend 7, .reg COLL_ORIG, .reg CULVERT_SUSPECT_CNT, .reg CULVERT_SUSPECT, .reg CULVERT_SUSPECT_INFO_BUF, .reg CULVERT_SUSPECT_INFO_OUTCOME, .reg CULVERT_SUSPECT_INFO_TILE, evtPend 9, .hmem, .mcs, .sluices, .cul, .ctxs, .reports, .jwide, .txStreams, .sendq, .out]) fun t =>
      t.reports = s.reports ++ [{ handle := h, status := 8 }]) ∧
  (∀ (h : Nat) (bs : List Byte) (s : State), isAwake s = true → cmdReady s h 0x21 = true → stepIsOpen s (hCtx h) = false → exportBlks (argOf (entryOf s h) 2 % 8) ((ctxOf s (hCtx h)).tabs.foldr insGbi []) s = (.ok bs, s) → hubGranted s 537 (hCtx h) h = true → noWeak s = true → Does (.exportCmd h) s ([.reg MEMCTL_STAT_PARKED, .reg MEMCTL_ERR_INFO_CHAN, .reg MEMCTL_ERR_INFO_ROW, .reg MEMCTL_ERR_INFO_CLASS, .reg MEMCTL_CE_CNT, .reg MEMCTL_UE_CNT, .reg MEMCTL_ROW_FAIL_CNT, .reg MEMCTL_PAGE_LOST_CNT, .reg MEMCTL_ADDR_FAULT_CNT, .reg MEMCTL_PENDING_ROWS, .reg MEMCTL_PENDING_REMAP_USED, evtPend 3, .reg LINK_STAT_DETOUR, evtPend 7, .reg COLL_ORIG, .reg CULVERT_SUSPECT_CNT, .reg CULVERT_SUSPECT, .reg CULVERT_SUSPECT_INFO_BUF, .reg CULVERT_SUSPECT_INFO_OUTCOME, .reg CULVERT_SUSPECT_INFO_TILE, evtPend 9, .hmem, .mcs, .sluices, .cul, .ctxs, .reports, .jwide, .txStreams, .sendq, .out]) fun t =>
      t.hmem = Store.putAll 0 (argOf (entryOf s h) 0) (bs.take (argOf (entryOf s h) 1)) s.hmem ∧ t.reports = s.reports ++ [{ handle := h, status := 0, r0 := min bs.length (argOf (entryOf s h) 1) }] ∧ t.mem = s.mem)

/-- A step opens, waits for its turn or for the replayed journal, or is refused; a waiting
opening is tried again; a step closes once its conditions hold. The rows: stepOpen,
stepOpenDeferred, replayRead, stepClose. Basis: R48, R49, R50, R51, R197, R202, R203, R440,
R497, R502, R525, R527. -/
def Obligations.StepsOpenAndClose : Prop :=
  (∀ (h : Nat) (s : State), isAwake s = true → stepWaiting s h = true → Does (.stepOpen h) s ([.reg TUNIT_STAT_BUSY, .reg TUNIT_STAT_HALTED, .reg TUNIT_STAT_CQ_LEVEL, .reg TUNIT_STAT_WQ_LEVEL, .reg CLUSTER_GATHER_REJ, .reg CLUSTER_REPLAY_DIV_CNT, .reg CLUSTER_BT_ERR_CODE, .reg CLUSTER_BT_ERR_RECORD, evtPend 1, .reg ROOTSEQ_STAT_BUSY, .reg ROOTSEQ_STAT_PHASE, .reg ROOTSEQ_STAT_SIDE, .reg ROOTSEQ_ERR_INFO_REASON, .reg ROOTSEQ_ERR_INFO_SIDE, .reg ROOTSEQ_ERR_INFO_RES_LOG, .reg ROOTSEQ_ROOT_PUB, .reg ROOTSEQ_ROOT_REJ, .reg ROOTSEQ_DAMPED_PUB, .reg ROOTSEQ_REPLAY_DIV, .reg ROOTSEQ_CUR_GBI, .reg ROOTSEQ_LAST_REJ, evtPend 2, .reg MEMCTL_STAT_PARKED, .reg MEMCTL_ERR_INFO_CHAN, .reg MEMCTL_ERR_INFO_ROW, .reg MEMCTL_ERR_INFO_CLASS, .reg MEMCTL_CE_CNT, .reg MEMCTL_UE_CNT, .reg MEMCTL_ROW_FAIL_CNT, .reg MEMCTL_PAGE_LOST_CNT, .reg MEMCTL_ADDR_FAULT_CNT, .reg MEMCTL_PENDING_ROWS, .reg MEMCTL_PENDING_REMAP_USED, evtPend 3, .reg SYNC_SIGNALS, .reg SYNC_WAITS_DONE, .reg SYNC_BAR_RELEASE, .reg SYNC_STALE_SIG_CNT, .reg SYNC_SAT_CNT, evtPend 6, .reg LINK_STAT_DETOUR, evtPend 7, .reg COLL_ERR_INFO_CODE, .reg COLL_ERR_INFO_CONTEXT, .reg COLL_XFER_DONE, .reg COLL_STALE_REJ, .reg COLL_CARRY_DROP, .reg COLL_DUP_TURN, .reg COLL_ORIG, .reg COLL_DEGRADE_ACTIVE, .reg COLL_DEGRADE_LOST_POS, .reg COLL_DEGRADE_PREV_ACTIVE, .reg COLL_DEGRADE_PREV_POS, .reg COLL_DEGRADE_NEXT_ACTIVE, .reg COLL_DEGRADE_NEXT_POS, .reg COLL_DEGRADE_STANDIN, .reg COLL_DEGRADE_SERVING, evtPend 8, .reg CULVERT_AUDIT_ABORT, .reg CULVERT_SUSPECT_CNT, .reg CULVERT_SUSPECT, .reg CULVERT_SUSPECT_INFO_BUF, .reg CULVERT_SUSPECT_INFO_OUTCOME, .reg CULVERT_SUSPECT_INFO_TILE, .reg CULVERT_ERR_INFO_CODE, .reg CULVERT_ERR_INFO_RECORD, evtPend 9, .reg HOSTIF_RPL_RD, .reg HOSTIF_RPL_STEP, .reg HOSTIF_CTX_EVT_EVT, .mem, .poison, .mcs, .objs, .releases, .clusters, .units, .seqs, .cul, .degSet, .degClear, .ctxs, .reports, .jwide, .txStreams, .sendq, .out]) fun t =>
      t = s) ∧
  (∀ (h : Nat) (s : State), isAwake s = true → cmdReady s h 0x11 = true → stepWaiting s h = false → mayOpen s (hCtx h) = false → Does (.stepOpen h) s ([.reg TUNIT_STAT_BUSY, .reg TUNIT_STAT_HALTED, .reg TUNIT_STAT_CQ_LEVEL, .reg TUNIT_STAT_WQ_LEVEL, .reg CLUSTER_GATHER_REJ, .reg CLUSTER_REPLAY_DIV_CNT, .reg CLUSTER_BT_ERR_CODE, .reg CLUSTER_BT_ERR_RECORD, evtPend 1, .reg ROOTSEQ_STAT_BUSY, .reg ROOTSEQ_STAT_PHASE, .reg ROOTSEQ_STAT_SIDE, .reg ROOTSEQ_ERR_INFO_REASON, .reg ROOTSEQ_ERR_INFO_SIDE, .reg ROOTSEQ_ERR_INFO_RES_LOG, .reg ROOTSEQ_ROOT_PUB, .reg ROOTSEQ_ROOT_REJ, .reg ROOTSEQ_DAMPED_PUB, .reg ROOTSEQ_REPLAY_DIV, .reg ROOTSEQ_CUR_GBI, .reg ROOTSEQ_LAST_REJ, evtPend 2, .reg MEMCTL_STAT_PARKED, .reg MEMCTL_ERR_INFO_CHAN, .reg MEMCTL_ERR_INFO_ROW, .reg MEMCTL_ERR_INFO_CLASS, .reg MEMCTL_CE_CNT, .reg MEMCTL_UE_CNT, .reg MEMCTL_ROW_FAIL_CNT, .reg MEMCTL_PAGE_LOST_CNT, .reg MEMCTL_ADDR_FAULT_CNT, .reg MEMCTL_PENDING_ROWS, .reg MEMCTL_PENDING_REMAP_USED, evtPend 3, .reg SYNC_SIGNALS, .reg SYNC_WAITS_DONE, .reg SYNC_BAR_RELEASE, .reg SYNC_STALE_SIG_CNT, .reg SYNC_SAT_CNT, evtPend 6, .reg LINK_STAT_DETOUR, evtPend 7, .reg COLL_ERR_INFO_CODE, .reg COLL_ERR_INFO_CONTEXT, .reg COLL_XFER_DONE, .reg COLL_STALE_REJ, .reg COLL_CARRY_DROP, .reg COLL_DUP_TURN, .reg COLL_ORIG, .reg COLL_DEGRADE_ACTIVE, .reg COLL_DEGRADE_LOST_POS, .reg COLL_DEGRADE_PREV_ACTIVE, .reg COLL_DEGRADE_PREV_POS, .reg COLL_DEGRADE_NEXT_ACTIVE, .reg COLL_DEGRADE_NEXT_POS, .reg COLL_DEGRADE_STANDIN, .reg COLL_DEGRADE_SERVING, evtPend 8, .reg CULVERT_AUDIT_ABORT, .reg CULVERT_SUSPECT_CNT, .reg CULVERT_SUSPECT, .reg CULVERT_SUSPECT_INFO_BUF, .reg CULVERT_SUSPECT_INFO_OUTCOME, .reg CULVERT_SUSPECT_INFO_TILE, .reg CULVERT_ERR_INFO_CODE, .reg CULVERT_ERR_INFO_RECORD, evtPend 9, .reg HOSTIF_RPL_RD, .reg HOSTIF_RPL_STEP, .reg HOSTIF_CTX_EVT_EVT, .mem, .poison, .mcs, .objs, .releases, .clusters, .units, .seqs, .cul, .degSet, .degClear, .ctxs, .reports, .jwide, .txStreams, .sendq, .out]) fun t =>
      (slotOf t (hCtx h) (hSlot h)).waitTurn = true ∧ (slotOf t (hCtx h) (hSlot h)).running = false ∧ t.reports = s.reports ∧ ∀ d, openSteps (ctxOf t d) = openSteps (ctxOf s d)) ∧
  (∀ (h : Nat) (e raw : List Byte) (ts : Tables) (ok : Bool) (z w : State) (s : State), isAwake s = true → cmdReady s h 0x11 = true → stepWaiting s h = false → mayOpen s (hCtx h) = true → stepWraps s h = false → e = entryOf s h → z = modSlot (hCtx h) (hSlot h) (fun x => { x with running := true }) s → Judges h e raw ts ok z w → (stepRecBad raw || stepNumBad s (hCtx h) raw) = true → Does (.stepOpen h) s ([.reg TUNIT_STAT_BUSY, .reg TUNIT_STAT_HALTED, .reg TUNIT_STAT_CQ_LEVEL, .reg TUNIT_STAT_WQ_LEVEL, .reg CLUSTER_GATHER_REJ, .reg CLUSTER_REPLAY_DIV_CNT, .reg CLUSTER_BT_ERR_CODE, .reg CLUSTER_BT_ERR_RECORD, evtPend 1, .reg ROOTSEQ_STAT_BUSY, .reg ROOTSEQ_STAT_PHASE, .reg ROOTSEQ_STAT_SIDE, .reg ROOTSEQ_ERR_INFO_REASON, .reg ROOTSEQ_ERR_INFO_SIDE, .reg ROOTSEQ_ERR_INFO_RES_LOG, .reg ROOTSEQ_ROOT_PUB, .reg ROOTSEQ_ROOT_REJ, .reg ROOTSEQ_DAMPED_PUB, .reg ROOTSEQ_REPLAY_DIV, .reg ROOTSEQ_CUR_GBI, .reg ROOTSEQ_LAST_REJ, evtPend 2, .reg MEMCTL_STAT_PARKED, .reg MEMCTL_ERR_INFO_CHAN, .reg MEMCTL_ERR_INFO_ROW, .reg MEMCTL_ERR_INFO_CLASS, .reg MEMCTL_CE_CNT, .reg MEMCTL_UE_CNT, .reg MEMCTL_ROW_FAIL_CNT, .reg MEMCTL_PAGE_LOST_CNT, .reg MEMCTL_ADDR_FAULT_CNT, .reg MEMCTL_PENDING_ROWS, .reg MEMCTL_PENDING_REMAP_USED, evtPend 3, .reg SYNC_SIGNALS, .reg SYNC_WAITS_DONE, .reg SYNC_BAR_RELEASE, .reg SYNC_STALE_SIG_CNT, .reg SYNC_SAT_CNT, evtPend 6, .reg LINK_STAT_DETOUR, evtPend 7, .reg COLL_ERR_INFO_CODE, .reg COLL_ERR_INFO_CONTEXT, .reg COLL_XFER_DONE, .reg COLL_STALE_REJ, .reg COLL_CARRY_DROP, .reg COLL_DUP_TURN, .reg COLL_ORIG, .reg COLL_DEGRADE_ACTIVE, .reg COLL_DEGRADE_LOST_POS, .reg COLL_DEGRADE_PREV_ACTIVE, .reg COLL_DEGRADE_PREV_POS, .reg COLL_DEGRADE_NEXT_ACTIVE, .reg COLL_DEGRADE_NEXT_POS, .reg COLL_DEGRADE_STANDIN, .reg COLL_DEGRADE_SERVING, evtPend 8, .reg CULVERT_AUDIT_ABORT, .reg CULVERT_SUSPECT_CNT, .reg CULVERT_SUSPECT, .reg CULVERT_SUSPECT_INFO_BUF, .reg CULVERT_SUSPECT_INFO_OUTCOME, .reg CULVERT_SUSPECT_INFO_TILE, .reg CULVERT_ERR_INFO_CODE, .reg CULVERT_ERR_INFO_RECORD, evtPend 9, .reg HOSTIF_RPL_RD, .reg HOSTIF_RPL_STEP, .reg HOSTIF_CTX_EVT_EVT, .mem, .poison, .mcs, .objs, .releases, .clusters, .units, .seqs, .cul, .degSet, .degClear, .ctxs, .reports, .jwide, .txStreams, .sendq, .out]) fun t =>
      t.reports = s.reports ++ [{ handle := h, status := 6 }] ∧ ∀ d, (ctxOf t d).last = (ctxOf s d).last ∧ openSteps (ctxOf t d) = openSteps (ctxOf s d)) ∧
  (∀ (h : Nat) (e raw : List Byte) (ts : Tables) (ok : Bool) (z w : State) (s : State), isAwake s = true → cmdReady s h 0x11 = true → stepWaiting s h = false → mayOpen s (hCtx h) = true → stepWraps s h = false → e = entryOf s h → z = modSlot (hCtx h) (hSlot h) (fun x => { x with running := true }) s → Judges h e raw ts ok z w → (stepRecBad raw || stepNumBad s (hCtx h) raw) = false → ok = false → Does (.stepOpen h) s ([.reg TUNIT_STAT_BUSY, .reg TUNIT_STAT_HALTED, .reg TUNIT_STAT_CQ_LEVEL, .reg TUNIT_STAT_WQ_LEVEL, .reg CLUSTER_GATHER_REJ, .reg CLUSTER_REPLAY_DIV_CNT, .reg CLUSTER_BT_ERR_CODE, .reg CLUSTER_BT_ERR_RECORD, evtPend 1, .reg ROOTSEQ_STAT_BUSY, .reg ROOTSEQ_STAT_PHASE, .reg ROOTSEQ_STAT_SIDE, .reg ROOTSEQ_ERR_INFO_REASON, .reg ROOTSEQ_ERR_INFO_SIDE, .reg ROOTSEQ_ERR_INFO_RES_LOG, .reg ROOTSEQ_ROOT_PUB, .reg ROOTSEQ_ROOT_REJ, .reg ROOTSEQ_DAMPED_PUB, .reg ROOTSEQ_REPLAY_DIV, .reg ROOTSEQ_CUR_GBI, .reg ROOTSEQ_LAST_REJ, evtPend 2, .reg MEMCTL_STAT_PARKED, .reg MEMCTL_ERR_INFO_CHAN, .reg MEMCTL_ERR_INFO_ROW, .reg MEMCTL_ERR_INFO_CLASS, .reg MEMCTL_CE_CNT, .reg MEMCTL_UE_CNT, .reg MEMCTL_ROW_FAIL_CNT, .reg MEMCTL_PAGE_LOST_CNT, .reg MEMCTL_ADDR_FAULT_CNT, .reg MEMCTL_PENDING_ROWS, .reg MEMCTL_PENDING_REMAP_USED, evtPend 3, .reg SYNC_SIGNALS, .reg SYNC_WAITS_DONE, .reg SYNC_BAR_RELEASE, .reg SYNC_STALE_SIG_CNT, .reg SYNC_SAT_CNT, evtPend 6, .reg LINK_STAT_DETOUR, evtPend 7, .reg COLL_ERR_INFO_CODE, .reg COLL_ERR_INFO_CONTEXT, .reg COLL_XFER_DONE, .reg COLL_STALE_REJ, .reg COLL_CARRY_DROP, .reg COLL_DUP_TURN, .reg COLL_ORIG, .reg COLL_DEGRADE_ACTIVE, .reg COLL_DEGRADE_LOST_POS, .reg COLL_DEGRADE_PREV_ACTIVE, .reg COLL_DEGRADE_PREV_POS, .reg COLL_DEGRADE_NEXT_ACTIVE, .reg COLL_DEGRADE_NEXT_POS, .reg COLL_DEGRADE_STANDIN, .reg COLL_DEGRADE_SERVING, evtPend 8, .reg CULVERT_AUDIT_ABORT, .reg CULVERT_SUSPECT_CNT, .reg CULVERT_SUSPECT, .reg CULVERT_SUSPECT_INFO_BUF, .reg CULVERT_SUSPECT_INFO_OUTCOME, .reg CULVERT_SUSPECT_INFO_TILE, .reg CULVERT_ERR_INFO_CODE, .reg CULVERT_ERR_INFO_RECORD, evtPend 9, .reg HOSTIF_RPL_RD, .reg HOSTIF_RPL_STEP, .reg HOSTIF_CTX_EVT_EVT, .mem, .poison, .mcs, .objs, .releases, .clusters, .units, .seqs, .cul, .degSet, .degClear, .ctxs, .reports, .jwide, .txStreams, .sendq, .out]) fun t =>
      t.reports = s.reports ++ [{ handle := h, status := 7 }] ∧ ∀ d, (ctxOf t d).last = (ctxOf s d).last ∧ openSteps (ctxOf t d) = openSteps (ctxOf s d)) ∧
  (∀ (h : Nat) (e : List Byte) (o : Opening) (z v : State) (s : State), isAwake s = true → cmdReady s h 0x11 = true → stepWaiting s h = false → mayOpen s (hCtx h) = true → stepWraps s h = false → e = entryOf s h → z = modSlot (hCtx h) (hSlot h) (fun x => { x with running := true }) s → Opens h e o z v → Does (.stepOpen h) s ([.reg TUNIT_STAT_BUSY, .reg TUNIT_STAT_HALTED, .reg TUNIT_STAT_CQ_LEVEL, .reg TUNIT_STAT_WQ_LEVEL, .reg CLUSTER_GATHER_REJ, .reg CLUSTER_REPLAY_DIV_CNT, .reg CLUSTER_BT_ERR_CODE, .reg CLUSTER_BT_ERR_RECORD, evtPend 1, .reg ROOTSEQ_STAT_BUSY, .reg ROOTSEQ_STAT_PHASE, .reg ROOTSEQ_STAT_SIDE, .reg ROOTSEQ_ERR_INFO_REASON, .reg ROOTSEQ_ERR_INFO_SIDE, .reg ROOTSEQ_ERR_INFO_RES_LOG, .reg ROOTSEQ_ROOT_PUB, .reg ROOTSEQ_ROOT_REJ, .reg ROOTSEQ_DAMPED_PUB, .reg ROOTSEQ_REPLAY_DIV, .reg ROOTSEQ_CUR_GBI, .reg ROOTSEQ_LAST_REJ, evtPend 2, .reg MEMCTL_STAT_PARKED, .reg MEMCTL_ERR_INFO_CHAN, .reg MEMCTL_ERR_INFO_ROW, .reg MEMCTL_ERR_INFO_CLASS, .reg MEMCTL_CE_CNT, .reg MEMCTL_UE_CNT, .reg MEMCTL_ROW_FAIL_CNT, .reg MEMCTL_PAGE_LOST_CNT, .reg MEMCTL_ADDR_FAULT_CNT, .reg MEMCTL_PENDING_ROWS, .reg MEMCTL_PENDING_REMAP_USED, evtPend 3, .reg SYNC_SIGNALS, .reg SYNC_WAITS_DONE, .reg SYNC_BAR_RELEASE, .reg SYNC_STALE_SIG_CNT, .reg SYNC_SAT_CNT, evtPend 6, .reg LINK_STAT_DETOUR, evtPend 7, .reg COLL_ERR_INFO_CODE, .reg COLL_ERR_INFO_CONTEXT, .reg COLL_XFER_DONE, .reg COLL_STALE_REJ, .reg COLL_CARRY_DROP, .reg COLL_DUP_TURN, .reg COLL_ORIG, .reg COLL_DEGRADE_ACTIVE, .reg COLL_DEGRADE_LOST_POS, .reg COLL_DEGRADE_PREV_ACTIVE, .reg COLL_DEGRADE_PREV_POS, .reg COLL_DEGRADE_NEXT_ACTIVE, .reg COLL_DEGRADE_NEXT_POS, .reg COLL_DEGRADE_STANDIN, .reg COLL_DEGRADE_SERVING, evtPend 8, .reg CULVERT_AUDIT_ABORT, .reg CULVERT_SUSPECT_CNT, .reg CULVERT_SUSPECT, .reg CULVERT_SUSPECT_INFO_BUF, .reg CULVERT_SUSPECT_INFO_OUTCOME, .reg CULVERT_SUSPECT_INFO_TILE, .reg CULVERT_ERR_INFO_CODE, .reg CULVERT_ERR_INFO_RECORD, evtPend 9, .reg HOSTIF_RPL_RD, .reg HOSTIF_RPL_STEP, .reg HOSTIF_CTX_EVT_EVT, .mem, .poison, .mcs, .objs, .releases, .clusters, .units, .seqs, .cul, .degSet, .degClear, .ctxs, .reports, .jwide, .txStreams, .sendq, .out]) fun t =>
      (ctxOf t (hCtx h)).last = some (pay o.raw 0 4) ∧ (ctxOf t (hCtx h)).first = some ((ctxOf s (hCtx h)).first.getD (pay o.raw 0 4)) ∧ (ctxOf t (hCtx h)).tabs = latchBlocks o.tables ∧ openSteps (ctxOf t (hCtx h)) = openSteps (ctxOf s (hCtx h)) ++ [(pay o.raw 0 4, h)] ∧ (∀ d, d ≠ hCtx h → (ctxOf t d).last = (ctxOf s d).last ∧ openSteps (ctxOf t d) = openSteps (ctxOf s d)) ∧ (∀ k < 256, (clusterOf t k).lists = (clusterOf s k).lists ++ (if leVal ((o.dir.drop (8 * k)).take 8) = 0 then [] else [{ id := (clusterOf s k).nextId, ctx := hCtx h, handle := h, pos := { addr := leVal ((o.dir.drop (8 * k)).take 8) } }]))) ∧
  (∀ (h : Nat) (e raw : List Byte) (ts : Tables) (z w v : State) (s : State), isAwake s = true → cmdReady s h 0x11 = true → stepWaiting s h = false → mayOpen s (hCtx h) = true → stepWraps s h = false → e = entryOf s h → z = modSlot (hCtx h) (hSlot h) (fun x => { x with running := true }) s → Judges h e raw ts true z w → (stepRecBad raw || stepNumBad w (hCtx h) raw) = false → (ctxOf w (hCtx h)).seed.isSome = true → replayOn w (hCtx h) = true → replayFor (hCtx h) (pay raw 0 4) w = (.missing, v) → Does (.stepOpen h) s ([.reg TUNIT_STAT_BUSY, .reg TUNIT_STAT_HALTED, .reg TUNIT_STAT_CQ_LEVEL, .reg TUNIT_STAT_WQ_LEVEL, .reg CLUSTER_GATHER_REJ, .reg CLUSTER_REPLAY_DIV_CNT, .reg CLUSTER_BT_ERR_CODE, .reg CLUSTER_BT_ERR_RECORD, evtPend 1, .reg ROOTSEQ_STAT_BUSY, .reg ROOTSEQ_STAT_PHASE, .reg ROOTSEQ_STAT_SIDE, .reg ROOTSEQ_ERR_INFO_REASON, .reg ROOTSEQ_ERR_INFO_SIDE, .reg ROOTSEQ_ERR_INFO_RES_LOG, .reg ROOTSEQ_ROOT_PUB, .reg ROOTSEQ_ROOT_REJ, .reg ROOTSEQ_DAMPED_PUB, .reg ROOTSEQ_REPLAY_DIV, .reg ROOTSEQ_CUR_GBI, .reg ROOTSEQ_LAST_REJ, evtPend 2, .reg MEMCTL_STAT_PARKED, .reg MEMCTL_ERR_INFO_CHAN, .reg MEMCTL_ERR_INFO_ROW, .reg MEMCTL_ERR_INFO_CLASS, .reg MEMCTL_CE_CNT, .reg MEMCTL_UE_CNT, .reg MEMCTL_ROW_FAIL_CNT, .reg MEMCTL_PAGE_LOST_CNT, .reg MEMCTL_ADDR_FAULT_CNT, .reg MEMCTL_PENDING_ROWS, .reg MEMCTL_PENDING_REMAP_USED, evtPend 3, .reg SYNC_SIGNALS, .reg SYNC_WAITS_DONE, .reg SYNC_BAR_RELEASE, .reg SYNC_STALE_SIG_CNT, .reg SYNC_SAT_CNT, evtPend 6, .reg LINK_STAT_DETOUR, evtPend 7, .reg COLL_ERR_INFO_CODE, .reg COLL_ERR_INFO_CONTEXT, .reg COLL_XFER_DONE, .reg COLL_STALE_REJ, .reg COLL_CARRY_DROP, .reg COLL_DUP_TURN, .reg COLL_ORIG, .reg COLL_DEGRADE_ACTIVE, .reg COLL_DEGRADE_LOST_POS, .reg COLL_DEGRADE_PREV_ACTIVE, .reg COLL_DEGRADE_PREV_POS, .reg COLL_DEGRADE_NEXT_ACTIVE, .reg COLL_DEGRADE_NEXT_POS, .reg COLL_DEGRADE_STANDIN, .reg COLL_DEGRADE_SERVING, evtPend 8, .reg CULVERT_AUDIT_ABORT, .reg CULVERT_SUSPECT_CNT, .reg CULVERT_SUSPECT, .reg CULVERT_SUSPECT_INFO_BUF, .reg CULVERT_SUSPECT_INFO_OUTCOME, .reg CULVERT_SUSPECT_INFO_TILE, .reg CULVERT_ERR_INFO_CODE, .reg CULVERT_ERR_INFO_RECORD, evtPend 9, .reg HOSTIF_RPL_RD, .reg HOSTIF_RPL_STEP, .reg HOSTIF_CTX_EVT_EVT, .mem, .poison, .mcs, .objs, .releases, .clusters, .units, .seqs, .cul, .degSet, .degClear, .ctxs, .reports, .jwide, .txStreams, .sendq, .out]) fun t =>
      (slotOf t (hCtx h) (hSlot h)).waitTurn = true ∧ (slotOf t (hCtx h) (hSlot h)).running = false ∧ (getFk t HOSTIF_CTX_EVT_EVT 0 (hCtx h)).testBit ceReplayWait = true ∧ (ctxOf t (hCtx h)).last = (ctxOf s (hCtx h)).last ∧ openSteps (ctxOf t (hCtx h)) = openSteps (ctxOf s (hCtx h))) ∧
  (∀ (h : Nat) (s : State), isAwake s = true → (stepWaiting s h = false ∨ mayOpen s (hCtx h) = false) → Does (.stepOpenDeferred h) s ([.reg TUNIT_STAT_BUSY, .reg TUNIT_STAT_HALTED, .reg TUNIT_STAT_CQ_LEVEL, .reg TUNIT_STAT_WQ_LEVEL, .reg CLUSTER_GATHER_REJ, .reg CLUSTER_REPLAY_DIV_CNT, .reg CLUSTER_BT_ERR_CODE, .reg CLUSTER_BT_ERR_RECORD, evtPend 1, .reg ROOTSEQ_STAT_BUSY, .reg ROOTSEQ_STAT_PHASE, .reg ROOTSEQ_STAT_SIDE, .reg ROOTSEQ_ERR_INFO_REASON, .reg ROOTSEQ_ERR_INFO_SIDE, .reg ROOTSEQ_ERR_INFO_RES_LOG, .reg ROOTSEQ_ROOT_PUB, .reg ROOTSEQ_ROOT_REJ, .reg ROOTSEQ_DAMPED_PUB, .reg ROOTSEQ_REPLAY_DIV, .reg ROOTSEQ_CUR_GBI, .reg ROOTSEQ_LAST_REJ, evtPend 2, .reg MEMCTL_STAT_PARKED, .reg MEMCTL_ERR_INFO_CHAN, .reg MEMCTL_ERR_INFO_ROW, .reg MEMCTL_ERR_INFO_CLASS, .reg MEMCTL_CE_CNT, .reg MEMCTL_UE_CNT, .reg MEMCTL_ROW_FAIL_CNT, .reg MEMCTL_PAGE_LOST_CNT, .reg MEMCTL_ADDR_FAULT_CNT, .reg MEMCTL_PENDING_ROWS, .reg MEMCTL_PENDING_REMAP_USED, evtPend 3, .reg SYNC_SIGNALS, .reg SYNC_WAITS_DONE, .reg SYNC_BAR_RELEASE, .reg SYNC_STALE_SIG_CNT, .reg SYNC_SAT_CNT, evtPend 6, .reg LINK_STAT_DETOUR, evtPend 7, .reg COLL_ERR_INFO_CODE, .reg COLL_ERR_INFO_CONTEXT, .reg COLL_XFER_DONE, .reg COLL_STALE_REJ, .reg COLL_CARRY_DROP, .reg COLL_DUP_TURN, .reg COLL_ORIG, .reg COLL_DEGRADE_ACTIVE, .reg COLL_DEGRADE_LOST_POS, .reg COLL_DEGRADE_PREV_ACTIVE, .reg COLL_DEGRADE_PREV_POS, .reg COLL_DEGRADE_NEXT_ACTIVE, .reg COLL_DEGRADE_NEXT_POS, .reg COLL_DEGRADE_STANDIN, .reg COLL_DEGRADE_SERVING, evtPend 8, .reg CULVERT_AUDIT_ABORT, .reg CULVERT_SUSPECT_CNT, .reg CULVERT_SUSPECT, .reg CULVERT_SUSPECT_INFO_BUF, .reg CULVERT_SUSPECT_INFO_OUTCOME, .reg CULVERT_SUSPECT_INFO_TILE, .reg CULVERT_ERR_INFO_CODE, .reg CULVERT_ERR_INFO_RECORD, evtPend 9, .reg HOSTIF_RPL_RD, .reg HOSTIF_RPL_STEP, .reg HOSTIF_CTX_EVT_EVT, .mem, .poison, .mcs, .objs, .releases, .clusters, .units, .seqs, .cul, .degSet, .degClear, .ctxs, .reports, .jwide, .txStreams, .sendq, .out]) fun t =>
      t = s) ∧
  (∀ (h : Nat) (e : List Byte) (o : Opening) (z v : State) (s : State), isAwake s = true → stepWaiting s h = true → mayOpen s (hCtx h) = true → stepWraps s h = false → e = entryOf s h → z = modSlot (hCtx h) (hSlot h) (fun x => { x with running := true }) (setTurn h false s) → Opens h e o z v → Does (.stepOpenDeferred h) s ([.reg TUNIT_STAT_BUSY, .reg TUNIT_STAT_HALTED, .reg TUNIT_STAT_CQ_LEVEL, .reg TUNIT_STAT_WQ_LEVEL, .reg CLUSTER_GATHER_REJ, .reg CLUSTER_REPLAY_DIV_CNT, .reg CLUSTER_BT_ERR_CODE, .reg CLUSTER_BT_ERR_RECORD, evtPend 1, .reg ROOTSEQ_STAT_BUSY, .reg ROOTSEQ_STAT_PHASE, .reg ROOTSEQ_STAT_SIDE, .reg ROOTSEQ_ERR_INFO_REASON, .reg ROOTSEQ_ERR_INFO_SIDE, .reg ROOTSEQ_ERR_INFO_RES_LOG, .reg ROOTSEQ_ROOT_PUB, .reg ROOTSEQ_ROOT_REJ, .reg ROOTSEQ_DAMPED_PUB, .reg ROOTSEQ_REPLAY_DIV, .reg ROOTSEQ_CUR_GBI, .reg ROOTSEQ_LAST_REJ, evtPend 2, .reg MEMCTL_STAT_PARKED, .reg MEMCTL_ERR_INFO_CHAN, .reg MEMCTL_ERR_INFO_ROW, .reg MEMCTL_ERR_INFO_CLASS, .reg MEMCTL_CE_CNT, .reg MEMCTL_UE_CNT, .reg MEMCTL_ROW_FAIL_CNT, .reg MEMCTL_PAGE_LOST_CNT, .reg MEMCTL_ADDR_FAULT_CNT, .reg MEMCTL_PENDING_ROWS, .reg MEMCTL_PENDING_REMAP_USED, evtPend 3, .reg SYNC_SIGNALS, .reg SYNC_WAITS_DONE, .reg SYNC_BAR_RELEASE, .reg SYNC_STALE_SIG_CNT, .reg SYNC_SAT_CNT, evtPend 6, .reg LINK_STAT_DETOUR, evtPend 7, .reg COLL_ERR_INFO_CODE, .reg COLL_ERR_INFO_CONTEXT, .reg COLL_XFER_DONE, .reg COLL_STALE_REJ, .reg COLL_CARRY_DROP, .reg COLL_DUP_TURN, .reg COLL_ORIG, .reg COLL_DEGRADE_ACTIVE, .reg COLL_DEGRADE_LOST_POS, .reg COLL_DEGRADE_PREV_ACTIVE, .reg COLL_DEGRADE_PREV_POS, .reg COLL_DEGRADE_NEXT_ACTIVE, .reg COLL_DEGRADE_NEXT_POS, .reg COLL_DEGRADE_STANDIN, .reg COLL_DEGRADE_SERVING, evtPend 8, .reg CULVERT_AUDIT_ABORT, .reg CULVERT_SUSPECT_CNT, .reg CULVERT_SUSPECT, .reg CULVERT_SUSPECT_INFO_BUF, .reg CULVERT_SUSPECT_INFO_OUTCOME, .reg CULVERT_SUSPECT_INFO_TILE, .reg CULVERT_ERR_INFO_CODE, .reg CULVERT_ERR_INFO_RECORD, evtPend 9, .reg HOSTIF_RPL_RD, .reg HOSTIF_RPL_STEP, .reg HOSTIF_CTX_EVT_EVT, .mem, .poison, .mcs, .objs, .releases, .clusters, .units, .seqs, .cul, .degSet, .degClear, .ctxs, .reports, .jwide, .txStreams, .sendq, .out]) fun t =>
      (ctxOf t (hCtx h)).last = some (pay o.raw 0 4) ∧ (ctxOf t (hCtx h)).first = some ((ctxOf s (hCtx h)).first.getD (pay o.raw 0 4)) ∧ (ctxOf t (hCtx h)).tabs = latchBlocks o.tables ∧ openSteps (ctxOf t (hCtx h)) = openSteps (ctxOf s (hCtx h)) ++ [(pay o.raw 0 4, h)] ∧ (∀ d, d ≠ hCtx h → (ctxOf t d).last = (ctxOf s d).last ∧ openSteps (ctxOf t d) = openSteps (ctxOf s d)) ∧ (∀ k < 256, (clusterOf t k).lists = (clusterOf s k).lists ++ (if leVal ((o.dir.drop (8 * k)).take 8) = 0 then [] else [{ id := (clusterOf s k).nextId, ctx := hCtx h, handle := h, pos := { addr := leVal ((o.dir.drop (8 * k)).take 8) } }]))) ∧
  (∀ (h : Nat) (s : State), isAwake s = true → replayOn s (hCtx h) = false → Does (.replayRead h) s ([.reg TUNIT_STAT_BUSY, .reg TUNIT_STAT_HALTED, .reg TUNIT_STAT_CQ_LEVEL, .reg TUNIT_STAT_WQ_LEVEL, .reg CLUSTER_GATHER_REJ, .reg CLUSTER_REPLAY_DIV_CNT, .reg CLUSTER_BT_ERR_CODE, .reg CLUSTER_BT_ERR_RECORD, evtPend 1, .reg ROOTSEQ_STAT_BUSY, .reg ROOTSEQ_STAT_PHASE, .reg ROOTSEQ_STAT_SIDE, .reg ROOTSEQ_ERR_INFO_REASON, .reg ROOTSEQ_ERR_INFO_SIDE, .reg ROOTSEQ_ERR_INFO_RES_LOG, .reg ROOTSEQ_ROOT_PUB, .reg ROOTSEQ_ROOT_REJ, .reg ROOTSEQ_DAMPED_PUB, .reg ROOTSEQ_REPLAY_DIV, .reg ROOTSEQ_CUR_GBI, .reg ROOTSEQ_LAST_REJ, evtPend 2, .reg MEMCTL_STAT_PARKED, .reg MEMCTL_ERR_INFO_CHAN, .reg MEMCTL_ERR_INFO_ROW, .reg MEMCTL_ERR_INFO_CLASS, .reg MEMCTL_CE_CNT, .reg MEMCTL_UE_CNT, .reg MEMCTL_ROW_FAIL_CNT, .reg MEMCTL_PAGE_LOST_CNT, .reg MEMCTL_ADDR_FAULT_CNT, .reg MEMCTL_PENDING_ROWS, .reg MEMCTL_PENDING_REMAP_USED, evtPend 3, .reg SYNC_SIGNALS, .reg SYNC_WAITS_DONE, .reg SYNC_BAR_RELEASE, .reg SYNC_STALE_SIG_CNT, .reg SYNC_SAT_CNT, evtPend 6, .reg LINK_STAT_DETOUR, evtPend 7, .reg COLL_ERR_INFO_CODE, .reg COLL_ERR_INFO_CONTEXT, .reg COLL_XFER_DONE, .reg COLL_STALE_REJ, .reg COLL_CARRY_DROP, .reg COLL_DUP_TURN, .reg COLL_ORIG, .reg COLL_DEGRADE_ACTIVE, .reg COLL_DEGRADE_LOST_POS, .reg COLL_DEGRADE_PREV_ACTIVE, .reg COLL_DEGRADE_PREV_POS, .reg COLL_DEGRADE_NEXT_ACTIVE, .reg COLL_DEGRADE_NEXT_POS, .reg COLL_DEGRADE_STANDIN, .reg COLL_DEGRADE_SERVING, evtPend 8, .reg CULVERT_AUDIT_ABORT, .reg CULVERT_SUSPECT_CNT, .reg CULVERT_SUSPECT, .reg CULVERT_SUSPECT_INFO_BUF, .reg CULVERT_SUSPECT_INFO_OUTCOME, .reg CULVERT_SUSPECT_INFO_TILE, .reg CULVERT_ERR_INFO_CODE, .reg CULVERT_ERR_INFO_RECORD, evtPend 9, .reg HOSTIF_RPL_RD, .reg HOSTIF_RPL_STEP, .reg HOSTIF_CTX_EVT_EVT, .mem, .poison, .mcs, .objs, .releases, .clusters, .units, .seqs, .cul, .degSet, .degClear, .ctxs, .reports, .jwide, .txStreams, .sendq, .out]) fun t =>
      t = s) ∧
  (∀ (h : Nat) (s : State), isAwake s = true → (stepWaiting s h = false ∨ mayOpen s (hCtx h) = false) → Does (.replayRead h) s ([.reg TUNIT_STAT_BUSY, .reg TUNIT_STAT_HALTED, .reg TUNIT_STAT_CQ_LEVEL, .reg TUNIT_STAT_WQ_LEVEL, .reg CLUSTER_GATHER_REJ, .reg CLUSTER_REPLAY_DIV_CNT, .reg CLUSTER_BT_ERR_CODE, .reg CLUSTER_BT_ERR_RECORD, evtPend 1, .reg ROOTSEQ_STAT_BUSY, .reg ROOTSEQ_STAT_PHASE, .reg ROOTSEQ_STAT_SIDE, .reg ROOTSEQ_ERR_INFO_REASON, .reg ROOTSEQ_ERR_INFO_SIDE, .reg ROOTSEQ_ERR_INFO_RES_LOG, .reg ROOTSEQ_ROOT_PUB, .reg ROOTSEQ_ROOT_REJ, .reg ROOTSEQ_DAMPED_PUB, .reg ROOTSEQ_REPLAY_DIV, .reg ROOTSEQ_CUR_GBI, .reg ROOTSEQ_LAST_REJ, evtPend 2, .reg MEMCTL_STAT_PARKED, .reg MEMCTL_ERR_INFO_CHAN, .reg MEMCTL_ERR_INFO_ROW, .reg MEMCTL_ERR_INFO_CLASS, .reg MEMCTL_CE_CNT, .reg MEMCTL_UE_CNT, .reg MEMCTL_ROW_FAIL_CNT, .reg MEMCTL_PAGE_LOST_CNT, .reg MEMCTL_ADDR_FAULT_CNT, .reg MEMCTL_PENDING_ROWS, .reg MEMCTL_PENDING_REMAP_USED, evtPend 3, .reg SYNC_SIGNALS, .reg SYNC_WAITS_DONE, .reg SYNC_BAR_RELEASE, .reg SYNC_STALE_SIG_CNT, .reg SYNC_SAT_CNT, evtPend 6, .reg LINK_STAT_DETOUR, evtPend 7, .reg COLL_ERR_INFO_CODE, .reg COLL_ERR_INFO_CONTEXT, .reg COLL_XFER_DONE, .reg COLL_STALE_REJ, .reg COLL_CARRY_DROP, .reg COLL_DUP_TURN, .reg COLL_ORIG, .reg COLL_DEGRADE_ACTIVE, .reg COLL_DEGRADE_LOST_POS, .reg COLL_DEGRADE_PREV_ACTIVE, .reg COLL_DEGRADE_PREV_POS, .reg COLL_DEGRADE_NEXT_ACTIVE, .reg COLL_DEGRADE_NEXT_POS, .reg COLL_DEGRADE_STANDIN, .reg COLL_DEGRADE_SERVING, evtPend 8, .reg CULVERT_AUDIT_ABORT, .reg CULVERT_SUSPECT_CNT, .reg CULVERT_SUSPECT, .reg CULVERT_SUSPECT_INFO_BUF, .reg CULVERT_SUSPECT_INFO_OUTCOME, .reg CULVERT_SUSPECT_INFO_TILE, .reg CULVERT_ERR_INFO_CODE, .reg CULVERT_ERR_INFO_RECORD, evtPend 9, .reg HOSTIF_RPL_RD, .reg HOSTIF_RPL_STEP, .reg HOSTIF_CTX_EVT_EVT, .mem, .poison, .mcs, .objs, .releases, .clusters, .units, .seqs, .cul, .degSet, .degClear, .ctxs, .reports, .jwide, .txStreams, .sendq, .out]) fun t =>
      t = s) ∧
  (∀ (h : Nat) (e : List Byte) (o : Opening) (z v : State) (s : State), isAwake s = true → replayOn s (hCtx h) = true → stepWaiting s h = true → mayOpen s (hCtx h) = true → stepWraps s h = false → e = entryOf s h → z = modSlot (hCtx h) (hSlot h) (fun x => { x with running := true }) (setTurn h false s) → Opens h e o z v → Does (.replayRead h) s ([.reg TUNIT_STAT_BUSY, .reg TUNIT_STAT_HALTED, .reg TUNIT_STAT_CQ_LEVEL, .reg TUNIT_STAT_WQ_LEVEL, .reg CLUSTER_GATHER_REJ, .reg CLUSTER_REPLAY_DIV_CNT, .reg CLUSTER_BT_ERR_CODE, .reg CLUSTER_BT_ERR_RECORD, evtPend 1, .reg ROOTSEQ_STAT_BUSY, .reg ROOTSEQ_STAT_PHASE, .reg ROOTSEQ_STAT_SIDE, .reg ROOTSEQ_ERR_INFO_REASON, .reg ROOTSEQ_ERR_INFO_SIDE, .reg ROOTSEQ_ERR_INFO_RES_LOG, .reg ROOTSEQ_ROOT_PUB, .reg ROOTSEQ_ROOT_REJ, .reg ROOTSEQ_DAMPED_PUB, .reg ROOTSEQ_REPLAY_DIV, .reg ROOTSEQ_CUR_GBI, .reg ROOTSEQ_LAST_REJ, evtPend 2, .reg MEMCTL_STAT_PARKED, .reg MEMCTL_ERR_INFO_CHAN, .reg MEMCTL_ERR_INFO_ROW, .reg MEMCTL_ERR_INFO_CLASS, .reg MEMCTL_CE_CNT, .reg MEMCTL_UE_CNT, .reg MEMCTL_ROW_FAIL_CNT, .reg MEMCTL_PAGE_LOST_CNT, .reg MEMCTL_ADDR_FAULT_CNT, .reg MEMCTL_PENDING_ROWS, .reg MEMCTL_PENDING_REMAP_USED, evtPend 3, .reg SYNC_SIGNALS, .reg SYNC_WAITS_DONE, .reg SYNC_BAR_RELEASE, .reg SYNC_STALE_SIG_CNT, .reg SYNC_SAT_CNT, evtPend 6, .reg LINK_STAT_DETOUR, evtPend 7, .reg COLL_ERR_INFO_CODE, .reg COLL_ERR_INFO_CONTEXT, .reg COLL_XFER_DONE, .reg COLL_STALE_REJ, .reg COLL_CARRY_DROP, .reg COLL_DUP_TURN, .reg COLL_ORIG, .reg COLL_DEGRADE_ACTIVE, .reg COLL_DEGRADE_LOST_POS, .reg COLL_DEGRADE_PREV_ACTIVE, .reg COLL_DEGRADE_PREV_POS, .reg COLL_DEGRADE_NEXT_ACTIVE, .reg COLL_DEGRADE_NEXT_POS, .reg COLL_DEGRADE_STANDIN, .reg COLL_DEGRADE_SERVING, evtPend 8, .reg CULVERT_AUDIT_ABORT, .reg CULVERT_SUSPECT_CNT, .reg CULVERT_SUSPECT, .reg CULVERT_SUSPECT_INFO_BUF, .reg CULVERT_SUSPECT_INFO_OUTCOME, .reg CULVERT_SUSPECT_INFO_TILE, .reg CULVERT_ERR_INFO_CODE, .reg CULVERT_ERR_INFO_RECORD, evtPend 9, .reg HOSTIF_RPL_RD, .reg HOSTIF_RPL_STEP, .reg HOSTIF_CTX_EVT_EVT, .mem, .poison, .mcs, .objs, .releases, .clusters, .units, .seqs, .cul, .degSet, .degClear, .ctxs, .reports, .jwide, .txStreams, .sendq, .out]) fun t =>
      (ctxOf t (hCtx h)).last = some (pay o.raw 0 4) ∧ (ctxOf t (hCtx h)).first = some ((ctxOf s (hCtx h)).first.getD (pay o.raw 0 4)) ∧ (ctxOf t (hCtx h)).tabs = latchBlocks o.tables ∧ openSteps (ctxOf t (hCtx h)) = openSteps (ctxOf s (hCtx h)) ++ [(pay o.raw 0 4, h)] ∧ (∀ d, d ≠ hCtx h → (ctxOf t d).last = (ctxOf s d).last ∧ openSteps (ctxOf t d) = openSteps (ctxOf s d)) ∧ (∀ k < 256, (clusterOf t k).lists = (clusterOf s k).lists ++ (if leVal ((o.dir.drop (8 * k)).take 8) = 0 then [] else [{ id := (clusterOf s k).nextId, ctx := hCtx h, handle := h, pos := { addr := leVal ((o.dir.drop (8 * k)).take 8) } }]))) ∧
  (∀ (c n : Nat) (st : Step) (s : State), isAwake s = true → stepOf s c n = some st → stepCloses s c st = false → Does (.stepClose c n) s ([.reg MEMCTL_STAT_PARKED, .reg MEMCTL_ERR_INFO_CHAN, .reg MEMCTL_ERR_INFO_ROW, .reg MEMCTL_ERR_INFO_CLASS, .reg MEMCTL_CE_CNT, .reg MEMCTL_UE_CNT, .reg MEMCTL_ROW_FAIL_CNT, .reg MEMCTL_PAGE_LOST_CNT, .reg MEMCTL_ADDR_FAULT_CNT, .reg MEMCTL_PENDING_ROWS, .reg MEMCTL_PENDING_REMAP_USED, evtPend 3, .reg LINK_STAT_DETOUR, evtPend 7, .reg COLL_CARRY_DROP, .reg COLL_ORIG, evtPend 8, .reg CULVERT_SUSPECT_CNT, .reg CULVERT_SUSPECT, .reg CULVERT_SUSPECT_INFO_BUF, .reg CULVERT_SUSPECT_INFO_OUTCOME, .reg CULVERT_SUSPECT_INFO_TILE, evtPend 9, .hmem, .mcs, .cul, .ctxs, .reports, .lastClosed, .jwide, .txStreams, .sendq, .out]) fun t =>
      t = s) ∧
  (∀ (c n : Nat) (st : Step) (s : State), isAwake s = true → stepOf s c n = some st → stepCloses s c st = true → Does (.stepClose c n) s ([.reg MEMCTL_STAT_PARKED, .reg MEMCTL_ERR_INFO_CHAN, .reg MEMCTL_ERR_INFO_ROW, .reg MEMCTL_ERR_INFO_CLASS, .reg MEMCTL_CE_CNT, .reg MEMCTL_UE_CNT, .reg MEMCTL_ROW_FAIL_CNT, .reg MEMCTL_PAGE_LOST_CNT, .reg MEMCTL_ADDR_FAULT_CNT, .reg MEMCTL_PENDING_ROWS, .reg MEMCTL_PENDING_REMAP_USED, evtPend 3, .reg LINK_STAT_DETOUR, evtPend 7, .reg COLL_CARRY_DROP, .reg COLL_ORIG, evtPend 8, .reg CULVERT_SUSPECT_CNT, .reg CULVERT_SUSPECT, .reg CULVERT_SUSPECT_INFO_BUF, .reg CULVERT_SUSPECT_INFO_OUTCOME, .reg CULVERT_SUSPECT_INFO_TILE, evtPend 9, .hmem, .mcs, .cul, .ctxs, .reports, .lastClosed, .jwide, .txStreams, .sendq, .out]) fun t =>
      t.lastClosed = n ∧ t.reports.getLast? = some { handle := st.handle, status := 0, r0 := n } ∧ openSteps (ctxOf t c) = (openSteps (ctxOf s c)).filter (fun x => x.1 != n) ∧ (ctxOf t c).last = (ctxOf s c).last ∧ (ctxOf t c).tabs = (ctxOf s c).tabs ∧ ∀ d, d ≠ c → openSteps (ctxOf t d) = openSteps (ctxOf s d))

/-- A step runs the command at the front of the queue with the queue's rest; on an empty queue the block idles. Basis: 00_scope.md. -/
def Obligations.StepRunsFront : Prop :=
  (∀ (c : Instr) (rest : List Instr) (s : State), step { s with pending := c :: rest } = exec c { s with pending := rest }) ∧
  (∀ s : State, s.pending = [] → step s = .next s)

/-- After reset every register field reads its reset value, the memories are canonical and nothing is queued. Basis: R16, R592. -/
def Obligations.ResetLeavesResetValues : Prop :=
  State.reset.pending = [] ∧ State.reset.out = [] ∧ State.reset.inReset = none ∧ State.reset.memWf ∧
  State.reset.mem = [] ∧ State.reset.poison = [] ∧ State.reset.ctxs = [] ∧ State.reset.units = [] ∧
  ∀ t < 20, ∀ f ∈ fldsOf t, ∀ i k : Nat, getFk State.reset f i k = fldReset f i

/-- Every step keeps module memory, cluster SRAM and host memory in their canonical form. Basis: 09_memory.md. -/
def Obligations.StepKeepsMemories : Prop :=
  ∀ s t : State, s.memWf → step s = .next t → t.memWf

/-- R26: a tensor domain is on only while its cluster domain is on, and goes off only from a state in which it is. Basis: R26. -/
def Obligations.TensorFollowsCluster : Prop :=
  ∀ s t : State, (∀ rg < 32, domOn s rg = true → domOn s (32 + rg) = true) → step s = .next t →
    (∀ rg < 32, domOn t rg = true → domOn t (32 + rg) = true) ∧
    ∀ rg < 32, domOn s rg = true → domOn t rg = false → domOn s (32 + rg) = true

/-- After reset every region whose tensor domain is on has its cluster domain on. Basis: R26, R564. -/
def Obligations.ResetHasClustersOn : Prop :=
  (∀ rg < 32, domOn State.reset rg = true → domOn State.reset (32 + rg) = true)

/-- No command changes the queue of waiting commands, and no command takes an output back. Basis: 00_scope.md, R531. -/
def Obligations.CommandsLeaveQueueAndOutputs : Prop :=
  ∀ (c : Instr) (s t : State), exec c s = .next t → t.pending = s.pending ∧ s.out <+: t.out

/-- No command is refused, and only STEP_OPEN, STEP_OPEN_DEFERRED and REPLAY_READ can fault, at the wrap of the step number. Basis: R9,
R49, R50. -/
def Obligations.NoCommandIsRefused : Prop :=
  (∀ (c : Instr) (s : State) (r : Refusal), exec c s ≠ .refused r) ∧
  (∀ (c : Instr) (s : State) (f : Fault), exec c s = .fault f →
    f = .stepNumberWrap ∧ ∃ h, c = .stepOpen h ∨ c = .stepOpenDeferred h ∨ c = .replayRead h)

/-- R9: a step number that would pass 0xFFFF_FFFF is not opened: STEP_OPEN and its later turns fault. Basis: R9. -/
def Obligations.StepNumberWrapFaults : Prop :=
  (∀ (h : Nat) (s : State), stepPending s h = true → stepWaiting s h = false → stepWraps s h = true →
    exec (.stepOpen h) s = .fault .stepNumberWrap) ∧
  (∀ (h : Nat) (s : State), stepWaiting s h = true → stepWraps s h = true →
    exec (.stepOpenDeferred h) s = .fault .stepNumberWrap) ∧
  (∀ (h : Nat) (s : State), replayOn s (hCtx h) = true → stepWaiting s h = true → stepWraps s h = true →
    exec (.replayRead h) s = .fault .stepNumberWrap)

/-- Only OTP_PROG_DONE and the resets C move the OTP and the replaced keys; only mailbox writes and resets C move the mailbox. Basis:
R540, R552, R553, R554, R561, R587. -/
def Obligations.OnlyTheseWriteLastingState : Prop :=
  ∀ (c : Instr) (s t : State), exec c s = .next t →
  (t.otp ≠ s.otp → (∃ ok, c = .otpProgDone ok) ∨ (∃ r mv, c = .railResetTrip r mv) ∨ c = .coldReset ∨ c = .faultResetRelease) ∧
  (t.bootKeys ≠ s.bootKeys → (∃ ok, c = .otpProgDone ok) ∨ (∃ r mv, c = .railResetTrip r mv) ∨ c = .coldReset ∨ c = .faultResetRelease) ∧
  (t.mbx ≠ s.mbx → (∃ off data, c = .mailboxWrite off data) ∨ (∃ r mv, c = .railResetTrip r mv) ∨ c = .coldReset ∨ c = .faultResetRelease) ∧
  (t.strapPos ≠ s.strapPos → (∃ ms pos gaddr, c = .coldResetRelease ms pos gaddr)) ∧
  (t.strapGaddr ≠ s.strapGaddr → (∃ ms pos gaddr, c = .coldResetRelease ms pos gaddr))

/-- Only these commands write host memory, move FAULT_N, or move the SR-IOV enables. Basis: R509, R516, R600, R603, R605. -/
def Obligations.OnlyTheseReachHostAndPins : Prop :=
  ∀ (c : Instr) (s t : State), exec c s = .next t →
  (t.hmem ≠ s.hmem → (∃ r a v size, c = .regWrite r a v size) ∨ (∃ cₓ n, c = .stepClose cₓ n) ∨ (∃ h, c = .exportCmd h) ∨
      (∃ h, c = .memrecExport h) ∨ (∃ h, c = .ckpt h) ∨ (∃ cₓ g, c = .ckptBlockRead cₓ g) ∨ (∃ cₓ, c = .ckptComplete cₓ) ∨
      (∃ cₓ, c = .journalDrain cₓ) ∨ (∃ cₓ q ok entry, c = .sqEntryFetch cₓ q ok entry) ∨ (∃ n, c = .completionReport n) ∨
      (∃ r a v waited, c = .cqHead r a v waited) ∨ (∃ h, c = .abort h) ∨ (∃ h, c = .attest h) ∨ (∃ h hd, c = .copy h hd) ∨
      (∃ h, c = .ctxReset h) ∨ (∃ fn, c = .functionLevelReset fn)) ∧
  (t.faultN ≠ s.faultN → (∃ p, c = .pairLockstep p) ∨ (∃ r mv, c = .railResetTrip r mv) ∨ (∃ cl again, c = .residueMismatch cl again) ∨
      (∃ k tₓ, c = .tempTrip k tₓ) ∨ (∃ p, c = .watchdogExpire p) ∨ (∃ r a v, c = .forceFault r a v) ∨ c = .perstRelease ∨
      (∃ ms pos gaddr, c = .coldResetRelease ms pos gaddr)) ∧
  (t.vfEnable ≠ s.vfEnable → (∃ r mv, c = .railResetTrip r mv) ∨ c = .coldReset ∨ c = .platformReset ∨ c = .linkReset ∨
      (∃ fn, c = .functionLevelReset fn) ∨ c = .faultResetRelease ∨ (∃ en n, c = .vfEnable en n)) ∧
  (t.numVfs ≠ s.numVfs → (∃ r mv, c = .railResetTrip r mv) ∨ c = .coldReset ∨ c = .platformReset ∨ c = .linkReset ∨
      (∃ fn, c = .functionLevelReset fn) ∨ c = .faultResetRelease ∨ (∃ en n, c = .vfEnable en n))

/-- In the fault state, in a reset C or P and in standby the engines' commands change nothing; in deep idle those that need memory or
clusters change nothing. Basis: R583, R584, R586, R603. -/
def Obligations.StoppedModuleStandsStill : Prop :=
  (∀ s : State, stopped s = true →
      (∀ h, exec (.maint h) s = .next s) ∧ (∀ src, exec (.signal src) s = .next s) ∧ (∀ src, exec (.wait src) s = .next s) ∧
      (∀ home flag cyc, exec (.waiterTableAdmit home flag cyc) s = .next s) ∧ (∀ src, exec (.arrive src) s = .next s) ∧
      exec .releaseReceive s = .next s ∧ (∀ c n cid, exec (.stragglerDeadline c n cid) s = .next s) ∧
      (∀ h, exec (.degrade h) s = .next s) ∧ (∀ c q ok entry, exec (.sqEntryFetch c q ok entry) s = .next s) ∧
      (∀ c q, exec (.commandStart c q) s = .next s) ∧ (∀ n, exec (.completionReport n) s = .next s) ∧
      (∀ c q, exec (.coalesceTimer c q) s = .next s) ∧ (∀ h, exec (.nop h) s = .next s) ∧ (∀ h, exec (.abort h) s = .next s) ∧
      (∀ h, exec (.attest h) s = .next s) ∧ (∀ h, exec (.setSeed h) s = .next s) ∧ (∀ h, exec (.ctxReset h) s = .next s) ∧
      (∀ h, exec (.ctxPreempt h) s = .next s) ∧ (∀ h, exec (.ctxResume h) s = .next s) ∧
      (∀ d, exec (.droopStretch d) s = .next s) ∧ exec .supplyEvt s = .next s ∧ (∀ c n, exec (.stepClose c n) s = .next s) ∧
      (∀ c n cid g, exec (.gatherBlockSend c n cid g) s = .next s) ∧ (∀ c n g own, exec (.partialAdd c n g own) s = .next s) ∧
      (∀ c n g, exec (.ownerSumClose c n g) s = .next s) ∧ (∀ c n g, exec (.precondition c n g) s = .next s) ∧
      (∀ c n g, exec (.commit c n g) s = .next s) ∧ (∀ c n g, exec (.mirrorSend c n g) s = .next s) ∧
      (∀ c n g, exec (.factorUpdate c n g) s = .next s) ∧ (∀ h, exec (.exportCmd h) s = .next s) ∧
      (∀ d ctx cls a write copy data tag, exec (.memRequest d ctx cls a write copy data tag) s = .next s) ∧
      exec .maintWindowStart s = .next s ∧ (∀ ms, exec (.maintWindowEnd ms) s = .next s) ∧
      (∀ h recd, exec (.memrecImport h recd) s = .next s) ∧ (∀ h, exec (.memrecExport h) s = .next s) ∧
      (∀ c, exec (.send c) s = .next s) ∧ (∀ c, exec (.recv c) s = .next s) ∧ exec .collTurnFrame s = .next s ∧
      exec .doneFrame s = .next s ∧ exec .releaseFrame s = .next s ∧ (∀ hclk, exec (.earlyAreaAdmit hclk) s = .next s) ∧
      (∀ h, exec (.topoLoad h) s = .next s) ∧ exec .openFrame s = .next s ∧ exec .tabWf s = .next s ∧ exec .tabR s = .next s ∧
      exec .wgt s = .next s ∧ exec .fac0 s = .next s ∧ exec .fac1 s = .next s ∧ exec .root0 s = .next s ∧
      exec .root1 s = .next s ∧ exec .closeW s = .next s ∧ exec .closeF s = .next s ∧ exec .closeR s = .next s ∧
      exec .ack s = .next s ∧ exec .nack s = .next s ∧ exec .auditRes s = .next s ∧ exec .fetch s = .next s ∧
      (∀ h, exec (.ckpt h) s = .next s) ∧ (∀ c g, exec (.ckptBlockRead c g) s = .next s) ∧
      (∀ c, exec (.ckptComplete c) s = .next s) ∧ exec .peerWrite s = .next s ∧ exec .readReq s = .next s ∧
      exec .readData s = .next s ∧ exec .peerDone s = .next s ∧ (∀ h dir, exec (.restore h dir) s = .next s) ∧
      (∀ c hd, exec (.restoreRecordApply c hd) s = .next s) ∧ (∀ c, exec (.restoreComplete c) s = .next s) ∧
      (∀ c src hclk, exec (.journalAppend c src hclk) s = .next s) ∧ (∀ c, exec (.journalDrain c) s = .next s) ∧
      (∀ off n, exec (.bar2Read off n) s = .next s) ∧ (∀ off data, exec (.bar2Write off data) s = .next s) ∧
      (∀ h, exec (.listRun h) s = .next s) ∧ (∀ h hd, exec (.copy h hd) s = .next s) ∧
      (∀ cl lid, exec (.listDescRead cl lid) s = .next s) ∧ (∀ cl lid n, exec (.matmulDescriptor cl lid n) s = .next s) ∧
      (∀ u, exec (.descTake u) s = .next s) ∧ (∀ u, exec (.chunkPassEnd u) s = .next s) ∧
      (∀ u corr unc fl stall, exec (.tileEnd u corr unc fl stall) s = .next s) ∧
      (∀ cl ok, exec (.adoptCopyDone cl ok) s = .next s) ∧ (∀ cl, exec (.adoptionBufferEnter cl) s = .next s) ∧
      (∀ u, exec (.descComplete u) s = .next s) ∧
      (∀ cl dst part n k last, exec (.reductionFold cl dst part n k last) s = .next s) ∧
      (∀ cl lid, exec (.conversionDescriptor cl lid) s = .next s) ∧ (∀ cl lid, exec (.group cl lid) s = .next s) ∧
      (∀ cl lid, exec (.stashEncode cl lid) s = .next s) ∧ (∀ cl lid, exec (.stashDecode cl lid) s = .next s) ∧
      (∀ rg, exec (.rootJobScan rg) s = .next s) ∧ (∀ rg, exec (.rootJobStart rg) s = .next s) ∧
      (∀ rg u d, exec (.wideDescIssue rg u d) s = .next s) ∧ (∀ rg, exec (.newtonIterationDone rg) s = .next s) ∧
      (∀ rg, exec (.choleskyPanelDone rg) s = .next s) ∧ (∀ rg, exec (.residualCheck rg) s = .next s) ∧
      (∀ rg, exec (.rootConvert rg) s = .next s) ∧ (∀ rg, exec (.rootPublish rg) s = .next s) ∧
      (∀ rg, exec (.dueNotice rg) s = .next s) ∧ (∀ rg, exec (.restartReply rg) s = .next s) ∧
      (∀ rg, exec (.lendSet rg) s = .next s) ∧ (∀ rg, exec (.seqLockstep rg) s = .next s) ∧
      (∀ m p dt, exec (.weirAdmit m p dt) s = .next s) ∧
      (∀ n r op acc dt, exec (.sluiceEnter n r op acc dt) s = .next s) ∧ (∀ n dt, exec (.sluiceGrant n dt) s = .next s) ∧
      (∀ n dt, exec (.sluiceDeadlineMiss n dt) s = .next s) ∧ (∀ n dt, exec (.sluicePin n dt) s = .next s) ∧
      (∀ chan ecc, exec (.memRead chan ecc) s = .next s) ∧ (∀ chan, exec (.memWrite chan) s = .next s) ∧
      (∀ m chan page off ecc written passEnd, exec (.scrubRead m chan page off ecc written passEnd) s = .next s) ∧
      (∀ m bad, exec (.remapCopyDone m bad) s = .next s) ∧ (∀ m bad, exec (.retireCopyDone m bad) s = .next s) ∧
      (∀ m ch, exec (.retrainDue m ch) s = .next s) ∧ (∀ m, exec (.retrainDone m) s = .next s) ∧
      (∀ m, exec (.retrainTimeout m) s = .next s) ∧ (∀ m e, exec (.fieldRepairDone m e) s = .next s) ∧
      (∀ m, exec (.parkStall m) s = .next s) ∧ (∀ m tₓ, exec (.stackTempSample m tₓ) s = .next s) ∧
      (∀ m, exec (.stackThrottleStep m) s = .next s) ∧ (∀ p, exec (.autoRetrain p) s = .next s) ∧
      (∀ p, exec (.trainDone p) s = .next s) ∧ (∀ p, exec (.trainFail p) s = .next s) ∧
      (∀ p, exec (.identSend p) s = .next s) ∧ (∀ p raw fec, exec (.ident p raw fec) s = .next s) ∧
      (∀ p, exec (.laneLoss p) s = .next s) ∧ (∀ p raw fec, exec (.data p raw fec) s = .next s) ∧
      (∀ p raw fec, exec (.mark p raw fec) s = .next s) ∧ (∀ p raw fec, exec (.markAck p raw fec) s = .next s) ∧
      (∀ p raw fec, exec (.link p raw fec) s = .next s) ∧ (∀ p raw fec, exec (.retry p raw fec) s = .next s) ∧
      (∀ p raw fec, exec (.state p raw fec) s = .next s) ∧ (∀ p, exec (.ackTimeout p) s = .next s) ∧
      (∀ p, exec (.linkAckDue p) s = .next s) ∧ (∀ p, exec (.holdExpire p) s = .next s) ∧
      (∀ cl again, exec (.residueMismatch cl again) s = .next s) ∧ (∀ cl, exec (.tallySend cl) s = .next s)) ∧
  (∀ s : State, isAwake s = false →
      (∀ c n, exec (.stepClose c n) s = .next s) ∧ (∀ c n cid g, exec (.gatherBlockSend c n cid g) s = .next s) ∧
      (∀ c n g own, exec (.partialAdd c n g own) s = .next s) ∧ (∀ c n g, exec (.ownerSumClose c n g) s = .next s) ∧
      (∀ c n g, exec (.precondition c n g) s = .next s) ∧ (∀ c n g, exec (.commit c n g) s = .next s) ∧
      (∀ c n g, exec (.mirrorSend c n g) s = .next s) ∧ (∀ c n g, exec (.factorUpdate c n g) s = .next s) ∧
      (∀ h, exec (.exportCmd h) s = .next s) ∧
      (∀ d ctx cls a write copy data tag, exec (.memRequest d ctx cls a write copy data tag) s = .next s) ∧
      exec .maintWindowStart s = .next s ∧ (∀ ms, exec (.maintWindowEnd ms) s = .next s) ∧
      (∀ h recd, exec (.memrecImport h recd) s = .next s) ∧ (∀ h, exec (.memrecExport h) s = .next s) ∧
      (∀ c, exec (.send c) s = .next s) ∧ (∀ c, exec (.recv c) s = .next s) ∧ exec .collTurnFrame s = .next s ∧
      exec .doneFrame s = .next s ∧ exec .releaseFrame s = .next s ∧ (∀ hclk, exec (.earlyAreaAdmit hclk) s = .next s) ∧
      (∀ h, exec (.topoLoad h) s = .next s) ∧ exec .openFrame s = .next s ∧ exec .tabWf s = .next s ∧ exec .tabR s = .next s ∧
      exec .wgt s = .next s ∧ exec .fac0 s = .next s ∧ exec .fac1 s = .next s ∧ exec .root0 s = .next s ∧
      exec .root1 s = .next s ∧ exec .closeW s = .next s ∧ exec .closeF s = .next s ∧ exec .closeR s = .next s ∧
      exec .ack s = .next s ∧ exec .nack s = .next s ∧ exec .auditRes s = .next s ∧ exec .fetch s = .next s ∧
      (∀ h, exec (.ckpt h) s = .next s) ∧ (∀ c g, exec (.ckptBlockRead c g) s = .next s) ∧
      (∀ c, exec (.ckptComplete c) s = .next s) ∧ exec .peerWrite s = .next s ∧ exec .readReq s = .next s ∧
      exec .readData s = .next s ∧ exec .peerDone s = .next s ∧ (∀ h dir, exec (.restore h dir) s = .next s) ∧
      (∀ c hd, exec (.restoreRecordApply c hd) s = .next s) ∧ (∀ c, exec (.restoreComplete c) s = .next s) ∧
      (∀ c src hclk, exec (.journalAppend c src hclk) s = .next s) ∧ (∀ c, exec (.journalDrain c) s = .next s) ∧
      (∀ off n, exec (.bar2Read off n) s = .next s) ∧ (∀ off data, exec (.bar2Write off data) s = .next s) ∧
      (∀ h, exec (.listRun h) s = .next s) ∧ (∀ h hd, exec (.copy h hd) s = .next s))

/-- R14: an event that sets a W1C bit in the hclk of the write that clears it leaves the bit set. Basis: R14. -/
def Obligations.EventBeatsClear : Prop :=
  (∀ (r : Requester) (a v raised t i b : Nat) (s : State), a % 4 = 0 → target s r a = some (t, i, 0x18) → gate s r t i 0x18 = .pass →
    t ≠ 11 → (evtMask t).testBit b = true → v.testBit b = true → raised.testBit b = true →
    ∃ u, exec (.evtPendClear r a v raised) s = .next u ∧ (getF u (pendFld t) i).testBit b = true) ∧
  (∀ (r : Requester) (a v raised i b : Nat) (s : State), a % 4 = 0 → target s r a = some (11, i, 0x18) → gate s r 11 i 0x18 = .pass →
    (∀ c, r ≠ .vf c) → b < 16 → (evtMask 11).testBit b = true → v.testBit b = true → raised.testBit b = true →
    ∃ u, exec (.evtPendClear r a v raised) s = .next u ∧ (getF u (pendFld 11) i).testBit b = true) ∧
  (∀ (r : Requester) (a v raised i b c : Nat) (s : State), a % 4 = 0 → target s r a = some (11, i, 0x18) → gate s r 11 i 0x18 = .pass →
    (∀ d, r ≠ .vf d) → c < 16 → b < 4 → v.testBit (16 + b) = true → raised.testBit (16 + 4 * c + b) = true →
    ∃ u, exec (.evtPendClear r a v raised) s = .next u ∧ (getFk u HOSTIF_CTX_EVT_EVT 0 c).testBit b = true) ∧
  (∀ (a v raised i b c : Nat) (s : State), a % 4 = 0 → target s (.vf c) a = some (11, i, 0x18) → gate s (.vf c) 11 i 0x18 = .pass →
    b < 4 → v.testBit (16 + b) = true → raised.testBit (16 + b) = true →
    ∃ u, exec (.evtPendClear (.vf c) a v raised) s = .next u ∧ (getFk u HOSTIF_CTX_EVT_EVT 0 c).testBit b = true) ∧
  (∀ (r : Requester) (a v raised i b c : Nat) (s : State), a % 4 = 0 → target s r a = some (11, i, 0xC00 + 4 * c) → c < 16 →
    gate s r 11 i (0xC00 + 4 * c) = .pass → b < 4 → v.testBit b = true → raised.testBit b = true →
    ∃ u, exec (.evtPendClear r a v raised) s = .next u ∧ (getFk u HOSTIF_CTX_EVT_EVT 0 c).testBit b = true)

/-- R15: an RC read returns the value before an increment of the same hclk, and the counter ends at 1. The rows: rcRead. Basis: R15. -/
def Obligations.CounterReadKeepsIncrement : Prop :=
  (∀ (r : Requester) (a inc : Nat) (t i o : Nat) (s : State), target s r a = some (t, i, o) → isLo t o = false → s.hiLatch.get 0 (latchKey r t i o) = 0 → domOn s (pageDomain t i) = true → Does (.rcRead r a inc) s (everyReg ++ ([.hiLatch, .out] : List Part)) fun u =>
      u.out = s.out ++ [.regRead (readReg s r t i o)] ∧ ∀ e ∈ fldsAt t o, e.1.acc = .rc → getFk u e.1 i e.2 = if inc = 0 then 0 else 1)

/-- A page whose domain is off: its header reads normally, every other offset reads 0, and no write but one to LOCK passes. Basis: R633,
R634. -/
def Obligations.OffPageReadsZero : Prop :=
  ∀ (s : State) (r : Requester) (t i o : Nat), domOn s (pageDomain t i) = false →
    (o < 0x10 → readReg s r t i o = readHeader s t i o) ∧ (0x10 ≤ o → readReg s r t i o = 0) ∧ (o ≠ 0xC → gate s r t i o ≠ .pass)
end

