-- ==== Sys2Proof/Laws/Store.lean ====
section
/-! SUPPORT. Laws of the sparse stores: reading after writing, and the canonical form that every write keeps. -/

namespace Sys2Proof.Machine

variable {α : Type}

/-- Keys strictly rising, above a bound. -/
def Store.above (b : Nat) : Store α → Prop
  | [] => True
  | e :: r => b < e.1 ∧ Store.above e.1 r

/-- Keys strictly rising. -/
def Store.rising : Store α → Prop
  | [] => True
  | e :: r => Store.above e.1 r

theorem Store.above_mono {b c : Nat} (h : c ≤ b) : ∀ {st : Store α}, Store.above b st → Store.above c st
  | [], _ => trivial
  | _ :: _, ⟨h1, h2⟩ => ⟨by omega, h2⟩

theorem Store.above_rising {b : Nat} : ∀ {st : Store α}, Store.above b st → Store.rising st
  | [], _ => trivial
  | _ :: _, ⟨_, h2⟩ => h2

theorem Store.above_lt {b : Nat} : ∀ {st : Store α}, Store.above b st → ∀ e ∈ st, b < e.1
  | [], _, e, he => by simp at he
  | x :: r, ⟨h1, h2⟩, e, he => by
    rcases List.mem_cons.1 he with rfl | he
    · exact h1
    · exact Nat.lt_trans h1 (Store.above_lt h2 e he)

/-- The canonical form is rising keys and no default value. -/
theorem Store.canon_iff [DecidableEq α] (d : α) :
    ∀ st : Store α, Store.canon d st = true ↔ Store.rising st ∧ ∀ e ∈ st, e.2 ≠ d
  | [] => by simp [Store.canon, Store.rising]
  | [e] => by simp [Store.canon, Store.rising, Store.above]
  | e :: f :: r => by
    have ih := Store.canon_iff d (f :: r)
    have e : Store.canon d (e :: f :: r) = true ↔ (e.2 ≠ d ∧ e.1 < f.1) ∧ Store.canon d (f :: r) = true := by
      simp only [Store.canon, Bool.and_eq_true, decide_eq_true_eq]
    rw [e, ih]
    refine ⟨fun p => ⟨⟨p.1.2, p.2.1⟩, List.forall_mem_cons.2 ⟨p.1.1, p.2.2⟩⟩, fun p => ?_⟩
    have q := List.forall_mem_cons.1 p.2
    exact ⟨⟨q.1, p.1.1⟩, p.1.2, q.2⟩

theorem Store.canon_nil [DecidableEq α] {d : α} : Store.canon d [] = true := rfl

theorem Store.find_cons (k j : Nat) (v : α) (r : Store α) :
    Store.find k ((j, v) :: r) = if j = k then some v else Store.find k r := rfl

/-- A key below the listed ones is not listed. -/
theorem Store.find_above {k b : Nat} (hk : k ≤ b) : ∀ {st : Store α}, Store.above b st → Store.find k st = none
  | [], _ => rfl
  | (j, v) :: r, ⟨h1, h2⟩ => by
    rw [Store.find_cons, if_neg (by omega)]
    exact Store.find_above (Nat.le_of_lt (Nat.lt_of_le_of_lt hk h1)) h2

/-! ## Insertion -/

theorem Store.find_ins_ne {k j : Nat} (h : k ≠ j) (v : α) : ∀ st : Store α, Store.find j (Store.ins k v st) = Store.find j st
  | [] => by simp [Store.ins, Store.find, h]
  | (i, w) :: r => by
    unfold Store.ins
    split
    · simp [Store.find, h]
    · split
      · next e => subst e; simp [Store.find, h]
      · simp only [Store.find_cons, Store.find_ins_ne h v r]

theorem Store.find_ins_self (k : Nat) (v : α) : ∀ st : Store α, Store.find k (Store.ins k v st) = some v
  | [] => by simp [Store.ins, Store.find]
  | (i, w) :: r => by
    unfold Store.ins
    split
    · simp [Store.find]
    · split
      · simp [Store.find]
      · next h => rw [Store.find_cons, if_neg (fun e => h e.symm), Store.find_ins_self k v r]

theorem Store.above_ins {b k : Nat} (hb : b < k) (v : α) : ∀ {st : Store α}, Store.above b st → Store.above b (Store.ins k v st)
  | [], _ => ⟨hb, trivial⟩
  | (i, w) :: r, ⟨h1, h2⟩ => by
    unfold Store.ins
    split
    · next h => exact ⟨hb, h, h2⟩
    · split
      · next e => subst e; exact ⟨hb, h2⟩
      · exact ⟨h1, Store.above_ins (by omega) v h2⟩

theorem Store.rising_ins (k : Nat) (v : α) : ∀ {st : Store α}, Store.rising st → Store.rising (Store.ins k v st)
  | [], _ => trivial
  | (i, w) :: r, h => by
    unfold Store.ins
    split
    · next hk => exact ⟨hk, h⟩
    · split
      · next e => subst e; exact h
      · exact Store.above_ins (by omega) v h

/-- An insertion brings in no entry but its own. -/
theorem Store.ins_subset (k : Nat) (v : α) : ∀ st : Store α, Store.ins k v st ⊆ (k, v) :: st
  | [] => List.Subset.refl _
  | (i, w) :: r => by
    have below := List.cons_subset_cons (k, v) (List.subset_cons_self (i, w) r)
    unfold Store.ins
    split
    · exact List.Subset.refl _
    · split
      · exact below
      · exact List.cons_subset.2 ⟨List.mem_cons_of_mem _ List.mem_cons_self, List.Subset.trans (Store.ins_subset k v r) below⟩

theorem Store.mem_ins {k : Nat} {v : α} {e : Nat × α} {st : Store α} (h : e ∈ Store.ins k v st) : e = (k, v) ∨ e ∈ st :=
  List.mem_cons.1 (Store.ins_subset k v st h)

/-! ## Filters -/

theorem Store.above_filter {b : Nat} (p : Nat × α → Bool) : ∀ {st : Store α}, Store.above b st → Store.above b (st.filter p)
  | [], _ => trivial
  | e :: r, ⟨h1, h2⟩ => by
    rw [List.filter_cons]
    split
    · exact ⟨h1, Store.above_filter p h2⟩
    · exact Store.above_filter p (Store.above_mono (Nat.le_of_lt h1) h2)

theorem Store.rising_filter (p : Nat × α → Bool) : ∀ {st : Store α}, Store.rising st → Store.rising (st.filter p)
  | [], _ => trivial
  | e :: r, h => by
    rw [List.filter_cons]
    split
    · exact Store.above_filter p h
    · exact Store.above_rising (Store.above_filter p h)

/-- Leaving entries out keeps the canonical form. -/
theorem Store.canon_filter [DecidableEq α] {d : α} {st : Store α} (p : Nat × α → Bool)
    (h : Store.canon d st = true) : Store.canon d (st.filter p) = true := by
  rw [Store.canon_iff] at h ⊢
  exact ⟨Store.rising_filter p h.1, fun e he => h.2 e (List.mem_filter.1 he).1⟩

theorem Store.find_filter_of_true {p : Nat × α → Bool} {k : Nat} (hp : ∀ v, p (k, v) = true) :
    ∀ st : Store α, Store.find k (st.filter p) = Store.find k st
  | [] => rfl
  | (j, v) :: r => by
    rw [List.filter_cons, Store.find_cons]
    by_cases hj : j = k
    · subst hj; simp [hp, Store.find_cons]
    · rw [if_neg hj]
      split
      · rw [Store.find_cons, if_neg hj, Store.find_filter_of_true hp r]
      · exact Store.find_filter_of_true hp r

/-! ## Writing -/

theorem Store.canon_del [DecidableEq α] {d : α} {st : Store α} (k : Nat) (h : Store.canon d st = true) :
    Store.canon d (st.del k) = true := Store.canon_filter _ h

theorem Store.canon_put [DecidableEq α] {d : α} {st : Store α} (k : Nat) (v : α) (h : Store.canon d st = true) :
    Store.canon d (Store.put d k v st) = true := by
  unfold Store.put
  split
  · exact Store.canon_del k h
  · next hv =>
    rw [Store.canon_iff] at h ⊢
    refine ⟨Store.rising_ins k v h.1, fun e he => ?_⟩
    rcases Store.mem_ins he with rfl | he
    · exact hv
    · exact h.2 e he

theorem Store.canon_putAll [DecidableEq α] {d : α} : ∀ (vs : List α) (k : Nat) {st : Store α},
    Store.canon d st = true → Store.canon d (Store.putAll d k vs st) = true
  | [], _, _, h => h
  | v :: vs, k, _, h => Store.canon_putAll vs (k + 1) (Store.canon_put k v h)

theorem Store.canon_foldl_put [DecidableEq α] {β : Type} {d : α} (f : β → Nat) (g : β → α) :
    ∀ (l : List β) {st : Store α}, Store.canon d st = true →
      Store.canon d (l.foldl (fun st e => Store.put d (f e) (g e) st) st) = true
  | [], _, h => h
  | e :: l, _, h => Store.canon_foldl_put f g l (Store.canon_put (f e) (g e) h)

theorem Store.find_del_ne {k j : Nat} (h : k ≠ j) (st : Store α) : Store.find j (st.del k) = Store.find j st :=
  Store.find_filter_of_true (fun _ => by simpa using Ne.symm h) st

theorem Store.find_put_ne [DecidableEq α] {k j : Nat} (h : k ≠ j) (d v : α) (st : Store α) :
    Store.find j (Store.put d k v st) = Store.find j st := by
  unfold Store.put
  split
  · exact Store.find_del_ne h st
  · exact Store.find_ins_ne h v st

theorem Store.find_del_self (k : Nat) : ∀ st : Store α, Store.find k (st.del k) = none
  | [] => rfl
  | (j, v) :: r => by
    have ih := Store.find_del_self k r
    simp only [Store.del] at ih ⊢
    rw [List.filter_cons]
    split
    · next h => rw [Store.find_cons, if_neg (by simpa using h), ih]
    · exact ih

/-- Reading what was written. -/
@[simp] theorem Store.get_put_self [DecidableEq α] (d v : α) (k : Nat) (st : Store α) :
    Store.get d (Store.put d k v st) k = v := by
  unfold Store.get Store.put
  split
  · next h => rw [Store.find_del_self, h]; rfl
  · rw [Store.find_ins_self]; rfl

/-- A write leaves every other key alone. -/
theorem Store.get_put_ne [DecidableEq α] {k j : Nat} (h : k ≠ j) (d e v : α) (st : Store α) :
    Store.get e (Store.put d k v st) j = Store.get e st j := by
  unfold Store.get; rw [Store.find_put_ne h]

theorem Store.get_upd_self [DecidableEq α] (d : α) (f : α → α) (k : Nat) (st : Store α) :
    Store.get d (Store.upd d k f st) k = f (Store.get d st k) := Store.get_put_self ..

theorem Store.get_upd_ne [DecidableEq α] {k j : Nat} (h : k ≠ j) (d e : α) (f : α → α) (st : Store α) :
    Store.get e (Store.upd d k f st) j = Store.get e st j := Store.get_put_ne h ..

/-- Writing consecutive values leaves the keys outside them alone. -/
theorem Store.get_putAll_of_not_mem [DecidableEq α] {d e : α} {j : Nat} : ∀ (vs : List α) (k : Nat) (st : Store α),
    j < k ∨ k + vs.length ≤ j → Store.get e (Store.putAll d k vs st) j = Store.get e st j
  | [], _, _, _ => rfl
  | v :: vs, k, st, h => by
    have hl : (v :: vs).length = vs.length + 1 := rfl
    rw [Store.putAll, Store.get_putAll_of_not_mem vs (k + 1) _ (by omega), Store.get_put_ne (by omega)]

/-- Reading consecutive values that were written. -/
theorem Store.getAll_putAll_self [DecidableEq α] {d : α} : ∀ (vs : List α) (k : Nat) (st : Store α),
    Store.getAll d (Store.putAll d k vs st) k vs.length = vs
  | [], _, _ => rfl
  | v :: vs, k, st => by
    rw [List.length_cons, Store.getAll, Store.putAll, Store.get_putAll_of_not_mem vs (k + 1) _ (.inl (by omega)),
      Store.get_put_self, Store.getAll_putAll_self vs (k + 1)]

end Sys2Proof.Machine
end

