-- ==== Sys2Proof/Laws/State.lean ====
section
/-! SUPPORT. What each update of the state leaves alone, field by field. -/

namespace Sys2Proof.Machine

variable (s : State)

/-! ## setFk -/

@[simp] theorem setFk_pending (f : Fld) (i k v : Nat) : (setFk f i k v s).pending = s.pending := rfl
@[simp] theorem setFk_hiLatch (f : Fld) (i k v : Nat) : (setFk f i k v s).hiLatch = s.hiLatch := rfl
@[simp] theorem setFk_mem (f : Fld) (i k v : Nat) : (setFk f i k v s).mem = s.mem := rfl
@[simp] theorem setFk_poison (f : Fld) (i k v : Nat) : (setFk f i k v s).poison = s.poison := rfl
@[simp] theorem setFk_sram (f : Fld) (i k v : Nat) : (setFk f i k v s).sram = s.sram := rfl
@[simp] theorem setFk_hmem (f : Fld) (i k v : Nat) : (setFk f i k v s).hmem = s.hmem := rfl
@[simp] theorem setFk_otp (f : Fld) (i k v : Nat) : (setFk f i k v s).otp = s.otp := rfl
@[simp] theorem setFk_responses (f : Fld) (i k v : Nat) : (setFk f i k v s).responses = s.responses := rfl
@[simp] theorem setFk_mcs (f : Fld) (i k v : Nat) : (setFk f i k v s).mcs = s.mcs := rfl
@[simp] theorem setFk_window (f : Fld) (i k v : Nat) : (setFk f i k v s).window = s.window := rfl
@[simp] theorem setFk_sluices (f : Fld) (i k v : Nat) : (setFk f i k v s).sluices = s.sluices := rfl
@[simp] theorem setFk_objs (f : Fld) (i k v : Nat) : (setFk f i k v s).objs = s.objs := rfl
@[simp] theorem setFk_releases (f : Fld) (i k v : Nat) : (setFk f i k v s).releases = s.releases := rfl
@[simp] theorem setFk_crossing (f : Fld) (i k v : Nat) : (setFk f i k v s).crossing = s.crossing := rfl
@[simp] theorem setFk_clusters (f : Fld) (i k v : Nat) : (setFk f i k v s).clusters = s.clusters := rfl
@[simp] theorem setFk_units (f : Fld) (i k v : Nat) : (setFk f i k v s).units = s.units := rfl
@[simp] theorem setFk_seqs (f : Fld) (i k v : Nat) : (setFk f i k v s).seqs = s.seqs := rfl
@[simp] theorem setFk_cul (f : Fld) (i k v : Nat) : (setFk f i k v s).cul = s.cul := rfl
@[simp] theorem setFk_degSet (f : Fld) (i k v : Nat) : (setFk f i k v s).degSet = s.degSet := rfl
@[simp] theorem setFk_degClear (f : Fld) (i k v : Nat) : (setFk f i k v s).degClear = s.degClear := rfl
@[simp] theorem setFk_ctxs (f : Fld) (i k v : Nat) : (setFk f i k v s).ctxs = s.ctxs := rfl
@[simp] theorem setFk_reports (f : Fld) (i k v : Nat) : (setFk f i k v s).reports = s.reports := rfl
@[simp] theorem setFk_lastClosed (f : Fld) (i k v : Nat) : (setFk f i k v s).lastClosed = s.lastClosed := rfl
@[simp] theorem setFk_jwide (f : Fld) (i k v : Nat) : (setFk f i k v s).jwide = s.jwide := rfl
@[simp] theorem setFk_ports (f : Fld) (i k v : Nat) : (setFk f i k v s).ports = s.ports := rfl
@[simp] theorem setFk_txStreams (f : Fld) (i k v : Nat) : (setFk f i k v s).txStreams = s.txStreams := rfl
@[simp] theorem setFk_rxStreams (f : Fld) (i k v : Nat) : (setFk f i k v s).rxStreams = s.rxStreams := rfl
@[simp] theorem setFk_sendq (f : Fld) (i k v : Nat) : (setFk f i k v s).sendq = s.sendq := rfl
@[simp] theorem setFk_inbox (f : Fld) (i k v : Nat) : (setFk f i k v s).inbox = s.inbox := rfl
@[simp] theorem setFk_mbx (f : Fld) (i k v : Nat) : (setFk f i k v s).mbx = s.mbx := rfl
@[simp] theorem setFk_otpq (f : Fld) (i k v : Nat) : (setFk f i k v s).otpq = s.otpq := rfl
@[simp] theorem setFk_romProg (f : Fld) (i k v : Nat) : (setFk f i k v s).romProg = s.romProg := rfl
@[simp] theorem setFk_bootKeys (f : Fld) (i k v : Nat) : (setFk f i k v s).bootKeys = s.bootKeys := rfl
@[simp] theorem setFk_pow (f : Fld) (i k v : Nat) : (setFk f i k v s).pow = s.pow := rfl
@[simp] theorem setFk_brk (f : Fld) (i k v : Nat) : (setFk f i k v s).brk = s.brk := rfl
@[simp] theorem setFk_faultN (f : Fld) (i k v : Nat) : (setFk f i k v s).faultN = s.faultN := rfl
@[simp] theorem setFk_inReset (f : Fld) (i k v : Nat) : (setFk f i k v s).inReset = s.inReset := rfl
@[simp] theorem setFk_dbg (f : Fld) (i k v : Nat) : (setFk f i k v s).dbg = s.dbg := rfl
@[simp] theorem setFk_gauge (f : Fld) (i k v : Nat) : (setFk f i k v s).gauge = s.gauge := rfl
@[simp] theorem setFk_strapPos (f : Fld) (i k v : Nat) : (setFk f i k v s).strapPos = s.strapPos := rfl
@[simp] theorem setFk_strapGaddr (f : Fld) (i k v : Nat) : (setFk f i k v s).strapGaddr = s.strapGaddr := rfl
@[simp] theorem setFk_vfEnable (f : Fld) (i k v : Nat) : (setFk f i k v s).vfEnable = s.vfEnable := rfl
@[simp] theorem setFk_numVfs (f : Fld) (i k v : Nat) : (setFk f i k v s).numVfs = s.numVfs := rfl
@[simp] theorem setFk_out (f : Fld) (i k v : Nat) : (setFk f i k v s).out = s.out := rfl
@[simp] theorem setFk_freeCtr (f : Fld) (i k v : Nat) : (setFk f i k v s).freeCtr = s.freeCtr := rfl

/-! ## setF -/

@[simp] theorem setF_pending (f : Fld) (i v : Nat) : (setF f i v s).pending = s.pending := rfl
@[simp] theorem setF_hiLatch (f : Fld) (i v : Nat) : (setF f i v s).hiLatch = s.hiLatch := rfl
@[simp] theorem setF_mem (f : Fld) (i v : Nat) : (setF f i v s).mem = s.mem := rfl
@[simp] theorem setF_poison (f : Fld) (i v : Nat) : (setF f i v s).poison = s.poison := rfl
@[simp] theorem setF_sram (f : Fld) (i v : Nat) : (setF f i v s).sram = s.sram := rfl
@[simp] theorem setF_hmem (f : Fld) (i v : Nat) : (setF f i v s).hmem = s.hmem := rfl
@[simp] theorem setF_otp (f : Fld) (i v : Nat) : (setF f i v s).otp = s.otp := rfl
@[simp] theorem setF_responses (f : Fld) (i v : Nat) : (setF f i v s).responses = s.responses := rfl
@[simp] theorem setF_mcs (f : Fld) (i v : Nat) : (setF f i v s).mcs = s.mcs := rfl
@[simp] theorem setF_window (f : Fld) (i v : Nat) : (setF f i v s).window = s.window := rfl
@[simp] theorem setF_sluices (f : Fld) (i v : Nat) : (setF f i v s).sluices = s.sluices := rfl
@[simp] theorem setF_objs (f : Fld) (i v : Nat) : (setF f i v s).objs = s.objs := rfl
@[simp] theorem setF_releases (f : Fld) (i v : Nat) : (setF f i v s).releases = s.releases := rfl
@[simp] theorem setF_crossing (f : Fld) (i v : Nat) : (setF f i v s).crossing = s.crossing := rfl
@[simp] theorem setF_clusters (f : Fld) (i v : Nat) : (setF f i v s).clusters = s.clusters := rfl
@[simp] theorem setF_units (f : Fld) (i v : Nat) : (setF f i v s).units = s.units := rfl
@[simp] theorem setF_seqs (f : Fld) (i v : Nat) : (setF f i v s).seqs = s.seqs := rfl
@[simp] theorem setF_cul (f : Fld) (i v : Nat) : (setF f i v s).cul = s.cul := rfl
@[simp] theorem setF_degSet (f : Fld) (i v : Nat) : (setF f i v s).degSet = s.degSet := rfl
@[simp] theorem setF_degClear (f : Fld) (i v : Nat) : (setF f i v s).degClear = s.degClear := rfl
@[simp] theorem setF_ctxs (f : Fld) (i v : Nat) : (setF f i v s).ctxs = s.ctxs := rfl
@[simp] theorem setF_reports (f : Fld) (i v : Nat) : (setF f i v s).reports = s.reports := rfl
@[simp] theorem setF_lastClosed (f : Fld) (i v : Nat) : (setF f i v s).lastClosed = s.lastClosed := rfl
@[simp] theorem setF_jwide (f : Fld) (i v : Nat) : (setF f i v s).jwide = s.jwide := rfl
@[simp] theorem setF_ports (f : Fld) (i v : Nat) : (setF f i v s).ports = s.ports := rfl
@[simp] theorem setF_txStreams (f : Fld) (i v : Nat) : (setF f i v s).txStreams = s.txStreams := rfl
@[simp] theorem setF_rxStreams (f : Fld) (i v : Nat) : (setF f i v s).rxStreams = s.rxStreams := rfl
@[simp] theorem setF_sendq (f : Fld) (i v : Nat) : (setF f i v s).sendq = s.sendq := rfl
@[simp] theorem setF_inbox (f : Fld) (i v : Nat) : (setF f i v s).inbox = s.inbox := rfl
@[simp] theorem setF_mbx (f : Fld) (i v : Nat) : (setF f i v s).mbx = s.mbx := rfl
@[simp] theorem setF_otpq (f : Fld) (i v : Nat) : (setF f i v s).otpq = s.otpq := rfl
@[simp] theorem setF_romProg (f : Fld) (i v : Nat) : (setF f i v s).romProg = s.romProg := rfl
@[simp] theorem setF_bootKeys (f : Fld) (i v : Nat) : (setF f i v s).bootKeys = s.bootKeys := rfl
@[simp] theorem setF_pow (f : Fld) (i v : Nat) : (setF f i v s).pow = s.pow := rfl
@[simp] theorem setF_brk (f : Fld) (i v : Nat) : (setF f i v s).brk = s.brk := rfl
@[simp] theorem setF_faultN (f : Fld) (i v : Nat) : (setF f i v s).faultN = s.faultN := rfl
@[simp] theorem setF_inReset (f : Fld) (i v : Nat) : (setF f i v s).inReset = s.inReset := rfl
@[simp] theorem setF_dbg (f : Fld) (i v : Nat) : (setF f i v s).dbg = s.dbg := rfl
@[simp] theorem setF_gauge (f : Fld) (i v : Nat) : (setF f i v s).gauge = s.gauge := rfl
@[simp] theorem setF_strapPos (f : Fld) (i v : Nat) : (setF f i v s).strapPos = s.strapPos := rfl
@[simp] theorem setF_strapGaddr (f : Fld) (i v : Nat) : (setF f i v s).strapGaddr = s.strapGaddr := rfl
@[simp] theorem setF_vfEnable (f : Fld) (i v : Nat) : (setF f i v s).vfEnable = s.vfEnable := rfl
@[simp] theorem setF_numVfs (f : Fld) (i v : Nat) : (setF f i v s).numVfs = s.numVfs := rfl
@[simp] theorem setF_out (f : Fld) (i v : Nat) : (setF f i v s).out = s.out := rfl
@[simp] theorem setF_freeCtr (f : Fld) (i v : Nat) : (setF f i v s).freeCtr = s.freeCtr := rfl

/-! ## addFk -/

@[simp] theorem addFk_pending (f : Fld) (i k n : Nat) : (addFk f i k n s).pending = s.pending := rfl
@[simp] theorem addFk_hiLatch (f : Fld) (i k n : Nat) : (addFk f i k n s).hiLatch = s.hiLatch := rfl
@[simp] theorem addFk_mem (f : Fld) (i k n : Nat) : (addFk f i k n s).mem = s.mem := rfl
@[simp] theorem addFk_poison (f : Fld) (i k n : Nat) : (addFk f i k n s).poison = s.poison := rfl
@[simp] theorem addFk_sram (f : Fld) (i k n : Nat) : (addFk f i k n s).sram = s.sram := rfl
@[simp] theorem addFk_hmem (f : Fld) (i k n : Nat) : (addFk f i k n s).hmem = s.hmem := rfl
@[simp] theorem addFk_otp (f : Fld) (i k n : Nat) : (addFk f i k n s).otp = s.otp := rfl
@[simp] theorem addFk_responses (f : Fld) (i k n : Nat) : (addFk f i k n s).responses = s.responses := rfl
@[simp] theorem addFk_mcs (f : Fld) (i k n : Nat) : (addFk f i k n s).mcs = s.mcs := rfl
@[simp] theorem addFk_window (f : Fld) (i k n : Nat) : (addFk f i k n s).window = s.window := rfl
@[simp] theorem addFk_sluices (f : Fld) (i k n : Nat) : (addFk f i k n s).sluices = s.sluices := rfl
@[simp] theorem addFk_objs (f : Fld) (i k n : Nat) : (addFk f i k n s).objs = s.objs := rfl
@[simp] theorem addFk_releases (f : Fld) (i k n : Nat) : (addFk f i k n s).releases = s.releases := rfl
@[simp] theorem addFk_crossing (f : Fld) (i k n : Nat) : (addFk f i k n s).crossing = s.crossing := rfl
@[simp] theorem addFk_clusters (f : Fld) (i k n : Nat) : (addFk f i k n s).clusters = s.clusters := rfl
@[simp] theorem addFk_units (f : Fld) (i k n : Nat) : (addFk f i k n s).units = s.units := rfl
@[simp] theorem addFk_seqs (f : Fld) (i k n : Nat) : (addFk f i k n s).seqs = s.seqs := rfl
@[simp] theorem addFk_cul (f : Fld) (i k n : Nat) : (addFk f i k n s).cul = s.cul := rfl
@[simp] theorem addFk_degSet (f : Fld) (i k n : Nat) : (addFk f i k n s).degSet = s.degSet := rfl
@[simp] theorem addFk_degClear (f : Fld) (i k n : Nat) : (addFk f i k n s).degClear = s.degClear := rfl
@[simp] theorem addFk_ctxs (f : Fld) (i k n : Nat) : (addFk f i k n s).ctxs = s.ctxs := rfl
@[simp] theorem addFk_reports (f : Fld) (i k n : Nat) : (addFk f i k n s).reports = s.reports := rfl
@[simp] theorem addFk_lastClosed (f : Fld) (i k n : Nat) : (addFk f i k n s).lastClosed = s.lastClosed := rfl
@[simp] theorem addFk_jwide (f : Fld) (i k n : Nat) : (addFk f i k n s).jwide = s.jwide := rfl
@[simp] theorem addFk_ports (f : Fld) (i k n : Nat) : (addFk f i k n s).ports = s.ports := rfl
@[simp] theorem addFk_txStreams (f : Fld) (i k n : Nat) : (addFk f i k n s).txStreams = s.txStreams := rfl
@[simp] theorem addFk_rxStreams (f : Fld) (i k n : Nat) : (addFk f i k n s).rxStreams = s.rxStreams := rfl
@[simp] theorem addFk_sendq (f : Fld) (i k n : Nat) : (addFk f i k n s).sendq = s.sendq := rfl
@[simp] theorem addFk_inbox (f : Fld) (i k n : Nat) : (addFk f i k n s).inbox = s.inbox := rfl
@[simp] theorem addFk_mbx (f : Fld) (i k n : Nat) : (addFk f i k n s).mbx = s.mbx := rfl
@[simp] theorem addFk_otpq (f : Fld) (i k n : Nat) : (addFk f i k n s).otpq = s.otpq := rfl
@[simp] theorem addFk_romProg (f : Fld) (i k n : Nat) : (addFk f i k n s).romProg = s.romProg := rfl
@[simp] theorem addFk_bootKeys (f : Fld) (i k n : Nat) : (addFk f i k n s).bootKeys = s.bootKeys := rfl
@[simp] theorem addFk_pow (f : Fld) (i k n : Nat) : (addFk f i k n s).pow = s.pow := rfl
@[simp] theorem addFk_brk (f : Fld) (i k n : Nat) : (addFk f i k n s).brk = s.brk := rfl
@[simp] theorem addFk_faultN (f : Fld) (i k n : Nat) : (addFk f i k n s).faultN = s.faultN := rfl
@[simp] theorem addFk_inReset (f : Fld) (i k n : Nat) : (addFk f i k n s).inReset = s.inReset := rfl
@[simp] theorem addFk_dbg (f : Fld) (i k n : Nat) : (addFk f i k n s).dbg = s.dbg := rfl
@[simp] theorem addFk_gauge (f : Fld) (i k n : Nat) : (addFk f i k n s).gauge = s.gauge := rfl
@[simp] theorem addFk_strapPos (f : Fld) (i k n : Nat) : (addFk f i k n s).strapPos = s.strapPos := rfl
@[simp] theorem addFk_strapGaddr (f : Fld) (i k n : Nat) : (addFk f i k n s).strapGaddr = s.strapGaddr := rfl
@[simp] theorem addFk_vfEnable (f : Fld) (i k n : Nat) : (addFk f i k n s).vfEnable = s.vfEnable := rfl
@[simp] theorem addFk_numVfs (f : Fld) (i k n : Nat) : (addFk f i k n s).numVfs = s.numVfs := rfl
@[simp] theorem addFk_out (f : Fld) (i k n : Nat) : (addFk f i k n s).out = s.out := rfl
@[simp] theorem addFk_freeCtr (f : Fld) (i k n : Nat) : (addFk f i k n s).freeCtr = s.freeCtr := rfl

/-! ## addF -/

@[simp] theorem addF_pending (f : Fld) (i n : Nat) : (addF f i n s).pending = s.pending := rfl
@[simp] theorem addF_hiLatch (f : Fld) (i n : Nat) : (addF f i n s).hiLatch = s.hiLatch := rfl
@[simp] theorem addF_mem (f : Fld) (i n : Nat) : (addF f i n s).mem = s.mem := rfl
@[simp] theorem addF_poison (f : Fld) (i n : Nat) : (addF f i n s).poison = s.poison := rfl
@[simp] theorem addF_sram (f : Fld) (i n : Nat) : (addF f i n s).sram = s.sram := rfl
@[simp] theorem addF_hmem (f : Fld) (i n : Nat) : (addF f i n s).hmem = s.hmem := rfl
@[simp] theorem addF_otp (f : Fld) (i n : Nat) : (addF f i n s).otp = s.otp := rfl
@[simp] theorem addF_responses (f : Fld) (i n : Nat) : (addF f i n s).responses = s.responses := rfl
@[simp] theorem addF_mcs (f : Fld) (i n : Nat) : (addF f i n s).mcs = s.mcs := rfl
@[simp] theorem addF_window (f : Fld) (i n : Nat) : (addF f i n s).window = s.window := rfl
@[simp] theorem addF_sluices (f : Fld) (i n : Nat) : (addF f i n s).sluices = s.sluices := rfl
@[simp] theorem addF_objs (f : Fld) (i n : Nat) : (addF f i n s).objs = s.objs := rfl
@[simp] theorem addF_releases (f : Fld) (i n : Nat) : (addF f i n s).releases = s.releases := rfl
@[simp] theorem addF_crossing (f : Fld) (i n : Nat) : (addF f i n s).crossing = s.crossing := rfl
@[simp] theorem addF_clusters (f : Fld) (i n : Nat) : (addF f i n s).clusters = s.clusters := rfl
@[simp] theorem addF_units (f : Fld) (i n : Nat) : (addF f i n s).units = s.units := rfl
@[simp] theorem addF_seqs (f : Fld) (i n : Nat) : (addF f i n s).seqs = s.seqs := rfl
@[simp] theorem addF_cul (f : Fld) (i n : Nat) : (addF f i n s).cul = s.cul := rfl
@[simp] theorem addF_degSet (f : Fld) (i n : Nat) : (addF f i n s).degSet = s.degSet := rfl
@[simp] theorem addF_degClear (f : Fld) (i n : Nat) : (addF f i n s).degClear = s.degClear := rfl
@[simp] theorem addF_ctxs (f : Fld) (i n : Nat) : (addF f i n s).ctxs = s.ctxs := rfl
@[simp] theorem addF_reports (f : Fld) (i n : Nat) : (addF f i n s).reports = s.reports := rfl
@[simp] theorem addF_lastClosed (f : Fld) (i n : Nat) : (addF f i n s).lastClosed = s.lastClosed := rfl
@[simp] theorem addF_jwide (f : Fld) (i n : Nat) : (addF f i n s).jwide = s.jwide := rfl
@[simp] theorem addF_ports (f : Fld) (i n : Nat) : (addF f i n s).ports = s.ports := rfl
@[simp] theorem addF_txStreams (f : Fld) (i n : Nat) : (addF f i n s).txStreams = s.txStreams := rfl
@[simp] theorem addF_rxStreams (f : Fld) (i n : Nat) : (addF f i n s).rxStreams = s.rxStreams := rfl
@[simp] theorem addF_sendq (f : Fld) (i n : Nat) : (addF f i n s).sendq = s.sendq := rfl
@[simp] theorem addF_inbox (f : Fld) (i n : Nat) : (addF f i n s).inbox = s.inbox := rfl
@[simp] theorem addF_mbx (f : Fld) (i n : Nat) : (addF f i n s).mbx = s.mbx := rfl
@[simp] theorem addF_otpq (f : Fld) (i n : Nat) : (addF f i n s).otpq = s.otpq := rfl
@[simp] theorem addF_romProg (f : Fld) (i n : Nat) : (addF f i n s).romProg = s.romProg := rfl
@[simp] theorem addF_bootKeys (f : Fld) (i n : Nat) : (addF f i n s).bootKeys = s.bootKeys := rfl
@[simp] theorem addF_pow (f : Fld) (i n : Nat) : (addF f i n s).pow = s.pow := rfl
@[simp] theorem addF_brk (f : Fld) (i n : Nat) : (addF f i n s).brk = s.brk := rfl
@[simp] theorem addF_faultN (f : Fld) (i n : Nat) : (addF f i n s).faultN = s.faultN := rfl
@[simp] theorem addF_inReset (f : Fld) (i n : Nat) : (addF f i n s).inReset = s.inReset := rfl
@[simp] theorem addF_dbg (f : Fld) (i n : Nat) : (addF f i n s).dbg = s.dbg := rfl
@[simp] theorem addF_gauge (f : Fld) (i n : Nat) : (addF f i n s).gauge = s.gauge := rfl
@[simp] theorem addF_strapPos (f : Fld) (i n : Nat) : (addF f i n s).strapPos = s.strapPos := rfl
@[simp] theorem addF_strapGaddr (f : Fld) (i n : Nat) : (addF f i n s).strapGaddr = s.strapGaddr := rfl
@[simp] theorem addF_vfEnable (f : Fld) (i n : Nat) : (addF f i n s).vfEnable = s.vfEnable := rfl
@[simp] theorem addF_numVfs (f : Fld) (i n : Nat) : (addF f i n s).numVfs = s.numVfs := rfl
@[simp] theorem addF_out (f : Fld) (i n : Nat) : (addF f i n s).out = s.out := rfl
@[simp] theorem addF_freeCtr (f : Fld) (i n : Nat) : (addF f i n s).freeCtr = s.freeCtr := rfl

/-! ## incr -/

@[simp] theorem incr_pending (f : Fld) (i : Nat) : (incr f i s).pending = s.pending := rfl
@[simp] theorem incr_hiLatch (f : Fld) (i : Nat) : (incr f i s).hiLatch = s.hiLatch := rfl
@[simp] theorem incr_mem (f : Fld) (i : Nat) : (incr f i s).mem = s.mem := rfl
@[simp] theorem incr_poison (f : Fld) (i : Nat) : (incr f i s).poison = s.poison := rfl
@[simp] theorem incr_sram (f : Fld) (i : Nat) : (incr f i s).sram = s.sram := rfl
@[simp] theorem incr_hmem (f : Fld) (i : Nat) : (incr f i s).hmem = s.hmem := rfl
@[simp] theorem incr_otp (f : Fld) (i : Nat) : (incr f i s).otp = s.otp := rfl
@[simp] theorem incr_responses (f : Fld) (i : Nat) : (incr f i s).responses = s.responses := rfl
@[simp] theorem incr_mcs (f : Fld) (i : Nat) : (incr f i s).mcs = s.mcs := rfl
@[simp] theorem incr_window (f : Fld) (i : Nat) : (incr f i s).window = s.window := rfl
@[simp] theorem incr_sluices (f : Fld) (i : Nat) : (incr f i s).sluices = s.sluices := rfl
@[simp] theorem incr_objs (f : Fld) (i : Nat) : (incr f i s).objs = s.objs := rfl
@[simp] theorem incr_releases (f : Fld) (i : Nat) : (incr f i s).releases = s.releases := rfl
@[simp] theorem incr_crossing (f : Fld) (i : Nat) : (incr f i s).crossing = s.crossing := rfl
@[simp] theorem incr_clusters (f : Fld) (i : Nat) : (incr f i s).clusters = s.clusters := rfl
@[simp] theorem incr_units (f : Fld) (i : Nat) : (incr f i s).units = s.units := rfl
@[simp] theorem incr_seqs (f : Fld) (i : Nat) : (incr f i s).seqs = s.seqs := rfl
@[simp] theorem incr_cul (f : Fld) (i : Nat) : (incr f i s).cul = s.cul := rfl
@[simp] theorem incr_degSet (f : Fld) (i : Nat) : (incr f i s).degSet = s.degSet := rfl
@[simp] theorem incr_degClear (f : Fld) (i : Nat) : (incr f i s).degClear = s.degClear := rfl
@[simp] theorem incr_ctxs (f : Fld) (i : Nat) : (incr f i s).ctxs = s.ctxs := rfl
@[simp] theorem incr_reports (f : Fld) (i : Nat) : (incr f i s).reports = s.reports := rfl
@[simp] theorem incr_lastClosed (f : Fld) (i : Nat) : (incr f i s).lastClosed = s.lastClosed := rfl
@[simp] theorem incr_jwide (f : Fld) (i : Nat) : (incr f i s).jwide = s.jwide := rfl
@[simp] theorem incr_ports (f : Fld) (i : Nat) : (incr f i s).ports = s.ports := rfl
@[simp] theorem incr_txStreams (f : Fld) (i : Nat) : (incr f i s).txStreams = s.txStreams := rfl
@[simp] theorem incr_rxStreams (f : Fld) (i : Nat) : (incr f i s).rxStreams = s.rxStreams := rfl
@[simp] theorem incr_sendq (f : Fld) (i : Nat) : (incr f i s).sendq = s.sendq := rfl
@[simp] theorem incr_inbox (f : Fld) (i : Nat) : (incr f i s).inbox = s.inbox := rfl
@[simp] theorem incr_mbx (f : Fld) (i : Nat) : (incr f i s).mbx = s.mbx := rfl
@[simp] theorem incr_otpq (f : Fld) (i : Nat) : (incr f i s).otpq = s.otpq := rfl
@[simp] theorem incr_romProg (f : Fld) (i : Nat) : (incr f i s).romProg = s.romProg := rfl
@[simp] theorem incr_bootKeys (f : Fld) (i : Nat) : (incr f i s).bootKeys = s.bootKeys := rfl
@[simp] theorem incr_pow (f : Fld) (i : Nat) : (incr f i s).pow = s.pow := rfl
@[simp] theorem incr_brk (f : Fld) (i : Nat) : (incr f i s).brk = s.brk := rfl
@[simp] theorem incr_faultN (f : Fld) (i : Nat) : (incr f i s).faultN = s.faultN := rfl
@[simp] theorem incr_inReset (f : Fld) (i : Nat) : (incr f i s).inReset = s.inReset := rfl
@[simp] theorem incr_dbg (f : Fld) (i : Nat) : (incr f i s).dbg = s.dbg := rfl
@[simp] theorem incr_gauge (f : Fld) (i : Nat) : (incr f i s).gauge = s.gauge := rfl
@[simp] theorem incr_strapPos (f : Fld) (i : Nat) : (incr f i s).strapPos = s.strapPos := rfl
@[simp] theorem incr_strapGaddr (f : Fld) (i : Nat) : (incr f i s).strapGaddr = s.strapGaddr := rfl
@[simp] theorem incr_vfEnable (f : Fld) (i : Nat) : (incr f i s).vfEnable = s.vfEnable := rfl
@[simp] theorem incr_numVfs (f : Fld) (i : Nat) : (incr f i s).numVfs = s.numVfs := rfl
@[simp] theorem incr_out (f : Fld) (i : Nat) : (incr f i s).out = s.out := rfl
@[simp] theorem incr_freeCtr (f : Fld) (i : Nat) : (incr f i s).freeCtr = s.freeCtr := rfl

/-! ## emit -/

@[simp] theorem emit_pending (o : Out) : (emit o s).pending = s.pending := rfl
@[simp] theorem emit_regs (o : Out) : (emit o s).regs = s.regs := rfl
@[simp] theorem emit_hiLatch (o : Out) : (emit o s).hiLatch = s.hiLatch := rfl
@[simp] theorem emit_mem (o : Out) : (emit o s).mem = s.mem := rfl
@[simp] theorem emit_poison (o : Out) : (emit o s).poison = s.poison := rfl
@[simp] theorem emit_sram (o : Out) : (emit o s).sram = s.sram := rfl
@[simp] theorem emit_hmem (o : Out) : (emit o s).hmem = s.hmem := rfl
@[simp] theorem emit_otp (o : Out) : (emit o s).otp = s.otp := rfl
@[simp] theorem emit_responses (o : Out) : (emit o s).responses = s.responses := rfl
@[simp] theorem emit_mcs (o : Out) : (emit o s).mcs = s.mcs := rfl
@[simp] theorem emit_window (o : Out) : (emit o s).window = s.window := rfl
@[simp] theorem emit_sluices (o : Out) : (emit o s).sluices = s.sluices := rfl
@[simp] theorem emit_objs (o : Out) : (emit o s).objs = s.objs := rfl
@[simp] theorem emit_releases (o : Out) : (emit o s).releases = s.releases := rfl
@[simp] theorem emit_crossing (o : Out) : (emit o s).crossing = s.crossing := rfl
@[simp] theorem emit_clusters (o : Out) : (emit o s).clusters = s.clusters := rfl
@[simp] theorem emit_units (o : Out) : (emit o s).units = s.units := rfl
@[simp] theorem emit_seqs (o : Out) : (emit o s).seqs = s.seqs := rfl
@[simp] theorem emit_cul (o : Out) : (emit o s).cul = s.cul := rfl
@[simp] theorem emit_degSet (o : Out) : (emit o s).degSet = s.degSet := rfl
@[simp] theorem emit_degClear (o : Out) : (emit o s).degClear = s.degClear := rfl
@[simp] theorem emit_ctxs (o : Out) : (emit o s).ctxs = s.ctxs := rfl
@[simp] theorem emit_reports (o : Out) : (emit o s).reports = s.reports := rfl
@[simp] theorem emit_lastClosed (o : Out) : (emit o s).lastClosed = s.lastClosed := rfl
@[simp] theorem emit_jwide (o : Out) : (emit o s).jwide = s.jwide := rfl
@[simp] theorem emit_ports (o : Out) : (emit o s).ports = s.ports := rfl
@[simp] theorem emit_txStreams (o : Out) : (emit o s).txStreams = s.txStreams := rfl
@[simp] theorem emit_rxStreams (o : Out) : (emit o s).rxStreams = s.rxStreams := rfl
@[simp] theorem emit_sendq (o : Out) : (emit o s).sendq = s.sendq := rfl
@[simp] theorem emit_inbox (o : Out) : (emit o s).inbox = s.inbox := rfl
@[simp] theorem emit_mbx (o : Out) : (emit o s).mbx = s.mbx := rfl
@[simp] theorem emit_otpq (o : Out) : (emit o s).otpq = s.otpq := rfl
@[simp] theorem emit_romProg (o : Out) : (emit o s).romProg = s.romProg := rfl
@[simp] theorem emit_bootKeys (o : Out) : (emit o s).bootKeys = s.bootKeys := rfl
@[simp] theorem emit_pow (o : Out) : (emit o s).pow = s.pow := rfl
@[simp] theorem emit_brk (o : Out) : (emit o s).brk = s.brk := rfl
@[simp] theorem emit_faultN (o : Out) : (emit o s).faultN = s.faultN := rfl
@[simp] theorem emit_inReset (o : Out) : (emit o s).inReset = s.inReset := rfl
@[simp] theorem emit_dbg (o : Out) : (emit o s).dbg = s.dbg := rfl
@[simp] theorem emit_gauge (o : Out) : (emit o s).gauge = s.gauge := rfl
@[simp] theorem emit_strapPos (o : Out) : (emit o s).strapPos = s.strapPos := rfl
@[simp] theorem emit_strapGaddr (o : Out) : (emit o s).strapGaddr = s.strapGaddr := rfl
@[simp] theorem emit_vfEnable (o : Out) : (emit o s).vfEnable = s.vfEnable := rfl
@[simp] theorem emit_numVfs (o : Out) : (emit o s).numVfs = s.numVfs := rfl
@[simp] theorem emit_freeCtr (o : Out) : (emit o s).freeCtr = s.freeCtr := rfl
@[simp] theorem getFk_emit (o : Out) (g : Fld) (j l : Nat) : getFk (emit o s) g j l = getFk s g j l := rfl
@[simp] theorem getF_emit (o : Out) (g : Fld) (j : Nat) : getF (emit o s) g j = getF s g j := rfl
@[simp] theorem isF_emit (o : Out) (g : Fld) (j : Nat) : isF (emit o s) g j = isF s g j := rfl

/-! ## modMc -/

@[simp] theorem modMc_pending (m : Nat) (f : Mc → Mc) : (modMc m f s).pending = s.pending := rfl
@[simp] theorem modMc_regs (m : Nat) (f : Mc → Mc) : (modMc m f s).regs = s.regs := rfl
@[simp] theorem modMc_hiLatch (m : Nat) (f : Mc → Mc) : (modMc m f s).hiLatch = s.hiLatch := rfl
@[simp] theorem modMc_mem (m : Nat) (f : Mc → Mc) : (modMc m f s).mem = s.mem := rfl
@[simp] theorem modMc_poison (m : Nat) (f : Mc → Mc) : (modMc m f s).poison = s.poison := rfl
@[simp] theorem modMc_sram (m : Nat) (f : Mc → Mc) : (modMc m f s).sram = s.sram := rfl
@[simp] theorem modMc_hmem (m : Nat) (f : Mc → Mc) : (modMc m f s).hmem = s.hmem := rfl
@[simp] theorem modMc_otp (m : Nat) (f : Mc → Mc) : (modMc m f s).otp = s.otp := rfl
@[simp] theorem modMc_responses (m : Nat) (f : Mc → Mc) : (modMc m f s).responses = s.responses := rfl
@[simp] theorem modMc_window (m : Nat) (f : Mc → Mc) : (modMc m f s).window = s.window := rfl
@[simp] theorem modMc_sluices (m : Nat) (f : Mc → Mc) : (modMc m f s).sluices = s.sluices := rfl
@[simp] theorem modMc_objs (m : Nat) (f : Mc → Mc) : (modMc m f s).objs = s.objs := rfl
@[simp] theorem modMc_releases (m : Nat) (f : Mc → Mc) : (modMc m f s).releases = s.releases := rfl
@[simp] theorem modMc_crossing (m : Nat) (f : Mc → Mc) : (modMc m f s).crossing = s.crossing := rfl
@[simp] theorem modMc_clusters (m : Nat) (f : Mc → Mc) : (modMc m f s).clusters = s.clusters := rfl
@[simp] theorem modMc_units (m : Nat) (f : Mc → Mc) : (modMc m f s).units = s.units := rfl
@[simp] theorem modMc_seqs (m : Nat) (f : Mc → Mc) : (modMc m f s).seqs = s.seqs := rfl
@[simp] theorem modMc_cul (m : Nat) (f : Mc → Mc) : (modMc m f s).cul = s.cul := rfl
@[simp] theorem modMc_degSet (m : Nat) (f : Mc → Mc) : (modMc m f s).degSet = s.degSet := rfl
@[simp] theorem modMc_degClear (m : Nat) (f : Mc → Mc) : (modMc m f s).degClear = s.degClear := rfl
@[simp] theorem modMc_ctxs (m : Nat) (f : Mc → Mc) : (modMc m f s).ctxs = s.ctxs := rfl
@[simp] theorem modMc_reports (m : Nat) (f : Mc → Mc) : (modMc m f s).reports = s.reports := rfl
@[simp] theorem modMc_lastClosed (m : Nat) (f : Mc → Mc) : (modMc m f s).lastClosed = s.lastClosed := rfl
@[simp] theorem modMc_jwide (m : Nat) (f : Mc → Mc) : (modMc m f s).jwide = s.jwide := rfl
@[simp] theorem modMc_ports (m : Nat) (f : Mc → Mc) : (modMc m f s).ports = s.ports := rfl
@[simp] theorem modMc_txStreams (m : Nat) (f : Mc → Mc) : (modMc m f s).txStreams = s.txStreams := rfl
@[simp] theorem modMc_rxStreams (m : Nat) (f : Mc → Mc) : (modMc m f s).rxStreams = s.rxStreams := rfl
@[simp] theorem modMc_sendq (m : Nat) (f : Mc → Mc) : (modMc m f s).sendq = s.sendq := rfl
@[simp] theorem modMc_inbox (m : Nat) (f : Mc → Mc) : (modMc m f s).inbox = s.inbox := rfl
@[simp] theorem modMc_mbx (m : Nat) (f : Mc → Mc) : (modMc m f s).mbx = s.mbx := rfl
@[simp] theorem modMc_otpq (m : Nat) (f : Mc → Mc) : (modMc m f s).otpq = s.otpq := rfl
@[simp] theorem modMc_romProg (m : Nat) (f : Mc → Mc) : (modMc m f s).romProg = s.romProg := rfl
@[simp] theorem modMc_bootKeys (m : Nat) (f : Mc → Mc) : (modMc m f s).bootKeys = s.bootKeys := rfl
@[simp] theorem modMc_pow (m : Nat) (f : Mc → Mc) : (modMc m f s).pow = s.pow := rfl
@[simp] theorem modMc_brk (m : Nat) (f : Mc → Mc) : (modMc m f s).brk = s.brk := rfl
@[simp] theorem modMc_faultN (m : Nat) (f : Mc → Mc) : (modMc m f s).faultN = s.faultN := rfl
@[simp] theorem modMc_inReset (m : Nat) (f : Mc → Mc) : (modMc m f s).inReset = s.inReset := rfl
@[simp] theorem modMc_dbg (m : Nat) (f : Mc → Mc) : (modMc m f s).dbg = s.dbg := rfl
@[simp] theorem modMc_gauge (m : Nat) (f : Mc → Mc) : (modMc m f s).gauge = s.gauge := rfl
@[simp] theorem modMc_strapPos (m : Nat) (f : Mc → Mc) : (modMc m f s).strapPos = s.strapPos := rfl
@[simp] theorem modMc_strapGaddr (m : Nat) (f : Mc → Mc) : (modMc m f s).strapGaddr = s.strapGaddr := rfl
@[simp] theorem modMc_vfEnable (m : Nat) (f : Mc → Mc) : (modMc m f s).vfEnable = s.vfEnable := rfl
@[simp] theorem modMc_numVfs (m : Nat) (f : Mc → Mc) : (modMc m f s).numVfs = s.numVfs := rfl
@[simp] theorem modMc_out (m : Nat) (f : Mc → Mc) : (modMc m f s).out = s.out := rfl
@[simp] theorem modMc_freeCtr (m : Nat) (f : Mc → Mc) : (modMc m f s).freeCtr = s.freeCtr := rfl
@[simp] theorem getFk_modMc (m : Nat) (f : Mc → Mc) (g : Fld) (j l : Nat) : getFk (modMc m f s) g j l = getFk s g j l := rfl
@[simp] theorem getF_modMc (m : Nat) (f : Mc → Mc) (g : Fld) (j : Nat) : getF (modMc m f s) g j = getF s g j := rfl
@[simp] theorem isF_modMc (m : Nat) (f : Mc → Mc) (g : Fld) (j : Nat) : isF (modMc m f s) g j = isF s g j := rfl

/-! ## modSluice -/

@[simp] theorem modSluice_pending (n : Nat) (f : Sluice → Sluice) : (modSluice n f s).pending = s.pending := rfl
@[simp] theorem modSluice_regs (n : Nat) (f : Sluice → Sluice) : (modSluice n f s).regs = s.regs := rfl
@[simp] theorem modSluice_hiLatch (n : Nat) (f : Sluice → Sluice) : (modSluice n f s).hiLatch = s.hiLatch := rfl
@[simp] theorem modSluice_mem (n : Nat) (f : Sluice → Sluice) : (modSluice n f s).mem = s.mem := rfl
@[simp] theorem modSluice_poison (n : Nat) (f : Sluice → Sluice) : (modSluice n f s).poison = s.poison := rfl
@[simp] theorem modSluice_sram (n : Nat) (f : Sluice → Sluice) : (modSluice n f s).sram = s.sram := rfl
@[simp] theorem modSluice_hmem (n : Nat) (f : Sluice → Sluice) : (modSluice n f s).hmem = s.hmem := rfl
@[simp] theorem modSluice_otp (n : Nat) (f : Sluice → Sluice) : (modSluice n f s).otp = s.otp := rfl
@[simp] theorem modSluice_responses (n : Nat) (f : Sluice → Sluice) : (modSluice n f s).responses = s.responses := rfl
@[simp] theorem modSluice_mcs (n : Nat) (f : Sluice → Sluice) : (modSluice n f s).mcs = s.mcs := rfl
@[simp] theorem modSluice_window (n : Nat) (f : Sluice → Sluice) : (modSluice n f s).window = s.window := rfl
@[simp] theorem modSluice_objs (n : Nat) (f : Sluice → Sluice) : (modSluice n f s).objs = s.objs := rfl
@[simp] theorem modSluice_releases (n : Nat) (f : Sluice → Sluice) : (modSluice n f s).releases = s.releases := rfl
@[simp] theorem modSluice_crossing (n : Nat) (f : Sluice → Sluice) : (modSluice n f s).crossing = s.crossing := rfl
@[simp] theorem modSluice_clusters (n : Nat) (f : Sluice → Sluice) : (modSluice n f s).clusters = s.clusters := rfl
@[simp] theorem modSluice_units (n : Nat) (f : Sluice → Sluice) : (modSluice n f s).units = s.units := rfl
@[simp] theorem modSluice_seqs (n : Nat) (f : Sluice → Sluice) : (modSluice n f s).seqs = s.seqs := rfl
@[simp] theorem modSluice_cul (n : Nat) (f : Sluice → Sluice) : (modSluice n f s).cul = s.cul := rfl
@[simp] theorem modSluice_degSet (n : Nat) (f : Sluice → Sluice) : (modSluice n f s).degSet = s.degSet := rfl
@[simp] theorem modSluice_degClear (n : Nat) (f : Sluice → Sluice) : (modSluice n f s).degClear = s.degClear := rfl
@[simp] theorem modSluice_ctxs (n : Nat) (f : Sluice → Sluice) : (modSluice n f s).ctxs = s.ctxs := rfl
@[simp] theorem modSluice_reports (n : Nat) (f : Sluice → Sluice) : (modSluice n f s).reports = s.reports := rfl
@[simp] theorem modSluice_lastClosed (n : Nat) (f : Sluice → Sluice) : (modSluice n f s).lastClosed = s.lastClosed := rfl
@[simp] theorem modSluice_jwide (n : Nat) (f : Sluice → Sluice) : (modSluice n f s).jwide = s.jwide := rfl
@[simp] theorem modSluice_ports (n : Nat) (f : Sluice → Sluice) : (modSluice n f s).ports = s.ports := rfl
@[simp] theorem modSluice_txStreams (n : Nat) (f : Sluice → Sluice) : (modSluice n f s).txStreams = s.txStreams := rfl
@[simp] theorem modSluice_rxStreams (n : Nat) (f : Sluice → Sluice) : (modSluice n f s).rxStreams = s.rxStreams := rfl
@[simp] theorem modSluice_sendq (n : Nat) (f : Sluice → Sluice) : (modSluice n f s).sendq = s.sendq := rfl
@[simp] theorem modSluice_inbox (n : Nat) (f : Sluice → Sluice) : (modSluice n f s).inbox = s.inbox := rfl
@[simp] theorem modSluice_mbx (n : Nat) (f : Sluice → Sluice) : (modSluice n f s).mbx = s.mbx := rfl
@[simp] theorem modSluice_otpq (n : Nat) (f : Sluice → Sluice) : (modSluice n f s).otpq = s.otpq := rfl
@[simp] theorem modSluice_romProg (n : Nat) (f : Sluice → Sluice) : (modSluice n f s).romProg = s.romProg := rfl
@[simp] theorem modSluice_bootKeys (n : Nat) (f : Sluice → Sluice) : (modSluice n f s).bootKeys = s.bootKeys := rfl
@[simp] theorem modSluice_pow (n : Nat) (f : Sluice → Sluice) : (modSluice n f s).pow = s.pow := rfl
@[simp] theorem modSluice_brk (n : Nat) (f : Sluice → Sluice) : (modSluice n f s).brk = s.brk := rfl
@[simp] theorem modSluice_faultN (n : Nat) (f : Sluice → Sluice) : (modSluice n f s).faultN = s.faultN := rfl
@[simp] theorem modSluice_inReset (n : Nat) (f : Sluice → Sluice) : (modSluice n f s).inReset = s.inReset := rfl
@[simp] theorem modSluice_dbg (n : Nat) (f : Sluice → Sluice) : (modSluice n f s).dbg = s.dbg := rfl
@[simp] theorem modSluice_gauge (n : Nat) (f : Sluice → Sluice) : (modSluice n f s).gauge = s.gauge := rfl
@[simp] theorem modSluice_strapPos (n : Nat) (f : Sluice → Sluice) : (modSluice n f s).strapPos = s.strapPos := rfl
@[simp] theorem modSluice_strapGaddr (n : Nat) (f : Sluice → Sluice) : (modSluice n f s).strapGaddr = s.strapGaddr := rfl
@[simp] theorem modSluice_vfEnable (n : Nat) (f : Sluice → Sluice) : (modSluice n f s).vfEnable = s.vfEnable := rfl
@[simp] theorem modSluice_numVfs (n : Nat) (f : Sluice → Sluice) : (modSluice n f s).numVfs = s.numVfs := rfl
@[simp] theorem modSluice_out (n : Nat) (f : Sluice → Sluice) : (modSluice n f s).out = s.out := rfl
@[simp] theorem modSluice_freeCtr (n : Nat) (f : Sluice → Sluice) : (modSluice n f s).freeCtr = s.freeCtr := rfl
@[simp] theorem getFk_modSluice (n : Nat) (f : Sluice → Sluice) (g : Fld) (j l : Nat) : getFk (modSluice n f s) g j l = getFk s g j l := rfl
@[simp] theorem getF_modSluice (n : Nat) (f : Sluice → Sluice) (g : Fld) (j : Nat) : getF (modSluice n f s) g j = getF s g j := rfl
@[simp] theorem isF_modSluice (n : Nat) (f : Sluice → Sluice) (g : Fld) (j : Nat) : isF (modSluice n f s) g j = isF s g j := rfl

/-! ## modPort -/

@[simp] theorem modPort_pending (p : Nat) (f : Port → Port) : (modPort p f s).pending = s.pending := rfl
@[simp] theorem modPort_regs (p : Nat) (f : Port → Port) : (modPort p f s).regs = s.regs := rfl
@[simp] theorem modPort_hiLatch (p : Nat) (f : Port → Port) : (modPort p f s).hiLatch = s.hiLatch := rfl
@[simp] theorem modPort_mem (p : Nat) (f : Port → Port) : (modPort p f s).mem = s.mem := rfl
@[simp] theorem modPort_poison (p : Nat) (f : Port → Port) : (modPort p f s).poison = s.poison := rfl
@[simp] theorem modPort_sram (p : Nat) (f : Port → Port) : (modPort p f s).sram = s.sram := rfl
@[simp] theorem modPort_hmem (p : Nat) (f : Port → Port) : (modPort p f s).hmem = s.hmem := rfl
@[simp] theorem modPort_otp (p : Nat) (f : Port → Port) : (modPort p f s).otp = s.otp := rfl
@[simp] theorem modPort_responses (p : Nat) (f : Port → Port) : (modPort p f s).responses = s.responses := rfl
@[simp] theorem modPort_mcs (p : Nat) (f : Port → Port) : (modPort p f s).mcs = s.mcs := rfl
@[simp] theorem modPort_window (p : Nat) (f : Port → Port) : (modPort p f s).window = s.window := rfl
@[simp] theorem modPort_sluices (p : Nat) (f : Port → Port) : (modPort p f s).sluices = s.sluices := rfl
@[simp] theorem modPort_objs (p : Nat) (f : Port → Port) : (modPort p f s).objs = s.objs := rfl
@[simp] theorem modPort_releases (p : Nat) (f : Port → Port) : (modPort p f s).releases = s.releases := rfl
@[simp] theorem modPort_crossing (p : Nat) (f : Port → Port) : (modPort p f s).crossing = s.crossing := rfl
@[simp] theorem modPort_clusters (p : Nat) (f : Port → Port) : (modPort p f s).clusters = s.clusters := rfl
@[simp] theorem modPort_units (p : Nat) (f : Port → Port) : (modPort p f s).units = s.units := rfl
@[simp] theorem modPort_seqs (p : Nat) (f : Port → Port) : (modPort p f s).seqs = s.seqs := rfl
@[simp] theorem modPort_cul (p : Nat) (f : Port → Port) : (modPort p f s).cul = s.cul := rfl
@[simp] theorem modPort_degSet (p : Nat) (f : Port → Port) : (modPort p f s).degSet = s.degSet := rfl
@[simp] theorem modPort_degClear (p : Nat) (f : Port → Port) : (modPort p f s).degClear = s.degClear := rfl
@[simp] theorem modPort_ctxs (p : Nat) (f : Port → Port) : (modPort p f s).ctxs = s.ctxs := rfl
@[simp] theorem modPort_reports (p : Nat) (f : Port → Port) : (modPort p f s).reports = s.reports := rfl
@[simp] theorem modPort_lastClosed (p : Nat) (f : Port → Port) : (modPort p f s).lastClosed = s.lastClosed := rfl
@[simp] theorem modPort_jwide (p : Nat) (f : Port → Port) : (modPort p f s).jwide = s.jwide := rfl
@[simp] theorem modPort_txStreams (p : Nat) (f : Port → Port) : (modPort p f s).txStreams = s.txStreams := rfl
@[simp] theorem modPort_rxStreams (p : Nat) (f : Port → Port) : (modPort p f s).rxStreams = s.rxStreams := rfl
@[simp] theorem modPort_sendq (p : Nat) (f : Port → Port) : (modPort p f s).sendq = s.sendq := rfl
@[simp] theorem modPort_inbox (p : Nat) (f : Port → Port) : (modPort p f s).inbox = s.inbox := rfl
@[simp] theorem modPort_mbx (p : Nat) (f : Port → Port) : (modPort p f s).mbx = s.mbx := rfl
@[simp] theorem modPort_otpq (p : Nat) (f : Port → Port) : (modPort p f s).otpq = s.otpq := rfl
@[simp] theorem modPort_romProg (p : Nat) (f : Port → Port) : (modPort p f s).romProg = s.romProg := rfl
@[simp] theorem modPort_bootKeys (p : Nat) (f : Port → Port) : (modPort p f s).bootKeys = s.bootKeys := rfl
@[simp] theorem modPort_pow (p : Nat) (f : Port → Port) : (modPort p f s).pow = s.pow := rfl
@[simp] theorem modPort_brk (p : Nat) (f : Port → Port) : (modPort p f s).brk = s.brk := rfl
@[simp] theorem modPort_faultN (p : Nat) (f : Port → Port) : (modPort p f s).faultN = s.faultN := rfl
@[simp] theorem modPort_inReset (p : Nat) (f : Port → Port) : (modPort p f s).inReset = s.inReset := rfl
@[simp] theorem modPort_dbg (p : Nat) (f : Port → Port) : (modPort p f s).dbg = s.dbg := rfl
@[simp] theorem modPort_gauge (p : Nat) (f : Port → Port) : (modPort p f s).gauge = s.gauge := rfl
@[simp] theorem modPort_strapPos (p : Nat) (f : Port → Port) : (modPort p f s).strapPos = s.strapPos := rfl
@[simp] theorem modPort_strapGaddr (p : Nat) (f : Port → Port) : (modPort p f s).strapGaddr = s.strapGaddr := rfl
@[simp] theorem modPort_vfEnable (p : Nat) (f : Port → Port) : (modPort p f s).vfEnable = s.vfEnable := rfl
@[simp] theorem modPort_numVfs (p : Nat) (f : Port → Port) : (modPort p f s).numVfs = s.numVfs := rfl
@[simp] theorem modPort_out (p : Nat) (f : Port → Port) : (modPort p f s).out = s.out := rfl
@[simp] theorem modPort_freeCtr (p : Nat) (f : Port → Port) : (modPort p f s).freeCtr = s.freeCtr := rfl
@[simp] theorem getFk_modPort (p : Nat) (f : Port → Port) (g : Fld) (j l : Nat) : getFk (modPort p f s) g j l = getFk s g j l := rfl
@[simp] theorem getF_modPort (p : Nat) (f : Port → Port) (g : Fld) (j : Nat) : getF (modPort p f s) g j = getF s g j := rfl
@[simp] theorem isF_modPort (p : Nat) (f : Port → Port) (g : Fld) (j : Nat) : isF (modPort p f s) g j = isF s g j := rfl

/-! ## modCtx -/

@[simp] theorem modCtx_pending (c : Nat) (f : Ctx → Ctx) : (modCtx c f s).pending = s.pending := rfl
@[simp] theorem modCtx_regs (c : Nat) (f : Ctx → Ctx) : (modCtx c f s).regs = s.regs := rfl
@[simp] theorem modCtx_hiLatch (c : Nat) (f : Ctx → Ctx) : (modCtx c f s).hiLatch = s.hiLatch := rfl
@[simp] theorem modCtx_mem (c : Nat) (f : Ctx → Ctx) : (modCtx c f s).mem = s.mem := rfl
@[simp] theorem modCtx_poison (c : Nat) (f : Ctx → Ctx) : (modCtx c f s).poison = s.poison := rfl
@[simp] theorem modCtx_sram (c : Nat) (f : Ctx → Ctx) : (modCtx c f s).sram = s.sram := rfl
@[simp] theorem modCtx_hmem (c : Nat) (f : Ctx → Ctx) : (modCtx c f s).hmem = s.hmem := rfl
@[simp] theorem modCtx_otp (c : Nat) (f : Ctx → Ctx) : (modCtx c f s).otp = s.otp := rfl
@[simp] theorem modCtx_responses (c : Nat) (f : Ctx → Ctx) : (modCtx c f s).responses = s.responses := rfl
@[simp] theorem modCtx_mcs (c : Nat) (f : Ctx → Ctx) : (modCtx c f s).mcs = s.mcs := rfl
@[simp] theorem modCtx_window (c : Nat) (f : Ctx → Ctx) : (modCtx c f s).window = s.window := rfl
@[simp] theorem modCtx_sluices (c : Nat) (f : Ctx → Ctx) : (modCtx c f s).sluices = s.sluices := rfl
@[simp] theorem modCtx_objs (c : Nat) (f : Ctx → Ctx) : (modCtx c f s).objs = s.objs := rfl
@[simp] theorem modCtx_releases (c : Nat) (f : Ctx → Ctx) : (modCtx c f s).releases = s.releases := rfl
@[simp] theorem modCtx_crossing (c : Nat) (f : Ctx → Ctx) : (modCtx c f s).crossing = s.crossing := rfl
@[simp] theorem modCtx_clusters (c : Nat) (f : Ctx → Ctx) : (modCtx c f s).clusters = s.clusters := rfl
@[simp] theorem modCtx_units (c : Nat) (f : Ctx → Ctx) : (modCtx c f s).units = s.units := rfl
@[simp] theorem modCtx_seqs (c : Nat) (f : Ctx → Ctx) : (modCtx c f s).seqs = s.seqs := rfl
@[simp] theorem modCtx_cul (c : Nat) (f : Ctx → Ctx) : (modCtx c f s).cul = s.cul := rfl
@[simp] theorem modCtx_degSet (c : Nat) (f : Ctx → Ctx) : (modCtx c f s).degSet = s.degSet := rfl
@[simp] theorem modCtx_degClear (c : Nat) (f : Ctx → Ctx) : (modCtx c f s).degClear = s.degClear := rfl
@[simp] theorem modCtx_reports (c : Nat) (f : Ctx → Ctx) : (modCtx c f s).reports = s.reports := rfl
@[simp] theorem modCtx_lastClosed (c : Nat) (f : Ctx → Ctx) : (modCtx c f s).lastClosed = s.lastClosed := rfl
@[simp] theorem modCtx_jwide (c : Nat) (f : Ctx → Ctx) : (modCtx c f s).jwide = s.jwide := rfl
@[simp] theorem modCtx_ports (c : Nat) (f : Ctx → Ctx) : (modCtx c f s).ports = s.ports := rfl
@[simp] theorem modCtx_txStreams (c : Nat) (f : Ctx → Ctx) : (modCtx c f s).txStreams = s.txStreams := rfl
@[simp] theorem modCtx_rxStreams (c : Nat) (f : Ctx → Ctx) : (modCtx c f s).rxStreams = s.rxStreams := rfl
@[simp] theorem modCtx_sendq (c : Nat) (f : Ctx → Ctx) : (modCtx c f s).sendq = s.sendq := rfl
@[simp] theorem modCtx_inbox (c : Nat) (f : Ctx → Ctx) : (modCtx c f s).inbox = s.inbox := rfl
@[simp] theorem modCtx_mbx (c : Nat) (f : Ctx → Ctx) : (modCtx c f s).mbx = s.mbx := rfl
@[simp] theorem modCtx_otpq (c : Nat) (f : Ctx → Ctx) : (modCtx c f s).otpq = s.otpq := rfl
@[simp] theorem modCtx_romProg (c : Nat) (f : Ctx → Ctx) : (modCtx c f s).romProg = s.romProg := rfl
@[simp] theorem modCtx_bootKeys (c : Nat) (f : Ctx → Ctx) : (modCtx c f s).bootKeys = s.bootKeys := rfl
@[simp] theorem modCtx_pow (c : Nat) (f : Ctx → Ctx) : (modCtx c f s).pow = s.pow := rfl
@[simp] theorem modCtx_brk (c : Nat) (f : Ctx → Ctx) : (modCtx c f s).brk = s.brk := rfl
@[simp] theorem modCtx_faultN (c : Nat) (f : Ctx → Ctx) : (modCtx c f s).faultN = s.faultN := rfl
@[simp] theorem modCtx_inReset (c : Nat) (f : Ctx → Ctx) : (modCtx c f s).inReset = s.inReset := rfl
@[simp] theorem modCtx_dbg (c : Nat) (f : Ctx → Ctx) : (modCtx c f s).dbg = s.dbg := rfl
@[simp] theorem modCtx_gauge (c : Nat) (f : Ctx → Ctx) : (modCtx c f s).gauge = s.gauge := rfl
@[simp] theorem modCtx_strapPos (c : Nat) (f : Ctx → Ctx) : (modCtx c f s).strapPos = s.strapPos := rfl
@[simp] theorem modCtx_strapGaddr (c : Nat) (f : Ctx → Ctx) : (modCtx c f s).strapGaddr = s.strapGaddr := rfl
@[simp] theorem modCtx_vfEnable (c : Nat) (f : Ctx → Ctx) : (modCtx c f s).vfEnable = s.vfEnable := rfl
@[simp] theorem modCtx_numVfs (c : Nat) (f : Ctx → Ctx) : (modCtx c f s).numVfs = s.numVfs := rfl
@[simp] theorem modCtx_out (c : Nat) (f : Ctx → Ctx) : (modCtx c f s).out = s.out := rfl
@[simp] theorem modCtx_freeCtr (c : Nat) (f : Ctx → Ctx) : (modCtx c f s).freeCtr = s.freeCtr := rfl
@[simp] theorem getFk_modCtx (c : Nat) (f : Ctx → Ctx) (g : Fld) (j l : Nat) : getFk (modCtx c f s) g j l = getFk s g j l := rfl
@[simp] theorem getF_modCtx (c : Nat) (f : Ctx → Ctx) (g : Fld) (j : Nat) : getF (modCtx c f s) g j = getF s g j := rfl
@[simp] theorem isF_modCtx (c : Nat) (f : Ctx → Ctx) (g : Fld) (j : Nat) : isF (modCtx c f s) g j = isF s g j := rfl

/-! ## modCluster -/

@[simp] theorem modCluster_pending (cl : Nat) (f : Cluster → Cluster) : (modCluster cl f s).pending = s.pending := rfl
@[simp] theorem modCluster_regs (cl : Nat) (f : Cluster → Cluster) : (modCluster cl f s).regs = s.regs := rfl
@[simp] theorem modCluster_hiLatch (cl : Nat) (f : Cluster → Cluster) : (modCluster cl f s).hiLatch = s.hiLatch := rfl
@[simp] theorem modCluster_mem (cl : Nat) (f : Cluster → Cluster) : (modCluster cl f s).mem = s.mem := rfl
@[simp] theorem modCluster_poison (cl : Nat) (f : Cluster → Cluster) : (modCluster cl f s).poison = s.poison := rfl
@[simp] theorem modCluster_sram (cl : Nat) (f : Cluster → Cluster) : (modCluster cl f s).sram = s.sram := rfl
@[simp] theorem modCluster_hmem (cl : Nat) (f : Cluster → Cluster) : (modCluster cl f s).hmem = s.hmem := rfl
@[simp] theorem modCluster_otp (cl : Nat) (f : Cluster → Cluster) : (modCluster cl f s).otp = s.otp := rfl
@[simp] theorem modCluster_responses (cl : Nat) (f : Cluster → Cluster) : (modCluster cl f s).responses = s.responses := rfl
@[simp] theorem modCluster_mcs (cl : Nat) (f : Cluster → Cluster) : (modCluster cl f s).mcs = s.mcs := rfl
@[simp] theorem modCluster_window (cl : Nat) (f : Cluster → Cluster) : (modCluster cl f s).window = s.window := rfl
@[simp] theorem modCluster_sluices (cl : Nat) (f : Cluster → Cluster) : (modCluster cl f s).sluices = s.sluices := rfl
@[simp] theorem modCluster_objs (cl : Nat) (f : Cluster → Cluster) : (modCluster cl f s).objs = s.objs := rfl
@[simp] theorem modCluster_releases (cl : Nat) (f : Cluster → Cluster) : (modCluster cl f s).releases = s.releases := rfl
@[simp] theorem modCluster_crossing (cl : Nat) (f : Cluster → Cluster) : (modCluster cl f s).crossing = s.crossing := rfl
@[simp] theorem modCluster_units (cl : Nat) (f : Cluster → Cluster) : (modCluster cl f s).units = s.units := rfl
@[simp] theorem modCluster_seqs (cl : Nat) (f : Cluster → Cluster) : (modCluster cl f s).seqs = s.seqs := rfl
@[simp] theorem modCluster_cul (cl : Nat) (f : Cluster → Cluster) : (modCluster cl f s).cul = s.cul := rfl
@[simp] theorem modCluster_degSet (cl : Nat) (f : Cluster → Cluster) : (modCluster cl f s).degSet = s.degSet := rfl
@[simp] theorem modCluster_degClear (cl : Nat) (f : Cluster → Cluster) : (modCluster cl f s).degClear = s.degClear := rfl
@[simp] theorem modCluster_ctxs (cl : Nat) (f : Cluster → Cluster) : (modCluster cl f s).ctxs = s.ctxs := rfl
@[simp] theorem modCluster_reports (cl : Nat) (f : Cluster → Cluster) : (modCluster cl f s).reports = s.reports := rfl
@[simp] theorem modCluster_lastClosed (cl : Nat) (f : Cluster → Cluster) : (modCluster cl f s).lastClosed = s.lastClosed := rfl
@[simp] theorem modCluster_jwide (cl : Nat) (f : Cluster → Cluster) : (modCluster cl f s).jwide = s.jwide := rfl
@[simp] theorem modCluster_ports (cl : Nat) (f : Cluster → Cluster) : (modCluster cl f s).ports = s.ports := rfl
@[simp] theorem modCluster_txStreams (cl : Nat) (f : Cluster → Cluster) : (modCluster cl f s).txStreams = s.txStreams := rfl
@[simp] theorem modCluster_rxStreams (cl : Nat) (f : Cluster → Cluster) : (modCluster cl f s).rxStreams = s.rxStreams := rfl
@[simp] theorem modCluster_sendq (cl : Nat) (f : Cluster → Cluster) : (modCluster cl f s).sendq = s.sendq := rfl
@[simp] theorem modCluster_inbox (cl : Nat) (f : Cluster → Cluster) : (modCluster cl f s).inbox = s.inbox := rfl
@[simp] theorem modCluster_mbx (cl : Nat) (f : Cluster → Cluster) : (modCluster cl f s).mbx = s.mbx := rfl
@[simp] theorem modCluster_otpq (cl : Nat) (f : Cluster → Cluster) : (modCluster cl f s).otpq = s.otpq := rfl
@[simp] theorem modCluster_romProg (cl : Nat) (f : Cluster → Cluster) : (modCluster cl f s).romProg = s.romProg := rfl
@[simp] theorem modCluster_bootKeys (cl : Nat) (f : Cluster → Cluster) : (modCluster cl f s).bootKeys = s.bootKeys := rfl
@[simp] theorem modCluster_pow (cl : Nat) (f : Cluster → Cluster) : (modCluster cl f s).pow = s.pow := rfl
@[simp] theorem modCluster_brk (cl : Nat) (f : Cluster → Cluster) : (modCluster cl f s).brk = s.brk := rfl
@[simp] theorem modCluster_faultN (cl : Nat) (f : Cluster → Cluster) : (modCluster cl f s).faultN = s.faultN := rfl
@[simp] theorem modCluster_inReset (cl : Nat) (f : Cluster → Cluster) : (modCluster cl f s).inReset = s.inReset := rfl
@[simp] theorem modCluster_dbg (cl : Nat) (f : Cluster → Cluster) : (modCluster cl f s).dbg = s.dbg := rfl
@[simp] theorem modCluster_gauge (cl : Nat) (f : Cluster → Cluster) : (modCluster cl f s).gauge = s.gauge := rfl
@[simp] theorem modCluster_strapPos (cl : Nat) (f : Cluster → Cluster) : (modCluster cl f s).strapPos = s.strapPos := rfl
@[simp] theorem modCluster_strapGaddr (cl : Nat) (f : Cluster → Cluster) : (modCluster cl f s).strapGaddr = s.strapGaddr := rfl
@[simp] theorem modCluster_vfEnable (cl : Nat) (f : Cluster → Cluster) : (modCluster cl f s).vfEnable = s.vfEnable := rfl
@[simp] theorem modCluster_numVfs (cl : Nat) (f : Cluster → Cluster) : (modCluster cl f s).numVfs = s.numVfs := rfl
@[simp] theorem modCluster_out (cl : Nat) (f : Cluster → Cluster) : (modCluster cl f s).out = s.out := rfl
@[simp] theorem modCluster_freeCtr (cl : Nat) (f : Cluster → Cluster) : (modCluster cl f s).freeCtr = s.freeCtr := rfl
@[simp] theorem getFk_modCluster (cl : Nat) (f : Cluster → Cluster) (g : Fld) (j l : Nat) : getFk (modCluster cl f s) g j l = getFk s g j l := rfl
@[simp] theorem getF_modCluster (cl : Nat) (f : Cluster → Cluster) (g : Fld) (j : Nat) : getF (modCluster cl f s) g j = getF s g j := rfl
@[simp] theorem isF_modCluster (cl : Nat) (f : Cluster → Cluster) (g : Fld) (j : Nat) : isF (modCluster cl f s) g j = isF s g j := rfl

/-! ## modObj -/

@[simp] theorem modObj_pending (k : Nat) (f : SyncObj → SyncObj) : (modObj k f s).pending = s.pending := rfl
@[simp] theorem modObj_regs (k : Nat) (f : SyncObj → SyncObj) : (modObj k f s).regs = s.regs := rfl
@[simp] theorem modObj_hiLatch (k : Nat) (f : SyncObj → SyncObj) : (modObj k f s).hiLatch = s.hiLatch := rfl
@[simp] theorem modObj_mem (k : Nat) (f : SyncObj → SyncObj) : (modObj k f s).mem = s.mem := rfl
@[simp] theorem modObj_poison (k : Nat) (f : SyncObj → SyncObj) : (modObj k f s).poison = s.poison := rfl
@[simp] theorem modObj_sram (k : Nat) (f : SyncObj → SyncObj) : (modObj k f s).sram = s.sram := rfl
@[simp] theorem modObj_hmem (k : Nat) (f : SyncObj → SyncObj) : (modObj k f s).hmem = s.hmem := rfl
@[simp] theorem modObj_otp (k : Nat) (f : SyncObj → SyncObj) : (modObj k f s).otp = s.otp := rfl
@[simp] theorem modObj_responses (k : Nat) (f : SyncObj → SyncObj) : (modObj k f s).responses = s.responses := rfl
@[simp] theorem modObj_mcs (k : Nat) (f : SyncObj → SyncObj) : (modObj k f s).mcs = s.mcs := rfl
@[simp] theorem modObj_window (k : Nat) (f : SyncObj → SyncObj) : (modObj k f s).window = s.window := rfl
@[simp] theorem modObj_sluices (k : Nat) (f : SyncObj → SyncObj) : (modObj k f s).sluices = s.sluices := rfl
@[simp] theorem modObj_releases (k : Nat) (f : SyncObj → SyncObj) : (modObj k f s).releases = s.releases := rfl
@[simp] theorem modObj_crossing (k : Nat) (f : SyncObj → SyncObj) : (modObj k f s).crossing = s.crossing := rfl
@[simp] theorem modObj_clusters (k : Nat) (f : SyncObj → SyncObj) : (modObj k f s).clusters = s.clusters := rfl
@[simp] theorem modObj_units (k : Nat) (f : SyncObj → SyncObj) : (modObj k f s).units = s.units := rfl
@[simp] theorem modObj_seqs (k : Nat) (f : SyncObj → SyncObj) : (modObj k f s).seqs = s.seqs := rfl
@[simp] theorem modObj_cul (k : Nat) (f : SyncObj → SyncObj) : (modObj k f s).cul = s.cul := rfl
@[simp] theorem modObj_degSet (k : Nat) (f : SyncObj → SyncObj) : (modObj k f s).degSet = s.degSet := rfl
@[simp] theorem modObj_degClear (k : Nat) (f : SyncObj → SyncObj) : (modObj k f s).degClear = s.degClear := rfl
@[simp] theorem modObj_ctxs (k : Nat) (f : SyncObj → SyncObj) : (modObj k f s).ctxs = s.ctxs := rfl
@[simp] theorem modObj_reports (k : Nat) (f : SyncObj → SyncObj) : (modObj k f s).reports = s.reports := rfl
@[simp] theorem modObj_lastClosed (k : Nat) (f : SyncObj → SyncObj) : (modObj k f s).lastClosed = s.lastClosed := rfl
@[simp] theorem modObj_jwide (k : Nat) (f : SyncObj → SyncObj) : (modObj k f s).jwide = s.jwide := rfl
@[simp] theorem modObj_ports (k : Nat) (f : SyncObj → SyncObj) : (modObj k f s).ports = s.ports := rfl
@[simp] theorem modObj_txStreams (k : Nat) (f : SyncObj → SyncObj) : (modObj k f s).txStreams = s.txStreams := rfl
@[simp] theorem modObj_rxStreams (k : Nat) (f : SyncObj → SyncObj) : (modObj k f s).rxStreams = s.rxStreams := rfl
@[simp] theorem modObj_sendq (k : Nat) (f : SyncObj → SyncObj) : (modObj k f s).sendq = s.sendq := rfl
@[simp] theorem modObj_inbox (k : Nat) (f : SyncObj → SyncObj) : (modObj k f s).inbox = s.inbox := rfl
@[simp] theorem modObj_mbx (k : Nat) (f : SyncObj → SyncObj) : (modObj k f s).mbx = s.mbx := rfl
@[simp] theorem modObj_otpq (k : Nat) (f : SyncObj → SyncObj) : (modObj k f s).otpq = s.otpq := rfl
@[simp] theorem modObj_romProg (k : Nat) (f : SyncObj → SyncObj) : (modObj k f s).romProg = s.romProg := rfl
@[simp] theorem modObj_bootKeys (k : Nat) (f : SyncObj → SyncObj) : (modObj k f s).bootKeys = s.bootKeys := rfl
@[simp] theorem modObj_pow (k : Nat) (f : SyncObj → SyncObj) : (modObj k f s).pow = s.pow := rfl
@[simp] theorem modObj_brk (k : Nat) (f : SyncObj → SyncObj) : (modObj k f s).brk = s.brk := rfl
@[simp] theorem modObj_faultN (k : Nat) (f : SyncObj → SyncObj) : (modObj k f s).faultN = s.faultN := rfl
@[simp] theorem modObj_inReset (k : Nat) (f : SyncObj → SyncObj) : (modObj k f s).inReset = s.inReset := rfl
@[simp] theorem modObj_dbg (k : Nat) (f : SyncObj → SyncObj) : (modObj k f s).dbg = s.dbg := rfl
@[simp] theorem modObj_gauge (k : Nat) (f : SyncObj → SyncObj) : (modObj k f s).gauge = s.gauge := rfl
@[simp] theorem modObj_strapPos (k : Nat) (f : SyncObj → SyncObj) : (modObj k f s).strapPos = s.strapPos := rfl
@[simp] theorem modObj_strapGaddr (k : Nat) (f : SyncObj → SyncObj) : (modObj k f s).strapGaddr = s.strapGaddr := rfl
@[simp] theorem modObj_vfEnable (k : Nat) (f : SyncObj → SyncObj) : (modObj k f s).vfEnable = s.vfEnable := rfl
@[simp] theorem modObj_numVfs (k : Nat) (f : SyncObj → SyncObj) : (modObj k f s).numVfs = s.numVfs := rfl
@[simp] theorem modObj_out (k : Nat) (f : SyncObj → SyncObj) : (modObj k f s).out = s.out := rfl
@[simp] theorem modObj_freeCtr (k : Nat) (f : SyncObj → SyncObj) : (modObj k f s).freeCtr = s.freeCtr := rfl
@[simp] theorem getFk_modObj (k : Nat) (f : SyncObj → SyncObj) (g : Fld) (j l : Nat) : getFk (modObj k f s) g j l = getFk s g j l := rfl
@[simp] theorem getF_modObj (k : Nat) (f : SyncObj → SyncObj) (g : Fld) (j : Nat) : getF (modObj k f s) g j = getF s g j := rfl
@[simp] theorem isF_modObj (k : Nat) (f : SyncObj → SyncObj) (g : Fld) (j : Nat) : isF (modObj k f s) g j = isF s g j := rfl

/-! ## modTx -/

@[simp] theorem modTx_pending (k : Nat) (f : TxStream → TxStream) : (modTx k f s).pending = s.pending := rfl
@[simp] theorem modTx_regs (k : Nat) (f : TxStream → TxStream) : (modTx k f s).regs = s.regs := rfl
@[simp] theorem modTx_hiLatch (k : Nat) (f : TxStream → TxStream) : (modTx k f s).hiLatch = s.hiLatch := rfl
@[simp] theorem modTx_mem (k : Nat) (f : TxStream → TxStream) : (modTx k f s).mem = s.mem := rfl
@[simp] theorem modTx_poison (k : Nat) (f : TxStream → TxStream) : (modTx k f s).poison = s.poison := rfl
@[simp] theorem modTx_sram (k : Nat) (f : TxStream → TxStream) : (modTx k f s).sram = s.sram := rfl
@[simp] theorem modTx_hmem (k : Nat) (f : TxStream → TxStream) : (modTx k f s).hmem = s.hmem := rfl
@[simp] theorem modTx_otp (k : Nat) (f : TxStream → TxStream) : (modTx k f s).otp = s.otp := rfl
@[simp] theorem modTx_responses (k : Nat) (f : TxStream → TxStream) : (modTx k f s).responses = s.responses := rfl
@[simp] theorem modTx_mcs (k : Nat) (f : TxStream → TxStream) : (modTx k f s).mcs = s.mcs := rfl
@[simp] theorem modTx_window (k : Nat) (f : TxStream → TxStream) : (modTx k f s).window = s.window := rfl
@[simp] theorem modTx_sluices (k : Nat) (f : TxStream → TxStream) : (modTx k f s).sluices = s.sluices := rfl
@[simp] theorem modTx_objs (k : Nat) (f : TxStream → TxStream) : (modTx k f s).objs = s.objs := rfl
@[simp] theorem modTx_releases (k : Nat) (f : TxStream → TxStream) : (modTx k f s).releases = s.releases := rfl
@[simp] theorem modTx_crossing (k : Nat) (f : TxStream → TxStream) : (modTx k f s).crossing = s.crossing := rfl
@[simp] theorem modTx_clusters (k : Nat) (f : TxStream → TxStream) : (modTx k f s).clusters = s.clusters := rfl
@[simp] theorem modTx_units (k : Nat) (f : TxStream → TxStream) : (modTx k f s).units = s.units := rfl
@[simp] theorem modTx_seqs (k : Nat) (f : TxStream → TxStream) : (modTx k f s).seqs = s.seqs := rfl
@[simp] theorem modTx_cul (k : Nat) (f : TxStream → TxStream) : (modTx k f s).cul = s.cul := rfl
@[simp] theorem modTx_degSet (k : Nat) (f : TxStream → TxStream) : (modTx k f s).degSet = s.degSet := rfl
@[simp] theorem modTx_degClear (k : Nat) (f : TxStream → TxStream) : (modTx k f s).degClear = s.degClear := rfl
@[simp] theorem modTx_ctxs (k : Nat) (f : TxStream → TxStream) : (modTx k f s).ctxs = s.ctxs := rfl
@[simp] theorem modTx_reports (k : Nat) (f : TxStream → TxStream) : (modTx k f s).reports = s.reports := rfl
@[simp] theorem modTx_lastClosed (k : Nat) (f : TxStream → TxStream) : (modTx k f s).lastClosed = s.lastClosed := rfl
@[simp] theorem modTx_jwide (k : Nat) (f : TxStream → TxStream) : (modTx k f s).jwide = s.jwide := rfl
@[simp] theorem modTx_ports (k : Nat) (f : TxStream → TxStream) : (modTx k f s).ports = s.ports := rfl
@[simp] theorem modTx_rxStreams (k : Nat) (f : TxStream → TxStream) : (modTx k f s).rxStreams = s.rxStreams := rfl
@[simp] theorem modTx_sendq (k : Nat) (f : TxStream → TxStream) : (modTx k f s).sendq = s.sendq := rfl
@[simp] theorem modTx_inbox (k : Nat) (f : TxStream → TxStream) : (modTx k f s).inbox = s.inbox := rfl
@[simp] theorem modTx_mbx (k : Nat) (f : TxStream → TxStream) : (modTx k f s).mbx = s.mbx := rfl
@[simp] theorem modTx_otpq (k : Nat) (f : TxStream → TxStream) : (modTx k f s).otpq = s.otpq := rfl
@[simp] theorem modTx_romProg (k : Nat) (f : TxStream → TxStream) : (modTx k f s).romProg = s.romProg := rfl
@[simp] theorem modTx_bootKeys (k : Nat) (f : TxStream → TxStream) : (modTx k f s).bootKeys = s.bootKeys := rfl
@[simp] theorem modTx_pow (k : Nat) (f : TxStream → TxStream) : (modTx k f s).pow = s.pow := rfl
@[simp] theorem modTx_brk (k : Nat) (f : TxStream → TxStream) : (modTx k f s).brk = s.brk := rfl
@[simp] theorem modTx_faultN (k : Nat) (f : TxStream → TxStream) : (modTx k f s).faultN = s.faultN := rfl
@[simp] theorem modTx_inReset (k : Nat) (f : TxStream → TxStream) : (modTx k f s).inReset = s.inReset := rfl
@[simp] theorem modTx_dbg (k : Nat) (f : TxStream → TxStream) : (modTx k f s).dbg = s.dbg := rfl
@[simp] theorem modTx_gauge (k : Nat) (f : TxStream → TxStream) : (modTx k f s).gauge = s.gauge := rfl
@[simp] theorem modTx_strapPos (k : Nat) (f : TxStream → TxStream) : (modTx k f s).strapPos = s.strapPos := rfl
@[simp] theorem modTx_strapGaddr (k : Nat) (f : TxStream → TxStream) : (modTx k f s).strapGaddr = s.strapGaddr := rfl
@[simp] theorem modTx_vfEnable (k : Nat) (f : TxStream → TxStream) : (modTx k f s).vfEnable = s.vfEnable := rfl
@[simp] theorem modTx_numVfs (k : Nat) (f : TxStream → TxStream) : (modTx k f s).numVfs = s.numVfs := rfl
@[simp] theorem modTx_out (k : Nat) (f : TxStream → TxStream) : (modTx k f s).out = s.out := rfl
@[simp] theorem modTx_freeCtr (k : Nat) (f : TxStream → TxStream) : (modTx k f s).freeCtr = s.freeCtr := rfl
@[simp] theorem getFk_modTx (k : Nat) (f : TxStream → TxStream) (g : Fld) (j l : Nat) : getFk (modTx k f s) g j l = getFk s g j l := rfl
@[simp] theorem getF_modTx (k : Nat) (f : TxStream → TxStream) (g : Fld) (j : Nat) : getF (modTx k f s) g j = getF s g j := rfl
@[simp] theorem isF_modTx (k : Nat) (f : TxStream → TxStream) (g : Fld) (j : Nat) : isF (modTx k f s) g j = isF s g j := rfl

/-! ## modRx -/

@[simp] theorem modRx_pending (k : Nat) (f : RxStream → RxStream) : (modRx k f s).pending = s.pending := rfl
@[simp] theorem modRx_regs (k : Nat) (f : RxStream → RxStream) : (modRx k f s).regs = s.regs := rfl
@[simp] theorem modRx_hiLatch (k : Nat) (f : RxStream → RxStream) : (modRx k f s).hiLatch = s.hiLatch := rfl
@[simp] theorem modRx_mem (k : Nat) (f : RxStream → RxStream) : (modRx k f s).mem = s.mem := rfl
@[simp] theorem modRx_poison (k : Nat) (f : RxStream → RxStream) : (modRx k f s).poison = s.poison := rfl
@[simp] theorem modRx_sram (k : Nat) (f : RxStream → RxStream) : (modRx k f s).sram = s.sram := rfl
@[simp] theorem modRx_hmem (k : Nat) (f : RxStream → RxStream) : (modRx k f s).hmem = s.hmem := rfl
@[simp] theorem modRx_otp (k : Nat) (f : RxStream → RxStream) : (modRx k f s).otp = s.otp := rfl
@[simp] theorem modRx_responses (k : Nat) (f : RxStream → RxStream) : (modRx k f s).responses = s.responses := rfl
@[simp] theorem modRx_mcs (k : Nat) (f : RxStream → RxStream) : (modRx k f s).mcs = s.mcs := rfl
@[simp] theorem modRx_window (k : Nat) (f : RxStream → RxStream) : (modRx k f s).window = s.window := rfl
@[simp] theorem modRx_sluices (k : Nat) (f : RxStream → RxStream) : (modRx k f s).sluices = s.sluices := rfl
@[simp] theorem modRx_objs (k : Nat) (f : RxStream → RxStream) : (modRx k f s).objs = s.objs := rfl
@[simp] theorem modRx_releases (k : Nat) (f : RxStream → RxStream) : (modRx k f s).releases = s.releases := rfl
@[simp] theorem modRx_crossing (k : Nat) (f : RxStream → RxStream) : (modRx k f s).crossing = s.crossing := rfl
@[simp] theorem modRx_clusters (k : Nat) (f : RxStream → RxStream) : (modRx k f s).clusters = s.clusters := rfl
@[simp] theorem modRx_units (k : Nat) (f : RxStream → RxStream) : (modRx k f s).units = s.units := rfl
@[simp] theorem modRx_seqs (k : Nat) (f : RxStream → RxStream) : (modRx k f s).seqs = s.seqs := rfl
@[simp] theorem modRx_cul (k : Nat) (f : RxStream → RxStream) : (modRx k f s).cul = s.cul := rfl
@[simp] theorem modRx_degSet (k : Nat) (f : RxStream → RxStream) : (modRx k f s).degSet = s.degSet := rfl
@[simp] theorem modRx_degClear (k : Nat) (f : RxStream → RxStream) : (modRx k f s).degClear = s.degClear := rfl
@[simp] theorem modRx_ctxs (k : Nat) (f : RxStream → RxStream) : (modRx k f s).ctxs = s.ctxs := rfl
@[simp] theorem modRx_reports (k : Nat) (f : RxStream → RxStream) : (modRx k f s).reports = s.reports := rfl
@[simp] theorem modRx_lastClosed (k : Nat) (f : RxStream → RxStream) : (modRx k f s).lastClosed = s.lastClosed := rfl
@[simp] theorem modRx_jwide (k : Nat) (f : RxStream → RxStream) : (modRx k f s).jwide = s.jwide := rfl
@[simp] theorem modRx_ports (k : Nat) (f : RxStream → RxStream) : (modRx k f s).ports = s.ports := rfl
@[simp] theorem modRx_txStreams (k : Nat) (f : RxStream → RxStream) : (modRx k f s).txStreams = s.txStreams := rfl
@[simp] theorem modRx_sendq (k : Nat) (f : RxStream → RxStream) : (modRx k f s).sendq = s.sendq := rfl
@[simp] theorem modRx_inbox (k : Nat) (f : RxStream → RxStream) : (modRx k f s).inbox = s.inbox := rfl
@[simp] theorem modRx_mbx (k : Nat) (f : RxStream → RxStream) : (modRx k f s).mbx = s.mbx := rfl
@[simp] theorem modRx_otpq (k : Nat) (f : RxStream → RxStream) : (modRx k f s).otpq = s.otpq := rfl
@[simp] theorem modRx_romProg (k : Nat) (f : RxStream → RxStream) : (modRx k f s).romProg = s.romProg := rfl
@[simp] theorem modRx_bootKeys (k : Nat) (f : RxStream → RxStream) : (modRx k f s).bootKeys = s.bootKeys := rfl
@[simp] theorem modRx_pow (k : Nat) (f : RxStream → RxStream) : (modRx k f s).pow = s.pow := rfl
@[simp] theorem modRx_brk (k : Nat) (f : RxStream → RxStream) : (modRx k f s).brk = s.brk := rfl
@[simp] theorem modRx_faultN (k : Nat) (f : RxStream → RxStream) : (modRx k f s).faultN = s.faultN := rfl
@[simp] theorem modRx_inReset (k : Nat) (f : RxStream → RxStream) : (modRx k f s).inReset = s.inReset := rfl
@[simp] theorem modRx_dbg (k : Nat) (f : RxStream → RxStream) : (modRx k f s).dbg = s.dbg := rfl
@[simp] theorem modRx_gauge (k : Nat) (f : RxStream → RxStream) : (modRx k f s).gauge = s.gauge := rfl
@[simp] theorem modRx_strapPos (k : Nat) (f : RxStream → RxStream) : (modRx k f s).strapPos = s.strapPos := rfl
@[simp] theorem modRx_strapGaddr (k : Nat) (f : RxStream → RxStream) : (modRx k f s).strapGaddr = s.strapGaddr := rfl
@[simp] theorem modRx_vfEnable (k : Nat) (f : RxStream → RxStream) : (modRx k f s).vfEnable = s.vfEnable := rfl
@[simp] theorem modRx_numVfs (k : Nat) (f : RxStream → RxStream) : (modRx k f s).numVfs = s.numVfs := rfl
@[simp] theorem modRx_out (k : Nat) (f : RxStream → RxStream) : (modRx k f s).out = s.out := rfl
@[simp] theorem modRx_freeCtr (k : Nat) (f : RxStream → RxStream) : (modRx k f s).freeCtr = s.freeCtr := rfl
@[simp] theorem getFk_modRx (k : Nat) (f : RxStream → RxStream) (g : Fld) (j l : Nat) : getFk (modRx k f s) g j l = getFk s g j l := rfl
@[simp] theorem getF_modRx (k : Nat) (f : RxStream → RxStream) (g : Fld) (j : Nat) : getF (modRx k f s) g j = getF s g j := rfl
@[simp] theorem isF_modRx (k : Nat) (f : RxStream → RxStream) (g : Fld) (j : Nat) : isF (modRx k f s) g j = isF s g j := rfl

/-! ## modSeq -/

@[simp] theorem modSeq_pending (rg : Nat) (f : Seq → Seq) : (modSeq rg f s).pending = s.pending := rfl
@[simp] theorem modSeq_regs (rg : Nat) (f : Seq → Seq) : (modSeq rg f s).regs = s.regs := rfl
@[simp] theorem modSeq_hiLatch (rg : Nat) (f : Seq → Seq) : (modSeq rg f s).hiLatch = s.hiLatch := rfl
@[simp] theorem modSeq_mem (rg : Nat) (f : Seq → Seq) : (modSeq rg f s).mem = s.mem := rfl
@[simp] theorem modSeq_poison (rg : Nat) (f : Seq → Seq) : (modSeq rg f s).poison = s.poison := rfl
@[simp] theorem modSeq_sram (rg : Nat) (f : Seq → Seq) : (modSeq rg f s).sram = s.sram := rfl
@[simp] theorem modSeq_hmem (rg : Nat) (f : Seq → Seq) : (modSeq rg f s).hmem = s.hmem := rfl
@[simp] theorem modSeq_otp (rg : Nat) (f : Seq → Seq) : (modSeq rg f s).otp = s.otp := rfl
@[simp] theorem modSeq_responses (rg : Nat) (f : Seq → Seq) : (modSeq rg f s).responses = s.responses := rfl
@[simp] theorem modSeq_mcs (rg : Nat) (f : Seq → Seq) : (modSeq rg f s).mcs = s.mcs := rfl
@[simp] theorem modSeq_window (rg : Nat) (f : Seq → Seq) : (modSeq rg f s).window = s.window := rfl
@[simp] theorem modSeq_sluices (rg : Nat) (f : Seq → Seq) : (modSeq rg f s).sluices = s.sluices := rfl
@[simp] theorem modSeq_objs (rg : Nat) (f : Seq → Seq) : (modSeq rg f s).objs = s.objs := rfl
@[simp] theorem modSeq_releases (rg : Nat) (f : Seq → Seq) : (modSeq rg f s).releases = s.releases := rfl
@[simp] theorem modSeq_crossing (rg : Nat) (f : Seq → Seq) : (modSeq rg f s).crossing = s.crossing := rfl
@[simp] theorem modSeq_clusters (rg : Nat) (f : Seq → Seq) : (modSeq rg f s).clusters = s.clusters := rfl
@[simp] theorem modSeq_units (rg : Nat) (f : Seq → Seq) : (modSeq rg f s).units = s.units := rfl
@[simp] theorem modSeq_cul (rg : Nat) (f : Seq → Seq) : (modSeq rg f s).cul = s.cul := rfl
@[simp] theorem modSeq_degSet (rg : Nat) (f : Seq → Seq) : (modSeq rg f s).degSet = s.degSet := rfl
@[simp] theorem modSeq_degClear (rg : Nat) (f : Seq → Seq) : (modSeq rg f s).degClear = s.degClear := rfl
@[simp] theorem modSeq_ctxs (rg : Nat) (f : Seq → Seq) : (modSeq rg f s).ctxs = s.ctxs := rfl
@[simp] theorem modSeq_reports (rg : Nat) (f : Seq → Seq) : (modSeq rg f s).reports = s.reports := rfl
@[simp] theorem modSeq_lastClosed (rg : Nat) (f : Seq → Seq) : (modSeq rg f s).lastClosed = s.lastClosed := rfl
@[simp] theorem modSeq_jwide (rg : Nat) (f : Seq → Seq) : (modSeq rg f s).jwide = s.jwide := rfl
@[simp] theorem modSeq_ports (rg : Nat) (f : Seq → Seq) : (modSeq rg f s).ports = s.ports := rfl
@[simp] theorem modSeq_txStreams (rg : Nat) (f : Seq → Seq) : (modSeq rg f s).txStreams = s.txStreams := rfl
@[simp] theorem modSeq_rxStreams (rg : Nat) (f : Seq → Seq) : (modSeq rg f s).rxStreams = s.rxStreams := rfl
@[simp] theorem modSeq_sendq (rg : Nat) (f : Seq → Seq) : (modSeq rg f s).sendq = s.sendq := rfl
@[simp] theorem modSeq_inbox (rg : Nat) (f : Seq → Seq) : (modSeq rg f s).inbox = s.inbox := rfl
@[simp] theorem modSeq_mbx (rg : Nat) (f : Seq → Seq) : (modSeq rg f s).mbx = s.mbx := rfl
@[simp] theorem modSeq_otpq (rg : Nat) (f : Seq → Seq) : (modSeq rg f s).otpq = s.otpq := rfl
@[simp] theorem modSeq_romProg (rg : Nat) (f : Seq → Seq) : (modSeq rg f s).romProg = s.romProg := rfl
@[simp] theorem modSeq_bootKeys (rg : Nat) (f : Seq → Seq) : (modSeq rg f s).bootKeys = s.bootKeys := rfl
@[simp] theorem modSeq_pow (rg : Nat) (f : Seq → Seq) : (modSeq rg f s).pow = s.pow := rfl
@[simp] theorem modSeq_brk (rg : Nat) (f : Seq → Seq) : (modSeq rg f s).brk = s.brk := rfl
@[simp] theorem modSeq_faultN (rg : Nat) (f : Seq → Seq) : (modSeq rg f s).faultN = s.faultN := rfl
@[simp] theorem modSeq_inReset (rg : Nat) (f : Seq → Seq) : (modSeq rg f s).inReset = s.inReset := rfl
@[simp] theorem modSeq_dbg (rg : Nat) (f : Seq → Seq) : (modSeq rg f s).dbg = s.dbg := rfl
@[simp] theorem modSeq_gauge (rg : Nat) (f : Seq → Seq) : (modSeq rg f s).gauge = s.gauge := rfl
@[simp] theorem modSeq_strapPos (rg : Nat) (f : Seq → Seq) : (modSeq rg f s).strapPos = s.strapPos := rfl
@[simp] theorem modSeq_strapGaddr (rg : Nat) (f : Seq → Seq) : (modSeq rg f s).strapGaddr = s.strapGaddr := rfl
@[simp] theorem modSeq_vfEnable (rg : Nat) (f : Seq → Seq) : (modSeq rg f s).vfEnable = s.vfEnable := rfl
@[simp] theorem modSeq_numVfs (rg : Nat) (f : Seq → Seq) : (modSeq rg f s).numVfs = s.numVfs := rfl
@[simp] theorem modSeq_out (rg : Nat) (f : Seq → Seq) : (modSeq rg f s).out = s.out := rfl
@[simp] theorem modSeq_freeCtr (rg : Nat) (f : Seq → Seq) : (modSeq rg f s).freeCtr = s.freeCtr := rfl
@[simp] theorem getFk_modSeq (rg : Nat) (f : Seq → Seq) (g : Fld) (j l : Nat) : getFk (modSeq rg f s) g j l = getFk s g j l := rfl
@[simp] theorem getF_modSeq (rg : Nat) (f : Seq → Seq) (g : Fld) (j : Nat) : getF (modSeq rg f s) g j = getF s g j := rfl
@[simp] theorem isF_modSeq (rg : Nat) (f : Seq → Seq) (g : Fld) (j : Nat) : isF (modSeq rg f s) g j = isF s g j := rfl

/-! ## modGauge -/

@[simp] theorem modGauge_pending (f : GaugeRun → GaugeRun) : (modGauge f s).pending = s.pending := rfl
@[simp] theorem modGauge_regs (f : GaugeRun → GaugeRun) : (modGauge f s).regs = s.regs := rfl
@[simp] theorem modGauge_hiLatch (f : GaugeRun → GaugeRun) : (modGauge f s).hiLatch = s.hiLatch := rfl
@[simp] theorem modGauge_mem (f : GaugeRun → GaugeRun) : (modGauge f s).mem = s.mem := rfl
@[simp] theorem modGauge_poison (f : GaugeRun → GaugeRun) : (modGauge f s).poison = s.poison := rfl
@[simp] theorem modGauge_sram (f : GaugeRun → GaugeRun) : (modGauge f s).sram = s.sram := rfl
@[simp] theorem modGauge_hmem (f : GaugeRun → GaugeRun) : (modGauge f s).hmem = s.hmem := rfl
@[simp] theorem modGauge_otp (f : GaugeRun → GaugeRun) : (modGauge f s).otp = s.otp := rfl
@[simp] theorem modGauge_responses (f : GaugeRun → GaugeRun) : (modGauge f s).responses = s.responses := rfl
@[simp] theorem modGauge_mcs (f : GaugeRun → GaugeRun) : (modGauge f s).mcs = s.mcs := rfl
@[simp] theorem modGauge_window (f : GaugeRun → GaugeRun) : (modGauge f s).window = s.window := rfl
@[simp] theorem modGauge_sluices (f : GaugeRun → GaugeRun) : (modGauge f s).sluices = s.sluices := rfl
@[simp] theorem modGauge_objs (f : GaugeRun → GaugeRun) : (modGauge f s).objs = s.objs := rfl
@[simp] theorem modGauge_releases (f : GaugeRun → GaugeRun) : (modGauge f s).releases = s.releases := rfl
@[simp] theorem modGauge_crossing (f : GaugeRun → GaugeRun) : (modGauge f s).crossing = s.crossing := rfl
@[simp] theorem modGauge_clusters (f : GaugeRun → GaugeRun) : (modGauge f s).clusters = s.clusters := rfl
@[simp] theorem modGauge_units (f : GaugeRun → GaugeRun) : (modGauge f s).units = s.units := rfl
@[simp] theorem modGauge_seqs (f : GaugeRun → GaugeRun) : (modGauge f s).seqs = s.seqs := rfl
@[simp] theorem modGauge_cul (f : GaugeRun → GaugeRun) : (modGauge f s).cul = s.cul := rfl
@[simp] theorem modGauge_degSet (f : GaugeRun → GaugeRun) : (modGauge f s).degSet = s.degSet := rfl
@[simp] theorem modGauge_degClear (f : GaugeRun → GaugeRun) : (modGauge f s).degClear = s.degClear := rfl
@[simp] theorem modGauge_ctxs (f : GaugeRun → GaugeRun) : (modGauge f s).ctxs = s.ctxs := rfl
@[simp] theorem modGauge_reports (f : GaugeRun → GaugeRun) : (modGauge f s).reports = s.reports := rfl
@[simp] theorem modGauge_lastClosed (f : GaugeRun → GaugeRun) : (modGauge f s).lastClosed = s.lastClosed := rfl
@[simp] theorem modGauge_jwide (f : GaugeRun → GaugeRun) : (modGauge f s).jwide = s.jwide := rfl
@[simp] theorem modGauge_ports (f : GaugeRun → GaugeRun) : (modGauge f s).ports = s.ports := rfl
@[simp] theorem modGauge_txStreams (f : GaugeRun → GaugeRun) : (modGauge f s).txStreams = s.txStreams := rfl
@[simp] theorem modGauge_rxStreams (f : GaugeRun → GaugeRun) : (modGauge f s).rxStreams = s.rxStreams := rfl
@[simp] theorem modGauge_sendq (f : GaugeRun → GaugeRun) : (modGauge f s).sendq = s.sendq := rfl
@[simp] theorem modGauge_inbox (f : GaugeRun → GaugeRun) : (modGauge f s).inbox = s.inbox := rfl
@[simp] theorem modGauge_mbx (f : GaugeRun → GaugeRun) : (modGauge f s).mbx = s.mbx := rfl
@[simp] theorem modGauge_otpq (f : GaugeRun → GaugeRun) : (modGauge f s).otpq = s.otpq := rfl
@[simp] theorem modGauge_romProg (f : GaugeRun → GaugeRun) : (modGauge f s).romProg = s.romProg := rfl
@[simp] theorem modGauge_bootKeys (f : GaugeRun → GaugeRun) : (modGauge f s).bootKeys = s.bootKeys := rfl
@[simp] theorem modGauge_pow (f : GaugeRun → GaugeRun) : (modGauge f s).pow = s.pow := rfl
@[simp] theorem modGauge_brk (f : GaugeRun → GaugeRun) : (modGauge f s).brk = s.brk := rfl
@[simp] theorem modGauge_faultN (f : GaugeRun → GaugeRun) : (modGauge f s).faultN = s.faultN := rfl
@[simp] theorem modGauge_inReset (f : GaugeRun → GaugeRun) : (modGauge f s).inReset = s.inReset := rfl
@[simp] theorem modGauge_dbg (f : GaugeRun → GaugeRun) : (modGauge f s).dbg = s.dbg := rfl
@[simp] theorem modGauge_strapPos (f : GaugeRun → GaugeRun) : (modGauge f s).strapPos = s.strapPos := rfl
@[simp] theorem modGauge_strapGaddr (f : GaugeRun → GaugeRun) : (modGauge f s).strapGaddr = s.strapGaddr := rfl
@[simp] theorem modGauge_vfEnable (f : GaugeRun → GaugeRun) : (modGauge f s).vfEnable = s.vfEnable := rfl
@[simp] theorem modGauge_numVfs (f : GaugeRun → GaugeRun) : (modGauge f s).numVfs = s.numVfs := rfl
@[simp] theorem modGauge_out (f : GaugeRun → GaugeRun) : (modGauge f s).out = s.out := rfl
@[simp] theorem modGauge_freeCtr (f : GaugeRun → GaugeRun) : (modGauge f s).freeCtr = s.freeCtr := rfl
@[simp] theorem getFk_modGauge (f : GaugeRun → GaugeRun) (g : Fld) (j l : Nat) : getFk (modGauge f s) g j l = getFk s g j l := rfl
@[simp] theorem getF_modGauge (f : GaugeRun → GaugeRun) (g : Fld) (j : Nat) : getF (modGauge f s) g j = getF s g j := rfl
@[simp] theorem isF_modGauge (f : GaugeRun → GaugeRun) (g : Fld) (j : Nat) : isF (modGauge f s) g j = isF s g j := rfl

/-! ## sramWrite -/

@[simp] theorem sramWrite_pending (cl a : Nat) (bs : List Byte) : (sramWrite cl a bs s).pending = s.pending := rfl
@[simp] theorem sramWrite_regs (cl a : Nat) (bs : List Byte) : (sramWrite cl a bs s).regs = s.regs := rfl
@[simp] theorem sramWrite_hiLatch (cl a : Nat) (bs : List Byte) : (sramWrite cl a bs s).hiLatch = s.hiLatch := rfl
@[simp] theorem sramWrite_mem (cl a : Nat) (bs : List Byte) : (sramWrite cl a bs s).mem = s.mem := rfl
@[simp] theorem sramWrite_poison (cl a : Nat) (bs : List Byte) : (sramWrite cl a bs s).poison = s.poison := rfl
@[simp] theorem sramWrite_hmem (cl a : Nat) (bs : List Byte) : (sramWrite cl a bs s).hmem = s.hmem := rfl
@[simp] theorem sramWrite_otp (cl a : Nat) (bs : List Byte) : (sramWrite cl a bs s).otp = s.otp := rfl
@[simp] theorem sramWrite_responses (cl a : Nat) (bs : List Byte) : (sramWrite cl a bs s).responses = s.responses := rfl
@[simp] theorem sramWrite_mcs (cl a : Nat) (bs : List Byte) : (sramWrite cl a bs s).mcs = s.mcs := rfl
@[simp] theorem sramWrite_window (cl a : Nat) (bs : List Byte) : (sramWrite cl a bs s).window = s.window := rfl
@[simp] theorem sramWrite_sluices (cl a : Nat) (bs : List Byte) : (sramWrite cl a bs s).sluices = s.sluices := rfl
@[simp] theorem sramWrite_objs (cl a : Nat) (bs : List Byte) : (sramWrite cl a bs s).objs = s.objs := rfl
@[simp] theorem sramWrite_releases (cl a : Nat) (bs : List Byte) : (sramWrite cl a bs s).releases = s.releases := rfl
@[simp] theorem sramWrite_crossing (cl a : Nat) (bs : List Byte) : (sramWrite cl a bs s).crossing = s.crossing := rfl
@[simp] theorem sramWrite_clusters (cl a : Nat) (bs : List Byte) : (sramWrite cl a bs s).clusters = s.clusters := rfl
@[simp] theorem sramWrite_units (cl a : Nat) (bs : List Byte) : (sramWrite cl a bs s).units = s.units := rfl
@[simp] theorem sramWrite_seqs (cl a : Nat) (bs : List Byte) : (sramWrite cl a bs s).seqs = s.seqs := rfl
@[simp] theorem sramWrite_cul (cl a : Nat) (bs : List Byte) : (sramWrite cl a bs s).cul = s.cul := rfl
@[simp] theorem sramWrite_degSet (cl a : Nat) (bs : List Byte) : (sramWrite cl a bs s).degSet = s.degSet := rfl
@[simp] theorem sramWrite_degClear (cl a : Nat) (bs : List Byte) : (sramWrite cl a bs s).degClear = s.degClear := rfl
@[simp] theorem sramWrite_ctxs (cl a : Nat) (bs : List Byte) : (sramWrite cl a bs s).ctxs = s.ctxs := rfl
@[simp] theorem sramWrite_reports (cl a : Nat) (bs : List Byte) : (sramWrite cl a bs s).reports = s.reports := rfl
@[simp] theorem sramWrite_lastClosed (cl a : Nat) (bs : List Byte) : (sramWrite cl a bs s).lastClosed = s.lastClosed := rfl
@[simp] theorem sramWrite_jwide (cl a : Nat) (bs : List Byte) : (sramWrite cl a bs s).jwide = s.jwide := rfl
@[simp] theorem sramWrite_ports (cl a : Nat) (bs : List Byte) : (sramWrite cl a bs s).ports = s.ports := rfl
@[simp] theorem sramWrite_txStreams (cl a : Nat) (bs : List Byte) : (sramWrite cl a bs s).txStreams = s.txStreams := rfl
@[simp] theorem sramWrite_rxStreams (cl a : Nat) (bs : List Byte) : (sramWrite cl a bs s).rxStreams = s.rxStreams := rfl
@[simp] theorem sramWrite_sendq (cl a : Nat) (bs : List Byte) : (sramWrite cl a bs s).sendq = s.sendq := rfl
@[simp] theorem sramWrite_inbox (cl a : Nat) (bs : List Byte) : (sramWrite cl a bs s).inbox = s.inbox := rfl
@[simp] theorem sramWrite_mbx (cl a : Nat) (bs : List Byte) : (sramWrite cl a bs s).mbx = s.mbx := rfl
@[simp] theorem sramWrite_otpq (cl a : Nat) (bs : List Byte) : (sramWrite cl a bs s).otpq = s.otpq := rfl
@[simp] theorem sramWrite_romProg (cl a : Nat) (bs : List Byte) : (sramWrite cl a bs s).romProg = s.romProg := rfl
@[simp] theorem sramWrite_bootKeys (cl a : Nat) (bs : List Byte) : (sramWrite cl a bs s).bootKeys = s.bootKeys := rfl
@[simp] theorem sramWrite_pow (cl a : Nat) (bs : List Byte) : (sramWrite cl a bs s).pow = s.pow := rfl
@[simp] theorem sramWrite_brk (cl a : Nat) (bs : List Byte) : (sramWrite cl a bs s).brk = s.brk := rfl
@[simp] theorem sramWrite_faultN (cl a : Nat) (bs : List Byte) : (sramWrite cl a bs s).faultN = s.faultN := rfl
@[simp] theorem sramWrite_inReset (cl a : Nat) (bs : List Byte) : (sramWrite cl a bs s).inReset = s.inReset := rfl
@[simp] theorem sramWrite_dbg (cl a : Nat) (bs : List Byte) : (sramWrite cl a bs s).dbg = s.dbg := rfl
@[simp] theorem sramWrite_gauge (cl a : Nat) (bs : List Byte) : (sramWrite cl a bs s).gauge = s.gauge := rfl
@[simp] theorem sramWrite_strapPos (cl a : Nat) (bs : List Byte) : (sramWrite cl a bs s).strapPos = s.strapPos := rfl
@[simp] theorem sramWrite_strapGaddr (cl a : Nat) (bs : List Byte) : (sramWrite cl a bs s).strapGaddr = s.strapGaddr := rfl
@[simp] theorem sramWrite_vfEnable (cl a : Nat) (bs : List Byte) : (sramWrite cl a bs s).vfEnable = s.vfEnable := rfl
@[simp] theorem sramWrite_numVfs (cl a : Nat) (bs : List Byte) : (sramWrite cl a bs s).numVfs = s.numVfs := rfl
@[simp] theorem sramWrite_out (cl a : Nat) (bs : List Byte) : (sramWrite cl a bs s).out = s.out := rfl
@[simp] theorem sramWrite_freeCtr (cl a : Nat) (bs : List Byte) : (sramWrite cl a bs s).freeCtr = s.freeCtr := rfl
@[simp] theorem getFk_sramWrite (cl a : Nat) (bs : List Byte) (g : Fld) (j l : Nat) : getFk (sramWrite cl a bs s) g j l = getFk s g j l := rfl
@[simp] theorem getF_sramWrite (cl a : Nat) (bs : List Byte) (g : Fld) (j : Nat) : getF (sramWrite cl a bs s) g j = getF s g j := rfl
@[simp] theorem isF_sramWrite (cl a : Nat) (bs : List Byte) (g : Fld) (j : Nat) : isF (sramWrite cl a bs s) g j = isF s g j := rfl

/-! ## hostWrite -/

@[simp] theorem hostWrite_pending (a : Nat) (bs : List Byte) : (hostWrite a bs s).pending = s.pending := rfl
@[simp] theorem hostWrite_regs (a : Nat) (bs : List Byte) : (hostWrite a bs s).regs = s.regs := rfl
@[simp] theorem hostWrite_hiLatch (a : Nat) (bs : List Byte) : (hostWrite a bs s).hiLatch = s.hiLatch := rfl
@[simp] theorem hostWrite_mem (a : Nat) (bs : List Byte) : (hostWrite a bs s).mem = s.mem := rfl
@[simp] theorem hostWrite_poison (a : Nat) (bs : List Byte) : (hostWrite a bs s).poison = s.poison := rfl
@[simp] theorem hostWrite_sram (a : Nat) (bs : List Byte) : (hostWrite a bs s).sram = s.sram := rfl
@[simp] theorem hostWrite_otp (a : Nat) (bs : List Byte) : (hostWrite a bs s).otp = s.otp := rfl
@[simp] theorem hostWrite_responses (a : Nat) (bs : List Byte) : (hostWrite a bs s).responses = s.responses := rfl
@[simp] theorem hostWrite_mcs (a : Nat) (bs : List Byte) : (hostWrite a bs s).mcs = s.mcs := rfl
@[simp] theorem hostWrite_window (a : Nat) (bs : List Byte) : (hostWrite a bs s).window = s.window := rfl
@[simp] theorem hostWrite_sluices (a : Nat) (bs : List Byte) : (hostWrite a bs s).sluices = s.sluices := rfl
@[simp] theorem hostWrite_objs (a : Nat) (bs : List Byte) : (hostWrite a bs s).objs = s.objs := rfl
@[simp] theorem hostWrite_releases (a : Nat) (bs : List Byte) : (hostWrite a bs s).releases = s.releases := rfl
@[simp] theorem hostWrite_crossing (a : Nat) (bs : List Byte) : (hostWrite a bs s).crossing = s.crossing := rfl
@[simp] theorem hostWrite_clusters (a : Nat) (bs : List Byte) : (hostWrite a bs s).clusters = s.clusters := rfl
@[simp] theorem hostWrite_units (a : Nat) (bs : List Byte) : (hostWrite a bs s).units = s.units := rfl
@[simp] theorem hostWrite_seqs (a : Nat) (bs : List Byte) : (hostWrite a bs s).seqs = s.seqs := rfl
@[simp] theorem hostWrite_cul (a : Nat) (bs : List Byte) : (hostWrite a bs s).cul = s.cul := rfl
@[simp] theorem hostWrite_degSet (a : Nat) (bs : List Byte) : (hostWrite a bs s).degSet = s.degSet := rfl
@[simp] theorem hostWrite_degClear (a : Nat) (bs : List Byte) : (hostWrite a bs s).degClear = s.degClear := rfl
@[simp] theorem hostWrite_ctxs (a : Nat) (bs : List Byte) : (hostWrite a bs s).ctxs = s.ctxs := rfl
@[simp] theorem hostWrite_reports (a : Nat) (bs : List Byte) : (hostWrite a bs s).reports = s.reports := rfl
@[simp] theorem hostWrite_lastClosed (a : Nat) (bs : List Byte) : (hostWrite a bs s).lastClosed = s.lastClosed := rfl
@[simp] theorem hostWrite_jwide (a : Nat) (bs : List Byte) : (hostWrite a bs s).jwide = s.jwide := rfl
@[simp] theorem hostWrite_ports (a : Nat) (bs : List Byte) : (hostWrite a bs s).ports = s.ports := rfl
@[simp] theorem hostWrite_txStreams (a : Nat) (bs : List Byte) : (hostWrite a bs s).txStreams = s.txStreams := rfl
@[simp] theorem hostWrite_rxStreams (a : Nat) (bs : List Byte) : (hostWrite a bs s).rxStreams = s.rxStreams := rfl
@[simp] theorem hostWrite_sendq (a : Nat) (bs : List Byte) : (hostWrite a bs s).sendq = s.sendq := rfl
@[simp] theorem hostWrite_inbox (a : Nat) (bs : List Byte) : (hostWrite a bs s).inbox = s.inbox := rfl
@[simp] theorem hostWrite_mbx (a : Nat) (bs : List Byte) : (hostWrite a bs s).mbx = s.mbx := rfl
@[simp] theorem hostWrite_otpq (a : Nat) (bs : List Byte) : (hostWrite a bs s).otpq = s.otpq := rfl
@[simp] theorem hostWrite_romProg (a : Nat) (bs : List Byte) : (hostWrite a bs s).romProg = s.romProg := rfl
@[simp] theorem hostWrite_bootKeys (a : Nat) (bs : List Byte) : (hostWrite a bs s).bootKeys = s.bootKeys := rfl
@[simp] theorem hostWrite_pow (a : Nat) (bs : List Byte) : (hostWrite a bs s).pow = s.pow := rfl
@[simp] theorem hostWrite_brk (a : Nat) (bs : List Byte) : (hostWrite a bs s).brk = s.brk := rfl
@[simp] theorem hostWrite_faultN (a : Nat) (bs : List Byte) : (hostWrite a bs s).faultN = s.faultN := rfl
@[simp] theorem hostWrite_inReset (a : Nat) (bs : List Byte) : (hostWrite a bs s).inReset = s.inReset := rfl
@[simp] theorem hostWrite_dbg (a : Nat) (bs : List Byte) : (hostWrite a bs s).dbg = s.dbg := rfl
@[simp] theorem hostWrite_gauge (a : Nat) (bs : List Byte) : (hostWrite a bs s).gauge = s.gauge := rfl
@[simp] theorem hostWrite_strapPos (a : Nat) (bs : List Byte) : (hostWrite a bs s).strapPos = s.strapPos := rfl
@[simp] theorem hostWrite_strapGaddr (a : Nat) (bs : List Byte) : (hostWrite a bs s).strapGaddr = s.strapGaddr := rfl
@[simp] theorem hostWrite_vfEnable (a : Nat) (bs : List Byte) : (hostWrite a bs s).vfEnable = s.vfEnable := rfl
@[simp] theorem hostWrite_numVfs (a : Nat) (bs : List Byte) : (hostWrite a bs s).numVfs = s.numVfs := rfl
@[simp] theorem hostWrite_out (a : Nat) (bs : List Byte) : (hostWrite a bs s).out = s.out := rfl
@[simp] theorem hostWrite_freeCtr (a : Nat) (bs : List Byte) : (hostWrite a bs s).freeCtr = s.freeCtr := rfl
@[simp] theorem getFk_hostWrite (a : Nat) (bs : List Byte) (g : Fld) (j l : Nat) : getFk (hostWrite a bs s) g j l = getFk s g j l := rfl
@[simp] theorem getF_hostWrite (a : Nat) (bs : List Byte) (g : Fld) (j : Nat) : getF (hostWrite a bs s) g j = getF s g j := rfl
@[simp] theorem isF_hostWrite (a : Nat) (bs : List Byte) (g : Fld) (j : Nat) : isF (hostWrite a bs s) g j = isF s g j := rfl

/-! ## nextFree -/

@[simp] theorem nextFree_pending : (nextFree s).pending = s.pending := rfl
@[simp] theorem nextFree_regs : (nextFree s).regs = s.regs := rfl
@[simp] theorem nextFree_hiLatch : (nextFree s).hiLatch = s.hiLatch := rfl
@[simp] theorem nextFree_mem : (nextFree s).mem = s.mem := rfl
@[simp] theorem nextFree_poison : (nextFree s).poison = s.poison := rfl
@[simp] theorem nextFree_sram : (nextFree s).sram = s.sram := rfl
@[simp] theorem nextFree_hmem : (nextFree s).hmem = s.hmem := rfl
@[simp] theorem nextFree_otp : (nextFree s).otp = s.otp := rfl
@[simp] theorem nextFree_responses : (nextFree s).responses = s.responses := rfl
@[simp] theorem nextFree_mcs : (nextFree s).mcs = s.mcs := rfl
@[simp] theorem nextFree_window : (nextFree s).window = s.window := rfl
@[simp] theorem nextFree_sluices : (nextFree s).sluices = s.sluices := rfl
@[simp] theorem nextFree_objs : (nextFree s).objs = s.objs := rfl
@[simp] theorem nextFree_releases : (nextFree s).releases = s.releases := rfl
@[simp] theorem nextFree_crossing : (nextFree s).crossing = s.crossing := rfl
@[simp] theorem nextFree_clusters : (nextFree s).clusters = s.clusters := rfl
@[simp] theorem nextFree_units : (nextFree s).units = s.units := rfl
@[simp] theorem nextFree_seqs : (nextFree s).seqs = s.seqs := rfl
@[simp] theorem nextFree_cul : (nextFree s).cul = s.cul := rfl
@[simp] theorem nextFree_degSet : (nextFree s).degSet = s.degSet := rfl
@[simp] theorem nextFree_degClear : (nextFree s).degClear = s.degClear := rfl
@[simp] theorem nextFree_ctxs : (nextFree s).ctxs = s.ctxs := rfl
@[simp] theorem nextFree_reports : (nextFree s).reports = s.reports := rfl
@[simp] theorem nextFree_lastClosed : (nextFree s).lastClosed = s.lastClosed := rfl
@[simp] theorem nextFree_jwide : (nextFree s).jwide = s.jwide := rfl
@[simp] theorem nextFree_ports : (nextFree s).ports = s.ports := rfl
@[simp] theorem nextFree_txStreams : (nextFree s).txStreams = s.txStreams := rfl
@[simp] theorem nextFree_rxStreams : (nextFree s).rxStreams = s.rxStreams := rfl
@[simp] theorem nextFree_sendq : (nextFree s).sendq = s.sendq := rfl
@[simp] theorem nextFree_inbox : (nextFree s).inbox = s.inbox := rfl
@[simp] theorem nextFree_mbx : (nextFree s).mbx = s.mbx := rfl
@[simp] theorem nextFree_otpq : (nextFree s).otpq = s.otpq := rfl
@[simp] theorem nextFree_romProg : (nextFree s).romProg = s.romProg := rfl
@[simp] theorem nextFree_bootKeys : (nextFree s).bootKeys = s.bootKeys := rfl
@[simp] theorem nextFree_pow : (nextFree s).pow = s.pow := rfl
@[simp] theorem nextFree_brk : (nextFree s).brk = s.brk := rfl
@[simp] theorem nextFree_faultN : (nextFree s).faultN = s.faultN := rfl
@[simp] theorem nextFree_inReset : (nextFree s).inReset = s.inReset := rfl
@[simp] theorem nextFree_dbg : (nextFree s).dbg = s.dbg := rfl
@[simp] theorem nextFree_gauge : (nextFree s).gauge = s.gauge := rfl
@[simp] theorem nextFree_strapPos : (nextFree s).strapPos = s.strapPos := rfl
@[simp] theorem nextFree_strapGaddr : (nextFree s).strapGaddr = s.strapGaddr := rfl
@[simp] theorem nextFree_vfEnable : (nextFree s).vfEnable = s.vfEnable := rfl
@[simp] theorem nextFree_numVfs : (nextFree s).numVfs = s.numVfs := rfl
@[simp] theorem nextFree_out : (nextFree s).out = s.out := rfl
@[simp] theorem getFk_nextFree (g : Fld) (j l : Nat) : getFk (nextFree s) g j l = getFk s g j l := rfl
@[simp] theorem getF_nextFree (g : Fld) (j : Nat) : getF (nextFree s) g j = getF s g j := rfl
@[simp] theorem isF_nextFree (g : Fld) (j : Nat) : isF (nextFree s) g j = isF s g j := rfl

/-! ## report -/

@[simp] theorem report_pending (h st r0 r1 : Nat) : (report h st r0 r1 s).pending = s.pending := rfl
@[simp] theorem report_regs (h st r0 r1 : Nat) : (report h st r0 r1 s).regs = s.regs := rfl
@[simp] theorem report_hiLatch (h st r0 r1 : Nat) : (report h st r0 r1 s).hiLatch = s.hiLatch := rfl
@[simp] theorem report_mem (h st r0 r1 : Nat) : (report h st r0 r1 s).mem = s.mem := rfl
@[simp] theorem report_poison (h st r0 r1 : Nat) : (report h st r0 r1 s).poison = s.poison := rfl
@[simp] theorem report_sram (h st r0 r1 : Nat) : (report h st r0 r1 s).sram = s.sram := rfl
@[simp] theorem report_hmem (h st r0 r1 : Nat) : (report h st r0 r1 s).hmem = s.hmem := rfl
@[simp] theorem report_otp (h st r0 r1 : Nat) : (report h st r0 r1 s).otp = s.otp := rfl
@[simp] theorem report_responses (h st r0 r1 : Nat) : (report h st r0 r1 s).responses = s.responses := rfl
@[simp] theorem report_mcs (h st r0 r1 : Nat) : (report h st r0 r1 s).mcs = s.mcs := rfl
@[simp] theorem report_window (h st r0 r1 : Nat) : (report h st r0 r1 s).window = s.window := rfl
@[simp] theorem report_sluices (h st r0 r1 : Nat) : (report h st r0 r1 s).sluices = s.sluices := rfl
@[simp] theorem report_objs (h st r0 r1 : Nat) : (report h st r0 r1 s).objs = s.objs := rfl
@[simp] theorem report_releases (h st r0 r1 : Nat) : (report h st r0 r1 s).releases = s.releases := rfl
@[simp] theorem report_crossing (h st r0 r1 : Nat) : (report h st r0 r1 s).crossing = s.crossing := rfl
@[simp] theorem report_clusters (h st r0 r1 : Nat) : (report h st r0 r1 s).clusters = s.clusters := rfl
@[simp] theorem report_units (h st r0 r1 : Nat) : (report h st r0 r1 s).units = s.units := rfl
@[simp] theorem report_seqs (h st r0 r1 : Nat) : (report h st r0 r1 s).seqs = s.seqs := rfl
@[simp] theorem report_cul (h st r0 r1 : Nat) : (report h st r0 r1 s).cul = s.cul := rfl
@[simp] theorem report_degSet (h st r0 r1 : Nat) : (report h st r0 r1 s).degSet = s.degSet := rfl
@[simp] theorem report_degClear (h st r0 r1 : Nat) : (report h st r0 r1 s).degClear = s.degClear := rfl
@[simp] theorem report_ctxs (h st r0 r1 : Nat) : (report h st r0 r1 s).ctxs = s.ctxs := rfl
@[simp] theorem report_lastClosed (h st r0 r1 : Nat) : (report h st r0 r1 s).lastClosed = s.lastClosed := rfl
@[simp] theorem report_jwide (h st r0 r1 : Nat) : (report h st r0 r1 s).jwide = s.jwide := rfl
@[simp] theorem report_ports (h st r0 r1 : Nat) : (report h st r0 r1 s).ports = s.ports := rfl
@[simp] theorem report_txStreams (h st r0 r1 : Nat) : (report h st r0 r1 s).txStreams = s.txStreams := rfl
@[simp] theorem report_rxStreams (h st r0 r1 : Nat) : (report h st r0 r1 s).rxStreams = s.rxStreams := rfl
@[simp] theorem report_sendq (h st r0 r1 : Nat) : (report h st r0 r1 s).sendq = s.sendq := rfl
@[simp] theorem report_inbox (h st r0 r1 : Nat) : (report h st r0 r1 s).inbox = s.inbox := rfl
@[simp] theorem report_mbx (h st r0 r1 : Nat) : (report h st r0 r1 s).mbx = s.mbx := rfl
@[simp] theorem report_otpq (h st r0 r1 : Nat) : (report h st r0 r1 s).otpq = s.otpq := rfl
@[simp] theorem report_romProg (h st r0 r1 : Nat) : (report h st r0 r1 s).romProg = s.romProg := rfl
@[simp] theorem report_bootKeys (h st r0 r1 : Nat) : (report h st r0 r1 s).bootKeys = s.bootKeys := rfl
@[simp] theorem report_pow (h st r0 r1 : Nat) : (report h st r0 r1 s).pow = s.pow := rfl
@[simp] theorem report_brk (h st r0 r1 : Nat) : (report h st r0 r1 s).brk = s.brk := rfl
@[simp] theorem report_faultN (h st r0 r1 : Nat) : (report h st r0 r1 s).faultN = s.faultN := rfl
@[simp] theorem report_inReset (h st r0 r1 : Nat) : (report h st r0 r1 s).inReset = s.inReset := rfl
@[simp] theorem report_dbg (h st r0 r1 : Nat) : (report h st r0 r1 s).dbg = s.dbg := rfl
@[simp] theorem report_gauge (h st r0 r1 : Nat) : (report h st r0 r1 s).gauge = s.gauge := rfl
@[simp] theorem report_strapPos (h st r0 r1 : Nat) : (report h st r0 r1 s).strapPos = s.strapPos := rfl
@[simp] theorem report_strapGaddr (h st r0 r1 : Nat) : (report h st r0 r1 s).strapGaddr = s.strapGaddr := rfl
@[simp] theorem report_vfEnable (h st r0 r1 : Nat) : (report h st r0 r1 s).vfEnable = s.vfEnable := rfl
@[simp] theorem report_numVfs (h st r0 r1 : Nat) : (report h st r0 r1 s).numVfs = s.numVfs := rfl
@[simp] theorem report_out (h st r0 r1 : Nat) : (report h st r0 r1 s).out = s.out := rfl
@[simp] theorem report_freeCtr (h st r0 r1 : Nat) : (report h st r0 r1 s).freeCtr = s.freeCtr := rfl
@[simp] theorem getFk_report (h st r0 r1 : Nat) (g : Fld) (j l : Nat) : getFk (report h st r0 r1 s) g j l = getFk s g j l := rfl
@[simp] theorem getF_report (h st r0 r1 : Nat) (g : Fld) (j : Nat) : getF (report h st r0 r1 s) g j = getF s g j := rfl
@[simp] theorem isF_report (h st r0 r1 : Nat) (g : Fld) (j : Nat) : isF (report h st r0 r1 s) g j = isF s g j := rfl

/-! ## respond -/

@[simp] theorem respond_pending (eng tag : Nat) (st : MemStatus) (data : List Byte) : (respond eng tag st data s).pending = s.pending := rfl
@[simp] theorem respond_regs (eng tag : Nat) (st : MemStatus) (data : List Byte) : (respond eng tag st data s).regs = s.regs := rfl
@[simp] theorem respond_hiLatch (eng tag : Nat) (st : MemStatus) (data : List Byte) : (respond eng tag st data s).hiLatch = s.hiLatch := rfl
@[simp] theorem respond_mem (eng tag : Nat) (st : MemStatus) (data : List Byte) : (respond eng tag st data s).mem = s.mem := rfl
@[simp] theorem respond_poison (eng tag : Nat) (st : MemStatus) (data : List Byte) : (respond eng tag st data s).poison = s.poison := rfl
@[simp] theorem respond_sram (eng tag : Nat) (st : MemStatus) (data : List Byte) : (respond eng tag st data s).sram = s.sram := rfl
@[simp] theorem respond_hmem (eng tag : Nat) (st : MemStatus) (data : List Byte) : (respond eng tag st data s).hmem = s.hmem := rfl
@[simp] theorem respond_otp (eng tag : Nat) (st : MemStatus) (data : List Byte) : (respond eng tag st data s).otp = s.otp := rfl
@[simp] theorem respond_mcs (eng tag : Nat) (st : MemStatus) (data : List Byte) : (respond eng tag st data s).mcs = s.mcs := rfl
@[simp] theorem respond_window (eng tag : Nat) (st : MemStatus) (data : List Byte) : (respond eng tag st data s).window = s.window := rfl
@[simp] theorem respond_sluices (eng tag : Nat) (st : MemStatus) (data : List Byte) : (respond eng tag st data s).sluices = s.sluices := rfl
@[simp] theorem respond_objs (eng tag : Nat) (st : MemStatus) (data : List Byte) : (respond eng tag st data s).objs = s.objs := rfl
@[simp] theorem respond_releases (eng tag : Nat) (st : MemStatus) (data : List Byte) : (respond eng tag st data s).releases = s.releases := rfl
@[simp] theorem respond_crossing (eng tag : Nat) (st : MemStatus) (data : List Byte) : (respond eng tag st data s).crossing = s.crossing := rfl
@[simp] theorem respond_clusters (eng tag : Nat) (st : MemStatus) (data : List Byte) : (respond eng tag st data s).clusters = s.clusters := rfl
@[simp] theorem respond_units (eng tag : Nat) (st : MemStatus) (data : List Byte) : (respond eng tag st data s).units = s.units := rfl
@[simp] theorem respond_seqs (eng tag : Nat) (st : MemStatus) (data : List Byte) : (respond eng tag st data s).seqs = s.seqs := rfl
@[simp] theorem respond_cul (eng tag : Nat) (st : MemStatus) (data : List Byte) : (respond eng tag st data s).cul = s.cul := rfl
@[simp] theorem respond_degSet (eng tag : Nat) (st : MemStatus) (data : List Byte) : (respond eng tag st data s).degSet = s.degSet := rfl
@[simp] theorem respond_degClear (eng tag : Nat) (st : MemStatus) (data : List Byte) : (respond eng tag st data s).degClear = s.degClear := rfl
@[simp] theorem respond_ctxs (eng tag : Nat) (st : MemStatus) (data : List Byte) : (respond eng tag st data s).ctxs = s.ctxs := rfl
@[simp] theorem respond_reports (eng tag : Nat) (st : MemStatus) (data : List Byte) : (respond eng tag st data s).reports = s.reports := rfl
@[simp] theorem respond_lastClosed (eng tag : Nat) (st : MemStatus) (data : List Byte) : (respond eng tag st data s).lastClosed = s.lastClosed := rfl
@[simp] theorem respond_jwide (eng tag : Nat) (st : MemStatus) (data : List Byte) : (respond eng tag st data s).jwide = s.jwide := rfl
@[simp] theorem respond_ports (eng tag : Nat) (st : MemStatus) (data : List Byte) : (respond eng tag st data s).ports = s.ports := rfl
@[simp] theorem respond_txStreams (eng tag : Nat) (st : MemStatus) (data : List Byte) : (respond eng tag st data s).txStreams = s.txStreams := rfl
@[simp] theorem respond_rxStreams (eng tag : Nat) (st : MemStatus) (data : List Byte) : (respond eng tag st data s).rxStreams = s.rxStreams := rfl
@[simp] theorem respond_sendq (eng tag : Nat) (st : MemStatus) (data : List Byte) : (respond eng tag st data s).sendq = s.sendq := rfl
@[simp] theorem respond_inbox (eng tag : Nat) (st : MemStatus) (data : List Byte) : (respond eng tag st data s).inbox = s.inbox := rfl
@[simp] theorem respond_mbx (eng tag : Nat) (st : MemStatus) (data : List Byte) : (respond eng tag st data s).mbx = s.mbx := rfl
@[simp] theorem respond_otpq (eng tag : Nat) (st : MemStatus) (data : List Byte) : (respond eng tag st data s).otpq = s.otpq := rfl
@[simp] theorem respond_romProg (eng tag : Nat) (st : MemStatus) (data : List Byte) : (respond eng tag st data s).romProg = s.romProg := rfl
@[simp] theorem respond_bootKeys (eng tag : Nat) (st : MemStatus) (data : List Byte) : (respond eng tag st data s).bootKeys = s.bootKeys := rfl
@[simp] theorem respond_pow (eng tag : Nat) (st : MemStatus) (data : List Byte) : (respond eng tag st data s).pow = s.pow := rfl
@[simp] theorem respond_brk (eng tag : Nat) (st : MemStatus) (data : List Byte) : (respond eng tag st data s).brk = s.brk := rfl
@[simp] theorem respond_faultN (eng tag : Nat) (st : MemStatus) (data : List Byte) : (respond eng tag st data s).faultN = s.faultN := rfl
@[simp] theorem respond_inReset (eng tag : Nat) (st : MemStatus) (data : List Byte) : (respond eng tag st data s).inReset = s.inReset := rfl
@[simp] theorem respond_dbg (eng tag : Nat) (st : MemStatus) (data : List Byte) : (respond eng tag st data s).dbg = s.dbg := rfl
@[simp] theorem respond_gauge (eng tag : Nat) (st : MemStatus) (data : List Byte) : (respond eng tag st data s).gauge = s.gauge := rfl
@[simp] theorem respond_strapPos (eng tag : Nat) (st : MemStatus) (data : List Byte) : (respond eng tag st data s).strapPos = s.strapPos := rfl
@[simp] theorem respond_strapGaddr (eng tag : Nat) (st : MemStatus) (data : List Byte) : (respond eng tag st data s).strapGaddr = s.strapGaddr := rfl
@[simp] theorem respond_vfEnable (eng tag : Nat) (st : MemStatus) (data : List Byte) : (respond eng tag st data s).vfEnable = s.vfEnable := rfl
@[simp] theorem respond_numVfs (eng tag : Nat) (st : MemStatus) (data : List Byte) : (respond eng tag st data s).numVfs = s.numVfs := rfl
@[simp] theorem respond_out (eng tag : Nat) (st : MemStatus) (data : List Byte) : (respond eng tag st data s).out = s.out := rfl
@[simp] theorem respond_freeCtr (eng tag : Nat) (st : MemStatus) (data : List Byte) : (respond eng tag st data s).freeCtr = s.freeCtr := rfl
@[simp] theorem getFk_respond (eng tag : Nat) (st : MemStatus) (data : List Byte) (g : Fld) (j l : Nat) : getFk (respond eng tag st data s) g j l = getFk s g j l := rfl
@[simp] theorem getF_respond (eng tag : Nat) (st : MemStatus) (data : List Byte) (g : Fld) (j : Nat) : getF (respond eng tag st data s) g j = getF s g j := rfl
@[simp] theorem isF_respond (eng tag : Nat) (st : MemStatus) (data : List Byte) (g : Fld) (j : Nat) : isF (respond eng tag st data s) g j = isF s g j := rfl

/-! ## signalPage -/

@[simp] theorem signalPage_pending (t i : Nat) : (signalPage t i s).pending = s.pending := by unfold signalPage; split <;> (try split) <;> rfl
@[simp] theorem signalPage_hiLatch (t i : Nat) : (signalPage t i s).hiLatch = s.hiLatch := by unfold signalPage; split <;> (try split) <;> rfl
@[simp] theorem signalPage_mem (t i : Nat) : (signalPage t i s).mem = s.mem := by unfold signalPage; split <;> (try split) <;> rfl
@[simp] theorem signalPage_poison (t i : Nat) : (signalPage t i s).poison = s.poison := by unfold signalPage; split <;> (try split) <;> rfl
@[simp] theorem signalPage_sram (t i : Nat) : (signalPage t i s).sram = s.sram := by unfold signalPage; split <;> (try split) <;> rfl
@[simp] theorem signalPage_hmem (t i : Nat) : (signalPage t i s).hmem = s.hmem := by unfold signalPage; split <;> (try split) <;> rfl
@[simp] theorem signalPage_otp (t i : Nat) : (signalPage t i s).otp = s.otp := by unfold signalPage; split <;> (try split) <;> rfl
@[simp] theorem signalPage_responses (t i : Nat) : (signalPage t i s).responses = s.responses := by unfold signalPage; split <;> (try split) <;> rfl
@[simp] theorem signalPage_mcs (t i : Nat) : (signalPage t i s).mcs = s.mcs := by unfold signalPage; split <;> (try split) <;> rfl
@[simp] theorem signalPage_window (t i : Nat) : (signalPage t i s).window = s.window := by unfold signalPage; split <;> (try split) <;> rfl
@[simp] theorem signalPage_sluices (t i : Nat) : (signalPage t i s).sluices = s.sluices := by unfold signalPage; split <;> (try split) <;> rfl
@[simp] theorem signalPage_objs (t i : Nat) : (signalPage t i s).objs = s.objs := by unfold signalPage; split <;> (try split) <;> rfl
@[simp] theorem signalPage_releases (t i : Nat) : (signalPage t i s).releases = s.releases := by unfold signalPage; split <;> (try split) <;> rfl
@[simp] theorem signalPage_crossing (t i : Nat) : (signalPage t i s).crossing = s.crossing := by unfold signalPage; split <;> (try split) <;> rfl
@[simp] theorem signalPage_clusters (t i : Nat) : (signalPage t i s).clusters = s.clusters := by unfold signalPage; split <;> (try split) <;> rfl
@[simp] theorem signalPage_units (t i : Nat) : (signalPage t i s).units = s.units := by unfold signalPage; split <;> (try split) <;> rfl
@[simp] theorem signalPage_seqs (t i : Nat) : (signalPage t i s).seqs = s.seqs := by unfold signalPage; split <;> (try split) <;> rfl
@[simp] theorem signalPage_cul (t i : Nat) : (signalPage t i s).cul = s.cul := by unfold signalPage; split <;> (try split) <;> rfl
@[simp] theorem signalPage_degSet (t i : Nat) : (signalPage t i s).degSet = s.degSet := by unfold signalPage; split <;> (try split) <;> rfl
@[simp] theorem signalPage_degClear (t i : Nat) : (signalPage t i s).degClear = s.degClear := by unfold signalPage; split <;> (try split) <;> rfl
@[simp] theorem signalPage_ctxs (t i : Nat) : (signalPage t i s).ctxs = s.ctxs := by unfold signalPage; split <;> (try split) <;> rfl
@[simp] theorem signalPage_reports (t i : Nat) : (signalPage t i s).reports = s.reports := by unfold signalPage; split <;> (try split) <;> rfl
@[simp] theorem signalPage_lastClosed (t i : Nat) : (signalPage t i s).lastClosed = s.lastClosed := by unfold signalPage; split <;> (try split) <;> rfl
@[simp] theorem signalPage_jwide (t i : Nat) : (signalPage t i s).jwide = s.jwide := by unfold signalPage; split <;> (try split) <;> rfl
@[simp] theorem signalPage_ports (t i : Nat) : (signalPage t i s).ports = s.ports := by unfold signalPage; split <;> (try split) <;> rfl
@[simp] theorem signalPage_txStreams (t i : Nat) : (signalPage t i s).txStreams = s.txStreams := by unfold signalPage; split <;> (try split) <;> rfl
@[simp] theorem signalPage_rxStreams (t i : Nat) : (signalPage t i s).rxStreams = s.rxStreams := by unfold signalPage; split <;> (try split) <;> rfl
@[simp] theorem signalPage_sendq (t i : Nat) : (signalPage t i s).sendq = s.sendq := by unfold signalPage; split <;> (try split) <;> rfl
@[simp] theorem signalPage_inbox (t i : Nat) : (signalPage t i s).inbox = s.inbox := by unfold signalPage; split <;> (try split) <;> rfl
@[simp] theorem signalPage_mbx (t i : Nat) : (signalPage t i s).mbx = s.mbx := by unfold signalPage; split <;> (try split) <;> rfl
@[simp] theorem signalPage_otpq (t i : Nat) : (signalPage t i s).otpq = s.otpq := by unfold signalPage; split <;> (try split) <;> rfl
@[simp] theorem signalPage_romProg (t i : Nat) : (signalPage t i s).romProg = s.romProg := by unfold signalPage; split <;> (try split) <;> rfl
@[simp] theorem signalPage_bootKeys (t i : Nat) : (signalPage t i s).bootKeys = s.bootKeys := by unfold signalPage; split <;> (try split) <;> rfl
@[simp] theorem signalPage_pow (t i : Nat) : (signalPage t i s).pow = s.pow := by unfold signalPage; split <;> (try split) <;> rfl
@[simp] theorem signalPage_brk (t i : Nat) : (signalPage t i s).brk = s.brk := by unfold signalPage; split <;> (try split) <;> rfl
@[simp] theorem signalPage_faultN (t i : Nat) : (signalPage t i s).faultN = s.faultN := by unfold signalPage; split <;> (try split) <;> rfl
@[simp] theorem signalPage_inReset (t i : Nat) : (signalPage t i s).inReset = s.inReset := by unfold signalPage; split <;> (try split) <;> rfl
@[simp] theorem signalPage_dbg (t i : Nat) : (signalPage t i s).dbg = s.dbg := by unfold signalPage; split <;> (try split) <;> rfl
@[simp] theorem signalPage_gauge (t i : Nat) : (signalPage t i s).gauge = s.gauge := by unfold signalPage; split <;> (try split) <;> rfl
@[simp] theorem signalPage_strapPos (t i : Nat) : (signalPage t i s).strapPos = s.strapPos := by unfold signalPage; split <;> (try split) <;> rfl
@[simp] theorem signalPage_strapGaddr (t i : Nat) : (signalPage t i s).strapGaddr = s.strapGaddr := by unfold signalPage; split <;> (try split) <;> rfl
@[simp] theorem signalPage_vfEnable (t i : Nat) : (signalPage t i s).vfEnable = s.vfEnable := by unfold signalPage; split <;> (try split) <;> rfl
@[simp] theorem signalPage_numVfs (t i : Nat) : (signalPage t i s).numVfs = s.numVfs := by unfold signalPage; split <;> (try split) <;> rfl
@[simp] theorem signalPage_freeCtr (t i : Nat) : (signalPage t i s).freeCtr = s.freeCtr := by unfold signalPage; split <;> (try split) <;> rfl

/-! ## pend -/

@[simp] theorem pend_pending (t i m : Nat) : (pend t i m s).pending = s.pending := by unfold pend; dsimp only; split <;> simp
@[simp] theorem pend_hiLatch (t i m : Nat) : (pend t i m s).hiLatch = s.hiLatch := by unfold pend; dsimp only; split <;> simp
@[simp] theorem pend_mem (t i m : Nat) : (pend t i m s).mem = s.mem := by unfold pend; dsimp only; split <;> simp
@[simp] theorem pend_poison (t i m : Nat) : (pend t i m s).poison = s.poison := by unfold pend; dsimp only; split <;> simp
@[simp] theorem pend_sram (t i m : Nat) : (pend t i m s).sram = s.sram := by unfold pend; dsimp only; split <;> simp
@[simp] theorem pend_hmem (t i m : Nat) : (pend t i m s).hmem = s.hmem := by unfold pend; dsimp only; split <;> simp
@[simp] theorem pend_otp (t i m : Nat) : (pend t i m s).otp = s.otp := by unfold pend; dsimp only; split <;> simp
@[simp] theorem pend_responses (t i m : Nat) : (pend t i m s).responses = s.responses := by unfold pend; dsimp only; split <;> simp
@[simp] theorem pend_mcs (t i m : Nat) : (pend t i m s).mcs = s.mcs := by unfold pend; dsimp only; split <;> simp
@[simp] theorem pend_window (t i m : Nat) : (pend t i m s).window = s.window := by unfold pend; dsimp only; split <;> simp
@[simp] theorem pend_sluices (t i m : Nat) : (pend t i m s).sluices = s.sluices := by unfold pend; dsimp only; split <;> simp
@[simp] theorem pend_objs (t i m : Nat) : (pend t i m s).objs = s.objs := by unfold pend; dsimp only; split <;> simp
@[simp] theorem pend_releases (t i m : Nat) : (pend t i m s).releases = s.releases := by unfold pend; dsimp only; split <;> simp
@[simp] theorem pend_crossing (t i m : Nat) : (pend t i m s).crossing = s.crossing := by unfold pend; dsimp only; split <;> simp
@[simp] theorem pend_clusters (t i m : Nat) : (pend t i m s).clusters = s.clusters := by unfold pend; dsimp only; split <;> simp
@[simp] theorem pend_units (t i m : Nat) : (pend t i m s).units = s.units := by unfold pend; dsimp only; split <;> simp
@[simp] theorem pend_seqs (t i m : Nat) : (pend t i m s).seqs = s.seqs := by unfold pend; dsimp only; split <;> simp
@[simp] theorem pend_cul (t i m : Nat) : (pend t i m s).cul = s.cul := by unfold pend; dsimp only; split <;> simp
@[simp] theorem pend_degSet (t i m : Nat) : (pend t i m s).degSet = s.degSet := by unfold pend; dsimp only; split <;> simp
@[simp] theorem pend_degClear (t i m : Nat) : (pend t i m s).degClear = s.degClear := by unfold pend; dsimp only; split <;> simp
@[simp] theorem pend_ctxs (t i m : Nat) : (pend t i m s).ctxs = s.ctxs := by unfold pend; dsimp only; split <;> simp
@[simp] theorem pend_reports (t i m : Nat) : (pend t i m s).reports = s.reports := by unfold pend; dsimp only; split <;> simp
@[simp] theorem pend_lastClosed (t i m : Nat) : (pend t i m s).lastClosed = s.lastClosed := by unfold pend; dsimp only; split <;> simp
@[simp] theorem pend_jwide (t i m : Nat) : (pend t i m s).jwide = s.jwide := by unfold pend; dsimp only; split <;> simp
@[simp] theorem pend_ports (t i m : Nat) : (pend t i m s).ports = s.ports := by unfold pend; dsimp only; split <;> simp
@[simp] theorem pend_txStreams (t i m : Nat) : (pend t i m s).txStreams = s.txStreams := by unfold pend; dsimp only; split <;> simp
@[simp] theorem pend_rxStreams (t i m : Nat) : (pend t i m s).rxStreams = s.rxStreams := by unfold pend; dsimp only; split <;> simp
@[simp] theorem pend_sendq (t i m : Nat) : (pend t i m s).sendq = s.sendq := by unfold pend; dsimp only; split <;> simp
@[simp] theorem pend_inbox (t i m : Nat) : (pend t i m s).inbox = s.inbox := by unfold pend; dsimp only; split <;> simp
@[simp] theorem pend_mbx (t i m : Nat) : (pend t i m s).mbx = s.mbx := by unfold pend; dsimp only; split <;> simp
@[simp] theorem pend_otpq (t i m : Nat) : (pend t i m s).otpq = s.otpq := by unfold pend; dsimp only; split <;> simp
@[simp] theorem pend_romProg (t i m : Nat) : (pend t i m s).romProg = s.romProg := by unfold pend; dsimp only; split <;> simp
@[simp] theorem pend_bootKeys (t i m : Nat) : (pend t i m s).bootKeys = s.bootKeys := by unfold pend; dsimp only; split <;> simp
@[simp] theorem pend_pow (t i m : Nat) : (pend t i m s).pow = s.pow := by unfold pend; dsimp only; split <;> simp
@[simp] theorem pend_brk (t i m : Nat) : (pend t i m s).brk = s.brk := by unfold pend; dsimp only; split <;> simp
@[simp] theorem pend_faultN (t i m : Nat) : (pend t i m s).faultN = s.faultN := by unfold pend; dsimp only; split <;> simp
@[simp] theorem pend_inReset (t i m : Nat) : (pend t i m s).inReset = s.inReset := by unfold pend; dsimp only; split <;> simp
@[simp] theorem pend_dbg (t i m : Nat) : (pend t i m s).dbg = s.dbg := by unfold pend; dsimp only; split <;> simp
@[simp] theorem pend_gauge (t i m : Nat) : (pend t i m s).gauge = s.gauge := by unfold pend; dsimp only; split <;> simp
@[simp] theorem pend_strapPos (t i m : Nat) : (pend t i m s).strapPos = s.strapPos := by unfold pend; dsimp only; split <;> simp
@[simp] theorem pend_strapGaddr (t i m : Nat) : (pend t i m s).strapGaddr = s.strapGaddr := by unfold pend; dsimp only; split <;> simp
@[simp] theorem pend_vfEnable (t i m : Nat) : (pend t i m s).vfEnable = s.vfEnable := by unfold pend; dsimp only; split <;> simp
@[simp] theorem pend_numVfs (t i m : Nat) : (pend t i m s).numVfs = s.numVfs := by unfold pend; dsimp only; split <;> simp
@[simp] theorem pend_freeCtr (t i m : Nat) : (pend t i m s).freeCtr = s.freeCtr := by unfold pend; dsimp only; split <;> simp

/-! ## setEvt -/

@[simp] theorem setEvt_pending (e : Evt) (i : Nat) : (setEvt e i s).pending = s.pending := pend_pending ..
@[simp] theorem setEvt_hiLatch (e : Evt) (i : Nat) : (setEvt e i s).hiLatch = s.hiLatch := pend_hiLatch ..
@[simp] theorem setEvt_mem (e : Evt) (i : Nat) : (setEvt e i s).mem = s.mem := pend_mem ..
@[simp] theorem setEvt_poison (e : Evt) (i : Nat) : (setEvt e i s).poison = s.poison := pend_poison ..
@[simp] theorem setEvt_sram (e : Evt) (i : Nat) : (setEvt e i s).sram = s.sram := pend_sram ..
@[simp] theorem setEvt_hmem (e : Evt) (i : Nat) : (setEvt e i s).hmem = s.hmem := pend_hmem ..
@[simp] theorem setEvt_otp (e : Evt) (i : Nat) : (setEvt e i s).otp = s.otp := pend_otp ..
@[simp] theorem setEvt_responses (e : Evt) (i : Nat) : (setEvt e i s).responses = s.responses := pend_responses ..
@[simp] theorem setEvt_mcs (e : Evt) (i : Nat) : (setEvt e i s).mcs = s.mcs := pend_mcs ..
@[simp] theorem setEvt_window (e : Evt) (i : Nat) : (setEvt e i s).window = s.window := pend_window ..
@[simp] theorem setEvt_sluices (e : Evt) (i : Nat) : (setEvt e i s).sluices = s.sluices := pend_sluices ..
@[simp] theorem setEvt_objs (e : Evt) (i : Nat) : (setEvt e i s).objs = s.objs := pend_objs ..
@[simp] theorem setEvt_releases (e : Evt) (i : Nat) : (setEvt e i s).releases = s.releases := pend_releases ..
@[simp] theorem setEvt_crossing (e : Evt) (i : Nat) : (setEvt e i s).crossing = s.crossing := pend_crossing ..
@[simp] theorem setEvt_clusters (e : Evt) (i : Nat) : (setEvt e i s).clusters = s.clusters := pend_clusters ..
@[simp] theorem setEvt_units (e : Evt) (i : Nat) : (setEvt e i s).units = s.units := pend_units ..
@[simp] theorem setEvt_seqs (e : Evt) (i : Nat) : (setEvt e i s).seqs = s.seqs := pend_seqs ..
@[simp] theorem setEvt_cul (e : Evt) (i : Nat) : (setEvt e i s).cul = s.cul := pend_cul ..
@[simp] theorem setEvt_degSet (e : Evt) (i : Nat) : (setEvt e i s).degSet = s.degSet := pend_degSet ..
@[simp] theorem setEvt_degClear (e : Evt) (i : Nat) : (setEvt e i s).degClear = s.degClear := pend_degClear ..
@[simp] theorem setEvt_ctxs (e : Evt) (i : Nat) : (setEvt e i s).ctxs = s.ctxs := pend_ctxs ..
@[simp] theorem setEvt_reports (e : Evt) (i : Nat) : (setEvt e i s).reports = s.reports := pend_reports ..
@[simp] theorem setEvt_lastClosed (e : Evt) (i : Nat) : (setEvt e i s).lastClosed = s.lastClosed := pend_lastClosed ..
@[simp] theorem setEvt_jwide (e : Evt) (i : Nat) : (setEvt e i s).jwide = s.jwide := pend_jwide ..
@[simp] theorem setEvt_ports (e : Evt) (i : Nat) : (setEvt e i s).ports = s.ports := pend_ports ..
@[simp] theorem setEvt_txStreams (e : Evt) (i : Nat) : (setEvt e i s).txStreams = s.txStreams := pend_txStreams ..
@[simp] theorem setEvt_rxStreams (e : Evt) (i : Nat) : (setEvt e i s).rxStreams = s.rxStreams := pend_rxStreams ..
@[simp] theorem setEvt_sendq (e : Evt) (i : Nat) : (setEvt e i s).sendq = s.sendq := pend_sendq ..
@[simp] theorem setEvt_inbox (e : Evt) (i : Nat) : (setEvt e i s).inbox = s.inbox := pend_inbox ..
@[simp] theorem setEvt_mbx (e : Evt) (i : Nat) : (setEvt e i s).mbx = s.mbx := pend_mbx ..
@[simp] theorem setEvt_otpq (e : Evt) (i : Nat) : (setEvt e i s).otpq = s.otpq := pend_otpq ..
@[simp] theorem setEvt_romProg (e : Evt) (i : Nat) : (setEvt e i s).romProg = s.romProg := pend_romProg ..
@[simp] theorem setEvt_bootKeys (e : Evt) (i : Nat) : (setEvt e i s).bootKeys = s.bootKeys := pend_bootKeys ..
@[simp] theorem setEvt_pow (e : Evt) (i : Nat) : (setEvt e i s).pow = s.pow := pend_pow ..
@[simp] theorem setEvt_brk (e : Evt) (i : Nat) : (setEvt e i s).brk = s.brk := pend_brk ..
@[simp] theorem setEvt_faultN (e : Evt) (i : Nat) : (setEvt e i s).faultN = s.faultN := pend_faultN ..
@[simp] theorem setEvt_inReset (e : Evt) (i : Nat) : (setEvt e i s).inReset = s.inReset := pend_inReset ..
@[simp] theorem setEvt_dbg (e : Evt) (i : Nat) : (setEvt e i s).dbg = s.dbg := pend_dbg ..
@[simp] theorem setEvt_gauge (e : Evt) (i : Nat) : (setEvt e i s).gauge = s.gauge := pend_gauge ..
@[simp] theorem setEvt_strapPos (e : Evt) (i : Nat) : (setEvt e i s).strapPos = s.strapPos := pend_strapPos ..
@[simp] theorem setEvt_strapGaddr (e : Evt) (i : Nat) : (setEvt e i s).strapGaddr = s.strapGaddr := pend_strapGaddr ..
@[simp] theorem setEvt_vfEnable (e : Evt) (i : Nat) : (setEvt e i s).vfEnable = s.vfEnable := pend_vfEnable ..
@[simp] theorem setEvt_numVfs (e : Evt) (i : Nat) : (setEvt e i s).numVfs = s.numVfs := pend_numVfs ..
@[simp] theorem setEvt_freeCtr (e : Evt) (i : Nat) : (setEvt e i s).freeCtr = s.freeCtr := pend_freeCtr ..

/-! ## jrnWide -/

@[simp] theorem jrnWide_pending (type src : Nat) (p : List Byte) : (jrnWide type src p s).pending = s.pending := by unfold jrnWide; split <;> rfl
@[simp] theorem jrnWide_regs (type src : Nat) (p : List Byte) : (jrnWide type src p s).regs = s.regs := by unfold jrnWide; split <;> rfl
@[simp] theorem jrnWide_hiLatch (type src : Nat) (p : List Byte) : (jrnWide type src p s).hiLatch = s.hiLatch := by unfold jrnWide; split <;> rfl
@[simp] theorem jrnWide_mem (type src : Nat) (p : List Byte) : (jrnWide type src p s).mem = s.mem := by unfold jrnWide; split <;> rfl
@[simp] theorem jrnWide_poison (type src : Nat) (p : List Byte) : (jrnWide type src p s).poison = s.poison := by unfold jrnWide; split <;> rfl
@[simp] theorem jrnWide_sram (type src : Nat) (p : List Byte) : (jrnWide type src p s).sram = s.sram := by unfold jrnWide; split <;> rfl
@[simp] theorem jrnWide_hmem (type src : Nat) (p : List Byte) : (jrnWide type src p s).hmem = s.hmem := by unfold jrnWide; split <;> rfl
@[simp] theorem jrnWide_otp (type src : Nat) (p : List Byte) : (jrnWide type src p s).otp = s.otp := by unfold jrnWide; split <;> rfl
@[simp] theorem jrnWide_responses (type src : Nat) (p : List Byte) : (jrnWide type src p s).responses = s.responses := by unfold jrnWide; split <;> rfl
@[simp] theorem jrnWide_mcs (type src : Nat) (p : List Byte) : (jrnWide type src p s).mcs = s.mcs := by unfold jrnWide; split <;> rfl
@[simp] theorem jrnWide_window (type src : Nat) (p : List Byte) : (jrnWide type src p s).window = s.window := by unfold jrnWide; split <;> rfl
@[simp] theorem jrnWide_sluices (type src : Nat) (p : List Byte) : (jrnWide type src p s).sluices = s.sluices := by unfold jrnWide; split <;> rfl
@[simp] theorem jrnWide_objs (type src : Nat) (p : List Byte) : (jrnWide type src p s).objs = s.objs := by unfold jrnWide; split <;> rfl
@[simp] theorem jrnWide_releases (type src : Nat) (p : List Byte) : (jrnWide type src p s).releases = s.releases := by unfold jrnWide; split <;> rfl
@[simp] theorem jrnWide_crossing (type src : Nat) (p : List Byte) : (jrnWide type src p s).crossing = s.crossing := by unfold jrnWide; split <;> rfl
@[simp] theorem jrnWide_clusters (type src : Nat) (p : List Byte) : (jrnWide type src p s).clusters = s.clusters := by unfold jrnWide; split <;> rfl
@[simp] theorem jrnWide_units (type src : Nat) (p : List Byte) : (jrnWide type src p s).units = s.units := by unfold jrnWide; split <;> rfl
@[simp] theorem jrnWide_seqs (type src : Nat) (p : List Byte) : (jrnWide type src p s).seqs = s.seqs := by unfold jrnWide; split <;> rfl
@[simp] theorem jrnWide_cul (type src : Nat) (p : List Byte) : (jrnWide type src p s).cul = s.cul := by unfold jrnWide; split <;> rfl
@[simp] theorem jrnWide_degSet (type src : Nat) (p : List Byte) : (jrnWide type src p s).degSet = s.degSet := by unfold jrnWide; split <;> rfl
@[simp] theorem jrnWide_degClear (type src : Nat) (p : List Byte) : (jrnWide type src p s).degClear = s.degClear := by unfold jrnWide; split <;> rfl
@[simp] theorem jrnWide_ctxs (type src : Nat) (p : List Byte) : (jrnWide type src p s).ctxs = s.ctxs := by unfold jrnWide; split <;> rfl
@[simp] theorem jrnWide_reports (type src : Nat) (p : List Byte) : (jrnWide type src p s).reports = s.reports := by unfold jrnWide; split <;> rfl
@[simp] theorem jrnWide_lastClosed (type src : Nat) (p : List Byte) : (jrnWide type src p s).lastClosed = s.lastClosed := by unfold jrnWide; split <;> rfl
@[simp] theorem jrnWide_ports (type src : Nat) (p : List Byte) : (jrnWide type src p s).ports = s.ports := by unfold jrnWide; split <;> rfl
@[simp] theorem jrnWide_txStreams (type src : Nat) (p : List Byte) : (jrnWide type src p s).txStreams = s.txStreams := by unfold jrnWide; split <;> rfl
@[simp] theorem jrnWide_rxStreams (type src : Nat) (p : List Byte) : (jrnWide type src p s).rxStreams = s.rxStreams := by unfold jrnWide; split <;> rfl
@[simp] theorem jrnWide_sendq (type src : Nat) (p : List Byte) : (jrnWide type src p s).sendq = s.sendq := by unfold jrnWide; split <;> rfl
@[simp] theorem jrnWide_inbox (type src : Nat) (p : List Byte) : (jrnWide type src p s).inbox = s.inbox := by unfold jrnWide; split <;> rfl
@[simp] theorem jrnWide_mbx (type src : Nat) (p : List Byte) : (jrnWide type src p s).mbx = s.mbx := by unfold jrnWide; split <;> rfl
@[simp] theorem jrnWide_otpq (type src : Nat) (p : List Byte) : (jrnWide type src p s).otpq = s.otpq := by unfold jrnWide; split <;> rfl
@[simp] theorem jrnWide_romProg (type src : Nat) (p : List Byte) : (jrnWide type src p s).romProg = s.romProg := by unfold jrnWide; split <;> rfl
@[simp] theorem jrnWide_bootKeys (type src : Nat) (p : List Byte) : (jrnWide type src p s).bootKeys = s.bootKeys := by unfold jrnWide; split <;> rfl
@[simp] theorem jrnWide_pow (type src : Nat) (p : List Byte) : (jrnWide type src p s).pow = s.pow := by unfold jrnWide; split <;> rfl
@[simp] theorem jrnWide_brk (type src : Nat) (p : List Byte) : (jrnWide type src p s).brk = s.brk := by unfold jrnWide; split <;> rfl
@[simp] theorem jrnWide_faultN (type src : Nat) (p : List Byte) : (jrnWide type src p s).faultN = s.faultN := by unfold jrnWide; split <;> rfl
@[simp] theorem jrnWide_inReset (type src : Nat) (p : List Byte) : (jrnWide type src p s).inReset = s.inReset := by unfold jrnWide; split <;> rfl
@[simp] theorem jrnWide_dbg (type src : Nat) (p : List Byte) : (jrnWide type src p s).dbg = s.dbg := by unfold jrnWide; split <;> rfl
@[simp] theorem jrnWide_gauge (type src : Nat) (p : List Byte) : (jrnWide type src p s).gauge = s.gauge := by unfold jrnWide; split <;> rfl
@[simp] theorem jrnWide_strapPos (type src : Nat) (p : List Byte) : (jrnWide type src p s).strapPos = s.strapPos := by unfold jrnWide; split <;> rfl
@[simp] theorem jrnWide_strapGaddr (type src : Nat) (p : List Byte) : (jrnWide type src p s).strapGaddr = s.strapGaddr := by unfold jrnWide; split <;> rfl
@[simp] theorem jrnWide_vfEnable (type src : Nat) (p : List Byte) : (jrnWide type src p s).vfEnable = s.vfEnable := by unfold jrnWide; split <;> rfl
@[simp] theorem jrnWide_numVfs (type src : Nat) (p : List Byte) : (jrnWide type src p s).numVfs = s.numVfs := by unfold jrnWide; split <;> rfl
@[simp] theorem jrnWide_out (type src : Nat) (p : List Byte) : (jrnWide type src p s).out = s.out := by unfold jrnWide; split <;> rfl
@[simp] theorem jrnWide_freeCtr (type src : Nat) (p : List Byte) : (jrnWide type src p s).freeCtr = s.freeCtr := by unfold jrnWide; split <;> rfl
@[simp] theorem getFk_jrnWide (type src : Nat) (p : List Byte) (g : Fld) (j l : Nat) : getFk (jrnWide type src p s) g j l = getFk s g j l := by simp [getFk]
@[simp] theorem getF_jrnWide (type src : Nat) (p : List Byte) (g : Fld) (j : Nat) : getF (jrnWide type src p s) g j = getF s g j := getFk_jrnWide ..

/-! ## memEvt -/

@[simp] theorem memEvt_pending (m kind chan row : Nat) : (memEvt m kind chan row s).pending = s.pending := jrnWide_pending ..
@[simp] theorem memEvt_regs (m kind chan row : Nat) : (memEvt m kind chan row s).regs = s.regs := jrnWide_regs ..
@[simp] theorem memEvt_hiLatch (m kind chan row : Nat) : (memEvt m kind chan row s).hiLatch = s.hiLatch := jrnWide_hiLatch ..
@[simp] theorem memEvt_mem (m kind chan row : Nat) : (memEvt m kind chan row s).mem = s.mem := jrnWide_mem ..
@[simp] theorem memEvt_poison (m kind chan row : Nat) : (memEvt m kind chan row s).poison = s.poison := jrnWide_poison ..
@[simp] theorem memEvt_sram (m kind chan row : Nat) : (memEvt m kind chan row s).sram = s.sram := jrnWide_sram ..
@[simp] theorem memEvt_hmem (m kind chan row : Nat) : (memEvt m kind chan row s).hmem = s.hmem := jrnWide_hmem ..
@[simp] theorem memEvt_otp (m kind chan row : Nat) : (memEvt m kind chan row s).otp = s.otp := jrnWide_otp ..
@[simp] theorem memEvt_responses (m kind chan row : Nat) : (memEvt m kind chan row s).responses = s.responses := jrnWide_responses ..
@[simp] theorem memEvt_mcs (m kind chan row : Nat) : (memEvt m kind chan row s).mcs = s.mcs := jrnWide_mcs ..
@[simp] theorem memEvt_window (m kind chan row : Nat) : (memEvt m kind chan row s).window = s.window := jrnWide_window ..
@[simp] theorem memEvt_sluices (m kind chan row : Nat) : (memEvt m kind chan row s).sluices = s.sluices := jrnWide_sluices ..
@[simp] theorem memEvt_objs (m kind chan row : Nat) : (memEvt m kind chan row s).objs = s.objs := jrnWide_objs ..
@[simp] theorem memEvt_releases (m kind chan row : Nat) : (memEvt m kind chan row s).releases = s.releases := jrnWide_releases ..
@[simp] theorem memEvt_crossing (m kind chan row : Nat) : (memEvt m kind chan row s).crossing = s.crossing := jrnWide_crossing ..
@[simp] theorem memEvt_clusters (m kind chan row : Nat) : (memEvt m kind chan row s).clusters = s.clusters := jrnWide_clusters ..
@[simp] theorem memEvt_units (m kind chan row : Nat) : (memEvt m kind chan row s).units = s.units := jrnWide_units ..
@[simp] theorem memEvt_seqs (m kind chan row : Nat) : (memEvt m kind chan row s).seqs = s.seqs := jrnWide_seqs ..
@[simp] theorem memEvt_cul (m kind chan row : Nat) : (memEvt m kind chan row s).cul = s.cul := jrnWide_cul ..
@[simp] theorem memEvt_degSet (m kind chan row : Nat) : (memEvt m kind chan row s).degSet = s.degSet := jrnWide_degSet ..
@[simp] theorem memEvt_degClear (m kind chan row : Nat) : (memEvt m kind chan row s).degClear = s.degClear := jrnWide_degClear ..
@[simp] theorem memEvt_ctxs (m kind chan row : Nat) : (memEvt m kind chan row s).ctxs = s.ctxs := jrnWide_ctxs ..
@[simp] theorem memEvt_reports (m kind chan row : Nat) : (memEvt m kind chan row s).reports = s.reports := jrnWide_reports ..
@[simp] theorem memEvt_lastClosed (m kind chan row : Nat) : (memEvt m kind chan row s).lastClosed = s.lastClosed := jrnWide_lastClosed ..
@[simp] theorem memEvt_ports (m kind chan row : Nat) : (memEvt m kind chan row s).ports = s.ports := jrnWide_ports ..
@[simp] theorem memEvt_txStreams (m kind chan row : Nat) : (memEvt m kind chan row s).txStreams = s.txStreams := jrnWide_txStreams ..
@[simp] theorem memEvt_rxStreams (m kind chan row : Nat) : (memEvt m kind chan row s).rxStreams = s.rxStreams := jrnWide_rxStreams ..
@[simp] theorem memEvt_sendq (m kind chan row : Nat) : (memEvt m kind chan row s).sendq = s.sendq := jrnWide_sendq ..
@[simp] theorem memEvt_inbox (m kind chan row : Nat) : (memEvt m kind chan row s).inbox = s.inbox := jrnWide_inbox ..
@[simp] theorem memEvt_mbx (m kind chan row : Nat) : (memEvt m kind chan row s).mbx = s.mbx := jrnWide_mbx ..
@[simp] theorem memEvt_otpq (m kind chan row : Nat) : (memEvt m kind chan row s).otpq = s.otpq := jrnWide_otpq ..
@[simp] theorem memEvt_romProg (m kind chan row : Nat) : (memEvt m kind chan row s).romProg = s.romProg := jrnWide_romProg ..
@[simp] theorem memEvt_bootKeys (m kind chan row : Nat) : (memEvt m kind chan row s).bootKeys = s.bootKeys := jrnWide_bootKeys ..
@[simp] theorem memEvt_pow (m kind chan row : Nat) : (memEvt m kind chan row s).pow = s.pow := jrnWide_pow ..
@[simp] theorem memEvt_brk (m kind chan row : Nat) : (memEvt m kind chan row s).brk = s.brk := jrnWide_brk ..
@[simp] theorem memEvt_faultN (m kind chan row : Nat) : (memEvt m kind chan row s).faultN = s.faultN := jrnWide_faultN ..
@[simp] theorem memEvt_inReset (m kind chan row : Nat) : (memEvt m kind chan row s).inReset = s.inReset := jrnWide_inReset ..
@[simp] theorem memEvt_dbg (m kind chan row : Nat) : (memEvt m kind chan row s).dbg = s.dbg := jrnWide_dbg ..
@[simp] theorem memEvt_gauge (m kind chan row : Nat) : (memEvt m kind chan row s).gauge = s.gauge := jrnWide_gauge ..
@[simp] theorem memEvt_strapPos (m kind chan row : Nat) : (memEvt m kind chan row s).strapPos = s.strapPos := jrnWide_strapPos ..
@[simp] theorem memEvt_strapGaddr (m kind chan row : Nat) : (memEvt m kind chan row s).strapGaddr = s.strapGaddr := jrnWide_strapGaddr ..
@[simp] theorem memEvt_vfEnable (m kind chan row : Nat) : (memEvt m kind chan row s).vfEnable = s.vfEnable := jrnWide_vfEnable ..
@[simp] theorem memEvt_numVfs (m kind chan row : Nat) : (memEvt m kind chan row s).numVfs = s.numVfs := jrnWide_numVfs ..
@[simp] theorem memEvt_out (m kind chan row : Nat) : (memEvt m kind chan row s).out = s.out := jrnWide_out ..
@[simp] theorem memEvt_freeCtr (m kind chan row : Nat) : (memEvt m kind chan row s).freeCtr = s.freeCtr := jrnWide_freeCtr ..
@[simp] theorem getFk_memEvt (m kind chan row : Nat) (g : Fld) (j l : Nat) : getFk (memEvt m kind chan row s) g j l = getFk s g j l := by simp [getFk]
@[simp] theorem getF_memEvt (m kind chan row : Nat) (g : Fld) (j : Nat) : getF (memEvt m kind chan row s) g j = getF s g j := getFk_memEvt ..

/-! ## jrnCtx -/

@[simp] theorem jrnCtx_pending (c type src : Nat) (p : List Byte) : (jrnCtx c type src p s).pending = s.pending := by unfold jrnCtx; split <;> rfl
@[simp] theorem jrnCtx_regs (c type src : Nat) (p : List Byte) : (jrnCtx c type src p s).regs = s.regs := by unfold jrnCtx; split <;> rfl
@[simp] theorem jrnCtx_hiLatch (c type src : Nat) (p : List Byte) : (jrnCtx c type src p s).hiLatch = s.hiLatch := by unfold jrnCtx; split <;> rfl
@[simp] theorem jrnCtx_mem (c type src : Nat) (p : List Byte) : (jrnCtx c type src p s).mem = s.mem := by unfold jrnCtx; split <;> rfl
@[simp] theorem jrnCtx_poison (c type src : Nat) (p : List Byte) : (jrnCtx c type src p s).poison = s.poison := by unfold jrnCtx; split <;> rfl
@[simp] theorem jrnCtx_sram (c type src : Nat) (p : List Byte) : (jrnCtx c type src p s).sram = s.sram := by unfold jrnCtx; split <;> rfl
@[simp] theorem jrnCtx_hmem (c type src : Nat) (p : List Byte) : (jrnCtx c type src p s).hmem = s.hmem := by unfold jrnCtx; split <;> rfl
@[simp] theorem jrnCtx_otp (c type src : Nat) (p : List Byte) : (jrnCtx c type src p s).otp = s.otp := by unfold jrnCtx; split <;> rfl
@[simp] theorem jrnCtx_responses (c type src : Nat) (p : List Byte) : (jrnCtx c type src p s).responses = s.responses := by unfold jrnCtx; split <;> rfl
@[simp] theorem jrnCtx_mcs (c type src : Nat) (p : List Byte) : (jrnCtx c type src p s).mcs = s.mcs := by unfold jrnCtx; split <;> rfl
@[simp] theorem jrnCtx_window (c type src : Nat) (p : List Byte) : (jrnCtx c type src p s).window = s.window := by unfold jrnCtx; split <;> rfl
@[simp] theorem jrnCtx_sluices (c type src : Nat) (p : List Byte) : (jrnCtx c type src p s).sluices = s.sluices := by unfold jrnCtx; split <;> rfl
@[simp] theorem jrnCtx_objs (c type src : Nat) (p : List Byte) : (jrnCtx c type src p s).objs = s.objs := by unfold jrnCtx; split <;> rfl
@[simp] theorem jrnCtx_releases (c type src : Nat) (p : List Byte) : (jrnCtx c type src p s).releases = s.releases := by unfold jrnCtx; split <;> rfl
@[simp] theorem jrnCtx_crossing (c type src : Nat) (p : List Byte) : (jrnCtx c type src p s).crossing = s.crossing := by unfold jrnCtx; split <;> rfl
@[simp] theorem jrnCtx_clusters (c type src : Nat) (p : List Byte) : (jrnCtx c type src p s).clusters = s.clusters := by unfold jrnCtx; split <;> rfl
@[simp] theorem jrnCtx_units (c type src : Nat) (p : List Byte) : (jrnCtx c type src p s).units = s.units := by unfold jrnCtx; split <;> rfl
@[simp] theorem jrnCtx_seqs (c type src : Nat) (p : List Byte) : (jrnCtx c type src p s).seqs = s.seqs := by unfold jrnCtx; split <;> rfl
@[simp] theorem jrnCtx_cul (c type src : Nat) (p : List Byte) : (jrnCtx c type src p s).cul = s.cul := by unfold jrnCtx; split <;> rfl
@[simp] theorem jrnCtx_degSet (c type src : Nat) (p : List Byte) : (jrnCtx c type src p s).degSet = s.degSet := by unfold jrnCtx; split <;> rfl
@[simp] theorem jrnCtx_degClear (c type src : Nat) (p : List Byte) : (jrnCtx c type src p s).degClear = s.degClear := by unfold jrnCtx; split <;> rfl
@[simp] theorem jrnCtx_reports (c type src : Nat) (p : List Byte) : (jrnCtx c type src p s).reports = s.reports := by unfold jrnCtx; split <;> rfl
@[simp] theorem jrnCtx_lastClosed (c type src : Nat) (p : List Byte) : (jrnCtx c type src p s).lastClosed = s.lastClosed := by unfold jrnCtx; split <;> rfl
@[simp] theorem jrnCtx_jwide (c type src : Nat) (p : List Byte) : (jrnCtx c type src p s).jwide = s.jwide := by unfold jrnCtx; split <;> rfl
@[simp] theorem jrnCtx_ports (c type src : Nat) (p : List Byte) : (jrnCtx c type src p s).ports = s.ports := by unfold jrnCtx; split <;> rfl
@[simp] theorem jrnCtx_txStreams (c type src : Nat) (p : List Byte) : (jrnCtx c type src p s).txStreams = s.txStreams := by unfold jrnCtx; split <;> rfl
@[simp] theorem jrnCtx_rxStreams (c type src : Nat) (p : List Byte) : (jrnCtx c type src p s).rxStreams = s.rxStreams := by unfold jrnCtx; split <;> rfl
@[simp] theorem jrnCtx_sendq (c type src : Nat) (p : List Byte) : (jrnCtx c type src p s).sendq = s.sendq := by unfold jrnCtx; split <;> rfl
@[simp] theorem jrnCtx_inbox (c type src : Nat) (p : List Byte) : (jrnCtx c type src p s).inbox = s.inbox := by unfold jrnCtx; split <;> rfl
@[simp] theorem jrnCtx_mbx (c type src : Nat) (p : List Byte) : (jrnCtx c type src p s).mbx = s.mbx := by unfold jrnCtx; split <;> rfl
@[simp] theorem jrnCtx_otpq (c type src : Nat) (p : List Byte) : (jrnCtx c type src p s).otpq = s.otpq := by unfold jrnCtx; split <;> rfl
@[simp] theorem jrnCtx_romProg (c type src : Nat) (p : List Byte) : (jrnCtx c type src p s).romProg = s.romProg := by unfold jrnCtx; split <;> rfl
@[simp] theorem jrnCtx_bootKeys (c type src : Nat) (p : List Byte) : (jrnCtx c type src p s).bootKeys = s.bootKeys := by unfold jrnCtx; split <;> rfl
@[simp] theorem jrnCtx_pow (c type src : Nat) (p : List Byte) : (jrnCtx c type src p s).pow = s.pow := by unfold jrnCtx; split <;> rfl
@[simp] theorem jrnCtx_brk (c type src : Nat) (p : List Byte) : (jrnCtx c type src p s).brk = s.brk := by unfold jrnCtx; split <;> rfl
@[simp] theorem jrnCtx_faultN (c type src : Nat) (p : List Byte) : (jrnCtx c type src p s).faultN = s.faultN := by unfold jrnCtx; split <;> rfl
@[simp] theorem jrnCtx_inReset (c type src : Nat) (p : List Byte) : (jrnCtx c type src p s).inReset = s.inReset := by unfold jrnCtx; split <;> rfl
@[simp] theorem jrnCtx_dbg (c type src : Nat) (p : List Byte) : (jrnCtx c type src p s).dbg = s.dbg := by unfold jrnCtx; split <;> rfl
@[simp] theorem jrnCtx_gauge (c type src : Nat) (p : List Byte) : (jrnCtx c type src p s).gauge = s.gauge := by unfold jrnCtx; split <;> rfl
@[simp] theorem jrnCtx_strapPos (c type src : Nat) (p : List Byte) : (jrnCtx c type src p s).strapPos = s.strapPos := by unfold jrnCtx; split <;> rfl
@[simp] theorem jrnCtx_strapGaddr (c type src : Nat) (p : List Byte) : (jrnCtx c type src p s).strapGaddr = s.strapGaddr := by unfold jrnCtx; split <;> rfl
@[simp] theorem jrnCtx_vfEnable (c type src : Nat) (p : List Byte) : (jrnCtx c type src p s).vfEnable = s.vfEnable := by unfold jrnCtx; split <;> rfl
@[simp] theorem jrnCtx_numVfs (c type src : Nat) (p : List Byte) : (jrnCtx c type src p s).numVfs = s.numVfs := by unfold jrnCtx; split <;> rfl
@[simp] theorem jrnCtx_out (c type src : Nat) (p : List Byte) : (jrnCtx c type src p s).out = s.out := by unfold jrnCtx; split <;> rfl
@[simp] theorem jrnCtx_freeCtr (c type src : Nat) (p : List Byte) : (jrnCtx c type src p s).freeCtr = s.freeCtr := by unfold jrnCtx; split <;> rfl
@[simp] theorem getFk_jrnCtx (c type src : Nat) (p : List Byte) (g : Fld) (j l : Nat) : getFk (jrnCtx c type src p s) g j l = getFk s g j l := by simp [getFk]
@[simp] theorem getF_jrnCtx (c type src : Nat) (p : List Byte) (g : Fld) (j : Nat) : getF (jrnCtx c type src p s) g j = getF s g j := getFk_jrnCtx ..

/-! ## The parts by number -/

@[simp] theorem mcOf_setFk (f : Fld) (i k v : Nat) (x : Nat) : mcOf (setFk f i k v s) x = mcOf s x := rfl
@[simp] theorem mcOf_setF (f : Fld) (i v : Nat) (x : Nat) : mcOf (setF f i v s) x = mcOf s x := rfl
@[simp] theorem mcOf_addFk (f : Fld) (i k n : Nat) (x : Nat) : mcOf (addFk f i k n s) x = mcOf s x := rfl
@[simp] theorem mcOf_addF (f : Fld) (i n : Nat) (x : Nat) : mcOf (addF f i n s) x = mcOf s x := rfl
@[simp] theorem mcOf_incr (f : Fld) (i : Nat) (x : Nat) : mcOf (incr f i s) x = mcOf s x := rfl
@[simp] theorem mcOf_emit (o : Out) (x : Nat) : mcOf (emit o s) x = mcOf s x := rfl
@[simp] theorem mcOf_modMc_self (k : Nat) (f : Mc → Mc) : mcOf (modMc k f s) k = f (mcOf s k) := Store.get_upd_self ..
theorem mcOf_modMc_ne {k j : Nat} (h : k ≠ j) (f : Mc → Mc) : mcOf (modMc k f s) j = mcOf s j := Store.get_upd_ne h ..
@[simp] theorem mcOf_modSluice (n : Nat) (f : Sluice → Sluice) (x : Nat) : mcOf (modSluice n f s) x = mcOf s x := rfl
@[simp] theorem mcOf_modPort (p : Nat) (f : Port → Port) (x : Nat) : mcOf (modPort p f s) x = mcOf s x := rfl
@[simp] theorem mcOf_modCtx (c : Nat) (f : Ctx → Ctx) (x : Nat) : mcOf (modCtx c f s) x = mcOf s x := rfl
@[simp] theorem mcOf_modCluster (cl : Nat) (f : Cluster → Cluster) (x : Nat) : mcOf (modCluster cl f s) x = mcOf s x := rfl
@[simp] theorem mcOf_modObj (k : Nat) (f : SyncObj → SyncObj) (x : Nat) : mcOf (modObj k f s) x = mcOf s x := rfl
@[simp] theorem mcOf_modTx (k : Nat) (f : TxStream → TxStream) (x : Nat) : mcOf (modTx k f s) x = mcOf s x := rfl
@[simp] theorem mcOf_modRx (k : Nat) (f : RxStream → RxStream) (x : Nat) : mcOf (modRx k f s) x = mcOf s x := rfl
@[simp] theorem mcOf_modSeq (rg : Nat) (f : Seq → Seq) (x : Nat) : mcOf (modSeq rg f s) x = mcOf s x := rfl
@[simp] theorem mcOf_modGauge (f : GaugeRun → GaugeRun) (x : Nat) : mcOf (modGauge f s) x = mcOf s x := rfl
@[simp] theorem mcOf_sramWrite (cl a : Nat) (bs : List Byte) (x : Nat) : mcOf (sramWrite cl a bs s) x = mcOf s x := rfl
@[simp] theorem mcOf_hostWrite (a : Nat) (bs : List Byte) (x : Nat) : mcOf (hostWrite a bs s) x = mcOf s x := rfl
@[simp] theorem mcOf_nextFree (x : Nat) : mcOf (nextFree s) x = mcOf s x := rfl
@[simp] theorem mcOf_report (h st r0 r1 : Nat) (x : Nat) : mcOf (report h st r0 r1 s) x = mcOf s x := rfl
@[simp] theorem mcOf_respond (eng tag : Nat) (st : MemStatus) (data : List Byte) (x : Nat) : mcOf (respond eng tag st data s) x = mcOf s x := rfl
@[simp] theorem mcOf_jrnWide (type src : Nat) (p : List Byte) (x : Nat) : mcOf (jrnWide type src p s) x = mcOf s x := by simp [mcOf]
@[simp] theorem mcOf_memEvt (m kind chan row : Nat) (x : Nat) : mcOf (memEvt m kind chan row s) x = mcOf s x := by simp [mcOf]
@[simp] theorem mcOf_jrnCtx (c type src : Nat) (p : List Byte) (x : Nat) : mcOf (jrnCtx c type src p s) x = mcOf s x := by simp [mcOf]
@[simp] theorem mcOf_signalPage (t i : Nat) (x : Nat) : mcOf (signalPage t i s) x = mcOf s x := by simp [mcOf]
@[simp] theorem mcOf_pend (t i m : Nat) (x : Nat) : mcOf (pend t i m s) x = mcOf s x := by simp [mcOf]
@[simp] theorem mcOf_setEvt (e : Evt) (i : Nat) (x : Nat) : mcOf (setEvt e i s) x = mcOf s x := by simp [mcOf]
@[simp] theorem sluiceOf_setFk (f : Fld) (i k v : Nat) (x : Nat) : sluiceOf (setFk f i k v s) x = sluiceOf s x := rfl
@[simp] theorem sluiceOf_setF (f : Fld) (i v : Nat) (x : Nat) : sluiceOf (setF f i v s) x = sluiceOf s x := rfl
@[simp] theorem sluiceOf_addFk (f : Fld) (i k n : Nat) (x : Nat) : sluiceOf (addFk f i k n s) x = sluiceOf s x := rfl
@[simp] theorem sluiceOf_addF (f : Fld) (i n : Nat) (x : Nat) : sluiceOf (addF f i n s) x = sluiceOf s x := rfl
@[simp] theorem sluiceOf_incr (f : Fld) (i : Nat) (x : Nat) : sluiceOf (incr f i s) x = sluiceOf s x := rfl
@[simp] theorem sluiceOf_emit (o : Out) (x : Nat) : sluiceOf (emit o s) x = sluiceOf s x := rfl
@[simp] theorem sluiceOf_modMc (m : Nat) (f : Mc → Mc) (x : Nat) : sluiceOf (modMc m f s) x = sluiceOf s x := rfl
@[simp] theorem sluiceOf_modSluice_self (k : Nat) (f : Sluice → Sluice) : sluiceOf (modSluice k f s) k = f (sluiceOf s k) := Store.get_upd_self ..
theorem sluiceOf_modSluice_ne {k j : Nat} (h : k ≠ j) (f : Sluice → Sluice) : sluiceOf (modSluice k f s) j = sluiceOf s j := Store.get_upd_ne h ..
@[simp] theorem sluiceOf_modPort (p : Nat) (f : Port → Port) (x : Nat) : sluiceOf (modPort p f s) x = sluiceOf s x := rfl
@[simp] theorem sluiceOf_modCtx (c : Nat) (f : Ctx → Ctx) (x : Nat) : sluiceOf (modCtx c f s) x = sluiceOf s x := rfl
@[simp] theorem sluiceOf_modCluster (cl : Nat) (f : Cluster → Cluster) (x : Nat) : sluiceOf (modCluster cl f s) x = sluiceOf s x := rfl
@[simp] theorem sluiceOf_modObj (k : Nat) (f : SyncObj → SyncObj) (x : Nat) : sluiceOf (modObj k f s) x = sluiceOf s x := rfl
@[simp] theorem sluiceOf_modTx (k : Nat) (f : TxStream → TxStream) (x : Nat) : sluiceOf (modTx k f s) x = sluiceOf s x := rfl
@[simp] theorem sluiceOf_modRx (k : Nat) (f : RxStream → RxStream) (x : Nat) : sluiceOf (modRx k f s) x = sluiceOf s x := rfl
@[simp] theorem sluiceOf_modSeq (rg : Nat) (f : Seq → Seq) (x : Nat) : sluiceOf (modSeq rg f s) x = sluiceOf s x := rfl
@[simp] theorem sluiceOf_modGauge (f : GaugeRun → GaugeRun) (x : Nat) : sluiceOf (modGauge f s) x = sluiceOf s x := rfl
@[simp] theorem sluiceOf_sramWrite (cl a : Nat) (bs : List Byte) (x : Nat) : sluiceOf (sramWrite cl a bs s) x = sluiceOf s x := rfl
@[simp] theorem sluiceOf_hostWrite (a : Nat) (bs : List Byte) (x : Nat) : sluiceOf (hostWrite a bs s) x = sluiceOf s x := rfl
@[simp] theorem sluiceOf_nextFree (x : Nat) : sluiceOf (nextFree s) x = sluiceOf s x := rfl
@[simp] theorem sluiceOf_report (h st r0 r1 : Nat) (x : Nat) : sluiceOf (report h st r0 r1 s) x = sluiceOf s x := rfl
@[simp] theorem sluiceOf_respond (eng tag : Nat) (st : MemStatus) (data : List Byte) (x : Nat) : sluiceOf (respond eng tag st data s) x = sluiceOf s x := rfl
@[simp] theorem sluiceOf_jrnWide (type src : Nat) (p : List Byte) (x : Nat) : sluiceOf (jrnWide type src p s) x = sluiceOf s x := by simp [sluiceOf]
@[simp] theorem sluiceOf_memEvt (m kind chan row : Nat) (x : Nat) : sluiceOf (memEvt m kind chan row s) x = sluiceOf s x := by simp [sluiceOf]
@[simp] theorem sluiceOf_jrnCtx (c type src : Nat) (p : List Byte) (x : Nat) : sluiceOf (jrnCtx c type src p s) x = sluiceOf s x := by simp [sluiceOf]
@[simp] theorem sluiceOf_signalPage (t i : Nat) (x : Nat) : sluiceOf (signalPage t i s) x = sluiceOf s x := by simp [sluiceOf]
@[simp] theorem sluiceOf_pend (t i m : Nat) (x : Nat) : sluiceOf (pend t i m s) x = sluiceOf s x := by simp [sluiceOf]
@[simp] theorem sluiceOf_setEvt (e : Evt) (i : Nat) (x : Nat) : sluiceOf (setEvt e i s) x = sluiceOf s x := by simp [sluiceOf]
@[simp] theorem portOf_setFk (f : Fld) (i k v : Nat) (x : Nat) : portOf (setFk f i k v s) x = portOf s x := rfl
@[simp] theorem portOf_setF (f : Fld) (i v : Nat) (x : Nat) : portOf (setF f i v s) x = portOf s x := rfl
@[simp] theorem portOf_addFk (f : Fld) (i k n : Nat) (x : Nat) : portOf (addFk f i k n s) x = portOf s x := rfl
@[simp] theorem portOf_addF (f : Fld) (i n : Nat) (x : Nat) : portOf (addF f i n s) x = portOf s x := rfl
@[simp] theorem portOf_incr (f : Fld) (i : Nat) (x : Nat) : portOf (incr f i s) x = portOf s x := rfl
@[simp] theorem portOf_emit (o : Out) (x : Nat) : portOf (emit o s) x = portOf s x := rfl
@[simp] theorem portOf_modMc (m : Nat) (f : Mc → Mc) (x : Nat) : portOf (modMc m f s) x = portOf s x := rfl
@[simp] theorem portOf_modSluice (n : Nat) (f : Sluice → Sluice) (x : Nat) : portOf (modSluice n f s) x = portOf s x := rfl
@[simp] theorem portOf_modPort_self (k : Nat) (f : Port → Port) : portOf (modPort k f s) k = f (portOf s k) := Store.get_upd_self ..
theorem portOf_modPort_ne {k j : Nat} (h : k ≠ j) (f : Port → Port) : portOf (modPort k f s) j = portOf s j := Store.get_upd_ne h ..
@[simp] theorem portOf_modCtx (c : Nat) (f : Ctx → Ctx) (x : Nat) : portOf (modCtx c f s) x = portOf s x := rfl
@[simp] theorem portOf_modCluster (cl : Nat) (f : Cluster → Cluster) (x : Nat) : portOf (modCluster cl f s) x = portOf s x := rfl
@[simp] theorem portOf_modObj (k : Nat) (f : SyncObj → SyncObj) (x : Nat) : portOf (modObj k f s) x = portOf s x := rfl
@[simp] theorem portOf_modTx (k : Nat) (f : TxStream → TxStream) (x : Nat) : portOf (modTx k f s) x = portOf s x := rfl
@[simp] theorem portOf_modRx (k : Nat) (f : RxStream → RxStream) (x : Nat) : portOf (modRx k f s) x = portOf s x := rfl
@[simp] theorem portOf_modSeq (rg : Nat) (f : Seq → Seq) (x : Nat) : portOf (modSeq rg f s) x = portOf s x := rfl
@[simp] theorem portOf_modGauge (f : GaugeRun → GaugeRun) (x : Nat) : portOf (modGauge f s) x = portOf s x := rfl
@[simp] theorem portOf_sramWrite (cl a : Nat) (bs : List Byte) (x : Nat) : portOf (sramWrite cl a bs s) x = portOf s x := rfl
@[simp] theorem portOf_hostWrite (a : Nat) (bs : List Byte) (x : Nat) : portOf (hostWrite a bs s) x = portOf s x := rfl
@[simp] theorem portOf_nextFree (x : Nat) : portOf (nextFree s) x = portOf s x := rfl
@[simp] theorem portOf_report (h st r0 r1 : Nat) (x : Nat) : portOf (report h st r0 r1 s) x = portOf s x := rfl
@[simp] theorem portOf_respond (eng tag : Nat) (st : MemStatus) (data : List Byte) (x : Nat) : portOf (respond eng tag st data s) x = portOf s x := rfl
@[simp] theorem portOf_jrnWide (type src : Nat) (p : List Byte) (x : Nat) : portOf (jrnWide type src p s) x = portOf s x := by simp [portOf]
@[simp] theorem portOf_memEvt (m kind chan row : Nat) (x : Nat) : portOf (memEvt m kind chan row s) x = portOf s x := by simp [portOf]
@[simp] theorem portOf_jrnCtx (c type src : Nat) (p : List Byte) (x : Nat) : portOf (jrnCtx c type src p s) x = portOf s x := by simp [portOf]
@[simp] theorem portOf_signalPage (t i : Nat) (x : Nat) : portOf (signalPage t i s) x = portOf s x := by simp [portOf]
@[simp] theorem portOf_pend (t i m : Nat) (x : Nat) : portOf (pend t i m s) x = portOf s x := by simp [portOf]
@[simp] theorem portOf_setEvt (e : Evt) (i : Nat) (x : Nat) : portOf (setEvt e i s) x = portOf s x := by simp [portOf]
@[simp] theorem ctxOf_setFk (f : Fld) (i k v : Nat) (x : Nat) : ctxOf (setFk f i k v s) x = ctxOf s x := rfl
@[simp] theorem ctxOf_setF (f : Fld) (i v : Nat) (x : Nat) : ctxOf (setF f i v s) x = ctxOf s x := rfl
@[simp] theorem ctxOf_addFk (f : Fld) (i k n : Nat) (x : Nat) : ctxOf (addFk f i k n s) x = ctxOf s x := rfl
@[simp] theorem ctxOf_addF (f : Fld) (i n : Nat) (x : Nat) : ctxOf (addF f i n s) x = ctxOf s x := rfl
@[simp] theorem ctxOf_incr (f : Fld) (i : Nat) (x : Nat) : ctxOf (incr f i s) x = ctxOf s x := rfl
@[simp] theorem ctxOf_emit (o : Out) (x : Nat) : ctxOf (emit o s) x = ctxOf s x := rfl
@[simp] theorem ctxOf_modMc (m : Nat) (f : Mc → Mc) (x : Nat) : ctxOf (modMc m f s) x = ctxOf s x := rfl
@[simp] theorem ctxOf_modSluice (n : Nat) (f : Sluice → Sluice) (x : Nat) : ctxOf (modSluice n f s) x = ctxOf s x := rfl
@[simp] theorem ctxOf_modPort (p : Nat) (f : Port → Port) (x : Nat) : ctxOf (modPort p f s) x = ctxOf s x := rfl
@[simp] theorem ctxOf_modCtx_self (k : Nat) (f : Ctx → Ctx) : ctxOf (modCtx k f s) k = f (ctxOf s k) := Store.get_upd_self ..
theorem ctxOf_modCtx_ne {k j : Nat} (h : k ≠ j) (f : Ctx → Ctx) : ctxOf (modCtx k f s) j = ctxOf s j := Store.get_upd_ne h ..
@[simp] theorem ctxOf_modCluster (cl : Nat) (f : Cluster → Cluster) (x : Nat) : ctxOf (modCluster cl f s) x = ctxOf s x := rfl
@[simp] theorem ctxOf_modObj (k : Nat) (f : SyncObj → SyncObj) (x : Nat) : ctxOf (modObj k f s) x = ctxOf s x := rfl
@[simp] theorem ctxOf_modTx (k : Nat) (f : TxStream → TxStream) (x : Nat) : ctxOf (modTx k f s) x = ctxOf s x := rfl
@[simp] theorem ctxOf_modRx (k : Nat) (f : RxStream → RxStream) (x : Nat) : ctxOf (modRx k f s) x = ctxOf s x := rfl
@[simp] theorem ctxOf_modSeq (rg : Nat) (f : Seq → Seq) (x : Nat) : ctxOf (modSeq rg f s) x = ctxOf s x := rfl
@[simp] theorem ctxOf_modGauge (f : GaugeRun → GaugeRun) (x : Nat) : ctxOf (modGauge f s) x = ctxOf s x := rfl
@[simp] theorem ctxOf_sramWrite (cl a : Nat) (bs : List Byte) (x : Nat) : ctxOf (sramWrite cl a bs s) x = ctxOf s x := rfl
@[simp] theorem ctxOf_hostWrite (a : Nat) (bs : List Byte) (x : Nat) : ctxOf (hostWrite a bs s) x = ctxOf s x := rfl
@[simp] theorem ctxOf_nextFree (x : Nat) : ctxOf (nextFree s) x = ctxOf s x := rfl
@[simp] theorem ctxOf_report (h st r0 r1 : Nat) (x : Nat) : ctxOf (report h st r0 r1 s) x = ctxOf s x := rfl
@[simp] theorem ctxOf_respond (eng tag : Nat) (st : MemStatus) (data : List Byte) (x : Nat) : ctxOf (respond eng tag st data s) x = ctxOf s x := rfl
@[simp] theorem ctxOf_jrnWide (type src : Nat) (p : List Byte) (x : Nat) : ctxOf (jrnWide type src p s) x = ctxOf s x := by simp [ctxOf]
@[simp] theorem ctxOf_memEvt (m kind chan row : Nat) (x : Nat) : ctxOf (memEvt m kind chan row s) x = ctxOf s x := by simp [ctxOf]
@[simp] theorem ctxOf_signalPage (t i : Nat) (x : Nat) : ctxOf (signalPage t i s) x = ctxOf s x := by simp [ctxOf]
@[simp] theorem ctxOf_pend (t i m : Nat) (x : Nat) : ctxOf (pend t i m s) x = ctxOf s x := by simp [ctxOf]
@[simp] theorem ctxOf_setEvt (e : Evt) (i : Nat) (x : Nat) : ctxOf (setEvt e i s) x = ctxOf s x := by simp [ctxOf]
@[simp] theorem clusterOf_setFk (f : Fld) (i k v : Nat) (x : Nat) : clusterOf (setFk f i k v s) x = clusterOf s x := rfl
@[simp] theorem clusterOf_setF (f : Fld) (i v : Nat) (x : Nat) : clusterOf (setF f i v s) x = clusterOf s x := rfl
@[simp] theorem clusterOf_addFk (f : Fld) (i k n : Nat) (x : Nat) : clusterOf (addFk f i k n s) x = clusterOf s x := rfl
@[simp] theorem clusterOf_addF (f : Fld) (i n : Nat) (x : Nat) : clusterOf (addF f i n s) x = clusterOf s x := rfl
@[simp] theorem clusterOf_incr (f : Fld) (i : Nat) (x : Nat) : clusterOf (incr f i s) x = clusterOf s x := rfl
@[simp] theorem clusterOf_emit (o : Out) (x : Nat) : clusterOf (emit o s) x = clusterOf s x := rfl
@[simp] theorem clusterOf_modMc (m : Nat) (f : Mc → Mc) (x : Nat) : clusterOf (modMc m f s) x = clusterOf s x := rfl
@[simp] theorem clusterOf_modSluice (n : Nat) (f : Sluice → Sluice) (x : Nat) : clusterOf (modSluice n f s) x = clusterOf s x := rfl
@[simp] theorem clusterOf_modPort (p : Nat) (f : Port → Port) (x : Nat) : clusterOf (modPort p f s) x = clusterOf s x := rfl
@[simp] theorem clusterOf_modCtx (c : Nat) (f : Ctx → Ctx) (x : Nat) : clusterOf (modCtx c f s) x = clusterOf s x := rfl
@[simp] theorem clusterOf_modCluster_self (k : Nat) (f : Cluster → Cluster) : clusterOf (modCluster k f s) k = f (clusterOf s k) := Store.get_upd_self ..
theorem clusterOf_modCluster_ne {k j : Nat} (h : k ≠ j) (f : Cluster → Cluster) : clusterOf (modCluster k f s) j = clusterOf s j := Store.get_upd_ne h ..
@[simp] theorem clusterOf_modObj (k : Nat) (f : SyncObj → SyncObj) (x : Nat) : clusterOf (modObj k f s) x = clusterOf s x := rfl
@[simp] theorem clusterOf_modTx (k : Nat) (f : TxStream → TxStream) (x : Nat) : clusterOf (modTx k f s) x = clusterOf s x := rfl
@[simp] theorem clusterOf_modRx (k : Nat) (f : RxStream → RxStream) (x : Nat) : clusterOf (modRx k f s) x = clusterOf s x := rfl
@[simp] theorem clusterOf_modSeq (rg : Nat) (f : Seq → Seq) (x : Nat) : clusterOf (modSeq rg f s) x = clusterOf s x := rfl
@[simp] theorem clusterOf_modGauge (f : GaugeRun → GaugeRun) (x : Nat) : clusterOf (modGauge f s) x = clusterOf s x := rfl
@[simp] theorem clusterOf_sramWrite (cl a : Nat) (bs : List Byte) (x : Nat) : clusterOf (sramWrite cl a bs s) x = clusterOf s x := rfl
@[simp] theorem clusterOf_hostWrite (a : Nat) (bs : List Byte) (x : Nat) : clusterOf (hostWrite a bs s) x = clusterOf s x := rfl
@[simp] theorem clusterOf_nextFree (x : Nat) : clusterOf (nextFree s) x = clusterOf s x := rfl
@[simp] theorem clusterOf_report (h st r0 r1 : Nat) (x : Nat) : clusterOf (report h st r0 r1 s) x = clusterOf s x := rfl
@[simp] theorem clusterOf_respond (eng tag : Nat) (st : MemStatus) (data : List Byte) (x : Nat) : clusterOf (respond eng tag st data s) x = clusterOf s x := rfl
@[simp] theorem clusterOf_jrnWide (type src : Nat) (p : List Byte) (x : Nat) : clusterOf (jrnWide type src p s) x = clusterOf s x := by simp [clusterOf]
@[simp] theorem clusterOf_memEvt (m kind chan row : Nat) (x : Nat) : clusterOf (memEvt m kind chan row s) x = clusterOf s x := by simp [clusterOf]
@[simp] theorem clusterOf_jrnCtx (c type src : Nat) (p : List Byte) (x : Nat) : clusterOf (jrnCtx c type src p s) x = clusterOf s x := by simp [clusterOf]
@[simp] theorem clusterOf_signalPage (t i : Nat) (x : Nat) : clusterOf (signalPage t i s) x = clusterOf s x := by simp [clusterOf]
@[simp] theorem clusterOf_pend (t i m : Nat) (x : Nat) : clusterOf (pend t i m s) x = clusterOf s x := by simp [clusterOf]
@[simp] theorem clusterOf_setEvt (e : Evt) (i : Nat) (x : Nat) : clusterOf (setEvt e i s) x = clusterOf s x := by simp [clusterOf]
@[simp] theorem objOf_setFk (f : Fld) (i k v : Nat) (x : Nat) : objOf (setFk f i k v s) x = objOf s x := rfl
@[simp] theorem objOf_setF (f : Fld) (i v : Nat) (x : Nat) : objOf (setF f i v s) x = objOf s x := rfl
@[simp] theorem objOf_addFk (f : Fld) (i k n : Nat) (x : Nat) : objOf (addFk f i k n s) x = objOf s x := rfl
@[simp] theorem objOf_addF (f : Fld) (i n : Nat) (x : Nat) : objOf (addF f i n s) x = objOf s x := rfl
@[simp] theorem objOf_incr (f : Fld) (i : Nat) (x : Nat) : objOf (incr f i s) x = objOf s x := rfl
@[simp] theorem objOf_emit (o : Out) (x : Nat) : objOf (emit o s) x = objOf s x := rfl
@[simp] theorem objOf_modMc (m : Nat) (f : Mc → Mc) (x : Nat) : objOf (modMc m f s) x = objOf s x := rfl
@[simp] theorem objOf_modSluice (n : Nat) (f : Sluice → Sluice) (x : Nat) : objOf (modSluice n f s) x = objOf s x := rfl
@[simp] theorem objOf_modPort (p : Nat) (f : Port → Port) (x : Nat) : objOf (modPort p f s) x = objOf s x := rfl
@[simp] theorem objOf_modCtx (c : Nat) (f : Ctx → Ctx) (x : Nat) : objOf (modCtx c f s) x = objOf s x := rfl
@[simp] theorem objOf_modCluster (cl : Nat) (f : Cluster → Cluster) (x : Nat) : objOf (modCluster cl f s) x = objOf s x := rfl
@[simp] theorem objOf_modObj_self (k : Nat) (f : SyncObj → SyncObj) : objOf (modObj k f s) k = f (objOf s k) := Store.get_upd_self ..
theorem objOf_modObj_ne {k j : Nat} (h : k ≠ j) (f : SyncObj → SyncObj) : objOf (modObj k f s) j = objOf s j := Store.get_upd_ne h ..
@[simp] theorem objOf_modTx (k : Nat) (f : TxStream → TxStream) (x : Nat) : objOf (modTx k f s) x = objOf s x := rfl
@[simp] theorem objOf_modRx (k : Nat) (f : RxStream → RxStream) (x : Nat) : objOf (modRx k f s) x = objOf s x := rfl
@[simp] theorem objOf_modSeq (rg : Nat) (f : Seq → Seq) (x : Nat) : objOf (modSeq rg f s) x = objOf s x := rfl
@[simp] theorem objOf_modGauge (f : GaugeRun → GaugeRun) (x : Nat) : objOf (modGauge f s) x = objOf s x := rfl
@[simp] theorem objOf_sramWrite (cl a : Nat) (bs : List Byte) (x : Nat) : objOf (sramWrite cl a bs s) x = objOf s x := rfl
@[simp] theorem objOf_hostWrite (a : Nat) (bs : List Byte) (x : Nat) : objOf (hostWrite a bs s) x = objOf s x := rfl
@[simp] theorem objOf_nextFree (x : Nat) : objOf (nextFree s) x = objOf s x := rfl
@[simp] theorem objOf_report (h st r0 r1 : Nat) (x : Nat) : objOf (report h st r0 r1 s) x = objOf s x := rfl
@[simp] theorem objOf_respond (eng tag : Nat) (st : MemStatus) (data : List Byte) (x : Nat) : objOf (respond eng tag st data s) x = objOf s x := rfl
@[simp] theorem objOf_jrnWide (type src : Nat) (p : List Byte) (x : Nat) : objOf (jrnWide type src p s) x = objOf s x := by simp [objOf]
@[simp] theorem objOf_memEvt (m kind chan row : Nat) (x : Nat) : objOf (memEvt m kind chan row s) x = objOf s x := by simp [objOf]
@[simp] theorem objOf_jrnCtx (c type src : Nat) (p : List Byte) (x : Nat) : objOf (jrnCtx c type src p s) x = objOf s x := by simp [objOf]
@[simp] theorem objOf_signalPage (t i : Nat) (x : Nat) : objOf (signalPage t i s) x = objOf s x := by simp [objOf]
@[simp] theorem objOf_pend (t i m : Nat) (x : Nat) : objOf (pend t i m s) x = objOf s x := by simp [objOf]
@[simp] theorem objOf_setEvt (e : Evt) (i : Nat) (x : Nat) : objOf (setEvt e i s) x = objOf s x := by simp [objOf]
@[simp] theorem txOf_setFk (f : Fld) (i k v : Nat) (x : Nat) : txOf (setFk f i k v s) x = txOf s x := rfl
@[simp] theorem txOf_setF (f : Fld) (i v : Nat) (x : Nat) : txOf (setF f i v s) x = txOf s x := rfl
@[simp] theorem txOf_addFk (f : Fld) (i k n : Nat) (x : Nat) : txOf (addFk f i k n s) x = txOf s x := rfl
@[simp] theorem txOf_addF (f : Fld) (i n : Nat) (x : Nat) : txOf (addF f i n s) x = txOf s x := rfl
@[simp] theorem txOf_incr (f : Fld) (i : Nat) (x : Nat) : txOf (incr f i s) x = txOf s x := rfl
@[simp] theorem txOf_emit (o : Out) (x : Nat) : txOf (emit o s) x = txOf s x := rfl
@[simp] theorem txOf_modMc (m : Nat) (f : Mc → Mc) (x : Nat) : txOf (modMc m f s) x = txOf s x := rfl
@[simp] theorem txOf_modSluice (n : Nat) (f : Sluice → Sluice) (x : Nat) : txOf (modSluice n f s) x = txOf s x := rfl
@[simp] theorem txOf_modPort (p : Nat) (f : Port → Port) (x : Nat) : txOf (modPort p f s) x = txOf s x := rfl
@[simp] theorem txOf_modCtx (c : Nat) (f : Ctx → Ctx) (x : Nat) : txOf (modCtx c f s) x = txOf s x := rfl
@[simp] theorem txOf_modCluster (cl : Nat) (f : Cluster → Cluster) (x : Nat) : txOf (modCluster cl f s) x = txOf s x := rfl
@[simp] theorem txOf_modObj (k : Nat) (f : SyncObj → SyncObj) (x : Nat) : txOf (modObj k f s) x = txOf s x := rfl
@[simp] theorem txOf_modTx_self (k : Nat) (f : TxStream → TxStream) : txOf (modTx k f s) k = f (txOf s k) := Store.get_upd_self ..
theorem txOf_modTx_ne {k j : Nat} (h : k ≠ j) (f : TxStream → TxStream) : txOf (modTx k f s) j = txOf s j := Store.get_upd_ne h ..
@[simp] theorem txOf_modRx (k : Nat) (f : RxStream → RxStream) (x : Nat) : txOf (modRx k f s) x = txOf s x := rfl
@[simp] theorem txOf_modSeq (rg : Nat) (f : Seq → Seq) (x : Nat) : txOf (modSeq rg f s) x = txOf s x := rfl
@[simp] theorem txOf_modGauge (f : GaugeRun → GaugeRun) (x : Nat) : txOf (modGauge f s) x = txOf s x := rfl
@[simp] theorem txOf_sramWrite (cl a : Nat) (bs : List Byte) (x : Nat) : txOf (sramWrite cl a bs s) x = txOf s x := rfl
@[simp] theorem txOf_hostWrite (a : Nat) (bs : List Byte) (x : Nat) : txOf (hostWrite a bs s) x = txOf s x := rfl
@[simp] theorem txOf_nextFree (x : Nat) : txOf (nextFree s) x = txOf s x := rfl
@[simp] theorem txOf_report (h st r0 r1 : Nat) (x : Nat) : txOf (report h st r0 r1 s) x = txOf s x := rfl
@[simp] theorem txOf_respond (eng tag : Nat) (st : MemStatus) (data : List Byte) (x : Nat) : txOf (respond eng tag st data s) x = txOf s x := rfl
@[simp] theorem txOf_jrnWide (type src : Nat) (p : List Byte) (x : Nat) : txOf (jrnWide type src p s) x = txOf s x := by simp [txOf]
@[simp] theorem txOf_memEvt (m kind chan row : Nat) (x : Nat) : txOf (memEvt m kind chan row s) x = txOf s x := by simp [txOf]
@[simp] theorem txOf_jrnCtx (c type src : Nat) (p : List Byte) (x : Nat) : txOf (jrnCtx c type src p s) x = txOf s x := by simp [txOf]
@[simp] theorem txOf_signalPage (t i : Nat) (x : Nat) : txOf (signalPage t i s) x = txOf s x := by simp [txOf]
@[simp] theorem txOf_pend (t i m : Nat) (x : Nat) : txOf (pend t i m s) x = txOf s x := by simp [txOf]
@[simp] theorem txOf_setEvt (e : Evt) (i : Nat) (x : Nat) : txOf (setEvt e i s) x = txOf s x := by simp [txOf]
@[simp] theorem rxOf_setFk (f : Fld) (i k v : Nat) (x : Nat) : rxOf (setFk f i k v s) x = rxOf s x := rfl
@[simp] theorem rxOf_setF (f : Fld) (i v : Nat) (x : Nat) : rxOf (setF f i v s) x = rxOf s x := rfl
@[simp] theorem rxOf_addFk (f : Fld) (i k n : Nat) (x : Nat) : rxOf (addFk f i k n s) x = rxOf s x := rfl
@[simp] theorem rxOf_addF (f : Fld) (i n : Nat) (x : Nat) : rxOf (addF f i n s) x = rxOf s x := rfl
@[simp] theorem rxOf_incr (f : Fld) (i : Nat) (x : Nat) : rxOf (incr f i s) x = rxOf s x := rfl
@[simp] theorem rxOf_emit (o : Out) (x : Nat) : rxOf (emit o s) x = rxOf s x := rfl
@[simp] theorem rxOf_modMc (m : Nat) (f : Mc → Mc) (x : Nat) : rxOf (modMc m f s) x = rxOf s x := rfl
@[simp] theorem rxOf_modSluice (n : Nat) (f : Sluice → Sluice) (x : Nat) : rxOf (modSluice n f s) x = rxOf s x := rfl
@[simp] theorem rxOf_modPort (p : Nat) (f : Port → Port) (x : Nat) : rxOf (modPort p f s) x = rxOf s x := rfl
@[simp] theorem rxOf_modCtx (c : Nat) (f : Ctx → Ctx) (x : Nat) : rxOf (modCtx c f s) x = rxOf s x := rfl
@[simp] theorem rxOf_modCluster (cl : Nat) (f : Cluster → Cluster) (x : Nat) : rxOf (modCluster cl f s) x = rxOf s x := rfl
@[simp] theorem rxOf_modObj (k : Nat) (f : SyncObj → SyncObj) (x : Nat) : rxOf (modObj k f s) x = rxOf s x := rfl
@[simp] theorem rxOf_modTx (k : Nat) (f : TxStream → TxStream) (x : Nat) : rxOf (modTx k f s) x = rxOf s x := rfl
@[simp] theorem rxOf_modRx_self (k : Nat) (f : RxStream → RxStream) : rxOf (modRx k f s) k = f (rxOf s k) := Store.get_upd_self ..
theorem rxOf_modRx_ne {k j : Nat} (h : k ≠ j) (f : RxStream → RxStream) : rxOf (modRx k f s) j = rxOf s j := Store.get_upd_ne h ..
@[simp] theorem rxOf_modSeq (rg : Nat) (f : Seq → Seq) (x : Nat) : rxOf (modSeq rg f s) x = rxOf s x := rfl
@[simp] theorem rxOf_modGauge (f : GaugeRun → GaugeRun) (x : Nat) : rxOf (modGauge f s) x = rxOf s x := rfl
@[simp] theorem rxOf_sramWrite (cl a : Nat) (bs : List Byte) (x : Nat) : rxOf (sramWrite cl a bs s) x = rxOf s x := rfl
@[simp] theorem rxOf_hostWrite (a : Nat) (bs : List Byte) (x : Nat) : rxOf (hostWrite a bs s) x = rxOf s x := rfl
@[simp] theorem rxOf_nextFree (x : Nat) : rxOf (nextFree s) x = rxOf s x := rfl
@[simp] theorem rxOf_report (h st r0 r1 : Nat) (x : Nat) : rxOf (report h st r0 r1 s) x = rxOf s x := rfl
@[simp] theorem rxOf_respond (eng tag : Nat) (st : MemStatus) (data : List Byte) (x : Nat) : rxOf (respond eng tag st data s) x = rxOf s x := rfl
@[simp] theorem rxOf_jrnWide (type src : Nat) (p : List Byte) (x : Nat) : rxOf (jrnWide type src p s) x = rxOf s x := by simp [rxOf]
@[simp] theorem rxOf_memEvt (m kind chan row : Nat) (x : Nat) : rxOf (memEvt m kind chan row s) x = rxOf s x := by simp [rxOf]
@[simp] theorem rxOf_jrnCtx (c type src : Nat) (p : List Byte) (x : Nat) : rxOf (jrnCtx c type src p s) x = rxOf s x := by simp [rxOf]
@[simp] theorem rxOf_signalPage (t i : Nat) (x : Nat) : rxOf (signalPage t i s) x = rxOf s x := by simp [rxOf]
@[simp] theorem rxOf_pend (t i m : Nat) (x : Nat) : rxOf (pend t i m s) x = rxOf s x := by simp [rxOf]
@[simp] theorem rxOf_setEvt (e : Evt) (i : Nat) (x : Nat) : rxOf (setEvt e i s) x = rxOf s x := by simp [rxOf]
@[simp] theorem seqOf_setFk (f : Fld) (i k v : Nat) (x : Nat) : seqOf (setFk f i k v s) x = seqOf s x := rfl
@[simp] theorem seqOf_setF (f : Fld) (i v : Nat) (x : Nat) : seqOf (setF f i v s) x = seqOf s x := rfl
@[simp] theorem seqOf_addFk (f : Fld) (i k n : Nat) (x : Nat) : seqOf (addFk f i k n s) x = seqOf s x := rfl
@[simp] theorem seqOf_addF (f : Fld) (i n : Nat) (x : Nat) : seqOf (addF f i n s) x = seqOf s x := rfl
@[simp] theorem seqOf_incr (f : Fld) (i : Nat) (x : Nat) : seqOf (incr f i s) x = seqOf s x := rfl
@[simp] theorem seqOf_emit (o : Out) (x : Nat) : seqOf (emit o s) x = seqOf s x := rfl
@[simp] theorem seqOf_modMc (m : Nat) (f : Mc → Mc) (x : Nat) : seqOf (modMc m f s) x = seqOf s x := rfl
@[simp] theorem seqOf_modSluice (n : Nat) (f : Sluice → Sluice) (x : Nat) : seqOf (modSluice n f s) x = seqOf s x := rfl
@[simp] theorem seqOf_modPort (p : Nat) (f : Port → Port) (x : Nat) : seqOf (modPort p f s) x = seqOf s x := rfl
@[simp] theorem seqOf_modCtx (c : Nat) (f : Ctx → Ctx) (x : Nat) : seqOf (modCtx c f s) x = seqOf s x := rfl
@[simp] theorem seqOf_modCluster (cl : Nat) (f : Cluster → Cluster) (x : Nat) : seqOf (modCluster cl f s) x = seqOf s x := rfl
@[simp] theorem seqOf_modObj (k : Nat) (f : SyncObj → SyncObj) (x : Nat) : seqOf (modObj k f s) x = seqOf s x := rfl
@[simp] theorem seqOf_modTx (k : Nat) (f : TxStream → TxStream) (x : Nat) : seqOf (modTx k f s) x = seqOf s x := rfl
@[simp] theorem seqOf_modRx (k : Nat) (f : RxStream → RxStream) (x : Nat) : seqOf (modRx k f s) x = seqOf s x := rfl
@[simp] theorem seqOf_modSeq_self (k : Nat) (f : Seq → Seq) : seqOf (modSeq k f s) k = f (seqOf s k) := Store.get_upd_self ..
theorem seqOf_modSeq_ne {k j : Nat} (h : k ≠ j) (f : Seq → Seq) : seqOf (modSeq k f s) j = seqOf s j := Store.get_upd_ne h ..
@[simp] theorem seqOf_modGauge (f : GaugeRun → GaugeRun) (x : Nat) : seqOf (modGauge f s) x = seqOf s x := rfl
@[simp] theorem seqOf_sramWrite (cl a : Nat) (bs : List Byte) (x : Nat) : seqOf (sramWrite cl a bs s) x = seqOf s x := rfl
@[simp] theorem seqOf_hostWrite (a : Nat) (bs : List Byte) (x : Nat) : seqOf (hostWrite a bs s) x = seqOf s x := rfl
@[simp] theorem seqOf_nextFree (x : Nat) : seqOf (nextFree s) x = seqOf s x := rfl
@[simp] theorem seqOf_report (h st r0 r1 : Nat) (x : Nat) : seqOf (report h st r0 r1 s) x = seqOf s x := rfl
@[simp] theorem seqOf_respond (eng tag : Nat) (st : MemStatus) (data : List Byte) (x : Nat) : seqOf (respond eng tag st data s) x = seqOf s x := rfl
@[simp] theorem seqOf_jrnWide (type src : Nat) (p : List Byte) (x : Nat) : seqOf (jrnWide type src p s) x = seqOf s x := by simp [seqOf]
@[simp] theorem seqOf_memEvt (m kind chan row : Nat) (x : Nat) : seqOf (memEvt m kind chan row s) x = seqOf s x := by simp [seqOf]
@[simp] theorem seqOf_jrnCtx (c type src : Nat) (p : List Byte) (x : Nat) : seqOf (jrnCtx c type src p s) x = seqOf s x := by simp [seqOf]
@[simp] theorem seqOf_signalPage (t i : Nat) (x : Nat) : seqOf (signalPage t i s) x = seqOf s x := by simp [seqOf]
@[simp] theorem seqOf_pend (t i m : Nat) (x : Nat) : seqOf (pend t i m s) x = seqOf s x := by simp [seqOf]
@[simp] theorem seqOf_setEvt (e : Evt) (i : Nat) (x : Nat) : seqOf (setEvt e i s) x = seqOf s x := by simp [seqOf]
@[simp] theorem unitOf_setFk (f : Fld) (i k v : Nat) (x : Nat) : unitOf (setFk f i k v s) x = unitOf s x := rfl
@[simp] theorem unitOf_setF (f : Fld) (i v : Nat) (x : Nat) : unitOf (setF f i v s) x = unitOf s x := rfl
@[simp] theorem unitOf_addFk (f : Fld) (i k n : Nat) (x : Nat) : unitOf (addFk f i k n s) x = unitOf s x := rfl
@[simp] theorem unitOf_addF (f : Fld) (i n : Nat) (x : Nat) : unitOf (addF f i n s) x = unitOf s x := rfl
@[simp] theorem unitOf_incr (f : Fld) (i : Nat) (x : Nat) : unitOf (incr f i s) x = unitOf s x := rfl
@[simp] theorem unitOf_emit (o : Out) (x : Nat) : unitOf (emit o s) x = unitOf s x := rfl
@[simp] theorem unitOf_modMc (m : Nat) (f : Mc → Mc) (x : Nat) : unitOf (modMc m f s) x = unitOf s x := rfl
@[simp] theorem unitOf_modSluice (n : Nat) (f : Sluice → Sluice) (x : Nat) : unitOf (modSluice n f s) x = unitOf s x := rfl
@[simp] theorem unitOf_modPort (p : Nat) (f : Port → Port) (x : Nat) : unitOf (modPort p f s) x = unitOf s x := rfl
@[simp] theorem unitOf_modCtx (c : Nat) (f : Ctx → Ctx) (x : Nat) : unitOf (modCtx c f s) x = unitOf s x := rfl
@[simp] theorem unitOf_modCluster (cl : Nat) (f : Cluster → Cluster) (x : Nat) : unitOf (modCluster cl f s) x = unitOf s x := rfl
@[simp] theorem unitOf_modObj (k : Nat) (f : SyncObj → SyncObj) (x : Nat) : unitOf (modObj k f s) x = unitOf s x := rfl
@[simp] theorem unitOf_modTx (k : Nat) (f : TxStream → TxStream) (x : Nat) : unitOf (modTx k f s) x = unitOf s x := rfl
@[simp] theorem unitOf_modRx (k : Nat) (f : RxStream → RxStream) (x : Nat) : unitOf (modRx k f s) x = unitOf s x := rfl
@[simp] theorem unitOf_modSeq (rg : Nat) (f : Seq → Seq) (x : Nat) : unitOf (modSeq rg f s) x = unitOf s x := rfl
@[simp] theorem unitOf_modGauge (f : GaugeRun → GaugeRun) (x : Nat) : unitOf (modGauge f s) x = unitOf s x := rfl
@[simp] theorem unitOf_sramWrite (cl a : Nat) (bs : List Byte) (x : Nat) : unitOf (sramWrite cl a bs s) x = unitOf s x := rfl
@[simp] theorem unitOf_hostWrite (a : Nat) (bs : List Byte) (x : Nat) : unitOf (hostWrite a bs s) x = unitOf s x := rfl
@[simp] theorem unitOf_nextFree (x : Nat) : unitOf (nextFree s) x = unitOf s x := rfl
@[simp] theorem unitOf_report (h st r0 r1 : Nat) (x : Nat) : unitOf (report h st r0 r1 s) x = unitOf s x := rfl
@[simp] theorem unitOf_respond (eng tag : Nat) (st : MemStatus) (data : List Byte) (x : Nat) : unitOf (respond eng tag st data s) x = unitOf s x := rfl
@[simp] theorem unitOf_jrnWide (type src : Nat) (p : List Byte) (x : Nat) : unitOf (jrnWide type src p s) x = unitOf s x := by simp [unitOf]
@[simp] theorem unitOf_memEvt (m kind chan row : Nat) (x : Nat) : unitOf (memEvt m kind chan row s) x = unitOf s x := by simp [unitOf]
@[simp] theorem unitOf_jrnCtx (c type src : Nat) (p : List Byte) (x : Nat) : unitOf (jrnCtx c type src p s) x = unitOf s x := by simp [unitOf]
@[simp] theorem unitOf_signalPage (t i : Nat) (x : Nat) : unitOf (signalPage t i s) x = unitOf s x := by simp [unitOf]
@[simp] theorem unitOf_pend (t i m : Nat) (x : Nat) : unitOf (pend t i m s) x = unitOf s x := by simp [unitOf]
@[simp] theorem unitOf_setEvt (e : Evt) (i : Nat) (x : Nat) : unitOf (setEvt e i s) x = unitOf s x := by simp [unitOf]

/-! ## What the updates write -/

@[simp] theorem emit_out (o : Out) : (emit o s).out = s.out ++ [o] := rfl
@[simp] theorem report_reports (h st r0 r1 : Nat) :
  (report h st r0 r1 s).reports = s.reports ++ [{ handle := h, status := st, r0 := r0, r1 := r1 }] := rfl
@[simp] theorem respond_responses (eng tag : Nat) (st : MemStatus) (data : List Byte) :
  (respond eng tag st data s).responses = s.responses ++ [{ eng := eng, tag := tag, status := st, data := data }] := rfl
@[simp] theorem sramWrite_sram (cl a : Nat) (bs : List Byte) :
  (sramWrite cl a bs s).sram = Store.putAll 0 (sramKey cl a) bs s.sram := rfl
@[simp] theorem hostWrite_hmem (a : Nat) (bs : List Byte) : (hostWrite a bs s).hmem = Store.putAll 0 a bs s.hmem := rfl
@[simp] theorem nextFree_freeCtr : (nextFree s).freeCtr = s.freeCtr + 1 := rfl

end Sys2Proof.Machine
end

