-- ==== Sys2Proof/Laws/Ops.lean ====
section
/-! SUPPORT. What the shared operations do: register fields, events, guards, and the memories. -/

namespace Sys2Proof.Machine

/-! ## Register fields -/

theorem fldKey_page (f : Fld) (i k : Nat) : fldKey f i k / 134217728 = f.page := by unfold fldKey; omega

theorem fldKey_inst (f : Fld) (i k : Nat) : fldKey f i k / 131072 % 1024 = i % 1024 := by unfold fldKey; omega

theorem fldKey_off (f : Fld) (i k : Nat) : fldKey f i k / 32 % 4096 = (f.off + f.stride * (k % f.cnt)) % 4096 := by unfold fldKey; omega

theorem fldKey_lo (f : Fld) (i k : Nat) : fldKey f i k % 32 = f.lo % 32 := by unfold fldKey; omega

/-- A field reads as it was written, cut to its width. -/
theorem getFk_setFk_self (f : Fld) (i k v : Nat) (s : State) (hw : f.w ≤ 32) :
    getFk (setFk f i k v s) f i k = v % 2 ^ f.w := by
  unfold getFk setFk
  simp only [Store.get_put_self, BitVec.toNat_ofNat]
  exact Nat.mod_eq_of_lt (Nat.lt_of_lt_of_le (Nat.mod_lt _ (Nat.two_pow_pos _)) (Nat.pow_le_pow_right (by decide) hw))

/-- A write to one cell leaves every other cell alone. -/
theorem getFk_setFk_ne (f g : Fld) (i j k l v : Nat) (s : State) (h : fldKey f i k ≠ fldKey g j l) :
    getFk (setFk f i k v s) g j l = getFk s g j l := by
  unfold getFk setFk
  simp only [Store.get_put_ne h]

/-- Fields of different page types are different cells. -/
theorem getFk_setFk_page (f g : Fld) (i j k l v : Nat) (s : State) (h : f.page ≠ g.page) :
    getFk (setFk f i k v s) g j l = getFk s g j l :=
  getFk_setFk_ne _ _ _ _ _ _ _ _ fun e => h (by rw [← fldKey_page f i k, e, fldKey_page])

/-- The same field on another instance is another cell. -/
theorem getFk_setFk_inst (f g : Fld) (i j k l v : Nat) (s : State) (h : i % 1024 ≠ j % 1024) :
    getFk (setFk f i k v s) g j l = getFk s g j l :=
  getFk_setFk_ne _ _ _ _ _ _ _ _ fun e => h (by rw [← fldKey_inst f i k, e, fldKey_inst])

/-- A field at another offset is another cell. -/
theorem getFk_setFk_off (f g : Fld) (i j k l v : Nat) (s : State)
    (h : (f.off + f.stride * (k % f.cnt)) % 4096 ≠ (g.off + g.stride * (l % g.cnt)) % 4096) :
    getFk (setFk f i k v s) g j l = getFk s g j l :=
  getFk_setFk_ne _ _ _ _ _ _ _ _ fun e => h (by rw [← fldKey_off f i k, e, fldKey_off])

/-- A field that begins at another bit is another cell. -/
theorem getFk_setFk_lo (f g : Fld) (i j k l v : Nat) (s : State) (h : f.lo % 32 ≠ g.lo % 32) :
    getFk (setFk f i k v s) g j l = getFk s g j l :=
  getFk_setFk_ne _ _ _ _ _ _ _ _ fun e => h (by rw [← fldKey_lo f i k, e, fldKey_lo])

theorem getF_setF_self (f : Fld) (i v : Nat) (s : State) (hw : f.w ≤ 32) : getF (setF f i v s) f i = v % 2 ^ f.w :=
  getFk_setFk_self f i 0 v s hw

theorem getF_setF_ne (f g : Fld) (i j v : Nat) (s : State) (h : fldKey f i 0 ≠ fldKey g j 0) :
    getF (setF f i v s) g j = getF s g j := getFk_setFk_ne f g i j 0 0 v s h

/-- A counter counts; it wraps at 2^32. -/
theorem getF_incr_self (f : Fld) (i : Nat) (s : State) (hw : f.w = 32) : getF (incr f i s) f i = (getF s f i + 1) % 2 ^ 32 := by
  show getFk (setFk f i 0 _ s) f i 0 = _
  rw [getFk_setFk_self _ _ _ _ _ (by omega), hw]
  exact Nat.mod_mod _ _

theorem getF_incr_ne (f g : Fld) (i j : Nat) (s : State) (h : fldKey f i 0 ≠ fldKey g j 0) :
    getF (incr f i s) g j = getF s g j := getFk_setFk_ne f g i j 0 0 _ s h

/-- The first elements of two fields are different cells whatever the instances: they differ in the page type, the word or
the first bit. -/
def apart (f g : Fld) : Bool := f.page != g.page || f.off % 4096 != g.off % 4096 || f.lo % 32 != g.lo % 32

theorem fldKey_ne_of_apart {f g : Fld} (h : apart f g = true) (i j : Nat) : fldKey f i 0 ≠ fldKey g j 0 := fun e => by
  have h1 : f.page = g.page := by rw [← fldKey_page f i 0, e, fldKey_page]
  have h2 : f.off % 4096 = g.off % 4096 := by simpa [e, fldKey_off] using (fldKey_off f i 0).symm
  have h3 : f.lo % 32 = g.lo % 32 := by rw [← fldKey_lo f i 0, e, fldKey_lo]
  simp [apart, h1, h2, h3] at h

theorem getF_setF_apart {f g : Fld} (h : apart f g = true) (i j v : Nat) (s : State) : getF (setF f i v s) g j = getF s g j :=
  getF_setF_ne _ _ _ _ _ _ (fldKey_ne_of_apart h i j)

theorem getF_incr_apart {f g : Fld} (h : apart f g = true) (i j : Nat) (s : State) : getF (incr f i s) g j = getF s g j :=
  getF_incr_ne _ _ _ _ _ (fldKey_ne_of_apart h i j)

theorem getF_addF_apart {f g : Fld} (h : apart f g = true) (i j n : Nat) (s : State) : getF (addF f i n s) g j = getF s g j :=
  getFk_setFk_ne f g i j 0 0 _ s (fldKey_ne_of_apart h i j)

/-- The same field on another instance is left alone. -/
theorem getF_setF_inst {i j : Nat} (h : i % 1024 ≠ j % 1024) (f g : Fld) (v : Nat) (s : State) :
    getF (setF f i v s) g j = getF s g j := getFk_setFk_inst _ _ _ _ _ _ _ _ h

theorem getF_ite_eq {c : Prop} [Decidable c] {a b : State} {g : Fld} {j v : Nat} (ha : getF a g j = v) (hb : getF b g j = v) :
    getF (if c then a else b) g j = v := by split <;> assumption

theorem getFk_ite_eq {c : Prop} [Decidable c] {a b : State} {g : Fld} {j k v : Nat} (ha : getFk a g j k = v)
    (hb : getFk b g j k = v) : getFk (if c then a else b) g j k = v := by split <;> assumption

/-! ## Events -/

@[simp] theorem getFk_signalPage (t i : Nat) (s : State) (g : Fld) (j l : Nat) : getFk (signalPage t i s) g j l = getFk s g j l := by
  unfold signalPage; split <;> (try split) <;> rfl

@[simp] theorem getF_signalPage (t i : Nat) (s : State) (g : Fld) (j : Nat) : getF (signalPage t i s) g j = getF s g j :=
  getFk_signalPage t i s g j 0

/-- Setting bits of EVT_PEND writes that register and no other. -/
theorem getFk_pend_ne (t i m : Nat) (s : State) (g : Fld) (j l : Nat) (h : fldKey (pendFld t) i 0 ≠ fldKey g j l) :
    getFk (pend t i m s) g j l = getFk s g j l := by
  have e : ∀ v, getFk (setF (pendFld t) i v s) g j l = getFk s g j l := fun v => getFk_setFk_ne _ _ _ _ _ _ _ _ h
  unfold pend
  dsimp only
  split <;> simp [e]

/-- After an event, EVT_PEND holds the bits that are defined on the page. -/
theorem getF_pend_self (t i m : Nat) (s : State) :
    getF (pend t i m s) (pendFld t) i = (getF s (pendFld t) i ||| (m &&& evtMask t)) % 2 ^ 32 := by
  have e := getF_setF_self (pendFld t) i (getF s (pendFld t) i ||| (m &&& evtMask t)) s (Nat.le_refl 32)
  unfold pend
  dsimp only
  split
  · rw [getF_signalPage]; exact e
  · exact e

theorem getF_setEvt_ne (e : Evt) (i : Nat) (s : State) (g : Fld) (j : Nat) (h : fldKey (pendFld e.page) i 0 ≠ fldKey g j 0) :
    getF (setEvt e i s) g j = getF s g j := getFk_pend_ne _ _ _ _ _ _ _ h

theorem getFk_setEvt_ne (e : Evt) (i : Nat) (s : State) (g : Fld) (j l : Nat) (h : fldKey (pendFld e.page) i 0 ≠ fldKey g j l) :
    getFk (setEvt e i s) g j l = getFk s g j l := getFk_pend_ne _ _ _ _ _ _ _ h

theorem getF_setEvt_apart {e : Evt} {g : Fld} (h : apart (pendFld e.page) g = true) (i j : Nat) (s : State) :
    getF (setEvt e i s) g j = getF s g j := getF_setEvt_ne _ _ _ _ _ (fldKey_ne_of_apart h i j)

theorem getF_pend_apart {t : Nat} {g : Fld} (h : apart (pendFld t) g = true) (i j m : Nat) (s : State) :
    getF (pend t i m s) g j = getF s g j := getFk_pend_ne _ _ _ _ _ _ _ (fldKey_ne_of_apart h i j)

/-- After an event it is pending. -/
theorem evtSet_setEvt {e : Evt} (h : (decide (e.bit < 32) && (evtMask e.page).testBit e.bit) = true) (i : Nat) (s : State) :
    evtSet (setEvt e i s) e i = true := by
  rw [Bool.and_eq_true, decide_eq_true_eq] at h
  show (getF (pend e.page i (2 ^ e.bit) s) (pendFld e.page) i).testBit e.bit = true
  rw [getF_pend_self, Nat.testBit_mod_two_pow, Nat.testBit_or, Nat.testBit_and, Nat.testBit_two_pow_self, h.2]
  simp [h.1]

/-- An event that is pending stays pending when another is set. -/
theorem evtSet_setEvt_of {e d : Evt} {i j : Nat} {s : State} (h : evtSet s e i = true) (hb : e.bit < 32) :
    evtSet (setEvt d j s) e i = true := by
  by_cases k : fldKey (pendFld d.page) j 0 = fldKey (pendFld e.page) i 0
  · have hp : (pendFld d.page).page = (pendFld e.page).page := by rw [← fldKey_page (pendFld d.page) j 0, k, fldKey_page]
    have hi : j % 1024 = i % 1024 := by rw [← fldKey_inst (pendFld d.page) j 0, k, fldKey_inst]
    have e1 : ∀ t, getF t (pendFld e.page) i = getF t (pendFld d.page) j := fun t => by
      unfold getF getFk; rw [k]; rfl
    unfold evtSet at h ⊢
    rw [e1] at h ⊢
    show (getF (pend d.page j (2 ^ d.bit) s) (pendFld d.page) j).testBit e.bit = true
    rw [getF_pend_self, Nat.testBit_mod_two_pow, Nat.testBit_or, h]
    simp [hb]
  · unfold evtSet
    rw [getF_setEvt_ne _ _ _ _ _ k]
    exact h

/-- Writing another register leaves an event as it is. -/
theorem evtSet_setF {f : Fld} {e : Evt} (h : apart f (pendFld e.page) = true) (i j v : Nat) (s : State) :
    evtSet (setF f i v s) e j = evtSet s e j := by unfold evtSet; rw [getF_setF_apart h]

theorem evtSet_incr {f : Fld} {e : Evt} (h : apart f (pendFld e.page) = true) (i j : Nat) (s : State) :
    evtSet (incr f i s) e j = evtSet s e j := by unfold evtSet; rw [getF_incr_apart h]

/-- After an event its bit of EVT_PEND is set. -/
theorem testBit_setEvt (e : Evt) (i : Nat) (s : State) (hb : e.bit < 32) (hm : (evtMask e.page).testBit e.bit = true) :
    (getF (setEvt e i s) (pendFld e.page) i).testBit e.bit = true := by
  show (getF (pend e.page i (2 ^ e.bit) s) (pendFld e.page) i).testBit e.bit = true
  rw [getF_pend_self, Nat.testBit_mod_two_pow, Nat.testBit_or, Nat.testBit_and, Nat.testBit_two_pow_self, hm]
  simp [hb]

/-! ## Guards -/

theorem running_eq {s : State} (t : State) (h : stopped s = false) : running s t = t := by simp [running, h]
theorem running_stopped {s : State} (t : State) (h : stopped s = true) : running s t = s := by simp [running, h]
theorem awake_eq {s : State} (t : State) (h : isAwake s = true) : awake s t = t := by simp [awake, h]
theorem awake_stopped {s : State} (t : State) (h : stopped s = true) : awake s t = s := by simp [awake, isAwake, h]
theorem runningIn_eq {s : State} (n : Nat) (t : State) (h : stopped s = false) (hd : domOn s n = true) : runningIn n s t = t := by
  simp [runningIn, h, hd]
theorem runningIn_stopped {s : State} (n : Nat) (t : State) (h : stopped s = true) : runningIn n s t = s := by simp [runningIn, h]
theorem outOfReset_eq {s : State} (t : State) (h : s.inReset = none) : outOfReset s t = t := by simp [outOfReset, h]

theorem stopped_of_isAwake {s : State} (h : isAwake s = true) : stopped s = false := by
  unfold isAwake at h; simp at h; exact h.1

/-! ## Commands of the host -/

/-- A command that stands ready is taken up: its entry is given to the row. -/
theorem runCmd_ready {s : State} {h op : Nat} (hr : cmdReady s h op = true) (f : List Byte → State → State) :
    runCmd h op f s = f (entryOf s h) (modSlot (hCtx h) (hSlot h) (fun x => { x with running := true }) s) := by
  unfold runCmd
  exact if_pos hr

/-- A handle that names no ready command of the opcode changes nothing. -/
theorem runCmd_not_ready {s : State} {h op : Nat} (hr : cmdReady s h op = false) (f : List Byte → State → State) :
    runCmd h op f s = s := by
  unfold runCmd
  exact if_neg (by simpa [cmdReady] using hr)

/-! ## Memories -/

/-- Cluster SRAM reads back what was written. -/
theorem sramRead_sramWrite (cl a : Nat) (bs : List Byte) (s : State) : sramRead (sramWrite cl a bs s) cl a bs.length = bs :=
  Store.getAll_putAll_self ..

/-- A write of module memory changes no byte outside those that the map and the redirects give for its addresses. -/
theorem get_memPuts (d : Nat) (k : Nat) : ∀ (bs : List Byte) (a : Nat) (s : State),
    (∀ j < bs.length, ∀ chan page off, lookup s d (a + j) = .hit chan page off → redirect s chan page off ≠ some k) →
    Store.get (0 : Byte) (memPuts d a bs s).mem k = Store.get (0 : Byte) s.mem k
  | [], _, _, _ => rfl
  | b :: bs, a, s, h => by
    have hl : ∀ x, lookup (memPut d a b s) d x = lookup s d x := fun x => by
      unfold memPut; split <;> (try split) <;> rfl
    have hr : ∀ c p o, redirect (memPut d a b s) c p o = redirect s c p o := fun c p o => by
      unfold memPut; split <;> (try split) <;> rfl
    rw [memPuts, get_memPuts d k bs (a + 1)]
    · unfold memPut
      split
      · next chan page off e =>
        split
        · next q eq =>
          exact Store.get_put_ne (fun x => h 0 (by simp) chan page off (by simpa using e) (by rw [eq, x])) ..
        · rfl
      · rfl
    · intro j hj chan page off e
      rw [hl] at e
      rw [hr]
      exact h (j + 1) (by simpa using hj) chan page off (by rw [← e]; congr 1; omega)

/-- A memory write changes no byte outside those that its addresses lead to; a write that misses the map changes none. -/
theorem get_memWrite (d a : Nat) (bs : List Byte) (s : State) (k : Nat)
    (h : ∀ j < bs.length, ∀ chan page off, lookup s d (a + j) = .hit chan page off → redirect s chan page off ≠ some k) :
    Store.get (0 : Byte) (memWrite d a bs s).2.mem k = Store.get (0 : Byte) s.mem k := by
  have hu : ∀ n (u : State), (unpoison d (( a + 63) / 64 * 64) n u).mem = u.mem := fun n => by
    induction n with
    | zero => exact fun _ => rfl
    | succ n ih =>
      intro u
      unfold unpoison
      dsimp only
      split
      · split
        · exact ih u
        · exact ih u
      · exact ih u
  unfold memWrite
  split
  · next l _ =>
    show Store.get 0 (noteMiss l s).mem k = _
    cases l <;> simp [noteMiss, addrFault]
  · dsimp only
    rw [hu, get_memPuts d k bs a s h]

end Sys2Proof.Machine
end

