-- ==== Sys2Proof/Laws/Regs.lean ====
section
/-! SUPPORT. The field tables: the fields of a word begin at different bits, so a word's fields are cells of their own. -/

namespace Sys2Proof.Machine

/-- The element of a field that stands at offset `o`. -/
def wordElem (f : Fld) (o : Nat) : Option Nat :=
  if f.off ≤ o then
    if f.cnt = 1 then (if f.off = o then some 0 else none)
    else if f.stride ≠ 0 ∧ (o - f.off) % f.stride = 0 ∧ (o - f.off) / f.stride < f.cnt then some ((o - f.off) / f.stride)
    else none
  else none

/-- Two fields have an element in one word. -/
def meets (f g : Fld) : Bool := (List.range f.cnt).any fun k => (wordElem g (f.off + f.stride * k)).isSome

/-- What the tables hold of every field: its place, and no other field that begins at its bit in one of its words. -/
def fldOk (t : Nat) (l : List Fld) (f : Fld) : Bool :=
  decide (f.page = t) && decide (f.lo + f.w ≤ 32) && decide (0 < f.w) && decide (f.off + f.stride * (f.cnt - 1) < 4096) &&
    (l.filter fun g => f.lo == g.lo && meets f g).length == 1

theorem regsOf_ok0 : ∀ t < 5, (regsOf t).all (fldOk t (regsOf t)) = true := by decide +kernel
theorem regsOf_ok1 : ∀ t < 10, 5 ≤ t → (regsOf t).all (fldOk t (regsOf t)) = true := by decide +kernel
theorem regsOf_ok2 : ∀ t < 20, 10 ≤ t → (regsOf t).all (fldOk t (regsOf t)) = true := by decide +kernel

theorem regsOf_ok (t : Nat) : (regsOf t).all (fldOk t (regsOf t)) = true := by
  by_cases h : t < 20
  · by_cases h5 : t < 5
    · exact regsOf_ok0 t h5
    · by_cases h10 : t < 10
      · exact regsOf_ok1 t h10 (by omega)
      · exact regsOf_ok2 t h (by omega)
  · unfold regsOf; rw [if_neg h]; rfl

theorem mem_regsOf {t : Nat} {f : Fld} (h : f ∈ fldsOf t) : f ∈ regsOf t := by
  have ht : t < 20 := Nat.lt_of_not_le fun hge => by
    have : fldsOf t = [] := by unfold fldsOf; split <;> first | omega | rfl
    rw [this] at h; cases h
  unfold regsOf
  rw [if_pos ht]
  exact List.mem_append_left _ h

theorem fldsAt_eq (t o : Nat) : fldsAt t o = (fldsOf t).filterMap fun f => (wordElem f o).map fun k => (f, k) := by
  unfold fldsAt wordElem
  congr 1
  funext f
  split
  · split
    · split <;> rfl
    · split <;> rfl
  · rfl

theorem wordElem_off {f : Fld} {o k : Nat} (h : wordElem f o = some k) : o = f.off + f.stride * k ∧ (k < f.cnt ∨ f.cnt = 0) := by
  unfold wordElem at h
  split at h
  · split at h
    · split at h
      · cases h; omega
      · cases h
    · split at h
      · next hc =>
        cases h
        have := Nat.div_add_mod (o - f.off) f.stride
        omega
      · cases h
  · cases h

/-- A field of a word stands on the page and at the offset. -/
theorem fldsAt_place {t o : Nat} {e : Fld × Nat} (h : e ∈ fldsAt t o) :
    e.1.page = t ∧ e.1.off + e.1.stride * e.2 = o ∧ e.1.lo + e.1.w ≤ 32 ∧ e.1 ∈ fldsOf t ∧ wordElem e.1 o = some e.2 := by
  rw [fldsAt_eq, List.mem_filterMap] at h
  obtain ⟨f, hf, h⟩ := h
  cases hk : wordElem f o with
  | none => rw [hk] at h; cases h
  | some k =>
    rw [hk] at h
    cases h
    have := List.all_eq_true.1 (regsOf_ok t) f (mem_regsOf hf)
    simp only [fldOk, Bool.and_eq_true, decide_eq_true_eq] at this
    exact ⟨this.1.1.1.1, (wordElem_off hk).1.symm, this.1.1.1.2, hf, hk⟩

/-- The registers that stand in a word begin at different bits. -/
theorem regs_lo {t o k l : Nat} {f g : Fld} (mf : f ∈ regsOf t) (mg : g ∈ regsOf t) (wf : wordElem f o = some k)
    (wg : wordElem g o = some l) (h : f.lo = g.lo) : f = g ∧ k = l := by
  have hok := List.all_eq_true.1 (regsOf_ok t) f mf
  simp only [fldOk, Bool.and_eq_true, decide_eq_true_eq, beq_iff_eq] at hok
  have oe := (wordElem_off wf).1
  have meet : ∀ (x : Fld) (n : Nat), wordElem x o = some n → meets f x = true := fun x n hx => by
    rw [meets, List.any_eq_true]
    rcases (wordElem_off wf).2 with hk | hk
    · exact ⟨k, List.mem_range.2 hk, by rw [← oe, hx]; rfl⟩
    · exfalso
      unfold wordElem at wf
      simp [hk] at wf
  have m1 : f ∈ (regsOf t).filter fun x => f.lo == x.lo && meets f x := List.mem_filter.2 ⟨mf, by simp [meet f k wf]⟩
  have m2 : g ∈ (regsOf t).filter fun x => f.lo == x.lo && meets f x := List.mem_filter.2 ⟨mg, by simp [h, meet g l wg]⟩
  obtain ⟨x, hx⟩ := List.length_eq_one_iff.1 hok.2
  rw [hx, List.mem_singleton] at m1 m2
  have e1 : f = g := m1.trans m2.symm
  subst e1
  rw [wg] at wf
  exact ⟨rfl, (Option.some.inj wf).symm⟩

/-- The fields of a word begin at different bits. -/
theorem fldsAt_lo {t o : Nat} {e g : Fld × Nat} (he : e ∈ fldsAt t o) (hg : g ∈ fldsAt t o) (h : e.1.lo = g.1.lo) : e = g := by
  obtain ⟨-, -, -, me, we⟩ := fldsAt_place he
  obtain ⟨-, -, -, mg, wg⟩ := fldsAt_place hg
  obtain ⟨a, b⟩ := regs_lo (mem_regsOf me) (mem_regsOf mg) we wg h
  exact Prod.ext a b

/-- Two fields of a word are different cells. -/
theorem fldsAt_key {t o i : Nat} {e g : Fld × Nat} (he : e ∈ fldsAt t o) (hg : g ∈ fldsAt t o) (h : e ≠ g) :
    fldKey e.1 i e.2 ≠ fldKey g.1 i g.2 := fun eq => by
  have h1 := fldKey_lo e.1 i e.2
  have h2 := fldKey_lo g.1 i g.2
  have w1 := (fldsAt_place he).2.2.1
  have w2 := (fldsAt_place hg).2.2.1
  have p1 := List.all_eq_true.1 (regsOf_ok t) e.1 (mem_regsOf (fldsAt_place he).2.2.2.1)
  have p2 := List.all_eq_true.1 (regsOf_ok t) g.1 (mem_regsOf (fldsAt_place hg).2.2.2.1)
  simp only [fldOk, Bool.and_eq_true, decide_eq_true_eq] at p1 p2
  exact h (fldsAt_lo he hg (by rw [eq] at h1; omega))

/-- An element of a register stands in its word. -/
theorem wordElem_self {f : Fld} {k : Nat} (hk : k < f.cnt) (hs : f.cnt = 1 ∨ f.stride ≠ 0) :
    wordElem f (f.off + f.stride * k) = some k := by
  unfold wordElem
  rw [if_pos (by omega)]
  split
  · next h => have : k = 0 := by omega
              subst this; simp
  · next h =>
    have h0 : f.stride ≠ 0 := hs.resolve_left h
    rw [Nat.add_sub_cancel_left]
    simp [h0, hk, Nat.mul_div_cancel_left _ (Nat.pos_of_ne_zero h0)]

/-- Every register has elements that differ in place. -/
theorem regsOf_stride : ∀ t < 20, (regsOf t).all (fun f => (f.cnt == 1 || f.stride != 0) && decide (0 < f.cnt)) = true := by decide +kernel

theorem regsOf_page : ∀ t < 20, ∀ f ∈ regsOf t, f.page = t := by decide +kernel

theorem mem_allRegs {f : Fld} : f ∈ allRegs ↔ f ∈ regsOf f.page := by
  constructor
  · intro h
    obtain ⟨t, ht, h⟩ := List.mem_flatMap.1 h
    rw [regsOf_page t (List.mem_range.1 ht) f h]; exact h
  · intro h
    refine List.mem_flatMap.2 ⟨f.page, List.mem_range.2 (Nat.lt_of_not_le fun hg => ?_), h⟩
    rw [regsOf, if_neg (by omega)] at h
    cases h

/-- The field is a register. -/
def fldIn (f : Fld) : Bool := (regsOf f.page).contains f

theorem fldIn_iff {f : Fld} : fldIn f = true ↔ f ∈ allRegs := by rw [mem_allRegs, fldIn, List.contains_iff_mem]

/-- Elements of two registers are different cells. -/
theorem fldKey_ne_of_ne {f g : Fld} (hf : fldIn f = true) (hg : fldIn g = true) (h : f ≠ g) (i j k l : Nat) :
    fldKey f i k ≠ fldKey g j l := fun eq => by
  have mf := mem_allRegs.1 (fldIn_iff.1 hf)
  have mg := mem_allRegs.1 (fldIn_iff.1 hg)
  have pf := List.all_eq_true.1 (regsOf_ok f.page) f mf
  have pg := List.all_eq_true.1 (regsOf_ok g.page) g mg
  simp only [fldOk, Bool.and_eq_true, decide_eq_true_eq] at pf pg
  have lt : ∀ x ∈ allRegs, x.page < 20 := fun x hx => Nat.lt_of_not_le fun hge => by
    have m := mem_allRegs.1 hx
    rw [regsOf, if_neg (by omega)] at m
    cases m
  have sf := List.all_eq_true.1 (regsOf_stride _ (lt f (fldIn_iff.1 hf))) f mf
  have sg := List.all_eq_true.1 (regsOf_stride _ (lt g (fldIn_iff.1 hg))) g mg
  simp only [Bool.and_eq_true, Bool.or_eq_true, beq_iff_eq, bne_iff_ne, decide_eq_true_eq] at sf sg
  have hk := Nat.mod_lt k sf.2
  have hl := Nat.mod_lt l sg.2
  have a := fldKey_off f i k
  have b := fldKey_off g j l
  have c := fldKey_lo f i k
  have d := fldKey_lo g j l
  have e1 : f.page = g.page := by rw [← fldKey_page f i k, eq, fldKey_page]
  rw [eq] at a c
  generalize k % f.cnt = k at *
  generalize l % g.cnt = l at *
  have bf : f.stride * k ≤ f.stride * (f.cnt - 1) := Nat.mul_le_mul_left _ (by omega)
  have bg : g.stride * l ≤ g.stride * (g.cnt - 1) := Nat.mul_le_mul_left _ (by omega)
  have e2 : f.off + f.stride * k = g.off + g.stride * l := by omega
  have e3 : f.lo = g.lo := by omega
  have wf := wordElem_self hk sf.1
  have wg := wordElem_self hl sg.1
  rw [e2] at wf
  rw [e1] at mf
  exact h (regs_lo mf mg wf wg e3).1

/-- A write to one register leaves every other register alone. -/
theorem getFk_setFk_fld {f g : Fld} (hf : fldIn f = true) (hg : fldIn g = true) (h : f ≠ g) {i j k l : Nat} (v : Nat) (s : State) :
    getFk (setFk f i k v s) g j l = getFk s g j l :=
  getFk_setFk_ne _ _ _ _ _ _ _ _ (fldKey_ne_of_ne hf hg h _ _ _ _)

/-- A write that passes the gate is given to its row. -/
theorem guarded_pass {s : State} {r : Requester} {a t i o : Nat} (h1 : target s r a = some (t, i, o)) (h2 : gate s r t i o = .pass)
    (f : Nat → Nat → Nat → State → State) : guarded r a f s = f t i o s := by
  unfold guarded
  rw [h1]
  dsimp only
  rw [h2]

/-- An event leaves every register but EVT_PEND of its page alone. -/
theorem getFk_setEvt_fld {e : Evt} {g : Fld} (he : fldIn (pendFld e.page) = true) (hg : fldIn g = true) (h : pendFld e.page ≠ g)
    (i j k : Nat) (s : State) : getFk (setEvt e i s) g j k = getFk s g j k :=
  getFk_setEvt_ne _ _ _ _ _ _ (fldKey_ne_of_ne he hg h _ _ _ _)

theorem fldsAt_in {t o : Nat} {e : Fld × Nat} (h : e ∈ fldsAt t o) : fldIn e.1 = true ∧ e.2 < e.1.cnt := by
  obtain ⟨pg, -, -, m, w⟩ := fldsAt_place h
  have m2 := mem_regsOf m
  have ht : t < 20 := Nat.lt_of_not_le fun hge => by rw [regsOf, if_neg (by omega)] at m2; cases m2
  have := List.all_eq_true.1 (regsOf_stride t ht) e.1 m2
  simp only [Bool.and_eq_true, decide_eq_true_eq] at this
  refine ⟨fldIn_iff.2 (mem_allRegs.2 (pg ▸ m2)), (wordElem_off w).2.resolve_right (by omega)⟩

/-- Writing the fields of a part of a word leaves every other cell alone. -/
theorem getFk_clearFlds_ne (i : Nat) (g : Fld) (j l : Nat) : ∀ (r : List (Fld × Nat)) (s : State),
    (∀ e ∈ r, fldKey e.1 i e.2 ≠ fldKey g j l) → getFk (clearFlds i r s) g j l = getFk s g j l
  | [], _, _ => rfl
  | (f, k) :: r, s, h => by
    rw [clearFlds, getFk_clearFlds_ne i g j l r _ fun e he => h e (List.mem_cons_of_mem _ he)]
    exact getFk_setFk_ne _ _ _ _ _ _ _ _ (h (f, k) List.mem_cons_self)

theorem getFk_writeFlds_ne (i v : Nat) (g : Fld) (j l : Nat) : ∀ (r : List (Fld × Nat)) (s : State),
    (∀ e ∈ r, fldKey e.1 i e.2 ≠ fldKey g j l) → getFk (writeFlds i v r s) g j l = getFk s g j l
  | [], _, _ => rfl
  | (f, k) :: r, s, h => by
    rw [writeFlds, getFk_writeFlds_ne i v g j l r _ fun e he => h e (List.mem_cons_of_mem _ he)]
    split
    · exact getFk_setFk_ne _ _ _ _ _ _ _ _ (h (f, k) List.mem_cons_self)
    · rfl

theorem getFk_rcClear_ne (i inc : Nat) (g : Fld) (j l : Nat) : ∀ (r : List (Fld × Nat)) (s : State),
    (∀ e ∈ r, fldKey e.1 i e.2 ≠ fldKey g j l) → getFk (rcClear i inc r s) g j l = getFk s g j l
  | [], _, _ => rfl
  | (f, k) :: r, s, h => by
    rw [rcClear, getFk_rcClear_ne i inc g j l r _ fun e he => h e (List.mem_cons_of_mem _ he)]
    split
    · exact getFk_setFk_ne _ _ _ _ _ _ _ _ (h (f, k) List.mem_cons_self)
    · rfl

/-- A pass over the fields of a word that gives each of them a value leaves each with its value: the word's other fields are
other cells. -/
theorem pass_sets {t o i : Nat} (W : List (Fld × Nat) → State → State) (val : Fld × Nat → Nat) (on : Fld × Nat → Prop)
    (cons : ∀ e r s, ∃ u, W (e :: r) s = W r u ∧ (on e → getFk u e.1 i e.2 = val e))
    (ne : ∀ g j l r s, (∀ e ∈ r, fldKey e.1 i e.2 ≠ fldKey g j l) → getFk (W r s) g j l = getFk s g j l)
    {e : Fld × Nat} (he : on e) : ∀ (r : List (Fld × Nat)) (s : State), (∀ x ∈ r, x ∈ fldsAt t o) → e ∈ r →
      getFk (W r s) e.1 i e.2 = val e
  | [], _, _, h => by simp at h
  | x :: r, s, hs, h => by
    obtain ⟨u, e1, e2⟩ := cons x r s
    rw [e1]
    by_cases hr : e ∈ r
    · exact pass_sets W val on cons ne he r u (fun y hy => hs y (List.mem_cons_of_mem _ hy)) hr
    · have hx : e = x := (List.mem_cons.1 h).resolve_right hr
      subst hx
      rw [ne _ _ _ r u fun y hy => fldsAt_key (hs y (List.mem_cons_of_mem _ hy)) (hs e List.mem_cons_self) fun eq => hr (eq ▸ hy)]
      exact e2 he

/-- Clearing a word returns each of its fields to its reset value. -/
theorem getFk_clearFlds {t o i : Nat} {e : Fld × Nat} (h : e ∈ fldsAt t o) (s : State) :
    getFk (clearFlds i (fldsAt t o) s) e.1 i e.2 = fldReset e.1 i % 2 ^ e.1.w := by
  refine pass_sets (t := t) (o := o) (clearFlds i) (fun e => fldReset e.1 i % 2 ^ e.1.w) (fun e => e.1.w ≤ 32)
    (fun e r s => ⟨_, rfl, fun hw => getFk_setFk_self _ _ _ _ _ hw⟩) (getFk_clearFlds_ne i) ?_ _ s (fun _ hx => hx) h
  have := (fldsAt_place h).2.2.1
  omega

/-- A write gives each read-write field of the word its part of the value. -/
theorem getFk_writeFlds {t o i v : Nat} {e : Fld × Nat} (h : e ∈ fldsAt t o) (ha : e.1.acc = .rw) (ho : e.1.own = false)
    (s : State) : getFk (writeFlds i v (fldsAt t o) s) e.1 i e.2 = bits v e.1.lo e.1.w := by
  refine pass_sets (t := t) (o := o) (writeFlds i v) (fun e => bits v e.1.lo e.1.w)
    (fun e => e.1.w ≤ 32 ∧ e.1.acc = .rw ∧ e.1.own = false)
    (fun e r s => ⟨_, rfl, fun hw => ?_⟩) (getFk_writeFlds_ne i v) ?_ _ s (fun _ hx => hx) h
  · rw [if_pos hw.2, getFk_setFk_self _ _ _ _ _ hw.1]
    exact Nat.mod_mod _ _
  · have := (fldsAt_place h).2.2.1
    exact ⟨by omega, ha, ho⟩

/-- A read clears each RC field of the word, or leaves it at 1 where the count rises in the same hclk. -/
theorem getFk_rcClear {t o i inc : Nat} {e : Fld × Nat} (h : e ∈ fldsAt t o) (ha : e.1.acc = .rc) (s : State) :
    getFk (rcClear i inc (fldsAt t o) s) e.1 i e.2 = if inc = 0 then 0 else 1 := by
  have hk := fldsAt_place h
  have hok := List.all_eq_true.1 (regsOf_ok t) e.1 (mem_regsOf hk.2.2.2.1)
  simp only [fldOk, Bool.and_eq_true, decide_eq_true_eq] at hok
  refine pass_sets (t := t) (o := o) (rcClear i inc) (fun _ => if inc = 0 then 0 else 1)
    (fun e => e.1.w ≤ 32 ∧ 0 < e.1.w ∧ e.1.acc = .rc)
    (fun e r s => ⟨_, rfl, fun hw => ?_⟩) (getFk_rcClear_ne i inc) ⟨by omega, hok.1.1.2, ha⟩ _ s (fun _ hx => hx) h
  rw [if_pos hw.2.2, getFk_setFk_self _ _ _ _ _ hw.1]
  have : 2 ≤ 2 ^ e.1.w := Nat.le_self_pow (by omega) 2
  split
  · exact Nat.zero_mod _
  · exact Nat.mod_eq_of_lt (by omega)

end Sys2Proof.Machine
end

