-- ==== Sys2Proof/Laws/Keeps.lean ====
section
/-! SUPPORT. What each function may change. `Keeps w s t` says that `t` differs from `s` only in the parts whose bits are set in
the mask `w`, that the memories keep their canonical form, and that the log of outputs only grows. Every function of the
model has one lemma `<function>_keeps` in the files Laws/Keeps*.lean: it goes on keeping whatever was kept before,
when the mask has the bits of what it may change. -/

namespace Sys2Proof.Machine

/-- The bit of the first register of a page type. -/
def regBase (t : Nat) : Nat := [48, 85, 125, 162, 202, 212, 225, 254, 309, 343, 372, 395, 430, 455, 477, 488, 509, 513, 523, 538].getD t 0

/-- The place of a register among those of its page. -/
def regPos (f : Fld) : Nat := (regsOf f.page).findIdx fun g => g.off == f.off && g.lo == f.lo

/-- The bit of a part in a mask. -/
def Part.code : Part → Nat
  | .queue => 0
  | .hiLatch => 1
  | .mem => 2
  | .poison => 3
  | .sram => 4
  | .hmem => 5
  | .otp => 6
  | .responses => 7
  | .mcs => 8
  | .window => 9
  | .sluices => 10
  | .objs => 11
  | .releases => 12
  | .crossing => 13
  | .clusters => 14
  | .units => 15
  | .seqs => 16
  | .cul => 17
  | .degSet => 18
  | .degClear => 19
  | .ctxs => 20
  | .reports => 21
  | .lastClosed => 22
  | .jwide => 23
  | .ports => 24
  | .txStreams => 25
  | .rxStreams => 26
  | .sendq => 27
  | .inbox => 28
  | .mbx => 29
  | .otpq => 30
  | .romProg => 31
  | .bootKeys => 32
  | .pow => 33
  | .brk => 34
  | .faultN => 35
  | .inReset => 36
  | .dbg => 37
  | .gauge => 38
  | .strapPos => 39
  | .strapGaddr => 40
  | .vfEnable => 41
  | .numVfs => 42
  | .out => 43
  | .freeCtr => 44
  | .reg f => if (regsOf f.page)[regPos f]? = some f then regBase f.page + regPos f else 553

/-- The part of a low bit. -/
def Part.ofCode : Nat → Option Part
  | 0 => some .queue
  | 1 => some .hiLatch
  | 2 => some .mem
  | 3 => some .poison
  | 4 => some .sram
  | 5 => some .hmem
  | 6 => some .otp
  | 7 => some .responses
  | 8 => some .mcs
  | 9 => some .window
  | 10 => some .sluices
  | 11 => some .objs
  | 12 => some .releases
  | 13 => some .crossing
  | 14 => some .clusters
  | 15 => some .units
  | 16 => some .seqs
  | 17 => some .cul
  | 18 => some .degSet
  | 19 => some .degClear
  | 20 => some .ctxs
  | 21 => some .reports
  | 22 => some .lastClosed
  | 23 => some .jwide
  | 24 => some .ports
  | 25 => some .txStreams
  | 26 => some .rxStreams
  | 27 => some .sendq
  | 28 => some .inbox
  | 29 => some .mbx
  | 30 => some .otpq
  | 31 => some .romProg
  | 32 => some .bootKeys
  | 33 => some .pow
  | 34 => some .brk
  | 35 => some .faultN
  | 36 => some .inReset
  | 37 => some .dbg
  | 38 => some .gauge
  | 39 => some .strapPos
  | 40 => some .strapGaddr
  | 41 => some .vfEnable
  | 42 => some .numVfs
  | 43 => some .out
  | 44 => some .freeCtr
  | _ => none

/-- The parts that a frame can name. -/
def Part.known : Part → Prop
  | .reg f => f ∈ allRegs
  | _ => True

theorem codes_allRegs : allRegs.map (fun f => (Part.reg f).code) = List.range' 48 505 := by decide +kernel

theorem reg_code_ne {f : Fld} (h : f ∉ allRegs) : (Part.reg f).code = 553 := by
  show (if _ then _ else _) = _
  rw [if_neg]
  rw [mem_allRegs] at h
  exact fun e => h (List.mem_of_getElem? e)

theorem code_of_reg {f : Fld} (h : f ∈ allRegs) : 48 ≤ (Part.reg f).code ∧ (Part.reg f).code < 553 := by
  have m := List.mem_map_of_mem (f := fun f => (Part.reg f).code) h
  rw [codes_allRegs, List.mem_range'_1] at m
  omega

theorem Part.code_inj {p q : Part} (hq : q.known) (h : p.code = q.code) : p = q := by
  have low : ∀ x : Part, (∃ f, x = .reg f) ∨ Part.ofCode x.code = some x := fun x => by
    cases x with
    | reg f => exact .inl ⟨f, rfl⟩
    | _ => exact .inr rfl
  have hi : ∀ f, 48 ≤ (Part.reg f).code := fun f => by
    by_cases m : f ∈ allRegs
    · exact (code_of_reg m).1
    · rw [reg_code_ne m]; decide
  have none : ∀ n, 48 ≤ n → Part.ofCode n = none := fun n hn => by
    unfold Part.ofCode; split <;> first | omega | rfl
  rcases low q with ⟨g, rfl⟩ | e
  · rcases low p with ⟨f, rfl⟩ | e'
    · have mg : g ∈ allRegs := hq
      have mf : f ∈ allRegs := Classical.byContradiction fun m => by
        rw [reg_code_ne m] at h
        have := (code_of_reg mg).2
        omega
      have at_ : ∀ x ∈ allRegs, ∃ i, allRegs[i]? = some x ∧ (Part.reg x).code = 48 + i := fun x m => by
        obtain ⟨i, lt, e⟩ := List.mem_iff_getElem.1 m
        have c := congrArg (fun l => l[i]?) codes_allRegs
        have e2 : allRegs[i]? = some x := by rw [List.getElem?_eq_getElem lt, e]
        have len : allRegs.length = 505 := by simpa using congrArg List.length codes_allRegs
        simp only [List.getElem?_map, e2, Option.map_some] at c
        rw [List.getElem?_range' (by omega)] at c
        exact ⟨i, e2, by have := Option.some.inj c; omega⟩
      obtain ⟨i, ei, ci⟩ := at_ f mf
      obtain ⟨j, ej, cj⟩ := at_ g mg
      have : i = j := by omega
      subst this
      rw [ei] at ej
      exact congrArg Part.reg (Option.some.inj ej)
    · rw [h, none _ (hi g)] at e'; cases e'
  · rcases low p with ⟨f, rfl⟩ | e'
    · rw [← h, none _ (hi f)] at e; cases e
    · rw [h, e] at e'; exact (Option.some.inj e').symm


/-- The mask `w` has every bit of `m`. -/
def Has (m w : Nat) : Prop := m &&& w = m

theorem Has.sub {m n w : Nat} (h : Has n w) (e : m &&& n = m) : Has m w := by
  unfold Has at *
  rw [← e, Nat.and_assoc, h]

theorem Has.refl (m : Nat) : Has m m := Nat.and_self m

theorem Has.bit {n w : Nat} (h : Has (2 ^ n) w) : w.testBit n = true := by
  have := congrArg (fun x => x.testBit n) h
  simpa [Nat.testBit_and, Nat.testBit_two_pow_self] using this

/-- `t` differs from `s` only in the parts whose bits are set in `w`; the memories keep their form, the outputs grow. -/
structure Keeps (w : Nat) (s t : State) : Prop where
  wf : s.memWf → t.memWf
  outs : s.out <+: t.out
  regs : ∀ g ∈ allRegs, w.testBit (Part.reg g).code = false → ∀ i k,
    Store.find (fldKey g i k) t.regs = Store.find (fldKey g i k) s.regs
  pending : w.testBit 0 = false → t.pending = s.pending
  hiLatch : w.testBit 1 = false → t.hiLatch = s.hiLatch
  mem : w.testBit 2 = false → t.mem = s.mem
  poison : w.testBit 3 = false → t.poison = s.poison
  sram : w.testBit 4 = false → t.sram = s.sram
  hmem : w.testBit 5 = false → t.hmem = s.hmem
  otp : w.testBit 6 = false → t.otp = s.otp
  responses : w.testBit 7 = false → t.responses = s.responses
  mcs : w.testBit 8 = false → t.mcs = s.mcs
  window : w.testBit 9 = false → t.window = s.window
  sluices : w.testBit 10 = false → t.sluices = s.sluices
  objs : w.testBit 11 = false → t.objs = s.objs
  releases : w.testBit 12 = false → t.releases = s.releases
  crossing : w.testBit 13 = false → t.crossing = s.crossing
  clusters : w.testBit 14 = false → t.clusters = s.clusters
  units : w.testBit 15 = false → t.units = s.units
  seqs : w.testBit 16 = false → t.seqs = s.seqs
  cul : w.testBit 17 = false → t.cul = s.cul
  degSet : w.testBit 18 = false → t.degSet = s.degSet
  degClear : w.testBit 19 = false → t.degClear = s.degClear
  ctxs : w.testBit 20 = false → t.ctxs = s.ctxs
  reports : w.testBit 21 = false → t.reports = s.reports
  lastClosed : w.testBit 22 = false → t.lastClosed = s.lastClosed
  jwide : w.testBit 23 = false → t.jwide = s.jwide
  ports : w.testBit 24 = false → t.ports = s.ports
  txStreams : w.testBit 25 = false → t.txStreams = s.txStreams
  rxStreams : w.testBit 26 = false → t.rxStreams = s.rxStreams
  sendq : w.testBit 27 = false → t.sendq = s.sendq
  inbox : w.testBit 28 = false → t.inbox = s.inbox
  mbx : w.testBit 29 = false → t.mbx = s.mbx
  otpq : w.testBit 30 = false → t.otpq = s.otpq
  romProg : w.testBit 31 = false → t.romProg = s.romProg
  bootKeys : w.testBit 32 = false → t.bootKeys = s.bootKeys
  pow : w.testBit 33 = false → t.pow = s.pow
  brk : w.testBit 34 = false → t.brk = s.brk
  faultN : w.testBit 35 = false → t.faultN = s.faultN
  inReset : w.testBit 36 = false → t.inReset = s.inReset
  dbg : w.testBit 37 = false → t.dbg = s.dbg
  gauge : w.testBit 38 = false → t.gauge = s.gauge
  strapPos : w.testBit 39 = false → t.strapPos = s.strapPos
  strapGaddr : w.testBit 40 = false → t.strapGaddr = s.strapGaddr
  vfEnable : w.testBit 41 = false → t.vfEnable = s.vfEnable
  numVfs : w.testBit 42 = false → t.numVfs = s.numVfs
  out : w.testBit 43 = false → t.out = s.out
  freeCtr : w.testBit 44 = false → t.freeCtr = s.freeCtr

variable {w m : Nat} {s₀ s t : State}

theorem Keeps.refl (w : Nat) (s : State) : Keeps w s s where
  wf h := h
  outs := List.prefix_rfl
  regs _ _ _ _ _ := rfl
  pending _ := rfl
  hiLatch _ := rfl
  mem _ := rfl
  poison _ := rfl
  sram _ := rfl
  hmem _ := rfl
  otp _ := rfl
  responses _ := rfl
  mcs _ := rfl
  window _ := rfl
  sluices _ := rfl
  objs _ := rfl
  releases _ := rfl
  crossing _ := rfl
  clusters _ := rfl
  units _ := rfl
  seqs _ := rfl
  cul _ := rfl
  degSet _ := rfl
  degClear _ := rfl
  ctxs _ := rfl
  reports _ := rfl
  lastClosed _ := rfl
  jwide _ := rfl
  ports _ := rfl
  txStreams _ := rfl
  rxStreams _ := rfl
  sendq _ := rfl
  inbox _ := rfl
  mbx _ := rfl
  otpq _ := rfl
  romProg _ := rfl
  bootKeys _ := rfl
  pow _ := rfl
  brk _ := rfl
  faultN _ := rfl
  inReset _ := rfl
  dbg _ := rfl
  gauge _ := rfl
  strapPos _ := rfl
  strapGaddr _ := rfl
  vfEnable _ := rfl
  numVfs _ := rfl
  out _ := rfl
  freeCtr _ := rfl

theorem Keeps.trans {a b c : State} (h : Keeps w a b) (g : Keeps w b c) : Keeps w a c where
  wf x := g.wf (h.wf x)
  outs := h.outs.trans g.outs
  regs f m e i k := (g.regs f m e i k).trans (h.regs f m e i k)
  pending e := (g.pending e).trans (h.pending e)
  hiLatch e := (g.hiLatch e).trans (h.hiLatch e)
  mem e := (g.mem e).trans (h.mem e)
  poison e := (g.poison e).trans (h.poison e)
  sram e := (g.sram e).trans (h.sram e)
  hmem e := (g.hmem e).trans (h.hmem e)
  otp e := (g.otp e).trans (h.otp e)
  responses e := (g.responses e).trans (h.responses e)
  mcs e := (g.mcs e).trans (h.mcs e)
  window e := (g.window e).trans (h.window e)
  sluices e := (g.sluices e).trans (h.sluices e)
  objs e := (g.objs e).trans (h.objs e)
  releases e := (g.releases e).trans (h.releases e)
  crossing e := (g.crossing e).trans (h.crossing e)
  clusters e := (g.clusters e).trans (h.clusters e)
  units e := (g.units e).trans (h.units e)
  seqs e := (g.seqs e).trans (h.seqs e)
  cul e := (g.cul e).trans (h.cul e)
  degSet e := (g.degSet e).trans (h.degSet e)
  degClear e := (g.degClear e).trans (h.degClear e)
  ctxs e := (g.ctxs e).trans (h.ctxs e)
  reports e := (g.reports e).trans (h.reports e)
  lastClosed e := (g.lastClosed e).trans (h.lastClosed e)
  jwide e := (g.jwide e).trans (h.jwide e)
  ports e := (g.ports e).trans (h.ports e)
  txStreams e := (g.txStreams e).trans (h.txStreams e)
  rxStreams e := (g.rxStreams e).trans (h.rxStreams e)
  sendq e := (g.sendq e).trans (h.sendq e)
  inbox e := (g.inbox e).trans (h.inbox e)
  mbx e := (g.mbx e).trans (h.mbx e)
  otpq e := (g.otpq e).trans (h.otpq e)
  romProg e := (g.romProg e).trans (h.romProg e)
  bootKeys e := (g.bootKeys e).trans (h.bootKeys e)
  pow e := (g.pow e).trans (h.pow e)
  brk e := (g.brk e).trans (h.brk e)
  faultN e := (g.faultN e).trans (h.faultN e)
  inReset e := (g.inReset e).trans (h.inReset e)
  dbg e := (g.dbg e).trans (h.dbg e)
  gauge e := (g.gauge e).trans (h.gauge e)
  strapPos e := (g.strapPos e).trans (h.strapPos e)
  strapGaddr e := (g.strapGaddr e).trans (h.strapGaddr e)
  vfEnable e := (g.vfEnable e).trans (h.vfEnable e)
  numVfs e := (g.numVfs e).trans (h.numVfs e)
  out e := (g.out e).trans (h.out e)
  freeCtr e := (g.freeCtr e).trans (h.freeCtr e)

theorem Has.absurd {n w : Nat} {p : Prop} (h : Has (2 ^ n) w) (e : w.testBit n = false) : p := by
  rw [h.bit] at e; exact Bool.noConfusion e

/-! ## One field -/

theorem keeps_pending (hw : Has 0x1 w) (v) (h : Keeps w s₀ s) : Keeps w s₀ { s with pending := v } :=
  { h with pending := Has.absurd (n := 0) hw }

theorem keeps_hiLatch (hw : Has 0x2 w) (v) (h : Keeps w s₀ s) : Keeps w s₀ { s with hiLatch := v } :=
  { h with hiLatch := Has.absurd (n := 1) hw }

theorem keeps_poison (hw : Has 0x8 w) (v) (h : Keeps w s₀ s) : Keeps w s₀ { s with poison := v } :=
  { h with poison := Has.absurd (n := 3) hw }

theorem keeps_otp (hw : Has 0x40 w) (v) (h : Keeps w s₀ s) : Keeps w s₀ { s with otp := v } :=
  { h with otp := Has.absurd (n := 6) hw }

theorem keeps_responses (hw : Has 0x80 w) (v) (h : Keeps w s₀ s) : Keeps w s₀ { s with responses := v } :=
  { h with responses := Has.absurd (n := 7) hw }

theorem keeps_mcs (hw : Has 0x100 w) (v) (h : Keeps w s₀ s) : Keeps w s₀ { s with mcs := v } :=
  { h with mcs := Has.absurd (n := 8) hw }

theorem keeps_window (hw : Has 0x200 w) (v) (h : Keeps w s₀ s) : Keeps w s₀ { s with window := v } :=
  { h with window := Has.absurd (n := 9) hw }

theorem keeps_sluices (hw : Has 0x400 w) (v) (h : Keeps w s₀ s) : Keeps w s₀ { s with sluices := v } :=
  { h with sluices := Has.absurd (n := 10) hw }

theorem keeps_objs (hw : Has 0x800 w) (v) (h : Keeps w s₀ s) : Keeps w s₀ { s with objs := v } :=
  { h with objs := Has.absurd (n := 11) hw }

theorem keeps_releases (hw : Has 0x1000 w) (v) (h : Keeps w s₀ s) : Keeps w s₀ { s with releases := v } :=
  { h with releases := Has.absurd (n := 12) hw }

theorem keeps_crossing (hw : Has 0x2000 w) (v) (h : Keeps w s₀ s) : Keeps w s₀ { s with crossing := v } :=
  { h with crossing := Has.absurd (n := 13) hw }

theorem keeps_clusters (hw : Has 0x4000 w) (v) (h : Keeps w s₀ s) : Keeps w s₀ { s with clusters := v } :=
  { h with clusters := Has.absurd (n := 14) hw }

theorem keeps_units (hw : Has 0x8000 w) (v) (h : Keeps w s₀ s) : Keeps w s₀ { s with units := v } :=
  { h with units := Has.absurd (n := 15) hw }

theorem keeps_seqs (hw : Has 0x10000 w) (v) (h : Keeps w s₀ s) : Keeps w s₀ { s with seqs := v } :=
  { h with seqs := Has.absurd (n := 16) hw }

theorem keeps_cul (hw : Has 0x20000 w) (v) (h : Keeps w s₀ s) : Keeps w s₀ { s with cul := v } :=
  { h with cul := Has.absurd (n := 17) hw }

theorem keeps_degSet (hw : Has 0x40000 w) (v) (h : Keeps w s₀ s) : Keeps w s₀ { s with degSet := v } :=
  { h with degSet := Has.absurd (n := 18) hw }

theorem keeps_degClear (hw : Has 0x80000 w) (v) (h : Keeps w s₀ s) : Keeps w s₀ { s with degClear := v } :=
  { h with degClear := Has.absurd (n := 19) hw }

theorem keeps_ctxs (hw : Has 0x100000 w) (v) (h : Keeps w s₀ s) : Keeps w s₀ { s with ctxs := v } :=
  { h with ctxs := Has.absurd (n := 20) hw }

theorem keeps_reports (hw : Has 0x200000 w) (v) (h : Keeps w s₀ s) : Keeps w s₀ { s with reports := v } :=
  { h with reports := Has.absurd (n := 21) hw }

theorem keeps_lastClosed (hw : Has 0x400000 w) (v) (h : Keeps w s₀ s) : Keeps w s₀ { s with lastClosed := v } :=
  { h with lastClosed := Has.absurd (n := 22) hw }

theorem keeps_jwide (hw : Has 0x800000 w) (v) (h : Keeps w s₀ s) : Keeps w s₀ { s with jwide := v } :=
  { h with jwide := Has.absurd (n := 23) hw }

theorem keeps_ports (hw : Has 0x1000000 w) (v) (h : Keeps w s₀ s) : Keeps w s₀ { s with ports := v } :=
  { h with ports := Has.absurd (n := 24) hw }

theorem keeps_txStreams (hw : Has 0x2000000 w) (v) (h : Keeps w s₀ s) : Keeps w s₀ { s with txStreams := v } :=
  { h with txStreams := Has.absurd (n := 25) hw }

theorem keeps_rxStreams (hw : Has 0x4000000 w) (v) (h : Keeps w s₀ s) : Keeps w s₀ { s with rxStreams := v } :=
  { h with rxStreams := Has.absurd (n := 26) hw }

theorem keeps_sendq (hw : Has 0x8000000 w) (v) (h : Keeps w s₀ s) : Keeps w s₀ { s with sendq := v } :=
  { h with sendq := Has.absurd (n := 27) hw }

theorem keeps_inbox (hw : Has 0x10000000 w) (v) (h : Keeps w s₀ s) : Keeps w s₀ { s with inbox := v } :=
  { h with inbox := Has.absurd (n := 28) hw }

theorem keeps_mbx (hw : Has 0x20000000 w) (v) (h : Keeps w s₀ s) : Keeps w s₀ { s with mbx := v } :=
  { h with mbx := Has.absurd (n := 29) hw }

theorem keeps_otpq (hw : Has 0x40000000 w) (v) (h : Keeps w s₀ s) : Keeps w s₀ { s with otpq := v } :=
  { h with otpq := Has.absurd (n := 30) hw }

theorem keeps_romProg (hw : Has 0x80000000 w) (v) (h : Keeps w s₀ s) : Keeps w s₀ { s with romProg := v } :=
  { h with romProg := Has.absurd (n := 31) hw }

theorem keeps_bootKeys (hw : Has 0x100000000 w) (v) (h : Keeps w s₀ s) : Keeps w s₀ { s with bootKeys := v } :=
  { h with bootKeys := Has.absurd (n := 32) hw }

theorem keeps_pow (hw : Has 0x200000000 w) (v) (h : Keeps w s₀ s) : Keeps w s₀ { s with pow := v } :=
  { h with pow := Has.absurd (n := 33) hw }

theorem keeps_brk (hw : Has 0x400000000 w) (v) (h : Keeps w s₀ s) : Keeps w s₀ { s with brk := v } :=
  { h with brk := Has.absurd (n := 34) hw }

theorem keeps_faultN (hw : Has 0x800000000 w) (v) (h : Keeps w s₀ s) : Keeps w s₀ { s with faultN := v } :=
  { h with faultN := Has.absurd (n := 35) hw }

theorem keeps_inReset (hw : Has 0x1000000000 w) (v) (h : Keeps w s₀ s) : Keeps w s₀ { s with inReset := v } :=
  { h with inReset := Has.absurd (n := 36) hw }

theorem keeps_dbg (hw : Has 0x2000000000 w) (v) (h : Keeps w s₀ s) : Keeps w s₀ { s with dbg := v } :=
  { h with dbg := Has.absurd (n := 37) hw }

theorem keeps_gauge (hw : Has 0x4000000000 w) (v) (h : Keeps w s₀ s) : Keeps w s₀ { s with gauge := v } :=
  { h with gauge := Has.absurd (n := 38) hw }

theorem keeps_strapPos (hw : Has 0x8000000000 w) (v) (h : Keeps w s₀ s) : Keeps w s₀ { s with strapPos := v } :=
  { h with strapPos := Has.absurd (n := 39) hw }

theorem keeps_strapGaddr (hw : Has 0x10000000000 w) (v) (h : Keeps w s₀ s) : Keeps w s₀ { s with strapGaddr := v } :=
  { h with strapGaddr := Has.absurd (n := 40) hw }

theorem keeps_vfEnable (hw : Has 0x20000000000 w) (v) (h : Keeps w s₀ s) : Keeps w s₀ { s with vfEnable := v } :=
  { h with vfEnable := Has.absurd (n := 41) hw }

theorem keeps_numVfs (hw : Has 0x40000000000 w) (v) (h : Keeps w s₀ s) : Keeps w s₀ { s with numVfs := v } :=
  { h with numVfs := Has.absurd (n := 42) hw }

theorem keeps_freeCtr (hw : Has 0x100000000000 w) (v) (h : Keeps w s₀ s) : Keeps w s₀ { s with freeCtr := v } :=
  { h with freeCtr := Has.absurd (n := 44) hw }

theorem keeps_vfEnable_numVfs (hw : Has 0x60000000000 w) (v0) (v1) (h : Keeps w s₀ s) :
    Keeps w s₀ { s with vfEnable := v0, numVfs := v1 } :=
  keeps_numVfs (hw.sub rfl) v1 (keeps_vfEnable (hw.sub rfl) v0 (h))

theorem keeps_hiLatch_vfEnable_numVfs (hw : Has 0x60000000002 w) (v0) (v1) (v2) (h : Keeps w s₀ s) :
    Keeps w s₀ { s with hiLatch := v0, vfEnable := v1, numVfs := v2 } :=
  keeps_numVfs (hw.sub rfl) v2 (keeps_vfEnable (hw.sub rfl) v1 (keeps_hiLatch (hw.sub rfl) v0 (h)))

theorem keeps_txStreams_rxStreams (hw : Has 0x6000000 w) (v0) (v1) (h : Keeps w s₀ s) :
    Keeps w s₀ { s with txStreams := v0, rxStreams := v1 } :=
  keeps_rxStreams (hw.sub rfl) v1 (keeps_txStreams (hw.sub rfl) v0 (h))

theorem keeps_faultN_inReset_strapPos_strapGaddr (hw : Has 0x19800000000 w) (v0) (v1) (v2) (v3) (h : Keeps w s₀ s) :
    Keeps w s₀ { s with faultN := v0, inReset := v1, strapPos := v2, strapGaddr := v3 } :=
  keeps_strapGaddr (hw.sub rfl) v3 (keeps_strapPos (hw.sub rfl) v2 (keeps_inReset (hw.sub rfl) v1 (keeps_faultN (hw.sub rfl) v0 (h))))

theorem keeps_degClear_ctxs_reports (hw : Has 0x380000 w) (v0) (v1) (v2) (h : Keeps w s₀ s) :
    Keeps w s₀ { s with degClear := v0, ctxs := v1, reports := v2 } :=
  keeps_reports (hw.sub rfl) v2 (keeps_ctxs (hw.sub rfl) v1 (keeps_degClear (hw.sub rfl) v0 (h)))

theorem keeps_sendq_inbox (hw : Has 0x18000000 w) (v0) (v1) (h : Keeps w s₀ s) :
    Keeps w s₀ { s with sendq := v0, inbox := v1 } :=
  keeps_inbox (hw.sub rfl) v1 (keeps_sendq (hw.sub rfl) v0 (h))

theorem keeps_romProg_brk (hw : Has 0x480000000 w) (v0) (v1) (h : Keeps w s₀ s) :
    Keeps w s₀ { s with romProg := v0, brk := v1 } :=
  keeps_brk (hw.sub rfl) v1 (keeps_romProg (hw.sub rfl) v0 (h))

theorem keeps_degSet_degClear (hw : Has 0xc0000 w) (v0) (v1) (h : Keeps w s₀ s) :
    Keeps w s₀ { s with degSet := v0, degClear := v1 } :=
  keeps_degClear (hw.sub rfl) v1 (keeps_degSet (hw.sub rfl) v0 (h))

theorem keeps_faultN_inReset (hw : Has 0x1800000000 w) (v0) (v1) (h : Keeps w s₀ s) :
    Keeps w s₀ { s with faultN := v0, inReset := v1 } :=
  keeps_inReset (hw.sub rfl) v1 (keeps_faultN (hw.sub rfl) v0 (h))

theorem keeps_sluices_ports (hw : Has 0x1000400 w) (v0) (v1) (h : Keeps w s₀ s) :
    Keeps w s₀ { s with sluices := v0, ports := v1 } :=
  keeps_ports (hw.sub rfl) v1 (keeps_sluices (hw.sub rfl) v0 (h))

theorem keeps_mem (hw : Has 0x4 w) (v) (hv : Store.canon (0 : Byte) s.mem = true → Store.canon (0 : Byte) v = true) (h : Keeps w s₀ s) :
    Keeps w s₀ { s with mem := v } :=
  { h with mem := Has.absurd (n := 2) hw, wf := fun x => ⟨hv (h.wf x).1, (h.wf x).2⟩ }

theorem keeps_sram (hw : Has 0x10 w) (v) (hv : Store.canon (0 : Byte) s.sram = true → Store.canon (0 : Byte) v = true)
    (h : Keeps w s₀ s) : Keeps w s₀ { s with sram := v } :=
  { h with sram := Has.absurd (n := 4) hw, wf := fun x => ⟨(h.wf x).1, hv (h.wf x).2.1, (h.wf x).2.2⟩ }

theorem keeps_hmem (hw : Has 0x20 w) (v) (hv : Store.canon (0 : Byte) s.hmem = true → Store.canon (0 : Byte) v = true)
    (h : Keeps w s₀ s) : Keeps w s₀ { s with hmem := v } :=
  { h with hmem := Has.absurd (n := 5) hw, wf := fun x => ⟨(h.wf x).1, (h.wf x).2.1, hv (h.wf x).2.2⟩ }

theorem keeps_out (hw : Has 0x80000000000 w) (o : List Out) (h : Keeps w s₀ s) : Keeps w s₀ { s with out := s.out ++ o } :=
  { h with out := Has.absurd (n := 43) hw, outs := h.outs.trans (List.prefix_append ..) }

theorem keeps_mem_poison_mcs (hw : Has 0x10c w) (v p : _)
    (hv : Store.canon (0 : Byte) s.mem = true → Store.canon (0 : Byte) v = true)
    (h : Keeps w s₀ s) : Keeps w s₀ { s with mem := v, poison := p, mcs := [] } :=
  keeps_mcs (hw.sub rfl) _ (keeps_poison (hw.sub rfl) _ (keeps_mem (hw.sub rfl) _ hv h))

/-- A write to the registers that leaves the other registers' cells alone. -/
theorem keeps_regs (v : Store Word)
    (hv : ∀ g ∈ allRegs, w.testBit (Part.reg g).code = false → ∀ i k, Store.find (fldKey g i k) v = Store.find (fldKey g i k) s.regs)
    (h : Keeps w s₀ s) : Keeps w s₀ { s with regs := v } :=
  { h with regs := fun g m e i k => (hv g m e i k).trans (h.regs g m e i k) }

/-- The bit of a register among those of all. -/
theorem Has.reg {f : Fld} (hw : Has 0x1ffffffffffffffffffffffffffffffffffffffffffffffffffffffffffffffffffffffffffffffffffffffffffffffffffffffffffffffffffffffffffffff000000000000 w) (hf : f ∈ allRegs) : Has (2 ^ (Part.reg f).code) w := by
  refine hw.sub ?_
  have c := code_of_reg hf
  generalize (Part.reg f).code = n at c
  have key : ∀ n < 553, 48 ≤ n → 2 ^ n &&& 0x1ffffffffffffffffffffffffffffffffffffffffffffffffffffffffffffffffffffffffffffffffffffffffffffffffffffffffffffffffffffffffffffff000000000000 = 2 ^ n := by decide +kernel
  exact key n c.2 c.1

/-- A write to the registers of any page. -/
theorem keeps_all_regs (hw : Has 0x1ffffffffffffffffffffffffffffffffffffffffffffffffffffffffffffffffffffffffffffffffffffffffffffffffffffffffffffffffffffffffffffff000000000000 w) (v : Store Word) (h : Keeps w s₀ s) : Keeps w s₀ { s with regs := v } :=
  keeps_regs v (fun _ hg e => by rw [(hw.reg hg).bit] at e; exact Bool.noConfusion e) h

/-! ## Control flow -/

theorem keeps_ite {c : Prop} [Decidable c] {a b : State} (ha : Keeps w s₀ a) (hb : Keeps w s₀ b) :
    Keeps w s₀ (if c then a else b) := by
  split <;> assumption

theorem keeps_getD {o : Option State} (ho : ∀ t, o = some t → Keeps w s₀ t) (h : Keeps w s₀ s) : Keeps w s₀ (o.getD s) := by
  cases o with
  | none => exact h
  | some t => exact ho t rfl

theorem keeps_map {o : Option State} {f : State → State} (e : o.map f = some t) (ho : ∀ u, o = some u → Keeps w s₀ (f u)) :
    Keeps w s₀ t := by
  cases o with
  | none => cases e
  | some u => cases e; exact ho u rfl

theorem keeps_foldl {α : Type} (f : State → α → State) (hf : ∀ s a, Keeps w s₀ s → Keeps w s₀ (f s a)) :
    ∀ (l : List α) {s : State}, Keeps w s₀ s → Keeps w s₀ (l.foldl f s)
  | [], _, h => h
  | a :: l, _, h => keeps_foldl f hf l (hf _ a h)

theorem keeps_snd {α : Type} {p : α × State} {a : α} (e : p = (a, t)) (h : Keeps w s₀ p.2) : Keeps w s₀ t := by
  subst e; exact h

theorem keeps_snd2 {α β : Type} {p : α × β × State} {a : α} {b : β} (e : p = (a, b, t)) (h : Keeps w s₀ p.2.2) :
    Keeps w s₀ t := by
  subst e; exact h

/-! ## From masks to lists of parts -/

/-- The mask of a list of parts. -/
def maskOf : List Part → Nat
  | [] => 0
  | p :: r => 2 ^ p.code ||| maskOf r

theorem maskOf_append : ∀ a b : List Part, maskOf (a ++ b) = maskOf a ||| maskOf b
  | [], b => (Nat.zero_or _).symm
  | p :: r, b => by rw [List.cons_append, maskOf, maskOf, maskOf_append r b, Nat.or_assoc]

theorem maskOf_bit {n : Nat} : ∀ {l : List Part}, (maskOf l).testBit n = true → ∃ p ∈ l, p.code = n
  | [], h => by simp [maskOf] at h
  | p :: r, h => by
    rw [maskOf, Nat.testBit_or, Bool.or_eq_true] at h
    rcases h with h | h
    · exact ⟨p, List.mem_cons_self, by simpa [Nat.testBit_two_pow] using h⟩
    · obtain ⟨q, m, e⟩ := maskOf_bit h
      exact ⟨q, List.mem_cons_of_mem _ m, e⟩

/-- From a mask to the list that a statement names. -/
theorem Keeps.sameBut_of {l : List Part} (h : Keeps w s t) (hm : w &&& maskOf l = w) : s.SameBut l t := by
  have key : ∀ p : Part, p.known → p ∉ l → w.testBit p.code = false := fun p hk hp => by
    cases e : w.testBit p.code with
    | false => rfl
    | true =>
      have e2 := congrArg (fun x => x.testBit p.code) hm
      simp only [Nat.testBit_and, e, Bool.true_and] at e2
      obtain ⟨q, m, c⟩ := maskOf_bit e2
      exact absurd (Part.code_inj hk c ▸ m) hp
  constructor
  · intro f hf i k hp
    unfold getFk Store.get
    rw [h.regs f hf (key (.reg f) hf hp) i k]
  · exact fun hp => h.pending (key .queue trivial hp)
  · exact fun hp => h.hiLatch (key .hiLatch trivial hp)
  · exact fun hp => h.mem (key .mem trivial hp)
  · exact fun hp => h.poison (key .poison trivial hp)
  · exact fun hp => h.sram (key .sram trivial hp)
  · exact fun hp => h.hmem (key .hmem trivial hp)
  · exact fun hp => h.otp (key .otp trivial hp)
  · exact fun hp => h.responses (key .responses trivial hp)
  · exact fun hp => h.mcs (key .mcs trivial hp)
  · exact fun hp => h.window (key .window trivial hp)
  · exact fun hp => h.sluices (key .sluices trivial hp)
  · exact fun hp => h.objs (key .objs trivial hp)
  · exact fun hp => h.releases (key .releases trivial hp)
  · exact fun hp => h.crossing (key .crossing trivial hp)
  · exact fun hp => h.clusters (key .clusters trivial hp)
  · exact fun hp => h.units (key .units trivial hp)
  · exact fun hp => h.seqs (key .seqs trivial hp)
  · exact fun hp => h.cul (key .cul trivial hp)
  · exact fun hp => h.degSet (key .degSet trivial hp)
  · exact fun hp => h.degClear (key .degClear trivial hp)
  · exact fun hp => h.ctxs (key .ctxs trivial hp)
  · exact fun hp => h.reports (key .reports trivial hp)
  · exact fun hp => h.lastClosed (key .lastClosed trivial hp)
  · exact fun hp => h.jwide (key .jwide trivial hp)
  · exact fun hp => h.ports (key .ports trivial hp)
  · exact fun hp => h.txStreams (key .txStreams trivial hp)
  · exact fun hp => h.rxStreams (key .rxStreams trivial hp)
  · exact fun hp => h.sendq (key .sendq trivial hp)
  · exact fun hp => h.inbox (key .inbox trivial hp)
  · exact fun hp => h.mbx (key .mbx trivial hp)
  · exact fun hp => h.otpq (key .otpq trivial hp)
  · exact fun hp => h.romProg (key .romProg trivial hp)
  · exact fun hp => h.bootKeys (key .bootKeys trivial hp)
  · exact fun hp => h.pow (key .pow trivial hp)
  · exact fun hp => h.brk (key .brk trivial hp)
  · exact fun hp => h.faultN (key .faultN trivial hp)
  · exact fun hp => h.inReset (key .inReset trivial hp)
  · exact fun hp => h.dbg (key .dbg trivial hp)
  · exact fun hp => h.gauge (key .gauge trivial hp)
  · exact fun hp => h.strapPos (key .strapPos trivial hp)
  · exact fun hp => h.strapGaddr (key .strapGaddr trivial hp)
  · exact fun hp => h.vfEnable (key .vfEnable trivial hp)
  · exact fun hp => h.numVfs (key .numVfs trivial hp)
  · exact fun hp => h.out (key .out trivial hp)
  · exact fun hp => h.freeCtr (key .freeCtr trivial hp)

theorem maskOf_everyReg : maskOf everyReg = 0x1ffffffffffffffffffffffffffffffffffffffffffffffffffffffffffffffffffffffffffffffffffffffffffffffffffffffffffffffffffffffffffffff000000000000 := by decide +kernel

theorem maskOf_denied : maskOf denied = 0x1000200040110000080100000400000200000000400000800000040000000100000000000002000000100080200000000020000000010000000001000000000000000000000 := by decide +kernel

theorem maskOf_everyPend : maskOf everyPend = 0x200040008022000010020000080000040000000080000100000008000000020000000000000400000020010040000000004000000002000000000200000000000000000000 := by decide +kernel

/-- The masks of the pages. -/
def pageMasks : List Nat := [0x1fffffffff000000000000, 0x1fffffffffe000000000000000000000, 0x3ffffffffe0000000000000000000000000000000, 0x3fffffffffc0000000000000000000000000000000000000000, 0xffc00000000000000000000000000000000000000000000000000, 0x1fff00000000000000000000000000000000000000000000000000000, 0x3ffffffe00000000000000000000000000000000000000000000000000000000, 0x1fffffffffffffc000000000000000000000000000000000000000000000000000000000000000, 0x7fffffffe00000000000000000000000000000000000000000000000000000000000000000000000000000, 0xfffffff80000000000000000000000000000000000000000000000000000000000000000000000000000000000000, 0x7fffff000000000000000000000000000000000000000000000000000000000000000000000000000000000000000000000, 0x3ffffffff800000000000000000000000000000000000000000000000000000000000000000000000000000000000000000000000000, 0x7fffffc00000000000000000000000000000000000000000000000000000000000000000000000000000000000000000000000000000000000, 0x1fffff800000000000000000000000000000000000000000000000000000000000000000000000000000000000000000000000000000000000000000, 0xffe00000000000000000000000000000000000000000000000000000000000000000000000000000000000000000000000000000000000000000000000, 0x1fffff00000000000000000000000000000000000000000000000000000000000000000000000000000000000000000000000000000000000000000000000000, 0x1e0000000000000000000000000000000000000000000000000000000000000000000000000000000000000000000000000000000000000000000000000000000, 0x7fe00000000000000000000000000000000000000000000000000000000000000000000000000000000000000000000000000000000000000000000000000000000, 0x3fff80000000000000000000000000000000000000000000000000000000000000000000000000000000000000000000000000000000000000000000000000000000000, 0x1fffc00000000000000000000000000000000000000000000000000000000000000000000000000000000000000000000000000000000000000000000000000000000000000]

theorem maskOf_pages : ∀ t < 20, maskOf (pageRegs t) = pageMasks.getD t 0 := by decide +kernel

theorem regsOf_codes : ∀ t < 20, (regsOf t).map (fun f => (Part.reg f).code) = List.range' (regBase t) (regsOf t).length := by
  decide +kernel

/-- A register and its bit. -/
def IsReg (f : Fld) (n : Nat) : Prop := f ∈ allRegs ∧ (Part.reg f).code = n

theorem Keeps.getFk {w n : Nat} {s t : State} {g : Fld} (h : Keeps w s t) (hg : IsReg g n) (hb : w.testBit n = false) (i k : Nat) :
    getFk t g i k = getFk s g i k := by
  unfold Machine.getFk Store.get
  rw [h.regs g hg.1 (by rw [hg.2]; exact hb) i k]

/-- What writes no register leaves every register alone. -/
theorem Keeps.getFk_all {w n : Nat} {s t : State} {g : Fld} (h : Keeps w s t) (hg : IsReg g n) (hw : w < 2 ^ 48) (i k : Nat) :
    Machine.getFk t g i k = Machine.getFk s g i k :=
  h.getFk hg (Nat.testBit_lt_two_pow (Nat.lt_of_lt_of_le hw (Nat.pow_le_pow_right (by decide) (hg.2 ▸ (code_of_reg hg.1).1)))) i k

theorem isReg_at {t k : Nat} {f : Fld} (ht : t < 20) (h : (regsOf t)[k]? = some f) : IsReg f (regBase t + k) := by
  have m : f ∈ regsOf t := List.mem_of_getElem? h
  refine ⟨mem_allRegs.2 (by rw [regsOf_page t ht f m]; exact m), ?_⟩
  have e := congrArg (fun l => l[k]?) (regsOf_codes t ht)
  have lt : k < (regsOf t).length := (List.getElem?_eq_some_iff.1 h).1
  simp only [List.getElem?_map, h, List.getElem?_range' lt, Option.map_some, Option.some.injEq] at e
  omega

theorem reg_TUNIT_CTRL_Q_EN : IsReg TUNIT_CTRL_Q_EN 48 := isReg_at (t := 0) (k := 0) (by decide) rfl
theorem reg_TUNIT_CTRL_WIDE_ALLOW : IsReg TUNIT_CTRL_WIDE_ALLOW 49 := isReg_at (t := 0) (k := 1) (by decide) rfl
theorem reg_TUNIT_CTRL_FORCE_FENCE : IsReg TUNIT_CTRL_FORCE_FENCE 50 := isReg_at (t := 0) (k := 2) (by decide) rfl
theorem reg_TUNIT_CTRL_RESUME : IsReg TUNIT_CTRL_RESUME 51 := isReg_at (t := 0) (k := 3) (by decide) rfl
theorem reg_TUNIT_STAT_BUSY : IsReg TUNIT_STAT_BUSY 52 := isReg_at (t := 0) (k := 4) (by decide) rfl
theorem reg_TUNIT_STAT_MODE : IsReg TUNIT_STAT_MODE 53 := isReg_at (t := 0) (k := 5) (by decide) rfl
theorem reg_TUNIT_STAT_FENCED : IsReg TUNIT_STAT_FENCED 54 := isReg_at (t := 0) (k := 6) (by decide) rfl
theorem reg_TUNIT_STAT_HALTED : IsReg TUNIT_STAT_HALTED 55 := isReg_at (t := 0) (k := 7) (by decide) rfl
theorem reg_TUNIT_STAT_LEND : IsReg TUNIT_STAT_LEND 56 := isReg_at (t := 0) (k := 8) (by decide) rfl
theorem reg_TUNIT_STAT_ADOPTING : IsReg TUNIT_STAT_ADOPTING 57 := isReg_at (t := 0) (k := 9) (by decide) rfl
theorem reg_TUNIT_STAT_ADOPTED_FROM : IsReg TUNIT_STAT_ADOPTED_FROM 58 := isReg_at (t := 0) (k := 10) (by decide) rfl
theorem reg_TUNIT_STAT_CQ_LEVEL : IsReg TUNIT_STAT_CQ_LEVEL 59 := isReg_at (t := 0) (k := 11) (by decide) rfl
theorem reg_TUNIT_STAT_WQ_LEVEL : IsReg TUNIT_STAT_WQ_LEVEL 60 := isReg_at (t := 0) (k := 12) (by decide) rfl
theorem reg_TUNIT_ERR_INFO_CODE : IsReg TUNIT_ERR_INFO_CODE 61 := isReg_at (t := 0) (k := 13) (by decide) rfl
theorem reg_TUNIT_ERR_INFO_TILE : IsReg TUNIT_ERR_INFO_TILE 62 := isReg_at (t := 0) (k := 14) (by decide) rfl
theorem reg_TUNIT_ERR_INFO_DESC_SEQ : IsReg TUNIT_ERR_INFO_DESC_SEQ 63 := isReg_at (t := 0) (k := 15) (by decide) rfl
theorem reg_TUNIT_DESC_DONE : IsReg TUNIT_DESC_DONE 64 := isReg_at (t := 0) (k := 16) (by decide) rfl
theorem reg_TUNIT_CHK_MISS : IsReg TUNIT_CHK_MISS 65 := isReg_at (t := 0) (k := 17) (by decide) rfl
theorem reg_TUNIT_CHK_REPEAT_OK : IsReg TUNIT_CHK_REPEAT_OK 66 := isReg_at (t := 0) (k := 18) (by decide) rfl
theorem reg_TUNIT_BX_SAT_CNT : IsReg TUNIT_BX_SAT_CNT 67 := isReg_at (t := 0) (k := 19) (by decide) rfl
theorem reg_TUNIT_WIDE_DESC : IsReg TUNIT_WIDE_DESC 68 := isReg_at (t := 0) (k := 20) (by decide) rfl
theorem reg_TUNIT_FEED_STALL : IsReg TUNIT_FEED_STALL 69 := isReg_at (t := 0) (k := 21) (by decide) rfl
theorem reg_TUNIT_ECC_CORR_CNT : IsReg TUNIT_ECC_CORR_CNT 70 := isReg_at (t := 0) (k := 22) (by decide) rfl
theorem reg_TUNIT_ADOPT_CNT : IsReg TUNIT_ADOPT_CNT 71 := isReg_at (t := 0) (k := 23) (by decide) rfl
theorem reg_TUNIT_CHK_CFG_CHK_TOL : IsReg TUNIT_CHK_CFG_CHK_TOL 72 := isReg_at (t := 0) (k := 24) (by decide) rfl
theorem reg_TUNIT_LAST_STAT : IsReg TUNIT_LAST_STAT 73 := isReg_at (t := 0) (k := 25) (by decide) rfl
theorem reg_TUNIT_MISS_INFO_ROW : IsReg TUNIT_MISS_INFO_ROW 74 := isReg_at (t := 0) (k := 26) (by decide) rfl
theorem reg_TUNIT_MISS_INFO_TILE : IsReg TUNIT_MISS_INFO_TILE 75 := isReg_at (t := 0) (k := 27) (by decide) rfl
theorem reg_TUNIT_MISS_INFO_REPEAT : IsReg TUNIT_MISS_INFO_REPEAT 76 := isReg_at (t := 0) (k := 28) (by decide) rfl
theorem reg_TUNIT_A20_OVF : IsReg TUNIT_A20_OVF 77 := isReg_at (t := 0) (k := 29) (by decide) rfl
theorem reg_TUNIT_ACC_REPEAT : IsReg TUNIT_ACC_REPEAT 78 := isReg_at (t := 0) (k := 30) (by decide) rfl
theorem reg_TUNIT_CHUNK4_TILES : IsReg TUNIT_CHUNK4_TILES 79 := isReg_at (t := 0) (k := 31) (by decide) rfl
theorem reg_TUNIT_ACC_DIVERGE : IsReg TUNIT_ACC_DIVERGE 80 := isReg_at (t := 0) (k := 32) (by decide) rfl
theorem reg_pendFld0 : IsReg (pendFld 0) 81 := isReg_at (t := 0) (k := 33) (by decide) rfl
theorem reg_enFld0 : IsReg (enFld 0) 82 := isReg_at (t := 0) (k := 34) (by decide) rfl
theorem reg_hostRoFld0 : IsReg (hostRoFld 0) 83 := isReg_at (t := 0) (k := 35) (by decide) rfl
theorem reg_deniedFld0 : IsReg (deniedFld 0) 84 := isReg_at (t := 0) (k := 36) (by decide) rfl
theorem reg_CLUSTER_CVT_TILES : IsReg CLUSTER_CVT_TILES 85 := isReg_at (t := 1) (k := 0) (by decide) rfl
theorem reg_CLUSTER_SCALE_RECOMP : IsReg CLUSTER_SCALE_RECOMP 86 := isReg_at (t := 1) (k := 1) (by decide) rfl
theorem reg_CLUSTER_SPILL_GROUPS : IsReg CLUSTER_SPILL_GROUPS 87 := isReg_at (t := 1) (k := 2) (by decide) rfl
theorem reg_CLUSTER_SPILL_EXH : IsReg CLUSTER_SPILL_EXH 88 := isReg_at (t := 1) (k := 3) (by decide) rfl
theorem reg_CLUSTER_NONFINITE_BLK : IsReg CLUSTER_NONFINITE_BLK 89 := isReg_at (t := 1) (k := 4) (by decide) rfl
theorem reg_CLUSTER_W24_SAT : IsReg CLUSTER_W24_SAT 90 := isReg_at (t := 1) (k := 5) (by decide) rfl
theorem reg_CLUSTER_DROUGHT_EVT : IsReg CLUSTER_DROUGHT_EVT 91 := isReg_at (t := 1) (k := 6) (by decide) rfl
theorem reg_CLUSTER_UE_MOVES : IsReg CLUSTER_UE_MOVES 92 := isReg_at (t := 1) (k := 7) (by decide) rfl
theorem reg_CLUSTER_SCALE_DIVERGE : IsReg CLUSTER_SCALE_DIVERGE 93 := isReg_at (t := 1) (k := 8) (by decide) rfl
theorem reg_CLUSTER_GATHER_REJ : IsReg CLUSTER_GATHER_REJ 94 := isReg_at (t := 1) (k := 9) (by decide) rfl
theorem reg_CLUSTER_ADOPT_FAIL_CNT : IsReg CLUSTER_ADOPT_FAIL_CNT 95 := isReg_at (t := 1) (k := 10) (by decide) rfl
theorem reg_CLUSTER_REPLAY_DIV_CNT : IsReg CLUSTER_REPLAY_DIV_CNT 96 := isReg_at (t := 1) (k := 11) (by decide) rfl
theorem reg_CLUSTER_NUM_CFG_DROUGHT_LIMIT : IsReg CLUSTER_NUM_CFG_DROUGHT_LIMIT 97 := isReg_at (t := 1) (k := 12) (by decide) rfl
theorem reg_CLUSTER_NUM_CFG_UE_HLO : IsReg CLUSTER_NUM_CFG_UE_HLO 98 := isReg_at (t := 1) (k := 13) (by decide) rfl
theorem reg_CLUSTER_NUM_CFG_UE_HHI : IsReg CLUSTER_NUM_CFG_UE_HHI 99 := isReg_at (t := 1) (k := 14) (by decide) rfl
theorem reg_CLUSTER_DROUGHT_LAST : IsReg CLUSTER_DROUGHT_LAST 100 := isReg_at (t := 1) (k := 15) (by decide) rfl
theorem reg_CLUSTER_SPILL_LAST_GROUP : IsReg CLUSTER_SPILL_LAST_GROUP 101 := isReg_at (t := 1) (k := 16) (by decide) rfl
theorem reg_CLUSTER_SPILL_LAST_RUNG : IsReg CLUSTER_SPILL_LAST_RUNG 102 := isReg_at (t := 1) (k := 17) (by decide) rfl
theorem reg_CLUSTER_SPILL_LAST_EXH : IsReg CLUSTER_SPILL_LAST_EXH 103 := isReg_at (t := 1) (k := 18) (by decide) rfl
theorem reg_CLUSTER_CVT_ERR_CODE : IsReg CLUSTER_CVT_ERR_CODE 104 := isReg_at (t := 1) (k := 19) (by decide) rfl
theorem reg_CLUSTER_FACTOR_UPD : IsReg CLUSTER_FACTOR_UPD 105 := isReg_at (t := 1) (k := 20) (by decide) rfl
theorem reg_CLUSTER_SNAP_TAKEN : IsReg CLUSTER_SNAP_TAKEN 106 := isReg_at (t := 1) (k := 21) (by decide) rfl
theorem reg_CLUSTER_SNAP_SKIP : IsReg CLUSTER_SNAP_SKIP 107 := isReg_at (t := 1) (k := 22) (by decide) rfl
theorem reg_CLUSTER_FROZEN_DISC : IsReg CLUSTER_FROZEN_DISC 108 := isReg_at (t := 1) (k := 23) (by decide) rfl
theorem reg_CLUSTER_BT_ERR_CODE : IsReg CLUSTER_BT_ERR_CODE 109 := isReg_at (t := 1) (k := 24) (by decide) rfl
theorem reg_CLUSTER_BT_ERR_RECORD : IsReg CLUSTER_BT_ERR_RECORD 110 := isReg_at (t := 1) (k := 25) (by decide) rfl
theorem reg_CLUSTER_STASH_CHAN : IsReg CLUSTER_STASH_CHAN 111 := isReg_at (t := 1) (k := 26) (by decide) rfl
theorem reg_CLUSTER_STASH_CONST : IsReg CLUSTER_STASH_CONST 112 := isReg_at (t := 1) (k := 27) (by decide) rfl
theorem reg_CLUSTER_STASH_RAW : IsReg CLUSTER_STASH_RAW 113 := isReg_at (t := 1) (k := 28) (by decide) rfl
theorem reg_CLUSTER_STASH_ESC : IsReg CLUSTER_STASH_ESC 114 := isReg_at (t := 1) (k := 29) (by decide) rfl
theorem reg_CLUSTER_STASH_LOST : IsReg CLUSTER_STASH_LOST 115 := isReg_at (t := 1) (k := 30) (by decide) rfl
theorem reg_CLUSTER_STASH_CORRUPT : IsReg CLUSTER_STASH_CORRUPT 116 := isReg_at (t := 1) (k := 31) (by decide) rfl
theorem reg_CLUSTER_STASH_ERR_CODE : IsReg CLUSTER_STASH_ERR_CODE 117 := isReg_at (t := 1) (k := 32) (by decide) rfl
theorem reg_CLUSTER_STASH_ERR_CHT : IsReg CLUSTER_STASH_ERR_CHT 118 := isReg_at (t := 1) (k := 33) (by decide) rfl
theorem reg_CLUSTER_LIST_ERR_CODE : IsReg CLUSTER_LIST_ERR_CODE 119 := isReg_at (t := 1) (k := 34) (by decide) rfl
theorem reg_CLUSTER_LIST_ERR_ADDR : IsReg CLUSTER_LIST_ERR_ADDR 120 := isReg_at (t := 1) (k := 35) (by decide) rfl
theorem reg_pendFld1 : IsReg (pendFld 1) 121 := isReg_at (t := 1) (k := 36) (by decide) rfl
theorem reg_enFld1 : IsReg (enFld 1) 122 := isReg_at (t := 1) (k := 37) (by decide) rfl
theorem reg_hostRoFld1 : IsReg (hostRoFld 1) 123 := isReg_at (t := 1) (k := 38) (by decide) rfl
theorem reg_deniedFld1 : IsReg (deniedFld 1) 124 := isReg_at (t := 1) (k := 39) (by decide) rfl
theorem reg_ROOTSEQ_CTRL_EN : IsReg ROOTSEQ_CTRL_EN 125 := isReg_at (t := 2) (k := 0) (by decide) rfl
theorem reg_ROOTSEQ_STAT_BUSY : IsReg ROOTSEQ_STAT_BUSY 126 := isReg_at (t := 2) (k := 1) (by decide) rfl
theorem reg_ROOTSEQ_STAT_LENDING : IsReg ROOTSEQ_STAT_LENDING 127 := isReg_at (t := 2) (k := 2) (by decide) rfl
theorem reg_ROOTSEQ_STAT_URGENT : IsReg ROOTSEQ_STAT_URGENT 128 := isReg_at (t := 2) (k := 3) (by decide) rfl
theorem reg_ROOTSEQ_STAT_PHASE : IsReg ROOTSEQ_STAT_PHASE 129 := isReg_at (t := 2) (k := 4) (by decide) rfl
theorem reg_ROOTSEQ_STAT_SIDE : IsReg ROOTSEQ_STAT_SIDE 130 := isReg_at (t := 2) (k := 5) (by decide) rfl
theorem reg_ROOTSEQ_ERR_INFO_REASON : IsReg ROOTSEQ_ERR_INFO_REASON 131 := isReg_at (t := 2) (k := 6) (by decide) rfl
theorem reg_ROOTSEQ_ERR_INFO_SIDE : IsReg ROOTSEQ_ERR_INFO_SIDE 132 := isReg_at (t := 2) (k := 7) (by decide) rfl
theorem reg_ROOTSEQ_ERR_INFO_RES_LOG : IsReg ROOTSEQ_ERR_INFO_RES_LOG 133 := isReg_at (t := 2) (k := 8) (by decide) rfl
theorem reg_ROOTSEQ_JOB_START : IsReg ROOTSEQ_JOB_START 134 := isReg_at (t := 2) (k := 9) (by decide) rfl
theorem reg_ROOTSEQ_ROOT_PUB : IsReg ROOTSEQ_ROOT_PUB 135 := isReg_at (t := 2) (k := 10) (by decide) rfl
theorem reg_ROOTSEQ_ROOT_REJ : IsReg ROOTSEQ_ROOT_REJ 136 := isReg_at (t := 2) (k := 11) (by decide) rfl
theorem reg_ROOTSEQ_ROOT_LATE : IsReg ROOTSEQ_ROOT_LATE 137 := isReg_at (t := 2) (k := 12) (by decide) rfl
theorem reg_ROOTSEQ_ROOT_RESTART : IsReg ROOTSEQ_ROOT_RESTART 138 := isReg_at (t := 2) (k := 13) (by decide) rfl
theorem reg_ROOTSEQ_PIV_FLOORED : IsReg ROOTSEQ_PIV_FLOORED 139 := isReg_at (t := 2) (k := 14) (by decide) rfl
theorem reg_ROOTSEQ_DAMPED_PUB : IsReg ROOTSEQ_DAMPED_PUB 140 := isReg_at (t := 2) (k := 15) (by decide) rfl
theorem reg_ROOTSEQ_ITER_DONE : IsReg ROOTSEQ_ITER_DONE 141 := isReg_at (t := 2) (k := 16) (by decide) rfl
theorem reg_ROOTSEQ_WIDE_ISSUED : IsReg ROOTSEQ_WIDE_ISSUED 142 := isReg_at (t := 2) (k := 17) (by decide) rfl
theorem reg_ROOTSEQ_REPLAY_DIV : IsReg ROOTSEQ_REPLAY_DIV 143 := isReg_at (t := 2) (k := 18) (by decide) rfl
theorem reg_ROOTSEQ_CFG_ITER_P2 : IsReg ROOTSEQ_CFG_ITER_P2 144 := isReg_at (t := 2) (k := 19) (by decide) rfl
theorem reg_ROOTSEQ_CFG_ITER_P4 : IsReg ROOTSEQ_CFG_ITER_P4 145 := isReg_at (t := 2) (k := 20) (by decide) rfl
theorem reg_ROOTSEQ_CFG_ITER_P8 : IsReg ROOTSEQ_CFG_ITER_P8 146 := isReg_at (t := 2) (k := 21) (by decide) rfl
theorem reg_ROOTSEQ_CFG_RES_EXP : IsReg ROOTSEQ_CFG_RES_EXP 147 := isReg_at (t := 2) (k := 22) (by decide) rfl
theorem reg_ROOTSEQ_DAMP : IsReg ROOTSEQ_DAMP 148 := isReg_at (t := 2) (k := 23) (by decide) rfl
theorem reg_ROOTSEQ_PIV_FLOOR : IsReg ROOTSEQ_PIV_FLOOR 149 := isReg_at (t := 2) (k := 24) (by decide) rfl
theorem reg_ROOTSEQ_SCR_BASE : IsReg ROOTSEQ_SCR_BASE 150 := isReg_at (t := 2) (k := 25) (by decide) rfl
theorem reg_ROOTSEQ_SCR_SIZE : IsReg ROOTSEQ_SCR_SIZE 151 := isReg_at (t := 2) (k := 26) (by decide) rfl
theorem reg_ROOTSEQ_SRAM_WIN_BASE : IsReg ROOTSEQ_SRAM_WIN_BASE 152 := isReg_at (t := 2) (k := 27) (by decide) rfl
theorem reg_ROOTSEQ_SRAM_WIN_SIZE : IsReg ROOTSEQ_SRAM_WIN_SIZE 153 := isReg_at (t := 2) (k := 28) (by decide) rfl
theorem reg_ROOTSEQ_URGENT : IsReg ROOTSEQ_URGENT 154 := isReg_at (t := 2) (k := 29) (by decide) rfl
theorem reg_ROOTSEQ_CUR_GBI : IsReg ROOTSEQ_CUR_GBI 155 := isReg_at (t := 2) (k := 30) (by decide) rfl
theorem reg_ROOTSEQ_LAST_REJ : IsReg ROOTSEQ_LAST_REJ 156 := isReg_at (t := 2) (k := 31) (by decide) rfl
theorem reg_ROOTSEQ_REFRESH_K : IsReg ROOTSEQ_REFRESH_K 157 := isReg_at (t := 2) (k := 32) (by decide) rfl
theorem reg_pendFld2 : IsReg (pendFld 2) 158 := isReg_at (t := 2) (k := 33) (by decide) rfl
theorem reg_enFld2 : IsReg (enFld 2) 159 := isReg_at (t := 2) (k := 34) (by decide) rfl
theorem reg_hostRoFld2 : IsReg (hostRoFld 2) 160 := isReg_at (t := 2) (k := 35) (by decide) rfl
theorem reg_deniedFld2 : IsReg (deniedFld 2) 161 := isReg_at (t := 2) (k := 36) (by decide) rfl
theorem reg_MEMCTL_CTRL_EN : IsReg MEMCTL_CTRL_EN 162 := isReg_at (t := 3) (k := 0) (by decide) rfl
theorem reg_MEMCTL_CTRL_MODE : IsReg MEMCTL_CTRL_MODE 163 := isReg_at (t := 3) (k := 1) (by decide) rfl
theorem reg_MEMCTL_CTRL_SCRUB_EN : IsReg MEMCTL_CTRL_SCRUB_EN 164 := isReg_at (t := 3) (k := 2) (by decide) rfl
theorem reg_MEMCTL_CTRL_RETRAIN_EN : IsReg MEMCTL_CTRL_RETRAIN_EN 165 := isReg_at (t := 3) (k := 3) (by decide) rfl
theorem reg_MEMCTL_STAT_READY : IsReg MEMCTL_STAT_READY 166 := isReg_at (t := 3) (k := 4) (by decide) rfl
theorem reg_MEMCTL_STAT_RT_CH : IsReg MEMCTL_STAT_RT_CH 167 := isReg_at (t := 3) (k := 5) (by decide) rfl
theorem reg_MEMCTL_STAT_RETRAINING : IsReg MEMCTL_STAT_RETRAINING 168 := isReg_at (t := 3) (k := 6) (by decide) rfl
theorem reg_MEMCTL_STAT_PK_CH : IsReg MEMCTL_STAT_PK_CH 169 := isReg_at (t := 3) (k := 7) (by decide) rfl
theorem reg_MEMCTL_STAT_PARKED : IsReg MEMCTL_STAT_PARKED 170 := isReg_at (t := 3) (k := 8) (by decide) rfl
theorem reg_MEMCTL_STAT_REF_X2 : IsReg MEMCTL_STAT_REF_X2 171 := isReg_at (t := 3) (k := 9) (by decide) rfl
theorem reg_MEMCTL_STAT_THROTTLE : IsReg MEMCTL_STAT_THROTTLE 172 := isReg_at (t := 3) (k := 10) (by decide) rfl
theorem reg_MEMCTL_STAT_TEMP : IsReg MEMCTL_STAT_TEMP 173 := isReg_at (t := 3) (k := 11) (by decide) rfl
theorem reg_MEMCTL_ERR_INFO_CHAN : IsReg MEMCTL_ERR_INFO_CHAN 174 := isReg_at (t := 3) (k := 12) (by decide) rfl
theorem reg_MEMCTL_ERR_INFO_ROW : IsReg MEMCTL_ERR_INFO_ROW 175 := isReg_at (t := 3) (k := 13) (by decide) rfl
theorem reg_MEMCTL_ERR_INFO_CLASS : IsReg MEMCTL_ERR_INFO_CLASS 176 := isReg_at (t := 3) (k := 14) (by decide) rfl
theorem reg_MEMCTL_CE_CNT : IsReg MEMCTL_CE_CNT 177 := isReg_at (t := 3) (k := 15) (by decide) rfl
theorem reg_MEMCTL_UE_CNT : IsReg MEMCTL_UE_CNT 178 := isReg_at (t := 3) (k := 16) (by decide) rfl
theorem reg_MEMCTL_ROW_FAIL_CNT : IsReg MEMCTL_ROW_FAIL_CNT 179 := isReg_at (t := 3) (k := 17) (by decide) rfl
theorem reg_MEMCTL_FIELD_REP_CNT : IsReg MEMCTL_FIELD_REP_CNT 180 := isReg_at (t := 3) (k := 18) (by decide) rfl
theorem reg_MEMCTL_REMAP_CNT : IsReg MEMCTL_REMAP_CNT 181 := isReg_at (t := 3) (k := 19) (by decide) rfl
theorem reg_MEMCTL_RETIRE_CNT : IsReg MEMCTL_RETIRE_CNT 182 := isReg_at (t := 3) (k := 20) (by decide) rfl
theorem reg_MEMCTL_PAGE_LOST_CNT : IsReg MEMCTL_PAGE_LOST_CNT 183 := isReg_at (t := 3) (k := 21) (by decide) rfl
theorem reg_MEMCTL_RETRAIN_CNT : IsReg MEMCTL_RETRAIN_CNT 184 := isReg_at (t := 3) (k := 22) (by decide) rfl
theorem reg_MEMCTL_PARK_STALL_CNT : IsReg MEMCTL_PARK_STALL_CNT 185 := isReg_at (t := 3) (k := 23) (by decide) rfl
theorem reg_MEMCTL_ADDR_FAULT_CNT : IsReg MEMCTL_ADDR_FAULT_CNT 186 := isReg_at (t := 3) (k := 24) (by decide) rfl
theorem reg_MEMCTL_SCRUB_PASS : IsReg MEMCTL_SCRUB_PASS 187 := isReg_at (t := 3) (k := 25) (by decide) rfl
theorem reg_MEMCTL_MAINT_RETRAIN_MS : IsReg MEMCTL_MAINT_RETRAIN_MS 188 := isReg_at (t := 3) (k := 26) (by decide) rfl
theorem reg_MEMCTL_MAINT_SCRUB_H : IsReg MEMCTL_MAINT_SCRUB_H 189 := isReg_at (t := 3) (k := 27) (by decide) rfl
theorem reg_MEMCTL_THERM_THROTTLE_C : IsReg MEMCTL_THERM_THROTTLE_C 190 := isReg_at (t := 3) (k := 28) (by decide) rfl
theorem reg_MEMCTL_THERM_HYST_C : IsReg MEMCTL_THERM_HYST_C 191 := isReg_at (t := 3) (k := 29) (by decide) rfl
theorem reg_MEMCTL_PARK_STALL : IsReg MEMCTL_PARK_STALL 192 := isReg_at (t := 3) (k := 30) (by decide) rfl
theorem reg_MEMCTL_PRIO_MASK_CLASSES : IsReg MEMCTL_PRIO_MASK_CLASSES 193 := isReg_at (t := 3) (k := 31) (by decide) rfl
theorem reg_MEMCTL_PENDING_ROWS : IsReg MEMCTL_PENDING_ROWS 194 := isReg_at (t := 3) (k := 32) (by decide) rfl
theorem reg_MEMCTL_PENDING_REMAP_USED : IsReg MEMCTL_PENDING_REMAP_USED 195 := isReg_at (t := 3) (k := 33) (by decide) rfl
theorem reg_MEMCTL_SPAN_LO : IsReg MEMCTL_SPAN_LO 196 := isReg_at (t := 3) (k := 34) (by decide) rfl
theorem reg_MEMCTL_SPAN_HI : IsReg MEMCTL_SPAN_HI 197 := isReg_at (t := 3) (k := 35) (by decide) rfl
theorem reg_pendFld3 : IsReg (pendFld 3) 198 := isReg_at (t := 3) (k := 36) (by decide) rfl
theorem reg_enFld3 : IsReg (enFld 3) 199 := isReg_at (t := 3) (k := 37) (by decide) rfl
theorem reg_hostRoFld3 : IsReg (hostRoFld 3) 200 := isReg_at (t := 3) (k := 38) (by decide) rfl
theorem reg_deniedFld3 : IsReg (deniedFld 3) 201 := isReg_at (t := 3) (k := 39) (by decide) rfl
theorem reg_WEIR_CTRL_SPARE : IsReg WEIR_CTRL_SPARE 202 := isReg_at (t := 4) (k := 0) (by decide) rfl
theorem reg_WEIR_WAIT_CYC : IsReg WEIR_WAIT_CYC 203 := isReg_at (t := 4) (k := 1) (by decide) rfl
theorem reg_WEIR_CFG_RATE : IsReg WEIR_CFG_RATE 204 := isReg_at (t := 4) (k := 2) (by decide) rfl
theorem reg_WEIR_CFG_BURST : IsReg WEIR_CFG_BURST 205 := isReg_at (t := 4) (k := 3) (by decide) rfl
theorem reg_WEIR_LVL : IsReg WEIR_LVL 206 := isReg_at (t := 4) (k := 4) (by decide) rfl
theorem reg_WEIR_PARTMAP : IsReg WEIR_PARTMAP 207 := isReg_at (t := 4) (k := 5) (by decide) rfl
theorem reg_pendFld4 : IsReg (pendFld 4) 208 := isReg_at (t := 4) (k := 6) (by decide) rfl
theorem reg_enFld4 : IsReg (enFld 4) 209 := isReg_at (t := 4) (k := 7) (by decide) rfl
theorem reg_hostRoFld4 : IsReg (hostRoFld 4) 210 := isReg_at (t := 4) (k := 8) (by decide) rfl
theorem reg_deniedFld4 : IsReg (deniedFld 4) 211 := isReg_at (t := 4) (k := 9) (by decide) rfl
theorem reg_SLUICE_DECISIONS : IsReg SLUICE_DECISIONS 212 := isReg_at (t := 5) (k := 0) (by decide) rfl
theorem reg_SLUICE_PINNED_CNT : IsReg SLUICE_PINNED_CNT 213 := isReg_at (t := 5) (k := 1) (by decide) rfl
theorem reg_SLUICE_NOW : IsReg SLUICE_NOW 214 := isReg_at (t := 5) (k := 2) (by decide) rfl
theorem reg_SLUICE_REQ_CFG_BURST_M1 : IsReg SLUICE_REQ_CFG_BURST_M1 215 := isReg_at (t := 5) (k := 3) (by decide) rfl
theorem reg_SLUICE_REQ_CFG_BUDGET : IsReg SLUICE_REQ_CFG_BUDGET 216 := isReg_at (t := 5) (k := 4) (by decide) rfl
theorem reg_SLUICE_GRANT_CNT : IsReg SLUICE_GRANT_CNT 217 := isReg_at (t := 5) (k := 5) (by decide) rfl
theorem reg_SLUICE_WAIT_CYC : IsReg SLUICE_WAIT_CYC 218 := isReg_at (t := 5) (k := 6) (by decide) rfl
theorem reg_SLUICE_MAX_WAIT : IsReg SLUICE_MAX_WAIT 219 := isReg_at (t := 5) (k := 7) (by decide) rfl
theorem reg_SLUICE_MISS_CNT : IsReg SLUICE_MISS_CNT 220 := isReg_at (t := 5) (k := 8) (by decide) rfl
theorem reg_pendFld5 : IsReg (pendFld 5) 221 := isReg_at (t := 5) (k := 9) (by decide) rfl
theorem reg_enFld5 : IsReg (enFld 5) 222 := isReg_at (t := 5) (k := 10) (by decide) rfl
theorem reg_hostRoFld5 : IsReg (hostRoFld 5) 223 := isReg_at (t := 5) (k := 11) (by decide) rfl
theorem reg_deniedFld5 : IsReg (deniedFld 5) 224 := isReg_at (t := 5) (k := 12) (by decide) rfl
theorem reg_SYNC_ERR_INFO_CODE : IsReg SYNC_ERR_INFO_CODE 225 := isReg_at (t := 6) (k := 0) (by decide) rfl
theorem reg_SYNC_ERR_INFO_CLUSTER : IsReg SYNC_ERR_INFO_CLUSTER 226 := isReg_at (t := 6) (k := 1) (by decide) rfl
theorem reg_SYNC_SIGNALS : IsReg SYNC_SIGNALS 227 := isReg_at (t := 6) (k := 2) (by decide) rfl
theorem reg_SYNC_WAITS_DONE : IsReg SYNC_WAITS_DONE 228 := isReg_at (t := 6) (k := 3) (by decide) rfl
theorem reg_SYNC_BAR_RELEASE : IsReg SYNC_BAR_RELEASE 229 := isReg_at (t := 6) (k := 4) (by decide) rfl
theorem reg_SYNC_ABANDONED_CNT : IsReg SYNC_ABANDONED_CNT 230 := isReg_at (t := 6) (k := 5) (by decide) rfl
theorem reg_SYNC_STALE_SIG_CNT : IsReg SYNC_STALE_SIG_CNT 231 := isReg_at (t := 6) (k := 6) (by decide) rfl
theorem reg_SYNC_SAT_CNT : IsReg SYNC_SAT_CNT 232 := isReg_at (t := 6) (k := 7) (by decide) rfl
theorem reg_SYNC_WAIT_FULL_CYC : IsReg SYNC_WAIT_FULL_CYC 233 := isReg_at (t := 6) (k := 8) (by decide) rfl
theorem reg_SYNC_DBG_SET_CNT : IsReg SYNC_DBG_SET_CNT 234 := isReg_at (t := 6) (k := 9) (by decide) rfl
theorem reg_SYNC_FLAG_OWN_OWNER : IsReg SYNC_FLAG_OWN_OWNER 235 := isReg_at (t := 6) (k := 10) (by decide) rfl
theorem reg_SYNC_FLAG_OWN_VALID : IsReg SYNC_FLAG_OWN_VALID 236 := isReg_at (t := 6) (k := 11) (by decide) rfl
theorem reg_SYNC_BAR_CFG_N : IsReg SYNC_BAR_CFG_N 237 := isReg_at (t := 6) (k := 12) (by decide) rfl
theorem reg_SYNC_BAR_CFG_OWNER : IsReg SYNC_BAR_CFG_OWNER 238 := isReg_at (t := 6) (k := 13) (by decide) rfl
theorem reg_SYNC_BAR_CFG_VALID : IsReg SYNC_BAR_CFG_VALID 239 := isReg_at (t := 6) (k := 14) (by decide) rfl
theorem reg_SYNC_EPOCH : IsReg SYNC_EPOCH 240 := isReg_at (t := 6) (k := 15) (by decide) rfl
theorem reg_SYNC_PEEK_SEL_OBJ : IsReg SYNC_PEEK_SEL_OBJ 241 := isReg_at (t := 6) (k := 16) (by decide) rfl
theorem reg_SYNC_PEEK_SEL_KIND : IsReg SYNC_PEEK_SEL_KIND 242 := isReg_at (t := 6) (k := 17) (by decide) rfl
theorem reg_SYNC_PEEK_DATA : IsReg SYNC_PEEK_DATA 243 := isReg_at (t := 6) (k := 18) (by decide) rfl
theorem reg_SYNC_PEEK_DATA_OVF : IsReg SYNC_PEEK_DATA_OVF 244 := isReg_at (t := 6) (k := 19) (by decide) rfl
theorem reg_SYNC_PEEK_DATA_GEN : IsReg SYNC_PEEK_DATA_GEN 245 := isReg_at (t := 6) (k := 20) (by decide) rfl
theorem reg_SYNC_PEEK_DATA_WAITERS : IsReg SYNC_PEEK_DATA_WAITERS 246 := isReg_at (t := 6) (k := 21) (by decide) rfl
theorem reg_SYNC_DBG_SET : IsReg SYNC_DBG_SET 247 := isReg_at (t := 6) (k := 22) (by decide) rfl
theorem reg_SYNC_DBG_SET_KIND : IsReg SYNC_DBG_SET_KIND 248 := isReg_at (t := 6) (k := 23) (by decide) rfl
theorem reg_SYNC_DBG_SET_OBJ : IsReg SYNC_DBG_SET_OBJ 249 := isReg_at (t := 6) (k := 24) (by decide) rfl
theorem reg_pendFld6 : IsReg (pendFld 6) 250 := isReg_at (t := 6) (k := 25) (by decide) rfl
theorem reg_enFld6 : IsReg (enFld 6) 251 := isReg_at (t := 6) (k := 26) (by decide) rfl
theorem reg_hostRoFld6 : IsReg (hostRoFld 6) 252 := isReg_at (t := 6) (k := 27) (by decide) rfl
theorem reg_deniedFld6 : IsReg (deniedFld 6) 253 := isReg_at (t := 6) (k := 28) (by decide) rfl
theorem reg_LINK_CTRL_EN : IsReg LINK_CTRL_EN 254 := isReg_at (t := 7) (k := 0) (by decide) rfl
theorem reg_LINK_CTRL_AUTO_RETRAIN : IsReg LINK_CTRL_AUTO_RETRAIN 255 := isReg_at (t := 7) (k := 1) (by decide) rfl
theorem reg_LINK_CTRL_AUTO_FAILBACK : IsReg LINK_CTRL_AUTO_FAILBACK 256 := isReg_at (t := 7) (k := 2) (by decide) rfl
theorem reg_LINK_CTRL_CONFIRM : IsReg LINK_CTRL_CONFIRM 257 := isReg_at (t := 7) (k := 3) (by decide) rfl
theorem reg_LINK_CTRL_RECHECK : IsReg LINK_CTRL_RECHECK 258 := isReg_at (t := 7) (k := 4) (by decide) rfl
theorem reg_LINK_CTRL_RESTORE : IsReg LINK_CTRL_RESTORE 259 := isReg_at (t := 7) (k := 5) (by decide) rfl
theorem reg_LINK_CTRL_FORCE_DOWN : IsReg LINK_CTRL_FORCE_DOWN 260 := isReg_at (t := 7) (k := 6) (by decide) rfl
theorem reg_LINK_STAT_STATE : IsReg LINK_STAT_STATE 261 := isReg_at (t := 7) (k := 7) (by decide) rfl
theorem reg_LINK_STAT_REASON : IsReg LINK_STAT_REASON 262 := isReg_at (t := 7) (k := 8) (by decide) rfl
theorem reg_LINK_STAT_DETOUR : IsReg LINK_STAT_DETOUR 263 := isReg_at (t := 7) (k := 9) (by decide) rfl
theorem reg_LINK_STAT_MIS : IsReg LINK_STAT_MIS 264 := isReg_at (t := 7) (k := 10) (by decide) rfl
theorem reg_LINK_STAT_REV : IsReg LINK_STAT_REV 265 := isReg_at (t := 7) (k := 11) (by decide) rfl
theorem reg_LINK_TX_FRAMES : IsReg LINK_TX_FRAMES 266 := isReg_at (t := 7) (k := 12) (by decide) rfl
theorem reg_LINK_RX_FRAMES : IsReg LINK_RX_FRAMES 267 := isReg_at (t := 7) (k := 13) (by decide) rfl
theorem reg_LINK_RX_DISCARD : IsReg LINK_RX_DISCARD 268 := isReg_at (t := 7) (k := 14) (by decide) rfl
theorem reg_LINK_REPLAYS : IsReg LINK_REPLAYS 269 := isReg_at (t := 7) (k := 15) (by decide) rfl
theorem reg_LINK_REPLAY_FRAMES : IsReg LINK_REPLAY_FRAMES 270 := isReg_at (t := 7) (k := 16) (by decide) rfl
theorem reg_LINK_FEC_CORR : IsReg LINK_FEC_CORR 271 := isReg_at (t := 7) (k := 17) (by decide) rfl
theorem reg_LINK_FEC_UNCORR : IsReg LINK_FEC_UNCORR 272 := isReg_at (t := 7) (k := 18) (by decide) rfl
theorem reg_LINK_DEATHS : IsReg LINK_DEATHS 273 := isReg_at (t := 7) (k := 19) (by decide) rfl
theorem reg_LINK_DUP_DROP : IsReg LINK_DUP_DROP 274 := isReg_at (t := 7) (k := 20) (by decide) rfl
theorem reg_LINK_HOLD_CNT : IsReg LINK_HOLD_CNT 275 := isReg_at (t := 7) (k := 21) (by decide) rfl
theorem reg_LINK_STREAM_BREAK : IsReg LINK_STREAM_BREAK 276 := isReg_at (t := 7) (k := 22) (by decide) rfl
theorem reg_LINK_TRANSIT : IsReg LINK_TRANSIT 277 := isReg_at (t := 7) (k := 23) (by decide) rfl
theorem reg_LINK_DETOUR_FRAMES : IsReg LINK_DETOUR_FRAMES 278 := isReg_at (t := 7) (k := 24) (by decide) rfl
theorem reg_LINK_CTX_DROP : IsReg LINK_CTX_DROP 279 := isReg_at (t := 7) (k := 25) (by decide) rfl
theorem reg_LINK_TOPO_SER_LO : IsReg LINK_TOPO_SER_LO 280 := isReg_at (t := 7) (k := 26) (by decide) rfl
theorem reg_LINK_TOPO_SER_HI : IsReg LINK_TOPO_SER_HI 281 := isReg_at (t := 7) (k := 27) (by decide) rfl
theorem reg_LINK_TOPO_PEER_BOARD : IsReg LINK_TOPO_PEER_BOARD 282 := isReg_at (t := 7) (k := 28) (by decide) rfl
theorem reg_LINK_TOPO_PEER_POS : IsReg LINK_TOPO_PEER_POS 283 := isReg_at (t := 7) (k := 29) (by decide) rfl
theorem reg_LINK_TOPO_PEER_PORT : IsReg LINK_TOPO_PEER_PORT 284 := isReg_at (t := 7) (k := 30) (by decide) rfl
theorem reg_LINK_TOPO_PEER_ROLE : IsReg LINK_TOPO_PEER_ROLE 285 := isReg_at (t := 7) (k := 31) (by decide) rfl
theorem reg_LINK_RETRY_CFG_ACK_TMO : IsReg LINK_RETRY_CFG_ACK_TMO 286 := isReg_at (t := 7) (k := 32) (by decide) rfl
theorem reg_LINK_RETRY_CFG_RETRY_LIMIT : IsReg LINK_RETRY_CFG_RETRY_LIMIT 287 := isReg_at (t := 7) (k := 33) (by decide) rfl
theorem reg_LINK_HOLD_HOLD_US : IsReg LINK_HOLD_HOLD_US 288 := isReg_at (t := 7) (k := 34) (by decide) rfl
theorem reg_LINK_RETRAIN_RETRAIN_MS : IsReg LINK_RETRAIN_RETRAIN_MS 289 := isReg_at (t := 7) (k := 35) (by decide) rfl
theorem reg_LINK_REV_CFG_REV_MIN : IsReg LINK_REV_CFG_REV_MIN 290 := isReg_at (t := 7) (k := 36) (by decide) rfl
theorem reg_LINK_REV_CFG_REV_MAX : IsReg LINK_REV_CFG_REV_MAX 291 := isReg_at (t := 7) (k := 37) (by decide) rfl
theorem reg_LINK_VC_CRED_VC0 : IsReg LINK_VC_CRED_VC0 292 := isReg_at (t := 7) (k := 38) (by decide) rfl
theorem reg_LINK_VC_CRED_VC1 : IsReg LINK_VC_CRED_VC1 293 := isReg_at (t := 7) (k := 39) (by decide) rfl
theorem reg_LINK_VC_CRED_VC2 : IsReg LINK_VC_CRED_VC2 294 := isReg_at (t := 7) (k := 40) (by decide) rfl
theorem reg_LINK_PEER_SER_LO : IsReg LINK_PEER_SER_LO 295 := isReg_at (t := 7) (k := 41) (by decide) rfl
theorem reg_LINK_PEER_SER_HI : IsReg LINK_PEER_SER_HI 296 := isReg_at (t := 7) (k := 42) (by decide) rfl
theorem reg_LINK_PEER_ID : IsReg LINK_PEER_ID 297 := isReg_at (t := 7) (k := 43) (by decide) rfl
theorem reg_LINK_PEER_FW : IsReg LINK_PEER_FW 298 := isReg_at (t := 7) (k := 44) (by decide) rfl
theorem reg_LINK_PEER_REV_REV_MIN : IsReg LINK_PEER_REV_REV_MIN 299 := isReg_at (t := 7) (k := 45) (by decide) rfl
theorem reg_LINK_PEER_REV_REV_MAX : IsReg LINK_PEER_REV_REV_MAX 300 := isReg_at (t := 7) (k := 46) (by decide) rfl
theorem reg_LINK_SELF_BOARD : IsReg LINK_SELF_BOARD 301 := isReg_at (t := 7) (k := 47) (by decide) rfl
theorem reg_LINK_ERR_INFO_REASON : IsReg LINK_ERR_INFO_REASON 302 := isReg_at (t := 7) (k := 48) (by decide) rfl
theorem reg_LINK_ERR_INFO_LSEQ : IsReg LINK_ERR_INFO_LSEQ 303 := isReg_at (t := 7) (k := 49) (by decide) rfl
theorem reg_LINK_ERR_INFO_CONFIRM : IsReg LINK_ERR_INFO_CONFIRM 304 := isReg_at (t := 7) (k := 50) (by decide) rfl
theorem reg_pendFld7 : IsReg (pendFld 7) 305 := isReg_at (t := 7) (k := 51) (by decide) rfl
theorem reg_enFld7 : IsReg (enFld 7) 306 := isReg_at (t := 7) (k := 52) (by decide) rfl
theorem reg_hostRoFld7 : IsReg (hostRoFld 7) 307 := isReg_at (t := 7) (k := 53) (by decide) rfl
theorem reg_deniedFld7 : IsReg (deniedFld 7) 308 := isReg_at (t := 7) (k := 54) (by decide) rfl
theorem reg_COLL_CTRL_EN : IsReg COLL_CTRL_EN 309 := isReg_at (t := 8) (k := 0) (by decide) rfl
theorem reg_COLL_ERR_INFO_CODE : IsReg COLL_ERR_INFO_CODE 310 := isReg_at (t := 8) (k := 1) (by decide) rfl
theorem reg_COLL_ERR_INFO_CONTEXT : IsReg COLL_ERR_INFO_CONTEXT 311 := isReg_at (t := 8) (k := 2) (by decide) rfl
theorem reg_COLL_XFER_DONE : IsReg COLL_XFER_DONE 312 := isReg_at (t := 8) (k := 3) (by decide) rfl
theorem reg_COLL_STALE_REJ : IsReg COLL_STALE_REJ 313 := isReg_at (t := 8) (k := 4) (by decide) rfl
theorem reg_COLL_ABSENT_SRC : IsReg COLL_ABSENT_SRC 314 := isReg_at (t := 8) (k := 5) (by decide) rfl
theorem reg_COLL_CARRY_ADD : IsReg COLL_CARRY_ADD 315 := isReg_at (t := 8) (k := 6) (by decide) rfl
theorem reg_COLL_CARRY_DROP : IsReg COLL_CARRY_DROP 316 := isReg_at (t := 8) (k := 7) (by decide) rfl
theorem reg_COLL_RETRY_XFER : IsReg COLL_RETRY_XFER 317 := isReg_at (t := 8) (k := 8) (by decide) rfl
theorem reg_COLL_DUP_TURN : IsReg COLL_DUP_TURN 318 := isReg_at (t := 8) (k := 9) (by decide) rfl
theorem reg_COLL_EARLY_HCLK : IsReg COLL_EARLY_HCLK 319 := isReg_at (t := 8) (k := 10) (by decide) rfl
theorem reg_COLL_STRAG : IsReg COLL_STRAG 320 := isReg_at (t := 8) (k := 11) (by decide) rfl
theorem reg_COLL_POLICY : IsReg COLL_POLICY 321 := isReg_at (t := 8) (k := 12) (by decide) rfl
theorem reg_COLL_ORIG : IsReg COLL_ORIG 322 := isReg_at (t := 8) (k := 13) (by decide) rfl
theorem reg_COLL_FIN : IsReg COLL_FIN 323 := isReg_at (t := 8) (k := 14) (by decide) rfl
theorem reg_COLL_CARRY_BASE : IsReg COLL_CARRY_BASE 324 := isReg_at (t := 8) (k := 15) (by decide) rfl
theorem reg_COLL_CARRY_SIZE : IsReg COLL_CARRY_SIZE 325 := isReg_at (t := 8) (k := 16) (by decide) rfl
theorem reg_COLL_CTX_PAUSE : IsReg COLL_CTX_PAUSE 326 := isReg_at (t := 8) (k := 17) (by decide) rfl
theorem reg_COLL_DEGRADE_ACTIVE : IsReg COLL_DEGRADE_ACTIVE 327 := isReg_at (t := 8) (k := 18) (by decide) rfl
theorem reg_COLL_DEGRADE_LOST_POS : IsReg COLL_DEGRADE_LOST_POS 328 := isReg_at (t := 8) (k := 19) (by decide) rfl
theorem reg_COLL_DEGRADE_PREV_ACTIVE : IsReg COLL_DEGRADE_PREV_ACTIVE 329 := isReg_at (t := 8) (k := 20) (by decide) rfl
theorem reg_COLL_DEGRADE_PREV_POS : IsReg COLL_DEGRADE_PREV_POS 330 := isReg_at (t := 8) (k := 21) (by decide) rfl
theorem reg_COLL_DEGRADE_NEXT_ACTIVE : IsReg COLL_DEGRADE_NEXT_ACTIVE 331 := isReg_at (t := 8) (k := 22) (by decide) rfl
theorem reg_COLL_DEGRADE_NEXT_POS : IsReg COLL_DEGRADE_NEXT_POS 332 := isReg_at (t := 8) (k := 23) (by decide) rfl
theorem reg_COLL_DEGRADE_STANDIN : IsReg COLL_DEGRADE_STANDIN 333 := isReg_at (t := 8) (k := 24) (by decide) rfl
theorem reg_COLL_DEGRADE_SERVING : IsReg COLL_DEGRADE_SERVING 334 := isReg_at (t := 8) (k := 25) (by decide) rfl
theorem reg_COLL_LAST_ABSENT_COLL_ID : IsReg COLL_LAST_ABSENT_COLL_ID 335 := isReg_at (t := 8) (k := 26) (by decide) rfl
theorem reg_COLL_LAST_ABSENT_ABSENT : IsReg COLL_LAST_ABSENT_ABSENT 336 := isReg_at (t := 8) (k := 27) (by decide) rfl
theorem reg_COLL_FRAME_BUDGET_CULVERT : IsReg COLL_FRAME_BUDGET_CULVERT 337 := isReg_at (t := 8) (k := 28) (by decide) rfl
theorem reg_COLL_FRAME_BUDGET_PEER : IsReg COLL_FRAME_BUDGET_PEER 338 := isReg_at (t := 8) (k := 29) (by decide) rfl
theorem reg_pendFld8 : IsReg (pendFld 8) 339 := isReg_at (t := 8) (k := 30) (by decide) rfl
theorem reg_enFld8 : IsReg (enFld 8) 340 := isReg_at (t := 8) (k := 31) (by decide) rfl
theorem reg_hostRoFld8 : IsReg (hostRoFld 8) 341 := isReg_at (t := 8) (k := 32) (by decide) rfl
theorem reg_deniedFld8 : IsReg (deniedFld 8) 342 := isReg_at (t := 8) (k := 33) (by decide) rfl
theorem reg_CULVERT_ACKS : IsReg CULVERT_ACKS 343 := isReg_at (t := 9) (k := 0) (by decide) rfl
theorem reg_CULVERT_NACKS : IsReg CULVERT_NACKS 344 := isReg_at (t := 9) (k := 1) (by decide) rfl
theorem reg_CULVERT_RESENDS : IsReg CULVERT_RESENDS 345 := isReg_at (t := 9) (k := 2) (by decide) rfl
theorem reg_CULVERT_AUDIT_BLK : IsReg CULVERT_AUDIT_BLK 346 := isReg_at (t := 9) (k := 3) (by decide) rfl
theorem reg_CULVERT_AUDIT_SKIP : IsReg CULVERT_AUDIT_SKIP 347 := isReg_at (t := 9) (k := 4) (by decide) rfl
theorem reg_CULVERT_AUDIT_ABORT : IsReg CULVERT_AUDIT_ABORT 348 := isReg_at (t := 9) (k := 5) (by decide) rfl
theorem reg_CULVERT_REPAIR_OWNER : IsReg CULVERT_REPAIR_OWNER 349 := isReg_at (t := 9) (k := 6) (by decide) rfl
theorem reg_CULVERT_REPAIR_TWIN : IsReg CULVERT_REPAIR_TWIN 350 := isReg_at (t := 9) (k := 7) (by decide) rfl
theorem reg_CULVERT_TABLE_FIX : IsReg CULVERT_TABLE_FIX 351 := isReg_at (t := 9) (k := 8) (by decide) rfl
theorem reg_CULVERT_SUSPECT_CNT : IsReg CULVERT_SUSPECT_CNT 352 := isReg_at (t := 9) (k := 9) (by decide) rfl
theorem reg_CULVERT_CFG_AUDIT_STEPS : IsReg CULVERT_CFG_AUDIT_STEPS 353 := isReg_at (t := 9) (k := 10) (by decide) rfl
theorem reg_CULVERT_CFG_RESEND_LIMIT : IsReg CULVERT_CFG_RESEND_LIMIT 354 := isReg_at (t := 9) (k := 11) (by decide) rfl
theorem reg_CULVERT_CFG_CTX : IsReg CULVERT_CFG_CTX 355 := isReg_at (t := 9) (k := 12) (by decide) rfl
theorem reg_CULVERT_TWIN_BASE : IsReg CULVERT_TWIN_BASE 356 := isReg_at (t := 9) (k := 13) (by decide) rfl
theorem reg_CULVERT_TWIN_COUNT : IsReg CULVERT_TWIN_COUNT 357 := isReg_at (t := 9) (k := 14) (by decide) rfl
theorem reg_CULVERT_TCHK_BASE : IsReg CULVERT_TCHK_BASE 358 := isReg_at (t := 9) (k := 15) (by decide) rfl
theorem reg_CULVERT_AUDIT_GBI : IsReg CULVERT_AUDIT_GBI 359 := isReg_at (t := 9) (k := 16) (by decide) rfl
theorem reg_CULVERT_SUSPECT : IsReg CULVERT_SUSPECT 360 := isReg_at (t := 9) (k := 17) (by decide) rfl
theorem reg_CULVERT_SUSPECT_INFO_BUF : IsReg CULVERT_SUSPECT_INFO_BUF 361 := isReg_at (t := 9) (k := 18) (by decide) rfl
theorem reg_CULVERT_SUSPECT_INFO_OUTCOME : IsReg CULVERT_SUSPECT_INFO_OUTCOME 362 := isReg_at (t := 9) (k := 19) (by decide) rfl
theorem reg_CULVERT_SUSPECT_INFO_TILE : IsReg CULVERT_SUSPECT_INFO_TILE 363 := isReg_at (t := 9) (k := 20) (by decide) rfl
theorem reg_CULVERT_RESOLVE : IsReg CULVERT_RESOLVE 364 := isReg_at (t := 9) (k := 21) (by decide) rfl
theorem reg_CULVERT_RESOLVE_ACT : IsReg CULVERT_RESOLVE_ACT 365 := isReg_at (t := 9) (k := 22) (by decide) rfl
theorem reg_CULVERT_ERR_INFO_CODE : IsReg CULVERT_ERR_INFO_CODE 366 := isReg_at (t := 9) (k := 23) (by decide) rfl
theorem reg_CULVERT_ERR_INFO_RECORD : IsReg CULVERT_ERR_INFO_RECORD 367 := isReg_at (t := 9) (k := 24) (by decide) rfl
theorem reg_pendFld9 : IsReg (pendFld 9) 368 := isReg_at (t := 9) (k := 25) (by decide) rfl
theorem reg_enFld9 : IsReg (enFld 9) 369 := isReg_at (t := 9) (k := 26) (by decide) rfl
theorem reg_hostRoFld9 : IsReg (hostRoFld 9) 370 := isReg_at (t := 9) (k := 27) (by decide) rfl
theorem reg_deniedFld9 : IsReg (deniedFld 9) 371 := isReg_at (t := 9) (k := 28) (by decide) rfl
theorem reg_CHECK_CTRL_ALG : IsReg CHECK_CTRL_ALG 372 := isReg_at (t := 10) (k := 0) (by decide) rfl
theorem reg_CHECK_CTRL_INIT : IsReg CHECK_CTRL_INIT 373 := isReg_at (t := 10) (k := 1) (by decide) rfl
theorem reg_CHECK_CTRL_FINAL : IsReg CHECK_CTRL_FINAL 374 := isReg_at (t := 10) (k := 2) (by decide) rfl
theorem reg_CHECK_CTRL_CMP_EN : IsReg CHECK_CTRL_CMP_EN 375 := isReg_at (t := 10) (k := 3) (by decide) rfl
theorem reg_CHECK_STAT_BUSY : IsReg CHECK_STAT_BUSY 376 := isReg_at (t := 10) (k := 4) (by decide) rfl
theorem reg_CHECK_STAT_LEVEL : IsReg CHECK_STAT_LEVEL 377 := isReg_at (t := 10) (k := 5) (by decide) rfl
theorem reg_CHECK_STAT_MATCH : IsReg CHECK_STAT_MATCH 378 := isReg_at (t := 10) (k := 6) (by decide) rfl
theorem reg_CHECK_BYTES : IsReg CHECK_BYTES 379 := isReg_at (t := 10) (k := 7) (by decide) rfl
theorem reg_CHECK_FINALS : IsReg CHECK_FINALS 380 := isReg_at (t := 10) (k := 8) (by decide) rfl
theorem reg_CHECK_MISMATCH_CNT : IsReg CHECK_MISMATCH_CNT 381 := isReg_at (t := 10) (k := 9) (by decide) rfl
theorem reg_CHECK_DATA_B : IsReg CHECK_DATA_B 382 := isReg_at (t := 10) (k := 10) (by decide) rfl
theorem reg_CHECK_DATA_H : IsReg CHECK_DATA_H 383 := isReg_at (t := 10) (k := 11) (by decide) rfl
theorem reg_CHECK_DATA_W : IsReg CHECK_DATA_W 384 := isReg_at (t := 10) (k := 12) (by decide) rfl
theorem reg_CHECK_RUN_LO : IsReg CHECK_RUN_LO 385 := isReg_at (t := 10) (k := 13) (by decide) rfl
theorem reg_CHECK_RUN_HI : IsReg CHECK_RUN_HI 386 := isReg_at (t := 10) (k := 14) (by decide) rfl
theorem reg_CHECK_EXP_LO : IsReg CHECK_EXP_LO 387 := isReg_at (t := 10) (k := 15) (by decide) rfl
theorem reg_CHECK_EXP_HI : IsReg CHECK_EXP_HI 388 := isReg_at (t := 10) (k := 16) (by decide) rfl
theorem reg_CHECK_RES_LO : IsReg CHECK_RES_LO 389 := isReg_at (t := 10) (k := 17) (by decide) rfl
theorem reg_CHECK_RES_HI : IsReg CHECK_RES_HI 390 := isReg_at (t := 10) (k := 18) (by decide) rfl
theorem reg_pendFld10 : IsReg (pendFld 10) 391 := isReg_at (t := 10) (k := 19) (by decide) rfl
theorem reg_enFld10 : IsReg (enFld 10) 392 := isReg_at (t := 10) (k := 20) (by decide) rfl
theorem reg_hostRoFld10 : IsReg (hostRoFld 10) 393 := isReg_at (t := 10) (k := 21) (by decide) rfl
theorem reg_deniedFld10 : IsReg (deniedFld 10) 394 := isReg_at (t := 10) (k := 22) (by decide) rfl
theorem reg_HOSTIF_JRN_BASE : IsReg HOSTIF_JRN_BASE 395 := isReg_at (t := 11) (k := 0) (by decide) rfl
theorem reg_HOSTIF_JRN_CFG_LOG2_SIZE : IsReg HOSTIF_JRN_CFG_LOG2_SIZE 396 := isReg_at (t := 11) (k := 1) (by decide) rfl
theorem reg_HOSTIF_JRN_CFG_EN : IsReg HOSTIF_JRN_CFG_EN 397 := isReg_at (t := 11) (k := 2) (by decide) rfl
theorem reg_HOSTIF_JRN_CFG_DRAIN : IsReg HOSTIF_JRN_CFG_DRAIN 398 := isReg_at (t := 11) (k := 3) (by decide) rfl
theorem reg_HOSTIF_JRN_WR : IsReg HOSTIF_JRN_WR 399 := isReg_at (t := 11) (k := 4) (by decide) rfl
theorem reg_HOSTIF_JRN_DR : IsReg HOSTIF_JRN_DR 400 := isReg_at (t := 11) (k := 5) (by decide) rfl
theorem reg_HOSTIF_JRN_HOST_LO : IsReg HOSTIF_JRN_HOST_LO 401 := isReg_at (t := 11) (k := 6) (by decide) rfl
theorem reg_HOSTIF_JRN_HOST_HI : IsReg HOSTIF_JRN_HOST_HI 402 := isReg_at (t := 11) (k := 7) (by decide) rfl
theorem reg_HOSTIF_JRN_HOST_CFG_LOG2_SIZE : IsReg HOSTIF_JRN_HOST_CFG_LOG2_SIZE 403 := isReg_at (t := 11) (k := 8) (by decide) rfl
theorem reg_HOSTIF_JRN_HOST_TAIL : IsReg HOSTIF_JRN_HOST_TAIL 404 := isReg_at (t := 11) (k := 9) (by decide) rfl
theorem reg_HOSTIF_JRN_SEQ : IsReg HOSTIF_JRN_SEQ 405 := isReg_at (t := 11) (k := 10) (by decide) rfl
theorem reg_HOSTIF_RPL_BASE : IsReg HOSTIF_RPL_BASE 406 := isReg_at (t := 11) (k := 11) (by decide) rfl
theorem reg_HOSTIF_RPL_CFG_LOG2_SIZE : IsReg HOSTIF_RPL_CFG_LOG2_SIZE 407 := isReg_at (t := 11) (k := 12) (by decide) rfl
theorem reg_HOSTIF_RPL_CFG_EN : IsReg HOSTIF_RPL_CFG_EN 408 := isReg_at (t := 11) (k := 13) (by decide) rfl
theorem reg_HOSTIF_RPL_WR : IsReg HOSTIF_RPL_WR 409 := isReg_at (t := 11) (k := 14) (by decide) rfl
theorem reg_HOSTIF_RPL_RD : IsReg HOSTIF_RPL_RD 410 := isReg_at (t := 11) (k := 15) (by decide) rfl
theorem reg_HOSTIF_RPL_STEP : IsReg HOSTIF_RPL_STEP 411 := isReg_at (t := 11) (k := 16) (by decide) rfl
theorem reg_HOSTIF_PEER_WIN_BASE : IsReg HOSTIF_PEER_WIN_BASE 412 := isReg_at (t := 11) (k := 17) (by decide) rfl
theorem reg_HOSTIF_PEER_WIN_MIB : IsReg HOSTIF_PEER_WIN_MIB 413 := isReg_at (t := 11) (k := 18) (by decide) rfl
theorem reg_HOSTIF_BAR2_FAULT_CNT : IsReg HOSTIF_BAR2_FAULT_CNT 414 := isReg_at (t := 11) (k := 19) (by decide) rfl
theorem reg_HOSTIF_DENIED_CNT : IsReg HOSTIF_DENIED_CNT 415 := isReg_at (t := 11) (k := 20) (by decide) rfl
theorem reg_HOSTIF_BAR2_BASE : IsReg HOSTIF_BAR2_BASE 416 := isReg_at (t := 11) (k := 21) (by decide) rfl
theorem reg_HOSTIF_BAR2_CTRL_EN : IsReg HOSTIF_BAR2_CTRL_EN 417 := isReg_at (t := 11) (k := 22) (by decide) rfl
theorem reg_HOSTIF_CTX_PRIO_PRIO : IsReg HOSTIF_CTX_PRIO_PRIO 418 := isReg_at (t := 11) (k := 23) (by decide) rfl
theorem reg_HOSTIF_CTX_PRIO_PREEMPTED : IsReg HOSTIF_CTX_PRIO_PREEMPTED 419 := isReg_at (t := 11) (k := 24) (by decide) rfl
theorem reg_HOSTIF_LINK_STAT_SPEED : IsReg HOSTIF_LINK_STAT_SPEED 420 := isReg_at (t := 11) (k := 25) (by decide) rfl
theorem reg_HOSTIF_LINK_STAT_WIDTH : IsReg HOSTIF_LINK_STAT_WIDTH 421 := isReg_at (t := 11) (k := 26) (by decide) rfl
theorem reg_HOSTIF_LINK_STAT_FLIT : IsReg HOSTIF_LINK_STAT_FLIT 422 := isReg_at (t := 11) (k := 27) (by decide) rfl
theorem reg_HOSTIF_ERR_INFO_FUNCTION : IsReg HOSTIF_ERR_INFO_FUNCTION 423 := isReg_at (t := 11) (k := 28) (by decide) rfl
theorem reg_HOSTIF_ERR_INFO_EVENT : IsReg HOSTIF_ERR_INFO_EVENT 424 := isReg_at (t := 11) (k := 29) (by decide) rfl
theorem reg_HOSTIF_CTX_EVT_EVT : IsReg HOSTIF_CTX_EVT_EVT 425 := isReg_at (t := 11) (k := 30) (by decide) rfl
theorem reg_pendFld11 : IsReg (pendFld 11) 426 := isReg_at (t := 11) (k := 31) (by decide) rfl
theorem reg_enFld11 : IsReg (enFld 11) 427 := isReg_at (t := 11) (k := 32) (by decide) rfl
theorem reg_hostRoFld11 : IsReg (hostRoFld 11) 428 := isReg_at (t := 11) (k := 33) (by decide) rfl
theorem reg_deniedFld11 : IsReg (deniedFld 11) 429 := isReg_at (t := 11) (k := 34) (by decide) rfl
theorem reg_CQ_ACCEPTED : IsReg CQ_ACCEPTED 430 := isReg_at (t := 12) (k := 0) (by decide) rfl
theorem reg_CQ_COMPLETED : IsReg CQ_COMPLETED 431 := isReg_at (t := 12) (k := 1) (by decide) rfl
theorem reg_CQ_STALE_CNT : IsReg CQ_STALE_CNT 432 := isReg_at (t := 12) (k := 2) (by decide) rfl
theorem reg_CQ_CQ_FULL_HCLK : IsReg CQ_CQ_FULL_HCLK 433 := isReg_at (t := 12) (k := 3) (by decide) rfl
theorem reg_CQ_SLOTS_USED : IsReg CQ_SLOTS_USED 434 := isReg_at (t := 12) (k := 4) (by decide) rfl
theorem reg_CQ_SQ_BASE_LO : IsReg CQ_SQ_BASE_LO 435 := isReg_at (t := 12) (k := 5) (by decide) rfl
theorem reg_CQ_SQ_BASE_HI : IsReg CQ_SQ_BASE_HI 436 := isReg_at (t := 12) (k := 6) (by decide) rfl
theorem reg_CQ_SQ_CFG_LOG2_ENTRIES : IsReg CQ_SQ_CFG_LOG2_ENTRIES 437 := isReg_at (t := 12) (k := 7) (by decide) rfl
theorem reg_CQ_SQ_CFG_EN : IsReg CQ_SQ_CFG_EN 438 := isReg_at (t := 12) (k := 8) (by decide) rfl
theorem reg_CQ_SQ_TAIL : IsReg CQ_SQ_TAIL 439 := isReg_at (t := 12) (k := 9) (by decide) rfl
theorem reg_CQ_SQ_HEAD : IsReg CQ_SQ_HEAD 440 := isReg_at (t := 12) (k := 10) (by decide) rfl
theorem reg_CQ_CQ_BASE_LO : IsReg CQ_CQ_BASE_LO 441 := isReg_at (t := 12) (k := 11) (by decide) rfl
theorem reg_CQ_CQ_BASE_HI : IsReg CQ_CQ_BASE_HI 442 := isReg_at (t := 12) (k := 12) (by decide) rfl
theorem reg_CQ_CQ_CFG_LOG2_ENTRIES : IsReg CQ_CQ_CFG_LOG2_ENTRIES 443 := isReg_at (t := 12) (k := 13) (by decide) rfl
theorem reg_CQ_CQ_CFG_EN : IsReg CQ_CQ_CFG_EN 444 := isReg_at (t := 12) (k := 14) (by decide) rfl
theorem reg_CQ_CQ_CFG_COAL_CNT : IsReg CQ_CQ_CFG_COAL_CNT 445 := isReg_at (t := 12) (k := 15) (by decide) rfl
theorem reg_CQ_CQ_CFG_COAL_US : IsReg CQ_CQ_CFG_COAL_US 446 := isReg_at (t := 12) (k := 16) (by decide) rfl
theorem reg_CQ_CQ_HEAD : IsReg CQ_CQ_HEAD 447 := isReg_at (t := 12) (k := 17) (by decide) rfl
theorem reg_CQ_CQ_TAIL : IsReg CQ_CQ_TAIL 448 := isReg_at (t := 12) (k := 18) (by decide) rfl
theorem reg_CQ_ERR_INFO_QUEUE : IsReg CQ_ERR_INFO_QUEUE 449 := isReg_at (t := 12) (k := 19) (by decide) rfl
theorem reg_CQ_ERR_INFO_INDEX : IsReg CQ_ERR_INFO_INDEX 450 := isReg_at (t := 12) (k := 20) (by decide) rfl
theorem reg_pendFld12 : IsReg (pendFld 12) 451 := isReg_at (t := 12) (k := 21) (by decide) rfl
theorem reg_enFld12 : IsReg (enFld 12) 452 := isReg_at (t := 12) (k := 22) (by decide) rfl
theorem reg_hostRoFld12 : IsReg (hostRoFld 12) 453 := isReg_at (t := 12) (k := 23) (by decide) rfl
theorem reg_deniedFld12 : IsReg (deniedFld 12) 454 := isReg_at (t := 12) (k := 24) (by decide) rfl
theorem reg_PWR_CTRL_STATE_REQ : IsReg PWR_CTRL_STATE_REQ 455 := isReg_at (t := 13) (k := 0) (by decide) rfl
theorem reg_PWR_STAT_STATE : IsReg PWR_STAT_STATE 456 := isReg_at (t := 13) (k := 1) (by decide) rfl
theorem reg_PWR_STAT_DIP : IsReg PWR_STAT_DIP 457 := isReg_at (t := 13) (k := 2) (by decide) rfl
theorem reg_PWR_STAT_HOLDOFF : IsReg PWR_STAT_HOLDOFF 458 := isReg_at (t := 13) (k := 3) (by decide) rfl
theorem reg_PWR_STAT_RAIL : IsReg PWR_STAT_RAIL 459 := isReg_at (t := 13) (k := 4) (by decide) rfl
theorem reg_PWR_DIP_CNT : IsReg PWR_DIP_CNT 460 := isReg_at (t := 13) (k := 5) (by decide) rfl
theorem reg_PWR_REVERIFY_TILES : IsReg PWR_REVERIFY_TILES 461 := isReg_at (t := 13) (k := 6) (by decide) rfl
theorem reg_PWR_REVERIFY_FAIL : IsReg PWR_REVERIFY_FAIL 462 := isReg_at (t := 13) (k := 7) (by decide) rfl
theorem reg_PWR_STRETCH_CNT : IsReg PWR_STRETCH_CNT 463 := isReg_at (t := 13) (k := 8) (by decide) rfl
theorem reg_PWR_DOM_REQ : IsReg PWR_DOM_REQ 464 := isReg_at (t := 13) (k := 9) (by decide) rfl
theorem reg_PWR_DOM_STAT : IsReg PWR_DOM_STAT 465 := isReg_at (t := 13) (k := 10) (by decide) rfl
theorem reg_PWR_ISLAND_RST_KIND : IsReg PWR_ISLAND_RST_KIND 466 := isReg_at (t := 13) (k := 11) (by decide) rfl
theorem reg_PWR_ISLAND_RST_ISLAND : IsReg PWR_ISLAND_RST_ISLAND 467 := isReg_at (t := 13) (k := 12) (by decide) rfl
theorem reg_PWR_PORT_RST : IsReg PWR_PORT_RST 468 := isReg_at (t := 13) (k := 13) (by decide) rfl
theorem reg_PWR_CAP : IsReg PWR_CAP 469 := isReg_at (t := 13) (k := 14) (by decide) rfl
theorem reg_PWR_POWER : IsReg PWR_POWER 470 := isReg_at (t := 13) (k := 15) (by decide) rfl
theorem reg_PWR_RAIL_MIN : IsReg PWR_RAIL_MIN 471 := isReg_at (t := 13) (k := 16) (by decide) rfl
theorem reg_PWR_ERR_INFO_DOMAIN : IsReg PWR_ERR_INFO_DOMAIN 472 := isReg_at (t := 13) (k := 17) (by decide) rfl
theorem reg_pendFld13 : IsReg (pendFld 13) 473 := isReg_at (t := 13) (k := 18) (by decide) rfl
theorem reg_enFld13 : IsReg (enFld 13) 474 := isReg_at (t := 13) (k := 19) (by decide) rfl
theorem reg_hostRoFld13 : IsReg (hostRoFld 13) 475 := isReg_at (t := 13) (k := 20) (by decide) rfl
theorem reg_deniedFld13 : IsReg (deniedFld 13) 476 := isReg_at (t := 13) (k := 21) (by decide) rfl
theorem reg_THERM_STEP_DOWN : IsReg THERM_STEP_DOWN 477 := isReg_at (t := 14) (k := 0) (by decide) rfl
theorem reg_THERM_STEP_UP : IsReg THERM_STEP_UP 478 := isReg_at (t := 14) (k := 1) (by decide) rfl
theorem reg_THERM_REGION_TEMP : IsReg THERM_REGION_TEMP 479 := isReg_at (t := 14) (k := 2) (by decide) rfl
theorem reg_THERM_REGION_TSTEP : IsReg THERM_REGION_TSTEP 480 := isReg_at (t := 14) (k := 3) (by decide) rfl
theorem reg_THERM_REGION_CAUSE : IsReg THERM_REGION_CAUSE 481 := isReg_at (t := 14) (k := 4) (by decide) rfl
theorem reg_THERM_CFG_THR_C : IsReg THERM_CFG_THR_C 482 := isReg_at (t := 14) (k := 5) (by decide) rfl
theorem reg_THERM_CFG_HYST_C : IsReg THERM_CFG_HYST_C 483 := isReg_at (t := 14) (k := 6) (by decide) rfl
theorem reg_pendFld14 : IsReg (pendFld 14) 484 := isReg_at (t := 14) (k := 7) (by decide) rfl
theorem reg_enFld14 : IsReg (enFld 14) 485 := isReg_at (t := 14) (k := 8) (by decide) rfl
theorem reg_hostRoFld14 : IsReg (hostRoFld 14) 486 := isReg_at (t := 14) (k := 9) (by decide) rfl
theorem reg_deniedFld14 : IsReg (deniedFld 14) 487 := isReg_at (t := 14) (k := 10) (by decide) rfl
theorem reg_BRKW_CTRL_LOG_CLR : IsReg BRKW_CTRL_LOG_CLR 488 := isReg_at (t := 15) (k := 0) (by decide) rfl
theorem reg_BRKW_CTRL_FORCE_FAULT : IsReg BRKW_CTRL_FORCE_FAULT 489 := isReg_at (t := 15) (k := 1) (by decide) rfl
theorem reg_BRKW_STAT_FAULT : IsReg BRKW_STAT_FAULT 490 := isReg_at (t := 15) (k := 2) (by decide) rfl
theorem reg_BRKW_STAT_CAUSE : IsReg BRKW_STAT_CAUSE 491 := isReg_at (t := 15) (k := 3) (by decide) rfl
theorem reg_BRKW_STAT_LATENT : IsReg BRKW_STAT_LATENT 492 := isReg_at (t := 15) (k := 4) (by decide) rfl
theorem reg_BRKW_STAT_ARMED : IsReg BRKW_STAT_ARMED 493 := isReg_at (t := 15) (k := 5) (by decide) rfl
theorem reg_BRKW_FAULTS : IsReg BRKW_FAULTS 494 := isReg_at (t := 15) (k := 6) (by decide) rfl
theorem reg_BRKW_SEQ_LOCKSTEP_CNT : IsReg BRKW_SEQ_LOCKSTEP_CNT 495 := isReg_at (t := 15) (k := 7) (by decide) rfl
theorem reg_BRKW_RESIDUE_REPEAT : IsReg BRKW_RESIDUE_REPEAT 496 := isReg_at (t := 15) (k := 8) (by decide) rfl
theorem reg_BRKW_KICKS_BAD : IsReg BRKW_KICKS_BAD 497 := isReg_at (t := 15) (k := 9) (by decide) rfl
theorem reg_BRKW_KICK : IsReg BRKW_KICK 498 := isReg_at (t := 15) (k := 10) (by decide) rfl
theorem reg_BRKW_WDOG_CFG_PERIOD_MS : IsReg BRKW_WDOG_CFG_PERIOD_MS 499 := isReg_at (t := 15) (k := 11) (by decide) rfl
theorem reg_BRKW_LOG_CNT : IsReg BRKW_LOG_CNT 500 := isReg_at (t := 15) (k := 12) (by decide) rfl
theorem reg_BRKW_LOG_A_CAUSE : IsReg BRKW_LOG_A_CAUSE 501 := isReg_at (t := 15) (k := 13) (by decide) rfl
theorem reg_BRKW_LOG_A_SOURCE : IsReg BRKW_LOG_A_SOURCE 502 := isReg_at (t := 15) (k := 14) (by decide) rfl
theorem reg_BRKW_LOG_A_VALUE : IsReg BRKW_LOG_A_VALUE 503 := isReg_at (t := 15) (k := 15) (by decide) rfl
theorem reg_BRKW_LOG_B : IsReg BRKW_LOG_B 504 := isReg_at (t := 15) (k := 16) (by decide) rfl
theorem reg_pendFld15 : IsReg (pendFld 15) 505 := isReg_at (t := 15) (k := 17) (by decide) rfl
theorem reg_enFld15 : IsReg (enFld 15) 506 := isReg_at (t := 15) (k := 18) (by decide) rfl
theorem reg_hostRoFld15 : IsReg (hostRoFld 15) 507 := isReg_at (t := 15) (k := 19) (by decide) rfl
theorem reg_deniedFld15 : IsReg (deniedFld 15) 508 := isReg_at (t := 15) (k := 20) (by decide) rfl
theorem reg_pendFld16 : IsReg (pendFld 16) 509 := isReg_at (t := 16) (k := 0) (by decide) rfl
theorem reg_enFld16 : IsReg (enFld 16) 510 := isReg_at (t := 16) (k := 1) (by decide) rfl
theorem reg_hostRoFld16 : IsReg (hostRoFld 16) 511 := isReg_at (t := 16) (k := 2) (by decide) rfl
theorem reg_deniedFld16 : IsReg (deniedFld 16) 512 := isReg_at (t := 16) (k := 3) (by decide) rfl
theorem reg_OTP_CTRL_PROG_GO : IsReg OTP_CTRL_PROG_GO 513 := isReg_at (t := 17) (k := 0) (by decide) rfl
theorem reg_OTP_STAT_BUSY : IsReg OTP_STAT_BUSY 514 := isReg_at (t := 17) (k := 1) (by decide) rfl
theorem reg_OTP_PROG_CNT : IsReg OTP_PROG_CNT 515 := isReg_at (t := 17) (k := 2) (by decide) rfl
theorem reg_OTP_PROG_FAIL_CNT : IsReg OTP_PROG_FAIL_CNT 516 := isReg_at (t := 17) (k := 3) (by decide) rfl
theorem reg_OTP_PROG_FIELD : IsReg OTP_PROG_FIELD 517 := isReg_at (t := 17) (k := 4) (by decide) rfl
theorem reg_OTP_PROG_DATA : IsReg OTP_PROG_DATA 518 := isReg_at (t := 17) (k := 5) (by decide) rfl
theorem reg_pendFld17 : IsReg (pendFld 17) 519 := isReg_at (t := 17) (k := 6) (by decide) rfl
theorem reg_enFld17 : IsReg (enFld 17) 520 := isReg_at (t := 17) (k := 7) (by decide) rfl
theorem reg_hostRoFld17 : IsReg (hostRoFld 17) 521 := isReg_at (t := 17) (k := 8) (by decide) rfl
theorem reg_deniedFld17 : IsReg (deniedFld 17) 522 := isReg_at (t := 17) (k := 9) (by decide) rfl
theorem reg_BOOT_CTRL_GO : IsReg BOOT_CTRL_GO 523 := isReg_at (t := 18) (k := 0) (by decide) rfl
theorem reg_BOOT_STAT_STATE : IsReg BOOT_STAT_STATE 524 := isReg_at (t := 18) (k := 1) (by decide) rfl
theorem reg_BOOT_STAT_REASON : IsReg BOOT_STAT_REASON 525 := isReg_at (t := 18) (k := 2) (by decide) rfl
theorem reg_BOOT_STAT_OTP_FROZEN : IsReg BOOT_STAT_OTP_FROZEN 526 := isReg_at (t := 18) (k := 3) (by decide) rfl
theorem reg_BOOT_STAT_ID_READY : IsReg BOOT_STAT_ID_READY 527 := isReg_at (t := 18) (k := 4) (by decide) rfl
theorem reg_BOOT_STAT_ATTEMPTS : IsReg BOOT_STAT_ATTEMPTS 528 := isReg_at (t := 18) (k := 5) (by decide) rfl
theorem reg_BOOT_MBX_IGNORED : IsReg BOOT_MBX_IGNORED 529 := isReg_at (t := 18) (k := 6) (by decide) rfl
theorem reg_BOOT_IMG_LEN : IsReg BOOT_IMG_LEN 530 := isReg_at (t := 18) (k := 7) (by decide) rfl
theorem reg_BOOT_FW_VERSION : IsReg BOOT_FW_VERSION 531 := isReg_at (t := 18) (k := 8) (by decide) rfl
theorem reg_BOOT_FW_SVN_SVN : IsReg BOOT_FW_SVN_SVN 532 := isReg_at (t := 18) (k := 9) (by decide) rfl
theorem reg_BOOT_IMG_DIGEST : IsReg BOOT_IMG_DIGEST 533 := isReg_at (t := 18) (k := 10) (by decide) rfl
theorem reg_pendFld18 : IsReg (pendFld 18) 534 := isReg_at (t := 18) (k := 11) (by decide) rfl
theorem reg_enFld18 : IsReg (enFld 18) 535 := isReg_at (t := 18) (k := 12) (by decide) rfl
theorem reg_hostRoFld18 : IsReg (hostRoFld 18) 536 := isReg_at (t := 18) (k := 13) (by decide) rfl
theorem reg_deniedFld18 : IsReg (deniedFld 18) 537 := isReg_at (t := 18) (k := 14) (by decide) rfl
theorem reg_DEBUG_CTRL_CHALLENGE : IsReg DEBUG_CTRL_CHALLENGE 538 := isReg_at (t := 19) (k := 0) (by decide) rfl
theorem reg_DEBUG_CTRL_UNLOCK_GO : IsReg DEBUG_CTRL_UNLOCK_GO 539 := isReg_at (t := 19) (k := 1) (by decide) rfl
theorem reg_DEBUG_CTRL_RELOCK : IsReg DEBUG_CTRL_RELOCK 540 := isReg_at (t := 19) (k := 2) (by decide) rfl
theorem reg_DEBUG_STAT_UNLOCKED : IsReg DEBUG_STAT_UNLOCKED 541 := isReg_at (t := 19) (k := 3) (by decide) rfl
theorem reg_DEBUG_STAT_EVER : IsReg DEBUG_STAT_EVER 542 := isReg_at (t := 19) (k := 4) (by decide) rfl
theorem reg_DEBUG_STAT_BUSY : IsReg DEBUG_STAT_BUSY 543 := isReg_at (t := 19) (k := 5) (by decide) rfl
theorem reg_DEBUG_STAT_RESULT : IsReg DEBUG_STAT_RESULT 544 := isReg_at (t := 19) (k := 6) (by decide) rfl
theorem reg_DEBUG_UNLOCK_CNT : IsReg DEBUG_UNLOCK_CNT 545 := isReg_at (t := 19) (k := 7) (by decide) rfl
theorem reg_DEBUG_FAIL_CNT : IsReg DEBUG_FAIL_CNT 546 := isReg_at (t := 19) (k := 8) (by decide) rfl
theorem reg_DEBUG_CHAL : IsReg DEBUG_CHAL 547 := isReg_at (t := 19) (k := 9) (by decide) rfl
theorem reg_DEBUG_TOKEN : IsReg DEBUG_TOKEN 548 := isReg_at (t := 19) (k := 10) (by decide) rfl
theorem reg_pendFld19 : IsReg (pendFld 19) 549 := isReg_at (t := 19) (k := 11) (by decide) rfl
theorem reg_enFld19 : IsReg (enFld 19) 550 := isReg_at (t := 19) (k := 12) (by decide) rfl
theorem reg_hostRoFld19 : IsReg (hostRoFld 19) 551 := isReg_at (t := 19) (k := 13) (by decide) rfl
theorem reg_deniedFld19 : IsReg (deniedFld 19) 552 := isReg_at (t := 19) (k := 14) (by decide) rfl

end Sys2Proof.Machine
end

