-- ==== Sys2Proof/Laws/KeepsOps.lean ====
section
/-! SUPPORT. What the functions of Machine/Ops.lean may change. -/

namespace Sys2Proof.Machine

set_option exponentiation.threshold 600

variable {w₀ : Nat} {s₀ : State}

theorem setFk_keeps {w n : Nat} {s₀ : State} (hw : Has (2 ^ n) w) (f : Fld) (i k v : Nat) {s : State}
    (hf : IsReg f n) (h : Keeps w s₀ s) : Keeps w s₀ (setFk f i k v s) := by
  refine keeps_regs _ (fun g hg hb j l => Store.find_put_ne (fldKey_ne_of_ne (fldIn_iff.2 hf.1) (fldIn_iff.2 hg) (fun e => ?_) _ _ _ _) ..) h
  rw [← e, hf.2, hw.bit] at hb
  exact Bool.noConfusion hb

theorem setFk_keeps_any {w : Nat} {s₀ : State} (hw : Has 0x1ffffffffffffffffffffffffffffffffffffffffffffffffffffffffffffffffffffffffffffffffffffffffffffffffffffffffffffffffffffffffffffff000000000000 w) (f : Fld) (i k v : Nat) {s : State}
    (h : Keeps w s₀ s) : Keeps w s₀ (setFk f i k v s) := keeps_all_regs hw _ h

/-- A write to a field that stands on no page of the module. -/
theorem setFk_keeps_out {w : Nat} {s₀ : State} (f : Fld) (i k v : Nat) {s : State} (hf : 20 ≤ f.page)
    (h : Keeps w s₀ s) : Keeps w s₀ (setFk f i k v s) := by
  refine keeps_regs _ (fun g hg _ j l => Store.find_put_ne (fun e => ?_) ..) h
  have : f.page = g.page := by rw [← fldKey_page f i k, e, fldKey_page]
  have m := mem_allRegs.1 hg
  rw [regsOf, if_neg (by omega)] at m
  cases m

/-- A field that stands on every page. -/
theorem setFk_keeps_every {w m : Nat} {s₀ : State} {F : Nat → Fld} (hw : Has m w) (i k v : Nat) {s : State}
    (hp : ∀ t, (F t).page = t) (hm : ∀ t < 20, F t ∈ allRegs ∧ 2 ^ (Part.reg (F t)).code &&& m = 2 ^ (Part.reg (F t)).code)
    (t : Nat) (h : Keeps w s₀ s) : Keeps w s₀ (setFk (F t) i k v s) := by
  by_cases ht : t < 20
  · exact setFk_keeps (hw.sub (hm t ht).2) _ _ _ _ ⟨(hm t ht).1, rfl⟩ h
  · exact setFk_keeps_out _ _ _ _ (by rw [hp]; omega) h

theorem setF_keeps {w n₀ : Nat} {s₀ : State} (hw : Has (2 ^ n₀) w) (f : Fld) (i v : Nat) {s : State}
    (hf : IsReg f n₀) (h : Keeps w s₀ s) : Keeps w s₀ (setF f i v s) :=
  setFk_keeps hw f _ _ _ hf h

theorem setF_keeps_any {w : Nat} {s₀ : State} (hw : Has 0x1ffffffffffffffffffffffffffffffffffffffffffffffffffffffffffffffffffffffffffffffffffffffffffffffffffffffffffffffffffffffffffffff000000000000 w) (f : Fld) (i v : Nat) {s : State}
    (h : Keeps w s₀ s) : Keeps w s₀ (setF f i v s) :=
  setFk_keeps_any hw f _ _ _ h

theorem addFk_keeps {w n₀ : Nat} {s₀ : State} (hw : Has (2 ^ n₀) w) (f : Fld) (i k n : Nat) {s : State}
    (hf : IsReg f n₀) (h : Keeps w s₀ s) : Keeps w s₀ (addFk f i k n s) :=
  setFk_keeps hw f _ _ _ hf h

theorem addFk_keeps_any {w : Nat} {s₀ : State} (hw : Has 0x1ffffffffffffffffffffffffffffffffffffffffffffffffffffffffffffffffffffffffffffffffffffffffffffffffffffffffffffffffffffffffffffff000000000000 w) (f : Fld) (i k n : Nat) {s : State}
    (h : Keeps w s₀ s) : Keeps w s₀ (addFk f i k n s) :=
  setFk_keeps_any hw f _ _ _ h

theorem addF_keeps {w n₀ : Nat} {s₀ : State} (hw : Has (2 ^ n₀) w) (f : Fld) (i n : Nat) {s : State}
    (hf : IsReg f n₀) (h : Keeps w s₀ s) : Keeps w s₀ (addF f i n s) :=
  addFk_keeps hw f _ _ _ hf h

theorem addF_keeps_any {w : Nat} {s₀ : State} (hw : Has 0x1ffffffffffffffffffffffffffffffffffffffffffffffffffffffffffffffffffffffffffffffffffffffffffffffffffffffffffffffffffffffffffffff000000000000 w) (f : Fld) (i n : Nat) {s : State}
    (h : Keeps w s₀ s) : Keeps w s₀ (addF f i n s) :=
  addFk_keeps_any hw f _ _ _ h

theorem incr_keeps {w n₀ : Nat} {s₀ : State} (hw : Has (2 ^ n₀) w) (f : Fld) (i : Nat) {s : State}
    (hf : IsReg f n₀) (h : Keeps w s₀ s) : Keeps w s₀ (incr f i s) :=
  addF_keeps hw f _ _ hf h

theorem incr_keeps_any {w : Nat} {s₀ : State} (hw : Has 0x1ffffffffffffffffffffffffffffffffffffffffffffffffffffffffffffffffffffffffffffffffffffffffffffffffffffffffffffffffffffffffffffff000000000000 w) (f : Fld) (i : Nat) {s : State}
    (h : Keeps w s₀ s) : Keeps w s₀ (incr f i s) :=
  addF_keeps_any hw f _ _ h

theorem emit_keeps (hw₀ : Has 0x80000000000 w₀) (o : Out) {s : State} (h₀ : Keeps w₀ s₀ s) :
    Keeps w₀ s₀ (emit o s) := by
  unfold emit
  repeat' with_reducible first
    | assumption | apply keeps_out (hw₀.sub rfl)

theorem signalPage_keeps (hw₀ : Has 0x80000000000 w₀) (t i : Nat) {s : State} (h₀ : Keeps w₀ s₀ s) :
    Keeps w₀ s₀ (signalPage t i s) := by
  unfold signalPage
  repeat' with_reducible first
    | assumption | apply emit_keeps (hw₀.sub rfl) | split

theorem pend_keeps {w p n : Nat} {s₀ : State} (hw : Has (2 ^ n) w) (ho : Has 0x80000000000 w) (t i m : Nat) {s : State}
    (ht : t = p) (hf : IsReg (pendFld p) n) (h : Keeps w s₀ s) : Keeps w s₀ (pend t i m s) := by
  subst ht
  unfold pend
  have g := setF_keeps hw (pendFld t) i (getF s (pendFld t) i ||| (m &&& evtMask t)) hf h
  exact keeps_ite (signalPage_keeps ho t i g) g

theorem pend_keeps_every {w : Nat} {s₀ : State} (hw : Has 0x200040008022000010020000080000040000000080000100000008000000020000000000000400000020010040000000004000000002000000000200000000000000000000 w) (ho : Has 0x80000000000 w) (t i m : Nat) {s : State}
    (h : Keeps w s₀ s) : Keeps w s₀ (pend t i m s) := by
  unfold pend
  have g : Keeps w s₀ (setF (pendFld t) i (getF s (pendFld t) i ||| (m &&& evtMask t)) s) :=
    setFk_keeps_every (F := pendFld) hw _ _ _ (fun _ => rfl) (by decide +kernel) t h
  exact keeps_ite (signalPage_keeps ho t i g) g

theorem setEvt_keeps {w p n : Nat} {s₀ : State} (hw : Has (2 ^ n) w) (ho : Has 0x80000000000 w) (e : Evt) (i : Nat) {s : State}
    (he : e.page = p) (hf : IsReg (pendFld p) n) (h : Keeps w s₀ s) : Keeps w s₀ (setEvt e i s) := pend_keeps hw ho _ _ _ he hf h

theorem setCtxEvt_keeps
    (hw₀ : Has 0x20000000000000000000000000000000000000000000000000000000000000000000000000000000000000000000000080000000000 w₀)
    (c b : Nat) {s : State} (h₀ : Keeps w₀ s₀ s) :
    Keeps w₀ s₀ (setCtxEvt c b s) := by
  unfold setCtxEvt
  repeat' with_reducible first
    | assumption | apply keeps_ite | refine setFk_keeps (hw₀.sub rfl) _ _ _ _ reg_HOSTIF_CTX_EVT_EVT ?_
    | apply emit_keeps (hw₀.sub rfl)

theorem freshWord_keeps (hw₀ : Has 0x100000000000 w₀) {s : State} (h₀ : Keeps w₀ s₀ s) :
    Keeps w₀ s₀ (freshWord s).2 := by
  unfold freshWord
  repeat' with_reducible first
    | assumption | apply keeps_freeCtr (hw₀.sub rfl)

theorem running_keeps {s : State} {t : State} (h₀s : Keeps w₀ s₀ s) (h₀t : Keeps w₀ s₀ t) :
    Keeps w₀ s₀ (running s t) := by
  unfold running
  repeat' with_reducible first
    | assumption | split

theorem awake_keeps {s : State} {t : State} (h₀s : Keeps w₀ s₀ s) (h₀t : Keeps w₀ s₀ t) :
    Keeps w₀ s₀ (awake s t) := by
  unfold awake
  repeat' with_reducible first
    | assumption | split

theorem pairRuns_keeps (p : Nat) {s : State} {t : State} (h₀s : Keeps w₀ s₀ s) (h₀t : Keeps w₀ s₀ t) :
    Keeps w₀ s₀ (pairRuns p s t) := by
  unfold pairRuns
  split <;> assumption

theorem runningIn_keeps (n : Nat) {s : State} {t : State} (h₀s : Keeps w₀ s₀ s) (h₀t : Keeps w₀ s₀ t) :
    Keeps w₀ s₀ (runningIn n s t) := by
  unfold runningIn
  repeat' with_reducible first
    | assumption | split

theorem pairsUp_keeps {s : State} {t : State} (h₀s : Keeps w₀ s₀ s) (h₀t : Keeps w₀ s₀ t) :
    Keeps w₀ s₀ (pairsUp s t) := by
  unfold pairsUp
  repeat' with_reducible first
    | assumption | split

theorem outOfReset_keeps {s : State} {t : State} (h₀s : Keeps w₀ s₀ s) (h₀t : Keeps w₀ s₀ t) :
    Keeps w₀ s₀ (outOfReset s t) := by
  unfold outOfReset
  repeat' with_reducible first
    | assumption | split

theorem addrFault_keeps (hw₀ : Has 0x40040000000000000000000000000000000000080000000000 w₀) (p : Nat) {s : State}
    (h₀ : Keeps w₀ s₀ s) :
    Keeps w₀ s₀ (addrFault p s) := by
  unfold addrFault
  repeat' with_reducible first
    | assumption | refine setEvt_keeps (p := 3) (hw₀.sub rfl) (hw₀.sub rfl) _ _ (by with_unfolding_all rfl) reg_pendFld3 ?_
    | refine incr_keeps (hw₀.sub rfl) _ _ reg_MEMCTL_ADDR_FAULT_CNT ?_

theorem modMc_keeps (hw₀ : Has 0x100 w₀) (m : Nat) (f : Mc → Mc) {s : State} (h₀ : Keeps w₀ s₀ s) :
    Keeps w₀ s₀ (modMc m f s) := by
  unfold modMc
  repeat' with_reducible first
    | assumption | apply keeps_mcs (hw₀.sub rfl)

theorem trainStack_keeps (hw₀ : Has 0x400000000000000000000000000000000000000100 w₀) (m : Nat) {s : State} (h₀ : Keeps w₀ s₀ s) :
    Keeps w₀ s₀ (trainStack m s) := by
  unfold trainStack
  try dsimp -proj only
  repeat' with_reducible first
    | assumption | refine setF_keeps (hw₀.sub rfl) _ _ _ reg_MEMCTL_STAT_READY ?_ | apply modMc_keeps (hw₀.sub rfl)
    | split

theorem trainStacks_keeps (hw₀ : Has 0x400000000000000000000000000000000000000100 w₀) (x1 : Nat) {x2 : State} (h₀ : Keeps w₀ s₀ x2) :
    Keeps w₀ s₀ (trainStacks x1 x2) := by
  revert h₀
  fun_induction trainStacks x1 x2 <;> intro h₀
  all_goals repeat' with_reducible first
    | apply keeps_ite | apply trainStack_keeps (hw₀.sub rfl) | apply_assumption -exfalso | split

theorem noteMiss_keeps (hw₀ : Has 0x40040000000000000000000000000000000000080000000000 w₀) (l : Lookup) {s : State}
    (h₀ : Keeps w₀ s₀ s) :
    Keeps w₀ s₀ (noteMiss l s) := by
  unfold noteMiss
  repeat' with_reducible first
    | assumption | apply addrFault_keeps (hw₀.sub rfl) | split

theorem memPut_keeps (hw₀ : Has 0x4 w₀) (d a : Nat) (b : Byte) {s : State} (h₀ : Keeps w₀ s₀ s) :
    Keeps w₀ s₀ (memPut d a b s) := by
  unfold memPut
  repeat' with_reducible first
    | assumption | split | apply Store.canon_put | apply keeps_mem (hw₀.sub rfl)

theorem memPuts_keeps (hw₀ : Has 0x4 w₀) (d x1 : Nat) (x2 : List Byte) {x3 : State} (h₀ : Keeps w₀ s₀ x3) :
    Keeps w₀ s₀ (memPuts d x1 x2 x3) := by
  revert h₀
  fun_induction memPuts d x1 x2 x3 <;> intro h₀
  all_goals repeat' with_reducible first
    | apply memPut_keeps (hw₀.sub rfl) | apply_assumption -exfalso

theorem unpoison_keeps (hw₀ : Has 0x8 w₀) (d a x1 : Nat) {x2 : State} (h₀ : Keeps w₀ s₀ x2) :
    Keeps w₀ s₀ (unpoison d a x1 x2) := by
  revert h₀
  fun_induction unpoison d a x1 x2 <;> intro h₀
  all_goals repeat' with_reducible first
    | apply_assumption -exfalso | apply keeps_poison (hw₀.sub rfl)

theorem memWrite_keeps (hw₀ : Has 0x4004000000000000000000000000000000000008000000000c w₀) (d a : Nat) (bs : List Byte)
    {s : State} (h₀ : Keeps w₀ s₀ s) :
    Keeps w₀ s₀ (memWrite d a bs s).2 := by
  unfold memWrite
  repeat' with_reducible first
    | assumption | apply noteMiss_keeps (hw₀.sub rfl) | apply unpoison_keeps (hw₀.sub rfl)
    | apply memPuts_keeps (hw₀.sub rfl) | split

theorem memStore_keeps (hw₀ : Has 0x4004000000000000000000000000000000000008000000000c w₀) (d a : Nat) (bs : List Byte)
    {s : State} (h₀ : Keeps w₀ s₀ s) :
    Keeps w₀ s₀ (memStore d a bs s) := by
  unfold memStore
  repeat' with_reducible first
    | assumption | apply memWrite_keeps (hw₀.sub rfl)

theorem sramWrite_keeps (hw₀ : Has 0x10 w₀) (cl a : Nat) (bs : List Byte) {s : State} (h₀ : Keeps w₀ s₀ s) :
    Keeps w₀ s₀ (sramWrite cl a bs s) := by
  unfold sramWrite
  repeat' with_reducible first
    | assumption | apply Store.canon_putAll | apply keeps_sram (hw₀.sub rfl)

theorem hostWrite_keeps (hw₀ : Has 0x20 w₀) (a : Nat) (bs : List Byte) {s : State} (h₀ : Keeps w₀ s₀ s) :
    Keeps w₀ s₀ (hostWrite a bs s) := by
  unfold hostWrite
  repeat' with_reducible first
    | assumption | apply Store.canon_putAll | apply keeps_hmem (hw₀.sub rfl)

theorem modSluice_keeps (hw₀ : Has 0x400 w₀) (n : Nat) (f : Sluice → Sluice) {s : State} (h₀ : Keeps w₀ s₀ s) :
    Keeps w₀ s₀ (modSluice n f s) := by
  unfold modSluice
  repeat' with_reducible first
    | assumption | apply keeps_sluices (hw₀.sub rfl)

theorem modPort_keeps (hw₀ : Has 0x1000000 w₀) (p : Nat) (f : Port → Port) {s : State} (h₀ : Keeps w₀ s₀ s) :
    Keeps w₀ s₀ (modPort p f s) := by
  unfold modPort
  repeat' with_reducible first
    | assumption | apply keeps_ports (hw₀.sub rfl)

theorem modCtx_keeps (hw₀ : Has 0x100000 w₀) (c : Nat) (f : Ctx → Ctx) {s : State} (h₀ : Keeps w₀ s₀ s) :
    Keeps w₀ s₀ (modCtx c f s) := by
  unfold modCtx
  repeat' with_reducible first
    | assumption | apply keeps_ctxs (hw₀.sub rfl)

theorem modCluster_keeps (hw₀ : Has 0x4000 w₀) (cl : Nat) (f : Cluster → Cluster) {s : State} (h₀ : Keeps w₀ s₀ s) :
    Keeps w₀ s₀ (modCluster cl f s) := by
  unfold modCluster
  repeat' with_reducible first
    | assumption | apply keeps_clusters (hw₀.sub rfl)

theorem modList_keeps (hw₀ : Has 0x4000 w₀) (cl lid : Nat) (f : ListRun → ListRun) {s : State} (h₀ : Keeps w₀ s₀ s) :
    Keeps w₀ s₀ (modList cl lid f s) := by
  unfold modList
  repeat' with_reducible first
    | assumption | apply modCluster_keeps (hw₀.sub rfl)

end Sys2Proof.Machine
end

