-- ==== Sys2Proof/Laws/KeepsAccess.lean ====
section
/-! SUPPORT. What the functions of Machine/Access.lean may change. -/

namespace Sys2Proof.Machine

set_option exponentiation.threshold 600

variable {w₀ : Nat} {s₀ : State}

theorem rcClear_keeps
    (hw₀ : Has 0x1ffffffffffffffffffffffffffffffffffffffffffffffffffffffffffffffffffffffffffffffffffffffffffffffffffffffffffffffffffffffffffffff000000000000 w₀)
    (i inc : Nat) (x1 : List (Fld × Nat)) {x2 : State} (h₀ : Keeps w₀ s₀ x2) :
    Keeps w₀ s₀ (rcClear i inc x1 x2) := by
  revert h₀
  fun_induction rcClear i inc x1 x2 <;> intro h₀
  all_goals repeat' with_reducible first
    | apply setFk_keeps_any (hw₀.sub rfl) | apply_assumption -exfalso | split

theorem busRead_keeps
    (hw₀ : Has 0x1ffffffffffffffffffffffffffffffffffffffffffffffffffffffffffffffffffffffffffffffffffffffffffffffffffffffffffffffffffffffffffffff000000000002 w₀)
    (r : Requester) (a inc : Nat) {s : State} (h₀ : Keeps w₀ s₀ s) :
    Keeps w₀ s₀ (busRead r a inc s).2 := by
  unfold busRead
  repeat' with_reducible first
    | assumption | dsimp only | apply rcClear_keeps (hw₀.sub rfl) | split | apply keeps_hiLatch (hw₀.sub rfl)

theorem countDenied_keeps {w : Nat} {s₀ : State} (hw : Has 0x1000200040110000080100000400000200000000400000800000040000000100000000000002000000100080200000000020000000010000000001000000000000000000000 w) (t i : Nat) {s : State} (h : Keeps w s₀ s) :
    Keeps w s₀ (countDenied t i s) :=
  setFk_keeps_every (F := deniedFld) hw _ _ _ (fun _ => rfl) (by decide +kernel) t h

theorem guarded_keeps
    (hw₀ : Has 0x1000200040110000080100000400000200000000400000800000040000000100000000000002000000100080200000000020000000010000000001000000000000000000000 w₀)
    (r : Requester) (a : Nat) (f : Nat → Nat → Nat → State → State) {s : State} (h₀ : Keeps w₀ s₀ s)
    (hf₀ : ∀ y0 y1 y2 s, Keeps w₀ s₀ s → Keeps w₀ s₀ (f y0 y1 y2 s)) :
    Keeps w₀ s₀ (guarded r a f s) := by
  unfold guarded
  repeat' with_reducible first
    | assumption | apply countDenied_keeps (hw₀.sub rfl) | apply hf₀ | split

theorem writeFlds_keeps
    (hw₀ : Has 0x1ffffffffffffffffffffffffffffffffffffffffffffffffffffffffffffffffffffffffffffffffffffffffffffffffffffffffffffffffffffffffffffff000000000000 w₀)
    (i v : Nat) (x1 : List (Fld × Nat)) {x2 : State} (h₀ : Keeps w₀ s₀ x2) :
    Keeps w₀ s₀ (writeFlds i v x1 x2) := by
  revert h₀
  fun_induction writeFlds i v x1 x2 <;> intro h₀
  all_goals repeat' with_reducible first
    | apply setFk_keeps_any (hw₀.sub rfl) | apply_assumption -exfalso | split

theorem writeEn_keeps {w : Nat} {s₀ : State} (hw : Has 0x400080010044000020040000100000080000000100000200000010000000040000000000000800000040020080000000008000000004000000000400000000080000000000 w) (t i v : Nat) {s : State} (h : Keeps w s₀ s) :
    Keeps w s₀ (writeEn t i v s) := by
  unfold writeEn
  dsimp only
  generalize v &&& evtMask t = x
  have g : Keeps w s₀ (setF (enFld t) i x s) := setFk_keeps_every (F := enFld) (m := 0x400080010044000020040000100000080000000100000200000010000000040000000000000800000040020080000000008000000004000000000400000000000000000000) (hw.sub rfl) _ _ _ (fun _ => rfl) (by decide +kernel) t h
  exact keeps_ite (signalPage_keeps (hw.sub rfl) t i g) g

theorem signalCtxEn_keeps (hw₀ : Has 0x80000000000 w₀) (en x1 : Nat) {x2 : State} (h₀ : Keeps w₀ s₀ x2) :
    Keeps w₀ s₀ (signalCtxEn en x1 x2) := by
  revert h₀
  fun_induction signalCtxEn en x1 x2 <;> intro h₀
  all_goals repeat' with_reducible first
    | apply emit_keeps (hw₀.sub rfl) | apply_assumption -exfalso

theorem heldToDown_keeps (hw₀ : Has 0x200000000000000000000000000000000000000000000000000000000000000000 w₀) (p : Nat)
    {s : State} (h₀ : Keeps w₀ s₀ s) :
    Keeps w₀ s₀ (heldToDown p s) := by
  unfold heldToDown
  repeat' with_reducible first
    | assumption | refine setF_keeps (hw₀.sub rfl) _ _ _ reg_LINK_STAT_STATE ?_ | split

theorem leaveOff_keeps (hw₀ : Has 0x200000000000000000000000000000000000000000000000000000000000000000 w₀) (p : Nat)
    {s : State} (h₀ : Keeps w₀ s₀ s) :
    Keeps w₀ s₀ (leaveOff p s) := by
  unfold leaveOff
  repeat' with_reducible first
    | assumption | refine setF_keeps (hw₀.sub rfl) _ _ _ reg_LINK_STAT_STATE ?_ | split

theorem afterWrite_keeps (hw₀ : Has 0x200000000000004000000000000000000000000000000000000000000000000000 w₀) (t i o : Nat)
    {s : State} (h₀ : Keeps w₀ s₀ s) :
    Keeps w₀ s₀ (afterWrite t i o s) := by
  unfold afterWrite
  repeat' with_reducible first
    | assumption | refine setFk_keeps (hw₀.sub rfl) _ _ _ _ reg_WEIR_LVL ?_ | apply heldToDown_keeps (hw₀.sub rfl)
    | apply leaveOff_keeps (hw₀.sub rfl) | split

theorem writeWord_keeps
    (hw₀ : Has 0x1ffffffffffffffffffffffffffffffffffffffffffffffffffffffffffffffffffffffffffffffffffffffffffffffffffffffffffffffffffffffffffffff080000000000 w₀)
    (v t i o : Nat) {s : State} (h₀ : Keeps w₀ s₀ s) :
    Keeps w₀ s₀ (writeWord v t i o s) := by
  unfold writeWord
  repeat' with_reducible first
    | assumption | apply setF_keeps_any (hw₀.sub rfl) | apply signalCtxEn_keeps (hw₀.sub rfl)
    | apply writeEn_keeps (hw₀.sub rfl) | apply afterWrite_keeps (hw₀.sub rfl) | apply writeFlds_keeps (hw₀.sub rfl) | split

theorem clearPend_keeps {w : Nat} {s₀ : State} (hw : Has 0x200040008022000010020000080000040000000080000100000008000000020000000000000400000020010040000000004000000002000000000200000000080000000000 w) (t i v raised : Nat) {s : State} (h : Keeps w s₀ s) :
    Keeps w s₀ (clearPend t i v raised s) := by
  unfold clearPend
  dsimp only
  generalize _ ||| (raised &&& evtMask t) = x
  have g : Keeps w s₀ (setF (pendFld t) i x s) := setFk_keeps_every (F := pendFld) (m := 0x200040008022000010020000080000040000000080000100000008000000020000000000000400000020010040000000004000000002000000000200000000000000000000) (hw.sub rfl) _ _ _ (fun _ => rfl) (by decide +kernel) t h
  exact keeps_ite (signalPage_keeps (hw.sub rfl) t i g) g

theorem clearCtxEvt_keeps
    (hw₀ : Has 0x20000000000000000000000000000000000000000000000000000000000000000000000000000000000000000000000000000000000 w₀)
    (c v raised : Nat) {s : State} (h₀ : Keeps w₀ s₀ s) :
    Keeps w₀ s₀ (clearCtxEvt c v raised s) := by
  unfold clearCtxEvt
  repeat' with_reducible first
    | assumption | refine setFk_keeps (hw₀.sub rfl) _ _ _ _ reg_HOSTIF_CTX_EVT_EVT ?_

theorem clearCtxEvts_keeps (hw₀ : Has 0x20000000000000000000000000000000000000000000000000000000000000000000000000000000000000000000000000000000000 w₀) (v raised : Nat) (x1 : Nat) {x2 : State} (h₀ : Keeps w₀ s₀ x2) :
    Keeps w₀ s₀ (clearCtxEvts v raised x1 x2) := by
  revert h₀
  fun_induction clearCtxEvts v raised x1 x2 <;> intro h₀
  all_goals repeat' with_reducible first
    | apply clearCtxEvt_keeps (hw₀.sub rfl) | apply_assumption -exfalso

theorem pendWrite_keeps
    (hw₀ : Has 0x200040008022000010020000080000060000000080000100000008000000020000000000000400000020010040000000004000000002000000000200000000080000000000 w₀)
    (r : Requester) (v raised t i o : Nat) {s : State} (h₀ : Keeps w₀ s₀ s) :
    Keeps w₀ s₀ (pendWrite r v raised t i o s) := by
  unfold pendWrite
  repeat' with_reducible first
    | assumption | apply clearCtxEvt_keeps (hw₀.sub rfl) | apply clearCtxEvts_keeps (hw₀.sub rfl)
    | apply clearPend_keeps (hw₀.sub rfl) | split

theorem evtPendClear_keeps
    (hw₀ : Has 0x1200240048132000090120000480000260000000480000900000048000000120000000000002400000120090240000000024000000012000000001200000000080000000000 w₀)
    (r : Requester) (a v raised : Nat) {s : State} (h₀ : Keeps w₀ s₀ s) :
    Keeps w₀ s₀ (evtPendClear r a v raised s) := by
  unfold evtPendClear
  repeat' with_reducible first
    | assumption | apply guarded_keeps (hw₀.sub rfl) | apply pendWrite_keeps (hw₀.sub rfl) | split

theorem execEvtPendClear_keeps
    (hw₀ : Has 0x1200240048132000090120000480000260000000480000900000048000000120000000000002400000120090240000000024000000012000000001200000000080000000000 w₀)
    (r : Requester) (a v raised : Nat) {s : State} (h₀ : Keeps w₀ s₀ s) :
    ∀ t₁, execEvtPendClear r a v raised s = .next t₁ → Keeps w₀ s₀ t₁ := by
  unfold execEvtPendClear
  intro t₁ ht
  cases ht
  repeat' with_reducible first
    | assumption | apply evtPendClear_keeps (hw₀.sub rfl)

theorem forceCtxEvt_keeps
    (hw₀ : Has 0x20000000000000000000000000000000000000000000000000000000000000000000000000000000000000000000000080000000000 w₀)
    (c v : Nat) {s : State} (h₀ : Keeps w₀ s₀ s) :
    Keeps w₀ s₀ (forceCtxEvt c v s) := by
  unfold forceCtxEvt
  repeat' with_reducible first
    | assumption | apply keeps_ite | apply setCtxEvt_keeps (hw₀.sub rfl)

theorem forceWrite_keeps
    (hw₀ : Has 0x200040008022000010020000080000060000000080000100000008000000020000000000000400000020010040000000004000000002000000000200000000080000000000 w₀)
    (r : Requester) (v t i o : Nat) {s : State} (h₀ : Keeps w₀ s₀ s) :
    Keeps w₀ s₀ (forceWrite r v t i o s) := by
  unfold forceWrite
  repeat' with_reducible first
    | assumption | apply forceCtxEvt_keeps (hw₀.sub rfl) | apply pend_keeps_every (hw₀.sub rfl) (hw₀.sub rfl) | split

theorem evtForce_keeps
    (hw₀ : Has 0x1200240048132000090120000480000260000000480000900000048000000120000000000002400000120090240000000024000000012000000001200000000080000000000 w₀)
    (r : Requester) (a v : Nat) {s : State} (h₀ : Keeps w₀ s₀ s) :
    Keeps w₀ s₀ (evtForce r a v s) := by
  unfold evtForce
  repeat' with_reducible first
    | assumption | apply guarded_keeps (hw₀.sub rfl) | apply forceWrite_keeps (hw₀.sub rfl) | split

theorem execEvtForce_keeps
    (hw₀ : Has 0x1200240048132000090120000480000260000000480000900000048000000120000000000002400000120090240000000024000000012000000001200000000080000000000 w₀)
    (r : Requester) (a v : Nat) {s : State} (h₀ : Keeps w₀ s₀ s) :
    ∀ t₁, execEvtForce r a v s = .next t₁ → Keeps w₀ s₀ t₁ := by
  unfold execEvtForce
  intro t₁ ht
  cases ht
  repeat' with_reducible first
    | assumption | apply evtForce_keeps (hw₀.sub rfl)

theorem clearFlds_keeps
    (hw₀ : Has 0x1ffffffffffffffffffffffffffffffffffffffffffffffffffffffffffffffffffffffffffffffffffffffffffffffffffffffffffffffffffffffffffffff000000000000 w₀)
    (i : Nat) (x1 : List (Fld × Nat)) {x2 : State} (h₀ : Keeps w₀ s₀ x2) :
    Keeps w₀ s₀ (clearFlds i x1 x2) := by
  revert h₀
  fun_induction clearFlds i x1 x2 <;> intro h₀
  all_goals repeat' with_reducible first
    | apply setFk_keeps_any (hw₀.sub rfl) | apply_assumption -exfalso

theorem errWrite_keeps
    (hw₀ : Has 0x1ffffffffffffffffffffffffffffffffffffffffffffffffffffffffffffffffffffffffffffffffffffffffffffffffffffffffffffffffffffffffffffff000000000100 w₀)
    (t i o : Nat) {s : State} (h₀ : Keeps w₀ s₀ s) :
    Keeps w₀ s₀ (errWrite t i o s) := by
  unfold errWrite
  repeat' with_reducible first
    | assumption | apply clearFlds_keeps (hw₀.sub rfl) | apply modMc_keeps (hw₀.sub rfl) | split

theorem errInfoClear_keeps
    (hw₀ : Has 0x1ffffffffffffffffffffffffffffffffffffffffffffffffffffffffffffffffffffffffffffffffffffffffffffffffffffffffffffffffffffffffffffff000000000100 w₀)
    (r : Requester) (a x1 : Nat) {s : State} (h₀ : Keeps w₀ s₀ s) :
    Keeps w₀ s₀ (errInfoClear r a x1 s) := by
  unfold errInfoClear
  repeat' with_reducible first
    | assumption | apply guarded_keeps (hw₀.sub rfl) | apply errWrite_keeps (hw₀.sub rfl) | split

theorem execErrInfoClear_keeps
    (hw₀ : Has 0x1ffffffffffffffffffffffffffffffffffffffffffffffffffffffffffffffffffffffffffffffffffffffffffffffffffffffffffffffffffffffffffffff000000000100 w₀)
    (r : Requester) (a v : Nat) {s : State} (h₀ : Keeps w₀ s₀ s) :
    ∀ t₁, execErrInfoClear r a v s = .next t₁ → Keeps w₀ s₀ t₁ := by
  unfold execErrInfoClear
  intro t₁ ht
  cases ht
  repeat' with_reducible first
    | assumption | apply errInfoClear_keeps (hw₀.sub rfl)

theorem rcRead_keeps
    (hw₀ : Has 0x1ffffffffffffffffffffffffffffffffffffffffffffffffffffffffffffffffffffffffffffffffffffffffffffffffffffffffffffffffffffffffffffff080000000002 w₀)
    (r : Requester) (a inc : Nat) {s : State} (h₀ : Keeps w₀ s₀ s) :
    Keeps w₀ s₀ (rcRead r a inc s) := by
  unfold rcRead
  repeat' with_reducible first
    | assumption | apply emit_keeps (hw₀.sub rfl) | apply busRead_keeps (hw₀.sub rfl)

theorem execRcRead_keeps
    (hw₀ : Has 0x1ffffffffffffffffffffffffffffffffffffffffffffffffffffffffffffffffffffffffffffffffffffffffffffffffffffffffffffffffffffffffffffff080000000002 w₀)
    (r : Requester) (a inc : Nat) {s : State} (h₀ : Keeps w₀ s₀ s) :
    ∀ t₁, execRcRead r a inc s = .next t₁ → Keeps w₀ s₀ t₁ := by
  unfold execRcRead
  intro t₁ ht
  cases ht
  repeat' with_reducible first
    | assumption | apply rcRead_keeps (hw₀.sub rfl)

theorem loReadLatch_keeps
    (hw₀ : Has 0x1ffffffffffffffffffffffffffffffffffffffffffffffffffffffffffffffffffffffffffffffffffffffffffffffffffffffffffffffffffffffffffffff080000000002 w₀)
    (r : Requester) (a : Nat) {s : State} (h₀ : Keeps w₀ s₀ s) :
    Keeps w₀ s₀ (loReadLatch r a s) := by
  unfold loReadLatch
  repeat' with_reducible first
    | assumption | apply emit_keeps (hw₀.sub rfl) | apply busRead_keeps (hw₀.sub rfl)

theorem execLoReadLatch_keeps
    (hw₀ : Has 0x1ffffffffffffffffffffffffffffffffffffffffffffffffffffffffffffffffffffffffffffffffffffffffffffffffffffffffffffffffffffffffffffff080000000002 w₀)
    (r : Requester) (a : Nat) {s : State} (h₀ : Keeps w₀ s₀ s) :
    ∀ t₁, execLoReadLatch r a s = .next t₁ → Keeps w₀ s₀ t₁ := by
  unfold execLoReadLatch
  intro t₁ ht
  cases ht
  repeat' with_reducible first
    | assumption | apply loReadLatch_keeps (hw₀.sub rfl)

end Sys2Proof.Machine
end

