-- ==== Sys2Proof/Laws/KeepsJournal.lean ====
section
/-! SUPPORT. What the functions of Machine/Journal.lean may change. -/

namespace Sys2Proof.Machine

set_option exponentiation.threshold 600

variable {w₀ : Nat} {s₀ : State}

theorem jrnCtx_keeps (hw₀ : Has 0x100000 w₀) (c type src : Nat) (payload : List Byte) {s : State} (h₀ : Keeps w₀ s₀ s) :
    Keeps w₀ s₀ (jrnCtx c type src payload s) := by
  unfold jrnCtx
  repeat' with_reducible first
    | assumption | apply modCtx_keeps (hw₀.sub rfl) | split

theorem jrnWide_keeps (hw₀ : Has 0x800000 w₀) (type src : Nat) (payload : List Byte) {s : State} (h₀ : Keeps w₀ s₀ s) :
    Keeps w₀ s₀ (jrnWide type src payload s) := by
  unfold jrnWide
  repeat' with_reducible first
    | assumption | split | apply keeps_jwide (hw₀.sub rfl)

theorem memEvt_keeps (hw₀ : Has 0x800000 w₀) (m kind chan row : Nat) {s : State} (h₀ : Keeps w₀ s₀ s) :
    Keeps w₀ s₀ (memEvt m kind chan row s) := by
  unfold memEvt
  repeat' with_reducible first
    | assumption | apply jrnWide_keeps (hw₀.sub rfl)

theorem replayDiv_keeps (hw₀ : Has 0x2000001000000000000080000000000 w₀) (cl : Nat) {s : State} (h₀ : Keeps w₀ s₀ s) :
    Keeps w₀ s₀ (replayDiv cl s) := by
  unfold replayDiv
  repeat' with_reducible first
    | assumption | refine setEvt_keeps (p := 1) (hw₀.sub rfl) (hw₀.sub rfl) _ _ (by with_unfolding_all rfl) reg_pendFld1 ?_
    | refine incr_keeps (hw₀.sub rfl) _ _ reg_CLUSTER_REPLAY_DIV_CNT ?_

end Sys2Proof.Machine
end

