-- ==== Sys2Proof/Laws/KeepsSluice.lean ====
section
/-! SUPPORT. What the functions of Machine/Sluice.lean may change. -/

namespace Sys2Proof.Machine

set_option exponentiation.threshold 600

variable {w₀ : Nat} {s₀ : State}

theorem slTick_keeps (hw₀ : Has 0x400000000000000000000000000000000000000000000000000400 w₀) (n dt : Nat) {s : State}
    (h₀ : Keeps w₀ s₀ s) :
    Keeps w₀ s₀ (slTick n dt s) := by
  unfold slTick
  repeat' with_reducible first
    | assumption | refine setF_keeps (hw₀.sub rfl) _ _ _ reg_SLUICE_NOW ?_ | apply modSluice_keeps (hw₀.sub rfl)

theorem slEnter_keeps (hw₀ : Has 0x400 w₀) (n r budget beats : Nat) (pay : SlPay) {s : State} (h₀ : Keeps w₀ s₀ s) :
    Keeps w₀ s₀ (slEnter n r budget beats pay s) := by
  unfold slEnter
  repeat' with_reducible first
    | assumption | apply modSluice_keeps (hw₀.sub rfl)

theorem keepUrgent_keeps (hw₀ : Has 0x400 w₀) (m : Nat) (x1 : Nat) {x2 : State} (h₀ : Keeps w₀ s₀ x2) :
    Keeps w₀ s₀ (keepUrgent m x1 x2) := by
  revert h₀
  fun_induction keepUrgent m x1 x2 <;> intro h₀
  all_goals repeat' with_reducible first
    | apply keeps_ite | apply modSluice_keeps (hw₀.sub rfl) | apply_assumption -exfalso | split

theorem slCount_keeps (hw₀ : Has 0xc000000000000000000000000000000000000000000000000000000 w₀) (n : Nat) (q : SlReq)
    {s : State} (h₀ : Keeps w₀ s₀ s) :
    Keeps w₀ s₀ (slCount n q s) := by
  unfold slCount
  repeat' with_reducible first
    | assumption | refine setFk_keeps (hw₀.sub rfl) _ _ _ _ reg_SLUICE_MAX_WAIT ?_
    | refine addFk_keeps (hw₀.sub rfl) _ _ _ _ reg_SLUICE_WAIT_CYC ?_

theorem slServe_keeps (hw₀ : Has 0xe100000000000000000000000000000000000000000000000000400 w₀) (n r : Nat) (fresh : Bool)
    (ok : SlReq → Bool) {s : State} {q₀ : SlReq} {t₀ : State} (h₀ : Keeps w₀ s₀ s) :
    slServe n r fresh ok s = some (q₀, t₀) → Keeps w₀ s₀ t₀ := by
  unfold slServe
  repeat' with_reducible first
    | assumption | refine addFk_keeps (hw₀.sub rfl) _ _ _ _ reg_SLUICE_GRANT_CNT ?_
    | refine incr_keeps (hw₀.sub rfl) _ _ reg_SLUICE_DECISIONS ?_ | apply slCount_keeps (hw₀.sub rfl)
    | apply modSluice_keeps (hw₀.sub rfl) | split | (intro e; cases e)

theorem hubTake_keeps (hw₀ : Has 0x400 w₀) (n r op : Nat) {s : State} (h₀ : Keeps w₀ s₀ s) :
    Keeps w₀ s₀ (hubTake n r op s) := by
  unfold hubTake
  try dsimp -proj only
  repeat' with_reducible first
    | assumption | apply modSluice_keeps (hw₀.sub rfl) | split

theorem hubDrop_keeps (hw₀ : Has 0x400 w₀) (n c : Nat) {s : State} (h₀ : Keeps w₀ s₀ s) :
    Keeps w₀ s₀ (hubDrop n c s) := by
  unfold hubDrop
  try dsimp -proj only
  repeat' with_reducible first
    | assumption | apply modSluice_keeps (hw₀.sub rfl) | split

theorem slMisses_keeps (hw₀ : Has 0x30000000000000000000000000000000000000000000080000000000 w₀) (n : Nat)
    (x1 : List SlReq) {x2 : State} (h₀ : Keeps w₀ s₀ x2) :
    Keeps w₀ s₀ (slMisses n x1 x2).2 := by
  revert h₀
  fun_induction slMisses n x1 x2 <;> intro h₀
  all_goals repeat' with_reducible first
    | refine setEvt_keeps (p := 5) (hw₀.sub rfl) (hw₀.sub rfl) _ _ (by with_unfolding_all rfl) reg_pendFld5 ?_
    | refine addFk_keeps (hw₀.sub rfl) _ _ _ _ reg_SLUICE_MISS_CNT ?_ | apply_assumption -exfalso

theorem sluiceDeadlineMiss_keeps (hw₀ : Has 0x30400000000000000000000000000000000000000000080000000400 w₀) (n dt : Nat)
    {s : State} (h₀ : Keeps w₀ s₀ s) :
    Keeps w₀ s₀ (sluiceDeadlineMiss n dt s) := by
  unfold sluiceDeadlineMiss
  repeat' with_reducible first
    | assumption | apply slTick_keeps (hw₀.sub rfl) | apply slMisses_keeps (hw₀.sub rfl)
    | apply modSluice_keeps (hw₀.sub rfl)

theorem execSluiceDeadlineMiss_keeps (hw₀ : Has 0x30400000000000000000000000000000000000000000080000000400 w₀)
    (n dt : Nat) {s : State} (h₀ : Keeps w₀ s₀ s) :
    ∀ t₁, execSluiceDeadlineMiss n dt s = .next t₁ → Keeps w₀ s₀ t₁ := by
  unfold execSluiceDeadlineMiss
  intro t₁ ht
  cases ht
  repeat' with_reducible first
    | assumption | apply runningIn_keeps | apply sluiceDeadlineMiss_keeps (hw₀.sub rfl)

theorem slPins_keeps (hw₀ : Has 0x20200000000000000000000000000000000000000000080000000000 w₀) (n : Nat) (x1 : List SlReq)
    {x2 : State} (h₀ : Keeps w₀ s₀ x2) :
    Keeps w₀ s₀ (slPins n x1 x2).2 := by
  revert h₀
  fun_induction slPins n x1 x2 <;> intro h₀
  all_goals repeat' with_reducible first
    | refine setEvt_keeps (p := 5) (hw₀.sub rfl) (hw₀.sub rfl) _ _ (by with_unfolding_all rfl) reg_pendFld5 ?_
    | refine incr_keeps (hw₀.sub rfl) _ _ reg_SLUICE_PINNED_CNT ?_ | apply_assumption -exfalso

theorem sluicePin_keeps (hw₀ : Has 0x20600000000000000000000000000000000000000000080000000400 w₀) (n dt : Nat) {s : State}
    (h₀ : Keeps w₀ s₀ s) :
    Keeps w₀ s₀ (sluicePin n dt s) := by
  unfold sluicePin
  repeat' with_reducible first
    | assumption | apply slTick_keeps (hw₀.sub rfl) | apply slPins_keeps (hw₀.sub rfl) | apply modSluice_keeps (hw₀.sub rfl)

theorem execSluicePin_keeps (hw₀ : Has 0x20600000000000000000000000000000000000000000080000000400 w₀) (n dt : Nat)
    {s : State} (h₀ : Keeps w₀ s₀ s) :
    ∀ t₁, execSluicePin n dt s = .next t₁ → Keeps w₀ s₀ t₁ := by
  unfold execSluicePin
  intro t₁ ht
  cases ht
  repeat' with_reducible first
    | assumption | apply runningIn_keeps | apply sluicePin_keeps (hw₀.sub rfl)

end Sys2Proof.Machine
end

