-- ==== Sys2Proof/Laws/KeepsCommands.lean ====
section
/-! SUPPORT. What the functions of Machine/Commands.lean may change. -/

namespace Sys2Proof.Machine

set_option exponentiation.threshold 600

variable {w₀ : Nat} {s₀ : State}

theorem modSlot_keeps (hw₀ : Has 0x100000 w₀) (c n : Nat) (f : Slot → Slot) {s : State} (h₀ : Keeps w₀ s₀ s) :
    Keeps w₀ s₀ (modSlot c n f s) := by
  unfold modSlot
  repeat' with_reducible first
    | assumption | apply modCtx_keeps (hw₀.sub rfl)

theorem modQueue_keeps (hw₀ : Has 0x100000 w₀) (c q : Nat) (f : Queue → Queue) {s : State} (h₀ : Keeps w₀ s₀ s) :
    Keeps w₀ s₀ (modQueue c q f s) := by
  unfold modQueue
  repeat' with_reducible first
    | assumption | apply modCtx_keeps (hw₀.sub rfl)

theorem report_keeps (hw₀ : Has 0x200000 w₀) (h st r0 r1 : Nat) {s : State} (h₀ : Keeps w₀ s₀ s) :
    Keeps w₀ s₀ (report h st r0 r1 s) := by
  unfold report
  repeat' with_reducible first
    | assumption | apply keeps_reports (hw₀.sub rfl)

theorem runCmd_keeps (hw₀ : Has 0x100000 w₀) (h op : Nat) (f : List Byte → State → State) {s : State} (h₀ : Keeps w₀ s₀ s)
    (hf₀ : ∀ y0 s, Keeps w₀ s₀ s → Keeps w₀ s₀ (f y0 s)) :
    Keeps w₀ s₀ (runCmd h op f s) := by
  unfold runCmd
  repeat' with_reducible first
    | assumption | apply keeps_ite | apply modSlot_keeps (hw₀.sub rfl) | apply hf₀

theorem unrunCmd_keeps (hw₀ : Has 0x100000 w₀) (h : Nat) {s : State} (h₀ : Keeps w₀ s₀ s) :
    Keeps w₀ s₀ (unrunCmd h s) := by
  unfold unrunCmd
  repeat' with_reducible first
    | assumption | apply modSlot_keeps (hw₀.sub rfl)

theorem setTurn_keeps (hw₀ : Has 0x100000 w₀) (h : Nat) (b : Bool) {s : State} (h₀ : Keeps w₀ s₀ s) :
    Keeps w₀ s₀ (setTurn h b s) := by
  unfold setTurn
  repeat' with_reducible first
    | assumption | apply modSlot_keeps (hw₀.sub rfl)

theorem freeSlot_keeps
    (hw₀ : Has 0x4000000000000000000000000000000000000000000000000000000000000000000000000000000000000000000000000000000100000 w₀)
    (c n : Nat) {s : State} (h₀ : Keeps w₀ s₀ s) :
    Keeps w₀ s₀ (freeSlot c n s) := by
  unfold freeSlot
  repeat' with_reducible first
    | assumption | apply modSlot_keeps (hw₀.sub rfl) | refine setF_keeps (hw₀.sub rfl) _ _ _ reg_CQ_SLOTS_USED ?_
    | apply modQueue_keeps (hw₀.sub rfl) | apply modCtx_keeps (hw₀.sub rfl)

theorem cqSignal_keeps (hw₀ : Has 0x80000100000 w₀) (c q : Nat) {s : State} (h₀ : Keeps w₀ s₀ s) :
    Keeps w₀ s₀ (cqSignal c q s) := by
  unfold cqSignal
  repeat' with_reducible first
    | assumption | apply modQueue_keeps (hw₀.sub rfl) | apply emit_keeps (hw₀.sub rfl)

theorem cqWrite_keeps
    (hw₀ : Has 0x10004c00000000000000000000000000000000000000000000000000000000000000000000000000000000000000000000000080000100020 w₀)
    (c q : Nat) (e : List Byte) {s : State} (h₀ : Keeps w₀ s₀ s) :
    Keeps w₀ s₀ (cqWrite c q e s) := by
  unfold cqWrite
  repeat' with_reducible first
    | assumption | apply keeps_ite | apply hostWrite_keeps (hw₀.sub rfl)
    | refine setFk_keeps (hw₀.sub rfl) _ _ _ _ reg_CQ_CQ_TAIL ?_ | apply modQueue_keeps (hw₀.sub rfl)
    | apply freeSlot_keeps (hw₀.sub rfl) | refine incr_keeps (hw₀.sub rfl) _ _ reg_CQ_COMPLETED ?_
    | apply cqSignal_keeps (hw₀.sub rfl) | refine incr_keeps (hw₀.sub rfl) _ _ reg_CQ_ACCEPTED ?_

theorem cqPost_keeps
    (hw₀ : Has 0x90004c00000000000000000000000000000000000000000000000000000000000000000000000000000000000000000000000080000100020 w₀)
    (c q : Nat) (e : List Byte) {s : State} (h₀ : Keeps w₀ s₀ s) :
    Keeps w₀ s₀ (cqPost c q e s) := by
  unfold cqPost
  repeat' with_reducible first
    | assumption | apply cqWrite_keeps (hw₀.sub rfl)
    | refine setEvt_keeps (p := 12) (hw₀.sub rfl) (hw₀.sub rfl) _ _ (by with_unfolding_all rfl) reg_pendFld12 ?_
    | apply modQueue_keeps (hw₀.sub rfl) | split

theorem cqDrain_keeps
    (hw₀ : Has 0x10004c00000000000000000000000000000000000000000000000000000000000000000000000000000000000000000000000080000100020 w₀)
    (c q x1 : Nat) {x2 : State} (h₀ : Keeps w₀ s₀ x2) :
    Keeps w₀ s₀ (cqDrain c q x1 x2) := by
  revert h₀
  fun_induction cqDrain c q x1 x2 <;> intro h₀
  all_goals repeat' with_reducible first
    | apply cqWrite_keeps (hw₀.sub rfl) | apply modQueue_keeps (hw₀.sub rfl) | apply_assumption -exfalso

theorem endCmd_keeps
    (hw₀ : Has 0x90004c00000000000000000000000000000000000000000000000000000000000000000000000000000000000000000000000080000100020 w₀)
    (h st r0 r1 : Nat) {s : State} (h₀ : Keeps w₀ s₀ s) :
    Keeps w₀ s₀ (endCmd h st r0 r1 s) := by
  unfold endCmd
  repeat' with_reducible first
    | assumption | apply cqPost_keeps (hw₀.sub rfl) | apply modQueue_keeps (hw₀.sub rfl) | apply modSlot_keeps (hw₀.sub rfl)

end Sys2Proof.Machine
end

