-- ==== Sys2Proof/Laws/KeepsMemory.lean ====
section
/-! SUPPORT. What the functions of Machine/Memory.lean may change. -/

namespace Sys2Proof.Machine

set_option exponentiation.threshold 600

variable {w₀ : Nat} {s₀ : State}

theorem respond_keeps (hw₀ : Has 0x80 w₀) (eng tag : Nat) (st : MemStatus) (data : List Byte) {s : State} (h₀ : Keeps w₀ s₀ s) :
    Keeps w₀ s₀ (respond eng tag st data s) := by
  unfold respond
  repeat' with_reducible first
    | assumption | apply keeps_responses (hw₀.sub rfl)

theorem answer_keeps (hw₀ : Has 0x80 w₀) (q : MemReq) (st : MemStatus) (data : List Byte) {s : State} (h₀ : Keeps w₀ s₀ s) :
    Keeps w₀ s₀ (answer q st data s) := by
  unfold answer
  try dsimp -proj only
  repeat' with_reducible first
    | assumption | apply keeps_responses (hw₀.sub rfl) | split

theorem memRequest_keeps (hw₀ : Has 0x40040000000000000000000000000000000000080000000180 w₀) (d ctx cls a : Nat)
    (write copy : Bool) (data : List Byte) (tag : Nat) {s : State} (h₀ : Keeps w₀ s₀ s) :
    Keeps w₀ s₀ (memRequest d ctx cls a write copy data tag s) := by
  unfold memRequest
  repeat' with_reducible first
    | assumption | apply modMc_keeps (hw₀.sub rfl) | apply respond_keeps (hw₀.sub rfl)
    | apply noteMiss_keeps (hw₀.sub rfl) | split

theorem execMemRequest_keeps (hw₀ : Has 0x40040000000000000000000000000000000000080000000180 w₀) (d ctx cls a : Nat)
    (write copy : Bool) (data : List Byte) (tag : Nat) {s : State} (h₀ : Keeps w₀ s₀ s) :
    ∀ t₁, execMemRequest d ctx cls a write copy data tag s = .next t₁ → Keeps w₀ s₀ t₁ := by
  unfold execMemRequest
  intro t₁ ht
  cases ht
  repeat' with_reducible first
    | assumption | apply awake_keeps | apply memRequest_keeps (hw₀.sub rfl)

theorem setWeirLevel_keeps (hw₀ : Has 0x4000000000000000000000000000000000000000000000000100 w₀) (m p l : Nat) {s : State}
    (h₀ : Keeps w₀ s₀ s) :
    Keeps w₀ s₀ (setWeirLevel m p l s) := by
  unfold setWeirLevel
  repeat' with_reducible first
    | assumption | apply modMc_keeps (hw₀.sub rfl) | refine setFk_keeps (hw₀.sub rfl) _ _ _ _ reg_WEIR_LVL ?_

theorem weirTick_keeps (hw₀ : Has 0x4800000000000000000000000000000000000000000000000100 w₀) (m dt : Nat) (x1 : Nat) {x2 : State} (h₀ : Keeps w₀ s₀ x2) :
    Keeps w₀ s₀ (weirTick m dt x1 x2) := by
  revert h₀
  fun_induction weirTick m dt x1 x2 <;> intro h₀
  all_goals repeat' with_reducible first
    | apply keeps_ite | refine addFk_keeps (hw₀.sub rfl) _ _ _ _ reg_WEIR_WAIT_CYC ?_
    | apply setWeirLevel_keeps (hw₀.sub rfl) | apply_assumption -exfalso

theorem memEnter_keeps (hw₀ : Has 0x500 w₀) (q : MemReq) (rest : List MemReq) {s : State} (h₀ : Keeps w₀ s₀ s) :
    Keeps w₀ s₀ (memEnter q rest s) := by
  unfold memEnter
  repeat' with_reducible first
    | assumption | apply slEnter_keeps (hw₀.sub rfl) | apply modMc_keeps (hw₀.sub rfl)

theorem weirAdmit_keeps (hw₀ : Has 0x4800000000000000000000000000000000000000000000000500 w₀) (m p dt : Nat) {s : State}
    (h₀ : Keeps w₀ s₀ s) :
    Keeps w₀ s₀ (weirAdmit m p dt s) := by
  unfold weirAdmit
  repeat' with_reducible first
    | assumption | apply keeps_ite | apply weirTick_keeps (hw₀.sub rfl) | apply setWeirLevel_keeps (hw₀.sub rfl)
    | apply memEnter_keeps (hw₀.sub rfl) | split

theorem execWeirAdmit_keeps (hw₀ : Has 0x4800000000000000000000000000000000000000000000000500 w₀) (m p dt : Nat)
    {s : State} (h₀ : Keeps w₀ s₀ s) :
    ∀ t₁, execWeirAdmit m p dt s = .next t₁ → Keeps w₀ s₀ t₁ := by
  unfold execWeirAdmit
  intro t₁ ht
  cases ht
  repeat' with_reducible first
    | assumption | apply runningIn_keeps | apply weirAdmit_keeps (hw₀.sub rfl)

theorem showPending_keeps (hw₀ : Has 0xc000000000000000000000000000000000000000000000000 w₀) (i : Nat) {s : State} (h₀ : Keeps w₀ s₀ s) :
    Keeps w₀ s₀ (showPending i s) := by
  unfold showPending
  try dsimp -proj only
  repeat' with_reducible first
    | assumption | refine setF_keeps (hw₀.sub rfl) _ _ _ reg_MEMCTL_PENDING_ROWS ?_
    | refine setF_keeps (hw₀.sub rfl) _ _ _ reg_MEMCTL_PENDING_REMAP_USED ?_ | split

theorem setRow_keeps (hw₀ : Has 0x100 w₀) (chan row : Nat) (st : RowState) {s : State} (h₀ : Keeps w₀ s₀ s) :
    Keeps w₀ s₀ (setRow chan row st s) := by
  unfold setRow
  repeat' with_reducible first
    | assumption | apply modMc_keeps (hw₀.sub rfl)

theorem startRetire_keeps (hw₀ : Has 0x40008000000000000000000000000000000000080000800100 w₀) (chan row : Nat) {s : State}
    (h₀ : Keeps w₀ s₀ s) :
    Keeps w₀ s₀ (startRetire chan row s) := by
  unfold startRetire
  try dsimp -proj only
  repeat' with_reducible first
    | assumption | apply modMc_keeps (hw₀.sub rfl) | apply memEvt_keeps (hw₀.sub rfl)
    | refine setEvt_keeps (p := 3) (hw₀.sub rfl) (hw₀.sub rfl) _ _ (by with_unfolding_all rfl) reg_pendFld3 ?_
    | refine incr_keeps (hw₀.sub rfl) _ _ reg_MEMCTL_PAGE_LOST_CNT ?_ | split

theorem startRemap_keeps (hw₀ : Has 0x40008000000000000000000000000000000000080000800100 w₀) (chan row : Nat) {s : State}
    (h₀ : Keeps w₀ s₀ s) :
    Keeps w₀ s₀ (startRemap chan row s) := by
  unfold startRemap
  try dsimp -proj only
  repeat' with_reducible first
    | assumption | apply modMc_keeps (hw₀.sub rfl) | apply startRetire_keeps (hw₀.sub rfl) | split

theorem cancelRepair_keeps (hw₀ : Has 0x4000000000000000000000000000000000000000100 w₀) (chan row : Nat) {s : State} (h₀ : Keeps w₀ s₀ s) :
    Keeps w₀ s₀ (cancelRepair chan row s) := by
  unfold cancelRepair
  try dsimp -proj only
  repeat' with_reducible first
    | assumption | refine setF_keeps (hw₀.sub rfl) _ _ _ reg_MEMCTL_STAT_PARKED ?_ | apply modMc_keeps (hw₀.sub rfl)
    | split

theorem rowFail_keeps (hw₀ : Has 0x4c008804000000000000000000000000000000080000800100 w₀) (chan row : Nat) {s : State}
    (h₀ : Keeps w₀ s₀ s) :
    Keeps w₀ s₀ (rowFail chan row s) := by
  unfold rowFail
  repeat' with_reducible first
    | assumption | apply keeps_ite
    | refine setEvt_keeps (p := 3) (hw₀.sub rfl) (hw₀.sub rfl) _ _ (by with_unfolding_all rfl) reg_pendFld3 ?_
    | refine incr_keeps (hw₀.sub rfl) _ _ reg_MEMCTL_ROW_FAIL_CNT ?_ | apply setRow_keeps (hw₀.sub rfl)
    | apply startRemap_keeps (hw₀.sub rfl) | apply startRetire_keeps (hw₀.sub rfl)
    | apply showPending_keeps (hw₀.sub rfl) | apply cancelRepair_keeps (hw₀.sub rfl) | split

theorem dramCopy_keeps {w : Nat} {s₀ : State} (hw : Has 0xc w) (src dst n : Nat) {s : State} (h : Keeps w s₀ s) :
    Keeps w s₀ (dramCopy src dst n s) :=
  keeps_poison (hw.sub rfl) _ (keeps_mem (hw.sub rfl) _ (fun x => Store.canon_foldl_put _ _ _ (Store.canon_filter _ x)) h)

theorem poisonAll_keeps (hw₀ : Has 0x8 w₀) (dst : Nat) (bad : List Nat) {s : State} (h₀ : Keeps w₀ s₀ s) :
    Keeps w₀ s₀ (poisonAll dst bad s) := by
  unfold poisonAll
  repeat' with_reducible first
    | assumption | apply keeps_poison (hw₀.sub rfl)

theorem remapCopyDone_keeps (hw₀ : Has 0x4c00200000000000000000000000000000000008000080010c w₀) (m : Nat) (bad : List Nat)
    {s : State} (h₀ : Keeps w₀ s₀ s) :
    Keeps w₀ s₀ (remapCopyDone m bad s) := by
  unfold remapCopyDone
  repeat' with_reducible first
    | assumption | apply poisonAll_keeps (hw₀.sub rfl) | apply dramCopy_keeps (hw₀.sub rfl)
    | apply setRow_keeps (hw₀.sub rfl) | apply modMc_keeps (hw₀.sub rfl) | apply memEvt_keeps (hw₀.sub rfl)
    | refine setEvt_keeps (p := 3) (hw₀.sub rfl) (hw₀.sub rfl) _ _ (by with_unfolding_all rfl) reg_pendFld3 ?_
    | refine incr_keeps (hw₀.sub rfl) _ _ reg_MEMCTL_REMAP_CNT ?_ | apply showPending_keeps (hw₀.sub rfl) | split

theorem execRemapCopyDone_keeps (hw₀ : Has 0x4c00200000000000000000000000000000000008000080010c w₀) (m : Nat)
    (bad : List Nat) {s : State} (h₀ : Keeps w₀ s₀ s) :
    ∀ t₁, execRemapCopyDone m bad s = .next t₁ → Keeps w₀ s₀ t₁ := by
  unfold execRemapCopyDone
  intro t₁ ht
  cases ht
  repeat' with_reducible first
    | assumption | apply runningIn_keeps | apply remapCopyDone_keeps (hw₀.sub rfl)

theorem copyRows_keeps (hw₀ : Has 0xc w₀) (chan page dst x1 : Nat) {x2 : State} (h₀ : Keeps w₀ s₀ x2) :
    Keeps w₀ s₀ (copyRows chan page dst x1 x2) := by
  revert h₀
  fun_induction copyRows chan page dst x1 x2 <;> intro h₀
  all_goals repeat' with_reducible first
    | apply dramCopy_keeps (hw₀.sub rfl) | apply_assumption -exfalso

theorem parkRepair_keeps (hw₀ : Has 0x600000000000000000000000000000000000000010c w₀) (n : Nat) {s : State} (h₀ : Keeps w₀ s₀ s) :
    Keeps w₀ s₀ (parkRepair n s) := by
  unfold parkRepair
  try dsimp -proj only
  repeat' with_reducible first
    | assumption | refine setF_keeps (hw₀.sub rfl) _ _ _ reg_MEMCTL_STAT_PARKED ?_
    | refine setF_keeps (hw₀.sub rfl) _ _ _ reg_MEMCTL_STAT_PK_CH ?_ | apply modMc_keeps (hw₀.sub rfl)
    | apply copyRows_keeps (hw₀.sub rfl) | split

theorem memGranted_keeps (hw₀ : Has 0x600000000000000000000000000000000000000010c w₀) (n : Nat) (pay : SlPay) {s : State} (h₀ : Keeps w₀ s₀ s) :
    Keeps w₀ s₀ (memGranted n pay s) := by
  unfold memGranted
  try dsimp -proj only
  repeat' with_reducible first
    | assumption | apply modMc_keeps (hw₀.sub rfl) | apply parkRepair_keeps (hw₀.sub rfl) | split

theorem memSluiceGrant_keeps (hw₀ : Has 0xe10000000000600000000000000000000000000000000000000050c w₀) (n : Nat)
    {s : State} (h₀ : Keeps w₀ s₀ s) :
    Keeps w₀ s₀ (memSluiceGrant n s) := by
  unfold memSluiceGrant
  try dsimp -proj only
  repeat' with_reducible first
    | assumption | refine slServe_keeps (hw₀.sub rfl) _ _ _ _ ?_ (by assumption)
    | (intro _; refine slServe_keeps (hw₀.sub rfl) _ _ _ _ ?_ (by assumption)) | apply memGranted_keeps (hw₀.sub rfl)
    | split

theorem retireCopyDone_keeps (hw₀ : Has 0x4c00400000000000000000000000000000000008000080010c w₀) (m : Nat)
    (bad : List Nat) {s : State} (h₀ : Keeps w₀ s₀ s) :
    Keeps w₀ s₀ (retireCopyDone m bad s) := by
  unfold retireCopyDone
  repeat' with_reducible first
    | assumption | apply poisonAll_keeps (hw₀.sub rfl) | apply copyRows_keeps (hw₀.sub rfl)
    | apply setRow_keeps (hw₀.sub rfl) | apply modMc_keeps (hw₀.sub rfl) | apply memEvt_keeps (hw₀.sub rfl)
    | refine setEvt_keeps (p := 3) (hw₀.sub rfl) (hw₀.sub rfl) _ _ (by with_unfolding_all rfl) reg_pendFld3 ?_
    | refine incr_keeps (hw₀.sub rfl) _ _ reg_MEMCTL_RETIRE_CNT ?_ | apply showPending_keeps (hw₀.sub rfl) | split

theorem execRetireCopyDone_keeps (hw₀ : Has 0x4c00400000000000000000000000000000000008000080010c w₀) (m : Nat)
    (bad : List Nat) {s : State} (h₀ : Keeps w₀ s₀ s) :
    ∀ t₁, execRetireCopyDone m bad s = .next t₁ → Keeps w₀ s₀ t₁ := by
  unfold execRetireCopyDone
  intro t₁ ht
  cases ht
  repeat' with_reducible first
    | assumption | apply runningIn_keeps | apply retireCopyDone_keeps (hw₀.sub rfl)

theorem maintEnter_keeps (hw₀ : Has 0x500 w₀) (n r op : Nat) {s : State} (h₀ : Keeps w₀ s₀ s) :
    Keeps w₀ s₀ (maintEnter n r op s) := by
  unfold maintEnter
  try dsimp -proj only
  repeat' with_reducible first
    | assumption | apply slEnter_keeps (hw₀.sub rfl) | apply modMc_keeps (hw₀.sub rfl) | split

theorem memSluiceEnter_keeps (hw₀ : Has 0x500 w₀) (n r op : Nat) {s : State} (h₀ : Keeps w₀ s₀ s) :
    Keeps w₀ s₀ (memSluiceEnter n r op s) := by
  unfold memSluiceEnter
  try dsimp -proj only
  repeat' with_reducible first
    | assumption | apply memEnter_keeps (hw₀.sub rfl) | apply maintEnter_keeps (hw₀.sub rfl) | split

theorem eccCorrect_keeps (hw₀ : Has 0x4c008a04000000000000000000000000000000080000800100 w₀) (chan row : Nat)
    (again : Bool) {s : State} (h₀ : Keeps w₀ s₀ s) :
    Keeps w₀ s₀ (eccCorrect chan row again s) := by
  unfold eccCorrect
  repeat' with_reducible first
    | assumption | refine setEvt_keeps (p := 3) (hw₀.sub rfl) (hw₀.sub rfl) _ _ (by with_unfolding_all rfl) reg_pendFld3 ?_
    | refine incr_keeps (hw₀.sub rfl) _ _ reg_MEMCTL_CE_CNT ?_ | apply rowFail_keeps (hw₀.sub rfl) | split

theorem eccUncorr_keeps (hw₀ : Has 0x4c008dc4000000000000000000000000000000080000800100 w₀) (chan row cls : Nat)
    {s : State} (h₀ : Keeps w₀ s₀ s) :
    Keeps w₀ s₀ (eccUncorr chan row cls s) := by
  unfold eccUncorr
  repeat' with_reducible first
    | assumption
    | refine setEvt_keeps (p := 3) (hw₀.sub rfl) (hw₀.sub rfl) _ _ (by with_unfolding_all rfl) reg_pendFld3 ?_
    | refine incr_keeps (hw₀.sub rfl) _ _ reg_MEMCTL_UE_CNT ?_
    | refine setF_keeps (hw₀.sub rfl) _ _ _ reg_MEMCTL_ERR_INFO_CHAN ?_
    | refine setF_keeps (hw₀.sub rfl) _ _ _ reg_MEMCTL_ERR_INFO_ROW ?_
    | refine setF_keeps (hw₀.sub rfl) _ _ _ reg_MEMCTL_ERR_INFO_CLASS ?_ | apply rowFail_keeps (hw₀.sub rfl)
    | apply memEvt_keeps (hw₀.sub rfl) | apply modMc_keeps (hw₀.sub rfl) | split

theorem markWeak_keeps (hw₀ : Has 0x100 w₀) (m k : Nat) {s : State} (h₀ : Keeps w₀ s₀ s) :
    Keeps w₀ s₀ (markWeak m k s) := by
  unfold markWeak
  try dsimp -proj only
  repeat' with_reducible first
    | assumption | apply modMc_keeps (hw₀.sub rfl) | split

theorem readCorrected_keeps (hw₀ : Has 0x4c008a04000000000000000000000000000000080000800100 w₀) (chan row k : Nat) (again : Bool) {s : State} (h₀ : Keeps w₀ s₀ s) :
    Keeps w₀ s₀ (readCorrected chan row k again s) := by
  unfold readCorrected
  try dsimp -proj only
  repeat' with_reducible first
    | assumption | apply eccCorrect_keeps (hw₀.sub rfl) | apply markWeak_keeps (hw₀.sub rfl) | split

theorem setPoison_keeps {w : Nat} {s₀ : State} (hw : Has 0x8 w) (k : Nat) (b : Bool) {s : State} (h : Keeps w s₀ s) :
    Keeps w s₀ (setPoison k b s) := keeps_poison hw _ h

theorem dramWrite_keeps {w : Nat} {s₀ : State} (hw : Has 0xc w) (k : Nat) (data : List Byte) {s : State} (h : Keeps w s₀ s) :
    Keeps w s₀ (dramWrite k data s) := by
  unfold dramWrite
  have e := keeps_mem (hw.sub rfl) (Store.putAll (0 : Byte) k (data.take 64) s.mem) (fun x => Store.canon_putAll _ _ x) h
  dsimp only
  split
  · exact setPoison_keeps (hw.sub rfl) _ _ e
  · exact e

theorem readUncorr_keeps (hw₀ : Has 0x4c008dc4000000000000000000000000000000080000800108 w₀) (chan row cls k : Nat) {s : State} (h₀ : Keeps w₀ s₀ s) :
    Keeps w₀ s₀ (readUncorr chan row cls k s) := by
  unfold readUncorr
  try dsimp -proj only
  repeat' with_reducible first
    | assumption | apply setPoison_keeps (hw₀.sub rfl) | apply eccUncorr_keeps (hw₀.sub rfl)

theorem memReadDone_keeps (hw₀ : Has 0x4c008fc4000000000000000000000000000000080000800188 w₀) (chan : Nat) (ecc : Ecc)
    {s : State} (h₀ : Keeps w₀ s₀ s) :
    Keeps w₀ s₀ (memReadDone chan ecc s) := by
  unfold memReadDone
  try dsimp -proj only
  repeat' with_reducible first
    | assumption | apply modMc_keeps (hw₀.sub rfl) | apply eccUncorr_keeps (hw₀.sub rfl)
    | apply answer_keeps (hw₀.sub rfl) | apply readCorrected_keeps (hw₀.sub rfl)
    | apply readUncorr_keeps (hw₀.sub rfl) | split

theorem execMemRead_keeps (hw₀ : Has 0x4c008fc4000000000000000000000000000000080000800188 w₀) (chan : Nat) (ecc : Ecc)
    {s : State} (h₀ : Keeps w₀ s₀ s) :
    ∀ t₁, execMemRead chan ecc s = .next t₁ → Keeps w₀ s₀ t₁ := by
  unfold execMemRead
  intro t₁ ht
  cases ht
  repeat' with_reducible first
    | assumption | apply runningIn_keeps | apply memReadDone_keeps (hw₀.sub rfl)

theorem memWriteDone_keeps (hw₀ : Has 0x18c w₀) (chan : Nat) {s : State} (h₀ : Keeps w₀ s₀ s) :
    Keeps w₀ s₀ (memWriteDone chan s) := by
  unfold memWriteDone
  try dsimp -proj only
  repeat' with_reducible first
    | assumption | apply modMc_keeps (hw₀.sub rfl) | apply respond_keeps (hw₀.sub rfl)
    | apply dramWrite_keeps (hw₀.sub rfl) | split

theorem execMemWrite_keeps (hw₀ : Has 0x18c w₀) (chan : Nat) {s : State} (h₀ : Keeps w₀ s₀ s) :
    ∀ t₁, execMemWrite chan s = .next t₁ → Keeps w₀ s₀ t₁ := by
  unfold execMemWrite
  intro t₁ ht
  cases ht
  repeat' with_reducible first
    | assumption | apply runningIn_keeps | apply memWriteDone_keeps (hw₀.sub rfl)

theorem scrubbed_keeps (hw₀ : Has 0x4c008fc4000000000000000000000000000000080000800108 w₀) (chan page off : Nat) (ecc : Ecc) (written : Bool) {s : State} (h₀ : Keeps w₀ s₀ s) :
    Keeps w₀ s₀ (scrubbed chan page off ecc written s) := by
  unfold scrubbed
  try dsimp -proj only
  repeat' with_reducible first
    | assumption | apply eccUncorr_keeps (hw₀.sub rfl) | apply readCorrected_keeps (hw₀.sub rfl)
    | apply readUncorr_keeps (hw₀.sub rfl) | split

theorem scrubRead_keeps (hw₀ : Has 0x4c088fc4000000000000000000000000000000080000800108 w₀) (m chan page off : Nat)
    (ecc : Ecc) (written passEnd : Bool) {s : State} (h₀ : Keeps w₀ s₀ s) :
    Keeps w₀ s₀ (scrubRead m chan page off ecc written passEnd s) := by
  unfold scrubRead
  repeat' with_reducible first
    | assumption | apply keeps_ite | refine incr_keeps (hw₀.sub rfl) _ _ reg_MEMCTL_SCRUB_PASS ?_
    | apply scrubbed_keeps (hw₀.sub rfl) | apply modMc_keeps (hw₀.sub rfl) | split

theorem execScrubRead_keeps (hw₀ : Has 0x4c088fc4000000000000000000000000000000080000800108 w₀) (m chan page off : Nat)
    (ecc : Ecc) (written passEnd : Bool) {s : State} (h₀ : Keeps w₀ s₀ s) :
    ∀ t₁, execScrubRead m chan page off ecc written passEnd s = .next t₁ → Keeps w₀ s₀ t₁ := by
  unfold execScrubRead
  intro t₁ ht
  cases ht
  repeat' with_reducible first
    | assumption | apply runningIn_keeps | apply scrubRead_keeps (hw₀.sub rfl)

theorem correctAll_keeps (hw₀ : Has 0x4c008a04000000000000000000000000000000080000800100 w₀) (x1 : List (Nat × Nat)) {x2 : State} (h₀ : Keeps w₀ s₀ x2) :
    Keeps w₀ s₀ (correctAll x1 x2) := by
  revert h₀
  fun_induction correctAll x1 x2 <;> intro h₀
  all_goals repeat' with_reducible first
    | apply keeps_ite | apply eccCorrect_keeps (hw₀.sub rfl) | apply_assumption -exfalso | split

theorem engRead_keeps (hw₀ : Has 0x4c048fc4000000000000000000000000000000080000800100 w₀) (d cls a n : Nat) {s : State}
    (h₀ : Keeps w₀ s₀ s) :
    Keeps w₀ s₀ (engRead d cls a n s).2 := by
  unfold engRead
  repeat' with_reducible first
    | assumption | apply noteMiss_keeps (hw₀.sub rfl) | apply eccUncorr_keeps (hw₀.sub rfl)
    | apply correctAll_keeps (hw₀.sub rfl) | split

theorem cmdRead_keeps (hw₀ : Has 0x4c048fc4000000000000000000000000000000080000a00100 w₀) (h cls a n : Nat)
    (f : List Byte → State → State) {s : State} (h₀ : Keeps w₀ s₀ s) (hf₀ : ∀ y0 s, Keeps w₀ s₀ s → Keeps w₀ s₀ (f y0 s)) :
    Keeps w₀ s₀ (cmdRead h cls a n f s) := by
  unfold cmdRead
  repeat' with_reducible first
    | assumption | apply engRead_keeps (hw₀.sub rfl) | apply report_keeps (hw₀.sub rfl) | apply hf₀ | split
    | refine keeps_snd (by assumption) ?_

theorem startDue_keeps (hw₀ : Has 0x1800000000000000000000000000000000000000100 w₀) (m : Nat) {s : State} (h₀ : Keeps w₀ s₀ s) :
    Keeps w₀ s₀ (startDue m s) := by
  unfold startDue
  try dsimp -proj only
  repeat' with_reducible first
    | assumption | refine setF_keeps (hw₀.sub rfl) _ _ _ reg_MEMCTL_STAT_RETRAINING ?_
    | refine setF_keeps (hw₀.sub rfl) _ _ _ reg_MEMCTL_STAT_RT_CH ?_ | apply modMc_keeps (hw₀.sub rfl) | split

theorem fallDue_keeps (hw₀ : Has 0x100 w₀) (m ch : Nat) {s : State} (h₀ : Keeps w₀ s₀ s) :
    Keeps w₀ s₀ (fallDue m ch s) := by
  unfold fallDue
  try dsimp -proj only
  repeat' with_reducible first
    | assumption | apply modMc_keeps (hw₀.sub rfl) | split

theorem retrainDue_keeps (hw₀ : Has 0x1800000000000000000000000000000000000000100 w₀) (m ch : Nat) {s : State}
    (h₀ : Keeps w₀ s₀ s) :
    Keeps w₀ s₀ (retrainDue m ch s) := by
  unfold retrainDue
  repeat' with_reducible first
    | assumption | apply startDue_keeps (hw₀.sub rfl) | apply fallDue_keeps (hw₀.sub rfl) | split

theorem execRetrainDue_keeps (hw₀ : Has 0x1800000000000000000000000000000000000000100 w₀) (m ch : Nat) {s : State}
    (h₀ : Keeps w₀ s₀ s) :
    ∀ t₁, execRetrainDue m ch s = .next t₁ → Keeps w₀ s₀ t₁ := by
  unfold execRetrainDue
  intro t₁ ht
  cases ht
  repeat' with_reducible first
    | assumption | apply runningIn_keeps | apply retrainDue_keeps (hw₀.sub rfl)

theorem retrainDone_keeps (hw₀ : Has 0x10001800000000000000000000000000000000000000100 w₀) (m : Nat) {s : State}
    (h₀ : Keeps w₀ s₀ s) :
    Keeps w₀ s₀ (retrainDone m s) := by
  unfold retrainDone
  repeat' with_reducible first
    | assumption | apply modMc_keeps (hw₀.sub rfl) | refine incr_keeps (hw₀.sub rfl) _ _ reg_MEMCTL_RETRAIN_CNT ?_
    | refine setF_keeps (hw₀.sub rfl) _ _ _ reg_MEMCTL_STAT_RETRAINING ?_ | apply startDue_keeps (hw₀.sub rfl) | split

theorem execRetrainDone_keeps (hw₀ : Has 0x10001800000000000000000000000000000000000000100 w₀) (m : Nat) {s : State}
    (h₀ : Keeps w₀ s₀ s) :
    ∀ t₁, execRetrainDone m s = .next t₁ → Keeps w₀ s₀ t₁ := by
  unfold execRetrainDone
  intro t₁ ht
  cases ht
  repeat' with_reducible first
    | assumption | apply runningIn_keeps | apply retrainDone_keeps (hw₀.sub rfl)

theorem retrainTimeout_keeps (hw₀ : Has 0x40000001800000000000000000000000000000080000000100 w₀) (m : Nat) {s : State}
    (h₀ : Keeps w₀ s₀ s) :
    Keeps w₀ s₀ (retrainTimeout m s) := by
  unfold retrainTimeout
  repeat' with_reducible first
    | assumption
    | refine setEvt_keeps (p := 3) (hw₀.sub rfl) (hw₀.sub rfl) _ _ (by with_unfolding_all rfl) reg_pendFld3 ?_
    | refine setF_keeps (hw₀.sub rfl) _ _ _ reg_MEMCTL_STAT_RETRAINING ?_ | apply startDue_keeps (hw₀.sub rfl) | split

theorem execRetrainTimeout_keeps (hw₀ : Has 0x40000001800000000000000000000000000000080000000100 w₀) (m : Nat) {s : State}
    (h₀ : Keeps w₀ s₀ s) :
    ∀ t₁, execRetrainTimeout m s = .next t₁ → Keeps w₀ s₀ t₁ := by
  unfold execRetrainTimeout
  intro t₁ ht
  cases ht
  repeat' with_reducible first
    | assumption | apply runningIn_keeps | apply retrainTimeout_keeps (hw₀.sub rfl)

theorem startRepair_keeps (hw₀ : Has 0x4c008000000000000000000000000000000000080000800100 w₀) (m : Nat) (x1 : Nat) {x2 : State} (h₀ : Keeps w₀ s₀ x2) :
    Keeps w₀ s₀ (startRepair m x1 x2) := by
  induction x1 generalizing x2 with
  | zero => exact h₀
  | succ k ih =>
    unfold startRepair
    dsimp -proj only
    repeat' with_reducible first
      | assumption | apply modMc_keeps (hw₀.sub rfl) | apply ih | apply startRemap_keeps (hw₀.sub rfl)
      | apply showPending_keeps (hw₀.sub rfl) | split

theorem startRepairs_keeps (hw₀ : Has 0x4c008000000000000000000000000000000000080000800100 w₀) (x1 : Nat) {x2 : State}
    (h₀ : Keeps w₀ s₀ x2) :
    Keeps w₀ s₀ (startRepairs x1 x2) := by
  revert h₀
  fun_induction startRepairs x1 x2 <;> intro h₀
  all_goals repeat' with_reducible first
    | apply startRepair_keeps (hw₀.sub rfl) | apply_assumption -exfalso

theorem maint_keeps (hw₀ : Has 0x100200 w₀) (h : Nat) {s : State} (h₀ : Keeps w₀ s₀ s) :
    Keeps w₀ s₀ (maint h s) := by
  unfold maint
  repeat' with_reducible first
    | assumption | intro _ | apply runCmd_keeps (hw₀.sub rfl) | apply setTurn_keeps (hw₀.sub rfl)
    | apply unrunCmd_keeps (hw₀.sub rfl) | split | apply keeps_window (hw₀.sub rfl)

theorem execMaint_keeps (hw₀ : Has 0x100200 w₀) (h : Nat) {s : State} (h₀ : Keeps w₀ s₀ s) :
    ∀ t₁, execMaint h s = .next t₁ → Keeps w₀ s₀ t₁ := by
  unfold execMaint
  intro t₁ ht
  cases ht
  repeat' with_reducible first
    | assumption | apply running_keeps | apply maint_keeps (hw₀.sub rfl)

theorem maintWindowStart_keeps (hw₀ : Has 0x4c008000000000000000000000000000000000080000900300 w₀) {s : State}
    (h₀ : Keeps w₀ s₀ s) :
    Keeps w₀ s₀ (maintWindowStart s) := by
  unfold maintWindowStart
  repeat' with_reducible first
    | assumption | apply startRepairs_keeps (hw₀.sub rfl) | apply setTurn_keeps (hw₀.sub rfl) | split
    | apply keeps_window (hw₀.sub rfl)

theorem execMaintWindowStart_keeps (hw₀ : Has 0x4c008000000000000000000000000000000000080000900300 w₀) {s : State}
    (h₀ : Keeps w₀ s₀ s) :
    ∀ t₁, execMaintWindowStart s = .next t₁ → Keeps w₀ s₀ t₁ := by
  unfold execMaintWindowStart
  intro t₁ ht
  cases ht
  repeat' with_reducible first
    | assumption | apply awake_keeps | apply maintWindowStart_keeps (hw₀.sub rfl)

theorem rowsBack_keeps (hw₀ : Has 0xc w₀) (chan page src : Nat) (x1 : Nat) {x2 : State} (h₀ : Keeps w₀ s₀ x2) :
    Keeps w₀ s₀ (rowsBack chan page src x1 x2) := by
  revert h₀
  fun_induction rowsBack chan page src x1 x2 <;> intro h₀
  all_goals repeat' with_reducible first
    | apply keeps_ite | apply dramCopy_keeps (hw₀.sub rfl) | apply_assumption -exfalso | split

theorem oneRepair_keeps (hw₀ : Has 0x200 w₀) {s : State} (h₀ : Keeps w₀ s₀ s) :
    Keeps w₀ s₀ (oneRepair s) := by
  unfold oneRepair
  exact keeps_window hw₀ _ h₀

theorem rowRepaired_keeps (hw₀ : Has 0x1000000000000000000000000000000000000000800300 w₀) (m chan row : Nat) {s : State} (h₀ : Keeps w₀ s₀ s) :
    Keeps w₀ s₀ (rowRepaired m chan row s) := by
  unfold rowRepaired
  try dsimp -proj only
  repeat' with_reducible first
    | assumption | refine incr_keeps (hw₀.sub rfl) _ _ reg_MEMCTL_FIELD_REP_CNT ?_
    | apply oneRepair_keeps (hw₀.sub rfl) | apply modMc_keeps (hw₀.sub rfl) | apply memEvt_keeps (hw₀.sub rfl)
    | apply setRow_keeps (hw₀.sub rfl) | split

theorem fieldRepairDone_keeps (hw₀ : Has 0x4c00900580000000000000000000000000000008000080030c w₀) (m : Nat) (spareLeft : Bool) (bad : List Nat) {s : State} (h₀ : Keeps w₀ s₀ s) :
    Keeps w₀ s₀ (fieldRepairDone m spareLeft bad s) := by
  unfold fieldRepairDone
  dsimp -proj only
  repeat' with_reducible first
    | assumption | refine setF_keeps (hw₀.sub rfl) _ _ _ reg_MEMCTL_STAT_PARKED ?_ | apply modMc_keeps (hw₀.sub rfl)
    | apply startRemap_keeps (hw₀.sub rfl) | apply startRepair_keeps (hw₀.sub rfl)
    | apply rowsBack_keeps (hw₀.sub rfl) | apply poisonAll_keeps (hw₀.sub rfl) | apply showPending_keeps (hw₀.sub rfl)
    | apply rowRepaired_keeps (hw₀.sub rfl) | apply startDue_keeps (hw₀.sub rfl) | split

theorem execFieldRepairDone_keeps (hw₀ : Has 0x4c00900580000000000000000000000000000008000080030c w₀) (m : Nat) (e : RepairEnd) {s : State} (h₀ : Keeps w₀ s₀ s) :
    ∀ t₁, execFieldRepairDone m e s = .next t₁ → Keeps w₀ s₀ t₁ := by
  unfold execFieldRepairDone
  intro t₁ ht
  cases ht
  repeat' with_reducible first
    | assumption | apply runningIn_keeps | apply fieldRepairDone_keeps (hw₀.sub rfl)

theorem maintWindowEnd_keeps (hw₀ : Has 0x200200 w₀) (ms : Nat) {s : State} (h₀ : Keeps w₀ s₀ s) :
    Keeps w₀ s₀ (maintWindowEnd ms s) := by
  unfold maintWindowEnd
  repeat' with_reducible first
    | assumption | apply report_keeps (hw₀.sub rfl) | split | apply keeps_window (hw₀.sub rfl)

theorem execMaintWindowEnd_keeps (hw₀ : Has 0x200200 w₀) (ms : Nat) {s : State} (h₀ : Keeps w₀ s₀ s) :
    ∀ t₁, execMaintWindowEnd ms s = .next t₁ → Keeps w₀ s₀ t₁ := by
  unfold execMaintWindowEnd
  intro t₁ ht
  cases ht
  repeat' with_reducible first
    | assumption | apply awake_keeps | apply maintWindowEnd_keeps (hw₀.sub rfl)

theorem parkStall_keeps (hw₀ : Has 0x40020000000000000000000000000000000000080000000100 w₀) (m : Nat) {s : State}
    (h₀ : Keeps w₀ s₀ s) :
    Keeps w₀ s₀ (parkStall m s) := by
  unfold parkStall
  repeat' with_reducible first
    | assumption | refine setEvt_keeps (p := 3) (hw₀.sub rfl) (hw₀.sub rfl) _ _ (by with_unfolding_all rfl) reg_pendFld3 ?_
    | refine incr_keeps (hw₀.sub rfl) _ _ reg_MEMCTL_PARK_STALL_CNT ?_ | apply modMc_keeps (hw₀.sub rfl) | split

theorem execParkStall_keeps (hw₀ : Has 0x40020000000000000000000000000000000000080000000100 w₀) (m : Nat) {s : State}
    (h₀ : Keeps w₀ s₀ s) :
    ∀ t₁, execParkStall m s = .next t₁ → Keeps w₀ s₀ t₁ := by
  unfold execParkStall
  intro t₁ ht
  cases ht
  repeat' with_reducible first
    | assumption | apply runningIn_keeps | apply parkStall_keeps (hw₀.sub rfl)

theorem loadEntry_keeps (hw₀ : Has 0xc000000000000000000000000000000000000000000000100 w₀) (v : Nat) {s : State}
    (h₀ : Keeps w₀ s₀ s) :
    Keeps w₀ s₀ (loadEntry v s) := by
  unfold loadEntry
  repeat' with_reducible first
    | assumption | apply setRow_keeps (hw₀.sub rfl) | apply modMc_keeps (hw₀.sub rfl)
    | apply showPending_keeps (hw₀.sub rfl) | split

theorem loadEntries_keeps (hw₀ : Has 0xc000000000000000000000000000000000000000000000100 w₀) (x1 : Nat) (x2 : List Byte)
    {x3 : State} (h₀ : Keeps w₀ s₀ x3) :
    Keeps w₀ s₀ (loadEntries x1 x2 x3) := by
  revert h₀
  fun_induction loadEntries x1 x2 x3 <;> intro h₀
  all_goals repeat' with_reducible first
    | apply loadEntry_keeps (hw₀.sub rfl) | apply_assumption -exfalso

theorem memrecImport_keeps (hw₀ : Has 0xc000000000000000000000000000000000000000000300100 w₀) (h : Nat) (recd : List Byte)
    {s : State} (h₀ : Keeps w₀ s₀ s) :
    Keeps w₀ s₀ (memrecImport h recd s) := by
  unfold memrecImport
  dsimp -proj only
  repeat' with_reducible first
    | assumption | intro _ | apply runCmd_keeps (hw₀.sub rfl) | apply report_keeps (hw₀.sub rfl)
    | apply loadEntries_keeps (hw₀.sub rfl) | split

theorem execMemrecImport_keeps (hw₀ : Has 0xc000000000000000000000000000000000000000000300100 w₀) (h : Nat)
    (recd : List Byte) {s : State} (h₀ : Keeps w₀ s₀ s) :
    ∀ t₁, execMemrecImport h recd s = .next t₁ → Keeps w₀ s₀ t₁ := by
  unfold execMemrecImport
  intro t₁ ht
  cases ht
  repeat' with_reducible first
    | assumption | apply awake_keeps | apply memrecImport_keeps (hw₀.sub rfl)

theorem memrecExport_keeps (hw₀ : Has 0x300020 w₀) (h : Nat) {s : State} (h₀ : Keeps w₀ s₀ s) :
    Keeps w₀ s₀ (memrecExport h s) := by
  unfold memrecExport
  repeat' with_reducible first
    | assumption | intro _ | apply keeps_ite | apply runCmd_keeps (hw₀.sub rfl) | apply report_keeps (hw₀.sub rfl)
    | apply hostWrite_keeps (hw₀.sub rfl)

theorem execMemrecExport_keeps (hw₀ : Has 0x300020 w₀) (h : Nat) {s : State} (h₀ : Keeps w₀ s₀ s) :
    ∀ t₁, execMemrecExport h s = .next t₁ → Keeps w₀ s₀ t₁ := by
  unfold execMemrecExport
  intro t₁ ht
  cases ht
  repeat' with_reducible first
    | assumption | apply awake_keeps | apply memrecExport_keeps (hw₀.sub rfl)

end Sys2Proof.Machine
end

