-- ==== Sys2Proof/Laws/KeepsSync.lean ====
section
/-! SUPPORT. What the functions of Machine/Sync.lean may change. -/

namespace Sys2Proof.Machine

set_option exponentiation.threshold 600

variable {w₀ : Nat} {s₀ : State}

theorem bumpEpochAt_keeps (hw₀ : Has 0x1000000000000000000000000000000000000000000000000000000000000 w₀) (c home : Nat)
    {s : State} (h₀ : Keeps w₀ s₀ s) :
    Keeps w₀ s₀ (bumpEpochAt c home s) := by
  unfold bumpEpochAt
  repeat' with_reducible first
    | assumption | refine setFk_keeps (hw₀.sub rfl) _ _ _ _ reg_SYNC_EPOCH ?_

theorem bumpEpoch_keeps (hw₀ : Has 0x1000000000000000000000000000000000000000000000000000000000000 w₀) (c : Nat)
    {s : State} (h₀ : Keeps w₀ s₀ s) :
    Keeps w₀ s₀ (bumpEpoch c s) := by
  unfold bumpEpoch
  repeat' with_reducible first
    | assumption | apply bumpEpochAt_keeps (hw₀.sub rfl)

theorem modObj_keeps (hw₀ : Has 0x800 w₀) (k : Nat) (f : SyncObj → SyncObj) {s : State} (h₀ : Keeps w₀ s₀ s) :
    Keeps w₀ s₀ (modObj k f s) := by
  unfold modObj
  repeat' with_reducible first
    | assumption | apply keeps_objs (hw₀.sub rfl)

theorem sendRelease_keeps (hw₀ : Has 0x1000 w₀) (p : Party) (st : RelStatus) {s : State} (h₀ : Keeps w₀ s₀ s) :
    Keeps w₀ s₀ (sendRelease p st s) := by
  unfold sendRelease
  repeat' with_reducible first
    | assumption | apply keeps_releases (hw₀.sub rfl)

theorem sendReleases_keeps (hw₀ : Has 0x1000 w₀) (st : RelStatus) (x1 : List Party) {x2 : State} (h₀ : Keeps w₀ s₀ x2) :
    Keeps w₀ s₀ (sendReleases st x1 x2) := by
  revert h₀
  fun_induction sendReleases st x1 x2 <;> intro h₀
  all_goals repeat' with_reducible first
    | apply sendRelease_keeps (hw₀.sub rfl) | apply_assumption -exfalso

theorem addCount_keeps (hw₀ : Has 0x400010000000000000000000000000000000000000000000000080000000800 w₀) (home k n : Nat)
    {s : State} (h₀ : Keeps w₀ s₀ s) :
    Keeps w₀ s₀ (addCount home k n s) := by
  unfold addCount
  repeat' with_reducible first
    | assumption | refine setEvt_keeps (p := 6) (hw₀.sub rfl) (hw₀.sub rfl) _ _ (by with_unfolding_all rfl) reg_pendFld6 ?_
    | refine incr_keeps (hw₀.sub rfl) _ _ reg_SYNC_SAT_CNT ?_ | apply modObj_keeps (hw₀.sub rfl) | split

theorem flagRelease_keeps (hw₀ : Has 0x1000000000000000000000000000000000000000000000000000001800 w₀) (home k x1 : Nat)
    {x2 : State} (h₀ : Keeps w₀ s₀ x2) :
    Keeps w₀ s₀ (flagRelease home k x1 x2) := by
  revert h₀
  fun_induction flagRelease home k x1 x2 <;> intro h₀
  all_goals repeat' with_reducible first
    | apply sendRelease_keeps (hw₀.sub rfl) | refine incr_keeps (hw₀.sub rfl) _ _ reg_SYNC_WAITS_DONE ?_
    | apply modObj_keeps (hw₀.sub rfl) | apply_assumption -exfalso

theorem flagExamine_keeps (hw₀ : Has 0x1000000000000000000000000000000000000000000000000000001800 w₀) (home k : Nat)
    {s : State} (h₀ : Keeps w₀ s₀ s) :
    Keeps w₀ s₀ (flagExamine home k s) := by
  unfold flagExamine
  repeat' with_reducible first
    | assumption | apply flagRelease_keeps (hw₀.sub rfl)

theorem barRelease_keeps (hw₀ : Has 0x2000000000000000000000000000000000000000000000000000001800 w₀) (home b x1 : Nat)
    {x2 : State} (h₀ : Keeps w₀ s₀ x2) :
    Keeps w₀ s₀ (barRelease home b x1 x2) := by
  revert h₀
  fun_induction barRelease home b x1 x2 <;> intro h₀
  all_goals repeat' with_reducible first
    | apply sendReleases_keeps (hw₀.sub rfl) | refine incr_keeps (hw₀.sub rfl) _ _ reg_SYNC_BAR_RELEASE ?_
    | apply modObj_keeps (hw₀.sub rfl) | apply_assumption -exfalso

theorem barExamine_keeps (hw₀ : Has 0x2000000000000000000000000000000000000000000000000000001800 w₀) (home b : Nat)
    {s : State} (h₀ : Keeps w₀ s₀ s) :
    Keeps w₀ s₀ (barExamine home b s) := by
  unfold barExamine
  repeat' with_reducible first
    | assumption | apply barRelease_keeps (hw₀.sub rfl)

theorem countStale_keeps (hw₀ : Has 0x400008000000000000000000000000000000000000000000000080000000000 w₀) (home : Nat)
    {s : State} (h₀ : Keeps w₀ s₀ s) :
    Keeps w₀ s₀ (countStale home s) := by
  unfold countStale
  repeat' with_reducible first
    | assumption | refine setEvt_keeps (p := 6) (hw₀.sub rfl) (hw₀.sub rfl) _ _ (by with_unfolding_all rfl) reg_pendFld6 ?_
    | refine incr_keeps (hw₀.sub rfl) _ _ reg_SYNC_STALE_SIG_CNT ?_

theorem homeSignal_keeps (hw₀ : Has 0x400019800000000000000000000000000000000000000000000080000001800 w₀) (o : SyncOp)
    {s : State} (h₀ : Keeps w₀ s₀ s) :
    Keeps w₀ s₀ (homeSignal o s) := by
  unfold homeSignal
  repeat' with_reducible first
    | assumption | apply countStale_keeps (hw₀.sub rfl) | apply flagExamine_keeps (hw₀.sub rfl)
    | apply addCount_keeps (hw₀.sub rfl) | refine incr_keeps (hw₀.sub rfl) _ _ reg_SYNC_SIGNALS ?_ | split

theorem holdOp_keeps (hw₀ : Has 0x2000 w₀) (o : SyncOp) {s : State} (h₀ : Keeps w₀ s₀ s) :
    Keeps w₀ s₀ (holdOp o s) := by
  unfold holdOp
  try dsimp -proj only
  repeat' with_reducible first
    | assumption | apply keeps_crossing (hw₀.sub rfl) | split

theorem homeWait_keeps (hw₀ : Has 0x400009000000000000000000000000000000000000000000000080000003800 w₀) (o : SyncOp)
    {s : State} (h₀ : Keeps w₀ s₀ s) :
    Keeps w₀ s₀ (homeWait o s) := by
  unfold homeWait
  repeat' with_reducible first
    | assumption | apply sendRelease_keeps (hw₀.sub rfl) | apply countStale_keeps (hw₀.sub rfl)
    | apply flagExamine_keeps (hw₀.sub rfl) | apply modObj_keeps (hw₀.sub rfl) | apply holdOp_keeps (hw₀.sub rfl)
    | split | dsimp -proj only

theorem homeArrive_keeps (hw₀ : Has 0x40001a000000000000000000000000000000000000000000000080000001800 w₀) (o : SyncOp)
    {s : State} (h₀ : Keeps w₀ s₀ s) :
    Keeps w₀ s₀ (homeArrive o s) := by
  unfold homeArrive
  repeat' with_reducible first
    | assumption | apply countStale_keeps (hw₀.sub rfl) | apply sendRelease_keeps (hw₀.sub rfl)
    | apply barExamine_keeps (hw₀.sub rfl) | apply addCount_keeps (hw₀.sub rfl) | apply modObj_keeps (hw₀.sub rfl) | split

theorem homeTake_keeps (hw₀ : Has 0x40001b800000000000000000000000000000000000000000000080000003800 w₀) (o : SyncOp)
    {s : State} (h₀ : Keeps w₀ s₀ s) :
    Keeps w₀ s₀ (homeTake o s) := by
  unfold homeTake
  repeat' with_reducible first
    | assumption | apply homeSignal_keeps (hw₀.sub rfl) | apply homeWait_keeps (hw₀.sub rfl)
    | apply homeArrive_keeps (hw₀.sub rfl) | split

theorem syncErr_keeps (hw₀ : Has 0x600000000000000000000000000000000000000000000000000000000 w₀) (home code cluster : Nat)
    {s : State} (h₀ : Keeps w₀ s₀ s) :
    Keeps w₀ s₀ (syncErr home code cluster s) := by
  unfold syncErr
  repeat' with_reducible first
    | assumption | refine setF_keeps (hw₀.sub rfl) _ _ _ reg_SYNC_ERR_INFO_CODE ?_
    | refine setF_keeps (hw₀.sub rfl) _ _ _ reg_SYNC_ERR_INFO_CLUSTER ?_ | split

theorem listsDone_keeps (hw₀ : Has 0x200000 w₀) (h : Nat) {s : State} (h₀ : Keeps w₀ s₀ s) :
    Keeps w₀ s₀ (listsDone h s) := by
  unfold listsDone
  repeat' with_reducible first
    | assumption | apply report_keeps (hw₀.sub rfl) | split

theorem endList_keeps (hw₀ : Has 0x204000 w₀) (cl lid : Nat) {s : State} (h₀ : Keeps w₀ s₀ s) :
    Keeps w₀ s₀ (endList cl lid s) := by
  unfold endList
  repeat' with_reducible first
    | assumption | apply listsDone_keeps (hw₀.sub rfl) | apply modCluster_keeps (hw₀.sub rfl) | split

theorem haltList_keeps (hw₀ : Has 0x4000 w₀) (cl lid : Nat) {s : State} (h₀ : Keeps w₀ s₀ s) :
    Keeps w₀ s₀ (haltList cl lid s) := by
  unfold haltList
  repeat' with_reducible first
    | assumption | apply modList_keeps (hw₀.sub rfl)

theorem syncHalt_keeps (hw₀ : Has 0x400000600000000000000000000000000000000000000000000080000004000 w₀)
    (cl lid code : Nat) {s : State} (h₀ : Keeps w₀ s₀ s) :
    Keeps w₀ s₀ (syncHalt cl lid code s) := by
  unfold syncHalt
  repeat' with_reducible first
    | assumption | apply haltList_keeps (hw₀.sub rfl)
    | refine setEvt_keeps (p := 6) (hw₀.sub rfl) (hw₀.sub rfl) _ _ (by with_unfolding_all rfl) reg_pendFld6 ?_
    | apply syncErr_keeps (hw₀.sub rfl)

theorem sendOp_keeps (hw₀ : Has 0x40001b800000000000000000000000000000000000000000000080000003800 w₀) (hold : Bool) (o : SyncOp) {s : State} (h₀ : Keeps w₀ s₀ s) :
    Keeps w₀ s₀ (sendOp hold o s) := by
  unfold sendOp
  try dsimp -proj only
  repeat' with_reducible first
    | assumption | apply holdOp_keeps (hw₀.sub rfl) | split | apply homeTake_keeps (hw₀.sub rfl)

theorem issueOp_keeps (hw₀ : Has 0x40001b800000000000000000000000000000000000000000000080000207800 w₀) (cl lid : Nat) (l : ListRun) (d : List Byte) (hold : Bool) (o : SyncOp) {s : State} (h₀ : Keeps w₀ s₀ s) :
    Keeps w₀ s₀ (issueOp cl lid l d hold o s) := by
  unfold issueOp
  try dsimp -proj only
  repeat' with_reducible first
    | assumption | apply endList_keeps (hw₀.sub rfl) | apply sendOp_keeps (hw₀.sub rfl)
    | apply modList_keeps (hw₀.sub rfl) | split

theorem listSync_keeps (hw₀ : Has 0x40001be00000000000000000000000000000000000000000000080000207800 w₀) (op cl lid : Nat)
    (hold : Bool) {s : State} (h₀ : Keeps w₀ s₀ s) :
    Keeps w₀ s₀ (listSync op cl lid hold s) := by
  unfold listSync
  repeat' with_reducible first
    | assumption | apply syncHalt_keeps (hw₀.sub rfl) | apply issueOp_keeps (hw₀.sub rfl) | split
    | dsimp -proj only

theorem crossingTake_keeps (hw₀ : Has 0x40001b800000000000000000000000000000000000000000000080000003800 w₀) (op : Nat)
    {s : State} (h₀ : Keeps w₀ s₀ s) :
    Keeps w₀ s₀ (crossingTake op s) := by
  unfold crossingTake
  repeat' with_reducible first
    | assumption | apply homeTake_keeps (hw₀.sub rfl) | split | apply keeps_crossing (hw₀.sub rfl)

theorem modColl_keeps (hw₀ : Has 0x100000 w₀) (c : Nat) (f : Coll → Coll) {s : State} (h₀ : Keeps w₀ s₀ s) :
    Keeps w₀ s₀ (modColl c f s) := by
  unfold modColl
  repeat' with_reducible first
    | assumption | apply modCtx_keeps (hw₀.sub rfl)

theorem collSync_keeps (hw₀ : Has 0x40001a600000000000000000000000000000000000000000000080000101800 w₀) (op c : Nat)
    {s : State} (h₀ : Keeps w₀ s₀ s) :
    Keeps w₀ s₀ (collSync op c s) := by
  unfold collSync
  repeat' with_reducible first
    | assumption | apply keeps_ite | apply modColl_keeps (hw₀.sub rfl)
    | refine setEvt_keeps (p := 6) (hw₀.sub rfl) (hw₀.sub rfl) _ _ (by with_unfolding_all rfl) reg_pendFld6 ?_
    | apply syncErr_keeps (hw₀.sub rfl) | apply homeArrive_keeps (hw₀.sub rfl) | split

theorem collRelease_keeps (hw₀ : Has 0x400000600000000000000000000000000000000000000000000080000100000 w₀) (c : Nat)
    (st : RelStatus) {s : State} (h₀ : Keeps w₀ s₀ s) :
    Keeps w₀ s₀ (collRelease c st s) := by
  unfold collRelease
  repeat' with_reducible first
    | assumption | apply modColl_keeps (hw₀.sub rfl)
    | refine setEvt_keeps (p := 6) (hw₀.sub rfl) (hw₀.sub rfl) _ _ (by with_unfolding_all rfl) reg_pendFld6 ?_
    | apply syncErr_keeps (hw₀.sub rfl) | split

theorem syncCmd_keeps (hw₀ : Has 0x40001be00000000000000000000000000000000000000000000080000307800 w₀) (op : Nat)
    (src : SyncSrc) {s : State} (h₀ : Keeps w₀ s₀ s) :
    Keeps w₀ s₀ (syncCmd op src s) := by
  unfold syncCmd
  repeat' with_reducible first
    | assumption | apply listSync_keeps (hw₀.sub rfl) | apply crossingTake_keeps (hw₀.sub rfl)
    | apply collSync_keeps (hw₀.sub rfl) | split

theorem execSignal_keeps (hw₀ : Has 0x40001be00000000000000000000000000000000000000000000080000307800 w₀) (src : SyncSrc)
    {s : State} (h₀ : Keeps w₀ s₀ s) :
    ∀ t₁, execSignal src s = .next t₁ → Keeps w₀ s₀ t₁ := by
  unfold execSignal
  intro t₁ ht
  cases ht
  repeat' with_reducible first
    | assumption | apply running_keeps | apply syncCmd_keeps (hw₀.sub rfl)

theorem execWait_keeps (hw₀ : Has 0x40001be00000000000000000000000000000000000000000000080000307800 w₀) (src : SyncSrc)
    {s : State} (h₀ : Keeps w₀ s₀ s) :
    ∀ t₁, execWait src s = .next t₁ → Keeps w₀ s₀ t₁ := by
  unfold execWait
  intro t₁ ht
  cases ht
  repeat' with_reducible first
    | assumption | apply running_keeps | apply syncCmd_keeps (hw₀.sub rfl)

theorem execArrive_keeps (hw₀ : Has 0x40001be00000000000000000000000000000000000000000000080000307800 w₀) (src : SyncSrc)
    {s : State} (h₀ : Keeps w₀ s₀ s) :
    ∀ t₁, execArrive src s = .next t₁ → Keeps w₀ s₀ t₁ := by
  unfold execArrive
  intro t₁ ht
  cases ht
  repeat' with_reducible first
    | assumption | apply running_keeps | apply syncCmd_keeps (hw₀.sub rfl)

theorem signalFlag_keeps (hw₀ : Has 0x400019800000000000000000000000000000000000000000000080000001800 w₀)
    (cl c flag : Nat) {s : State} (h₀ : Keeps w₀ s₀ s) :
    Keeps w₀ s₀ (signalFlag cl c flag s) := by
  unfold signalFlag
  repeat' with_reducible first
    | assumption | apply homeSignal_keeps (hw₀.sub rfl)

theorem waiterTableAdmit_keeps (hw₀ : Has 0x400029000000000000000000000000000000000000000000000080000003800 w₀)
    (home flag cyc : Nat) {s : State} (h₀ : Keeps w₀ s₀ s) :
    Keeps w₀ s₀ (waiterTableAdmit home flag cyc s) := by
  unfold waiterTableAdmit
  repeat' with_reducible first
    | assumption | refine addF_keeps (hw₀.sub rfl) _ _ _ reg_SYNC_WAIT_FULL_CYC ?_ | apply homeWait_keeps (hw₀.sub rfl)
    | split | apply keeps_crossing (hw₀.sub rfl)

theorem execWaiterTableAdmit_keeps (hw₀ : Has 0x400029000000000000000000000000000000000000000000000080000003800 w₀)
    (home flag cyc : Nat) {s : State} (h₀ : Keeps w₀ s₀ s) :
    ∀ t₁, execWaiterTableAdmit home flag cyc s = .next t₁ → Keeps w₀ s₀ t₁ := by
  unfold execWaiterTableAdmit
  intro t₁ ht
  cases ht
  repeat' with_reducible first
    | assumption | apply running_keeps | apply waiterTableAdmit_keeps (hw₀.sub rfl)

theorem abandonObj_keeps (hw₀ : Has 0x400004000000000000000000000000000000000000000000000080000001800 w₀) (home k : Nat)
    {s : State} (h₀ : Keeps w₀ s₀ s) :
    Keeps w₀ s₀ (abandonObj home k s) := by
  unfold abandonObj
  repeat' with_reducible first
    | assumption | apply sendReleases_keeps (hw₀.sub rfl) | refine addF_keeps (hw₀.sub rfl) _ _ _ reg_SYNC_ABANDONED_CNT ?_
    | refine setEvt_keeps (p := 6) (hw₀.sub rfl) (hw₀.sub rfl) _ _ (by with_unfolding_all rfl) reg_pendFld6 ?_ | split
    | apply keeps_objs (hw₀.sub rfl)

theorem abandonKeys_keeps (hw₀ : Has 0x400004000000000000000000000000000000000000000000000080000001800 w₀) (x1 : List Nat)
    {x2 : State} (h₀ : Keeps w₀ s₀ x2) :
    Keeps w₀ s₀ (abandonKeys x1 x2) := by
  revert h₀
  fun_induction abandonKeys x1 x2 <;> intro h₀
  all_goals repeat' with_reducible first
    | apply abandonObj_keeps (hw₀.sub rfl) | apply_assumption -exfalso

theorem abandonCtx_keeps (hw₀ : Has 0x401004000000000000000000000000000000000000000000000080000001800 w₀) (c : Nat)
    {s : State} (h₀ : Keeps w₀ s₀ s) :
    Keeps w₀ s₀ (abandonCtx c s) := by
  unfold abandonCtx
  repeat' with_reducible first
    | assumption | apply bumpEpoch_keeps (hw₀.sub rfl) | apply abandonKeys_keeps (hw₀.sub rfl)

theorem flagOwnSet_keeps (hw₀ : Has 0x401184000000000000000000000000000000000000000000000080000001800 w₀) (v home o : Nat)
    {s : State} (h₀ : Keeps w₀ s₀ s) :
    Keeps w₀ s₀ (flagOwnSet v home o s) := by
  unfold flagOwnSet
  repeat' with_reducible first
    | assumption | apply keeps_ite | refine setFk_keeps (hw₀.sub rfl) _ _ _ _ reg_SYNC_FLAG_OWN_OWNER ?_
    | refine setFk_keeps (hw₀.sub rfl) _ _ _ _ reg_SYNC_FLAG_OWN_VALID ?_ | apply abandonKeys_keeps (hw₀.sub rfl)
    | apply bumpEpoch_keeps (hw₀.sub rfl)

theorem flagOwnWrite_keeps
    (hw₀ : Has 0x1000200040110000080100000400000200000000400000800000040000000100000000000002401184100080200000000020000000010000000001000000000080000001800 w₀)
    (r : Requester) (a v : Nat) {s : State} (h₀ : Keeps w₀ s₀ s) :
    Keeps w₀ s₀ (flagOwnWrite r a v s) := by
  unfold flagOwnWrite
  repeat' with_reducible first
    | assumption | intro _ | apply guarded_keeps (hw₀.sub rfl) | apply flagOwnSet_keeps (hw₀.sub rfl) | split

theorem execFlagOwnWrite_keeps
    (hw₀ : Has 0x1000200040110000080100000400000200000000400000800000040000000100000000000002401184100080200000000020000000010000000001000000000080000001800 w₀)
    (r : Requester) (a v : Nat) {s : State} (h₀ : Keeps w₀ s₀ s) :
    ∀ t₁, execFlagOwnWrite r a v s = .next t₁ → Keeps w₀ s₀ t₁ := by
  unfold execFlagOwnWrite
  intro t₁ ht
  cases ht
  repeat' with_reducible first
    | assumption | apply flagOwnWrite_keeps (hw₀.sub rfl)

theorem barCfgSet_keeps (hw₀ : Has 0x401e06000000000000000000000000000000000000000000000080000001800 w₀) (v home o : Nat)
    {s : State} (h₀ : Keeps w₀ s₀ s) :
    Keeps w₀ s₀ (barCfgSet v home o s) := by
  unfold barCfgSet
  repeat' with_reducible first
    | assumption | apply keeps_ite | refine setFk_keeps (hw₀.sub rfl) _ _ _ _ reg_SYNC_BAR_CFG_N ?_
    | refine setFk_keeps (hw₀.sub rfl) _ _ _ _ reg_SYNC_BAR_CFG_OWNER ?_
    | refine setFk_keeps (hw₀.sub rfl) _ _ _ _ reg_SYNC_BAR_CFG_VALID ?_ | apply barExamine_keeps (hw₀.sub rfl)
    | apply abandonObj_keeps (hw₀.sub rfl) | apply bumpEpoch_keeps (hw₀.sub rfl)

theorem barCfgWrite_keeps
    (hw₀ : Has 0x1000200040110000080100000400000200000000400000800000040000000100000000000002401e06100080200000000020000000010000000001000000000080000001800 w₀)
    (r : Requester) (a v : Nat) {s : State} (h₀ : Keeps w₀ s₀ s) :
    Keeps w₀ s₀ (barCfgWrite r a v s) := by
  unfold barCfgWrite
  repeat' with_reducible first
    | assumption | intro _ | apply guarded_keeps (hw₀.sub rfl) | apply barCfgSet_keeps (hw₀.sub rfl) | split

theorem execBarCfgWrite_keeps
    (hw₀ : Has 0x1000200040110000080100000400000200000000400000800000040000000100000000000002401e06100080200000000020000000010000000001000000000080000001800 w₀)
    (r : Requester) (a v : Nat) {s : State} (h₀ : Keeps w₀ s₀ s) :
    ∀ t₁, execBarCfgWrite r a v s = .next t₁ → Keeps w₀ s₀ t₁ := by
  unfold execBarCfgWrite
  intro t₁ ht
  cases ht
  repeat' with_reducible first
    | assumption | apply barCfgWrite_keeps (hw₀.sub rfl)

theorem dbgSetObj_keeps (hw₀ : Has 0x400043000000000000000000000000000000000000000000000080000001800 w₀) (v home : Nat)
    {s : State} (h₀ : Keeps w₀ s₀ s) :
    Keeps w₀ s₀ (dbgSetObj v home s) := by
  unfold dbgSetObj
  repeat' with_reducible first
    | assumption | apply keeps_ite
    | refine setEvt_keeps (p := 6) (hw₀.sub rfl) (hw₀.sub rfl) _ _ (by with_unfolding_all rfl) reg_pendFld6 ?_
    | refine incr_keeps (hw₀.sub rfl) _ _ reg_SYNC_DBG_SET_CNT ?_ | apply modObj_keeps (hw₀.sub rfl)
    | apply flagExamine_keeps (hw₀.sub rfl) | apply barExamine_keeps (hw₀.sub rfl)

theorem dbgSet_keeps
    (hw₀ : Has 0x1000200040110000080100000400000200000000400000800000040000000100000000000002400043100080200000000020000000010000000001000000000080000001800 w₀)
    (r : Requester) (a v : Nat) {s : State} (h₀ : Keeps w₀ s₀ s) :
    Keeps w₀ s₀ (dbgSet r a v s) := by
  unfold dbgSet
  repeat' with_reducible first
    | assumption | intro _ | apply guarded_keeps (hw₀.sub rfl) | apply dbgSetObj_keeps (hw₀.sub rfl) | split

theorem execDbgSet_keeps
    (hw₀ : Has 0x1000200040110000080100000400000200000000400000800000040000000100000000000002400043100080200000000020000000010000000001000000000080000001800 w₀)
    (r : Requester) (a v : Nat) {s : State} (h₀ : Keeps w₀ s₀ s) :
    ∀ t₁, execDbgSet r a v s = .next t₁ → Keeps w₀ s₀ t₁ := by
  unfold execDbgSet
  intro t₁ ht
  cases ht
  repeat' with_reducible first
    | assumption | apply dbgSet_keeps (hw₀.sub rfl)

end Sys2Proof.Machine
end

