-- ==== Sys2Proof/Laws/KeepsLinks.lean ====
section
/-! SUPPORT. What the functions of Machine/Links.lean may change. -/

namespace Sys2Proof.Machine

set_option exponentiation.threshold 600

variable {w₀ : Nat} {s₀ : State}

theorem modTx_keeps (hw₀ : Has 0x2000000 w₀) (k : Nat) (f : TxStream → TxStream) {s : State} (h₀ : Keeps w₀ s₀ s) :
    Keeps w₀ s₀ (modTx k f s) := by
  unfold modTx
  repeat' with_reducible first
    | assumption | apply keeps_txStreams (hw₀.sub rfl)

theorem modRx_keeps (hw₀ : Has 0x4000000 w₀) (k : Nat) (f : RxStream → RxStream) {s : State} (h₀ : Keeps w₀ s₀ s) :
    Keeps w₀ s₀ (modRx k f s) := by
  unfold modRx
  repeat' with_reducible first
    | assumption | apply keeps_rxStreams (hw₀.sub rfl)

theorem sendUnseq_keeps (hw₀ : Has 0x80001000000 w₀) (p type : Nat) (payload : List Byte) {s : State} (h₀ : Keeps w₀ s₀ s) :
    Keeps w₀ s₀ (sendUnseq p type payload s) := by
  unfold sendUnseq
  repeat' with_reducible first
    | assumption | apply emit_keeps (hw₀.sub rfl) | apply modPort_keeps (hw₀.sub rfl)

theorem sendStates_keeps (hw₀ : Has 0x80001000000 w₀) (mask x1 : Nat) {x2 : State} (h₀ : Keeps w₀ s₀ x2) :
    Keeps w₀ s₀ (sendStates mask x1 x2) := by
  revert h₀
  fun_induction sendStates mask x1 x2 <;> intro h₀
  all_goals repeat' with_reducible first
    | apply sendUnseq_keeps (hw₀.sub rfl) | apply_assumption -exfalso

theorem sendSeq_keeps (hw₀ : Has 0x4004000000000000000000000000000000000000000000000000000000080001000000 w₀) (p : Nat)
    (f : Frame) {s : State} (h₀ : Keeps w₀ s₀ s) :
    Keeps w₀ s₀ (sendSeq p f s) := by
  unfold sendSeq
  repeat' with_reducible first
    | assumption | apply emit_keeps (hw₀.sub rfl) | apply modPort_keeps (hw₀.sub rfl)
    | refine incr_keeps (hw₀.sub rfl) _ _ reg_LINK_DETOUR_FRAMES ?_
    | refine incr_keeps (hw₀.sub rfl) _ _ reg_LINK_TX_FRAMES ?_ | split

theorem portSluiceGrant_keeps (hw₀ : Has 0x400400000000000e100000000000000000000000000000000000000000080001000400 w₀)
    (p : Nat) {s : State} (h₀ : Keeps w₀ s₀ s) :
    Keeps w₀ s₀ (portSluiceGrant p s) := by
  unfold portSluiceGrant
  repeat' with_reducible first
    | assumption | apply sendSeq_keeps (hw₀.sub rfl) | refine slServe_keeps (hw₀.sub rfl) _ _ _ _ ?_ (by assumption)
    | (intro _; refine slServe_keeps (hw₀.sub rfl) _ _ _ _ ?_ (by assumption)) | split

theorem freeRxSlot_keeps (hw₀ : Has 0x1000000 w₀) (p v : Nat) {s : State} (h₀ : Keeps w₀ s₀ s) :
    Keeps w₀ s₀ (freeRxSlot p v s) := by
  unfold freeRxSlot
  repeat' with_reducible first
    | assumption | apply modPort_keeps (hw₀.sub rfl)

theorem portSluiceEnter_keeps (hw₀ : Has 0x9000400 w₀) (p r : Nat) {s : State} (h₀ : Keeps w₀ s₀ s) :
    Keeps w₀ s₀ (portSluiceEnter p r s) := by
  unfold portSluiceEnter
  repeat' with_reducible first
    | assumption | apply slEnter_keeps (hw₀.sub rfl) | apply freeRxSlot_keeps (hw₀.sub rfl)
    | apply modPort_keeps (hw₀.sub rfl) | split | apply keeps_sendq (hw₀.sub rfl)

theorem countOrig_keeps (hw₀ : Has 0x400000000000000000000000000000000000000000000000000000000000000000000000000000000 w₀)
    (engine c : Nat) {s : State} (h₀ : Keeps w₀ s₀ s) :
    Keeps w₀ s₀ (countOrig engine c s) := by
  unfold countOrig
  repeat' with_reducible first
    | assumption | refine addFk_keeps (hw₀.sub rfl) _ _ _ _ reg_COLL_ORIG ?_ | split

theorem countFin_keeps (hw₀ : Has 0x800000000000000000000000000000000000000000000000000000000000000000000000000000000 w₀)
    (f : Frame) {s : State} (h₀ : Keeps w₀ s₀ s) :
    Keeps w₀ s₀ (countFin f s) := by
  unfold countFin
  repeat' with_reducible first
    | assumption | refine addFk_keeps (hw₀.sub rfl) _ _ _ _ reg_COLL_FIN ?_ | split

theorem countCopies_keeps
    (hw₀ : Has 0x400000000000000000000000000000000000000000000000000000000000000000000000000000000 w₀) (x1 : List Frame)
    {x2 : State} (h₀ : Keeps w₀ s₀ x2) :
    Keeps w₀ s₀ (countCopies x1 x2) := by
  revert h₀
  fun_induction countCopies x1 x2 <;> intro h₀
  all_goals repeat' with_reducible first
    | apply countOrig_keeps (hw₀.sub rfl) | apply_assumption -exfalso | split

theorem detourStart_keeps (hw₀ : Has 0x20000000000800000000000000000000000000000000000000000000000000000080002000000 w₀)
    (p k : Nat) {s : State} (h₀ : Keeps w₀ s₀ s) :
    Keeps w₀ s₀ (detourStart p k s) := by
  unfold detourStart
  repeat' with_reducible first
    | assumption | refine setEvt_keeps (p := 7) (hw₀.sub rfl) (hw₀.sub rfl) _ _ (by with_unfolding_all rfl) reg_pendFld7 ?_
    | refine setF_keeps (hw₀.sub rfl) _ _ _ reg_LINK_STAT_DETOUR ?_ | apply modTx_keeps (hw₀.sub rfl) | split

theorem queueFrame_keeps
    (hw₀ : Has 0x40002000000000080000000000000000000000000000000000000000000000000000008000a000000 w₀) (oport : Nat)
    (f : Frame) {s : State} (h₀ : Keeps w₀ s₀ s) :
    Keeps w₀ s₀ (queueFrame oport f s) := by
  unfold queueFrame
  repeat' with_reducible first
    | assumption | apply detourStart_keeps (hw₀.sub rfl) | apply countOrig_keeps (hw₀.sub rfl)
    | apply modTx_keeps (hw₀.sub rfl) | apply keeps_sendq (hw₀.sub rfl)

theorem spreadFrames_keeps
    (hw₀ : Has 0x40002000000000080000000000000000000000000000000000000000000000000000008000a000000 w₀) (ms : List Nat)
    (x1 : Nat) (x2 : List Frame) {x3 : State} (h₀ : Keeps w₀ s₀ x3) :
    Keeps w₀ s₀ (spreadFrames ms x1 x2 x3) := by
  revert h₀
  fun_induction spreadFrames ms x1 x2 x3 <;> intro h₀
  all_goals repeat' with_reducible first
    | apply queueFrame_keeps (hw₀.sub rfl) | apply_assumption -exfalso

theorem sendTransfer_keeps
    (hw₀ : Has 0x40002000000000080000000000000000000000000000000000000000000000000000008000a000000 w₀) (role dst : Nat)
    (fs : List Frame) {s : State} (h₀ : Keeps w₀ s₀ s) :
    Keeps w₀ s₀ (sendTransfer role dst fs s) := by
  unfold sendTransfer
  repeat' with_reducible first
    | assumption | apply keeps_ite | apply spreadFrames_keeps (hw₀.sub rfl)

theorem detourStreams_keeps (hw₀ : Has 0x2000000 w₀) (p : Nat) {s : State} (h₀ : Keeps w₀ s₀ s) :
    Keeps w₀ s₀ (detourStreams p s) := by
  unfold detourStreams
  repeat' with_reducible first
    | assumption | apply keeps_txStreams (hw₀.sub rfl)

theorem portDeath_keeps (hw₀ : Has 0x40002c000000200e0000000000000000000000000000000000000000000000000000008000b000400 w₀)
    (p reason : Nat) {s : State} (h₀ : Keeps w₀ s₀ s) :
    Keeps w₀ s₀ (portDeath p reason s) := by
  unfold portDeath
  repeat' with_reducible first
    | assumption | refine setF_keeps (hw₀.sub rfl) _ _ _ reg_LINK_ERR_INFO_REASON ?_
    | refine setF_keeps (hw₀.sub rfl) _ _ _ reg_LINK_ERR_INFO_LSEQ ?_
    | refine setF_keeps (hw₀.sub rfl) _ _ _ reg_LINK_STAT_REASON ?_
    | refine setF_keeps (hw₀.sub rfl) _ _ _ reg_LINK_STAT_STATE ?_
    | refine setEvt_keeps (p := 7) (hw₀.sub rfl) (hw₀.sub rfl) _ _ (by with_unfolding_all rfl) reg_pendFld7 ?_
    | refine incr_keeps (hw₀.sub rfl) _ _ reg_LINK_DEATHS ?_ | apply countCopies_keeps (hw₀.sub rfl)
    | apply detourStreams_keeps (hw₀.sub rfl) | refine setF_keeps (hw₀.sub rfl) _ _ _ reg_LINK_STAT_DETOUR ?_
    | apply modSluice_keeps (hw₀.sub rfl) | apply modPort_keeps (hw₀.sub rfl) | apply sendStates_keeps (hw₀.sub rfl)
    | split | apply keeps_sendq (hw₀.sub rfl)

theorem takeAck_keeps (hw₀ : Has 0x1000000 w₀) (p : Nat) (f : Frame) {s : State} (h₀ : Keeps w₀ s₀ s) :
    Keeps w₀ s₀ (takeAck p f s) := by
  unfold takeAck
  repeat' with_reducible first
    | assumption | apply keeps_ite | apply modPort_keeps (hw₀.sub rfl)

theorem sendRetry_keeps (hw₀ : Has 0x80001000000 w₀) (p : Nat) {s : State} (h₀ : Keeps w₀ s₀ s) :
    Keeps w₀ s₀ (sendRetry p s) := by
  unfold sendRetry
  repeat' with_reducible first
    | assumption | apply sendUnseq_keeps (hw₀.sub rfl) | apply modPort_keeps (hw₀.sub rfl) | split

theorem rxDiscard_keeps (hw₀ : Has 0x10000000000000000000000000000000000000000000000000000000000000000000 w₀) (p : Nat)
    {s : State} (h₀ : Keeps w₀ s₀ s) :
    Keeps w₀ s₀ (rxDiscard p s) := by
  unfold rxDiscard
  repeat' with_reducible first
    | assumption | refine incr_keeps (hw₀.sub rfl) _ _ reg_LINK_RX_DISCARD ?_

theorem detourEnd_keeps (hw₀ : Has 0x800000000000000000000000000000000000000000000000000000000000000000 w₀) (p : Nat)
    {s : State} (h₀ : Keeps w₀ s₀ s) :
    Keeps w₀ s₀ (detourEnd p s) := by
  unfold detourEnd
  repeat' with_reducible first
    | assumption | refine setF_keeps (hw₀.sub rfl) _ _ _ reg_LINK_STAT_DETOUR ?_ | split

theorem detourEnds_keeps (hw₀ : Has 0x800000000000000000000000000000000000000000000000000000000000000000 w₀) (x1 : Nat) {x2 : State} (h₀ : Keeps w₀ s₀ x2) :
    Keeps w₀ s₀ (detourEnds x1 x2) := by
  revert h₀
  fun_induction detourEnds x1 x2 <;> intro h₀
  all_goals repeat' with_reducible first
    | apply keeps_ite | apply detourEnd_keeps (hw₀.sub rfl) | apply_assumption -exfalso | split

theorem markAckTake_keeps (hw₀ : Has 0x20000000000800000000000000000000000000000000000000000000000000000080002000000 w₀)
    (f : Frame) {s : State} (h₀ : Keeps w₀ s₀ s) :
    Keeps w₀ s₀ (markAckTake f s) := by
  unfold markAckTake
  repeat' with_reducible first
    | assumption | apply keeps_ite | apply detourEnd_keeps (hw₀.sub rfl)
    | refine setEvt_keeps (p := 7) (hw₀.sub rfl) (hw₀.sub rfl) _ _ (by with_unfolding_all rfl) reg_pendFld7 ?_
    | apply modTx_keeps (hw₀.sub rfl)

theorem headStep_keeps (hw₀ : Has 0x800020000008c0080000000000000000000000000000000000000000000000000000008001f000000 w₀)
    (p : Nat) {s : State} (h₀ : Keeps w₀ s₀ s) :
    Keeps w₀ s₀ (headStep p s) := by
  unfold headStep
  repeat' with_reducible first
    | assumption | apply freeRxSlot_keeps (hw₀.sub rfl) | apply modPort_keeps (hw₀.sub rfl)
    | refine setEvt_keeps (p := 7) (hw₀.sub rfl) (hw₀.sub rfl) _ _ (by with_unfolding_all rfl) reg_pendFld7 ?_
    | refine incr_keeps (hw₀.sub rfl) _ _ reg_LINK_HOLD_CNT ?_ | apply modRx_keeps (hw₀.sub rfl)
    | apply countFin_keeps (hw₀.sub rfl) | apply markAckTake_keeps (hw₀.sub rfl)
    | refine incr_keeps (hw₀.sub rfl) _ _ reg_LINK_CTX_DROP ?_
    | refine incr_keeps (hw₀.sub rfl) _ _ reg_LINK_DUP_DROP ?_ | split | apply keeps_inbox (hw₀.sub rfl)
    | apply keeps_sendq (hw₀.sub rfl)

theorem drainHeads_keeps
    (hw₀ : Has 0x800020000008c0080000000000000000000000000000000000000000000000000000008001f000000 w₀) (x1 : Nat)
    {x2 : State} (h₀ : Keeps w₀ s₀ x2) :
    Keeps w₀ s₀ (drainHeads x1 x2) := by
  revert h₀
  fun_induction drainHeads x1 x2 <;> intro h₀
  all_goals repeat' with_reducible first
    | apply headStep_keeps (hw₀.sub rfl) | apply_assumption -exfalso

theorem drainAll_keeps (hw₀ : Has 0x800020000008c0080000000000000000000000000000000000000000000000000000008001f000000 w₀)
    {s : State} (h₀ : Keeps w₀ s₀ s) :
    Keeps w₀ s₀ (drainAll s) := by
  unfold drainAll
  repeat' with_reducible first
    | assumption | apply drainHeads_keeps (hw₀.sub rfl)

theorem rxAccept_keeps (hw₀ : Has 0x80002000000ac0880000000000000000000000000000000000000000000000000000008001f000000 w₀)
    (p : Nat) (f : Frame) {s : State} (h₀ : Keeps w₀ s₀ s) :
    Keeps w₀ s₀ (rxAccept p f s) := by
  unfold rxAccept
  repeat' with_reducible first
    | assumption | refine incr_keeps (hw₀.sub rfl) _ _ reg_LINK_RX_FRAMES ?_ | apply modPort_keeps (hw₀.sub rfl)
    | apply drainAll_keeps (hw₀.sub rfl) | refine incr_keeps (hw₀.sub rfl) _ _ reg_LINK_TRANSIT ?_ | split

theorem rxSequenced_keeps
    (hw₀ : Has 0x80002000000ac0880000000000000000000000000000000000000000000000000000008001f000000 w₀) (p : Nat)
    (f : Frame) {s : State} (h₀ : Keeps w₀ s₀ s) :
    Keeps w₀ s₀ (rxSequenced p f s) := by
  unfold rxSequenced
  repeat' with_reducible first
    | assumption | apply keeps_ite | apply rxAccept_keeps (hw₀.sub rfl) | apply sendRetry_keeps (hw₀.sub rfl)

theorem countFec_keeps (hw₀ : Has 0x180000000000000000000000000000000000000000000000000000000000000000000 w₀)
    (p fec : Nat) {s : State} (h₀ : Keeps w₀ s₀ s) :
    Keeps w₀ s₀ (countFec p fec s) := by
  unfold countFec
  repeat' with_reducible first
    | assumption | refine incr_keeps (hw₀.sub rfl) _ _ reg_LINK_FEC_CORR ?_
    | refine incr_keeps (hw₀.sub rfl) _ _ reg_LINK_FEC_UNCORR ?_ | split

theorem rxFrame_keeps (hw₀ : Has 0x190000000000000000000000000000000000000000000000000000000080001000000 w₀) (p : Nat)
    (raw : List Byte) (fec want : Nat) (f : Frame → State → State) {s : State} (h₀ : Keeps w₀ s₀ s)
    (hf₀ : ∀ y0 s, Keeps w₀ s₀ s → Keeps w₀ s₀ (f y0 s)) :
    Keeps w₀ s₀ (rxFrame p raw fec want f s) := by
  unfold rxFrame
  repeat' with_reducible first
    | assumption | apply keeps_ite | apply rxDiscard_keeps (hw₀.sub rfl) | apply countFec_keeps (hw₀.sub rfl)
    | apply sendRetry_keeps (hw₀.sub rfl) | apply takeAck_keeps (hw₀.sub rfl) | apply hf₀ | split

theorem rxData_keeps (hw₀ : Has 0x80002000000ad9880000000000000000000000000000000000000000000000000000008001f000000 w₀)
    (p : Nat) (raw : List Byte) (fec : Nat) {s : State} (h₀ : Keeps w₀ s₀ s) :
    Keeps w₀ s₀ (rxData p raw fec s) := by
  unfold rxData
  repeat' with_reducible first
    | assumption | apply rxFrame_keeps (hw₀.sub rfl) | apply rxSequenced_keeps (hw₀.sub rfl)

theorem execData_keeps (hw₀ : Has 0x80002000000ad9880000000000000000000000000000000000000000000000000000008001f000000 w₀)
    (p : Nat) (raw : List Byte) (fec : Nat) {s : State} (h₀ : Keeps w₀ s₀ s) :
    ∀ t₁, execData p raw fec s = .next t₁ → Keeps w₀ s₀ t₁ := by
  unfold execData
  intro t₁ ht
  cases ht
  repeat' with_reducible first
    | assumption | apply runningIn_keeps | apply rxData_keeps (hw₀.sub rfl)

theorem execMark_keeps (hw₀ : Has 0x80002000000ad9880000000000000000000000000000000000000000000000000000008001f000000 w₀)
    (p : Nat) (raw : List Byte) (fec : Nat) {s : State} (h₀ : Keeps w₀ s₀ s) :
    ∀ t₁, execMark p raw fec s = .next t₁ → Keeps w₀ s₀ t₁ := by
  unfold execMark
  intro t₁ ht
  cases ht
  repeat' with_reducible first
    | assumption | apply runningIn_keeps | apply rxFrame_keeps (hw₀.sub rfl) | apply rxSequenced_keeps (hw₀.sub rfl)

theorem execMarkAck_keeps
    (hw₀ : Has 0x80002000000ad9880000000000000000000000000000000000000000000000000000008001f000000 w₀) (p : Nat)
    (raw : List Byte) (fec : Nat) {s : State} (h₀ : Keeps w₀ s₀ s) :
    ∀ t₁, execMarkAck p raw fec s = .next t₁ → Keeps w₀ s₀ t₁ := by
  unfold execMarkAck
  intro t₁ ht
  cases ht
  repeat' with_reducible first
    | assumption | apply runningIn_keeps | apply rxFrame_keeps (hw₀.sub rfl) | apply rxSequenced_keeps (hw₀.sub rfl)

theorem execLink_keeps (hw₀ : Has 0x190000000000000000000000000000000000000000000000000000000080001000000 w₀) (p : Nat)
    (raw : List Byte) (fec : Nat) {s : State} (h₀ : Keeps w₀ s₀ s) :
    ∀ t₁, execLink p raw fec s = .next t₁ → Keeps w₀ s₀ t₁ := by
  unfold execLink
  intro t₁ ht
  cases ht
  repeat' with_reducible first
    | assumption | intro _ | apply runningIn_keeps | apply rxFrame_keeps (hw₀.sub rfl)

theorem execState_keeps (hw₀ : Has 0x190000000000000000000000000000000000000000000000000000000080001000000 w₀) (p : Nat)
    (raw : List Byte) (fec : Nat) {s : State} (h₀ : Keeps w₀ s₀ s) :
    ∀ t₁, execState p raw fec s = .next t₁ → Keeps w₀ s₀ t₁ := by
  unfold execState
  intro t₁ ht
  cases ht
  repeat' with_reducible first
    | assumption | intro _ | apply runningIn_keeps | apply rxFrame_keeps (hw₀.sub rfl) | apply modPort_keeps (hw₀.sub rfl)

theorem resendAll_keeps (hw₀ : Has 0x80001000000 w₀) (p : Nat) (x1 : List Frame) {x2 : State} (h₀ : Keeps w₀ s₀ x2) :
    Keeps w₀ s₀ (resendAll p x1 x2) := by
  revert h₀
  fun_induction resendAll p x1 x2 <;> intro h₀
  all_goals repeat' with_reducible first
    | apply emit_keeps (hw₀.sub rfl) | apply_assumption -exfalso | apply modPort_keeps (hw₀.sub rfl)

theorem replay_keeps (hw₀ : Has 0x40002c000000260e0000000000000000000000000000000000000000000000000000008000b000400 w₀)
    (p : Nat) {s : State} (h₀ : Keeps w₀ s₀ s) :
    Keeps w₀ s₀ (replay p s) := by
  unfold replay
  repeat' with_reducible first
    | assumption | apply keeps_ite | apply portDeath_keeps (hw₀.sub rfl)
    | refine addF_keeps (hw₀.sub rfl) _ _ _ reg_LINK_REPLAY_FRAMES ?_
    | refine incr_keeps (hw₀.sub rfl) _ _ reg_LINK_REPLAYS ?_ | apply modPort_keeps (hw₀.sub rfl)
    | apply resendAll_keeps (hw₀.sub rfl)
    | refine setEvt_keeps (p := 7) (hw₀.sub rfl) (hw₀.sub rfl) _ _ (by with_unfolding_all rfl) reg_pendFld7 ?_

theorem execRetry_keeps (hw₀ : Has 0x40002c0000003f0e0000000000000000000000000000000000000000000000000000008000b000400 w₀)
    (p : Nat) (raw : List Byte) (fec : Nat) {s : State} (h₀ : Keeps w₀ s₀ s) :
    ∀ t₁, execRetry p raw fec s = .next t₁ → Keeps w₀ s₀ t₁ := by
  unfold execRetry
  intro t₁ ht
  cases ht
  repeat' with_reducible first
    | assumption | intro _ | apply runningIn_keeps | apply rxFrame_keeps (hw₀.sub rfl) | apply replay_keeps (hw₀.sub rfl)
    | split

theorem ackTimeout_keeps
    (hw₀ : Has 0x40002c000000260e0000000000000000000000000000000000000000000000000000008000b000400 w₀) (p : Nat)
    {s : State} (h₀ : Keeps w₀ s₀ s) :
    Keeps w₀ s₀ (ackTimeout p s) := by
  unfold ackTimeout
  repeat' with_reducible first
    | assumption | apply replay_keeps (hw₀.sub rfl) | split

theorem execAckTimeout_keeps
    (hw₀ : Has 0x40002c000000260e0000000000000000000000000000000000000000000000000000008000b000400 w₀) (p : Nat)
    {s : State} (h₀ : Keeps w₀ s₀ s) :
    ∀ t₁, execAckTimeout p s = .next t₁ → Keeps w₀ s₀ t₁ := by
  unfold execAckTimeout
  intro t₁ ht
  cases ht
  repeat' with_reducible first
    | assumption | apply runningIn_keeps | apply ackTimeout_keeps (hw₀.sub rfl)

theorem linkAckDue_keeps (hw₀ : Has 0x80001000000 w₀) (p : Nat) {s : State} (h₀ : Keeps w₀ s₀ s) :
    Keeps w₀ s₀ (linkAckDue p s) := by
  unfold linkAckDue
  repeat' with_reducible first
    | assumption | apply sendUnseq_keeps (hw₀.sub rfl) | split

theorem execLinkAckDue_keeps (hw₀ : Has 0x80001000000 w₀) (p : Nat) {s : State} (h₀ : Keeps w₀ s₀ s) :
    ∀ t₁, execLinkAckDue p s = .next t₁ → Keeps w₀ s₀ t₁ := by
  unfold execLinkAckDue
  intro t₁ ht
  cases ht
  repeat' with_reducible first
    | assumption | apply runningIn_keeps | apply linkAckDue_keeps (hw₀.sub rfl)

theorem holdExpire_keeps
    (hw₀ : Has 0x800020000009c0080000000000000000000000000000000000000000000000000000008001f000000 w₀) (p : Nat)
    {s : State} (h₀ : Keeps w₀ s₀ s) :
    Keeps w₀ s₀ (holdExpire p s) := by
  unfold holdExpire
  repeat' with_reducible first
    | assumption | apply modRx_keeps (hw₀.sub rfl)
    | refine setEvt_keeps (p := 7) (hw₀.sub rfl) (hw₀.sub rfl) _ _ (by with_unfolding_all rfl) reg_pendFld7 ?_
    | refine incr_keeps (hw₀.sub rfl) _ _ reg_LINK_STREAM_BREAK ?_ | apply drainAll_keeps (hw₀.sub rfl)
    | apply freeRxSlot_keeps (hw₀.sub rfl) | apply modPort_keeps (hw₀.sub rfl) | apply countFin_keeps (hw₀.sub rfl)
    | split

theorem execHoldExpire_keeps
    (hw₀ : Has 0x800020000009c0080000000000000000000000000000000000000000000000000000008001f000000 w₀) (p : Nat)
    {s : State} (h₀ : Keeps w₀ s₀ s) :
    ∀ t₁, execHoldExpire p s = .next t₁ → Keeps w₀ s₀ t₁ := by
  unfold execHoldExpire
  intro t₁ ht
  cases ht
  repeat' with_reducible first
    | assumption | apply runningIn_keeps | apply holdExpire_keeps (hw₀.sub rfl)

theorem toDown_keeps (hw₀ : Has 0x200000000000000000000000000000000000000000000000000000000001000000 w₀) (p : Nat)
    {s : State} (h₀ : Keeps w₀ s₀ s) :
    Keeps w₀ s₀ (toDown p s) := by
  unfold toDown
  repeat' with_reducible first
    | assumption | apply modPort_keeps (hw₀.sub rfl) | refine setF_keeps (hw₀.sub rfl) _ _ _ reg_LINK_STAT_STATE ?_

theorem portEnable_keeps
    (hw₀ : Has 0x1000200040110000080100000400000200000000400000800000040000000100000000000206000000100080200000000020000000010000000001000000000000000000000 w₀)
    (r : Requester) (a v : Nat) {s : State} (h₀ : Keeps w₀ s₀ s) :
    Keeps w₀ s₀ (portEnable r a v s) := by
  unfold portEnable
  repeat' with_reducible first
    | assumption | intro _ | apply guarded_keeps (hw₀.sub rfl) | refine setF_keeps (hw₀.sub rfl) _ _ _ reg_LINK_CTRL_EN ?_
    | apply leaveOff_keeps (hw₀.sub rfl) | apply heldToDown_keeps (hw₀.sub rfl) | split

theorem execPortEnable_keeps
    (hw₀ : Has 0x1000200040110000080100000400000200000000400000800000040000000100000000000206000000100080200000000020000000010000000001000000000000000000000 w₀)
    (r : Requester) (a v : Nat) {s : State} (h₀ : Keeps w₀ s₀ s) :
    ∀ t₁, execPortEnable r a v s = .next t₁ → Keeps w₀ s₀ t₁ := by
  unfold execPortEnable
  intro t₁ ht
  cases ht
  repeat' with_reducible first
    | assumption | apply portEnable_keeps (hw₀.sub rfl)

theorem autoRetrain_keeps (hw₀ : Has 0x200000000000000000000000000000000000000000000000000000000000000000 w₀) (p : Nat)
    {s : State} (h₀ : Keeps w₀ s₀ s) :
    Keeps w₀ s₀ (autoRetrain p s) := by
  unfold autoRetrain
  repeat' with_reducible first
    | assumption | refine setF_keeps (hw₀.sub rfl) _ _ _ reg_LINK_STAT_STATE ?_ | split

theorem execAutoRetrain_keeps (hw₀ : Has 0x200000000000000000000000000000000000000000000000000000000000000000 w₀)
    (p : Nat) {s : State} (h₀ : Keeps w₀ s₀ s) :
    ∀ t₁, execAutoRetrain p s = .next t₁ → Keeps w₀ s₀ t₁ := by
  unfold execAutoRetrain
  intro t₁ ht
  cases ht
  repeat' with_reducible first
    | assumption | apply runningIn_keeps | apply autoRetrain_keeps (hw₀.sub rfl)

theorem trainDone_keeps (hw₀ : Has 0x200000000000000000000000000000000000000000000000000000000001000000 w₀) (p : Nat)
    {s : State} (h₀ : Keeps w₀ s₀ s) :
    Keeps w₀ s₀ (trainDone p s) := by
  unfold trainDone
  repeat' with_reducible first
    | assumption | apply modPort_keeps (hw₀.sub rfl) | refine setF_keeps (hw₀.sub rfl) _ _ _ reg_LINK_STAT_STATE ?_ | split

theorem execTrainDone_keeps (hw₀ : Has 0x200000000000000000000000000000000000000000000000000000000001000000 w₀) (p : Nat)
    {s : State} (h₀ : Keeps w₀ s₀ s) :
    ∀ t₁, execTrainDone p s = .next t₁ → Keeps w₀ s₀ t₁ := by
  unfold execTrainDone
  intro t₁ ht
  cases ht
  repeat' with_reducible first
    | assumption | apply runningIn_keeps | apply trainDone_keeps (hw₀.sub rfl)

theorem trainFail_keeps (hw₀ : Has 0x600000000000000000000000000000000000000000000000000000000001000000 w₀) (p : Nat)
    {s : State} (h₀ : Keeps w₀ s₀ s) :
    Keeps w₀ s₀ (trainFail p s) := by
  unfold trainFail
  repeat' with_reducible first
    | assumption | apply modPort_keeps (hw₀.sub rfl) | refine setF_keeps (hw₀.sub rfl) _ _ _ reg_LINK_STAT_REASON ?_
    | refine setF_keeps (hw₀.sub rfl) _ _ _ reg_LINK_STAT_STATE ?_ | split

theorem execTrainFail_keeps (hw₀ : Has 0x600000000000000000000000000000000000000000000000000000000001000000 w₀) (p : Nat)
    {s : State} (h₀ : Keeps w₀ s₀ s) :
    ∀ t₁, execTrainFail p s = .next t₁ → Keeps w₀ s₀ t₁ := by
  unfold execTrainFail
  intro t₁ ht
  cases ht
  repeat' with_reducible first
    | assumption | apply runningIn_keeps | apply trainFail_keeps (hw₀.sub rfl)

theorem identSend_keeps (hw₀ : Has 0x80001000000 w₀) (p : Nat) {s : State} (h₀ : Keeps w₀ s₀ s) :
    Keeps w₀ s₀ (identSend p s) := by
  unfold identSend
  repeat' with_reducible first
    | assumption | apply modPort_keeps (hw₀.sub rfl) | apply sendUnseq_keeps (hw₀.sub rfl) | split

theorem execIdentSend_keeps (hw₀ : Has 0x80001000000 w₀) (p : Nat) {s : State} (h₀ : Keeps w₀ s₀ s) :
    ∀ t₁, execIdentSend p s = .next t₁ → Keeps w₀ s₀ t₁ := by
  unfold execIdentSend
  intro t₁ ht
  cases ht
  repeat' with_reducible first
    | assumption | apply runningIn_keeps | apply identSend_keeps (hw₀.sub rfl)

theorem sendMarks_keeps (hw₀ : Has 0xa000000 w₀) (p : Nat) (x1 : List (Nat × TxStream)) {x2 : State} (h₀ : Keeps w₀ s₀ x2) :
    Keeps w₀ s₀ (sendMarks p x1 x2) := by
  revert h₀
  fun_induction sendMarks p x1 x2 <;> intro h₀
  all_goals repeat' with_reducible first
    | apply modTx_keeps (hw₀.sub rfl) | apply_assumption -exfalso | apply keeps_sendq (hw₀.sub rfl) | split

theorem failback_keeps (hw₀ : Has 0xa000000 w₀) (p : Nat) {s : State} (h₀ : Keeps w₀ s₀ s) :
    Keeps w₀ s₀ (failback p s) := by
  unfold failback
  repeat' with_reducible first
    | assumption | apply sendMarks_keeps (hw₀.sub rfl)

theorem enterUp_keeps (hw₀ : Has 0x2000000000160000000000000000000000000000000000000000000000000000008000a000000 w₀)
    (p : Nat) {s : State} (h₀ : Keeps w₀ s₀ s) :
    Keeps w₀ s₀ (enterUp p s) := by
  unfold enterUp
  repeat' with_reducible first
    | assumption | apply keeps_ite
    | refine setEvt_keeps (p := 7) (hw₀.sub rfl) (hw₀.sub rfl) _ _ (by with_unfolding_all rfl) reg_pendFld7 ?_
    | refine setF_keeps (hw₀.sub rfl) _ _ _ reg_LINK_STAT_MIS ?_
    | refine setF_keeps (hw₀.sub rfl) _ _ _ reg_LINK_STAT_REASON ?_
    | refine setF_keeps (hw₀.sub rfl) _ _ _ reg_LINK_STAT_STATE ?_ | apply failback_keeps (hw₀.sub rfl)

theorem judgeIdent_keeps (hw₀ : Has 0x2000000000160000000000000000000000000000000000000000000000000000008000a000000 w₀)
    (p : Nat) (rcd : List Byte) {s : State} (h₀ : Keeps w₀ s₀ s) :
    Keeps w₀ s₀ (judgeIdent p rcd s) := by
  unfold judgeIdent
  repeat' with_reducible first
    | assumption | apply keeps_ite | apply enterUp_keeps (hw₀.sub rfl)
    | refine setEvt_keeps (p := 7) (hw₀.sub rfl) (hw₀.sub rfl) _ _ (by with_unfolding_all rfl) reg_pendFld7 ?_
    | refine setF_keeps (hw₀.sub rfl) _ _ _ reg_LINK_STAT_MIS ?_
    | refine setF_keeps (hw₀.sub rfl) _ _ _ reg_LINK_STAT_STATE ?_

theorem recordIdent_keeps (hw₀ : Has 0x1f80000000000000000000000000000000000000000000000000000000000000000001000000 w₀)
    (p : Nat) (rcd : List Byte) {s : State} (h₀ : Keeps w₀ s₀ s) :
    Keeps w₀ s₀ (recordIdent p rcd s) := by
  unfold recordIdent
  repeat' with_reducible first
    | assumption | refine setF_keeps (hw₀.sub rfl) _ _ _ reg_LINK_PEER_SER_LO ?_
    | refine setF_keeps (hw₀.sub rfl) _ _ _ reg_LINK_PEER_SER_HI ?_
    | refine setF_keeps (hw₀.sub rfl) _ _ _ reg_LINK_PEER_ID ?_ | refine setF_keeps (hw₀.sub rfl) _ _ _ reg_LINK_PEER_FW ?_
    | refine setF_keeps (hw₀.sub rfl) _ _ _ reg_LINK_PEER_REV_REV_MIN ?_
    | refine setF_keeps (hw₀.sub rfl) _ _ _ reg_LINK_PEER_REV_REV_MAX ?_ | apply modPort_keeps (hw₀.sub rfl)

theorem takeIdent_keeps (hw₀ : Has 0x21f8000000360000000000000000000000000000000000000000000000000000008000b000000 w₀)
    (p : Nat) (rcd : List Byte) {s : State} (h₀ : Keeps w₀ s₀ s) :
    Keeps w₀ s₀ (takeIdent p rcd s) := by
  unfold takeIdent
  repeat' with_reducible first
    | assumption | apply keeps_ite | apply recordIdent_keeps (hw₀.sub rfl)
    | refine setEvt_keeps (p := 7) (hw₀.sub rfl) (hw₀.sub rfl) _ _ (by with_unfolding_all rfl) reg_pendFld7 ?_
    | refine setF_keeps (hw₀.sub rfl) _ _ _ reg_LINK_STAT_REASON ?_
    | refine setF_keeps (hw₀.sub rfl) _ _ _ reg_LINK_STAT_STATE ?_ | apply judgeIdent_keeps (hw₀.sub rfl)
    | refine setF_keeps (hw₀.sub rfl) _ _ _ reg_LINK_STAT_REV ?_

theorem execIdent_keeps (hw₀ : Has 0x21f8000019360000000000000000000000000000000000000000000000000000008000b000000 w₀)
    (p : Nat) (raw : List Byte) (fec : Nat) {s : State} (h₀ : Keeps w₀ s₀ s) :
    ∀ t₁, execIdent p raw fec s = .next t₁ → Keeps w₀ s₀ t₁ := by
  unfold execIdent
  intro t₁ ht
  cases ht
  repeat' with_reducible first
    | assumption | intro _ | apply runningIn_keeps | apply rxFrame_keeps (hw₀.sub rfl) | apply takeIdent_keeps (hw₀.sub rfl)

theorem linkCtrl_keeps
    (hw₀ : Has 0x1000200040110000080100000400000200000000400000800000040000000100000000000002000000100080200000000020000000010000000001000000000000000000000 w₀)
    (r : Requester) (a v b : Nat) (f : Nat → State → State) {s : State} (h₀ : Keeps w₀ s₀ s)
    (hf₀ : ∀ y0 s, Keeps w₀ s₀ s → Keeps w₀ s₀ (f y0 s)) :
    Keeps w₀ s₀ (linkCtrl r a v b f s) := by
  unfold linkCtrl
  repeat' with_reducible first
    | assumption | intro _ | apply guarded_keeps (hw₀.sub rfl) | apply hf₀ | split

theorem confirmPort_keeps (hw₀ : Has 0x300001f000160000000000000000000000000000000000000000000000000000008000a000000 w₀)
    (p : Nat) {s : State} (h₀ : Keeps w₀ s₀ s) :
    Keeps w₀ s₀ (confirmPort p s) := by
  unfold confirmPort
  repeat' with_reducible first
    | assumption | apply keeps_ite | refine setF_keeps (hw₀.sub rfl) _ _ _ reg_LINK_TOPO_SER_LO ?_
    | refine setF_keeps (hw₀.sub rfl) _ _ _ reg_LINK_TOPO_SER_HI ?_
    | refine setF_keeps (hw₀.sub rfl) _ _ _ reg_LINK_TOPO_PEER_BOARD ?_
    | refine setF_keeps (hw₀.sub rfl) _ _ _ reg_LINK_TOPO_PEER_POS ?_
    | refine setF_keeps (hw₀.sub rfl) _ _ _ reg_LINK_TOPO_PEER_PORT ?_ | apply enterUp_keeps (hw₀.sub rfl)
    | refine setF_keeps (hw₀.sub rfl) _ _ _ reg_LINK_ERR_INFO_CONFIRM ?_ | split

theorem execConfirm_keeps
    (hw₀ : Has 0x10002000401100000801000004000002000000004000008000000400000001300001f000160200000010008020000000002000000001000000000100000000008000a000000 w₀)
    (r : Requester) (a v : Nat) {s : State} (h₀ : Keeps w₀ s₀ s) :
    ∀ t₁, execConfirm r a v s = .next t₁ → Keeps w₀ s₀ t₁ := by
  unfold execConfirm
  intro t₁ ht
  cases ht
  repeat' with_reducible first
    | assumption | apply linkCtrl_keeps (hw₀.sub rfl) | apply confirmPort_keeps (hw₀.sub rfl)

theorem recheckPort_keeps (hw₀ : Has 0x2000000000160000000000000000000000000000000000000000000000000000008000b000000 w₀)
    (p : Nat) {s : State} (h₀ : Keeps w₀ s₀ s) :
    Keeps w₀ s₀ (recheckPort p s) := by
  unfold recheckPort
  repeat' with_reducible first
    | assumption | refine setF_keeps (hw₀.sub rfl) _ _ _ reg_LINK_STAT_STATE ?_ | apply judgeIdent_keeps (hw₀.sub rfl)
    | apply toDown_keeps (hw₀.sub rfl) | split

theorem execRecheck_keeps
    (hw₀ : Has 0x100020004011000008010000040000020000000040000080000004000000012000000000160200000010008020000000002000000001000000000100000000008000b000000 w₀)
    (r : Requester) (a v : Nat) {s : State} (h₀ : Keeps w₀ s₀ s) :
    ∀ t₁, execRecheck r a v s = .next t₁ → Keeps w₀ s₀ t₁ := by
  unfold execRecheck
  intro t₁ ht
  cases ht
  repeat' with_reducible first
    | assumption | apply linkCtrl_keeps (hw₀.sub rfl) | apply recheckPort_keeps (hw₀.sub rfl)

theorem restorePort_keeps (hw₀ : Has 0xa000000 w₀) (p : Nat) {s : State} (h₀ : Keeps w₀ s₀ s) :
    Keeps w₀ s₀ (restorePort p s) := by
  unfold restorePort
  repeat' with_reducible first
    | assumption | apply failback_keeps (hw₀.sub rfl) | split

theorem execLinkRestore_keeps
    (hw₀ : Has 0x100020004011000008010000040000020000000040000080000004000000010000000000000200000010008020000000002000000001000000000100000000000000a000000 w₀)
    (r : Requester) (a v : Nat) {s : State} (h₀ : Keeps w₀ s₀ s) :
    ∀ t₁, execLinkRestore r a v s = .next t₁ → Keeps w₀ s₀ t₁ := by
  unfold execLinkRestore
  intro t₁ ht
  cases ht
  repeat' with_reducible first
    | assumption | apply linkCtrl_keeps (hw₀.sub rfl) | apply restorePort_keeps (hw₀.sub rfl)

theorem forceDownPort_keeps
    (hw₀ : Has 0x40002c000000201e0000000000000000000000000000000000000000000000000000008000b000400 w₀) (p : Nat)
    {s : State} (h₀ : Keeps w₀ s₀ s) :
    Keeps w₀ s₀ (forceDownPort p s) := by
  unfold forceDownPort
  repeat' with_reducible first
    | assumption | apply toDown_keeps (hw₀.sub rfl) | refine setF_keeps (hw₀.sub rfl) _ _ _ reg_LINK_STAT_REASON ?_
    | refine setF_keeps (hw₀.sub rfl) _ _ _ reg_LINK_STAT_MIS ?_ | apply portDeath_keeps (hw₀.sub rfl) | split

theorem execForceDown_keeps
    (hw₀ : Has 0x100020004011000008010000040000020000000040000080000004000040012c000000201e0200000010008020000000002000000001000000000100000000008000b000400 w₀)
    (r : Requester) (a v : Nat) {s : State} (h₀ : Keeps w₀ s₀ s) :
    ∀ t₁, execForceDown r a v s = .next t₁ → Keeps w₀ s₀ t₁ := by
  unfold execForceDown
  intro t₁ ht
  cases ht
  repeat' with_reducible first
    | assumption | apply linkCtrl_keeps (hw₀.sub rfl) | apply forceDownPort_keeps (hw₀.sub rfl)

theorem laneLoss_keeps (hw₀ : Has 0x40002c000000200e0000000000000000000000000000000000000000000000000000008000b000400 w₀)
    (p : Nat) {s : State} (h₀ : Keeps w₀ s₀ s) :
    Keeps w₀ s₀ (laneLoss p s) := by
  unfold laneLoss
  repeat' with_reducible first
    | assumption | apply portDeath_keeps (hw₀.sub rfl)

theorem execLaneLoss_keeps
    (hw₀ : Has 0x40002c000000200e0000000000000000000000000000000000000000000000000000008000b000400 w₀) (p : Nat)
    {s : State} (h₀ : Keeps w₀ s₀ s) :
    ∀ t₁, execLaneLoss p s = .next t₁ → Keeps w₀ s₀ t₁ := by
  unfold execLaneLoss
  intro t₁ ht
  cases ht
  repeat' with_reducible first
    | assumption | apply runningIn_keeps | apply laneLoss_keeps (hw₀.sub rfl)

/-- A register of page 7. -/
theorem keeps_link {w : Nat} {s₀ : State} (hw : Has 0x1fffffffffffffc000000000000000000000000000000000000000000000000000000000000000 w) {f : Fld} (hf : f ∈ fldsLINK) (i k v : Nat) {s : State}
    (h : Keeps w s₀ s) : Keeps w s₀ (setFk f i k v s) := by
  have key : ∀ f ∈ fldsLINK, f ∈ allRegs ∧ 2 ^ (Part.reg f).code &&& 0x1fffffffffffffc000000000000000000000000000000000000000000000000000000000000000 = 2 ^ (Part.reg f).code := by decide +kernel
  exact setFk_keeps (hw.sub (key f hf).2) _ _ _ _ ⟨(key f hf).1, rfl⟩ h

theorem clearK_keeps {w : Nat} {s₀ : State} (hw : Has 0x1fffffffffffffc000000000000000000000000000000000000000000000000000000000000000 w) (p : Nat) : ∀ (l : List Fld), (∀ f ∈ l, f ∈ fldsLINK) → ∀ {s : State},
    Keeps w s₀ s → Keeps w s₀ (clearK p l s)
  | [], _, _, h => h
  | f :: r, hl, _, h => by
    rw [clearK]
    refine clearK_keeps hw p r (fun x hx => hl x (List.mem_cons_of_mem _ hx)) (keeps_ite ?_ h)
    exact keeps_link hw (hl f List.mem_cons_self) _ _ _ h

theorem resetPort_keeps (hw₀ : Has 0x4001fffffffffffffc00000000000000000000000000000000000000000000000000008000b000400 w₀)
    (p : Nat) {s : State} (h₀ : Keeps w₀ s₀ s) :
    Keeps w₀ s₀ (resetPort p s) := by
  unfold resetPort
  repeat' with_reducible first
    | assumption | apply leaveOff_keeps (hw₀.sub rfl) | apply modPort_keeps (hw₀.sub rfl)
    | refine clearK_keeps (hw₀.sub rfl) _ _ (fun _ h => h) ?_ | apply portDeath_keeps (hw₀.sub rfl)

theorem portRst_keeps
    (hw₀ : Has 0x10002000401100000801000004000002000000004000008000000400004001fffffffffffffe00000010008020000000002000000001000000000100000000008000b000400 w₀)
    (r : Requester) (a v : Nat) {s : State} (h₀ : Keeps w₀ s₀ s) :
    Keeps w₀ s₀ (portRst r a v s) := by
  unfold portRst
  repeat' with_reducible first
    | assumption | intro _ | apply guarded_keeps (hw₀.sub rfl) | apply resetPort_keeps (hw₀.sub rfl) | split

theorem execPortRst_keeps
    (hw₀ : Has 0x10002000401100000801000004000002000000004000008000000400004001fffffffffffffe00000010008020000000002000000001000000000100000000008000b000400 w₀)
    (r : Requester) (a v : Nat) {s : State} (h₀ : Keeps w₀ s₀ s) :
    ∀ t₁, execPortRst r a v s = .next t₁ → Keeps w₀ s₀ t₁ := by
  unfold execPortRst
  intro t₁ ht
  cases ht
  repeat' with_reducible first
    | assumption | apply portRst_keeps (hw₀.sub rfl)

end Sys2Proof.Machine
end

