-- ==== Sys2Proof/Laws/KeepsSluiceCmd.lean ====
section
/-! SUPPORT. What the functions of Machine/SluiceCmd.lean may change. -/

namespace Sys2Proof.Machine

set_option exponentiation.threshold 600

variable {w₀ : Nat} {s₀ : State}

theorem hubEnter_keeps (hw₀ : Has 0x400 w₀) (n r op : Nat) {s : State} (h₀ : Keeps w₀ s₀ s) :
    Keeps w₀ s₀ (hubEnter n r op s) := by
  unfold hubEnter
  try dsimp -proj only
  repeat' with_reducible first
    | assumption | apply slEnter_keeps (hw₀.sub rfl) | split

theorem enterSluice_keeps (hw₀ : Has 0x9000500 w₀) (n r op acc : Nat) {s : State} (h₀ : Keeps w₀ s₀ s) :
    Keeps w₀ s₀ (enterSluice n r op acc s) := by
  unfold enterSluice
  repeat' with_reducible first
    | assumption | apply memSluiceEnter_keeps (hw₀.sub rfl) | apply portSluiceEnter_keeps (hw₀.sub rfl)
    | apply hubEnter_keeps (hw₀.sub rfl) | split

theorem sluiceEnter_keeps (hw₀ : Has 0x400000000000000000000000000000000000000000000009000500 w₀) (n r op acc dt : Nat) {s : State} (h₀ : Keeps w₀ s₀ s) :
    Keeps w₀ s₀ (sluiceEnter n r op acc dt s) := by
  unfold sluiceEnter
  repeat' with_reducible first
    | assumption | apply enterSluice_keeps (hw₀.sub rfl) | apply slTick_keeps (hw₀.sub rfl)

theorem execSluiceEnter_keeps (hw₀ : Has 0x400000000000000000000000000000000000000000000009000500 w₀) (n r op acc dt : Nat) {s : State} (h₀ : Keeps w₀ s₀ s) :
    ∀ t₁, execSluiceEnter n r op acc dt s = .next t₁ → Keeps w₀ s₀ t₁ := by
  unfold execSluiceEnter
  intro t₁ ht
  cases ht
  repeat' with_reducible first
    | assumption | apply runningIn_keeps | apply sluiceEnter_keeps (hw₀.sub rfl)

theorem hubMayStart_keeps (hw₀ : Has 0x400 w₀) (n : Nat) (q : SlReq) {s : State} (h₀ : Keeps w₀ s₀ s) :
    Keeps w₀ s₀ (hubMayStart n q s) := by
  unfold hubMayStart
  try dsimp -proj only
  repeat' with_reducible first
    | assumption | apply modSluice_keeps (hw₀.sub rfl) | split

theorem hubSluiceGrant_keeps (hw₀ : Has 0xe100000000000000000000000000000000000000000000000000400 w₀) (n : Nat)
    {s : State} (h₀ : Keeps w₀ s₀ s) :
    Keeps w₀ s₀ (hubSluiceGrant n s) := by
  unfold hubSluiceGrant
  repeat' with_reducible first
    | assumption | refine slServe_keeps (hw₀.sub rfl) _ _ _ _ ?_ (by assumption)
    | (intro _; refine slServe_keeps (hw₀.sub rfl) _ _ _ _ ?_ (by assumption)) | apply hubMayStart_keeps (hw₀.sub rfl)
    | split

theorem grantSluice_keeps (hw₀ : Has 0x400400000000000e10000000000600000000000000000000000000000008000100050c w₀)
    (n : Nat) {s : State} (h₀ : Keeps w₀ s₀ s) :
    Keeps w₀ s₀ (grantSluice n s) := by
  unfold grantSluice
  repeat' with_reducible first
    | assumption | apply memSluiceGrant_keeps (hw₀.sub rfl) | apply portSluiceGrant_keeps (hw₀.sub rfl)
    | apply hubSluiceGrant_keeps (hw₀.sub rfl) | split

theorem sluiceGrant_keeps (hw₀ : Has 0x400400000000000e50000000000600000000000000000000000000000008000100050c w₀)
    (n dt : Nat) {s : State} (h₀ : Keeps w₀ s₀ s) :
    Keeps w₀ s₀ (sluiceGrant n dt s) := by
  unfold sluiceGrant
  repeat' with_reducible first
    | assumption | apply grantSluice_keeps (hw₀.sub rfl) | apply slTick_keeps (hw₀.sub rfl)

theorem execSluiceGrant_keeps (hw₀ : Has 0x400400000000000e50000000000600000000000000000000000000000008000100050c w₀)
    (n dt : Nat) {s : State} (h₀ : Keeps w₀ s₀ s) :
    ∀ t₁, execSluiceGrant n dt s = .next t₁ → Keeps w₀ s₀ t₁ := by
  unfold execSluiceGrant
  intro t₁ ht
  cases ht
  repeat' with_reducible first
    | assumption | apply runningIn_keeps | apply sluiceGrant_keeps (hw₀.sub rfl)

end Sys2Proof.Machine
end

