-- ==== Sys2Proof/Laws/KeepsHost.lean ====
section
/-! SUPPORT. What the functions of Machine/Host.lean may change. -/

namespace Sys2Proof.Machine

set_option exponentiation.threshold 600

variable {w₀ : Nat} {s₀ : State}

theorem sqFault_keeps
    (hw₀ : Has 0xe0000000000000000000000000000000000000000000000000000000000000000000000000000000000000000000000000000080000000000 w₀)
    (c q i : Nat) {s : State} (h₀ : Keeps w₀ s₀ s) :
    Keeps w₀ s₀ (sqFault c q i s) := by
  unfold sqFault
  repeat' with_reducible first
    | assumption | refine setEvt_keeps (p := 12) (hw₀.sub rfl) (hw₀.sub rfl) _ _ (by with_unfolding_all rfl) reg_pendFld12 ?_
    | refine setF_keeps (hw₀.sub rfl) _ _ _ reg_CQ_ERR_INFO_QUEUE ?_
    | refine setF_keeps (hw₀.sub rfl) _ _ _ reg_CQ_ERR_INFO_INDEX ?_

theorem sqTailSet_keeps
    (hw₀ : Has 0xe0080000000000000000000000000000000000000000000000000000000000000000000000000000000000000000000000000080000000000 w₀)
    (v c o : Nat) {s : State} (h₀ : Keeps w₀ s₀ s) :
    Keeps w₀ s₀ (sqTailSet v c o s) := by
  unfold sqTailSet
  repeat' with_reducible first
    | assumption | apply keeps_ite | refine setFk_keeps (hw₀.sub rfl) _ _ _ _ reg_CQ_SQ_TAIL ?_
    | apply sqFault_keeps (hw₀.sub rfl)

theorem sqTail_keeps
    (hw₀ : Has 0x10002000401100000801000004e0080200000000400000800000040000000100000000000002000000100080200000000020000000010000000001000000000080000000000 w₀)
    (r : Requester) (a v : Nat) {s : State} (h₀ : Keeps w₀ s₀ s) :
    Keeps w₀ s₀ (sqTail r a v s) := by
  unfold sqTail
  repeat' with_reducible first
    | assumption | intro _ | apply guarded_keeps (hw₀.sub rfl) | apply sqTailSet_keeps (hw₀.sub rfl) | split

theorem execSqTail_keeps
    (hw₀ : Has 0x10002000401100000801000004e0080200000000400000800000040000000100000000000002000000100080200000000020000000010000000001000000000080000000000 w₀)
    (r : Requester) (a v : Nat) {s : State} (h₀ : Keeps w₀ s₀ s) :
    ∀ t₁, execSqTail r a v s = .next t₁ → Keeps w₀ s₀ t₁ := by
  unfold execSqTail
  intro t₁ ht
  cases ht
  repeat' with_reducible first
    | assumption | apply sqTail_keeps (hw₀.sub rfl)

theorem sqEnableSet_keeps
    (hw₀ : Has 0x40000000000000000000000000000000000000000000000000000000000000000000000000000000000000000000000000000000100000 w₀)
    (v c o : Nat) {s : State} (h₀ : Keeps w₀ s₀ s) :
    Keeps w₀ s₀ (sqEnableSet v c o s) := by
  unfold sqEnableSet
  repeat' with_reducible first
    | assumption | refine setFk_keeps (hw₀.sub rfl) _ _ _ _ reg_CQ_SQ_CFG_EN ?_ | apply modQueue_keeps (hw₀.sub rfl) | split

theorem sqEnable_keeps
    (hw₀ : Has 0x1000200040110000080100000400040200000000400000800000040000000100000000000002000000100080200000000020000000010000000001000000000000000100000 w₀)
    (r : Requester) (a v : Nat) {s : State} (h₀ : Keeps w₀ s₀ s) :
    Keeps w₀ s₀ (sqEnable r a v s) := by
  unfold sqEnable
  repeat' with_reducible first
    | assumption | intro _ | apply guarded_keeps (hw₀.sub rfl) | apply sqEnableSet_keeps (hw₀.sub rfl) | split

theorem execSqEnable_keeps
    (hw₀ : Has 0x1000200040110000080100000400040200000000400000800000040000000100000000000002000000100080200000000020000000010000000001000000000000000100000 w₀)
    (r : Requester) (a v : Nat) {s : State} (h₀ : Keeps w₀ s₀ s) :
    ∀ t₁, execSqEnable r a v s = .next t₁ → Keeps w₀ s₀ t₁ := by
  unfold execSqEnable
  intro t₁ ht
  cases ht
  repeat' with_reducible first
    | assumption | apply sqEnable_keeps (hw₀.sub rfl)

theorem acceptEntry_keeps
    (hw₀ : Has 0x90104c00000000000000000000000000000000000000000000000000000000000000000000000000000000000000000000000080000100020 w₀)
    (c q n : Nat) (x : Ctx) (entry : List Byte) {s : State} (h₀ : Keeps w₀ s₀ s) :
    Keeps w₀ s₀ (acceptEntry c q n x entry s) := by
  unfold acceptEntry
  repeat' with_reducible first
    | assumption | apply modCtx_keeps (hw₀.sub rfl) | apply modSlot_keeps (hw₀.sub rfl)
    | refine setFk_keeps (hw₀.sub rfl) _ _ _ _ reg_CQ_SQ_HEAD ?_ | refine setF_keeps (hw₀.sub rfl) _ _ _ reg_CQ_SLOTS_USED ?_
    | apply cqPost_keeps (hw₀.sub rfl) | apply modQueue_keeps (hw₀.sub rfl)

theorem sqEntryFetch_keeps
    (hw₀ : Has 0xf0104c00000000000000000000000000000000000000000000000000000000000000000000000000000000000000000000000080000100020 w₀)
    (c q : Nat) (ok : Bool) (entry : List Byte) {s : State} (h₀ : Keeps w₀ s₀ s) :
    Keeps w₀ s₀ (sqEntryFetch c q ok entry s) := by
  unfold sqEntryFetch
  repeat' with_reducible first
    | assumption | refine setEvt_keeps (p := 12) (hw₀.sub rfl) (hw₀.sub rfl) _ _ (by with_unfolding_all rfl) reg_pendFld12 ?_
    | apply acceptEntry_keeps (hw₀.sub rfl) | apply sqFault_keeps (hw₀.sub rfl) | apply modQueue_keeps (hw₀.sub rfl) | split

theorem execSqEntryFetch_keeps
    (hw₀ : Has 0xf0104c00000000000000000000000000000000000000000000000000000000000000000000000000000000000000000000000080000100020 w₀)
    (c q : Nat) (ok : Bool) (entry : List Byte) {s : State} (h₀ : Keeps w₀ s₀ s) :
    ∀ t₁, execSqEntryFetch c q ok entry s = .next t₁ → Keeps w₀ s₀ t₁ := by
  unfold execSqEntryFetch
  intro t₁ ht
  cases ht
  repeat' with_reducible first
    | assumption | apply running_keeps | apply sqEntryFetch_keeps (hw₀.sub rfl)

theorem denyCmd_keeps
    (hw₀ : Has 0x58080000000000000000000000000000000000000000000000000000000000000000000000000000000000000000000080000200000 w₀)
    (h : Nat) {s : State} (h₀ : Keeps w₀ s₀ s) :
    Keeps w₀ s₀ (denyCmd h s) := by
  unfold denyCmd
  repeat' with_reducible first
    | assumption | apply report_keeps (hw₀.sub rfl)
    | refine setEvt_keeps (p := 11) (hw₀.sub rfl) (hw₀.sub rfl) _ _ (by with_unfolding_all rfl) reg_pendFld11 ?_
    | refine incr_keeps (hw₀.sub rfl) _ _ reg_HOSTIF_DENIED_CNT ?_
    | refine setF_keeps (hw₀.sub rfl) _ _ _ reg_HOSTIF_ERR_INFO_FUNCTION ?_
    | refine setF_keeps (hw₀.sub rfl) _ _ _ reg_HOSTIF_ERR_INFO_EVENT ?_

theorem commandStart_keeps
    (hw₀ : Has 0x58080000000000000000000000000000000000000000000000000000000000000000000000000000000000000000000080000300000 w₀)
    (c q : Nat) {s : State} (h₀ : Keeps w₀ s₀ s) :
    Keeps w₀ s₀ (commandStart c q s) := by
  unfold commandStart
  repeat' with_reducible first
    | assumption | apply keeps_ite | apply modQueue_keeps (hw₀.sub rfl) | apply report_keeps (hw₀.sub rfl)
    | apply modSlot_keeps (hw₀.sub rfl) | apply denyCmd_keeps (hw₀.sub rfl) | split

theorem execCommandStart_keeps
    (hw₀ : Has 0x58080000000000000000000000000000000000000000000000000000000000000000000000000000000000000000000080000300000 w₀)
    (c q : Nat) {s : State} (h₀ : Keeps w₀ s₀ s) :
    ∀ t₁, execCommandStart c q s = .next t₁ → Keeps w₀ s₀ t₁ := by
  unfold execCommandStart
  intro t₁ ht
  cases ht
  repeat' with_reducible first
    | assumption | apply running_keeps | apply commandStart_keeps (hw₀.sub rfl)

theorem completionReport_keeps
    (hw₀ : Has 0x90005c00000000000000000000000000000000000000000000000000000000000000000000000000000000000000000000000080000300020 w₀)
    (n : Nat) {s : State} (h₀ : Keeps w₀ s₀ s) :
    Keeps w₀ s₀ (completionReport n s) := by
  unfold completionReport
  repeat' with_reducible first
    | assumption | apply endCmd_keeps (hw₀.sub rfl)
    | refine setEvt_keeps (p := 12) (hw₀.sub rfl) (hw₀.sub rfl) _ _ (by with_unfolding_all rfl) reg_pendFld12 ?_
    | refine incr_keeps (hw₀.sub rfl) _ _ reg_CQ_STALE_CNT ?_ | split | apply keeps_reports (hw₀.sub rfl)

theorem execCompletionReport_keeps
    (hw₀ : Has 0x90005c00000000000000000000000000000000000000000000000000000000000000000000000000000000000000000000000080000300020 w₀)
    (n : Nat) {s : State} (h₀ : Keeps w₀ s₀ s) :
    ∀ t₁, execCompletionReport n s = .next t₁ → Keeps w₀ s₀ t₁ := by
  unfold execCompletionReport
  intro t₁ ht
  cases ht
  repeat' with_reducible first
    | assumption | apply running_keeps | apply completionReport_keeps (hw₀.sub rfl)

theorem cqHeadSet_keeps
    (hw₀ : Has 0x18006c00000000000000000000000000000000000000000000000000000000000000000000000000000000000000000000000080000100020 w₀)
    (v waited c o : Nat) {s : State} (h₀ : Keeps w₀ s₀ s) :
    Keeps w₀ s₀ (cqHeadSet v waited c o s) := by
  unfold cqHeadSet
  repeat' with_reducible first
    | assumption | refine addF_keeps (hw₀.sub rfl) _ _ _ reg_CQ_CQ_FULL_HCLK ?_
    | refine setFk_keeps (hw₀.sub rfl) _ _ _ _ reg_CQ_CQ_HEAD ?_ | apply modQueue_keeps (hw₀.sub rfl)
    | apply cqDrain_keeps (hw₀.sub rfl) | split

theorem cqHead_keeps
    (hw₀ : Has 0x1000200040110000080100000418006e00000000400000800000040000000100000000000002000000100080200000000020000000010000000001000000000080000100020 w₀)
    (r : Requester) (a v waited : Nat) {s : State} (h₀ : Keeps w₀ s₀ s) :
    Keeps w₀ s₀ (cqHead r a v waited s) := by
  unfold cqHead
  repeat' with_reducible first
    | assumption | intro _ | apply guarded_keeps (hw₀.sub rfl) | apply cqHeadSet_keeps (hw₀.sub rfl) | split

theorem execCqHead_keeps
    (hw₀ : Has 0x1000200040110000080100000418006e00000000400000800000040000000100000000000002000000100080200000000020000000010000000001000000000080000100020 w₀)
    (r : Requester) (a v waited : Nat) {s : State} (h₀ : Keeps w₀ s₀ s) :
    ∀ t₁, execCqHead r a v waited s = .next t₁ → Keeps w₀ s₀ t₁ := by
  unfold execCqHead
  intro t₁ ht
  cases ht
  repeat' with_reducible first
    | assumption | apply cqHead_keeps (hw₀.sub rfl)

theorem coalesceTimer_keeps (hw₀ : Has 0x80000100000 w₀) (c q : Nat) {s : State} (h₀ : Keeps w₀ s₀ s) :
    Keeps w₀ s₀ (coalesceTimer c q s) := by
  unfold coalesceTimer
  repeat' with_reducible first
    | assumption | apply cqSignal_keeps (hw₀.sub rfl) | split

theorem execCoalesceTimer_keeps (hw₀ : Has 0x80000100000 w₀) (c q : Nat) {s : State} (h₀ : Keeps w₀ s₀ s) :
    ∀ t₁, execCoalesceTimer c q s = .next t₁ → Keeps w₀ s₀ t₁ := by
  unfold execCoalesceTimer
  intro t₁ ht
  cases ht
  repeat' with_reducible first
    | assumption | apply running_keeps | apply coalesceTimer_keeps (hw₀.sub rfl)

theorem bar2Fault_keeps
    (hw₀ : Has 0x58040000000000000000000000000000000000000000000000000000000000000000000000000000000000000000000080000000000 w₀)
    {s : State} (h₀ : Keeps w₀ s₀ s) :
    Keeps w₀ s₀ (bar2Fault s) := by
  unfold bar2Fault
  repeat' with_reducible first
    | assumption | refine setEvt_keeps (p := 11) (hw₀.sub rfl) (hw₀.sub rfl) _ _ (by with_unfolding_all rfl) reg_pendFld11 ?_
    | refine incr_keeps (hw₀.sub rfl) _ _ reg_HOSTIF_BAR2_FAULT_CNT ?_
    | refine setF_keeps (hw₀.sub rfl) _ _ _ reg_HOSTIF_ERR_INFO_FUNCTION ?_
    | refine setF_keeps (hw₀.sub rfl) _ _ _ reg_HOSTIF_ERR_INFO_EVENT ?_

theorem nextFree_keeps (hw₀ : Has 0x100000000000 w₀) {s : State} (h₀ : Keeps w₀ s₀ s) :
    Keeps w₀ s₀ (nextFree s) := by
  unfold nextFree
  repeat' with_reducible first
    | assumption | apply keeps_freeCtr (hw₀.sub rfl)

theorem bar2Read_keeps
    (hw₀ : Has 0x5804000000000000000000000000000000000000000000000000000004c048fc4000000000000000000000000000000180000800100 w₀)
    (off n : Nat) {s : State} (h₀ : Keeps w₀ s₀ s) :
    Keeps w₀ s₀ (bar2Read off n s) := by
  unfold bar2Read
  repeat' with_reducible first
    | assumption | apply engRead_keeps (hw₀.sub rfl) | apply emit_keeps (hw₀.sub rfl) | apply bar2Fault_keeps (hw₀.sub rfl)
    | apply nextFree_keeps (hw₀.sub rfl) | split | refine keeps_snd (by assumption) ?_

theorem execBar2Read_keeps
    (hw₀ : Has 0x5804000000000000000000000000000000000000000000000000000004c048fc4000000000000000000000000000000180000800100 w₀)
    (off n : Nat) {s : State} (h₀ : Keeps w₀ s₀ s) :
    ∀ t₁, execBar2Read off n s = .next t₁ → Keeps w₀ s₀ t₁ := by
  unfold execBar2Read
  intro t₁ ht
  cases ht
  repeat' with_reducible first
    | assumption | apply awake_keeps | apply bar2Read_keeps (hw₀.sub rfl)

theorem bar2Write_keeps
    (hw₀ : Has 0x5804000000000000000000000000000000000000000000000000000004004000000000000000000000000000000000008000000000c w₀)
    (off : Nat) (data : List Byte) {s : State} (h₀ : Keeps w₀ s₀ s) :
    Keeps w₀ s₀ (bar2Write off data s) := by
  unfold bar2Write
  repeat' with_reducible first
    | assumption | apply keeps_ite | apply memWrite_keeps (hw₀.sub rfl) | apply bar2Fault_keeps (hw₀.sub rfl)

theorem execBar2Write_keeps
    (hw₀ : Has 0x5804000000000000000000000000000000000000000000000000000004004000000000000000000000000000000000008000000000c w₀)
    (off : Nat) (data : List Byte) {s : State} (h₀ : Keeps w₀ s₀ s) :
    ∀ t₁, execBar2Write off data s = .next t₁ → Keeps w₀ s₀ t₁ := by
  unfold execBar2Write
  intro t₁ ht
  cases ht
  repeat' with_reducible first
    | assumption | apply awake_keeps | apply bar2Write_keeps (hw₀.sub rfl)

theorem nop_keeps (hw₀ : Has 0x300000 w₀) (h : Nat) {s : State} (h₀ : Keeps w₀ s₀ s) :
    Keeps w₀ s₀ (nop h s) := by
  unfold nop
  repeat' with_reducible first
    | assumption | intro _ | apply runCmd_keeps (hw₀.sub rfl) | apply report_keeps (hw₀.sub rfl)

theorem execNop_keeps (hw₀ : Has 0x300000 w₀) (h : Nat) {s : State} (h₀ : Keeps w₀ s₀ s) :
    ∀ t₁, execNop h s = .next t₁ → Keeps w₀ s₀ t₁ := by
  unfold execNop
  intro t₁ ht
  cases ht
  repeat' with_reducible first
    | assumption | apply running_keeps | apply nop_keeps (hw₀.sub rfl)

theorem dropWindow_keeps (hw₀ : Has 0x200 w₀) (t : Nat) {s : State} (h₀ : Keeps w₀ s₀ s) :
    Keeps w₀ s₀ (dropWindow t s) := by
  unfold dropWindow
  repeat' with_reducible first
    | assumption | split | apply keeps_window (hw₀.sub rfl)

theorem abort_keeps
    (hw₀ : Has 0x90004c00000000000000000000000000000000000000000000000000000000000000000000000000000000000000000000000080000300220 w₀)
    (h : Nat) {s : State} (h₀ : Keeps w₀ s₀ s) :
    Keeps w₀ s₀ (abort h s) := by
  unfold abort
  repeat' with_reducible first
    | assumption | intro _ | apply keeps_ite | apply runCmd_keeps (hw₀.sub rfl) | apply report_keeps (hw₀.sub rfl)
    | apply endCmd_keeps (hw₀.sub rfl) | apply setTurn_keeps (hw₀.sub rfl) | apply dropWindow_keeps (hw₀.sub rfl)

theorem execAbort_keeps
    (hw₀ : Has 0x90004c00000000000000000000000000000000000000000000000000000000000000000000000000000000000000000000000080000300220 w₀)
    (h : Nat) {s : State} (h₀ : Keeps w₀ s₀ s) :
    ∀ t₁, execAbort h s = .next t₁ → Keeps w₀ s₀ t₁ := by
  unfold execAbort
  intro t₁ ht
  cases ht
  repeat' with_reducible first
    | assumption | apply running_keeps | apply abort_keeps (hw₀.sub rfl)

theorem setSeed_keeps (hw₀ : Has 0x300000 w₀) (h : Nat) {s : State} (h₀ : Keeps w₀ s₀ s) :
    Keeps w₀ s₀ (setSeed h s) := by
  unfold setSeed
  repeat' with_reducible first
    | assumption | intro _ | apply runCmd_keeps (hw₀.sub rfl) | apply report_keeps (hw₀.sub rfl)
    | apply modCtx_keeps (hw₀.sub rfl) | split

theorem execSetSeed_keeps (hw₀ : Has 0x300000 w₀) (h : Nat) {s : State} (h₀ : Keeps w₀ s₀ s) :
    ∀ t₁, execSetSeed h s = .next t₁ → Keeps w₀ s₀ t₁ := by
  unfold execSetSeed
  intro t₁ ht
  cases ht
  repeat' with_reducible first
    | assumption | apply running_keeps | apply setSeed_keeps (hw₀.sub rfl)

theorem copyEnd_keeps (hw₀ : Has 0x200000 w₀) (h : Nat) (e data : List Byte) {s : State} (h₀ : Keeps w₀ s₀ s) :
    Keeps w₀ s₀ (copyEnd h e data s) := by
  unfold copyEnd
  repeat' with_reducible first
    | assumption | apply report_keeps (hw₀.sub rfl)

theorem copyPut_keeps (hw₀ : Has 0x4004000000000000000000000000000000000008000020002c w₀) (h : Nat) (e data : List Byte)
    {s : State} (h₀ : Keeps w₀ s₀ s) :
    Keeps w₀ s₀ (copyPut h e data s) := by
  unfold copyPut
  repeat' with_reducible first
    | assumption | apply keeps_ite | apply copyEnd_keeps (hw₀.sub rfl) | apply hostWrite_keeps (hw₀.sub rfl)
    | apply memWrite_keeps (hw₀.sub rfl) | apply report_keeps (hw₀.sub rfl)

theorem runDma_keeps (hw₀ : Has 0x100400 w₀) (h op : Nat) (f : List Byte → State → State) {s : State} (h₀ : Keeps w₀ s₀ s) (hf₀ : ∀ y0 s, Keeps w₀ s₀ s → Keeps w₀ s₀ (f y0 s)) :
    Keeps w₀ s₀ (runDma h op f s) := by
  unfold runDma
  try dsimp -proj only
  repeat' with_reducible first
    | assumption | intro _ | apply hf₀ | apply runCmd_keeps (hw₀.sub rfl) | apply hubTake_keeps (hw₀.sub rfl) | split

theorem copy_keeps (hw₀ : Has 0x4c048fc4000000000000000000000000000000080000b0052c w₀) (h : Nat) (hd : List Byte)
    {s : State} (h₀ : Keeps w₀ s₀ s) :
    Keeps w₀ s₀ (copy h hd s) := by
  unfold copy
  repeat' with_reducible first
    | assumption | intro _ | apply copyPut_keeps (hw₀.sub rfl) | apply cmdRead_keeps (hw₀.sub rfl)
    | apply runDma_keeps (hw₀.sub rfl) | split

theorem execCopy_keeps (hw₀ : Has 0x4c048fc4000000000000000000000000000000080000b0052c w₀) (h : Nat) (hd : List Byte)
    {s : State} (h₀ : Keeps w₀ s₀ s) :
    ∀ t₁, execCopy h hd s = .next t₁ → Keeps w₀ s₀ t₁ := by
  unfold execCopy
  intro t₁ ht
  cases ht
  repeat' with_reducible first
    | assumption | apply awake_keeps | apply copy_keeps (hw₀.sub rfl)

end Sys2Proof.Machine
end

