-- ==== Sys2Proof/Laws/KeepsLists.lean ====
section
/-! SUPPORT. What the functions of Machine/Lists.lean may change. -/

namespace Sys2Proof.Machine

set_option exponentiation.threshold 600

variable {w₀ : Nat} {s₀ : State}

theorem startList_keeps (hw₀ : Has 0x4000 w₀) (c h : Nat) (e : Nat × Nat) {s : State} (h₀ : Keeps w₀ s₀ s) :
    Keeps w₀ s₀ (startList c h e s) := by
  unfold startList
  repeat' with_reducible first
    | assumption | apply modCluster_keeps (hw₀.sub rfl)

theorem startLists_keeps (hw₀ : Has 0x4000 w₀) (c h : Nat) (x1 : List (Nat × Nat)) {x2 : State} (h₀ : Keeps w₀ s₀ x2) :
    Keeps w₀ s₀ (startLists c h x1 x2) := by
  revert h₀
  fun_induction startLists c h x1 x2 <;> intro h₀
  all_goals repeat' with_reducible first
    | apply startList_keeps (hw₀.sub rfl) | apply_assumption -exfalso

theorem listRun_keeps (hw₀ : Has 0x4c048fc4000000000000000000000000000000080000b04100 w₀) (h : Nat) {s : State}
    (h₀ : Keeps w₀ s₀ s) :
    Keeps w₀ s₀ (listRun h s) := by
  unfold listRun
  repeat' with_reducible first
    | assumption | intro _ | apply runCmd_keeps (hw₀.sub rfl) | apply cmdRead_keeps (hw₀.sub rfl)
    | apply listsDone_keeps (hw₀.sub rfl) | apply startLists_keeps (hw₀.sub rfl)

theorem execListRun_keeps (hw₀ : Has 0x4c048fc4000000000000000000000000000000080000b04100 w₀) (h : Nat) {s : State}
    (h₀ : Keeps w₀ s₀ s) :
    ∀ t₁, execListRun h s = .next t₁ → Keeps w₀ s₀ t₁ := by
  unfold execListRun
  intro t₁ ht
  cases ht
  repeat' with_reducible first
    | assumption | apply awake_keeps | apply listRun_keeps (hw₀.sub rfl)

theorem listFault_keeps (hw₀ : Has 0x3800000000000000000080000004000 w₀) (cl lid code a : Nat) {s : State}
    (h₀ : Keeps w₀ s₀ s) :
    Keeps w₀ s₀ (listFault cl lid code a s) := by
  unfold listFault
  repeat' with_reducible first
    | assumption | refine setF_keeps (hw₀.sub rfl) _ _ _ reg_CLUSTER_LIST_ERR_CODE ?_
    | refine setF_keeps (hw₀.sub rfl) _ _ _ reg_CLUSTER_LIST_ERR_ADDR ?_ | apply haltList_keeps (hw₀.sub rfl)
    | refine setEvt_keeps (p := 1) (hw₀.sub rfl) (hw₀.sub rfl) _ _ (by with_unfolding_all rfl) reg_pendFld1 ?_ | split

theorem readHdr_keeps (hw₀ : Has 0x3800000000000000000080000004000 w₀) (cl lid : Nat) (p : ListPos) {s : State}
    (h₀ : Keeps w₀ s₀ s) :
    Keeps w₀ s₀ (readHdr cl lid p s) := by
  unfold readHdr
  repeat' with_reducible first
    | assumption | apply keeps_ite | apply listFault_keeps (hw₀.sub rfl) | apply modList_keeps (hw₀.sub rfl)

theorem readNext_keeps (hw₀ : Has 0x3800000000000000000080000004000 w₀) (cl lid : Nat) (l : ListRun) {s : State}
    (h₀ : Keeps w₀ s₀ s) :
    Keeps w₀ s₀ (readNext cl lid l s) := by
  unfold readNext
  repeat' with_reducible first
    | assumption | apply keeps_ite | apply readHdr_keeps (hw₀.sub rfl) | apply modList_keeps (hw₀.sub rfl)
    | apply listFault_keeps (hw₀.sub rfl)

theorem listDescRead_keeps (hw₀ : Has 0x3800000000000000000080000204000 w₀) (cl lid : Nat) {s : State}
    (h₀ : Keeps w₀ s₀ s) :
    Keeps w₀ s₀ (listDescRead cl lid s) := by
  unfold listDescRead
  repeat' with_reducible first
    | assumption | apply endList_keeps (hw₀.sub rfl) | apply readNext_keeps (hw₀.sub rfl)
    | apply modCluster_keeps (hw₀.sub rfl) | split

theorem execListDescRead_keeps (hw₀ : Has 0x3800000000000000000080000204000 w₀) (cl lid : Nat) {s : State}
    (h₀ : Keeps w₀ s₀ s) :
    ∀ t₁, execListDescRead cl lid s = .next t₁ → Keeps w₀ s₀ t₁ := by
  unfold execListDescRead
  intro t₁ ht
  cases ht
  repeat' with_reducible first
    | assumption | apply runningIn_keeps | apply listDescRead_keeps (hw₀.sub rfl)

theorem descTaken_keeps (hw₀ : Has 0x204000 w₀) (cl lid : Nat) {s : State} (h₀ : Keeps w₀ s₀ s) :
    Keeps w₀ s₀ (descTaken cl lid s) := by
  unfold descTaken
  repeat' with_reducible first
    | assumption | apply endList_keeps (hw₀.sub rfl) | apply modList_keeps (hw₀.sub rfl)

theorem passOn_keeps (hw₀ : Has 0x4000 w₀) (cl lid : Nat) {s : State} (h₀ : Keeps w₀ s₀ s) :
    Keeps w₀ s₀ (passOn cl lid s) := by
  unfold passOn
  repeat' with_reducible first
    | assumption | apply modList_keeps (hw₀.sub rfl)

theorem passDone_keeps (hw₀ : Has 0x204000 w₀) (cl lid : Nat) (part spill : Bool) (os : List ChunkOut) {s : State} (h₀ : Keeps w₀ s₀ s) :
    Keeps w₀ s₀ (passDone cl lid part spill os s) := by
  unfold passDone
  repeat' with_reducible first
    | assumption | apply endList_keeps (hw₀.sub rfl) | apply modList_keeps (hw₀.sub rfl) | split | dsimp -proj only

end Sys2Proof.Machine
end

