-- ==== Sys2Proof/Laws/KeepsUnits.lean ====
section
/-! SUPPORT. What the functions of Machine/Units.lean may change. -/

namespace Sys2Proof.Machine

set_option exponentiation.threshold 600

variable {w₀ : Nat} {s₀ : State}

theorem putUnit_keeps (hw₀ : Has 0x1890000000008000 w₀) (u : Nat) (x : TUnit) {s : State} (h₀ : Keeps w₀ s₀ s) :
    Keeps w₀ s₀ (putUnit u x s) := by
  unfold putUnit
  repeat' with_reducible first
    | assumption | refine setF_keeps (hw₀.sub rfl) _ _ _ reg_TUNIT_STAT_BUSY ?_
    | refine setF_keeps (hw₀.sub rfl) _ _ _ reg_TUNIT_STAT_HALTED ?_
    | refine setF_keeps (hw₀.sub rfl) _ _ _ reg_TUNIT_STAT_CQ_LEVEL ?_
    | refine setF_keeps (hw₀.sub rfl) _ _ _ reg_TUNIT_STAT_WQ_LEVEL ?_ | split | apply keeps_units (hw₀.sub rfl)
    | dsimp -proj only

theorem modUnit_keeps (hw₀ : Has 0x1890000000008000 w₀) (u : Nat) (f : TUnit → TUnit) {s : State} (h₀ : Keeps w₀ s₀ s) :
    Keeps w₀ s₀ (modUnit u f s) := by
  unfold modUnit
  repeat' with_reducible first
    | assumption | apply putUnit_keeps (hw₀.sub rfl)

theorem modSeq_keeps (hw₀ : Has 0x10000 w₀) (rg : Nat) (f : Seq → Seq) {s : State} (h₀ : Keeps w₀ s₀ s) :
    Keeps w₀ s₀ (modSeq rg f s) := by
  unfold modSeq
  repeat' with_reducible first
    | assumption | apply keeps_seqs (hw₀.sub rfl)

theorem matmulDescriptor_keeps (hw₀ : Has 0x189000000000c000 w₀) (cl lid n : Nat) {s : State} (h₀ : Keeps w₀ s₀ s) :
    Keeps w₀ s₀ (matmulDescriptor cl lid n s) := by
  unfold matmulDescriptor
  repeat' with_reducible first
    | assumption | apply passOn_keeps (hw₀.sub rfl) | apply modUnit_keeps (hw₀.sub rfl) | split | dsimp -proj only

theorem execMatmulDescriptor_keeps (hw₀ : Has 0x189000000000c000 w₀) (cl lid n : Nat) {s : State} (h₀ : Keeps w₀ s₀ s) :
    ∀ t₁, execMatmulDescriptor cl lid n s = .next t₁ → Keeps w₀ s₀ t₁ := by
  unfold execMatmulDescriptor
  intro t₁ ht
  cases ht
  repeat' with_reducible first
    | assumption | apply runningIn_keeps | apply matmulDescriptor_keeps (hw₀.sub rfl)

theorem unitErr_keeps (hw₀ : Has 0xe000000000000000 w₀) (u code tile : Nat) {s : State} (h₀ : Keeps w₀ s₀ s) :
    Keeps w₀ s₀ (unitErr u code tile s) := by
  unfold unitErr
  repeat' with_reducible first
    | assumption | refine setF_keeps (hw₀.sub rfl) _ _ _ reg_TUNIT_ERR_INFO_CODE ?_
    | refine setF_keeps (hw₀.sub rfl) _ _ _ reg_TUNIT_ERR_INFO_TILE ?_
    | refine setF_keeps (hw₀.sub rfl) _ _ _ reg_TUNIT_ERR_INFO_DESC_SEQ ?_ | split

theorem takeDesc_keeps (hw₀ : Has 0x20000f8b0080000008000 w₀) (u : Nat) (wideQ : Bool) (q : QDesc) {s : State}
    (h₀ : Keeps w₀ s₀ s) :
    Keeps w₀ s₀ (takeDesc u wideQ q s) := by
  unfold takeDesc
  repeat' with_reducible first
    | assumption | apply keeps_ite
    | refine setEvt_keeps (p := 0) (hw₀.sub rfl) (hw₀.sub rfl) _ _ (by with_unfolding_all rfl) reg_pendFld0 ?_
    | apply unitErr_keeps (hw₀.sub rfl) | apply modUnit_keeps (hw₀.sub rfl)
    | refine setF_keeps (hw₀.sub rfl) _ _ _ reg_TUNIT_STAT_MODE ?_

theorem takeCq_keeps (hw₀ : Has 0x20000f8b0080000008000 w₀) (u : Nat) {s : State} (h₀ : Keeps w₀ s₀ s) :
    Keeps w₀ s₀ (takeCq u s) := by
  unfold takeCq
  try dsimp -proj only
  repeat' with_reducible first
    | assumption | apply takeDesc_keeps (hw₀.sub rfl) | apply putUnit_keeps (hw₀.sub rfl) | split

theorem takeWq_keeps (hw₀ : Has 0x20000f8b0080000008000 w₀) (u : Nat) {s : State} (h₀ : Keeps w₀ s₀ s) :
    Keeps w₀ s₀ (takeWq u s) := by
  unfold takeWq
  try dsimp -proj only
  repeat' with_reducible first
    | assumption | apply takeDesc_keeps (hw₀.sub rfl) | apply putUnit_keeps (hw₀.sub rfl) | split

theorem descTake_keeps (hw₀ : Has 0x20000f8b0080000008000 w₀) (u : Nat) {s : State} (h₀ : Keeps w₀ s₀ s) :
    Keeps w₀ s₀ (descTake u s) := by
  unfold descTake
  repeat' with_reducible first
    | assumption | apply keeps_ite | apply takeWq_keeps (hw₀.sub rfl) | apply takeCq_keeps (hw₀.sub rfl)

theorem execDescTake_keeps (hw₀ : Has 0x20000f8b0080000008000 w₀) (u : Nat) {s : State} (h₀ : Keeps w₀ s₀ s) :
    ∀ t₁, execDescTake u s = .next t₁ → Keeps w₀ s₀ t₁ := by
  unfold execDescTake
  intro t₁ ht
  cases ht
  repeat' with_reducible first
    | assumption | apply runningIn_keeps | apply descTake_keeps (hw₀.sub rfl)

theorem chunkRecords_keeps (hw₀ : Has 0x100000 w₀) (c : Nat) (o : ChunkOut) (x1 : List (Nat × Nat)) {x2 : State}
    (h₀ : Keeps w₀ s₀ x2) :
    Keeps w₀ s₀ (chunkRecords c o x1 x2) := by
  revert h₀
  fun_induction chunkRecords c o x1 x2 <;> intro h₀
  all_goals repeat' with_reducible first
    | apply jrnCtx_keeps (hw₀.sub rfl) | apply_assumption -exfalso

theorem chunkDiverge_keeps (hw₀ : Has 0x2000001000100000000080000000000 w₀) (u x1 : Nat) {x2 : State}
    (h₀ : Keeps w₀ s₀ x2) :
    Keeps w₀ s₀ (chunkDiverge u x1 x2) := by
  revert h₀
  fun_induction chunkDiverge u x1 x2 <;> intro h₀
  all_goals repeat' with_reducible first
    | apply replayDiv_keeps (hw₀.sub rfl) | refine incr_keeps (hw₀.sub rfl) _ _ reg_TUNIT_ACC_DIVERGE ?_
    | apply_assumption -exfalso

theorem chunkSettle_keeps (hw₀ : Has 0x2000001000100000000080000100000 w₀) (c : Nat) (o : ChunkOut) {s : State}
    (h₀ : Keeps w₀ s₀ s) :
    Keeps w₀ s₀ (chunkSettle c o s) := by
  unfold chunkSettle
  repeat' with_reducible first
    | assumption | apply keeps_ite | apply chunkRecords_keeps (hw₀.sub rfl) | apply chunkDiverge_keeps (hw₀.sub rfl)

theorem settleOuts_keeps (hw₀ : Has 0x2000001000100000000080000100000 w₀) (c : Nat) (x1 : List ChunkOut) {x2 : State}
    (h₀ : Keeps w₀ s₀ x2) :
    Keeps w₀ s₀ (settleOuts c x1 x2) := by
  revert h₀
  fun_induction settleOuts c x1 x2 <;> intro h₀
  all_goals repeat' with_reducible first
    | apply chunkSettle_keeps (hw₀.sub rfl) | apply_assumption -exfalso

theorem settleDesc_keeps (hw₀ : Has 0x2000001000100000000080000304000 w₀) (u : Nat) (q : QDesc) {s : State} (h₀ : Keeps w₀ s₀ s) :
    Keeps w₀ s₀ (settleDesc u q s) := by
  unfold settleDesc
  try dsimp -proj only
  repeat' with_reducible first
    | assumption | apply passDone_keeps (hw₀.sub rfl) | apply settleOuts_keeps (hw₀.sub rfl) | split
    | dsimp -proj only

theorem failDescs_keeps (hw₀ : Has 0x2000001800302010000080000304000 w₀) (u : Nat) (x1 : List QDesc) {x2 : State}
    (h₀ : Keeps w₀ s₀ x2) :
    Keeps w₀ s₀ (failDescs u x1 x2) := by
  revert h₀
  fun_induction failDescs u x1 x2 <;> intro h₀
  all_goals repeat' with_reducible first
    | refine setEvt_keeps (p := 1) (hw₀.sub rfl) (hw₀.sub rfl) _ _ (by with_unfolding_all rfl) reg_pendFld1 ?_
    | refine incr_keeps (hw₀.sub rfl) _ _ reg_CLUSTER_ADOPT_FAIL_CNT ?_
    | refine setEvt_keeps (p := 0) (hw₀.sub rfl) (hw₀.sub rfl) _ _ (by with_unfolding_all rfl) reg_pendFld0 ?_
    | refine incr_keeps (hw₀.sub rfl) _ _ reg_TUNIT_DESC_DONE ?_
    | refine setF_keeps (hw₀.sub rfl) _ _ _ reg_TUNIT_LAST_STAT ?_ | apply_assumption -exfalso
    | apply settleDesc_keeps (hw₀.sub rfl)

theorem adoptFail_keeps (hw₀ : Has 0x200000180030201189008000030c000 w₀) (u : Nat) {s : State} (h₀ : Keeps w₀ s₀ s) :
    Keeps w₀ s₀ (adoptFail u s) := by
  unfold adoptFail
  repeat' with_reducible first
    | assumption | apply failDescs_keeps (hw₀.sub rfl) | apply putUnit_keeps (hw₀.sub rfl)

theorem placeFences_keeps (hw₀ : Has 0x200000180030201189008000030c000 w₀) (cl x1 : Nat) {x2 : State}
    (h₀ : Keeps w₀ s₀ x2) :
    Keeps w₀ s₀ (placeFences cl x1 x2) := by
  revert h₀
  fun_induction placeFences cl x1 x2 <;> intro h₀
  all_goals repeat' with_reducible first
    | apply modCluster_keeps (hw₀.sub rfl) | apply adoptFail_keeps (hw₀.sub rfl) | apply_assumption -exfalso

theorem freeBank_keeps (hw₀ : Has 0x1e90000000008000 w₀) (u : Nat) {s : State} (h₀ : Keeps w₀ s₀ s) :
    Keeps w₀ s₀ (freeBank u s) := by
  unfold freeBank
  repeat' with_reducible first
    | assumption | refine setF_keeps (hw₀.sub rfl) _ _ _ reg_TUNIT_STAT_ADOPTING ?_
    | refine setF_keeps (hw₀.sub rfl) _ _ _ reg_TUNIT_STAT_ADOPTED_FROM ?_ | apply modUnit_keeps (hw₀.sub rfl) | split

theorem failAdopted_keeps (hw₀ : Has 0x2000001800302011e9008000030c000 w₀) (u : Nat) {s : State} (h₀ : Keeps w₀ s₀ s) :
    Keeps w₀ s₀ (failAdopted u s) := by
  unfold failAdopted
  repeat' with_reducible first
    | assumption | apply putUnit_keeps (hw₀.sub rfl) | apply modCluster_keeps (hw₀.sub rfl)
    | apply freeBank_keeps (hw₀.sub rfl) | apply failDescs_keeps (hw₀.sub rfl) | split

theorem withdrawWide_keeps (hw₀ : Has 0x1890000000018000 w₀) (u : Nat) {s : State} (h₀ : Keeps w₀ s₀ s) :
    Keeps w₀ s₀ (withdrawWide u s) := by
  unfold withdrawWide
  repeat' with_reducible first
    | assumption | apply modSeq_keeps (hw₀.sub rfl) | apply putUnit_keeps (hw₀.sub rfl)

theorem fenceUnit_keeps (hw₀ : Has 0x2000001800302011fd008000031c000 w₀) (u : Nat) {s : State} (h₀ : Keeps w₀ s₀ s) :
    Keeps w₀ s₀ (fenceUnit u s) := by
  unfold fenceUnit
  repeat' with_reducible first
    | assumption | refine setEvt_keeps (p := 0) (hw₀.sub rfl) (hw₀.sub rfl) _ _ (by with_unfolding_all rfl) reg_pendFld0 ?_
    | refine setF_keeps (hw₀.sub rfl) _ _ _ reg_TUNIT_STAT_FENCED ?_
    | refine setF_keeps (hw₀.sub rfl) _ _ _ reg_TUNIT_STAT_LEND ?_ | apply failAdopted_keeps (hw₀.sub rfl)
    | apply withdrawWide_keeps (hw₀.sub rfl) | apply modCluster_keeps (hw₀.sub rfl) | apply placeFences_keeps (hw₀.sub rfl)
    | refine setF_keeps (hw₀.sub rfl) _ _ _ reg_TUNIT_STAT_BUSY ?_ | split

theorem moveWork_keeps (hw₀ : Has 0x1e9000000000c000 w₀) (cl f a : Nat) {s : State} (h₀ : Keeps w₀ s₀ s) :
    Keeps w₀ s₀ (moveWork cl f a s) := by
  unfold moveWork
  repeat' with_reducible first
    | assumption | apply putUnit_keeps (hw₀.sub rfl)
    | refine setF_keeps (hw₀.sub rfl) _ _ _ reg_TUNIT_STAT_ADOPTING ?_
    | refine setF_keeps (hw₀.sub rfl) _ _ _ reg_TUNIT_STAT_ADOPTED_FROM ?_ | apply modCluster_keeps (hw₀.sub rfl)
    | apply freeBank_keeps (hw₀.sub rfl) | split | dsimp -proj only

theorem adoptCopyDone_keeps (hw₀ : Has 0x2000001800302011e9008000030c000 w₀) (cl : Nat) (ok : Bool) {s : State}
    (h₀ : Keeps w₀ s₀ s) :
    Keeps w₀ s₀ (adoptCopyDone cl ok s) := by
  unfold adoptCopyDone
  try dsimp -proj only
  repeat' with_reducible first
    | assumption | apply modCluster_keeps (hw₀.sub rfl) | apply placeFences_keeps (hw₀.sub rfl)
    | apply moveWork_keeps (hw₀.sub rfl) | apply adoptFail_keeps (hw₀.sub rfl) | split

theorem execAdoptCopyDone_keeps (hw₀ : Has 0x2000001800302011e9008000030c000 w₀) (cl : Nat) (ok : Bool) {s : State}
    (h₀ : Keeps w₀ s₀ s) :
    ∀ t₁, execAdoptCopyDone cl ok s = .next t₁ → Keeps w₀ s₀ t₁ := by
  unfold execAdoptCopyDone
  intro t₁ ht
  cases ht
  repeat' with_reducible first
    | assumption | apply runningIn_keeps | apply adoptCopyDone_keeps (hw₀.sub rfl)

theorem adoptionBufferEnter_keeps (hw₀ : Has 0x189000000000c000 w₀) (cl : Nat) {s : State} (h₀ : Keeps w₀ s₀ s) :
    Keeps w₀ s₀ (adoptionBufferEnter cl s) := by
  unfold adoptionBufferEnter
  try dsimp -proj only
  repeat' with_reducible first
    | assumption | apply modUnit_keeps (hw₀.sub rfl) | apply modCluster_keeps (hw₀.sub rfl) | split

theorem execAdoptionBufferEnter_keeps (hw₀ : Has 0x189000000000c000 w₀) (cl : Nat) {s : State} (h₀ : Keeps w₀ s₀ s) :
    ∀ t₁, execAdoptionBufferEnter cl s = .next t₁ → Keeps w₀ s₀ t₁ := by
  unfold execAdoptionBufferEnter
  intro t₁ ht
  cases ht
  repeat' with_reducible first
    | assumption | apply runningIn_keeps | apply adoptionBufferEnter_keeps (hw₀.sub rfl)

theorem forceFence_keeps
    (hw₀ : Has 0x1000200040110000080100000400000200000000400000800000040000000100000000000002000000100080200000000020000000012000001801302011fd408000031c000 w₀)
    (r : Requester) (a v : Nat) {s : State} (h₀ : Keeps w₀ s₀ s) :
    Keeps w₀ s₀ (forceFence r a v s) := by
  unfold forceFence
  repeat' with_reducible first
    | assumption | intro _ | apply guarded_keeps (hw₀.sub rfl) | apply fenceUnit_keeps (hw₀.sub rfl)
    | refine setF_keeps (hw₀.sub rfl) _ _ _ reg_TUNIT_CTRL_FORCE_FENCE ?_ | split

theorem execForceFence_keeps
    (hw₀ : Has 0x1000200040110000080100000400000200000000400000800000040000000100000000000002000000100080200000000020000000012000001801302011fd408000031c000 w₀)
    (r : Requester) (a v : Nat) {s : State} (h₀ : Keeps w₀ s₀ s) :
    ∀ t₁, execForceFence r a v s = .next t₁ → Keeps w₀ s₀ t₁ := by
  unfold execForceFence
  intro t₁ ht
  cases ht
  repeat' with_reducible first
    | assumption | apply forceFence_keeps (hw₀.sub rfl)

theorem resumeUnit_keeps (hw₀ : Has 0x1e9000000020c000 w₀) (u : Nat) {s : State} (h₀ : Keeps w₀ s₀ s) :
    Keeps w₀ s₀ (resumeUnit u s) := by
  unfold resumeUnit
  repeat' with_reducible first
    | assumption | apply putUnit_keeps (hw₀.sub rfl) | apply passDone_keeps (hw₀.sub rfl)
    | apply freeBank_keeps (hw₀.sub rfl) | split | dsimp -proj only

theorem resume_keeps
    (hw₀ : Has 0x1000200040110000080100000400000200000000400000800000040000000100000000000002000000100080200000000020000000010000000001000001e9000000020c000 w₀)
    (r : Requester) (a v : Nat) {s : State} (h₀ : Keeps w₀ s₀ s) :
    Keeps w₀ s₀ (resume r a v s) := by
  unfold resume
  repeat' with_reducible first
    | assumption | intro _ | apply guarded_keeps (hw₀.sub rfl) | apply resumeUnit_keeps (hw₀.sub rfl) | split

theorem execResume_keeps
    (hw₀ : Has 0x1000200040110000080100000400000200000000400000800000040000000100000000000002000000100080200000000020000000010000000001000001e9000000020c000 w₀)
    (r : Requester) (a v : Nat) {s : State} (h₀ : Keeps w₀ s₀ s) :
    ∀ t₁, execResume r a v s = .next t₁ → Keeps w₀ s₀ t₁ := by
  unfold execResume
  intro t₁ ht
  cases ht
  repeat' with_reducible first
    | assumption | apply resume_keeps (hw₀.sub rfl)

theorem tallyAdd_keeps (hw₀ : Has 0x4000 w₀) (cl c cls n : Nat) {s : State} (h₀ : Keeps w₀ s₀ s) :
    Keeps w₀ s₀ (tallyAdd cl c cls n s) := by
  unfold tallyAdd
  repeat' with_reducible first
    | assumption | apply modCluster_keeps (hw₀.sub rfl)

theorem chunkPassEnd_keeps (hw₀ : Has 0x189000000000c000 w₀) (u : Nat) {s : State} (h₀ : Keeps w₀ s₀ s) :
    Keeps w₀ s₀ (chunkPassEnd u s) := by
  unfold chunkPassEnd
  repeat' with_reducible first
    | assumption | apply keeps_ite | apply tallyAdd_keeps (hw₀.sub rfl) | apply modUnit_keeps (hw₀.sub rfl) | split

theorem execChunkPassEnd_keeps (hw₀ : Has 0x189000000000c000 w₀) (u : Nat) {s : State} (h₀ : Keeps w₀ s₀ s) :
    ∀ t₁, execChunkPassEnd u s = .next t₁ → Keeps w₀ s₀ t₁ := by
  unfold execChunkPassEnd
  intro t₁ ht
  cases ht
  repeat' with_reducible first
    | assumption | apply runningIn_keeps | apply chunkPassEnd_keeps (hw₀.sub rfl)

theorem unitEcc_keeps (hw₀ : Has 0x200400000080000000000 w₀) (u n : Nat) {s : State} (h₀ : Keeps w₀ s₀ s) :
    Keeps w₀ s₀ (unitEcc u n s) := by
  unfold unitEcc
  repeat' with_reducible first
    | assumption | refine setEvt_keeps (p := 0) (hw₀.sub rfl) (hw₀.sub rfl) _ _ (by with_unfolding_all rfl) reg_pendFld0 ?_
    | refine addF_keeps (hw₀.sub rfl) _ _ _ reg_TUNIT_ECC_CORR_CNT ?_ | split

theorem writeTile_keeps (hw₀ : Has 0x10 w₀) (cl : Nat) (d : List Byte) (t : Nat) (w : List Nat) (x1 : Nat) {x2 : State}
    (h₀ : Keeps w₀ s₀ x2) :
    Keeps w₀ s₀ (writeTile cl d t w x1 x2) := by
  revert h₀
  fun_induction writeTile cl d t w x1 x2 <;> intro h₀
  all_goals repeat' with_reducible first
    | apply sramWrite_keeps (hw₀.sub rfl) | apply_assumption -exfalso

theorem noteMissRow_keeps (hw₀ : Has 0x1c000000000000000000 w₀) (u row tile rep : Nat) {s : State} (h₀ : Keeps w₀ s₀ s) :
    Keeps w₀ s₀ (noteMissRow u row tile rep s) := by
  unfold noteMissRow
  repeat' with_reducible first
    | assumption | refine setF_keeps (hw₀.sub rfl) _ _ _ reg_TUNIT_MISS_INFO_ROW ?_
    | refine setF_keeps (hw₀.sub rfl) _ _ _ reg_TUNIT_MISS_INFO_TILE ?_
    | refine setF_keeps (hw₀.sub rfl) _ _ _ reg_TUNIT_MISS_INFO_REPEAT ?_

theorem firstMissed_keeps (hw₀ : Has 0x21c021890080000008000 w₀) (u row tile : Nat) {s : State} (h₀ : Keeps w₀ s₀ s) :
    Keeps w₀ s₀ (firstMissed u row tile s) := by
  unfold firstMissed
  repeat' with_reducible first
    | assumption | refine setEvt_keeps (p := 0) (hw₀.sub rfl) (hw₀.sub rfl) _ _ (by with_unfolding_all rfl) reg_pendFld0 ?_
    | refine incr_keeps (hw₀.sub rfl) _ _ reg_TUNIT_CHK_MISS ?_ | apply noteMissRow_keeps (hw₀.sub rfl)
    | apply modUnit_keeps (hw₀.sub rfl)

theorem secondMissed_keeps (hw₀ : Has 0x200000180031e01ffd008000031c000 w₀) (u row tile : Nat) {s : State}
    (h₀ : Keeps w₀ s₀ s) :
    Keeps w₀ s₀ (secondMissed u row tile s) := by
  unfold secondMissed
  repeat' with_reducible first
    | assumption | apply fenceUnit_keeps (hw₀.sub rfl) | apply unitErr_keeps (hw₀.sub rfl)
    | apply noteMissRow_keeps (hw₀.sub rfl)

theorem acceptCounts_keeps (hw₀ : Has 0xe0040000000000000000 w₀) (u : Nat) (t : TileRun) {s : State} (h₀ : Keeps w₀ s₀ s) :
    Keeps w₀ s₀ (acceptCounts u t s) := by
  unfold acceptCounts
  repeat' with_reducible first
    | assumption | refine incr_keeps (hw₀.sub rfl) _ _ reg_TUNIT_CHK_REPEAT_OK ?_
    | refine addF_keeps (hw₀.sub rfl) _ _ _ reg_TUNIT_A20_OVF ?_
    | refine addF_keeps (hw₀.sub rfl) _ _ _ reg_TUNIT_ACC_REPEAT ?_
    | refine incr_keeps (hw₀.sub rfl) _ _ reg_TUNIT_CHUNK4_TILES ?_ | split

theorem enterTile_keeps (hw₀ : Has 0x200001890080000008010 w₀) (u : Nat) (q : QDesc) (t : TileRun) (w col : List Nat) {s : State} (h₀ : Keeps w₀ s₀ s) :
    Keeps w₀ s₀ (enterTile u q t w col s) := by
  unfold enterTile
  repeat' with_reducible first
    | assumption | apply keeps_ite | apply putUnit_keeps (hw₀.sub rfl) | apply writeTile_keeps (hw₀.sub rfl)
    | refine setEvt_keeps (p := 0) (hw₀.sub rfl) (hw₀.sub rfl) _ _ (by with_unfolding_all rfl) reg_pendFld0 ?_

theorem dropAhead_keeps (hw₀ : Has 0x4000 w₀) (u : Nat) (q : QDesc) (n : Nat) {s : State} (h₀ : Keeps w₀ s₀ s) :
    Keeps w₀ s₀ (dropAhead u q n s) := by
  unfold dropAhead
  try dsimp -proj only
  repeat' with_reducible first
    | assumption | apply tallyAdd_keeps (hw₀.sub rfl) | split | dsimp -proj only

theorem goAhead_keeps (hw₀ : Has 0x189000000000c000 w₀) (u : Nat) (x1 : Nat) {x2 : State} (h₀ : Keeps w₀ s₀ x2) :
    Keeps w₀ s₀ (goAhead u x1 x2) := by
  revert h₀
  fun_induction goAhead u x1 x2 <;> intro h₀
  all_goals repeat' with_reducible first
    | apply keeps_ite | apply chunkPassEnd_keeps (hw₀.sub rfl) | apply_assumption -exfalso | split

theorem checkTile_keeps (hw₀ : Has 0x20000018003fe07ffd008000031c010 w₀) (u : Nat) (q : QDesc) (w col : List Nat) (ahead : Nat) {s : State} (h₀ : Keeps w₀ s₀ s) :
    Keeps w₀ s₀ (checkTile u q w col ahead s) := by
  unfold checkTile
  try dsimp -proj only
  repeat' with_reducible first
    | assumption | apply tallyAdd_keeps (hw₀.sub rfl) | apply secondMissed_keeps (hw₀.sub rfl)
    | apply firstMissed_keeps (hw₀.sub rfl) | apply enterTile_keeps (hw₀.sub rfl)
    | apply acceptCounts_keeps (hw₀.sub rfl) | apply dropAhead_keeps (hw₀.sub rfl) | apply goAhead_keeps (hw₀.sub rfl)
    | split | dsimp -proj only

theorem tileEnd_keeps (hw₀ : Has 0x20000018003fe67ffd008000031c010 w₀) (u corr : Nat) (unc : Bool) (fl : Flips) (stall ahead : Nat) {s : State} (h₀ : Keeps w₀ s₀ s) :
    Keeps w₀ s₀ (tileEnd u corr unc fl stall ahead s) := by
  unfold tileEnd
  repeat' with_reducible first
    | assumption | apply keeps_ite | apply unitEcc_keeps (hw₀.sub rfl) | apply fenceUnit_keeps (hw₀.sub rfl)
    | refine setEvt_keeps (p := 0) (hw₀.sub rfl) (hw₀.sub rfl) _ _ (by with_unfolding_all rfl) reg_pendFld0 ?_
    | apply unitErr_keeps (hw₀.sub rfl) | refine addF_keeps (hw₀.sub rfl) _ _ _ reg_TUNIT_FEED_STALL ?_
    | apply checkTile_keeps (hw₀.sub rfl) | split

theorem execTileEnd_keeps (hw₀ : Has 0x20000018003fe67ffd008000031c010 w₀) (u corr : Nat) (unc : Bool) (fl : Flips) (stall : TileTime) {s : State} (h₀ : Keeps w₀ s₀ s) :
    ∀ t₁, execTileEnd u corr unc fl stall s = .next t₁ → Keeps w₀ s₀ t₁ := by
  unfold execTileEnd
  intro t₁ ht
  cases ht
  repeat' with_reducible first
    | assumption | apply runningIn_keeps | apply tileEnd_keeps (hw₀.sub rfl)

theorem writeWide_keeps (hw₀ : Has 0x10 w₀) (cl : Nat) (d : List Byte) (t : Nat) (v : List Int) (x1 : Nat) {x2 : State}
    (h₀ : Keeps w₀ s₀ x2) :
    Keeps w₀ s₀ (writeWide cl d t v x1 x2) := by
  revert h₀
  fun_induction writeWide cl d t v x1 x2 <;> intro h₀
  all_goals repeat' with_reducible first
    | apply sramWrite_keeps (hw₀.sub rfl) | apply_assumption -exfalso

theorem wideTiles_keeps (hw₀ : Has 0x1890000000008010 w₀) (u : Nat) (d : List Byte) (x1 : Nat) {x2 : State}
    (h₀ : Keeps w₀ s₀ x2) :
    Keeps w₀ s₀ (wideTiles u d x1 x2).2 := by
  revert h₀
  fun_induction wideTiles u d x1 x2 <;> intro h₀
  all_goals repeat' with_reducible first
    | apply putUnit_keeps (hw₀.sub rfl) | apply writeWide_keeps (hw₀.sub rfl) | apply_assumption -exfalso | split
    | dsimp -proj only

theorem wideComplete_keeps (hw₀ : Has 0x40001980000000000000000000000000000000000020219189008000001d810 w₀) (u : Nat)
    (q : QDesc) {s : State} (h₀ : Keeps w₀ s₀ s) :
    Keeps w₀ s₀ (wideComplete u q s) := by
  unfold wideComplete
  repeat' with_reducible first
    | assumption | apply keeps_ite | apply tallyAdd_keeps (hw₀.sub rfl) | apply wideTiles_keeps (hw₀.sub rfl)
    | refine setEvt_keeps (p := 0) (hw₀.sub rfl) (hw₀.sub rfl) _ _ (by with_unfolding_all rfl) reg_pendFld0 ?_
    | refine addF_keeps (hw₀.sub rfl) _ _ _ reg_TUNIT_BX_SAT_CNT ?_ | apply modSeq_keeps (hw₀.sub rfl)
    | refine incr_keeps (hw₀.sub rfl) _ _ reg_TUNIT_DESC_DONE ?_
    | refine incr_keeps (hw₀.sub rfl) _ _ reg_TUNIT_WIDE_DESC ?_
    | refine setF_keeps (hw₀.sub rfl) _ _ _ reg_TUNIT_LAST_STAT ?_ | apply modUnit_keeps (hw₀.sub rfl)
    | apply signalFlag_keeps (hw₀.sub rfl)

theorem floatComplete_keeps (hw₀ : Has 0x400019800000000000000000000000002000001000102811e9008000030d800 w₀) (u : Nat)
    (q : QDesc) {s : State} (h₀ : Keeps w₀ s₀ s) :
    Keeps w₀ s₀ (floatComplete u q s) := by
  unfold floatComplete
  repeat' with_reducible first
    | assumption | refine incr_keeps (hw₀.sub rfl) _ _ reg_TUNIT_ADOPT_CNT ?_
    | refine incr_keeps (hw₀.sub rfl) _ _ reg_TUNIT_DESC_DONE ?_
    | refine setF_keeps (hw₀.sub rfl) _ _ _ reg_TUNIT_LAST_STAT ?_ | apply modUnit_keeps (hw₀.sub rfl)
    | apply signalFlag_keeps (hw₀.sub rfl) | apply freeBank_keeps (hw₀.sub rfl) | apply settleDesc_keeps (hw₀.sub rfl)
    | split | dsimp -proj only

theorem descComplete_keeps (hw₀ : Has 0x400019800000000000000000000000002000001000302991e9008000031d810 w₀) (u : Nat)
    {s : State} (h₀ : Keeps w₀ s₀ s) :
    Keeps w₀ s₀ (descComplete u s) := by
  unfold descComplete
  repeat' with_reducible first
    | assumption | apply wideComplete_keeps (hw₀.sub rfl) | apply floatComplete_keeps (hw₀.sub rfl) | split

theorem execDescComplete_keeps (hw₀ : Has 0x400019800000000000000000000000002000001000302991e9008000031d810 w₀) (u : Nat)
    {s : State} (h₀ : Keeps w₀ s₀ s) :
    ∀ t₁, execDescComplete u s = .next t₁ → Keeps w₀ s₀ t₁ := by
  unfold execDescComplete
  intro t₁ ht
  cases ht
  repeat' with_reducible first
    | assumption | apply runningIn_keeps | apply descComplete_keeps (hw₀.sub rfl)

theorem reductionFold_keeps (hw₀ : Has 0x4010 w₀) (cl dst part n i : Nat) (last : Bool) {s : State} (h₀ : Keeps w₀ s₀ s) :
    Keeps w₀ s₀ (reductionFold cl dst part n i last s) := by
  unfold reductionFold
  repeat' with_reducible first
    | assumption | apply modCluster_keeps (hw₀.sub rfl) | apply sramWrite_keeps (hw₀.sub rfl) | split

theorem execReductionFold_keeps (hw₀ : Has 0x4010 w₀) (cl dst part n k : Nat) (last : Bool) {s : State}
    (h₀ : Keeps w₀ s₀ s) :
    ∀ t₁, execReductionFold cl dst part n k last s = .next t₁ → Keeps w₀ s₀ t₁ := by
  unfold execReductionFold
  intro t₁ ht
  cases ht
  repeat' with_reducible first
    | assumption | apply runningIn_keeps | apply reductionFold_keeps (hw₀.sub rfl)

end Sys2Proof.Machine
end

