-- ==== Sys2Proof/Laws/KeepsConvert.lean ====
section
/-! SUPPORT. What the functions of Machine/Convert.lean may change. -/

namespace Sys2Proof.Machine

set_option exponentiation.threshold 600

variable {w₀ : Nat} {s₀ : State}

theorem cvtHalt_keeps (hw₀ : Has 0x2000100000000000000080000004000 w₀) (cl lid code : Nat) {s : State}
    (h₀ : Keeps w₀ s₀ s) :
    Keeps w₀ s₀ (cvtHalt cl lid code s) := by
  unfold cvtHalt
  repeat' with_reducible first
    | assumption | apply haltList_keeps (hw₀.sub rfl)
    | refine setEvt_keeps (p := 1) (hw₀.sub rfl) (hw₀.sub rfl) _ _ (by with_unfolding_all rfl) reg_pendFld1 ?_
    | refine setF_keeps (hw₀.sub rfl) _ _ _ reg_CLUSTER_CVT_ERR_CODE ?_

theorem tilePut_keeps (hw₀ : Has 0x10 w₀) (cl base stride n tr tc : Nat) (ws : List Nat) (x1 : Nat) {x2 : State}
    (h₀ : Keeps w₀ s₀ x2) :
    Keeps w₀ s₀ (tilePut cl base stride n tr tc ws x1 x2) := by
  revert h₀
  fun_induction tilePut cl base stride n tr tc ws x1 x2 <;> intro h₀
  all_goals repeat' with_reducible first
    | apply sramWrite_keeps (hw₀.sub rfl) | apply_assumption -exfalso

theorem scaleDiverge_keeps (hw₀ : Has 0x2000001200000000000080000000000 w₀) (cl : Nat) {s : State} (h₀ : Keeps w₀ s₀ s) :
    Keeps w₀ s₀ (scaleDiverge cl s) := by
  unfold scaleDiverge
  repeat' with_reducible first
    | assumption | apply replayDiv_keeps (hw₀.sub rfl) | refine incr_keeps (hw₀.sub rfl) _ _ reg_CLUSTER_SCALE_DIVERGE ?_

theorem tileExp_keeps (hw₀ : Has 0x2000001204000000000080000100000 w₀) (cl : Nat) (l : ListRun) (d : List Byte) (t : Nat)
    (top : Option Int) {s : State} (h₀ : Keeps w₀ s₀ s) :
    Keeps w₀ s₀ (tileExp cl l d t top s).2 := by
  unfold tileExp
  repeat' with_reducible first
    | assumption | dsimp only | apply scaleDiverge_keeps (hw₀.sub rfl)
    | refine setEvt_keeps (p := 1) (hw₀.sub rfl) (hw₀.sub rfl) _ _ (by with_unfolding_all rfl) reg_pendFld1 ?_
    | refine incr_keeps (hw₀.sub rfl) _ _ reg_CLUSTER_SCALE_RECOMP ?_ | apply jrnCtx_keeps (hw₀.sub rfl) | split

theorem cvtTile_keeps (hw₀ : Has 0x2000001206000000000080000100010 w₀) (cl : Nat) (l : ListRun) (d : List Byte) (t : Nat)
    {s : State} (h₀ : Keeps w₀ s₀ s) :
    Keeps w₀ s₀ (cvtTile cl l d t s) := by
  unfold cvtTile
  try dsimp -proj only
  repeat' with_reducible first
    | assumption | apply tilePut_keeps (hw₀.sub rfl) | apply sramWrite_keeps (hw₀.sub rfl)
    | apply tileExp_keeps (hw₀.sub rfl) | refine incr_keeps (hw₀.sub rfl) _ _ reg_CLUSTER_CVT_TILES ?_ | split

theorem cvtTiles_keeps (hw₀ : Has 0x2000001206000000000080000100010 w₀) (cl : Nat) (l : ListRun) (d : List Byte)
    (x1 : Nat) {x2 : State} (h₀ : Keeps w₀ s₀ x2) :
    Keeps w₀ s₀ (cvtTiles cl l d x1 x2) := by
  revert h₀
  fun_induction cvtTiles cl l d x1 x2 <;> intro h₀
  all_goals repeat' with_reducible first
    | apply cvtTile_keeps (hw₀.sub rfl) | apply_assumption -exfalso

theorem convert_keeps (hw₀ : Has 0x400019800000000000000000000000002000001206000000000080000101810 w₀) (cl : Nat)
    (l : ListRun) (d : List Byte) {s : State} (h₀ : Keeps w₀ s₀ s) :
    Keeps w₀ s₀ (convert cl l d s) := by
  unfold convert
  repeat' with_reducible first
    | assumption | apply sramWrite_keeps (hw₀.sub rfl) | apply cvtTiles_keeps (hw₀.sub rfl)
    | apply signalFlag_keeps (hw₀.sub rfl) | split

theorem conversionDescriptor_keeps (hw₀ : Has 0x400019800000000000000000000000002000101206000000000080000305810 w₀)
    (cl lid : Nat) {s : State} (h₀ : Keeps w₀ s₀ s) :
    Keeps w₀ s₀ (conversionDescriptor cl lid s) := by
  unfold conversionDescriptor
  repeat' with_reducible first
    | assumption | apply cvtHalt_keeps (hw₀.sub rfl) | apply descTaken_keeps (hw₀.sub rfl)
    | apply convert_keeps (hw₀.sub rfl) | split

theorem execConversionDescriptor_keeps (hw₀ : Has 0x400019800000000000000000000000002000101206000000000080000305810 w₀)
    (cl lid : Nat) {s : State} (h₀ : Keeps w₀ s₀ s) :
    ∀ t₁, execConversionDescriptor cl lid s = .next t₁ → Keeps w₀ s₀ t₁ := by
  unfold execConversionDescriptor
  intro t₁ ht
  cases ht
  repeat' with_reducible first
    | assumption | apply runningIn_keeps | apply conversionDescriptor_keeps (hw₀.sub rfl)

theorem startRung_keeps (hw₀ : Has 0x4000 w₀) (cl lid : Nat) (g : Grp) (r : Nat) {s : State} (h₀ : Keeps w₀ s₀ s) :
    Keeps w₀ s₀ (startRung cl lid g r s) := by
  unfold startRung
  repeat' with_reducible first
    | assumption | apply modList_keeps (hw₀.sub rfl)

theorem openGroup_keeps (hw₀ : Has 0x2000001000000000000080000004000 w₀) (cl lid : Nat) (l : ListRun) (d : List Byte)
    {s : State} (h₀ : Keeps w₀ s₀ s) :
    Keeps w₀ s₀ (openGroup cl lid l d s) := by
  unfold openGroup
  try dsimp -proj only
  repeat' with_reducible first
    | assumption | apply modCluster_keeps (hw₀.sub rfl) | apply modList_keeps (hw₀.sub rfl)
    | apply replayDiv_keeps (hw₀.sub rfl) | apply startRung_keeps (hw₀.sub rfl) | split

theorem groupOpen_keeps (hw₀ : Has 0x2000101000000000000080000004000 w₀) (cl lid : Nat) {s : State} (h₀ : Keeps w₀ s₀ s) :
    Keeps w₀ s₀ (groupOpen cl lid s) := by
  unfold groupOpen
  repeat' with_reducible first
    | assumption | apply cvtHalt_keeps (hw₀.sub rfl) | apply openGroup_keeps (hw₀.sub rfl) | split

theorem execGroup_keeps (hw₀ : Has 0x2000101000000000000080000004000 w₀) (cl lid : Nat) {s : State} (h₀ : Keeps w₀ s₀ s) :
    ∀ t₁, execGroup cl lid s = .next t₁ → Keeps w₀ s₀ t₁ := by
  unfold execGroup
  intro t₁ ht
  cases ht
  repeat' with_reducible first
    | assumption | apply runningIn_keeps | apply groupOpen_keeps (hw₀.sub rfl)

theorem grpForget_keeps (hw₀ : Has 0x4000 w₀) (c step group : Nat) (x1 : List Nat) {x2 : State} (h₀ : Keeps w₀ s₀ x2) :
    Keeps w₀ s₀ (grpForget c step group x1 x2) := by
  revert h₀
  fun_induction grpForget c step group x1 x2 <;> intro h₀
  all_goals repeat' with_reducible first
    | apply modCluster_keeps (hw₀.sub rfl) | apply_assumption -exfalso

theorem leftRung0_keeps (hw₀ : Has 0x20000e0008000000000080000100000 w₀) (cl c : Nat) (g : Grp) (exh : Bool) {s : State}
    (h₀ : Keeps w₀ s₀ s) :
    Keeps w₀ s₀ (leftRung0 cl c g exh s) := by
  unfold leftRung0
  repeat' with_reducible first
    | assumption | apply keeps_ite | refine setF_keeps (hw₀.sub rfl) _ _ _ reg_CLUSTER_SPILL_LAST_GROUP ?_
    | refine setF_keeps (hw₀.sub rfl) _ _ _ reg_CLUSTER_SPILL_LAST_RUNG ?_
    | refine setF_keeps (hw₀.sub rfl) _ _ _ reg_CLUSTER_SPILL_LAST_EXH ?_
    | refine setEvt_keeps (p := 1) (hw₀.sub rfl) (hw₀.sub rfl) _ _ (by with_unfolding_all rfl) reg_pendFld1 ?_
    | refine incr_keeps (hw₀.sub rfl) _ _ reg_CLUSTER_SPILL_GROUPS ?_ | apply jrnCtx_keeps (hw₀.sub rfl)

theorem closeGroup_keeps (hw₀ : Has 0x20000e1018100000000080000304000 w₀) (cl : Nat) (l : ListRun) (g : Grp) (exh : Bool)
    {s : State} (h₀ : Keeps w₀ s₀ s) :
    Keeps w₀ s₀ (closeGroup cl l g exh s) := by
  unfold closeGroup
  repeat' with_reducible first
    | assumption | refine setEvt_keeps (p := 1) (hw₀.sub rfl) (hw₀.sub rfl) _ _ (by with_unfolding_all rfl) reg_pendFld1 ?_
    | refine incr_keeps (hw₀.sub rfl) _ _ reg_CLUSTER_SPILL_EXH ?_ | apply settleOuts_keeps (hw₀.sub rfl)
    | apply leftRung0_keeps (hw₀.sub rfl) | apply modCluster_keeps (hw₀.sub rfl) | apply grpForget_keeps (hw₀.sub rfl)
    | apply endList_keeps (hw₀.sub rfl) | apply modList_keeps (hw₀.sub rfl) | split

theorem groupRelease_keeps (hw₀ : Has 0x20000e1018100000000080000304000 w₀) (cl : Nat) (l : ListRun) (g : Grp)
    (marked : Bool) {s : State} (h₀ : Keeps w₀ s₀ s) :
    Keeps w₀ s₀ (groupRelease cl l g marked s) := by
  unfold groupRelease
  repeat' with_reducible first
    | assumption | apply keeps_ite | apply closeGroup_keeps (hw₀.sub rfl) | apply replayDiv_keeps (hw₀.sub rfl)
    | apply startRung_keeps (hw₀.sub rfl)

theorem clusterRelease_keeps (hw₀ : Has 0x4000006000000000000000000000000020000e1018100000000080000304000 w₀)
    (cl lid : Nat) (st : RelStatus) {s : State} (h₀ : Keeps w₀ s₀ s) :
    Keeps w₀ s₀ (clusterRelease cl lid st s) := by
  unfold clusterRelease
  repeat' with_reducible first
    | assumption | apply syncHalt_keeps (hw₀.sub rfl) | apply haltList_keeps (hw₀.sub rfl)
    | apply groupRelease_keeps (hw₀.sub rfl) | apply endList_keeps (hw₀.sub rfl) | apply modList_keeps (hw₀.sub rfl) | split

end Sys2Proof.Machine
end

