-- ==== Sys2Proof/Laws/KeepsStash.lean ====
section
/-! SUPPORT. What the functions of Machine/Stash.lean may change. -/

namespace Sys2Proof.Machine

set_option exponentiation.threshold 600

variable {w₀ : Nat} {s₀ : State}

theorem stashErr_keeps (hw₀ : Has 0x600000000000000000000000000000 w₀) (cl code cht : Nat) {s : State}
    (h₀ : Keeps w₀ s₀ s) :
    Keeps w₀ s₀ (stashErr cl code cht s) := by
  unfold stashErr
  repeat' with_reducible first
    | assumption | refine setF_keeps (hw₀.sub rfl) _ _ _ reg_CLUSTER_STASH_ERR_CODE ?_
    | refine setF_keeps (hw₀.sub rfl) _ _ _ reg_CLUSTER_STASH_ERR_CHT ?_ | split

theorem stashHalt_keeps (hw₀ : Has 0x2600000000000000000080000004000 w₀) (cl lid code : Nat) {s : State}
    (h₀ : Keeps w₀ s₀ s) :
    Keeps w₀ s₀ (stashHalt cl lid code s) := by
  unfold stashHalt
  repeat' with_reducible first
    | assumption | apply haltList_keeps (hw₀.sub rfl)
    | refine setEvt_keeps (p := 1) (hw₀.sub rfl) (hw₀.sub rfl) _ _ (by with_unfolding_all rfl) reg_pendFld1 ?_
    | apply stashErr_keeps (hw₀.sub rfl)

theorem writeRaws_keeps (hw₀ : Has 0x4004000000000000000000000000000000000008000000000c w₀) (die base : Nat) (x1 : List
    (Chan × Nat × List Nat)) {x2 : State} (h₀ : Keeps w₀ s₀ x2) :
    Keeps w₀ s₀ (writeRaws die base x1 x2) := by
  revert h₀
  fun_induction writeRaws die base x1 x2 <;> intro h₀
  all_goals repeat' with_reducible first
    | apply memStore_keeps (hw₀.sub rfl) | apply_assumption -exfalso | split

theorem writeCodes_keeps (hw₀ : Has 0x4004000000000000000000000000000000000008000000000c w₀) (die base cpad c0 : Nat)
    (cs : List Chan) (x1 : Nat) {x2 : State} (h₀ : Keeps w₀ s₀ x2) :
    Keeps w₀ s₀ (writeCodes die base cpad c0 cs x1 x2) := by
  revert h₀
  fun_induction writeCodes die base cpad c0 cs x1 x2 <;> intro h₀
  all_goals repeat' with_reducible first
    | apply memStore_keeps (hw₀.sub rfl) | apply_assumption -exfalso

theorem writeChunk_keeps (hw₀ : Has 0x4004000000000000000000000000000000000008000000000c w₀) (die base cpad c0 : Nat)
    (cs : List (Chan × Nat)) {s : State} (h₀ : Keeps w₀ s₀ s) :
    Keeps w₀ s₀ (writeChunk die base cpad c0 cs s) := by
  unfold writeChunk
  repeat' with_reducible first
    | assumption | apply memStore_keeps (hw₀.sub rfl) | apply writeCodes_keeps (hw₀.sub rfl)

theorem countStash_keeps (hw₀ : Has 0x20f8000000000000000080000000000 w₀) (cl : Nat) (cs : List (Chan × Nat)) {s : State}
    (h₀ : Keeps w₀ s₀ s) :
    Keeps w₀ s₀ (countStash cl cs s) := by
  unfold countStash
  repeat' with_reducible first
    | assumption | apply keeps_ite | refine addF_keeps (hw₀.sub rfl) _ _ _ reg_CLUSTER_STASH_CHAN ?_
    | refine addF_keeps (hw₀.sub rfl) _ _ _ reg_CLUSTER_STASH_CONST ?_
    | refine addF_keeps (hw₀.sub rfl) _ _ _ reg_CLUSTER_STASH_RAW ?_
    | refine addF_keeps (hw₀.sub rfl) _ _ _ reg_CLUSTER_STASH_LOST ?_
    | refine addF_keeps (hw₀.sub rfl) _ _ _ reg_CLUSTER_STASH_ESC ?_
    | refine setEvt_keeps (p := 1) (hw₀.sub rfl) (hw₀.sub rfl) _ _ (by with_unfolding_all rfl) reg_pendFld1 ?_

theorem stashStatus_keeps (hw₀ : Has 0x4000 w₀) (cl st : Nat) {s : State} (h₀ : Keeps w₀ s₀ s) :
    Keeps w₀ s₀ (stashStatus cl st s) := by
  unfold stashStatus
  try dsimp -proj only
  repeat' with_reducible first
    | assumption | apply modCluster_keeps (hw₀.sub rfl) | split | dsimp -proj only

theorem stashEncode_keeps (hw₀ : Has 0x400400000000000000020f800000000000000008000000400c w₀) (cl : Nat) (d : List Byte)
    {s : State} (h₀ : Keeps w₀ s₀ s) :
    Keeps w₀ s₀ (stashEncode cl d s) := by
  unfold stashEncode
  repeat' with_reducible first
    | assumption | apply writeChunk_keeps (hw₀.sub rfl) | apply countStash_keeps (hw₀.sub rfl)
    | apply writeRaws_keeps (hw₀.sub rfl) | apply stashStatus_keeps (hw₀.sub rfl) | split | dsimp -proj only

theorem readAll_keeps (hw₀ : Has 0x4c048fc4000000000000000000000000000000080000800100 w₀) (die : Nat) (x1 : List
    (Nat × Nat)) {x2 : State} (h₀ : Keeps w₀ s₀ x2) :
    Keeps w₀ s₀ (readAll die x1 x2).2 := by
  revert h₀
  fun_induction readAll die x1 x2 <;> intro h₀
  all_goals repeat' with_reducible first
    | apply engRead_keeps (hw₀.sub rfl) | apply_assumption -exfalso | refine keeps_snd (by assumption) ?_

theorem writeDec_keeps (hw₀ : Has 0x10 w₀) (cl : Nat) (d : List Byte) (i : Nat) (e : Int) (chans : List (List DecVal)) (x1 : Nat) {x2 : State} (h₀ : Keeps w₀ s₀ x2) :
    Keeps w₀ s₀ (writeDec cl d i e chans x1 x2) := by
  revert h₀
  fun_induction writeDec cl d i e chans x1 x2 <;> intro h₀
  all_goals repeat' with_reducible first
    | apply sramWrite_keeps (hw₀.sub rfl) | apply_assumption -exfalso | split | dsimp -proj only

theorem writeDecExp_keeps (hw₀ : Has 0x10 w₀) (cl : Nat) (d : List Byte) (i : Nat) (e : Int) (x1 : Nat) {x2 : State}
    (h₀ : Keeps w₀ s₀ x2) :
    Keeps w₀ s₀ (writeDecExp cl d i e x1 x2) := by
  revert h₀
  fun_induction writeDecExp cl d i e x1 x2 <;> intro h₀
  all_goals repeat' with_reducible first
    | apply sramWrite_keeps (hw₀.sub rfl) | apply_assumption -exfalso

theorem tileCorrupt_keeps (hw₀ : Has 0x2700000000000000000080000000000 w₀) (cl ct : Nat) {s : State} (h₀ : Keeps w₀ s₀ s) :
    Keeps w₀ s₀ (tileCorrupt cl ct s) := by
  unfold tileCorrupt
  repeat' with_reducible first
    | assumption | apply stashErr_keeps (hw₀.sub rfl)
    | refine setEvt_keeps (p := 1) (hw₀.sub rfl) (hw₀.sub rfl) _ _ (by with_unfolding_all rfl) reg_pendFld1 ?_
    | refine incr_keeps (hw₀.sub rfl) _ _ reg_CLUSTER_STASH_CORRUPT ?_

theorem decTile_keeps (hw₀ : Has 0x4c048fc4000000000002700000000000000000080000800110 w₀) (cl : Nat) (d : List Byte) (i : Nat) {s : State} (h₀ : Keeps w₀ s₀ s) :
    Keeps w₀ s₀ (decTile cl d i s).2 := by
  unfold decTile
  try dsimp -proj only
  repeat' with_reducible first
    | assumption | apply readAll_keeps (hw₀.sub rfl) | apply tileCorrupt_keeps (hw₀.sub rfl)
    | apply writeDecExp_keeps (hw₀.sub rfl) | apply writeDec_keeps (hw₀.sub rfl) | split
    | refine keeps_snd (by assumption) ?_ | dsimp -proj only

theorem decTiles_keeps (hw₀ : Has 0x4c048fc4000000000002700000000000000000080000800110 w₀) (cl : Nat) (d : List Byte) (x1 : Nat) {x2 : State} (h₀ : Keeps w₀ s₀ x2) :
    Keeps w₀ s₀ (decTiles cl d x1 x2).2 := by
  revert h₀
  fun_induction decTiles cl d x1 x2 <;> intro h₀
  all_goals repeat' with_reducible first
    | apply decTile_keeps (hw₀.sub rfl) | apply_assumption -exfalso

theorem stashDecode_keeps (hw₀ : Has 0x4c048fc4000000000002700000000000000000080000804110 w₀) (cl : Nat) (d : List Byte)
    {s : State} (h₀ : Keeps w₀ s₀ s) :
    Keeps w₀ s₀ (stashDecode cl d s) := by
  unfold stashDecode
  repeat' with_reducible first
    | assumption | apply decTiles_keeps (hw₀.sub rfl) | apply sramWrite_keeps (hw₀.sub rfl)
    | apply stashStatus_keeps (hw₀.sub rfl) | split | dsimp -proj only

theorem stashRun_keeps (hw₀ : Has 0x400019800000000000000000000000002600000000000000000080000205800 w₀) (op cl lid : Nat)
    (f : Nat → List Byte → State → State) {s : State} (h₀ : Keeps w₀ s₀ s) (hf₀ : ∀ y0 y1 s, Keeps w₀ s₀ s → Keeps w₀ s₀
    (f y0 y1 s)) :
    Keeps w₀ s₀ (stashRun op cl lid f s) := by
  unfold stashRun
  repeat' with_reducible first
    | assumption | apply stashHalt_keeps (hw₀.sub rfl) | apply descTaken_keeps (hw₀.sub rfl)
    | apply signalFlag_keeps (hw₀.sub rfl) | apply hf₀ | split

theorem execStashEncode_keeps (hw₀ : Has 0x4000198000000400400000000000000026f800000000000000008000020580c w₀)
    (cl lid : Nat) {s : State} (h₀ : Keeps w₀ s₀ s) :
    ∀ t₁, execStashEncode cl lid s = .next t₁ → Keeps w₀ s₀ t₁ := by
  unfold execStashEncode
  intro t₁ ht
  cases ht
  repeat' with_reducible first
    | assumption | apply runningIn_keeps | apply stashRun_keeps (hw₀.sub rfl) | apply stashEncode_keeps (hw₀.sub rfl)

theorem execStashDecode_keeps (hw₀ : Has 0x40001980000004c048fc4000000000002700000000000000000080000a05910 w₀)
    (cl lid : Nat) {s : State} (h₀ : Keeps w₀ s₀ s) :
    ∀ t₁, execStashDecode cl lid s = .next t₁ → Keeps w₀ s₀ t₁ := by
  unfold execStashDecode
  intro t₁ ht
  cases ht
  repeat' with_reducible first
    | assumption | apply runningIn_keeps | apply stashRun_keeps (hw₀.sub rfl) | apply stashDecode_keeps (hw₀.sub rfl)

end Sys2Proof.Machine
end

