-- ==== Sys2Proof/Laws/KeepsBlocks.lean ====
section
/-! SUPPORT. What the functions of Machine/Blocks.lean may change. -/

namespace Sys2Proof.Machine

set_option exponentiation.threshold 600

variable {w₀ : Nat} {s₀ : State}

theorem recPut_keeps (hw₀ : Has 0x4004000000000000000000000000000000000008000000000c w₀) (b : Blk) (o n v : Nat)
    {s : State} (h₀ : Keeps w₀ s₀ s) :
    Keeps w₀ s₀ (recPut b o n v s) := by
  unfold recPut
  repeat' with_reducible first
    | assumption | apply memStore_keeps (hw₀.sub rfl)

theorem loadTiles_keeps (hw₀ : Has 0x4c048fc4000000000000000000000000000000080000800100 w₀) (d cls base tb x1 x2 : Nat)
    {x3 : State} (h₀ : Keeps w₀ s₀ x3) :
    Keeps w₀ s₀ (loadTiles d cls base tb x1 x2 x3).2 := by
  revert h₀
  fun_induction loadTiles d cls base tb x1 x2 x3 <;> intro h₀
  all_goals repeat' with_reducible first
    | apply engRead_keeps (hw₀.sub rfl) | apply_assumption -exfalso | refine keeps_snd (by assumption) ?_

theorem storeTiles_keeps (hw₀ : Has 0x4004000000000000000000000000000000000008000000000c w₀) (d base tb x1 : Nat)
    (x2 : List (List Byte)) {x3 : State} (h₀ : Keeps w₀ s₀ x3) :
    Keeps w₀ s₀ (storeTiles d base tb x1 x2 x3) := by
  revert h₀
  fun_induction storeTiles d base tb x1 x2 x3 <;> intro h₀
  all_goals repeat' with_reducible first
    | apply memStore_keeps (hw₀.sub rfl) | apply_assumption -exfalso

theorem btErr_keeps (hw₀ : Has 0x2006000000000000000080000000000 w₀) (cl code i : Nat) {s : State} (h₀ : Keeps w₀ s₀ s) :
    Keeps w₀ s₀ (btErr cl code i s) := by
  unfold btErr
  repeat' with_reducible first
    | assumption | apply keeps_ite
    | refine setEvt_keeps (p := 1) (hw₀.sub rfl) (hw₀.sub rfl) _ _ (by with_unfolding_all rfl) reg_pendFld1 ?_
    | refine setF_keeps (hw₀.sub rfl) _ _ _ reg_CLUSTER_BT_ERR_CODE ?_
    | refine setF_keeps (hw₀.sub rfl) _ _ _ reg_CLUSTER_BT_ERR_RECORD ?_

theorem readTables_keeps (hw₀ : Has 0x4c048fc4000000000000000000000000000000080000800100 w₀) (x1 : Nat) (x2 : List
    (List Byte)) {x3 : State} (h₀ : Keeps w₀ s₀ x3) :
    Keeps w₀ s₀ (readTables x1 x2 x3).2 := by
  revert h₀
  fun_induction readTables x1 x2 x3 <;> intro h₀
  all_goals repeat' with_reducible first
    | apply engRead_keeps (hw₀.sub rfl) | apply_assumption -exfalso | refine keeps_snd (by assumption) ?_ | split
    | dsimp -proj only

theorem checkTables_keeps (hw₀ : Has 0x2006000000000000000080000000000 w₀) (pos : Nat) (all : Tables) (x1 : Tables) {x2 : State} (h₀ : Keeps w₀ s₀ x2) :
    Keeps w₀ s₀ (checkTables pos all x1 x2).2 := by
  revert h₀
  fun_induction checkTables pos all x1 x2 <;> intro h₀
  all_goals repeat' with_reducible first
    | apply btErr_keeps (hw₀.sub rfl) | apply_assumption -exfalso | split | dsimp -proj only

theorem modStep_keeps (hw₀ : Has 0x100000 w₀) (c n : Nat) (f : Step → Step) {s : State} (h₀ : Keeps w₀ s₀ s) :
    Keeps w₀ s₀ (modStep c n f s) := by
  unfold modStep
  repeat' with_reducible first
    | assumption | apply modCtx_keeps (hw₀.sub rfl)

theorem modBlk_keeps (hw₀ : Has 0x100000 w₀) (c n g : Nat) (f : Blk → Blk) {s : State} (h₀ : Keeps w₀ s₀ s) :
    Keeps w₀ s₀ (modBlk c n g f s) := by
  unfold modBlk
  repeat' with_reducible first
    | assumption | apply modStep_keeps (hw₀.sub rfl)

end Sys2Proof.Machine
end

