-- ==== Sys2Proof/Laws/KeepsColl.lean ====
section
/-! SUPPORT. What the functions of Machine/Coll.lean may change. -/

namespace Sys2Proof.Machine

set_option exponentiation.threshold 600

variable {w₀ : Nat} {s₀ : State}

theorem collHalt_keeps
    (hw₀ : Has 0x8000000c00000000000000000000000000000000000000000000000000000000000000000080000100000 w₀) (c code : Nat)
    {s : State} (h₀ : Keeps w₀ s₀ s) :
    Keeps w₀ s₀ (collHalt c code s) := by
  unfold collHalt
  repeat' with_reducible first
    | assumption | refine setF_keeps (hw₀.sub rfl) _ _ _ reg_COLL_ERR_INFO_CODE ?_
    | refine setF_keeps (hw₀.sub rfl) _ _ _ reg_COLL_ERR_INFO_CONTEXT ?_ | apply modColl_keeps (hw₀.sub rfl)
    | refine setEvt_keeps (p := 8) (hw₀.sub rfl) (hw₀.sub rfl) _ _ (by with_unfolding_all rfl) reg_pendFld8 ?_ | split

theorem readChain_keeps (hw₀ : Has 0x4c048fc4000000000000000000000000000000080000800100 w₀) (step x1 : Nat)
    (x2 : List Nat) (x3 : Nat) {x4 : State} (h₀ : Keeps w₀ s₀ x4) :
    Keeps w₀ s₀ (readChain step x1 x2 x3 x4).2 := by
  revert h₀
  fun_induction readChain step x1 x2 x3 x4 <;> intro h₀
  all_goals repeat' with_reducible first
    | apply engRead_keeps (hw₀.sub rfl) | apply_assumption -exfalso | refine keeps_snd (by assumption) ?_

theorem openChain_keeps
    (hw₀ : Has 0x8000000c0000000000000000000000000004c048fc4000000000000000000000000000000080000900100 w₀)
    (c step a : Nat) {s : State} (h₀ : Keeps w₀ s₀ s) :
    Keeps w₀ s₀ (openChain c step a s) := by
  unfold openChain
  repeat' with_reducible first
    | assumption | apply readChain_keeps (hw₀.sub rfl) | apply collHalt_keeps (hw₀.sub rfl)
    | apply modColl_keeps (hw₀.sub rfl) | split | refine keeps_snd (by assumption) ?_

theorem sendMark_keeps (hw₀ : Has 0x40002000000000080000000000000000000000000000000000000000000000000000008000a000000 w₀)
    (c dst cid step turn budget : Nat) {s : State} (h₀ : Keeps w₀ s₀ s) :
    Keeps w₀ s₀ (sendMark c dst cid step turn budget s) := by
  unfold sendMark
  repeat' with_reducible first
    | assumption | apply queueFrame_keeps (hw₀.sub rfl) | split

theorem sendFrames_keeps
    (hw₀ : Has 0x40002000000000080000000000000000000000000000000000000000000000000000008000a000000 w₀) (p : Nat)
    (x1 : List Frame) {x2 : State} (h₀ : Keeps w₀ s₀ x2) :
    Keeps w₀ s₀ (sendFrames p x1 x2) := by
  revert h₀
  fun_induction sendFrames p x1 x2 <;> intro h₀
  all_goals repeat' with_reducible first
    | apply queueFrame_keeps (hw₀.sub rfl) | apply_assumption -exfalso

theorem sendTurn_keeps (hw₀ : Has 0x40002000000000080000000000000004c048fc400000000000000000000000000000008000a800100 w₀)
    (c dst i t : Nat) (d : List Byte) {s : State} {t₀ : State} (h₀ : Keeps w₀ s₀ s) :
    sendTurn c dst i t d s = some t₀ → Keeps w₀ s₀ t₀ := by
  unfold sendTurn
  repeat' with_reducible first
    | assumption | apply engRead_keeps (hw₀.sub rfl) | apply sendFrames_keeps (hw₀.sub rfl) | split
    | refine keeps_snd (by assumption) ?_ | (intro e; cases e)

theorem sendTurns_keeps (hw₀ : Has 0x40002000000000080000000000000004c048fc400000000000000000000000000000008000a800100 w₀)
    (c : Nat) (d : List Byte) (peers : List (Nat × Nat × Bool)) (x1 : List Nat) {x2 : State} {t₀ : State}
    (h₀ : Keeps w₀ s₀ x2) :
    sendTurns c d peers x1 x2 = some t₀ → Keeps w₀ s₀ t₀ := by
  revert h₀
  fun_induction sendTurns c d peers x1 x2 <;> intro h₀
  all_goals repeat' with_reducible first
    | apply_assumption -exfalso | refine sendTurn_keeps (hw₀.sub rfl) _ _ _ _ _ ?_ (by assumption)
    | (intro _; refine sendTurn_keeps (hw₀.sub rfl) _ _ _ _ _ ?_ (by assumption)) | (intro e; cases e)

theorem collBar_keeps (hw₀ : Has 0x40001a000000000000000000000000000000000000000000000080000001800 w₀) (c : Nat)
    (d : List Byte) {s : State} (h₀ : Keeps w₀ s₀ s) :
    Keeps w₀ s₀ (collBar c d s) := by
  unfold collBar
  repeat' with_reducible first
    | assumption | apply homeArrive_keeps (hw₀.sub rfl) | split

theorem modRecv_keeps (hw₀ : Has 0x100000 w₀) (c n cid : Nat) (f : Recv → Recv) {s : State} (h₀ : Keeps w₀ s₀ s) :
    Keeps w₀ s₀ (modRecv c n cid f s) := by
  unfold modRecv
  repeat' with_reducible first
    | assumption | apply modColl_keeps (hw₀.sub rfl)

theorem modXfer_keeps (hw₀ : Has 0x100000 w₀) (c n cid i : Nat) (f : Xfer → Xfer) {s : State} (h₀ : Keeps w₀ s₀ s) :
    Keeps w₀ s₀ (modXfer c n cid i f s) := by
  unfold modXfer
  repeat' with_reducible first
    | assumption | apply modRecv_keeps (hw₀.sub rfl)

theorem sendDone_keeps (hw₀ : Has 0x40002000000000080000000000000000000000000000000000000000000000000000008000a100000 w₀)
    (c : Nat) (r : Recv) (x : Xfer) {s : State} (h₀ : Keeps w₀ s₀ s) :
    Keeps w₀ s₀ (sendDone c r x s) := by
  unfold sendDone
  repeat' with_reducible first
    | assumption | apply modXfer_keeps (hw₀.sub rfl) | apply sendMark_keeps (hw₀.sub rfl) | split

theorem recvEnd_keeps (hw₀ : Has 0x40001a000000000000000000000000000000000000000000000080000101800 w₀) (c n cid : Nat)
    {s : State} (h₀ : Keeps w₀ s₀ s) :
    Keeps w₀ s₀ (recvEnd c n cid s) := by
  unfold recvEnd
  repeat' with_reducible first
    | assumption | apply modRecv_keeps (hw₀.sub rfl) | apply modColl_keeps (hw₀.sub rfl) | apply collBar_keeps (hw₀.sub rfl)
    | split

theorem closeXfer_keeps (hw₀ : Has 0x40102000000000080040001a00000000000000000000000000000000000000000000008000a101800 w₀)
    (c : Nat) (r : Recv) (x : Xfer) {s : State} (h₀ : Keeps w₀ s₀ s) :
    Keeps w₀ s₀ (closeXfer c r x s) := by
  unfold closeXfer
  repeat' with_reducible first
    | assumption | apply modXfer_keeps (hw₀.sub rfl) | refine incr_keeps (hw₀.sub rfl) _ _ reg_COLL_XFER_DONE ?_
    | apply recvEnd_keeps (hw₀.sub rfl) | apply sendDone_keeps (hw₀.sub rfl)

theorem ckptKeep_keeps (hw₀ : Has 0x100000 w₀) (c : Nat) (r : Recv) (x : Xfer) {s : State} (h₀ : Keeps w₀ s₀ s) :
    Keeps w₀ s₀ (ckptKeep c r x s) := by
  unfold ckptKeep
  repeat' with_reducible first
    | assumption | apply modCtx_keeps (hw₀.sub rfl)

theorem countDrop_keeps (hw₀ : Has 0x8000010000000000000000000000000000000000000000000000000000000000000000000080000000000 w₀) (c : Nat) {s : State} (h₀ : Keeps w₀ s₀ s) :
    Keeps w₀ s₀ (countDrop c s) := by
  unfold countDrop
  try dsimp -proj only
  repeat' with_reducible first
    | assumption | refine incr_keeps (hw₀.sub rfl) _ _ reg_COLL_CARRY_DROP ?_
    | refine setEvt_keeps (p := 8) (hw₀.sub rfl) (hw₀.sub rfl) _ _ (by with_unfolding_all rfl) reg_pendFld8 ?_ | split
    | dsimp -proj only

theorem carryDrop_keeps
    (hw₀ : Has 0x800041002000000000080000000000000000000000000000000000000000000000000000008000a100000 w₀) (c : Nat)
    (r : Recv) (x : Xfer) {s : State} (h₀ : Keeps w₀ s₀ s) :
    Keeps w₀ s₀ (carryDrop c r x s) := by
  unfold carryDrop
  repeat' with_reducible first
    | assumption | apply ckptKeep_keeps (hw₀.sub rfl) | apply modXfer_keeps (hw₀.sub rfl)
    | apply sendDone_keeps (hw₀.sub rfl) | apply countDrop_keeps (hw₀.sub rfl) | split | dsimp -proj only

theorem staleRej_keeps
    (hw₀ : Has 0x8000002000000000000000000000000000000000000000000000000000000000000000000080000000000 w₀) {s : State}
    (h₀ : Keeps w₀ s₀ s) :
    Keeps w₀ s₀ (staleRej s) := by
  unfold staleRej
  repeat' with_reducible first
    | assumption | refine setEvt_keeps (p := 8) (hw₀.sub rfl) (hw₀.sub rfl) _ _ (by with_unfolding_all rfl) reg_pendFld8 ?_
    | refine incr_keeps (hw₀.sub rfl) _ _ reg_COLL_STALE_REJ ?_

theorem carryStore_keeps (hw₀ : Has 0x4004000000000000000000000000000000000008000010000c w₀) (c : Nat) (r : Recv) (i t off : Nat) (bs : List Byte) {s : State} (h₀ : Keeps w₀ s₀ s) :
    Keeps w₀ s₀ (carryStore c r i t off bs s) := by
  unfold carryStore
  try dsimp -proj only
  repeat' with_reducible first
    | assumption | apply memStore_keeps (hw₀.sub rfl) | apply modXfer_keeps (hw₀.sub rfl) | split | dsimp -proj only

theorem carryStores_keeps (hw₀ : Has 0x4004000000000000000000000000000000000008000010000c w₀) (c n cid i : Nat) (x1 : List (Nat × List Byte)) {x2 : State} (h₀ : Keeps w₀ s₀ x2) :
    Keeps w₀ s₀ (carryStores c n cid i x1 x2) := by
  revert h₀
  fun_induction carryStores c n cid i x1 x2 <;> intro h₀
  all_goals repeat' with_reducible first
    | apply keeps_ite | apply carryStore_keeps (hw₀.sub rfl) | apply_assumption -exfalso | split

theorem tileSignal_keeps (hw₀ : Has 0x400019800000000000000000000000000000000000000000000080000001800 w₀) (c : Nat) (r : Recv) (n : Nat) {s : State} (h₀ : Keeps w₀ s₀ s) :
    Keeps w₀ s₀ (tileSignal c r n s) := by
  unfold tileSignal
  try dsimp -proj only
  repeat' with_reducible first
    | assumption | apply homeSignal_keeps (hw₀.sub rfl) | split | dsimp -proj only

theorem placeData_keeps (hw₀ : Has 0x40001980000004004000000000000000200000040000000000008000000180c w₀) (c : Nat) (r : Recv)
    (i t off : Nat) (bs : List Byte) {s : State} (h₀ : Keeps w₀ s₀ s) :
    Keeps w₀ s₀ (placeData c r i t off bs s) := by
  unfold placeData
  repeat' with_reducible first
    | assumption | apply keeps_ite
    | refine setEvt_keeps (p := 1) (hw₀.sub rfl) (hw₀.sub rfl) _ _ (by with_unfolding_all rfl) reg_pendFld1 ?_
    | refine addF_keeps (hw₀.sub rfl) _ _ _ reg_CLUSTER_GATHER_REJ ?_ | apply memStore_keeps (hw₀.sub rfl)
    | apply tileSignal_keeps (hw₀.sub rfl)

theorem takeTurn_keeps
    (hw₀ : Has 0x800041102000000000080040001b80000004004000000000000000200000040000000000008000a10180c w₀) (c : Nat)
    (r : Recv) (x : Xfer) (t : Nat) (bs : List Byte) {s : State} (h₀ : Keeps w₀ s₀ s) :
    Keeps w₀ s₀ (takeTurn c r x t bs s) := by
  unfold takeTurn
  repeat' with_reducible first
    | assumption | apply keeps_ite | apply carryDrop_keeps (hw₀.sub rfl) | apply placeData_keeps (hw₀.sub rfl)
    | apply modXfer_keeps (hw₀.sub rfl) | apply sendDone_keeps (hw₀.sub rfl) | apply closeXfer_keeps (hw₀.sub rfl)
    | apply carryStore_keeps (hw₀.sub rfl)

theorem turnFrame_keeps
    (hw₀ : Has 0x800045302000000000080040001b80000004004000000000000000200000040000000000008000a10180c w₀) (f : Frame)
    {s : State} (h₀ : Keeps w₀ s₀ s) :
    Keeps w₀ s₀ (turnFrame f s) := by
  unfold turnFrame
  repeat' with_reducible first
    | assumption | apply keeps_ite | apply modColl_keeps (hw₀.sub rfl) | apply staleRej_keeps (hw₀.sub rfl)
    | apply takeTurn_keeps (hw₀.sub rfl) | refine incr_keeps (hw₀.sub rfl) _ _ reg_COLL_DUP_TURN ?_ | split

theorem releaseFrame_keeps
    (hw₀ : Has 0x800044302000000000080040001a00000000000000000000000000000000000000000000008000a101800 w₀) (f : Frame)
    {s : State} (h₀ : Keeps w₀ s₀ s) :
    Keeps w₀ s₀ (releaseFrame f s) := by
  unfold releaseFrame
  repeat' with_reducible first
    | assumption | apply keeps_ite | apply modColl_keeps (hw₀.sub rfl) | apply staleRej_keeps (hw₀.sub rfl)
    | refine incr_keeps (hw₀.sub rfl) _ _ reg_COLL_DUP_TURN ?_ | apply closeXfer_keeps (hw₀.sub rfl) | split

theorem sendEnd_keeps (hw₀ : Has 0x40001a000000000000000000000000000000000000000000000080000101800 w₀) (c n cid : Nat)
    {s : State} (h₀ : Keeps w₀ s₀ s) :
    Keeps w₀ s₀ (sendEnd c n cid s) := by
  unfold sendEnd
  repeat' with_reducible first
    | assumption | apply collBar_keeps (hw₀.sub rfl) | apply modColl_keeps (hw₀.sub rfl) | split

theorem doneFrame_keeps
    (hw₀ : Has 0x800000200000000000000040001a000000000000000000000000000000000000000000000080000101800 w₀) (f : Frame)
    {s : State} (h₀ : Keeps w₀ s₀ s) :
    Keeps w₀ s₀ (doneFrame f s) := by
  unfold doneFrame
  repeat' with_reducible first
    | assumption | apply keeps_ite | apply modColl_keeps (hw₀.sub rfl) | apply sendEnd_keeps (hw₀.sub rfl)
    | apply staleRej_keeps (hw₀.sub rfl) | split

theorem collFrame_keeps
    (hw₀ : Has 0x800045302000000000080040001b80000004004000000000000000200000040000000000008000a10180c w₀) (f : Frame)
    {s : State} (h₀ : Keeps w₀ s₀ s) :
    Keeps w₀ s₀ (collFrame f s) := by
  unfold collFrame
  repeat' with_reducible first
    | assumption | apply doneFrame_keeps (hw₀.sub rfl) | apply releaseFrame_keeps (hw₀.sub rfl)
    | apply turnFrame_keeps (hw₀.sub rfl) | split

theorem collFrames_keeps
    (hw₀ : Has 0x800045302000000000080040001b80000004004000000000000000200000040000000000008000a10180c w₀)
    (x1 : List Frame) {x2 : State} (h₀ : Keeps w₀ s₀ x2) :
    Keeps w₀ s₀ (collFrames x1 x2) := by
  revert h₀
  fun_induction collFrames x1 x2 <;> intro h₀
  all_goals repeat' with_reducible first
    | apply collFrame_keeps (hw₀.sub rfl) | apply_assumption -exfalso

theorem matchEarly_keeps
    (hw₀ : Has 0x800045302000000000080040001b80000004004000000000000000200000040000000000008000a10180c w₀) (c : Nat)
    {s : State} (h₀ : Keeps w₀ s₀ s) :
    Keeps w₀ s₀ (matchEarly c s) := by
  unfold matchEarly
  repeat' with_reducible first
    | assumption | apply collFrames_keeps (hw₀.sub rfl) | apply modColl_keeps (hw₀.sub rfl)

theorem collTurnFrame_keeps
    (hw₀ : Has 0x800045302000000000080040001b80000004004000000000000000200000040000000000008001a10180c w₀) {s : State}
    (h₀ : Keeps w₀ s₀ s) :
    Keeps w₀ s₀ (collTurnFrame s) := by
  unfold collTurnFrame
  repeat' with_reducible first
    | assumption | apply turnFrame_keeps (hw₀.sub rfl) | split | apply keeps_inbox (hw₀.sub rfl)

theorem execCollTurnFrame_keeps
    (hw₀ : Has 0x800045302000000000080040001b80000004004000000000000000200000040000000000008001a10180c w₀) {s : State}
    (h₀ : Keeps w₀ s₀ s) :
    ∀ t₁, execCollTurnFrame s = .next t₁ → Keeps w₀ s₀ t₁ := by
  unfold execCollTurnFrame
  intro t₁ ht
  cases ht
  repeat' with_reducible first
    | assumption | apply awake_keeps | apply collTurnFrame_keeps (hw₀.sub rfl)

theorem doneFrameTake_keeps
    (hw₀ : Has 0x800000200000000000000040001a000000000000000000000000000000000000000000000080010101800 w₀) {s : State}
    (h₀ : Keeps w₀ s₀ s) :
    Keeps w₀ s₀ (doneFrameTake s) := by
  unfold doneFrameTake
  repeat' with_reducible first
    | assumption | apply doneFrame_keeps (hw₀.sub rfl) | split | apply keeps_inbox (hw₀.sub rfl)

theorem execDoneFrame_keeps
    (hw₀ : Has 0x800000200000000000000040001a000000000000000000000000000000000000000000000080010101800 w₀) {s : State}
    (h₀ : Keeps w₀ s₀ s) :
    ∀ t₁, execDoneFrame s = .next t₁ → Keeps w₀ s₀ t₁ := by
  unfold execDoneFrame
  intro t₁ ht
  cases ht
  repeat' with_reducible first
    | assumption | apply awake_keeps | apply doneFrameTake_keeps (hw₀.sub rfl)

theorem releaseFrameTake_keeps
    (hw₀ : Has 0x800044302000000000080040001a00000000000000000000000000000000000000000000008001a101800 w₀) {s : State}
    (h₀ : Keeps w₀ s₀ s) :
    Keeps w₀ s₀ (releaseFrameTake s) := by
  unfold releaseFrameTake
  repeat' with_reducible first
    | assumption | apply releaseFrame_keeps (hw₀.sub rfl) | split | apply keeps_inbox (hw₀.sub rfl)

theorem execReleaseFrame_keeps
    (hw₀ : Has 0x800044302000000000080040001a00000000000000000000000000000000000000000000008001a101800 w₀) {s : State}
    (h₀ : Keeps w₀ s₀ s) :
    ∀ t₁, execReleaseFrame s = .next t₁ → Keeps w₀ s₀ t₁ := by
  unfold execReleaseFrame
  intro t₁ ht
  cases ht
  repeat' with_reducible first
    | assumption | apply awake_keeps | apply releaseFrameTake_keeps (hw₀.sub rfl)

theorem earlyAreaAdmit_keeps
    (hw₀ : Has 0x880020000008c0080000000000000000000000000000000000000000000000000000008001f000000 w₀) (hclk : Nat)
    {s : State} (h₀ : Keeps w₀ s₀ s) :
    Keeps w₀ s₀ (earlyAreaAdmit hclk s) := by
  unfold earlyAreaAdmit
  repeat' with_reducible first
    | assumption | apply keeps_ite | refine addF_keeps (hw₀.sub rfl) _ _ _ reg_COLL_EARLY_HCLK ?_
    | apply drainAll_keeps (hw₀.sub rfl)

theorem execEarlyAreaAdmit_keeps
    (hw₀ : Has 0x880020000008c0080000000000000000000000000000000000000000000000000000008001f000000 w₀) (hclk : Nat)
    {s : State} (h₀ : Keeps w₀ s₀ s) :
    ∀ t₁, execEarlyAreaAdmit hclk s = .next t₁ → Keeps w₀ s₀ t₁ := by
  unfold execEarlyAreaAdmit
  intro t₁ ht
  cases ht
  repeat' with_reducible first
    | assumption | apply awake_keeps | apply earlyAreaAdmit_keeps (hw₀.sub rfl)

theorem sendReleasesTo_keeps
    (hw₀ : Has 0x40002000000000080000000000000000000000000000000000000000000000000000008000a000000 w₀) (c : Nat)
    (d : List Byte) (x1 : List (Nat × Nat × Bool)) {x2 : State} (h₀ : Keeps w₀ s₀ x2) :
    Keeps w₀ s₀ (sendReleasesTo c d x1 x2) := by
  revert h₀
  fun_induction sendReleasesTo c d x1 x2 <;> intro h₀
  all_goals repeat' with_reducible first
    | apply sendMark_keeps (hw₀.sub rfl) | apply_assumption -exfalso | split

theorem encodePart_keeps (hw₀ : Has 0x4c048fc400000000000000000000000000000008000080010c w₀) (die src dst n : Nat) {s : State} (h₀ : Keeps w₀ s₀ s) :
    Keeps w₀ s₀ (encodePart die src dst n s) := by
  unfold encodePart
  try dsimp -proj only
  repeat' with_reducible first
    | assumption | apply loadTiles_keeps (hw₀.sub rfl) | apply memStore_keeps (hw₀.sub rfl) | split
    | refine keeps_snd (by assumption) ?_ | dsimp -proj only

theorem encodeParts_keeps (hw₀ : Has 0x4c048fc400000000000000000000000000000008000080010c w₀) (x1 : List PartEnc) {x2 : State} (h₀ : Keeps w₀ s₀ x2) :
    Keeps w₀ s₀ (encodeParts x1 x2) := by
  revert h₀
  fun_induction encodeParts x1 x2 <;> intro h₀
  all_goals repeat' with_reducible first
    | apply keeps_ite | apply encodePart_keeps (hw₀.sub rfl) | apply_assumption -exfalso | split

theorem sendFirst_keeps (hw₀ : Has 0x40002000000000080040001a00000004c048fc400000000000000000000000000000008000a901900 w₀) (c room : Nat) (st : Step) (d : List Byte) (peers : List (Nat × Nat × Bool)) (rest : List (Nat × List Byte)) {s : State} (h₀ : Keeps w₀ s₀ s) :
    Keeps w₀ s₀ (sendFirst c room st d peers rest s) := by
  unfold sendFirst
  try dsimp -proj only
  repeat' with_reducible first
    | assumption | apply sendReleasesTo_keeps (hw₀.sub rfl)
    | (intro _; refine sendTurns_keeps (hw₀.sub rfl) _ _ _ _ ?_ (by assumption))
    | refine sendTurns_keeps (hw₀.sub rfl) _ _ _ _ ?_ (by assumption) | apply sendEnd_keeps (hw₀.sub rfl)
    | apply modColl_keeps (hw₀.sub rfl) | split | dsimp -proj only

theorem sendMore_keeps (hw₀ : Has 0x40002000000000080000000000000004c048fc400000000000000000000000000000008000a900100 w₀) (c room : Nat) (x : Send) {s : State} (h₀ : Keeps w₀ s₀ s) :
    Keeps w₀ s₀ (sendMore c room x s) := by
  unfold sendMore
  try dsimp -proj only
  repeat' with_reducible first
    | assumption | (intro _; refine sendTurns_keeps (hw₀.sub rfl) _ _ _ _ ?_ (by assumption))
    | refine sendTurns_keeps (hw₀.sub rfl) _ _ _ _ ?_ (by assumption) | apply modColl_keeps (hw₀.sub rfl) | split
    | dsimp -proj only

theorem sendStart_keeps (hw₀ : Has 0x8000400c2000000000080040001a00000004c048fc400000000000000000000000000000008000a901d0c w₀) (c room k : Nat) (enc : List PartEnc) {s : State} (h₀ : Keeps w₀ s₀ s) :
    Keeps w₀ s₀ (sendStart c room k enc s) := by
  unfold sendStart
  try dsimp -proj only
  repeat' with_reducible first
    | assumption | apply collHalt_keeps (hw₀.sub rfl) | apply hubTake_keeps (hw₀.sub rfl)
    | apply sendMore_keeps (hw₀.sub rfl) | apply sendFirst_keeps (hw₀.sub rfl) | apply encodeParts_keeps (hw₀.sub rfl)
    | split | dsimp -proj only

theorem execSend_keeps (hw₀ : Has 0x8000400c2000000000080040001a00000004c048fc400000000000000000000000000000008000a901d0c w₀) (c : SendWork) {s : State} (h₀ : Keeps w₀ s₀ s) :
    ∀ t₁, execSend c s = .next t₁ → Keeps w₀ s₀ t₁ := by
  unfold execSend
  intro t₁ ht
  cases ht
  repeat' with_reducible first
    | assumption | apply awake_keeps | apply sendStart_keeps (hw₀.sub rfl)

theorem gatherBlockSend_keeps
    (hw₀ : Has 0x40002000000000080000000000000004c048fc400000000000000000000000000000008000a900100 w₀) (c n cid g : Nat)
    {s : State} (h₀ : Keeps w₀ s₀ s) :
    Keeps w₀ s₀ (gatherBlockSend c n cid g s) := by
  unfold gatherBlockSend
  repeat' with_reducible first
    | assumption | apply keeps_ite | apply modColl_keeps (hw₀.sub rfl) | split
    | refine sendTurns_keeps (hw₀.sub rfl) _ _ _ _ ?_ (by assumption)
    | (intro _; refine sendTurns_keeps (hw₀.sub rfl) _ _ _ _ ?_ (by assumption))

theorem execGatherBlockSend_keeps
    (hw₀ : Has 0x40002000000000080000000000000004c048fc400000000000000000000000000000008000a900100 w₀) (c n cid g : Nat)
    {s : State} (h₀ : Keeps w₀ s₀ s) :
    ∀ t₁, execGatherBlockSend c n cid g s = .next t₁ → Keeps w₀ s₀ t₁ := by
  unfold execGatherBlockSend
  intro t₁ ht
  cases ht
  repeat' with_reducible first
    | assumption | apply awake_keeps | apply gatherBlockSend_keeps (hw₀.sub rfl)

theorem markAbsent_keeps
    (hw₀ : Has 0x800041402000000000080000000000000004004000000000000000000000000000000000008000a10000c w₀)
    (c n cid i : Nat) {s : State} (h₀ : Keeps w₀ s₀ s) :
    Keeps w₀ s₀ (markAbsent c n cid i s) := by
  unfold markAbsent
  repeat' with_reducible first
    | assumption | apply keeps_ite
    | refine setEvt_keeps (p := 8) (hw₀.sub rfl) (hw₀.sub rfl) _ _ (by with_unfolding_all rfl) reg_pendFld8 ?_
    | refine incr_keeps (hw₀.sub rfl) _ _ reg_COLL_ABSENT_SRC ?_ | apply modXfer_keeps (hw₀.sub rfl)
    | apply sendDone_keeps (hw₀.sub rfl) | apply carryDrop_keeps (hw₀.sub rfl) | apply carryStores_keeps (hw₀.sub rfl)
    | split

theorem markAbsents_keeps
    (hw₀ : Has 0x980041402000000000080000000000000004004000000000000000000000000000000000008000a10000c w₀) (c n cid : Nat)
    (x1 : List Nat) {x2 : State} (h₀ : Keeps w₀ s₀ x2) :
    Keeps w₀ s₀ (markAbsents c n cid x1 x2) := by
  revert h₀
  fun_induction markAbsents c n cid x1 x2 <;> intro h₀
  all_goals repeat' with_reducible first
    | refine setF_keeps (hw₀.sub rfl) _ _ _ reg_COLL_LAST_ABSENT_COLL_ID ?_
    | refine setF_keeps (hw₀.sub rfl) _ _ _ reg_COLL_LAST_ABSENT_ABSENT ?_ | apply markAbsent_keeps (hw₀.sub rfl)
    | apply_assumption -exfalso

theorem stragglerDeadline_keeps
    (hw₀ : Has 0x980041402000000000080040001a00000004004000000000000000000000000000000000008000a10180c w₀) (c n cid : Nat)
    {s : State} (h₀ : Keeps w₀ s₀ s) :
    Keeps w₀ s₀ (stragglerDeadline c n cid s) := by
  unfold stragglerDeadline
  repeat' with_reducible first
    | assumption | apply recvEnd_keeps (hw₀.sub rfl) | apply markAbsents_keeps (hw₀.sub rfl) | split

theorem execStragglerDeadline_keeps
    (hw₀ : Has 0x980041402000000000080040001a00000004004000000000000000000000000000000000008000a10180c w₀) (c n cid : Nat)
    {s : State} (h₀ : Keeps w₀ s₀ s) :
    ∀ t₁, execStragglerDeadline c n cid s = .next t₁ → Keeps w₀ s₀ t₁ := by
  unfold execStragglerDeadline
  intro t₁ ht
  cases ht
  repeat' with_reducible first
    | assumption | apply running_keeps | apply stragglerDeadline_keeps (hw₀.sub rfl)

theorem lossRecv_keeps
    (hw₀ : Has 0x980041402000000000080040001a00000004004000000000000000000000000000000000008000a10180c w₀) (c k : Nat)
    (r : Recv) {s : State} (h₀ : Keeps w₀ s₀ s) :
    Keeps w₀ s₀ (lossRecv c k r s) := by
  unfold lossRecv
  repeat' with_reducible first
    | assumption | apply recvEnd_keeps (hw₀.sub rfl) | apply markAbsents_keeps (hw₀.sub rfl)
    | apply modXfer_keeps (hw₀.sub rfl) | split

theorem lossNew_keeps (hw₀ : Has 0x980041402000000000080040001a00000004004000000000000000000000000000000000008000a10180c w₀) (c : Nat) (st : Step) (r : Recv) {s : State} (h₀ : Keeps w₀ s₀ s) :
    Keeps w₀ s₀ (lossNew c st r s) := by
  unfold lossNew
  try dsimp -proj only
  repeat' with_reducible first
    | assumption | apply lossRecv_keeps (hw₀.sub rfl) | split | dsimp -proj only

theorem postRecv_keeps (hw₀ : Has 0x100000 w₀) (c : Nat) (rest : List (Nat × List Byte)) (r : Recv) {s : State} (h₀ : Keeps w₀ s₀ s) :
    Keeps w₀ s₀ (postRecv c rest r s) := by
  unfold postRecv
  try dsimp -proj only
  repeat' with_reducible first
    | assumption | apply modColl_keeps (hw₀.sub rfl) | split | dsimp -proj only

theorem recvPost_keeps (hw₀ : Has 0x9800457c2000000000080040001b80000004004000000000000000200000040000000000008000a10180c w₀) (c flag k : Nat) {s : State} (h₀ : Keeps w₀ s₀ s) :
    Keeps w₀ s₀ (recvPost c flag k s) := by
  unfold recvPost
  repeat' with_reducible first
    | assumption | apply keeps_ite | apply collHalt_keeps (hw₀.sub rfl) | apply matchEarly_keeps (hw₀.sub rfl)
    | apply recvEnd_keeps (hw₀.sub rfl) | apply lossNew_keeps (hw₀.sub rfl) | apply postRecv_keeps (hw₀.sub rfl)
    | split

theorem execRecv_keeps (hw₀ : Has 0x9800457c2000000000080040001b80000004004000000000000000200000040000000000008000a10180c w₀) (c : RecvWork) {s : State} (h₀ : Keeps w₀ s₀ s) :
    ∀ t₁, execRecv c s = .next t₁ → Keeps w₀ s₀ t₁ := by
  unfold execRecv
  intro t₁ ht
  cases ht
  repeat' with_reducible first
    | assumption | apply awake_keeps | apply recvPost_keeps (hw₀.sub rfl)

theorem sendDues_keeps (hw₀ : Has 0x40002000000000080000000000000000000000000000000000000000000000000000008000a100000 w₀)
    (c : Nat) (x1 : List (Recv × Xfer)) {x2 : State} (h₀ : Keeps w₀ s₀ x2) :
    Keeps w₀ s₀ (sendDues c x1 x2) := by
  revert h₀
  fun_induction sendDues c x1 x2 <;> intro h₀
  all_goals repeat' with_reducible first
    | apply sendDone_keeps (hw₀.sub rfl) | apply_assumption -exfalso

theorem resendTurns_keeps
    (hw₀ : Has 0x40002000000000080000000000000004c048fc400000000000000000000000000000008000a800100 w₀) (c : Nat)
    (d : List Byte) (dst i : Nat) (x1 : List Nat) {x2 : State} (h₀ : Keeps w₀ s₀ x2) :
    Keeps w₀ s₀ (resendTurns c d dst i x1 x2) := by
  revert h₀
  fun_induction resendTurns c d dst i x1 x2 <;> intro h₀
  all_goals repeat' with_reducible first
    | intro _ | apply_assumption -exfalso | apply keeps_getD
    | refine sendTurn_keeps (hw₀.sub rfl) _ _ _ _ _ ?_ (by assumption)
    | (intro _; refine sendTurn_keeps (hw₀.sub rfl) _ _ _ _ _ ?_ (by assumption))

theorem retryPeers_keeps
    (hw₀ : Has 0x800042002000000000080000000000000004c048fc400000000000000000000000000000008000a800100 w₀) (c : Nat)
    (x : Send) (x1 : List (Nat × Nat × Bool)) {x2 : State} (h₀ : Keeps w₀ s₀ x2) :
    Keeps w₀ s₀ (retryPeers c x x1 x2) := by
  revert h₀
  fun_induction retryPeers c x x1 x2 <;> intro h₀
  all_goals repeat' with_reducible first
    | apply keeps_ite | apply sendMark_keeps (hw₀.sub rfl) | apply resendTurns_keeps (hw₀.sub rfl)
    | refine setEvt_keeps (p := 8) (hw₀.sub rfl) (hw₀.sub rfl) _ _ (by with_unfolding_all rfl) reg_pendFld8 ?_
    | refine incr_keeps (hw₀.sub rfl) _ _ reg_COLL_RETRY_XFER ?_ | apply_assumption -exfalso

theorem retrySends_keeps
    (hw₀ : Has 0x800042002000000000080000000000000004c048fc400000000000000000000000000000008000a800100 w₀) (c : Nat)
    (x1 : List Send) {x2 : State} (h₀ : Keeps w₀ s₀ x2) :
    Keeps w₀ s₀ (retrySends c x1 x2) := by
  revert h₀
  fun_induction retrySends c x1 x2 <;> intro h₀
  all_goals repeat' with_reducible first
    | apply retryPeers_keeps (hw₀.sub rfl) | apply_assumption -exfalso

theorem unpause_keeps
    (hw₀ : Has 0x800042002000000000080000000000000004c048fc400000000000000000000000000000008000a900100 w₀) (c : Nat)
    {s : State} (h₀ : Keeps w₀ s₀ s) :
    Keeps w₀ s₀ (unpause c s) := by
  unfold unpause
  repeat' with_reducible first
    | assumption | apply retrySends_keeps (hw₀.sub rfl) | apply sendDues_keeps (hw₀.sub rfl)

theorem unpauses_keeps
    (hw₀ : Has 0x800042002000000000080000000000000004c048fc400000000000000000000000000000008000a900100 w₀)
    (old v x1 : Nat) {x2 : State} (h₀ : Keeps w₀ s₀ x2) :
    Keeps w₀ s₀ (unpauses old v x1 x2) := by
  revert h₀
  fun_induction unpauses old v x1 x2 <;> intro h₀
  all_goals repeat' with_reducible first
    | apply unpause_keeps (hw₀.sub rfl) | apply_assumption -exfalso

theorem ctxPause_keeps
    (hw₀ : Has 0x100020004011000008010000040000020000000040000080000004800442012000000000080200000010008024c048fc402000000001000000000100000000008000a900100 w₀)
    (r : Requester) (a v : Nat) {s : State} (h₀ : Keeps w₀ s₀ s) :
    Keeps w₀ s₀ (ctxPause r a v s) := by
  unfold ctxPause
  repeat' with_reducible first
    | assumption | intro _ | apply guarded_keeps (hw₀.sub rfl) | apply unpauses_keeps (hw₀.sub rfl)
    | refine setF_keeps (hw₀.sub rfl) _ _ _ reg_COLL_CTX_PAUSE ?_ | split

theorem execCtxPause_keeps
    (hw₀ : Has 0x100020004011000008010000040000020000000040000080000004800442012000000000080200000010008024c048fc402000000001000000000100000000008000a900100 w₀)
    (r : Requester) (a v : Nat) {s : State} (h₀ : Keeps w₀ s₀ s) :
    ∀ t₁, execCtxPause r a v s = .next t₁ → Keeps w₀ s₀ t₁ := by
  unfold execCtxPause
  intro t₁ ht
  cases ht
  repeat' with_reducible first
    | assumption | apply ctxPause_keeps (hw₀.sub rfl)

theorem setTopo_keeps (hw₀ : Has 0x3f0000200000000000000000000000000000000000000000000000000000000000000000 w₀) (p : Nat)
    (e : List Byte) {s : State} (h₀ : Keeps w₀ s₀ s) :
    Keeps w₀ s₀ (setTopo p e s) := by
  unfold setTopo
  repeat' with_reducible first
    | assumption | refine setF_keeps (hw₀.sub rfl) _ _ _ reg_LINK_TOPO_SER_LO ?_
    | refine setF_keeps (hw₀.sub rfl) _ _ _ reg_LINK_TOPO_SER_HI ?_
    | refine setF_keeps (hw₀.sub rfl) _ _ _ reg_LINK_TOPO_PEER_BOARD ?_
    | refine setF_keeps (hw₀.sub rfl) _ _ _ reg_LINK_TOPO_PEER_POS ?_
    | refine setF_keeps (hw₀.sub rfl) _ _ _ reg_LINK_TOPO_PEER_PORT ?_
    | refine setF_keeps (hw₀.sub rfl) _ _ _ reg_LINK_TOPO_PEER_ROLE ?_ | apply leaveOff_keeps (hw₀.sub rfl) | split

theorem setTopos_keeps (hw₀ : Has 0x3f0000200000000000000000000000000000000000000000000000000000000000000000 w₀)
    (x1 : Nat) (x2 : List (List Byte)) {x3 : State} (h₀ : Keeps w₀ s₀ x3) :
    Keeps w₀ s₀ (setTopos x1 x2 x3) := by
  revert h₀
  fun_induction setTopos x1 x2 x3 <;> intro h₀
  all_goals repeat' with_reducible first
    | apply setTopo_keeps (hw₀.sub rfl) | apply_assumption -exfalso

theorem freshStreams_keeps (hw₀ : Has 0x800000000000000000000000000000000000000000000000000000000006100000 w₀) (c : Nat) {s : State} (h₀ : Keeps w₀ s₀ s) :
    Keeps w₀ s₀ (freshStreams c s) := by
  unfold freshStreams
  repeat' with_reducible first
    | assumption | apply modColl_keeps (hw₀.sub rfl) | apply detourEnds_keeps (hw₀.sub rfl)
    | apply keeps_txStreams_rxStreams (hw₀.sub rfl)

theorem topoLoad_keeps (hw₀ : Has 0x20003f0000a0000000000000004c048fc4000000000000000000000000000000080006b00100 w₀)
    (h : Nat) {s : State} (h₀ : Keeps w₀ s₀ s) :
    Keeps w₀ s₀ (topoLoad h s) := by
  unfold topoLoad
  repeat' with_reducible first
    | assumption | intro _ | apply keeps_ite | apply runCmd_keeps (hw₀.sub rfl) | apply report_keeps (hw₀.sub rfl)
    | apply cmdRead_keeps (hw₀.sub rfl) | refine setF_keeps (hw₀.sub rfl) _ _ _ reg_LINK_SELF_BOARD ?_
    | apply setTopos_keeps (hw₀.sub rfl) | apply modCtx_keeps (hw₀.sub rfl) | apply freshStreams_keeps (hw₀.sub rfl)

theorem execTopoLoad_keeps (hw₀ : Has 0x20003f0000a0000000000000004c048fc4000000000000000000000000000000080006b00100 w₀)
    (h : Nat) {s : State} (h₀ : Keeps w₀ s₀ s) :
    ∀ t₁, execTopoLoad h s = .next t₁ → Keeps w₀ s₀ t₁ := by
  unfold execTopoLoad
  intro t₁ ht
  cases ht
  repeat' with_reducible first
    | assumption | apply awake_keeps | apply topoLoad_keeps (hw₀.sub rfl)

theorem releaseReceive_keeps (hw₀ : Has 0x4000006000000000000000000000000020000e1018100000000080000305000 w₀) {s : State}
    (h₀ : Keeps w₀ s₀ s) :
    Keeps w₀ s₀ (releaseReceive s) := by
  unfold releaseReceive
  repeat' with_reducible first
    | assumption | apply collRelease_keeps (hw₀.sub rfl) | apply clusterRelease_keeps (hw₀.sub rfl) | split
    | apply keeps_releases (hw₀.sub rfl)

theorem execReleaseReceive_keeps (hw₀ : Has 0x4000006000000000000000000000000020000e1018100000000080000305000 w₀)
    {s : State} (h₀ : Keeps w₀ s₀ s) :
    ∀ t₁, execReleaseReceive s = .next t₁ → Keeps w₀ s₀ t₁ := by
  unfold execReleaseReceive
  intro t₁ ht
  cases ht
  repeat' with_reducible first
    | assumption | apply running_keeps | apply releaseReceive_keeps (hw₀.sub rfl)

end Sys2Proof.Machine
end

