-- ==== Sys2Proof/Laws/KeepsCulvert.lean ====
section
/-! SUPPORT. What the functions of Machine/Culvert.lean may change. -/

namespace Sys2Proof.Machine

set_option exponentiation.threshold 600

variable {w₀ : Nat} {s₀ : State}

theorem setChkFlags_keeps (hw₀ : Has 0x4004000000000000000000000000000000000008000000000c w₀) (i set clr : Nat)
    {s : State} (h₀ : Keeps w₀ s₀ s) :
    Keeps w₀ s₀ (setChkFlags i set clr s) := by
  unfold setChkFlags
  repeat' with_reducible first
    | assumption | apply memStore_keeps (hw₀.sub rfl)

theorem culSend.sendEach_keeps
    (hw₀ : Has 0x40002000000000080000000000000000000000000000000000000000000000000000008000a000000 w₀) (x1 : List Nat)
    (x2 : Frame) {x3 : State} (h₀ : Keeps w₀ s₀ x3) :
    Keeps w₀ s₀ (culSend.sendEach x1 x2 x3) := by
  revert h₀
  fun_induction culSend.sendEach x1 x2 x3 <;> intro h₀
  all_goals repeat' with_reducible first
    | apply queueFrame_keeps (hw₀.sub rfl) | apply_assumption -exfalso

theorem culSend_keeps (hw₀ : Has 0x40002000000000080000000000000000000000000000000000000000000000000000008000a000000 w₀)
    (opn : Option Frame) (fs : List Frame) {s : State} (h₀ : Keeps w₀ s₀ s) :
    Keeps w₀ s₀ (culSend opn fs s) := by
  unfold culSend
  repeat' with_reducible first
    | assumption | apply keeps_ite | apply culSend.sendEach_keeps (hw₀.sub rfl) | apply spreadFrames_keeps (hw₀.sub rfl)
    | split

theorem mirrorEvt_keeps (hw₀ : Has 0x100000 w₀) (g kind buf tile : Nat) {s : State} (h₀ : Keeps w₀ s₀ s) :
    Keeps w₀ s₀ (mirrorEvt g kind buf tile s) := by
  unfold mirrorEvt
  repeat' with_reducible first
    | assumption | apply jrnCtx_keeps (hw₀.sub rfl)

theorem showSuspect_keeps
    (hw₀ : Has 0xf000000000000000000000000000000000000000000000000000000000000000000000000000000000000000000 w₀)
    {s : State} (h₀ : Keeps w₀ s₀ s) :
    Keeps w₀ s₀ (showSuspect s) := by
  unfold showSuspect
  repeat' with_reducible first
    | assumption | refine setF_keeps (hw₀.sub rfl) _ _ _ reg_CULVERT_SUSPECT ?_
    | refine setF_keeps (hw₀.sub rfl) _ _ _ reg_CULVERT_SUSPECT_INFO_BUF ?_
    | refine setF_keeps (hw₀.sub rfl) _ _ _ reg_CULVERT_SUSPECT_INFO_OUTCOME ?_
    | refine setF_keeps (hw₀.sub rfl) _ _ _ reg_CULVERT_SUSPECT_INFO_TILE ?_

theorem markSuspect_keeps (hw₀ : Has 0x10f010000000000000000000000000000000000000000000000000000000000000000000000000000080000020000 w₀) (g buf outcome tile : Nat) {s : State} (h₀ : Keeps w₀ s₀ s) :
    Keeps w₀ s₀ (markSuspect g buf outcome tile s) := by
  have e : Keeps w₀ s₀ (setEvt (if outcome = 3 then CULVERT_EV_DIVERGED else CULVERT_EV_LOST) 0 s) :=
    setEvt_keeps (p := 9) (hw₀.sub rfl) (hw₀.sub rfl) _ _ (by split <;> rfl) reg_pendFld9 h₀
  unfold markSuspect
  exact keeps_ite e (showSuspect_keeps (hw₀.sub rfl) (incr_keeps (hw₀.sub rfl) _ _ reg_CULVERT_SUSPECT_CNT (keeps_cul (hw₀.sub rfl) _ e)))

theorem tileLost_keeps
    (hw₀ : Has 0x10f010000000000000000000000000000000000000000000000000000000000000000000000000000080000120000 w₀)
    (g kind tile : Nat) {s : State} (h₀ : Keeps w₀ s₀ s) :
    Keeps w₀ s₀ (tileLost g kind tile s) := by
  unfold tileLost
  repeat' with_reducible first
    | assumption | apply markSuspect_keeps (hw₀.sub rfl) | apply mirrorEvt_keeps (hw₀.sub rfl)

theorem dropFetch_keeps (hw₀ : Has 0x20000 w₀) (g kind tile : Nat) {s : State} (h₀ : Keeps w₀ s₀ s) :
    Keeps w₀ s₀ (dropFetch g kind tile s) := by
  unfold dropFetch
  repeat' with_reducible first
    | assumption | apply keeps_cul (hw₀.sub rfl)

theorem fetchSend_keeps
    (hw₀ : Has 0x10f01000000040002000000000080000000000000000000000000000000000000000000000000000008000a120000 w₀)
    (b : Blk) (kind tile : Nat) (take : Bool) {s : State} (h₀ : Keeps w₀ s₀ s) :
    Keeps w₀ s₀ (fetchSend b kind tile take s) := by
  unfold fetchSend
  repeat' with_reducible first
    | assumption | apply tileLost_keeps (hw₀.sub rfl) | apply culSend_keeps (hw₀.sub rfl) | split
    | apply keeps_cul (hw₀.sub rfl)

theorem ownedTiles_keeps
    (hw₀ : Has 0x10f01000000040002000000000080000000000000004c048fc400000000000000000000000000000008000a920100 w₀)
    (b : Blk) (kind k n : Nat) {s : State} (h₀ : Keeps w₀ s₀ s) :
    Keeps w₀ s₀ (ownedTiles b kind k n s).2 := by
  unfold ownedTiles
  repeat' with_reducible first
    | assumption | apply loadTiles_keeps (hw₀.sub rfl) | apply fetchSend_keeps (hw₀.sub rfl) | split
    | refine keeps_snd (by assumption) ?_

theorem putXfer_keeps (hw₀ : Has 0x20000 w₀) (x : CulXfer) {s : State} (h₀ : Keeps w₀ s₀ s) :
    Keeps w₀ s₀ (putXfer x s) := by
  unfold putXfer
  repeat' with_reducible first
    | assumption | apply keeps_cul (hw₀.sub rfl)

theorem delXfer_keeps (hw₀ : Has 0x20000 w₀) (x : CulXfer) {s : State} (h₀ : Keeps w₀ s₀ s) :
    Keeps w₀ s₀ (delXfer x s) := by
  unfold delXfer
  repeat' with_reducible first
    | assumption | apply keeps_cul (hw₀.sub rfl)

theorem culAck_keeps
    (hw₀ : Has 0x8000040002000000000080000000000000000000000000000000000000000000000000000008000a000000 w₀)
    (g stamp grp status : Nat) {s : State} (h₀ : Keeps w₀ s₀ s) :
    Keeps w₀ s₀ (culAck g stamp grp status s) := by
  unfold culAck
  repeat' with_reducible first
    | assumption | refine incr_keeps (hw₀.sub rfl) _ _ reg_CULVERT_ACKS ?_ | apply culSend_keeps (hw₀.sub rfl)

theorem xferFails_keeps
    (hw₀ : Has 0x10000008000040002000000000080000000000000004004000000000000000000000000000000000008000a12000c w₀)
    (i : Nat) (x : CulXfer) (kind t : Nat) {s : State} (h₀ : Keeps w₀ s₀ s) :
    Keeps w₀ s₀ (xferFails i x kind t s) := by
  unfold xferFails
  repeat' with_reducible first
    | assumption | apply mirrorEvt_keeps (hw₀.sub rfl)
    | refine setEvt_keeps (p := 9) (hw₀.sub rfl) (hw₀.sub rfl) _ _ (by with_unfolding_all rfl) reg_pendFld9 ?_
    | apply setChkFlags_keeps (hw₀.sub rfl) | apply culAck_keeps (hw₀.sub rfl) | apply putXfer_keeps (hw₀.sub rfl)

theorem tileFails_keeps
    (hw₀ : Has 0x10000018000040002000000000080000000000000004004000000000000000000000000000000000008000a12000c w₀)
    (i : Nat) (x : CulXfer) (kind t : Nat) {s : State} (h₀ : Keeps w₀ s₀ s) :
    Keeps w₀ s₀ (tileFails i x kind t s) := by
  unfold tileFails
  repeat' with_reducible first
    | assumption | apply keeps_ite | apply xferFails_keeps (hw₀.sub rfl) | apply putXfer_keeps (hw₀.sub rfl)
    | refine setEvt_keeps (p := 9) (hw₀.sub rfl) (hw₀.sub rfl) _ _ (by with_unfolding_all rfl) reg_pendFld9 ?_
    | refine incr_keeps (hw₀.sub rfl) _ _ reg_CULVERT_NACKS ?_ | apply culSend_keeps (hw₀.sub rfl)

theorem dipTile_keeps (hw₀ : Has 0x200000000 w₀) (i : Nat) (b : Blk) (kind t v : Nat) {s : State} (h₀ : Keeps w₀ s₀ s) :
    Keeps w₀ s₀ (dipTile i b kind t v s) := by
  unfold dipTile
  repeat' with_reducible first
    | assumption | apply keeps_pow (hw₀.sub rfl)

theorem checkMirror_keeps
    (hw₀ : Has 0x10000018000040002000000000080000000000000004004000000000000000000000000000000000008020a12000c w₀)
    (i : Nat) (b : Blk) (x : CulXfer) (kind t : Nat) (bs : List Byte) {s : State} (h₀ : Keeps w₀ s₀ s) :
    Keeps w₀ s₀ (checkMirror i b x kind t bs s) := by
  unfold checkMirror
  repeat' with_reducible first
    | assumption | apply keeps_ite | apply putXfer_keeps (hw₀.sub rfl) | apply dipTile_keeps (hw₀.sub rfl)
    | apply tileFails_keeps (hw₀.sub rfl)

theorem fixEntry_keeps
    (hw₀ : Has 0x800000000000000000000000000000000000004004000000000000000000000000000000000008000000000c w₀) (a v : Nat)
    {s : State} (h₀ : Keeps w₀ s₀ s) :
    Keeps w₀ s₀ (fixEntry a v s) := by
  unfold fixEntry
  repeat' with_reducible first
    | assumption | refine incr_keeps (hw₀.sub rfl) _ _ reg_CULVERT_TABLE_FIX ?_ | apply memStore_keeps (hw₀.sub rfl)

theorem fixOwner_keeps
    (hw₀ : Has 0x800000040002000000000080000000000000000000000000000000000000000000000000000008000a000000 w₀) (b : Blk)
    (x : CulXfer) (t v : Nat) {s : State} (h₀ : Keeps w₀ s₀ s) :
    Keeps w₀ s₀ (fixOwner b x t v s) := by
  unfold fixOwner
  repeat' with_reducible first
    | assumption | refine incr_keeps (hw₀.sub rfl) _ _ reg_CULVERT_TABLE_FIX ?_ | apply culSend_keeps (hw₀.sub rfl)

theorem auditTile_keeps
    (hw₀ : Has 0x10000c00000040002000000000080000000000000004c048fc400000000000000000000000000000008000a92010c w₀)
    (i : Nat) (b : Blk) (x : CulXfer) (kind t : Nat) (bs : List Byte) {s : State} (h₀ : Keeps w₀ s₀ s) :
    Keeps w₀ s₀ (auditTile i b x kind t bs s) := by
  unfold auditTile
  repeat' with_reducible first
    | assumption | apply keeps_ite | apply engRead_keeps (hw₀.sub rfl) | apply putXfer_keeps (hw₀.sub rfl)
    | apply fixEntry_keeps (hw₀.sub rfl) | apply fixOwner_keeps (hw₀.sub rfl) | apply mirrorEvt_keeps (hw₀.sub rfl)
    | refine setEvt_keeps (p := 9) (hw₀.sub rfl) (hw₀.sub rfl) _ _ (by with_unfolding_all rfl) reg_pendFld9 ?_
    | apply culSend_keeps (hw₀.sub rfl) | refine incr_keeps (hw₀.sub rfl) _ _ reg_CULVERT_REPAIR_TWIN ?_
    | apply memStore_keeps (hw₀.sub rfl)

theorem checkAudit_keeps
    (hw₀ : Has 0x10000c00000040002000000000080000000000000004c048fc400000000000000000000000000000008000a92010c w₀)
    (i : Nat) (b : Blk) (x : CulXfer) (kind t : Nat) (bs : List Byte) {s : State} (h₀ : Keeps w₀ s₀ s) :
    Keeps w₀ s₀ (checkAudit i b x kind t bs s) := by
  unfold checkAudit
  repeat' with_reducible first
    | assumption | apply putXfer_keeps (hw₀.sub rfl) | apply auditTile_keeps (hw₀.sub rfl) | split

theorem checkTileAt_keeps
    (hw₀ : Has 0x10000c18000040002000000000080000000000000004c048fc400000000000000000000000000000008020a92010c w₀)
    (i : Nat) (b : Blk) (x : CulXfer) (kind t : Nat) (bs : List Byte) {s : State} (h₀ : Keeps w₀ s₀ s) :
    Keeps w₀ s₀ (checkTileAt i b x kind t bs s) := by
  unfold checkTileAt
  repeat' with_reducible first
    | assumption | apply checkAudit_keeps (hw₀.sub rfl) | apply checkMirror_keeps (hw₀.sub rfl) | split

theorem adoptTable_keeps (hw₀ : Has 0x4004000000000000000000000000000000000008000000000c w₀) (x : CulXfer) (a e n : Nat)
    {s : State} (h₀ : Keeps w₀ s₀ s) :
    Keeps w₀ s₀ (adoptTable x a e n s) := by
  unfold adoptTable
  repeat' with_reducible first
    | assumption | apply memStore_keeps (hw₀.sub rfl)

theorem closeWeights_keeps (hw₀ : Has 0x4004000000000000000000000000000000000008000000000c w₀) (i : Nat) (b : Blk)
    (x : CulXfer) (p : List Byte) {s : State} (h₀ : Keeps w₀ s₀ s) :
    Keeps w₀ s₀ (closeWeights i b x p s) := by
  unfold closeWeights
  repeat' with_reducible first
    | assumption | apply adoptTable_keeps (hw₀.sub rfl) | apply setChkFlags_keeps (hw₀.sub rfl)
    | apply recPut_keeps (hw₀.sub rfl)

theorem closeFactors_keeps
    (hw₀ : Has 0x8000040002000000000080000000000000004004000000000000000000000000000000000008000a00000c w₀) (i : Nat)
    (b : Blk) (x : CulXfer) (p : List Byte) {s : State} (h₀ : Keeps w₀ s₀ s) :
    Keeps w₀ s₀ (closeFactors i b x p s) := by
  unfold closeFactors
  repeat' with_reducible first
    | assumption | apply adoptTable_keeps (hw₀.sub rfl) | apply recPut_keeps (hw₀.sub rfl) | apply culAck_keeps (hw₀.sub rfl)
    | apply setChkFlags_keeps (hw₀.sub rfl) | split

theorem closeRoots_keeps
    (hw₀ : Has 0x8000040002000000000080000000000000004004000000000000000000000000000000000008000a00000c w₀) (i : Nat)
    (b : Blk) (x : CulXfer) (p : List Byte) {s : State} (h₀ : Keeps w₀ s₀ s) :
    Keeps w₀ s₀ (closeRoots i b x p s) := by
  unfold closeRoots
  repeat' with_reducible first
    | assumption | apply adoptTable_keeps (hw₀.sub rfl) | apply recPut_keeps (hw₀.sub rfl) | apply culAck_keeps (hw₀.sub rfl)
    | apply setChkFlags_keeps (hw₀.sub rfl)

theorem auditResults_keeps
    (hw₀ : Has 0x40002000000000080000000000000000000000000000000000000000000000000000008000a000000 w₀) (b : Blk)
    (x : CulXfer) (x1 : List Nat) {x2 : State} (h₀ : Keeps w₀ s₀ x2) :
    Keeps w₀ s₀ (auditResults b x x1 x2) := by
  revert h₀
  fun_induction auditResults b x x1 x2 <;> intro h₀
  all_goals repeat' with_reducible first
    | apply culSend_keeps (hw₀.sub rfl) | apply_assumption -exfalso

theorem closeXferAt_keeps
    (hw₀ : Has 0x8000040002000000000080000000000000004004000000000000000000000000000000000008000a02000c w₀) (i : Nat)
    (b : Blk) (x : CulXfer) {s : State} (h₀ : Keeps w₀ s₀ s) :
    Keeps w₀ s₀ (closeXferAt i b x s) := by
  unfold closeXferAt
  repeat' with_reducible first
    | assumption | apply delXfer_keeps (hw₀.sub rfl) | apply auditResults_keeps (hw₀.sub rfl)
    | apply closeWeights_keeps (hw₀.sub rfl) | apply closeFactors_keeps (hw₀.sub rfl) | apply closeRoots_keeps (hw₀.sub rfl)
    | split

theorem settleBlk_keeps
    (hw₀ : Has 0x8000040002000000000080000000000000004004000000000000000000000000000000000008000a02000c w₀) (i : Nat)
    (b : Blk) (x1 : Nat) {x2 : State} (h₀ : Keeps w₀ s₀ x2) :
    Keeps w₀ s₀ (settleBlk i b x1 x2) := by
  revert h₀
  fun_induction settleBlk i b x1 x2 <;> intro h₀
  all_goals repeat' with_reducible first
    | apply closeXferAt_keeps (hw₀.sub rfl) | apply_assumption -exfalso

theorem culTake_keeps (hw₀ : Has 0x10000000 w₀) (kind : Nat) (g : Frame → State → State) {s : State} (h₀ : Keeps w₀ s₀ s)
    (hf₀ : ∀ y0 s, Keeps w₀ s₀ s → Keeps w₀ s₀ (g y0 s)) :
    Keeps w₀ s₀ (culTake kind g s) := by
  unfold culTake
  repeat' with_reducible first
    | assumption | apply hf₀ | split | apply keeps_inbox (hw₀.sub rfl)

theorem culOpenTake.start_keeps (hw₀ : Has 0x4004000000000000000000000000000000000008000002000c w₀) (i : Nat) (b : Blk)
    (grp stamp : Nat) (f : Frame) {s : State} (h₀ : Keeps w₀ s₀ s) :
    Keeps w₀ s₀ (culOpenTake.start i b grp stamp f s) := by
  unfold culOpenTake.start
  repeat' with_reducible first
    | assumption | apply putXfer_keeps (hw₀.sub rfl) | apply setChkFlags_keeps (hw₀.sub rfl)
    | apply memStore_keeps (hw₀.sub rfl) | split

theorem culOpenTake_keeps (hw₀ : Has 0x4004000000000000000000000000000000000008000002000c w₀) (f : Frame) {s : State}
    (h₀ : Keeps w₀ s₀ s) :
    Keeps w₀ s₀ (culOpenTake f s) := by
  unfold culOpenTake
  repeat' with_reducible first
    | assumption | apply culOpenTake.start_keeps (hw₀.sub rfl) | split | apply keeps_cul (hw₀.sub rfl)

theorem execOpenFrame_keeps (hw₀ : Has 0x4004000000000000000000000000000000000008001002000c w₀) {s : State}
    (h₀ : Keeps w₀ s₀ s) :
    ∀ t₁, execOpenFrame s = .next t₁ → Keeps w₀ s₀ t₁ := by
  unfold execOpenFrame
  intro t₁ ht
  cases ht
  repeat' with_reducible first
    | assumption | apply awake_keeps | apply culTake_keeps (hw₀.sub rfl) | apply culOpenTake_keeps (hw₀.sub rfl)

theorem recheck_keeps
    (hw₀ : Has 0x10000c18000040002000000000080000000000000004c048fc400000000000000000000000000000008020a92010c w₀)
    (i : Nat) (b : Blk) (grp : Nat) (aud : Bool) (x1 : List (Nat × List Byte)) {x2 : State} (h₀ : Keeps w₀ s₀ x2) :
    Keeps w₀ s₀ (recheck i b grp aud x1 x2) := by
  revert h₀
  fun_induction recheck i b grp aud x1 x2 <;> intro h₀
  all_goals repeat' with_reducible first
    | apply checkTileAt_keeps (hw₀.sub rfl) | apply_assumption -exfalso | split

theorem tabAtTwin_keeps
    (hw₀ : Has 0x10000c18000040002000000000080000000000000004c048fc400000000000000000000000000000008020a92010c w₀)
    (i : Nat) (b : Blk) (grp : Nat) (f : Frame) {s : State} (h₀ : Keeps w₀ s₀ s) :
    Keeps w₀ s₀ (tabAtTwin i b grp f s) := by
  unfold tabAtTwin
  repeat' with_reducible first
    | assumption | apply putXfer_keeps (hw₀.sub rfl) | apply memStore_keeps (hw₀.sub rfl)
    | apply settleBlk_keeps (hw₀.sub rfl) | apply recheck_keeps (hw₀.sub rfl) | split

theorem tabAtOwner_keeps (hw₀ : Has 0x20000 w₀) (b : Blk) (grp : Nat) (f : Frame) {s : State} (h₀ : Keeps w₀ s₀ s) :
    Keeps w₀ s₀ (tabAtOwner b grp f s) := by
  unfold tabAtOwner
  repeat' with_reducible first
    | assumption | apply keeps_cul (hw₀.sub rfl)

theorem culTab_keeps
    (hw₀ : Has 0x10000c18000040002000000000080000000000000004c048fc400000000000000000000000000000008020a92010c w₀)
    (kind : Nat) (f : Frame) {s : State} (h₀ : Keeps w₀ s₀ s) :
    Keeps w₀ s₀ (culTab kind f s) := by
  unfold culTab
  repeat' with_reducible first
    | assumption | apply keeps_ite | apply tabAtTwin_keeps (hw₀.sub rfl) | apply tabAtOwner_keeps (hw₀.sub rfl) | split

theorem execTabWf_keeps
    (hw₀ : Has 0x10000c18000040002000000000080000000000000004c048fc400000000000000000000000000000008021a92010c w₀)
    {s : State} (h₀ : Keeps w₀ s₀ s) :
    ∀ t₁, execTabWf s = .next t₁ → Keeps w₀ s₀ t₁ := by
  unfold execTabWf
  intro t₁ ht
  cases ht
  repeat' with_reducible first
    | assumption | apply awake_keeps | apply culTake_keeps (hw₀.sub rfl) | apply culTab_keeps (hw₀.sub rfl)

theorem execTabR_keeps
    (hw₀ : Has 0x10000c18000040002000000000080000000000000004c048fc400000000000000000000000000000008021a92010c w₀)
    {s : State} (h₀ : Keeps w₀ s₀ s) :
    ∀ t₁, execTabR s = .next t₁ → Keeps w₀ s₀ t₁ := by
  unfold execTabR
  intro t₁ ht
  cases ht
  repeat' with_reducible first
    | assumption | apply awake_keeps | apply culTake_keeps (hw₀.sub rfl) | apply culTab_keeps (hw₀.sub rfl)

theorem dataAtTwin_keeps
    (hw₀ : Has 0x10000c18000040002000000000080000000000000004c048fc400000000000000000000000000000008020a92010c w₀)
    (i : Nat) (b : Blk) (kind : Nat) (f : Frame) {s : State} (h₀ : Keeps w₀ s₀ s) :
    Keeps w₀ s₀ (dataAtTwin i b kind f s) := by
  unfold dataAtTwin
  try dsimp -proj only
  repeat' with_reducible first
    | assumption | apply putXfer_keeps (hw₀.sub rfl) | apply memStore_keeps (hw₀.sub rfl)
    | apply settleBlk_keeps (hw₀.sub rfl) | apply checkTileAt_keeps (hw₀.sub rfl) | split

theorem repairTile_keeps
    (hw₀ : Has 0x10f01200000000000000000000000000000000000004004000000000000000000000000000000000008000012000c w₀)
    (b : Blk) (x : Fetch) (bs : List Byte) {s : State} (h₀ : Keeps w₀ s₀ s) :
    Keeps w₀ s₀ (repairTile b x bs s) := by
  unfold repairTile
  repeat' with_reducible first
    | assumption | apply keeps_ite | apply dropFetch_keeps (hw₀.sub rfl) | apply tileLost_keeps (hw₀.sub rfl)
    | apply memStore_keeps (hw₀.sub rfl)
    | refine setEvt_keeps (p := 9) (hw₀.sub rfl) (hw₀.sub rfl) _ _ (by with_unfolding_all rfl) reg_pendFld9 ?_
    | refine incr_keeps (hw₀.sub rfl) _ _ reg_CULVERT_REPAIR_OWNER ?_ | apply mirrorEvt_keeps (hw₀.sub rfl)

theorem dataAtOwner_keeps
    (hw₀ : Has 0x10f01200000000000000000000000000000000000004004000000000000000000000000000000000008000012000c w₀)
    (b : Blk) (kind : Nat) (f : Frame) {s : State} (h₀ : Keeps w₀ s₀ s) :
    Keeps w₀ s₀ (dataAtOwner b kind f s) := by
  unfold dataAtOwner
  repeat' with_reducible first
    | assumption | apply memStore_keeps (hw₀.sub rfl) | apply repairTile_keeps (hw₀.sub rfl)
    | apply dropFetch_keeps (hw₀.sub rfl) | split | apply keeps_cul (hw₀.sub rfl)

theorem culDataTake_keeps
    (hw₀ : Has 0x10f01e18000040002000000000080000000000000004c048fc400000000000000000000000000000008020a92010c w₀)
    (kind : Nat) (f : Frame) {s : State} (h₀ : Keeps w₀ s₀ s) :
    Keeps w₀ s₀ (culDataTake kind f s) := by
  unfold culDataTake
  repeat' with_reducible first
    | assumption | apply dataAtTwin_keeps (hw₀.sub rfl) | apply dataAtOwner_keeps (hw₀.sub rfl) | split

theorem execWgt_keeps
    (hw₀ : Has 0x10f01e18000040002000000000080000000000000004c048fc400000000000000000000000000000008021a92010c w₀)
    {s : State} (h₀ : Keeps w₀ s₀ s) :
    ∀ t₁, execWgt s = .next t₁ → Keeps w₀ s₀ t₁ := by
  unfold execWgt
  intro t₁ ht
  cases ht
  repeat' with_reducible first
    | assumption | apply awake_keeps | apply culTake_keeps (hw₀.sub rfl) | apply culDataTake_keeps (hw₀.sub rfl)

theorem execFac0_keeps
    (hw₀ : Has 0x10f01e18000040002000000000080000000000000004c048fc400000000000000000000000000000008021a92010c w₀)
    {s : State} (h₀ : Keeps w₀ s₀ s) :
    ∀ t₁, execFac0 s = .next t₁ → Keeps w₀ s₀ t₁ := by
  unfold execFac0
  intro t₁ ht
  cases ht
  repeat' with_reducible first
    | assumption | apply awake_keeps | apply culTake_keeps (hw₀.sub rfl) | apply culDataTake_keeps (hw₀.sub rfl)

theorem execFac1_keeps
    (hw₀ : Has 0x10f01e18000040002000000000080000000000000004c048fc400000000000000000000000000000008021a92010c w₀)
    {s : State} (h₀ : Keeps w₀ s₀ s) :
    ∀ t₁, execFac1 s = .next t₁ → Keeps w₀ s₀ t₁ := by
  unfold execFac1
  intro t₁ ht
  cases ht
  repeat' with_reducible first
    | assumption | apply awake_keeps | apply culTake_keeps (hw₀.sub rfl) | apply culDataTake_keeps (hw₀.sub rfl)

theorem execRoot0_keeps
    (hw₀ : Has 0x10f01e18000040002000000000080000000000000004c048fc400000000000000000000000000000008021a92010c w₀)
    {s : State} (h₀ : Keeps w₀ s₀ s) :
    ∀ t₁, execRoot0 s = .next t₁ → Keeps w₀ s₀ t₁ := by
  unfold execRoot0
  intro t₁ ht
  cases ht
  repeat' with_reducible first
    | assumption | apply awake_keeps | apply culTake_keeps (hw₀.sub rfl) | apply culDataTake_keeps (hw₀.sub rfl)

theorem execRoot1_keeps
    (hw₀ : Has 0x10f01e18000040002000000000080000000000000004c048fc400000000000000000000000000000008021a92010c w₀)
    {s : State} (h₀ : Keeps w₀ s₀ s) :
    ∀ t₁, execRoot1 s = .next t₁ → Keeps w₀ s₀ t₁ := by
  unfold execRoot1
  intro t₁ ht
  cases ht
  repeat' with_reducible first
    | assumption | apply awake_keeps | apply culTake_keeps (hw₀.sub rfl) | apply culDataTake_keeps (hw₀.sub rfl)

theorem culClose_keeps
    (hw₀ : Has 0x8000040002000000000080000000000000004004000000000000000000000000000000000008000a02000c w₀) (grp : Nat)
    (f : Frame) {s : State} (h₀ : Keeps w₀ s₀ s) :
    Keeps w₀ s₀ (culClose grp f s) := by
  unfold culClose
  repeat' with_reducible first
    | assumption | apply keeps_ite | apply settleBlk_keeps (hw₀.sub rfl) | apply putXfer_keeps (hw₀.sub rfl) | split

theorem execCloseW_keeps
    (hw₀ : Has 0x8000040002000000000080000000000000004004000000000000000000000000000000000008001a02000c w₀) {s : State}
    (h₀ : Keeps w₀ s₀ s) :
    ∀ t₁, execCloseW s = .next t₁ → Keeps w₀ s₀ t₁ := by
  unfold execCloseW
  intro t₁ ht
  cases ht
  repeat' with_reducible first
    | assumption | apply awake_keeps | apply culTake_keeps (hw₀.sub rfl) | apply culClose_keeps (hw₀.sub rfl)

theorem execCloseF_keeps
    (hw₀ : Has 0x8000040002000000000080000000000000004004000000000000000000000000000000000008001a02000c w₀) {s : State}
    (h₀ : Keeps w₀ s₀ s) :
    ∀ t₁, execCloseF s = .next t₁ → Keeps w₀ s₀ t₁ := by
  unfold execCloseF
  intro t₁ ht
  cases ht
  repeat' with_reducible first
    | assumption | apply awake_keeps | apply culTake_keeps (hw₀.sub rfl) | apply culClose_keeps (hw₀.sub rfl)

theorem execCloseR_keeps
    (hw₀ : Has 0x8000040002000000000080000000000000004004000000000000000000000000000000000008001a02000c w₀) {s : State}
    (h₀ : Keeps w₀ s₀ s) :
    ∀ t₁, execCloseR s = .next t₁ → Keeps w₀ s₀ t₁ := by
  unfold execCloseR
  intro t₁ ht
  cases ht
  repeat' with_reducible first
    | assumption | apply awake_keeps | apply culTake_keeps (hw₀.sub rfl) | apply culClose_keeps (hw₀.sub rfl)

theorem culAckTake_keeps (hw₀ : Has 0x120000 w₀) (f : Frame) {s : State} (h₀ : Keeps w₀ s₀ s) :
    Keeps w₀ s₀ (culAckTake f s) := by
  unfold culAckTake
  repeat' with_reducible first
    | assumption | apply modBlk_keeps (hw₀.sub rfl) | split | apply keeps_cul (hw₀.sub rfl)

theorem execAck_keeps (hw₀ : Has 0x10120000 w₀) {s : State} (h₀ : Keeps w₀ s₀ s) :
    ∀ t₁, execAck s = .next t₁ → Keeps w₀ s₀ t₁ := by
  unfold execAck
  intro t₁ ht
  cases ht
  repeat' with_reducible first
    | assumption | apply awake_keeps | apply culTake_keeps (hw₀.sub rfl) | apply culAckTake_keeps (hw₀.sub rfl)

theorem resendTile_keeps
    (hw₀ : Has 0x10f01020000040002000000000080000000000000004c048fc400000000000000000000000000000008000a920100 w₀)
    (b : Blk) (kind t : Nat) {s : State} (h₀ : Keeps w₀ s₀ s) :
    Keeps w₀ s₀ (resendTile b kind t s) := by
  unfold resendTile
  repeat' with_reducible first
    | assumption | apply keeps_ite | refine incr_keeps (hw₀.sub rfl) _ _ reg_CULVERT_RESENDS ?_
    | apply culSend_keeps (hw₀.sub rfl) | apply ownedTiles_keeps (hw₀.sub rfl) | apply tileLost_keeps (hw₀.sub rfl) | split
    | refine keeps_snd (by assumption) ?_

theorem culNackTake_keeps
    (hw₀ : Has 0x10f01020000040002000000000080000000000000004c048fc400000000000000000000000000000008000a920100 w₀)
    (f : Frame) {s : State} (h₀ : Keeps w₀ s₀ s) :
    Keeps w₀ s₀ (culNackTake f s) := by
  unfold culNackTake
  try dsimp -proj only
  repeat' with_reducible first
    | assumption | apply tileLost_keeps (hw₀.sub rfl) | apply dropFetch_keeps (hw₀.sub rfl)
    | apply resendTile_keeps (hw₀.sub rfl) | split

theorem execNack_keeps
    (hw₀ : Has 0x10f01020000040002000000000080000000000000004c048fc400000000000000000000000000000008001a920100 w₀)
    {s : State} (h₀ : Keeps w₀ s₀ s) :
    ∀ t₁, execNack s = .next t₁ → Keeps w₀ s₀ t₁ := by
  unfold execNack
  intro t₁ ht
  cases ht
  repeat' with_reducible first
    | assumption | apply awake_keeps | apply culTake_keeps (hw₀.sub rfl) | apply culNackTake_keeps (hw₀.sub rfl)

theorem auditResTake_keeps
    (hw₀ : Has 0x10f010c00000000000000000000000000000000000000000000000000000000000000000000000000080000020000 w₀)
    (f : Frame) {s : State} (h₀ : Keeps w₀ s₀ s) :
    Keeps w₀ s₀ (auditResTake f s) := by
  unfold auditResTake
  repeat' with_reducible first
    | assumption | refine incr_keeps (hw₀.sub rfl) _ _ reg_CULVERT_AUDIT_SKIP ?_ | apply markSuspect_keeps (hw₀.sub rfl)
    | refine incr_keeps (hw₀.sub rfl) _ _ reg_CULVERT_AUDIT_BLK ?_ | split | apply keeps_cul (hw₀.sub rfl)

theorem execAuditRes_keeps
    (hw₀ : Has 0x10f010c00000000000000000000000000000000000000000000000000000000000000000000000000080010020000 w₀)
    {s : State} (h₀ : Keeps w₀ s₀ s) :
    ∀ t₁, execAuditRes s = .next t₁ → Keeps w₀ s₀ t₁ := by
  unfold execAuditRes
  intro t₁ ht
  cases ht
  repeat' with_reducible first
    | assumption | apply awake_keeps | apply culTake_keeps (hw₀.sub rfl) | apply auditResTake_keeps (hw₀.sub rfl)

theorem fetchAnswer_keeps (hw₀ : Has 0x4c048fc4000000000000000000000000000000080000800100 w₀) (i : Nat) (b : Blk)
    (kind t stamp : Nat) {s : State} (h₀ : Keeps w₀ s₀ s) :
    Keeps w₀ s₀ (fetchAnswer i b kind t stamp s).2 := by
  unfold fetchAnswer
  repeat' with_reducible first
    | assumption | dsimp only | apply engRead_keeps (hw₀.sub rfl) | split | refine keeps_snd (by assumption) ?_

theorem fetchTake_keeps (hw₀ : Has 0x40002000000000080000000000000004c048fc400000000000000000000000000000008000a800100 w₀)
    (f : Frame) {s : State} (h₀ : Keeps w₀ s₀ s) :
    Keeps w₀ s₀ (fetchTake f s) := by
  unfold fetchTake
  try dsimp -proj only
  repeat' with_reducible first
    | assumption | apply fetchAnswer_keeps (hw₀.sub rfl) | apply culSend_keeps (hw₀.sub rfl) | split
    | refine keeps_snd (by assumption) ?_

theorem execFetch_keeps (hw₀ : Has 0x40002000000000080000000000000004c048fc400000000000000000000000000000008001a800100 w₀)
    {s : State} (h₀ : Keeps w₀ s₀ s) :
    ∀ t₁, execFetch s = .next t₁ → Keeps w₀ s₀ t₁ := by
  unfold execFetch
  intro t₁ ht
  cases ht
  repeat' with_reducible first
    | assumption | apply awake_keeps | apply culTake_keeps (hw₀.sub rfl) | apply fetchTake_keeps (hw₀.sub rfl)

theorem sendWeights_keeps
    (hw₀ : Has 0x40002000000000080000000000000000000000000000000000000000000000000000008000a000000 w₀) (b : Blk)
    (aud : Bool) (n : Nat) (tiles : List (List Byte)) {s : State} (h₀ : Keeps w₀ s₀ s) :
    Keeps w₀ s₀ (sendWeights b aud n tiles s) := by
  unfold sendWeights
  repeat' with_reducible first
    | assumption | apply culSend_keeps (hw₀.sub rfl)

theorem sendFactors_keeps
    (hw₀ : Has 0x40002000000000080000000000000000000000000000000000000000000000000000008000a000000 w₀) (b : Blk)
    (aud : Bool) (n : Nat) (half0 half1 : List (List Byte)) (h1 sent : Bool) {s : State} (h₀ : Keeps w₀ s₀ s) :
    Keeps w₀ s₀ (sendFactors b aud n half0 half1 h1 sent s) := by
  unfold sendFactors
  repeat' with_reducible first
    | assumption | apply culSend_keeps (hw₀.sub rfl) | split

theorem sendRoots_keeps (hw₀ : Has 0x40002000000000080000000000000000000000000000000000000000000000000000008000a000000 w₀)
    (b : Blk) (aud : Bool) (kind : Nat) (tiles : List (List Byte)) {s : State} (h₀ : Keeps w₀ s₀ s) :
    Keeps w₀ s₀ (sendRoots b aud kind tiles s) := by
  unfold sendRoots
  repeat' with_reducible first
    | assumption | apply culSend_keeps (hw₀.sub rfl)

theorem wholeBuf_keeps
    (hw₀ : Has 0x10f01000000040002000000000080000000000000004c048fc400000000000000000000000000000008000a920100 w₀)
    (b : Blk) (kind : Nat) {s : State} (h₀ : Keeps w₀ s₀ s) :
    Keeps w₀ s₀ (wholeBuf b kind s).2 := by
  unfold wholeBuf
  repeat' with_reducible first
    | assumption | apply ownedTiles_keeps (hw₀.sub rfl)

theorem fetchAll_keeps
    (hw₀ : Has 0x10f01000000040002000000000080000000000000000000000000000000000000000000000000000008000a120000 w₀)
    (b : Blk) (kind x1 : Nat) {x2 : State} (h₀ : Keeps w₀ s₀ x2) :
    Keeps w₀ s₀ (fetchAll b kind x1 x2) := by
  revert h₀
  fun_induction fetchAll b kind x1 x2 <;> intro h₀
  all_goals repeat' with_reducible first
    | apply fetchSend_keeps (hw₀.sub rfl) | apply_assumption -exfalso

theorem keepOwner_keeps
    (hw₀ : Has 0x10f01000000040002000000000080000000000000004c048fc400000000000000000000000000000008000a920100 w₀)
    (b : Blk) (buf : Nat) {s : State} (h₀ : Keeps w₀ s₀ s) :
    Keeps w₀ s₀ (keepOwner b buf s) := by
  unfold keepOwner
  repeat' with_reducible first
    | assumption | apply wholeBuf_keeps (hw₀.sub rfl) | apply sendWeights_keeps (hw₀.sub rfl)
    | apply sendFactors_keeps (hw₀.sub rfl) | apply sendRoots_keeps (hw₀.sub rfl) | split
    | refine keeps_snd (by assumption) ?_

theorem resolveSet_keeps
    (hw₀ : Has 0x10f01000000040002000000000080000000000000004c048fc400000000000000000000000000000008000a920100 w₀)
    (g : Nat) {s : State} (h₀ : Keeps w₀ s₀ s) :
    Keeps w₀ s₀ (resolveSet g s) := by
  unfold resolveSet
  repeat' with_reducible first
    | assumption | apply showSuspect_keeps (hw₀.sub rfl) | apply keepOwner_keeps (hw₀.sub rfl)
    | apply fetchAll_keeps (hw₀.sub rfl) | split | apply keeps_cul (hw₀.sub rfl)

theorem execResolve_keeps
    (hw₀ : Has 0x100020004011000008010000040000020000000040000090f01004000040012000000000080200000010008024c048fc402000000001000000000100000000008000a920100 w₀)
    (r : Requester) (a v : Nat) {s : State} (h₀ : Keeps w₀ s₀ s) :
    ∀ t₁, execResolve r a v s = .next t₁ → Keeps w₀ s₀ t₁ := by
  unfold execResolve
  intro t₁ ht
  cases ht
  repeat' with_reducible first
    | assumption | intro _ | apply guarded_keeps (hw₀.sub rfl) | apply resolveSet_keeps (hw₀.sub rfl) | split

theorem execAuditGbi_keeps
    (hw₀ : Has 0x1000200040110000080100000400000200000000400000800000040000000100000000000002000000100080200000000020000000010000000001000000000000000020000 w₀)
    (r : Requester) (a v : Nat) {s : State} (h₀ : Keeps w₀ s₀ s) :
    ∀ t₁, execAuditGbi r a v s = .next t₁ → Keeps w₀ s₀ t₁ := by
  unfold execAuditGbi
  intro t₁ ht
  cases ht
  repeat' with_reducible first
    | assumption | intro _ | apply guarded_keeps (hw₀.sub rfl) | split | apply keeps_cul (hw₀.sub rfl)

theorem auditBlk_keeps
    (hw₀ : Has 0x10f01000000040002000000000080000000000000004c048fc400000000000000000000000000000008000a920100 w₀)
    (b : Blk) {s : State} (h₀ : Keeps w₀ s₀ s) :
    Keeps w₀ s₀ (auditBlk b s) := by
  unfold auditBlk
  repeat' with_reducible first
    | assumption | apply wholeBuf_keeps (hw₀.sub rfl) | apply sendFactors_keeps (hw₀.sub rfl)
    | apply sendWeights_keeps (hw₀.sub rfl) | apply sendRoots_keeps (hw₀.sub rfl) | split
    | refine keeps_snd (by assumption) ?_ | apply keeps_cul (hw₀.sub rfl)

theorem auditBlks_keeps
    (hw₀ : Has 0x10f01000000040002000000000080000000000000004c048fc400000000000000000000000000000008000a920100 w₀)
    (x1 : List Blk) {x2 : State} (h₀ : Keeps w₀ s₀ x2) :
    Keeps w₀ s₀ (auditBlks x1 x2) := by
  revert h₀
  fun_induction auditBlks x1 x2 <;> intro h₀
  all_goals repeat' with_reducible first
    | apply auditBlk_keeps (hw₀.sub rfl) | apply_assumption -exfalso

theorem auditStart_keeps
    (hw₀ : Has 0x10f01000000040002000000000080000000000000004c048fc400000000000000000000000000000008000a920100 w₀)
    (c n : Nat) (blks : List Blk) {s : State} (h₀ : Keeps w₀ s₀ s) :
    Keeps w₀ s₀ (auditStart c n blks s) := by
  unfold auditStart
  repeat' with_reducible first
    | assumption | apply auditBlks_keeps (hw₀.sub rfl) | split | apply keeps_cul (hw₀.sub rfl)

theorem auditAbort_keeps
    (hw₀ : Has 0x1000000000000000000000000000000000000000000000000000000000000000000000000000000000020000 w₀) (g : Nat)
    {s : State} (h₀ : Keeps w₀ s₀ s) :
    Keeps w₀ s₀ (auditAbort g s) := by
  unfold auditAbort
  repeat' with_reducible first
    | assumption | refine incr_keeps (hw₀.sub rfl) _ _ reg_CULVERT_AUDIT_ABORT ?_ | split | apply keeps_cul (hw₀.sub rfl)

theorem checkTwin.twinErr_keeps
    (hw₀ : Has 0x1c0000000000000000000000000000000000000000000000000000000000000000000000000000000080000000000 w₀)
    (code i : Nat) {s : State} (h₀ : Keeps w₀ s₀ s) :
    Keeps w₀ s₀ (checkTwin.twinErr code i s) := by
  unfold checkTwin.twinErr
  repeat' with_reducible first
    | assumption | apply keeps_ite
    | refine setEvt_keeps (p := 9) (hw₀.sub rfl) (hw₀.sub rfl) _ _ (by with_unfolding_all rfl) reg_pendFld9 ?_
    | refine setF_keeps (hw₀.sub rfl) _ _ _ reg_CULVERT_ERR_INFO_CODE ?_
    | refine setF_keeps (hw₀.sub rfl) _ _ _ reg_CULVERT_ERR_INFO_RECORD ?_

theorem checkTwin_keeps
    (hw₀ : Has 0x1c000000000000000000000000000000000000000004c048fc4000000000000000000000000000000080000800100 w₀)
    {s : State} (h₀ : Keeps w₀ s₀ s) :
    Keeps w₀ s₀ (checkTwin s).2 := by
  unfold checkTwin
  repeat' with_reducible first
    | assumption | dsimp only | apply checkTwin.twinErr_keeps (hw₀.sub rfl) | apply engRead_keeps (hw₀.sub rfl) | split
    | refine keeps_snd (by assumption) ?_

end Sys2Proof.Machine
end

