-- ==== Sys2Proof/Laws/KeepsCheck.lean ====
section
/-! SUPPORT. What the functions of Machine/Check.lean may change. -/

namespace Sys2Proof.Machine

set_option exponentiation.threshold 600

variable {w₀ : Nat} {s₀ : State}

theorem setRun_keeps
    (hw₀ : Has 0x6000000000000000000000000000000000000000000000000000000000000000000000000000000000000000000000000 w₀)
    (i v : Nat) {s : State} (h₀ : Keeps w₀ s₀ s) :
    Keeps w₀ s₀ (setRun i v s) := by
  unfold setRun
  repeat' with_reducible first
    | assumption | refine setF_keeps (hw₀.sub rfl) _ _ _ reg_CHECK_RUN_LO ?_
    | refine setF_keeps (hw₀.sub rfl) _ _ _ reg_CHECK_RUN_HI ?_

theorem feed_keeps
    (hw₀ : Has 0x6080000000000000000000000000000000000000000000000000000000000000000000000000000000000000000000000 w₀)
    (i : Nat) (bs : List Byte) {s : State} (h₀ : Keeps w₀ s₀ s) :
    Keeps w₀ s₀ (feed i bs s) := by
  unfold feed
  repeat' with_reducible first
    | assumption | refine addF_keeps (hw₀.sub rfl) _ _ _ reg_CHECK_BYTES ?_ | apply setRun_keeps (hw₀.sub rfl)

theorem checkWrite_keeps
    (hw₀ : Has 0x1000200040110000080100000400000200000000400000800000040000000100000000000002000000100080200000000020000000010000000001000000000000000000000 w₀)
    (r : Requester) (a off : Nat) (f : Nat → State → State) {s : State} (h₀ : Keeps w₀ s₀ s)
    (hf₀ : ∀ y0 s, Keeps w₀ s₀ s → Keeps w₀ s₀ (f y0 s)) :
    Keeps w₀ s₀ (checkWrite r a off f s) := by
  unfold checkWrite
  repeat' with_reducible first
    | assumption | intro _ | apply guarded_keeps (hw₀.sub rfl) | apply hf₀ | split

theorem execDataB_keeps
    (hw₀ : Has 0x1000200040110000080100000400000200000000406080800000040000000100000000000002000000100080200000000020000000010000000001000000000000000000000 w₀)
    (r : Requester) (a v : Nat) {s : State} (h₀ : Keeps w₀ s₀ s) :
    ∀ t₁, execDataB r a v s = .next t₁ → Keeps w₀ s₀ t₁ := by
  unfold execDataB
  intro t₁ ht
  cases ht
  repeat' with_reducible first
    | assumption | intro _ | apply checkWrite_keeps (hw₀.sub rfl) | apply feed_keeps (hw₀.sub rfl)

theorem execDataH_keeps
    (hw₀ : Has 0x1000200040110000080100000400000200000000406080800000040000000100000000000002000000100080200000000020000000010000000001000000000000000000000 w₀)
    (r : Requester) (a v : Nat) {s : State} (h₀ : Keeps w₀ s₀ s) :
    ∀ t₁, execDataH r a v s = .next t₁ → Keeps w₀ s₀ t₁ := by
  unfold execDataH
  intro t₁ ht
  cases ht
  repeat' with_reducible first
    | assumption | intro _ | apply checkWrite_keeps (hw₀.sub rfl) | apply feed_keeps (hw₀.sub rfl)

theorem execDataW_keeps
    (hw₀ : Has 0x1000200040110000080100000400000200000000406080800000040000000100000000000002000000100080200000000020000000010000000001000000000000000000000 w₀)
    (r : Requester) (a v : Nat) {s : State} (h₀ : Keeps w₀ s₀ s) :
    ∀ t₁, execDataW r a v s = .next t₁ → Keeps w₀ s₀ t₁ := by
  unfold execDataW
  intro t₁ ht
  cases ht
  repeat' with_reducible first
    | assumption | intro _ | apply checkWrite_keeps (hw₀.sub rfl) | apply feed_keeps (hw₀.sub rfl)

theorem execInit_keeps
    (hw₀ : Has 0x1000200040110000080100000400000200000000406000800000040000000100000000000002000000100080200000000020000000010000000001000000000000000000000 w₀)
    (r : Requester) (a v : Nat) {s : State} (h₀ : Keeps w₀ s₀ s) :
    ∀ t₁, execInit r a v s = .next t₁ → Keeps w₀ s₀ t₁ := by
  unfold execInit
  intro t₁ ht
  cases ht
  repeat' with_reducible first
    | assumption | intro _ | apply checkWrite_keeps (hw₀.sub rfl) | apply setRun_keeps (hw₀.sub rfl) | split

theorem checkFinal_keeps
    (hw₀ : Has 0xe0340000000000000000000000000000000000000000000000000000000000000000000000000000000000080000000000 w₀)
    (i : Nat) {s : State} (h₀ : Keeps w₀ s₀ s) :
    Keeps w₀ s₀ (checkFinal i s) := by
  unfold checkFinal
  repeat' with_reducible first
    | assumption | apply keeps_ite | refine incr_keeps (hw₀.sub rfl) _ _ reg_CHECK_FINALS ?_
    | refine setF_keeps (hw₀.sub rfl) _ _ _ reg_CHECK_RES_LO ?_ | refine setF_keeps (hw₀.sub rfl) _ _ _ reg_CHECK_RES_HI ?_
    | refine setF_keeps (hw₀.sub rfl) _ _ _ reg_CHECK_STAT_MATCH ?_
    | refine setEvt_keeps (p := 10) (hw₀.sub rfl) (hw₀.sub rfl) _ _ (by with_unfolding_all rfl) reg_pendFld10 ?_
    | refine incr_keeps (hw₀.sub rfl) _ _ reg_CHECK_MISMATCH_CNT ?_

theorem execFinal_keeps
    (hw₀ : Has 0x10002000401100000801000004000002000000004e0340800000040000000100000000000002000000100080200000000020000000010000000001000000000080000000000 w₀)
    (r : Requester) (a v : Nat) {s : State} (h₀ : Keeps w₀ s₀ s) :
    ∀ t₁, execFinal r a v s = .next t₁ → Keeps w₀ s₀ t₁ := by
  unfold execFinal
  intro t₁ ht
  cases ht
  repeat' with_reducible first
    | assumption | intro _ | apply checkWrite_keeps (hw₀.sub rfl) | apply checkFinal_keeps (hw₀.sub rfl) | split

end Sys2Proof.Machine
end

