-- ==== Sys2Proof/Laws/KeepsOwner.lean ====
section
/-! SUPPORT. What the functions of Machine/Owner.lean may change. -/

namespace Sys2Proof.Machine

set_option exponentiation.threshold 600

variable {w₀ : Nat} {s₀ : State}

theorem accTiles_keeps (hw₀ : Has 0x4c048fc4000000000000000000000000000000080000800100 w₀) (b : Blk) {s : State}
    (h₀ : Keeps w₀ s₀ s) :
    Keeps w₀ s₀ (accTiles b s).2 := by
  unfold accTiles
  repeat' with_reducible first
    | assumption | apply loadTiles_keeps (hw₀.sub rfl) | split | refine keeps_snd (by assumption) ?_

theorem accMat_keeps (hw₀ : Has 0x4c048fc4000000000000000000000000000000080000800100 w₀) (b : Blk) {s : State}
    (h₀ : Keeps w₀ s₀ s) :
    Keeps w₀ s₀ (accMat b s).2 := by
  unfold accMat
  repeat' with_reducible first
    | assumption | apply accTiles_keeps (hw₀.sub rfl) | split | refine keeps_snd (by assumption) ?_

theorem putAcc_keeps (hw₀ : Has 0x4004000000000000000000000000000000000008000000000c w₀) (b : Blk) (ts : List Mat)
    {s : State} (h₀ : Keeps w₀ s₀ s) :
    Keeps w₀ s₀ (putAcc b ts s) := by
  unfold putAcc
  repeat' with_reducible first
    | assumption | apply storeTiles_keeps (hw₀.sub rfl)

theorem armBlk_keeps (hw₀ : Has 0x4004000000000000000000000000000000000008000010000c w₀) (c n : Nat) (b : Blk) {s : State}
    (h₀ : Keeps w₀ s₀ s) :
    Keeps w₀ s₀ (armBlk c n b s) := by
  unfold armBlk
  repeat' with_reducible first
    | assumption | apply modBlk_keeps (hw₀.sub rfl) | apply storeTiles_keeps (hw₀.sub rfl)

theorem armNext_keeps (hw₀ : Has 0x4004000000000000000000000000000000000008000010000c w₀) (c n g : Nat) {s : State}
    (h₀ : Keeps w₀ s₀ s) :
    Keeps w₀ s₀ (armNext c n g s) := by
  unfold armNext
  repeat' with_reducible first
    | assumption | apply armBlk_keeps (hw₀.sub rfl) | split

theorem addInto_keeps (hw₀ : Has 0x4c048fc400000000000000000000000000000008000080010c w₀) (b : Blk) (ts : List Mat)
    {s : State} {t₀ : State} (h₀ : Keeps w₀ s₀ s) :
    addInto b ts s = some t₀ → Keeps w₀ s₀ t₀ := by
  unfold addInto
  repeat' with_reducible first
    | assumption | apply accTiles_keeps (hw₀.sub rfl) | apply putAcc_keeps (hw₀.sub rfl) | split
    | refine keeps_snd (by assumption) ?_ | (intro e; cases e)

theorem reportMissing_keeps
    (hw₀ : Has 0x2000000000000000000000000000000000000000000000002000001000000000000080000100000 w₀) (c cl : Nat)
    (x1 : List Recv) {x2 : State} (h₀ : Keeps w₀ s₀ x2) :
    Keeps w₀ s₀ (reportMissing c cl x1 x2) := by
  revert h₀
  fun_induction reportMissing c cl x1 x2 <;> intro h₀
  all_goals repeat' with_reducible first
    | apply replayDiv_keeps (hw₀.sub rfl) | apply modRecv_keeps (hw₀.sub rfl) | apply_assumption -exfalso
    | refine incr_keeps (hw₀.sub rfl) _ _ reg_COLL_STALE_REJ ?_ | split | dsimp -proj only

theorem dropCarried_keeps
    (hw₀ : Has 0x800041002000000000080000000000000000000000000000000000000000000000000000008000a100000 w₀) (c : Nat)
    (x1 : List (Recv × Recv × Xfer)) {x2 : State} (h₀ : Keeps w₀ s₀ x2) :
    Keeps w₀ s₀ (dropCarried c x1 x2) := by
  revert h₀
  fun_induction dropCarried c x1 x2 <;> intro h₀
  all_goals repeat' with_reducible first
    | apply carryDrop_keeps (hw₀.sub rfl) | apply_assumption -exfalso | split

theorem lastPartial_keeps (hw₀ : Has 0x800041002000000000080000000000000000000000000000000000000000000000000000008000a100000 w₀) (c n g : Nat) {s : State} (h₀ : Keeps w₀ s₀ s) :
    Keeps w₀ s₀ (lastPartial c n g s) := by
  unfold lastPartial
  try dsimp -proj only
  repeat' with_reducible first
    | assumption | apply dropCarried_keeps (hw₀.sub rfl) | split | dsimp -proj only

theorem stepOn_keeps (hw₀ : Has 0x800041002000000000080000000000000000000000000000000000000000000000000000008000a100000 w₀) (c n g : Nat) {s : State} (h₀ : Keeps w₀ s₀ s) :
    Keeps w₀ s₀ (stepOn c n g s) := by
  unfold stepOn
  try dsimp -proj only
  repeat' with_reducible first
    | assumption | apply lastPartial_keeps (hw₀.sub rfl) | apply modBlk_keeps (hw₀.sub rfl) | split | dsimp -proj only

theorem addNext_keeps (hw₀ : Has 0x800041202000000000080000000000000004c048fc400000000000200000100000000000008000a90010c w₀) (c n : Nat) (st : Step)
    (b : Blk) (own : Nat) {s : State} {t₀ : State} (h₀ : Keeps w₀ s₀ s) :
    addNext c n st b own s = some t₀ → Keeps w₀ s₀ t₀ := by
  unfold addNext
  repeat' with_reducible first
    | assumption | apply stepOn_keeps (hw₀.sub rfl) | apply reportMissing_keeps (hw₀.sub rfl) | apply loadTiles_keeps (hw₀.sub rfl) | split
    | refine keeps_snd (by assumption) ?_ | refine addInto_keeps (hw₀.sub rfl) _ _ ?_ (by assumption)
    | (intro _; refine addInto_keeps (hw₀.sub rfl) _ _ ?_ (by assumption)) | (intro e; cases e) | intro _
    | refine keeps_map (by assumption) ?_

theorem addCarried_keeps
    (hw₀ : Has 0x800041a02000000000080000000000000004c048fc400000000000200000100000000000008000a90010c w₀) (c n : Nat)
    (st : Step) (b : Blk) {s : State} {t₀ : State} (h₀ : Keeps w₀ s₀ s) :
    addCarried c n st b s = some t₀ → Keeps w₀ s₀ t₀ := by
  unfold addCarried
  try dsimp -proj only
  repeat' with_reducible first
    | assumption | apply reportMissing_keeps (hw₀.sub rfl) | apply dropCarried_keeps (hw₀.sub rfl)
    | apply modBlk_keeps (hw₀.sub rfl) | refine incr_keeps (hw₀.sub rfl) _ _ reg_COLL_CARRY_ADD ?_
    | apply modXfer_keeps (hw₀.sub rfl) | split | refine addInto_keeps (hw₀.sub rfl) _ _ ?_ (by assumption)
    | (intro _; refine addInto_keeps (hw₀.sub rfl) _ _ ?_ (by assumption)) | (intro e; cases e) | intro _
    | refine keeps_map (by assumption) ?_

theorem partialAdd_keeps
    (hw₀ : Has 0x800041a02000000000080000000000000004c048fc400000000000200000100000000000008000a90010c w₀)
    (c n g own : Nat) {s : State} (h₀ : Keeps w₀ s₀ s) :
    Keeps w₀ s₀ (partialAdd c n g own s) := by
  unfold partialAdd
  repeat' with_reducible first
    | assumption | intro _ | apply lastPartial_keeps (hw₀.sub rfl) | split | apply keeps_getD
    | refine addNext_keeps (hw₀.sub rfl) _ _ _ _ _ ?_ (by assumption)
    | (intro _; refine addNext_keeps (hw₀.sub rfl) _ _ _ _ _ ?_ (by assumption))
    | refine addCarried_keeps (hw₀.sub rfl) _ _ _ _ ?_ (by assumption)
    | (intro _; refine addCarried_keeps (hw₀.sub rfl) _ _ _ _ ?_ (by assumption)) | dsimp -proj only

theorem execPartialAdd_keeps
    (hw₀ : Has 0x800041a02000000000080000000000000004c048fc400000000000200000100000000000008000a90010c w₀)
    (c n g own : Nat) {s : State} (h₀ : Keeps w₀ s₀ s) :
    ∀ t₁, execPartialAdd c n g own s = .next t₁ → Keeps w₀ s₀ t₁ := by
  unfold execPartialAdd
  intro t₁ ht
  cases ht
  repeat' with_reducible first
    | assumption | apply awake_keeps | apply partialAdd_keeps (hw₀.sub rfl)

theorem bookContribs_keeps (hw₀ : Has 0x100000 w₀) (c n cl : Nat) (x1 : List Recv) {x2 : State} (h₀ : Keeps w₀ s₀ x2) :
    Keeps w₀ s₀ (bookContribs c n cl x1 x2) := by
  revert h₀
  fun_induction bookContribs c n cl x1 x2 <;> intro h₀
  all_goals repeat' with_reducible first
    | apply keeps_ite | apply jrnCtx_keeps (hw₀.sub rfl) | apply modRecv_keeps (hw₀.sub rfl) | apply_assumption -exfalso

theorem nonFinite_keeps (hw₀ : Has 0x2000000020000000000080000100000 w₀) (c n : Nat) (b : Blk) {s : State}
    (h₀ : Keeps w₀ s₀ s) :
    Keeps w₀ s₀ (nonFinite c n b s) := by
  unfold nonFinite
  repeat' with_reducible first
    | assumption | apply modBlk_keeps (hw₀.sub rfl)
    | refine setEvt_keeps (p := 1) (hw₀.sub rfl) (hw₀.sub rfl) _ _ (by with_unfolding_all rfl) reg_pendFld1 ?_
    | refine incr_keeps (hw₀.sub rfl) _ _ reg_CLUSTER_NONFINITE_BLK ?_ | split

theorem droughtWatch_keeps (hw₀ : Has 0x4004000000000000000200001008000000000008000000000c w₀) (b : Blk) (acc : List Mat)
    {s : State} (h₀ : Keeps w₀ s₀ s) :
    Keeps w₀ s₀ (droughtWatch b acc s) := by
  unfold droughtWatch
  repeat' with_reducible first
    | assumption | apply keeps_ite | apply recPut_keeps (hw₀.sub rfl)
    | refine setEvt_keeps (p := 1) (hw₀.sub rfl) (hw₀.sub rfl) _ _ (by with_unfolding_all rfl) reg_pendFld1 ?_
    | refine setF_keeps (hw₀.sub rfl) _ _ _ reg_CLUSTER_DROUGHT_LAST ?_
    | refine incr_keeps (hw₀.sub rfl) _ _ reg_CLUSTER_DROUGHT_EVT ?_

theorem ownerSumClose_keeps (hw₀ : Has 0x4c048fc40000000000020010100a000000000008000090010c w₀) (c n g : Nat) {s : State}
    (h₀ : Keeps w₀ s₀ s) :
    Keeps w₀ s₀ (ownerSumClose c n g s) := by
  unfold ownerSumClose
  repeat' with_reducible first
    | assumption | apply accTiles_keeps (hw₀.sub rfl) | apply bookContribs_keeps (hw₀.sub rfl)
    | apply armNext_keeps (hw₀.sub rfl) | apply modBlk_keeps (hw₀.sub rfl)
    | refine incr_keeps (hw₀.sub rfl) _ _ reg_CLUSTER_FROZEN_DISC ?_ | apply droughtWatch_keeps (hw₀.sub rfl)
    | apply nonFinite_keeps (hw₀.sub rfl) | split | refine keeps_snd (by assumption) ?_

theorem execOwnerSumClose_keeps (hw₀ : Has 0x4c048fc40000000000020010100a000000000008000090010c w₀) (c n g : Nat)
    {s : State} (h₀ : Keeps w₀ s₀ s) :
    ∀ t₁, execOwnerSumClose c n g s = .next t₁ → Keeps w₀ s₀ t₁ := by
  unfold execOwnerSumClose
  intro t₁ ht
  cases ht
  repeat' with_reducible first
    | assumption | apply awake_keeps | apply ownerSumClose_keeps (hw₀.sub rfl)

theorem rootDiv_keeps (hw₀ : Has 0x4000800002000001000000000000080000000000 w₀) (cl : Nat) {s : State}
    (h₀ : Keeps w₀ s₀ s) :
    Keeps w₀ s₀ (rootDiv cl s) := by
  unfold rootDiv
  repeat' with_reducible first
    | assumption | refine setEvt_keeps (p := 1) (hw₀.sub rfl) (hw₀.sub rfl) _ _ (by with_unfolding_all rfl) reg_pendFld1 ?_
    | refine incr_keeps (hw₀.sub rfl) _ _ reg_CLUSTER_REPLAY_DIV_CNT ?_
    | refine setEvt_keeps (p := 2) (hw₀.sub rfl) (hw₀.sub rfl) _ _ (by with_unfolding_all rfl) reg_pendFld2 ?_
    | refine incr_keeps (hw₀.sub rfl) _ _ reg_ROOTSEQ_REPLAY_DIV ?_

theorem ownCounts_keeps (hw₀ : Has 0xe0040000000000000000 w₀) (u : Nat) (x1 : List TileRun) {x2 : State} (h₀ : Keeps w₀ s₀ x2) :
    Keeps w₀ s₀ (ownCounts u x1 x2) := by
  revert h₀
  fun_induction ownCounts u x1 x2 <;> intro h₀
  all_goals repeat' with_reducible first
    | apply keeps_ite | apply acceptCounts_keeps (hw₀.sub rfl) | apply_assumption -exfalso | split

theorem ownDesc_keeps (hw₀ : Has 0x2e2050000080000004000 w₀) (fp32 : Bool) (c n u : Nat) (os : List TileOps) {s : State} (h₀ : Keeps w₀ s₀ s) :
    Keeps w₀ s₀ (ownDesc fp32 c n u os s).2 := by
  unfold ownDesc
  try dsimp -proj only
  repeat' with_reducible first
    | assumption | refine incr_keeps (hw₀.sub rfl) _ _ reg_TUNIT_DESC_DONE ?_
    | refine setF_keeps (hw₀.sub rfl) _ _ _ reg_TUNIT_LAST_STAT ?_
    | refine setEvt_keeps (p := 0) (hw₀.sub rfl) (hw₀.sub rfl) _ _ (by with_unfolding_all rfl) reg_pendFld0 ?_
    | apply tallyAdd_keeps (hw₀.sub rfl) | apply ownCounts_keeps (hw₀.sub rfl) | split | dsimp -proj only

theorem ownDescs_keeps (hw₀ : Has 0x2e2050000080000004000 w₀) (fp32 : Bool) (c n cl : Nat) (us : List Nat) (x1 : Nat) (x2 : List (List TileOps)) {x3 : State} (h₀ : Keeps w₀ s₀ x3) :
    Keeps w₀ s₀ (ownDescs fp32 c n cl us x1 x2 x3).2 := by
  revert h₀
  fun_induction ownDescs fp32 c n cl us x1 x2 x3 <;> intro h₀
  all_goals repeat' with_reducible first
    | apply keeps_ite | apply ownDesc_keeps (hw₀.sub rfl) | apply_assumption -exfalso | split

theorem ownProds_keeps (hw₀ : Has 0x2e2050000080000004000 w₀) (fp32 : Bool) (c n cl : Nat) (us : List Nat) (ps : List (List TileOps)) {s : State} (h₀ : Keeps w₀ s₀ s) :
    Keeps w₀ s₀ (ownProds fp32 c n cl us ps s).2 := by
  unfold ownProds
  try dsimp -proj only
  repeat' with_reducible first
    | assumption | apply ownDescs_keeps (hw₀.sub rfl) | split | dsimp -proj only

theorem rungProds_keeps (hw₀ : Has 0x2e2050000080000004000 w₀) (rung c n : Nat) (b : Blk) (us : List Nat) (G Lr Rr : Mat) {s : State} (h₀ : Keeps w₀ s₀ s) :
    Keeps w₀ s₀ (rungProds rung c n b us G Lr Rr s).2 := by
  unfold rungProds
  try dsimp -proj only
  repeat' with_reducible first
    | assumption | apply ownProds_keeps (hw₀.sub rfl) | split | dsimp -proj only

theorem exhOp5_keeps (hw₀ : Has 0x2000000010000000000080000000000 w₀) (cl : Nat) {s : State} (h₀ : Keeps w₀ s₀ s) :
    Keeps w₀ s₀ (exhOp5 cl s) := by
  unfold exhOp5
  try dsimp -proj only
  repeat' with_reducible first
    | assumption | refine incr_keeps (hw₀.sub rfl) _ _ reg_CLUSTER_SPILL_EXH ?_
    | refine setEvt_keeps (p := 1) (hw₀.sub rfl) (hw₀.sub rfl) _ _ (by with_unfolding_all rfl) reg_pendFld1 ?_ | split
    | dsimp -proj only

theorem spillOp5_keeps (hw₀ : Has 0x20000e0018000000000080000100000 w₀) (c : Nat) (b : Blk) (h : List Byte) (exh : Bool) {s : State} (h₀ : Keeps w₀ s₀ s) :
    Keeps w₀ s₀ (spillOp5 c b h exh s) := by
  unfold spillOp5
  repeat' with_reducible first
    | assumption
    | refine setEvt_keeps (p := 1) (hw₀.sub rfl) (hw₀.sub rfl) _ _ (by with_unfolding_all rfl) reg_pendFld1 ?_
    | refine setF_keeps (hw₀.sub rfl) _ _ _ reg_CLUSTER_SPILL_LAST_GROUP ?_
    | refine setF_keeps (hw₀.sub rfl) _ _ _ reg_CLUSTER_SPILL_LAST_RUNG ?_
    | refine setF_keeps (hw₀.sub rfl) _ _ _ reg_CLUSTER_SPILL_LAST_EXH ?_
    | refine incr_keeps (hw₀.sub rfl) _ _ reg_CLUSTER_SPILL_GROUPS ?_ | apply jrnCtx_keeps (hw₀.sub rfl)
    | apply exhOp5_keeps (hw₀.sub rfl) | split | dsimp -proj only

theorem formRung1_keeps (hw₀ : Has 0x20000e10183e2050000080000104000 w₀) (c n : Nat) (b : Blk) (h : List Byte) (us : List Nat) (G Lr Rr : Mat) {s : State} (h₀ : Keeps w₀ s₀ s) :
    Keeps w₀ s₀ (formRung1 c n b h us G Lr Rr s).2 := by
  unfold formRung1
  try dsimp -proj only
  repeat' with_reducible first
    | assumption | apply rungProds_keeps (hw₀.sub rfl) | apply spillOp5_keeps (hw₀.sub rfl)
    | apply settleOuts_keeps (hw₀.sub rfl) | split | dsimp -proj only

theorem formP_keeps (hw₀ : Has 0x20000e10183e2050000080000104000 w₀) (c n : Nat) (b : Blk) (h : List Byte) (us : List Nat) (G Lr Rr : Mat) {s : State} (h₀ : Keeps w₀ s₀ s) :
    Keeps w₀ s₀ (formP c n b h us G Lr Rr s).2 := by
  unfold formP
  repeat' with_reducible first
    | assumption | dsimp only | apply replayDiv_keeps (hw₀.sub rfl) | apply formRung1_keeps (hw₀.sub rfl)
    | apply rungProds_keeps (hw₀.sub rfl) | apply settleOuts_keeps (hw₀.sub rfl) | apply exhOp5_keeps (hw₀.sub rfl)
    | split | dsimp -proj only

theorem rootUse_keeps (hw₀ : Has 0x100000 w₀) (c n : Nat) (b : Blk) {s : State} (h₀ : Keeps w₀ s₀ s) :
    Keeps w₀ s₀ (rootUse c n b s) := by
  unfold rootUse
  repeat' with_reducible first
    | assumption | apply jrnCtx_keeps (hw₀.sub rfl)

theorem opFiveRun_keeps (hw₀ : Has 0x10f01000000040002000000000080000000000000004c048fc40000000000020000e10383e205000008000a924100 w₀) (c n : Nat) (b : Blk) (h : List Byte) (us : List Nat) {s : State} (h₀ : Keeps w₀ s₀ s) :
    Keeps w₀ s₀ (opFiveRun c n b h us s) := by
  unfold opFiveRun
  try dsimp -proj only
  repeat' with_reducible first
    | assumption | apply modBlk_keeps (hw₀.sub rfl) | apply rootUse_keeps (hw₀.sub rfl)
    | apply ownedTiles_keeps (hw₀.sub rfl) | apply accMat_keeps (hw₀.sub rfl) | apply formP_keeps (hw₀.sub rfl)
    | apply nonFinite_keeps (hw₀.sub rfl) | split | refine keeps_snd (by assumption) ?_ | dsimp -proj only

theorem opFiveHdr_keeps (hw₀ : Has 0x10f01000000040002000000000080000000000000004c048fc40000000000020001e10383e205000008000a924100 w₀) (c n : Nat) (b : Blk) (h : List Byte) (us : List Nat) {s : State} (h₀ : Keeps w₀ s₀ s) :
    Keeps w₀ s₀ (opFiveHdr c n b h us s) := by
  unfold opFiveHdr
  try dsimp -proj only
  repeat' with_reducible first
    | assumption | refine setF_keeps (hw₀.sub rfl) _ _ _ reg_CLUSTER_CVT_ERR_CODE ?_
    | refine setEvt_keeps (p := 1) (hw₀.sub rfl) (hw₀.sub rfl) _ _ (by with_unfolding_all rfl) reg_pendFld1 ?_
    | apply opFiveRun_keeps (hw₀.sub rfl) | split | dsimp -proj only

theorem precondition_keeps (hw₀ : Has 0x10f01000000040002000000000080000000000000004c048fc40040008000020001e10383e205000008000a934100 w₀) (c n g hdr : Nat) (us : List Nat) {s : State} (h₀ : Keeps w₀ s₀ s) :
    Keeps w₀ s₀ (precondition c n g hdr us s) := by
  unfold precondition
  repeat' with_reducible first
    | assumption | apply keeps_ite | apply modBlk_keeps (hw₀.sub rfl) | apply modSeq_keeps (hw₀.sub rfl)
    | apply rootDiv_keeps (hw₀.sub rfl) | apply opFiveHdr_keeps (hw₀.sub rfl) | split

theorem execPrecondition_keeps (hw₀ : Has 0x10f01000000040002000000000080000000000000004c048fc40040008000020001e10383e205000008000a934100 w₀) (c n : Nat) (g : PreWork) {s : State} (h₀ : Keeps w₀ s₀ s) :
    ∀ t₁, execPrecondition c n g s = .next t₁ → Keeps w₀ s₀ t₁ := by
  unfold execPrecondition
  intro t₁ ht
  cases ht
  repeat' with_reducible first
    | assumption | apply awake_keeps | apply precondition_keeps (hw₀.sub rfl)

theorem storeWeights_keeps (hw₀ : Has 0x4004000000000000000000000000000000000008000000000c w₀) (b : Blk) (gap : Option
    (List Byte)) (a x1 : Nat) (x2 : List (List Byte)) {x3 : State} (h₀ : Keeps w₀ s₀ x3) :
    Keeps w₀ s₀ (storeWeights b gap a x1 x2 x3) := by
  revert h₀
  fun_induction storeWeights b gap a x1 x2 x3 <;> intro h₀
  all_goals repeat' with_reducible first
    | apply keeps_ite | apply memStore_keeps (hw₀.sub rfl) | apply_assumption -exfalso

theorem moveUpdExp_keeps (hw₀ : Has 0x4004000000000000000000000010000000000008000000000c w₀) (b : Blk) (W D : List FV)
    {s : State} (h₀ : Keeps w₀ s₀ s) :
    Keeps w₀ s₀ (moveUpdExp b W D s) := by
  unfold moveUpdExp
  repeat' with_reducible first
    | assumption | apply keeps_ite | refine incr_keeps (hw₀.sub rfl) _ _ reg_CLUSTER_UE_MOVES ?_
    | apply recPut_keeps (hw₀.sub rfl) | split

theorem rootBehind_keeps (hw₀ : Has 0x4004000000000000000000000000000000000008000000000c w₀) (b : Blk) {s : State}
    (h₀ : Keeps w₀ s₀ s) :
    Keeps w₀ s₀ (rootBehind b s) := by
  unfold rootBehind
  repeat' with_reducible first
    | assumption | apply recPut_keeps (hw₀.sub rfl)

theorem dipCommit_keeps (hw₀ : Has 0x200000000 w₀) (b : Blk) {s : State} (h₀ : Keeps w₀ s₀ s) :
    Keeps w₀ s₀ (dipCommit b s) := by
  unfold dipCommit
  repeat' with_reducible first
    | assumption | apply keeps_pow (hw₀.sub rfl)

theorem commitRun_keeps
    (hw₀ : Has 0x100000000000000000000000000000000000004004000000000000000200000016000000000008020012000c w₀) (c n : Nat)
    (st : Step) (b : Blk) (tiles : List (List Byte)) {s : State} (h₀ : Keeps w₀ s₀ s) :
    Keeps w₀ s₀ (commitRun c n st b tiles s) := by
  unfold commitRun
  repeat' with_reducible first
    | assumption | apply auditAbort_keeps (hw₀.sub rfl) | apply modCtx_keeps (hw₀.sub rfl)
    | apply nonFinite_keeps (hw₀.sub rfl) | apply dipCommit_keeps (hw₀.sub rfl) | apply storeWeights_keeps (hw₀.sub rfl)
    | refine setEvt_keeps (p := 1) (hw₀.sub rfl) (hw₀.sub rfl) _ _ (by with_unfolding_all rfl) reg_pendFld1 ?_
    | refine addF_keeps (hw₀.sub rfl) _ _ _ reg_CLUSTER_W24_SAT ?_ | apply recPut_keeps (hw₀.sub rfl)
    | apply moveUpdExp_keeps (hw₀.sub rfl) | apply rootBehind_keeps (hw₀.sub rfl) | apply modBlk_keeps (hw₀.sub rfl) | split

theorem commit_keeps
    (hw₀ : Has 0x10f01100000040002000000000080000000000000004c048fc400000000000200000016000000000008020a92010c w₀)
    (c n g : Nat) {s : State} (h₀ : Keeps w₀ s₀ s) :
    Keeps w₀ s₀ (commit c n g s) := by
  unfold commit
  repeat' with_reducible first
    | assumption | apply wholeBuf_keeps (hw₀.sub rfl) | apply commitRun_keeps (hw₀.sub rfl) | split
    | refine keeps_snd (by assumption) ?_

theorem execCommit_keeps
    (hw₀ : Has 0x10f01100000040002000000000080000000000000004c048fc400000000000200000016000000000008020a92010c w₀)
    (c n g : Nat) {s : State} (h₀ : Keeps w₀ s₀ s) :
    ∀ t₁, execCommit c n g s = .next t₁ → Keeps w₀ s₀ t₁ := by
  unfold execCommit
  intro t₁ ht
  cases ht
  repeat' with_reducible first
    | assumption | apply awake_keeps | apply commit_keeps (hw₀.sub rfl)

theorem mirrorSend_keeps
    (hw₀ : Has 0x10f01000000040002000000000080000000000000004c048fc400000000000000000000000000000008000a920100 w₀)
    (c n g : Nat) {s : State} (h₀ : Keeps w₀ s₀ s) :
    Keeps w₀ s₀ (mirrorSend c n g s) := by
  unfold mirrorSend
  repeat' with_reducible first
    | assumption | apply wholeBuf_keeps (hw₀.sub rfl) | apply modBlk_keeps (hw₀.sub rfl)
    | apply sendWeights_keeps (hw₀.sub rfl) | split | refine keeps_snd (by assumption) ?_

theorem execMirrorSend_keeps
    (hw₀ : Has 0x10f01000000040002000000000080000000000000004c048fc400000000000000000000000000000008000a920100 w₀)
    (c n g : Nat) {s : State} (h₀ : Keeps w₀ s₀ s) :
    ∀ t₁, execMirrorSend c n g s = .next t₁ → Keeps w₀ s₀ t₁ := by
  unfold execMirrorSend
  intro t₁ ht
  cases ht
  repeat' with_reducible first
    | assumption | apply awake_keeps | apply mirrorSend_keeps (hw₀.sub rfl)

theorem formGrams_keeps (hw₀ : Has 0x20000010003e2050000080000104000 w₀) (c n : Nat) (b : Blk) (us : List Nat) (G : Mat) {s : State} (h₀ : Keeps w₀ s₀ s) :
    Keeps w₀ s₀ (formGrams c n b us G s) := by
  unfold formGrams
  try dsimp -proj only
  repeat' with_reducible first
    | assumption | apply ownProds_keeps (hw₀.sub rfl) | apply settleOuts_keeps (hw₀.sub rfl) | split
    | dsimp -proj only

theorem snapSkip_keeps (hw₀ : Has 0x800000000000000000000100000 w₀) (c n : Nat) (b : Blk) {s : State} (h₀ : Keeps w₀ s₀ s) :
    Keeps w₀ s₀ (snapSkip c n b s) := by
  unfold snapSkip
  repeat' with_reducible first
    | assumption | apply jrnCtx_keeps (hw₀.sub rfl) | refine incr_keeps (hw₀.sub rfl) _ _ reg_CLUSTER_SNAP_SKIP ?_

theorem snapTake_keeps (hw₀ : Has 0x4004000000000000000000040000000000000008000001000c w₀) (c n : Nat) (b : Blk)
    {s : State} (h₀ : Keeps w₀ s₀ s) :
    Keeps w₀ s₀ (snapTake c n b s) := by
  unfold snapTake
  repeat' with_reducible first
    | assumption | apply recPut_keeps (hw₀.sub rfl) | apply modSeq_keeps (hw₀.sub rfl)
    | refine incr_keeps (hw₀.sub rfl) _ _ reg_CLUSTER_SNAP_TAKEN ?_

theorem storeFactors_keeps (hw₀ : Has 0x4004000000000000000000000000000000000008000000000c w₀) (b : Blk) (gap : Option
    (List Byte)) (a x1 : Nat) (x2 : List (List Byte)) {x3 : State} (h₀ : Keeps w₀ s₀ x3) :
    Keeps w₀ s₀ (storeFactors b gap a x1 x2 x3) := by
  revert h₀
  fun_induction storeFactors b gap a x1 x2 x3 <;> intro h₀
  all_goals repeat' with_reducible first
    | apply memStore_keeps (hw₀.sub rfl) | apply_assumption -exfalso | split

theorem keepCrcs_keeps (hw₀ : Has 0x20000 w₀) (g kind : Nat) (tiles : List (List Byte)) {s : State} (h₀ : Keeps w₀ s₀ s) :
    Keeps w₀ s₀ (keepCrcs g kind tiles s) := by
  unfold keepCrcs
  repeat' with_reducible first
    | assumption | apply keeps_cul (hw₀.sub rfl)

theorem dropWide_keeps (hw₀ : Has 0x1890000000008000 w₀) (rg : Nat) (x1 : Nat) {x2 : State} (h₀ : Keeps w₀ s₀ x2) :
    Keeps w₀ s₀ (dropWide rg x1 x2) := by
  revert h₀
  fun_induction dropWide rg x1 x2 <;> intro h₀
  all_goals repeat' with_reducible first
    | apply modUnit_keeps (hw₀.sub rfl) | apply_assumption -exfalso

theorem clearWip_keeps (hw₀ : Has 0x4004000000000000000000000000000000000008000000000c w₀) (b : Blk) {s : State}
    (h₀ : Keeps w₀ s₀ s) :
    Keeps w₀ s₀ (clearWip b s) := by
  unfold clearWip
  repeat' with_reducible first
    | assumption | apply memStore_keeps (hw₀.sub rfl)

theorem showSeq_keeps (hw₀ : Has 0x800000640000000000000000000000000000000 w₀) (rg : Nat) {s : State} (h₀ : Keeps w₀ s₀ s) :
    Keeps w₀ s₀ (showSeq rg s) := by
  unfold showSeq
  repeat' with_reducible first
    | assumption | refine setF_keeps (hw₀.sub rfl) _ _ _ reg_ROOTSEQ_STAT_BUSY ?_
    | refine setF_keeps (hw₀.sub rfl) _ _ _ reg_ROOTSEQ_STAT_PHASE ?_
    | refine setF_keeps (hw₀.sub rfl) _ _ _ reg_ROOTSEQ_STAT_SIDE ?_
    | refine setF_keeps (hw₀.sub rfl) _ _ _ reg_ROOTSEQ_CUR_GBI ?_ | split

theorem putJob_keeps (hw₀ : Has 0x800000640000000000000000000000000010000 w₀) (rg : Nat) (j : Option Job) {s : State}
    (h₀ : Keeps w₀ s₀ s) :
    Keeps w₀ s₀ (putJob rg j s) := by
  unfold putJob
  repeat' with_reducible first
    | assumption | apply showSeq_keeps (hw₀.sub rfl) | apply modSeq_keeps (hw₀.sub rfl)

theorem abandonRoot_keeps (hw₀ : Has 0x4004000000080000064000000000000000189008000001800c w₀) (c : Nat) (b : Blk)
    {s : State} (h₀ : Keeps w₀ s₀ s) :
    Keeps w₀ s₀ (abandonRoot c b s) := by
  unfold abandonRoot
  repeat' with_reducible first
    | assumption | apply dropWide_keeps (hw₀.sub rfl) | apply modSeq_keeps (hw₀.sub rfl)
    | apply clearWip_keeps (hw₀.sub rfl) | apply putJob_keeps (hw₀.sub rfl) | split | dsimp -proj only

theorem factorWrite_keeps
    (hw₀ : Has 0x400020000000000800000000000000040040000000800000642000e0120000000189008000a13800c w₀) (c n : Nat)
    (st : Step) (b : Blk) (gap : Option (List Byte)) (new : Option (List Mat)) (old : List (List Byte)) {s : State}
    (h₀ : Keeps w₀ s₀ s) :
    Keeps w₀ s₀ (factorWrite c n st b gap new old s) := by
  unfold factorWrite
  repeat' with_reducible first
    | assumption | apply keeps_ite | apply replayDiv_keeps (hw₀.sub rfl)
    | refine incr_keeps (hw₀.sub rfl) _ _ reg_CLUSTER_SCALE_DIVERGE ?_ | apply storeFactors_keeps (hw₀.sub rfl)
    | apply storeTiles_keeps (hw₀.sub rfl) | refine incr_keeps (hw₀.sub rfl) _ _ reg_CLUSTER_FACTOR_UPD ?_
    | apply recPut_keeps (hw₀.sub rfl) | apply snapTake_keeps (hw₀.sub rfl) | apply snapSkip_keeps (hw₀.sub rfl)
    | apply abandonRoot_keeps (hw₀.sub rfl) | apply modBlk_keeps (hw₀.sub rfl) | apply keepCrcs_keeps (hw₀.sub rfl)
    | apply sendFactors_keeps (hw₀.sub rfl)

theorem factorUpdate_keeps (hw₀ : Has 0x10f01000000040002000000000080000000000000004c048fc4000800000642000e012203e205189008000a93c10c w₀) (c n g : Nat) (us : List Nat) {s : State} (h₀ : Keeps w₀ s₀ s) :
    Keeps w₀ s₀ (factorUpdate c n g us s) := by
  unfold factorUpdate
  repeat' with_reducible first
    | assumption | apply keeps_ite | apply armNext_keeps (hw₀.sub rfl) | apply modBlk_keeps (hw₀.sub rfl)
    | apply wholeBuf_keeps (hw₀.sub rfl) | apply factorWrite_keeps (hw₀.sub rfl) | apply accMat_keeps (hw₀.sub rfl)
    | apply nonFinite_keeps (hw₀.sub rfl) | apply formGrams_keeps (hw₀.sub rfl) | split
    | refine keeps_snd (by assumption) ?_

theorem execFactorUpdate_keeps (hw₀ : Has 0x10f01000000040002000000000080000000000000004c048fc4000800000642000e012203e205189008000a93c10c w₀) (c n : Nat) (g : FacWork) {s : State} (h₀ : Keeps w₀ s₀ s) :
    ∀ t₁, execFactorUpdate c n g s = .next t₁ → Keeps w₀ s₀ t₁ := by
  unfold execFactorUpdate
  intro t₁ ht
  cases ht
  repeat' with_reducible first
    | assumption | apply awake_keeps | apply factorUpdate_keeps (hw₀.sub rfl)

end Sys2Proof.Machine
end

