-- ==== Sys2Proof/Laws/KeepsRootseq.lean ====
section
/-! SUPPORT. What the functions of Machine/Rootseq.lean may change. -/

namespace Sys2Proof.Machine

set_option exponentiation.threshold 600

variable {w₀ : Nat} {s₀ : State}

theorem rootJobScan_keeps (hw₀ : Has 0x800000640000000000000000000000000010000 w₀) (rg : Nat) {s : State}
    (h₀ : Keeps w₀ s₀ s) :
    Keeps w₀ s₀ (rootJobScan rg s) := by
  unfold rootJobScan
  repeat' with_reducible first
    | assumption | apply keeps_ite | apply putJob_keeps (hw₀.sub rfl) | apply modSeq_keeps (hw₀.sub rfl) | split

theorem execRootJobScan_keeps (hw₀ : Has 0x800000640000000000000000000000000010000 w₀) (rg : Nat) {s : State}
    (h₀ : Keeps w₀ s₀ s) :
    ∀ t₁, execRootJobScan rg s = .next t₁ → Keeps w₀ s₀ t₁ := by
  unfold execRootJobScan
  intro t₁ ht
  cases ht
  repeat' with_reducible first
    | assumption | apply runningIn_keeps | apply rootJobScan_keeps (hw₀.sub rfl)

theorem saveJob_keeps (hw₀ : Has 0x4004000000080000064000000000000000000008000001000c w₀) (rg : Nat) (j : Job) {s : State}
    (h₀ : Keeps w₀ s₀ s) :
    Keeps w₀ s₀ (saveJob rg j s) := by
  unfold saveJob
  repeat' with_reducible first
    | assumption | apply putJob_keeps (hw₀.sub rfl) | apply memStore_keeps (hw₀.sub rfl)

theorem rootEvt_keeps (hw₀ : Has 0x100000 w₀) (rg : Nat) (j : Job) (step kind reason side resLog : Nat) {s : State}
    (h₀ : Keeps w₀ s₀ s) :
    Keeps w₀ s₀ (rootEvt rg j step kind reason side resLog s) := by
  unfold rootEvt
  repeat' with_reducible first
    | assumption | apply jrnCtx_keeps (hw₀.sub rfl)

theorem bookTaken_keeps (hw₀ : Has 0x10000 w₀) (rg : Nat) (j : Job) {s : State} (h₀ : Keeps w₀ s₀ s) :
    Keeps w₀ s₀ (bookTaken rg j s) := by
  unfold bookTaken
  try dsimp -proj only
  repeat' with_reducible first
    | assumption | apply modSeq_keeps (hw₀.sub rfl) | split | dsimp -proj only

theorem rejectJob_keeps (hw₀ : Has 0x40040000005800013e4000000000000000189008000011800c w₀) (rg : Nat) (j : Job)
    (reason side resLog : Nat) {s : State} (h₀ : Keeps w₀ s₀ s) :
    Keeps w₀ s₀ (rejectJob rg j reason side resLog s) := by
  unfold rejectJob
  repeat' with_reducible first
    | assumption | apply keeps_ite | apply dropWide_keeps (hw₀.sub rfl) | apply recPut_keeps (hw₀.sub rfl)
    | apply clearWip_keeps (hw₀.sub rfl)
    | refine setEvt_keeps (p := 2) (hw₀.sub rfl) (hw₀.sub rfl) _ _ (by with_unfolding_all rfl) reg_pendFld2 ?_
    | refine incr_keeps (hw₀.sub rfl) _ _ reg_ROOTSEQ_ROOT_REJ ?_
    | refine setF_keeps (hw₀.sub rfl) _ _ _ reg_ROOTSEQ_ERR_INFO_REASON ?_
    | refine setF_keeps (hw₀.sub rfl) _ _ _ reg_ROOTSEQ_ERR_INFO_SIDE ?_
    | refine setF_keeps (hw₀.sub rfl) _ _ _ reg_ROOTSEQ_ERR_INFO_RES_LOG ?_
    | refine setF_keeps (hw₀.sub rfl) _ _ _ reg_ROOTSEQ_LAST_REJ ?_ | apply rootEvt_keeps (hw₀.sub rfl)
    | apply modSeq_keeps (hw₀.sub rfl) | apply putJob_keeps (hw₀.sub rfl) | apply bookTaken_keeps (hw₀.sub rfl)

theorem failJob_keeps (hw₀ : Has 0x40040000005800813e4200000100000000189008000011800c w₀) (rg : Nat) (j : Job)
    (reason resLog : Nat) {s : State} (h₀ : Keeps w₀ s₀ s) :
    Keeps w₀ s₀ (failJob rg j reason resLog s) := by
  unfold failJob
  repeat' with_reducible first
    | assumption | apply rootDiv_keeps (hw₀.sub rfl) | apply rejectJob_keeps (hw₀.sub rfl) | split

theorem putMat_keeps (hw₀ : Has 0x4004000000000000000000000000000000000008000000000c w₀) (rg n k : Nat) (M : IMat)
    {s : State} (h₀ : Keeps w₀ s₀ s) :
    Keeps w₀ s₀ (putMat rg n k M s) := by
  unfold putMat
  repeat' with_reducible first
    | assumption | apply memStore_keeps (hw₀.sub rfl)

theorem getMat_keeps (hw₀ : Has 0x4c048fc4000000000000000000000000000000080000800100 w₀) (rg n k : Nat) {s : State}
    (h₀ : Keeps w₀ s₀ s) :
    Keeps w₀ s₀ (getMat rg n k s).2 := by
  unfold getMat
  repeat' with_reducible first
    | assumption | apply engRead_keeps (hw₀.sub rfl) | split | refine keeps_snd (by assumption) ?_

theorem withMats.go_keeps (hw₀ : Has 0x4c048fc4005800813e4200000100000000189008000091810c w₀) (rg : Nat) (j : Job)
    (f : List IMat → State → State) (x1 : List Nat) (x2 : List IMat) {x3 : State} (h₀ : Keeps w₀ s₀ x3)
    (hf₀ : ∀ y0 s, Keeps w₀ s₀ s → Keeps w₀ s₀ (f y0 s)) :
    Keeps w₀ s₀ (withMats.go rg j f x1 x2 x3) := by
  revert h₀
  fun_induction withMats.go rg j f x1 x2 x3 <;> intro h₀
  all_goals repeat' with_reducible first
    | apply getMat_keeps (hw₀.sub rfl) | apply failJob_keeps (hw₀.sub rfl) | apply hf₀ | apply_assumption -exfalso
    | refine keeps_snd (by assumption) ?_

theorem withMats_keeps (hw₀ : Has 0x4c048fc4005800813e4200000100000000189008000091810c w₀) (rg : Nat) (j : Job)
    (ks : List Nat) (f : List IMat → State → State) {s : State} (h₀ : Keeps w₀ s₀ s)
    (hf₀ : ∀ y0 s, Keeps w₀ s₀ s → Keeps w₀ s₀ (f y0 s)) :
    Keeps w₀ s₀ (withMats rg j ks f s) := by
  unfold withMats
  repeat' with_reducible first
    | assumption | apply withMats.go_keeps (hw₀.sub rfl) | apply hf₀

theorem preScale_keeps (hw₀ : Has 0x4004000000080000064000000000000000000008000001000c w₀) (rg : Nat) (j : Job) (A : Mat)
    {s : State} (h₀ : Keeps w₀ s₀ s) :
    Keeps w₀ s₀ (preScale rg j A s) := by
  unfold preScale
  repeat' with_reducible first
    | assumption | apply keeps_ite | apply putMat_keeps (hw₀.sub rfl) | apply saveJob_keeps (hw₀.sub rfl)

theorem withFactor_keeps (hw₀ : Has 0x4c048fc4005800813e4200000100000000189008000091810c w₀) (rg : Nat) (j : Job) (f : Mat → State → State) {s : State} (h₀ : Keeps w₀ s₀ s) (hf₀ : ∀ y0 s, Keeps w₀ s₀ s → Keeps w₀ s₀ (f y0 s)) :
    Keeps w₀ s₀ (withFactor rg j f s) := by
  unfold withFactor
  try dsimp -proj only
  repeat' with_reducible first
    | assumption | intro _ | apply hf₀ | apply loadTiles_keeps (hw₀.sub rfl) | apply failJob_keeps (hw₀.sub rfl)
    | split | refine keeps_snd (by assumption) ?_ | dsimp -proj only

theorem judgeRight_keeps (hw₀ : Has 0x4c048fc4005800813e4200000100000000189008000091810c w₀) (rg : Nat) (j : Job) (f : State → State) {s : State} (h₀ : Keeps w₀ s₀ s) (hf₀ : ∀ s, Keeps w₀ s₀ s → Keeps w₀ s₀ (f s)) :
    Keeps w₀ s₀ (judgeRight rg j f s) := by
  unfold judgeRight
  try dsimp -proj only
  repeat' with_reducible first
    | assumption | intro _ | apply hf₀ | apply withFactor_keeps (hw₀.sub rfl) | apply failJob_keeps (hw₀.sub rfl)
    | split | dsimp -proj only

theorem rootJobStart_keeps (hw₀ : Has 0x4c048fc4005800817e4200000100000000189008000091810c w₀) (rg : Nat) {s : State}
    (h₀ : Keeps w₀ s₀ s) :
    Keeps w₀ s₀ (rootJobStart rg s) := by
  unfold rootJobStart
  try dsimp -proj only
  repeat' with_reducible first
    | assumption | intro _ | refine incr_keeps (hw₀.sub rfl) _ _ reg_ROOTSEQ_JOB_START ?_ | apply failJob_keeps (hw₀.sub rfl)
    | apply preScale_keeps (hw₀.sub rfl) | apply putJob_keeps (hw₀.sub rfl) | apply withFactor_keeps (hw₀.sub rfl)
    | apply judgeRight_keeps (hw₀.sub rfl) | split | refine keeps_snd (by assumption) ?_ | dsimp -proj only

theorem execRootJobStart_keeps (hw₀ : Has 0x4c048fc4005800817e4200000100000000189008000091810c w₀) (rg : Nat) {s : State}
    (h₀ : Keeps w₀ s₀ s) :
    ∀ t₁, execRootJobStart rg s = .next t₁ → Keeps w₀ s₀ t₁ := by
  unfold execRootJobStart
  intro t₁ ht
  cases ht
  repeat' with_reducible first
    | assumption | apply runningIn_keeps | apply rootJobStart_keeps (hw₀.sub rfl)

theorem stageIn_keeps (hw₀ : Has 0x4c048fc4000000000000000000000000000000080000800110 w₀) (rg cl : Nat) (x1 : List Stage) {x2 : State} (h₀ : Keeps w₀ s₀ x2) :
    Keeps w₀ s₀ (stageIn rg cl x1 x2).2 := by
  revert h₀
  fun_induction stageIn rg cl x1 x2 <;> intro h₀
  all_goals repeat' with_reducible first
    | apply keeps_ite | apply engRead_keeps (hw₀.sub rfl) | apply sramWrite_keeps (hw₀.sub rfl)
    | apply_assumption -exfalso | split | refine keeps_snd (by assumption) ?_

theorem wideIssue_keeps (hw₀ : Has 0x400000000000000000001890000000018000 w₀) (rg u : Nat) (j : Job) (d : List Byte) {s : State} (h₀ : Keeps w₀ s₀ s) :
    Keeps w₀ s₀ (wideIssue rg u j d s) := by
  unfold wideIssue
  try dsimp -proj only
  repeat' with_reducible first
    | assumption | refine incr_keeps (hw₀.sub rfl) _ _ reg_ROOTSEQ_WIDE_ISSUED ?_ | apply modUnit_keeps (hw₀.sub rfl)
    | apply modSeq_keeps (hw₀.sub rfl) | split | dsimp -proj only

theorem wideDescIssue_keeps (hw₀ : Has 0x4c048fc4005800c13e4200000100000000189008000091811c w₀) (rg u : Nat) (d : List Byte) (st : List Stage) (unc : Bool) {s : State} (h₀ : Keeps w₀ s₀ s) :
    Keeps w₀ s₀ (wideDescIssue rg u d st unc s) := by
  unfold wideDescIssue
  repeat' with_reducible first
    | assumption | apply stageIn_keeps (hw₀.sub rfl) | apply failJob_keeps (hw₀.sub rfl)
    | apply wideIssue_keeps (hw₀.sub rfl) | split | dsimp -proj only

theorem execWideDescIssue_keeps (hw₀ : Has 0x4c048fc4005800c13e4200000100000000189008000091811c w₀) (rg u : Nat) (d : Piece) {s : State} (h₀ : Keeps w₀ s₀ s) :
    ∀ t₁, execWideDescIssue rg u d s = .next t₁ → Keeps w₀ s₀ t₁ := by
  unfold execWideDescIssue
  intro t₁ ht
  cases ht
  repeat' with_reducible first
    | assumption | apply runningIn_keeps | apply wideDescIssue_keeps (hw₀.sub rfl)

theorem newtonIterationDone_keeps (hw₀ : Has 0x4c048fc4005800a13e4200000100000000189008000091810c w₀) (rg : Nat)
    {s : State} (h₀ : Keeps w₀ s₀ s) :
    Keeps w₀ s₀ (newtonIterationDone rg s) := by
  unfold newtonIterationDone
  repeat' with_reducible first
    | assumption | intro _ | apply keeps_ite | apply withMats_keeps (hw₀.sub rfl) | apply failJob_keeps (hw₀.sub rfl)
    | apply putMat_keeps (hw₀.sub rfl) | apply saveJob_keeps (hw₀.sub rfl)
    | refine incr_keeps (hw₀.sub rfl) _ _ reg_ROOTSEQ_ITER_DONE ?_ | split

theorem execNewtonIterationDone_keeps (hw₀ : Has 0x4c048fc4005800a13e4200000100000000189008000091810c w₀) (rg : Nat)
    {s : State} (h₀ : Keeps w₀ s₀ s) :
    ∀ t₁, execNewtonIterationDone rg s = .next t₁ → Keeps w₀ s₀ t₁ := by
  unfold execNewtonIterationDone
  intro t₁ ht
  cases ht
  repeat' with_reducible first
    | assumption | apply runningIn_keeps | apply newtonIterationDone_keeps (hw₀.sub rfl)

theorem choleskyPanelDone_keeps (hw₀ : Has 0x4c048fc4005800a93e4200000100000000189008000091810c w₀) (rg : Nat) {s : State}
    (h₀ : Keeps w₀ s₀ s) :
    Keeps w₀ s₀ (choleskyPanelDone rg s) := by
  unfold choleskyPanelDone
  repeat' with_reducible first
    | assumption | intro _ | apply keeps_ite | apply withMats_keeps (hw₀.sub rfl) | apply putMat_keeps (hw₀.sub rfl)
    | refine addF_keeps (hw₀.sub rfl) _ _ _ reg_ROOTSEQ_PIV_FLOORED ?_ | apply failJob_keeps (hw₀.sub rfl)
    | refine incr_keeps (hw₀.sub rfl) _ _ reg_ROOTSEQ_ITER_DONE ?_ | apply saveJob_keeps (hw₀.sub rfl) | split

theorem execCholeskyPanelDone_keeps (hw₀ : Has 0x4c048fc4005800a93e4200000100000000189008000091810c w₀) (rg : Nat)
    {s : State} (h₀ : Keeps w₀ s₀ s) :
    ∀ t₁, execCholeskyPanelDone rg s = .next t₁ → Keeps w₀ s₀ t₁ := by
  unfold execCholeskyPanelDone
  intro t₁ ht
  cases ht
  repeat' with_reducible first
    | assumption | apply runningIn_keeps | apply choleskyPanelDone_keeps (hw₀.sub rfl)

theorem checkSide_keeps (hw₀ : Has 0x40040000005800813e4200000100000000189008000011800c w₀) (rg : Nat) (j : Job) (r : FV)
    (X : IMat) {s : State} (h₀ : Keeps w₀ s₀ s) :
    Keeps w₀ s₀ (checkSide rg j r X s) := by
  unfold checkSide
  repeat' with_reducible first
    | assumption | apply keeps_ite | apply failJob_keeps (hw₀.sub rfl) | apply saveJob_keeps (hw₀.sub rfl)

theorem residualCheck_keeps (hw₀ : Has 0x4c048fc4005800813e4200000100000000189008000091810c w₀) (rg : Nat) {s : State}
    (h₀ : Keeps w₀ s₀ s) :
    Keeps w₀ s₀ (residualCheck rg s) := by
  unfold residualCheck
  repeat' with_reducible first
    | assumption | intro _ | apply withMats_keeps (hw₀.sub rfl) | apply checkSide_keeps (hw₀.sub rfl)
    | apply failJob_keeps (hw₀.sub rfl) | split | dsimp -proj only

theorem execResidualCheck_keeps (hw₀ : Has 0x4c048fc4005800813e4200000100000000189008000091810c w₀) (rg : Nat) {s : State}
    (h₀ : Keeps w₀ s₀ s) :
    ∀ t₁, execResidualCheck rg s = .next t₁ → Keeps w₀ s₀ t₁ := by
  unfold execResidualCheck
  intro t₁ ht
  cases ht
  repeat' with_reducible first
    | assumption | apply runningIn_keeps | apply residualCheck_keeps (hw₀.sub rfl)

theorem writeRoots_keeps (hw₀ : Has 0x4004000000000000000000000000000000000008000002000c w₀) (j : Job) {s : State} (h₀ : Keeps w₀ s₀ s) :
    Keeps w₀ s₀ (writeRoots j s) := by
  unfold writeRoots
  try dsimp -proj only
  repeat' with_reducible first
    | assumption | apply storeTiles_keeps (hw₀.sub rfl) | apply keepCrcs_keeps (hw₀.sub rfl) | split
    | dsimp -proj only

theorem holdJob_keeps (hw₀ : Has 0x4004000000080000064000000000000000000008000001000c w₀) (rg : Nat) (j : Job) {s : State} (h₀ : Keeps w₀ s₀ s) :
    Keeps w₀ s₀ (holdJob rg j s) := by
  unfold holdJob
  try dsimp -proj only
  repeat' with_reducible first
    | assumption | apply memStore_keeps (hw₀.sub rfl) | apply putJob_keeps (hw₀.sub rfl)
    | apply modSeq_keeps (hw₀.sub rfl) | split | dsimp -proj only

theorem rootConvert_keeps (hw₀ : Has 0x40040000005800813e4200000100000000189008000013800c w₀) (rg : Nat) {s : State}
    (h₀ : Keeps w₀ s₀ s) :
    Keeps w₀ s₀ (rootConvert rg s) := by
  unfold rootConvert
  repeat' with_reducible first
    | assumption | apply rejectJob_keeps (hw₀.sub rfl) | apply rootDiv_keeps (hw₀.sub rfl)
    | apply holdJob_keeps (hw₀.sub rfl) | apply writeRoots_keeps (hw₀.sub rfl) | split | dsimp -proj only

theorem execRootConvert_keeps (hw₀ : Has 0x40040000005800813e4200000100000000189008000013800c w₀) (rg : Nat) {s : State}
    (h₀ : Keeps w₀ s₀ s) :
    ∀ t₁, execRootConvert rg s = .next t₁ → Keeps w₀ s₀ t₁ := by
  unfold execRootConvert
  intro t₁ ht
  cases ht
  repeat' with_reducible first
    | assumption | apply runningIn_keeps | apply rootConvert_keeps (hw₀.sub rfl)

theorem publishJob_keeps
    (hw₀ : Has 0x10f01100000040002000000000080000000000000004c048fc400400010800000000000000000000008000a93010c w₀)
    (rg : Nat) (j : Job) {s : State} (h₀ : Keeps w₀ s₀ s) :
    Keeps w₀ s₀ (publishJob rg j s) := by
  unfold publishJob
  repeat' with_reducible first
    | assumption | apply keeps_ite | apply auditAbort_keeps (hw₀.sub rfl) | apply recPut_keeps (hw₀.sub rfl)
    | apply clearWip_keeps (hw₀.sub rfl) | refine incr_keeps (hw₀.sub rfl) _ _ reg_ROOTSEQ_ROOT_PUB ?_
    | refine setEvt_keeps (p := 2) (hw₀.sub rfl) (hw₀.sub rfl) _ _ (by with_unfolding_all rfl) reg_pendFld2 ?_
    | refine incr_keeps (hw₀.sub rfl) _ _ reg_ROOTSEQ_DAMPED_PUB ?_ | apply modSeq_keeps (hw₀.sub rfl)
    | apply wholeBuf_keeps (hw₀.sub rfl) | apply sendRoots_keeps (hw₀.sub rfl) | apply writeRoots_keeps (hw₀.sub rfl)
    | split | refine keeps_snd (by assumption) ?_

theorem rootPublish_keeps
    (hw₀ : Has 0x10f01100000040002000000000080000000000000004c048fc400400010800000000000000000000008000a93010c w₀)
    (rg : Nat) {s : State} (h₀ : Keeps w₀ s₀ s) :
    Keeps w₀ s₀ (rootPublish rg s) := by
  unfold rootPublish
  repeat' with_reducible first
    | assumption | apply publishJob_keeps (hw₀.sub rfl) | split

theorem execRootPublish_keeps
    (hw₀ : Has 0x10f01100000040002000000000080000000000000004c048fc400400010800000000000000000000008000a93010c w₀)
    (rg : Nat) {s : State} (h₀ : Keeps w₀ s₀ s) :
    ∀ t₁, execRootPublish rg s = .next t₁ → Keeps w₀ s₀ t₁ := by
  unfold execRootPublish
  intro t₁ ht
  cases ht
  repeat' with_reducible first
    | assumption | apply runningIn_keeps | apply rootPublish_keeps (hw₀.sub rfl)

theorem replyNotice_keeps (hw₀ : Has 0x100000 w₀) (t : Notice) {s : State} (h₀ : Keeps w₀ s₀ s) :
    Keeps w₀ s₀ (replyNotice t s) := by
  unfold replyNotice
  repeat' with_reducible first
    | assumption | apply modBlk_keeps (hw₀.sub rfl)

theorem stopJob_keeps (hw₀ : Has 0x800000640000000000000001890000000018000 w₀) (rg c g : Nat) {s : State}
    (h₀ : Keeps w₀ s₀ s) :
    Keeps w₀ s₀ (stopJob rg c g s) := by
  unfold stopJob
  repeat' with_reducible first
    | assumption | apply putJob_keeps (hw₀.sub rfl) | apply modSeq_keeps (hw₀.sub rfl) | apply dropWide_keeps (hw₀.sub rfl)
    | split

theorem dueNotice_keeps (hw₀ : Has 0x4800060640000000000000001890080000118000 w₀) (rg : Nat) {s : State}
    (h₀ : Keeps w₀ s₀ s) :
    Keeps w₀ s₀ (dueNotice rg s) := by
  unfold dueNotice
  try dsimp -proj only
  repeat' with_reducible first
    | assumption | apply modSeq_keeps (hw₀.sub rfl) | apply replyNotice_keeps (hw₀.sub rfl)
    | refine setEvt_keeps (p := 2) (hw₀.sub rfl) (hw₀.sub rfl) _ _ (by with_unfolding_all rfl) reg_pendFld2 ?_
    | refine incr_keeps (hw₀.sub rfl) _ _ reg_ROOTSEQ_ROOT_LATE ?_ | apply rootEvt_keeps (hw₀.sub rfl)
    | apply stopJob_keeps (hw₀.sub rfl) | refine incr_keeps (hw₀.sub rfl) _ _ reg_ROOTSEQ_ROOT_RESTART ?_ | split
    | dsimp -proj only

theorem execDueNotice_keeps (hw₀ : Has 0x4800060640000000000000001890080000118000 w₀) (rg : Nat) {s : State}
    (h₀ : Keeps w₀ s₀ s) :
    ∀ t₁, execDueNotice rg s = .next t₁ → Keeps w₀ s₀ t₁ := by
  unfold execDueNotice
  intro t₁ ht
  cases ht
  repeat' with_reducible first
    | assumption | apply runningIn_keeps | apply dueNotice_keeps (hw₀.sub rfl)

theorem restartReply_keeps (hw₀ : Has 0x4004000000000000000000000000000000000008000011000c w₀) (rg : Nat) {s : State}
    (h₀ : Keeps w₀ s₀ s) :
    Keeps w₀ s₀ (restartReply rg s) := by
  unfold restartReply
  try dsimp -proj only
  repeat' with_reducible first
    | assumption | apply modSeq_keeps (hw₀.sub rfl) | apply replyNotice_keeps (hw₀.sub rfl)
    | apply recPut_keeps (hw₀.sub rfl) | apply clearWip_keeps (hw₀.sub rfl) | split

theorem execRestartReply_keeps (hw₀ : Has 0x4004000000000000000000000000000000000008000011000c w₀) (rg : Nat) {s : State}
    (h₀ : Keeps w₀ s₀ s) :
    ∀ t₁, execRestartReply rg s = .next t₁ → Keeps w₀ s₀ t₁ := by
  unfold execRestartReply
  intro t₁ ht
  cases ht
  repeat' with_reducible first
    | assumption | apply runningIn_keeps | apply restartReply_keeps (hw₀.sub rfl)

theorem lendAll_keeps (hw₀ : Has 0x100000000000000 w₀) (rg v x1 : Nat) {x2 : State} (h₀ : Keeps w₀ s₀ x2) :
    Keeps w₀ s₀ (lendAll rg v x1 x2) := by
  revert h₀
  fun_induction lendAll rg v x1 x2 <;> intro h₀
  all_goals repeat' with_reducible first
    | refine setF_keeps (hw₀.sub rfl) _ _ _ reg_TUNIT_STAT_LEND ?_ | apply_assumption -exfalso

theorem lendSet_keeps (hw₀ : Has 0x180000000000000000100000000000000 w₀) (rg : Nat) {s : State} (h₀ : Keeps w₀ s₀ s) :
    Keeps w₀ s₀ (lendSet rg s) := by
  unfold lendSet
  repeat' with_reducible first
    | assumption | refine setF_keeps (hw₀.sub rfl) _ _ _ reg_ROOTSEQ_STAT_LENDING ?_
    | refine setF_keeps (hw₀.sub rfl) _ _ _ reg_ROOTSEQ_STAT_URGENT ?_ | apply lendAll_keeps (hw₀.sub rfl)

theorem execLendSet_keeps (hw₀ : Has 0x180000000000000000100000000000000 w₀) (rg : Nat) {s : State} (h₀ : Keeps w₀ s₀ s) :
    ∀ t₁, execLendSet rg s = .next t₁ → Keeps w₀ s₀ t₁ := by
  unfold execLendSet
  intro t₁ ht
  cases ht
  repeat' with_reducible first
    | assumption | apply runningIn_keeps | apply lendSet_keeps (hw₀.sub rfl)

theorem seqLockstep_keeps
    (hw₀ : Has 0x2008000000000000000000000000000000000000000000000000000000000000000000000000040040000005800813e4200000100000000189008000011800c w₀)
    (rg : Nat) {s : State} (h₀ : Keeps w₀ s₀ s) :
    Keeps w₀ s₀ (seqLockstep rg s) := by
  unfold seqLockstep
  repeat' with_reducible first
    | assumption
    | refine setEvt_keeps (p := 2) (hw₀.sub rfl) (hw₀.sub rfl) _ _ (by with_unfolding_all rfl) reg_pendFld2 ?_
    | refine setEvt_keeps (p := 15) (hw₀.sub rfl) (hw₀.sub rfl) _ _ (by with_unfolding_all rfl) reg_pendFld15 ?_
    | refine incr_keeps (hw₀.sub rfl) _ _ reg_BRKW_SEQ_LOCKSTEP_CNT ?_ | apply failJob_keeps (hw₀.sub rfl) | split
    | dsimp -proj only

theorem execSeqLockstep_keeps
    (hw₀ : Has 0x2008000000000000000000000000000000000000000000000000000000000000000000000000040040000005800813e4200000100000000189008000011800c w₀)
    (rg : Nat) {s : State} (h₀ : Keeps w₀ s₀ s) :
    ∀ t₁, execSeqLockstep rg s = .next t₁ → Keeps w₀ s₀ t₁ := by
  unfold execSeqLockstep
  intro t₁ ht
  cases ht
  repeat' with_reducible first
    | assumption | apply runningIn_keeps | apply seqLockstep_keeps (hw₀.sub rfl)

end Sys2Proof.Machine
end

