-- ==== Sys2Proof/Laws/KeepsZarurn.lean ====
section
/-! SUPPORT. What the functions of Machine/Zarurn.lean may change. -/

namespace Sys2Proof.Machine

set_option exponentiation.threshold 600

variable {w₀ : Nat} {s₀ : State}

theorem peerSend_keeps (hw₀ : Has 0x40002000000000080000000000000000000000000000000000000000000000000000008000a000000 w₀)
    (dst : Nat) (fs : List Frame) {s : State} (h₀ : Keeps w₀ s₀ s) :
    Keeps w₀ s₀ (peerSend dst fs s) := by
  unfold peerSend
  repeat' with_reducible first
    | assumption | apply keeps_ite | apply spreadFrames_keeps (hw₀.sub rfl)

theorem modCkpt_keeps (hw₀ : Has 0x100000 w₀) (c : Nat) (f : Ckpt → Ckpt) {s : State} (h₀ : Keeps w₀ s₀ s) :
    Keeps w₀ s₀ (modCkpt c f s) := by
  unfold modCkpt
  repeat' with_reducible first
    | assumption | apply modCtx_keeps (hw₀.sub rfl)

theorem streamOut_keeps (hw₀ : Has 0x40002000000000080000000000000000000000000000000000000000000000000000008000a100020 w₀)
    (c : Nat) (k : Ckpt) (bs : List Byte) {s : State} (h₀ : Keeps w₀ s₀ s) :
    Keeps w₀ s₀ (streamOut c k bs s) := by
  unfold streamOut
  repeat' with_reducible first
    | assumption | apply keeps_ite | apply modCkpt_keeps (hw₀.sub rfl) | apply peerSend_keeps (hw₀.sub rfl)
    | apply hostWrite_keeps (hw₀.sub rfl) | split

theorem putRecord_keeps (hw₀ : Has 0x40002000000000080000000000000000000000000000000000000000000000000000008000a100020 w₀)
    (c : Nat) (h : ZHead) (raw : List Byte) {s : State} (h₀ : Keeps w₀ s₀ s) :
    Keeps w₀ s₀ (putRecord c h raw s) := by
  unfold putRecord
  repeat' with_reducible first
    | assumption | apply streamOut_keeps (hw₀.sub rfl) | apply modCkpt_keeps (hw₀.sub rfl) | split

theorem putCarry_keeps (hw₀ : Has 0x40002000000000080000000000000000000000000000000000000000000000000000008000a100020 w₀)
    (c cid : Nat) (raw : List Byte) {s : State} (h₀ : Keeps w₀ s₀ s) :
    Keeps w₀ s₀ (putCarry c cid raw s) := by
  unfold putCarry
  repeat' with_reducible first
    | assumption | apply putRecord_keeps (hw₀.sub rfl)

theorem putCarries_keeps
    (hw₀ : Has 0x40002000000000080000000000000000000000000000000000000000000000000000008000a100020 w₀) (c : Nat)
    (x1 : List (Nat × List Byte)) {x2 : State} (h₀ : Keeps w₀ s₀ x2) :
    Keeps w₀ s₀ (putCarries c x1 x2) := by
  revert h₀
  fun_induction putCarries c x1 x2 <;> intro h₀
  all_goals repeat' with_reducible first
    | apply putCarry_keeps (hw₀.sub rfl) | apply_assumption -exfalso

theorem ckptTiles_keeps
    (hw₀ : Has 0x10f01000000040002000000000080000000000000004c048fc400000000000000000000000000000008000a920100 w₀)
    (b : Blk) (kind : Nat) {s : State} (h₀ : Keeps w₀ s₀ s) :
    Keeps w₀ s₀ (ckptTiles b kind s).2 := by
  unfold ckptTiles
  repeat' with_reducible first
    | assumption | apply loadTiles_keeps (hw₀.sub rfl) | apply fetchSend_keeps (hw₀.sub rfl) | split
    | refine keeps_snd (by assumption) ?_

theorem ckptBytes_keeps (hw₀ : Has 0x4c048fc4000000000000000000000000000000080000800100 w₀) (b : Blk) (a n : Nat)
    {s : State} (h₀ : Keeps w₀ s₀ s) :
    Keeps w₀ s₀ (ckptBytes b a n s).2 := by
  unfold ckptBytes
  repeat' with_reducible first
    | assumption | apply engRead_keeps (hw₀.sub rfl) | split | refine keeps_snd (by assumption) ?_

theorem ckptBufs_keeps
    (hw₀ : Has 0x10f01000000040002000000000080000000000000004c048fc400000000000000000000000000000008000a920100 w₀)
    (b : Blk) (x1 : List Nat) {x2 : State} (h₀ : Keeps w₀ s₀ x2) :
    Keeps w₀ s₀ (ckptBufs b x1 x2).2 := by
  revert h₀
  fun_induction ckptBufs b x1 x2 <;> intro h₀
  all_goals repeat' with_reducible first
    | apply ckptTiles_keeps (hw₀.sub rfl) | apply_assumption -exfalso | refine keeps_snd (by assumption) ?_

theorem blockRecord_keeps
    (hw₀ : Has 0x10f01000000040002000000000080000000000000004c048fc400000000000000000000000000000008000a920100 w₀)
    (b : Blk) {s : State} (h₀ : Keeps w₀ s₀ s) :
    Keeps w₀ s₀ (blockRecord b s).2 := by
  unfold blockRecord
  repeat' with_reducible first
    | assumption | dsimp only | apply ckptBytes_keeps (hw₀.sub rfl) | apply ckptTiles_keeps (hw₀.sub rfl)
    | apply ckptBufs_keeps (hw₀.sub rfl) | split | refine keeps_snd (by assumption) ?_

end Sys2Proof.Machine
end

