-- ==== Sys2Proof/Laws/KeepsCkpt.lean ====
section
/-! SUPPORT. What the functions of Machine/Ckpt.lean may change. -/

namespace Sys2Proof.Machine

set_option exponentiation.threshold 600

variable {w₀ : Nat} {s₀ : State}

theorem endCkpt_keeps (hw₀ : Has 0x300000 w₀) (c st r0 : Nat) {s : State} (h₀ : Keeps w₀ s₀ s) :
    Keeps w₀ s₀ (endCkpt c st r0 s) := by
  unfold endCkpt
  repeat' with_reducible first
    | assumption | apply report_keeps (hw₀.sub rfl) | apply modCtx_keeps (hw₀.sub rfl) | split

theorem readExtents_keeps
    (hw₀ : Has 0x40002000000000080000000000000004c048fc400000000000000000000000000000008000ab00120 w₀) (c : Nat)
    (x1 : List (Nat × Nat × Nat)) {x2 : State} (h₀ : Keeps w₀ s₀ x2) :
    Keeps w₀ s₀ (readExtents c x1 x2) := by
  revert h₀
  fun_induction readExtents c x1 x2 <;> intro h₀
  all_goals repeat' with_reducible first
    | apply engRead_keeps (hw₀.sub rfl) | apply putRecord_keeps (hw₀.sub rfl) | apply endCkpt_keeps (hw₀.sub rfl)
    | apply_assumption -exfalso | refine keeps_snd (by assumption) ?_

theorem ckptAtCut_keeps (hw₀ : Has 0x40002000000000080000000000000004c048fc400000000000000000000000000000008000ab00120 w₀)
    (c n : Nat) {s : State} (h₀ : Keeps w₀ s₀ s) :
    Keeps w₀ s₀ (ckptAtCut c n s) := by
  unfold ckptAtCut
  repeat' with_reducible first
    | assumption | apply modCkpt_keeps (hw₀.sub rfl) | apply readExtents_keeps (hw₀.sub rfl)
    | apply putCarries_keeps (hw₀.sub rfl) | split

theorem ckptAfterCut_keeps
    (hw₀ : Has 0x40002000000000080000000000000000000000000000000000000000000000000000008000a100020 w₀) (c n : Nat)
    {s : State} (h₀ : Keeps w₀ s₀ s) :
    Keeps w₀ s₀ (ckptAfterCut c n s) := by
  unfold ckptAfterCut
  repeat' with_reducible first
    | assumption | apply putCarries_keeps (hw₀.sub rfl) | apply modCkpt_keeps (hw₀.sub rfl) | split

theorem ckptBegin_keeps (hw₀ : Has 0x40002000000000080000000000000004c048fc400000000000000000000000000000008000ab00120 w₀)
    (h : Nat) (e : List Byte) (hs xs : List (List Byte)) {s : State} (h₀ : Keeps w₀ s₀ s) :
    Keeps w₀ s₀ (ckptBegin h e hs xs s) := by
  unfold ckptBegin
  repeat' with_reducible first
    | assumption | apply keeps_ite | apply report_keeps (hw₀.sub rfl) | apply modCtx_keeps (hw₀.sub rfl)
    | apply ckptAtCut_keeps (hw₀.sub rfl)

theorem ckpt_keeps (hw₀ : Has 0x40002000000000080000000000000004c048fc400000000000000000000000000000008000ab00120 w₀)
    (h : Nat) {s : State} (h₀ : Keeps w₀ s₀ s) :
    Keeps w₀ s₀ (ckpt h s) := by
  unfold ckpt
  repeat' with_reducible first
    | assumption | intro _ | apply keeps_ite | apply runCmd_keeps (hw₀.sub rfl) | apply report_keeps (hw₀.sub rfl)
    | apply cmdRead_keeps (hw₀.sub rfl) | apply ckptBegin_keeps (hw₀.sub rfl)

theorem execCkpt_keeps (hw₀ : Has 0x40002000000000080000000000000004c048fc400000000000000000000000000000008000ab00120 w₀)
    (h : Nat) {s : State} (h₀ : Keeps w₀ s₀ s) :
    ∀ t₁, execCkpt h s = .next t₁ → Keeps w₀ s₀ t₁ := by
  unfold execCkpt
  intro t₁ ht
  cases ht
  repeat' with_reducible first
    | assumption | apply awake_keeps | apply ckpt_keeps (hw₀.sub rfl)

theorem ckptBlockRead_keeps
    (hw₀ : Has 0x10f01000000040002000000000080000000000000004c048fc400000000000000000000000000000008000a920520 w₀)
    (c g : Nat) {s : State} (h₀ : Keeps w₀ s₀ s) :
    Keeps w₀ s₀ (ckptBlockRead c g s) := by
  unfold ckptBlockRead
  repeat' with_reducible first
    | assumption | apply blockRecord_keeps (hw₀.sub rfl) | apply putRecord_keeps (hw₀.sub rfl)
    | apply modCkpt_keeps (hw₀.sub rfl) | apply hubTake_keeps (hw₀.sub rfl) | split
    | refine keeps_snd (by assumption) ?_

theorem execCkptBlockRead_keeps
    (hw₀ : Has 0x10f01000000040002000000000080000000000000004c048fc400000000000000000000000000000008000a920520 w₀)
    (c g : Nat) {s : State} (h₀ : Keeps w₀ s₀ s) :
    ∀ t₁, execCkptBlockRead c g s = .next t₁ → Keeps w₀ s₀ t₁ := by
  unfold execCkptBlockRead
  intro t₁ ht
  cases ht
  repeat' with_reducible first
    | assumption | apply awake_keeps | apply ckptBlockRead_keeps (hw₀.sub rfl)

theorem endMarks_keeps (hw₀ : Has 0x40002000000000080000000000000000000000000000000000000000000000000000008000a000000 w₀)
    (c : Nat) (k : Ckpt) (x1 : Nat) (x2 : List (Nat × Nat × Nat)) {x3 : State} (h₀ : Keeps w₀ s₀ x3) :
    Keeps w₀ s₀ (endMarks c k x1 x2 x3) := by
  revert h₀
  fun_induction endMarks c k x1 x2 x3 <;> intro h₀
  all_goals repeat' with_reducible first
    | apply peerSend_keeps (hw₀.sub rfl) | apply_assumption -exfalso

theorem ckptEnd_keeps (hw₀ : Has 0x40002000000000080000000000000000000000000000000000000000000000000000008000a100020 w₀)
    (c : Nat) {s : State} (h₀ : Keeps w₀ s₀ s) :
    Keeps w₀ s₀ (ckptEnd c s) := by
  unfold ckptEnd
  try dsimp -proj only
  repeat' with_reducible first
    | assumption | apply putRecord_keeps (hw₀.sub rfl) | apply streamOut_keeps (hw₀.sub rfl)
    | apply modCkpt_keeps (hw₀.sub rfl) | split

theorem ckptDone_keeps (hw₀ : Has 0x300000 w₀) (c : Nat) {s : State} (h₀ : Keeps w₀ s₀ s) :
    Keeps w₀ s₀ (ckptDone c s) := by
  unfold ckptDone
  repeat' with_reducible first
    | assumption | apply endCkpt_keeps (hw₀.sub rfl) | split

theorem ckptComplete_keeps
    (hw₀ : Has 0x40002000000000080000000000000000000000000000000000000000000000000000008000a300020 w₀) (c : Nat)
    {s : State} (h₀ : Keeps w₀ s₀ s) :
    Keeps w₀ s₀ (ckptComplete c s) := by
  unfold ckptComplete
  try dsimp -proj only
  repeat' with_reducible first
    | assumption | apply ckptDone_keeps (hw₀.sub rfl) | apply putCarries_keeps (hw₀.sub rfl)
    | apply modCkpt_keeps (hw₀.sub rfl) | apply ckptEnd_keeps (hw₀.sub rfl) | apply endMarks_keeps (hw₀.sub rfl) | split

theorem execCkptComplete_keeps
    (hw₀ : Has 0x40002000000000080000000000000000000000000000000000000000000000000000008000a300020 w₀) (c : Nat)
    {s : State} (h₀ : Keeps w₀ s₀ s) :
    ∀ t₁, execCkptComplete c s = .next t₁ → Keeps w₀ s₀ t₁ := by
  unfold execCkptComplete
  intro t₁ ht
  cases ht
  repeat' with_reducible first
    | assumption | apply awake_keeps | apply ckptComplete_keeps (hw₀.sub rfl)

theorem peerDrop_keeps (hw₀ : Has 0x20000008000000000000000000000000000000000000000000000000000000000080000000000 w₀)
    (f : Frame) {s : State} (h₀ : Keeps w₀ s₀ s) :
    Keeps w₀ s₀ (peerDrop f s) := by
  unfold peerDrop
  repeat' with_reducible first
    | assumption
    | refine setEvt_keeps (p := 7) (hw₀.sub rfl) (hw₀.sub rfl) _ _ (by with_unfolding_all rfl) reg_pendFld7 ?_
    | refine incr_keeps (hw₀.sub rfl) _ _ reg_LINK_CTX_DROP ?_

theorem peerTake_keeps (hw₀ : Has 0x10000000 w₀) (op : Nat) (f : Frame → State → State) {s : State} (h₀ : Keeps w₀ s₀ s)
    (hf₀ : ∀ y0 s, Keeps w₀ s₀ s → Keeps w₀ s₀ (f y0 s)) :
    Keeps w₀ s₀ (peerTake op f s) := by
  unfold peerTake
  repeat' with_reducible first
    | assumption | apply hf₀ | split | apply keeps_inbox (hw₀.sub rfl)

theorem peerWrite_keeps (hw₀ : Has 0x2000000800000000000000000004004000000000000000000000000000000000008000000000c w₀)
    (f : Frame) {s : State} (h₀ : Keeps w₀ s₀ s) :
    Keeps w₀ s₀ (peerWrite f s) := by
  unfold peerWrite
  repeat' with_reducible first
    | assumption | apply peerDrop_keeps (hw₀.sub rfl) | apply memStore_keeps (hw₀.sub rfl) | split

theorem execPeerWrite_keeps (hw₀ : Has 0x2000000800000000000000000004004000000000000000000000000000000000008001000000c w₀)
    {s : State} (h₀ : Keeps w₀ s₀ s) :
    ∀ t₁, execPeerWrite s = .next t₁ → Keeps w₀ s₀ t₁ := by
  unfold execPeerWrite
  intro t₁ ht
  cases ht
  repeat' with_reducible first
    | assumption | apply awake_keeps | apply peerTake_keeps (hw₀.sub rfl) | apply peerWrite_keeps (hw₀.sub rfl)

theorem readReq_keeps (hw₀ : Has 0x40002000000800080000000000000004c048fc400000000000000000000000000000008000a800100 w₀)
    (f : Frame) {s : State} (h₀ : Keeps w₀ s₀ s) :
    Keeps w₀ s₀ (readReq f s) := by
  unfold readReq
  repeat' with_reducible first
    | assumption | apply peerDrop_keeps (hw₀.sub rfl) | apply engRead_keeps (hw₀.sub rfl)
    | apply peerSend_keeps (hw₀.sub rfl) | split | refine keeps_snd (by assumption) ?_

theorem execReadReq_keeps
    (hw₀ : Has 0x40002000000800080000000000000004c048fc400000000000000000000000000000008001a800100 w₀) {s : State}
    (h₀ : Keeps w₀ s₀ s) :
    ∀ t₁, execReadReq s = .next t₁ → Keeps w₀ s₀ t₁ := by
  unfold execReadReq
  intro t₁ ht
  cases ht
  repeat' with_reducible first
    | assumption | apply awake_keeps | apply peerTake_keeps (hw₀.sub rfl) | apply readReq_keeps (hw₀.sub rfl)

theorem peerDone_keeps (hw₀ : Has 0x40002000000800080000000000000000000000000000000000000000000000000000008000a300000 w₀)
    (f : Frame) {s : State} (h₀ : Keeps w₀ s₀ s) :
    Keeps w₀ s₀ (peerDone f s) := by
  unfold peerDone
  repeat' with_reducible first
    | assumption | apply ckptDone_keeps (hw₀.sub rfl) | apply modCkpt_keeps (hw₀.sub rfl)
    | apply peerDrop_keeps (hw₀.sub rfl) | apply peerSend_keeps (hw₀.sub rfl) | split

theorem execPeerDone_keeps
    (hw₀ : Has 0x40002000000800080000000000000000000000000000000000000000000000000000008001a300000 w₀) {s : State}
    (h₀ : Keeps w₀ s₀ s) :
    ∀ t₁, execPeerDone s = .next t₁ → Keeps w₀ s₀ t₁ := by
  unfold execPeerDone
  intro t₁ ht
  cases ht
  repeat' with_reducible first
    | assumption | apply awake_keeps | apply peerTake_keeps (hw₀.sub rfl) | apply peerDone_keeps (hw₀.sub rfl)

end Sys2Proof.Machine
end

