-- ==== Sys2Proof/Laws/KeepsRing.lean ====
section
/-! SUPPORT. What the functions of Machine/Ring.lean may change. -/

namespace Sys2Proof.Machine

set_option exponentiation.threshold 600

variable {w₀ : Nat} {s₀ : State}

theorem jrnPut_keeps
    (hw₀ : Has 0x20800000000000000000000000000000000000000000000000004004000000000000000000000000000000000008000000000c w₀)
    (c type src : Nat) (payload : List Byte) {s : State} (h₀ : Keeps w₀ s₀ s) :
    Keeps w₀ s₀ (jrnPut c type src payload s) := by
  unfold jrnPut
  repeat' with_reducible first
    | assumption | refine setFk_keeps (hw₀.sub rfl) _ _ _ _ reg_HOSTIF_JRN_WR ?_
    | refine setFk_keeps (hw₀.sub rfl) _ _ _ _ reg_HOSTIF_JRN_SEQ ?_ | apply memStore_keeps (hw₀.sub rfl)

theorem jrnAppend_keeps
    (hw₀ : Has 0x20800000000000000000000000000000000000000000000000004004000000000000000000000000000000000008000000000c w₀)
    (c : Nat) (r : JrnRec) {s : State} (h₀ : Keeps w₀ s₀ s) :
    Keeps w₀ s₀ (jrnAppend c r s) := by
  unfold jrnAppend
  repeat' with_reducible first
    | assumption | apply jrnPut_keeps (hw₀.sub rfl) | split

theorem jrnWait_keeps
    (hw₀ : Has 0x20000000000000000000000000000000000000000000000000000000040040000000000000000000000000000000000080000100000 w₀)
    (c hclk : Nat) (r : JrnRec) {s : State} (h₀ : Keeps w₀ s₀ s) :
    Keeps w₀ s₀ (jrnWait c hclk r s) := by
  unfold jrnWait
  repeat' with_reducible first
    | assumption | apply noteMiss_keeps (hw₀.sub rfl) | apply setCtxEvt_keeps (hw₀.sub rfl)
    | apply modCtx_keeps (hw₀.sub rfl) | split

theorem jrnAppends_keeps
    (hw₀ : Has 0x20800000000000000000000000000000000000000000000000004004000000000000000000000000000000000008000000000c w₀)
    (r : JrnRec) (x1 : List Nat) {x2 : State} (h₀ : Keeps w₀ s₀ x2) :
    Keeps w₀ s₀ (jrnAppends r x1 x2) := by
  revert h₀
  fun_induction jrnAppends r x1 x2 <;> intro h₀
  all_goals repeat' with_reducible first
    | apply jrnAppend_keeps (hw₀.sub rfl) | apply_assumption -exfalso

theorem jrnWaits_keeps
    (hw₀ : Has 0x20000000000000000000000000000000000000000000000000000000040040000000000000000000000000000000000080000100000 w₀)
    (hclk : Nat) (r : JrnRec) (x1 : List Nat) {x2 : State} (h₀ : Keeps w₀ s₀ x2) :
    Keeps w₀ s₀ (jrnWaits hclk r x1 x2) := by
  revert h₀
  fun_induction jrnWaits hclk r x1 x2 <;> intro h₀
  all_goals repeat' with_reducible first
    | apply jrnWait_keeps (hw₀.sub rfl) | apply_assumption -exfalso | split

theorem wideAppend_keeps
    (hw₀ : Has 0x2000020800000000000000000000000000000000000000000000000004004000000000000000000000000000000000008000090000c w₀)
    (src hclk : Nat) {s : State} (h₀ : Keeps w₀ s₀ s) :
    Keeps w₀ s₀ (wideAppend src hclk s) := by
  unfold wideAppend
  repeat' with_reducible first
    | assumption | apply jrnAppends_keeps (hw₀.sub rfl) | apply jrnWaits_keeps (hw₀.sub rfl) | split
    | apply keeps_jwide (hw₀.sub rfl)

theorem journalAppend_keeps
    (hw₀ : Has 0x2000020800000000000000000000000000000000000000000000000004004000000000000000000000000000000000008000090000c w₀)
    (c src hclk : Nat) {s : State} (h₀ : Keeps w₀ s₀ s) :
    Keeps w₀ s₀ (journalAppend c src hclk s) := by
  unfold journalAppend
  repeat' with_reducible first
    | assumption | apply wideAppend_keeps (hw₀.sub rfl) | apply modCtx_keeps (hw₀.sub rfl)
    | apply jrnAppend_keeps (hw₀.sub rfl) | apply jrnWait_keeps (hw₀.sub rfl) | split

theorem execJournalAppend_keeps
    (hw₀ : Has 0x2000020800000000000000000000000000000000000000000000000004004000000000000000000000000000000000008000090000c w₀)
    (c src hclk : Nat) {s : State} (h₀ : Keeps w₀ s₀ s) :
    ∀ t₁, execJournalAppend c src hclk s = .next t₁ → Keeps w₀ s₀ t₁ := by
  unfold execJournalAppend
  intro t₁ ht
  cases ht
  repeat' with_reducible first
    | assumption | apply awake_keeps | apply journalAppend_keeps (hw₀.sub rfl)

theorem hostRing_keeps (hw₀ : Has 0x20 w₀) (base size d : Nat) (bs : List Byte) {s : State} (h₀ : Keeps w₀ s₀ s) :
    Keeps w₀ s₀ (hostRing base size d bs s) := by
  unfold hostRing
  repeat' with_reducible first
    | assumption | apply hostWrite_keeps (hw₀.sub rfl)

theorem journalDrain_keeps
    (hw₀ : Has 0x1000000000000000000000000000000000000000000000000004c048fc4000000000000000000000000000000080000800520 w₀)
    (c : Nat) {s : State} (h₀ : Keeps w₀ s₀ s) :
    Keeps w₀ s₀ (journalDrain c s) := by
  unfold journalDrain
  repeat' with_reducible first
    | assumption | apply keeps_ite | apply engRead_keeps (hw₀.sub rfl)
    | refine setFk_keeps (hw₀.sub rfl) _ _ _ _ reg_HOSTIF_JRN_DR ?_ | apply hostRing_keeps (hw₀.sub rfl)
    | apply hubTake_keeps (hw₀.sub rfl) | split | refine keeps_snd (by assumption) ?_

theorem execJournalDrain_keeps
    (hw₀ : Has 0x1000000000000000000000000000000000000000000000000004c048fc4000000000000000000000000000000080000800520 w₀)
    (c : Nat) {s : State} (h₀ : Keeps w₀ s₀ s) :
    ∀ t₁, execJournalDrain c s = .next t₁ → Keeps w₀ s₀ t₁ := by
  unfold execJournalDrain
  intro t₁ ht
  cases ht
  repeat' with_reducible first
    | assumption | apply awake_keeps | apply journalDrain_keeps (hw₀.sub rfl)

theorem rplTake_keeps
    (hw₀ : Has 0xc000000000000000000000000000000000000000000000000000000000000000000000000000000000000000000000000100000 w₀)
    (c : Nat) (bs : List Byte) {s : State} (h₀ : Keeps w₀ s₀ s) :
    Keeps w₀ s₀ (rplTake c bs s) := by
  unfold rplTake
  repeat' with_reducible first
    | assumption | apply keeps_ite | refine setFk_keeps (hw₀.sub rfl) _ _ _ _ reg_HOSTIF_RPL_RD ?_
    | apply modCtx_keeps (hw₀.sub rfl) | refine setFk_keeps (hw₀.sub rfl) _ _ _ _ reg_HOSTIF_RPL_STEP ?_

theorem rplRead_keeps
    (hw₀ : Has 0xc00000000000000000000000000000000000000000000000000004c048fc4000000000000000000000000000000080000900100 w₀)
    (c n x1 : Nat) {x2 : State} (h₀ : Keeps w₀ s₀ x2) :
    Keeps w₀ s₀ (rplRead c n x1 x2).2 := by
  revert h₀
  fun_induction rplRead c n x1 x2 <;> intro h₀
  all_goals repeat' with_reducible first
    | apply engRead_keeps (hw₀.sub rfl) | apply rplTake_keeps (hw₀.sub rfl) | apply_assumption -exfalso
    | refine keeps_snd (by assumption) ?_

theorem replayFor_keeps
    (hw₀ : Has 0xc00000000000000000000000000000000000000000000000000004c048fc4000000000000000000000000000000080000900100 w₀)
    (c n : Nat) {s : State} (h₀ : Keeps w₀ s₀ s) :
    Keeps w₀ s₀ (replayFor c n s).2 := by
  unfold replayFor
  repeat' with_reducible first
    | assumption | apply rplRead_keeps (hw₀.sub rfl)

end Sys2Proof.Machine
end

