-- ==== Sys2Proof/Laws/KeepsSteps.lean ====
section
/-! SUPPORT. What the functions of Machine/Steps.lean may change. -/

namespace Sys2Proof.Machine

set_option exponentiation.threshold 600

variable {w₀ : Nat} {s₀ : State}

theorem degClearOne_keeps
    (hw₀ : Has 0x7f8000000000000000000000000000000000000000000000000000000000000000000000000000000000 w₀) (k : Nat)
    {s : State} (h₀ : Keeps w₀ s₀ s) :
    Keeps w₀ s₀ (degClearOne k s) := by
  unfold degClearOne
  repeat' with_reducible first
    | assumption | apply keeps_ite | refine setF_keeps (hw₀.sub rfl) _ _ _ reg_COLL_DEGRADE_ACTIVE ?_
    | refine setF_keeps (hw₀.sub rfl) _ _ _ reg_COLL_DEGRADE_LOST_POS ?_
    | refine setF_keeps (hw₀.sub rfl) _ _ _ reg_COLL_DEGRADE_STANDIN ?_
    | refine setF_keeps (hw₀.sub rfl) _ _ _ reg_COLL_DEGRADE_PREV_ACTIVE ?_
    | refine setF_keeps (hw₀.sub rfl) _ _ _ reg_COLL_DEGRADE_PREV_POS ?_
    | refine setF_keeps (hw₀.sub rfl) _ _ _ reg_COLL_DEGRADE_NEXT_ACTIVE ?_
    | refine setF_keeps (hw₀.sub rfl) _ _ _ reg_COLL_DEGRADE_NEXT_POS ?_
    | refine setF_keeps (hw₀.sub rfl) _ _ _ reg_COLL_DEGRADE_SERVING ?_ | split

theorem degClears_keeps
    (hw₀ : Has 0x7f8000000000000000000000000000000000000000000000000000000000000000000000000000200000 w₀) (x1 : List
    (Nat × Nat)) {x2 : State} (h₀ : Keeps w₀ s₀ x2) :
    Keeps w₀ s₀ (degClears x1 x2) := by
  revert h₀
  fun_induction degClears x1 x2 <;> intro h₀
  all_goals repeat' with_reducible first
    | apply report_keeps (hw₀.sub rfl) | apply degClearOne_keeps (hw₀.sub rfl) | apply_assumption -exfalso

theorem degSets_keeps (hw₀ : Has 0x600000000000000000000000000000000000000000000000000000000000000000000000000000000000 w₀) : ∀ (l : List Nat) {s : State}, Keeps w₀ s₀ s → Keeps w₀ s₀ (degSets l s)
  | [], _, h => h
  | k :: r, s, h => by
    rw [degSets]
    refine degSets_keeps hw₀ r ?_
    split
    · exact setF_keeps (hw₀.sub rfl) _ _ _ reg_COLL_DEGRADE_STANDIN h
    · exact setF_keeps (hw₀.sub rfl) _ _ _ reg_COLL_DEGRADE_SERVING h

theorem degApply_keeps
    (hw₀ : Has 0x7f80000000000000000000000000000000000000000000000000000000000000000000000000002c0000 w₀) {s : State}
    (h₀ : Keeps w₀ s₀ s) :
    Keeps w₀ s₀ (degApply s) := by
  unfold degApply
  repeat' with_reducible first
    | assumption | apply degSets_keeps (hw₀.sub rfl) | apply degClears_keeps (hw₀.sub rfl)
    | apply keeps_degSet_degClear (hw₀.sub rfl)

theorem armFirst_keeps (hw₀ : Has 0x4004000000000000000000000000000000000008000010000c w₀) (c n : Nat) (older : List Step)
    (x1 : List Blk) {x2 : State} (h₀ : Keeps w₀ s₀ x2) :
    Keeps w₀ s₀ (armFirst c n older x1 x2) := by
  revert h₀
  fun_induction armFirst c n older x1 x2 <;> intro h₀
  all_goals repeat' with_reducible first
    | apply armBlk_keeps (hw₀.sub rfl) | apply_assumption -exfalso | split

theorem publishHeld_keeps
    (hw₀ : Has 0x10f01100000040002000000000080000000000000004c048fc400400010800000000000000000000008000a93010c w₀)
    (x1 : List (Nat × Job)) {x2 : State} (h₀ : Keeps w₀ s₀ x2) :
    Keeps w₀ s₀ (publishHeld x1 x2) := by
  revert h₀
  fun_induction publishHeld x1 x2 <;> intro h₀
  all_goals repeat' with_reducible first
    | apply publishJob_keeps (hw₀.sub rfl) | apply_assumption -exfalso | split

theorem rejectHeld_keeps (hw₀ : Has 0x40040000005800813e4200000100000000189008000011800c w₀) (x1 : List (Nat × Job))
    {x2 : State} (h₀ : Keeps w₀ s₀ x2) :
    Keeps w₀ s₀ (rejectHeld x1 x2) := by
  revert h₀
  fun_induction rejectHeld x1 x2 <;> intro h₀
  all_goals repeat' with_reducible first
    | apply rejectJob_keeps (hw₀.sub rfl) | apply rootDiv_keeps (hw₀.sub rfl) | apply_assumption -exfalso | split

theorem jrnHub_keeps (hw₀ : Has 0x100000 w₀) (c type : Nat) (x1 : List (List Byte)) {x2 : State} (h₀ : Keeps w₀ s₀ x2) :
    Keeps w₀ s₀ (jrnHub c type x1 x2) := by
  revert h₀
  fun_induction jrnHub c type x1 x2 <;> intro h₀
  all_goals repeat' with_reducible first
    | apply jrnCtx_keeps (hw₀.sub rfl) | apply_assumption -exfalso

theorem jobSeedRec_keeps (hw₀ : Has 0x100000 w₀) (c n : Nat) {s : State} (h₀ : Keeps w₀ s₀ s) :
    Keeps w₀ s₀ (jobSeedRec c n s) := by
  unfold jobSeedRec
  repeat' with_reducible first
    | assumption | apply keeps_ite | apply jrnCtx_keeps (hw₀.sub rfl) | apply modCtx_keeps (hw₀.sub rfl)

theorem addStep_keeps (hw₀ : Has 0x120000 w₀) (c : Nat) (st : Step) {s : State} (h₀ : Keeps w₀ s₀ s) :
    Keeps w₀ s₀ (addStep c st s) := by
  unfold addStep
  repeat' with_reducible first
    | assumption | apply modCtx_keeps (hw₀.sub rfl) | split | apply keeps_cul (hw₀.sub rfl)

theorem stepBegin_keeps
    (hw₀ : Has 0x10f0110087f8453c2000000000080040001b80000004c048fc400580091be4200000140000000189008000abfd90c w₀)
    (h : Nat) (e : List Byte) (o : Opening) {s : State} (h₀ : Keeps w₀ s₀ s) :
    Keeps w₀ s₀ (stepBegin h e o s) := by
  unfold stepBegin
  repeat' with_reducible first
    | assumption | apply degApply_keeps (hw₀.sub rfl) | apply jrnHub_keeps (hw₀.sub rfl) | apply jrnCtx_keeps (hw₀.sub rfl)
    | apply jobSeedRec_keeps (hw₀.sub rfl) | apply armFirst_keeps (hw₀.sub rfl) | apply addStep_keeps (hw₀.sub rfl)
    | apply publishHeld_keeps (hw₀.sub rfl) | apply rejectHeld_keeps (hw₀.sub rfl) | apply matchEarly_keeps (hw₀.sub rfl)
    | apply openChain_keeps (hw₀.sub rfl) | apply startLists_keeps (hw₀.sub rfl)

theorem readSamples_keeps (hw₀ : Has 0x4c048fc4000000000000000000000000000000080000800100 w₀) (n x1 x2 x3 : Nat)
    {x4 : State} (h₀ : Keeps w₀ s₀ x4) :
    Keeps w₀ s₀ (readSamples n x1 x2 x3 x4).2 := by
  revert h₀
  fun_induction readSamples n x1 x2 x3 x4 <;> intro h₀
  all_goals repeat' with_reducible first
    | apply engRead_keeps (hw₀.sub rfl) | apply_assumption -exfalso | refine keeps_snd (by assumption) ?_

theorem stepFetch_keeps
    (hw₀ : Has 0x10f0110087f8453c2000000000080040001b80000004c048fc400580091be4200000140000000189008000abfd90c w₀)
    (h : Nat) (e raw : List Byte) (ts : Tables) {s : State} (h₀ : Keeps w₀ s₀ s) :
    Keeps w₀ s₀ (stepFetch h e raw ts s) := by
  unfold stepFetch
  repeat' with_reducible first
    | assumption | intro _ | apply cmdRead_keeps (hw₀.sub rfl) | apply readSamples_keeps (hw₀.sub rfl)
    | apply report_keeps (hw₀.sub rfl) | apply stepBegin_keeps (hw₀.sub rfl) | split | refine keeps_snd (by assumption) ?_

theorem stepWaits_keeps (hw₀ : Has 0x100000 w₀) (h : Nat) {s : State} (h₀ : Keeps w₀ s₀ s) :
    Keeps w₀ s₀ (stepWaits h s) := by
  unfold stepWaits
  repeat' with_reducible first
    | assumption | apply setTurn_keeps (hw₀.sub rfl) | apply unrunCmd_keeps (hw₀.sub rfl)

theorem stepReplay_keeps
    (hw₀ : Has 0x2000c00000000010f0110087f8453c2000000000080040001b80000004c048fc400580091be4200000140000000189008000abfd90c w₀)
    (h : Nat) (e raw : List Byte) (ts : Tables) {s : State} (h₀ : Keeps w₀ s₀ s) :
    Keeps w₀ s₀ (stepReplay h e raw ts s) := by
  unfold stepReplay
  repeat' with_reducible first
    | assumption | apply keeps_ite | apply stepFetch_keeps (hw₀.sub rfl) | apply replayFor_keeps (hw₀.sub rfl)
    | apply report_keeps (hw₀.sub rfl) | apply stepWaits_keeps (hw₀.sub rfl) | apply setCtxEvt_keeps (hw₀.sub rfl) | split
    | refine keeps_snd (by assumption) ?_

theorem stepJudge_keeps
    (hw₀ : Has 0x2000c00000000010f0110087f8453c2000000000080040001b80000004c048fc400580091be4200000140000000189008000abfd90c w₀)
    (h : Nat) (e raw : List Byte) (ts : Tables) (ok : Bool) {s : State} (h₀ : Keeps w₀ s₀ s) :
    Keeps w₀ s₀ (stepJudge h e raw ts ok s) := by
  unfold stepJudge
  repeat' with_reducible first
    | assumption | apply report_keeps (hw₀.sub rfl) | apply stepReplay_keeps (hw₀.sub rfl) | split

theorem stepTables_keeps
    (hw₀ : Has 0x2000c0000000001cf0110087f8453c2000000000080040001b80000004c048fc400580091be4200600140000000189008000abfd90c w₀)
    (h : Nat) (e raw dir : List Byte) {s : State} (h₀ : Keeps w₀ s₀ s) :
    Keeps w₀ s₀ (stepTables h e raw dir s) := by
  unfold stepTables
  try dsimp -proj only
  repeat' with_reducible first
    | assumption | apply readTables_keeps (hw₀.sub rfl) | apply report_keeps (hw₀.sub rfl)
    | apply checkTables_keeps (hw₀.sub rfl) | apply checkTwin_keeps (hw₀.sub rfl) | apply stepJudge_keeps (hw₀.sub rfl)
    | split | refine keeps_snd (by assumption) ?_

theorem stepAttempt_keeps
    (hw₀ : Has 0x2000c0000000001cf0110087f8453c2000000000080040001b80000004c048fc400580091be4200600140000000189008000abfd90c w₀)
    (h : Nat) (e : List Byte) {s : State} (h₀ : Keeps w₀ s₀ s) :
    Keeps w₀ s₀ (stepAttempt h e s) := by
  unfold stepAttempt
  repeat' with_reducible first
    | assumption | intro _ | apply cmdRead_keeps (hw₀.sub rfl) | apply stepTables_keeps (hw₀.sub rfl)

theorem stepOpen_keeps
    (hw₀ : Has 0x2000c0000000001cf0110087f8453c2000000000080040001b80000004c048fc400580091be4200600140000000189008000abfd90c w₀)
    (h : Nat) {s : State} (h₀ : Keeps w₀ s₀ s) :
    Keeps w₀ s₀ (stepOpen h s) := by
  unfold stepOpen
  repeat' with_reducible first
    | assumption | intro _ | apply runCmd_keeps (hw₀.sub rfl) | apply stepAttempt_keeps (hw₀.sub rfl)
    | apply stepWaits_keeps (hw₀.sub rfl) | split

theorem execStepOpen_keeps
    (hw₀ : Has 0x2000c0000000001cf0110087f8453c2000000000080040001b80000004c048fc400580091be4200600140000000189008000abfd90c w₀)
    (h : Nat) {s : State} (h₀ : Keeps w₀ s₀ s) :
    ∀ t₁, execStepOpen h s = .next t₁ → Keeps w₀ s₀ t₁ := by
  unfold execStepOpen
  intro t₁ ht
  split at ht <;> cases ht
  repeat' with_reducible first
    | assumption | apply awake_keeps | apply stepOpen_keeps (hw₀.sub rfl)

theorem stepRetry_keeps
    (hw₀ : Has 0x2000c0000000001cf0110087f8453c2000000000080040001b80000004c048fc400580091be4200600140000000189008000abfd90c w₀)
    (h : Nat) {s : State} (h₀ : Keeps w₀ s₀ s) :
    Keeps w₀ s₀ (stepRetry h s) := by
  unfold stepRetry
  repeat' with_reducible first
    | assumption | apply runCmd_keeps (hw₀.sub rfl) | apply stepAttempt_keeps (hw₀.sub rfl)
    | apply setTurn_keeps (hw₀.sub rfl) | split

theorem execStepOpenDeferred_keeps
    (hw₀ : Has 0x2000c0000000001cf0110087f8453c2000000000080040001b80000004c048fc400580091be4200600140000000189008000abfd90c w₀)
    (h : Nat) {s : State} (h₀ : Keeps w₀ s₀ s) :
    ∀ t₁, execStepOpenDeferred h s = .next t₁ → Keeps w₀ s₀ t₁ := by
  unfold execStepOpenDeferred
  intro t₁ ht
  split at ht <;> cases ht
  repeat' with_reducible first
    | assumption | apply awake_keeps | apply stepRetry_keeps (hw₀.sub rfl)

theorem replayRead_keeps
    (hw₀ : Has 0x2000c0000000001cf0110087f8453c2000000000080040001b80000004c048fc400580091be4200600140000000189008000abfd90c w₀)
    (h : Nat) {s : State} (h₀ : Keeps w₀ s₀ s) :
    Keeps w₀ s₀ (replayRead h s) := by
  unfold replayRead
  repeat' with_reducible first
    | assumption | apply stepRetry_keeps (hw₀.sub rfl) | split

theorem execReplayRead_keeps
    (hw₀ : Has 0x2000c0000000001cf0110087f8453c2000000000080040001b80000004c048fc400580091be4200600140000000189008000abfd90c w₀)
    (h : Nat) {s : State} (h₀ : Keeps w₀ s₀ s) :
    ∀ t₁, execReplayRead h s = .next t₁ → Keeps w₀ s₀ t₁ := by
  unfold execReplayRead
  intro t₁ ht
  split at ht <;> cases ht
  repeat' with_reducible first
    | assumption | apply awake_keeps | apply replayRead_keeps (hw₀.sub rfl)

theorem dropCarries_keeps
    (hw₀ : Has 0x800041002000000000080000000000000000000000000000000000000000000000000000008000a100000 w₀) (c : Nat)
    (x1 : List (Recv × Xfer)) {x2 : State} (h₀ : Keeps w₀ s₀ x2) :
    Keeps w₀ s₀ (dropCarries c x1 x2) := by
  revert h₀
  fun_induction dropCarries c x1 x2 <;> intro h₀
  all_goals repeat' with_reducible first
    | apply carryDrop_keeps (hw₀.sub rfl) | apply_assumption -exfalso

theorem collClose_keeps
    (hw₀ : Has 0x800041002000000000080000000000000000000000000000000000000000000000000000008000a100000 w₀) (c n : Nat)
    {s : State} (h₀ : Keeps w₀ s₀ s) :
    Keeps w₀ s₀ (collClose c n s) := by
  unfold collClose
  repeat' with_reducible first
    | assumption | apply dropCarries_keeps (hw₀.sub rfl) | apply modColl_keeps (hw₀.sub rfl) | split

theorem closeStep_keeps
    (hw₀ : Has 0x10f01000800041002000000000080000000000000004c048fc400000000000000000000000000000008000af20120 w₀)
    (c : Nat) (st : Step) {s : State} (h₀ : Keeps w₀ s₀ s) :
    Keeps w₀ s₀ (closeStep c st s) := by
  unfold closeStep
  repeat' with_reducible first
    | assumption | apply jrnCtx_keeps (hw₀.sub rfl) | apply collClose_keeps (hw₀.sub rfl)
    | apply ckptAfterCut_keeps (hw₀.sub rfl) | apply ckptAtCut_keeps (hw₀.sub rfl) | apply modCtx_keeps (hw₀.sub rfl)
    | apply auditStart_keeps (hw₀.sub rfl) | apply report_keeps (hw₀.sub rfl) | apply keeps_lastClosed (hw₀.sub rfl)

theorem stepClose_keeps
    (hw₀ : Has 0x10f01000800041002000000000080000000000000004c048fc400000000000000000000000000000008000af20120 w₀)
    (c n : Nat) {s : State} (h₀ : Keeps w₀ s₀ s) :
    Keeps w₀ s₀ (stepClose c n s) := by
  unfold stepClose
  repeat' with_reducible first
    | assumption | apply closeStep_keeps (hw₀.sub rfl) | split

theorem execStepClose_keeps
    (hw₀ : Has 0x10f01000800041002000000000080000000000000004c048fc400000000000000000000000000000008000af20120 w₀)
    (c n : Nat) {s : State} (h₀ : Keeps w₀ s₀ s) :
    ∀ t₁, execStepClose c n s = .next t₁ → Keeps w₀ s₀ t₁ := by
  unfold execStepClose
  intro t₁ ht
  cases ht
  repeat' with_reducible first
    | assumption | apply awake_keeps | apply stepClose_keeps (hw₀.sub rfl)

end Sys2Proof.Machine
end

