-- ==== Sys2Proof/Laws/KeepsRestore.lean ====
section
/-! SUPPORT. What the functions of Machine/Restore.lean may change. -/

namespace Sys2Proof.Machine

set_option exponentiation.threshold 600

variable {w₀ : Nat} {s₀ : State}

theorem modRestore_keeps (hw₀ : Has 0x100000 w₀) (c : Nat) (f : Restore → Restore) {s : State} (h₀ : Keeps w₀ s₀ s) :
    Keeps w₀ s₀ (modRestore c f s) := by
  unfold modRestore
  repeat' with_reducible first
    | assumption | apply modCtx_keeps (hw₀.sub rfl)

theorem askNext_keeps (hw₀ : Has 0x40002000000000080000000000000000000000000000000000000000000000000000008000a000000 w₀)
    (c : Nat) {s : State} (h₀ : Keeps w₀ s₀ s) :
    Keeps w₀ s₀ (askNext c s) := by
  unfold askNext
  repeat' with_reducible first
    | assumption | apply peerSend_keeps (hw₀.sub rfl) | split

theorem readData_keeps (hw₀ : Has 0x100000 w₀) (f : Frame) {s : State} (h₀ : Keeps w₀ s₀ s) :
    Keeps w₀ s₀ (readData f s) := by
  unfold readData
  repeat' with_reducible first
    | assumption | apply modRestore_keeps (hw₀.sub rfl) | split

theorem execReadData_keeps (hw₀ : Has 0x10100000 w₀) {s : State} (h₀ : Keeps w₀ s₀ s) :
    ∀ t₁, execReadData s = .next t₁ → Keeps w₀ s₀ t₁ := by
  unfold execReadData
  intro t₁ ht
  cases ht
  repeat' with_reducible first
    | assumption | apply awake_keeps | apply peerTake_keeps (hw₀.sub rfl) | apply readData_keeps (hw₀.sub rfl)

theorem restore_keeps (hw₀ : Has 0x40002000000000080000000000000004c048fc400000000000000000000000000000008000ab00100 w₀)
    (h dir : Nat) {s : State} (h₀ : Keeps w₀ s₀ s) :
    Keeps w₀ s₀ (restore h dir s) := by
  unfold restore
  repeat' with_reducible first
    | assumption | intro _ | apply keeps_ite | apply runCmd_keeps (hw₀.sub rfl) | apply report_keeps (hw₀.sub rfl)
    | apply cmdRead_keeps (hw₀.sub rfl) | apply askNext_keeps (hw₀.sub rfl) | apply modCtx_keeps (hw₀.sub rfl)
    | apply readTables_keeps (hw₀.sub rfl) | split | refine keeps_snd (by assumption) ?_

theorem execRestore_keeps
    (hw₀ : Has 0x40002000000000080000000000000004c048fc400000000000000000000000000000008000ab00100 w₀) (h dir : Nat)
    {s : State} (h₀ : Keeps w₀ s₀ s) :
    ∀ t₁, execRestore h dir s = .next t₁ → Keeps w₀ s₀ t₁ := by
  unfold execRestore
  intro t₁ ht
  cases ht
  repeat' with_reducible first
    | assumption | apply awake_keeps | apply restore_keeps (hw₀.sub rfl)

theorem restoreFails_keeps (hw₀ : Has 0x100000 w₀) (c st gbi : Nat) {s : State} (h₀ : Keeps w₀ s₀ s) :
    Keeps w₀ s₀ (restoreFails c st gbi s) := by
  unfold restoreFails
  repeat' with_reducible first
    | assumption | apply modRestore_keeps (hw₀.sub rfl)

theorem restartRoot_keeps (hw₀ : Has 0x800000640000000000000001890000000018000 w₀) (c : Nat) (b : Blk) {s : State} (h₀ : Keeps w₀ s₀ s) :
    Keeps w₀ s₀ (restartRoot c b s) := by
  unfold restartRoot
  try dsimp -proj only
  repeat' with_reducible first
    | assumption | apply modSeq_keeps (hw₀.sub rfl) | apply stopJob_keeps (hw₀.sub rfl) | split | dsimp -proj only

theorem restoreFields_keeps (hw₀ : Has 0x4004000000000000000000000000000000000008000000000c w₀) (b : Blk) (rb : List Byte)
    (fac : Bool) {s : State} (h₀ : Keeps w₀ s₀ s) :
    Keeps w₀ s₀ (restoreFields b rb fac s) := by
  unfold restoreFields
  repeat' with_reducible first
    | assumption | apply recPut_keeps (hw₀.sub rfl) | apply clearWip_keeps (hw₀.sub rfl) | split

theorem restoreBlk_keeps (hw₀ : Has 0x4004000000000000000000000000000000000008000000000c w₀) (b : Blk) (raw : List Byte)
    (secs : Nat) (keepF : Bool) {s : State} (h₀ : Keeps w₀ s₀ s) :
    Keeps w₀ s₀ (restoreBlk b raw secs keepF s) := by
  unfold restoreBlk
  repeat' with_reducible first
    | assumption | apply memStore_keeps (hw₀.sub rfl) | apply restoreFields_keeps (hw₀.sub rfl) | split

theorem gapMissed_keeps (hw₀ : Has 0x100000 w₀) (c : Nat) (b : Blk) (tidemark : Nat) {s : State} (h₀ : Keeps w₀ s₀ s) :
    Keeps w₀ s₀ (gapMissed c b tidemark s) := by
  unfold gapMissed
  repeat' with_reducible first
    | assumption | apply jrnCtx_keeps (hw₀.sub rfl)

theorem gapNote_keeps (hw₀ : Has 0x100000 w₀) (c : Nat) (b : Blk) (rb : List Byte) (keepF : Bool) {s : State}
    (h₀ : Keeps w₀ s₀ s) :
    Keeps w₀ s₀ (gapNote c b rb keepF s) := by
  unfold gapNote
  repeat' with_reducible first
    | assumption | apply gapMissed_keeps (hw₀.sub rfl) | split

theorem adoptTiles_keeps (hw₀ : Has 0x4004000000000000000000000000000000000008000000000c w₀) (i : Nat) (b : Blk)
    (kind n x1 : Nat) (x2 : List Byte) {x3 : State} (h₀ : Keeps w₀ s₀ x3) :
    Keeps w₀ s₀ (adoptTiles i b kind n x1 x2 x3) := by
  revert h₀
  fun_induction adoptTiles i b kind n x1 x2 x3 <;> intro h₀
  all_goals repeat' with_reducible first
    | apply memStore_keeps (hw₀.sub rfl) | apply_assumption -exfalso

theorem restoreTwin_keeps (hw₀ : Has 0x4004000000000000000000000000000000000008000000000c w₀) (i : Nat) (b : Blk)
    (raw : List Byte) (secs : Nat) {s : State} (h₀ : Keeps w₀ s₀ s) :
    Keeps w₀ s₀ (restoreTwin i b raw secs s) := by
  unfold restoreTwin
  repeat' with_reducible first
    | assumption | apply adoptTiles_keeps (hw₀.sub rfl) | apply setChkFlags_keeps (hw₀.sub rfl) | split

theorem applyBlock_keeps (hw₀ : Has 0x4004000000080000064000000000000000189008000011800c w₀) (c gbi secs : Nat)
    (raw : List Byte) {s : State} (h₀ : Keeps w₀ s₀ s) :
    Keeps w₀ s₀ (applyBlock c gbi secs raw s) := by
  unfold applyBlock
  repeat' with_reducible first
    | assumption | apply keeps_ite | apply restoreFails_keeps (hw₀.sub rfl) | apply restoreTwin_keeps (hw₀.sub rfl)
    | apply restoreBlk_keeps (hw₀.sub rfl) | apply gapNote_keeps (hw₀.sub rfl) | apply modRestore_keeps (hw₀.sub rfl)
    | apply restartRoot_keeps (hw₀.sub rfl) | split

theorem applyExtra_keeps (hw₀ : Has 0x4004000000000000000000000000000000000008000010000c w₀) (c i : Nat) (raw : List Byte)
    {s : State} (h₀ : Keeps w₀ s₀ s) :
    Keeps w₀ s₀ (applyExtra c i raw s) := by
  unfold applyExtra
  repeat' with_reducible first
    | assumption | apply modRestore_keeps (hw₀.sub rfl) | apply memStore_keeps (hw₀.sub rfl) | split

theorem carryBack_keeps (hw₀ : Has 0x4004000000000000000000000000000000000018000010000c w₀) (c : Nat) (raw : List Byte) {s : State} (h₀ : Keeps w₀ s₀ s) :
    Keeps w₀ s₀ (carryBack c raw s) := by
  unfold carryBack
  repeat' with_reducible first
    | assumption | apply freshWord_keeps (hw₀.sub rfl) | apply modRecv_keeps (hw₀.sub rfl)
    | apply modColl_keeps (hw₀.sub rfl) | apply modRestore_keeps (hw₀.sub rfl) | apply carryStores_keeps (hw₀.sub rfl)
    | refine keeps_snd (by assumption) ?_ | split | dsimp -proj only

theorem applyCarry_keeps (hw₀ : Has 0x4004000000000000000000000000000000000018000010000c w₀) (c : Nat) (raw : List Byte) {s : State} (h₀ : Keeps w₀ s₀ s) :
    Keeps w₀ s₀ (applyCarry c raw s) := by
  unfold applyCarry
  repeat' with_reducible first
    | assumption | apply modRestore_keeps (hw₀.sub rfl) | apply carryBack_keeps (hw₀.sub rfl)

theorem applyRecord_keeps
    (hw₀ : Has 0x2000000000000000000000000000000000000000000000000000000004004000000080000064000000000000000189018000011800c w₀)
    (c : Nat) (e bs : List Byte) {s : State} (h₀ : Keeps w₀ s₀ s) :
    Keeps w₀ s₀ (applyRecord c e bs s) := by
  unfold applyRecord
  repeat' with_reducible first
    | assumption | apply setCtxEvt_keeps (hw₀.sub rfl) | apply restoreFails_keeps (hw₀.sub rfl)
    | apply modRestore_keeps (hw₀.sub rfl) | apply applyBlock_keeps (hw₀.sub rfl) | apply applyCarry_keeps (hw₀.sub rfl)
    | apply applyExtra_keeps (hw₀.sub rfl) | split

theorem restoreRecordApply_keeps
    (hw₀ : Has 0x2000000000000000000000000040002000000000080000000000000004004000000080000064000000000000000189018000a11800c w₀)
    (c : Nat) (hd : List Byte) {s : State} (h₀ : Keeps w₀ s₀ s) :
    Keeps w₀ s₀ (restoreRecordApply c hd s) := by
  unfold restoreRecordApply
  repeat' with_reducible first
    | assumption | apply askNext_keeps (hw₀.sub rfl) | apply modRestore_keeps (hw₀.sub rfl)
    | apply applyRecord_keeps (hw₀.sub rfl) | split

theorem execRestoreRecordApply_keeps
    (hw₀ : Has 0x2000000000000000000000000040002000000000080000000000000004004000000080000064000000000000000189018000a11800c w₀)
    (c : Nat) (hd : List Byte) {s : State} (h₀ : Keeps w₀ s₀ s) :
    ∀ t₁, execRestoreRecordApply c hd s = .next t₁ → Keeps w₀ s₀ t₁ := by
  unfold execRestoreRecordApply
  intro t₁ ht
  cases ht
  repeat' with_reducible first
    | assumption | apply awake_keeps | apply restoreRecordApply_keeps (hw₀.sub rfl)

theorem restoreComplete_keeps (hw₀ : Has 0x300000 w₀) (c : Nat) {s : State} (h₀ : Keeps w₀ s₀ s) :
    Keeps w₀ s₀ (restoreComplete c s) := by
  unfold restoreComplete
  repeat' with_reducible first
    | assumption | apply jrnCtx_keeps (hw₀.sub rfl) | apply modCtx_keeps (hw₀.sub rfl) | apply report_keeps (hw₀.sub rfl)
    | split

theorem execRestoreComplete_keeps (hw₀ : Has 0x300000 w₀) (c : Nat) {s : State} (h₀ : Keeps w₀ s₀ s) :
    ∀ t₁, execRestoreComplete c s = .next t₁ → Keeps w₀ s₀ t₁ := by
  unfold execRestoreComplete
  intro t₁ ht
  cases ht
  repeat' with_reducible first
    | assumption | apply awake_keeps | apply restoreComplete_keeps (hw₀.sub rfl)

end Sys2Proof.Machine
end

