-- ==== Sys2Proof/Laws/KeepsDegrade.lean ====
section
/-! SUPPORT. What the functions of Machine/Degrade.lean may change. -/

namespace Sys2Proof.Machine

set_option exponentiation.threshold 600

variable {w₀ : Nat} {s₀ : State}

theorem lossRecvs_keeps
    (hw₀ : Has 0x980041402000000000080040001a00000004004000000000000000000000000000000000008000a10180c w₀) (c k : Nat)
    (x1 : List Recv) {x2 : State} (h₀ : Keeps w₀ s₀ x2) :
    Keeps w₀ s₀ (lossRecvs c k x1 x2) := by
  revert h₀
  fun_induction lossRecvs c k x1 x2 <;> intro h₀
  all_goals repeat' with_reducible first
    | apply lossRecv_keeps (hw₀.sub rfl) | apply_assumption -exfalso

theorem lossSends_keeps (hw₀ : Has 0x40001a000000000000000000000000000000000000000000000080000101800 w₀) (c m : Nat)
    (x1 : List Send) {x2 : State} (h₀ : Keeps w₀ s₀ x2) :
    Keeps w₀ s₀ (lossSends c m x1 x2) := by
  revert h₀
  fun_induction lossSends c m x1 x2 <;> intro h₀
  all_goals repeat' with_reducible first
    | apply sendEnd_keeps (hw₀.sub rfl) | apply modColl_keeps (hw₀.sub rfl) | apply_assumption -exfalso | split

theorem lossActs_keeps
    (hw₀ : Has 0x980041402000000000080040001a00000004004000000000000000000000000000000000008000a10180c w₀) (k x1 : Nat)
    {x2 : State} (h₀ : Keeps w₀ s₀ x2) :
    Keeps w₀ s₀ (lossActs k x1 x2) := by
  revert h₀
  fun_induction lossActs k x1 x2 <;> intro h₀
  all_goals repeat' with_reducible first
    | apply lossSends_keeps (hw₀.sub rfl) | apply lossRecvs_keeps (hw₀.sub rfl) | apply_assumption -exfalso

theorem tornTiles_keeps (hw₀ : Has 0x4c048fc4000000000000000000000000000000080000800100 w₀) (i : Nat) (b : Blk)
    (kind x1 x2 : Nat) {x3 : State} (h₀ : Keeps w₀ s₀ x3) :
    Keeps w₀ s₀ (tornTiles i b kind x1 x2 x3).2 := by
  revert h₀
  fun_induction tornTiles i b kind x1 x2 x3 <;> intro h₀
  all_goals repeat' with_reducible first
    | apply engRead_keeps (hw₀.sub rfl) | apply_assumption -exfalso | refine keeps_snd (by assumption) ?_

theorem adoptNew_keeps (hw₀ : Has 0x4004000000000000000000000000000000000008000000000c w₀) (i : Nat) (b : Blk)
    (kind x1 : Nat) (x2 : List Bool) {x3 : State} (h₀ : Keeps w₀ s₀ x3) :
    Keeps w₀ s₀ (adoptNew i b kind x1 x2 x3) := by
  revert h₀
  fun_induction adoptNew i b kind x1 x2 x3 <;> intro h₀
  all_goals repeat' with_reducible first
    | apply memStore_keeps (hw₀.sub rfl) | apply_assumption -exfalso | split

theorem resolveW_keeps
    (hw₀ : Has 0x10f01000000000000000000000000000000000000004c048fc400000000000000000000000000000008000082010c w₀)
    (i : Nat) (b : Blk) (inStep : Nat) (g : Gap) {s : State} (h₀ : Keeps w₀ s₀ s) :
    Keeps w₀ s₀ (resolveW i b inStep g s).2 := by
  unfold resolveW
  repeat' with_reducible first
    | assumption | apply tornTiles_keeps (hw₀.sub rfl) | apply markSuspect_keeps (hw₀.sub rfl)
    | apply recPut_keeps (hw₀.sub rfl) | apply adoptNew_keeps (hw₀.sub rfl) | split | refine keeps_snd (by assumption) ?_

theorem resolveF_keeps
    (hw₀ : Has 0x10f01000000000000000000000000000000000000004c048fc400000000000000000000000000000008000082010c w₀)
    (i : Nat) (b : Blk) (g : Gap) {s : State} (h₀ : Keeps w₀ s₀ s) :
    Keeps w₀ s₀ (resolveF i b g s).2 := by
  unfold resolveF
  repeat' with_reducible first
    | assumption | dsimp only | apply tornTiles_keeps (hw₀.sub rfl) | apply markSuspect_keeps (hw₀.sub rfl)
    | apply recPut_keeps (hw₀.sub rfl) | apply adoptNew_keeps (hw₀.sub rfl) | split | refine keeps_snd (by assumption) ?_

theorem gapRecord_keeps (hw₀ : Has 0x100000 w₀) (c step gbi : Nat) (g : Gap) {s : State} (h₀ : Keeps w₀ s₀ s) :
    Keeps w₀ s₀ (gapRecord c step gbi g s) := by
  unfold gapRecord
  repeat' with_reducible first
    | assumption | apply jrnCtx_keeps (hw₀.sub rfl) | split

theorem resolveBlk_keeps
    (hw₀ : Has 0x10f01000000000000000000000000000000000000004c048fc400000000000000000000000000000008000092010c w₀)
    (i : Nat) {s : State} (h₀ : Keeps w₀ s₀ s) :
    Keeps w₀ s₀ (resolveBlk i s) := by
  unfold resolveBlk
  repeat' with_reducible first
    | assumption | apply resolveW_keeps (hw₀.sub rfl) | apply resolveF_keeps (hw₀.sub rfl)
    | apply setChkFlags_keeps (hw₀.sub rfl) | apply gapRecord_keeps (hw₀.sub rfl) | split | apply keeps_cul (hw₀.sub rfl)

theorem absentCommit_keeps
    (hw₀ : Has 0x10f01000000040002000000000080000000000000004c048fc4000800000642000e1128000000189018000a93810c w₀)
    (c : Nat) (st : Step) (b : Blk) {s : State} (h₀ : Keeps w₀ s₀ s) :
    Keeps w₀ s₀ (absentCommit c st b s) := by
  unfold absentCommit
  try dsimp -proj only
  repeat' with_reducible first
    | assumption | apply freshWord_keeps (hw₀.sub rfl) | apply jrnCtx_keeps (hw₀.sub rfl) | apply rootUse_keeps (hw₀.sub rfl)
    | apply droughtWatch_keeps (hw₀.sub rfl) | apply recPut_keeps (hw₀.sub rfl) | apply wholeBuf_keeps (hw₀.sub rfl)
    | apply factorWrite_keeps (hw₀.sub rfl) | split | refine keeps_snd (by assumption) ?_

theorem absentCommits_keeps
    (hw₀ : Has 0x10f01000000040002000000000080000000000000004c048fc4000800000642000e1128000000189018000a93810c w₀)
    (c : Nat) (b : Blk) (x1 : List Step) {x2 : State} (h₀ : Keeps w₀ s₀ x2) :
    Keeps w₀ s₀ (absentCommits c b x1 x2) := by
  revert h₀
  fun_induction absentCommits c b x1 x2 <;> intro h₀
  all_goals repeat' with_reducible first
    | apply absentCommit_keeps (hw₀.sub rfl) | apply_assumption -exfalso | split

theorem takeUp_keeps
    (hw₀ : Has 0x10f01000000040002000000000080000000000000004c048fc4000800000642000e1128000000189018000a93810c w₀)
    (x1 : Nat) {x2 : State} (h₀ : Keeps w₀ s₀ x2) :
    Keeps w₀ s₀ (takeUp x1 x2) := by
  revert h₀
  fun_induction takeUp x1 x2 <;> intro h₀
  all_goals repeat' with_reducible first
    | apply resolveBlk_keeps (hw₀.sub rfl) | apply absentCommits_keeps (hw₀.sub rfl) | apply_assumption -exfalso

theorem fetchesLost_keeps
    (hw₀ : Has 0x10f010000000000000000000000000000000000000000000000000000000000000000000000000000080000120000 w₀)
    (x1 : List Fetch) {x2 : State} (h₀ : Keeps w₀ s₀ x2) :
    Keeps w₀ s₀ (fetchesLost x1 x2) := by
  revert h₀
  fun_induction fetchesLost x1 x2 <;> intro h₀
  all_goals repeat' with_reducible first
    | apply tileLost_keeps (hw₀.sub rfl) | apply dropFetch_keeps (hw₀.sub rfl) | apply_assumption -exfalso | split

theorem twinGone_keeps
    (hw₀ : Has 0x10f01000000040002000000000080000000000000004c048fc4000800000642000e1128000000189018000a97810c w₀)
    {s : State} (h₀ : Keeps w₀ s₀ s) :
    Keeps w₀ s₀ (twinGone s) := by
  unfold twinGone
  repeat' with_reducible first
    | assumption | apply fetchesLost_keeps (hw₀.sub rfl) | apply takeUp_keeps (hw₀.sub rfl) | apply keeps_cul (hw₀.sub rfl)
    | apply keeps_degSet (hw₀.sub rfl)

theorem degFld1_keeps (hw₀ : Has 0x1f8000000000000000000000000000000000000000000000000000000000000000000000000000000000 w₀) (k i v : Nat) {s : State} (h₀ : Keeps w₀ s₀ s) :
    Keeps w₀ s₀ (setF (degFlds k).1 i v s) := by
  unfold degFlds
  split
  · exact setF_keeps (hw₀.sub rfl) _ _ _ reg_COLL_DEGRADE_ACTIVE h₀
  · exact setF_keeps (hw₀.sub rfl) _ _ _ reg_COLL_DEGRADE_PREV_ACTIVE h₀
  · exact setF_keeps (hw₀.sub rfl) _ _ _ reg_COLL_DEGRADE_NEXT_ACTIVE h₀

theorem degFld2_keeps (hw₀ : Has 0x1f8000000000000000000000000000000000000000000000000000000000000000000000000000000000 w₀) (k i v : Nat) {s : State} (h₀ : Keeps w₀ s₀ s) :
    Keeps w₀ s₀ (setF (degFlds k).2 i v s) := by
  unfold degFlds
  split
  · exact setF_keeps (hw₀.sub rfl) _ _ _ reg_COLL_DEGRADE_LOST_POS h₀
  · exact setF_keeps (hw₀.sub rfl) _ _ _ reg_COLL_DEGRADE_PREV_POS h₀
  · exact setF_keeps (hw₀.sub rfl) _ _ _ reg_COLL_DEGRADE_NEXT_POS h₀

theorem degRecord_keeps
    (hw₀ : Has 0x10f0100099f841402000000000080040001a00000004c048fc4000800000642000e1128000000189018000a97990c w₀)
    (k board pos : Nat) {s : State} (h₀ : Keeps w₀ s₀ s) :
    Keeps w₀ s₀ (degRecord k board pos s) := by
  unfold degRecord
  repeat' with_reducible first
    | assumption | refine setEvt_keeps (p := 8) (hw₀.sub rfl) (hw₀.sub rfl) _ _ (by with_unfolding_all rfl) reg_pendFld8 ?_
    | refine degFld1_keeps (hw₀.sub rfl) _ _ _ ?_ | refine degFld2_keeps (hw₀.sub rfl) _ _ _ ?_
    | apply lossActs_keeps (hw₀.sub rfl) | apply twinGone_keeps (hw₀.sub rfl) | split | apply keeps_degSet (hw₀.sub rfl)

theorem degUnset_keeps (hw₀ : Has 0x40000 w₀) (k board : Nat) {s : State} (h₀ : Keeps w₀ s₀ s) :
    Keeps w₀ s₀ (degUnset k board s) := by
  unfold degUnset
  repeat' with_reducible first
    | assumption | apply keeps_degSet (hw₀.sub rfl)

theorem degrade_keeps
    (hw₀ : Has 0x10f0100099f841402000000000080040001a00000004c048fc4000800000642000e1128000000189018000abf990c w₀)
    (h : Nat) {s : State} (h₀ : Keeps w₀ s₀ s) :
    Keeps w₀ s₀ (degrade h s) := by
  unfold degrade
  repeat' with_reducible first
    | assumption | intro _ | apply runCmd_keeps (hw₀.sub rfl) | apply report_keeps (hw₀.sub rfl)
    | apply degUnset_keeps (hw₀.sub rfl) | apply degRecord_keeps (hw₀.sub rfl) | split | apply keeps_degClear (hw₀.sub rfl)

theorem execDegrade_keeps
    (hw₀ : Has 0x10f0100099f841402000000000080040001a00000004c048fc4000800000642000e1128000000189018000abf990c w₀)
    (h : Nat) {s : State} (h₀ : Keeps w₀ s₀ s) :
    ∀ t₁, execDegrade h s = .next t₁ → Keeps w₀ s₀ t₁ := by
  unfold execDegrade
  intro t₁ ht
  cases ht
  repeat' with_reducible first
    | assumption | apply running_keeps | apply degrade_keeps (hw₀.sub rfl)

end Sys2Proof.Machine
end

