-- ==== Sys2Proof/Laws/KeepsExport.lean ====
section
/-! SUPPORT. What the functions of Machine/Export.lean may change. -/

namespace Sys2Proof.Machine

set_option exponentiation.threshold 600

variable {w₀ : Nat} {s₀ : State}

theorem exportBlks_keeps
    (hw₀ : Has 0x10f01000000040002000000000080000000000000004c048fc400000000000000000000000000000008000a920100 w₀)
    (outExp : Nat) (x1 : List Blk) {x2 : State} (h₀ : Keeps w₀ s₀ x2) :
    Keeps w₀ s₀ (exportBlks outExp x1 x2).2 := by
  revert h₀
  fun_induction exportBlks outExp x1 x2 <;> intro h₀
  all_goals repeat' with_reducible first
    | apply loadTiles_keeps (hw₀.sub rfl) | apply fetchSend_keeps (hw₀.sub rfl) | apply_assumption -exfalso | split
    | refine keeps_snd (by assumption) ?_

theorem exportRun_keeps
    (hw₀ : Has 0x10f01000000040002000000000080000000000000004c048fc400000000000000000000000000000008000ab20520 w₀)
    (h : Nat) {s : State} (h₀ : Keeps w₀ s₀ s) :
    Keeps w₀ s₀ (exportRun h s) := by
  unfold exportRun
  repeat' with_reducible first
    | assumption | intro _ | apply keeps_ite | apply report_keeps (hw₀.sub rfl) | apply exportBlks_keeps (hw₀.sub rfl)
    | apply hostWrite_keeps (hw₀.sub rfl) | apply runDma_keeps (hw₀.sub rfl) | split
    | refine keeps_snd (by assumption) ?_

theorem execExportCmd_keeps
    (hw₀ : Has 0x10f01000000040002000000000080000000000000004c048fc400000000000000000000000000000008000ab20520 w₀)
    (h : Nat) {s : State} (h₀ : Keeps w₀ s₀ s) :
    ∀ t₁, execExportCmd h s = .next t₁ → Keeps w₀ s₀ t₁ := by
  unfold execExportCmd
  intro t₁ ht
  cases ht
  repeat' with_reducible first
    | assumption | apply awake_keeps | apply exportRun_keeps (hw₀.sub rfl)

end Sys2Proof.Machine
end

