-- ==== Sys2Proof/Laws/KeepsReset.lean ====
section
/-! SUPPORT. What the functions of Machine/Reset.lean may change. -/

namespace Sys2Proof.Machine

set_option exponentiation.threshold 600

variable {w₀ : Nat} {s₀ : State}

theorem restoreFlds_keeps {w : Nat} {s₀ : State} (hw : Has 0x1ffffffffffffffffffffffffffffffffffffffffffffffffffffffffffffffffffffffffffffffffffffffffffffffffffffffffffffffffffffffffffffff000000000000 w) (rc : Cls) (sel : Nat → Nat → Nat → Bool) {s : State}
    (h : Keeps w s₀ s) : Keeps w s₀ (restoreFlds rc sel s) := keeps_all_regs hw _ h

theorem tallyFlush_keeps (hw₀ : Has 0x4000004000 w₀) (cl : Nat) {s : State} (h₀ : Keeps w₀ s₀ s) :
    Keeps w₀ s₀ (tallyFlush cl s) := by
  unfold tallyFlush
  repeat' with_reducible first
    | assumption | apply modCluster_keeps (hw₀.sub rfl) | split | apply keeps_gauge (hw₀.sub rfl)

theorem tallyFlushes_keeps (hw₀ : Has 0x4000004000 w₀) (x1 : List Nat) {x2 : State} (h₀ : Keeps w₀ s₀ x2) :
    Keeps w₀ s₀ (tallyFlushes x1 x2) := by
  revert h₀
  fun_induction tallyFlushes x1 x2 <;> intro h₀
  all_goals repeat' with_reducible first
    | apply tallyFlush_keeps (hw₀.sub rfl) | apply_assumption -exfalso

theorem tallyFlushAll_keeps (hw₀ : Has 0x4000004000 w₀) {s : State} (h₀ : Keeps w₀ s₀ s) :
    Keeps w₀ s₀ (tallyFlushAll s) := by
  unfold tallyFlushAll
  repeat' with_reducible first
    | assumption | apply tallyFlushes_keeps (hw₀.sub rfl)

theorem loseFlds_keeps {w : Nat} {s₀ : State} (hw : Has 0x1ffffffffffffffffffffffffffffffffffffffffffffffffffffffffffffffffffffffffffffffffffffffffffffffffffffffffffffffffffffffffffffff000000000000 w) (n : Nat) {s : State}
    (h : Keeps w s₀ s) : Keeps w s₀ (loseFlds n s) := keeps_all_regs hw _ h

theorem loseDomain_keeps {w : Nat} {s₀ : State} (hw : Has 0x101c510 w) (n : Nat) {s : State}
    (h : Keeps w s₀ s) : Keeps w s₀ (loseDomain n s) := by
  unfold loseDomain
  refine keeps_ite (keeps_units (hw.sub rfl) _ h) (keeps_ite ?_ (keeps_ite ?_ (keeps_ite h (keeps_ite ?_ (keeps_ite ?_ (keeps_ite ?_ h))))))
  · exact keeps_seqs (hw.sub rfl) _ (keeps_clusters (hw.sub rfl) _ (keeps_sram (hw.sub rfl) _ (Store.canon_filter _) h))
  · exact modMc_keeps (hw.sub rfl) _ _ (keeps_sluices (hw.sub rfl) _ h)
  · exact keeps_sluices_ports (hw.sub rfl) _ _ h
  · exact keeps_sluices (hw.sub rfl) _ h
  · exact keeps_sluices (hw.sub rfl) _ h

theorem setDomStat_keeps
    (hw₀ : Has 0x200000000000000000000000000000000000000000000000000000000000000000000000000000000000000000000000000000000000000000000 w₀)
    (n : Nat) (on : Bool) {s : State} (h₀ : Keeps w₀ s₀ s) :
    Keeps w₀ s₀ (setDomStat n on s) := by
  unfold setDomStat
  repeat' with_reducible first
    | assumption | refine setFk_keeps (hw₀.sub rfl) _ _ _ _ reg_PWR_DOM_STAT ?_

theorem domainOff_keeps
    (hw₀ : Has 0x1ffffffffffffffffffffffffffffffffffffffffffffffffffffffffffffffffffffffffffffffffffffffffffffffffffffffffffffffffffffffffffffff00400101c510 w₀)
    (n : Nat) {s : State} (h₀ : Keeps w₀ s₀ s) :
    Keeps w₀ s₀ (domainOff n s) := by
  unfold domainOff
  repeat' with_reducible first
    | assumption | apply tallyFlushes_keeps (hw₀.sub rfl) | apply setDomStat_keeps (hw₀.sub rfl)
    | apply loseDomain_keeps (hw₀.sub rfl) | apply loseFlds_keeps (hw₀.sub rfl) | split

theorem domainsOff_keeps
    (hw₀ : Has 0x1ffffffffffffffffffffffffffffffffffffffffffffffffffffffffffffffffffffffffffffffffffffffffffffffffffffffffffffffffffffffffffffff00400101c510 w₀)
    (x1 : List Nat) {x2 : State} (h₀ : Keeps w₀ s₀ x2) :
    Keeps w₀ s₀ (domainsOff x1 x2) := by
  revert h₀
  fun_induction domainsOff x1 x2 <;> intro h₀
  all_goals repeat' with_reducible first
    | apply domainOff_keeps (hw₀.sub rfl) | apply_assumption -exfalso

theorem endCmds_keeps
    (hw₀ : Has 0x90004c00000000000000000000000000000000000000000000000000000000000000000000000000000000000000000000000080000100020 w₀)
    (st : Nat) (x1 : List Nat) {x2 : State} (h₀ : Keeps w₀ s₀ x2) :
    Keeps w₀ s₀ (endCmds st x1 x2) := by
  revert h₀
  fun_induction endCmds st x1 x2 <;> intro h₀
  all_goals repeat' with_reducible first
    | apply endCmd_keeps (hw₀.sub rfl) | apply_assumption -exfalso

theorem skipEntries_keeps
    (hw₀ : Has 0x100000000000000000000000000000000000000000000000000000000000000000000000000000000000000000000000000000000000000 w₀)
    (c x1 : Nat) {x2 : State} (h₀ : Keeps w₀ s₀ x2) :
    Keeps w₀ s₀ (skipEntries c x1 x2) := by
  revert h₀
  fun_induction skipEntries c x1 x2 <;> intro h₀
  all_goals repeat' with_reducible first
    | refine setFk_keeps (hw₀.sub rfl) _ _ _ _ reg_CQ_SQ_HEAD ?_ | apply_assumption -exfalso

theorem unitDropCtx_keeps (hw₀ : Has 0x1e90000000008000 w₀) (c u : Nat) {s : State} (h₀ : Keeps w₀ s₀ s) :
    Keeps w₀ s₀ (unitDropCtx c u s) := by
  unfold unitDropCtx
  repeat' with_reducible first
    | assumption | apply freeBank_keeps (hw₀.sub rfl) | apply putUnit_keeps (hw₀.sub rfl) | split | dsimp -proj only

theorem unitsDropCtx_keeps (hw₀ : Has 0x1e90000000008000 w₀) (c : Nat) (x1 : List Nat) {x2 : State} (h₀ : Keeps w₀ s₀ x2) :
    Keeps w₀ s₀ (unitsDropCtx c x1 x2) := by
  revert h₀
  fun_induction unitsDropCtx c x1 x2 <;> intro h₀
  all_goals repeat' with_reducible first
    | apply unitDropCtx_keeps (hw₀.sub rfl) | apply_assumption -exfalso

theorem modClusters_keeps (hw₀ : Has 0x4000 w₀) (f : Cluster → Cluster) (x1 : List Nat) {x2 : State} (h₀ : Keeps w₀ s₀ x2) :
    Keeps w₀ s₀ (modClusters f x1 x2) := by
  revert h₀
  fun_induction modClusters f x1 x2 <;> intro h₀
  all_goals repeat' with_reducible first
    | apply modCluster_keeps (hw₀.sub rfl) | apply_assumption -exfalso

theorem clearWips_keeps (hw₀ : Has 0x4004000000000000000000000000000000000008000000000c w₀) (x1 : List Job) {x2 : State}
    (h₀ : Keeps w₀ s₀ x2) :
    Keeps w₀ s₀ (clearWips x1 x2) := by
  revert h₀
  fun_induction clearWips x1 x2 <;> intro h₀
  all_goals repeat' with_reducible first
    | apply clearWip_keeps (hw₀.sub rfl) | apply_assumption -exfalso

theorem seqDropCtx_keeps (hw₀ : Has 0x4004000000080000064000000000000000189008000001800c w₀) (c rg : Nat) {s : State}
    (h₀ : Keeps w₀ s₀ s) :
    Keeps w₀ s₀ (seqDropCtx c rg s) := by
  unfold seqDropCtx
  repeat' with_reducible first
    | assumption | apply putJob_keeps (hw₀.sub rfl) | apply dropWide_keeps (hw₀.sub rfl)
    | apply modSeq_keeps (hw₀.sub rfl) | apply clearWips_keeps (hw₀.sub rfl) | split | dsimp -proj only

theorem seqsDropCtx_keeps (hw₀ : Has 0x4004000000080000064000000000000000189008000001800c w₀) (c : Nat) (x1 : List Nat)
    {x2 : State} (h₀ : Keeps w₀ s₀ x2) :
    Keeps w₀ s₀ (seqsDropCtx c x1 x2) := by
  revert h₀
  fun_induction seqsDropCtx c x1 x2 <;> intro h₀
  all_goals repeat' with_reducible first
    | apply seqDropCtx_keeps (hw₀.sub rfl) | apply_assumption -exfalso

theorem dropWork_keeps (hw₀ : Has 0x40040000000800000640000000000000001e9008000001c00c w₀) (c : Nat) {s : State}
    (h₀ : Keeps w₀ s₀ s) :
    Keeps w₀ s₀ (dropWork c s) := by
  unfold dropWork
  repeat' with_reducible first
    | assumption | apply seqsDropCtx_keeps (hw₀.sub rfl) | apply unitsDropCtx_keeps (hw₀.sub rfl)
    | apply modClusters_keeps (hw₀.sub rfl)

theorem dropFrames_keeps (hw₀ : Has 0x18000000 w₀) (c : Nat) {s : State} (h₀ : Keeps w₀ s₀ s) :
    Keeps w₀ s₀ (dropFrames c s) := by
  unfold dropFrames
  repeat' with_reducible first
    | assumption | apply keeps_sendq_inbox (hw₀.sub rfl)

theorem jwideDrop_keeps (hw₀ : Has 0x800000 w₀) (c : Nat) {s : State} (h₀ : Keeps w₀ s₀ s) :
    Keeps w₀ s₀ (jwideDrop c s) := by
  unfold jwideDrop
  repeat' with_reducible first
    | assumption | apply keeps_jwide (hw₀.sub rfl)

theorem dropCross_keeps (hw₀ : Has 0x2000 w₀) (c : Nat) {s : State} (h₀ : Keeps w₀ s₀ s) :
    Keeps w₀ s₀ (dropCross c s) := by
  unfold dropCross
  try dsimp -proj only
  repeat' with_reducible first
    | assumption | split | apply keeps_crossing (hw₀.sub rfl) | dsimp -proj only

theorem dropOut_keeps (hw₀ : Has 0x2400 w₀) (c : Nat) {s : State} (h₀ : Keeps w₀ s₀ s) :
    Keeps w₀ s₀ (dropOut c s) := by
  unfold dropOut
  try dsimp -proj only
  repeat' with_reducible first
    | assumption | apply hubDrop_keeps (hw₀.sub rfl) | apply dropCross_keeps (hw₀.sub rfl) | split | dsimp -proj only

theorem ctxResetX_keeps
    (hw₀ : Has 0x90104c20000000000000000000000000000000000000000000401004000000040040000000800000640000000000000001e900800189bfe2c w₀)
    (c except : Nat) {s : State} (h₀ : Keeps w₀ s₀ s) :
    Keeps w₀ s₀ (ctxResetX c except s) := by
  unfold ctxResetX
  repeat' with_reducible first
    | assumption | apply setCtxEvt_keeps (hw₀.sub rfl) | apply dropWindow_keeps (hw₀.sub rfl)
    | apply dropFrames_keeps (hw₀.sub rfl) | apply jwideDrop_keeps (hw₀.sub rfl) | apply dropWork_keeps (hw₀.sub rfl)
    | apply abandonCtx_keeps (hw₀.sub rfl) | apply skipEntries_keeps (hw₀.sub rfl) | apply endCmds_keeps (hw₀.sub rfl)
    | apply modCtx_keeps (hw₀.sub rfl) | apply dropOut_keeps (hw₀.sub rfl) | split | apply keeps_cul (hw₀.sub rfl)
    | apply keeps_degClear (hw₀.sub rfl)

theorem ctxReset_keeps
    (hw₀ : Has 0x90104c20000000000000000000000000000000000000000000401004000000040040000000800000640000000000000001e90080018bbfe2c w₀)
    (h : Nat) {s : State} (h₀ : Keeps w₀ s₀ s) :
    Keeps w₀ s₀ (ctxReset h s) := by
  unfold ctxReset
  repeat' with_reducible first
    | assumption | intro _ | apply runCmd_keeps (hw₀.sub rfl) | apply report_keeps (hw₀.sub rfl)
    | apply ctxResetX_keeps (hw₀.sub rfl)

theorem execCtxReset_keeps
    (hw₀ : Has 0x90104c20000000000000000000000000000000000000000000401004000000040040000000800000640000000000000001e90080018bbfe2c w₀)
    (h : Nat) {s : State} (h₀ : Keeps w₀ s₀ s) :
    ∀ t₁, execCtxReset h s = .next t₁ → Keeps w₀ s₀ t₁ := by
  unfold execCtxReset
  intro t₁ ht
  cases ht
  repeat' with_reducible first
    | assumption | apply running_keeps | apply ctxReset_keeps (hw₀.sub rfl)

theorem reports_keeps (hw₀ : Has 0x200000 w₀) (st : Nat) (x1 : List Nat) {x2 : State} (h₀ : Keeps w₀ s₀ x2) :
    Keeps w₀ s₀ (reports st x1 x2) := by
  revert h₀
  fun_induction reports st x1 x2 <;> intro h₀
  all_goals repeat' with_reducible first
    | apply report_keeps (hw₀.sub rfl) | apply_assumption -exfalso

theorem unitPreempt_keeps (hw₀ : Has 0x1e90000000008000 w₀) (c u : Nat) {s : State} (h₀ : Keeps w₀ s₀ s) :
    Keeps w₀ s₀ (unitPreempt c u s) := by
  unfold unitPreempt
  repeat' with_reducible first
    | assumption | apply freeBank_keeps (hw₀.sub rfl) | apply putUnit_keeps (hw₀.sub rfl)

theorem unitsPreempt_keeps (hw₀ : Has 0x1e90000000008000 w₀) (c : Nat) (x1 : List Nat) {x2 : State} (h₀ : Keeps w₀ s₀ x2) :
    Keeps w₀ s₀ (unitsPreempt c x1 x2) := by
  revert h₀
  fun_induction unitsPreempt c x1 x2 <;> intro h₀
  all_goals repeat' with_reducible first
    | apply unitPreempt_keeps (hw₀.sub rfl) | apply_assumption -exfalso

theorem preemptBegin_keeps
    (hw₀ : Has 0x800000000000000000000000000000000000000000401004000000000000000000000000000000000000000001e9008000020d800 w₀)
    (c : Nat) {s : State} (h₀ : Keeps w₀ s₀ s) :
    Keeps w₀ s₀ (preemptBegin c s) := by
  unfold preemptBegin
  repeat' with_reducible first
    | assumption | apply unitsPreempt_keeps (hw₀.sub rfl) | apply modClusters_keeps (hw₀.sub rfl)
    | apply reports_keeps (hw₀.sub rfl) | apply abandonCtx_keeps (hw₀.sub rfl)
    | refine setFk_keeps (hw₀.sub rfl) _ _ _ _ reg_HOSTIF_CTX_PRIO_PREEMPTED ?_

theorem ctxPreempt_keeps
    (hw₀ : Has 0x800000000000000000000000000000000000000000401004000000000000000000000000000000000000000001e9008000030d800 w₀)
    (h : Nat) {s : State} (h₀ : Keeps w₀ s₀ s) :
    Keeps w₀ s₀ (ctxPreempt h s) := by
  unfold ctxPreempt
  repeat' with_reducible first
    | assumption | intro _ | apply keeps_ite | apply runCmd_keeps (hw₀.sub rfl) | apply report_keeps (hw₀.sub rfl)
    | apply preemptBegin_keeps (hw₀.sub rfl) | apply unrunCmd_keeps (hw₀.sub rfl)

theorem execCtxPreempt_keeps
    (hw₀ : Has 0x800000000000000000000000000000000000000000401004000000000000000000000000000000000000000001e9008000030d800 w₀)
    (h : Nat) {s : State} (h₀ : Keeps w₀ s₀ s) :
    ∀ t₁, execCtxPreempt h s = .next t₁ → Keeps w₀ s₀ t₁ := by
  unfold execCtxPreempt
  intro t₁ ht
  cases ht
  repeat' with_reducible first
    | assumption | apply running_keeps | apply ctxPreempt_keeps (hw₀.sub rfl)

theorem ctxResume_keeps
    (hw₀ : Has 0x800000000000000000000000000000000000000000000000000000000000000000000000000000000000000000000000000300000 w₀)
    (h : Nat) {s : State} (h₀ : Keeps w₀ s₀ s) :
    Keeps w₀ s₀ (ctxResume h s) := by
  unfold ctxResume
  repeat' with_reducible first
    | assumption | intro _ | apply runCmd_keeps (hw₀.sub rfl) | apply report_keeps (hw₀.sub rfl)
    | refine setFk_keeps (hw₀.sub rfl) _ _ _ _ reg_HOSTIF_CTX_PRIO_PREEMPTED ?_

theorem execCtxResume_keeps
    (hw₀ : Has 0x800000000000000000000000000000000000000000000000000000000000000000000000000000000000000000000000000300000 w₀)
    (h : Nat) {s : State} (h₀ : Keeps w₀ s₀ s) :
    ∀ t₁, execCtxResume h s = .next t₁ → Keeps w₀ s₀ t₁ := by
  unfold execCtxResume
  intro t₁ ht
  cases ht
  repeat' with_reducible first
    | assumption | apply running_keeps | apply ctxResume_keeps (hw₀.sub rfl)

end Sys2Proof.Machine
end

