-- ==== Sys2Proof/Laws/KeepsBreakwater.lean ====
section
/-! SUPPORT. What the functions of Machine/Breakwater.lean may change. -/

namespace Sys2Proof.Machine

set_option exponentiation.threshold 600

variable {w₀ : Nat} {s₀ : State}

theorem logFault_keeps
    (hw₀ : Has 0x3f04000000000000000000000000000000000000000000000000000000000000000000000000000000000000000000000000000000000000000080000000000 w₀)
    (cause source value : Nat) {s : State} (h₀ : Keeps w₀ s₀ s) :
    Keeps w₀ s₀ (logFault cause source value s) := by
  unfold logFault
  repeat' with_reducible first
    | assumption | refine setF_keeps (hw₀.sub rfl) _ _ _ reg_BRKW_LOG_CNT ?_
    | refine setFk_keeps (hw₀.sub rfl) _ _ _ _ reg_BRKW_LOG_A_CAUSE ?_
    | refine setFk_keeps (hw₀.sub rfl) _ _ _ _ reg_BRKW_LOG_A_SOURCE ?_
    | refine setFk_keeps (hw₀.sub rfl) _ _ _ _ reg_BRKW_LOG_A_VALUE ?_
    | refine setFk_keeps (hw₀.sub rfl) _ _ _ _ reg_BRKW_LOG_B ?_
    | refine setEvt_keeps (p := 15) (hw₀.sub rfl) (hw₀.sub rfl) _ _ (by with_unfolding_all rfl) reg_pendFld15 ?_
    | refine incr_keeps (hw₀.sub rfl) _ _ reg_BRKW_FAULTS ?_ | split

theorem quiesceMcs_keeps (hw₀ : Has 0x100 w₀) (x1 : Nat) {x2 : State} (h₀ : Keeps w₀ s₀ x2) :
    Keeps w₀ s₀ (quiesceMcs x1 x2) := by
  revert h₀
  fun_induction quiesceMcs x1 x2 <;> intro h₀
  all_goals repeat' with_reducible first
    | apply modMc_keeps (hw₀.sub rfl) | apply_assumption -exfalso

theorem faultReaction_keeps
    (hw₀ : Has 0x1ffffffffffffffffffffffffffffffffffffffffffffffffffffffffffffffffffffffffffffffffffffffffffffffffffffffffffffffffffffffffffffff08480101c510 w₀)
    (cause source value : Nat) {s : State} (h₀ : Keeps w₀ s₀ s) :
    Keeps w₀ s₀ (faultReaction cause source value s) := by
  unfold faultReaction
  repeat' with_reducible first
    | assumption | apply logFault_keeps (hw₀.sub rfl) | refine setF_keeps (hw₀.sub rfl) _ _ _ reg_BRKW_STAT_FAULT ?_
    | refine setF_keeps (hw₀.sub rfl) _ _ _ reg_BRKW_STAT_CAUSE ?_ | apply domainsOff_keeps (hw₀.sub rfl)
    | apply quiesceMcs_keeps (hw₀.sub rfl) | apply tallyFlushAll_keeps (hw₀.sub rfl) | split
    | apply keeps_faultN (hw₀.sub rfl)

theorem tripInput_keeps
    (hw₀ : Has 0x1ffffffffffffffffffffffffffffffffffffffffffffffffffffffffffffffffffffffffffffffffffffffffffffffffffffffffffffffffffffffffffffff084c0101c510 w₀)
    (cause source value : Nat) {s : State} (h₀ : Keeps w₀ s₀ s) :
    Keeps w₀ s₀ (tripInput cause source value s) := by
  unfold tripInput
  repeat' with_reducible first
    | assumption | apply faultReaction_keeps (hw₀.sub rfl) | apply keeps_brk (hw₀.sub rfl)

theorem tempTrip_keeps
    (hw₀ : Has 0x1ffffffffffffffffffffffffffffffffffffffffffffffffffffffffffffffffffffffffffffffffffffffffffffffffffffffffffffffffffffffffffffff084c0101c510 w₀)
    (i t : Nat) {s : State} (h₀ : Keeps w₀ s₀ s) :
    Keeps w₀ s₀ (tempTrip i t s) := by
  unfold tempTrip
  repeat' with_reducible first
    | assumption | apply tripInput_keeps (hw₀.sub rfl) | split

theorem execTempTrip_keeps
    (hw₀ : Has 0x1ffffffffffffffffffffffffffffffffffffffffffffffffffffffffffffffffffffffffffffffffffffffffffffffffffffffffffffffffffffffffffffff084c0101c510 w₀)
    (k t : Nat) {s : State} (h₀ : Keeps w₀ s₀ s) :
    ∀ t₁, execTempTrip k t s = .next t₁ → Keeps w₀ s₀ t₁ := by
  unfold execTempTrip
  intro t₁ ht
  cases ht
  repeat' with_reducible first
    | assumption | apply tempTrip_keeps (hw₀.sub rfl)

theorem residueMismatch_keeps
    (hw₀ : Has 0x1ffffffffffffffffffffffffffffffffffffffffffffffffffffffffffffffffffffffffffffffffffffffffffffffffffffffffffffffffffffffffffffff08480101c510 w₀)
    (cl : Nat) (again : Bool) {s : State} (h₀ : Keeps w₀ s₀ s) :
    Keeps w₀ s₀ (residueMismatch cl again s) := by
  unfold residueMismatch
  repeat' with_reducible first
    | assumption | apply faultReaction_keeps (hw₀.sub rfl) | refine incr_keeps (hw₀.sub rfl) _ _ reg_BRKW_RESIDUE_REPEAT ?_
    | split

theorem execResidueMismatch_keeps
    (hw₀ : Has 0x1ffffffffffffffffffffffffffffffffffffffffffffffffffffffffffffffffffffffffffffffffffffffffffffffffffffffffffffffffffffffffffffff08480101c510 w₀)
    (cl : Nat) (again : Bool) {s : State} (h₀ : Keeps w₀ s₀ s) :
    ∀ t₁, execResidueMismatch cl again s = .next t₁ → Keeps w₀ s₀ t₁ := by
  unfold execResidueMismatch
  intro t₁ ht
  cases ht
  repeat' with_reducible first
    | assumption | apply runningIn_keeps | apply residueMismatch_keeps (hw₀.sub rfl)

theorem pairLockstep_keeps
    (hw₀ : Has 0x1ffffffffffffffffffffffffffffffffffffffffffffffffffffffffffffffffffffffffffffffffffffffffffffffffffffffffffffffffffffffffffffff084c0101c510 w₀)
    (p : Nat) {s : State} (h₀ : Keeps w₀ s₀ s) :
    Keeps w₀ s₀ (pairLockstep p s) := by
  unfold pairLockstep
  repeat' with_reducible first
    | assumption | apply faultReaction_keeps (hw₀.sub rfl) | split | apply keeps_brk (hw₀.sub rfl)

theorem execPairLockstep_keeps
    (hw₀ : Has 0x1ffffffffffffffffffffffffffffffffffffffffffffffffffffffffffffffffffffffffffffffffffffffffffffffffffffffffffffffffffffffffffffff084c0101c510 w₀)
    (p : Nat) {s : State} (h₀ : Keeps w₀ s₀ s) :
    ∀ t₁, execPairLockstep p s = .next t₁ → Keeps w₀ s₀ t₁ := by
  unfold execPairLockstep
  intro t₁ ht
  cases ht
  repeat' with_reducible first
    | assumption | apply pairsUp_keeps | apply pairLockstep_keeps (hw₀.sub rfl)

theorem watchdogExpire_keeps
    (hw₀ : Has 0x1ffffffffffffffffffffffffffffffffffffffffffffffffffffffffffffffffffffffffffffffffffffffffffffffffffffffffffffffffffffffffffffff08480101c510 w₀)
    (p : Nat) {s : State} (h₀ : Keeps w₀ s₀ s) :
    Keeps w₀ s₀ (watchdogExpire p s) := by
  unfold watchdogExpire
  repeat' with_reducible first
    | assumption | apply faultReaction_keeps (hw₀.sub rfl) | split

theorem execWatchdogExpire_keeps
    (hw₀ : Has 0x1ffffffffffffffffffffffffffffffffffffffffffffffffffffffffffffffffffffffffffffffffffffffffffffffffffffffffffffffffffffffffffffff08480101c510 w₀)
    (p : Nat) {s : State} (h₀ : Keeps w₀ s₀ s) :
    ∀ t₁, execWatchdogExpire p s = .next t₁ → Keeps w₀ s₀ t₁ := by
  unfold execWatchdogExpire
  intro t₁ ht
  cases ht
  repeat' with_reducible first
    | assumption | apply pairsUp_keeps | apply watchdogExpire_keeps (hw₀.sub rfl)

theorem kickBad_keeps
    (hw₀ : Has 0x2020000000000000000000000000000000000000000000000000000000000000000000000000000000000000000000000000000000000000000080400000000 w₀)
    (p : Nat) {s : State} (h₀ : Keeps w₀ s₀ s) :
    Keeps w₀ s₀ (kickBad p s) := by
  unfold kickBad
  repeat' with_reducible first
    | assumption | refine setEvt_keeps (p := 15) (hw₀.sub rfl) (hw₀.sub rfl) _ _ (by with_unfolding_all rfl) reg_pendFld15 ?_
    | refine incr_keeps (hw₀.sub rfl) _ _ reg_BRKW_KICKS_BAD ?_ | apply keeps_brk (hw₀.sub rfl)

theorem kickWrite_keeps
    (hw₀ : Has 0x2020000000000000000000000000000000000000000000000000000000000000000000000000000000000000000000000000000000000000000080400000000 w₀)
    (r : Requester) (p v : Nat) {s : State} (h₀ : Keeps w₀ s₀ s) :
    Keeps w₀ s₀ (kickWrite r p v s) := by
  unfold kickWrite
  repeat' with_reducible first
    | assumption | apply kickBad_keeps (hw₀.sub rfl) | split | apply keeps_brk (hw₀.sub rfl)

theorem kick_keeps
    (hw₀ : Has 0x1000200040112020080100000400000200000000400000800000040000000100000000000002000000100080200000000020000000010000000001000000000080400000000 w₀)
    (r : Requester) (a v : Nat) {s : State} (h₀ : Keeps w₀ s₀ s) :
    Keeps w₀ s₀ (kick r a v s) := by
  unfold kick
  try dsimp -proj only
  repeat' with_reducible first
    | assumption | intro _ | apply kickWrite_keeps (hw₀.sub rfl) | apply outOfReset_keeps | apply guarded_keeps (hw₀.sub rfl)
    | split

theorem execKick_keeps
    (hw₀ : Has 0x1000200040112020080100000400000200000000400000800000040000000100000000000002000000100080200000000020000000010000000001000000000080400000000 w₀)
    (r : Requester) (a v : Nat) {s : State} (h₀ : Keeps w₀ s₀ s) :
    ∀ t₁, execKick r a v s = .next t₁ → Keeps w₀ s₀ t₁ := by
  unfold execKick
  intro t₁ ht
  cases ht
  repeat' with_reducible first
    | assumption | apply kick_keeps (hw₀.sub rfl)

theorem wdogCfgWrite_keeps
    (hw₀ : Has 0x1000200040110080080100000400000200000000400000800000040000000100000000000002000000100080200000000020000000010000000001000000000000400000000 w₀)
    (r : Requester) (a v : Nat) {s : State} (h₀ : Keeps w₀ s₀ s) :
    Keeps w₀ s₀ (wdogCfgWrite r a v s) := by
  unfold wdogCfgWrite
  repeat' with_reducible first
    | assumption | intro _ | apply guarded_keeps (hw₀.sub rfl)
    | refine setF_keeps (hw₀.sub rfl) _ _ _ reg_BRKW_WDOG_CFG_PERIOD_MS ?_ | split | apply keeps_brk (hw₀.sub rfl)

theorem execWdogCfgWrite_keeps
    (hw₀ : Has 0x1000200040110080080100000400000200000000400000800000040000000100000000000002000000100080200000000020000000010000000001000000000000400000000 w₀)
    (r : Requester) (a v : Nat) {s : State} (h₀ : Keeps w₀ s₀ s) :
    ∀ t₁, execWdogCfgWrite r a v s = .next t₁ → Keeps w₀ s₀ t₁ := by
  unfold execWdogCfgWrite
  intro t₁ ht
  cases ht
  repeat' with_reducible first
    | assumption | apply wdogCfgWrite_keeps (hw₀.sub rfl)

theorem latentFault_keeps
    (hw₀ : Has 0x2001000000000000000000000000000000000000000000000000000000000000000000000000000000000000000000000000000000000000000080000000000 w₀)
    {s : State} (h₀ : Keeps w₀ s₀ s) :
    Keeps w₀ s₀ (latentFault s) := by
  unfold latentFault
  repeat' with_reducible first
    | assumption | refine setEvt_keeps (p := 15) (hw₀.sub rfl) (hw₀.sub rfl) _ _ (by with_unfolding_all rfl) reg_pendFld15 ?_
    | refine setF_keeps (hw₀.sub rfl) _ _ _ reg_BRKW_STAT_LATENT ?_

theorem comparatorSelftest_keeps
    (hw₀ : Has 0x2001000000000000000000000000000000000000000000000000000000000000000000000000000000000000000000000000000000000000000080000000000 w₀)
    (ok : Bool) {s : State} (h₀ : Keeps w₀ s₀ s) :
    Keeps w₀ s₀ (comparatorSelftest ok s) := by
  unfold comparatorSelftest
  repeat' with_reducible first
    | assumption | apply latentFault_keeps (hw₀.sub rfl) | split

theorem execComparatorSelftest_keeps
    (hw₀ : Has 0x2001000000000000000000000000000000000000000000000000000000000000000000000000000000000000000000000000000000000000000080000000000 w₀)
    (ok : Bool) {s : State} (h₀ : Keeps w₀ s₀ s) :
    ∀ t₁, execComparatorSelftest ok s = .next t₁ → Keeps w₀ s₀ t₁ := by
  unfold execComparatorSelftest
  intro t₁ ht
  cases ht
  repeat' with_reducible first
    | assumption | apply comparatorSelftest_keeps (hw₀.sub rfl)

theorem comparatorDisagree_keeps
    (hw₀ : Has 0x2001000000000000000000000000000000000000000000000000000000000000000000000000000000000000000000000000000000000000000080000000000 w₀)
    (ms : Nat) {s : State} (h₀ : Keeps w₀ s₀ s) :
    Keeps w₀ s₀ (comparatorDisagree ms s) := by
  unfold comparatorDisagree
  repeat' with_reducible first
    | assumption | apply latentFault_keeps (hw₀.sub rfl) | split

theorem execComparatorDisagree_keeps
    (hw₀ : Has 0x2001000000000000000000000000000000000000000000000000000000000000000000000000000000000000000000000000000000000000000080000000000 w₀)
    (ms : Nat) {s : State} (h₀ : Keeps w₀ s₀ s) :
    ∀ t₁, execComparatorDisagree ms s = .next t₁ → Keeps w₀ s₀ t₁ := by
  unfold execComparatorDisagree
  intro t₁ ht
  cases ht
  repeat' with_reducible first
    | assumption | apply comparatorDisagree_keeps (hw₀.sub rfl)

theorem clearLog_keeps
    (hw₀ : Has 0x1e00000000000000000000000000000000000000000000000000000000000000000000000000000000000000000000000000000000000000000000000000000 w₀)
    (x1 : Nat) {x2 : State} (h₀ : Keeps w₀ s₀ x2) :
    Keeps w₀ s₀ (clearLog x1 x2) := by
  revert h₀
  fun_induction clearLog x1 x2 <;> intro h₀
  all_goals repeat' with_reducible first
    | refine setFk_keeps (hw₀.sub rfl) _ _ _ _ reg_BRKW_LOG_A_CAUSE ?_
    | refine setFk_keeps (hw₀.sub rfl) _ _ _ _ reg_BRKW_LOG_A_SOURCE ?_
    | refine setFk_keeps (hw₀.sub rfl) _ _ _ _ reg_BRKW_LOG_A_VALUE ?_
    | refine setFk_keeps (hw₀.sub rfl) _ _ _ _ reg_BRKW_LOG_B ?_ | apply_assumption -exfalso

theorem logClr_keeps
    (hw₀ : Has 0x1000200040111f04080100000400000200000000400000800000040000000100000000000002000000100080200000000020000000010000000001000000000000000000000 w₀)
    (r : Requester) (a v : Nat) {s : State} (h₀ : Keeps w₀ s₀ s) :
    Keeps w₀ s₀ (logClr r a v s) := by
  unfold logClr
  repeat' with_reducible first
    | assumption | intro _ | apply guarded_keeps (hw₀.sub rfl) | refine setF_keeps (hw₀.sub rfl) _ _ _ reg_BRKW_FAULTS ?_
    | refine setF_keeps (hw₀.sub rfl) _ _ _ reg_BRKW_LOG_CNT ?_ | apply clearLog_keeps (hw₀.sub rfl) | split

theorem execLogClr_keeps
    (hw₀ : Has 0x1000200040111f04080100000400000200000000400000800000040000000100000000000002000000100080200000000020000000010000000001000000000000000000000 w₀)
    (r : Requester) (a v : Nat) {s : State} (h₀ : Keeps w₀ s₀ s) :
    ∀ t₁, execLogClr r a v s = .next t₁ → Keeps w₀ s₀ t₁ := by
  unfold execLogClr
  intro t₁ ht
  cases ht
  repeat' with_reducible first
    | assumption | apply logClr_keeps (hw₀.sub rfl)

theorem forceFault_keeps
    (hw₀ : Has 0x1ffffffffffffffffffffffffffffffffffffffffffffffffffffffffffffffffffffffffffffffffffffffffffffffffffffffffffffffffffffffffffffff08480101c510 w₀)
    (r : Requester) (a v : Nat) {s : State} (h₀ : Keeps w₀ s₀ s) :
    Keeps w₀ s₀ (forceFault r a v s) := by
  unfold forceFault
  repeat' with_reducible first
    | assumption | intro _ | apply guarded_keeps (hw₀.sub rfl) | apply faultReaction_keeps (hw₀.sub rfl) | split

theorem execForceFault_keeps
    (hw₀ : Has 0x1ffffffffffffffffffffffffffffffffffffffffffffffffffffffffffffffffffffffffffffffffffffffffffffffffffffffffffffffffffffffffffffff08480101c510 w₀)
    (r : Requester) (a v : Nat) {s : State} (h₀ : Keeps w₀ s₀ s) :
    ∀ t₁, execForceFault r a v s = .next t₁ → Keeps w₀ s₀ t₁ := by
  unfold execForceFault
  intro t₁ ht
  cases ht
  repeat' with_reducible first
    | assumption | apply forceFault_keeps (hw₀.sub rfl)

end Sys2Proof.Machine
end

