-- ==== Sys2Proof/Laws/KeepsBoot.lean ====
section
/-! SUPPORT. What the functions of Machine/Boot.lean may change. -/

namespace Sys2Proof.Machine

set_option exponentiation.threshold 600

variable {w₀ : Nat} {s₀ : State}

theorem mailboxWrite_keeps
    (hw₀ : Has 0x2000000000000000000000000000000000000000000000000000000000000000000000000000000000000000000000000000000000000000000000000000020000000 w₀)
    (off : Nat) (data : List Byte) {s : State} (h₀ : Keeps w₀ s₀ s) :
    Keeps w₀ s₀ (mailboxWrite off data s) := by
  unfold mailboxWrite
  repeat' with_reducible first
    | assumption | refine incr_keeps (hw₀.sub rfl) _ _ reg_BOOT_MBX_IGNORED ?_ | split | apply keeps_mbx (hw₀.sub rfl)

theorem execMailboxWrite_keeps
    (hw₀ : Has 0x2000000000000000000000000000000000000000000000000000000000000000000000000000000000000000000000000000000000000000000000000000020000000 w₀)
    (off : Nat) (data : List Byte) {s : State} (h₀ : Keeps w₀ s₀ s) :
    ∀ t₁, execMailboxWrite off data s = .next t₁ → Keeps w₀ s₀ t₁ := by
  unfold execMailboxWrite
  intro t₁ ht
  cases ht
  repeat' with_reducible first
    | assumption | apply outOfReset_keeps | apply mailboxWrite_keeps (hw₀.sub rfl)

theorem bootGo_keeps
    (hw₀ : Has 0x1100000000000000000000000000000000000000000000000000000000000000000000000000000000000000000000000000000000000000000000000000000000000 w₀)
    {s : State} (h₀ : Keeps w₀ s₀ s) :
    Keeps w₀ s₀ (bootGo s) := by
  unfold bootGo
  repeat' with_reducible first
    | assumption | apply keeps_ite | refine setF_keeps (hw₀.sub rfl) _ _ _ reg_BOOT_STAT_STATE ?_
    | refine setF_keeps (hw₀.sub rfl) _ _ _ reg_BOOT_STAT_ATTEMPTS ?_

theorem go_keeps
    (hw₀ : Has 0x1000201140110000080100000400000200000000400000800000040000000100000000000002000000100080200000000020000000010000000001000000000000000000000 w₀)
    (r : Requester) (a v : Nat) {s : State} (h₀ : Keeps w₀ s₀ s) :
    Keeps w₀ s₀ (go r a v s) := by
  unfold go
  repeat' with_reducible first
    | assumption | intro _ | apply guarded_keeps (hw₀.sub rfl) | apply bootGo_keeps (hw₀.sub rfl) | split

theorem execGo_keeps
    (hw₀ : Has 0x1000201140110000080100000400000200000000400000800000040000000100000000000002000000100080200000000020000000010000000001000000000000000000000 w₀)
    (r : Requester) (a v : Nat) {s : State} (h₀ : Keeps w₀ s₀ s) :
    ∀ t₁, execGo r a v s = .next t₁ → Keeps w₀ s₀ t₁ := by
  unfold execGo
  intro t₁ ht
  cases ht
  repeat' with_reducible first
    | assumption | apply go_keeps (hw₀.sub rfl)

theorem rejectImage_keeps
    (hw₀ : Has 0x40300000000000000000000000000000000000000000000000000000000000000000000000000000000000000000000000000000000000000000000000080080000000 w₀)
    (reason : Nat) {s : State} (h₀ : Keeps w₀ s₀ s) :
    Keeps w₀ s₀ (rejectImage reason s) := by
  unfold rejectImage
  repeat' with_reducible first
    | assumption | refine setEvt_keeps (p := 18) (hw₀.sub rfl) (hw₀.sub rfl) _ _ (by with_unfolding_all rfl) reg_pendFld18 ?_
    | refine setF_keeps (hw₀.sub rfl) _ _ _ reg_BOOT_STAT_REASON ?_
    | refine setF_keeps (hw₀.sub rfl) _ _ _ reg_BOOT_STAT_STATE ?_ | apply keeps_romProg (hw₀.sub rfl)

theorem putDigest_keeps
    (hw₀ : Has 0x20000000000000000000000000000000000000000000000000000000000000000000000000000000000000000000000000000000000000000000000000000000000000 w₀)
    (d : List Byte) (x1 : Nat) {x2 : State} (h₀ : Keeps w₀ s₀ x2) :
    Keeps w₀ s₀ (putDigest d x1 x2) := by
  revert h₀
  fun_induction putDigest d x1 x2 <;> intro h₀
  all_goals repeat' with_reducible first
    | refine setFk_keeps (hw₀.sub rfl) _ _ _ _ reg_BOOT_IMG_DIGEST ?_ | apply_assumption -exfalso

theorem pairsFresh_keeps (hw₀ : Has 0x480000000 w₀) {s : State} (h₀ : Keeps w₀ s₀ s) :
    Keeps w₀ s₀ (pairsFresh s) := by
  unfold pairsFresh
  try dsimp -proj only
  repeat' with_reducible first
    | assumption | apply keeps_romProg_brk (hw₀.sub rfl) | split

theorem startImage_keeps
    (hw₀ : Has 0x78300000002000000000000000000000000000000000000000000000000000000000000000000000000000000000400000000000000000000000000000080480000100 w₀)
    {s : State} (h₀ : Keeps w₀ s₀ s) :
    Keeps w₀ s₀ (startImage s) := by
  unfold startImage
  repeat' with_reducible first
    | assumption | apply putDigest_keeps (hw₀.sub rfl) | refine setF_keeps (hw₀.sub rfl) _ _ _ reg_BOOT_FW_VERSION ?_
    | refine setF_keeps (hw₀.sub rfl) _ _ _ reg_BOOT_FW_SVN_SVN ?_
    | refine setF_keeps (hw₀.sub rfl) _ _ _ reg_BOOT_STAT_REASON ?_
    | refine setF_keeps (hw₀.sub rfl) _ _ _ reg_BOOT_STAT_STATE ?_
    | refine setEvt_keeps (p := 18) (hw₀.sub rfl) (hw₀.sub rfl) _ _ (by with_unfolding_all rfl) reg_pendFld18 ?_
    | refine setF_keeps (hw₀.sub rfl) _ _ _ reg_BRKW_STAT_ARMED ?_
    | apply trainStacks_keeps (hw₀.sub rfl) | apply pairsFresh_keeps (hw₀.sub rfl)

theorem skipFrozen_keeps
    (hw₀ : Has 0x40400000000000000000000000000000000000000000000000000000000000000000000000000000000000000000000000000000000000000000000000080000000000 w₀)
    {s : State} (h₀ : Keeps w₀ s₀ s) :
    Keeps w₀ s₀ (skipFrozen s) := by
  unfold skipFrozen
  repeat' with_reducible first
    | assumption | refine setEvt_keeps (p := 18) (hw₀.sub rfl) (hw₀.sub rfl) _ _ (by with_unfolding_all rfl) reg_pendFld18 ?_
    | refine setF_keeps (hw₀.sub rfl) _ _ _ reg_BOOT_STAT_OTP_FROZEN ?_

theorem otpRequest_keeps
    (hw₀ : Has 0x400000000000000000000000000000000000000000000000000000000000000000000000000000000000000000000000000000000000000000000000040000000 w₀)
    (q : OtpReq) {s : State} (h₀ : Keeps w₀ s₀ s) :
    Keeps w₀ s₀ (otpRequest q s) := by
  unfold otpRequest
  repeat' with_reducible first
    | assumption | refine setF_keeps (hw₀.sub rfl) _ _ _ reg_OTP_STAT_BUSY ?_ | apply keeps_otpq (hw₀.sub rfl)

theorem romRequest_keeps
    (hw₀ : Has 0x404004000000000000000000000000000000000000000000000000000000000000000000000000000000000000000000000000000000000000000000000800c0000000 w₀)
    (want : Bool) (f : Nat) (v : List Byte) {s : State} (h₀ : Keeps w₀ s₀ s) :
    Keeps w₀ s₀ (romRequest want f v s) := by
  unfold romRequest
  repeat' with_reducible first
    | assumption | apply skipFrozen_keeps (hw₀.sub rfl) | apply otpRequest_keeps (hw₀.sub rfl) | split
    | apply keeps_romProg (hw₀.sub rfl)

theorem gateOpens_keeps
    (hw₀ : Has 0x787004000020000000000000000000000000000000000000000000000000000000000000000000000000000000004000000000000000000000000000000804c0000100 w₀)
    {s : State} (h₀ : Keeps w₀ s₀ s) :
    Keeps w₀ s₀ (gateOpens s) := by
  unfold gateOpens
  repeat' with_reducible first
    | assumption | apply keeps_ite | apply romRequest_keeps (hw₀.sub rfl) | apply startImage_keeps (hw₀.sub rfl)

theorem imageVerifyDone_keeps
    (hw₀ : Has 0x787004000020000000000000000000000000000000000000000000000000000000000000000000000000000000004000000000000000000000000000000804c0000100 w₀)
    {s : State} (h₀ : Keeps w₀ s₀ s) :
    Keeps w₀ s₀ (imageVerifyDone s) := by
  unfold imageVerifyDone
  repeat' with_reducible first
    | assumption | apply keeps_ite | apply gateOpens_keeps (hw₀.sub rfl) | apply rejectImage_keeps (hw₀.sub rfl)

theorem execImageVerifyDone_keeps
    (hw₀ : Has 0x787004000020000000000000000000000000000000000000000000000000000000000000000000000000000000004000000000000000000000000000000804c0000100 w₀)
    {s : State} (h₀ : Keeps w₀ s₀ s) :
    ∀ t₁, execImageVerifyDone s = .next t₁ → Keeps w₀ s₀ t₁ := by
  unfold execImageVerifyDone
  intro t₁ ht
  cases ht
  repeat' with_reducible first
    | assumption | apply pairsUp_keeps | apply imageVerifyDone_keeps (hw₀.sub rfl)

theorem progRequest_keeps
    (hw₀ : Has 0x8400000000000000000000000000000000000000000000000000000000000000000000000000000000000000000000000000000000000000000000080040000000 w₀)
    {s : State} (h₀ : Keeps w₀ s₀ s) :
    Keeps w₀ s₀ (progRequest s) := by
  unfold progRequest
  repeat' with_reducible first
    | assumption | apply keeps_ite
    | refine setEvt_keeps (p := 17) (hw₀.sub rfl) (hw₀.sub rfl) _ _ (by with_unfolding_all rfl) reg_pendFld17 ?_
    | apply otpRequest_keeps (hw₀.sub rfl)

theorem progGo_keeps
    (hw₀ : Has 0x1000200048510000080100000400000200000000400000800000040000000100000000000002000000100080200000000020000000010000000001000000000080040000000 w₀)
    (r : Requester) (a v : Nat) {s : State} (h₀ : Keeps w₀ s₀ s) :
    Keeps w₀ s₀ (progGo r a v s) := by
  unfold progGo
  repeat' with_reducible first
    | assumption | intro _ | apply guarded_keeps (hw₀.sub rfl) | apply progRequest_keeps (hw₀.sub rfl) | split

theorem execProgGo_keeps
    (hw₀ : Has 0x1000200048510000080100000400000200000000400000800000040000000100000000000002000000100080200000000020000000010000000001000000000080040000000 w₀)
    (r : Requester) (a v : Nat) {s : State} (h₀ : Keeps w₀ s₀ s) :
    ∀ t₁, execProgGo r a v s = .next t₁ → Keeps w₀ s₀ t₁ := by
  unfold execProgGo
  intro t₁ ht
  cases ht
  repeat' with_reducible first
    | assumption | apply progGo_keeps (hw₀.sub rfl)

theorem otpWrite_keeps (hw₀ : Has 0x40 w₀) (f g : Nat) (bs : List Byte) {s : State} (h₀ : Keeps w₀ s₀ s) :
    Keeps w₀ s₀ (otpWrite f g bs s) := by
  unfold otpWrite
  repeat' with_reducible first
    | assumption | split | apply keeps_otp (hw₀.sub rfl)

theorem romNext_keeps
    (hw₀ : Has 0x783000000020000000000000000000000000000000000000000000000000000000000000000000000000000000004000000000000000000000000000000804c0000100 w₀)
    (ok : Bool) {s : State} (h₀ : Keeps w₀ s₀ s) :
    Keeps w₀ s₀ (romNext ok s) := by
  unfold romNext
  repeat' with_reducible first
    | assumption | apply rejectImage_keeps (hw₀.sub rfl) | apply startImage_keeps (hw₀.sub rfl) | split
    | apply keeps_otpq (hw₀.sub rfl)

theorem otpEnd_keeps
    (hw₀ : Has 0x783004000020000000000000000000000000000000000000000000000000000000000000000000000000000000004000000000000000000000000000000804c0000100 w₀)
    (q : OtpReq) (ok : Bool) {s : State} (h₀ : Keeps w₀ s₀ s) :
    Keeps w₀ s₀ (otpEnd q ok s) := by
  unfold otpEnd
  repeat' with_reducible first
    | assumption | apply romNext_keeps (hw₀.sub rfl) | refine setF_keeps (hw₀.sub rfl) _ _ _ reg_OTP_STAT_BUSY ?_ | split

theorem otpCount_keeps
    (hw₀ : Has 0x9800000000000000000000000000000000000000000000000000000000000000000000000000000000000000000000000000000000000000000000080000000000 w₀)
    (ok : Bool) {s : State} (h₀ : Keeps w₀ s₀ s) :
    Keeps w₀ s₀ (otpCount ok s) := by
  unfold otpCount
  repeat' with_reducible first
    | assumption | refine setEvt_keeps (p := 17) (hw₀.sub rfl) (hw₀.sub rfl) _ _ (by with_unfolding_all rfl) reg_pendFld17 ?_
    | refine incr_keeps (hw₀.sub rfl) _ _ reg_OTP_PROG_CNT ?_ | refine incr_keeps (hw₀.sub rfl) _ _ reg_OTP_PROG_FAIL_CNT ?_
    | split

theorem otpProgDone_keeps
    (hw₀ : Has 0x78709c000020000000000000000000000000000000000000000000000000000000000000000000000000000000004000000000000000000000000000000805c0000140 w₀)
    (ok : Bool) {s : State} (h₀ : Keeps w₀ s₀ s) :
    Keeps w₀ s₀ (otpProgDone ok s) := by
  unfold otpProgDone
  repeat' with_reducible first
    | assumption | apply otpEnd_keeps (hw₀.sub rfl) | apply skipFrozen_keeps (hw₀.sub rfl)
    | refine setEvt_keeps (p := 17) (hw₀.sub rfl) (hw₀.sub rfl) _ _ (by with_unfolding_all rfl) reg_pendFld17 ?_
    | apply otpCount_keeps (hw₀.sub rfl) | apply otpWrite_keeps (hw₀.sub rfl) | split | apply keeps_otpq (hw₀.sub rfl)
    | apply keeps_bootKeys (hw₀.sub rfl)

theorem execOtpProgDone_keeps
    (hw₀ : Has 0x78709c000020000000000000000000000000000000000000000000000000000000000000000000000000000000004000000000000000000000000000000805c0000140 w₀)
    (ok : Bool) {s : State} (h₀ : Keeps w₀ s₀ s) :
    ∀ t₁, execOtpProgDone ok s = .next t₁ → Keeps w₀ s₀ t₁ := by
  unfold execOtpProgDone
  intro t₁ ht
  cases ht
  repeat' with_reducible first
    | assumption | apply otpProgDone_keeps (hw₀.sub rfl)

theorem idReady_keeps
    (hw₀ : Has 0x800000000000000000000000000000000000000000000000000000000000000000000000000000000000000000000000000000000000000000000000000000000000 w₀)
    {s : State} (h₀ : Keeps w₀ s₀ s) :
    Keeps w₀ s₀ (idReady s) := by
  unfold idReady
  repeat' with_reducible first
    | assumption | refine setF_keeps (hw₀.sub rfl) _ _ _ reg_BOOT_STAT_ID_READY ?_ | split

theorem execIdReady_keeps
    (hw₀ : Has 0x800000000000000000000000000000000000000000000000000000000000000000000000000000000000000000000000000000000000000000000000000000000000 w₀)
    {s : State} (h₀ : Keeps w₀ s₀ s) :
    ∀ t₁, execIdReady s = .next t₁ → Keeps w₀ s₀ t₁ := by
  unfold execIdReady
  intro t₁ ht
  cases ht
  repeat' with_reducible first
    | assumption | apply pairsUp_keeps | apply idReady_keeps (hw₀.sub rfl)

theorem attest_keeps
    (hw₀ : Has 0x58080000000000000000000000000000000000000000000000000000000000000000000000000000000000000000000180000300020 w₀)
    (h : Nat) {s : State} (h₀ : Keeps w₀ s₀ s) :
    Keeps w₀ s₀ (attest h s) := by
  unfold attest
  repeat' with_reducible first
    | assumption | intro _ | apply runCmd_keeps (hw₀.sub rfl) | apply denyCmd_keeps (hw₀.sub rfl)
    | apply report_keeps (hw₀.sub rfl) | apply nextFree_keeps (hw₀.sub rfl) | apply hostWrite_keeps (hw₀.sub rfl) | split

theorem execAttest_keeps
    (hw₀ : Has 0x58080000000000000000000000000000000000000000000000000000000000000000000000000000000000000000000180000300020 w₀)
    (h : Nat) {s : State} (h₀ : Keeps w₀ s₀ s) :
    ∀ t₁, execAttest h s = .next t₁ → Keeps w₀ s₀ t₁ := by
  unfold execAttest
  intro t₁ ht
  cases ht
  repeat' with_reducible first
    | assumption | apply running_keeps | apply attest_keeps (hw₀.sub rfl)

end Sys2Proof.Machine
end

