-- ==== Sys2Proof/Laws/KeepsPower.lean ====
section
/-! SUPPORT. What the functions of Machine/Power.lean may change. -/

namespace Sys2Proof.Machine

set_option exponentiation.threshold 600

variable {w₀ : Nat} {s₀ : State}

theorem refuseDomain_keeps
    (hw₀ : Has 0x30000000000000000000000000000000000000000000000000000000000000000000000000000000000000000000000000000000000080000000000 w₀)
    (n : Nat) {s : State} (h₀ : Keeps w₀ s₀ s) :
    Keeps w₀ s₀ (refuseDomain n s) := by
  unfold refuseDomain
  repeat' with_reducible first
    | assumption | refine setEvt_keeps (p := 13) (hw₀.sub rfl) (hw₀.sub rfl) _ _ (by with_unfolding_all rfl) reg_pendFld13 ?_
    | refine setF_keeps (hw₀.sub rfl) _ _ _ reg_PWR_ERR_INFO_DOMAIN ?_

theorem switchOff_keeps
    (hw₀ : Has 0x1ffffffffffffffffffffffffffffffffffffffffffffffffffffffffffffffffffffffffffffffffffffffffffffffffffffffffffffffffffffffffffffff08400101c510 w₀)
    (v x1 x2 : Nat) {x3 : State} (h₀ : Keeps w₀ s₀ x3) :
    Keeps w₀ s₀ (switchOff v x1 x2 x3) := by
  revert h₀
  fun_induction switchOff v x1 x2 x3 <;> intro h₀
  all_goals repeat' with_reducible first
    | apply keeps_ite | apply domainOff_keeps (hw₀.sub rfl) | apply refuseDomain_keeps (hw₀.sub rfl)
    | apply_assumption -exfalso

theorem domReqSet_keeps
    (hw₀ : Has 0x1ffffffffffffffffffffffffffffffffffffffffffffffffffffffffffffffffffffffffffffffffffffffffffffffffffffffffffffffffffffffffffffff08400101c510 w₀)
    (w v : Nat) {s : State} (h₀ : Keeps w₀ s₀ s) :
    Keeps w₀ s₀ (domReqSet w v s) := by
  unfold domReqSet
  repeat' with_reducible first
    | assumption | apply switchOff_keeps (hw₀.sub rfl) | refine setFk_keeps (hw₀.sub rfl) _ _ _ _ reg_PWR_DOM_REQ ?_

theorem domReq_keeps
    (hw₀ : Has 0x1ffffffffffffffffffffffffffffffffffffffffffffffffffffffffffffffffffffffffffffffffffffffffffffffffffffffffffffffffffffffffffffff08400101c510 w₀)
    (r : Requester) (a v : Nat) {s : State} (h₀ : Keeps w₀ s₀ s) :
    Keeps w₀ s₀ (domReq r a v s) := by
  unfold domReq
  repeat' with_reducible first
    | assumption | intro _ | apply guarded_keeps (hw₀.sub rfl) | apply domReqSet_keeps (hw₀.sub rfl)
    | refine setFk_keeps (hw₀.sub rfl) _ _ _ _ reg_PWR_DOM_REQ ?_ | apply pairRuns_keeps | split

theorem execDomReq_keeps
    (hw₀ : Has 0x1ffffffffffffffffffffffffffffffffffffffffffffffffffffffffffffffffffffffffffffffffffffffffffffffffffffffffffffffffffffffffffffff08400101c510 w₀)
    (r : Requester) (a v : Nat) {s : State} (h₀ : Keeps w₀ s₀ s) :
    ∀ t₁, execDomReq r a v s = .next t₁ → Keeps w₀ s₀ t₁ := by
  unfold execDomReq
  intro t₁ ht
  cases ht
  repeat' with_reducible first
    | assumption | apply domReq_keeps (hw₀.sub rfl)

theorem domainOn_keeps
    (hw₀ : Has 0x200000000000000000000000000000000000000000000000000000000000000000000000000400800000640000000000000000000000000000100 w₀)
    (n : Nat) {s : State} (h₀ : Keeps w₀ s₀ s) :
    Keeps w₀ s₀ (domainOn n s) := by
  unfold domainOn
  repeat' with_reducible first
    | assumption | apply setDomStat_keeps (hw₀.sub rfl) | apply trainStack_keeps (hw₀.sub rfl)
    | apply showSeq_keeps (hw₀.sub rfl) | split | dsimp -proj only

theorem domainSwitchDone_keeps
    (hw₀ : Has 0x200000000000000000000000000000000000000000000000000000000000000000000000000400800000640000000000000000000000000000100 w₀)
    (n : Nat) {s : State} (h₀ : Keeps w₀ s₀ s) :
    Keeps w₀ s₀ (domainSwitchDone n s) := by
  unfold domainSwitchDone
  repeat' with_reducible first
    | assumption | apply domainOn_keeps (hw₀.sub rfl) | split

theorem execDomainSwitchDone_keeps
    (hw₀ : Has 0x200000000000000000000000000000000000000000000000000000000000000000000000000400800000640000000000000000000000000000100 w₀)
    (n : Nat) {s : State} (h₀ : Keeps w₀ s₀ s) :
    ∀ t₁, execDomainSwitchDone n s = .next t₁ → Keeps w₀ s₀ t₁ := by
  unfold execDomainSwitchDone
  intro t₁ ht
  cases ht
  repeat' with_reducible first
    | assumption | apply pairsUp_keeps | apply domainSwitchDone_keeps (hw₀.sub rfl) | apply pairRuns_keeps

theorem droopStretch_keeps
    (hw₀ : Has 0x80000000000000000000000000000000000000000000000000000000000000000000000000000000000000000000000000000000000000000000 w₀)
    (d : Nat) {s : State} (h₀ : Keeps w₀ s₀ s) :
    Keeps w₀ s₀ (droopStretch d s) := by
  unfold droopStretch
  repeat' with_reducible first
    | assumption | refine addFk_keeps (hw₀.sub rfl) _ _ _ _ reg_PWR_STRETCH_CNT ?_ | split

theorem execDroopStretch_keeps
    (hw₀ : Has 0x80000000000000000000000000000000000000000000000000000000000000000000000000000000000000000000000000000000000000000000 w₀)
    (d : Nat) {s : State} (h₀ : Keeps w₀ s₀ s) :
    ∀ t₁, execDroopStretch d s = .next t₁ → Keeps w₀ s₀ t₁ := by
  unfold execDroopStretch
  intro t₁ ht
  cases ht
  repeat' with_reducible first
    | assumption | apply running_keeps | apply droopStretch_keeps (hw₀.sub rfl)

theorem railDip_keeps
    (hw₀ : Has 0x2801a000000000000000000000000000000000000000000000000000000000000000000000000000000000000000000000000000000080200000000 w₀)
    (r mv : Nat) {s : State} (h₀ : Keeps w₀ s₀ s) :
    Keeps w₀ s₀ (railDip r mv s) := by
  unfold railDip
  repeat' with_reducible first
    | assumption | refine setEvt_keeps (p := 13) (hw₀.sub rfl) (hw₀.sub rfl) _ _ (by with_unfolding_all rfl) reg_pendFld13 ?_
    | refine incr_keeps (hw₀.sub rfl) _ _ reg_PWR_DIP_CNT ?_ | refine setFk_keeps (hw₀.sub rfl) _ _ _ _ reg_PWR_RAIL_MIN ?_
    | refine setF_keeps (hw₀.sub rfl) _ _ _ reg_PWR_STAT_RAIL ?_ | refine setF_keeps (hw₀.sub rfl) _ _ _ reg_PWR_STAT_DIP ?_
    | split | apply keeps_pow (hw₀.sub rfl)

theorem execRailDip_keeps
    (hw₀ : Has 0x2801a000000000000000000000000000000000000000000000000000000000000000000000000000000000000000000000000000000080200000000 w₀)
    (r mv : Nat) {s : State} (h₀ : Keeps w₀ s₀ s) :
    ∀ t₁, execRailDip r mv s = .next t₁ → Keeps w₀ s₀ t₁ := by
  unfold execRailDip
  intro t₁ ht
  cases ht
  repeat' with_reducible first
    | assumption | apply outOfReset_keeps | apply railDip_keeps (hw₀.sub rfl)

theorem countVerify_keeps
    (hw₀ : Has 0x20060000000000000000000000000000000000000000000000000000000000000000000000000000000000000000000000000000000080000000000 w₀)
    (ok : Bool) {s : State} (h₀ : Keeps w₀ s₀ s) :
    Keeps w₀ s₀ (countVerify ok s) := by
  unfold countVerify
  repeat' with_reducible first
    | assumption | refine incr_keeps (hw₀.sub rfl) _ _ reg_PWR_REVERIFY_TILES ?_
    | refine setEvt_keeps (p := 13) (hw₀.sub rfl) (hw₀.sub rfl) _ _ (by with_unfolding_all rfl) reg_pendFld13 ?_
    | refine incr_keeps (hw₀.sub rfl) _ _ reg_PWR_REVERIFY_FAIL ?_ | split

theorem verifyTile_keeps
    (hw₀ : Has 0x2006000000000000000000000010f01000000040002000000000080000000000000004c048fc400000000000000000000000000000008000a920100 w₀)
    (b : Blk) (t : Nat) {s : State} (h₀ : Keeps w₀ s₀ s) :
    Keeps w₀ s₀ (verifyTile b t s).2 := by
  unfold verifyTile
  repeat' with_reducible first
    | assumption | dsimp only | apply engRead_keeps (hw₀.sub rfl) | apply countVerify_keeps (hw₀.sub rfl)
    | apply fetchSend_keeps (hw₀.sub rfl) | split | refine keeps_snd (by assumption) ?_

theorem verifyBlk_keeps
    (hw₀ : Has 0x2006000000000000000000000010f01000000040002000000000080000000000000004c048fc400000000000000000000000000000008000a920100 w₀)
    (b : Blk) (x1 : Nat) {x2 : State} (h₀ : Keeps w₀ s₀ x2) :
    Keeps w₀ s₀ (verifyBlk b x1 x2).2 := by
  revert h₀
  fun_induction verifyBlk b x1 x2 <;> intro h₀
  all_goals repeat' with_reducible first
    | apply verifyTile_keeps (hw₀.sub rfl) | apply_assumption -exfalso | refine keeps_snd (by assumption) ?_

theorem verifyBlks_keeps
    (hw₀ : Has 0x2006000000000000000000000010f01000000040002000000000080000000000000004c048fc400000000000000000000000000000008000a920100 w₀)
    (x1 : List Blk) {x2 : State} (h₀ : Keeps w₀ s₀ x2) :
    Keeps w₀ s₀ (verifyBlks x1 x2).2.2 := by
  revert h₀
  fun_induction verifyBlks x1 x2 <;> intro h₀
  all_goals repeat' with_reducible first
    | apply verifyBlk_keeps (hw₀.sub rfl) | apply_assumption -exfalso | refine keeps_snd (by assumption) ?_
    | refine keeps_snd2 (by assumption) ?_

theorem verifyTwin_keeps
    (hw₀ : Has 0x2006000000000000000000000000000000000000000000000000000000000000000004c048fc400000000000000000000000000000008000080010c w₀)
    (x1 : List (Nat × Blk × Nat × Nat × Nat)) {x2 : State} (h₀ : Keeps w₀ s₀ x2) :
    Keeps w₀ s₀ (verifyTwin x1 x2).2.2 := by
  revert h₀
  fun_induction verifyTwin x1 x2 <;> intro h₀
  all_goals repeat' with_reducible first
    | apply keeps_ite | apply engRead_keeps (hw₀.sub rfl) | apply countVerify_keeps (hw₀.sub rfl)
    | apply setChkFlags_keeps (hw₀.sub rfl) | apply_assumption -exfalso | refine keeps_snd (by assumption) ?_
    | refine keeps_snd2 (by assumption) ?_

theorem railRecover_keeps
    (hw₀ : Has 0x2806600000000000000000000010f01000000040002000000000080000000000000004c048fc400000000000000000000000000000008020a92010c w₀)
    (r mv us : Nat) {s : State} (h₀ : Keeps w₀ s₀ s) :
    Keeps w₀ s₀ (railRecover r mv us s) := by
  unfold railRecover
  try dsimp -proj only
  repeat' with_reducible first
    | assumption | refine setF_keeps (hw₀.sub rfl) _ _ _ reg_PWR_STAT_HOLDOFF ?_
    | refine setF_keeps (hw₀.sub rfl) _ _ _ reg_PWR_STAT_DIP ?_
    | refine setFk_keeps (hw₀.sub rfl) _ _ _ _ reg_PWR_RAIL_MIN ?_ | apply verifyBlks_keeps (hw₀.sub rfl)
    | apply verifyTwin_keeps (hw₀.sub rfl) | split | apply keeps_pow (hw₀.sub rfl)

theorem execRailRecover_keeps
    (hw₀ : Has 0x2806600000000000000000000010f01000000040002000000000080000000000000004c048fc400000000000000000000000000000008020a92010c w₀)
    (r mv us : Nat) {s : State} (h₀ : Keeps w₀ s₀ s) :
    ∀ t₁, execRailRecover r mv us s = .next t₁ → Keeps w₀ s₀ t₁ := by
  unfold execRailRecover
  intro t₁ ht
  cases ht
  repeat' with_reducible first
    | assumption | apply outOfReset_keeps | apply railRecover_keeps (hw₀.sub rfl)

theorem supplyEvt_keeps (hw₀ : Has 0x200800000 w₀) {s : State} (h₀ : Keeps w₀ s₀ s) :
    Keeps w₀ s₀ (supplyEvt s) := by
  unfold supplyEvt
  repeat' with_reducible first
    | assumption | apply jrnWide_keeps (hw₀.sub rfl) | split | apply keeps_pow (hw₀.sub rfl)

theorem execSupplyEvt_keeps (hw₀ : Has 0x200800000 w₀) {s : State} (h₀ : Keeps w₀ s₀ s) :
    ∀ t₁, execSupplyEvt s = .next t₁ → Keeps w₀ s₀ t₁ := by
  unfold execSupplyEvt
  intro t₁ ht
  cases ht
  repeat' with_reducible first
    | assumption | apply running_keeps | apply supplyEvt_keeps (hw₀.sub rfl)

theorem holdoffEnd_keeps
    (hw₀ : Has 0x4000000000000000000000000000000000000000000000000000000000000000000000000000000000000000000000000000000000000000000 w₀)
    (ms : Nat) {s : State} (h₀ : Keeps w₀ s₀ s) :
    Keeps w₀ s₀ (holdoffEnd ms s) := by
  unfold holdoffEnd
  repeat' with_reducible first
    | assumption | refine setF_keeps (hw₀.sub rfl) _ _ _ reg_PWR_STAT_HOLDOFF ?_ | split

theorem execHoldoffEnd_keeps
    (hw₀ : Has 0x4000000000000000000000000000000000000000000000000000000000000000000000000000000000000000000000000000000000000000000 w₀)
    (ms : Nat) {s : State} (h₀ : Keeps w₀ s₀ s) :
    ∀ t₁, execHoldoffEnd ms s = .next t₁ → Keeps w₀ s₀ t₁ := by
  unfold execHoldoffEnd
  intro t₁ ht
  cases ht
  repeat' with_reducible first
    | assumption | apply outOfReset_keeps | apply holdoffEnd_keeps (hw₀.sub rfl)

theorem thermEvt_keeps (hw₀ : Has 0x800000 w₀) (rg step cause kind : Nat) {s : State} (h₀ : Keeps w₀ s₀ s) :
    Keeps w₀ s₀ (thermEvt rg step cause kind s) := by
  unfold thermEvt
  repeat' with_reducible first
    | assumption | apply jrnWide_keeps (hw₀.sub rfl)

theorem takeStep_keeps
    (hw₀ : Has 0x13600000000000000000000000000000000000000000000000000000000000000000000000000000000000000000000000000000000000080000800000 w₀)
    (rg : Nat) {s : State} (h₀ : Keeps w₀ s₀ s) :
    Keeps w₀ s₀ (takeStep rg s) := by
  unfold takeStep
  repeat' with_reducible first
    | assumption | apply keeps_ite | refine setFk_keeps (hw₀.sub rfl) _ _ _ _ reg_THERM_REGION_TSTEP ?_
    | refine setFk_keeps (hw₀.sub rfl) _ _ _ _ reg_THERM_REGION_CAUSE ?_
    | refine addF_keeps (hw₀.sub rfl) _ _ _ reg_THERM_STEP_DOWN ?_ | apply thermEvt_keeps (hw₀.sub rfl)
    | refine setEvt_keeps (p := 14) (hw₀.sub rfl) (hw₀.sub rfl) _ _ (by with_unfolding_all rfl) reg_pendFld14 ?_
    | refine addF_keeps (hw₀.sub rfl) _ _ _ reg_THERM_STEP_UP ?_

theorem takeSteps_keeps
    (hw₀ : Has 0x13600000000000000000000000000000000000000000000000000000000000000000000000000000000000000000000000000000000000080000800000 w₀)
    (x1 : List Nat) {x2 : State} (h₀ : Keeps w₀ s₀ x2) :
    Keeps w₀ s₀ (takeSteps x1 x2) := by
  revert h₀
  fun_induction takeSteps x1 x2 <;> intro h₀
  all_goals repeat' with_reducible first
    | apply takeStep_keeps (hw₀.sub rfl) | apply_assumption -exfalso

theorem regionTempSample_keeps
    (hw₀ : Has 0x13e00000000000000000000000000000000000000000000000000000000000000000000000000000000000000000000000000000000000080200800000 w₀)
    (rg t : Nat) {s : State} (h₀ : Keeps w₀ s₀ s) :
    Keeps w₀ s₀ (regionTempSample rg t s) := by
  unfold regionTempSample
  repeat' with_reducible first
    | assumption | refine setFk_keeps (hw₀.sub rfl) _ _ _ _ reg_THERM_REGION_TEMP ?_ | apply takeStep_keeps (hw₀.sub rfl)
    | split | apply keeps_pow (hw₀.sub rfl)

theorem execRegionTempSample_keeps
    (hw₀ : Has 0x13e00000000000000000000000000000000000000000000000000000000000000000000000000000000000000000000000000000000000080200800000 w₀)
    (rg t : Nat) {s : State} (h₀ : Keeps w₀ s₀ s) :
    ∀ t₁, execRegionTempSample rg t s = .next t₁ → Keeps w₀ s₀ t₁ := by
  unfold execRegionTempSample
  intro t₁ ht
  cases ht
  repeat' with_reducible first
    | assumption | apply pairsUp_keeps | apply regionTempSample_keeps (hw₀.sub rfl) | apply pairRuns_keeps

theorem powerSample_keeps
    (hw₀ : Has 0x13604000000000000000000000000000000000000000000000000000000000000000000000000000000000000000000000000000000000080200800000 w₀)
    (w : Nat) {s : State} (h₀ : Keeps w₀ s₀ s) :
    Keeps w₀ s₀ (powerSample w s) := by
  unfold powerSample
  repeat' with_reducible first
    | assumption | refine setF_keeps (hw₀.sub rfl) _ _ _ reg_PWR_POWER ?_ | apply takeSteps_keeps (hw₀.sub rfl)
    | apply keeps_pow (hw₀.sub rfl)

theorem execPowerSample_keeps
    (hw₀ : Has 0x13604000000000000000000000000000000000000000000000000000000000000000000000000000000000000000000000000000000000080200800000 w₀)
    (w : Nat) {s : State} (h₀ : Keeps w₀ s₀ s) :
    ∀ t₁, execPowerSample w s = .next t₁ → Keeps w₀ s₀ t₁ := by
  unfold execPowerSample
  intro t₁ ht
  cases ht
  repeat' with_reducible first
    | assumption | apply pairsUp_keeps | apply powerSample_keeps (hw₀.sub rfl) | apply pairRuns_keeps

theorem refreshRate_keeps (hw₀ : Has 0x8000000000000000000000000000000000000800000 w₀) (m t : Nat) {s : State}
    (h₀ : Keeps w₀ s₀ s) :
    Keeps w₀ s₀ (refreshRate m t s) := by
  unfold refreshRate
  repeat' with_reducible first
    | assumption | apply keeps_ite | apply memEvt_keeps (hw₀.sub rfl)
    | refine setF_keeps (hw₀.sub rfl) _ _ _ reg_MEMCTL_STAT_REF_X2 ?_

theorem fallDues_keeps (hw₀ : Has 0x100 w₀) (m t : Nat) (x1 : Nat) {x2 : State} (h₀ : Keeps w₀ s₀ x2) :
    Keeps w₀ s₀ (fallDues m t x1 x2) := by
  revert h₀
  fun_induction fallDues m t x1 x2 <;> intro h₀
  all_goals repeat' with_reducible first
    | apply keeps_ite | apply fallDue_keeps (hw₀.sub rfl) | apply_assumption -exfalso | split

theorem dueChannels_keeps (hw₀ : Has 0x1800000000000000000000000000000000000000100 w₀) (m t : Nat) {s : State} (h₀ : Keeps w₀ s₀ s) :
    Keeps w₀ s₀ (dueChannels m t s) := by
  unfold dueChannels
  repeat' with_reducible first
    | assumption | apply startDue_keeps (hw₀.sub rfl) | apply fallDues_keeps (hw₀.sub rfl)

theorem stackTempSample_keeps (hw₀ : Has 0x40000039800000000000000000000000000000080000800100 w₀) (m t : Nat) {s : State}
    (h₀ : Keeps w₀ s₀ s) :
    Keeps w₀ s₀ (stackTempSample m t s) := by
  unfold stackTempSample
  repeat' with_reducible first
    | assumption | apply keeps_ite | apply dueChannels_keeps (hw₀.sub rfl) | apply refreshRate_keeps (hw₀.sub rfl)
    | refine setF_keeps (hw₀.sub rfl) _ _ _ reg_MEMCTL_STAT_TEMP ?_ | apply memEvt_keeps (hw₀.sub rfl)
    | refine setEvt_keeps (p := 3) (hw₀.sub rfl) (hw₀.sub rfl) _ _ (by with_unfolding_all rfl) reg_pendFld3 ?_
    | refine setF_keeps (hw₀.sub rfl) _ _ _ reg_MEMCTL_STAT_THROTTLE ?_

theorem execStackTempSample_keeps (hw₀ : Has 0x40000039800000000000000000000000000000080000800100 w₀) (m t : Nat)
    {s : State} (h₀ : Keeps w₀ s₀ s) :
    ∀ t₁, execStackTempSample m t s = .next t₁ → Keeps w₀ s₀ t₁ := by
  unfold execStackTempSample
  intro t₁ ht
  cases ht
  repeat' with_reducible first
    | assumption | apply runningIn_keeps | apply stackTempSample_keeps (hw₀.sub rfl)

theorem stackThrottleStep_keeps
    (hw₀ : Has 0x13600000000000000000000000000000000000000000000000000000000000000000000000000010000000000000000000000000000000080200800000 w₀)
    (m : Nat) {s : State} (h₀ : Keeps w₀ s₀ s) :
    Keeps w₀ s₀ (stackThrottleStep m s) := by
  unfold stackThrottleStep
  repeat' with_reducible first
    | assumption | apply memEvt_keeps (hw₀.sub rfl) | refine setF_keeps (hw₀.sub rfl) _ _ _ reg_MEMCTL_STAT_THROTTLE ?_
    | apply takeSteps_keeps (hw₀.sub rfl) | split | apply keeps_pow (hw₀.sub rfl)

theorem execStackThrottleStep_keeps
    (hw₀ : Has 0x13600000000000000000000000000000000000000000000000000000000000000000000000000010000000000000000000000000000000080200800000 w₀)
    (m : Nat) {s : State} (h₀ : Keeps w₀ s₀ s) :
    ∀ t₁, execStackThrottleStep m s = .next t₁ → Keeps w₀ s₀ t₁ := by
  unfold execStackThrottleStep
  intro t₁ ht
  cases ht
  repeat' with_reducible first
    | assumption | apply runningIn_keeps | apply stackThrottleStep_keeps (hw₀.sub rfl) | apply pairRuns_keeps

theorem stateReq_keeps
    (hw₀ : Has 0x1000200040110000080100000c00000200000000400000800000040000000100000000000002000000100080200000000020000000010000000001000000000000000000000 w₀)
    (r : Requester) (a v want : Nat) (f : State → State) {s : State} (h₀ : Keeps w₀ s₀ s)
    (hf₀ : ∀  s, Keeps w₀ s₀ s → Keeps w₀ s₀ (f  s)) :
    Keeps w₀ s₀ (stateReq r a v want f s) := by
  unfold stateReq
  repeat' with_reducible first
    | assumption | intro _ | apply guarded_keeps (hw₀.sub rfl)
    | refine setF_keeps (hw₀.sub rfl) _ _ _ reg_PWR_CTRL_STATE_REQ ?_ | apply hf₀ | split

theorem refuseState_keeps
    (hw₀ : Has 0x20001000000000000000000000000000000000000000000000000000000000000000000000000000000000000000000000000000000080000000000 w₀)
    {s : State} (h₀ : Keeps w₀ s₀ s) :
    Keeps w₀ s₀ (refuseState s) := by
  unfold refuseState
  repeat' with_reducible first
    | assumption | refine setEvt_keeps (p := 13) (hw₀.sub rfl) (hw₀.sub rfl) _ _ (by with_unfolding_all rfl) reg_pendFld13 ?_
    | refine setF_keeps (hw₀.sub rfl) _ _ _ reg_PWR_STAT_STATE ?_

theorem enterIdle_keeps
    (hw₀ : Has 0x1ffffffffffffffffffffffffffffffffffffffffffffffffffffffffffffffffffffffffffffffffffffffffffffffffffffffffffffffffffffffffffffff08400101c510 w₀)
    {s : State} (h₀ : Keeps w₀ s₀ s) :
    Keeps w₀ s₀ (enterIdle s) := by
  unfold enterIdle
  repeat' with_reducible first
    | assumption | apply refuseState_keeps (hw₀.sub rfl)
    | refine setEvt_keeps (p := 13) (hw₀.sub rfl) (hw₀.sub rfl) _ _ (by with_unfolding_all rfl) reg_pendFld13 ?_
    | refine setF_keeps (hw₀.sub rfl) _ _ _ reg_PWR_STAT_STATE ?_ | apply domainsOff_keeps (hw₀.sub rfl) | split

theorem execDeepIdle_keeps
    (hw₀ : Has 0x1ffffffffffffffffffffffffffffffffffffffffffffffffffffffffffffffffffffffffffffffffffffffffffffffffffffffffffffffffffffffffffffff08400101c510 w₀)
    (r : Requester) (a v : Nat) {s : State} (h₀ : Keeps w₀ s₀ s) :
    ∀ t₁, execDeepIdle r a v s = .next t₁ → Keeps w₀ s₀ t₁ := by
  unfold execDeepIdle
  intro t₁ ht
  cases ht
  repeat' with_reducible first
    | assumption | intro _ | apply stateReq_keeps (hw₀.sub rfl) | apply enterIdle_keeps (hw₀.sub rfl)

theorem domainsOn_keeps
    (hw₀ : Has 0x200000000000000000000000000000000000000000000000000000000000000000000000000400800000640000000000000000000000000000100 w₀)
    (x1 : List Nat) {x2 : State} (h₀ : Keeps w₀ s₀ x2) :
    Keeps w₀ s₀ (domainsOn x1 x2) := by
  revert h₀
  fun_induction domainsOn x1 x2 <;> intro h₀
  all_goals repeat' with_reducible first
    | apply domainOn_keeps (hw₀.sub rfl) | apply_assumption -exfalso | split

theorem linksNeeded_keeps (hw₀ : Has 0x30200000000000000000000000000000000000000000000000000000000000000000000000000400800000640000000000000000000080000000100 w₀) (x1 : Nat) {x2 : State} (h₀ : Keeps w₀ s₀ x2) :
    Keeps w₀ s₀ (linksNeeded x1 x2) := by
  revert h₀
  fun_induction linksNeeded x1 x2 <;> intro h₀
  all_goals repeat' with_reducible first
    | apply keeps_ite | apply refuseDomain_keeps (hw₀.sub rfl) | apply domainOn_keeps (hw₀.sub rfl)
    | apply_assumption -exfalso | split

theorem leaveIdle_keeps
    (hw₀ : Has 0x30201000000000000000000000000000000000000000000000000000000000000000000000000400800000640000000000000000000080000000100 w₀)
    {s : State} (h₀ : Keeps w₀ s₀ s) :
    Keeps w₀ s₀ (leaveIdle s) := by
  unfold leaveIdle
  repeat' with_reducible first
    | assumption
    | refine setEvt_keeps (p := 13) (hw₀.sub rfl) (hw₀.sub rfl) _ _ (by with_unfolding_all rfl) reg_pendFld13 ?_
    | refine setF_keeps (hw₀.sub rfl) _ _ _ reg_PWR_STAT_STATE ?_ | apply domainsOn_keeps (hw₀.sub rfl)
    | apply linksNeeded_keeps (hw₀.sub rfl) | split

theorem execDeepIdleExit_keeps
    (hw₀ : Has 0x1000200040110000080130201c00000200000000400000800000040000000100000000000002000000100080200000000420800000650000000001000000000080000000100 w₀)
    (r : Requester) (a v : Nat) {s : State} (h₀ : Keeps w₀ s₀ s) :
    ∀ t₁, execDeepIdleExit r a v s = .next t₁ → Keeps w₀ s₀ t₁ := by
  unfold execDeepIdleExit
  intro t₁ ht
  cases ht
  repeat' with_reducible first
    | assumption | intro _ | apply stateReq_keeps (hw₀.sub rfl) | apply leaveIdle_keeps (hw₀.sub rfl)

theorem enterStandby_keeps
    (hw₀ : Has 0x1ffffffffffffffffffffffffffffffffffffffffffffffffffffffffffffffffffffffffffffffffffffffffffffffffffffffffffffffffffffffffffffff08400101c51c w₀)
    {s : State} (h₀ : Keeps w₀ s₀ s) :
    Keeps w₀ s₀ (enterStandby s) := by
  unfold enterStandby
  repeat' with_reducible first
    | assumption | intro _ | apply refuseState_keeps (hw₀.sub rfl) | apply domainsOff_keeps (hw₀.sub rfl)
    | refine setEvt_keeps (p := 13) (hw₀.sub rfl) (hw₀.sub rfl) _ _ (by with_unfolding_all rfl) reg_pendFld13 ?_
    | refine setF_keeps (hw₀.sub rfl) _ _ _ reg_PWR_STAT_STATE ?_ | split | exact Store.canon_nil
    | apply keeps_mem_poison_mcs (hw₀.sub rfl)

theorem execStandby_keeps
    (hw₀ : Has 0x1ffffffffffffffffffffffffffffffffffffffffffffffffffffffffffffffffffffffffffffffffffffffffffffffffffffffffffffffffffffffffffffff08400101c51c w₀)
    (r : Requester) (a v : Nat) {s : State} (h₀ : Keeps w₀ s₀ s) :
    ∀ t₁, execStandby r a v s = .next t₁ → Keeps w₀ s₀ t₁ := by
  unfold execStandby
  intro t₁ ht
  cases ht
  repeat' with_reducible first
    | assumption | intro _ | apply stateReq_keeps (hw₀.sub rfl) | apply enterStandby_keeps (hw₀.sub rfl)

theorem unitReset_keeps
    (hw₀ : Has 0x1ffffffffffffffffffffffffffffffffffffffffffffffffffffffffffffffffffffffffffffffffffffffffffffffffffffffffffffffffffffffffffffff08000030c000 w₀)
    (u : Nat) {s : State} (h₀ : Keeps w₀ s₀ s) :
    Keeps w₀ s₀ (unitReset u s) := by
  unfold unitReset
  repeat' with_reducible first
    | assumption | apply restoreFlds_keeps (hw₀.sub rfl) | apply modCluster_keeps (hw₀.sub rfl)
    | apply placeFences_keeps (hw₀.sub rfl) | apply keeps_units (hw₀.sub rfl)

theorem seqReset_keeps
    (hw₀ : Has 0x1ffffffffffffffffffffffffffffffffffffffffffffffffffffffffffffffffffffffffffffffffffffffffffffffffffffffffffffffffffffffffffffff000000018000 w₀)
    (rg : Nat) {s : State} (h₀ : Keeps w₀ s₀ s) :
    Keeps w₀ s₀ (seqReset rg s) := by
  unfold seqReset
  repeat' with_reducible first
    | assumption | apply modSeq_keeps (hw₀.sub rfl) | apply dropWide_keeps (hw₀.sub rfl) | apply showSeq_keeps (hw₀.sub rfl)
    | apply restoreFlds_keeps (hw₀.sub rfl)

theorem islandRst_keeps
    (hw₀ : Has 0x1ffffffffffffffffffffffffffffffffffffffffffffffffffffffffffffffffffffffffffffffffffffffffffffffffffffffffffffffffffffffffffffff08000031c000 w₀)
    (r : Requester) (a v : Nat) {s : State} (h₀ : Keeps w₀ s₀ s) :
    Keeps w₀ s₀ (islandRst r a v s) := by
  unfold islandRst
  repeat' with_reducible first
    | assumption | intro _ | apply guarded_keeps (hw₀.sub rfl) | apply seqReset_keeps (hw₀.sub rfl)
    | apply unitReset_keeps (hw₀.sub rfl) | split

theorem execIslandRst_keeps
    (hw₀ : Has 0x1ffffffffffffffffffffffffffffffffffffffffffffffffffffffffffffffffffffffffffffffffffffffffffffffffffffffffffffffffffffffffffffff08000031c000 w₀)
    (r : Requester) (a v : Nat) {s : State} (h₀ : Keeps w₀ s₀ s) :
    ∀ t₁, execIslandRst r a v s = .next t₁ → Keeps w₀ s₀ t₁ := by
  unfold execIslandRst
  intro t₁ ht
  cases ht
  repeat' with_reducible first
    | assumption | apply islandRst_keeps (hw₀.sub rfl)

end Sys2Proof.Machine
end

