-- ==== Sys2Proof/Laws/KeepsResets.lean ====
section
/-! SUPPORT. What the functions of Machine/Resets.lean may change. -/

namespace Sys2Proof.Machine

set_option exponentiation.threshold 600

variable {w₀ : Nat} {s₀ : State}

theorem otpCut_keeps (hw₀ : Has 0x40 w₀) {s : State} (h₀ : Keeps w₀ s₀ s) :
    Keeps w₀ s₀ (otpCut s) := by
  unfold otpCut
  repeat' with_reducible first
    | assumption | apply otpWrite_keeps (hw₀.sub rfl) | split

theorem coldNow_keeps {w : Nat} {s₀ : State} (hw : Has 0x1ffffffffffffffffffffffffffffffffffffffffffffffffffffffffffffffffffffffffffffffffffffffffffffffffffffffffffffffffffffffffffffff0677ffffffde w) {s : State} (h : Keeps w s₀ s) : Keeps w s₀ (coldNow s) := by
  have g := restoreFlds_keeps (hw.sub rfl) .c everywhere (otpCut_keeps (hw.sub rfl) (tallyFlushAll_keeps (hw.sub rfl) h))
  exact { wf := fun x => ⟨rfl, rfl, (g.wf x).2.2⟩
          outs := g.outs
          regs := g.regs
          pending := g.pending
          hiLatch := Has.absurd (n := 1) (hw.sub rfl)
          mem := Has.absurd (n := 2) (hw.sub rfl)
          poison := Has.absurd (n := 3) (hw.sub rfl)
          sram := Has.absurd (n := 4) (hw.sub rfl)
          hmem := g.hmem
          otp := g.otp
          responses := Has.absurd (n := 7) (hw.sub rfl)
          mcs := Has.absurd (n := 8) (hw.sub rfl)
          window := Has.absurd (n := 9) (hw.sub rfl)
          sluices := Has.absurd (n := 10) (hw.sub rfl)
          objs := Has.absurd (n := 11) (hw.sub rfl)
          releases := Has.absurd (n := 12) (hw.sub rfl)
          crossing := Has.absurd (n := 13) (hw.sub rfl)
          clusters := Has.absurd (n := 14) (hw.sub rfl)
          units := Has.absurd (n := 15) (hw.sub rfl)
          seqs := Has.absurd (n := 16) (hw.sub rfl)
          cul := Has.absurd (n := 17) (hw.sub rfl)
          degSet := Has.absurd (n := 18) (hw.sub rfl)
          degClear := Has.absurd (n := 19) (hw.sub rfl)
          ctxs := Has.absurd (n := 20) (hw.sub rfl)
          reports := Has.absurd (n := 21) (hw.sub rfl)
          lastClosed := Has.absurd (n := 22) (hw.sub rfl)
          jwide := Has.absurd (n := 23) (hw.sub rfl)
          ports := Has.absurd (n := 24) (hw.sub rfl)
          txStreams := Has.absurd (n := 25) (hw.sub rfl)
          rxStreams := Has.absurd (n := 26) (hw.sub rfl)
          sendq := Has.absurd (n := 27) (hw.sub rfl)
          inbox := Has.absurd (n := 28) (hw.sub rfl)
          mbx := Has.absurd (n := 29) (hw.sub rfl)
          otpq := Has.absurd (n := 30) (hw.sub rfl)
          romProg := Has.absurd (n := 31) (hw.sub rfl)
          bootKeys := Has.absurd (n := 32) (hw.sub rfl)
          pow := Has.absurd (n := 33) (hw.sub rfl)
          brk := Has.absurd (n := 34) (hw.sub rfl)
          faultN := g.faultN
          inReset := Has.absurd (n := 36) (hw.sub rfl)
          dbg := Has.absurd (n := 37) (hw.sub rfl)
          gauge := g.gauge
          strapPos := g.strapPos
          strapGaddr := g.strapGaddr
          vfEnable := Has.absurd (n := 41) (hw.sub rfl)
          numVfs := Has.absurd (n := 42) (hw.sub rfl)
          out := g.out
          freeCtr := g.freeCtr }

theorem platformNow_keeps {w : Nat} {s₀ : State} (hw : Has 0x1ffffffffffffffffffffffffffffffffffffffffffffffffffffffffffffffffffffffffffffffffffffffffffffffffffffffffffffffffffffffffffffff0e76dfffff9e w) {s : State} (h : Keeps w s₀ s) : Keeps w s₀ (platformNow s) := by
  have g := restoreFlds_keeps (hw.sub rfl) .p everywhere (clearWips_keeps (hw.sub rfl) (allJobs s) (tallyFlushAll_keeps (hw.sub rfl) h))
  exact { wf := fun x => ⟨(g.wf x).1, rfl, (g.wf x).2.2⟩
          outs := g.outs
          regs := g.regs
          pending := g.pending
          hiLatch := Has.absurd (n := 1) (hw.sub rfl)
          mem := g.mem
          poison := g.poison
          sram := Has.absurd (n := 4) (hw.sub rfl)
          hmem := g.hmem
          otp := g.otp
          responses := Has.absurd (n := 7) (hw.sub rfl)
          mcs := Has.absurd (n := 8) (hw.sub rfl)
          window := Has.absurd (n := 9) (hw.sub rfl)
          sluices := Has.absurd (n := 10) (hw.sub rfl)
          objs := Has.absurd (n := 11) (hw.sub rfl)
          releases := Has.absurd (n := 12) (hw.sub rfl)
          crossing := Has.absurd (n := 13) (hw.sub rfl)
          clusters := Has.absurd (n := 14) (hw.sub rfl)
          units := Has.absurd (n := 15) (hw.sub rfl)
          seqs := Has.absurd (n := 16) (hw.sub rfl)
          cul := Has.absurd (n := 17) (hw.sub rfl)
          degSet := Has.absurd (n := 18) (hw.sub rfl)
          degClear := Has.absurd (n := 19) (hw.sub rfl)
          ctxs := Has.absurd (n := 20) (hw.sub rfl)
          reports := Has.absurd (n := 21) (hw.sub rfl)
          lastClosed := Has.absurd (n := 22) (hw.sub rfl)
          jwide := Has.absurd (n := 23) (hw.sub rfl)
          ports := Has.absurd (n := 24) (hw.sub rfl)
          txStreams := Has.absurd (n := 25) (hw.sub rfl)
          rxStreams := Has.absurd (n := 26) (hw.sub rfl)
          sendq := Has.absurd (n := 27) (hw.sub rfl)
          inbox := Has.absurd (n := 28) (hw.sub rfl)
          mbx := g.mbx
          otpq := Has.absurd (n := 30) (hw.sub rfl)
          romProg := Has.absurd (n := 31) (hw.sub rfl)
          bootKeys := g.bootKeys
          pow := Has.absurd (n := 33) (hw.sub rfl)
          brk := Has.absurd (n := 34) (hw.sub rfl)
          faultN := g.faultN
          inReset := Has.absurd (n := 36) (hw.sub rfl)
          dbg := Has.absurd (n := 37) (hw.sub rfl)
          gauge := g.gauge
          strapPos := g.strapPos
          strapGaddr := g.strapGaddr
          vfEnable := Has.absurd (n := 41) (hw.sub rfl)
          numVfs := Has.absurd (n := 42) (hw.sub rfl)
          out := g.out
          freeCtr := g.freeCtr }

theorem holdReset_keeps (hw₀ : Has 0x400000000 w₀) (rc : Cls) (now : State → State) {s : State} (h₀ : Keeps w₀ s₀ s)
    (hf₀ : ∀  s, Keeps w₀ s₀ s → Keeps w₀ s₀ (now  s)) :
    Keeps w₀ s₀ (holdReset rc now s) := by
  unfold holdReset
  repeat' with_reducible first
    | assumption | apply hf₀ | split | apply keeps_brk (hw₀.sub rfl)

theorem coldReset_keeps
    (hw₀ : Has 0x1ffffffffffffffffffffffffffffffffffffffffffffffffffffffffffffffffffffffffffffffffffffffffffffffffffffffffffffffffffffffffffffff0677ffffffde w₀)
    {s : State} (h₀ : Keeps w₀ s₀ s) :
    Keeps w₀ s₀ (coldReset s) := by
  unfold coldReset
  repeat' with_reducible first
    | assumption | intro _ | apply holdReset_keeps (hw₀.sub rfl) | apply coldNow_keeps (hw₀.sub rfl) | split

theorem execColdReset_keeps
    (hw₀ : Has 0x1ffffffffffffffffffffffffffffffffffffffffffffffffffffffffffffffffffffffffffffffffffffffffffffffffffffffffffffffffffffffffffffff0677ffffffde w₀)
    {s : State} (h₀ : Keeps w₀ s₀ s) :
    ∀ t₁, execColdReset s = .next t₁ → Keeps w₀ s₀ t₁ := by
  unfold execColdReset
  intro t₁ ht
  cases ht
  repeat' with_reducible first
    | assumption | apply coldReset_keeps (hw₀.sub rfl)

theorem platformReset_keeps
    (hw₀ : Has 0x1ffffffffffffffffffffffffffffffffffffffffffffffffffffffffffffffffffffffffffffffffffffffffffffffffffffffffffffffffffffffffffffff0e76dfffff9e w₀)
    {s : State} (h₀ : Keeps w₀ s₀ s) :
    Keeps w₀ s₀ (platformReset s) := by
  unfold platformReset
  repeat' with_reducible first
    | assumption | intro _ | apply holdReset_keeps (hw₀.sub rfl) | apply platformNow_keeps (hw₀.sub rfl) | split

theorem execPlatformReset_keeps
    (hw₀ : Has 0x1ffffffffffffffffffffffffffffffffffffffffffffffffffffffffffffffffffffffffffffffffffffffffffffffffffffffffffffffffffffffffffffff0e76dfffff9e w₀)
    {s : State} (h₀ : Keeps w₀ s₀ s) :
    ∀ t₁, execPlatformReset s = .next t₁ → Keeps w₀ s₀ t₁ := by
  unfold execPlatformReset
  intro t₁ ht
  cases ht
  repeat' with_reducible first
    | assumption | apply platformReset_keeps (hw₀.sub rfl)

theorem railResetTrip_keeps
    (hw₀ : Has 0x1ffffffffffffffffffffffffffffffffffffffffffffffffffffffffffffffffffffffffffffffffffffffffffffffffffffffffffffffffffffffffffffff0e7fffffffde w₀)
    (r mv : Nat) {s : State} (h₀ : Keeps w₀ s₀ s) :
    Keeps w₀ s₀ (railResetTrip r mv s) := by
  unfold railResetTrip
  repeat' with_reducible first
    | assumption | apply coldReset_keeps (hw₀.sub rfl) | apply faultReaction_keeps (hw₀.sub rfl) | split

theorem execRailResetTrip_keeps
    (hw₀ : Has 0x1ffffffffffffffffffffffffffffffffffffffffffffffffffffffffffffffffffffffffffffffffffffffffffffffffffffffffffffffffffffffffffffff0e7fffffffde w₀)
    (r mv : Nat) {s : State} (h₀ : Keeps w₀ s₀ s) :
    ∀ t₁, execRailResetTrip r mv s = .next t₁ → Keeps w₀ s₀ t₁ := by
  unfold execRailResetTrip
  intro t₁ ht
  cases ht
  repeat' with_reducible first
    | assumption | apply railResetTrip_keeps (hw₀.sub rfl)

theorem faultResetRelease_keeps
    (hw₀ : Has 0x1ffffffffffffffffffffffffffffffffffffffffffffffffffffffffffffffffffffffffffffffffffffffffffffffffffffffffffffffffffffffffffffff0e77ffffffde w₀)
    {s : State} (h₀ : Keeps w₀ s₀ s) :
    Keeps w₀ s₀ (faultResetRelease s) := by
  unfold faultResetRelease
  repeat' with_reducible first
    | assumption | apply coldNow_keeps (hw₀.sub rfl) | apply platformNow_keeps (hw₀.sub rfl) | split
    | apply keeps_brk (hw₀.sub rfl)

theorem execFaultResetRelease_keeps
    (hw₀ : Has 0x1ffffffffffffffffffffffffffffffffffffffffffffffffffffffffffffffffffffffffffffffffffffffffffffffffffffffffffffffffffffffffffffff0e77ffffffde w₀)
    {s : State} (h₀ : Keeps w₀ s₀ s) :
    ∀ t₁, execFaultResetRelease s = .next t₁ → Keeps w₀ s₀ t₁ := by
  unfold execFaultResetRelease
  intro t₁ ht
  cases ht
  repeat' with_reducible first
    | assumption | apply faultResetRelease_keeps (hw₀.sub rfl)

theorem perstRelease_keeps
    (hw₀ : Has 0x100000000000000000000000000000000000000000000000000000000000000000000000000000000000000000000000000000000000000000000000001800000000 w₀)
    {s : State} (h₀ : Keeps w₀ s₀ s) :
    Keeps w₀ s₀ (perstRelease s) := by
  unfold perstRelease
  repeat' with_reducible first
    | assumption | refine setF_keeps (hw₀.sub rfl) _ _ _ reg_BOOT_STAT_STATE ?_ | split
    | apply keeps_faultN_inReset (hw₀.sub rfl)

theorem execPerstRelease_keeps
    (hw₀ : Has 0x100000000000000000000000000000000000000000000000000000000000000000000000000000000000000000000000000000000000000000000000001800000000 w₀)
    {s : State} (h₀ : Keeps w₀ s₀ s) :
    ∀ t₁, execPerstRelease s = .next t₁ → Keeps w₀ s₀ t₁ := by
  unfold execPerstRelease
  intro t₁ ht
  cases ht
  repeat' with_reducible first
    | assumption | apply perstRelease_keeps (hw₀.sub rfl)

theorem coldResetRelease_keeps
    (hw₀ : Has 0x100000000000000000000000000000000000000000000000000000000000000000000000000000000000000000000000000000000000000000000000019800000000 w₀)
    (ms pos gaddr : Nat) {s : State} (h₀ : Keeps w₀ s₀ s) :
    Keeps w₀ s₀ (coldResetRelease ms pos gaddr s) := by
  unfold coldResetRelease
  repeat' with_reducible first
    | assumption | refine setF_keeps (hw₀.sub rfl) _ _ _ reg_BOOT_STAT_STATE ?_ | split
    | apply keeps_faultN_inReset_strapPos_strapGaddr (hw₀.sub rfl)

theorem execColdResetRelease_keeps
    (hw₀ : Has 0x100000000000000000000000000000000000000000000000000000000000000000000000000000000000000000000000000000000000000000000000019800000000 w₀)
    (ms pos gaddr : Nat) {s : State} (h₀ : Keeps w₀ s₀ s) :
    ∀ t₁, execColdResetRelease ms pos gaddr s = .next t₁ → Keeps w₀ s₀ t₁ := by
  unfold execColdResetRelease
  intro t₁ ht
  cases ht
  repeat' with_reducible first
    | assumption | apply coldResetRelease_keeps (hw₀.sub rfl)

theorem ctxLost_keeps
    (hw₀ : Has 0x20000000000000000000000000000000000000000000401004000000040040000000800000640000000000000001e90080018bbfe0c w₀)
    (c : Nat) {s : State} (h₀ : Keeps w₀ s₀ s) :
    Keeps w₀ s₀ (ctxLost c s) := by
  unfold ctxLost
  repeat' with_reducible first
    | assumption | apply setCtxEvt_keeps (hw₀.sub rfl) | apply dropWindow_keeps (hw₀.sub rfl)
    | apply dropFrames_keeps (hw₀.sub rfl) | apply jwideDrop_keeps (hw₀.sub rfl) | apply dropWork_keeps (hw₀.sub rfl)
    | apply abandonCtx_keeps (hw₀.sub rfl) | apply dropOut_keeps (hw₀.sub rfl) | split | apply keeps_cul (hw₀.sub rfl)
    | apply keeps_degClear_ctxs_reports (hw₀.sub rfl)

theorem ctxsLost_keeps
    (hw₀ : Has 0x20000000000000000000000000000000000000000000401004000000040040000000800000640000000000000001e90080018bbfe0c w₀)
    (x1 : Nat) {x2 : State} (h₀ : Keeps w₀ s₀ x2) :
    Keeps w₀ s₀ (ctxsLost x1 x2) := by
  revert h₀
  fun_induction ctxsLost x1 x2 <;> intro h₀
  all_goals repeat' with_reducible first
    | apply ctxLost_keeps (hw₀.sub rfl) | apply_assumption -exfalso

theorem linkReset_keeps
    (hw₀ : Has 0x1ffffffffffffffffffffffffffffffffffffffffffffffffffffffffffffffffffffffffffffffffffffffffffffffffffffffffffffffffffffffffffffff0e0018bbfe0e w₀)
    {s : State} (h₀ : Keeps w₀ s₀ s) :
    Keeps w₀ s₀ (linkReset s) := by
  unfold linkReset
  repeat' with_reducible first
    | assumption | apply restoreFlds_keeps (hw₀.sub rfl) | apply ctxsLost_keeps (hw₀.sub rfl) | split
    | apply keeps_hiLatch_vfEnable_numVfs (hw₀.sub rfl)

theorem execLinkReset_keeps
    (hw₀ : Has 0x1ffffffffffffffffffffffffffffffffffffffffffffffffffffffffffffffffffffffffffffffffffffffffffffffffffffffffffffffffffffffffffffff0e0018bbfe0e w₀)
    {s : State} (h₀ : Keeps w₀ s₀ s) :
    ∀ t₁, execLinkReset s = .next t₁ → Keeps w₀ s₀ t₁ := by
  unfold execLinkReset
  intro t₁ ht
  cases ht
  repeat' with_reducible first
    | assumption | apply linkReset_keeps (hw₀.sub rfl)

theorem ctxFlr_keeps
    (hw₀ : Has 0x1ffffffffffffffffffffffffffffffffffffffffffffffffffffffffffffffffffffffffffffffffffffffffffffffffffffffffffffffffffffffffffffff080018bbfe2c w₀)
    (c : Nat) {s : State} (h₀ : Keeps w₀ s₀ s) :
    Keeps w₀ s₀ (ctxFlr c s) := by
  unfold ctxFlr
  repeat' with_reducible first
    | assumption | apply restoreFlds_keeps (hw₀.sub rfl) | apply ctxLost_keeps (hw₀.sub rfl)
    | apply ctxResetX_keeps (hw₀.sub rfl)

theorem ctxsFlr_keeps
    (hw₀ : Has 0x1ffffffffffffffffffffffffffffffffffffffffffffffffffffffffffffffffffffffffffffffffffffffffffffffffffffffffffffffffffffffffffffff080018bbfe2c w₀)
    (x1 : Nat) {x2 : State} (h₀ : Keeps w₀ s₀ x2) :
    Keeps w₀ s₀ (ctxsFlr x1 x2) := by
  revert h₀
  fun_induction ctxsFlr x1 x2 <;> intro h₀
  all_goals repeat' with_reducible first
    | apply ctxFlr_keeps (hw₀.sub rfl) | apply_assumption -exfalso

theorem functionLevelReset_keeps
    (hw₀ : Has 0x1ffffffffffffffffffffffffffffffffffffffffffffffffffffffffffffffffffffffffffffffffffffffffffffffffffffffffffffffffffffffffffffff0e0018bbfe2c w₀)
    (fn : Nat) {s : State} (h₀ : Keeps w₀ s₀ s) :
    Keeps w₀ s₀ (functionLevelReset fn s) := by
  unfold functionLevelReset
  repeat' with_reducible first
    | assumption | refine setEvt_keeps (p := 11) (hw₀.sub rfl) (hw₀.sub rfl) _ _ (by with_unfolding_all rfl) reg_pendFld11 ?_
    | apply ctxsFlr_keeps (hw₀.sub rfl) | apply ctxFlr_keeps (hw₀.sub rfl) | split
    | apply keeps_vfEnable_numVfs (hw₀.sub rfl)

theorem execFunctionLevelReset_keeps
    (hw₀ : Has 0x1ffffffffffffffffffffffffffffffffffffffffffffffffffffffffffffffffffffffffffffffffffffffffffffffffffffffffffffffffffffffffffffff0e0018bbfe2c w₀)
    (fn : Nat) {s : State} (h₀ : Keeps w₀ s₀ s) :
    ∀ t₁, execFunctionLevelReset fn s = .next t₁ → Keeps w₀ s₀ t₁ := by
  unfold execFunctionLevelReset
  intro t₁ ht
  cases ht
  repeat' with_reducible first
    | assumption | apply functionLevelReset_keeps (hw₀.sub rfl)

theorem vfEnableSet_keeps (hw₀ : Has 0x60000000000 w₀) (en : Bool) (n : Nat) {s : State} (h₀ : Keeps w₀ s₀ s) :
    Keeps w₀ s₀ (vfEnableSet en n s) := by
  unfold vfEnableSet
  repeat' with_reducible first
    | assumption | split | apply keeps_vfEnable_numVfs (hw₀.sub rfl)

theorem execVfEnable_keeps (hw₀ : Has 0x60000000000 w₀) (en : Bool) (n : Nat) {s : State} (h₀ : Keeps w₀ s₀ s) :
    ∀ t₁, execVfEnable en n s = .next t₁ → Keeps w₀ s₀ t₁ := by
  unfold execVfEnable
  intro t₁ ht
  cases ht
  repeat' with_reducible first
    | assumption | apply outOfReset_keeps | apply vfEnableSet_keeps (hw₀.sub rfl)

theorem aerError_keeps
    (hw₀ : Has 0x40000000000000000000000000000000000000000000000000000000000000000000000000000000000000000000000080000000000 w₀)
    {s : State} (h₀ : Keeps w₀ s₀ s) :
    Keeps w₀ s₀ (aerError s) := by
  unfold aerError
  repeat' with_reducible first
    | assumption | refine setEvt_keeps (p := 11) (hw₀.sub rfl) (hw₀.sub rfl) _ _ (by with_unfolding_all rfl) reg_pendFld11 ?_

theorem execAerError_keeps
    (hw₀ : Has 0x40000000000000000000000000000000000000000000000000000000000000000000000000000000000000000000000080000000000 w₀)
    {s : State} (h₀ : Keeps w₀ s₀ s) :
    ∀ t₁, execAerError s = .next t₁ → Keeps w₀ s₀ t₁ := by
  unfold execAerError
  intro t₁ ht
  cases ht
  repeat' with_reducible first
    | assumption | apply outOfReset_keeps | apply aerError_keeps (hw₀.sub rfl)

end Sys2Proof.Machine
end

