-- ==== Sys2Proof/Laws/KeepsGauge.lean ====
section
/-! SUPPORT. What the functions of Machine/Gauge.lean may change. -/

namespace Sys2Proof.Machine

set_option exponentiation.threshold 600

variable {w₀ : Nat} {s₀ : State}

theorem modGauge_keeps (hw₀ : Has 0x4000000000 w₀) (f : GaugeRun → GaugeRun) {s : State} (h₀ : Keeps w₀ s₀ s) :
    Keeps w₀ s₀ (modGauge f s) := by
  unfold modGauge
  repeat' with_reducible first
    | assumption | apply keeps_gauge (hw₀.sub rfl)

theorem gaugeSample_keeps (hw₀ : Has 0x4000000000 w₀) (ch mv ma n : Nat) {s : State} (h₀ : Keeps w₀ s₀ s) :
    Keeps w₀ s₀ (gaugeSample ch mv ma n s) := by
  unfold gaugeSample
  repeat' with_reducible first
    | assumption | apply modGauge_keeps (hw₀.sub rfl) | split

theorem execGaugeSample_keeps (hw₀ : Has 0x4000000000 w₀) (ch mv ma n : Nat) {s : State} (h₀ : Keeps w₀ s₀ s) :
    ∀ t₁, execGaugeSample ch mv ma n s = .next t₁ → Keeps w₀ s₀ t₁ := by
  unfold execGaugeSample
  intro t₁ ht
  cases ht
  repeat' with_reducible first
    | assumption | apply gaugeSample_keeps (hw₀.sub rfl)

theorem gaugePowerSecond_keeps (hw₀ : Has 0x104000000000 w₀) {s : State} (h₀ : Keeps w₀ s₀ s) :
    Keeps w₀ s₀ (gaugePowerSecond s) := by
  unfold gaugePowerSecond
  repeat' with_reducible first
    | assumption | apply keeps_ite | apply modGauge_keeps (hw₀.sub rfl) | apply freshWord_keeps (hw₀.sub rfl) | split

theorem execGaugePowerSecond_keeps (hw₀ : Has 0x104000000000 w₀) {s : State} (h₀ : Keeps w₀ s₀ s) :
    ∀ t₁, execGaugePowerSecond s = .next t₁ → Keeps w₀ s₀ t₁ := by
  unfold execGaugePowerSecond
  intro t₁ ht
  cases ht
  repeat' with_reducible first
    | assumption | apply gaugePowerSecond_keeps (hw₀.sub rfl)

theorem tallySend_keeps (hw₀ : Has 0x4000004000 w₀) (cl : Nat) {s : State} (h₀ : Keeps w₀ s₀ s) :
    Keeps w₀ s₀ (tallySend cl s) := by
  unfold tallySend
  repeat' with_reducible first
    | assumption | apply tallyFlush_keeps (hw₀.sub rfl)

theorem execTallySend_keeps (hw₀ : Has 0x4000004000 w₀) (cl : Nat) {s : State} (h₀ : Keeps w₀ s₀ s) :
    ∀ t₁, execTallySend cl s = .next t₁ → Keeps w₀ s₀ t₁ := by
  unfold execTallySend
  intro t₁ ht
  cases ht
  repeat' with_reducible first
    | assumption | apply runningIn_keeps | apply tallySend_keeps (hw₀.sub rfl)

theorem tallyFrame_keeps (hw₀ : Has 0x4000000000 w₀) (bad : Bool) (alt : Flips) {s : State} (h₀ : Keeps w₀ s₀ s) :
    Keeps w₀ s₀ (tallyFrame bad alt s) := by
  unfold tallyFrame
  repeat' with_reducible first
    | assumption | apply modGauge_keeps (hw₀.sub rfl) | split | apply keeps_gauge (hw₀.sub rfl)

theorem execTallyFrame_keeps (hw₀ : Has 0x4000000000 w₀) (bad : Bool) (alt : Flips) {s : State} (h₀ : Keeps w₀ s₀ s) :
    ∀ t₁, execTallyFrame bad alt s = .next t₁ → Keeps w₀ s₀ t₁ := by
  unfold execTallyFrame
  intro t₁ ht
  cases ht
  repeat' with_reducible first
    | assumption | apply tallyFrame_keeps (hw₀.sub rfl)

theorem closeInterval_keeps (hw₀ : Has 0x4000000000 w₀) (short : Bool) (g : GaugeRun) {s : State} (h₀ : Keeps w₀ s₀ s) :
    Keeps w₀ s₀ (closeInterval short g s) := by
  unfold closeInterval
  repeat' with_reducible first
    | assumption | apply modGauge_keeps (hw₀.sub rfl)

theorem intervalEnd_keeps (hw₀ : Has 0x4000000000 w₀) {s : State} (h₀ : Keeps w₀ s₀ s) :
    Keeps w₀ s₀ (intervalEnd s) := by
  unfold intervalEnd
  repeat' with_reducible first
    | assumption | apply closeInterval_keeps (hw₀.sub rfl) | split

theorem execIntervalEnd_keeps (hw₀ : Has 0x4000000000 w₀) {s : State} (h₀ : Keeps w₀ s₀ s) :
    ∀ t₁, execIntervalEnd s = .next t₁ → Keeps w₀ s₀ t₁ := by
  unfold execIntervalEnd
  intro t₁ ht
  cases ht
  repeat' with_reducible first
    | assumption | apply intervalEnd_keeps (hw₀.sub rfl)

theorem gaugeRecordSigned_keeps (hw₀ : Has 0x104000000000 w₀) {s : State} (h₀ : Keeps w₀ s₀ s) :
    Keeps w₀ s₀ (gaugeRecordSigned s) := by
  unfold gaugeRecordSigned
  repeat' with_reducible first
    | assumption | apply nextFree_keeps (hw₀.sub rfl) | apply modGauge_keeps (hw₀.sub rfl) | split

theorem execGaugeRecordSigned_keeps (hw₀ : Has 0x104000000000 w₀) {s : State} (h₀ : Keeps w₀ s₀ s) :
    ∀ t₁, execGaugeRecordSigned s = .next t₁ → Keeps w₀ s₀ t₁ := by
  unfold execGaugeRecordSigned
  intro t₁ ht
  cases ht
  repeat' with_reducible first
    | assumption | apply gaugeRecordSigned_keeps (hw₀.sub rfl)

theorem gaugePowerUp_keeps (hw₀ : Has 0x4000000000 w₀) {s : State} (h₀ : Keeps w₀ s₀ s) :
    Keeps w₀ s₀ (gaugePowerUp s) := by
  unfold gaugePowerUp
  repeat' with_reducible first
    | assumption | split | apply keeps_gauge (hw₀.sub rfl)

theorem execGaugePowerUp_keeps (hw₀ : Has 0x4000000000 w₀) {s : State} (h₀ : Keeps w₀ s₀ s) :
    ∀ t₁, execGaugePowerUp s = .next t₁ → Keeps w₀ s₀ t₁ := by
  unfold execGaugePowerUp
  intro t₁ ht
  cases ht
  repeat' with_reducible first
    | assumption | apply gaugePowerUp_keeps (hw₀.sub rfl)

theorem gaugeSupplyLoss_keeps (hw₀ : Has 0x4000000000 w₀) {s : State} (h₀ : Keeps w₀ s₀ s) :
    Keeps w₀ s₀ (gaugeSupplyLoss s) := by
  unfold gaugeSupplyLoss
  repeat' with_reducible first
    | assumption | apply keeps_gauge (hw₀.sub rfl)

theorem execGaugeSupplyLoss_keeps (hw₀ : Has 0x4000000000 w₀) {s : State} (h₀ : Keeps w₀ s₀ s) :
    ∀ t₁, execGaugeSupplyLoss s = .next t₁ → Keeps w₀ s₀ t₁ := by
  unfold execGaugeSupplyLoss
  intro t₁ ht
  cases ht
  repeat' with_reducible first
    | assumption | apply gaugeSupplyLoss_keeps (hw₀.sub rfl)

theorem gaugeRead_keeps (hw₀ : Has 0x80000000000 w₀) (f : GaugeRun → List Byte) {s : State} (h₀ : Keeps w₀ s₀ s) :
    Keeps w₀ s₀ (gaugeRead f s) := by
  unfold gaugeRead
  repeat' with_reducible first
    | assumption | apply emit_keeps (hw₀.sub rfl) | split

theorem status_keeps (hw₀ : Has 0x80000000000 w₀) {s : State} (h₀ : Keeps w₀ s₀ s) :
    Keeps w₀ s₀ (status s) := by
  unfold status
  repeat' with_reducible first
    | assumption | apply gaugeRead_keeps (hw₀.sub rfl)

theorem execStatus_keeps (hw₀ : Has 0x80000000000 w₀) {s : State} (h₀ : Keeps w₀ s₀ s) :
    ∀ t₁, execStatus s = .next t₁ → Keeps w₀ s₀ t₁ := by
  unfold execStatus
  intro t₁ ht
  cases ht
  repeat' with_reducible first
    | assumption | apply status_keeps (hw₀.sub rfl)

theorem intervalW_keeps (hw₀ : Has 0x4000000000 w₀) (v : Nat) {s : State} (h₀ : Keeps w₀ s₀ s) :
    Keeps w₀ s₀ (intervalW v s) := by
  unfold intervalW
  repeat' with_reducible first
    | assumption | apply modGauge_keeps (hw₀.sub rfl) | split

theorem execIntervalW_keeps (hw₀ : Has 0x4000000000 w₀) (v : Nat) {s : State} (h₀ : Keeps w₀ s₀ s) :
    ∀ t₁, execIntervalW v s = .next t₁ → Keeps w₀ s₀ t₁ := by
  unfold execIntervalW
  intro t₁ ht
  cases ht
  repeat' with_reducible first
    | assumption | apply intervalW_keeps (hw₀.sub rfl)

theorem intervalR_keeps (hw₀ : Has 0x80000000000 w₀) {s : State} (h₀ : Keeps w₀ s₀ s) :
    Keeps w₀ s₀ (intervalR s) := by
  unfold intervalR
  repeat' with_reducible first
    | assumption | apply gaugeRead_keeps (hw₀.sub rfl)

theorem execIntervalR_keeps (hw₀ : Has 0x80000000000 w₀) {s : State} (h₀ : Keeps w₀ s₀ s) :
    ∀ t₁, execIntervalR s = .next t₁ → Keeps w₀ s₀ t₁ := by
  unfold execIntervalR
  intro t₁ ht
  cases ht
  repeat' with_reducible first
    | assumption | apply intervalR_keeps (hw₀.sub rfl)

theorem recSelect_keeps (hw₀ : Has 0x4000000000 w₀) (n : Nat) {s : State} (h₀ : Keeps w₀ s₀ s) :
    Keeps w₀ s₀ (recSelect n s) := by
  unfold recSelect
  repeat' with_reducible first
    | assumption | apply modGauge_keeps (hw₀.sub rfl) | split

theorem execRecSelect_keeps (hw₀ : Has 0x4000000000 w₀) (n : Nat) {s : State} (h₀ : Keeps w₀ s₀ s) :
    ∀ t₁, execRecSelect n s = .next t₁ → Keeps w₀ s₀ t₁ := by
  unfold execRecSelect
  intro t₁ ht
  cases ht
  repeat' with_reducible first
    | assumption | apply recSelect_keeps (hw₀.sub rfl)

theorem recRead_keeps (hw₀ : Has 0x84000000000 w₀) {s : State} (h₀ : Keeps w₀ s₀ s) :
    Keeps w₀ s₀ (recRead s) := by
  unfold recRead
  repeat' with_reducible first
    | assumption | apply emit_keeps (hw₀.sub rfl) | apply modGauge_keeps (hw₀.sub rfl) | split

theorem execRecRead_keeps (hw₀ : Has 0x84000000000 w₀) {s : State} (h₀ : Keeps w₀ s₀ s) :
    ∀ t₁, execRecRead s = .next t₁ → Keeps w₀ s₀ t₁ := by
  unfold execRecRead
  intro t₁ ht
  cases ht
  repeat' with_reducible first
    | assumption | apply recRead_keeps (hw₀.sub rfl)

theorem resumeLoad_keeps (hw₀ : Has 0x4000000000 w₀) (bs : List Byte) {s : State} (h₀ : Keeps w₀ s₀ s) :
    Keeps w₀ s₀ (resumeLoad bs s) := by
  unfold resumeLoad
  repeat' with_reducible first
    | assumption | apply modGauge_keeps (hw₀.sub rfl) | split

theorem execResumeLoad_keeps (hw₀ : Has 0x4000000000 w₀) (bs : List Byte) {s : State} (h₀ : Keeps w₀ s₀ s) :
    ∀ t₁, execResumeLoad bs s = .next t₁ → Keeps w₀ s₀ t₁ := by
  unfold execResumeLoad
  intro t₁ ht
  cases ht
  repeat' with_reducible first
    | assumption | apply resumeLoad_keeps (hw₀.sub rfl)

theorem resumeGo_keeps (hw₀ : Has 0x4000000000 w₀) (key : Nat) {s : State} (h₀ : Keeps w₀ s₀ s) :
    Keeps w₀ s₀ (resumeGo key s) := by
  unfold resumeGo
  repeat' with_reducible first
    | assumption | apply modGauge_keeps (hw₀.sub rfl) | split

theorem execResumeGo_keeps (hw₀ : Has 0x4000000000 w₀) (key : Nat) {s : State} (h₀ : Keeps w₀ s₀ s) :
    ∀ t₁, execResumeGo key s = .next t₁ → Keeps w₀ s₀ t₁ := by
  unfold execResumeGo
  intro t₁ ht
  cases ht
  repeat' with_reducible first
    | assumption | apply resumeGo_keeps (hw₀.sub rfl)

theorem closeNow_keeps (hw₀ : Has 0x4000000000 w₀) (key : Nat) {s : State} (h₀ : Keeps w₀ s₀ s) :
    Keeps w₀ s₀ (closeNow key s) := by
  unfold closeNow
  repeat' with_reducible first
    | assumption | apply closeInterval_keeps (hw₀.sub rfl) | split

theorem execCloseNow_keeps (hw₀ : Has 0x4000000000 w₀) (key : Nat) {s : State} (h₀ : Keeps w₀ s₀ s) :
    ∀ t₁, execCloseNow key s = .next t₁ → Keeps w₀ s₀ t₁ := by
  unfold execCloseNow
  intro t₁ ht
  cases ht
  repeat' with_reducible first
    | assumption | apply closeNow_keeps (hw₀.sub rfl)

theorem identRead_keeps (hw₀ : Has 0x84000000000 w₀) {s : State} (h₀ : Keeps w₀ s₀ s) :
    Keeps w₀ s₀ (identRead s) := by
  unfold identRead
  repeat' with_reducible first
    | assumption | apply emit_keeps (hw₀.sub rfl) | apply modGauge_keeps (hw₀.sub rfl) | split

theorem execIdentRead_keeps (hw₀ : Has 0x84000000000 w₀) {s : State} (h₀ : Keeps w₀ s₀ s) :
    ∀ t₁, execIdentRead s = .next t₁ → Keeps w₀ s₀ t₁ := by
  unfold execIdentRead
  intro t₁ ht
  cases ht
  repeat' with_reducible first
    | assumption | apply identRead_keeps (hw₀.sub rfl)

theorem statusResume_keeps (hw₀ : Has 0x80000000000 w₀) {s : State} (h₀ : Keeps w₀ s₀ s) :
    Keeps w₀ s₀ (statusResume s) := by
  unfold statusResume
  repeat' with_reducible first
    | assumption | apply gaugeRead_keeps (hw₀.sub rfl)

theorem execStatusResume_keeps (hw₀ : Has 0x80000000000 w₀) {s : State} (h₀ : Keeps w₀ s₀ s) :
    ∀ t₁, execStatusResume s = .next t₁ → Keeps w₀ s₀ t₁ := by
  unfold execStatusResume
  intro t₁ ht
  cases ht
  repeat' with_reducible first
    | assumption | apply statusResume_keeps (hw₀.sub rfl)

end Sys2Proof.Machine
end

