-- ==== Sys2Proof/Laws/KeepsDebug.lean ====
section
/-! SUPPORT. What the functions of Machine/Debug.lean may change. -/

namespace Sys2Proof.Machine

set_option exponentiation.threshold 600

variable {w₀ : Nat} {s₀ : State}

theorem freshChal_keeps
    (hw₀ : Has 0x80000000000000000000000000000000000000000000000000000000000000000000000000000000000000000000000000000000000000000000000000000100000000000 w₀)
    (x1 : Nat) {x2 : State} (h₀ : Keeps w₀ s₀ x2) :
    Keeps w₀ s₀ (freshChal x1 x2) := by
  revert h₀
  fun_induction freshChal x1 x2 <;> intro h₀
  all_goals repeat' with_reducible first
    | apply freshWord_keeps (hw₀.sub rfl) | refine setFk_keeps (hw₀.sub rfl) _ _ _ _ reg_DEBUG_CHAL ?_
    | apply_assumption -exfalso | refine keeps_snd (by assumption) ?_

theorem challenge_keeps
    (hw₀ : Has 0x1080200040110000080100000400000200000000400000800000040000000100000000000002000000100080200000000020000000010000000001000000000102000000000 w₀)
    (r : Requester) (a v : Nat) {s : State} (h₀ : Keeps w₀ s₀ s) :
    Keeps w₀ s₀ (challenge r a v s) := by
  unfold challenge
  repeat' with_reducible first
    | assumption | intro _ | apply guarded_keeps (hw₀.sub rfl) | apply freshChal_keeps (hw₀.sub rfl) | split
    | apply keeps_dbg (hw₀.sub rfl)

theorem execChallenge_keeps
    (hw₀ : Has 0x1080200040110000080100000400000200000000400000800000040000000100000000000002000000100080200000000020000000010000000001000000000102000000000 w₀)
    (r : Requester) (a v : Nat) {s : State} (h₀ : Keeps w₀ s₀ s) :
    ∀ t₁, execChallenge r a v s = .next t₁ → Keeps w₀ s₀ t₁ := by
  unfold execChallenge
  intro t₁ ht
  cases ht
  repeat' with_reducible first
    | assumption | apply challenge_keeps (hw₀.sub rfl)

theorem unlockGo_keeps
    (hw₀ : Has 0x1008200040110000080100000400000200000000400000800000040000000100000000000002000000100080200000000020000000010000000001000000000002000000000 w₀)
    (r : Requester) (a v : Nat) {s : State} (h₀ : Keeps w₀ s₀ s) :
    Keeps w₀ s₀ (unlockGo r a v s) := by
  unfold unlockGo
  repeat' with_reducible first
    | assumption | intro _ | apply guarded_keeps (hw₀.sub rfl) | refine setF_keeps (hw₀.sub rfl) _ _ _ reg_DEBUG_STAT_BUSY ?_
    | split | apply keeps_dbg (hw₀.sub rfl)

theorem execUnlockGo_keeps
    (hw₀ : Has 0x1008200040110000080100000400000200000000400000800000040000000100000000000002000000100080200000000020000000010000000001000000000002000000000 w₀)
    (r : Requester) (a v : Nat) {s : State} (h₀ : Keeps w₀ s₀ s) :
    ∀ t₁, execUnlockGo r a v s = .next t₁ → Keeps w₀ s₀ t₁ := by
  unfold execUnlockGo
  intro t₁ ht
  cases ht
  repeat' with_reducible first
    | assumption | apply unlockGo_keeps (hw₀.sub rfl)

theorem tokenCheck_keeps (hw₀ : Has 0x4c048fc4000000000000000000000000000000080000800100 w₀) {s : State}
    (h₀ : Keeps w₀ s₀ s) :
    Keeps w₀ s₀ (tokenCheck s).2 := by
  unfold tokenCheck
  repeat' with_reducible first
    | assumption | apply engRead_keeps (hw₀.sub rfl) | split | refine keeps_snd (by assumption) ?_

theorem unlockEnd_keeps
    (hw₀ : Has 0x27e000000000000000000000000000000000000000000000000000000000000000000000000000000000000000000000000000000000000000000000000000082000000000 w₀)
    (res : Nat) {s : State} (h₀ : Keeps w₀ s₀ s) :
    Keeps w₀ s₀ (unlockEnd res s) := by
  unfold unlockEnd
  repeat' with_reducible first
    | assumption | refine setF_keeps (hw₀.sub rfl) _ _ _ reg_DEBUG_STAT_RESULT ?_
    | refine setF_keeps (hw₀.sub rfl) _ _ _ reg_DEBUG_STAT_BUSY ?_
    | refine setEvt_keeps (p := 19) (hw₀.sub rfl) (hw₀.sub rfl) _ _ (by with_unfolding_all rfl) reg_pendFld19 ?_
    | refine incr_keeps (hw₀.sub rfl) _ _ reg_DEBUG_UNLOCK_CNT ?_
    | refine setF_keeps (hw₀.sub rfl) _ _ _ reg_DEBUG_STAT_EVER ?_
    | refine setF_keeps (hw₀.sub rfl) _ _ _ reg_DEBUG_STAT_UNLOCKED ?_
    | refine incr_keeps (hw₀.sub rfl) _ _ reg_DEBUG_FAIL_CNT ?_ | split | apply keeps_dbg (hw₀.sub rfl)

theorem unlockCheckDone_keeps
    (hw₀ : Has 0x27e00000000000000000000000000000000000000000000000000000000000000000000000000000000000004c048fc4000000000000000000000000000000082000800100 w₀)
    {s : State} (h₀ : Keeps w₀ s₀ s) :
    Keeps w₀ s₀ (unlockCheckDone s) := by
  unfold unlockCheckDone
  repeat' with_reducible first
    | assumption | apply tokenCheck_keeps (hw₀.sub rfl) | apply unlockEnd_keeps (hw₀.sub rfl) | split

theorem execUnlockCheckDone_keeps
    (hw₀ : Has 0x27e00000000000000000000000000000000000000000000000000000000000000000000000000000000000004c048fc4000000000000000000000000000000082000800100 w₀)
    {s : State} (h₀ : Keeps w₀ s₀ s) :
    ∀ t₁, execUnlockCheckDone s = .next t₁ → Keeps w₀ s₀ t₁ := by
  unfold execUnlockCheckDone
  intro t₁ ht
  cases ht
  repeat' with_reducible first
    | assumption | apply pairsUp_keeps | apply unlockCheckDone_keeps (hw₀.sub rfl)

theorem relock_keeps
    (hw₀ : Has 0x1002200040110000080100000400000200000000400000800000040000000100000000000002000000100080200000000020000000010000000001000000000000000000000 w₀)
    (r : Requester) (a v : Nat) {s : State} (h₀ : Keeps w₀ s₀ s) :
    Keeps w₀ s₀ (relock r a v s) := by
  unfold relock
  repeat' with_reducible first
    | assumption | intro _ | apply guarded_keeps (hw₀.sub rfl)
    | refine setF_keeps (hw₀.sub rfl) _ _ _ reg_DEBUG_STAT_UNLOCKED ?_ | split

theorem execRelock_keeps
    (hw₀ : Has 0x1002200040110000080100000400000200000000400000800000040000000100000000000002000000100080200000000020000000010000000001000000000000000000000 w₀)
    (r : Requester) (a v : Nat) {s : State} (h₀ : Keeps w₀ s₀ s) :
    ∀ t₁, execRelock r a v s = .next t₁ → Keeps w₀ s₀ t₁ := by
  unfold execRelock
  intro t₁ ht
  cases ht
  repeat' with_reducible first
    | assumption | apply relock_keeps (hw₀.sub rfl)

end Sys2Proof.Machine
end

