-- ==== Sys2Proof/Laws/KeepsRegWrite.lean ====
section
/-! SUPPORT. What the functions of Machine/RegWrite.lean may change. -/

namespace Sys2Proof.Machine

set_option exponentiation.threshold 600

variable {w₀ : Nat} {s₀ : State}

theorem writeFollow_keeps
    (hw₀ : Has 0x10004c00000000000000000000000000000000000000000000000000000000000000000000000000000000000000000000100080000100020 w₀)
    (t i o : Nat) {s : State} (h₀ : Keeps w₀ s₀ s) :
    Keeps w₀ s₀ (writeFollow t i o s) := by
  unfold writeFollow
  repeat' with_reducible first
    | assumption | apply keeps_ite | apply cqDrain_keeps (hw₀.sub rfl) | apply modCtx_keeps (hw₀.sub rfl)
    | refine setF_keeps (hw₀.sub rfl) _ _ _ reg_TUNIT_STAT_LEND ?_

theorem writeBefore_keeps (hw₀ : Has 0x400 w₀) (v t i o : Nat) {s : State} (h₀ : Keeps w₀ s₀ s) :
    Keeps w₀ s₀ (writeBefore v t i o s) := by
  unfold writeBefore
  try dsimp -proj only
  repeat' with_reducible first
    | assumption | apply keepUrgent_keeps (hw₀.sub rfl) | split

theorem regStore_keeps
    (hw₀ : Has 0x1ffffffffffffffffffffffffffffffffffffffffffffffffffffffffffffffffffffffffffffffffffffffffffffffffffffffffffffffffffffffffffffff080000100420 w₀)
    (v t i o : Nat) {s : State} (h₀ : Keeps w₀ s₀ s) :
    Keeps w₀ s₀ (regStore v t i o s) := by
  unfold regStore
  repeat' with_reducible first
    | assumption | apply writeFollow_keeps (hw₀.sub rfl) | apply writeWord_keeps (hw₀.sub rfl)
    | apply writeBefore_keeps (hw₀.sub rfl) | split

theorem write32_keeps
    (hw₀ : Has 0x1ffffffffffffffffffffffffffffffffffffffffffffffffffffffffffffffffffffffffffffffffffffffffffffffffffffffffffffffffffffffffffffff080000100420 w₀)
    (r : Requester) (a v : Nat) {s : State} (h₀ : Keeps w₀ s₀ s) :
    Keeps w₀ s₀ (write32 r a v s) := by
  unfold write32
  repeat' with_reducible first
    | assumption | apply guarded_keeps (hw₀.sub rfl) | apply regStore_keeps (hw₀.sub rfl) | split

theorem regWrite_keeps
    (hw₀ : Has 0x1ffffffffffffffffffffffffffffffffffffffffffffffffffffffffffffffffffffffffffffffffffffffffffffffffffffffffffffffffffffffffffffff080000100420 w₀)
    (r : Requester) (a v size : Nat) {s : State} (h₀ : Keeps w₀ s₀ s) :
    Keeps w₀ s₀ (regWrite r a v size s) := by
  unfold regWrite
  repeat' with_reducible first
    | assumption | apply write32_keeps (hw₀.sub rfl) | split

theorem execRegWrite_keeps
    (hw₀ : Has 0x1ffffffffffffffffffffffffffffffffffffffffffffffffffffffffffffffffffffffffffffffffffffffffffffffffffffffffffffffffffffffffffffff080000100420 w₀)
    (r : Requester) (a v size : Nat) {s : State} (h₀ : Keeps w₀ s₀ s) :
    ∀ t₁, execRegWrite r a v size s = .next t₁ → Keeps w₀ s₀ t₁ := by
  unfold execRegWrite
  intro t₁ ht
  cases ht
  repeat' with_reducible first
    | assumption | apply regWrite_keeps (hw₀.sub rfl)

end Sys2Proof.Machine
end

