-- ==== Sys2Proof/Laws/Extra.lean ====
section
/-! SUPPORT. More of what shared operations do: guards, switching domains off. -/

namespace Sys2Proof.Machine

theorem pairsUp_eq {s : State} (t : State) (h1 : s.inReset = none) (h2 : getF s PWR_STAT_STATE 0 ≠ 2) : pairsUp s t = t := by
  simp [pairsUp, h1, h2]

theorem pairRuns_eq {p : Nat} {s : State} (t : State) (h : s.brk.stopped.contains p = false) : pairRuns p s t = t := by
  unfold pairRuns; rw [h]; rfl

theorem getFk_loseFlds (n : Nat) (s : State) (g : Fld) (i k : Nat) (h : pageDomain g.page (i % 1024) ≠ n) :
    getFk (loseFlds n s) g i k = getFk s g i k := by
  unfold getFk Store.get loseFlds
  dsimp only
  rw [Store.find_filter_of_true]
  intro v
  have e1 : cellPage (fldKey g i k) = g.page := fldKey_page g i k
  have e2 : cellInst (fldKey g i k) = i % 1024 := fldKey_inst g i k
  simp [e1, e2, h]

theorem getFk_setDomStat {n : Nat} {on : Bool} {s : State} {g : Fld} (i k : Nat) (hg : fldIn g = true) (h : PWR_DOM_STAT ≠ g) :
    getFk (setDomStat n on s) g i k = getFk s g i k := getFk_setFk_fld (f := PWR_DOM_STAT) (by decide) hg h _ _

/-- Switching domains off leaves the registers of the always-on domain but DOM_STAT alone. -/
theorem getFk_domainsOff {g : Fld} {m : Nat} (hm : IsReg g m) (hg : pageDomain g.page 0 = 255) (hd : ∀ i, pageDomain g.page i = pageDomain g.page 0)
    (h : PWR_DOM_STAT ≠ g) (i k : Nat) : ∀ (l : List Nat) (s : State), (∀ n ∈ l, n < 255) → getFk (domainsOff l s) g i k = getFk s g i k
  | [], _, _ => rfl
  | n :: r, s, hl => by
    rw [domainsOff, getFk_domainsOff hm hg hd h i k r _ (fun x hx => hl x (List.mem_cons_of_mem _ hx))]
    have hn := hl n List.mem_cons_self
    unfold domainOff
    split
    · dsimp only
      rw [getFk_setDomStat i k (fldIn_iff.2 hm.1) h]
      have e : ∀ x, getFk (loseDomain n x) g i k = getFk x g i k := fun x => by
        unfold loseDomain
        repeat' split
        all_goals rfl
      rw [e, getFk_loseFlds _ _ _ _ _ (by rw [hd, hg]; omega)]
      split
      · exact (tallyFlushes_keeps (Has.refl _) _ (Keeps.refl _ s)).getFk_all hm (by decide) i k
      · rfl
    · rfl

theorem ne_of_acc {f g : Fld} (h : g.acc = .rw) (hf : f.acc ≠ .rw) : f ≠ g := fun e => hf (e ▸ h)

/-- A completion entry that is written moves no read-write field. -/
theorem getFk_cqWrite_rw {g : Fld} (hg : fldIn g = true) (ha : g.acc = .rw) {l q : Nat} (c j : Nat)
    (e : List Byte) (s : State) : getFk (cqWrite c q e s) g j l = getFk s g j l := by
  have tail := fun v (x : State) => getFk_setFk_fld (f := CQ_CQ_TAIL) (by decide) hg (ne_of_acc ha (by decide)) (i := c) (j := j) (l := l) v x (k := q)
  have used := fun v (x : State) => getFk_setFk_fld (f := CQ_SLOTS_USED) (by decide) hg (ne_of_acc ha (by decide)) (i := c) (j := j) (l := l) v x (k := 0)
  have acc := fun v (x : State) => getFk_setFk_fld (f := CQ_ACCEPTED) (by decide) hg (ne_of_acc ha (by decide)) (i := c) (j := j) (l := l) v x (k := 0)
  have com := fun v (x : State) => getFk_setFk_fld (f := CQ_COMPLETED) (by decide) hg (ne_of_acc ha (by decide)) (i := c) (j := j) (l := l) v x (k := 0)
  have sig : ∀ (p : Prop) [Decidable p] (x : State), getFk (if p then cqSignal c q x else x) g j l = getFk x g j l :=
    fun p _ x => by split <;> rfl
  unfold cqWrite
  dsimp only
  split
  · rw [sig]
    simp only [freeSlot, incr, addF, addFk, setF, modQueue, modSlot, getFk_modCtx, getFk_hostWrite, tail, used, com]
  · simp only [incr, addF, addFk, modQueue, getFk_modCtx, getFk_hostWrite, tail, acc]

/-- Held entries that are written move no read-write field. -/
theorem getFk_cqDrain_rw {g : Fld} (hg : fldIn g = true) (ha : g.acc = .rw) {l q : Nat} (c j : Nat) :
    ∀ (n : Nat) (s : State), getFk (cqDrain c q n s) g j l = getFk s g j l
  | 0, _ => rfl
  | n + 1, s => by
    unfold cqDrain
    split
    · split
      · rw [getFk_cqDrain_rw hg ha c j n, getFk_cqWrite_rw hg ha]; rfl
      · rfl
    · rfl

/-! ## Slots and queues -/

@[simp] theorem slotOf_modSlot_self (c n : Nat) (f : Slot → Slot) (s : State) : slotOf (modSlot c n f s) c n = f (slotOf s c n) := by
  unfold slotOf modSlot
  rw [ctxOf_modCtx_self]
  exact Store.get_upd_self ..

@[simp] theorem queueOf_modSlot (c n : Nat) (f : Slot → Slot) (s : State) (q : Nat) : queueOf (modSlot c n f s) c q = queueOf s c q := by
  unfold queueOf modSlot
  rw [ctxOf_modCtx_self]

@[simp] theorem queueOf_modQueue_self (c q : Nat) (f : Queue → Queue) (s : State) : queueOf (modQueue c q f s) c q = f (queueOf s c q) := by
  unfold queueOf modQueue
  rw [ctxOf_modCtx_self]
  exact Store.get_upd_self ..

@[simp] theorem slotOf_modQueue (c q : Nat) (f : Queue → Queue) (s : State) (n : Nat) : slotOf (modQueue c q f s) c n = slotOf s c n := by
  unfold slotOf modQueue
  rw [ctxOf_modCtx_self]

@[simp] theorem slotOf_setFk (f : Fld) (i k v : Nat) (s : State) (c n : Nat) : slotOf (setFk f i k v s) c n = slotOf s c n := rfl
@[simp] theorem queueOf_setFk (f : Fld) (i k v : Nat) (s : State) (c n : Nat) : queueOf (setFk f i k v s) c n = queueOf s c n := rfl
@[simp] theorem slotOf_setF (f : Fld) (i v : Nat) (s : State) (c n : Nat) : slotOf (setF f i v s) c n = slotOf s c n := rfl
@[simp] theorem queueOf_setF (f : Fld) (i v : Nat) (s : State) (c n : Nat) : queueOf (setF f i v s) c n = queueOf s c n := rfl
@[simp] theorem slotOf_incr (f : Fld) (i : Nat) (s : State) (c n : Nat) : slotOf (incr f i s) c n = slotOf s c n := rfl
@[simp] theorem queueOf_incr (f : Fld) (i : Nat) (s : State) (c n : Nat) : queueOf (incr f i s) c n = queueOf s c n := rfl
@[simp] theorem slotOf_hostWrite (a : Nat) (bs : List Byte) (s : State) (c n : Nat) : slotOf (hostWrite a bs s) c n = slotOf s c n := rfl
@[simp] theorem queueOf_hostWrite (a : Nat) (bs : List Byte) (s : State) (c n : Nat) : queueOf (hostWrite a bs s) c n = queueOf s c n := rfl
@[simp] theorem slotOf_emit (o : Out) (s : State) (c n : Nat) : slotOf (emit o s) c n = slotOf s c n := rfl
@[simp] theorem queueOf_emit (o : Out) (s : State) (c n : Nat) : queueOf (emit o s) c n = queueOf s c n := rfl
@[simp] theorem slotOf_report (h st r0 r1 : Nat) (s : State) (c n : Nat) : slotOf (report h st r0 r1 s) c n = slotOf s c n := rfl
@[simp] theorem queueOf_report (h st r0 r1 : Nat) (s : State) (c n : Nat) : queueOf (report h st r0 r1 s) c n = queueOf s c n := rfl
@[simp] theorem slotOf_setEvt (e : Evt) (i : Nat) (s : State) (c n : Nat) : slotOf (setEvt e i s) c n = slotOf s c n := by
  unfold slotOf ctxOf; simp
@[simp] theorem queueOf_setEvt (e : Evt) (i : Nat) (s : State) (c n : Nat) : queueOf (setEvt e i s) c n = queueOf s c n := by
  unfold queueOf ctxOf; simp

/-- A byte of module memory that a write reaches last holds what was written to it. -/
theorem get_memPuts_at (d k : Nat) (bs : List Byte) (a : Nat) (s : State) (j : Nat) (hj : j < bs.length) (chan page off : Nat)
    (h1 : lookup s d (a + j) = .hit chan page off) (h2 : redirect s chan page off = some k)
    (h3 : ∀ i, j < i → i < bs.length → ∀ chan page off, lookup s d (a + i) = .hit chan page off → redirect s chan page off ≠ some k) :
    Store.get (0 : Byte) (memPuts d a bs s).mem k = bs[j] := by
  induction bs generalizing a s j with
  | nil => exact absurd hj (Nat.not_lt_zero _)
  | cons b bs ih =>
    have hl : ∀ x, lookup (memPut d a b s) d x = lookup s d x := fun x => by
      unfold memPut; split <;> (try split) <;> rfl
    have hr : ∀ c p o, redirect (memPut d a b s) c p o = redirect s c p o := fun c p o => by
      unfold memPut; split <;> (try split) <;> rfl
    rw [memPuts]
    cases j with
    | zero =>
      rw [get_memPuts d k bs (a + 1) _ fun i hi chan page off e => by
        rw [hl] at e; rw [hr]
        exact h3 (i + 1) (by omega) (by simpa using hi) chan page off (by rw [← e]; congr 1; omega)]
      unfold memPut
      have h1' : lookup s d a = .hit chan page off := h1
      rw [h1']
      dsimp only
      rw [h2]
      exact Store.get_put_self ..
    | succ j =>
      refine ih (a + 1) _ j (by simpa using hj) (by rw [hl, ← h1]; congr 1; omega) (by rw [hr]; exact h2) ?_
      intro i hi hi2 chan page off e
      rw [hl] at e; rw [hr]
      exact h3 (i + 1) (by omega) (by simpa using hi2) chan page off (by rw [← e]; congr 1; omega)

theorem mem_unpoison (d a : Nat) : ∀ (n : Nat) (s : State), (unpoison d a n s).mem = s.mem
  | 0, _ => rfl
  | n + 1, s => by
    unfold unpoison
    dsimp only
    split
    · split <;> exact mem_unpoison d a n s
    · exact mem_unpoison d a n s

/-- A read of an engine that memory answers counts the accesses that needed correction. -/
theorem engRead_data {s : State} {d a n : Nat} {bs : List Byte} (h : memRead s d a n = .data bs) (cls : Nat) :
    engRead d cls a n s = (.data bs, correctAll (weakRows s d a n) s) := by
  unfold engRead; rw [h]

/-- A write of which no byte misses the map is carried out: the byte that each address leads to holds what was written there last. -/
theorem get_memWrite_at {d a : Nat} {bs : List Byte} {s : State} (h : firstMiss s d a bs.length = none) {k j : Nat} (hj : j < bs.length)
    {chan page off : Nat} (h1 : lookup s d (a + j) = .hit chan page off) (h2 : redirect s chan page off = some k)
    (h3 : ∀ i, j < i → i < bs.length → ∀ chan page off, lookup s d (a + i) = .hit chan page off → redirect s chan page off ≠ some k) :
    Store.get (0 : Byte) (memWrite d a bs s).2.mem k = bs[j] := by
  unfold memWrite
  rw [h]
  dsimp only
  rw [mem_unpoison]
  exact get_memPuts_at d k bs a s j hj chan page off h1 h2 h3

end Sys2Proof.Machine
end

