-- ==== Sys2Proof/Laws/EffectsBoot.lean ====
section
/-! SUPPORT. What the commands do: the commands of boot. -/

namespace Sys2Proof.Machine

set_option linter.unusedSimpArgs false

theorem mailboxWrite_effect (off : Nat) (data : List Byte) (s : State) (h1 : s.inReset = none) (h2 : off + data.length ≤ mbxLen) (h3 : bootState s ≠ 2) (h4 : bootState s ≠ 3) :
    mbxBytes (outOfReset s (mailboxWrite off data s)) off data.length = data ∧ ∀ j, j < off ∨ off + data.length ≤ j → Store.get (0 : Byte) (outOfReset s (mailboxWrite off data s)).mbx j = Store.get (0 : Byte) s.mbx j := by
  rw [outOfReset_eq _ h1]
  unfold mailboxWrite
  rw [if_neg (by omega), if_neg (by omega)]
  exact ⟨Store.getAll_putAll_self .., fun j hj => Store.get_putAll_of_not_mem _ _ _ hj⟩

theorem mailboxIgnored_effect (off : Nat) (data : List Byte) (s : State) (h1 : s.inReset = none) (h2 : off + data.length ≤ mbxLen) (h3 : bootState s = 2 ∨ bootState s = 3) :
    (outOfReset s (mailboxWrite off data s)).mbx = s.mbx ∧ getF (outOfReset s (mailboxWrite off data s)) BOOT_MBX_IGNORED 0 = (getF s BOOT_MBX_IGNORED 0 + 1) % 2 ^ 32 := by
  rw [outOfReset_eq _ h1]
  unfold mailboxWrite
  rw [if_neg (by omega), if_pos h3]
  exact ⟨rfl, getF_incr_self _ _ _ (by decide)⟩

theorem go_effect (r : Requester) (a v : Nat) (s : State) (h1 : target s r a = some (18, 0, 0x10)) (h2 : gate s r 18 0 0x10 = .pass) (h3 : bit v 0 = true) (h4 : bootState s = 1 ∨ bootState s = 4 ∨ bootState s = 6) :
    bootState (go r a v s) = 2 ∧ getF (go r a v s) BOOT_STAT_ATTEMPTS 0 = min 8 (getF s BOOT_STAT_ATTEMPTS 0 + 1) := by
  unfold go
  rw [guarded_pass h1 h2, if_pos ⟨rfl, rfl, h3⟩]
  unfold bootGo
  dsimp only
  rw [if_pos h4]
  refine ⟨getF_setF_self _ _ _ _ (by decide), ?_⟩
  rw [getF_setF_apart (by decide), getF_setF_self _ _ _ _ (by decide)]
  exact Nat.mod_eq_of_lt (by show min 8 _ < 16; omega)

theorem imageReason_lt (s : State) : imageReason s < 16 := by
  unfold imageReason
  dsimp only
  repeat' split
  all_goals decide

theorem imageVerifyDone_effect  (s : State) (h1 : s.inReset = none) (h2 : getF s PWR_STAT_STATE 0 ≠ 2) (h3 : bootState s = 2) (h4 : s.romProg = false) (h5 : s.brk.stopped.contains 0 = false) :
    (imageReason s = 0 → (pairsUp s (imageVerifyDone s)) = gateOpens s) ∧ (imageReason s ≠ 0 → bootState (pairsUp s (imageVerifyDone s)) = (if getF s BOOT_STAT_ATTEMPTS 0 = 8 then 5 else if otpHasValid s 4 then 4 else 6) ∧ getF (pairsUp s (imageVerifyDone s)) BOOT_STAT_REASON 0 = imageReason s ∧ evtSet (pairsUp s (imageVerifyDone s)) BOOT_EV_REJECTED 0 = true) := by
  rw [pairsUp_eq _ h1 h2]
  unfold imageVerifyDone
  rw [if_pos ⟨h3, by simp [h4], by rw [h5]; rfl⟩]
  dsimp only
  refine ⟨fun h => if_pos h, fun h => ?_⟩
  rw [if_neg h]
  unfold rejectImage
  dsimp only
  refine ⟨?_, ?_, evtSet_setEvt (by decide) _ _⟩
  · unfold bootState
    rw [getF_setEvt_apart (by decide), getF_setF_apart (by decide), getF_setF_self _ _ _ _ (by decide)]
    split
    · rfl
    · split <;> rfl
  · rw [getF_setEvt_apart (by decide), getF_setF_self _ _ _ _ (by decide)]
    exact Nat.mod_eq_of_lt (imageReason_lt s)

theorem progGo_effect (r : Requester) (a v : Nat) (s : State) (h1 : target s r a = some (17, 0, 0x10)) (h2 : gate s r 17 0 0x10 = .pass) (h3 : bit v 0 = true) (h4 : progAllowed s (getF s OTP_PROG_FIELD 0) (progData s (getF s OTP_PROG_FIELD 0)) = true) (h5 : (otpNext s (getF s OTP_PROG_FIELD 0)).isSome = true) :
    (progGo r a v s).otpq = s.otpq ++ [{ field := getF s OTP_PROG_FIELD 0, value := progData s (getF s OTP_PROG_FIELD 0) }] ∧ getF (progGo r a v s) OTP_STAT_BUSY 0 = 1 := by
  unfold progGo
  rw [guarded_pass h1 h2, if_pos ⟨rfl, rfl, h3⟩]
  unfold progRequest
  dsimp only
  rw [if_neg (by rw [h4]; decide), if_neg (by rw [← Option.not_isSome, h5]; decide)]
  exact ⟨rfl, getF_setF_self _ _ _ _ (by decide)⟩

theorem progDenied_effect (r : Requester) (a v : Nat) (s : State) (h1 : target s r a = some (17, 0, 0x10)) (h2 : gate s r 17 0 0x10 = .pass) (h3 : bit v 0 = true) (h4 : progAllowed s (getF s OTP_PROG_FIELD 0) (progData s (getF s OTP_PROG_FIELD 0)) = false) :
    (progGo r a v s).otpq = s.otpq ∧ evtSet (progGo r a v s) OTP_EV_DENIED 0 = true := by
  unfold progGo
  rw [guarded_pass h1 h2, if_pos ⟨rfl, rfl, h3⟩]
  unfold progRequest
  dsimp only
  rw [if_pos (by rw [h4]; rfl)]
  exact ⟨by simp, evtSet_setEvt (by decide) _ _⟩

theorem otpProgDone_effect (q : OtpReq) (rest : List OtpReq) (g off len slot : Nat) (cls : OtpCls) (s : State) (h1 : s.otpq = q :: rest) (h2 : q.rom = false) (h3 : otpNext s q.field = some g) (h4 : otpField q.field = some (off, len, slot, cls)) :
    otpBytes (otpProgDone true s) (off + slot * g) (slotBytes q.value true).length = slotBytes q.value true ∧ (otpProgDone true s).otpq = rest ∧ getF (otpProgDone true s) OTP_PROG_CNT 0 = (getF s OTP_PROG_CNT 0 + 1) % 2 ^ 32 := by
  unfold otpProgDone
  rw [h1]
  dsimp only
  have e : otpNext { s with otpq := rest } q.field = some g := h3
  rw [e]
  dsimp only
  rw [h2]
  simp only [Bool.false_and, Bool.false_eq_true, if_false]
  unfold otpEnd otpCount
  rw [h2]
  simp only [Bool.false_eq_true, if_false, if_true]
  unfold otpWrite
  rw [h4]
  dsimp only
  refine ⟨?_, by simp, ?_⟩
  · unfold otpBytes
    simp only [setF_otp, setEvt_otp, incr_otp]
    exact Store.getAll_putAll_self ..
  · rw [getF_setF_apart (by decide), getF_setEvt_apart (by decide), getF_incr_self _ _ _ (by decide)]
    rfl

theorem otpProgFails_effect (q : OtpReq) (rest : List OtpReq) (g : Nat) (s : State) (h1 : s.otpq = q :: rest) (h2 : q.rom = false) (h3 : otpNext s q.field = some g) :
    (otpProgDone false s).otpq = rest ∧ getF (otpProgDone false s) OTP_PROG_FAIL_CNT 0 = (getF s OTP_PROG_FAIL_CNT 0 + 1) % 2 ^ 32 ∧ evtSet (otpProgDone false s) OTP_EV_PROG_FAIL 0 = true := by
  unfold otpProgDone
  rw [h1]
  dsimp only
  have e : otpNext { s with otpq := rest } q.field = some g := h3
  rw [e]
  dsimp only
  rw [h2]
  simp only [Bool.false_and, Bool.false_eq_true, if_false]
  unfold otpEnd otpCount
  rw [h2]
  simp only [Bool.false_eq_true, if_false]
  have o : ∀ f i bs x g, getF (otpWrite f i bs x) g 0 = getF x g 0 := fun f i bs x g => by unfold otpWrite; split <;> rfl
  have o2 : ∀ f i bs x, (otpWrite f i bs x).otpq = x.otpq := fun f i bs x => by unfold otpWrite; split <;> rfl
  refine ⟨by simp [o2], ?_, ?_⟩
  · rw [getF_setF_apart (by decide), getF_setEvt_apart (by decide), getF_incr_self _ _ _ (by decide), o]
    rfl
  · rw [evtSet_setF (by decide)]
    exact evtSet_setEvt (by decide) _ _

theorem idReady_effect  (s : State) (h1 : s.inReset = none) (h2 : getF s PWR_STAT_STATE 0 ≠ 2) (h3 : bootState s = 3) :
    getF (pairsUp s (idReady s)) BOOT_STAT_ID_READY 0 = 1 := by
  rw [pairsUp_eq _ h1 h2]
  unfold idReady
  rw [if_pos h3]
  exact getF_setF_self _ _ _ _ (by decide)

theorem otpHighest_congr {s t : State} (h : t.otp = s.otp) (off slot : Nat) (p : List Byte → Bool) :
    ∀ n, otpHighest t off slot p n = otpHighest s off slot p n
  | 0 => rfl
  | n + 1 => by unfold otpHighest otpSlot otpBytes; rw [h, otpHighest_congr h off slot p n]

theorem otpValue_congr {s t : State} (h : t.otp = s.otp) (f : Nat) : otpValue t f = otpValue s f := by
  unfold otpValue
  simp only [otpHighest_congr h, otpSlot, otpBytes, h]

theorem attestEnd (h a : Nat) (bs : List Byte) (f : Slot → Slot) (s : State) :
    (report h 0 36800 0 (nextFree (hostWrite a bs (modSlot (hCtx h) (hSlot h) f s)))).hmem = Store.putAll 0 a bs s.hmem ∧
    (report h 0 36800 0 (nextFree (hostWrite a bs (modSlot (hCtx h) (hSlot h) f s)))).reports =
      s.reports ++ [{ handle := h, status := 0, r0 := 36800, r1 := 0 }] := ⟨rfl, rfl⟩

theorem attestBody_congr {s t : State} (h1 : t.otp = s.otp) (h2 : t.regs = s.regs) (e : List Byte) : attestBody t e = attestBody s e := by
  have g : ∀ f i k, getFk t f i k = getFk s f i k := fun f i k => by unfold getFk; rw [h2]
  have g0 : ∀ f i, getF t f i = getF s f i := fun f i => g f i 0
  have hg : keyGen t = keyGen s := by
    unfold keyGen otpFieldStat otpSlot otpBytes
    simp only [otpHighest_congr h1, h1]
  unfold attestBody serial minSvn dbgPolicy devSecret otpReport otpBytes
  simp only [otpValue_congr h1, g, g0, h1, hg]

theorem attest_effect (h : Nat) (s : State) (h1 : stopped s = false) (h2 : isF s BOOT_STAT_ID_READY 0 = true) (h3 : cmdReady s h 3 = true) (h4 : (bit (dbgPolicy s) 1 && unlocked s) = false) :
    (running s (attest h s)).hmem = Store.putAll 0 (argOf (entryOf s h) 0) (attestBody s (entryOf s h) ++ signBoth (devSecret s) (attestBody s (entryOf s h)) s.freeCtr) s.hmem ∧ (running s (attest h s)).reports = s.reports ++ [{ handle := h, status := 0, r0 := 36800, r1 := 0 }] := by
  rw [running_eq _ h1]
  unfold attest
  rw [if_neg (by rw [h2]; decide), runCmd_ready h3]
  have e : ∀ f, (bit (dbgPolicy (modSlot (hCtx h) (hSlot h) f s)) 1 && unlocked (modSlot (hCtx h) (hSlot h) f s)) = false := fun _ => h4
  simp only [e, Bool.false_eq_true, if_false]
  have e1 : ∀ f, attestBody (modSlot (hCtx h) (hSlot h) f s) (entryOf s h) = attestBody s (entryOf s h) := fun f => attestBody_congr rfl rfl _
  have e2 : ∀ f, devSecret (modSlot (hCtx h) (hSlot h) f s) = devSecret s := fun f => otpValue_congr rfl 6
  have e3 : ∀ f, (modSlot (hCtx h) (hSlot h) f s).freeCtr = s.freeCtr := fun _ => rfl
  simp only [e1, e2, e3]
  exact attestEnd _ _ _ _ _

theorem attestDenied_effect (h : Nat) (s : State) (h1 : stopped s = false) (h2 : isF s BOOT_STAT_ID_READY 0 = true) (h3 : cmdReady s h 3 = true) (h4 : (bit (dbgPolicy s) 1 && unlocked s) = true) :
    (running s (attest h s)).hmem = s.hmem ∧ (running s (attest h s)).reports = s.reports ++ [{ handle := h, status := 2, r0 := 0, r1 := 0 }] := by
  rw [running_eq _ h1]
  unfold attest
  rw [if_neg (by rw [h2]; decide), runCmd_ready h3]
  have e : ∀ f, (bit (dbgPolicy (modSlot (hCtx h) (hSlot h) f s)) 1 && unlocked (modSlot (hCtx h) (hSlot h) f s)) = true := fun _ => h4
  simp only [e, if_true]
  unfold denyCmd
  simp [modSlot]

end Sys2Proof.Machine
end

