-- ==== Sys2Proof/Laws/EffectsBreakwater.lean ====
section
/-! SUPPORT. What the commands do: the commands of breakwater. -/

namespace Sys2Proof.Machine

set_option linter.unusedSimpArgs false

/-- The fault reaction begins: FAULT_N, STAT, the count and the event (R603, R607). -/
theorem faultReaction_spec (cause source value : Nat) (s : State) (h : isF s BRKW_STAT_FAULT 0 = false) (hc : cause < 8) :
    (faultReaction cause source value s).faultN = true ∧ getF (faultReaction cause source value s) BRKW_STAT_FAULT 0 = 1 ∧
    getF (faultReaction cause source value s) BRKW_STAT_CAUSE 0 = cause ∧
    getF (faultReaction cause source value s) BRKW_FAULTS 0 = (getF s BRKW_FAULTS 0 + 1) % 2 ^ 32 ∧
    evtSet (faultReaction cause source value s) BRKW_EV_FAULT 0 = true := by
  have lf : ∀ x, (logFault cause source value x).faultN = x.faultN ∧
      getF (logFault cause source value x) BRKW_STAT_FAULT 0 = getF x BRKW_STAT_FAULT 0 ∧
      getF (logFault cause source value x) BRKW_STAT_CAUSE 0 = getF x BRKW_STAT_CAUSE 0 ∧
      getF (logFault cause source value x) BRKW_FAULTS 0 = (getF x BRKW_FAULTS 0 + 1) % 2 ^ 32 ∧
      evtSet (logFault cause source value x) BRKW_EV_FAULT 0 = true := fun x => by
    unfold logFault
    dsimp only
    split
    · refine ⟨by simp, ?_, ?_, ?_, evtSet_setEvt (by decide) _ _⟩
      all_goals simp (disch := decide) only [getF_incr_self, getF_setEvt_apart, getF_incr_apart, getF_setF_apart]
      all_goals unfold getF
      all_goals rw [getFk_setFk_fld (by decide) (by decide) (by decide), getFk_setFk_fld (by decide) (by decide) (by decide),
        getFk_setFk_fld (by decide) (by decide) (by decide), getFk_setFk_fld (by decide) (by decide) (by decide)]
    · refine ⟨by simp, ?_, ?_, ?_, evtSet_setEvt (by decide) _ _⟩
      all_goals simp (disch := decide) only [getF_incr_self, getF_setEvt_apart, getF_incr_apart]
  unfold faultReaction
  rw [h]
  simp only [Bool.false_eq_true, if_false]
  obtain ⟨a, b, c, d, e⟩ := lf (domainsOff faultDomains (quiesceMcs 16 (tallyFlushAll
    (setF BRKW_STAT_FAULT 0 1 (setF BRKW_STAT_CAUSE 0 cause { s with faultN := true })))))
  have off : ∀ n ∈ faultDomains, n < 255 := by decide
  have k : ∀ (g : Fld) (m : Nat), IsReg g m → g.page = 15 → ∀ x, getF (domainsOff faultDomains (quiesceMcs 16 (tallyFlushAll x))) g 0 = getF x g 0 :=
    fun g m hm hp x => by
      unfold getF
      rw [getFk_domainsOff hm (by rw [hp]; rfl) (fun i => by rw [hp]; rfl) (fun e => by rw [← e] at hp; exact absurd hp (by decide)) _ _ _ _ off]
      exact ((quiesceMcs_keeps (Has.refl _) 16 (Keeps.refl _ (tallyFlushAll x))).getFk_all hm (by decide) _ _).trans
        ((tallyFlushAll_keeps (Has.refl _) (Keeps.refl _ x)).getFk_all hm (by decide) _ _)
  refine ⟨a.trans ?_, b.trans ?_, c.trans ?_, d.trans ?_, e⟩
  · rw [(domainsOff_keeps (Has.refl _) faultDomains (Keeps.refl _ _)).faultN (by decide),
      (quiesceMcs_keeps (Has.refl _) 16 (Keeps.refl _ _)).faultN (by decide), (tallyFlushAll_keeps (Has.refl _) (Keeps.refl _ _)).faultN (by decide)]
    rfl
  · rw [k _ _ reg_BRKW_STAT_FAULT rfl, getF_setF_self _ _ _ _ (by decide)]; rfl
  · rw [k _ _ reg_BRKW_STAT_CAUSE rfl, getF_setF_apart (by decide), getF_setF_self _ _ _ _ (by decide)]
    exact Nat.mod_eq_of_lt hc
  · rw [k _ _ reg_BRKW_FAULTS rfl, getF_setF_apart (by decide), getF_setF_apart (by decide)]; rfl

theorem tempTrip_effect (k t : Nat) (l : Nat) (s : State) (h1 : tripLevel k = some l) (h2 : l ≤ t) (h3 : isF s BRKW_STAT_FAULT 0 = false) :
    (tempTrip k t s).faultN = true ∧ getF (tempTrip k t s) BRKW_STAT_FAULT 0 = 1 ∧ getF (tempTrip k t s) BRKW_STAT_CAUSE 0 = 2 ∧ getF (tempTrip k t s) BRKW_FAULTS 0 = (getF s BRKW_FAULTS 0 + 1) % 2 ^ 32 ∧ evtSet (tempTrip k t s) BRKW_EV_FAULT 0 = true := by
  unfold tempTrip
  rw [h1]
  dsimp only
  rw [if_pos h2]
  exact faultReaction_spec 2 k t _ h3 (by decide)

theorem residueMismatch_effect (cl : Nat) (s : State) (h1 : stopped s = false) (h2 : domOn s (32 + cl / 8) = true) :
    getF (runningIn (32 + cl / 8) s (residueMismatch cl false s)) BRKW_RESIDUE_REPEAT 0 = (getF s BRKW_RESIDUE_REPEAT 0 + 1) % 2 ^ 32 := by
  rw [runningIn_eq _ _ h1 h2]
  exact getF_incr_self _ _ _ (by decide)

theorem residueMismatchAgain_effect (cl : Nat) (s : State) (h1 : stopped s = false) (h2 : domOn s (32 + cl / 8) = true) :
    (runningIn (32 + cl / 8) s (residueMismatch cl true s)).faultN = true ∧ getF (runningIn (32 + cl / 8) s (residueMismatch cl true s)) BRKW_STAT_FAULT 0 = 1 ∧ getF (runningIn (32 + cl / 8) s (residueMismatch cl true s)) BRKW_STAT_CAUSE 0 = 5 ∧ getF (runningIn (32 + cl / 8) s (residueMismatch cl true s)) BRKW_FAULTS 0 = (getF s BRKW_FAULTS 0 + 1) % 2 ^ 32 ∧ evtSet (runningIn (32 + cl / 8) s (residueMismatch cl true s)) BRKW_EV_FAULT 0 = true := by
  rw [runningIn_eq _ _ h1 h2]
  have h : isF s BRKW_STAT_FAULT 0 = false := by
    simp only [stopped, Bool.or_eq_false_iff] at h1; exact h1.1.1
  exact faultReaction_spec 5 cl 0 s h (by decide)

theorem pairLockstep_effect (p : Nat) (s : State) (h1 : s.inReset = none) (h2 : getF s PWR_STAT_STATE 0 ≠ 2) (h3 : p < 12) (h4 : s.brk.stopped.contains p = false) (h5 : isF s BRKW_STAT_FAULT 0 = false) :
    (pairsUp s (pairLockstep p s)).faultN = true ∧ getF (pairsUp s (pairLockstep p s)) BRKW_STAT_FAULT 0 = 1 ∧ getF (pairsUp s (pairLockstep p s)) BRKW_STAT_CAUSE 0 = 4 ∧ getF (pairsUp s (pairLockstep p s)) BRKW_FAULTS 0 = (getF s BRKW_FAULTS 0 + 1) % 2 ^ 32 ∧ evtSet (pairsUp s (pairLockstep p s)) BRKW_EV_FAULT 0 = true ∧ (pairsUp s (pairLockstep p s)).brk.stopped = s.brk.stopped ++ [p] := by
  rw [pairsUp_eq _ h1 h2]
  unfold pairLockstep
  rw [if_neg (by rw [h4]; simp only [Bool.false_eq_true, or_false]; omega)]
  obtain ⟨a, b, c, d, e⟩ := faultReaction_spec 4 p 0 { s with brk := { s.brk with stopped := s.brk.stopped ++ [p] } } h5 (by decide)
  exact ⟨a, b, c, d, e, congrArg Breakwater.stopped ((faultReaction_keeps (Has.refl _) 4 p 0 (Keeps.refl _ _)).brk (by decide))⟩

theorem watchdogExpire_effect (p : Nat) (s : State) (h1 : s.inReset = none) (h2 : getF s PWR_STAT_STATE 0 ≠ 2) (h3 : p < 12) (h4 : wdogArmed s p = true) (h5 : isF s BRKW_STAT_FAULT 0 = false) :
    (pairsUp s (watchdogExpire p s)).faultN = true ∧ getF (pairsUp s (watchdogExpire p s)) BRKW_STAT_FAULT 0 = 1 ∧ getF (pairsUp s (watchdogExpire p s)) BRKW_STAT_CAUSE 0 = 3 ∧ getF (pairsUp s (watchdogExpire p s)) BRKW_FAULTS 0 = (getF s BRKW_FAULTS 0 + 1) % 2 ^ 32 ∧ evtSet (pairsUp s (watchdogExpire p s)) BRKW_EV_FAULT 0 = true := by
  rw [pairsUp_eq _ h1 h2]
  unfold watchdogExpire
  rw [if_pos (by simp [h3, h4])]
  exact faultReaction_spec 3 p 0 s h5 (by decide)

theorem kick_hub {p a o v : Nat} {s : State} (h1 : target s (.hubPair p) a = some (15, 0, o)) (h2 : gate s (.hubPair p) 15 0 o = .pass)
    {q : Nat} (h3 : kickIndex 15 o = some q) : kick (.hubPair p) a v s = kickWrite (.hubPair p) q v s := by
  unfold kick
  show guarded _ _ _ _ = _
  rw [guarded_pass h1 h2]
  rw [h3]

theorem kickFirst_effect (a v : Nat) (p o : Nat) (s : State) (h1 : target s (.hubPair p) a = some (15, 0, o)) (h2 : gate s (.hubPair p) 15 0 o = .pass) (h3 : kickIndex 15 o = some p) (h4 : v % 65536 = 0x5AA5) (h5 : s.brk.half.contains p = false) :
    (kick (.hubPair p) a v s).brk.half = s.brk.half ++ [p] ∧ getF (kick (.hubPair p) a v s) BRKW_KICKS_BAD 0 = getF s BRKW_KICKS_BAD 0 := by
  rw [kick_hub h1 h2 h3]
  unfold kickWrite
  rw [if_neg (by simp [pairIndex]), if_pos ⟨h4, by simp only [h5, Bool.not_false]⟩]
  exact ⟨rfl, rfl⟩

theorem kickSecond_effect (a v : Nat) (p o : Nat) (s : State) (h1 : target s (.hubPair p) a = some (15, 0, o)) (h2 : gate s (.hubPair p) 15 0 o = .pass) (h3 : kickIndex 15 o = some p) (h4 : v % 65536 = 0xA55A) (h5 : s.brk.half.contains p = true) :
    (kick (.hubPair p) a v s).brk.half = s.brk.half.filter (· ≠ p) ∧ getF (kick (.hubPair p) a v s) BRKW_KICKS_BAD 0 = getF s BRKW_KICKS_BAD 0 := by
  rw [kick_hub h1 h2 h3]
  unfold kickWrite
  rw [if_neg (by simp [pairIndex]), if_neg (by rw [h4]; omega), if_pos ⟨h4, h5⟩]
  exact ⟨rfl, rfl⟩

theorem kickRefused_effect (a v : Nat) (p o q : Nat) (s : State) (h1 : target s (.hubPair p) a = some (15, 0, o)) (h2 : gate s (.hubPair p) 15 0 o = .pass) (h3 : kickIndex 15 o = some q) (h4 : p ≠ q) :
    (kick (.hubPair p) a v s).brk.half = s.brk.half.filter (· ≠ q) ∧ getF (kick (.hubPair p) a v s) BRKW_KICKS_BAD 0 = (getF s BRKW_KICKS_BAD 0 + 1) % 2 ^ 32 ∧ evtSet (kick (.hubPair p) a v s) BRKW_EV_KICK_BAD 0 = true := by
  rw [kick_hub h1 h2 h3]
  unfold kickWrite
  rw [if_pos (by simp [pairIndex, h4])]
  unfold kickBad
  refine ⟨by simp, ?_, evtSet_setEvt (by decide) _ _⟩
  rw [getF_setEvt_apart (by decide), getF_incr_self _ _ _ (by decide)]
  rfl

theorem comparatorSelftest_effect  (s : State)  :
    getF (comparatorSelftest false s) BRKW_STAT_LATENT 0 = 1 ∧ evtSet (comparatorSelftest false s) BRKW_EV_SELFTEST_FAIL 0 = true := by
  show getF (latentFault s) _ _ = _ ∧ evtSet (latentFault s) _ _ = _
  unfold latentFault
  refine ⟨?_, evtSet_setEvt (by decide) _ _⟩
  rw [getF_setEvt_apart (by decide), getF_setF_self _ _ _ _ (by decide)]
  rfl

theorem comparatorDisagree_effect (ms : Nat) (s : State) (h1 : 10 ≤ ms) :
    getF (comparatorDisagree ms s) BRKW_STAT_LATENT 0 = 1 ∧ evtSet (comparatorDisagree ms s) BRKW_EV_SELFTEST_FAIL 0 = true := by
  unfold comparatorDisagree
  rw [if_pos h1]
  unfold latentFault
  refine ⟨?_, evtSet_setEvt (by decide) _ _⟩
  rw [getF_setEvt_apart (by decide), getF_setF_self _ _ _ _ (by decide)]
  rfl

theorem getFk_clearLog {g : Fld} (hg : fldIn g = true) (h1 : BRKW_LOG_A_CAUSE ≠ g) (h2 : BRKW_LOG_A_SOURCE ≠ g) (h3 : BRKW_LOG_A_VALUE ≠ g)
    (h4 : BRKW_LOG_B ≠ g) (i k : Nat) : ∀ (n : Nat) (s : State), getFk (clearLog n s) g i k = getFk s g i k
  | 0, _ => rfl
  | n + 1, s => by
    rw [clearLog, getFk_clearLog hg h1 h2 h3 h4 i k n, getFk_setFk_fld (by decide) hg h1, getFk_setFk_fld (by decide) hg h2,
      getFk_setFk_fld (by decide) hg h3, getFk_setFk_fld (by decide) hg h4]

theorem clearLog_keeps_zero {f : Fld} (hf : f = BRKW_LOG_A_CAUSE ∨ f = BRKW_LOG_A_SOURCE ∨ f = BRKW_LOG_A_VALUE ∨ f = BRKW_LOG_B) (k : Nat) :
    ∀ (n : Nat) (s : State), (k < n ∨ getFk s f 0 k = 0) → n ≤ 8 → k < 8 → getFk (clearLog n s) f 0 k = 0
  | 0, s, h, _, _ => h.resolve_left (Nat.not_lt_zero _)
  | n + 1, s, h, h8, hk => by
    rw [clearLog]
    refine clearLog_keeps_zero hf k n _ ?_ (by omega) hk
    by_cases e : k = n
    · subst e
      refine .inr ?_
      rcases hf with rfl | rfl | rfl | rfl
      · exact getFk_setFk_self _ _ _ _ _ (by decide)
      · rw [getFk_setFk_fld (by decide) (by decide) (by decide)]; exact getFk_setFk_self _ _ _ _ _ (by decide)
      · rw [getFk_setFk_fld (by decide) (by decide) (by decide), getFk_setFk_fld (by decide) (by decide) (by decide)]
        exact getFk_setFk_self _ _ _ _ _ (by decide)
      · rw [getFk_setFk_fld (by decide) (by decide) (by decide), getFk_setFk_fld (by decide) (by decide) (by decide),
          getFk_setFk_fld (by decide) (by decide) (by decide)]
        exact getFk_setFk_self _ _ _ _ _ (by decide)
    · rcases h with h | h
      · exact .inl (by omega)
      · refine .inr ?_
        have key : ∀ (g : Fld) (x : State), fldIn g = true → fldIn f = true → (g.cnt = 8 ∧ g.stride = 8 ∧ g.off < 2048) →
            getFk x f 0 k = 0 → getFk (setFk g 0 n 0 x) f 0 k = 0 := fun g x hg hf' hc hz => by
          by_cases ef : g = f
          · subst ef
            rw [getFk_setFk_off _ _ _ _ _ _ _ _ (by rw [hc.1, hc.2.1]; omega)]; exact hz
          · rw [getFk_setFk_fld hg hf' ef]; exact hz
        have hf' : fldIn f = true := by rcases hf with rfl | rfl | rfl | rfl <;> decide
        exact key _ _ (by decide) hf' (by decide) (key _ _ (by decide) hf' (by decide) (key _ _ (by decide) hf' (by decide)
          (key _ _ (by decide) hf' (by decide) h)))

theorem logClr_effect (a v : Nat) (s : State) (h1 : target s .pf a = some (15, 0, 0x10)) (h2 : gate s .pf 15 0 0x10 = .pass) (h3 : bit v 0 = true) :
    getF (logClr .pf a v s) BRKW_LOG_CNT 0 = 0 ∧ getF (logClr .pf a v s) BRKW_FAULTS 0 = 0 ∧ ∀ n < 8, getFk (logClr .pf a v s) BRKW_LOG_A_CAUSE 0 n = 0 ∧ getFk (logClr .pf a v s) BRKW_LOG_A_SOURCE 0 n = 0 ∧ getFk (logClr .pf a v s) BRKW_LOG_A_VALUE 0 n = 0 ∧ getFk (logClr .pf a v s) BRKW_LOG_B 0 n = 0 := by
  unfold logClr
  rw [guarded_pass h1 h2]
  rw [if_pos ⟨rfl, rfl, h3, rfl⟩]
  refine ⟨?_, ?_, fun n hn => ?_⟩
  · rw [getF_setF_apart (by decide), getF_setF_self _ _ _ _ (by decide)]; rfl
  · rw [getF_setF_self _ _ _ _ (by decide)]; rfl
  · have z : ∀ f, (f = BRKW_LOG_A_CAUSE ∨ f = BRKW_LOG_A_SOURCE ∨ f = BRKW_LOG_A_VALUE ∨ f = BRKW_LOG_B) →
        getFk (clearLog 8 s) f 0 n = 0 := fun f hf => clearLog_keeps_zero hf n 8 s (.inl hn) (by decide) hn
    simp only [setF]
    refine ⟨?_, ?_, ?_, ?_⟩
    all_goals rw [getFk_setFk_fld (by decide) (by decide) (by decide), getFk_setFk_fld (by decide) (by decide) (by decide)]
    · exact z _ (.inl rfl)
    · exact z _ (.inr (.inl rfl))
    · exact z _ (.inr (.inr (.inl rfl)))
    · exact z _ (.inr (.inr (.inr rfl)))

theorem forceFault_effect (r : Requester) (a v : Nat) (s : State) (h1 : target s r a = some (15, 0, 0x10)) (h2 : gate s r 15 0 0x10 = .pass) (h3 : bit v 1 = true) (h4 : unlocked s = true) (h5 : isF s BRKW_STAT_FAULT 0 = false) :
    (forceFault r a v s).faultN = true ∧ getF (forceFault r a v s) BRKW_STAT_FAULT 0 = 1 ∧ getF (forceFault r a v s) BRKW_STAT_CAUSE 0 = 7 ∧ getF (forceFault r a v s) BRKW_FAULTS 0 = (getF s BRKW_FAULTS 0 + 1) % 2 ^ 32 ∧ evtSet (forceFault r a v s) BRKW_EV_FAULT 0 = true := by
  unfold forceFault
  rw [guarded_pass h1 h2]
  rw [if_pos ⟨rfl, rfl, h3, h4⟩]
  exact faultReaction_spec 7 0 0 s h5 (by decide)

theorem wdogCfgWrite_effect (r : Requester) (a v : Nat) (s : State) (h1 : target s r a = some (15, 0, 0x140)) (h2 : gate s r 15 0 0x140 = .pass) (h3 : s.brk.wdogSet = false) (h4 : 10 ≤ v % 1024) (h5 : v % 1024 ≤ 1000) :
    getF (wdogCfgWrite r a v s) BRKW_WDOG_CFG_PERIOD_MS 0 = v % 1024 ∧ (wdogCfgWrite r a v s).brk.wdogSet = true := by
  unfold wdogCfgWrite
  rw [guarded_pass h1 h2]
  rw [if_pos ⟨rfl, rfl, by rw [h3]; rfl, h4, h5⟩, getF_setF_self _ _ _ _ (by decide)]
  exact ⟨Nat.mod_mod _ _, rfl⟩

end Sys2Proof.Machine
end

