-- ==== Sys2Proof/Laws/EffectsCheck.lean ====
section
/-! SUPPORT. What the commands do: the commands of check. -/

namespace Sys2Proof.Machine

set_option linter.unusedSimpArgs false

/-- A word written to a check unit reaches its row. -/
theorem checkWrite_pass {r : Requester} {a i off : Nat} {s : State} (h1 : a % 4 = 0) (h2 : target s r a = some (10, i, off))
    (h3 : gate s r 10 i off = .pass) (f : Nat → State → State) : checkWrite r a off f s = f i s := by
  unfold checkWrite
  rw [if_pos h1, guarded_pass h2 h3, if_pos ⟨rfl, rfl⟩]

/-- The running register holds what was written, within its algorithm's width. -/
theorem runReg_setRun (i v : Nat) (s : State) :
    runReg (setRun i v s) i = v % 2 ^ algWidth (getF s CHECK_CTRL_ALG i) := by
  unfold runReg setRun
  simp (disch := decide) only [getF_setF_self, getF_setF_apart]
  have w : algWidth (getF s CHECK_CTRL_ALG i) ≤ 64 := by unfold algWidth; split <;> (try split) <;> decide
  have e : v % two32 % 2 ^ CHECK_RUN_LO.w + two32 * (v / two32 % 2 ^ CHECK_RUN_HI.w) = v % 2 ^ 64 := by
    show v % 4294967296 % 4294967296 + 4294967296 * (v / 4294967296 % 4294967296) = v % 18446744073709551616
    omega
  rw [e, Nat.mod_mod_of_dvd _ (Nat.pow_dvd_pow 2 w)]

theorem feed_spec (i : Nat) (bs : List Byte) (s : State) :
    runReg (feed i bs s) i = bs.foldl (algByte (getF s CHECK_CTRL_ALG i)) (runReg s i) % 2 ^ algWidth (getF s CHECK_CTRL_ALG i) ∧
    getF (feed i bs s) CHECK_BYTES i = (getF s CHECK_BYTES i + bs.length) % 2 ^ 32 := by
  unfold feed
  constructor
  · generalize bs.foldl _ _ = v
    rw [← runReg_setRun i v s]
    unfold runReg
    simp (disch := decide) only [getF_addF_apart]
  · have e : ∀ x, getF (addF CHECK_BYTES i bs.length x) CHECK_BYTES i = (getF x CHECK_BYTES i + bs.length) % 2 ^ 32 := fun x => by
      show getFk (setFk CHECK_BYTES i 0 _ x) CHECK_BYTES i 0 = _
      rw [getFk_setFk_self _ _ _ _ _ (by decide)]
      exact Nat.mod_mod _ _
    rw [e]
    unfold setRun
    simp (disch := decide) only [getF_setF_apart]

theorem dataB_effect (r : Requester) (a v : Nat) (i : Nat) (s : State) (h1 : a % 4 = 0) (h2 : target s r a = some (10, i, 0x100)) (h3 : gate s r 10 i 0x100 = .pass) :
    runReg (checkWrite r a 0x100 (fun i => feed i (leBytes 1 v)) s) i = (leBytes 1 v).foldl (algByte (getF s CHECK_CTRL_ALG i)) (runReg s i) % 2 ^ algWidth (getF s CHECK_CTRL_ALG i) ∧ getF (checkWrite r a 0x100 (fun i => feed i (leBytes 1 v)) s) CHECK_BYTES i = (getF s CHECK_BYTES i + 1) % 2 ^ 32 := by
  rw [checkWrite_pass h1 h2 h3]
  exact feed_spec i (leBytes 1 v) s

theorem dataH_effect (r : Requester) (a v : Nat) (i : Nat) (s : State) (h1 : a % 4 = 0) (h2 : target s r a = some (10, i, 0x104)) (h3 : gate s r 10 i 0x104 = .pass) :
    runReg (checkWrite r a 0x104 (fun i => feed i (leBytes 2 v)) s) i = (leBytes 2 v).foldl (algByte (getF s CHECK_CTRL_ALG i)) (runReg s i) % 2 ^ algWidth (getF s CHECK_CTRL_ALG i) ∧ getF (checkWrite r a 0x104 (fun i => feed i (leBytes 2 v)) s) CHECK_BYTES i = (getF s CHECK_BYTES i + 2) % 2 ^ 32 := by
  rw [checkWrite_pass h1 h2 h3]
  exact feed_spec i (leBytes 2 v) s

theorem dataW_effect (r : Requester) (a v : Nat) (i : Nat) (s : State) (h1 : a % 4 = 0) (h2 : target s r a = some (10, i, 0x108)) (h3 : gate s r 10 i 0x108 = .pass) :
    runReg (checkWrite r a 0x108 (fun i => feed i (leBytes 4 v)) s) i = (leBytes 4 v).foldl (algByte (getF s CHECK_CTRL_ALG i)) (runReg s i) % 2 ^ algWidth (getF s CHECK_CTRL_ALG i) ∧ getF (checkWrite r a 0x108 (fun i => feed i (leBytes 4 v)) s) CHECK_BYTES i = (getF s CHECK_BYTES i + 4) % 2 ^ 32 := by
  rw [checkWrite_pass h1 h2 h3]
  exact feed_spec i (leBytes 4 v) s

theorem init_effect (r : Requester) (a v : Nat) (i : Nat) (s : State) (h1 : a % 4 = 0) (h2 : target s r a = some (10, i, 0x10)) (h3 : gate s r 10 i 0x10 = .pass) (h4 : v.testBit 2 = true) :
    runReg (checkWrite r a 0x10 (fun i s => if v.testBit 2 then setRun i (algInit (getF s CHECK_CTRL_ALG i)) s else s) s) i = algInit (getF s CHECK_CTRL_ALG i) := by
  rw [checkWrite_pass h1 h2 h3, if_pos h4, runReg_setRun]
  refine Nat.mod_eq_of_lt ?_
  generalize getF s CHECK_CTRL_ALG i = x
  unfold algInit algWidth
  split
  · decide
  · split <;> decide

theorem final_effect (r : Requester) (a v : Nat) (i : Nat) (s : State) (h1 : a % 4 = 0) (h2 : target s r a = some (10, i, 0x10)) (h3 : gate s r 10 i 0x10 = .pass) (h4 : v.testBit 3 = true) :
    getF (checkWrite r a 0x10 (fun i s => if v.testBit 3 then checkFinal i s else s) s) CHECK_RES_LO i + 2 ^ 32 * getF (checkWrite r a 0x10 (fun i s => if v.testBit 3 then checkFinal i s else s) s) CHECK_RES_HI i = (runReg s i ^^^ algXor (getF s CHECK_CTRL_ALG i)) % 2 ^ 64 ∧ getF (checkWrite r a 0x10 (fun i s => if v.testBit 3 then checkFinal i s else s) s) CHECK_FINALS i = (getF s CHECK_FINALS i + 1) % 2 ^ 32 ∧ (isF s CHECK_CTRL_CMP_EN i = true → getF (checkWrite r a 0x10 (fun i s => if v.testBit 3 then checkFinal i s else s) s) CHECK_STAT_MATCH i = if runReg s i ^^^ algXor (getF s CHECK_CTRL_ALG i) = (getF s CHECK_EXP_LO i + 2 ^ 32 * getF s CHECK_EXP_HI i) % 2 ^ algWidth (getF s CHECK_CTRL_ALG i) then 1 else 0) ∧ (isF s CHECK_CTRL_CMP_EN i = true → ¬ runReg s i ^^^ algXor (getF s CHECK_CTRL_ALG i) = (getF s CHECK_EXP_LO i + 2 ^ 32 * getF s CHECK_EXP_HI i) % 2 ^ algWidth (getF s CHECK_CTRL_ALG i) → getF (checkWrite r a 0x10 (fun i s => if v.testBit 3 then checkFinal i s else s) s) CHECK_MISMATCH_CNT i = (getF s CHECK_MISMATCH_CNT i + 1) % 2 ^ 32 ∧ evtSet (checkWrite r a 0x10 (fun i s => if v.testBit 3 then checkFinal i s else s) s) CHECK_EV_MISMATCH i = true) ∧ ((isF s CHECK_CTRL_CMP_EN i = false ∨ runReg s i ^^^ algXor (getF s CHECK_CTRL_ALG i) = (getF s CHECK_EXP_LO i + 2 ^ 32 * getF s CHECK_EXP_HI i) % 2 ^ algWidth (getF s CHECK_CTRL_ALG i)) → getF (checkWrite r a 0x10 (fun i s => if v.testBit 3 then checkFinal i s else s) s) CHECK_MISMATCH_CNT i = getF s CHECK_MISMATCH_CNT i) := by
  rw [checkWrite_pass h1 h2 h3, if_pos h4]
  unfold checkFinal
  dsimp only
  generalize runReg s i ^^^ algXor (getF s CHECK_CTRL_ALG i) = v
  have hi : ∀ x y z : State, isF (incr CHECK_FINALS i (setF CHECK_RES_LO i (v % two32) (setF CHECK_RES_HI i (v / two32) x))) CHECK_CTRL_CMP_EN i = isF x CHECK_CTRL_CMP_EN i := fun x _ _ => by
    unfold isF; simp (disch := decide) only [getF_setF_self, getF_incr_self, getF_setF_apart, getF_incr_apart, getF_addF_apart, getF_setEvt_apart]
  rw [hi s s s]
  have e : v % two32 % 2 ^ CHECK_RES_LO.w + 2 ^ 32 * (v / two32 % 2 ^ CHECK_RES_HI.w) = v % 2 ^ 64 := by
    show v % 4294967296 % 4294967296 + 4294967296 * (v / 4294967296 % 4294967296) = v % 18446744073709551616
    omega
  cases hc : isF s CHECK_CTRL_CMP_EN i with
  | false =>
    simp only [Bool.not_false, if_true]
    simp (disch := decide) only [getF_setF_self, getF_incr_self, getF_setF_apart, getF_incr_apart, getF_addF_apart, getF_setEvt_apart]
    exact ⟨e, trivial, fun x => Bool.noConfusion x, fun x => Bool.noConfusion x, fun _ => trivial⟩
  | true =>
    simp only [Bool.not_true, Bool.false_eq_true, if_false]
    simp (disch := decide) only [getF_setF_self, getF_incr_self, getF_setF_apart, getF_incr_apart, getF_addF_apart, getF_setEvt_apart]
    show _ ∧ _ ∧ (_ → _ = if v = (_ + two32 * _) % _ then 1 else 0) ∧ (_ → ¬ v = (_ + two32 * _) % _ → _) ∧ ((_ ∨ v = (_ + two32 * _) % _) → _)
    split
    · next h =>
      simp (disch := decide) only [getF_setF_self, getF_incr_self, getF_setF_apart, getF_incr_apart, getF_addF_apart, getF_setEvt_apart]
      exact ⟨e, trivial, fun _ => rfl, fun _ n => absurd h n, fun _ => trivial⟩
    · next h =>
      simp (disch := decide) only [getF_setF_self, getF_incr_self, getF_setF_apart, getF_incr_apart, getF_addF_apart, getF_setEvt_apart]
      exact ⟨e, trivial, fun _ => rfl, fun _ _ => ⟨trivial, evtSet_setEvt (by decide) _ _⟩, fun m => m.elim (fun x => Bool.noConfusion x) (fun x => absurd x h)⟩

end Sys2Proof.Machine
end

