-- ==== Sys2Proof/Laws/EffectsLinks.lean ====
section
/-! SUPPORT. What the commands do: the commands of links. -/

namespace Sys2Proof.Machine

set_option linter.unusedSimpArgs false

theorem portEnable_effect (r : Requester) (a v : Nat) (i : Nat) (s : State) (h1 : a % 4 = 0) (h2 : target s r a = some (7, i, 0x10)) (h3 : gate s r 7 i 0x10 = .pass) :
    getF (portEnable r a v s) LINK_CTRL_EN i = v % 2 ∧ (getF s LINK_STAT_STATE i = 0 → v % 2 = 1 → getF s LINK_TOPO_PEER_ROLE i ≠ 0 → getF (portEnable r a v s) LINK_STAT_STATE i = if isF s LINK_CTRL_AUTO_RETRAIN i then 2 else 1) ∧ (getF s LINK_STAT_STATE i = 6 → getF (portEnable r a v s) LINK_STAT_STATE i = if isF s LINK_CTRL_AUTO_RETRAIN i then 2 else 1) := by
  unfold portEnable
  rw [if_pos h1, guarded_pass h2 h3, if_pos ⟨rfl, rfl⟩]
  dsimp only
  have ar : ∀ x, isF (setF LINK_CTRL_EN i x s) LINK_CTRL_AUTO_RETRAIN i = isF s LINK_CTRL_AUTO_RETRAIN i := fun x => by
    unfold isF; rw [getF_setF_apart (by decide)]
  have en : getF (setF LINK_CTRL_EN i (v % 2) s) LINK_CTRL_EN i = v % 2 := (getF_setF_self _ _ _ _ (by decide)).trans (Nat.mod_mod _ _)
  refine ⟨?_, fun h0 hv hr => ?_, fun h6 => ?_⟩
  · have k := (leaveOff_keeps (Has.refl _) i (heldToDown_keeps (Has.refl _) i (Keeps.refl _ (setF LINK_CTRL_EN i (v % 2) s)))).getFk reg_LINK_CTRL_EN (by decide) i 0
    exact k.trans en
  · unfold heldToDown
    rw [getF_setF_apart (by decide), h0, if_neg (by decide)]
    unfold leaveOff
    rw [getF_setF_apart (by decide), h0, getF_setF_apart (by decide), ar]
    rw [if_pos ⟨rfl, by unfold isF; rw [en, hv]; rfl, hr⟩, getF_setF_self _ _ _ _ (by decide)]
    split <;> rfl
  · unfold heldToDown
    rw [getF_setF_apart (by decide), h6, if_pos rfl, ar]
    unfold leaveOff
    split
    · rw [getF_setF_self _ _ _ _ (by decide), if_neg (fun h => absurd h.1 (by decide)), getF_setF_self _ _ _ _ (by decide)]; rfl
    · rw [getF_setF_self _ _ _ _ (by decide), if_neg (fun h => absurd h.1 (by decide)), getF_setF_self _ _ _ _ (by decide)]; rfl

theorem autoRetrain_effect (p : Nat) (s : State) (h1 : stopped s = false) (h2 : domOn s (92 + p) = true) (h3 : getF s LINK_STAT_STATE p = 1) (h4 : isF s LINK_CTRL_AUTO_RETRAIN p = true) :
    getF (runningIn (92 + p) s (autoRetrain p s)) LINK_STAT_STATE p = 2 := by
  rw [runningIn_eq _ _ h1 h2]
  unfold autoRetrain
  rw [if_pos ⟨h3, h4⟩]
  exact getF_setF_self _ _ _ _ (by decide)

theorem trainDone_effect (p : Nat) (s : State) (h1 : stopped s = false) (h2 : domOn s (92 + p) = true) (h3 : getF s LINK_STAT_STATE p = 2) :
    getF (runningIn (92 + p) s (trainDone p s)) LINK_STAT_STATE p = 3 ∧ portOf (runningIn (92 + p) s (trainDone p s)) p = { rxq := (portOf s p).rxq, fwd := (portOf s p).fwd, headHeld := (portOf s p).headHeld } := by
  rw [runningIn_eq _ _ h1 h2]
  unfold trainDone
  rw [if_pos h3]
  refine ⟨?_, by rw [portOf_modPort_self]; rfl⟩
  show getF (setF LINK_STAT_STATE p 3 s) _ _ = _
  exact getF_setF_self _ _ _ _ (by decide)

theorem trainFail_effect (p : Nat) (s : State) (h1 : stopped s = false) (h2 : domOn s (92 + p) = true) (h3 : getF s LINK_STAT_STATE p = 2) :
    getF (runningIn (92 + p) s (trainFail p s)) LINK_STAT_STATE p = 1 ∧ getF (runningIn (92 + p) s (trainFail p s)) LINK_STAT_REASON p = 3 := by
  rw [runningIn_eq _ _ h1 h2]
  unfold trainFail
  rw [if_pos h3]
  refine ⟨?_, show getF (setF LINK_STAT_REASON p 3 (setF LINK_STAT_STATE p 1 s)) _ _ = _ from getF_setF_self _ _ _ _ (by decide)⟩
  show getF (setF LINK_STAT_REASON p 3 (setF LINK_STAT_STATE p 1 s)) _ _ = _
  rw [getF_setF_apart (by decide), getF_setF_self _ _ _ _ (by decide)]
  rfl

theorem identSend_effect (p : Nat) (s : State) (h1 : stopped s = false) (h2 : domOn s (92 + p) = true) (h3 : getF s LINK_STAT_STATE p = 3) (h4 : (portOf s p).identGot = none) :
    (∃ f, (runningIn (92 + p) s (identSend p s)).out = s.out ++ [.frame p f] ∧ f.type = 0xA ∧ f.vc = 3 ∧ f.src = selfId s ∧ f.payload = identRecord s p) ∧ (portOf (runningIn (92 + p) s (identSend p s)) p).identSent = true := by
  rw [runningIn_eq _ _ h1 h2]
  unfold identSend
  rw [if_pos ⟨h3, h4⟩]
  unfold sendUnseq
  exact ⟨⟨_, rfl, rfl, rfl, rfl, rfl⟩, by rw [portOf_modPort_self]⟩

theorem linkCtrl_pass {s : State} {r : Requester} {a v b i : Nat} (f : Nat → State → State) (h1 : a % 4 = 0)
    (h2 : target s r a = some (7, i, 0x10)) (h3 : gate s r 7 i 0x10 = .pass) (h4 : v.testBit b = true) : linkCtrl r a v b f s = f i s := by
  unfold linkCtrl
  rw [if_pos h1, guarded_pass h2 h3, if_pos ⟨rfl, rfl, h4⟩]

/-- A port that enters UP shows it, and its topology entry stays (R384). -/
theorem enterUp_spec (p : Nat) (s : State) : getF (enterUp p s) LINK_STAT_STATE p = 5 ∧ getF (enterUp p s) LINK_STAT_MIS p = 0 ∧
    evtSet (enterUp p s) LINK_EV_UP p = true ∧ (∀ q, portOf (enterUp p s) q = portOf s q) ∧
    (∀ g, fldIn g = true → g ≠ LINK_STAT_STATE → g ≠ LINK_STAT_MIS → g ≠ LINK_STAT_REASON → g ≠ pendFld 7 → getF (enterUp p s) g p = getF s g p) := by
  have fb : ∀ x : State, (failback p x).regs = x.regs ∧ (failback p x).ports = x.ports := fun x => by
    have : ∀ l y, (sendMarks p l y).regs = y.regs ∧ (sendMarks p l y).ports = y.ports := fun l => by
      induction l with
      | nil => exact fun y => ⟨rfl, rfl⟩
      | cons e l ih =>
        intro y
        obtain ⟨k, t⟩ := e
        rw [sendMarks]
        split
        · exact ⟨(ih _).1, (ih _).2⟩
        · exact ih y
    exact this _ _
  unfold enterUp
  generalize hx : setEvt LINK_EV_UP p (setF LINK_STAT_MIS p 0 (setF LINK_STAT_REASON p 0 (setF LINK_STAT_STATE p 5 s))) = x
  have a : getF x LINK_STAT_STATE p = 5 := by
    rw [← hx, getF_setEvt_apart (by decide), getF_setF_apart (by decide), getF_setF_apart (by decide), getF_setF_self _ _ _ _ (by decide)]; rfl
  have b : getF x LINK_STAT_MIS p = 0 := by
    rw [← hx, getF_setEvt_apart (by decide), getF_setF_self _ _ _ _ (by decide)]; rfl
  have c : evtSet x LINK_EV_UP p = true := by rw [← hx]; exact evtSet_setEvt (by decide) _ _
  have d : ∀ q, portOf x q = portOf s q := fun q => by rw [← hx]; unfold portOf; simp
  have e : ∀ g, fldIn g = true → g ≠ LINK_STAT_STATE → g ≠ LINK_STAT_MIS → g ≠ LINK_STAT_REASON → g ≠ pendFld 7 → getF x g p = getF s g p :=
    fun g hg h1 h2 h3 h4 => by
      rw [← hx]
      unfold getF
      rw [getFk_setEvt_fld (e := LINK_EV_UP) (by decide) hg h4.symm, setF, getFk_setFk_fld (by decide) hg h2.symm, setF, getFk_setFk_fld (by decide) hg h3.symm,
        setF, getFk_setFk_fld (by decide) hg h1.symm]
  clear hx
  dsimp only
  split
  · have g : ∀ f, getF (failback p x) f p = getF x f p := fun f => by unfold getF getFk; rw [(fb x).1]
    refine ⟨(g _).trans a, (g _).trans b, ?_, fun q => ?_, fun f h1 h2 h3 h4 h5 => (g f).trans (e f h1 h2 h3 h4 h5)⟩
    · rw [← c]; unfold evtSet; rw [g]
    · rw [← d]; unfold portOf; rw [(fb x).2]
  · exact ⟨a, b, c, d, e⟩

/-- The comparison of an identity with the topology entry (R387). -/
theorem judgeIdent_spec (p : Nat) (rcd : List Byte) (s : State) :
    getF (judgeIdent p rcd s) LINK_STAT_STATE p = (if misBits s p rcd = 0 then 5 else 4) ∧
    getF (judgeIdent p rcd s) LINK_STAT_MIS p = misBits s p rcd % 32 ∧ (∀ q, portOf (judgeIdent p rcd s) q = portOf s q) := by
  unfold judgeIdent
  dsimp only
  split
  · next h =>
    obtain ⟨a, b, c, d, e⟩ := enterUp_spec p s
    exact ⟨a, by rw [b, h], d⟩
  · next h =>
    refine ⟨?_, ?_, fun q => by unfold portOf; simp⟩
    · rw [getF_setEvt_apart (by decide), getF_setF_apart (by decide), getF_setF_self _ _ _ _ (by decide)]; rfl
    · rw [getF_setEvt_apart (by decide), getF_setF_self _ _ _ _ (by decide)]; rfl

theorem confirm_effect (r : Requester) (a v : Nat) (i : Nat) (rcd : List Byte) (s : State) (h1 : a % 4 = 0) (h2 : target s r a = some (7, i, 0x10)) (h3 : gate s r 7 i 0x10 = .pass) (h4 : v.testBit 3 = true) (h5 : getF s LINK_STAT_STATE i = 4) (h6 : (portOf s i).identGot = some rcd) (h7 : rolePair (portRole i) (bits (leVal ((rcd.drop 10).take 1)) 5 3) = true) :
    getF (linkCtrl r a v 3 confirmPort s) LINK_STAT_STATE i = 5 ∧ getF (linkCtrl r a v 3 confirmPort s) LINK_STAT_MIS i = 0 ∧ evtSet (linkCtrl r a v 3 confirmPort s) LINK_EV_UP i = true ∧ getF (linkCtrl r a v 3 confirmPort s) LINK_TOPO_SER_LO i = leVal (rcd.take 4) % 2 ^ 32 ∧ getF (linkCtrl r a v 3 confirmPort s) LINK_TOPO_PEER_BOARD i = bits (leVal ((rcd.drop 8).take 2)) 0 9 % 2 ^ 9 ∧ getF (linkCtrl r a v 3 confirmPort s) LINK_TOPO_PEER_POS i = bits (leVal ((rcd.drop 8).take 2)) 9 3 % 2 ^ 3 ∧ getF (linkCtrl r a v 3 confirmPort s) LINK_TOPO_PEER_PORT i = bits (leVal ((rcd.drop 10).take 1)) 0 5 % 2 ^ 5 := by
  rw [linkCtrl_pass _ h1 h2 h3 h4]
  unfold confirmPort
  rw [if_pos h5, h6]
  dsimp only
  rw [if_pos h7]
  generalize hx : setF LINK_TOPO_PEER_BOARD i _ _ = x
  obtain ⟨a, b, c, d, e⟩ := enterUp_spec i x
  refine ⟨a, b, c, ?_, ?_, ?_, ?_⟩
  · rw [e _ (by decide) (by decide) (by decide) (by decide) (by decide), ← hx, getF_setF_apart (by decide), getF_setF_apart (by decide), getF_setF_apart (by decide)]
    exact getF_setF_self _ _ _ _ (by decide)
  · rw [e _ (by decide) (by decide) (by decide) (by decide) (by decide), ← hx]
    exact getF_setF_self _ _ _ _ (by decide)
  · rw [e _ (by decide) (by decide) (by decide) (by decide) (by decide), ← hx, getF_setF_apart (by decide)]
    exact getF_setF_self _ _ _ _ (by decide)
  · rw [e _ (by decide) (by decide) (by decide) (by decide) (by decide), ← hx, getF_setF_apart (by decide), getF_setF_apart (by decide)]
    exact getF_setF_self _ _ _ _ (by decide)

theorem recheck_effect (r : Requester) (a v : Nat) (i : Nat) (rcd : List Byte) (s : State) (h1 : a % 4 = 0) (h2 : target s r a = some (7, i, 0x10)) (h3 : gate s r 7 i 0x10 = .pass) (h4 : v.testBit 4 = true) (h5 : getF s LINK_STAT_STATE i = 4) (h6 : (portOf s i).identGot = some rcd) :
    getF (linkCtrl r a v 4 recheckPort s) LINK_STAT_STATE i = (if misBits s i rcd = 0 then 5 else 4) ∧ getF (linkCtrl r a v 4 recheckPort s) LINK_STAT_MIS i = misBits s i rcd % 32 := by
  rw [linkCtrl_pass _ h1 h2 h3 h4]
  unfold recheckPort
  rw [h5]
  show (match (portOf s i).identGot with | some rcd => judgeIdent i rcd s | none => s) |> fun x => getF x _ _ = _ ∧ getF x _ _ = _
  rw [h6]
  obtain ⟨a, b, -⟩ := judgeIdent_spec i rcd s
  exact ⟨a, b⟩

theorem recheckDown_effect (r : Requester) (a v : Nat) (i : Nat) (s : State) (h1 : a % 4 = 0) (h2 : target s r a = some (7, i, 0x10)) (h3 : gate s r 7 i 0x10 = .pass) (h4 : v.testBit 4 = true) (h5 : getF s LINK_STAT_STATE i = 1) :
    getF (linkCtrl r a v 4 recheckPort s) LINK_STAT_STATE i = 2 := by
  rw [linkCtrl_pass _ h1 h2 h3 h4]
  unfold recheckPort
  rw [h5]
  exact getF_setF_self _ _ _ _ (by decide)

theorem marking_mono (p k : Nat) : ∀ (l : List (Nat × TxStream)) (s : State), (txOf s k).marking = true → (txOf (sendMarks p l s) k).marking = true
  | [], _, h => h
  | (j, t) :: l, s, h => by
    rw [sendMarks]
    split
    · refine marking_mono p k l _ ?_
      unfold modTx txOf
      dsimp only
      by_cases e : j = k
      · subst e; rw [Store.get_upd_self]
      · rw [Store.get_upd_ne e]; exact h
    · exact marking_mono p k l s h

theorem marks_sent (p k : Nat) (t : TxStream) (hk : k % 32 = p) (hd : t.detour = true) (hm : t.marking = false) (l : List (Nat × TxStream)) :
    ∀ s : State, (k, t) ∈ l → (txOf (sendMarks p l s) k).marking = true := by
  induction l with
  | nil => exact fun s h => absurd h List.not_mem_nil
  | cons e l ih =>
    intro s h
    obtain ⟨j, w⟩ := e
    rw [sendMarks]
    rcases List.mem_cons.1 h with e | h
    · obtain ⟨rfl, rfl⟩ := Prod.mk.inj e
      rw [if_pos ⟨hk, hd, by rw [hm]; rfl⟩]
      refine marking_mono p k l _ ?_
      unfold modTx txOf
      dsimp only
      rw [Store.get_upd_self]
    · split
      · exact ih _ h
      · exact ih s h

theorem linkRestore_effect (r : Requester) (a v : Nat) (i : Nat) (s : State) (h1 : a % 4 = 0) (h2 : target s r a = some (7, i, 0x10)) (h3 : gate s r 7 i 0x10 = .pass) (h4 : v.testBit 5 = true) (h5 : getF s LINK_STAT_STATE i = 5) :
    ∀ k t, (k, t) ∈ s.txStreams → k % 32 = i → t.detour = true → t.marking = false → (txOf (linkCtrl r a v 5 restorePort s) k).marking = true := by
  rw [linkCtrl_pass _ h1 h2 h3 h4]
  unfold restorePort
  unfold portUp
  rw [h5, if_pos (by decide)]
  exact fun k t h hk hd hm => marks_sent i k t hk hd hm _ s h

/-- What a dying port shows (R392). -/
theorem portDeath_spec (p reason : Nat) (s : State) (h : getF s LINK_STAT_STATE p = 5) (hr : reason < 16) :
    getF (portDeath p reason s) LINK_STAT_STATE p = 1 ∧ getF (portDeath p reason s) LINK_STAT_REASON p = reason ∧
    getF (portDeath p reason s) LINK_DEATHS p = (getF s LINK_DEATHS p + 1) % 2 ^ 32 ∧ evtSet (portDeath p reason s) LINK_EV_DOWN p = true ∧
    (portOf (portDeath p reason s) p).retryBuf = [] := by
  unfold portDeath
  rw [show portUp s p = true from by unfold portUp; rw [h]; rfl]
  simp only [if_true]
  generalize hs1 : (if getF s LINK_ERR_INFO_REASON p = 0 then _ else s : State) = s1
  have d1 : getF s1 LINK_DEATHS p = getF s LINK_DEATHS p := by
    rw [← hs1]; split
    · rw [getF_setF_apart (by decide), getF_setF_apart (by decide)]
    · rfl
  clear hs1
  generalize hs2 : setEvt LINK_EV_DOWN p (incr LINK_DEATHS p (setF LINK_STAT_REASON p reason (setF LINK_STAT_STATE p 1 s1))) = s2
  have a2 : getF s2 LINK_STAT_STATE p = 1 := by
    rw [← hs2, getF_setEvt_apart (by decide), getF_incr_apart (by decide), getF_setF_apart (by decide), getF_setF_self _ _ _ _ (by decide)]; rfl
  have b2 : getF s2 LINK_STAT_REASON p = reason := by
    rw [← hs2, getF_setEvt_apart (by decide), getF_incr_apart (by decide), getF_setF_self _ _ _ _ (by decide)]
    exact Nat.mod_eq_of_lt hr
  have c2 : getF s2 LINK_DEATHS p = (getF s LINK_DEATHS p + 1) % 2 ^ 32 := by
    rw [← hs2, getF_setEvt_apart (by decide), getF_incr_self _ _ _ (by decide), getF_setF_apart (by decide), getF_setF_apart (by decide), d1]
  have e2 : evtSet s2 LINK_EV_DOWN p = true := by rw [← hs2]; exact evtSet_setEvt (by decide) _ _
  clear hs2
  generalize hs3 : countCopies _ (detourStreams p _) = s3
  have g3 : ∀ g, g.page = 7 → getF s3 g p = getF s2 g p := fun g hg => by
    rw [← hs3]
    have : ∀ l x, getF (countCopies l x) g p = getF x g p := fun l => by
      induction l with
      | nil => exact fun x => rfl
      | cons f l ih =>
        intro x
        rw [countCopies, ih]
        split
        · unfold countOrig
          split
          · exact getFk_setFk_page _ _ _ _ _ _ _ _ (by rw [hg]; decide)
          · rfl
        · rfl
    exact this _ _
  clear hs3
  generalize hs4 : (if hasDetour s3 p = true then _ else s3 : State) = s4
  have g4 : ∀ g, fldIn g = true → g ≠ LINK_STAT_DETOUR → g ≠ pendFld 7 → getF s4 g p = getF s3 g p := fun g hg h1 h2 => by
    rw [← hs4]
    split
    · unfold getF
      rw [getFk_setEvt_fld (e := LINK_EV_DETOUR) (by decide) hg h2.symm, setF, getFk_setFk_fld (by decide) hg h1.symm]
    · rfl
  have e4 : evtSet s4 LINK_EV_DOWN p = true := by
    have e3 : evtSet s3 LINK_EV_DOWN p = true := by rw [← e2]; unfold evtSet; rw [g3 _ rfl]
    rw [← hs4]
    split
    · exact evtSet_setEvt_of (by rw [evtSet_setF (by decide)]; exact e3) (by decide)
    · exact e3
  clear hs4
  have ss : ∀ m n x, (∀ g, getF (sendStates m n x) g p = getF x g p) ∧ ((portOf x p).retryBuf = [] → (portOf (sendStates m n x) p).retryBuf = []) := fun m n => by
    induction n with
    | zero => exact fun x => ⟨fun _ => rfl, id⟩
    | succ n ih =>
      intro x
      rw [sendStates]
      split
      · refine ⟨(ih x).1, fun hh => ?_⟩
        unfold sendUnseq
        dsimp only
        rw [portOf_emit]
        by_cases e : n = p
        · subst e; rw [portOf_modPort_self]; exact (ih x).2 hh
        · rw [portOf_modPort_ne _ e]; exact (ih x).2 hh
      · exact ih x
  have fin : ∀ f g, getF (modPort p f (modSluice (512 + p) g s4)) = getF s4 := fun f g => rfl
  refine ⟨?_, ?_, ?_, ?_, (ss _ _ _).2 (by rw [portOf_modPort_self])⟩
  · rw [(ss _ _ _).1, fin, g4 _ (by decide) (by decide) (by decide), g3 _ rfl, a2]
  · rw [(ss _ _ _).1, fin, g4 _ (by decide) (by decide) (by decide), g3 _ rfl, b2]
  · rw [(ss _ _ _).1, fin, g4 _ (by decide) (by decide) (by decide), g3 _ rfl, c2]
  · rw [← e4]; unfold evtSet; rw [(ss _ _ _).1, fin]

theorem laneLoss_effect (p : Nat) (s : State) (h1 : stopped s = false) (h2 : domOn s (92 + p) = true) (h3 : getF s LINK_STAT_STATE p = 5) :
    getF (runningIn (92 + p) s (laneLoss p s)) LINK_STAT_STATE p = 1 ∧ getF (runningIn (92 + p) s (laneLoss p s)) LINK_STAT_REASON p = 1 ∧ getF (runningIn (92 + p) s (laneLoss p s)) LINK_DEATHS p = (getF s LINK_DEATHS p + 1) % 2 ^ 32 ∧ evtSet (runningIn (92 + p) s (laneLoss p s)) LINK_EV_DOWN p = true ∧ (portOf (runningIn (92 + p) s (laneLoss p s)) p).retryBuf = [] := by
  rw [runningIn_eq _ _ h1 h2]
  exact portDeath_spec p 1 s h3 (by decide)

theorem forceDown_effect (r : Requester) (a v : Nat) (i : Nat) (s : State) (h1 : a % 4 = 0) (h2 : target s r a = some (7, i, 0x10)) (h3 : gate s r 7 i 0x10 = .pass) (h4 : v.testBit 6 = true) (h5 : getF s LINK_STAT_STATE i = 5) :
    getF (linkCtrl r a v 6 forceDownPort s) LINK_STAT_STATE i = 1 ∧ getF (linkCtrl r a v 6 forceDownPort s) LINK_STAT_REASON i = 5 ∧ getF (linkCtrl r a v 6 forceDownPort s) LINK_DEATHS i = (getF s LINK_DEATHS i + 1) % 2 ^ 32 ∧ evtSet (linkCtrl r a v 6 forceDownPort s) LINK_EV_DOWN i = true ∧ (portOf (linkCtrl r a v 6 forceDownPort s) i).retryBuf = [] := by
  rw [linkCtrl_pass _ h1 h2 h3 h4]
  unfold forceDownPort
  rw [if_neg (by rw [h5]; decide)]
  exact portDeath_spec i 5 s h5 (by decide)

theorem forceDownMisplaced_effect (r : Requester) (a v : Nat) (i : Nat) (s : State) (h1 : a % 4 = 0) (h2 : target s r a = some (7, i, 0x10)) (h3 : gate s r 7 i 0x10 = .pass) (h4 : v.testBit 6 = true) (h5 : getF s LINK_STAT_STATE i = 4) :
    getF (linkCtrl r a v 6 forceDownPort s) LINK_STAT_STATE i = (if isF s LINK_CTRL_AUTO_RETRAIN i then 2 else 1) ∧ getF (linkCtrl r a v 6 forceDownPort s) LINK_STAT_REASON i = 5 ∧ getF (linkCtrl r a v 6 forceDownPort s) LINK_STAT_MIS i = 0 := by
  rw [linkCtrl_pass _ h1 h2 h3 h4]
  unfold forceDownPort
  rw [if_pos h5]
  unfold toDown
  dsimp only
  have e : isF (modPort i (fun x => { x with retrainArmed := true }) (setF LINK_STAT_REASON i 5 (setF LINK_STAT_MIS i 0 s))) LINK_CTRL_AUTO_RETRAIN i = isF s LINK_CTRL_AUTO_RETRAIN i := by
    show isF (setF LINK_STAT_REASON i 5 (setF LINK_STAT_MIS i 0 s)) _ _ = _
    unfold isF; rw [getF_setF_apart (by decide), getF_setF_apart (by decide)]
  have g : ∀ f g, getF (modPort i f (setF LINK_STAT_REASON i 5 (setF LINK_STAT_MIS i 0 s))) g i = getF (setF LINK_STAT_REASON i 5 (setF LINK_STAT_MIS i 0 s)) g i := fun _ _ => rfl
  rw [e]
  refine ⟨?_, ?_, ?_⟩
  · rw [getF_setF_self _ _ _ _ (by decide)]; split <;> rfl
  · rw [getF_setF_apart (by decide), g, getF_setF_self _ _ _ _ (by decide)]; rfl
  · rw [getF_setF_apart (by decide), g, getF_setF_apart (by decide), getF_setF_self _ _ _ _ (by decide)]; rfl

theorem clearK_spec (p : Nat) (g : Fld) (hg : fldIn g = true) (hc : g.cls.contains .k = true) : ∀ (l : List Fld) (s : State), (∀ f ∈ l, fldIn f = true ∧ f.w ≤ 32) →
    g ∈ l ∨ getF s g p = fldReset g p % 2 ^ g.w → getF (clearK p l s) g p = fldReset g p % 2 ^ g.w
  | [], s, _, h => h.elim (fun h => absurd h List.not_mem_nil) id
  | f :: l, s, hl, h => by
    rw [clearK]
    refine clearK_spec p g hg hc l _ (fun x hx => hl x (List.mem_cons_of_mem _ hx)) ?_
    by_cases e : f = g
    · subst e
      rw [if_pos hc]
      exact .inr (getF_setF_self _ _ _ _ (hl f List.mem_cons_self).2)
    · rcases h with h | h
      · exact .inl ((List.mem_cons.1 h).resolve_left (Ne.symm e))
      · refine .inr (Eq.trans ?_ h)
        split
        · exact getFk_setFk_fld (hl f List.mem_cons_self).1 hg e _ _
        · rfl

theorem portRst_effect (r : Requester) (a v : Nat) (s : State) (h1 : a % 4 = 0) (h2 : target s r a = some (13, 0, 0x124)) (h3 : gate s r 13 0 0x124 = .pass) (h4 : v % 32 < 24) :
    (∀ f ∈ fldsLINK, f.cls.contains .k = true → f ≠ LINK_STAT_STATE → getF (portRst r a v s) f (v % 32) = fldReset f (v % 32) % 2 ^ f.w) ∧ getF (portRst r a v s) LINK_STAT_STATE (v % 32) ≤ 2 ∧ (portOf (portRst r a v s) (v % 32)).retryBuf = [] ∧ (portOf (portRst r a v s) (v % 32)).credit = [0, 0, 0] := by
  unfold portRst
  rw [if_pos h1, guarded_pass h2 h3, if_pos ⟨rfl, rfl, h4⟩]
  generalize v % 32 = p
  unfold resetPort
  have all : ∀ f ∈ fldsLINK, fldIn f = true ∧ f.w ≤ 32 := by decide +kernel
  have st : getF (clearK p fldsLINK (portDeath p 6 s)) LINK_STAT_STATE p = 0 := by
    rw [clearK_spec p LINK_STAT_STATE (by decide) (by decide) _ _ all (.inl (by decide))]; rfl
  generalize hx : clearK p fldsLINK (portDeath p 6 s) = x at st
  have pt : ∀ f, portOf (leaveOff p (modPort p f x)) p = f (portOf x p) := fun f => by
    rw [show f (portOf x p) = portOf (modPort p f x) p from (portOf_modPort_self ..).symm]; unfold leaveOff portOf; split <;> rfl
  refine ⟨fun f hf hc hne => ?_, ?_, by rw [pt], by rw [pt]⟩
  · have e : getF (leaveOff p (modPort p (fun x => { rxq := x.rxq, fwd := x.fwd, headHeld := x.headHeld }) x)) f p = getF x f p := by
      unfold leaveOff
      split
      · exact getFk_setFk_fld (by decide) (all f hf).1 hne.symm _ _
      · rfl
    rw [e, ← hx]
    exact clearK_spec p f (all f hf).1 hc _ _ all (.inl hf)
  · unfold leaveOff
    split
    · rw [getF_setF_self _ _ _ _ (by decide)]
      split <;> decide
    · show getF x _ _ ≤ 2
      rw [st]; decide

end Sys2Proof.Machine
end

