-- ==== Sys2Proof/Laws/EffectsResets.lean ====
section
/-! SUPPORT. What the commands do: the commands of resets. -/

namespace Sys2Proof.Machine

set_option linter.unusedSimpArgs false

theorem find_filterMap_key {α : Type} (g : Nat × α → Option (Nat × α)) (hg : ∀ e e', g e = some e' → e'.1 = e.1) (k : Nat) (b : Bool)
    (hk : ∀ v, g (k, v) = if b then none else some (k, v)) : ∀ l : Store α, Store.find k (l.filterMap g) = if b then none else Store.find k l
  | [] => by cases b <;> rfl
  | (j, v) :: l => by
    have ih := find_filterMap_key g hg k b hk l
    by_cases h : j = k
    · subst h
      rw [List.filterMap_cons, hk, Store.find_cons]
      cases b
      · simp only [Bool.false_eq_true, if_false]
        rw [Store.find_cons]
        simp
      · simp only [if_true] at ih ⊢
        exact ih
    · rw [List.filterMap_cons, Store.find_cons]
      cases hgv : g (j, v) with
      | none =>
        dsimp only
        rw [ih]
        cases b <;> simp [h]
      | some e =>
        obtain ⟨j', v'⟩ := e
        have : j' = j := hg _ _ hgv
        subst this
        dsimp only
        rw [Store.find_cons, ih]
        cases b <;> simp [h]

theorem fields_apart : ∀ t < 20, (fldsOf t).all (fun f => (List.range f.cnt).all fun k =>
    decide (f.off + f.stride * k < 4096) && !([0xC, 0x18, 0x1C].contains (f.off + f.stride * k))) = true := by decide +kernel

theorem fldsOf_lt {t : Nat} {f : Fld} (h : f ∈ fldsOf t) : t < 20 := by
  refine Nat.lt_of_not_le fun hge => ?_
  have : fldsOf t = [] := by unfold fldsOf; split <;> first | omega | rfl
  rw [this] at h; cases h

theorem cellFld_fldKey {t : Nat} {f : Fld} (hf : f ∈ fldsOf t) (i k : Nat) :
    cellFld (fldKey f i k) = some (f, k % f.cnt) ∧ cellOff (fldKey f i k) ≠ 0x18 ∧ cellOff (fldKey f i k) ≠ 0x1C ∧ cellOff (fldKey f i k) ≠ 0xC ∧
    cellPage (fldKey f i k) = t := by
  have ht := fldsOf_lt hf
  have hr := mem_regsOf hf
  have hp := regsOf_page t ht f hr
  have hs := List.all_eq_true.1 (regsOf_stride t ht) f hr
  have ha := List.all_eq_true.1 (fields_apart t ht) f hf
  simp only [Bool.and_eq_true, Bool.or_eq_true, beq_iff_eq, bne_iff_ne, decide_eq_true_eq] at hs
  have hk : k % f.cnt < f.cnt := Nat.mod_lt _ hs.2
  have hb := List.all_eq_true.1 ha (k % f.cnt) (List.mem_range.2 hk)
  simp only [Bool.and_eq_true, decide_eq_true_eq, Bool.not_eq_true', List.contains_eq_mem, List.mem_cons, List.not_mem_nil, or_false,
    decide_eq_false_iff_not, not_or] at hb
  have ho : cellOff (fldKey f i k) = f.off + f.stride * (k % f.cnt) := (fldKey_off f i k).trans (Nat.mod_eq_of_lt hb.1)
  have hpg : cellPage (fldKey f i k) = t := (fldKey_page f i k).trans hp
  have hlo : cellLo (fldKey f i k) = f.lo := by
    refine (fldKey_lo f i k).trans (Nat.mod_eq_of_lt ?_)
    have := List.all_eq_true.1 (regsOf_ok t) f hr
    simp only [fldOk, Bool.and_eq_true, decide_eq_true_eq] at this
    omega
  refine ⟨?_, by rw [ho]; exact hb.2.2.1, by rw [ho]; exact hb.2.2.2, by rw [ho]; exact hb.2.1, hpg⟩
  unfold cellFld
  rw [hpg, ho, hlo]
  have hm : (f, k % f.cnt) ∈ fldsAt t (f.off + f.stride * (k % f.cnt)) := by
    rw [fldsAt_eq, List.mem_filterMap]
    exact ⟨f, hf, by rw [wordElem_self hk hs.1]; rfl⟩
  cases hfind : (fldsAt t (f.off + f.stride * (k % f.cnt))).find? fun e => e.1.lo == f.lo with
  | none =>
    have := List.find?_eq_none.1 hfind _ hm
    simp at this
  | some e =>
    have h1 := List.mem_of_find?_eq_some hfind
    have h2 := List.find?_some hfind
    rw [fldsAt_lo h1 hm (beq_iff_eq.1 h2)]

/-- A reset restores exactly the fields that carry its letter (R16, R589). -/
theorem getFk_restoreFlds {t : Nat} {f : Fld} (hf : f ∈ fldsOf t) (rc : Cls) (s : State) (i k : Nat) :
    getFk (restoreFlds rc everywhere s) f i k = if f.cls.contains rc then fldReset f i % 2 ^ 32 else getFk s f i k := by
  obtain ⟨h1, h2, h3, h4, h5⟩ := cellFld_fldKey hf i k
  have hk : ∀ v : Word, cellKept rc everywhere (fldKey f i k, v) = if f.cls.contains rc then none else some (fldKey f i k, v) := fun v => by
    unfold cellKept
    dsimp only
    rw [if_neg h2, if_neg h3, if_neg h4, h1]
    dsimp only
    rw [show everywhere (cellPage (fldKey f i k)) (cellInst (fldKey f i k)) (k % f.cnt) = true from rfl, Bool.and_true]
  have hg : ∀ e e', cellKept rc everywhere e = some e' → e'.1 = e.1 := fun e e' h => by
    unfold cellKept at h
    dsimp only at h
    repeat' split at h
    all_goals first | (cases h; rfl) | cases h
  unfold getFk restoreFlds Store.get
  dsimp only
  rw [find_filterMap_key _ hg _ _ hk]
  split
  · simp [BitVec.toNat_ofNat]
  · rfl

theorem coldReset_effect  (s : State) (h1 : s.inReset ≠ some .c) (h2 : s.brk.tripped = []) :
    (coldReset s).inReset = some .c ∧ (coldReset s).mem = [] ∧ (coldReset s).sram = [] ∧ (coldReset s).ctxs = [] ∧ (∀ t f, f ∈ fldsOf t → f.cls.contains .c = true → ∀ i k, getFk (coldReset s) f i k = fldReset f i % 2 ^ 32) ∧ (s.otpq = [] → (coldReset s).otp = s.otp) := by
  unfold coldReset
  rw [if_neg h1]
  unfold holdReset
  rw [h2]
  simp only [List.isEmpty_nil, if_true]
  unfold coldNow
  dsimp only
  refine ⟨rfl, rfl, rfl, rfl, fun t f hf hc i k => ?_, fun h => ?_⟩
  · show getFk (restoreFlds .c everywhere _) f i k = _
    rw [getFk_restoreFlds hf, if_pos hc]
  · unfold otpCut
    have e : (tallyFlushAll s).otpq = s.otpq := (tallyFlushAll_keeps (Has.refl _) (Keeps.refl _ s)).otpq (by decide)
    rw [e, h]
    exact (tallyFlushAll_keeps (Has.refl _) (Keeps.refl _ s)).otp (by decide)

theorem platformReset_effect  (s : State) (h1 : s.inReset = none) (h2 : s.brk.tripped = []) :
    (platformReset s).inReset = some .p ∧ (platformReset s).mem = (clearWips (allJobs s) (tallyFlushAll s)).mem ∧ (platformReset s).poison = (clearWips (allJobs s) (tallyFlushAll s)).poison ∧ (allJobs s = [] → (platformReset s).mem = s.mem ∧ (platformReset s).poison = s.poison) ∧ (platformReset s).mbx = s.mbx ∧ (platformReset s).otp = s.otp ∧ (platformReset s).sram = [] ∧ (platformReset s).ctxs = [] ∧ (∀ t f, f ∈ fldsOf t → f.cls.contains .p = true → ∀ i k, getFk (platformReset s) f i k = fldReset f i % 2 ^ 32) ∧ (∀ t f, f ∈ fldsOf t → f.cls.contains .p = false → ∀ i k, getFk (platformReset s) f i k = getFk s f i k) := by
  unfold platformReset
  rw [h1]
  simp only [Option.isSome_none, Bool.false_eq_true, if_false]
  unfold holdReset
  rw [h2]
  simp only [List.isEmpty_nil, if_true]
  unfold platformNow
  dsimp only
  have kt := tallyFlushAll_keeps (Has.refl _) (Keeps.refl _ s)
  have kp := clearWips_keeps (w₀ := 0x4004000000000000000000000000000000000008400000400c) ((Has.refl _).sub rfl) (allJobs s) (tallyFlushAll_keeps ((Has.refl _).sub rfl) (Keeps.refl _ s))
  refine ⟨rfl, rfl, rfl, fun h => ⟨by rw [h]; exact kt.mem (by decide), by rw [h]; exact kt.poison (by decide)⟩, kp.mbx (by decide), kp.otp (by decide), rfl, rfl, fun t f hf hc i k => ?_, fun t f hf hc i k => ?_⟩
  · show getFk (restoreFlds .p everywhere _) f i k = _
    rw [getFk_restoreFlds hf, if_pos hc]
  · show getFk (restoreFlds .p everywhere _) f i k = _
    rw [getFk_restoreFlds hf, if_neg (by rw [hc]; decide)]
    have hr := mem_regsOf hf
    have ha : f ∈ allRegs := mem_allRegs.2 (by rw [regsOf_page t (fldsOf_lt hf) f hr]; exact hr)
    refine (kp.sameBut_of (l := [.reg MEMCTL_ADDR_FAULT_CNT, evtPend 3, .mem, .poison, .clusters, .gauge, .out]) (by decide +kernel)).regs f ha i k ?_
    have n1 : f ≠ MEMCTL_ADDR_FAULT_CNT := fun e => by rw [e] at hc; exact absurd hc (by decide)
    have n2 : f ≠ pendFld 3 := fun e => by rw [e] at hc; exact absurd hc (by decide)
    simp [evtPend, n1, n2]

theorem faultReaction_faultN (cause source value : Nat) (s : State) (h : isF s BRKW_STAT_FAULT 0 = false) :
    (faultReaction cause source value s).faultN = true := by
  unfold faultReaction
  rw [h]
  simp only [Bool.false_eq_true, if_false]
  rw [(logFault_keeps (Has.refl _) cause source value (Keeps.refl _ _)).faultN (by decide),
    (domainsOff_keeps (Has.refl _) faultDomains (Keeps.refl _ _)).faultN (by decide),
    (quiesceMcs_keeps (Has.refl _) 16 (Keeps.refl _ _)).faultN (by decide), (tallyFlushAll_keeps (Has.refl _) (Keeps.refl _ _)).faultN (by decide)]
  rfl

theorem railResetTrip_effect (r mv : Nat) (l : Nat × Nat × Nat) (s : State) (h1 : railLevels r = some l) (h2 : mv < l.2.2) (h3 : s.inReset ≠ some .c) (h4 : s.brk.tripped = []) (h5 : isF s BRKW_STAT_FAULT 0 = false) :
    (railResetTrip r mv s).inReset = some .c ∧ (railResetTrip r mv s).faultN = true ∧ (railResetTrip r mv s).mem = [] ∧ (∀ t f, f ∈ fldsOf t → f.cls.contains .c = true → ∀ i k, getFk (railResetTrip r mv s) f i k = fldReset f i % 2 ^ 32) := by
  unfold railResetTrip
  rw [h1]
  dsimp only
  rw [if_pos ⟨h2, h3⟩]
  have k := faultReaction_keeps (Has.refl _) 1 r mv (Keeps.refl _ s)
  have fn := faultReaction_faultN 1 r mv s h5
  generalize faultReaction 1 r mv s = x at k fn
  unfold coldReset
  rw [if_neg (by rw [k.inReset (by decide)]; exact h3)]
  unfold holdReset
  rw [k.brk (by decide), h4]
  simp only [List.isEmpty_nil, if_true]
  unfold coldNow
  dsimp only
  refine ⟨rfl, ?_, rfl, fun t f hf hc i k => ?_⟩
  · exact ((otpCut_keeps (Has.refl _) (Keeps.refl _ _)).faultN (by decide)).trans
      (((tallyFlushAll_keeps (Has.refl _) (Keeps.refl _ _)).faultN (by decide)).trans fn)
  · show getFk (restoreFlds .c everywhere _) f i k = _
    rw [getFk_restoreFlds hf, if_pos hc]

theorem faultResetRelease_effect  (s : State) (h1 : s.brk.held = none) :
    (faultResetRelease s) = { s with brk := { s.brk with tripped := [] } } := by
  unfold faultResetRelease
  dsimp only
  rw [h1]

theorem faultResetReleaseHeld_effect  (s : State) (h1 : s.brk.held = some .c) :
    (faultResetRelease s).inReset = some .c ∧ (faultResetRelease s).brk.tripped = [] ∧ (faultResetRelease s).mem = [] ∧ (∀ t f, f ∈ fldsOf t → f.cls.contains .c = true → ∀ i k, getFk (faultResetRelease s) f i k = fldReset f i % 2 ^ 32) := by
  unfold faultResetRelease
  dsimp only
  rw [h1]
  dsimp only
  unfold coldNow
  dsimp only
  refine ⟨rfl, rfl, rfl, fun t f hf hc i k => ?_⟩
  show getFk (restoreFlds .c everywhere _) f i k = _
  rw [getFk_restoreFlds hf, if_pos hc]

theorem perstRelease_effect  (s : State) (h1 : s.inReset = some .p) :
    (perstRelease s).inReset = none ∧ (perstRelease s).faultN = false ∧ bootState (perstRelease s) = if bootState s = 2 ∨ bootState s = 3 then 2 else bootState s := by
  unfold perstRelease
  rw [if_pos h1]
  dsimp only
  have e : bootState { s with inReset := none, faultN := false } = bootState s := rfl
  rw [e]
  split
  · refine ⟨rfl, rfl, ?_⟩
    exact getF_setF_self _ _ _ _ (by decide)
  · exact ⟨rfl, rfl, e⟩

theorem coldResetRelease_effect (ms pos gaddr : Nat) (s : State) (h1 : 10 ≤ ms) (h2 : bootState s = 0) (h3 : s.inReset ≠ some .p) :
    (coldResetRelease ms pos gaddr s).inReset = none ∧ (coldResetRelease ms pos gaddr s).faultN = false ∧ (coldResetRelease ms pos gaddr s).strapPos = pos % 8 ∧ (coldResetRelease ms pos gaddr s).strapGaddr = gaddr % 4 ∧ bootState (coldResetRelease ms pos gaddr s) = 1 := by
  unfold coldResetRelease
  rw [if_pos ⟨h1, h2, h3⟩]
  exact ⟨rfl, rfl, rfl, rfl, getF_setF_self _ _ _ _ (by decide)⟩

theorem ctxOf_restoreFlds (rc : Cls) (sel : Nat → Nat → Nat → Bool) (s : State) (c : Nat) : ctxOf (restoreFlds rc sel s) c = ctxOf s c := rfl

theorem ctxsLost_succ (n : Nat) (s : State) : ctxsLost (n + 1) s = ctxLost n (ctxsLost n s) := rfl

theorem ctxsFlr_succ (n : Nat) (s : State) : ctxsFlr (n + 1) s = ctxFlr n (ctxsFlr n s) := rfl

theorem ctxOf_ctxLost (c : Nat) (s : State) : ctxOf (ctxLost c s) c = {} := by
  have d : ∀ x : Store Ctx, Store.get ({} : Ctx) (x.del c) c = {} := fun x => by unfold Store.get; rw [Store.find_del_self]; rfl
  unfold ctxLost ctxOf
  dsimp only
  exact d _

theorem linkReset_effect  (s : State) (h1 : s.inReset = none) (h2 : getF s PWR_STAT_STATE 0 ≠ 2) :
    (linkReset s).vfEnable = false ∧ (linkReset s).numVfs = 0 ∧ (linkReset s).hiLatch = [] ∧ ctxOf (linkReset s) 15 = {} ∧ (∀ t f, f ∈ fldsOf t → f.cls.contains .l = true → ∀ i k, getFk (linkReset s) f i k = fldReset f i % 2 ^ 32) := by
  unfold linkReset
  rw [if_neg (by rw [h1]; simpa using h2)]
  have k := ctxsLost_keeps (Has.refl _) 16 (Keeps.refl _ { s with vfEnable := false, numVfs := 0, hiLatch := [] })
  have c15 : ctxOf (ctxsLost 16 { s with vfEnable := false, numVfs := 0, hiLatch := [] }) 15 = {} := by
    rw [ctxsLost_succ 15]; exact ctxOf_ctxLost 15 _
  generalize ctxsLost 16 _ = y at k c15 ⊢
  refine ⟨k.vfEnable (by decide), k.numVfs (by decide), k.hiLatch (by decide), c15, fun t f hf hc i k => ?_⟩
  · rw [getFk_restoreFlds hf, if_pos hc]

theorem functionLevelReset_effect (fn : Nat) (s : State) (h1 : s.inReset = none) (h2 : vfEnabled s fn = true) (h3 : fn ≠ 0) :
    ctxOf (functionLevelReset fn s) fn = {} ∧ evtSet (functionLevelReset fn s) HOSTIF_EV_FLR 0 = true := by
  unfold functionLevelReset
  rw [h1]
  simp only [Option.isSome_none, Bool.false_eq_true, if_false]
  rw [if_neg h3, if_pos h2]
  refine ⟨?_, evtSet_setEvt (by decide) _ _⟩
  have e : ∀ x : State, ctxOf (setEvt HOSTIF_EV_FLR 0 x) fn = ctxOf x fn := fun x => by unfold ctxOf; simp
  rw [e]
  unfold ctxFlr
  rw [ctxOf_restoreFlds]
  exact ctxOf_ctxLost fn _

theorem functionLevelResetPf_effect  (s : State) (h1 : s.inReset = none) :
    (functionLevelReset 0 s).vfEnable = false ∧ (functionLevelReset 0 s).numVfs = 0 ∧ ctxOf (functionLevelReset 0 s) 15 = {} ∧ evtSet (functionLevelReset 0 s) HOSTIF_EV_FLR 0 = true := by
  unfold functionLevelReset
  rw [h1]
  simp only [Option.isSome_none, Bool.false_eq_true, if_false, if_true]
  refine ⟨by simp, by simp, ?_, evtSet_setEvt (by decide) _ _⟩
  have e : ∀ x : State, ctxOf (setEvt HOSTIF_EV_FLR 0 x) 15 = ctxOf x 15 := fun x => by unfold ctxOf; simp
  have e2 : ∀ x : State, ctxOf { x with vfEnable := false, numVfs := 0 } 15 = ctxOf x 15 := fun _ => rfl
  rw [e, e2, ctxsFlr_succ 15]
  unfold ctxFlr
  rw [ctxOf_restoreFlds]
  exact ctxOf_ctxLost 15 _

theorem vfEnable_effect (en : Bool) (n : Nat) (s : State) (h1 : s.inReset = none) (h2 : n ≤ 15) :
    (outOfReset s (vfEnableSet en n s)).vfEnable = en ∧ (outOfReset s (vfEnableSet en n s)).numVfs = n := by
  rw [outOfReset_eq _ h1]
  unfold vfEnableSet
  rw [if_pos h2]
  exact ⟨rfl, rfl⟩

theorem aerError_effect  (s : State) (h1 : s.inReset = none) :
    evtSet (outOfReset s (aerError s)) HOSTIF_EV_AER 0 = true := by
  rw [outOfReset_eq _ h1]
  exact evtSet_setEvt (by decide) _ _

theorem ctxResume_effect (h : Nat) (s : State) (h1 : stopped s = false) (h2 : cmdReady s h 0x62 = true) :
    (running s (ctxResume h s)).reports = s.reports ++ [{ handle := h, status := 0, r0 := 0, r1 := 0 }] ∧ getFk (running s (ctxResume h s)) HOSTIF_CTX_PRIO_PREEMPTED 0 (argOf (entryOf s h) 0) = 0 := by
  rw [running_eq _ h1]
  unfold ctxResume
  rw [runCmd_ready h2]
  refine ⟨by simp [report, modSlot], ?_⟩
  show getFk (setFk HOSTIF_CTX_PRIO_PREEMPTED 0 _ 0 _) _ _ _ = _
  rw [getFk_setFk_self _ _ _ _ _ (by decide)]
  rfl

theorem stepIsOpen_modSlot (c n : Nat) (f : Slot → Slot) (s : State) (d : Nat) : stepIsOpen (modSlot c n f s) d = stepIsOpen s d := by
  unfold stepIsOpen modSlot modCtx ctxOf
  dsimp only
  by_cases h : c = d
  · subst h; rw [Store.get_upd_self]
  · rw [Store.get_upd_ne h]

theorem ctxPreempt_effect (h : Nat) (s : State) (h1 : stopped s = false) (h2 : cmdReady s h 0x61 = true) (h3 : stepIsOpen s (argOf (entryOf s h) 0) = false) :
    getFk (running s (ctxPreempt h s)) HOSTIF_CTX_PRIO_PREEMPTED 0 (argOf (entryOf s h) 0) = 1 ∧ (ctxRunning (running s (ctxPreempt h s)) (argOf (entryOf s h) 0) = false → (running s (ctxPreempt h s)).reports.getLast? = some { handle := h, status := 0, r0 := 0, r1 := 0 }) := by
  rw [running_eq _ h1]
  unfold ctxPreempt
  rw [runCmd_ready h2]
  unfold entryOf at *
  generalize hs : (slotOf s (hCtx h) (hSlot h)).entry = e at *
  dsimp only
  rw [stepIsOpen_modSlot, h3]
  simp only [Bool.false_eq_true, if_false]
  generalize hx : modSlot (hCtx h) (hSlot h) _ s = x
  generalize argOf e 0 = c at *
  have p : getFk (if getFk x HOSTIF_CTX_PRIO_PREEMPTED 0 c = 1 then x else preemptBegin c x) HOSTIF_CTX_PRIO_PREEMPTED 0 c = 1 := by
    split
    · assumption
    · unfold preemptBegin
      dsimp only
      rw [(reports_keeps (Has.refl _) 0x11 _ (Keeps.refl _ _)).getFk_all reg_HOSTIF_CTX_PRIO_PREEMPTED (by decide),
        (abandonCtx_keeps (Has.refl _) c (Keeps.refl _ _)).getFk reg_HOSTIF_CTX_PRIO_PREEMPTED (by decide)]
      exact getFk_setFk_self _ _ _ _ _ (by decide)
  generalize (if getFk x HOSTIF_CTX_PRIO_PREEMPTED 0 c = 1 then x else preemptBegin c x) = y at p ⊢
  split
  · next hr => exact ⟨p, fun q => absurd q (by rw [show ctxRunning (unrunCmd h y) c = ctxRunning y c from rfl, hr]; decide)⟩
  · exact ⟨p, fun _ => by simp [report]⟩

theorem steps_modCtx (c d : Nat) (f : Ctx → Ctx) (s : State) (h : ∀ x, (f x).steps = x.steps) : (ctxOf (modCtx c f s) d).steps = (ctxOf s d).steps := by
  unfold modCtx ctxOf
  dsimp only
  by_cases e : c = d
  · subst e; rw [Store.get_upd_self, h]
  · rw [Store.get_upd_ne e]

theorem stepIsOpen_of {s t : State} {c : Nat} (h : (ctxOf t c).steps = (ctxOf s c).steps) : stepIsOpen t c = stepIsOpen s c := by
  unfold stepIsOpen; rw [h]

theorem steps_modSlot (c n : Nat) (f : Slot → Slot) (s : State) (d : Nat) : (ctxOf (modSlot c n f s) d).steps = (ctxOf s d).steps :=
  steps_modCtx _ _ _ _ fun _ => rfl

theorem steps_modQueue (c n : Nat) (f : Queue → Queue) (s : State) (d : Nat) : (ctxOf (modQueue c n f s) d).steps = (ctxOf s d).steps :=
  steps_modCtx _ _ _ _ fun _ => rfl

theorem steps_setEvt (e : Evt) (i : Nat) (s : State) (d : Nat) : (ctxOf (setEvt e i s) d).steps = (ctxOf s d).steps := by
  unfold ctxOf; simp

theorem steps_cqWrite (c q : Nat) (e : List Byte) (s : State) (d : Nat) : (ctxOf (cqWrite c q e s) d).steps = (ctxOf s d).steps := by
  have r : ∀ f i k v (x : State), (ctxOf (setFk f i k v x) d).steps = (ctxOf x d).steps := fun _ _ _ _ _ => rfl
  have r2 : ∀ f i v (x : State), (ctxOf (setF f i v x) d).steps = (ctxOf x d).steps := fun _ _ _ _ => rfl
  have r3 : ∀ f i (x : State), (ctxOf (incr f i x) d).steps = (ctxOf x d).steps := fun _ _ _ => rfl
  have r4 : ∀ a b (x : State), (ctxOf (hostWrite a b x) d).steps = (ctxOf x d).steps := fun _ _ _ => rfl
  have r5 : ∀ a (x : State), (ctxOf (emit a x) d).steps = (ctxOf x d).steps := fun _ _ => rfl
  have r6 : ∀ n (x : State), (ctxOf (modCtx c (fun x => { x with freed := x.freed ++ [n] }) x) d).steps = (ctxOf x d).steps := fun _ _ =>
    steps_modCtx _ _ _ _ fun _ => rfl
  have ite : ∀ (p : Prop) [Decidable p] (x y : State), (ctxOf (if p then x else y) d).steps = if p then (ctxOf x d).steps else (ctxOf y d).steps :=
    fun p _ x y => by split <;> rfl
  unfold cqWrite cqSignal freeSlot
  dsimp only
  split
  · rw [ite]
    simp only [steps_modQueue, steps_modSlot, r, r2, r3, r4, r5, r6, ite_self]
  · simp only [steps_modQueue, steps_modSlot, r, r2, r3, r4, r5, r6]

theorem steps_endCmds (st d : Nat) : ∀ (l : List Nat) (s : State), (ctxOf (endCmds st l s) d).steps = (ctxOf s d).steps
  | [], _ => rfl
  | h :: l, s => by
    rw [endCmds, steps_endCmds st d l]
    unfold endCmd cqPost
    dsimp only
    split
    · rw [steps_cqWrite, steps_modQueue, steps_modSlot]
    · rw [steps_setEvt, steps_modQueue, steps_modQueue, steps_modSlot]

theorem steps_skipEntries (c d : Nat) : ∀ (n : Nat) (s : State), (ctxOf (skipEntries c n s) d).steps = (ctxOf s d).steps
  | 0, _ => rfl
  | n + 1, s => by rw [skipEntries, steps_skipEntries c d n]; rfl

theorem skipEntries_spec (c q : Nat) : ∀ (n : Nat) (s : State), n ≤ 4 → q < 4 →
    getFk (skipEntries c n s) CQ_SQ_TAIL c q = getFk s CQ_SQ_TAIL c q ∧
    (q < n ∨ getFk s CQ_SQ_HEAD c q = getFk s CQ_SQ_TAIL c q % 2 ^ 16 →
      getFk (skipEntries c n s) CQ_SQ_HEAD c q = getFk s CQ_SQ_TAIL c q % 2 ^ 16)
  | 0, s, _, _ => ⟨rfl, fun h => h.elim (fun h => absurd h (Nat.not_lt_zero _)) id⟩
  | n + 1, s, hn, hq => by
    obtain ⟨a, b⟩ := skipEntries_spec c q n (setFk CQ_SQ_HEAD c n (getFk s CQ_SQ_TAIL c n) s) (by omega) hq
    have e : getFk (setFk CQ_SQ_HEAD c n (getFk s CQ_SQ_TAIL c n) s) CQ_SQ_TAIL c q = getFk s CQ_SQ_TAIL c q :=
      getFk_setFk_fld (by decide) (by decide) (by decide) _ _
    rw [e] at a b
    refine ⟨a, fun h => b ?_⟩
    by_cases hqn : q = n
    · subst hqn
      exact .inr (getFk_setFk_self CQ_SQ_HEAD _ _ _ _ (by decide))
    · rcases h with h | h
      · exact .inl (by omega)
      · refine .inr (Eq.trans ?_ h)
        exact getFk_setFk_off _ _ _ _ _ _ _ _ (by show (0x110 + 64 * (_ % 4)) % 4096 ≠ (0x110 + 64 * (_ % 4)) % 4096; omega)

theorem ctxResetX_spec (c h : Nat) (x : State) : stepIsOpen (ctxResetX c h x) c = false ∧
    ∀ q < 4, getFk (ctxResetX c h x) CQ_SQ_HEAD c q = getFk (ctxResetX c h x) CQ_SQ_TAIL c q % 2 ^ 16 := by
  unfold ctxResetX
  dsimp only
  have hf : ∀ y : State, stepIsOpen (modCtx c ctxForget y) c = false := fun y => by
    unfold stepIsOpen modCtx ctxOf
    dsimp only
    rw [Store.get_upd_self]
    rfl
  have k : ∀ l y, stepIsOpen (skipEntries c 4 (endCmds 3 l (modCtx c ctxForget y))) c = false := fun l y => by
    rw [stepIsOpen_of ((steps_skipEntries c c 4 _).trans (steps_endCmds 3 c l _)), hf]
  have k2 : ∀ y q, q < 4 → getFk (skipEntries c 4 y) CQ_SQ_HEAD c q = getFk (skipEntries c 4 y) CQ_SQ_TAIL c q % 2 ^ 16 := fun y q hq => by
    obtain ⟨a, b⟩ := skipEntries_spec c q 4 y (Nat.le_refl 4) hq
    rw [a]
    exact b (.inl hq)
  exact ⟨k _ _, fun q hq => k2 _ q hq⟩

theorem ctxReset_effect (h : Nat) (s : State) (h1 : stopped s = false) (h2 : cmdReady s h 0x60 = true) :
    (running s (ctxReset h s)).reports.getLast? = some { handle := h, status := 0, r0 := 0, r1 := 0 } ∧ stepIsOpen (running s (ctxReset h s)) (argOf (entryOf s h) 0) = false ∧ ∀ q < 4, getFk (running s (ctxReset h s)) CQ_SQ_HEAD (argOf (entryOf s h) 0) q = getFk (running s (ctxReset h s)) CQ_SQ_TAIL (argOf (entryOf s h) 0) q % 2 ^ 16 := by
  rw [running_eq _ h1]
  unfold ctxReset
  rw [runCmd_ready h2]
  have e1 : ∀ (x : State) d, stepIsOpen (report h 0 0 0 x) d = stepIsOpen x d := fun _ _ => rfl
  have e2 : ∀ (x : State) f d q, getFk (report h 0 0 0 x) f d q = getFk x f d q := fun _ _ _ _ => rfl
  rw [e1]
  refine ⟨by simp [report], (ctxResetX_spec _ _ _).1, fun q hq => ?_⟩
  rw [e2, e2]
  exact (ctxResetX_spec _ _ _).2 q hq

end Sys2Proof.Machine
end

