-- ==== Sys2Proof/Laws/Sight.lean ====
section
/-! SUPPORT. What module memory reads and stores depend on: the memory, its poison, the redirects and four register fields. -/

namespace Sys2Proof.Machine

/-- A mask that holds nothing that module memory is seen through. -/
def blind (w : Nat) : Bool :=
  !w.testBit 2 && !w.testBit 3 && !w.testBit 8 && !w.testBit (Part.reg MEMCTL_SPAN_LO).code && !w.testBit (Part.reg MEMCTL_SPAN_HI).code &&
    !w.testBit (Part.reg MEMCTL_CTRL_EN).code && !w.testBit (Part.reg PWR_DOM_STAT).code

/-- Two states see module memory alike. -/
structure Alike (s t : State) : Prop where
  mem : t.mem = s.mem
  poison : t.poison = s.poison
  look : ∀ d a, lookup t d a = lookup s d a
  red : ∀ c p o, redirect t c p o = redirect s c p o
  weak : noWeak t = noWeak s

theorem Alike.refl (s : State) : Alike s s := ⟨rfl, rfl, fun _ _ => rfl, fun _ _ _ => rfl, rfl⟩

theorem Alike.trans {s t v : State} (a : Alike s t) (b : Alike t v) : Alike s v :=
  ⟨b.mem.trans a.mem, b.poison.trans a.poison, fun d x => (b.look d x).trans (a.look d x), fun c p o => (b.red c p o).trans (a.red c p o),
    b.weak.trans a.weak⟩

/-- What is kept under a blind mask is seen alike. -/
theorem Keeps.alike {w : Nat} {s t : State} (K : Keeps w s t) (h : blind w = true) : Alike s t := by
  simp only [blind, Bool.and_eq_true, Bool.not_eq_true'] at h
  have ⟨regsKept, domKept⟩ := h
  have ⟨spansKept, enKept⟩ := regsKept
  have m := K.mcs spansKept.1.1.2
  have lo : ∀ i k, Machine.getFk t MEMCTL_SPAN_LO i k = Machine.getFk s MEMCTL_SPAN_LO i k := fun i k => K.getFk ⟨reg_MEMCTL_SPAN_LO.1, rfl⟩ spansKept.1.2 i k
  have hi : ∀ i k, Machine.getFk t MEMCTL_SPAN_HI i k = Machine.getFk s MEMCTL_SPAN_HI i k := fun i k => K.getFk ⟨reg_MEMCTL_SPAN_HI.1, rfl⟩ spansKept.2 i k
  have en : ∀ i, isF t MEMCTL_CTRL_EN i = isF s MEMCTL_CTRL_EN i := fun i => by
    unfold isF getF; rw [K.getFk ⟨reg_MEMCTL_CTRL_EN.1, rfl⟩ enKept i 0]
  have dom : ∀ n, domOn t n = domOn s n := fun n => by
    unfold domOn; rw [K.getFk ⟨reg_PWR_DOM_STAT.1, rfl⟩ domKept]
  refine ⟨K.mem spansKept.1.1.1.1, K.poison spansKept.1.1.1.2, fun d a => ?_, fun c p o => ?_, by unfold noWeak; rw [m]⟩
  · unfold lookup spanEntry
    dsimp only
    rw [lo, hi, en, dom]
  · unfold redirect mcOf
    rw [m]

theorem Alike.memRead {s t : State} (h : Alike s t) (d : Nat) : ∀ n a : Nat, memRead t d a n = memRead s d a n
  | 0, _ => rfl
  | n + 1, a => by
    unfold Sys2Proof.Machine.memRead
    rw [h.look, h.mem, h.poison]
    split
    · rw [h.red]
      split
      · rfl
      · rw [h.memRead d n]
    · rfl

theorem Alike.firstMiss {s t : State} (h : Alike s t) (d : Nat) : ∀ n a : Nat, firstMiss t d a n = firstMiss s d a n
  | 0, _ => rfl
  | n + 1, a => by
    unfold Sys2Proof.Machine.firstMiss
    rw [h.look]
    split
    · exact h.firstMiss d n _
    · rfl

/-- One byte that is stored leaves what memory is seen through. -/
theorem Alike.memPut {s t : State} (h : Alike s t) (d a : Nat) (b : Byte) : Alike (memPut d a b s) (memPut d a b t) := by
  unfold Sys2Proof.Machine.memPut
  rw [h.look]
  split
  · rw [h.red]
    split
    · exact ⟨by dsimp only; rw [h.mem], h.poison, fun d a => h.look d a, fun c p o => h.red c p o, h.weak⟩
    · exact h
  · exact h

theorem Alike.memPuts {s t : State} (d : Nat) : ∀ (bs : List Byte) (a : Nat) {s t : State}, Alike s t → Alike (memPuts d a bs s) (memPuts d a bs t)
  | [], _, _, _, h => h
  | b :: bs, a, _, _, h => Alike.memPuts (s := s) (t := t) d bs (a + 1) (h.memPut d a b)

theorem Alike.unpoison {s t : State} (h : Alike s t) (d a : Nat) : ∀ n : Nat, Alike (unpoison d a n s) (unpoison d a n t)
  | 0 => h
  | n + 1 => by
    unfold Sys2Proof.Machine.unpoison
    dsimp only
    have ih := h.unpoison d a n
    rw [h.look]
    split
    · rw [h.red]
      split
      · exact ⟨ih.mem, by dsimp only; rw [ih.poison], fun d a => ih.look d a, fun c p o => ih.red c p o, ih.weak⟩
      · exact ih
    · exact ih

/-- A store has the same effect on memory in states that see it alike. -/
theorem Alike.memStore {s t : State} (h : Alike s t) (d a : Nat) (bs : List Byte) : Alike (memStore d a bs s) (memStore d a bs t) := by
  unfold Sys2Proof.Machine.memStore memWrite
  rw [h.firstMiss]
  split
  · next l _ =>
    have n : ∀ x : State, Alike x (noteMiss l x) := fun x =>
      (noteMiss_keeps (Has.refl _) l (Keeps.refl _ x)).alike (by decide +kernel)
    exact ⟨(n t).mem.trans (h.mem.trans (n s).mem.symm), (n t).poison.trans (h.poison.trans (n s).poison.symm),
      fun d a => ((n t).look d a).trans ((h.look d a).trans ((n s).look d a).symm),
      fun c p o => ((n t).red c p o).trans ((h.red c p o).trans ((n s).red c p o).symm),
      (n t).weak.trans (h.weak.trans (n s).weak.symm)⟩
  · exact Alike.unpoison (Alike.memPuts (s := s) (t := t) d bs a h) _ _ _

/-- Where no access needs correction, a read of an engine that is answered leaves no trace. -/
theorem engRead_same {d cls a n : Nat} {bs : List Byte} {s t : State} (hw : noWeak s = true) (h : engRead d cls a n s = (.data bs, t)) :
    t = s := by
  have e : weakRows s d a n = [] := if_pos hw
  unfold engRead at h
  split at h <;> cases h
  rw [e]; rfl

theorem Alike.engRead_data {s t v : State} (h : Alike s t) (hw : noWeak s = true) {d cls a n : Nat} {bs : List Byte}
    (e : engRead d cls a n s = (.data bs, v)) : engRead d cls a n t = (.data bs, t) := by
  have e1 : weakRows t d a n = [] := if_pos (h.weak.trans hw)
  unfold engRead at e ⊢
  rw [h.memRead]
  split at e
  · next hx => cases e; rw [e1]; rfl
  · cases e
  · cases e

theorem Alike.mval {s t : State} (h : Alike s t) (d a n : Nat) : mval t d a n = mval s d a n := by
  unfold Sys2Proof.Machine.mval; rw [h.memRead]

theorem Alike.recGet {s t : State} (h : Alike s t) (b : Blk) (o n : Nat) : recGet t b o n = recGet s b o n := h.mval ..

theorem Alike.recPut {s t : State} (h : Alike s t) (b : Blk) (o n v : Nat) : Alike (recPut b o n v s) (recPut b o n v t) := h.memStore ..

theorem Alike.storeTiles {s t : State} (d base tb : Nat) : ∀ (l : List (List Byte)) (k : Nat) {s t : State}, Alike s t →
    Alike (storeTiles d base tb k l s) (storeTiles d base tb k l t)
  | [], _, _, _, h => h
  | x :: l, k, _, _, h => Alike.storeTiles (s := s) (t := t) d base tb l (k + 1) (h.memStore d _ x)

/-- Ranges that can be read follow one another. -/
theorem memRead_append {s : State} {d n : Nat} {y : List Byte} : ∀ {m a : Nat} {x : List Byte}, memRead s d a m = .data x → memRead s d (a + m) n = .data y →
    memRead s d a (m + n) = .data (x ++ y)
  | 0, a, x, hx, hy => by
    have : x = [] := by unfold memRead at hx; cases hx; rfl
    rw [this, Nat.zero_add]
    exact hy
  | m + 1, a, x, hx, hy => by
    have e : m + 1 + n = (m + n) + 1 := by omega
    rw [e]
    unfold memRead at hx ⊢
    split at hx
    · split at hx
      · cases hx
      · split at hx
        · cases hx
        · next hp =>
          split at hx
          · next hr =>
            cases hx
            rw [if_neg hp, memRead_append hr (by rw [Nat.add_assoc, Nat.add_comm 1 m]; exact hy)]
            rfl
          · next h => exact absurd hx (h _)
    · cases hx

/-- Bytes fed to a CRC follow one another. -/
theorem crcFeed_append (p : Nat) : ∀ (x y : List Byte) (c : Nat), crcFeed p c (x ++ y) = crcFeed p (crcFeed p c x) y
  | [], _, _ => rfl
  | b :: x, y, c => crcFeed_append p x y (crcByte p c b)

/-! ## Frames handed over -/

theorem queueFrame_sent (p : Nat) (f : Frame) (s : State) : (queueFrame p f s).sent = s.sent ++ [f.what] := by
  unfold queueFrame State.sent
  dsimp only
  generalize hx : detourStart p (streamKey f.dst f.ctx p) s = x
  have e : x.sendq = s.sendq := by subst hx; exact (detourStart_keeps (Has.refl _) _ _ (Keeps.refl _ s)).sendq (by decide)
  have c : ∀ y : State, (countOrig f.engine f.ctx y).sendq = y.sendq := fun y =>
    (countOrig_keeps (Has.refl _) _ _ (Keeps.refl _ y)).sendq (by decide)
  rw [c]
  show (x.sendq ++ [_]).map Frame.what = _
  rw [List.map_append, e]
  rfl

theorem spreadFrames_sent (ms : List Nat) : ∀ (fs : List Frame) (i : Nat) (s : State),
    (spreadFrames ms i fs s).sent = s.sent ++ fs.map Frame.what
  | [], _, s => by simp [spreadFrames]
  | f :: fs, i, s => by rw [spreadFrames, spreadFrames_sent ms fs, queueFrame_sent]; simp

theorem sendEach_sent (f : Frame) : ∀ (ms : List Nat) (s : State),
    (culSend.sendEach ms f s).sent = s.sent ++ List.replicate ms.length f.what
  | [], s => by simp [culSend.sendEach]
  | p :: r, s => by
    rw [culSend.sendEach, sendEach_sent f r, queueFrame_sent]
    simp [List.replicate_succ]

/-- What the Culvert hands over: the OPEN once on each member that carries any of the frames, and then the frames. -/
theorem culSend_sent (o : Option Frame) (fs : List Frame) (s : State) (h : (membersTo s 2 (twinId s)).isEmpty = false) :
    (culSend o fs s).sent = s.sent ++ (match o with
      | some f => List.replicate ((membersTo s 2 (twinId s)).take ((fs.length + 15) / 16)).length f.what
      | none => []) ++ fs.map Frame.what := by
  unfold culSend
  dsimp only
  rw [h]
  simp only [Bool.false_eq_true, if_false]
  rw [spreadFrames_sent]
  cases o with
  | none => simp
  | some f => rw [sendEach_sent]

end Sys2Proof.Machine
end

