-- ==== Sys2Proof/Laws/EffectsOwner.lean ====
section
/-! SUPPORT. What the commands do: the commands of owner. -/

namespace Sys2Proof.Machine

set_option linter.unusedSimpArgs false

/-- A block of an open step depends on the context's open steps alone. -/
theorem blkOf_congr {s t : State} {c : Nat} (n g : Nat) (h : (ctxOf t c).steps = (ctxOf s c).steps) : blkOf t c n g = blkOf s c n g := by
  unfold blkOf stepOf; rw [h]

theorem blkOf_ctxs {s t : State} (c n g : Nat) (h : t.ctxs = s.ctxs) : blkOf t c n g = blkOf s c n g :=
  blkOf_congr n g (by unfold ctxOf; rw [h])

theorem find_map_same {α : Type} (p : α → Bool) (f : α → α) (hf : ∀ x, p (f x) = p x) : ∀ l : List α, (l.map f).find? p = (l.find? p).map f
  | [] => rfl
  | x :: l => by
    rw [List.map_cons, List.find?_cons, List.find?_cons, hf, find_map_same p f hf l]
    cases p x <;> rfl

/-- A block of an open step after it has been changed. -/
theorem blkOf_modBlk {s : State} {c n g : Nat} {f : Blk → Blk} {st : Step} {b : Blk} (h : blkOf s c n g = some (st, b))
    (hf : ∀ x, (f x).gbi = x.gbi) : (modBlk c n g f s).blk c n g = some (f b) := by
  unfold State.blk
  unfold blkOf stepOf at h ⊢
  have e1 : (ctxOf (modBlk c n g f s) c).steps = (ctxOf s c).steps.map fun y => if y.step = n then
      { y with blks := y.blks.map fun b => if b.gbi = g then f b else b } else y := by
    unfold modBlk modStep; rw [ctxOf_modCtx_self]
  rw [e1, find_map_same]
  · cases hs : (ctxOf s c).steps.find? fun x => x.step == n with
    | none => rw [hs] at h; cases h
    | some y =>
      rw [hs] at h
      dsimp only at h
      have hy : y.step = n := by simpa using List.find?_some hs
      simp only [Option.map_some, hy, if_pos]
      rw [find_map_same]
      · cases hb : y.blks.find? fun b => b.gbi == g with
        | none => rw [hb] at h; cases h
        | some z =>
          rw [hb] at h
          cases h
          have hz : b.gbi = g := by simpa using List.find?_some hb
          simp [hz]
      · intro x
        split
        · rw [hf]
        · rfl
  · intro x; split <;> rfl

theorem blkOf_found {s : State} {c n g : Nat} {st : Step} {b : Blk} (h : blkOf s c n g = some (st, b)) : b.gbi = g := by
  unfold blkOf at h
  split at h
  · next y _ =>
    cases hb : y.blks.find? fun b => b.gbi == g with
    | none => rw [hb] at h; cases h
    | some z =>
      rw [hb] at h
      cases h
      simpa using List.find?_some hb
  · cases h

/-- Where no access needs correction, tiles that can all be read are read without a trace. -/
theorem loadTiles_ok {d cls base tb : Nat} {s : State} (hw : noWeak s = true) : ∀ {k n : Nat} {ts : List (List Byte)} {t : State}, loadTiles d cls base tb k n s = (.ok ts, t) → t = s
  | k, 0, _, _, h => by cases h; rfl
  | k, n + 1, ts, t, h => by
    unfold loadTiles at h
    split at h
    · next he =>
      have := engRead_same hw he
      subst this
      split at h
      · next hl => cases h; exact loadTiles_ok hw hl
      · cases h
    · cases h
    · cases h

theorem wholeBuf_some {b : Blk} {k : Nat} {ts : List (List Byte)} {s t : State} (hw : noWeak s = true) (h : wholeBuf b k s = (some ts, t)) : t = s := by
  unfold wholeBuf ownedTiles at h
  split at h
  · next hl => cases h; exact loadTiles_ok hw hl
  · cases h
  · cases h

theorem accTiles_some {b : Blk} {A : List Mat} {s t : State} (hw : noWeak s = true) (h : accTiles b s = (some A, t)) : t = s := by
  unfold accTiles at h
  split at h
  · next hl => cases h; exact loadTiles_ok hw hl
  · cases h

theorem steps_jrnCtx (c' ty sr : Nat) (p : List Byte) (s : State) (c : Nat) : (ctxOf (jrnCtx c' ty sr p s) c).steps = (ctxOf s c).steps := by
  unfold jrnCtx
  split
  · by_cases h : c' = c
    · subst h; rw [ctxOf_modCtx_self]
    · rw [ctxOf_modCtx_ne s h]
  · rfl

theorem steps_sendDone (c : Nat) (r : Recv) (x : Xfer) (s : State) (d : Nat) : (ctxOf (sendDone c r x s) d).steps = (ctxOf s d).steps := by
  have e : ∀ a b i m q (z : State), (ctxOf (sendMark c a b i m q z) d).steps = (ctxOf z d).steps := fun _ _ _ _ _ z => by
    unfold ctxOf; rw [(sendMark_keeps (Has.refl _) _ _ _ _ _ _ (Keeps.refl _ z)).ctxs (by decide)]
  unfold sendDone
  split
  · exact steps_modCtx _ _ _ _ fun _ => rfl
  · rw [e]; exact steps_modCtx _ _ _ _ fun _ => rfl

theorem steps_ckptKeep (c : Nat) (r : Recv) (x : Xfer) (s : State) (d : Nat) : (ctxOf (ckptKeep c r x s) d).steps = (ctxOf s d).steps := by
  unfold ckptKeep
  exact steps_modCtx _ _ _ _ fun _ => rfl

theorem steps_modXfer (c n cid i : Nat) (f : Xfer → Xfer) (s : State) (d : Nat) : (ctxOf (modXfer c n cid i f s) d).steps = (ctxOf s d).steps := by
  unfold modXfer modRecv modColl
  exact steps_modCtx _ _ _ _ fun _ => rfl

theorem steps_countDrop (c : Nat) (s : State) (d : Nat) : (ctxOf (countDrop c s) d).steps = (ctxOf s d).steps := by
  unfold countDrop; split
  · rfl
  · rw [steps_setEvt]; rfl

theorem steps_carryDrop (c : Nat) (r : Recv) (x : Xfer) (s : State) (d : Nat) : (ctxOf (carryDrop c r x s) d).steps = (ctxOf s d).steps := by
  unfold carryDrop
  dsimp only
  split
  · rw [steps_sendDone, steps_countDrop, steps_modXfer, steps_ckptKeep]
  · rw [steps_countDrop, steps_modXfer, steps_ckptKeep]

theorem steps_dropCarried (c d : Nat) : ∀ (l : List (Recv × Recv × Xfer)) (s : State), (ctxOf (dropCarried c l s) d).steps = (ctxOf s d).steps
  | [], _ => rfl
  | (r, q, x) :: l, s => by
    rw [dropCarried, steps_dropCarried c d l]
    split
    · rfl
    · exact steps_carryDrop ..

/-- The sum goes on to the next place: the block stands there, and memory is as before. -/
theorem stepOn_spec {c n g : Nat} {st : Step} {b : Blk} {s : State} (h : blkOf s c n g = some (st, b)) :
    (stepOn c n g s).mem = s.mem ∧ (stepOn c n g s).blk c n g = some (nextPlace b) := by
  have hn : ∀ y : Blk, (nextPlace y).gbi = y.gbi := fun y => by unfold nextPlace; split <;> rfl
  refine ⟨(stepOn_keeps (Has.refl _) c n g (Keeps.refl _ s)).mem (by decide), ?_⟩
  have k : (ctxOf (stepOn c n g s) c).steps = (ctxOf (modBlk c n g nextPlace s) c).steps := by
    unfold stepOn lastPartial
    split
    · rfl
    · split
      · rfl
      · exact steps_dropCarried ..
  unfold State.blk
  rw [blkOf_congr n g k]
  exact blkOf_modBlk h hn

theorem partialAdd_effect (c n g own : Nat) (st : Step) (b : Blk) (r : Recv) (x : Xfer) (A : List Mat) (s : State) (h1 : isAwake s = true) (h2 : blkOf s c n g = some (st, b)) (h3 : b.armed = true) (h4 : b.ph = 0) (h5 : ownerStalled s c b.cl = false) (h6 : b.mb < srMbCount st.raw) (h7 : replayAbsent s c n b.gbi b.mb b.pos = false) (h8 : ownPartial s st b.pos = false) (h9 : sourceOf s c n b.gbi b.mb b.pos = some (r, x)) (h10 : x.absent = false) (h11 : x.closed = true) (h12 : accTiles b s = (some A, s)) :
    (awake s (partialAdd c n g own s)).mem = (putAcc b (A.zipWith (fun A T => A.zipWith (fun y z => y.zipWith add32 z) T) (xferTiles st r x b 0)) s).mem ∧ (awake s (partialAdd c n g own s)).blk c n g = some (nextPlace b) := by
  rw [awake_eq _ h1]
  unfold partialAdd
  rw [h2]
  dsimp only
  rw [h3, h4, h5]
  simp only [Bool.not_true, bne_self_eq_false, Bool.or_self, Bool.false_eq_true, if_false, if_pos h6]
  unfold addNext
  dsimp only
  rw [h7, h8, h9]
  simp only [Bool.false_eq_true, if_false]
  rw [h10, h11]
  simp only [Bool.false_eq_true, if_false, if_true]
  unfold addInto
  rw [h12]
  dsimp only [Option.map_some, Option.getD_some]
  have hg := blkOf_found h2
  rw [hg]
  refine stepOn_spec (st := st) (b := b) ?_
  rw [blkOf_ctxs _ _ _ ((putAcc_keeps (Has.refl _) _ _ (Keeps.refl _ s)).ctxs (by decide)), h2]

theorem partialAddAbsent_effect (c n g own : Nat) (st : Step) (b : Blk) (r : Recv) (x : Xfer) (s : State) (h1 : isAwake s = true) (h2 : blkOf s c n g = some (st, b)) (h3 : b.armed = true) (h4 : b.ph = 0) (h5 : ownerStalled s c b.cl = false) (h6 : b.mb < srMbCount st.raw) (h7 : replayAbsent s c n b.gbi b.mb b.pos = false) (h8 : ownPartial s st b.pos = false) (h9 : sourceOf s c n b.gbi b.mb b.pos = some (r, x)) (h10 : x.absent = true) :
    (awake s (partialAdd c n g own s)).mem = s.mem ∧ (awake s (partialAdd c n g own s)).blk c n g = some (nextPlace b) := by
  rw [awake_eq _ h1]
  unfold partialAdd
  rw [h2]
  dsimp only
  rw [h3, h4, h5]
  simp only [Bool.not_true, bne_self_eq_false, Bool.or_self, Bool.false_eq_true, if_false, if_pos h6]
  unfold addNext
  dsimp only
  rw [h7, h8, h9]
  simp only [Bool.false_eq_true, if_false]
  rw [h10]
  simp only [if_true, Option.getD_some]
  have hg := blkOf_found h2
  rw [hg]
  exact stepOn_spec h2

theorem partialAddOwn_effect (c n g own : Nat) (st : Step) (b : Blk) (T : List (List Byte)) (A : List Mat) (s : State) (h1 : isAwake s = true) (h2 : blkOf s c n g = some (st, b)) (h3 : b.armed = true) (h4 : b.ph = 0) (h5 : ownerStalled s c b.cl = false) (h6 : b.mb < srMbCount st.raw) (h7 : replayAbsent s c n b.gbi b.mb b.pos = false) (h8 : ownPartial s st b.pos = true) (h9 : b.pos = ownPos s) (h10 : servedBlk s b = false) (h11 : loadTiles (dieOf b.cl) 0 own 16384 0 (lTiles b.lat) s = (.ok T, s)) (h12 : accTiles b s = (some A, s)) :
    (awake s (partialAdd c n g own s)).mem = (putAcc b (A.zipWith (fun A T => A.zipWith (fun y z => y.zipWith add32 z) T) (T.map (tileMat fmtFP32 4))) s).mem ∧ (awake s (partialAdd c n g own s)).blk c n g = some (nextPlace b) := by
  rw [awake_eq _ h1]
  unfold partialAdd
  rw [h2]
  dsimp only
  rw [h3, h4, h5]
  simp only [Bool.not_true, bne_self_eq_false, Bool.or_self, Bool.false_eq_true, if_false, if_pos h6]
  unfold addNext
  dsimp only
  rw [h7, h8]
  simp only [Bool.false_eq_true, if_false, if_true]
  rw [h11]
  dsimp only
  rw [if_pos ⟨h9, by rw [h10]; rfl⟩]
  unfold addInto
  rw [h12]
  dsimp only [Option.map_some, Option.getD_some]
  have hg := blkOf_found h2
  rw [hg]
  refine stepOn_spec (st := st) (b := b) ?_
  rw [blkOf_ctxs _ _ _ ((putAcc_keeps (Has.refl _) _ _ (Keeps.refl _ s)).ctxs (by decide)), h2]

theorem steps_bookContribs (c n cl : Nat) : ∀ (rs : List Recv) (s : State), (ctxOf (bookContribs c n cl rs s) c).steps = (ctxOf s c).steps
  | [], _ => rfl
  | r :: rs, s => by
    unfold bookContribs
    dsimp only
    rw [steps_bookContribs c n cl rs]
    unfold modRecv modColl
    rw [ctxOf_modCtx_self]
    dsimp only
    split
    · rfl
    · exact steps_jrnCtx ..

theorem alike_modBlk (c n g : Nat) (f : Blk → Blk) (s : State) : Alike s (modBlk c n g f s) := ⟨rfl, rfl, fun _ _ => rfl, fun _ _ _ => rfl, rfl⟩

theorem droughtWatch_mem (b : Blk) (A : List Mat) (s : State) :
    (droughtWatch b A s).mem = (recPut b 44 2 (if A.all (fun t => t.all fun r => r.all (·.isZero)) then min 65535 (recGet s b 44 2 + 1) else 0) s).mem := by
  unfold droughtWatch
  dsimp only
  rw [apply_ite State.mem]
  simp only [setEvt_mem, setF_mem, incr_mem, ite_self]

theorem ownerSumClose_effect (c n g : Nat) (st : Step) (b : Blk) (A : List Mat) (s : State) (h1 : isAwake s = true) (h2 : blkOf s c n g = some (st, b)) (h3 : sumComplete s c n st b = true) (h4 : ownerStalled s c b.cl = false) (h5 : accTiles b s = (some A, s)) (h6 : lFrozen b.lat = false) (h7 : A.all Mat.finite = true) :
    (awake s (ownerSumClose c n g s)).blk c n g = some { b with ph := 1, nfAcc := false } ∧ (awake s (ownerSumClose c n g s)).mem = (recPut b 44 2 (if A.all (fun t => t.all fun r => r.all (·.isZero)) then min 65535 (recGet s b 44 2 + 1) else 0) s).mem := by
  rw [awake_eq _ h1]
  unfold ownerSumClose
  rw [h2]
  dsimp only
  rw [h3, h4]
  simp only [Bool.not_true, Bool.or_self, Bool.false_eq_true, if_false]
  rw [h5]
  dsimp only
  rw [h6, h7]
  simp only [Bool.not_true, Bool.false_eq_true, if_false]
  generalize hx : bookContribs c n b.cl (recvsFor s c n g) s = x
  have ax : Alike s x := by subst hx; exact (bookContribs_keeps (Has.refl _) _ _ _ _ (Keeps.refl _ s)).alike (by decide +kernel)
  have bx : blkOf x c n g = some (st, b) := by
    rw [blkOf_congr (s := s) n g (by subst hx; exact steps_bookContribs ..), h2]
  generalize hy : modBlk c n g (fun x => { x with ph := 1, nfAcc := false }) x = y
  have ay : Alike s y := ax.trans (by subst hy; exact alike_modBlk ..)
  refine ⟨?_, ?_⟩
  · unfold State.blk
    rw [blkOf_ctxs (s := y) _ _ _ ((droughtWatch_keeps (Has.refl _) _ _ (Keeps.refl _ y)).ctxs (by decide))]
    subst hy
    exact blkOf_modBlk bx fun _ => rfl
  · rw [droughtWatch_mem, ay.recGet]
    exact (ay.recPut b 44 2 _).mem

/-- Another step's blocks are not moved. -/
theorem blkOf_modBlk_ne {s : State} {c n g m : Nat} {f : Blk → Blk} (k : Nat) (h : m ≠ n) : blkOf (modBlk c n g f s) c m k = blkOf s c m k := by
  unfold blkOf stepOf
  have e1 : (ctxOf (modBlk c n g f s) c).steps = (ctxOf s c).steps.map fun y => if y.step = n then
      { y with blks := y.blks.map fun b => if b.gbi = g then f b else b } else y := by
    unfold modBlk modStep; rw [ctxOf_modCtx_self]
  rw [e1]
  have : ∀ l : List Step, (l.map fun y => if y.step = n then { y with blks := y.blks.map fun b => if b.gbi = g then f b else b } else y).find?
      (fun x => x.step == m) = l.find? fun x => x.step == m := fun l => by
    induction l with
    | nil => rfl
    | cons y l ih =>
      rw [List.map_cons, List.find?_cons, List.find?_cons, ih]
      by_cases hy : y.step = n
      · rw [if_pos hy]
        have : (y.step == m) = false := by rw [hy]; simpa using Ne.symm h
        dsimp only
        rw [this]
      · rw [if_neg hy]
  rw [this]

theorem ownerSumFrozen_effect (c n g : Nat) (st : Step) (b : Blk) (A : List Mat) (s : State) (h1 : isAwake s = true) (h2 : blkOf s c n g = some (st, b)) (h3 : sumComplete s c n st b = true) (h4 : ownerStalled s c b.cl = false) (h5 : accTiles b s = (some A, s)) (h6 : lFrozen b.lat = true) (h7 : blkOf s c (n + 1) g = none) :
    (awake s (ownerSumClose c n g s)).blk c n g = some { b with ph := 6 } ∧ (awake s (ownerSumClose c n g s)).mem = s.mem ∧ getF (awake s (ownerSumClose c n g s)) CLUSTER_FROZEN_DISC b.cl = (getF s CLUSTER_FROZEN_DISC b.cl + 1) % 2 ^ 32 := by
  rw [awake_eq _ h1]
  unfold ownerSumClose
  rw [h2]
  dsimp only
  rw [h3, h4]
  simp only [Bool.not_true, Bool.or_self, Bool.false_eq_true, if_false]
  rw [h5]
  dsimp only
  rw [h6]
  simp only [if_true]
  generalize hx : bookContribs c n b.cl (recvsFor s c n g) s = x
  have ax : Alike s x := by subst hx; exact (bookContribs_keeps (Has.refl _) _ _ _ _ (Keeps.refl _ s)).alike (by decide +kernel)
  have bx : blkOf x c n g = some (st, b) := by
    rw [blkOf_congr (s := s) n g (by subst hx; exact steps_bookContribs ..), h2]
  generalize hy : incr CLUSTER_FROZEN_DISC b.cl x = y
  have yc : blkOf y c n g = some (st, b) := by rw [blkOf_ctxs (s := x) _ _ _ (by subst hy; rfl), bx]
  have ya : blkOf y c (n + 1) g = none := by
    rw [blkOf_ctxs (s := x) _ _ _ (by subst hy; rfl), blkOf_congr (s := s) _ g (by subst hx; exact steps_bookContribs ..), h7]
  unfold armNext
  rw [blkOf_modBlk_ne _ (by omega), ya]
  refine ⟨blkOf_modBlk yc fun _ => rfl, ?_, ?_⟩
  · subst hy; exact ax.mem
  · have e : ∀ (z : State) f, getF (modBlk c n g f z) CLUSTER_FROZEN_DISC b.cl = getF z CLUSTER_FROZEN_DISC b.cl := fun _ _ => rfl
    rw [e, ← hy, getF_incr_self _ _ _ (by decide)]
    have k : getF x CLUSTER_FROZEN_DISC b.cl = getF s CLUSTER_FROZEN_DISC b.cl := by
      subst hx
      exact (bookContribs_keeps (Has.refl _) _ _ _ _ (Keeps.refl _ s)).getFk_all reg_CLUSTER_FROZEN_DISC (by decide) _ _
    rw [k]

theorem replayOn_rootUse (c n : Nat) (b : Blk) (s : State) (k : Nat) : replayOn (rootUse c n b s) k = replayOn s k := by
  unfold rootUse jrnCtx; split <;> rfl

theorem opFive_finite {rung : Nat} {l : List Byte} {G L R : Mat} (h : (opFive rung l G L R).2 = true) : (opFive rung l G L R).1.finite = true := by
  unfold opFive at h ⊢
  dsimp only at h ⊢
  exact (Bool.and_eq_true_iff.1 h).2

theorem steps_chunkSettle (c : Nat) (o : ChunkOut) (s : State) (d : Nat) : (ctxOf (chunkSettle c o s) d).steps = (ctxOf s d).steps := by
  have r : ∀ (l : List (Nat × Nat)) (z : State), (ctxOf (chunkRecords c o l z) d).steps = (ctxOf z d).steps := fun l => by
    induction l with
    | nil => exact fun _ => rfl
    | cons e l ih => exact fun z => by rw [chunkRecords, ih, steps_jrnCtx]
  have v : ∀ u k (z : State), (ctxOf (chunkDiverge u k z) d).steps = (ctxOf z d).steps := fun u k z => by
    unfold ctxOf; rw [(chunkDiverge_keeps (Has.refl _) u k (Keeps.refl _ z)).ctxs (by decide)]
  unfold chunkSettle
  dsimp only
  split
  · rw [v, r]
  · rw [r]

theorem steps_settleOuts (c d : Nat) : ∀ (l : List ChunkOut) (s : State), (ctxOf (settleOuts c l s) d).steps = (ctxOf s d).steps
  | [], _ => rfl
  | o :: l, s => by rw [settleOuts, steps_settleOuts c d l, steps_chunkSettle]

/-- Outside replay, a group of operation 5 whose products are finite at rung 0 forms P there; memory and the blocks of the open steps are
not moved. -/
theorem formP_rung0 {c n : Nat} {b : Blk} {h : List Byte} {us : List Nat} {G L R : Mat} {s : State}
    (h1 : (!lSideL b.lat && !lSideR b.lat) = false) (h2 : replayOn s c = false) (h3 : (opFive 0 b.lat G L R).2 = true) :
    ∃ t, formP c n b h us G L R s = ((opFive 0 b.lat G L R).1, t) ∧ t.mem = s.mem ∧ (ctxOf t c).steps = (ctxOf s c).steps := by
  unfold formP op5Start
  rw [h1, h2]
  simp only [Bool.false_eq_true, if_false, h3, if_true]
  refine ⟨_, rfl, ?_, ?_⟩
  · rw [(settleOuts_keeps (Has.refl _) c _ (Keeps.refl _ _)).mem (by decide)]
    exact (rungProds_keeps (Has.refl _) 0 c n b us G L R (Keeps.refl _ s)).mem (by decide)
  · rw [steps_settleOuts]
    unfold ctxOf
    rw [(rungProds_keeps (Has.refl _) 0 c n b us G L R (Keeps.refl _ s)).ctxs (by decide)]

theorem precondition_effect (c n g hdr : Nat) (us : List Nat) (st : Step) (b : Blk) (T : List (List Byte)) (G : Mat) (s : State) (h1 : isAwake s = true) (h2 : blkOf s c n g = some (st, b)) (h3 : b.ph = 1) (h4 : ownerReady s c n b = true) (h5 : (isDue st b && (b.notice == 0 || b.notice == 1)) = false) (h6 : replayOn s c = false) (h7 : b.nfAcc = false) (h8 : ownedTiles b (4 + recGet s b 36 1 % 2) 0 (lF b.lat) s = (some T, s)) (h9 : accMat b s = (some G, s)) (h10 : (lSideL b.lat || lSideR b.lat) = true) (h11 : (opFive 0 b.lat G (rootMats b.lat T).1 (rootMats b.lat T).2).2 = true) (h12 : op5Code b (sramRead s b.cl hdr 32) = 0) :
    (awake s (precondition c n g hdr us s)).blk c n g = some { b with ph := 2, stopped := false, p := (opFive 0 b.lat G (rootMats b.lat T).1 (rootMats b.lat T).2).1.flatMap fun r => r.map word32 } ∧ (awake s (precondition c n g hdr us s)).mem = s.mem := by
  rw [awake_eq _ h1]
  unfold precondition
  rw [h2]
  dsimp only
  rw [h3, h4]
  have d0 : (isDue st b && b.notice == 0) = false := by
    revert h5; cases isDue st b <;> cases (b.notice == 0) <;> simp
  have d1 : (isDue st b && b.notice == 1) = false := by
    revert h5; cases isDue st b <;> cases (b.notice == 1) <;> simp
  rw [d0, d1, h6]
  simp only [bne_self_eq_false, Bool.not_true, Bool.or_self, Bool.false_eq_true, if_false]
  unfold opFiveHdr
  rw [if_neg (by simp [h12])]
  unfold opFiveRun
  rw [h7]
  simp only [Bool.false_eq_true, if_false]
  rw [h8]
  dsimp only
  rw [h9]
  dsimp only
  have f := opFive_finite h11
  have sd : (!lSideL b.lat && !lSideR b.lat) = false := by
    revert h10; cases lSideL b.lat <;> cases lSideR b.lat <;> simp
  generalize hh : sramRead s b.cl hdr 32 = h
  obtain ⟨z, e, a, k⟩ := formP_rung0 (c := c) (n := n) (h := h) (us := us) sd (s := rootUse c n b s) (by rw [replayOn_rootUse, h6]) h11
  rw [e]
  dsimp only
  rw [f, if_pos rfl]
  simp only [Bool.not_true]
  have hg := blkOf_found h2
  subst hg
  constructor
  · unfold State.blk
    refine Eq.trans (blkOf_modBlk (st := st) (b := b) ?_ fun _ => rfl) (by simp [h7])
    rw [blkOf_congr n _ k, blkOf_congr (s := s) n _ (by unfold rootUse; exact steps_jrnCtx ..), h2]
  · show z.mem = s.mem
    rw [a]
    unfold rootUse jrnCtx
    split <;> rfl

theorem preconditionNotice_effect (c n g hdr : Nat) (us : List Nat) (st : Step) (b : Blk) (s : State) (h1 : isAwake s = true) (h2 : blkOf s c n g = some (st, b)) (h3 : b.ph = 1) (h4 : ownerReady s c n b = true) (h5 : isDue st b = true) (h6 : b.notice = 0) :
    (awake s (precondition c n g hdr us s)).blk c n g = some { b with notice := 1 } ∧ (seqOf (awake s (precondition c n g hdr us s)) (b.cl / 8)).notices = (seqOf s (b.cl / 8)).notices ++ [{ ctx := c, step := n, gbi := g }] := by
  rw [awake_eq _ h1]
  unfold precondition
  rw [h2]
  dsimp only
  rw [h3, h4, h5, h6]
  simp only [bne_self_eq_false, Bool.not_true, Bool.or_self, Bool.false_eq_true, if_false, beq_self_eq_true, Bool.and_self, if_true]
  constructor
  · rw [blkOf_modBlk (st := st) (b := b)]
    · simp [h3]
    · exact h2
    · exact fun _ => rfl
  · have e : ∀ (z : State) (f : Blk → Blk), seqOf (modBlk c n g f z) (b.cl / 8) = seqOf z (b.cl / 8) := fun _ _ => rfl
    rw [e]
    simp

theorem preconditionStopped_effect (c n g hdr : Nat) (us : List Nat) (st : Step) (b : Blk) (s : State) (h1 : isAwake s = true) (h2 : blkOf s c n g = some (st, b)) (h3 : b.ph = 1) (h4 : ownerReady s c n b = true) (h5 : (isDue st b && (b.notice == 0 || b.notice == 1)) = false) (h6 : replayOn s c = false) (h7 : b.nfAcc = true) (h8 : op5Code b (sramRead s b.cl hdr 32) = 0) :
    (awake s (precondition c n g hdr us s)).blk c n g = some { b with ph := 2, stopped := true } ∧ (awake s (precondition c n g hdr us s)).mem = s.mem := by
  rw [awake_eq _ h1]
  unfold precondition
  rw [h2]
  dsimp only
  rw [h3, h4]
  have d0 : (isDue st b && b.notice == 0) = false := by
    revert h5; cases isDue st b <;> cases (b.notice == 0) <;> simp
  have d1 : (isDue st b && b.notice == 1) = false := by
    revert h5; cases isDue st b <;> cases (b.notice == 1) <;> simp
  rw [d0, d1, h6]
  simp only [bne_self_eq_false, Bool.not_true, Bool.or_self, Bool.false_eq_true, if_false]
  unfold opFiveHdr
  rw [if_neg (by simp [h8])]
  unfold opFiveRun
  rw [h7]
  simp only [if_true]
  have hg := blkOf_found h2
  subst hg
  constructor
  · rw [blkOf_modBlk (st := st) (b := b)]
    · simp [h7]
    · rw [blkOf_congr (s := s) n _ (by unfold rootUse; exact steps_jrnCtx ..), h2]
    · exact fun _ => rfl
  · show (rootUse c n b s).mem = s.mem
    unfold rootUse jrnCtx
    split <;> rfl

end Sys2Proof.Machine
end

