-- ==== Sys2Proof/Laws/EffectsUnits.lean ====
section
/-! SUPPORT. What the commands do: the commands of tensor units. -/

namespace Sys2Proof.Machine

set_option linter.unusedSimpArgs false

theorem unitOf_putUnit_self (u : Nat) (x : TUnit) (s : State) : unitOf (putUnit u x s) u = x := Store.get_put_self ..

theorem unitOf_putUnit_ne {u v : Nat} (h : u ≠ v) (x : TUnit) (s : State) : unitOf (putUnit u x s) v = unitOf s v := Store.get_put_ne h ..

theorem unitOf_modUnit_self (u : Nat) (f : TUnit → TUnit) (s : State) : unitOf (modUnit u f s) u = f (unitOf s u) := unitOf_putUnit_self ..

theorem clusterOf_modUnit (u : Nat) (f : TUnit → TUnit) (s : State) (c : Nat) : clusterOf (modUnit u f s) c = clusterOf s c := rfl

theorem clusterOf_putUnit (u : Nat) (x : TUnit) (s : State) (c : Nat) : clusterOf (putUnit u x s) c = clusterOf s c := rfl

theorem listOf_modList_self {cl lid : Nat} {f : ListRun → ListRun} {s : State} {l : ListRun} (h : listOf s cl lid = some l)
    (hf : ∀ x, (f x).id = x.id) : listOf (modList cl lid f s) cl lid = some (f l) := by
  unfold listOf at h ⊢
  unfold modList
  rw [clusterOf_modCluster_self]
  have e := find_map_same (fun x : ListRun => x.id == lid) (fun x => if x.id = lid then f x else x)
    (fun x => by by_cases c : x.id = lid <;> simp [c, hf]) (clusterOf s cl).lists
  dsimp only at e ⊢
  rw [e, h]
  have hl : l.id = lid := by simpa using List.find?_some h
  simp [hl]

/-- A list that has not ended stays. -/
theorem endList_same {cl lid : Nat} {s : State} {l : ListRun} (h : listOf s cl lid = some l) (he : listEnded l = false) :
    endList cl lid s = s := by
  unfold endList
  rw [h]
  dsimp only
  rw [he]
  simp

theorem listOf_congr {s t : State} (cl lid : Nat) (h : t.clusters = s.clusters) : listOf t cl lid = listOf s cl lid := by
  unfold listOf clusterOf; rw [h]

theorem listDescRead_effect (cl lid : Nat) (l : ListRun) (s : State) (h1 : stopped s = false) (h2 : domOn s (32 + cl / 8) = true) (h3 : listOf s cl lid = some l) (h4 : listTurn s cl l = true) (h5 : l.pos.hdr = false) (h6 : l.pos.idx < l.pos.count) (h7 : groupOk (dop (sramRead s cl (l.pos.addr + 64 + 32 * l.pos.idx) 32)) = true) :
    listOf (runningIn (32 + cl / 8) s (listDescRead cl lid s)) cl lid = some { l with desc := some (sramRead s cl (l.pos.addr + 64 + 32 * l.pos.idx) 32), pos := { l.pos with idx := l.pos.idx + 1 } } ∧ (clusterOf (runningIn (32 + cl / 8) s (listDescRead cl lid s)) cl).lastCtx = l.ctx := by
  rw [runningIn_eq _ _ h1 h2]
  unfold listDescRead
  rw [h3]
  dsimp only
  rw [if_pos h4]
  unfold readNext
  rw [h5]
  simp only [Bool.false_eq_true, if_false, if_pos h6]
  have e : ∀ f, sramRead (modCluster cl f s) cl (l.pos.addr + 64 + 32 * l.pos.idx) 32 = sramRead s cl (l.pos.addr + 64 + 32 * l.pos.idx) 32 := fun _ => rfl
  rw [e, if_pos h7]
  have b : listOf (modCluster cl (fun c => { c with lastCtx := l.ctx }) s) cl lid = some l := by
    unfold listOf at h3 ⊢; rw [clusterOf_modCluster_self]; exact h3
  have g := listOf_modList_self (f := fun x => { x with desc := some (sramRead s cl (l.pos.addr + 64 + 32 * l.pos.idx) 32), pos := { x.pos with idx := x.pos.idx + 1 } }) b (fun _ => rfl)
  rw [endList_same g (by simp [listEnded])]
  refine ⟨by rw [g]; simp [h5], ?_⟩
  unfold modList
  rw [clusterOf_modCluster_self, clusterOf_modCluster_self]

theorem listHdrRead_effect (cl lid : Nat) (l : ListRun) (s : State) (h1 : stopped s = false) (h2 : domOn s (32 + cl / 8) = true) (h3 : listOf s cl lid = some l) (h4 : listTurn s cl l = true) (h5 : l.pos.hdr = true) (h6 : l.pos.addr % 64 = 0) (h7 : l.pos.addr + 64 + 32 * sramVal s cl (l.pos.addr + 4) 4 ≤ sramTop) (h8 : 0 < sramVal s cl (l.pos.addr + 4) 4) (h9 : leVal (sramRead s cl (l.pos.addr + 16) 48) = 0) :
    listOf (runningIn (32 + cl / 8) s (listDescRead cl lid s)) cl lid = some { l with pos := { addr := l.pos.addr, hdr := false, step := sramVal s cl l.pos.addr 4, count := sramVal s cl (l.pos.addr + 4) 4, idx := 0, next := sramVal s cl (l.pos.addr + 8) 8 } } ∧ (clusterOf (runningIn (32 + cl / 8) s (listDescRead cl lid s)) cl).lastCtx = l.ctx := by
  rw [runningIn_eq _ _ h1 h2]
  unfold listDescRead
  rw [h3]
  dsimp only
  rw [if_pos h4]
  unfold readNext
  rw [h5]
  simp only [if_true]
  unfold readHdr
  dsimp only
  have e : ∀ f a n, sramVal (modCluster cl f s) cl a n = sramVal s cl a n := fun _ _ _ => rfl
  have e2 : ∀ f a n, sramRead (modCluster cl f s) cl a n = sramRead s cl a n := fun _ _ _ => rfl
  simp only [e, e2]
  have ht : sramTop = 6291456 := rfl
  rw [if_neg (by rw [ht] at h7 ⊢; omega), if_neg (by simpa using h9)]
  have b : listOf (modCluster cl (fun c => { c with lastCtx := l.ctx }) s) cl lid = some l := by
    unfold listOf at h3 ⊢; rw [clusterOf_modCluster_self]; exact h3
  have g := listOf_modList_self (f := fun x => { x with pos := { addr := l.pos.addr, hdr := false, step := sramVal s cl l.pos.addr 4, count := sramVal s cl (l.pos.addr + 4) 4, idx := 0, next := sramVal s cl (l.pos.addr + 8) 8 } }) b (fun _ => rfl)
  rw [endList_same g (by simp only [listEnded, Nat.le_zero]; simp; omega)]
  refine ⟨g, ?_⟩
  unfold modList
  rw [clusterOf_modCluster_self, clusterOf_modCluster_self]

theorem listFault_effect (cl lid : Nat) (l : ListRun) (s : State) (h1 : stopped s = false) (h2 : domOn s (32 + cl / 8) = true) (h3 : listOf s cl lid = some l) (h4 : listTurn s cl l = true) (h5 : l.pos.hdr = false) (h6 : l.pos.idx < l.pos.count) (h7 : groupOk (dop (sramRead s cl (l.pos.addr + 64 + 32 * l.pos.idx) 32)) = false) (h8 : getF s CLUSTER_LIST_ERR_CODE cl = 0) :
    listOf (runningIn (32 + cl / 8) s (listDescRead cl lid s)) cl lid = some { l with st := .halted, desc := none, gated := [] } ∧ getF (runningIn (32 + cl / 8) s (listDescRead cl lid s)) CLUSTER_LIST_ERR_CODE cl = 1 ∧ evtSet (runningIn (32 + cl / 8) s (listDescRead cl lid s)) CLUSTER_EV_LIST_INVALID cl = true := by
  rw [runningIn_eq _ _ h1 h2]
  unfold listDescRead
  rw [h3]
  dsimp only
  rw [if_pos h4]
  unfold readNext
  rw [h5]
  simp only [Bool.false_eq_true, if_false, if_pos h6]
  have e : ∀ f, sramRead (modCluster cl f s) cl (l.pos.addr + 64 + 32 * l.pos.idx) 32 = sramRead s cl (l.pos.addr + 64 + 32 * l.pos.idx) 32 := fun _ => rfl
  rw [e, h7]
  simp only [Bool.false_eq_true, if_false]
  unfold listFault haltList
  have e3 : getF (modCluster cl (fun c => { c with lastCtx := l.ctx }) s) CLUSTER_LIST_ERR_CODE cl = 0 := h8
  dsimp only
  rw [e3]
  simp only [if_true]
  have b : listOf (modCluster cl (fun c => { c with lastCtx := l.ctx }) s) cl lid = some l := by
    unfold listOf at h3 ⊢; rw [clusterOf_modCluster_self]; exact h3
  generalize hx : setEvt CLUSTER_EV_LIST_INVALID cl _ = x
  have bx : listOf x cl lid = some l := by rw [← b]; apply listOf_congr; rw [← hx]; simp
  have g := listOf_modList_self (f := fun l => { l with st := .halted, desc := none, gated := [] }) bx (fun _ => rfl)
  rw [endList_same g (by simp [listEnded])]
  have f1 : getF x CLUSTER_LIST_ERR_CODE cl = 1 := by
    rw [← hx, getF_setEvt_apart (by decide), getF_setF_self _ _ _ _ (by decide)]; rfl
  have f2 : evtSet x CLUSTER_EV_LIST_INVALID cl = true := by
    rw [← hx]; exact evtSet_setEvt (by decide) _ _
  exact ⟨g, f1, f2⟩

theorem matmulDescriptor_effect (cl lid n : Nat) (l : ListRun) (d : List Byte) (s : State) (h1 : stopped s = false) (h2 : domOn s (32 + cl / 8) = true) (h3 : descInHand s cl lid 2 = some (l, d)) (h4 : n < 4) (h5 : cqOpen s cl n = true) (h6 : outranked s cl l.ctx = false) :
    (unitOf (runningIn (32 + cl / 8) s (matmulDescriptor cl lid n s)) (cl * 4 + n)).cq = (unitOf s (cl * 4 + n)).cq ++ [{ desc := d, ctx := l.ctx, lid := lid, step := l.pos.step, part := inPart l }] ∧ listOf (runningIn (32 + cl / 8) s (matmulDescriptor cl lid n s)) cl lid = some { l with desc := none, out := l.out + 1, grp := if inPart l then l.grp.map fun g => { g with out := g.out + 1 } else l.grp } ∧ getF (runningIn (32 + cl / 8) s (matmulDescriptor cl lid n s)) TUNIT_STAT_CQ_LEVEL (cl * 4 + n) = ((unitOf s (cl * 4 + n)).cq.length + 1) % 32 := by
  rw [runningIn_eq _ _ h1 h2]
  unfold matmulDescriptor
  rw [h3]
  dsimp only
  have h4' : (decide (n < 4) && cqOpen s cl n && !outranked s cl l.ctx) = true := by rw [h5, h6]; simpa using h4
  rw [if_pos h4']
  unfold passOn
  have hl : listOf s cl lid = some l := by
    unfold descInHand at h3
    split at h3
    · cases h3
    · next y hy =>
      split at h3
      · cases hd : y.desc.filter fun d => dop d / 16 == 2 with
        | none => rw [hd] at h3; cases h3
        | some z => rw [hd] at h3; cases h3; exact hy
      · cases h3
  refine ⟨?_, ?_, ?_⟩
  · unfold modList
    rw [unitOf_modCluster, unitOf_modUnit_self]
  · exact listOf_modList_self (f := fun l => { l with desc := none, out := l.out + 1, grp := if inPart l then l.grp.map fun g => { g with out := g.out + 1 } else l.grp }) hl (fun _ => rfl)
  · have e : ∀ f z, getF (modList cl lid f z) TUNIT_STAT_CQ_LEVEL (cl * 4 + n) = getF z TUNIT_STAT_CQ_LEVEL (cl * 4 + n) := fun _ _ => rfl
    rw [e]
    unfold modUnit putUnit
    rw [getF_setF_apart (by decide), getF_setF_apart (by decide), getF_setF_self _ _ _ _ (by decide)]
    simp
    rfl

/-- What putting a unit's state back shows of BUSY, and that it fences nothing. -/
theorem fenced_putUnit (u v : Nat) (x : TUnit) (s : State) : fenced (putUnit u x s) v = fenced s v := by
  unfold fenced isF getF
  rw [(putUnit_keeps (Has.refl _) u x (Keeps.refl _ s)).getFk reg_TUNIT_STAT_FENCED (by decide) v 0]

theorem busy_putUnit (u : Nat) (x : TUnit) (s : State) : getF (putUnit u x s) TUNIT_STAT_BUSY u = if x.run.isSome && !fenced s u then 1 else 0 := by
  unfold putUnit
  rw [getF_setF_self _ _ _ _ (by decide)]
  unfold fenced
  split <;> rfl

theorem descTake_effect (u : Nat) (q : QDesc) (r : List QDesc) (s : State) (h1 : stopped s = false) (h2 : domOn s (u / 32) = true) (h3 : (unitOf s u).run = none) (h4 : fenced s u = false) (h5 : isF s TUNIT_CTRL_Q_EN u = true) (h6 : isF s TUNIT_STAT_LEND u = false) (h7 : (unitOf s u).cq = q :: r) (h8 : (unitOf s u).bad = none) (h9 : descCode false q.desc = 0) :
    unitOf (runningIn (u / 32) s (descTake u s)) u = { unitOf s u with cq := r, run := some q, tile := {} } ∧ getF (runningIn (u / 32) s (descTake u s)) TUNIT_STAT_MODE u = 0 ∧ getF (runningIn (u / 32) s (descTake u s)) TUNIT_STAT_BUSY u = 1 ∧ getF (runningIn (u / 32) s (descTake u s)) TUNIT_STAT_CQ_LEVEL u = r.length % 32 := by
  rw [runningIn_eq _ _ h1 h2]
  have hd : domOn s (pageDomain 0 u) = true := h2
  unfold descTake
  dsimp only
  rw [h3, h4, h5, hd, h6, h7]
  simp only [Option.isSome_none, Bool.not_true, Bool.or_self, Bool.false_eq_true, if_false, List.isEmpty_cons]
  unfold takeCq
  dsimp only
  rw [h7, h8]
  simp only [Option.isSome_none, Bool.false_eq_true, if_false]
  unfold takeDesc
  dsimp only
  rw [h9]
  simp only [ne_eq, not_true_eq_false, if_false, Bool.false_eq_true]
  have hu : ∀ z, unitOf (putUnit u z s) u = z := fun z => unitOf_putUnit_self ..
  unfold modUnit
  rw [hu]
  refine ⟨?_, ?_, ?_, ?_⟩
  · rw [unitOf_setF, unitOf_putUnit_self]
  · rw [getF_setF_self _ _ _ _ (by decide)]; rfl
  · rw [getF_setF_apart (by decide), busy_putUnit, fenced_putUnit, h4]; rfl
  · unfold putUnit
    rw [getF_setF_apart (by decide), getF_setF_apart (by decide), getF_setF_apart (by decide), getF_setF_self _ _ _ _ (by decide)]
    rfl

theorem descTakeWide_effect (u : Nat) (q : QDesc) (r : List QDesc) (s : State) (h1 : stopped s = false) (h2 : domOn s (u / 32) = true) (h3 : (unitOf s u).run = none) (h4 : fenced s u = false) (h5 : isF s TUNIT_CTRL_Q_EN u = true) (h6 : wideReady s u = true) (h7 : isF s TUNIT_STAT_LEND u = true ∨ (unitOf s u).cq = []) (h8 : (unitOf s u).wq = q :: r) (h9 : descCode true q.desc = 0) :
    unitOf (runningIn (u / 32) s (descTake u s)) u = { unitOf s u with wq := r, run := some q, tile := {} } ∧ getF (runningIn (u / 32) s (descTake u s)) TUNIT_STAT_MODE u = 1 ∧ getF (runningIn (u / 32) s (descTake u s)) TUNIT_STAT_BUSY u = 1 := by
  rw [runningIn_eq _ _ h1 h2]
  have hd : domOn s (pageDomain 0 u) = true := h2
  have hw : descTake u s = takeWq u s := by
    unfold descTake
    dsimp only
    rw [h3, h4, h5, hd, h6]
    simp only [Option.isSome_none, Bool.not_true, Bool.or_self, Bool.false_eq_true, if_false, if_true]
    obtain h | h := h7
    · rw [h]; rfl
    · rw [h]; simp
  rw [hw]
  unfold takeWq
  dsimp only
  rw [h8]
  dsimp only
  unfold takeDesc
  dsimp only
  rw [h9]
  simp only [ne_eq, not_true_eq_false, if_false, if_true]
  have hu : ∀ z, unitOf (putUnit u z s) u = z := fun z => unitOf_putUnit_self ..
  unfold modUnit
  rw [hu]
  refine ⟨?_, ?_, ?_⟩
  · rw [unitOf_setF, unitOf_putUnit_self]
  · rw [getF_setF_self _ _ _ _ (by decide)]; rfl
  · rw [getF_setF_apart (by decide), busy_putUnit, fenced_putUnit, h4]; rfl

theorem descTakeInvalid_effect (u : Nat) (q : QDesc) (r : List QDesc) (s : State) (h1 : stopped s = false) (h2 : domOn s (u / 32) = true) (h3 : (unitOf s u).run = none) (h4 : fenced s u = false) (h5 : isF s TUNIT_CTRL_Q_EN u = true) (h6 : isF s TUNIT_STAT_LEND u = false) (h7 : (unitOf s u).cq = q :: r) (h8 : (unitOf s u).bad = none) (h9 : descCode false q.desc ≠ 0) (h10 : getF s TUNIT_ERR_INFO_CODE u = 0) :
    unitOf (runningIn (u / 32) s (descTake u s)) u = { unitOf s u with cq := r, bad := some q } ∧ getF (runningIn (u / 32) s (descTake u s)) TUNIT_STAT_HALTED u = 1 ∧ getF (runningIn (u / 32) s (descTake u s)) TUNIT_ERR_INFO_CODE u = descCode false q.desc % 16 ∧ evtSet (runningIn (u / 32) s (descTake u s)) TUNIT_EV_DESC_INVALID u = true := by
  rw [runningIn_eq _ _ h1 h2]
  have hd : domOn s (pageDomain 0 u) = true := h2
  unfold descTake
  dsimp only
  rw [h3, h4, h5, hd, h6, h7]
  simp only [Option.isSome_none, Bool.not_true, Bool.or_self, Bool.false_eq_true, if_false, List.isEmpty_cons]
  unfold takeCq
  dsimp only
  rw [h7, h8]
  simp only [Option.isSome_none, Bool.false_eq_true, if_false]
  unfold takeDesc
  dsimp only
  rw [if_pos h9]
  have hu : ∀ z, unitOf (putUnit u z s) u = z := fun z => unitOf_putUnit_self ..
  simp only [Bool.false_eq_true, if_false]
  unfold modUnit
  rw [hu]
  unfold unitErr
  have he : ∀ z w, getF (putUnit u z (putUnit u w s)) TUNIT_ERR_INFO_CODE u = 0 := fun z w => by
    have k := fun w a => (putUnit_keeps (Has.refl _) u w (Keeps.refl _ a)).getFk reg_TUNIT_ERR_INFO_CODE (by decide) u 0
    exact (k _ _).trans ((k _ _).trans h10)
  rw [he, if_pos rfl]
  refine ⟨?_, ?_, ?_, evtSet_setEvt (by decide) _ _⟩
  · rw [unitOf_setEvt, unitOf_setF, unitOf_setF, unitOf_setF, unitOf_putUnit_self]; dsimp only; rw [h3]
  · rw [getF_setEvt_apart (by decide), getF_setF_apart (by decide), getF_setF_apart (by decide), getF_setF_apart (by decide)]
    unfold putUnit
    rw [getF_setF_apart (by decide), getF_setF_self _ _ _ _ (by decide)]; rfl
  · rw [getF_setEvt_apart (by decide), getF_setF_self _ _ _ _ (by decide)]; rfl

theorem chunkPassEnd_effect (u : Nat) (q : QDesc) (s : State) (h1 : stopped s = false) (h2 : domOn s (u / 32) = true) (h3 : floatRun s u = some q) (h4 : mFmtL q.desc ≠ 4) (h5 : (unitOf s u).tile.k < mK q.desc) :
    unitOf (runningIn (u / 32) s (chunkPassEnd u s)) u = { unitOf s u with tile := chunkPass (tileOps s (u / 4) q.desc q.tile) (unitOf s u).tile } ∧ (clusterOf (runningIn (u / 32) s (chunkPassEnd u s)) (u / 4)).tally.get 0 (q.ctx * 4 + workClass (mFmtL q.desc)) = (clusterOf s (u / 4)).tally.get 0 (q.ctx * 4 + workClass (mFmtL q.desc)) + 64 * chunkLen (tileOps s (u / 4) q.desc q.tile) (unitOf s u).tile := by
  rw [runningIn_eq _ _ h1 h2]
  unfold chunkPassEnd
  rw [h3]
  dsimp only
  rw [if_neg (by omega)]
  unfold tallyAdd
  refine ⟨?_, ?_⟩
  · rw [unitOf_modCluster, unitOf_modUnit_self]
  · rw [clusterOf_modCluster_self]
    dsimp only
    rw [Store.get_upd_self]
    rfl

theorem unitEcc_units (u n : Nat) (s : State) : (unitEcc u n s).units = s.units := by unfold unitEcc; split <;> simp

theorem unitEcc_sram (u n : Nat) (s : State) : (unitEcc u n s).sram = s.sram := by unfold unitEcc; split <;> simp

theorem unitEcc_getF {g : Fld} {m : Nat} (hg : IsReg g m) (hb : Nat.testBit 0x200400000080000000000 m = false) (u n : Nat) (s : State) (i : Nat) :
    getF (unitEcc u n s) g i = getF s g i := (unitEcc_keeps (Has.refl _) u n (Keeps.refl _ s)).getFk hg hb i 0

theorem tileOps_congr {s t : State} (h : t.sram = s.sram) (cl : Nat) (d : List Byte) (k : Nat) : tileOps t cl d k = tileOps s cl d k := by
  have e : ∀ c a n, sramVal t c a n = sramVal s c a n := fun c a n => by unfold sramVal sramRead; rw [h]
  unfold tileOps rawL rawR expL expR elemAt
  simp only [e]

/-- The check of a formed tile at the end of a tile that met no uncorrectable error. -/
theorem tileEnd_check {u corr : Nat} {fl : Flips} {stall ahead : Nat} {q : QDesc} {w : List Nat} {s : State} (h3 : fenced s u = false)
    (h4 : (unitOf s u).run = some q) (h5 : q.wide = false) (h6 : q.tile < mTiles q.desc) (h7 : formed s u q = some w) :
    tileEnd u corr false fl stall ahead s = checkTile u q (flipWords fl w) (flipCol fl (checkCol (tileOps s (u / 4) q.desc q.tile))) ahead (unitEcc u corr (addF TUNIT_FEED_STALL u stall s)) := by
  unfold tileEnd
  rw [h3, h4]
  simp only [Bool.false_eq_true, if_false]
  rw [h5, decide_eq_false (by omega)]
  simp only [Bool.or_self, Bool.false_eq_true, if_false]
  have e : formed (unitEcc u corr (addF TUNIT_FEED_STALL u stall s)) u q = formed s u q := by
    have a : unitOf (unitEcc u corr (addF TUNIT_FEED_STALL u stall s)) u = unitOf s u := by
      unfold unitOf; rw [unitEcc_units]; rfl
    unfold formed
    rw [a, tileOps_congr (s := s) (by rw [unitEcc_sram]; rfl)]
  rw [e, h7]
  dsimp only
  rw [tileOps_congr (s := s) (by rw [unitEcc_sram]; rfl)]

/-- The tile formed beside a check that fails leaves only its tally. -/
theorem dropAhead_same (u : Nat) (q : QDesc) (n : Nat) (s : State) : (dropAhead u q n s).units = s.units ∧ (dropAhead u q n s).sram = s.sram ∧
    ∀ f i, getF (dropAhead u q n s) f i = getF s f i := by
  unfold dropAhead
  split
  · exact ⟨rfl, rfl, fun _ _ => rfl⟩
  · exact ⟨rfl, rfl, fun _ _ => rfl⟩

/-- The passes beside the check change only the working tile of the unit. -/
theorem goAhead_unit (u : Nat) (s : State) : ∀ n, ∃ t, unitOf (goAhead u n s) u = { unitOf s u with tile := t } ∧ (n = 0 → t = (unitOf s u).tile)
  | 0 => ⟨_, rfl, fun _ => rfl⟩
  | n + 1 => by
    obtain ⟨t, h, _⟩ := goAhead_unit u s n
    rw [goAhead]
    unfold chunkPassEnd
    split
    · exact ⟨t, h, fun e => by omega⟩
    · next q _ =>
      dsimp only
      split
      · exact ⟨t, h, fun e => by omega⟩
      · refine ⟨chunkPass (tileOps (goAhead u n s) (u / 4) q.desc q.tile) (unitOf (goAhead u n s) u).tile, ?_, fun e => by omega⟩
        · unfold tallyAdd
          rw [unitOf_modCluster, unitOf_modUnit_self, h]

/-- The state in which a formed tile is judged. -/
theorem checkTile_eq (u : Nat) (q : QDesc) (w col : List Nat) (ahead : Nat) (s : State) : ∃ x y : State, (x.units = s.units ∧ x.sram = s.sram ∧
    ∀ f i, getF x f i = getF s f i) ∧ (y.units = s.units ∧ y.sram = s.sram ∧ ∀ f i, getF y f i = getF s f i) ∧ checkTile u q w col ahead s =
      match missRow (getF s TUNIT_CHK_CFG_CHK_TOL u) col w with
      | some row => if (unitOf s u).tile.again then secondMissed u row q.tile y else firstMissed u row q.tile y
      | none => goAhead u ahead (enterTile u q (unitOf s u).tile w col (acceptCounts u (unitOf s u).tile x)) := by
  unfold checkTile
  by_cases h : mFmtL q.desc = 4
  · refine ⟨tallyAdd (u / 4) q.ctx 2 (64 * mK q.desc) s, dropAhead u q ahead (tallyAdd (u / 4) q.ctx 2 (64 * mK q.desc) s), ⟨rfl, rfl, fun _ _ => rfl⟩, ?_, ?_⟩
    · exact dropAhead_same u q ahead (tallyAdd (u / 4) q.ctx 2 (64 * mK q.desc) s)
    simp only [if_pos h]
    rfl
  · refine ⟨s, dropAhead u q ahead s, ⟨rfl, rfl, fun _ _ => rfl⟩, dropAhead_same u q ahead s, ?_⟩
    simp only [if_neg h]
    all_goals rfl

theorem acceptCounts_units (u : Nat) (t : TileRun) (s : State) : (acceptCounts u t s).units = s.units :=
  (acceptCounts_keeps (Has.refl _) u t (Keeps.refl _ s)).units (by decide)

theorem writeTile_units (cl : Nat) (d : List Byte) (t : Nat) (w : List Nat) (n : Nat) (s : State) : (writeTile cl d t w n s).units = s.units :=
  (writeTile_keeps (Has.refl _) cl d t w n (Keeps.refl _ s)).units (by decide)

theorem tileEnd_effect (u corr stall ahead : Nat) (fl : Flips) (q : QDesc) (w : List Nat) (v : List Nat) (s : State) (h1 : stopped s = false) (h2 : domOn s (u / 32) = true) (h3 : fenced s u = false) (h4 : (unitOf s u).run = some q) (h5 : q.wide = false) (h6 : q.tile < mTiles q.desc) (h7 : formed s u q = some w) (h8 : missRow (getF s TUNIT_CHK_CFG_CHK_TOL u) (flipCol fl (checkCol (tileOps s (u / 4) q.desc q.tile))) (flipWords fl w) = none) (h9 : enterSlot (mAcc q.desc) ((unitOf s u).acc.get {} ((if q.adopted then 8 else 0) + q.tile)).vals (flipWords fl w) = v) :
    (∃ y, unitOf (runningIn (u / 32) s (tileEnd u corr false fl stall ahead s)) u = { unitOf s u with acc := (unitOf s u).acc.put {} ((if q.adopted then 8 else 0) + q.tile) { ctx := q.ctx, vals := v, chk := enterCol (mAcc q.desc) ((unitOf s u).acc.get {} ((if q.adopted then 8 else 0) + q.tile)).chk (flipCol fl (checkCol (tileOps s (u / 4) q.desc q.tile))) }, run := some { q with tile := q.tile + 1, status := q.status ||| (if spills (mWrite q.desc) (mFmtOut q.desc) v then 1 else 0) ||| (if (unitOf s u).tile.again then 2 else 0), c4 := q.c4 ++ chunk4Of q (unitOf s u).tile }, tile := y } ∧ (ahead = 0 → y = {})) ∧ (runningIn (u / 32) s (tileEnd u corr false fl stall ahead s)).sram = (if mWrite q.desc then writeTile (u / 4) q.desc q.tile v 64 s else s).sram ∧ getF (runningIn (u / 32) s (tileEnd u corr false fl stall ahead s)) TUNIT_FEED_STALL u = (getF s TUNIT_FEED_STALL u + stall) % 2 ^ 32 := by
  rw [runningIn_eq _ _ h1 h2, tileEnd_check h3 h4 h5 h6 h7]
  generalize hy : unitEcc u corr (addF TUNIT_FEED_STALL u stall s) = y
  have yu : y.units = s.units := by subst hy; rw [unitEcc_units]; rfl
  have ys : y.sram = s.sram := by subst hy; rw [unitEcc_sram]; rfl
  have yt : getF y TUNIT_CHK_CFG_CHK_TOL u = getF s TUNIT_CHK_CFG_CHK_TOL u := by
    subst hy; rw [unitEcc_getF reg_TUNIT_CHK_CFG_CHK_TOL (by decide), getF_addF_apart (by decide)]
  have yf : getF y TUNIT_FEED_STALL u = (getF s TUNIT_FEED_STALL u + stall) % 2 ^ 32 := by
    subst hy; rw [unitEcc_getF reg_TUNIT_FEED_STALL (by decide)]
    show getFk (setFk _ _ _ _ s) _ _ _ = _
    rw [getFk_setFk_self _ _ _ _ _ (by decide)]
    exact Nat.mod_mod _ _
  obtain ⟨x, _, ⟨xu, xs, xf⟩, -, e⟩ := checkTile_eq u q (flipWords fl w) (flipCol fl (checkCol (tileOps s (u / 4) q.desc q.tile))) ahead y
  rw [e]
  have uy : unitOf y u = unitOf s u := by unfold unitOf; rw [yu]
  have ux : unitOf x u = unitOf s u := by unfold unitOf; rw [xu, yu]
  rw [yt, h8, uy]
  dsimp only
  generalize hz : acceptCounts u (unitOf s u).tile x = z
  have zu : unitOf z u = unitOf s u := by subst hz; unfold unitOf; rw [acceptCounts_units, xu, yu]
  have zs : z.sram = s.sram := by subst hz; rw [(acceptCounts_keeps (Has.refl _) _ _ (Keeps.refl _ x)).sram (by decide), xs, ys]
  have zf : getF z TUNIT_FEED_STALL u = getF y TUNIT_FEED_STALL u := by
    subst hz; rw [← xf]; exact (acceptCounts_keeps (Has.refl _) _ _ (Keeps.refl _ x)).getFk reg_TUNIT_FEED_STALL (by decide) u 0
  have ws : ∀ (cl : Nat) (d : List Byte) (k : Nat) (v : List Nat) (n : Nat) (a b : State), a.sram = b.sram → (writeTile cl d k v n a).sram = (writeTile cl d k v n b).sram := by
    intro cl d k v n
    induction n with
    | zero => exact fun _ _ h => h
    | succ n ih => intro a b h; unfold writeTile sramWrite; dsimp only; rw [ih a b h]
  unfold enterTile
  dsimp only
  rw [zu, h9]
  generalize hG : (if spills (mWrite q.desc) (mFmtOut q.desc) v = true then setEvt TUNIT_EV_OUT_OVF u _ else _) = G
  have gk := goAhead_keeps (Has.refl _) u ahead (Keeps.refl _ G)
  rw [gk.sram (by decide), show getF (goAhead u ahead G) TUNIT_FEED_STALL u = getF G TUNIT_FEED_STALL u from gk.getFk reg_TUNIT_FEED_STALL (by decide) u 0]
  obtain ⟨t, ht, h0⟩ := goAhead_unit u G ahead
  have gu : unitOf G u = { unitOf s u with acc := (unitOf s u).acc.put {} ((if q.adopted then 8 else 0) + q.tile) { ctx := q.ctx, vals := v, chk := enterCol (mAcc q.desc) ((unitOf s u).acc.get {} ((if q.adopted then 8 else 0) + q.tile)).chk (flipCol fl (checkCol (tileOps s (u / 4) q.desc q.tile))) }, run := some { q with tile := q.tile + 1, status := q.status ||| (if spills (mWrite q.desc) (mFmtOut q.desc) v then 1 else 0) ||| (if (unitOf s u).tile.again then 2 else 0), c4 := q.c4 ++ chunk4Of q (unitOf s u).tile }, tile := {} } := by
    rw [← hG]
    have : ∀ (c : Bool) (a : State), unitOf (if c then setEvt TUNIT_EV_OUT_OVF u a else a) u = unitOf a u := fun c a => by cases c <;> simp
    rw [this]
    have : ∀ (c : Bool) (a : State), unitOf (if c then writeTile (u / 4) q.desc q.tile v 64 a else a) u = unitOf a u := fun c a => by
      cases c
      · rfl
      · unfold unitOf; rw [if_pos rfl, writeTile_units]
    rw [this, unitOf_putUnit_self]
  refine ⟨⟨t, by rw [ht, gu], fun e => by rw [h0 e, gu]⟩, ?_, ?_⟩
  · rw [← hG]
    have : ∀ (c : Bool) (a : State), (if c then setEvt TUNIT_EV_OUT_OVF u a else a).sram = a.sram := fun c a => by cases c <;> simp
    rw [this]
    cases hc : mWrite q.desc
    · exact zs
    · simp only [if_true]; exact ws _ _ _ _ _ _ _ zs
  · rw [← hG]
    have : ∀ (c : Bool) (a : State), getF (if c then setEvt TUNIT_EV_OUT_OVF u a else a) TUNIT_FEED_STALL u = getF a TUNIT_FEED_STALL u := fun c a => by
      cases c
      · rfl
      · exact getF_setEvt_apart (by decide) _ _ _
    rw [this]
    have : ∀ (c : Bool) (a : State), getF (if c then writeTile (u / 4) q.desc q.tile v 64 a else a) TUNIT_FEED_STALL u = getF a TUNIT_FEED_STALL u := fun c a => by
      cases c
      · rfl
      · exact (writeTile_keeps (Has.refl _) _ _ _ _ _ (Keeps.refl _ a)).getFk reg_TUNIT_FEED_STALL (by decide) u 0
    rw [this]
    rw [show ∀ a, getF (putUnit u a z) TUNIT_FEED_STALL u = getF z TUNIT_FEED_STALL u from fun a =>
      (putUnit_keeps (Has.refl _) u a (Keeps.refl _ z)).getFk reg_TUNIT_FEED_STALL (by decide) u 0, zf, yf]

theorem tileEndMiss_effect (u corr stall ahead : Nat) (fl : Flips) (q : QDesc) (w : List Nat) (row : Nat) (s : State) (h1 : stopped s = false) (h2 : domOn s (u / 32) = true) (h3 : fenced s u = false) (h4 : (unitOf s u).run = some q) (h5 : q.wide = false) (h6 : q.tile < mTiles q.desc) (h7 : formed s u q = some w) (h8 : missRow (getF s TUNIT_CHK_CFG_CHK_TOL u) (flipCol fl (checkCol (tileOps s (u / 4) q.desc q.tile))) (flipWords fl w) = some row) (h9 : (unitOf s u).tile.again = false) :
    unitOf (runningIn (u / 32) s (tileEnd u corr false fl stall ahead s)) u = { unitOf s u with tile := { again := true } } ∧ (runningIn (u / 32) s (tileEnd u corr false fl stall ahead s)).sram = s.sram ∧ evtSet (runningIn (u / 32) s (tileEnd u corr false fl stall ahead s)) TUNIT_EV_CHK_MISS u = true ∧ getF (runningIn (u / 32) s (tileEnd u corr false fl stall ahead s)) TUNIT_CHK_MISS u = (getF s TUNIT_CHK_MISS u + 1) % 2 ^ 32 ∧ getF (runningIn (u / 32) s (tileEnd u corr false fl stall ahead s)) TUNIT_MISS_INFO_ROW u = row % 64 ∧ getF (runningIn (u / 32) s (tileEnd u corr false fl stall ahead s)) TUNIT_MISS_INFO_REPEAT u = 0 := by
  rw [runningIn_eq _ _ h1 h2, tileEnd_check h3 h4 h5 h6 h7]
  generalize hy : unitEcc u corr (addF TUNIT_FEED_STALL u stall s) = y
  have yu : y.units = s.units := by subst hy; rw [unitEcc_units]; rfl
  have ys : y.sram = s.sram := by subst hy; rw [unitEcc_sram]; rfl
  have yt : getF y TUNIT_CHK_CFG_CHK_TOL u = getF s TUNIT_CHK_CFG_CHK_TOL u := by
    subst hy; rw [unitEcc_getF reg_TUNIT_CHK_CFG_CHK_TOL (by decide), getF_addF_apart (by decide)]
  have yc : getF y TUNIT_CHK_MISS u = getF s TUNIT_CHK_MISS u := by
    subst hy; rw [unitEcc_getF reg_TUNIT_CHK_MISS (by decide), getF_addF_apart (by decide)]
  obtain ⟨_, x, -, ⟨xu, xs, xf⟩, e⟩ := checkTile_eq u q (flipWords fl w) (flipCol fl (checkCol (tileOps s (u / 4) q.desc q.tile))) ahead y
  rw [e]
  have uy : unitOf y u = unitOf s u := by unfold unitOf; rw [yu]
  have ux : unitOf x u = unitOf s u := by unfold unitOf; rw [xu, yu]
  rw [yt, h8, uy, h9]
  dsimp only
  simp only [Bool.false_eq_true, if_false]
  unfold firstMissed noteMissRow
  refine ⟨?_, ?_, evtSet_setEvt (by decide) _ _, ?_, ?_, ?_⟩
  · rw [unitOf_setEvt, unitOf_incr, unitOf_setF, unitOf_setF, unitOf_setF, unitOf_modUnit_self, ux]
  · rw [setEvt_sram]; exact xs.trans ys
  · rw [getF_setEvt_apart (by decide), getF_incr_self _ _ _ (by decide)]
    simp (disch := decide) only [getF_setF_apart]
    have k := (modUnit_keeps (Has.refl _) u (fun x => { x with tile := { again := true } }) (Keeps.refl _ x)).getFk reg_TUNIT_CHK_MISS (by decide) u 0
    rw [show getF (modUnit u (fun x => { x with tile := { again := true } }) x) TUNIT_CHK_MISS u = getF x TUNIT_CHK_MISS u from k, xf, yc]
  · rw [getF_setEvt_apart (by decide), getF_incr_apart (by decide), getF_setF_self _ _ _ _ (by decide)]; rfl
  · rw [getF_setEvt_apart (by decide), getF_incr_apart (by decide), getF_setF_apart (by decide), getF_setF_apart (by decide), getF_setF_self _ _ _ _ (by decide)]; rfl

/-- What is kept without EVT_PEND of the units keeps their events. -/
theorem evtSet_kept {m u : Nat} {x z : State} (K : Keeps m x z) (hb : m.testBit 81 = false) {e : Evt} (hp : e.page = 0) (he : evtSet x e u = true) :
    evtSet z e u = true := by
  unfold evtSet at he ⊢
  rw [hp] at he ⊢
  rw [show getF z (pendFld 0) u = getF x (pendFld 0) u from K.getFk reg_pendFld0 hb u 0]
  exact he

theorem evtSet_failDescs {e : Evt} (hp : e.page = 0) (hb : e.bit < 32) (u v : Nat) : ∀ (l : List QDesc) (z : State),
    evtSet z e u = true → evtSet (failDescs v l z) e u = true
  | [], _, h => h
  | q :: l, z, h => by
    unfold failDescs
    refine evtSet_failDescs hp hb u v l _ ?_
    refine evtSet_kept (settleDesc_keeps (Has.refl _) v q (Keeps.refl _ _)) (by decide) hp (evtSet_setEvt_of ?_ hb)
    have ha : apart CLUSTER_ADOPT_FAIL_CNT (pendFld e.page) = true := by rw [hp]; decide
    have hc : apart TUNIT_DESC_DONE (pendFld e.page) = true := by rw [hp]; decide
    have hd : apart TUNIT_LAST_STAT (pendFld e.page) = true := by rw [hp]; decide
    rw [evtSet_incr ha]
    refine evtSet_setEvt_of ?_ hb
    rw [evtSet_incr hc, evtSet_setF hd]
    exact h

theorem evtSet_adoptFail {e : Evt} (hp : e.page = 0) (hb : e.bit < 32) (u v : Nat) (z : State) (h : evtSet z e u = true) :
    evtSet (adoptFail v z) e u = true := by
  unfold adoptFail
  exact evtSet_failDescs hp hb u v _ _ (evtSet_kept (putUnit_keeps (Has.refl _) v _ (Keeps.refl _ z)) (by decide) hp h)

theorem evtSet_placeFences {e : Evt} (hp : e.page = 0) (hb : e.bit < 32) (u cl : Nat) : ∀ (n : Nat) (z : State),
    evtSet z e u = true → evtSet (placeFences cl n z) e u = true
  | 0, _, h => h
  | n + 1, z, h => by
    unfold placeFences
    dsimp only
    split
    · split
      · exact h
      · exact evtSet_placeFences hp hb u cl n _ (evtSet_adoptFail hp hb u _ z h)
    · exact h

theorem evtSet_failAdopted {e : Evt} (hp : e.page = 0) (hb : e.bit < 32) (u : Nat) (z : State) (h : evtSet z e u = true) :
    evtSet (failAdopted u z) e u = true := by
  unfold failAdopted
  dsimp only
  refine evtSet_kept (freeBank_keeps (Has.refl _) u (Keeps.refl _ _)) (by decide) hp (evtSet_failDescs hp hb u u _ _ ?_)
  have p := evtSet_kept (putUnit_keeps (Has.refl _) u { (unitOf z u) with run := (unitOf z u).run.filter fun q => !q.adopted, cq := (unitOf z u).cq.filter fun q => !q.adopted } (Keeps.refl _ z)) (by decide) hp h
  split
  · exact p
  · exact p

/-- A unit that was not fenced is fenced by a fence, and says so. -/
theorem fenceUnit_spec {u : Nat} {s : State} (h : fenced s u = false) :
    fenced (fenceUnit u s) u = true ∧ getF (fenceUnit u s) TUNIT_STAT_BUSY u = 0 ∧ evtSet (fenceUnit u s) TUNIT_EV_FENCE u = true ∧
      (∀ e : Evt, e.page = 0 → e.bit < 32 → evtSet s e u = true → evtSet (fenceUnit u s) e u = true) := by
  unfold fenceUnit
  rw [h]
  simp only [Bool.false_eq_true, if_false]
  generalize hy : setEvt TUNIT_EV_FENCE u (setF TUNIT_STAT_FENCED u 1 (setF TUNIT_STAT_LEND u 0 s)) = y
  have y1 : getF y TUNIT_STAT_FENCED u = 1 := by
    subst hy; rw [getF_setEvt_apart (by decide), getF_setF_self _ _ _ _ (by decide)]; rfl
  have y2 : evtSet y TUNIT_EV_FENCE u = true := by subst hy; exact evtSet_setEvt (by decide) _ _
  have y3 : ∀ e : Evt, e.page = 0 → e.bit < 32 → evtSet s e u = true → evtSet y e u = true := fun e hp hb he => by
    subst hy
    refine evtSet_setEvt_of ?_ hb
    have ha : apart TUNIT_STAT_FENCED (pendFld e.page) = true := by rw [hp]; decide
    have hb : apart TUNIT_STAT_LEND (pendFld e.page) = true := by rw [hp]; decide
    rw [evtSet_setF ha, evtSet_setF hb]
    exact he
  clear hy
  generalize hv : failAdopted u (withdrawWide u y) = v
  have v1 : getF v TUNIT_STAT_FENCED u = 1 := by
    subst hv
    have k2 := (failAdopted_keeps (Has.refl _) u (Keeps.refl _ (withdrawWide u y))).getFk reg_TUNIT_STAT_FENCED (by decide) u 0
    have k3 := (withdrawWide_keeps (Has.refl _) u (Keeps.refl _ y)).getFk reg_TUNIT_STAT_FENCED (by decide) u 0
    exact k2.trans (k3.trans y1)
  have v2 : ∀ e : Evt, e.page = 0 → e.bit < 32 → evtSet y e u = true → evtSet v e u = true := fun e hp hb he => by
    subst hv
    exact evtSet_failAdopted hp hb u _ (evtSet_kept (withdrawWide_keeps (Has.refl _) u (Keeps.refl _ y)) (by decide) hp he)
  clear hv
  generalize hm : modCluster (u / 4) _ v = m
  have m1 : getF m TUNIT_STAT_FENCED u = 1 := by subst hm; exact v1
  have m2 : ∀ e : Evt, evtSet v e u = true → evtSet m e u = true := fun e he => by subst hm; exact he
  clear hm
  have p1 : getF (placeFences (u / 4) 4 m) TUNIT_STAT_FENCED u = 1 :=
    ((placeFences_keeps (Has.refl _) (u / 4) 4 (Keeps.refl _ m)).getFk reg_TUNIT_STAT_FENCED (by decide) u 0).trans m1
  have p2 : ∀ e : Evt, e.page = 0 → e.bit < 32 → evtSet y e u = true → evtSet (setF TUNIT_STAT_BUSY u 0 (placeFences (u / 4) 4 m)) e u = true := fun e hp hb he => by
    have ha : apart TUNIT_STAT_BUSY (pendFld e.page) = true := by rw [hp]; decide
    rw [evtSet_setF ha]
    exact evtSet_placeFences hp hb u (u / 4) 4 m (m2 e (v2 e hp hb he))
  refine ⟨?_, ?_, p2 _ rfl (by decide) y2, fun e hp hb he => p2 e hp hb (y3 e hp hb he)⟩
  · unfold fenced isF
    rw [getF_setF_apart (by decide), p1]
    rfl
  · rw [getF_setF_self _ _ _ _ (by decide)]; rfl

theorem tileEndFence_effect (u corr stall ahead : Nat) (fl : Flips) (q : QDesc) (w : List Nat) (row : Nat) (s : State) (h1 : stopped s = false) (h2 : domOn s (u / 32) = true) (h3 : fenced s u = false) (h4 : (unitOf s u).run = some q) (h5 : q.wide = false) (h6 : q.tile < mTiles q.desc) (h7 : formed s u q = some w) (h8 : missRow (getF s TUNIT_CHK_CFG_CHK_TOL u) (flipCol fl (checkCol (tileOps s (u / 4) q.desc q.tile))) (flipWords fl w) = some row) (h9 : (unitOf s u).tile.again = true) :
    fenced (runningIn (u / 32) s (tileEnd u corr false fl stall ahead s)) u = true ∧ getF (runningIn (u / 32) s (tileEnd u corr false fl stall ahead s)) TUNIT_STAT_BUSY u = 0 ∧ evtSet (runningIn (u / 32) s (tileEnd u corr false fl stall ahead s)) TUNIT_EV_FENCE u = true ∧ (runningIn (u / 32) s (tileEnd u corr false fl stall ahead s)).sram = s.sram := by
  rw [runningIn_eq _ _ h1 h2, tileEnd_check h3 h4 h5 h6 h7]
  generalize hy : unitEcc u corr (addF TUNIT_FEED_STALL u stall s) = y
  have yu : y.units = s.units := by subst hy; rw [unitEcc_units]; rfl
  have ys : y.sram = s.sram := by subst hy; rw [unitEcc_sram]; rfl
  have yt : getF y TUNIT_CHK_CFG_CHK_TOL u = getF s TUNIT_CHK_CFG_CHK_TOL u := by
    subst hy; rw [unitEcc_getF reg_TUNIT_CHK_CFG_CHK_TOL (by decide), getF_addF_apart (by decide)]
  have yc : getF y TUNIT_STAT_FENCED u = getF s TUNIT_STAT_FENCED u := by
    subst hy; rw [unitEcc_getF reg_TUNIT_STAT_FENCED (by decide), getF_addF_apart (by decide)]
  obtain ⟨_, x, -, ⟨xu, xs, xf⟩, e⟩ := checkTile_eq u q (flipWords fl w) (flipCol fl (checkCol (tileOps s (u / 4) q.desc q.tile))) ahead y
  rw [e]
  have uy : unitOf y u = unitOf s u := by unfold unitOf; rw [yu]
  rw [yt, h8, uy, h9]
  dsimp only
  simp only [if_true]
  unfold secondMissed
  generalize hz : unitErr u 9 q.tile (noteMissRow u row q.tile 1 x) = z
  have zf : fenced z u = false := by
    have k := (unitErr_keeps (Has.refl _) u 9 q.tile (Keeps.refl _ (noteMissRow u row q.tile 1 x))).getFk reg_TUNIT_STAT_FENCED (by decide) u 0
    have k2 := (noteMissRow_keeps (Has.refl _) u row q.tile 1 (Keeps.refl _ x)).getFk reg_TUNIT_STAT_FENCED (by decide) u 0
    have : getF z TUNIT_STAT_FENCED u = getF s TUNIT_STAT_FENCED u := by
      subst hz; exact k.trans (k2.trans ((xf _ _).trans yc))
    unfold fenced isF at h3 ⊢; rw [this]; exact h3
  have zs : z.sram = s.sram := by
    subst hz
    rw [(unitErr_keeps (Has.refl _) u 9 q.tile (Keeps.refl _ _)).sram (by decide), (noteMissRow_keeps (Has.refl _) u row q.tile 1 (Keeps.refl _ x)).sram (by decide), xs, ys]
  obtain ⟨a, b, c, _⟩ := fenceUnit_spec zf
  exact ⟨a, b, c, by rw [(fenceUnit_keeps (Has.refl _) u (Keeps.refl _ z)).sram (by decide), zs]⟩

theorem tileEndUncorr_effect (u corr stall ahead : Nat) (fl : Flips) (s : State) (h1 : stopped s = false) (h2 : domOn s (u / 32) = true) (h3 : fenced s u = false) :
    fenced (runningIn (u / 32) s (tileEnd u corr true fl stall ahead s)) u = true ∧ getF (runningIn (u / 32) s (tileEnd u corr true fl stall ahead s)) TUNIT_STAT_BUSY u = 0 ∧ evtSet (runningIn (u / 32) s (tileEnd u corr true fl stall ahead s)) TUNIT_EV_FENCE u = true ∧ evtSet (runningIn (u / 32) s (tileEnd u corr true fl stall ahead s)) TUNIT_EV_ECC_UNCORR u = true ∧ (runningIn (u / 32) s (tileEnd u corr true fl stall ahead s)).sram = s.sram := by
  rw [runningIn_eq _ _ h1 h2]
  have main : ∀ (k : Nat) (x : State), x.sram = s.sram → fenced x u = false →
      fenced (fenceUnit u (setEvt TUNIT_EV_ECC_UNCORR u (unitErr u 8 k x))) u = true ∧
      getF (fenceUnit u (setEvt TUNIT_EV_ECC_UNCORR u (unitErr u 8 k x))) TUNIT_STAT_BUSY u = 0 ∧
      evtSet (fenceUnit u (setEvt TUNIT_EV_ECC_UNCORR u (unitErr u 8 k x))) TUNIT_EV_FENCE u = true ∧
      evtSet (fenceUnit u (setEvt TUNIT_EV_ECC_UNCORR u (unitErr u 8 k x))) TUNIT_EV_ECC_UNCORR u = true ∧
      (fenceUnit u (setEvt TUNIT_EV_ECC_UNCORR u (unitErr u 8 k x))).sram = s.sram := fun k x xs xf => by
    generalize hz : setEvt TUNIT_EV_ECC_UNCORR u (unitErr u 8 k x) = z
    have zf : fenced z u = false := by
      have e := (unitErr_keeps (Has.refl _) u 8 k (Keeps.refl _ x)).getFk reg_TUNIT_STAT_FENCED (by decide) u 0
      have : getF z TUNIT_STAT_FENCED u = getF x TUNIT_STAT_FENCED u := by
        subst hz; rw [getF_setEvt_apart (by decide)]; exact e
      unfold fenced isF at xf ⊢; rw [this]; exact xf
    have zs : z.sram = s.sram := by
      subst hz
      rw [setEvt_sram, (unitErr_keeps (Has.refl _) u 8 k (Keeps.refl _ _)).sram (by decide), xs]
    have ze : evtSet z TUNIT_EV_ECC_UNCORR u = true := by subst hz; exact evtSet_setEvt (by decide) _ _
    obtain ⟨a, b, c, d⟩ := fenceUnit_spec zf
    exact ⟨a, b, c, d _ rfl (by decide) ze, by rw [(fenceUnit_keeps (Has.refl _) u (Keeps.refl _ z)).sram (by decide), zs]⟩
  have kf : ∀ x : State, fenced (unitEcc u corr x) u = fenced x u := fun x => by
    unfold fenced isF; rw [unitEcc_getF reg_TUNIT_STAT_FENCED (by decide)]
  have fs : fenced (addF TUNIT_FEED_STALL u stall s) u = false := by
    unfold fenced isF at h3 ⊢; rw [getF_addF_apart (by decide)]; exact h3
  unfold tileEnd
  rw [h3]
  simp only [Bool.false_eq_true, if_false, if_true]
  split
  · exact main 0 _ (unitEcc_sram ..) ((kf _).trans h3)
  · exact main _ _ (by rw [unitEcc_sram]; rfl) ((kf _).trans fs)

theorem forceFence_effect (r : Requester) (a v i : Nat) (s : State) (h1 : a % 4 = 0) (h2 : target s r a = some (0, i, 0x10)) (h3 : gate s r 0 i 0x10 = .pass) (h4 : v.testBit 2 = true) (h5 : fenced s i = false) :
    fenced (forceFence r a v s) i = true ∧ getF (forceFence r a v s) TUNIT_STAT_BUSY i = 0 ∧ evtSet (forceFence r a v s) TUNIT_EV_FENCE i = true ∧ getF (forceFence r a v s) TUNIT_CTRL_FORCE_FENCE i = 1 := by
  unfold forceFence
  rw [if_pos ⟨h1, h4⟩, guarded_pass h2 h3, if_pos ⟨rfl, rfl⟩]
  obtain ⟨a, b, c, _⟩ := fenceUnit_spec (u := i) (s := setF TUNIT_CTRL_FORCE_FENCE i 1 s) (by
    unfold fenced isF at h5 ⊢; rw [getF_setF_apart (by decide)]; exact h5)
  exact ⟨a, b, c, ((fenceUnit_keeps (Has.refl _) i (Keeps.refl _ _)).getFk reg_TUNIT_CTRL_FORCE_FENCE (by decide) i 0).trans (getF_setF_self _ _ _ _ (by decide))⟩

theorem resume_effect (r : Requester) (a v i : Nat) (s : State) (h1 : a % 4 = 0) (h2 : target s r a = some (0, i, 0x10)) (h3 : gate s r 0 i 0x10 = .pass) (h4 : v.testBit 3 = true) :
    (unitOf (resume r a v s) i).bad = none ∧ (unitOf (resume r a v s) i).badWide = none ∧ getF (resume r a v s) TUNIT_STAT_HALTED i = 0 ∧ (unitOf (resume r a v s) i).cq = (unitOf s i).cq ∧ (unitOf (resume r a v s) i).run = (unitOf s i).run := by
  unfold resume
  rw [if_pos ⟨h1, h4⟩, guarded_pass h2 h3, if_pos ⟨rfl, rfl⟩]
  unfold resumeUnit
  dsimp only
  generalize hy : putUnit i { (unitOf s i) with bad := none, badWide := none } s = y
  have yu : unitOf y i = { (unitOf s i) with bad := none, badWide := none } := by subst hy; exact unitOf_putUnit_self ..
  have yh : getF y TUNIT_STAT_HALTED i = 0 := by
    subst hy; unfold putUnit
    rw [getF_setF_apart (by decide), getF_setF_self _ _ _ _ (by decide)]; rfl
  have fb : ∀ x : State, unitOf x i = unitOf y i → getF x TUNIT_STAT_HALTED i = 0 →
      (unitOf (freeBank i x) i).bad = none ∧ (unitOf (freeBank i x) i).badWide = none ∧ getF (freeBank i x) TUNIT_STAT_HALTED i = 0 ∧
        (unitOf (freeBank i x) i).cq = (unitOf s i).cq ∧ (unitOf (freeBank i x) i).run = (unitOf s i).run := fun x xu xh => by
    unfold freeBank
    split
    · rw [unitOf_setF, unitOf_setF, unitOf_modUnit_self, xu, yu]
      refine ⟨rfl, rfl, ?_, rfl, rfl⟩
      rw [getF_setF_apart (by decide), getF_setF_apart (by decide)]
      unfold modUnit putUnit
      rw [getF_setF_apart (by decide), getF_setF_self _ _ _ _ (by decide), xu, yu]
      rfl
    · rw [xu, yu]
      exact ⟨rfl, rfl, xh, rfl, rfl⟩
  have k := fun l p => passDone_keeps (Has.refl _) (i / 4) l p false [] (Keeps.refl _ y)
  split
  · refine fb _ ?_ ?_
    · unfold unitOf; rw [(k _ _).units (by decide)]
    · exact ((k _ _).getFk reg_TUNIT_STAT_HALTED (by decide) i 0).trans yh
  · exact fb y rfl yh

/-- Freeing an adopted bank leaves a unit's work. -/
theorem freeBank_run (u : Nat) (s : State) : (unitOf (freeBank u s) u).run = (unitOf s u).run ∧ (unitOf (freeBank u s) u).cq = (unitOf s u).cq := by
  unfold freeBank
  split
  · rw [unitOf_setF, unitOf_setF, unitOf_modUnit_self]; exact ⟨rfl, rfl⟩
  · exact ⟨rfl, rfl⟩

theorem adoptCopyDone_effect (cl f n : Nat) (s : State) (h1 : stopped s = false) (h2 : domOn s (32 + cl / 8) = true) (h3 : (clusterOf s cl).copying = some (f, n)) (h4 : (clusterOf s cl).fences = [f]) (h5 : f ≠ n) (h6 : f < 4) (h7 : n < 4) (h8 : floatWork (unitOf s (cl * 4 + f)) ≠ []) (h9 : (unitOf s (cl * 4 + n)).cq.length + (floatWork (unitOf s (cl * 4 + f))).length ≤ 16) :
    (unitOf (runningIn (32 + cl / 8) s (adoptCopyDone cl true s)) (cl * 4 + n)).cq = (unitOf s (cl * 4 + n)).cq ++ (floatWork (unitOf s (cl * 4 + f))).map (moveDesc (cl * 4 + f)) ∧ (unitOf (runningIn (32 + cl / 8) s (adoptCopyDone cl true s)) (cl * 4 + n)).acc = copyBank (unitOf s (cl * 4 + f)).acc (unitOf s (cl * 4 + n)).acc ∧ (unitOf (runningIn (32 + cl / 8) s (adoptCopyDone cl true s)) (cl * 4 + f)).cq = [] ∧ (unitOf (runningIn (32 + cl / 8) s (adoptCopyDone cl true s)) (cl * 4 + f)).run = none ∧ getF (runningIn (32 + cl / 8) s (adoptCopyDone cl true s)) TUNIT_STAT_ADOPTING (cl * 4 + n) = 1 ∧ getF (runningIn (32 + cl / 8) s (adoptCopyDone cl true s)) TUNIT_STAT_ADOPTED_FROM (cl * 4 + n) = f ∧ (clusterOf (runningIn (32 + cl / 8) s (adoptCopyDone cl true s)) cl).copying = none ∧ (clusterOf (runningIn (32 + cl / 8) s (adoptCopyDone cl true s)) cl).fences = [] := by
  rw [runningIn_eq _ _ h1 h2]
  unfold adoptCopyDone
  dsimp only
  rw [h3]
  dsimp only
  rw [decide_eq_false (by omega)]
  simp only [Bool.and_false, Bool.false_eq_true, if_false, if_true]
  generalize hy : modCluster cl (fun c => { c with copying := none, fences := c.fences.filter (· ≠ f) }) s = y
  have yu : ∀ k, unitOf y k = unitOf s k := fun k => by subst hy; rfl
  have yc : (clusterOf y cl).copying = none ∧ (clusterOf y cl).fences = [] := by
    subst hy; rw [clusterOf_modCluster_self]; simp [h4]
  have ne : cl * 4 + n ≠ cl * 4 + f := by omega
  have ne' : cl * 4 + f ≠ cl * 4 + n := by omega
  generalize hm : moveWork cl f n y = m
  have main : (unitOf m (cl * 4 + n)).cq = (unitOf s (cl * 4 + n)).cq ++ (floatWork (unitOf s (cl * 4 + f))).map (moveDesc (cl * 4 + f)) ∧
      (unitOf m (cl * 4 + n)).acc = copyBank (unitOf s (cl * 4 + f)).acc (unitOf s (cl * 4 + n)).acc ∧ (unitOf m (cl * 4 + f)).cq = [] ∧
      (unitOf m (cl * 4 + f)).run = none ∧ getF m TUNIT_STAT_ADOPTING (cl * 4 + n) = 1 ∧ getF m TUNIT_STAT_ADOPTED_FROM (cl * 4 + n) = f ∧
      clusterOf m cl = clusterOf y cl := by
    subst hm
    unfold moveWork
    dsimp only
    rw [yu, yu]
    have len : ((unitOf s (cl * 4 + n)).cq ++ (floatWork (unitOf s (cl * 4 + f))).map (moveDesc (cl * 4 + f))).length ≤ 16 := by
      simpa using h9
    rw [List.take_of_length_le len, List.drop_of_length_le len]
    simp only [List.isEmpty_nil, if_true]
    generalize hz : setF TUNIT_STAT_ADOPTING (cl * 4 + n) 1 _ = z
    have zn : unitOf z (cl * 4 + n) = { (unitOf s (cl * 4 + n)) with cq := (unitOf s (cl * 4 + n)).cq ++ (floatWork (unitOf s (cl * 4 + f))).map (moveDesc (cl * 4 + f)), acc := copyBank (unitOf s (cl * 4 + f)).acc (unitOf s (cl * 4 + n)).acc } := by
      subst hz; rw [unitOf_setF, unitOf_setF, unitOf_putUnit_self]
    have zf : unitOf z (cl * 4 + f) = { (unitOf s (cl * 4 + f)) with run := none, tile := {}, cq := [] } := by
      subst hz; rw [unitOf_setF, unitOf_setF, unitOf_putUnit_ne ne, unitOf_putUnit_self]
    have za : getF z TUNIT_STAT_ADOPTING (cl * 4 + n) = 1 := by
      subst hz; rw [getF_setF_self _ _ _ _ (by decide)]; rfl
    have zb : getF z TUNIT_STAT_ADOPTED_FROM (cl * 4 + n) = f := by
      subst hz; rw [getF_setF_apart (by decide), getF_setF_self _ _ _ _ (by decide)]
      exact Nat.mod_eq_of_lt h6
    have zc : clusterOf z cl = clusterOf y cl := by subst hz; rfl
    have left : adoptedLeft z (cl * 4 + n) = true := by
      unfold adoptedLeft
      dsimp only
      rw [zn]
      have : ((unitOf s (cl * 4 + n)).cq ++ (floatWork (unitOf s (cl * 4 + f))).map (moveDesc (cl * 4 + f))).any (·.adopted) = true := by
        rw [List.any_append, Bool.or_eq_true]
        right
        cases hw : floatWork (unitOf s (cl * 4 + f)) with
        | nil => exact absurd hw h8
        | cons w l => simp [moveDesc]
      rw [this]
      simp
    have fz : freeBank (cl * 4 + n) z = z := by
      unfold freeBank
      rw [left]
      simp
    rw [fz, zn, zf]
    exact ⟨rfl, rfl, rfl, rfl, za, zb, zc⟩
  obtain ⟨a1, a2, a3, a4, a5, a6, a7⟩ := main
  have pf : placeFences cl 4 m = m := by
    unfold placeFences
    dsimp only
    rw [a7, yc.1, yc.2]
  rw [pf]
  exact ⟨a1, a2, a3, a4, a5, a6, by rw [a7]; exact yc.1, by rw [a7]; exact yc.2⟩

theorem adoptionBufferEnter_effect (cl : Nat) (q : QDesc) (r : List QDesc) (s : State) (h1 : stopped s = false) (h2 : domOn s (32 + cl / 8) = true) (h3 : (clusterOf s cl).buf = q :: r) (h4 : (unitOf s (cl * 4 + (clusterOf s cl).bufTo)).cq.length < 16) :
    (unitOf (runningIn (32 + cl / 8) s (adoptionBufferEnter cl s)) (cl * 4 + (clusterOf s cl).bufTo)).cq = (unitOf s (cl * 4 + (clusterOf s cl).bufTo)).cq ++ [q] ∧ (clusterOf (runningIn (32 + cl / 8) s (adoptionBufferEnter cl s)) cl).buf = r := by
  rw [runningIn_eq _ _ h1 h2]
  unfold adoptionBufferEnter
  dsimp only
  rw [h3]
  dsimp only
  rw [if_pos h4]
  refine ⟨?_, ?_⟩
  · rw [unitOf_modUnit_self, unitOf_modCluster]
  · rw [clusterOf_modUnit, clusterOf_modCluster_self]

theorem descComplete_effect (u : Nat) (q : QDesc) (s : State) (h1 : stopped s = false) (h2 : domOn s (u / 32) = true) (h3 : fenced s u = false) (h4 : (unitOf s u).run = some q) (h5 : q.wide = false) (h6 : mTiles q.desc ≤ q.tile) :
    (unitOf (runningIn (u / 32) s (descComplete u s)) u).run = none ∧ (unitOf (runningIn (u / 32) s (descComplete u s)) u).cq = (unitOf s u).cq ∧ getF (runningIn (u / 32) s (descComplete u s)) TUNIT_LAST_STAT u = (q.status ||| (if q.adopted then 4 else 0)) % 32 ∧ getF (runningIn (u / 32) s (descComplete u s)) TUNIT_DESC_DONE u = (getF s TUNIT_DESC_DONE u + 1) % 2 ^ 32 := by
  rw [runningIn_eq _ _ h1 h2]
  unfold descComplete
  rw [h3, h4]
  simp only [Bool.false_eq_true, if_false]
  rw [h5]
  simp only [Bool.false_eq_true, if_false, if_pos h6]
  unfold floatComplete
  dsimp only
  generalize hx : (if q.adopted then incr TUNIT_ADOPT_CNT u s else s) = x
  have xu : unitOf x u = unitOf s u := by subst hx; split <;> rfl
  have xd : getF x TUNIT_DESC_DONE u = getF s TUNIT_DESC_DONE u := by
    subst hx
    split
    · exact getF_incr_apart (by decide) _ _ _
    · rfl
  generalize hst : (q.status ||| if q.adopted then 4 else 0) = st
  generalize hy : incr TUNIT_DESC_DONE u (setF TUNIT_LAST_STAT u st (modUnit u (fun x => { x with run := none, tile := {} }) x)) = y
  have y1 : (unitOf y u).run = none ∧ (unitOf y u).cq = (unitOf s u).cq := by
    subst hy; rw [unitOf_incr, unitOf_setF, unitOf_modUnit_self, xu]; exact ⟨rfl, rfl⟩
  have y2 : getF y TUNIT_LAST_STAT u = st % 32 := by
    subst hy; rw [getF_incr_apart (by decide), getF_setF_self _ _ _ _ (by decide)]; rfl
  have y3 : getF y TUNIT_DESC_DONE u = (getF s TUNIT_DESC_DONE u + 1) % 2 ^ 32 := by
    subst hy; rw [getF_incr_self _ _ _ (by decide), getF_setF_apart (by decide)]
    have : getF (modUnit u (fun x => { x with run := none, tile := {} }) x) TUNIT_DESC_DONE u = getF x TUNIT_DESC_DONE u := by
      exact (modUnit_keeps (Has.refl _) u _ (Keeps.refl _ x)).getFk reg_TUNIT_DESC_DONE (by decide) u 0
    rw [this, xd]
  clear hy
  have ok : ∀ {m : Nat} {z w : State} (K : Keeps m z w), m.testBit 15 = false → m.testBit 64 = false → m.testBit 73 = false →
      ((unitOf z u).run = none ∧ (unitOf z u).cq = (unitOf s u).cq) ∧ getF z TUNIT_LAST_STAT u = st % 32 ∧ getF z TUNIT_DESC_DONE u = (getF s TUNIT_DESC_DONE u + 1) % 2 ^ 32 →
      ((unitOf w u).run = none ∧ (unitOf w u).cq = (unitOf s u).cq) ∧ getF w TUNIT_LAST_STAT u = st % 32 ∧ getF w TUNIT_DESC_DONE u = (getF s TUNIT_DESC_DONE u + 1) % 2 ^ 32 := by
    intro m z w K a b c h
    have e : unitOf w u = unitOf z u := by unfold unitOf; rw [K.units a]
    rw [e, show getF w TUNIT_LAST_STAT u = getF z TUNIT_LAST_STAT u from K.getFk reg_TUNIT_LAST_STAT c u 0,
      show getF w TUNIT_DESC_DONE u = getF z TUNIT_DESC_DONE u from K.getFk reg_TUNIT_DESC_DONE b u 0]
    exact h
  generalize hz : (if mFlagEn q.desc then signalFlag (u / 4) q.ctx (mFlag q.desc) y else y) = z
  have z0 : ((unitOf z u).run = none ∧ (unitOf z u).cq = (unitOf s u).cq) ∧ getF z TUNIT_LAST_STAT u = st % 32 ∧ getF z TUNIT_DESC_DONE u = (getF s TUNIT_DESC_DONE u + 1) % 2 ^ 32 := by
    subst hz
    split
    · exact ok (signalFlag_keeps (Has.refl _) _ _ _ (Keeps.refl _ y)) (by decide) (by decide) (by decide) ⟨y1, y2, y3⟩
    · exact ⟨y1, y2, y3⟩
  clear hz
  have v0 := ok (settleDesc_keeps (Has.refl _) u q (Keeps.refl _ z)) (by decide) (by decide) (by decide) z0
  generalize settleDesc u q z = v at v0
  have fk := freeBank_keeps (Has.refl _) u (Keeps.refl _ v)
  refine ⟨(freeBank_run u v).1.trans v0.1.1, (freeBank_run u v).2.trans v0.1.2, ?_, ?_⟩
  · exact (fk.getFk reg_TUNIT_LAST_STAT (by decide) u 0).trans v0.2.1
  · exact (fk.getFk reg_TUNIT_DESC_DONE (by decide) u 0).trans v0.2.2

theorem descCompleteWide_effect (u : Nat) (q : QDesc) (s : State) (h1 : stopped s = false) (h2 : domOn s (u / 32) = true) (h3 : fenced s u = false) (h4 : (unitOf s u).run = some q) (h5 : q.wide = true) :
    (unitOf (runningIn (u / 32) s (descComplete u s)) u).run = none ∧ getF (runningIn (u / 32) s (descComplete u s)) TUNIT_DESC_DONE u = (getF s TUNIT_DESC_DONE u + 1) % 2 ^ 32 ∧ getF (runningIn (u / 32) s (descComplete u s)) TUNIT_WIDE_DESC u = (getF s TUNIT_WIDE_DESC u + 1) % 2 ^ 32 := by
  rw [runningIn_eq _ _ h1 h2]
  unfold descComplete
  rw [h3, h4]
  simp only [Bool.false_eq_true, if_false]
  rw [h5]
  simp only [if_true]
  unfold wideComplete
  dsimp only
  generalize hx : (if (wideTiles u q.desc (mTiles q.desc) (tallyAdd (u / 4) q.ctx 3 (mTiles q.desc * mK q.desc) s)).1 = 0 then (_ : State) else _) = x
  have xd : ∀ {g : Fld} {m : Nat}, IsReg g m → apart TUNIT_BX_SAT_CNT g = true → apart (pendFld 0) g = true → Nat.testBit 0x1890000000008010 m = false → getF x g u = getF s g u := by
    intro g m hg a1 a2 hb
    have k : getF (wideTiles u q.desc (mTiles q.desc) (tallyAdd (u / 4) q.ctx 3 (mTiles q.desc * mK q.desc) s)).2 g u = getF s g u :=
      (wideTiles_keeps (Has.refl _) u q.desc _ (Keeps.refl _ (tallyAdd (u / 4) q.ctx 3 (mTiles q.desc * mK q.desc) s))).getFk hg hb u 0
    subst hx
    split
    · exact k
    · rw [getF_setEvt_apart a2, getF_addF_apart a1]; exact k
  clear hx
  generalize (wideTiles u q.desc (mTiles q.desc) (tallyAdd (u / 4) q.ctx 3 (mTiles q.desc * mK q.desc) s)).1 = k
  generalize hy : modUnit u (fun x => { x with run := none, tile := {} }) _ = y
  have mk := fun z => modUnit_keeps (Has.refl _) u (fun x => { x with run := none, tile := {} }) (Keeps.refl _ z)
  have y1 : (unitOf y u).run = none := by subst hy; rw [unitOf_modUnit_self]
  have y2 : getF y TUNIT_DESC_DONE u = (getF s TUNIT_DESC_DONE u + 1) % 2 ^ 32 := by
    subst hy
    rw [show ∀ z, getF (modUnit u (fun x => { x with run := none, tile := {} }) z) TUNIT_DESC_DONE u = getF z TUNIT_DESC_DONE u from fun z => (mk z).getFk reg_TUNIT_DESC_DONE (by decide) u 0]
    rw [getF_incr_self _ _ _ (by decide), getF_incr_apart (by decide), getF_setF_apart (by decide), xd reg_TUNIT_DESC_DONE (by decide) (by decide) (by decide)]
  have y3 : getF y TUNIT_WIDE_DESC u = (getF s TUNIT_WIDE_DESC u + 1) % 2 ^ 32 := by
    subst hy
    rw [show ∀ z, getF (modUnit u (fun x => { x with run := none, tile := {} }) z) TUNIT_WIDE_DESC u = getF z TUNIT_WIDE_DESC u from fun z => (mk z).getFk reg_TUNIT_WIDE_DESC (by decide) u 0]
    rw [getF_incr_apart (by decide), getF_incr_self _ _ _ (by decide), getF_setF_apart (by decide), xd reg_TUNIT_WIDE_DESC (by decide) (by decide) (by decide)]
  split
  · have K := signalFlag_keeps (Has.refl _) (u / 4) q.ctx (mFlag q.desc) (Keeps.refl _ y)
    refine ⟨?_, (K.getFk reg_TUNIT_DESC_DONE (by decide) u 0).trans y2, (K.getFk reg_TUNIT_WIDE_DESC (by decide) u 0).trans y3⟩
    unfold unitOf; rw [K.units (by decide)]; exact y1
  · exact ⟨y1, y2, y3⟩

end Sys2Proof.Machine
end

