-- ==== Sys2Proof/Laws/EffectsNumerics.lean ====
section
/-! SUPPORT. What the commands do: the commands of numerics. -/

namespace Sys2Proof.Machine

set_option linter.unusedSimpArgs false

/-- What is left of a list after the end of a list was looked for was there before. -/
theorem listOf_endList {cl lid : Nat} {s : State} {y : ListRun} (h : listOf (endList cl lid s) cl lid = some y) : listOf s cl lid = some y := by
  unfold endList at h
  split at h
  · next hn => rw [hn] at h; cases h
  · next l hl =>
    split at h
    · exfalso
      have e : ∀ (h : Nat) (z : State), listOf (listsDone h z) cl lid = listOf z cl lid := fun h z => by
        apply listOf_congr; unfold listsDone; split <;> rfl
      rw [e] at h
      unfold listOf at h
      rw [clusterOf_modCluster_self] at h
      dsimp only at h
      have h2 := List.mem_of_find?_eq_some h
      have h3 := List.find?_some h
      simp only [List.mem_filter, bne_iff_ne, ne_eq] at h2
      simp only [beq_iff_eq] at h3
      exact h2.2 h3
    · exact h

/-- A list whose descriptor has been taken holds none. -/
theorem descTaken_desc {cl lid : Nat} {s : State} {y : ListRun} (h : listOf (descTaken cl lid s) cl lid = some y) : y.desc = none := by
  unfold descTaken at h
  have h2 := listOf_endList h
  unfold listOf modList at h2
  rw [clusterOf_modCluster_self] at h2
  have e := find_map_same (fun x : ListRun => x.id == lid) (fun x => if x.id = lid then { x with desc := none } else x)
    (fun x => by by_cases c : x.id = lid <;> simp [c]) (clusterOf s cl).lists
  dsimp only at e h2
  rw [e] at h2
  cases hf : (clusterOf s cl).lists.find? (fun x => x.id == lid) with
  | none => rw [hf] at h2; cases h2
  | some x =>
    rw [hf] at h2
    have hx : x.id = lid := by simpa using List.find?_some hf
    simp only [Option.map_some, hx, if_true, Option.some.injEq] at h2
    rw [← h2]

theorem descInHand_list {s : State} {cl lid g : Nat} {l : ListRun} {d : List Byte} (h : descInHand s cl lid g = some (l, d)) : listOf s cl lid = some l := by
  unfold descInHand at h
  split at h
  · cases h
  · next y hy =>
    split at h
    · cases hd : y.desc.filter fun d => dop d / 16 == g with
      | none => rw [hd] at h; cases h
      | some z => rw [hd] at h; cases h; exact hy
    · cases h

/-- A list that halts. -/
theorem listOf_haltList {s : State} {cl lid : Nat} {l : ListRun} (h : listOf s cl lid = some l) :
    listOf (haltList cl lid s) cl lid = some { l with st := .halted, desc := none, gated := [] } :=
  listOf_modList_self (f := fun l => { l with st := .halted, desc := none, gated := [] }) h (fun _ => rfl)

theorem getF_modList (cl lid : Nat) (f : ListRun → ListRun) (s : State) (g : Fld) (i : Nat) : getF (modList cl lid f s) g i = getF s g i := rfl

theorem fp32s_length (s : State) (cl a : Nat) : ∀ n : Nat, (fp32s s cl a n).length = n
  | 0 => rfl
  | n + 1 => by unfold fp32s; rw [List.length_append, fp32s_length s cl a n]; rfl

theorem leBytes_len (n v : Nat) : (leBytes n v).length = n := by
  induction n generalizing v with
  | zero => rfl
  | succ n ih => unfold leBytes; rw [List.length_cons, ih]

theorem fp32Bytes_length : ∀ l : List FV, (fp32Bytes l).length = 4 * l.length
  | [] => rfl
  | x :: l => by
    show (leBytes 4 (word32 x) ++ fp32Bytes l).length = _
    rw [List.length_append, fp32Bytes_length l, leBytes_len, List.length_cons]; omega

theorem getAll_length (st : Store Byte) : ∀ n k : Nat, (Store.getAll (0 : Byte) st k n).length = n
  | 0, _ => rfl
  | n + 1, k => by unfold Store.getAll; rw [List.length_cons, getAll_length st n]

theorem getF_lt32 (s : State) (f : Fld) (i : Nat) : getF s f i < 2 ^ 32 := BitVec.isLt _

theorem getF_addF_self (f : Fld) (i n : Nat) (s : State) (hw : f.w = 32) : getF (addF f i n s) f i = (getF s f i + n) % 2 ^ 32 := by
  unfold addF addFk getF
  rw [getFk_setFk_self _ _ _ _ _ (by omega), hw]
  exact Nat.mod_mod _ _

/-- Taking a stash descriptor leaves its completion status standing. -/
theorem descTaken_stash (cl lid : Nat) (s : State) : (clusterOf (descTaken cl lid s) cl).stash = (clusterOf s cl).stash := by
  have e : (clusterOf (modList cl lid (fun l => { l with desc := none }) s) cl).stash = (clusterOf s cl).stash := by
    unfold modList; rw [clusterOf_modCluster_self]
  rw [← e]
  unfold descTaken
  generalize modList cl lid (fun l => { l with desc := none }) s = z
  unfold endList
  split
  · rfl
  · split
    · have d : ∀ (h : Nat) (y : State), clusterOf (listsDone h y) cl = clusterOf y cl := fun h y => by unfold listsDone; split <;> rfl
      rw [d, clusterOf_modCluster_self]
    · rfl

/-- A list that takes its descriptor to the end. -/
theorem stashRun_valid {s : State} {op cl lid : Nat} {l : ListRun} {d : List Byte} (f : Nat → List Byte → State → State) (h : descInHand s cl lid 4 = some (l, d))
    (h4 : stashCode d = 0) (h5 : dop d = op) :
    (stashRun op cl lid f s).mem = (f cl d s).mem ∧ (stashRun op cl lid f s).sram = (f cl d s).sram ∧
      (∀ g n, IsReg g n → Nat.testBit 0x400019800000000000000000000000000000000000000000000080000205800 n = false → ∀ i, getF (stashRun op cl lid f s) g i = getF (f cl d s) g i) ∧
      (∀ y, listOf (stashRun op cl lid f s) cl lid = some y → y.desc = none) ∧
      (clusterOf (stashRun op cl lid f s) cl).stash = (clusterOf (f cl d s) cl).stash := by
  unfold stashRun
  rw [h]
  dsimp only
  rw [if_neg (by simp [h4]), if_neg (by simp [h5])]
  have hk : ∀ z : State, Keeps 0x400019800000000000000000000000000000000000000000000080000205800 z
      (descTaken cl lid (if stFlagEn d then signalFlag cl l.ctx (stFlag d) z else z)) := fun z => by
    refine descTaken_keeps ((Has.refl _).sub rfl) cl lid ?_
    split
    · exact signalFlag_keeps ((Has.refl _).sub rfl) cl l.ctx (stFlag d) (Keeps.refl _ z)
    · exact Keeps.refl _ z
  have K := hk (f cl d s)
  exact ⟨K.mem (by decide), K.sram (by decide), fun g n hg hn i => K.getFk hg hn i 0, fun y hy => descTaken_desc hy, by
    rw [descTaken_stash]
    split
    · unfold clusterOf; rw [(signalFlag_keeps (Has.refl _) cl l.ctx (stFlag d) (Keeps.refl _ (f cl d s))).clusters (by decide)]
    · rfl⟩

/-- The sum that a fold writes. -/
theorem foldSum_length (s : State) (cl dst part n k : Nat) :
    (if k = 0 then sramRead s cl part (4 * n) else fp32Bytes (((fp32s s cl dst n).zip (fp32s s cl part n)).map fun e => add32 e.1 e.2)).length = 4 * n := by
  split
  · exact getAll_length ..
  · rw [fp32Bytes_length, List.length_map, List.length_zip, fp32s_length, fp32s_length]; omega

theorem reductionFold_effect (cl dst part n k : Nat) (last : Bool) (s : State) (h1 : stopped s = false) (h2 : domOn s (32 + cl / 8) = true) (h3 : (clusterOf s cl).folds.get 0 dst = k) :
    sramRead (runningIn (32 + cl / 8) s (reductionFold cl dst part n k last s)) cl dst (4 * n) = (if k = 0 then sramRead s cl part (4 * n) else fp32Bytes (((fp32s s cl dst n).zip (fp32s s cl part n)).map fun e => add32 e.1 e.2)) ∧ (∀ j, j < sramKey cl dst ∨ sramKey cl dst + 4 * n ≤ j → Store.get (0 : Byte) (runningIn (32 + cl / 8) s (reductionFold cl dst part n k last s)).sram j = Store.get (0 : Byte) s.sram j) ∧ (clusterOf (runningIn (32 + cl / 8) s (reductionFold cl dst part n k last s)) cl).folds.get 0 dst = if last then 0 else k + 1 := by
  rw [runningIn_eq _ _ h1 h2]
  unfold reductionFold
  rw [if_pos h3]
  dsimp only
  have hl := foldSum_length s cl dst part n k
  generalize (if k = 0 then sramRead s cl part (4 * n) else fp32Bytes (((fp32s s cl dst n).zip (fp32s s cl part n)).map fun e => add32 e.1 e.2)) = bs at hl ⊢
  refine ⟨?_, fun j hj => ?_, ?_⟩
  · rw [← hl]; exact sramRead_sramWrite cl dst bs s
  · exact Store.get_putAll_of_not_mem bs _ _ (by rw [hl]; exact hj)
  · rw [clusterOf_modCluster_self]; exact Store.get_put_self ..

theorem cvtTile_count (cl : Nat) (l : ListRun) (d : List Byte) (t : Nat) (s : State) (hf : cDstFmt d ≠ 4) :
    getF (cvtTile cl l d t s) CLUSTER_CVT_TILES cl = (getF s CLUSTER_CVT_TILES cl + 1) % 2 ^ 32 := by
  unfold cvtTile
  dsimp only
  rw [if_neg hf]
  have pw : ∀ (b st n r c : Nat) (ws : List Nat) (m : Nat) (z : State), getF (tilePut cl b st n r c ws m z) CLUSTER_CVT_TILES cl = getF z CLUSTER_CVT_TILES cl := by
    intro b st n r c ws m z
    induction m with
    | zero => rfl
    | succ m ih => exact ih
  have te : ∀ (top : Option Int), getF (tileExp cl l d t top s).2 CLUSTER_CVT_TILES cl = getF s CLUSTER_CVT_TILES cl := fun top =>
    (tileExp_keeps (Has.refl _) cl l d t top (Keeps.refl _ s)).getFk reg_CLUSTER_CVT_TILES (by decide) cl 0
  split
  · rw [show ∀ a b z, getF (sramWrite cl a b z) CLUSTER_CVT_TILES cl = getF z CLUSTER_CVT_TILES cl from fun _ _ _ => rfl,
      show ∀ a b z, getF (sramWrite cl a b z) CLUSTER_CVT_TILES cl = getF z CLUSTER_CVT_TILES cl from fun _ _ _ => rfl,
      getF_incr_self _ _ _ (by decide), pw, te]
  · rw [show ∀ a b z, getF (sramWrite cl a b z) CLUSTER_CVT_TILES cl = getF z CLUSTER_CVT_TILES cl from fun _ _ _ => rfl,
      getF_incr_self _ _ _ (by decide), pw, te]

theorem cvtTiles_count (cl : Nat) (l : ListRun) (d : List Byte) (hf : cDstFmt d ≠ 4) : ∀ (n : Nat) (s : State),
    getF (cvtTiles cl l d n s) CLUSTER_CVT_TILES cl = (getF s CLUSTER_CVT_TILES cl + n) % 2 ^ 32
  | 0, s => by
    have h := getF_lt32 s CLUSTER_CVT_TILES cl
    unfold cvtTiles
    exact (Nat.mod_eq_of_lt h).symm
  | n + 1, s => by
    unfold cvtTiles
    rw [cvtTile_count cl l d n _ hf, cvtTiles_count cl l d hf n s]
    omega

theorem conversionDescriptor_effect (cl lid : Nat) (l : ListRun) (d : List Byte) (s : State) (h1 : stopped s = false) (h2 : domOn s (32 + cl / 8) = true) (h3 : descInHand s cl lid 3 = some (l, d)) (h4 : cvtCode d = 0) (h5 : cDstFmt d ≠ 4) :
    (runningIn (32 + cl / 8) s (conversionDescriptor cl lid s)).sram = (sramWrite cl (cScale d + cTiles d) (List.replicate (pad64 (cTiles d) - cTiles d) 0) (cvtTiles cl l d (cTiles d) s)).sram ∧ getF (runningIn (32 + cl / 8) s (conversionDescriptor cl lid s)) CLUSTER_CVT_TILES cl = (getF s CLUSTER_CVT_TILES cl + cTiles d) % 2 ^ 32 ∧ (∀ y, listOf (runningIn (32 + cl / 8) s (conversionDescriptor cl lid s)) cl lid = some y → y.desc = none) := by
  rw [runningIn_eq _ _ h1 h2]
  unfold conversionDescriptor
  rw [h3]
  dsimp only
  rw [if_neg (by simp [h4])]
  have K := descTaken_keeps (Has.refl _) cl lid (Keeps.refl _ (convert cl l d s))
  have kf : (convert cl l d s).sram = (sramWrite cl (cScale d + cTiles d) (List.replicate (pad64 (cTiles d) - cTiles d) 0) (cvtTiles cl l d (cTiles d) s)).sram ∧ getF (convert cl l d s) CLUSTER_CVT_TILES cl = getF (sramWrite cl (cScale d + cTiles d) (List.replicate (pad64 (cTiles d) - cTiles d) 0) (cvtTiles cl l d (cTiles d) s)) CLUSTER_CVT_TILES cl := by
    unfold convert
    dsimp only
    split
    · have S := signalFlag_keeps (Has.refl _) cl l.ctx (cFlag d) (Keeps.refl _ (sramWrite cl (cScale d + cTiles d) (List.replicate (pad64 (cTiles d) - cTiles d) 0) (cvtTiles cl l d (cTiles d) s)))
      exact ⟨S.sram (by decide), S.getFk reg_CLUSTER_CVT_TILES (by decide) cl 0⟩
    · exact ⟨rfl, rfl⟩
  refine ⟨(K.sram (by decide)).trans kf.1, ?_, fun y hy => descTaken_desc hy⟩
  rw [K.getFk reg_CLUSTER_CVT_TILES (by decide) cl 0 |> (fun e : getF _ _ _ = getF _ _ _ => e), kf.2]
  exact cvtTiles_count cl l d h5 _ s

theorem cvtHalt_does {s : State} {cl lid : Nat} {l : ListRun} (code : Nat) (h : listOf s cl lid = some l) :
    listOf (cvtHalt cl lid code s) cl lid = some { l with st := .halted, desc := none, gated := [] } ∧
      getF (cvtHalt cl lid code s) CLUSTER_CVT_ERR_CODE cl = code % 2 ^ CLUSTER_CVT_ERR_CODE.w ∧
      evtSet (cvtHalt cl lid code s) CLUSTER_EV_CVT_INVALID cl = true ∧ (cvtHalt cl lid code s).sram = s.sram := by
  unfold cvtHalt
  refine ⟨listOf_haltList (by rw [← h]; apply listOf_congr; simp), ?_, ?_, ?_⟩
  · show getF (setEvt CLUSTER_EV_CVT_INVALID cl (setF CLUSTER_CVT_ERR_CODE cl code s)) CLUSTER_CVT_ERR_CODE cl = _
    rw [getF_setEvt_apart (by decide), getF_setF_self _ _ _ _ (by decide)]
  · exact evtSet_setEvt (by decide) _ _
  · show (setEvt CLUSTER_EV_CVT_INVALID cl (setF CLUSTER_CVT_ERR_CODE cl code s)).sram = s.sram
    simp

theorem conversionInvalid_effect (cl lid : Nat) (l : ListRun) (d : List Byte) (s : State) (h1 : stopped s = false) (h2 : domOn s (32 + cl / 8) = true) (h3 : descInHand s cl lid 3 = some (l, d)) (h4 : cvtCode d ≠ 0) :
    listOf (runningIn (32 + cl / 8) s (conversionDescriptor cl lid s)) cl lid = some { l with st := .halted, desc := none, gated := [] } ∧ getF (runningIn (32 + cl / 8) s (conversionDescriptor cl lid s)) CLUSTER_CVT_ERR_CODE cl = cvtCode d % 2 ^ CLUSTER_CVT_ERR_CODE.w ∧ evtSet (runningIn (32 + cl / 8) s (conversionDescriptor cl lid s)) CLUSTER_EV_CVT_INVALID cl = true ∧ (runningIn (32 + cl / 8) s (conversionDescriptor cl lid s)).sram = s.sram := by
  rw [runningIn_eq _ _ h1 h2]
  unfold conversionDescriptor
  rw [h3]
  dsimp only
  rw [if_pos (by simpa using h4)]
  exact cvtHalt_does _ (descInHand_list h3)

theorem group_effect (cl lid : Nat) (l : ListRun) (d : List Byte) (s : State) (h1 : stopped s = false) (h2 : domOn s (32 + cl / 8) = true) (h3 : descInHand s cl lid 7 = some (l, d)) (h4 : groupCode d = 0) (h5 : replayOn s l.ctx = false) :
    listOf (runningIn (32 + cl / 8) s (groupOpen cl lid s)) cl lid = some { l with desc := none, grp := some { group := gGroup d, step := gStep d, scope := gScope d, barrier := gBarrier d, rung1 := gRung1 d, rung2 := gRung2 d } } ∧ (clusterOf (runningIn (32 + cl / 8) s (groupOpen cl lid s)) cl).grps = (clusterOf s cl).grps ++ [(l.ctx, gStep d, gGroup d, false)] := by
  rw [runningIn_eq _ _ h1 h2]
  unfold groupOpen
  rw [h3]
  dsimp only
  rw [if_neg (by simp [h4])]
  unfold openGroup
  rw [h5]
  simp only [Bool.false_eq_true, if_false]
  have b : ∀ f : List (Nat × Nat × Nat × Bool) → List (Nat × Nat × Nat × Bool), listOf (modCluster cl (fun c => { c with grps := f c.grps }) s) cl lid = some l := fun f => by
    have h := descInHand_list h3
    unfold listOf at h ⊢; rw [clusterOf_modCluster_self]; exact h
  refine ⟨listOf_modList_self (f := fun l => { l with desc := none, grp := some { group := gGroup d, step := gStep d, scope := gScope d, barrier := gBarrier d, rung1 := gRung1 d, rung2 := gRung2 d } }) (b fun x => x ++ [(l.ctx, gStep d, gGroup d, false)]) (fun _ => rfl), ?_⟩
  unfold modList
  rw [clusterOf_modCluster_self, clusterOf_modCluster_self]

theorem groupInvalid_effect (cl lid : Nat) (l : ListRun) (d : List Byte) (s : State) (h1 : stopped s = false) (h2 : domOn s (32 + cl / 8) = true) (h3 : descInHand s cl lid 7 = some (l, d)) (h4 : groupCode d ≠ 0) :
    listOf (runningIn (32 + cl / 8) s (groupOpen cl lid s)) cl lid = some { l with st := .halted, desc := none, gated := [] } ∧ getF (runningIn (32 + cl / 8) s (groupOpen cl lid s)) CLUSTER_CVT_ERR_CODE cl = groupCode d % 2 ^ CLUSTER_CVT_ERR_CODE.w ∧ evtSet (runningIn (32 + cl / 8) s (groupOpen cl lid s)) CLUSTER_EV_CVT_INVALID cl = true ∧ (runningIn (32 + cl / 8) s (groupOpen cl lid s)).sram = s.sram := by
  rw [runningIn_eq _ _ h1 h2]
  unfold groupOpen
  rw [h3]
  dsimp only
  rw [if_pos (by simpa using h4)]
  exact cvtHalt_does _ (descInHand_list h3)

theorem countStash_chan (cl : Nat) (cs : List (Chan × Nat)) (s : State) :
    getF (countStash cl cs s) CLUSTER_STASH_CHAN cl = (getF s CLUSTER_STASH_CHAN cl + cs.length) % 2 ^ 32 := by
  unfold countStash
  dsimp only
  have e : ∀ (p : Prop) [Decidable p] (v : Evt) (z : State), v.page = 1 → getF (if p then z else setEvt v cl z) CLUSTER_STASH_CHAN cl = getF z CLUSTER_STASH_CHAN cl := by
    intro p _ v z hv
    split
    · rfl
    · exact getF_setEvt_apart (by rw [hv]; decide) _ _ _
  rw [e _ _ _ rfl, e _ _ _ rfl, getF_addF_self _ _ _ _ (by decide), getF_addF_apart (by decide), getF_addF_apart (by decide), getF_addF_apart (by decide), getF_addF_apart (by decide)]

theorem stashEncode_effect (cl lid : Nat) (l : ListRun) (d : List Byte) (cs : List (Chan × Nat)) (xss : List (List Nat)) (s : State) (h1 : stopped s = false) (h2 : domOn s (32 + cl / 8) = true) (h3 : descInHand s cl lid 4 = some (l, d)) (h4 : stashCode d = 0) (h5 : dop d = 0x41) (h6 : xss = (List.range (64 * stCht d)).map (stashSrc s cl d)) (h7 : cs = (xss.map (encChan (stOutExp d))).zip (rawIdxs (stSlots d) 0 (xss.map (encChan (stOutExp d))))) :
    (runningIn (32 + cl / 8) s (stashRun 0x41 cl lid Machine.stashEncode s)).mem = (writeRaws (cl / 64) (stRaw d) ((xss.map (encChan (stOutExp d))).zip ((rawIdxs (stSlots d) 0 (xss.map (encChan (stOutExp d)))).zip xss)) (writeChunk (cl / 64) (stChunk d) (64 * stTotal d) (64 * stCh0 d) cs s)).mem ∧ (runningIn (32 + cl / 8) s (stashRun 0x41 cl lid Machine.stashEncode s)).sram = s.sram ∧ getF (runningIn (32 + cl / 8) s (stashRun 0x41 cl lid Machine.stashEncode s)) CLUSTER_STASH_CHAN cl = (getF s CLUSTER_STASH_CHAN cl + cs.length) % 2 ^ 32 ∧ (∀ y, listOf (runningIn (32 + cl / 8) s (stashRun 0x41 cl lid Machine.stashEncode s)) cl lid = some y → y.desc = none) ∧ (clusterOf (runningIn (32 + cl / 8) s (stashRun 0x41 cl lid Machine.stashEncode s)) cl).stash = (if cs.any (fun e => e.1.kind == 2 && e.2 == 0xFFFF) then 1 else 0) := by
  rw [runningIn_eq _ _ h1 h2]
  obtain ⟨a1, a2, a3, a4, a5⟩ := stashRun_valid Machine.stashEncode h3 h4 h5
  subst h6
  subst h7
  generalize hx : writeRaws (cl / 64) (stRaw d) ((((List.range (64 * stCht d)).map (stashSrc s cl d)).map (encChan (stOutExp d))).zip
    ((rawIdxs (stSlots d) 0 (((List.range (64 * stCht d)).map (stashSrc s cl d)).map (encChan (stOutExp d)))).zip ((List.range (64 * stCht d)).map (stashSrc s cl d)))) _ = x
  have W : Keeps 0x4004000000000000000000000000000000000008000000000c s x := by
    rw [← hx]
    exact writeRaws_keeps (Has.refl _) _ _ _ (writeChunk_keeps (Has.refl _) _ _ _ _ _ (Keeps.refl _ s))
  have hE : Machine.stashEncode cl d s = stashStatus cl (if ((((List.range (64 * stCht d)).map (stashSrc s cl d)).map (encChan (stOutExp d))).zip
      (rawIdxs (stSlots d) 0 (((List.range (64 * stCht d)).map (stashSrc s cl d)).map (encChan (stOutExp d))))).any (fun e => e.1.kind == 2 && e.2 == 0xFFFF) then 1 else 0) (countStash cl ((((List.range (64 * stCht d)).map (stashSrc s cl d)).map (encChan (stOutExp d))).zip
      (rawIdxs (stSlots d) 0 (((List.range (64 * stCht d)).map (stashSrc s cl d)).map (encChan (stOutExp d))))) x) := by
    rw [← hx]; rfl
  rw [hE] at a1 a2 a3 a5
  generalize (((List.range (64 * stCht d)).map (stashSrc s cl d)).map (encChan (stOutExp d))).zip
      (rawIdxs (stSlots d) 0 (((List.range (64 * stCht d)).map (stashSrc s cl d)).map (encChan (stOutExp d)))) = cs at *
  have C := countStash_keeps (Has.refl _) cl cs (Keeps.refl _ x)
  refine ⟨a1.trans (C.mem (by decide)), a2.trans ((C.sram (by decide)).trans (W.sram (by decide))), ?_, a4, ?_⟩
  rotate_left
  · rw [a5]; unfold stashStatus; rw [clusterOf_modCluster_self]
  rw [a3 _ _ reg_CLUSTER_STASH_CHAN (by decide), ← show getF x CLUSTER_STASH_CHAN cl = getF s CLUSTER_STASH_CHAN cl from W.getFk reg_CLUSTER_STASH_CHAN (by decide) cl 0]
  exact countStash_chan cl _ x

theorem stashHalt_does {s : State} {cl lid : Nat} {l : ListRun} (code : Nat) (h : listOf s cl lid = some l) (h0 : getF s CLUSTER_STASH_ERR_CODE cl = 0) :
    listOf (stashHalt cl lid code s) cl lid = some { l with st := .halted, desc := none, gated := [] } ∧
      getF (stashHalt cl lid code s) CLUSTER_STASH_ERR_CODE cl = code % 2 ^ CLUSTER_STASH_ERR_CODE.w ∧
      evtSet (stashHalt cl lid code s) CLUSTER_EV_STASH_INVALID cl = true ∧ (stashHalt cl lid code s).mem = s.mem ∧ (stashHalt cl lid code s).sram = s.sram := by
  unfold stashHalt stashErr
  rw [if_pos h0]
  refine ⟨listOf_haltList (by rw [← h]; apply listOf_congr; simp), ?_, ?_, ?_, ?_⟩
  · show getF (setEvt CLUSTER_EV_STASH_INVALID cl (setF CLUSTER_STASH_ERR_CODE cl code (setF CLUSTER_STASH_ERR_CHT cl 0 s))) CLUSTER_STASH_ERR_CODE cl = _
    rw [getF_setEvt_apart (by decide), getF_setF_self _ _ _ _ (by decide)]
  · exact evtSet_setEvt (by decide) _ _
  · show (setEvt CLUSTER_EV_STASH_INVALID cl (setF CLUSTER_STASH_ERR_CODE cl code (setF CLUSTER_STASH_ERR_CHT cl 0 s))).mem = s.mem
    simp
  · show (setEvt CLUSTER_EV_STASH_INVALID cl (setF CLUSTER_STASH_ERR_CODE cl code (setF CLUSTER_STASH_ERR_CHT cl 0 s))).sram = s.sram
    simp

theorem stashInvalid_effect (cl lid : Nat) (l : ListRun) (d : List Byte) (s : State) (h1 : stopped s = false) (h2 : domOn s (32 + cl / 8) = true) (h3 : descInHand s cl lid 4 = some (l, d)) (h4 : dop d = 0x41) (h5 : stashCode d ≠ 0) (h6 : getF s CLUSTER_STASH_ERR_CODE cl = 0) :
    listOf (runningIn (32 + cl / 8) s (stashRun 0x41 cl lid Machine.stashEncode s)) cl lid = some { l with st := .halted, desc := none, gated := [] } ∧ getF (runningIn (32 + cl / 8) s (stashRun 0x41 cl lid Machine.stashEncode s)) CLUSTER_STASH_ERR_CODE cl = stashCode d % 2 ^ CLUSTER_STASH_ERR_CODE.w ∧ evtSet (runningIn (32 + cl / 8) s (stashRun 0x41 cl lid Machine.stashEncode s)) CLUSTER_EV_STASH_INVALID cl = true ∧ (runningIn (32 + cl / 8) s (stashRun 0x41 cl lid Machine.stashEncode s)).mem = s.mem := by
  rw [runningIn_eq _ _ h1 h2]
  unfold stashRun
  rw [h3]
  dsimp only
  rw [if_pos h5, if_pos (Or.inl h4)]
  obtain ⟨a, b, c, e, _⟩ := stashHalt_does (stashCode d) (descInHand_list h3) h6
  exact ⟨a, b, c, e⟩

/-- A decode that covers one tile and writes no exponents. -/
theorem stashDecode_one {cl k : Nat} {d : List Byte} {s z : State} (fp : stFp16 d = false) (h : stCht d = 1) (t : decTile cl d 0 s = (k, z)) :
    Machine.stashDecode cl d s = stashStatus cl k z := by
  unfold Machine.stashDecode
  dsimp only
  rw [fp, h, decTiles, decTiles]
  dsimp only
  rw [t]
  simp only [Bool.false_eq_true, if_false, Nat.zero_or]

theorem stashDecode_effect (cl lid : Nat) (l : ListRun) (d : List Byte) (bs raws : List (List Byte)) (cs : List (List Byte × List Byte × List Nat)) (s : State) (h1 : stopped s = false) (h2 : domOn s (32 + cl / 8) = true) (h3 : descInHand s cl lid 4 = some (l, d)) (h4 : stashCode d = 0) (h5 : dop d = 0x42) (h6 : stFmt d = 2) (h7 : stCht d = 1) (h8 : readAll (cl / 64) (tileRanges d (stCh0 d)) s = (some bs, s)) (h9 : cs = (List.range 64).map (chanParts bs)) (h10 : cs.all (fun e => chanOk (stSlots d) e.1 e.2.1 e.2.2) = true) (h11 : cs.any (fun e => hKind e.1 == 2 && hRaw e.1 == 0xFFFF) = false) (h12 : readAll (cl / 64) (rawRanges d cs) s = (some raws, s)) :
    (runningIn (32 + cl / 8) s (stashRun 0x42 cl lid Machine.stashDecode s)).sram = (writeDec cl d 0 (decExp cs) ((cs.zip raws).map fun x => decChan x.1.1 x.1.2.1 x.2 x.1.2.2) (stRows d) s).sram ∧ (runningIn (32 + cl / 8) s (stashRun 0x42 cl lid Machine.stashDecode s)).mem = s.mem ∧ (∀ y, listOf (runningIn (32 + cl / 8) s (stashRun 0x42 cl lid Machine.stashDecode s)) cl lid = some y → y.desc = none) ∧ (clusterOf (runningIn (32 + cl / 8) s (stashRun 0x42 cl lid Machine.stashDecode s)) cl).stash = 0 := by
  rw [runningIn_eq _ _ h1 h2]
  obtain ⟨a1, a2, _, a4, a5⟩ := stashRun_valid Machine.stashDecode h3 h4 h5
  have fp : stFp16 d = false := by unfold stFp16; rw [h6]; simp
  have t : decTile cl d 0 s = (0, writeDec cl d 0 (decExp cs) ((cs.zip raws).map fun x => decChan x.1.1 x.1.2.1 x.2 x.1.2.2) (stRows d) s) := by
    unfold decTile
    dsimp only
    rw [Nat.add_zero, h8]
    dsimp only
    rw [← h9, h10, h11]
    simp only [Bool.not_true, Bool.false_eq_true, if_false, h12, fp]
  have e := stashDecode_one (cl := cl) fp h7 t
  rw [e] at a1 a2 a5
  exact ⟨a2, a1.trans ((writeDec_keeps (Has.refl _) cl d 0 _ _ _ (Keeps.refl _ s)).mem (by decide)), a4,
    by rw [a5]; unfold stashStatus; rw [clusterOf_modCluster_self]⟩

theorem stashCorrupt_effect (cl lid : Nat) (l : ListRun) (d : List Byte) (bs : List (List Byte)) (s : State) (h1 : stopped s = false) (h2 : domOn s (32 + cl / 8) = true) (h3 : descInHand s cl lid 4 = some (l, d)) (h4 : stashCode d = 0) (h5 : dop d = 0x42) (h6 : stFmt d = 2) (h7 : stCht d = 1) (h8 : readAll (cl / 64) (tileRanges d (stCh0 d)) s = (some bs, s)) (h9 : ((List.range 64).map (chanParts bs)).all (fun e => chanOk (stSlots d) e.1 e.2.1 e.2.2) = false) :
    (runningIn (32 + cl / 8) s (stashRun 0x42 cl lid Machine.stashDecode s)).sram = s.sram ∧ getF (runningIn (32 + cl / 8) s (stashRun 0x42 cl lid Machine.stashDecode s)) CLUSTER_STASH_CORRUPT cl = (getF s CLUSTER_STASH_CORRUPT cl + 1) % 2 ^ 32 ∧ (∀ y, listOf (runningIn (32 + cl / 8) s (stashRun 0x42 cl lid Machine.stashDecode s)) cl lid = some y → y.desc = none) ∧ (clusterOf (runningIn (32 + cl / 8) s (stashRun 0x42 cl lid Machine.stashDecode s)) cl).stash = 2 := by
  rw [runningIn_eq _ _ h1 h2]
  obtain ⟨_, a2, a3, a4, a5⟩ := stashRun_valid Machine.stashDecode h3 h4 h5
  have fp : stFp16 d = false := by unfold stFp16; rw [h6]; simp
  have t : decTile cl d 0 s = (2, tileCorrupt cl (stCh0 d) s) := by
    unfold decTile
    dsimp only
    rw [Nat.add_zero, h8]
    dsimp only
    rw [h9]
    simp only [Bool.not_false, if_true]
  have e := stashDecode_one (cl := cl) fp h7 t
  rw [e] at a2 a3 a5
  have S := stashErr_keeps (Has.refl _) cl 7 (stCh0 d) (Keeps.refl _ (setEvt CLUSTER_EV_STASH_CORRUPT cl (incr CLUSTER_STASH_CORRUPT cl s)))
  refine ⟨a2.trans ((S.sram (by decide)).trans (by simp)), ?_, a4, by rw [a5]; unfold stashStatus; rw [clusterOf_modCluster_self]⟩
  rw [a3 _ _ reg_CLUSTER_STASH_CORRUPT (by decide), show ∀ k z, getF (stashStatus cl k z) CLUSTER_STASH_CORRUPT cl = getF z CLUSTER_STASH_CORRUPT cl from fun _ _ => rfl]
  unfold tileCorrupt
  rw [show getF (stashErr cl 7 (stCh0 d) (setEvt CLUSTER_EV_STASH_CORRUPT cl (incr CLUSTER_STASH_CORRUPT cl s))) CLUSTER_STASH_CORRUPT cl =
    getF (setEvt CLUSTER_EV_STASH_CORRUPT cl (incr CLUSTER_STASH_CORRUPT cl s)) CLUSTER_STASH_CORRUPT cl from S.getFk reg_CLUSTER_STASH_CORRUPT (by decide) cl 0,
    getF_setEvt_apart (by decide), getF_incr_self _ _ _ (by decide)]

theorem stashLost_effect (cl lid : Nat) (l : ListRun) (d : List Byte) (bs : List (List Byte)) (s : State) (h1 : stopped s = false) (h2 : domOn s (32 + cl / 8) = true) (h3 : descInHand s cl lid 4 = some (l, d)) (h4 : stashCode d = 0) (h5 : dop d = 0x42) (h6 : stFmt d = 2) (h7 : stCht d = 1) (h8 : readAll (cl / 64) (tileRanges d (stCh0 d)) s = (some bs, s)) (h9 : ((List.range 64).map (chanParts bs)).all (fun e => chanOk (stSlots d) e.1 e.2.1 e.2.2) = true) (h10 : ((List.range 64).map (chanParts bs)).any (fun e => hKind e.1 == 2 && hRaw e.1 == 0xFFFF) = true) :
    (runningIn (32 + cl / 8) s (stashRun 0x42 cl lid Machine.stashDecode s)).sram = s.sram ∧ (runningIn (32 + cl / 8) s (stashRun 0x42 cl lid Machine.stashDecode s)).mem = s.mem ∧ (∀ y, listOf (runningIn (32 + cl / 8) s (stashRun 0x42 cl lid Machine.stashDecode s)) cl lid = some y → y.desc = none) ∧ (clusterOf (runningIn (32 + cl / 8) s (stashRun 0x42 cl lid Machine.stashDecode s)) cl).stash = 1 := by
  rw [runningIn_eq _ _ h1 h2]
  obtain ⟨a1, a2, _, a4, a5⟩ := stashRun_valid Machine.stashDecode h3 h4 h5
  have fp : stFp16 d = false := by unfold stFp16; rw [h6]; simp
  have t : decTile cl d 0 s = (1, s) := by
    unfold decTile
    dsimp only
    rw [Nat.add_zero, h8]
    dsimp only
    rw [h9, h10]
    simp only [Bool.not_true, Bool.false_eq_true, if_false, if_true]
  have e := stashDecode_one (cl := cl) fp h7 t
  rw [e] at a1 a2 a5
  exact ⟨a2, a1, a4, by rw [a5]; unfold stashStatus; rw [clusterOf_modCluster_self]⟩

end Sys2Proof.Machine
end

