-- ==== Sys2Proof/Laws/EffectsRoots.lean ====
section
/-! SUPPORT. What the commands do: the commands of the root sequencers. -/

namespace Sys2Proof.Machine

set_option exponentiation.threshold 600
set_option linter.unusedSimpArgs false

theorem seqOf_showSeq (rg r : Nat) (s : State) : seqOf (showSeq rg s) r = seqOf s r := by
  unfold showSeq
  split <;> rfl

theorem seqOf_putJob (rg : Nat) (j : Option Job) (s : State) : seqOf (putJob rg j s) rg = { seqOf s rg with job := j } := by
  unfold putJob
  rw [seqOf_showSeq, seqOf_modSeq_self]

theorem putJob_mem (rg : Nat) (j : Option Job) (s : State) : (putJob rg j s).mem = s.mem :=
  (putJob_keeps (Has.refl _) rg j (Keeps.refl _ s)).mem (by decide)

theorem seqOf_memStore (d a : Nat) (bs : List Byte) (s : State) (r : Nat) : seqOf (memStore d a bs s) r = seqOf s r := by
  unfold seqOf
  rw [(memStore_keeps (Has.refl _) d a bs (Keeps.refl _ s)).seqs (by decide)]

theorem seqOf_saveJob (rg : Nat) (j : Job) (s : State) : seqOf (saveJob rg j s) rg = { seqOf s rg with job := some j } := by
  unfold saveJob
  rw [seqOf_putJob, seqOf_memStore]

/-- STAT and CUR_GBI of a sequencer that runs a job. -/
theorem putJob_some (rg : Nat) (j : Job) (s : State) :
    getF (putJob rg (some j) s) ROOTSEQ_STAT_BUSY rg = 1 ∧ getF (putJob rg (some j) s) ROOTSEQ_CUR_GBI rg = j.gbi % 2 ^ 32 := by
  unfold putJob showSeq
  rw [seqOf_modSeq_self]
  refine ⟨getF_setF_self _ _ _ _ (by decide), ?_⟩
  rw [getF_setF_apart (by decide), getF_setF_apart (by decide), getF_setF_apart (by decide)]
  exact getF_setF_self _ _ _ _ (by decide)

theorem putJob_none (rg : Nat) (s : State) :
    getF (putJob rg none s) ROOTSEQ_STAT_BUSY rg = 0 ∧ getF (putJob rg none s) ROOTSEQ_CUR_GBI rg = 0 := by
  unfold putJob showSeq
  rw [seqOf_modSeq_self]
  refine ⟨getF_setF_self _ _ _ _ (by decide), ?_⟩
  rw [getF_setF_apart (by decide), getF_setF_apart (by decide), getF_setF_apart (by decide)]
  exact getF_setF_self _ _ _ _ (by decide)

theorem evtSet_keptR {m u p n : Nat} {x z : State} (K : Keeps m x z) (hr : IsReg (pendFld p) n) (hb : m.testBit n = false) {e : Evt} (hp : e.page = p)
    (he : evtSet x e u = true) : evtSet z e u = true := by
  unfold evtSet at he ⊢
  rw [hp] at he ⊢
  rw [show getF z (pendFld p) u = getF x (pendFld p) u from K.getFk hr hb u 0]
  exact he

theorem jobIs_any {s : State} {rg : Nat} {j : Job} (h : (seqOf s rg).job = some j) : (seqOf s rg).job.any (jobIs j.ctx j.gbi) = true := by
  rw [h]; simp [jobIs]

theorem jobIn_job {s : State} {rg : Nat} {l : List Nat} {j : Job} (h : jobIn s rg l = some j) : (seqOf s rg).job = some j := by
  unfold jobIn at h
  split at h
  · cases h
  · cases e : (seqOf s rg).job with
    | none => rw [e] at h; cases h
    | some x =>
      rw [e, Option.filter_some] at h
      split at h
      · exact h
      · cases h

/-- A job that ends in rejection: the sequencer holds it no more, and ROOT_REJ and ROOT_REJECT say so. -/
theorem rejectJob_does {s : State} {rg : Nat} {j : Job} (h : (seqOf s rg).job.any (jobIs j.ctx j.gbi) = true) (reason side log : Nat) :
    (seqOf (rejectJob rg j reason side log s) rg).job = none ∧
      getF (rejectJob rg j reason side log s) ROOTSEQ_ROOT_REJ rg = (getF s ROOTSEQ_ROOT_REJ rg + 1) % 2 ^ 32 ∧
      evtSet (rejectJob rg j reason side log s) ROOTSEQ_EV_ROOT_REJECT rg = true ∧
      getF (rejectJob rg j reason side log s) ROOTSEQ_STAT_BUSY rg = 0 ∧
      ∀ e : Evt, e.page = 2 → e.bit < 32 → evtSet s e rg = true → evtSet (rejectJob rg j reason side log s) e rg = true := by
  have br : (bookTaken rg j s).regs = s.regs := by unfold bookTaken; split <;> rfl
  have bg : ∀ g i, getF (bookTaken rg j s) g i = getF s g i := fun g i => by unfold getF getFk; rw [br]
  have bj : (seqOf (bookTaken rg j s) rg).job = (seqOf s rg).job := by
    unfold bookTaken
    split
    · rw [seqOf_modSeq_self]
    · rfl
  obtain ⟨X, hK, hR, hE, hO, e⟩ : ∃ X, Keeps 0x40040000005800013e4000000000000000189008000010800c (bookTaken rg j s) X ∧
      getF X ROOTSEQ_ROOT_REJ rg = (getF (bookTaken rg j s) ROOTSEQ_ROOT_REJ rg + 1) % 2 ^ 32 ∧ evtSet X ROOTSEQ_EV_ROOT_REJECT rg = true ∧
      (∀ e : Evt, e.page = 2 → e.bit < 32 → evtSet (bookTaken rg j s) e rg = true → evtSet X e rg = true) ∧
      rejectJob rg j reason side log s = (fun Y => if (seqOf Y rg).job.any (jobIs j.ctx j.gbi) then putJob rg none (modSeq rg (fun q => { q with back := [], sat := false }) Y)
        else Y) (modSeq rg (fun q => { q with
          held := q.held.filter fun x => !jobIs j.ctx j.gbi x
          snaps := q.snaps.filter fun e => !(e.1 == j.ctx && e.2.1 == j.gbi) }) X) := by
    refine ⟨_, ?_, ?_, ?_, ?_, rfl⟩
    · have h₀ := Keeps.refl 0x40040000005800013e4000000000000000189008000010800c (bookTaken rg j s)
      have hw₀ := Has.refl 0x40040000005800013e4000000000000000189008000010800c
      repeat' with_reducible first
        | assumption | apply keeps_ite | apply dropWide_keeps (hw₀.sub rfl) | apply recPut_keeps (hw₀.sub rfl)
        | apply clearWip_keeps (hw₀.sub rfl)
        | refine setEvt_keeps (p := 2) (hw₀.sub rfl) (hw₀.sub rfl) _ _ (by with_unfolding_all rfl) reg_pendFld2 ?_
        | refine incr_keeps (hw₀.sub rfl) _ _ reg_ROOTSEQ_ROOT_REJ ?_
        | refine setF_keeps (hw₀.sub rfl) _ _ _ reg_ROOTSEQ_ERR_INFO_REASON ?_
        | refine setF_keeps (hw₀.sub rfl) _ _ _ reg_ROOTSEQ_ERR_INFO_SIDE ?_
        | refine setF_keeps (hw₀.sub rfl) _ _ _ reg_ROOTSEQ_ERR_INFO_RES_LOG ?_
        | refine setF_keeps (hw₀.sub rfl) _ _ _ reg_ROOTSEQ_LAST_REJ ?_ | apply rootEvt_keeps (hw₀.sub rfl)
    · rw [show ∀ a b c d f z, getF (rootEvt rg j a b c d f z) ROOTSEQ_ROOT_REJ rg = getF z ROOTSEQ_ROOT_REJ rg from fun a b c d f z =>
        (rootEvt_keeps (Has.refl _) rg j a b c d f (Keeps.refl _ z)).getFk reg_ROOTSEQ_ROOT_REJ (by decide) rg 0]
      have hz : ∀ z, getF (setEvt ROOTSEQ_EV_ROOT_REJECT rg (incr ROOTSEQ_ROOT_REJ rg z)) ROOTSEQ_ROOT_REJ rg = (getF z ROOTSEQ_ROOT_REJ rg + 1) % 2 ^ 32 := fun z => by
        rw [getF_setEvt_apart (by decide)]; exact getF_incr_self _ _ _ (by decide)
      have hs : getF (recPut (jobBlk j) 48 1 0 (clearWip (jobBlk j) (recPut (jobBlk j) 36 1 (recGet (dropWide rg 32 (bookTaken rg j s)) (jobBlk j) 36 1 ||| 4) (dropWide rg 32 (bookTaken rg j s))))) ROOTSEQ_ROOT_REJ rg = getF (bookTaken rg j s) ROOTSEQ_ROOT_REJ rg := by
        refine Keeps.getFk (w := 0x4004000000000000000000000000000000189008000000800c) ?_ reg_ROOTSEQ_ROOT_REJ (by decide) rg 0
        have h₀ := Keeps.refl 0x4004000000000000000000000000000000189008000000800c (bookTaken rg j s)
        have hw₀ := Has.refl 0x4004000000000000000000000000000000189008000000800c
        repeat' with_reducible first
          | assumption | apply dropWide_keeps (hw₀.sub rfl) | apply recPut_keeps (hw₀.sub rfl)
          | apply clearWip_keeps (hw₀.sub rfl)
      rw [← hs]
      refine getF_ite_eq ?_ (hz _)
      rw [getF_setF_apart (by decide), getF_setF_apart (by decide), getF_setF_apart (by decide), getF_setF_apart (by decide)]
      exact hz _
    · refine evtSet_keptR (rootEvt_keeps (Has.refl _) rg j _ _ _ _ _ (Keeps.refl _ _)) reg_pendFld2 (by decide) rfl ?_
      have hz : ∀ z, evtSet (setEvt ROOTSEQ_EV_ROOT_REJECT rg z) ROOTSEQ_EV_ROOT_REJECT rg = true := fun z => evtSet_setEvt (by decide) _ _
      have hk : ∀ z, evtSet z ROOTSEQ_EV_ROOT_REJECT rg = true → evtSet (setF ROOTSEQ_ERR_INFO_REASON rg reason (setF ROOTSEQ_ERR_INFO_SIDE rg side
          (setF ROOTSEQ_ERR_INFO_RES_LOG rg log (setF ROOTSEQ_LAST_REJ rg j.gbi z)))) ROOTSEQ_EV_ROOT_REJECT rg = true := fun z h => by
        refine evtSet_keptR (m := 0x1000003800000000000000000000000000000000) (x := z) ?_ reg_pendFld2 (by decide) rfl h
        have hw₀ := Has.refl 0x1000003800000000000000000000000000000000
        exact setF_keeps (hw₀.sub rfl) _ _ _ reg_ROOTSEQ_ERR_INFO_REASON (setF_keeps (hw₀.sub rfl) _ _ _ reg_ROOTSEQ_ERR_INFO_SIDE
          (setF_keeps (hw₀.sub rfl) _ _ _ reg_ROOTSEQ_ERR_INFO_RES_LOG (setF_keeps (hw₀.sub rfl) _ _ _ reg_ROOTSEQ_LAST_REJ (Keeps.refl _ z))))
      split
      · exact hk _ (hz _)
      · exact hz _
    · intro e he hb h0
      refine evtSet_keptR (rootEvt_keeps (Has.refl _) rg j _ _ _ _ _ (Keeps.refl _ _)) reg_pendFld2 (by decide) he ?_
      have hk : ∀ z, evtSet z e rg = true → evtSet (setF ROOTSEQ_ERR_INFO_REASON rg reason (setF ROOTSEQ_ERR_INFO_SIDE rg side
          (setF ROOTSEQ_ERR_INFO_RES_LOG rg log (setF ROOTSEQ_LAST_REJ rg j.gbi z)))) e rg = true := fun z h => by
        refine evtSet_keptR (m := 0x1000003800000000000000000000000000000000) (x := z) ?_ reg_pendFld2 (by decide) he h
        have hw₀ := Has.refl 0x1000003800000000000000000000000000000000
        exact setF_keeps (hw₀.sub rfl) _ _ _ reg_ROOTSEQ_ERR_INFO_REASON (setF_keeps (hw₀.sub rfl) _ _ _ reg_ROOTSEQ_ERR_INFO_SIDE
          (setF_keeps (hw₀.sub rfl) _ _ _ reg_ROOTSEQ_ERR_INFO_RES_LOG (setF_keeps (hw₀.sub rfl) _ _ _ reg_ROOTSEQ_LAST_REJ (Keeps.refl _ z))))
      have hz : evtSet (setEvt ROOTSEQ_EV_ROOT_REJECT rg (incr ROOTSEQ_ROOT_REJ rg
          (recPut (jobBlk j) 48 1 0 (clearWip (jobBlk j) (recPut (jobBlk j) 36 1 (recGet (dropWide rg 32 (bookTaken rg j s)) (jobBlk j) 36 1 ||| 4) (dropWide rg 32 (bookTaken rg j s))))))) e rg = true := by
        refine evtSet_setEvt_of (evtSet_keptR (incr_keeps (w := 2 ^ 136) (Has.refl _) _ rg reg_ROOTSEQ_ROOT_REJ (Keeps.refl _ _)) reg_pendFld2 (by decide) he ?_) hb
        refine evtSet_keptR (m := 0x4004000000000000000000000000000000189008000000800c) ?_ reg_pendFld2 (by decide) he h0
        have h₀ := Keeps.refl 0x4004000000000000000000000000000000189008000000800c (bookTaken rg j s)
        have hw₀ := Has.refl 0x4004000000000000000000000000000000189008000000800c
        repeat' with_reducible first
          | assumption | apply dropWide_keeps (hw₀.sub rfl) | apply recPut_keeps (hw₀.sub rfl)
          | apply clearWip_keeps (hw₀.sub rfl)
      split
      · exact hk _ hz
      · exact hz
  rw [e]
  have hj : (seqOf X rg).job.any (jobIs j.ctx j.gbi) = true := by
    rw [← bj] at h
    unfold seqOf at h ⊢; rw [hK.seqs (by decide)]; exact h
  dsimp only
  rw [seqOf_modSeq_self]
  dsimp only
  rw [if_pos hj]
  refine ⟨by rw [seqOf_putJob], ?_, ?_, (putJob_none _ _).1, fun e he hb h0 => ?_⟩
  · rw [show ∀ z, getF (putJob rg none z) ROOTSEQ_ROOT_REJ rg = getF z ROOTSEQ_ROOT_REJ rg from fun z =>
      (putJob_keeps (Has.refl _) rg none (Keeps.refl _ z)).getFk reg_ROOTSEQ_ROOT_REJ (by decide) rg 0]
    exact hR.trans (by rw [bg])
  · refine evtSet_keptR (putJob_keeps (Has.refl _) rg none (Keeps.refl _ _)) reg_pendFld2 (by decide) rfl ?_
    exact hE
  · refine evtSet_keptR (putJob_keeps (Has.refl _) rg none (Keeps.refl _ _)) reg_pendFld2 (by decide) he ?_
    exact hO e he hb (by unfold evtSet at h0 ⊢; rw [bg]; exact h0)

theorem failJob_does {s : State} {rg : Nat} {j : Job} (h : (seqOf s rg).job.any (jobIs j.ctx j.gbi) = true) (reason log : Nat) :
    (seqOf (failJob rg j reason log s) rg).job = none ∧
      getF (failJob rg j reason log s) ROOTSEQ_ROOT_REJ rg = (getF s ROOTSEQ_ROOT_REJ rg + 1) % 2 ^ 32 ∧
      evtSet (failJob rg j reason log s) ROOTSEQ_EV_ROOT_REJECT rg = true ∧
      getF (failJob rg j reason log s) ROOTSEQ_STAT_BUSY rg = 0 ∧
      ∀ e : Evt, e.page = 2 → e.bit < 32 → evtSet s e rg = true → evtSet (failJob rg j reason log s) e rg = true := by
  unfold failJob
  dsimp only
  have K : ∀ z : State, Keeps 0x4000800002000001000000000000080000000000 z (rootDiv j.cl z) := fun z => rootDiv_keeps ((Has.refl _).sub rfl) j.cl (Keeps.refl _ z)
  split
  · have hr := rejectJob_does (s := rootDiv j.cl s) (rg := rg) (j := j) (by unfold seqOf at h ⊢; rw [(K s).seqs (by decide)]; exact h) reason j.side log
    rw [show getF (rootDiv j.cl s) ROOTSEQ_ROOT_REJ rg = getF s ROOTSEQ_ROOT_REJ rg from (K s).getFk reg_ROOTSEQ_ROOT_REJ (by decide) rg 0] at hr
    refine ⟨hr.1, hr.2.1, hr.2.2.1, hr.2.2.2.1, fun e he hb h0 => hr.2.2.2.2 e he hb ?_⟩
    unfold rootDiv
    refine evtSet_setEvt_of ?_ hb
    refine evtSet_keptR (incr_keeps (w := 2 ^ 96) (Has.refl _) _ _ reg_CLUSTER_REPLAY_DIV_CNT (Keeps.refl _ _)) reg_pendFld2 (by decide) he ?_
    refine evtSet_setEvt_of ?_ hb
    exact evtSet_keptR (incr_keeps (w := 2 ^ 143) (Has.refl _) _ _ reg_ROOTSEQ_REPLAY_DIV (Keeps.refl _ _)) reg_pendFld2 (by decide) he h0
  · exact rejectJob_does h reason j.side log

theorem Alike.loadTiles_ok {s t : State} (h : Alike s t) (hw : noWeak s = true) {d cls base tb : Nat} : ∀ {k n : Nat} {ts : List (List Byte)} {v : State},
    loadTiles d cls base tb k n s = (.ok ts, v) → loadTiles d cls base tb k n t = (.ok ts, t)
  | k, 0, _, _, e => by cases e; rfl
  | k, n + 1, ts, v, e => by
    unfold loadTiles at e ⊢
    split at e
    · next he =>
      have e2 := engRead_same hw he
      rw [h.engRead_data hw he]
      dsimp only
      subst e2
      split at e
      · next hl =>
        cases e
        rw [Alike.loadTiles_ok h hw hl]
      · cases e
    · cases e
    · cases e

theorem getMat_ok {rg n k : Nat} {s v : State} {M : IMat} (hw : noWeak s = true) (h : getMat rg n k s = (.ok (some M), v)) : v = s := by
  unfold getMat at h
  split at h
  · next he => cases h; exact engRead_same hw he
  · cases h
  · cases h

theorem withMats_two {rg a b : Nat} {j : Job} {s v w : State} {A B : IMat} (f : List IMat → State → State) (hw : noWeak s = true)
    (ha : getMat rg (jobN j) a s = (.ok (some A), v)) (hb : getMat rg (jobN j) b s = (.ok (some B), w)) :
    withMats rg j [a, b] f s = f [A, B] s := by
  cases getMat_ok hw ha; cases getMat_ok hw hb
  simp only [withMats, withMats.go, ha, hb, List.nil_append, List.cons_append]

theorem withMats_three {rg a b c : Nat} {j : Job} {s v w x : State} {A B D : IMat} (f : List IMat → State → State) (hw : noWeak s = true)
    (ha : getMat rg (jobN j) a s = (.ok (some A), v)) (hb : getMat rg (jobN j) b s = (.ok (some B), w))
    (hc : getMat rg (jobN j) c s = (.ok (some D), x)) :
    withMats rg j [a, b, c] f s = f [A, B, D] s := by
  cases getMat_ok hw ha; cases getMat_ok hw hb; cases getMat_ok hw hc
  simp only [withMats, withMats.go, ha, hb, hc, List.nil_append, List.cons_append]

theorem jobReady_in {s : State} {rg p : Nat} {j : Job} (h : jobReady s rg p = some j) : jobIn s rg [p] = some j := by
  unfold jobReady at h
  split at h
  · exact h
  · cases h

theorem seqOf_putMat (rg n k : Nat) (M : IMat) (s : State) (r : Nat) : seqOf (putMat rg n k M s) r = seqOf s r := seqOf_memStore ..

theorem saveJob_mem (rg : Nat) (j : Job) (s : State) : (saveJob rg j s).mem = (memStore (dieOf j.cl) (j.addr + 88) (wipBytes j) s).mem := by
  unfold saveJob; rw [putJob_mem]

theorem Alike.putMat {s t : State} (h : Alike s t) (rg n k : Nat) (M : IMat) (hs : getF t ROOTSEQ_SCR_BASE rg = getF s ROOTSEQ_SCR_BASE rg) :
    Alike (putMat rg n k M s) (putMat rg n k M t) := by
  unfold Sys2Proof.Machine.putMat scrAddr
  rw [hs]
  exact h.memStore ..

theorem scr_putMat (rg n k : Nat) (M : IMat) (s : State) : getF (putMat rg n k M s) ROOTSEQ_SCR_BASE rg = getF s ROOTSEQ_SCR_BASE rg :=
  (putMat_keeps (Has.refl _) rg n k M (Keeps.refl _ s)).getFk reg_ROOTSEQ_SCR_BASE (by decide) rg 0

theorem Alike.incr (f : Fld) (i m : Nat) {w : Nat} (hw : Has w w) (hf : IsReg f m) (s : State) (hb : w = 2 ^ m) (h : blind (2 ^ m) = true) : Alike s (incr f i s) := by
  subst hb
  exact (incr_keeps hw f i hf (Keeps.refl _ s)).alike h

theorem rootJobScan_effect (rg c : Nat) (b : Blk) (s : State) (h1 : stopped s = false) (h2 : domOn s (32 + rg) = true) (h3 : (seqOf s rg).job = none) (h4 : (seqOf s rg).restart = none) (h5 : isF s ROOTSEQ_CTRL_EN rg = true) (h6 : earliest s (candidates s rg 16) = some (c, b)) :
    (seqOf (runningIn (32 + rg) s (rootJobScan rg s)) rg).job = some { ctx := c, gbi := b.gbi, cl := b.cl, addr := b.addr, lat := snapLat s rg c b, snap := recGet s b 40 4, ver := (recGet s b 32 4 + 1) % 2 ^ 32, side := if lSideL (snapLat s rg c b) then 0 else 1 } ∧ getF (runningIn (32 + rg) s (rootJobScan rg s)) ROOTSEQ_STAT_BUSY rg = 1 ∧ getF (runningIn (32 + rg) s (rootJobScan rg s)) ROOTSEQ_CUR_GBI rg = b.gbi % 2 ^ 32 := by
  rw [runningIn_eq _ _ h1 h2]
  unfold rootJobScan
  dsimp only
  rw [h3, h4, h5, if_neg (by decide), h6]
  dsimp only
  refine ⟨?_, putJob_some ..⟩
  rw [seqOf_putJob]
  all_goals rfl

/-- A job as it starts keeps its block and its side. -/
theorem firstStart_same (s : State) (rg : Nat) (j : Job) : (firstStart s rg j).ctx = j.ctx ∧ (firstStart s rg j).gbi = j.gbi ∧ (firstStart s rg j).cl = j.cl ∧
    (firstStart s rg j).addr = j.addr ∧ (firstStart s rg j).lat = j.lat ∧ (firstStart s rg j).side = j.side ∧
    (firstStart s rg j).damp = if j.started then j.damp else getF s ROOTSEQ_DAMP rg := by
  unfold firstStart
  cases j.started
  · exact ⟨rfl, rfl, rfl, rfl, rfl, rfl, rfl⟩
  · exact ⟨rfl, rfl, rfl, rfl, rfl, rfl, rfl⟩

/-- The state in which a job that starts goes on. -/
theorem started_spec {s : State} {rg : Nat} {k : Job} (h : (seqOf s rg).job = some k) :
    Alike s (if k.started then s else putJob rg (some (firstStart s rg k)) (incr ROOTSEQ_JOB_START rg s)) ∧
    (seqOf (if k.started then s else putJob rg (some (firstStart s rg k)) (incr ROOTSEQ_JOB_START rg s)) rg).job = some (firstStart s rg k) ∧
    getF (if k.started then s else putJob rg (some (firstStart s rg k)) (incr ROOTSEQ_JOB_START rg s)) ROOTSEQ_JOB_START rg =
      (if k.started then getF s ROOTSEQ_JOB_START rg else (getF s ROOTSEQ_JOB_START rg + 1) % 2 ^ 32) ∧
    getF (if k.started then s else putJob rg (some (firstStart s rg k)) (incr ROOTSEQ_JOB_START rg s)) ROOTSEQ_ROOT_REJ rg = getF s ROOTSEQ_ROOT_REJ rg ∧
    getF (if k.started then s else putJob rg (some (firstStart s rg k)) (incr ROOTSEQ_JOB_START rg s)) ROOTSEQ_SCR_SIZE rg = getF s ROOTSEQ_SCR_SIZE rg := by
  have P : ∀ z, Keeps 0x800000640000000000000000000000000010000 z (putJob rg (some (firstStart s rg k)) z) := fun z =>
    putJob_keeps (Has.refl _) rg _ (Keeps.refl _ z)
  have I := incr_keeps (w := 0x4000000000000000000000000000000000) (Has.refl _) ROOTSEQ_JOB_START rg reg_ROOTSEQ_JOB_START (Keeps.refl _ s)
  by_cases c : k.started = true
  · simp only [if_pos c]
    refine ⟨Alike.refl s, ?_, trivial, trivial, trivial⟩
    rw [h]; unfold firstStart; rw [if_pos c]
  · simp only [if_neg c]
    refine ⟨(I.alike (by decide)).trans ((P _).alike (by decide)), by rw [seqOf_putJob], ?_, ?_, ?_⟩
    · exact ((P _).getFk reg_ROOTSEQ_JOB_START (by decide) rg 0).trans (getF_incr_self _ _ _ (by decide))
    · exact ((P _).getFk reg_ROOTSEQ_ROOT_REJ (by decide) rg 0).trans (getF_incr_apart (by decide) _ _ _)
    · exact ((P _).getFk reg_ROOTSEQ_SCR_SIZE (by decide) rg 0).trans (getF_incr_apart (by decide) _ _ _)

/-- The tiles of a side are read from another state that sees module memory alike. -/
theorem withFactor_alike {s t : State} (A : Alike s t) (hw : noWeak s = true) {rg : Nat} {j k : Job} {ts : List (List Byte)} (f : Mat → State → State)
    (e : k.cl = j.cl ∧ k.addr = j.addr ∧ k.lat = j.lat ∧ k.gbi = j.gbi ∧ k.side = j.side)
    (h : loadTiles (regionDie rg) 2 (bufAddr s (jobBlk j) 3) 16384 (sideTiles j).1 (sideTiles j).2 s = (.ok ts, s)) :
    withFactor rg k f t = f (sideFactor j ts) t := by
  obtain ⟨e1, e2, e3, e4, e5⟩ := e
  have b : jobBlk k = jobBlk j := by unfold jobBlk; rw [e1, e2, e3, e4]
  have n : jobN k = jobN j := by unfold jobN; rw [e3, e5]
  have st : sideTiles k = sideTiles j := by unfold sideTiles; rw [n, e5, e3]
  have ba : bufAddr t (jobBlk j) 3 = bufAddr s (jobBlk j) 3 := by unfold bufAddr facAddr rootAddr; simp only [A.recGet]
  unfold withFactor
  rw [b, st, ba, A.loadTiles_ok hw h]
  dsimp only
  rw [show sideFactor k ts = sideFactor j ts from by unfold sideFactor; rw [n]]

theorem rootJobStart_effect (rg : Nat) (j : Job) (ts rs : List (List Byte)) (A B : Mat) (tr lam : FV) (s : State) (h1 : stopped s = false) (h2 : domOn s (32 + rg) = true) (h3 : jobIn s rg [0] = some j) (h4 : isF s ROOTSEQ_CTRL_EN rg = true) (h5 : (if jobCode j = 0 then 32 else 64) * jobN j * jobN j ≤ getF s ROOTSEQ_SCR_SIZE rg * 1048576) (h6 : loadTiles (regionDie rg) 2 (bufAddr s (jobBlk j) 3) 16384 (sideTiles j).1 (sideTiles j).2 s = (.ok ts, s)) (h7 : A = sideFactor j ts) (h8 : tr = ((List.range (jobN j)).map fun i => A.at i i).foldl add32 fv0) (h9 : lam = div32 (mul32 (val32 (if j.started then j.damp else getF s ROOTSEQ_DAMP rg)) tr) (fvInt (jobA j))) (h10 : B = A.zipIdx.map (fun r => r.1.zipIdx.map fun v => if v.2 = r.2 then add32 v.1 lam else v.1)) (h11 : j.side = 0 → lSideR j.lat = true → loadTiles (regionDie rg) 2 (bufAddr s (jobBlk j) 3) 16384 (sideTiles { j with side := 1 }).1 (sideTiles { j with side := 1 }).2 s = (.ok rs, s) ∧ sideRange { firstStart s rg j with side := 1 } (sideFactor { j with side := 1 } rs) = false) (h12 : noWeak s = true) :
    (if !tr.isFin || !(fv0.lt tr) || !(squareSum B).isFin then (seqOf (runningIn (32 + rg) s (rootJobStart rg s)) rg).job = none ∧ getF (runningIn (32 + rg) s (rootJobStart rg s)) ROOTSEQ_ROOT_REJ rg = (getF s ROOTSEQ_ROOT_REJ rg + 1) % 2 ^ 32 ∧ evtSet (runningIn (32 + rg) s (rootJobStart rg s)) ROOTSEQ_EV_ROOT_REJECT rg = true else ∃ k, (seqOf (runningIn (32 + rg) s (rootJobStart rg s)) rg).job = some k ∧ k.gbi = j.gbi ∧ k.ctx = j.ctx ∧ k.side = j.side ∧ k.ph = (if jobCode j = 0 then 3 else 2) ∧ k.iter = 0 ∧ k.s = scaleExp (jobP j) (squareSum B) ∧ k.sx = 0 ∧ k.tr = word32 tr ∧ k.lam = word32 lam ∧ k.cfg = (if j.started then j.cfg else (latchCfg s rg j).cfg)) ∧ getF (runningIn (32 + rg) s (rootJobStart rg s)) ROOTSEQ_JOB_START rg = (if j.started then getF s ROOTSEQ_JOB_START rg else (getF s ROOTSEQ_JOB_START rg + 1) % 2 ^ 32) := by
  rw [runningIn_eq _ _ h1 h2]
  have hj := jobIn_job h3
  obtain ⟨al, sj, s1, s2, s3⟩ := started_spec (s := s) (rg := rg) (k := j) hj
  obtain ⟨j1, j2, j3, j4, j5, j6, j7⟩ := firstStart_same s rg j
  have j8 : (firstStart s rg j).cfg = if j.started then j.cfg else (latchCfg s rg j).cfg := by unfold firstStart; cases j.started <;> rfl
  unfold rootJobStart
  rw [h3]
  dsimp only
  simp only [h4, Bool.not_true, Bool.false_eq_true, if_false]
  generalize (if j.started = true then s else putJob rg (some (firstStart s rg j)) (incr ROOTSEQ_JOB_START rg s)) = S at al sj s1 s2 s3 ⊢
  have n1 : jobN (firstStart s rg j) = jobN j := by unfold jobN; rw [j6, j5]
  have n2 : jobA (firstStart s rg j) = jobA j := by unfold jobA; rw [j6, j5]
  have n3 : jobCode (firstStart s rg j) = jobCode j := by unfold jobCode; rw [j6, j5]
  have n4 : jobP (firstStart s rg j) = jobP j := by unfold jobP; rw [n3]
  rw [n3, n1, s3, if_neg (show ¬ getF s ROOTSEQ_SCR_SIZE rg * 1048576 < (if jobCode j = 0 then 32 else 64) * jobN j * jobN j by omega), withFactor_alike al h12 _ ⟨j3, j4, j5, j2, j6⟩ h6, ← h7]
  have t1 : traceOf (firstStart s rg j) A = tr := by unfold traceOf; rw [n1, ← h8]
  have l1 : lamOf (firstStart s rg j) tr = lam := by unfold lamOf; rw [j7, n2, ← h9]
  have b1 : dampedOf A lam = B := h10.symm
  have rng : sideRange (firstStart s rg j) A = (!tr.isFin || !(fv0.lt tr) || !(squareSum B).isFin) := by
    unfold sideRange
    dsimp only
    rw [t1, l1, b1]
  rw [rng]
  by_cases hc : (!tr.isFin || !(fv0.lt tr) || !(squareSum B).isFin) = true
  · rw [if_pos hc, if_pos hc]
    have F := failJob_does (s := S) (rg := rg) (j := firstStart s rg j) (by rw [sj]; simp [jobIs]) 2 0
    refine ⟨⟨F.1, F.2.1.trans (by rw [s2]), F.2.2.1⟩, ?_⟩
    rw [← s1]
    exact (failJob_keeps (Has.refl _) rg (firstStart s rg j) 2 0 (Keeps.refl _ S)).getFk reg_ROOTSEQ_JOB_START (by decide) rg 0
  · rw [if_neg hc, if_neg hc]
    have jr : judgeRight rg (firstStart s rg j) (preScale rg (firstStart s rg j) A) S = preScale rg (firstStart s rg j) A S := by
      unfold judgeRight
      split
      · next h =>
        obtain ⟨r1, r2⟩ := h11 (j6 ▸ h.1) (j5 ▸ h.2)
        rw [withFactor_alike (j := { j with side := 1 }) (k := { firstStart s rg j with side := 1 }) al h12 _ ⟨j3, j4, j5, j2, rfl⟩ r1, r2]
        rfl
      · rfl
    rw [jr]
    refine ⟨?_, ((preScale_keeps (Has.refl _) rg (firstStart s rg j) A (Keeps.refl _ S)).getFk reg_ROOTSEQ_JOB_START (by decide) rg 0).trans s1⟩
    unfold preScale
    dsimp only
    rw [t1, l1, b1]
    have n5 : ∀ x y, jobP { firstStart s rg j with tr := x, lam := y } = jobP j := fun x y => n4
    have n6 : ∀ x y, jobCode { firstStart s rg j with tr := x, lam := y } = jobCode j := fun x y => n3
    rw [n5, n6]
    split
    · exact ⟨_, congrArg Seq.job (seqOf_saveJob ..), j2, j1, j6, rfl, rfl, rfl, rfl, rfl, rfl, j8⟩
    · exact ⟨_, congrArg Seq.job (seqOf_saveJob ..), j2, j1, j6, rfl, rfl, rfl, rfl, rfl, rfl, j8⟩

theorem rootJobReject_effect (rg : Nat) (j : Job) (s : State) (h1 : stopped s = false) (h2 : domOn s (32 + rg) = true) (h3 : jobIn s rg [0] = some j) (h4 : isF s ROOTSEQ_CTRL_EN rg = true) (h5 : getF s ROOTSEQ_SCR_SIZE rg * 1048576 < (if jobCode j = 0 then 32 else 64) * jobN j * jobN j) :
    (seqOf (runningIn (32 + rg) s (rootJobStart rg s)) rg).job = none ∧ getF (runningIn (32 + rg) s (rootJobStart rg s)) ROOTSEQ_ROOT_REJ rg = (getF s ROOTSEQ_ROOT_REJ rg + 1) % 2 ^ 32 ∧ evtSet (runningIn (32 + rg) s (rootJobStart rg s)) ROOTSEQ_EV_ROOT_REJECT rg = true ∧ getF (runningIn (32 + rg) s (rootJobStart rg s)) ROOTSEQ_STAT_BUSY rg = 0 := by
  rw [runningIn_eq _ _ h1 h2]
  unfold rootJobStart
  rw [h3]
  dsimp only
  rw [h4, if_neg (by decide)]
  have hj := jobIn_job h3
  obtain ⟨-, sj, -, s2, s3⟩ := started_spec (s := s) (rg := rg) (k := j) hj
  obtain ⟨j1, j2, j3, j4, j5, j6, j7⟩ := firstStart_same s rg j
  generalize (if j.started = true then s else putJob rg (some (firstStart s rg j)) (incr ROOTSEQ_JOB_START rg s)) = S at sj s2 s3 ⊢
  have n1 : jobN (firstStart s rg j) = jobN j := by unfold jobN; rw [j6, j5]
  have n3 : jobCode (firstStart s rg j) = jobCode j := by unfold jobCode; rw [j6, j5]
  rw [n3, n1, s3, if_pos (by omega)]
  have F := failJob_does (s := S) (rg := rg) (j := firstStart s rg j) (by rw [sj]; simp [jobIs]) 5 0
  exact ⟨F.1, F.2.1.trans (by rw [s2]), F.2.2.1, F.2.2.2.1⟩

theorem wideDescIssue_effect (rg u : Nat) (d : List Byte) (st : List Stage) (j : Job) (w : State) (s : State) (h1 : stopped s = false) (h2 : domOn s (32 + rg) = true) (h3 : jobIn s rg [2, 3, 4] = some j) (h4 : isF s ROOTSEQ_CTRL_EN rg = true) (h5 : u / 32 = rg) (h6 : lendable s u = true) (h7 : (unitOf s u).wq.length < 4) (h8 : pieceOk s rg d = true) (h9 : st.all (stageOk s rg) = true) (h10 : stageIn rg (u / 4) st s = (false, w)) :
    (unitOf (runningIn (32 + rg) s (wideDescIssue rg u d st false s)) u).wq = (unitOf s u).wq ++ [{ (seqOf s rg).back.headD { desc := d, ctx := j.ctx, wide := true, lid := (seqOf s rg).epoch } with tile := 0, status := 0 }] ∧ (seqOf (runningIn (32 + rg) s (wideDescIssue rg u d st false s)) rg).back = (seqOf s rg).back.tail ∧ getF (runningIn (32 + rg) s (wideDescIssue rg u d st false s)) ROOTSEQ_WIDE_ISSUED rg = (getF s ROOTSEQ_WIDE_ISSUED rg + 1) % 2 ^ 32 ∧ (runningIn (32 + rg) s (wideDescIssue rg u d st false s)).sram = w.sram := by
  rw [runningIn_eq _ _ h1 h2]
  have K := stageIn_keeps (Has.refl _) rg (u / 4) st (Keeps.refl _ s)
  rw [h10] at K
  have ku : unitOf w u = unitOf s u := by unfold unitOf; rw [K.units (by decide)]
  have ks : seqOf w rg = seqOf s rg := by unfold seqOf; rw [K.seqs (by decide)]
  have kw : getF w ROOTSEQ_WIDE_ISSUED rg = getF s ROOTSEQ_WIDE_ISSUED rg := K.getFk reg_ROOTSEQ_WIDE_ISSUED (by decide) rg 0
  unfold wideDescIssue
  rw [h3]
  dsimp only
  rw [h4, h6, h8, h9, h10, if_neg (by simp [h5]; omega)]
  rw [if_neg (show ¬ (((false, w) : Bool × State).1 || false) = true from by simp)]
  unfold wideIssue
  dsimp only
  rw [ks]
  refine ⟨?_, ?_, ?_, ?_⟩
  · rw [show ∀ f i z, unitOf (incr f i z) u = unitOf z u from fun _ _ _ => rfl, unitOf_modUnit_self, show ∀ f z, unitOf (modSeq rg f z) u = unitOf z u from fun _ _ => rfl, ku]
  · rw [show ∀ f i z, seqOf (incr f i z) rg = seqOf z rg from fun _ _ _ => rfl, show ∀ f z, seqOf (modUnit u f z) rg = seqOf z rg from fun _ _ => rfl, seqOf_modSeq_self, ks]
  · rw [getF_incr_self _ _ _ (by decide), show ∀ f z, getF (modUnit u f z) ROOTSEQ_WIDE_ISSUED rg = getF z ROOTSEQ_WIDE_ISSUED rg from fun f z =>
      (modUnit_keeps (Has.refl _) u f (Keeps.refl _ z)).getFk reg_ROOTSEQ_WIDE_ISSUED (by decide) rg 0]
    exact congrArg (fun x => (x + 1) % 2 ^ 32) kw
  · rfl

theorem wideDescEcc_effect (rg u : Nat) (d : List Byte) (st : List Stage) (j : Job) (s : State) (h1 : stopped s = false) (h2 : domOn s (32 + rg) = true) (h3 : jobIn s rg [2, 3, 4] = some j) (h4 : isF s ROOTSEQ_CTRL_EN rg = true) (h5 : u / 32 = rg) (h6 : lendable s u = true) (h7 : (unitOf s u).wq.length < 4) (h8 : pieceOk s rg d = true) (h9 : st.all (stageOk s rg) = true) :
    (seqOf (runningIn (32 + rg) s (wideDescIssue rg u d st true s)) rg).job = none ∧ getF (runningIn (32 + rg) s (wideDescIssue rg u d st true s)) ROOTSEQ_ROOT_REJ rg = (getF s ROOTSEQ_ROOT_REJ rg + 1) % 2 ^ 32 ∧ evtSet (runningIn (32 + rg) s (wideDescIssue rg u d st true s)) ROOTSEQ_EV_ROOT_REJECT rg = true := by
  rw [runningIn_eq _ _ h1 h2]
  have K := stageIn_keeps (Has.refl _) rg (u / 4) st (Keeps.refl _ s)
  unfold wideDescIssue
  rw [h3]
  dsimp only
  rw [h4, h6, h8, h9, if_neg (by simp [h5]; omega), if_pos (by simp)]
  generalize (stageIn rg (u / 4) st s).2 = t at K ⊢
  have F := failJob_does (s := t) (rg := rg) (j := j) (by
    have := jobIs_any (jobIn_job h3)
    unfold seqOf at this ⊢
    rw [K.seqs (by decide)]; exact this) 3 0
  exact ⟨F.1, F.2.1.trans (by rw [show getF t ROOTSEQ_ROOT_REJ rg = getF s ROOTSEQ_ROOT_REJ rg from K.getFk reg_ROOTSEQ_ROOT_REJ (by decide) rg 0]), F.2.2.1⟩

theorem newtonIterationDone_effect (rg : Nat) (j : Job) (X M T : IMat) (W Y : IMat × Bool) (s : State) (h1 : stopped s = false) (h2 : domOn s (32 + rg) = true) (h3 : jobReady s rg 2 = some j) (h4 : getMat rg (jobN j) (1 + j.iter % 2) s = (.ok (some X), s)) (h5 : getMat rg (jobN j) (3 + j.iter % 2) s = (.ok (some M), s)) (h6 : T = newtonT (jobP j) M) (h7 : W = newtonW (jobN j) T (jobP j) M) (h8 : Y = wideMat (jobN j) X (T.map fun r => r.map fun v => bxShift v ((newtonExp (jobP j) (j.iter + 1) : Int) - j.sx).toNat)) (hw : noWeak s = true) :
    if W.2 || Y.2 || (seqOf s rg).sat then (seqOf (runningIn (32 + rg) s (newtonIterationDone rg s)) rg).job = none ∧ getF (runningIn (32 + rg) s (newtonIterationDone rg s)) ROOTSEQ_ROOT_REJ rg = (getF s ROOTSEQ_ROOT_REJ rg + 1) % 2 ^ 32 ∧ evtSet (runningIn (32 + rg) s (newtonIterationDone rg s)) ROOTSEQ_EV_ROOT_REJECT rg = true else
        (seqOf (runningIn (32 + rg) s (newtonIterationDone rg s)) rg).job = some { j with iter := j.iter + 1, sx := (newtonExp (jobP j) (j.iter + 1) : Int), ph := if j.iter + 1 = jobKmax j then 4 else 2 } ∧ getF (runningIn (32 + rg) s (newtonIterationDone rg s)) ROOTSEQ_ITER_DONE rg = (getF s ROOTSEQ_ITER_DONE rg + 1) % 2 ^ 32 ∧ (runningIn (32 + rg) s (newtonIterationDone rg s)).mem = (memStore (dieOf j.cl) (j.addr + 88) (wipBytes { j with iter := j.iter + 1, sx := (newtonExp (jobP j) (j.iter + 1) : Int), ph := if j.iter + 1 = jobKmax j then 4 else 2 }) (putMat rg (jobN j) (1 + (j.iter + 1) % 2) Y.1 (putMat rg (jobN j) (3 + (j.iter + 1) % 2) W.1 s))).mem := by
  rw [runningIn_eq _ _ h1 h2]
  unfold newtonIterationDone
  rw [h3]
  dsimp only
  rw [withMats_two _ hw h4 h5]
  simp only [List.getD_cons_zero, List.getD_cons_succ]
  rw [← h6, ← h7, ← h8]
  by_cases hc : (W.2 || Y.2 || (seqOf s rg).sat) = true
  · rw [if_pos hc, if_pos hc]
    have := failJob_does (jobIs_any (jobIn_job (jobReady_in h3))) 2 0
    exact ⟨this.1, this.2.1, this.2.2.1⟩
  · rw [if_neg hc, if_neg hc]
    refine ⟨by rw [seqOf_saveJob], ?_, ?_⟩
    · rw [show ∀ J z, getF (saveJob rg J z) ROOTSEQ_ITER_DONE rg = getF z ROOTSEQ_ITER_DONE rg from fun J z =>
        (saveJob_keeps (Has.refl _) rg J (Keeps.refl _ z)).getFk reg_ROOTSEQ_ITER_DONE (by decide) rg 0, getF_incr_self _ _ _ (by decide)]
      rw [show ∀ k M z, getF (putMat rg (jobN j) k M z) ROOTSEQ_ITER_DONE rg = getF z ROOTSEQ_ITER_DONE rg from fun k M z =>
        (putMat_keeps (Has.refl _) rg (jobN j) k M (Keeps.refl _ z)).getFk reg_ROOTSEQ_ITER_DONE (by decide) rg 0]
      rw [show ∀ k M z, getF (putMat rg (jobN j) k M z) ROOTSEQ_ITER_DONE rg = getF z ROOTSEQ_ITER_DONE rg from fun k M z =>
        (putMat_keeps (Has.refl _) rg (jobN j) k M (Keeps.refl _ z)).getFk reg_ROOTSEQ_ITER_DONE (by decide) rg 0]
    · rw [saveJob_mem]
      exact (Alike.memStore ((incr_keeps (w := 0x200000000000000000000000000000000000) (Has.refl _) _ rg reg_ROOTSEQ_ITER_DONE (Keeps.refl _ _)).alike (by decide)) _ _ _).mem

theorem getF_saveJob {f : Fld} {m : Nat} (hf : IsReg f m) (hb : Nat.testBit 0x4004000000080000064000000000000000000008000001000c m = false) {rg : Nat} {j : Job} {s : State} {i : Nat} :
    getF (saveJob rg j s) f i = getF s f i := (saveJob_keeps (Has.refl _) rg j (Keeps.refl _ s)).getFk hf hb i 0

theorem getF_putMat {f : Fld} {m : Nat} (hf : IsReg f m) (hb : Nat.testBit 0x4004000000000000000000000000000000000008000000000c m = false) {rg n k : Nat} {M : IMat} {s : State} {i : Nat} :
    getF (putMat rg n k M s) f i = getF s f i := (putMat_keeps (Has.refl _) rg n k M (Keeps.refl _ s)).getFk hf hb i 0

/-- What a panel's floored pivots leave. -/
theorem pivots (s : State) (rg n : Nat) (A : IMat) (m : Nat) :
    seqOf (if m = 0 then s else putMat rg n 0 A (addF ROOTSEQ_PIV_FLOORED rg m s)) rg = seqOf s rg ∧
    getF (if m = 0 then s else putMat rg n 0 A (addF ROOTSEQ_PIV_FLOORED rg m s)) ROOTSEQ_ROOT_REJ rg = getF s ROOTSEQ_ROOT_REJ rg ∧
    getF (if m = 0 then s else putMat rg n 0 A (addF ROOTSEQ_PIV_FLOORED rg m s)) ROOTSEQ_ITER_DONE rg = getF s ROOTSEQ_ITER_DONE rg ∧
    getF (if m = 0 then s else putMat rg n 0 A (addF ROOTSEQ_PIV_FLOORED rg m s)) ROOTSEQ_PIV_FLOORED rg = (getF s ROOTSEQ_PIV_FLOORED rg + m) % 2 ^ 32 := by
  split
  · next h => exact ⟨rfl, rfl, rfl, by rw [h, Nat.add_zero, Nat.mod_eq_of_lt (getF_lt32 ..)]⟩
  · refine ⟨seqOf_putMat .., ?_, ?_, ?_⟩
    · rw [getF_putMat reg_ROOTSEQ_ROOT_REJ (by decide), getF_addF_apart (by decide)]
    · rw [getF_putMat reg_ROOTSEQ_ITER_DONE (by decide), getF_addF_apart (by decide)]
    · rw [getF_putMat reg_ROOTSEQ_PIV_FLOORED (by decide), getF_addF_self _ _ _ _ rfl]

theorem choleskyPanel_effect (rg : Nat) (j : Job) (A M M1 : IMat) (l : List (Nat × Int)) (Y : IMat × Bool) (s : State) (h1 : stopped s = false) (h2 : domOn s (32 + rg) = true) (h3 : jobReady s rg 3 = some j) (h4 : getMat rg (jobN j) 0 s = (.ok (some A), s)) (h5 : getMat rg (jobN j) (1 + j.iter % 2) s = (.ok (some M), s)) (h6 : cholCols (val32 j.phi) (64 * j.iter + 64) 64 (64 * j.iter) M = (M1, l)) (h7 : Y = cholTrail (64 * j.iter) (64 * j.iter + 64) M1) (h8 : 64 * (j.iter + 1) < jobN j) (hw : noWeak s = true) :
    if Y.2 || (seqOf s rg).sat then (seqOf (runningIn (32 + rg) s (choleskyPanelDone rg s)) rg).job = none ∧ getF (runningIn (32 + rg) s (choleskyPanelDone rg s)) ROOTSEQ_ROOT_REJ rg = (getF s ROOTSEQ_ROOT_REJ rg + 1) % 2 ^ 32 ∧ evtSet (runningIn (32 + rg) s (choleskyPanelDone rg s)) ROOTSEQ_EV_ROOT_REJECT rg = true else
        (seqOf (runningIn (32 + rg) s (choleskyPanelDone rg s)) rg).job = some { j with piv := j.piv + l.length, iter := j.iter + 1 } ∧ getF (runningIn (32 + rg) s (choleskyPanelDone rg s)) ROOTSEQ_ITER_DONE rg = (getF s ROOTSEQ_ITER_DONE rg + 1) % 2 ^ 32 ∧ getF (runningIn (32 + rg) s (choleskyPanelDone rg s)) ROOTSEQ_PIV_FLOORED rg = (getF s ROOTSEQ_PIV_FLOORED rg + l.length) % 2 ^ 32 := by
  rw [runningIn_eq _ _ h1 h2]
  unfold choleskyPanelDone
  rw [h3]
  dsimp only
  rw [withMats_two _ hw h4 h5]
  simp only [List.getD_cons_zero, List.getD_cons_succ]
  rw [h6]
  dsimp only
  rw [← h7]
  obtain ⟨e1, e2, e3, e4⟩ := pivots s rg (jobN j) (A.zipIdx.map fun r => r.1.zipIdx.map fun v => if v.2 = r.2 then v.1 + ((l.find? fun e => e.1 == v.2).map (·.2)).getD 0 else v.1) l.length
  generalize (if l.length = 0 then s else putMat rg (jobN j) 0 (A.zipIdx.map fun r => r.1.zipIdx.map fun v => if v.2 = r.2 then v.1 + ((l.find? fun e => e.1 == v.2).map (·.2)).getD 0 else v.1) (addF ROOTSEQ_PIV_FLOORED rg l.length s)) = P at *
  rw [e1]
  by_cases hc : (Y.2 || (seqOf s rg).sat) = true
  · rw [if_pos hc, if_pos hc]
    have := failJob_does (s := P) (rg := rg) (j := { j with piv := j.piv + l.length }) (by rw [e1]; exact jobIs_any (j := j) (jobIn_job (jobReady_in h3))) 2 0
    rw [e2] at this
    exact ⟨this.1, this.2.1, this.2.2.1⟩
  · rw [if_neg hc, if_neg hc, if_pos h8]
    refine ⟨by rw [seqOf_saveJob], ?_, ?_⟩
    · rw [getF_saveJob reg_ROOTSEQ_ITER_DONE (by decide), getF_incr_self _ _ _ (by decide), getF_putMat reg_ROOTSEQ_ITER_DONE (by decide), e3]
    · rw [getF_saveJob reg_ROOTSEQ_PIV_FLOORED (by decide), getF_incr_apart (by decide), getF_putMat reg_ROOTSEQ_PIV_FLOORED (by decide), e4]

theorem choleskyLast_effect (rg : Nat) (j : Job) (A M M1 : IMat) (l : List (Nat × Int)) (Y I X : IMat × Bool) (s : State) (h1 : stopped s = false) (h2 : domOn s (32 + rg) = true) (h3 : jobReady s rg 3 = some j) (h4 : getMat rg (jobN j) 0 s = (.ok (some A), s)) (h5 : getMat rg (jobN j) (1 + j.iter % 2) s = (.ok (some M), s)) (h6 : cholCols (val32 j.phi) (64 * j.iter + 64) 64 (64 * j.iter) M = (M1, l)) (h7 : Y = cholTrail (64 * j.iter) (64 * j.iter + 64) M1) (h8 : jobN j ≤ 64 * (j.iter + 1)) (h9 : I = triInverse (jobN j) (cholExp j) (lowerTri Y.1)) (h10 : X = wideMat (jobN j) (IMat.flip I.1 (jobN j)) I.1) (hw : noWeak s = true) :
    if Y.2 || (seqOf s rg).sat || I.2 || X.2 then (seqOf (runningIn (32 + rg) s (choleskyPanelDone rg s)) rg).job = none ∧ getF (runningIn (32 + rg) s (choleskyPanelDone rg s)) ROOTSEQ_ROOT_REJ rg = (getF s ROOTSEQ_ROOT_REJ rg + 1) % 2 ^ 32 ∧ evtSet (runningIn (32 + rg) s (choleskyPanelDone rg s)) ROOTSEQ_EV_ROOT_REJECT rg = true else
        (seqOf (runningIn (32 + rg) s (choleskyPanelDone rg s)) rg).job = some { j with piv := j.piv + l.length, iter := j.iter + 1, sx := 2 * cholExp j, ph := 4 } ∧ getF (runningIn (32 + rg) s (choleskyPanelDone rg s)) ROOTSEQ_ITER_DONE rg = (getF s ROOTSEQ_ITER_DONE rg + 1) % 2 ^ 32 ∧ getF (runningIn (32 + rg) s (choleskyPanelDone rg s)) ROOTSEQ_PIV_FLOORED rg = (getF s ROOTSEQ_PIV_FLOORED rg + l.length) % 2 ^ 32 := by
  rw [runningIn_eq _ _ h1 h2]
  unfold choleskyPanelDone
  rw [h3]
  dsimp only
  rw [withMats_two _ hw h4 h5]
  simp only [List.getD_cons_zero, List.getD_cons_succ]
  rw [h6]
  dsimp only
  rw [← h7]
  obtain ⟨e1, e2, e3, e4⟩ := pivots s rg (jobN j) (A.zipIdx.map fun r => r.1.zipIdx.map fun v => if v.2 = r.2 then v.1 + ((l.find? fun e => e.1 == v.2).map (·.2)).getD 0 else v.1) l.length
  generalize (if l.length = 0 then s else putMat rg (jobN j) 0 (A.zipIdx.map fun r => r.1.zipIdx.map fun v => if v.2 = r.2 then v.1 + ((l.find? fun e => e.1 == v.2).map (·.2)).getD 0 else v.1) (addF ROOTSEQ_PIV_FLOORED rg l.length s)) = P at *
  rw [e1]
  have e5 : cholExp { j with piv := j.piv + l.length } = cholExp j := rfl
  have ha : ∀ z, seqOf z rg = seqOf s rg → (seqOf z rg).job.any (jobIs ({ j with piv := j.piv + l.length } : Job).ctx ({ j with piv := j.piv + l.length } : Job).gbi) = true := fun z hz => by
    rw [hz]; exact jobIs_any (j := j) (jobIn_job (jobReady_in h3))
  rw [e5, ← h9, ← h10]
  rw [if_neg (by omega : ¬ 64 * (j.iter + 1) < jobN j)]
  by_cases hc : (Y.2 || (seqOf s rg).sat) = true
  · rw [if_pos hc, if_pos (by rw [hc]; rfl)]
    have := failJob_does (s := P) (rg := rg) (j := { j with piv := j.piv + l.length }) (ha P e1) 2 0
    rw [e2] at this
    exact ⟨this.1, this.2.1, this.2.2.1⟩
  · rw [if_neg hc]
    by_cases hx : (I.2 || X.2) = true
    · rw [if_pos hx, if_pos (by rw [Bool.or_assoc, hx]; simp)]
      have := failJob_does (s := incr ROOTSEQ_ITER_DONE rg (putMat rg (jobN j) (1 + (j.iter + 1) % 2) Y.1 P)) (rg := rg) (j := { j with piv := j.piv + l.length })
        (ha _ ((seqOf_putMat ..).trans e1)) 2 0
      rw [getF_incr_apart (by decide), getF_putMat reg_ROOTSEQ_ROOT_REJ (by decide), e2] at this
      exact ⟨this.1, this.2.1, this.2.2.1⟩
    · rw [if_neg hx, if_neg (by simp only [Bool.not_eq_true] at hc hx; rw [Bool.or_assoc, hc, hx]; decide)]
      refine ⟨?_, ?_, ?_⟩
      · rw [seqOf_saveJob]
      · rw [getF_saveJob reg_ROOTSEQ_ITER_DONE (by decide), getF_putMat reg_ROOTSEQ_ITER_DONE (by decide), getF_putMat reg_ROOTSEQ_ITER_DONE (by decide), getF_incr_self _ _ _ (by decide), getF_putMat reg_ROOTSEQ_ITER_DONE (by decide), e3]
      · rw [getF_saveJob reg_ROOTSEQ_PIV_FLOORED (by decide), getF_putMat reg_ROOTSEQ_PIV_FLOORED (by decide), getF_putMat reg_ROOTSEQ_PIV_FLOORED (by decide), getF_incr_apart (by decide), getF_putMat reg_ROOTSEQ_PIV_FLOORED (by decide), e4]

theorem checkSide_does {s : State} {rg : Nat} {j : Job} (h : (seqOf s rg).job = some j) (r : FV) (X : IMat) :
    if FV.lt (.fin false 1 (-(jobRes j : Int))) r then (seqOf (checkSide rg j r X s) rg).job = none ∧ getF (checkSide rg j r X s) ROOTSEQ_ROOT_REJ rg = (getF s ROOTSEQ_ROOT_REJ rg + 1) % 2 ^ 32 ∧ evtSet (checkSide rg j r X s) ROOTSEQ_EV_ROOT_REJECT rg = true
    else if j.side = 0 ∧ lSideR j.lat then (seqOf (checkSide rg j r X s) rg).job = some { j with roots := j.roots ++ [rootWords j X], side := 1, ph := 0, iter := 0 }
    else (seqOf (checkSide rg j r X s) rg).job = some { j with roots := j.roots ++ [rootWords j X], ph := 5 } := by
  unfold checkSide
  split
  · have := failJob_does (jobIs_any h) 1 (resLog r)
    exact ⟨this.1, this.2.1, this.2.2.1⟩
  · dsimp only
    split
    · rw [seqOf_saveJob]
    · rw [seqOf_saveJob]

theorem residualNewton_effect (rg : Nat) (j : Job) (A X M : IMat) (r : FV) (s : State) (h1 : stopped s = false) (h2 : domOn s (32 + rg) = true) (h3 : jobReady s rg 4 = some j) (h4 : jobCode j ≠ 0) (h5 : getMat rg (jobN j) 0 s = (.ok (some A), s)) (h6 : getMat rg (jobN j) (1 + j.iter % 2) s = (.ok (some X), s)) (h7 : getMat rg (jobN j) (3 + j.iter % 2) s = (.ok (some M), s)) (h8 : r = newtonRes (jobP j) j.sx A X M (probe ((ctxOf s j.ctx).seed.getD 0) j)) (hw : noWeak s = true) :
    if (seqOf s rg).sat || FV.lt (.fin false 1 (-(jobRes j : Int))) r then (seqOf (runningIn (32 + rg) s (residualCheck rg s)) rg).job = none ∧ getF (runningIn (32 + rg) s (residualCheck rg s)) ROOTSEQ_ROOT_REJ rg = (getF s ROOTSEQ_ROOT_REJ rg + 1) % 2 ^ 32 ∧ evtSet (runningIn (32 + rg) s (residualCheck rg s)) ROOTSEQ_EV_ROOT_REJECT rg = true else if j.side = 0 ∧ lSideR j.lat then (seqOf (runningIn (32 + rg) s (residualCheck rg s)) rg).job = some { j with roots := j.roots ++ [rootWords j X], side := 1, ph := 0, iter := 0 } else (seqOf (runningIn (32 + rg) s (residualCheck rg s)) rg).job = some { j with roots := j.roots ++ [rootWords j X], ph := 5 } := by
  rw [runningIn_eq _ _ h1 h2]
  unfold residualCheck
  rw [h3]
  dsimp only
  by_cases hs : (seqOf s rg).sat = true
  · rw [if_pos hs, hs, Bool.true_or, if_pos rfl]
    have F := failJob_does (jobIs_any (jobIn_job (jobReady_in h3))) 2 0
    exact ⟨F.1, F.2.1, F.2.2.1⟩
  rw [if_neg hs, show (seqOf s rg).sat = false from by simpa using hs, Bool.false_or]
  rw [if_neg h4, withMats_three _ hw h5 h6 h7]
  simp only [List.getD_cons_zero, List.getD_cons_succ]
  rw [← h8]
  exact checkSide_does (jobIn_job (jobReady_in h3)) r X

theorem residualCholesky_effect (rg : Nat) (j : Job) (A L X : IMat) (r : FV) (s : State) (h1 : stopped s = false) (h2 : domOn s (32 + rg) = true) (h3 : jobReady s rg 4 = some j) (h4 : jobCode j = 0) (h5 : getMat rg (jobN j) 0 s = (.ok (some A), s)) (h6 : getMat rg (jobN j) (1 + j.iter % 2) s = (.ok (some L), s)) (h7 : getMat rg (jobN j) 3 s = (.ok (some X), s)) (h8 : r = cholRes (jobN j) j.sx A L X (probe ((ctxOf s j.ctx).seed.getD 0) j)) (hw : noWeak s = true) :
    if (seqOf s rg).sat || FV.lt (.fin false 1 (-(jobRes j : Int))) r then (seqOf (runningIn (32 + rg) s (residualCheck rg s)) rg).job = none ∧ getF (runningIn (32 + rg) s (residualCheck rg s)) ROOTSEQ_ROOT_REJ rg = (getF s ROOTSEQ_ROOT_REJ rg + 1) % 2 ^ 32 ∧ evtSet (runningIn (32 + rg) s (residualCheck rg s)) ROOTSEQ_EV_ROOT_REJECT rg = true else if j.side = 0 ∧ lSideR j.lat then (seqOf (runningIn (32 + rg) s (residualCheck rg s)) rg).job = some { j with roots := j.roots ++ [rootWords j X], side := 1, ph := 0, iter := 0 } else (seqOf (runningIn (32 + rg) s (residualCheck rg s)) rg).job = some { j with roots := j.roots ++ [rootWords j X], ph := 5 } := by
  rw [runningIn_eq _ _ h1 h2]
  unfold residualCheck
  rw [h3]
  dsimp only
  by_cases hs : (seqOf s rg).sat = true
  · rw [if_pos hs, hs, Bool.true_or, if_pos rfl]
    have F := failJob_does (jobIs_any (jobIn_job (jobReady_in h3))) 2 0
    exact ⟨F.1, F.2.1, F.2.2.1⟩
  rw [if_neg hs, show (seqOf s rg).sat = false from by simpa using hs, Bool.false_or]
  rw [if_pos h4, withMats_three _ hw h5 h6 h7]
  simp only [List.getD_cons_zero, List.getD_cons_succ]
  rw [← h8]
  exact checkSide_does (jobIn_job (jobReady_in h3)) r X

/-- A job that is held: the sequencer is free, and its progress is saved. -/
theorem holdJob_does (rg : Nat) (j : Job) (s : State) :
    (seqOf (holdJob rg j s) rg).job = none ∧ (seqOf (holdJob rg j s) rg).held = (seqOf s rg).held ++ [j] ∧ getF (holdJob rg j s) ROOTSEQ_STAT_BUSY rg = 0 ∧
      (holdJob rg j s).mem = (memStore (dieOf j.cl) (j.addr + 88) (wipBytes j) s).mem := by
  unfold holdJob
  refine ⟨by rw [seqOf_putJob], ?_, (putJob_none ..).1, by rw [putJob_mem]; rfl⟩
  rw [seqOf_putJob, seqOf_modSeq_self, seqOf_memStore]

theorem rootConvert_effect (rg : Nat) (j : Job) (s : State) (h1 : stopped s = false) (h2 : domOn s (32 + rg) = true) (h3 : jobIn s rg [5] = some j) (h4 : bookedReject s j = none) (h5 : spareFree s rg j.ctx j.gbi = true) (h6 : heldBack s j = false) (h7 : ckptReads s j = false) :
    (seqOf (runningIn (32 + rg) s (rootConvert rg s)) rg).job = none ∧ (seqOf (runningIn (32 + rg) s (rootConvert rg s)) rg).held = (seqOf s rg).held ++ [{ j with ph := 6, written := true }] ∧ getF (runningIn (32 + rg) s (rootConvert rg s)) ROOTSEQ_STAT_BUSY rg = 0 ∧ (runningIn (32 + rg) s (rootConvert rg s)).mem = (memStore (dieOf j.cl) (j.addr + 88) (wipBytes { j with ph := 6, written := true }) (writeRoots j s)).mem := by
  rw [runningIn_eq _ _ h1 h2]
  unfold rootConvert
  rw [h3]
  dsimp only
  rw [h4]
  dsimp only
  rw [h5, h6, h7, if_neg (by decide), if_neg (by decide)]
  have D := holdJob_does rg { j with ph := 6, written := true } (writeRoots j s)
  rw [show seqOf (writeRoots j s) rg = seqOf s rg from by unfold seqOf; rw [(writeRoots_keeps (Has.refl _) j (Keeps.refl _ s)).seqs (by decide)]] at D
  exact D

theorem rootConvertHeld_effect (rg : Nat) (j : Job) (s : State) (h1 : stopped s = false) (h2 : domOn s (32 + rg) = true) (h3 : jobIn s rg [5] = some j) (h4 : bookedReject s j = none) (h5 : heldBack s j = true) :
    (seqOf (runningIn (32 + rg) s (rootConvert rg s)) rg).job = none ∧ (seqOf (runningIn (32 + rg) s (rootConvert rg s)) rg).held = (seqOf s rg).held ++ [{ j with ph := 6 }] ∧ getF (runningIn (32 + rg) s (rootConvert rg s)) ROOTSEQ_STAT_BUSY rg = 0 ∧ (runningIn (32 + rg) s (rootConvert rg s)).mem = (memStore (dieOf j.cl) (j.addr + 88) (wipBytes { j with ph := 6 }) s).mem := by
  rw [runningIn_eq _ _ h1 h2]
  unfold rootConvert
  rw [h3]
  dsimp only
  rw [h4]
  dsimp only
  rw [h5, if_pos rfl]
  exact holdJob_does rg { j with ph := 6 } s

theorem rootPublish_effect (rg : Nat) (j : Job) (s : State) (h1 : stopped s = false) (h2 : domOn s (32 + rg) = true) (h3 : (seqOf s rg).held.find? (mayPublish s rg) = some j) :
    (∀ x ∈ (seqOf (runningIn (32 + rg) s (rootPublish rg s)) rg).held, jobIs j.ctx j.gbi x = false) ∧ (j.ctx, j.gbi, (ctxOf s j.ctx).steps.map (·.step)) ∈ (seqOf (runningIn (32 + rg) s (rootPublish rg s)) rg).pubs ∧ getF (runningIn (32 + rg) s (rootPublish rg s)) ROOTSEQ_ROOT_PUB rg = (getF s ROOTSEQ_ROOT_PUB rg + 1) % 2 ^ 32 ∧ (j.piv ≠ 0 → evtSet (runningIn (32 + rg) s (rootPublish rg s)) ROOTSEQ_EV_DAMPED rg = true ∧ getF (runningIn (32 + rg) s (rootPublish rg s)) ROOTSEQ_DAMPED_PUB rg = (getF s ROOTSEQ_DAMPED_PUB rg + 1) % 2 ^ 32) := by
  rw [runningIn_eq _ _ h1 h2]
  unfold rootPublish
  rw [h3]
  dsimp only
  have tail : ∀ (b : Bool) (h : Nat) (z : State), Keeps 0x10f01000000040002000000000080000000000000004c048fc400000000000000000000000000000008000a920100 z (if b then (match wholeBuf (jobBlk j) (4 + h) z with
      | (some ts, s) => sendRoots (jobBlk j) false (4 + h) ts s
      | (none, s) => s) else z) := fun b h z => by
    have hw := Has.refl 0x10f01000000040002000000000080000000000000004c048fc400000000000000000000000000000008000a920100
    have K := wholeBuf_keeps (hw.sub rfl) (jobBlk j) (4 + h) (Keeps.refl 0x10f01000000040002000000000080000000000000004c048fc400000000000000000000000000000008000a920100 z)
    split
    · split
      · next e => rw [e] at K; exact sendRoots_keeps (hw.sub rfl) (jobBlk j) false (4 + h) _ K
      · next e => rw [e] at K; exact K
    · exact Keeps.refl _ z
  unfold publishJob
  dsimp only
  have A : ∀ z, Keeps 0x100000000000000000000000000000000000004004000000000000000000000000000000000008000002000c s z → getF z ROOTSEQ_ROOT_PUB rg = getF s ROOTSEQ_ROOT_PUB rg ∧ getF z ROOTSEQ_DAMPED_PUB rg = getF s ROOTSEQ_DAMPED_PUB rg ∧ seqOf z rg = seqOf s rg ∧ ctxOf z j.ctx = ctxOf s j.ctx := fun z hz =>
    ⟨hz.getFk reg_ROOTSEQ_ROOT_PUB (by decide) rg 0, hz.getFk reg_ROOTSEQ_DAMPED_PUB (by decide) rg 0, by unfold seqOf; rw [hz.seqs (by decide)], by unfold ctxOf; rw [hz.ctxs (by decide)]⟩
  have hH : Keeps 0x100000000000000000000000000000000000004004000000000000000000000000000000000008000002000c s (recPut (jobBlk j) 48 1 0 (clearWip (jobBlk j) (recPut (jobBlk j) 32 8 ((recGet s (jobBlk j) 32 8 % two32 + 1) % two32 + two32 * (recGet s (jobBlk j) 32 8 / two32 / 8 * 8 + (1 - recGet s (jobBlk j) 36 1 % 2) + 2 * b2n (decide (j.piv ≠ 0)))) (auditAbort j.gbi (if j.written then s else writeRoots j s))))) := by
    have hw := Has.refl 0x100000000000000000000000000000000000004004000000000000000000000000000000000008000002000c
    exact recPut_keeps (hw.sub rfl) _ _ _ _ (clearWip_keeps (hw.sub rfl) _ (recPut_keeps (hw.sub rfl) _ _ _ _ (auditAbort_keeps (hw.sub rfl) _ (keeps_ite (Keeps.refl _ s) (writeRoots_keeps (hw.sub rfl) j (Keeps.refl _ s))))))
  obtain ⟨a1, a2, a3, a4⟩ := A _ hH
  generalize recPut (jobBlk j) 48 1 0 (clearWip (jobBlk j) (recPut (jobBlk j) 32 8 ((recGet s (jobBlk j) 32 8 % two32 + 1) % two32 + two32 * (recGet s (jobBlk j) 32 8 / two32 / 8 * 8 + (1 - recGet s (jobBlk j) 36 1 % 2) + 2 * b2n (decide (j.piv ≠ 0)))) (auditAbort j.gbi (if j.written then s else writeRoots j s)))) = H at *
  have b1 : seqOf (if decide (j.piv ≠ 0) = true then setEvt ROOTSEQ_EV_DAMPED rg (incr ROOTSEQ_DAMPED_PUB rg (incr ROOTSEQ_ROOT_PUB rg H)) else incr ROOTSEQ_ROOT_PUB rg H) rg = seqOf s rg := by
    rw [← a3]; split
    · rw [seqOf_setEvt]; rfl
    · rfl
  have b2 : ctxOf (if decide (j.piv ≠ 0) = true then setEvt ROOTSEQ_EV_DAMPED rg (incr ROOTSEQ_DAMPED_PUB rg (incr ROOTSEQ_ROOT_PUB rg H)) else incr ROOTSEQ_ROOT_PUB rg H) j.ctx = ctxOf s j.ctx := by
    rw [← a4]; split
    · rw [ctxOf_setEvt]; rfl
    · rfl
  have b3 : getF (if decide (j.piv ≠ 0) = true then setEvt ROOTSEQ_EV_DAMPED rg (incr ROOTSEQ_DAMPED_PUB rg (incr ROOTSEQ_ROOT_PUB rg H)) else incr ROOTSEQ_ROOT_PUB rg H) ROOTSEQ_ROOT_PUB rg = (getF s ROOTSEQ_ROOT_PUB rg + 1) % 2 ^ 32 := by
    refine getF_ite_eq ?_ ?_
    · rw [getF_setEvt_apart (by decide), getF_incr_apart (by decide), getF_incr_self _ _ _ (by decide), a1]
    · rw [getF_incr_self _ _ _ (by decide), a1]
  have b4 : j.piv ≠ 0 → evtSet (if decide (j.piv ≠ 0) = true then setEvt ROOTSEQ_EV_DAMPED rg (incr ROOTSEQ_DAMPED_PUB rg (incr ROOTSEQ_ROOT_PUB rg H)) else incr ROOTSEQ_ROOT_PUB rg H) ROOTSEQ_EV_DAMPED rg = true ∧
      getF (if decide (j.piv ≠ 0) = true then setEvt ROOTSEQ_EV_DAMPED rg (incr ROOTSEQ_DAMPED_PUB rg (incr ROOTSEQ_ROOT_PUB rg H)) else incr ROOTSEQ_ROOT_PUB rg H) ROOTSEQ_DAMPED_PUB rg = (getF s ROOTSEQ_DAMPED_PUB rg + 1) % 2 ^ 32 := fun hp => by
    rw [if_pos (by simp [hp])]
    refine ⟨evtSet_setEvt (by decide) _ _, ?_⟩
    rw [getF_setEvt_apart (by decide), getF_incr_self _ _ _ (by decide), getF_incr_apart (by decide), a2]
  generalize (if decide (j.piv ≠ 0) = true then setEvt ROOTSEQ_EV_DAMPED rg (incr ROOTSEQ_DAMPED_PUB rg (incr ROOTSEQ_ROOT_PUB rg H)) else incr ROOTSEQ_ROOT_PUB rg H) = G at *
  generalize hM : modSeq rg _ G = M
  have c1 : seqOf _ rg = seqOf M rg := congrArg (fun z => seqOf z rg) hM
  rw [seqOf_modSeq_self, b1, b2] at c1
  have T := tail (mirrored M j.ctx (jobBlk j)) (1 - recGet s (jobBlk j) 36 1 % 2) M
  have m1 : ∀ f i, getF M f i = getF G f i := fun f i => by rw [← hM]; rfl
  have fin : ∀ z, Keeps 0x10f01000000040002000000000080000000000000004c048fc400000000000000000000000000000008000a920100 M z → (∀ x ∈ (seqOf z rg).held, jobIs j.ctx j.gbi x = false) ∧ (j.ctx, j.gbi, (ctxOf s j.ctx).steps.map (·.step)) ∈ (seqOf z rg).pubs ∧ getF z ROOTSEQ_ROOT_PUB rg = (getF s ROOTSEQ_ROOT_PUB rg + 1) % 2 ^ 32 ∧ (j.piv ≠ 0 → evtSet z ROOTSEQ_EV_DAMPED rg = true ∧ getF z ROOTSEQ_DAMPED_PUB rg = (getF s ROOTSEQ_DAMPED_PUB rg + 1) % 2 ^ 32) := fun z T => by
    refine ⟨fun x hx => ?_, ?_, ?_, fun hp => ?_⟩
    · unfold seqOf at hx c1
      rw [T.seqs (by decide), ← c1] at hx
      simp only [List.mem_filter, Bool.not_eq_true'] at hx
      exact hx.2
    · unfold seqOf at c1 ⊢
      rw [T.seqs (by decide), ← c1]
      simp
    · exact (T.getFk reg_ROOTSEQ_ROOT_PUB (by decide) rg 0).trans ((m1 ..).trans b3)
    · refine ⟨evtSet_keptR T reg_pendFld2 (by decide) rfl ?_, (T.getFk reg_ROOTSEQ_DAMPED_PUB (by decide) rg 0).trans ((m1 ..).trans (b4 hp).2)⟩
      unfold evtSet; rw [m1]; exact (b4 hp).1
  exact fin _ T

theorem dueNoticeIdle_effect (rg : Nat) (t : Notice) (rest : List Notice) (x : Step) (b : Blk) (s : State) (h1 : stopped s = false) (h2 : domOn s (32 + rg) = true) (h3 : (seqOf s rg).notices = t :: rest) (h4 : (seqOf s rg).restart = none) (h5 : seqStalled s t.ctx rg = false) (h6 : blkOf s t.ctx t.step t.gbi = some (x, b)) (h7 : lateKind s t b = 0) (h8 : (seqOf s rg).held.any (fun j => j.written && !heldBack s j) = false) :
    (seqOf (runningIn (32 + rg) s (dueNotice rg s)) rg).notices = rest ∧ (runningIn (32 + rg) s (dueNotice rg s)).blk t.ctx t.step t.gbi = some { b with notice := 2 } := by
  rw [runningIn_eq _ _ h1 h2]
  have hl : ∀ (f : Seq → Seq), lateKind (modSeq rg f s) t b = lateKind s t b := fun f => by
    unfold lateKind
    rw [((modSeq_keeps (Has.refl _) rg f (Keeps.refl _ s)).alike (by decide)).recGet]
    rfl
  unfold dueNotice
  dsimp only
  rw [h3]
  dsimp only
  rw [h4, h5, h8, if_neg (by decide), h6]
  dsimp only
  rw [hl, h7]
  rw [if_pos rfl]
  unfold replyNotice
  refine ⟨?_, blkOf_modBlk (b := b) (st := x) h6 (fun _ => rfl)⟩
  rw [show ∀ c n g f z, seqOf (modBlk c n g f z) rg = seqOf z rg from fun _ _ _ _ _ => rfl, seqOf_modSeq_self]

theorem dueNoticeContinue_effect (rg : Nat) (t : Notice) (rest : List Notice) (x : Step) (b : Blk) (s : State) (h1 : stopped s = false) (h2 : domOn s (32 + rg) = true) (h3 : (seqOf s rg).notices = t :: rest) (h4 : (seqOf s rg).restart = none) (h5 : seqStalled s t.ctx rg = false) (h6 : blkOf s t.ctx t.step t.gbi = some (x, b)) (h7 : lateKind s t b = 1) (h8 : (seqOf s rg).held.any (fun j => j.written && !heldBack s j) = false) :
    (seqOf (runningIn (32 + rg) s (dueNotice rg s)) rg).notices = rest ∧ (runningIn (32 + rg) s (dueNotice rg s)).blk t.ctx t.step t.gbi = some { b with notice := 2 } ∧ getF (runningIn (32 + rg) s (dueNotice rg s)) ROOTSEQ_ROOT_LATE rg = (getF s ROOTSEQ_ROOT_LATE rg + 1) % 2 ^ 32 ∧ evtSet (runningIn (32 + rg) s (dueNotice rg s)) ROOTSEQ_EV_ROOT_LATE rg = true ∧ (seqOf (runningIn (32 + rg) s (dueNotice rg s)) rg).job = (seqOf s rg).job := by
  rw [runningIn_eq _ _ h1 h2]
  have hl : ∀ (f : Seq → Seq), lateKind (modSeq rg f s) t b = lateKind s t b := fun f => by
    unfold lateKind
    rw [((modSeq_keeps (Has.refl _) rg f (Keeps.refl _ s)).alike (by decide)).recGet]
    rfl
  unfold dueNotice
  dsimp only
  rw [h3]
  dsimp only
  rw [h4, h5, h8, if_neg (by decide), h6]
  dsimp only
  rw [hl, h7]
  rw [if_neg (by decide), if_pos rfl]
  have S : ∀ J a b c d e z, seqOf (replyNotice t (rootEvt rg J a b c d e z)) rg = seqOf z rg := fun J a b c d e z => by
    unfold seqOf; rw [(replyNotice_keeps (Has.refl 0x100000) t (rootEvt_keeps (Has.refl 0x100000) rg J a b c d e (Keeps.refl _ z))).seqs (by decide)]
  have G : ∀ f m J a b c d e z, IsReg f m → Nat.testBit 0x100000 m = false → getF (replyNotice t (rootEvt rg J a b c d e z)) f rg = getF z f rg := fun f m J a b c d e z hf hb =>
    (replyNotice_keeps (Has.refl 0x100000) t (rootEvt_keeps (Has.refl 0x100000) rg J a b c d e (Keeps.refl _ z))).getFk hf hb rg 0
  refine ⟨?_, ?_, ?_, ?_, ?_⟩
  · rw [S, seqOf_setEvt, show ∀ f i z, seqOf (incr f i z) rg = seqOf z rg from fun _ _ _ => rfl, seqOf_modSeq_self]
  · unfold replyNotice
    refine blkOf_modBlk (b := b) (st := x) ?_ (fun _ => rfl)
    rw [← h6]
    refine blkOf_congr _ _ ?_
    unfold rootEvt
    rw [steps_jrnCtx, ctxOf_setEvt]
    rfl
  · rw [G _ _ _ _ _ _ _ _ _ reg_ROOTSEQ_ROOT_LATE (by decide), getF_setEvt_apart (by decide), getF_incr_self _ _ _ (by decide)]
    rfl
  · unfold evtSet
    rw [show ROOTSEQ_EV_ROOT_LATE.page = 2 from rfl, G _ _ _ _ _ _ _ _ _ reg_pendFld2 (by decide)]
    exact evtSet_setEvt (e := ROOTSEQ_EV_ROOT_LATE) (by decide) rg _
  · rw [S, seqOf_setEvt, show ∀ f i z, seqOf (incr f i z) rg = seqOf z rg from fun _ _ _ => rfl, seqOf_modSeq_self]

theorem dueNoticeRestart_effect (rg : Nat) (t : Notice) (rest : List Notice) (x : Step) (b : Blk) (s : State) (h1 : stopped s = false) (h2 : domOn s (32 + rg) = true) (h3 : (seqOf s rg).notices = t :: rest) (h4 : (seqOf s rg).restart = none) (h5 : seqStalled s t.ctx rg = false) (h6 : blkOf s t.ctx t.step t.gbi = some (x, b)) (h7 : lateKind s t b = 2) (h8 : (seqOf s rg).held.any (fun j => j.written && !heldBack s j) = false) :
    (seqOf (runningIn (32 + rg) s (dueNotice rg s)) rg).notices = rest ∧ (seqOf (runningIn (32 + rg) s (dueNotice rg s)) rg).restart = some t ∧ (seqOf (runningIn (32 + rg) s (dueNotice rg s)) rg).job.any (jobIs t.ctx t.gbi) = false ∧ (∀ y ∈ (seqOf (runningIn (32 + rg) s (dueNotice rg s)) rg).held, jobIs t.ctx t.gbi y = false) ∧ getF (runningIn (32 + rg) s (dueNotice rg s)) ROOTSEQ_ROOT_LATE rg = (getF s ROOTSEQ_ROOT_LATE rg + 1) % 2 ^ 32 ∧ getF (runningIn (32 + rg) s (dueNotice rg s)) ROOTSEQ_ROOT_RESTART rg = (getF s ROOTSEQ_ROOT_RESTART rg + 1) % 2 ^ 32 ∧ evtSet (runningIn (32 + rg) s (dueNotice rg s)) ROOTSEQ_EV_ROOT_LATE rg = true := by
  rw [runningIn_eq _ _ h1 h2]
  have hl : ∀ (f : Seq → Seq), lateKind (modSeq rg f s) t b = lateKind s t b := fun f => by
    unfold lateKind
    rw [((modSeq_keeps (Has.refl _) rg f (Keeps.refl _ s)).alike (by decide)).recGet]
    rfl
  unfold dueNotice
  dsimp only
  rw [h3]
  dsimp only
  rw [h4, h5, h8, if_neg (by decide), h6]
  dsimp only
  rw [hl, h7]
  rw [if_neg (by decide), if_neg (by decide)]
  have R : ∀ J a b c d e z, seqOf (incr ROOTSEQ_ROOT_RESTART rg (rootEvt rg J a b c d e z)) rg = seqOf z rg := fun J a b c d e z => by
    unfold seqOf
    rw [← (rootEvt_keeps (Has.refl 0x100000) rg J a b c d e (Keeps.refl _ z)).seqs (by decide)]
    rfl
  have G : ∀ f m J a b c d e z, IsReg f m → Nat.testBit 0x100000 m = false → getF (rootEvt rg J a b c d e z) f rg = getF z f rg := fun f m J a b c d e z hf hb =>
    (rootEvt_keeps (Has.refl 0x100000) rg J a b c d e (Keeps.refl _ z)).getFk hf hb rg 0
  have M : ∀ (f : Fld) (m : Nat) (q : Seq → Seq) (z : State), IsReg f m → Nat.testBit 0x800000640000000000000001890000000018000 m = false → getF (modSeq rg q (stopJob rg t.ctx t.gbi z)) f rg = getF z f rg := fun f m q z hf hb =>
    (stopJob_keeps (Has.refl 0x800000640000000000000001890000000018000) rg t.ctx t.gbi (Keeps.refl _ z)).getFk hf hb rg 0
  have Sn : ∀ z, (seqOf (stopJob rg t.ctx t.gbi z) rg).notices = (seqOf z rg).notices ∧ (seqOf (stopJob rg t.ctx t.gbi z) rg).job.any (jobIs t.ctx t.gbi) = false ∧
      ∀ y ∈ (seqOf (stopJob rg t.ctx t.gbi z) rg).held, jobIs t.ctx t.gbi y = false := fun z => by
    unfold stopJob
    have D : seqOf (dropWide rg 32 z) rg = seqOf z rg := by unfold seqOf; rw [(dropWide_keeps (Has.refl _) rg 32 (Keeps.refl _ z)).seqs (by decide)]
    dsimp only
    rw [seqOf_modSeq_self]
    split
    · rw [seqOf_putJob, seqOf_modSeq_self, D]
      refine ⟨rfl, rfl, fun y hy => ?_⟩
      simp only [List.mem_filter, Bool.not_eq_true'] at hy
      exact hy.2
    · next hn =>
      refine ⟨rfl, by simpa using hn, fun y hy => ?_⟩
      simp only [List.mem_filter, Bool.not_eq_true'] at hy
      exact hy.2
  refine ⟨?_, ?_, ?_, ?_, ?_, ?_, ?_⟩
  · rw [seqOf_modSeq_self]
    dsimp only
    rw [(Sn _).1, R, seqOf_setEvt, show ∀ f i z, seqOf (incr f i z) rg = seqOf z rg from fun _ _ _ => rfl, seqOf_modSeq_self]
  · rw [seqOf_modSeq_self]
  · rw [seqOf_modSeq_self]
    exact (Sn _).2.1
  · rw [seqOf_modSeq_self]
    exact (Sn _).2.2
  · rw [M _ _ _ _ reg_ROOTSEQ_ROOT_LATE (by decide), getF_incr_apart (by decide), G _ _ _ _ _ _ _ _ _ reg_ROOTSEQ_ROOT_LATE (by decide), getF_setEvt_apart (by decide), getF_incr_self _ _ _ (by decide)]
    rfl
  · rw [M _ _ _ _ reg_ROOTSEQ_ROOT_RESTART (by decide), getF_incr_self _ _ _ (by decide), G _ _ _ _ _ _ _ _ _ reg_ROOTSEQ_ROOT_RESTART (by decide), getF_setEvt_apart (by decide), getF_incr_apart (by decide)]
    rfl
  · unfold evtSet
    rw [show ROOTSEQ_EV_ROOT_LATE.page = 2 from rfl, M _ _ _ _ reg_pendFld2 (by decide), getF_incr_apart (by decide), G _ _ _ _ _ _ _ _ _ reg_pendFld2 (by decide)]
    exact evtSet_setEvt (e := ROOTSEQ_EV_ROOT_LATE) (by decide) rg _

theorem restartReply_effect (rg : Nat) (t : Notice) (x : Step) (b : Blk) (s : State) (h1 : stopped s = false) (h2 : domOn s (32 + rg) = true) (h3 : (seqOf s rg).restart = some t) (h4 : wideStopped s rg 32 = true) (h5 : blkOf s t.ctx t.step t.gbi = some (x, b)) :
    (seqOf (runningIn (32 + rg) s (restartReply rg s)) rg).restart = none ∧ (runningIn (32 + rg) s (restartReply rg s)).blk t.ctx t.step t.gbi = some { b with notice := 2 } ∧ (runningIn (32 + rg) s (restartReply rg s)).mem = (recPut b 48 1 0 (clearWip b s)).mem := by
  rw [runningIn_eq _ _ h1 h2]
  unfold restartReply
  rw [h3]
  dsimp only
  rw [h4, if_neg (by decide), show ∀ f, blkOf (modSeq rg f s) t.ctx t.step t.gbi = blkOf s t.ctx t.step t.gbi from fun _ => rfl, h5]
  dsimp only
  unfold replyNotice
  have C : ∀ z, (recPut b 48 1 0 (clearWip b z)).ctxs = z.ctxs := fun z =>
    (recPut_keeps (w₀ := 0x4004000000000000000000000000000000000008000000000c) (Has.refl _) b 48 1 0 (clearWip_keeps (Has.refl _) b (Keeps.refl _ z))).ctxs (by decide)
  have Q : ∀ z, (recPut b 48 1 0 (clearWip b z)).seqs = z.seqs := fun z =>
    (recPut_keeps (w₀ := 0x4004000000000000000000000000000000000008000000000c) (Has.refl _) b 48 1 0 (clearWip_keeps (Has.refl _) b (Keeps.refl _ z))).seqs (by decide)
  refine ⟨?_, blkOf_modBlk (b := b) (st := x) ?_ (fun _ => rfl), ?_⟩
  · rw [show ∀ c n g f z, seqOf (modBlk c n g f z) rg = seqOf z rg from fun _ _ _ _ _ => rfl]
    unfold seqOf
    rw [Q]
    exact congrArg Seq.restart (seqOf_modSeq_self ..)
  · rw [← h5]
    exact blkOf_ctxs _ _ _ (C _)
  · show (recPut b 48 1 0 (clearWip b (modSeq rg _ s))).mem = _
    exact (Alike.recPut (Alike.memStore ((modSeq_keeps (Has.refl _) rg _ (Keeps.refl _ s)).alike (by decide)) _ _ _) b 48 1 0).mem

theorem lendSet_effect (rg : Nat) (v : Bool) (s : State) (h1 : stopped s = false) (h2 : domOn s (32 + rg) = true) (h3 : v = (urgentNow s rg || ownerWaits s rg 16)) :
    getF (runningIn (32 + rg) s (lendSet rg s)) ROOTSEQ_STAT_URGENT rg = b2n (urgentNow s rg) ∧ getF (runningIn (32 + rg) s (lendSet rg s)) ROOTSEQ_STAT_LENDING rg = b2n v ∧ ∀ n < 32, getF (runningIn (32 + rg) s (lendSet rg s)) TUNIT_STAT_LEND (rg * 32 + n) = if lendable s (rg * 32 + n) then b2n v else 0 := by
  rw [runningIn_eq _ _ h1 h2]
  unfold lendSet
  dsimp only
  rw [← h3]
  have B : ∀ x : Bool, b2n x % 2 = b2n x := fun x => by cases x <;> rfl
  have L : ∀ (n : Nat) (z : State), n ≤ 32 → (∀ u, lendable (lendAll rg (b2n v) n z) u = lendable z u) ∧
      ∀ m < 32, getF (lendAll rg (b2n v) n z) TUNIT_STAT_LEND (rg * 32 + m) = if m < n then (if lendable z (rg * 32 + m) then b2n v else 0) else getF z TUNIT_STAT_LEND (rg * 32 + m) := by
    intro n
    induction n with
    | zero => exact fun z _ => ⟨fun _ => rfl, fun m _ => rfl⟩
    | succ n ih =>
      intro z hn
      obtain ⟨i1, i2⟩ := ih z (by omega)
      unfold lendAll
      dsimp only
      refine ⟨fun u => ?_, fun m hm => ?_⟩
      · rw [← i1 u]
        unfold lendable fenced isF domOn
        rw [getF_setF_apart (by decide), getF_setF_apart (by decide), show ∀ w y k, getFk (setF TUNIT_STAT_LEND (rg * 32 + n) w y) PWR_DOM_STAT 0 k = getFk y PWR_DOM_STAT 0 k from fun w y k =>
          (setF_keeps (w := 0x100000000000000) (Has.refl _) _ _ _ reg_TUNIT_STAT_LEND (Keeps.refl _ y)).getFk reg_PWR_DOM_STAT (by decide) 0 k]
      · by_cases e : m = n
        · subst e
          rw [getF_setF_self _ _ _ _ (by decide), if_pos (show m < m + 1 by omega), i1]
          split
          · exact B v
          · rfl
        · rw [getF_setF_inst (by omega), i2 m hm]
          by_cases l : m < n
          · rw [if_pos l, if_pos (show m < n + 1 by omega)]
          · rw [if_neg l, if_neg (show ¬ m < n + 1 by omega)]
  refine ⟨?_, ?_, fun n hn => ?_⟩
  · rw [getF_setF_apart (by decide), getF_setF_self _ _ _ _ (by decide)]
    exact B _
  · rw [getF_setF_self _ _ _ _ (by decide)]
    exact B _
  · rw [getF_setF_apart (by decide), getF_setF_apart (by decide), (L 32 s (by omega)).2 n hn, if_pos hn]

theorem seqLockstep_effect (rg : Nat) (j : Job) (s : State) (h1 : stopped s = false) (h2 : domOn s (32 + rg) = true) (h3 : (seqOf s rg).job = some j) :
    (seqOf (runningIn (32 + rg) s (seqLockstep rg s)) rg).job = none ∧ getF (runningIn (32 + rg) s (seqLockstep rg s)) ROOTSEQ_ROOT_REJ rg = (getF s ROOTSEQ_ROOT_REJ rg + 1) % 2 ^ 32 ∧ evtSet (runningIn (32 + rg) s (seqLockstep rg s)) ROOTSEQ_EV_ROOT_REJECT rg = true ∧ evtSet (runningIn (32 + rg) s (seqLockstep rg s)) ROOTSEQ_EV_LOCKSTEP rg = true ∧ getF (runningIn (32 + rg) s (seqLockstep rg s)) BRKW_SEQ_LOCKSTEP_CNT 0 = (getF s BRKW_SEQ_LOCKSTEP_CNT 0 + 1) % 2 ^ 32 ∧ evtSet (runningIn (32 + rg) s (seqLockstep rg s)) BRKW_EV_SEQ_LOCKSTEP 0 = true := by
  rw [runningIn_eq _ _ h1 h2]
  have hs : seqOf (setEvt BRKW_EV_SEQ_LOCKSTEP 0 (incr BRKW_SEQ_LOCKSTEP_CNT 0 (setEvt ROOTSEQ_EV_LOCKSTEP rg s))) rg = seqOf s rg := by
    rw [seqOf_setEvt, show ∀ f i z, seqOf (incr f i z) rg = seqOf z rg from fun _ _ _ => rfl, seqOf_setEvt]
  unfold seqLockstep
  dsimp only
  rw [hs, h3]
  dsimp only
  have F := failJob_does (s := setEvt BRKW_EV_SEQ_LOCKSTEP 0 (incr BRKW_SEQ_LOCKSTEP_CNT 0 (setEvt ROOTSEQ_EV_LOCKSTEP rg s))) (rg := rg) (j := j) (by rw [hs]; exact jobIs_any h3) 4 0
  rw [getF_setEvt_apart (by decide), getF_incr_apart (by decide), getF_setEvt_apart (by decide)] at F
  have K := failJob_keeps (Has.refl _) rg j 4 0 (Keeps.refl _ (setEvt BRKW_EV_SEQ_LOCKSTEP 0 (incr BRKW_SEQ_LOCKSTEP_CNT 0 (setEvt ROOTSEQ_EV_LOCKSTEP rg s))))
  refine ⟨F.1, F.2.1, F.2.2.1, F.2.2.2.2 ROOTSEQ_EV_LOCKSTEP rfl (by decide) ?_, ?_, evtSet_keptR K reg_pendFld15 (by decide) rfl (evtSet_setEvt (by decide) _ _)⟩
  · refine evtSet_setEvt_of (evtSet_keptR (incr_keeps (w := 2 ^ 495) (Has.refl _) _ _ reg_BRKW_SEQ_LOCKSTEP_CNT (Keeps.refl _ _)) reg_pendFld2 (by decide) rfl (evtSet_setEvt (by decide) _ _)) (by decide)
  · refine (K.getFk reg_BRKW_SEQ_LOCKSTEP_CNT (by decide) 0 0).trans ?_
    show getF _ BRKW_SEQ_LOCKSTEP_CNT 0 = _
    rw [getF_setEvt_apart (by decide), getF_incr_self _ _ _ (by decide), getF_setEvt_apart (by decide)]

theorem seqLockstepIdle_effect (rg : Nat) (s : State) (h1 : stopped s = false) (h2 : domOn s (32 + rg) = true) (h3 : (seqOf s rg).job = none) :
    (seqOf (runningIn (32 + rg) s (seqLockstep rg s)) rg).job = none ∧ evtSet (runningIn (32 + rg) s (seqLockstep rg s)) ROOTSEQ_EV_LOCKSTEP rg = true ∧ getF (runningIn (32 + rg) s (seqLockstep rg s)) BRKW_SEQ_LOCKSTEP_CNT 0 = (getF s BRKW_SEQ_LOCKSTEP_CNT 0 + 1) % 2 ^ 32 ∧ evtSet (runningIn (32 + rg) s (seqLockstep rg s)) BRKW_EV_SEQ_LOCKSTEP 0 = true ∧ getF (runningIn (32 + rg) s (seqLockstep rg s)) ROOTSEQ_ROOT_REJ rg = getF s ROOTSEQ_ROOT_REJ rg := by
  rw [runningIn_eq _ _ h1 h2]
  have hs : seqOf (setEvt BRKW_EV_SEQ_LOCKSTEP 0 (incr BRKW_SEQ_LOCKSTEP_CNT 0 (setEvt ROOTSEQ_EV_LOCKSTEP rg s))) rg = seqOf s rg := by
    rw [seqOf_setEvt, show ∀ f i z, seqOf (incr f i z) rg = seqOf z rg from fun _ _ _ => rfl, seqOf_setEvt]
  unfold seqLockstep
  dsimp only
  rw [hs, h3]
  dsimp only
  refine ⟨by rw [hs, h3], ?_, ?_, evtSet_setEvt (by decide) _ _, ?_⟩
  · refine evtSet_setEvt_of (evtSet_keptR (incr_keeps (w := 2 ^ 495) (Has.refl _) _ _ reg_BRKW_SEQ_LOCKSTEP_CNT (Keeps.refl _ _)) reg_pendFld2 (by decide) rfl (evtSet_setEvt (by decide) _ _)) (by decide)
  · rw [getF_setEvt_apart (by decide), getF_incr_self _ _ _ (by decide), getF_setEvt_apart (by decide)]
  · rw [getF_setEvt_apart (by decide), getF_incr_apart (by decide), getF_setEvt_apart (by decide)]

end Sys2Proof.Machine
end

