-- ==== Sys2Proof/Laws/EffectsSync.lean ====
section
/-! SUPPORT. What the commands do: the commands of sync. -/

namespace Sys2Proof.Machine

/-- `flagRelease` moves no register field but WAITS_DONE and no other part than objects and releases. -/
theorem getFk_flagRelease (home k : Nat) (g : Fld) (j l : Nat) (hg : fldIn g = true) (hn : SYNC_WAITS_DONE ≠ g) :
    ∀ (n : Nat) (s : State), getFk (flagRelease home k n s) g j l = getFk s g j l
  | 0, _ => rfl
  | n + 1, s => by
    unfold flagRelease
    dsimp only
    split
    · split
      · rw [getFk_flagRelease home k g j l hg hn n]
        exact getFk_setFk_fld (f := SYNC_WAITS_DONE) (by decide) hg hn _ _
      · rfl
    · rfl

theorem flagRelease_no_waiters (home k : Nat) (n : Nat) (s : State) (h : (objOf s k).waiters = []) : flagRelease home k n s = s := by
  cases n with
  | zero => rfl
  | succ n => unfold flagRelease; dsimp only; rw [h]

theorem flagRelease_crossing (home k : Nat) (n : Nat) (s : State) : (flagRelease home k n s).crossing = s.crossing :=
  (flagRelease_keeps (Has.refl _) home k n (Keeps.refl _ s)).crossing (by decide)

theorem addCount_crossing (home k n : Nat) (s : State) : (addCount home k n s).crossing = s.crossing := by
  unfold addCount; split <;> simp

theorem getFk_addCount (home k n : Nat) (s : State) (g : Fld) (j l : Nat) (hg : fldIn g = true) (hn : SYNC_SAT_CNT ≠ g)
    (hp : pendFld 6 ≠ g) : getFk (addCount home k n s) g j l = getFk s g j l := by
  unfold addCount
  split
  · rw [getFk_setEvt_fld (e := SYNC_EV_SAT) (by decide) hg hp]
    exact (getFk_setFk_fld (f := SYNC_SAT_CNT) (by decide) hg hn _ (modObj k _ s)).trans (getFk_modObj ..)
  · rfl

/-- A count saturates at 65,535 (R361). -/
theorem objOf_addCount (home k n : Nat) (s : State) :
    (objOf (addCount home k n s) k).count = min 65535 ((objOf s k).count + n) ∧
    (objOf (addCount home k n s) k).waiters = (objOf s k).waiters ∧ (objOf (addCount home k n s) k).arrivals = (objOf s k).arrivals ∧
    (objOf (addCount home k n s) k).gen = (objOf s k).gen := by
  have e : ∀ f, objOf (setEvt SYNC_EV_SAT home (incr SYNC_SAT_CNT home (modObj k f s))) k = f (objOf s k) := fun f => by
    rw [objOf_setEvt, incr, addF, objOf_addFk, objOf_modObj_self]
  unfold addCount
  split
  · next h =>
    rw [e]
    exact ⟨(Nat.min_eq_left (Nat.le_of_lt h)).symm, rfl, rfl, rfl⟩
  · next h =>
    rw [objOf_modObj_self]
    exact ⟨(Nat.min_eq_right (Nat.not_lt.1 h)).symm, rfl, rfl, rfl⟩

@[simp] theorem objOf_crossing (s : State) (r : List SyncOp) (k : Nat) : objOf { s with crossing := r } k = objOf s k := rfl

theorem stale_crossing (s : State) (o : SyncOp) (r : List SyncOp) : stale { s with crossing := r } o = stale s o := rfl

theorem takeFirst_prop {α : Type} {p : α → Bool} : ∀ {l : List α} {a : α} {r : List α}, takeFirst p l = some (a, r) → p a = true
  | [], _, _, h => by simp [takeFirst] at h
  | x :: l, a, r, h => by
    unfold takeFirst at h
    split at h
    · cases h; assumption
    · cases e : takeFirst p l with
      | none => rw [e] at h; cases h
      | some q => rw [e] at h; cases h; exact takeFirst_prop e

/-- What `crossNext` answers has the kind asked for. -/
theorem crossNext_op {s : State} {op : Nat} : ∀ {l seen : List SyncOp} {o : SyncOp} {r : List SyncOp},
    crossNext s op seen l = some (o, r) → o.op = op
  | [], _, _, _, h => by simp [crossNext] at h
  | x :: l, seen, o, r, h => by
    unfold crossNext at h
    split at h
    · next hc => cases h; simp at hc; exact hc.1.1.1
    · revert h
      cases e : crossNext s op (if tableHeld s x then seen else x :: seen) l with
      | none => intro h; cases h
      | some q => intro h; cases h; exact crossNext_op e

theorem signalCrossing_effect (o : SyncOp) (r : List SyncOp) (s : State) (h1 : stopped s = false) (h2 : crossNext s 0x51 [] s.crossing = some (o, r)) (h3 : stale s o = false) :
    (running s (syncCmd 0x51 .crossing s)).crossing = r ∧ getF (running s (syncCmd 0x51 .crossing s)) SYNC_SIGNALS o.home = (getF s SYNC_SIGNALS o.home + 1) % 2 ^ 32 ∧ ((objOf s (objKey o.home 0 o.obj)).waiters = [] → (objOf (running s (syncCmd 0x51 .crossing s)) (objKey o.home 0 o.obj)).count = min 65535 ((objOf s (objKey o.home 0 o.obj)).count + o.count)) := by
  rw [running_eq _ h1]
  unfold syncCmd crossingTake
  dsimp only
  rw [h2]
  dsimp only
  have ho : o.op = 0x51 := crossNext_op h2
  unfold homeTake
  rw [if_pos ho]
  unfold homeSignal flagExamine
  rw [stale_crossing, h3, if_neg (by decide)]
  refine ⟨?_, ?_, fun hw => ?_⟩
  · rw [flagRelease_crossing, addCount_crossing]; rfl
  · unfold getF
    rw [getFk_flagRelease _ _ _ _ _ (by decide) (by decide),
      getFk_addCount _ _ _ _ _ _ _ (by decide) (by decide) (by decide)]
    exact getF_incr_self SYNC_SIGNALS o.home _ (by decide)
  · have e : (objOf (addCount o.home (objKey o.home 0 o.obj) o.count (incr SYNC_SIGNALS o.home { s with crossing := r }))
        (objKey o.home 0 o.obj)).waiters = [] := by rw [(objOf_addCount _ _ _ _).2.1]; exact hw
    rw [flagRelease_no_waiters _ _ _ _ e, (objOf_addCount _ _ _ _).1]
    rfl

theorem endList_crossing (cl lid : Nat) (s : State) : (endList cl lid s).crossing = s.crossing :=
  (endList_keeps (Has.refl _) cl lid (Keeps.refl _ s)).crossing (by decide)

theorem arriveHeld_of_op {l : ListRun} {d : List Byte} (h : bits (leVal (d.take 4)) 0 8 ≠ 0x53) : arriveHeld l d = false := by
  have : closedGroup l d = none := by
    unfold closedGroup closesGroup
    cases l.grp with
    | none => rfl
    | some g => simp [h]
  unfold arriveHeld
  rw [this]

theorem signalList_effect (cl lid : Nat) (l : ListRun) (d : List Byte) (s : State) (h1 : stopped s = false) (h2 : listOf s cl lid = some l) (h3 : l.desc = some d) (h4 : l.st = .run) (h5 : syncCode false d = 0) (h6 : bits (leVal (d.take 4)) 0 8 = 0x51) (h7 : crossBefore s (markOp l d (syncOpOf s cl l d)) ≤ Config.issueDepth) :
    (running s (syncCmd 0x51 (.list cl lid true) s)).crossing = s.crossing ++ [markOp l d (syncOpOf s cl l d)] := by
  rw [running_eq _ h1]
  unfold syncCmd listSync
  dsimp only
  rw [h2]
  dsimp only
  rw [h3]
  dsimp only
  rw [h4, h5, h6, if_neg (by simp), if_neg (by simp), if_neg (by simp [arriveHeld_of_op (l := l) (d := d) (by rw [h6]; decide)]), if_neg (Nat.not_lt.2 h7)]
  unfold issueOp sendOp
  rw [endList_crossing, if_pos (by simp)]
  rfl

theorem flagRelease_first {home k n : Nat} {s : State} {w : Waiter} {r : List Waiter} (h : (objOf s k).waiters = w :: r)
    (hc : (objOf s k).count < w.need) : flagRelease home k n s = s := by
  cases n with
  | zero => rfl
  | succ n => unfold flagRelease; dsimp only; rw [h]; dsimp only; rw [if_neg (by omega)]

theorem waitRegisters_effect (o : SyncOp) (r : List SyncOp) (s : State) (h1 : stopped s = false) (h2 : crossNext s 0x52 [] s.crossing = some (o, r)) (h3 : stale s o = false) (h4 : (objOf s (objKey o.home 0 o.obj)).waiters = []) (h5 : (objOf s (objKey o.home 0 o.obj)).count < o.count) :
    (running s (syncCmd 0x52 .crossing s)).crossing = r ∧ (objOf (running s (syncCmd 0x52 .crossing s)) (objKey o.home 0 o.obj)).waiters = [{ party := o.party, ctx := o.ctx, need := o.count, consume := opConsume o }] := by
  rw [running_eq _ h1]
  unfold syncCmd crossingTake
  dsimp only
  rw [h2]
  dsimp only
  have ho : o.op = 0x52 := crossNext_op h2
  unfold homeTake
  rw [if_neg (by rw [ho]; decide), if_pos ho]
  unfold homeWait flagExamine
  dsimp only
  rw [stale_crossing, h3, if_neg (by decide)]
  have ew : (objOf { s with crossing := r } (objKey o.home 0 o.obj)).waiters = [] := h4
  rw [ew, if_neg (by decide)]
  rw [flagRelease_first (w := { party := o.party, ctx := o.ctx, need := o.count, consume := opConsume o }) (r := []) (by simp [h4])
    (by simp only [objOf_modObj_self]; exact h5)]
  exact ⟨rfl, by simp [h4]⟩

/-- A WAIT whose flag suffices and has no earlier waiter is released at once. -/
theorem homeWait_now {o : SyncOp} {s : State} (h1 : stale s o = false) (h2 : (objOf s (objKey o.home 0 o.obj)).waiters = [])
    (h3 : o.count ≤ (objOf s (objKey o.home 0 o.obj)).count) :
    homeWait o s = sendRelease o.party .ok (incr SYNC_WAITS_DONE o.home (modObj (objKey o.home 0 o.obj)
      (fun x => { x with waiters := [], count := if opConsume o then x.count - o.count else x.count })
      (modObj (objKey o.home 0 o.obj) (fun x => { x with waiters := x.waiters ++
        [{ party := o.party, ctx := o.ctx, need := o.count, consume := opConsume o }] }) s))) := by
  unfold homeWait
  dsimp only
  rw [h1, h2, if_neg (by decide), if_neg (by decide)]
  unfold flagExamine
  generalize hk : objKey o.home 0 o.obj = k at *
  have e : (objOf (modObj k (fun x => { x with waiters := x.waiters ++
      [{ party := o.party, ctx := o.ctx, need := o.count, consume := opConsume o }] }) s) k).waiters =
      [{ party := o.party, ctx := o.ctx, need := o.count, consume := opConsume o }] := by
    rw [objOf_modObj_self, h2]; rfl
  have e2 : (objOf (modObj k (fun x => { x with waiters := x.waiters ++
      [{ party := o.party, ctx := o.ctx, need := o.count, consume := opConsume o }] }) s) k).count = (objOf s k).count := by
    rw [objOf_modObj_self]
  rw [e]
  generalize modObj k (fun x => { x with waiters := x.waiters ++
      [{ party := o.party, ctx := o.ctx, need := o.count, consume := opConsume o }] }) s = y at *
  simp only [List.length_cons, List.length_nil]
  rw [flagRelease]
  rw [e]
  dsimp only
  rw [if_pos (by rw [e2]; exact h3)]
  rfl

theorem waitReleased_effect (o : SyncOp) (r : List SyncOp) (s : State) (h1 : stopped s = false) (h2 : crossNext s 0x52 [] s.crossing = some (o, r)) (h3 : stale s o = false) (h4 : (objOf s (objKey o.home 0 o.obj)).waiters = []) (h5 : o.count ≤ (objOf s (objKey o.home 0 o.obj)).count) :
    (running s (syncCmd 0x52 .crossing s)).releases = s.releases ++ [⟨o.party, .ok⟩] ∧ (objOf (running s (syncCmd 0x52 .crossing s)) (objKey o.home 0 o.obj)).count = (if opConsume o then (objOf s (objKey o.home 0 o.obj)).count - o.count else (objOf s (objKey o.home 0 o.obj)).count) ∧ (objOf (running s (syncCmd 0x52 .crossing s)) (objKey o.home 0 o.obj)).waiters = [] := by
  rw [running_eq _ h1]
  unfold syncCmd crossingTake
  dsimp only
  rw [h2]
  dsimp only
  have ho : o.op = 0x52 := crossNext_op h2
  unfold homeTake
  rw [if_neg (by rw [ho]; decide), if_pos ho, homeWait_now (by rw [stale_crossing]; exact h3) (by rw [objOf_crossing]; exact h4) (by rw [objOf_crossing]; exact h5)]
  generalize hk : objKey o.home 0 o.obj = k at *
  have e : ∀ p q x, objOf (sendRelease p q x) k = objOf x k := fun _ _ _ => rfl
  have e' : ∀ f j x, objOf (incr f j x) k = objOf x k := fun _ _ _ => rfl
  refine ⟨rfl, ?_, ?_⟩
  · rw [e, e', objOf_modObj_self, objOf_modObj_self, objOf_crossing]
  · rw [e, e', objOf_modObj_self]

theorem barRelease_below {home b n : Nat} {s : State} (h : (objOf s (objKey home 1 b)).count < getFk s SYNC_BAR_CFG_N home b) :
    barRelease home b n s = s := by
  cases n with
  | zero => rfl
  | succ n => unfold barRelease; dsimp only; rw [if_neg (by omega)]

theorem arriveCounts_effect (o : SyncOp) (r : List SyncOp) (s : State) (h1 : stopped s = false) (h2 : crossNext s 0x53 [] s.crossing = some (o, r)) (h3 : stale s o = false) (h4 : (objOf s (objKey o.home 1 o.obj)).count + o.count < getFk s SYNC_BAR_CFG_N o.home o.obj) (h5 : getFk s SYNC_BAR_CFG_N o.home o.obj ≤ 65535) :
    (running s (syncCmd 0x53 .crossing s)).crossing = r ∧ (objOf (running s (syncCmd 0x53 .crossing s)) (objKey o.home 1 o.obj)).count = (objOf s (objKey o.home 1 o.obj)).count + o.count ∧ (objOf (running s (syncCmd 0x53 .crossing s)) (objKey o.home 1 o.obj)).gen = (objOf s (objKey o.home 1 o.obj)).gen ∧ ∃ a, (objOf (running s (syncCmd 0x53 .crossing s)) (objKey o.home 1 o.obj)).arrivals = (objOf s (objKey o.home 1 o.obj)).arrivals ++ [a] ∧ a.left = o.count ∧ a.party = o.party := by
  rw [running_eq _ h1]
  unfold syncCmd crossingTake
  dsimp only
  rw [h2]
  dsimp only
  have ho : o.op = 0x53 := crossNext_op h2
  unfold homeTake
  rw [if_neg (by rw [ho]; decide), if_neg (by rw [ho]; decide)]
  unfold homeArrive barExamine
  dsimp only
  rw [stale_crossing, h3, if_neg (by decide)]
  have e0 : objOf { s with crossing := r } (objKey o.home 1 o.obj) = objOf s (objKey o.home 1 o.obj) := rfl
  have hm : min o.count (65535 - (objOf s (objKey o.home 1 o.obj)).count) = o.count := by omega
  rw [e0, hm]
  generalize hx : addCount o.home (objKey o.home 1 o.obj) o.count _ = x
  have ec : (objOf x (objKey o.home 1 o.obj)).count = (objOf s (objKey o.home 1 o.obj)).count + o.count := by
    subst hx; rw [(objOf_addCount _ _ _ _).1]; simp only [objOf_modObj_self, e0]; omega
  have eN : getFk x SYNC_BAR_CFG_N o.home o.obj = getFk s SYNC_BAR_CFG_N o.home o.obj := by
    subst hx
    rw [getFk_addCount _ _ _ _ _ _ _ (by decide) (by decide) (by decide)]
    rfl
  rw [barRelease_below (by rw [ec, eN]; exact h4)]
  refine ⟨?_, ec, ?_, { party := o.party, ctx := o.ctx, left := o.count, mark := opMark o, waits := !opNowait o }, ?_, rfl, rfl⟩
  · subst hx; rw [addCount_crossing]; rfl
  · subst hx; rw [(objOf_addCount _ _ _ _).2.2.2]; simp [e0]
  · subst hx; rw [(objOf_addCount _ _ _ _).2.2.1]; simp only [objOf_modObj_self, e0]

theorem objOf_sendReleases (st : RelStatus) : ∀ (ps : List Party) (s : State) (k : Nat), objOf (sendReleases st ps s) k = objOf s k
  | [], _, _ => rfl
  | p :: ps, s, k => by rw [sendReleases, objOf_sendReleases st ps]; rfl

theorem getFk_sendReleases (st : RelStatus) : ∀ (ps : List Party) (s : State) (g : Fld) (i k : Nat),
    getFk (sendReleases st ps s) g i k = getFk s g i k
  | [], _, _, _, _ => rfl
  | p :: ps, s, g, i, k => by rw [sendReleases, getFk_sendReleases st ps]; rfl

theorem crossing_sendReleases (st : RelStatus) : ∀ (ps : List Party) (s : State), (sendReleases st ps s).crossing = s.crossing
  | [], _ => rfl
  | p :: ps, s => by rw [sendReleases, crossing_sendReleases st ps]; rfl

theorem arriveReleases_effect (o : SyncOp) (r : List SyncOp) (s : State) (h1 : stopped s = false) (h2 : crossNext s 0x53 [] s.crossing = some (o, r)) (h3 : stale s o = false) (h4 : (objOf s (objKey o.home 1 o.obj)).count + o.count = getFk s SYNC_BAR_CFG_N o.home o.obj) (h5 : 0 < getFk s SYNC_BAR_CFG_N o.home o.obj) (h6 : getFk s SYNC_BAR_CFG_N o.home o.obj ≤ 65535) :
    (running s (syncCmd 0x53 .crossing s)).crossing = r ∧ (objOf (running s (syncCmd 0x53 .crossing s)) (objKey o.home 1 o.obj)).count = 0 ∧ (objOf (running s (syncCmd 0x53 .crossing s)) (objKey o.home 1 o.obj)).gen = ((objOf s (objKey o.home 1 o.obj)).gen + 1) % 256 ∧ getF (running s (syncCmd 0x53 .crossing s)) SYNC_BAR_RELEASE o.home = (getF s SYNC_BAR_RELEASE o.home + 1) % 2 ^ 32 := by
  rw [running_eq _ h1]
  unfold syncCmd crossingTake
  dsimp only
  rw [h2]
  dsimp only
  have ho : o.op = 0x53 := crossNext_op h2
  unfold homeTake
  rw [if_neg (by rw [ho]; decide), if_neg (by rw [ho]; decide)]
  unfold homeArrive barExamine
  dsimp only
  rw [stale_crossing, h3, if_neg (by decide)]
  have e0 : objOf { s with crossing := r } (objKey o.home 1 o.obj) = objOf s (objKey o.home 1 o.obj) := rfl
  generalize hx : addCount o.home (objKey o.home 1 o.obj) o.count _ = x
  have ec : (objOf x (objKey o.home 1 o.obj)).count = getFk s SYNC_BAR_CFG_N o.home o.obj := by
    subst hx; rw [(objOf_addCount _ _ _ _).1]; simp only [objOf_modObj_self, e0]; omega
  have eN : getFk x SYNC_BAR_CFG_N o.home o.obj = getFk s SYNC_BAR_CFG_N o.home o.obj := by
    subst hx
    rw [getFk_addCount _ _ _ _ _ _ _ (by decide) (by decide) (by decide)]
    rfl
  have eg : (objOf x (objKey o.home 1 o.obj)).gen = (objOf s (objKey o.home 1 o.obj)).gen := by
    subst hx; rw [(objOf_addCount _ _ _ _).2.2.2]; simp [e0]
  have eR : getF x SYNC_BAR_RELEASE o.home = getF s SYNC_BAR_RELEASE o.home := by
    subst hx
    unfold getF
    rw [getFk_addCount _ _ _ _ _ _ _ (by decide) (by decide) (by decide)]
    rfl
  have ex : x.crossing = r := by subst hx; rw [addCount_crossing]; rfl
  clear hx
  rw [ec]
  obtain ⟨m, hm⟩ : ∃ m, getFk s SYNC_BAR_CFG_N o.home o.obj = m + 1 := ⟨_, (Nat.succ_pred_eq_of_pos h5).symm⟩
  rw [hm]
  unfold barRelease
  dsimp only
  rw [if_pos (by rw [ec, eN]; omega)]
  generalize hy : sendReleases _ _ _ = y
  have yc : (objOf y (objKey o.home 1 o.obj)).count = 0 := by
    subst hy; rw [objOf_sendReleases]; simp [ec, eN]
  have yg : (objOf y (objKey o.home 1 o.obj)).gen = ((objOf s (objKey o.home 1 o.obj)).gen + 1) % 256 := by
    subst hy; rw [objOf_sendReleases]; simp [eg]
  have yN : getFk y SYNC_BAR_CFG_N o.home o.obj = m + 1 := by
    subst hy; rw [getFk_sendReleases, ← hm, ← eN]
    exact getFk_setFk_fld (f := SYNC_BAR_RELEASE) (by decide) (by decide) (by decide) _ _
  have yR : getF y SYNC_BAR_RELEASE o.home = (getF s SYNC_BAR_RELEASE o.home + 1) % 2 ^ 32 := by
    subst hy; unfold getF; rw [getFk_sendReleases]
    exact (getF_incr_self SYNC_BAR_RELEASE o.home _ (by decide)).trans (congrArg (fun z => (z + 1) % 2 ^ 32) eR)
  have yx : y.crossing = r := by subst hy; rw [crossing_sendReleases]; simp [ex]
  rw [barRelease_below (by rw [yc, yN]; omega)]
  exact ⟨yx, yc, yg, yR⟩

theorem getF_homeWait (o : SyncOp) (s : State) (g : Fld) (j : Nat) (hg : fldIn g = true) (h1 : apart SYNC_STALE_SIG_CNT g = true) (h2 : SYNC_WAITS_DONE ≠ g)
    (h3 : apart (pendFld 6) g = true) : getF (homeWait o s) g j = getF s g j := by
  unfold homeWait
  dsimp only
  split
  · show getF (setEvt _ _ _) g j = _
    rw [getF_setEvt_apart h3, getF_incr_apart h1]
  · split
    · rfl
    · exact getFk_flagRelease _ _ _ _ _ hg h2 _ _

theorem homeWait_crossing (o : SyncOp) (s : State) (h : (objOf s (objKey o.home 0 o.obj)).waiters.length < 64) :
    (homeWait o s).crossing = s.crossing := by
  unfold homeWait
  dsimp only
  split
  · unfold countStale sendRelease incr addF; simp
  · rw [if_neg (by simp only [waiterPlaces]; omega)]
    exact (flagRelease_crossing ..).trans rfl

theorem waiterTableAdmit_effect (home flag cyc : Nat) (o : SyncOp) (r : List SyncOp) (s : State) (h1 : stopped s = false) (h2 : takeFirst (fun o => o.op == 0x52 && o.home == home && o.obj == flag) s.crossing = some (o, r)) :
    getF (running s (waiterTableAdmit home flag cyc s)) SYNC_WAIT_FULL_CYC home = (getF s SYNC_WAIT_FULL_CYC home + cyc) % 2 ^ 32 ∧ ((objOf s (objKey home 0 flag)).waiters.length < 64 → (running s (waiterTableAdmit home flag cyc s)).crossing = r) := by
  rw [running_eq _ h1]
  unfold waiterTableAdmit
  rw [h2]
  dsimp only
  have ea : getF (addF SYNC_WAIT_FULL_CYC home cyc s) SYNC_WAIT_FULL_CYC home = (getF s SYNC_WAIT_FULL_CYC home + cyc) % 2 ^ 32 := by
    show getFk (setFk _ _ 0 _ s) _ _ 0 = _
    rw [getFk_setFk_self _ _ _ _ _ (by decide)]
    exact Nat.mod_mod _ _
  have hp := takeFirst_prop h2
  simp only [Bool.and_eq_true, beq_iff_eq] at hp
  split
  · next hlt =>
    refine ⟨?_, fun _ => ?_⟩
    · rw [getF_homeWait _ _ _ _ (by decide) (by decide) (by decide) (by decide)]
      exact ea
    · refine (homeWait_crossing _ _ ?_).trans rfl
      rw [hp.1.2, hp.2]
      exact hlt
  · next hge =>
    refine ⟨ea, fun hlt => absurd hlt ?_⟩
    simpa [waiterPlaces] using hge

theorem getFk_abandonObj (home k : Nat) (s : State) (g : Fld) (j l : Nat) (hg : fldIn g = true) (hn : SYNC_ABANDONED_CNT ≠ g)
    (hp : pendFld 6 ≠ g) : getFk (abandonObj home k s) g j l = getFk s g j l := by
  have e : ∀ (x : State) (v : Store SyncObj), getFk { x with objs := v } g j l = getFk x g j l := fun _ _ => rfl
  have e2 : ∀ n ps, getFk (sendReleases .abandoned ps (addF SYNC_ABANDONED_CNT home n s)) g j l = getFk s g j l := fun n ps => by
    rw [getFk_sendReleases]
    exact getFk_setFk_fld (f := SYNC_ABANDONED_CNT) (by decide) hg hn _ _
  unfold abandonObj
  dsimp only
  split
  · rw [e, e2]
  · rw [getFk_setEvt_fld (e := SYNC_EV_ABANDON) (by decide) hg hp, e, e2]

theorem getFk_abandonKeys (g : Fld) (j l : Nat) (hg : fldIn g = true) (hn : SYNC_ABANDONED_CNT ≠ g)
    (hp : pendFld 6 ≠ g) : ∀ (ks : List Nat) (s : State),
    getFk (abandonKeys ks s) g j l = getFk s g j l
  | [], _ => rfl
  | k :: ks, s => by rw [abandonKeys, getFk_abandonKeys g j l hg hn hp ks, getFk_abandonObj _ _ _ _ _ _ hg hn hp]

theorem getFk_bumpEpoch (c : Nat) (s : State) (g : Fld) (j l : Nat) (hg : fldIn g = true) (hn : SYNC_EPOCH ≠ g) : getFk (bumpEpoch c s) g j l = getFk s g j l := by
  have e : ∀ h (x : State), getFk (bumpEpochAt c h x) g j l = getFk x g j l := fun h x =>
    getFk_setFk_fld (f := SYNC_EPOCH) (by decide) hg hn _ _
  unfold bumpEpoch
  simp only [e]

theorem getFk_lt (s : State) (f : Fld) (i k : Nat) : getFk s f i k < 2 ^ 32 := BitVec.isLt _

theorem flagOwnWrite_effect (r : Requester) (a v : Nat) (i o : Nat) (s : State) (h1 : a % 4 = 0) (h2 : target s r a = some (6, i, o)) (h3 : gate s r 6 i o = .pass) (h4 : i < 4) (h5 : 0x100 ≤ o) (h6 : o < 0x200) :
    getFk (flagOwnWrite r a v s) SYNC_FLAG_OWN_OWNER i ((o - 0x100) / 4) = bits v 0 4 ∧ getFk (flagOwnWrite r a v s) SYNC_FLAG_OWN_VALID i ((o - 0x100) / 4) = bits v 4 1 := by
  unfold flagOwnWrite guarded
  rw [if_pos h1, h2]
  dsimp only
  rw [h3]
  dsimp only
  rw [if_pos rfl]
  unfold flagOwnSet
  rw [if_pos ⟨h4, h5, h6⟩]
  dsimp only
  have hg : (o - 0x100) / 4 < 64 := by omega
  generalize (o - 0x100) / 4 = g at *
  have e1 : getFk (setFk SYNC_FLAG_OWN_OWNER i g (bits v 0 4) (setFk SYNC_FLAG_OWN_VALID i g (bits v 4 1) s)) SYNC_FLAG_OWN_OWNER i g = bits v 0 4 := by
    rw [getFk_setFk_self _ _ _ _ _ (by decide)]; exact Nat.mod_mod _ _
  have e2 : getFk (setFk SYNC_FLAG_OWN_OWNER i g (bits v 0 4) (setFk SYNC_FLAG_OWN_VALID i g (bits v 4 1) s)) SYNC_FLAG_OWN_VALID i g = bits v 4 1 := by
    rw [getFk_setFk_fld (by decide) (by decide) (by decide) _ _, getFk_setFk_self _ _ _ _ _ (by decide)]; exact Nat.mod_mod _ _
  split
  · exact ⟨e1, e2⟩
  · split
    · exact ⟨by rw [getFk_abandonKeys _ _ _ (by decide) (by decide) (by decide), e1], by rw [getFk_abandonKeys _ _ _ (by decide) (by decide) (by decide), e2]⟩
    · exact ⟨by rw [getFk_bumpEpoch _ _ _ _ _ (by decide) (by decide), getFk_abandonKeys _ _ _ (by decide) (by decide) (by decide), e1],
        by rw [getFk_bumpEpoch _ _ _ _ _ (by decide) (by decide), getFk_abandonKeys _ _ _ (by decide) (by decide) (by decide), e2]⟩

theorem getFk_barRelease (home b : Nat) (g : Fld) (j l : Nat) (hg : fldIn g = true) (hn : SYNC_BAR_RELEASE ≠ g) :
    ∀ (n : Nat) (s : State), getFk (barRelease home b n s) g j l = getFk s g j l
  | 0, _ => rfl
  | n + 1, s => by
    unfold barRelease
    dsimp only
    split
    · rw [getFk_barRelease home b g j l hg hn n, getFk_sendReleases]
      exact getFk_setFk_fld (f := SYNC_BAR_RELEASE) (by decide) hg hn _ _
    · rfl

theorem barCfgWrite_effect (r : Requester) (a v : Nat) (i o : Nat) (s : State) (h1 : a % 4 = 0) (h2 : target s r a = some (6, i, o)) (h3 : gate s r 6 i o = .pass) (h4 : 0x200 ≤ o) (h5 : o < 0x600) (h6 : bits v 0 16 ≠ 0) (h7 : ¬(i = 4 ∧ 64 ≤ (o - 0x200) / 4)) :
    getFk (barCfgWrite r a v s) SYNC_BAR_CFG_N i ((o - 0x200) / 4) = bits v 0 16 ∧ getFk (barCfgWrite r a v s) SYNC_BAR_CFG_OWNER i ((o - 0x200) / 4) = bits v 16 4 ∧ getFk (barCfgWrite r a v s) SYNC_BAR_CFG_VALID i ((o - 0x200) / 4) = bits v 20 1 := by
  unfold barCfgWrite guarded
  rw [if_pos h1, h2]
  dsimp only
  rw [h3]
  dsimp only
  rw [if_pos rfl]
  unfold barCfgSet
  rw [if_pos ⟨h4, h5, h6⟩]
  dsimp only
  have hg : (o - 0x200) / 4 < 256 := by omega
  generalize (o - 0x200) / 4 = g at *
  rw [if_neg h7]
  generalize hx : setFk SYNC_BAR_CFG_N i g (bits v 0 16) _ = x
  have e1 : getFk x SYNC_BAR_CFG_N i g = bits v 0 16 := by
    subst hx; rw [getFk_setFk_self _ _ _ _ _ (by decide)]; exact Nat.mod_mod _ _
  have e2 : getFk x SYNC_BAR_CFG_OWNER i g = bits v 16 4 := by
    subst hx
    rw [getFk_setFk_fld (by decide) (by decide) (by decide) _ _, getFk_setFk_self _ _ _ _ _ (by decide)]; exact Nat.mod_mod _ _
  have e3 : getFk x SYNC_BAR_CFG_VALID i g = bits v 20 1 := by
    subst hx
    rw [getFk_setFk_fld (by decide) (by decide) (by decide) _ _, getFk_setFk_fld (by decide) (by decide) (by decide) _ _,
      getFk_setFk_self _ _ _ _ _ (by decide)]; exact Nat.mod_mod _ _
  split
  · unfold barExamine
    exact ⟨by rw [getFk_barRelease _ _ _ _ _ (by decide) (by decide), e1], by rw [getFk_barRelease _ _ _ _ _ (by decide) (by decide), e2],
      by rw [getFk_barRelease _ _ _ _ _ (by decide) (by decide), e3]⟩
  · split
    · exact ⟨by rw [getFk_abandonObj _ _ _ _ _ _ (by decide) (by decide) (by decide), e1], by rw [getFk_abandonObj _ _ _ _ _ _ (by decide) (by decide) (by decide), e2],
        by rw [getFk_abandonObj _ _ _ _ _ _ (by decide) (by decide) (by decide), e3]⟩
    · exact ⟨by rw [getFk_bumpEpoch _ _ _ _ _ (by decide) (by decide), getFk_abandonObj _ _ _ _ _ _ (by decide) (by decide) (by decide), e1],
        by rw [getFk_bumpEpoch _ _ _ _ _ (by decide) (by decide), getFk_abandonObj _ _ _ _ _ _ (by decide) (by decide) (by decide), e2],
        by rw [getFk_bumpEpoch _ _ _ _ _ (by decide) (by decide), getFk_abandonObj _ _ _ _ _ _ (by decide) (by decide) (by decide), e3]⟩

/-- A write of DBG_SET that passes its gate on an unlocked module sets its object. -/
theorem dbgSet_passes {r : Requester} {a v i : Nat} {s : State} (h1 : a % 4 = 0) (h2 : target s r a = some (6, i, 0x618)) (h3 : gate s r 6 i 0x618 = .pass)
    (h4 : unlocked s = true) : dbgSet r a v s = dbgSetObj v i s := by
  unfold dbgSet guarded
  rw [if_pos h1, h2]
  dsimp only
  rw [h3]
  dsimp only
  rw [if_pos ⟨rfl, rfl, h4⟩]

theorem dbgSet_obj (i k v : Nat) (s : State) : objOf (setEvt SYNC_EV_DBG_SET i (incr SYNC_DBG_SET_CNT i (modObj k (fun o => { o with count := v, ovf := false }) s))) k =
    { objOf s k with count := v, ovf := false } := by
  have e : objOf (setEvt SYNC_EV_DBG_SET i (incr SYNC_DBG_SET_CNT i (modObj k (fun o => { o with count := v, ovf := false }) s))) k =
      objOf (modObj k (fun o => { o with count := v, ovf := false }) s) k := by
    unfold objOf
    rw [setEvt_objs]
    rfl
  rw [e, objOf_modObj_self]

theorem dbgSet_effect (r : Requester) (a v : Nat) (i : Nat) (s : State) (h1 : a % 4 = 0) (h2 : target s r a = some (6, i, 0x618)) (h3 : gate s r 6 i 0x618 = .pass) (h4 : unlocked s = true) (h5 : bits v 16 1 = 0) (h6 : i ≠ 4) (h7 : ∀ w ∈ (objOf s (objKey i 0 (bits v 17 12))).waiters.head?, bits v 0 16 < w.need) :
    (objOf (dbgSet r a v s) (objKey i 0 (bits v 17 12))) = { objOf s (objKey i 0 (bits v 17 12)) with count := bits v 0 16, ovf := false } ∧ (dbgSet r a v s).releases = s.releases ∧ getF (dbgSet r a v s) SYNC_DBG_SET_CNT i = (getF s SYNC_DBG_SET_CNT i + 1) % 2 ^ 32 ∧ evtSet (dbgSet r a v s) SYNC_EV_DBG_SET i = true := by
  rw [dbgSet_passes h1 h2 h3 h4]
  unfold dbgSetObj flagExamine
  simp only [h5, if_true, h6, if_false]
  generalize hx : incr SYNC_DBG_SET_CNT i _ = x
  have ec : objOf (setEvt SYNC_EV_DBG_SET i x) (objKey i 0 (bits v 17 12)) = { objOf s (objKey i 0 (bits v 17 12)) with count := bits v 0 16, ovf := false } := by
    rw [← hx]; exact dbgSet_obj ..
  have e : ∀ n, flagRelease i (objKey i 0 (bits v 17 12)) n (setEvt SYNC_EV_DBG_SET i x) = setEvt SYNC_EV_DBG_SET i x := fun n => by
    cases hw : (objOf s (objKey i 0 (bits v 17 12))).waiters with
    | nil => exact flagRelease_no_waiters _ _ _ _ (by rw [ec]; exact hw)
    | cons w l => exact flagRelease_first (by rw [ec]; exact hw) (by rw [ec]; exact h7 w (by rw [hw]; rfl))
  rw [e]
  refine ⟨ec, by rw [setEvt_releases, ← hx]; rfl, ?_, evtSet_setEvt (by decide) _ _⟩
  rw [getF_setEvt_apart (by decide), ← hx, getF_incr_self _ _ _ (by decide)]
  rfl

theorem dbgSetReleases_effect (r : Requester) (a v : Nat) (i : Nat) (w : Waiter) (s : State) (h1 : a % 4 = 0) (h2 : target s r a = some (6, i, 0x618)) (h3 : gate s r 6 i 0x618 = .pass) (h4 : unlocked s = true) (h5 : bits v 16 1 = 0) (h6 : i ≠ 4) (h7 : (objOf s (objKey i 0 (bits v 17 12))).waiters = [w]) (h8 : w.need ≤ bits v 0 16) :
    (objOf (dbgSet r a v s) (objKey i 0 (bits v 17 12))).waiters = [] ∧ (objOf (dbgSet r a v s) (objKey i 0 (bits v 17 12))).count = (if w.consume then bits v 0 16 - w.need else bits v 0 16) ∧ (dbgSet r a v s).releases = s.releases ++ [⟨w.party, .ok⟩] := by
  rw [dbgSet_passes h1 h2 h3 h4]
  unfold dbgSetObj flagExamine
  simp only [h5, if_true, h6, if_false]
  generalize hx : incr SYNC_DBG_SET_CNT i _ = x
  have ec : objOf (setEvt SYNC_EV_DBG_SET i x) (objKey i 0 (bits v 17 12)) = { objOf s (objKey i 0 (bits v 17 12)) with count := bits v 0 16, ovf := false } := by
    rw [← hx]; exact dbgSet_obj ..
  have er : (setEvt SYNC_EV_DBG_SET i x).releases = s.releases := by rw [setEvt_releases, ← hx]; rfl
  generalize setEvt SYNC_EV_DBG_SET i x = y at *
  rw [ec, h7]
  show _ = _ ∧ _ = _ ∧ (flagRelease _ _ 1 y).releases = _
  simp only [List.length_cons, List.length_nil, flagRelease, ec, h7, if_pos h8]
  generalize hk : objKey i 0 (bits v 17 12) = k at *
  have e : ∀ p q z, objOf (sendRelease p q z) k = objOf z k := fun _ _ _ => rfl
  have e' : ∀ f j z, objOf (incr f j z) k = objOf z k := fun _ _ _ => rfl
  refine ⟨by rw [e, e', objOf_modObj_self], by rw [e, e', objOf_modObj_self, ec], ?_⟩
  show y.releases ++ _ = _
  rw [er]

theorem releases_sendReleases (st : RelStatus) : ∀ (ps : List Party) (s : State),
    (sendReleases st ps s).releases = s.releases ++ ps.map fun p => ⟨p, st⟩
  | [], s => (List.append_nil _).symm
  | p :: ps, s => by
    rw [sendReleases, releases_sendReleases st ps, List.map_cons]
    exact List.append_assoc s.releases [⟨p, st⟩] _

/-- An abandoned object is empty, and no other object moves. -/
theorem objOf_abandonObj (home k j : Nat) (s : State) : objOf (abandonObj home k s) j = if j = k then {} else objOf s j := by
  have e : ∀ ps x, (sendReleases .abandoned ps x).objs = x.objs := fun ps x => by
    induction ps generalizing x with
    | nil => rfl
    | cons p ps ih => rw [sendReleases, ih]; rfl
  have o : (abandonObj home k s).objs = s.objs.del k := by
    unfold abandonObj
    dsimp only
    split
    · show Store.del _ _ = _; rw [e]; rfl
    · rw [setEvt_objs]; show Store.del _ _ = _; rw [e]; rfl
  unfold objOf Store.get
  rw [o]
  split
  · next h => rw [h, Store.find_del_self]; rfl
  · next h => rw [Store.find_del_ne (Ne.symm h)]

/-- Its waiters get ABANDONED, in their order. -/
theorem releases_abandonObj (home k : Nat) (s : State) :
    (abandonObj home k s).releases = s.releases ++ (objWaiters (objOf s k)).map fun p => ⟨p, .abandoned⟩ := by
  unfold abandonObj
  dsimp only
  split
  · show (sendReleases _ _ _).releases = _; rw [releases_sendReleases]; rfl
  · rw [setEvt_releases]; show (sendReleases _ _ _).releases = _; rw [releases_sendReleases]; rfl

theorem objOf_abandonKeys (j : Nat) : ∀ (ks : List Nat) (s : State), objOf (abandonKeys ks s) j = if j ∈ ks then {} else objOf s j
  | [], _ => by simp [abandonKeys]
  | k :: ks, s => by
    rw [abandonKeys, objOf_abandonKeys j ks, objOf_abandonObj]
    by_cases h : j ∈ ks
    · rw [if_pos h, if_pos (List.mem_cons_of_mem _ h)]
    · rw [if_neg h]
      by_cases e : j = k
      · rw [if_pos e, if_pos (by rw [e]; exact List.mem_cons_self)]
      · rw [if_neg e, if_neg (fun m => (List.mem_cons.1 m).elim e h)]

theorem abandonKeys_tells {k : Nat} {p : Party} : ∀ (ks : List Nat) (s : State),
    (⟨p, .abandoned⟩ ∈ s.releases ∨ k ∈ ks ∧ p ∈ objWaiters (objOf s k)) → ⟨p, .abandoned⟩ ∈ (abandonKeys ks s).releases
  | [], _, h => h.elim id fun m => absurd m.1 List.not_mem_nil
  | j :: ks, s, h => by
    refine abandonKeys_tells (k := k) ks (abandonObj (j / 8192) j s) ?_
    rw [releases_abandonObj, objOf_abandonObj]
    rcases h with h | ⟨m, w⟩
    · exact .inl (List.mem_append_left _ h)
    · by_cases e : k = j
      · exact .inl (List.mem_append_right _ (List.mem_map.2 ⟨p, by rw [← e]; exact w, rfl⟩))
      · rw [if_neg e]
        exact .inr ⟨(List.mem_cons.1 m).resolve_left e, w⟩

/-- An object that the table does not list is empty. -/
theorem objOf_unlisted {s : State} {k : Nat} (h : k ∉ s.objs.map (·.1)) : objOf s k = {} := by
  unfold objOf Store.get
  have : ∀ st : Store SyncObj, k ∉ st.map (·.1) → Store.find k st = none := fun st => by
    induction st with
    | nil => intro _; rfl
    | cons e r ih =>
      intro m
      rw [Store.find_cons, if_neg (fun x => m (by rw [List.map_cons, x]; exact List.mem_cons_self)), ih (fun x => m (List.mem_cons_of_mem _ x))]
  rw [this _ h]
  rfl

theorem objOf_bumpEpoch (c k : Nat) (s : State) : objOf (bumpEpoch c s) k = objOf s k := rfl
theorem releases_bumpEpoch (c : Nat) (s : State) : (bumpEpoch c s).releases = s.releases := rfl

theorem flagOwnChange_effect (r : Requester) (a v : Nat) (i o : Nat) (s : State) (h1 : a % 4 = 0) (h2 : target s r a = some (6, i, o)) (h3 : gate s r 6 i o = .pass) (h4 : i < 4) (h5 : 0x100 ≤ o) (h6 : o < 0x200) (h7 : ¬ (getFk s SYNC_FLAG_OWN_OWNER i ((o - 0x100) / 4) = bits v 0 4 ∧ getFk s SYNC_FLAG_OWN_VALID i ((o - 0x100) / 4) = bits v 4 1)) :
    (∀ n < 4096, objOf (flagOwnWrite r a v s) (objKey i 0 n) = if n / 64 = (o - 0x100) / 4 then {} else objOf s (objKey i 0 n)) ∧ (∀ n < 4096, n / 64 = (o - 0x100) / 4 → ∀ p ∈ objWaiters (objOf s (objKey i 0 n)), ⟨p, .abandoned⟩ ∈ (flagOwnWrite r a v s).releases) := by
  unfold flagOwnWrite guarded
  rw [if_pos h1, h2]
  dsimp only
  rw [h3]
  dsimp only
  rw [if_pos rfl]
  unfold flagOwnSet
  rw [if_pos ⟨h4, h5, h6⟩]
  dsimp only
  generalize (o - 0x100) / 4 = g at *
  rw [if_neg h7]
  generalize hx : setFk SYNC_FLAG_OWN_OWNER i g (bits v 0 4) (setFk SYNC_FLAG_OWN_VALID i g (bits v 4 1) s) = x
  have xo : ∀ k, objOf x k = objOf s k := fun k => by rw [← hx]; rfl
  have kq : ∀ n < 4096, objKey i 0 n / 4096 = i * 2 ∧ objKey i 0 n % 4096 = n := fun n h => by unfold objKey; omega
  have O : ∀ n < 4096, objOf (abandonKeys (groupKeys s i g) x) (objKey i 0 n) = if n / 64 = g then {} else objOf s (objKey i 0 n) := fun n hn => by
    rw [objOf_abandonKeys, xo]
    have q := kq n hn
    by_cases m : objKey i 0 n ∈ s.objs.map (·.1)
    · by_cases e : n / 64 = g
      · rw [if_pos e, if_pos (by unfold groupKeys; rw [List.mem_filter]; exact ⟨m, by simp [q, e]⟩)]
      · rw [if_neg e, if_neg (by unfold groupKeys; rw [List.mem_filter]; simp [q, e])]
    · rw [objOf_unlisted m]; split <;> split <;> rfl
  have R : ∀ n < 4096, n / 64 = g → ∀ p ∈ objWaiters (objOf s (objKey i 0 n)), ⟨p, .abandoned⟩ ∈ (abandonKeys (groupKeys s i g) x).releases := fun n hn e p hp => by
    have q := kq n hn
    refine abandonKeys_tells (k := objKey i 0 n) _ _ (.inr ⟨?_, by rw [xo]; exact hp⟩)
    by_cases m : objKey i 0 n ∈ s.objs.map (·.1)
    · unfold groupKeys; rw [List.mem_filter]; exact ⟨m, by simp [q, e]⟩
    · rw [objOf_unlisted m] at hp; exact absurd hp List.not_mem_nil
  split
  · exact ⟨O, R⟩
  · exact ⟨fun n hn => by rw [objOf_bumpEpoch, O n hn], fun n hn e p hp => by rw [releases_bumpEpoch]; exact R n hn e p hp⟩

theorem barCfgChange_effect (r : Requester) (a v : Nat) (i o : Nat) (s : State) (h1 : a % 4 = 0) (h2 : target s r a = some (6, i, o)) (h3 : gate s r 6 i o = .pass) (h4 : 0x200 ≤ o) (h5 : o < 0x600) (h6 : bits v 0 16 ≠ 0) (h7 : ¬(i = 4 ∧ 64 ≤ (o - 0x200) / 4)) (h8 : ¬ (getFk s SYNC_BAR_CFG_OWNER i ((o - 0x200) / 4) = bits v 16 4 ∧ getFk s SYNC_BAR_CFG_VALID i ((o - 0x200) / 4) = bits v 20 1)) :
    objOf (barCfgWrite r a v s) (objKey i 1 ((o - 0x200) / 4)) = {} ∧ (barCfgWrite r a v s).releases = s.releases ++ (objWaiters (objOf s (objKey i 1 ((o - 0x200) / 4)))).map (fun p => ⟨p, .abandoned⟩) := by
  unfold barCfgWrite guarded
  rw [if_pos h1, h2]
  dsimp only
  rw [h3]
  dsimp only
  rw [if_pos rfl]
  unfold barCfgSet
  rw [if_pos ⟨h4, h5, h6⟩]
  dsimp only
  rw [if_neg h7, if_neg h8]
  generalize (o - 0x200) / 4 = g at *
  generalize hx : setFk SYNC_BAR_CFG_N i g (bits v 0 16) _ = x
  have e : objOf (abandonObj i (objKey i 1 g) x) (objKey i 1 g) = {} := by rw [objOf_abandonObj, if_pos rfl]
  have f : (abandonObj i (objKey i 1 g) x).releases = s.releases ++ (objWaiters (objOf s (objKey i 1 g))).map (fun p => ⟨p, .abandoned⟩) := by
    rw [releases_abandonObj, ← hx]; rfl
  split
  · exact ⟨e, f⟩
  · exact ⟨by rw [objOf_bumpEpoch, e], by rw [releases_bumpEpoch, f]⟩

theorem dbgSetBarrier_effect (r : Requester) (a v : Nat) (i : Nat) (s : State) (h1 : a % 4 = 0) (h2 : target s r a = some (6, i, 0x618)) (h3 : gate s r 6 i 0x618 = .pass) (h4 : unlocked s = true) (h5 : bits v 16 1 = 1) (h6 : bits v 17 12 < 256) (h7 : ¬(i = 4 ∧ 64 ≤ bits v 17 12)) (h8 : bits v 0 16 < getFk s SYNC_BAR_CFG_N i (bits v 17 12)) :
    (objOf (dbgSet r a v s) (objKey i 1 (bits v 17 12))).count = bits v 0 16 ∧ (objOf (dbgSet r a v s) (objKey i 1 (bits v 17 12))).ovf = false ∧ (dbgSet r a v s).releases = s.releases ∧ getF (dbgSet r a v s) SYNC_DBG_SET_CNT i = (getF s SYNC_DBG_SET_CNT i + 1) % 2 ^ 32 ∧ evtSet (dbgSet r a v s) SYNC_EV_DBG_SET i = true := by
  unfold dbgSet guarded
  rw [if_pos h1, h2]
  dsimp only
  rw [h3]
  dsimp only
  rw [if_pos ⟨rfl, rfl, h4⟩]
  unfold dbgSetObj barExamine
  simp only [h5, if_neg (show ¬ (1 = 0) by decide)]
  rw [if_neg (by omega)]
  generalize hx : incr SYNC_DBG_SET_CNT i _ = x
  have ec : objOf (setEvt SYNC_EV_DBG_SET i x) (objKey i 1 (bits v 17 12)) = { objOf s (objKey i 1 (bits v 17 12)) with count := bits v 0 16, ovf := false } := by
    rw [← hx]; exact dbgSet_obj ..
  have eN : getFk (setEvt SYNC_EV_DBG_SET i x) SYNC_BAR_CFG_N i (bits v 17 12) = getFk s SYNC_BAR_CFG_N i (bits v 17 12) := by
    rw [getFk_setEvt_fld (e := SYNC_EV_DBG_SET) (by decide) (by decide) (by decide), ← hx]
    exact getFk_setFk_fld (f := SYNC_DBG_SET_CNT) (by decide) (by decide) (by decide) _ _
  rw [barRelease_below (by rw [eN, ec]; exact h8)]
  refine ⟨by rw [ec], by rw [ec], by rw [setEvt_releases, ← hx]; rfl, ?_, evtSet_setEvt (by decide) _ _⟩
  rw [getF_setEvt_apart (by decide), ← hx, getF_incr_self _ _ _ (by decide)]
  rfl

theorem dbgSetBarrierReleases_effect (r : Requester) (a v : Nat) (i : Nat) (s : State) (h1 : a % 4 = 0) (h2 : target s r a = some (6, i, 0x618)) (h3 : gate s r 6 i 0x618 = .pass) (h4 : unlocked s = true) (h5 : bits v 16 1 = 1) (h6 : bits v 17 12 < 256) (h7 : ¬(i = 4 ∧ 64 ≤ bits v 17 12)) (h8 : 0 < getFk s SYNC_BAR_CFG_N i (bits v 17 12)) (h9 : getFk s SYNC_BAR_CFG_N i (bits v 17 12) ≤ bits v 0 16) (h10 : bits v 0 16 < 2 * getFk s SYNC_BAR_CFG_N i (bits v 17 12)) :
    (objOf (dbgSet r a v s) (objKey i 1 (bits v 17 12))).count = bits v 0 16 - getFk s SYNC_BAR_CFG_N i (bits v 17 12) ∧ (objOf (dbgSet r a v s) (objKey i 1 (bits v 17 12))).gen = ((objOf s (objKey i 1 (bits v 17 12))).gen + 1) % 256 ∧ getF (dbgSet r a v s) SYNC_BAR_RELEASE i = (getF s SYNC_BAR_RELEASE i + 1) % 2 ^ 32 := by
  rw [dbgSet_passes h1 h2 h3 h4]
  unfold dbgSetObj barExamine
  simp only [h5, if_neg (show ¬ (1 = 0) by decide)]
  rw [if_neg (by omega)]
  generalize hx : incr SYNC_DBG_SET_CNT i _ = x
  have ec : objOf (setEvt SYNC_EV_DBG_SET i x) (objKey i 1 (bits v 17 12)) = { objOf s (objKey i 1 (bits v 17 12)) with count := bits v 0 16, ovf := false } := by
    rw [← hx]; exact dbgSet_obj ..
  have eN : getFk (setEvt SYNC_EV_DBG_SET i x) SYNC_BAR_CFG_N i (bits v 17 12) = getFk s SYNC_BAR_CFG_N i (bits v 17 12) := by
    rw [getFk_setEvt_fld (e := SYNC_EV_DBG_SET) (by decide) (by decide) (by decide), ← hx]
    exact getFk_setFk_fld (f := SYNC_DBG_SET_CNT) (by decide) (by decide) (by decide) _ _
  have eR : getF (setEvt SYNC_EV_DBG_SET i x) SYNC_BAR_RELEASE i = getF s SYNC_BAR_RELEASE i := by
    rw [getF_setEvt_apart (by decide), ← hx, getF_incr_apart (by decide)]; rfl
  generalize setEvt SYNC_EV_DBG_SET i x = y at *
  generalize hk : objKey i 1 (bits v 17 12) = k at *
  rw [ec]
  obtain ⟨m, hm⟩ : ∃ m, bits v 0 16 = m + 1 := ⟨_, (Nat.succ_pred_eq_of_pos (by omega)).symm⟩
  dsimp only
  rw [hm]
  unfold barRelease
  dsimp only
  rw [hk, if_pos (by rw [ec, eN]; dsimp only; omega)]
  generalize hy : sendReleases _ _ _ = z
  have zc : (objOf z k).count = bits v 0 16 - getFk s SYNC_BAR_CFG_N i (bits v 17 12) := by
    subst hy; rw [objOf_sendReleases]; simp [ec, eN]
  have zg : (objOf z k).gen = ((objOf s k).gen + 1) % 256 := by
    subst hy; rw [objOf_sendReleases]; simp [ec]
  have zN : getFk z SYNC_BAR_CFG_N i (bits v 17 12) = getFk s SYNC_BAR_CFG_N i (bits v 17 12) := by
    subst hy; rw [getFk_sendReleases, ← eN]
    exact getFk_setFk_fld (f := SYNC_BAR_RELEASE) (by decide) (by decide) (by decide) _ _
  have zR : getF z SYNC_BAR_RELEASE i = (getF s SYNC_BAR_RELEASE i + 1) % 2 ^ 32 := by
    subst hy; unfold getF; rw [getFk_sendReleases]
    exact (getF_incr_self SYNC_BAR_RELEASE i _ (by decide)).trans (congrArg (fun z => (z + 1) % 2 ^ 32) eR)
  rw [barRelease_below (by rw [hk, zc, zN]; omega)]
  rw [← hm]
  exact ⟨zc, zg, zR⟩

end Sys2Proof.Machine
end

