-- ==== Sys2Proof/Laws/EffectsColl.lean ====
section
/-! SUPPORT. What the commands do: the collective engine. -/

namespace Sys2Proof.Machine

set_option exponentiation.threshold 600
set_option linter.unusedSimpArgs false

theorem ctxOf_kept {m : Nat} {s t : State} (K : Keeps m s t) (h : m.testBit 20 = false) (c : Nat) : ctxOf t c = ctxOf s c := by
  unfold ctxOf; rw [K.ctxs h]

theorem sent_kept {m : Nat} {s t : State} (K : Keeps m s t) (h : m.testBit 27 = false) : t.sent = s.sent := by
  unfold State.sent; rw [K.sendq h]

theorem coll_modColl (c : Nat) (f : Coll → Coll) (s : State) : (ctxOf (modColl c f s) c).coll = f (ctxOf s c).coll := by
  unfold modColl; rw [ctxOf_modCtx_self]

theorem recvOf_congr {s t : State} {c : Nat} (n cid : Nat) (h : (ctxOf t c).coll.recvs = (ctxOf s c).coll.recvs) : recvOf t c n cid = recvOf s c n cid := by
  unfold recvOf; rw [h]

theorem recvOf_key {s : State} {c n cid : Nat} {r : Recv} (h : recvOf s c n cid = some r) : r.step = n ∧ r.cid = cid := by
  have := List.find?_some h
  simpa using this

/-- A RECV that is changed in place. -/
theorem recvOf_modRecv {s : State} {c n cid : Nat} {f : Recv → Recv} {r : Recv} (h : recvOf s c n cid = some r) (hf : ∀ x, (f x).step = x.step ∧ (f x).cid = x.cid) :
    recvOf (modRecv c n cid f s) c n cid = some (f r) := by
  unfold recvOf modRecv at *
  rw [coll_modColl]
  dsimp only
  rw [find_map_same (fun r : Recv => r.step == n && r.cid == cid) _ (fun x => by split <;> simp [hf x]) (ctxOf s c).coll.recvs, h]
  have := recvOf_key (s := s) h
  simp [this]

theorem recvOf_modXfer {s : State} {c n cid i : Nat} {f : Xfer → Xfer} {r : Recv} (h : recvOf s c n cid = some r) :
    recvOf (modXfer c n cid i f s) c n cid = some { r with xfers := r.xfers.map fun x => if x.idx = i then f x else x } :=
  recvOf_modRecv h (fun _ => ⟨rfl, rfl⟩)

theorem collBar_coll (c : Nat) (d : List Byte) (s : State) (k : Nat) : ctxOf (collBar c d s) k = ctxOf s k :=
  ctxOf_kept (collBar_keeps (Has.refl _) c d (Keeps.refl _ s)) (by decide) k

/-- What the end of a RECV leaves of its context's collective work. -/
theorem recvEnd_coll {s : State} {c n cid : Nat} {r : Recv} (h : recvOf s c n cid = some r) (hf : r.fin = false) :
    (ctxOf (recvEnd c n cid s) c).coll.recvs = (if r.xfers.all (fun x => x.closed || x.absent) then
      (ctxOf s c).coll.recvs.map (fun q => if q.step = n ∧ q.cid = cid then { q with fin := true } else q) else (ctxOf s c).coll.recvs) ∧
    (ctxOf (recvEnd c n cid s) c).coll.posts = (ctxOf s c).coll.posts ∧ (ctxOf (recvEnd c n cid s) c).coll.early = (ctxOf s c).coll.early := by
  unfold recvEnd
  rw [h]
  dsimp only
  rw [hf]
  by_cases ha : r.xfers.all (fun x => x.closed || x.absent) = true
  · rw [ha, if_pos (by decide), if_pos rfl, collBar_coll]
    split
    · rw [coll_modColl]
      unfold modRecv
      rw [coll_modColl]
      exact ⟨rfl, rfl, rfl⟩
    · unfold modRecv
      rw [coll_modColl]
      exact ⟨rfl, rfl, rfl⟩
  · rw [if_neg (by simp [ha]), if_neg ha]
    exact ⟨rfl, rfl, rfl⟩

theorem recvOf_recvEnd {s : State} {c n cid : Nat} {r : Recv} (h : recvOf s c n cid = some r) : ∃ p, recvOf (recvEnd c n cid s) c n cid = some p ∧ p.xfers = r.xfers := by
  unfold recvEnd
  rw [h]
  dsimp only
  split
  · refine ⟨{ r with fin := true }, ?_, rfl⟩
    have hb : ∀ z, recvOf (collBar c r.desc z) c n cid = recvOf z c n cid := fun z => recvOf_congr n cid (by rw [collBar_coll])
    have e := recvOf_modRecv (f := fun r => { r with fin := true }) h (fun _ => ⟨rfl, rfl⟩)
    rw [hb]
    split
    · refine Eq.trans (recvOf_congr n cid ?_) e
      rw [coll_modColl]
    · exact e
  · exact ⟨r, h, rfl⟩

theorem collStep_step {s : State} {c n : Nat} {st : Step} (h : collStep s c n = some st) : st.step = n := by
  unfold collStep stepOf at h
  split at h
  · next x hx => cases h; simpa using List.find?_some hx
  · simpa using List.find?_some h

theorem matchEarly_none {c : Nat} {s : State} (h : (ctxOf s c).coll.early = []) :
    (ctxOf (matchEarly c s) c).coll.recvs = (ctxOf s c).coll.recvs ∧ (ctxOf (matchEarly c s) c).coll.posts = (ctxOf s c).coll.posts := by
  unfold matchEarly
  dsimp only
  rw [h, List.filter_nil]
  show (ctxOf (modColl c _ s) c).coll.recvs = _ ∧ (ctxOf (modColl c _ s) c).coll.posts = _
  rw [coll_modColl]
  exact ⟨rfl, rfl⟩

theorem map_off {α : Type} (p : α → Prop) [DecidablePred p] (f : α → α) : ∀ l : List α, (∀ x ∈ l, ¬ p x) → (l.map fun x => if p x then f x else x) = l
  | [], _ => rfl
  | x :: l, h => by
    rw [List.map_cons, if_neg (h x (List.mem_cons_self ..)), map_off p f l (fun y hy => h y (List.mem_cons_of_mem _ hy))]

theorem recv_effect (c flag k n : Nat) (d : List Byte) (rest : List (Nat × List Byte)) (st : Step) (s : State) (h1 : isAwake s = true) (h2 : isF s COLL_CTRL_EN 0 = true) (h3 : (ctxOf s c).coll.halted = false) (h4 : collPaused s c = false) (h5 : (ctxOf s c).coll.posts = (n, d) :: rest) (h6 : collStep s c n = some st) (h7 : dop d = 0x62) (h8 : collCode s c st d = 0) (h9 : (ctxOf s c).coll.early = []) (h10 : lostInStep s st (getF s COLL_DEGRADE_LOST_POS 0) = false) :
    (ctxOf (awake s (recvPost c flag k s)) c).coll.posts = rest ∧ (ctxOf (awake s (recvPost c flag k s)) c).coll.recvs = (ctxOf s c).coll.recvs ++ [{ newRecv s c st d flag k with fin := (newRecv s c st d flag k).xfers.all fun x => x.closed || x.absent }] := by
  rw [awake_eq _ h1]
  unfold recvPost
  rw [h5]
  dsimp only
  rw [h2, h3, h4, if_neg (by decide), h6]
  dsimp only
  rw [if_neg (by simp [h8])]
  rw [show lossNew c st (newRecv s c st d flag k) (postRecv c rest (newRecv s c st d flag k) s) = postRecv c rest (newRecv s c st d flag k) s by
    unfold lossNew
    dsimp only
    rw [show lostInStep (postRecv c rest (newRecv s c st d flag k) s) st (getF (postRecv c rest (newRecv s c st d flag k) s) COLL_DEGRADE_LOST_POS 0) = lostInStep s st (getF s COLL_DEGRADE_LOST_POS 0) from rfl, h10, if_neg (by decide)]]
  unfold postRecv
  have hn := collStep_step h6
  have hno : recvOf s c n (kCid d) = none := by
    unfold collCode at h8
    rw [h7, hn] at h8
    cases hr : recvOf s c n (kCid d) with
    | none => rfl
    | some r => rw [hr] at h8; simp at h8; repeat' (split at h8 <;> try (exact absurd h8 (by decide)))
  have hc := coll_modColl c (fun x => { x with posts := rest, recvs := x.recvs ++ [newRecv s c st d flag k] }) s
  have hnk : (newRecv s c st d flag k).step = n ∧ (newRecv s c st d flag k).cid = kCid d ∧ (newRecv s c st d flag k).fin = false := ⟨hn, rfl, rfl⟩
  have hr : recvOf (modColl c (fun x => { x with posts := rest, recvs := x.recvs ++ [newRecv s c st d flag k] }) s) c n (kCid d) = some (newRecv s c st d flag k) := by
    unfold recvOf at hno ⊢
    rw [hc]
    dsimp only
    rw [List.find?_append, hno]
    simp [hnk]
  obtain ⟨e1, e2, e3⟩ := recvEnd_coll hr hnk.2.2
  rw [hc] at e1 e2 e3
  obtain ⟨m1, m2⟩ := matchEarly_none (e3.trans h9)
  refine ⟨m2.trans e2, m1.trans (e1.trans ?_)⟩
  have off : ∀ x ∈ (ctxOf s c).coll.recvs, ¬ (x.step = n ∧ x.cid = kCid d) := fun x hx hk => by
    have := List.find?_eq_none.1 hno x hx
    simp [hk] at this
  split
  · next ha =>
    rw [List.map_append, map_off _ _ _ off, List.map_cons, List.map_nil, if_pos ⟨hnk.1, hnk.2.1⟩, ha]
  · next ha =>
    simp only [Bool.not_eq_true] at ha
    dsimp only
    rw [ha]
    rfl

/-- A halted list, and the first fault in ERR_INFO. -/
theorem collHalt_does (c code : Nat) (s : State) :
    (ctxOf (collHalt c code s) c).coll = { (ctxOf s c).coll with halted := true } ∧ evtSet (collHalt c code s) COLL_EV_DESC_INVALID 0 = true ∧
      getF (collHalt c code s) COLL_ERR_INFO_CODE 0 = if getF s COLL_ERR_INFO_CODE 0 = 0 then code % 2 ^ COLL_ERR_INFO_CODE.w else getF s COLL_ERR_INFO_CODE 0 := by
  unfold collHalt
  dsimp only
  rw [coll_modColl, ctxOf_setEvt]
  refine ⟨?_, evtSet_setEvt (e := COLL_EV_DESC_INVALID) (by decide) 0 _, ?_⟩
  · split <;> rfl
  · show getF (setEvt _ _ _) _ _ = _
    rw [getF_setEvt_apart (by decide)]
    split
    · rw [getF_setF_self _ _ _ _ (by decide)]
    · rfl

theorem recvInvalid_effect (c flag k n : Nat) (d : List Byte) (rest : List (Nat × List Byte)) (st : Step) (s : State) (h1 : isAwake s = true) (h2 : isF s COLL_CTRL_EN 0 = true) (h3 : (ctxOf s c).coll.halted = false) (h4 : collPaused s c = false) (h5 : (ctxOf s c).coll.posts = (n, d) :: rest) (h6 : collStep s c n = some st) (h7 : collCode s c st d ≠ 0) :
    (ctxOf (awake s (recvPost c flag k s)) c).coll = { (ctxOf s c).coll with halted := true } ∧ evtSet (awake s (recvPost c flag k s)) COLL_EV_DESC_INVALID 0 = true ∧ getF (awake s (recvPost c flag k s)) COLL_ERR_INFO_CODE 0 = if getF s COLL_ERR_INFO_CODE 0 = 0 then collCode s c st d % 2 ^ COLL_ERR_INFO_CODE.w else getF s COLL_ERR_INFO_CODE 0 := by
  rw [awake_eq _ h1]
  unfold recvPost
  rw [h5]
  dsimp only
  rw [h2, h3, h4, if_neg (by decide), h6]
  dsimp only
  rw [if_pos h7]
  exact collHalt_does c _ s

/-- What a new SEND leaves of its context's collective work: one that nobody is to answer completes at once. -/
theorem sendEnd_new {c n cid : Nat} {rest : List (Nat × List Byte)} {x : Send} (w : State) (h1 : x.step = n) (h2 : x.cid = cid) (h3 : x.fin = false)
    (h : ∀ z ∈ (ctxOf w c).coll.sends, ¬ (z.step = n ∧ z.cid = cid)) :
    (ctxOf (sendEnd c n cid (modColl c (fun y => { y with list := rest, sends := y.sends ++ [x] }) w)) c).coll.list = rest ∧
    (sendEnd c n cid (modColl c (fun y => { y with list := rest, sends := y.sends ++ [x] }) w)).sent = w.sent ∧
    (ctxOf (sendEnd c n cid (modColl c (fun y => { y with list := rest, sends := y.sends ++ [x] }) w)) c).coll.sends =
      (if x.peers.all (·.2.2) then (ctxOf w c).coll.sends else (ctxOf w c).coll.sends ++ [x]) := by
  unfold sendEnd
  rw [coll_modColl]
  dsimp only
  have hno : (ctxOf w c).coll.sends.find? (fun z => z.step == n && z.cid == cid && !z.fin && z.peers.all (·.2.2)) = none := by
    rw [List.find?_eq_none]
    intro z hz
    intro hk
    simp only [Bool.and_eq_true, beq_iff_eq] at hk
    exact h z hz hk.1.1
  rw [List.find?_append, hno, Option.none_or, List.find?_cons]
  by_cases ha : x.peers.all (·.2.2) = true
  · rw [show (x.step == n && x.cid == cid && !x.fin && x.peers.all (·.2.2)) = true by simp [h1, h2, h3, ha], if_pos ha]
    dsimp only
    rw [collBar_coll, coll_modColl, coll_modColl]
    refine ⟨rfl, ?_, ?_⟩
    · rw [sent_kept (collBar_keeps (Has.refl _) c _ (Keeps.refl _ _)) (by decide)]; rfl
    · dsimp only
      rw [List.filter_append, List.filter_cons, if_neg (by simp), List.filter_nil, List.append_nil]
      refine List.filter_eq_self.2 fun z hz => decide_eq_true ?_
      intro e; subst e; exact h z hz ⟨h1, h2⟩
  · rw [show (x.step == n && x.cid == cid && !x.fin && x.peers.all (·.2.2)) = false by simp only [Bool.not_eq_true] at ha; rw [ha, Bool.and_false], if_neg ha]
    dsimp only [List.find?_nil]
    rw [coll_modColl]
    exact ⟨rfl, rfl, rfl⟩

theorem send_effect (c room k n : Nat) (enc : List PartEnc) (d : List Byte) (rest : List (Nat × List Byte)) (st : Step) (peers : List (Nat × Nat × Bool)) (all held free : List Nat) (w v : State) (s : State) (h1 : isAwake s = true) (h2 : collRuns s c = true) (h3 : collPaused s c = false) (h4 : bits (dw d 0) 4 4 ≠ 5) (h5 : (ctxOf s c).coll.list = (n, d) :: rest) (h6 : collStep s c n = some st) (h7 : collCode s c st d = 0) (h8 : sendOpen s c = none) (h9 : hubGranted s 536 c (sendKey n d) = true) (h10 : w = encodeParts (if kKind d = 0 then enc else []) (hubTake 536 c (sendKey n d) s)) (h11 : peers = sendPeers s st d k) (h12 : all = (if kRelease d then [] else allTurns d peers)) (h13 : held = gatherHeld w c st d all) (h14 : free = all.filter (fun k => !held.contains k)) (h15 : sendTurns c d peers (free.take room) (if kRelease d then sendReleasesTo c d peers w else w) = some v) (h16 : (∀ x ∈ (ctxOf s c).coll.sends, ¬ (x.step = n ∧ x.cid = kCid d))) :
    (ctxOf (awake s (sendStart c room k enc s)) c).coll.list = rest ∧ (awake s (sendStart c room k enc s)).sent = v.sent ∧ (ctxOf (awake s (sendStart c room k enc s)) c).coll.sends = (if peers.all (·.2.2) then (ctxOf s c).coll.sends else (ctxOf s c).coll.sends ++ [{ step := n, cid := kCid d, desc := d, peers := peers, left := held ++ free.drop room }]) := by
  have hn := collStep_step h6
  have hw : ctxOf w c = ctxOf s c := by
    rw [h10]
    exact (ctxOf_kept (encodeParts_keeps (Has.refl _) _ (Keeps.refl _ _)) (by decide) c).trans (ctxOf_kept (hubTake_keeps (Has.refl _) _ _ _ (Keeps.refl _ s)) (by decide) c)
  have hz : ctxOf (if kRelease d then sendReleasesTo c d peers w else w) c = ctxOf s c := by
    split
    · exact (ctxOf_kept (sendReleasesTo_keeps (Has.refl _) c d peers (Keeps.refl _ w)) (by decide) c).trans hw
    · exact hw
  have hv : ctxOf v c = ctxOf s c := (ctxOf_kept (sendTurns_keeps (Has.refl _) c d peers _ (Keeps.refl _ _) h15) (by decide) c).trans hz
  rw [awake_eq _ h1]
  unfold sendStart
  rw [h2, h3, if_neg (by decide), h8]
  dsimp only
  rw [h5]
  dsimp only
  rw [if_neg (by simp [h4]), h6]
  dsimp only
  rw [if_neg (by simp [h7]), h9, if_neg (by decide), ← h10, ← h11]
  unfold sendFirst
  dsimp only
  rw [← h12, ← h13, ← h14, h15]
  dsimp only
  rw [hn]
  obtain ⟨a1, a2, a3⟩ := sendEnd_new (c := c) (n := n) (cid := kCid d) (rest := rest) (x := { step := n, cid := kCid d, desc := d, peers := peers, left := held ++ free.drop room }) v rfl rfl rfl (by rw [hv]; exact h16)
  rw [hv] at a3
  exact ⟨a1, a2, a3⟩

theorem gatherBlockSend_effect (c n cid g : Nat) (st : Step) (x : Send) (now : List Nat) (v : State) (s : State) (h1 : isAwake s = true) (h2 : isF s COLL_CTRL_EN 0 = true) (h3 : collPaused s c = false) (h4 : collStep s c n = some st) (h5 : (ctxOf s c).coll.sends.find? (fun x => kKind x.desc == 1 && x.step == n && x.cid == cid && !x.left.isEmpty) = some x) (h6 : now = x.left.filter (fun k => relHolds s c x.desc && ((turnBlks s st x.desc k).isEmpty || (turnBlks s st x.desc k).any (fun b => b.gbi == g)) && (turnBlks s st x.desc k).all (gatherReady s x.desc))) (h7 : now ≠ []) (h8 : sendTurns c x.desc x.peers now s = some v) :
    (awake s (gatherBlockSend c n cid g s)).sent = v.sent ∧ (ctxOf (awake s (gatherBlockSend c n cid g s)) c).coll.sends = (ctxOf s c).coll.sends.map (fun w => if w = x then { x with left := x.left.filter fun k => !now.contains k } else w) := by
  rw [awake_eq _ h1]
  unfold gatherBlockSend
  rw [h4, h5]
  dsimp only
  rw [← h6, h2, h3, if_neg (by simp [h7]), h8]
  dsimp only
  rw [coll_modColl, ctxOf_kept (sendTurns_keeps (Has.refl _) c x.desc x.peers now (Keeps.refl _ s) h8) (by decide) c]
  exact ⟨rfl, rfl⟩

theorem turnEarly_effect (f : Frame) (r : List Frame) (s : State) (h1 : isAwake s = true) (h2 : collInbox s (fun t => decide (t < 0xFFFE)) = some (f, r)) (h3 : stepAbove s f.ctx (fStep f) = true) :
    (awake s (collTurnFrame s)).inbox = r ∧ (ctxOf (awake s (collTurnFrame s)) f.ctx).coll.early = (ctxOf s f.ctx).coll.early ++ [f] := by
  rw [awake_eq _ h1]
  unfold collTurnFrame
  rw [h2]
  dsimp only
  unfold turnFrame
  dsimp only
  rw [show stepAbove { s with inbox := r } f.ctx (fStep f) = stepAbove s f.ctx (fStep f) from rfl, h3, if_pos rfl]
  refine ⟨rfl, ?_⟩
  rw [coll_modColl]
  rfl

/-- Where the data of a frame goes does not depend on what a transfer keeps of it, nor on the inbox. -/
theorem placeData_mem (c : Nat) (q : Recv) (i t o : Nat) (bs : List Byte) (n cid k : Nat) (f : Xfer → Xfer) (r : List Frame) (s : State) :
    (placeData c q i t o bs (modXfer c n cid k f { s with inbox := r })).mem = (placeData c q i t o bs s).mem := by
  have K : Keeps 0x40001a000000000000000000000000000000000000000000000080000101800 { s with inbox := r } (modXfer c n cid k f { s with inbox := r }) := modXfer_keeps ((Has.refl _).sub rfl) c n cid k f (Keeps.refl _ _)
  have A : Alike s (modXfer c n cid k f { s with inbox := r }) := Alike.trans ((keeps_inbox (w := 0x10000000) (Has.refl _) r (Keeps.refl _ s)).alike (by decide)) (K.alike (by decide))
  have st : (stepOf (modXfer c n cid k f { s with inbox := r }) c q.step).isNone = (stepOf s c q.step).isNone := by
    unfold stepOf modXfer modRecv modColl
    rw [ctxOf_modCtx_self]
    rfl
  have G : ∀ (m : Nat) (z : State), (setEvt CLUSTER_EV_GATHER_REJ (kDest q.desc) (addF CLUSTER_GATHER_REJ (kDest q.desc) m z)).mem = z.mem := fun m z =>
    (setEvt_keeps (w := 0x2000000400000000000080000000000) (p := 1) ((Has.refl _).sub rfl) ((Has.refl _).sub rfl) _ _ rfl reg_pendFld1 (addF_keeps ((Has.refl _).sub rfl) _ _ _ reg_CLUSTER_GATHER_REJ (Keeps.refl _ z))).mem (by decide)
  have T : ∀ (m : Nat) (z : State), (tileSignal c q m z).mem = z.mem := fun m z => (tileSignal_keeps (Has.refl _) c q m (Keeps.refl _ z)).mem (by decide)
  unfold placeData
  dsimp only
  rw [st]
  split
  · exact A.mem
  · split
    · split
      · split
        · exact A.mem
        · rw [G, G]
          exact A.mem
      · rw [T, T]
        exact (A.memStore _ _ _).mem
    · exact (A.memStore _ _ _).mem

theorem turnPart_effect (f : Frame) (r : List Frame) (q : Recv) (x y : Xfer) (s : State) (h1 : isAwake s = true) (h2 : collInbox s (fun t => decide (t < 0xFFFE)) = some (f, r)) (h3 : stepAbove s f.ctx (fStep f) = false) (h4 : recvOf s f.ctx (fStep f) (fCid f) = some q) (h5 : kRelease q.desc = false) (h6 : fTurn f < kTurns q.desc) (h7 : (q.xfers.filter fun x => x.src == f.src).find? (fun x => !x.closed && (!x.absent || x.carry) && !turnDone q.desc x (fTurn f)) = some x) (h8 : x.carry = false) (h9 : y = { x with turns := x.turns.put [] (fTurn f) (x.turns.get [] (fTurn f) ++ f.payload) }) (h10 : xferFull q.desc y = false) :
    (awake s (collTurnFrame s)).inbox = r ∧ recvOf (awake s (collTurnFrame s)) f.ctx (fStep f) (fCid f) = some { q with xfers := q.xfers.map fun z => if z.idx = x.idx then { z with turns := y.turns } else z } ∧ (awake s (collTurnFrame s)).mem = (placeData f.ctx q x.idx (fTurn f) (x.turns.get [] (fTurn f)).length f.payload s).mem := by
  rw [awake_eq _ h1]
  unfold collTurnFrame
  rw [h2]
  dsimp only
  unfold turnFrame
  dsimp only
  rw [show stepAbove { s with inbox := r } f.ctx (fStep f) = stepAbove s f.ctx (fStep f) from rfl, h3, if_neg (by decide),
    show recvOf { s with inbox := r } f.ctx (fStep f) (fCid f) = recvOf s f.ctx (fStep f) (fCid f) from rfl, h4]
  dsimp only
  rw [if_neg (by simp only [h5]; simp; omega), h7]
  dsimp only
  unfold takeTurn
  dsimp only
  have hT : x.turns.put [] (fTurn f) (x.turns.get [] (fTurn f) ++ f.payload) = y.turns := by rw [h9]
  rw [if_neg (by simp [h8]), ← h9, hT, h8, if_neg (show ¬ (false = true) by decide), h10, if_neg (show ¬ (false = true) by decide)]
  obtain ⟨k1, k2⟩ := recvOf_key h4
  have hx := recvOf_modXfer (s := { s with inbox := r }) (i := x.idx) (f := fun z => { z with turns := y.turns }) (show recvOf { s with inbox := r } f.ctx (fStep f) (fCid f) = some q from h4)
  rw [← k1, ← k2] at hx ⊢
  have K := fun (o : Nat) (z : State) => placeData_keeps (Has.refl _) f.ctx q x.idx (fTurn f) o f.payload (Keeps.refl _ z)
  refine ⟨?_, ?_, ?_⟩
  · rw [(K _ _).inbox (by decide)]; rfl
  · refine (recvOf_congr _ _ (by rw [ctxOf_kept (K _ _) (by decide)])).trans hx
  · exact placeData_mem ..

/-- A transfer that closes. -/
theorem closeXfer_does {c : Nat} {r q : Recv} {x : Xfer} {s : State} (h : recvOf s c r.step r.cid = some q) :
    getF (closeXfer c r x s) COLL_XFER_DONE 0 = (getF s COLL_XFER_DONE 0 + 1) % 2 ^ 32 ∧
    (∃ p, recvOf (closeXfer c r x s) c r.step r.cid = some p ∧ ∀ z ∈ p.xfers, z.idx = x.idx → ∃ w ∈ q.xfers, z.closed = true ∧ z.done = (if collPaused s c then 1 else 2) ∧ z.turns = w.turns ∧ w.idx = x.idx) ∧
    (closeXfer c r x s).inbox = s.inbox ∧ (closeXfer c r x s).mem = s.mem := by
  unfold closeXfer
  dsimp only
  have e0 : recvOf (incr COLL_XFER_DONE 0 s) c r.step r.cid = some q := h
  have e1 := recvOf_modXfer (i := x.idx) (f := fun y => { y with closed := true }) e0
  have eP : collPaused (modXfer c r.step r.cid x.idx (fun y => { y with closed := true }) (incr COLL_XFER_DONE 0 s)) c = collPaused s c := by
    unfold collPaused
    rw [show getF (modXfer c r.step r.cid x.idx (fun y => { y with closed := true }) (incr COLL_XFER_DONE 0 s)) COLL_CTX_PAUSE 0 = getF s COLL_CTX_PAUSE 0 from getF_incr_apart (by decide) 0 0 s]
  have eX : getF (modXfer c r.step r.cid x.idx (fun y => { y with closed := true }) (incr COLL_XFER_DONE 0 s)) COLL_XFER_DONE 0 = (getF s COLL_XFER_DONE 0 + 1) % 2 ^ 32 :=
    getF_incr_self COLL_XFER_DONE 0 s (by decide)
  have eI : (modXfer c r.step r.cid x.idx (fun y => { y with closed := true }) (incr COLL_XFER_DONE 0 s)).inbox = s.inbox := rfl
  have eM : (modXfer c r.step r.cid x.idx (fun y => { y with closed := true }) (incr COLL_XFER_DONE 0 s)).mem = s.mem := rfl
  generalize modXfer c r.step r.cid x.idx (fun y => { y with closed := true }) (incr COLL_XFER_DONE 0 s) = Z at *
  obtain ⟨f, v, ef, e2⟩ : ∃ (f : Nat) (w : List Xfer), f = (if collPaused s c then 1 else 2) ∧ recvOf (sendDone c r x Z) c r.step r.cid =
      some { q with xfers := (q.xfers.map fun y => if y.idx = x.idx then { y with closed := true } else y).map fun y => if y.idx = x.idx then { y with done := f } else y } := by
    unfold sendDone
    rw [eP]
    split
    · exact ⟨1, [], rfl, recvOf_modXfer e1⟩
    · refine ⟨2, [], rfl, ?_⟩
      have hb : ∀ a b d e f z, recvOf (sendMark c a b d e f z) c r.step r.cid = recvOf z c r.step r.cid := fun a b d e f z =>
        recvOf_congr _ _ (by rw [ctxOf_kept (sendMark_keeps (Has.refl _) c a b d e f (Keeps.refl _ z)) (by decide)])
      rw [hb]
      exact recvOf_modXfer e1
  have KD := sendDone_keeps (Has.refl _) c r x (Keeps.refl _ Z)
  have KE := recvEnd_keeps (Has.refl _) c r.step r.cid (Keeps.refl _ (sendDone c r x Z))
  obtain ⟨p, e3, e4⟩ := recvOf_recvEnd e2
  refine ⟨(KE.getFk reg_COLL_XFER_DONE (by decide) 0 0).trans ((KD.getFk reg_COLL_XFER_DONE (by decide) 0 0).trans eX), ⟨p, e3, fun z hz hi => ?_⟩,
    (KE.inbox (by decide)).trans ((KD.inbox (by decide)).trans eI), (KE.mem (by decide)).trans ((KD.mem (by decide)).trans eM)⟩
  rw [e4] at hz
  simp only [List.mem_map] at hz
  obtain ⟨y1, ⟨y0, hy0, h01⟩, h1z⟩ := hz
  have i1 : y1.idx = y0.idx := by rw [← h01]; split <;> rfl
  have i2 : z.idx = y1.idx := by rw [← h1z]; split <;> rfl
  have i3 : y0.idx = x.idx := i1.symm.trans (i2.symm.trans hi)
  rw [if_pos i3] at h01
  rw [if_pos (i1.trans i3)] at h1z
  refine ⟨y0, hy0, ?_, ?_, ?_, i3⟩
  · rw [← h1z, ← h01]
  · rw [← h1z, ← ef]
  · rw [← h1z, ← h01]

theorem turnLast_effect (f : Frame) (r : List Frame) (q : Recv) (x y : Xfer) (s : State) (h1 : isAwake s = true) (h2 : collInbox s (fun t => decide (t < 0xFFFE)) = some (f, r)) (h3 : stepAbove s f.ctx (fStep f) = false) (h4 : recvOf s f.ctx (fStep f) (fCid f) = some q) (h5 : kRelease q.desc = false) (h6 : fTurn f < kTurns q.desc) (h7 : (q.xfers.filter fun x => x.src == f.src).find? (fun x => !x.closed && (!x.absent || x.carry) && !turnDone q.desc x (fTurn f)) = some x) (h8 : x.carry = false) (h9 : y = { x with turns := x.turns.put [] (fTurn f) (x.turns.get [] (fTurn f) ++ f.payload) }) (h10 : xferFull q.desc y = true) (h11 : x.absent = false) :
    (awake s (collTurnFrame s)).inbox = r ∧ getF (awake s (collTurnFrame s)) COLL_XFER_DONE 0 = (getF s COLL_XFER_DONE 0 + 1) % 2 ^ 32 ∧ (∃ p, recvOf (awake s (collTurnFrame s)) f.ctx (fStep f) (fCid f) = some p ∧ ∀ z ∈ p.xfers, z.idx = x.idx → z.closed = true ∧ z.turns = y.turns ∧ z.done = if collPaused s f.ctx then 1 else 2) ∧ (awake s (collTurnFrame s)).mem = (placeData f.ctx q x.idx (fTurn f) (x.turns.get [] (fTurn f)).length f.payload s).mem := by
  rw [awake_eq _ h1]
  unfold collTurnFrame
  rw [h2]
  dsimp only
  unfold turnFrame
  dsimp only
  rw [show stepAbove { s with inbox := r } f.ctx (fStep f) = stepAbove s f.ctx (fStep f) from rfl, h3, if_neg (by decide),
    show recvOf { s with inbox := r } f.ctx (fStep f) (fCid f) = recvOf s f.ctx (fStep f) (fCid f) from rfl, h4]
  dsimp only
  rw [if_neg (by simp only [h5]; simp; omega), h7]
  dsimp only
  unfold takeTurn
  dsimp only
  have hT : x.turns.put [] (fTurn f) (x.turns.get [] (fTurn f) ++ f.payload) = y.turns := by rw [h9]
  rw [if_neg (by simp [h8]), ← h9, hT, h8, if_neg (show ¬ (false = true) by decide), h10, if_pos rfl, h11, if_neg (show ¬ (false = true) by decide)]
  obtain ⟨k1, k2⟩ := recvOf_key h4
  have hx := recvOf_modXfer (s := { s with inbox := r }) (i := x.idx) (f := fun z => { z with turns := y.turns }) (show recvOf { s with inbox := r } f.ctx (fStep f) (fCid f) = some q from h4)
  rw [← k1, ← k2] at hx ⊢
  have K := fun (o : Nat) (z : State) => placeData_keeps (Has.refl _) f.ctx q x.idx (fTurn f) o f.payload (Keeps.refl _ z)
  have M := placeData_mem f.ctx q x.idx (fTurn f) (x.turns.get [] (fTurn f)).length f.payload q.step q.cid x.idx (fun z => { z with turns := y.turns }) r s
  have hr := (recvOf_congr q.step q.cid (by rw [ctxOf_kept (K (x.turns.get [] (fTurn f)).length (modXfer f.ctx q.step q.cid x.idx (fun z => { z with turns := y.turns }) { s with inbox := r })) (by decide)])).trans hx
  have I : (placeData f.ctx q x.idx (fTurn f) (x.turns.get [] (fTurn f)).length f.payload (modXfer f.ctx q.step q.cid x.idx (fun z => { z with turns := y.turns }) { s with inbox := r })).inbox = r := by
    rw [(K _ _).inbox (by decide)]; rfl
  have X : getF (placeData f.ctx q x.idx (fTurn f) (x.turns.get [] (fTurn f)).length f.payload (modXfer f.ctx q.step q.cid x.idx (fun z => { z with turns := y.turns }) { s with inbox := r })) COLL_XFER_DONE 0 = getF s COLL_XFER_DONE 0 :=
    (K _ _).getFk reg_COLL_XFER_DONE (by decide) 0 0
  have P : collPaused (placeData f.ctx q x.idx (fTurn f) (x.turns.get [] (fTurn f)).length f.payload (modXfer f.ctx q.step q.cid x.idx (fun z => { z with turns := y.turns }) { s with inbox := r })) f.ctx = collPaused s f.ctx := by
    unfold collPaused
    exact congrArg (fun w => Nat.testBit w f.ctx) ((K _ (modXfer f.ctx q.step q.cid x.idx (fun z => { z with turns := y.turns }) { s with inbox := r })).getFk reg_COLL_CTX_PAUSE (by decide) 0 0)
  generalize placeData f.ctx q x.idx (fTurn f) (x.turns.get [] (fTurn f)).length f.payload (modXfer f.ctx q.step q.cid x.idx (fun z => { z with turns := y.turns }) { s with inbox := r }) = Z at *
  have yi : y.idx = x.idx := by rw [h9]
  obtain ⟨d1, ⟨p, d2, d3⟩, d4, d5⟩ := closeXfer_does (x := y) hr
  rw [P] at d3
  refine ⟨d4.trans I, d1.trans (by rw [X]), ⟨p, d2, fun z hz hi => ?_⟩, d5.trans M⟩
  obtain ⟨w, hw, c1, c2, c3, c4⟩ := d3 z hz (hi.trans yi.symm)
  refine ⟨c1, ?_, c2⟩
  rw [c3]
  simp only [List.mem_map] at hw
  obtain ⟨w0, _, e0⟩ := hw
  split at e0
  · rw [← e0]
  · next hne => rw [← e0] at c4; exact absurd (c4.trans yi) hne

theorem turnStale_effect (f : Frame) (r : List Frame) (s : State) (h1 : isAwake s = true) (h2 : collInbox s (fun t => decide (t < 0xFFFE)) = some (f, r)) (h3 : stepAbove s f.ctx (fStep f) = false) (h4 : recvOf s f.ctx (fStep f) (fCid f) = none) :
    (awake s (collTurnFrame s)).inbox = r ∧ getF (awake s (collTurnFrame s)) COLL_STALE_REJ 0 = (getF s COLL_STALE_REJ 0 + 1) % 2 ^ 32 ∧ evtSet (awake s (collTurnFrame s)) COLL_EV_STALE_REJ 0 = true ∧ (awake s (collTurnFrame s)).mem = s.mem := by
  rw [awake_eq _ h1]
  unfold collTurnFrame
  rw [h2]
  dsimp only
  unfold turnFrame
  dsimp only
  rw [show stepAbove { s with inbox := r } f.ctx (fStep f) = stepAbove s f.ctx (fStep f) from rfl, h3, if_neg (by decide),
    show recvOf { s with inbox := r } f.ctx (fStep f) (fCid f) = recvOf s f.ctx (fStep f) (fCid f) from rfl, h4]
  dsimp only
  unfold staleRej
  have K : ∀ z : State, Keeps 0x8000002000000000000000000000000000000000000000000000000000000000000000000080000000000 z (setEvt COLL_EV_STALE_REJ 0 (incr COLL_STALE_REJ 0 z)) := fun z =>
    setEvt_keeps (p := 8) ((Has.refl _).sub rfl) ((Has.refl _).sub rfl) _ _ rfl reg_pendFld8 (incr_keeps ((Has.refl _).sub rfl) _ _ reg_COLL_STALE_REJ (Keeps.refl _ z))
  refine ⟨(K _).inbox (by decide), ?_, evtSet_setEvt (by decide) _ _, (K _).mem (by decide)⟩
  rw [getF_setEvt_apart (by decide), getF_incr_self _ _ _ (by decide)]
  rfl

theorem takeFirst_mem {α : Type} {p : α → Bool} : ∀ {l : List α} {a : α} {r : List α}, takeFirst p l = some (a, r) → a ∈ l
  | [], _, _, h => by simp [takeFirst] at h
  | x :: l, a, r, h => by
    unfold takeFirst at h
    split at h
    · cases h; exact List.mem_cons_self ..
    · cases e : takeFirst p l with
      | none => rw [e] at h; cases h
      | some z =>
        rw [e] at h
        cases h
        exact List.mem_cons_of_mem _ (takeFirst_mem e)

theorem doneFrame_effect (f : Frame) (r : List Frame) (x y : Send) (l : List Send) (i : Nat) (s : State) (h1 : isAwake s = true) (h2 : collInbox s (fun t => t == 0xFFFF) = some (f, r)) (h3 : stepAbove s f.ctx (fStep f) = false) (h4 : takeFirst (fun x : Send => x.step == fStep f && x.cid == fCid f && x.peers.any fun e => e.1 == f.src && !e.2.2) (ctxOf s f.ctx).coll.sends = some (x, l)) (h5 : i = ((x.peers.find? fun e => e.1 == f.src && !e.2.2).map (·.2.1)).getD 0) (h6 : y = { x with peers := x.peers.map (fun e => if e.2.1 = i then (e.1, e.2.1, true) else e), left := x.left.filter fun k => k / 65536 != i }) (h7 : (∀ z ∈ (ctxOf s f.ctx).coll.sends, z.step = fStep f → z.cid = fCid f → z = x)) :
    (awake s (doneFrameTake s)).inbox = r ∧ (ctxOf (awake s (doneFrameTake s)) f.ctx).coll.sends = (if !y.fin && y.peers.all (·.2.2) then ((ctxOf s f.ctx).coll.sends.map fun w => if w = x then y else w).filter fun z => decide (z ≠ y) else (ctxOf s f.ctx).coll.sends.map fun w => if w = x then y else w) := by
  rw [awake_eq _ h1]
  unfold doneFrameTake
  rw [h2]
  dsimp only
  unfold doneFrame
  dsimp only
  rw [show stepAbove { s with inbox := r } f.ctx (fStep f) = stepAbove s f.ctx (fStep f) from rfl, h3, if_neg (by decide),
    show ctxOf { s with inbox := r } f.ctx = ctxOf s f.ctx from rfl, h4]
  dsimp only
  rw [← h5, ← h6]
  unfold sendEnd
  rw [coll_modColl]
  dsimp only
  rw [show ctxOf { s with inbox := r } f.ctx = ctxOf s f.ctx from rfl]
  have hp := takeFirst_prop h4
  simp only [Bool.and_eq_true, beq_iff_eq] at hp
  have hm : x ∈ (ctxOf s f.ctx).coll.sends := takeFirst_mem h4
  have yk : y.step = fStep f ∧ y.cid = fCid f := by rw [h6]; exact hp.1
  have hy : y ∈ (ctxOf s f.ctx).coll.sends.map fun w => if w = x then y else w := List.mem_map.2 ⟨x, hm, if_pos rfl⟩
  have ho : ∀ z ∈ (ctxOf s f.ctx).coll.sends.map (fun w => if w = x then y else w), z.step = fStep f → z.cid = fCid f → z = y := fun z hz a b => by
    obtain ⟨w, hw, e⟩ := List.mem_map.1 hz
    split at e
    · exact e.symm
    · next hne => rw [← e] at a b; exact absurd (h7 w hw a b) hne
  generalize hL : (ctxOf s f.ctx).coll.sends.map (fun w => if w = x then y else w) = L at *
  by_cases hc : (!y.fin && y.peers.all (·.2.2)) = true
  · rw [if_pos hc]
    cases hf : L.find? fun x => x.step == fStep f && x.cid == fCid f && !x.fin && x.peers.all (·.2.2) with
    | none =>
      exfalso
      have := List.find?_eq_none.1 hf y hy
      simp only [Bool.and_eq_true] at hc
      simp [yk, hc.1, hc.2] at this
    | some z =>
      have hz := ho z (List.mem_of_find?_eq_some hf) (by have := List.find?_some hf; simp only [Bool.and_eq_true, beq_iff_eq] at this; exact this.1.1.1)
        (by have := List.find?_some hf; simp only [Bool.and_eq_true, beq_iff_eq] at this; exact this.1.1.2)
      subst hz
      dsimp only
      rw [collBar_coll, coll_modColl, coll_modColl]
      refine ⟨?_, congrArg (List.filter fun w => decide (w ≠ z)) hL⟩
      rw [(collBar_keeps (Has.refl _) f.ctx _ (Keeps.refl _ _)).inbox (by decide)]
      rfl
  · rw [if_neg hc]
    cases hf : L.find? fun x => x.step == fStep f && x.cid == fCid f && !x.fin && x.peers.all (·.2.2) with
    | none =>
      dsimp only
      rw [coll_modColl]
      exact ⟨rfl, hL⟩
    | some z =>
      exfalso
      have hk := List.find?_some hf
      simp only [Bool.and_eq_true, beq_iff_eq] at hk
      have hz := ho z (List.mem_of_find?_eq_some hf) hk.1.1.1 hk.1.1.2
      subst hz
      exact hc (by rw [hk.2, hk.1.2]; rfl)

theorem releaseFrame_effect (f : Frame) (r : List Frame) (q : Recv) (x : Xfer) (s : State) (h1 : isAwake s = true) (h2 : collInbox s (fun t => t == 0xFFFE) = some (f, r)) (h3 : stepAbove s f.ctx (fStep f) = false) (h4 : recvOf s f.ctx (fStep f) (fCid f) = some q) (h5 : q.xfers.find? (fun x => x.src == f.src) = some x) (h6 : kRelease q.desc = true) (h7 : x.closed = false) :
    (awake s (releaseFrameTake s)).inbox = r ∧ getF (awake s (releaseFrameTake s)) COLL_XFER_DONE 0 = (getF s COLL_XFER_DONE 0 + 1) % 2 ^ 32 ∧ ∃ p, recvOf (awake s (releaseFrameTake s)) f.ctx (fStep f) (fCid f) = some p ∧ ∀ z ∈ p.xfers, z.idx = x.idx → z.closed = true ∧ z.done = if collPaused s f.ctx then 1 else 2 := by
  rw [awake_eq _ h1]
  unfold releaseFrameTake
  rw [h2]
  dsimp only
  unfold releaseFrame
  dsimp only
  rw [show stepAbove { s with inbox := r } f.ctx (fStep f) = stepAbove s f.ctx (fStep f) from rfl, h3, if_neg (by decide),
    show recvOf { s with inbox := r } f.ctx (fStep f) (fCid f) = recvOf s f.ctx (fStep f) (fCid f) from rfl, h4]
  dsimp only
  rw [h5]
  dsimp only
  rw [h6, if_neg (by decide), h7, if_neg (by decide)]
  obtain ⟨k1, k2⟩ := recvOf_key h4
  have hr : recvOf { s with inbox := r } f.ctx q.step q.cid = some q := by rw [k1, k2]; exact h4
  obtain ⟨d1, ⟨p, d2, d3⟩, d4, d5⟩ := closeXfer_does (x := x) hr
  rw [k1, k2] at d2
  exact ⟨d4, d1, p, d2, fun z hz hi => ⟨(d3 z hz hi).choose_spec.2.1, (d3 z hz hi).choose_spec.2.2.1⟩⟩

theorem earlyAreaAdmit_effect (hclk : Nat) (s : State) (h1 : isAwake s = true) :
    getF (awake s (earlyAreaAdmit hclk s)) COLL_EARLY_HCLK 0 = (if earlyAnyFull s then (getF s COLL_EARLY_HCLK 0 + hclk) % 2 ^ 32 else getF s COLL_EARLY_HCLK 0) ∧ (earlyWaits s = true → (awake s (earlyAreaAdmit hclk s)).ports = s.ports ∧ (awake s (earlyAreaAdmit hclk s)).inbox = s.inbox) ∧ (earlyAnyFull s = false → earlyWaits s = false → (awake s (earlyAreaAdmit hclk s)) = drainAll s) := by
  rw [awake_eq _ h1]
  unfold earlyAreaAdmit
  dsimp only
  have hv : ∀ z : State, z = (if earlyAnyFull s then addF COLL_EARLY_HCLK 0 hclk s else s) → z.ports = s.ports ∧ z.inbox = s.inbox ∧ earlyWaits z = earlyWaits s ∧
      getF z COLL_EARLY_HCLK 0 = (if earlyAnyFull s then (getF s COLL_EARLY_HCLK 0 + hclk) % 2 ^ 32 else getF s COLL_EARLY_HCLK 0) ∧ (earlyAnyFull s = false → z = s) := fun z hz => by
    rw [hz]
    split
    · next h => exact ⟨rfl, rfl, rfl, getF_addF_self _ _ _ _ rfl, fun hf => by rw [hf] at h; cases h⟩
    · exact ⟨rfl, rfl, rfl, rfl, fun _ => rfl⟩
  obtain ⟨v1, v2, v3, v4, v5⟩ := hv _ rfl
  generalize (if earlyAnyFull s then addF COLL_EARLY_HCLK 0 hclk s else s) = z at *
  rw [v3]
  refine ⟨?_, fun hw => ?_, fun hf hw => ?_⟩
  · rw [← v4]
    split
    · rfl
    · exact (drainAll_keeps (Has.refl _) (Keeps.refl _ z)).getFk reg_COLL_EARLY_HCLK (by decide) 0 0
  · rw [if_pos hw]; exact ⟨v1, v2⟩
  · rw [hw, if_neg (by decide), v5 hf]

/-- The transfers of a RECV: index, and whether it has ended. -/
def pairsOf (s : State) (c n cid : Nat) : Option (List (Nat × Bool)) := (recvOf s c n cid).map fun q => q.xfers.map fun x => (x.idx, x.closed || x.absent)

theorem pairsOf_congr {s t : State} {c : Nat} (n cid : Nat) (h : (ctxOf t c).coll.recvs = (ctxOf s c).coll.recvs) : pairsOf t c n cid = pairsOf s c n cid := by
  unfold pairsOf; rw [recvOf_congr n cid h]

theorem pairsOf_modXfer (s : State) (c n cid i : Nat) (f : Xfer → Xfer) (hf : ∀ x, (f x).idx = x.idx ∧ ((f x).closed || (f x).absent) = (x.closed || x.absent)) :
    pairsOf (modXfer c n cid i f s) c n cid = pairsOf s c n cid := by
  unfold pairsOf
  cases h : recvOf s c n cid with
  | none =>
    have : recvOf (modXfer c n cid i f s) c n cid = none := by
      unfold recvOf modXfer modRecv at *
      rw [coll_modColl]
      dsimp only
      rw [find_map_same (fun r : Recv => r.step == n && r.cid == cid) _ (fun x => by split <;> simp) (ctxOf s c).coll.recvs, h]
      rfl
    rw [this]
  | some q =>
    rw [recvOf_modXfer h]
    simp only [Option.map_some, List.map_map, Option.some.injEq]
    refine List.map_congr_left fun x _ => ?_
    simp only [Function.comp_apply]
    split
    · rw [(hf x).1, (hf x).2]
    · rfl

theorem pairsOf_sendDone (s : State) (c : Nat) (r : Recv) (x : Xfer) : pairsOf (sendDone c r x s) c r.step r.cid = pairsOf s c r.step r.cid := by
  unfold sendDone
  split
  · exact pairsOf_modXfer _ _ _ _ _ _ fun _ => ⟨rfl, rfl⟩
  · have hb : ∀ a b d e f z, pairsOf (sendMark c a b d e f z) c r.step r.cid = pairsOf z c r.step r.cid := fun a b d e f z =>
      pairsOf_congr _ _ (by rw [ctxOf_kept (sendMark_keeps (Has.refl _) c a b d e f (Keeps.refl _ z)) (by decide)])
    rw [hb]
    exact pairsOf_modXfer _ _ _ _ _ _ fun _ => ⟨rfl, rfl⟩

theorem pairsOf_evt (e : Evt) (i : Nat) (s : State) (c n cid : Nat) : pairsOf (setEvt e i s) c n cid = pairsOf s c n cid :=
  pairsOf_congr _ _ (by rw [ctxOf_setEvt])

theorem pairsOf_incr (f : Fld) (i : Nat) (s : State) (c n cid : Nat) : pairsOf (incr f i s) c n cid = pairsOf s c n cid := pairsOf_congr _ _ rfl

theorem pairsOf_setF (f : Fld) (i v : Nat) (s : State) (c n cid : Nat) : pairsOf (setF f i v s) c n cid = pairsOf s c n cid := pairsOf_congr _ _ rfl

theorem evtSet_modXfer (c n cid i : Nat) (f : Xfer → Xfer) (s : State) (e : Evt) (k : Nat) : evtSet (modXfer c n cid i f s) e k = evtSet s e k := rfl

theorem evtSet_ckptKeep (c : Nat) (r : Recv) (x : Xfer) (s : State) (e : Evt) (k : Nat) : evtSet (ckptKeep c r x s) e k = evtSet s e k := rfl

theorem pairsOf_countDrop (s : State) (c n cid : Nat) : pairsOf (countDrop c s) c n cid = pairsOf s c n cid := by
  unfold countDrop
  split
  · rfl
  · rw [pairsOf_evt, pairsOf_incr]

theorem pairsOf_carryDrop (s : State) (c : Nat) (r : Recv) (x : Xfer) : pairsOf (carryDrop c r x s) c r.step r.cid = pairsOf s c r.step r.cid := by
  have e2 : pairsOf (ckptKeep c r x s) c r.step r.cid = pairsOf s c r.step r.cid := pairsOf_congr (s := s) (t := ckptKeep c r x s) _ _ (by
    unfold ckptKeep
    rw [ctxOf_modCtx_self])
  have e := (pairsOf_countDrop _ c r.step r.cid).trans ((pairsOf_modXfer (ckptKeep c r x s) c r.step r.cid x.idx (fun y => { y with carry := false, turns := [], slots := [] }) fun _ => ⟨rfl, rfl⟩).trans e2)
  unfold carryDrop
  dsimp only
  split
  · rw [pairsOf_sendDone]; exact e
  · exact e

/-- A turn that goes to the carry area leaves every transfer's end as it is. -/
theorem pairsOf_carryStore (s : State) (c : Nat) (r : Recv) (i t off : Nat) (bs : List Byte) : pairsOf (carryStore c r i t off bs s) c r.step r.cid = pairsOf s c r.step r.cid := by
  have hm : ∀ (d a : Nat) (z : State), pairsOf (memStore d a bs z) c r.step r.cid = pairsOf z c r.step r.cid := fun d a z =>
    pairsOf_congr _ _ (by rw [ctxOf_kept (memStore_keeps (Has.refl _) d a bs (Keeps.refl _ z)) (by decide)])
  unfold carryStore
  split
  · rfl
  · split
    · exact hm ..
    · dsimp only
      rw [hm]
      exact pairsOf_modXfer _ _ _ _ _ _ fun _ => ⟨rfl, rfl⟩

theorem pairsOf_carryStores (c n cid i : Nat) : ∀ (l : List (Nat × List Byte)) (s : State), pairsOf (carryStores c n cid i l s) c n cid = pairsOf s c n cid
  | [], _ => rfl
  | e :: l, s => by
    unfold carryStores
    rw [pairsOf_carryStores c n cid i l]
    split
    · next r hr =>
      obtain ⟨k1, k2⟩ := recvOf_key hr
      have := pairsOf_carryStore s c r i e.1 0 e.2
      rw [k1, k2] at this
      exact this
    · rfl

theorem sendDone_evt {e : Evt} (hp : e.page = 8) (c : Nat) (r : Recv) (x : Xfer) (s : State) (h : evtSet s e 0 = true) : evtSet (sendDone c r x s) e 0 = true :=
  evtSet_keptR (sendDone_keeps (Has.refl _) c r x (Keeps.refl _ s)) reg_pendFld8 (by decide) hp h

/-- An event of the engine that is set stays set. -/
theorem carryDrop_evt {e : Evt} (hp : e.page = 8) (hb : e.bit < 32) (c : Nat) (r : Recv) (x : Xfer) (s : State) (h : evtSet s e 0 = true) : evtSet (carryDrop c r x s) e 0 = true := by
  have h1 : ∀ z : State, evtSet z e 0 = true → evtSet (countDrop c z) e 0 = true := fun z hz => by
    unfold countDrop
    split
    · exact hz
    · exact evtSet_setEvt_of (evtSet_keptR (incr_keeps (w := 0x10000000000000000000000000000000000000000000000000000000000000000000000000000000) (Has.refl _) _ _ reg_COLL_CARRY_DROP (Keeps.refl _ _)) reg_pendFld8 (by decide) hp hz) hb
  have h2 := h1 (modXfer c r.step r.cid x.idx (fun y => { y with carry := false, turns := [], slots := [] }) (ckptKeep c r x s)) (by rw [evtSet_modXfer, evtSet_ckptKeep]; exact h)
  unfold carryDrop
  dsimp only
  split
  · exact evtSet_keptR (sendDone_keeps (Has.refl _) c r x (Keeps.refl _ _)) reg_pendFld8 (by decide) hp h2
  · exact h2

/-- A source that is declared absent. -/
theorem markAbsent_does (c n cid i : Nat) (s : State) (l : List (Nat × Bool)) (h : pairsOf s c n cid = some l) (hi : ∃ b, (i, b) ∈ l) :
    getF (markAbsent c n cid i s) COLL_ABSENT_SRC 0 = (getF s COLL_ABSENT_SRC 0 + 1) % 2 ^ 32 ∧ evtSet (markAbsent c n cid i s) COLL_EV_ABSENT 0 = true ∧
      pairsOf (markAbsent c n cid i s) c n cid = some (l.map fun e => if e.1 = i then (e.1, true) else e) := by
  unfold pairsOf at h
  cases hr : recvOf s c n cid with
  | none => rw [hr] at h; cases h
  | some r =>
    rw [hr] at h
    simp only [Option.map_some, Option.some.injEq] at h
    obtain ⟨b, hb⟩ := hi
    rw [← h] at hb
    obtain ⟨x0, hx0, e0⟩ := List.mem_map.1 hb
    unfold markAbsent
    rw [hr]
    dsimp only
    cases hf : r.xfers.find? fun x => x.idx == i with
    | none =>
      exfalso
      have := List.find?_eq_none.1 hf x0 hx0
      simp [(Prod.mk.inj e0).1] at this
    | some x =>
      have xi : x.idx = i := by simpa using List.find?_some hf
      dsimp only
      generalize hy : ({ x with absent := true, carry := getFk s COLL_POLICY 0 c == 1, turns := if (getFk s COLL_POLICY 0 c == 1) = true then x.turns else [] } : Xfer) = y
      have yi : y.idx = i := by rw [← hy]; exact xi
      generalize (if (getFk s COLL_POLICY 0 c == 1) = true then x.turns else []) = ts
      have ya : (y.closed || y.absent) = true := by rw [← hy]; exact Bool.or_true _
      obtain ⟨k1, k2⟩ := recvOf_key hr
      have p1 : pairsOf (setEvt COLL_EV_ABSENT 0 (incr COLL_ABSENT_SRC 0 (modXfer c n cid i (fun _ => y) s))) c n cid = some (l.map fun e => if e.1 = i then (e.1, true) else e) := by
        rw [pairsOf_evt, pairsOf_incr]
        unfold pairsOf
        rw [recvOf_modXfer hr, ← h]
        simp only [Option.map_some, List.map_map, Option.some.injEq]
        refine List.map_congr_left fun w _ => ?_
        simp only [Function.comp_apply]
        split
        · next hw => rw [yi, ya, hw]
        · rfl
      have c1 : getF (setEvt COLL_EV_ABSENT 0 (incr COLL_ABSENT_SRC 0 (modXfer c n cid i (fun _ => y) s))) COLL_ABSENT_SRC 0 = (getF s COLL_ABSENT_SRC 0 + 1) % 2 ^ 32 := by
        rw [getF_setEvt_apart (by decide), getF_incr_self _ _ _ (by decide)]; rfl
      have v1 : evtSet (setEvt COLL_EV_ABSENT 0 (incr COLL_ABSENT_SRC 0 (modXfer c n cid i (fun _ => y) s))) COLL_EV_ABSENT 0 = true := evtSet_setEvt (by decide) _ _
      generalize setEvt COLL_EV_ABSENT 0 (incr COLL_ABSENT_SRC 0 (modXfer c n cid i (fun _ => y) s)) = Z at *
      have KD := sendDone_keeps (Has.refl _) c r y (Keeps.refl _ Z)
      split
      · exact ⟨(KD.getFk reg_COLL_ABSENT_SRC (by decide) 0 0).trans c1, evtSet_keptR KD reg_pendFld8 (by decide) rfl v1, by
          have := pairsOf_sendDone Z c r y; rw [k1, k2] at this; exact this.trans p1⟩
      · split
        · exact ⟨((carryDrop_keeps (Has.refl _) c r y (Keeps.refl _ Z)).getFk reg_COLL_ABSENT_SRC (by decide) 0 0).trans c1, carryDrop_evt rfl (by decide) c r y Z v1, by
            have := pairsOf_carryDrop Z c r y; rw [k1, k2] at this; exact this.trans p1⟩
        · have KC := carryStores_keeps (Has.refl _) c n cid i ts (Keeps.refl _ Z)
          exact ⟨(KC.getFk reg_COLL_ABSENT_SRC (by decide) 0 0).trans c1, evtSet_keptR KC reg_pendFld8 (by decide) rfl v1, (pairsOf_carryStores c n cid i _ Z).trans p1⟩

theorem markAbsent_evt {e : Evt} (hp : e.page = 8) (hb : e.bit < 32) (c n cid i : Nat) (s : State) (h : evtSet s e 0 = true) : evtSet (markAbsent c n cid i s) e 0 = true := by
  unfold markAbsent
  split
  · exact h
  · split
    · exact h
    · rename_i r _ _ x _
      dsimp only
      have h1 : ∀ y : Xfer, evtSet (setEvt COLL_EV_ABSENT 0 (incr COLL_ABSENT_SRC 0 (modXfer c n cid i (fun _ => y) s))) e 0 = true := fun y => by
        refine evtSet_setEvt_of ?_ hb
        refine evtSet_keptR (incr_keeps (w := 0x4000000000000000000000000000000000000000000000000000000000000000000000000000000) (Has.refl _) _ _ reg_COLL_ABSENT_SRC (Keeps.refl _ _)) reg_pendFld8 (by decide) hp ?_
        rw [evtSet_modXfer]
        exact h
      generalize ({ x with absent := true, carry := getFk s COLL_POLICY 0 c == 1, turns := if (getFk s COLL_POLICY 0 c == 1) = true then x.turns else [] } : Xfer) = y
      have h2 := h1 y
      generalize (if (getFk s COLL_POLICY 0 c == 1) = true then x.turns else []) = ts
      generalize setEvt COLL_EV_ABSENT 0 (incr COLL_ABSENT_SRC 0 (modXfer c n cid i (fun _ => y) s)) = Z at *
      split
      · exact sendDone_evt hp c r y Z h2
      · split
        · exact carryDrop_evt hp hb c r y Z h2
        · exact evtSet_keptR (carryStores_keeps (Has.refl _) c n cid i ts (Keeps.refl _ Z)) reg_pendFld8 (by decide) hp h2

theorem markAbsents_evt {e : Evt} (hp : e.page = 8) (hb : e.bit < 32) (c n cid : Nat) : ∀ (is : List Nat) (s : State), evtSet s e 0 = true → evtSet (markAbsents c n cid is s) e 0 = true
  | [], s, h => by
    unfold markAbsents
    split
    · refine evtSet_keptR (x := s) (m := 0x1800000000000000000000000000000000000000000000000000000000000000000000000000000000000) ?_ reg_pendFld8 (by decide) hp h
      exact setF_keeps ((Has.refl _).sub rfl) _ _ _ reg_COLL_LAST_ABSENT_COLL_ID (setF_keeps ((Has.refl _).sub rfl) _ _ _ reg_COLL_LAST_ABSENT_ABSENT (Keeps.refl _ s))
    · exact h
  | i :: is, s, h => by
    unfold markAbsents
    exact markAbsents_evt hp hb c n cid is _ (markAbsent_evt hp hb c n cid i s h)

theorem markAbsents_does (c n cid : Nat) : ∀ (is : List Nat) (s : State) (l : List (Nat × Bool)), pairsOf s c n cid = some l → (∀ i ∈ is, ∃ b, (i, b) ∈ l) →
    getF (markAbsents c n cid is s) COLL_ABSENT_SRC 0 = (getF s COLL_ABSENT_SRC 0 + is.length) % 2 ^ 32 ∧ (is ≠ [] → evtSet (markAbsents c n cid is s) COLL_EV_ABSENT 0 = true) ∧
      getF (markAbsents c n cid is s) COLL_LAST_ABSENT_COLL_ID 0 = cid % 2 ^ 16 ∧ pairsOf (markAbsents c n cid is s) c n cid = some (l.map fun e => if e.1 ∈ is then (e.1, true) else e)
  | [], s, l, h, _ => by
    unfold markAbsents
    cases hr : recvOf s c n cid with
    | none => unfold pairsOf at h; rw [hr] at h; cases h
    | some r =>
      dsimp only
      refine ⟨?_, fun hn => absurd rfl hn, getF_setF_self COLL_LAST_ABSENT_COLL_ID 0 cid _ (by decide), ?_⟩
      · rw [getF_setF_apart (by decide), getF_setF_apart (by decide)]
        exact (Nat.mod_eq_of_lt (getF_lt32 ..)).symm
      · rw [pairsOf_setF, pairsOf_setF, h]
        simp
  | i :: is, s, l, h, hi => by
    unfold markAbsents
    obtain ⟨a1, a2, a3⟩ := markAbsent_does c n cid i s l h (hi i (List.mem_cons_self ..))
    obtain ⟨b1, b2, b3, b4⟩ := markAbsents_does c n cid is _ _ a3 (fun j hj => by
      obtain ⟨b, hb⟩ := hi j (List.mem_cons_of_mem _ hj)
      by_cases e : j = i
      · exact ⟨true, List.mem_map.2 ⟨(j, b), hb, by simp [e]⟩⟩
      · exact ⟨b, List.mem_map.2 ⟨(j, b), hb, by simp [e]⟩⟩)
    refine ⟨?_, fun _ => ?_, b3, ?_⟩
    · rw [b1, a1, Nat.mod_add_mod, List.length_cons]; congr 1; omega
    · exact markAbsents_evt rfl (by decide) c n cid is _ a2
    · rw [b4, List.map_map]
      refine congrArg some (List.map_congr_left fun e _ => ?_)
      simp only [Function.comp_apply, List.mem_cons]
      by_cases he : e.1 = i
      · simp [he]
      · simp [he]

theorem stragglerDeadline_effect (c n cid : Nat) (r : Recv) (s : State) (h1 : stopped s = false) (h2 : recvOf s c n cid = some r) (h3 : kKind r.desc = 0) (h4 : getFk s COLL_STRAG 0 c ≠ 0) (h5 : replayOn s c = false) (h6 : r.xfers.any (·.closed) = true) (h7 : openXfers r ≠ []) :
    getF (running s (stragglerDeadline c n cid s)) COLL_ABSENT_SRC 0 = (getF s COLL_ABSENT_SRC 0 + (openXfers r).length) % 2 ^ 32 ∧ evtSet (running s (stragglerDeadline c n cid s)) COLL_EV_ABSENT 0 = true ∧ getF (running s (stragglerDeadline c n cid s)) COLL_LAST_ABSENT_COLL_ID 0 = cid % 2 ^ 16 ∧ ∃ p, recvOf (running s (stragglerDeadline c n cid s)) c n cid = some p ∧ ∀ x ∈ p.xfers, x.closed = true ∨ x.absent = true := by
  rw [running_eq _ h1]
  unfold stragglerDeadline
  rw [h2]
  dsimp only
  rw [if_neg (by rw [h3, h5, h6]; simp [h4, h7])]
  have KE := fun z => recvEnd_keeps (Has.refl _) c n cid (Keeps.refl _ z)
  obtain ⟨a1, a2, a3, a4⟩ := markAbsents_does c n cid (openXfers r) s (r.xfers.map fun x => (x.idx, x.closed || x.absent)) (by unfold pairsOf; rw [h2]; rfl) (fun i hi => by
    unfold openXfers at hi
    obtain ⟨x, hx, e⟩ := List.mem_map.1 hi
    exact ⟨x.closed || x.absent, List.mem_map.2 ⟨x, (List.mem_filter.1 hx).1, by rw [e]⟩⟩)
  unfold pairsOf at a4
  cases hq : recvOf (markAbsents c n cid (openXfers r) s) c n cid with
  | none => rw [hq] at a4; cases a4
  | some q =>
    rw [hq] at a4
    simp only [Option.map_some, Option.some.injEq] at a4
    obtain ⟨p, e3, e4⟩ := recvOf_recvEnd hq
    refine ⟨((KE _).getFk reg_COLL_ABSENT_SRC (by decide) 0 0).trans a1, evtSet_keptR (KE _) reg_pendFld8 (by decide) rfl (a2 h7),
      ((KE _).getFk reg_COLL_LAST_ABSENT_COLL_ID (by decide) 0 0).trans a3, p, e3, fun x hx => ?_⟩
    rw [e4] at hx
    have hm : (x.idx, x.closed || x.absent) ∈ q.xfers.map fun x => (x.idx, x.closed || x.absent) := List.mem_map.2 ⟨x, hx, rfl⟩
    rw [a4] at hm
    obtain ⟨e, he, hv⟩ := List.mem_map.1 hm
    obtain ⟨y, hy, ye⟩ := List.mem_map.1 he
    by_cases hi : e.1 ∈ openXfers r
    · rw [if_pos hi] at hv
      have := (Prod.mk.inj hv).2
      simpa using this.symm
    · rw [if_neg hi] at hv
      have h1 : (y.closed || y.absent) = true := by
        cases hc : (y.closed || y.absent) with
        | true => rfl
        | false =>
          exfalso
          apply hi
          rw [← ye]
          unfold openXfers
          refine List.mem_map.2 ⟨y, List.mem_filter.2 ⟨hy, ?_⟩, rfl⟩
          simp only [Bool.or_eq_false_iff] at hc
          simp [hc]
      have h2 : (x.closed || x.absent) = true := by
        rw [← ye] at hv
        rw [← (Prod.mk.inj hv).2]; exact h1
      simpa using h2

theorem sends_modRecv (c n cid : Nat) (f : Recv → Recv) (s : State) (k : Nat) : (ctxOf (modRecv c n cid f s) k).coll.sends = (ctxOf s k).coll.sends := by
  unfold modRecv modColl
  by_cases h : c = k
  · subst h; rw [ctxOf_modCtx_self]
  · rw [ctxOf_modCtx_ne (s := s) h]

theorem sends_sendDone (c : Nat) (r : Recv) (x : Xfer) (s : State) (k : Nat) : (ctxOf (sendDone c r x s) k).coll.sends = (ctxOf s k).coll.sends := by
  unfold sendDone
  split
  · exact sends_modRecv ..
  · rw [ctxOf_kept (sendMark_keeps (Has.refl _) _ _ _ _ _ _ (Keeps.refl _ _)) (by decide)]
    exact sends_modRecv ..

theorem sends_sendDues (c k : Nat) : ∀ (l : List (Recv × Xfer)) (s : State), (ctxOf (sendDues c l s) k).coll.sends = (ctxOf s k).coll.sends
  | [], _ => rfl
  | (r, x) :: l, s => by unfold sendDues; rw [sends_sendDues c k l, sends_sendDone]

/-- A SEND is retried towards each peer without DONE. -/
theorem retryPeers_count (c : Nat) (x : Send) : ∀ (l : List (Nat × Nat × Bool)) (s : State),
    getF (retryPeers c x l s) COLL_RETRY_XFER 0 = (getF s COLL_RETRY_XFER 0 + (l.filter fun e => !e.2.2).length) % 2 ^ 32
  | [], s => (Nat.mod_eq_of_lt (getF_lt32 ..)).symm
  | (a, b, true) :: l, s => by
    unfold retryPeers
    rw [retryPeers_count c x l s, List.filter_cons, if_neg (by simp)]
  | (a, b, false) :: l, s => by
    unfold retryPeers
    dsimp only
    rw [retryPeers_count c x l, getF_setEvt_apart (by decide), getF_incr_self _ _ _ (by decide), List.filter_cons, if_pos (show (!(a, b, false).2.2) = true from rfl), List.length_cons, Nat.mod_add_mod]
    have e : ∀ z, z = (if kRelease x.desc then sendMark c a x.cid x.step 0xFFFE (kBudget x.desc) s
      else resendTurns c x.desc a b ((List.range (kTurns x.desc)).filter fun t => !x.left.contains (b * 65536 + t)) s) → getF z COLL_RETRY_XFER 0 = getF s COLL_RETRY_XFER 0 := fun z hz => by
      rw [hz]
      split
      · exact (sendMark_keeps (Has.refl _) _ _ _ _ _ _ (Keeps.refl _ s)).getFk reg_COLL_RETRY_XFER (by decide) 0 0
      · exact (resendTurns_keeps (Has.refl _) _ _ _ _ _ (Keeps.refl _ s)).getFk reg_COLL_RETRY_XFER (by decide) 0 0
    rw [e _ rfl]
    congr 1
    omega

theorem retrySends_count (c : Nat) : ∀ (l : List Send) (s : State),
    getF (retrySends c l s) COLL_RETRY_XFER 0 = (getF s COLL_RETRY_XFER 0 + (l.flatMap fun x => x.peers.filter fun e => !e.2.2).length) % 2 ^ 32
  | [], s => (Nat.mod_eq_of_lt (getF_lt32 ..)).symm
  | x :: l, s => by
    unfold retrySends
    rw [retrySends_count c l, retryPeers_count, Nat.mod_add_mod, List.flatMap_cons, List.length_append]
    congr 1
    omega

theorem unpause_count (c : Nat) (s : State) :
    getF (unpause c s) COLL_RETRY_XFER 0 = (getF s COLL_RETRY_XFER 0 + ((ctxOf s c).coll.sends.flatMap fun x => x.peers.filter fun e => !e.2.2).length) % 2 ^ 32 ∧
      ∀ k, (ctxOf (unpause c s) k).coll.sends = (ctxOf s k).coll.sends := by
  unfold unpause
  refine ⟨?_, fun k => ?_⟩
  · rw [retrySends_count, show getF (sendDues c (duesOf s c) s) COLL_RETRY_XFER 0 = getF s COLL_RETRY_XFER 0 from
      (sendDues_keeps (Has.refl _) c _ (Keeps.refl _ s)).getFk reg_COLL_RETRY_XFER (by decide) 0 0]
  · rw [ctxOf_kept (retrySends_keeps (Has.refl _) c _ (Keeps.refl _ _)) (by decide), sends_sendDues]

theorem unpauses_count (old v : Nat) : ∀ (n : Nat) (s : State),
    getF (unpauses old v n s) COLL_RETRY_XFER 0 = (getF s COLL_RETRY_XFER 0 + (((List.range n).filter fun c => old.testBit c && !v.testBit c).flatMap fun c =>
      (ctxOf s c).coll.sends.flatMap fun x => x.peers.filter fun e => !e.2.2).length) % 2 ^ 32 ∧ ∀ k, (ctxOf (unpauses old v n s) k).coll.sends = (ctxOf s k).coll.sends
  | 0, s => ⟨(Nat.mod_eq_of_lt (getF_lt32 ..)).symm, fun _ => rfl⟩
  | n + 1, s => by
    obtain ⟨i1, i2⟩ := unpauses_count old v n s
    unfold unpauses
    dsimp only
    rw [List.range_succ, List.filter_append, List.flatMap_append, List.length_append]
    by_cases h : (old.testBit n && !v.testBit n) = true
    · obtain ⟨u1, u2⟩ := unpause_count n (unpauses old v n s)
      rw [if_pos h]
      refine ⟨?_, fun k => (u2 k).trans (i2 k)⟩
      rw [u1, i1, i2, Nat.mod_add_mod, List.filter_cons, if_pos h, List.filter_nil, List.flatMap_cons, List.flatMap_nil, List.append_nil]
      congr 1
      omega
    · rw [if_neg h]
      refine ⟨?_, i2⟩
      rw [i1, List.filter_cons, if_neg h, List.filter_nil, List.flatMap_nil, List.length_nil, Nat.add_zero]

theorem ctxPause_effect (r : Requester) (a v i : Nat) (s : State) (h1 : a % 4 = 0) (h2 : target s r a = some (8, i, 0x280)) (h3 : gate s r 8 i 0x280 = .pass) :
    getF (ctxPause r a v s) COLL_CTX_PAUSE 0 = v % 2 ^ 16 ∧ getF (ctxPause r a v s) COLL_RETRY_XFER 0 = (getF s COLL_RETRY_XFER 0 + (((List.range 16).filter fun c => (getF s COLL_CTX_PAUSE 0).testBit c && !(v % 65536).testBit c).flatMap fun c => (ctxOf s c).coll.sends.flatMap fun x => x.peers.filter fun e => !e.2.2).length) % 2 ^ 32 := by
  unfold ctxPause
  rw [if_pos h1, guarded_pass h2 h3, if_pos ⟨rfl, rfl⟩]
  refine ⟨?_, ?_⟩
  · refine ((unpauses_keeps (Has.refl _) _ _ 16 (Keeps.refl _ _)).getFk reg_COLL_CTX_PAUSE (by decide) 0 0).trans ?_
    show getF (setF COLL_CTX_PAUSE 0 (v % 65536) s) COLL_CTX_PAUSE 0 = _
    rw [getF_setF_self _ _ _ _ (by decide)]
    exact Nat.mod_mod ..
  · rw [(unpauses_count _ _ 16 _).1, getF_setF_apart (by decide)]
    rfl

theorem degradeOther_effect (h : Nat) (s : State) (h1 : stopped s = false) (h2 : cmdReady s h 0x41 = true) (h3 : degEntry s (bits (argOf (entryOf s h) 0) 0 9) = none) :
    (running s (degrade h s)).reports = s.reports ++ [{ handle := h, status := 0 }] := by
  rw [running_eq _ h1]
  unfold degrade
  rw [runCmd_ready h2]
  dsimp only
  rw [show degEntry (modSlot (hCtx h) (hSlot h) (fun x => { x with running := true }) s) (bits (argOf (entryOf s h) 0) 0 9) = degEntry s (bits (argOf (entryOf s h) 0) 0 9) from rfl, h3]
  dsimp only
  rfl

theorem degradeClear_effect (h k : Nat) (s : State) (h1 : stopped s = false) (h2 : cmdReady s h 0x41 = true) (h3 : degEntry s (bits (argOf (entryOf s h) 0) 0 9) = some k) (h4 : bit (argOf (entryOf s h) 0) 12 = true) (h5 : isF s (degFlds k).1 0 = true) :
    (running s (degrade h s)).degClear = s.degClear ++ [(k, h)] ∧ (running s (degrade h s)).degSet = s.degSet.filter (fun e => !((e == 0 && k == 0) || (e == 1 && k != 0 && (bits (argOf (entryOf s h) 0) 0 9) == ownBoard s ^^^ 1))) ∧ (running s (degrade h s)).reports = s.reports := by
  rw [running_eq _ h1]
  unfold degrade
  rw [runCmd_ready h2]
  dsimp only
  rw [show degEntry (modSlot (hCtx h) (hSlot h) (fun x => { x with running := true }) s) (bits (argOf (entryOf s h) 0) 0 9) = degEntry s (bits (argOf (entryOf s h) 0) 0 9) from rfl, h3]
  dsimp only
  rw [h4, if_pos rfl, show isF (modSlot (hCtx h) (hSlot h) (fun x => { x with running := true }) s) (degFlds k).1 0 = isF s (degFlds k).1 0 from rfl, h5, if_pos rfl]
  exact ⟨rfl, rfl, rfl⟩

theorem lossRecv_evt {e : Evt} (hp : e.page = 8) (hb : e.bit < 32) (c k : Nat) (r : Recv) (s : State) (h : evtSet s e 0 = true) : evtSet (lossRecv c k r s) e 0 = true := by
  have E : ∀ z, evtSet z e 0 = true → evtSet (recvEnd c r.step r.cid z) e 0 = true := fun z hz =>
    evtSet_keptR (recvEnd_keeps (Has.refl _) c r.step r.cid (Keeps.refl _ z)) reg_pendFld8 (by decide) hp hz
  unfold lossRecv
  split
  · exact h
  · split
    · exact E _ (markAbsents_evt hp hb _ _ _ _ _ h)
    · split
      · refine E _ ?_
        rw [evtSet_modXfer]
        exact h
      · exact h

theorem lossRecvs_evt {e : Evt} (hp : e.page = 8) (hb : e.bit < 32) (c k : Nat) : ∀ (l : List Recv) (s : State), evtSet s e 0 = true → evtSet (lossRecvs c k l s) e 0 = true
  | [], _, h => h
  | r :: l, s, h => by
    unfold lossRecvs
    exact lossRecvs_evt hp hb c k l _ (lossRecv_evt hp hb c k r s h)

theorem lossActs_evt {e : Evt} (hp : e.page = 8) (hb : e.bit < 32) (k : Nat) : ∀ (n : Nat) (s : State), evtSet s e 0 = true → evtSet (lossActs k n s) e 0 = true
  | 0, _, h => h
  | n + 1, s, h => by
    have ih := lossActs_evt hp hb k n s h
    unfold lossActs
    dsimp only
    split
    · exact evtSet_keptR (lossSends_keeps (Has.refl _) n _ _ (Keeps.refl _ _)) reg_pendFld8 (by decide) hp (lossRecvs_evt hp hb n k _ _ ih)
    · exact ih

/-- What a record of a loss leaves, of the state with its two fields and its event. -/
theorem degLost_does (pos : Nat) (z : State) (h3 : evtSet z COLL_EV_DEGRADED 0 = true) (c : State → Bool) (l : State → List Nat) :
    getF (if c (lossActs pos 16 z) then { lossActs pos 16 z with degSet := l (lossActs pos 16 z) } else lossActs pos 16 z) COLL_DEGRADE_ACTIVE 0 = getF z COLL_DEGRADE_ACTIVE 0 ∧
    getF (if c (lossActs pos 16 z) then { lossActs pos 16 z with degSet := l (lossActs pos 16 z) } else lossActs pos 16 z) COLL_DEGRADE_LOST_POS 0 = getF z COLL_DEGRADE_LOST_POS 0 ∧
    evtSet (if c (lossActs pos 16 z) then { lossActs pos 16 z with degSet := l (lossActs pos 16 z) } else lossActs pos 16 z) COLL_EV_DEGRADED 0 = true ∧
    (if c (lossActs pos 16 z) then { lossActs pos 16 z with degSet := l (lossActs pos 16 z) } else lossActs pos 16 z).reports = z.reports := by
  have K := lossActs_keeps (Has.refl _) pos 16 (Keeps.refl _ z)
  have a1 : getF (lossActs pos 16 z) COLL_DEGRADE_ACTIVE 0 = getF z COLL_DEGRADE_ACTIVE 0 := K.getFk reg_COLL_DEGRADE_ACTIVE (by decide) 0 0
  have a2 : getF (lossActs pos 16 z) COLL_DEGRADE_LOST_POS 0 = getF z COLL_DEGRADE_LOST_POS 0 := K.getFk reg_COLL_DEGRADE_LOST_POS (by decide) 0 0
  have a3 := lossActs_evt (e := COLL_EV_DEGRADED) rfl (by decide) pos 16 z h3
  have a4 : (lossActs pos 16 z).reports = z.reports := K.reports (by decide)
  generalize lossActs pos 16 z = y at *
  split
  · exact ⟨a1, a2, a3, a4⟩
  · exact ⟨a1, a2, a3, a4⟩

theorem degTwin_does (f : Fld) (r : Nat) (hf : IsReg f r) (hr : Nat.testBit 0x10f01000000040002000000000080000000000000004c048fc4000800000642000e1128000000189018000a97810c r = false) (z : State) (h3 : evtSet z COLL_EV_DEGRADED 0 = true) (c : Prop) [Decidable c] :
    getF (if c then twinGone z else z) f 0 = getF z f 0 ∧ evtSet (if c then twinGone z else z) COLL_EV_DEGRADED 0 = true ∧ (if c then twinGone z else z).reports = z.reports := by
  split
  · have K := twinGone_keeps (Has.refl _) (Keeps.refl _ z)
    exact ⟨K.getFk hf hr 0 0, evtSet_keptR K reg_pendFld8 (by decide) rfl h3, K.reports (by decide)⟩
  · exact ⟨rfl, h3, rfl⟩

theorem reports_setEvt2 (e : Evt) (i : Nat) (f g : Fld) (a b v w : Nat) (s : State) : (setEvt e i (setF f a v (setF g b w s))).reports = s.reports := by simp

/-- A loss that is recorded. -/
theorem degRecord_does {s : State} {k board pos : Nat} (hk : k = 0 ∨ k = 1 ∨ k = 2) (h : isF s (degFlds k).1 0 = false) :
    getF (degRecord k board pos s) (degFlds k).1 0 = 1 ∧ getF (degRecord k board pos s) (degFlds k).2 0 = pos % 2 ^ 3 ∧
      evtSet (degRecord k board pos s) COLL_EV_DEGRADED 0 = true ∧ (degRecord k board pos s).reports = s.reports := by
  have b1 : getF (setEvt COLL_EV_DEGRADED 0 (setF (degFlds k).2 0 pos (setF (degFlds k).1 0 1 s))) (degFlds k).1 0 = 1 := by
    rcases hk with rfl | rfl | rfl <;> (dsimp only [degFlds]; rw [getF_setEvt_apart (by decide), getF_setF_apart (by decide), getF_setF_self _ _ _ _ (by decide)]; decide)
  have b2 : getF (setEvt COLL_EV_DEGRADED 0 (setF (degFlds k).2 0 pos (setF (degFlds k).1 0 1 s))) (degFlds k).2 0 = pos % 2 ^ 3 := by
    rcases hk with rfl | rfl | rfl <;> (dsimp only [degFlds]; rw [getF_setEvt_apart (by decide), getF_setF_self _ _ _ _ (by decide)]; all_goals rfl)
  have b3 : evtSet (setEvt COLL_EV_DEGRADED 0 (setF (degFlds k).2 0 pos (setF (degFlds k).1 0 1 s))) COLL_EV_DEGRADED 0 = true := evtSet_setEvt (by decide) _ _
  have b4 := reports_setEvt2 COLL_EV_DEGRADED 0 (degFlds k).2 (degFlds k).1 0 0 pos 1 s
  unfold degRecord
  dsimp only
  rw [h, if_neg (by decide)]
  generalize setEvt COLL_EV_DEGRADED 0 (setF (degFlds k).2 0 pos (setF (degFlds k).1 0 1 s)) = z at *
  rcases hk with rfl | rfl | rfl
  · rw [if_pos rfl]
    obtain ⟨c1, c2, c3, c4⟩ := degLost_does pos z b3 (fun y => decide ((pos + 1) % 8 = ownPos y)) (fun y => y.degSet ++ [0])
    simp only [decide_eq_true_eq] at c1 c2 c3 c4
    exact ⟨c1.trans b1, c2.trans b2, c3, c4.trans b4⟩
  · rw [if_neg (by decide)]
    obtain ⟨c1, c3, c4⟩ := degTwin_does _ _ reg_COLL_DEGRADE_PREV_ACTIVE (by decide) z b3 (board = ownBoard z ^^^ 1 ∧ pos = ownPos z)
    obtain ⟨c2, _, _⟩ := degTwin_does _ _ reg_COLL_DEGRADE_PREV_POS (by decide) z b3 (board = ownBoard z ^^^ 1 ∧ pos = ownPos z)
    exact ⟨c1.trans b1, c2.trans b2, c3, c4.trans b4⟩
  · rw [if_neg (by decide)]
    obtain ⟨c1, c3, c4⟩ := degTwin_does _ _ reg_COLL_DEGRADE_NEXT_ACTIVE (by decide) z b3 (board = ownBoard z ^^^ 1 ∧ pos = ownPos z)
    obtain ⟨c2, _, _⟩ := degTwin_does _ _ reg_COLL_DEGRADE_NEXT_POS (by decide) z b3 (board = ownBoard z ^^^ 1 ∧ pos = ownPos z)
    exact ⟨c1.trans b1, c2.trans b2, c3, c4.trans b4⟩

theorem degradeRecord_effect (h k : Nat) (s : State) (h1 : stopped s = false) (h2 : cmdReady s h 0x41 = true) (h3 : degEntry s (bits (argOf (entryOf s h) 0) 0 9) = some k) (h4 : bit (argOf (entryOf s h) 0) 12 = false) (h5 : isF s (degFlds k).1 0 = false) :
    getF (running s (degrade h s)) (degFlds k).1 0 = 1 ∧ getF (running s (degrade h s)) (degFlds k).2 0 = bits (argOf (entryOf s h) 0) 9 3 ∧ evtSet (running s (degrade h s)) COLL_EV_DEGRADED 0 = true ∧ (running s (degrade h s)).reports = s.reports ++ [{ handle := h, status := 0 }] := by
  rw [running_eq _ h1]
  unfold degrade
  rw [runCmd_ready h2]
  dsimp only
  rw [show degEntry (modSlot (hCtx h) (hSlot h) (fun x => { x with running := true }) s) (bits (argOf (entryOf s h) 0) 0 9) = degEntry s (bits (argOf (entryOf s h) 0) 0 9) from rfl, h3]
  dsimp only
  rw [h4, if_neg (by decide)]
  have hk : k = 0 ∨ k = 1 ∨ k = 2 := by
    unfold degEntry at h3
    repeat' (split at h3 <;> try (cases h3; omega))
    cases h3
  obtain ⟨r1, r2, r3, r4⟩ := degRecord_does hk (board := bits (argOf (entryOf s h) 0) 0 9) (pos := bits (argOf (entryOf s h) 0) 9 3) (show isF (modSlot (hCtx h) (hSlot h) (fun x => { x with running := true }) s) (degFlds k).1 0 = false from h5)
  refine ⟨r1, r2.trans (Nat.mod_eq_of_lt (Nat.mod_lt _ (by decide))), r3, ?_⟩
  show (degRecord _ _ _ _).reports ++ _ = _
  rw [r4]
  rfl

theorem topoOpen_effect (h : Nat) (s : State) (h1 : isAwake s = true) (h2 : cmdReady s h 0x40 = true) (h3 : stepIsOpen s (argOf (entryOf s h) 0 % 16) = true) :
    (awake s (topoLoad h s)).reports = s.reports ++ [{ handle := h, status := 0x08 }] := by
  rw [awake_eq _ h1]
  unfold topoLoad
  rw [runCmd_ready h2]
  dsimp only
  rw [stepIsOpen_modSlot, h3, if_pos rfl]
  rfl

theorem leVal_lt : ∀ l : List Byte, leVal l < 256 ^ l.length
  | [] => by decide
  | b :: l => by
    have := leVal_lt l
    have hb := b.isLt
    unfold leVal
    rw [List.length_cons, Nat.pow_succ]
    omega

theorem pay_lt (l : List Byte) (o : Nat) : pay l o 4 < 2 ^ 32 := by
  unfold pay
  refine Nat.lt_of_lt_of_le (leVal_lt _) ?_
  exact Nat.le_trans (Nat.pow_le_pow_right (by decide) (List.length_take_le 4 _)) (by decide)

theorem chunks_length {α : Type} (n : Nat) : ∀ (k : Nat) (l : List α), (chunks n k l).length ≤ k
  | 0, _ => Nat.le_refl _
  | k + 1, l => by
    unfold chunks
    split
    · exact Nat.zero_le _
    · rw [List.length_cons]; exact Nat.succ_le_succ (chunks_length n k _)

theorem topo_modSlot (c n : Nat) (f : Slot → Slot) (s : State) (k : Nat) : (ctxOf (modSlot c n f s) k).topo = (ctxOf s k).topo := by
  unfold modSlot modCtx ctxOf
  dsimp only
  by_cases h : c = k
  · subst h; rw [Store.get_upd_self]
  · rw [Store.get_upd_ne h]

theorem topoConflict_modSlot (c n : Nat) (f : Slot → Slot) (s : State) (k : Nat) (bs : List Byte) : topoConflict (modSlot c n f s) k bs = topoConflict s k bs := by
  unfold topoConflict
  dsimp only
  rw [show (fun j => j != k && (ctxOf (modSlot c n f s) j).topo) = fun j => j != k && (ctxOf s j).topo from funext fun j => by rw [topo_modSlot]]
  rfl

theorem topo_loaded (h c : Nat) (z : State) : (ctxOf (report h 0 0 0 (modCtx c (fun x => { x with topo := true }) z)) c).topo = true := by
  show (ctxOf (modCtx c (fun x : Ctx => { x with topo := true }) z) c).topo = true
  rw [ctxOf_modCtx_self]

theorem topo_regs (h c : Nat) (z : State) : (report h 0 0 0 (modCtx c (fun x => { x with topo := true }) z)).regs = z.regs := rfl

theorem topo_getF (h c : Nat) (z : State) (g : Fld) (i : Nat) : getF (report h 0 0 0 (modCtx c (fun x => { x with topo := true }) z)) g i = getF z g i := by
  unfold getF getFk; rw [topo_regs]

theorem topoPeerSame_congr {s t : State} (h : t.regs = s.regs) (p : Nat) (e : List Byte) : topoPeerSame t p e = topoPeerSame s p e := by
  unfold topoPeerSame getF getFk; rw [h]

/-- A context's fresh streams leave the table alone. -/
theorem topoPeerSame_freshStreams (c p : Nat) (e : List Byte) (s : State) : topoPeerSame (freshStreams c s) p e = topoPeerSame s p e := by
  have K := freshStreams_keeps (Has.refl _) c (Keeps.refl _ s)
  unfold topoPeerSame getF
  dsimp only
  rw [K.getFk reg_LINK_TOPO_SER_LO (by decide), K.getFk reg_LINK_TOPO_SER_HI (by decide), K.getFk reg_LINK_TOPO_PEER_BOARD (by decide),
    K.getFk reg_LINK_TOPO_PEER_POS (by decide), K.getFk reg_LINK_TOPO_PEER_PORT (by decide)]

/-- What a port's entry leaves alone. -/
theorem getF_leaveOff {g : Fld} (r : Nat) (hg : IsReg g r) (hr : Nat.testBit 0x200000000000000000000000000000000000000000000000000000000000000000 r = false) (p : Nat) (s : State) (i : Nat) : getF (leaveOff p s) g i = getF s g i :=
  (leaveOff_keeps (Has.refl _) p (Keeps.refl _ s)).getFk hg hr i 0

/-- The registers that an entry writes before its port leaves OFF. -/
theorem setTopo_eq (p : Nat) (e : List Byte) (s : State) : ∃ x, (∀ {g : Fld}, (∀ v z, getF (setF LINK_TOPO_PEER_ROLE p v z) g p = getF z g p) → getF x g p = getF (setF LINK_TOPO_SER_LO p (pay e 0 4) (setF LINK_TOPO_SER_HI p (pay e 4 4) s)) g p) ∧
    getF x LINK_TOPO_PEER_ROLE p = (if roleTaken p e then topoRole e else getF s LINK_TOPO_PEER_ROLE p) ∧
    (∀ {q : Nat} {g : Fld}, p % 1024 ≠ q % 1024 → getF x g q = getF s g q) ∧
    setTopo p e s = leaveOff p (setF LINK_TOPO_PEER_BOARD p (bits (pay e 8 4) LINK_TOPO_PEER_BOARD.lo LINK_TOPO_PEER_BOARD.w) (setF LINK_TOPO_PEER_POS p (bits (pay e 8 4) LINK_TOPO_PEER_POS.lo LINK_TOPO_PEER_POS.w)
      (setF LINK_TOPO_PEER_PORT p (bits (pay e 8 4) LINK_TOPO_PEER_PORT.lo LINK_TOPO_PEER_PORT.w) x))) := by
  refine ⟨_, ?_, ?_, ?_, rfl⟩
  · intro g hg
    split
    · rw [hg]
    · rfl
  · split
    · rw [getF_setF_self _ _ _ _ (by decide)]
      exact Nat.mod_mod ..
    · rw [getF_setF_apart (by decide), getF_setF_apart (by decide)]
  · intro q g hq
    split
    · rw [getF_setF_inst hq, getF_setF_inst hq, getF_setF_inst hq]
    · rw [getF_setF_inst hq, getF_setF_inst hq]

theorem topoSame_setTopo (p : Nat) (e : List Byte) (s : State) :
    topoPeerSame (setTopo p e s) p e = true ∧ getF (setTopo p e s) LINK_TOPO_PEER_ROLE p = if roleTaken p e then topoRole e else getF s LINK_TOPO_PEER_ROLE p := by
  obtain ⟨x, x1, x2, _, hx⟩ := setTopo_eq p e s
  rw [hx]
  have m : ∀ lo w, bits (pay e 8 4) lo w % 2 ^ w = bits (pay e 8 4) lo w := fun lo w => Nat.mod_mod ..
  refine ⟨?_, ?_⟩
  · unfold topoPeerSame
    dsimp only
    rw [getF_leaveOff _ reg_LINK_TOPO_SER_LO (by decide), getF_leaveOff _ reg_LINK_TOPO_SER_HI (by decide), getF_leaveOff _ reg_LINK_TOPO_PEER_BOARD (by decide),
      getF_leaveOff _ reg_LINK_TOPO_PEER_POS (by decide), getF_leaveOff _ reg_LINK_TOPO_PEER_PORT (by decide)]
    rw [getF_setF_apart (f := LINK_TOPO_PEER_BOARD) (g := LINK_TOPO_SER_LO) (by decide), getF_setF_apart (f := LINK_TOPO_PEER_POS) (g := LINK_TOPO_SER_LO) (by decide), getF_setF_apart (f := LINK_TOPO_PEER_PORT) (g := LINK_TOPO_SER_LO) (by decide),
      getF_setF_apart (f := LINK_TOPO_PEER_BOARD) (g := LINK_TOPO_SER_HI) (by decide), getF_setF_apart (f := LINK_TOPO_PEER_POS) (g := LINK_TOPO_SER_HI) (by decide), getF_setF_apart (f := LINK_TOPO_PEER_PORT) (g := LINK_TOPO_SER_HI) (by decide),
      x1 (g := LINK_TOPO_SER_LO) (fun v z => getF_setF_apart (by decide) p p v z), x1 (g := LINK_TOPO_SER_HI) (fun v z => getF_setF_apart (by decide) p p v z),
      getF_setF_self LINK_TOPO_SER_LO _ _ _ (by decide), getF_setF_apart (f := LINK_TOPO_SER_LO) (g := LINK_TOPO_SER_HI) (by decide), getF_setF_self LINK_TOPO_SER_HI _ _ _ (by decide),
      getF_setF_self LINK_TOPO_PEER_BOARD _ _ _ (by decide), getF_setF_apart (f := LINK_TOPO_PEER_BOARD) (g := LINK_TOPO_PEER_POS) (by decide), getF_setF_self LINK_TOPO_PEER_POS _ _ _ (by decide),
      getF_setF_apart (f := LINK_TOPO_PEER_BOARD) (g := LINK_TOPO_PEER_PORT) (by decide), getF_setF_apart (f := LINK_TOPO_PEER_POS) (g := LINK_TOPO_PEER_PORT) (by decide), getF_setF_self LINK_TOPO_PEER_PORT _ _ _ (by decide),
      m, m, m, show pay e 0 4 % 2 ^ LINK_TOPO_SER_LO.w = pay e 0 4 from Nat.mod_eq_of_lt (pay_lt e 0), show pay e 4 4 % 2 ^ LINK_TOPO_SER_HI.w = pay e 4 4 from Nat.mod_eq_of_lt (pay_lt e 4)]
    simp only [beq_self_eq_true, Bool.and_self]
  · rw [getF_leaveOff _ reg_LINK_TOPO_PEER_ROLE (by decide), getF_setF_apart (by decide), getF_setF_apart (by decide), getF_setF_apart (by decide), x2]

theorem getF_setTopo_ne {p q : Nat} (h : p % 1024 ≠ q % 1024) (e : List Byte) (s : State) {g : Fld} (r : Nat) (hg : IsReg g r) (hr : Nat.testBit 0x200000000000000000000000000000000000000000000000000000000000000000 r = false) :
    getF (setTopo p e s) g q = getF s g q := by
  obtain ⟨x, _, _, x3, hx⟩ := setTopo_eq p e s
  rw [hx, getF_leaveOff r hg hr, getF_setF_inst h, getF_setF_inst h, getF_setF_inst h, x3 h]

theorem topoSame_setTopo_ne {p q : Nat} (h : p % 1024 ≠ q % 1024) (e d : List Byte) (s : State) :
    topoPeerSame (setTopo p e s) q d = topoPeerSame s q d ∧ getF (setTopo p e s) LINK_TOPO_PEER_ROLE q = getF s LINK_TOPO_PEER_ROLE q := by
  refine ⟨?_, getF_setTopo_ne h e s _ reg_LINK_TOPO_PEER_ROLE (by decide)⟩
  unfold topoPeerSame
  dsimp only
  rw [getF_setTopo_ne h e s _ reg_LINK_TOPO_SER_LO (by decide), getF_setTopo_ne h e s _ reg_LINK_TOPO_SER_HI (by decide), getF_setTopo_ne h e s _ reg_LINK_TOPO_PEER_BOARD (by decide),
    getF_setTopo_ne h e s _ reg_LINK_TOPO_PEER_POS (by decide), getF_setTopo_ne h e s _ reg_LINK_TOPO_PEER_PORT (by decide)]

theorem topoSame_setTopos_lt : ∀ (es : List (List Byte)) (p q : Nat) (s : State) (d : List Byte), q < p → p + es.length ≤ 1024 →
    topoPeerSame (setTopos p es s) q d = topoPeerSame s q d ∧ getF (setTopos p es s) LINK_TOPO_PEER_ROLE q = getF s LINK_TOPO_PEER_ROLE q
  | [], _, _, _, _, _, _ => ⟨rfl, rfl⟩
  | e :: es, p, q, s, d, h, hb => by
    rw [List.length_cons] at hb
    unfold setTopos
    obtain ⟨a, b⟩ := topoSame_setTopos_lt es (p + 1) q (setTopo p e s) d (by omega) (by omega)
    obtain ⟨a', b'⟩ := topoSame_setTopo_ne (p := p) (q := q) (by omega) e d s
    exact ⟨a.trans a', b.trans b'⟩

/-- The registers of every port hold its entry once the table is written, but for a ROLE that the port does not take. -/
theorem setTopos_same : ∀ (es : List (List Byte)) (p : Nat) (s : State), p + es.length ≤ 1024 → ∀ k e, es[k]? = some e →
    topoPeerSame (setTopos p es s) (p + k) e = true ∧ getF (setTopos p es s) LINK_TOPO_PEER_ROLE (p + k) = if roleTaken (p + k) e then topoRole e else getF s LINK_TOPO_PEER_ROLE (p + k)
  | [], _, _, _, _, _, h => by simp at h
  | e :: es, p, s, hb, 0, d, h => by
    rw [List.length_cons] at hb
    simp only [List.getElem?_cons_zero, Option.some.injEq] at h
    subst h
    rw [Nat.add_zero]
    unfold setTopos
    obtain ⟨a, b⟩ := topoSame_setTopos_lt es (p + 1) p (setTopo p e s) e (by omega) (by omega)
    obtain ⟨a', b'⟩ := topoSame_setTopo p e s
    exact ⟨a.trans a', b.trans b'⟩
  | e :: es, p, s, hb, k + 1, d, h => by
    rw [List.length_cons] at hb
    rw [List.getElem?_cons_succ] at h
    have hk : k < es.length := (List.getElem?_eq_some_iff.1 h).1
    unfold setTopos
    have := setTopos_same es (p + 1) (setTopo p e s) (by omega) k d h
    rw [(topoSame_setTopo_ne (p := p) (q := p + 1 + k) (by omega) e d s).2] at this
    rw [show p + (k + 1) = p + 1 + k by omega]
    exact this

theorem topoLoad_effect (h : Nat) (bs : List Byte) (s : State) (h1 : isAwake s = true) (h2 : cmdReady s h 0x40 = true) (h3 : stepIsOpen s (argOf (entryOf s h) 0 % 16) = false) (h4 : engRead 0 5 (argOf (entryOf s h) 1) 400 s = (.data bs, s)) (h5 : noWeak s = true) :
    if topoConflict s (argOf (entryOf s h) 0 % 16) bs then (awake s (topoLoad h s)).reports = s.reports ++ [{ handle := h, status := 0x0F }] else (awake s (topoLoad h s)).reports = s.reports ++ [{ handle := h, status := 0 }] ∧ (ctxOf (awake s (topoLoad h s)) (argOf (entryOf s h) 0 % 16)).topo = true ∧ getF (awake s (topoLoad h s)) LINK_SELF_BOARD 0 = bits (pay bs 0 2) 0 9 ∧ ∀ p e, (chunks 16 24 (bs.drop 16))[p]? = some e → topoPeerSame (awake s (topoLoad h s)) p e = true ∧ getF (awake s (topoLoad h s)) LINK_TOPO_PEER_ROLE p = if roleTaken p e then topoRole e else getF s LINK_TOPO_PEER_ROLE p := by
  rw [awake_eq _ h1]
  unfold topoLoad
  rw [runCmd_ready h2]
  generalize hs : entryOf s h = e at *
  dsimp only
  rw [stepIsOpen_modSlot, h3, if_neg (show ¬ (false = true) by decide)]
  unfold cmdRead
  rw [((modSlot_keeps (Has.refl _) (hCtx h) (hSlot h) _ (Keeps.refl _ s)).alike (by decide)).engRead_data h5 h4]
  dsimp only
  rw [topoConflict_modSlot]
  generalize hx : modSlot (hCtx h) (hSlot h) (fun x => { x with running := true }) s = x
  have xr : x.reports = s.reports := by rw [← hx]; rfl
  have xo : ∀ p, getF x LINK_TOPO_PEER_ROLE p = getF s LINK_TOPO_PEER_ROLE p := fun p => by rw [← hx]; rfl
  clear hx
  by_cases hc : topoConflict s (argOf e 0 % 16) bs = true
  · rw [if_pos hc, if_pos hc]
    show (report h 0x0F 0 0 x).reports = _
    unfold report
    rw [xr]
  · rw [if_neg hc, if_neg hc]
    have K := setTopos_keeps (Has.refl _) 0 (chunks 16 24 (bs.drop 16)) (Keeps.refl _ (setF LINK_SELF_BOARD 0 (bits (pay bs 0 2) 0 9) x))
    have b1 : getF (setTopos 0 (chunks 16 24 (bs.drop 16)) (setF LINK_SELF_BOARD 0 (bits (pay bs 0 2) 0 9) x)) LINK_SELF_BOARD 0 = bits (pay bs 0 2) 0 9 := by
      refine (K.getFk reg_LINK_SELF_BOARD (by decide) 0 0).trans ?_
      show getF _ LINK_SELF_BOARD 0 = _
      rw [getF_setF_self _ _ _ _ (by decide)]
      exact Nat.mod_mod ..
    have b2 : (setTopos 0 (chunks 16 24 (bs.drop 16)) (setF LINK_SELF_BOARD 0 (bits (pay bs 0 2) 0 9) x)).reports = s.reports := (K.reports (by decide)).trans xr
    have b3 := setTopos_same (chunks 16 24 (bs.drop 16)) 0 (setF LINK_SELF_BOARD 0 (bits (pay bs 0 2) 0 9) x) (by have := chunks_length 16 24 (bs.drop 16); omega)
    generalize setTopos 0 (chunks 16 24 (bs.drop 16)) (setF LINK_SELF_BOARD 0 (bits (pay bs 0 2) 0 9) x) = z at *
    have KF := freshStreams_keeps (Has.refl _) (argOf e 0 % 16) (Keeps.refl _ z)
    have KB : getF (freshStreams (argOf e 0 % 16) z) LINK_SELF_BOARD 0 = getF z LINK_SELF_BOARD 0 := KF.getFk reg_LINK_SELF_BOARD (by decide) 0 0
    have KR : ∀ p, getF (freshStreams (argOf e 0 % 16) z) LINK_TOPO_PEER_ROLE p = getF z LINK_TOPO_PEER_ROLE p := fun p => KF.getFk reg_LINK_TOPO_PEER_ROLE (by decide) p 0
    have KT : ∀ p d, topoPeerSame (freshStreams (argOf e 0 % 16) z) p d = topoPeerSame z p d := fun p d => topoPeerSame_freshStreams ..
    have KP : (freshStreams (argOf e 0 % 16) z).reports = z.reports := KF.reports (by decide)
    clear KF K
    generalize freshStreams (argOf e 0 % 16) z = w at *
    refine ⟨?_, topo_loaded h (argOf e 0 % 16) w, (topo_getF ..).trans (KB.trans b1), fun p q hq => ?_⟩
    · show w.reports ++ _ = _
      rw [KP, b2]
    · have := b3 p q hq
      rw [Nat.zero_add, getF_setF_apart (by decide), xo] at this
      refine ⟨?_, (topo_getF ..).trans ((KR p).trans this.2)⟩
      rw [topoPeerSame_congr (topo_regs h (argOf e 0 % 16) w), KT]
      exact this.1

/-- The end of a list is looked for: one that has ended is gone. -/
theorem endList_does {cl lid : Nat} {s : State} {y : ListRun} (h : listOf s cl lid = some y) :
    (endList cl lid s).releases = s.releases ∧ listOf (endList cl lid s) cl lid = if listEnded y then none else some y := by
  unfold endList
  rw [h]
  dsimp only
  split
  · have e : ∀ (h : Nat) (z : State), listOf (listsDone h z) cl lid = listOf z cl lid := fun h z => by
      apply listOf_congr; unfold listsDone; split <;> rfl
    have e2 : ∀ (h : Nat) (z : State), (listsDone h z).releases = z.releases := fun h z => by
      unfold listsDone; split <;> rfl
    refine ⟨e2 _ _, ?_⟩
    rw [e]
    unfold listOf
    rw [clusterOf_modCluster_self, List.find?_eq_none]
    intro x hx
    have := (List.mem_filter.1 hx).2
    simpa using this
  · exact ⟨rfl, h⟩

theorem releaseReceive_effect (r : Release) (rest : List Release) (l y : ListRun) (s : State) (h1 : stopped s = false) (h2 : s.releases = r :: rest) (h3 : r.party.cluster ≠ 256) (h4 : listOf s r.party.cluster r.party.lst = some l) (h5 : l.st = .waiting) (h6 : r.status = .ok ∨ r.status = .marked) (h7 : l.grp.filter (·.arrived) = none) (h8 : y = { l with st := .run, gated := [] }) :
    (running s (releaseReceive s)).releases = rest ∧ listOf (running s (releaseReceive s)) r.party.cluster r.party.lst = if listEnded y then none else some y := by
  rw [running_eq _ h1]
  unfold releaseReceive
  rw [h2]
  dsimp only
  rw [if_neg h3]
  unfold clusterRelease
  rw [show listOf { s with releases := rest } r.party.cluster r.party.lst = some l from h4]
  dsimp only
  rw [if_neg (by simp [h5]), h7]
  have hl := listOf_modList_self (f := fun x => { x with st := .run, gated := [] }) (show listOf { s with releases := rest } r.party.cluster r.party.lst = some l from h4) (fun _ => rfl)
  have hr : (modList r.party.cluster r.party.lst (fun x => { x with st := .run, gated := [] }) { s with releases := rest }).releases = rest := rfl
  rw [← h8] at hl
  have e := endList_does hl
  rw [hr] at e
  rcases h6 with q | q
  · rw [q]; exact e
  · rw [q]; exact e

theorem releaseHub_effect (r : Release) (rest : List Release) (s : State) (h1 : stopped s = false) (h2 : s.releases = r :: rest) (h3 : r.party.cluster = 256) (h4 : (ctxOf s r.party.lst).coll.waiting = true) :
    (running s (releaseReceive s)).releases = rest ∧ (ctxOf (running s (releaseReceive s)) r.party.lst).coll = { (ctxOf s r.party.lst).coll with waiting := false, halted := (ctxOf s r.party.lst).coll.halted || r.status == .stale || r.status == .abandoned } := by
  rw [running_eq _ h1]
  unfold releaseReceive
  rw [h2]
  dsimp only
  rw [if_pos h3]
  unfold collRelease
  rw [show ctxOf { s with releases := rest } r.party.lst = ctxOf s r.party.lst from rfl, if_pos h4]
  cases hst : r.status with
  | ok => exact ⟨rfl, by rw [coll_modColl, show ctxOf { s with releases := rest } r.party.lst = ctxOf s r.party.lst from rfl]; cases (ctxOf s r.party.lst).coll.halted <;> rfl⟩
  | marked => exact ⟨rfl, by rw [coll_modColl, show ctxOf { s with releases := rest } r.party.lst = ctxOf s r.party.lst from rfl]; cases (ctxOf s r.party.lst).coll.halted <;> rfl⟩
  | abandoned => exact ⟨rfl, by rw [coll_modColl, show ctxOf { s with releases := rest } r.party.lst = ctxOf s r.party.lst from rfl]; cases (ctxOf s r.party.lst).coll.halted <;> rfl⟩
  | stale =>
    have a : ∀ z : State, (setEvt SYNC_EV_DESC_INVALID 4 z).releases = z.releases := fun z => by simp
    have b : ∀ z : State, (syncErr 4 6 0 z).releases = z.releases ∧ ctxOf (syncErr 4 6 0 z) r.party.lst = ctxOf z r.party.lst := fun z => by unfold syncErr; split <;> exact ⟨rfl, rfl⟩
    refine ⟨(a _).trans (b _).1, ?_⟩
    dsimp only
    rw [coll_modColl, ctxOf_setEvt, (b _).2, show ctxOf { s with releases := rest } r.party.lst = ctxOf s r.party.lst from rfl]
    cases (ctxOf s r.party.lst).coll.halted <;> rfl

end Sys2Proof.Machine
end

