-- ==== Sys2Proof/Laws/EffectsCkpt.lean ====
section
/-! SUPPORT. What the commands do: checkpoints. -/

namespace Sys2Proof.Machine

set_option exponentiation.threshold 600
set_option linter.unusedSimpArgs false

theorem ckpt_modCkpt (c : Nat) (f : Ckpt → Ckpt) (s : State) : (ctxOf (modCkpt c f s) c).ckpt = (ctxOf s c).ckpt.map f := by
  unfold modCkpt; rw [ctxOf_modCtx_self]

theorem peerSend_ctx (d : Nat) (fs : List Frame) (s : State) (k : Nat) : ctxOf (peerSend d fs s) k = ctxOf s k :=
  ctxOf_kept (peerSend_keeps (Has.refl _) d fs (Keeps.refl _ s)) (by decide) k

/-- Peer frames that have a member to go on are handed over in order. -/
theorem peerSend_sent (d : Nat) (fs : List Frame) (s : State) : (peerSend d fs s).sent = if (peerMembers s d).isEmpty then s.sent else s.sent ++ fs.map Frame.what := by
  unfold peerSend
  dsimp only
  split
  · rfl
  · exact spreadFrames_sent ..

/-- What writing bytes of the stream does to the checkpoint. -/
theorem streamOut_does {c : Nat} {k q : Ckpt} {bs : List Byte} {s : State} (h : (ctxOf s c).ckpt = some q) :
    (∃ a b, (ctxOf (streamOut c k bs s) c).ckpt = some { q with off := q.off + bs.length, cur := a, curOff := b }) ∧
    (k.peer = false → (ctxOf (streamOut c k bs s) c).ckpt = some { q with off := q.off + bs.length } ∧
      (streamOut c k bs s).hmem = Store.putAll 0 (k.dest + k.off) (bs.take (k.room - k.off)) s.hmem) := by
  have h1 : (ctxOf (modCkpt c (fun x => { x with off := x.off + bs.length }) s) c).ckpt = some { q with off := q.off + bs.length } := by
    rw [ckpt_modCkpt, h]; rfl
  have h2 : (modCkpt c (fun x => { x with off := x.off + bs.length }) s).hmem = s.hmem := rfl
  unfold streamOut
  dsimp only
  generalize modCkpt c (fun x => { x with off := x.off + bs.length }) s = z at *
  cases hp : k.peer with
  | false =>
    rw [if_neg (by decide)]
    refine ⟨⟨q.cur, q.curOff, h1⟩, fun _ => ⟨h1, ?_⟩⟩
    show Store.putAll 0 _ _ z.hmem = _
    rw [h2]
  | true =>
    rw [if_pos rfl]
    refine ⟨?_, fun e => absurd e (by decide)⟩
    split
    · exact ⟨q.cur, q.curOff, h1⟩
    · next i o _ =>
      refine ⟨i, o + bs.length, ?_⟩
      rw [peerSend_ctx, ckpt_modCkpt, h1]
      rfl

/-- What writing one record does to the checkpoint. -/
theorem putRecord_does {c : Nat} {k : Ckpt} {hd : ZHead} {raw : List Byte} {s : State} (h : (ctxOf s c).ckpt = some k) :
    (∃ a b, (ctxOf (putRecord c hd raw s) c).ckpt = some { k with entries := k.entries ++ [zEntry hd k.off (zRecord hd k.cut (!k.peer) raw)], off := k.off + (zRecord hd k.cut (!k.peer) raw).length, cur := a, curOff := b }) ∧
    (k.peer = false → (ctxOf (putRecord c hd raw s) c).ckpt = some { k with entries := k.entries ++ [zEntry hd k.off (zRecord hd k.cut (!k.peer) raw)], off := k.off + (zRecord hd k.cut (!k.peer) raw).length } ∧
      (putRecord c hd raw s).hmem = Store.putAll 0 (k.dest + k.off) ((zRecord hd k.cut (!k.peer) raw).take (k.room - k.off)) s.hmem) := by
  unfold putRecord
  rw [h]
  dsimp only
  generalize zRecord hd k.cut (!k.peer) raw = r
  have h1 : (ctxOf (modCkpt c (fun x => { x with entries := x.entries ++ [zEntry hd k.off r] }) s) c).ckpt = some { k with entries := k.entries ++ [zEntry hd k.off r] } := by
    rw [ckpt_modCkpt, h]; rfl
  exact streamOut_does h1

theorem loadTiles_same {d cls base tb k n : Nat} {ts : List (List Byte)} {s v : State} (hw : noWeak s = true) (h : loadTiles d cls base tb k n s = (.ok ts, v)) : v = s := by
  have := (Alike.refl s).loadTiles_ok hw h
  rw [h] at this
  exact (Prod.mk.inj this).2

theorem ckptTiles_same {b : Blk} {kind : Nat} {ts : List (List Byte)} {s v : State} (hw : noWeak s = true) (h : ckptTiles b kind s = (some ts, v)) : v = s := by
  unfold ckptTiles at h
  split at h
  · next he => cases h; exact loadTiles_same hw he
  · cases h
  · cases h

theorem ckptBytes_same {b : Blk} {a n : Nat} {ts : List Byte} {s v : State} (hw : noWeak s = true) (h : ckptBytes b a n s = (some ts, v)) : v = s := by
  unfold ckptBytes at h
  split at h
  · next he => cases h; exact engRead_same hw he
  · cases h

theorem ckptBufs_same {b : Blk} : ∀ {ks : List Nat} {r : List Byte} {s v : State}, noWeak s = true → ckptBufs b ks s = (some r, v) → v = s
  | [], _, _, _, _, h => by cases h; rfl
  | k :: ks, r, s, v, hw, h => by
    unfold ckptBufs at h
    split at h
    · cases h
    · next he =>
      split at h
      · cases h
      · next hr =>
        cases h
        have e := ckptTiles_same hw he
        rw [ckptBufs_same (by rw [e]; exact hw) hr, e]

/-- A block record that could be read has changed nothing. -/
theorem blockRecord_same {b : Blk} {x : ZHead × List Byte} {s v : State} (hw : noWeak s = true) (h : blockRecord b s = (some x, v)) : v = s := by
  unfold blockRecord at h
  split at h
  · cases h
  · next h1 =>
    dsimp only at h
    split at h
    · cases h
    · next h2 =>
      split at h
      · cases h
      · next h3 =>
        split at h
        · cases h
        · next h4 =>
          cases h
          have e1 := ckptBytes_same hw h1
          have e2 := ckptTiles_same (by rw [e1]; exact hw) h2
          have e3 := ckptBytes_same (by rw [e2, e1]; exact hw) h3
          rw [ckptBufs_same (by rw [e3, e2, e1]; exact hw) h4, e3, e2, e1]

theorem modSlot_ctx (c n : Nat) (f : Slot → Slot) (s : State) (k : Nat) : ∃ l, ctxOf (modSlot c n f s) k = { ctxOf s k with slots := l } := by
  unfold modSlot
  by_cases h : c = k
  · subst h; exact ⟨_, by rw [ctxOf_modCtx_self]⟩
  · exact ⟨(ctxOf s k).slots, by rw [ctxOf_modCtx_ne (s := s) h]⟩

theorem ckptPassed_effect (h : Nat) (s : State) (h1 : isAwake s = true) (h2 : cmdReady s h 0x30 = true) (h3 : (ctxOf s (hCtx h)).lastCommit.any (fun l => decide ((argOf (entryOf s h) 0 % two32) < l)) = true) :
    (awake s (ckpt h s)).reports = s.reports ++ [{ handle := h, status := 0x0A }] := by
  rw [awake_eq _ h1]
  unfold ckpt
  rw [runCmd_ready h2]
  generalize hent : entryOf s h = e at *
  obtain ⟨l, hl⟩ := modSlot_ctx (hCtx h) (hSlot h) (fun x => { x with running := true }) s (hCtx h)
  dsimp only
  rw [hl]
  dsimp only
  rw [h3, if_pos rfl]
  rfl

theorem ckptBusy_effect (h : Nat) (s : State) (h1 : isAwake s = true) (h2 : cmdReady s h 0x30 = true) (h3 : (ctxOf s (hCtx h)).lastCommit.any (fun l => decide ((argOf (entryOf s h) 0 % two32) < l)) = false) (h4 : (ctxOf s (hCtx h)).ckpt.isSome = true) :
    (awake s (ckpt h s)).reports = s.reports ++ [{ handle := h, status := 0x0B }] := by
  rw [awake_eq _ h1]
  unfold ckpt
  rw [runCmd_ready h2]
  generalize hent : entryOf s h = e at *
  obtain ⟨l, hl⟩ := modSlot_ctx (hCtx h) (hSlot h) (fun x => { x with running := true }) s (hCtx h)
  dsimp only
  rw [hl]
  dsimp only
  rw [h3, if_neg (show ¬ (false = true) by decide), h4, if_pos rfl]
  rfl

theorem ckptStart_effect (h n : Nat) (hb xb : List Byte) (hs xs : List (List Byte)) (s : State) (h1 : isAwake s = true) (h2 : cmdReady s h 0x30 = true) (h3 : n = (argOf (entryOf s h) 0 % two32)) (h4 : (ctxOf s (hCtx h)).lastCommit.any (fun l => decide (n < l)) = false) (h5 : (ctxOf s (hCtx h)).ckpt = none) (h6 : engRead 0 6 (argOf (entryOf s h) 1 % 2 ^ 40) (16 * (if bits (argOf (entryOf s h) 0) 32 2 = 1 then argOf (entryOf s h) 2 else 0)) s = (.data hb, s)) (h7 : engRead 0 6 (argOf (entryOf s h) 3) (16 * argOf (entryOf s h) 4) s = (.data xb, s)) (h8 : hs = chunks 16 (if bits (argOf (entryOf s h) 0) 32 2 = 1 then argOf (entryOf s h) 2 else 0) hb) (h9 : xs = chunks 16 (argOf (entryOf s h) 4) xb) (h10 : stepClosed s (hCtx h) n = false) (h11 : noWeak s = true) :
    if hs.any holderBad || xs.any extentBad then (awake s (ckpt h s)).reports = s.reports ++ [{ handle := h, status := 1 }] else (awake s (ckpt h s)).reports = s.reports ∧ (ctxOf (awake s (ckpt h s)) (hCtx h)).ckpt = some { handle := h, cut := n, peer := bits (argOf (entryOf s h) 0) 32 2 == 1, dest := argOf (entryOf s h) 1, room := argOf (entryOf s h) 2, holders := hs.map holderOf, exts := xs.map extentOf, left := ckptLeft s (hCtx h) n } := by
  rw [awake_eq _ h1]
  unfold ckpt
  rw [runCmd_ready h2]
  generalize hent : entryOf s h = e at *
  subst h3
  obtain ⟨l, hl⟩ := modSlot_ctx (hCtx h) (hSlot h) (fun x => { x with running := true }) s (hCtx h)
  dsimp only
  rw [hl]
  dsimp only
  rw [h4, if_neg (show ¬ (false = true) by decide), h5, if_neg (show ¬ ((none : Option Ckpt).isSome = true) by decide)]
  have AL := (modSlot_keeps (Has.refl _) (hCtx h) (hSlot h) (fun x => { x with running := true }) (Keeps.refl _ s)).alike (by decide)
  unfold cmdRead
  rw [AL.engRead_data h11 h6]
  dsimp only
  rw [AL.engRead_data h11 h7]
  dsimp only
  rw [← h8, ← h9]
  have xr : (modSlot (hCtx h) (hSlot h) (fun x => { x with running := true }) s).reports = s.reports := rfl
  have e1 : ∀ n, ckptLeft (modSlot (hCtx h) (hSlot h) (fun x => { x with running := true }) s) (hCtx h) n = ckptLeft s (hCtx h) n := fun n => by
    unfold ckptLeft stepClosed stepOf; rw [hl]
  have e2 : ∀ n, stepClosed (modSlot (hCtx h) (hSlot h) (fun x => { x with running := true }) s) (hCtx h) n = stepClosed s (hCtx h) n := fun n => by
    unfold stepClosed stepOf; rw [hl]
  generalize modSlot (hCtx h) (hSlot h) (fun x => { x with running := true }) s = z at *
  unfold ckptBegin
  dsimp only
  by_cases hb : (hs.any holderBad || xs.any extentBad) = true
  · rw [if_pos hb, if_pos hb]
    unfold report
    rw [xr]
  · rw [if_neg hb, if_neg hb]
    have e3 : ∀ k : Ckpt, stepClosed (modCtx (hCtx h) (fun x => { x with ckpt := some k }) z) (hCtx h) (argOf e 0 % two32) = false := fun k => by
      rw [← h10, ← e2]
      unfold stepClosed stepOf
      rw [ctxOf_modCtx_self]
    rw [e3, if_neg (show ¬ (false = true) by decide), e1, ctxOf_modCtx_self]
    exact ⟨xr, rfl⟩

theorem ckptBlockWaits_effect (c g : Nat) (k : Ckpt) (s : State) (h1 : isAwake s = true) (h2 : (ctxOf s c).ckpt = some k) (h3 : (k.left.any fun l => l.contains g) = false ∨ isSuspect s g = true ∨ (k.peer = false ∧ hubGranted s 537 (c + 16) 1 = false) ∨ ckptWindow s c g k = none) :
    (awake s (ckptBlockRead c g s)) = s := by
  rw [awake_eq _ h1]
  unfold ckptBlockRead
  rw [h2]
  dsimp only
  split
  · rfl
  · next hn =>
    rcases h3 with e | e | e | e
    · exact absurd (by rw [e]; rfl) hn
    · exact absurd (by rw [e, Bool.or_true, Bool.true_or]) hn
    · exact absurd (by rw [e.1, e.2]; exact Bool.or_true _) hn
    · rw [e]

theorem ckptBlockRead_effect (c g : Nat) (k : Ckpt) (b : Blk) (hd : ZHead) (raw r : List Byte) (v : State) (s : State) (h1 : isAwake s = true) (h2 : (ctxOf s c).ckpt = some k) (h3 : (k.left.any fun l => l.contains g) = true) (h4 : isSuspect s g = false) (h5 : ckptWindow s c g k = some b) (h6 : blockRecord b (hubTake 537 (c + 16) 1 s) = (some (hd, raw), v)) (h7 : r = zRecord hd k.cut (!k.peer) raw) (h8 : k.peer = true ∨ hubGranted s 537 (c + 16) 1 = true) (h9 : noWeak s = true) :
    (∃ i o, (ctxOf (awake s (ckptBlockRead c g s)) c).ckpt = some { k with left := k.left.map (fun l => l.filter (· ≠ g)), entries := k.entries ++ [zEntry hd k.off r], off := k.off + r.length, cur := i, curOff := o }) ∧ (k.peer = false → (awake s (ckptBlockRead c g s)).hmem = Store.putAll 0 (k.dest + k.off) (r.take (k.room - k.off)) s.hmem) := by
  rw [awake_eq _ h1]
  unfold ckptBlockRead
  rw [h2]
  dsimp only
  have KT := hubTake_keeps (Has.refl _) 537 (c + 16) 1 (Keeps.refl _ s)
  have hv := blockRecord_same ((KT.alike (by decide)).weak.trans h9) h6
  subst hv
  have hT : (ctxOf (hubTake 537 (c + 16) 1 s) c).ckpt = some k := by rw [ctxOf_kept KT (by decide)]; exact h2
  have hM : (hubTake 537 (c + 16) 1 s).hmem = s.hmem := KT.hmem (by decide)
  rw [h3, h4, show (!true || false || !k.peer && !hubGranted s 537 (c + 16) 1) = false by rcases h8 with e | e <;> rw [e] <;> cases k.peer <;> rfl, if_neg (by decide), h5]
  dsimp only
  rw [h6]
  generalize hubTake 537 (c + 16) 1 s = z at *
  dsimp only
  have hc : (ctxOf (modCkpt c (fun x => { x with left := x.left.map fun l => l.filter (· ≠ g) }) z) c).ckpt = some { k with left := k.left.map fun l => l.filter (· ≠ g) } := by
    rw [ckpt_modCkpt, hT]; rfl
  obtain ⟨d1, d2⟩ := putRecord_does (hd := hd) (raw := raw) hc
  rw [h7]
  exact ⟨d1, fun hp => (d2 hp).2.trans (congrArg (Store.putAll 0 _ _) hM)⟩

/-- A checkpoint completes once it has ended and, with holders, each of them has answered. -/
theorem ckptDone_does {c : Nat} {k : Ckpt} {s : State} (h : (ctxOf s c).ckpt = some k) :
    if (!k.ended || (k.peer && !(usedHolders k).all (fun h => k.dones.contains h.1))) = true then ckptDone c s = s
    else (ctxOf (ckptDone c s) c).ckpt = none ∧ (ckptDone c s).reports = s.reports ++ [{ handle := k.handle, status := 0, r0 := k.off }] := by
  have g : ckptDone c s = if (k.ended && (!k.peer || (usedHolders k).all fun h => k.dones.contains h.1)) = true then endCkpt c 0 k.off s else s := by
    unfold ckptDone; rw [h]
  rw [g]
  have b : (k.ended && (!k.peer || (usedHolders k).all fun h => k.dones.contains h.1)) = !(!k.ended || (k.peer && !(usedHolders k).all (fun h => k.dones.contains h.1))) := by
    cases k.ended <;> cases k.peer <;> simp
  rw [b]
  cases hb : (!k.ended || (k.peer && !(usedHolders k).all (fun h => k.dones.contains h.1))) with
  | true => rw [if_pos rfl, if_neg (by decide)]
  | false =>
    rw [if_neg (by decide), if_pos (by decide)]
    unfold endCkpt
    rw [h]
    dsimp only
    refine ⟨?_, rfl⟩
    show (ctxOf (modCtx c (fun x : Ctx => { x with ckpt := none }) s) c).ckpt = none
    rw [ctxOf_modCtx_self]

theorem ckptCompletes_effect (c : Nat) (k : Ckpt) (s : State) (h1 : isAwake s = true) (h2 : (ctxOf s c).ckpt = some k) (h3 : k.ended = true) :
    if k.peer && !(usedHolders k).all (fun h => k.dones.contains h.1) then (awake s (ckptComplete c s)) = s else (ctxOf (awake s (ckptComplete c s)) c).ckpt = none ∧ (awake s (ckptComplete c s)).reports = s.reports ++ [{ handle := k.handle, status := 0, r0 := k.off }] := by
  rw [awake_eq _ h1]
  unfold ckptComplete
  rw [h2]
  dsimp only
  rw [h3, if_pos rfl]
  have := ckptDone_does h2
  rw [h3] at this
  exact this

/-- What the END record and the manifest do. -/
theorem ckptEnd_does {c : Nat} {k : Ckpt} {s : State} (h : (ctxOf s c).ckpt = some k) :
    (∃ i o, (ctxOf (ckptEnd c s) c).ckpt = some { k with
      entries := k.entries ++ [zEntry { kind := 4, gbi := k.entries.length } k.off (zRecord { kind := 4, gbi := k.entries.length } k.cut (!k.peer) [])],
      off := k.off + (zRecord { kind := 4, gbi := k.entries.length } k.cut (!k.peer) []).length +
        (zManifest s c k.cut (k.entries ++ [zEntry { kind := 4, gbi := k.entries.length } k.off (zRecord { kind := 4, gbi := k.entries.length } k.cut (!k.peer) [])])).length,
      cur := i, curOff := o, ended := true }) ∧
    (ckptEnd c s).reports = s.reports ∧
    (k.peer = false → (ckptEnd c s).hmem = Store.putAll 0 (k.dest + k.off + (zRecord { kind := 4, gbi := k.entries.length } k.cut (!k.peer) []).length)
      ((zManifest s c k.cut (k.entries ++ [zEntry { kind := 4, gbi := k.entries.length } k.off (zRecord { kind := 4, gbi := k.entries.length } k.cut (!k.peer) [])])).take (k.room - (k.off + (zRecord { kind := 4, gbi := k.entries.length } k.cut (!k.peer) []).length)))
      (Store.putAll 0 (k.dest + k.off) ((zRecord { kind := 4, gbi := k.entries.length } k.cut (!k.peer) []).take (k.room - k.off)) s.hmem)) := by
  obtain ⟨⟨a, b, p1⟩, p2⟩ := putRecord_does (hd := { kind := 4, gbi := k.entries.length }) (raw := []) h
  have K := putRecord_keeps (Has.refl _) c { kind := 4, gbi := k.entries.length } [] (Keeps.refl _ s)
  have hm : ∀ es, zManifest (putRecord c { kind := 4, gbi := k.entries.length } [] s) c k.cut es = zManifest s c k.cut es := fun es => by
    unfold zManifest serial
    rw [otpValue_congr (s := s) (K.otp (by decide)) 0,
      show (putRecord c { kind := 4, gbi := k.entries.length } [] s).strapPos = s.strapPos from K.strapPos (by decide),
      show getF (putRecord c { kind := 4, gbi := k.entries.length } [] s) LINK_SELF_BOARD 0 = getF s LINK_SELF_BOARD 0 from K.getFk reg_LINK_SELF_BOARD (by decide) 0 0]
  have hr : (putRecord c { kind := 4, gbi := k.entries.length } [] s).reports = s.reports := K.reports (by decide)
  unfold ckptEnd
  rw [h]
  dsimp only
  rw [p1]
  dsimp only
  generalize zRecord { kind := 4, gbi := k.entries.length } k.cut (!k.peer) [] = r at *
  generalize putRecord c { kind := 4, gbi := k.entries.length } [] s = z at *
  rw [hm]
  generalize zManifest s c k.cut (k.entries ++ [zEntry { kind := 4, gbi := k.entries.length } k.off r]) = m at *
  have q := streamOut_does (k := { k with entries := k.entries ++ [zEntry { kind := 4, gbi := k.entries.length } k.off r], off := k.off + r.length, cur := a, curOff := b }) (bs := m) p1
  obtain ⟨⟨i, o, q1⟩, q2⟩ := q
  refine ⟨⟨i, o, ?_⟩, ?_, fun hp => ?_⟩
  · rw [ckpt_modCkpt, q1]; rfl
  · exact ((streamOut_keeps (Has.refl _) c _ m (Keeps.refl _ z)).reports (by decide)).trans hr
  · refine Eq.trans (q2 hp).2 ?_
    rw [(p2 hp).2]
    dsimp only
    rw [Nat.add_assoc]

theorem ckptEndDurable_effect (c : Nat) (k : Ckpt) (r m : List Byte) (s : State) (h1 : isAwake s = true) (h2 : (ctxOf s c).ckpt = some k) (h3 : k.ended = false) (h4 : k.left = some []) (h5 : k.cutRead = true) (h6 : k.arriving = []) (h7 : k.dropped = []) (h8 : r = zRecord { kind := 4, gbi := k.entries.length } k.cut (!k.peer) []) (h9 : m = zManifest s c k.cut (k.entries ++ [zEntry { kind := 4, gbi := k.entries.length } k.off r])) (h10 : k.peer = false) :
    (ctxOf (awake s (ckptComplete c s)) c).ckpt = none ∧ (awake s (ckptComplete c s)).reports = s.reports ++ [{ handle := k.handle, status := 0, r0 := k.off + r.length + m.length }] ∧ (awake s (ckptComplete c s)).hmem = Store.putAll 0 (k.dest + k.off + r.length) (m.take (k.room - (k.off + r.length))) (Store.putAll 0 (k.dest + k.off) (r.take (k.room - k.off)) s.hmem) := by
  rw [awake_eq _ h1]
  unfold ckptComplete
  rw [h2]
  dsimp only
  rw [h3, h4, h5, h6, h7, if_neg (by decide), if_neg (by decide)]
  unfold putCarries
  have hc : (ctxOf (modCkpt c (fun x => { x with dropped := [] }) s) c).ckpt = some k := by
    rw [ckpt_modCkpt, h2]
    show some { k with dropped := [] } = some k
    rw [← h7]
  have hm : ∀ es, zManifest (modCkpt c (fun x => { x with dropped := [] }) s) c k.cut es = zManifest s c k.cut es := fun _ => rfl
  have hr : (modCkpt c (fun x => { x with dropped := [] }) s).reports = s.reports := rfl
  have hh : (modCkpt c (fun x => { x with dropped := [] }) s).hmem = s.hmem := rfl
  generalize modCkpt c (fun x => { x with dropped := [] }) s = z at *
  obtain ⟨⟨i, o, e1⟩, e2, e3⟩ := ckptEnd_does hc
  rw [hm, ← h8, ← h9] at e1 e3
  obtain ⟨q, hq, hqe⟩ : ∃ q : Ckpt, q = { k with entries := k.entries ++ [zEntry { kind := 4, gbi := k.entries.length } k.off r], off := k.off + r.length + m.length, cur := i, curOff := o, ended := true } ∧ True := ⟨_, rfl, trivial⟩
  rw [← hq] at e1
  have qp : q.peer = false := by rw [hq]; exact h10
  have qe : q.ended = true := by rw [hq]
  rw [e1]
  dsimp only
  rw [qp, if_neg (show ¬ (false = true) by decide)]
  have d := ckptDone_does e1
  rw [qp, qe, Bool.false_and, Bool.not_true, Bool.or_false, if_neg (show ¬ (false = true) by decide)] at d
  refine ⟨d.1, ?_, ?_⟩
  · rw [d.2, e2, hr, hq]
  · rw [(ckptDone_keeps (Has.refl _) c (Keeps.refl _ _)).hmem (by decide), e3 h10, hh]

theorem ckptEndPeer_effect (c : Nat) (k : Ckpt) (r m : List Byte) (s : State) (h1 : isAwake s = true) (h2 : (ctxOf s c).ckpt = some k) (h3 : k.ended = false) (h4 : k.left = some []) (h5 : k.cutRead = true) (h6 : k.arriving = []) (h7 : k.dropped = []) (h8 : r = zRecord { kind := 4, gbi := k.entries.length } k.cut (!k.peer) []) (h9 : m = zManifest s c k.cut (k.entries ++ [zEntry { kind := 4, gbi := k.entries.length } k.off r])) (h10 : k.peer = true) (h11 : k.dones = []) (h12 : k.holders ≠ []) :
    (awake s (ckptComplete c s)).reports = s.reports ∧ ∃ q, (ctxOf (awake s (ckptComplete c s)) c).ckpt = some q ∧ q.ended = true ∧ q.off = k.off + r.length + m.length ∧ q.entries = k.entries ++ [zEntry { kind := 4, gbi := k.entries.length } k.off r] := by
  rw [awake_eq _ h1]
  unfold ckptComplete
  rw [h2]
  dsimp only
  rw [h3, h4, h5, h6, h7, if_neg (by decide), if_neg (by decide)]
  unfold putCarries
  have hc : (ctxOf (modCkpt c (fun x => { x with dropped := [] }) s) c).ckpt = some k := by
    rw [ckpt_modCkpt, h2]
    show some { k with dropped := [] } = some k
    rw [← h7]
  have hm : ∀ es, zManifest (modCkpt c (fun x => { x with dropped := [] }) s) c k.cut es = zManifest s c k.cut es := fun _ => rfl
  have hr : (modCkpt c (fun x => { x with dropped := [] }) s).reports = s.reports := rfl
  have hh : (modCkpt c (fun x => { x with dropped := [] }) s).hmem = s.hmem := rfl
  generalize modCkpt c (fun x => { x with dropped := [] }) s = z at *
  obtain ⟨⟨i, o, e1⟩, e2, e3⟩ := ckptEnd_does hc
  rw [hm, ← h8, ← h9] at e1 e3
  obtain ⟨q, hq, hqe⟩ : ∃ q : Ckpt, q = { k with entries := k.entries ++ [zEntry { kind := 4, gbi := k.entries.length } k.off r], off := k.off + r.length + m.length, cur := i, curOff := o, ended := true } ∧ True := ⟨_, rfl, trivial⟩
  rw [← hq] at e1
  have qp : q.peer = true := by rw [hq]; exact h10
  rw [e1]
  dsimp only
  rw [qp, if_pos rfl]
  have g1 : (ctxOf (endMarks c q 0 (usedHolders q) (ckptEnd c z)) c).ckpt = some q := by
    rw [ctxOf_kept (endMarks_keeps (Has.refl _) c q 0 (usedHolders q) (Keeps.refl _ (ckptEnd c z))) (by decide) c]; exact e1
  have g2 : (endMarks c q 0 (usedHolders q) (ckptEnd c z)).reports = s.reports := by
    rw [(endMarks_keeps (Has.refl _) c q 0 (usedHolders q) (Keeps.refl _ (ckptEnd c z))).reports (by decide), e2, hr]
  generalize endMarks c q 0 (usedHolders q) (ckptEnd c z) = y at *
  have d := ckptDone_does g1
  have qa : (usedHolders q).all (fun h => q.dones.contains h.1) = false := by
    have qd : q.dones = [] := by rw [hq]; exact h11
    have qh : q.holders = k.holders := by rw [hq]
    rw [qd]
    unfold usedHolders
    rw [qh]
    cases hh : k.holders with
    | nil => exact absurd hh h12
    | cons a l => rfl
  rw [qp, qa, Bool.true_and, Bool.not_false, Bool.or_true, if_pos rfl] at d
  rw [d]
  exact ⟨g2, q, g1, by rw [hq], by rw [hq], by rw [hq]⟩

theorem peerWrite_effect (f : Frame) (r : List Frame) (s : State) (h1 : isAwake s = true) (h2 : peerInbox s 1 = some (f, r)) (h3 : ¬ winSize s f.ctx < pOff f + f.payload.length) :
    (awake s (peerTake 1 peerWrite s)).inbox = r ∧ (awake s (peerTake 1 peerWrite s)).mem = (memStore 0 (winAddr s f.ctx (pOff f)) f.payload s).mem ∧ (awake s (peerTake 1 peerWrite s)).poison = (memStore 0 (winAddr s f.ctx (pOff f)) f.payload s).poison := by
  rw [awake_eq _ h1]
  unfold peerTake
  rw [h2]
  dsimp only
  unfold peerWrite
  rw [show winSize { s with inbox := r } f.ctx = winSize s f.ctx from rfl, if_neg h3, show winAddr { s with inbox := r } f.ctx (pOff f) = winAddr s f.ctx (pOff f) from rfl]
  have A := Alike.memStore ((keeps_inbox (w := 0x10000000) (Has.refl _) r (Keeps.refl _ s)).alike (by decide)) 0 (winAddr s f.ctx (pOff f)) f.payload
  exact ⟨(memStore_keeps (Has.refl _) 0 _ f.payload (Keeps.refl _ _)).inbox (by decide), A.mem, A.poison⟩

/-- A peer frame that is dropped. -/
theorem peerDrop_does (f : Frame) (r : List Frame) (s : State) :
    (peerDrop f { s with inbox := r }).inbox = r ∧ getF (peerDrop f { s with inbox := r }) LINK_CTX_DROP f.via = (getF s LINK_CTX_DROP f.via + 1) % 2 ^ LINK_CTX_DROP.w ∧
      evtSet (peerDrop f { s with inbox := r }) LINK_EV_CTX_DROP f.via = true ∧ (peerDrop f { s with inbox := r }).mem = s.mem ∧ (peerDrop f { s with inbox := r }).sent = s.sent := by
  have K := peerDrop_keeps (Has.refl _) f (Keeps.refl _ { s with inbox := r })
  refine ⟨K.inbox (by decide), ?_, ?_, K.mem (by decide), (sent_kept (s := { s with inbox := r }) K (by decide)).trans rfl⟩
  · unfold peerDrop
    rw [getF_setEvt_apart (by decide), getF_incr_self _ _ _ (by decide)]
    rfl
  · unfold peerDrop
    exact evtSet_setEvt (by decide) _ _

theorem peerWriteDrop_effect (f : Frame) (r : List Frame) (s : State) (h1 : isAwake s = true) (h2 : peerInbox s 1 = some (f, r)) (h3 : winSize s f.ctx < pOff f + f.payload.length) :
    (awake s (peerTake 1 peerWrite s)).inbox = r ∧ getF (awake s (peerTake 1 peerWrite s)) LINK_CTX_DROP f.via = (getF s LINK_CTX_DROP f.via + 1) % 2 ^ LINK_CTX_DROP.w ∧ evtSet (awake s (peerTake 1 peerWrite s)) LINK_EV_CTX_DROP f.via = true ∧ (awake s (peerTake 1 peerWrite s)).mem = s.mem ∧ (awake s (peerTake 1 peerWrite s)).sent = s.sent := by
  rw [awake_eq _ h1]
  unfold peerTake
  rw [h2]
  dsimp only
  unfold peerWrite
  rw [show winSize { s with inbox := r } f.ctx = winSize s f.ctx from rfl, if_pos h3]
  exact peerDrop_does f r s

theorem readReq_effect (f : Frame) (r : List Frame) (bs : List Byte) (s : State) (h1 : isAwake s = true) (h2 : peerInbox s 2 = some (f, r)) (h3 : ¬ winSize s f.ctx < pOff f + pLen f) (h4 : engRead 0 6 (winAddr s f.ctx (pOff f)) (pLen f) s = (.data bs, s)) (h5 : noWeak s = true) :
    (awake s (peerTake 2 readReq s)).inbox = r ∧ (awake s (peerTake 2 readReq s)).mem = s.mem ∧ (awake s (peerTake 2 readReq s)).sent = if (peerMembers s f.src).isEmpty then s.sent else s.sent ++ (peerData s f.src f.ctx 3 (pOff f) bs).map Frame.what := by
  rw [awake_eq _ h1]
  unfold peerTake
  rw [h2]
  dsimp only
  unfold readReq
  have A := (keeps_inbox (w := 0x10000000) (Has.refl _) r (Keeps.refl _ s)).alike (by decide)
  rw [show winSize { s with inbox := r } f.ctx = winSize s f.ctx from rfl, if_neg h3, show winAddr { s with inbox := r } f.ctx (pOff f) = winAddr s f.ctx (pOff f) from rfl, A.engRead_data h5 h4]
  dsimp only
  have K := peerSend_keeps (Has.refl _) f.src (peerData { s with inbox := r } f.src f.ctx 3 (pOff f) bs) (Keeps.refl _ { s with inbox := r })
  refine ⟨K.inbox (by decide), K.mem (by decide), ?_⟩
  exact peerSend_sent ..

theorem readReqDrop_effect (f : Frame) (r : List Frame) (s : State) (h1 : isAwake s = true) (h2 : peerInbox s 2 = some (f, r)) (h3 : winSize s f.ctx < pOff f + pLen f) :
    (awake s (peerTake 2 readReq s)).inbox = r ∧ getF (awake s (peerTake 2 readReq s)) LINK_CTX_DROP f.via = (getF s LINK_CTX_DROP f.via + 1) % 2 ^ LINK_CTX_DROP.w ∧ evtSet (awake s (peerTake 2 readReq s)) LINK_EV_CTX_DROP f.via = true ∧ (awake s (peerTake 2 readReq s)).mem = s.mem ∧ (awake s (peerTake 2 readReq s)).sent = s.sent := by
  rw [awake_eq _ h1]
  unfold peerTake
  rw [h2]
  dsimp only
  unfold readReq
  rw [show winSize { s with inbox := r } f.ctx = winSize s f.ctx from rfl, if_pos h3]
  exact peerDrop_does f r s

theorem peerDone_effect (f : Frame) (r : List Frame) (k : Ckpt) (s : State) (h1 : isAwake s = true) (h2 : peerInbox s 4 = some (f, r)) (h3 : pOff f = 0) (h4 : (ctxOf s f.ctx).ckpt = some k) (h5 : k.peer = true) (h6 : k.ended = true) (h7 : k.holders.any (fun h => h.1 == f.src) = true) :
    (awake s (peerTake 4 peerDone s)).inbox = r ∧ if (usedHolders k).all (fun h => (k.dones ++ [f.src]).contains h.1) then (ctxOf (awake s (peerTake 4 peerDone s)) f.ctx).ckpt = none ∧ (awake s (peerTake 4 peerDone s)).reports = s.reports ++ [{ handle := k.handle, status := 0, r0 := k.off }] else (ctxOf (awake s (peerTake 4 peerDone s)) f.ctx).ckpt = some { k with dones := k.dones ++ [f.src] } ∧ (awake s (peerTake 4 peerDone s)).reports = s.reports := by
  rw [awake_eq _ h1]
  unfold peerTake
  rw [h2]
  dsimp only
  unfold peerDone
  rw [if_pos h3, show (ctxOf { s with inbox := r } f.ctx).ckpt = some k from h4]
  dsimp only
  rw [h5, h6, h7, if_pos (by decide)]
  have g : (ctxOf (modCkpt f.ctx (fun x => { x with dones := x.dones ++ [f.src] }) { s with inbox := r }) f.ctx).ckpt = some { k with dones := k.dones ++ [f.src] } := by
    rw [ckpt_modCkpt, show (ctxOf { s with inbox := r } f.ctx).ckpt = some k from h4]; rfl
  have gr : (modCkpt f.ctx (fun x => { x with dones := x.dones ++ [f.src] }) { s with inbox := r }).reports = s.reports := rfl
  have gi : (modCkpt f.ctx (fun x => { x with dones := x.dones ++ [f.src] }) { s with inbox := r }).inbox = r := rfl
  generalize modCkpt f.ctx (fun x => { x with dones := x.dones ++ [f.src] }) { s with inbox := r } = z at *
  refine ⟨((ckptDone_keeps (Has.refl _) f.ctx (Keeps.refl _ z)).inbox (by decide)).trans gi, ?_⟩
  obtain ⟨q, hq⟩ : ∃ q : Ckpt, q = { k with dones := k.dones ++ [f.src] } := ⟨_, rfl⟩
  rw [← hq] at g
  have d := ckptDone_does g
  have qp : q.peer = true := by rw [hq]; exact h5
  have qe : q.ended = true := by rw [hq]; exact h6
  have qu : ((usedHolders q).all fun h => q.dones.contains h.1) = (usedHolders k).all fun h => (k.dones ++ [f.src]).contains h.1 := by rw [hq]; rfl
  rw [qp, qe, Bool.true_and, Bool.not_true, Bool.false_or, qu] at d
  cases hb : (usedHolders k).all fun h => (k.dones ++ [f.src]).contains h.1 with
  | true =>
    rw [hb, if_neg (by decide), gr] at d
    rw [if_pos rfl, d.1, d.2, hq]
    exact ⟨rfl, rfl⟩
  | false =>
    rw [hb, if_pos (by decide)] at d
    rw [if_neg (by decide), d, g, gr, hq]
    exact ⟨by rw [h5, h6], rfl⟩

theorem endMark_effect (f : Frame) (r : List Frame) (s : State) (h1 : isAwake s = true) (h2 : peerInbox s 4 = some (f, r)) (h3 : pOff f ≠ 0) (h4 : ¬ winSize s f.ctx < pOff f) :
    (awake s (peerTake 4 peerDone s)).inbox = r ∧ (awake s (peerTake 4 peerDone s)).sent = if (peerMembers s f.src).isEmpty then s.sent else s.sent ++ [(peerFrame s f.src f.ctx 4 0 0 []).what] := by
  rw [awake_eq _ h1]
  unfold peerTake
  rw [h2]
  dsimp only
  unfold peerDone
  rw [if_neg h3, show winSize { s with inbox := r } f.ctx = winSize s f.ctx from rfl, if_neg h4]
  have K := peerSend_keeps (Has.refl _) f.src [peerFrame { s with inbox := r } f.src f.ctx 4 0 0 []] (Keeps.refl _ { s with inbox := r })
  refine ⟨K.inbox (by decide), ?_⟩
  exact peerSend_sent ..

theorem endMarkDrop_effect (f : Frame) (r : List Frame) (s : State) (h1 : isAwake s = true) (h2 : peerInbox s 4 = some (f, r)) (h3 : pOff f ≠ 0) (h4 : winSize s f.ctx < pOff f) :
    (awake s (peerTake 4 peerDone s)).inbox = r ∧ getF (awake s (peerTake 4 peerDone s)) LINK_CTX_DROP f.via = (getF s LINK_CTX_DROP f.via + 1) % 2 ^ LINK_CTX_DROP.w ∧ evtSet (awake s (peerTake 4 peerDone s)) LINK_EV_CTX_DROP f.via = true ∧ (awake s (peerTake 4 peerDone s)).mem = s.mem ∧ (awake s (peerTake 4 peerDone s)).sent = s.sent := by
  rw [awake_eq _ h1]
  unfold peerTake
  rw [h2]
  dsimp only
  unfold peerDone
  rw [if_neg h3, show winSize { s with inbox := r } f.ctx = winSize s f.ctx from rfl, if_pos h4]
  exact peerDrop_does f r s

end Sys2Proof.Machine
end

