-- ==== Sys2Proof/Laws/EffectsHost.lean ====
section
/-! SUPPORT. What the commands do: the commands of host. -/

namespace Sys2Proof.Machine

set_option linter.unusedSimpArgs false

theorem sqTail_effect (r : Requester) (a v : Nat) (c q : Nat) (s : State) (h1 : a % 4 = 0) (h2 : target s r a = some (12, c, 0x10C + 64 * q)) (h3 : gate s r 12 c (0x10C + 64 * q) = .pass) (h4 : q < 4) (h5 : v % 65536 < sqSize s c q) :
    getFk (sqTail r a v s) CQ_SQ_TAIL c q = v % 65536 := by
  unfold sqTail
  rw [if_pos h1, guarded_pass h2 h3, if_pos rfl]
  unfold sqTailSet
  have e : (0x10C + 64 * q - 0x100) / 64 = q := by omega
  rw [if_pos (by omega), e]
  dsimp only
  rw [if_pos h5, getFk_setFk_self _ _ _ _ _ (by decide)]
  exact Nat.mod_mod _ _

theorem sqTailFault_effect (r : Requester) (a v : Nat) (c q : Nat) (s : State) (h1 : a % 4 = 0) (h2 : target s r a = some (12, c, 0x10C + 64 * q)) (h3 : gate s r 12 c (0x10C + 64 * q) = .pass) (h4 : q < 4) (h5 : sqSize s c q ≤ v % 65536) :
    getFk (sqTail r a v s) CQ_SQ_TAIL c q = getFk s CQ_SQ_TAIL c q ∧ evtSet (sqTail r a v s) CQ_EV_SQ_FAULT c = true := by
  unfold sqTail
  rw [if_pos h1, guarded_pass h2 h3, if_pos rfl]
  unfold sqTailSet
  have e : (0x10C + 64 * q - 0x100) / 64 = q := by omega
  rw [if_pos (by omega), e]
  dsimp only
  rw [if_neg (by omega)]
  unfold sqFault
  refine ⟨?_, evtSet_setEvt (by decide) _ _⟩
  rw [getFk_setEvt_fld (by decide) (by decide) (by decide), setF, getFk_setFk_fld (by decide) (by decide) (by decide), setF,
    getFk_setFk_fld (by decide) (by decide) (by decide)]

theorem sqEnable_effect (r : Requester) (a v : Nat) (c q : Nat) (s : State) (h1 : a % 4 = 0) (h2 : target s r a = some (12, c, 0x108 + 64 * q)) (h3 : gate s r 12 c (0x108 + 64 * q) = .pass) (h4 : q < 4) (h5 : rangesOk v (fldsAt 12 (0x108 + 64 * q)) = true) :
    getFk (sqEnable r a v s) CQ_SQ_CFG_EN c q = bits v 8 1 ∧ (queueOf (sqEnable r a v s) c q).halted = ((queueOf s c q).halted && !(getFk s CQ_SQ_CFG_EN c q == 0 && bit v 8)) := by
  unfold sqEnable
  rw [if_pos h1, guarded_pass h2 h3, if_pos rfl]
  unfold sqEnableSet
  have e : (0x108 + 64 * q - 0x100) / 64 = q := by omega
  rw [if_pos ⟨by omega, by omega, by omega, h5⟩, e]
  dsimp only
  refine ⟨?_, by rw [queueOf_setFk, queueOf_modQueue_self]⟩
  rw [getFk_setFk_self _ _ _ _ _ (by decide)]
  exact Nat.mod_mod _ _

theorem nextSlot_queues {x y : Ctx} {n : Nat} (h : nextSlot x = some (n, y)) : y.queues = x.queues ∧ y.slots = x.slots := by
  unfold nextSlot at h
  split at h
  · cases h; exact ⟨rfl, rfl⟩
  · split at h
    · cases h; exact ⟨rfl, rfl⟩
    · cases h

theorem isComplete_accept (h w2 q op user r0 r1 : Nat) (hq : q < 4) : isComplete (cqEntry h w2 0 q op user r0 r1) = false := by
  have e : (((cqEntry h w2 0 q op user r0 r1).drop 6).take 1) = leBytes 1 (4 * q) := by
    unfold cqEntry
    simp [leBytes]
  unfold isComplete
  rw [e]
  have : q = 0 ∨ q = 1 ∨ q = 2 ∨ q = 3 := by omega
  rcases this with rfl | rfl | rfl | rfl <;> decide

/-- An ACCEPT that is posted moves neither slots, nor what the queue has accepted and started, nor SQ_HEAD. -/
theorem cqPost_accept {c q : Nat} {e : List Byte} (he : isComplete e = false) (s : State) :
    (∀ n, slotOf (cqPost c q e s) c n = slotOf s c n) ∧ (queueOf (cqPost c q e s) c q).waiting = (queueOf s c q).waiting ∧
    getFk (cqPost c q e s) CQ_SQ_HEAD c q = getFk s CQ_SQ_HEAD c q := by
  unfold cqPost
  split
  · unfold cqWrite
    dsimp only
    rw [he]
    simp only [Bool.false_eq_true, if_false]
    refine ⟨fun n => by simp, by simp, ?_⟩
    rw [incr, addF, addFk, getFk_setFk_fld (by decide) (by decide) (by decide), getFk_setFk_fld (by decide) (by decide) (by decide)]
    rfl
  · refine ⟨fun n => by simp, by simp, ?_⟩
    rw [getFk_setEvt_fld (by decide) (by decide) (by decide)]
    rfl

theorem sqEntryFetch_effect (c q : Nat) (entry : List Byte) (n : Nat) (x : Ctx) (s : State) (h1 : stopped s = false) (h2 : c < 16) (h3 : q < 4) (h4 : sqFetches s c q = true) (h5 : nextSlot (ctxOf s c) = some (n, x)) :
    (slotOf (running s (sqEntryFetch c q true entry s)) c n).inUse = true ∧ (slotOf (running s (sqEntryFetch c q true entry s)) c n).started = false ∧ (slotOf (running s (sqEntryFetch c q true entry s)) c n).entry = (entry ++ zeros 64).take 64 ∧ getFk (running s (sqEntryFetch c q true entry s)) CQ_SQ_HEAD c q = (getFk s CQ_SQ_HEAD c q + 1) % sqSize s c q % 65536 ∧ (queueOf (running s (sqEntryFetch c q true entry s)) c q).waiting = (queueOf s c q).waiting ++ [n] := by
  rw [running_eq _ h1]
  unfold sqEntryFetch
  rw [if_pos ⟨h2, h3, h4⟩, h5]
  dsimp only
  rw [if_pos rfl]
  unfold acceptEntry
  dsimp only
  obtain ⟨hq, hs⟩ := nextSlot_queues h5
  have acc := isComplete_accept (handleOf c n (slotOf (modCtx c (fun _ => x) s) c n).gen) (getFk s CQ_SQ_HEAD c q) q
    (opOf ((entry ++ zeros 64).take 64)) 0 0 0 h3
  generalize hy : modQueue c q _ _ = y
  obtain ⟨a, b, d⟩ := cqPost_accept (c := c) (q := q) acc y
  rw [a, b, d]
  subst hy
  refine ⟨by simp, by simp, by simp, ?_, ?_⟩
  · show getFk (setFk _ _ _ _ _) _ _ _ = _
    rw [getFk_setFk_self _ _ _ _ _ (by decide)]
    rfl
  · rw [queueOf_modQueue_self]
    show (queueOf _ c q).waiting ++ [n] = _
    rw [queueOf_setFk, queueOf_setF, queueOf_modSlot]
    unfold queueOf
    rw [ctxOf_modCtx_self, hq]

theorem commandStart_effect (c q : Nat) (n : Nat) (rest : List Nat) (s : State) (h1 : stopped s = false) (h2 : (queueOf s c q).waiting = n :: rest) (h3 : mayStart s c q (slotOf s c n).entry = true) (h4 : cmdValid (slotOf s c n).entry = true) (h5 : cmdDenied s c (slotOf s c n).entry = false) :
    (slotOf (running s (commandStart c q s)) c n).started = true ∧ (slotOf (running s (commandStart c q s)) c n).running = (slotOf s c n).running ∧ (queueOf (running s (commandStart c q s)) c q).waiting = rest ∧ (queueOf (running s (commandStart c q s)) c q).active = (queueOf s c q).active ++ [n] ∧ (running s (commandStart c q s)).reports = s.reports := by
  rw [running_eq _ h1]
  unfold commandStart
  rw [h2]
  dsimp only
  rw [if_pos h3, h4]
  have e : ∀ f, cmdDenied (modQueue c q f s) c (slotOf s c n).entry = cmdDenied s c (slotOf s c n).entry := fun _ => rfl
  simp only [e, h5, Bool.not_true, Bool.false_eq_true, if_false]
  exact ⟨by simp, by simp, by simp, by simp, rfl⟩

theorem commandInvalid_effect (c q : Nat) (n : Nat) (rest : List Nat) (s : State) (h1 : stopped s = false) (h2 : (queueOf s c q).waiting = n :: rest) (h3 : mayStart s c q (slotOf s c n).entry = true) (h4 : cmdValid (slotOf s c n).entry = false) :
    (running s (commandStart c q s)).reports = s.reports ++ [{ handle := handleOf c n (slotOf s c n).gen, status := 1, r0 := 0, r1 := 0 }] ∧ (queueOf (running s (commandStart c q s)) c q).waiting = rest := by
  rw [running_eq _ h1]
  unfold commandStart
  rw [h2]
  dsimp only
  rw [if_pos h3, h4]
  simp only [Bool.not_false, if_true]
  exact ⟨rfl, by simp⟩

theorem commandDenied_effect (c q : Nat) (n : Nat) (rest : List Nat) (s : State) (h1 : stopped s = false) (h2 : (queueOf s c q).waiting = n :: rest) (h3 : mayStart s c q (slotOf s c n).entry = true) (h4 : cmdValid (slotOf s c n).entry = true) (h5 : cmdDenied s c (slotOf s c n).entry = true) :
    (running s (commandStart c q s)).reports = s.reports ++ [{ handle := handleOf c n (slotOf s c n).gen, status := 2, r0 := 0, r1 := 0 }] ∧ getF (running s (commandStart c q s)) HOSTIF_DENIED_CNT 0 = (getF s HOSTIF_DENIED_CNT 0 + 1) % 2 ^ 32 := by
  rw [running_eq _ h1]
  unfold commandStart
  rw [h2]
  dsimp only
  rw [if_pos h3, h4]
  have e : ∀ f, cmdDenied (modQueue c q f s) c (slotOf s c n).entry = cmdDenied s c (slotOf s c n).entry := fun _ => rfl
  simp only [e, h5, Bool.not_true, Bool.false_eq_true, if_false, if_true]
  unfold denyCmd
  refine ⟨by simp [modSlot, modQueue], ?_⟩
  rw [getF_report, getF_setEvt_apart (by decide), getF_incr_self _ _ _ (by decide), getF_setF_apart (by decide), getF_setF_apart (by decide)]
  rfl

theorem leVal_leBytes (n v : Nat) : leVal (leBytes n v) = v % 256 ^ n := by
  induction n generalizing v with
  | zero => simp [leBytes, leVal, Nat.mod_one]
  | succ n ih =>
    simp only [leBytes, leVal, ih]
    rw [Nat.pow_succ, Nat.mul_comm (256 ^ n) 256, Nat.mod_mul]
    have : (BitVec.ofNat 8 v).toNat = v % 256 := by simp
    omega

theorem complete_entry (h st q op user r0 r1 : Nat) (hh : h < 2 ^ 32) :
    isComplete (cqEntry h st 1 q op user r0 r1) = true ∧ leVal ((cqEntry h st 1 q op user r0 r1).take 4) = h := by
  have e : (((cqEntry h st 1 q op user r0 r1).drop 6).take 1) = leBytes 1 (2 * 1 + 4 * q) := by
    unfold cqEntry
    simp [leBytes]
  have e2 : (cqEntry h st 1 q op user r0 r1).take 4 = leBytes 4 h := by
    unfold cqEntry
    simp [leBytes]
  refine ⟨?_, by rw [e2, leVal_leBytes]; omega⟩
  unfold isComplete
  rw [e, leVal_leBytes]
  unfold bit
  rw [Nat.testBit_eq_decide_div_mod_eq]
  exact decide_eq_true (by omega)

/-- A COMPLETE that is written frees the slot of its handle. -/
theorem cqWrite_complete {c q : Nat} {e : List Byte} (he : isComplete e = true) (s : State) :
    (slotOf (cqWrite c q e s) c (hSlot (leVal (e.take 4)))).inUse = false := by
  have free : ∀ n x, (slotOf (freeSlot c n x) c n).inUse = false := fun n x => by
    unfold freeSlot
    dsimp only
    rw [slotOf_setF, slotOf_modQueue]
    unfold slotOf
    rw [ctxOf_modCtx_self]
    show ((slotOf (modSlot c n _ x) c n)).inUse = false
    rw [slotOf_modSlot_self]
  have sig : ∀ (p : Prop) [Decidable p] x n, slotOf (if p then cqSignal c q x else x) c n = slotOf x c n := fun p _ x n => by
    split
    · unfold cqSignal; rw [slotOf_modQueue, slotOf_emit]
    · rfl
  unfold cqWrite
  dsimp only
  rw [he]
  simp only [if_true]
  rw [sig, slotOf_modQueue]
  exact free _ _

/-- The end of a command: its handle is no longer live (R516, R521). -/
theorem endCmd_dead {h : Nat} (st r0 r1 : Nat) {s : State} (hl : handleLive s h = true) : handleLive (endCmd h st r0 r1 s) h = false := by
  have hh : h < 2 ^ 32 := by
    unfold handleLive at hl
    simp only [Bool.and_eq_true, decide_eq_true_eq] at hl
    exact hl.1.2
  unfold endCmd cqPost
  dsimp only
  split
  · have := complete_entry h st (slotOf s (hCtx h) (hSlot h)).sq (opOf (slotOf s (hCtx h) (hSlot h)).entry)
      (userOf (slotOf s (hCtx h) (hSlot h)).entry) r0 r1 hh
    generalize cqEntry _ _ _ _ _ _ _ _ = e at *
    generalize modQueue _ _ _ _ = y
    have k := cqWrite_complete (c := hCtx h) (q := (slotOf s (hCtx h) (hSlot h)).sq) this.1 y
    rw [this.2] at k
    unfold handleLive
    dsimp only
    rw [k]
    simp
  · unfold handleLive
    dsimp only
    rw [slotOf_setEvt, slotOf_modQueue, slotOf_modQueue, slotOf_modSlot_self]
    simp

theorem completionReport_effect (n : Nat) (r : Report) (rest : List Report) (s : State) (h1 : stopped s = false) (h2 : takeAt n s.reports = some (r, rest)) (h3 : handleLive s r.handle = true) (h4 : cqStuck s (hCtx r.handle) (slotOf s (hCtx r.handle) (hSlot r.handle)).sq = false) (h5 : reportBehind s n r = false) :
    (running s (completionReport n s)).reports = rest ∧ handleLive (running s (completionReport n s)) r.handle = false := by
  rw [running_eq _ h1]
  unfold completionReport
  rw [h2]
  dsimp only
  rw [if_neg (by rw [h5]; decide), if_pos h3, if_neg (by rw [h4]; decide)]
  exact ⟨(endCmd_keeps (Has.refl _) _ _ _ _ (Keeps.refl _ _)).reports (by decide), endCmd_dead _ _ _ h3⟩

theorem completionStale_effect (n : Nat) (r : Report) (rest : List Report) (s : State) (h1 : stopped s = false) (h2 : takeAt n s.reports = some (r, rest)) (h3 : handleLive s r.handle = false) (h4 : reportBehind s n r = false) :
    (running s (completionReport n s)).reports = rest ∧ getF (running s (completionReport n s)) CQ_STALE_CNT (hCtx r.handle) = (getF s CQ_STALE_CNT (hCtx r.handle) + 1) % 2 ^ 32 ∧ evtSet (running s (completionReport n s)) CQ_EV_STALE (hCtx r.handle) = true := by
  rw [running_eq _ h1]
  unfold completionReport
  rw [h2]
  dsimp only
  rw [if_neg (by rw [h4]; decide), h3]
  simp only [Bool.false_eq_true, if_false]
  refine ⟨by simp, ?_, evtSet_setEvt (by decide) _ _⟩
  rw [getF_setEvt_apart (by decide), getF_incr_self _ _ _ (by decide)]
  rfl

theorem cqHead_effect (r : Requester) (a v waited : Nat) (c q : Nat) (s : State) (h1 : a % 4 = 0) (h2 : target s r a = some (12, c, 0x120 + 64 * q)) (h3 : gate s r 12 c (0x120 + 64 * q) = .pass) (h4 : q < 4) :
    getFk (cqHead r a v waited s) CQ_CQ_HEAD c q = v % 2 ^ 20 := by
  unfold cqHead
  rw [if_pos h1, guarded_pass h2 h3, if_pos rfl]
  unfold cqHeadSet
  have e : (0x120 + 64 * q - 0x100) / 64 = q := by omega
  rw [if_pos (by omega), e]
  dsimp only
  generalize (if (queueOf s c q).held.isEmpty = true then s else addF CQ_CQ_FULL_HCLK c waited s) = x
  rw [getFk_cqDrain_rw (g := CQ_CQ_HEAD) (by decide) (by decide)]
  show getFk (setFk _ _ _ _ _) _ _ _ = _
  rw [getFk_setFk_self _ _ _ _ _ (by decide)]
  exact Nat.mod_mod _ _

theorem coalesceTimer_effect (c q : Nat) (s : State) (h1 : stopped s = false) (h2 : (queueOf s c q).coal ≠ 0) (h3 : getFk s CQ_CQ_CFG_COAL_US c q ≠ 0) :
    (running s (coalesceTimer c q s)).out = s.out ++ [.msix (ownerFn s c) q] ∧ (queueOf (running s (coalesceTimer c q s)) c q).coal = 0 := by
  rw [running_eq _ h1]
  unfold coalesceTimer
  rw [if_pos ⟨h2, h3⟩]
  unfold cqSignal
  exact ⟨rfl, by simp⟩

theorem bar2Read_effect (off n : Nat) (bs : List Byte) (s : State) (h1 : isAwake s = true) (h2 : isF s HOSTIF_BAR2_CTRL_EN 0 = true) (h3 : memRead s 0 (bar2Addr s off) n = .data bs) :
    (awake s (bar2Read off n s)) = emit (.bar2 bs) (correctAll (weakRows s 0 (bar2Addr s off) n) s) := by
  rw [awake_eq _ h1]
  unfold bar2Read
  rw [if_pos h2, engRead_data h3 5]

theorem bar2ReadMiss_effect (off n : Nat) (s : State) (h1 : isAwake s = true) (h2 : isF s HOSTIF_BAR2_CTRL_EN 0 = false) :
    (awake s (bar2Read off n s)).out.getLast? = some (.bar2 (List.replicate n 0xFF)) ∧ getF (awake s (bar2Read off n s)) HOSTIF_BAR2_FAULT_CNT 0 = (getF s HOSTIF_BAR2_FAULT_CNT 0 + 1) % 2 ^ 32 := by
  rw [awake_eq _ h1]
  unfold bar2Read
  rw [if_neg (by rw [h2]; decide)]
  refine ⟨by simp, ?_⟩
  unfold bar2Fault
  rw [getF_emit, getF_setEvt_apart (by decide), getF_incr_self _ _ _ (by decide), getF_setF_apart (by decide), getF_setF_apart (by decide)]

theorem bar2Write_effect (off : Nat) (data : List Byte) (j k chan page o : Nat) (b : Byte) (s : State) (h1 : isAwake s = true) (h2 : isF s HOSTIF_BAR2_CTRL_EN 0 = true) (h3 : firstMiss s 0 (bar2Addr s off) data.length = none) (h4 : data[j]? = some b) (h5 : lookup s 0 (bar2Addr s off + j) = .hit chan page o) (h6 : redirect s chan page o = some k) (h7 : ∀ i, j < i → i < data.length → ∀ c p o, lookup s 0 (bar2Addr s off + i) = .hit c p o → redirect s c p o ≠ some k) :
    Store.get (0 : Byte) (awake s (bar2Write off data s)).mem k = b ∧ (awake s (bar2Write off data s)).out = s.out := by
  rw [awake_eq _ h1]
  unfold bar2Write
  rw [if_pos h2]
  dsimp only
  have e1 : (memWrite 0 (bar2Addr s off) data s).1 = true := by unfold memWrite; rw [h3]
  rw [if_pos e1]
  obtain ⟨hj, hb⟩ := List.getElem?_eq_some_iff.1 h4
  refine ⟨(get_memWrite_at h3 hj h5 h6 h7).trans hb, ?_⟩
  unfold memWrite
  rw [h3]
  have e2 : ∀ d a n (x : State), (unpoison d a n x).out = x.out := fun d a n x => by
    induction n with
    | zero => rfl
    | succ n ih => unfold unpoison; dsimp only; split <;> (try split) <;> exact ih
  have e3 : ∀ d bs a (x : State), (memPuts d a bs x).out = x.out := fun d bs => by
    induction bs with
    | nil => exact fun _ _ => rfl
    | cons b bs ih => intro a x; rw [memPuts, ih]; unfold memPut; split <;> (try split) <;> rfl
  dsimp only
  rw [e2, e3]

theorem bar2WriteMiss_effect (off : Nat) (data : List Byte) (l : Lookup) (s : State) (h1 : isAwake s = true) (h2 : isF s HOSTIF_BAR2_CTRL_EN 0 = true) (h3 : firstMiss s 0 (bar2Addr s off) data.length = some l) :
    (awake s (bar2Write off data s)).mem = s.mem ∧ getF (awake s (bar2Write off data s)) HOSTIF_BAR2_FAULT_CNT 0 = (getF s HOSTIF_BAR2_FAULT_CNT 0 + 1) % 2 ^ 32 ∧ evtSet (awake s (bar2Write off data s)) HOSTIF_EV_BAR2_FAULT 0 = true := by
  rw [awake_eq _ h1]
  unfold bar2Write
  rw [if_pos h2]
  dsimp only
  unfold memWrite
  rw [h3]
  dsimp only
  simp only [Bool.false_eq_true, if_false]
  unfold bar2Fault
  have e : (noteMiss l s).mem = s.mem ∧ getF (noteMiss l s) HOSTIF_BAR2_FAULT_CNT 0 = getF s HOSTIF_BAR2_FAULT_CNT 0 := by
    cases l <;> simp (disch := decide) [noteMiss, addrFault, getF_setEvt_apart, getF_incr_apart]
  refine ⟨by simp [e.1], ?_, evtSet_setEvt (by decide) _ _⟩
  rw [getF_setEvt_apart (by decide), getF_incr_self _ _ _ (by decide), getF_setF_apart (by decide), getF_setF_apart (by decide), e.2]

theorem nop_effect (h : Nat) (s : State) (h1 : stopped s = false) (h2 : cmdReady s h 1 = true) :
    (running s (nop h s)).reports = s.reports ++ [{ handle := h, status := 0, r0 := 0, r1 := 0 }] ∧ (slotOf (running s (nop h s)) (hCtx h) (hSlot h)).running = true := by
  rw [running_eq _ h1]
  unfold nop
  rw [runCmd_ready h2]
  exact ⟨rfl, by simp⟩

theorem setSeed_effect (h : Nat) (s : State) (h1 : stopped s = false) (h2 : cmdReady s h 0x10 = true) (h3 : stepIsOpen s (hCtx h) = false) :
    (running s (setSeed h s)).reports = s.reports ++ [{ handle := h, status := 0, r0 := 0, r1 := 0 }] ∧ (ctxOf (running s (setSeed h s)) (hCtx h)).seed = some (argOf (entryOf s h) 0) := by
  rw [running_eq _ h1]
  unfold setSeed
  rw [runCmd_ready h2]
  have e : ∀ f, stepIsOpen (modSlot (hCtx h) (hSlot h) f s) (hCtx h) = false := fun f => by
    unfold stepIsOpen modSlot; rw [ctxOf_modCtx_self]; exact h3
  simp only [e, Bool.false_eq_true, if_false]
  refine ⟨by simp [modSlot], ?_⟩
  simp

theorem setSeedBusy_effect (h : Nat) (s : State) (h1 : stopped s = false) (h2 : cmdReady s h 0x10 = true) (h3 : stepIsOpen s (hCtx h) = true) :
    (running s (setSeed h s)).reports = s.reports ++ [{ handle := h, status := 8, r0 := 0, r1 := 0 }] ∧ (ctxOf (running s (setSeed h s)) (hCtx h)).seed = (ctxOf s (hCtx h)).seed := by
  rw [running_eq _ h1]
  unfold setSeed
  rw [runCmd_ready h2]
  have e : ∀ f, stepIsOpen (modSlot (hCtx h) (hSlot h) f s) (hCtx h) = true := fun f => by
    unfold stepIsOpen modSlot; rw [ctxOf_modCtx_self]; exact h3
  simp only [e, if_true]
  refine ⟨by simp [modSlot], ?_⟩
  simp [modSlot]

end Sys2Proof.Machine
end

