-- ==== Sys2Proof/Laws/EffectsCulvert.lean ====
section
/-! SUPPORT. What the commands do: the commands of culvert. -/

namespace Sys2Proof.Machine

set_option linter.unusedSimpArgs false

theorem Alike.inbox (s : State) (r : List Frame) : Alike s { s with inbox := r } := ⟨rfl, rfl, fun _ _ => rfl, fun _ _ _ => rfl, rfl⟩

theorem twinIndexFrom_alike {s t : State} (h : Alike s t) (hr : t.regs = s.regs) (g : Nat) : ∀ n i, twinIndexFrom t g n i = twinIndexFrom s g n i
  | 0, _ => rfl
  | n + 1, i => by
    have e : twinRecAddr t i = twinRecAddr s i := by unfold twinRecAddr getF getFk; rw [hr]
    unfold twinIndexFrom
    rw [h.mval, e, twinIndexFrom_alike h hr g n]

theorem twinIndex_alike {s t : State} (h : Alike s t) (hr : t.regs = s.regs) (g : Nat) : twinIndex t g = twinIndex s g := by
  unfold twinIndex
  rw [twinIndexFrom_alike h hr]
  unfold twinCount getF getFk; rw [hr]

theorem twinBlk_inbox (s : State) (r : List Frame) (g : Nat) : twinBlk { s with inbox := r } g = twinBlk s g := by
  have a := Alike.inbox s r
  unfold twinBlk
  rw [twinIndex_alike a rfl]
  have e : ∀ i, twinAt { s with inbox := r } i = twinAt s i := fun i => by
    unfold twinAt
    rw [a.memRead]
    rfl
  cases twinIndex s g with
  | none => rfl
  | some i => rw [Option.map_some, Option.map_some, e]

theorem ownedBlk_inbox (s : State) (r : List Frame) (g : Nat) : ownedBlk { s with inbox := r } g = ownedBlk s g := by
  unfold ownedBlk
  rw [twinIndex_alike (Alike.inbox s r) rfl]

theorem culTake_head {k : Nat} {g : Frame → State → State} {s : State} {f : Frame} {r : List Frame} (h : culHead k [] s.inbox = some (f, r)) :
    culTake k g s = g f { s with inbox := r } := by
  unfold culTake; rw [h]

/-- Two states see module memory and the check areas alike. -/
structure See (s t : State) : Prop where
  alike : Alike s t
  base : getF t CULVERT_TCHK_BASE 0 = getF s CULVERT_TCHK_BASE 0

theorem See.of (s t : State) (h : Alike s t) (hr : t.regs = s.regs) : See s t := ⟨h, by unfold getF getFk; rw [hr]⟩

theorem See.chkArea {s t : State} (h : See s t) (i : Nat) : chkArea t i = chkArea s i := by
  unfold Sys2Proof.Machine.chkArea; rw [h.alike.mval, h.base]

theorem See.memStore {s t : State} (h : See s t) (d a : Nat) (bs : List Byte) : See (memStore d a bs s) (memStore d a bs t) :=
  ⟨h.alike.memStore d a bs, by
    have k := fun x : State => (memStore_keeps (Has.refl _) d a bs (Keeps.refl _ x)).getFk reg_CULVERT_TCHK_BASE (by decide) 0 0
    exact (k t).trans (h.base.trans (k s).symm)⟩

theorem See.setChkFlags {s t : State} (h : See s t) (i x y : Nat) : See (setChkFlags i x y s) (setChkFlags i x y t) := by
  unfold Sys2Proof.Machine.setChkFlags chkFlags
  rw [h.chkArea, h.alike.mval]
  exact h.memStore ..

theorem See.recPut {s t : State} (h : See s t) (b : Blk) (o n v : Nat) : See (recPut b o n v s) (recPut b o n v t) := h.memStore ..

theorem See.storedAddr {s t : State} (h : See s t) (i : Nat) (b : Blk) (k n : Nat) : storedAddr t i b k n = storedAddr s i b k n := by
  unfold Sys2Proof.Machine.storedAddr wgtAddr
  rw [h.alike.recGet, h.chkArea]

theorem See.adoptTable {s t : State} (h : See s t) (x : CulXfer) (a e n : Nat) : See (adoptTable x a e n s) (adoptTable x a e n t) := h.memStore ..

theorem find_filter_not {α : Type} (p : α → Bool) (l : List α) : (l.filter fun y => !p y).find? p = none :=
  List.find?_eq_none.2 fun y hy => by simpa using (List.mem_filter.1 hy).2

/-- A transfer that is put is found. -/
theorem xferAt_putXfer (x : CulXfer) (s : State) : xferAt (putXfer x s) x.gbi x.grp x.aud = some x := by
  unfold xferAt putXfer
  dsimp only
  rw [List.find?_append, find_filter_not]
  simp

theorem xferAt_some {s : State} {g k : Nat} {a : Bool} {x : CulXfer} (h : xferAt s g k a = some x) : x.gbi = g ∧ x.grp = k ∧ x.aud = a := by
  have := List.find?_some h
  simp only [Bool.and_eq_true, beq_iff_eq] at this
  exact ⟨this.1.1, this.1.2, this.2⟩

theorem noClose_closable {s t : State} {b : Blk} (h : noClose t.cul.xfers b.gbi = true) :
    (t.cul.xfers.find? fun x => x.gbi == b.gbi && closable s b x) = none :=
  List.find?_eq_none.2 fun y hy => by
    have := List.all_eq_true.1 h y hy
    by_cases e : y.gbi = b.gbi
    · have c : y.close = none := by simpa [e] using this
      unfold closable; rw [c]; simp
    · simp [e]

/-- Where no close frame of a block waits, nothing of it is settled. -/
theorem settleBlk_open {i : Nat} {b : Blk} {s : State} (h : noClose s.cul.xfers b.gbi = true) (n : Nat) : settleBlk i b n s = s := by
  cases n with
  | zero => rfl
  | succ n => unfold settleBlk; rw [noClose_closable h]

theorem noClose_putXfer {x : CulXfer} {s : State} {g : Nat} (h : noClose s.cul.xfers g = true) (hx : x.close = none) :
    noClose (putXfer x s).cul.xfers g = true := by
  unfold noClose putXfer
  dsimp only
  rw [List.all_append, Bool.and_eq_true]
  refine ⟨List.all_eq_true.2 fun y hy => List.all_eq_true.1 h y (List.mem_filter.1 hy).1, by simp [hx]⟩

theorem openFrame_effect (f : Frame) (r : List Frame) (i : Nat) (b : Blk) (s : State) (h1 : isAwake s = true) (h2 : culHead 0xF [] s.inbox = some (f, r)) (h3 : twinBlk s (uGbi f) = some (i, b)) (h4 : 8 ≤ pay f.payload 0 1) (h5 : pay f.payload 0 1 ≤ 10) (h6 : uAud f = false) (h7 : xferAt s b.gbi (pay f.payload 0 1) false = none) :
    (awake s (culTake 0xF culOpenTake s)).inbox = r ∧ xferAt (awake s (culTake 0xF culOpenTake s)) b.gbi (pay f.payload 0 1) false = some { gbi := b.gbi, grp := pay f.payload 0 1, aud := false, stamp := pay f.payload 4 4 } ∧ (awake s (culTake 0xF culOpenTake s)).mem = (if pay f.payload 0 1 = 8 then memStore 0 (chkArea (setChkFlags i (2 ^ (grpBit (pay f.payload 0 1) + 3)) 0 s) i + 4) (leBytes 4 (pay f.payload 4 4)) (setChkFlags i (2 ^ (grpBit (pay f.payload 0 1) + 3)) 0 s) else if pay f.payload 0 1 = 10 then memStore 0 (chkArea (setChkFlags i (2 ^ (grpBit (pay f.payload 0 1) + 3)) 0 s) i + 8) (leBytes 4 (pay f.payload 4 4)) (setChkFlags i (2 ^ (grpBit (pay f.payload 0 1) + 3)) 0 s) else (setChkFlags i (2 ^ (grpBit (pay f.payload 0 1) + 3)) 0 s)).mem := by
  rw [awake_eq _ h1, culTake_head h2]
  unfold culOpenTake
  rw [twinBlk_inbox, h3]
  dsimp only
  rw [if_neg (by omega), h6]
  have xn : ∀ o : Store (Nat × Nat × Bool), xferAt { s with inbox := r, cul := { s.cul with opens := o } } b.gbi (pay f.payload 0 1) false = none := fun _ => h7
  rw [xn]
  dsimp only
  unfold culOpenTake.start
  rw [h6]
  dsimp only
  simp only [Bool.false_and, Bool.false_eq_true, if_false]
  generalize hx : putXfer _ _ = x
  have sx : See s x := by subst hx; exact See.of _ _ ⟨rfl, rfl, fun _ _ => rfl, fun _ _ _ => rfl, rfl⟩ rfl
  have fx : xferAt x b.gbi (pay f.payload 0 1) false = some { gbi := b.gbi, grp := pay f.payload 0 1, aud := false, stamp := pay f.payload 4 4 } := by
    rw [← hx]; exact xferAt_putXfer { gbi := b.gbi, grp := pay f.payload 0 1, aud := false, stamp := pay f.payload 4 4 } _
  have bx : x.inbox = r := by rw [← hx]; rfl
  clear hx
  have s2 := sx.setChkFlags i (2 ^ (grpBit (pay f.payload 0 1) + 3)) 0
  have k2 := setChkFlags_keeps (Has.refl _) i (2 ^ (grpBit (pay f.payload 0 1) + 3)) 0 (Keeps.refl _ x)
  have c2 := k2.cul (by decide)
  have b2 := k2.inbox (by decide)
  generalize setChkFlags i (2 ^ (grpBit (pay f.payload 0 1) + 3)) 0 x = y at s2 c2 b2 ⊢
  rw [s2.chkArea]
  have ms : ∀ a v, (memStore 0 a v y).cul = x.cul ∧ (memStore 0 a v y).inbox = r := fun a v => by
    have k := memStore_keeps (Has.refl _) 0 a v (Keeps.refl _ y)
    exact ⟨(k.cul (by decide)).trans c2, (k.inbox (by decide)).trans (b2.trans bx)⟩
  have xf : ∀ z : State, z.cul = x.cul → xferAt z b.gbi (pay f.payload 0 1) false = some { gbi := b.gbi, grp := pay f.payload 0 1, aud := false, stamp := pay f.payload 4 4 } := fun z hz => by
    rw [← fx]; unfold xferAt; rw [hz]
  split
  · exact ⟨(ms _ _).2, xf _ (ms _ _).1, (s2.memStore _ _ _).alike.mem⟩
  · split
    · exact ⟨(ms _ _).2, xf _ (ms _ _).1, (s2.memStore _ _ _).alike.mem⟩
    · exact ⟨b2.trans bx, xf _ c2, s2.alike.mem⟩

theorem See.incAddr {s t : State} (h : See s t) (i : Nat) (b : Blk) (g e : Nat) : incAddr t i b g e = incAddr s i b g e := by
  unfold Sys2Proof.Machine.incAddr; rw [h.chkArea]

/-- Entries of a table that arrive at the twin for a transfer without waiting tiles. -/
theorem tabAtTwin_spec {i : Nat} {b : Blk} {grp : Nat} {f : Frame} {r : List Frame} {s : State} {x : CulXfer} (h1 : xferAt s b.gbi grp (uAud f) = some x)
    (h2 : x.failed = false) (h3 : x.wait = []) (h4 : x.close = none) (h5 : noClose s.cul.xfers b.gbi = true) :
    let u := tabAtTwin i b grp f { s with inbox := r }
    u.inbox = r ∧ xferAt u b.gbi grp (uAud f) = some { x with tab := (((wordsOf 4 f.payload).take (grpEntries b grp - uOff f / 4)).zipIdx.foldl
      (fun t e => t.ins (uOff f / 4 + e.2) e.1) x.tab) } ∧ u.mem = (if uAud f then s.mem else
        (memStore 0 (incAddr s i b grp (uOff f / 4)) (((wordsOf 4 f.payload).take (grpEntries b grp - uOff f / 4)).flatMap (leBytes 4)) s).mem) := by
  dsimp only
  obtain ⟨e1, e2, e3⟩ := xferAt_some h1
  have h1' : xferAt { s with inbox := r } b.gbi grp (uAud f) = some x := h1
  generalize hX : ({ x with tab := (((wordsOf 4 f.payload).take (grpEntries b grp - uOff f / 4)).zipIdx.foldl
      (fun t e => t.ins (uOff f / 4 + e.2) e.1) x.tab) } : CulXfer) = X
  unfold tabAtTwin
  rw [h1']
  dsimp only
  rw [if_neg (by rw [h2]; decide), hX, h3]
  unfold recheck
  generalize hx : putXfer _ _ = y
  have sy : See s y := by subst hx; exact See.of _ _ ⟨rfl, rfl, fun _ _ => rfl, fun _ _ _ => rfl, rfl⟩ rfl
  have by' : y.inbox = r := by subst hx; rfl
  have fy : xferAt y b.gbi grp (uAud f) = some X := by
    subst hx
    rw [← e1, ← e2, ← e3, ← hX]
    exact xferAt_putXfer { x with tab := _ } _
  have cy : noClose y.cul.xfers b.gbi = true := by subst hx; exact noClose_putXfer h5 (by rw [← hX]; exact h4)
  clear hx
  rw [sy.incAddr]
  have ms := fun a v => memStore_keeps (Has.refl _) 0 a v (Keeps.refl _ y)
  split
  · rw [settleBlk_open cy]; exact ⟨by', fy, sy.alike.mem⟩
  · rw [settleBlk_open (by rw [(ms _ _).cul (by decide)]; exact cy)]
    refine ⟨((ms _ _).inbox (by decide)).trans by', ?_, (sy.memStore _ _ _).alike.mem⟩
    rw [← fy]; unfold xferAt; rw [(ms _ _).cul (by decide)]

theorem tabWf_effect (f : Frame) (r : List Frame) (i : Nat) (b : Blk) (x : CulXfer) (g : Nat) (s : State) (h1 : isAwake s = true) (h2 : culHead 6 [] s.inbox = some (f, r)) (h3 : twinBlk s (uGbi f) = some (i, b)) (h4 : s.cul.opens.get (0, 0, false) f.oport = (b.gbi, g, uAud f)) (h5 : g ≠ 10) (h6 : xferAt s b.gbi (g) (uAud f) = some x) (h7 : x.failed = false) (h8 : x.wait = []) (h9 : x.close = none) (h10 : noClose s.cul.xfers b.gbi = true) :
    (awake s (culTake 6 (culTab 6) s)).inbox = r ∧ xferAt (awake s (culTake 6 (culTab 6) s)) b.gbi (g) (uAud f) = some { x with tab := (((wordsOf 4 f.payload).take (grpEntries b (g) - uOff f / 4)).zipIdx.foldl (fun t e => t.ins (uOff f / 4 + e.2) e.1) x.tab) } ∧ (awake s (culTake 6 (culTab 6) s)).mem = (if uAud f then s.mem else (memStore 0 (incAddr s i b (g) (uOff f / 4)) (((wordsOf 4 f.payload).take (grpEntries b (g) - uOff f / 4)).flatMap (leBytes 4)) s).mem) := by
  rw [awake_eq _ h1, culTake_head h2]
  unfold culTab
  rw [twinBlk_inbox, h3]
  dsimp only
  have ho : Store.get (0, 0, false) s.cul.opens f.oport = (b.gbi, g, uAud f) := h4
  rw [if_neg (by decide), ho, if_pos ⟨rfl, h5, rfl⟩]
  exact tabAtTwin_spec h6 h7 h8 h9 h10

theorem tabR_effect (f : Frame) (r : List Frame) (i : Nat) (b : Blk) (x : CulXfer) (s : State) (h1 : isAwake s = true) (h2 : culHead 7 [] s.inbox = some (f, r)) (h3 : twinBlk s (uGbi f) = some (i, b)) (h4 : xferAt s b.gbi (10) (uAud f) = some x) (h5 : x.failed = false) (h6 : x.wait = []) (h7 : x.close = none) (h8 : noClose s.cul.xfers b.gbi = true) :
    (awake s (culTake 7 (culTab 7) s)).inbox = r ∧ xferAt (awake s (culTake 7 (culTab 7) s)) b.gbi (10) (uAud f) = some { x with tab := (((wordsOf 4 f.payload).take (grpEntries b (10) - uOff f / 4)).zipIdx.foldl (fun t e => t.ins (uOff f / 4 + e.2) e.1) x.tab) } ∧ (awake s (culTake 7 (culTab 7) s)).mem = (if uAud f then s.mem else (memStore 0 (incAddr s i b (10) (uOff f / 4)) (((wordsOf 4 f.payload).take (grpEntries b (10) - uOff f / 4)).flatMap (leBytes 4)) s).mem) := by
  rw [awake_eq _ h1, culTake_head h2]
  unfold culTab
  rw [twinBlk_inbox, h3]
  dsimp only
  rw [if_pos rfl]
  exact tabAtTwin_spec h4 h5 h6 h7 h8

theorem tabROwner_effect (f : Frame) (r : List Frame) (b : Blk) (s : State) (h1 : isAwake s = true) (h2 : culHead 7 [] s.inbox = some (f, r)) (h3 : twinBlk s (uGbi f) = none) (h4 : ownedBlk s (uGbi f) = some b) :
    (awake s (culTake 7 (culTab 7) s)).inbox = r ∧ (awake s (culTake 7 (culTab 7) s)).mem = s.mem ∧ (awake s (culTake 7 (culTab 7) s)).cul.fetches = s.cul.fetches.map fun x => if x.gbi = b.gbi ∧ x.asked ∧ kindGrp x.kind = 10 ∧ uOff f ≤ 4 * entryIdx b x.kind x.tile ∧ 4 * entryIdx b x.kind x.tile < uOff f + f.payload.length then { x with entry := some (pay f.payload (4 * entryIdx b x.kind x.tile - uOff f) 4) } else x := by
  rw [awake_eq _ h1, culTake_head h2]
  unfold culTab
  rw [twinBlk_inbox, h3]
  dsimp only
  rw [ownedBlk_inbox, h4]
  exact ⟨rfl, rfl, rfl⟩

/-- Data that does not complete a tile is kept at the twin. -/
theorem dataAtTwin_part {i : Nat} {b : Blk} {k : Nat} {f : Frame} {r : List Frame} {s : State} {x : CulXfer} (h1 : xferAt s b.gbi (kindGrp k) (uAud f) = some x)
    (h2 : x.failed = false) (h3 : offTile b k (uOff f) < bufTiles b k + b2n (k == 1))
    (h4 : joinParts (x.parts.put [] (k * 2 ^ 34 + uOff f) f.payload) (k * 2 ^ 34 + tileBytes k * offTile b k (uOff f)) (tileLen b k (offTile b k (uOff f))) = none) :
    let u := dataAtTwin i b k f { s with inbox := r }
    u.inbox = r ∧ xferAt u b.gbi (kindGrp k) (uAud f) = some { x with parts := x.parts.put [] (k * 2 ^ 34 + uOff f) f.payload } ∧ u.mem = s.mem := by
  dsimp only
  obtain ⟨e1, e2, e3⟩ := xferAt_some h1
  have h1' : xferAt { s with inbox := r } b.gbi (kindGrp k) (uAud f) = some x := h1
  unfold dataAtTwin
  rw [h1']
  dsimp only
  rw [if_neg (by rw [h2]; simp; omega)]
  rw [h4]
  refine ⟨rfl, ?_, rfl⟩
  rw [← e1, ← e2, ← e3]
  exact xferAt_putXfer { x with parts := _ } _

theorem wgt_effect (f : Frame) (r : List Frame) (i : Nat) (b : Blk) (x : CulXfer) (s : State) (h1 : isAwake s = true) (h2 : culHead 1 [] s.inbox = some (f, r)) (h3 : twinBlk s (uGbi f) = some (i, b)) (h4 : xferAt s b.gbi 8 (uAud f) = some x) (h5 : x.failed = false) (h6 : offTile b 1 (uOff f) < bufTiles b 1 + 1) (h7 : joinParts (x.parts.put [] (1 * 2 ^ 34 + uOff f) f.payload) (1 * 2 ^ 34 + tileBytes 1 * offTile b 1 (uOff f)) (tileLen b 1 (offTile b 1 (uOff f))) = none) :
    (awake s (culTake 1 (culDataTake 1) s)).inbox = r ∧ (awake s (culTake 1 (culDataTake 1) s)).mem = s.mem ∧ xferAt (awake s (culTake 1 (culDataTake 1) s)) b.gbi 8 (uAud f) = some { x with parts := x.parts.put [] (1 * 2 ^ 34 + uOff f) f.payload } := by
  rw [awake_eq _ h1, culTake_head h2]
  unfold culDataTake
  rw [twinBlk_inbox, h3]
  dsimp only
  have := dataAtTwin_part (i := i) (r := r) (k := 1) h4 h5 h6 h7
  exact ⟨this.1, this.2.2, this.2.1⟩

theorem fac0_effect (f : Frame) (r : List Frame) (i : Nat) (b : Blk) (x : CulXfer) (s : State) (h1 : isAwake s = true) (h2 : culHead 2 [] s.inbox = some (f, r)) (h3 : twinBlk s (uGbi f) = some (i, b)) (h4 : xferAt s b.gbi 9 (uAud f) = some x) (h5 : x.failed = false) (h6 : offTile b 2 (uOff f) < bufTiles b 2 + 0) (h7 : joinParts (x.parts.put [] (2 * 2 ^ 34 + uOff f) f.payload) (2 * 2 ^ 34 + tileBytes 2 * offTile b 2 (uOff f)) (tileLen b 2 (offTile b 2 (uOff f))) = none) :
    (awake s (culTake 2 (culDataTake 2) s)).inbox = r ∧ (awake s (culTake 2 (culDataTake 2) s)).mem = s.mem ∧ xferAt (awake s (culTake 2 (culDataTake 2) s)) b.gbi 9 (uAud f) = some { x with parts := x.parts.put [] (2 * 2 ^ 34 + uOff f) f.payload } := by
  rw [awake_eq _ h1, culTake_head h2]
  unfold culDataTake
  rw [twinBlk_inbox, h3]
  dsimp only
  have := dataAtTwin_part (i := i) (r := r) (k := 2) h4 h5 h6 h7
  exact ⟨this.1, this.2.2, this.2.1⟩

theorem fac1_effect (f : Frame) (r : List Frame) (i : Nat) (b : Blk) (x : CulXfer) (s : State) (h1 : isAwake s = true) (h2 : culHead 3 [] s.inbox = some (f, r)) (h3 : twinBlk s (uGbi f) = some (i, b)) (h4 : xferAt s b.gbi 9 (uAud f) = some x) (h5 : x.failed = false) (h6 : offTile b 3 (uOff f) < bufTiles b 3 + 0) (h7 : joinParts (x.parts.put [] (3 * 2 ^ 34 + uOff f) f.payload) (3 * 2 ^ 34 + tileBytes 3 * offTile b 3 (uOff f)) (tileLen b 3 (offTile b 3 (uOff f))) = none) :
    (awake s (culTake 3 (culDataTake 3) s)).inbox = r ∧ (awake s (culTake 3 (culDataTake 3) s)).mem = s.mem ∧ xferAt (awake s (culTake 3 (culDataTake 3) s)) b.gbi 9 (uAud f) = some { x with parts := x.parts.put [] (3 * 2 ^ 34 + uOff f) f.payload } := by
  rw [awake_eq _ h1, culTake_head h2]
  unfold culDataTake
  rw [twinBlk_inbox, h3]
  dsimp only
  have := dataAtTwin_part (i := i) (r := r) (k := 3) h4 h5 h6 h7
  exact ⟨this.1, this.2.2, this.2.1⟩

theorem root0_effect (f : Frame) (r : List Frame) (i : Nat) (b : Blk) (x : CulXfer) (s : State) (h1 : isAwake s = true) (h2 : culHead 4 [] s.inbox = some (f, r)) (h3 : twinBlk s (uGbi f) = some (i, b)) (h4 : xferAt s b.gbi 10 (uAud f) = some x) (h5 : x.failed = false) (h6 : offTile b 4 (uOff f) < bufTiles b 4 + 0) (h7 : joinParts (x.parts.put [] (4 * 2 ^ 34 + uOff f) f.payload) (4 * 2 ^ 34 + tileBytes 4 * offTile b 4 (uOff f)) (tileLen b 4 (offTile b 4 (uOff f))) = none) :
    (awake s (culTake 4 (culDataTake 4) s)).inbox = r ∧ (awake s (culTake 4 (culDataTake 4) s)).mem = s.mem ∧ xferAt (awake s (culTake 4 (culDataTake 4) s)) b.gbi 10 (uAud f) = some { x with parts := x.parts.put [] (4 * 2 ^ 34 + uOff f) f.payload } := by
  rw [awake_eq _ h1, culTake_head h2]
  unfold culDataTake
  rw [twinBlk_inbox, h3]
  dsimp only
  have := dataAtTwin_part (i := i) (r := r) (k := 4) h4 h5 h6 h7
  exact ⟨this.1, this.2.2, this.2.1⟩

theorem root1_effect (f : Frame) (r : List Frame) (i : Nat) (b : Blk) (x : CulXfer) (s : State) (h1 : isAwake s = true) (h2 : culHead 5 [] s.inbox = some (f, r)) (h3 : twinBlk s (uGbi f) = some (i, b)) (h4 : xferAt s b.gbi 10 (uAud f) = some x) (h5 : x.failed = false) (h6 : offTile b 5 (uOff f) < bufTiles b 5 + 0) (h7 : joinParts (x.parts.put [] (5 * 2 ^ 34 + uOff f) f.payload) (5 * 2 ^ 34 + tileBytes 5 * offTile b 5 (uOff f)) (tileLen b 5 (offTile b 5 (uOff f))) = none) :
    (awake s (culTake 5 (culDataTake 5) s)).inbox = r ∧ (awake s (culTake 5 (culDataTake 5) s)).mem = s.mem ∧ xferAt (awake s (culTake 5 (culDataTake 5) s)) b.gbi 10 (uAud f) = some { x with parts := x.parts.put [] (5 * 2 ^ 34 + uOff f) f.payload } := by
  rw [awake_eq _ h1, culTake_head h2]
  unfold culDataTake
  rw [twinBlk_inbox, h3]
  dsimp only
  have := dataAtTwin_part (i := i) (r := r) (k := 5) h4 h5 h6 h7
  exact ⟨this.1, this.2.2, this.2.1⟩

theorem See.closeWeights {s t : State} (h : See s t) (i : Nat) (b : Blk) (x : CulXfer) (p : List Byte) : See (closeWeights i b x p s) (closeWeights i b x p t) := by
  unfold Sys2Proof.Machine.closeWeights
  rw [h.storedAddr]
  exact ((((h.adoptTable x _ _ _).recPut b 24 4 _).recPut b 17 1 _).recPut b 44 2 _).setChkFlags i 1 8

theorem mem_culAck (g st k e : Nat) (s : State) : (culAck g st k e s).mem = s.mem :=
  (culAck_keeps (Has.refl _) g st k e (Keeps.refl _ s)).mem (by decide)

theorem closeFactors_see {s t : State} (h : See s t) (i : Nat) (b : Blk) (x : CulXfer) (p : List Byte) : (closeFactors i b x p t).mem = (closeFactors i b x p s).mem := by
  unfold Sys2Proof.Machine.closeFactors
  rw [mem_culAck, mem_culAck]
  dsimp only
  rw [h.storedAddr]
  have h1 := h.adoptTable x (Sys2Proof.Machine.storedAddr s i b 2 0) 0 (lF b.lat)
  rw [h1.storedAddr]
  have h2 := h1.adoptTable x (Sys2Proof.Machine.storedAddr (Sys2Proof.Machine.adoptTable x (Sys2Proof.Machine.storedAddr s i b 2 0) 0 (lF b.lat) s) i b 3 0) (lF b.lat) (lF b.lat)
  have fin : ∀ {y z : State}, See y z → (setChkFlags i 2 16 (recPut b 28 4 (pay p 0 4) (if bit (pay p 6 1) 0 = true then recPut b 48 1 1 (recPut b 40 4 (pay p 8 4) (recPut b 46 2 (pay p 4 2) z)) else recPut b 40 4 (pay p 8 4) (recPut b 46 2 (pay p 4 2) z)))).mem =
      (setChkFlags i 2 16 (recPut b 28 4 (pay p 0 4) (if bit (pay p 6 1) 0 = true then recPut b 48 1 1 (recPut b 40 4 (pay p 8 4) (recPut b 46 2 (pay p 4 2) y)) else recPut b 40 4 (pay p 8 4) (recPut b 46 2 (pay p 4 2) y)))).mem := fun {y z} k => by
    have k2 := (k.recPut b 46 2 (pay p 4 2)).recPut b 40 4 (pay p 8 4)
    cases bit (pay p 6 1) 0 with
    | true => exact (((k2.recPut b 48 1 1).recPut b 28 4 _).setChkFlags i 2 16).alike.mem
    | false => exact ((k2.recPut b 28 4 _).setChkFlags i 2 16).alike.mem
  by_cases e1 : bit (pay p 6 1) 1 = true
  · rw [if_pos e1, if_pos e1]
    by_cases e2 : bit (pay p 6 1) 0 = true
    · have f := fin h2
      rw [if_pos e2, if_pos e2] at f ⊢
      rw [if_pos e2, if_pos e2]
      exact f
    · have f := fin h1
      rw [if_neg e2, if_neg e2] at f ⊢
      rw [if_neg e2, if_neg e2]
      exact f
  · rw [if_neg e1, if_neg e1]
    exact fin h

theorem closeRoots_see {s t : State} (h : See s t) (i : Nat) (b : Blk) (x : CulXfer) (p : List Byte) : (closeRoots i b x p t).mem = (closeRoots i b x p s).mem := by
  unfold Sys2Proof.Machine.closeRoots
  rw [mem_culAck, mem_culAck]
  rw [h.storedAddr]
  exact ((((h.adoptTable x _ _ _).recPut b 32 8 _).recPut b 48 1 0).setChkFlags i 4 32).alike.mem

theorem find_append_only {α : Type} {p : α → Bool} {l : List α} {x : α} (h : l.find? p = none) (hx : p x = true) : (l ++ [x]).find? p = some x := by
  rw [List.find?_append, h]; simp [hx]

theorem delXfer_xfers (x : CulXfer) (s : State) : (delXfer x (putXfer x s)).cul.xfers = s.cul.xfers.filter fun y => !(y.gbi == x.gbi && y.grp == x.grp && y.aud == x.aud) := by
  unfold delXfer putXfer
  dsimp only
  rw [List.filter_append, List.filter_filter]
  simp

/-- A transfer of a commit or publication that its close frame completes is processed at once, when no other close frame of its block
waits. -/
theorem settleBlk_closes {i : Nat} {b : Blk} {x : CulXfer} {s : State} (g : x.gbi = b.gbi)
    (n : noClose (s.cul.xfers.filter fun y => !(y.gbi == x.gbi && y.grp == x.grp && y.aud == x.aud)) b.gbi = true)
    (c : closable (putXfer x s) b x = true)
    (k : ∀ z : State, (closeXferAt i b x z).cul = (delXfer x z).cul ∧ (closeXferAt i b x z).inbox = z.inbox) :
    settleBlk i b 3 (putXfer x s) = closeXferAt i b x (putXfer x s) := by
  have fx : ((putXfer x s).cul.xfers.find? fun y => y.gbi == b.gbi && closable (putXfer x s) b y) = some x := by
    refine find_append_only ?_ (by rw [c, g]; simp)
    refine List.find?_eq_none.2 fun y hy => ?_
    have := List.all_eq_true.1 n y hy
    by_cases e : y.gbi = b.gbi
    · have d : y.close = none := by simpa [e] using this
      unfold closable; rw [d]; simp
    · simp [e]
  rw [settleBlk, fx]
  dsimp only
  refine settleBlk_open ?_ _
  rw [(k _).1, delXfer_xfers]
  exact n

theorem closeW_effect (f : Frame) (r : List Frame) (i : Nat) (b : Blk) (x : CulXfer) (s : State) (h1 : isAwake s = true) (h2 : culHead 8 [] s.inbox = some (f, r)) (h3 : twinBlk s (uGbi f) = some (i, b)) (h4 : uAud f = false) (h5 : x = { ((xferAt s b.gbi 8 false).getD { gbi := b.gbi, grp := 8, aud := false, stamp := pay f.payload 0 4 }) with close := some f.payload }) (h6 : x.failed = false) (h7 : (neededTiles b x f.payload).all x.passed.contains = true) (h8 : noClose (s.cul.xfers.filter fun y => !(y.gbi == b.gbi && y.grp == 8 && y.aud == false)) b.gbi = true) :
    (awake s (culTake 8 (culClose 8) s)).inbox = r ∧ xferAt (awake s (culTake 8 (culClose 8) s)) b.gbi 8 false = none ∧ (awake s (culTake 8 (culClose 8) s)).mem = (closeWeights i b x f.payload s).mem := by
  rw [awake_eq _ h1, culTake_head h2]
  unfold culClose
  rw [twinBlk_inbox, h3]
  dsimp only
  rw [h4]
  have xi : xferAt { s with inbox := r } b.gbi 8 false = xferAt s b.gbi 8 false := rfl
  rw [xi]
  generalize hX : (xferAt s b.gbi 8 false).getD { gbi := b.gbi, grp := 8, aud := false, stamp := pay f.payload 0 4 } = X at h5
  have eX : X.gbi = b.gbi ∧ X.grp = 8 ∧ X.aud = false := by
    rw [← hX]
    cases hh : xferAt s b.gbi 8 false with
    | none => exact ⟨rfl, rfl, rfl⟩
    | some y => exact xferAt_some hh
  obtain ⟨e1, e2, e3⟩ := eX
  have f1 : x.gbi = b.gbi := by rw [h5]; exact e1
  have f2 : x.grp = 8 := by rw [h5]; exact e2
  have f3 : x.aud = false := by rw [h5]; exact e3
  have f4 : x.close = some f.payload := by rw [h5]
  have f5 : X.failed = false := by rw [← h6, h5]
  rw [if_neg (by rw [f5]; simp), ← h5]
  have nx : noClose (s.cul.xfers.filter fun y => !(y.gbi == x.gbi && y.grp == x.grp && y.aud == x.aud)) b.gbi = true := by rw [f1, f2, f3]; exact h8
  have cl : ∀ z : State, closeXferAt i b x z = closeWeights i b x f.payload (delXfer x z) := fun z => by
    unfold closeXferAt
    dsimp only
    rw [f3, f2, f4]
    rfl
  have kp : ∀ z : State, (closeXferAt i b x z).cul = (delXfer x z).cul ∧ (closeXferAt i b x z).inbox = z.inbox := fun z => by
    rw [cl]
    have k := closeWeights_keeps (Has.refl _) i b x f.payload (Keeps.refl _ (delXfer x z))
    exact ⟨k.cul (by decide), k.inbox (by decide)⟩
  rw [settleBlk_closes (s := { s with inbox := r }) f1 nx ?_ kp]
  · refine ⟨(kp _).2, ?_, ?_⟩
    · unfold xferAt
      rw [(kp _).1, delXfer_xfers, f1, f2, f3]
      exact find_filter_not _ _
    · rw [cl]
      have sz : See s (delXfer x (putXfer x { s with inbox := r })) := See.of _ _ ⟨rfl, rfl, fun _ _ => rfl, fun _ _ _ => rfl, rfl⟩ rfl
      exact (See.closeWeights sz i b x f.payload).alike.mem
  · unfold closable
    rw [f4]
    dsimp only
    rw [h6, f2, f3]
    simpa using h7

theorem closeF_effect (f : Frame) (r : List Frame) (i : Nat) (b : Blk) (x : CulXfer) (s : State) (h1 : isAwake s = true) (h2 : culHead 9 [] s.inbox = some (f, r)) (h3 : twinBlk s (uGbi f) = some (i, b)) (h4 : uAud f = false) (h5 : x = { ((xferAt s b.gbi 9 false).getD { gbi := b.gbi, grp := 9, aud := false, stamp := pay f.payload 0 4 }) with close := some f.payload }) (h6 : x.failed = false) (h7 : (neededTiles b x f.payload).all x.passed.contains = true) (h8 : noClose (s.cul.xfers.filter fun y => !(y.gbi == b.gbi && y.grp == 9 && y.aud == false)) b.gbi = true) (h9 : recGet s b 24 4 = pay f.payload 0 4) :
    (awake s (culTake 9 (culClose 9) s)).inbox = r ∧ xferAt (awake s (culTake 9 (culClose 9) s)) b.gbi 9 false = none ∧ (awake s (culTake 9 (culClose 9) s)).mem = (closeFactors i b x f.payload s).mem := by
  rw [awake_eq _ h1, culTake_head h2]
  unfold culClose
  rw [twinBlk_inbox, h3]
  dsimp only
  rw [h4]
  have xi : xferAt { s with inbox := r } b.gbi 9 false = xferAt s b.gbi 9 false := rfl
  rw [xi]
  generalize hX : (xferAt s b.gbi 9 false).getD { gbi := b.gbi, grp := 9, aud := false, stamp := pay f.payload 0 4 } = X at h5
  have eX : X.gbi = b.gbi ∧ X.grp = 9 ∧ X.aud = false := by
    rw [← hX]
    cases hh : xferAt s b.gbi 9 false with
    | none => exact ⟨rfl, rfl, rfl⟩
    | some y => exact xferAt_some hh
  obtain ⟨e1, e2, e3⟩ := eX
  have f1 : x.gbi = b.gbi := by rw [h5]; exact e1
  have f2 : x.grp = 9 := by rw [h5]; exact e2
  have f3 : x.aud = false := by rw [h5]; exact e3
  have f4 : x.close = some f.payload := by rw [h5]
  have f5 : X.failed = false := by rw [← h6, h5]
  rw [if_neg (by rw [f5]; simp), ← h5]
  have nx : noClose (s.cul.xfers.filter fun y => !(y.gbi == x.gbi && y.grp == x.grp && y.aud == x.aud)) b.gbi = true := by rw [f1, f2, f3]; exact h8
  have cl : ∀ z : State, closeXferAt i b x z = closeFactors i b x f.payload (delXfer x z) := fun z => by
    unfold closeXferAt
    dsimp only
    rw [f3, f2, f4]
    rfl
  have kp : ∀ z : State, (closeXferAt i b x z).cul = (delXfer x z).cul ∧ (closeXferAt i b x z).inbox = z.inbox := fun z => by
    rw [cl]
    have k := closeFactors_keeps (Has.refl _) i b x f.payload (Keeps.refl _ (delXfer x z))
    exact ⟨k.cul (by decide), k.inbox (by decide)⟩
  rw [settleBlk_closes (s := { s with inbox := r }) f1 nx ?_ kp]
  · refine ⟨(kp _).2, ?_, ?_⟩
    · unfold xferAt
      rw [(kp _).1, delXfer_xfers, f1, f2, f3]
      exact find_filter_not _ _
    · rw [cl]
      have sz : See s (delXfer x (putXfer x { s with inbox := r })) := See.of _ _ ⟨rfl, rfl, fun _ _ => rfl, fun _ _ _ => rfl, rfl⟩ rfl
      exact closeFactors_see sz i b x f.payload
  · unfold closable
    rw [f4]
    dsimp only
    rw [h6, f2, f3]
    have al : Alike s (putXfer x { s with inbox := r }) := ⟨rfl, rfl, fun _ _ => rfl, fun _ _ _ => rfl, rfl⟩
    have wc : weightsClosed (putXfer x { s with inbox := r }) b (pay f.payload 0 4) = true := by
      unfold weightsClosed
      rw [al.recGet, h9]
      simp
    rw [wc]
    simpa using h7

theorem closeR_effect (f : Frame) (r : List Frame) (i : Nat) (b : Blk) (x : CulXfer) (s : State) (h1 : isAwake s = true) (h2 : culHead 10 [] s.inbox = some (f, r)) (h3 : twinBlk s (uGbi f) = some (i, b)) (h4 : uAud f = false) (h5 : x = { ((xferAt s b.gbi 10 false).getD { gbi := b.gbi, grp := 10, aud := false, stamp := pay f.payload 0 4 }) with close := some f.payload }) (h6 : x.failed = false) (h7 : (neededTiles b x f.payload).all x.passed.contains = true) (h8 : noClose (s.cul.xfers.filter fun y => !(y.gbi == b.gbi && y.grp == 10 && y.aud == false)) b.gbi = true) :
    (awake s (culTake 10 (culClose 10) s)).inbox = r ∧ xferAt (awake s (culTake 10 (culClose 10) s)) b.gbi 10 false = none ∧ (awake s (culTake 10 (culClose 10) s)).mem = (closeRoots i b x f.payload s).mem := by
  rw [awake_eq _ h1, culTake_head h2]
  unfold culClose
  rw [twinBlk_inbox, h3]
  dsimp only
  rw [h4]
  have xi : xferAt { s with inbox := r } b.gbi 10 false = xferAt s b.gbi 10 false := rfl
  rw [xi]
  generalize hX : (xferAt s b.gbi 10 false).getD { gbi := b.gbi, grp := 10, aud := false, stamp := pay f.payload 0 4 } = X at h5
  have eX : X.gbi = b.gbi ∧ X.grp = 10 ∧ X.aud = false := by
    rw [← hX]
    cases hh : xferAt s b.gbi 10 false with
    | none => exact ⟨rfl, rfl, rfl⟩
    | some y => exact xferAt_some hh
  obtain ⟨e1, e2, e3⟩ := eX
  have f1 : x.gbi = b.gbi := by rw [h5]; exact e1
  have f2 : x.grp = 10 := by rw [h5]; exact e2
  have f3 : x.aud = false := by rw [h5]; exact e3
  have f4 : x.close = some f.payload := by rw [h5]
  have f5 : X.failed = false := by rw [← h6, h5]
  rw [if_neg (by rw [f5]; simp), ← h5]
  have nx : noClose (s.cul.xfers.filter fun y => !(y.gbi == x.gbi && y.grp == x.grp && y.aud == x.aud)) b.gbi = true := by rw [f1, f2, f3]; exact h8
  have cl : ∀ z : State, closeXferAt i b x z = closeRoots i b x f.payload (delXfer x z) := fun z => by
    unfold closeXferAt
    dsimp only
    rw [f3, f2, f4]
    rfl
  have kp : ∀ z : State, (closeXferAt i b x z).cul = (delXfer x z).cul ∧ (closeXferAt i b x z).inbox = z.inbox := fun z => by
    rw [cl]
    have k := closeRoots_keeps (Has.refl _) i b x f.payload (Keeps.refl _ (delXfer x z))
    exact ⟨k.cul (by decide), k.inbox (by decide)⟩
  rw [settleBlk_closes (s := { s with inbox := r }) f1 nx ?_ kp]
  · refine ⟨(kp _).2, ?_, ?_⟩
    · unfold xferAt
      rw [(kp _).1, delXfer_xfers, f1, f2, f3]
      exact find_filter_not _ _
    · rw [cl]
      have sz : See s (delXfer x (putXfer x { s with inbox := r })) := See.of _ _ ⟨rfl, rfl, fun _ _ => rfl, fun _ _ _ => rfl, rfl⟩ rfl
      exact closeRoots_see sz i b x f.payload
  · unfold closable
    rw [f4]
    dsimp only
    rw [h6, f2, f3]
    simpa using h7

theorem ack_effect (f : Frame) (r : List Frame) (st : Step) (b : Blk) (s : State) (h1 : isAwake s = true) (h2 : culHead 0xB [] s.inbox = some (f, r)) (h3 : pay f.payload 4 1 = 9) (h4 : blkOf s (culCtx s) (pay f.payload 0 4) (uGbi f) = some (st, b)) :
    (awake s (culTake 0xB culAckTake s)).inbox = r ∧ (awake s (culTake 0xB culAckTake s)).blk (culCtx s) (pay f.payload 0 4) (uGbi f) = some { b with acked := true } ∧ (awake s (culTake 0xB culAckTake s)).cul.keep = s.cul.keep.filter fun e => !(e.1 / 16 == uGbi f && [2, 3].contains (e.1 % 16)) := by
  rw [awake_eq _ h1, culTake_head h2]
  unfold culAckTake
  dsimp only
  rw [h3]
  simp only [if_true]
  have cc : ∀ k, culCtx { s with inbox := r, cul := { s.cul with keep := k } } = culCtx s := fun _ => rfl
  rw [cc]
  refine ⟨rfl, ?_, rfl⟩
  rw [blkOf_modBlk (st := st) (b := b)]
  · exact h4
  · exact fun _ => rfl

theorem nackRefused_effect (f : Frame) (r : List Frame) (b : Blk) (s : State) (h1 : isAwake s = true) (h2 : culHead 0xC [] s.inbox = some (f, r)) (h3 : ownedBlk s (uGbi f) = some b) (h4 : bit (pay f.payload 8 1) 0 = true) (h5 : (fetchOf s (uGbi f) (pay f.payload 0 1) (pay f.payload 4 4)).isSome = true) :
    (awake s (culTake 0xC culNackTake s)).inbox = r ∧ isSuspect (awake s (culTake 0xC culNackTake s)) (uGbi f) = true ∧ fetchOf (awake s (culTake 0xC culNackTake s)) (uGbi f) (pay f.payload 0 1) (pay f.payload 4 4) = none := by
  rw [awake_eq _ h1, culTake_head h2]
  unfold culNackTake
  dsimp only
  rw [ownedBlk_inbox, h3]
  dsimp only
  rw [if_pos h4]
  have fo : fetchOf { s with inbox := r } (uGbi f) (pay f.payload 0 1) (pay f.payload 4 4) = fetchOf s (uGbi f) (pay f.payload 0 1) (pay f.payload 4 4) := rfl
  rw [fo, if_pos h5]
  generalize hx : dropFetch (uGbi f) (pay f.payload 0 1) (pay f.payload 4 4) { s with inbox := r } = x
  have xi : x.inbox = r := by subst hx; rfl
  have xf : x.cul.fetches.find? (fun y => y.gbi == uGbi f && y.kind == pay f.payload 0 1 && y.tile == pay f.payload 4 4) = none := by
    subst hx; exact find_filter_not _ _
  clear hx
  have mk : ∀ z : State, (markSuspect (uGbi f) (pay f.payload 0 1) 4 (pay f.payload 4 4) z).inbox = z.inbox ∧
      (markSuspect (uGbi f) (pay f.payload 0 1) 4 (pay f.payload 4 4) z).cul.fetches = z.cul.fetches ∧
      isSuspect (markSuspect (uGbi f) (pay f.payload 0 1) 4 (pay f.payload 4 4) z) (uGbi f) = true := fun z => by
    refine ⟨(markSuspect_keeps (Has.refl _) _ _ _ _ (Keeps.refl _ z)).inbox (by decide), ?_, ?_⟩ <;> unfold markSuspect <;> dsimp only <;> rw [if_neg (by decide : ¬ (4 : Nat) = 3)] <;> split
    · simp
    · show (setEvt CULVERT_EV_LOST 0 z).cul.fetches = _
      simp
    · assumption
    · show (_ ++ [_] : List Suspect).any _ = true
      rw [List.any_append]
      simp
  unfold tileLost
  have me : ∀ (z : State), (mirrorEvt (uGbi f) 4 (pay f.payload 0 1) (pay f.payload 4 4) z).cul = z.cul ∧ (mirrorEvt (uGbi f) 4 (pay f.payload 0 1) (pay f.payload 4 4) z).inbox = z.inbox := fun z =>
    ⟨(mirrorEvt_keeps (Has.refl _) _ _ _ _ (Keeps.refl _ z)).cul (by decide), (mirrorEvt_keeps (Has.refl _) _ _ _ _ (Keeps.refl _ z)).inbox (by decide)⟩
  refine ⟨by rw [(mk _).1, (me _).2, xi], (mk _).2.2, ?_⟩
  unfold fetchOf
  rw [(mk _).2.1, (me _).1]
  exact xf

theorem nack_effect (f : Frame) (r : List Frame) (b : Blk) (s : State) (h1 : isAwake s = true) (h2 : culHead 0xC [] s.inbox = some (f, r)) (h3 : ownedBlk s (uGbi f) = some b) (h4 : bit (pay f.payload 8 1) 0 = false) (h5 : pay f.payload 0 1 = 1) (h6 : pay f.payload 4 4 = lTiles b.lat) (h7 : (membersTo s 2 (twinId s)).isEmpty = false) :
    (awake s (culTake 0xC culNackTake s)).inbox = r ∧ (awake s (culTake 0xC culNackTake s)).sent = s.sent ++ (culData s b.gbi 1 false (12288 * lTiles b.lat) (weightTable s b)).map Frame.what ∧ getF (awake s (culTake 0xC culNackTake s)) CULVERT_RESENDS 0 = (getF s CULVERT_RESENDS 0 + 1) % 2 ^ 32 := by
  rw [awake_eq _ h1, culTake_head h2]
  unfold culNackTake
  dsimp only
  rw [ownedBlk_inbox, h3]
  dsimp only
  rw [h4]
  simp only [Bool.false_eq_true, if_false]
  rw [h5, h6, if_neg (by omega)]
  unfold resendTile
  dsimp only
  rw [if_pos ⟨rfl, rfl⟩]
  have wt : weightTable { s with inbox := r } b = weightTable s b := by
    have a := Alike.inbox s r
    unfold weightTable wgtAddr
    simp only [a.mval, a.recGet]
  rw [wt]
  have tb : tileBytes 1 = 12288 := rfl
  rw [tb]
  have ck := fun fs => culSend_keeps (Has.refl _) none fs (Keeps.refl _ { s with inbox := r })
  refine ⟨(ck _).inbox (by decide), ?_, ?_⟩
  · show (culSend none _ _).sent = _
    rw [culSend_sent none _ { s with inbox := r } h7, List.append_nil]
    rfl
  · rw [getF_incr_self _ _ _ (by decide)]
    exact congrArg (fun x => (x + 1) % 2 ^ 32) ((ck _).getFk reg_CULVERT_RESENDS (by decide) 0 0)

theorem auditRes_effect (f : Frame) (r : List Frame) (g k : Nat) (s : State) (h1 : isAwake s = true) (h2 : culHead 0xD [] s.inbox = some (f, r)) (h3 : s.cul.audits.find? (fun e => e.1 == uGbi f) = some (g, [k])) (h4 : pay f.payload 0 4 ≠ 0) (h5 : pay f.payload 4 1 < 3) :
    (awake s (culTake 0xD auditResTake s)).inbox = r ∧ (awake s (culTake 0xD auditResTake s)).cul.audits = s.cul.audits.filter (fun e => e.1 != uGbi f) ∧ (awake s (culTake 0xD auditResTake s)).cul.suspects = s.cul.suspects ∧ getF (awake s (culTake 0xD auditResTake s)) CULVERT_AUDIT_BLK 0 = (getF s CULVERT_AUDIT_BLK 0 + 1) % 2 ^ 32 := by
  rw [awake_eq _ h1, culTake_head h2]
  unfold auditResTake
  dsimp only
  rw [h3]
  dsimp only
  rw [if_neg h4]
  have e : ¬(pay f.payload 4 1 = 3 ∨ pay f.payload 4 1 = 4) := by omega
  simp only [e, if_false, List.tail_cons, List.isEmpty_nil, if_true]
  exact ⟨rfl, rfl, rfl, getF_incr_self _ _ _ (by decide)⟩

theorem auditResSkip_effect (f : Frame) (r : List Frame) (e : Nat × List Nat) (s : State) (h1 : isAwake s = true) (h2 : culHead 0xD [] s.inbox = some (f, r)) (h3 : s.cul.audits.find? (fun e => e.1 == uGbi f) = some e) (h4 : pay f.payload 0 4 = 0) :
    (awake s (culTake 0xD auditResTake s)).inbox = r ∧ (awake s (culTake 0xD auditResTake s)).cul.audits = s.cul.audits.filter (fun e => e.1 != uGbi f) ∧ (awake s (culTake 0xD auditResTake s)).cul.suspects = s.cul.suspects ∧ getF (awake s (culTake 0xD auditResTake s)) CULVERT_AUDIT_SKIP 0 = (getF s CULVERT_AUDIT_SKIP 0 + 1) % 2 ^ 32 := by
  rw [awake_eq _ h1, culTake_head h2]
  unfold auditResTake
  dsimp only
  rw [h3]
  dsimp only
  rw [if_pos h4]
  exact ⟨rfl, rfl, rfl, getF_incr_self _ _ _ (by decide)⟩

theorem fetchAnswer_inbox {i : Nat} {b : Blk} {k t n : Nat} {s : State} {bs : List Byte} (r : List Frame) (hw : noWeak s = true) (h : fetchAnswer i b k t n s = (some bs, s)) :
    fetchAnswer i b k t n { s with inbox := r } = (some bs, { s with inbox := r }) := by
  have a := Alike.inbox s r
  have se := See.of s { s with inbox := r } a rfl
  have fl : chkFlags { s with inbox := r } i = chkFlags s i := by unfold chkFlags; rw [a.mval, se.chkArea]
  have ks : kindStamp { s with inbox := r } b k = kindStamp s b k := by unfold kindStamp; rw [a.recGet]
  have ba : bufAddr { s with inbox := r } b k = bufAddr s b k := by
    unfold bufAddr wgtAddr facAddr rootAddr; simp only [a.recGet]
  unfold fetchAnswer at h ⊢
  dsimp only at h ⊢
  rw [fl, ks, ba]
  split at h
  · cases h
  · next hc =>
    rw [if_neg hc]
    cases hm : engRead 0 4 (bufAddr s b k + tileBytes k * t) (tileBytes k) s with
    | mk q v =>
      rw [hm] at h
      cases q with
      | data x =>
        have e := engRead_same hw hm
        subst e
        rw [a.engRead_data hw hm]
        dsimp only at h ⊢
        rw [a.mval, se.storedAddr]
        injection h with h1 h2
        rw [h1]
      | fault l => injection h with h1 h2; cases h1
      | uncorr => injection h with h1 h2; cases h1

theorem fetch_effect (f : Frame) (r : List Frame) (i : Nat) (b : Blk) (bs : List Byte) (s : State) (h1 : isAwake s = true) (h2 : culHead 0xE [] s.inbox = some (f, r)) (h3 : twinBlk s (uGbi f) = some (i, b)) (h4 : fetchAnswer i b (pay f.payload 0 1) (pay f.payload 4 4) (pay f.payload 8 4) s = (some bs, s)) (h5 : (membersTo s 2 (twinId s)).isEmpty = false) (h6 : noWeak s = true) :
    (awake s (culTake 0xE fetchTake s)).inbox = r ∧ (awake s (culTake 0xE fetchTake s)).mem = s.mem ∧ (awake s (culTake 0xE fetchTake s)).sent = s.sent ++ ((if pay f.payload 0 1 = 1 then [] else [culFrame s b.gbi (if pay f.payload 0 1 < 4 then 6 else 7) false (entryIdx b (pay f.payload 0 1) (pay f.payload 4 4) / 8 * 32) (((List.range 8).map fun k => if k = entryIdx b (pay f.payload 0 1) (pay f.payload 4 4) % 8 then mval s 0 (storedAddr s i b (pay f.payload 0 1) (pay f.payload 4 4)) 4 else 0).flatMap (leBytes 4))]) ++ culData s b.gbi (pay f.payload 0 1) false (tileBytes (pay f.payload 0 1) * pay f.payload 4 4) bs).map Frame.what := by
  rw [awake_eq _ h1, culTake_head h2]
  unfold fetchTake
  rw [twinBlk_inbox, h3]
  dsimp only
  rw [fetchAnswer_inbox r h6 h4]
  dsimp only
  have a := Alike.inbox s r
  have se := See.of s { s with inbox := r } a rfl
  rw [a.mval, se.storedAddr]
  have ck := fun fs => culSend_keeps (Has.refl _) none fs (Keeps.refl _ { s with inbox := r })
  refine ⟨(ck _).inbox (by decide), (ck _).mem (by decide), ?_⟩
  rw [culSend_sent none _ { s with inbox := r } h5, List.append_nil]
  rfl

theorem fetchRefused_effect (f : Frame) (r : List Frame) (i : Nat) (b : Blk) (s : State) (h1 : isAwake s = true) (h2 : culHead 0xE [] s.inbox = some (f, r)) (h3 : twinBlk s (uGbi f) = some (i, b)) (h4 : pay f.payload 0 1 = 0 ∨ 5 < pay f.payload 0 1 ∨ bufTiles b (pay f.payload 0 1) ≤ pay f.payload 4 4 ∨ (chkFlags s i).testBit (grpBit (kindGrp (pay f.payload 0 1))) = false ∨ (chkFlags s i).testBit (grpBit (kindGrp (pay f.payload 0 1)) + 3) = true ∨ kindStamp s b (pay f.payload 0 1) ≠ pay f.payload 8 4) (h5 : (membersTo s 2 (twinId s)).isEmpty = false) :
    (awake s (culTake 0xE fetchTake s)).inbox = r ∧ (awake s (culTake 0xE fetchTake s)).mem = s.mem ∧ (awake s (culTake 0xE fetchTake s)).sent = s.sent ++ [(culFrame s (uGbi f) 0xC false 0 (pl32 [(4, pay f.payload 0 1), (4, pay f.payload 4 4), (1, 1)])).what] := by
  rw [awake_eq _ h1, culTake_head h2]
  unfold fetchTake
  rw [twinBlk_inbox, h3]
  dsimp only
  have a := Alike.inbox s r
  have se := See.of s { s with inbox := r } a rfl
  have fl : chkFlags { s with inbox := r } i = chkFlags s i := by unfold chkFlags; rw [a.mval, se.chkArea]
  have ks : ∀ k, kindStamp { s with inbox := r } b k = kindStamp s b k := fun k => by unfold kindStamp; rw [a.recGet]
  have fa : fetchAnswer i b (pay f.payload 0 1) (pay f.payload 4 4) (pay f.payload 8 4) { s with inbox := r } = (none, { s with inbox := r }) := by
    unfold fetchAnswer
    dsimp only
    rw [fl, ks, if_pos]
    rcases h4 with h | h | h | h | h | h <;> simp [h]
  rw [fa]
  dsimp only
  have ck := fun fs => culSend_keeps (Has.refl _) none fs (Keeps.refl _ { s with inbox := r })
  refine ⟨(ck _).inbox (by decide), (ck _).mem (by decide), ?_⟩
  rw [culSend_sent none _ { s with inbox := r } h5, List.append_nil]
  rfl

theorem resolve_effect (r : Requester) (a v : Nat) (s : State) (h1 : a % 4 = 0) (h2 : target s r a = some (9, 0, 0x11C)) (h3 : gate s r 9 0 0x11C = .pass) (h4 : isSuspect s (v % 2 ^ 32) = true) (h5 : 2 ≤ getF s CULVERT_RESOLVE_ACT 0) :
    (if a % 4 = 0 then guarded r a (fun t _ o s => if t = 9 ∧ o = 0x11C then resolveSet (v % two32) s else s) s else s).cul.suspects = s.cul.suspects.filter (fun y => y.gbi != v % 2 ^ 32) ∧ isSuspect (if a % 4 = 0 then guarded r a (fun t _ o s => if t = 9 ∧ o = 0x11C then resolveSet (v % two32) s else s) s else s) (v % 2 ^ 32) = false ∧ (if a % 4 = 0 then guarded r a (fun t _ o s => if t = 9 ∧ o = 0x11C then resolveSet (v % two32) s else s) s else s).mem = s.mem ∧ getF (if a % 4 = 0 then guarded r a (fun t _ o s => if t = 9 ∧ o = 0x11C then resolveSet (v % two32) s else s) s else s) CULVERT_SUSPECT 0 = ((s.cul.suspects.filter (fun y => y.gbi != v % 2 ^ 32)).headD { gbi := 0, buf := 0, outcome := 0, tile := 0 }).gbi % 2 ^ 32 := by
  rw [if_pos h1, guarded_pass h2 h3, if_pos ⟨rfl, rfl⟩]
  have two : two32 = 2 ^ 32 := rfl
  rw [two]
  unfold resolveSet
  have fs : ∃ x, s.cul.suspects.find? (fun x => x.gbi == v % 2 ^ 32) = some x := by
    unfold isSuspect at h4
    cases hh : s.cul.suspects.find? (fun x => x.gbi == v % 2 ^ 32) with
    | some x => exact ⟨x, rfl⟩
    | none => rw [List.find?_eq_none] at hh; obtain ⟨y, hy, hy2⟩ := List.any_eq_true.1 h4; exact absurd hy2 (hh y hy)
  obtain ⟨x, fs⟩ := fs
  rw [fs]
  dsimp only
  generalize hy : showSuspect _ = y
  have yc : y.cul = { s.cul with suspects := s.cul.suspects.filter fun y => y.gbi != v % 2 ^ 32 } := by
    subst hy; exact (showSuspect_keeps (Has.refl _) (Keeps.refl _ _)).cul (by decide)
  have ym : y.mem = s.mem := by
    subst hy; exact (showSuspect_keeps (Has.refl _) (Keeps.refl _ _)).mem (by decide)
  have ya : getF y CULVERT_RESOLVE_ACT 0 = getF s CULVERT_RESOLVE_ACT 0 := by
    subst hy; exact (showSuspect_keeps (Has.refl _) (Keeps.refl _ _)).getFk reg_CULVERT_RESOLVE_ACT (by decide) 0 0
  have yg : getF y CULVERT_SUSPECT 0 = ((s.cul.suspects.filter (fun y => y.gbi != v % 2 ^ 32)).headD { gbi := 0, buf := 0, outcome := 0, tile := 0 }).gbi % 2 ^ 32 := by
    subst hy; exact getF_setF_self _ _ _ _ (by decide)
  clear hy
  have fin : y.cul.suspects = s.cul.suspects.filter (fun y => y.gbi != v % 2 ^ 32) ∧ isSuspect y (v % 2 ^ 32) = false ∧ y.mem = s.mem ∧ getF y CULVERT_SUSPECT 0 = ((s.cul.suspects.filter (fun y => y.gbi != v % 2 ^ 32)).headD { gbi := 0, buf := 0, outcome := 0, tile := 0 }).gbi % 2 ^ 32 := by
    refine ⟨by rw [yc], ?_, ym, yg⟩
    unfold isSuspect
    rw [yc]
    simp
  split
  · exact fin
  · rw [ya, if_neg (by omega), if_neg (by omega)]
    exact fin

theorem auditGbi_effect (r : Requester) (a v : Nat) (s : State) (h1 : a % 4 = 0) (h2 : target s r a = some (9, 0, 0x110)) (h3 : gate s r 9 0 0x110 = .pass) :
    (if a % 4 = 0 then guarded r a (fun t _ o s => if t = 9 ∧ o = 0x110 then { s with cul := { s.cul with wanted := s.cul.wanted ++ [v % two32] } } else s) s else s).cul.wanted = s.cul.wanted ++ [v % 2 ^ 32] := by
  rw [if_pos h1, guarded_pass h2 h3, if_pos ⟨rfl, rfl⟩]
  all_goals rfl

end Sys2Proof.Machine
end

