-- ==== Sys2Proof/Laws/EffectsRestore.lean ====
section
/-! SUPPORT. What the commands do: restores and the journal. -/

namespace Sys2Proof.Machine

set_option exponentiation.threshold 600
set_option linter.unusedSimpArgs false

theorem restore_modRestore (c : Nat) (f : Restore → Restore) (s : State) : (ctxOf (modRestore c f s) c).restore = (ctxOf s c).restore.map f := by
  unfold modRestore; rw [ctxOf_modCtx_self]

theorem restore_jrnCtx (c k src : Nat) (p : List Byte) (s : State) : (ctxOf (jrnCtx c k src p s) c).restore = (ctxOf s c).restore := by
  unfold jrnCtx
  split
  · rw [ctxOf_modCtx_self]
  · rfl

theorem Alike.ctx (c : Nat) (f : Ctx → Ctx) (s : State) : Alike s (modCtx c f s) := (modCtx_keeps (Has.refl _) c f (Keeps.refl _ s)).alike (by decide)

theorem Alike.wgtAddr {s t : State} (A : Alike s t) (b : Blk) : wgtAddr t b = wgtAddr s b := by unfold Sys2Proof.Machine.wgtAddr; rw [A.recGet]
theorem Alike.facAddr {s t : State} (A : Alike s t) (b : Blk) : facAddr t b = facAddr s b := by unfold Sys2Proof.Machine.facAddr; rw [A.recGet]
theorem Alike.rootAddr {s t : State} (A : Alike s t) (b : Blk) : rootAddr t b = rootAddr s b := by unfold Sys2Proof.Machine.rootAddr; rw [A.recGet]

theorem Alike.restoreFields {s t : State} (A : Alike s t) (b : Blk) (rb : List Byte) (fac : Bool) : Alike (restoreFields b rb fac s) (restoreFields b rb fac t) := by
  have S : ∀ {x y : State}, Alike x y → ∀ o n v, Alike (Sys2Proof.Machine.recPut b o n v x) (Sys2Proof.Machine.recPut b o n v y) := fun a o n v => Alike.recPut a b o n v
  unfold Sys2Proof.Machine.restoreFields clearWip
  dsimp only
  refine Alike.memStore ?_ _ _ _
  have a0 := S A 24 4 (pay rb 24 4)
  have a1 : Alike (if fac then Sys2Proof.Machine.recPut b 46 2 (pay rb 46 2) (Sys2Proof.Machine.recPut b 28 4 (pay rb 28 4) (Sys2Proof.Machine.recPut b 24 4 (pay rb 24 4) s)) else Sys2Proof.Machine.recPut b 24 4 (pay rb 24 4) s)
      (if fac then Sys2Proof.Machine.recPut b 46 2 (pay rb 46 2) (Sys2Proof.Machine.recPut b 28 4 (pay rb 28 4) (Sys2Proof.Machine.recPut b 24 4 (pay rb 24 4) t)) else Sys2Proof.Machine.recPut b 24 4 (pay rb 24 4) t) := by
    split
    · exact S (S a0 _ _ _) _ _ _
    · exact a0
  generalize (if fac then Sys2Proof.Machine.recPut b 46 2 (pay rb 46 2) (Sys2Proof.Machine.recPut b 28 4 (pay rb 28 4) (Sys2Proof.Machine.recPut b 24 4 (pay rb 24 4) s)) else Sys2Proof.Machine.recPut b 24 4 (pay rb 24 4) s) = x at *
  generalize (if fac then Sys2Proof.Machine.recPut b 46 2 (pay rb 46 2) (Sys2Proof.Machine.recPut b 28 4 (pay rb 28 4) (Sys2Proof.Machine.recPut b 24 4 (pay rb 24 4) t)) else Sys2Proof.Machine.recPut b 24 4 (pay rb 24 4) t) = y at *
  rw [a1.recGet]
  have a2 := S (S (S (S a1 32 4 (pay rb 32 4)) 36 1 (Sys2Proof.Machine.recGet x b 36 1 / 8 * 8 + pay rb 36 1 / 2 % 4 * 2)) 40 4 (pay rb 40 4)) 44 2 (pay rb 44 2)
  rw [a2.recGet]
  exact S (S a2 _ _ _) _ _ _

/-- A restored block's buffers do not depend on what memory does not show. -/
theorem Alike.restoreBlk {s t : State} (A : Alike s t) (b : Blk) (raw : List Byte) (secs : Nat) (k : Bool) : Alike (restoreBlk b raw secs k s) (restoreBlk b raw secs k t) := by
  unfold Sys2Proof.Machine.restoreBlk
  dsimp only
  rw [A.wgtAddr]
  have a1 := A.memStore (dieOf b.cl) (Sys2Proof.Machine.wgtAddr s b) (blockSections b raw (secs.testBit 2)).1
  generalize Sys2Proof.Machine.memStore (dieOf b.cl) (Sys2Proof.Machine.wgtAddr s b) (blockSections b raw (secs.testBit 2)).1 s = x at *
  generalize Sys2Proof.Machine.memStore (dieOf b.cl) (Sys2Proof.Machine.wgtAddr s b) (blockSections b raw (secs.testBit 2)).1 t = y at *
  have f := a1.facAddr b
  have f3 : bufAddr y b 3 = bufAddr x b 3 := by
    show Sys2Proof.Machine.facAddr y b + _ = Sys2Proof.Machine.facAddr x b + _
    rw [f]
  rw [f, f3]
  generalize bufAddr x b 3 = p
  generalize Sys2Proof.Machine.facAddr x b = q
  have a2 : Alike (if k then x else Sys2Proof.Machine.memStore (dieOf b.cl) p (blockSections b raw (secs.testBit 2)).2.2.1 (Sys2Proof.Machine.memStore (dieOf b.cl) q (blockSections b raw (secs.testBit 2)).2.1 x))
      (if k then y else Sys2Proof.Machine.memStore (dieOf b.cl) p (blockSections b raw (secs.testBit 2)).2.2.1 (Sys2Proof.Machine.memStore (dieOf b.cl) q (blockSections b raw (secs.testBit 2)).2.1 y)) := by
    split
    · exact a1
    · exact (a1.memStore _ _ _).memStore _ _ _
  rw [a2.rootAddr]
  exact (a2.memStore _ _ _).restoreFields _ _ _

theorem Alike.twinBlk {s t : State} (A : Alike s t) (h : t.regs = s.regs) (g : Nat) : twinBlk t g = twinBlk s g := by
  have e : ∀ f, getF t f 0 = getF s f 0 := fun f => by unfold getF getFk; rw [h]
  have e2 : ∀ i, twinRecAddr t i = twinRecAddr s i := fun i => by unfold twinRecAddr; rw [e]
  have e3 : ∀ i, twinAt t i = twinAt s i := fun i => by
    simp only [twinAt, A.memRead, e2]
  unfold Sys2Proof.Machine.twinBlk
  rw [twinIndex_alike A h]
  cases twinIndex s g with
  | none => rw [Option.map_none, Option.map_none]
  | some i => rw [Option.map_some, Option.map_some, e3]

theorem Alike.readTables_ok {s t : State} (A : Alike s t) (hw : noWeak s = true) : ∀ {es : List (List Byte)} {cl : Nat} {r : Tables} {v : State}, readTables cl es s = (.ok r, v) → readTables cl es t = (.ok r, t)
  | [], _, _, _, h => by cases h; rfl
  | e :: es, cl, r, v, h => by
    unfold readTables at h ⊢
    split at h
    · next hb =>
      rw [if_pos hb]
      split at h
      · next hd =>
        rw [if_pos hd]
        split at h
        · next hr => cases h; rw [Alike.readTables_ok A hw hr]
        · next hn => exact absurd h (hn _ _)
      · next hd => rw [if_neg hd]; exact Alike.readTables_ok A hw h
    · next hb =>
      rw [if_neg hb]
      split at h
      · next he =>
        rw [A.engRead_data hw he]
        have e2 := engRead_same hw he
        subst e2
        dsimp only
        split at h
        · next hr => cases h; rw [Alike.readTables_ok A hw hr]
        · next hn => exact absurd h (hn _ _)
      · cases h
      · cases h

theorem askNext_ctx (c : Nat) (s : State) (k : Nat) : ctxOf (askNext c s) k = ctxOf s k := ctxOf_kept (askNext_keeps (Has.refl _) c (Keeps.refl _ s)) (by decide) k

/-- The holder of the next record is asked for it. -/
theorem askNext_sent {c : Nat} {s : State} {R : Restore} {e : List Byte} {l : List (List Byte)} (h : (ctxOf s c).restore = some R) (hl : R.left = e :: l) (hk : rKind e = 2) :
    (askNext c s).sent = if (peerMembers s (rHolder e)).isEmpty then s.sent else s.sent ++ (readReqs s (rHolder e) c (rLen e) (rAddr e) (pad64 (rLen e))).map Frame.what := by
  unfold askNext
  rw [h]
  dsimp only
  rw [hl]
  dsimp only
  rw [if_pos hk]
  exact peerSend_sent ..

theorem readReqs_congr {s t : State} (h : getF t COLL_FRAME_BUDGET_PEER 0 = getF s COLL_FRAME_BUDGET_PEER 0) (d c : Nat) : ∀ n o m, readReqs t d c n o m = readReqs s d c n o m
  | 0, _, _ => rfl
  | n + 1, o, m => by
    unfold readReqs
    dsimp only
    rw [readReqs_congr h d c n]
    unfold peerFrame
    rw [h]

/-- A restore that begins. -/
theorem restoreGo_does (c : Nat) (R : Restore) (z : State) :
    (askNext c (modCtx c (fun x => { x with restore := some R }) z)).reports = z.reports ∧ (ctxOf (askNext c (modCtx c (fun x => { x with restore := some R }) z)) c).restore = some R ∧
    (∀ e l, R.left = e :: l → rKind e = 2 → (askNext c (modCtx c (fun x => { x with restore := some R }) z)).sent =
      if (peerMembers z (rHolder e)).isEmpty then z.sent else z.sent ++ (readReqs z (rHolder e) c (rLen e) (rAddr e) (pad64 (rLen e))).map Frame.what) ∧
    (ctxOf (askNext c (modCtx c (fun x => { x with restore := some R }) z)) c).tabs = (ctxOf z c).tabs := by
  have hr : (ctxOf (modCtx c (fun x => { x with restore := some R }) z) c).restore = some R := by rw [ctxOf_modCtx_self]
  have ht : (ctxOf (modCtx c (fun x => { x with restore := some R }) z) c).tabs = (ctxOf z c).tabs := by rw [ctxOf_modCtx_self]
  have h1 : (modCtx c (fun x => { x with restore := some R }) z).reports = z.reports := rfl
  have h2 : (modCtx c (fun x => { x with restore := some R }) z).sent = z.sent := rfl
  have h3 : ∀ d, peerMembers (modCtx c (fun x => { x with restore := some R }) z) d = peerMembers z d := fun _ => rfl
  have h4 : ∀ d n o m, readReqs (modCtx c (fun x => { x with restore := some R }) z) d c n o m = readReqs z d c n o m := fun d => readReqs_congr (t := modCtx c (fun x => { x with restore := some R }) z) (s := z) rfl d c
  generalize modCtx c (fun x => { x with restore := some R }) z = y at *
  refine ⟨((askNext_keeps (Has.refl _) c (Keeps.refl _ y)).reports (by decide)).trans h1, by rw [askNext_ctx]; exact hr, fun e l hl hk => ?_, by rw [askNext_ctx]; exact ht⟩
  rw [askNext_sent hr hl hk, h2, h3, h4]


/-- A record that has been taken: the next one is asked for. -/
theorem taken_does {c : Nat} {Q : Restore} {rest : List (List Byte)} {z : State} (h : (ctxOf z c).restore = some Q) :
    (ctxOf (askNext c (modRestore c (fun x => { x with left := rest, parts := [] }) z)) c).restore = some { Q with left := rest, parts := [] } ∧
    (askNext c (modRestore c (fun x => { x with left := rest, parts := [] }) z)).mem = z.mem ∧
    getFk (askNext c (modRestore c (fun x => { x with left := rest, parts := [] }) z)) HOSTIF_CTX_EVT_EVT 0 c = getFk z HOSTIF_CTX_EVT_EVT 0 c := by
  have K := askNext_keeps (Has.refl _) c (Keeps.refl _ (modRestore c (fun x => { x with left := rest, parts := [] }) z))
  refine ⟨?_, (K.mem (by decide)).trans rfl, (K.getFk reg_HOSTIF_CTX_EVT_EVT (by decide) 0 c).trans rfl⟩
  rw [askNext_ctx, restore_modRestore, h]
  rfl

theorem restore_kept {m : Nat} {s t : State} (K : Keeps m s t) (h : m.testBit 20 = false) (c : Nat) : (ctxOf t c).restore = (ctxOf s c).restore := by
  rw [ctxOf_kept K h]

theorem setCtxEvt_set (c b : Nat) (hb : b < 4) (s : State) : (getFk (setCtxEvt c b s) HOSTIF_CTX_EVT_EVT 0 c).testBit b = true := by
  have e : getFk (setCtxEvt c b s) HOSTIF_CTX_EVT_EVT 0 c = getFk (setFk HOSTIF_CTX_EVT_EVT 0 c (getFk s HOSTIF_CTX_EVT_EVT 0 c ||| 2 ^ b) s) HOSTIF_CTX_EVT_EVT 0 c := by
    unfold setCtxEvt
    dsimp only
    split <;> rfl
  rw [e, getFk_setFk_self _ _ _ _ _ (by decide), Nat.testBit_mod_two_pow]
  rw [show HOSTIF_CTX_EVT_EVT.w = 4 from rfl]
  simp [hb, Nat.testBit_two_pow_self]

/-- What a record does by its KIND. -/
theorem applyRecord_kind {c : Nat} {e bs raw : List Byte} {s : State} (h : openRecord e bs = some raw) :
    (pay bs 3 1 = 1 → applyRecord c e bs s = applyBlock c (pay bs 8 4) (pay bs 49 1) raw (modRestore c (fun r => { r with cut := some (r.cut.getD (pay bs 28 4)) }) s)) ∧
    (pay bs 3 1 = 2 → applyRecord c e bs s = applyCarry c raw (modRestore c (fun r => { r with cut := some (r.cut.getD (pay bs 28 4)) }) s)) ∧
    (pay bs 3 1 = 3 → applyRecord c e bs s = applyExtra c (pay bs 4 3) raw (modRestore c (fun r => { r with cut := some (r.cut.getD (pay bs 28 4)) }) s)) ∧
    (pay bs 3 1 = 0 ∨ 3 < pay bs 3 1 → applyRecord c e bs s = modRestore c (fun r => { r with cut := some (r.cut.getD (pay bs 28 4)) }) s) := by
  unfold applyRecord
  rw [h]
  dsimp only
  generalize pay bs 3 1 = k
  refine ⟨fun q => ?_, fun q => ?_, fun q => ?_, fun q => ?_⟩
  · subst q; rfl
  · subst q; rfl
  · subst q; rfl
  · split
    · omega
    · omega
    · omega
    · rfl

theorem readData_effect (f : Frame) (r : List Frame) (R : Restore) (e : List Byte) (l : List (List Byte)) (s : State) (h1 : isAwake s = true) (h2 : peerInbox s 3 = some (f, r)) (h3 : (ctxOf s f.ctx).restore = some R) (h4 : R.left = e :: l) :
    (awake s (peerTake 3 readData s)).inbox = r ∧ (ctxOf (awake s (peerTake 3 readData s)) f.ctx).restore = some (if rKind e = 2 ∧ rHolder e = f.src ∧ rAddr e ≤ pOff f ∧ pOff f < rAddr e + rLen e then { R with parts := R.parts.put [] ((pOff f - rAddr e) / 64) f.payload } else R) := by
  rw [awake_eq _ h1]
  unfold peerTake
  rw [h2]
  dsimp only
  unfold readData
  rw [show (ctxOf { s with inbox := r } f.ctx).restore = some R from h3]
  dsimp only
  rw [h4]
  dsimp only
  by_cases hc : rKind e = 2 ∧ rHolder e = f.src ∧ rAddr e ≤ pOff f ∧ pOff f < rAddr e + rLen e
  · rw [if_pos hc, if_pos hc]
    refine ⟨rfl, ?_⟩
    rw [restore_modRestore, show (ctxOf { s with inbox := r } f.ctx).restore = some R from h3, ← h4]
    rfl
  · rw [if_neg hc, if_neg hc]
    exact ⟨rfl, h3⟩

theorem restoreOpen_effect (h dir : Nat) (s : State) (h1 : isAwake s = true) (h2 : cmdReady s h 0x31 = true) (h3 : stepIsOpen s (hCtx h) = true) :
    (awake s (restore h dir s)).reports = s.reports ++ [{ handle := h, status := 8 }] := by
  rw [awake_eq _ h1]
  unfold restore
  rw [runCmd_ready h2]
  generalize hent : entryOf s h = e at *
  dsimp only
  rw [stepIsOpen_modSlot, h3, if_pos rfl]
  rfl

theorem restoreStart_effect (h dir : Nat) (bs : List Byte) (R : Restore) (s : State) (h1 : isAwake s = true) (h2 : cmdReady s h 0x31 = true) (h3 : stepIsOpen s (hCtx h) = false) (h4 : engRead 0 6 (argOf (entryOf s h) 0) (96 * (argOf (entryOf s h) 1 % two32)) s = (.data bs, s)) (h5 : R = { handle := h, src := bits (argOf (entryOf s h) 1) 32 2, exts := argOf (entryOf s h) 2, left := chunks 96 (argOf (entryOf s h) 1 % two32) bs }) (h6 : dir = 0) (h7 : noWeak s = true) :
    (awake s (restore h dir s)).reports = s.reports ∧ (ctxOf (awake s (restore h dir s)) (hCtx h)).restore = some R ∧ (∀ e l, R.left = e :: l → rKind e = 2 → (awake s (restore h dir s)).sent = if (peerMembers s (rHolder e)).isEmpty then s.sent else s.sent ++ (readReqs s (rHolder e) (hCtx h) (rLen e) (rAddr e) (pad64 (rLen e))).map Frame.what) := by
  rw [awake_eq _ h1]
  unfold restore
  rw [runCmd_ready h2]
  generalize hent : entryOf s h = e at *
  dsimp only
  rw [stepIsOpen_modSlot, h3, if_neg (show ¬ (false = true) by decide)]
  unfold cmdRead
  have AL := (modSlot_keeps (Has.refl _) (hCtx h) (hSlot h) (fun x => { x with running := true }) (Keeps.refl _ s)).alike (by decide)
  rw [AL.engRead_data h7 h4]
  dsimp only
  rw [← h5]
  have xr : (modSlot (hCtx h) (hSlot h) (fun x => { x with running := true }) s).reports = s.reports := rfl
  have xs : (modSlot (hCtx h) (hSlot h) (fun x => { x with running := true }) s).sent = s.sent := rfl
  have xm : ∀ d, peerMembers (modSlot (hCtx h) (hSlot h) (fun x => { x with running := true }) s) d = peerMembers s d := fun _ => rfl
  have xb : getF (modSlot (hCtx h) (hSlot h) (fun x => { x with running := true }) s) COLL_FRAME_BUDGET_PEER 0 = getF s COLL_FRAME_BUDGET_PEER 0 := rfl
  rw [if_pos h6]
  have xq : ∀ d n o m, readReqs (modSlot (hCtx h) (hSlot h) (fun x => { x with running := true }) s) d (hCtx h) n o m = readReqs s d (hCtx h) n o m := fun d => readReqs_congr xb d (hCtx h)
  generalize modSlot (hCtx h) (hSlot h) (fun x => { x with running := true }) s = z at *
  obtain ⟨g1, g2, g3, g4⟩ := restoreGo_does (hCtx h) R z
  refine ⟨g1.trans xr, g2, fun e l hl hk => ?_⟩
  rw [g3 e l hl hk, xm, xs, xq]

theorem restoreTables_effect (h dir : Nat) (bs db : List Byte) (R : Restore) (ts : Tables) (s : State) (h1 : isAwake s = true) (h2 : cmdReady s h 0x31 = true) (h3 : stepIsOpen s (hCtx h) = false) (h4 : engRead 0 6 (argOf (entryOf s h) 0) (96 * (argOf (entryOf s h) 1 % two32)) s = (.data bs, s)) (h5 : R = { handle := h, src := bits (argOf (entryOf s h) 1) 32 2, exts := argOf (entryOf s h) 2, left := chunks 96 (argOf (entryOf s h) 1 % two32) bs }) (h6 : dir ≠ 0) (h7 : engRead 0 6 dir 4096 s = (.data db, s)) (h8 : readTables 0 (chunks 16 256 db) s = (.ok ts, s)) (h9 : noWeak s = true) :
    (awake s (restore h dir s)).reports = s.reports ∧ (ctxOf (awake s (restore h dir s)) (hCtx h)).restore = some R ∧ (∀ e l, R.left = e :: l → rKind e = 2 → (awake s (restore h dir s)).sent = if (peerMembers s (rHolder e)).isEmpty then s.sent else s.sent ++ (readReqs s (rHolder e) (hCtx h) (rLen e) (rAddr e) (pad64 (rLen e))).map Frame.what) ∧ (ctxOf (awake s (restore h dir s)) (hCtx h)).tabs = latchBlocks ts := by
  rw [awake_eq _ h1]
  unfold restore
  rw [runCmd_ready h2]
  generalize hent : entryOf s h = e at *
  dsimp only
  rw [stepIsOpen_modSlot, h3, if_neg (show ¬ (false = true) by decide)]
  unfold cmdRead
  have AL := (modSlot_keeps (Has.refl _) (hCtx h) (hSlot h) (fun x => { x with running := true }) (Keeps.refl _ s)).alike (by decide)
  rw [AL.engRead_data h9 h4]
  dsimp only
  rw [← h5]
  have xr : (modSlot (hCtx h) (hSlot h) (fun x => { x with running := true }) s).reports = s.reports := rfl
  have xs : (modSlot (hCtx h) (hSlot h) (fun x => { x with running := true }) s).sent = s.sent := rfl
  have xm : ∀ d, peerMembers (modSlot (hCtx h) (hSlot h) (fun x => { x with running := true }) s) d = peerMembers s d := fun _ => rfl
  have xb : getF (modSlot (hCtx h) (hSlot h) (fun x => { x with running := true }) s) COLL_FRAME_BUDGET_PEER 0 = getF s COLL_FRAME_BUDGET_PEER 0 := rfl
  rw [if_neg h6, AL.engRead_data h9 h7]
  dsimp only
  rw [AL.readTables_ok h9 h8]
  dsimp only
  have xq : ∀ d n o m, readReqs (modSlot (hCtx h) (hSlot h) (fun x => { x with running := true }) s) d (hCtx h) n o m = readReqs s d (hCtx h) n o m := fun d => readReqs_congr xb d (hCtx h)
  generalize modSlot (hCtx h) (hSlot h) (fun x => { x with running := true }) s = z at *
  obtain ⟨g1, g2, g3, g4⟩ := restoreGo_does (hCtx h) R (modCtx (hCtx h) (fun x => { x with tabs := latchBlocks ts }) z)
  refine ⟨g1.trans xr, g2, fun e l hl hk => ?_, ?_⟩
  · rw [g3 e l hl hk]
    have y1 : (modCtx (hCtx h) (fun x => { x with tabs := latchBlocks ts }) z).sent = s.sent := xs
    have y2 : peerMembers (modCtx (hCtx h) (fun x => { x with tabs := latchBlocks ts }) z) (rHolder e) = peerMembers s (rHolder e) := xm _
    have y3 : ∀ d n o m, readReqs (modCtx (hCtx h) (fun x => { x with tabs := latchBlocks ts }) z) d (hCtx h) n o m = readReqs s d (hCtx h) n o m := fun d n o m => (readReqs_congr (t := modCtx (hCtx h) (fun x => { x with tabs := latchBlocks ts }) z) (s := z) rfl d (hCtx h) n o m).trans (xq d n o m)
    rw [y1, y2, y3]
  · rw [g4, ctxOf_modCtx_self]

theorem recordWaits_effect (c : Nat) (hd : List Byte) (R : Restore) (e : List Byte) (rest : List (List Byte)) (s : State) (h1 : isAwake s = true) (h2 : (ctxOf s c).restore = some R) (h3 : R.left = e :: rest) (h4 : recordBytes R e hd = none) :
    (awake s (restoreRecordApply c hd s)) = s := by
  rw [awake_eq _ h1]
  unfold restoreRecordApply
  rw [h2]
  dsimp only
  rw [h3]
  dsimp only
  rw [h4]

theorem recordBad_effect (c : Nat) (hd : List Byte) (R : Restore) (e : List Byte) (rest : List (List Byte)) (bs : List Byte) (s : State) (h1 : isAwake s = true) (h2 : (ctxOf s c).restore = some R) (h3 : R.left = e :: rest) (h4 : recordBytes R e hd = some bs) (h5 : openRecord e bs = none) :
    (ctxOf (awake s (restoreRecordApply c hd s)) c).restore = some { R with left := rest, parts := [], fails := R.fails + 1, bad := some (R.bad.getD (0x0C, pay e 0 4)) } ∧ (getFk (awake s (restoreRecordApply c hd s)) HOSTIF_CTX_EVT_EVT 0 c).testBit ceRestoreBad = true ∧ (awake s (restoreRecordApply c hd s)).mem = s.mem := by
  rw [awake_eq _ h1]
  unfold restoreRecordApply
  rw [h2]
  dsimp only
  rw [h3]
  dsimp only
  rw [h4]
  dsimp only
  unfold applyRecord
  rw [h5]
  dsimp only
  have K := setCtxEvt_keeps (Has.refl _) c ceRestoreBad (Keeps.refl _ (restoreFails c 0x0C (pay e 0 4) s))
  have g : (ctxOf (restoreFails c 0x0C (pay e 0 4) s) c).restore = some { R with fails := R.fails + 1, bad := some (R.bad.getD (0x0C, pay e 0 4)) } := by
    unfold restoreFails
    rw [restore_modRestore, h2]
    rfl
  obtain ⟨t1, t2, t3⟩ := taken_does (rest := rest) ((restore_kept K (by decide) c).trans g)
  exact ⟨t1, by rw [t3]; exact setCtxEvt_set c _ (by decide) _, t2.trans ((K.mem (by decide)).trans rfl)⟩

theorem Alike.findExtent {s t : State} (A : Alike s t) (a i : Nat) : ∀ n, findExtent t a i n = findExtent s a i n := fun n => by
  induction n generalizing a with
  | zero => rfl
  | succ n ih =>
    unfold Sys2Proof.Machine.findExtent
    rw [A.memRead]
    split
    · rw [ih]
    · rfl

theorem recordSkipped_effect (c : Nat) (hd : List Byte) (R : Restore) (e : List Byte) (rest : List (List Byte)) (bs : List Byte) (raw : List Byte) (s : State) (h1 : isAwake s = true) (h2 : (ctxOf s c).restore = some R) (h3 : R.left = e :: rest) (h4 : recordBytes R e hd = some bs) (h5 : openRecord e bs = some raw) (h6 : (pay bs 3 1 = 1 ∧ (ctxOf s c).tabs.find? (fun b => b.gbi == pay bs 8 4) = none ∧ twinBlk s (pay bs 8 4) = none) ∨ (pay bs 3 1 = 3 ∧ findExtent s R.exts (pay bs 4 3) 64 = none) ∨ pay bs 3 1 = 0 ∨ 3 < pay bs 3 1) :
    (ctxOf (awake s (restoreRecordApply c hd s)) c).restore = some { R with left := rest, parts := [], cut := some (R.cut.getD (pay bs 28 4)) } ∧ (awake s (restoreRecordApply c hd s)).mem = s.mem := by
  rw [awake_eq _ h1]
  unfold restoreRecordApply
  rw [h2]
  dsimp only
  rw [h3]
  dsimp only
  rw [h4]
  dsimp only
  obtain ⟨k1, k2, k3, k0⟩ := applyRecord_kind (c := c) (s := s) h5
  have g : (ctxOf (modRestore c (fun r => { r with cut := some (r.cut.getD (pay bs 28 4)) }) s) c).restore = some { R with cut := some (R.cut.getD (pay bs 28 4)) } := by
    rw [restore_modRestore, h2]
    rfl
  have A : Alike s (modRestore c (fun r => { r with cut := some (r.cut.getD (pay bs 28 4)) }) s) := Alike.ctx ..
  have gr : (modRestore c (fun r => { r with cut := some (r.cut.getD (pay bs 28 4)) }) s).regs = s.regs := rfl
  have gt : (ctxOf (modRestore c (fun r => { r with cut := some (r.cut.getD (pay bs 28 4)) }) s) c).tabs = (ctxOf s c).tabs := by unfold modRestore; rw [ctxOf_modCtx_self]
  have gc : (ctxOf (modRestore c (fun r => { r with cut := some (r.cut.getD (pay bs 28 4)) }) s) c).coll = (ctxOf s c).coll := by unfold modRestore; rw [ctxOf_modCtx_self]
  generalize modRestore c (fun r => { r with cut := some (r.cut.getD (pay bs 28 4)) }) s = z at *
  have fin : ∀ y : State, y = z → (ctxOf (askNext c (modRestore c (fun x => { x with left := rest, parts := [] }) y)) c).restore = some { R with left := rest, parts := [], cut := some (R.cut.getD (pay bs 28 4)) } ∧
      (askNext c (modRestore c (fun x => { x with left := rest, parts := [] }) y)).mem = s.mem := fun y hy => by
    subst hy
    obtain ⟨t1, t2, t3⟩ := taken_does (rest := rest) g
    exact ⟨t1, t2.trans A.mem⟩
  apply fin
  rcases h6 with ⟨k, o, w⟩ | ⟨k, o⟩ | k | k
  · rw [k1 k]
    unfold applyBlock
    dsimp only
    rw [gt, o, A.twinBlk gr, w]
    rfl
  · rw [k3 k]
    unfold applyExtra
    rw [g]
    dsimp only
    rw [show findExtent z R.exts (pay bs 4 3) 64 = findExtent s R.exts (pay bs 4 3) 64 from A.findExtent _ _ _, o]
  · exact k0 (.inl k)
  · exact k0 (.inr k)

theorem recordExtra_effect (c : Nat) (hd : List Byte) (R : Restore) (e : List Byte) (rest : List (List Byte)) (bs : List Byte) (raw : List Byte) (a n : Nat) (s : State) (h1 : isAwake s = true) (h2 : (ctxOf s c).restore = some R) (h3 : R.left = e :: rest) (h4 : recordBytes R e hd = some bs) (h5 : openRecord e bs = some raw) (h6 : pay bs 3 1 = 3) (h7 : findExtent s R.exts (pay bs 4 3) 64 = some (a, n)) :
    (ctxOf (awake s (restoreRecordApply c hd s)) c).restore = some { R with left := rest, parts := [], cut := some (R.cut.getD (pay bs 28 4)), applied := R.applied + 1 } ∧ (awake s (restoreRecordApply c hd s)).mem = (memStore 0 a (raw.take n) s).mem := by
  rw [awake_eq _ h1]
  unfold restoreRecordApply
  rw [h2]
  dsimp only
  rw [h3]
  dsimp only
  rw [h4]
  dsimp only
  obtain ⟨k1, k2, k3, k0⟩ := applyRecord_kind (c := c) (s := s) h5
  have g : (ctxOf (modRestore c (fun r => { r with cut := some (r.cut.getD (pay bs 28 4)) }) s) c).restore = some { R with cut := some (R.cut.getD (pay bs 28 4)) } := by
    rw [restore_modRestore, h2]
    rfl
  have A : Alike s (modRestore c (fun r => { r with cut := some (r.cut.getD (pay bs 28 4)) }) s) := Alike.ctx ..
  have gr : (modRestore c (fun r => { r with cut := some (r.cut.getD (pay bs 28 4)) }) s).regs = s.regs := rfl
  have gt : (ctxOf (modRestore c (fun r => { r with cut := some (r.cut.getD (pay bs 28 4)) }) s) c).tabs = (ctxOf s c).tabs := by unfold modRestore; rw [ctxOf_modCtx_self]
  have gc : (ctxOf (modRestore c (fun r => { r with cut := some (r.cut.getD (pay bs 28 4)) }) s) c).coll = (ctxOf s c).coll := by unfold modRestore; rw [ctxOf_modCtx_self]
  generalize modRestore c (fun r => { r with cut := some (r.cut.getD (pay bs 28 4)) }) s = z at *
  rw [k3 h6]
  unfold applyExtra
  rw [g]
  dsimp only
  rw [show findExtent z R.exts (pay bs 4 3) 64 = findExtent s R.exts (pay bs 4 3) 64 from A.findExtent _ _ _, h7]
  dsimp only
  have q : (ctxOf (modRestore c (fun r => { r with applied := r.applied + 1 }) (memStore 0 a (raw.take n) z)) c).restore = some { R with cut := some (R.cut.getD (pay bs 28 4)), applied := R.applied + 1 } := by
    rw [restore_modRestore, restore_kept (memStore_keeps (Has.refl _) 0 a (raw.take n) (Keeps.refl _ z)) (by decide), g]
    rfl
  obtain ⟨t1, t2, t3⟩ := taken_does (rest := rest) q
  exact ⟨t1, t2.trans (A.memStore 0 a (raw.take n)).mem⟩

theorem recordMismatch_effect (c : Nat) (hd : List Byte) (R : Restore) (e : List Byte) (rest : List (List Byte)) (bs : List Byte) (raw : List Byte) (own : Option Blk) (twin : Option (Nat × Blk)) (s : State) (h1 : isAwake s = true) (h2 : (ctxOf s c).restore = some R) (h3 : R.left = e :: rest) (h4 : recordBytes R e hd = some bs) (h5 : openRecord e bs = some raw) (h6 : pay bs 3 1 = 1) (h7 : own = (ctxOf s c).tabs.find? (fun b => b.gbi == pay bs 8 4)) (h8 : twin = twinBlk s (pay bs 8 4)) (h9 : (own.any (fun b => !sidesAgree b.lat raw) || twin.any (fun e => !sidesAgree e.2.lat raw)) = true) :
    (ctxOf (awake s (restoreRecordApply c hd s)) c).restore = some { R with left := rest, parts := [], cut := some (R.cut.getD (pay bs 28 4)), fails := R.fails + 1, bad := some (R.bad.getD (0x0D, pay bs 8 4)) } ∧ (awake s (restoreRecordApply c hd s)).mem = s.mem := by
  rw [awake_eq _ h1]
  unfold restoreRecordApply
  rw [h2]
  dsimp only
  rw [h3]
  dsimp only
  rw [h4]
  dsimp only
  obtain ⟨k1, k2, k3, k0⟩ := applyRecord_kind (c := c) (s := s) h5
  have g : (ctxOf (modRestore c (fun r => { r with cut := some (r.cut.getD (pay bs 28 4)) }) s) c).restore = some { R with cut := some (R.cut.getD (pay bs 28 4)) } := by
    rw [restore_modRestore, h2]
    rfl
  have A : Alike s (modRestore c (fun r => { r with cut := some (r.cut.getD (pay bs 28 4)) }) s) := Alike.ctx ..
  have gr : (modRestore c (fun r => { r with cut := some (r.cut.getD (pay bs 28 4)) }) s).regs = s.regs := rfl
  have gt : (ctxOf (modRestore c (fun r => { r with cut := some (r.cut.getD (pay bs 28 4)) }) s) c).tabs = (ctxOf s c).tabs := by unfold modRestore; rw [ctxOf_modCtx_self]
  have gc : (ctxOf (modRestore c (fun r => { r with cut := some (r.cut.getD (pay bs 28 4)) }) s) c).coll = (ctxOf s c).coll := by unfold modRestore; rw [ctxOf_modCtx_self]
  generalize modRestore c (fun r => { r with cut := some (r.cut.getD (pay bs 28 4)) }) s = z at *
  rw [k1 h6]
  unfold applyBlock
  dsimp only
  rw [gt, A.twinBlk gr, ← h7, ← h8]
  rw [if_pos h9]
  have q : (ctxOf (restoreFails c 0x0D (pay bs 8 4) z) c).restore = some { R with cut := some (R.cut.getD (pay bs 28 4)), fails := R.fails + 1, bad := some (R.bad.getD (0x0D, pay bs 8 4)) } := by
    unfold restoreFails
    rw [restore_modRestore, g]
    rfl
  obtain ⟨t1, t2, t3⟩ := taken_does (rest := rest) q
  exact ⟨t1, t2.trans (Eq.trans rfl A.mem)⟩

theorem gapNote_does (c : Nat) (b : Blk) (rb : List Byte) (k : Bool) (s : State) : (ctxOf (gapNote c b rb k s) c).restore = (ctxOf s c).restore ∧ (gapNote c b rb k s).mem = s.mem := by
  refine ⟨?_, (gapNote_keeps (Has.refl _) c b rb k (Keeps.refl _ s)).mem (by decide)⟩
  unfold gapNote
  split
  · exact restore_jrnCtx ..
  · rfl

theorem recordBlock_fin {c : Nat} {Q : Restore} (raw : List Byte) (secs : Nat) (rest : List (List Byte)) (own : Option Blk) (twin : Option (Nat × Blk)) {s z : State} (A : Alike s z) (g : (ctxOf z c).restore = some Q) :
    (ctxOf (askNext c (modRestore c (fun x => { x with left := rest, parts := [] }) (modRestore c (fun r => { r with applied := r.applied + 1 })
      (match own with
        | some b => gapNote c b raw (copyWhole (match twin with | some (i, b) => restoreTwin i b raw secs (restoreBlk b raw secs false z) | none => z) b raw)
            (restoreBlk b raw secs (copyWhole (match twin with | some (i, b) => restoreTwin i b raw secs (restoreBlk b raw secs false z) | none => z) b raw) (restartRoot c b (match twin with | some (i, b) => restoreTwin i b raw secs (restoreBlk b raw secs false z) | none => z)))
        | none => match twin with | some (i, b) => restoreTwin i b raw secs (restoreBlk b raw secs false z) | none => z)))) c).restore = some { Q with left := rest, parts := [], applied := Q.applied + 1 } ∧
    (∀ b, own = some b → twin = none → (askNext c (modRestore c (fun x => { x with left := rest, parts := [] }) (modRestore c (fun r => { r with applied := r.applied + 1 })
      (match own with
        | some b => gapNote c b raw (copyWhole (match twin with | some (i, b) => restoreTwin i b raw secs (restoreBlk b raw secs false z) | none => z) b raw)
            (restoreBlk b raw secs (copyWhole (match twin with | some (i, b) => restoreTwin i b raw secs (restoreBlk b raw secs false z) | none => z) b raw) (restartRoot c b (match twin with | some (i, b) => restoreTwin i b raw secs (restoreBlk b raw secs false z) | none => z)))
        | none => match twin with | some (i, b) => restoreTwin i b raw secs (restoreBlk b raw secs false z) | none => z)))).mem = (restoreBlk b raw secs (copyWhole s b raw) s).mem) := by
  obtain ⟨x, hxe, hx, hm⟩ : ∃ x, (match twin with | some (i, b) => restoreTwin i b raw secs (restoreBlk b raw secs false z) | none => z) = x ∧ (ctxOf x c).restore = some Q ∧ (twin = none → Alike s x) := by
    refine ⟨_, rfl, ?_, fun h => ?_⟩
    · cases twin with
      | some e =>
        dsimp only
        rw [restore_kept (restoreTwin_keeps (Has.refl _) _ _ _ _ (Keeps.refl _ _)) (by decide), restore_kept (restoreBlk_keeps (Has.refl _) _ _ _ _ (Keeps.refl _ _)) (by decide), g]
      | none => exact g
    · subst h; exact A
  rw [hxe]
  obtain ⟨y, hye, hy, hym⟩ : ∃ y, (match own with | some b => gapNote c b raw (copyWhole x b raw) (restoreBlk b raw secs (copyWhole x b raw) (restartRoot c b x)) | none => x) = y ∧ (ctxOf y c).restore = some Q ∧ (∀ b, own = some b → twin = none → y.mem = (restoreBlk b raw secs (copyWhole s b raw) s).mem) := by
    refine ⟨_, rfl, ?_, fun b hb ht => ?_⟩
    · cases own with
      | some b =>
        dsimp only
        rw [(gapNote_does ..).1, restore_kept (restoreBlk_keeps (Has.refl _) _ _ _ _ (Keeps.refl _ _)) (by decide), restore_kept (restartRoot_keeps (Has.refl _) _ _ (Keeps.refl _ _)) (by decide), hx]
      | none => exact hx
    · subst hb
      dsimp only
      have Ax := hm ht
      have e : copyWhole x b raw = copyWhole s b raw := by unfold copyWhole; rw [Ax.recGet, Ax.recGet]
      rw [(gapNote_does ..).2, e]
      exact ((Ax.trans ((restartRoot_keeps (Has.refl _) c b (Keeps.refl _ x)).alike (by decide))).restoreBlk b raw secs _).mem
  rw [hye]
  have q : (ctxOf (modRestore c (fun r => { r with applied := r.applied + 1 }) y) c).restore = some { Q with applied := Q.applied + 1 } := by
    rw [restore_modRestore, hy]
    rfl
  obtain ⟨t1, t2, t3⟩ := taken_does (rest := rest) q
  exact ⟨t1, fun b hb ht => t2.trans (Eq.trans rfl (hym b hb ht))⟩

theorem recordBlock_effect (c : Nat) (hd : List Byte) (R : Restore) (e : List Byte) (rest : List (List Byte)) (bs : List Byte) (raw : List Byte) (own : Option Blk) (twin : Option (Nat × Blk)) (s : State) (h1 : isAwake s = true) (h2 : (ctxOf s c).restore = some R) (h3 : R.left = e :: rest) (h4 : recordBytes R e hd = some bs) (h5 : openRecord e bs = some raw) (h6 : pay bs 3 1 = 1) (h7 : own = (ctxOf s c).tabs.find? (fun b => b.gbi == pay bs 8 4)) (h8 : twin = twinBlk s (pay bs 8 4)) (h9 : (own.any (fun b => !sidesAgree b.lat raw) || twin.any (fun e => !sidesAgree e.2.lat raw)) = false) (h10 : own.isSome = true ∨ twin.isSome = true) :
    (ctxOf (awake s (restoreRecordApply c hd s)) c).restore = some { R with left := rest, parts := [], cut := some (R.cut.getD (pay bs 28 4)), applied := R.applied + 1 } ∧ (∀ b, own = some b → twin = none → (awake s (restoreRecordApply c hd s)).mem = (restoreBlk b raw (pay bs 49 1) (copyWhole s b raw) s).mem) := by
  rw [awake_eq _ h1]
  unfold restoreRecordApply
  rw [h2]
  dsimp only
  rw [h3]
  dsimp only
  rw [h4]
  dsimp only
  obtain ⟨k1, k2, k3, k0⟩ := applyRecord_kind (c := c) (s := s) h5
  have g : (ctxOf (modRestore c (fun r => { r with cut := some (r.cut.getD (pay bs 28 4)) }) s) c).restore = some { R with cut := some (R.cut.getD (pay bs 28 4)) } := by
    rw [restore_modRestore, h2]
    rfl
  have A : Alike s (modRestore c (fun r => { r with cut := some (r.cut.getD (pay bs 28 4)) }) s) := Alike.ctx ..
  have gr : (modRestore c (fun r => { r with cut := some (r.cut.getD (pay bs 28 4)) }) s).regs = s.regs := rfl
  have gt : (ctxOf (modRestore c (fun r => { r with cut := some (r.cut.getD (pay bs 28 4)) }) s) c).tabs = (ctxOf s c).tabs := by unfold modRestore; rw [ctxOf_modCtx_self]
  have gc : (ctxOf (modRestore c (fun r => { r with cut := some (r.cut.getD (pay bs 28 4)) }) s) c).coll = (ctxOf s c).coll := by unfold modRestore; rw [ctxOf_modCtx_self]
  generalize modRestore c (fun r => { r with cut := some (r.cut.getD (pay bs 28 4)) }) s = z at *
  rw [k1 h6]
  unfold applyBlock
  dsimp only
  rw [gt, A.twinBlk gr, ← h7, ← h8]
  rw [if_neg (by rw [h9]; decide), if_neg (fun q => by rw [Bool.and_eq_true, Option.isNone_iff_eq_none, Option.isNone_iff_eq_none] at q; rw [q.1, q.2] at h10; exact absurd h10 (by decide))]
  exact recordBlock_fin raw (pay bs 49 1) rest own twin A g

theorem recvOf_modRecv_to {s : State} {c n cid : Nat} {q r : Recv} (h : recvOf s c n cid = some q) (hk : r.step = n ∧ r.cid = cid) :
    recvOf (modRecv c n cid (fun _ => r) s) c n cid = some r := by
  unfold recvOf modRecv at *
  rw [coll_modColl]
  dsimp only
  rw [find_map_same (fun r : Recv => r.step == n && r.cid == cid) _ (fun x => by split <;> simp [*]) (ctxOf s c).coll.recvs, h]
  have := recvOf_key (s := s) h
  simp [this]

theorem recvOf_modColl_new {s : State} {c n cid : Nat} {r : Recv} (h : recvOf s c n cid = none) (hk : r.step = n ∧ r.cid = cid) :
    recvOf (modColl c (fun z => { z with recvs := z.recvs ++ [r] }) s) c n cid = some r := by
  unfold recvOf at h ⊢
  rw [coll_modColl]
  dsimp only
  rw [List.find?_append, h, Option.none_or, List.find?_cons, show (r.step == n && r.cid == cid) = true by simp [hk]]

theorem restore_modColl (c : Nat) (f : Coll → Coll) (s : State) : (ctxOf (modColl c f s) c).restore = (ctxOf s c).restore := by
  unfold modColl; rw [ctxOf_modCtx_self]

/-- A transfer of a RECV that holds a record's turns, whatever its places. -/
def holdsCarry (c : Nat) (raw : List Byte) (s : State) : Prop :=
  ∃ p x, recvOf s c (pay raw 4 4) (pay raw 0 2) = some p ∧ x ∈ p.xfers ∧ x.carry = true ∧ x.absent = true ∧ x.pos = pay raw 2 1 ∧ x.turns = carryTurns raw

theorem holdsCarry_congr {c : Nat} {raw : List Byte} {s t : State} (e : ctxOf t c = ctxOf s c) (h : holdsCarry c raw s) : holdsCarry c raw t := by
  obtain ⟨p, x, hr, hx⟩ := h
  exact ⟨p, x, (recvOf_congr _ _ (by rw [e])).trans hr, hx⟩

theorem memStore_ctx (d a : Nat) (bs : List Byte) (s : State) (c : Nat) : ctxOf (memStore d a bs s) c = ctxOf s c :=
  ctxOf_kept (memStore_keeps (Has.refl _) d a bs (Keeps.refl _ s)) (by decide) c

theorem carryStore_holds {c : Nat} {raw : List Byte} {r : Recv} (i t off : Nat) (bs : List Byte) {s : State} (hk : r.step = pay raw 4 4 ∧ r.cid = pay raw 0 2) (h : holdsCarry c raw s) :
    holdsCarry c raw (carryStore c r i t off bs s) ∧ (ctxOf (carryStore c r i t off bs s) c).restore = (ctxOf s c).restore := by
  unfold carryStore
  split
  · exact ⟨h, rfl⟩
  · split
    · exact ⟨holdsCarry_congr (memStore_ctx ..) h, by rw [memStore_ctx]⟩
    · dsimp only
      rw [memStore_ctx]
      refine ⟨holdsCarry_congr (memStore_ctx ..) ?_, ?_⟩
      · obtain ⟨p, x, hr, hx, q⟩ := h
        rw [hk.1, hk.2]
        refine ⟨_, _, recvOf_modXfer hr, List.mem_map.2 ⟨x, hx, rfl⟩, ?_⟩
        split <;> exact q
      · unfold modXfer modRecv
        exact restore_modColl ..

theorem carryStores_holds {c : Nat} {raw : List Byte} (i : Nat) : ∀ (l : List (Nat × List Byte)) {s : State}, holdsCarry c raw s →
    holdsCarry c raw (carryStores c (pay raw 4 4) (pay raw 0 2) i l s) ∧ (ctxOf (carryStores c (pay raw 4 4) (pay raw 0 2) i l s) c).restore = (ctxOf s c).restore
  | [], _, h => ⟨h, rfl⟩
  | e :: l, s, h => by
    unfold carryStores
    split
    · next r hr =>
      obtain ⟨a, b⟩ := carryStore_holds i e.1 0 e.2 (recvOf_key (s := s) hr) h
      obtain ⟨a', b'⟩ := carryStores_holds i l a
      exact ⟨a', b'.trans b⟩
    · exact carryStores_holds i l h

/-- In replay the carry area plays no part. -/
theorem carryStores_replay {c n cid i : Nat} : ∀ (l : List (Nat × List Byte)) {s : State}, replayOn s c = true → carryStores c n cid i l s = s
  | [], _, _ => rfl
  | e :: l, s, h => by
    unfold carryStores
    split
    · rw [show carryStore c _ i e.1 0 e.2 s = s from if_pos h]
      exact carryStores_replay l h
    · exact carryStores_replay l h

/-- A CARRY record that returns. -/
theorem applyCarry_does {c : Nat} {Q : Restore} {raw : List Byte} {s : State} (h : (ctxOf s c).restore = some Q) :
    (ctxOf (applyCarry c raw s) c).restore = some { Q with applied := Q.applied + 1 } ∧ holdsCarry c raw (applyCarry c raw s) ∧
    (applyCarry c raw s).mem = (carryBack c raw s).mem ∧ (replayOn s c = true → (applyCarry c raw s).mem = s.mem) := by
  have hz : (ctxOf (freshWord s).2 c).restore = some Q := h
  have hm : (freshWord s).2.mem = s.mem := rfl
  have hp : replayOn (freshWord s).2 c = replayOn s c := rfl
  have main : (ctxOf (carryBack c raw s) c).restore = some Q ∧ holdsCarry c raw (carryBack c raw s) ∧ (replayOn s c = true → (carryBack c raw s).mem = s.mem) := by
    unfold carryBack
    dsimp only
    generalize (freshWord s).1 = w
    generalize (freshWord s).2 = z at *
    cases hr : recvOf z c (pay raw 4 4) (pay raw 0 2) with
    | some r =>
      dsimp only
      have hk := recvOf_key (s := z) hr
      obtain ⟨a, b⟩ := carryStores_holds (c := c) (raw := raw) r.xfers.length (carryTurns raw) (s := modRecv c (pay raw 4 4) (pay raw 0 2) (fun _ => { r with xfers := r.xfers ++ [{ src := ownBoard z * 8 + pay raw 2 1 % 8, pos := pay raw 2 1, idx := r.xfers.length, turns := carryTurns raw, absent := true, carry := true }] }) z)
        ⟨_, _, recvOf_modRecv_to hr hk, List.mem_append_right _ (List.mem_cons_self ..), rfl, rfl, rfl, rfl⟩
      refine ⟨b.trans ?_, a, fun q => ?_⟩
      · unfold modRecv
        rw [restore_modColl, hz]
      · rw [carryStores_replay (carryTurns raw) (show replayOn (modRecv c (pay raw 4 4) (pay raw 0 2) _ z) c = true from hp.trans q)]
        exact hm
    | none =>
      dsimp only
      obtain ⟨a, b⟩ := carryStores_holds (c := c) (raw := raw) 0 (carryTurns raw) (s := modColl c (fun y => { y with recvs := y.recvs ++ [{ step := pay raw 4 4, cid := pay raw 0 2, desc := [], lexp := w % 256, xfers := [{ src := ownBoard z * 8 + pay raw 2 1 % 8, pos := pay raw 2 1, idx := 0, turns := carryTurns raw, absent := true, carry := true }], fin := true, booked := true }] }) z)
        ⟨_, _, recvOf_modColl_new hr ⟨rfl, rfl⟩, List.mem_cons_self .., rfl, rfl, rfl, rfl⟩
      refine ⟨b.trans ?_, a, fun q => ?_⟩
      · rw [restore_modColl, hz]
      · rw [carryStores_replay (carryTurns raw) (show replayOn (modColl c _ z) c = true from hp.trans q)]
        exact hm
  obtain ⟨m1, m2, m3⟩ := main
  unfold applyCarry
  generalize carryBack c raw s = y at *
  refine ⟨?_, ?_, rfl, m3⟩
  · rw [restore_modRestore, m1]
    rfl
  · obtain ⟨p, x, hr, hx⟩ := m2
    refine ⟨p, x, (recvOf_congr _ _ ?_).trans hr, hx⟩
    unfold modRestore
    rw [ctxOf_modCtx_self]

theorem recordCarry_effect (c : Nat) (hd : List Byte) (R : Restore) (e : List Byte) (rest : List (List Byte)) (bs : List Byte) (raw : List Byte) (s : State) (h1 : isAwake s = true) (h2 : (ctxOf s c).restore = some R) (h3 : R.left = e :: rest) (h4 : recordBytes R e hd = some bs) (h5 : openRecord e bs = some raw) (h6 : pay bs 3 1 = 2) :
    (ctxOf (awake s (restoreRecordApply c hd s)) c).restore = some { R with left := rest, parts := [], cut := some (R.cut.getD (pay bs 28 4)), applied := R.applied + 1 } ∧ (∃ p x, recvOf (awake s (restoreRecordApply c hd s)) c (pay raw 4 4) (pay raw 0 2) = some p ∧ x ∈ p.xfers ∧ x.carry = true ∧ x.absent = true ∧ x.pos = pay raw 2 1 ∧ x.turns = carryTurns raw) ∧ (awake s (restoreRecordApply c hd s)).mem = (carryBack c raw (modRestore c (fun r => { r with cut := some (r.cut.getD (pay bs 28 4)) }) s)).mem ∧ (replayOn s c = true → (awake s (restoreRecordApply c hd s)).mem = s.mem) := by
  rw [awake_eq _ h1]
  unfold restoreRecordApply
  rw [h2]
  dsimp only
  rw [h3]
  dsimp only
  rw [h4]
  dsimp only
  obtain ⟨k1, k2, k3, k0⟩ := applyRecord_kind (c := c) (s := s) h5
  have g : (ctxOf (modRestore c (fun r => { r with cut := some (r.cut.getD (pay bs 28 4)) }) s) c).restore = some { R with cut := some (R.cut.getD (pay bs 28 4)) } := by
    rw [restore_modRestore, h2]
    rfl
  have A : Alike s (modRestore c (fun r => { r with cut := some (r.cut.getD (pay bs 28 4)) }) s) := Alike.ctx ..
  have gr : (modRestore c (fun r => { r with cut := some (r.cut.getD (pay bs 28 4)) }) s).regs = s.regs := rfl
  have gt : (ctxOf (modRestore c (fun r => { r with cut := some (r.cut.getD (pay bs 28 4)) }) s) c).tabs = (ctxOf s c).tabs := by unfold modRestore; rw [ctxOf_modCtx_self]
  have gc : (ctxOf (modRestore c (fun r => { r with cut := some (r.cut.getD (pay bs 28 4)) }) s) c).coll = (ctxOf s c).coll := by unfold modRestore; rw [ctxOf_modCtx_self]
  have gp : replayOn (modRestore c (fun r => { r with cut := some (r.cut.getD (pay bs 28 4)) }) s) c = replayOn s c := rfl
  generalize modRestore c (fun r => { r with cut := some (r.cut.getD (pay bs 28 4)) }) s = z at *
  rw [k2 h6]
  obtain ⟨c1, c2, c3, c4⟩ := applyCarry_does (raw := raw) g
  obtain ⟨t1, t2, t3⟩ := taken_does (rest := rest) c1
  refine ⟨t1, ?_, t2.trans c3, fun q => t2.trans ((c4 (gp.trans q)).trans A.mem)⟩
  obtain ⟨p, x, hp, hx⟩ := c2
  refine ⟨p, x, ?_, hx⟩
  rw [← hp]
  refine recvOf_congr _ _ ?_
  rw [askNext_ctx]
  unfold modRestore
  rw [ctxOf_modCtx_self]

theorem restoreWaits_effect (c : Nat) (R : Restore) (s : State) (h1 : isAwake s = true) (h2 : (ctxOf s c).restore = some R) (h3 : R.left ≠ []) :
    (awake s (restoreComplete c s)) = s := by
  rw [awake_eq _ h1]
  unfold restoreComplete
  rw [h2]
  dsimp only
  rw [if_pos (by simpa using h3)]

theorem restoreComplete_effect (c : Nat) (R : Restore) (s : State) (h1 : isAwake s = true) (h2 : (ctxOf s c).restore = some R) (h3 : R.left = []) :
    (ctxOf (awake s (restoreComplete c s)) c).restore = none ∧ (ctxOf (awake s (restoreComplete c s)) c).first = none ∧ (ctxOf (awake s (restoreComplete c s)) c).last = none ∧ (ctxOf (awake s (restoreComplete c s)) c).lastCommit = none ∧ (ctxOf (awake s (restoreComplete c s)) c).jwait = (ctxOf s c).jwait ++ (if jrnOn s c then [⟨5, srcHub, leBytes 4 (R.cut.getD 0) ++ leBytes 4 R.applied ++ leBytes 1 R.src ++ zeros 7⟩] else []) ∧ (awake s (restoreComplete c s)).reports = s.reports ++ [{ handle := R.handle, status := (R.bad.getD (0, 0)).1, r0 := R.applied, r1 := (R.bad.getD (0, 0xFFFFFFFF)).2 }] := by
  rw [awake_eq _ h1]
  unfold restoreComplete
  rw [h2]
  dsimp only
  rw [if_neg (by simp [h3])]
  have j : ∀ p, (ctxOf (jrnCtx c 5 srcHub p s) c).jwait = (ctxOf s c).jwait ++ (if jrnOn s c then [⟨5, srcHub, p⟩] else []) ∧ (jrnCtx c 5 srcHub p s).reports = s.reports := fun p => by
    unfold jrnCtx
    split
    · rw [ctxOf_modCtx_self]; exact ⟨rfl, rfl⟩
    · rw [List.append_nil]; exact ⟨rfl, rfl⟩
  obtain ⟨j1, j2⟩ := j (leBytes 4 (R.cut.getD 0) ++ leBytes 4 R.applied ++ leBytes 1 R.src ++ zeros 7)
  generalize jrnCtx c 5 srcHub (leBytes 4 (R.cut.getD 0) ++ leBytes 4 R.applied ++ leBytes 1 R.src ++ zeros 7) s = z at *
  obtain ⟨y, hy, hc, hr⟩ : ∃ y, modCtx c (fun x : Ctx => { x with restore := none, first := none, last := none, lastCommit := none }) z = y ∧ ctxOf y c = { ctxOf z c with restore := none, first := none, last := none, lastCommit := none } ∧ y.reports = z.reports :=
    ⟨_, rfl, by rw [ctxOf_modCtx_self], rfl⟩
  rw [hy]
  have fin : ∀ st r1, (ctxOf (report R.handle st R.applied r1 y) c) = ctxOf y c ∧ (report R.handle st R.applied r1 y).reports = s.reports ++ [{ handle := R.handle, status := st, r0 := R.applied, r1 := r1 }] := fun st r1 => by
    refine ⟨rfl, ?_⟩
    show y.reports ++ _ = _
    rw [hr, j2]
  cases hb : R.bad with
  | none =>
    dsimp only
    rw [(fin 0 0xFFFFFFFF).1, (fin 0 0xFFFFFFFF).2, hc]
    exact ⟨rfl, rfl, rfl, rfl, j1, rfl⟩
  | some e =>
    dsimp only
    rw [(fin e.1 e.2).1, (fin e.1 e.2).2, hc]
    exact ⟨rfl, rfl, rfl, rfl, j1, rfl⟩

theorem journalOff_effect (c src hclk : Nat) (r : JrnRec) (rest : List JrnRec) (s : State) (h1 : isAwake s = true) (h2 : c ≠ 16) (h3 : takeFirst (fun r : JrnRec => r.src == src) (ctxOf s c).jwait = some (r, rest)) (h4 : jrnOn s c = false) :
    (ctxOf (awake s (journalAppend c src hclk s)) c).jwait = rest ∧ (awake s (journalAppend c src hclk s)).mem = s.mem := by
  rw [awake_eq _ h1]
  unfold journalAppend
  rw [if_neg h2, h3]
  dsimp only
  rw [h4, if_pos (by decide), ctxOf_modCtx_self]
  exact ⟨rfl, rfl⟩

theorem journalWait_effect (c src hclk : Nat) (r : JrnRec) (rest : List JrnRec) (s : State) (h1 : isAwake s = true) (h2 : c ≠ 16) (h3 : takeFirst (fun r : JrnRec => r.src == src) (ctxOf s c).jwait = some (r, rest)) (h4 : jrnOn s c = true) (h5 : jrnReady s c r = false) :
    (ctxOf (awake s (journalAppend c src hclk s)) c).jwait = (ctxOf s c).jwait ∧ (ctxOf (awake s (journalAppend c src hclk s)) c).jwaitHclk = (ctxOf s c).jwaitHclk + hclk ∧ (getFk (awake s (journalAppend c src hclk s)) HOSTIF_CTX_EVT_EVT 0 c).testBit ceJrnFull = true ∧ (awake s (journalAppend c src hclk s)).mem = s.mem := by
  rw [awake_eq _ h1]
  unfold journalAppend
  rw [if_neg h2, h3]
  dsimp only
  rw [h4, if_neg (by decide), h5, if_neg (by decide)]
  have hm : (jrnWait c hclk r s).mem = s.mem := (jrnWait_keeps (Has.refl _) c hclk r (Keeps.refl _ s)).mem (by decide)
  obtain ⟨z, hz, hc⟩ : ∃ z, jrnWait c hclk r s = setCtxEvt c ceJrnFull (modCtx c (fun x => { x with jwaitHclk := x.jwaitHclk + hclk }) z) ∧ ctxOf z c = ctxOf s c := by
    refine ⟨_, rfl, ?_⟩
    split
    · split
      · exact ctxOf_kept (noteMiss_keeps (Has.refl _) _ (Keeps.refl _ s)) (by decide) c
      · rfl
    · rfl
  refine ⟨?_, ?_, ?_, hm⟩
  · rw [hz, ctxOf_kept (setCtxEvt_keeps (Has.refl _) _ _ (Keeps.refl _ _)) (by decide), ctxOf_modCtx_self, hc]
  · rw [hz, ctxOf_kept (setCtxEvt_keeps (Has.refl _) _ _ (Keeps.refl _ _)) (by decide), ctxOf_modCtx_self, hc]
  · rw [hz]
    exact setCtxEvt_set c _ (by decide) _

theorem leBytes_length : ∀ n v : Nat, (leBytes n v).length = n
  | 0, _ => rfl
  | n + 1, v => by unfold leBytes; rw [List.length_cons, leBytes_length n]

theorem jrnBytes_length (type src seq : Nat) (p : List Byte) : (jrnBytes type src seq p).length = 16 + pad16 p.length := by
  unfold jrnBytes
  dsimp only
  simp only [List.length_append, leBytes_length, zeros, List.length_replicate]
  unfold pad16
  omega

theorem getFk_congr {s t : State} (h : t.regs = s.regs) (f : Fld) (i k : Nat) : getFk t f i k = getFk s f i k := by unfold getFk; rw [h]

theorem jrnRest_congr {s t : State} (h : t.regs = s.regs) (c : Nat) : jrnRest t c = jrnRest s c := by
  unfold jrnRest jrnSize; rw [getFk_congr h, getFk_congr h]

/-- What writing one record of the journal does. -/
theorem jrnPut_does (c type src : Nat) (p : List Byte) {s z : State} (hr : z.regs = s.regs) (hA : Alike s z) :
    getFk (jrnPut c type src p z) HOSTIF_JRN_WR 0 c = (getFk s HOSTIF_JRN_WR 0 c + 16 + pad16 p.length) % 2 ^ 32 ∧
    getFk (jrnPut c type src p z) HOSTIF_JRN_SEQ 0 c = (getFk s HOSTIF_JRN_SEQ 0 c + 1) % 2 ^ 32 ∧
    (jrnPut c type src p z).mem = (memStore 0 (jrnBase s c + getFk s HOSTIF_JRN_WR 0 c % jrnSize s c) (jrnBytes type src (getFk s HOSTIF_JRN_SEQ 0 c) p) s).mem ∧
    ctxOf (jrnPut c type src p z) c = ctxOf z c := by
  have g := getFk_congr hr
  have cx : ctxOf (jrnPut c type src p z) c = ctxOf z c := ctxOf_kept (jrnPut_keeps (Has.refl _) c type src p (Keeps.refl _ z)) (by decide) c
  have t32 : two32 = 2 ^ 32 := rfl
  refine ⟨?_, ?_, ?_, cx⟩
  · unfold jrnPut
    dsimp only
    rw [getFk_setFk_self _ _ _ _ _ (by decide), g, jrnBytes_length, t32, show HOSTIF_JRN_WR.w = 32 from rfl, Nat.mod_mod, Nat.add_assoc]
  · unfold jrnPut
    dsimp only
    rw [getFk_setFk_off _ _ _ _ _ _ _ _ (by show (0x808 + 64 * (c % 16)) % 4096 ≠ (0x820 + 64 * (c % 16)) % 4096; omega), getFk_setFk_self _ _ _ _ _ (by decide), g, t32, show HOSTIF_JRN_SEQ.w = 32 from rfl, Nat.mod_mod]
  · unfold jrnPut
    dsimp only
    have b : jrnBase z c = jrnBase s c := by unfold jrnBase; rw [g]
    have d : jrnSize z c = jrnSize s c := by unfold jrnSize; rw [g]
    rw [g, g, b, d]
    exact (hA.memStore 0 _ _).mem

theorem journalAppend_effect (c src hclk : Nat) (r : JrnRec) (rest : List JrnRec) (s : State) (h1 : isAwake s = true) (h2 : c ≠ 16) (h3 : takeFirst (fun r : JrnRec => r.src == src) (ctxOf s c).jwait = some (r, rest)) (h4 : jrnOn s c = true) (h5 : jrnReady s c r = true) (h6 : 16 + pad16 r.payload.length ≤ jrnRest s c) :
    (ctxOf (awake s (journalAppend c src hclk s)) c).jwait = rest ∧ getFk (awake s (journalAppend c src hclk s)) HOSTIF_JRN_WR 0 c = (getFk s HOSTIF_JRN_WR 0 c + 16 + pad16 r.payload.length) % 2 ^ 32 ∧ getFk (awake s (journalAppend c src hclk s)) HOSTIF_JRN_SEQ 0 c = (getFk s HOSTIF_JRN_SEQ 0 c + 1) % 2 ^ 32 ∧ (awake s (journalAppend c src hclk s)).mem = (memStore 0 (jrnBase s c + getFk s HOSTIF_JRN_WR 0 c % jrnSize s c) (jrnBytes r.type r.src (getFk s HOSTIF_JRN_SEQ 0 c) r.payload) s).mem := by
  rw [awake_eq _ h1]
  unfold journalAppend
  rw [if_neg h2, h3]
  dsimp only
  rw [h4, if_neg (by decide), h5, if_pos rfl]
  have hj : (ctxOf (modCtx c (fun x => { x with jwait := rest }) s) c).jwait = rest := by rw [ctxOf_modCtx_self]
  have hA : Alike s (modCtx c (fun x => { x with jwait := rest }) s) := Alike.ctx ..
  have hr : (modCtx c (fun x => { x with jwait := rest }) s).regs = s.regs := rfl
  generalize modCtx c (fun x => { x with jwait := rest }) s = z at *
  have e : jrnAppend c r z = jrnPut c r.type r.src r.payload z := by
    unfold jrnAppend
    rw [if_pos (by rw [jrnRest_congr hr]; exact h6)]
  rw [e]
  obtain ⟨a1, a2, a3, a4⟩ := jrnPut_does c r.type r.src r.payload hr hA
  exact ⟨by rw [a4]; exact hj, a1, a2, a3⟩

theorem journalPad_effect (c src hclk : Nat) (r : JrnRec) (rest : List JrnRec) (s : State) (h1 : isAwake s = true) (h2 : c ≠ 16) (h3 : takeFirst (fun r : JrnRec => r.src == src) (ctxOf s c).jwait = some (r, rest)) (h4 : jrnOn s c = true) (h5 : jrnReady s c r = true) (h6 : ¬ 16 + pad16 r.payload.length ≤ jrnRest s c) (h7 : 16 ≤ jrnRest s c) (h8 : jrnRest s c % 16 = 0) :
    (ctxOf (awake s (journalAppend c src hclk s)) c).jwait = rest ∧ getFk (awake s (journalAppend c src hclk s)) HOSTIF_JRN_WR 0 c = (getFk s HOSTIF_JRN_WR 0 c + jrnNeed s c r.payload.length) % 2 ^ 32 ∧ getFk (awake s (journalAppend c src hclk s)) HOSTIF_JRN_SEQ 0 c = (getFk s HOSTIF_JRN_SEQ 0 c + 2) % 2 ^ 32 := by
  rw [awake_eq _ h1]
  unfold journalAppend
  rw [if_neg h2, h3]
  dsimp only
  rw [h4, if_neg (by decide), h5, if_pos rfl]
  have hj : (ctxOf (modCtx c (fun x => { x with jwait := rest }) s) c).jwait = rest := by rw [ctxOf_modCtx_self]
  have hA : Alike s (modCtx c (fun x => { x with jwait := rest }) s) := Alike.ctx ..
  have hr : (modCtx c (fun x => { x with jwait := rest }) s).regs = s.regs := rfl
  generalize modCtx c (fun x => { x with jwait := rest }) s = z at *
  have e : jrnAppend c r z = jrnPut c r.type r.src r.payload (jrnPut c 0x7F srcHub (zeros (jrnRest s c - 16)) z) := by
    unfold jrnAppend
    rw [if_neg (by rw [jrnRest_congr hr]; exact h6), jrnRest_congr hr]
  rw [e]
  obtain ⟨a1, a2, a3, a4⟩ := jrnPut_does c 0x7F srcHub (zeros (jrnRest s c - 16)) hr hA
  generalize jrnPut c 0x7F srcHub (zeros (jrnRest s c - 16)) z = y at *
  obtain ⟨b1, b2, b3, b4⟩ := jrnPut_does c r.type r.src r.payload (s := y) rfl (Alike.refl y)
  refine ⟨by rw [b4, a4]; exact hj, ?_, ?_⟩
  · rw [b1, a1]
    unfold jrnNeed
    rw [if_neg h6, show (zeros (jrnRest s c - 16)).length = jrnRest s c - 16 from List.length_replicate .., show pad16 (jrnRest s c - 16) = jrnRest s c - 16 by unfold pad16; omega]
    omega
  · rw [b2, a2]
    omega

theorem journalWide_effect (src hclk : Nat) (r : JrnRec) (cs : List Nat) (rest : List (JrnRec × List Nat)) (s : State) (h1 : isAwake s = true) (h2 : takeFirst (fun e : JrnRec × List Nat => e.1.src == src) s.jwide = some ((r, cs), rest)) (h3 : (cs.filter (jrnOn s)).all (fun c => jrnReady s c r) = true) :
    (awake s (journalAppend 16 src hclk s)).jwide = rest ∧ (awake s (journalAppend 16 src hclk s)) = jrnAppends r (cs.filter (jrnOn s)) { s with jwide := rest } := by
  rw [awake_eq _ h1]
  unfold journalAppend wideAppend
  rw [if_pos rfl, h2]
  dsimp only
  rw [if_pos h3]
  refine ⟨?_, rfl⟩
  rw [(jrnAppends_keeps (Has.refl _) r _ (Keeps.refl _ _)).jwide (by decide)]

theorem journalWideWaits_effect (src hclk : Nat) (r : JrnRec) (cs : List Nat) (rest : List (JrnRec × List Nat)) (s : State) (h1 : isAwake s = true) (h2 : takeFirst (fun e : JrnRec × List Nat => e.1.src == src) s.jwide = some ((r, cs), rest)) (h3 : (cs.filter (jrnOn s)).all (fun c => jrnReady s c r) = false) :
    (awake s (journalAppend 16 src hclk s)).jwide = s.jwide ∧ (awake s (journalAppend 16 src hclk s)).mem = s.mem := by
  rw [awake_eq _ h1]
  unfold journalAppend wideAppend
  rw [if_pos rfl, h2]
  dsimp only
  rw [if_neg (by rw [h3]; decide)]
  have K := jrnWaits_keeps (Has.refl _) hclk r (cs.filter (jrnOn s)) (Keeps.refl _ s)
  exact ⟨K.jwide (by decide), K.mem (by decide)⟩

theorem journalIdle_effect (c : Nat) (s : State) (h1 : isAwake s = true) (h2 : getFk s HOSTIF_JRN_CFG_DRAIN 0 c = 0 ∨ getFk s HOSTIF_JRN_WR 0 c = getFk s HOSTIF_JRN_DR 0 c ∨ hubGranted s 537 (c + 16) 0 = false) :
    (awake s (journalDrain c s)) = s := by
  rw [awake_eq _ h1]
  unfold journalDrain
  dsimp only
  rw [if_pos (by rcases h2 with e | e | e <;> simp [e])]

theorem journalHostFull_effect (c dr a n size base : Nat) (hd : List Byte) (s : State) (h1 : isAwake s = true) (h2 : dr = getFk s HOSTIF_JRN_DR 0 c) (h3 : a = jrnBase s c + dr % jrnSize s c) (h4 : size = 2 ^ getFk s HOSTIF_JRN_HOST_CFG_LOG2_SIZE 0 c) (h5 : base = getFk s HOSTIF_JRN_HOST_LO 0 c + two32 * getFk s HOSTIF_JRN_HOST_HI 0 c) (h6 : getFk s HOSTIF_JRN_CFG_DRAIN 0 c ≠ 0) (h7 : getFk s HOSTIF_JRN_WR 0 c ≠ dr) (h8 : engRead 0 6 a 16 s = (.data hd, s)) (h9 : n = 16 + pad16 (pay hd 2 2)) (h10 : size < (dr + two32 - getFk s HOSTIF_JRN_HOST_TAIL 0 c) % two32 + n) (h11 : hubGranted s 537 (c + 16) 0 = true) :
    (awake s (journalDrain c s)) = s := by
  rw [awake_eq _ h1]
  unfold journalDrain
  dsimp only
  rw [← h2, ← h3, ← h4, ← h5, if_neg (by simp only [not_or]; exact ⟨h6, h7, by rw [h11]; decide⟩), h8]
  dsimp only
  rw [← h9]
  rw [if_pos h10]

theorem journalDrain_effect (c dr a n size base : Nat) (hd bs : List Byte) (s : State) (h1 : isAwake s = true) (h2 : dr = getFk s HOSTIF_JRN_DR 0 c) (h3 : a = jrnBase s c + dr % jrnSize s c) (h4 : size = 2 ^ getFk s HOSTIF_JRN_HOST_CFG_LOG2_SIZE 0 c) (h5 : base = getFk s HOSTIF_JRN_HOST_LO 0 c + two32 * getFk s HOSTIF_JRN_HOST_HI 0 c) (h6 : getFk s HOSTIF_JRN_CFG_DRAIN 0 c ≠ 0) (h7 : getFk s HOSTIF_JRN_WR 0 c ≠ dr) (h8 : engRead 0 6 a 16 s = (.data hd, s)) (h9 : n = 16 + pad16 (pay hd 2 2)) (h10 : ¬ size < (dr + two32 - getFk s HOSTIF_JRN_HOST_TAIL 0 c) % two32 + n) (h11 : engRead 0 6 a n s = (.data bs, s)) (h12 : hubGranted s 537 (c + 16) 0 = true) :
    getFk (awake s (journalDrain c s)) HOSTIF_JRN_DR 0 c = (dr + n) % 2 ^ 32 ∧ (awake s (journalDrain c s)).hmem = Store.putAll 0 base (bs.drop (size - dr % size)) (Store.putAll 0 (base + dr % size) (bs.take (size - dr % size)) s.hmem) ∧ (awake s (journalDrain c s)).mem = s.mem := by
  rw [awake_eq _ h1]
  unfold journalDrain
  dsimp only
  rw [← h2, ← h3, ← h4, ← h5, if_neg (by simp only [not_or]; exact ⟨h6, h7, by rw [h12]; decide⟩), h8]
  dsimp only
  rw [← h9]
  rw [if_neg h10, h11]
  dsimp only
  refine ⟨?_, rfl, rfl⟩
  rw [getFk_setFk_self _ _ _ _ _ (by decide), show two32 = 2 ^ 32 from rfl, show HOSTIF_JRN_DR.w = 32 from rfl, Nat.mod_mod]

end Sys2Proof.Machine
end

