-- ==== Sys2Proof/Laws/EffectsCommands.lean ====
section
/-! SUPPORT. What the commands do: the commands ABORT, COPY, LIST_RUN and EXPORT. -/

namespace Sys2Proof.Machine

set_option exponentiation.threshold 600
set_option linter.unusedSimpArgs false

theorem slotOf_modSlot_any (c n : Nat) (f : Slot → Slot) (s : State) (d m : Nat) : slotOf (modSlot c n f s) d m = if c = d ∧ n = m then f (slotOf s c n) else slotOf s d m := by
  by_cases hc : c = d
  · subst hc
    by_cases hn : n = m
    · subst hn
      rw [if_pos ⟨rfl, rfl⟩, slotOf_modSlot_self]
    · rw [if_neg (fun q => hn q.2)]
      unfold slotOf modSlot
      rw [ctxOf_modCtx_self]
      exact Store.get_upd_ne hn ..
  · rw [if_neg (fun q => hc q.1)]
    unfold slotOf modSlot
    rw [ctxOf_modCtx_ne _ hc]

/-- Whether a handle is live does not depend on what its slot says of its command. -/
theorem handleLive_modSlot (c n : Nat) (f : Slot → Slot) (hf : ∀ x, (f x).inUse = x.inUse ∧ (f x).gen = x.gen ∧ (f x).ended = x.ended) (s : State) (h : Nat) :
    handleLive (modSlot c n f s) h = handleLive s h := by
  unfold handleLive
  dsimp only
  rw [slotOf_modSlot_any]
  split
  · next e => rw [(hf _).1, (hf _).2.1, (hf _).2.2, e.1, e.2]
  · rfl

/-- A slot keeps what tells whether it waits for its turn. -/
theorem waits_modSlot (c n : Nat) (f : Slot → Slot) (hf : ∀ x, (f x).started = x.started ∧ (f x).waitTurn = x.waitTurn) (s : State) (d m : Nat) :
    ((slotOf (modSlot c n f s) d m).started && !(slotOf (modSlot c n f s) d m).waitTurn) = ((slotOf s d m).started && !(slotOf s d m).waitTurn) := by
  rw [slotOf_modSlot_any]
  split
  · next e => rw [(hf _).1, (hf _).2, e.1, e.2]
  · rfl

/-- COPY's data that reaches module memory. -/
theorem copyPut_in {h : Nat} {e data : List Byte} {s z : State} (A : Alike s z) (hr : z.reports = s.reports) (hd : bits (argOf e 2) 32 2 ≠ 1) (hm : firstMiss s 0 (argOf e 1) data.length = none) :
    (copyPut h e data z).mem = (memStore 0 (argOf e 1) data s).mem ∧
    (copyPut h e data z).reports = s.reports ++ [{ handle := h, status := if bit (argOf e 2) 34 && crc32c data != argOf e 3 then 9 else 0, r0 := crc32c data }] := by
  unfold copyPut
  rw [if_neg hd]
  dsimp only
  have o : (memWrite 0 (argOf e 1) data z).1 = true := by
    unfold memWrite; rw [A.firstMiss, hm]
  rw [if_pos o]
  refine ⟨(A.memStore 0 (argOf e 1) data).mem, ?_⟩
  show (memStore 0 (argOf e 1) data z).reports ++ _ = _
  rw [(memStore_keeps (Has.refl _) 0 (argOf e 1) data (Keeps.refl _ z)).reports (by decide), hr]

theorem copyPut_miss {h : Nat} {e data : List Byte} {l : Lookup} {s z : State} (A : Alike s z) (hr : z.reports = s.reports) (hd : bits (argOf e 2) 32 2 ≠ 1) (hm : firstMiss s 0 (argOf e 1) data.length = some l) :
    (copyPut h e data z).mem = s.mem ∧ (copyPut h e data z).reports = s.reports ++ [{ handle := h, status := 0x13 }] := by
  unfold copyPut
  rw [if_neg hd]
  dsimp only
  have o : memWrite 0 (argOf e 1) data z = (false, noteMiss l z) := by
    unfold memWrite; rw [A.firstMiss, hm]
  rw [o]
  have K := noteMiss_keeps (Has.refl _) l (Keeps.refl _ z)
  refine ⟨(K.mem (by decide)).trans A.mem, ?_⟩
  show (noteMiss l z).reports ++ _ = _
  rw [K.reports (by decide), hr]

/-- Lists that start from a directory: at most one in each cluster. -/
theorem startLists_dir (c h : Nat) : ∀ (n k : Nat) (bs : List Byte) (s : State),
    (∀ cl, k ≤ cl → cl < k + n → (clusterOf (startLists c h (dirEntries n k bs) s) cl).lists = (clusterOf s cl).lists ++
      (if leVal ((bs.drop (8 * (cl - k))).take 8) = 0 then [] else [{ id := (clusterOf s cl).nextId, ctx := c, handle := h, pos := { addr := leVal ((bs.drop (8 * (cl - k))).take 8) } }])) ∧
    (∀ cl, cl < k ∨ k + n ≤ cl → clusterOf (startLists c h (dirEntries n k bs) s) cl = clusterOf s cl)
  | 0, k, bs, s => ⟨fun cl a b => absurd b (by omega), fun _ _ => rfl⟩
  | n + 1, k, bs, s => by
    unfold dirEntries
    dsimp only
    have nx : ∀ cl, k + 1 ≤ cl → (bs.drop 8).drop (8 * (cl - (k + 1))) = bs.drop (8 * (cl - k)) := fun cl hc => by
      rw [List.drop_drop]
      congr 1
      omega
    by_cases ha : leVal (bs.take 8) = 0
    · rw [if_pos ha, List.nil_append]
      obtain ⟨i1, i2⟩ := startLists_dir c h n (k + 1) (bs.drop 8) s
      refine ⟨fun cl a b => ?_, fun cl q => i2 cl (by omega)⟩
      by_cases hc : cl = k
      · subst hc
        rw [i2 cl (.inl (Nat.lt_succ_self _)), Nat.sub_self, Nat.mul_zero, List.drop_zero, if_pos ha, List.append_nil]
      · rw [i1 cl (by omega) (by omega), nx cl (by omega)]
    · rw [if_neg ha, List.singleton_append]
      show (∀ cl, _ → _ → (clusterOf (startLists c h (dirEntries n (k + 1) (bs.drop 8)) (startList c h (k, leVal (bs.take 8)) s)) cl).lists = _) ∧ _
      obtain ⟨i1, i2⟩ := startLists_dir c h n (k + 1) (bs.drop 8) (startList c h (k, leVal (bs.take 8)) s)
      have own : (clusterOf (startList c h (k, leVal (bs.take 8)) s) k).lists = (clusterOf s k).lists ++ [{ id := (clusterOf s k).nextId, ctx := c, handle := h, pos := { addr := leVal (bs.take 8) } }] := by
        unfold startList
        rw [clusterOf_modCluster_self]
      have ne : ∀ cl, cl ≠ k → clusterOf (startList c h (k, leVal (bs.take 8)) s) cl = clusterOf s cl := fun cl q => by
        unfold startList clusterOf modCluster
        rw [Store.get_upd_ne (Ne.symm q)]
      refine ⟨fun cl a b => ?_, fun cl q => ?_⟩
      · by_cases hc : cl = k
        · subst hc
          rw [i2 cl (.inl (Nat.lt_succ_self _)), own, Nat.sub_self, Nat.mul_zero, List.drop_zero, if_neg ha]
        · rw [i1 cl (by omega) (by omega), nx cl (by omega), ne cl hc]
      · exact (i2 cl (by omega)).trans (ne cl (by omega))

theorem startLists_slots (c h : Nat) : ∀ (es : List (Nat × Nat)) (s : State), (startLists c h es s).ctxs = s.ctxs ∧ (startLists c h es s).reports = s.reports
  | [], _ => ⟨rfl, rfl⟩
  | e :: es, s => startLists_slots c h es (startList c h e s)

theorem Alike.exportBlks_ok {s t : State} (A : Alike s t) (hw : noWeak s = true) (o : Nat) : ∀ {l : List Blk} {bs : List Byte} {v : State}, exportBlks o l s = (.ok bs, v) → exportBlks o l t = (.ok bs, t)
  | [], _, _, h => by cases h; rfl
  | b :: r, bs, v, h => by
    unfold exportBlks at h ⊢
    rw [A.wgtAddr]
    split at h
    · cases h
    · next ts s' e =>
      rw [A.loadTiles_ok hw e]
      dsimp only at h ⊢
      have e2 := Alike.loadTiles_ok (Alike.refl s) hw e
      rw [e] at e2
      obtain rfl : s' = s := congrArg Prod.snd e2
      have eb : exportBlk t b o (matOfTiles (lTl b.lat) (lTr b.lat) (ts.map (tileMat fmtW24 3))) = exportBlk s' b o (matOfTiles (lTl b.lat) (lTr b.lat) (ts.map (tileMat fmtW24 3))) := by
        unfold exportBlk
        rw [A.recGet]
      rw [eb]
      split at h
      · next q =>
        rw [Alike.exportBlks_ok A hw o q]
        cases h
        rfl
      · next x =>
        exact absurd h (x _ _)

theorem abortOther_effect (h k : Nat) (s : State) (h1 : stopped s = false) (h2 : cmdReady s h 0x02 = true) (h3 : k = argOf (entryOf s h) 0) (h4 : hCtx k ≠ hCtx h) :
    (running s (abort h s)).reports = s.reports ++ [{ handle := h, status := 1 }] := by
  rw [running_eq _ h1]
  unfold abort
  rw [runCmd_ready h2]
  dsimp only
  rw [← h3]
  have xl : handleLive (modSlot (hCtx h) (hSlot h) (fun x => { x with running := true }) s) k = handleLive s k := handleLive_modSlot (hCtx h) (hSlot h) (fun x => { x with running := true }) (fun _ => ⟨rfl, rfl, rfl⟩) s k
  have xw := waits_modSlot (hCtx h) (hSlot h) (fun x => { x with running := true }) (fun _ => ⟨rfl, rfl⟩) s (hCtx k) (hSlot k)
  have xr : (modSlot (hCtx h) (hSlot h) (fun x => { x with running := true }) s).reports = s.reports := rfl
  have xq : (modSlot (hCtx h) (hSlot h) (fun x => { x with running := true }) s).window = s.window := rfl
  generalize modSlot (hCtx h) (hSlot h) (fun x => { x with running := true }) s = z at *
  rw [if_pos h4]
  show z.reports ++ _ = _
  rw [xr]

theorem abortGone_effect (h k : Nat) (s : State) (h1 : stopped s = false) (h2 : cmdReady s h 0x02 = true) (h3 : k = argOf (entryOf s h) 0) (h4 : hCtx k = hCtx h) (h5 : handleLive s k = false) :
    (running s (abort h s)).reports = s.reports ++ [{ handle := h, status := 4 }] := by
  rw [running_eq _ h1]
  unfold abort
  rw [runCmd_ready h2]
  dsimp only
  rw [← h3]
  have xl : handleLive (modSlot (hCtx h) (hSlot h) (fun x => { x with running := true }) s) k = handleLive s k := handleLive_modSlot (hCtx h) (hSlot h) (fun x => { x with running := true }) (fun _ => ⟨rfl, rfl, rfl⟩) s k
  have xw := waits_modSlot (hCtx h) (hSlot h) (fun x => { x with running := true }) (fun _ => ⟨rfl, rfl⟩) s (hCtx k) (hSlot k)
  have xr : (modSlot (hCtx h) (hSlot h) (fun x => { x with running := true }) s).reports = s.reports := rfl
  have xq : (modSlot (hCtx h) (hSlot h) (fun x => { x with running := true }) s).window = s.window := rfl
  generalize modSlot (hCtx h) (hSlot h) (fun x => { x with running := true }) s = z at *
  rw [if_neg (fun q => q h4), xl, h5, if_pos (by decide)]
  show z.reports ++ _ = _
  rw [xr]

theorem abortStarted_effect (h k : Nat) (s : State) (h1 : stopped s = false) (h2 : cmdReady s h 0x02 = true) (h3 : k = argOf (entryOf s h) 0) (h4 : hCtx k = hCtx h) (h5 : handleLive s k = true) (h6 : ((slotOf s (hCtx k) (hSlot k)).started && !(slotOf s (hCtx k) (hSlot k)).waitTurn) = true) :
    (running s (abort h s)).reports = s.reports ++ [{ handle := h, status := 5 }] := by
  rw [running_eq _ h1]
  unfold abort
  rw [runCmd_ready h2]
  dsimp only
  rw [← h3]
  have xl : handleLive (modSlot (hCtx h) (hSlot h) (fun x => { x with running := true }) s) k = handleLive s k := handleLive_modSlot (hCtx h) (hSlot h) (fun x => { x with running := true }) (fun _ => ⟨rfl, rfl, rfl⟩) s k
  have xw := waits_modSlot (hCtx h) (hSlot h) (fun x => { x with running := true }) (fun _ => ⟨rfl, rfl⟩) s (hCtx k) (hSlot k)
  have xr : (modSlot (hCtx h) (hSlot h) (fun x => { x with running := true }) s).reports = s.reports := rfl
  have xq : (modSlot (hCtx h) (hSlot h) (fun x => { x with running := true }) s).window = s.window := rfl
  generalize modSlot (hCtx h) (hSlot h) (fun x => { x with running := true }) s = z at *
  rw [if_neg (fun q => q h4), xl, h5, if_neg (by decide), xw, h6, if_pos rfl]
  show z.reports ++ _ = _
  rw [xr]

theorem abort_effect (h k : Nat) (s : State) (h1 : stopped s = false) (h2 : cmdReady s h 0x02 = true) (h3 : k = argOf (entryOf s h) 0) (h4 : hCtx k = hCtx h) (h5 : handleLive s k = true) (h6 : ((slotOf s (hCtx k) (hSlot k)).started && !(slotOf s (hCtx k) (hSlot k)).waitTurn) = false) :
    (running s (abort h s)).reports = s.reports ++ [{ handle := h, status := 0 }] ∧ handleLive (running s (abort h s)) k = false ∧ (running s (abort h s)).window = s.window.filter (fun w => !(w.handle == k && !w.started)) := by
  rw [running_eq _ h1]
  unfold abort
  rw [runCmd_ready h2]
  dsimp only
  rw [← h3]
  have xl : handleLive (modSlot (hCtx h) (hSlot h) (fun x => { x with running := true }) s) k = handleLive s k := handleLive_modSlot (hCtx h) (hSlot h) (fun x => { x with running := true }) (fun _ => ⟨rfl, rfl, rfl⟩) s k
  have xw := waits_modSlot (hCtx h) (hSlot h) (fun x => { x with running := true }) (fun _ => ⟨rfl, rfl⟩) s (hCtx k) (hSlot k)
  have xr : (modSlot (hCtx h) (hSlot h) (fun x => { x with running := true }) s).reports = s.reports := rfl
  have xq : (modSlot (hCtx h) (hSlot h) (fun x => { x with running := true }) s).window = s.window := rfl
  generalize modSlot (hCtx h) (hSlot h) (fun x => { x with running := true }) s = z at *
  rw [if_neg (fun q => q h4), xl, h5, if_neg (by decide), xw, h6, if_neg (by decide)]
  have w1 : handleLive (dropWindow k z) k = handleLive z k := by
    unfold dropWindow
    split
    · split <;> rfl
    · rfl
  have w2 : (dropWindow k z).window = z.window.filter (fun w => !(w.handle == k && !w.started)) := by
    unfold dropWindow
    split
    · next w e =>
      rw [e, Option.filter_some]
      have pq : (w.handle = k ∧ (!w.started) = true) ↔ (w.handle == k && !w.started) = true := by simp
      by_cases q : w.handle = k ∧ !w.started
      · rw [if_pos q, pq.1 q]
        rfl
      · rw [if_neg q, Bool.eq_false_iff.2 (fun r => q (pq.2 r))]
        exact e
    · next e => rw [e]; rfl
  have w3 : (dropWindow k z).reports = z.reports := by
    unfold dropWindow
    split
    · split <;> rfl
    · rfl
  generalize dropWindow k z = y at *
  have l : handleLive (setTurn k false y) k = true := (handleLive_modSlot (hCtx k) (hSlot k) (fun x => { x with waitTurn := false }) (fun _ => ⟨rfl, rfl, rfl⟩) y k).trans (w1.trans (xl.trans h5))
  have v1 : (setTurn k false y).window = y.window := rfl
  have v2 : (setTurn k false y).reports = y.reports := rfl
  generalize setTurn k false y = x at *
  have K := endCmd_keeps (Has.refl _) k 3 0 0 (Keeps.refl _ x)
  have d := endCmd_dead 3 0 0 l
  have r : (endCmd k 3 0 0 x).reports = s.reports := by rw [K.reports (by decide), v2, w3, xr]
  have q : (endCmd k 3 0 0 x).window = s.window.filter (fun w => !(w.handle == k && !w.started)) := by rw [K.window (by decide), v1, w2, xq]
  generalize endCmd k 3 0 0 x = u at *
  refine ⟨?_, d, q⟩
  show u.reports ++ _ = _
  rw [r]

/-- What a command of the host DMA finds as it is taken up. -/
abbrev dmaStart (h : Nat) (s : State) : State := hubTake 537 (hCtx h) h (modSlot (hCtx h) (hSlot h) (fun x => { x with running := true }) s)

/-- A command whose transfer the host DMA's Sluice has granted is taken up. -/
theorem runDma_ready {s : State} {h op : Nat} (hg : hubGranted s 537 (hCtx h) h = true) (hr : cmdReady s h op = true) (f : List Byte → State → State) :
    runDma h op f s = f (entryOf s h) (dmaStart h s) := by
  unfold runDma
  rw [if_pos hg, runCmd_ready hr]

theorem dmaStart_alike (h : Nat) (s : State) : Alike s (dmaStart h s) :=
  ((modSlot_keeps (Has.refl _) (hCtx h) (hSlot h) (fun x => { x with running := true }) (Keeps.refl _ s)).alike (by decide)).trans
    ((hubTake_keeps (Has.refl _) 537 (hCtx h) h (Keeps.refl _ _)).alike (by decide))

theorem copyIn_effect (h : Nat) (e hd data : List Byte) (s : State) (h1 : isAwake s = true) (h2 : cmdReady s h 0x20 = true) (h3 : e = entryOf s h) (h4 : bits (argOf e 2) 32 2 = 0) (h5 : data = (hd ++ zeros (argOf e 2 % two32)).take (argOf e 2 % two32)) (h6 : firstMiss s 0 (argOf e 1) data.length = none) (h7 : hubGranted s 537 (hCtx h) h = true) :
    (awake s (copy h hd s)).mem = (memStore 0 (argOf e 1) data s).mem ∧ (awake s (copy h hd s)).reports = s.reports ++ [{ handle := h, status := if bit (argOf e 2) 34 && crc32c data != argOf e 3 then 9 else 0, r0 := crc32c data }] := by
  rw [awake_eq _ h1]
  unfold copy
  rw [runDma_ready h7 h2]
  dsimp only
  rw [← h3]
  have A := dmaStart_alike h s
  have xr : (dmaStart h s).reports = s.reports := rfl
  have xh : (dmaStart h s).hmem = s.hmem := rfl
  generalize dmaStart h s = z at *
  rw [if_pos h4, ← h5]
  exact copyPut_in A xr (by rw [h4]; decide) h6

theorem copyInMiss_effect (h : Nat) (e hd data : List Byte) (l : Lookup) (s : State) (h1 : isAwake s = true) (h2 : cmdReady s h 0x20 = true) (h3 : e = entryOf s h) (h4 : bits (argOf e 2) 32 2 = 0) (h5 : data = (hd ++ zeros (argOf e 2 % two32)).take (argOf e 2 % two32)) (h6 : firstMiss s 0 (argOf e 1) data.length = some l) (h7 : hubGranted s 537 (hCtx h) h = true) :
    (awake s (copy h hd s)).mem = s.mem ∧ (awake s (copy h hd s)).reports = s.reports ++ [{ handle := h, status := 0x13 }] := by
  rw [awake_eq _ h1]
  unfold copy
  rw [runDma_ready h7 h2]
  dsimp only
  rw [← h3]
  have A := dmaStart_alike h s
  have xr : (dmaStart h s).reports = s.reports := rfl
  have xh : (dmaStart h s).hmem = s.hmem := rfl
  generalize dmaStart h s = z at *
  rw [if_pos h4, ← h5]
  exact copyPut_miss A xr (by rw [h4]; decide) h6

theorem copyOut_effect (h : Nat) (e hd data : List Byte) (s : State) (h1 : isAwake s = true) (h2 : cmdReady s h 0x20 = true) (h3 : e = entryOf s h) (h4 : bits (argOf e 2) 32 2 = 1) (h5 : engRead 0 5 (argOf e 0) (argOf e 2 % two32) s = (.data data, s)) (h6 : hubGranted s 537 (hCtx h) h = true) (h7 : noWeak s = true) :
    (awake s (copy h hd s)).hmem = Store.putAll 0 (argOf e 1) data s.hmem ∧ (awake s (copy h hd s)).mem = s.mem ∧ (awake s (copy h hd s)).reports = s.reports ++ [{ handle := h, status := if bit (argOf e 2) 34 && crc32c data != argOf e 3 then 9 else 0, r0 := crc32c data }] := by
  rw [awake_eq _ h1]
  unfold copy
  rw [runDma_ready h6 h2]
  dsimp only
  rw [← h3]
  have A := dmaStart_alike h s
  have xr : (dmaStart h s).reports = s.reports := rfl
  have xh : (dmaStart h s).hmem = s.hmem := rfl
  generalize dmaStart h s = z at *
  rw [if_neg (by rw [h4]; decide)]
  unfold cmdRead
  rw [A.engRead_data h7 h5]
  dsimp only
  unfold copyPut
  rw [if_pos h4]
  refine ⟨?_, A.mem, ?_⟩
  · show Store.putAll 0 (argOf e 1) data z.hmem = _
    rw [xh]
  · show z.reports ++ _ = _
    rw [xr]

theorem copyWithin_effect (h : Nat) (e hd data : List Byte) (s : State) (h1 : isAwake s = true) (h2 : cmdReady s h 0x20 = true) (h3 : e = entryOf s h) (h4 : bits (argOf e 2) 32 2 = 2) (h5 : engRead 0 5 (argOf e 0) (argOf e 2 % two32) s = (.data data, s)) (h6 : firstMiss s 0 (argOf e 1) data.length = none) (h7 : hubGranted s 537 (hCtx h) h = true) (h8 : noWeak s = true) :
    (awake s (copy h hd s)).mem = (memStore 0 (argOf e 1) data s).mem ∧ (awake s (copy h hd s)).reports = s.reports ++ [{ handle := h, status := if bit (argOf e 2) 34 && crc32c data != argOf e 3 then 9 else 0, r0 := crc32c data }] := by
  rw [awake_eq _ h1]
  unfold copy
  rw [runDma_ready h7 h2]
  dsimp only
  rw [← h3]
  have A := dmaStart_alike h s
  have xr : (dmaStart h s).reports = s.reports := rfl
  have xh : (dmaStart h s).hmem = s.hmem := rfl
  generalize dmaStart h s = z at *
  rw [if_neg (by rw [h4]; decide)]
  unfold cmdRead
  rw [A.engRead_data h8 h5]
  dsimp only
  exact copyPut_in A xr (by rw [h4]; decide) h6

theorem copyWithinMiss_effect (h : Nat) (e hd data : List Byte) (l : Lookup) (s : State) (h1 : isAwake s = true) (h2 : cmdReady s h 0x20 = true) (h3 : e = entryOf s h) (h4 : bits (argOf e 2) 32 2 = 2) (h5 : engRead 0 5 (argOf e 0) (argOf e 2 % two32) s = (.data data, s)) (h6 : firstMiss s 0 (argOf e 1) data.length = some l) (h7 : hubGranted s 537 (hCtx h) h = true) (h8 : noWeak s = true) :
    (awake s (copy h hd s)).mem = s.mem ∧ (awake s (copy h hd s)).reports = s.reports ++ [{ handle := h, status := 0x13 }] := by
  rw [awake_eq _ h1]
  unfold copy
  rw [runDma_ready h7 h2]
  dsimp only
  rw [← h3]
  have A := dmaStart_alike h s
  have xr : (dmaStart h s).reports = s.reports := rfl
  have xh : (dmaStart h s).hmem = s.hmem := rfl
  generalize dmaStart h s = z at *
  rw [if_neg (by rw [h4]; decide)]
  unfold cmdRead
  rw [A.engRead_data h8 h5]
  dsimp only
  exact copyPut_miss A xr (by rw [h4]; decide) h6

theorem listRun_effect (h : Nat) (bs : List Byte) (s : State) (h1 : isAwake s = true) (h2 : cmdReady s h 0x12 = true) (h3 : engRead 0 5 (argOf (entryOf s h) 0) 2048 s = (.data bs, s)) (h4 : noWeak s = true) :
    (∀ k < 256, (clusterOf (awake s (listRun h s)) k).lists = (clusterOf s k).lists ++ (if leVal ((bs.drop (8 * k)).take 8) = 0 then [] else [{ id := (clusterOf s k).nextId, ctx := hCtx h, handle := h, pos := { addr := leVal ((bs.drop (8 * k)).take 8) } }])) ∧ (awake s (listRun h s)).reports = s.reports ++ (if listsLeft (awake s (listRun h s)) h then [] else [{ handle := h, status := 0 }]) := by
  rw [awake_eq _ h1]
  have A := (modSlot_keeps (Has.refl _) (hCtx h) (hSlot h) (fun x => { x with running := true }) (Keeps.refl _ s)).alike (by decide)
  have e0 : listRun h s = listsDone h (startLists (hCtx h) h (dirEntries 256 0 bs) (modSlot (hCtx h) (hSlot h) (fun x => { x with running := true }) s)) := by
    unfold listRun
    rw [runCmd_ready h2]
    unfold cmdRead
    rw [A.engRead_data h4 h3]
  rw [e0]
  have xr : (modSlot (hCtx h) (hSlot h) (fun x => { x with running := true }) s).reports = s.reports := rfl
  have xc : ∀ k, clusterOf (modSlot (hCtx h) (hSlot h) (fun x => { x with running := true }) s) k = clusterOf s k := fun _ => rfl
  have xl := handleLive_modSlot (hCtx h) (hSlot h) (fun x => { x with running := true }) (fun _ => ⟨rfl, rfl, rfl⟩) s h
  have xe : entryOf (modSlot (hCtx h) (hSlot h) (fun x => { x with running := true }) s) h = entryOf s h := by
    unfold entryOf
    rw [slotOf_modSlot_self]
  generalize modSlot (hCtx h) (hSlot h) (fun x => { x with running := true }) s = z at *
  have rd : handleLive s h = true ∧ opOf (entryOf s h) = 0x12 := by
    unfold cmdReady at h2
    simp only [Bool.and_eq_true, beq_iff_eq] at h2
    exact ⟨h2.1.1.1, h2.2⟩
  obtain ⟨i1, _⟩ := startLists_dir (hCtx h) h 256 0 bs z
  obtain ⟨y1, y2⟩ := startLists_slots (hCtx h) h (dirEntries 256 0 bs) z
  have yl : handleLive (startLists (hCtx h) h (dirEntries 256 0 bs) z) h = handleLive z h := by
    unfold handleLive slotOf ctxOf; rw [y1]
  have ye : entryOf (startLists (hCtx h) h (dirEntries 256 0 bs) z) h = entryOf z h := by
    unfold entryOf slotOf ctxOf; rw [y1]
  obtain ⟨y, hy⟩ : ∃ y, y = startLists (hCtx h) h (dirEntries 256 0 bs) z := ⟨_, rfl⟩
  rw [← hy] at i1 y1 y2 yl ye ⊢
  have fin : (listsDone h y).clusters = y.clusters ∧ (listsDone h y).reports = s.reports ++ (if listsLeft y h then [] else [{ handle := h, status := 0 }]) := by
    unfold listsDone
    rw [yl, xl, rd.1, ye, xe, rd.2]
    cases hl : listsLeft y h with
    | true => exact ⟨rfl, by rw [if_neg (by decide), if_pos rfl, List.append_nil, y2, xr]⟩
    | false =>
      rw [if_pos (by decide), if_neg (by decide)]
      refine ⟨rfl, ?_⟩
      show y.reports ++ _ = _
      rw [y2, xr]
  refine ⟨fun k hk => ?_, ?_⟩
  · rw [show clusterOf (listsDone h y) k = clusterOf y k by unfold clusterOf; rw [fin.1], i1 k (Nat.zero_le _) (by omega), xc, Nat.sub_zero]
  · rw [fin.2, show listsLeft (listsDone h y) h = listsLeft y h by unfold listsLeft; rw [fin.1]]

theorem exportOpen_effect (h : Nat) (s : State) (h1 : isAwake s = true) (h2 : cmdReady s h 0x21 = true) (h3 : stepIsOpen s (hCtx h) = true) (h4 : hubGranted s 537 (hCtx h) h = true) :
    (awake s (exportRun h s)).reports = s.reports ++ [{ handle := h, status := 8 }] := by
  rw [awake_eq _ h1]
  unfold exportRun
  rw [runDma_ready h4 h2]
  dsimp only
  rw [show stepIsOpen (dmaStart h s) (hCtx h) = stepIsOpen (modSlot (hCtx h) (hSlot h) (fun x => { x with running := true }) s) (hCtx h) from rfl, stepIsOpen_modSlot, h3]
  rw [if_pos rfl]
  rfl

theorem exportCmd_effect (h : Nat) (bs : List Byte) (s : State) (h1 : isAwake s = true) (h2 : cmdReady s h 0x21 = true) (h3 : stepIsOpen s (hCtx h) = false) (h4 : exportBlks (argOf (entryOf s h) 2 % 8) ((ctxOf s (hCtx h)).tabs.foldr insGbi []) s = (.ok bs, s)) (h5 : hubGranted s 537 (hCtx h) h = true) (h6 : noWeak s = true) :
    (awake s (exportRun h s)).hmem = Store.putAll 0 (argOf (entryOf s h) 0) (bs.take (argOf (entryOf s h) 1)) s.hmem ∧ (awake s (exportRun h s)).reports = s.reports ++ [{ handle := h, status := 0, r0 := min bs.length (argOf (entryOf s h) 1) }] ∧ (awake s (exportRun h s)).mem = s.mem := by
  rw [awake_eq _ h1]
  unfold exportRun
  rw [runDma_ready h5 h2]
  dsimp only
  rw [show stepIsOpen (dmaStart h s) (hCtx h) = stepIsOpen (modSlot (hCtx h) (hSlot h) (fun x => { x with running := true }) s) (hCtx h) from rfl, stepIsOpen_modSlot, h3]
  rw [if_neg (by decide)]
  have A := dmaStart_alike h s
  have xr : (dmaStart h s).reports = s.reports := rfl
  have xh : (dmaStart h s).hmem = s.hmem := rfl
  have xt : (ctxOf (dmaStart h s) (hCtx h)).tabs = (ctxOf s (hCtx h)).tabs := by
    show (ctxOf (modSlot (hCtx h) (hSlot h) (fun x => { x with running := true }) s) (hCtx h)).tabs = _
    unfold modSlot
    rw [ctxOf_modCtx_self]
  generalize dmaStart h s = z at *
  rw [xt, A.exportBlks_ok h6 _ h4]
  dsimp only
  refine ⟨?_, ?_, A.mem⟩
  · show Store.putAll 0 _ _ z.hmem = _
    rw [xh]
  · show z.reports ++ _ = _
    rw [xr]

end Sys2Proof.Machine
end

