-- ==== Sys2Proof/Laws/EffectsCommit.lean ====
section
/-! SUPPORT. What the commands do: the commands of commit. -/

namespace Sys2Proof.Machine

set_option linter.unusedSimpArgs false

/-- Stored weights have the same effect on memory in states that see it alike. -/
theorem Alike.storeWeights {s t : State} (h : Alike s t) (b : Blk) (a : Nat) : ∀ (l : List (List Byte)) (k : Nat),
    Alike (storeWeights b none a k l s) (storeWeights b none a k l t)
  | l, k => by
    induction l generalizing k s t with
    | nil => exact h
    | cons x l ih =>
      unfold Sys2Proof.Machine.storeWeights
      have : gapTile none 0 k = false := rfl
      rw [this]
      simp only [Bool.false_eq_true, if_false]
      exact ih ((h.memStore _ _ _).memStore _ _ _) _

theorem commit_effect (c n g : Nat) (st : Step) (b : Blk) (T : List (List Byte)) (s : State) (h1 : isAwake s = true) (h2 : blkOf s c n g = some (st, b)) (h3 : b.ph = 2) (h4 : ownerReady s c n b = true) (h5 : ckptHolds s c n g = false) (h6 : wholeBuf b 1 s = (some T, s)) (h7 : replayOn s c = false) (h8 : b.stopped = false) (h9 : (deltaOf st b).all (·.isFin) = true) (h10 : lUeAuto b.lat = false) :
    (awake s (commit c n g s)).mem = (recPut b 24 4 n (storeWeights b none (wgtAddr s b) 0 ((tilesOfMat (lTl b.lat) (lTr b.lat) (chunks (64 * lTr b.lat) (64 * lTl b.lat) ((commitWords ((ctxOf s c).seed.getD 0) n g ((matOfTiles (lTl b.lat) (lTr b.lat) (T.map (tileMat fmtW24 3))).flatMap id) (deltaOf st b)).map fun w => fmtW24.dec w.1))).map (tileBs fmtW24 3)) s)).mem ∧ (awake s (commit c n g s)).blk c n g = some { b with ph := 3, stopped := false, p := [] } ∧ (ctxOf (awake s (commit c n g s)) c).lastCommit = some (max n ((ctxOf s c).lastCommit.getD 0)) := by
  rw [awake_eq _ h1]
  have hg := blkOf_found h2
  subst hg
  unfold commit
  rw [h2]
  dsimp only
  rw [h3, h4, h5]
  simp only [bne_self_eq_false, Bool.not_true, Bool.or_self, Bool.false_eq_true, if_false]
  rw [h6]
  dsimp only
  unfold commitRun
  dsimp only
  generalize hx : modCtx c (fun x => { x with lastCommit := some (max n (x.lastCommit.getD 0)) }) (auditAbort b.gbi s) = x
  have a0 : (auditAbort b.gbi s).ctxs = s.ctxs := (auditAbort_keeps (Has.refl _) _ (Keeps.refl _ s)).ctxs (by decide)
  have c0 : ctxOf (auditAbort b.gbi s) c = ctxOf s c := by unfold ctxOf; rw [a0]
  have cx : ctxOf x c = { ctxOf s c with lastCommit := some (max n ((ctxOf s c).lastCommit.getD 0)) } := by
    rw [← hx, ctxOf_modCtx_self, c0]
  have ax : Alike s x := by
    have k := (auditAbort_keeps (Has.refl _) b.gbi (Keeps.refl _ s)).alike (by decide +kernel)
    subst hx
    exact ⟨k.mem, k.poison, k.look, k.red, k.weak⟩
  have bx : blkOf x c n b.gbi = some (st, b) := by rw [blkOf_congr (s := s) n _ (by rw [cx]), h2]
  have gx : gapOf x c n b.gbi = none := by
    have : replayOn x c = replayOn s c := by
      have k := (auditAbort_keeps (Has.refl _) b.gbi (Keeps.refl _ s)).getFk reg_HOSTIF_RPL_CFG_EN (by decide) 0 c
      subst hx; unfold replayOn; rw [← k]; rfl
    unfold gapOf; rw [this, h7]; rfl
  rw [h8]
  simp only [Bool.false_eq_true, if_false]
  rw [h9, h10]
  simp only [Bool.not_true, Bool.false_eq_true, if_false]
  rw [gx]
  have g3 : gapBit none 3 = false := rfl
  rw [g3]
  have sd : (ctxOf x c).seed = (ctxOf s c).seed := by rw [cx]
  rw [sd]
  have wa : wgtAddr x b = wgtAddr s b := by unfold wgtAddr; rw [ax.recGet]
  rw [wa]
  simp only [Bool.not_true, Bool.false_eq_true, if_false, Bool.or_self, false_or, Bool.not_false, Bool.and_false]
  generalize hN : List.map (tileBs fmtW24 3) _ = N
  generalize hy : storeWeights b none (wgtAddr s b) 0 N x = y
  have yk := ax.storeWeights b (wgtAddr s b) N 0
  rw [hy] at yk
  have yc : y.ctxs = x.ctxs := by
    subst hy; exact (storeWeights_keeps (Has.refl _) _ _ _ _ _ (Keeps.refl _ x)).ctxs (by decide)
  have fin : ∀ z : State, z.ctxs = y.ctxs → Alike y z →
      (modBlk c n b.gbi (fun x => { x with ph := 3, stopped := false, p := [] }) (recPut b 24 4 n z)).mem =
          (recPut b 24 4 n (storeWeights b none (wgtAddr s b) 0 N s)).mem ∧
        (modBlk c n b.gbi (fun x => { x with ph := 3, stopped := false, p := [] }) (recPut b 24 4 n z)).blk c n b.gbi =
          some { b with ph := 3, stopped := false, p := [] } ∧
        (ctxOf (modBlk c n b.gbi (fun x => { x with ph := 3, stopped := false, p := [] }) (recPut b 24 4 n z)) c).lastCommit =
          some (max n ((ctxOf s c).lastCommit.getD 0)) := fun z zc zk => by
    have rc : (recPut b 24 4 n z).ctxs = x.ctxs := by
      rw [(recPut_keeps (Has.refl _) _ _ _ _ (Keeps.refl _ z)).ctxs (by decide), zc, yc]
    refine ⟨((yk.trans zk).recPut b 24 4 n).mem, ?_, ?_⟩
    · rw [blkOf_modBlk (st := st) (b := b)]
      · rw [blkOf_ctxs _ _ _ rc, bx]
      · exact fun _ => rfl
    · have : ctxOf (recPut b 24 4 n z) c = ctxOf x c := by unfold ctxOf; rw [rc]
      unfold modBlk modStep
      rw [ctxOf_modCtx_self, this, cx]
  have d : Alike y (dipCommit b y) := (dipCommit_keeps (Has.refl _) _ (Keeps.refl _ y)).alike (by decide +kernel)
  split
  · exact fin _ rfl d
  · have k := fun q => setEvt_keeps (w := 0x2000000040000000000080000000000) (p := 1) ((Has.refl _).sub rfl) ((Has.refl _).sub rfl) CLUSTER_EV_W24_SAT b.cl
      (by with_unfolding_all rfl) reg_pendFld1 (addF_keeps ((Has.refl _).sub rfl) CLUSTER_W24_SAT b.cl q reg_CLUSTER_W24_SAT (Keeps.refl _ (dipCommit b y)))
    exact fin _ ((k _).ctxs (by decide)) (d.trans ((k _).alike (by decide +kernel)))

theorem mirrorSend_effect (c n g : Nat) (st : Step) (b : Blk) (T : List (List Byte)) (s : State) (h1 : isAwake s = true) (h2 : blkOf s c n g = some (st, b)) (h3 : b.ph = 3) (h4 : ownerReady s c n b = true) (h5 : mirrored s c b = true) (h6 : wholeBuf b 1 s = (some T, s)) (h7 : (membersTo s 2 (twinId s)).isEmpty = false) :
    (awake s (mirrorSend c n g s)).blk c n g = some { b with ph := 4 } ∧ (awake s (mirrorSend c n g s)).mem = s.mem ∧ (awake s (mirrorSend c n g s)).sent = s.sent ++ List.replicate ((membersTo s 2 (twinId s)).take (((culData s g 6 false 0 (weightTable s b) ++ culData s g 1 false 0 (T.flatMap id ++ weightTable s b) ++ [culFrame s g 8 false 0 (pl32 [(4, recGet s b 24 4), (1, recGet s b 17 1), (2, recGet s b 44 2)])]).length + 15) / 16)).length (culOpen s g 8 n false).what ++ (culData s g 6 false 0 (weightTable s b) ++ culData s g 1 false 0 (T.flatMap id ++ weightTable s b) ++ [culFrame s g 8 false 0 (pl32 [(4, recGet s b 24 4), (1, recGet s b 17 1), (2, recGet s b 44 2)])]).map Frame.what := by
  rw [awake_eq _ h1]
  have hg := blkOf_found h2
  subst hg
  unfold mirrorSend
  rw [h2]
  dsimp only
  rw [h3, h4, h5]
  simp only [bne_self_eq_false, Bool.not_true, Bool.or_self, Bool.false_eq_true, if_false]
  rw [h6]
  dsimp only
  refine ⟨?_, (sendWeights_keeps (Has.refl _) _ _ _ _ (Keeps.refl _ s)).mem (by decide), ?_⟩
  · rw [blkOf_modBlk (st := st) (b := b)]
    · rw [blkOf_ctxs _ _ _ ((sendWeights_keeps (Has.refl _) _ _ _ _ (Keeps.refl _ s)).ctxs (by decide)), h2]
    · exact fun _ => rfl
  · show (sendWeights b false n T s).sent = _
    unfold sendWeights
    dsimp only
    rw [culSend_sent _ _ s h7]

/-- Stored factors have the same effect on memory in states that see it alike. -/
theorem Alike.storeFactors {s t : State} (h : Alike s t) (b : Blk) (a : Nat) : ∀ (l : List (List Byte)) (k : Nat),
    Alike (storeFactors b none a k l s) (storeFactors b none a k l t)
  | l, k => by
    induction l generalizing k s t with
    | nil => exact h
    | cons x l ih =>
      unfold Sys2Proof.Machine.storeFactors
      have : gapTile none 2 k = false := rfl
      rw [this]
      simp only [Bool.false_eq_true, if_false]
      exact ih (h.memStore _ _ _) _

/-- What operation 9 leaves in memory: the new tiles, FCOUNT and FSTAMP. -/
def factorMem (n : Nat) (b : Blk) (new : Option (List Mat)) (s : State) : State :=
  recPut b 28 4 n ((new.map fun N => if min 65535 (recGet s b 46 2 + 1) = recGet s b 46 2 then storeFactors b none (facAddr s b) 0 (N.map (tileBs fmtFP32 4)) s else recPut b 46 2 (min 65535 (recGet s b 46 2 + 1)) (storeFactors b none (facAddr s b) 0 (N.map (tileBs fmtFP32 4)) s)).getD s)

theorem Alike.factorMem {s t : State} (h : Alike s t) (n : Nat) (b : Blk) (new : Option (List Mat)) :
    (factorMem n b new t).mem = (factorMem n b new s).mem := by
  unfold Sys2Proof.Machine.factorMem
  have f : Sys2Proof.Machine.facAddr t b = Sys2Proof.Machine.facAddr s b := by unfold Sys2Proof.Machine.facAddr; rw [h.recGet]
  cases new with
  | none => exact (h.recPut b 28 4 n).mem
  | some N =>
    simp only [Option.map_some, Option.getD_some, h.recGet, f]
    split
    · exact ((h.storeFactors b _ _ 0).recPut b 28 4 n).mem
    · exact (((h.storeFactors b _ _ 0).recPut b 46 2 _).recPut b 28 4 n).mem

/-- Operation 9's results of a block that is not mirrored and not due. -/
theorem factorWrite_plain {c n : Nat} {st : Step} {b : Blk} (T : List (List Byte)) (new : Option (List Mat)) {s : State} (h2 : blkOf s c n b.gbi = some (st, b)) (h5 : (c == culCtx s) = false) (h7 : replayOn s c = false) (h10 : (new.isNone || lF b.lat != 0) = true) (h11 : isDue st b = false) (h12 : blkOf s c (n + 1) b.gbi = none) :
    (armNext c n b.gbi (factorWrite c n st b none new T s)).mem = (factorMem n b new s).mem ∧ (armNext c n b.gbi (factorWrite c n st b none new T s)).blk c n b.gbi = some { b with wrote := new.isSome, half1 := false, ph := 5 } := by
  generalize hB : ({ b with wrote := new.isSome, half1 := false, ph := 5 } : Blk) = B
  have g1 : gapBit none 1 = false := rfl
  have g4 : gapBit none 4 = false := rfl
  have dec : ∀ k, snapDecision s c n st b k = 0 := fun k => by unfold snapDecision; rw [h11]; rfl
  have div : snapDiv s c b 0 = false := by unfold snapDiv; rw [h7]; rfl
  have d20 : ((0 : Nat) = 2) = False := by simp
  have d10 : ((0 : Nat) = 1) = False := by simp
  have fin : ∀ (w : Bool) (z Y : State), z.ctxs = s.ctxs → culCtx z = culCtx s → { b with wrote := w, half1 := false, ph := 5 } = B →
      (armNext c n b.gbi (if mirrored (modBlk c n b.gbi (fun x => { x with wrote := w, half1 := false, ph := 5 }) (recPut b 28 4 n z)) c b = true then Y
        else modBlk c n b.gbi (fun x => { x with wrote := w, half1 := false, ph := 5 }) (recPut b 28 4 n z))).mem = (recPut b 28 4 n z).mem ∧
      (armNext c n b.gbi (if mirrored (modBlk c n b.gbi (fun x => { x with wrote := w, half1 := false, ph := 5 }) (recPut b 28 4 n z)) c b = true then Y
        else modBlk c n b.gbi (fun x => { x with wrote := w, half1 := false, ph := 5 }) (recPut b 28 4 n z))).blk c n b.gbi = some B := fun w z Y zc zq hw => by
    have rc : (recPut b 28 4 n z).ctxs = s.ctxs := by rw [(recPut_keeps (Has.refl _) _ _ _ _ (Keeps.refl _ z)).ctxs (by decide), zc]
    have rq : culCtx (modBlk c n b.gbi (fun x => { x with wrote := w, half1 := false, ph := 5 }) (recPut b 28 4 n z)) = culCtx s := by
      rw [← zq]; exact (recPut_keeps (Has.refl _) _ _ _ _ (Keeps.refl _ z)).getFk reg_CULVERT_CFG_CTX (by decide) 0 0
    have mf : mirrored (modBlk c n b.gbi (fun x => { x with wrote := w, half1 := false, ph := 5 }) (recPut b 28 4 n z)) c b = false := by
      unfold mirrored; rw [rq, h5]; rfl
    rw [mf]
    simp only [Bool.false_eq_true, if_false]
    unfold armNext
    rw [blkOf_modBlk_ne _ (by omega), blkOf_ctxs _ _ _ rc, h12]
    dsimp only
    refine ⟨rfl, ?_⟩
    unfold State.blk
    refine Eq.trans (blkOf_modBlk (st := st) (b := b) ?_ fun _ => rfl) (congrArg some hw)
    rw [blkOf_ctxs _ _ _ rc, h2]
  unfold factorMem
  cases new with
  | none =>
    unfold factorWrite
    dsimp only
    simp only [Option.isSome_none, Bool.false_and, Bool.false_eq_true, if_false, dec, div, d20, d10, if_true, g4]
    exact fin false s _ rfl rfl hB
  | some N =>
    have l1 : (lF b.lat != 0) = true := by simpa using h10
    unfold factorWrite
    dsimp only
    have d2 : (true && (0 : Nat) == 2) = false := rfl
    simp only [Option.map_some, Option.isSome_some, Option.isNone_some, l1, Bool.and_self, if_true, dec, div, Bool.false_eq_true, if_false, g4, Option.getD_some, d20, d10, d2]
    generalize hy : storeFactors b none (facAddr s b) 0 (List.map (tileBs fmtFP32 4) N) s = y
    have yc : y.ctxs = s.ctxs := by subst hy; exact (storeFactors_keeps (Has.refl _) _ _ _ _ _ (Keeps.refl _ s)).ctxs (by decide)
    have yq : culCtx y = culCtx s := by subst hy; exact (storeFactors_keeps (Has.refl _) _ _ _ _ _ (Keeps.refl _ s)).getFk reg_CULVERT_CFG_CTX (by decide) 0 0
    generalize min 65535 (recGet s b 46 2 + 1) = fc
    generalize recGet s b 46 2 = old
    by_cases hf : fc = old
    · rw [if_pos hf, if_pos hf]
      exact fin true y _ yc yq hB
    · rw [if_neg hf, if_neg hf]
      have k := recPut_keeps (Has.refl _) b 46 2 fc (Keeps.refl _ y)
      have k1 := (k.ctxs (by decide)).trans yc
      have k2 := (k.getFk reg_CULVERT_CFG_CTX (by decide) 0 0).trans yq
      generalize recPut b 46 2 fc y = z at k1 k2 ⊢
      have e : culCtx (incr CLUSTER_FACTOR_UPD b.cl z) = culCtx z := getF_incr_apart (by decide) ..
      have q : (recPut b 28 4 n (incr CLUSTER_FACTOR_UPD b.cl z)).mem = (recPut b 28 4 n z).mem :=
        (((incr_keeps (Has.refl _) _ _ reg_CLUSTER_FACTOR_UPD (Keeps.refl _ z)).alike (by decide +kernel)).recPut b 28 4 n).mem
      rw [← q]
      exact fin true _ _ k1 (e.trans k2) hB

theorem factorUpdate_effect (c n g : Nat) (us : List Nat) (st : Step) (b : Blk) (T : List (List Byte)) (G : Mat) (new : Option (List Mat)) (s : State) (h1 : isAwake s = true) (h2 : blkOf s c n g = some (st, b)) (h3 : b.ph = 3) (h4 : ownerReady s c n b = true) (h5 : (c == culCtx s) = false) (h6 : wholeBuf b 2 s = (some T, s)) (h7 : replayOn s c = false) (h8 : accMat b s = (some G, s)) (h9 : (if b.nfAcc || lF b.lat == 0 then none else newFactors st b (recGet s b 46 2) G T) = new) (h10 : (b.nfAcc || lF b.lat == 0 || new.isSome) = true) (h11 : isDue st b = false) (h12 : blkOf s c (n + 1) g = none) :
    (awake s (factorUpdate c n g us s)).mem = (recPut b 28 4 n ((new.map fun N => if min 65535 (recGet s b 46 2 + 1) = recGet s b 46 2 then storeFactors b none (facAddr s b) 0 (N.map (tileBs fmtFP32 4)) s else recPut b 46 2 (min 65535 (recGet s b 46 2 + 1)) (storeFactors b none (facAddr s b) 0 (N.map (tileBs fmtFP32 4)) s)).getD s)).mem ∧ (awake s (factorUpdate c n g us s)).blk c n g = some { b with wrote := new.isSome, half1 := false, ph := 5 } := by
  rw [awake_eq _ h1]
  have hg := blkOf_found h2
  subst hg
  unfold factorUpdate
  rw [h2]
  dsimp only
  have m0 : mirrored s c b = false := by unfold mirrored; rw [h5]; rfl
  have mf : mayFactor s c b = true := by unfold mayFactor; rw [m0, h3]; rfl
  have gx : gapOf s c n b.gbi = none := by unfold gapOf; rw [h7]; rfl
  have g1 : gapBit none 1 = false := rfl
  rw [mf, h4, gx, g1]
  simp only [Bool.not_true, Bool.or_self, Bool.false_eq_true, if_false]
  rw [h6]
  dsimp only
  cases hE : (b.nfAcc || lF b.lat == 0) with
  | true =>
    rw [hE, if_pos rfl] at h9
    subst h9
    rw [if_pos rfl]
    exact factorWrite_plain T none h2 h5 h7 rfl h11 h12
  | false =>
    rw [hE] at h9 h10
    simp only [Bool.false_eq_true, if_false, Bool.false_or] at h9 h10
    simp only [Bool.false_eq_true, if_false]
    rw [h8]
    dsimp only
    rw [h9]
    have l1 : (lF b.lat != 0) = true := by
      revert hE; cases b.nfAcc <;> simp
    have sn : new.isNone = false := by cases new <;> simp at h10 ⊢
    rw [sn]
    simp only [Bool.false_eq_true, if_false]
    have K := formGrams_keeps (Has.refl _) c n b us G (Keeps.refl _ s)
    have A : Alike s (formGrams c n b us G s) := K.alike (by decide +kernel)
    have S : (ctxOf (formGrams c n b us G s) c).steps = (ctxOf s c).steps := by
      unfold formGrams
      dsimp only
      rw [steps_settleOuts]
      unfold ctxOf
      rw [(ownProds_keeps (Has.refl _) _ _ _ _ _ _ (Keeps.refl _ s)).ctxs (by decide)]
    have C : culCtx (formGrams c n b us G s) = culCtx s := K.getFk reg_CULVERT_CFG_CTX (by decide) 0 0
    have R : replayOn (formGrams c n b us G s) c = false := by
      rw [← h7]; unfold replayOn; rw [K.getFk reg_HOSTIF_RPL_CFG_EN (by decide) 0 c]
    generalize formGrams c n b us G s = z at A S C R
    have k := factorWrite_plain T new (s := z) (by rw [blkOf_congr n _ S, h2]) (by rw [C]; exact h5) R (by rw [l1]; simp) h11 (by rw [blkOf_congr _ _ S, h12])
    exact ⟨k.1.trans (A.factorMem n b new), k.2⟩

end Sys2Proof.Machine
end

