-- ==== Sys2Proof/Laws/EffectsDebug.lean ====
section
/-! SUPPORT. What the commands do: the commands of debug. -/

namespace Sys2Proof.Machine

set_option linter.unusedSimpArgs false

theorem freshChal_spec : ∀ (n : Nat) (s : State), n ≤ 8 → (freshChal n s).dbg = s.dbg ∧ (freshChal n s).freeCtr = s.freeCtr + n ∧
    ∀ k < n, getFk (freshChal n s) DEBUG_CHAL 0 k = (Config.freeWord (s.freeCtr + k)).toNat
  | 0, s, _ => ⟨rfl, rfl, fun _ h => absurd h (Nat.not_lt_zero _)⟩
  | n + 1, s, h => by
    obtain ⟨a, b, c⟩ := freshChal_spec n s (by omega)
    unfold freshChal
    dsimp only [freshWord]
    refine ⟨a, ?_, fun k hk => ?_⟩
    · show (freshChal n s).freeCtr + 1 = _
      rw [b]; omega
    · by_cases e : k = n
      · subst e
        rw [getFk_setFk_self _ _ _ _ _ (by decide), b]
        exact Nat.mod_eq_of_lt (BitVec.isLt _)
      · rw [getFk_setFk_off _ _ _ _ _ _ _ _ (by show (256 + 4 * (n % 8)) % 4096 ≠ (256 + 4 * (k % 8)) % 4096; omega)]
        exact c k (by omega)

theorem challenge_effect (r : Requester) (a v : Nat) (s : State) (h1 : target s r a = some (19, 0, 0x10)) (h2 : gate s r 19 0 0x10 = .pass) (h3 : bit v 0 = true) :
    (challenge r a v s).dbg.chal = true ∧ (challenge r a v s).freeCtr = s.freeCtr + 8 ∧ ∀ n < 8, getFk (challenge r a v s) DEBUG_CHAL 0 n = (Config.freeWord (s.freeCtr + n)).toNat := by
  unfold challenge
  rw [guarded_pass h1 h2, if_pos ⟨rfl, rfl, h3⟩]
  obtain ⟨x, y, z⟩ := freshChal_spec 8 { s with dbg := { s.dbg with chal := true } } (Nat.le_refl 8)
  exact ⟨by rw [x], y, z⟩

theorem unlockGo_effect (r : Requester) (a v : Nat) (s : State) (h1 : target s r a = some (19, 0, 0x10)) (h2 : gate s r 19 0 0x10 = .pass) (h3 : bit v 1 = true) (h4 : isF s DEBUG_STAT_BUSY 0 = false) :
    getF (unlockGo r a v s) DEBUG_STAT_BUSY 0 = 1 ∧ (unlockGo r a v s).dbg = { chal := false, check := if s.dbg.chal then some (chalBytes s) else none } := by
  unfold unlockGo
  rw [guarded_pass h1 h2, if_pos ⟨rfl, rfl, h3, by rw [h4]; rfl⟩]
  exact ⟨getF_setF_self _ _ _ _ (by decide), rfl⟩

theorem tokenCheck_lt (s : State) : (tokenCheck s).1 < 16 := by
  have t : ∀ x c b, tokenResult x c b < 16 := fun x c b => by
    unfold tokenResult
    dsimp only
    repeat' split
    all_goals decide
  unfold tokenCheck
  repeat' split
  all_goals first | exact t _ _ _ | (dsimp only; omega)

theorem unlockCheckDone_effect  (s : State) (h1 : s.inReset = none) (h2 : getF s PWR_STAT_STATE 0 ≠ 2) (h3 : isF s DEBUG_STAT_BUSY 0 = true) (h4 : s.brk.stopped.contains 0 = false) :
    getF (pairsUp s (unlockCheckDone s)) DEBUG_STAT_BUSY 0 = 0 ∧ getF (pairsUp s (unlockCheckDone s)) DEBUG_STAT_RESULT 0 = (tokenCheck s).1 ∧ (pairsUp s (unlockCheckDone s)).dbg.check = none ∧ ((tokenCheck s).1 = 1 → unlocked (pairsUp s (unlockCheckDone s)) = true ∧ getF (pairsUp s (unlockCheckDone s)) DEBUG_STAT_EVER 0 = 1 ∧ getF (pairsUp s (unlockCheckDone s)) DEBUG_UNLOCK_CNT 0 = (getF s DEBUG_UNLOCK_CNT 0 + 1) % 2 ^ 32) ∧ ((tokenCheck s).1 ≠ 1 → unlocked (pairsUp s (unlockCheckDone s)) = unlocked s ∧ getF (pairsUp s (unlockCheckDone s)) DEBUG_FAIL_CNT 0 = (getF s DEBUG_FAIL_CNT 0 + 1) % 2 ^ 32 ∧ evtSet (pairsUp s (unlockCheckDone s)) DEBUG_EV_UNLOCK_FAIL 0 = true) ∧ (bit (dbgPolicy s) 0 = true → (tokenCheck s).1 = 2) := by
  rw [pairsUp_eq _ h1 h2]
  unfold unlockCheckDone
  rw [if_pos (by rw [h3, h4]; rfl)]
  have k := tokenCheck_keeps (Has.refl _) (Keeps.refl _ s)
  have r1 : getF (tokenCheck s).2 DEBUG_UNLOCK_CNT 0 = getF s DEBUG_UNLOCK_CNT 0 := k.getFk reg_DEBUG_UNLOCK_CNT (by decide) 0 0
  have r2 : getF (tokenCheck s).2 DEBUG_STAT_UNLOCKED 0 = getF s DEBUG_STAT_UNLOCKED 0 := k.getFk reg_DEBUG_STAT_UNLOCKED (by decide) 0 0
  have r3 : getF (tokenCheck s).2 DEBUG_FAIL_CNT 0 = getF s DEBUG_FAIL_CNT 0 := k.getFk reg_DEBUG_FAIL_CNT (by decide) 0 0
  clear k
  have lt := tokenCheck_lt s
  have pol : bit (dbgPolicy s) 0 = true → (tokenCheck s).1 = 2 := fun h => by unfold tokenCheck; rw [h]; rfl
  generalize hx : tokenCheck s = x at *
  obtain ⟨res, t⟩ := x
  dsimp only at *
  unfold unlockEnd
  dsimp only
  by_cases h : res = 1
  · subst h
    rw [if_pos rfl]
    unfold unlocked isF
    simp (disch := decide) only [getF_setF_self, getF_incr_self, getF_setF_apart, getF_incr_apart, getF_setEvt_apart]
    refine ⟨rfl, rfl, by simp, fun _ => ⟨rfl, rfl, ?_⟩, fun h => absurd rfl h, pol⟩
    have e : ∀ v, getF { t with dbg := v } DEBUG_UNLOCK_CNT 0 = getF t DEBUG_UNLOCK_CNT 0 := fun _ => rfl
    rw [e, r1]
  · rw [if_neg h]
    unfold unlocked isF
    simp (disch := decide) only [getF_setF_self, getF_incr_self, getF_setF_apart, getF_incr_apart, getF_setEvt_apart]
    have e : ∀ v g, getF { t with dbg := v } g 0 = getF t g 0 := fun _ _ => rfl
    refine ⟨rfl, Nat.mod_eq_of_lt lt, by simp, fun k => absurd k h, fun _ => ⟨?_, ?_, evtSet_setEvt (by decide) _ _⟩, pol⟩
    · rw [e, r2]
    · rw [e, r3]

theorem relock_effect (r : Requester) (a v : Nat) (s : State) (h1 : target s r a = some (19, 0, 0x10)) (h2 : gate s r 19 0 0x10 = .pass) (h3 : bit v 2 = true) :
    unlocked (relock r a v s) = false := by
  unfold relock
  rw [guarded_pass h1 h2, if_pos ⟨rfl, rfl, h3⟩]
  unfold unlocked isF
  rw [getF_setF_self _ _ _ _ (by decide)]
  rfl

end Sys2Proof.Machine
end

