-- ==== Sys2Proof/Laws/EffectsDomains.lean ====
section
/-! SUPPORT. What the commands do: the commands of domains. -/

namespace Sys2Proof.Machine

set_option linter.unusedSimpArgs false

theorem testBit_sub_bit (w k j : Nat) : (w - (w &&& 2 ^ k)).testBit j = (w.testBit j && decide (j ≠ k)) := by
  have hw := Nat.div_add_mod w (2 ^ k)
  have hr := Nat.mod_lt w (Nat.two_pow_pos k)
  have hb : w &&& 2 ^ k = if w / 2 ^ k % 2 = 1 then 2 ^ k else 0 := by
    apply Nat.eq_of_testBit_eq
    intro i
    rw [Nat.testBit_and, Nat.testBit_two_pow]
    have e : w.testBit k = decide (w / 2 ^ k % 2 = 1) := Nat.testBit_eq_decide_div_mod_eq
    by_cases hi : k = i
    · subst hi
      rw [e]
      split <;> rename_i h <;> simp [h]
    · split <;> simp [hi, Nat.testBit_two_pow_of_ne hi]
  generalize w / 2 ^ k = a at *
  generalize w % 2 ^ k = r at *
  rw [hb, ← hw]
  by_cases h : a % 2 = 1
  · obtain ⟨c, rfl⟩ : ∃ c, a = 2 * c + 1 := ⟨a / 2, by omega⟩
    rw [if_pos h]
    have e : 2 ^ k * (2 * c + 1) + r - 2 ^ k = 2 ^ k * (2 * c) + r := by rw [Nat.mul_add, Nat.mul_one]; omega
    rw [e, Nat.testBit_two_pow_mul_add _ hr, Nat.testBit_two_pow_mul_add _ hr]
    by_cases hj : j < k
    · rw [if_pos hj, if_pos hj, decide_eq_true (by omega), Bool.and_true]
    · rw [if_neg hj, if_neg hj]
      by_cases he : j = k
      · subst he
        simp
      · obtain ⟨m, hm⟩ : ∃ m, j - k = m + 1 := ⟨j - k - 1, by omega⟩
        rw [hm, Nat.testBit_succ, Nat.testBit_succ, decide_eq_true he, Bool.and_true]
        congr 1
        omega
  · rw [if_neg h, Nat.sub_zero]
    by_cases he : j = k
    · subst he
      rw [Nat.testBit_two_pow_mul_add _ hr, if_neg (by omega), Nat.sub_self]
      simp [h]
    · simp [he]

/-- DOM_STAT of one domain changes and of no other. -/
theorem domOn_setDomStat (n m : Nat) (on : Bool) (s : State) (hn : n < 128) (hm : m < 128) :
    domOn (setDomStat n on s) m = if m = n then on else domOn s m := by
  have e : ∀ x : State, domOn x m = (getFk x PWR_DOM_STAT 0 (m / 32)).testBit (m % 32) := fun x => by
    unfold domOn; rw [decide_eq_false (by omega), Bool.false_or]
  rw [e, e]
  unfold setDomStat
  dsimp only
  by_cases hw : n / 32 = m / 32
  · rw [hw, getFk_setFk_self _ _ _ _ _ (by decide), Nat.testBit_mod_two_pow, show PWR_DOM_STAT.w = 32 from rfl,
      decide_eq_true (Nat.mod_lt _ (by decide)), Bool.true_and]
    generalize getFk s PWR_DOM_STAT 0 (m / 32) = w
    cases on
    · simp only [Bool.false_eq_true, if_false]
      rw [testBit_sub_bit]
      by_cases he : m = n
      · subst he; simp
      · rw [if_neg he, decide_eq_true (by omega), Bool.and_true]
    · simp only [if_true]
      rw [Nat.testBit_or]
      by_cases he : m = n
      · subst he; simp [Nat.testBit_two_pow_self]
      · rw [if_neg he, Nat.testBit_two_pow_of_ne (by omega), Bool.or_false]
  · rw [if_neg (show ¬ m = n from fun he => hw (by rw [he])), getFk_setFk_off _ _ _ _ _ _ _ _ (by
      show (0x110 + 4 * (_ % 4)) % 4096 ≠ (0x110 + 4 * (_ % 4)) % 4096; omega)]

theorem pageDomain_ne (i n : Nat) (h : n < 128) : pageDomain 13 i ≠ n := by
  have : pageDomain 13 i = 255 := rfl
  omega

/-- A domain that switches off is off, and no other changes. -/
theorem domOn_domainOff (n m : Nat) (s : State) (hn : n < 128) (hm : m < 128) :
    domOn (domainOff n s) m = if m = n then false else domOn s m := by
  have e : ∀ x : State, domOn x m = (getFk x PWR_DOM_STAT 0 (m / 32)).testBit (m % 32) := fun x => by
    unfold domOn; rw [decide_eq_false (by omega), Bool.false_or]
  have keep : ∀ x y : State, (∀ k, getFk x PWR_DOM_STAT 0 k = getFk y PWR_DOM_STAT 0 k) → domOn x m = domOn y m := fun x y h => by
    rw [e, e, h]
  have tf : ∀ x, domOn (tallyFlushes ((List.range 8).map fun k => 8 * (n - 32) + k) x) m = domOn x m := fun x =>
    keep _ _ fun k => (tallyFlushes_keeps (Has.refl _) _ (Keeps.refl _ x)).getFk_all reg_PWR_DOM_STAT (by decide) _ _
  have ld : ∀ x, domOn (loseDomain n x) m = domOn x m := fun x =>
    keep _ _ fun k => (loseDomain_keeps (Has.refl _) n (Keeps.refl _ x)).getFk_all reg_PWR_DOM_STAT (by decide) _ _
  have lf : ∀ x, domOn (loseFlds n x) m = domOn x m := fun x =>
    keep _ _ fun k => getFk_loseFlds n x _ _ _ (pageDomain_ne _ n hn)
  unfold domainOff
  split
  · dsimp only
    rw [domOn_setDomStat _ _ _ _ hn hm, ld, lf]
    by_cases he : m = n
    · simp [he]
    · simp only [if_neg he]
      split
      · exact tf s
      · rfl
  · next h =>
    by_cases he : m = n
    · subst he; rw [if_pos rfl]; exact Bool.eq_false_iff.2 h
    · rw [if_neg he]

/-- The domains of a list switch off, and no others. -/
theorem domOn_domainsOff (m : Nat) (hm : m < 128) : ∀ (l : List Nat) (s : State), (∀ n ∈ l, n < 128) →
    domOn (domainsOff l s) m = (domOn s m && !l.contains m)
  | [], s, _ => by simp [domainsOff]
  | a :: l, s, h => by
    rw [domainsOff, domOn_domainsOff m hm l _ (fun n hn => h n (List.mem_cons_of_mem _ hn)),
      domOn_domainOff a m s (h a List.mem_cons_self) hm, List.contains_cons]
    by_cases he : m = a
    · simp [he]
    · simp [he, beq_eq_false_iff_ne.2 he]

theorem domOn_setF {f : Fld} (hf : fldIn f = true) (h : f ≠ PWR_DOM_STAT) (i v : Nat) (s : State) (m : Nat) : domOn (setF f i v s) m = domOn s m := by
  unfold domOn setF; rw [getFk_setFk_fld hf (by decide) h]

theorem domOn_setEvt {e : Evt} (hf : fldIn (pendFld e.page) = true) (h : pendFld e.page ≠ PWR_DOM_STAT) (i : Nat) (s : State) (m : Nat) : domOn (setEvt e i s) m = domOn s m := by
  unfold domOn; rw [getFk_setEvt_fld hf (by decide) h]

theorem getFk_showSeq {g : Fld} (hg : fldIn g = true) (h : g.page ≠ 2) (rg i k : Nat) (s : State) :
    getFk (showSeq rg s) g i k = getFk s g i k := by
  have e : ∀ (f : Fld) (v : Nat) (x : State), fldIn f = true → f.page = 2 → getFk (setF f rg v x) g i k = getFk x g i k := fun f v x hf hp =>
    getFk_setFk_fld hf hg (fun q => h (by rw [← q]; exact hp)) _ _
  unfold showSeq
  split <;> rw [e _ _ _ (by decide) rfl, e _ _ _ (by decide) rfl, e _ _ _ (by decide) rfl, e _ _ _ (by decide) rfl]

/-- A domain that switches on is on, and no other changes. -/
theorem domainOn_spec (n m : Nat) (s : State) (hn : n < 128) (hm : m < 128) :
    domOn (domainOn n s) m = (if m = n then true else domOn s m) ∧ domWanted (domainOn n s) m = domWanted s m := by
  have w : domWanted (setDomStat n true s) m = domWanted s m := by
    unfold domWanted; rw [getFk_setDomStat _ _ (by decide) (by decide)]
  have o := domOn_setDomStat n m true s hn hm
  unfold domainOn
  dsimp only
  split
  · unfold trainStack
    refine ⟨by rw [domOn_setF (by decide) (by decide)]; exact o, ?_⟩
    rw [← w]; unfold domWanted; rw [setF, getFk_setFk_fld (by decide) (by decide) (by decide)]; rfl
  · split
    · refine ⟨?_, ?_⟩
      · rw [← o]; unfold domOn; rw [getFk_showSeq (by decide) (by decide)]
      · rw [← w]; unfold domWanted; rw [getFk_showSeq (by decide) (by decide)]
    · exact ⟨o, w⟩

theorem domainSwitchDone_effect (n : Nat) (s : State) (h1 : s.inReset = none) (h2 : getF s PWR_STAT_STATE 0 = 0) (h3 : n < 128) (h4 : domWanted s n = true) (h5 : domOn s n = false) (h6 : isF s BRKW_STAT_FAULT 0 = false) (h7 : 32 ≤ n ∨ domOn s (32 + n) = true) (h8 : s.brk.stopped.contains 3 = false) :
    ∀ m < 128, domOn (pairsUp s (pairRuns 3 s (domainSwitchDone n s))) m = if m = n then true else domOn s m := by
  rw [pairsUp_eq _ h1 (by rw [h2]; decide), pairRuns_eq _ h8]
  have h7' : (decide (32 ≤ n) || domOn s (32 + n)) = true := by
    rcases h7 with h | h
    · rw [decide_eq_true h, Bool.true_or]
    · rw [h, Bool.or_true]
  unfold domainSwitchDone
  rw [if_pos (by rw [decide_eq_true h3, h4, h5, h2, h6, h7']; rfl)]
  exact fun m hm => (domainOn_spec n m s h3 hm).1

/-- Nothing happens to a domain that DOM_REQ asks for. -/
theorem switchOff_skip (v : Nat) : ∀ (k n : Nat) (s : State), (∀ j, n ≤ j → j < n + k → v.testBit (j % 32) = true) → switchOff v k n s = s
  | 0, _, _, _ => rfl
  | k + 1, n, s, h => by
    rw [switchOff]
    rw [h n (Nat.le_refl n) (by omega), Bool.true_or, if_pos rfl]
    exact switchOff_skip v k (n + 1) s fun j h1 h2 => h j (by omega) (by omega)

/-- Where one bit of the word is clear, that domain alone is looked at. -/
theorem switchOff_one (v b : Nat) (hb : v.testBit (b % 32) = false) : ∀ (k n : Nat) (s : State), n ≤ b → b < n + k → k ≤ 32 →
    (∀ j, n ≤ j → j < n + k → j ≠ b → v.testBit (j % 32) = true) →
    switchOff v k n s = if domOn s b then (if mayBeOff s b then domainOff b s else refuseDomain b s) else s
  | 0, n, s, h1, h2, _, _ => absurd h2 (by omega)
  | k + 1, n, s, h1, h2, hk, h => by
    rw [switchOff]
    by_cases he : n = b
    · subst he
      rw [switchOff_skip v k (n + 1) _ fun j j1 j2 => h j (by omega) (by omega) (by omega), hb, Bool.false_or]
      cases domOn s n <;> simp
    · rw [h n (Nat.le_refl n) (by omega) he, Bool.true_or, if_pos rfl]
      exact switchOff_one v b hb k (n + 1) s (by omega) (by omega) (by omega) fun j j1 j2 j3 => h j (by omega) (by omega) j3

theorem domReq_effect (r : Requester) (a v : Nat) (n : Nat) (s : State) (h1 : target s r a = some (13, 0, 0x100 + 4 * (n / 32))) (h2 : gate s r 13 0 (0x100 + 4 * (n / 32)) = .pass) (h3 : n < 128) (h4 : ∀ j < 32, v.testBit j = decide (j ≠ n % 32)) (h5 : domOn s n = true) (h6 : mayBeOff (setFk PWR_DOM_REQ 0 (n / 32) v s) n = true) (h7 : s.brk.stopped.contains 3 = false) :
    getFk (domReq r a v s) PWR_DOM_REQ 0 (n / 32) = v % 2 ^ 32 ∧ ∀ m < 128, domOn (domReq r a v s) m = if m = n then false else domOn s m := by
  unfold domReq
  rw [guarded_pass h1 h2, if_pos ⟨rfl, by omega, by omega, by omega⟩]
  have e : (0x100 + 4 * (n / 32) - 0x100) / 4 = n / 32 := by omega
  rw [e, pairRuns_eq _ (show (setFk PWR_DOM_REQ 0 (n / 32) v s).brk.stopped.contains 3 = false from h7)]
  unfold domReqSet
  rw [switchOff_one v n (by rw [h4 _ (Nat.mod_lt _ (by decide))]; simp) 32 _ _ (by omega) (by omega) (Nat.le_refl _) (fun j j1 j2 j3 => by
    rw [h4 _ (Nat.mod_lt _ (by decide))]; exact decide_eq_true (by omega))]
  generalize hx : setFk PWR_DOM_REQ 0 (n / 32) v s = x
  have k : ∀ m, domOn x m = domOn s m := fun m => by
    rw [← hx]; unfold domOn; rw [getFk_setFk_fld (by decide) (by decide) (by decide)]
  have q : getFk x PWR_DOM_REQ 0 (n / 32) = v % 2 ^ 32 := by rw [← hx]; exact getFk_setFk_self _ _ _ _ _ (by decide)
  rw [k, h5, if_pos rfl]
  rw [if_pos (by rw [← hx]; exact h6)]
  refine ⟨?_, fun m hm => by rw [domOn_domainOff n m x h3 hm, k]⟩
  rw [← q]
  unfold domainOff
  split
  · dsimp only
    rw [getFk_setDomStat _ _ (by decide) (by decide),
      (loseDomain_keeps (Has.refl _) n (Keeps.refl _ _)).getFk_all reg_PWR_DOM_REQ (by decide),
      getFk_loseFlds n _ _ _ _ (pageDomain_ne _ n h3)]
    split
    · exact (tallyFlushes_keeps (Has.refl _) _ (Keeps.refl _ x)).getFk_all reg_PWR_DOM_REQ (by decide) _ _
    · rfl
  · rfl

theorem domReqRefused_effect (r : Requester) (a v : Nat) (n : Nat) (s : State) (h1 : target s r a = some (13, 0, 0x100 + 4 * (n / 32))) (h2 : gate s r 13 0 (0x100 + 4 * (n / 32)) = .pass) (h3 : n < 128) (h4 : ∀ j < 32, v.testBit j = decide (j ≠ n % 32)) (h5 : domOn s n = true) (h6 : mayBeOff (setFk PWR_DOM_REQ 0 (n / 32) v s) n = false) (h7 : s.brk.stopped.contains 3 = false) :
    getFk (domReq r a v s) PWR_DOM_REQ 0 (n / 32) = v % 2 ^ 32 ∧ (∀ m, domOn (domReq r a v s) m = domOn s m) ∧ getF (domReq r a v s) PWR_ERR_INFO_DOMAIN 0 = n % 2 ^ 7 ∧ evtSet (domReq r a v s) PWR_EV_DOM_REFUSED 0 = true := by
  unfold domReq
  rw [guarded_pass h1 h2, if_pos ⟨rfl, by omega, by omega, by omega⟩]
  have e : (0x100 + 4 * (n / 32) - 0x100) / 4 = n / 32 := by omega
  rw [e, pairRuns_eq _ (show (setFk PWR_DOM_REQ 0 (n / 32) v s).brk.stopped.contains 3 = false from h7)]
  unfold domReqSet
  rw [switchOff_one v n (by rw [h4 _ (Nat.mod_lt _ (by decide))]; simp) 32 _ _ (by omega) (by omega) (Nat.le_refl _) (fun j j1 j2 j3 => by
    rw [h4 _ (Nat.mod_lt _ (by decide))]; exact decide_eq_true (by omega))]
  generalize hx : setFk PWR_DOM_REQ 0 (n / 32) v s = x
  have k : ∀ m, domOn x m = domOn s m := fun m => by
    rw [← hx]; unfold domOn; rw [getFk_setFk_fld (by decide) (by decide) (by decide)]
  have q : getFk x PWR_DOM_REQ 0 (n / 32) = v % 2 ^ 32 := by rw [← hx]; exact getFk_setFk_self _ _ _ _ _ (by decide)
  rw [k, h5, if_pos rfl]
  rw [if_neg (by rw [← hx, h6]; decide)]
  unfold refuseDomain
  refine ⟨?_, fun m => ?_, ?_, evtSet_setEvt (by decide) _ _⟩
  · rw [getFk_setEvt_fld (e := PWR_EV_DOM_REFUSED) (by decide) (by decide) (by decide), setF, getFk_setFk_fld (by decide) (by decide) (by decide), q]
  · rw [← k]; unfold domOn
    rw [getFk_setEvt_fld (e := PWR_EV_DOM_REFUSED) (by decide) (by decide) (by decide), setF, getFk_setFk_fld (by decide) (by decide) (by decide)]
  · rw [getF_setEvt_apart (by decide), getF_setF_self _ _ _ _ (by decide)]
    rfl

theorem stateReq_pass {s : State} {r : Requester} {a v want : Nat} (f : State → State) (h1 : target s r a = some (13, 0, 0x10))
    (h2 : gate s r 13 0 0x10 = .pass) (h3 : v % 4 = want) : stateReq r a v want f s = f (setF PWR_CTRL_STATE_REQ 0 want s) := by
  unfold stateReq
  rw [guarded_pass h1 h2, if_pos ⟨rfl, rfl, h3⟩]

theorem state_setReq (x : Nat) (s : State) : getF (setF PWR_CTRL_STATE_REQ 0 x s) PWR_STAT_STATE 0 = getF s PWR_STAT_STATE 0 :=
  getF_setF_apart (by decide) _ _ _ _

theorem deepIdle_effect (r : Requester) (a v : Nat) (s : State) (h1 : target s r a = some (13, 0, 0x10)) (h2 : gate s r 13 0 0x10 = .pass) (h3 : v % 4 = 1) (h4 : getF s PWR_STAT_STATE 0 = 0) (h5 : stateRefused s = false) :
    getF (stateReq r a v 1 enterIdle s) PWR_STAT_STATE 0 = 1 ∧ evtSet (stateReq r a v 1 enterIdle s) PWR_EV_STATE_DONE 0 = true ∧ (∀ m < 88, domOn (stateReq r a v 1 enterIdle s) m = false) ∧ ∀ m < 128, 88 ≤ m → domOn (stateReq r a v 1 enterIdle s) m = domOn s m := by
  rw [stateReq_pass _ h1 h2 h3]
  unfold enterIdle
  rw [state_setReq, if_neg (by rw [h4]; simp), if_neg (by rw [show stateRefused (setF PWR_CTRL_STATE_REQ 0 1 s) = stateRefused s from rfl, h5]; decide)]
  have d : ∀ m < 128, ∀ x, domOn (setEvt PWR_EV_STATE_DONE 0 (setF PWR_STAT_STATE 0 1 (domainsOff idleDomains x))) m = (domOn x m && !idleDomains.contains m) := fun m hm x => by
    rw [domOn_setEvt (by decide) (by decide), domOn_setF (by decide) (by decide), domOn_domainsOff m hm _ _ (by decide)]
  refine ⟨?_, evtSet_setEvt (by decide) _ _, fun m hm => ?_, fun m h hm => ?_⟩
  · rw [getF_setEvt_apart (by decide), getF_setF_self _ _ _ _ (by decide)]; rfl
  · rw [d m (by omega), show idleDomains.contains m = true from List.contains_iff_mem.2 (List.mem_range.2 hm)]; simp
  · rw [d m h, domOn_setF (by decide) (by decide), show idleDomains.contains m = false from by
      rw [Bool.eq_false_iff]; intro hc; exact absurd (List.mem_range.1 (List.contains_iff_mem.1 hc)) (by omega)]; simp

theorem deepIdleRefused_effect (r : Requester) (a v : Nat) (s : State) (h1 : target s r a = some (13, 0, 0x10)) (h2 : gate s r 13 0 0x10 = .pass) (h3 : v % 4 = 1) (h4 : getF s PWR_STAT_STATE 0 = 0) (h5 : stateRefused s = true) :
    getF (stateReq r a v 1 enterIdle s) PWR_STAT_STATE 0 = 0 ∧ evtSet (stateReq r a v 1 enterIdle s) PWR_EV_STATE_REFUSED 0 = true ∧ ∀ m, domOn (stateReq r a v 1 enterIdle s) m = domOn s m := by
  rw [stateReq_pass _ h1 h2 h3]
  unfold enterIdle
  rw [state_setReq, if_neg (by rw [h4]; simp), if_pos (show stateRefused (setF PWR_CTRL_STATE_REQ 0 1 s) = true from h5)]
  unfold refuseState
  refine ⟨?_, evtSet_setEvt (by decide) _ _, fun m => ?_⟩
  · rw [getF_setEvt_apart (by decide), getF_setF_self _ _ _ _ (by decide)]; rfl
  · rw [domOn_setEvt (by decide) (by decide), domOn_setF (by decide) (by decide), domOn_setF (by decide) (by decide)]

/-- Domains above the tensor domains go on where DOM_REQ asks for them. -/
theorem domOn_domainsOn (m : Nat) (hm : m < 128) : ∀ (l : List Nat) (s : State), (∀ n ∈ l, n < 128 ∧ 32 ≤ n) →
    domOn (domainsOn l s) m = (domOn s m || (l.contains m && domWanted s m)) ∧ domWanted (domainsOn l s) m = domWanted s m
  | [], s, _ => by simp [domainsOn]
  | a :: l, s, h => by
    have ih := fun x => domOn_domainsOn m hm l x (fun n hn => h n (List.mem_cons_of_mem _ hn))
    obtain ⟨a1, a2⟩ := h a List.mem_cons_self
    rw [domainsOn, (ih _).1, (ih _).2, List.contains_cons, decide_eq_true a2, Bool.true_or, Bool.and_true]
    obtain ⟨p, q⟩ := domainOn_spec a m s a1 hm
    split
    · next hc =>
      rw [p, q]
      refine ⟨?_, rfl⟩
      by_cases he : m = a
      · subst he
        rw [Bool.and_eq_true] at hc
        simp [hc.1]
      · simp [he, beq_eq_false_iff_ne.2 he]
    · next hc =>
      refine ⟨?_, rfl⟩
      by_cases he : m = a
      · subst he
        cases hw : domWanted s m <;> cases ho : domOn s m <;> simp [hw, ho] at hc ⊢
      · simp [beq_eq_false_iff_ne.2 he]

/-- The tensor domains follow their cluster domains. -/
theorem domOn_tensorsOn (m : Nat) (hm : m < 128) : ∀ (l : List Nat) (s : State), (∀ n ∈ l, n < 32) →
    domOn (domainsOn l s) m = (domOn s m || (l.contains m && domWanted s m && domOn s (32 + m)))
  | [], s, _ => by simp [domainsOn]
  | a :: l, s, h => by
    have ih := fun x => domOn_tensorsOn m hm l x (fun n hn => h n (List.mem_cons_of_mem _ hn))
    have a1 := h a List.mem_cons_self
    rw [domainsOn, ih, List.contains_cons, decide_eq_false (by omega), Bool.false_or]
    obtain ⟨p, q⟩ := domainOn_spec a m s (by omega) hm
    by_cases hl : l.contains m = true
    · have m32 := h m (List.mem_cons_of_mem _ (List.contains_iff_mem.1 hl))
      have p2 := (domainOn_spec a (32 + m) s (by omega) (by omega)).1
      rw [if_neg (by omega)] at p2
      split
      · next hc =>
        rw [p, q, p2]
        by_cases he : m = a
        · subst he
          rw [Bool.and_eq_true, Bool.and_eq_true] at hc
          simp [hc.1.1, hc.2]
        · simp [he, beq_eq_false_iff_ne.2 he]
      · simp [List.contains_iff_mem.1 hl]
    · rw [Bool.not_eq_true] at hl
      rw [hl]
      split
      · next hc =>
        rw [p]
        by_cases he : m = a
        · subst he
          rw [Bool.and_eq_true, Bool.and_eq_true] at hc
          simp [hc.1.1, hc.2]
        · simp [he, beq_eq_false_iff_ne.2 he]
      · next hc =>
        by_cases he : m = a
        · subst he
          cases hw : domWanted s m <;> cases ho : domOn s m <;> cases hv : domOn s (32 + m) <;> simp [hw, ho, hv] at hc ⊢
        · simp [beq_eq_false_iff_ne.2 he]

theorem domainsOn_append : ∀ (l r : List Nat) (s : State), domainsOn (l ++ r) s = domainsOn r (domainsOn l s)
  | [], _, _ => rfl
  | a :: l, r, s => by rw [List.cons_append, domainsOn, domainsOn, domainsOn_append l r]

/-- Links that must stay on go on; nothing goes off, and DOM_REQ stays. -/
theorem linksNeeded_spec (m : Nat) (hm : m < 128) : ∀ (k : Nat) (s : State), k ≤ 8 →
    (domOn s m = true → domOn (linksNeeded k s) m = true) ∧ domWanted (linksNeeded k s) m = domWanted s m
  | 0, _, _ => ⟨id, rfl⟩
  | k + 1, s, hk => by
    obtain ⟨a, b⟩ := linksNeeded_spec m hm k s (by omega)
    rw [linksNeeded]
    split
    · exact ⟨a, b⟩
    · obtain ⟨p, q⟩ := domainOn_spec (80 + k) m (linksNeeded k s) (by omega) hm
      unfold refuseDomain
      refine ⟨fun h => ?_, ?_⟩
      · rw [domOn_setEvt (by decide) (by decide), domOn_setF (by decide) (by decide), p, a h]
        simp
      · rw [← b, ← q]
        unfold domWanted
        rw [getFk_setEvt_fld (e := PWR_EV_DOM_REFUSED) (by decide) (by decide) (by decide), setF,
          getFk_setFk_fld (by decide) (by decide) (by decide)]

theorem deepIdleExit_effect (r : Requester) (a v : Nat) (s : State) (h1 : target s r a = some (13, 0, 0x10)) (h2 : gate s r 13 0 0x10 = .pass) (h3 : v % 4 = 0) (h4 : getF s PWR_STAT_STATE 0 = 1) :
    getF (stateReq r a v 0 leaveIdle s) PWR_STAT_STATE 0 = 0 ∧ evtSet (stateReq r a v 0 leaveIdle s) PWR_EV_STATE_DONE 0 = true ∧ ∀ m < 88, domWanted s m = true → 32 ≤ m ∨ domWanted s (32 + m) = true → domOn (stateReq r a v 0 leaveIdle s) m = true := by
  rw [stateReq_pass _ h1 h2 h3]
  unfold leaveIdle
  rw [state_setReq, if_pos h4]
  refine ⟨?_, evtSet_setEvt (by decide) _ _, fun m hm hw hv => ?_⟩
  · rw [getF_setEvt_apart (by decide), getF_setF_self _ _ _ _ (by decide)]; rfl
  · rw [domOn_setEvt (by decide) (by decide), domOn_setF (by decide) (by decide), domainsOn_append, domOn_tensorsOn m (by omega) _ _ (fun n hn => List.mem_range.1 hn)]
    generalize hx : setF PWR_CTRL_STATE_REQ 0 0 s = x
    have w : ∀ n, domWanted x n = domWanted s n := fun n => by
      rw [← hx]; unfold domWanted; rw [setF, getFk_setFk_fld (by decide) (by decide) (by decide)]
    have hl : ∀ n ∈ List.map (· + 80) (List.range 8), n < 128 ∧ 32 ≤ n := by decide
    have hi : ∀ n ∈ (List.map (· + 64) (List.range 16) ++ List.map (· + 32) (List.range 32)), n < 128 ∧ 32 ≤ n := by decide
    have c : ∀ m < 88, 32 ≤ m → ((List.map (· + 80) (List.range 8)).contains m || (List.map (· + 64) (List.range 16) ++ List.map (· + 32) (List.range 32)).contains m) = true := by decide
    have d1 := fun n (hn : n < 128) => domOn_domainsOn n hn _ x hl
    generalize domainsOn (List.map (· + 80) (List.range 8)) x = y at d1 ⊢
    have d2 := fun n (hn : n < 128) => linksNeeded_spec n hn 8 y (by decide)
    generalize linksNeeded 8 y = z at d2 ⊢
    have d3 := fun n (hn : n < 128) => domOn_domainsOn n hn _ z hi
    have up : ∀ n < 88, 32 ≤ n → domWanted s n = true →
        domOn (domainsOn (List.map (· + 64) (List.range 16) ++ List.map (· + 32) (List.range 32)) z) n = true := fun n hn h32 hwn => by
      rw [(d3 n (by omega)).1, (d2 n (by omega)).2, (d1 n (by omega)).2, w, hwn, Bool.and_true]
      rcases Bool.or_eq_true _ _ ▸ c n hn h32 with h | h
      · rw [(d2 n (by omega)).1 (by rw [(d1 n (by omega)).1, h, w, hwn]; simp), Bool.true_or]
      · rw [h, Bool.or_true]
    by_cases h32 : 32 ≤ m
    · rw [up m hm h32 hw, Bool.true_or]
    · have hv' := hv.resolve_left h32
      rw [up (32 + m) (by omega) (by omega) hv', (d3 m (by omega)).2, (d2 m (by omega)).2, (d1 m (by omega)).2, w, hw,
        List.contains_iff_mem.2 (List.mem_range.2 (by omega))]
      simp

theorem standby_effect (r : Requester) (a v : Nat) (s : State) (h1 : target s r a = some (13, 0, 0x10)) (h2 : gate s r 13 0 0x10 = .pass) (h3 : v % 4 = 2) (h4 : getF s PWR_STAT_STATE 0 ≠ 2) (h5 : stateRefused s = false) :
    getF (stateReq r a v 2 enterStandby s) PWR_STAT_STATE 0 = 2 ∧ evtSet (stateReq r a v 2 enterStandby s) PWR_EV_STATE_DONE 0 = true ∧ (∀ m < 128, domOn (stateReq r a v 2 enterStandby s) m = false) ∧ (stateReq r a v 2 enterStandby s).mem = [] ∧ (stateReq r a v 2 enterStandby s).poison = [] ∧ (stateReq r a v 2 enterStandby s).mcs = [] ∧ (stateReq r a v 2 enterStandby s).otp = s.otp := by
  rw [stateReq_pass _ h1 h2 h3]
  unfold enterStandby
  rw [state_setReq, if_neg h4, if_neg (by rw [show stateRefused (setF PWR_CTRL_STATE_REQ 0 2 s) = stateRefused s from rfl, h5]; decide)]
  dsimp only
  generalize hx : domainsOff (List.range 128) (setF PWR_CTRL_STATE_REQ 0 2 s) = x
  refine ⟨?_, evtSet_setEvt (by decide) _ _, fun m hm => ?_, by simp, by simp, by simp, ?_⟩
  · rw [getF_setEvt_apart (by decide), getF_setF_self _ _ _ _ (by decide)]; rfl
  · rw [domOn_setEvt (by decide) (by decide), domOn_setF (by decide) (by decide)]
    show domOn x m = false
    rw [← hx, domOn_domainsOff m hm _ _ (fun n hn => List.mem_range.1 hn), List.contains_iff_mem.2 (List.mem_range.2 hm)]
    simp
  · rw [setEvt_otp]
    show x.otp = s.otp
    rw [← hx]
    exact (domainsOff_keeps (Has.refl _) _ (Keeps.refl _ _)).otp (by decide)

theorem islandRst_effect (r : Requester) (a v : Nat) (s : State) (h1 : target s r a = some (13, 0, 0x120)) (h2 : gate s r 13 0 0x120 = .pass) (h3 : bit v 0 = false) (h4 : ∀ f ∈ (clusterOf s (bits v 1 10 / 4)).fences, f = bits v 1 10 % 4) :
    unitOf (islandRst r a v s) (bits v 1 10) = {} := by
  unfold islandRst
  rw [guarded_pass h1 h2, if_pos ⟨rfl, rfl⟩, if_neg (by rw [h3]; decide)]
  unfold unitReset
  generalize bits v 1 10 = n at *
  dsimp only
  rw [placeFences, clusterOf_modCluster_self]
  have f : ((clusterOf s (n / 4)).fences.filter fun x => decide (x ≠ n % 4)) = [] := List.filter_eq_nil_iff.2 fun a ha => by simp [h4 a ha]
  have e : clusterOf (restoreFlds .i (fun t i _ => t == 0 && i == n) { s with units := s.units.del n }) (n / 4) = clusterOf s (n / 4) := rfl
  dsimp only
  rw [e, f]
  split
  · next h => cases h
  · show Store.get _ (Store.del _ _) _ = _
    unfold Store.get
    rw [Store.find_del_self]
    rfl

theorem islandRstSeq_effect (r : Requester) (a v : Nat) (s : State) (h1 : target s r a = some (13, 0, 0x120)) (h2 : gate s r 13 0 0x120 = .pass) (h3 : bit v 0 = true) :
    (seqOf (islandRst r a v s) (bits v 1 10 / 32)).back = [] ∧ (seqOf (islandRst r a v s) (bits v 1 10 / 32)).job = (seqOf s (bits v 1 10 / 32)).job ∧ (seqOf (islandRst r a v s) (bits v 1 10 / 32)).sat = false := by
  unfold islandRst
  rw [guarded_pass h1 h2, if_pos ⟨rfl, rfl⟩, if_pos h3]
  generalize bits v 1 10 / 32 = rg
  unfold seqReset
  dsimp only
  have e : ∀ x : State, (showSeq rg x).seqs = x.seqs := fun x => (showSeq_keeps (Has.refl _) rg (Keeps.refl _ x)).seqs (by decide)
  unfold seqOf
  rw [e]
  have q : (dropWide rg 32 s).seqs = s.seqs := (dropWide_keeps (Has.refl _) rg 32 (Keeps.refl _ s)).seqs (by decide)
  have w : (modSeq rg (fun q => { q with back := [], sat := false }) (dropWide rg 32 s)).seqs.get {} rg = { s.seqs.get {} rg with back := [], sat := false } := by
    unfold modSeq; rw [q]; exact Store.get_upd_self ({} : Seq) (fun q => { q with back := [], sat := false }) rg s.seqs
  have r : ∀ x : State, (restoreFlds .i (fun t i _ => t == 2 && i == rg) x).seqs = x.seqs := fun _ => rfl
  rw [r, w]
  exact ⟨rfl, rfl, rfl⟩

end Sys2Proof.Machine
end

