-- ==== Sys2Proof/Laws/EffectsFrames.lean ====
section
/-! SUPPORT. What the commands do: the commands of frames. -/

namespace Sys2Proof.Machine

set_option linter.unusedSimpArgs false

theorem rxFrame_up {p want : Nat} {raw : List Byte} {f : Frame} {s : State} (g : Frame → State → State) (h4 : getF s LINK_STAT_STATE p = 5)
    (h5 : parseFrame raw = some f) (ht : f.type = want) : rxFrame p raw 0 want g s = g f (takeAck p f s) := by
  unfold rxFrame
  dsimp only
  rw [h4, h5]
  simp only [show ¬ (5 = 3 ∨ 5 = 4) from by omega, if_false, if_true, show ¬ (0 : Nat) = 2 from by omega, ht]
  rfl

/-- What the acknowledgement in a frame moves. -/
theorem takeAck_spec (p : Nat) (f : Frame) (s : State) :
    (∀ q, (portOf (takeAck p f s) q).rxq = (portOf s q).rxq) ∧ (portOf (takeAck p f s) p).rxLast = (portOf s p).rxLast ∧
    (portOf (takeAck p f s) p).retryOut = (portOf s p).retryOut ∧ (portOf (takeAck p f s) p).fwd = (portOf s p).fwd ∧
    (portOf (takeAck p f s) p).ackSent = (portOf s p).ackSent ∧
    (takeAck p f s).regs = s.regs ∧ (takeAck p f s).rxStreams = s.rxStreams ∧ (takeAck p f s).ctxs = s.ctxs ∧
    (takeAck p f s).inbox = s.inbox ∧ (takeAck p f s).sendq = s.sendq ∧ (takeAck p f s).txStreams = s.txStreams ∧ (takeAck p f s).out = s.out := by
  let P : State → Prop := fun u => (∀ q, (portOf u q).rxq = (portOf s q).rxq) ∧ (portOf u p).rxLast = (portOf s p).rxLast ∧
    (portOf u p).retryOut = (portOf s p).retryOut ∧ (portOf u p).fwd = (portOf s p).fwd ∧ (portOf u p).ackSent = (portOf s p).ackSent ∧
    u.regs = s.regs ∧ u.rxStreams = s.rxStreams ∧ u.ctxs = s.ctxs ∧ u.inbox = s.inbox ∧ u.sendq = s.sendq ∧ u.txStreams = s.txStreams ∧ u.out = s.out
  have hs : P s := ⟨fun _ => rfl, rfl, rfl, rfl, rfl, rfl, rfl, rfl, rfl, rfl, rfl, rfl⟩
  have hm : ∀ (x : State) (g : Port → Port), (∀ y, (g y).rxq = y.rxq ∧ (g y).rxLast = y.rxLast ∧ (g y).retryOut = y.retryOut ∧ (g y).fwd = y.fwd ∧ (g y).ackSent = y.ackSent) →
      P x → P (modPort p g x) := fun x g h ⟨a1, a2, a3, a4, a5, r⟩ => by
    refine ⟨fun q => ?_, ?_, ?_, ?_, ?_, r⟩
    · by_cases e : p = q
      · subst e; rw [portOf_modPort_self]; exact (h _).1.trans (a1 _)
      · rw [portOf_modPort_ne _ e]; exact a1 q
    · rw [portOf_modPort_self]; exact (h _).2.1.trans a2
    · rw [portOf_modPort_self]; exact (h _).2.2.1.trans a3
    · rw [portOf_modPort_self]; exact (h _).2.2.2.1.trans a4
    · rw [portOf_modPort_self]; exact (h _).2.2.2.2.trans a5
  show P (takeAck p f s)
  unfold takeAck
  dsimp only
  have h1 : P (if serialAhead (portOf s p).acked f.ack = true then
      modPort p (fun x => { x with acked := f.ack, replays := 0, retryBuf := x.retryBuf.filter fun g => serialAhead f.ack g.lseq }) s
    else s) := by
    split
    · exact hm _ _ (fun _ => ⟨rfl, rfl, rfl, rfl, rfl⟩) hs
    · exact hs
  by_cases hc : f.cvc < 3
  · rw [if_pos hc]
    exact hm _ _ (fun _ => ⟨rfl, rfl, rfl, rfl, rfl⟩) h1
  · rw [if_neg hc]
    exact h1

theorem headAct_congr {s t : State} (h1 : t.rxStreams = s.rxStreams) (h2 : t.ctxs = s.ctxs) (h3 : t.inbox = s.inbox) (f : Frame) :
    headAct t f = headAct s f := by
  unfold headAct earlyFull earlyPlaces takesPlace stepAbove rxOf ctxOf
  rw [h1, h2, h3]

/-- While every queue is empty nothing moves. -/
theorem drainHeads_empty (s : State) (h : ∀ q < 24, (portOf s q).rxq = []) : ∀ n, drainHeads n s = s
  | 0 => rfl
  | n + 1 => by
    rw [drainHeads]
    have : ((List.range 24).find? fun p => headMoves s p) = none := by
      rw [List.find?_eq_none]
      intro p hp
      unfold headMoves
      rw [h p (List.mem_range.1 hp)]
      simp
    rw [this]

/-- One frame in one queue, the others empty: it moves once, and then nothing moves. -/
theorem drainAll_one {p : Nat} {f : Frame} {s : State} (hp : p < 24) (h0 : (portOf s p).rxq = [f]) (hq : ∀ q < 24, q ≠ p → (portOf s q).rxq = [])
    (hh : headAct s f ≠ .hold) (hf : headAct s f ≠ .full) (he : ∀ q < 24, (portOf (headStep p s) q).rxq = []) : drainAll s = headStep p s := by
  unfold drainAll
  rw [drainHeads]
  have hm : headMoves s p = true := by
    unfold headMoves
    rw [h0]
    simp [bne_iff_ne, hf, hh]
  have : ((List.range 24).find? fun q => headMoves s q) = some p := by
    rw [List.find?_eq_some_iff_append]
    refine ⟨hm, List.range p, (List.range 24).drop (p + 1), ?_, fun a ha => ?_⟩
    · have e : List.range 24 = (List.range 24).take p ++ (List.range 24).drop p := (List.take_append_drop _ _).symm
      rw [List.take_range, Nat.min_eq_left (by omega)] at e
      rw [List.drop_eq_getElem_cons (by simpa using hp), List.getElem_range] at e
      exact e
    · have := List.mem_range.1 ha
      unfold headMoves
      rw [hq a (by omega) (by omega)]
      rfl
  rw [this]
  exact drainHeads_empty _ he _

/-- The pop of a queue of one frame. -/
theorem pop_rxq {p : Nat} {s : State} (hq : ∀ q < 24, q ≠ p → (portOf s q).rxq = []) (q : Nat) (h : q < 24) :
    (portOf (freeRxSlot p 0 (modPort p (fun x => { x with rxq := [], headHeld := false }) s)) q).rxq = [] := by
  unfold freeRxSlot
  by_cases e : p = q
  · subst e; rw [portOf_modPort_self, portOf_modPort_self]
  · rw [portOf_modPort_ne _ e, portOf_modPort_ne _ e]; exact hq q h (Ne.symm e)

/-- An accepted VC 0 frame that need not wait acts at once, with every queue empty before it. -/
theorem rxAccept_now {p : Nat} {f : Frame} {s : State} (hp : p < 24) (hv : f.vc = 0) (hq : ∀ q < 24, (portOf s q).rxq = [])
    (hh : headAct s f ≠ .hold) (hf : headAct s f ≠ .full) :
    ∃ x, rxAccept p f s = headStep p x ∧ (portOf x p).rxq = [f] ∧ (∀ q < 24, q ≠ p → (portOf x q).rxq = []) ∧ (portOf x p).rxLast = f.lseq ∧
      x.rxStreams = s.rxStreams ∧ x.ctxs = s.ctxs ∧ x.inbox = s.inbox ∧ x.sendq = s.sendq ∧ x.txStreams = s.txStreams ∧
      x.regs = (incr LINK_RX_FRAMES p s).regs := by
  unfold rxAccept
  dsimp only
  rw [if_pos hv]
  generalize hx : modPort p (fun x => { x with rxq := x.rxq ++ [f] }) (incr LINK_RX_FRAMES p (modPort p (fun x => { x with rxLast := f.lseq, retryOut := false }) s)) = x
  have e0 : (portOf x p).rxq = [f] := by
    rw [← hx, portOf_modPort_self, portOf_incr, portOf_modPort_self]
    show (portOf s p).rxq ++ [f] = [f]
    rw [hq p hp]; rfl
  have e1 : ∀ q < 24, q ≠ p → (portOf x q).rxq = [] := fun q h h2 => by
    rw [← hx, portOf_modPort_ne _ (Ne.symm h2), portOf_incr, portOf_modPort_ne _ (Ne.symm h2), hq q h]
  have e2 : (portOf x p).rxLast = f.lseq := by rw [← hx, portOf_modPort_self, portOf_incr, portOf_modPort_self]
  have ha : headAct x f = headAct s f := by rw [← hx]; exact headAct_congr rfl rfl rfl f
  refine ⟨x, drainAll_one hp e0 e1 (by rw [ha]; exact hh) (by rw [ha]; exact hf) ?_, e0, e1, e2, ?_⟩
  · intro q h
    have pop := pop_rxq (p := p) (s := x) e1 q h
    have of : ∀ y : State, y.ports = (freeRxSlot p 0 (modPort p (fun x => { x with rxq := [], headHeld := false }) x)).ports → (portOf y q).rxq = [] := fun y hy => by
      rw [← pop]; unfold portOf; rw [hy]
    unfold headStep
    rw [e0]
    dsimp only
    have cf : ∀ y, (countFin f y).ports = y.ports := fun y => by unfold countFin; split <;> rfl
    have mt : ∀ y, (markAckTake f y).ports = y.ports := fun y => by
      unfold markAckTake
      dsimp only
      split
      · unfold detourEnd
        split <;> simp
      · rfl
    split
    · next h2 => exact absurd h2 (by rw [ha]; exact hh)
    · next h2 => exact absurd h2 (by rw [ha]; exact hf)
    · exact of _ (by simp [cf])
    · exact of _ rfl
    · exact of _ (mt _)
    · have sp : ∀ y : State, y.ports = (freeRxSlot p 0 (modPort p (fun x => { x with rxq := [], headHeld := false }) x)).ports → (portOf y q).rxq = [] := of
      split
      · exact of _ (by simp [cf])
      · split
        · exact of _ (by simp [cf])
        · exact of _ (by simp [cf])
  · rw [← hx]; exact ⟨rfl, rfl, rfl, rfl, rfl, rfl⟩

theorem rxSequenced_next {p : Nat} {f : Frame} {s : State} (h : f.lseq = ((portOf s p).rxLast + 1) % 65536) : rxSequenced p f s = rxAccept p f s := by
  unfold rxSequenced
  rw [if_pos h]

theorem data_effect (p : Nat) (raw : List Byte) (f : Frame) (s : State) (h1 : stopped s = false) (h2 : domOn s (92 + p) = true) (h3 : getF s LINK_STAT_STATE p = 5) (h4 : parseFrame raw = some f) (h5 : f.type = 1) (h6 : f.lseq = ((portOf s p).rxLast + 1) % 65536) (h7 : f.vc = 0) (h8 : ∀ q < 24, (portOf s q).rxq = []) (h9 : headAct s f = .deliver) (h10 : p < 24) :
    (runningIn (92 + p) s (rxData p raw 0 s)).inbox = s.inbox ++ [{ f with via := p }] ∧ (portOf (runningIn (92 + p) s (rxData p raw 0 s)) p).rxLast = f.lseq ∧ (portOf (runningIn (92 + p) s (rxData p raw 0 s)) p).rxq = [] ∧ (rxOf (runningIn (92 + p) s (rxData p raw 0 s)) (streamKey f.src f.ctx f.oport)).expected = ((rxOf s (streamKey f.src f.ctx f.oport)).expected + 1) % 65536 ∧ getF (runningIn (92 + p) s (rxData p raw 0 s)) LINK_RX_FRAMES p = (getF s LINK_RX_FRAMES p + 1) % 2 ^ 32 := by
  rw [runningIn_eq _ _ h1 h2]
  obtain ⟨t1, t2, t3, t4, t4b, t5, t6, t7, t8, t9, t10, t11⟩ := takeAck_spec p f s
  have ha : headAct (takeAck p f s) f = .deliver := by rw [headAct_congr t6 t7 t8, h9]
  unfold rxData
  rw [rxFrame_up _ h3 h4 h5, rxSequenced_next (by rw [t2]; exact h6)]
  obtain ⟨x, e, r0, r1, r2, c1, c2, c3, c4, c5, c6⟩ := rxAccept_now h10 h7 (fun q h => by rw [t1, h8 q h]) (by rw [ha]; simp) (by rw [ha]; simp)
  rw [e]
  unfold headStep
  rw [r0]
  dsimp only
  rw [show headAct x f = .deliver from by rw [headAct_congr c1 c2 c3, ha]]
  dsimp only
  have cp : ∀ y, (countFin f y).ports = y.ports := fun y => by unfold countFin; split <;> rfl
  have ci : ∀ y, (countFin f y).inbox = y.inbox := fun y => by unfold countFin; split <;> rfl
  have cr : ∀ y, (countFin f y).rxStreams = y.rxStreams := fun y => by unfold countFin; split <;> rfl
  have cg : ∀ y, getF (countFin f y) LINK_RX_FRAMES p = getF y LINK_RX_FRAMES p := fun y => by
    unfold countFin; split
    · exact getFk_setFk_page _ _ _ _ _ _ _ _ (by decide)
    · rfl
  refine ⟨?_, ?_, ?_, ?_, ?_⟩
  · show (countFin f _).inbox = _
    rw [ci]
    show x.inbox ++ [{ f with via := p }] = _
    rw [c3, t8]
  · unfold portOf
    show (Store.get _ (countFin f _).ports p).rxLast = _
    rw [cp]
    show (portOf (freeRxSlot p 0 (modPort p (fun x => { x with rxq := [], headHeld := false }) x)) p).rxLast = _
    unfold freeRxSlot
    rw [portOf_modPort_self, portOf_modPort_self]
    exact r2
  · unfold portOf
    show (Store.get _ (countFin f _).ports p).rxq = _
    rw [cp]
    exact pop_rxq r1 p h10
  · unfold modRx rxOf
    dsimp only
    rw [Store.get_upd_self, cr]
    show ((rxOf x _).expected + 1) % 65536 = _
    unfold rxOf
    rw [c1, t6]
  · show getF (countFin f _) _ _ = _
    rw [cg]
    show getF x _ _ = _
    unfold getF getFk
    rw [c6]
    show getF (incr LINK_RX_FRAMES p (takeAck p f s)) _ _ = _
    rw [getF_incr_self _ _ _ (by decide)]
    unfold getF getFk
    rw [t5]

theorem dataForward_effect (p : Nat) (raw : List Byte) (f : Frame) (s : State) (h1 : stopped s = false) (h2 : domOn s (92 + p) = true) (h3 : getF s LINK_STAT_STATE p = 5) (h4 : parseFrame raw = some f) (h5 : f.type = 1) (h6 : f.lseq = ((portOf s p).rxLast + 1) % 65536) (h7 : f.vc ≠ 0) :
    (portOf (runningIn (92 + p) s (rxData p raw 0 s)) p).fwd = (portOf s p).fwd ++ [{ f with vc := f.vc - 1 }] ∧ (portOf (runningIn (92 + p) s (rxData p raw 0 s)) p).rxLast = f.lseq ∧ getF (runningIn (92 + p) s (rxData p raw 0 s)) LINK_TRANSIT p = (getF s LINK_TRANSIT p + 1) % 2 ^ 32 ∧ (runningIn (92 + p) s (rxData p raw 0 s)).inbox = s.inbox := by
  rw [runningIn_eq _ _ h1 h2]
  obtain ⟨t1, t2, t3, t4, t4b, t5, t6, t7, t8, t9, t10, t11⟩ := takeAck_spec p f s
  unfold rxData
  rw [rxFrame_up _ h3 h4 h5, rxSequenced_next (by rw [t2]; exact h6)]
  unfold rxAccept
  dsimp only
  rw [if_neg h7]
  refine ⟨?_, ?_, ?_, t8⟩
  · rw [portOf_incr, portOf_modPort_self, portOf_incr, portOf_modPort_self]
    show (portOf (takeAck p f s) p).fwd ++ _ = _
    rw [t4]
  · rw [portOf_incr, portOf_modPort_self, portOf_incr, portOf_modPort_self]
  · rw [getF_incr_self _ _ _ (by decide)]
    show (getF (incr LINK_RX_FRAMES p (takeAck p f s)) LINK_TRANSIT p + 1) % _ = _
    rw [getF_incr_apart (by decide)]
    unfold getF getFk
    rw [t5]

theorem dataGap_effect (p : Nat) (raw : List Byte) (f : Frame) (s : State) (h1 : stopped s = false) (h2 : domOn s (92 + p) = true) (h3 : getF s LINK_STAT_STATE p = 5) (h4 : parseFrame raw = some f) (h5 : f.type = 1) (h6 : f.lseq ≠ ((portOf s p).rxLast + 1) % 65536) (h7 : serialAhead (portOf s p).rxLast f.lseq = true) (h8 : (portOf s p).retryOut = false) :
    (∃ g, (runningIn (92 + p) s (rxData p raw 0 s)).out = s.out ++ [.frame p g] ∧ g.type = 9) ∧ (portOf (runningIn (92 + p) s (rxData p raw 0 s)) p).retryOut = true ∧ (portOf (runningIn (92 + p) s (rxData p raw 0 s)) p).rxLast = (portOf s p).rxLast ∧ (runningIn (92 + p) s (rxData p raw 0 s)).inbox = s.inbox := by
  rw [runningIn_eq _ _ h1 h2]
  obtain ⟨t1, t2, t3, t4, t4b, t5, t6, t7, t8, t9, t10, t11⟩ := takeAck_spec p f s
  unfold rxData
  rw [rxFrame_up _ h3 h4 h5]
  clear t1 t4 t4b t5 t6 t7 t9 t10
  generalize takeAck p f s = x at *
  unfold rxSequenced
  dsimp only
  rw [t2, if_neg h6, h7, if_pos rfl]
  unfold sendRetry
  rw [t3, h8]
  simp only [Bool.false_eq_true, if_false]
  unfold sendUnseq
  refine ⟨⟨_, congrArg (· ++ _) t11, rfl⟩, ?_, ?_, ?_⟩
  · rw [portOf_emit, portOf_modPort_self, portOf_modPort_self]
  · rw [portOf_emit, portOf_modPort_self, portOf_modPort_self]; exact t2
  · show x.inbox = _
    exact t8

theorem dataBad_effect (p : Nat) (raw : List Byte) (s : State) (h1 : stopped s = false) (h2 : domOn s (92 + p) = true) (h3 : getF s LINK_STAT_STATE p = 5) (h4 : parseFrame raw = none) (h5 : (portOf s p).retryOut = false) :
    getF (runningIn (92 + p) s (rxData p raw 0 s)) LINK_RX_DISCARD p = (getF s LINK_RX_DISCARD p + 1) % 2 ^ 32 ∧ (portOf (runningIn (92 + p) s (rxData p raw 0 s)) p).retryOut = true ∧ (∃ g, (runningIn (92 + p) s (rxData p raw 0 s)).out = s.out ++ [.frame p g] ∧ g.type = 9) ∧ (runningIn (92 + p) s (rxData p raw 0 s)).inbox = s.inbox := by
  rw [runningIn_eq _ _ h1 h2]
  unfold rxData rxFrame
  dsimp only
  rw [h3, h4]
  simp only [show ¬ (5 = 3 ∨ 5 = 4) from by omega, if_false, if_true, show ¬ (0 : Nat) = 2 from by omega]
  have cf : countFec p 0 s = s := rfl
  rw [cf]
  unfold sendRetry rxDiscard
  rw [portOf_incr, h5]
  simp only [Bool.false_eq_true, if_false]
  unfold sendUnseq
  refine ⟨?_, ?_, ⟨_, rfl, rfl⟩, rfl⟩
  · show getF (incr LINK_RX_DISCARD p s) _ _ = _
    exact getF_incr_self _ _ _ (by decide)
  · rw [portOf_emit, portOf_modPort_self, portOf_modPort_self]

theorem mark_effect (p : Nat) (raw : List Byte) (f : Frame) (s : State) (h1 : stopped s = false) (h2 : domOn s (92 + p) = true) (h3 : getF s LINK_STAT_STATE p = 5) (h4 : parseFrame raw = some f) (h5 : f.type = 2) (h6 : f.lseq = ((portOf s p).rxLast + 1) % 65536) (h7 : f.vc = 0) (h8 : ∀ q < 24, (portOf s q).rxq = []) (h9 : headAct s f = .mark) (h10 : p < 24) :
    (runningIn (92 + p) s (rxFrame p raw 0 2 (rxSequenced p) s)).sendq = s.sendq ++ [{ type := 3, src := selfId s, dst := f.src, ctx := f.ctx, engine := 0xF, oport := f.oport, sseq := f.sseq }] ∧ (portOf (runningIn (92 + p) s (rxFrame p raw 0 2 (rxSequenced p) s)) p).rxLast = f.lseq ∧ (portOf (runningIn (92 + p) s (rxFrame p raw 0 2 (rxSequenced p) s)) p).rxq = [] := by
  rw [runningIn_eq _ _ h1 h2]
  obtain ⟨t1, t2, t3, t4, t4b, t5, t6, t7, t8, t9, t10, t11⟩ := takeAck_spec p f s
  have ha : headAct (takeAck p f s) f = .mark := by rw [headAct_congr t6 t7 t8, h9]
  rw [rxFrame_up _ h3 h4 h5, rxSequenced_next (by rw [t2]; exact h6)]
  have si : ∀ x : State, x.regs = (incr LINK_RX_FRAMES p (takeAck p f s)).regs → x.strapPos = s.strapPos → selfId x = selfId s := fun x hr hp => by
    have e : getF x LINK_SELF_BOARD 0 = getF s LINK_SELF_BOARD 0 := by
      have : getF x LINK_SELF_BOARD 0 = getF (incr LINK_RX_FRAMES p (takeAck p f s)) LINK_SELF_BOARD 0 := by unfold getF getFk; rw [hr]
      rw [this, getF_incr_apart (by decide)]; unfold getF getFk; rw [t5]
    unfold selfId; rw [e, hp]
  have sp : (rxAccept p f (takeAck p f s)).strapPos = s.strapPos :=
    ((rxAccept_keeps (Has.refl _) p f (Keeps.refl _ _)).strapPos (by decide)).trans ((takeAck_keeps (Has.refl _) p f (Keeps.refl _ s)).strapPos (by decide))
  obtain ⟨x, e, r0, r1, r2, c1, c2, c3, c4, c5, c6⟩ := rxAccept_now h10 h7 (fun q h => by rw [t1, h8 q h]) (by rw [ha]; simp) (by rw [ha]; simp)
  rw [e] at sp ⊢
  have sx : (headStep p x).strapPos = x.strapPos := (headStep_keeps (Has.refl _) p (Keeps.refl _ x)).strapPos (by decide)
  have sxx := si x c6 (by rw [← sx, sp])
  unfold headStep
  rw [r0]
  dsimp only
  rw [show headAct x f = .mark from by rw [headAct_congr c1 c2 c3, ha]]
  dsimp only
  refine ⟨?_, ?_, pop_rxq r1 p h10⟩
  · have sf : selfId (freeRxSlot p 0 (modPort p (fun x => { x with rxq := [], headHeld := false }) x)) = selfId x := rfl
    rw [← sxx]
    show x.sendq ++ _ = _
    rw [c4, t9]
  · show (portOf (freeRxSlot p 0 (modPort p (fun x => { x with rxq := [], headHeld := false }) x)) p).rxLast = _
    unfold freeRxSlot
    rw [portOf_modPort_self, portOf_modPort_self]
    exact r2

theorem markAck_effect (p : Nat) (raw : List Byte) (f : Frame) (s : State) (h1 : stopped s = false) (h2 : domOn s (92 + p) = true) (h3 : getF s LINK_STAT_STATE p = 5) (h4 : parseFrame raw = some f) (h5 : f.type = 3) (h6 : f.lseq = ((portOf s p).rxLast + 1) % 65536) (h7 : f.vc = 0) (h8 : ∀ q < 24, (portOf s q).rxq = []) (h9 : (txOf s (streamKey f.src f.ctx f.oport)).marking = true) (h10 : p < 24) :
    (txOf (runningIn (92 + p) s (rxFrame p raw 0 3 (rxSequenced p) s)) (streamKey f.src f.ctx f.oport)).marking = false ∧ (txOf (runningIn (92 + p) s (rxFrame p raw 0 3 (rxSequenced p) s)) (streamKey f.src f.ctx f.oport)).detour = false ∧ evtSet (runningIn (92 + p) s (rxFrame p raw 0 3 (rxSequenced p) s)) LINK_EV_FAILBACK f.oport = true ∧ (portOf (runningIn (92 + p) s (rxFrame p raw 0 3 (rxSequenced p) s)) p).rxLast = f.lseq := by
  rw [runningIn_eq _ _ h1 h2]
  obtain ⟨t1, t2, t3, t4, t4b, t5, t6, t7, t8, t9, t10, t11⟩ := takeAck_spec p f s
  have ha : ∀ y, headAct y f = .markAck := fun y => by unfold headAct; rw [if_pos h5]
  rw [rxFrame_up _ h3 h4 h5, rxSequenced_next (by rw [t2]; exact h6)]
  obtain ⟨x, e, r0, r1, r2, c1, c2, c3, c4, c5, c6⟩ := rxAccept_now h10 h7 (fun q h => by rw [t1, h8 q h]) (by rw [ha]; simp) (by rw [ha]; simp)
  rw [e]
  unfold headStep
  rw [r0]
  dsimp only
  rw [ha x]
  dsimp only
  generalize hy : freeRxSlot p 0 (modPort p (fun x => { x with rxq := [], headHeld := false }) x) = y
  have yt : y.txStreams = s.txStreams := by rw [← hy]; exact c5.trans t10
  have yp : (portOf y p).rxLast = f.lseq := by
    rw [← hy]; unfold freeRxSlot; rw [portOf_modPort_self, portOf_modPort_self]; exact r2
  unfold markAckTake
  dsimp only
  rw [if_pos (by unfold txOf; rw [yt]; exact h9)]
  have d : ∀ z : State, (detourEnd f.oport z).txStreams = z.txStreams ∧ (detourEnd f.oport z).ports = z.ports ∧ (evtSet z LINK_EV_FAILBACK f.oport = true → evtSet (detourEnd f.oport z) LINK_EV_FAILBACK f.oport = true) := fun z => by
    unfold detourEnd
    split
    · exact ⟨rfl, rfl, id⟩
    · exact ⟨rfl, rfl, fun h => by rw [evtSet_setF (by decide)]; exact h⟩
  refine ⟨?_, ?_, (d _).2.2 (evtSet_setEvt (by decide) _ _), ?_⟩
  · unfold txOf
    rw [(d _).1, setEvt_txStreams]
    unfold modTx
    dsimp only
    rw [Store.get_upd_self]
  · unfold txOf
    rw [(d _).1, setEvt_txStreams]
    unfold modTx
    dsimp only
    rw [Store.get_upd_self]
  · unfold portOf
    rw [(d _).2.1, setEvt_ports]
    exact yp

theorem takeAck_acked {p : Nat} {f : Frame} {s : State} (h : serialAhead (portOf s p).acked f.ack = true) :
    (portOf (takeAck p f s) p).acked = f.ack ∧ (portOf (takeAck p f s) p).replays = 0 ∧
    (portOf (takeAck p f s) p).retryBuf = ((portOf s p).retryBuf.filter fun g => serialAhead f.ack g.lseq) := by
  unfold takeAck
  dsimp only
  rw [h]
  simp only [if_true]
  split
  · refine ⟨?_, ?_, ?_⟩ <;> rw [portOf_modPort_self, portOf_modPort_self]
  · refine ⟨?_, ?_, ?_⟩ <;> rw [portOf_modPort_self]

theorem takeAck_old {p : Nat} {f : Frame} {s : State} (h : serialAhead (portOf s p).acked f.ack = false) :
    (portOf (takeAck p f s) p).replays = (portOf s p).replays ∧ (portOf (takeAck p f s) p).retryBuf = (portOf s p).retryBuf := by
  unfold takeAck
  dsimp only
  rw [h]
  simp only [Bool.false_eq_true, if_false]
  split
  · refine ⟨?_, ?_⟩ <;> rw [portOf_modPort_self]
  · exact ⟨rfl, rfl⟩

theorem link_effect (p : Nat) (raw : List Byte) (f : Frame) (s : State) (h1 : stopped s = false) (h2 : domOn s (92 + p) = true) (h3 : getF s LINK_STAT_STATE p = 5) (h4 : parseFrame raw = some f) (h5 : f.type = 8) (h6 : serialAhead (portOf s p).acked f.ack = true) :
    (portOf (runningIn (92 + p) s (rxFrame p raw 0 8 (fun _ s => s) s)) p).acked = f.ack ∧ (portOf (runningIn (92 + p) s (rxFrame p raw 0 8 (fun _ s => s) s)) p).replays = 0 ∧ (portOf (runningIn (92 + p) s (rxFrame p raw 0 8 (fun _ s => s) s)) p).retryBuf = ((portOf s p).retryBuf.filter fun g => serialAhead f.ack g.lseq) ∧ (runningIn (92 + p) s (rxFrame p raw 0 8 (fun _ s => s) s)).inbox = s.inbox := by
  rw [runningIn_eq _ _ h1 h2]
  obtain ⟨t1, t2, t3, t4, t4b, t5, t6, t7, t8, t9, t10, t11⟩ := takeAck_spec p f s
  rw [rxFrame_up _ h3 h4 h5]
  obtain ⟨a, b, c⟩ := takeAck_acked h6
  exact ⟨a, b, c, t8⟩

theorem state_effect (p : Nat) (raw : List Byte) (f : Frame) (s : State) (h1 : stopped s = false) (h2 : domOn s (92 + p) = true) (h3 : getF s LINK_STAT_STATE p = 5) (h4 : parseFrame raw = some f) (h5 : f.type = 0xB) :
    (portOf (runningIn (92 + p) s (rxFrame p raw 0 0xB (fun f s => modPort p (fun x => { x with peerUp := leVal (f.payload.take 3) }) s) s)) p).peerUp = leVal (f.payload.take 3) ∧ (runningIn (92 + p) s (rxFrame p raw 0 0xB (fun f s => modPort p (fun x => { x with peerUp := leVal (f.payload.take 3) }) s) s)).inbox = s.inbox := by
  rw [runningIn_eq _ _ h1 h2]
  obtain ⟨t1, t2, t3, t4, t4b, t5, t6, t7, t8, t9, t10, t11⟩ := takeAck_spec p f s
  rw [rxFrame_up _ h3 h4 h5]
  exact ⟨by rw [portOf_modPort_self], t8⟩

theorem resendAll_out (p : Nat) : ∀ (fs : List Frame) (s : State), ∃ l : List Frame, (resendAll p fs s).out = s.out ++ l.map (.frame p) ∧
    l.map (fun g => (g.lseq, g.payload)) = fs.map (fun g => (g.lseq, g.payload)) ∧ ∀ g ∈ l, g.ack = (portOf s p).rxLast
  | [], s => ⟨[], (List.append_nil _).symm, rfl, fun _ m => absurd m List.not_mem_nil⟩
  | f :: fs, s => by
    rw [resendAll]
    generalize hg : ({ f with ack := (portOf s p).rxLast, cvc := (portOf s p).cvc, cred := (portOf s p).freed.getD (portOf s p).cvc 0 } : Frame) = g
    obtain ⟨l, a, b, c⟩ := resendAll_out p fs (emit (.frame p g) (modPort p (fun x => { x with cvc := (x.cvc + 1) % 3 }) s))
    refine ⟨g :: l, ?_, ?_, fun x m => ?_⟩
    · rw [a]; exact List.append_assoc s.out [.frame p g] _
    · rw [List.map_cons, List.map_cons, b, ← hg]
    · rcases List.mem_cons.1 m with e | m
      · rw [e, ← hg]
      · rw [c x m, portOf_emit, portOf_modPort_self]

/-- An event of a page whose signal is a vector sends no frame. -/
theorem setEvt_tells (e : Evt) (i p : Nat) (s : State) (h : e.page = 7) : ∃ pre, (setEvt e i s).out = s.out ++ pre ∧ ∀ g, Out.frame p g ∉ pre := by
  unfold setEvt pend
  rw [h]
  dsimp only
  split
  · exact ⟨[.msix 0 39], rfl, fun g m => by simp at m⟩
  · exact ⟨[], (List.append_nil _).symm, fun g m => absurd m List.not_mem_nil⟩

/-- A replay while the limit is not reached (R382). -/
theorem replay_spec {p : Nat} {s : State} (h1 : (portOf s p).retryBuf ≠ []) (h2 : (portOf s p).replays < getF s LINK_RETRY_CFG_RETRY_LIMIT p) :
    getF (replay p s) LINK_REPLAYS p = (getF s LINK_REPLAYS p + 1) % 2 ^ 32 ∧ (portOf (replay p s) p).replays = (portOf s p).replays + 1 ∧
    evtSet (replay p s) LINK_EV_REPLAY p = true ∧ (portOf (replay p s) p).retryBuf = (portOf s p).retryBuf ∧
    getF (replay p s) LINK_REPLAY_FRAMES p = (getF s LINK_REPLAY_FRAMES p + (portOf s p).retryBuf.length) % 2 ^ 32 ∧
    Resent p (portOf s p).retryBuf (portOf s p).rxLast s.out (replay p s).out := by
  have ra : ∀ l (x : State), (resendAll p l x).regs = x.regs ∧ (portOf (resendAll p l x) p).replays = (portOf x p).replays ∧
      (portOf (resendAll p l x) p).retryBuf = (portOf x p).retryBuf := fun l => by
    induction l with
    | nil => exact fun _ => ⟨rfl, rfl, rfl⟩
    | cons f l ih =>
      intro x
      rw [resendAll]
      refine ⟨(ih _).1, (ih _).2.1.trans ?_, (ih _).2.2.trans ?_⟩ <;> rw [portOf_emit, portOf_modPort_self]
  unfold replay
  dsimp only
  rw [if_neg (by simpa using h1), if_neg (by omega)]
  have rg : ∀ l x g, getF (resendAll p l x) g p = getF x g p := fun l x g => by unfold getF getFk; rw [(ra l x).1]
  refine ⟨?_, ?_, ?_, ?_, ?_, ?_⟩
  · rw [rg, getF_setEvt_apart (by decide), getF_addF_apart (by decide), getF_incr_self _ _ _ (by decide)]
    rfl
  · rw [(ra _ _).2.1, portOf_setEvt, portOf_addF, portOf_incr, portOf_modPort_self]
  · unfold evtSet
    rw [rg]
    exact evtSet_setEvt (by decide) _ _
  · rw [(ra _ _).2.2, portOf_setEvt, portOf_addF, portOf_incr, portOf_modPort_self]
  · rw [rg, getF_setEvt_apart (by decide)]
    show getFk (setFk _ _ _ _ _) _ _ _ = _
    rw [getFk_setFk_self _ _ _ _ _ (by decide)]
    refine (Nat.mod_mod _ _).trans (congrArg (fun n => (n + _) % 2 ^ 32) ?_)
    show getF (incr LINK_REPLAYS p _) _ _ = _
    rw [getF_incr_apart (by decide)]
    rfl
  · obtain ⟨pre, e, n⟩ := setEvt_tells LINK_EV_REPLAY p p (addF LINK_REPLAY_FRAMES p (portOf s p).retryBuf.length (incr LINK_REPLAYS p
      (modPort p (fun x => { x with replays := x.replays + 1, ackSent := x.rxLast }) s))) (by decide)
    obtain ⟨l, a, b, c⟩ := resendAll_out p (portOf s p).retryBuf (setEvt LINK_EV_REPLAY p (addF LINK_REPLAY_FRAMES p (portOf s p).retryBuf.length (incr LINK_REPLAYS p
      (modPort p (fun x => { x with replays := x.replays + 1, ackSent := x.rxLast }) s))))
    refine ⟨pre, l, ?_, n, b, fun g hg => ?_⟩
    · rw [a, e]; rfl
    · rw [c g hg, portOf_setEvt, portOf_addF, portOf_incr, portOf_modPort_self]

theorem retry_effect (p : Nat) (raw : List Byte) (f : Frame) (s : State) (h1 : stopped s = false) (h2 : domOn s (92 + p) = true) (h3 : getF s LINK_STAT_STATE p = 5) (h4 : parseFrame raw = some f) (h5 : f.type = 9) (h6 : serialAhead (portOf s p).acked f.ack = false) (h7 : (portOf s p).retryBuf ≠ []) (h8 : (portOf s p).replays < getF s LINK_RETRY_CFG_RETRY_LIMIT p) :
    getF (runningIn (92 + p) s (rxFrame p raw 0 9 (fun _ s => if portUp s p then replay p s else s) s)) LINK_REPLAYS p = (getF s LINK_REPLAYS p + 1) % 2 ^ 32 ∧ (portOf (runningIn (92 + p) s (rxFrame p raw 0 9 (fun _ s => if portUp s p then replay p s else s) s)) p).replays = (portOf s p).replays + 1 ∧ evtSet (runningIn (92 + p) s (rxFrame p raw 0 9 (fun _ s => if portUp s p then replay p s else s) s)) LINK_EV_REPLAY p = true ∧ (portOf (runningIn (92 + p) s (rxFrame p raw 0 9 (fun _ s => if portUp s p then replay p s else s) s)) p).retryBuf = (portOf s p).retryBuf ∧ getF (runningIn (92 + p) s (rxFrame p raw 0 9 (fun _ s => if portUp s p then replay p s else s) s)) LINK_REPLAY_FRAMES p = (getF s LINK_REPLAY_FRAMES p + (portOf s p).retryBuf.length) % 2 ^ 32 ∧ Resent p (portOf s p).retryBuf (portOf s p).rxLast s.out (runningIn (92 + p) s (rxFrame p raw 0 9 (fun _ s => if portUp s p then replay p s else s) s)).out := by
  rw [runningIn_eq _ _ h1 h2]
  obtain ⟨t1, t2, t3, t4, t4b, t5, t6, t7, t8, t9, t10, t11⟩ := takeAck_spec p f s
  obtain ⟨k1, k2⟩ := takeAck_old h6
  rw [rxFrame_up _ h3 h4 h5]
  have g : ∀ g, getF (takeAck p f s) g p = getF s g p := fun g => by unfold getF getFk; rw [t5]
  rw [show portUp (takeAck p f s) p = true from by unfold portUp; rw [g, h3]; rfl]
  simp only [if_true]
  obtain ⟨a, b, c, d, e, o⟩ := replay_spec (p := p) (s := takeAck p f s) (by rw [k2]; exact h7) (by rw [k1, g]; exact h8)
  have hout : (takeAck p f s).out = s.out := (takeAck_keeps (Has.refl _) p f (Keeps.refl _ s)).out (by decide)
  exact ⟨by rw [a, g], by rw [b, k1], c, by rw [d, k2], by rw [e, g, k2], by rw [k2, t2, hout] at o; exact o⟩

theorem retryDeath_effect (p : Nat) (raw : List Byte) (f : Frame) (s : State) (h1 : stopped s = false) (h2 : domOn s (92 + p) = true) (h3 : getF s LINK_STAT_STATE p = 5) (h4 : parseFrame raw = some f) (h5 : f.type = 9) (h6 : serialAhead (portOf s p).acked f.ack = false) (h7 : (portOf s p).retryBuf ≠ []) (h8 : getF s LINK_RETRY_CFG_RETRY_LIMIT p ≤ (portOf s p).replays) :
    getF (runningIn (92 + p) s (rxFrame p raw 0 9 (fun _ s => if portUp s p then replay p s else s) s)) LINK_STAT_STATE p = 1 ∧ getF (runningIn (92 + p) s (rxFrame p raw 0 9 (fun _ s => if portUp s p then replay p s else s) s)) LINK_STAT_REASON p = 2 ∧ getF (runningIn (92 + p) s (rxFrame p raw 0 9 (fun _ s => if portUp s p then replay p s else s) s)) LINK_DEATHS p = (getF s LINK_DEATHS p + 1) % 2 ^ 32 ∧ evtSet (runningIn (92 + p) s (rxFrame p raw 0 9 (fun _ s => if portUp s p then replay p s else s) s)) LINK_EV_DOWN p = true ∧ (portOf (runningIn (92 + p) s (rxFrame p raw 0 9 (fun _ s => if portUp s p then replay p s else s) s)) p).retryBuf = [] := by
  rw [runningIn_eq _ _ h1 h2]
  obtain ⟨t1, t2, t3, t4, t4b, t5, t6, t7, t8, t9, t10, t11⟩ := takeAck_spec p f s
  obtain ⟨k1, k2⟩ := takeAck_old h6
  rw [rxFrame_up _ h3 h4 h5]
  have g : ∀ g, getF (takeAck p f s) g p = getF s g p := fun g => by unfold getF getFk; rw [t5]
  rw [show portUp (takeAck p f s) p = true from by unfold portUp; rw [g, h3]; rfl]
  simp only [if_true]
  unfold replay
  dsimp only
  rw [if_neg (by rw [k2]; simpa using h7), if_pos (by rw [g, k1]; exact h8)]
  rw [← g LINK_DEATHS]
  exact portDeath_spec p 2 _ (by rw [g]; exact h3) (by decide)

theorem ackTimeout_effect (p : Nat) (s : State) (h1 : stopped s = false) (h2 : domOn s (92 + p) = true) (h3 : getF s LINK_STAT_STATE p = 5) (h4 : (portOf s p).retryBuf ≠ []) (h5 : (portOf s p).replays < getF s LINK_RETRY_CFG_RETRY_LIMIT p) :
    getF (runningIn (92 + p) s (ackTimeout p s)) LINK_REPLAYS p = (getF s LINK_REPLAYS p + 1) % 2 ^ 32 ∧ (portOf (runningIn (92 + p) s (ackTimeout p s)) p).replays = (portOf s p).replays + 1 ∧ evtSet (runningIn (92 + p) s (ackTimeout p s)) LINK_EV_REPLAY p = true ∧ (portOf (runningIn (92 + p) s (ackTimeout p s)) p).retryBuf = (portOf s p).retryBuf ∧ getF (runningIn (92 + p) s (ackTimeout p s)) LINK_REPLAY_FRAMES p = (getF s LINK_REPLAY_FRAMES p + (portOf s p).retryBuf.length) % 2 ^ 32 ∧ Resent p (portOf s p).retryBuf (portOf s p).rxLast s.out (runningIn (92 + p) s (ackTimeout p s)).out := by
  rw [runningIn_eq _ _ h1 h2]
  unfold ackTimeout
  rw [show portUp s p = true from by unfold portUp; rw [h3]; rfl]
  simp only [if_true]
  exact replay_spec h4 h5

theorem ackTimeoutDeath_effect (p : Nat) (s : State) (h1 : stopped s = false) (h2 : domOn s (92 + p) = true) (h3 : getF s LINK_STAT_STATE p = 5) (h4 : (portOf s p).retryBuf ≠ []) (h5 : getF s LINK_RETRY_CFG_RETRY_LIMIT p ≤ (portOf s p).replays) :
    getF (runningIn (92 + p) s (ackTimeout p s)) LINK_STAT_STATE p = 1 ∧ getF (runningIn (92 + p) s (ackTimeout p s)) LINK_STAT_REASON p = 2 ∧ getF (runningIn (92 + p) s (ackTimeout p s)) LINK_DEATHS p = (getF s LINK_DEATHS p + 1) % 2 ^ 32 ∧ evtSet (runningIn (92 + p) s (ackTimeout p s)) LINK_EV_DOWN p = true ∧ (portOf (runningIn (92 + p) s (ackTimeout p s)) p).retryBuf = [] := by
  rw [runningIn_eq _ _ h1 h2]
  unfold ackTimeout
  rw [show portUp s p = true from by unfold portUp; rw [h3]; rfl]
  simp only [if_true]
  unfold replay
  dsimp only
  rw [if_neg (by simpa using h4), if_pos h5]
  exact portDeath_spec p 2 s h3 (by decide)

theorem linkAckDue_effect (p : Nat) (s : State) (h1 : stopped s = false) (h2 : domOn s (92 + p) = true) (h3 : getF s LINK_STAT_STATE p = 5) :
    (∃ f, (runningIn (92 + p) s (linkAckDue p s)).out = s.out ++ [.frame p f] ∧ f.type = 8 ∧ f.vc = 3 ∧ f.ack = (portOf s p).rxLast ∧ f.cvc = (portOf s p).cvc ∧ f.cred = (portOf s p).freed.getD (portOf s p).cvc 0) ∧ (portOf (runningIn (92 + p) s (linkAckDue p s)) p).ackSent = (portOf s p).rxLast ∧ (portOf (runningIn (92 + p) s (linkAckDue p s)) p).cvc = ((portOf s p).cvc + 1) % 3 := by
  rw [runningIn_eq _ _ h1 h2]
  unfold linkAckDue
  rw [if_pos (by unfold portUp; rw [h3]; rfl)]
  unfold sendUnseq
  exact ⟨⟨_, rfl, rfl, rfl, rfl, rfl, rfl⟩, by rw [portOf_emit, portOf_modPort_self], by rw [portOf_emit, portOf_modPort_self]⟩

/-- A broken stream stays broken, and events stay set, while the queues move. -/
theorem headStep_broken (p k : Nat) (s : State) (h : (rxOf s k).broken = true) : (rxOf (headStep p s) k).broken = true := by
  have of : ∀ y : State, y.rxStreams = s.rxStreams → (rxOf y k).broken = true := fun y hy => by unfold rxOf; rw [hy]; exact h
  have cf : ∀ f y, (countFin f y).rxStreams = y.rxStreams := fun f y => by unfold countFin; split <;> rfl
  have mt : ∀ f y, (markAckTake f y).rxStreams = y.rxStreams := fun f y => by
    unfold markAckTake
    dsimp only
    split
    · unfold detourEnd
      split <;> simp
    · rfl
  unfold headStep
  split
  · exact h
  · next f r _ =>
    dsimp only
    split
    · split
      · exact h
      · exact of _ (by simp)
    · exact h
    · unfold modRx rxOf
      dsimp only
      by_cases e : streamKey f.src f.ctx f.oport = k
      · rw [e, Store.get_upd_self, cf]; exact h
      · rw [Store.get_upd_ne e, cf]; exact h
    · exact of _ rfl
    · exact of _ (mt _ _)
    · split
      · exact of _ (by simp [cf, freeRxSlot])
      · split
        · exact of _ (by simp [cf, freeRxSlot])
        · exact of _ (by simp [cf, freeRxSlot])

theorem drainHeads_broken (k : Nat) : ∀ (n : Nat) (s : State), (rxOf s k).broken = true → (rxOf (drainHeads n s) k).broken = true
  | 0, _, h => h
  | n + 1, s, h => by
    rw [drainHeads]
    split
    · exact drainHeads_broken k n _ (headStep_broken _ k s h)
    · exact h

theorem headStep_evt (p i : Nat) (e : Evt) (s : State) (hp : e.page = 7) (hb : e.bit < 32) (h : evtSet s e i = true) : evtSet (headStep p s) e i = true := by
  have of : ∀ y : State, y.regs = s.regs → evtSet y e i = true := fun y hy => by unfold evtSet getF getFk; rw [hy]; exact h
  have cf : ∀ f y, evtSet y e i = true → evtSet (countFin f y) e i = true := fun f y hy => by
    unfold countFin
    split
    · unfold evtSet getF addFk
      rw [getFk_setFk_page _ _ _ _ _ _ _ _ (by rw [hp]; decide)]
      exact hy
    · exact hy
  have inc : ∀ (f : Fld) j y, f ∈ [LINK_HOLD_CNT, LINK_CTX_DROP, LINK_DUP_DROP] → evtSet y e i = true → evtSet (incr f j y) e i = true := fun f j y hf hy => by
    rw [evtSet_incr]
    · exact hy
    · rw [hp]
      simp only [List.mem_cons, List.not_mem_nil, or_false] at hf
      rcases hf with rfl | rfl | rfl <;> decide
  have mt : ∀ f y, evtSet y e i = true → evtSet (markAckTake f y) e i = true := fun f y hy => by
    unfold markAckTake
    dsimp only
    split
    · unfold detourEnd
      split
      · exact evtSet_setEvt_of hy hb
      · rw [evtSet_setF (by rw [hp]; decide)]; exact evtSet_setEvt_of hy hb
    · exact hy
  unfold headStep
  split
  · exact h
  · next f r _ =>
    dsimp only
    split
    · split
      · exact h
      · exact evtSet_setEvt_of (inc _ _ _ (by simp) (of _ rfl)) hb
    · exact h
    · exact cf _ _ (of _ rfl)
    · exact of _ rfl
    · exact mt _ _ (of _ rfl)
    · split
      · exact evtSet_setEvt_of (inc _ _ _ (by simp) (cf _ _ (of _ rfl))) hb
      · split
        · exact cf _ _ (of _ rfl)
        · exact inc _ _ _ (by simp) (cf _ _ (of _ rfl))

theorem drainHeads_evt (i : Nat) (e : Evt) (hp : e.page = 7) (hb : e.bit < 32) : ∀ (n : Nat) (s : State), evtSet s e i = true → evtSet (drainHeads n s) e i = true
  | 0, _, h => h
  | n + 1, s, h => by
    rw [drainHeads]
    split
    · exact drainHeads_evt i e hp hb n _ (headStep_evt _ i e s hp hb h)
    · exact h

theorem holdExpire_effect (p : Nat) (f : Frame) (rest : List Frame) (s : State) (h1 : stopped s = false) (h2 : domOn s (92 + p) = true) (h3 : (portOf s p).rxq = f :: rest) (h4 : (portOf s p).headHeld = true) (h5 : headAct s f = .hold) :
    (rxOf (runningIn (92 + p) s (holdExpire p s)) (streamKey f.src f.ctx f.oport)).broken = true ∧ getF (runningIn (92 + p) s (holdExpire p s)) LINK_STREAM_BREAK p = (getF s LINK_STREAM_BREAK p + 1) % 2 ^ 32 ∧ evtSet (runningIn (92 + p) s (holdExpire p s)) LINK_EV_STREAM_BREAK p = true := by
  rw [runningIn_eq _ _ h1 h2]
  unfold holdExpire
  rw [h3]
  dsimp only
  rw [if_pos ⟨h4, h5⟩]
  generalize hx : freeRxSlot p 0 _ = x
  have b : (rxOf x (streamKey f.src f.ctx f.oport)).broken = true := by
    rw [← hx]
    show (rxOf (setEvt LINK_EV_STREAM_BREAK p (incr LINK_STREAM_BREAK p (modRx (streamKey f.src f.ctx f.oport) (fun x => { x with broken := true }) s))) _).broken = true
    unfold rxOf
    rw [setEvt_rxStreams, show ∀ y : State, (incr LINK_STREAM_BREAK p y).rxStreams = y.rxStreams from fun _ => rfl]
    unfold modRx
    dsimp only
    rw [Store.get_upd_self]
  have c : getF x LINK_STREAM_BREAK p = (getF s LINK_STREAM_BREAK p + 1) % 2 ^ 32 := by
    rw [← hx]
    show getF (setEvt LINK_EV_STREAM_BREAK p (incr LINK_STREAM_BREAK p (modRx _ _ s))) _ _ = _
    rw [getF_setEvt_apart (by decide), getF_incr_self _ _ _ (by decide)]
    rfl
  have d : evtSet x LINK_EV_STREAM_BREAK p = true := by
    rw [← hx]
    exact evtSet_setEvt (e := LINK_EV_STREAM_BREAK) (by decide) p (incr LINK_STREAM_BREAK p (modRx (streamKey f.src f.ctx f.oport) (fun x => { x with broken := true }) s))
  clear hx
  have b1 : (rxOf (countFin f x) (streamKey f.src f.ctx f.oport)).broken = true := by
    unfold countFin; split <;> exact b
  have c1 := ((countFin_keeps (Has.refl _) f (Keeps.refl _ x)).getFk reg_LINK_STREAM_BREAK (by decide) p 0).trans c
  have d1 : evtSet (countFin f x) LINK_EV_STREAM_BREAK p = true := by
    unfold countFin
    split
    · unfold evtSet getF addFk
      rw [getFk_setFk_page _ _ _ _ _ _ _ _ (by decide)]
      exact d
    · exact d
  exact ⟨drainHeads_broken _ _ _ b1, ((drainAll_keeps (Has.refl _) (Keeps.refl _ (countFin f x))).getFk reg_LINK_STREAM_BREAK (by decide) p 0).trans c1,
    drainHeads_evt _ _ rfl (by decide) _ _ d1⟩

/-- With no other frame waiting, the broken frame leaves its queue and nothing is delivered. -/
theorem holdExpireAlone_effect (p : Nat) (f : Frame) (s : State) (h1 : stopped s = false) (h2 : domOn s (92 + p) = true) (h3 : (portOf s p).rxq = [f]) (h4 : (portOf s p).headHeld = true) (h5 : headAct s f = .hold) (h6 : ∀ q < 24, q ≠ p → (portOf s q).rxq = []) :
    (portOf (runningIn (92 + p) s (holdExpire p s)) p).rxq = [] ∧ (portOf (runningIn (92 + p) s (holdExpire p s)) p).headHeld = false ∧ (runningIn (92 + p) s (holdExpire p s)).inbox = s.inbox ∧ (rxOf (runningIn (92 + p) s (holdExpire p s)) (streamKey f.src f.ctx f.oport)).expected = (rxOf s (streamKey f.src f.ctx f.oport)).expected := by
  rw [runningIn_eq _ _ h1 h2]
  unfold holdExpire
  rw [h3]
  dsimp only
  rw [if_pos ⟨h4, h5⟩]
  generalize hy : setEvt LINK_EV_STREAM_BREAK p (incr LINK_STREAM_BREAK p _) = y
  have yp : ∀ q, portOf y q = portOf s q := fun q => by rw [← hy, portOf_setEvt]; rfl
  have yi : y.inbox = s.inbox := by rw [← hy, setEvt_inbox]; rfl
  have yr : (rxOf y (streamKey f.src f.ctx f.oport)).expected = (rxOf s (streamKey f.src f.ctx f.oport)).expected := by
    rw [← hy]
    unfold rxOf
    rw [setEvt_rxStreams, show ∀ z : State, (incr LINK_STREAM_BREAK p z).rxStreams = z.rxStreams from fun _ => rfl]
    unfold modRx
    dsimp only
    rw [Store.get_upd_self]
  have cf : ∀ z : State, (countFin f z).ports = z.ports ∧ (countFin f z).inbox = z.inbox ∧ (countFin f z).rxStreams = z.rxStreams := fun z => by
    unfold countFin; split <;> exact ⟨rfl, rfl, rfl⟩
  generalize hz : freeRxSlot p 0 _ = z
  have zq : ∀ q < 24, (portOf (countFin f z) q).rxq = [] := fun q hq => by
    unfold portOf
    rw [(cf z).1, ← hz]
    exact pop_rxq (fun q a b => by rw [yp]; exact h6 q a b) q hq
  unfold drainAll
  rw [drainHeads_empty _ zq]
  have zp : portOf (countFin f z) p = portOf z p := by unfold portOf; rw [(cf z).1]
  refine ⟨by rw [zp, ← hz]; unfold freeRxSlot; rw [portOf_modPort_self, portOf_modPort_self], ?_, ?_, ?_⟩
  · rw [zp, ← hz]; unfold freeRxSlot; rw [portOf_modPort_self, portOf_modPort_self]
  · rw [(cf z).2.1, ← hz]; exact yi
  · unfold rxOf; rw [(cf z).2.2, ← hz]; exact yr

/-- Recording an identity touches the PEER registers and the port's own record. -/
theorem recordIdent_spec (p : Nat) (rcd : List Byte) (s : State) : (portOf (recordIdent p rcd s) p).identGot = some rcd ∧
    (∀ g, fldIn g = true → g ∉ [LINK_PEER_SER_LO, LINK_PEER_SER_HI, LINK_PEER_ID, LINK_PEER_FW, LINK_PEER_REV_REV_MIN, LINK_PEER_REV_REV_MAX] →
      getF (recordIdent p rcd s) g p = getF s g p) := by
  unfold recordIdent
  dsimp only
  refine ⟨by rw [portOf_modPort_self], fun g hg hn => ?_⟩
  simp only [List.mem_cons, List.not_mem_nil, or_false, not_or] at hn
  obtain ⟨n1, n2, n3, n4, n5, n6⟩ := hn
  have m : ∀ f x, getF (modPort p f x) g p = getF x g p := fun _ _ => rfl
  rw [m]
  unfold getF setF
  rw [getFk_setFk_fld (by decide) hg (Ne.symm n5), getFk_setFk_fld (by decide) hg (Ne.symm n6), getFk_setFk_fld (by decide) hg (Ne.symm n3),
    getFk_setFk_fld (by decide) hg (Ne.symm n4), getFk_setFk_fld (by decide) hg (Ne.symm n1), getFk_setFk_fld (by decide) hg (Ne.symm n2)]

theorem ident_effect (p : Nat) (raw : List Byte) (f : Frame) (s : State) (h1 : stopped s = false) (h2 : domOn s (92 + p) = true) (h3 : getF s LINK_STAT_STATE p = 3) (h4 : parseFrame raw = some f) (h5 : f.type = 0xA) :
    (portOf (runningIn (92 + p) s (rxFrame p raw 0 0xA (fun f s => takeIdent p f.payload s) s)) p).identGot = some f.payload ∧ getF (runningIn (92 + p) s (rxFrame p raw 0 0xA (fun f s => takeIdent p f.payload s) s)) LINK_STAT_STATE p = (if min (getF s LINK_REV_CFG_REV_MAX p) (leVal ((f.payload.drop 18).take 2)) < max (getF s LINK_REV_CFG_REV_MIN p) (leVal ((f.payload.drop 16).take 2)) then 6 else if misBits s p f.payload = 0 then 5 else 4) := by
  rw [runningIn_eq _ _ h1 h2]
  unfold rxFrame
  dsimp only
  rw [h3, h4]
  simp only [true_or, if_true, show ¬ (0 : Nat) = 2 from by omega, if_false]
  have cf : countFec p 0 s = s := rfl
  have ns : sequenced f = false := by unfold sequenced; rw [h5]; rfl
  rw [ns, cf]
  simp only [Bool.false_eq_true, if_false, h5, if_true]
  unfold takeIdent
  rw [if_pos h3]
  dsimp only
  obtain ⟨a, b⟩ := recordIdent_spec p f.payload s
  generalize recordIdent p f.payload s = x at a b
  rw [b LINK_REV_CFG_REV_MAX (by decide) (by decide), b LINK_REV_CFG_REV_MIN (by decide) (by decide)]
  split
  · refine ⟨?_, ?_⟩
    · rw [portOf_setEvt]; exact a
    · rw [getF_setEvt_apart (by decide), getF_setF_apart (by decide), getF_setF_self _ _ _ _ (by decide)]; rfl
  · obtain ⟨j1, -, j3⟩ := judgeIdent_spec p f.payload (setF LINK_STAT_REV p (min (getF s LINK_REV_CFG_REV_MAX p) (leVal ((f.payload.drop 18).take 2))) x)
    refine ⟨by rw [j3]; exact a, ?_⟩
    rw [j1]
    have mb : ∀ r, misBits (setF LINK_STAT_REV p r x) p f.payload = misBits s p f.payload := fun r => by
      unfold misBits
      dsimp only
      rw [getF_setF_apart (by decide), getF_setF_apart (by decide), getF_setF_apart (by decide), getF_setF_apart (by decide), getF_setF_apart (by decide),
        b LINK_TOPO_SER_LO (by decide) (by decide), b LINK_TOPO_SER_HI (by decide) (by decide), b LINK_TOPO_PEER_BOARD (by decide) (by decide),
        b LINK_TOPO_PEER_POS (by decide) (by decide), b LINK_TOPO_PEER_PORT (by decide) (by decide)]
    rw [mb]

end Sys2Proof.Machine
end

