-- ==== Sys2Proof/Laws/EffectsGauge.lean ====
section
/-! SUPPORT. What the commands do: the commands of gauge. -/

namespace Sys2Proof.Machine

set_option linter.unusedSimpArgs false

theorem gaugeSample_effect (mv ma n : Nat) (g : GaugeRun) (s : State) (h1 : s.gauge.run = some g) :
    (gaugeSample 0 mv ma n s).gauge.run = some { g with samples := g.samples + n, secA := g.secA + mv * ma * n, now := { g.now with a := g.now.a + mv * ma * n } } ∧ (gaugeSample 0 mv ma n s).gauge.otp = s.gauge.otp ∧ (gaugeSample 0 mv ma n s).gauge.lines = s.gauge.lines := by
  unfold gaugeSample modGauge
  rw [if_pos (by decide), h1]
  exact ⟨rfl, rfl, rfl⟩

theorem gaugeSampleB_effect (mv ma n : Nat) (g : GaugeRun) (s : State) (h1 : s.gauge.run = some g) :
    (gaugeSample 1 mv ma n s).gauge.run = some { g with secB := g.secB + mv * ma * n, now := { g.now with b := g.now.b + mv * ma * n } } ∧ (gaugeSample 1 mv ma n s).gauge.otp = s.gauge.otp ∧ (gaugeSample 1 mv ma n s).gauge.lines = s.gauge.lines := by
  unfold gaugeSample modGauge
  rw [if_pos (by decide), h1]
  exact ⟨rfl, rfl, rfl⟩

theorem gaugePowerSecond_effect (g : GaugeRun) (s : State) (h1 : s.gauge.run = some g) :
    ∃ p v, p = min (microJoule g.secA) (microJoule g.secB) / 100000 ∧ (p < 65536 → v = p) ∧ (gaugePowerSecond s).gauge.run = some { g with secA := 0, secB := 0, pNow := v, now := { g.now with pMax := max g.now.pMax p, secs := g.now.secs + 1, under := g.now.under + b2n (decide (p < 2400)), high := g.now.high || decide (26400 < p) } } := by
  unfold gaugePowerSecond
  rw [h1]
  dsimp only
  refine ⟨secondPower g, ?_⟩
  split
  · next h =>
    refine ⟨_, rfl, fun _ => rfl, ?_⟩
    unfold modGauge
    rw [h1]
    rfl
  · next h =>
    refine ⟨(freshWord s).1 % 65536, rfl, fun q => absurd q h, ?_⟩
    unfold modGauge freshWord
    dsimp only
    rw [h1]
    rfl

theorem tallySend_effect (cl : Nat) (s : State) (h1 : stopped s = false) (h2 : domOn s (32 + cl / 8) = true) (h3 : (clusterOf s cl).tally ≠ []) :
    (clusterOf (runningIn (32 + cl / 8) s (tallySend cl s)) cl).tally = [] ∧ (runningIn (32 + cl / 8) s (tallySend cl s)).gauge.lines = s.gauge.lines ++ [{ cluster := cl, a := (clusterOf s cl).tally, b := (clusterOf s cl).tally }] := by
  rw [runningIn_eq _ _ h1 h2]
  unfold tallySend tallyFlush
  dsimp only
  rw [if_neg (by simpa using h3)]
  refine ⟨?_, rfl⟩
  unfold modCluster clusterOf
  dsimp only
  rw [Store.get_upd_self]

theorem tallyFrame_effect (bad : Bool) (alt : Flips) (g : GaugeRun) (f : TallyFrame) (rest : List TallyFrame) (s : State) (h1 : s.gauge.run = some g) (h2 : s.gauge.lines = f :: rest) :
    (tallyFrame bad alt s).gauge.lines = rest ∧ (tallyFrame bad alt s).gauge.run = some { g with now := if bad then { g.now with wDisagree := true } else g.now.counts f.a (altered f.b alt) (tallyKeys f.a (altered f.b alt)) } := by
  unfold tallyFrame modGauge
  rw [h2]
  dsimp only
  rw [h1]
  exact ⟨rfl, rfl⟩

theorem closeInterval_run (short : Bool) {g : GaugeRun} {s : State} (h : s.gauge.run = some g) :
    (closeInterval short g s).gauge.run = some (GaugeRun.close (recordBody s g short) g) := by
  unfold closeInterval modGauge
  generalize recordBody s g short = b
  dsimp only
  rw [h]
  rfl

theorem intervalEnd_effect (g : GaugeRun) (s : State) (h1 : s.gauge.run = some g) (h2 : 1000 * g.interval ≤ gaugeLife g - g.now.start) :
    (intervalEnd s).gauge.run = some { g with signing := g.signing ++ [recordBody s g false], seq := g.seq + 1, prev := sha384 (recordBody s g false), eTotal := g.eTotal + energyLow g.now, breaks := breaksNow g, interval := g.next, now := { start := gaugeLife g, a := g.now.a % 50000, b := g.now.b % 50000 }, wait := false, first := false, resumed := false } := by
  unfold intervalEnd
  rw [h1]
  dsimp only
  rw [if_pos (by unfold intervalOver; exact decide_eq_true h2), closeInterval_run _ h1]
  generalize recordBody s g _ = b
  rfl

theorem closeNow_effect (g : GaugeRun) (s : State) (h1 : s.gauge.run = some g) :
    (closeNow 0xA5 s).gauge.run = some { g with signing := g.signing ++ [recordBody s g (!decide (1000 * g.interval ≤ gaugeLife g - g.now.start))], seq := g.seq + 1, prev := sha384 (recordBody s g (!decide (1000 * g.interval ≤ gaugeLife g - g.now.start))), eTotal := g.eTotal + energyLow g.now, breaks := breaksNow g, interval := g.next, now := { start := gaugeLife g, a := g.now.a % 50000, b := g.now.b % 50000 }, wait := false, first := false, resumed := false } := by
  unfold closeNow
  rw [h1]
  dsimp only
  rw [if_pos rfl, closeInterval_run _ h1]
  unfold intervalOver
  generalize recordBody s g _ = b
  rfl

theorem gaugeRecordSigned_effect (g : GaugeRun) (body : List Byte) (rest : List (List Byte)) (s : State) (h1 : s.gauge.run = some g) (h2 : g.signing = body :: rest) :
    (gaugeRecordSigned s).gauge.run = some { g with signing := rest, records := ((body ++ signBoth s.gauge.otp.keySecret body s.freeCtr) :: g.records).take 4, slot := if g.off = 0 then g.slot else g.slot + 1 } := by
  unfold gaugeRecordSigned
  rw [h1]
  dsimp only
  rw [h2]
  dsimp only
  generalize body ++ signBoth s.gauge.otp.keySecret body s.freeCtr = rd
  unfold nextFree modGauge
  dsimp only
  rw [h1]
  dsimp only [Option.map, GaugeRun.keep]
  rw [h2]
  rfl

theorem gaugePowerUp_effect  (s : State) (h1 : s.gauge.run = none) :
    (gaugePowerUp s).gauge.run = some {} ∧ (gaugePowerUp s).gauge.otp = { s.gauge.otp with powerUp := min 4096 (s.gauge.otp.powerUp + 1) } ∧ (gaugePowerUp s).gauge.lines = s.gauge.lines := by
  unfold gaugePowerUp
  rw [h1]
  exact ⟨rfl, rfl, rfl⟩

theorem gaugeSupplyLoss_effect  (s : State)  :
    (gaugeSupplyLoss s).gauge.run = none ∧ (gaugeSupplyLoss s).gauge.otp = s.gauge.otp ∧ (gaugeSupplyLoss s).gauge.lines = s.gauge.lines := by
  exact ⟨rfl, rfl, rfl⟩

theorem status_effect (g : GaugeRun) (s : State) (h1 : s.gauge.run = some g) :
    (status s).out = s.out ++ [.gauge (leBytes 2 (gaugeState g) ++ leBytes 2 (gaugeFlags s g false) ++ leBytes 8 (leVal (((newestRecord g).drop 24).take 8)) ++ leBytes 4 s.gauge.otp.powerUp)] ∧ (status s).gauge = s.gauge := by
  unfold status gaugeRead
  rw [h1]
  exact ⟨rfl, rfl⟩

theorem intervalR_effect (g : GaugeRun) (s : State) (h1 : s.gauge.run = some g) :
    (intervalR s).out = s.out ++ [.gauge (leBytes 2 g.interval)] ∧ (intervalR s).gauge = s.gauge := by
  unfold intervalR gaugeRead
  rw [h1]
  exact ⟨rfl, rfl⟩

theorem statusResume_effect (g : GaugeRun) (s : State) (h1 : s.gauge.run = some g) :
    (statusResume s).out = s.out ++ [.gauge (leBytes 1 g.result)] ∧ (statusResume s).gauge = s.gauge := by
  unfold statusResume gaugeRead
  rw [h1]
  exact ⟨rfl, rfl⟩

theorem intervalW_effect (v : Nat) (g : GaugeRun) (s : State) (h1 : s.gauge.run = some g) (h2 : 10 ≤ v) (h3 : v ≤ 3600) :
    (intervalW v s).gauge.run = some { g with next := v } := by
  unfold intervalW modGauge
  rw [if_pos ⟨h2, h3⟩, h1]
  rfl

theorem recSelect_effect (n : Nat) (g : GaugeRun) (s : State) (h1 : s.gauge.run = some g) (h2 : n < 4) :
    (recSelect n s).gauge.run = some { g with slot := n, off := 0 } := by
  unfold recSelect modGauge
  rw [if_pos h2, h1]
  rfl

theorem recRead_effect (g : GaugeRun) (rd : List Byte) (s : State) (h1 : s.gauge.run = some g) (h2 : g.records[g.slot]? = some rd) (h3 : g.off < 36864) :
    (recRead s).out = s.out ++ [.gauge ((rd.drop g.off).take 192)] ∧ (recRead s).gauge.run = some { g with off := g.off + 192 } := by
  unfold recRead
  rw [h1]
  dsimp only
  rw [h2]
  dsimp only
  rw [if_pos h3]
  unfold modGauge emit
  dsimp only
  rw [h1]
  exact ⟨rfl, rfl⟩

theorem resumeLoad_effect (bs : List Byte) (g : GaugeRun) (s : State) (h1 : s.gauge.run = some g) (h2 : bs.length = 192) (h3 : g.load.length < 36864) :
    (resumeLoad bs s).gauge.run = some { g with load := g.load ++ bs } := by
  unfold resumeLoad modGauge
  rw [if_pos h2, h1]
  dsimp only [Option.map]
  rw [if_pos h3]

theorem resumeGo_effect (g : GaugeRun) (s : State) (h1 : s.gauge.run = some g) :
    (resumeResult s g ≠ 1 → (resumeGo 0xA5 s).gauge.run = some { g with result := resumeResult s g, load := [] }) ∧ (resumeResult s g = 1 → (resumeGo 0xA5 s).gauge.run = some { g with seq := pay g.load 24 8 + 1, prev := sha384 (g.load.take 768), eTotal := pay g.load 72 8, breaks := pay g.load 84 4, interval := pay g.load 36 4, next := pay g.load 36 4, base := pay g.load 48 8, now := { g.now with start := pay g.load 48 8 }, resumed := true, result := 1, load := [] }) := by
  unfold resumeGo
  rw [h1]
  dsimp only
  generalize resumeResult s g = x at *
  rw [if_neg (by decide)]
  unfold modGauge
  rw [h1]
  dsimp only [Option.map]
  refine ⟨fun h2 => by rw [if_neg h2], fun h2 => ?_⟩
  rw [if_pos h2, h2]
  unfold GaugeRun.chain
  generalize sha384 _ = z
  rfl

theorem identRead_effect (g : GaugeRun) (s : State) (h1 : s.gauge.run = some g) :
    (identRead s).out = s.out ++ [.gauge (((gaugeIdent s.gauge.otp).drop g.identOff).take 192)] ∧ (identRead s).gauge.run = some { g with identOff := (g.identOff + 192) % 576 } := by
  unfold identRead
  rw [h1]
  dsimp only
  unfold modGauge emit
  dsimp only
  rw [h1]
  exact ⟨rfl, rfl⟩

end Sys2Proof.Machine
end

