-- ==== Sys2Proof/Laws/EffectsMemory.lean ====
section
/-! SUPPORT. What the commands do: the commands of memory. -/

namespace Sys2Proof.Machine

theorem memRequest_effect (d ctx cls a : Nat) (write copy : Bool) (data : List Byte) (tag : Nat) (chan page off : Nat) (s : State) (h1 : isAwake s = true) (h2 : lookup s d (a / 64 * 64) = .hit chan page off) (h3 : returnFull s (engineOf d ctx cls) = false) :
    (mcOf (awake s (memRequest d ctx cls a write copy data tag s)) (chan / 32)).issued = (mcOf s (chan / 32)).issued ++ [{ ctx := ctx, cls := cls, write := write, chan := chan, page := page, off := off, data := data, copy := copy, tag := tag, die := d }] ∧ (write = false → (awake s (memRequest d ctx cls a write copy data tag s)).responses = s.responses ++ [{ eng := engineOf d ctx cls, tag := tag, status := .waiting, data := [] }]) := by
  rw [awake_eq _ h1]
  unfold memRequest
  rw [h3, h2]
  refine ⟨?_, fun hw => ?_⟩
  · cases write <;> simp [mcOf_modMc_self] <;> rfl
  · subst hw; simp [respond]

theorem memRequestMiss_effect (d ctx cls a : Nat) (write copy : Bool) (data : List Byte) (tag : Nat) (p : Nat) (s : State) (h1 : isAwake s = true) (h2 : lookup s d (a / 64 * 64) = .miss p) (h3 : returnFull s (engineOf d ctx cls) = false) :
    (awake s (memRequest d ctx cls a write copy data tag s)).responses = s.responses ++ [{ eng := engineOf d ctx cls, tag := tag, status := .addrFault, data := [] }] ∧ getF (awake s (memRequest d ctx cls a write copy data tag s)) MEMCTL_ADDR_FAULT_CNT p = (getF s MEMCTL_ADDR_FAULT_CNT p + 1) % 2 ^ 32 := by
  rw [awake_eq _ h1]
  unfold memRequest
  rw [h3, h2]
  simp only [Bool.false_eq_true, if_false]
  dsimp only [respond, noteMiss, addrFault]
  refine ⟨by simp, ?_⟩
  show getF (setEvt _ _ _) _ _ = _
  rw [getF_setEvt_apart (by decide), getF_incr_self _ _ _ (by decide)]

theorem weirAdmit_effect (m p dt : Nat) (q : MemReq) (rest : List MemReq) (s : State) (h1 : stopped s = false) (h2 : domOn s (64 + m) = true) (h3 : isF (weirTick m dt 16 s) MEMCTL_CTRL_MODE m = true) (h4 : takeFirst (fun q => decide (q.cls < 8) && partOf (weirTick m dt 16 s) m q == p && memArrived (weirTick m dt 16 s) q) (mcOf (weirTick m dt 16 s) m).issued = some (q, rest)) (h5 : q.chan / 32 = m) (h6 : slRoom (weirTick m dt 16 s) q.chan = true) (h7 : 256 ≤ weirLevel (weirTick m dt 16 s) m p) (h8 : weirLevel (weirTick m dt 16 s) m p < 16777216) :
    (mcOf (runningIn (64 + m) s (weirAdmit m p dt s)) m).issued = rest ∧ weirLevel (runningIn (64 + m) s (weirAdmit m p dt s)) m p = weirLevel (weirTick m dt 16 s) m p - 256 ∧ (sluiceOf (runningIn (64 + m) s (weirAdmit m p dt s)) q.chan).queue.length = (sluiceOf (weirTick m dt 16 s) q.chan).queue.length + 1 := by
  rw [runningIn_eq _ _ h1 h2]
  unfold weirAdmit
  dsimp only
  generalize weirTick m dt 16 s = t at *
  rw [if_pos h3, h4]
  dsimp only
  rw [h6, if_neg (by decide), if_pos h7]
  refine ⟨by simp [setWeirLevel, memEnter, slEnter, h5], ?_, ?_⟩
  · unfold weirLevel setWeirLevel
    simp only [getFk_modMc, mcOf_modMc_self, Store.get_put_self]
    rw [getFk_setFk_self _ _ _ _ _ (by decide)]
    show (getFk t WEIR_LVL m p * 256 + (mcOf t m).frac.get 0 p - 256) / 256 % 65536 * 256 +
      (getFk t WEIR_LVL m p * 256 + (mcOf t m).frac.get 0 p - 256) % 256 = getFk t WEIR_LVL m p * 256 + (mcOf t m).frac.get 0 p - 256
    unfold weirLevel at h8
    omega
  · simp [setWeirLevel, memEnter, slEnter]

theorem redirect_congr {s t : State} {chan page off : Nat} (h1 : (mcOf t (chan / 32)).pages = (mcOf s (chan / 32)).pages)
    (h2 : (mcOf t (chan / 32)).rows = (mcOf s (chan / 32)).rows) : redirect t chan page off = redirect s chan page off := by
  unfold redirect
  simp only [h1, h2]

theorem memRead_effect (chan : Nat) (ecc : Ecc) (q : MemReq) (rest : List MemReq) (k : Nat) (s : State) (h1 : stopped s = false) (h2 : domOn s (64 + chan / 32) = true) (h3 : takeServed (fun q => q.chan == chan && !q.write && !q.scrub) (mcOf s (chan / 32)).serving = some (q, rest)) (h4 : redirect s chan q.page q.off = some k) (h5 : s.poison.get false (k / 64) = false) (h6 : ecc = .clean) :
    (runningIn (64 + chan / 32) s (memReadDone chan ecc s)).responses = fillResp q.eng q.tag .ok (dramRead64 s k) s.responses ∧ (mcOf (runningIn (64 + chan / 32) s (memReadDone chan ecc s)) (chan / 32)).serving = rest := by
  rw [runningIn_eq _ _ h1 h2]
  unfold memReadDone
  dsimp only
  rw [h3]
  dsimp only
  rw [redirect_congr (s := s) (by simp) (by simp), h4]
  dsimp only
  subst h6
  rw [show (modMc (chan / 32) (fun x => { x with serving := rest }) s).poison = s.poison from rfl, h5, if_neg (by decide)]
  dsimp only
  refine ⟨rfl, ?_⟩
  exact congrArg Mc.serving (mcOf_modMc_self s (chan / 32) fun x => { x with serving := rest })

theorem memWrite_effect (chan : Nat) (q : MemReq) (rest : List MemReq) (k : Nat) (s : State) (h1 : stopped s = false) (h2 : domOn s (64 + chan / 32) = true) (h3 : takeServed (fun q => q.chan == chan && q.write) (mcOf s (chan / 32)).serving = some (q, rest)) (h4 : redirect s chan q.page q.off = some k) (h5 : q.data.length = 64) :
    dramRead64 (runningIn (64 + chan / 32) s (memWriteDone chan s)) k = q.data ∧ (∀ j, j < k ∨ k + 64 ≤ j → Store.get (0 : Byte) (runningIn (64 + chan / 32) s (memWriteDone chan s)).mem j = Store.get (0 : Byte) s.mem j) ∧ (runningIn (64 + chan / 32) s (memWriteDone chan s)).poison.get false (k / 64) = false ∧ (runningIn (64 + chan / 32) s (memWriteDone chan s)).responses = s.responses ++ [{ eng := q.eng, tag := q.tag, status := .ok, data := [] }] := by
  rw [runningIn_eq _ _ h1 h2]
  unfold memWriteDone
  dsimp only
  rw [h3]
  dsimp only
  rw [redirect_congr (s := s) (by simp) (by simp), h4]
  dsimp only
  have e : (q.data.take 64) = q.data := List.take_of_length_le (by omega)
  unfold dramWrite
  dsimp only
  rw [if_pos (by omega), e]
  refine ⟨?_, fun j hj => ?_, ?_, rfl⟩
  · unfold dramRead64 respond setPoison
    have := Store.getAll_putAll_self (d := (0 : Byte)) q.data k s.mem
    rw [h5] at this
    exact this
  · exact Store.get_putAll_of_not_mem q.data k s.mem (by omega)
  · unfold respond setPoison
    dsimp only
    rw [Store.get_put_self]

/-- The PENDING register shows and nothing else. -/
theorem getF_showPending (i : Nat) (s : State) (g : Fld) (j : Nat) (h1 : apart MEMCTL_PENDING_ROWS g = true)
    (h2 : apart MEMCTL_PENDING_REMAP_USED g = true) : getF (showPending i s) g j = getF s g j := by
  unfold showPending
  rw [getF_setF_apart h1, getF_setF_apart h2]

theorem mcOf_showPending (i j : Nat) (s : State) : mcOf (showPending i s) j = mcOf s j := rfl

/-- The ladder's rungs move no register field but PENDING, PARKED and PAGE_LOST_CNT. -/
theorem getF_startRetire (chan row : Nat) (s : State) (g : Fld) (j : Nat) (h1 : apart MEMCTL_PAGE_LOST_CNT g = true)
    (h3 : apart (pendFld 3) g = true) : getF (startRetire chan row s) g j = getF s g j := by
  unfold startRetire
  dsimp only
  split
  · rfl
  · rw [getF_memEvt, getF_setEvt_apart h3, getF_incr_apart h1]; rfl

theorem getF_startRemap (chan row : Nat) (s : State) (g : Fld) (j : Nat) (h1 : apart MEMCTL_PAGE_LOST_CNT g = true)
    (h3 : apart (pendFld 3) g = true) : getF (startRemap chan row s) g j = getF s g j := by
  unfold startRemap
  dsimp only
  split
  · split
    · rfl
    · exact getF_startRetire _ _ _ _ _ h1 h3
  · exact getF_startRetire _ _ _ _ _ h1 h3

theorem getF_cancelRepair (chan row : Nat) (s : State) (g : Fld) (j : Nat) (h : apart MEMCTL_STAT_PARKED g = true) :
    getF (cancelRepair chan row s) g j = getF s g j := by
  unfold cancelRepair
  dsimp only
  split
  · split
    · rw [getF_setF_apart h]; rfl
    · rfl
  · rfl

/-- A field that the ladder of a row does not move: every one but those of PENDING, ROW_FAIL_CNT, PAGE_LOST_CNT, PARKED and EVT_PEND. -/
def ladderApart (g : Fld) : Bool :=
  apart MEMCTL_PAGE_LOST_CNT g && apart MEMCTL_PENDING_ROWS g && apart MEMCTL_PENDING_REMAP_USED g && apart MEMCTL_ROW_FAIL_CNT g
    && apart MEMCTL_STAT_PARKED g && apart (pendFld 3) g

theorem getF_rowFail (chan row : Nat) (s : State) (g : Fld) (j : Nat) (h : ladderApart g = true) :
    getF (rowFail chan row s) g j = getF s g j := by
  unfold ladderApart at h
  simp only [Bool.and_eq_true, and_assoc] at h
  obtain ⟨h1, h2, h3, h4, h5, h6⟩ := h
  have e : getF (setEvt MEMCTL_EV_ROW_FAIL (chan / 32) (incr MEMCTL_ROW_FAIL_CNT (chan / 32) s)) g j = getF s g j := by
    rw [getF_setEvt_apart h6, getF_incr_apart h4]
  unfold rowFail
  dsimp only
  split
  · exact e
  · rw [getF_showPending _ _ _ _ h2 h3]
    split
    · exact e
    · rw [getF_startRemap _ _ _ _ _ h1 h6, getF_cancelRepair _ _ _ _ _ h5]; exact e
    · rw [getF_startRemap _ _ _ _ _ h1 h6]; exact e
    · rw [getF_startRetire _ _ _ _ _ h1 h6]; exact e
    · exact e

theorem getF_eccUncorr (chan row cls : Nat) (s : State) (g : Fld) (j : Nat) (h : ladderApart g = true)
    (h3 : apart (pendFld 3) g = true)
    (h5 : apart MEMCTL_UE_CNT g = true) (h6 : apart MEMCTL_ERR_INFO_CHAN g = true) (h7 : apart MEMCTL_ERR_INFO_ROW g = true)
    (h8 : apart MEMCTL_ERR_INFO_CLASS g = true) : getF (eccUncorr chan row cls s) g j = getF s g j := by
  unfold eccUncorr
  dsimp only
  rw [getF_rowFail _ _ _ _ _ h, getF_memEvt]
  split
  · rw [getF_setEvt_apart h3, getF_incr_apart h5]
  · rw [getF_setF_apart h6, getF_setF_apart h7, getF_setF_apart h8, getF_modMc, getF_setEvt_apart h3, getF_incr_apart h5]

theorem getF_eccCorrect (chan row : Nat) (again : Bool) (s : State) (g : Fld) (j : Nat) (h : ladderApart g = true)
    (h3 : apart (pendFld 3) g = true) (h5 : apart MEMCTL_CE_CNT g = true) : getF (eccCorrect chan row again s) g j = getF s g j := by
  unfold eccCorrect
  dsimp only
  split
  · rw [getF_rowFail _ _ _ _ _ h, getF_setEvt_apart h3, getF_incr_apart h5]
  · rw [getF_setEvt_apart h3, getF_incr_apart h5]

/-- A scrubbed access does not move SCRUB_PASS. -/
theorem getF_scrubbed (chan page off : Nat) (ecc : Ecc) (written : Bool) (s : State) (j : Nat) :
    getF (scrubbed chan page off ecc written s) MEMCTL_SCRUB_PASS j = getF s MEMCTL_SCRUB_PASS j := by
  have eu : ∀ c (x : State), getF (eccUncorr chan (4 * page + off / 1024) c x) MEMCTL_SCRUB_PASS j = getF x MEMCTL_SCRUB_PASS j :=
    fun c x => getF_eccUncorr _ _ _ _ _ _ (by decide) (by decide) (by decide) (by decide) (by decide) (by decide)
  unfold scrubbed
  dsimp only
  split
  · rfl
  · split
    · exact eu _ _
    · split
      · rfl
      · unfold readCorrected
        rw [getF_eccCorrect _ _ _ _ _ _ (by decide) (by decide) (by decide)]
        split <;> rfl
      · exact (eu _ _).trans rfl

theorem scrubRead_effect (m chan page off : Nat) (ecc : Ecc) (written passEnd : Bool) (q : MemReq) (rest : List MemReq) (s : State) (h1 : stopped s = false) (h2 : domOn s (64 + m) = true) (h3 : isF s MEMCTL_CTRL_SCRUB_EN m = true) (h4 : isF s MEMCTL_CTRL_EN m = true) (h5 : chan / 32 = m) (h6 : passEnd = true) (h7 : takeFirst (fun q => q.scrub && q.chan == chan && q.page == page && q.off == off) (mcOf s m).serving = some (q, rest)) :
    getF (runningIn (64 + m) s (scrubRead m chan page off ecc written passEnd s)) MEMCTL_SCRUB_PASS m = (getF s MEMCTL_SCRUB_PASS m + 1) % 2 ^ 32 := by
  rw [runningIn_eq _ _ h1 h2]
  have hc : (isF s MEMCTL_CTRL_SCRUB_EN m && isF s MEMCTL_CTRL_EN m && chan / 32 == m) = true := by simp [h3, h4, h5]
  unfold scrubRead
  dsimp only
  rw [if_pos hc, h7]
  dsimp only
  rw [if_pos h6, getF_incr_self _ _ _ (by decide), getF_scrubbed]
  rfl

theorem remapCopyDone_effect (m : Nat) (bad : List Nat) (c : LadderCopy) (rest : List LadderCopy) (src : Nat) (s : State) (h1 : stopped s = false) (h2 : domOn s (64 + m) = true) (h3 : takeFirst (fun c => !c.retire && c.stage == 2) (mcOf s m).copies = some (c, rest)) (h4 : c.chan / 32 = m) (h5 : redirect s c.chan (c.row / 4) (c.row % 4 * 1024) = some src) :
    (mcOf (runningIn (64 + m) s (remapCopyDone m bad s)) m).rows.get .fresh (rowKey c.chan c.row) = .remapped c.target ∧ (mcOf (runningIn (64 + m) s (remapCopyDone m bad s)) m).copies = rest ∧ getF (runningIn (64 + m) s (remapCopyDone m bad s)) MEMCTL_REMAP_CNT m = (getF s MEMCTL_REMAP_CNT m + 1) % 2 ^ 32 := by
  rw [runningIn_eq _ _ h1 h2]
  unfold remapCopyDone
  rw [h3]
  subst h4
  dsimp only
  rw [h5]
  dsimp only
  refine ⟨?_, ?_, ?_⟩
  · simp [setRow, mcOf_showPending]
  · simp [setRow, mcOf_showPending]
  · rw [getF_memEvt, getF_setEvt_apart (by decide), getF_incr_self _ _ _ (by decide), getF_showPending _ _ _ _ (by decide) (by decide)]
    rfl

theorem retireCopyDone_effect (m : Nat) (bad : List Nat) (c : LadderCopy) (rest : List LadderCopy) (s : State) (h1 : stopped s = false) (h2 : domOn s (64 + m) = true) (h3 : takeFirst (fun c => c.retire && c.stage == 2) (mcOf s m).copies = some (c, rest)) (h4 : c.chan / 32 = m) :
    (mcOf (runningIn (64 + m) s (retireCopyDone m bad s)) m).pages.get .live (pageKey c.chan (c.row / 4)) = .retired c.target ∧ (mcOf (runningIn (64 + m) s (retireCopyDone m bad s)) m).rows.get .fresh (rowKey c.chan c.row) = .retired c.target ∧ (mcOf (runningIn (64 + m) s (retireCopyDone m bad s)) m).copies = rest := by
  rw [runningIn_eq _ _ h1 h2]
  unfold retireCopyDone
  rw [h3]
  subst h4
  refine ⟨?_, ?_, ?_⟩ <;> simp [setRow, mcOf_showPending]

theorem retrainDue_effect (m ch : Nat) (s : State) (h1 : stopped s = false) (h2 : domOn s (64 + m) = true) (h3 : isF s MEMCTL_CTRL_RETRAIN_EN m = true) (h4 : isF s MEMCTL_CTRL_EN m = true) (h5 : isF s MEMCTL_STAT_RETRAINING m = false) (h6 : isF s MEMCTL_STAT_PARKED m = false) (h7 : (mcOf s m).due = []) :
    getF (runningIn (64 + m) s (retrainDue m ch s)) MEMCTL_STAT_RETRAINING m = 1 ∧ getF (runningIn (64 + m) s (retrainDue m ch s)) MEMCTL_STAT_RT_CH m = ch % 32 := by
  rw [runningIn_eq _ _ h1 h2]
  unfold retrainDue
  rw [if_pos (by simp [h3, h4])]
  have ed : (mcOf (fallDue m (ch % 32) s) m).due = [ch % 32] := by simp [fallDue, h7]
  have ei : ∀ g, isF (fallDue m (ch % 32) s) g m = isF s g m := fun _ => rfl
  unfold startDue
  rw [if_pos (by simp [ei, h3, h4, h5, h6]), ed]
  dsimp only
  refine ⟨getF_setF_self _ _ _ _ (by decide), ?_⟩
  rw [getF_setF_apart (by decide), getF_setF_self _ _ _ _ (by decide)]
  exact Nat.mod_mod _ _

/-- A hold begins, or nothing does: no field but RETRAINING and RT_CH moves. -/
theorem getF_startDue (m : Nat) (s : State) (g : Fld) (j : Nat) (h1 : apart MEMCTL_STAT_RETRAINING g = true)
    (h2 : apart MEMCTL_STAT_RT_CH g = true) : getF (startDue m s) g j = getF s g j := by
  unfold startDue
  split
  · split
    · rfl
    · rw [getF_setF_apart h1, getF_setF_apart h2, getF_modMc]
  · rfl

theorem startDue_trained (m : Nat) (s : State) : (mcOf (startDue m s) m).trained = (mcOf s m).trained := by
  unfold startDue
  split
  · split
    · rfl
    · simp
  · rfl

theorem startDue_none {m : Nat} {s : State} (h : (mcOf s m).due = []) : startDue m s = s := by
  unfold startDue
  rw [h]
  split <;> rfl

theorem retrainDone_effect (m : Nat) (s : State) (h1 : stopped s = false) (h2 : domOn s (64 + m) = true) (h3 : isF s MEMCTL_STAT_RETRAINING m = true) :
    (mcOf (runningIn (64 + m) s (retrainDone m s)) m).trained.get 0 (getF s MEMCTL_STAT_RT_CH m) = getF s MEMCTL_STAT_TEMP m + 1 ∧ getF (runningIn (64 + m) s (retrainDone m s)) MEMCTL_RETRAIN_CNT m = (getF s MEMCTL_RETRAIN_CNT m + 1) % 2 ^ 32 ∧ ((∀ ch ∈ (mcOf s m).due, ch = getF s MEMCTL_STAT_RT_CH m) → getF (runningIn (64 + m) s (retrainDone m s)) MEMCTL_STAT_RETRAINING m = 0) := by
  rw [runningIn_eq _ _ h1 h2]
  unfold retrainDone
  rw [if_pos h3]
  dsimp only
  refine ⟨?_, ?_, fun hd => ?_⟩
  · rw [startDue_trained, mcOf_modMc_self]
    dsimp only
    rw [Store.get_put_self]
  · rw [getF_startDue _ _ _ _ (by decide) (by decide), getF_modMc, getF_incr_self _ _ _ (by decide), getF_setF_apart (by decide)]
  · rw [startDue_none, getF_modMc, getF_incr_apart (by decide), getF_setF_self _ _ _ _ (by decide)]
    · rfl
    · rw [mcOf_modMc_self]
      exact List.filter_eq_nil_iff.2 fun ch hc => by simpa using hd ch hc

theorem retrainTimeout_effect (m : Nat) (s : State) (h1 : stopped s = false) (h2 : domOn s (64 + m) = true) (h3 : isF s MEMCTL_STAT_RETRAINING m = true) :
    (getF (runningIn (64 + m) s (retrainTimeout m s)) (pendFld 3) m).testBit MEMCTL_EV_TRAIN_FAIL.bit = true ∧ ((mcOf s m).due = [] → getF (runningIn (64 + m) s (retrainTimeout m s)) MEMCTL_STAT_RETRAINING m = 0) := by
  rw [runningIn_eq _ _ h1 h2]
  unfold retrainTimeout
  rw [if_pos h3]
  refine ⟨?_, fun hd => ?_⟩
  · rw [getF_startDue _ _ _ _ (by decide) (by decide)]
    exact testBit_setEvt _ _ _ (by decide) (by decide)
  · rw [startDue_none (by simpa using hd), getF_setEvt_apart (by decide), getF_setF_self _ _ _ _ (by decide)]
    rfl

theorem maint_effect (h : Nat) (s : State) (h1 : stopped s = false) (h2 : cmdReady s h 0x52 = true) (h3 : s.window = none) :
    (running s (maint h s)).window = some { handle := h, budgetMs := argOf (entryOf s h) 0 % 2 ^ 32 } := by
  rw [running_eq _ h1]
  unfold maint
  rw [runCmd_ready h2]
  simp only [modSlot, modCtx_window, h3]
  rfl

theorem setTurn_window (h : Nat) (b : Bool) (s : State) : (setTurn h b s).window = s.window := rfl

theorem maintWindowStart_effect (w : Window) (s : State) (h1 : isAwake s = true) (h2 : s.window = some w) (h3 : w.started = false) (h4 : anyOpen s 16 = false) :
    (awake s (maintWindowStart s)).window = some { w with started := true } := by
  rw [awake_eq _ h1]
  unfold maintWindowStart
  rw [h2]
  dsimp only
  rw [if_pos (by simp [h3, h4])]
  exact (startRepairs_keeps (Has.refl _) 16 (Keeps.refl _ _)).window (by decide)

theorem getF_startRepair (m : Nat) (g : Fld) (j : Nat) (h1 : apart MEMCTL_PAGE_LOST_CNT g = true)
    (h2 : apart MEMCTL_PENDING_ROWS g = true) (h3 : apart (pendFld 3) g = true) (h4 : apart MEMCTL_PENDING_REMAP_USED g = true) :
    ∀ (k : Nat) (s : State), getF (startRepair m k s) g j = getF s g j
  | 0, _ => rfl
  | k + 1, s => by
    unfold startRepair
    split
    · dsimp only
      split
      · rfl
      · split
        · rw [getF_modMc]
        · rw [getF_startRepair m g j h1 h2 h3 h4 k, getF_showPending _ _ _ _ h2 h4, getF_startRemap _ _ _ _ _ h1 h3]
    · rfl

theorem startRepair_window (m k : Nat) (s : State) : (startRepair m k s).window = s.window :=
  (startRepair_keeps (Has.refl _) m k (Keeps.refl _ s)).window (by decide)

theorem rowsBack_window (chan page src n : Nat) (s : State) : (rowsBack chan page src n s).window = s.window :=
  (rowsBack_keeps (Has.refl _) chan page src n (Keeps.refl _ s)).window (by decide)

theorem getF_rowsBack (chan page src : Nat) (s : State) (g : Fld) (j : Nat) : ∀ n, getF (rowsBack chan page src n s) g j = getF s g j
  | 0 => rfl
  | n + 1 => by
    unfold rowsBack
    dsimp only
    split <;> exact getF_rowsBack chan page src s g j n

theorem fieldRepairDone_effect (m : Nat) (spareLeft : Bool) (bad : List Nat) (chan row page : Nat) (s : State) (h1 : stopped s = false) (h2 : domOn s (64 + m) = true) (h3 : (mcOf s m).repair = some (chan, row, page)) (h4 : spareLeft = true) (h5 : (mcOf s m).repStage = 2) :
    getF (runningIn (64 + m) s (fieldRepairDone m spareLeft bad s)) MEMCTL_FIELD_REP_CNT m = (getF s MEMCTL_FIELD_REP_CNT m + 1) % 2 ^ 32 ∧ (runningIn (64 + m) s (fieldRepairDone m spareLeft bad s)).window = s.window.map fun w => { w with repairs := w.repairs + 1 } := by
  rw [runningIn_eq _ _ h1 h2]
  subst h4
  unfold fieldRepairDone
  rw [h3]
  dsimp only
  rw [if_neg (by simp [h5]), if_pos rfl]
  have key : ∀ x : State, getF x MEMCTL_FIELD_REP_CNT m = (getF s MEMCTL_FIELD_REP_CNT m + 1) % 2 ^ 32 ∧
      x.window = (s.window.map fun w => { w with repairs := w.repairs + 1 }) →
      getF (match x.window with | some w => if w.started && !w.expired then startRepair m (mcOf x m).rows.length x else x | none => x)
        MEMCTL_FIELD_REP_CNT m = (getF s MEMCTL_FIELD_REP_CNT m + 1) % 2 ^ 32 ∧
      (match x.window with | some w => if w.started && !w.expired then startRepair m (mcOf x m).rows.length x else x | none => x).window =
        s.window.map fun w => { w with repairs := w.repairs + 1 } := fun x hx => by
    split
    · split
      · exact ⟨(getF_startRepair _ _ _ (by decide) (by decide) (by decide) (by decide) _ _).trans hx.1,
          (startRepair_window _ _ _).trans hx.2⟩
      · exact hx
    · exact hx
  generalize hx : startDue m _ = x
  refine key x ?_
  subst hx
  refine ⟨?_, ?_⟩
  · rw [getF_startDue _ _ _ _ (by decide) (by decide), getF_showPending _ _ _ _ (by decide) (by decide)]
    unfold rowRepaired
    dsimp only
    rw [getF_memEvt, getF_incr_self _ _ _ (by decide)]
    refine congrArg (fun x => (x + 1) % 2 ^ 32) ?_
    have e : ∀ x : State, getF (oneRepair x) MEMCTL_FIELD_REP_CNT m = getF x MEMCTL_FIELD_REP_CNT m := fun _ => rfl
    simp only [setRow, getF_modMc, e]
    rw [getF_setF_apart (by decide), getF_modMc, getF_rowsBack]
    rfl
  · rw [(startDue_keeps (Has.refl _) m (Keeps.refl _ _)).window (by decide)]
    rw [(showPending_keeps (Has.refl _) m (Keeps.refl _ _)).window (by decide)]
    generalize hx : setF MEMCTL_STAT_PARKED m 0 _ = x
    have ex : x.window = s.window := by
      subst hx
      rw [setF_window, modMc_window, rowsBack_window]
      rfl
    simp [rowRepaired, oneRepair, setRow, ex]

theorem maintWindowEnd_effect (ms : Nat) (w : Window) (s : State) (h1 : isAwake s = true) (h2 : s.window = some w) (h3 : w.started = true) (h4 : repairing s 16 = false) (h5 : w.budgetMs ≤ ms) :
    (awake s (maintWindowEnd ms s)).window = none ∧ (awake s (maintWindowEnd ms s)).reports = s.reports ++ [{ handle := w.handle, status := 0, r0 := w.repairs, r1 := pendingRows s 16 }] := by
  rw [awake_eq _ h1]
  unfold maintWindowEnd
  rw [h2]
  dsimp only
  rw [if_pos h3]
  have e1 : ∀ n (v : Option Window), repairing { s with window := v } n = repairing s n := fun n v => by
    induction n with
    | zero => rfl
    | succ n ih => simp only [repairing, ih]; rfl
  have e2 : ∀ n (v : Option Window), pendingRows { s with window := v } n = pendingRows s n := fun n v => by
    induction n with
    | zero => rfl
    | succ n ih => simp only [pendingRows, ih]; rfl
  rw [if_neg (by rw [e1, h4]; decide), if_pos (by simp [h5])]
  simp [e2]

theorem parkStall_effect (m : Nat) (s : State) (h1 : stopped s = false) (h2 : domOn s (64 + m) = true) (h3 : isF s MEMCTL_STAT_PARKED m = true) (h4 : (mcOf s m).stalled = false) (h5 : waitsOn s (m * 32 + getF s MEMCTL_STAT_PK_CH m) = true) :
    getF (runningIn (64 + m) s (parkStall m s)) MEMCTL_PARK_STALL_CNT m = (getF s MEMCTL_PARK_STALL_CNT m + 1) % 2 ^ 32 ∧ (mcOf (runningIn (64 + m) s (parkStall m s)) m).stalled = true := by
  rw [runningIn_eq _ _ h1 h2]
  unfold parkStall
  rw [if_pos (by simp [h3, h4, h5])]
  refine ⟨?_, by simp⟩
  rw [getF_setEvt_apart (by decide), getF_incr_self _ _ _ (by decide)]
  rfl

theorem anySpan_modCtx (c : Nat) (f : Ctx → Ctx) (s : State) (d : Nat) : ∀ n, anySpan (modCtx c f s) d n = anySpan s d n
  | 0 => rfl
  | n + 1 => by simp only [anySpan, anySpan_modCtx c f s d n]; rfl

theorem memrecImport_effect (h : Nat) (recd : List Byte) (s : State) (h1 : isAwake s = true) (h2 : cmdReady s h 0x50 = true) (h3 : (anySpan s 0 256 || anySpan s 1 256 || anySpan s 2 256 || anySpan s 3 256) = false) (h4 : 16 + 8 * leVal (recd.take 4) ≤ recd.length) (h5 : crc32c ((recd.drop 16).take (8 * leVal (recd.take 4))) = leVal ((recd.drop 8).take 4)) (h6 : recd.length ≤ argOf (entryOf s h) 1) :
    (awake s (memrecImport h recd s)).reports = s.reports ++ [{ handle := h, status := 0, r0 := leVal (recd.take 4), r1 := 0 }] := by
  rw [awake_eq _ h1]
  unfold memrecImport
  rw [runCmd_ready h2]
  have et : recd.take (argOf (entryOf s h) 1) = recd := List.take_of_length_le h6
  simp only [modSlot, anySpan_modCtx, h3, et]
  rw [if_neg (by decide), if_neg (by omega)]
  have := (loadEntries_keeps (Has.refl _) (leVal (recd.take 4)) (recd.drop 16) (Keeps.refl _ (modCtx (hCtx h) (fun x =>
    { x with slots := x.slots.upd {} (hSlot h) (fun x => { x with running := true }) }) s))).reports (by decide)
  rw [report_reports, this]
  rfl

theorem repairRecord_modCtx (c : Nat) (f : Ctx → Ctx) (s : State) : repairRecord (modCtx c f s) = repairRecord s := by
  have : ∀ n, recordEntries (modCtx c f s) n = recordEntries s n := fun n => by
    induction n with
    | zero => rfl
    | succ n ih => simp only [recordEntries, ih]; rfl
  unfold repairRecord
  rw [this]

theorem memrecExport_effect (h : Nat) (s : State) (h1 : isAwake s = true) (h2 : cmdReady s h 0x51 = true) (h3 : (repairRecord s).length ≤ argOf (entryOf s h) 1) :
    Store.getAll (0 : Byte) (awake s (memrecExport h s)).hmem (argOf (entryOf s h) 0) (repairRecord s).length = repairRecord s ∧ (∀ j, j < argOf (entryOf s h) 0 ∨ argOf (entryOf s h) 0 + (repairRecord s).length ≤ j → Store.get (0 : Byte) (awake s (memrecExport h s)).hmem j = Store.get (0 : Byte) s.hmem j) ∧ (awake s (memrecExport h s)).reports = s.reports ++ [{ handle := h, status := 0, r0 := (repairRecord s).length, r1 := 0 }] := by
  rw [awake_eq _ h1]
  unfold memrecExport
  rw [runCmd_ready h2]
  simp only [modSlot, repairRecord_modCtx]
  rw [if_neg (by omega)]
  refine ⟨?_, fun j hj => ?_, by simp⟩
  · simp only [report_hmem, hostWrite_hmem, modCtx_hmem]
    exact Store.getAll_putAll_self ..
  · simp only [report_hmem, hostWrite_hmem, modCtx_hmem]
    exact Store.get_putAll_of_not_mem _ _ _ hj

end Sys2Proof.Machine
end

