-- ==== Sys2Proof/Laws/EffectsPower.lean ====
section
/-! SUPPORT. What the commands do: the commands of power. -/

namespace Sys2Proof.Machine

set_option linter.unusedSimpArgs false

theorem getF_memEvt_any (m kind chan row : Nat) (s : State) (g : Fld) (i : Nat) : getF (memEvt m kind chan row s) g i = getF s g i := by
  unfold memEvt jrnWide; split <;> rfl

theorem getF_fallDues (m t : Nat) (s : State) (g : Fld) (i : Nat) : ∀ n, getF (fallDues m t n s) g i = getF s g i
  | 0 => rfl
  | n + 1 => by
    unfold fallDues
    dsimp only
    split <;> exact getF_fallDues m t s g i n

theorem getF_dueChannels (m t : Nat) (s : State) (g : Fld) (i : Nat) (h1 : apart MEMCTL_STAT_RETRAINING g = true)
    (h2 : apart MEMCTL_STAT_RT_CH g = true) : getF (dueChannels m t s) g i = getF s g i := by
  unfold dueChannels
  rw [getF_startDue _ _ _ _ h1 h2, getF_fallDues]

/-- The refresh interval follows the temperature, and nothing else of the stack's status does (R330). -/
theorem refreshRate_spec (m t : Nat) (s : State) :
    isF (refreshRate m t s) MEMCTL_STAT_REF_X2 m = (if 85 ≤ t then true else if t ≤ 83 then false else isF s MEMCTL_STAT_REF_X2 m) ∧
    (∀ g, apart MEMCTL_STAT_REF_X2 g = true → ∀ i, getF (refreshRate m t s) g i = getF s g i) := by
  unfold refreshRate
  dsimp only
  split
  · next h => exact ⟨by rw [if_pos h.1]; unfold isF; rw [getF_memEvt_any, getF_setF_self _ _ _ _ (by decide)]; rfl,
      fun g hg i => by rw [getF_memEvt_any, getF_setF_apart hg]⟩
  · next h =>
    split
    · next h2 => exact ⟨by rw [if_neg (by omega), if_pos h2.1]; unfold isF; rw [getF_memEvt_any, getF_setF_self _ _ _ _ (by decide)]; rfl,
        fun g hg i => by rw [getF_memEvt_any, getF_setF_apart hg]⟩
    · next h2 =>
      refine ⟨?_, fun _ _ _ => rfl⟩
      cases hb : isF s MEMCTL_STAT_REF_X2 m <;> simp [hb] at h h2 ⊢ <;> omega

theorem stackTempSample_effect (m t : Nat) (s : State) (h1 : stopped s = false) (h2 : domOn s (64 + m) = true) (h3 : m < 16) :
    getF (runningIn (64 + m) s (stackTempSample m t s)) MEMCTL_STAT_TEMP m = t % 256 ∧ isF (runningIn (64 + m) s (stackTempSample m t s)) MEMCTL_STAT_REF_X2 m = (if 85 ≤ t then true else if t ≤ 83 then false else isF s MEMCTL_STAT_REF_X2 m) ∧ isF (runningIn (64 + m) s (stackTempSample m t s)) MEMCTL_STAT_THROTTLE m = (isF s MEMCTL_STAT_THROTTLE m || decide (getF s MEMCTL_THERM_THROTTLE_C m ≤ t)) := by
  rw [runningIn_eq _ _ h1 h2]
  unfold stackTempSample
  rw [if_neg (by omega)]
  dsimp only
  obtain ⟨a, b⟩ := refreshRate_spec m t (setF MEMCTL_STAT_TEMP m t s)
  generalize hx : refreshRate m t (setF MEMCTL_STAT_TEMP m t s) = x at a b
  have ht : getF x MEMCTL_STAT_TEMP m = t % 256 := by rw [b _ (by decide)]; exact getF_setF_self _ _ _ _ (by decide)
  have hth : getF x MEMCTL_THERM_THROTTLE_C m = getF s MEMCTL_THERM_THROTTLE_C m := by rw [b _ (by decide), getF_setF_apart (by decide)]
  have hst : isF x MEMCTL_STAT_THROTTLE m = isF s MEMCTL_STAT_THROTTLE m := by unfold isF; rw [b _ (by decide), getF_setF_apart (by decide)]
  have ha : isF x MEMCTL_STAT_REF_X2 m = (if 85 ≤ t then true else if t ≤ 83 then false else isF s MEMCTL_STAT_REF_X2 m) := by
    rw [a]; unfold isF; rw [getF_setF_apart (by decide)]
  have hd := fun g i => getF_dueChannels m t x g i
  generalize dueChannels m t x = y at hd
  have d1 : getF y MEMCTL_STAT_TEMP m = t % 256 := (hd _ _ (by decide) (by decide)).trans ht
  have d2 : getF y MEMCTL_THERM_THROTTLE_C m = getF s MEMCTL_THERM_THROTTLE_C m := (hd _ _ (by decide) (by decide)).trans hth
  have d3 : isF y MEMCTL_STAT_THROTTLE m = isF s MEMCTL_STAT_THROTTLE m := by unfold isF at *; rw [hd _ _ (by decide) (by decide), hst]
  have d4 : isF y MEMCTL_STAT_REF_X2 m = isF x MEMCTL_STAT_REF_X2 m := by unfold isF; rw [hd _ _ (by decide) (by decide)]
  rw [d3, d2]
  split
  · next h =>
    refine ⟨?_, ?_, ?_⟩
    · rw [getF_memEvt_any, getF_setEvt_apart (by decide), getF_setF_apart (by decide), d1]
    · rw [← ha, ← d4]; unfold isF; rw [getF_memEvt_any, getF_setEvt_apart (by decide), getF_setF_apart (by decide)]
    · rw [decide_eq_true h.1, Bool.or_true]; unfold isF; rw [getF_memEvt_any, getF_setEvt_apart (by decide), getF_setF_self _ _ _ _ (by decide)]; rfl
  · next h =>
    refine ⟨d1, by rw [d4, ha], ?_⟩
    rw [d3]
    by_cases k : getF s MEMCTL_THERM_THROTTLE_C m ≤ t
    · cases hh : isF s MEMCTL_STAT_THROTTLE m
      · exact absurd ⟨k, by rw [hh]; rfl⟩ h
      · rfl
    · rw [decide_eq_false k, Bool.or_false]

/-- A region's step follows the step in force; nothing else's step moves (R579). -/
theorem takeStep_spec (rg : Nat) (s : State) :
    getFk (takeStep rg s) THERM_REGION_TSTEP 0 rg = (stepInForce s rg).1 % 8 ∧ (takeStep rg s).pow = s.pow ∧
    (∀ j, j % 32 ≠ rg % 32 → getFk (takeStep rg s) THERM_REGION_TSTEP 0 j = getFk s THERM_REGION_TSTEP 0 j) := by
  have e : ∀ x rg st ca k g i j, getFk (thermEvt rg st ca k x) g i j = getFk x g i j := fun x rg st ca k g i j => by
    unfold thermEvt jrnWide; split <;> rfl
  have e2 : ∀ f n (x : State) j, fldIn f = true → f ≠ THERM_REGION_TSTEP →
      getFk (addF f 0 n x) THERM_REGION_TSTEP 0 j = getFk x THERM_REGION_TSTEP 0 j := fun f n x j h1 h2 => by
    unfold addF addFk; exact getFk_setFk_fld h1 (by decide) h2 _ _
  have e3 : ∀ (v : Evt) (x : State) j, v.page = 14 →
      getFk (setEvt v 0 x) THERM_REGION_TSTEP 0 j = getFk x THERM_REGION_TSTEP 0 j := fun v x j h => by
    exact getFk_setEvt_fld (e := v) (g := THERM_REGION_TSTEP) (by rw [h]; decide) (by decide) (by rw [h]; decide) _ _ _ _
  have key : ∀ j, getFk (takeStep rg s) THERM_REGION_TSTEP 0 j =
      getFk (setFk THERM_REGION_TSTEP 0 rg (stepInForce s rg).1 (setFk THERM_REGION_CAUSE 0 rg (stepInForce s rg).2 s)) THERM_REGION_TSTEP 0 j := fun j => by
    unfold takeStep
    dsimp only
    (repeat' split) <;> simp only [e, e2 THERM_STEP_DOWN _ _ _ (by decide) (by decide), e2 THERM_STEP_UP _ _ _ (by decide) (by decide),
      e3 THERM_EV_THROTTLE _ _ rfl, e3 THERM_EV_LOWEST _ _ rfl]
  refine ⟨?_, (takeStep_keeps (Has.refl _) rg (Keeps.refl _ s)).pow (by decide), fun j hj => ?_⟩
  · rw [key, getFk_setFk_self _ _ _ _ _ (by decide)]
    rfl
  · rw [key, getFk_setFk_off _ _ _ _ _ _ _ _ (by show (_ + 4 * (_ % 32)) % 4096 ≠ (_ + 4 * (_ % 32)) % 4096; simp only [show THERM_REGION_TSTEP.off = 0x100 from rfl]; omega),
      getFk_setFk_fld (by decide) (by decide) (by decide)]

theorem stepInForce_pow {s t : State} (h : t.pow = s.pow) (rg : Nat) : stepInForce t rg = stepInForce s rg := by
  unfold stepInForce; rw [h]

/-- Every region of a list takes the step in force. -/
theorem takeSteps_spec : ∀ (l : List Nat) (s : State), l.Nodup → (∀ x ∈ l, x < 32) →
    (∀ rg ∈ l, getFk (takeSteps l s) THERM_REGION_TSTEP 0 rg = (stepInForce s rg).1 % 8) ∧ (takeSteps l s).pow = s.pow ∧
    (∀ j, j < 32 → j ∉ l → getFk (takeSteps l s) THERM_REGION_TSTEP 0 j = getFk s THERM_REGION_TSTEP 0 j)
  | [], s, _, _ => ⟨fun _ h => absurd h List.not_mem_nil, rfl, fun _ _ _ => rfl⟩
  | a :: l, s, hn, hl => by
    obtain ⟨ha, hn'⟩ := List.nodup_cons.1 hn
    have a32 := hl a List.mem_cons_self
    obtain ⟨p, q, r⟩ := takeSteps_spec l (takeStep a s) hn' (fun x hx => hl x (List.mem_cons_of_mem _ hx))
    obtain ⟨p1, q1, r1⟩ := takeStep_spec a s
    refine ⟨fun rg hrg => ?_, q.trans q1, fun j hj h => ?_⟩
    · rcases List.mem_cons.1 hrg with rfl | hrg
      · rw [takeSteps, r _ a32 ha, p1]
      · rw [takeSteps, p _ hrg, stepInForce_pow q1]
    · rw [List.mem_cons, not_or] at h
      rw [takeSteps, r j hj h.2, r1 j (by omega)]

theorem regionTempSample_effect (rg t : Nat) (s : State) (h1 : s.inReset = none) (h2 : getF s PWR_STAT_STATE 0 ≠ 2) (h3 : rg < 32) (h4 : s.brk.stopped.contains (5 + 2 * (rg / 8)) = false) :
    (pairsUp s (pairRuns (5 + 2 * (rg / 8)) s (regionTempSample rg t s))).pow.own.get {} rg = (s.pow.own.get {} rg).next (decide (getF s THERM_CFG_THR_C 0 ≤ t)) (decide (t ≤ getF s THERM_CFG_THR_C 0 - getF s THERM_CFG_HYST_C 0)) ∧ getFk (pairsUp s (pairRuns (5 + 2 * (rg / 8)) s (regionTempSample rg t s))) THERM_REGION_TSTEP 0 rg = (stepInForce (pairsUp s (pairRuns (5 + 2 * (rg / 8)) s (regionTempSample rg t s))) rg).1 % 8 ∧ getFk (pairsUp s (pairRuns (5 + 2 * (rg / 8)) s (regionTempSample rg t s))) THERM_REGION_TEMP 0 rg = t % 256 := by
  rw [pairsUp_eq _ h1 h2]
  unfold pairRuns
  rw [h4, if_neg (by decide)]
  unfold regionTempSample
  rw [if_neg (by omega)]
  dsimp only
  generalize hx : ({ setFk THERM_REGION_TEMP 0 rg t s with pow := _ } : State) = x
  obtain ⟨a, b, -⟩ := takeStep_spec rg x
  refine ⟨?_, by rw [a, stepInForce_pow b], ?_⟩
  · rw [b, ← hx]
    dsimp only
    exact Store.get_upd_self ({} : Throttle) _ _ _
  · have k := (takeStep_keeps (Has.refl _) rg (Keeps.refl _ x)).getFk reg_THERM_REGION_TEMP (by decide) 0 rg
    rw [k, ← hx]
    show getFk (setFk THERM_REGION_TEMP 0 rg t s) THERM_REGION_TEMP 0 rg = _
    exact getFk_setFk_self THERM_REGION_TEMP _ _ _ _ (by decide)

theorem powerSample_effect (w : Nat) (s : State) (h1 : s.inReset = none) (h2 : getF s PWR_STAT_STATE 0 ≠ 2) (h3 : s.brk.stopped.contains 3 = false) :
    getF (pairsUp s (pairRuns 3 s (powerSample w s))) PWR_POWER 0 = w % 2 ^ 12 ∧ (pairsUp s (pairRuns 3 s (powerSample w s))).pow.cap = s.pow.cap.next (decide (getF s PWR_CAP 0 < w)) (decide (100 * w ≤ 95 * getF s PWR_CAP 0)) ∧ ∀ rg < 32, getFk (pairsUp s (pairRuns 3 s (powerSample w s))) THERM_REGION_TSTEP 0 rg = (stepInForce (pairsUp s (pairRuns 3 s (powerSample w s))) rg).1 % 8 := by
  rw [pairsUp_eq _ h1 h2]
  unfold pairRuns
  rw [h3, if_neg (by decide)]
  unfold powerSample
  dsimp only
  generalize hx : ({ setF PWR_POWER 0 w s with pow := _ } : State) = x
  obtain ⟨a, b, -⟩ := takeSteps_spec (List.range 32) x List.nodup_range (fun y hy => List.mem_range.1 hy)
  refine ⟨?_, by rw [b, ← hx]; rfl, fun rg h => by rw [a rg (List.mem_range.2 h), stepInForce_pow b]⟩
  have k := (takeSteps_keeps (Has.refl _) (List.range 32) (Keeps.refl _ x)).getFk reg_PWR_POWER (by decide) 0 0
  unfold getF
  rw [k, ← hx]
  show getFk (setFk PWR_POWER 0 0 w s) PWR_POWER 0 0 = _
  exact getFk_setFk_self PWR_POWER _ _ _ _ (by decide)

theorem stackThrottleStep_effect (m : Nat) (s : State) (h1 : stopped s = false) (h2 : domOn s (64 + m) = true) (h3 : m < 16) (h4 : isF s MEMCTL_STAT_THROTTLE m = true) (h5 : s.brk.stopped.contains (5 + 2 * (m / 4)) = false) :
    (runningIn (64 + m) s (pairRuns (5 + 2 * (m / 4)) s (stackThrottleStep m s))).pow.stack.get {} m = (s.pow.stack.get {} m).next (decide (getF s MEMCTL_THERM_THROTTLE_C m ≤ getF s MEMCTL_STAT_TEMP m)) (decide (getF s MEMCTL_STAT_TEMP m ≤ getF s MEMCTL_THERM_THROTTLE_C m - getF s MEMCTL_THERM_HYST_C m)) ∧ ∀ rg ∈ regionsUnder m, getFk (runningIn (64 + m) s (pairRuns (5 + 2 * (m / 4)) s (stackThrottleStep m s))) THERM_REGION_TSTEP 0 rg = (stepInForce (runningIn (64 + m) s (pairRuns (5 + 2 * (m / 4)) s (stackThrottleStep m s))) rg).1 % 8 := by
  rw [runningIn_eq _ _ h1 h2]
  unfold pairRuns
  rw [h5, if_neg (by decide)]
  unfold stackThrottleStep
  rw [if_neg (by rw [h4]; simp; omega)]
  dsimp only
  generalize hx : Throttle.next _ _ _ = x
  have hp : ∀ (p : Prop) [Decidable p] (y z : State), z.pow = y.pow → (if p then z else y).pow = y.pow := fun p _ y z h => by split; exact h; rfl
  have hm : ∀ f v (y : State) a b c d, (memEvt a b c d (setF f m v y)).pow = y.pow := fun f v y a b c d => by
    unfold memEvt jrnWide; split <;> rfl
  have hn : (regionsUnder m).Nodup := by simp [regionsUnder]
  have hl : ∀ x ∈ regionsUnder m, x < 32 := by simp [regionsUnder]; omega
  refine ⟨?_, fun rg h => by rw [(takeSteps_spec (regionsUnder m) _ hn hl).1 rg h, stepInForce_pow (takeSteps_spec (regionsUnder m) _ hn hl).2.1]⟩
  rw [(takeSteps_spec (regionsUnder m) _ hn hl).2.1, hp _ _ _ (hm _ _ _ _ _ _ _)]
  exact Store.get_put_self (d := ({} : Throttle)) ..

theorem droopStretch_effect (d : Nat) (s : State) (h1 : stopped s = false) (h2 : d < 4) :
    getFk (running s (droopStretch d s)) PWR_STRETCH_CNT 0 d = (getFk s PWR_STRETCH_CNT 0 d + 1) % 2 ^ 32 := by
  rw [running_eq _ h1]
  unfold droopStretch
  rw [if_pos h2]
  unfold addFk
  exact (getFk_setFk_self PWR_STRETCH_CNT 0 d _ s (by decide)).trans (Nat.mod_mod _ _)

theorem railDip_effect (r mv : Nat) (l : Nat × Nat × Nat) (s : State) (h1 : s.inReset = none) (h2 : railLevels r = some l) (h3 : mv < l.1) (h4 : railDipped s r = false) :
    (outOfReset s (railDip r mv s)).pow.dips = s.pow.dips ++ [{ rail := r }] ∧ getF (outOfReset s (railDip r mv s)) PWR_STAT_DIP 0 = 1 ∧ getF (outOfReset s (railDip r mv s)) PWR_STAT_RAIL 0 = r ∧ getFk (outOfReset s (railDip r mv s)) PWR_RAIL_MIN 0 r = mv % 2 ^ 16 ∧ getF (outOfReset s (railDip r mv s)) PWR_DIP_CNT 0 = (getF s PWR_DIP_CNT 0 + 1) % 2 ^ 32 ∧ evtSet (outOfReset s (railDip r mv s)) PWR_EV_DIP 0 = true := by
  rw [outOfReset_eq _ h1]
  unfold railDip
  rw [h2]
  dsimp only
  rw [if_pos ⟨h3, by rw [h4]; rfl⟩]
  have hr : r < 16 := by
    unfold railLevels at h2
    repeat' split at h2
    all_goals first | omega | cases h2
  refine ⟨by simp, ?_, ?_, ?_, ?_, evtSet_setEvt (by decide) _ _⟩
  · rw [getF_setEvt_apart (by decide), getF_incr_apart (by decide)]
    unfold getF
    rw [getFk_setFk_fld (by decide) (by decide) (by decide)]
    show getF _ _ _ = _
    rw [getF_setF_apart (by decide), getF_setF_self _ _ _ _ (by decide)]
    rfl
  · rw [getF_setEvt_apart (by decide), getF_incr_apart (by decide)]
    unfold getF
    rw [getFk_setFk_fld (by decide) (by decide) (by decide)]
    show getF _ _ _ = _
    rw [getF_setF_self _ _ _ _ (by decide)]
    exact Nat.mod_eq_of_lt hr
  · rw [getFk_setEvt_fld (e := PWR_EV_DIP) (by decide) (by decide) (by decide), incr, addF, addFk, getFk_setFk_fld (by decide) (by decide) (by decide)]
    exact getFk_setFk_self _ _ _ _ _ (by decide)
  · rw [getF_setEvt_apart (by decide), getF_incr_self _ _ _ (by decide)]
    unfold getF
    rw [getFk_setFk_fld (by decide) (by decide) (by decide)]
    show (getF _ _ _ + 1) % _ = _
    rw [getF_setF_apart (by decide), getF_setF_apart (by decide)]
    rfl

theorem railRecover_effect (r mv us : Nat) (d : Dip) (s : State) (h1 : stopped s = false) (h2 : (s.pow.dips.find? fun d => d.rail == r) = some d) :
    (outOfReset s (railRecover r mv us s)).pow.dips = (s.pow.dips.filter fun x => x.rail != r) ∧ getF (outOfReset s (railRecover r mv us s)) PWR_STAT_HOLDOFF 0 = 1 ∧ getFk (outOfReset s (railRecover r mv us s)) PWR_RAIL_MIN 0 r = mv % 2 ^ 16 ∧ ∃ n f, (outOfReset s (railRecover r mv us s)).pow.supply = s.pow.supply ++ [{ rail := r, minMv := mv, durUs := us, tiles := n, fails := f }] := by
  rw [outOfReset_eq _ (by simp only [stopped, Bool.or_eq_false_iff] at h1; simpa using h1.1.2)]
  unfold railRecover
  rw [h2]
  dsimp only
  generalize hx : setF PWR_STAT_HOLDOFF 0 1 _ = x
  have hs : stopped x = false := by
    rw [← hx, ← h1]
    unfold stopped isF
    simp (disch := decide) only [getF_setF_apart]
    unfold getF
    rw [getFk_setFk_fld (by decide) (by decide) (by decide), getFk_setFk_fld (by decide) (by decide) (by decide)]
    rfl
  rw [if_neg (by rw [hs]; decide)]
  have hh : getFk x PWR_STAT_HOLDOFF 0 0 = 1 := by rw [← hx]; exact getFk_setFk_self _ _ _ _ _ (by decide)
  have hm : getFk x PWR_RAIL_MIN 0 r = mv % 2 ^ 16 := by
    rw [← hx, setF, setF, getFk_setFk_fld (by decide) (by decide) (by decide), getFk_setFk_fld (by decide) (by decide) (by decide)]
    exact getFk_setFk_self _ _ _ _ _ (by decide)
  have hp : x.pow = { s.pow with dips := s.pow.dips.filter fun x => x.rail != r } := by rw [← hx]; rfl
  clear hx
  have k1 := verifyBlks_keeps (Has.refl _) (windowBlks x d) (Keeps.refl _ x)
  generalize hy : verifyBlks (windowBlks x d) x = y at k1 ⊢
  obtain ⟨t, f, y⟩ := y
  have k2 := verifyTwin_keeps (Has.refl _) d.tiles (Keeps.refl _ y)
  generalize hz : verifyTwin d.tiles y = z at k2 ⊢
  obtain ⟨t2, f2, z⟩ := z
  dsimp only at k1 k2 ⊢
  refine ⟨?_, ?_, ?_, t + t2, f + f2, ?_⟩
  · rw [k2.pow (by decide), k1.pow (by decide), hp]
  · exact (k2.getFk reg_PWR_STAT_HOLDOFF (by decide) 0 0).trans ((k1.getFk reg_PWR_STAT_HOLDOFF (by decide) 0 0).trans hh)
  · exact (k2.getFk reg_PWR_RAIL_MIN (by decide) 0 r).trans ((k1.getFk reg_PWR_RAIL_MIN (by decide) 0 r).trans hm)
  · rw [k2.pow (by decide), k1.pow (by decide), hp]

theorem jrnOnList_ctxs {s t : State} (h1 : t.ctxs = s.ctxs) (h2 : t.regs = s.regs) : ∀ n, jrnOnList t n = jrnOnList s n
  | 0 => rfl
  | n + 1 => by
    unfold jrnOnList
    rw [jrnOnList_ctxs h1 h2 n]
    have : jrnOn t n = jrnOn s n := by simp only [jrnOn, ctxOf, getFk, h1, h2]
    rw [this]

theorem supplyEvt_effect (x : Supply) (rest : List Supply) (s : State) (h1 : stopped s = false) (h2 : s.pow.supply = x :: rest) (h3 : jrnOnList s 16 ≠ []) :
    (running s (supplyEvt s)).pow.supply = rest ∧ (running s (supplyEvt s)).jwide = s.jwide ++ [(⟨0x50, srcHub, leBytes 4 (wideStep s) ++ leBytes 1 (x.rail + 16) ++ leBytes 1 0 ++ leBytes 2 x.minMv ++ leBytes 4 x.durUs ++ leBytes 2 (min 65535 x.tiles) ++ leBytes 2 x.fails⟩, jrnOnList s 16)] := by
  rw [running_eq _ h1]
  unfold supplyEvt
  rw [h2]
  dsimp only
  unfold jrnWide
  have e : jrnOnList { s with pow := { s.pow with supply := rest } } 16 = jrnOnList s 16 := jrnOnList_ctxs rfl rfl 16
  rw [e, if_neg h3]
  exact ⟨rfl, rfl⟩

theorem holdoffEnd_effect (ms : Nat) (s : State) (h1 : s.inReset = none) (h2 : 10 ≤ ms) (h3 : s.pow.dips = []) :
    getF (outOfReset s (holdoffEnd ms s)) PWR_STAT_HOLDOFF 0 = 0 := by
  rw [outOfReset_eq _ h1]
  unfold holdoffEnd
  rw [if_pos ⟨h2, by rw [h3]; rfl⟩]
  exact getF_setF_self _ _ _ _ (by decide)

end Sys2Proof.Machine
end

