-- ==== Sys2Proof/Laws/EffectsRegisters.lean ====
section
/-! SUPPORT. What the commands do: the commands of registers. -/

namespace Sys2Proof.Machine

set_option linter.unusedSimpArgs false

/-- What follows from a write moves no read-write field. -/
theorem getFk_writeFollow_rw {g : Fld} (hg : fldIn g = true) (ha : g.acc = .rw) {l : Nat} (t i o j : Nat) (s : State) :
    getFk (writeFollow t i o s) g j l = getFk s g j l := by
  unfold writeFollow
  split
  · exact getFk_cqDrain_rw hg ha ..
  · split
    · dsimp only; split <;> rfl
    · split
      · exact getFk_setFk_fld (f := TUNIT_STAT_LEND) (by decide) hg (ne_of_acc ha (by decide)) _ _
      · rfl

/-- What a write settles before it moves no register field. -/
theorem writeBefore_regs (v t i o : Nat) (s : State) : (writeBefore v t i o s).regs = s.regs := by
  have k : ∀ n (s : State), (keepUrgent i n s).regs = s.regs := fun n => by
    induction n with
    | zero => exact fun _ => rfl
    | succ n ih => exact fun s => (ih s)
  unfold writeBefore
  split
  · exact k _ _
  · rfl

theorem stepIsOpen_congr {s t : State} (c : Nat) (h : t.ctxs = s.ctxs) : stepIsOpen t c = stepIsOpen s c := by
  unfold stepIsOpen ctxOf; rw [h]

theorem writeBefore_ctxs (v t i o : Nat) (s : State) : (writeBefore v t i o s).ctxs = s.ctxs := by
  have k : ∀ n (s : State), (keepUrgent i n s).ctxs = s.ctxs := fun n => by
    induction n with
    | zero => exact fun _ => rfl
    | succ n ih => exact fun s => (ih s)
  unfold writeBefore
  split
  · exact k _ _
  · rfl

theorem crossOk_congr {s t : State} (p i o v : Nat) (h1 : t.regs = s.regs) (h2 : t.ctxs = s.ctxs) : crossOk t p i o v = crossOk s p i o v := by
  have e : ∀ c, stepIsOpen t c = stepIsOpen s c := fun c => stepIsOpen_congr c h2
  have eg : ∀ f j, getF t f j = getF s f j := fun f j => by unfold getF getFk; rw [h1]
  unfold crossOk
  simp only [e, eg]

theorem getFk_afterWrite_rw {g : Fld} (hg : fldIn g = true) (ha : g.acc = .rw) {l : Nat} (t i o j : Nat) (s : State) :
    getFk (afterWrite t i o s) g j l = getFk s g j l := by
  have st := fun v (x : State) => getFk_setFk_fld (f := LINK_STAT_STATE) (by decide) hg (ne_of_acc ha (by decide)) (i := i) (j := j) (l := l) v x (k := 0)
  unfold afterWrite
  split
  · split
    · next h => exact getFk_setFk_fld (f := WEIR_LVL) (by decide) hg (ne_of_acc ha (by decide)) _ _
    · rfl
  · split
    · unfold heldToDown
      split
      · split <;> exact st ..
      · rfl
    · split
      · unfold leaveOff
        split
        · exact st ..
        · rfl
      · rfl
  · rfl

theorem regWrite_effect (r : Requester) (a v : Nat) (t i o : Nat) (s : State) (h1 : a % 4 = 0) (h2 : target s r a = some (t, i, o)) (h3 : gate s r t i o = .pass) (h4 : lockedWrite s t o = false) (h5 : 0x28 ≤ o ∨ o = 0x10) (h6 : (rangesOk (writtenWord s t i o (v % 2 ^ 32)) (fldsAt t o) && crossOk s t i o (writtenWord s t i o (v % 2 ^ 32))) = true) :
    ∀ e ∈ fldsAt t o, e.1.acc = .rw → e.1.own = false → getFk (regWrite r a v 4 s) e.1 i e.2 = bits (writtenWord s t i o (v % 2 ^ 32)) e.1.lo e.1.w := by
  intro e he ha ho
  obtain ⟨hin, -⟩ := fldsAt_in he
  have n1 : ¬ o = 0xC := by omega
  have n2 : ¬ o = 0x1C := by omega
  have n3 : ¬ (o < 0x28 ∧ o ≠ 0x10) := by omega
  have e2 : two32 = 2 ^ 32 := rfl
  simp only [regWrite, write32, guarded, if_pos h1, h2, h3, if_true, regStore, h4, Bool.false_eq_true, if_false, e2]
  rw [getFk_writeFollow_rw hin ha]
  rw [← crossOk_congr t i o _ (writeBefore_regs (v % 2 ^ 32) t i o s) (writeBefore_ctxs (v % 2 ^ 32) t i o s)] at h6
  simp only [writeWord, n1, n2, n3, if_false, h6, if_true]
  rw [getFk_afterWrite_rw hin ha]
  exact getFk_writeFlds he ha ho _

theorem evtPendClear_effect (r : Requester) (a v raised : Nat) (t i : Nat) (s : State) (h1 : a % 4 = 0) (h2 : target s r a = some (t, i, 0x18)) (h3 : t ≠ 11) (h4 : gate s r t i 0x18 = .pass) :
    ∀ b < 32, (getF (evtPendClear r a v raised s) (pendFld t) i).testBit b = (((getF s (pendFld t) i).testBit b && !v.testBit b) || ((raised ||| stillRaised s t i) &&& evtMask t).testBit b) := by
  intro b hb
  have e : ∀ n, getF (clearPend t i v n s) (pendFld t) i =
      ((getF s (pendFld t) i ^^^ (getF s (pendFld t) i &&& v)) ||| (n &&& evtMask t)) % 2 ^ 32 := fun n => by
    unfold clearPend
    dsimp only
    split
    · rw [getF_signalPage]; exact getF_setF_self _ _ _ _ (Nat.le_refl 32)
    · exact getF_setF_self _ _ _ _ (Nat.le_refl 32)
  unfold evtPendClear guarded
  rw [if_pos h1, h2]
  dsimp only
  rw [h4]
  simp only [pendWrite, if_pos, if_neg h3, e, Nat.testBit_mod_two_pow, hb, Nat.testBit_or, Nat.testBit_xor, Nat.testBit_and]
  cases (getF s (pendFld t) i).testBit b <;> cases v.testBit b <;> simp

theorem evtForce_effect (r : Requester) (a v : Nat) (t i : Nat) (s : State) (h1 : a % 4 = 0) (h2 : target s r a = some (t, i, 0x20)) (h3 : t ≠ 11) (h4 : gate s r t i 0x20 = .pass) :
    getF (evtForce r a v s) (pendFld t) i = (getF s (pendFld t) i ||| (v &&& evtMask t)) % 2 ^ 32 := by
  unfold evtForce guarded
  rw [if_pos h1, h2]
  dsimp only
  rw [h4]
  simp only [forceWrite, if_pos, if_neg h3]
  exact getF_pend_self ..

theorem errInfoClear_effect (r : Requester) (a v : Nat) (t i o : Nat) (s : State) (h1 : a % 4 = 0) (h2 : target s r a = some (t, i, o)) (h3 : gate s r t i o = .pass) (h4 : isErrReg t o = true) :
    ∀ e ∈ fldsAt t o, getFk (errInfoClear r a v s) e.1 i e.2 = fldReset e.1 i % 2 ^ e.1.w := by
  intro e he
  unfold errInfoClear guarded
  rw [if_pos h1, h2]
  dsimp only
  rw [h3]
  simp only [errWrite, if_pos h4]
  exact getFk_clearFlds he _

@[simp] theorem rcClear_out (i inc : Nat) : ∀ (r : List (Fld × Nat)) (s : State), (rcClear i inc r s).out = s.out
  | [], _ => rfl
  | (f, k) :: r, s => by rw [rcClear, rcClear_out i inc r]; split <;> rfl

theorem rcRead_effect (r : Requester) (a inc : Nat) (t i o : Nat) (s : State) (h1 : target s r a = some (t, i, o)) (h2 : isLo t o = false) (h3 : s.hiLatch.get 0 (latchKey r t i o) = 0) (h4 : domOn s (pageDomain t i) = true) :
    (rcRead r a inc s).out = s.out ++ [.regRead (readReg s r t i o)] ∧ ∀ e ∈ fldsAt t o, e.1.acc = .rc → getFk (rcRead r a inc s) e.1 i e.2 = if inc = 0 then 0 else 1 := by
  unfold rcRead busRead
  rw [h1]
  dsimp only
  simp only [h2, h3, h4, if_pos, Bool.false_eq_true, ite_false, ne_eq, not_true_eq_false]
  refine ⟨by simp [emit], fun e he ha => ?_⟩
  simp only [getFk_emit]
  exact getFk_rcClear he ha s

theorem loReadLatch_effect (r : Requester) (a : Nat) (t i o : Nat) (s : State) (h1 : target s r a = some (t, i, o)) (h2 : isLo t o = true) :
    (loReadLatch r a s).out = s.out ++ [.regRead (readReg s r t i o)] ∧ (loReadLatch r a s).hiLatch.get 0 (latchKey r t i (o + 4)) = readReg s r t i (o + 4) + 1 := by
  unfold loReadLatch busRead
  rw [h1]
  dsimp only
  simp only [h2, if_pos]
  refine ⟨by simp [emit], ?_⟩
  simp only [emit_hiLatch]
  exact Store.get_put_self (0 : Nat) _ _ _

end Sys2Proof.Machine
end

