-- ==== Sys2Proof/Laws/EffectsSluice.lean ====
section
/-! SUPPORT. What the commands do: the commands of sluice. -/

namespace Sys2Proof.Machine

set_option linter.unusedSimpArgs false

theorem slNow_modSluice (k : Nat) (f : Sluice → Sluice) (n : Nat) (s : State) : slNow (modSluice k f s) n = slNow s n := rfl

theorem slNow_slTick (n dt : Nat) (s : State) : slNow (slTick n dt s) n = (slNow s n + dt) % 2 ^ 16 := by
  unfold slNow slTick
  rw [getF_setF_self _ _ _ _ (by decide)]
  exact Nat.mod_mod _ _

/-- A tick changes nothing of a Sluice but the wraps of its page's NOW. -/
theorem sluiceOf_slTick (n dt : Nat) (s : State) (k : Nat) :
    sluiceOf (slTick n dt s) k = { sluiceOf s k with laps := (sluiceOf (slTick n dt s) k).laps } := by
  have e : sluiceOf (slTick n dt s) k =
    sluiceOf (modSluice (slHome n) (fun x => { x with laps := x.laps + (slNow s n + dt) / 65536 }) s) k := rfl
  rw [e]
  by_cases h : slHome n = k
  · subst h; rw [sluiceOf_modSluice_self]
  · rw [sluiceOf_modSluice_ne _ h]

theorem slTick_queue (n dt : Nat) (s : State) (k : Nat) : (sluiceOf (slTick n dt s) k).queue = (sluiceOf s k).queue := by
  rw [sluiceOf_slTick]

theorem slTick_granted (n dt : Nat) (s : State) (k : Nat) : (sluiceOf (slTick n dt s) k).granted = (sluiceOf s k).granted := by
  rw [sluiceOf_slTick]

/-- The Sluice's clock counts on through the wraps of NOW. -/
theorem slClock_slTick (n dt : Nat) (s : State) : slClock (slTick n dt s) n = slClock s n + dt := by
  unfold slClock
  rw [slNow_slTick]
  have e : sluiceOf (slTick n dt s) (slHome n) =
    sluiceOf (modSluice (slHome n) (fun x => { x with laps := x.laps + (slNow s n + dt) / 65536 }) s) (slHome n) := rfl
  rw [e, sluiceOf_modSluice_self]
  dsimp only
  omega

theorem slRoom_slTick (n dt : Nat) (s : State) (k : Nat) : slRoom (slTick n dt s) k = slRoom s k := by
  unfold slRoom; rw [slTick_queue]

theorem getFk_slTick_budget (n dt : Nat) (s : State) (i k : Nat) :
    getFk (slTick n dt s) SLUICE_REQ_CFG_BUDGET i k = getFk s SLUICE_REQ_CFG_BUDGET i k :=
  getFk_setFk_fld (f := SLUICE_NOW) (by decide) (by decide) (by decide) _ _

theorem sluiceEnter_effect (n r op acc dt : Nat) (key budget : Nat) (s : State) (h1 : stopped s = false) (h2 : domOn s (sluiceDomain n) = true) (h3 : 536 ≤ n) (h4 : n < 538) (h5 : slRoom s n = true) (h6 : hubOp (slTick n dt s) n (r % 32) op = some (key, budget)) (h7 : hubHas s n (r % 32) key = false) :
    (sluiceOf (runningIn (sluiceDomain n) s (sluiceEnter n r op acc dt s)) n).queue = (sluiceOf s n).queue ++ [{ r := r % 32, d := ((slNow s n + dt) % 2 ^ 16 + min budget 16384) % 2 ^ 16, entered := slClock s n + dt, beats := 1, pay := .op key }] ∧ slNow (runningIn (sluiceDomain n) s (sluiceEnter n r op acc dt s)) n = (slNow s n + dt) % 2 ^ 16 := by
  rw [runningIn_eq _ _ h1 h2]
  have e : slRoom (slTick n dt s) n = true := by rw [slRoom_slTick]; exact h5
  have eh : hubHas (slTick n dt s) n (r % 32) key = false := by
    unfold hubHas hubGranted at h7 ⊢
    rw [slTick_granted, slTick_queue]; exact h7
  unfold sluiceEnter enterSluice
  rw [if_neg (by omega), if_neg (by omega), if_pos h4]
  unfold hubEnter
  rw [h6]
  dsimp only
  rw [e, eh, if_pos (by rfl)]
  unfold slEnter
  refine ⟨?_, ?_⟩
  · simp only [sluiceOf_modSluice_self, slNow_slTick, slTick_queue, slClock_slTick]
    rfl
  · rw [slNow_modSluice, slNow_slTick]

theorem sluiceEnterMem_effect (n r op acc dt : Nat) (q : MemReq) (rest : List MemReq) (s : State) (h1 : stopped s = false) (h2 : domOn s (sluiceDomain n) = true) (h3 : n < 512) (h4 : takeFirst (fun q => q.chan == n && memArrived (slTick n dt s) q && (!isF s MEMCTL_CTRL_MODE (n / 32) || decide (8 ≤ q.cls))) (mcOf s (n / 32)).issued = some (q, rest)) (h5 : q.chan = n) (h6 : slRoom s n = true) :
    (mcOf (runningIn (sluiceDomain n) s (sluiceEnter n r op acc dt s)) (n / 32)).issued = rest ∧ ∃ e, (sluiceOf (runningIn (sluiceDomain n) s (sluiceEnter n r op acc dt s)) n).queue = (sluiceOf s n).queue ++ [e] ∧ e.pay = .mem q ∧ e.entered = slClock s n + dt := by
  rw [runningIn_eq _ _ h1 h2]
  have e : slRoom (slTick n dt s) n = true := by rw [slRoom_slTick]; exact h6
  have em : isF (slTick n dt s) MEMCTL_CTRL_MODE (n / 32) = isF s MEMCTL_CTRL_MODE (n / 32) := by
    unfold isF slTick; rw [getF_setF_apart (by decide)]; rfl
  have ei : (mcOf (slTick n dt s) (n / 32)) = mcOf s (n / 32) := rfl
  unfold sluiceEnter enterSluice
  rw [if_pos h3]
  unfold memSluiceEnter
  dsimp only
  rw [em, ei, h4]
  dsimp only
  rw [if_pos e]
  unfold memEnter slEnter
  subst h5
  refine ⟨by simp, _, by simp only [sluiceOf_modSluice_self, sluiceOf_modMc, slTick_queue]; rfl, rfl, slClock_slTick ..⟩

/-- Serving a request takes it out of the queue, and a decision makes its requester the last one served. -/
theorem slServe_spec {n r : Nat} {fresh : Bool} {ok : SlReq → Bool} {q : SlReq} {rest : List SlReq} {s : State}
    (h : takeFirst (fun x => x.r == r && ok x) (sluiceOf s n).queue = some (q, rest)) :
    ∃ t, slServe n r fresh ok s = some (q, t) ∧ (sluiceOf t n).queue = rest ∧ (fresh = true → (sluiceOf t n).last = r) ∧
      (sluiceOf t n).granted = (sluiceOf s n).granted ∧ t.mcs = s.mcs := by
  unfold slServe
  rw [h]
  refine ⟨_, rfl, ?_⟩
  have e : ∀ (x : State), sluiceOf (slCount n q x) n = sluiceOf x n := fun x => rfl
  have em : ∀ (x : State), (slCount n q x).mcs = x.mcs := fun x => rfl
  rw [e, em]
  cases fresh <;> simp

theorem sluiceGrant_effect (n dt : Nat) (r : Nat) (fresh : Bool) (q : SlReq) (rest : List SlReq) (k : Nat) (s : State) (h1 : stopped s = false) (h2 : domOn s (sluiceDomain n) = true) (h3 : 536 ≤ n) (h4 : n < 538) (h5 : slNext (slTick n dt s) n false (fun _ => true) = some (r, fresh)) (h6 : takeFirst (fun x => x.r == r && true) (sluiceOf s n).queue = some (q, rest)) (h7 : q.pay = .op k) :
    (sluiceOf (runningIn (sluiceDomain n) s (sluiceGrant n dt s)) n).queue = rest ∧ (fresh = true → (sluiceOf (runningIn (sluiceDomain n) s (sluiceGrant n dt s)) n).last = r) ∧ (sluiceOf (runningIn (sluiceDomain n) s (sluiceGrant n dt s)) n).granted = (sluiceOf s n).granted ++ [(q.r, k)] := by
  rw [runningIn_eq _ _ h1 h2]
  unfold sluiceGrant grantSluice
  rw [if_neg (by omega), if_neg (by omega), if_pos h4]
  unfold hubSluiceGrant
  rw [h5]
  rw [← slTick_queue n dt s n] at h6
  obtain ⟨t, e, a, b, c, _⟩ := slServe_spec (fresh := fresh) h6
  rw [slTick_granted] at c
  dsimp only
  rw [e]
  dsimp only
  unfold hubMayStart
  rw [h7]
  dsimp only
  rw [sluiceOf_modSluice_self]
  exact ⟨a, b, by rw [c]⟩

theorem sluiceGrantMem_effect (n dt : Nat) (r : Nat) (fresh : Bool) (q : SlReq) (rest : List SlReq) (x : MemReq) (s : State) (h1 : stopped s = false) (h2 : domOn s (sluiceDomain n) = true) (h3 : n < 512) (h4 : chanHeld s n = false) (h5 : slNext (slTick n dt s) n (!isF s MEMCTL_CTRL_MODE (n / 32)) (memReady (slTick n dt s) n) = some (r, fresh)) (h6 : takeFirst (fun x => x.r == r && memReady (slTick n dt s) n x) (sluiceOf s n).queue = some (q, rest)) (h7 : q.pay = .mem x) :
    (sluiceOf (runningIn (sluiceDomain n) s (sluiceGrant n dt s)) n).queue = rest ∧ (mcOf (runningIn (sluiceDomain n) s (sluiceGrant n dt s)) (n / 32)).serving = (mcOf s (n / 32)).serving ++ [x] := by
  rw [runningIn_eq _ _ h1 h2]
  have g : ∀ (f : Fld) (i : Nat), apart SLUICE_NOW f = true → getF (slTick n dt s) f i = getF s f i := fun f i h => by
    unfold slTick; rw [getF_setF_apart h]; rfl
  unfold sluiceGrant grantSluice
  rw [if_pos h3]
  unfold memSluiceGrant
  have hh : chanHeld (slTick n dt s) n = chanHeld s n := by
    unfold chanHeld isF
    simp only [g _ _ (by decide : apart SLUICE_NOW MEMCTL_STAT_RETRAINING = true), g _ _ (by decide : apart SLUICE_NOW MEMCTL_STAT_RT_CH = true),
      g _ _ (by decide : apart SLUICE_NOW MEMCTL_STAT_PARKED = true), g _ _ (by decide : apart SLUICE_NOW MEMCTL_STAT_PK_CH = true)]
  rw [hh, h4, if_neg (by decide)]
  have em : isF (slTick n dt s) MEMCTL_CTRL_MODE (n / 32) = isF s MEMCTL_CTRL_MODE (n / 32) := by
    unfold isF; rw [g _ _ (by decide)]
  rw [em, h5]
  rw [← slTick_queue n dt s n] at h6
  obtain ⟨t, e, a, _, _, d⟩ := slServe_spec (fresh := fresh) h6
  dsimp only
  rw [e]
  dsimp only
  unfold memGranted
  rw [h7]
  dsimp only
  have em : mcOf t (n / 32) = mcOf s (n / 32) := by unfold mcOf; rw [d]; rfl
  refine ⟨a, ?_⟩
  rw [mcOf_modMc_self, em]

/-- Registers of a page that counts at a Sluice keep NOW. -/
theorem slNow_addFk {f : Fld} (h1 : fldIn f = true) (h2 : f ≠ SLUICE_NOW) (n i k v : Nat) (s : State) :
    slNow (addFk f i k v s) n = slNow s n :=
  getFk_setFk_fld h1 (by decide) h2 _ _

theorem slNow_setEvt {e : Evt} (h : apart (pendFld e.page) SLUICE_NOW = true) (n i : Nat) (s : State) : slNow (setEvt e i s) n = slNow s n :=
  getF_setEvt_apart h ..

theorem slMisses_spec (n : Nat) : ∀ (l : List SlReq) (s : State),
    slNow (slMisses n l s).2 n = slNow s n ∧ ∀ q ∈ (slMisses n l s).1, slack (slNow s n) q < 0 → q.missed = true
  | [], s => ⟨rfl, by simp [slMisses]⟩
  | q :: r, s => by
    unfold slMisses
    split
    · have e : slNow (setEvt SLUICE_EV_MISS (sluicePage n) (addFk SLUICE_MISS_CNT (sluicePage n) q.r 1 s)) n = slNow s n := by
        rw [slNow_setEvt (by decide), slNow_addFk (f := SLUICE_MISS_CNT) (by decide) (by decide)]
      obtain ⟨a, b⟩ := slMisses_spec n r (setEvt SLUICE_EV_MISS (sluicePage n) (addFk SLUICE_MISS_CNT (sluicePage n) q.r 1 s))
      rw [e] at a b
      refine ⟨a, fun x hx => ?_⟩
      rcases List.mem_cons.1 hx with rfl | hx
      · exact fun _ => rfl
      · exact b x hx
    · next hc =>
      obtain ⟨a, b⟩ := slMisses_spec n r s
      refine ⟨a, fun x hx hs => ?_⟩
      rcases List.mem_cons.1 hx with rfl | hx
      · cases hm : x.missed with
        | true => rfl
        | false => exact absurd (by simp [hm, hs]) hc
      · exact b x hx hs

theorem sluiceDeadlineMiss_effect (n dt : Nat) (s : State) (h1 : stopped s = false) (h2 : domOn s (sluiceDomain n) = true) :
    slNow (runningIn (sluiceDomain n) s (sluiceDeadlineMiss n dt s)) n = (slNow s n + dt) % 2 ^ 16 ∧ ∀ q ∈ (sluiceOf (runningIn (sluiceDomain n) s (sluiceDeadlineMiss n dt s)) n).queue, slack (slNow (runningIn (sluiceDomain n) s (sluiceDeadlineMiss n dt s)) n) q < 0 → q.missed = true := by
  rw [runningIn_eq _ _ h1 h2]
  obtain ⟨a, b⟩ := slMisses_spec n (sluiceOf (slTick n dt s) n).queue (slTick n dt s)
  unfold sluiceDeadlineMiss
  have e : ∀ f (x : State), slNow (modSluice n f x) n = slNow x n := fun _ _ => rfl
  refine ⟨by rw [e, a, slNow_slTick], fun q hq => ?_⟩
  rw [e, a]
  simp only [sluiceOf_modSluice_self] at hq
  exact b q hq

theorem slPins_spec (n : Nat) : ∀ (l : List SlReq) (s : State),
    slNow (slPins n l s).2 n = slNow s n ∧ ∀ q ∈ (slPins n l s).1, slack (slNow s n) q ≤ -16383 → q.pinned = true
  | [], s => ⟨rfl, by simp [slPins]⟩
  | q :: r, s => by
    unfold slPins
    split
    · have e : slNow (setEvt SLUICE_EV_PIN (sluicePage n) (incr SLUICE_PINNED_CNT (sluicePage n) s)) n = slNow s n := by
        rw [slNow_setEvt (by decide)]
        exact slNow_addFk (f := SLUICE_PINNED_CNT) (by decide) (by decide) _ _ _ _ _
      obtain ⟨a, b⟩ := slPins_spec n r (setEvt SLUICE_EV_PIN (sluicePage n) (incr SLUICE_PINNED_CNT (sluicePage n) s))
      rw [e] at a b
      refine ⟨a, fun x hx => ?_⟩
      rcases List.mem_cons.1 hx with rfl | hx
      · exact fun _ => rfl
      · exact b x hx
    · next hc =>
      obtain ⟨a, b⟩ := slPins_spec n r s
      refine ⟨a, fun x hx hs => ?_⟩
      rcases List.mem_cons.1 hx with rfl | hx
      · cases hm : x.pinned with
        | true => rfl
        | false => exact absurd (by simp [hm, hs]) hc
      · exact b x hx hs

theorem sluicePin_effect (n dt : Nat) (s : State) (h1 : stopped s = false) (h2 : domOn s (sluiceDomain n) = true) :
    slNow (runningIn (sluiceDomain n) s (sluicePin n dt s)) n = (slNow s n + dt) % 2 ^ 16 ∧ ∀ q ∈ (sluiceOf (runningIn (sluiceDomain n) s (sluicePin n dt s)) n).queue, slack (slNow (runningIn (sluiceDomain n) s (sluicePin n dt s)) n) q ≤ -16383 → q.pinned = true ∧ slack (slNow (runningIn (sluiceDomain n) s (sluicePin n dt s)) n) q = -16383 := by
  rw [runningIn_eq _ _ h1 h2]
  obtain ⟨a, b⟩ := slPins_spec n (sluiceOf (slTick n dt s) n).queue (slTick n dt s)
  unfold sluicePin
  have e : ∀ f (x : State), slNow (modSluice n f x) n = slNow x n := fun _ _ => rfl
  refine ⟨by rw [e, a, slNow_slTick], fun q hq hs => ?_⟩
  rw [e, a] at hs ⊢
  simp only [sluiceOf_modSluice_self] at hq
  have hp := b q hq hs
  exact ⟨hp, by simp [slack, hp]⟩

end Sys2Proof.Machine
end

