-- ==== Sys2Proof/Laws/Stays.lean ====
section
/-! SUPPORT. What leaves the step numbers, the open steps and the block tables of every context alone. -/

namespace Sys2Proof.Machine

set_option exponentiation.threshold 600
set_option linter.unusedVariables false

/-- The first and the last step number of a context, its tables, and its open steps with their commands. -/
def nums (x : Ctx) : Option Nat × Option Nat × List Blk × List (Nat × Nat) := (x.first, x.last, x.tabs, x.steps.map fun y => (y.step, y.handle))

/-- Those of every context are the same. -/
structure Stays (s t : State) : Prop where
  num : ∀ c, nums (ctxOf t c) = nums (ctxOf s c)

theorem Stays.refl (s : State) : Stays s s := ⟨fun _ => rfl⟩

theorem Stays.of {s₀ s t : State} {m : Nat} (h : Stays s₀ s) (K : Keeps m s t) (hm : m.testBit 20 = false) : Stays s₀ t :=
  ⟨fun c => by rw [ctxOf_kept K hm]; exact h.num c⟩

variable {s₀ : State}

theorem stays_ite {p : Prop} [Decidable p] {a b : State} (h1 : Stays s₀ a) (h2 : Stays s₀ b) : Stays s₀ (if p then a else b) := by
  split <;> assumption

theorem stays_snd {α : Type} {a : α} {s : State} {e : α × State} (h : e = (a, s)) (h₀ : Stays s₀ e.2) : Stays s₀ s := by
  subst h; exact h₀

theorem stays_cul (v : Cul) {s : State} (h₀ : Stays s₀ s) : Stays s₀ { s with cul := v } := ⟨fun c => h₀.num c⟩
theorem stays_lastClosed (v : Nat) {s : State} (h₀ : Stays s₀ s) : Stays s₀ { s with lastClosed := v } := ⟨fun c => h₀.num c⟩
theorem setF_stays (f : Fld) (i v : Nat) {s : State} (h₀ : Stays s₀ s) : Stays s₀ (setF f i v s) := ⟨fun c => h₀.num c⟩
theorem setFk_stays (f : Fld) (i k v : Nat) {s : State} (h₀ : Stays s₀ s) : Stays s₀ (setFk f i k v s) := ⟨fun c => h₀.num c⟩
theorem incr_stays (f : Fld) (i : Nat) {s : State} (h₀ : Stays s₀ s) : Stays s₀ (incr f i s) := ⟨fun c => h₀.num c⟩
theorem report_stays (h st r0 r1 : Nat) {s : State} (h₀ : Stays s₀ s) : Stays s₀ (report h st r0 r1 s) := ⟨fun c => h₀.num c⟩
theorem setEvt_stays (e : Evt) (i : Nat) {s : State} (h₀ : Stays s₀ s) : Stays s₀ (setEvt e i s) := ⟨fun c => by rw [ctxOf_setEvt]; exact h₀.num c⟩

theorem modCtx_stays (c : Nat) (f : Ctx → Ctx) (hf : ∀ x, nums (f x) = nums x) {s : State} (h₀ : Stays s₀ s) : Stays s₀ (modCtx c f s) := ⟨fun k => by
  by_cases h : c = k
  · subst h; rw [ctxOf_modCtx_self, hf]; exact h₀.num c
  · rw [ctxOf_modCtx_ne (s := s) h]; exact h₀.num k⟩

theorem auditAbort_stays (g : Nat) {s : State} (h₀ : Stays s₀ s) : Stays s₀ (auditAbort g s) :=
  h₀.of (auditAbort_keeps (Has.refl _) g (Keeps.refl _ s)) (by decide)

theorem bookTaken_stays (rg : Nat) (j : Job) {s : State} (h₀ : Stays s₀ s) : Stays s₀ (bookTaken rg j s) :=
  h₀.of (bookTaken_keeps (Has.refl _) rg j (Keeps.refl _ s)) (by decide)

theorem clearWip_stays (b : Blk) {s : State} (h₀ : Stays s₀ s) : Stays s₀ (clearWip b s) :=
  h₀.of (clearWip_keeps (Has.refl _) b (Keeps.refl _ s)) (by decide)

theorem collBar_stays (c : Nat) (d : List Byte) {s : State} (h₀ : Stays s₀ s) : Stays s₀ (collBar c d s) :=
  h₀.of (collBar_keeps (Has.refl _) c d (Keeps.refl _ s)) (by decide)

theorem countDrop_stays (c : Nat) {s : State} (h₀ : Stays s₀ s) : Stays s₀ (countDrop c s) :=
  h₀.of (countDrop_keeps (Has.refl _) c (Keeps.refl _ s)) (by decide)

theorem culSend_stays (opn : Option Frame) (fs : List Frame) {s : State} (h₀ : Stays s₀ s) : Stays s₀ (culSend opn fs s) :=
  h₀.of (culSend_keeps (Has.refl _) opn fs (Keeps.refl _ s)) (by decide)

theorem degApply_stays {s : State} (h₀ : Stays s₀ s) : Stays s₀ (degApply s) :=
  h₀.of (degApply_keeps (Has.refl _)  (Keeps.refl _ s)) (by decide)

theorem dropWide_stays (rg : Nat) (x1 : Nat) {x2 : State} (h₀ : Stays s₀ x2) : Stays s₀ (dropWide rg x1 x2) :=
  h₀.of (dropWide_keeps (Has.refl _) rg x1 (Keeps.refl _ x2)) (by decide)

theorem engRead_stays (d cls a n : Nat) {s : State} (h₀ : Stays s₀ s) : Stays s₀ (engRead d cls a n s).2 :=
  h₀.of (engRead_keeps (Has.refl _) d cls a n (Keeps.refl _ s)) (by decide)

theorem hostWrite_stays (a : Nat) (bs : List Byte) {s : State} (h₀ : Stays s₀ s) : Stays s₀ (hostWrite a bs s) :=
  h₀.of (hostWrite_keeps (Has.refl _) a bs (Keeps.refl _ s)) (by decide)

theorem loadTiles_stays (d cls base tb x1 x2 : Nat) {x3 : State} (h₀ : Stays s₀ x3) : Stays s₀ (loadTiles d cls base tb x1 x2 x3).2 :=
  h₀.of (loadTiles_keeps (Has.refl _) d cls base tb x1 x2 (Keeps.refl _ x3)) (by decide)

theorem markSuspect_stays (g buf outcome tile : Nat) {s : State} (h₀ : Stays s₀ s) : Stays s₀ (markSuspect g buf outcome tile s) :=
  h₀.of (markSuspect_keeps (Has.refl _) g buf outcome tile (Keeps.refl _ s)) (by decide)

theorem memStore_stays (d a : Nat) (bs : List Byte) {s : State} (h₀ : Stays s₀ s) : Stays s₀ (memStore d a bs s) :=
  h₀.of (memStore_keeps (Has.refl _) d a bs (Keeps.refl _ s)) (by decide)

theorem modSeq_stays (rg : Nat) (f : Seq → Seq) {s : State} (h₀ : Stays s₀ s) : Stays s₀ (modSeq rg f s) :=
  h₀.of (modSeq_keeps (Has.refl _) rg f (Keeps.refl _ s)) (by decide)

theorem peerSend_stays (dst : Nat) (fs : List Frame) {s : State} (h₀ : Stays s₀ s) : Stays s₀ (peerSend dst fs s) :=
  h₀.of (peerSend_keeps (Has.refl _) dst fs (Keeps.refl _ s)) (by decide)

theorem placeData_stays (c : Nat) (r : Recv) (i t off : Nat) (bs : List Byte) {s : State} (h₀ : Stays s₀ s) : Stays s₀ (placeData c r i t off bs s) :=
  h₀.of (placeData_keeps (Has.refl _) c r i t off bs (Keeps.refl _ s)) (by decide)

theorem putJob_stays (rg : Nat) (j : Option Job) {s : State} (h₀ : Stays s₀ s) : Stays s₀ (putJob rg j s) :=
  h₀.of (putJob_keeps (Has.refl _) rg j (Keeps.refl _ s)) (by decide)

theorem readChain_stays (step x1 : Nat) (x2 : List Nat) (x3 : Nat) {x4 : State} (h₀ : Stays s₀ x4) : Stays s₀ (readChain step x1 x2 x3 x4).2 :=
  h₀.of (readChain_keeps (Has.refl _) step x1 x2 x3 (Keeps.refl _ x4)) (by decide)

theorem recPut_stays (b : Blk) (o n v : Nat) {s : State} (h₀ : Stays s₀ s) : Stays s₀ (recPut b o n v s) :=
  h₀.of (recPut_keeps (Has.refl _) b o n v (Keeps.refl _ s)) (by decide)

theorem rootDiv_stays (cl : Nat) {s : State} (h₀ : Stays s₀ s) : Stays s₀ (rootDiv cl s) :=
  h₀.of (rootDiv_keeps (Has.refl _) cl (Keeps.refl _ s)) (by decide)

theorem sendFactors_stays (b : Blk) (aud : Bool) (n : Nat) (half0 half1 : List (List Byte)) (h1 sent : Bool) {s : State} (h₀ : Stays s₀ s) : Stays s₀ (sendFactors b aud n half0 half1 h1 sent s) :=
  h₀.of (sendFactors_keeps (Has.refl _) b aud n half0 half1 h1 sent (Keeps.refl _ s)) (by decide)

theorem sendMark_stays (c dst cid step turn budget : Nat) {s : State} (h₀ : Stays s₀ s) : Stays s₀ (sendMark c dst cid step turn budget s) :=
  h₀.of (sendMark_keeps (Has.refl _) c dst cid step turn budget (Keeps.refl _ s)) (by decide)

theorem sendRoots_stays (b : Blk) (aud : Bool) (kind : Nat) (tiles : List (List Byte)) {s : State} (h₀ : Stays s₀ s) : Stays s₀ (sendRoots b aud kind tiles s) :=
  h₀.of (sendRoots_keeps (Has.refl _) b aud kind tiles (Keeps.refl _ s)) (by decide)

theorem sendWeights_stays (b : Blk) (aud : Bool) (n : Nat) (tiles : List (List Byte)) {s : State} (h₀ : Stays s₀ s) : Stays s₀ (sendWeights b aud n tiles s) :=
  h₀.of (sendWeights_keeps (Has.refl _) b aud n tiles (Keeps.refl _ s)) (by decide)

theorem staleRej_stays {s : State} (h₀ : Stays s₀ s) : Stays s₀ (staleRej s) :=
  h₀.of (staleRej_keeps (Has.refl _)  (Keeps.refl _ s)) (by decide)

theorem startLists_stays (c h : Nat) (x1 : List (Nat × Nat)) {x2 : State} (h₀ : Stays s₀ x2) : Stays s₀ (startLists c h x1 x2) :=
  h₀.of (startLists_keeps (Has.refl _) c h x1 (Keeps.refl _ x2)) (by decide)

theorem storeTiles_stays (d base tb x1 : Nat) (x2 : List (List Byte)) {x3 : State} (h₀ : Stays s₀ x3) : Stays s₀ (storeTiles d base tb x1 x2 x3) :=
  h₀.of (storeTiles_keeps (Has.refl _) d base tb x1 x2 (Keeps.refl _ x3)) (by decide)

theorem writeRoots_stays (j : Job) {s : State} (h₀ : Stays s₀ s) : Stays s₀ (writeRoots j s) :=
  h₀.of (writeRoots_keeps (Has.refl _) j (Keeps.refl _ s)) (by decide)

theorem modStep_stays (c n : Nat) (f : Step → Step) (hf : ∀ x, (f x).step = x.step ∧ (f x).handle = x.handle) {s : State} (h₀ : Stays s₀ s) : Stays s₀ (modStep c n f s) := by
  unfold modStep
  refine modCtx_stays _ _ (fun x => ?_) h₀
  show (x.first, x.last, x.tabs, (x.steps.map _).map _) = _
  rw [List.map_map]
  congr 3
  refine List.map_congr_left fun y _ => ?_
  simp only [Function.comp_apply]
  split
  · rw [(hf y).1, (hf y).2]
  · rfl

theorem modBlk_stays (c n g : Nat) (f : Blk → Blk) {s : State} (h₀ : Stays s₀ s) : Stays s₀ (modBlk c n g f s) := by
  unfold modBlk
  refine modStep_stays c n _ ?_ h₀
  exact fun _ => ⟨rfl, rfl⟩

theorem armBlk_stays (c n : Nat) (b : Blk) {s : State}
    (h₀ : Stays s₀ s) :
    Stays s₀ (armBlk c n b s) := by
  unfold armBlk
  repeat' with_reducible first
    | (with_unfolding_all exact fun _ => rfl) | assumption | apply modBlk_stays | apply storeTiles_stays

theorem armFirst_stays (c n : Nat) (older : List Step)
    (x1 : List Blk) {x2 : State} (h₀ : Stays s₀ x2) :
    Stays s₀ (armFirst c n older x1 x2) := by
  revert h₀
  fun_induction armFirst c n older x1 x2 <;> intro h₀
  all_goals repeat' with_reducible first
    | (with_unfolding_all exact fun _ => rfl) | apply armBlk_stays | apply_assumption -exfalso | split

theorem jrnCtx_stays (c type src : Nat) (payload : List Byte) {s : State} (h₀ : Stays s₀ s) :
    Stays s₀ (jrnCtx c type src payload s) := by
  unfold jrnCtx
  repeat' with_reducible first
    | (with_unfolding_all exact fun _ => rfl) | assumption | apply modCtx_stays | split

theorem mirrorEvt_stays (g kind buf tile : Nat) {s : State} (h₀ : Stays s₀ s) :
    Stays s₀ (mirrorEvt g kind buf tile s) := by
  unfold mirrorEvt
  repeat' with_reducible first
    | (with_unfolding_all exact fun _ => rfl) | assumption | apply jrnCtx_stays

theorem tileLost_stays
    (g kind tile : Nat) {s : State} (h₀ : Stays s₀ s) :
    Stays s₀ (tileLost g kind tile s) := by
  unfold tileLost
  repeat' with_reducible first
    | (with_unfolding_all exact fun _ => rfl) | assumption | apply markSuspect_stays | apply mirrorEvt_stays

theorem fetchSend_stays
    (b : Blk) (kind tile : Nat) (take : Bool) {s : State} (h₀ : Stays s₀ s) :
    Stays s₀ (fetchSend b kind tile take s) := by
  unfold fetchSend
  repeat' with_reducible first
    | (with_unfolding_all exact fun _ => rfl) | assumption | apply tileLost_stays | apply culSend_stays | split
    | apply stays_cul

theorem ownedTiles_stays
    (b : Blk) (kind k n : Nat) {s : State} (h₀ : Stays s₀ s) :
    Stays s₀ (ownedTiles b kind k n s).2 := by
  unfold ownedTiles
  repeat' with_reducible first
    | (with_unfolding_all exact fun _ => rfl) | assumption | apply loadTiles_stays | apply fetchSend_stays | split
    | refine stays_snd (by assumption) ?_

theorem wholeBuf_stays
    (b : Blk) (kind : Nat) {s : State} (h₀ : Stays s₀ s) :
    Stays s₀ (wholeBuf b kind s).2 := by
  unfold wholeBuf
  repeat' with_reducible first
    | (with_unfolding_all exact fun _ => rfl) | assumption | apply ownedTiles_stays

theorem auditBlk_stays
    (b : Blk) {s : State} (h₀ : Stays s₀ s) :
    Stays s₀ (auditBlk b s) := by
  unfold auditBlk
  repeat' with_reducible first
    | (with_unfolding_all exact fun _ => rfl) | assumption | apply wholeBuf_stays | apply sendFactors_stays
    | apply sendWeights_stays | apply sendRoots_stays | split
    | refine stays_snd (by assumption) ?_ | apply stays_cul

theorem auditBlks_stays
    (x1 : List Blk) {x2 : State} (h₀ : Stays s₀ x2) :
    Stays s₀ (auditBlks x1 x2) := by
  revert h₀
  fun_induction auditBlks x1 x2 <;> intro h₀
  all_goals repeat' with_reducible first
    | (with_unfolding_all exact fun _ => rfl) | apply auditBlk_stays | apply_assumption -exfalso

theorem auditStart_stays
    (c n : Nat) (blks : List Blk) {s : State} (h₀ : Stays s₀ s) :
    Stays s₀ (auditStart c n blks s) := by
  unfold auditStart
  repeat' with_reducible first
    | (with_unfolding_all exact fun _ => rfl) | assumption | apply auditBlks_stays | split | apply stays_cul

theorem ckptKeep_stays (c : Nat) (r : Recv) (x : Xfer) {s : State} (h₀ : Stays s₀ s) :
    Stays s₀ (ckptKeep c r x s) := by
  unfold ckptKeep
  repeat' with_reducible first
    | (with_unfolding_all exact fun _ => rfl) | assumption | apply modCtx_stays

theorem modColl_stays (c : Nat) (f : Coll → Coll) {s : State} (h₀ : Stays s₀ s) :
    Stays s₀ (modColl c f s) := by
  unfold modColl
  repeat' with_reducible first
    | (with_unfolding_all exact fun _ => rfl) | assumption | apply modCtx_stays

theorem modRecv_stays (c n cid : Nat) (f : Recv → Recv) {s : State} (h₀ : Stays s₀ s) :
    Stays s₀ (modRecv c n cid f s) := by
  unfold modRecv
  repeat' with_reducible first
    | (with_unfolding_all exact fun _ => rfl) | assumption | apply modColl_stays

theorem modXfer_stays (c n cid i : Nat) (f : Xfer → Xfer) {s : State} (h₀ : Stays s₀ s) :
    Stays s₀ (modXfer c n cid i f s) := by
  unfold modXfer
  repeat' with_reducible first
    | (with_unfolding_all exact fun _ => rfl) | assumption | apply modRecv_stays

theorem sendDone_stays (c : Nat) (r : Recv) (x : Xfer) {s : State} (h₀ : Stays s₀ s) :
    Stays s₀ (sendDone c r x s) := by
  unfold sendDone
  repeat' with_reducible first
    | (with_unfolding_all exact fun _ => rfl) | assumption | apply modXfer_stays | apply sendMark_stays | split

theorem carryDrop_stays
    (c : Nat)
    (r : Recv) (x : Xfer) {s : State} (h₀ : Stays s₀ s) :
    Stays s₀ (carryDrop c r x s) := by
  unfold carryDrop
  repeat' with_reducible first
    | (with_unfolding_all exact fun _ => rfl) | assumption | apply ckptKeep_stays | apply modXfer_stays
    | apply sendDone_stays | apply countDrop_stays | split | dsimp -proj only

theorem carryStore_stays (c : Nat) (r : Recv) (i t off : Nat) (bs : List Byte) {s : State} (h₀ : Stays s₀ s) :
    Stays s₀ (carryStore c r i t off bs s) := by
  unfold carryStore
  try dsimp -proj only
  repeat' with_reducible first
    | (with_unfolding_all exact fun _ => rfl) | assumption | apply memStore_stays | apply modXfer_stays | split | dsimp -proj only

theorem modCkpt_stays (c : Nat) (f : Ckpt → Ckpt) {s : State} (h₀ : Stays s₀ s) :
    Stays s₀ (modCkpt c f s) := by
  unfold modCkpt
  repeat' with_reducible first
    | (with_unfolding_all exact fun _ => rfl) | assumption | apply modCtx_stays

theorem streamOut_stays (c : Nat) (k : Ckpt) (bs : List Byte) {s : State} (h₀ : Stays s₀ s) :
    Stays s₀ (streamOut c k bs s) := by
  unfold streamOut
  repeat' with_reducible first
    | (with_unfolding_all exact fun _ => rfl) | assumption | apply stays_ite | apply modCkpt_stays | apply peerSend_stays
    | apply hostWrite_stays | split

theorem putRecord_stays (c : Nat) (h : ZHead) (raw : List Byte) {s : State} (h₀ : Stays s₀ s) :
    Stays s₀ (putRecord c h raw s) := by
  unfold putRecord
  repeat' with_reducible first
    | (with_unfolding_all exact fun _ => rfl) | assumption | apply streamOut_stays | apply modCkpt_stays | split

theorem putCarry_stays (c cid : Nat) (raw : List Byte) {s : State} (h₀ : Stays s₀ s) :
    Stays s₀ (putCarry c cid raw s) := by
  unfold putCarry
  repeat' with_reducible first
    | (with_unfolding_all exact fun _ => rfl) | assumption | apply putRecord_stays

theorem putCarries_stays
    (c : Nat)
    (x1 : List (Nat × List Byte)) {x2 : State} (h₀ : Stays s₀ x2) :
    Stays s₀ (putCarries c x1 x2) := by
  revert h₀
  fun_induction putCarries c x1 x2 <;> intro h₀
  all_goals repeat' with_reducible first
    | (with_unfolding_all exact fun _ => rfl) | apply putCarry_stays | apply_assumption -exfalso

theorem ckptAfterCut_stays
    (c n : Nat)
    {s : State} (h₀ : Stays s₀ s) :
    Stays s₀ (ckptAfterCut c n s) := by
  unfold ckptAfterCut
  repeat' with_reducible first
    | (with_unfolding_all exact fun _ => rfl) | assumption | apply putCarries_stays | apply modCkpt_stays | split

theorem endCkpt_stays (c st r0 : Nat) {s : State} (h₀ : Stays s₀ s) :
    Stays s₀ (endCkpt c st r0 s) := by
  unfold endCkpt
  repeat' with_reducible first
    | (with_unfolding_all exact fun _ => rfl) | assumption | apply report_stays | apply modCtx_stays | split

theorem readExtents_stays
    (c : Nat)
    (x1 : List (Nat × Nat × Nat)) {x2 : State} (h₀ : Stays s₀ x2) :
    Stays s₀ (readExtents c x1 x2) := by
  revert h₀
  fun_induction readExtents c x1 x2 <;> intro h₀
  all_goals repeat' with_reducible first
    | (with_unfolding_all exact fun _ => rfl) | apply engRead_stays | apply putRecord_stays | apply endCkpt_stays
    | apply_assumption -exfalso | refine stays_snd (by assumption) ?_

theorem ckptAtCut_stays (c n : Nat) {s : State} (h₀ : Stays s₀ s) :
    Stays s₀ (ckptAtCut c n s) := by
  unfold ckptAtCut
  repeat' with_reducible first
    | (with_unfolding_all exact fun _ => rfl) | assumption | apply modCkpt_stays | apply readExtents_stays
    | apply putCarries_stays | split

theorem recvEnd_stays (c n cid : Nat)
    {s : State} (h₀ : Stays s₀ s) :
    Stays s₀ (recvEnd c n cid s) := by
  unfold recvEnd
  repeat' with_reducible first
    | (with_unfolding_all exact fun _ => rfl) | assumption | apply modRecv_stays | apply modColl_stays | apply collBar_stays
    | split

theorem closeXfer_stays (c : Nat) (r : Recv) (x : Xfer) {s : State} (h₀ : Stays s₀ s) :
    Stays s₀ (closeXfer c r x s) := by
  unfold closeXfer
  repeat' with_reducible first
    | (with_unfolding_all exact fun _ => rfl) | assumption | apply modXfer_stays | refine incr_stays _ _ ?_
    | apply recvEnd_stays | apply sendDone_stays

theorem dropCarries_stays
    (c : Nat)
    (x1 : List (Recv × Xfer)) {x2 : State} (h₀ : Stays s₀ x2) :
    Stays s₀ (dropCarries c x1 x2) := by
  revert h₀
  fun_induction dropCarries c x1 x2 <;> intro h₀
  all_goals repeat' with_reducible first
    | (with_unfolding_all exact fun _ => rfl) | apply carryDrop_stays | apply_assumption -exfalso

theorem collClose_stays
    (c n : Nat)
    {s : State} (h₀ : Stays s₀ s) :
    Stays s₀ (collClose c n s) := by
  unfold collClose
  repeat' with_reducible first
    | (with_unfolding_all exact fun _ => rfl) | assumption | apply dropCarries_stays | apply modColl_stays | split

theorem sendEnd_stays (c n cid : Nat)
    {s : State} (h₀ : Stays s₀ s) :
    Stays s₀ (sendEnd c n cid s) := by
  unfold sendEnd
  repeat' with_reducible first
    | (with_unfolding_all exact fun _ => rfl) | assumption | apply collBar_stays | apply modColl_stays | split

theorem doneFrame_stays
    (f : Frame)
    {s : State} (h₀ : Stays s₀ s) :
    Stays s₀ (doneFrame f s) := by
  unfold doneFrame
  repeat' with_reducible first
    | (with_unfolding_all exact fun _ => rfl) | assumption | apply stays_ite | apply modColl_stays | apply sendEnd_stays
    | apply staleRej_stays | split

theorem releaseFrame_stays
    (f : Frame)
    {s : State} (h₀ : Stays s₀ s) :
    Stays s₀ (releaseFrame f s) := by
  unfold releaseFrame
  repeat' with_reducible first
    | (with_unfolding_all exact fun _ => rfl) | assumption | apply stays_ite | apply modColl_stays | apply staleRej_stays
    | refine incr_stays _ _ ?_ | apply closeXfer_stays | split

theorem takeTurn_stays
    (c : Nat)
    (r : Recv) (x : Xfer) (t : Nat) (bs : List Byte) {s : State} (h₀ : Stays s₀ s) :
    Stays s₀ (takeTurn c r x t bs s) := by
  unfold takeTurn
  repeat' with_reducible first
    | (with_unfolding_all exact fun _ => rfl) | assumption | apply stays_ite | apply carryDrop_stays | apply placeData_stays
    | apply modXfer_stays | apply sendDone_stays | apply closeXfer_stays
    | apply carryStore_stays

theorem turnFrame_stays
    (f : Frame)
    {s : State} (h₀ : Stays s₀ s) :
    Stays s₀ (turnFrame f s) := by
  unfold turnFrame
  repeat' with_reducible first
    | (with_unfolding_all exact fun _ => rfl) | assumption | apply stays_ite | apply modColl_stays | apply staleRej_stays
    | apply takeTurn_stays | refine incr_stays _ _ ?_ | split

theorem collFrame_stays
    (f : Frame)
    {s : State} (h₀ : Stays s₀ s) :
    Stays s₀ (collFrame f s) := by
  unfold collFrame
  repeat' with_reducible first
    | (with_unfolding_all exact fun _ => rfl) | assumption | apply doneFrame_stays | apply releaseFrame_stays
    | apply turnFrame_stays | split

theorem collFrames_stays
    (x1 : List Frame) {x2 : State} (h₀ : Stays s₀ x2) :
    Stays s₀ (collFrames x1 x2) := by
  revert h₀
  fun_induction collFrames x1 x2 <;> intro h₀
  all_goals repeat' with_reducible first
    | (with_unfolding_all exact fun _ => rfl) | apply collFrame_stays | apply_assumption -exfalso

theorem collHalt_stays
    (c code : Nat)
    {s : State} (h₀ : Stays s₀ s) :
    Stays s₀ (collHalt c code s) := by
  unfold collHalt
  repeat' with_reducible first
    | (with_unfolding_all exact fun _ => rfl) | assumption | refine setF_stays _ _ _ ?_
    | refine setF_stays _ _ _ ?_ | apply modColl_stays
    | refine setEvt_stays _ _ ?_ | split

theorem jobSeedRec_stays (c n : Nat) {s : State} (h₀ : Stays s₀ s) :
    Stays s₀ (jobSeedRec c n s) := by
  unfold jobSeedRec
  repeat' with_reducible first
    | (with_unfolding_all exact fun _ => rfl) | assumption | apply stays_ite | apply jrnCtx_stays | apply modCtx_stays

theorem jrnHub_stays (c type : Nat) (x1 : List (List Byte)) {x2 : State} (h₀ : Stays s₀ x2) :
    Stays s₀ (jrnHub c type x1 x2) := by
  revert h₀
  fun_induction jrnHub c type x1 x2 <;> intro h₀
  all_goals repeat' with_reducible first
    | (with_unfolding_all exact fun _ => rfl) | apply jrnCtx_stays | apply_assumption -exfalso

theorem matchEarly_stays
    (c : Nat)
    {s : State} (h₀ : Stays s₀ s) :
    Stays s₀ (matchEarly c s) := by
  unfold matchEarly
  repeat' with_reducible first
    | (with_unfolding_all exact fun _ => rfl) | assumption | apply collFrames_stays | apply modColl_stays

theorem openChain_stays
    (c step a : Nat) {s : State} (h₀ : Stays s₀ s) :
    Stays s₀ (openChain c step a s) := by
  unfold openChain
  repeat' with_reducible first
    | (with_unfolding_all exact fun _ => rfl) | assumption | apply readChain_stays | apply collHalt_stays
    | apply modColl_stays | split | refine stays_snd (by assumption) ?_

theorem publishJob_stays
    (rg : Nat) (j : Job) {s : State} (h₀ : Stays s₀ s) :
    Stays s₀ (publishJob rg j s) := by
  unfold publishJob
  repeat' with_reducible first
    | (with_unfolding_all exact fun _ => rfl) | assumption | apply stays_ite | apply auditAbort_stays | apply recPut_stays
    | apply clearWip_stays | refine incr_stays _ _ ?_
    | refine setEvt_stays _ _ ?_
    | refine incr_stays _ _ ?_ | apply modSeq_stays
    | apply wholeBuf_stays | apply sendRoots_stays | apply writeRoots_stays
    | split | refine stays_snd (by assumption) ?_

theorem publishHeld_stays
    (x1 : List (Nat × Job)) {x2 : State} (h₀ : Stays s₀ x2) :
    Stays s₀ (publishHeld x1 x2) := by
  revert h₀
  fun_induction publishHeld x1 x2 <;> intro h₀
  all_goals repeat' with_reducible first
    | (with_unfolding_all exact fun _ => rfl) | apply publishJob_stays | apply_assumption -exfalso | split

theorem rootEvt_stays (rg : Nat) (j : Job) (step kind reason side resLog : Nat) {s : State}
    (h₀ : Stays s₀ s) :
    Stays s₀ (rootEvt rg j step kind reason side resLog s) := by
  unfold rootEvt
  repeat' with_reducible first
    | (with_unfolding_all exact fun _ => rfl) | assumption | apply jrnCtx_stays

theorem rejectJob_stays (rg : Nat) (j : Job)
    (reason side resLog : Nat) {s : State} (h₀ : Stays s₀ s) :
    Stays s₀ (rejectJob rg j reason side resLog s) := by
  unfold rejectJob
  repeat' with_reducible first
    | (with_unfolding_all exact fun _ => rfl) | assumption | apply stays_ite | apply dropWide_stays | apply recPut_stays
    | apply clearWip_stays
    | refine setEvt_stays _ _ ?_
    | refine incr_stays _ _ ?_
    | refine setF_stays _ _ _ ?_
    | refine setF_stays _ _ _ ?_
    | refine setF_stays _ _ _ ?_
    | refine setF_stays _ _ _ ?_ | apply rootEvt_stays
    | apply modSeq_stays | apply putJob_stays | apply bookTaken_stays

theorem rejectHeld_stays (x1 : List (Nat × Job))
    {x2 : State} (h₀ : Stays s₀ x2) :
    Stays s₀ (rejectHeld x1 x2) := by
  revert h₀
  fun_induction rejectHeld x1 x2 <;> intro h₀
  all_goals repeat' with_reducible first
    | (with_unfolding_all exact fun _ => rfl) | apply rejectJob_stays | apply rootDiv_stays | apply_assumption -exfalso | split

theorem rplTake_stays
    (c : Nat) (bs : List Byte) {s : State} (h₀ : Stays s₀ s) :
    Stays s₀ (rplTake c bs s) := by
  unfold rplTake
  repeat' with_reducible first
    | (with_unfolding_all exact fun _ => rfl) | assumption | apply stays_ite | refine setFk_stays _ _ _ _ ?_
    | apply modCtx_stays | refine setFk_stays _ _ _ _ ?_

theorem rplRead_stays
    (c n x1 : Nat) {x2 : State} (h₀ : Stays s₀ x2) :
    Stays s₀ (rplRead c n x1 x2).2 := by
  revert h₀
  fun_induction rplRead c n x1 x2 <;> intro h₀
  all_goals repeat' with_reducible first
    | (with_unfolding_all exact fun _ => rfl) | apply engRead_stays | apply rplTake_stays | apply_assumption -exfalso
    | refine stays_snd (by assumption) ?_

end Sys2Proof.Machine
end

