-- ==== Sys2Proof/Laws/EffectsSteps.lean ====
section
/-! SUPPORT. What the commands do: opening and closing steps. -/

namespace Sys2Proof.Machine

set_option exponentiation.threshold 600
set_option linter.unusedSimpArgs false

set_option linter.unusedVariables false

theorem openSteps_of {x y : Ctx} (h : nums y = nums x) : y.first = x.first ∧ y.last = x.last ∧ y.tabs = x.tabs ∧ openSteps y = openSteps x := by
  unfold nums at h
  simp only [Prod.mk.injEq] at h
  exact h

theorem execStepOpen_next {h : Nat} {s : State} (hw : stepWraps s h = false) : execStepOpen h s = .next (awake s (stepOpen h s)) := by
  unfold execStepOpen
  rw [hw, Bool.and_false, if_neg (by decide)]

theorem execStepOpenDeferred_next {h : Nat} {s : State} (hw : stepWraps s h = false) : execStepOpenDeferred h s = .next (awake s (stepRetry h s)) := by
  unfold execStepOpenDeferred
  rw [hw, Bool.and_false, if_neg (by decide)]

theorem execReplayRead_next {h : Nat} {s : State} (hw : stepWraps s h = false) : execReplayRead h s = .next (awake s (replayRead h s)) := by
  unfold execReplayRead
  rw [hw, Bool.and_false, if_neg (by decide)]

theorem execStepOpen_waiting {h : Nat} {s : State} (hw : stepWaiting s h = true) : execStepOpen h s = .next (awake s (stepOpen h s)) := by
  unfold execStepOpen
  rw [hw, Bool.not_true, Bool.and_false, Bool.false_and, if_neg (by decide)]

theorem stepWraps_held {h : Nat} {s : State} (hw : mayOpen s (hCtx h) = false) : stepWraps s h = false := by
  unfold stepWraps
  rw [hw, Bool.and_false, Bool.false_and, Bool.false_and]

theorem execReplayRead_off {h : Nat} {s : State} (hw : replayOn s (hCtx h) = false) : execReplayRead h s = .next (awake s (replayRead h s)) := by
  unfold execReplayRead
  rw [hw, Bool.false_and, Bool.false_and, if_neg (by decide)]

theorem execReplayRead_none {h : Nat} {s : State} (hw : stepWaiting s h = false ∨ mayOpen s (hCtx h) = false) : execReplayRead h s = .next (awake s (replayRead h s)) := by
  unfold execReplayRead
  rcases hw with q | q
  · rw [q, Bool.and_false, Bool.false_and, if_neg (by decide)]
  · rw [stepWraps_held q, Bool.and_false, if_neg (by decide)]

theorem execStepOpenDeferred_none {h : Nat} {s : State} (hw : stepWaiting s h = false ∨ mayOpen s (hCtx h) = false) : execStepOpenDeferred h s = .next (awake s (stepRetry h s)) := by
  unfold execStepOpenDeferred
  rcases hw with q | q
  · rw [q, Bool.false_and, if_neg (by decide)]
  · rw [stepWraps_held q, Bool.and_false, if_neg (by decide)]

/-- The record and the tables have been read. -/
theorem stepAttempt_judge {h : Nat} {e raw : List Byte} {ts : Tables} {ok : Bool} {z w : State} (J : Judges h e raw ts ok z w) : stepAttempt h e z = stepJudge h e raw ts ok w := by
  obtain ⟨j1, dir, y, a, b, j2, j3, j4, j5, j6⟩ := J
  unfold stepAttempt cmdRead
  rw [j1]
  dsimp only
  rw [j2]
  dsimp only
  unfold stepTables
  dsimp only
  rw [j3]
  dsimp only
  rw [j4]
  dsimp only
  rw [j5]
  dsimp only
  rw [j6]

/-- An opening that passes every check. -/
theorem stepAttempt_opens {h : Nat} {e : List Byte} {o : Opening} {z v : State} (O : Opens h e o z v) : stepAttempt h e z = stepBegin h e o v := by
  obtain ⟨w, J, o1, o2, o3, o4, o5, o6⟩ := O
  rw [stepAttempt_judge J]
  have f : stepFetch h e o.raw o.tables v = stepBegin h e o v := by
    unfold stepFetch cmdRead
    rw [o5]
    dsimp only
    by_cases q : argOf e 4 = 0
    · rw [if_pos q] at o6
      rw [if_pos q]
      dsimp only
      rw [← o6]
    · rw [if_neg q] at o6
      rw [if_neg q, o6]
  unfold stepJudge
  rw [o1, o2, if_neg (by decide), if_neg (by decide), if_neg (by rw [Option.isNone_eq_false_iff.2 o3]; decide)]
  unfold stepReplay
  dsimp only
  cases r : replayOn w (hCtx h) with
  | false =>
    rw [r, if_neg (by decide)] at o4
    rw [if_pos (by decide), ← o4, f]
  | true =>
    rw [r, if_pos rfl] at o4
    rw [if_neg (by decide), o4.1]
    dsimp only
    rw [o4.2, if_pos rfl, f]

/-- Reading and judging a step leaves the step numbers and the clusters. -/
theorem Judges.stays {h : Nat} {e raw : List Byte} {ts : Tables} {ok : Bool} {z w : State} (J : Judges h e raw ts ok z w) : Stays z w ∧ w.clusters = z.clusters ∧ w.reports = z.reports := by
  obtain ⟨j1, dir, y, a, b, j2, j3, j4, j5, j6⟩ := J
  have K : Keeps 0x2006000000000000000080000000000 z y := by
    have := checkTables_keeps (Has.refl _) (ownPos z) ts ts (Keeps.refl _ z)
    rw [j4] at this
    exact this
  have L : Keeps 0x1c000000000000000000000000000000000000000004c048fc4000000000000000000000000000000080000800100 y w := by
    split at j5
    · have := checkTwin_keeps (Has.refl _) (Keeps.refl _ y)
      rw [j5] at this
      exact this
    · cases j5
      exact Keeps.refl _ _
  exact ⟨((Stays.refl z).of K (by decide)).of L (by decide), (L.clusters (by decide)).trans (K.clusters (by decide)), (L.reports (by decide)).trans (K.reports (by decide))⟩

theorem Opens.stays {h : Nat} {e : List Byte} {o : Opening} {z v : State} (O : Opens h e o z v) : Stays z v ∧ v.clusters = z.clusters := by
  obtain ⟨w, J, o1, o2, o3, o4, o5, o6⟩ := O
  obtain ⟨s1, s2, s3⟩ := J.stays
  cases r : replayOn w (hCtx h) with
  | false =>
    rw [r, if_neg (by decide)] at o4
    subst o4
    exact ⟨s1, s2⟩
  | true =>
    rw [r, if_pos rfl] at o4
    have S := rplRead_stays (hCtx h) (pay o.raw 0 4) ((getFk w HOSTIF_RPL_WR 0 (hCtx h) + two32 - getFk w HOSTIF_RPL_RD 0 (hCtx h)) % two32 / 16 + 1) s1
    have K := rplRead_keeps (Has.refl _) (hCtx h) (pay o.raw 0 4) ((getFk w HOSTIF_RPL_WR 0 (hCtx h) + two32 - getFk w HOSTIF_RPL_RD 0 (hCtx h)) % two32 / 16 + 1) (Keeps.refl _ w)
    have e : rplRead (hCtx h) (pay o.raw 0 4) ((getFk w HOSTIF_RPL_WR 0 (hCtx h) + two32 - getFk w HOSTIF_RPL_RD 0 (hCtx h)) % two32 / 16 + 1) w = (.done, v) := o4.1
    rw [e] at S K
    exact ⟨S, (K.clusters (by decide)).trans s2⟩

theorem nums_addStep (c : Nat) (st : Step) (s : State) :
    nums (ctxOf (addStep c st s) c) = (some ((ctxOf s c).first.getD st.step), some st.step, st.blks, openSteps (ctxOf s c) ++ [(st.step, st.handle)]) ∧
    (∀ d, d ≠ c → nums (ctxOf (addStep c st s) d) = nums (ctxOf s d)) ∧ (addStep c st s).clusters = s.clusters := by
  have k : ∀ d, ctxOf (addStep c st s) d = ctxOf (modCtx c (fun x => { x with
      steps := x.steps ++ [st], first := some (x.first.getD st.step), last := some st.step, tabs := st.blks
      ckpt := x.ckpt.map fun k => if k.cut = st.step then { k with left := some (st.blks.map (·.gbi)) } else k }) s) d := fun d => by
    unfold addStep
    dsimp only
    split <;> rfl
  refine ⟨?_, fun d q => ?_, ?_⟩
  · rw [k, ctxOf_modCtx_self]
    unfold nums openSteps
    dsimp only
    rw [List.map_append]
    rfl
  · rw [k, ctxOf_modCtx_ne _ (Ne.symm q)]
  · unfold addStep
    dsimp only
    split <;> rfl

/-- What opening a step does to the step numbers, the tables and the lists. -/
theorem stepBegin_does (h : Nat) (e : List Byte) (o : Opening) {s v : State} (S : Stays s v) (hc : v.clusters = s.clusters) :
    nums (ctxOf (stepBegin h e o v) (hCtx h)) = (some ((ctxOf s (hCtx h)).first.getD (pay o.raw 0 4)), some (pay o.raw 0 4), latchBlocks o.tables, openSteps (ctxOf s (hCtx h)) ++ [(pay o.raw 0 4, h)]) ∧
    (∀ d, d ≠ hCtx h → nums (ctxOf (stepBegin h e o v) d) = nums (ctxOf s d)) ∧
    (∀ k < 256, (clusterOf (stepBegin h e o v) k).lists = (clusterOf s k).lists ++ (if leVal ((o.dir.drop (8 * k)).take 8) = 0 then [] else [{ id := (clusterOf s k).nextId, ctx := hCtx h, handle := h, pos := { addr := leVal ((o.dir.drop (8 * k)).take 8) } }])) := by
  unfold stepBegin
  dsimp only
  have S1 : Stays s (degApply v) := S.of (degApply_keeps (Has.refl _) (Keeps.refl _ v)) (by decide)
  have C1 : (degApply v).clusters = s.clusters := ((degApply_keeps (Has.refl _) (Keeps.refl _ v)).clusters (by decide)).trans hc
  generalize (ctxOf (degApply v) (hCtx h)).steps = older
  generalize heldJobs (degApply v) (fun _ j => j.ctx == hCtx h && frozenNow (degApply v) (hCtx h) j.gbi) = held
  generalize degApply v = s1 at *
  have S2 := jrnHub_stays (hCtx h) 4 o.samples (jrnCtx_stays (hCtx h) 1 srcHub o.raw (jobSeedRec_stays (hCtx h) (pay o.raw 0 4) S1))
  have C2 : (jrnHub (hCtx h) 4 o.samples (jrnCtx (hCtx h) 1 srcHub o.raw (jobSeedRec (hCtx h) (pay o.raw 0 4) s1))).clusters = s.clusters :=
    ((jrnHub_keeps (w₀ := 0x100000) (Has.refl _) (hCtx h) 4 o.samples (jrnCtx_keeps (Has.refl _) (hCtx h) 1 srcHub o.raw (jobSeedRec_keeps (Has.refl _) (hCtx h) (pay o.raw 0 4) (Keeps.refl _ s1)))).clusters (by decide)).trans C1
  generalize jrnHub (hCtx h) 4 o.samples (jrnCtx (hCtx h) 1 srcHub o.raw (jobSeedRec (hCtx h) (pay o.raw 0 4) s1)) = s2 at *
  obtain ⟨st, hst, q1, q2, q3⟩ : ∃ st, st = newStep h s2 o ∧ st.step = pay o.raw 0 4 ∧ st.handle = h ∧ st.blks = latchBlocks o.tables := ⟨_, rfl, rfl, rfl, rfl⟩
  rw [← hst]
  obtain ⟨n1, n2, n3⟩ := nums_addStep (hCtx h) st s2
  generalize addStep (hCtx h) st s2 = s3 at *
  have S4 := armFirst_stays (hCtx h) (pay o.raw 0 4) older st.blks (Stays.refl s3)
  have C4 := (armFirst_keeps (Has.refl _) (hCtx h) (pay o.raw 0 4) older st.blks (Keeps.refl _ s3)).clusters (by decide)
  generalize armFirst (hCtx h) (pay o.raw 0 4) older st.blks s3 = s4 at *
  have S5 := rejectHeld_stays (heldJobs s4 fun _ j => j.ctx == hCtx h) S4
  have C5 := ((rejectHeld_keeps (Has.refl _) (heldJobs s4 fun _ j => j.ctx == hCtx h) (Keeps.refl _ s4)).clusters (by decide)).trans C4
  generalize rejectHeld (heldJobs s4 fun _ j => j.ctx == hCtx h) s4 = s5 at *
  have S6 := publishHeld_stays held S5
  have C6 := ((publishHeld_keeps (Has.refl _) held (Keeps.refl _ s5)).clusters (by decide)).trans C5
  generalize publishHeld held s5 = s6 at *
  have S7 := openChain_stays (hCtx h) (pay o.raw 0 4) (argOf e 3) S6
  have C7 := ((openChain_keeps (Has.refl _) (hCtx h) (pay o.raw 0 4) (argOf e 3) (Keeps.refl _ s6)).clusters (by decide)).trans C6
  generalize openChain (hCtx h) (pay o.raw 0 4) (argOf e 3) s6 = s7 at *
  have S8 := matchEarly_stays (hCtx h) S7
  have C8 := ((matchEarly_keeps (Has.refl _) (hCtx h) (Keeps.refl _ s7)).clusters (by decide)).trans C7
  generalize matchEarly (hCtx h) s7 = s8 at *
  have S9 := startLists_stays (hCtx h) h (dirEntries 256 0 o.dir) S8
  obtain ⟨l1, _⟩ := startLists_dir (hCtx h) h 256 0 o.dir s8
  generalize startLists (hCtx h) h (dirEntries 256 0 o.dir) s8 = s9 at *
  obtain ⟨f1, f2, f3, f4⟩ := openSteps_of (S2.num (hCtx h))
  refine ⟨?_, fun d q => ?_, fun k hk => ?_⟩
  · rw [S9.num, n1, q1, q2, q3, f1, f4]
  · rw [S9.num, n2 d q, S2.num]
  · have cl : clusterOf s8 k = clusterOf s k := by
      unfold clusterOf
      rw [C8, n3, C2]
    rw [l1 k (Nat.zero_le _) (by omega), cl, Nat.sub_zero]

/-- An opening that passes, from the state that has taken the command up. -/
theorem opens_does {h : Nat} {e : List Byte} {o : Opening} {s z v : State} (S : Stays s z) (hc : z.clusters = s.clusters) (O : Opens h e o z v) :
    (ctxOf (stepAttempt h e z) (hCtx h)).last = some (pay o.raw 0 4) ∧ (ctxOf (stepAttempt h e z) (hCtx h)).first = some ((ctxOf s (hCtx h)).first.getD (pay o.raw 0 4)) ∧
    (ctxOf (stepAttempt h e z) (hCtx h)).tabs = latchBlocks o.tables ∧ openSteps (ctxOf (stepAttempt h e z) (hCtx h)) = openSteps (ctxOf s (hCtx h)) ++ [(pay o.raw 0 4, h)] ∧
    (∀ d, d ≠ hCtx h → (ctxOf (stepAttempt h e z) d).last = (ctxOf s d).last ∧ openSteps (ctxOf (stepAttempt h e z) d) = openSteps (ctxOf s d)) ∧
    (∀ k < 256, (clusterOf (stepAttempt h e z) k).lists = (clusterOf s k).lists ++ (if leVal ((o.dir.drop (8 * k)).take 8) = 0 then [] else [{ id := (clusterOf s k).nextId, ctx := hCtx h, handle := h, pos := { addr := leVal ((o.dir.drop (8 * k)).take 8) } }])) := by
  rw [stepAttempt_opens O]
  obtain ⟨T, hv⟩ := O.stays
  obtain ⟨b1, b2, b3⟩ := stepBegin_does h e o (s := s) (v := v) ⟨fun c => (T.num c).trans (S.num c)⟩ (hv.trans hc)
  generalize stepBegin h e o v = y at *
  unfold nums at b1
  simp only [Prod.mk.injEq] at b1
  exact ⟨b1.2.1, b1.1, b1.2.2.1, b1.2.2.2, fun d q => ⟨(openSteps_of (b2 d q)).2.1, (openSteps_of (b2 d q)).2.2.2⟩, b3⟩

theorem modSlot_stays (c n : Nat) (f : Slot → Slot) {s₀ s : State} (h₀ : Stays s₀ s) : Stays s₀ (modSlot c n f s) :=
  modCtx_stays c (fun x => { x with slots := x.slots.upd {} n f }) (fun _ => rfl) h₀

theorem mayOpen_slot (c n : Nat) (f : Slot → Slot) (s : State) (d : Nat) : mayOpen (modSlot c n f s) d = mayOpen s d := by
  have e : (ctxOf (modSlot c n f s) d).restore = (ctxOf s d).restore ∧ (ctxOf (modSlot c n f s) d).steps = (ctxOf s d).steps ∧ (ctxOf (modSlot c n f s) d).last = (ctxOf s d).last := by
    unfold modSlot
    by_cases h : c = d
    · subst h; rw [ctxOf_modCtx_self]; exact ⟨rfl, rfl, rfl⟩
    · rw [ctxOf_modCtx_ne _ h]; exact ⟨rfl, rfl, rfl⟩
  unfold mayOpen
  rw [e.1, e.2.1, e.2.2]

/-- A judged opening that is refused. -/
theorem judged_refused {h : Nat} {e raw : List Byte} {ts : Tables} {ok : Bool} {z w : State} (J : Judges h e raw ts ok z w) :
    ((stepRecBad raw || stepNumBad z (hCtx h) raw) = true → (stepAttempt h e z).reports = z.reports ++ [{ handle := h, status := 6 }] ∧ Stays z (stepAttempt h e z)) ∧
    ((stepRecBad raw || stepNumBad z (hCtx h) raw) = false → ok = false → (stepAttempt h e z).reports = z.reports ++ [{ handle := h, status := 7 }] ∧ Stays z (stepAttempt h e z)) := by
  rw [stepAttempt_judge J]
  obtain ⟨S, _, r⟩ := J.stays
  have n : stepNumBad w (hCtx h) raw = stepNumBad z (hCtx h) raw := by
    unfold stepNumBad
    rw [(openSteps_of (S.num (hCtx h))).2.1]
  unfold stepJudge
  rw [n]
  refine ⟨fun q => ?_, fun q k => ?_⟩
  · rw [if_pos q]
    exact ⟨by show w.reports ++ _ = _; rw [r], report_stays _ _ _ _ S⟩
  · rw [if_neg (by rw [q]; decide), k, if_pos (by decide)]
    exact ⟨by show w.reports ++ _ = _; rw [r], report_stays _ _ _ _ S⟩

/-- A waiting opening that is tried. -/
theorem stepRetry_opens {h : Nat} {s : State} (hw : stepWaiting s h = true) (hm : mayOpen s (hCtx h) = true) :
    stepRetry h s = stepAttempt h (entryOf s h) (modSlot (hCtx h) (hSlot h) (fun x => { x with running := true }) (setTurn h false s)) := by
  unfold stepRetry
  rw [hw, hm, if_pos (by decide)]
  have r : cmdReady (setTurn h false s) h 0x11 = true := by
    unfold stepWaiting stepPending at hw
    dsimp only at hw
    simp only [Bool.and_eq_true] at hw
    unfold cmdReady setTurn
    dsimp only
    rw [handleLive_modSlot (hCtx h) (hSlot h) (fun x => { x with waitTurn := false }) (fun _ => ⟨rfl, rfl, rfl⟩), slotOf_modSlot_self]
    simp only [Bool.and_eq_true]
    exact hw.1
  rw [runCmd_ready r]
  congr 1
  unfold entryOf setTurn
  rw [slotOf_modSlot_self]

theorem stepOpenWaiting_effect (h : Nat) (s : State) (h1 : isAwake s = true) (h2 : stepWaiting s h = true) :
    (awake s (stepOpen h s)) = s := by
  rw [awake_eq _ h1]
  unfold stepOpen
  rw [if_pos h2]

theorem stepOpenHeld_effect (h : Nat) (s : State) (h1 : isAwake s = true) (h2 : cmdReady s h 0x11 = true) (h3 : stepWaiting s h = false) (h4 : mayOpen s (hCtx h) = false) :
    (slotOf (awake s (stepOpen h s)) (hCtx h) (hSlot h)).waitTurn = true ∧ (slotOf (awake s (stepOpen h s)) (hCtx h) (hSlot h)).running = false ∧ (awake s (stepOpen h s)).reports = s.reports ∧ ∀ d, openSteps (ctxOf (awake s (stepOpen h s)) d) = openSteps (ctxOf s d) := by
  rw [awake_eq _ h1]
  unfold stepOpen
  rw [h3, if_neg (by decide), runCmd_ready h2, mayOpen_slot, h4]
  rw [if_neg (by decide)]
  unfold stepWaits setTurn unrunCmd
  rw [slotOf_modSlot_self, slotOf_modSlot_self]
  refine ⟨rfl, rfl, rfl, fun d => ?_⟩
  have S := modSlot_stays (hCtx h) (hSlot h) (fun x => { x with running := true }) (Stays.refl s)
  generalize modSlot (hCtx h) (hSlot h) (fun x => { x with running := true }) s = y at *
  have S2 : Stays s (modSlot (hCtx h) (hSlot h) (fun x => { x with running := false }) y) := modSlot_stays _ _ _ S
  generalize modSlot (hCtx h) (hSlot h) (fun x => { x with running := false }) y = y2 at *
  exact (openSteps_of ((modSlot_stays _ _ _ S2).num d)).2.2.2

theorem stepBadRecord_effect (h : Nat) (e raw : List Byte) (ts : Tables) (ok : Bool) (z w : State) (s : State) (h1 : isAwake s = true) (h2 : cmdReady s h 0x11 = true) (h3 : stepWaiting s h = false) (h4 : mayOpen s (hCtx h) = true) (h5 : stepWraps s h = false) (h6 : e = entryOf s h) (h7 : z = modSlot (hCtx h) (hSlot h) (fun x => { x with running := true }) s) (h8 : Judges h e raw ts ok z w) (h9 : (stepRecBad raw || stepNumBad s (hCtx h) raw) = true) :
    (awake s (stepOpen h s)).reports = s.reports ++ [{ handle := h, status := 6 }] ∧ ∀ d, (ctxOf (awake s (stepOpen h s)) d).last = (ctxOf s d).last ∧ openSteps (ctxOf (awake s (stepOpen h s)) d) = openSteps (ctxOf s d) := by
  rw [awake_eq _ h1]
  unfold stepOpen
  rw [h3, if_neg (by decide), runCmd_ready h2, mayOpen_slot, h4]
  rw [if_pos rfl, ← h6, ← h7]
  have S : Stays s z := by rw [h7]; exact modSlot_stays _ _ _ (Stays.refl s)
  have r : z.reports = s.reports := by rw [h7]; rfl
  have n : stepNumBad z (hCtx h) raw = stepNumBad s (hCtx h) raw := by
    unfold stepNumBad
    rw [(openSteps_of (S.num (hCtx h))).2.1]
  obtain ⟨q1, q2⟩ := (judged_refused h8).1 (by rw [n]; exact h9)
  generalize stepAttempt h e z = y at *
  refine ⟨q1.trans (by rw [r]), fun d => ?_⟩
  have o := openSteps_of ((q2.num d).trans (S.num d))
  exact ⟨o.2.1, o.2.2.2⟩

theorem stepBadTable_effect (h : Nat) (e raw : List Byte) (ts : Tables) (ok : Bool) (z w : State) (s : State) (h1 : isAwake s = true) (h2 : cmdReady s h 0x11 = true) (h3 : stepWaiting s h = false) (h4 : mayOpen s (hCtx h) = true) (h5 : stepWraps s h = false) (h6 : e = entryOf s h) (h7 : z = modSlot (hCtx h) (hSlot h) (fun x => { x with running := true }) s) (h8 : Judges h e raw ts ok z w) (h9 : (stepRecBad raw || stepNumBad s (hCtx h) raw) = false) (h10 : ok = false) :
    (awake s (stepOpen h s)).reports = s.reports ++ [{ handle := h, status := 7 }] ∧ ∀ d, (ctxOf (awake s (stepOpen h s)) d).last = (ctxOf s d).last ∧ openSteps (ctxOf (awake s (stepOpen h s)) d) = openSteps (ctxOf s d) := by
  rw [awake_eq _ h1]
  unfold stepOpen
  rw [h3, if_neg (by decide), runCmd_ready h2, mayOpen_slot, h4]
  rw [if_pos rfl, ← h6, ← h7]
  have S : Stays s z := by rw [h7]; exact modSlot_stays _ _ _ (Stays.refl s)
  have r : z.reports = s.reports := by rw [h7]; rfl
  have n : stepNumBad z (hCtx h) raw = stepNumBad s (hCtx h) raw := by
    unfold stepNumBad
    rw [(openSteps_of (S.num (hCtx h))).2.1]
  obtain ⟨q1, q2⟩ := (judged_refused h8).2 (by rw [n]; exact h9) h10
  generalize stepAttempt h e z = y at *
  refine ⟨q1.trans (by rw [r]), fun d => ?_⟩
  have o := openSteps_of ((q2.num d).trans (S.num d))
  exact ⟨o.2.1, o.2.2.2⟩

theorem stepOpen_effect (h : Nat) (e : List Byte) (o : Opening) (z v : State) (s : State) (h1 : isAwake s = true) (h2 : cmdReady s h 0x11 = true) (h3 : stepWaiting s h = false) (h4 : mayOpen s (hCtx h) = true) (h5 : stepWraps s h = false) (h6 : e = entryOf s h) (h7 : z = modSlot (hCtx h) (hSlot h) (fun x => { x with running := true }) s) (h8 : Opens h e o z v) :
    (ctxOf (awake s (stepOpen h s)) (hCtx h)).last = some (pay o.raw 0 4) ∧ (ctxOf (awake s (stepOpen h s)) (hCtx h)).first = some ((ctxOf s (hCtx h)).first.getD (pay o.raw 0 4)) ∧ (ctxOf (awake s (stepOpen h s)) (hCtx h)).tabs = latchBlocks o.tables ∧ openSteps (ctxOf (awake s (stepOpen h s)) (hCtx h)) = openSteps (ctxOf s (hCtx h)) ++ [(pay o.raw 0 4, h)] ∧ (∀ d, d ≠ hCtx h → (ctxOf (awake s (stepOpen h s)) d).last = (ctxOf s d).last ∧ openSteps (ctxOf (awake s (stepOpen h s)) d) = openSteps (ctxOf s d)) ∧ (∀ k < 256, (clusterOf (awake s (stepOpen h s)) k).lists = (clusterOf s k).lists ++ (if leVal ((o.dir.drop (8 * k)).take 8) = 0 then [] else [{ id := (clusterOf s k).nextId, ctx := hCtx h, handle := h, pos := { addr := leVal ((o.dir.drop (8 * k)).take 8) } }])) := by
  rw [awake_eq _ h1]
  unfold stepOpen
  rw [h3, if_neg (by decide), runCmd_ready h2, mayOpen_slot, h4]
  rw [if_pos rfl, ← h6, ← h7]
  exact opens_does (by rw [h7]; exact modSlot_stays _ _ _ (Stays.refl s)) (by rw [h7]; rfl) h8

theorem replayMissing_effect (h : Nat) (e raw : List Byte) (ts : Tables) (z w v : State) (s : State) (h1 : isAwake s = true) (h2 : cmdReady s h 0x11 = true) (h3 : stepWaiting s h = false) (h4 : mayOpen s (hCtx h) = true) (h5 : stepWraps s h = false) (h6 : e = entryOf s h) (h7 : z = modSlot (hCtx h) (hSlot h) (fun x => { x with running := true }) s) (h8 : Judges h e raw ts true z w) (h9 : (stepRecBad raw || stepNumBad w (hCtx h) raw) = false) (h10 : (ctxOf w (hCtx h)).seed.isSome = true) (h11 : replayOn w (hCtx h) = true) (h12 : replayFor (hCtx h) (pay raw 0 4) w = (.missing, v)) :
    (slotOf (awake s (stepOpen h s)) (hCtx h) (hSlot h)).waitTurn = true ∧ (slotOf (awake s (stepOpen h s)) (hCtx h) (hSlot h)).running = false ∧ (getFk (awake s (stepOpen h s)) HOSTIF_CTX_EVT_EVT 0 (hCtx h)).testBit ceReplayWait = true ∧ (ctxOf (awake s (stepOpen h s)) (hCtx h)).last = (ctxOf s (hCtx h)).last ∧ openSteps (ctxOf (awake s (stepOpen h s)) (hCtx h)) = openSteps (ctxOf s (hCtx h)) := by
  rw [awake_eq _ h1]
  unfold stepOpen
  rw [h3, if_neg (by decide), runCmd_ready h2, mayOpen_slot, h4]
  rw [if_pos rfl, ← h6, ← h7, stepAttempt_judge h8]
  have S : Stays s z := by rw [h7]; exact modSlot_stays _ _ _ (Stays.refl s)
  obtain ⟨S1, _, _⟩ := h8.stays
  have S2 := rplRead_stays (hCtx h) (pay raw 0 4) ((getFk w HOSTIF_RPL_WR 0 (hCtx h) + two32 - getFk w HOSTIF_RPL_RD 0 (hCtx h)) % two32 / 16 + 1) S1
  have q : rplRead (hCtx h) (pay raw 0 4) ((getFk w HOSTIF_RPL_WR 0 (hCtx h) + two32 - getFk w HOSTIF_RPL_RD 0 (hCtx h)) % two32 / 16 + 1) w = (.missing, v) := h12
  rw [q] at S2
  unfold stepJudge
  rw [h9, if_neg (by decide), if_neg (by decide), if_neg (by rw [Option.isNone_eq_false_iff.2 h10]; decide)]
  unfold stepReplay
  dsimp only
  rw [h11, if_neg (by decide), h12]
  dsimp only
  have E := setCtxEvt_set (hCtx h) ceReplayWait (by decide) v
  have S3 : Stays z (setCtxEvt (hCtx h) ceReplayWait v) := S2.of (setCtxEvt_keeps (Has.refl _) (hCtx h) ceReplayWait (Keeps.refl _ v)) (by decide)
  generalize setCtxEvt (hCtx h) ceReplayWait v = y at *
  have S4 : Stays z (stepWaits h y) := modSlot_stays _ _ _ (modSlot_stays _ _ _ S3)
  have o := openSteps_of ((S4.num (hCtx h)).trans (S.num (hCtx h)))
  refine ⟨?_, ?_, E, o.2.1, o.2.2.2⟩
  · unfold stepWaits setTurn
    rw [slotOf_modSlot_self]
  · unfold stepWaits setTurn unrunCmd
    rw [slotOf_modSlot_self, slotOf_modSlot_self]

theorem deferredNone_effect (h : Nat) (s : State) (h1 : isAwake s = true) (h2 : stepWaiting s h = false ∨ mayOpen s (hCtx h) = false) :
    (awake s (stepRetry h s)) = s := by
  rw [awake_eq _ h1]
  unfold stepRetry
  rw [if_neg (by rw [Bool.and_eq_true]; rcases h2 with q | q <;> simp [q])]

theorem deferredOpen_effect (h : Nat) (e : List Byte) (o : Opening) (z v : State) (s : State) (h1 : isAwake s = true) (h2 : stepWaiting s h = true) (h3 : mayOpen s (hCtx h) = true) (h4 : stepWraps s h = false) (h5 : e = entryOf s h) (h6 : z = modSlot (hCtx h) (hSlot h) (fun x => { x with running := true }) (setTurn h false s)) (h7 : Opens h e o z v) :
    (ctxOf (awake s (stepRetry h s)) (hCtx h)).last = some (pay o.raw 0 4) ∧ (ctxOf (awake s (stepRetry h s)) (hCtx h)).first = some ((ctxOf s (hCtx h)).first.getD (pay o.raw 0 4)) ∧ (ctxOf (awake s (stepRetry h s)) (hCtx h)).tabs = latchBlocks o.tables ∧ openSteps (ctxOf (awake s (stepRetry h s)) (hCtx h)) = openSteps (ctxOf s (hCtx h)) ++ [(pay o.raw 0 4, h)] ∧ (∀ d, d ≠ hCtx h → (ctxOf (awake s (stepRetry h s)) d).last = (ctxOf s d).last ∧ openSteps (ctxOf (awake s (stepRetry h s)) d) = openSteps (ctxOf s d)) ∧ (∀ k < 256, (clusterOf (awake s (stepRetry h s)) k).lists = (clusterOf s k).lists ++ (if leVal ((o.dir.drop (8 * k)).take 8) = 0 then [] else [{ id := (clusterOf s k).nextId, ctx := hCtx h, handle := h, pos := { addr := leVal ((o.dir.drop (8 * k)).take 8) } }])) := by
  rw [awake_eq _ h1]
  rw [stepRetry_opens h2 h3, ← h5, ← h6]
  refine opens_does ?_ (by rw [h6]; rfl) h7
  rw [h6]
  exact modSlot_stays _ _ _ (modSlot_stays _ _ _ (Stays.refl s))

theorem replayOff_effect (h : Nat) (s : State) (h1 : isAwake s = true) (h2 : replayOn s (hCtx h) = false) :
    (awake s (replayRead h s)) = s := by
  rw [awake_eq _ h1]
  unfold replayRead
  rw [h2, if_neg (by decide)]

theorem replayIdle_effect (h : Nat) (s : State) (h1 : isAwake s = true) (h2 : stepWaiting s h = false ∨ mayOpen s (hCtx h) = false) :
    (awake s (replayRead h s)) = s := by
  rw [awake_eq _ h1]
  unfold replayRead stepRetry
  rw [if_neg (c := (stepWaiting s h && mayOpen s (hCtx h)) = true) (by rw [Bool.and_eq_true]; rcases h2 with q | q <;> simp [q]), ite_self]

theorem replayOpen_effect (h : Nat) (e : List Byte) (o : Opening) (z v : State) (s : State) (h1 : isAwake s = true) (h2 : replayOn s (hCtx h) = true) (h3 : stepWaiting s h = true) (h4 : mayOpen s (hCtx h) = true) (h5 : stepWraps s h = false) (h6 : e = entryOf s h) (h7 : z = modSlot (hCtx h) (hSlot h) (fun x => { x with running := true }) (setTurn h false s)) (h8 : Opens h e o z v) :
    (ctxOf (awake s (replayRead h s)) (hCtx h)).last = some (pay o.raw 0 4) ∧ (ctxOf (awake s (replayRead h s)) (hCtx h)).first = some ((ctxOf s (hCtx h)).first.getD (pay o.raw 0 4)) ∧ (ctxOf (awake s (replayRead h s)) (hCtx h)).tabs = latchBlocks o.tables ∧ openSteps (ctxOf (awake s (replayRead h s)) (hCtx h)) = openSteps (ctxOf s (hCtx h)) ++ [(pay o.raw 0 4, h)] ∧ (∀ d, d ≠ hCtx h → (ctxOf (awake s (replayRead h s)) d).last = (ctxOf s d).last ∧ openSteps (ctxOf (awake s (replayRead h s)) d) = openSteps (ctxOf s d)) ∧ (∀ k < 256, (clusterOf (awake s (replayRead h s)) k).lists = (clusterOf s k).lists ++ (if leVal ((o.dir.drop (8 * k)).take 8) = 0 then [] else [{ id := (clusterOf s k).nextId, ctx := hCtx h, handle := h, pos := { addr := leVal ((o.dir.drop (8 * k)).take 8) } }])) := by
  rw [awake_eq _ h1]
  unfold replayRead
  rw [h2, if_pos rfl]
  rw [stepRetry_opens h3 h4, ← h6, ← h7]
  refine opens_does ?_ (by rw [h7]; rfl) h8
  rw [h7]
  exact modSlot_stays _ _ _ (modSlot_stays _ _ _ (Stays.refl s))

theorem closeNotYet_effect (c n : Nat) (st : Step) (s : State) (h1 : isAwake s = true) (h2 : stepOf s c n = some st) (h3 : stepCloses s c st = false) :
    (awake s (stepClose c n s)) = s := by
  rw [awake_eq _ h1]
  unfold stepClose
  rw [h2]
  dsimp only
  rw [h3, if_neg (by decide)]

theorem stepClose_effect (c n : Nat) (st : Step) (s : State) (h1 : isAwake s = true) (h2 : stepOf s c n = some st) (h3 : stepCloses s c st = true) :
    (awake s (stepClose c n s)).lastClosed = n ∧ (awake s (stepClose c n s)).reports.getLast? = some { handle := st.handle, status := 0, r0 := n } ∧ openSteps (ctxOf (awake s (stepClose c n s)) c) = (openSteps (ctxOf s c)).filter (fun x => x.1 != n) ∧ (ctxOf (awake s (stepClose c n s)) c).last = (ctxOf s c).last ∧ (ctxOf (awake s (stepClose c n s)) c).tabs = (ctxOf s c).tabs ∧ ∀ d, d ≠ c → openSteps (ctxOf (awake s (stepClose c n s)) d) = openSteps (ctxOf s d) := by
  rw [awake_eq _ h1]
  unfold stepClose
  rw [h2]
  dsimp only
  rw [h3, if_pos rfl]
  have hn : st.step = n := by
    have := List.find?_some h2
    simpa using this
  unfold closeStep
  dsimp only
  rw [hn]
  have S := collClose_stays c n (ckptAfterCut_stays c n (ckptAtCut_stays c n (jrnCtx_stays c 2 srcHub (leBytes 4 n ++ zeros 12) (Stays.refl s))))
  generalize collClose c n (ckptAfterCut c n (ckptAtCut c n (jrnCtx c 2 srcHub (leBytes 4 n ++ zeros 12) s))) = y at *
  obtain ⟨o1, o2, o3, o4⟩ := openSteps_of (S.num c)
  obtain ⟨u, hu, u1, u2, u3, u4, u5⟩ : ∃ u, u = report st.handle 0 n 0 (modCtx c (fun x => { x with
      steps := x.steps.filter fun y => y.step != n
      past := (x.past ++ [st]).filter fun y => collLeft x.coll y.step }) { y with lastClosed := n }) ∧ u.lastClosed = n ∧
      u.reports.getLast? = some { handle := st.handle, status := 0, r0 := n } ∧ openSteps (ctxOf u c) = (openSteps (ctxOf y c)).filter (fun x => x.1 != n) ∧
      ((ctxOf u c).last = (ctxOf y c).last ∧ (ctxOf u c).tabs = (ctxOf y c).tabs) ∧ ∀ d, d ≠ c → openSteps (ctxOf u d) = openSteps (ctxOf y d) := by
    refine ⟨_, rfl, rfl, ?_, ?_, ?_, fun d q => ?_⟩
    · unfold report
      exact List.getLast?_concat ..
    · rw [ctxOf_report, ctxOf_modCtx_self]
      unfold openSteps
      rw [List.filter_map]
      rfl
    · rw [ctxOf_report, ctxOf_modCtx_self]
      exact ⟨rfl, rfl⟩
    · rw [ctxOf_report, ctxOf_modCtx_ne _ (Ne.symm q)]
      rfl
  rw [← hu]
  have T := auditStart_stays c n st.blks (Stays.refl u)
  have K := auditStart_keeps (Has.refl _) c n st.blks (Keeps.refl _ u)
  have k1 := K.lastClosed (by decide)
  have k2 := K.reports (by decide)
  generalize auditStart c n st.blks u = t at *
  obtain ⟨t1, t2, t3, t4⟩ := openSteps_of (T.num c)
  refine ⟨k1.trans u1, by rw [k2]; exact u2, by rw [t4, u3, o4], by rw [t2, u4.1, o2], by rw [t3, u4.2, o3], fun d q => ?_⟩
  rw [(openSteps_of (T.num d)).2.2.2, u5 d q, (openSteps_of (S.num d)).2.2.2]

end Sys2Proof.Machine
end

