-- ==== Sys2Proof/WellFormed.lean ====
section
/-! DEFINITION. Which commands are well formed: every operand lies in the range that the spec gives the thing it names. The opcode table
gives no row any operand bits, so these are the ranges of the units, registers, frames and addresses themselves. A meaning answers for
every operand, well formed or not. -/

namespace Sys2Proof

open Machine

/-! ## Operand ranges -/

/-- A requester that exists: the PF, VF 1 to 15, hub pair 0 to 3, pair 0 or 1 of die 0 to 3 (R31, R510, R632). -/
def okReq : Requester → Bool
  | .pf => true
  | .vf c => decide (1 ≤ c ∧ c < 16)
  | .hubPair k => decide (k < 4)
  | .diePair d k => decide (d < 4 ∧ k < 2)

/-- A byte address of the 64 MiB register space (R629). -/
def okReg (a : Nat) : Bool := decide (a < 67108864)

/-- A 32-bit value. -/
def okWord (v : Nat) : Bool := decide (v < two32)

/-- A register access: requester, address and value. -/
def okBus (r : Requester) (a v : Nat) : Bool := okReq r && okReg a && okWord v

/-- A context, 0 to 15. -/
def okCtx (c : Nat) : Bool := decide (c < 16)

/-- A context and a step. -/
def okStep (c n : Nat) : Bool := okCtx c && okWord n

/-- A queue of a context, 0 to 3 (R513). -/
def okQueue (c q : Nat) : Bool := okCtx c && decide (q < 4)

/-- A cluster, 0 to 255 (R18). -/
def okCluster (cl : Nat) : Bool := decide (cl < 256)

/-- A tensor unit, 0 to 1,023. -/
def okUnit (u : Nat) : Bool := decide (u < 1024)

/-- A region, 0 to 31. -/
def okRegion (rg : Nat) : Bool := decide (rg < 32)

/-- A memory stack, 0 to 15 (R28). -/
def okStack (m : Nat) : Bool := decide (m < 16)

/-- A channel of the module, 0 to 511. -/
def okChan (n : Nat) : Bool := decide (n < 512)

/-- A Sluice: a channel, a port, the collective engine or the host DMA. -/
def okSluice (n : Nat) : Bool := decide (n < 538)

/-- A link port, 0 to 23 (R372). -/
def okPort (p : Nat) : Bool := decide (p < 24)

/-- A frame on the wire: a header of 32 bytes and at most 512 bytes of payload (R376). -/
def okFrame (p : Nat) (raw : List Byte) : Bool := okPort p && decide (raw.length ≤ 544)

/-- A control pair by its index in R601, 0 to 11. -/
def okPair (p : Nat) : Bool := decide (p < 12)

/-- A supply rail by its code (R570). -/
def okRail (r : Nat) : Bool := decide (r ≤ 10)

/-- A module address of 40 bits (R196). -/
def okMem (a : Nat) : Bool := decide (a < 1099511627776)

/-- A byte address of cluster SRAM, bits [22:0] (R667). -/
def okSram (a : Nat) : Bool := decide (a < 8388608)

/-- The cells of a working tile that a fault changed, with 32-bit masks. -/
def okFlips (fl : Flips) : Bool := fl.all fun e => decide (e.1 < 4160 ∧ e.2 < two32)

/-- Units of one cluster, at least one. -/
def okUnits (us : List Nat) : Bool := !us.isEmpty && us.all fun u => decide (u < 4)

/-- A staging copy: offsets and length within the largest scratch and window. -/
def okStage (e : Stage) : Bool := decide (e.src < 2 ^ 36 ∧ e.dst < 2 ^ 23 ∧ e.n < 2 ^ 23)

/-- A board position, 0 to 7. -/
def okPos (k : Nat) : Bool := decide (k < 8)

/-- A counting flag, 0 to 4,095 (R350). -/
def okFlag (n : Nat) : Bool := decide (n < 4096)

/-- A partial to be encoded for transport. -/
def okEnc (e : PartEnc) : Bool := decide (e.die < 4) && okMem e.src && okMem e.dst && decide (e.n ≤ 65536)

/-- A source of a sync operation. -/
def okSync : SyncSrc → Bool
  | .list cl _ _ => okCluster cl
  | .crossing => true
  | .hub c => okCtx c

/-! ## Commands -/

/-- A command whose operands all lie in their ranges. -/
def Instr.wf : Instr → Bool
  | .regWrite r a v size => okBus r a v && decide (size = 1 ∨ size = 2 ∨ size = 4 ∨ size = 8)
  | .evtPendClear r a v raised => okBus r a v && decide (raised < 2 ^ 80)
  | .evtForce r a v => okBus r a v
  | .errInfoClear r a v => okBus r a v
  | .rcRead r a inc => okBus r a inc
  | .loReadLatch r a => okReq r && okReg a
  | .stepOpen h => okWord h
  | .stepOpenDeferred h => okWord h
  | .stepClose c n => okStep c n
  | .gatherBlockSend c n cid g => okStep c n && decide (cid < 65536) && okWord g
  | .partialAdd c n g own => okStep c n && okWord g && okMem own
  | .ownerSumClose c n g => okStep c n && okWord g
  | .precondition c n g => okStep c n && okWord g.gbi && okSram g.hdr && okUnits g.us
  | .commit c n g => okStep c n && okWord g
  | .mirrorSend c n g => okStep c n && okWord g
  | .factorUpdate c n g => okStep c n && okWord g.gbi && okUnits g.us
  | .listDescRead cl _ => okCluster cl
  | .matmulDescriptor cl _ n => okCluster cl && decide (n < 4)
  | .descTake u => okUnit u
  | .chunkPassEnd u => okUnit u
  | .tileEnd u _ _ fl stall => okUnit u && okFlips fl && decide (stall.ahead ≤ 65536)
  | .adoptCopyDone cl _ => okCluster cl
  | .adoptionBufferEnter cl => okCluster cl
  | .descComplete u => okUnit u
  | .forceFence r a v => okBus r a v
  | .resume r a v => okBus r a v
  | .reductionFold cl dst part n _ _ => okCluster cl && okSram dst && okSram part && okSram (4 * n)
  | .conversionDescriptor cl _ => okCluster cl
  | .group cl _ => okCluster cl
  | .stashEncode cl _ => okCluster cl
  | .stashDecode cl _ => okCluster cl
  | .rootJobScan rg => okRegion rg
  | .rootJobStart rg => okRegion rg
  | .wideDescIssue rg u d => okRegion rg && okUnit u && decide (u / 32 = rg) && decide (d.desc.length = 32) && d.st.all okStage
  | .newtonIterationDone rg => okRegion rg
  | .choleskyPanelDone rg => okRegion rg
  | .residualCheck rg => okRegion rg
  | .rootConvert rg => okRegion rg
  | .rootPublish rg => okRegion rg
  | .dueNotice rg => okRegion rg
  | .restartReply rg => okRegion rg
  | .lendSet rg => okRegion rg
  | .seqLockstep rg => okRegion rg
  | .exportCmd h => okWord h
  | .memRequest d ctx cls a write _ bs _ =>
    decide (d < 4) && okCtx ctx && decide (cls < 9) && okMem a && decide (bs.length = if write then 64 else 0)
  | .weirAdmit m p _ => okStack m && decide (p < 16)
  | .sluiceEnter n _ _ _ _ => okSluice n
  | .sluiceGrant n _ => okSluice n
  | .sluiceDeadlineMiss n _ => okSluice n
  | .sluicePin n _ => okSluice n
  | .memRead chan _ => okChan chan
  | .memWrite chan => okChan chan
  | .scrubRead m chan _ off _ _ _ => okStack m && okChan chan && decide (chan / 32 = m) && decide (off % 64 = 0)
  | .remapCopyDone m bad => okStack m && bad.all fun k => decide (k < 16)
  | .retireCopyDone m bad => okStack m && bad.all fun k => decide (k < 64)
  | .retrainDue m ch => okStack m && decide (ch < 32)
  | .retrainDone m => okStack m
  | .retrainTimeout m => okStack m
  | .maint h => okWord h
  | .maintWindowStart => true
  | .fieldRepairDone m e => okStack m && e.bad.all fun k => decide (k < 64)
  | .maintWindowEnd _ => true
  | .parkStall m => okStack m
  | .stackTempSample m _ => okStack m
  | .stackThrottleStep m => okStack m
  | .memrecImport h _ => okWord h
  | .memrecExport h => okWord h
  | .signal src => okSync src
  | .wait src => okSync src
  | .waiterTableAdmit home flag _ => decide (home ≤ 4) && decide (flag < 4096)
  | .arrive src => okSync src
  | .releaseReceive => true
  | .flagOwnWrite r a v => okBus r a v
  | .barCfgWrite r a v => okBus r a v
  | .dbgSet r a v => okBus r a v
  | .portEnable r a v => okBus r a v
  | .autoRetrain p => okPort p
  | .trainDone p => okPort p
  | .trainFail p => okPort p
  | .identSend p => okPort p
  | .ident p raw _ => okFrame p raw
  | .confirm r a v => okBus r a v
  | .recheck r a v => okBus r a v
  | .linkRestore r a v => okBus r a v
  | .forceDown r a v => okBus r a v
  | .laneLoss p => okPort p
  | .portRst r a v => okBus r a v
  | .data p raw _ => okFrame p raw
  | .mark p raw _ => okFrame p raw
  | .markAck p raw _ => okFrame p raw
  | .link p raw _ => okFrame p raw
  | .retry p raw _ => okFrame p raw
  | .state p raw _ => okFrame p raw
  | .ackTimeout p => okPort p
  | .linkAckDue p => okPort p
  | .holdExpire p => okPort p
  | .send c => okCtx c.ctx && okPos c.k && c.enc.all okEnc
  | .recv c => okCtx c.ctx && okFlag c.flag && okPos c.k
  | .collTurnFrame => true
  | .doneFrame => true
  | .releaseFrame => true
  | .earlyAreaAdmit _ => true
  | .stragglerDeadline c n cid => okStep c n && decide (cid < 65536)
  | .ctxPause r a v => okBus r a v
  | .degrade h => okWord h
  | .topoLoad h => okWord h
  | .openFrame => true
  | .tabWf => true
  | .tabR => true
  | .wgt => true
  | .fac0 => true
  | .fac1 => true
  | .root0 => true
  | .root1 => true
  | .closeW => true
  | .closeF => true
  | .closeR => true
  | .ack => true
  | .nack => true
  | .auditRes => true
  | .fetch => true
  | .resolve r a v => okBus r a v
  | .auditGbi r a v => okBus r a v
  | .dataB r a v => okBus r a v
  | .dataH r a v => okBus r a v
  | .dataW r a v => okBus r a v
  | .init r a v => okBus r a v
  | .final r a v => okBus r a v
  | .ckpt h => okWord h
  | .ckptBlockRead c g => okCtx c && okWord g
  | .ckptComplete c => okCtx c
  | .peerWrite => true
  | .readReq => true
  | .readData => true
  | .peerDone => true
  | .restore h dir => okWord h && okMem dir
  | .restoreRecordApply c _ => okCtx c
  | .restoreComplete c => okCtx c
  | .journalAppend c src _ => decide (c ≤ 16) && decide (src < 4096)
  | .journalDrain c => okCtx c
  | .replayRead h => okWord h
  | .sqTail r a v => okBus r a v
  | .sqEntryFetch c q _ entry => okQueue c q && decide (entry.length = 64)
  | .sqEnable r a v => okBus r a v
  | .commandStart c q => okQueue c q
  | .completionReport _ => true
  | .cqHead r a v _ => okBus r a v
  | .coalesceTimer c q => okQueue c q
  | .bar2Read _ _ => true
  | .bar2Write _ _ => true
  | .nop h => okWord h
  | .abort h => okWord h
  | .attest h => okWord h
  | .setSeed h => okWord h
  | .listRun h => okWord h
  | .copy h _ => okWord h
  | .ctxReset h => okWord h
  | .ctxPreempt h => okWord h
  | .ctxResume h => okWord h
  | .mailboxWrite _ _ => true
  | .go r a v => okBus r a v
  | .imageVerifyDone => true
  | .progGo r a v => okBus r a v
  | .otpProgDone _ => true
  | .idReady => true
  | .pairLockstep p => okPair p
  | .domReq r a v => okBus r a v
  | .domainSwitchDone _ => true
  | .droopStretch d => decide (d < 4)
  | .railDip r _ => okRail r
  | .railRecover r _ _ => okRail r
  | .supplyEvt => true
  | .holdoffEnd _ => true
  | .railResetTrip r _ => okRail r
  | .regionTempSample rg _ => okRegion rg
  | .powerSample _ => true
  | .deepIdle r a v => okBus r a v
  | .deepIdleExit r a v => okBus r a v
  | .standby r a v => okBus r a v
  | .islandRst r a v => okBus r a v
  | .coldReset => true
  | .platformReset => true
  | .linkReset => true
  | .functionLevelReset fn => decide (fn < 16)
  | .residueMismatch cl _ => okCluster cl
  | .tempTrip k _ => decide (k < 49)
  | .watchdogExpire p => okPair p
  | .kick r a v => okBus r a v
  | .comparatorSelftest _ => true
  | .comparatorDisagree _ => true
  | .faultResetRelease => true
  | .logClr r a v => okBus r a v
  | .forceFault r a v => okBus r a v
  | .wdogCfgWrite r a v => okBus r a v
  | .gaugeSample ch _ _ _ => decide (ch < 2)
  | .gaugePowerSecond => true
  | .tallySend cl => okCluster cl
  | .tallyFrame _ _ => true
  | .intervalEnd => true
  | .gaugeRecordSigned => true
  | .gaugePowerUp => true
  | .gaugeSupplyLoss => true
  | .status => true
  | .intervalW v => decide (v < 65536)
  | .intervalR => true
  | .recSelect n => decide (n < 256)
  | .recRead => true
  | .resumeLoad bs => decide (bs.length = 192)
  | .resumeGo key => decide (key < 256)
  | .closeNow key => decide (key < 256)
  | .identRead => true
  | .statusResume => true
  | .challenge r a v => okBus r a v
  | .unlockGo r a v => okBus r a v
  | .unlockCheckDone => true
  | .relock r a v => okBus r a v
  | .perstRelease => true
  | .coldResetRelease _ pos gaddr => decide (pos < 8) && decide (gaddr < 4)
  | .vfEnable _ n => decide (n < 16)
  | .aerError => true

end Sys2Proof
end

