-- ==== Sys2Proof/Tests/Slice0.lean ====
section
/-! SUPPORT. The row's own tests: an ill-formed command for each check of `WellFormed`, values that the spec works out, and for every
statement with hypotheses a state and operands that meet them. -/

set_option Elab.async false
set_option linter.unusedVariables false

namespace Sys2Proof.Tests

open Sys2Proof Sys2Proof.Machine

/-! ## Ill-formed commands are refused -/

/-- A VF below 1 is no requester. -/
theorem test_wf_requester : Instr.wf (.evtForce (.vf 0) 0 0) = false := by decide +kernel

/-- An address beyond the register space. -/
theorem test_wf_register_address : Instr.wf (.evtForce .pf 67108864 0) = false := by decide +kernel

/-- A value wider than 32 bits. -/
theorem test_wf_word : Instr.wf (.go .pf 0 4294967296) = false := by decide +kernel

/-- A register write of three bytes. -/
theorem test_wf_write_size : Instr.wf (.regWrite .pf 0 0 3) = false := by decide +kernel

/-- Raised events wider than the word and the contexts' own events. -/
theorem test_wf_raised : Instr.wf (.evtPendClear .pf 0 0 (2 ^ 80)) = false := by decide +kernel

/-- An increment wider than the word. -/
theorem test_wf_increment : Instr.wf (.rcRead .pf 0 4294967296) = false := by decide +kernel

/-- A read outside the register space. -/
theorem test_wf_latch_address : Instr.wf (.loReadLatch .pf 67108864) = false := by decide +kernel

/-- Context 16. -/
theorem test_wf_context : Instr.wf (.recv ⟨16, 0, 0⟩) = false := by decide +kernel

/-- A step number wider than 32 bits. -/
theorem test_wf_step : Instr.wf (.stepClose 0 4294967296) = false := by decide +kernel

/-- A COLL_ID wider than 16 bits. -/
theorem test_wf_collective : Instr.wf (.gatherBlockSend 0 0 65536 0) = false := by decide +kernel

/-- An address of the own partial beyond module memory. -/
theorem test_wf_own_address : Instr.wf (.partialAdd 0 0 0 1099511627776) = false := by decide +kernel

/-- Queue 4 of a context. -/
theorem test_wf_queue : Instr.wf (.commandStart 0 4) = false := by decide +kernel

/-- Cluster 256. -/
theorem test_wf_cluster : Instr.wf (.tallySend 256) = false := by decide +kernel

/-- Unit 4 of a cluster. -/
theorem test_wf_cluster_unit : Instr.wf (.matmulDescriptor 0 0 4) = false := by decide +kernel

/-- Unit 1,024. -/
theorem test_wf_unit : Instr.wf (.descTake 1024) = false := by decide +kernel

/-- A flipped cell beyond the working tile. -/
theorem test_wf_flips : Instr.wf (.tileEnd 0 0 false [(4160, 1)] ⟨0, 0⟩) = false := by decide +kernel

/-- A cluster SRAM address of 24 bits. -/
theorem test_wf_sram : Instr.wf (.reductionFold 0 8388608 0 0 0 true) = false := by decide +kernel

/-- Region 32. -/
theorem test_wf_region : Instr.wf (.rootJobScan 32) = false := by decide +kernel

/-- A wide descriptor for a unit of another region. -/
theorem test_wf_wide_region : Instr.wf (.wideDescIssue 1 0 ⟨List.replicate 32 0, [], false⟩) = false := by decide +kernel

/-- A wide descriptor of 31 bytes. -/
theorem test_wf_wide_length : Instr.wf (.wideDescIssue 0 0 ⟨List.replicate 31 0, [], false⟩) = false := by decide +kernel

/-- Die 4. -/
theorem test_wf_die : Instr.wf (.memRequest 4 0 0 0 false false [] 0) = false := by decide +kernel

/-- Memory class 9. -/
theorem test_wf_class : Instr.wf (.memRequest 0 0 9 0 false false [] 0) = false := by decide +kernel

/-- An address beyond 40 bits. -/
theorem test_wf_memory_address : Instr.wf (.memRequest 0 0 0 1099511627776 false false [] 0) = false := by decide +kernel

/-- A memory write of no bytes. -/
theorem test_wf_write_length : Instr.wf (.memRequest 0 0 0 0 true false [] 0) = false := by decide +kernel

/-- Stack 16. -/
theorem test_wf_stack : Instr.wf (.parkStall 16) = false := by decide +kernel

/-- Weir partition 16. -/
theorem test_wf_weir_part : Instr.wf (.weirAdmit 0 16 0) = false := by decide +kernel

/-- Sluice 538. -/
theorem test_wf_sluice : Instr.wf (.sluiceGrant 538 0) = false := by decide +kernel

/-- Column 64 of a page. -/
theorem test_wf_repair_column : Instr.wf (.fieldRepairDone 0 ⟨true, [64]⟩) = false := by decide +kernel

/-- Channel 512. -/
theorem test_wf_channel : Instr.wf (.memWrite 512) = false := by decide +kernel

/-- A scrub of a channel of another stack. -/
theorem test_wf_scrub_stack : Instr.wf (.scrubRead 1 0 0 0 .clean false false) = false := by decide +kernel

/-- A scrub that is not 64-byte aligned. -/
theorem test_wf_scrub_align : Instr.wf (.scrubRead 0 0 0 1 .clean false false) = false := by decide +kernel

/-- A column beyond a row. -/
theorem test_wf_remap_column : Instr.wf (.remapCopyDone 0 [16]) = false := by decide +kernel

/-- A column beyond a page. -/
theorem test_wf_retire_column : Instr.wf (.retireCopyDone 0 [64]) = false := by decide +kernel

/-- Channel 32 of a stack. -/
theorem test_wf_stack_channel : Instr.wf (.retrainDue 0 32) = false := by decide +kernel

/-- A sync operation of cluster 256. -/
theorem test_wf_sync_cluster : Instr.wf (.signal (.list 256 0 false)) = false := by decide +kernel

/-- Home 5. -/
theorem test_wf_home : Instr.wf (.waiterTableAdmit 5 0 0) = false := by decide +kernel

/-- Flag 4,096. -/
theorem test_wf_flag : Instr.wf (.waiterTableAdmit 0 4096 0) = false := by decide +kernel

/-- Port 24. -/
theorem test_wf_port : Instr.wf (.laneLoss 24) = false := by decide +kernel

/-- A frame longer than 544 bytes. -/
theorem test_wf_frame : Instr.wf (.data 0 (List.replicate 545 0) 0) = false := by decide +kernel

/-- A directory beyond module memory. -/
theorem test_wf_directory : Instr.wf (.restore 0 1099511627776) = false := by decide +kernel

/-- Journal context 17. -/
theorem test_wf_journal_context : Instr.wf (.journalAppend 17 0 0) = false := by decide +kernel

/-- Source module 4,096. -/
theorem test_wf_journal_source : Instr.wf (.journalAppend 0 4096 0) = false := by decide +kernel

/-- A queue entry of 63 bytes. -/
theorem test_wf_entry : Instr.wf (.sqEntryFetch 0 0 true (List.replicate 63 0)) = false := by decide +kernel

/-- Control pair 12. -/
theorem test_wf_pair : Instr.wf (.watchdogExpire 12) = false := by decide +kernel

/-- Die 4. -/
theorem test_wf_droop_die : Instr.wf (.droopStretch 4) = false := by decide +kernel

/-- Rail 11. -/
theorem test_wf_rail : Instr.wf (.railDip 11 0) = false := by decide +kernel

/-- Function 16. -/
theorem test_wf_function : Instr.wf (.functionLevelReset 16) = false := by decide +kernel

/-- Temperature input 49. -/
theorem test_wf_sensor : Instr.wf (.tempTrip 49 0) = false := by decide +kernel

/-- Gauge channel 2. -/
theorem test_wf_gauge_channel : Instr.wf (.gaugeSample 2 0 0 0) = false := by decide +kernel

/-- An interval wider than 16 bits. -/
theorem test_wf_interval : Instr.wf (.intervalW 65536) = false := by decide +kernel

/-- A record number wider than 8 bits. -/
theorem test_wf_record_slot : Instr.wf (.recSelect 256) = false := by decide +kernel

/-- A RESUME_LOAD of 191 bytes. -/
theorem test_wf_resume_length : Instr.wf (.resumeLoad (List.replicate 191 0)) = false := by decide +kernel

/-- A key wider than 8 bits. -/
theorem test_wf_resume_key : Instr.wf (.resumeGo 256) = false := by decide +kernel

/-- A key wider than 8 bits. -/
theorem test_wf_close_key : Instr.wf (.closeNow 256) = false := by decide +kernel

/-- A position strap of 8. -/
theorem test_wf_strap_pos : Instr.wf (.coldResetRelease 0 8 0) = false := by decide +kernel

/-- A Gauge address strap of 4. -/
theorem test_wf_strap_gaddr : Instr.wf (.coldResetRelease 0 0 4) = false := by decide +kernel

/-- NumVFs 16. -/
theorem test_wf_vfs : Instr.wf (.vfEnable true 16) = false := by decide +kernel

/-- A tile started ahead with more than 65,536 saturations. -/
theorem test_wf_ahead : Instr.wf (.tileEnd 0 0 false [] ⟨0, 65537⟩) = false := by decide +kernel

/-- No unit for the owner's products. -/
theorem test_wf_units : Instr.wf (.precondition 0 0 ⟨0, 0, []⟩) = false := by decide +kernel

/-- A staging copy beyond the largest window. -/
theorem test_wf_stage : Instr.wf (.wideDescIssue 0 0 ⟨List.replicate 32 0, [⟨0, 8388608, 0⟩], false⟩) = false := by decide +kernel

/-- Position 8 of a board. -/
theorem test_wf_position : Instr.wf (.send ⟨0, 0, 8, []⟩) = false := by decide +kernel

/-- A partial of more than 65,536 tiles. -/
theorem test_wf_partial : Instr.wf (.send ⟨0, 0, 0, [⟨0, 0, 0, 65537⟩]⟩) = false := by decide +kernel

/-- A command whose operands are in range is well formed. -/
theorem test_wf_good : Instr.wf (.partialAdd 0 1 2 3) = true := by decide

/-! ## Values that the spec works out -/

/-- The characters 1 to 9. -/
def digits : List Byte := [0x31, 0x32, 0x33, 0x34, 0x35, 0x36, 0x37, 0x38, 0x39]

/-- The check value of CRC-32C in R461. -/
theorem test_crc32c : digits.foldl (algByte 0) (algInit 0) ^^^ algXor 0 = 0xE3069283 := by decide +kernel
/-- The check value of CRC-32 in R461. -/
theorem test_crc32 : digits.foldl (algByte 1) (algInit 1) ^^^ algXor 1 = 0xCBF43926 := by decide +kernel
/-- The check value of CRC-64 in R461. -/
theorem test_crc64 : digits.foldl (algByte 2) (algInit 2) ^^^ algXor 2 = 0x6C40DF5F0B497347 := by decide +kernel
/-- The check value of CRC-16 in R461. -/
theorem test_crc16 : digits.foldl (algByte 3) (algInit 3) ^^^ algXor 3 = 0x29B1 := by decide +kernel

/-- Span 8 of die 2 as in the worked example of 'One address', its home stack enabled and on. -/
def exampleSpan : State :=
  setF MEMCTL_CTRL_EN 10 1 (setFk PWR_DOM_STAT 0 2 (2 ^ 10) (setFk MEMCTL_SPAN_HI 8 8 0x10000 (setFk MEMCTL_SPAN_LO 8 8 0x10004055 State.reset)))
/-- Address 0x8_0012_3440 lies in channel 2.67, page 0x1_0009, byte 0x440 (the spec's worked example of R299). -/
theorem test_lookup : lookup exampleSpan 2 0x800123440 = .hit (2 * 128 + 67) 0x10009 0x440 := by decide +kernel

/-- Requests A to D of the spec's 'a decision across the wrap'. -/
def wrapA : SlReq := { r := 0, d := 0x0010, entered := 0xFE10, pay := .op 0 }
def wrapB : SlReq := { r := 4, d := 0xFFE0, entered := 0xFBE0, pay := .op 0 }
def wrapC : SlReq := { r := 8, d := 0x3FF0, entered := 0xFFF0, pay := .op 0 }
def wrapD : SlReq := { r := 1, d := 0xFFE0, entered := 0xFDE0, pay := .op 0 }
/-- Slacks +32, −16, +16,384 and −16 at 0xFFF0. -/
theorem test_slacks : [wrapA, wrapB, wrapC, wrapD].map (slack 0xFFF0) = [32, -16, 16384, -16] := by decide +kernel
/-- Requester 4 wins the tie after requester 3. -/
theorem test_wrap_first : slBest false 0xFFF0 3 [wrapA, wrapB, wrapC, wrapD] = some wrapB := by decide +kernel
/-- Requester 1 wins the next decision. -/
theorem test_wrap_second : slBest false 0xFFFC 4 [wrapA, wrapC, wrapD] = some wrapD := by decide +kernel

/-- The element of the spec's worked step: 40,959.53125 units of 2^-20 with a draw below the threshold commit to 0x3D_1FFF (R176). -/
theorem test_round_down : (roundW24 (.fin false 1310705 (-25)) 7864319).1 = 0x3D1FFF := by decide +kernel
/-- The same element with a draw at the threshold commits to 40,960 units. -/
theorem test_round_up : (roundW24 (.fin false 1310705 (-25)) 7864320).1 = 0x3D2000 := by decide +kernel

/-! ## Small states -/

/-- A module whose stack 0 is on and enabled. -/
def stackOn : State := setF MEMCTL_CTRL_EN 0 1 (setFk PWR_DOM_STAT 0 2 1 State.reset)
/-- A valid span 0 of one channel of die 0. -/
def mapped : State := setFk MEMCTL_SPAN_HI 0 0 0 (setFk MEMCTL_SPAN_LO 0 0 (1 + 65536) stackOn)
def reqM : MemReq := { ctx := 0, cls := 0, write := false, chan := 0, page := 0, off := 0, data := [], copy := false, tag := 3 }
def reqW : MemReq := { reqM with write := true, data := List.replicate 64 1 }
def weirS : State := setF MEMCTL_CTRL_MODE 0 1 (modMc 0 (fun m => { m with issued := [reqM] }) stackOn)
def servS : State := modMc 0 (fun m => { m with serving := [reqM] }) stackOn
def servW : State := modMc 0 (fun m => { m with serving := [reqW] }) stackOn
def copyS : State := modMc 0 (fun m => { m with copies := [⟨0, 5, 2, false, 2⟩] }) stackOn
def copyR : State := modMc 0 (fun m => { m with copies := [⟨0, 5, 2, true, 2⟩] }) stackOn
/-- A started command of opcode `op` in slot 0 of context 0, handle 0x0010_0000. -/
def cmdS (op : Nat) : State :=
  modSlot 0 0 (fun _ => { inUse := true, gen := 1, started := true, entry := leBytes 1 op ++ zeros 63 }) stackOn
def slA : SlReq := { r := 2, d := 100, entered := 0, beats := 1, pay := .op 0 }
def slS : State := modSluice 537 (fun x => { x with queue := [slA] }) (setFk PWR_DOM_STAT 0 3 (2 ^ 27) State.reset)
def sigO : SyncOp := { op := 0x51, home := 0, obj := 3, count := 2, flags := 0x51, party := ⟨0, 1⟩, ctx := 0, epoch := 0 }
def waitO : SyncOp := { sigO with op := 0x52, flags := 0x52 }
def arrO : SyncOp := { sigO with op := 0x53, flags := 0x53 }
/-- The flags of group 0 of die 0 belong to context 0; operations wait in the crossing. -/
def flagS (l : List SyncOp) : State := { setFk SYNC_FLAG_OWN_VALID 0 0 1 State.reset with crossing := l }
def barS (n : Nat) (l : List SyncOp) : State :=
  { setFk SYNC_BAR_CFG_N 0 3 n (setFk SYNC_BAR_CFG_VALID 0 3 1 State.reset) with crossing := l }
def listL (d : List Byte) : ListRun := { id := 1, handle := 0, ctx := 0, desc := some d, pos := { addr := 0, count := 5, idx := 1, next := 0, hdr := false } }
/-- Every switched domain is on. -/
def allOn : State := setFk PWR_DOM_STAT 0 0 0xFFFFFFFF (setFk PWR_DOM_STAT 0 1 0xFFFFFFFF (setFk PWR_DOM_STAT 0 2 0xFFFFFFFF (setFk PWR_DOM_STAT 0 3 0xFFFFFFFF State.reset)))
def gaugeOn : State := { State.reset with gauge := { State.reset.gauge with run := some {} } }
def gaugeW (g : GaugeRun) : State := { State.reset with gauge := { State.reset.gauge with run := some g } }
/-- Port 0 in a LINK.STAT.STATE, its role used. -/
def portS (st : Nat) : State := setF LINK_STAT_STATE 0 st (setF LINK_TOPO_PEER_ROLE 0 1 allOn)
def identP : List Byte := leBytes 8 5 ++ leBytes 2 0 ++ leBytes 1 (0 + 1 * 32) ++ zeros 1 ++ leBytes 4 0 ++ leBytes 2 256 ++ leBytes 2 259 ++ leBytes 2 384 ++ leBytes 2 64 ++ leBytes 2 64 ++ zeros 38
/-- A frame of module 8 on its member port 0, next in link order, and a module whose topology table names module 8 there. -/
def frS (ty : Nat) : Frame := { type := ty, lseq := 1, src := 8, dst := 0, oport := 0 }
def upS : State := modCtx 0 (fun x => { x with topo := true }) (portS 5)
/-- A STEP_OPEN whose record at address 0 has STEP 0 after step 0xFFFF_FFFF. -/
def wrapS0 : State :=
  modCtx 0 (fun x => { x with last := some 0xFFFFFFFF })
    (modSlot 0 0 (fun _ => { inUse := true, gen := 1, started := true, entry := leBytes 1 0x11 ++ zeros 63 }) mapped)
/-- The same, waiting for its turn. -/
def wrapS : State := modSlot 0 0 (fun x => { x with waitTurn := true }) wrapS0

/-! ## Every statement's hypotheses are met -/

theorem test_witness_RegisterAccesses :
  (∃ (r : Requester) (a v : Nat) (t i o : Nat) (s : State),
    (a % 4 = 0) ∧ (target s r a = some (t, i, o)) ∧ (gate s r t i o = .pass) ∧ (lockedWrite s t o = false) ∧ (0x28 ≤ o ∨ o = 0x10) ∧ ((rangesOk (writtenWord s t i o (v % 2 ^ 32)) (fldsAt t o) && crossOk s t i o (writtenWord s t i o (v % 2 ^ 32))) = true)) ∧
  (∃ (r : Requester) (a v raised : Nat) (t i : Nat) (s : State),
    (a % 4 = 0) ∧ (target s r a = some (t, i, 0x18)) ∧ (t ≠ 11) ∧ (gate s r t i 0x18 = .pass)) ∧
  (∃ (r : Requester) (a v : Nat) (t i : Nat) (s : State),
    (a % 4 = 0) ∧ (target s r a = some (t, i, 0x20)) ∧ (t ≠ 11) ∧ (gate s r t i 0x20 = .pass)) ∧
  (∃ (r : Requester) (a v : Nat) (t i o : Nat) (s : State),
    (a % 4 = 0) ∧ (target s r a = some (t, i, o)) ∧ (gate s r t i o = .pass) ∧ (isErrReg t o = true)) ∧
  (∃ (r : Requester) (a : Nat) (t i o : Nat) (s : State),
    (target s r a = some (t, i, o)) ∧ (isLo t o = true)) :=
  ⟨⟨.pf, 0x5C1104, 0x100, 13, 0, 0x104, State.reset, by decide +kernel⟩,
  ⟨.pf, 0x5C1018, 1, 0, 13, 0, State.reset, by decide +kernel⟩,
  ⟨.pf, 0x5C1020, 1, 13, 0, State.reset, by decide +kernel⟩,
  ⟨.pf, 0x598024, 0, 8, 0, 0x24, State.reset, by decide +kernel⟩,
  ⟨.pf, 0x5B1100, 12, 0, 0x100, State.reset, by decide +kernel⟩⟩

theorem test_witness_MemoryRequestsAndWeirs :
  (∃ (d ctx cls a : Nat) (write copy : Bool) (data : List Byte) (tag : Nat) (chan page off : Nat) (s : State),
    (isAwake s = true) ∧ (lookup s d (a / 64 * 64) = .hit chan page off) ∧ (returnFull s (engineOf d ctx cls) = false)) ∧
  (∃ (d ctx cls a : Nat) (write copy : Bool) (data : List Byte) (tag : Nat) (p : Nat) (s : State),
    (isAwake s = true) ∧ (lookup s d (a / 64 * 64) = .miss p) ∧ (returnFull s (engineOf d ctx cls) = false)) ∧
  (∃ (m p dt : Nat) (q : MemReq) (rest : List MemReq) (s : State),
    (stopped s = false) ∧ (domOn s (64 + m) = true) ∧ (isF (weirTick m dt 16 s) MEMCTL_CTRL_MODE m = true) ∧ (takeFirst (fun q => decide (q.cls < 8) && partOf (weirTick m dt 16 s) m q == p && memArrived (weirTick m dt 16 s) q) (mcOf (weirTick m dt 16 s) m).issued = some (q, rest)) ∧ (q.chan / 32 = m) ∧ (slRoom (weirTick m dt 16 s) q.chan = true) ∧ (256 ≤ weirLevel (weirTick m dt 16 s) m p) ∧ (weirLevel (weirTick m dt 16 s) m p < 16777216)) ∧
  (∃ (chan : Nat) (ecc : Ecc) (q : MemReq) (rest : List MemReq) (k : Nat) (s : State),
    (stopped s = false) ∧ (domOn s (64 + chan / 32) = true) ∧ (takeServed (fun q => q.chan == chan && !q.write && !q.scrub) (mcOf s (chan / 32)).serving = some (q, rest)) ∧ (redirect s chan q.page q.off = some k) ∧ (s.poison.get false (k / 64) = false) ∧ (ecc = .clean)) ∧
  (∃ (chan : Nat) (q : MemReq) (rest : List MemReq) (k : Nat) (s : State),
    (stopped s = false) ∧ (domOn s (64 + chan / 32) = true) ∧ (takeServed (fun q => q.chan == chan && q.write) (mcOf s (chan / 32)).serving = some (q, rest)) ∧ (redirect s chan q.page q.off = some k) ∧ (q.data.length = 64)) ∧
  (∃ (m chan page off : Nat) (ecc : Ecc) (written passEnd : Bool) (q : MemReq) (rest : List MemReq) (s : State),
    (stopped s = false) ∧ (domOn s (64 + m) = true) ∧ (isF s MEMCTL_CTRL_SCRUB_EN m = true) ∧ (isF s MEMCTL_CTRL_EN m = true) ∧ (chan / 32 = m) ∧ (passEnd = true) ∧ (takeFirst (fun q => q.scrub && q.chan == chan && q.page == page && q.off == off) (mcOf s m).serving = some (q, rest))) :=
  ⟨⟨0, 0, 0, 0, false, false, [], 7, 0, 0, 0, mapped, by decide +kernel⟩,
  ⟨0, 0, 0, 0, true, false, [], 7, 0, State.reset, by decide +kernel⟩,
  ⟨0, 0, 0, reqM, [], weirS, by decide +kernel⟩,
  ⟨0, .clean, reqM, [], 0, servS, by decide +kernel⟩,
  ⟨0, reqW, [], 0, servW, by decide +kernel⟩,
  ⟨0, 0, 0, 0, .clean, false, true, { reqM with scrub := true }, [], modMc 0 (fun m => { m with serving := [{ reqM with scrub := true }] }) stackOn, by decide +kernel⟩⟩

theorem test_witness_MemoryRepairAndMaintenance :
  (∃ (m : Nat) (bad : List Nat) (c : LadderCopy) (rest : List LadderCopy) (src : Nat) (s : State),
    (stopped s = false) ∧ (domOn s (64 + m) = true) ∧ (takeFirst (fun c => !c.retire && c.stage == 2) (mcOf s m).copies = some (c, rest)) ∧ (c.chan / 32 = m) ∧ (redirect s c.chan (c.row / 4) (c.row % 4 * 1024) = some src)) ∧
  (∃ (m : Nat) (bad : List Nat) (c : LadderCopy) (rest : List LadderCopy) (s : State),
    (stopped s = false) ∧ (domOn s (64 + m) = true) ∧ (takeFirst (fun c => c.retire && c.stage == 2) (mcOf s m).copies = some (c, rest)) ∧ (c.chan / 32 = m)) ∧
  (∃ (m ch : Nat) (s : State),
    (stopped s = false) ∧ (domOn s (64 + m) = true) ∧ (isF s MEMCTL_CTRL_RETRAIN_EN m = true) ∧ (isF s MEMCTL_CTRL_EN m = true) ∧ (isF s MEMCTL_STAT_RETRAINING m = false) ∧ (isF s MEMCTL_STAT_PARKED m = false) ∧ ((mcOf s m).due = [])) ∧
  (∃ (m : Nat) (s : State),
    (stopped s = false) ∧ (domOn s (64 + m) = true) ∧ (isF s MEMCTL_STAT_RETRAINING m = true)) ∧
  (∃ (m : Nat) (s : State),
    (stopped s = false) ∧ (domOn s (64 + m) = true) ∧ (isF s MEMCTL_STAT_RETRAINING m = true)) ∧
  (∃ (h : Nat) (s : State),
    (stopped s = false) ∧ (cmdReady s h 0x52 = true) ∧ (s.window = none)) ∧
  (∃ (w : Window) (s : State),
    (isAwake s = true) ∧ (s.window = some w) ∧ (w.started = false) ∧ (anyOpen s 16 = false)) ∧
  (∃ (m : Nat) (spareLeft : Bool) (bad : List Nat) (chan row page : Nat) (s : State),
    (stopped s = false) ∧ (domOn s (64 + m) = true) ∧ ((mcOf s m).repair = some (chan, row, page)) ∧ (spareLeft = true) ∧ ((mcOf s m).repStage = 2)) ∧
  (∃ (ms : Nat) (w : Window) (s : State),
    (isAwake s = true) ∧ (s.window = some w) ∧ (w.started = true) ∧ (repairing s 16 = false) ∧ (w.budgetMs ≤ ms)) ∧
  (∃ (m : Nat) (s : State),
    (stopped s = false) ∧ (domOn s (64 + m) = true) ∧ (isF s MEMCTL_STAT_PARKED m = true) ∧ ((mcOf s m).stalled = false) ∧ (waitsOn s (m * 32 + getF s MEMCTL_STAT_PK_CH m) = true)) ∧
  (∃ (h : Nat) (recd : List Byte) (s : State),
    (isAwake s = true) ∧ (cmdReady s h 0x50 = true) ∧ ((anySpan s 0 256 || anySpan s 1 256 || anySpan s 2 256 || anySpan s 3 256) = false) ∧ (16 + 8 * leVal (recd.take 4) ≤ recd.length) ∧ (crc32c ((recd.drop 16).take (8 * leVal (recd.take 4))) = leVal ((recd.drop 8).take 4)) ∧ (recd.length ≤ argOf (entryOf s h) 1)) ∧
  (∃ (h : Nat) (s : State),
    (isAwake s = true) ∧ (cmdReady s h 0x51 = true) ∧ ((repairRecord s).length ≤ argOf (entryOf s h) 1)) :=
  ⟨⟨0, [], ⟨0, 5, 2, false, 2⟩, [], 5120, copyS, by decide +kernel⟩,
  ⟨0, [], ⟨0, 5, 2, true, 2⟩, [], copyR, by decide +kernel⟩,
  ⟨0, 5, stackOn, by decide +kernel⟩,
  ⟨0, setF MEMCTL_STAT_RETRAINING 0 1 stackOn, by decide +kernel⟩,
  ⟨0, setF MEMCTL_STAT_RETRAINING 0 1 stackOn, by decide +kernel⟩,
  ⟨1048576, cmdS 0x52, by decide +kernel⟩,
  ⟨{ handle := 0, budgetMs := 5 }, { stackOn with window := some { handle := 0, budgetMs := 5 } }, by decide +kernel⟩,
  ⟨0, true, [], 0, 5, 0, modMc 0 (fun m => { m with repair := some (0, 5, 0), repStage := 2 }) stackOn, by decide +kernel⟩,
  ⟨9, { handle := 0, budgetMs := 5, started := true }, { stackOn with window := some { handle := 0, budgetMs := 5, started := true } }, by decide +kernel⟩,
  ⟨0, setF MEMCTL_STAT_PARKED 0 1 (modMc 0 (fun m => { m with issued := [reqM] }) stackOn), by decide +kernel⟩,
  ⟨1048576, zeros 4 ++ zeros 4 ++ leBytes 4 (crc32c []) ++ zeros 4, modSlot 0 0 (fun x => { x with entry := leBytes 1 0x50 ++ zeros 15 ++ leBytes 8 16 ++ zeros 40 }) (cmdS 0x50), by decide +kernel⟩,
  ⟨1048576, modSlot 0 0 (fun x => { x with entry := leBytes 1 0x51 ++ zeros 15 ++ leBytes 8 100 ++ zeros 40 }) (cmdS 0x51), by decide +kernel⟩⟩

theorem test_witness_SluiceRequestsAndGrants :
  (∃ (n r op acc dt : Nat) (key budget : Nat) (s : State),
    (stopped s = false) ∧ (domOn s (sluiceDomain n) = true) ∧ (536 ≤ n) ∧ (n < 538) ∧ (slRoom s n = true) ∧ (hubOp (slTick n dt s) n (r % 32) op = some (key, budget)) ∧ (hubHas s n (r % 32) key = false)) ∧
  (∃ (n r op acc dt : Nat) (q : MemReq) (rest : List MemReq) (s : State),
    (stopped s = false) ∧ (domOn s (sluiceDomain n) = true) ∧ (n < 512) ∧ (takeFirst (fun q => q.chan == n && memArrived (slTick n dt s) q && (!isF s MEMCTL_CTRL_MODE (n / 32) || decide (8 ≤ q.cls))) (mcOf s (n / 32)).issued = some (q, rest)) ∧ (q.chan = n) ∧ (slRoom s n = true)) ∧
  (∃ (n dt : Nat) (r : Nat) (fresh : Bool) (q : SlReq) (rest : List SlReq) (k : Nat) (s : State),
    (stopped s = false) ∧ (domOn s (sluiceDomain n) = true) ∧ (536 ≤ n) ∧ (n < 538) ∧ (slNext (slTick n dt s) n false (fun _ => true) = some (r, fresh)) ∧ (takeFirst (fun x => x.r == r && true) (sluiceOf s n).queue = some (q, rest)) ∧ (q.pay = .op k)) ∧
  (∃ (n dt : Nat) (r : Nat) (fresh : Bool) (q : SlReq) (rest : List SlReq) (x : MemReq) (s : State),
    (stopped s = false) ∧ (domOn s (sluiceDomain n) = true) ∧ (n < 512) ∧ (chanHeld s n = false) ∧ (slNext (slTick n dt s) n (!isF s MEMCTL_CTRL_MODE (n / 32)) (memReady (slTick n dt s) n) = some (r, fresh)) ∧ (takeFirst (fun x => x.r == r && memReady (slTick n dt s) n x) (sluiceOf s n).queue = some (q, rest)) ∧ (q.pay = .mem x)) ∧
  (∃ (n dt : Nat) (s : State),
    (stopped s = false) ∧ (domOn s (sluiceDomain n) = true)) ∧
  (∃ (n dt : Nat) (s : State),
    (stopped s = false) ∧ (domOn s (sluiceDomain n) = true)) :=
  ⟨⟨537, 16, 0, 0, 5, 0, 1024, setFk HOSTIF_JRN_CFG_DRAIN 0 0 1 (setFk HOSTIF_JRN_WR 0 0 16 (setFk PWR_DOM_STAT 0 3 (2 ^ 27) State.reset)), by decide +kernel⟩,
  ⟨0, 0, 0, 0, 4, reqM, [], modMc 0 (fun m => { m with issued := [reqM] }) stackOn, by decide +kernel⟩,
  ⟨537, 1, 2, true, slA, [], 0, slS, by decide +kernel⟩,
  ⟨0, 1, 0, true, { slA with r := 0, pay := .mem reqM }, [], reqM, modSluice 0 (fun x => { x with queue := [{ slA with r := 0, pay := .mem reqM }] }) stackOn, by decide +kernel⟩,
  ⟨537, 1, slS, by decide +kernel⟩,
  ⟨537, 1, slS, by decide +kernel⟩⟩

theorem test_witness_SynchronisationObjects :
  (∃ (o : SyncOp) (r : List SyncOp) (s : State),
    (stopped s = false) ∧ (crossNext s 0x51 [] s.crossing = some (o, r)) ∧ (stale s o = false)) ∧
  (∃ (cl lid : Nat) (l : ListRun) (d : List Byte) (s : State),
    (stopped s = false) ∧ (listOf s cl lid = some l) ∧ (l.desc = some d) ∧ (l.st = .run) ∧ (syncCode false d = 0) ∧ (bits (leVal (d.take 4)) 0 8 = 0x51) ∧ (crossBefore s (markOp l d (syncOpOf s cl l d)) ≤ Config.issueDepth)) ∧
  (∃ (o : SyncOp) (r : List SyncOp) (s : State),
    (stopped s = false) ∧ (crossNext s 0x52 [] s.crossing = some (o, r)) ∧ (stale s o = false) ∧ ((objOf s (objKey o.home 0 o.obj)).waiters = []) ∧ ((objOf s (objKey o.home 0 o.obj)).count < o.count)) ∧
  (∃ (o : SyncOp) (r : List SyncOp) (s : State),
    (stopped s = false) ∧ (crossNext s 0x52 [] s.crossing = some (o, r)) ∧ (stale s o = false) ∧ ((objOf s (objKey o.home 0 o.obj)).waiters = []) ∧ (o.count ≤ (objOf s (objKey o.home 0 o.obj)).count)) ∧
  (∃ (o : SyncOp) (r : List SyncOp) (s : State),
    (stopped s = false) ∧ (crossNext s 0x53 [] s.crossing = some (o, r)) ∧ (stale s o = false) ∧ ((objOf s (objKey o.home 1 o.obj)).count + o.count < getFk s SYNC_BAR_CFG_N o.home o.obj) ∧ (getFk s SYNC_BAR_CFG_N o.home o.obj ≤ 65535)) ∧
  (∃ (o : SyncOp) (r : List SyncOp) (s : State),
    (stopped s = false) ∧ (crossNext s 0x53 [] s.crossing = some (o, r)) ∧ (stale s o = false) ∧ ((objOf s (objKey o.home 1 o.obj)).count + o.count = getFk s SYNC_BAR_CFG_N o.home o.obj) ∧ (0 < getFk s SYNC_BAR_CFG_N o.home o.obj) ∧ (getFk s SYNC_BAR_CFG_N o.home o.obj ≤ 65535)) ∧
  (∃ (home flag cyc : Nat) (o : SyncOp) (r : List SyncOp) (s : State),
    (stopped s = false) ∧ (takeFirst (fun o => o.op == 0x52 && o.home == home && o.obj == flag) s.crossing = some (o, r))) :=
  ⟨⟨sigO, [], flagS [sigO], by decide +kernel⟩,
  ⟨0, 1, listL (leBytes 1 0x51 ++ zeros 5 ++ leBytes 1 1 ++ zeros 25), leBytes 1 0x51 ++ zeros 5 ++ leBytes 1 1 ++ zeros 25, modCluster 0 (fun c => { c with lists := [listL (leBytes 1 0x51 ++ zeros 5 ++ leBytes 1 1 ++ zeros 25)] }) State.reset, by decide +kernel, by decide +kernel, by decide +kernel, by decide +kernel, by decide +kernel, by decide +kernel, Nat.zero_le _⟩,
  ⟨waitO, [], flagS [waitO], by decide +kernel⟩,
  ⟨{ waitO with count := 0 }, [], flagS [{ waitO with count := 0 }], by decide +kernel⟩,
  ⟨arrO, [], barS 4 [arrO], by decide +kernel⟩,
  ⟨{ arrO with count := 4 }, [], barS 4 [{ arrO with count := 4 }], by decide +kernel⟩,
  ⟨0, 3, 5, waitO, [], flagS [waitO], by decide +kernel⟩⟩

theorem test_witness_SynchronisationRegisters :
  (∃ (r : Requester) (a v : Nat) (i o : Nat) (s : State),
    (a % 4 = 0) ∧ (target s r a = some (6, i, o)) ∧ (gate s r 6 i o = .pass) ∧ (i < 4) ∧ (0x100 ≤ o) ∧ (o < 0x200)) ∧
  (∃ (r : Requester) (a v : Nat) (i o : Nat) (s : State),
    (a % 4 = 0) ∧ (target s r a = some (6, i, o)) ∧ (gate s r 6 i o = .pass) ∧ (i < 4) ∧ (0x100 ≤ o) ∧ (o < 0x200) ∧ (¬ (getFk s SYNC_FLAG_OWN_OWNER i ((o - 0x100) / 4) = bits v 0 4 ∧ getFk s SYNC_FLAG_OWN_VALID i ((o - 0x100) / 4) = bits v 4 1))) ∧
  (∃ (r : Requester) (a v : Nat) (i o : Nat) (s : State),
    (a % 4 = 0) ∧ (target s r a = some (6, i, o)) ∧ (gate s r 6 i o = .pass) ∧ (0x200 ≤ o) ∧ (o < 0x600) ∧ (bits v 0 16 ≠ 0) ∧ (¬(i = 4 ∧ 64 ≤ (o - 0x200) / 4))) ∧
  (∃ (r : Requester) (a v : Nat) (i o : Nat) (s : State),
    (a % 4 = 0) ∧ (target s r a = some (6, i, o)) ∧ (gate s r 6 i o = .pass) ∧ (0x200 ≤ o) ∧ (o < 0x600) ∧ (bits v 0 16 ≠ 0) ∧ (¬(i = 4 ∧ 64 ≤ (o - 0x200) / 4)) ∧ (¬ (getFk s SYNC_BAR_CFG_OWNER i ((o - 0x200) / 4) = bits v 16 4 ∧ getFk s SYNC_BAR_CFG_VALID i ((o - 0x200) / 4) = bits v 20 1))) ∧
  (∃ (r : Requester) (a v : Nat) (i : Nat) (s : State),
    (a % 4 = 0) ∧ (target s r a = some (6, i, 0x618)) ∧ (gate s r 6 i 0x618 = .pass) ∧ (unlocked s = true) ∧ (bits v 16 1 = 0) ∧ (i ≠ 4) ∧ (∀ w ∈ (objOf s (objKey i 0 (bits v 17 12))).waiters.head?, bits v 0 16 < w.need)) ∧
  (∃ (r : Requester) (a v : Nat) (i : Nat) (w : Waiter) (s : State),
    (a % 4 = 0) ∧ (target s r a = some (6, i, 0x618)) ∧ (gate s r 6 i 0x618 = .pass) ∧ (unlocked s = true) ∧ (bits v 16 1 = 0) ∧ (i ≠ 4) ∧ ((objOf s (objKey i 0 (bits v 17 12))).waiters = [w]) ∧ (w.need ≤ bits v 0 16)) ∧
  (∃ (r : Requester) (a v : Nat) (i : Nat) (s : State),
    (a % 4 = 0) ∧ (target s r a = some (6, i, 0x618)) ∧ (gate s r 6 i 0x618 = .pass) ∧ (unlocked s = true) ∧ (bits v 16 1 = 1) ∧ (bits v 17 12 < 256) ∧ (¬(i = 4 ∧ 64 ≤ bits v 17 12)) ∧ (bits v 0 16 < getFk s SYNC_BAR_CFG_N i (bits v 17 12))) ∧
  (∃ (r : Requester) (a v : Nat) (i : Nat) (s : State),
    (a % 4 = 0) ∧ (target s r a = some (6, i, 0x618)) ∧ (gate s r 6 i 0x618 = .pass) ∧ (unlocked s = true) ∧ (bits v 16 1 = 1) ∧ (bits v 17 12 < 256) ∧ (¬(i = 4 ∧ 64 ≤ bits v 17 12)) ∧ (0 < getFk s SYNC_BAR_CFG_N i (bits v 17 12)) ∧ (getFk s SYNC_BAR_CFG_N i (bits v 17 12) ≤ bits v 0 16) ∧ (bits v 0 16 < 2 * getFk s SYNC_BAR_CFG_N i (bits v 17 12))) :=
  ⟨⟨.hubPair 0, 0x580100, 0x15, 0, 0x100, State.reset, by decide +kernel⟩,
  ⟨.hubPair 0, 0x580100, 0x15, 0, 0x100, State.reset, by decide +kernel⟩,
  ⟨.hubPair 0, 0x580200, 0x100004, 0, 0x200, State.reset, by decide +kernel⟩,
  ⟨.hubPair 0, 0x580200, 0x100004, 0, 0x200, State.reset, by decide +kernel⟩,
  ⟨.hubPair 0, 0x580618, 7, 0, setF DEBUG_STAT_UNLOCKED 0 1 State.reset, by decide +kernel⟩,
  ⟨.hubPair 0, 0x580618, 7, 0, ⟨⟨0, 1⟩, 0, 2, false⟩, modObj (objKey 0 0 0) (fun x => { x with waiters := [⟨⟨0, 1⟩, 0, 2, false⟩] }) (setF DEBUG_STAT_UNLOCKED 0 1 State.reset), by decide +kernel⟩,
  ⟨.hubPair 0, 0x580618, 0x10001, 0, setFk SYNC_BAR_CFG_N 0 0 4 (setF DEBUG_STAT_UNLOCKED 0 1 State.reset), by decide +kernel⟩,
  ⟨.hubPair 0, 0x580618, 0x10005, 0, setFk SYNC_BAR_CFG_N 0 0 4 (setF DEBUG_STAT_UNLOCKED 0 1 State.reset), by decide +kernel⟩⟩

theorem test_witness_CheckUnits :
  (∃ (r : Requester) (a v : Nat) (i : Nat) (s : State),
    (a % 4 = 0) ∧ (target s r a = some (10, i, 0x100)) ∧ (gate s r 10 i 0x100 = .pass)) ∧
  (∃ (r : Requester) (a v : Nat) (i : Nat) (s : State),
    (a % 4 = 0) ∧ (target s r a = some (10, i, 0x104)) ∧ (gate s r 10 i 0x104 = .pass)) ∧
  (∃ (r : Requester) (a v : Nat) (i : Nat) (s : State),
    (a % 4 = 0) ∧ (target s r a = some (10, i, 0x108)) ∧ (gate s r 10 i 0x108 = .pass)) ∧
  (∃ (r : Requester) (a v : Nat) (i : Nat) (s : State),
    (a % 4 = 0) ∧ (target s r a = some (10, i, 0x10)) ∧ (gate s r 10 i 0x10 = .pass) ∧ (v.testBit 2 = true)) ∧
  (∃ (r : Requester) (a v : Nat) (i : Nat) (s : State),
    (a % 4 = 0) ∧ (target s r a = some (10, i, 0x10)) ∧ (gate s r 10 i 0x10 = .pass) ∧ (v.testBit 3 = true)) :=
  ⟨⟨.pf, 0x5a4100, 1, 4, allOn, by decide +kernel⟩,
  ⟨.pf, 0x5a4104, 1, 4, allOn, by decide +kernel⟩,
  ⟨.pf, 0x5a4108, 1, 4, allOn, by decide +kernel⟩,
  ⟨.pf, 0x5a4010, 4, 4, allOn, by decide +kernel⟩,
  ⟨.pf, 0x5a4010, 8, 4, allOn, by decide +kernel⟩⟩

theorem test_witness_BreakwaterTrips :
  (∃ (k t : Nat) (l : Nat) (s : State),
    (tripLevel k = some l) ∧ (l ≤ t) ∧ (isF s BRKW_STAT_FAULT 0 = false)) ∧
  (∃ (cl : Nat) (s : State),
    (stopped s = false) ∧ (domOn s (32 + cl / 8) = true)) ∧
  (∃ (cl : Nat) (s : State),
    (stopped s = false) ∧ (domOn s (32 + cl / 8) = true)) ∧
  (∃ (p : Nat) (s : State),
    (s.inReset = none) ∧ (getF s PWR_STAT_STATE 0 ≠ 2) ∧ (p < 12) ∧ (s.brk.stopped.contains p = false) ∧ (isF s BRKW_STAT_FAULT 0 = false)) ∧
  (∃ (p : Nat) (s : State),
    (s.inReset = none) ∧ (getF s PWR_STAT_STATE 0 ≠ 2) ∧ (p < 12) ∧ (wdogArmed s p = true) ∧ (isF s BRKW_STAT_FAULT 0 = false)) ∧
  (∃ (ms : Nat) (s : State),
    (10 ≤ ms)) ∧
  (∃ (r : Requester) (a v : Nat) (s : State),
    (target s r a = some (15, 0, 0x10)) ∧ (gate s r 15 0 0x10 = .pass) ∧ (bit v 1 = true) ∧ (unlocked s = true) ∧ (isF s BRKW_STAT_FAULT 0 = false)) :=
  ⟨⟨0, 120, 115, State.reset, by decide +kernel⟩,
  ⟨0, allOn, by decide +kernel⟩,
  ⟨0, allOn, by decide +kernel⟩,
  ⟨3, State.reset, by decide +kernel⟩,
  ⟨2, setF BRKW_STAT_ARMED 0 4 State.reset, by decide +kernel⟩,
  ⟨10, State.reset, by decide +kernel⟩,
  ⟨.pf, 0x5C3010, 2, setF DEBUG_STAT_UNLOCKED 0 1 State.reset, by decide +kernel⟩⟩

theorem test_witness_BreakwaterRegisters :
  (∃ (a v : Nat) (p o : Nat) (s : State),
    (target s (.hubPair p) a = some (15, 0, o)) ∧ (gate s (.hubPair p) 15 0 o = .pass) ∧ (kickIndex 15 o = some p) ∧ (v % 65536 = 0x5AA5) ∧ (s.brk.half.contains p = false)) ∧
  (∃ (a v : Nat) (p o : Nat) (s : State),
    (target s (.hubPair p) a = some (15, 0, o)) ∧ (gate s (.hubPair p) 15 0 o = .pass) ∧ (kickIndex 15 o = some p) ∧ (v % 65536 = 0xA55A) ∧ (s.brk.half.contains p = true)) ∧
  (∃ (a v : Nat) (p o q : Nat) (s : State),
    (target s (.hubPair p) a = some (15, 0, o)) ∧ (gate s (.hubPair p) 15 0 o = .pass) ∧ (kickIndex 15 o = some q) ∧ (p ≠ q)) ∧
  (∃ (s : State),
    True) ∧
  (∃ (a v : Nat) (s : State),
    (target s .pf a = some (15, 0, 0x10)) ∧ (gate s .pf 15 0 0x10 = .pass) ∧ (bit v 0 = true)) ∧
  (∃ (r : Requester) (a v : Nat) (s : State),
    (target s r a = some (15, 0, 0x140)) ∧ (gate s r 15 0 0x140 = .pass) ∧ (s.brk.wdogSet = false) ∧ (10 ≤ v % 1024) ∧ (v % 1024 ≤ 1000)) :=
  ⟨⟨0x5C3100, 0x5AA5, 0, 0x100, State.reset, by decide +kernel⟩,
  ⟨0x5C3100, 0xA55A, 0, 0x100, { State.reset with brk := { half := [0] } }, by decide +kernel⟩,
  ⟨0x5C3104, 0x5AA5, 0, 0x104, 1, State.reset, by decide +kernel⟩,
  ⟨State.reset, by decide +kernel⟩,
  ⟨0x5C3010, 1, State.reset, by decide +kernel⟩,
  ⟨.pf, 0x5C3140, 50, State.reset, by decide +kernel⟩⟩

theorem test_witness_BootAndOtp :
  (∃ (off : Nat) (data : List Byte) (s : State),
    (s.inReset = none) ∧ (off + data.length ≤ mbxLen) ∧ (bootState s ≠ 2) ∧ (bootState s ≠ 3)) ∧
  (∃ (off : Nat) (data : List Byte) (s : State),
    (s.inReset = none) ∧ (off + data.length ≤ mbxLen) ∧ (bootState s = 2 ∨ bootState s = 3)) ∧
  (∃ (r : Requester) (a v : Nat) (s : State),
    (target s r a = some (18, 0, 0x10)) ∧ (gate s r 18 0 0x10 = .pass) ∧ (bit v 0 = true) ∧ (bootState s = 1 ∨ bootState s = 4 ∨ bootState s = 6)) ∧
  (∃ (s : State),
    (s.inReset = none) ∧ (getF s PWR_STAT_STATE 0 ≠ 2) ∧ (bootState s = 2) ∧ (s.romProg = false) ∧ (s.brk.stopped.contains 0 = false)) ∧
  (∃ (r : Requester) (a v : Nat) (s : State),
    (target s r a = some (17, 0, 0x10)) ∧ (gate s r 17 0 0x10 = .pass) ∧ (bit v 0 = true) ∧ (progAllowed s (getF s OTP_PROG_FIELD 0) (progData s (getF s OTP_PROG_FIELD 0)) = true) ∧ ((otpNext s (getF s OTP_PROG_FIELD 0)).isSome = true)) ∧
  (∃ (r : Requester) (a v : Nat) (s : State),
    (target s r a = some (17, 0, 0x10)) ∧ (gate s r 17 0 0x10 = .pass) ∧ (bit v 0 = true) ∧ (progAllowed s (getF s OTP_PROG_FIELD 0) (progData s (getF s OTP_PROG_FIELD 0)) = false)) ∧
  (∃ (q : OtpReq) (rest : List OtpReq) (g off len slot : Nat) (cls : OtpCls) (s : State),
    (s.otpq = q :: rest) ∧ (q.rom = false) ∧ (otpNext s q.field = some g) ∧ (otpField q.field = some (off, len, slot, cls))) ∧
  (∃ (q : OtpReq) (rest : List OtpReq) (g : Nat) (s : State),
    (s.otpq = q :: rest) ∧ (q.rom = false) ∧ (otpNext s q.field = some g)) :=
  ⟨⟨16, [1, 2], State.reset, by decide +kernel⟩,
  ⟨16, [1, 2], setF BOOT_STAT_STATE 0 2 State.reset, by decide +kernel⟩,
  ⟨.pf, 0x5C6010, 1, setF BOOT_STAT_STATE 0 1 State.reset, by decide +kernel⟩,
  ⟨setF BOOT_STAT_STATE 0 2 State.reset, by decide +kernel⟩,
  ⟨.pf, 0x5C5010, 1, setF OTP_PROG_FIELD 0 8 State.reset, by decide +kernel⟩,
  ⟨.pf, 0x5C5010, 1, setF OTP_PROG_FIELD 0 0 { State.reset with otp := [(0x7F8, 1)] }, by decide +kernel⟩,
  ⟨{ field := 8, value := List.replicate 32 1 }, [], 0, 0x4A0, 32, 40, .h, { State.reset with otpq := [{ field := 8, value := List.replicate 32 1 }] }, by decide +kernel⟩,
  ⟨{ field := 8, value := List.replicate 32 1 }, [], 0, { State.reset with otpq := [{ field := 8, value := List.replicate 32 1 }] }, by decide +kernel⟩⟩

theorem test_witness_AttestationAndUnlock :
  (∃ (s : State),
    (s.inReset = none) ∧ (getF s PWR_STAT_STATE 0 ≠ 2) ∧ (bootState s = 3)) ∧
  (∃ (h : Nat) (s : State),
    (stopped s = false) ∧ (isF s BOOT_STAT_ID_READY 0 = true) ∧ (cmdReady s h 3 = true) ∧ ((bit (dbgPolicy s) 1 && unlocked s) = false)) ∧
  (∃ (h : Nat) (s : State),
    (stopped s = false) ∧ (isF s BOOT_STAT_ID_READY 0 = true) ∧ (cmdReady s h 3 = true) ∧ ((bit (dbgPolicy s) 1 && unlocked s) = true)) ∧
  (∃ (r : Requester) (a v : Nat) (s : State),
    (target s r a = some (19, 0, 0x10)) ∧ (gate s r 19 0 0x10 = .pass) ∧ (bit v 0 = true)) ∧
  (∃ (r : Requester) (a v : Nat) (s : State),
    (target s r a = some (19, 0, 0x10)) ∧ (gate s r 19 0 0x10 = .pass) ∧ (bit v 1 = true) ∧ (isF s DEBUG_STAT_BUSY 0 = false)) ∧
  (∃ (s : State),
    (s.inReset = none) ∧ (getF s PWR_STAT_STATE 0 ≠ 2) ∧ (isF s DEBUG_STAT_BUSY 0 = true) ∧ (s.brk.stopped.contains 0 = false)) ∧
  (∃ (r : Requester) (a v : Nat) (s : State),
    (target s r a = some (19, 0, 0x10)) ∧ (gate s r 19 0 0x10 = .pass) ∧ (bit v 2 = true)) :=
  ⟨⟨setF BOOT_STAT_STATE 0 3 State.reset, by decide +kernel⟩,
  ⟨1048576, setF BOOT_STAT_ID_READY 0 1 (cmdS 3), by decide +kernel⟩,
  ⟨1048576, setF DEBUG_STAT_UNLOCKED 0 1 (setF BOOT_STAT_ID_READY 0 1 { cmdS 3 with otp := [(0x080, 2)] ++ Store.putAll 0 0x084 (leBytes 2 (crc16 [2, 0, 0, 0]) ++ [0xA5]) [] }), by decide +kernel⟩,
  ⟨.pf, 0x5C7010, 1, allOn, by decide +kernel⟩,
  ⟨.pf, 0x5C7010, 2, allOn, by decide +kernel⟩,
  ⟨setF DEBUG_STAT_BUSY 0 1 State.reset, by decide +kernel⟩,
  ⟨.pf, 0x5C7010, 4, allOn, by decide +kernel⟩⟩

theorem test_witness_CommandQueues :
  (∃ (r : Requester) (a v : Nat) (c q : Nat) (s : State),
    (a % 4 = 0) ∧ (target s r a = some (12, c, 0x10C + 64 * q)) ∧ (gate s r 12 c (0x10C + 64 * q) = .pass) ∧ (q < 4) ∧ (v % 65536 < sqSize s c q)) ∧
  (∃ (r : Requester) (a v : Nat) (c q : Nat) (s : State),
    (a % 4 = 0) ∧ (target s r a = some (12, c, 0x10C + 64 * q)) ∧ (gate s r 12 c (0x10C + 64 * q) = .pass) ∧ (q < 4) ∧ (sqSize s c q ≤ v % 65536)) ∧
  (∃ (r : Requester) (a v : Nat) (c q : Nat) (s : State),
    (a % 4 = 0) ∧ (target s r a = some (12, c, 0x108 + 64 * q)) ∧ (gate s r 12 c (0x108 + 64 * q) = .pass) ∧ (q < 4) ∧ (rangesOk v (fldsAt 12 (0x108 + 64 * q)) = true)) ∧
  (∃ (c q : Nat) (entry : List Byte) (n : Nat) (x : Ctx) (s : State),
    (stopped s = false) ∧ (c < 16) ∧ (q < 4) ∧ (sqFetches s c q = true) ∧ (nextSlot (ctxOf s c) = some (n, x))) ∧
  (∃ (c q : Nat) (n : Nat) (rest : List Nat) (s : State),
    (stopped s = false) ∧ ((queueOf s c q).waiting = n :: rest) ∧ (mayStart s c q (slotOf s c n).entry = true) ∧ (cmdValid (slotOf s c n).entry = true) ∧ (cmdDenied s c (slotOf s c n).entry = false)) ∧
  (∃ (c q : Nat) (n : Nat) (rest : List Nat) (s : State),
    (stopped s = false) ∧ ((queueOf s c q).waiting = n :: rest) ∧ (mayStart s c q (slotOf s c n).entry = true) ∧ (cmdValid (slotOf s c n).entry = false)) ∧
  (∃ (c q : Nat) (n : Nat) (rest : List Nat) (s : State),
    (stopped s = false) ∧ ((queueOf s c q).waiting = n :: rest) ∧ (mayStart s c q (slotOf s c n).entry = true) ∧ (cmdValid (slotOf s c n).entry = true) ∧ (cmdDenied s c (slotOf s c n).entry = true)) ∧
  (∃ (n : Nat) (r : Report) (rest : List Report) (s : State),
    (stopped s = false) ∧ (takeAt n s.reports = some (r, rest)) ∧ (handleLive s r.handle = true) ∧ (cqStuck s (hCtx r.handle) (slotOf s (hCtx r.handle) (hSlot r.handle)).sq = false) ∧ (reportBehind s n r = false)) ∧
  (∃ (n : Nat) (r : Report) (rest : List Report) (s : State),
    (stopped s = false) ∧ (takeAt n s.reports = some (r, rest)) ∧ (handleLive s r.handle = false) ∧ (reportBehind s n r = false)) ∧
  (∃ (r : Requester) (a v waited : Nat) (c q : Nat) (s : State),
    (a % 4 = 0) ∧ (target s r a = some (12, c, 0x120 + 64 * q)) ∧ (gate s r 12 c (0x120 + 64 * q) = .pass) ∧ (q < 4)) ∧
  (∃ (c q : Nat) (s : State),
    (stopped s = false) ∧ ((queueOf s c q).coal ≠ 0) ∧ (getFk s CQ_CQ_CFG_COAL_US c q ≠ 0)) :=
  ⟨⟨.pf, 0x5b110c, 1, 0, 0, allOn, by decide +kernel⟩,
  ⟨.pf, 0x5b110c, 0xFFFF, 0, 0, allOn, by decide +kernel⟩,
  ⟨.pf, 0x5b1108, 0x106, 0, 0, allOn, by decide +kernel⟩,
  ⟨0, 0, zeros 64, 0, { fresh := 1 }, setFk CQ_SQ_CFG_EN 0 0 1 (setFk CQ_SQ_TAIL 0 0 1 stackOn), by decide +kernel⟩,
  ⟨0, 0, 0, [], modQueue 0 0 (fun x => { x with waiting := [0] }) (modSlot 0 0 (fun _ => { inUse := true, entry := leBytes 1 1 ++ zeros 63 }) stackOn), by decide +kernel⟩,
  ⟨0, 0, 0, [], modQueue 0 0 (fun x => { x with waiting := [0] }) (modSlot 0 0 (fun _ => { inUse := true, entry := leBytes 1 0x7F ++ zeros 63 }) stackOn), by decide +kernel⟩,
  ⟨1, 0, 0, [], modQueue 1 0 (fun x => { x with waiting := [0] }) (modSlot 1 0 (fun _ => { inUse := true, entry := leBytes 1 0x52 ++ zeros 63 }) stackOn), by decide +kernel⟩,
  ⟨0, ⟨1048576, 0, 0, 0⟩, [], { cmdS 1 with reports := [⟨1048576, 0, 0, 0⟩] }, by decide +kernel⟩,
  ⟨0, ⟨1048576, 0, 0, 0⟩, [], { State.reset with reports := [⟨1048576, 0, 0, 0⟩] }, by decide +kernel⟩,
  ⟨.pf, 0x5b1120, 1, 0, 0, 0, allOn, by decide +kernel⟩,
  ⟨0, 0, setFk CQ_CQ_CFG_COAL_US 0 0 5 (modQueue 0 0 (fun x => { x with coal := 1 }) State.reset), by decide +kernel⟩⟩

theorem test_witness_Bar2AndSimpleCommands :
  (∃ (off n : Nat) (bs : List Byte) (s : State),
    (isAwake s = true) ∧ (isF s HOSTIF_BAR2_CTRL_EN 0 = true) ∧ (memRead s 0 (bar2Addr s off) n = .data bs)) ∧
  (∃ (off n : Nat) (s : State),
    (isAwake s = true) ∧ (isF s HOSTIF_BAR2_CTRL_EN 0 = false)) ∧
  (∃ (off : Nat) (data : List Byte) (j k chan page o : Nat) (b : Byte) (s : State),
    (isAwake s = true) ∧ (isF s HOSTIF_BAR2_CTRL_EN 0 = true) ∧ (firstMiss s 0 (bar2Addr s off) data.length = none) ∧ (data[j]? = some b) ∧ (lookup s 0 (bar2Addr s off + j) = .hit chan page o) ∧ (redirect s chan page o = some k) ∧ (∀ i, j < i → i < data.length → ∀ c p o, lookup s 0 (bar2Addr s off + i) = .hit c p o → redirect s c p o ≠ some k)) ∧
  (∃ (off : Nat) (data : List Byte) (l : Lookup) (s : State),
    (isAwake s = true) ∧ (isF s HOSTIF_BAR2_CTRL_EN 0 = true) ∧ (firstMiss s 0 (bar2Addr s off) data.length = some l)) ∧
  (∃ (h : Nat) (s : State),
    (stopped s = false) ∧ (cmdReady s h 1 = true)) ∧
  (∃ (h : Nat) (s : State),
    (stopped s = false) ∧ (cmdReady s h 0x10 = true) ∧ (stepIsOpen s (hCtx h) = false)) ∧
  (∃ (h : Nat) (s : State),
    (stopped s = false) ∧ (cmdReady s h 0x10 = true) ∧ (stepIsOpen s (hCtx h) = true)) :=
  ⟨⟨0, 1, [0], setF HOSTIF_BAR2_CTRL_EN 0 1 mapped, by decide +kernel⟩,
  ⟨0, 1, stackOn, by decide +kernel⟩,
  ⟨0, [1], 0, 0, 0, 0, 0, 1, setF HOSTIF_BAR2_CTRL_EN 0 1 mapped, by decide +kernel, by decide +kernel, by decide +kernel, by decide +kernel, by decide +kernel, by decide +kernel, fun i h1 h2 => absurd h2 (by simp only [List.length_cons, List.length_nil]; omega)⟩,
  ⟨0, [1], .miss 0, setF HOSTIF_BAR2_CTRL_EN 0 1 stackOn, by decide +kernel⟩,
  ⟨1048576, cmdS 1, by decide +kernel⟩,
  ⟨1048576, cmdS 0x10, by decide +kernel⟩,
  ⟨1048576, modCtx 0 (fun x => { x with steps := [{ step := 1, handle := 0 }] }) (cmdS 0x10), by decide +kernel⟩⟩

theorem test_witness_ThermalAndPowerSteps :
  (∃ (m t : Nat) (s : State),
    (stopped s = false) ∧ (domOn s (64 + m) = true) ∧ (m < 16)) ∧
  (∃ (m : Nat) (s : State),
    (stopped s = false) ∧ (domOn s (64 + m) = true) ∧ (m < 16) ∧ (isF s MEMCTL_STAT_THROTTLE m = true) ∧ (s.brk.stopped.contains (5 + 2 * (m / 4)) = false)) ∧
  (∃ (rg t : Nat) (s : State),
    (s.inReset = none) ∧ (getF s PWR_STAT_STATE 0 ≠ 2) ∧ (rg < 32) ∧ (s.brk.stopped.contains (5 + 2 * (rg / 8)) = false)) ∧
  (∃ (w : Nat) (s : State),
    (s.inReset = none) ∧ (getF s PWR_STAT_STATE 0 ≠ 2) ∧ (s.brk.stopped.contains 3 = false)) :=
  ⟨⟨0, 90, stackOn, by decide +kernel⟩,
  ⟨0, setF MEMCTL_STAT_THROTTLE 0 1 stackOn, by decide +kernel⟩,
  ⟨0, 100, State.reset, by decide +kernel⟩,
  ⟨70000, State.reset, by decide +kernel⟩⟩

theorem test_witness_SupplyEvents :
  (∃ (d : Nat) (s : State),
    (stopped s = false) ∧ (d < 4)) ∧
  (∃ (r mv : Nat) (l : Nat × Nat × Nat) (s : State),
    (s.inReset = none) ∧ (railLevels r = some l) ∧ (mv < l.1) ∧ (railDipped s r = false)) ∧
  (∃ (r mv us : Nat) (d : Dip) (s : State),
    (stopped s = false) ∧ ((s.pow.dips.find? fun d => d.rail == r) = some d)) ∧
  (∃ (x : Supply) (rest : List Supply) (s : State),
    (stopped s = false) ∧ (s.pow.supply = x :: rest) ∧ (jrnOnList s 16 ≠ [])) ∧
  (∃ (ms : Nat) (s : State),
    (s.inReset = none) ∧ (10 ≤ ms) ∧ (s.pow.dips = [])) :=
  ⟨⟨2, State.reset, by decide +kernel⟩,
  ⟨0, 44000, (45000, 46000, 42000), State.reset, by decide +kernel⟩,
  ⟨0, 44000, 5, { rail := 0 }, { State.reset with pow := { State.reset.pow with dips := [{ rail := 0 }] } }, by decide +kernel⟩,
  ⟨{ rail := 0, minMv := 1, durUs := 2, tiles := 0, fails := 0 }, [], setFk HOSTIF_JRN_CFG_EN 0 0 1 { State.reset with pow := { State.reset.pow with supply := [{ rail := 0, minMv := 1, durUs := 2, tiles := 0, fails := 0 }] } }, by decide +kernel⟩,
  ⟨10, setF PWR_STAT_HOLDOFF 0 1 State.reset, by decide +kernel⟩⟩

theorem test_witness_PowerDomainsAndStates :
  (∃ (n : Nat) (s : State),
    (s.inReset = none) ∧ (getF s PWR_STAT_STATE 0 = 0) ∧ (n < 128) ∧ (domWanted s n = true) ∧ (domOn s n = false) ∧ (isF s BRKW_STAT_FAULT 0 = false) ∧ (32 ≤ n ∨ domOn s (32 + n) = true) ∧ (s.brk.stopped.contains 3 = false)) ∧
  (∃ (r : Requester) (a v : Nat) (n : Nat) (s : State),
    (target s r a = some (13, 0, 0x100 + 4 * (n / 32))) ∧ (gate s r 13 0 (0x100 + 4 * (n / 32)) = .pass) ∧ (n < 128) ∧ (∀ j < 32, v.testBit j = decide (j ≠ n % 32)) ∧ (domOn s n = true) ∧ (mayBeOff (setFk PWR_DOM_REQ 0 (n / 32) v s) n = true) ∧ (s.brk.stopped.contains 3 = false)) ∧
  (∃ (r : Requester) (a v : Nat) (n : Nat) (s : State),
    (target s r a = some (13, 0, 0x100 + 4 * (n / 32))) ∧ (gate s r 13 0 (0x100 + 4 * (n / 32)) = .pass) ∧ (n < 128) ∧ (∀ j < 32, v.testBit j = decide (j ≠ n % 32)) ∧ (domOn s n = true) ∧ (mayBeOff (setFk PWR_DOM_REQ 0 (n / 32) v s) n = false) ∧ (s.brk.stopped.contains 3 = false)) ∧
  (∃ (r : Requester) (a v : Nat) (s : State),
    (target s r a = some (13, 0, 0x10)) ∧ (gate s r 13 0 0x10 = .pass) ∧ (v % 4 = 1) ∧ (getF s PWR_STAT_STATE 0 = 0) ∧ (stateRefused s = false)) ∧
  (∃ (r : Requester) (a v : Nat) (s : State),
    (target s r a = some (13, 0, 0x10)) ∧ (gate s r 13 0 0x10 = .pass) ∧ (v % 4 = 1) ∧ (getF s PWR_STAT_STATE 0 = 0) ∧ (stateRefused s = true)) ∧
  (∃ (r : Requester) (a v : Nat) (s : State),
    (target s r a = some (13, 0, 0x10)) ∧ (gate s r 13 0 0x10 = .pass) ∧ (v % 4 = 0) ∧ (getF s PWR_STAT_STATE 0 = 1)) ∧
  (∃ (r : Requester) (a v : Nat) (s : State),
    (target s r a = some (13, 0, 0x10)) ∧ (gate s r 13 0 0x10 = .pass) ∧ (v % 4 = 2) ∧ (getF s PWR_STAT_STATE 0 ≠ 2) ∧ (stateRefused s = false)) ∧
  (∃ (r : Requester) (a v : Nat) (s : State),
    (target s r a = some (13, 0, 0x120)) ∧ (gate s r 13 0 0x120 = .pass) ∧ (bit v 0 = false) ∧ (∀ f ∈ (clusterOf s (bits v 1 10 / 4)).fences, f = bits v 1 10 % 4)) ∧
  (∃ (r : Requester) (a v : Nat) (s : State),
    (target s r a = some (13, 0, 0x120)) ∧ (gate s r 13 0 0x120 = .pass) ∧ (bit v 0 = true)) :=
  ⟨⟨100, setFk PWR_DOM_STAT 0 3 0 State.reset, by decide +kernel⟩,
  ⟨.pf, 0x5c1100, 0xFFFFFFFE, 0, allOn, by decide +kernel⟩,
  ⟨.pf, 0x5c1100, 0xFFFFFFFE, 0, setFk PWR_DOM_STAT 0 1 0 allOn, by decide +kernel⟩,
  ⟨.pf, 0x5c1010, 1, allOn, by decide +kernel⟩,
  ⟨.pf, 0x5c1010, 1, modCtx 0 (fun x => { x with steps := [{ step := 1, handle := 0 }] }) allOn, by decide +kernel⟩,
  ⟨.pf, 0x5c1010, 0, setF PWR_STAT_STATE 0 1 State.reset, by decide +kernel⟩,
  ⟨.pf, 0x5c1010, 2, allOn, by decide +kernel⟩,
  ⟨.pf, 0x5c1120, 2, State.reset, by decide +kernel⟩,
  ⟨.pf, 0x5c1120, 1, State.reset, by decide +kernel⟩⟩

theorem test_witness_ResetsOfTheModule :
  (∃ (s : State),
    (s.inReset ≠ some .c) ∧ (s.brk.tripped = [])) ∧
  (∃ (s : State),
    (s.inReset = none) ∧ (s.brk.tripped = [])) ∧
  (∃ (r mv : Nat) (l : Nat × Nat × Nat) (s : State),
    (railLevels r = some l) ∧ (mv < l.2.2) ∧ (s.inReset ≠ some .c) ∧ (s.brk.tripped = []) ∧ (isF s BRKW_STAT_FAULT 0 = false)) ∧
  (∃ (s : State),
    (s.brk.held = none)) ∧
  (∃ (s : State),
    (s.brk.held = some .c)) ∧
  (∃ (s : State),
    (s.inReset = some .p)) ∧
  (∃ (ms pos gaddr : Nat) (s : State),
    (10 ≤ ms) ∧ (bootState s = 0) ∧ (s.inReset ≠ some .p)) :=
  ⟨⟨State.reset, by decide +kernel⟩,
  ⟨State.reset, by decide +kernel⟩,
  ⟨0, 41000, (45000, 46000, 42000), State.reset, by decide +kernel⟩,
  ⟨State.reset, by decide +kernel⟩,
  ⟨{ State.reset with brk := { State.reset.brk with held := some .c } }, by decide +kernel⟩,
  ⟨{ State.reset with inReset := some .p }, by decide +kernel⟩,
  ⟨10, 1, 0, { State.reset with inReset := some .c }, by decide +kernel⟩⟩

theorem test_witness_ResetsOfFunctionsAndContexts :
  (∃ (s : State),
    (s.inReset = none) ∧ (getF s PWR_STAT_STATE 0 ≠ 2)) ∧
  (∃ (fn : Nat) (s : State),
    (s.inReset = none) ∧ (vfEnabled s fn = true) ∧ (fn ≠ 0)) ∧
  (∃ (s : State),
    (s.inReset = none)) ∧
  (∃ (en : Bool) (n : Nat) (s : State),
    (s.inReset = none) ∧ (n ≤ 15)) ∧
  (∃ (s : State),
    (s.inReset = none)) ∧
  (∃ (h : Nat) (s : State),
    (stopped s = false) ∧ (cmdReady s h 0x62 = true)) ∧
  (∃ (h : Nat) (s : State),
    (stopped s = false) ∧ (cmdReady s h 0x61 = true) ∧ (stepIsOpen s (argOf (entryOf s h) 0) = false)) ∧
  (∃ (h : Nat) (s : State),
    (stopped s = false) ∧ (cmdReady s h 0x60 = true)) :=
  ⟨⟨State.reset, by decide +kernel⟩,
  ⟨1, { State.reset with vfEnable := true, numVfs := 3 }, by decide +kernel⟩,
  ⟨State.reset, by decide +kernel⟩,
  ⟨true, 3, State.reset, by decide +kernel⟩,
  ⟨State.reset, by decide +kernel⟩,
  ⟨1048576, cmdS 0x62, by decide +kernel⟩,
  ⟨1048576, cmdS 0x61, by decide +kernel⟩,
  ⟨1048576, cmdS 0x60, by decide +kernel⟩⟩

theorem test_witness_GaugeMetering :
  (∃ (mv ma n : Nat) (g : GaugeRun) (s : State),
    (s.gauge.run = some g)) ∧
  (∃ (mv ma n : Nat) (g : GaugeRun) (s : State),
    (s.gauge.run = some g)) ∧
  (∃ (g : GaugeRun) (s : State),
    (s.gauge.run = some g)) ∧
  (∃ (cl : Nat) (s : State),
    (stopped s = false) ∧ (domOn s (32 + cl / 8) = true) ∧ ((clusterOf s cl).tally ≠ [])) ∧
  (∃ (bad : Bool) (alt : Flips) (g : GaugeRun) (f : TallyFrame) (rest : List TallyFrame) (s : State),
    (s.gauge.run = some g) ∧ (s.gauge.lines = f :: rest)) ∧
  (∃ (g : GaugeRun) (s : State),
    (s.gauge.run = some g) ∧ (1000 * g.interval ≤ gaugeLife g - g.now.start)) ∧
  (∃ (g : GaugeRun) (s : State),
    (s.gauge.run = some g)) ∧
  (∃ (g : GaugeRun) (body : List Byte) (rest : List (List Byte)) (s : State),
    (s.gauge.run = some g) ∧ (g.signing = body :: rest)) ∧
  (∃ (s : State),
    (s.gauge.run = none)) ∧
  (∃ (s : State),
    True) :=
  ⟨⟨48000, 50000, 1, {}, gaugeOn, by decide +kernel⟩,
  ⟨48000, 50000, 1, {}, gaugeOn, by decide +kernel⟩,
  ⟨{}, gaugeOn, by decide +kernel⟩,
  ⟨0, modCluster 0 (fun c => { c with tally := [(0, 5)] }) allOn, by decide +kernel⟩,
  ⟨false, [], {}, ⟨0, [(0, 5)], [(0, 5)]⟩, [], { gaugeOn with gauge := { gaugeOn.gauge with lines := [⟨0, [(0, 5)], [(0, 5)]⟩] } }, by decide +kernel⟩,
  ⟨{ samples := 100000000000 }, gaugeW { samples := 100000000000 }, by decide +kernel⟩,
  ⟨{}, gaugeOn, by decide +kernel⟩,
  ⟨{ signing := [[0]] }, [0], [], gaugeW { signing := [[0]] }, by decide +kernel⟩,
  ⟨State.reset, by decide +kernel⟩,
  ⟨gaugeOn, by decide +kernel⟩⟩

theorem test_witness_GaugePort :
  (∃ (g : GaugeRun) (s : State),
    (s.gauge.run = some g)) ∧
  (∃ (g : GaugeRun) (s : State),
    (s.gauge.run = some g)) ∧
  (∃ (g : GaugeRun) (s : State),
    (s.gauge.run = some g)) ∧
  (∃ (v : Nat) (g : GaugeRun) (s : State),
    (s.gauge.run = some g) ∧ (10 ≤ v) ∧ (v ≤ 3600)) ∧
  (∃ (n : Nat) (g : GaugeRun) (s : State),
    (s.gauge.run = some g) ∧ (n < 4)) ∧
  (∃ (g : GaugeRun) (rd : List Byte) (s : State),
    (s.gauge.run = some g) ∧ (g.records[g.slot]? = some rd) ∧ (g.off < 36864)) ∧
  (∃ (bs : List Byte) (g : GaugeRun) (s : State),
    (s.gauge.run = some g) ∧ (bs.length = 192) ∧ (g.load.length < 36864)) ∧
  (∃ (g : GaugeRun) (s : State),
    (s.gauge.run = some g)) ∧
  (∃ (g : GaugeRun) (s : State),
    (s.gauge.run = some g)) :=
  ⟨⟨{}, gaugeOn, by decide +kernel⟩,
  ⟨{}, gaugeOn, by decide +kernel⟩,
  ⟨{}, gaugeOn, by decide +kernel⟩,
  ⟨60, {}, gaugeOn, by decide +kernel⟩,
  ⟨1, {}, gaugeOn, by decide +kernel⟩,
  ⟨{ records := [[1, 2]] }, [1, 2], gaugeW { records := [[1, 2]] }, by decide +kernel⟩,
  ⟨zeros 192, {}, gaugeOn, by decide +kernel⟩,
  ⟨{}, gaugeOn, by decide +kernel⟩,
  ⟨{}, gaugeOn, by decide +kernel⟩⟩

theorem test_witness_LinkTraining :
  (∃ (r : Requester) (a v : Nat) (i : Nat) (s : State),
    (a % 4 = 0) ∧ (target s r a = some (7, i, 0x10)) ∧ (gate s r 7 i 0x10 = .pass)) ∧
  (∃ (p : Nat) (s : State),
    (stopped s = false) ∧ (domOn s (92 + p) = true) ∧ (getF s LINK_STAT_STATE p = 1) ∧ (isF s LINK_CTRL_AUTO_RETRAIN p = true)) ∧
  (∃ (p : Nat) (s : State),
    (stopped s = false) ∧ (domOn s (92 + p) = true) ∧ (getF s LINK_STAT_STATE p = 2)) ∧
  (∃ (p : Nat) (s : State),
    (stopped s = false) ∧ (domOn s (92 + p) = true) ∧ (getF s LINK_STAT_STATE p = 2)) ∧
  (∃ (p : Nat) (s : State),
    (stopped s = false) ∧ (domOn s (92 + p) = true) ∧ (getF s LINK_STAT_STATE p = 3) ∧ ((portOf s p).identGot = none)) ∧
  (∃ (p : Nat) (raw : List Byte) (f : Frame) (s : State),
    (stopped s = false) ∧ (domOn s (92 + p) = true) ∧ (getF s LINK_STAT_STATE p = 3) ∧ (parseFrame raw = some f) ∧ (f.type = 0xA)) ∧
  (∃ (r : Requester) (a v : Nat) (i : Nat) (rcd : List Byte) (s : State),
    (a % 4 = 0) ∧ (target s r a = some (7, i, 0x10)) ∧ (gate s r 7 i 0x10 = .pass) ∧ (v.testBit 4 = true) ∧ (getF s LINK_STAT_STATE i = 4) ∧ ((portOf s i).identGot = some rcd)) ∧
  (∃ (r : Requester) (a v : Nat) (i : Nat) (s : State),
    (a % 4 = 0) ∧ (target s r a = some (7, i, 0x10)) ∧ (gate s r 7 i 0x10 = .pass) ∧ (v.testBit 4 = true) ∧ (getF s LINK_STAT_STATE i = 1)) ∧
  (∃ (r : Requester) (a v : Nat) (i : Nat) (rcd : List Byte) (s : State),
    (a % 4 = 0) ∧ (target s r a = some (7, i, 0x10)) ∧ (gate s r 7 i 0x10 = .pass) ∧ (v.testBit 3 = true) ∧ (getF s LINK_STAT_STATE i = 4) ∧ ((portOf s i).identGot = some rcd) ∧ (rolePair (portRole i) (bits (leVal ((rcd.drop 10).take 1)) 5 3) = true)) :=
  ⟨⟨.pf, 0x5d0010, 1, 0, portS 0, by decide +kernel⟩,
  ⟨0, portS 1, by decide +kernel⟩,
  ⟨0, portS 2, by decide +kernel⟩,
  ⟨0, portS 2, by decide +kernel⟩,
  ⟨0, portS 3, by decide +kernel⟩,
  ⟨0, frameBytes { frS 0xA with payload := identP }, { frS 0xA with payload := identP }, portS 3, by decide +kernel⟩,
  ⟨.pf, 0x5d0010, 16, 0, identP, modPort 0 (fun x => { x with identGot := some identP }) (portS 4), by decide +kernel⟩,
  ⟨.pf, 0x5d0010, 16, 0, portS 1, by decide +kernel⟩,
  ⟨.pf, 0x5d0010, 8, 0, identP, modPort 0 (fun x => { x with identGot := some identP }) (portS 4), by decide +kernel⟩⟩

theorem test_witness_LinkDeathAndReset :
  (∃ (p : Nat) (s : State),
    (stopped s = false) ∧ (domOn s (92 + p) = true) ∧ (getF s LINK_STAT_STATE p = 5)) ∧
  (∃ (r : Requester) (a v : Nat) (i : Nat) (s : State),
    (a % 4 = 0) ∧ (target s r a = some (7, i, 0x10)) ∧ (gate s r 7 i 0x10 = .pass) ∧ (v.testBit 6 = true) ∧ (getF s LINK_STAT_STATE i = 5)) ∧
  (∃ (r : Requester) (a v : Nat) (i : Nat) (s : State),
    (a % 4 = 0) ∧ (target s r a = some (7, i, 0x10)) ∧ (gate s r 7 i 0x10 = .pass) ∧ (v.testBit 6 = true) ∧ (getF s LINK_STAT_STATE i = 4)) ∧
  (∃ (r : Requester) (a v : Nat) (s : State),
    (a % 4 = 0) ∧ (target s r a = some (13, 0, 0x124)) ∧ (gate s r 13 0 0x124 = .pass) ∧ (v % 32 < 24)) ∧
  (∃ (r : Requester) (a v : Nat) (i : Nat) (s : State),
    (a % 4 = 0) ∧ (target s r a = some (7, i, 0x10)) ∧ (gate s r 7 i 0x10 = .pass) ∧ (v.testBit 5 = true) ∧ (getF s LINK_STAT_STATE i = 5)) :=
  ⟨⟨0, portS 5, by decide +kernel⟩,
  ⟨.pf, 0x5d0010, 64, 0, portS 5, by decide +kernel⟩,
  ⟨.pf, 0x5d0010, 64, 0, portS 4, by decide +kernel⟩,
  ⟨.pf, 0x5c1124, 0, portS 5, by decide +kernel⟩,
  ⟨.pf, 0x5d0010, 32, 0, portS 5, by decide +kernel⟩⟩

theorem test_witness_LinkFrames :
  (∃ (p : Nat) (raw : List Byte) (f : Frame) (s : State),
    (stopped s = false) ∧ (domOn s (92 + p) = true) ∧ (getF s LINK_STAT_STATE p = 5) ∧ (parseFrame raw = some f) ∧ (f.type = 1) ∧ (f.lseq = ((portOf s p).rxLast + 1) % 65536) ∧ (f.vc = 0) ∧ (∀ q < 24, (portOf s q).rxq = []) ∧ (headAct s f = .deliver) ∧ (p < 24)) ∧
  (∃ (p : Nat) (raw : List Byte) (f : Frame) (s : State),
    (stopped s = false) ∧ (domOn s (92 + p) = true) ∧ (getF s LINK_STAT_STATE p = 5) ∧ (parseFrame raw = some f) ∧ (f.type = 1) ∧ (f.lseq = ((portOf s p).rxLast + 1) % 65536) ∧ (f.vc ≠ 0)) ∧
  (∃ (p : Nat) (raw : List Byte) (f : Frame) (s : State),
    (stopped s = false) ∧ (domOn s (92 + p) = true) ∧ (getF s LINK_STAT_STATE p = 5) ∧ (parseFrame raw = some f) ∧ (f.type = 1) ∧ (f.lseq ≠ ((portOf s p).rxLast + 1) % 65536) ∧ (serialAhead (portOf s p).rxLast f.lseq = true) ∧ ((portOf s p).retryOut = false)) ∧
  (∃ (p : Nat) (raw : List Byte) (s : State),
    (stopped s = false) ∧ (domOn s (92 + p) = true) ∧ (getF s LINK_STAT_STATE p = 5) ∧ (parseFrame raw = none) ∧ ((portOf s p).retryOut = false)) ∧
  (∃ (p : Nat) (raw : List Byte) (f : Frame) (s : State),
    (stopped s = false) ∧ (domOn s (92 + p) = true) ∧ (getF s LINK_STAT_STATE p = 5) ∧ (parseFrame raw = some f) ∧ (f.type = 2) ∧ (f.lseq = ((portOf s p).rxLast + 1) % 65536) ∧ (f.vc = 0) ∧ (∀ q < 24, (portOf s q).rxq = []) ∧ (headAct s f = .mark) ∧ (p < 24)) ∧
  (∃ (p : Nat) (raw : List Byte) (f : Frame) (s : State),
    (stopped s = false) ∧ (domOn s (92 + p) = true) ∧ (getF s LINK_STAT_STATE p = 5) ∧ (parseFrame raw = some f) ∧ (f.type = 3) ∧ (f.lseq = ((portOf s p).rxLast + 1) % 65536) ∧ (f.vc = 0) ∧ (∀ q < 24, (portOf s q).rxq = []) ∧ ((txOf s (streamKey f.src f.ctx f.oport)).marking = true) ∧ (p < 24)) ∧
  (∃ (p : Nat) (raw : List Byte) (f : Frame) (s : State),
    (stopped s = false) ∧ (domOn s (92 + p) = true) ∧ (getF s LINK_STAT_STATE p = 5) ∧ (parseFrame raw = some f) ∧ (f.type = 8) ∧ (serialAhead (portOf s p).acked f.ack = true)) ∧
  (∃ (p : Nat) (raw : List Byte) (f : Frame) (s : State),
    (stopped s = false) ∧ (domOn s (92 + p) = true) ∧ (getF s LINK_STAT_STATE p = 5) ∧ (parseFrame raw = some f) ∧ (f.type = 0xB)) :=
  ⟨⟨0, frameBytes (frS 1), frS 1, upS, by decide +kernel⟩,
  ⟨0, frameBytes { frS 1 with vc := 1 }, { frS 1 with vc := 1 }, upS, by decide +kernel⟩,
  ⟨0, frameBytes { frS 1 with lseq := 2 }, { frS 1 with lseq := 2 }, upS, by decide +kernel⟩,
  ⟨0, [], upS, by decide +kernel⟩,
  ⟨0, frameBytes (frS 2), frS 2, upS, by decide +kernel⟩,
  ⟨0, frameBytes (frS 3), frS 3, modTx (streamKey 8 0 0) (fun t => { t with marking := true, detour := true }) upS, by decide +kernel⟩,
  ⟨0, frameBytes { frS 8 with ack := 5 }, { frS 8 with ack := 5 }, upS, by decide +kernel⟩,
  ⟨0, frameBytes { frS 0xB with payload := zeros 32 }, { frS 0xB with payload := zeros 32 }, upS, by decide +kernel⟩⟩

theorem test_witness_LinkRetry :
  (∃ (p : Nat) (raw : List Byte) (f : Frame) (s : State),
    (stopped s = false) ∧ (domOn s (92 + p) = true) ∧ (getF s LINK_STAT_STATE p = 5) ∧ (parseFrame raw = some f) ∧ (f.type = 9) ∧ (serialAhead (portOf s p).acked f.ack = false) ∧ ((portOf s p).retryBuf ≠ []) ∧ ((portOf s p).replays < getF s LINK_RETRY_CFG_RETRY_LIMIT p)) ∧
  (∃ (p : Nat) (raw : List Byte) (f : Frame) (s : State),
    (stopped s = false) ∧ (domOn s (92 + p) = true) ∧ (getF s LINK_STAT_STATE p = 5) ∧ (parseFrame raw = some f) ∧ (f.type = 9) ∧ (serialAhead (portOf s p).acked f.ack = false) ∧ ((portOf s p).retryBuf ≠ []) ∧ (getF s LINK_RETRY_CFG_RETRY_LIMIT p ≤ (portOf s p).replays)) ∧
  (∃ (p : Nat) (s : State),
    (stopped s = false) ∧ (domOn s (92 + p) = true) ∧ (getF s LINK_STAT_STATE p = 5) ∧ ((portOf s p).retryBuf ≠ []) ∧ ((portOf s p).replays < getF s LINK_RETRY_CFG_RETRY_LIMIT p)) ∧
  (∃ (p : Nat) (s : State),
    (stopped s = false) ∧ (domOn s (92 + p) = true) ∧ (getF s LINK_STAT_STATE p = 5) ∧ ((portOf s p).retryBuf ≠ []) ∧ (getF s LINK_RETRY_CFG_RETRY_LIMIT p ≤ (portOf s p).replays)) ∧
  (∃ (p : Nat) (s : State),
    (stopped s = false) ∧ (domOn s (92 + p) = true) ∧ (getF s LINK_STAT_STATE p = 5)) ∧
  (∃ (p : Nat) (f : Frame) (rest : List Frame) (s : State),
    (stopped s = false) ∧ (domOn s (92 + p) = true) ∧ ((portOf s p).rxq = f :: rest) ∧ ((portOf s p).headHeld = true) ∧ (headAct s f = .hold)) ∧
  (∃ (p : Nat) (f : Frame) (s : State),
    (stopped s = false) ∧ (domOn s (92 + p) = true) ∧ ((portOf s p).rxq = [f]) ∧ ((portOf s p).headHeld = true) ∧ (headAct s f = .hold) ∧ (∀ q < 24, q ≠ p → (portOf s q).rxq = [])) :=
  ⟨⟨0, frameBytes (frS 9), frS 9, modPort 0 (fun x => { x with retryBuf := [frS 1] }) upS, by decide +kernel⟩,
  ⟨0, frameBytes (frS 9), frS 9, modPort 0 (fun x => { x with retryBuf := [frS 1], replays := 4 }) upS, by decide +kernel⟩,
  ⟨0, modPort 0 (fun x => { x with retryBuf := [frS 1] }) upS, by decide +kernel⟩,
  ⟨0, modPort 0 (fun x => { x with retryBuf := [frS 1], replays := 4 }) upS, by decide +kernel⟩,
  ⟨0, modPort 0 (fun x => { x with rxLast := 3 }) upS, by decide +kernel⟩,
  ⟨0, { frS 1 with sseq := 5 }, [], modPort 0 (fun x => { x with rxq := [{ frS 1 with sseq := 5 }], headHeld := true }) upS, by decide +kernel⟩,
  ⟨0, { frS 1 with sseq := 5 }, modPort 0 (fun x => { x with rxq := [{ frS 1 with sseq := 5 }], headHeld := true }) upS, by decide +kernel⟩⟩

/-- Module memory of `mapped` is flat: the first 2^20 bytes of die 0 stand at their own addresses. -/
theorem flat_lookup {s : State} (h1 : spanEntry s 0 0 = 65537) (h2 : isF s MEMCTL_CTRL_EN 0 = true) (h3 : domOn s 64 = true) {a : Nat}
    (ha : a < 1048576) : lookup s 0 a = .hit 0 (a / 4096) (a % 4096) := by
  unfold lookup
  have e1 : a / two32 = 0 := Nat.div_eq_of_lt (by simp only [two32]; omega)
  have e2 : a % two32 = a := Nat.mod_eq_of_lt (by simp only [two32]; omega)
  have b1 : bits 65537 4 3 = 0 := by decide
  have b2 : bits 65537 1 2 = 0 := by decide
  have b3 : bits 65537 8 7 = 0 := by decide
  have b4 : bits 65537 32 19 = 0 := by decide
  have b5 : bits 65537 16 13 = 1 := by decide
  have b6 : spanValid 65537 = true := by decide
  dsimp only
  rw [e1, h1, e2, b1, b2, b3, b4, b5, b6, if_neg (by omega), if_neg (by simp; omega)]
  simp only [Nat.pow_zero, Nat.mod_one, Nat.div_one, Nat.zero_mul, Nat.zero_add, Nat.zero_div, h2, h3, Bool.not_true, Bool.or_self,
    Bool.false_eq_true, if_false]

theorem flat_redirect {s : State} (h : mcOf s 0 = {}) {a : Nat} : redirect s 0 (a / 4096) (a % 4096) = some a := by
  unfold redirect
  rw [h]
  show some (dramKey 0 (a / 4096) (a % 4096)) = some a
  unfold dramKey
  congr 1
  omega

/-- Module memory is flat, lists nothing from `b` on, and every bit of it reads right. -/
def flat (s : State) (b : Nat) : Bool :=
  decide (spanEntry s 0 0 = 65537) && isF s MEMCTL_CTRL_EN 0 && domOn s 64 && decide (mcOf s 0 = {}) && decide (s.poison = []) &&
    (noWeak s && s.mem.all fun e => decide (e.1 < b))

theorem flat_noWeak {s : State} {b : Nat} (h : flat s b = true) : noWeak s = true := by
  simp only [flat, Bool.and_eq_true] at h
  exact h.2.1

theorem get_beyond {b k : Nat} (hk : b ≤ k) : ∀ st : Store Byte, (st.all fun e => decide (e.1 < b)) = true → Store.get (0 : Byte) st k = 0
  | [], _ => rfl
  | (j, v) :: r, h => by
    simp only [List.all_cons, Bool.and_eq_true, decide_eq_true_eq] at h
    have e := get_beyond hk r h.2
    unfold Store.get at e ⊢
    rw [Store.find_cons, if_neg (by omega)]
    exact e

/-- A range that memory does not list reads as zeros. -/
theorem flat_read {s : State} {b : Nat} (h : flat s b = true) : ∀ n a : Nat, b ≤ a → a + n ≤ 1048576 →
    memRead s 0 a n = .data (List.replicate n 0)
  | 0, _, _, _ => rfl
  | n + 1, a, hb, ha => by
    have h' := h
    simp only [flat, Bool.and_eq_true, decide_eq_true_eq] at h'
    have ⟨listed, beyond⟩ := h'
    have ⟨mapped, clean⟩ := listed
    unfold memRead
    rw [flat_lookup mapped.1.1.1 mapped.1.1.2 mapped.1.2 (by omega)]
    dsimp only
    rw [flat_redirect mapped.2]
    dsimp only
    rw [clean, flat_read h n (a + 1) (by omega) (by omega), get_beyond hb _ beyond.2]
    rfl

/-- An engine's read that memory answers right. -/
theorem read_clean {s : State} {d a n : Nat} {bs : List Byte} (hw : noWeak s = true) (h : memRead s d a n = .data bs) (cls : Nat) :
    engRead d cls a n s = (.data bs, s) := by
  have e : weakRows s d a n = [] := if_pos hw
  rw [engRead_data h, e]
  rfl

/-- An engine reads such a range as zeros. -/
theorem flat_engRead {s : State} {b : Nat} (h : flat s b = true) (cls n a : Nat) (hb : b ≤ a) (ha : a + n ≤ 1048576) :
    engRead 0 cls a n s = (.data (List.replicate n 0), s) := by
  exact read_clean (flat_noWeak h) (flat_read h n a hb ha) cls

/-- Tiles of such a range are zeros. -/
theorem flat_tiles {s : State} {b : Nat} (h : flat s b = true) (cls base tb : Nat) (hb : b ≤ base) : ∀ n k : Nat, base + tb * (k + n) ≤ 1048576 →
    loadTiles 0 cls base tb k n s = (.ok (List.replicate n (List.replicate tb 0)), s)
  | 0, _, _ => rfl
  | n + 1, k, ha => by
    have e : tb * (k + (n + 1)) = tb * k + tb + tb * n := by rw [Nat.mul_add, Nat.mul_add]; omega
    have e2 : tb * (k + 1 + n) = tb * k + tb + tb * n := by rw [Nat.mul_add, Nat.mul_add]; omega
    unfold loadTiles
    rw [flat_engRead h cls tb (base + tb * k) (by omega) (by omega)]
    dsimp only
    rw [flat_tiles h cls base tb hb n (k + 1) (by omega)]
    rfl

/-- Twin record 0 of GBI 0 stands at address 0: 64 by 64 elements, the left side enabled; its check area at address 4,096 holds the flags `f`;
its weights at 8,192, factors at 65,536 and roots at 131,072; the frames `l` are in the inbox. -/
def twinS (f : Nat) (l : List Frame) : State :=
  { setF CULVERT_TCHK_BASE 0 8 (setF CULVERT_TWIN_COUNT 0 1 (setF LINK_TOPO_PEER_BOARD 14 1 (setF LINK_TOPO_PEER_ROLE 14 1 mapped))) with
    inbox := l, mem := Store.putAll (0 : Byte) 0 (leBytes 12 0 ++ [64, 0, 64, 0, 4] ++ zeros 39 ++ leBytes 8 8192 ++ leBytes 8 0 ++ leBytes 8 65536 ++ leBytes 8 131072)
      (Store.putAll (0 : Byte) 2048 (leBytes 8 4096) (Store.putAll (0 : Byte) 4096 (leBytes 1 f) [])) }

def culFr (k o : Nat) (pl : List Byte) : Frame := { type := 1, engine := 2, src := 8, engHdr := k * 2 ^ 32 + o / 32 * 2 ^ 37, payload := pl }
/-- The twin with the transfer `x` open, and the Culvert frame `f` next. -/
def twinX (x : CulXfer) (f : Frame) : State := { twinS 0 [f] with cul := { xfers := [x], opens := [(0, (0, 8, false))] } }
def xf (g : Nat) : CulXfer := { gbi := 0, grp := g, aud := false, stamp := 5 }
def fOpen : Frame := culFr 0xF 0 (pl32 [(4, 8), (4, 5)])
def fTabW : Frame := culFr 6 0 (zeros 32)
def fTabR : Frame := culFr 7 0 (zeros 32)
def fData (k : Nat) : Frame := culFr k 512 (zeros 512)
/-- The owner of block 0, which its frame `f` reaches. -/
def ownF (c : Cul) (f : Frame) : State := { setF LINK_TOPO_PEER_BOARD 14 1 (setF LINK_TOPO_PEER_ROLE 14 1 mapped) with inbox := [f], cul := c }
def fRetR : Frame := culFr 7 32 (zeros 32)

def fClose (k n : Nat) : Frame := culFr k 0 (pl32 [(4, n)])
/-- A root transfer whose only tile has passed, one of weights likewise. -/
def xDone (g k : Nat) : CulXfer := { xf g with passed := [tileKey k 0] }
def fAck : Frame := culFr 0xB 0 (pl32 [(4, 7), (1, 9), (1, 0)])
def blkA : Blk := { gbi := 0, cl := 0, addr := 0, lat := zeros 12 ++ [64, 0, 64, 0, 4] ++ zeros 7 }
def stA (b : Blk) : Step := { step := 7, handle := 1048576, blks := [b] }
/-- Context 0 has step 7 with the block `b` open; the frames of `l` are in the inbox. -/
def blkS (b : Blk) (l : List Frame) : State := modCtx 0 (fun x => { x with steps := [stA b] }) (ownF {} fAck |> fun s => { s with inbox := l })
def fNack (n t k : Nat) : Frame := culFr 0xC 0 (pl32 [(4, k), (4, t), (1, n)])
def fRes (n : Nat) : Frame := { culFr 0xD 0 (pl32 [(4, n), (1, 0)]) with engHdr := 0xD * 2 ^ 32 + 2 ^ 36 }
def fFetch : Frame := culFr 0xE 0 (pl32 [(4, 4), (4, 0), (4, 0)])
theorem crcFeed_zeros : ∀ n : Nat, crcFeed crcPoly32c 0 (List.replicate n 0) = 0
  | 0 => rfl
  | n + 1 => crcFeed_zeros n

/-- The CRC-32C of four bytes 0xFF and zeros is 0xFFFF_FFFF: the register is 0 after the four bytes. -/
theorem crc_ones_zeros (n : Nat) : crc32c ([255, 255, 255, 255] ++ List.replicate n 0) = 0xFFFFFFFF := by
  unfold crc32c
  rw [Machine.crcFeed_append]
  have e : crcFeed crcPoly32c 0xFFFFFFFF [255, 255, 255, 255] = 0 := by decide +kernel
  rw [e, crcFeed_zeros]
  rfl

/-- The twin with valid buffers; root tile 0 holds four bytes 0xFF and zeros, and its adopted entry is its check value. -/
def twinF : State := { twinS 7 [fFetch] with
  mem := Store.putAll (0 : Byte) (4096 + 64 + 4 + 12 + 8) (leBytes 4 0xFFFFFFFF) (Store.putAll (0 : Byte) 131072 [255, 255, 255, 255] (twinS 7 [fFetch]).mem) }

theorem twinF_answer : fetchAnswer 0 (twinAt twinF 0) 4 0 0 twinF = (some ([255, 255, 255, 255] ++ List.replicate 8188 0), twinF) := by
  have hc : (4 = 0 ∨ 5 < 4 ∨ bufTiles (twinAt twinF 0) 4 ≤ 0 ∨ (!(chkFlags twinF 0).testBit (grpBit (kindGrp 4))) = true ∨
      (chkFlags twinF 0).testBit (grpBit (kindGrp 4) + 3) = true ∨ kindStamp twinF (twinAt twinF 0) 4 ≠ 0) = False := by decide +kernel
  have hb : bufAddr twinF (twinAt twinF 0) 4 = 131072 := by decide +kernel
  have hr := memRead_append (s := twinF) (d := 0) (m := 4) (a := 131072) (x := [255, 255, 255, 255]) (by decide +kernel)
    (flat_read (s := twinF) (b := 131076) (by decide +kernel) 8188 131076 (by omega) (by omega))
  have hv : 0xFFFFFFFF = mval twinF 0 (storedAddr twinF 0 (twinAt twinF 0) 4 0) 4 := by decide +kernel
  have he : ∀ n bs, memRead twinF 0 131072 n = .data bs → engRead 0 4 131072 n twinF = (.data bs, twinF) := fun n bs h => read_clean (by decide +kernel) h 4
  have ht : tileBytes 4 = 4 + 8188 := by decide
  unfold fetchAnswer
  dsimp only
  rw [if_neg (by rw [hc]; exact id), hb, ht, Nat.mul_zero, Nat.add_zero, he _ _ hr]
  dsimp only
  rw [crc_ones_zeros, if_pos hv]

theorem chunks_replicate {α : Type} (n : Nat) (a : α) (hn : 0 < n) : ∀ k m : Nat, chunks n k (List.replicate (n * m) a) = List.replicate (min k m) (List.replicate n a)
  | 0, m => by rw [Nat.zero_min]; rfl
  | k + 1, 0 => by rw [Nat.mul_zero, Nat.min_zero]; rfl
  | k + 1, m + 1 => by
    have e : n * (m + 1) = n + n * m := by rw [Nat.mul_succ]; omega
    unfold chunks
    rw [e, if_neg (by simp; omega), List.take_replicate, List.drop_replicate, Nat.add_sub_cancel_left, chunks_replicate n a hn k m,
      Nat.min_eq_left (by omega), Nat.add_min_add_right]
    rfl

/-- A tile of zeros in FP32. -/
theorem tileMat_zeros : tileMat fmtFP32 4 (List.replicate 16384 0) = List.replicate 64 (List.replicate 64 (fmtFP32.dec 0)) := by
  have e1 : wordsOf 4 (List.replicate 16384 0) = List.replicate 4096 0 := by
    unfold wordsOf
    rw [List.length_replicate]
    show (chunks 4 16384 (List.replicate (4 * 4096) 0)).map leVal = _
    rw [chunks_replicate 4 0 (by omega), List.map_replicate]
    rfl
  unfold tileMat
  rw [e1, List.map_replicate]
  exact chunks_replicate 64 _ (by omega) 64 64

/-- A block of step 7 of context 0 as the command finds it, with a RECV of step 7 whose source 1 is as `x`. -/
def own1 (b : Blk) (x : Xfer) : State :=
  modCtx 0 (fun y => { y with
    steps := [{ step := 7, handle := 1048576, raw := zeros 5 ++ [1] ++ zeros 10, blks := [b] }],
    coll := { recvs := [{ step := 7, cid := 3, desc := zeros 32, gbis := [0], xfers := [x] }] } }) (ownF {} fAck)
def st1 (b : Blk) : Step := { step := 7, handle := 1048576, raw := zeros 5 ++ [1] ++ zeros 10, blks := [b] }
def rv1 (x : Xfer) : Recv := { step := 7, cid := 3, desc := zeros 32, gbis := [0], xfers := [x] }
def x1 : Xfer := { src := 1, pos := 1, idx := 0, closed := true }
def accZ : List Mat := [List.replicate 64 (List.replicate 64 (fmtFP32.dec 0))]
theorem accTiles_zero {b : Blk} {s : State} (h : flat s 0 = true) (hd : dieOf b.cl = 0) (hn : lTiles b.lat = 1) (ha : accAddr s b = 0) :
    accTiles b s = (some accZ, s) := by
  unfold accTiles
  rw [hd, hn, ha, flat_tiles h 0 0 16384 (Nat.le_refl _) 1 0 (by omega)]
  dsimp only
  rw [List.map_replicate, tileMat_zeros]
  rfl
theorem accMat_zero {b : Blk} {s : State} (h : flat s 0 = true) (hd : dieOf b.cl = 0) (hn : lTiles b.lat = 1) (ha : accAddr s b = 0) :
    accMat b s = (some (matOfTiles (lTl b.lat) (lTr b.lat) accZ), s) := by
  unfold accMat
  rw [accTiles_zero h hd hn ha]
theorem wholeBuf_zero {b : Blk} {s : State} {k : Nat} (h : flat s 0 = true) (hd : dieOf b.cl = 0) (hn : bufTiles b k = 1) (ha : bufAddr s b k = 0)
    (hk : tileBytes k ≤ 16384) : wholeBuf b k s = (some [List.replicate (tileBytes k) 0], s) := by
  unfold wholeBuf ownedTiles
  rw [hd, hn, ha, flat_tiles h 0 0 (tileBytes k) (Nat.le_refl _) 1 0 (by omega)]
  rfl
def bSum : Blk := { blkA with armed := true, pos := 1 }
def bOwn : Blk := { blkA with armed := true }
def bEnd : Blk := { blkA with armed := true, mb := 1 }
def bIce : Blk := { bEnd with lat := zeros 12 ++ [64, 0, 64, 0, 5] ++ zeros 7 }
def bPre : Blk := { blkA with ph := 1, lat := zeros 16 ++ [4] ++ zeros 7 }
def bNf : Blk := { blkA with ph := 1, nfAcc := true }
/-- The same with a GROUP descriptor at address 0 of the SRAM of cluster 0. -/
def grpAt (s : State) : State := sramWrite 0 0 [0x71] s
/-- The same with every step due. -/
def dueS (b : Blk) : State := modCtx 0 (fun y => { y with steps := [{ st1 b with ks := [1] }] }) (own1 b x1)
/-- The same in context 1. -/
def own2 (b : Blk) : State := modCtx 1 (fun y => { y with steps := [st1 b] }) (ownF {} fAck)

/-- A matmul descriptor of one tile with K = 1 and no write-out (R87). -/
def mmD : List Byte := leBytes 4 0x40021 ++ zeros 16 ++ leBytes 4 0x20002 ++ zeros 8
/-- A wide one. -/
def mmW : List Byte := leBytes 4 0x888821 ++ zeros 16 ++ leBytes 4 0x20002 ++ zeros 8
/-- A wide one whose operands stand in the staging window. -/
def mmP : List Byte := leBytes 4 0x888821 ++ zeros 4 ++ leBytes 4 0x500000 ++ leBytes 4 0x500000 ++ zeros 4 ++ leBytes 4 0x20002 ++ zeros 8
def qM : QDesc := { desc := mmD, ctx := 0 }
def qW : QDesc := { desc := mmW, ctx := 0, wide := true }
/-- A module that is on, with cluster 0 or unit 0 as given. -/
def clS (c : Cluster) : State := modCluster 0 (fun _ => c) allOn
def unS (x : TUnit) : State := modUnit 0 (fun _ => x) allOn
/-- List 0 of context 0 stands at address 64. -/
def lsA (h : Bool) (n : Nat) : ListRun := { id := 0, ctx := 0, handle := 1048576, pos := { addr := 64, hdr := h, count := n } }
def lsS (h : Bool) (n a : Nat) (bs : List Byte) : State := sramWrite 0 a bs (clS { lists := [lsA h n] })

/-- Cluster 0 with a list that holds the descriptor `d`, over flat module memory that holds `m`. -/
def lsD (d : List Byte) : ListRun := { id := 0, ctx := 0, handle := 1048576, desc := some d, pos := { addr := 64, hdr := false, count := 1, idx := 1 } }
def nuS (d : List Byte) (m : List Host.Cell) : State :=
  modCluster 0 (fun c => { c with lists := [lsD d] }) { setFk PWR_DOM_STAT 0 1 1 mapped with mem := m }
def cvD : List Byte := leBytes 4 0x431 ++ zeros 12 ++ leBytes 4 0x40004 ++ zeros 12
def stD (op : Nat) : List Byte := leBytes 4 (0x200 + op) ++ zeros 8 ++ leBytes 4 2 ++ zeros 8 ++ leBytes 4 0x10000 ++ zeros 4
/-- Headers of 64 channels of KIND 0 that have no raw slot. -/
def hdrM : List Byte := (List.replicate 64 [0, 0, 0, 0, 0, 0, 255, 255]).flatten
/-- The same in memory. -/
def memM : List Host.Cell := (List.range 64).flatMap fun c => [(8 * c + 6, 255), (8 * c + 7, 255)]
theorem flat_read_all {s : State} {b : Nat} (h : flat s b = true) : ∀ n a : Nat, a + n ≤ 1048576 →
    memRead s 0 a n = .data ((List.range' a n).map fun k => Store.get (0 : Byte) s.mem k)
  | 0, _, _ => rfl
  | n + 1, a, ha => by
    have h' := h
    simp only [flat, Bool.and_eq_true, decide_eq_true_eq] at h'
    have ⟨mapped, clean⟩ := h'.1
    unfold memRead
    rw [flat_lookup mapped.1.1.1 mapped.1.1.2 mapped.1.2 (by omega)]
    dsimp only
    rw [flat_redirect mapped.2]
    dsimp only
    rw [clean, flat_read_all h n (a + 1) (by omega)]
    rfl

/-- The same with channel 0 of KIND 2, lost for want of a raw slot. -/
def hdrL : List Byte := [2, 0, 0, 0, 0, 0, 255, 255] ++ hdrM.drop 8
def memL : List Host.Cell := (0, 2) :: memM
theorem hdr_reads {s : State} (h : flat s 512 = true) (hm : s.mem = memM) : engRead 0 1 0 512 s = (.data hdrM, s) := by
  have e : (List.range' 0 512).map (fun k => Store.get (0 : Byte) memM k) = hdrM := by decide +kernel
  exact read_clean (flat_noWeak h) (by rw [flat_read_all h 512 0 (by omega), hm, e]) 1

theorem hdr_readsL {s : State} (h : flat s 512 = true) (hm : s.mem = memL) : engRead 0 1 0 512 s = (.data hdrL, s) := by
  have e : (List.range' 0 512).map (fun k => Store.get (0 : Byte) memL k) = hdrL := by decide +kernel
  exact read_clean (flat_noWeak h) (by rw [flat_read_all h 512 0 (by omega), hm, e]) 1

theorem stash_reads {H : List Byte} {s : State} (h : flat s 512 = true) (h0 : engRead 0 1 0 512 s = (.data H, s)) :
    readAll 0 (tileRanges (stD 0x42) (stCh0 (stD 0x42))) s = (some [H, List.replicate 4096 0, List.replicate 64 0], s) := by
  have e : tileRanges (stD 0x42) (stCh0 (stD 0x42)) = [(0, 512), (512, 4096), (4608, 64)] := by decide +kernel
  rw [e]
  unfold readAll
  rw [h0]
  dsimp only
  unfold readAll
  rw [flat_engRead h 1 4096 512 (by omega) (by omega)]
  dsimp only
  unfold readAll
  rw [flat_engRead h 1 64 4608 (by omega) (by omega)]
  rfl
def csM : List (List Byte × List Byte × List Nat) := List.replicate 64 ([0, 0, 0, 0, 0, 0, 255, 255], List.replicate 64 0, [0])
theorem csM_parts : csM = (List.range 64).map (chanParts [hdrM, List.replicate 4096 0, List.replicate 64 0]) := by
  have h : ∀ c < 64, (hdrM.drop (8 * c)).take 8 = [0, 0, 0, 0, 0, 0, 255, 255] := by decide +kernel
  have e : ∀ c ∈ List.range 64, chanParts [hdrM, List.replicate 4096 0, List.replicate 64 0] c = ([0, 0, 0, 0, 0, 0, 255, 255], List.replicate 64 0, [0]) := by
    intro c hc
    have hc := List.mem_range.1 hc
    show ((hdrM.drop (8 * c)).take 8, ((List.replicate 4096 (0 : Byte)).drop (64 * c)).take 64, [((List.replicate 64 (0 : Byte)).getD c 0).toNat]) = _
    rw [h c hc, List.drop_replicate, List.take_replicate, Nat.min_eq_left (by omega), List.getD_eq_getElem?_getD, List.getElem?_replicate, if_pos hc]
    rfl
  rw [List.map_congr_left e]
  rw [List.map_const', List.length_range]
  rfl
theorem raw_none : ∀ (cs : List (List Byte × List Byte × List Nat)) (d : List Byte) (s : State), noWeak s = true → cs.all (fun e => hKind e.1 != 2) = true →
    readAll 0 (rawRanges d cs) s = (some (List.replicate cs.length []), s)
  | [], _, _, _, _ => rfl
  | x :: cs, d, s, hw, h => by
    simp only [List.all_cons, Bool.and_eq_true, bne_iff_ne, ne_eq] at h
    have ih := raw_none cs d s hw h.2
    unfold rawRanges at ih ⊢
    rw [List.map_cons, if_neg h.1]
    unfold readAll
    rw [show engRead 0 1 0 0 s = (.data [], s) from read_clean hw rfl 1]
    dsimp only
    rw [ih]
    rfl
theorem stash_reads0 {s : State} (h : flat s 0 = true) :
    readAll 0 (tileRanges (stD 0x42) (stCh0 (stD 0x42))) s = (some [List.replicate 512 0, List.replicate 4096 0, List.replicate 64 0], s) := by
  have e : tileRanges (stD 0x42) (stCh0 (stD 0x42)) = [(0, 512), (512, 4096), (4608, 64)] := by decide +kernel
  rw [e]
  unfold readAll
  rw [flat_engRead h 1 512 0 (by omega) (by omega)]
  dsimp only
  unfold readAll
  rw [flat_engRead h 1 4096 512 (by omega) (by omega)]
  dsimp only
  unfold readAll
  rw [flat_engRead h 1 64 4608 (by omega) (by omega)]
  rfl

/-- Sequencer 0 as given, with the region on and 1 MiB of scratch, over flat module memory that holds `m`. -/
def rtS (q : Seq) (m : List Host.Cell) : State :=
  { setF ROOTSEQ_SCR_SIZE 0 1 (setFk PWR_DOM_STAT 0 0 1 (setFk PWR_DOM_STAT 0 1 1 mapped)) with seqs := [(0, q)], mem := m }
def jbA (p : Nat) (l : List Byte) : Job := { ctx := 0, gbi := 0, cl := 0, addr := 0, lat := zeros 12 ++ l ++ zeros 3, snap := 0, ver := 1, ph := p, cfg := 0x040A0A0A }
/-- Left sides of 64 and of 128, of P code 0 and 1. -/
def latC : List Byte := [64, 0, 64, 0, 4, 0, 0, 0, 0]
def latW : List Byte := [128, 0, 64, 0, 4, 0, 0, 0, 0]
def latN : List Byte := [64, 0, 64, 0, 4, 0, 0, 0, 1]
def rtJ (p : Nat) (l : List Byte) : State := rtS { job := some (jbA p l) } []
/-- A due notice of block 0 for step 7, and the step. -/
def rtN (f : Byte) (m : List Host.Cell) : State :=
  modCtx 0 (fun x => { x with steps := [stA { blkA with lat := zeros 12 ++ [64, 0, 64, 0, f] ++ zeros 7 }] }) (rtS { notices := [⟨0, 7, 0⟩] } m)
/-- The matrix that empty scratch holds. -/
def zMat (n : Nat) : IMat := chunks n n ((wordsOf 8 (List.replicate (8 * n * n) 0)).map bxInt)
theorem getMat_zero {s : State} (h : flat s 0 = true) {n k : Nat} (hb : scrAddr s 0 n k + 8 * n * n ≤ 1048576) :
    getMat 0 n k s = (.ok (some (zMat n)), s) := by
  unfold getMat
  rw [show regionDie 0 = 0 from rfl, flat_engRead h 2 (8 * n * n) _ (Nat.zero_le _) hb]
  rfl

/-- A collective descriptor: opcode and KIND, COLL_ID 5, step 7, position 1, one turn of 32 bytes. -/
def coD (op k : Nat) : List Byte := pl32 [(1, op), (1, k), (2, 0), (2, 5), (2, 0), (4, 7), (1, 2), (3, 0), (4, 0), (4, 0), (4, 0), (4, if k = 6 then 0 else 32)]
/-- Context 0 with step 7 open and the collective work `l`; the frames of `fs` are in the inbox. -/
def coS (l : Coll) (fs : List Frame) : State :=
  { modCtx 0 (fun x => { x with steps := [stA blkA], last := some 7, coll := l }) (setF COLL_CTRL_EN 0 1 mapped) with inbox := fs }
/-- The same with the SEND at the head of the list granted by Sluice 536 (log 105). -/
def coG (l : List (Nat × List Byte)) : State :=
  modSluice 536 (fun x => { x with granted := l.map fun e => (0, sendKey e.1 e.2) }) (coS { list := l } [])
def coF (n t k : Nat) : Frame := { type := 1, engine := 1, src := 1, engHdr := 5 + n * 2 ^ 16 + t * 2 ^ 48, payload := zeros k }
def coX : Xfer := { src := 1, pos := 1, idx := 0 }
def coR (k : Nat) (l : List Xfer) : Recv := { step := 7, cid := 5, desc := coD 0x62 k, xfers := l }
def coSend (l : List Nat) : Send := { step := 7, cid := 5, desc := coD 0x61 1, peers := [(1, 0, false)], left := l }
/-- A started command over mapped memory. -/
def coC (op : Nat) (a : Nat) : State := modSlot 0 0 (fun _ => { inUse := true, gen := 1, started := true, entry := leBytes 1 op ++ zeros 7 ++ leBytes 8 a ++ zeros 48 }) mapped
def coL : ListRun := { id := 1, ctx := 0, handle := 1048576, pos := { addr := 0, hdr := false, count := 1, idx := 0, step := 7, next := 0 }, st := .waiting, gated := [2] }

def ckK (p e : Bool) : Ckpt := { handle := 1048576, cut := 7, peer := p, holders := if p then [(1, 1048576, 0)] else [], room := 4096, left := some [], cutRead := true, ended := e }
/-- Context 0 with the checkpoint `k` in progress and a window of 1 MiB at 0; the frames of `fs` are in the inbox. -/
def ckS (k : Ckpt) (fs : List Frame) : State := { modCtx 0 (fun x => { x with ckpt := some k }) (setFk HOSTIF_PEER_WIN_MIB 0 0 1 mapped) with inbox := fs }
def ckF (op o len k : Nat) : Frame := { type := 1, engine := 3, src := 1, engHdr := o + op * 2 ^ 34 + len * 2 ^ 37, payload := zeros k }
/-- A block without tiles. -/
def blkZ : Blk := { gbi := 0, cl := 0, addr := 0, lat := zeros 28 }
def ckB : State := modSluice 537 (fun x => { x with granted := [(16, 1)] }) (modCtx 0 (fun x => { x with tabs := [blkZ] }) (ckS { ckK false false with left := some [0] } []))

/-- A record of KIND `k` for GBI 0 with 64 bytes of payload, its entry in a restore list, and one from a holder. -/
def rsB (k : Nat) : List Byte := zRecord { kind := k, gbi := 0, secs := 3 } 7 false (zeros 64)
def rsE (k : Nat) : List Byte := zeros 16 ++ leBytes 8 128 ++ zeros 8 ++ sha384 (rsB k) ++ leBytes 1 1 ++ zeros 15
def rsH : List Byte := zeros 16 ++ leBytes 8 64 ++ zeros 56 ++ leBytes 1 2 ++ zeros 1 ++ leBytes 2 1 ++ zeros 12
def rsR (l : List (List Byte)) : Restore := { handle := 1048576, src := 3, exts := 0, left := l }
/-- Context 0 restores `l`; its tables are `t` and the frames of `fs` are in the inbox. -/
def rsS (l : List (List Byte)) (t : List Blk) (fs : List Frame) : State :=
  { modCtx 0 (fun x => { x with restore := some (rsR l), tabs := t }) mapped with inbox := fs, mem := [(4, 8)] }
theorem rs_open (k : Nat) (h : k = 1 ∨ k = 2 ∨ k = 3 ∨ k = 4) : openRecord (rsE k) (rsB k) = some (zeros 64) := by
  rcases h with rfl | rfl | rfl | rfl <;> decide +kernel
/-- A directory of zeros names no table. -/
theorem noTables : ∀ (n cl : Nat) (s : State), readTables cl (List.replicate n (zeros 16)) s = (.ok [], s)
  | 0, _, _ => rfl
  | n + 1, cl, s => by
    rw [List.replicate_succ]
    unfold readTables
    rw [show dirReads (zeros 16) = false by decide +kernel, show dirBad (zeros 16) = false by decide +kernel, if_pos (by decide),
      if_neg (by decide), noTables n]
def jrR : JrnRec := ⟨1, 3072, zeros 16⟩
/-- The journal of context 0 is on, written to `wr` and drained to `dr`, and the hub holds a record for it. -/
def jrS (wr dr : Nat) : State := modSluice 537 (fun x => { x with granted := [(16, 0)] }) (setFk HOSTIF_JRN_WR 0 0 wr (setFk HOSTIF_JRN_DR 0 0 dr (setFk HOSTIF_JRN_CFG_EN 0 0 1 (setFk HOSTIF_JRN_CFG_DRAIN 0 0 1
  { modCtx 0 (fun x => { x with jwait := [jrR] }) mapped with jwide := [(jrR, [0])] }))))

/-- A started command over mapped memory with its first four arguments. -/
def hcC (op a b c d : Nat) : State := modSluice 537 (fun x => { x with granted := [(0, 1048576)] }) (modSlot 0 0 (fun _ => { inUse := true, gen := 1, started := true, entry := leBytes 1 op ++ zeros 7 ++ leBytes 8 a ++ leBytes 8 b ++ leBytes 8 c ++ leBytes 8 d ++ zeros 24 }) mapped)
def hcX : State := modCtx 0 (fun x => { x with tabs := [blkZ] }) (hcC 0x21 0 64 0 0)
/-- The export of a block without tiles. -/
theorem export_blkZ (s : State) : exportBlks 0 [blkZ] s = (.ok (exportBlk s blkZ 0 (matOfTiles (lTl blkZ.lat) (lTr blkZ.lat) []) ++ []), s) := by
  unfold exportBlks
  rw [show lTiles blkZ.lat = 0 by decide +kernel]
  rfl

/-- A step record of step 0 with one microbatch, and the opening that it gives. -/
def stRaw : List Byte := zeros 5 ++ leBytes 1 1 ++ zeros 10
def stOpn : Opening := { raw := stRaw, tables := [], dir := zeros 2048, samples := [] }
/-- A started STEP_OPEN of context 0, which waits for its turn when `t`, over a memory that begins with `raw`. -/
def stO (t : Bool) (raw : List Byte) : State := { modCtx 0 (fun x => { x with seed := some 5, rpl := [⟨1, 0, stRaw⟩, ⟨2, 0, leBytes 4 0⟩] })
  (modSlot 0 0 (fun _ => { inUse := true, gen := 1, started := true, waitTurn := t, entry := leBytes 1 0x11 ++ zeros 7 ++ zeros 8 ++ leBytes 8 4096 ++ leBytes 8 4096 ++ zeros 32 }) mapped) with mem := if raw = [] then [] else [(5, 1)] }
def stRun (s : State) : State := modSlot 0 0 (fun x => { x with running := true }) s
/-- Its record and its empty block directory are read. -/
theorem st_judges {z : State} {raw : List Byte} (f : flat z 4096 = true) (e : engRead 0 5 0 16 z = (.data raw, z)) (h : culCtx z = 0) (n : twinCount z = 0) :
    Judges 1048576 (entryOf (stO false []) 1048576) raw [] true z z := by
  refine ⟨e, List.replicate 4096 0, z, true, true, flat_engRead f 5 4096 _ (by decide +kernel) (by decide +kernel), ?_, rfl, ?_, rfl⟩
  · rw [show chunks 16 256 (List.replicate 4096 (0 : Byte)) = List.replicate 256 (zeros 16) by decide +kernel]
    exact noTables 256 0 _
  · rw [h, if_pos (by decide)]
    unfold checkTwin
    dsimp only
    rw [n, if_pos rfl]
theorem st_table {z : State} {raw : List Byte} (f : flat z 4096 = true) (e : engRead 0 5 0 16 z = (.data raw, z)) (h : culCtx z = 0) (n : twinCount z = 3) (a : 2 ^ 40 < twinRecAddr z 3) :
    Judges 1048576 (entryOf (stO false []) 1048576) raw [] false z (checkTwin.twinErr 7 0 z) := by
  refine ⟨e, List.replicate 4096 0, z, true, false, flat_engRead f 5 4096 _ (by decide +kernel) (by decide +kernel), ?_, rfl, ?_, rfl⟩
  · rw [show chunks 16 256 (List.replicate 4096 (0 : Byte)) = List.replicate 256 (zeros 16) by decide +kernel]
    exact noTables 256 0 _
  · rw [h, if_pos (by decide)]
    unfold checkTwin
    dsimp only
    rw [n, if_neg (by decide), if_pos a]
theorem rplRead_has {c n : Nat} {s : State} (f : Nat) (h : rplHas s c n = true) : rplRead c n (f + 1) s = (.done, s) := by
  unfold rplRead
  exact if_pos h
theorem st_opens {z : State} (f : flat z 4096 = true) (e : engRead 0 5 0 16 z = (.data stRaw, z)) (h : culCtx z = 0) (n : twinCount z = 0) (b : stepNumBad z 0 stRaw = false)
    (d : (ctxOf z 0).seed.isSome = true) (r : replayOn z 0 = true → rplHas z 0 0 = true ∧ replayAgrees z 0 stRaw = true) :
    Opens 1048576 (entryOf (stO false []) 1048576) stOpn z z := by
  refine ⟨z, st_judges f e h n, by decide +kernel, b, d, ?_, ?_, ?_⟩
  · split
    · next q =>
      refine ⟨?_, (r q).2⟩
      unfold replayFor
      exact rplRead_has _ (r q).1
    · rfl
  · unfold stOpn
    dsimp only
    exact flat_engRead f 5 2048 _ (by decide +kernel) (by decide +kernel)
  · rw [if_pos (by decide +kernel)]
    rfl
/-- Context 0 with step 7 open and the blocks `l`. -/
def stC (l : List Blk) : State := modCtx 0 (fun x => { x with steps := [{ step := 7, handle := 1048576, blks := l }], last := some 7 }) mapped
def stT : State := setF CULVERT_TWIN_COUNT 0 3 (setF CULVERT_TWIN_BASE 0 0xFFFFFFFF (stO false stRaw))
def stP (t : Bool) : State := setFk HOSTIF_RPL_CFG_EN 0 0 1 (stO t stRaw)
/-- In replay mode with nothing read yet. -/
def stM : State := modCtx 0 (fun x => { x with rpl := [] }) (stP false)

theorem test_witness_OwnerSums :
  (∃ (c n g own : Nat) (st : Step) (b : Blk) (r : Recv) (x : Xfer) (A : List Mat) (s : State),
    (isAwake s = true) ∧ (blkOf s c n g = some (st, b)) ∧ (b.armed = true) ∧ (b.ph = 0) ∧ (ownerStalled s c b.cl = false) ∧ (b.mb < srMbCount st.raw) ∧ (replayAbsent s c n b.gbi b.mb b.pos = false) ∧ (ownPartial s st b.pos = false) ∧ (sourceOf s c n b.gbi b.mb b.pos = some (r, x)) ∧ (x.absent = false) ∧ (x.closed = true) ∧ (accTiles b s = (some A, s))) ∧
  (∃ (c n g own : Nat) (st : Step) (b : Blk) (r : Recv) (x : Xfer) (s : State),
    (isAwake s = true) ∧ (blkOf s c n g = some (st, b)) ∧ (b.armed = true) ∧ (b.ph = 0) ∧ (ownerStalled s c b.cl = false) ∧ (b.mb < srMbCount st.raw) ∧ (replayAbsent s c n b.gbi b.mb b.pos = false) ∧ (ownPartial s st b.pos = false) ∧ (sourceOf s c n b.gbi b.mb b.pos = some (r, x)) ∧ (x.absent = true)) ∧
  (∃ (c n g own : Nat) (st : Step) (b : Blk) (T : List (List Byte)) (A : List Mat) (s : State),
    (isAwake s = true) ∧ (blkOf s c n g = some (st, b)) ∧ (b.armed = true) ∧ (b.ph = 0) ∧ (ownerStalled s c b.cl = false) ∧ (b.mb < srMbCount st.raw) ∧ (replayAbsent s c n b.gbi b.mb b.pos = false) ∧ (ownPartial s st b.pos = true) ∧ (b.pos = ownPos s) ∧ (servedBlk s b = false) ∧ (loadTiles (dieOf b.cl) 0 own 16384 0 (lTiles b.lat) s = (.ok T, s)) ∧ (accTiles b s = (some A, s))) ∧
  (∃ (c n g : Nat) (st : Step) (b : Blk) (A : List Mat) (s : State),
    (isAwake s = true) ∧ (blkOf s c n g = some (st, b)) ∧ (sumComplete s c n st b = true) ∧ (ownerStalled s c b.cl = false) ∧ (accTiles b s = (some A, s)) ∧ (lFrozen b.lat = false) ∧ (A.all Mat.finite = true)) ∧
  (∃ (c n g : Nat) (st : Step) (b : Blk) (A : List Mat) (s : State),
    (isAwake s = true) ∧ (blkOf s c n g = some (st, b)) ∧ (sumComplete s c n st b = true) ∧ (ownerStalled s c b.cl = false) ∧ (accTiles b s = (some A, s)) ∧ (lFrozen b.lat = true) ∧ (blkOf s c (n + 1) g = none)) ∧
  (∃ (c n g hdr : Nat) (us : List Nat) (st : Step) (b : Blk) (T : List (List Byte)) (G : Mat) (s : State),
    (isAwake s = true) ∧ (blkOf s c n g = some (st, b)) ∧ (b.ph = 1) ∧ (ownerReady s c n b = true) ∧ ((isDue st b && (b.notice == 0 || b.notice == 1)) = false) ∧ (replayOn s c = false) ∧ (b.nfAcc = false) ∧ (ownedTiles b (4 + recGet s b 36 1 % 2) 0 (lF b.lat) s = (some T, s)) ∧ (accMat b s = (some G, s)) ∧ ((lSideL b.lat || lSideR b.lat) = true) ∧ ((opFive 0 b.lat G (rootMats b.lat T).1 (rootMats b.lat T).2).2 = true) ∧ (op5Code b (sramRead s b.cl hdr 32) = 0)) ∧
  (∃ (c n g hdr : Nat) (us : List Nat) (st : Step) (b : Blk) (s : State),
    (isAwake s = true) ∧ (blkOf s c n g = some (st, b)) ∧ (b.ph = 1) ∧ (ownerReady s c n b = true) ∧ (isDue st b = true) ∧ (b.notice = 0)) ∧
  (∃ (c n g hdr : Nat) (us : List Nat) (st : Step) (b : Blk) (s : State),
    (isAwake s = true) ∧ (blkOf s c n g = some (st, b)) ∧ (b.ph = 1) ∧ (ownerReady s c n b = true) ∧ ((isDue st b && (b.notice == 0 || b.notice == 1)) = false) ∧ (replayOn s c = false) ∧ (b.nfAcc = true) ∧ (op5Code b (sramRead s b.cl hdr 32) = 0)) :=
  ⟨⟨0, 7, 0, 0, st1 bSum, bSum, rv1 x1, x1, accZ, own1 bSum x1, by decide +kernel, by decide +kernel, by decide +kernel, by decide +kernel, by decide +kernel, by decide +kernel, by decide +kernel, by decide +kernel, by decide +kernel, by decide +kernel, by decide +kernel, accTiles_zero (by decide +kernel) (by decide +kernel) (by decide +kernel) (by decide +kernel)⟩,
  ⟨0, 7, 0, 0, st1 bSum, bSum, rv1 { x1 with absent := true }, { x1 with absent := true }, own1 bSum { x1 with absent := true }, by decide +kernel⟩,
  ⟨0, 7, 0, 0, st1 bOwn, bOwn, [List.replicate 16384 0], accZ, own1 bOwn x1, by decide +kernel, by decide +kernel, by decide +kernel, by decide +kernel, by decide +kernel, by decide +kernel, by decide +kernel, by decide +kernel, by decide +kernel, by decide +kernel, flat_tiles (b := 0) (by decide +kernel) 0 0 16384 (Nat.le_refl _) 1 0 (by omega), accTiles_zero (by decide +kernel) (by decide +kernel) (by decide +kernel) (by decide +kernel)⟩,
  ⟨0, 7, 0, st1 bEnd, bEnd, accZ, own1 bEnd x1, by decide +kernel, by decide +kernel, by decide +kernel, by decide +kernel, accTiles_zero (by decide +kernel) (by decide +kernel) (by decide +kernel) (by decide +kernel), by decide +kernel, by decide +kernel⟩,
  ⟨0, 7, 0, st1 bIce, bIce, accZ, own1 bIce x1, by decide +kernel, by decide +kernel, by decide +kernel, by decide +kernel, accTiles_zero (by decide +kernel) (by decide +kernel) (by decide +kernel) (by decide +kernel), by decide +kernel, by decide +kernel⟩,
  ⟨0, 7, 0, 0, [0], st1 bPre, bPre, [], [], grpAt (own1 bPre x1), by decide +kernel⟩,
  ⟨0, 7, 0, 0, [0], { st1 { blkA with ph := 1 } with ks := [1] }, { blkA with ph := 1 }, dueS { blkA with ph := 1 }, by decide +kernel⟩,
  ⟨0, 7, 0, 0, [0], st1 bNf, bNf, grpAt (own1 bNf x1), by decide +kernel⟩⟩

theorem test_witness_OwnerCommits :
  (∃ (c n g : Nat) (st : Step) (b : Blk) (T : List (List Byte)) (s : State),
    (isAwake s = true) ∧ (blkOf s c n g = some (st, b)) ∧ (b.ph = 2) ∧ (ownerReady s c n b = true) ∧ (ckptHolds s c n g = false) ∧ (wholeBuf b 1 s = (some T, s)) ∧ (replayOn s c = false) ∧ (b.stopped = false) ∧ ((deltaOf st b).all (·.isFin) = true) ∧ (lUeAuto b.lat = false)) ∧
  (∃ (c n g : Nat) (st : Step) (b : Blk) (T : List (List Byte)) (s : State),
    (isAwake s = true) ∧ (blkOf s c n g = some (st, b)) ∧ (b.ph = 3) ∧ (ownerReady s c n b = true) ∧ (mirrored s c b = true) ∧ (wholeBuf b 1 s = (some T, s)) ∧ ((membersTo s 2 (twinId s)).isEmpty = false)) ∧
  (∃ (c n g : Nat) (us : List Nat) (st : Step) (b : Blk) (T : List (List Byte)) (G : Mat) (new : Option (List Mat)) (s : State),
    (isAwake s = true) ∧ (blkOf s c n g = some (st, b)) ∧ (b.ph = 3) ∧ (ownerReady s c n b = true) ∧ ((c == culCtx s) = false) ∧ (wholeBuf b 2 s = (some T, s)) ∧ (replayOn s c = false) ∧ (accMat b s = (some G, s)) ∧ ((if b.nfAcc || lF b.lat == 0 then none else newFactors st b (recGet s b 46 2) G T) = new) ∧ ((b.nfAcc || lF b.lat == 0 || new.isSome) = true) ∧ (isDue st b = false) ∧ (blkOf s c (n + 1) g = none)) :=
  ⟨⟨0, 7, 0, st1 { blkA with ph := 2 }, { blkA with ph := 2 }, [List.replicate (tileBytes 1) 0], own1 { blkA with ph := 2 } x1, by decide +kernel, by decide +kernel, by decide +kernel, by decide +kernel, by decide +kernel, wholeBuf_zero (by decide +kernel) (by decide +kernel) (by decide +kernel) (by decide +kernel) (by decide +kernel), by decide +kernel, by decide +kernel, by decide +kernel, by decide +kernel⟩,
  ⟨0, 7, 0, st1 { blkA with ph := 3 }, { blkA with ph := 3 }, [List.replicate (tileBytes 1) 0], own1 { blkA with ph := 3 } x1, by decide +kernel, by decide +kernel, by decide +kernel, by decide +kernel, by decide +kernel, wholeBuf_zero (by decide +kernel) (by decide +kernel) (by decide +kernel) (by decide +kernel) (by decide +kernel), by decide +kernel⟩,
  ⟨1, 7, 0, [0], st1 { bNf with ph := 3 }, { bNf with ph := 3 }, [List.replicate (tileBytes 2) 0], matOfTiles 1 1 accZ, none, own2 { bNf with ph := 3 }, by decide +kernel, by decide +kernel, by decide +kernel, by decide +kernel, by decide +kernel, wholeBuf_zero (by decide +kernel) (by decide +kernel) (by decide +kernel) (by decide +kernel) (by decide +kernel), by decide +kernel, accMat_zero (by decide +kernel) (by decide +kernel) (by decide +kernel) (by decide +kernel), rfl, by decide +kernel, by decide +kernel, by decide +kernel⟩⟩

theorem test_witness_CulvertReceive :
  (∃ (f : Frame) (r : List Frame) (i : Nat) (b : Blk) (s : State),
    (isAwake s = true) ∧ (culHead 0xF [] s.inbox = some (f, r)) ∧ (twinBlk s (uGbi f) = some (i, b)) ∧ (8 ≤ pay f.payload 0 1) ∧ (pay f.payload 0 1 ≤ 10) ∧ (uAud f = false) ∧ (xferAt s b.gbi (pay f.payload 0 1) false = none)) ∧
  (∃ (f : Frame) (r : List Frame) (i : Nat) (b : Blk) (x : CulXfer) (g : Nat) (s : State),
    (isAwake s = true) ∧ (culHead 6 [] s.inbox = some (f, r)) ∧ (twinBlk s (uGbi f) = some (i, b)) ∧ (s.cul.opens.get (0, 0, false) f.oport = (b.gbi, g, uAud f)) ∧ (g ≠ 10) ∧ (xferAt s b.gbi (g) (uAud f) = some x) ∧ (x.failed = false) ∧ (x.wait = []) ∧ (x.close = none) ∧ (noClose s.cul.xfers b.gbi = true)) ∧
  (∃ (f : Frame) (r : List Frame) (i : Nat) (b : Blk) (x : CulXfer) (s : State),
    (isAwake s = true) ∧ (culHead 7 [] s.inbox = some (f, r)) ∧ (twinBlk s (uGbi f) = some (i, b)) ∧ (xferAt s b.gbi (10) (uAud f) = some x) ∧ (x.failed = false) ∧ (x.wait = []) ∧ (x.close = none) ∧ (noClose s.cul.xfers b.gbi = true)) ∧
  (∃ (f : Frame) (r : List Frame) (b : Blk) (s : State),
    (isAwake s = true) ∧ (culHead 7 [] s.inbox = some (f, r)) ∧ (twinBlk s (uGbi f) = none) ∧ (ownedBlk s (uGbi f) = some b)) ∧
  (∃ (f : Frame) (r : List Frame) (i : Nat) (b : Blk) (x : CulXfer) (s : State),
    (isAwake s = true) ∧ (culHead 1 [] s.inbox = some (f, r)) ∧ (twinBlk s (uGbi f) = some (i, b)) ∧ (xferAt s b.gbi 8 (uAud f) = some x) ∧ (x.failed = false) ∧ (offTile b 1 (uOff f) < bufTiles b 1 + 1) ∧ (joinParts (x.parts.put [] (1 * 2 ^ 34 + uOff f) f.payload) (1 * 2 ^ 34 + tileBytes 1 * offTile b 1 (uOff f)) (tileLen b 1 (offTile b 1 (uOff f))) = none)) ∧
  (∃ (f : Frame) (r : List Frame) (i : Nat) (b : Blk) (x : CulXfer) (s : State),
    (isAwake s = true) ∧ (culHead 2 [] s.inbox = some (f, r)) ∧ (twinBlk s (uGbi f) = some (i, b)) ∧ (xferAt s b.gbi 9 (uAud f) = some x) ∧ (x.failed = false) ∧ (offTile b 2 (uOff f) < bufTiles b 2 + 0) ∧ (joinParts (x.parts.put [] (2 * 2 ^ 34 + uOff f) f.payload) (2 * 2 ^ 34 + tileBytes 2 * offTile b 2 (uOff f)) (tileLen b 2 (offTile b 2 (uOff f))) = none)) ∧
  (∃ (f : Frame) (r : List Frame) (i : Nat) (b : Blk) (x : CulXfer) (s : State),
    (isAwake s = true) ∧ (culHead 3 [] s.inbox = some (f, r)) ∧ (twinBlk s (uGbi f) = some (i, b)) ∧ (xferAt s b.gbi 9 (uAud f) = some x) ∧ (x.failed = false) ∧ (offTile b 3 (uOff f) < bufTiles b 3 + 0) ∧ (joinParts (x.parts.put [] (3 * 2 ^ 34 + uOff f) f.payload) (3 * 2 ^ 34 + tileBytes 3 * offTile b 3 (uOff f)) (tileLen b 3 (offTile b 3 (uOff f))) = none)) ∧
  (∃ (f : Frame) (r : List Frame) (i : Nat) (b : Blk) (x : CulXfer) (s : State),
    (isAwake s = true) ∧ (culHead 4 [] s.inbox = some (f, r)) ∧ (twinBlk s (uGbi f) = some (i, b)) ∧ (xferAt s b.gbi 10 (uAud f) = some x) ∧ (x.failed = false) ∧ (offTile b 4 (uOff f) < bufTiles b 4 + 0) ∧ (joinParts (x.parts.put [] (4 * 2 ^ 34 + uOff f) f.payload) (4 * 2 ^ 34 + tileBytes 4 * offTile b 4 (uOff f)) (tileLen b 4 (offTile b 4 (uOff f))) = none)) ∧
  (∃ (f : Frame) (r : List Frame) (i : Nat) (b : Blk) (x : CulXfer) (s : State),
    (isAwake s = true) ∧ (culHead 5 [] s.inbox = some (f, r)) ∧ (twinBlk s (uGbi f) = some (i, b)) ∧ (xferAt s b.gbi 10 (uAud f) = some x) ∧ (x.failed = false) ∧ (offTile b 5 (uOff f) < bufTiles b 5 + 0) ∧ (joinParts (x.parts.put [] (5 * 2 ^ 34 + uOff f) f.payload) (5 * 2 ^ 34 + tileBytes 5 * offTile b 5 (uOff f)) (tileLen b 5 (offTile b 5 (uOff f))) = none)) :=
  ⟨⟨fOpen, [], 0, twinAt (twinS 0 [fOpen]) 0, twinS 0 [fOpen], by decide +kernel⟩,
  ⟨fTabW, [], 0, twinAt (twinX (xf 8) fTabW) 0, xf 8, 8, twinX (xf 8) fTabW, by decide +kernel⟩,
  ⟨fTabR, [], 0, twinAt (twinX (xf 10) fTabR) 0, xf 10, twinX (xf 10) fTabR, by decide +kernel⟩,
  ⟨fRetR, [], { gbi := 0, cl := 0, addr := 0, lat := zeros 24 }, ownF { owned := [{ gbi := 0, cl := 0, addr := 0, lat := zeros 24 }] } fRetR, by decide +kernel⟩,
  ⟨(fData 1), [], 0, twinAt (twinX (xf 8) (fData 1)) 0, xf 8, twinX (xf 8) (fData 1), by decide +kernel⟩,
  ⟨(fData 2), [], 0, twinAt (twinX (xf 9) (fData 2)) 0, xf 9, twinX (xf 9) (fData 2), by decide +kernel⟩,
  ⟨(fData 3), [], 0, twinAt (twinX (xf 9) (fData 3)) 0, xf 9, twinX (xf 9) (fData 3), by decide +kernel⟩,
  ⟨(fData 4), [], 0, twinAt (twinX (xf 10) (fData 4)) 0, xf 10, twinX (xf 10) (fData 4), by decide +kernel⟩,
  ⟨(fData 5), [], 0, twinAt (twinX (xf 10) (fData 5)) 0, xf 10, twinX (xf 10) (fData 5), by decide +kernel⟩⟩

theorem test_witness_CulvertClosesAndFetches :
  (∃ (f : Frame) (r : List Frame) (i : Nat) (b : Blk) (x : CulXfer) (s : State),
    (isAwake s = true) ∧ (culHead 8 [] s.inbox = some (f, r)) ∧ (twinBlk s (uGbi f) = some (i, b)) ∧ (uAud f = false) ∧ (x = { ((xferAt s b.gbi 8 false).getD { gbi := b.gbi, grp := 8, aud := false, stamp := pay f.payload 0 4 }) with close := some f.payload }) ∧ (x.failed = false) ∧ ((neededTiles b x f.payload).all x.passed.contains = true) ∧ (noClose (s.cul.xfers.filter fun y => !(y.gbi == b.gbi && y.grp == 8 && y.aud == false)) b.gbi = true)) ∧
  (∃ (f : Frame) (r : List Frame) (i : Nat) (b : Blk) (x : CulXfer) (s : State),
    (isAwake s = true) ∧ (culHead 9 [] s.inbox = some (f, r)) ∧ (twinBlk s (uGbi f) = some (i, b)) ∧ (uAud f = false) ∧ (x = { ((xferAt s b.gbi 9 false).getD { gbi := b.gbi, grp := 9, aud := false, stamp := pay f.payload 0 4 }) with close := some f.payload }) ∧ (x.failed = false) ∧ ((neededTiles b x f.payload).all x.passed.contains = true) ∧ (noClose (s.cul.xfers.filter fun y => !(y.gbi == b.gbi && y.grp == 9 && y.aud == false)) b.gbi = true) ∧ (recGet s b 24 4 = pay f.payload 0 4)) ∧
  (∃ (f : Frame) (r : List Frame) (i : Nat) (b : Blk) (x : CulXfer) (s : State),
    (isAwake s = true) ∧ (culHead 10 [] s.inbox = some (f, r)) ∧ (twinBlk s (uGbi f) = some (i, b)) ∧ (uAud f = false) ∧ (x = { ((xferAt s b.gbi 10 false).getD { gbi := b.gbi, grp := 10, aud := false, stamp := pay f.payload 0 4 }) with close := some f.payload }) ∧ (x.failed = false) ∧ ((neededTiles b x f.payload).all x.passed.contains = true) ∧ (noClose (s.cul.xfers.filter fun y => !(y.gbi == b.gbi && y.grp == 10 && y.aud == false)) b.gbi = true)) ∧
  (∃ (f : Frame) (r : List Frame) (st : Step) (b : Blk) (s : State),
    (isAwake s = true) ∧ (culHead 0xB [] s.inbox = some (f, r)) ∧ (pay f.payload 4 1 = 9) ∧ (blkOf s (culCtx s) (pay f.payload 0 4) (uGbi f) = some (st, b))) ∧
  (∃ (f : Frame) (r : List Frame) (b : Blk) (s : State),
    (isAwake s = true) ∧ (culHead 0xC [] s.inbox = some (f, r)) ∧ (ownedBlk s (uGbi f) = some b) ∧ (bit (pay f.payload 8 1) 0 = true) ∧ ((fetchOf s (uGbi f) (pay f.payload 0 1) (pay f.payload 4 4)).isSome = true)) ∧
  (∃ (f : Frame) (r : List Frame) (b : Blk) (s : State),
    (isAwake s = true) ∧ (culHead 0xC [] s.inbox = some (f, r)) ∧ (ownedBlk s (uGbi f) = some b) ∧ (bit (pay f.payload 8 1) 0 = false) ∧ (pay f.payload 0 1 = 1) ∧ (pay f.payload 4 4 = lTiles b.lat) ∧ ((membersTo s 2 (twinId s)).isEmpty = false)) ∧
  (∃ (f : Frame) (r : List Frame) (g k : Nat) (s : State),
    (isAwake s = true) ∧ (culHead 0xD [] s.inbox = some (f, r)) ∧ (s.cul.audits.find? (fun e => e.1 == uGbi f) = some (g, [k])) ∧ (pay f.payload 0 4 ≠ 0) ∧ (pay f.payload 4 1 < 3)) ∧
  (∃ (f : Frame) (r : List Frame) (e : Nat × List Nat) (s : State),
    (isAwake s = true) ∧ (culHead 0xD [] s.inbox = some (f, r)) ∧ (s.cul.audits.find? (fun e => e.1 == uGbi f) = some e) ∧ (pay f.payload 0 4 = 0)) ∧
  (∃ (f : Frame) (r : List Frame) (i : Nat) (b : Blk) (bs : List Byte) (s : State),
    (isAwake s = true) ∧ (culHead 0xE [] s.inbox = some (f, r)) ∧ (twinBlk s (uGbi f) = some (i, b)) ∧ (fetchAnswer i b (pay f.payload 0 1) (pay f.payload 4 4) (pay f.payload 8 4) s = (some bs, s)) ∧ ((membersTo s 2 (twinId s)).isEmpty = false) ∧ (noWeak s = true)) ∧
  (∃ (f : Frame) (r : List Frame) (i : Nat) (b : Blk) (s : State),
    (isAwake s = true) ∧ (culHead 0xE [] s.inbox = some (f, r)) ∧ (twinBlk s (uGbi f) = some (i, b)) ∧ (pay f.payload 0 1 = 0 ∨ 5 < pay f.payload 0 1 ∨ bufTiles b (pay f.payload 0 1) ≤ pay f.payload 4 4 ∨ (chkFlags s i).testBit (grpBit (kindGrp (pay f.payload 0 1))) = false ∨ (chkFlags s i).testBit (grpBit (kindGrp (pay f.payload 0 1)) + 3) = true ∨ kindStamp s b (pay f.payload 0 1) ≠ pay f.payload 8 4) ∧ ((membersTo s 2 (twinId s)).isEmpty = false)) ∧
  (∃ (r : Requester) (a v : Nat) (s : State),
    (a % 4 = 0) ∧ (target s r a = some (9, 0, 0x11C)) ∧ (gate s r 9 0 0x11C = .pass) ∧ (isSuspect s (v % 2 ^ 32) = true) ∧ (2 ≤ getF s CULVERT_RESOLVE_ACT 0)) ∧
  (∃ (r : Requester) (a v : Nat) (s : State),
    (a % 4 = 0) ∧ (target s r a = some (9, 0, 0x110)) ∧ (gate s r 9 0 0x110 = .pass)) :=
  ⟨⟨fClose 8 6, [], 0, twinAt (twinX (xDone 8 1) (fClose 8 6)) 0, { xDone 8 1 with close := some (pl32 [(4, 6)]) }, twinX (xDone 8 1) (fClose 8 6), by decide +kernel⟩,
  ⟨fClose 9 0, [], 0, twinAt (twinX (xDone 9 4) (fClose 9 0)) 0, { xDone 9 4 with close := some (pl32 [(4, 0)]) }, twinX (xDone 9 4) (fClose 9 0), by decide +kernel⟩,
  ⟨fClose 10 6, [], 0, twinAt (twinX (xDone 10 4) (fClose 10 6)) 0, { xDone 10 4 with close := some (pl32 [(4, 6)]) }, twinX (xDone 10 4) (fClose 10 6), by decide +kernel⟩,
  ⟨fAck, [], stA blkA, blkA, blkS blkA [fAck], by decide +kernel⟩,
  ⟨fNack 1 3 4, [], blkA, ownF { owned := [blkA], fetches := [{ gbi := 0, kind := 4, tile := 3 }] } (fNack 1 3 4), by decide +kernel⟩,
  ⟨fNack 0 1 1, [], blkA, ownF { owned := [blkA] } (fNack 0 1 1), by decide +kernel⟩,
  ⟨fRes 1, [], 0, 1, ownF { audits := [(0, [1])] } (fRes 1), by decide +kernel⟩,
  ⟨fRes 0, [], (0, [1, 2]), ownF { audits := [(0, [1, 2])] } (fRes 0), by decide +kernel⟩,
  ⟨fFetch, [], 0, twinAt twinF 0, [255, 255, 255, 255] ++ List.replicate 8188 0, twinF, by decide +kernel, by decide +kernel, by decide +kernel, twinF_answer, by decide +kernel, by decide +kernel⟩,
  ⟨fFetch, [], 0, twinAt (twinS 0 [fFetch]) 0, twinS 0 [fFetch], by decide +kernel⟩,
  ⟨.pf, 0x59911C, 0, setF CULVERT_RESOLVE_ACT 0 2 { allOn with cul := { suspects := [{ gbi := 0, buf := 1, outcome := 3, tile := 2 }] } }, by decide +kernel⟩,
  ⟨.pf, 0x599110, 9, allOn, by decide +kernel⟩⟩

theorem test_witness_DescriptorListsAndQueues :
  (∃ (cl lid : Nat) (l : ListRun) (s : State),
    (stopped s = false) ∧ (domOn s (32 + cl / 8) = true) ∧ (listOf s cl lid = some l) ∧ (listTurn s cl l = true) ∧ (l.pos.hdr = false) ∧ (l.pos.idx < l.pos.count) ∧ (groupOk (dop (sramRead s cl (l.pos.addr + 64 + 32 * l.pos.idx) 32)) = true)) ∧
  (∃ (cl lid : Nat) (l : ListRun) (s : State),
    (stopped s = false) ∧ (domOn s (32 + cl / 8) = true) ∧ (listOf s cl lid = some l) ∧ (listTurn s cl l = true) ∧ (l.pos.hdr = true) ∧ (l.pos.addr % 64 = 0) ∧ (l.pos.addr + 64 + 32 * sramVal s cl (l.pos.addr + 4) 4 ≤ sramTop) ∧ (0 < sramVal s cl (l.pos.addr + 4) 4) ∧ (leVal (sramRead s cl (l.pos.addr + 16) 48) = 0)) ∧
  (∃ (cl lid : Nat) (l : ListRun) (s : State),
    (stopped s = false) ∧ (domOn s (32 + cl / 8) = true) ∧ (listOf s cl lid = some l) ∧ (listTurn s cl l = true) ∧ (l.pos.hdr = false) ∧ (l.pos.idx < l.pos.count) ∧ (groupOk (dop (sramRead s cl (l.pos.addr + 64 + 32 * l.pos.idx) 32)) = false) ∧ (getF s CLUSTER_LIST_ERR_CODE cl = 0)) ∧
  (∃ (cl lid n : Nat) (l : ListRun) (d : List Byte) (s : State),
    (stopped s = false) ∧ (domOn s (32 + cl / 8) = true) ∧ (descInHand s cl lid 2 = some (l, d)) ∧ (n < 4) ∧ (cqOpen s cl n = true) ∧ (outranked s cl l.ctx = false)) ∧
  (∃ (u : Nat) (q : QDesc) (r : List QDesc) (s : State),
    (stopped s = false) ∧ (domOn s (u / 32) = true) ∧ ((unitOf s u).run = none) ∧ (fenced s u = false) ∧ (isF s TUNIT_CTRL_Q_EN u = true) ∧ (isF s TUNIT_STAT_LEND u = false) ∧ ((unitOf s u).cq = q :: r) ∧ ((unitOf s u).bad = none) ∧ (descCode false q.desc = 0)) ∧
  (∃ (u : Nat) (q : QDesc) (r : List QDesc) (s : State),
    (stopped s = false) ∧ (domOn s (u / 32) = true) ∧ ((unitOf s u).run = none) ∧ (fenced s u = false) ∧ (isF s TUNIT_CTRL_Q_EN u = true) ∧ (wideReady s u = true) ∧ (isF s TUNIT_STAT_LEND u = true ∨ (unitOf s u).cq = []) ∧ ((unitOf s u).wq = q :: r) ∧ (descCode true q.desc = 0)) ∧
  (∃ (u : Nat) (q : QDesc) (r : List QDesc) (s : State),
    (stopped s = false) ∧ (domOn s (u / 32) = true) ∧ ((unitOf s u).run = none) ∧ (fenced s u = false) ∧ (isF s TUNIT_CTRL_Q_EN u = true) ∧ (isF s TUNIT_STAT_LEND u = false) ∧ ((unitOf s u).cq = q :: r) ∧ ((unitOf s u).bad = none) ∧ (descCode false q.desc ≠ 0) ∧ (getF s TUNIT_ERR_INFO_CODE u = 0)) ∧
  (∃ (u : Nat) (q : QDesc) (s : State),
    (stopped s = false) ∧ (domOn s (u / 32) = true) ∧ (fenced s u = false) ∧ ((unitOf s u).run = some q) ∧ (q.wide = false) ∧ (mTiles q.desc ≤ q.tile)) ∧
  (∃ (u : Nat) (q : QDesc) (s : State),
    (stopped s = false) ∧ (domOn s (u / 32) = true) ∧ (fenced s u = false) ∧ ((unitOf s u).run = some q) ∧ (q.wide = true)) :=
  ⟨⟨0, 0, lsA false 1, lsS false 1 128 mmD, by decide +kernel⟩,
  ⟨0, 0, lsA true 0, lsS true 0 64 (leBytes 4 7 ++ leBytes 4 2), by decide +kernel⟩,
  ⟨0, 0, lsA false 1, lsS false 1 128 [0x11], by decide +kernel⟩,
  ⟨0, 0, 3, { lsA false 1 with desc := some mmD }, mmD, clS { lists := [{ lsA false 1 with desc := some mmD }] }, by decide +kernel⟩,
  ⟨0, qM, [], unS { cq := [qM] }, by decide +kernel⟩,
  ⟨0, qW, [], setF TUNIT_CTRL_WIDE_ALLOW 0 1 (unS { wq := [qW] }), by decide +kernel⟩,
  ⟨0, { qM with desc := mmW }, [], unS { cq := [{ qM with desc := mmW }] }, by decide +kernel⟩,
  ⟨0, { qM with tile := 1 }, unS { run := some { qM with tile := 1 } }, by decide +kernel⟩,
  ⟨0, qW, unS { run := some qW }, by decide +kernel⟩⟩

theorem test_witness_TilesAndFencing :
  (∃ (u : Nat) (q : QDesc) (s : State),
    (stopped s = false) ∧ (domOn s (u / 32) = true) ∧ (floatRun s u = some q) ∧ (mFmtL q.desc ≠ 4) ∧ ((unitOf s u).tile.k < mK q.desc)) ∧
  (∃ (u corr stall ahead : Nat) (fl : Flips) (q : QDesc) (w : List Nat) (v : List Nat) (s : State),
    (stopped s = false) ∧ (domOn s (u / 32) = true) ∧ (fenced s u = false) ∧ ((unitOf s u).run = some q) ∧ (q.wide = false) ∧ (q.tile < mTiles q.desc) ∧ (formed s u q = some w) ∧ (missRow (getF s TUNIT_CHK_CFG_CHK_TOL u) (flipCol fl (checkCol (tileOps s (u / 4) q.desc q.tile))) (flipWords fl w) = none) ∧ (enterSlot (mAcc q.desc) ((unitOf s u).acc.get {} ((if q.adopted then 8 else 0) + q.tile)).vals (flipWords fl w) = v)) ∧
  (∃ (u corr stall ahead : Nat) (fl : Flips) (q : QDesc) (w : List Nat) (row : Nat) (s : State),
    (stopped s = false) ∧ (domOn s (u / 32) = true) ∧ (fenced s u = false) ∧ ((unitOf s u).run = some q) ∧ (q.wide = false) ∧ (q.tile < mTiles q.desc) ∧ (formed s u q = some w) ∧ (missRow (getF s TUNIT_CHK_CFG_CHK_TOL u) (flipCol fl (checkCol (tileOps s (u / 4) q.desc q.tile))) (flipWords fl w) = some row) ∧ ((unitOf s u).tile.again = false)) ∧
  (∃ (u corr stall ahead : Nat) (fl : Flips) (q : QDesc) (w : List Nat) (row : Nat) (s : State),
    (stopped s = false) ∧ (domOn s (u / 32) = true) ∧ (fenced s u = false) ∧ ((unitOf s u).run = some q) ∧ (q.wide = false) ∧ (q.tile < mTiles q.desc) ∧ (formed s u q = some w) ∧ (missRow (getF s TUNIT_CHK_CFG_CHK_TOL u) (flipCol fl (checkCol (tileOps s (u / 4) q.desc q.tile))) (flipWords fl w) = some row) ∧ ((unitOf s u).tile.again = true)) ∧
  (∃ (u corr stall ahead : Nat) (fl : Flips) (s : State),
    (stopped s = false) ∧ (domOn s (u / 32) = true) ∧ (fenced s u = false)) ∧
  (∃ (r : Requester) (a v i : Nat) (s : State),
    (a % 4 = 0) ∧ (target s r a = some (0, i, 0x10)) ∧ (gate s r 0 i 0x10 = .pass) ∧ (v.testBit 2 = true) ∧ (fenced s i = false)) ∧
  (∃ (r : Requester) (a v i : Nat) (s : State),
    (a % 4 = 0) ∧ (target s r a = some (0, i, 0x10)) ∧ (gate s r 0 i 0x10 = .pass) ∧ (v.testBit 3 = true)) ∧
  (∃ (cl f n : Nat) (s : State),
    (stopped s = false) ∧ (domOn s (32 + cl / 8) = true) ∧ ((clusterOf s cl).copying = some (f, n)) ∧ ((clusterOf s cl).fences = [f]) ∧ (f ≠ n) ∧ (f < 4) ∧ (n < 4) ∧ (floatWork (unitOf s (cl * 4 + f)) ≠ []) ∧ ((unitOf s (cl * 4 + n)).cq.length + (floatWork (unitOf s (cl * 4 + f))).length ≤ 16)) ∧
  (∃ (cl : Nat) (q : QDesc) (r : List QDesc) (s : State),
    (stopped s = false) ∧ (domOn s (32 + cl / 8) = true) ∧ ((clusterOf s cl).buf = q :: r) ∧ ((unitOf s (cl * 4 + (clusterOf s cl).bufTo)).cq.length < 16)) :=
  ⟨⟨0, qM, unS { run := some qM }, by decide +kernel⟩,
  ⟨0, 0, 0, 0, [], qM, [], enterSlot false [] (flipWords [] []), unS { run := some qM, tile := { k := 1 } }, by decide +kernel⟩,
  ⟨0, 0, 0, 0, [(0, 0x42000000)], qM, [], 0, unS { run := some qM, tile := { k := 1 } }, by decide +kernel⟩,
  ⟨0, 0, 0, 0, [(0, 0x42000000)], qM, [], 0, unS { run := some qM, tile := { k := 1, again := true } }, by decide +kernel⟩,
  ⟨0, 0, 0, 0, [], unS { run := some qM, tile := { k := 1 } }, by decide +kernel⟩,
  ⟨.pf, 16, 4, 0, allOn, by decide +kernel⟩,
  ⟨.pf, 16, 8, 0, unS { bad := some qM }, by decide +kernel⟩,
  ⟨0, 0, 1, modUnit 0 (fun x => { x with cq := [qM] }) (clS { copying := some (0, 1), fences := [0] }), by decide +kernel⟩,
  ⟨0, qM, [], clS { buf := [qM], bufTo := 2 }, by decide +kernel⟩⟩

theorem test_witness_ReductionsConversionsAndStash :
  (∃ (cl dst part n k : Nat) (last : Bool) (s : State),
    (stopped s = false) ∧ (domOn s (32 + cl / 8) = true) ∧ ((clusterOf s cl).folds.get 0 dst = k)) ∧
  (∃ (cl lid : Nat) (l : ListRun) (d : List Byte) (s : State),
    (stopped s = false) ∧ (domOn s (32 + cl / 8) = true) ∧ (descInHand s cl lid 3 = some (l, d)) ∧ (cvtCode d = 0) ∧ (cDstFmt d ≠ 4)) ∧
  (∃ (cl lid : Nat) (l : ListRun) (d : List Byte) (s : State),
    (stopped s = false) ∧ (domOn s (32 + cl / 8) = true) ∧ (descInHand s cl lid 3 = some (l, d)) ∧ (cvtCode d ≠ 0)) ∧
  (∃ (cl lid : Nat) (l : ListRun) (d : List Byte) (s : State),
    (stopped s = false) ∧ (domOn s (32 + cl / 8) = true) ∧ (descInHand s cl lid 7 = some (l, d)) ∧ (groupCode d = 0) ∧ (replayOn s l.ctx = false)) ∧
  (∃ (cl lid : Nat) (l : ListRun) (d : List Byte) (s : State),
    (stopped s = false) ∧ (domOn s (32 + cl / 8) = true) ∧ (descInHand s cl lid 7 = some (l, d)) ∧ (groupCode d ≠ 0)) ∧
  (∃ (cl lid : Nat) (l : ListRun) (d : List Byte) (cs : List (Chan × Nat)) (xss : List (List Nat)) (s : State),
    (stopped s = false) ∧ (domOn s (32 + cl / 8) = true) ∧ (descInHand s cl lid 4 = some (l, d)) ∧ (stashCode d = 0) ∧ (dop d = 0x41) ∧ (xss = (List.range (64 * stCht d)).map (stashSrc s cl d)) ∧ (cs = (xss.map (encChan (stOutExp d))).zip (rawIdxs (stSlots d) 0 (xss.map (encChan (stOutExp d)))))) ∧
  (∃ (cl lid : Nat) (l : ListRun) (d : List Byte) (s : State),
    (stopped s = false) ∧ (domOn s (32 + cl / 8) = true) ∧ (descInHand s cl lid 4 = some (l, d)) ∧ (dop d = 0x41) ∧ (stashCode d ≠ 0) ∧ (getF s CLUSTER_STASH_ERR_CODE cl = 0)) ∧
  (∃ (cl lid : Nat) (l : ListRun) (d : List Byte) (bs raws : List (List Byte)) (cs : List (List Byte × List Byte × List Nat)) (s : State),
    (stopped s = false) ∧ (domOn s (32 + cl / 8) = true) ∧ (descInHand s cl lid 4 = some (l, d)) ∧ (stashCode d = 0) ∧ (dop d = 0x42) ∧ (stFmt d = 2) ∧ (stCht d = 1) ∧ (readAll (cl / 64) (tileRanges d (stCh0 d)) s = (some bs, s)) ∧ (cs = (List.range 64).map (chanParts bs)) ∧ (cs.all (fun e => chanOk (stSlots d) e.1 e.2.1 e.2.2) = true) ∧ (cs.any (fun e => hKind e.1 == 2 && hRaw e.1 == 0xFFFF) = false) ∧ (readAll (cl / 64) (rawRanges d cs) s = (some raws, s))) ∧
  (∃ (cl lid : Nat) (l : ListRun) (d : List Byte) (bs : List (List Byte)) (s : State),
    (stopped s = false) ∧ (domOn s (32 + cl / 8) = true) ∧ (descInHand s cl lid 4 = some (l, d)) ∧ (stashCode d = 0) ∧ (dop d = 0x42) ∧ (stFmt d = 2) ∧ (stCht d = 1) ∧ (readAll (cl / 64) (tileRanges d (stCh0 d)) s = (some bs, s)) ∧ (((List.range 64).map (chanParts bs)).all (fun e => chanOk (stSlots d) e.1 e.2.1 e.2.2) = false)) ∧
  (∃ (cl lid : Nat) (l : ListRun) (d : List Byte) (bs : List (List Byte)) (s : State),
    (stopped s = false) ∧ (domOn s (32 + cl / 8) = true) ∧ (descInHand s cl lid 4 = some (l, d)) ∧ (stashCode d = 0) ∧ (dop d = 0x42) ∧ (stFmt d = 2) ∧ (stCht d = 1) ∧ (readAll (cl / 64) (tileRanges d (stCh0 d)) s = (some bs, s)) ∧ (((List.range 64).map (chanParts bs)).all (fun e => chanOk (stSlots d) e.1 e.2.1 e.2.2) = true) ∧ (((List.range 64).map (chanParts bs)).any (fun e => hKind e.1 == 2 && hRaw e.1 == 0xFFFF) = true)) :=
  ⟨⟨0, 64, 128, 2, 0, false, allOn, by decide +kernel⟩,
  ⟨0, 0, lsD cvD, cvD, nuS cvD [], by decide +kernel⟩,
  ⟨0, 0, lsD (leBytes 4 0x432 ++ zeros 28), (leBytes 4 0x432 ++ zeros 28), nuS (leBytes 4 0x432 ++ zeros 28) [], by decide +kernel⟩,
  ⟨0, 0, lsD (leBytes 4 0x71 ++ zeros 28), (leBytes 4 0x71 ++ zeros 28), nuS (leBytes 4 0x71 ++ zeros 28) [], by decide +kernel⟩,
  ⟨0, 0, lsD (leBytes 4 0x72 ++ zeros 28), (leBytes 4 0x72 ++ zeros 28), nuS (leBytes 4 0x72 ++ zeros 28) [], by decide +kernel⟩,
  ⟨0, 0, lsD (stD 0x41), stD 0x41, _, _, nuS (stD 0x41) [], by decide +kernel, by decide +kernel, by decide +kernel, by decide +kernel, by decide +kernel, rfl, rfl⟩,
  ⟨0, 0, lsD (leBytes 4 0x41 ++ zeros 28), (leBytes 4 0x41 ++ zeros 28), nuS (leBytes 4 0x41 ++ zeros 28) [], by decide +kernel⟩,
  ⟨0, 0, lsD (stD 0x42), stD 0x42, [hdrM, List.replicate 4096 0, List.replicate 64 0], _, csM, nuS (stD 0x42) memM, by decide +kernel, by decide +kernel, by decide +kernel, by decide +kernel, by decide +kernel, by decide +kernel, by decide +kernel, stash_reads (by decide +kernel) (hdr_reads (by decide +kernel) rfl), csM_parts, by decide +kernel, by decide +kernel, raw_none csM (stD 0x42) _ (by decide +kernel) (by decide +kernel)⟩,
  ⟨0, 0, lsD (stD 0x42), stD 0x42, [List.replicate 512 0, List.replicate 4096 0, List.replicate 64 0], nuS (stD 0x42) [], by decide +kernel, by decide +kernel, by decide +kernel, by decide +kernel, by decide +kernel, by decide +kernel, by decide +kernel, stash_reads0 (by decide +kernel), by decide +kernel⟩,
  ⟨0, 0, lsD (stD 0x42), stD 0x42, [hdrL, List.replicate 4096 0, List.replicate 64 0], nuS (stD 0x42) memL, by decide +kernel, by decide +kernel, by decide +kernel, by decide +kernel, by decide +kernel, by decide +kernel, by decide +kernel, stash_reads (by decide +kernel) (hdr_readsL (by decide +kernel) rfl), by decide +kernel, by decide +kernel⟩⟩

theorem test_witness_RootJobs :
  (∃ (rg c : Nat) (b : Blk) (s : State),
    (stopped s = false) ∧ (domOn s (32 + rg) = true) ∧ ((seqOf s rg).job = none) ∧ ((seqOf s rg).restart = none) ∧ (isF s ROOTSEQ_CTRL_EN rg = true) ∧ (earliest s (candidates s rg 16) = some (c, b))) ∧
  (∃ (rg : Nat) (j : Job) (ts rs : List (List Byte)) (A B : Mat) (tr lam : FV) (s : State),
    (stopped s = false) ∧ (domOn s (32 + rg) = true) ∧ (jobIn s rg [0] = some j) ∧ (isF s ROOTSEQ_CTRL_EN rg = true) ∧ ((if jobCode j = 0 then 32 else 64) * jobN j * jobN j ≤ getF s ROOTSEQ_SCR_SIZE rg * 1048576) ∧ (loadTiles (regionDie rg) 2 (bufAddr s (jobBlk j) 3) 16384 (sideTiles j).1 (sideTiles j).2 s = (.ok ts, s)) ∧ (A = sideFactor j ts) ∧ (tr = ((List.range (jobN j)).map fun i => A.at i i).foldl add32 fv0) ∧ (lam = div32 (mul32 (val32 (if j.started then j.damp else getF s ROOTSEQ_DAMP rg)) tr) (fvInt (jobA j))) ∧ (B = A.zipIdx.map (fun r => r.1.zipIdx.map fun v => if v.2 = r.2 then add32 v.1 lam else v.1)) ∧ (j.side = 0 → lSideR j.lat = true → loadTiles (regionDie rg) 2 (bufAddr s (jobBlk j) 3) 16384 (sideTiles { j with side := 1 }).1 (sideTiles { j with side := 1 }).2 s = (.ok rs, s) ∧ sideRange { firstStart s rg j with side := 1 } (sideFactor { j with side := 1 } rs) = false) ∧ (noWeak s = true)) ∧
  (∃ (rg : Nat) (j : Job) (s : State),
    (stopped s = false) ∧ (domOn s (32 + rg) = true) ∧ (jobIn s rg [0] = some j) ∧ (isF s ROOTSEQ_CTRL_EN rg = true) ∧ (getF s ROOTSEQ_SCR_SIZE rg * 1048576 < (if jobCode j = 0 then 32 else 64) * jobN j * jobN j)) ∧
  (∃ (rg u : Nat) (d : List Byte) (st : List Stage) (j : Job) (w : State) (s : State),
    (stopped s = false) ∧ (domOn s (32 + rg) = true) ∧ (jobIn s rg [2, 3, 4] = some j) ∧ (isF s ROOTSEQ_CTRL_EN rg = true) ∧ (u / 32 = rg) ∧ (lendable s u = true) ∧ ((unitOf s u).wq.length < 4) ∧ (pieceOk s rg d = true) ∧ (st.all (stageOk s rg) = true) ∧ (stageIn rg (u / 4) st s = (false, w))) ∧
  (∃ (rg u : Nat) (d : List Byte) (st : List Stage) (j : Job) (s : State),
    (stopped s = false) ∧ (domOn s (32 + rg) = true) ∧ (jobIn s rg [2, 3, 4] = some j) ∧ (isF s ROOTSEQ_CTRL_EN rg = true) ∧ (u / 32 = rg) ∧ (lendable s u = true) ∧ ((unitOf s u).wq.length < 4) ∧ (pieceOk s rg d = true) ∧ (st.all (stageOk s rg) = true)) ∧
  (∃ (rg : Nat) (j : Job) (X M T : IMat) (W Y : IMat × Bool) (s : State),
    (stopped s = false) ∧ (domOn s (32 + rg) = true) ∧ (jobReady s rg 2 = some j) ∧ (getMat rg (jobN j) (1 + j.iter % 2) s = (.ok (some X), s)) ∧ (getMat rg (jobN j) (3 + j.iter % 2) s = (.ok (some M), s)) ∧ (T = newtonT (jobP j) M) ∧ (W = newtonW (jobN j) T (jobP j) M) ∧ (Y = wideMat (jobN j) X (T.map fun r => r.map fun v => bxShift v ((newtonExp (jobP j) (j.iter + 1) : Int) - j.sx).toNat)) ∧ (noWeak s = true)) ∧
  (∃ (rg : Nat) (j : Job) (A M M1 : IMat) (l : List (Nat × Int)) (Y : IMat × Bool) (s : State),
    (stopped s = false) ∧ (domOn s (32 + rg) = true) ∧ (jobReady s rg 3 = some j) ∧ (getMat rg (jobN j) 0 s = (.ok (some A), s)) ∧ (getMat rg (jobN j) (1 + j.iter % 2) s = (.ok (some M), s)) ∧ (cholCols (val32 j.phi) (64 * j.iter + 64) 64 (64 * j.iter) M = (M1, l)) ∧ (Y = cholTrail (64 * j.iter) (64 * j.iter + 64) M1) ∧ (64 * (j.iter + 1) < jobN j) ∧ (noWeak s = true)) ∧
  (∃ (rg : Nat) (j : Job) (A M M1 : IMat) (l : List (Nat × Int)) (Y I X : IMat × Bool) (s : State),
    (stopped s = false) ∧ (domOn s (32 + rg) = true) ∧ (jobReady s rg 3 = some j) ∧ (getMat rg (jobN j) 0 s = (.ok (some A), s)) ∧ (getMat rg (jobN j) (1 + j.iter % 2) s = (.ok (some M), s)) ∧ (cholCols (val32 j.phi) (64 * j.iter + 64) 64 (64 * j.iter) M = (M1, l)) ∧ (Y = cholTrail (64 * j.iter) (64 * j.iter + 64) M1) ∧ (jobN j ≤ 64 * (j.iter + 1)) ∧ (I = triInverse (jobN j) (cholExp j) (lowerTri Y.1)) ∧ (X = wideMat (jobN j) (IMat.flip I.1 (jobN j)) I.1) ∧ (noWeak s = true)) ∧
  (∃ (rg : Nat) (j : Job) (A X M : IMat) (r : FV) (s : State),
    (stopped s = false) ∧ (domOn s (32 + rg) = true) ∧ (jobReady s rg 4 = some j) ∧ (jobCode j ≠ 0) ∧ (getMat rg (jobN j) 0 s = (.ok (some A), s)) ∧ (getMat rg (jobN j) (1 + j.iter % 2) s = (.ok (some X), s)) ∧ (getMat rg (jobN j) (3 + j.iter % 2) s = (.ok (some M), s)) ∧ (r = newtonRes (jobP j) j.sx A X M (probe ((ctxOf s j.ctx).seed.getD 0) j)) ∧ (noWeak s = true)) ∧
  (∃ (rg : Nat) (j : Job) (A L X : IMat) (r : FV) (s : State),
    (stopped s = false) ∧ (domOn s (32 + rg) = true) ∧ (jobReady s rg 4 = some j) ∧ (jobCode j = 0) ∧ (getMat rg (jobN j) 0 s = (.ok (some A), s)) ∧ (getMat rg (jobN j) (1 + j.iter % 2) s = (.ok (some L), s)) ∧ (getMat rg (jobN j) 3 s = (.ok (some X), s)) ∧ (r = cholRes (jobN j) j.sx A L X (probe ((ctxOf s j.ctx).seed.getD 0) j)) ∧ (noWeak s = true)) :=
  ⟨⟨0, 0, blkA, modCtx 0 (fun x => { x with tabs := [blkA] }) (rtS {} [(48, 1)]), by decide +kernel⟩,
  ⟨0, jbA 0 latC, _, [], _, _, _, _, rtJ 0 latC, by decide +kernel, by decide +kernel, by decide +kernel, by decide +kernel, by decide +kernel, flat_tiles (by decide +kernel) 2 _ 16384 (Nat.zero_le _) 1 0 (by decide +kernel), rfl, rfl, rfl, rfl, fun _ h => absurd h (by decide +kernel), by decide +kernel⟩,
  ⟨0, jbA 0 latC, { setFk PWR_DOM_STAT 0 1 1 mapped with seqs := [(0, { job := some (jbA 0 latC) })] }, by decide +kernel⟩,
  ⟨0, 0, mmP, [], jbA 3 latC, _, rtJ 3 latC, by decide +kernel, by decide +kernel, by decide +kernel, by decide +kernel, by decide +kernel, by decide +kernel, by decide +kernel, by decide +kernel, by decide +kernel, rfl⟩,
  ⟨0, 0, mmP, [], jbA 3 latC, rtJ 3 latC, by decide +kernel⟩,
  ⟨0, jbA 2 latN, zMat 64, zMat 64, _, _, _, rtJ 2 latN, by decide +kernel, by decide +kernel, by decide +kernel, getMat_zero (by decide +kernel) (by decide +kernel), getMat_zero (by decide +kernel) (by decide +kernel), rfl, rfl, rfl, by decide +kernel⟩,
  ⟨0, jbA 3 latW, zMat 128, zMat 128, _, _, _, rtJ 3 latW, by decide +kernel, by decide +kernel, by decide +kernel, getMat_zero (by decide +kernel) (by decide +kernel), getMat_zero (by decide +kernel) (by decide +kernel), (Prod.eta _).symm, rfl, by decide +kernel, by decide +kernel⟩,
  ⟨0, jbA 3 latC, zMat 64, zMat 64, _, _, _, _, _, rtJ 3 latC, by decide +kernel, by decide +kernel, by decide +kernel, getMat_zero (by decide +kernel) (by decide +kernel), getMat_zero (by decide +kernel) (by decide +kernel), (Prod.eta _).symm, rfl, by decide +kernel, rfl, rfl, by decide +kernel⟩,
  ⟨0, jbA 4 latN, zMat 64, zMat 64, zMat 64, _, rtJ 4 latN, by decide +kernel, by decide +kernel, by decide +kernel, by decide +kernel, getMat_zero (by decide +kernel) (by decide +kernel), getMat_zero (by decide +kernel) (by decide +kernel), getMat_zero (by decide +kernel) (by decide +kernel), rfl, by decide +kernel⟩,
  ⟨0, jbA 4 latC, zMat 64, zMat 64, zMat 64, _, rtJ 4 latC, by decide +kernel, by decide +kernel, by decide +kernel, by decide +kernel, getMat_zero (by decide +kernel) (by decide +kernel), getMat_zero (by decide +kernel) (by decide +kernel), getMat_zero (by decide +kernel) (by decide +kernel), rfl, by decide +kernel⟩⟩

theorem test_witness_RootPublicationAndNotices :
  (∃ (rg : Nat) (j : Job) (s : State),
    (stopped s = false) ∧ (domOn s (32 + rg) = true) ∧ (jobIn s rg [5] = some j) ∧ (bookedReject s j = none) ∧ (spareFree s rg j.ctx j.gbi = true) ∧ (heldBack s j = false) ∧ (ckptReads s j = false)) ∧
  (∃ (rg : Nat) (j : Job) (s : State),
    (stopped s = false) ∧ (domOn s (32 + rg) = true) ∧ (jobIn s rg [5] = some j) ∧ (bookedReject s j = none) ∧ (heldBack s j = true)) ∧
  (∃ (rg : Nat) (j : Job) (s : State),
    (stopped s = false) ∧ (domOn s (32 + rg) = true) ∧ ((seqOf s rg).held.find? (mayPublish s rg) = some j)) ∧
  (∃ (rg : Nat) (t : Notice) (rest : List Notice) (x : Step) (b : Blk) (s : State),
    (stopped s = false) ∧ (domOn s (32 + rg) = true) ∧ ((seqOf s rg).notices = t :: rest) ∧ ((seqOf s rg).restart = none) ∧ (seqStalled s t.ctx rg = false) ∧ (blkOf s t.ctx t.step t.gbi = some (x, b)) ∧ (lateKind s t b = 0) ∧ ((seqOf s rg).held.any (fun j => j.written && !heldBack s j) = false)) ∧
  (∃ (rg : Nat) (t : Notice) (rest : List Notice) (x : Step) (b : Blk) (s : State),
    (stopped s = false) ∧ (domOn s (32 + rg) = true) ∧ ((seqOf s rg).notices = t :: rest) ∧ ((seqOf s rg).restart = none) ∧ (seqStalled s t.ctx rg = false) ∧ (blkOf s t.ctx t.step t.gbi = some (x, b)) ∧ (lateKind s t b = 1) ∧ ((seqOf s rg).held.any (fun j => j.written && !heldBack s j) = false)) ∧
  (∃ (rg : Nat) (t : Notice) (rest : List Notice) (x : Step) (b : Blk) (s : State),
    (stopped s = false) ∧ (domOn s (32 + rg) = true) ∧ ((seqOf s rg).notices = t :: rest) ∧ ((seqOf s rg).restart = none) ∧ (seqStalled s t.ctx rg = false) ∧ (blkOf s t.ctx t.step t.gbi = some (x, b)) ∧ (lateKind s t b = 2) ∧ ((seqOf s rg).held.any (fun j => j.written && !heldBack s j) = false)) ∧
  (∃ (rg : Nat) (t : Notice) (x : Step) (b : Blk) (s : State),
    (stopped s = false) ∧ (domOn s (32 + rg) = true) ∧ ((seqOf s rg).restart = some t) ∧ (wideStopped s rg 32 = true) ∧ (blkOf s t.ctx t.step t.gbi = some (x, b))) ∧
  (∃ (rg : Nat) (v : Bool) (s : State),
    (stopped s = false) ∧ (domOn s (32 + rg) = true) ∧ (v = (urgentNow s rg || ownerWaits s rg 16))) ∧
  (∃ (rg : Nat) (j : Job) (s : State),
    (stopped s = false) ∧ (domOn s (32 + rg) = true) ∧ ((seqOf s rg).job = some j)) ∧
  (∃ (rg : Nat) (s : State),
    (stopped s = false) ∧ (domOn s (32 + rg) = true) ∧ ((seqOf s rg).job = none)) :=
  ⟨⟨0, jbA 5 latC, rtJ 5 latC, by decide +kernel⟩,
  ⟨0, jbA 5 latC, modCtx 0 (fun x => { x with tabs := [{ blkA with lat := zeros 12 ++ [64, 0, 64, 0, 5] ++ zeros 7 }] }) (rtJ 5 latC), by decide +kernel⟩,
  ⟨0, jbA 6 latC, rtS { held := [jbA 6 latC] } [], by decide +kernel⟩,
  ⟨0, ⟨0, 7, 0⟩, [], stA { blkA with lat := zeros 12 ++ [64, 0, 64, 0, 4] ++ zeros 7 }, { blkA with lat := zeros 12 ++ [64, 0, 64, 0, 4] ++ zeros 7 }, rtN 4 [], by decide +kernel⟩,
  ⟨0, ⟨0, 7, 0⟩, [], stA { blkA with lat := zeros 12 ++ [64, 0, 64, 0, 4] ++ zeros 7 }, { blkA with lat := zeros 12 ++ [64, 0, 64, 0, 4] ++ zeros 7 }, rtN 4 [(48, 1)], by decide +kernel⟩,
  ⟨0, ⟨0, 7, 0⟩, [], stA { blkA with lat := zeros 12 ++ [64, 0, 64, 0, 20] ++ zeros 7 }, { blkA with lat := zeros 12 ++ [64, 0, 64, 0, 20] ++ zeros 7 }, rtN 20 [(48, 1)], by decide +kernel⟩,
  ⟨0, ⟨0, 7, 0⟩, stA { blkA with lat := zeros 12 ++ [64, 0, 64, 0, 4] ++ zeros 7 }, { blkA with lat := zeros 12 ++ [64, 0, 64, 0, 4] ++ zeros 7 }, modSeq 0 (fun q => { q with restart := some ⟨0, 7, 0⟩ }) (rtN 4 []), by decide +kernel⟩,
  ⟨0, _, rtJ 3 latC, by decide +kernel, by decide +kernel, rfl⟩,
  ⟨0, jbA 3 latC, rtJ 3 latC, by decide +kernel⟩,
  ⟨0, rtS {} [], by decide +kernel⟩⟩

theorem test_witness_CollectiveTransfers :
  (∃ (c flag k n : Nat) (d : List Byte) (rest : List (Nat × List Byte)) (st : Step) (s : State),
    (isAwake s = true) ∧ (isF s COLL_CTRL_EN 0 = true) ∧ ((ctxOf s c).coll.halted = false) ∧ (collPaused s c = false) ∧ ((ctxOf s c).coll.posts = (n, d) :: rest) ∧ (collStep s c n = some st) ∧ (dop d = 0x62) ∧ (collCode s c st d = 0) ∧ ((ctxOf s c).coll.early = []) ∧ (lostInStep s st (getF s COLL_DEGRADE_LOST_POS 0) = false)) ∧
  (∃ (c flag k n : Nat) (d : List Byte) (rest : List (Nat × List Byte)) (st : Step) (s : State),
    (isAwake s = true) ∧ (isF s COLL_CTRL_EN 0 = true) ∧ ((ctxOf s c).coll.halted = false) ∧ (collPaused s c = false) ∧ ((ctxOf s c).coll.posts = (n, d) :: rest) ∧ (collStep s c n = some st) ∧ (collCode s c st d ≠ 0)) ∧
  (∃ (c room k n : Nat) (enc : List PartEnc) (d : List Byte) (rest : List (Nat × List Byte)) (st : Step) (peers : List (Nat × Nat × Bool)) (all held free : List Nat) (w v : State) (s : State),
    (isAwake s = true) ∧ (collRuns s c = true) ∧ (collPaused s c = false) ∧ (bits (dw d 0) 4 4 ≠ 5) ∧ ((ctxOf s c).coll.list = (n, d) :: rest) ∧ (collStep s c n = some st) ∧ (collCode s c st d = 0) ∧ (sendOpen s c = none) ∧ (hubGranted s 536 c (sendKey n d) = true) ∧ (w = encodeParts (if kKind d = 0 then enc else []) (hubTake 536 c (sendKey n d) s)) ∧ (peers = sendPeers s st d k) ∧ (all = (if kRelease d then [] else allTurns d peers)) ∧ (held = gatherHeld w c st d all) ∧ (free = all.filter (fun k => !held.contains k)) ∧ (sendTurns c d peers (free.take room) (if kRelease d then sendReleasesTo c d peers w else w) = some v) ∧ (∀ x ∈ (ctxOf s c).coll.sends, ¬ (x.step = n ∧ x.cid = kCid d))) ∧
  (∃ (c n cid g : Nat) (st : Step) (x : Send) (now : List Nat) (v : State) (s : State),
    (isAwake s = true) ∧ (isF s COLL_CTRL_EN 0 = true) ∧ (collPaused s c = false) ∧ (collStep s c n = some st) ∧ ((ctxOf s c).coll.sends.find? (fun x => kKind x.desc == 1 && x.step == n && x.cid == cid && !x.left.isEmpty) = some x) ∧ (now = x.left.filter (fun k => relHolds s c x.desc && ((turnBlks s st x.desc k).isEmpty || (turnBlks s st x.desc k).any (fun b => b.gbi == g)) && (turnBlks s st x.desc k).all (gatherReady s x.desc))) ∧ (now ≠ []) ∧ (sendTurns c x.desc x.peers now s = some v)) ∧
  (∃ (f : Frame) (r : List Frame) (s : State),
    (isAwake s = true) ∧ (collInbox s (fun t => decide (t < 0xFFFE)) = some (f, r)) ∧ (stepAbove s f.ctx (fStep f) = true)) ∧
  (∃ (f : Frame) (r : List Frame) (q : Recv) (x y : Xfer) (s : State),
    (isAwake s = true) ∧ (collInbox s (fun t => decide (t < 0xFFFE)) = some (f, r)) ∧ (stepAbove s f.ctx (fStep f) = false) ∧ (recvOf s f.ctx (fStep f) (fCid f) = some q) ∧ (kRelease q.desc = false) ∧ (fTurn f < kTurns q.desc) ∧ ((q.xfers.filter fun x => x.src == f.src).find? (fun x => !x.closed && (!x.absent || x.carry) && !turnDone q.desc x (fTurn f)) = some x) ∧ (x.carry = false) ∧ (y = { x with turns := x.turns.put [] (fTurn f) (x.turns.get [] (fTurn f) ++ f.payload) }) ∧ (xferFull q.desc y = false)) ∧
  (∃ (f : Frame) (r : List Frame) (q : Recv) (x y : Xfer) (s : State),
    (isAwake s = true) ∧ (collInbox s (fun t => decide (t < 0xFFFE)) = some (f, r)) ∧ (stepAbove s f.ctx (fStep f) = false) ∧ (recvOf s f.ctx (fStep f) (fCid f) = some q) ∧ (kRelease q.desc = false) ∧ (fTurn f < kTurns q.desc) ∧ ((q.xfers.filter fun x => x.src == f.src).find? (fun x => !x.closed && (!x.absent || x.carry) && !turnDone q.desc x (fTurn f)) = some x) ∧ (x.carry = false) ∧ (y = { x with turns := x.turns.put [] (fTurn f) (x.turns.get [] (fTurn f) ++ f.payload) }) ∧ (xferFull q.desc y = true) ∧ (x.absent = false)) ∧
  (∃ (f : Frame) (r : List Frame) (s : State),
    (isAwake s = true) ∧ (collInbox s (fun t => decide (t < 0xFFFE)) = some (f, r)) ∧ (stepAbove s f.ctx (fStep f) = false) ∧ (recvOf s f.ctx (fStep f) (fCid f) = none)) ∧
  (∃ (f : Frame) (r : List Frame) (x y : Send) (l : List Send) (i : Nat) (s : State),
    (isAwake s = true) ∧ (collInbox s (fun t => t == 0xFFFF) = some (f, r)) ∧ (stepAbove s f.ctx (fStep f) = false) ∧ (takeFirst (fun x : Send => x.step == fStep f && x.cid == fCid f && x.peers.any fun e => e.1 == f.src && !e.2.2) (ctxOf s f.ctx).coll.sends = some (x, l)) ∧ (i = ((x.peers.find? fun e => e.1 == f.src && !e.2.2).map (·.2.1)).getD 0) ∧ (y = { x with peers := x.peers.map (fun e => if e.2.1 = i then (e.1, e.2.1, true) else e), left := x.left.filter fun k => k / 65536 != i }) ∧ (∀ z ∈ (ctxOf s f.ctx).coll.sends, z.step = fStep f → z.cid = fCid f → z = x)) ∧
  (∃ (f : Frame) (r : List Frame) (q : Recv) (x : Xfer) (s : State),
    (isAwake s = true) ∧ (collInbox s (fun t => t == 0xFFFE) = some (f, r)) ∧ (stepAbove s f.ctx (fStep f) = false) ∧ (recvOf s f.ctx (fStep f) (fCid f) = some q) ∧ (q.xfers.find? (fun x => x.src == f.src) = some x) ∧ (kRelease q.desc = true) ∧ (x.closed = false)) ∧
  (∃ (hclk : Nat) (s : State),
    (isAwake s = true)) :=
  ⟨⟨0, 0, 0, 7, coD 0x62 1, [], stA blkA, coS { posts := [(7, coD 0x62 1)] } [], by decide +kernel⟩,
  ⟨0, 0, 0, 7, coD 0x62 7, [], stA blkA, coS { posts := [(7, coD 0x62 7)] } [], by decide +kernel⟩,
  ⟨0, 1, 0, 7, [], coD 0x61 2, [], stA blkA, _, _, _, _, _, _, coG [(7, coD 0x61 2)], by decide +kernel, by decide +kernel, by decide +kernel, by decide +kernel, by decide +kernel, by decide +kernel, by decide +kernel, by decide +kernel, by decide +kernel, rfl, rfl, rfl, rfl, rfl, (Option.some_get (by decide +kernel)).symm, by decide +kernel⟩,
  ⟨0, 7, 5, 0, { stA blkA with blks := [] }, coSend [0], [0], _, modCtx 0 (fun x => { x with steps := [{ stA blkA with blks := [] }] }) (coS { sends := [coSend [0]] } []), by decide +kernel, by decide +kernel, by decide +kernel, by decide +kernel, by decide +kernel, by decide +kernel, by decide +kernel, (Option.some_get (by decide +kernel)).symm⟩,
  ⟨coF 8 0 32, [], coS {} [coF 8 0 32], by decide +kernel⟩,
  ⟨coF 7 0 16, [], coR 1 [coX], coX, { coX with turns := [(0, zeros 16)] }, coS { recvs := [coR 1 [coX]] } [coF 7 0 16], by decide +kernel⟩,
  ⟨coF 7 0 32, [], coR 1 [coX], coX, { coX with turns := [(0, zeros 32)] }, coS { recvs := [coR 1 [coX]] } [coF 7 0 32], by decide +kernel⟩,
  ⟨coF 7 0 32, [], coS {} [coF 7 0 32], by decide +kernel⟩,
  ⟨coF 7 0xFFFF 0, [], coSend [], { coSend [] with peers := [(1, 0, true)] }, [], 0, coS { sends := [coSend []] } [coF 7 0xFFFF 0], by decide +kernel⟩,
  ⟨coF 7 0xFFFE 0, [], coR 6 [coX], coX, coS { recvs := [coR 6 [coX]] } [coF 7 0xFFFE 0], by decide +kernel⟩,
  ⟨5, State.reset, by decide +kernel⟩⟩

theorem test_witness_StragglersPausesAndLosses :
  (∃ (c n cid : Nat) (r : Recv) (s : State),
    (stopped s = false) ∧ (recvOf s c n cid = some r) ∧ (kKind r.desc = 0) ∧ (getFk s COLL_STRAG 0 c ≠ 0) ∧ (replayOn s c = false) ∧ (r.xfers.any (·.closed) = true) ∧ (openXfers r ≠ [])) ∧
  (∃ (r : Requester) (a v i : Nat) (s : State),
    (a % 4 = 0) ∧ (target s r a = some (8, i, 0x280)) ∧ (gate s r 8 i 0x280 = .pass)) ∧
  (∃ (h : Nat) (s : State),
    (stopped s = false) ∧ (cmdReady s h 0x41 = true) ∧ (degEntry s (bits (argOf (entryOf s h) 0) 0 9) = none)) ∧
  (∃ (h k : Nat) (s : State),
    (stopped s = false) ∧ (cmdReady s h 0x41 = true) ∧ (degEntry s (bits (argOf (entryOf s h) 0) 0 9) = some k) ∧ (bit (argOf (entryOf s h) 0) 12 = true) ∧ (isF s (degFlds k).1 0 = true)) ∧
  (∃ (h k : Nat) (s : State),
    (stopped s = false) ∧ (cmdReady s h 0x41 = true) ∧ (degEntry s (bits (argOf (entryOf s h) 0) 0 9) = some k) ∧ (bit (argOf (entryOf s h) 0) 12 = false) ∧ (isF s (degFlds k).1 0 = false)) ∧
  (∃ (h : Nat) (s : State),
    (isAwake s = true) ∧ (cmdReady s h 0x40 = true) ∧ (stepIsOpen s (argOf (entryOf s h) 0 % 16) = true)) ∧
  (∃ (h : Nat) (bs : List Byte) (s : State),
    (isAwake s = true) ∧ (cmdReady s h 0x40 = true) ∧ (stepIsOpen s (argOf (entryOf s h) 0 % 16) = false) ∧ (engRead 0 5 (argOf (entryOf s h) 1) 400 s = (.data bs, s)) ∧ (noWeak s = true)) ∧
  (∃ (r : Release) (rest : List Release) (l y : ListRun) (s : State),
    (stopped s = false) ∧ (s.releases = r :: rest) ∧ (r.party.cluster ≠ 256) ∧ (listOf s r.party.cluster r.party.lst = some l) ∧ (l.st = .waiting) ∧ (r.status = .ok ∨ r.status = .marked) ∧ (l.grp.filter (·.arrived) = none) ∧ (y = { l with st := .run, gated := [] })) ∧
  (∃ (r : Release) (rest : List Release) (s : State),
    (stopped s = false) ∧ (s.releases = r :: rest) ∧ (r.party.cluster = 256) ∧ ((ctxOf s r.party.lst).coll.waiting = true)) :=
  ⟨⟨0, 7, 5, coR 0 [{ coX with closed := true }, { coX with idx := 1, pos := 2, src := 2 }], setFk COLL_STRAG 0 0 9 (coS { recvs := [coR 0 [{ coX with closed := true }, { coX with idx := 1, pos := 2, src := 2 }]] } []), by decide +kernel⟩,
  ⟨.pf, 0x598280, 3, 0, State.reset, by decide +kernel⟩,
  ⟨1048576, coC 0x41 9, by decide +kernel⟩,
  ⟨1048576, 1, setF COLL_DEGRADE_PREV_ACTIVE 0 1 (setF LINK_SELF_BOARD 0 1 (coC 0x41 (2 ^ 12))), by decide +kernel⟩,
  ⟨1048576, 1, setF LINK_SELF_BOARD 0 1 (coC 0x41 (2 ^ 10)), by decide +kernel⟩,
  ⟨1048576, modCtx 0 (fun x => { x with steps := [stA blkA] }) (coC 0x40 0), by decide +kernel⟩,
  ⟨1048576, _, coC 0x40 0, by decide +kernel, by decide +kernel, by decide +kernel, flat_engRead (by decide +kernel) 5 400 _ (Nat.zero_le _) (by decide +kernel), by decide +kernel⟩,
  ⟨⟨⟨0, 1⟩, .marked⟩, [], coL, { coL with st := .run, gated := [] }, modCluster 0 (fun c => { c with lists := [coL] }) { mapped with releases := [⟨⟨0, 1⟩, .marked⟩] }, by decide +kernel⟩,
  ⟨⟨⟨256, 0⟩, .stale⟩, [], { coS { waiting := true } [] with releases := [⟨⟨256, 0⟩, .stale⟩] }, by decide +kernel⟩⟩

theorem test_witness_Checkpoints :
  (∃ (h : Nat) (s : State),
    (isAwake s = true) ∧ (cmdReady s h 0x30 = true) ∧ ((ctxOf s (hCtx h)).lastCommit.any (fun l => decide ((argOf (entryOf s h) 0 % two32) < l)) = true)) ∧
  (∃ (h : Nat) (s : State),
    (isAwake s = true) ∧ (cmdReady s h 0x30 = true) ∧ ((ctxOf s (hCtx h)).lastCommit.any (fun l => decide ((argOf (entryOf s h) 0 % two32) < l)) = false) ∧ ((ctxOf s (hCtx h)).ckpt.isSome = true)) ∧
  (∃ (h n : Nat) (hb xb : List Byte) (hs xs : List (List Byte)) (s : State),
    (isAwake s = true) ∧ (cmdReady s h 0x30 = true) ∧ (n = (argOf (entryOf s h) 0 % two32)) ∧ ((ctxOf s (hCtx h)).lastCommit.any (fun l => decide (n < l)) = false) ∧ ((ctxOf s (hCtx h)).ckpt = none) ∧ (engRead 0 6 (argOf (entryOf s h) 1 % 2 ^ 40) (16 * (if bits (argOf (entryOf s h) 0) 32 2 = 1 then argOf (entryOf s h) 2 else 0)) s = (.data hb, s)) ∧ (engRead 0 6 (argOf (entryOf s h) 3) (16 * argOf (entryOf s h) 4) s = (.data xb, s)) ∧ (hs = chunks 16 (if bits (argOf (entryOf s h) 0) 32 2 = 1 then argOf (entryOf s h) 2 else 0) hb) ∧ (xs = chunks 16 (argOf (entryOf s h) 4) xb) ∧ (stepClosed s (hCtx h) n = false) ∧ (noWeak s = true)) ∧
  (∃ (c g : Nat) (k : Ckpt) (s : State),
    (isAwake s = true) ∧ ((ctxOf s c).ckpt = some k) ∧ ((k.left.any fun l => l.contains g) = false ∨ isSuspect s g = true ∨ (k.peer = false ∧ hubGranted s 537 (c + 16) 1 = false) ∨ ckptWindow s c g k = none)) ∧
  (∃ (c g : Nat) (k : Ckpt) (b : Blk) (hd : ZHead) (raw r : List Byte) (v : State) (s : State),
    (isAwake s = true) ∧ ((ctxOf s c).ckpt = some k) ∧ ((k.left.any fun l => l.contains g) = true) ∧ (isSuspect s g = false) ∧ (ckptWindow s c g k = some b) ∧ (blockRecord b (hubTake 537 (c + 16) 1 s) = (some (hd, raw), v)) ∧ (r = zRecord hd k.cut (!k.peer) raw) ∧ (k.peer = true ∨ hubGranted s 537 (c + 16) 1 = true) ∧ (noWeak s = true)) ∧
  (∃ (c : Nat) (k : Ckpt) (s : State),
    (isAwake s = true) ∧ ((ctxOf s c).ckpt = some k) ∧ (k.ended = true)) ∧
  (∃ (c : Nat) (k : Ckpt) (r m : List Byte) (s : State),
    (isAwake s = true) ∧ ((ctxOf s c).ckpt = some k) ∧ (k.ended = false) ∧ (k.left = some []) ∧ (k.cutRead = true) ∧ (k.arriving = []) ∧ (k.dropped = []) ∧ (r = zRecord { kind := 4, gbi := k.entries.length } k.cut (!k.peer) []) ∧ (m = zManifest s c k.cut (k.entries ++ [zEntry { kind := 4, gbi := k.entries.length } k.off r])) ∧ (k.peer = false)) ∧
  (∃ (c : Nat) (k : Ckpt) (r m : List Byte) (s : State),
    (isAwake s = true) ∧ ((ctxOf s c).ckpt = some k) ∧ (k.ended = false) ∧ (k.left = some []) ∧ (k.cutRead = true) ∧ (k.arriving = []) ∧ (k.dropped = []) ∧ (r = zRecord { kind := 4, gbi := k.entries.length } k.cut (!k.peer) []) ∧ (m = zManifest s c k.cut (k.entries ++ [zEntry { kind := 4, gbi := k.entries.length } k.off r])) ∧ (k.peer = true) ∧ (k.dones = []) ∧ (k.holders ≠ [])) ∧
  (∃ (f : Frame) (r : List Frame) (s : State),
    (isAwake s = true) ∧ (peerInbox s 1 = some (f, r)) ∧ (¬ winSize s f.ctx < pOff f + f.payload.length)) ∧
  (∃ (f : Frame) (r : List Frame) (s : State),
    (isAwake s = true) ∧ (peerInbox s 1 = some (f, r)) ∧ (winSize s f.ctx < pOff f + f.payload.length)) ∧
  (∃ (f : Frame) (r : List Frame) (bs : List Byte) (s : State),
    (isAwake s = true) ∧ (peerInbox s 2 = some (f, r)) ∧ (¬ winSize s f.ctx < pOff f + pLen f) ∧ (engRead 0 6 (winAddr s f.ctx (pOff f)) (pLen f) s = (.data bs, s)) ∧ (noWeak s = true)) ∧
  (∃ (f : Frame) (r : List Frame) (s : State),
    (isAwake s = true) ∧ (peerInbox s 2 = some (f, r)) ∧ (winSize s f.ctx < pOff f + pLen f)) ∧
  (∃ (f : Frame) (r : List Frame) (k : Ckpt) (s : State),
    (isAwake s = true) ∧ (peerInbox s 4 = some (f, r)) ∧ (pOff f = 0) ∧ ((ctxOf s f.ctx).ckpt = some k) ∧ (k.peer = true) ∧ (k.ended = true) ∧ (k.holders.any (fun h => h.1 == f.src) = true)) ∧
  (∃ (f : Frame) (r : List Frame) (s : State),
    (isAwake s = true) ∧ (peerInbox s 4 = some (f, r)) ∧ (pOff f ≠ 0) ∧ (¬ winSize s f.ctx < pOff f)) ∧
  (∃ (f : Frame) (r : List Frame) (s : State),
    (isAwake s = true) ∧ (peerInbox s 4 = some (f, r)) ∧ (pOff f ≠ 0) ∧ (winSize s f.ctx < pOff f)) :=
  ⟨⟨1048576, modCtx 0 (fun x => { x with lastCommit := some 5 }) (coC 0x30 0), by decide +kernel⟩,
  ⟨1048576, modCtx 0 (fun x => { x with ckpt := some (ckK false false) }) (coC 0x30 0), by decide +kernel⟩,
  ⟨1048576, 0, [], [], [], [], coC 0x30 0, by decide +kernel, by decide +kernel, by decide +kernel, by decide +kernel, by decide +kernel, rfl, rfl, by decide +kernel, by decide +kernel, by decide +kernel, by decide +kernel⟩,
  ⟨0, 3, ckK false false, ckS (ckK false false) [], by decide +kernel⟩,
  ⟨0, 0, { ckK false false with left := some [0] }, blkZ, { kind := 1, gbi := 0, secs := 3 }, zeros 64, _, hubTake 537 16 1 ckB, ckB, by decide +kernel, by decide +kernel, by decide +kernel, by decide +kernel, by decide +kernel, by decide +kernel, rfl, by decide +kernel, by decide +kernel⟩,
  ⟨0, ckK false true, ckS (ckK false true) [], by decide +kernel⟩,
  ⟨0, ckK false false, _, _, ckS (ckK false false) [], by decide +kernel, by decide +kernel, by decide +kernel, by decide +kernel, by decide +kernel, by decide +kernel, by decide +kernel, rfl, rfl, by decide +kernel⟩,
  ⟨0, ckK true false, _, _, ckS (ckK true false) [], by decide +kernel, by decide +kernel, by decide +kernel, by decide +kernel, by decide +kernel, by decide +kernel, by decide +kernel, rfl, rfl, by decide +kernel, by decide +kernel, by decide +kernel⟩,
  ⟨ckF 1 0 0 64, [], ckS (ckK false false) [ckF 1 0 0 64], by decide +kernel⟩,
  ⟨ckF 1 0 0 64, [], setFk HOSTIF_PEER_WIN_MIB 0 0 0 (ckS (ckK false false) [ckF 1 0 0 64]), by decide +kernel⟩,
  ⟨ckF 2 0 1 0, [], _, ckS (ckK false false) [ckF 2 0 1 0], by decide +kernel, by decide +kernel, by decide +kernel, flat_engRead (by decide +kernel) 6 64 _ (Nat.zero_le _) (by decide +kernel), by decide +kernel⟩,
  ⟨ckF 2 0 1 0, [], setFk HOSTIF_PEER_WIN_MIB 0 0 0 (ckS (ckK false false) [ckF 2 0 1 0]), by decide +kernel⟩,
  ⟨ckF 4 0 0 0, [], ckK true true, ckS (ckK true true) [ckF 4 0 0 0], by decide +kernel⟩,
  ⟨ckF 4 1 0 0, [], ckS (ckK true true) [ckF 4 1 0 0], by decide +kernel⟩,
  ⟨ckF 4 1 0 0, [], setFk HOSTIF_PEER_WIN_MIB 0 0 0 (ckS (ckK true true) [ckF 4 1 0 0]), by decide +kernel⟩⟩

theorem test_witness_Restores :
  (∃ (f : Frame) (r : List Frame) (R : Restore) (e : List Byte) (l : List (List Byte)) (s : State),
    (isAwake s = true) ∧ (peerInbox s 3 = some (f, r)) ∧ ((ctxOf s f.ctx).restore = some R) ∧ (R.left = e :: l)) ∧
  (∃ (h dir : Nat) (s : State),
    (isAwake s = true) ∧ (cmdReady s h 0x31 = true) ∧ (stepIsOpen s (hCtx h) = true)) ∧
  (∃ (h dir : Nat) (bs : List Byte) (R : Restore) (s : State),
    (isAwake s = true) ∧ (cmdReady s h 0x31 = true) ∧ (stepIsOpen s (hCtx h) = false) ∧ (engRead 0 6 (argOf (entryOf s h) 0) (96 * (argOf (entryOf s h) 1 % two32)) s = (.data bs, s)) ∧ (R = { handle := h, src := bits (argOf (entryOf s h) 1) 32 2, exts := argOf (entryOf s h) 2, left := chunks 96 (argOf (entryOf s h) 1 % two32) bs }) ∧ (dir = 0) ∧ (noWeak s = true)) ∧
  (∃ (h dir : Nat) (bs db : List Byte) (R : Restore) (ts : Tables) (s : State),
    (isAwake s = true) ∧ (cmdReady s h 0x31 = true) ∧ (stepIsOpen s (hCtx h) = false) ∧ (engRead 0 6 (argOf (entryOf s h) 0) (96 * (argOf (entryOf s h) 1 % two32)) s = (.data bs, s)) ∧ (R = { handle := h, src := bits (argOf (entryOf s h) 1) 32 2, exts := argOf (entryOf s h) 2, left := chunks 96 (argOf (entryOf s h) 1 % two32) bs }) ∧ (dir ≠ 0) ∧ (engRead 0 6 dir 4096 s = (.data db, s)) ∧ (readTables 0 (chunks 16 256 db) s = (.ok ts, s)) ∧ (noWeak s = true)) ∧
  (∃ (c : Nat) (hd : List Byte) (R : Restore) (e : List Byte) (rest : List (List Byte)) (s : State),
    (isAwake s = true) ∧ ((ctxOf s c).restore = some R) ∧ (R.left = e :: rest) ∧ (recordBytes R e hd = none)) ∧
  (∃ (c : Nat) (hd : List Byte) (R : Restore) (e : List Byte) (rest : List (List Byte)) (bs : List Byte) (s : State),
    (isAwake s = true) ∧ ((ctxOf s c).restore = some R) ∧ (R.left = e :: rest) ∧ (recordBytes R e hd = some bs) ∧ (openRecord e bs = none)) ∧
  (∃ (c : Nat) (hd : List Byte) (R : Restore) (e : List Byte) (rest : List (List Byte)) (bs : List Byte) (raw : List Byte) (s : State),
    (isAwake s = true) ∧ ((ctxOf s c).restore = some R) ∧ (R.left = e :: rest) ∧ (recordBytes R e hd = some bs) ∧ (openRecord e bs = some raw) ∧ ((pay bs 3 1 = 1 ∧ (ctxOf s c).tabs.find? (fun b => b.gbi == pay bs 8 4) = none ∧ twinBlk s (pay bs 8 4) = none) ∨ (pay bs 3 1 = 3 ∧ findExtent s R.exts (pay bs 4 3) 64 = none) ∨ pay bs 3 1 = 0 ∨ 3 < pay bs 3 1)) ∧
  (∃ (c : Nat) (hd : List Byte) (R : Restore) (e : List Byte) (rest : List (List Byte)) (bs : List Byte) (raw : List Byte) (a n : Nat) (s : State),
    (isAwake s = true) ∧ ((ctxOf s c).restore = some R) ∧ (R.left = e :: rest) ∧ (recordBytes R e hd = some bs) ∧ (openRecord e bs = some raw) ∧ (pay bs 3 1 = 3) ∧ (findExtent s R.exts (pay bs 4 3) 64 = some (a, n))) ∧
  (∃ (c : Nat) (hd : List Byte) (R : Restore) (e : List Byte) (rest : List (List Byte)) (bs : List Byte) (raw : List Byte) (own : Option Blk) (twin : Option (Nat × Blk)) (s : State),
    (isAwake s = true) ∧ ((ctxOf s c).restore = some R) ∧ (R.left = e :: rest) ∧ (recordBytes R e hd = some bs) ∧ (openRecord e bs = some raw) ∧ (pay bs 3 1 = 1) ∧ (own = (ctxOf s c).tabs.find? (fun b => b.gbi == pay bs 8 4)) ∧ (twin = twinBlk s (pay bs 8 4)) ∧ ((own.any (fun b => !sidesAgree b.lat raw) || twin.any (fun e => !sidesAgree e.2.lat raw)) = true)) ∧
  (∃ (c : Nat) (hd : List Byte) (R : Restore) (e : List Byte) (rest : List (List Byte)) (bs : List Byte) (raw : List Byte) (own : Option Blk) (twin : Option (Nat × Blk)) (s : State),
    (isAwake s = true) ∧ ((ctxOf s c).restore = some R) ∧ (R.left = e :: rest) ∧ (recordBytes R e hd = some bs) ∧ (openRecord e bs = some raw) ∧ (pay bs 3 1 = 1) ∧ (own = (ctxOf s c).tabs.find? (fun b => b.gbi == pay bs 8 4)) ∧ (twin = twinBlk s (pay bs 8 4)) ∧ ((own.any (fun b => !sidesAgree b.lat raw) || twin.any (fun e => !sidesAgree e.2.lat raw)) = false) ∧ (own.isSome = true ∨ twin.isSome = true)) ∧
  (∃ (c : Nat) (hd : List Byte) (R : Restore) (e : List Byte) (rest : List (List Byte)) (bs : List Byte) (raw : List Byte) (s : State),
    (isAwake s = true) ∧ ((ctxOf s c).restore = some R) ∧ (R.left = e :: rest) ∧ (recordBytes R e hd = some bs) ∧ (openRecord e bs = some raw) ∧ (pay bs 3 1 = 2)) ∧
  (∃ (c : Nat) (R : Restore) (s : State),
    (isAwake s = true) ∧ ((ctxOf s c).restore = some R) ∧ (R.left ≠ [])) ∧
  (∃ (c : Nat) (R : Restore) (s : State),
    (isAwake s = true) ∧ ((ctxOf s c).restore = some R) ∧ (R.left = [])) :=
  ⟨⟨ckF 3 0 0 64, [], rsR [rsH], rsH, [], rsS [rsH] [] [ckF 3 0 0 64], by decide +kernel⟩,
  ⟨1048576, 0, modCtx 0 (fun x => { x with steps := [stA blkA] }) (coC 0x31 0), by decide +kernel⟩,
  ⟨1048576, 0, [], _, coC 0x31 0, by decide +kernel, by decide +kernel, by decide +kernel, rfl, rfl, by decide +kernel, by decide +kernel⟩,
  ⟨1048576, 4096, [], zeros 4096, _, [], coC 0x31 0, by decide +kernel, by decide +kernel, by decide +kernel, rfl, rfl, by decide +kernel, flat_engRead (by decide +kernel) 6 4096 _ (Nat.zero_le _) (by decide +kernel), (by rw [show chunks 16 256 (zeros 4096) = List.replicate 256 (zeros 16) by decide +kernel]; exact noTables 256 0 _), by decide +kernel⟩,
  ⟨0, [], rsR [rsH], rsH, [], rsS [rsH] [] [], by decide +kernel⟩,
  ⟨0, [], rsR [rsE 1], rsE 1, [], zeros 128, rsS [rsE 1] [] [], by decide +kernel⟩,
  ⟨0, rsB 1, rsR [rsE 1], rsE 1, [], rsB 1, zeros 64, rsS [rsE 1] [] [], by decide +kernel, by decide +kernel, by decide +kernel, by decide +kernel, rs_open 1 (by decide), by decide +kernel⟩,
  ⟨0, rsB 3, rsR [rsE 3], rsE 3, [], rsB 3, zeros 64, 0, 8, rsS [rsE 3] [] [], by decide +kernel, by decide +kernel, by decide +kernel, by decide +kernel, rs_open 3 (by decide), by decide +kernel, by decide +kernel⟩,
  ⟨0, rsB 1, rsR [rsE 1], rsE 1, [], rsB 1, zeros 64, some blkA, none, rsS [rsE 1] [blkA] [], by decide +kernel, by decide +kernel, by decide +kernel, by decide +kernel, rs_open 1 (by decide), by decide +kernel, by decide +kernel, by decide +kernel, by decide +kernel⟩,
  ⟨0, rsB 1, rsR [rsE 1], rsE 1, [], rsB 1, zeros 64, some blkZ, none, rsS [rsE 1] [blkZ] [], by decide +kernel, by decide +kernel, by decide +kernel, by decide +kernel, rs_open 1 (by decide), by decide +kernel, by decide +kernel, by decide +kernel, by decide +kernel, by decide +kernel⟩,
  ⟨0, rsB 2, rsR [rsE 2], rsE 2, [], rsB 2, zeros 64, rsS [rsE 2] [] [], by decide +kernel, by decide +kernel, by decide +kernel, by decide +kernel, rs_open 2 (by decide), by decide +kernel⟩,
  ⟨0, rsR [rsH], rsS [rsH] [] [], by decide +kernel⟩,
  ⟨0, rsR [], rsS [] [] [], by decide +kernel⟩⟩

theorem test_witness_TheJournal :
  (∃ (c src hclk : Nat) (r : JrnRec) (rest : List JrnRec) (s : State),
    (isAwake s = true) ∧ (c ≠ 16) ∧ (takeFirst (fun r : JrnRec => r.src == src) (ctxOf s c).jwait = some (r, rest)) ∧ (jrnOn s c = false)) ∧
  (∃ (c src hclk : Nat) (r : JrnRec) (rest : List JrnRec) (s : State),
    (isAwake s = true) ∧ (c ≠ 16) ∧ (takeFirst (fun r : JrnRec => r.src == src) (ctxOf s c).jwait = some (r, rest)) ∧ (jrnOn s c = true) ∧ (jrnReady s c r = false)) ∧
  (∃ (c src hclk : Nat) (r : JrnRec) (rest : List JrnRec) (s : State),
    (isAwake s = true) ∧ (c ≠ 16) ∧ (takeFirst (fun r : JrnRec => r.src == src) (ctxOf s c).jwait = some (r, rest)) ∧ (jrnOn s c = true) ∧ (jrnReady s c r = true) ∧ (16 + pad16 r.payload.length ≤ jrnRest s c)) ∧
  (∃ (c src hclk : Nat) (r : JrnRec) (rest : List JrnRec) (s : State),
    (isAwake s = true) ∧ (c ≠ 16) ∧ (takeFirst (fun r : JrnRec => r.src == src) (ctxOf s c).jwait = some (r, rest)) ∧ (jrnOn s c = true) ∧ (jrnReady s c r = true) ∧ (¬ 16 + pad16 r.payload.length ≤ jrnRest s c) ∧ (16 ≤ jrnRest s c) ∧ (jrnRest s c % 16 = 0)) ∧
  (∃ (src hclk : Nat) (r : JrnRec) (cs : List Nat) (rest : List (JrnRec × List Nat)) (s : State),
    (isAwake s = true) ∧ (takeFirst (fun e : JrnRec × List Nat => e.1.src == src) s.jwide = some ((r, cs), rest)) ∧ ((cs.filter (jrnOn s)).all (fun c => jrnReady s c r) = true)) ∧
  (∃ (src hclk : Nat) (r : JrnRec) (cs : List Nat) (rest : List (JrnRec × List Nat)) (s : State),
    (isAwake s = true) ∧ (takeFirst (fun e : JrnRec × List Nat => e.1.src == src) s.jwide = some ((r, cs), rest)) ∧ ((cs.filter (jrnOn s)).all (fun c => jrnReady s c r) = false)) ∧
  (∃ (c : Nat) (s : State),
    (isAwake s = true) ∧ (getFk s HOSTIF_JRN_CFG_DRAIN 0 c = 0 ∨ getFk s HOSTIF_JRN_WR 0 c = getFk s HOSTIF_JRN_DR 0 c ∨ hubGranted s 537 (c + 16) 0 = false)) ∧
  (∃ (c dr a n size base : Nat) (hd : List Byte) (s : State),
    (isAwake s = true) ∧ (dr = getFk s HOSTIF_JRN_DR 0 c) ∧ (a = jrnBase s c + dr % jrnSize s c) ∧ (size = 2 ^ getFk s HOSTIF_JRN_HOST_CFG_LOG2_SIZE 0 c) ∧ (base = getFk s HOSTIF_JRN_HOST_LO 0 c + two32 * getFk s HOSTIF_JRN_HOST_HI 0 c) ∧ (getFk s HOSTIF_JRN_CFG_DRAIN 0 c ≠ 0) ∧ (getFk s HOSTIF_JRN_WR 0 c ≠ dr) ∧ (engRead 0 6 a 16 s = (.data hd, s)) ∧ (n = 16 + pad16 (pay hd 2 2)) ∧ (size < (dr + two32 - getFk s HOSTIF_JRN_HOST_TAIL 0 c) % two32 + n) ∧ (hubGranted s 537 (c + 16) 0 = true)) ∧
  (∃ (c dr a n size base : Nat) (hd bs : List Byte) (s : State),
    (isAwake s = true) ∧ (dr = getFk s HOSTIF_JRN_DR 0 c) ∧ (a = jrnBase s c + dr % jrnSize s c) ∧ (size = 2 ^ getFk s HOSTIF_JRN_HOST_CFG_LOG2_SIZE 0 c) ∧ (base = getFk s HOSTIF_JRN_HOST_LO 0 c + two32 * getFk s HOSTIF_JRN_HOST_HI 0 c) ∧ (getFk s HOSTIF_JRN_CFG_DRAIN 0 c ≠ 0) ∧ (getFk s HOSTIF_JRN_WR 0 c ≠ dr) ∧ (engRead 0 6 a 16 s = (.data hd, s)) ∧ (n = 16 + pad16 (pay hd 2 2)) ∧ (¬ size < (dr + two32 - getFk s HOSTIF_JRN_HOST_TAIL 0 c) % two32 + n) ∧ (engRead 0 6 a n s = (.data bs, s)) ∧ (hubGranted s 537 (c + 16) 0 = true)) :=
  ⟨⟨0, 3072, 5, jrR, [], setFk HOSTIF_JRN_CFG_EN 0 0 0 (jrS 0 0), by decide +kernel⟩,
  ⟨0, 3072, 5, jrR, [], jrS 65536 0, by decide +kernel⟩,
  ⟨0, 3072, 5, jrR, [], jrS 0 0, by decide +kernel⟩,
  ⟨0, 3072, 5, jrR, [], jrS 65520 65520, by decide +kernel⟩,
  ⟨3072, 5, jrR, [0], [], jrS 0 0, by decide +kernel⟩,
  ⟨3072, 5, jrR, [0], [], jrS 65536 0, by decide +kernel⟩,
  ⟨0, jrS 0 0, by decide +kernel⟩,
  ⟨0, 0, 0, 16, 65536, 0, zeros 16, setFk HOSTIF_JRN_HOST_TAIL 0 0 16 (jrS 32 0), by decide +kernel⟩,
  ⟨0, 0, 0, 16, 65536, 0, zeros 16, zeros 16, jrS 32 0, by decide +kernel⟩⟩

theorem test_witness_HostCommandsDone :
  (∃ (h k : Nat) (s : State),
    (stopped s = false) ∧ (cmdReady s h 0x02 = true) ∧ (k = argOf (entryOf s h) 0) ∧ (hCtx k ≠ hCtx h)) ∧
  (∃ (h k : Nat) (s : State),
    (stopped s = false) ∧ (cmdReady s h 0x02 = true) ∧ (k = argOf (entryOf s h) 0) ∧ (hCtx k = hCtx h) ∧ (handleLive s k = false)) ∧
  (∃ (h k : Nat) (s : State),
    (stopped s = false) ∧ (cmdReady s h 0x02 = true) ∧ (k = argOf (entryOf s h) 0) ∧ (hCtx k = hCtx h) ∧ (handleLive s k = true) ∧ (((slotOf s (hCtx k) (hSlot k)).started && !(slotOf s (hCtx k) (hSlot k)).waitTurn) = true)) ∧
  (∃ (h k : Nat) (s : State),
    (stopped s = false) ∧ (cmdReady s h 0x02 = true) ∧ (k = argOf (entryOf s h) 0) ∧ (hCtx k = hCtx h) ∧ (handleLive s k = true) ∧ (((slotOf s (hCtx k) (hSlot k)).started && !(slotOf s (hCtx k) (hSlot k)).waitTurn) = false)) ∧
  (∃ (h : Nat) (e hd data : List Byte) (s : State),
    (isAwake s = true) ∧ (cmdReady s h 0x20 = true) ∧ (e = entryOf s h) ∧ (bits (argOf e 2) 32 2 = 0) ∧ (data = (hd ++ zeros (argOf e 2 % two32)).take (argOf e 2 % two32)) ∧ (firstMiss s 0 (argOf e 1) data.length = none) ∧ (hubGranted s 537 (hCtx h) h = true)) ∧
  (∃ (h : Nat) (e hd data : List Byte) (l : Lookup) (s : State),
    (isAwake s = true) ∧ (cmdReady s h 0x20 = true) ∧ (e = entryOf s h) ∧ (bits (argOf e 2) 32 2 = 0) ∧ (data = (hd ++ zeros (argOf e 2 % two32)).take (argOf e 2 % two32)) ∧ (firstMiss s 0 (argOf e 1) data.length = some l) ∧ (hubGranted s 537 (hCtx h) h = true)) ∧
  (∃ (h : Nat) (e hd data : List Byte) (s : State),
    (isAwake s = true) ∧ (cmdReady s h 0x20 = true) ∧ (e = entryOf s h) ∧ (bits (argOf e 2) 32 2 = 1) ∧ (engRead 0 5 (argOf e 0) (argOf e 2 % two32) s = (.data data, s)) ∧ (hubGranted s 537 (hCtx h) h = true) ∧ (noWeak s = true)) ∧
  (∃ (h : Nat) (e hd data : List Byte) (s : State),
    (isAwake s = true) ∧ (cmdReady s h 0x20 = true) ∧ (e = entryOf s h) ∧ (bits (argOf e 2) 32 2 = 2) ∧ (engRead 0 5 (argOf e 0) (argOf e 2 % two32) s = (.data data, s)) ∧ (firstMiss s 0 (argOf e 1) data.length = none) ∧ (hubGranted s 537 (hCtx h) h = true) ∧ (noWeak s = true)) ∧
  (∃ (h : Nat) (e hd data : List Byte) (l : Lookup) (s : State),
    (isAwake s = true) ∧ (cmdReady s h 0x20 = true) ∧ (e = entryOf s h) ∧ (bits (argOf e 2) 32 2 = 2) ∧ (engRead 0 5 (argOf e 0) (argOf e 2 % two32) s = (.data data, s)) ∧ (firstMiss s 0 (argOf e 1) data.length = some l) ∧ (hubGranted s 537 (hCtx h) h = true) ∧ (noWeak s = true)) ∧
  (∃ (h : Nat) (bs : List Byte) (s : State),
    (isAwake s = true) ∧ (cmdReady s h 0x12 = true) ∧ (engRead 0 5 (argOf (entryOf s h) 0) 2048 s = (.data bs, s)) ∧ (noWeak s = true)) ∧
  (∃ (h : Nat) (s : State),
    (isAwake s = true) ∧ (cmdReady s h 0x21 = true) ∧ (stepIsOpen s (hCtx h) = true) ∧ (hubGranted s 537 (hCtx h) h = true)) ∧
  (∃ (h : Nat) (bs : List Byte) (s : State),
    (isAwake s = true) ∧ (cmdReady s h 0x21 = true) ∧ (stepIsOpen s (hCtx h) = false) ∧ (exportBlks (argOf (entryOf s h) 2 % 8) ((ctxOf s (hCtx h)).tabs.foldr insGbi []) s = (.ok bs, s)) ∧ (hubGranted s 537 (hCtx h) h = true) ∧ (noWeak s = true)) :=
  ⟨⟨1048576, 1114112, hcC 2 1114112 0 0 0, by decide +kernel⟩,
  ⟨1048576, 1048577, hcC 2 1048577 0 0 0, by decide +kernel⟩,
  ⟨1048576, 1048576, hcC 2 1048576 0 0 0, by decide +kernel⟩,
  ⟨1048576, 1048577, modSlot 0 1 (fun _ => { inUse := true, gen := 1 }) (hcC 2 1048577 0 0 0), by decide +kernel⟩,
  ⟨1048576, _, zeros 64, _, hcC 0x20 0 128 64 0, by decide +kernel, by decide +kernel, rfl, by decide +kernel, rfl, by decide +kernel, by decide +kernel⟩,
  ⟨1048576, _, zeros 64, _, .miss 0, hcC 0x20 0 (2 ^ 30) 64 0, by decide +kernel, by decide +kernel, rfl, by decide +kernel, rfl, by decide +kernel, by decide +kernel⟩,
  ⟨1048576, _, zeros 64, _, hcC 0x20 64 128 (64 + 1 * 2 ^ 32) 0, by decide +kernel, by decide +kernel, rfl, by decide +kernel, (by rw [show argOf (entryOf (hcC 0x20 64 128 (64 + 1 * 2 ^ 32) 0) 1048576) 2 % two32 = 64 by decide +kernel]; exact flat_engRead (by decide +kernel) 5 64 _ (Nat.zero_le _) (by decide +kernel)), by decide +kernel, by decide +kernel⟩,
  ⟨1048576, _, zeros 64, _, hcC 0x20 64 128 (64 + 2 * 2 ^ 32) 0, by decide +kernel, by decide +kernel, rfl, by decide +kernel, (by rw [show argOf (entryOf (hcC 0x20 64 128 (64 + 2 * 2 ^ 32) 0) 1048576) 2 % two32 = 64 by decide +kernel]; exact flat_engRead (by decide +kernel) 5 64 _ (Nat.zero_le _) (by decide +kernel)), by decide +kernel, by decide +kernel, by decide +kernel⟩,
  ⟨1048576, _, zeros 64, _, .miss 0, hcC 0x20 64 (2 ^ 30) (64 + 2 * 2 ^ 32) 0, by decide +kernel, by decide +kernel, rfl, by decide +kernel, (by rw [show argOf (entryOf (hcC 0x20 64 (2 ^ 30) (64 + 2 * 2 ^ 32) 0) 1048576) 2 % two32 = 64 by decide +kernel]; exact flat_engRead (by decide +kernel) 5 64 _ (Nat.zero_le _) (by decide +kernel)), by decide +kernel, by decide +kernel, by decide +kernel⟩,
  ⟨1048576, zeros 2048, hcC 0x12 64 0 0 0, by decide +kernel, by decide +kernel, flat_engRead (by decide +kernel) 5 2048 _ (Nat.zero_le _) (by decide +kernel), by decide +kernel⟩,
  ⟨1048576, modCtx 0 (fun x => { x with steps := [stA blkA] }) (hcC 0x21 0 64 0 0), by decide +kernel⟩,
  ⟨1048576, _, hcX, by decide +kernel, by decide +kernel, by decide +kernel, (by rw [show argOf (entryOf hcX 1048576) 2 % 8 = 0 by decide +kernel, show (ctxOf hcX (hCtx 1048576)).tabs.foldr insGbi [] = [blkZ] by decide +kernel]; exact export_blkZ _), by decide +kernel, by decide +kernel⟩⟩

theorem test_witness_StepsOpenAndClose :
  (∃ (h : Nat) (s : State),
    (isAwake s = true) ∧ (stepWaiting s h = true)) ∧
  (∃ (h : Nat) (s : State),
    (isAwake s = true) ∧ (cmdReady s h 0x11 = true) ∧ (stepWaiting s h = false) ∧ (mayOpen s (hCtx h) = false)) ∧
  (∃ (h : Nat) (e raw : List Byte) (ts : Tables) (ok : Bool) (z w : State) (s : State),
    (isAwake s = true) ∧ (cmdReady s h 0x11 = true) ∧ (stepWaiting s h = false) ∧ (mayOpen s (hCtx h) = true) ∧ (stepWraps s h = false) ∧ (e = entryOf s h) ∧ (z = modSlot (hCtx h) (hSlot h) (fun x => { x with running := true }) s) ∧ (Judges h e raw ts ok z w) ∧ ((stepRecBad raw || stepNumBad s (hCtx h) raw) = true)) ∧
  (∃ (h : Nat) (e raw : List Byte) (ts : Tables) (ok : Bool) (z w : State) (s : State),
    (isAwake s = true) ∧ (cmdReady s h 0x11 = true) ∧ (stepWaiting s h = false) ∧ (mayOpen s (hCtx h) = true) ∧ (stepWraps s h = false) ∧ (e = entryOf s h) ∧ (z = modSlot (hCtx h) (hSlot h) (fun x => { x with running := true }) s) ∧ (Judges h e raw ts ok z w) ∧ ((stepRecBad raw || stepNumBad s (hCtx h) raw) = false) ∧ (ok = false)) ∧
  (∃ (h : Nat) (e : List Byte) (o : Opening) (z v : State) (s : State),
    (isAwake s = true) ∧ (cmdReady s h 0x11 = true) ∧ (stepWaiting s h = false) ∧ (mayOpen s (hCtx h) = true) ∧ (stepWraps s h = false) ∧ (e = entryOf s h) ∧ (z = modSlot (hCtx h) (hSlot h) (fun x => { x with running := true }) s) ∧ (Opens h e o z v)) ∧
  (∃ (h : Nat) (e raw : List Byte) (ts : Tables) (z w v : State) (s : State),
    (isAwake s = true) ∧ (cmdReady s h 0x11 = true) ∧ (stepWaiting s h = false) ∧ (mayOpen s (hCtx h) = true) ∧ (stepWraps s h = false) ∧ (e = entryOf s h) ∧ (z = modSlot (hCtx h) (hSlot h) (fun x => { x with running := true }) s) ∧ (Judges h e raw ts true z w) ∧ ((stepRecBad raw || stepNumBad w (hCtx h) raw) = false) ∧ ((ctxOf w (hCtx h)).seed.isSome = true) ∧ (replayOn w (hCtx h) = true) ∧ (replayFor (hCtx h) (pay raw 0 4) w = (.missing, v))) ∧
  (∃ (h : Nat) (s : State),
    (isAwake s = true) ∧ (stepWaiting s h = false ∨ mayOpen s (hCtx h) = false)) ∧
  (∃ (h : Nat) (e : List Byte) (o : Opening) (z v : State) (s : State),
    (isAwake s = true) ∧ (stepWaiting s h = true) ∧ (mayOpen s (hCtx h) = true) ∧ (stepWraps s h = false) ∧ (e = entryOf s h) ∧ (z = modSlot (hCtx h) (hSlot h) (fun x => { x with running := true }) (setTurn h false s)) ∧ (Opens h e o z v)) ∧
  (∃ (h : Nat) (s : State),
    (isAwake s = true) ∧ (replayOn s (hCtx h) = false)) ∧
  (∃ (h : Nat) (s : State),
    (isAwake s = true) ∧ (stepWaiting s h = false ∨ mayOpen s (hCtx h) = false)) ∧
  (∃ (h : Nat) (e : List Byte) (o : Opening) (z v : State) (s : State),
    (isAwake s = true) ∧ (replayOn s (hCtx h) = true) ∧ (stepWaiting s h = true) ∧ (mayOpen s (hCtx h) = true) ∧ (stepWraps s h = false) ∧ (e = entryOf s h) ∧ (z = modSlot (hCtx h) (hSlot h) (fun x => { x with running := true }) (setTurn h false s)) ∧ (Opens h e o z v)) ∧
  (∃ (c n : Nat) (st : Step) (s : State),
    (isAwake s = true) ∧ (stepOf s c n = some st) ∧ (stepCloses s c st = false)) ∧
  (∃ (c n : Nat) (st : Step) (s : State),
    (isAwake s = true) ∧ (stepOf s c n = some st) ∧ (stepCloses s c st = true)) :=
  ⟨⟨1048576, stO true stRaw, by decide +kernel⟩,
  ⟨1048576, modCtx 0 (fun x => { x with steps := [stA blkA, stA blkA] }) (stO false stRaw), by decide +kernel⟩,
  ⟨1048576, entryOf (stO false []) 1048576, zeros 16, [], true, _, stRun (stO false []), stO false [], by decide +kernel, by decide +kernel, by decide +kernel, by decide +kernel, by decide +kernel, by decide +kernel, rfl, st_judges (by decide +kernel) (by decide +kernel) (by decide +kernel) (by decide +kernel), by decide +kernel⟩,
  ⟨1048576, entryOf (stO false []) 1048576, stRaw, [], false, _, checkTwin.twinErr 7 0 (stRun stT), stT, by decide +kernel, by decide +kernel, by decide +kernel, by decide +kernel, by decide +kernel, by decide +kernel, rfl, st_table (by decide +kernel) (by decide +kernel) (by decide +kernel) (by decide +kernel) (by decide +kernel), by decide +kernel, rfl⟩,
  ⟨1048576, entryOf (stO false []) 1048576, stOpn, _, stRun (stO false stRaw), stO false stRaw, by decide +kernel, by decide +kernel, by decide +kernel, by decide +kernel, by decide +kernel, by decide +kernel, rfl, st_opens (by decide +kernel) (by decide +kernel) (by decide +kernel) (by decide +kernel) (by decide +kernel) (by decide +kernel) (by decide +kernel)⟩,
  ⟨1048576, entryOf (stO false []) 1048576, stRaw, [], _, stRun stM, stRun stM, stM, by decide +kernel, by decide +kernel, by decide +kernel, by decide +kernel, by decide +kernel, by decide +kernel, rfl, st_judges (by decide +kernel) (by decide +kernel) (by decide +kernel) (by decide +kernel), by decide +kernel, by decide +kernel, by decide +kernel, by decide +kernel⟩,
  ⟨1048576, stO false stRaw, by decide +kernel⟩,
  ⟨1048576, entryOf (stO false []) 1048576, stOpn, _, stRun (setTurn 1048576 false (stO true stRaw)), stO true stRaw, by decide +kernel, by decide +kernel, by decide +kernel, by decide +kernel, by decide +kernel, rfl, st_opens (by decide +kernel) (by decide +kernel) (by decide +kernel) (by decide +kernel) (by decide +kernel) (by decide +kernel) (by decide +kernel)⟩,
  ⟨1048576, stO true stRaw, by decide +kernel⟩,
  ⟨1048576, stP false, by decide +kernel⟩,
  ⟨1048576, entryOf (stO false []) 1048576, stOpn, _, stRun (setTurn 1048576 false (stP true)), stP true, by decide +kernel, by decide +kernel, by decide +kernel, by decide +kernel, by decide +kernel, by decide +kernel, rfl, st_opens (by decide +kernel) (by decide +kernel) (by decide +kernel) (by decide +kernel) (by decide +kernel) (by decide +kernel) (by decide +kernel)⟩,
  ⟨0, 7, stA blkA, stC [blkA], by decide +kernel⟩,
  ⟨0, 7, { step := 7, handle := 1048576, blks := [] }, stC [], by decide +kernel⟩⟩

theorem test_witness_StepRunsFront : ∃ s : State, s.pending = [] := ⟨State.reset, rfl⟩

theorem test_witness_StepKeepsMemories : ∃ s t : State, s.memWf ∧ step s = .next t :=
  ⟨State.reset, State.reset, ⟨rfl, rfl, rfl⟩, rfl⟩

theorem test_witness_TensorFollowsCluster : ∃ s t : State, (∀ rg < 32, domOn s rg = true → domOn s (32 + rg) = true) ∧ step s = .next t :=
  ⟨State.reset, State.reset, by decide +kernel, rfl⟩

theorem test_witness_CommandsLeaveQueueAndOutputs : ∃ (c : Instr) (s t : State), exec c s = .next t :=
  ⟨.coldReset, State.reset, _, rfl⟩

theorem test_witness_NoCommandIsRefused : ∃ (c : Instr) (s : State) (f : Fault), exec c s = .fault f :=
  ⟨.stepOpenDeferred 1048576, wrapS, .stepNumberWrap, by
    show (if stepWaiting wrapS 1048576 && stepWraps wrapS 1048576 then _ else .next (awake wrapS (stepRetry 1048576 wrapS))) = _
    exact if_pos (by decide +kernel)⟩

theorem test_witness_StepNumberWrapFaults :
    (∃ (h : Nat) (s : State), stepPending s h = true ∧ stepWaiting s h = false ∧ stepWraps s h = true) ∧
    (∃ (h : Nat) (s : State), stepWaiting s h = true ∧ stepWraps s h = true) ∧
    (∃ (h : Nat) (s : State), replayOn s (hCtx h) = true ∧ stepWaiting s h = true ∧ stepWraps s h = true) :=
  ⟨⟨1048576, wrapS0, by decide +kernel⟩, ⟨1048576, wrapS, by decide +kernel⟩, ⟨1048576, setFk HOSTIF_RPL_CFG_EN 0 0 1 wrapS, by decide +kernel⟩⟩

theorem test_witness_OnlyTheseWriteLastingState : ∃ (c : Instr) (s t : State), exec c s = .next t :=
  ⟨.nop 0, State.reset, _, rfl⟩

theorem test_witness_OnlyTheseReachHostAndPins : ∃ (c : Instr) (s t : State), exec c s = .next t :=
  ⟨.nop 0, State.reset, _, rfl⟩

theorem test_witness_StoppedModuleStandsStill :
    (∃ s : State, stopped s = true) ∧ (∃ s : State, isAwake s = false) :=
  ⟨⟨setF BRKW_STAT_FAULT 0 1 State.reset, by decide +kernel⟩, ⟨setF PWR_STAT_STATE 0 1 State.reset, by decide +kernel⟩⟩

theorem test_witness_EventBeatsClear :
    (∃ (r : Requester) (a v raised t i b : Nat) (s : State), a % 4 = 0 ∧ target s r a = some (t, i, 0x18) ∧ gate s r t i 0x18 = .pass ∧
      t ≠ 11 ∧ (evtMask t).testBit b = true ∧ v.testBit b = true ∧ raised.testBit b = true) ∧
    (∃ (r : Requester) (a v raised i b : Nat) (s : State), a % 4 = 0 ∧ target s r a = some (11, i, 0x18) ∧ gate s r 11 i 0x18 = .pass ∧
      (∀ c, r ≠ .vf c) ∧ b < 16 ∧ (evtMask 11).testBit b = true ∧ v.testBit b = true ∧ raised.testBit b = true) ∧
    (∃ (r : Requester) (a v raised i b c : Nat) (s : State), a % 4 = 0 ∧ target s r a = some (11, i, 0x18) ∧ gate s r 11 i 0x18 = .pass ∧
      (∀ d, r ≠ .vf d) ∧ c < 16 ∧ b < 4 ∧ v.testBit (16 + b) = true ∧ raised.testBit (16 + 4 * c + b) = true) ∧
    (∃ (a v raised i b c : Nat) (s : State), a % 4 = 0 ∧ target s (.vf c) a = some (11, i, 0x18) ∧ gate s (.vf c) 11 i 0x18 = .pass ∧
      b < 4 ∧ v.testBit (16 + b) = true ∧ raised.testBit (16 + b) = true) ∧
    (∃ (r : Requester) (a v raised i b c : Nat) (s : State), a % 4 = 0 ∧ target s r a = some (11, i, 0xC00 + 4 * c) ∧ c < 16 ∧
      gate s r 11 i (0xC00 + 4 * c) = .pass ∧ b < 4 ∧ v.testBit b = true ∧ raised.testBit b = true) :=
  ⟨⟨.pf, 0x5C1018, 1, 1, 13, 0, 0, State.reset, by decide +kernel⟩,
   ⟨.pf, 0x5B0018, 1, 1, 0, 0, State.reset, by decide +kernel, by decide +kernel, by decide +kernel, fun _ => Requester.noConfusion, by decide +kernel⟩,
   ⟨.pf, 0x5B0018, 0x80000, 2 ^ 31, 0, 3, 3, State.reset, by decide +kernel, by decide +kernel, by decide +kernel, fun _ => Requester.noConfusion, by decide +kernel⟩,
   ⟨0x1018, 0x80000, 0x80000, 0, 3, 1, { State.reset with vfEnable := true, numVfs := 1 }, by decide +kernel⟩,
   ⟨.pf, 0x5B0C3C, 8, 8, 0, 3, 15, State.reset, by decide +kernel⟩⟩

theorem test_witness_CounterReadKeepsIncrement : (∃ (r : Requester) (a inc : Nat) (t i o : Nat) (s : State),
    (target s r a = some (t, i, o)) ∧ (isLo t o = false) ∧ (s.hiLatch.get 0 (latchKey r t i o) = 0) ∧ (domOn s (pageDomain t i) = true)) :=
  ⟨.pf, 0x540408, 0, 5, 0, 0x408, State.reset, by decide +kernel⟩

theorem test_witness_OffPageReadsZero : ∃ (s : State) (t i : Nat), domOn s (pageDomain t i) = false :=
  ⟨setFk PWR_DOM_STAT 0 0 0 State.reset, 0, 0, by decide +kernel⟩

end Sys2Proof.Tests
end

section
/-! Proofs of the statements of 00_scope.md. A clause `Does` is the command's equation, its frame (`<command>_keeps` at the mask of the
clause's parts) and its effect (`<clause>_effect`). -/

namespace Sys2Proof.Machine

/-! ## Clauses `Does` from frames and effects -/

/-- A command that answers `t`, moves no part but those of `w` and meets `P` does what a clause says. -/
theorem does_of_keeps {c : Instr} {s t : State} {w : List Part} {P : State → Prop} (he : exec c s = .next t)
    (hk : Keeps (maskOf w) s t) (hp : P t) : Does c s w P :=
  ⟨t, he, hk.sameBut_of (Nat.and_self _), hp⟩

/-- A mask within the registers and the parts `w` is one of the frame that lists both. -/
theorem has_everyReg_append {m : Nat} {w : List Part}
    (h : m &&& (0x1ffffffffffffffffffffffffffffffffffffffffffffffffffffffffffffffffffffffffffffffffffffffffffffffffffffffffffffffffffffffffffffff000000000000 ||| maskOf w) = m) :
    Has m (maskOf (everyReg ++ w)) := by
  rwa [Has, maskOf_append, maskOf_everyReg]

theorem has_of_land {m n : Nat} (h : m &&& n = m) : Has m n := h

/-! ## Register accesses -/

/-- Settles O1: each clause from the frame and the effect of its command. -/
theorem registerAccesses : Obligations.RegisterAccesses := by
  unfold Obligations.RegisterAccesses
  refine ⟨?regWrite, ?evtPendClear, ?evtForce, ?errInfoClear, ?loReadLatch⟩
  case regWrite =>
    intro r a v t i o s ha ht hg hl ho hr
    exact does_of_keeps rfl (regWrite_keeps (has_everyReg_append rfl) r a v 4 (Keeps.refl _ s))
      (regWrite_effect r a v t i o s ha ht hg hl ho hr)
  case evtPendClear =>
    intro r a v raised t i s ha ht h11 hg
    exact does_of_keeps rfl (evtPendClear_keeps (has_of_land (by decide +kernel)) r a v raised (Keeps.refl _ s))
      (evtPendClear_effect r a v raised t i s ha ht h11 hg)
  case evtForce =>
    intro r a v t i s ha ht h11 hg
    exact does_of_keeps rfl (evtForce_keeps (has_of_land (by decide +kernel)) r a v (Keeps.refl _ s))
      (evtForce_effect r a v t i s ha ht h11 hg)
  case errInfoClear =>
    intro r a v t i o s ha ht hg he
    exact does_of_keeps rfl (errInfoClear_keeps (has_everyReg_append rfl) r a v (Keeps.refl _ s))
      (errInfoClear_effect r a v t i o s ha ht hg he)
  case loReadLatch =>
    intro r a t i o s ht hlo
    exact does_of_keeps rfl (loReadLatch_keeps (has_everyReg_append rfl) r a (Keeps.refl _ s))
      (loReadLatch_effect r a t i o s ht hlo)

/-- Settles O37: the read answers the word as it stood, then clears its RC fields or leaves them at 1. -/
theorem counterReadKeepsIncrement : Obligations.CounterReadKeepsIncrement := by
  unfold Obligations.CounterReadKeepsIncrement
  intro r a inc t i o s ht hlo hlatch hon
  exact does_of_keeps rfl (rcRead_keeps (has_everyReg_append rfl) r a inc (Keeps.refl _ s))
    (rcRead_effect r a inc t i o s ht hlo hlatch hon)

/-! ## Resets -/

/-- Settles O17: each clause from the frame and the effect of its reset. -/
theorem resetsOfTheModule : Obligations.ResetsOfTheModule := by
  unfold Obligations.ResetsOfTheModule
  refine ⟨?coldReset, ?platformReset, ?railResetTrip, ?released, ?releasedHeld, ?perstRelease, ?coldResetRelease⟩
  case coldReset =>
    intro s hr ht
    exact does_of_keeps rfl (coldReset_keeps (has_everyReg_append rfl) (Keeps.refl _ s)) (coldReset_effect s hr ht)
  case platformReset =>
    intro s hr ht
    exact does_of_keeps rfl (platformReset_keeps (has_everyReg_append rfl) (Keeps.refl _ s)) (platformReset_effect s hr ht)
  case railResetTrip =>
    intro r mv l s hl hmv hr ht hf
    exact does_of_keeps rfl (railResetTrip_keeps (has_everyReg_append rfl) r mv (Keeps.refl _ s))
      (railResetTrip_effect r mv l s hl hmv hr ht hf)
  case released =>
    intro s hh
    exact does_of_keeps rfl (faultResetRelease_keeps (has_everyReg_append rfl) (Keeps.refl _ s))
      (faultResetRelease_effect s hh)
  case releasedHeld =>
    intro s hh
    exact does_of_keeps rfl (faultResetRelease_keeps (has_everyReg_append rfl) (Keeps.refl _ s))
      (faultResetReleaseHeld_effect s hh)
  case perstRelease =>
    intro s hr
    exact does_of_keeps rfl (perstRelease_keeps (has_of_land (by decide +kernel)) (Keeps.refl _ s)) (perstRelease_effect s hr)
  case coldResetRelease =>
    intro ms pos gaddr s hms hb hr
    exact does_of_keeps rfl (coldResetRelease_keeps (has_of_land (by decide +kernel)) ms pos gaddr (Keeps.refl _ s))
      (coldResetRelease_effect ms pos gaddr s hms hb hr)

/-- Every reset value of the tables is a 32-bit word, on the optical ports too. -/
theorem fldsOf_reset_lt : ∀ t < 20, ∀ f ∈ fldsOf t, f.rst < 2 ^ 32 ∧ f.rstGlobal.getD 0 < 2 ^ 32 := by decide +kernel

theorem fldReset_lt {t : Nat} (ht : t < 20) {f : Fld} (hf : f ∈ fldsOf t) (i : Nat) : fldReset f i < 2 ^ 32 := by
  obtain ⟨hrst, hglobal⟩ := fldsOf_reset_lt t ht f hf
  unfold fldReset
  split
  · next v hv =>
    rw [hv] at hglobal
    split
    · exact hglobal
    · exact hrst
  · exact hrst

/-- After reset no register cell is listed, so each reads its reset value. -/
theorem getFk_reset (f : Fld) (i k : Nat) : getFk State.reset f i k = fldReset f i % 2 ^ 32 := BitVec.toNat_ofNat ..

/-- Settles O26: nothing is listed after reset, and the reset values fit their cells. -/
theorem resetLeavesResetValues : Obligations.ResetLeavesResetValues := by
  unfold Obligations.ResetLeavesResetValues
  refine ⟨rfl, rfl, rfl, ⟨rfl, rfl, rfl⟩, rfl, rfl, rfl, rfl, fun t ht f hf i k => ?_⟩
  rw [getFk_reset, Nat.mod_eq_of_lt (fldReset_lt ht hf i)]

/-! ## The wrap of the step number (R9, log entry 96) -/

theorem exec_stepOpen (h : Nat) (s : State) : exec (.stepOpen h) s =
    if stepPending s h && !stepWaiting s h && stepWraps s h then .fault .stepNumberWrap else .next (awake s (stepOpen h s)) := rfl

theorem exec_stepOpenDeferred (h : Nat) (s : State) : exec (.stepOpenDeferred h) s =
    if stepWaiting s h && stepWraps s h then .fault .stepNumberWrap else .next (awake s (stepRetry h s)) := rfl

theorem exec_replayRead (h : Nat) (s : State) : exec (.replayRead h) s =
    if replayOn s (hCtx h) && stepWaiting s h && stepWraps s h then .fault .stepNumberWrap else .next (awake s (replayRead h s)) := rfl

/-- Settles O32: the three rows test the wrap before they run. -/
theorem stepNumberWrapFaults : Obligations.StepNumberWrapFaults := by
  unfold Obligations.StepNumberWrapFaults
  refine ⟨fun h s hp hw hwrap => ?_, fun h s hw hwrap => ?_, fun h s hr hw hwrap => ?_⟩
  · rw [exec_stepOpen, hp, hw, hwrap]; rfl
  · rw [exec_stepOpenDeferred, hw, hwrap]; rfl
  · rw [exec_replayRead, hr, hw, hwrap]; rfl

/-- The rows that open a step. -/
def opensStep (c : Instr) : Prop := ∃ h, c = .stepOpen h ∨ c = .stepOpenDeferred h ∨ c = .replayRead h

/-- A row that tests the wrap answers a next state or that fault. -/
theorem outcome_of_wrap_test {c : Instr} {s u : State} {wraps : Bool} (hc : opensStep c)
    (he : exec c s = if wraps then .fault .stepNumberWrap else .next u) :
    (∃ t, exec c s = .next t) ∨ exec c s = .fault .stepNumberWrap ∧ opensStep c := by
  cases wraps with
  | true => exact .inr ⟨he, hc⟩
  | false => exact .inl ⟨u, he⟩

/-- Every row answers a next state, but for the rows that open a step where its number would wrap. -/
theorem exec_next_or_wrap (c : Instr) (s : State) :
    (∃ t, exec c s = .next t) ∨ exec c s = .fault .stepNumberWrap ∧ opensStep c := by
  cases c with
  | stepOpen h => exact outcome_of_wrap_test ⟨h, .inl rfl⟩ (exec_stepOpen h s)
  | stepOpenDeferred h => exact outcome_of_wrap_test ⟨h, .inr (.inl rfl)⟩ (exec_stepOpenDeferred h s)
  | replayRead h => exact outcome_of_wrap_test ⟨h, .inr (.inr rfl)⟩ (exec_replayRead h s)
  | _ => exact .inl ⟨_, rfl⟩

/-- Settles O31, from the two outcomes that a row can have. -/
theorem noCommandIsRefused : Obligations.NoCommandIsRefused := by
  unfold Obligations.NoCommandIsRefused
  refine ⟨fun c s r hr => ?_, fun c s f hf => ?_⟩
  · obtain ⟨t, ht⟩ | ⟨hwrap, -⟩ := exec_next_or_wrap c s
    · rw [ht] at hr; cases hr
    · rw [hwrap] at hr; cases hr
  · obtain ⟨t, ht⟩ | ⟨hwrap, hopens⟩ := exec_next_or_wrap c s
    · rw [ht] at hf; cases hf
    · rw [hwrap] at hf; cases hf
      exact ⟨rfl, hopens⟩

/-! ## Events in the hclk of a clearing write (R14) -/

theorem evtMask_lt (t : Nat) : evtMask t < 2 ^ 32 := by
  unfold evtMask
  split <;> decide

/-- The events of a page are bits of its 32-bit EVT_PEND. -/
theorem lt_of_testBit_evtMask {t b : Nat} (h : (evtMask t).testBit b = true) : b < 32 := by
  refine Nat.lt_of_not_le fun hb => ?_
  rw [Nat.testBit_lt_two_pow (Nat.lt_of_lt_of_le (evtMask_lt t) (Nat.pow_le_pow_right (by decide) hb))] at h
  cases h

theorem getF_clearPend (t i v raised : Nat) (s : State) : getF (clearPend t i v raised s) (pendFld t) i =
    ((getF s (pendFld t) i ^^^ (getF s (pendFld t) i &&& v)) ||| (raised &&& evtMask t)) % 2 ^ 32 := by
  unfold clearPend
  dsimp only
  split
  · rw [getF_signalPage]; exact getF_setF_self _ _ _ _ (Nat.le_refl 32)
  · exact getF_setF_self _ _ _ _ (Nat.le_refl 32)

theorem testBit_mod_two_pow_of_lt {x n b : Nat} (hb : b < n) (hx : x.testBit b = true) : (x % 2 ^ n).testBit b = true := by
  rw [Nat.testBit_mod_two_pow, hx, Bool.and_true, decide_eq_true hb]

theorem testBit_div_65536 {x b : Nat} (hx : x.testBit (16 + b) = true) : (x / 65536).testBit b = true := by
  rw [show 65536 = 2 ^ 16 from rfl, Nat.testBit_div_two_pow, Nat.add_comm, hx]

/-- A clearing write to EVT_PEND leaves a bit set whose event occurs in the same hclk. -/
theorem testBit_clearPend_raised {t i v raised b : Nat} {s : State} (hm : (evtMask t).testBit b = true) (hr : raised.testBit b = true) :
    (getF (clearPend t i v raised s) (pendFld t) i).testBit b = true := by
  rw [getF_clearPend]
  exact testBit_mod_two_pow_of_lt (lt_of_testBit_evtMask hm) (by simp [hm, hr])

/-- A clearing write to CTX_EVT leaves a bit set whose event occurs in the same hclk. -/
theorem testBit_clearCtxEvt_raised {c v raised b : Nat} {s : State} (hb : b < 4) (hr : raised.testBit b = true) :
    (getFk (clearCtxEvt c v raised s) HOSTIF_CTX_EVT_EVT 0 c).testBit b = true := by
  unfold clearCtxEvt
  dsimp only
  rw [getFk_setFk_self _ _ _ _ _ (by decide)]
  have hr16 : (raised % 16).testBit b = true := testBit_mod_two_pow_of_lt (n := 4) hb hr
  exact testBit_mod_two_pow_of_lt hb (by rw [Nat.testBit_or, hr16, Bool.or_true])

/-- A clearing write to the CTX_EVT bits of one context leaves those of another alone. -/
theorem getFk_clearCtxEvt_ne {c d : Nat} (hc : c < 16) (hd : d < 16) (h : c ≠ d) (v raised : Nat) (s : State) :
    getFk (clearCtxEvt c v raised s) HOSTIF_CTX_EVT_EVT 0 d = getFk s HOSTIF_CTX_EVT_EVT 0 d :=
  getFk_setFk_off _ _ _ _ _ _ _ _ (by show (0xC00 + 4 * (c % 16)) % 4096 ≠ (0xC00 + 4 * (d % 16)) % 4096; omega)

/-- A clearing write to the CTX_EVT bits of the contexts below `n` leaves a bit set whose event occurs in the same hclk. -/
theorem testBit_clearCtxEvts_raised {c v raised b : Nat} {s : State} (hb : b < 4) (hr : raised.testBit (4 * c + b) = true) :
    ∀ {n : Nat}, n ≤ 16 → c < n → (getFk (clearCtxEvts v raised n s) HOSTIF_CTX_EVT_EVT 0 c).testBit b = true
  | n + 1, hn, hc => by
    rw [clearCtxEvts]
    by_cases h : n = c
    · subst h
      exact testBit_clearCtxEvt_raised hb (testBit_mod_two_pow_of_lt hb (by rwa [Nat.testBit_div_two_pow, Nat.add_comm]))
    · rw [getFk_clearCtxEvt_ne (by omega) (by omega) h]
      exact testBit_clearCtxEvts_raised hb hr (by omega) (by omega)

theorem exec_evtPendClear_pass {r : Requester} {a t i o : Nat} {s : State} (v raised : Nat) (ha : a % 4 = 0)
    (ht : target s r a = some (t, i, o)) (hg : gate s r t i o = .pass) :
    exec (.evtPendClear r a v raised) s = .next (pendWrite r v raised t i o s) := by
  show Host.Outcome.next (evtPendClear r a v raised s) = _
  rw [evtPendClear, if_pos ha, guarded_pass ht hg]

theorem pendWrite_page {t : Nat} (h11 : t ≠ 11) (r : Requester) (v raised i : Nat) (s : State) :
    pendWrite r v raised t i 0x18 s = clearPend t i v (raised ||| stillRaised s t i) s := by
  unfold pendWrite
  rw [if_pos rfl, if_neg h11]

/-- On the HOSTIF page a function that is no VF reaches the page's own bits and the bits of every context. -/
theorem pendWrite_hostif {r : Requester} (hr : ∀ c, r ≠ .vf c) (v raised i : Nat) (s : State) : pendWrite r v raised 11 i 0x18 s =
    clearCtxEvts (v / 65536) (raised / 65536) 16 (clearPend 11 i (v % 65536) (raised % 65536) s) := by
  unfold pendWrite
  rw [if_pos rfl, if_pos rfl]
  split
  · next c => exact absurd rfl (hr c)
  · rfl

theorem pendWrite_hostif_vf (c v raised i : Nat) (s : State) :
    pendWrite (.vf c) v raised 11 i 0x18 s = clearCtxEvt c (v / 65536) (raised / 65536) s := rfl

theorem pendWrite_ctxEvt {c : Nat} (hc : c < 16) (r : Requester) (v raised i : Nat) (s : State) :
    pendWrite r v raised 11 i (0xC00 + 4 * c) s = clearCtxEvt c v raised s := by
  unfold pendWrite
  rw [if_neg (by omega), if_pos (by omega), show (0xC00 + 4 * c - 0xC00) / 4 = c by omega]

/-- Settles O36: the write is one of `clearPend`, `clearCtxEvts` and `clearCtxEvt`, and each sets the raised bits after it clears. -/
theorem eventBeatsClear : Obligations.EventBeatsClear := by
  unfold Obligations.EventBeatsClear
  refine ⟨?page, ?hostif, ?contexts, ?vf, ?ctxEvt⟩
  case page =>
    intro r a v raised t i b s ha ht hg h11 hm _ hr
    refine ⟨_, exec_evtPendClear_pass v raised ha ht hg, ?_⟩
    rw [pendWrite_page h11]
    exact testBit_clearPend_raised hm (by simp [hr])
  case hostif =>
    intro r a v raised i b s ha ht hg hvf hb hm _ hr
    refine ⟨_, exec_evtPendClear_pass v raised ha ht hg, ?_⟩
    rw [pendWrite_hostif hvf, getF, (clearCtxEvts_keeps (Has.refl _) _ _ 16 (Keeps.refl _ _)).getFk reg_pendFld11 (by decide)]
    exact testBit_clearPend_raised hm (testBit_mod_two_pow_of_lt (n := 16) hb hr)
  case contexts =>
    intro r a v raised i b c s ha ht hg hvf hc hb _ hr
    refine ⟨_, exec_evtPendClear_pass v raised ha ht hg, ?_⟩
    rw [pendWrite_hostif hvf]
    exact testBit_clearCtxEvts_raised hb (testBit_div_65536 (by rwa [← Nat.add_assoc]))
      (Nat.le_refl 16) hc
  case vf =>
    intro a v raised i b c s ha ht hg hb _ hr
    refine ⟨_, exec_evtPendClear_pass v raised ha ht hg, ?_⟩
    rw [pendWrite_hostif_vf]
    exact testBit_clearCtxEvt_raised hb (testBit_div_65536 hr)
  case ctxEvt =>
    intro r a v raised i b c s ha ht hc hg hb _ hr
    refine ⟨_, exec_evtPendClear_pass v raised ha ht hg, ?_⟩
    rw [pendWrite_ctxEvt hc]
    exact testBit_clearCtxEvt_raised hb hr

end Sys2Proof.Machine
end

section
/-! Proofs of the statements of 01_module_hierarchy.md: what each command may change at all, which commands move a power domain, and
that none of them leaves a tensor domain on without its cluster domain. -/

namespace Sys2Proof.Machine

/-! ## The frame of every command -/

/-- What a command may change: a mask of parts, with the proof that what the command answers keeps every part outside it. -/
def frameOf : (c : Instr) → { m : Nat // ∀ s t, exec c s = .next t → Keeps m s t }
  | .regWrite r a v size => ⟨_, fun s => execRegWrite_keeps (Has.refl _) r a v size (Keeps.refl _ s)⟩
  | .evtPendClear r a v raised => ⟨_, fun s => execEvtPendClear_keeps (Has.refl _) r a v raised (Keeps.refl _ s)⟩
  | .evtForce r a v => ⟨_, fun s => execEvtForce_keeps (Has.refl _) r a v (Keeps.refl _ s)⟩
  | .errInfoClear r a v => ⟨_, fun s => execErrInfoClear_keeps (Has.refl _) r a v (Keeps.refl _ s)⟩
  | .rcRead r a inc => ⟨_, fun s => execRcRead_keeps (Has.refl _) r a inc (Keeps.refl _ s)⟩
  | .loReadLatch r a => ⟨_, fun s => execLoReadLatch_keeps (Has.refl _) r a (Keeps.refl _ s)⟩
  | .stepOpen h => ⟨_, fun s => execStepOpen_keeps (Has.refl _) h (Keeps.refl _ s)⟩
  | .stepOpenDeferred h => ⟨_, fun s => execStepOpenDeferred_keeps (Has.refl _) h (Keeps.refl _ s)⟩
  | .stepClose c n => ⟨_, fun s => execStepClose_keeps (Has.refl _) c n (Keeps.refl _ s)⟩
  | .gatherBlockSend c n cid g => ⟨_, fun s => execGatherBlockSend_keeps (Has.refl _) c n cid g (Keeps.refl _ s)⟩
  | .partialAdd c n g own => ⟨_, fun s => execPartialAdd_keeps (Has.refl _) c n g own (Keeps.refl _ s)⟩
  | .ownerSumClose c n g => ⟨_, fun s => execOwnerSumClose_keeps (Has.refl _) c n g (Keeps.refl _ s)⟩
  | .precondition c n g => ⟨_, fun s => execPrecondition_keeps (Has.refl _) c n g (Keeps.refl _ s)⟩
  | .commit c n g => ⟨_, fun s => execCommit_keeps (Has.refl _) c n g (Keeps.refl _ s)⟩
  | .mirrorSend c n g => ⟨_, fun s => execMirrorSend_keeps (Has.refl _) c n g (Keeps.refl _ s)⟩
  | .factorUpdate c n g => ⟨_, fun s => execFactorUpdate_keeps (Has.refl _) c n g (Keeps.refl _ s)⟩
  | .listDescRead cl lid => ⟨_, fun s => execListDescRead_keeps (Has.refl _) cl lid (Keeps.refl _ s)⟩
  | .matmulDescriptor cl lid n => ⟨_, fun s => execMatmulDescriptor_keeps (Has.refl _) cl lid n (Keeps.refl _ s)⟩
  | .descTake u => ⟨_, fun s => execDescTake_keeps (Has.refl _) u (Keeps.refl _ s)⟩
  | .chunkPassEnd u => ⟨_, fun s => execChunkPassEnd_keeps (Has.refl _) u (Keeps.refl _ s)⟩
  | .tileEnd u corr unc fl stall => ⟨_, fun s => execTileEnd_keeps (Has.refl _) u corr unc fl stall (Keeps.refl _ s)⟩
  | .adoptCopyDone cl ok => ⟨_, fun s => execAdoptCopyDone_keeps (Has.refl _) cl ok (Keeps.refl _ s)⟩
  | .adoptionBufferEnter cl => ⟨_, fun s => execAdoptionBufferEnter_keeps (Has.refl _) cl (Keeps.refl _ s)⟩
  | .descComplete u => ⟨_, fun s => execDescComplete_keeps (Has.refl _) u (Keeps.refl _ s)⟩
  | .forceFence r a v => ⟨_, fun s => execForceFence_keeps (Has.refl _) r a v (Keeps.refl _ s)⟩
  | .resume r a v => ⟨_, fun s => execResume_keeps (Has.refl _) r a v (Keeps.refl _ s)⟩
  | .reductionFold cl dst part n k last => ⟨_, fun s => execReductionFold_keeps (Has.refl _) cl dst part n k last (Keeps.refl _ s)⟩
  | .conversionDescriptor cl lid => ⟨_, fun s => execConversionDescriptor_keeps (Has.refl _) cl lid (Keeps.refl _ s)⟩
  | .group cl lid => ⟨_, fun s => execGroup_keeps (Has.refl _) cl lid (Keeps.refl _ s)⟩
  | .stashEncode cl lid => ⟨_, fun s => execStashEncode_keeps (Has.refl _) cl lid (Keeps.refl _ s)⟩
  | .stashDecode cl lid => ⟨_, fun s => execStashDecode_keeps (Has.refl _) cl lid (Keeps.refl _ s)⟩
  | .rootJobScan rg => ⟨_, fun s => execRootJobScan_keeps (Has.refl _) rg (Keeps.refl _ s)⟩
  | .rootJobStart rg => ⟨_, fun s => execRootJobStart_keeps (Has.refl _) rg (Keeps.refl _ s)⟩
  | .wideDescIssue rg u d => ⟨_, fun s => execWideDescIssue_keeps (Has.refl _) rg u d (Keeps.refl _ s)⟩
  | .newtonIterationDone rg => ⟨_, fun s => execNewtonIterationDone_keeps (Has.refl _) rg (Keeps.refl _ s)⟩
  | .choleskyPanelDone rg => ⟨_, fun s => execCholeskyPanelDone_keeps (Has.refl _) rg (Keeps.refl _ s)⟩
  | .residualCheck rg => ⟨_, fun s => execResidualCheck_keeps (Has.refl _) rg (Keeps.refl _ s)⟩
  | .rootConvert rg => ⟨_, fun s => execRootConvert_keeps (Has.refl _) rg (Keeps.refl _ s)⟩
  | .rootPublish rg => ⟨_, fun s => execRootPublish_keeps (Has.refl _) rg (Keeps.refl _ s)⟩
  | .dueNotice rg => ⟨_, fun s => execDueNotice_keeps (Has.refl _) rg (Keeps.refl _ s)⟩
  | .restartReply rg => ⟨_, fun s => execRestartReply_keeps (Has.refl _) rg (Keeps.refl _ s)⟩
  | .lendSet rg => ⟨_, fun s => execLendSet_keeps (Has.refl _) rg (Keeps.refl _ s)⟩
  | .seqLockstep rg => ⟨_, fun s => execSeqLockstep_keeps (Has.refl _) rg (Keeps.refl _ s)⟩
  | .exportCmd h => ⟨_, fun s => execExportCmd_keeps (Has.refl _) h (Keeps.refl _ s)⟩
  | .memRequest d ctx cls a write copy data tag => ⟨_, fun s => execMemRequest_keeps (Has.refl _) d ctx cls a write copy data tag (Keeps.refl _ s)⟩
  | .weirAdmit m p dt => ⟨_, fun s => execWeirAdmit_keeps (Has.refl _) m p dt (Keeps.refl _ s)⟩
  | .sluiceEnter n r op acc dt => ⟨_, fun s => execSluiceEnter_keeps (Has.refl _) n r op acc dt (Keeps.refl _ s)⟩
  | .sluiceGrant n dt => ⟨_, fun s => execSluiceGrant_keeps (Has.refl _) n dt (Keeps.refl _ s)⟩
  | .sluiceDeadlineMiss n dt => ⟨_, fun s => execSluiceDeadlineMiss_keeps (Has.refl _) n dt (Keeps.refl _ s)⟩
  | .sluicePin n dt => ⟨_, fun s => execSluicePin_keeps (Has.refl _) n dt (Keeps.refl _ s)⟩
  | .memRead chan ecc => ⟨_, fun s => execMemRead_keeps (Has.refl _) chan ecc (Keeps.refl _ s)⟩
  | .memWrite chan => ⟨_, fun s => execMemWrite_keeps (Has.refl _) chan (Keeps.refl _ s)⟩
  | .scrubRead m chan page off ecc written passEnd => ⟨_, fun s => execScrubRead_keeps (Has.refl _) m chan page off ecc written passEnd (Keeps.refl _ s)⟩
  | .remapCopyDone m bad => ⟨_, fun s => execRemapCopyDone_keeps (Has.refl _) m bad (Keeps.refl _ s)⟩
  | .retireCopyDone m bad => ⟨_, fun s => execRetireCopyDone_keeps (Has.refl _) m bad (Keeps.refl _ s)⟩
  | .retrainDue m ch => ⟨_, fun s => execRetrainDue_keeps (Has.refl _) m ch (Keeps.refl _ s)⟩
  | .retrainDone m => ⟨_, fun s => execRetrainDone_keeps (Has.refl _) m (Keeps.refl _ s)⟩
  | .retrainTimeout m => ⟨_, fun s => execRetrainTimeout_keeps (Has.refl _) m (Keeps.refl _ s)⟩
  | .maint h => ⟨_, fun s => execMaint_keeps (Has.refl _) h (Keeps.refl _ s)⟩
  | .maintWindowStart => ⟨_, fun s => execMaintWindowStart_keeps (Has.refl _) (Keeps.refl _ s)⟩
  | .fieldRepairDone m e => ⟨_, fun s => execFieldRepairDone_keeps (Has.refl _) m e (Keeps.refl _ s)⟩
  | .maintWindowEnd ms => ⟨_, fun s => execMaintWindowEnd_keeps (Has.refl _) ms (Keeps.refl _ s)⟩
  | .parkStall m => ⟨_, fun s => execParkStall_keeps (Has.refl _) m (Keeps.refl _ s)⟩
  | .stackTempSample m t => ⟨_, fun s => execStackTempSample_keeps (Has.refl _) m t (Keeps.refl _ s)⟩
  | .stackThrottleStep m => ⟨_, fun s => execStackThrottleStep_keeps (Has.refl _) m (Keeps.refl _ s)⟩
  | .memrecImport h recd => ⟨_, fun s => execMemrecImport_keeps (Has.refl _) h recd (Keeps.refl _ s)⟩
  | .memrecExport h => ⟨_, fun s => execMemrecExport_keeps (Has.refl _) h (Keeps.refl _ s)⟩
  | .signal src => ⟨_, fun s => execSignal_keeps (Has.refl _) src (Keeps.refl _ s)⟩
  | .wait src => ⟨_, fun s => execWait_keeps (Has.refl _) src (Keeps.refl _ s)⟩
  | .waiterTableAdmit home flag cyc => ⟨_, fun s => execWaiterTableAdmit_keeps (Has.refl _) home flag cyc (Keeps.refl _ s)⟩
  | .arrive src => ⟨_, fun s => execArrive_keeps (Has.refl _) src (Keeps.refl _ s)⟩
  | .releaseReceive => ⟨_, fun s => execReleaseReceive_keeps (Has.refl _) (Keeps.refl _ s)⟩
  | .flagOwnWrite r a v => ⟨_, fun s => execFlagOwnWrite_keeps (Has.refl _) r a v (Keeps.refl _ s)⟩
  | .barCfgWrite r a v => ⟨_, fun s => execBarCfgWrite_keeps (Has.refl _) r a v (Keeps.refl _ s)⟩
  | .dbgSet r a v => ⟨_, fun s => execDbgSet_keeps (Has.refl _) r a v (Keeps.refl _ s)⟩
  | .portEnable r a v => ⟨_, fun s => execPortEnable_keeps (Has.refl _) r a v (Keeps.refl _ s)⟩
  | .autoRetrain p => ⟨_, fun s => execAutoRetrain_keeps (Has.refl _) p (Keeps.refl _ s)⟩
  | .trainDone p => ⟨_, fun s => execTrainDone_keeps (Has.refl _) p (Keeps.refl _ s)⟩
  | .trainFail p => ⟨_, fun s => execTrainFail_keeps (Has.refl _) p (Keeps.refl _ s)⟩
  | .identSend p => ⟨_, fun s => execIdentSend_keeps (Has.refl _) p (Keeps.refl _ s)⟩
  | .ident p raw fec => ⟨_, fun s => execIdent_keeps (Has.refl _) p raw fec (Keeps.refl _ s)⟩
  | .confirm r a v => ⟨_, fun s => execConfirm_keeps (Has.refl _) r a v (Keeps.refl _ s)⟩
  | .recheck r a v => ⟨_, fun s => execRecheck_keeps (Has.refl _) r a v (Keeps.refl _ s)⟩
  | .linkRestore r a v => ⟨_, fun s => execLinkRestore_keeps (Has.refl _) r a v (Keeps.refl _ s)⟩
  | .forceDown r a v => ⟨_, fun s => execForceDown_keeps (Has.refl _) r a v (Keeps.refl _ s)⟩
  | .laneLoss p => ⟨_, fun s => execLaneLoss_keeps (Has.refl _) p (Keeps.refl _ s)⟩
  | .portRst r a v => ⟨_, fun s => execPortRst_keeps (Has.refl _) r a v (Keeps.refl _ s)⟩
  | .data p raw fec => ⟨_, fun s => execData_keeps (Has.refl _) p raw fec (Keeps.refl _ s)⟩
  | .mark p raw fec => ⟨_, fun s => execMark_keeps (Has.refl _) p raw fec (Keeps.refl _ s)⟩
  | .markAck p raw fec => ⟨_, fun s => execMarkAck_keeps (Has.refl _) p raw fec (Keeps.refl _ s)⟩
  | .link p raw fec => ⟨_, fun s => execLink_keeps (Has.refl _) p raw fec (Keeps.refl _ s)⟩
  | .retry p raw fec => ⟨_, fun s => execRetry_keeps (Has.refl _) p raw fec (Keeps.refl _ s)⟩
  | .state p raw fec => ⟨_, fun s => execState_keeps (Has.refl _) p raw fec (Keeps.refl _ s)⟩
  | .ackTimeout p => ⟨_, fun s => execAckTimeout_keeps (Has.refl _) p (Keeps.refl _ s)⟩
  | .linkAckDue p => ⟨_, fun s => execLinkAckDue_keeps (Has.refl _) p (Keeps.refl _ s)⟩
  | .holdExpire p => ⟨_, fun s => execHoldExpire_keeps (Has.refl _) p (Keeps.refl _ s)⟩
  | .send c => ⟨_, fun s => execSend_keeps (Has.refl _) c (Keeps.refl _ s)⟩
  | .recv c => ⟨_, fun s => execRecv_keeps (Has.refl _) c (Keeps.refl _ s)⟩
  | .collTurnFrame => ⟨_, fun s => execCollTurnFrame_keeps (Has.refl _) (Keeps.refl _ s)⟩
  | .doneFrame => ⟨_, fun s => execDoneFrame_keeps (Has.refl _) (Keeps.refl _ s)⟩
  | .releaseFrame => ⟨_, fun s => execReleaseFrame_keeps (Has.refl _) (Keeps.refl _ s)⟩
  | .earlyAreaAdmit hclk => ⟨_, fun s => execEarlyAreaAdmit_keeps (Has.refl _) hclk (Keeps.refl _ s)⟩
  | .stragglerDeadline c n cid => ⟨_, fun s => execStragglerDeadline_keeps (Has.refl _) c n cid (Keeps.refl _ s)⟩
  | .ctxPause r a v => ⟨_, fun s => execCtxPause_keeps (Has.refl _) r a v (Keeps.refl _ s)⟩
  | .degrade h => ⟨_, fun s => execDegrade_keeps (Has.refl _) h (Keeps.refl _ s)⟩
  | .topoLoad h => ⟨_, fun s => execTopoLoad_keeps (Has.refl _) h (Keeps.refl _ s)⟩
  | .openFrame => ⟨_, fun s => execOpenFrame_keeps (Has.refl _) (Keeps.refl _ s)⟩
  | .tabWf => ⟨_, fun s => execTabWf_keeps (Has.refl _) (Keeps.refl _ s)⟩
  | .tabR => ⟨_, fun s => execTabR_keeps (Has.refl _) (Keeps.refl _ s)⟩
  | .wgt => ⟨_, fun s => execWgt_keeps (Has.refl _) (Keeps.refl _ s)⟩
  | .fac0 => ⟨_, fun s => execFac0_keeps (Has.refl _) (Keeps.refl _ s)⟩
  | .fac1 => ⟨_, fun s => execFac1_keeps (Has.refl _) (Keeps.refl _ s)⟩
  | .root0 => ⟨_, fun s => execRoot0_keeps (Has.refl _) (Keeps.refl _ s)⟩
  | .root1 => ⟨_, fun s => execRoot1_keeps (Has.refl _) (Keeps.refl _ s)⟩
  | .closeW => ⟨_, fun s => execCloseW_keeps (Has.refl _) (Keeps.refl _ s)⟩
  | .closeF => ⟨_, fun s => execCloseF_keeps (Has.refl _) (Keeps.refl _ s)⟩
  | .closeR => ⟨_, fun s => execCloseR_keeps (Has.refl _) (Keeps.refl _ s)⟩
  | .ack => ⟨_, fun s => execAck_keeps (Has.refl _) (Keeps.refl _ s)⟩
  | .nack => ⟨_, fun s => execNack_keeps (Has.refl _) (Keeps.refl _ s)⟩
  | .auditRes => ⟨_, fun s => execAuditRes_keeps (Has.refl _) (Keeps.refl _ s)⟩
  | .fetch => ⟨_, fun s => execFetch_keeps (Has.refl _) (Keeps.refl _ s)⟩
  | .resolve r a v => ⟨_, fun s => execResolve_keeps (Has.refl _) r a v (Keeps.refl _ s)⟩
  | .auditGbi r a v => ⟨_, fun s => execAuditGbi_keeps (Has.refl _) r a v (Keeps.refl _ s)⟩
  | .dataB r a v => ⟨_, fun s => execDataB_keeps (Has.refl _) r a v (Keeps.refl _ s)⟩
  | .dataH r a v => ⟨_, fun s => execDataH_keeps (Has.refl _) r a v (Keeps.refl _ s)⟩
  | .dataW r a v => ⟨_, fun s => execDataW_keeps (Has.refl _) r a v (Keeps.refl _ s)⟩
  | .init r a v => ⟨_, fun s => execInit_keeps (Has.refl _) r a v (Keeps.refl _ s)⟩
  | .final r a v => ⟨_, fun s => execFinal_keeps (Has.refl _) r a v (Keeps.refl _ s)⟩
  | .ckpt h => ⟨_, fun s => execCkpt_keeps (Has.refl _) h (Keeps.refl _ s)⟩
  | .ckptBlockRead c g => ⟨_, fun s => execCkptBlockRead_keeps (Has.refl _) c g (Keeps.refl _ s)⟩
  | .ckptComplete c => ⟨_, fun s => execCkptComplete_keeps (Has.refl _) c (Keeps.refl _ s)⟩
  | .peerWrite => ⟨_, fun s => execPeerWrite_keeps (Has.refl _) (Keeps.refl _ s)⟩
  | .readReq => ⟨_, fun s => execReadReq_keeps (Has.refl _) (Keeps.refl _ s)⟩
  | .readData => ⟨_, fun s => execReadData_keeps (Has.refl _) (Keeps.refl _ s)⟩
  | .peerDone => ⟨_, fun s => execPeerDone_keeps (Has.refl _) (Keeps.refl _ s)⟩
  | .restore h dir => ⟨_, fun s => execRestore_keeps (Has.refl _) h dir (Keeps.refl _ s)⟩
  | .restoreRecordApply c hd => ⟨_, fun s => execRestoreRecordApply_keeps (Has.refl _) c hd (Keeps.refl _ s)⟩
  | .restoreComplete c => ⟨_, fun s => execRestoreComplete_keeps (Has.refl _) c (Keeps.refl _ s)⟩
  | .journalAppend c src hclk => ⟨_, fun s => execJournalAppend_keeps (Has.refl _) c src hclk (Keeps.refl _ s)⟩
  | .journalDrain c => ⟨_, fun s => execJournalDrain_keeps (Has.refl _) c (Keeps.refl _ s)⟩
  | .replayRead h => ⟨_, fun s => execReplayRead_keeps (Has.refl _) h (Keeps.refl _ s)⟩
  | .sqTail r a v => ⟨_, fun s => execSqTail_keeps (Has.refl _) r a v (Keeps.refl _ s)⟩
  | .sqEntryFetch c q ok entry => ⟨_, fun s => execSqEntryFetch_keeps (Has.refl _) c q ok entry (Keeps.refl _ s)⟩
  | .sqEnable r a v => ⟨_, fun s => execSqEnable_keeps (Has.refl _) r a v (Keeps.refl _ s)⟩
  | .commandStart c q => ⟨_, fun s => execCommandStart_keeps (Has.refl _) c q (Keeps.refl _ s)⟩
  | .completionReport n => ⟨_, fun s => execCompletionReport_keeps (Has.refl _) n (Keeps.refl _ s)⟩
  | .cqHead r a v waited => ⟨_, fun s => execCqHead_keeps (Has.refl _) r a v waited (Keeps.refl _ s)⟩
  | .coalesceTimer c q => ⟨_, fun s => execCoalesceTimer_keeps (Has.refl _) c q (Keeps.refl _ s)⟩
  | .bar2Read off n => ⟨_, fun s => execBar2Read_keeps (Has.refl _) off n (Keeps.refl _ s)⟩
  | .bar2Write off data => ⟨_, fun s => execBar2Write_keeps (Has.refl _) off data (Keeps.refl _ s)⟩
  | .nop h => ⟨_, fun s => execNop_keeps (Has.refl _) h (Keeps.refl _ s)⟩
  | .abort h => ⟨_, fun s => execAbort_keeps (Has.refl _) h (Keeps.refl _ s)⟩
  | .attest h => ⟨_, fun s => execAttest_keeps (Has.refl _) h (Keeps.refl _ s)⟩
  | .setSeed h => ⟨_, fun s => execSetSeed_keeps (Has.refl _) h (Keeps.refl _ s)⟩
  | .listRun h => ⟨_, fun s => execListRun_keeps (Has.refl _) h (Keeps.refl _ s)⟩
  | .copy h hd => ⟨_, fun s => execCopy_keeps (Has.refl _) h hd (Keeps.refl _ s)⟩
  | .ctxReset h => ⟨_, fun s => execCtxReset_keeps (Has.refl _) h (Keeps.refl _ s)⟩
  | .ctxPreempt h => ⟨_, fun s => execCtxPreempt_keeps (Has.refl _) h (Keeps.refl _ s)⟩
  | .ctxResume h => ⟨_, fun s => execCtxResume_keeps (Has.refl _) h (Keeps.refl _ s)⟩
  | .mailboxWrite off data => ⟨_, fun s => execMailboxWrite_keeps (Has.refl _) off data (Keeps.refl _ s)⟩
  | .go r a v => ⟨_, fun s => execGo_keeps (Has.refl _) r a v (Keeps.refl _ s)⟩
  | .imageVerifyDone => ⟨_, fun s => execImageVerifyDone_keeps (Has.refl _) (Keeps.refl _ s)⟩
  | .progGo r a v => ⟨_, fun s => execProgGo_keeps (Has.refl _) r a v (Keeps.refl _ s)⟩
  | .otpProgDone ok => ⟨_, fun s => execOtpProgDone_keeps (Has.refl _) ok (Keeps.refl _ s)⟩
  | .idReady => ⟨_, fun s => execIdReady_keeps (Has.refl _) (Keeps.refl _ s)⟩
  | .pairLockstep p => ⟨_, fun s => execPairLockstep_keeps (Has.refl _) p (Keeps.refl _ s)⟩
  | .domReq r a v => ⟨_, fun s => execDomReq_keeps (Has.refl _) r a v (Keeps.refl _ s)⟩
  | .domainSwitchDone n => ⟨_, fun s => execDomainSwitchDone_keeps (Has.refl _) n (Keeps.refl _ s)⟩
  | .droopStretch d => ⟨_, fun s => execDroopStretch_keeps (Has.refl _) d (Keeps.refl _ s)⟩
  | .railDip r mv => ⟨_, fun s => execRailDip_keeps (Has.refl _) r mv (Keeps.refl _ s)⟩
  | .railRecover r mv us => ⟨_, fun s => execRailRecover_keeps (Has.refl _) r mv us (Keeps.refl _ s)⟩
  | .supplyEvt => ⟨_, fun s => execSupplyEvt_keeps (Has.refl _) (Keeps.refl _ s)⟩
  | .holdoffEnd ms => ⟨_, fun s => execHoldoffEnd_keeps (Has.refl _) ms (Keeps.refl _ s)⟩
  | .railResetTrip r mv => ⟨_, fun s => execRailResetTrip_keeps (Has.refl _) r mv (Keeps.refl _ s)⟩
  | .regionTempSample rg t => ⟨_, fun s => execRegionTempSample_keeps (Has.refl _) rg t (Keeps.refl _ s)⟩
  | .powerSample w => ⟨_, fun s => execPowerSample_keeps (Has.refl _) w (Keeps.refl _ s)⟩
  | .deepIdle r a v => ⟨_, fun s => execDeepIdle_keeps (Has.refl _) r a v (Keeps.refl _ s)⟩
  | .deepIdleExit r a v => ⟨_, fun s => execDeepIdleExit_keeps (Has.refl _) r a v (Keeps.refl _ s)⟩
  | .standby r a v => ⟨_, fun s => execStandby_keeps (Has.refl _) r a v (Keeps.refl _ s)⟩
  | .islandRst r a v => ⟨_, fun s => execIslandRst_keeps (Has.refl _) r a v (Keeps.refl _ s)⟩
  | .coldReset => ⟨_, fun s => execColdReset_keeps (Has.refl _) (Keeps.refl _ s)⟩
  | .platformReset => ⟨_, fun s => execPlatformReset_keeps (Has.refl _) (Keeps.refl _ s)⟩
  | .linkReset => ⟨_, fun s => execLinkReset_keeps (Has.refl _) (Keeps.refl _ s)⟩
  | .functionLevelReset fn => ⟨_, fun s => execFunctionLevelReset_keeps (Has.refl _) fn (Keeps.refl _ s)⟩
  | .residueMismatch cl again => ⟨_, fun s => execResidueMismatch_keeps (Has.refl _) cl again (Keeps.refl _ s)⟩
  | .tempTrip k t => ⟨_, fun s => execTempTrip_keeps (Has.refl _) k t (Keeps.refl _ s)⟩
  | .watchdogExpire p => ⟨_, fun s => execWatchdogExpire_keeps (Has.refl _) p (Keeps.refl _ s)⟩
  | .kick r a v => ⟨_, fun s => execKick_keeps (Has.refl _) r a v (Keeps.refl _ s)⟩
  | .comparatorSelftest ok => ⟨_, fun s => execComparatorSelftest_keeps (Has.refl _) ok (Keeps.refl _ s)⟩
  | .comparatorDisagree ms => ⟨_, fun s => execComparatorDisagree_keeps (Has.refl _) ms (Keeps.refl _ s)⟩
  | .faultResetRelease => ⟨_, fun s => execFaultResetRelease_keeps (Has.refl _) (Keeps.refl _ s)⟩
  | .logClr r a v => ⟨_, fun s => execLogClr_keeps (Has.refl _) r a v (Keeps.refl _ s)⟩
  | .forceFault r a v => ⟨_, fun s => execForceFault_keeps (Has.refl _) r a v (Keeps.refl _ s)⟩
  | .wdogCfgWrite r a v => ⟨_, fun s => execWdogCfgWrite_keeps (Has.refl _) r a v (Keeps.refl _ s)⟩
  | .gaugeSample ch mv ma n => ⟨_, fun s => execGaugeSample_keeps (Has.refl _) ch mv ma n (Keeps.refl _ s)⟩
  | .gaugePowerSecond => ⟨_, fun s => execGaugePowerSecond_keeps (Has.refl _) (Keeps.refl _ s)⟩
  | .tallySend cl => ⟨_, fun s => execTallySend_keeps (Has.refl _) cl (Keeps.refl _ s)⟩
  | .tallyFrame bad alt => ⟨_, fun s => execTallyFrame_keeps (Has.refl _) bad alt (Keeps.refl _ s)⟩
  | .intervalEnd => ⟨_, fun s => execIntervalEnd_keeps (Has.refl _) (Keeps.refl _ s)⟩
  | .gaugeRecordSigned => ⟨_, fun s => execGaugeRecordSigned_keeps (Has.refl _) (Keeps.refl _ s)⟩
  | .gaugePowerUp => ⟨_, fun s => execGaugePowerUp_keeps (Has.refl _) (Keeps.refl _ s)⟩
  | .gaugeSupplyLoss => ⟨_, fun s => execGaugeSupplyLoss_keeps (Has.refl _) (Keeps.refl _ s)⟩
  | .status => ⟨_, fun s => execStatus_keeps (Has.refl _) (Keeps.refl _ s)⟩
  | .intervalW v => ⟨_, fun s => execIntervalW_keeps (Has.refl _) v (Keeps.refl _ s)⟩
  | .intervalR => ⟨_, fun s => execIntervalR_keeps (Has.refl _) (Keeps.refl _ s)⟩
  | .recSelect n => ⟨_, fun s => execRecSelect_keeps (Has.refl _) n (Keeps.refl _ s)⟩
  | .recRead => ⟨_, fun s => execRecRead_keeps (Has.refl _) (Keeps.refl _ s)⟩
  | .resumeLoad bs => ⟨_, fun s => execResumeLoad_keeps (Has.refl _) bs (Keeps.refl _ s)⟩
  | .resumeGo key => ⟨_, fun s => execResumeGo_keeps (Has.refl _) key (Keeps.refl _ s)⟩
  | .closeNow key => ⟨_, fun s => execCloseNow_keeps (Has.refl _) key (Keeps.refl _ s)⟩
  | .identRead => ⟨_, fun s => execIdentRead_keeps (Has.refl _) (Keeps.refl _ s)⟩
  | .statusResume => ⟨_, fun s => execStatusResume_keeps (Has.refl _) (Keeps.refl _ s)⟩
  | .challenge r a v => ⟨_, fun s => execChallenge_keeps (Has.refl _) r a v (Keeps.refl _ s)⟩
  | .unlockGo r a v => ⟨_, fun s => execUnlockGo_keeps (Has.refl _) r a v (Keeps.refl _ s)⟩
  | .unlockCheckDone => ⟨_, fun s => execUnlockCheckDone_keeps (Has.refl _) (Keeps.refl _ s)⟩
  | .relock r a v => ⟨_, fun s => execRelock_keeps (Has.refl _) r a v (Keeps.refl _ s)⟩
  | .perstRelease => ⟨_, fun s => execPerstRelease_keeps (Has.refl _) (Keeps.refl _ s)⟩
  | .coldResetRelease ms pos gaddr => ⟨_, fun s => execColdResetRelease_keeps (Has.refl _) ms pos gaddr (Keeps.refl _ s)⟩
  | .vfEnable en n => ⟨_, fun s => execVfEnable_keeps (Has.refl _) en n (Keeps.refl _ s)⟩
  | .aerError => ⟨_, fun s => execAerError_keeps (Has.refl _) (Keeps.refl _ s)⟩

theorem exec_keeps_frameOf {c : Instr} {s t : State} (he : exec c s = .next t) : Keeps (frameOf c).1 s t := (frameOf c).2 s t he

/-! ## What moves no domain -/

theorem domOn_congr {s t : State} (h : ∀ k, getFk t PWR_DOM_STAT 0 k = getFk s PWR_DOM_STAT 0 k) (n : Nat) :
    domOn t n = domOn s n := by
  unfold domOn
  rw [h]

/-- A frame without DOM_STAT, register 465 of a mask, leaves every domain as it is. -/
theorem Keeps.sameDomains {w : Nat} {s t : State} (h : Keeps w s t) (hw : w.testBit 465 = false) (n : Nat) :
    domOn t n = domOn s n :=
  domOn_congr (h.getFk reg_PWR_DOM_STAT hw 0) n

theorem domOn_setFk {f : Fld} (hf : fldIn f = true) (h : f ≠ PWR_DOM_STAT) (i k v : Nat) (s : State) (n : Nat) :
    domOn (setFk f i k v s) n = domOn s n :=
  domOn_congr (fun _ => getFk_setFk_fld hf (by decide) h _ _) n

/-- Registers of the common header stand below DOM_STAT. -/
theorem domOn_setF_header {f : Fld} (h : f.off + f.stride * (0 % f.cnt) < 0x110) (i v : Nat) (s : State) (n : Nat) :
    domOn (setF f i v s) n = domOn s n :=
  domOn_congr (fun k => getFk_setFk_off _ _ _ _ _ _ _ _ (by
    show _ ≠ (0x110 + 4 * (k % 4)) % 4096
    omega)) n

theorem domOn_countDenied (t i : Nat) (s : State) (n : Nat) : domOn (countDenied t i s) n = domOn s n :=
  domOn_setF_header (f := deniedFld t) (show 0xC + 0 * (0 % _) < 0x110 by omega) i _ s n

/-- The reset value of DOM_STAT has every domain on. -/
theorem domOn_of_domStat_reset {s : State} {n : Nat} (h : getFk s PWR_DOM_STAT 0 (n / 32) = fldReset PWR_DOM_STAT 0 % 2 ^ 32) :
    domOn s n = true := by
  unfold domOn
  rw [h, show fldReset PWR_DOM_STAT 0 % 2 ^ 32 = 2 ^ 32 - 1 from rfl, Nat.testBit_two_pow_sub_one,
    decide_eq_true (Nat.mod_lt _ (by decide)), Bool.or_true]

/-! ### Register accesses: DOM_STAT is read-only and no fault register -/

theorem domOn_writeFlds (i v n : Nat) : ∀ (l : List (Fld × Nat)) (s : State), (∀ e ∈ l, fldIn e.1 = true) →
    domOn (writeFlds i v l s) n = domOn s n
  | [], _, _ => rfl
  | (f, k) :: l, s, hl => by
    rw [writeFlds, domOn_writeFlds i v n l _ fun e he => hl e (List.mem_cons_of_mem _ he)]
    split
    · next hrw => exact domOn_setFk (hl (f, k) List.mem_cons_self) (fun h => absurd (h ▸ hrw.1 : PWR_DOM_STAT.acc = .rw) (by decide)) ..
    · rfl

theorem domOn_rcClear (i inc n : Nat) : ∀ (l : List (Fld × Nat)) (s : State), (∀ e ∈ l, fldIn e.1 = true) →
    domOn (rcClear i inc l s) n = domOn s n
  | [], _, _ => rfl
  | (f, k) :: l, s, hl => by
    rw [rcClear, domOn_rcClear i inc n l _ fun e he => hl e (List.mem_cons_of_mem _ he)]
    split
    · next hrc => exact domOn_setFk (hl (f, k) List.mem_cons_self) (fun h => absurd (h ▸ hrc : PWR_DOM_STAT.acc = .rc) (by decide)) ..
    · rfl

theorem fldsAt_fldIn (t o : Nat) : ∀ e ∈ fldsAt t o, fldIn e.1 = true := fun _ he => (fldsAt_in he).1

/-- DOM_STAT stands on the PWR page, at 0x110 or above. -/
theorem domStat_place {t o : Nat} {e : Fld × Nat} (he : e ∈ fldsAt t o) (h : e.1 = PWR_DOM_STAT) : t = 13 ∧ 0x110 ≤ o := by
  obtain ⟨hpage, hoff, -⟩ := fldsAt_place he
  rw [h] at hpage hoff
  exact ⟨hpage.symm, hoff ▸ Nat.le_add_right ..⟩

theorem ne_domStat_of_isErrReg {t o : Nat} {e : Fld × Nat} (ho : isErrReg t o = true) (he : e ∈ fldsAt t o) : e.1 ≠ PWR_DOM_STAT := by
  intro h
  obtain ⟨rfl, hle⟩ := domStat_place he h
  simp [isErrReg] at ho
  omega

theorem domOn_errWrite (t i o : Nat) (s : State) (n : Nat) : domOn (errWrite t i o s) n = domOn s n := by
  unfold errWrite
  split
  · next ho =>
    refine (domOn_congr (fun k => getFk_clearFlds_ne i _ _ _ _ _ fun e he =>
      fldKey_ne_of_ne (fldsAt_fldIn t o e he) (by decide) (ne_domStat_of_isErrReg ho he) _ _ _ _) n).trans ?_
    split <;> rfl
  · rfl

theorem domOn_busRead (r : Requester) (a inc : Nat) (s : State) (n : Nat) : domOn (busRead r a inc s).2 n = domOn s n := by
  unfold busRead
  split
  · rfl
  · split
    · rfl
    · dsimp only
      split
      · rfl
      · split
        · exact domOn_rcClear _ _ _ _ _ (fldsAt_fldIn _ _)
        · rfl

theorem domOn_writeEn (t i v : Nat) (s : State) (n : Nat) : domOn (writeEn t i v s) n = domOn s n := by
  have hen : domOn (setF (enFld t) i (v &&& evtMask t) s) n = domOn s n :=
    domOn_setF_header (f := enFld t) (show 0x1C + 0 * (0 % _) < 0x110 by omega) i _ s n
  unfold writeEn
  dsimp only
  split
  · exact ((signalPage_keeps (Has.refl _) t i (Keeps.refl _ _)).sameDomains (by decide) n).trans hen
  · exact hen

theorem domOn_writeWord (v t i o : Nat) (s : State) (n : Nat) : domOn (writeWord v t i o s) n = domOn s n := by
  unfold writeWord
  split
  · split
    · rfl
    · exact domOn_setF_header (f := hostRoFld t) (show 0xC + 0 * (0 % _) < 0x110 by omega) i _ s n
  · split
    · split
      · exact ((signalCtxEn_keeps (Has.refl _) _ 16 (Keeps.refl _ _)).sameDomains (by decide) n).trans (domOn_writeEn ..)
      · exact domOn_writeEn ..
    · split
      · rfl
      · split
        · exact ((afterWrite_keeps (Has.refl _) t i o (Keeps.refl _ _)).sameDomains (by decide) n).trans
            (domOn_writeFlds _ _ _ _ _ (fldsAt_fldIn _ _))
        · rfl

theorem domOn_regStore (v t i o : Nat) (s : State) (n : Nat) : domOn (regStore v t i o s) n = domOn s n := by
  unfold regStore
  split
  · rfl
  · calc
      _ = domOn (writeWord (writtenWord s t i o v) t i o (writeBefore v t i o s)) n :=
        (writeFollow_keeps (Has.refl _) t i o (Keeps.refl _ _)).sameDomains (by decide) n
      _ = domOn (writeBefore v t i o s) n := domOn_writeWord ..
      _ = domOn s n := (writeBefore_keeps (Has.refl _) v t i o (Keeps.refl _ s)).sameDomains (by decide) n

/-! ### Resets that do not restore DOM_STAT (R16) -/

theorem cellKept_key {rc : Cls} {sel : Nat → Nat → Nat → Bool} (e e' : Nat × Word) (h : cellKept rc sel e = some e') : e'.1 = e.1 := by
  unfold cellKept at h
  dsimp only at h
  repeat' split at h
  all_goals cases h <;> rfl

/-- A reset leaves the fields without its letter alone, wherever it acts. -/
theorem getFk_restoreFlds_without {t : Nat} {f : Fld} (hf : f ∈ fldsOf t) {rc : Cls} (hc : f.cls.contains rc = false)
    (sel : Nat → Nat → Nat → Bool) (s : State) (i k : Nat) : getFk (restoreFlds rc sel s) f i k = getFk s f i k := by
  obtain ⟨hfld, hpend, hen, hctl, -⟩ := cellFld_fldKey hf i k
  have hkept : ∀ v : Word, cellKept rc sel (fldKey f i k, v) = some (fldKey f i k, v) := fun v => by
    unfold cellKept
    dsimp only
    rw [if_neg hpend, if_neg hen, if_neg hctl, hfld]
    dsimp only
    rw [hc, Bool.false_and]
    rfl
  unfold getFk restoreFlds Store.get
  dsimp only
  rw [find_filterMap_key _ cellKept_key (fldKey f i k) false hkept]
  rfl

theorem mem_fldsOf_domStat : PWR_DOM_STAT ∈ fldsOf 13 := by decide

theorem domOn_restoreFlds {rc : Cls} (hc : PWR_DOM_STAT.cls.contains rc = false) (sel : Nat → Nat → Nat → Bool) (s : State) (n : Nat) :
    domOn (restoreFlds rc sel s) n = domOn s n :=
  domOn_congr (fun k => getFk_restoreFlds_without mem_fldsOf_domStat hc sel s 0 k) n

theorem domOn_unitReset (u : Nat) (s : State) (n : Nat) : domOn (unitReset u s) n = domOn s n :=
  ((placeFences_keeps (Has.refl _) (u / 4) 4 (Keeps.refl _ _)).sameDomains (by decide) n).trans
    (domOn_restoreFlds (rc := .i) (by decide) _ { s with units := s.units.del u } n)

theorem domOn_seqReset (rg : Nat) (s : State) (n : Nat) : domOn (seqReset rg s) n = domOn s n :=
  calc
    _ = domOn (restoreFlds .i (fun t i _ => t == 2 && i == rg) (modSeq rg (fun q => { q with back := [], sat := false }) (dropWide rg 32 s))) n :=
      (showSeq_keeps (Has.refl _) rg (Keeps.refl _ _)).sameDomains (by decide) n
    _ = domOn (modSeq rg (fun q => { q with back := [], sat := false }) (dropWide rg 32 s)) n := domOn_restoreFlds (rc := .i) (by decide) ..
    _ = domOn (dropWide rg 32 s) n := (modSeq_keeps (Has.refl _) rg _ (Keeps.refl _ _)).sameDomains (by decide) n
    _ = domOn s n := (dropWide_keeps (Has.refl _) rg 32 (Keeps.refl _ s)).sameDomains (by decide) n

theorem domOn_linkReset (s : State) (n : Nat) : domOn (linkReset s) n = domOn s n := by
  unfold linkReset
  split
  · rfl
  · exact (domOn_restoreFlds (rc := .l) (by decide) ..).trans
      ((ctxsLost_keeps (Has.refl _) 16 (Keeps.refl _ _)).sameDomains (by decide) n)

theorem domOn_ctxFlr (c : Nat) (s : State) (n : Nat) : domOn (ctxFlr c s) n = domOn s n :=
  calc
    _ = domOn (ctxLost c (ctxResetX c 0 s)) n := domOn_restoreFlds (rc := .f) (by decide) ..
    _ = domOn (ctxResetX c 0 s) n := (ctxLost_keeps (Has.refl _) c (Keeps.refl _ _)).sameDomains (by decide) n
    _ = domOn s n := (ctxResetX_keeps (Has.refl _) c 0 (Keeps.refl _ s)).sameDomains (by decide) n

theorem domOn_ctxsFlr (n : Nat) : ∀ (k : Nat) (s : State), domOn (ctxsFlr k s) n = domOn s n
  | 0, _ => rfl
  | k + 1, s => (domOn_ctxFlr k _ n).trans (domOn_ctxsFlr n k s)

theorem domOn_functionLevelReset (fn : Nat) (s : State) (n : Nat) : domOn (functionLevelReset fn s) n = domOn s n := by
  unfold functionLevelReset
  split
  · rfl
  · split
    · have hvf : ∀ x : State, domOn { x with vfEnable := false, numVfs := 0 } n = domOn x n := fun _ => rfl
      rw [domOn_setEvt (by decide) (by decide), hvf, domOn_ctxsFlr]
    · split
      · rw [domOn_setEvt (by decide) (by decide), domOn_ctxFlr]
      · rfl

/-! ## Tensor domains follow their cluster domains (R26) -/

/-- Each region whose tensor domain is on has its cluster domain on. -/
def ClustersOn (s : State) : Prop := ∀ rg < 32, domOn s rg = true → domOn s (32 + rg) = true

variable {s t : State}

theorem ClustersOn.congr (hs : ClustersOn s) (h : ∀ n, domOn t n = domOn s n) : ClustersOn t := by
  intro rg hrg
  rw [h, h]
  exact hs rg hrg

theorem clustersOn_ite {c : Prop} [Decidable c] (hs : ClustersOn s) (ht : ClustersOn t) : ClustersOn (if c then s else t) := by
  split
  · exact hs
  · exact ht

/-- A judged write keeps the rule where its row does. -/
theorem clustersOn_guarded {r : Requester} {a : Nat} {f : Nat → Nat → Nat → State → State} (hs : ClustersOn s)
    (hf : ∀ t i o, ClustersOn (f t i o s)) : ClustersOn (guarded r a f s) := by
  unfold guarded
  split
  · exact hs
  · split
    · exact hf _ _ _
    · exact hs
    · exact hs.congr (domOn_countDenied _ _ s)

/-! ### Register writes -/

theorem clustersOn_write32 (r : Requester) (a v : Nat) (hs : ClustersOn s) : ClustersOn (write32 r a v s) :=
  clustersOn_ite (clustersOn_guarded hs fun _ _ _ => hs.congr (domOn_regStore _ _ _ _ s)) hs

theorem clustersOn_regWrite (r : Requester) (a v size : Nat) (hs : ClustersOn s) : ClustersOn (regWrite r a v size s) :=
  clustersOn_ite (clustersOn_write32 r a v hs) (clustersOn_ite
    (clustersOn_ite (clustersOn_write32 r (a + 4) (v / two32) (clustersOn_write32 r a v hs)) hs) hs)

/-! ### Switching off -/

/-- A list of domains that has the tensor domain of each cluster domain in it switches off together. -/
theorem clustersOn_domainsOff {l : List Nat} (hl : ∀ n ∈ l, n < 128) (htensor : ∀ rg < 32, 32 + rg ∈ l → rg ∈ l) (hs : ClustersOn s) :
    ClustersOn (domainsOff l s) := by
  intro rg hrg hon
  rw [domOn_domainsOff _ (by omega) l s hl, Bool.and_eq_true, Bool.not_eq_true', List.contains_eq_mem, decide_eq_false_iff_not] at hon ⊢
  exact ⟨hs rg hrg hon.1, fun hmem => hon.2 (htensor rg hrg hmem)⟩

/-- A cluster domain may be off only while its tensor domain is off. -/
theorem tensorOff_of_mayBeOff {rg : Nat} (hrg : rg < 32) (h : mayBeOff s (32 + rg) = true) : domOn s rg = false := by
  unfold mayBeOff at h
  rw [if_neg (by omega), if_pos (by omega)] at h
  simp only [Bool.and_eq_true, Bool.not_eq_true', Nat.add_sub_cancel_left] at h
  exact h.1.1.1

theorem clustersOn_domainOff {n : Nat} (hn : n < 128) (hoff : mayBeOff s n = true) (hs : ClustersOn s) : ClustersOn (domainOff n s) := by
  intro rg hrg hon
  rw [domOn_domainOff n _ s hn (by omega)] at hon ⊢
  have hon' : domOn s rg = true := by
    split at hon
    · cases hon
    · exact hon
  split
  · next hcl =>
    rw [tensorOff_of_mayBeOff hrg (hcl ▸ hoff)] at hon'
    cases hon'
  · exact hs rg hrg hon'

theorem clustersOn_refuseDomain (n : Nat) (hs : ClustersOn s) : ClustersOn (refuseDomain n s) :=
  hs.congr ((refuseDomain_keeps (Has.refl _) n (Keeps.refl _ s)).sameDomains (by decide))

theorem clustersOn_switchOff (v : Nat) : ∀ (k n : Nat) (s : State), n + k ≤ 128 → ClustersOn s → ClustersOn (switchOff v k n s)
  | 0, _, _, _, hs => hs
  | k + 1, n, s, hn, hs => by
    rw [switchOff]
    refine clustersOn_switchOff v k (n + 1) _ (by omega) (clustersOn_ite hs ?_)
    split
    · next hoff => exact clustersOn_domainOff (by omega) hoff hs
    · exact clustersOn_refuseDomain n hs

theorem clustersOn_domReq (r : Requester) (a v : Nat) (hs : ClustersOn s) : ClustersOn (domReq r a v s) := by
  refine clustersOn_guarded hs fun t i o => ?_
  split
  · next ho =>
    have hreq : ClustersOn (setFk PWR_DOM_REQ 0 ((o - 0x100) / 4) v s) := hs.congr (domOn_setFk (by decide) (by decide) 0 _ v s)
    exact clustersOn_ite hreq (clustersOn_switchOff v 32 _ _ (by omega) hreq)
  · exact hs

/-! ### Switching on -/

theorem clustersOn_domainOn {n : Nat} (hn : n < 128) (hcl : 32 ≤ n ∨ domOn s (32 + n) = true) (hs : ClustersOn s) :
    ClustersOn (domainOn n s) := by
  intro rg hrg hon
  rw [(domainOn_spec n _ s hn (by omega)).1] at hon ⊢
  split
  · rfl
  · split at hon
    · next hrn => exact hrn ▸ hcl.resolve_left (by omega)
    · exact hs rg hrg hon

theorem clustersOn_domainSwitchDone (n : Nat) (hs : ClustersOn s) : ClustersOn (domainSwitchDone n s) := by
  unfold domainSwitchDone
  split
  · next h =>
    simp only [Bool.and_eq_true, Bool.or_eq_true, decide_eq_true_eq] at h
    exact clustersOn_domainOn h.1.1.1.1.1 h.2 hs
  · exact hs

theorem clustersOn_domainsOn : ∀ (l : List Nat) (s : State), (∀ n ∈ l, n < 128) → ClustersOn s → ClustersOn (domainsOn l s)
  | [], _, _, hs => hs
  | n :: l, s, hl, hs => by
    rw [domainsOn]
    refine clustersOn_domainsOn l _ (fun m hm => hl m (List.mem_cons_of_mem _ hm)) ?_
    split
    · next h =>
      simp only [Bool.and_eq_true, Bool.or_eq_true, decide_eq_true_eq] at h
      exact clustersOn_domainOn (hl n List.mem_cons_self) h.2 hs
    · exact hs

theorem clustersOn_linksNeeded : ∀ (k : Nat) (s : State), k ≤ 8 → ClustersOn s → ClustersOn (linksNeeded k s)
  | 0, _, _, hs => hs
  | k + 1, s, hk, hs => by
    have ih := clustersOn_linksNeeded k s (by omega) hs
    rw [linksNeeded]
    exact clustersOn_ite ih (clustersOn_refuseDomain _ (clustersOn_domainOn (by omega) (.inl (by omega)) ih))

/-! ### Low-power states -/

theorem clustersOn_setState (v : Nat) (hs : ClustersOn s) : ClustersOn (setEvt PWR_EV_STATE_DONE 0 (setF PWR_STAT_STATE 0 v s)) :=
  hs.congr fun n => by rw [domOn_setEvt (by decide) (by decide), domOn_setF (by decide) (by decide)]

theorem clustersOn_refuseState (hs : ClustersOn s) : ClustersOn (refuseState s) :=
  hs.congr ((refuseState_keeps (Has.refl _) (Keeps.refl _ s)).sameDomains (by decide))

theorem clustersOn_enterIdle (hs : ClustersOn s) : ClustersOn (enterIdle s) :=
  clustersOn_ite hs (clustersOn_ite (clustersOn_refuseState hs)
    (clustersOn_setState 1 (clustersOn_domainsOff (by decide) (by decide) hs)))

theorem clustersOn_leaveIdle (hs : ClustersOn s) : ClustersOn (leaveIdle s) :=
  clustersOn_ite (clustersOn_setState 0 (clustersOn_domainsOn _ _ (by decide) (clustersOn_linksNeeded 8 _ (Nat.le_refl 8)
    (clustersOn_domainsOn _ _ (by decide) hs)))) hs

theorem clustersOn_enterStandby (hs : ClustersOn s) : ClustersOn (enterStandby s) :=
  have hoff : ClustersOn (domainsOff (List.range 128) s) := 
    clustersOn_domainsOff (fun _ => List.mem_range.1) (fun _ hrg _ => List.mem_range.2 (by omega)) hs
  clustersOn_ite hs (clustersOn_ite (clustersOn_refuseState hs)
    (clustersOn_setState 2 (s := { domainsOff (List.range 128) s with mem := [], poison := [], mcs := [] }) hoff))

theorem clustersOn_stateReq (r : Requester) (a v want : Nat) {f : State → State} (hf : ∀ u, ClustersOn u → ClustersOn (f u))
    (hs : ClustersOn s) : ClustersOn (stateReq r a v want f s) :=
  clustersOn_guarded hs fun _ _ _ => clustersOn_ite (hf _ (hs.congr (domOn_setF (by decide) (by decide) _ _ _))) hs

/-! ### The fault reaction and the resets C and P -/

theorem clustersOn_faultReaction (cause source value : Nat) (hs : ClustersOn s) : ClustersOn (faultReaction cause source value s) := by
  have hlog : ∀ u, ClustersOn u → ClustersOn (logFault cause source value u) := fun u hu =>
    hu.congr ((logFault_keeps (Has.refl _) cause source value (Keeps.refl _ u)).sameDomains (by decide))
  unfold faultReaction
  refine clustersOn_ite (hlog s hs) (hlog _ (clustersOn_domainsOff (by decide) (by decide) (hs.congr fun n => ?_)))
  calc
    _ = domOn (tallyFlushAll _) n := (quiesceMcs_keeps (Has.refl _) 16 (Keeps.refl _ _)).sameDomains (by decide) n
    _ = domOn (setF BRKW_STAT_FAULT 0 1 (setF BRKW_STAT_CAUSE 0 cause { s with faultN := true })) n :=
      (tallyFlushAll_keeps (Has.refl _) (Keeps.refl _ _)).sameDomains (by decide) n
    _ = domOn s n := by rw [domOn_setF (by decide) (by decide), domOn_setF (by decide) (by decide)]; rfl

/-- A reset that restores DOM_STAT switches every domain on. -/
theorem clustersOn_restoreFlds {rc : Cls} (hc : PWR_DOM_STAT.cls.contains rc = true) (s : State) :
    ClustersOn (restoreFlds rc everywhere s) := fun _ _ _ =>
  domOn_of_domStat_reset (by rw [getFk_restoreFlds mem_fldsOf_domStat, if_pos hc])

theorem clustersOn_coldNow (s : State) : ClustersOn (coldNow s) := clustersOn_restoreFlds (rc := .c) (by decide) (otpCut (tallyFlushAll s))

theorem clustersOn_platformNow (s : State) : ClustersOn (platformNow s) :=
  clustersOn_restoreFlds (rc := .p) (by decide) (clearWips (allJobs s) (tallyFlushAll s))

theorem clustersOn_holdReset (rc : Cls) {now : State → State} (hnow : ClustersOn (now s)) (hs : ClustersOn s) :
    ClustersOn (holdReset rc now s) :=
  clustersOn_ite hnow (clustersOn_ite hs hs)

theorem clustersOn_coldReset (hs : ClustersOn s) : ClustersOn (coldReset s) :=
  clustersOn_ite hs (clustersOn_holdReset .c (clustersOn_coldNow s) hs)

theorem clustersOn_platformReset (hs : ClustersOn s) : ClustersOn (platformReset s) :=
  clustersOn_ite hs (clustersOn_holdReset .p (clustersOn_platformNow s) hs)

theorem clustersOn_faultResetRelease (hs : ClustersOn s) : ClustersOn (faultResetRelease s) := by
  unfold faultResetRelease
  dsimp only
  split
  · exact clustersOn_coldNow _
  · exact clustersOn_platformNow _
  · exact hs

theorem clustersOn_railResetTrip (r mv : Nat) (hs : ClustersOn s) : ClustersOn (railResetTrip r mv s) := by
  unfold railResetTrip
  split
  · exact hs
  · exact clustersOn_ite (clustersOn_coldReset (clustersOn_faultReaction 1 r mv hs)) hs

theorem clustersOn_tempTrip (i c : Nat) (hs : ClustersOn s) : ClustersOn (tempTrip i c s) := by
  unfold tempTrip
  split
  · exact clustersOn_ite (clustersOn_faultReaction 2 i c hs) hs
  · exact hs

/-! ### Every command -/

/-- The commands in whose frame DOM_STAT stands are named; every other command leaves the domains alone. -/
theorem exec_keeps_clustersOn {c : Instr} (he : exec c s = .next t) (hs : ClustersOn s) : ClustersOn t := by
  have framed : (frameOf c).1.testBit 465 = false → ClustersOn t := fun hw => hs.congr ((exec_keeps_frameOf he).sameDomains hw)
  cases c with
  | regWrite r a v size =>
    cases he
    exact clustersOn_regWrite r a v size hs
  | errInfoClear r a v =>
    cases he
    exact clustersOn_ite (clustersOn_guarded hs fun _ _ _ => hs.congr (domOn_errWrite _ _ _ s)) hs
  | rcRead r a inc => cases he; exact hs.congr (domOn_busRead r a inc s)
  | loReadLatch r a => cases he; exact hs.congr (domOn_busRead r a 0 s)
  | linkReset => cases he; exact hs.congr (domOn_linkReset s)
  | functionLevelReset fn => cases he; exact hs.congr (domOn_functionLevelReset fn s)
  | islandRst r a v =>
    cases he
    exact clustersOn_guarded hs fun _ _ _ =>
      clustersOn_ite (clustersOn_ite (hs.congr (domOn_seqReset _ s)) (hs.congr (domOn_unitReset _ s))) hs
  | domReq r a v => cases he; exact clustersOn_domReq r a v hs
  | domainSwitchDone n => cases he; exact clustersOn_ite hs (clustersOn_ite hs (clustersOn_domainSwitchDone n hs))
  | deepIdle r a v => cases he; exact clustersOn_stateReq r a v 1 (fun _ => clustersOn_enterIdle) hs
  | deepIdleExit r a v => cases he; exact clustersOn_stateReq r a v 0 (fun _ => clustersOn_leaveIdle) hs
  | standby r a v => cases he; exact clustersOn_stateReq r a v 2 (fun _ => clustersOn_enterStandby) hs
  | coldReset => cases he; exact clustersOn_coldReset hs
  | platformReset => cases he; exact clustersOn_platformReset hs
  | railResetTrip r mv => cases he; exact clustersOn_railResetTrip r mv hs
  | faultResetRelease => cases he; exact clustersOn_faultResetRelease hs
  | tempTrip k c => cases he; exact clustersOn_tempTrip k c hs
  | watchdogExpire p => cases he; exact clustersOn_ite hs (clustersOn_ite (clustersOn_faultReaction 3 p 0 hs) hs)
  | pairLockstep p =>
    cases he
    exact clustersOn_ite hs (clustersOn_ite hs (clustersOn_faultReaction 4 p 0 hs))
  | residueMismatch cl again =>
    cases he
    exact clustersOn_ite hs (clustersOn_ite (clustersOn_faultReaction 5 cl 0 hs) (hs.congr (domOn_setF (f := BRKW_RESIDUE_REPEAT) (by decide) (by decide) 0 _ s)))
  | forceFault r a v =>
    cases he
    exact clustersOn_guarded hs fun _ _ _ => clustersOn_ite (clustersOn_faultReaction 7 0 0 hs) hs
  | _ => exact framed (by dsimp only [frameOf]; rfl)

/-- A step idles or runs the command at the front of the queue. -/
theorem step_idle_or_exec (h : step s = .next t) : t = s ∨ ∃ c rest, exec c { s with pending := rest } = .next t := by
  unfold step at h
  split at h
  · cases h
    exact .inl rfl
  · exact .inr ⟨_, _, h⟩

theorem step_keeps_clustersOn (h : step s = .next t) (hs : ClustersOn s) : ClustersOn t := by
  obtain rfl | ⟨c, rest, he⟩ := step_idle_or_exec h
  · exact hs
  · exact exec_keeps_clustersOn (s := { s with pending := rest }) he hs

/-- Settles O28: every command keeps the rule, so a tensor domain that goes off goes off from a state that meets it. -/
theorem tensorFollowsCluster : Obligations.TensorFollowsCluster := by
  unfold Obligations.TensorFollowsCluster
  intro s t hs ht
  exact ⟨step_keeps_clustersOn ht hs, fun rg hrg hon _ => hs rg hrg hon⟩

/-- Settles O29: DOM_STAT stands at its reset value. -/
theorem resetHasClustersOn : Obligations.ResetHasClustersOn := by
  unfold Obligations.ResetHasClustersOn
  exact fun _ _ _ => domOn_of_domStat_reset (getFk_reset ..)

/-! ## The commands of power domains and states -/

/-- Settles O16: each clause from the frame and the effect of its command. -/
theorem powerDomainsAndStates : Obligations.PowerDomainsAndStates := by
  unfold Obligations.PowerDomainsAndStates
  refine ⟨?domainSwitchDone, ?domReq, ?domReqRefused, ?deepIdle, ?deepIdleRefused, ?deepIdleExit, ?standby, ?islandRst, ?islandRstSeq⟩
  case domainSwitchDone =>
    intro n s hr hst hn hw hoff hf hcl hp
    exact does_of_keeps rfl (execDomainSwitchDone_keeps (has_of_land (by decide +kernel)) n (Keeps.refl _ s) _ rfl)
      (domainSwitchDone_effect n s hr hst hn hw hoff hf hcl hp)
  case domReq =>
    intro r a v n s ht hg hn hv hon hmay hp
    exact does_of_keeps rfl (domReq_keeps (has_everyReg_append rfl) r a v (Keeps.refl _ s))
      (domReq_effect r a v n s ht hg hn hv hon hmay hp)
  case domReqRefused =>
    intro r a v n s ht hg hn hv hon hmay hp
    exact does_of_keeps rfl (domReq_keeps (has_everyReg_append rfl) r a v (Keeps.refl _ s))
      (domReqRefused_effect r a v n s ht hg hn hv hon hmay hp)
  case deepIdle =>
    intro r a v s ht hg hv hst href
    exact does_of_keeps rfl (execDeepIdle_keeps (has_everyReg_append rfl) r a v (Keeps.refl _ s) _ rfl)
      (deepIdle_effect r a v s ht hg hv hst href)
  case deepIdleRefused =>
    intro r a v s ht hg hv hst href
    exact does_of_keeps rfl (execDeepIdle_keeps (has_everyReg_append rfl) r a v (Keeps.refl _ s) _ rfl)
      (deepIdleRefused_effect r a v s ht hg hv hst href)
  case deepIdleExit =>
    intro r a v s ht hg hv hst
    exact does_of_keeps rfl (execDeepIdleExit_keeps (has_of_land (by decide +kernel)) r a v (Keeps.refl _ s) _ rfl)
      (deepIdleExit_effect r a v s ht hg hv hst)
  case standby =>
    intro r a v s ht hg hv hst href
    exact does_of_keeps rfl (execStandby_keeps (has_everyReg_append rfl) r a v (Keeps.refl _ s) _ rfl)
      (standby_effect r a v s ht hg hv hst href)
  case islandRst =>
    intro r a v s ht hg hv hfences
    exact does_of_keeps rfl (islandRst_keeps (has_everyReg_append rfl) r a v (Keeps.refl _ s))
      (islandRst_effect r a v s ht hg hv hfences)
  case islandRstSeq =>
    intro r a v s ht hg hv
    exact does_of_keeps rfl (islandRst_keeps (has_everyReg_append rfl) r a v (Keeps.refl _ s))
      (islandRstSeq_effect r a v s ht hg hv)

end Sys2Proof.Machine
end

section
/-! Proofs of the statements of 02_training_step.md: owner work, the collective engine's transfers, and steps that open and close. -/

namespace Sys2Proof.Machine

/-- A command that answers `t` and meets `P` there, and whose every answer moves no part but those of `w`, does what a clause says. -/
theorem does_of_next {c : Instr} {s t : State} {w : List Part} {P : State → Prop} (he : exec c s = .next t)
    (hk : ∀ t₁, exec c s = .next t₁ → Keeps (maskOf w) s t₁) (hp : P t) : Does c s w P :=
  does_of_keeps he (hk t he) hp

/-! ## Owner work -/

/-- Settles O39: each clause from the frame and the effect of its command. -/
theorem ownerSums : Obligations.OwnerSums := by
  unfold Obligations.OwnerSums
  refine ⟨?partialAdd, ?partialAddAbsent, ?partialAddOwn, ?sumClose, ?sumFrozen, ?precondition, ?notice, ?stopped⟩
  case partialAdd =>
    intro c n g own st b r x A s haw hblk harmed hph hstall hmb hreplay hown hsrc habsent hclosed hacc
    exact does_of_next rfl (execPartialAdd_keeps (has_of_land (by decide +kernel)) c n g own (Keeps.refl _ s))
      (partialAdd_effect c n g own st b r x A s haw hblk harmed hph hstall hmb hreplay hown hsrc habsent hclosed hacc)
  case partialAddAbsent =>
    intro c n g own st b r x s haw hblk harmed hph hstall hmb hreplay hown hsrc habsent
    exact does_of_next rfl (execPartialAdd_keeps (has_of_land (by decide +kernel)) c n g own (Keeps.refl _ s))
      (partialAddAbsent_effect c n g own st b r x s haw hblk harmed hph hstall hmb hreplay hown hsrc habsent)
  case partialAddOwn =>
    intro c n g own st b T A s haw hblk harmed hph hstall hmb hreplay hown hpos hserved hload hacc
    exact does_of_next rfl (execPartialAdd_keeps (has_of_land (by decide +kernel)) c n g own (Keeps.refl _ s))
      (partialAddOwn_effect c n g own st b T A s haw hblk harmed hph hstall hmb hreplay hown hpos hserved hload hacc)
  case sumClose =>
    intro c n g st b A s haw hblk hsum hstall hacc hfrozen hfin
    exact does_of_next rfl (execOwnerSumClose_keeps (has_of_land (by decide +kernel)) c n g (Keeps.refl _ s))
      (ownerSumClose_effect c n g st b A s haw hblk hsum hstall hacc hfrozen hfin)
  case sumFrozen =>
    intro c n g st b A s haw hblk hsum hstall hacc hfrozen hnext
    exact does_of_next rfl (execOwnerSumClose_keeps (has_of_land (by decide +kernel)) c n g (Keeps.refl _ s))
      (ownerSumFrozen_effect c n g st b A s haw hblk hsum hstall hacc hfrozen hnext)
  case precondition =>
    intro c n g hdr us st b T G s haw hblk hph hready hdue hreplay hnf hroots hacc hside hfive hcode
    exact does_of_next rfl (execPrecondition_keeps (has_of_land (by decide +kernel)) c n ⟨g, hdr, us⟩ (Keeps.refl _ s))
      (precondition_effect c n g hdr us st b T G s haw hblk hph hready hdue hreplay hnf hroots hacc hside hfive hcode)
  case notice =>
    intro c n g hdr us st b s haw hblk hph hready hdue hnotice
    exact does_of_next rfl (execPrecondition_keeps (has_of_land (by decide +kernel)) c n ⟨g, hdr, us⟩ (Keeps.refl _ s))
      (preconditionNotice_effect c n g hdr us st b s haw hblk hph hready hdue hnotice)
  case stopped =>
    intro c n g hdr us st b s haw hblk hph hready hdue hreplay hnf hcode
    exact does_of_next rfl (execPrecondition_keeps (has_of_land (by decide +kernel)) c n ⟨g, hdr, us⟩ (Keeps.refl _ s))
      (preconditionStopped_effect c n g hdr us st b s haw hblk hph hready hdue hreplay hnf hcode)

/-- Settles O40: each clause from the frame and the effect of its command. -/
theorem ownerCommits : Obligations.OwnerCommits := by
  unfold Obligations.OwnerCommits
  refine ⟨?commit, ?mirrorSend, ?factorUpdate⟩
  case commit =>
    intro c n g st b T s haw hblk hph hready hckpt hbuf hreplay hstop hfin hauto
    exact does_of_next rfl (execCommit_keeps (has_of_land (by decide +kernel)) c n g (Keeps.refl _ s))
      (commit_effect c n g st b T s haw hblk hph hready hckpt hbuf hreplay hstop hfin hauto)
  case mirrorSend =>
    intro c n g st b T s haw hblk hph hready hmirror hbuf hmembers
    exact does_of_next rfl (execMirrorSend_keeps (has_of_land (by decide +kernel)) c n g (Keeps.refl _ s))
      (mirrorSend_effect c n g st b T s haw hblk hph hready hmirror hbuf hmembers)
  case factorUpdate =>
    intro c n g us st b T G new s haw hblk hph hready hctx hbuf hreplay hacc hnew hformed hdue hnext
    exact does_of_next rfl (execFactorUpdate_keeps (has_of_land (by decide +kernel)) c n ⟨g, us⟩ (Keeps.refl _ s))
      (factorUpdate_effect c n g us st b T G new s haw hblk hph hready hctx hbuf hreplay hacc hnew hformed hdue hnext)

/-! ## The collective engine's transfers -/

/-- Settles O48: each clause from the frame and the effect of its command. -/
theorem collectiveTransfers : Obligations.CollectiveTransfers := by
  unfold Obligations.CollectiveTransfers
  refine ⟨?recv, ?recvInvalid, ?send, ?gather, ?turnEarly, ?turnPart, ?turnLast, ?turnStale, ?doneFrame, ?releaseFrame, ?earlyArea⟩
  case recv =>
    intro c flag k n d rest st s haw hen hhalt hpause hposts hstep hop hcode hearly hlost
    exact does_of_next rfl (execRecv_keeps (has_of_land (by decide +kernel)) ⟨c, flag, k⟩ (Keeps.refl _ s))
      (recv_effect c flag k n d rest st s haw hen hhalt hpause hposts hstep hop hcode hearly hlost)
  case recvInvalid =>
    intro c flag k n d rest st s haw hen hhalt hpause hposts hstep hcode
    exact does_of_next rfl (execRecv_keeps (has_of_land (by decide +kernel)) ⟨c, flag, k⟩ (Keeps.refl _ s))
      (recvInvalid_effect c flag k n d rest st s haw hen hhalt hpause hposts hstep hcode)
  case send =>
    intro c room k n enc d rest st peers all held free w v s haw hruns hpause hkind hlist hstep hcode hopen hgrant hw hpeers hall hheld hfree hsent hnew
    exact does_of_next rfl (execSend_keeps (has_of_land (by decide +kernel)) ⟨c, room, k, enc⟩ (Keeps.refl _ s))
      (send_effect c room k n enc d rest st peers all held free w v s haw hruns hpause hkind hlist hstep hcode hopen hgrant hw hpeers hall hheld hfree
        hsent hnew)
  case gather =>
    intro c n cid g st x now v s haw hen hpause hstep hfind hnow hsome hsent
    exact does_of_next rfl (execGatherBlockSend_keeps (has_of_land (by decide +kernel)) c n cid g (Keeps.refl _ s))
      (gatherBlockSend_effect c n cid g st x now v s haw hen hpause hstep hfind hnow hsome hsent)
  case turnEarly =>
    intro f r s haw hinbox habove
    exact does_of_next rfl (execCollTurnFrame_keeps (has_of_land (by decide +kernel)) (Keeps.refl _ s))
      (turnEarly_effect f r s haw hinbox habove)
  case turnPart =>
    intro f r q x y s haw hinbox habove hrecv hkind hturn hfind hcarry hy hfull
    exact does_of_next rfl (execCollTurnFrame_keeps (has_of_land (by decide +kernel)) (Keeps.refl _ s))
      (turnPart_effect f r q x y s haw hinbox habove hrecv hkind hturn hfind hcarry hy hfull)
  case turnLast =>
    intro f r q x y s haw hinbox habove hrecv hkind hturn hfind hcarry hy hfull habsent
    exact does_of_next rfl (execCollTurnFrame_keeps (has_of_land (by decide +kernel)) (Keeps.refl _ s))
      (turnLast_effect f r q x y s haw hinbox habove hrecv hkind hturn hfind hcarry hy hfull habsent)
  case turnStale =>
    intro f r s haw hinbox habove hrecv
    exact does_of_next rfl (execCollTurnFrame_keeps (has_of_land (by decide +kernel)) (Keeps.refl _ s))
      (turnStale_effect f r s haw hinbox habove hrecv)
  case doneFrame =>
    intro f r x y l i s haw hinbox habove htake hi hy hunique
    exact does_of_next rfl (execDoneFrame_keeps (has_of_land (by decide +kernel)) (Keeps.refl _ s))
      (doneFrame_effect f r x y l i s haw hinbox habove htake hi hy hunique)
  case releaseFrame =>
    intro f r q x s haw hinbox habove hrecv hfind hkind hclosed
    exact does_of_next rfl (execReleaseFrame_keeps (has_of_land (by decide +kernel)) (Keeps.refl _ s))
      (releaseFrame_effect f r q x s haw hinbox habove hrecv hfind hkind hclosed)
  case earlyArea =>
    intro hclk s haw
    exact does_of_next rfl (execEarlyAreaAdmit_keeps (has_of_land (by decide +kernel)) hclk (Keeps.refl _ s))
      (earlyAreaAdmit_effect hclk s haw)

/-! ## Steps that open and close -/

/-- Settles O54: no clause meets the wrap of the step number, and each follows from the frame and the effect of its command. -/
theorem stepsOpenAndClose : Obligations.StepsOpenAndClose := by
  unfold Obligations.StepsOpenAndClose
  refine ⟨?waiting, ?held, ?badRecord, ?badTable, ?opens, ?replayMissing, ?deferredNone, ?deferredOpen, ?replayOff, ?replayIdle, ?replayOpen,
    ?closeNotYet, ?closes⟩
  case waiting =>
    intro h s haw hwait
    exact does_of_next (execStepOpen_waiting hwait) (execStepOpen_keeps (has_of_land (by decide +kernel)) h (Keeps.refl _ s))
      (stepOpenWaiting_effect h s haw hwait)
  case held =>
    intro h s haw hready hwait hmay
    exact does_of_next (execStepOpen_next (stepWraps_held hmay)) (execStepOpen_keeps (has_of_land (by decide +kernel)) h (Keeps.refl _ s))
      (stepOpenHeld_effect h s haw hready hwait hmay)
  case badRecord =>
    intro h e raw ts ok z w s haw hready hwait hmay hwrap he hz hjudge hbad
    exact does_of_next (execStepOpen_next hwrap) (execStepOpen_keeps (has_of_land (by decide +kernel)) h (Keeps.refl _ s))
      (stepBadRecord_effect h e raw ts ok z w s haw hready hwait hmay hwrap he hz hjudge hbad)
  case badTable =>
    intro h e raw ts ok z w s haw hready hwait hmay hwrap he hz hjudge hgood hok
    exact does_of_next (execStepOpen_next hwrap) (execStepOpen_keeps (has_of_land (by decide +kernel)) h (Keeps.refl _ s))
      (stepBadTable_effect h e raw ts ok z w s haw hready hwait hmay hwrap he hz hjudge hgood hok)
  case opens =>
    intro h e o z v s haw hready hwait hmay hwrap he hz hopens
    exact does_of_next (execStepOpen_next hwrap) (execStepOpen_keeps (has_of_land (by decide +kernel)) h (Keeps.refl _ s))
      (stepOpen_effect h e o z v s haw hready hwait hmay hwrap he hz hopens)
  case replayMissing =>
    intro h e raw ts z w v s haw hready hwait hmay hwrap he hz hjudge hgood hseed hreplay hmissing
    exact does_of_next (execStepOpen_next hwrap) (execStepOpen_keeps (has_of_land (by decide +kernel)) h (Keeps.refl _ s))
      (replayMissing_effect h e raw ts z w v s haw hready hwait hmay hwrap he hz hjudge hgood hseed hreplay hmissing)
  case deferredNone =>
    intro h s haw hnone
    exact does_of_next (execStepOpenDeferred_none hnone) (execStepOpenDeferred_keeps (has_of_land (by decide +kernel)) h (Keeps.refl _ s))
      (deferredNone_effect h s haw hnone)
  case deferredOpen =>
    intro h e o z v s haw hwait hmay hwrap he hz hopens
    exact does_of_next (execStepOpenDeferred_next hwrap) (execStepOpenDeferred_keeps (has_of_land (by decide +kernel)) h (Keeps.refl _ s))
      (deferredOpen_effect h e o z v s haw hwait hmay hwrap he hz hopens)
  case replayOff =>
    intro h s haw hoff
    exact does_of_next (execReplayRead_off hoff) (execReplayRead_keeps (has_of_land (by decide +kernel)) h (Keeps.refl _ s))
      (replayOff_effect h s haw hoff)
  case replayIdle =>
    intro h s haw hnone
    exact does_of_next (execReplayRead_none hnone) (execReplayRead_keeps (has_of_land (by decide +kernel)) h (Keeps.refl _ s))
      (replayIdle_effect h s haw hnone)
  case replayOpen =>
    intro h e o z v s haw hreplay hwait hmay hwrap he hz hopens
    exact does_of_next (execReplayRead_next hwrap) (execReplayRead_keeps (has_of_land (by decide +kernel)) h (Keeps.refl _ s))
      (replayOpen_effect h e o z v s haw hreplay hwait hmay hwrap he hz hopens)
  case closeNotYet =>
    intro c n st s haw hstep hcloses
    exact does_of_next rfl (execStepClose_keeps (has_of_land (by decide +kernel)) c n (Keeps.refl _ s))
      (closeNotYet_effect c n st s haw hstep hcloses)
  case closes =>
    intro c n st s haw hstep hcloses
    exact does_of_next rfl (execStepClose_keeps (has_of_land (by decide +kernel)) c n (Keeps.refl _ s))
      (stepClose_effect c n st s haw hstep hcloses)

end Sys2Proof.Machine
end

section
/-! Proofs of the statements of 03_tensor_unit.md: descriptors on their way through a cluster, the tiles of a tensor unit and its fencing. -/

namespace Sys2Proof.Machine

/-! ## Descriptors of a cluster -/

/-- Settles O43: each clause from the frame and the effect of its command. -/
theorem descriptorListsAndQueues : Obligations.DescriptorListsAndQueues := by
  unfold Obligations.DescriptorListsAndQueues
  refine ⟨?listDesc, ?listHeader, ?listFault, ?matmul, ?take, ?takeWide, ?takeInvalid, ?complete, ?completeWide⟩
  case listDesc =>
    intro cl lid l s hrun hdom hlist hturn hhdr hidx hgroup
    exact does_of_next rfl (execListDescRead_keeps (has_of_land (by decide +kernel)) cl lid (Keeps.refl _ s))
      (listDescRead_effect cl lid l s hrun hdom hlist hturn hhdr hidx hgroup)
  case listHeader =>
    intro cl lid l s hrun hdom hlist hturn hhdr halign hend hcount hzero
    exact does_of_next rfl (execListDescRead_keeps (has_of_land (by decide +kernel)) cl lid (Keeps.refl _ s))
      (listHdrRead_effect cl lid l s hrun hdom hlist hturn hhdr halign hend hcount hzero)
  case listFault =>
    intro cl lid l s hrun hdom hlist hturn hhdr hidx hgroup hcode
    exact does_of_next rfl (execListDescRead_keeps (has_of_land (by decide +kernel)) cl lid (Keeps.refl _ s))
      (listFault_effect cl lid l s hrun hdom hlist hturn hhdr hidx hgroup hcode)
  case matmul =>
    intro cl lid n l d s hrun hdom hhand hn hopen hrank
    exact does_of_next rfl (execMatmulDescriptor_keeps (has_of_land (by decide +kernel)) cl lid n (Keeps.refl _ s))
      (matmulDescriptor_effect cl lid n l d s hrun hdom hhand hn hopen hrank)
  case take =>
    intro u q r s hrun hdom hidle hfence hen hlend hcq hbad hcode
    exact does_of_next rfl (execDescTake_keeps (has_of_land (by decide +kernel)) u (Keeps.refl _ s))
      (descTake_effect u q r s hrun hdom hidle hfence hen hlend hcq hbad hcode)
  case takeWide =>
    intro u q r s hrun hdom hidle hfence hen hready hlent hwq hcode
    exact does_of_next rfl (execDescTake_keeps (has_of_land (by decide +kernel)) u (Keeps.refl _ s))
      (descTakeWide_effect u q r s hrun hdom hidle hfence hen hready hlent hwq hcode)
  case takeInvalid =>
    intro u q r s hrun hdom hidle hfence hen hlend hcq hbad hcode herr
    exact does_of_next rfl (execDescTake_keeps (has_of_land (by decide +kernel)) u (Keeps.refl _ s))
      (descTakeInvalid_effect u q r s hrun hdom hidle hfence hen hlend hcq hbad hcode herr)
  case complete =>
    intro u q s hrun hdom hfence hwork hfloat htiles
    exact does_of_next rfl (execDescComplete_keeps (has_of_land (by decide +kernel)) u (Keeps.refl _ s))
      (descComplete_effect u q s hrun hdom hfence hwork hfloat htiles)
  case completeWide =>
    intro u q s hrun hdom hfence hwork hwide
    exact does_of_next rfl (execDescComplete_keeps (has_of_land (by decide +kernel)) u (Keeps.refl _ s))
      (descCompleteWide_effect u q s hrun hdom hfence hwork hwide)

/-! ## Tiles, fencing and adoption -/

/-- Settles O44: each clause from the frame and the effect of its command. -/
theorem tilesAndFencing : Obligations.TilesAndFencing := by
  unfold Obligations.TilesAndFencing
  refine ⟨?pass, ?enters, ?misses, ?missesAgain, ?uncorrectable, ?forceFence, ?resume, ?adopts, ?bufferEnter⟩
  case pass =>
    intro u q s hrun hdom hfloat hfmt hk
    exact does_of_next rfl (execChunkPassEnd_keeps (has_of_land (by decide +kernel)) u (Keeps.refl _ s))
      (chunkPassEnd_effect u q s hrun hdom hfloat hfmt hk)
  case enters =>
    intro u corr stall ahead fl q w v s hrun hdom hfence hwork hfloat htile hformed hholds hslot
    exact does_of_next rfl (execTileEnd_keeps (has_of_land (by decide +kernel)) u corr false fl ⟨stall, ahead⟩ (Keeps.refl _ s))
      (tileEnd_effect u corr stall ahead fl q w v s hrun hdom hfence hwork hfloat htile hformed hholds hslot)
  case misses =>
    intro u corr stall ahead fl q w row s hrun hdom hfence hwork hfloat htile hformed hmiss hfirst
    exact does_of_next rfl (execTileEnd_keeps (has_of_land (by decide +kernel)) u corr false fl ⟨stall, ahead⟩ (Keeps.refl _ s))
      (tileEndMiss_effect u corr stall ahead fl q w row s hrun hdom hfence hwork hfloat htile hformed hmiss hfirst)
  case missesAgain =>
    intro u corr stall ahead fl q w row s hrun hdom hfence hwork hfloat htile hformed hmiss hagain
    exact does_of_next rfl (execTileEnd_keeps (has_of_land (by decide +kernel)) u corr false fl ⟨stall, ahead⟩ (Keeps.refl _ s))
      (tileEndFence_effect u corr stall ahead fl q w row s hrun hdom hfence hwork hfloat htile hformed hmiss hagain)
  case uncorrectable =>
    intro u corr stall ahead fl s hrun hdom hfence
    exact does_of_next rfl (execTileEnd_keeps (has_of_land (by decide +kernel)) u corr true fl ⟨stall, ahead⟩ (Keeps.refl _ s))
      (tileEndUncorr_effect u corr stall ahead fl s hrun hdom hfence)
  case forceFence =>
    intro r a v i s ha ht hg hv hfence
    exact does_of_next rfl (execForceFence_keeps (has_of_land (by decide +kernel)) r a v (Keeps.refl _ s))
      (forceFence_effect r a v i s ha ht hg hv hfence)
  case resume =>
    intro r a v i s ha ht hg hv
    exact does_of_next rfl (execResume_keeps (has_of_land (by decide +kernel)) r a v (Keeps.refl _ s))
      (resume_effect r a v i s ha ht hg hv)
  case adopts =>
    intro cl f n s hrun hdom hcopy hfences hne hf hn hwork hroom
    exact does_of_next rfl (execAdoptCopyDone_keeps (has_of_land (by decide +kernel)) cl true (Keeps.refl _ s))
      (adoptCopyDone_effect cl f n s hrun hdom hcopy hfences hne hf hn hwork hroom)
  case bufferEnter =>
    intro cl q r s hrun hdom hbuf hroom
    exact does_of_next rfl (execAdoptionBufferEnter_keeps (has_of_land (by decide +kernel)) cl (Keeps.refl _ s))
      (adoptionBufferEnter_effect cl q r s hrun hdom hbuf hroom)

end Sys2Proof.Machine
end

section
/-! Proofs of the statements of 04_accumulation.md: folds of a reduction, scaled conversions, Spillway groups, and the stash. -/

namespace Sys2Proof.Machine

/-- Settles O45: each clause from the frame and the effect of its command. -/
theorem reductionsConversionsAndStash : Obligations.ReductionsConversionsAndStash := by
  unfold Obligations.ReductionsConversionsAndStash
  refine ⟨?fold, ?convert, ?convertInvalid, ?group, ?groupInvalid, ?encode, ?encodeInvalid, ?decode, ?decodeCorrupt, ?decodeLost⟩
  case fold =>
    intro cl dst part n k last s hrun hdom hplace
    exact does_of_next rfl (execReductionFold_keeps (has_of_land (by decide +kernel)) cl dst part n k last (Keeps.refl _ s))
      (reductionFold_effect cl dst part n k last s hrun hdom hplace)
  case convert =>
    intro cl lid l d s hrun hdom hhand hgood hfmt
    exact does_of_next rfl (execConversionDescriptor_keeps (has_of_land (by decide +kernel)) cl lid (Keeps.refl _ s))
      (conversionDescriptor_effect cl lid l d s hrun hdom hhand hgood hfmt)
  case convertInvalid =>
    intro cl lid l d s hrun hdom hhand hbad
    exact does_of_next rfl (execConversionDescriptor_keeps (has_of_land (by decide +kernel)) cl lid (Keeps.refl _ s))
      (conversionInvalid_effect cl lid l d s hrun hdom hhand hbad)
  case group =>
    intro cl lid l d s hrun hdom hhand hgood hreplay
    exact does_of_next rfl (execGroup_keeps (has_of_land (by decide +kernel)) cl lid (Keeps.refl _ s))
      (group_effect cl lid l d s hrun hdom hhand hgood hreplay)
  case groupInvalid =>
    intro cl lid l d s hrun hdom hhand hbad
    exact does_of_next rfl (execGroup_keeps (has_of_land (by decide +kernel)) cl lid (Keeps.refl _ s))
      (groupInvalid_effect cl lid l d s hrun hdom hhand hbad)
  case encode =>
    intro cl lid l d cs xss s hrun hdom hhand hgood hop hsrc hchans
    exact does_of_next rfl (execStashEncode_keeps (has_of_land (by decide +kernel)) cl lid (Keeps.refl _ s))
      (stashEncode_effect cl lid l d cs xss s hrun hdom hhand hgood hop hsrc hchans)
  case encodeInvalid =>
    intro cl lid l d s hrun hdom hhand hop hbad hfirst
    exact does_of_next rfl (execStashEncode_keeps (has_of_land (by decide +kernel)) cl lid (Keeps.refl _ s))
      (stashInvalid_effect cl lid l d s hrun hdom hhand hop hbad hfirst)
  case decode =>
    intro cl lid l d bs raws cs s hrun hdom hhand hgood hop hfmt hone htile hparts hok hkept hraw
    exact does_of_next rfl (execStashDecode_keeps (has_of_land (by decide +kernel)) cl lid (Keeps.refl _ s))
      (stashDecode_effect cl lid l d bs raws cs s hrun hdom hhand hgood hop hfmt hone htile hparts hok hkept hraw)
  case decodeCorrupt =>
    intro cl lid l d bs s hrun hdom hhand hgood hop hfmt hone htile hfails
    exact does_of_next rfl (execStashDecode_keeps (has_of_land (by decide +kernel)) cl lid (Keeps.refl _ s))
      (stashCorrupt_effect cl lid l d bs s hrun hdom hhand hgood hop hfmt hone htile hfails)
  case decodeLost =>
    intro cl lid l d bs s hrun hdom hhand hgood hop hfmt hone htile hok hlost
    exact does_of_next rfl (execStashDecode_keeps (has_of_land (by decide +kernel)) cl lid (Keeps.refl _ s))
      (stashLost_effect cl lid l d bs s hrun hdom hhand hgood hop hfmt hone htile hok hlost)

end Sys2Proof.Machine
end

section
/-! Proofs of the statements of 07_root_sequencer.md: the root sequencer's jobs, the publication of roots, due notices, lending and lockstep. -/

namespace Sys2Proof.Machine

/-! ## Jobs -/

/-- Settles O46: each clause from the frame and the effect of its command. -/
theorem rootJobs : Obligations.RootJobs := by
  unfold Obligations.RootJobs
  refine ⟨?scan, ?start, ?scratchSmall, ?pieceEnters, ?pieceUncorrectable, ?newton, ?panel, ?lastPanel, ?residualNewton, ?residualCholesky⟩
  case scan =>
    intro rg c b s hrun hdom hidle hrestart hen hfirst
    exact does_of_next rfl (execRootJobScan_keeps (has_of_land (by decide +kernel)) rg (Keeps.refl _ s))
      (rootJobScan_effect rg c b s hrun hdom hidle hrestart hen hfirst)
  case start =>
    intro rg j ts rs A B tr lam s hrun hdom hjob hen hfits hload hA htr hlam hB hright hweak
    exact does_of_next rfl (execRootJobStart_keeps (has_of_land (by decide +kernel)) rg (Keeps.refl _ s))
      (rootJobStart_effect rg j ts rs A B tr lam s hrun hdom hjob hen hfits hload hA htr hlam hB hright hweak)
  case scratchSmall =>
    intro rg j s hrun hdom hjob hen hsmall
    exact does_of_next rfl (execRootJobStart_keeps (has_of_land (by decide +kernel)) rg (Keeps.refl _ s))
      (rootJobReject_effect rg j s hrun hdom hjob hen hsmall)
  case pieceEnters =>
    intro rg u d st j w s hrun hdom hjob hen hregion hlend hroom hpiece hstages hread
    exact does_of_next rfl (execWideDescIssue_keeps (has_of_land (by decide +kernel)) rg u ⟨d, st, false⟩ (Keeps.refl _ s))
      (wideDescIssue_effect rg u d st j w s hrun hdom hjob hen hregion hlend hroom hpiece hstages hread)
  case pieceUncorrectable =>
    intro rg u d st j s hrun hdom hjob hen hregion hlend hroom hpiece hstages
    exact does_of_next rfl (execWideDescIssue_keeps (has_of_land (by decide +kernel)) rg u ⟨d, st, true⟩ (Keeps.refl _ s))
      (wideDescEcc_effect rg u d st j s hrun hdom hjob hen hregion hlend hroom hpiece hstages)
  case newton =>
    intro rg j X M T W Y s hrun hdom hready hX hM hT hW hY hweak
    exact does_of_next rfl (execNewtonIterationDone_keeps (has_of_land (by decide +kernel)) rg (Keeps.refl _ s))
      (newtonIterationDone_effect rg j X M T W Y s hrun hdom hready hX hM hT hW hY hweak)
  case panel =>
    intro rg j A M M1 l Y s hrun hdom hready hA hM hcols hY hmore hweak
    exact does_of_next rfl (execCholeskyPanelDone_keeps (has_of_land (by decide +kernel)) rg (Keeps.refl _ s))
      (choleskyPanel_effect rg j A M M1 l Y s hrun hdom hready hA hM hcols hY hmore hweak)
  case lastPanel =>
    intro rg j A M M1 l Y I X s hrun hdom hready hA hM hcols hY hlast hI hX hweak
    exact does_of_next rfl (execCholeskyPanelDone_keeps (has_of_land (by decide +kernel)) rg (Keeps.refl _ s))
      (choleskyLast_effect rg j A M M1 l Y I X s hrun hdom hready hA hM hcols hY hlast hI hX hweak)
  case residualNewton =>
    intro rg j A X M r s hrun hdom hready hcode hA hX hM hr hweak
    exact does_of_next rfl (execResidualCheck_keeps (has_of_land (by decide +kernel)) rg (Keeps.refl _ s))
      (residualNewton_effect rg j A X M r s hrun hdom hready hcode hA hX hM hr hweak)
  case residualCholesky =>
    intro rg j A L X r s hrun hdom hready hcode hA hL hX hr hweak
    exact does_of_next rfl (execResidualCheck_keeps (has_of_land (by decide +kernel)) rg (Keeps.refl _ s))
      (residualCholesky_effect rg j A L X r s hrun hdom hready hcode hA hL hX hr hweak)

/-! ## Publication, notices, lending and lockstep -/

/-- Settles O47: each clause from the frame and the effect of its command. -/
theorem rootPublicationAndNotices : Obligations.RootPublicationAndNotices := by
  unfold Obligations.RootPublicationAndNotices
  refine ⟨?convert, ?convertHeld, ?publish, ?noticeInTime, ?noticeLate, ?noticeRestarts, ?restartReply, ?lend, ?lockstep, ?lockstepIdle⟩
  case convert =>
    intro rg j s hrun hdom hjob hbooked hspare hheld hckpt
    exact does_of_next rfl (execRootConvert_keeps (has_of_land (by decide +kernel)) rg (Keeps.refl _ s))
      (rootConvert_effect rg j s hrun hdom hjob hbooked hspare hheld hckpt)
  case convertHeld =>
    intro rg j s hrun hdom hjob hbooked hheld
    exact does_of_next rfl (execRootConvert_keeps (has_of_land (by decide +kernel)) rg (Keeps.refl _ s))
      (rootConvertHeld_effect rg j s hrun hdom hjob hbooked hheld)
  case publish =>
    intro rg j s hrun hdom hfind
    exact does_of_next rfl (execRootPublish_keeps (has_of_land (by decide +kernel)) rg (Keeps.refl _ s))
      (rootPublish_effect rg j s hrun hdom hfind)
  case noticeInTime =>
    intro rg t rest x b s hrun hdom hnotice hrestart hstall hblk htime hwaits
    exact does_of_next rfl (execDueNotice_keeps (has_of_land (by decide +kernel)) rg (Keeps.refl _ s))
      (dueNoticeIdle_effect rg t rest x b s hrun hdom hnotice hrestart hstall hblk htime hwaits)
  case noticeLate =>
    intro rg t rest x b s hrun hdom hnotice hrestart hstall hblk hlate hwaits
    exact does_of_next rfl (execDueNotice_keeps (has_of_land (by decide +kernel)) rg (Keeps.refl _ s))
      (dueNoticeContinue_effect rg t rest x b s hrun hdom hnotice hrestart hstall hblk hlate hwaits)
  case noticeRestarts =>
    intro rg t rest x b s hrun hdom hnotice hrestart hstall hblk hlate hwaits
    exact does_of_next rfl (execDueNotice_keeps (has_of_land (by decide +kernel)) rg (Keeps.refl _ s))
      (dueNoticeRestart_effect rg t rest x b s hrun hdom hnotice hrestart hstall hblk hlate hwaits)
  case restartReply =>
    intro rg t x b s hrun hdom hrestart hwide hblk
    exact does_of_next rfl (execRestartReply_keeps (has_of_land (by decide +kernel)) rg (Keeps.refl _ s))
      (restartReply_effect rg t x b s hrun hdom hrestart hwide hblk)
  case lend =>
    intro rg v s hrun hdom hv
    exact does_of_next rfl (execLendSet_keeps (has_of_land (by decide +kernel)) rg (Keeps.refl _ s))
      (lendSet_effect rg v s hrun hdom hv)
  case lockstep =>
    intro rg j s hrun hdom hjob
    exact does_of_next rfl (execSeqLockstep_keeps (has_of_land (by decide +kernel)) rg (Keeps.refl _ s))
      (seqLockstep_effect rg j s hrun hdom hjob)
  case lockstepIdle =>
    intro rg s hrun hdom hidle
    exact does_of_next rfl (execSeqLockstep_keeps (has_of_land (by decide +kernel)) rg (Keeps.refl _ s))
      (seqLockstepIdle_effect rg s hrun hdom hidle)

end Sys2Proof.Machine
end

section
/-! Proofs of the statements of 08_stash.md: the host's commands ABORT, COPY, LIST_RUN and EXPORT. -/

namespace Sys2Proof.Machine

/-- Settles O53: each clause from the frame and the effect of its command. -/
theorem hostCommandsDone : Obligations.HostCommandsDone := by
  unfold Obligations.HostCommandsDone
  refine ⟨?abortOther, ?abortDead, ?abortStarted, ?abortEnds, ?copyIn, ?copyInMiss, ?copyOut, ?copyWithin, ?copyWithinMiss, ?listRun, ?exportOpen,
    ?exports⟩
  case abortOther =>
    intro h k s hrun hready hk hctx
    exact does_of_next rfl (execAbort_keeps (has_of_land (by decide +kernel)) h (Keeps.refl _ s))
      (abortOther_effect h k s hrun hready hk hctx)
  case abortDead =>
    intro h k s hrun hready hk hctx hdead
    exact does_of_next rfl (execAbort_keeps (has_of_land (by decide +kernel)) h (Keeps.refl _ s))
      (abortGone_effect h k s hrun hready hk hctx hdead)
  case abortStarted =>
    intro h k s hrun hready hk hctx hlive hstarted
    exact does_of_next rfl (execAbort_keeps (has_of_land (by decide +kernel)) h (Keeps.refl _ s))
      (abortStarted_effect h k s hrun hready hk hctx hlive hstarted)
  case abortEnds =>
    intro h k s hrun hready hk hctx hlive hwaits
    exact does_of_next rfl (execAbort_keeps (has_of_land (by decide +kernel)) h (Keeps.refl _ s))
      (abort_effect h k s hrun hready hk hctx hlive hwaits)
  case copyIn =>
    intro h e hd data s haw hready he hdir hdata hhit hgrant
    exact does_of_next rfl (execCopy_keeps (has_of_land (by decide +kernel)) h hd (Keeps.refl _ s))
      (copyIn_effect h e hd data s haw hready he hdir hdata hhit hgrant)
  case copyInMiss =>
    intro h e hd data l s haw hready he hdir hdata hmiss hgrant
    exact does_of_next rfl (execCopy_keeps (has_of_land (by decide +kernel)) h hd (Keeps.refl _ s))
      (copyInMiss_effect h e hd data l s haw hready he hdir hdata hmiss hgrant)
  case copyOut =>
    intro h e hd data s haw hready he hdir hread hgrant hweak
    exact does_of_next rfl (execCopy_keeps (has_of_land (by decide +kernel)) h hd (Keeps.refl _ s))
      (copyOut_effect h e hd data s haw hready he hdir hread hgrant hweak)
  case copyWithin =>
    intro h e hd data s haw hready he hdir hread hhit hgrant hweak
    exact does_of_next rfl (execCopy_keeps (has_of_land (by decide +kernel)) h hd (Keeps.refl _ s))
      (copyWithin_effect h e hd data s haw hready he hdir hread hhit hgrant hweak)
  case copyWithinMiss =>
    intro h e hd data l s haw hready he hdir hread hmiss hgrant hweak
    exact does_of_next rfl (execCopy_keeps (has_of_land (by decide +kernel)) h hd (Keeps.refl _ s))
      (copyWithinMiss_effect h e hd data l s haw hready he hdir hread hmiss hgrant hweak)
  case listRun =>
    intro h bs s haw hready hread hweak
    exact does_of_next rfl (execListRun_keeps (has_of_land (by decide +kernel)) h (Keeps.refl _ s))
      (listRun_effect h bs s haw hready hread hweak)
  case exportOpen =>
    intro h s haw hready hopen hgrant
    exact does_of_next rfl (execExportCmd_keeps (has_of_land (by decide +kernel)) h (Keeps.refl _ s))
      (exportOpen_effect h s haw hready hopen hgrant)
  case exports =>
    intro h bs s haw hready hclosed hbytes hgrant hweak
    exact does_of_next rfl (execExportCmd_keeps (has_of_land (by decide +kernel)) h (Keeps.refl _ s))
      (exportCmd_effect h bs s haw hready hclosed hbytes hgrant hweak)

end Sys2Proof.Machine
end

section
/-! Proofs of the statements of 09_memory.md: memory requests and Weirs, repair and maintenance, the Sluices, and the throttle steps. -/

namespace Sys2Proof.Machine

/-! ## Memory requests and Weirs -/

/-- Settles O2: each clause from the frame and the effect of its command. -/
theorem memoryRequestsAndWeirs : Obligations.MemoryRequestsAndWeirs := by
  unfold Obligations.MemoryRequestsAndWeirs
  refine ⟨?issued, ?misses, ?weirAdmits, ?cleanRead, ?fullWrite, ?scrubPassEnds⟩
  case issued =>
    intro d ctx cls a write copy data tag chan page off s haw hhit hroom
    exact does_of_next rfl (execMemRequest_keeps (has_of_land (by decide +kernel)) d ctx cls a write copy data tag (Keeps.refl _ s))
      (memRequest_effect d ctx cls a write copy data tag chan page off s haw hhit hroom)
  case misses =>
    intro d ctx cls a write copy data tag p s haw hmiss hroom
    exact does_of_next rfl (execMemRequest_keeps (has_of_land (by decide +kernel)) d ctx cls a write copy data tag (Keeps.refl _ s))
      (memRequestMiss_effect d ctx cls a write copy data tag p s haw hmiss hroom)
  case weirAdmits =>
    intro m p dt q rest s hrun hdom hmode hfirst hstack hroom htoken hlevel
    exact does_of_next rfl (execWeirAdmit_keeps (has_of_land (by decide +kernel)) m p dt (Keeps.refl _ s))
      (weirAdmit_effect m p dt q rest s hrun hdom hmode hfirst hstack hroom htoken hlevel)
  case cleanRead =>
    intro chan ecc q rest k s hrun hdom hserved hplace hpoison hclean
    exact does_of_next rfl (execMemRead_keeps (has_of_land (by decide +kernel)) chan ecc (Keeps.refl _ s))
      (memRead_effect chan ecc q rest k s hrun hdom hserved hplace hpoison hclean)
  case fullWrite =>
    intro chan q rest k s hrun hdom hserved hplace hfull
    exact does_of_next rfl (execMemWrite_keeps (has_of_land (by decide +kernel)) chan (Keeps.refl _ s))
      (memWrite_effect chan q rest k s hrun hdom hserved hplace hfull)
  case scrubPassEnds =>
    intro m chan page off ecc written passEnd q rest s hrun hdom hscrub hen hstack hend hserved
    exact does_of_next rfl (execScrubRead_keeps (has_of_land (by decide +kernel)) m chan page off ecc written passEnd (Keeps.refl _ s))
      (scrubRead_effect m chan page off ecc written passEnd q rest s hrun hdom hscrub hen hstack hend hserved)

/-! ## Repair, retraining and maintenance -/

/-- Settles O3: each clause from the frame and the effect of its command. -/
theorem memoryRepairAndMaintenance : Obligations.MemoryRepairAndMaintenance := by
  unfold Obligations.MemoryRepairAndMaintenance
  refine ⟨?remaps, ?retires, ?retrainStarts, ?retrainEnds, ?retrainTimesOut, ?maint, ?windowStarts, ?fieldRepair, ?windowEnds, ?parkStall,
    ?imports, ?exports⟩
  case remaps =>
    intro m bad c rest src s hrun hdom hcopy hstack hplace
    exact does_of_next rfl (execRemapCopyDone_keeps (has_of_land (by decide +kernel)) m bad (Keeps.refl _ s))
      (remapCopyDone_effect m bad c rest src s hrun hdom hcopy hstack hplace)
  case retires =>
    intro m bad c rest s hrun hdom hcopy hstack
    exact does_of_next rfl (execRetireCopyDone_keeps (has_of_land (by decide +kernel)) m bad (Keeps.refl _ s))
      (retireCopyDone_effect m bad c rest s hrun hdom hcopy hstack)
  case retrainStarts =>
    intro m ch s hrun hdom hretrain hen hidle hparked hnone
    exact does_of_next rfl (execRetrainDue_keeps (has_of_land (by decide +kernel)) m ch (Keeps.refl _ s))
      (retrainDue_effect m ch s hrun hdom hretrain hen hidle hparked hnone)
  case retrainEnds =>
    intro m s hrun hdom hretraining
    exact does_of_next rfl (execRetrainDone_keeps (has_of_land (by decide +kernel)) m (Keeps.refl _ s))
      (retrainDone_effect m s hrun hdom hretraining)
  case retrainTimesOut =>
    intro m s hrun hdom hretraining
    exact does_of_next rfl (execRetrainTimeout_keeps (has_of_land (by decide +kernel)) m (Keeps.refl _ s))
      (retrainTimeout_effect m s hrun hdom hretraining)
  case maint =>
    intro h s hrun hready hnone
    exact does_of_next rfl (execMaint_keeps (has_of_land (by decide +kernel)) h (Keeps.refl _ s))
      (maint_effect h s hrun hready hnone)
  case windowStarts =>
    intro w s haw hwindow hheld hclosed
    exact does_of_next rfl (execMaintWindowStart_keeps (has_of_land (by decide +kernel)) (Keeps.refl _ s))
      (maintWindowStart_effect w s haw hwindow hheld hclosed)
  case fieldRepair =>
    intro m spareLeft bad chan row page s hrun hdom hrepair hspare hstage
    exact does_of_next rfl (execFieldRepairDone_keeps (has_of_land (by decide +kernel)) m ⟨spareLeft, bad⟩ (Keeps.refl _ s))
      (fieldRepairDone_effect m spareLeft bad chan row page s hrun hdom hrepair hspare hstage)
  case windowEnds =>
    intro ms w s haw hwindow hstarted hnone hover
    exact does_of_next rfl (execMaintWindowEnd_keeps (has_of_land (by decide +kernel)) ms (Keeps.refl _ s))
      (maintWindowEnd_effect ms w s haw hwindow hstarted hnone hover)
  case parkStall =>
    intro m s hrun hdom hparked hfirst hwaits
    exact does_of_next rfl (execParkStall_keeps (has_of_land (by decide +kernel)) m (Keeps.refl _ s))
      (parkStall_effect m s hrun hdom hparked hfirst hwaits)
  case imports =>
    intro h recd s haw hready hclosed hlen hcrc hfits
    exact does_of_next rfl (execMemrecImport_keeps (has_of_land (by decide +kernel)) h recd (Keeps.refl _ s))
      (memrecImport_effect h recd s haw hready hclosed hlen hcrc hfits)
  case exports =>
    intro h s haw hready hfits
    exact does_of_next rfl (execMemrecExport_keeps (has_of_land (by decide +kernel)) h (Keeps.refl _ s))
      (memrecExport_effect h s haw hready hfits)

/-! ## Sluices -/

/-- Settles O4: each clause from the frame and the effect of its command. -/
theorem sluiceRequestsAndGrants : Obligations.SluiceRequestsAndGrants := by
  unfold Obligations.SluiceRequestsAndGrants
  refine ⟨?hubEnter, ?memEnter, ?hubGrant, ?memGrant, ?misses, ?pins⟩
  case hubEnter =>
    intro n r op acc dt key budget s hrun hdom hlo hhi hroom hop hnew
    exact does_of_next rfl (execSluiceEnter_keeps (has_of_land (by decide +kernel)) n r op acc dt (Keeps.refl _ s))
      (sluiceEnter_effect n r op acc dt key budget s hrun hdom hlo hhi hroom hop hnew)
  case memEnter =>
    intro n r op acc dt q rest s hrun hdom hn hfirst hchan hroom
    exact does_of_next rfl (execSluiceEnter_keeps (has_of_land (by decide +kernel)) n r op acc dt (Keeps.refl _ s))
      (sluiceEnterMem_effect n r op acc dt q rest s hrun hdom hn hfirst hchan hroom)
  case hubGrant =>
    intro n dt r fresh q rest k s hrun hdom hlo hhi hnext hfirst hpay
    exact does_of_next rfl (execSluiceGrant_keeps (has_of_land (by decide +kernel)) n dt (Keeps.refl _ s))
      (sluiceGrant_effect n dt r fresh q rest k s hrun hdom hlo hhi hnext hfirst hpay)
  case memGrant =>
    intro n dt r fresh q rest x s hrun hdom hn hfree hnext hfirst hpay
    exact does_of_next rfl (execSluiceGrant_keeps (has_of_land (by decide +kernel)) n dt (Keeps.refl _ s))
      (sluiceGrantMem_effect n dt r fresh q rest x s hrun hdom hn hfree hnext hfirst hpay)
  case misses =>
    intro n dt s hrun hdom
    exact does_of_next rfl (execSluiceDeadlineMiss_keeps (has_of_land (by decide +kernel)) n dt (Keeps.refl _ s))
      (sluiceDeadlineMiss_effect n dt s hrun hdom)
  case pins =>
    intro n dt s hrun hdom
    exact does_of_next rfl (execSluicePin_keeps (has_of_land (by decide +kernel)) n dt (Keeps.refl _ s))
      (sluicePin_effect n dt s hrun hdom)

/-! ## Throttle steps -/

/-- Settles O14: each clause from the frame and the effect of its command. -/
theorem thermalAndPowerSteps : Obligations.ThermalAndPowerSteps := by
  unfold Obligations.ThermalAndPowerSteps
  refine ⟨?stackSample, ?stackStep, ?regionSample, ?powerSample⟩
  case stackSample =>
    intro m t s hrun hdom hm
    exact does_of_next rfl (execStackTempSample_keeps (has_of_land (by decide +kernel)) m t (Keeps.refl _ s))
      (stackTempSample_effect m t s hrun hdom hm)
  case stackStep =>
    intro m s hrun hdom hm hthrottle hpair
    exact does_of_next rfl (execStackThrottleStep_keeps (has_of_land (by decide +kernel)) m (Keeps.refl _ s))
      (stackThrottleStep_effect m s hrun hdom hm hthrottle hpair)
  case regionSample =>
    intro rg t s hout hlive hrg hpair
    exact does_of_next rfl (execRegionTempSample_keeps (has_of_land (by decide +kernel)) rg t (Keeps.refl _ s))
      (regionTempSample_effect rg t s hout hlive hrg hpair)
  case powerSample =>
    intro w s hout hlive hpair
    exact does_of_next rfl (execPowerSample_keeps (has_of_land (by decide +kernel)) w (Keeps.refl _ s))
      (powerSample_effect w s hout hlive hpair)

end Sys2Proof.Machine
end

section
/-! Proofs of the statements of 10_sluice_and_sync.md: flags and barriers, and the registers of the SYNC pages. -/

namespace Sys2Proof.Machine

/-! ## Flags and barriers -/

/-- Settles O5: each clause from the frame and the effect of its command. -/
theorem synchronisationObjects : Obligations.SynchronisationObjects := by
  unfold Obligations.SynchronisationObjects
  refine ⟨?signal, ?signalHeld, ?waitRegisters, ?waitReleased, ?arriveCounts, ?arriveReleases, ?tableAdmits⟩
  case signal =>
    intro o r s hrun hnext hfresh
    exact does_of_next rfl (execSignal_keeps (has_of_land (by decide +kernel)) .crossing (Keeps.refl _ s))
      (signalCrossing_effect o r s hrun hnext hfresh)
  case signalHeld =>
    intro cl lid l d s hrun hlist hdesc hst hvalid hop hdepth
    exact does_of_next rfl (execSignal_keeps (has_of_land (by decide +kernel)) (.list cl lid true) (Keeps.refl _ s))
      (signalList_effect cl lid l d s hrun hlist hdesc hst hvalid hop hdepth)
  case waitRegisters =>
    intro o r s hrun hnext hfresh hnone hbelow
    exact does_of_next rfl (execWait_keeps (has_of_land (by decide +kernel)) .crossing (Keeps.refl _ s))
      (waitRegisters_effect o r s hrun hnext hfresh hnone hbelow)
  case waitReleased =>
    intro o r s hrun hnext hfresh hnone hreached
    exact does_of_next rfl (execWait_keeps (has_of_land (by decide +kernel)) .crossing (Keeps.refl _ s))
      (waitReleased_effect o r s hrun hnext hfresh hnone hreached)
  case arriveCounts =>
    intro o r s hrun hnext hfresh hbelow hN
    exact does_of_next rfl (execArrive_keeps (has_of_land (by decide +kernel)) .crossing (Keeps.refl _ s))
      (arriveCounts_effect o r s hrun hnext hfresh hbelow hN)
  case arriveReleases =>
    intro o r s hrun hnext hfresh hreached hpos hN
    exact does_of_next rfl (execArrive_keeps (has_of_land (by decide +kernel)) .crossing (Keeps.refl _ s))
      (arriveReleases_effect o r s hrun hnext hfresh hreached hpos hN)
  case tableAdmits =>
    intro home flag cyc o r s hrun hfirst
    exact does_of_next rfl (execWaiterTableAdmit_keeps (has_of_land (by decide +kernel)) home flag cyc (Keeps.refl _ s))
      (waiterTableAdmit_effect home flag cyc o r s hrun hfirst)

/-! ## SYNC registers -/

/-- Settles O6: each clause from the frame and the effect of its command. -/
theorem synchronisationRegisters : Obligations.SynchronisationRegisters := by
  unfold Obligations.SynchronisationRegisters
  refine ⟨?flagOwn, ?flagOwnChanges, ?barCfg, ?barCfgChanges, ?setFlag, ?setFlagReleases, ?setBarrier, ?setBarrierReleases⟩
  case flagOwn =>
    intro r a v i o s ha ht hg hdie hlo hhi
    exact does_of_next rfl (execFlagOwnWrite_keeps (has_of_land (by decide +kernel)) r a v (Keeps.refl _ s))
      (flagOwnWrite_effect r a v i o s ha ht hg hdie hlo hhi)
  case flagOwnChanges =>
    intro r a v i o s ha ht hg hdie hlo hhi hchange
    exact does_of_next rfl (execFlagOwnWrite_keeps (has_of_land (by decide +kernel)) r a v (Keeps.refl _ s))
      (flagOwnChange_effect r a v i o s ha ht hg hdie hlo hhi hchange)
  case barCfg =>
    intro r a v i o s ha ht hg hlo hhi hN hbar
    exact does_of_next rfl (execBarCfgWrite_keeps (has_of_land (by decide +kernel)) r a v (Keeps.refl _ s))
      (barCfgWrite_effect r a v i o s ha ht hg hlo hhi hN hbar)
  case barCfgChanges =>
    intro r a v i o s ha ht hg hlo hhi hN hbar hchange
    exact does_of_next rfl (execBarCfgWrite_keeps (has_of_land (by decide +kernel)) r a v (Keeps.refl _ s))
      (barCfgChange_effect r a v i o s ha ht hg hlo hhi hN hbar hchange)
  case setFlag =>
    intro r a v i s ha ht hg hunl hkind hdie hheld
    exact does_of_next rfl (execDbgSet_keeps (has_of_land (by decide +kernel)) r a v (Keeps.refl _ s))
      (dbgSet_effect r a v i s ha ht hg hunl hkind hdie hheld)
  case setFlagReleases =>
    intro r a v i w s ha ht hg hunl hkind hdie hwaiter hneed
    exact does_of_next rfl (execDbgSet_keeps (has_of_land (by decide +kernel)) r a v (Keeps.refl _ s))
      (dbgSetReleases_effect r a v i w s ha ht hg hunl hkind hdie hwaiter hneed)
  case setBarrier =>
    intro r a v i s ha ht hg hunl hkind hobj hbar hbelow
    exact does_of_next rfl (execDbgSet_keeps (has_of_land (by decide +kernel)) r a v (Keeps.refl _ s))
      (dbgSetBarrier_effect r a v i s ha ht hg hunl hkind hobj hbar hbelow)
  case setBarrierReleases =>
    intro r a v i s ha ht hg hunl hkind hobj hbar hpos hN h2N
    exact does_of_next rfl (execDbgSet_keeps (has_of_land (by decide +kernel)) r a v (Keeps.refl _ s))
      (dbgSetBarrierReleases_effect r a v i s ha ht hg hunl hkind hobj hbar hpos hN h2N)

end Sys2Proof.Machine
end

section
/-! Proofs of the statements of 11_links.md: training and identity of a port, its death, resets and restore, the frames that it takes,
and replay, acknowledgement and hold expiry. -/

namespace Sys2Proof.Machine

/-! ## Training and identity -/

/-- Settles O21: each clause from the frame and the effect of its command. -/
theorem linkTraining : Obligations.LinkTraining := by
  unfold Obligations.LinkTraining
  refine ⟨?enable, ?retrains, ?trained, ?trainFails, ?identSent, ?identTaken, ?recheck, ?recheckDown, ?confirm⟩
  case enable =>
    intro r a v i s ha ht hg
    exact does_of_next rfl (execPortEnable_keeps (has_of_land (by decide +kernel)) r a v (Keeps.refl _ s))
      (portEnable_effect r a v i s ha ht hg)
  case retrains =>
    intro p s hrun hdom hdown hauto
    exact does_of_next rfl (execAutoRetrain_keeps (has_of_land (by decide +kernel)) p (Keeps.refl _ s))
      (autoRetrain_effect p s hrun hdom hdown hauto)
  case trained =>
    intro p s hrun hdom htrain
    exact does_of_next rfl (execTrainDone_keeps (has_of_land (by decide +kernel)) p (Keeps.refl _ s))
      (trainDone_effect p s hrun hdom htrain)
  case trainFails =>
    intro p s hrun hdom htrain
    exact does_of_next rfl (execTrainFail_keeps (has_of_land (by decide +kernel)) p (Keeps.refl _ s))
      (trainFail_effect p s hrun hdom htrain)
  case identSent =>
    intro p s hrun hdom hident hnone
    exact does_of_next rfl (execIdentSend_keeps (has_of_land (by decide +kernel)) p (Keeps.refl _ s))
      (identSend_effect p s hrun hdom hident hnone)
  case identTaken =>
    intro p raw f s hrun hdom hident hparse htype
    exact does_of_next rfl (execIdent_keeps (has_of_land (by decide +kernel)) p raw 0 (Keeps.refl _ s))
      (ident_effect p raw f s hrun hdom hident hparse htype)
  case recheck =>
    intro r a v i rcd s ha ht hg hbit hmis hgot
    exact does_of_next rfl (execRecheck_keeps (has_of_land (by decide +kernel)) r a v (Keeps.refl _ s))
      (recheck_effect r a v i rcd s ha ht hg hbit hmis hgot)
  case recheckDown =>
    intro r a v i s ha ht hg hbit hdown
    exact does_of_next rfl (execRecheck_keeps (has_of_land (by decide +kernel)) r a v (Keeps.refl _ s))
      (recheckDown_effect r a v i s ha ht hg hbit hdown)
  case confirm =>
    intro r a v i rcd s ha ht hg hbit hmis hgot hrole
    exact does_of_next rfl (execConfirm_keeps (has_of_land (by decide +kernel)) r a v (Keeps.refl _ s))
      (confirm_effect r a v i rcd s ha ht hg hbit hmis hgot hrole)

/-! ## Death, forced down, reset and restore -/

/-- Settles O22: each clause from the frame and the effect of its command. -/
theorem linkDeathAndReset : Obligations.LinkDeathAndReset := by
  unfold Obligations.LinkDeathAndReset
  refine ⟨?laneLoss, ?forcedDown, ?forcedDownMisplaced, ?portReset, ?restore⟩
  case laneLoss =>
    intro p s hrun hdom hup
    exact does_of_next rfl (execLaneLoss_keeps (has_of_land (by decide +kernel)) p (Keeps.refl _ s))
      (laneLoss_effect p s hrun hdom hup)
  case forcedDown =>
    intro r a v i s ha ht hg hbit hup
    exact does_of_next rfl (execForceDown_keeps (has_of_land (by decide +kernel)) r a v (Keeps.refl _ s))
      (forceDown_effect r a v i s ha ht hg hbit hup)
  case forcedDownMisplaced =>
    intro r a v i s ha ht hg hbit hmis
    exact does_of_next rfl (execForceDown_keeps (has_of_land (by decide +kernel)) r a v (Keeps.refl _ s))
      (forceDownMisplaced_effect r a v i s ha ht hg hbit hmis)
  case portReset =>
    intro r a v s ha ht hg hport
    exact does_of_next rfl (execPortRst_keeps (has_of_land (by decide +kernel)) r a v (Keeps.refl _ s))
      (portRst_effect r a v s ha ht hg hport)
  case restore =>
    intro r a v i s ha ht hg hbit hup
    exact does_of_next rfl (execLinkRestore_keeps (has_of_land (by decide +kernel)) r a v (Keeps.refl _ s))
      (linkRestore_effect r a v i s ha ht hg hbit hup)

/-! ## Received frames -/

/-- Settles O23: each clause from the frame and the effect of its command. -/
theorem linkFrames : Obligations.LinkFrames := by
  unfold Obligations.LinkFrames
  refine ⟨?delivered, ?forwarded, ?gap, ?unreadable, ?mark, ?markAck, ?link, ?state⟩
  case delivered =>
    intro p raw f s hrun hdom hup hparse htype hlseq hvc hempty hact hp
    exact does_of_next rfl (execData_keeps (has_of_land (by decide +kernel)) p raw 0 (Keeps.refl _ s))
      (data_effect p raw f s hrun hdom hup hparse htype hlseq hvc hempty hact hp)
  case forwarded =>
    intro p raw f s hrun hdom hup hparse htype hlseq hvc
    exact does_of_next rfl (execData_keeps (has_of_land (by decide +kernel)) p raw 0 (Keeps.refl _ s))
      (dataForward_effect p raw f s hrun hdom hup hparse htype hlseq hvc)
  case gap =>
    intro p raw f s hrun hdom hup hparse htype hlseq hahead hretry
    exact does_of_next rfl (execData_keeps (has_of_land (by decide +kernel)) p raw 0 (Keeps.refl _ s))
      (dataGap_effect p raw f s hrun hdom hup hparse htype hlseq hahead hretry)
  case unreadable =>
    intro p raw s hrun hdom hup hparse hretry
    exact does_of_next rfl (execData_keeps (has_of_land (by decide +kernel)) p raw 0 (Keeps.refl _ s))
      (dataBad_effect p raw s hrun hdom hup hparse hretry)
  case mark =>
    intro p raw f s hrun hdom hup hparse htype hlseq hvc hempty hact hp
    exact does_of_next rfl (execMark_keeps (has_of_land (by decide +kernel)) p raw 0 (Keeps.refl _ s))
      (mark_effect p raw f s hrun hdom hup hparse htype hlseq hvc hempty hact hp)
  case markAck =>
    intro p raw f s hrun hdom hup hparse htype hlseq hvc hempty hmarking hp
    exact does_of_next rfl (execMarkAck_keeps (has_of_land (by decide +kernel)) p raw 0 (Keeps.refl _ s))
      (markAck_effect p raw f s hrun hdom hup hparse htype hlseq hvc hempty hmarking hp)
  case link =>
    intro p raw f s hrun hdom hup hparse htype hahead
    exact does_of_next rfl (execLink_keeps (has_of_land (by decide +kernel)) p raw 0 (Keeps.refl _ s))
      (link_effect p raw f s hrun hdom hup hparse htype hahead)
  case state =>
    intro p raw f s hrun hdom hup hparse htype
    exact does_of_next rfl (execState_keeps (has_of_land (by decide +kernel)) p raw 0 (Keeps.refl _ s))
      (state_effect p raw f s hrun hdom hup hparse htype)

/-! ## Replay, acknowledgement and hold expiry -/

/-- Settles O24: each clause from the frame and the effect of its command. -/
theorem linkRetry : Obligations.LinkRetry := by
  unfold Obligations.LinkRetry
  refine ⟨?retry, ?retryDeath, ?timeout, ?timeoutDeath, ?ackDue, ?holdExpires, ?holdExpiresAlone⟩
  case retry =>
    intro p raw f s hrun hdom hup hparse htype hold hbuf hlimit
    exact does_of_next rfl (execRetry_keeps (has_of_land (by decide +kernel)) p raw 0 (Keeps.refl _ s))
      (retry_effect p raw f s hrun hdom hup hparse htype hold hbuf hlimit)
  case retryDeath =>
    intro p raw f s hrun hdom hup hparse htype hold hbuf hlimit
    exact does_of_next rfl (execRetry_keeps (has_of_land (by decide +kernel)) p raw 0 (Keeps.refl _ s))
      (retryDeath_effect p raw f s hrun hdom hup hparse htype hold hbuf hlimit)
  case timeout =>
    intro p s hrun hdom hup hbuf hlimit
    exact does_of_next rfl (execAckTimeout_keeps (has_of_land (by decide +kernel)) p (Keeps.refl _ s))
      (ackTimeout_effect p s hrun hdom hup hbuf hlimit)
  case timeoutDeath =>
    intro p s hrun hdom hup hbuf hlimit
    exact does_of_next rfl (execAckTimeout_keeps (has_of_land (by decide +kernel)) p (Keeps.refl _ s))
      (ackTimeoutDeath_effect p s hrun hdom hup hbuf hlimit)
  case ackDue =>
    intro p s hrun hdom hup
    exact does_of_next rfl (execLinkAckDue_keeps (has_of_land (by decide +kernel)) p (Keeps.refl _ s))
      (linkAckDue_effect p s hrun hdom hup)
  case holdExpires =>
    intro p f rest s hrun hdom hqueue hheld hact
    exact does_of_next rfl (execHoldExpire_keeps (has_of_land (by decide +kernel)) p (Keeps.refl _ s))
      (holdExpire_effect p f rest s hrun hdom hqueue hheld hact)
  case holdExpiresAlone =>
    intro p f s hrun hdom hqueue hheld hact hothers
    exact does_of_next rfl (execHoldExpire_keeps (has_of_land (by decide +kernel)) p (Keeps.refl _ s))
      (holdExpireAlone_effect p f s hrun hdom hqueue hheld hact hothers)

end Sys2Proof.Machine
end

section
/-! Proofs of the statements of 12_mapping_collectives.md: sources declared absent, paused contexts, losses recorded and cleared, the
topology table, and releases that arrive. -/

namespace Sys2Proof.Machine

/-- Settles O49: each clause from the frame and the effect of its command. -/
theorem stragglersPausesAndLosses : Obligations.StragglersPausesAndLosses := by
  unfold Obligations.StragglersPausesAndLosses
  refine ⟨?straggler, ?pause, ?lossElsewhere, ?lossCleared, ?lossRecorded, ?topoStepOpen, ?topoLoad, ?listReleased, ?collReleased⟩
  case straggler =>
    intro c n cid r s hrun hrecv hkind hdeadline hreplay hclosed hopen
    exact does_of_next rfl (execStragglerDeadline_keeps (has_of_land (by decide +kernel)) c n cid (Keeps.refl _ s))
      (stragglerDeadline_effect c n cid r s hrun hrecv hkind hdeadline hreplay hclosed hopen)
  case pause =>
    intro r a v i s ha ht hg
    exact does_of_next rfl (execCtxPause_keeps (has_of_land (by decide +kernel)) r a v (Keeps.refl _ s))
      (ctxPause_effect r a v i s ha ht hg)
  case lossElsewhere =>
    intro h s hrun hready hentry
    exact does_of_next rfl (execDegrade_keeps (has_of_land (by decide +kernel)) h (Keeps.refl _ s))
      (degradeOther_effect h s hrun hready hentry)
  case lossCleared =>
    intro h k s hrun hready hentry hclear hactive
    exact does_of_next rfl (execDegrade_keeps (has_of_land (by decide +kernel)) h (Keeps.refl _ s))
      (degradeClear_effect h k s hrun hready hentry hclear hactive)
  case lossRecorded =>
    intro h k s hrun hready hentry hset hinactive
    exact does_of_next rfl (execDegrade_keeps (has_of_land (by decide +kernel)) h (Keeps.refl _ s))
      (degradeRecord_effect h k s hrun hready hentry hset hinactive)
  case topoStepOpen =>
    intro h s haw hready hstep
    exact does_of_next rfl (execTopoLoad_keeps (has_of_land (by decide +kernel)) h (Keeps.refl _ s))
      (topoOpen_effect h s haw hready hstep)
  case topoLoad =>
    intro h bs s haw hready hstep hread hweak
    exact does_of_next rfl (execTopoLoad_keeps (has_of_land (by decide +kernel)) h (Keeps.refl _ s))
      (topoLoad_effect h bs s haw hready hstep hread hweak)
  case listReleased =>
    intro r rest l y s hrun hreleases hcluster hlist hwaiting hstatus hgroup hy
    exact does_of_next rfl (execReleaseReceive_keeps (has_of_land (by decide +kernel)) (Keeps.refl _ s))
      (releaseReceive_effect r rest l y s hrun hreleases hcluster hlist hwaiting hstatus hgroup hy)
  case collReleased =>
    intro r rest s hrun hreleases hcluster hwaiting
    exact does_of_next rfl (execReleaseReceive_keeps (has_of_land (by decide +kernel)) (Keeps.refl _ s))
      (releaseHub_effect r rest s hrun hreleases hcluster hwaiting)

end Sys2Proof.Machine
end

section
/-! Proofs about every command: a clause's frame read from the command's own, what a step runs and keeps, the queue and the outputs
(00_scope.md, 09_memory.md), and what only some commands write (15_host_commands.md, 16_firmware_security.md). -/

-- One proof after another: each `decide +kernel` waits for the kernel to have checked what stands before it.
set_option Elab.async false

namespace Sys2Proof.Machine

variable {c : Instr} {s t : State}

/-! ## Clauses `Does` from the frame of the command -/

/-- A command whose frame lies within the parts `w`, that answers `t` and meets `P` there, does what a clause says. -/
theorem does_of_frame {w : List Part} {P : State → Prop} (he : exec c s = .next t) (hp : P t)
    (hm : Has (frameOf c).1 (maskOf w) := by dsimp only [frameOf]; exact has_of_land (by decide +kernel)) : Does c s w P :=
  ⟨t, he, (exec_keeps_frameOf he).sameBut_of hm, hp⟩

/-- A clause whose frame lists every register besides the parts `w`. -/
theorem does_of_frame_everyReg {w : List Part} {P : State → Prop} (he : exec c s = .next t) (hp : P t)
    (hm : Has (frameOf c).1 (maskOf (everyReg ++ w)) := by dsimp only [frameOf]; exact has_everyReg_append rfl) :
    Does c s (everyReg ++ w) P :=
  does_of_frame he hp hm

/-! ## What a step runs and keeps -/

/-- Settles O25: `step` takes the list of waiting commands apart. -/
theorem stepRunsFront : Obligations.StepRunsFront := by
  unfold Obligations.StepRunsFront
  refine ⟨fun c rest s => rfl, fun s hempty => ?_⟩
  unfold step
  rw [hempty]

theorem exec_keeps_memWf (he : exec c s = .next t) (hs : s.memWf) : t.memWf := (exec_keeps_frameOf he).wf hs

/-- Settles O27: each command keeps the three memories in form, and taking the command off the queue touches none of them. -/
theorem stepKeepsMemories : Obligations.StepKeepsMemories := by
  unfold Obligations.StepKeepsMemories
  intro s t hs ht
  obtain rfl | ⟨c, rest, he⟩ := step_idle_or_exec ht
  · exact hs
  · exact exec_keeps_memWf (s := { s with pending := rest }) he hs

/-! ## The queue and the outputs -/

/-- No command has the queue, part 0 of a mask, in its frame. -/
theorem queue_not_in_frame (c : Instr) : (frameOf c).1.testBit 0 = false := by
  cases c <;> (dsimp only [frameOf]; rfl)

/-- Settles O30: the queue lies outside every frame, and every frame has the outputs grow. -/
theorem commandsLeaveQueueAndOutputs : Obligations.CommandsLeaveQueueAndOutputs := by
  unfold Obligations.CommandsLeaveQueueAndOutputs
  intro c s t he
  exact ⟨(exec_keeps_frameOf he).pending (queue_not_in_frame c), (exec_keeps_frameOf he).outs⟩

/-! ## What only some commands write -/

/-- What a frame keeps while its bit is off has moved only where the bit is on. -/
theorem bit_of_moved {b : Bool} {p : Prop} (hkept : b = false → p) (hmoved : ¬ p) : b = true :=
  eq_true_of_ne_false fun hb => hmoved (hkept hb)

/-- The frames with the OTP array (bit 6) or the replaced keys (bit 32). -/
theorem otp_in_frame (h : (frameOf c).1.testBit 6 = true ∨ (frameOf c).1.testBit 32 = true) :
    (∃ ok, c = .otpProgDone ok) ∨ (∃ r mv, c = .railResetTrip r mv) ∨ c = .coldReset ∨ c = .faultResetRelease := by
  cases c with
  | otpProgDone ok => exact .inl ⟨ok, rfl⟩
  | railResetTrip r mv => exact .inr (.inl ⟨r, mv, rfl⟩)
  | coldReset => exact .inr (.inr (.inl rfl))
  | faultResetRelease => exact .inr (.inr (.inr rfl))
  | _ => exact absurd h (by dsimp only [frameOf]; decide)

/-- The frames with the boot mailbox. -/
theorem mbx_in_frame (h : (frameOf c).1.testBit 29 = true) :
    (∃ off data, c = .mailboxWrite off data) ∨ (∃ r mv, c = .railResetTrip r mv) ∨ c = .coldReset ∨ c = .faultResetRelease := by
  cases c with
  | mailboxWrite off data => exact .inl ⟨off, data, rfl⟩
  | railResetTrip r mv => exact .inr (.inl ⟨r, mv, rfl⟩)
  | coldReset => exact .inr (.inr (.inl rfl))
  | faultResetRelease => exact .inr (.inr (.inr rfl))
  | _ => exact absurd h (by dsimp only [frameOf]; decide)

/-- The frames with a strap. -/
theorem strap_in_frame (h : (frameOf c).1.testBit 39 = true ∨ (frameOf c).1.testBit 40 = true) :
    ∃ ms pos gaddr, c = .coldResetRelease ms pos gaddr := by
  cases c with
  | coldResetRelease ms pos gaddr => exact ⟨ms, pos, gaddr, rfl⟩
  | _ => exact absurd h (by dsimp only [frameOf]; decide)

/-- The frames with host memory. -/
theorem hmem_in_frame (h : (frameOf c).1.testBit 5 = true) :
    (∃ r a v size, c = .regWrite r a v size) ∨ (∃ cₓ n, c = .stepClose cₓ n) ∨ (∃ h, c = .exportCmd h) ∨
      (∃ h, c = .memrecExport h) ∨ (∃ h, c = .ckpt h) ∨ (∃ cₓ g, c = .ckptBlockRead cₓ g) ∨ (∃ cₓ, c = .ckptComplete cₓ) ∨
      (∃ cₓ, c = .journalDrain cₓ) ∨ (∃ cₓ q ok entry, c = .sqEntryFetch cₓ q ok entry) ∨ (∃ n, c = .completionReport n) ∨
      (∃ r a v waited, c = .cqHead r a v waited) ∨ (∃ h, c = .abort h) ∨ (∃ h, c = .attest h) ∨ (∃ h hd, c = .copy h hd) ∨
      (∃ h, c = .ctxReset h) ∨ (∃ fn, c = .functionLevelReset fn) := by
  cases c with
  | regWrite | stepClose | exportCmd | memrecExport | ckpt | ckptBlockRead | ckptComplete | journalDrain | sqEntryFetch
  | completionReport | cqHead | abort | attest | copy | ctxReset | functionLevelReset => simp
  | _ => exact absurd h (by dsimp only [frameOf]; decide)

/-- The frames with the pin FAULT_N. -/
theorem faultN_in_frame (h : (frameOf c).1.testBit 35 = true) :
    (∃ p, c = .pairLockstep p) ∨ (∃ r mv, c = .railResetTrip r mv) ∨ (∃ cl again, c = .residueMismatch cl again) ∨
      (∃ k tₓ, c = .tempTrip k tₓ) ∨ (∃ p, c = .watchdogExpire p) ∨ (∃ r a v, c = .forceFault r a v) ∨ c = .perstRelease ∨
      (∃ ms pos gaddr, c = .coldResetRelease ms pos gaddr) := by
  cases c with
  | pairLockstep | railResetTrip | residueMismatch | tempTrip | watchdogExpire | forceFault | perstRelease | coldResetRelease => simp
  | _ => exact absurd h (by dsimp only [frameOf]; decide)

/-- The frames with an SR-IOV enable: VF Enable (bit 41) or NumVFs (bit 42). -/
theorem sriov_in_frame (h : (frameOf c).1.testBit 41 = true ∨ (frameOf c).1.testBit 42 = true) :
    (∃ r mv, c = .railResetTrip r mv) ∨ c = .coldReset ∨ c = .platformReset ∨ c = .linkReset ∨
      (∃ fn, c = .functionLevelReset fn) ∨ c = .faultResetRelease ∨ (∃ en n, c = .vfEnable en n) := by
  cases c with
  | railResetTrip | coldReset | platformReset | linkReset | functionLevelReset | faultResetRelease | vfEnable => simp
  | _ => exact absurd h (by dsimp only [frameOf]; decide)

/-- Settles O33: a part that moved stands in the frame of the command, and the frames that have it are those of the commands named. -/
theorem onlyTheseWriteLastingState : Obligations.OnlyTheseWriteLastingState := by
  unfold Obligations.OnlyTheseWriteLastingState
  intro c s t he
  have hk := exec_keeps_frameOf he
  exact ⟨fun hotp => otp_in_frame (.inl (bit_of_moved hk.otp hotp)),
    fun hkeys => otp_in_frame (.inr (bit_of_moved hk.bootKeys hkeys)),
    fun hmbx => mbx_in_frame (bit_of_moved hk.mbx hmbx),
    fun hpos => strap_in_frame (.inl (bit_of_moved hk.strapPos hpos)),
    fun hgaddr => strap_in_frame (.inr (bit_of_moved hk.strapGaddr hgaddr))⟩

/-- Settles O34: a part that moved stands in the frame of the command, and the frames that have it are those of the commands named. -/
theorem onlyTheseReachHostAndPins : Obligations.OnlyTheseReachHostAndPins := by
  unfold Obligations.OnlyTheseReachHostAndPins
  intro c s t he
  have hk := exec_keeps_frameOf he
  exact ⟨fun hhmem => hmem_in_frame (bit_of_moved hk.hmem hhmem),
    fun hpin => faultN_in_frame (bit_of_moved hk.faultN hpin),
    fun hvf => sriov_in_frame (.inl (bit_of_moved hk.vfEnable hvf)),
    fun hnum => sriov_in_frame (.inr (bit_of_moved hk.numVfs hnum))⟩

end Sys2Proof.Machine
end

section
/-! Proofs of the statements of 13_mirror_integrity.md: check units and Culvert mirroring. -/

-- One proof after another: each `decide +kernel` waits for the kernel to have checked what stands before it.
set_option Elab.async false

namespace Sys2Proof.Machine

/-- Settles O7: each clause from the frame and the effect of its command. -/
theorem checkUnits : Obligations.CheckUnits := by
  unfold Obligations.CheckUnits
  refine ⟨?dataB, ?dataH, ?dataW, ?init, ?final⟩
  case dataB =>
    intro r a v i s halign htarget hgate
    exact does_of_frame rfl (dataB_effect r a v i s halign htarget hgate)
  case dataH =>
    intro r a v i s halign htarget hgate
    exact does_of_frame rfl (dataH_effect r a v i s halign htarget hgate)
  case dataW =>
    intro r a v i s halign htarget hgate
    exact does_of_frame rfl (dataW_effect r a v i s halign htarget hgate)
  case init =>
    intro r a v i s halign htarget hgate hbit
    exact does_of_frame rfl (init_effect r a v i s halign htarget hgate hbit)
  case final =>
    intro r a v i s halign htarget hgate hbit
    exact does_of_frame rfl (final_effect r a v i s halign htarget hgate hbit)

/-- Settles O41: each clause from the frame and the effect of its command. -/
theorem culvertReceive : Obligations.CulvertReceive := by
  unfold Obligations.CulvertReceive
  refine ⟨?openFrame, ?tabWf, ?tabR, ?tabROwner, ?wgt, ?fac0, ?fac1, ?root0, ?root1⟩
  case openFrame =>
    intro f r i b s hawake hhead htwin hlow hhigh haud hnew
    exact does_of_frame rfl (openFrame_effect f r i b s hawake hhead htwin hlow hhigh haud hnew)
  case tabWf =>
    intro f r i b x g s hawake hhead htwin hopens hroots hxfer hfailed hwait hclose hnoClose
    exact does_of_frame rfl (tabWf_effect f r i b x g s hawake hhead htwin hopens hroots hxfer hfailed hwait hclose hnoClose)
  case tabR =>
    intro f r i b x s hawake hhead htwin hxfer hfailed hwait hclose hnoClose
    exact does_of_frame rfl (tabR_effect f r i b x s hawake hhead htwin hxfer hfailed hwait hclose hnoClose)
  case tabROwner =>
    intro f r b s hawake hhead htwin hown
    exact does_of_frame rfl (tabROwner_effect f r b s hawake hhead htwin hown)
  case wgt =>
    intro f r i b x s hawake hhead htwin hxfer hfailed htile hparts
    exact does_of_frame rfl (wgt_effect f r i b x s hawake hhead htwin hxfer hfailed htile hparts)
  case fac0 =>
    intro f r i b x s hawake hhead htwin hxfer hfailed htile hparts
    exact does_of_frame rfl (fac0_effect f r i b x s hawake hhead htwin hxfer hfailed htile hparts)
  case fac1 =>
    intro f r i b x s hawake hhead htwin hxfer hfailed htile hparts
    exact does_of_frame rfl (fac1_effect f r i b x s hawake hhead htwin hxfer hfailed htile hparts)
  case root0 =>
    intro f r i b x s hawake hhead htwin hxfer hfailed htile hparts
    exact does_of_frame rfl (root0_effect f r i b x s hawake hhead htwin hxfer hfailed htile hparts)
  case root1 =>
    intro f r i b x s hawake hhead htwin hxfer hfailed htile hparts
    exact does_of_frame rfl (root1_effect f r i b x s hawake hhead htwin hxfer hfailed htile hparts)

/-- Settles O42: each clause from the frame and the effect of its command. -/
theorem culvertClosesAndFetches : Obligations.CulvertClosesAndFetches := by
  unfold Obligations.CulvertClosesAndFetches
  refine ⟨?closeW, ?closeF, ?closeR, ?ack, ?nackRefused, ?nack, ?auditRes, ?auditResSkip, ?fetch, ?fetchRefused, ?resolve, ?auditGbi⟩
  case closeW =>
    intro f r i b x s hawake hhead htwin haud hx hfailed hpassed hnoClose
    exact does_of_frame rfl (closeW_effect f r i b x s hawake hhead htwin haud hx hfailed hpassed hnoClose)
  case closeF =>
    intro f r i b x s hawake hhead htwin haud hx hfailed hpassed hnoClose hstamp
    exact does_of_frame rfl (closeF_effect f r i b x s hawake hhead htwin haud hx hfailed hpassed hnoClose hstamp)
  case closeR =>
    intro f r i b x s hawake hhead htwin haud hx hfailed hpassed hnoClose
    exact does_of_frame rfl (closeR_effect f r i b x s hawake hhead htwin haud hx hfailed hpassed hnoClose)
  case ack =>
    intro f r st b s hawake hhead hgroup hblk
    exact does_of_frame rfl (ack_effect f r st b s hawake hhead hgroup hblk)
  case nackRefused =>
    intro f r b s hawake hhead hown hrefusal hfetch
    exact does_of_frame rfl (nackRefused_effect f r b s hawake hhead hown hrefusal hfetch)
  case nack =>
    intro f r b s hawake hhead hown hrefusal hkind hplace hmembers
    exact does_of_frame rfl (nack_effect f r b s hawake hhead hown hrefusal hkind hplace hmembers)
  case auditRes =>
    intro f r g k s hawake hhead haudit htiles hresult
    exact does_of_frame rfl (auditRes_effect f r g k s hawake hhead haudit htiles hresult)
  case auditResSkip =>
    intro f r e s hawake hhead haudit htiles
    exact does_of_frame rfl (auditResSkip_effect f r e s hawake hhead haudit htiles)
  case fetch =>
    intro f r i b bs s hawake hhead htwin hanswer hmembers hweak
    exact does_of_frame rfl (fetch_effect f r i b bs s hawake hhead htwin hanswer hmembers hweak)
  case fetchRefused =>
    intro f r i b s hawake hhead htwin hrefused hmembers
    exact does_of_frame rfl (fetchRefused_effect f r i b s hawake hhead htwin hrefused hmembers)
  case resolve =>
    intro r a v s halign htarget hgate hsuspect haction
    exact does_of_frame rfl (resolve_effect r a v s halign htarget hgate hsuspect haction)
  case auditGbi =>
    intro r a v s halign htarget hgate
    exact does_of_frame rfl (auditGbi_effect r a v s halign htarget hgate)

end Sys2Proof.Machine
end

section
/-! Proofs of the statements of 14_checkpoint_replay.md: checkpoints, restores and the journal ring. -/

-- One proof after another: each `decide +kernel` waits for the kernel to have checked what stands before it.
set_option Elab.async false

namespace Sys2Proof.Machine

/-- Settles O50: each clause from the frame and the effect of its command. -/
theorem checkpoints : Obligations.Checkpoints := by
  unfold Obligations.Checkpoints
  refine ⟨?ckptPassed, ?ckptBusy, ?ckptStart, ?ckptBlockWaits, ?ckptBlockRead, ?ckptCompletes, ?ckptEndDurable, ?ckptEndPeer,
    ?peerWrite, ?peerWriteDrop, ?readReq, ?readReqDrop, ?peerDone, ?endMark, ?endMarkDrop⟩
  case ckptPassed =>
    intro h s hawake hready hcommit
    exact does_of_frame rfl (ckptPassed_effect h s hawake hready hcommit)
  case ckptBusy =>
    intro h s hawake hready hcommit hckpt
    exact does_of_frame rfl (ckptBusy_effect h s hawake hready hcommit hckpt)
  case ckptStart =>
    intro h n hb xb hs xs s hawake hready hcut hcommit hckpt hholders hextents hhs hxs hopen hweak
    exact does_of_frame rfl (ckptStart_effect h n hb xb hs xs s hawake hready hcut hcommit hckpt hholders hextents hhs hxs hopen hweak)
  case ckptBlockWaits =>
    intro c g k s hawake hckpt hwaits
    exact does_of_frame rfl (ckptBlockWaits_effect c g k s hawake hckpt hwaits)
  case ckptBlockRead =>
    intro c g k b hd raw r v s hawake hckpt hleft hclean hwindow hrecord hr hgrant hweak
    exact does_of_frame rfl (ckptBlockRead_effect c g k b hd raw r v s hawake hckpt hleft hclean hwindow hrecord hr hgrant hweak)
  case ckptCompletes =>
    intro c k s hawake hckpt hended
    exact does_of_frame rfl (ckptCompletes_effect c k s hawake hckpt hended)
  case ckptEndDurable =>
    intro c k r m s hawake hckpt hended hleft hcutRead harriving hdropped hr hm hpeer
    exact does_of_frame rfl (ckptEndDurable_effect c k r m s hawake hckpt hended hleft hcutRead harriving hdropped hr hm hpeer)
  case ckptEndPeer =>
    intro c k r m s hawake hckpt hended hleft hcutRead harriving hdropped hr hm hpeer hdones hholders
    exact does_of_frame rfl (ckptEndPeer_effect c k r m s hawake hckpt hended hleft hcutRead harriving hdropped hr hm hpeer hdones hholders)
  case peerWrite =>
    intro f r s hawake hinbox hwin
    exact does_of_frame rfl (peerWrite_effect f r s hawake hinbox hwin)
  case peerWriteDrop =>
    intro f r s hawake hinbox hwin
    exact does_of_frame rfl (peerWriteDrop_effect f r s hawake hinbox hwin)
  case readReq =>
    intro f r bs s hawake hinbox hwin hread hweak
    exact does_of_frame rfl (readReq_effect f r bs s hawake hinbox hwin hread hweak)
  case readReqDrop =>
    intro f r s hawake hinbox hwin
    exact does_of_frame rfl (readReqDrop_effect f r s hawake hinbox hwin)
  case peerDone =>
    intro f r k s hawake hinbox hoff hckpt hpeer hended hholder
    exact does_of_frame rfl (peerDone_effect f r k s hawake hinbox hoff hckpt hpeer hended hholder)
  case endMark =>
    intro f r s hawake hinbox hoff hwin
    exact does_of_frame rfl (endMark_effect f r s hawake hinbox hoff hwin)
  case endMarkDrop =>
    intro f r s hawake hinbox hoff hwin
    exact does_of_frame rfl (endMarkDrop_effect f r s hawake hinbox hoff hwin)

/-- Settles O51: each clause from the frame and the effect of its command. -/
theorem restores : Obligations.Restores := by
  unfold Obligations.Restores
  refine ⟨?readData, ?restoreOpen, ?restoreStart, ?restoreTables, ?recordWaits, ?recordBad, ?recordSkipped, ?recordExtra,
    ?recordMismatch, ?recordBlock, ?recordCarry, ?restoreWaits, ?restoreComplete⟩
  case readData =>
    intro f r R e l s hawake hinbox hrestore hleft
    exact does_of_frame rfl (readData_effect f r R e l s hawake hinbox hrestore hleft)
  case restoreOpen =>
    intro h dir s hawake hready hstep
    exact does_of_frame rfl (restoreOpen_effect h dir s hawake hready hstep)
  case restoreStart =>
    intro h dir bs R s hawake hready hstep hread hR hdir hweak
    exact does_of_frame rfl (restoreStart_effect h dir bs R s hawake hready hstep hread hR hdir hweak)
  case restoreTables =>
    intro h dir bs db R ts s hawake hready hstep hread hR hdir hdirRead htables hweak
    exact does_of_frame rfl (restoreTables_effect h dir bs db R ts s hawake hready hstep hread hR hdir hdirRead htables hweak)
  case recordWaits =>
    intro c hd R e rest s hawake hrestore hleft hbytes
    exact does_of_frame rfl (recordWaits_effect c hd R e rest s hawake hrestore hleft hbytes)
  case recordBad =>
    intro c hd R e rest bs s hawake hrestore hleft hbytes hcheck
    exact does_of_frame rfl (recordBad_effect c hd R e rest bs s hawake hrestore hleft hbytes hcheck)
  case recordSkipped =>
    intro c hd R e rest bs raw s hawake hrestore hleft hbytes hcheck hforeign
    exact does_of_frame rfl (recordSkipped_effect c hd R e rest bs raw s hawake hrestore hleft hbytes hcheck hforeign)
  case recordExtra =>
    intro c hd R e rest bs raw a n s hawake hrestore hleft hbytes hcheck hkind hextent
    exact does_of_frame rfl (recordExtra_effect c hd R e rest bs raw a n s hawake hrestore hleft hbytes hcheck hkind hextent)
  case recordMismatch =>
    intro c hd R e rest bs raw own twin s hawake hrestore hleft hbytes hcheck hkind hown htwin hsides
    exact does_of_frame rfl
      (recordMismatch_effect c hd R e rest bs raw own twin s hawake hrestore hleft hbytes hcheck hkind hown htwin hsides)
  case recordBlock =>
    intro c hd R e rest bs raw own twin s hawake hrestore hleft hbytes hcheck hkind hown htwin hsides hhere
    exact does_of_frame rfl
      (recordBlock_effect c hd R e rest bs raw own twin s hawake hrestore hleft hbytes hcheck hkind hown htwin hsides hhere)
  case recordCarry =>
    intro c hd R e rest bs raw s hawake hrestore hleft hbytes hcheck hkind
    exact does_of_frame rfl (recordCarry_effect c hd R e rest bs raw s hawake hrestore hleft hbytes hcheck hkind)
  case restoreWaits =>
    intro c R s hawake hrestore hleft
    exact does_of_frame rfl (restoreWaits_effect c R s hawake hrestore hleft)
  case restoreComplete =>
    intro c R s hawake hrestore hleft
    exact does_of_frame rfl (restoreComplete_effect c R s hawake hrestore hleft)

/-- Settles O52: each clause from the frame and the effect of its command. -/
theorem theJournal : Obligations.TheJournal := by
  unfold Obligations.TheJournal
  refine ⟨?journalOff, ?journalWait, ?journalAppend, ?journalPad, ?journalWide, ?journalWideWaits, ?journalIdle, ?journalHostFull,
    ?journalDrain⟩
  case journalOff =>
    intro c src hclk r rest s hawake hctx holdest hon
    exact does_of_frame rfl (journalOff_effect c src hclk r rest s hawake hctx holdest hon)
  case journalWait =>
    intro c src hclk r rest s hawake hctx holdest hon hroom
    exact does_of_frame rfl (journalWait_effect c src hclk r rest s hawake hctx holdest hon hroom)
  case journalAppend =>
    intro c src hclk r rest s hawake hctx holdest hon hroom hfits
    exact does_of_frame rfl (journalAppend_effect c src hclk r rest s hawake hctx holdest hon hroom hfits)
  case journalPad =>
    intro c src hclk r rest s hawake hctx holdest hon hroom hpast hpad haligned
    exact does_of_frame rfl (journalPad_effect c src hclk r rest s hawake hctx holdest hon hroom hpast hpad haligned)
  case journalWide =>
    intro src hclk r cs rest s hawake holdest hroom
    exact does_of_frame rfl (journalWide_effect src hclk r cs rest s hawake holdest hroom)
  case journalWideWaits =>
    intro src hclk r cs rest s hawake holdest hroom
    exact does_of_frame rfl (journalWideWaits_effect src hclk r cs rest s hawake holdest hroom)
  case journalIdle =>
    intro c s hawake hidle
    exact does_of_frame rfl (journalIdle_effect c s hawake hidle)
  case journalHostFull =>
    intro c dr a n size base hd s hawake hdr ha hsize hbase hdrain hrecord hhead hn hfull hgrant
    exact does_of_frame rfl (journalHostFull_effect c dr a n size base hd s hawake hdr ha hsize hbase hdrain hrecord hhead hn hfull hgrant)
  case journalDrain =>
    intro c dr a n size base hd bs s hawake hdr ha hsize hbase hdrain hrecord hhead hn hroom hread hgrant
    exact does_of_frame rfl
      (journalDrain_effect c dr a n size base hd bs s hawake hdr ha hsize hbase hdrain hrecord hhead hn hroom hread hgrant)

end Sys2Proof.Machine
end

section
/-! Proofs of the statements of 15_host_commands.md: command queues, the BAR2 window, and resets of functions and contexts. -/

-- One proof after another: each `decide +kernel` waits for the kernel to have checked what stands before it.
set_option Elab.async false

namespace Sys2Proof.Machine

/-- Settles O12: each clause from the frame and the effect of its command. -/
theorem commandQueues : Obligations.CommandQueues := by
  unfold Obligations.CommandQueues
  refine ⟨?sqTail, ?sqTailFault, ?sqEnable, ?sqEntryFetch, ?commandStart, ?commandInvalid, ?commandDenied, ?completionReport,
    ?completionStale, ?cqHead, ?coalesceTimer⟩
  case sqTail =>
    intro r a v c q s halign htarget hgate hq hinside
    exact does_of_frame rfl (sqTail_effect r a v c q s halign htarget hgate hq hinside)
  case sqTailFault =>
    intro r a v c q s halign htarget hgate hq houtside
    exact does_of_frame rfl (sqTailFault_effect r a v c q s halign htarget hgate hq houtside)
  case sqEnable =>
    intro r a v c q s halign htarget hgate hq hranges
    exact does_of_frame rfl (sqEnable_effect r a v c q s halign htarget hgate hq hranges)
  case sqEntryFetch =>
    intro c q entry n x s hrun hc hq hfetches hslot
    exact does_of_frame rfl (sqEntryFetch_effect c q entry n x s hrun hc hq hfetches hslot)
  case commandStart =>
    intro c q n rest s hrun hfront hstart hvalid hdenied
    exact does_of_frame rfl (commandStart_effect c q n rest s hrun hfront hstart hvalid hdenied)
  case commandInvalid =>
    intro c q n rest s hrun hfront hstart hvalid
    exact does_of_frame rfl (commandInvalid_effect c q n rest s hrun hfront hstart hvalid)
  case commandDenied =>
    intro c q n rest s hrun hfront hstart hvalid hdenied
    exact does_of_frame rfl (commandDenied_effect c q n rest s hrun hfront hstart hvalid hdenied)
  case completionReport =>
    intro n r rest s hrun htaken hlive hstuck hfirst
    exact does_of_frame rfl (completionReport_effect n r rest s hrun htaken hlive hstuck hfirst)
  case completionStale =>
    intro n r rest s hrun htaken hlive hfirst
    exact does_of_frame rfl (completionStale_effect n r rest s hrun htaken hlive hfirst)
  case cqHead =>
    intro r a v waited c q s halign htarget hgate hq
    exact does_of_frame rfl (cqHead_effect r a v waited c q s halign htarget hgate hq)
  case coalesceTimer =>
    intro c q s hrun hcoal htimer
    exact does_of_frame rfl (coalesceTimer_effect c q s hrun hcoal htimer)

/-- Settles O13: each clause from the frame and the effect of its command. -/
theorem bar2AndSimpleCommands : Obligations.Bar2AndSimpleCommands := by
  unfold Obligations.Bar2AndSimpleCommands
  refine ⟨?bar2Read, ?bar2ReadMiss, ?bar2Write, ?bar2WriteMiss, ?nop, ?setSeed, ?setSeedBusy⟩
  case bar2Read =>
    intro off n bs s hawake hen hread
    exact does_of_frame rfl (bar2Read_effect off n bs s hawake hen hread)
  case bar2ReadMiss =>
    intro off n s hawake hen
    exact does_of_frame rfl (bar2ReadMiss_effect off n s hawake hen)
  case bar2Write =>
    intro off data j k chan page o b s hawake hen hmiss hbyte hhit hcell hlast
    exact does_of_frame rfl (bar2Write_effect off data j k chan page o b s hawake hen hmiss hbyte hhit hcell hlast)
  case bar2WriteMiss =>
    intro off data l s hawake hen hmiss
    exact does_of_frame rfl (bar2WriteMiss_effect off data l s hawake hen hmiss)
  case nop =>
    intro h s hrun hready
    exact does_of_frame rfl (nop_effect h s hrun hready)
  case setSeed =>
    intro h s hrun hready hstep
    exact does_of_frame rfl (setSeed_effect h s hrun hready hstep)
  case setSeedBusy =>
    intro h s hrun hready hstep
    exact does_of_frame rfl (setSeedBusy_effect h s hrun hready hstep)

/-- Settles O18: each clause from the frame and the effect of its command. -/
theorem resetsOfFunctionsAndContexts : Obligations.ResetsOfFunctionsAndContexts := by
  unfold Obligations.ResetsOfFunctionsAndContexts
  refine ⟨?linkReset, ?functionLevelReset, ?functionLevelResetPf, ?vfEnable, ?aerError, ?ctxResume, ?ctxPreempt, ?ctxReset⟩
  case linkReset =>
    intro s hreset hstandby
    exact does_of_frame_everyReg rfl (linkReset_effect s hreset hstandby)
  case functionLevelReset =>
    intro fn s hreset hvf hfn
    exact does_of_frame_everyReg rfl (functionLevelReset_effect fn s hreset hvf hfn)
  case functionLevelResetPf =>
    intro s hreset
    exact does_of_frame_everyReg rfl (functionLevelResetPf_effect s hreset)
  case vfEnable =>
    intro en n s hreset hn
    exact does_of_frame rfl (vfEnable_effect en n s hreset hn)
  case aerError =>
    intro s hreset
    exact does_of_frame rfl (aerError_effect s hreset)
  case ctxResume =>
    intro h s hrun hready
    exact does_of_frame rfl (ctxResume_effect h s hrun hready)
  case ctxPreempt =>
    intro h s hrun hready hstep
    exact does_of_frame rfl (ctxPreempt_effect h s hrun hready hstep)
  case ctxReset =>
    intro h s hrun hready
    exact does_of_frame rfl (ctxReset_effect h s hrun hready)

end Sys2Proof.Machine
end

section
/-! Proofs of the statements of 16_firmware_security.md: boot, OTP programming, attestation and debug unlock. -/

-- One proof after another: each `decide +kernel` waits for the kernel to have checked what stands before it.
set_option Elab.async false

namespace Sys2Proof.Machine

/-- Settles O10: each clause from the frame and the effect of its command. -/
theorem bootAndOtp : Obligations.BootAndOtp := by
  unfold Obligations.BootAndOtp
  refine ⟨?mailboxWrite, ?mailboxIgnored, ?go, ?imageVerifyDone, ?progGo, ?progDenied, ?otpProgDone, ?otpProgFails⟩
  case mailboxWrite =>
    intro off data s hreset hfits hverify hrunState
    exact does_of_frame rfl (mailboxWrite_effect off data s hreset hfits hverify hrunState)
  case mailboxIgnored =>
    intro off data s hreset hfits hstate
    exact does_of_frame rfl (mailboxIgnored_effect off data s hreset hfits hstate)
  case go =>
    intro r a v s htarget hgate hbit hstate
    exact does_of_frame rfl (go_effect r a v s htarget hgate hbit hstate)
  case imageVerifyDone =>
    intro s hreset hstandby hstate hrom hpair
    exact does_of_frame rfl (imageVerifyDone_effect s hreset hstandby hstate hrom hpair)
  case progGo =>
    intro r a v s htarget hgate hbit hallowed hslot
    exact does_of_frame rfl (progGo_effect r a v s htarget hgate hbit hallowed hslot)
  case progDenied =>
    intro r a v s htarget hgate hbit hallowed
    exact does_of_frame rfl (progDenied_effect r a v s htarget hgate hbit hallowed)
  case otpProgDone =>
    intro q rest g off len slot cls s hqueue hrom hnext hfield
    exact does_of_frame rfl (otpProgDone_effect q rest g off len slot cls s hqueue hrom hnext hfield)
  case otpProgFails =>
    intro q rest g s hqueue hrom hnext
    exact does_of_frame rfl (otpProgFails_effect q rest g s hqueue hrom hnext)

/-- Settles O11: each clause from the frame and the effect of its command. -/
theorem attestationAndUnlock : Obligations.AttestationAndUnlock := by
  unfold Obligations.AttestationAndUnlock
  refine ⟨?idReady, ?attest, ?attestDenied, ?challenge, ?unlockGo, ?unlockCheckDone, ?relock⟩
  case idReady =>
    intro s hreset hstandby hstate
    exact does_of_frame rfl (idReady_effect s hreset hstandby hstate)
  case attest =>
    intro h s hrun hid hready hpolicy
    exact does_of_frame rfl (attest_effect h s hrun hid hready hpolicy)
  case attestDenied =>
    intro h s hrun hid hready hpolicy
    exact does_of_frame rfl (attestDenied_effect h s hrun hid hready hpolicy)
  case challenge =>
    intro r a v s htarget hgate hbit
    exact does_of_frame rfl (challenge_effect r a v s htarget hgate hbit)
  case unlockGo =>
    intro r a v s htarget hgate hbit hbusy
    exact does_of_frame rfl (unlockGo_effect r a v s htarget hgate hbit hbusy)
  case unlockCheckDone =>
    intro s hreset hstandby hbusy hpair
    exact does_of_frame rfl (unlockCheckDone_effect s hreset hstandby hbusy hpair)
  case relock =>
    intro r a v s htarget hgate hbit
    exact does_of_frame rfl (relock_effect r a v s htarget hgate hbit)

end Sys2Proof.Machine
end

section
/-! Proofs of the statements of 17_power_reset.md: supply events, and the rows that stand still. -/

-- One proof after another: each `decide +kernel` waits for the kernel to have checked what stands before it.
set_option Elab.async false

namespace Sys2Proof.Machine

variable {c : Instr} {s t : State}

/-- Settles O15: each clause from the frame and the effect of its command. -/
theorem supplyEvents : Obligations.SupplyEvents := by
  unfold Obligations.SupplyEvents
  refine ⟨?droopStretch, ?railDip, ?railRecover, ?supplyEvt, ?holdoffEnd⟩
  case droopStretch =>
    intro d s hrun hd
    exact does_of_frame rfl (droopStretch_effect d s hrun hd)
  case railDip =>
    intro r mv l s hreset hlevels hlow hdipped
    exact does_of_frame rfl (railDip_effect r mv l s hreset hlevels hlow hdipped)
  case railRecover =>
    intro r mv us d s hrun hdip
    exact does_of_frame rfl (railRecover_effect r mv us d s hrun hdip)
  case supplyEvt =>
    intro x rest s hrun hsupply hon
    exact does_of_frame rfl (supplyEvt_effect x rest s hrun hsupply hon)
  case holdoffEnd =>
    intro ms s hreset hms hdips
    exact does_of_frame rfl (holdoffEnd_effect ms s hreset hms hdips)

/-! ## The module stands still -/

/-- In deep idle, or stopped, a row that needs RUN waits (R583). -/
theorem awake_asleep (t : State) (h : isAwake s = false) : awake s t = s := by
  simp [awake, h]

theorem exec_running_still (hs : stopped s = true) (he : exec c s = .next (running s t)) : exec c s = .next s := by
  rw [he, running_stopped t hs]

theorem exec_runningIn_still {n : Nat} (hs : stopped s = true) (he : exec c s = .next (runningIn n s t)) :
    exec c s = .next s := by
  rw [he, runningIn_stopped n t hs]

theorem exec_awake_still (hs : isAwake s = false) (he : exec c s = .next (awake s t)) : exec c s = .next s := by
  rw [he, awake_asleep t hs]

theorem isAwake_stopped (hs : stopped s = true) : isAwake s = false := by
  simp [isAwake, hs]

/-- Settles O35: the rows named stand behind `running` (21), `awake` (52, those that deep idle stops too) or `runningIn` (59), and each
gate answers the state itself. -/
theorem stoppedModuleStandsStill : Obligations.StoppedModuleStandsStill := by
  unfold Obligations.StoppedModuleStandsStill
  constructor
  · intro s hs
    have hrunning : ∀ {c t}, exec c s = .next (running s t) → exec c s = .next s := exec_running_still hs
    have hawake : ∀ {c t}, exec c s = .next (awake s t) → exec c s = .next s := exec_awake_still (isAwake_stopped hs)
    have hdomain : ∀ {c n t}, exec c s = .next (runningIn n s t) → exec c s = .next s := exec_runningIn_still hs
    iterate 21 refine ⟨by intros; exact hrunning rfl, ?_⟩
    iterate 52 refine ⟨by intros; exact hawake rfl, ?_⟩
    iterate 58 refine ⟨by intros; exact hdomain rfl, ?_⟩
    exact fun _ => hdomain rfl
  · intro s hs
    have hawake : ∀ {c t}, exec c s = .next (awake s t) → exec c s = .next s := exec_awake_still hs
    iterate 51 refine ⟨by intros; exact hawake rfl, ?_⟩
    exact fun _ _ => hawake rfl

end Sys2Proof.Machine
end

section
/-! Proofs of the statements of 18_safety.md and 19_gauge.md: the fault reaction and the Gauge. -/

-- One proof after another: each `decide +kernel` waits for the kernel to have checked what stands before it.
set_option Elab.async false

namespace Sys2Proof.Machine

/-- Settles O8: each clause from the frame and the effect of its command. -/
theorem breakwaterTrips : Obligations.BreakwaterTrips := by
  unfold Obligations.BreakwaterTrips
  refine ⟨?tempTrip, ?residueMismatch, ?residueMismatchAgain, ?pairLockstep, ?watchdogExpire, ?comparatorDisagree, ?forceFault⟩
  case tempTrip =>
    intro k t l s hlevel hhot hfault
    exact does_of_frame_everyReg rfl (tempTrip_effect k t l s hlevel hhot hfault)
  case residueMismatch =>
    intro cl s hrun hdom
    exact does_of_frame_everyReg rfl (residueMismatch_effect cl s hrun hdom)
  case residueMismatchAgain =>
    intro cl s hrun hdom
    exact does_of_frame_everyReg rfl (residueMismatchAgain_effect cl s hrun hdom)
  case pairLockstep =>
    intro p s hreset hstandby hp hpair hfault
    exact does_of_frame_everyReg rfl (pairLockstep_effect p s hreset hstandby hp hpair hfault)
  case watchdogExpire =>
    intro p s hreset hstandby hp harmed hfault
    exact does_of_frame_everyReg rfl (watchdogExpire_effect p s hreset hstandby hp harmed hfault)
  case comparatorDisagree =>
    intro ms s hms
    exact does_of_frame rfl (comparatorDisagree_effect ms s hms)
  case forceFault =>
    intro r a v s htarget hgate hbit hunlocked hfault
    exact does_of_frame_everyReg rfl (forceFault_effect r a v s htarget hgate hbit hunlocked hfault)

/-- Settles O19: each clause from the frame and the effect of its command. -/
theorem gaugeMetering : Obligations.GaugeMetering := by
  unfold Obligations.GaugeMetering
  refine ⟨?gaugeSample, ?gaugeSampleB, ?gaugePowerSecond, ?tallySend, ?tallyFrame, ?intervalEnd, ?closeNow, ?gaugeRecordSigned,
    ?gaugePowerUp, ?gaugeSupplyLoss⟩
  case gaugeSample =>
    intro mv ma n g s hpower
    exact does_of_frame rfl (gaugeSample_effect mv ma n g s hpower)
  case gaugeSampleB =>
    intro mv ma n g s hpower
    exact does_of_frame rfl (gaugeSampleB_effect mv ma n g s hpower)
  case gaugePowerSecond =>
    intro g s hpower
    exact does_of_frame rfl (gaugePowerSecond_effect g s hpower)
  case tallySend =>
    intro cl s hrun hdom htally
    exact does_of_frame rfl (tallySend_effect cl s hrun hdom htally)
  case tallyFrame =>
    intro bad alt g f rest s hpower hlines
    exact does_of_frame rfl (tallyFrame_effect bad alt g f rest s hpower hlines)
  case intervalEnd =>
    intro g s hpower hdue
    exact does_of_frame rfl (intervalEnd_effect g s hpower hdue)
  case closeNow =>
    intro g s hpower
    exact does_of_frame rfl (closeNow_effect g s hpower)
  case gaugeRecordSigned =>
    intro g body rest s hpower hsigning
    exact does_of_frame rfl (gaugeRecordSigned_effect g body rest s hpower hsigning)
  case gaugePowerUp =>
    intro s hpower
    exact does_of_frame rfl (gaugePowerUp_effect s hpower)
  case gaugeSupplyLoss =>
    intro s
    exact does_of_frame rfl (gaugeSupplyLoss_effect s)

/-- Settles O20: each clause from the frame and the effect of its command. -/
theorem gaugePort : Obligations.GaugePort := by
  unfold Obligations.GaugePort
  refine ⟨?status, ?intervalR, ?statusResume, ?intervalW, ?recSelect, ?recRead, ?resumeLoad, ?resumeGo, ?identRead⟩
  case status =>
    intro g s hpower
    exact does_of_frame rfl (status_effect g s hpower)
  case intervalR =>
    intro g s hpower
    exact does_of_frame rfl (intervalR_effect g s hpower)
  case statusResume =>
    intro g s hpower
    exact does_of_frame rfl (statusResume_effect g s hpower)
  case intervalW =>
    intro v g s hpower hlow hhigh
    exact does_of_frame rfl (intervalW_effect v g s hpower hlow hhigh)
  case recSelect =>
    intro n g s hpower hn
    exact does_of_frame rfl (recSelect_effect n g s hpower hn)
  case recRead =>
    intro g rd s hpower hrecord hoff
    exact does_of_frame rfl (recRead_effect g rd s hpower hrecord hoff)
  case resumeLoad =>
    intro bs g s hpower hlen hload
    exact does_of_frame rfl (resumeLoad_effect bs g s hpower hlen hload)
  case resumeGo =>
    intro g s hpower
    exact does_of_frame rfl (resumeGo_effect g s hpower)
  case identRead =>
    intro g s hpower
    exact does_of_frame rfl (identRead_effect g s hpower)

end Sys2Proof.Machine
end

section
/-! Proofs of the statements of 20_register_pages.md: pages whose domain is off. -/

-- One proof after another: each `decide +kernel` waits for the kernel to have checked what stands before it.
set_option Elab.async false

namespace Sys2Proof.Machine

variable {s : State}

/-! ## Pages whose domain is off -/

/-- The common header reads at any time (R634). -/
theorem readReg_header {t i o : Nat} (r : Requester) (ho : o < 0x10) : readReg s r t i o = readHeader s t i o := by
  unfold readReg
  exact if_pos ho

/-- Below the header a page whose domain is off reads 0 (R633). -/
theorem readReg_domainOff {t i o : Nat} (r : Requester) (hoff : domOn s (pageDomain t i) = false) (ho : 0x10 ≤ o) :
    readReg s r t i o = 0 := by
  unfold readReg
  rw [if_neg (Nat.not_lt.2 ho), hoff]
  rfl

/-- A judged write to a page whose domain is off passes at LOCK alone (R633). -/
theorem gate_domainOff {t i o : Nat} (r : Requester) (hoff : domOn s (pageDomain t i) = false) (ho : o ≠ 0xC) :
    gate s r t i o ≠ .pass := by
  have hignored : (!domOn s (pageDomain t i) && o ≠ 0xC) = true := by simp [hoff, ho]
  unfold gate
  rw [if_pos hignored]
  repeat' split
  all_goals decide

/-- Settles O38, from what the header, a read below it and the gate answer. -/
theorem offPageReadsZero : Obligations.OffPageReadsZero := by
  unfold Obligations.OffPageReadsZero
  exact fun s r t i o hoff => ⟨readReg_header r, readReg_domainOff r hoff, gate_domainOff r hoff⟩

end Sys2Proof.Machine
end
